-- ==== Sys2Proof/Word.lean ====
section
/-! DEFINITION. The plain word types of the model (00_scope.md R8, R9). -/

namespace Sys2Proof

/-- One byte of device or host memory. -/
abbrev Byte := BitVec 8

/-- A BAR0 register, zero-extended to its widest form (R580, R584). -/
abbrev Word64 := BitVec 64

/-- An FP32 number by its bits (R42). -/
abbrev F32 := BitVec 32

/-- A BF16 number by its bits (R34). -/
abbrev BF16 := BitVec 16

end Sys2Proof
end

