-- ==== Sys2Proof/Syntax.lean ====
section
/-! DEFINITION. The commands of the block: one constructor for each row of spec/opcode_table.json.
A packet row carries the packet's header and its parameter fields as they stand in the slots (R290, R300, R303 to R306),
reserved fields included. A BAR0 row carries the function and the value written. An event row carries what the outside
world shows at the event: an index, a measured value, a time. `at` is a time in ns of the clock `now`. -/

namespace Sys2Proof

/-- The 16-byte packet header (R290) with the function `fn` and the ring pair `ring` it was fetched from.
The opcode is the command's own. -/
structure Hdr where
  fn     : Nat
  ring   : Nat
  cls    : BitVec 8
  part   : BitVec 8
  flags  : BitVec 8
  seq    : BitVec 32
  length : BitVec 16
  rsv    : BitVec 16
  tag    : BitVec 32
  deriving DecidableEq, Repr

/-- Parameters of SESSION_OPEN (R300). -/
structure OpenParams where
  context   : BitVec 32
  placement : BitVec 16
  tag       : BitVec 16
  byte8     : BitVec 8
  byte9     : BitVec 8
  sprof     : BitVec 16
  lenMax    : BitVec 32
  kvBase    : BitVec 64
  seed      : BitVec 64
  deadline  : BitVec 64
  deriving DecidableEq, Repr

/-- Parameters of SESSION_APPEND (R300). -/
structure AppendParams where
  context  : BitVec 32
  count    : BitVec 32
  tokensVa : BitVec 64
  genLeft  : BitVec 16
  byte18   : BitVec 8
  rsv19    : BitVec 40
  deadline : BitVec 64
  deriving DecidableEq, Repr

/-- Parameters of SESSION_RESUME (R300). -/
structure ResumeParams where
  context  : BitVec 32
  genLeft  : BitVec 16
  byte6    : BitVec 8
  byte7    : BitVec 8
  deadline : BitVec 64
  deriving DecidableEq, Repr

/-- Parameters of MODEL_LOAD and MODEL_SWAP (R304). -/
structure LoadParams where
  modelId  : BitVec 16
  source   : BitVec 8
  nMembers : BitVec 8
  chainTag : BitVec 16
  head     : BitVec 16
  destVa   : BitVec 64
  src      : BitVec 64
  srcBytes : BitVec 64
  members  : List (BitVec 16)
  deriving DecidableEq, Repr

/-- Parameters of PLACE (R305). -/
structure PlaceParams where
  placement  : BitVec 16
  modelId    : BitVec 16
  profile    : BitVec 8
  rowmode    : BitVec 8
  layout     : BitVec 8
  share      : BitVec 8
  stageBytes : BitVec 32
  stepSlots  : BitVec 16
  tsSteps    : BitVec 16
  posMax     : BitVec 32
  tgt        : BitVec 32
  tilesVa    : BitVec 64
  tileCount  : BitVec 16
  rsv34      : BitVec 48
  loptVa     : BitVec 64
  deriving DecidableEq, Repr

/-- One item of PART_SET (R306): its declared LEN, its reserved header bytes and its value fields. -/
inductive PsItem
  | esc      (len : BitVec 16) (rsv : BitVec 32) (sat zro : BitVec 16)
  | age      (len : BitVec 16) (rsv : BitVec 32) (steps rsv1 : BitVec 8) (time : BitVec 16)
  | ranges   (len : BitVec 16) (rsv : BitVec 32) (ctxFirst ctxCount : BitVec 32) (tagFirst tagCount : BitVec 16)
  | buckets  (len : BitVec 16) (rsv : BitVec 32) (first count : BitVec 16) (refill burst : BitVec 32)
  | resRing  (len : BitVec 16) (rsv : BitVec 32) (value : BitVec 64)
  | freeRing (len : BitVec 16) (rsv : BitVec 32) (value : BitVec 64)
  | scratch  (len : BitVec 16) (rsv : BitVec 32) (frames : BitVec 16)
  | scree    (len : BitVec 16) (rsv : BitVec 32) (parkAfter ttl : BitVec 16) (base bytes : BitVec 64)
  | profiles (len : BitVec 16) (rsv : BitVec 32) (value : BitVec 64)
  | mmuRoot  (len : BitVec 16) (rsv : BitVec 32) (value : BitVec 64)
  | window   (len : BitVec 16) (rsv : BitVec 32) (index : BitVec 8) (rsv1 : BitVec 56) (base bytes : BitVec 64)
  | tiles    (len : BitVec 16) (rsv : BitVec 32) (first count : BitVec 16) (mode : BitVec 8) (rsv5 : BitVec 24)
  | ids      (len : BitVec 16) (rsv : BitVec 32) (modelFirst modelCount placeFirst placeCount : BitVec 16)
  | other    (item : BitVec 16) (len : BitVec 16)
  deriving DecidableEq, Repr

/-- The head of a PART_SET packet (R306), and the value of each item's padding bytes in item order (0 where none is given). -/
structure PsHead where
  target : BitVec 8
  nItems : BitVec 8
  rsv    : BitVec 48
  pads   : List Nat
  deriving DecidableEq, Repr

/-- A C-class packet's opcode and parameters (R303); PART_SET carries its items in order. -/
inductive CPacket
  | partCreate  (part : BitVec 8) (rsv : BitVec 56) (ringArea root : BitVec 64)
  | partDestroy (part byte1 : BitVec 8) (rsv : BitVec 48)
  | partSet     (head : PsHead) (items : List PsItem)
  | modelLoad   (p : LoadParams) (image : List Byte)
  | modelSwap   (p : LoadParams) (image : List Byte)
  | modelUnload (modelId : BitVec 16) (byte2 : BitVec 8) (rsv : BitVec 40)
  | place       (p : PlaceParams)
  | calRun      (scope byte1 : BitVec 8) (index : BitVec 16) (rsv : BitVec 32)
  | calQuery    (what byte1 : BitVec 8) (index : BitVec 16) (rsv : BitVec 32) (destVa : BitVec 64) (bytes rsv20 : BitVec 32)
  | testRun     (tile : BitVec 16) (kind : BitVec 8) (rsv : BitVec 40)
  | fwStage     (offset bytes : BitVec 32) (src rsv : BitVec 64) (data : List Byte)
  | fwActivate  (bank : BitVec 8) (rsv : BitVec 56) (sigOk : Bool)
  | twinPair    (peer : BitVec 16) (byte2 : BitVec 8) (rsv : BitVec 40)
  | twinUnpair  (byte0 : BitVec 8) (rsv : BitVec 56)
  | fabricJoin  (mask : BitVec 24) (rsv : BitVec 40)
  | linkQuery   (port : BitVec 8) (rsv : BitVec 56) (destVa : BitVec 64)
  | logRead     (log byte1 : BitVec 8) (first : BitVec 16) (count : BitVec 32) (destVa : BitVec 64)
  | keyLoad     (part : BitVec 8) (rsv : BitVec 56) (keyVa : BitVec 64) (keyBytes rsv20 : BitVec 32) (sigOk halvesEqual : Bool)
  | keyRetire   (part : BitVec 8) (rsv : BitVec 56)
  | zeroize     (rsv : BitVec 64)
  deriving DecidableEq, Repr

/-- How much of a 64-bit register a read or write covers (R584). -/
inductive Half | whole | low | high
  deriving DecidableEq, Repr

/-- An access to device memory through the host link (R282): the aperture of BAR4 (R283), or the function's ring area in BAR2 (R285). -/
inductive ApAccess
  | read  (len : Nat)
  | write (data : List Byte)
  | ringRead  (len : Nat)
  | ringWrite (data : List Byte)
  deriving DecidableEq, Repr

/-- What a configuration request changes: nothing that the module holds, or the MSI-X capability of its function (R284): Message
Control with MSI-X Enable and Function Mask, or the mask bit of one vector. -/
inductive CfgAccess
  | other
  | msixControl (enable mask : Bool)
  | msixVector  (vec : Nat) (mask : Bool)
  deriving DecidableEq, Repr

/-- A configuration request of a function (R554). -/
structure CfgRequest where
  fn  : Nat
  acc : CfgAccess
  deriving DecidableEq, Repr

/-- Margin test of a lane (R369): pre-FEC errors over 10^9 bits at 3.0 dB below the class launch and then in steps of 0.5 dB, and the
figures at the class launch. -/
structure LaneTest where
  lane   : Nat
  errs   : List Nat
  eyeW   : Nat
  berLog : Nat
  deriving DecidableEq, Repr

/-- What a start-up step finds (R551 to R553); a step reads only its own fields. -/
structure StartObs where
  refOk       : Bool           -- step 4: the reference is valid
  selfTestOk  : Bool           -- step 6: every crypto self-test passed
  bundleOk    : List Nat       -- step 7: banks whose bundle's digest and signature verify
  stackFail   : List Nat       -- step 9: quadrants with a stack that failed training three times
  tileFail    : List Nat       -- step 10: physical tiles that failed self-test
  laserFail   : List Nat       -- step 12: lasers whose warm-up failed
  ringFail    : List (Nat × Nat)  -- step 12: (cluster, ring) that could not be acquired
  farEnds     : List Nat       -- step 13: ports whose far end answers within 1.5 s
  lanes       : List LaneTest  -- step 13: margin tests of lanes i = 17 n + m
  deriving DecidableEq, Repr

/-- A key-value entry delivered by the K and V projections at append (R185): BF16 key and value of one head. -/
structure KvEntry where
  ctx   : Nat
  layer : Nat      -- attention layer, numbered by R177
  head  : Nat
  pos   : Nat      -- token position, or node of a tentative entry (R195)
  key   : List BF16
  val   : List BF16
  deriving DecidableEq, Repr

/-- One query row of a score pass (R148): its token position or tree node, its head, and its BF16 vector. -/
structure QueryRow where
  pos  : Nat
  node : Option Nat
  head : Nat
  q    : List BF16
  deriving DecidableEq, Repr

/-- A fabric message (R363, R364). -/
structure FMsg where
  dest    : Nat
  src     : Nat
  op      : Nat            -- [3:0] operation, [5:4] channel, [7:6] reserved
  part    : Nat            -- byte 5
  offset  : Nat            -- 48 bits, [47:44] reserved
  tag     : Nat
  payload : List Byte
  deriving DecidableEq, Repr

/-- A received fabric frame (R357, R358). -/
structure Frame where
  ok     : Bool            -- every codeword decoded and passed its CRC
  fseq   : BitVec 32
  ack    : BitVec 32
  nak    : Option (BitVec 32)
  credit : List Nat        -- credits returned for channels 0 to 3
  laneMap : BitVec 17
  mapSeq : BitVec 8
  prot   : Bool
  msgs   : List FMsg       -- messages completed by this frame
  deriving DecidableEq, Repr

/-- A calibrated object (R404). -/
inductive CalObj
  | tile (phys : Nat)
  | cluster (c : Nat) (full : Bool)
  | lane (i : Nat)
  | laser (n : Nat)
  | conv (k : Nat)
  deriving DecidableEq, Repr

/-- What a calibration run measured (R404, R411). -/
structure CalResult where
  gains    : List (Nat × Nat)         -- (array * 64 + column, g) in units of 2^-15
  offsets  : List (Nat × Int)         -- (array * 64 + column, o) in units of 1/64 LSB
  resid    : List (Nat × Nat)         -- (array, residual rms in 1/256 LSB)
  stuck    : List (Nat × Nat × Nat × Int)  -- array, row, column, stuck digit
  erratic  : List (Nat × Nat)         -- array, column of an erratic cell
  rowGains : List (Nat × Nat)         -- (head row * 2, and 1 for mix, gain in units of 2^-12 of the manufacturing value)
  heaters  : List (Nat × Nat)         -- (ring, heater code)
  window   : Nat × Nat                -- the band's heater window (low, high), below HTR_MAX
  htrMax   : List (Nat × Nat)         -- (ring, HTR_MAX as a heater code)
  setpoints : List (Nat × Nat)        -- (ring, set point)
  trims    : List (Nat × Nat)         -- (head row, offset-cancel trim in 2^-12); of a lane: 0 equaliser code, 1 threshold trim
  berOk    : Bool                     -- lane error ratio below 10^-6
  margin   : Nat × Nat × Nat          -- lane MARGIN, EYE_W, BER_LOG
  bias     : Nat                      -- laser bias-table entry in 0.25 mA
  conv     : Int × Int                -- converter offset in 1/16 LSB and gain error in ppm
  verified : Bool                     -- rings of the cluster VERIFIED at the end
  deriving DecidableEq, Repr

/-- Kind of a power emergency condition: the row of R436, from 0. -/
abbrev PowerRow := Nat

/-- The cause of a processor crash (R474). -/
inductive CrashCause | watchdog | exception | ecc
  deriving DecidableEq, Repr

/-- Output and frequency error of a laser at an update of its loops (R323), in 0.01 dBm and 0.1 GHz. -/
structure LaserSeen where
  pwr  : Int
  freq : Int
  deriving DecidableEq, Repr

/-- What a tone window gives (R325, R329): the tones found, with their levels over the noise floor in 0.01 dB, and the errors of the loop's
updates in it. -/
structure ToneSeen where
  tones : List (Nat × Int)
  errs  : List Int
  deriving DecidableEq, Repr

/-- How a tone window ended (R329). -/
inductive Tone | matched | mismatch | none
  deriving DecidableEq, Repr

/-- How training a port ended (R375): far coordinates, delay in 0.01 ns, and the margin tests of its lanes by number 0 to 16, where they
were tested (R369). -/
inductive TrainEnd
  | aligned (farCoord : Word64) (delay : Nat) (tests : List LaneTest)
  | failed
  | absent
  deriving DecidableEq, Repr

/-- The commands. One constructor per row of the opcode table, in its order. -/
inductive Instr
  -- D-class packets (R300)
  | sessionOpen (h : Hdr) (p : OpenParams)
  | sessionAppend (h : Hdr) (p : AppendParams)
  | sessionPause (h : Hdr) (context rsv : BitVec 32)
  | sessionResume (h : Hdr) (p : ResumeParams)
  | sessionClose (h : Hdr) (context rsv : BitVec 32)
  | specTree (h : Hdr) (context : BitVec 32) (n : BitVec 8) (rsv : BitVec 24) (treeVa : BitVec 64)
  | cairn (h : Hdr) (placement : BitVec 16) (rsv : BitVec 48)
  | ridge (h : Hdr) (placement lead load duration : BitVec 16)
  | fence (h : Hdr) (mask rsv : BitVec 32)
  | kvPark (h : Hdr) (context rsv : BitVec 32)
  | kvRestore (h : Hdr) (context rsv : BitVec 32)
  | unassignedOpcode (h : Hdr) (opcode : BitVec 8)
  -- C-class packets (R303, R306)
  | partCreate (h : Hdr) (part : BitVec 8) (rsv : BitVec 56) (ringArea root : BitVec 64)
  | partDestroy (h : Hdr) (part byte1 : BitVec 8) (rsv : BitVec 48)
  | partSetEsc (h : Hdr) (ps : PsHead) (len : BitVec 16) (rsv : BitVec 32) (sat zro : BitVec 16) (rest : List PsItem)
  | partSetAge (h : Hdr) (ps : PsHead) (len : BitVec 16) (rsv : BitVec 32) (steps rsv1 : BitVec 8) (time : BitVec 16)
      (rest : List PsItem)
  | partSetRanges (h : Hdr) (ps : PsHead) (len : BitVec 16) (rsv : BitVec 32) (ctxFirst ctxCount : BitVec 32)
      (tagFirst tagCount : BitVec 16) (rest : List PsItem)
  | partSetBuckets (h : Hdr) (ps : PsHead) (len : BitVec 16) (rsv : BitVec 32) (first count : BitVec 16)
      (refill burst : BitVec 32) (rest : List PsItem)
  | partSetResRing (h : Hdr) (ps : PsHead) (len : BitVec 16) (rsv : BitVec 32) (value : BitVec 64) (rest : List PsItem)
  | partSetFreeRing (h : Hdr) (ps : PsHead) (len : BitVec 16) (rsv : BitVec 32) (value : BitVec 64) (rest : List PsItem)
  | partSetScratch (h : Hdr) (ps : PsHead) (len : BitVec 16) (rsv : BitVec 32) (frames : BitVec 16) (rest : List PsItem)
  | partSetScree (h : Hdr) (ps : PsHead) (len : BitVec 16) (rsv : BitVec 32) (parkAfter ttl : BitVec 16)
      (base bytes : BitVec 64) (rest : List PsItem)
  | partSetProfiles (h : Hdr) (ps : PsHead) (len : BitVec 16) (rsv : BitVec 32) (value : BitVec 64) (rest : List PsItem)
  | partSetMmuRoot (h : Hdr) (ps : PsHead) (len : BitVec 16) (rsv : BitVec 32) (value : BitVec 64) (rest : List PsItem)
  | partSetWindow (h : Hdr) (ps : PsHead) (len : BitVec 16) (rsv : BitVec 32) (index : BitVec 8) (rsv1 : BitVec 56)
      (base bytes : BitVec 64) (rest : List PsItem)
  | partSetTiles (h : Hdr) (ps : PsHead) (len : BitVec 16) (rsv : BitVec 32) (first count : BitVec 16) (mode : BitVec 8)
      (rsv5 : BitVec 24) (rest : List PsItem)
  | partSetIds (h : Hdr) (ps : PsHead) (len : BitVec 16) (rsv : BitVec 32)
      (modelFirst modelCount placeFirst placeCount : BitVec 16) (rest : List PsItem)
  | modelLoad (h : Hdr) (p : LoadParams) (image : List Byte)
  | modelSwap (h : Hdr) (p : LoadParams) (image : List Byte)
  | modelUnload (h : Hdr) (modelId : BitVec 16) (byte2 : BitVec 8) (rsv : BitVec 40)
  | place (h : Hdr) (p : PlaceParams)
  | calRun (h : Hdr) (scope byte1 : BitVec 8) (index : BitVec 16) (rsv : BitVec 32)
  | calQuery (h : Hdr) (what byte1 : BitVec 8) (index : BitVec 16) (rsv : BitVec 32) (destVa : BitVec 64)
      (bytes rsv20 : BitVec 32)
  | testRun (h : Hdr) (tile : BitVec 16) (kind : BitVec 8) (rsv : BitVec 40)
  | fwStage (h : Hdr) (offset bytes : BitVec 32) (src rsv : BitVec 64) (data : List Byte)
  | fwActivate (h : Hdr) (bank : BitVec 8) (rsv : BitVec 56) (sigOk : Bool)
  | twinPair (h : Hdr) (peer : BitVec 16) (byte2 : BitVec 8) (rsv : BitVec 40)
  | twinUnpair (h : Hdr) (byte0 : BitVec 8) (rsv : BitVec 56)
  | fabricJoin (h : Hdr) (mask : BitVec 24) (rsv : BitVec 40)
  | linkQuery (h : Hdr) (port : BitVec 8) (rsv : BitVec 56) (destVa : BitVec 64)
  | logRead (h : Hdr) (log byte1 : BitVec 8) (first : BitVec 16) (count : BitVec 32) (destVa : BitVec 64)
  | keyLoad (h : Hdr) (part : BitVec 8) (rsv : BitVec 56) (keyVa : BitVec 64) (keyBytes rsv20 : BitVec 32)
      (sigOk halvesEqual : Bool)
  | openSession (h : Hdr) (rsv : BitVec 56) (keyVa : BitVec 64) (keyBytes rsv20 : BitVec 32) (sigOk : Bool)
  | keyRetire (h : Hdr) (part : BitVec 8) (rsv : BitVec 56)
  | zeroize (h : Hdr) (rsv : BitVec 64)
  -- doorbells and register accesses with rows of their own
  | sqDb (fn ring : Nat) (tail : BitVec 32)
  | cqDb (fn ring : Nat) (head : BitVec 32)
  | ringEnable (fn ring : Nat) (value : Word64)
  | ringDisable (fn ring : Nat) (value : Word64)
  | invalidate (fn p : Nat) (vpn : BitVec 32) (count : BitVec 16)
  | invalidateAll (fn p : Nat) (vpn : BitVec 32) (count : BitVec 16)
  | invalidationComplete (p : Nat)
  | reservoirTailWrite (fn p : Nat) (tail : BitVec 32)
  | freeHeadWrite (fn p : Nat) (head : BitVec 32)
  | moduleReset (fn : Nat) (quads : BitVec 4)
  | quadrantReset (fn : Nat) (quads : BitVec 4)
  | portEnable (fn n : Nat) (value : Word64)
  | portDisable (fn n : Nat) (value : Word64)
  | qread (fn : Nat) (half : Half)
  | rcRead (fn off len : Nat)
  | registerWrite (fn off : Nat) (data : List Byte) (partialBe : Bool)
  | apertureAccess (fn off : Nat) (acc : ApAccess)
  | unsupportedRequest (fn : Nat) (isRead : Bool)
  -- power, resets, sideband
  | powerOn (at_ : Nat)
  | startUpStepEnd (at_ : Nat) (obs : StartObs)
  | perst (lowNs : Nat)
  | functionLevelReset (p : Nat)
  | d3hot (fn : Nat)
  | vfEnableClear
  | setCoord (value : Word64) (len : Nat)
  | setCap (watts : BitVec 16) (len : Nat)
  | getDevpub (len : Nat)
  | getState (len : Nat)
  | debugUnlock (tokenOk : Bool)
  | referenceLoss
  | referenceRestored (validNs : Nat)
  -- the data path
  | stepBuild (placement at_ : Nat)
  | passIssue (tile pslot layer expert : Nat) (acts : List (List BF16))
  | arrayCycle (tile : Nat)
  | tileLayerPassEnd (tile : Nat) (residue : Bool) (appends tentative : List KvEntry)
  | arrayWrite (tile array pslot layer digit : Nat) (dup : Bool) (chunk : Nat)
  | scorePass (tile pslot ctx layer head seg : Nat) (rows : List QueryRow)
  | mixPass (tile pslot ctx layer head seg : Nat)
  | lockAlarm (cluster ring at_ : Nat)
  | headLayerForward (tile pslot ctx layer head at_ : Nat)
  | sample (placement ctx : Nat) (logits : List (List BF16))
  | stepRetire (placement at_ : Nat)
  | completionWrite (fn ring at_ : Nat)
  | completionBufferStall (placement at_ : Nat)
  | frameReturn (p : Nat)
  | globalCairn (at_ : Nat)
  | quadrantCairn (q at_ : Nat)
  | tileCairn (tile at_ : Nat)
  | swapHold (model at_ : Nat)
  | swapComplete (model at_ : Nat)
  | patrolScrub (addr : Nat) (corrected uncorrectable : Bool)
  | driftFilterUpdate (tile : Nat)
  -- calibration and tests
  | calTriggerCheck (at_ : Nat)
  | calibrationSlice (phys at_ : Nat)
  | calRunEnd (obj : CalObj) (res : CalResult) (at_ : Nat)
  | calFlashRecord (obj : CalObj) (ok : Bool)
  | testDue (tile at_ : Nat)
  | testSlice (tile at_ : Nat) (sig : Word64)
  | testOverdue (tile at_ : Nat) (sig : Word64)
  -- lasers and rings
  | powerLoopUpdate (n : Nat) (seen : LaserSeen)
  | fadeEvaluation (n : Nat) (pwr : Int) (at_ : Nat)
  | spareReady (n at_ : Nat)
  | spareTimeout (n at_ : Nat)
  | ioLaserSwap (n at_ : Nat)
  | toneWindow (cluster ring : Nat) (seen : ToneSeen) (quality at_ : Nat)
  | acquisitionTimeout (cluster ring at_ : Nat)
  | heaterLimit (cluster ring at_ : Nat)
  -- the fabric and the twin
  | frameReceived (n : Nat) (f : Frame) (at_ : Nat)
  | laneRemap (n : Nat) (laneMap : BitVec 17) (at_ : Nat)
  | requestTimeout (tag at_ : Nat)
  | relay (n : Nat) (m : FMsg)
  | relayResend (tag at_ : Nat)
  | chain (n : Nat) (m : FMsg)
  | chainOpenTimeout (fn tag at_ : Nat)
  | journal (n : Nat) (m : FMsg)
  | resp (n : Nat) (m : FMsg)
  | probe (n : Nat) (m : FMsg)
  | probeSend (at_ : Nat)
  | probeLoss (module at_ : Nat)
  | mgmt (n : Nat) (m : FMsg)
  | timeRecord (n received : Nat)
  | timeRecordSend (at_ : Nat)
  | frameAlignmentLoss (n at_ : Nat)
  | portRetrain (n at_ : Nat)
  | heartbeat (path state : Nat) (takeover : Bool) (ackSeq at_ : Nat)
  | heartbeatSend (at_ : Nat)
  | peerLost (at_ : Nat)
  | ackWaitExpiry (at_ : Nat)
  -- power and temperature
  | fastLimiter (at_ : Nat) (qest : List Nat)
  | ptpReview (at_ : Nat) (coreTerms : List Nat)
  | capFloor (at_ : Nat)
  | droop (q at_ : Nat)
  | operatingPointBoundary (q at_ : Nat)
  | vgood (q at_ : Nat)
  | powerEmergency (row : PowerRow) (measured at_ : Nat)
  | criticalRelease (row : PowerRow) (at_ : Nat)
  | ridgeWindow (at_ : Nat)
  | sequencerEntry (at_ : Nat)
  | integrationPeriodEnd (pair : Nat) (codeV codeI energy : Int) (at_ : Nat)
  | refSettled (at_ : Nat)
  | thermalSample (region : Nat) (temps : List Int) (at_ : Nat)
  | demandRelease (region at_ : Nat)
  -- firmware
  | watchdog (i : Nat) (cause : CrashCause) (at_ : Nat)
  | alive (i at_ : Nat)
  | governorRelease (at_ : Nat)
  | activationTimeout (at_ : Nat)
  | longOperationSlice (fn seq amount at_ : Nat)
  | progress (fn seq at_ : Nat)
  | screeScan (at_ : Nat)
  | parkComplete (ctx at_ : Nat)
  | restoreComplete (ctx at_ : Nat)
  | contextCacheWriteBack (q : Nat)
  | fenceTimeout (fn ring at_ : Nat)
  | fullRingReminder (fn ring at_ : Nat)
  | coSessionTimeout (at_ : Nat)
  | selfTestFailure (cause : Nat)
  | faultLogFlush (at_ : Nat)
  | mapRecordWrite (at_ : Nat)
  | lifetimeCounterWrite (q at_ : Nat)
  -- further events
  | trainingComplete (n : Nat) (res : TrainEnd) (at_ : Nat)
  | pairingTimeout (at_ : Nat)
  | perstRelease (at_ : Nat)
  | vfEnableSet (numVfs : Nat)
  | configurationRequest (req : CfgRequest)
  deriving DecidableEq, Repr

end Sys2Proof
end

