-- ==== Sys2Proof/Config.lean ====
section
/-! DEFINITION. Free values: what the manual leaves open and a run shall not fix (log entry 2).
Each is an opaque constant, applied to what it may depend on or to the counter `free` of the state. -/

namespace Sys2Proof.Config

/-- A byte of device memory that nothing has written since start-up (R602), by address and start-up count. -/
opaque unwrittenByte : Nat → Nat → Byte
/-- A byte read under a key that did not write it (R526, R531), by address, reading key and writing key. -/
opaque wrongKeyByte : Nat → Nat → Nat → Byte
/-- Whether an access uses the old run of a stale translation (R184), by free-value number, time and entry address. -/
opaque staleUsesOld : Nat → Nat → Nat → Bool
/-- Analogue error of one conversion in units of 1/1024 LSB, by free-value number; R86 bounds it where its conditions hold. -/
opaque conversionNoise : Nat → Int
/-- Optical error of one delivered score or mix count in units of 1/1024, by free-value number; R163 bounds it where its conditions
hold. -/
opaque opticalNoise : Nat → Int
/-- FP32 exponential (R155, R240): no rounding is stated; of an argument up to 0 the model uses it within [0, 1]. -/
opaque expF32 : F32 → F32
/-- FP32 natural logarithm (R241): no rounding is stated. -/
opaque logF32 : F32 → F32
/-- Payload of a NaN result (R36, R42: IEEE 754 leaves it open). -/
opaque nanPayload : BitVec 22
/-- What firmware chooses when it places the system region and the tables in it (R600), by start-up count and item. -/
opaque systemRegionChoice : Nat → Nat → Nat
/-- Output of the DRBG that becomes the device public key (R528), by key number and register index. -/
opaque devicePublicKey : Nat → Nat → Word64
/-- Fused serial number (R590). -/
opaque serialNumber : Word64
/-- Fused identity of compute die q (R593). -/
opaque dieId : Nat → BitVec 32
/-- Loop parameters PCP writes at start-up (R353), by quadrant and start-up count. -/
opaque loopParameters : Nat → Nat → BitVec 32
/-- Where firmware places a placement's layer statistics table (R64), by placement and placing. -/
opaque statsTable : Nat → Nat → Nat
/-- Ratio of a reference result to an expectation of 0 (R117 with DRIFT_MIN 0), by free-value number. -/
opaque driftRatio : Nat → Rat
/-- Whether a test round passes that no other tile's signature can judge (R504), by free-value number. -/
opaque loneTestPasses : Nat → Bool
/-- Which of a quadrant's spares takes over an index (R20), by free-value number. -/
opaque spareChoice : Nat → Nat
/-- Probability code of a score that is no number (R155), by free-value number. -/
opaque nanProbability : Nat → Nat
/-- Full-activity power of quadrant q at OP0 in quarter watts (R433), by quadrant. -/
opaque fullPower : Nat → Nat
/-- Whether a receiver goes on with a frame out of order, the missing one being held no longer (R365), by free-value number. -/
opaque skipsLostFrame : Nat → Bool
/-- POSITION of a token completion that carries no token and to which no rule gives one (R293), by free-value number. -/
opaque emptyPosition : Nat → BitVec 21
/-- A byte that the host reads from a unit that reads as uncorrectable (R499, R601), by address and free-value number. -/
opaque uncorrectableByte : Nat → Nat → Byte
/-- Drive that a laser's wavelength loop asks of its tuning heater (R323), by laser, drive in force and frequency error. -/
opaque tuneDrive : Nat → Nat → Int → Nat
/-- Tuning-heater window of a laser in a temperature band (R323, R460): low and high drive. -/
opaque tuneWindow : Nat → Nat → Nat × Nat
/-- The part of a ring loop's drive that lies below the crossover (R325), by XOVER, the heater's last drive and the loop's drive. -/
opaque crossover : Nat → Nat → Int → Int
/-- Heater codes of the resonances that a ring's sweep finds (R332), by cluster, ring and time the acquisition began. -/
opaque resonances : Nat → Nat → Nat → List Nat
/-- Largest electro-optic trim of a ring either way (R325), by cluster and ring. -/
opaque trimRange : Nat → Nat → Nat
/-- Element of a layer input after its NORM (R256: no formula or rounding is stated), by NORM, the tile's part of the input, element and
free-value number; the rest of the input vector stands behind the last. -/
opaque normed : Nat → List BF16 → Nat → Nat → BF16
/-- GELU and SiLU of a layer output in FP32 (R256: no rounding is stated), by ACT. -/
opaque actFn : Nat → F32 → F32
/-- A layer output with the layer's input stream added (R256), by output, element and free-value number, which stands for the stream. -/
opaque withResidual : F32 → Nat → Nat → F32
/-- Commissioning output power of laser n in 0.01 dBm (R323, R349), loaded at start-up. -/
opaque commissioningPower : Nat → BitVec 16

end Sys2Proof.Config
end

