-- ==== Sys2Proof/Machine/Table.lean ====
section
/-! DEFINITION. Sparse tables in one canonical form: keys strictly rising, and no entry equal to what an unlisted key
reads as. Every indexed piece of state (registers, contexts, tiles, memory cells) is held in such a table. -/

namespace Sys2Proof.Machine

/-- A sparse table from a number to a value. -/
abbrev Tbl (α : Type) := List (Nat × α)

/-- The value at key `i`; `d` where the key is not listed. -/
def tget {α : Type} (d : α) : Tbl α → Nat → α
  | [], _ => d
  | (k, v) :: t, i => if i = k then v else tget d t i

/-- Insertion at a key, in key order. -/
def tins {α : Type} (i : Nat) (x : α) : Tbl α → Tbl α
  | [] => [(i, x)]
  | (k, v) :: t =>
    if i < k then (i, x) :: (k, v) :: t
    else if i = k then (i, x) :: t
    else (k, v) :: tins i x t

/-- The table without a key. -/
def tdel {α : Type} (i : Nat) : Tbl α → Tbl α
  | [] => []
  | (k, v) :: t => if i = k then tdel i t else (k, v) :: tdel i t

/-- Write of one key; writing the default removes the entry. -/
def tset {α : Type} [DecidableEq α] (d : α) (t : Tbl α) (i : Nat) (x : α) : Tbl α :=
  if x = d then tdel i t else tins i x t

/-- Canonical form: keys strictly rising. -/
def tsorted {α : Type} : Tbl α → Bool
  | [] => true
  | [_] => true
  | (a, _) :: (b, y) :: t => decide (a < b) && tsorted ((b, y) :: t)

/-- The keys listed. -/
def tkeys {α : Type} (t : Tbl α) : List Nat := t.map Prod.fst

end Sys2Proof.Machine
end

