-- ==== Sys2Proof/Machine/Bits.lean ====
section
/-! DEFINITION. Bit fields, byte order and sign conversion (00_scope.md R8, R9). -/

namespace Sys2Proof.Machine

/-- Bits [lo + n - 1 : lo] of a number. -/
def bitsOf (v lo n : Nat) : Nat := v / 2 ^ lo % 2 ^ n

/-- One bit of a number. -/
def bitOf (v i : Nat) : Bool := v / 2 ^ i % 2 == 1

/-- A number as a one-bit field value. -/
def b2n (b : Bool) : Nat := if b then 1 else 0

/-- Field [lo + n - 1 : lo] of a 64-bit word. -/
def getBits (v : Word64) (lo n : Nat) : Nat := bitsOf v.toNat lo n

/-- A 64-bit word with field [lo + n - 1 : lo] replaced by the low n bits of x. -/
def putBits (v : Word64) (lo n x : Nat) : Word64 :=
  BitVec.ofNat 64 (v.toNat % 2 ^ lo + (x % 2 ^ n) * 2 ^ lo + v.toNat / 2 ^ (lo + n) * 2 ^ (lo + n))

/-- A two's-complement field of n bits as an integer. -/
def signed (n v : Nat) : Int := if v % 2 ^ n < 2 ^ (n - 1) then (v % 2 ^ n : Nat) else (v % 2 ^ n : Nat) - (2 ^ n : Nat)

/-- An integer as a two's-complement field of n bits. -/
def unsigned (n : Nat) (i : Int) : Nat := (i % (2 ^ n : Nat)).toNat

/-- The n bytes of a number, least significant first (R9). -/
def leBytes : Nat → Nat → List Byte
  | 0, _ => []
  | n + 1, v => BitVec.ofNat 8 (v % 256) :: leBytes n (v / 256)

/-- A number from its bytes, least significant first (R9). -/
def ofLeBytes : List Byte → Nat
  | [] => 0
  | b :: t => b.toNat + 256 * ofLeBytes t

/-- Quotient rounded up. -/
def ceilDiv (a b : Nat) : Nat := (a + b - 1) / b

/-- The least e with 2^e at least n (0 for n at most 1). -/
def ceilLog2 (n : Nat) : Nat := if n ≤ 1 then 0 else Nat.log2 (n - 1) + 1

/-- List update at an index; unchanged where the index is past the end. -/
def lset {α : Type} (l : List α) (i : Nat) (x : α) : List α := l.set i x

/-- Insertion of an element where it first does not come after. -/
def insBy {α : Type} (before : α → α → Bool) (x : α) : List α → List α
  | [] => [x]
  | y :: t => if before x y then x :: y :: t else y :: insBy before x t

/-- A list put in order; equal elements keep theirs. -/
def sortBy {α : Type} (before : α → α → Bool) : List α → List α
  | [] => []
  | x :: t => insBy (fun a b => !(before b a)) x (sortBy before t)

end Sys2Proof.Machine
end

