-- ==== Sys2Proof/Machine/Fp.lean ====
section
/-! DEFINITION. FP32 and BF16 arithmetic: every operation is exact and rounded once, to nearest with ties to even
(R34, R41, R42), with the compensated sum of R42 and the pairwise combination of R43. -/

namespace Sys2Proof.Machine

/-- Quotient rounded to nearest, ties to even. -/
def rneDiv (n d : Nat) : Nat :=
  let q := n / d
  let r := n % d
  if d < 2 * r || (2 * r == d && q % 2 == 1) then q + 1 else q

/-- A rational times a power of two. -/
def scale2 (q : Rat) (k : Int) : Rat :=
  if 0 ≤ k then q * (2 ^ k.toNat : Nat) else q / (2 ^ (-k).toNat : Nat)

/-- Rounded to nearest integer, ties to even. -/
def rneRat (q : Rat) : Int :=
  let m : Int := rneDiv q.num.natAbs q.den
  if q.num < 0 then -m else m

/-- Rounded to nearest integer, ties away from zero. -/
def rnaRat (q : Rat) : Int :=
  let m : Int := ((2 * q.num.natAbs + q.den) / (2 * q.den) : Nat)
  if q.num < 0 then -m else m

/-- Rounded to nearest integer, ties towards zero. -/
def rtzRat (q : Rat) : Int :=
  let n := q.num.natAbs
  let m : Int := (if 2 * (n % q.den) ≤ q.den then n / q.den else n / q.den + 1 : Nat)
  if q.num < 0 then -m else m

/-- Absolute value. -/
def absRat (q : Rat) : Rat := if q < 0 then -q else q

/-- Largest e with 2^e at most the positive rational n / d. -/
def floorLog2 (n d : Nat) : Int :=
  let e : Int := (Nat.log2 n : Int) - Nat.log2 d
  let ok := if 0 ≤ e then d * 2 ^ e.toNat ≤ n else d ≤ n * 2 ^ (-e).toNat
  if ok then e else e - 1

/-- Magnitude bits of a binary format with 8 exponent bits and `fb` fraction bits, rounded once; all-ones exponent on
overflow. -/
def roundMag (fb : Nat) (n d : Nat) : Nat :=
  if n = 0 then 0
  else
    let e := max (floorLog2 n d) (-126)
    let k := (fb : Int) - e
    let m := if 0 ≤ k then rneDiv (n * 2 ^ k.toNat) d else rneDiv n (d * 2 ^ (-k).toNat)
    min ((e + 126).toNat * 2 ^ fb + m) (255 * 2 ^ fb)

/-- Sign bit of an FP32 number. -/
def fSign (x : F32) : Bool := x.toNat ≥ 2 ^ 31
/-- Exponent field. -/
def fExp (x : F32) : Nat := bitsOf x.toNat 23 8
/-- Fraction field. -/
def fFrac (x : F32) : Nat := bitsOf x.toNat 0 23
/-- Not a number. -/
def fNaN (x : F32) : Bool := fExp x == 255 && fFrac x != 0
/-- An infinity. -/
def fInf (x : F32) : Bool := fExp x == 255 && fFrac x == 0
/-- Finite. -/
def fFinite (x : F32) : Bool := fExp x != 255
/-- Either zero. -/
def fZero (x : F32) : Bool := fExp x == 0 && fFrac x == 0

/-- Value of a finite FP32 number. -/
def fVal (x : F32) : Rat :=
  let e := fExp x
  let m : Nat := if e = 0 then fFrac x else 2 ^ 23 + fFrac x
  let q := scale2 (m : Rat) (((max e 1 : Nat) : Int) - 150)
  if fSign x then -q else q

/-- A rational rounded once to FP32; `neg` is the sign of a zero result. -/
def fRound (q : Rat) (neg : Bool := false) : F32 :=
  let m := roundMag 23 q.num.natAbs q.den
  let s := if q.num < 0 then true else if q.num = 0 then neg else false
  BitVec.ofNat 32 (m + if s then 2 ^ 31 else 0)

/-- Infinity of a sign. -/
def fInfOf (neg : Bool) : F32 := if neg then 0xFF800000 else 0x7F800000

/-- A NaN result; its payload is left open (log entry 2). -/
def fQNaN : F32 := 0x7FC00000 ||| Config.nanPayload.setWidth 32

/-- Negation. -/
def fNeg (x : F32) : F32 := x ^^^ 0x80000000

/-- Magnitude. -/
def fAbs (x : F32) : F32 := x &&& 0x7FFFFFFF

/-- Sum. -/
def fAdd (a b : F32) : F32 :=
  if fNaN a || fNaN b then fQNaN
  else if fInf a then (if fInf b && fSign a != fSign b then fQNaN else a)
  else if fInf b then b
  else fRound (fVal a + fVal b) (fSign a && fSign b)

/-- Difference. -/
def fSub (a b : F32) : F32 := fAdd a (fNeg b)

/-- Product. -/
def fMul (a b : F32) : F32 :=
  let neg := fSign a != fSign b
  if fNaN a || fNaN b then fQNaN
  else if fInf a || fInf b then (if fZero a || fZero b then fQNaN else fInfOf neg)
  else
    let q := fVal a * fVal b
    let r := fRound q neg
    if fZero r && neg then 0x80000000 else r

/-- Quotient. -/
def fDiv (a b : F32) : F32 :=
  let neg := fSign a != fSign b
  if fNaN a || fNaN b then fQNaN
  else if fInf a then (if fInf b then fQNaN else fInfOf neg)
  else if fInf b then (if neg then 0x80000000 else 0)
  else if fZero b then (if fZero a then fQNaN else fInfOf neg)
  else
    let r := fRound (fVal a / fVal b) neg
    if fZero r && neg then 0x80000000 else r

/-- a ≥ b; false where either is a NaN. -/
def fGe (a b : F32) : Bool :=
  if fNaN a || fNaN b then false
  else if fInf a then (!fSign a) || (fInf b && fSign b)
  else if fInf b then fSign b
  else decide (fVal b ≤ fVal a)

/-- a > b; false where either is a NaN. -/
def fGt (a b : F32) : Bool := !(fNaN a || fNaN b) && !(fGe b a)

/-- An integer as FP32. -/
def fOfInt (i : Int) : F32 := fRound i

/-- BF16 as FP32, exactly. -/
def ofBf (x : BF16) : F32 := BitVec.ofNat 32 (x.toNat * 65536)

/-- FP32 rounded to BF16. -/
def toBf (x : F32) : BF16 :=
  if fNaN x then BitVec.ofNat 16 (fQNaN.toNat / 65536)
  else if fInf x then BitVec.ofNat 16 (x.toNat / 65536)
  else
    let q := fVal x
    BitVec.ofNat 16 (roundMag 7 q.num.natAbs q.den + if fSign x then 2 ^ 15 else 0)

/-- The running pair of a compensated sum (R42): once a sum is not finite, compensation has stopped. `sat` counts the
infinities that arose from finite operands. -/
structure FAcc where
  sum  : F32 := 0
  err  : F32 := 0
  stop : Bool := false
  sat  : Nat := 0
  deriving DecidableEq, Repr

/-- One compensated step (R42). -/
def FAcc.add (a : FAcc) (x : F32) : FAcc :=
  let t := fAdd a.sum x
  if a.stop then { a with sum := t }
  else if !(fFinite t) then
    { sum := t, err := 0, stop := true, sat := a.sat + (if fFinite a.sum && fFinite x then 1 else 0) }
  else
    let e := if fGe (fAbs a.sum) (fAbs x) then fAdd (fSub a.sum t) x else fAdd (fSub x t) a.sum
    { a with sum := t, err := fAdd a.err e }

/-- A list of terms in order. -/
def fSum (xs : List F32) : FAcc := xs.foldl FAcc.add {}

/-- The result of a compensated sum. -/
def FAcc.result (a : FAcc) : F32 := if a.stop then a.sum else fAdd a.sum a.err

/-- The result, and whether it overflowed in its last addition from finite operands (R41, R113). -/
def FAcc.finish (a : FAcc) : F32 × Nat := (a.result, if !a.stop && !(fFinite a.result) then 1 else 0)

/-- The pair handed on under split-K (R42). -/
def FAcc.pair (a : FAcc) : F32 × F32 := if fFinite a.sum then (a.sum, a.err) else (a.sum, 0)

/-- Combination of two K-parts (R43), with the SAT count it makes. -/
def fCombine (a b : F32 × F32) : (F32 × F32) × Nat :=
  let t := fAdd a.1 b.1
  if fFinite a.1 && fFinite b.1 && fFinite t then
    let c := if fGe (fAbs a.1) (fAbs b.1) then fAdd (fSub a.1 t) b.1 else fAdd (fSub b.1 t) a.1
    ((t, fAdd (fAdd a.2 b.2) c), 0)
  else ((t, 0), if fFinite a.1 && fFinite b.1 then 1 else 0)

/-- One level of the pairwise tree over K-parts with their numbers: the nodes, and the SAT each combination makes at its lower member
(R43). -/
def kLevel : List (Nat × F32 × F32) → List (Nat × F32 × F32) × List (Nat × Nat)
  | a :: b :: t =>
    let x := fCombine a.2 b.2
    let r := kLevel t
    ((a.1, x.1) :: r.1, (a.1, x.2) :: r.2)
  | l => (l, [])

/-- The pairwise tree over K-parts 0 to S - 1 (R43); `fuel` levels suffice when 2^fuel is at least S. -/
def kTree : Nat → List (Nat × F32 × F32) → (F32 × F32) × List (Nat × Nat)
  | f + 1, a :: b :: t =>
    let x := kLevel (a :: b :: t)
    let r := kTree f x.1
    (r.1, x.2 ++ r.2)
  | _, l => ((l.headD (0, 0, 0)).2, [])

/-- The exponential as the model uses it: 1 at 0, and within [0, 1] up to 0 (R155). -/
def fExpo (x : F32) : F32 :=
  if fNaN x then fQNaN
  else if fZero x then 0x3F800000
  else if fSign x then (if fInf x then 0 else BitVec.ofNat 32 ((Config.expF32 x).toNat % 0x3F800001))
  else Config.expF32 x

end Sys2Proof.Machine
end

