-- ==== Sys2Proof/Machine/Numerics.lean ====
section
/-! DEFINITION. Block formats, quantisation, digits, the block accumulator and outlier extraction
(02_block_numerics.md; R124 to R126 of 04_mordant_path.md). -/

namespace Sys2Proof.Machine

/-! ## Formats (R30, R31) -/

/-- Code bits of a weight or key-value format code (R256, R259): 1 XB2, 2 XB3, 3 XB4, 4 XB6, 5 XB8. -/
def fmtBits : Nat → Nat
  | 1 => 2 | 2 => 3 | 3 => 4 | 4 => 6 | _ => 8

/-- Largest code magnitude M of a width in bits. -/
def codeMax (bits : Nat) : Nat := 2 ^ (bits - 1) - 1

/-- Bytes of a block of a width in bits (R31). -/
def blockBytes (bits : Nat) : Nat := 1 + 4 * bits

/-- Weight digits D of a width in bits (R31). -/
def weightDigits : Nat → Nat
  | 2 => 1 | 3 => 1 | 4 => 2 | 6 => 3 | _ => 4

/-- Activation digit passes P of a width in bits (R31). -/
def actPasses : Nat → Nat
  | 4 => 1 | 6 => 2 | _ => 3

/-- A block's code as it is decoded: an unused code is -M (R32). -/
def decodeCode (bits v : Nat) : Int := if v % 2 ^ bits = 2 ^ (bits - 1) then -(codeMax bits : Int) else signed bits v

/-- A block's scale byte and its 32 raw codes (R30). -/
def decodeBlock (bits : Nat) (bs : List Byte) : Nat × List Nat :=
  match bs with
  | [] => (0, [])
  | e :: t =>
    let v := ofLeBytes t
    (e.toNat, (List.range 32).map fun i => bitsOf v (i * bits) bits)

/-- The bytes of a block. -/
def encodeBlock (bits e : Nat) (codes : List Int) : List Byte :=
  let v := (codes.zip (List.range 32)).foldl (fun a c => a + unsigned bits c.1 * 2 ^ (c.2 * bits)) 0
  BitVec.ofNat 8 e :: leBytes (4 * bits) v

/-- A list cut into runs of n. -/
def chunksOf {α : Type} (n : Nat) : Nat → List α → List (List α)
  | 0, _ => []
  | f + 1, l => if l.isEmpty then [] else l.take n :: chunksOf n f (l.drop n)

/-- A vector cut into blocks of 32, the last one padded (R33). -/
def blocksOf {α : Type} (z : α) (l : List α) : List (List α) :=
  (chunksOf 32 l.length l).map fun b => b ++ List.replicate (32 - b.length) z

/-! ## Quantising (R34 to R36) -/

/-- The least k from -127 to 127 with round(maxabs / 2^k) at most M, or 127 (R34). -/
def scaleExp (M : Nat) (maxabs : Rat) : Int :=
  if maxabs = 0 then -127
  else
    let e0 := floorLog2 maxabs.num.natAbs maxabs.den - Nat.log2 M - 1
    let ks : List Int := (List.range 4).map fun i : Nat => max (-127) (min 127 (e0 + (i : Int)))
    (ks.find? fun k => decide (rneRat (scale2 maxabs (-k)) ≤ (M : Int))).getD 127

/-- Largest magnitude of the finite elements. -/
def maxAbs (xs : List BF16) : Rat :=
  xs.foldl (fun m x => let f := ofBf x; if fFinite f then max m (absRat (fVal f)) else m) 0

/-- One element's code, and whether it was clipped, infinite or a NaN. -/
def quantOne (M : Nat) (k : Int) (x : BF16) : Int × Bool :=
  let f := ofBf x
  if fNaN f then (0, true)
  else if fInf f then (if fSign f then -(M : Int) else M, true)
  else
    let r := rneRat (scale2 (fVal f) (-k))
    if r > M then (M, true) else if r < -(M : Int) then (-(M : Int), true) else (r, false)

/-- Non-zero element of a block (a NaN and an infinity are non-zero, R36). -/
def bfNonzero (x : BF16) : Bool := x.toNat % 2 ^ 15 ≠ 0

/-- A quantised block: its scale byte and codes, and its counts (R49, R50). -/
structure QBlock where
  e       : Nat
  codes   : List Int
  sat     : Nat
  zro     : Nat
  nonzero : Nat
  elems   : Nat
  deriving DecidableEq, Repr

/-- Quantisation of one block whose extracted elements are zero already; `n` elements are not padding. `stat` is a static
scale byte (R35). `gone` tells the extracted elements, which are in no count (R50). -/
def quantBlock (bits : Nat) (stat : Option Nat) (xs : List BF16) (n : Nat) (gone : List Nat) : QBlock :=
  let M := codeMax bits
  let e : Nat := match stat with
    | some e => e
    | none => (scaleExp M (maxAbs xs) + 127).toNat
  let qs := xs.map (quantOne M ((e : Int) - 127))
  let live := (List.range n).filter fun i => !gone.contains i
  let nz := live.filter fun i => bfNonzero (xs.getD i 0)
  { e := e, codes := qs.map Prod.fst,
    sat := (live.filter fun i => (qs.getD i (0, false)).2).length,
    zro := (nz.filter fun i => (qs.getD i (0, true)).1 == 0 && !(qs.getD i (0, true)).2).length,
    nonzero := nz.length, elems := live.length }

/-- A head vector quantised with one scale over all its elements (R146): scale byte, codes and clip count. -/
def quantVec (M : Nat) (stat : Option Nat) (xs : List BF16) : Nat × List Int × Nat :=
  let e : Nat := match stat with
    | some e => e
    | none => (scaleExp M (maxAbs xs) + 127).toNat
  let qs := xs.map (quantOne M ((e : Int) - 127))
  (e, qs.map Prod.fst, (qs.filter Prod.snd).length)

/-! ## Outlier extraction (R124) -/

/-- The indices of a block's candidates, tested in FP32. -/
def candidates (theta : F32) (xs : List BF16) (n : Nat) : List Nat :=
  if fZero theta then []
  else
    let fs := (xs.take n).map ofBf
    let fin := fs.filter fFinite
    let q := fin.foldl (fun a x => fAdd a (fMul x x)) 0
    let cnt := fOfInt ((fin.length : Int) - 1)
    (List.range n).filter fun i =>
      let x := fs.getD i 0
      fFinite x && fGt (fMul (fMul x x) cnt) (fMul (fMul theta theta) (fSub q (fMul x x)))

/-- Candidates by largest magnitude, lower row first. -/
def insCand (xs : List BF16) (i : Nat) : List Nat → List Nat
  | [] => [i]
  | j :: t =>
    if (xs.getD j 0).toNat % 2 ^ 15 ≥ (xs.getD i 0).toNat % 2 ^ 15 then j :: insCand xs i t else i :: j :: t

/-- The chosen elements of a block, at most 2, and the number of further candidates (AOUT_XS). -/
def chooseOutliers (theta : F32) (xs : List BF16) (n : Nat) : List Nat × Nat :=
  let cs := (candidates theta xs n).foldl (fun l i => insCand xs i l) []
  (cs.take 2, cs.length - 2)

/-! ## Digits (R37, R38) -/

/-- The n signed digits of a value in a base, least significant first, by truncation towards zero. -/
def digitsOf (base : Nat) : Nat → Int → List Int
  | 0, _ => []
  | n + 1, w =>
    let t := Int.tdiv w base
    (w - base * t) :: digitsOf base n t

/-- Digit d of a weight (R37). -/
def weightDigit (bits d : Nat) (w : Int) : Int := (digitsOf 4 (weightDigits bits) w).getD d 0

/-- Digit p of an activation (R38). -/
def actDigit (bits p : Nat) (v : Int) : Int := (digitsOf 8 (actPasses bits) v).getD p 0

/-! ## Escalation (R51 to R54, R57) -/

/-- The next wider activation format in bits (R51). -/
def wider (bits : Nat) : Nat := if bits = 4 then 6 else 8

/-- A fraction exceeds a threshold in units of 2^-16; a fraction whose denominator is 0 is 0 (R50, R60). -/
def overThr (num den thr : Nat) : Bool := den ≠ 0 && thr * den < num * 65536

/-- Rungs that a format lies above the image's activation format (R53). -/
def rungsAbove (img bits : Nat) : Nat :=
  let rank : Nat → Nat := fun b => if b ≤ 4 then 0 else if b = 6 then 1 else 2
  rank bits - rank img

/-- Bits of a pin or AFMT code (R54, R256): 1 or AFMT 3 XB4, 2 or 4 XB6, 3 or 5 XB8. -/
def pinBits : Nat → Nat
  | 2 => 6 | 3 => 8 | _ => 4

end Sys2Proof.Machine
end

