-- ==== Sys2Proof/Machine/Regs.lean ====
section
/-! DEFINITION. The register map: every register of BAR0 with its address, its reset value and its fields, row by row
from the register tables of the chapters (R580 and each chapter's layout rule). -/

namespace Sys2Proof.Machine

/-- Access type of a field (R11). -/
inductive Acc | ro | rw | w1c | w1s | wo | rc
  deriving DecidableEq, Repr

/-- A field of a register: its lowest bit, its width and its access type. -/
structure Field where
  lo  : Nat
  w   : Nat
  acc : Acc
  deriving DecidableEq, Repr

/-- A register: its key (BAR0 offset; the ring registers of partition p lie 2^24 * p higher, one view per function,
R315) and its reset value. -/
structure RegRef where
  key  : Nat
  dflt : Word64
  deriving DecidableEq, Repr

/-- Who sees a register (R582). -/
inductive Vis | all | pf0 | part | window | tile | own
  deriving DecidableEq, Repr

/-- Who may write a register, and whether a refused write is logged (the layout rule of each block). -/
inductive Wr
  | ro       -- no host write acts; it is ignored (R11)
  | logged   -- no host write acts; it is ignored and logged (R351)
  | pf0      -- PF0 only; any other function's write is ignored and logged
  | part     -- the function of partition p and PF0
  | own      -- the function itself (R317, R318)
  | session  -- PF0 while a Crypto Officer session is open (R538)
  deriving DecidableEq, Repr

/-- Where a register lives, as far as a quadrant in reset or down makes it unreadable (R585). -/
inductive Dom | svc | tile | quad | laser | cluster | stack
  deriving DecidableEq, Repr

/-- Reset value of LAS.BIAS[n]: BIAS_MAX is 560 mA for compute lasers, 140 mA for I/O lasers; registers of no laser read 0
(R322, R349). -/
def lasBiasReset (n : Nat) : Word64 :=
  let k := n % 256
  if k < 32 then 0x08C00000 else if k < 236 then 0x02300000 else 0

/-- Reset value of LAS.STAT[n]: POS is s of R322 (R350). -/
def lasStatReset (n : Nat) : Word64 :=
  if n % 256 < 236 then BitVec.ofNat 64 (n % 2) else 0

/-- CFG.TILE_MAP[t] when the last 16 physical tiles of the quadrant are its spares (R19, R596; log entry 5). -/
def tileMapReset (t : Nat) : Word64 :=
  let i := t % 256
  BitVec.ofNat 64 (t / 256 + (i % 17) * 4 + (i / 17) * 128 + 2048)

/-- CFG.PHYS_MAP[i] under the same assignment (R19, R597; log entry 5). -/
def physMapReset (i : Nat) : Word64 :=
  let k := i % 272
  if k < 256 then BitVec.ofNat 64 (i / 272 * 256 + k + 2048) else 0

/-- MDT.ESC_THR[p] (R59, R60). -/
def Reg.MDT_ESC_THR (i : Nat) : RegRef := ⟨0x80800 + 0x4 * i, 0x10000400⟩
/-- MDT.PART_ESC[p] (R59, R61). -/
def Reg.MDT_PART_ESC (i : Nat) : RegRef := ⟨0x80900 + 0x8 * i, 0x0⟩
/-- MDT.TILE_NUM[t] (R59, R62). -/
def Reg.MDT_TILE_NUM (i : Nat) : RegRef := ⟨0x81000 + 0x8 * i, 0x0⟩
/-- MDT.TILE_ESC[t] (R59, R63). -/
def Reg.MDT_TILE_ESC (i : Nat) : RegRef := ⟨0x83000 + 0x8 * i, 0x0⟩
/-- CAB.CHK_CFG (R103, R105). -/
def Reg.CAB_CHK_CFG : RegRef := ⟨0x70000, 0x18⟩
/-- CAB.REPAIR_CFG (R103, R106). -/
def Reg.CAB_REPAIR_CFG : RegRef := ⟨0x70004, 0x108408⟩
/-- CAB.BANK_CAP (R103, R107). -/
def Reg.CAB_BANK_CAP : RegRef := ⟨0x70010, 0x20228200⟩
/-- CAB.TILE_STAT[t] (R103, R108). -/
def Reg.CAB_TILE_STAT (i : Nat) : RegRef := ⟨0x72000 + 0x10 * i, 0x200⟩
/-- CAB.TILE_CNT[t] (R103, R109). -/
def Reg.CAB_TILE_CNT (i : Nat) : RegRef := ⟨0x72008 + 0x10 * i, 0x0⟩
/-- MDT.CFG (R134, R136). -/
def Reg.MDT_CFG : RegRef := ⟨0x80000, 0x203444⟩
/-- MDT.CAP (R134, R137). -/
def Reg.MDT_CAP : RegRef := ⟨0x80004, 0xAA01000⟩
/-- MDT.TILE_OUT[t] (R134, R138). -/
def Reg.MDT_TILE_OUT (i : Nat) : RegRef := ⟨0x85000 + 0x10 * i, 0x0⟩
/-- MDT.TILE_CHK[t] (R134, R139). -/
def Reg.MDT_TILE_CHK (i : Nat) : RegRef := ⟨0x85008 + 0x10 * i, 0x0⟩
/-- MDT.TILE_DRIFT[t] (R134, R140). -/
def Reg.MDT_TILE_DRIFT (i : Nat) : RegRef := ⟨0x89000 + 0x8 * i, 0x0⟩
/-- MDT.PART_OUT[p] (R134, R141). -/
def Reg.MDT_PART_OUT (i : Nat) : RegRef := ⟨0x8B000 + 0x8 * i, 0x0⟩
/-- IND.CFG (R168, R169). -/
def Reg.IND_CFG : RegRef := ⟨0x90000, 0x420⟩
/-- IND.CAP (R168, R170). -/
def Reg.IND_CAP : RegRef := ⟨0x90004, 0x40201088⟩
/-- IND.TILE_STAT[t] (R168, R171). -/
def Reg.IND_TILE_STAT (i : Nat) : RegRef := ⟨0x91000 + 0x10 * i, 0x0⟩
/-- IND.TILE_CNT[t] (R168, R172). -/
def Reg.IND_TILE_CNT (i : Nat) : RegRef := ⟨0x91008 + 0x10 * i, 0x0⟩
/-- IND.PART_CNT[p] (R168, R173). -/
def Reg.IND_PART_CNT (i : Nat) : RegRef := ⟨0x95000 + 0x8 * i, 0x0⟩
/-- KVT.RES_RING[p] (R206, R207). -/
def Reg.KVT_RES_RING (i : Nat) : RegRef := ⟨0xC0000 + 0x40 * i, 0x0⟩
/-- KVT.RES_IDX[p] (R206, R208). -/
def Reg.KVT_RES_IDX (i : Nat) : RegRef := ⟨0xC0008 + 0x40 * i, 0x0⟩
/-- KVT.FREE_RING[p] (R206, R207). -/
def Reg.KVT_FREE_RING (i : Nat) : RegRef := ⟨0xC0010 + 0x40 * i, 0x0⟩
/-- KVT.FREE_IDX[p] (R206, R209). -/
def Reg.KVT_FREE_IDX (i : Nat) : RegRef := ⟨0xC0018 + 0x40 * i, 0x0⟩
/-- KVT.RES_CFG[p] (R206, R210). -/
def Reg.KVT_RES_CFG (i : Nat) : RegRef := ⟨0xC0020 + 0x40 * i, 0x100⟩
/-- KVT.SCREE_CFG[p] (R206, R211). -/
def Reg.KVT_SCREE_CFG (i : Nat) : RegRef := ⟨0xC0024 + 0x40 * i, 0x1078014⟩
/-- KVT.PART_CNT[p] (R206, R212). -/
def Reg.KVT_PART_CNT (i : Nat) : RegRef := ⟨0xC0030 + 0x40 * i, 0x0⟩
/-- MMU.ROOT[p] (R213, R214). -/
def Reg.MMU_ROOT (i : Nat) : RegRef := ⟨0x60000 + 0x10 * i, 0x0⟩
/-- MMU.INV[p] (R213, R215). -/
def Reg.MMU_INV (i : Nat) : RegRef := ⟨0x60008 + 0x10 * i, 0x0⟩
/-- SCH.CFG (R243, R244). -/
def Reg.SCH_CFG : RegRef := ⟨0xD0000, 0x7D003E8⟩
/-- SCH.CTX_TBL (R243, R245). -/
def Reg.SCH_CTX_TBL : RegRef := ⟨0xD0008, 0x0⟩
/-- SCH.HIST_TBL (R243, R245). -/
def Reg.SCH_HIST_TBL : RegRef := ⟨0xD0010, 0x0⟩
/-- SCH.BKT_TBL (R243, R245). -/
def Reg.SCH_BKT_TBL : RegRef := ⟨0xD0018, 0x0⟩
/-- SCH.SYS_RGN (R243, R245). -/
def Reg.SCH_SYS_RGN : RegRef := ⟨0xD0020, 0x0⟩
/-- SCH.AGE_CFG[p] (R243, R246). -/
def Reg.SCH_AGE_CFG (i : Nat) : RegRef := ⟨0xD0100 + 0x20 * i, 0x138840⟩
/-- SCH.BKT_RANGE[p] (R243, R247). -/
def Reg.SCH_BKT_RANGE (i : Nat) : RegRef := ⟨0xD0104 + 0x20 * i, 0x0⟩
/-- SCH.CTX_RANGE[p] (R243, R247). -/
def Reg.SCH_CTX_RANGE (i : Nat) : RegRef := ⟨0xD0108 + 0x20 * i, 0x0⟩
/-- SCH.PART_CNT[p] (R243, R249). -/
def Reg.SCH_PART_CNT (i : Nat) : RegRef := ⟨0xD0110 + 0x20 * i, 0x0⟩
/-- SCH.ID_RANGE[p] (R243, R248). -/
def Reg.SCH_ID_RANGE (i : Nat) : RegRef := ⟨0xD0118 + 0x20 * i, 0x0⟩
/-- SCH.QSTAT[q] (R243, R250). -/
def Reg.SCH_QSTAT (i : Nat) : RegRef := ⟨0xD1000 + 0x8 * i, 0x0⟩
/-- SMP.CAP (R251, R252). -/
def Reg.SMP_CAP : RegRef := ⟨0xE0000, 0x88040000⟩
/-- SMP.PROF_TBL[p] (R251, R253). -/
def Reg.SMP_PROF_TBL (i : Nat) : RegRef := ⟨0xE0100 + 0x8 * i, 0x0⟩
/-- SMP.QCNT[q] (R251, R254). -/
def Reg.SMP_QCNT (i : Nat) : RegRef := ⟨0xE1000 + 0x8 * i, 0x0⟩
/-- SCH.RING_AREA (R315, R316). -/
def Reg.SCH_RING_AREA (p : Nat) : RegRef := ⟨0xD8000 + 0x1000000 * p, 0x0⟩
/-- SCH.FN_STAT (R315, R316). -/
def Reg.SCH_FN_STAT (p : Nat) : RegRef := ⟨0xD8008 + 0x1000000 * p, 0x0⟩
/-- SCH.APER (R315, R317). -/
def Reg.SCH_APER (p : Nat) : RegRef := ⟨0xD8010 + 0x1000000 * p, 0x0⟩
/-- SCH.RING_CFG[r] (R315, R318). -/
def Reg.SCH_RING_CFG (p : Nat) (i : Nat) : RegRef := ⟨0xD8100 + 0x20 * i + 0x1000000 * p, 0x0⟩
/-- SCH.SQ_DB[r] (R315, R319). -/
def Reg.SCH_SQ_DB (p : Nat) (i : Nat) : RegRef := ⟨0xD8108 + 0x20 * i + 0x1000000 * p, 0x0⟩
/-- SCH.CQ_DB[r] (R315, R319). -/
def Reg.SCH_CQ_DB (p : Nat) (i : Nat) : RegRef := ⟨0xD810C + 0x20 * i + 0x1000000 * p, 0x0⟩
/-- SCH.RING_IDX[r] (R315, R320). -/
def Reg.SCH_RING_IDX (p : Nat) (i : Nat) : RegRef := ⟨0xD8110 + 0x20 * i + 0x1000000 * p, 0x0⟩
/-- SCH.RING_STAT[r] (R315, R320). -/
def Reg.SCH_RING_STAT (p : Nat) (i : Nat) : RegRef := ⟨0xD8118 + 0x20 * i + 0x1000000 * p, 0x0⟩
/-- LAS.CFG (R346, R347). -/
def Reg.LAS_CFG : RegRef := ⟨0xA0000, 0x60A0A5A⟩
/-- LAS.BANK[q] (R346, R348). -/
def Reg.LAS_BANK (i : Nat) : RegRef := ⟨0xA0100 + 0x8 * i, 0x0⟩
/-- LAS.BIAS[n] (R346, R349). -/
def Reg.LAS_BIAS (i : Nat) : RegRef := ⟨0xA1000 + 0x10 * i, lasBiasReset i⟩
/-- LAS.STAT[n] (R346, R350). -/
def Reg.LAS_STAT (i : Nat) : RegRef := ⟨0xA1008 + 0x10 * i, lasStatReset i⟩
/-- RNG.CAP (R351, R352). -/
def Reg.RNG_CAP : RegRef := ⟨0xB0000, 0x422D148⟩
/-- RNG.LOOP[q] (R351, R353). -/
def Reg.RNG_LOOP (i : Nat) : RegRef := ⟨0xB0100 + 0x4 * i, 0x0⟩
/-- RNG.QCNT[q] (R351, R354). -/
def Reg.RNG_QCNT (i : Nat) : RegRef := ⟨0xB0200 + 0x8 * i, 0x0⟩
/-- RNG.CLU_STAT[c] (R351, R355). -/
def Reg.RNG_CLU_STAT (i : Nat) : RegRef := ⟨0xB1000 + 0x8 * i, 0x0⟩
/-- LNK.CFG (R392, R393). -/
def Reg.LNK_CFG : RegRef := ⟨0xF0000, 0xA3208⟩
/-- LNK.COORD (R392, R394). -/
def Reg.LNK_COORD : RegRef := ⟨0xF0008, 0xFFFF⟩
/-- LNK.SLICE[p] (R392, R395). -/
def Reg.LNK_SLICE (i : Nat) : RegRef := ⟨0xF0100 + 0x8 * i, 0x0⟩
/-- LNK.PORT_CFG[n] (R392, R396). -/
def Reg.LNK_PORT_CFG (i : Nat) : RegRef := ⟨0xF1000 + 0x20 * i, 0x2⟩
/-- LNK.PORT_STAT[n] (R392, R397). -/
def Reg.LNK_PORT_STAT (i : Nat) : RegRef := ⟨0xF1008 + 0x20 * i, 0x3FFFC00⟩
/-- LNK.PORT_CNT[n] (R392, R398). -/
def Reg.LNK_PORT_CNT (i : Nat) : RegRef := ⟨0xF1010 + 0x20 * i, 0x0⟩
/-- LNK.LANE[i] (R392, R399). -/
def Reg.LNK_LANE (i : Nat) : RegRef := ⟨0xF2000 + 0x8 * i, 0x0⟩
/-- TWN.CFG (R400, R401). -/
def Reg.TWN_CFG : RegRef := ⟨0x100000, 0x140A⟩
/-- TWN.STAT (R400, R402). -/
def Reg.TWN_STAT : RegRef := ⟨0x100008, 0x7FFF8⟩
/-- TWN.JRN (R400, R403). -/
def Reg.TWN_JRN : RegRef := ⟨0x100010, 0x0⟩
/-- TWN.CNT (R400, R403). -/
def Reg.TWN_CNT : RegRef := ⟨0x100018, 0x0⟩
/-- POW.CAP (R444, R445). -/
def Reg.POW_CAP : RegRef := ⟨0x110000, 0xE100CE4⟩
/-- POW.INPUT (R444, R445). -/
def Reg.POW_INPUT : RegRef := ⟨0x110008, 0x0⟩
/-- POW.STAT (R444, R446). -/
def Reg.POW_STAT : RegRef := ⟨0x110010, 0xCE4⟩
/-- POW.EST_CAL (R444, R445). -/
def Reg.POW_EST_CAL : RegRef := ⟨0x110018, 0x4000⟩
/-- POW.CNT (R444, R447). -/
def Reg.POW_CNT : RegRef := ⟨0x110020, 0x0⟩
/-- POW.OP[q] (R444, R448). -/
def Reg.POW_OP (i : Nat) : RegRef := ⟨0x110100 + 0x10 * i, 0x226002D⟩
/-- POW.QCNT[q] (R444, R448). -/
def Reg.POW_QCNT (i : Nat) : RegRef := ⟨0x110108 + 0x10 * i, 0x0⟩
/-- HKC.CFG (R449, R450). -/
def Reg.HKC_CFG : RegRef := ⟨0x120000, 0xFA0⟩
/-- HKC.STAT (R449, R450). -/
def Reg.HKC_STAT : RegRef := ⟨0x120008, 0x2⟩
/-- HKC.QREAD (R449, R451). -/
def Reg.HKC_QREAD : RegRef := ⟨0x120010, 0x0⟩
/-- HKC.CNT (R449, R450). -/
def Reg.HKC_CNT : RegRef := ⟨0x120018, 0x0⟩
/-- HKC.CHTBL[e] (R449, R452). -/
def Reg.HKC_CHTBL (i : Nat) : RegRef := ⟨0x120100 + 0x8 * i, 0x0⟩
/-- THM.CFG (R462, R463). -/
def Reg.THM_CFG : RegRef := ⟨0x130000, 0x2D1408⟩
/-- THM.STAT (R462, R464). -/
def Reg.THM_STAT : RegRef := ⟨0x130008, 0xF00⟩
/-- THM.CNT (R462, R464). -/
def Reg.THM_CNT : RegRef := ⟨0x130010, 0x0⟩
/-- THM.REGION[r] (R462, R465). -/
def Reg.THM_REGION (i : Nat) : RegRef := ⟨0x130100 + 0x8 * i, 0x0⟩
/-- THM.TILE[t] (R462, R466). -/
def Reg.THM_TILE (i : Nat) : RegRef := ⟨0x131000 + 0x4 * i, 0x0⟩
/-- FWP.CFG (R488, R489). -/
def Reg.FWP_CFG : RegRef := ⟨0x140000, 0x5⟩
/-- FWP.BOOT (R488, R490). -/
def Reg.FWP_BOOT : RegRef := ⟨0x140008, 0x0⟩
/-- FWP.ACT (R488, R491). -/
def Reg.FWP_ACT : RegRef := ⟨0x140010, 0x0⟩
/-- FWP.VER[b] (R488, R492). -/
def Reg.FWP_VER (i : Nat) : RegRef := ⟨0x140100 + 0x8 * i, 0x0⟩
/-- FWP.PROC[i] (R488, R493). -/
def Reg.FWP_PROC (i : Nat) : RegRef := ⟨0x140200 + 0x8 * i, 0x0⟩
/-- TILE.TEST_CFG (R514, R515). -/
def Reg.TILE_TEST_CFG : RegRef := ⟨0x40000, 0x100A⟩
/-- TILE.QFLT[q] (R514, R516). -/
def Reg.TILE_QFLT (i : Nat) : RegRef := ⟨0x40100 + 0x8 * i, 0x10⟩
/-- TILE.FLT[t] (R514, R517). -/
def Reg.TILE_FLT (i : Nat) : RegRef := ⟨0x41000 + 0x10 * i, 0x0⟩
/-- TILE.TEST[t] (R514, R518). -/
def Reg.TILE_TEST (i : Nat) : RegRef := ⟨0x41008 + 0x10 * i, 0x0⟩
/-- MEM.ECC[s] (R514, R519). -/
def Reg.MEM_ECC (i : Nat) : RegRef := ⟨0x54000 + 0x8 * i, 0x0⟩
/-- SEC.CFG (R537, R538). -/
def Reg.SEC_CFG : RegRef := ⟨0x150000, 0x12C⟩
/-- SEC.STAT (R537, R539). -/
def Reg.SEC_STAT : RegRef := ⟨0x150008, 0x0⟩
/-- SEC.CO_CTR (R537, R540). -/
def Reg.SEC_CO_CTR : RegRef := ⟨0x150010, 0x0⟩
/-- SEC.CNT (R537, R540). -/
def Reg.SEC_CNT : RegRef := ⟨0x150018, 0x0⟩
/-- SEC.DEVPUB[k] (R537, R540). -/
def Reg.SEC_DEVPUB (i : Nat) : RegRef := ⟨0x150100 + 0x8 * i, 0x0⟩
/-- SEC.PART[p] (R537, R541). -/
def Reg.SEC_PART (i : Nat) : RegRef := ⟨0x150200 + 0x8 * i, (if i = 0 then 1 else 0)⟩
/-- SEC.WIN[w] (R537, R541). -/
def Reg.SEC_WIN (i : Nat) : RegRef := ⟨0x151000 + 0x8 * i, 0x0⟩
/-- CLK.STAT (R556, R557). -/
def Reg.CLK_STAT : RegRef := ⟨0x20000, 0x0⟩
/-- CLK.TIME (R556, R557). -/
def Reg.CLK_TIME : RegRef := ⟨0x20008, 0x0⟩
/-- CLK.TSYNC (R556, R558). -/
def Reg.CLK_TSYNC : RegRef := ⟨0x20010, 0x1F⟩
/-- CLK.RESET (R556, R559). -/
def Reg.CLK_RESET : RegRef := ⟨0x20018, 0x0⟩
/-- CLK.START (R556, R560). -/
def Reg.CLK_START : RegRef := ⟨0x20020, 0x0⟩
/-- GLB.ID (R588, R589). -/
def Reg.GLB_ID : RegRef := ⟨0x0, 0xB1083201B1⟩
/-- GLB.SERIAL (R588, R590). -/
def Reg.GLB_SERIAL : RegRef := ⟨0x8, 0x0⟩
/-- GLB.CAP (R588, R590). -/
def Reg.GLB_CAP : RegRef := ⟨0x10, 0xC0062042004⟩
/-- GLB.SUMMARY (R588, R591). -/
def Reg.GLB_SUMMARY : RegRef := ⟨0x18, 0x0⟩
/-- GLB.FN (R588, R592). -/
def Reg.GLB_FN : RegRef := ⟨0x20, 0x0⟩
/-- CFG.CAL_CTL (R594, R595). -/
def Reg.CFG_CAL_CTL : RegRef := ⟨0x10000, 0x10⟩
/-- CFG.TILE_MAP[t] (R594, R596). -/
def Reg.CFG_TILE_MAP (i : Nat) : RegRef := ⟨0x11000 + 0x4 * i, tileMapReset i⟩
/-- CFG.PHYS_MAP[i] (R594, R597). -/
def Reg.CFG_PHYS_MAP (i : Nat) : RegRef := ⟨0x12000 + 0x4 * i, physMapReset i⟩
/-- QUAD.ID[q] (R593). -/
def Reg.QUAD_ID (i : Nat) : RegRef := ⟨0x30000 + 0x8 * i, 0xB1B1⟩

/-! Fields, in the order of their tables. -/

def Fld.MDT_ESC_THR_ESC_SAT : Field := ⟨0, 16, .ro⟩
def Fld.MDT_ESC_THR_ESC_ZRO : Field := ⟨16, 16, .ro⟩
def Fld.MDT_PART_ESC_TO_XB6 : Field := ⟨0, 21, .rc⟩
def Fld.MDT_PART_ESC_TO_XB8 : Field := ⟨21, 21, .rc⟩
def Fld.MDT_PART_ESC_TO_DIG : Field := ⟨42, 21, .rc⟩
def Fld.MDT_TILE_NUM_SAT : Field := ⟨0, 20, .rc⟩
def Fld.MDT_TILE_NUM_ZRO : Field := ⟨20, 20, .rc⟩
def Fld.MDT_TILE_NUM_EZ : Field := ⟨40, 24, .rc⟩
def Fld.MDT_TILE_ESC_TO_XB6 : Field := ⟨0, 16, .rc⟩
def Fld.MDT_TILE_ESC_TO_XB8 : Field := ⟨16, 16, .rc⟩
def Fld.MDT_TILE_ESC_TO_DIG : Field := ⟨32, 16, .rc⟩
def Fld.MDT_TILE_ESC_DOUBT : Field := ⟨48, 8, .rc⟩
def Fld.MDT_TILE_ESC_WCODE_RSV : Field := ⟨56, 8, .rc⟩
def Fld.CAB_CHK_CFG_CONF_TOL : Field := ⟨0, 8, .rw⟩
def Fld.CAB_CHK_CFG_SPARSE_OFF : Field := ⟨8, 1, .rw⟩
def Fld.CAB_REPAIR_CFG_RES_LIM : Field := ⟨0, 8, .rw⟩
def Fld.CAB_REPAIR_CFG_MAX_ADJ : Field := ⟨8, 4, .rw⟩
def Fld.CAB_REPAIR_CFG_MAX_WORN : Field := ⟨12, 4, .rw⟩
def Fld.CAB_REPAIR_CFG_RET_ARR_LIM : Field := ⟨16, 7, .rw⟩
def Fld.CAB_BANK_CAP_ARRAYS : Field := ⟨0, 10, .ro⟩
def Fld.CAB_BANK_CAP_ROWS : Field := ⟨10, 6, .ro⟩
def Fld.CAB_BANK_CAP_COLS : Field := ⟨16, 6, .ro⟩
def Fld.CAB_BANK_CAP_RAMP_STEPS : Field := ⟨22, 8, .ro⟩
def Fld.CAB_TILE_STAT_ARR_AVAIL : Field := ⟨0, 10, .ro⟩
def Fld.CAB_TILE_STAT_RET_ARR : Field := ⟨10, 7, .ro⟩
def Fld.CAB_TILE_STAT_RET_COL : Field := ⟨17, 12, .ro⟩
def Fld.CAB_TILE_STAT_WORN : Field := ⟨29, 12, .ro⟩
def Fld.CAB_TILE_STAT_MODE : Field := ⟨41, 2, .ro⟩
def Fld.CAB_TILE_STAT_RESIDENT : Field := ⟨43, 1, .ro⟩
def Fld.CAB_TILE_CNT_SPLIT : Field := ⟨0, 16, .rc⟩
def Fld.CAB_TILE_CNT_ZGROUP : Field := ⟨16, 16, .rc⟩
def Fld.CAB_TILE_CNT_CHK_SAT : Field := ⟨32, 16, .rc⟩
def Fld.CAB_TILE_CNT_GEN_WAIT : Field := ⟨48, 16, .rc⟩
def Fld.MDT_CFG_CHK_TOL1 : Field := ⟨0, 8, .rw⟩
def Fld.MDT_CFG_CHK_TOL2 : Field := ⟨8, 8, .rw⟩
def Fld.MDT_CFG_DRIFT_MIN : Field := ⟨16, 8, .rw⟩
def Fld.MDT_CFG_DRIFT_OFF : Field := ⟨24, 1, .rw⟩
def Fld.MDT_CAP_WOUT_CAP : Field := ⟨0, 13, .ro⟩
def Fld.MDT_CAP_AOUT_CAP : Field := ⟨13, 9, .ro⟩
def Fld.MDT_CAP_AOUT_BLK : Field := ⟨22, 2, .ro⟩
def Fld.MDT_CAP_MAC_LOG2 : Field := ⟨24, 4, .ro⟩
def Fld.MDT_TILE_OUT_WOUT_MAX : Field := ⟨0, 13, .ro⟩
def Fld.MDT_TILE_OUT_AOUT_EXT : Field := ⟨16, 16, .rc⟩
def Fld.MDT_TILE_OUT_OUTLIER_OVF : Field := ⟨32, 16, .rc⟩
def Fld.MDT_TILE_OUT_AOUT_XS : Field := ⟨48, 16, .rc⟩
def Fld.MDT_TILE_CHK_CHK_MIS : Field := ⟨0, 16, .rc⟩
def Fld.MDT_TILE_CHK_CHK_SKIP : Field := ⟨16, 16, .rc⟩
def Fld.MDT_TILE_CHK_DIG_PIN : Field := ⟨32, 16, .rc⟩
def Fld.MDT_TILE_CHK_MAC_WAIT : Field := ⟨48, 16, .rc⟩
def Fld.MDT_TILE_DRIFT_CLAMP_ARR : Field := ⟨0, 10, .ro⟩
def Fld.MDT_TILE_DRIFT_HMAX : Field := ⟨10, 10, .ro⟩
def Fld.MDT_TILE_DRIFT_CLAMP_EV : Field := ⟨20, 16, .rc⟩
def Fld.MDT_TILE_DRIFT_CLAMP_PASS : Field := ⟨36, 28, .rc⟩
def Fld.MDT_PART_OUT_OVF_PASS : Field := ⟨0, 21, .rc⟩
def Fld.MDT_PART_OUT_CHK_MIS : Field := ⟨21, 21, .rc⟩
def Fld.MDT_PART_OUT_CLAMP_PASS : Field := ⟨42, 21, .rc⟩
def Fld.IND_CFG_LOCK_HOLD : Field := ⟨0, 8, .rw⟩
def Fld.IND_CFG_OPT_OFF : Field := ⟨8, 1, .rw⟩
def Fld.IND_CFG_SFS : Field := ⟨9, 2, .rw⟩
def Fld.IND_CAP_WAVES : Field := ⟨0, 4, .ro⟩
def Fld.IND_CAP_ROWS : Field := ⟨4, 4, .ro⟩
def Fld.IND_CAP_PHASES : Field := ⟨8, 5, .ro⟩
def Fld.IND_CAP_DH_MAX : Field := ⟨13, 9, .ro⟩
def Fld.IND_CAP_SEG_MAX : Field := ⟨22, 9, .ro⟩
def Fld.IND_TILE_STAT_SLICE_OK : Field := ⟨0, 1, .ro⟩
def Fld.IND_TILE_STAT_FB_CAUSE : Field := ⟨1, 3, .ro⟩
def Fld.IND_TILE_STAT_WSET : Field := ⟨4, 1, .ro⟩
def Fld.IND_TILE_CNT_RESCORE : Field := ⟨0, 16, .rc⟩
def Fld.IND_TILE_CNT_LOCK_REPLAY : Field := ⟨16, 16, .rc⟩
def Fld.IND_TILE_CNT_FB_HL : Field := ⟨32, 16, .rc⟩
def Fld.IND_TILE_CNT_QKV_CLIP : Field := ⟨48, 16, .rc⟩
def Fld.IND_PART_CNT_FB_HL : Field := ⟨0, 21, .rc⟩
def Fld.IND_PART_CNT_LOCK_REPLAY : Field := ⟨21, 21, .rc⟩
def Fld.IND_PART_CNT_RESCORE : Field := ⟨42, 21, .rc⟩
def Fld.KVT_RES_RING_LOG2SIZE : Field := ⟨0, 5, .ro⟩
def Fld.KVT_RES_RING_BASE : Field := ⟨12, 30, .ro⟩
def Fld.KVT_RES_IDX_TAIL : Field := ⟨0, 32, .rw⟩
def Fld.KVT_RES_IDX_HEAD : Field := ⟨32, 32, .ro⟩
def Fld.KVT_FREE_RING_LOG2SIZE : Field := ⟨0, 5, .ro⟩
def Fld.KVT_FREE_RING_BASE : Field := ⟨12, 30, .ro⟩
def Fld.KVT_FREE_IDX_HEAD : Field := ⟨0, 32, .rw⟩
def Fld.KVT_FREE_IDX_TAIL : Field := ⟨32, 32, .ro⟩
def Fld.KVT_RES_CFG_LOW_WATER : Field := ⟨0, 16, .rw⟩
def Fld.KVT_RES_CFG_SCRATCH : Field := ⟨16, 16, .ro⟩
def Fld.KVT_SCREE_CFG_PARK_AFTER : Field := ⟨0, 12, .ro⟩
def Fld.KVT_SCREE_CFG_TTL : Field := ⟨12, 12, .ro⟩
def Fld.KVT_SCREE_CFG_PARK_OFF : Field := ⟨24, 1, .ro⟩
def Fld.KVT_PART_CNT_STARVED : Field := ⟨0, 12, .rc⟩
def Fld.KVT_PART_CNT_RES_BAD : Field := ⟨12, 12, .rc⟩
def Fld.KVT_PART_CNT_SCR_DROP : Field := ⟨24, 12, .rc⟩
def Fld.KVT_PART_CNT_FREE_FULL : Field := ⟨36, 8, .rc⟩
def Fld.KVT_PART_CNT_PARK_NOSPACE : Field := ⟨44, 8, .rc⟩
def Fld.KVT_PART_CNT_PF_DROP : Field := ⟨52, 12, .rc⟩
def Fld.MMU_ROOT_EN : Field := ⟨0, 1, .ro⟩
def Fld.MMU_ROOT_L1PA : Field := ⟨17, 25, .ro⟩
def Fld.MMU_INV_VPN : Field := ⟨0, 32, .rw⟩
def Fld.MMU_INV_COUNT : Field := ⟨32, 16, .rw⟩
def Fld.MMU_INV_ALL : Field := ⟨62, 1, .rw⟩
def Fld.MMU_INV_BUSY : Field := ⟨63, 1, .w1s⟩
def Fld.SCH_CFG_EPOCH : Field := ⟨0, 16, .rw⟩
def Fld.SCH_CFG_STEP_CAP : Field := ⟨16, 12, .ro⟩
def Fld.SCH_CTX_TBL_BASE : Field := ⟨28, 14, .ro⟩
def Fld.SCH_HIST_TBL_BASE : Field := ⟨29, 13, .ro⟩
def Fld.SCH_BKT_TBL_BASE : Field := ⟨20, 22, .ro⟩
def Fld.SCH_SYS_RGN_BASE : Field := ⟨31, 11, .ro⟩
def Fld.SCH_AGE_CFG_STARVE_STEPS : Field := ⟨0, 8, .ro⟩
def Fld.SCH_AGE_CFG_STARVE_TIME : Field := ⟨8, 16, .ro⟩
def Fld.SCH_BKT_RANGE_FIRST : Field := ⟨0, 16, .ro⟩
def Fld.SCH_BKT_RANGE_COUNT : Field := ⟨16, 16, .ro⟩
def Fld.SCH_CTX_RANGE_FIRST : Field := ⟨0, 22, .ro⟩
def Fld.SCH_CTX_RANGE_COUNT : Field := ⟨32, 23, .ro⟩
def Fld.SCH_PART_CNT_AGED : Field := ⟨0, 16, .rc⟩
def Fld.SCH_PART_CNT_LATE : Field := ⟨16, 16, .rc⟩
def Fld.SCH_PART_CNT_DL_SKIP : Field := ⟨32, 16, .rc⟩
def Fld.SCH_PART_CNT_OVER_BUDGET : Field := ⟨48, 16, .rc⟩
def Fld.SCH_ID_RANGE_MODEL_FIRST : Field := ⟨0, 12, .ro⟩
def Fld.SCH_ID_RANGE_MODEL_COUNT : Field := ⟨12, 13, .ro⟩
def Fld.SCH_ID_RANGE_PLACE_FIRST : Field := ⟨32, 10, .ro⟩
def Fld.SCH_ID_RANGE_PLACE_COUNT : Field := ⟨42, 11, .ro⟩
def Fld.SCH_QSTAT_STEPS : Field := ⟨0, 32, .rc⟩
def Fld.SCH_QSTAT_HOLDS : Field := ⟨32, 16, .rc⟩
def Fld.SCH_QSTAT_OVERRUN : Field := ⟨48, 16, .rc⟩
def Fld.SMP_CAP_VOCAB_MAX : Field := ⟨0, 19, .ro⟩
def Fld.SMP_CAP_TOPK_MAX : Field := ⟨19, 9, .ro⟩
def Fld.SMP_CAP_NLP_MAX : Field := ⟨28, 4, .ro⟩
def Fld.SMP_PROF_TBL_COUNT : Field := ⟨0, 12, .ro⟩
def Fld.SMP_PROF_TBL_BASE : Field := ⟨12, 32, .ro⟩
def Fld.SMP_QCNT_TOKENS : Field := ⟨0, 32, .rc⟩
def Fld.SMP_QCNT_MASK_EMPTY : Field := ⟨32, 16, .rc⟩
def Fld.SMP_QCNT_BAD_PROF : Field := ⟨48, 16, .rc⟩
def Fld.SCH_RING_AREA_BASE : Field := ⟨26, 16, .ro⟩
def Fld.SCH_FN_STAT_VIOL : Field := ⟨0, 16, .rc⟩
def Fld.SCH_FN_STAT_LOST : Field := ⟨16, 16, .rc⟩
def Fld.SCH_FN_STAT_LONG_OPS : Field := ⟨32, 8, .ro⟩
def Fld.SCH_FN_STAT_DISCARD : Field := ⟨40, 16, .rc⟩
def Fld.SCH_APER_BASE : Field := ⟨30, 12, .rw⟩
def Fld.SCH_RING_CFG_EN : Field := ⟨0, 1, .rw⟩
def Fld.SCH_RING_CFG_SQ_LOG2 : Field := ⟨1, 5, .rw⟩
def Fld.SCH_RING_CFG_CQ_LOG2 : Field := ⟨6, 5, .rw⟩
def Fld.SCH_RING_CFG_SQ_OFF : Field := ⟨12, 14, .rw⟩
def Fld.SCH_RING_CFG_CQ_OFF : Field := ⟨26, 14, .rw⟩
def Fld.SCH_SQ_DB_SQ_TAIL : Field := ⟨0, 32, .rw⟩
def Fld.SCH_CQ_DB_CQ_HEAD : Field := ⟨0, 32, .rw⟩
def Fld.SCH_RING_IDX_SQ_HEAD : Field := ⟨0, 32, .ro⟩
def Fld.SCH_RING_IDX_CQ_TAIL : Field := ⟨32, 32, .ro⟩
def Fld.SCH_RING_STAT_EXP_SEQ : Field := ⟨0, 32, .ro⟩
def Fld.SCH_RING_STAT_CQ_FULL : Field := ⟨32, 16, .rc⟩
def Fld.SCH_RING_STAT_BAD : Field := ⟨48, 16, .rc⟩
def Fld.LAS_CFG_FADE_PCT : Field := ⟨0, 8, .rw⟩
def Fld.LAS_CFG_FADE_DB : Field := ⟨8, 8, .rw⟩
def Fld.LAS_CFG_FADE_TIME : Field := ⟨16, 8, .rw⟩
def Fld.LAS_CFG_LOS_DB : Field := ⟨24, 4, .rw⟩
def Fld.LAS_BANK_CSP_LEFT : Field := ⟨0, 5, .ro⟩
def Fld.LAS_BANK_IOSP_LEFT : Field := ⟨8, 7, .ro⟩
def Fld.LAS_BANK_CDARK : Field := ⟨16, 5, .ro⟩
def Fld.LAS_BANK_SWAPS : Field := ⟨24, 8, .rc⟩
def Fld.LAS_BANK_FADE_EV : Field := ⟨32, 16, .rc⟩
def Fld.LAS_BIAS_BIAS : Field := ⟨0, 12, .ro⟩
def Fld.LAS_BIAS_BIAS_MAX : Field := ⟨16, 12, .ro⟩
def Fld.LAS_BIAS_PWR : Field := ⟨32, 16, .ro⟩
def Fld.LAS_BIAS_COMM : Field := ⟨48, 16, .ro⟩
def Fld.LAS_STAT_POS : Field := ⟨0, 1, .ro⟩
def Fld.LAS_STAT_SEL : Field := ⟨1, 1, .ro⟩
def Fld.LAS_STAT_STATE : Field := ⟨2, 3, .ro⟩
def Fld.LAS_STAT_FADE_CAUSE : Field := ⟨5, 2, .ro⟩
def Fld.LAS_STAT_HOURS : Field := ⟨8, 24, .ro⟩
def Fld.LAS_STAT_FREQ_ERR : Field := ⟨32, 16, .ro⟩
def Fld.RNG_CAP_SLICE_RINGS : Field := ⟨0, 7, .ro⟩
def Fld.RNG_CAP_PORT_RINGS : Field := ⟨7, 6, .ro⟩
def Fld.RNG_CAP_CLUSTERS : Field := ⟨13, 9, .ro⟩
def Fld.RNG_CAP_TONE_WIN : Field := ⟨22, 5, .ro⟩
def Fld.RNG_LOOP_KP : Field := ⟨0, 8, .ro⟩
def Fld.RNG_LOOP_KI : Field := ⟨8, 8, .ro⟩
def Fld.RNG_LOOP_XOVER : Field := ⟨16, 8, .ro⟩
def Fld.RNG_LOOP_BW : Field := ⟨24, 8, .ro⟩
def Fld.RNG_QCNT_WRONG_LOCK : Field := ⟨0, 16, .rc⟩
def Fld.RNG_QCNT_TONE_MIS : Field := ⟨16, 16, .rc⟩
def Fld.RNG_QCNT_RING_FAIL : Field := ⟨32, 16, .rc⟩
def Fld.RNG_QCNT_PCP_GAP : Field := ⟨48, 16, .rc⟩
def Fld.RNG_CLU_STAT_VERIFIED : Field := ⟨0, 7, .ro⟩
def Fld.RNG_CLU_STAT_FAILED : Field := ⟨7, 7, .ro⟩
def Fld.RNG_CLU_STAT_CHECK_OK : Field := ⟨14, 1, .ro⟩
def Fld.RNG_CLU_STAT_QUALITY : Field := ⟨16, 10, .ro⟩
def Fld.RNG_CLU_STAT_ALARMS : Field := ⟨32, 16, .rc⟩
def Fld.RNG_CLU_STAT_RELOCKS : Field := ⟨48, 16, .rc⟩
def Fld.LNK_CFG_MIN_LANES : Field := ⟨0, 5, .rw⟩
def Fld.LNK_CFG_REQ_TIMEOUT : Field := ⟨8, 8, .rw⟩
def Fld.LNK_CFG_PROBE_LOSS : Field := ⟨16, 8, .rw⟩
def Fld.LNK_COORD_MODULE_ID : Field := ⟨0, 16, .ro⟩
def Fld.LNK_COORD_SLOT : Field := ⟨16, 4, .ro⟩
def Fld.LNK_COORD_BOARD : Field := ⟨20, 8, .ro⟩
def Fld.LNK_COORD_RACK : Field := ⟨28, 8, .ro⟩
def Fld.LNK_COORD_POD : Field := ⟨36, 8, .ro⟩
def Fld.LNK_COORD_TOPO : Field := ⟨44, 2, .ro⟩
def Fld.LNK_COORD_VALID : Field := ⟨46, 1, .ro⟩
def Fld.LNK_SLICE_OFF : Field := ⟨0, 10, .rw⟩
def Fld.LNK_SLICE_EN : Field := ⟨10, 1, .rw⟩
def Fld.LNK_PORT_CFG_EN : Field := ⟨0, 1, .rw⟩
def Fld.LNK_PORT_CFG_CLASS : Field := ⟨1, 2, .rw⟩
def Fld.LNK_PORT_CFG_ROLE : Field := ⟨3, 3, .ro⟩
def Fld.LNK_PORT_CFG_PEER_SLOT : Field := ⟨6, 4, .ro⟩
def Fld.LNK_PORT_STAT_STATE : Field := ⟨0, 3, .ro⟩
def Fld.LNK_PORT_STAT_LANES : Field := ⟨3, 5, .ro⟩
def Fld.LNK_PORT_STAT_SPARE_USED : Field := ⟨8, 1, .ro⟩
def Fld.LNK_PORT_STAT_PROT : Field := ⟨9, 1, .ro⟩
def Fld.LNK_PORT_STAT_FAR_ID : Field := ⟨10, 16, .ro⟩
def Fld.LNK_PORT_STAT_DELAY : Field := ⟨26, 16, .ro⟩
def Fld.LNK_PORT_CNT_FRAME_FAIL : Field := ⟨0, 12, .rc⟩
def Fld.LNK_PORT_CNT_REPLAY : Field := ⟨12, 12, .rc⟩
def Fld.LNK_PORT_CNT_LOST : Field := ⟨24, 8, .rc⟩
def Fld.LNK_PORT_CNT_RESEND : Field := ⟨32, 12, .rc⟩
def Fld.LNK_PORT_CNT_BAD_MSG : Field := ⟨44, 8, .rc⟩
def Fld.LNK_PORT_CNT_FENCE_BAD : Field := ⟨52, 6, .rc⟩
def Fld.LNK_PORT_CNT_RELAY_DROP : Field := ⟨58, 6, .rc⟩
def Fld.LNK_LANE_STATE : Field := ⟨0, 2, .ro⟩
def Fld.LNK_LANE_MARGIN : Field := ⟨2, 8, .ro⟩
def Fld.LNK_LANE_EYE_W : Field := ⟨10, 8, .ro⟩
def Fld.LNK_LANE_BER_LOG : Field := ⟨18, 8, .ro⟩
def Fld.LNK_LANE_TESTED : Field := ⟨26, 1, .ro⟩
def Fld.TWN_CFG_HB_LOSS : Field := ⟨0, 8, .rw⟩
def Fld.TWN_CFG_ACK_WAIT : Field := ⟨8, 8, .rw⟩
def Fld.TWN_STAT_STATE : Field := ⟨0, 3, .ro⟩
def Fld.TWN_STAT_PEER : Field := ⟨3, 16, .ro⟩
def Fld.TWN_STAT_JBC : Field := ⟨19, 1, .ro⟩
def Fld.TWN_STAT_PATHS : Field := ⟨20, 2, .ro⟩
def Fld.TWN_STAT_CAUSE : Field := ⟨22, 2, .ro⟩
def Fld.TWN_STAT_TAKEOVER : Field := ⟨24, 1, .ro⟩
def Fld.TWN_STAT_ORPHANS : Field := ⟨25, 22, .ro⟩
def Fld.TWN_JRN_BASE : Field := ⟨0, 12, .rw⟩
def Fld.TWN_JRN_SIZE : Field := ⟨12, 7, .rw⟩
def Fld.TWN_JRN_USED : Field := ⟨19, 7, .ro⟩
def Fld.TWN_CNT_HB_MISS : Field := ⟨0, 16, .rc⟩
def Fld.TWN_CNT_HELD : Field := ⟨16, 16, .rc⟩
def Fld.TWN_CNT_TAKEOVERS : Field := ⟨32, 8, .rc⟩
def Fld.TWN_CNT_STALE : Field := ⟨40, 8, .rc⟩
def Fld.POW_CAP_HOST_CAP : Field := ⟨0, 12, .rw⟩
def Fld.POW_CAP_BMC_CAP : Field := ⟨16, 12, .ro⟩
def Fld.POW_INPUT_VIN : Field := ⟨0, 14, .ro⟩
def Fld.POW_INPUT_IIN : Field := ⟨16, 13, .ro⟩
def Fld.POW_INPUT_PIN : Field := ⟨32, 16, .ro⟩
def Fld.POW_STAT_CAP_EFF : Field := ⟨0, 12, .ro⟩
def Fld.POW_STAT_BMC_LIMITS : Field := ⟨12, 1, .ro⟩
def Fld.POW_STAT_P_EST : Field := ⟨16, 16, .ro⟩
def Fld.POW_STAT_EMERG : Field := ⟨32, 2, .ro⟩
def Fld.POW_STAT_CAP_FLOOR : Field := ⟨34, 1, .ro⟩
def Fld.POW_STAT_GOV : Field := ⟨35, 1, .ro⟩
def Fld.POW_EST_CAL_GAIN : Field := ⟨0, 16, .ro⟩
def Fld.POW_EST_CAL_OFFSET : Field := ⟨16, 16, .ro⟩
def Fld.POW_CNT_RIDGE : Field := ⟨0, 16, .rc⟩
def Fld.POW_CNT_RIDGE_IGN : Field := ⟨16, 16, .rc⟩
def Fld.POW_CNT_EST_REJECT : Field := ⟨32, 8, .rc⟩
def Fld.POW_CNT_CAP_MISS : Field := ⟨40, 8, .rc⟩
def Fld.POW_CNT_WARN : Field := ⟨48, 8, .rc⟩
def Fld.POW_CNT_CRIT : Field := ⟨56, 8, .rc⟩
def Fld.POW_OP_CURRENT : Field := ⟨0, 3, .ro⟩
def Fld.POW_OP_TARGET : Field := ⟨3, 3, .ro⟩
def Fld.POW_OP_CEILING : Field := ⟨6, 3, .ro⟩
def Fld.POW_OP_BOOST : Field := ⟨9, 1, .ro⟩
def Fld.POW_OP_VGOOD : Field := ⟨10, 1, .ro⟩
def Fld.POW_OP_VCORE : Field := ⟨16, 10, .ro⟩
def Fld.POW_OP_QEST : Field := ⟨32, 16, .ro⟩
def Fld.POW_QCNT_DROOP : Field := ⟨0, 16, .rc⟩
def Fld.POW_QCNT_LIMIT : Field := ⟨16, 16, .rc⟩
def Fld.POW_QCNT_RAISES : Field := ⟨32, 16, .rc⟩
def Fld.POW_QCNT_DROOP_FLOOR : Field := ⟨48, 8, .rc⟩
def Fld.HKC_CFG_PERIOD_SEL : Field := ⟨0, 2, .rw⟩
def Fld.HKC_CFG_PERIOD_US : Field := ⟨2, 15, .rw⟩
def Fld.HKC_CFG_REF_SEL : Field := ⟨17, 2, .rw⟩
def Fld.HKC_CFG_QOWN : Field := ⟨19, 1, .rw⟩
def Fld.HKC_CFG_RUN : Field := ⟨20, 1, .rw⟩
def Fld.HKC_STAT_REF_SETTLED : Field := ⟨0, 1, .ro⟩
def Fld.HKC_STAT_SEQ_IDLE : Field := ⟨1, 1, .ro⟩
def Fld.HKC_STAT_CURSOR : Field := ⟨2, 6, .ro⟩
def Fld.HKC_STAT_QLEVEL : Field := ⟨8, 9, .ro⟩
def Fld.HKC_QREAD_CODE : Field := ⟨0, 20, .rc⟩
def Fld.HKC_QREAD_CH : Field := ⟨20, 5, .rc⟩
def Fld.HKC_QREAD_KIND : Field := ⟨25, 1, .rc⟩
def Fld.HKC_QREAD_CONV : Field := ⟨26, 4, .rc⟩
def Fld.HKC_QREAD_ENTRY : Field := ⟨30, 6, .rc⟩
def Fld.HKC_QREAD_REP : Field := ⟨36, 8, .rc⟩
def Fld.HKC_QREAD_OVR : Field := ⟨44, 1, .rc⟩
def Fld.HKC_QREAD_UNSET : Field := ⟨45, 1, .rc⟩
def Fld.HKC_QREAD_VALID : Field := ⟨46, 1, .rc⟩
def Fld.HKC_QREAD_SEQ : Field := ⟨47, 16, .rc⟩
def Fld.HKC_CNT_QOVF : Field := ⟨0, 16, .rc⟩
def Fld.HKC_CNT_UNSETTLED : Field := ⟨16, 16, .rc⟩
def Fld.HKC_CNT_OVERRANGE : Field := ⟨32, 16, .rc⟩
def Fld.HKC_CHTBL_PAIR : Field := ⟨0, 3, .rw⟩
def Fld.HKC_CHTBL_CH_V : Field := ⟨3, 5, .rw⟩
def Fld.HKC_CHTBL_CH_I : Field := ⟨8, 5, .rw⟩
def Fld.HKC_CHTBL_REPEAT : Field := ⟨16, 8, .rw⟩
def Fld.HKC_CHTBL_DELAY : Field := ⟨24, 16, .rw⟩
def Fld.HKC_CHTBL_LAST : Field := ⟨40, 1, .rw⟩
def Fld.THM_CFG_RISE_WARN : Field := ⟨0, 8, .rw⟩
def Fld.THM_CFG_RISE_CRIT : Field := ⟨8, 8, .rw⟩
def Fld.THM_CFG_COOL_WARN : Field := ⟨16, 8, .rw⟩
def Fld.THM_STAT_EMERG : Field := ⟨0, 2, .ro⟩
def Fld.THM_STAT_COOL_ALM : Field := ⟨2, 1, .ro⟩
def Fld.THM_STAT_LAST_TRIP : Field := ⟨8, 4, .ro⟩
def Fld.THM_CNT_WARN : Field := ⟨0, 16, .rc⟩
def Fld.THM_CNT_CRIT : Field := ⟨16, 16, .rc⟩
def Fld.THM_CNT_RISE : Field := ⟨32, 16, .rc⟩
def Fld.THM_CNT_SENSOR_FAIL : Field := ⟨48, 8, .rc⟩
def Fld.THM_CNT_BAND_CHG : Field := ⟨56, 8, .rc⟩
def Fld.THM_REGION_TMAX : Field := ⟨0, 12, .ro⟩
def Fld.THM_REGION_RATE : Field := ⟨16, 8, .ro⟩
def Fld.THM_REGION_LEVEL : Field := ⟨24, 2, .ro⟩
def Fld.THM_REGION_BAND : Field := ⟨26, 2, .ro⟩
def Fld.THM_REGION_FAILED : Field := ⟨28, 9, .ro⟩
def Fld.THM_TILE_TEMP : Field := ⟨0, 12, .ro⟩
def Fld.THM_TILE_BAND : Field := ⟨12, 2, .ro⟩
def Fld.THM_TILE_FAILED : Field := ⟨14, 1, .ro⟩
def Fld.FWP_CFG_WD_MS : Field := ⟨0, 8, .rw⟩
def Fld.FWP_BOOT_ACTIVE_BANK : Field := ⟨0, 1, .ro⟩
def Fld.FWP_BOOT_BOOTED_BANK : Field := ⟨1, 1, .ro⟩
def Fld.FWP_BOOT_FALLBACK : Field := ⟨2, 1, .ro⟩
def Fld.FWP_BOOT_RECOVERY : Field := ⟨3, 1, .ro⟩
def Fld.FWP_BOOT_MIN_SVN : Field := ⟨4, 6, .ro⟩
def Fld.FWP_BOOT_BOOT_SEQ : Field := ⟨32, 32, .ro⟩
def Fld.FWP_ACT_PHASE : Field := ⟨0, 3, .ro⟩
def Fld.FWP_ACT_RESULT : Field := ⟨3, 3, .ro⟩
def Fld.FWP_VER_VERSION : Field := ⟨0, 32, .ro⟩
def Fld.FWP_VER_SVN : Field := ⟨32, 6, .ro⟩
def Fld.FWP_VER_VALID : Field := ⟨38, 1, .ro⟩
def Fld.FWP_PROC_ALIVE : Field := ⟨0, 1, .ro⟩
def Fld.FWP_PROC_LAST_CAUSE : Field := ⟨1, 2, .ro⟩
def Fld.FWP_PROC_QUEUED : Field := ⟨8, 8, .ro⟩
def Fld.FWP_PROC_RESTARTS : Field := ⟨16, 16, .rc⟩
def Fld.FWP_PROC_LAST_TIME : Field := ⟨32, 32, .ro⟩
def Fld.TILE_TEST_CFG_PERIOD : Field := ⟨0, 8, .rw⟩
def Fld.TILE_TEST_CFG_RES_LIM : Field := ⟨8, 8, .rw⟩
def Fld.TILE_QFLT_SPARES : Field := ⟨0, 5, .ro⟩
def Fld.TILE_QFLT_UNAVAIL : Field := ⟨8, 8, .ro⟩
def Fld.TILE_QFLT_RETIRED : Field := ⟨16, 16, .rc⟩
def Fld.TILE_QFLT_TESTS : Field := ⟨32, 16, .rc⟩
def Fld.TILE_FLT_RES_MIS : Field := ⟨0, 16, .rc⟩
def Fld.TILE_FLT_REPLAY : Field := ⟨16, 8, .rc⟩
def Fld.TILE_FLT_ECC_CE : Field := ⟨24, 16, .rc⟩
def Fld.TILE_FLT_ECC_UE : Field := ⟨40, 8, .rc⟩
def Fld.TILE_FLT_STEP_RST : Field := ⟨48, 8, .rc⟩
def Fld.TILE_TEST_STATE : Field := ⟨0, 3, .ro⟩
def Fld.TILE_TEST_OVERDUE : Field := ⟨3, 1, .ro⟩
def Fld.TILE_TEST_PASS : Field := ⟨8, 8, .rc⟩
def Fld.TILE_TEST_FAIL : Field := ⟨16, 8, .rc⟩
def Fld.TILE_TEST_LAST_DONE : Field := ⟨32, 32, .ro⟩
def Fld.MEM_ECC_CE : Field := ⟨0, 32, .rc⟩
def Fld.MEM_ECC_UE : Field := ⟨32, 16, .rc⟩
def Fld.SEC_CFG_CO_TIMEOUT : Field := ⟨0, 12, .rw⟩
def Fld.SEC_STAT_APPROVED : Field := ⟨0, 1, .ro⟩
def Fld.SEC_STAT_ERROR : Field := ⟨1, 1, .ro⟩
def Fld.SEC_STAT_ERR_CAUSE : Field := ⟨2, 3, .ro⟩
def Fld.SEC_STAT_CO_SESSION : Field := ⟨5, 1, .ro⟩
def Fld.SEC_STAT_DEBUG_OPEN : Field := ⟨6, 1, .ro⟩
def Fld.SEC_STAT_ZERO_PHASE : Field := ⟨7, 2, .ro⟩
def Fld.SEC_STAT_CO_LEFT : Field := ⟨32, 12, .ro⟩
def Fld.SEC_CO_CTR_CO_CTR : Field := ⟨0, 64, .ro⟩
def Fld.SEC_CNT_AUTH_FAIL : Field := ⟨0, 16, .rc⟩
def Fld.SEC_CNT_ZEROIZES : Field := ⟨16, 16, .rc⟩
def Fld.SEC_CNT_SCRUBS : Field := ⟨32, 16, .rc⟩
def Fld.SEC_DEVPUB_PUB : Field := ⟨0, 64, .ro⟩
def Fld.SEC_PART_EXISTS : Field := ⟨0, 1, .ro⟩
def Fld.SEC_PART_KEY_SRC : Field := ⟨1, 1, .ro⟩
def Fld.SEC_PART_KEY_GEN : Field := ⟨8, 8, .ro⟩
def Fld.SEC_PART_EXCL : Field := ⟨16, 11, .ro⟩
def Fld.SEC_PART_SLICED : Field := ⟨27, 11, .ro⟩
def Fld.SEC_WIN_EN : Field := ⟨0, 1, .ro⟩
def Fld.SEC_WIN_BASE : Field := ⟨21, 21, .ro⟩
def Fld.SEC_WIN_SIZE : Field := ⟨42, 21, .ro⟩
def Fld.CLK_STAT_REF_OK : Field := ⟨0, 1, .ro⟩
def Fld.CLK_STAT_PLL_LOCK : Field := ⟨1, 5, .ro⟩
def Fld.CLK_STAT_HOLDOVER : Field := ⟨6, 1, .ro⟩
def Fld.CLK_STAT_REF_LOSS : Field := ⟨16, 16, .rc⟩
def Fld.CLK_TIME_TIME : Field := ⟨0, 64, .ro⟩
def Fld.CLK_TSYNC_SRC_PORT : Field := ⟨0, 5, .rw⟩
def Fld.CLK_TSYNC_LOCKED : Field := ⟨5, 1, .ro⟩
def Fld.CLK_TSYNC_FAR : Field := ⟨6, 1, .ro⟩
def Fld.CLK_TSYNC_OFFSET : Field := ⟨8, 16, .ro⟩
def Fld.CLK_RESET_MODULE : Field := ⟨0, 1, .wo⟩
def Fld.CLK_RESET_QUAD : Field := ⟨1, 4, .wo⟩
def Fld.CLK_START_PHASE : Field := ⟨0, 4, .ro⟩
def Fld.CLK_START_QDOWN : Field := ⟨4, 4, .ro⟩
def Fld.CLK_START_QRST : Field := ⟨8, 4, .ro⟩
def Fld.CLK_START_NOFAB : Field := ⟨12, 1, .ro⟩
def Fld.CLK_START_ELAPSED : Field := ⟨32, 32, .ro⟩
def Fld.GLB_ID_STEPPING : Field := ⟨0, 8, .ro⟩
def Fld.GLB_ID_FAMILY : Field := ⟨8, 8, .ro⟩
def Fld.GLB_ID_PART : Field := ⟨16, 16, .ro⟩
def Fld.GLB_ID_SVC_STEP : Field := ⟨32, 8, .ro⟩
def Fld.GLB_SERIAL_SERIAL : Field := ⟨0, 64, .ro⟩
def Fld.GLB_CAP_QUADS : Field := ⟨0, 3, .ro⟩
def Fld.GLB_CAP_TILES : Field := ⟨3, 11, .ro⟩
def Fld.GLB_CAP_SPARES_Q : Field := ⟨14, 5, .ro⟩
def Fld.GLB_CAP_PARTS : Field := ⟨19, 7, .ro⟩
def Fld.GLB_CAP_PORTS : Field := ⟨26, 5, .ro⟩
def Fld.GLB_CAP_STACK_GIB : Field := ⟨32, 16, .ro⟩
def Fld.GLB_SUMMARY_READY : Field := ⟨0, 1, .ro⟩
def Fld.GLB_SUMMARY_EMERG : Field := ⟨1, 2, .ro⟩
def Fld.GLB_SUMMARY_GOV : Field := ⟨3, 1, .ro⟩
def Fld.GLB_SUMMARY_RECOVERY : Field := ⟨4, 1, .ro⟩
def Fld.GLB_SUMMARY_SEC_ERR : Field := ⟨5, 1, .ro⟩
def Fld.GLB_SUMMARY_HOLDOVER : Field := ⟨6, 1, .ro⟩
def Fld.GLB_SUMMARY_QDOWN : Field := ⟨7, 4, .ro⟩
def Fld.GLB_SUMMARY_NOFAB : Field := ⟨11, 1, .ro⟩
def Fld.GLB_SUMMARY_TWIN : Field := ⟨12, 3, .ro⟩
def Fld.GLB_FN_PARTITION : Field := ⟨0, 6, .ro⟩
def Fld.GLB_FN_PF : Field := ⟨6, 1, .ro⟩
def Fld.CFG_CAL_CTL_DT_CAL : Field := ⟨0, 8, .rw⟩
def Fld.CFG_TILE_MAP_Q : Field := ⟨0, 2, .ro⟩
def Fld.CFG_TILE_MAP_X : Field := ⟨2, 5, .ro⟩
def Fld.CFG_TILE_MAP_Y : Field := ⟨7, 4, .ro⟩
def Fld.CFG_TILE_MAP_AVAIL : Field := ⟨11, 1, .ro⟩
def Fld.CFG_TILE_MAP_SPARE_IN : Field := ⟨12, 1, .ro⟩
def Fld.CFG_TILE_MAP_PART : Field := ⟨16, 6, .ro⟩
def Fld.CFG_TILE_MAP_MODE : Field := ⟨22, 2, .ro⟩
def Fld.CFG_PHYS_MAP_LOGICAL : Field := ⟨0, 11, .ro⟩
def Fld.CFG_PHYS_MAP_STATE : Field := ⟨11, 2, .ro⟩
def Fld.QUAD_ID_CD_STEP : Field := ⟨0, 8, .ro⟩
def Fld.QUAD_ID_PB_STEP : Field := ⟨8, 8, .ro⟩
def Fld.QUAD_ID_DIE_ID : Field := ⟨16, 32, .ro⟩

/-- One row of the register map: first offset, distance of instances, number of instances, width in bits, and its rules. -/
structure RegRow where
  base   : Nat
  stride : Nat
  count  : Nat
  width  : Nat
  vis    : Vis
  wr     : Wr
  dom    : Dom
  ref    : Nat → RegRef
  fields : List Field

/-- The register map, part 1. -/
def regRows0 : List RegRow := [
  ⟨0x80800, 0x4, 64, 32, .part, .ro, .svc, fun i => Reg.MDT_ESC_THR i,
    [Fld.MDT_ESC_THR_ESC_SAT, Fld.MDT_ESC_THR_ESC_ZRO]⟩,
  ⟨0x80900, 0x8, 64, 64, .part, .ro, .svc, fun i => Reg.MDT_PART_ESC i,
    [Fld.MDT_PART_ESC_TO_XB6, Fld.MDT_PART_ESC_TO_XB8, Fld.MDT_PART_ESC_TO_DIG]⟩,
  ⟨0x81000, 0x8, 1024, 64, .tile, .ro, .tile, fun i => Reg.MDT_TILE_NUM i,
    [Fld.MDT_TILE_NUM_SAT, Fld.MDT_TILE_NUM_ZRO, Fld.MDT_TILE_NUM_EZ]⟩,
  ⟨0x83000, 0x8, 1024, 64, .tile, .ro, .tile, fun i => Reg.MDT_TILE_ESC i,
    [Fld.MDT_TILE_ESC_TO_XB6, Fld.MDT_TILE_ESC_TO_XB8, Fld.MDT_TILE_ESC_TO_DIG, Fld.MDT_TILE_ESC_DOUBT, Fld.MDT_TILE_ESC_WCODE_RSV]⟩,
  ⟨0x70000, 0x0, 1, 32, .all, .pf0, .svc, fun _ => Reg.CAB_CHK_CFG,
    [Fld.CAB_CHK_CFG_CONF_TOL, Fld.CAB_CHK_CFG_SPARSE_OFF]⟩,
  ⟨0x70004, 0x0, 1, 32, .all, .pf0, .svc, fun _ => Reg.CAB_REPAIR_CFG,
    [Fld.CAB_REPAIR_CFG_RES_LIM, Fld.CAB_REPAIR_CFG_MAX_ADJ, Fld.CAB_REPAIR_CFG_MAX_WORN, Fld.CAB_REPAIR_CFG_RET_ARR_LIM]⟩,
  ⟨0x70010, 0x0, 1, 32, .all, .ro, .svc, fun _ => Reg.CAB_BANK_CAP,
    [Fld.CAB_BANK_CAP_ARRAYS, Fld.CAB_BANK_CAP_ROWS, Fld.CAB_BANK_CAP_COLS, Fld.CAB_BANK_CAP_RAMP_STEPS]⟩,
  ⟨0x72000, 0x10, 1024, 64, .tile, .ro, .tile, fun i => Reg.CAB_TILE_STAT i,
    [Fld.CAB_TILE_STAT_ARR_AVAIL, Fld.CAB_TILE_STAT_RET_ARR, Fld.CAB_TILE_STAT_RET_COL, Fld.CAB_TILE_STAT_WORN, Fld.CAB_TILE_STAT_MODE, Fld.CAB_TILE_STAT_RESIDENT]⟩,
  ⟨0x72008, 0x10, 1024, 64, .tile, .ro, .tile, fun i => Reg.CAB_TILE_CNT i,
    [Fld.CAB_TILE_CNT_SPLIT, Fld.CAB_TILE_CNT_ZGROUP, Fld.CAB_TILE_CNT_CHK_SAT, Fld.CAB_TILE_CNT_GEN_WAIT]⟩,
  ⟨0x80000, 0x0, 1, 32, .all, .pf0, .svc, fun _ => Reg.MDT_CFG,
    [Fld.MDT_CFG_CHK_TOL1, Fld.MDT_CFG_CHK_TOL2, Fld.MDT_CFG_DRIFT_MIN, Fld.MDT_CFG_DRIFT_OFF]⟩,
  ⟨0x80004, 0x0, 1, 32, .all, .ro, .svc, fun _ => Reg.MDT_CAP,
    [Fld.MDT_CAP_WOUT_CAP, Fld.MDT_CAP_AOUT_CAP, Fld.MDT_CAP_AOUT_BLK, Fld.MDT_CAP_MAC_LOG2]⟩,
  ⟨0x85000, 0x10, 1024, 64, .tile, .ro, .tile, fun i => Reg.MDT_TILE_OUT i,
    [Fld.MDT_TILE_OUT_WOUT_MAX, Fld.MDT_TILE_OUT_AOUT_EXT, Fld.MDT_TILE_OUT_OUTLIER_OVF, Fld.MDT_TILE_OUT_AOUT_XS]⟩,
  ⟨0x85008, 0x10, 1024, 64, .tile, .ro, .tile, fun i => Reg.MDT_TILE_CHK i,
    [Fld.MDT_TILE_CHK_CHK_MIS, Fld.MDT_TILE_CHK_CHK_SKIP, Fld.MDT_TILE_CHK_DIG_PIN, Fld.MDT_TILE_CHK_MAC_WAIT]⟩,
  ⟨0x89000, 0x8, 1024, 64, .tile, .ro, .tile, fun i => Reg.MDT_TILE_DRIFT i,
    [Fld.MDT_TILE_DRIFT_CLAMP_ARR, Fld.MDT_TILE_DRIFT_HMAX, Fld.MDT_TILE_DRIFT_CLAMP_EV, Fld.MDT_TILE_DRIFT_CLAMP_PASS]⟩,
  ⟨0x8B000, 0x8, 64, 64, .part, .ro, .svc, fun i => Reg.MDT_PART_OUT i,
    [Fld.MDT_PART_OUT_OVF_PASS, Fld.MDT_PART_OUT_CHK_MIS, Fld.MDT_PART_OUT_CLAMP_PASS]⟩,
  ⟨0x90000, 0x0, 1, 32, .all, .pf0, .svc, fun _ => Reg.IND_CFG,
    [Fld.IND_CFG_LOCK_HOLD, Fld.IND_CFG_OPT_OFF, Fld.IND_CFG_SFS]⟩,
  ⟨0x90004, 0x0, 1, 32, .all, .ro, .svc, fun _ => Reg.IND_CAP,
    [Fld.IND_CAP_WAVES, Fld.IND_CAP_ROWS, Fld.IND_CAP_PHASES, Fld.IND_CAP_DH_MAX, Fld.IND_CAP_SEG_MAX]⟩,
  ⟨0x91000, 0x10, 1024, 64, .tile, .ro, .tile, fun i => Reg.IND_TILE_STAT i,
    [Fld.IND_TILE_STAT_SLICE_OK, Fld.IND_TILE_STAT_FB_CAUSE, Fld.IND_TILE_STAT_WSET]⟩,
  ⟨0x91008, 0x10, 1024, 64, .tile, .ro, .tile, fun i => Reg.IND_TILE_CNT i,
    [Fld.IND_TILE_CNT_RESCORE, Fld.IND_TILE_CNT_LOCK_REPLAY, Fld.IND_TILE_CNT_FB_HL, Fld.IND_TILE_CNT_QKV_CLIP]⟩,
  ⟨0x95000, 0x8, 64, 64, .part, .ro, .svc, fun i => Reg.IND_PART_CNT i,
    [Fld.IND_PART_CNT_FB_HL, Fld.IND_PART_CNT_LOCK_REPLAY, Fld.IND_PART_CNT_RESCORE]⟩]

/-- The register map, part 2. -/
def regRows1 : List RegRow := [
  ⟨0xC0000, 0x40, 64, 64, .part, .ro, .svc, fun i => Reg.KVT_RES_RING i,
    [Fld.KVT_RES_RING_LOG2SIZE, Fld.KVT_RES_RING_BASE]⟩,
  ⟨0xC0008, 0x40, 64, 64, .part, .part, .svc, fun i => Reg.KVT_RES_IDX i,
    [Fld.KVT_RES_IDX_TAIL, Fld.KVT_RES_IDX_HEAD]⟩,
  ⟨0xC0010, 0x40, 64, 64, .part, .ro, .svc, fun i => Reg.KVT_FREE_RING i,
    [Fld.KVT_FREE_RING_LOG2SIZE, Fld.KVT_FREE_RING_BASE]⟩,
  ⟨0xC0018, 0x40, 64, 64, .part, .part, .svc, fun i => Reg.KVT_FREE_IDX i,
    [Fld.KVT_FREE_IDX_HEAD, Fld.KVT_FREE_IDX_TAIL]⟩,
  ⟨0xC0020, 0x40, 64, 32, .part, .part, .svc, fun i => Reg.KVT_RES_CFG i,
    [Fld.KVT_RES_CFG_LOW_WATER, Fld.KVT_RES_CFG_SCRATCH]⟩,
  ⟨0xC0024, 0x40, 64, 32, .part, .ro, .svc, fun i => Reg.KVT_SCREE_CFG i,
    [Fld.KVT_SCREE_CFG_PARK_AFTER, Fld.KVT_SCREE_CFG_TTL, Fld.KVT_SCREE_CFG_PARK_OFF]⟩,
  ⟨0xC0030, 0x40, 64, 64, .part, .ro, .svc, fun i => Reg.KVT_PART_CNT i,
    [Fld.KVT_PART_CNT_STARVED, Fld.KVT_PART_CNT_RES_BAD, Fld.KVT_PART_CNT_SCR_DROP, Fld.KVT_PART_CNT_FREE_FULL, Fld.KVT_PART_CNT_PARK_NOSPACE, Fld.KVT_PART_CNT_PF_DROP]⟩,
  ⟨0x60000, 0x10, 64, 64, .part, .ro, .svc, fun i => Reg.MMU_ROOT i,
    [Fld.MMU_ROOT_EN, Fld.MMU_ROOT_L1PA]⟩,
  ⟨0x60008, 0x10, 64, 64, .part, .part, .svc, fun i => Reg.MMU_INV i,
    [Fld.MMU_INV_VPN, Fld.MMU_INV_COUNT, Fld.MMU_INV_ALL, Fld.MMU_INV_BUSY]⟩,
  ⟨0xD0000, 0x0, 1, 32, .all, .pf0, .svc, fun _ => Reg.SCH_CFG,
    [Fld.SCH_CFG_EPOCH, Fld.SCH_CFG_STEP_CAP]⟩,
  ⟨0xD0008, 0x0, 1, 64, .pf0, .ro, .svc, fun _ => Reg.SCH_CTX_TBL,
    [Fld.SCH_CTX_TBL_BASE]⟩,
  ⟨0xD0010, 0x0, 1, 64, .pf0, .ro, .svc, fun _ => Reg.SCH_HIST_TBL,
    [Fld.SCH_HIST_TBL_BASE]⟩,
  ⟨0xD0018, 0x0, 1, 64, .pf0, .ro, .svc, fun _ => Reg.SCH_BKT_TBL,
    [Fld.SCH_BKT_TBL_BASE]⟩,
  ⟨0xD0020, 0x0, 1, 64, .pf0, .ro, .svc, fun _ => Reg.SCH_SYS_RGN,
    [Fld.SCH_SYS_RGN_BASE]⟩,
  ⟨0xD0100, 0x20, 64, 32, .part, .ro, .svc, fun i => Reg.SCH_AGE_CFG i,
    [Fld.SCH_AGE_CFG_STARVE_STEPS, Fld.SCH_AGE_CFG_STARVE_TIME]⟩,
  ⟨0xD0104, 0x20, 64, 32, .part, .ro, .svc, fun i => Reg.SCH_BKT_RANGE i,
    [Fld.SCH_BKT_RANGE_FIRST, Fld.SCH_BKT_RANGE_COUNT]⟩,
  ⟨0xD0108, 0x20, 64, 64, .part, .ro, .svc, fun i => Reg.SCH_CTX_RANGE i,
    [Fld.SCH_CTX_RANGE_FIRST, Fld.SCH_CTX_RANGE_COUNT]⟩,
  ⟨0xD0110, 0x20, 64, 64, .part, .ro, .svc, fun i => Reg.SCH_PART_CNT i,
    [Fld.SCH_PART_CNT_AGED, Fld.SCH_PART_CNT_LATE, Fld.SCH_PART_CNT_DL_SKIP, Fld.SCH_PART_CNT_OVER_BUDGET]⟩,
  ⟨0xD0118, 0x20, 64, 64, .part, .ro, .svc, fun i => Reg.SCH_ID_RANGE i,
    [Fld.SCH_ID_RANGE_MODEL_FIRST, Fld.SCH_ID_RANGE_MODEL_COUNT, Fld.SCH_ID_RANGE_PLACE_FIRST, Fld.SCH_ID_RANGE_PLACE_COUNT]⟩,
  ⟨0xD1000, 0x8, 4, 64, .pf0, .ro, .svc, fun i => Reg.SCH_QSTAT i,
    [Fld.SCH_QSTAT_STEPS, Fld.SCH_QSTAT_HOLDS, Fld.SCH_QSTAT_OVERRUN]⟩]

/-- The register map, part 3. -/
def regRows2 : List RegRow := [
  ⟨0xE0000, 0x0, 1, 32, .all, .ro, .svc, fun _ => Reg.SMP_CAP,
    [Fld.SMP_CAP_VOCAB_MAX, Fld.SMP_CAP_TOPK_MAX, Fld.SMP_CAP_NLP_MAX]⟩,
  ⟨0xE0100, 0x8, 64, 64, .part, .ro, .svc, fun i => Reg.SMP_PROF_TBL i,
    [Fld.SMP_PROF_TBL_COUNT, Fld.SMP_PROF_TBL_BASE]⟩,
  ⟨0xE1000, 0x8, 4, 64, .pf0, .ro, .svc, fun i => Reg.SMP_QCNT i,
    [Fld.SMP_QCNT_TOKENS, Fld.SMP_QCNT_MASK_EMPTY, Fld.SMP_QCNT_BAD_PROF]⟩,
  ⟨0xD8000, 0x0, 1, 64, .own, .own, .svc, fun _ => Reg.SCH_RING_AREA 0,
    [Fld.SCH_RING_AREA_BASE]⟩,
  ⟨0xD8008, 0x0, 1, 64, .own, .own, .svc, fun _ => Reg.SCH_FN_STAT 0,
    [Fld.SCH_FN_STAT_VIOL, Fld.SCH_FN_STAT_LOST, Fld.SCH_FN_STAT_LONG_OPS, Fld.SCH_FN_STAT_DISCARD]⟩,
  ⟨0xD8010, 0x0, 1, 64, .own, .own, .svc, fun _ => Reg.SCH_APER 0,
    [Fld.SCH_APER_BASE]⟩,
  ⟨0xD8100, 0x20, 17, 64, .own, .own, .svc, fun i => Reg.SCH_RING_CFG 0 i,
    [Fld.SCH_RING_CFG_EN, Fld.SCH_RING_CFG_SQ_LOG2, Fld.SCH_RING_CFG_CQ_LOG2, Fld.SCH_RING_CFG_SQ_OFF, Fld.SCH_RING_CFG_CQ_OFF]⟩,
  ⟨0xD8108, 0x20, 17, 32, .own, .own, .svc, fun i => Reg.SCH_SQ_DB 0 i,
    [Fld.SCH_SQ_DB_SQ_TAIL]⟩,
  ⟨0xD810C, 0x20, 17, 32, .own, .own, .svc, fun i => Reg.SCH_CQ_DB 0 i,
    [Fld.SCH_CQ_DB_CQ_HEAD]⟩,
  ⟨0xD8110, 0x20, 17, 64, .own, .own, .svc, fun i => Reg.SCH_RING_IDX 0 i,
    [Fld.SCH_RING_IDX_SQ_HEAD, Fld.SCH_RING_IDX_CQ_TAIL]⟩,
  ⟨0xD8118, 0x20, 17, 64, .own, .own, .svc, fun i => Reg.SCH_RING_STAT 0 i,
    [Fld.SCH_RING_STAT_EXP_SEQ, Fld.SCH_RING_STAT_CQ_FULL, Fld.SCH_RING_STAT_BAD]⟩,
  ⟨0xA0000, 0x0, 1, 32, .pf0, .pf0, .svc, fun _ => Reg.LAS_CFG,
    [Fld.LAS_CFG_FADE_PCT, Fld.LAS_CFG_FADE_DB, Fld.LAS_CFG_FADE_TIME, Fld.LAS_CFG_LOS_DB]⟩,
  ⟨0xA0100, 0x8, 4, 64, .pf0, .ro, .quad, fun i => Reg.LAS_BANK i,
    [Fld.LAS_BANK_CSP_LEFT, Fld.LAS_BANK_IOSP_LEFT, Fld.LAS_BANK_CDARK, Fld.LAS_BANK_SWAPS, Fld.LAS_BANK_FADE_EV]⟩,
  ⟨0xA1000, 0x10, 1024, 64, .pf0, .ro, .laser, fun i => Reg.LAS_BIAS i,
    [Fld.LAS_BIAS_BIAS, Fld.LAS_BIAS_BIAS_MAX, Fld.LAS_BIAS_PWR, Fld.LAS_BIAS_COMM]⟩,
  ⟨0xA1008, 0x10, 1024, 64, .pf0, .ro, .laser, fun i => Reg.LAS_STAT i,
    [Fld.LAS_STAT_POS, Fld.LAS_STAT_SEL, Fld.LAS_STAT_STATE, Fld.LAS_STAT_FADE_CAUSE, Fld.LAS_STAT_HOURS, Fld.LAS_STAT_FREQ_ERR]⟩,
  ⟨0xB0000, 0x0, 1, 32, .pf0, .ro, .svc, fun _ => Reg.RNG_CAP,
    [Fld.RNG_CAP_SLICE_RINGS, Fld.RNG_CAP_PORT_RINGS, Fld.RNG_CAP_CLUSTERS, Fld.RNG_CAP_TONE_WIN]⟩,
  ⟨0xB0100, 0x4, 4, 32, .pf0, .logged, .quad, fun i => Reg.RNG_LOOP i,
    [Fld.RNG_LOOP_KP, Fld.RNG_LOOP_KI, Fld.RNG_LOOP_XOVER, Fld.RNG_LOOP_BW]⟩,
  ⟨0xB0200, 0x8, 4, 64, .pf0, .ro, .quad, fun i => Reg.RNG_QCNT i,
    [Fld.RNG_QCNT_WRONG_LOCK, Fld.RNG_QCNT_TONE_MIS, Fld.RNG_QCNT_RING_FAIL, Fld.RNG_QCNT_PCP_GAP]⟩,
  ⟨0xB1000, 0x8, 2048, 64, .pf0, .ro, .cluster, fun i => Reg.RNG_CLU_STAT i,
    [Fld.RNG_CLU_STAT_VERIFIED, Fld.RNG_CLU_STAT_FAILED, Fld.RNG_CLU_STAT_CHECK_OK, Fld.RNG_CLU_STAT_QUALITY, Fld.RNG_CLU_STAT_ALARMS, Fld.RNG_CLU_STAT_RELOCKS]⟩,
  ⟨0xF0000, 0x0, 1, 32, .pf0, .pf0, .svc, fun _ => Reg.LNK_CFG,
    [Fld.LNK_CFG_MIN_LANES, Fld.LNK_CFG_REQ_TIMEOUT, Fld.LNK_CFG_PROBE_LOSS]⟩]

/-- The register map, part 4. -/
def regRows3 : List RegRow := [
  ⟨0xF0008, 0x0, 1, 64, .pf0, .ro, .svc, fun _ => Reg.LNK_COORD,
    [Fld.LNK_COORD_MODULE_ID, Fld.LNK_COORD_SLOT, Fld.LNK_COORD_BOARD, Fld.LNK_COORD_RACK, Fld.LNK_COORD_POD, Fld.LNK_COORD_TOPO, Fld.LNK_COORD_VALID]⟩,
  ⟨0xF0100, 0x8, 64, 64, .part, .part, .svc, fun i => Reg.LNK_SLICE i,
    [Fld.LNK_SLICE_OFF, Fld.LNK_SLICE_EN]⟩,
  ⟨0xF1000, 0x20, 24, 64, .pf0, .pf0, .svc, fun i => Reg.LNK_PORT_CFG i,
    [Fld.LNK_PORT_CFG_EN, Fld.LNK_PORT_CFG_CLASS, Fld.LNK_PORT_CFG_ROLE, Fld.LNK_PORT_CFG_PEER_SLOT]⟩,
  ⟨0xF1008, 0x20, 24, 64, .pf0, .ro, .svc, fun i => Reg.LNK_PORT_STAT i,
    [Fld.LNK_PORT_STAT_STATE, Fld.LNK_PORT_STAT_LANES, Fld.LNK_PORT_STAT_SPARE_USED, Fld.LNK_PORT_STAT_PROT, Fld.LNK_PORT_STAT_FAR_ID, Fld.LNK_PORT_STAT_DELAY]⟩,
  ⟨0xF1010, 0x20, 24, 64, .pf0, .ro, .svc, fun i => Reg.LNK_PORT_CNT i,
    [Fld.LNK_PORT_CNT_FRAME_FAIL, Fld.LNK_PORT_CNT_REPLAY, Fld.LNK_PORT_CNT_LOST, Fld.LNK_PORT_CNT_RESEND, Fld.LNK_PORT_CNT_BAD_MSG, Fld.LNK_PORT_CNT_FENCE_BAD, Fld.LNK_PORT_CNT_RELAY_DROP]⟩,
  ⟨0xF2000, 0x8, 408, 64, .pf0, .ro, .svc, fun i => Reg.LNK_LANE i,
    [Fld.LNK_LANE_STATE, Fld.LNK_LANE_MARGIN, Fld.LNK_LANE_EYE_W, Fld.LNK_LANE_BER_LOG, Fld.LNK_LANE_TESTED]⟩,
  ⟨0x100000, 0x0, 1, 32, .pf0, .pf0, .svc, fun _ => Reg.TWN_CFG,
    [Fld.TWN_CFG_HB_LOSS, Fld.TWN_CFG_ACK_WAIT]⟩,
  ⟨0x100008, 0x0, 1, 64, .pf0, .ro, .svc, fun _ => Reg.TWN_STAT,
    [Fld.TWN_STAT_STATE, Fld.TWN_STAT_PEER, Fld.TWN_STAT_JBC, Fld.TWN_STAT_PATHS, Fld.TWN_STAT_CAUSE, Fld.TWN_STAT_TAKEOVER, Fld.TWN_STAT_ORPHANS]⟩,
  ⟨0x100010, 0x0, 1, 64, .pf0, .pf0, .svc, fun _ => Reg.TWN_JRN,
    [Fld.TWN_JRN_BASE, Fld.TWN_JRN_SIZE, Fld.TWN_JRN_USED]⟩,
  ⟨0x100018, 0x0, 1, 64, .pf0, .ro, .svc, fun _ => Reg.TWN_CNT,
    [Fld.TWN_CNT_HB_MISS, Fld.TWN_CNT_HELD, Fld.TWN_CNT_TAKEOVERS, Fld.TWN_CNT_STALE]⟩,
  ⟨0x110000, 0x0, 1, 32, .pf0, .pf0, .svc, fun _ => Reg.POW_CAP,
    [Fld.POW_CAP_HOST_CAP, Fld.POW_CAP_BMC_CAP]⟩,
  ⟨0x110008, 0x0, 1, 64, .pf0, .ro, .svc, fun _ => Reg.POW_INPUT,
    [Fld.POW_INPUT_VIN, Fld.POW_INPUT_IIN, Fld.POW_INPUT_PIN]⟩,
  ⟨0x110010, 0x0, 1, 64, .pf0, .ro, .svc, fun _ => Reg.POW_STAT,
    [Fld.POW_STAT_CAP_EFF, Fld.POW_STAT_BMC_LIMITS, Fld.POW_STAT_P_EST, Fld.POW_STAT_EMERG, Fld.POW_STAT_CAP_FLOOR, Fld.POW_STAT_GOV]⟩,
  ⟨0x110018, 0x0, 1, 32, .pf0, .ro, .svc, fun _ => Reg.POW_EST_CAL,
    [Fld.POW_EST_CAL_GAIN, Fld.POW_EST_CAL_OFFSET]⟩,
  ⟨0x110020, 0x0, 1, 64, .pf0, .ro, .svc, fun _ => Reg.POW_CNT,
    [Fld.POW_CNT_RIDGE, Fld.POW_CNT_RIDGE_IGN, Fld.POW_CNT_EST_REJECT, Fld.POW_CNT_CAP_MISS, Fld.POW_CNT_WARN, Fld.POW_CNT_CRIT]⟩,
  ⟨0x110100, 0x10, 4, 64, .pf0, .ro, .svc, fun i => Reg.POW_OP i,
    [Fld.POW_OP_CURRENT, Fld.POW_OP_TARGET, Fld.POW_OP_CEILING, Fld.POW_OP_BOOST, Fld.POW_OP_VGOOD, Fld.POW_OP_VCORE, Fld.POW_OP_QEST]⟩,
  ⟨0x110108, 0x10, 4, 64, .pf0, .ro, .svc, fun i => Reg.POW_QCNT i,
    [Fld.POW_QCNT_DROOP, Fld.POW_QCNT_LIMIT, Fld.POW_QCNT_RAISES, Fld.POW_QCNT_DROOP_FLOOR]⟩,
  ⟨0x120000, 0x0, 1, 32, .pf0, .pf0, .svc, fun _ => Reg.HKC_CFG,
    [Fld.HKC_CFG_PERIOD_SEL, Fld.HKC_CFG_PERIOD_US, Fld.HKC_CFG_REF_SEL, Fld.HKC_CFG_QOWN, Fld.HKC_CFG_RUN]⟩,
  ⟨0x120008, 0x0, 1, 32, .pf0, .pf0, .svc, fun _ => Reg.HKC_STAT,
    [Fld.HKC_STAT_REF_SETTLED, Fld.HKC_STAT_SEQ_IDLE, Fld.HKC_STAT_CURSOR, Fld.HKC_STAT_QLEVEL]⟩,
  ⟨0x120010, 0x0, 1, 64, .pf0, .pf0, .svc, fun _ => Reg.HKC_QREAD,
    [Fld.HKC_QREAD_CODE, Fld.HKC_QREAD_CH, Fld.HKC_QREAD_KIND, Fld.HKC_QREAD_CONV, Fld.HKC_QREAD_ENTRY, Fld.HKC_QREAD_REP, Fld.HKC_QREAD_OVR, Fld.HKC_QREAD_UNSET, Fld.HKC_QREAD_VALID, Fld.HKC_QREAD_SEQ]⟩]

/-- The register map, part 5. -/
def regRows4 : List RegRow := [
  ⟨0x120018, 0x0, 1, 64, .pf0, .pf0, .svc, fun _ => Reg.HKC_CNT,
    [Fld.HKC_CNT_QOVF, Fld.HKC_CNT_UNSETTLED, Fld.HKC_CNT_OVERRANGE]⟩,
  ⟨0x120100, 0x8, 64, 64, .pf0, .pf0, .svc, fun i => Reg.HKC_CHTBL i,
    [Fld.HKC_CHTBL_PAIR, Fld.HKC_CHTBL_CH_V, Fld.HKC_CHTBL_CH_I, Fld.HKC_CHTBL_REPEAT, Fld.HKC_CHTBL_DELAY, Fld.HKC_CHTBL_LAST]⟩,
  ⟨0x130000, 0x0, 1, 32, .pf0, .pf0, .svc, fun _ => Reg.THM_CFG,
    [Fld.THM_CFG_RISE_WARN, Fld.THM_CFG_RISE_CRIT, Fld.THM_CFG_COOL_WARN]⟩,
  ⟨0x130008, 0x0, 1, 64, .pf0, .ro, .svc, fun _ => Reg.THM_STAT,
    [Fld.THM_STAT_EMERG, Fld.THM_STAT_COOL_ALM, Fld.THM_STAT_LAST_TRIP]⟩,
  ⟨0x130010, 0x0, 1, 64, .pf0, .ro, .svc, fun _ => Reg.THM_CNT,
    [Fld.THM_CNT_WARN, Fld.THM_CNT_CRIT, Fld.THM_CNT_RISE, Fld.THM_CNT_SENSOR_FAIL, Fld.THM_CNT_BAND_CHG]⟩,
  ⟨0x130100, 0x8, 15, 64, .pf0, .ro, .svc, fun i => Reg.THM_REGION i,
    [Fld.THM_REGION_TMAX, Fld.THM_REGION_RATE, Fld.THM_REGION_LEVEL, Fld.THM_REGION_BAND, Fld.THM_REGION_FAILED]⟩,
  ⟨0x131000, 0x4, 1024, 32, .tile, .ro, .svc, fun i => Reg.THM_TILE i,
    [Fld.THM_TILE_TEMP, Fld.THM_TILE_BAND, Fld.THM_TILE_FAILED]⟩,
  ⟨0x140000, 0x0, 1, 32, .pf0, .pf0, .svc, fun _ => Reg.FWP_CFG,
    [Fld.FWP_CFG_WD_MS]⟩,
  ⟨0x140008, 0x0, 1, 64, .pf0, .ro, .svc, fun _ => Reg.FWP_BOOT,
    [Fld.FWP_BOOT_ACTIVE_BANK, Fld.FWP_BOOT_BOOTED_BANK, Fld.FWP_BOOT_FALLBACK, Fld.FWP_BOOT_RECOVERY, Fld.FWP_BOOT_MIN_SVN, Fld.FWP_BOOT_BOOT_SEQ]⟩,
  ⟨0x140010, 0x0, 1, 32, .pf0, .ro, .svc, fun _ => Reg.FWP_ACT,
    [Fld.FWP_ACT_PHASE, Fld.FWP_ACT_RESULT]⟩,
  ⟨0x140100, 0x8, 2, 64, .pf0, .ro, .svc, fun i => Reg.FWP_VER i,
    [Fld.FWP_VER_VERSION, Fld.FWP_VER_SVN, Fld.FWP_VER_VALID]⟩,
  ⟨0x140200, 0x8, 8, 64, .pf0, .ro, .svc, fun i => Reg.FWP_PROC i,
    [Fld.FWP_PROC_ALIVE, Fld.FWP_PROC_LAST_CAUSE, Fld.FWP_PROC_QUEUED, Fld.FWP_PROC_RESTARTS, Fld.FWP_PROC_LAST_TIME]⟩,
  ⟨0x40000, 0x0, 1, 32, .pf0, .pf0, .svc, fun _ => Reg.TILE_TEST_CFG,
    [Fld.TILE_TEST_CFG_PERIOD, Fld.TILE_TEST_CFG_RES_LIM]⟩,
  ⟨0x40100, 0x8, 4, 64, .pf0, .ro, .svc, fun i => Reg.TILE_QFLT i,
    [Fld.TILE_QFLT_SPARES, Fld.TILE_QFLT_UNAVAIL, Fld.TILE_QFLT_RETIRED, Fld.TILE_QFLT_TESTS]⟩,
  ⟨0x41000, 0x10, 1024, 64, .tile, .ro, .tile, fun i => Reg.TILE_FLT i,
    [Fld.TILE_FLT_RES_MIS, Fld.TILE_FLT_REPLAY, Fld.TILE_FLT_ECC_CE, Fld.TILE_FLT_ECC_UE, Fld.TILE_FLT_STEP_RST]⟩,
  ⟨0x41008, 0x10, 1024, 64, .tile, .ro, .tile, fun i => Reg.TILE_TEST i,
    [Fld.TILE_TEST_STATE, Fld.TILE_TEST_OVERDUE, Fld.TILE_TEST_PASS, Fld.TILE_TEST_FAIL, Fld.TILE_TEST_LAST_DONE]⟩,
  ⟨0x54000, 0x8, 32, 64, .pf0, .ro, .stack, fun i => Reg.MEM_ECC i,
    [Fld.MEM_ECC_CE, Fld.MEM_ECC_UE]⟩,
  ⟨0x150000, 0x0, 1, 32, .pf0, .session, .svc, fun _ => Reg.SEC_CFG,
    [Fld.SEC_CFG_CO_TIMEOUT]⟩,
  ⟨0x150008, 0x0, 1, 64, .all, .ro, .svc, fun _ => Reg.SEC_STAT,
    [Fld.SEC_STAT_APPROVED, Fld.SEC_STAT_ERROR, Fld.SEC_STAT_ERR_CAUSE, Fld.SEC_STAT_CO_SESSION, Fld.SEC_STAT_DEBUG_OPEN, Fld.SEC_STAT_ZERO_PHASE, Fld.SEC_STAT_CO_LEFT]⟩,
  ⟨0x150010, 0x0, 1, 64, .pf0, .ro, .svc, fun _ => Reg.SEC_CO_CTR,
    [Fld.SEC_CO_CTR_CO_CTR]⟩]

/-- The register map, part 6. -/
def regRows5 : List RegRow := [
  ⟨0x150018, 0x0, 1, 64, .pf0, .ro, .svc, fun _ => Reg.SEC_CNT,
    [Fld.SEC_CNT_AUTH_FAIL, Fld.SEC_CNT_ZEROIZES, Fld.SEC_CNT_SCRUBS]⟩,
  ⟨0x150100, 0x8, 12, 64, .pf0, .ro, .svc, fun i => Reg.SEC_DEVPUB i,
    [Fld.SEC_DEVPUB_PUB]⟩,
  ⟨0x150200, 0x8, 64, 64, .part, .ro, .svc, fun i => Reg.SEC_PART i,
    [Fld.SEC_PART_EXISTS, Fld.SEC_PART_KEY_SRC, Fld.SEC_PART_KEY_GEN, Fld.SEC_PART_EXCL, Fld.SEC_PART_SLICED]⟩,
  ⟨0x151000, 0x8, 512, 64, .window, .ro, .svc, fun i => Reg.SEC_WIN i,
    [Fld.SEC_WIN_EN, Fld.SEC_WIN_BASE, Fld.SEC_WIN_SIZE]⟩,
  ⟨0x20000, 0x0, 1, 64, .all, .ro, .svc, fun _ => Reg.CLK_STAT,
    [Fld.CLK_STAT_REF_OK, Fld.CLK_STAT_PLL_LOCK, Fld.CLK_STAT_HOLDOVER, Fld.CLK_STAT_REF_LOSS]⟩,
  ⟨0x20008, 0x0, 1, 64, .all, .ro, .svc, fun _ => Reg.CLK_TIME,
    [Fld.CLK_TIME_TIME]⟩,
  ⟨0x20010, 0x0, 1, 32, .pf0, .pf0, .svc, fun _ => Reg.CLK_TSYNC,
    [Fld.CLK_TSYNC_SRC_PORT, Fld.CLK_TSYNC_LOCKED, Fld.CLK_TSYNC_FAR, Fld.CLK_TSYNC_OFFSET]⟩,
  ⟨0x20018, 0x0, 1, 32, .pf0, .pf0, .svc, fun _ => Reg.CLK_RESET,
    [Fld.CLK_RESET_MODULE, Fld.CLK_RESET_QUAD]⟩,
  ⟨0x20020, 0x0, 1, 64, .all, .ro, .svc, fun _ => Reg.CLK_START,
    [Fld.CLK_START_PHASE, Fld.CLK_START_QDOWN, Fld.CLK_START_QRST, Fld.CLK_START_NOFAB, Fld.CLK_START_ELAPSED]⟩,
  ⟨0x0, 0x0, 1, 64, .all, .ro, .svc, fun _ => Reg.GLB_ID,
    [Fld.GLB_ID_STEPPING, Fld.GLB_ID_FAMILY, Fld.GLB_ID_PART, Fld.GLB_ID_SVC_STEP]⟩,
  ⟨0x8, 0x0, 1, 64, .all, .ro, .svc, fun _ => Reg.GLB_SERIAL,
    [Fld.GLB_SERIAL_SERIAL]⟩,
  ⟨0x10, 0x0, 1, 64, .all, .ro, .svc, fun _ => Reg.GLB_CAP,
    [Fld.GLB_CAP_QUADS, Fld.GLB_CAP_TILES, Fld.GLB_CAP_SPARES_Q, Fld.GLB_CAP_PARTS, Fld.GLB_CAP_PORTS, Fld.GLB_CAP_STACK_GIB]⟩,
  ⟨0x18, 0x0, 1, 32, .all, .ro, .svc, fun _ => Reg.GLB_SUMMARY,
    [Fld.GLB_SUMMARY_READY, Fld.GLB_SUMMARY_EMERG, Fld.GLB_SUMMARY_GOV, Fld.GLB_SUMMARY_RECOVERY, Fld.GLB_SUMMARY_SEC_ERR, Fld.GLB_SUMMARY_HOLDOVER, Fld.GLB_SUMMARY_QDOWN, Fld.GLB_SUMMARY_NOFAB, Fld.GLB_SUMMARY_TWIN]⟩,
  ⟨0x20, 0x0, 1, 32, .all, .ro, .svc, fun _ => Reg.GLB_FN,
    [Fld.GLB_FN_PARTITION, Fld.GLB_FN_PF]⟩,
  ⟨0x10000, 0x0, 1, 32, .pf0, .pf0, .svc, fun _ => Reg.CFG_CAL_CTL,
    [Fld.CFG_CAL_CTL_DT_CAL]⟩,
  ⟨0x11000, 0x4, 1024, 32, .tile, .ro, .svc, fun i => Reg.CFG_TILE_MAP i,
    [Fld.CFG_TILE_MAP_Q, Fld.CFG_TILE_MAP_X, Fld.CFG_TILE_MAP_Y, Fld.CFG_TILE_MAP_AVAIL, Fld.CFG_TILE_MAP_SPARE_IN, Fld.CFG_TILE_MAP_PART, Fld.CFG_TILE_MAP_MODE]⟩,
  ⟨0x12000, 0x4, 1088, 32, .pf0, .ro, .svc, fun i => Reg.CFG_PHYS_MAP i,
    [Fld.CFG_PHYS_MAP_LOGICAL, Fld.CFG_PHYS_MAP_STATE]⟩,
  ⟨0x30000, 0x8, 4, 64, .all, .ro, .quad, fun i => Reg.QUAD_ID i,
    [Fld.QUAD_ID_CD_STEP, Fld.QUAD_ID_PB_STEP, Fld.QUAD_ID_DIE_ID]⟩]

/-- The whole register map. -/
def regRows : List RegRow := regRows0 ++ regRows1 ++ regRows2 ++ regRows3 ++ regRows4 ++ regRows5

end Sys2Proof.Machine
end

