-- ==== Sys2Proof/Machine/State.lean ====
section
/-! DEFINITION. The state of the block as plain data, its reasons to stop, and the state right after a power-on reset. -/

namespace Sys2Proof.Machine

/-- Why a command stops the machine. -/
inductive Fault
  /-- Raised by an event command that names a tile, port, laser, ring, quadrant, processor, region, pair, function or
  placement number the module does not have (R10, R15, R19, R322, R324, R453, R467): no such event can happen, so no
  run of the hardware is lost. Safe. -/
  | noSuchObject
  deriving DecidableEq, Repr

/-- Why a command is refused. -/
inductive Refusal
  /-- Raised by an arm of exec whose command has no meaning yet. Safe: nothing can be proved about it. -/
  | notModelled (mnemonic : String)
  deriving DecidableEq, Repr

/-! ## Contexts (07_sessions_and_scheduling.md) -/

/-- Context states (R216, R220). -/
inductive CtxState | closed | opened | active | paused | parked | expired
  deriving DecidableEq, Repr

/-- A node of a speculative tree (R193); no parent: child of the pending token. -/
structure Node where
  token  : Nat
  parent : Option Nat
  qdraft : Nat
  deriving DecidableEq, Repr

/-- A packet effect held until the retire of the step in flight (R26, R221). -/
inductive HeldOp
  | append (va count genLeft : Nat) (deadline : Option Nat) (pair : Nat)
  | resume (genLeft deadline : Option Nat) (pair : Nat)
  | pause
  | close
  | tree (t : List Node)
  | park (h : Hdr)
  | open_ (h : Hdr) (o : OpenParams)
  deriving DecidableEq, Repr

/-- A park or restore in progress (R201 to R203): first extent, image bytes, and for a restore the
SESSION_RESUME or SESSION_APPEND that follows it, and the reply owed by KV_PARK or KV_RESTORE. -/
structure Move where
  extent   : Nat
  bytes    : Nat
  thenOp   : Option HeldOp := none
  ready    : Bool := false                    -- a restore has all its frames
  reply    : Option (Hdr × Nat) := none
  deriving DecidableEq, Repr

/-- The descriptor of a context (R216) and, after `pair`, the parts of it that no descriptor field shows. -/
structure Ctx where
  st        : CtxState := .closed
  cls       : Nat := 0
  aged      : Bool := false
  contLate  : Bool := false
  starved   : Bool := false
  part      : Nat := 0
  waitSteps : Nat := 0
  placement : Nat := 0
  tag       : Nat := 0
  kvBase    : Nat := 0
  lenMax    : Nat := 0
  pos       : Nat := 0
  pending   : Nat := 0
  pvalid    : Bool := false
  parkExt   : Nat := 0
  sprof     : Nat := 0
  genLeft   : Nat := 0
  seed      : Nat := 0
  deadline  : Nat := 0
  timestamp : Nat := 0
  appVa     : Nat := 0
  appCnt    : Nat := 0
  pair      : Nat := 0                 -- completion ring pair (R295)
  held      : List HeldOp := []
  tree      : Option (List Node) := none
  deriving DecidableEq, Repr

/-- The hidden part of a context: starvation, Scree moves and cache marks. -/
structure CtxAux where
  needs     : List Nat := []           -- virtual addresses of pages still without a frame (R191)
  starveSeq : Nat := 0
  park      : Option Move := none
  restore   : Option Move := none
  kvWait    : List (Nat × List Byte) := []  -- entries that wait for a frame of a cross-attention page: address, bytes (R186)
  npx       : Nat := 0                 -- cross-attention pages per head (R202)
  lru       : Nat := 0                 -- order of last use in the context cache; 0: not cached (R222)
  dirty     : Bool := false
  gone      : Bool := false            -- descriptor out of service (R499)
  enc       : List (Nat × Nat) := []   -- encoder entries present: attention layer, count (R154)
  redo      : List Nat := []           -- journaled history still to be prefilled after a takeover (R388)
  redoPend  : Option Nat := none       -- the last journaled token, pending once `redo` is done
  redoEnd   : Option (Nat × List Nat × Nat × Bool) := none  -- completion owed then: status, tokens, POSITION; whether it ends PAUSED
  deriving DecidableEq, Repr

/-! ## Model images (08_model_images_and_swap.md) -/

/-- A share directory entry (R257). -/
structure Share where
  kFirst  : Nat
  kCount  : Nat
  nFirst  : Nat
  nCount  : Nat
  wsOff   : Nat
  woutN   : Nat
  woutOff : Nat
  repOff  : Nat
  deriving DecidableEq, Repr

/-- A layer table entry (R256) with its share directory. -/
structure Layer where
  kind   : Nat
  wfmt   : Nat
  afmt   : Nat
  pin    : Nat
  ascale : Nat
  norm   : Nat
  act    : Nat
  lflags : Nat
  k      : Nat
  n      : Nat
  theta  : F32
  attIdx : Nat
  split  : Nat
  wOff   : Nat
  wBytes : Nat
  wCap   : Nat
  dirOff : Nat
  nExp   : Nat
  top    : Nat
  shares : List Share
  deriving DecidableEq, Repr

/-- An attention table entry (R259) with its VSCALE bytes. -/
structure Att where
  dh      : Nat
  g       : Nat
  srep    : Nat
  seg     : Nat
  kvf     : Nat
  hkv     : Nat
  sigma   : F32
  vscaleOff : Nat
  vscale  : List Nat
  deriving DecidableEq, Repr

/-- The tables of an image (R255). -/
structure Image where
  bytes     : Nat := 0
  tiles     : Nat := 0
  frameLog2 : Nat := 12
  sparse    : Bool := false
  vocab     : Nat := 0
  shardIdx  : Nat := 0
  shardCnt  : Nat := 1
  hintA     : F32 := 0
  hintB     : F32 := 0
  layerTbl  : Nat := 0
  attTbl    : Nat := 0
  layers    : List Layer := []
  atts      : List Att := []
  deriving DecidableEq, Repr

/-- Model states (R272); `absent` stands for no model under the ID. -/
inductive ModelState | absent | loading | loaded | swapping | incomplete | unloading
  deriving DecidableEq, Repr

/-- A swap in progress (R274, R276): the new image, its source and whether the hold has begun. -/
structure Swap where
  img     : Image
  srcModel : Option Nat := none
  bound   : Nat := 0                  -- in us, from the end of the checks on
  holdAt  : Option Nat := none
  was     : ModelState := .loaded     -- state before the swap
  op      : Nat := 0                  -- number of its long operation
  deriving DecidableEq, Repr

/-- A model (R271, R272). -/
structure Model where
  st   : ModelState := .absent
  part : Nat := 0
  gen  : Nat := 0
  dest : Nat := 0
  img  : Image := {}
  swap : Option Swap := none
  unload : Option (Hdr × Nat) := none    -- MODEL_UNLOAD whose reply waits for its placements (R279)
  was  : ModelState := .loaded           -- state before UNLOADING
  deriving DecidableEq, Repr

/-! ## Placements and steps -/

/-- What a context does in a step (R224). -/
inductive Kind
  | decode
  | spec (tree : List Node) (frames : List Nat)
  | prefill (t : Nat) (ends : Bool)
  deriving DecidableEq, Repr

/-- A context's slot of a step (R224): its kind, first position, number of positions, and what came of it. -/
structure Slot where
  ctx      : Nat
  kind     : Kind
  p0       : Nat
  npos     : Nat
  emits    : Bool
  inputs   : List Nat := []                     -- token at each position processed
  prof     : List Byte := []                    -- sampling profile as read at build (R239)
  done     : Bool := false
  tokens   : List Nat := []
  lps      : List (List (Nat × F32)) := []
  accepted : List Nat := []
  discard  : Option Nat := none                 -- status under which its work was discarded (R29)
  stay     : Bool := false                      -- a discard that leaves the context ACTIVE (R500)
  clearApp : Bool := false                      -- a bad token word clears APPEND (R301)
  deriving DecidableEq, Repr

/-- The gain and offset set of an array that a step in flight goes on using while a cairn of another placement brings in new values (R116),
and the drift factor that the new set took over (R119). -/
structure Coef where
  g  : Tbl Nat
  o  : Tbl Int
  hs : Rat := 1
  deriving DecidableEq, Repr

/-- A step in flight (R226): what it carries and the values in force at its build. -/
structure Step where
  id        : Nat
  builtAt   : Nat
  slots     : List Slot
  npos      : Nat
  predicted : Rat
  gen       : Nat
  profile   : Nat                 -- 1 to 3 (R46)
  sparse    : Bool                -- sparse-adaptive (R79)
  escSat    : Nat
  escZro    : Nat
  chkCfg    : Nat                 -- CAB.CHK_CFG as of the build
  mdtCfg    : Nat
  indCfg    : Nat
  regs      : Tbl Word64 := []    -- partition settings in force (R13, R206): those of `cairnRegs` that differ from reset
  scree     : Nat × Nat := (0, 0) -- Scree region in force: base, bytes
  coef      : List (Nat × Coef) := []  -- physical tile * 512 + array: the set in force at the build, where it has changed since
  lopt      : List (Nat × Nat) := []
  marks     : List Nat := []      -- tiles marked by a slice (R407)
  fb        : List (Nat × Nat) := []  -- tiles whose slice the step does not use, with FB_CAUSE (R165)
  escalated : Bool := false
  restarted : Bool := false
  relaySent : Bool := false
  relayOut  : Nat := 0            -- records sent and not answered OK (R378)
  layers    : Tbl (Nat × Nat × Nat × Nat) := []  -- layer: climbs to XB6, XB8, digital replays, passes (R64)
  ran       : List (Nat × Nat) := []  -- (tile, layer) passes forwarded (R27)
  notBuilt  : List (Nat × Nat) := []  -- (context, status) written after the slot-ordered completions (R187, R235)
  deriving DecidableEq, Repr

/-- The parameters of a PLACE (R266, R305). -/
structure PlaceCfg where
  model    : Nat := 0
  tiles    : List Nat := []
  profile  : Nat := 0
  rowmode  : Nat := 0
  resident : Bool := false
  sliced   : Bool := false
  stage    : Nat := 0
  slots    : Nat := 1
  posMax   : Nat := 16
  tgt      : Nat := 0
  ts       : Nat := 1
  lopt     : List (Nat × Nat) := []
  deriving DecidableEq, Repr

/-- A placement (R266, R223). -/
structure Place where
  present  : Bool := false
  part     : Nat := 0
  cfg      : PlaceCfg := {}
  change   : Option PlaceCfg := none      -- PLACE waiting for the cairn (R269)
  stats    : Nat := 0                     -- layer statistics table (R64)
  steps    : Nat := 0                     -- steps built (R510: step count of a restart's entry)
  a        : Rat := 0                     -- ns
  b        : Rat := 0                     -- ns per position
  fenced   : Bool := false
  fresh    : List Nat := []               -- tiles newly in the list, filled before the next step (R269)
  barrier  : Bool := false                -- model swap or test barrier
  testHold : Bool := false
  removing : Bool := false                -- forced unload (R279)
  hold     : Bool := false                -- this LC placement holds BULK (R232)
  swapWaves : List Nat := []              -- wavelengths (q * 16 + w) swapped at the last quadrant cairn (R338)
  stalled  : Bool := false                -- completion waiting over 100 us (R289)
  turnDone : Nat := 0
  keptAt   : Nat := 0                     -- time of the last retire (R26)
  kept     : List Nat := []               -- contexts of that step still ready at its cairn (R26)
  pslot    : List (Nat × Nat) := []       -- (tile, PSLOT) (R89)
  step     : Option Step := none
  slice    : List Byte := []              -- slice entry read (R376)
  relayN   : Nat := 0                     -- records sent so far (R377)
  deriving DecidableEq, Repr

/-! ## Partitions, rings and logs -/

/-- A violation log entry (R312). -/
structure VEntry where
  time   : Nat
  addr   : Nat
  source : Nat
  part   : Nat
  phys   : Bool
  value  : Bool
  deriving DecidableEq, Repr

/-- A park that waits until the frames it returned have all left for the free ring (R192): its context and the frames. -/
structure RetWait where
  ctx    : Nat
  frames : List Nat
  deriving DecidableEq, Repr

/-- A partition's state outside its registers. -/
structure Part where
  viol      : List VEntry := []           -- oldest first, at most 16 (R313)
  screeBase : Nat := 0
  screeBytes : Nat := 0
  extents   : List (Nat × Nat) := []      -- allocated 64 KiB extents: first, count (R201)
  pool      : List Nat := []              -- scratch pool frames (R200)
  returns   : List (Nat × Nat) := []      -- frames waiting for the free ring: address, REASON (R192)
  retWaits  : List RetWait := []          -- parks that wait for frames they returned, oldest first
  armed     : Bool := true                -- reservoir interrupt (R190)
  resPtr    : Nat := 0                    -- pointer of the reservoir arbiter (R189)
  inv       : Option (Nat × Nat × Bool) := none  -- invalidation in progress: first page, pages, all (R215)
  stale     : List (Nat × Nat × Nat) := []   -- page-table entries the host changed: address, 4 KiB page, old entry (R184)
  destroyStep : Nat := 0                  -- next step of a PART_DESTROY (R521)
  deriving DecidableEq, Repr

/-- An entry waiting for a completion ring: its bytes in whole 32-byte entries and what its writing raises (R289, R295). -/
structure Out where
  bytes  : List Byte
  isReply : Bool
  seq    : Nat := 0
  final  : Bool := true
  irq    : Bool := false
  place  : Option Nat := none
  stepEnd : Bool := false
  waited : Bool := false
  since  : Nat := 0
  deriving DecidableEq, Repr

/-- A CAIRN whose reply waits (R227): the placements it names, those whose cairn it still awaits, whether packets accepted before it
still wait for CP, and the swaps it awaits. -/
structure CairnWait where
  h      : Hdr
  named  : List Nat
  wait   : List Nat
  queued : Bool := false
  ops    : List Nat := []
  deriving DecidableEq, Repr

/-- A ring pair outside its registers. -/
structure Pair where
  out     : List Out := []
  open_   : List Nat := []                     -- SEQs accepted whose final reply is not yet written (R299)
  fence   : Option (Hdr × Nat × List (Nat × List Nat)) := none   -- header, start, SEQs awaited by ring
  cairns  : List CairnWait := []               -- CAIRN replies owed (R227)
  deriving DecidableEq, Repr

/-- A long operation in progress (R308), under a number of its own. -/
structure LongOp where
  id     : Nat
  h      : Hdr
  pkt    : CPacket
  stage  : Nat := 0
  done   : Nat := 0
  total  : Nat := 1
  startAt : Nat := 0
  progAt : Nat := 0
  progN  : Nat := 0
  failed : Option (Nat × Nat) := none          -- status and DETAIL of a check that failed
  wait   : List Nat := []                      -- objects still awaited
  data   : List Byte := []
  deriving DecidableEq, Repr

/-- A firmware processor (R467, R474, R476). -/
structure Proc where
  queue   : List (Hdr × CPacket) := []
  ptr     : Nat := 0                  -- pointer of the service arbiter (R308)
  restarts : List Nat := []
  deriving DecidableEq, Repr

/-! ## Arrays and tiles -/

/-- A charge array (R65, R66, R68, R89, R97, R115, R117). Digits are keyed row * 64 + column. -/
structure Arr where
  valid   : Bool := false
  pslot   : Nat := 0
  layer   : Nat := 0
  gen     : Nat := 0
  digit   : Nat := 0
  dup     : Bool := false
  chunk   : Nat := 0                -- CHUNK of the tag, 9 bits
  win     : Nat := 0                -- which run of 512 chunks of the share CHUNK counts in; not in the tag
  copy    : Nat := 0                -- which copy of its share (R95)
  cells   : Tbl Int := []
  resid   : Tbl Int := []
  dev     : Tbl Int := []          -- s - d of stuck cells and adj of adjusted cells, by cell (R98, R99)
  stuck   : Tbl Int := []          -- cell map: stuck digit (R97)
  retCols : List Nat := []
  retired : Bool := false
  g       : Tbl Nat := []          -- unlisted 0x8000 (R115)
  o       : Tbl Int := []          -- unlisted 0
  h       : Rat := 1
  clamp   : Bool := false
  rhos    : List (Nat × Rat) := []  -- reads of this microsecond: magnitude of the expectation, ratio (R117)
  residErr : Nat := 0
  calTime : Nat := 0
  accepted : Bool := false         -- its last calibration was accepted (R86)
  deriving DecidableEq, Repr

/-- A physical tile (R19, R97, R502). -/
structure Phys where
  arrays  : Tbl Arr := []
  testRound : Nat := 0
  testSlices : Nat := 0
  testKind : Nat := 0
  sigs    : List (Nat × Word64) := []
  calBusyUntil : Nat := 0          -- end of the last slice (R406)
  dueAt   : Option Nat := none     -- module time at which the last round fell due
  third   : Nat := 0               -- slices run as the third tile of a pair (R504)
  lightOk : Bool := false          -- the last calibration of its slice was accepted (R163)
  slicePtr : Nat := 0              -- pointer of the arbiter between calibration and test slices (R503)
  testReg : Word64 := 0            -- what TILE.TEST shows once a spare serves an index
  trims   : Tbl Nat := []
  rowGains : Tbl Nat := []
  mapNext : Option (List (Nat × Nat × Nat × Int)) := none  -- a cell map that comes into effect at the tile's next cairn (R413)
  deriving DecidableEq, Repr

/-- A column result of one block, digit and activation pass for one vector (R39): its array, samples and conversions. -/
structure ColRes where
  v : Nat
  b : Nat
  d : Nat
  p : Nat
  n : Nat
  sum : Int
  samples : Nat
  corr : Rat                      -- gain and offset correction of the mean (R115)
  worn : Rat                      -- deviation term (R99)
  deriving DecidableEq, Repr

/-- A tile-layer pass at work (R51, R112). -/
structure Pass where
  pslot   : Nat
  place   : Nat
  model   : Nat
  layer   : Nat
  share   : Nat
  expert  : Nat := 0
  acts    : List (List BF16)
  fmt     : Nat                   -- 4, 6, 8 bits, or 0 for digital
  rung    : Nat := 0
  replay  : Bool := false          -- runs on a buddy's replay path (R497)
  codes   : List (List Int) := []  -- quantised activations by vector, padded to whole blocks
  scales  : List (List Nat) := []  -- E by vector and block
  outl    : List (Nat × Nat) := [] -- extracted (vector, index)
  ezBlocks : List (Nat × Nat) := []  -- EXACT_ZERO blocks: vector, block
  ovf     : Bool := false
  sat     : Nat := 0
  elems   : Nat := 0
  zro     : Nat := 0
  nonzero : Nat := 0
  cols    : List ColRes := []
  tally   : Tbl (Nat × Nat) := []  -- chunk: conversions that saturated, conversions made
  gone    : List ((Nat × Nat) × List Nat) := []  -- (chunk, vector): columns retired as it was read (R100, R123)
  doneCh  : List Nat := []         -- chunks read
  round   : List Nat := []         -- chunks of the round at work (R94)
  copies  : Nat := 0               -- copies that the pass runs on; 0: not chosen yet (R95)
  seen    : List Nat := []         -- blocks whose row groups are counted in this read (R81, R82)
  counted : Bool := false          -- this read is counted in MDT.TILE_NUM (R62)
  k       : Nat := 0               -- next vector group, digit pass and array cycle of the round
  p       : Nat := 0
  g       : Nat := 0
  waited  : Bool := false          -- counted in GEN_WAIT
  clamped : Bool := false          -- counted in CLAMP_PASS
  mism    : List Nat := []         -- arrays with a failed comparison in this read
  resBad  : Bool := false          -- the first read ended with a residue mismatch
  repeated : Bool := false
  deriving DecidableEq, Repr

/-- The state of one query row of the attention at work (R155). -/
structure ARow where
  pos   : Nat
  node  : Option Nat
  head  : Nat
  codes : List Int
  eq    : Nat
  m     : Option F32 := none
  l     : F32 := 0
  o     : List (F32 × F32) := []
  fb    : Bool := false            -- some of it was computed in fallback
  optAt : Option Nat := none       -- when its last optical pass ended; none: it holds no optical result (R166)
  deriving DecidableEq, Repr

/-- A head group at work on an Indigo slice (R148, R160). -/
structure Attn where
  pslot  : Nat
  place  : Nat
  ctx    : Nat
  layer  : Nat
  head   : Nat
  rows   : List ARow
  scored : List (Nat × Nat × List (Option F32)) := []   -- row, segment, scores by key (none: invisible)
  mixed  : Nat := 0                -- segments mixed
  deriving DecidableEq, Repr

/-- A region of the Indigo stream buffer: the segment of keys (`off` 0) or values (`off` 1) it holds, as scales and codes (R159). -/
structure SbRegion where
  place : Nat
  ctx   : Nat
  layer : Nat
  head  : Nat
  seg   : Nat
  off   : Nat
  vecs  : List (Int × List Int)
  deriving DecidableEq, Repr

/-- What a tile forwarded of a layer in a step: outputs by vector, or under split-K the pairs of its K-part (R42, R43). -/
structure TileOut where
  place   : Nat
  layer   : Nat
  expert  : Nat
  step    : Nat
  results : List (List F32) := []
  pairs   : List (List (F32 × F32)) := []
  deriving DecidableEq, Repr

/-- The tile-SRAM copy of one expert's share of a layer: weights, weight-outlier table and repair table (R23, R55, R87, R120). -/
structure ShareCopy where
  place  : Nat
  layer  : Nat
  expert : Nat
  gen    : Nat
  bytes  : List Byte
  wout   : List Byte
  rep    : List Byte
  deriving DecidableEq, Repr

/-- A logical tile outside its registers. -/
structure Tile where
  pass     : Option Pass := none
  attns    : List Attn := []          -- head groups at work on the slice, one placement's pass at a time (R161)
  sb       : Tbl SbRegion := []        -- stream buffer, regions 0 to 2 (R159)
  sbNext   : Nat := 0                  -- region filled next
  slPtr    : Nat := 0                  -- pointer of the slice arbiter (R161)
  scoring  : Option (Nat × Nat × Nat × Nat × Nat) := none  -- score pass with row sets left: slot, context, layer, head, segment (R160)
  mixMode  : Bool := false             -- the last optical pass of the slice was a mix
  outs     : List TileOut := []        -- outputs forwarded
  attnOut  : List (Nat × List BF16) := []    -- forwarded head-layers: head, output (R155)
  retiring : Option Nat := none        -- cause of a retirement decided and not yet at its cairn (R496)
  buddy    : Option Nat := none        -- tile that runs its replay path (R497)
  unavail  : Bool := false
  staged   : List (Nat × Nat) := []    -- (placement, bytes of its staging budget)
  copies   : List ShareCopy := []      -- shares held in tile SRAM
  wrPtr    : Nat := 0                  -- pointer of the write path: 0 demand, 1 run-ahead (R91)
  lastPart : Option Nat := none
  assigned : List Nat := []            -- partitions that hold it time-sliced (R524)
  spare    : Option Nat := none        -- spare that takes over at the cairn (R20)
  resTimes : List Nat := []            -- times of recovered residue mismatches (R505)
  deriving DecidableEq, Repr

/-! ## Lasers and rings -/

/-- A laser outside its registers (R323, R335, R336). -/
structure Laser where
  heater  : Nat := 0                  -- drive of its tuning heater (R323)
  fadeAt  : Nat := 0
  missN   : Nat := 0                  -- consecutive cairns with a failed ring-lock check (R341)
  lowN    : Nat := 0                  -- consecutive 100 ms samples below the FADE_DB limit
  lowAt   : Nat := 0
  deep    : Bool := false
  table   : List Nat := [0, 0, 0, 0]  -- bias table by band
  dark    : Bool := false
  derated : Bool := false
  deriving DecidableEq, Repr

/-- Ring states (R326). -/
inductive RingSt | unlocked | acquiring | locked | verified | failed
  deriving DecidableEq, Repr

/-- A ring (R325 to R332). -/
structure Ring where
  st      : RingSt := .unlocked
  since   : Nat := 0
  tried   : Nat := 0                  -- candidates that failed the tone check
  matchedAt : Option Nat := none      -- end of the last window that matched
  sweeping : Bool := false
  heater  : Nat := 0                  -- heater code that calibration gives
  htrMax  : Nat := 0                  -- HTR_MAX, as a heater code (R327)
  setpoint : Nat := 0
  quality : Nat := 0
  drive   : Nat := 0                  -- heater drive of the loop, as a heater code (R325)
  trim    : Int := 0                  -- electro-optic trim
  integ   : Int := 0                  -- sum of the errors of the loop's updates
  handed  : Bool := false             -- the heater has taken the trim's share
  deriving DecidableEq, Repr

/-! ## The fabric and the twin -/

/-- A request sent and not answered (R367). -/
structure Req where
  msg    : FMsg
  port   : Nat
  sentAt : Nat
  resends : Nat := 0
  place  : Option Nat := none
  deferred : Bool := false
  deriving DecidableEq, Repr

/-- A port outside its registers (R357 to R368). -/
structure Port where
  upAt    : Nat := 0                  -- when it came UP: frame k leaves 12.5 k ns later (R357)
  rxNext  : Nat := 0
  ackSeen : Nat := 0                  -- highest FSEQ the far end has acknowledged, plus 1 (R366)
  txWait  : List FMsg := []           -- messages that wait for credits (R362)
  txPtr   : Nat := 0                  -- pointer of the transmit arbiter (R362)
  nak     : Option Nat := none
  credits : List Nat := [1024, 128, 1024, 32]
  laneMap : Nat := 0
  mapSeq  : Nat := 0
  mapNext : Option (Nat × Nat) := none   -- (frame from which it applies, map) (R368)
  rxMap   : Nat := 0                  -- stripe of the frames received
  rxSeq   : Nat := 0                  -- MAP_SEQ of the last map announced by the far end
  rxMapNext : Option (Nat × Nat) := none
  returned : List Nat := [0, 0, 0, 0] -- credits returned so far in CREDIT (R362)
  downAt  : Nat := 0
  rxMsgs  : List FMsg := []           -- messages delivered (R357)
  farCoord : Word64 := 0
  firstTime : Bool := false           -- a time record was taken since UP (R545)
  deriving DecidableEq, Repr

/-- A chain in which this module takes part (R263 to R265). -/
structure Chain where
  fn      : Nat
  op      : Nat                       -- number of its long operation (R309)
  model   : Nat
  tag     : Nat
  head    : Nat
  prev    : Nat := 0
  members : List Nat := []            -- the members after this module, in order
  answered : List Nat := []           -- head: members that answered with an accepted load (R263)
  opened  : Bool := false
  startAt : Nat := 0
  src     : Nat := 0                  -- source of the head
  hop     : Nat := 0                  -- hops from the head
  total   : Nat := 0                  -- bytes of the image
  got     : List Nat := []            -- offsets of half-chunks arrived
  buf     : List (Nat × List Byte) := []   -- half-chunks of chunks not complete
  owed    : List (Nat × Nat) := []    -- credits not yet returned, while a chunk waits to be taken: port, credits (R264, R276)
  sentTo  : Nat := 0                  -- bytes of whole chunks taken and forwarded
  delivered : List Nat := []          -- head: members that acknowledged the last chunk
  gone    : List Nat := []            -- head: members lost or fenced
  deriving DecidableEq, Repr

/-- The fabric outside its registers. -/
structure Fabric where
  reqs    : List Req := []
  nextTag : Nat := 0
  sent    : List FMsg := []           -- messages handed to the transmit arbiters, newest first
  lost    : List Nat := []            -- modules lost
  probeAt : Tbl Nat := []             -- module: 1 + time of its last answered PROBE, or of the first sent
  probeSent : Nat := 0                -- when PROBEs were last sent
  timeSent : Nat := 0                 -- when time records were last sent (R545)
  chains  : List Chain := []
  openings : List (FMsg × Nat) := []  -- opening messages that came before the member's load, with their time (R263)
  relayed : List (Nat × Nat × Nat) := []  -- (placement, context, position) of records waiting in OWN_RING
  tokens  : List (Nat × Nat × Nat × Nat) := []  -- the same and the token, of kind-1 records that wait for their context (R377)
  deriving DecidableEq, Repr

/-- A journal record (R385). -/
structure JRec where
  kind  : Nat
  ntok  : Nat
  place : Nat
  ctx   : Nat
  pos   : Nat
  gen   : Nat
  body  : List Byte
  deriving DecidableEq, Repr

/-- The twin outside its registers (R382 to R390). -/
structure Twin where
  noJbc    : Bool := false
  pairAt   : Nat := 0
  pairOp   : Option Nat := none         -- number of the TWIN_PAIR in progress
  pairSeen : Option (Nat × Bool × Nat) := none  -- pairing message that came first: sender, journal region set, time
  peerState : Nat := 0                -- state in the peer's last heartbeat (R384)
  peerAck  : Nat := 0                 -- highest journal sequence it has acknowledged, by its last heartbeat
  sentSeq  : Nat := 0
  acked    : Nat := 0
  oldestAt : Nat := 0
  filed    : List JRec := []          -- records received, oldest first, by arrival
  inSeq    : Nat := 0
  stale    : List Nat := []           -- contexts whose records were suspended (R383)
  lastBeat : Nat := 0
  beatSent : Nat := 0                 -- when heartbeats were last sent
  pathAt   : Tbl Nat := []            -- path: 1 + time of its last heartbeat
  unpairOp : Option Nat := none
  heldOut  : List (Nat × Nat × Out) := []   -- journal sequence awaited, pair key, entry (R386)
  journaled : List Nat := []          -- contexts with an OPEN record sent
  deriving DecidableEq, Repr

/-! ## Calibration -/

/-- A ramp of accepted values (R412). -/
structure Ramp where
  obj  : CalObj
  k    : Nat
  res  : CalResult
  startG : Tbl Rat
  startO : Tbl Int
  deriving DecidableEq, Repr

/-- Calibration outside its registers (R404 to R417). -/
structure Cal where
  held     : List CalObj := []
  running  : List (CalObj × Nat × Nat) := []   -- object, slices done, band at its start
  ramps    : List Ramp := []
  store    : List (CalObj × Nat × CalResult) := []   -- object, band, last accepted run or the copy of R414
  measured : List (Nat × Nat) := []                 -- object key and band of the sets measured or loaded since power-up
  setBand  : Tbl Nat := []                          -- object key: band of the set in force (R116, R414)
  runs     : Nat := 0
  rejects  : Nat := 0
  abandoned : Nat := 0
  lastTime : Nat := 0
  toFlash  : List (CalObj × Nat) := []               -- records to write: object and band (R415)
  tempAt   : Tbl (Option Int) := []                 -- object key: its temperature at the start of its last run (R405)
  laneTrim : Tbl Nat := []                          -- 2 * lane: equaliser code, 2 * lane + 1: threshold trim (R417)
  conv     : Tbl (Int × Int) := []                  -- converter: offset in 1/16 LSB, gain error in ppm (R413)
  checkAt  : Nat := 0                               -- 1 + number of the last 1 ms period checked
  deriving DecidableEq, Repr

/-! ## Power and temperature -/

/-- A RIDGE window (R433). -/
structure RWin where
  quads : List Nat
  boostAt : Nat
  start : Nat
  stop  : Nat
  load  : Nat
  deriving DecidableEq, Repr

/-- Power control outside its registers (R424 to R437, R457). -/
structure Power where
  ceil     : Tbl Nat := []        -- key source * 4 + q: operating point demanded by a power Critical (0) or the governor (1) (R457)
  raiseAt  : Tbl Nat := []        -- q to 1 + time of the raise requested
  peHist   : List Int := []       -- last four estimates compared, newest first, in quarter watts
  limitNext : Nat := 0            -- earliest next limiter step (R429)
  limitPtr : Nat := 0
  reviewPtr : Nat := 0
  reviewAt : Nat := 0             -- when PTP last reviewed
  reviewMax : Int := 0            -- largest sum of four P_cal values since then
  fit      : List (Rat × Rat) := []   -- last 8 pairs (Pe_avg, Pm), newest first (R427)
  peSum    : Nat := 0
  peN      : Nat := 0
  windows  : List RWin := []
  active   : List Nat := []       -- active conditions by row of R436
  missAt   : Option Nat := none   -- since when the cap is missed at OP5 (R430)
  okAt     : Option Nat := none
  droopAt  : Tbl Nat := []        -- q to 1 + time of the last droop step
  govStep  : Nat := 0             -- when the governor's demand was last released by a point (R482)
  phases  : Nat := 4              -- phases of the converter at work (R418)
  over5   : Nat := 0              -- periods in a row with Pm above CAP_EFF by more than 5 % (R436)
  over10  : Nat := 0              -- the same for 10 %
  tripCause : Option (Nat × Nat) := none  -- latched in the VHK domain: row of R436 and measured value
  deriving DecidableEq, Repr

/-- A queued housekeeping result (R442, R451). -/
structure HRes where
  word : Word64
  deriving DecidableEq, Repr

/-- A pair of housekeeping converters at work (R438, R441). -/
structure HPair where
  entry : Nat
  chV   : Nat
  chI   : Nat
  left  : Nat
  rep   : Nat
  deriving DecidableEq, Repr

/-- The housekeeping converters outside their registers. -/
structure Hkc where
  queue   : List HRes := []
  seq     : Nat := 0
  busy    : Tbl HPair := []
  nextAt  : Nat := 0
  cfgNow  : Nat := 0x000FA0        -- PERIOD_SEL, PERIOD_US and REF_SEL in force (R439, R443)
  refAt   : Nat := 0
  calLeft : Tbl Nat := []          -- pair to periods still taken by calibration
  skipFit : Bool := false          -- pair 0 was calibrating, or the reference not settled, in this period (R427)
  deriving DecidableEq, Repr

/-- A thermal condition of a region (R456): the quadrant it acts on (4: none; a condition on SVC is held once for each quadrant), its row,
its level, the operating point it demands, its last step and its end. -/
structure Cond where
  region : Nat
  quad   : Nat
  row    : Nat
  level  : Nat
  demand : Nat
  stepAt : Nat
  clearAt : Option Nat := none
  ended  : Bool := false
  deriving DecidableEq, Repr

/-- Temperature sensing outside its registers (R453 to R460). -/
structure Therm where
  sensor  : Tbl Int := []          -- region * 512 + sensor: last reading in 0.0625 C
  known   : List Nat := []         -- regions sampled at least once
  bad     : Tbl Nat := []          -- failed sensors: 1 + consecutive plausible samples
  hist    : Tbl (List (Nat × Int)) := []   -- region: (time, maximum), newest first
  conds   : List Cond := []
  bands   : Tbl Nat := []          -- region * 512 + sensor: band
  below   : Tbl Nat := []          -- the same: 1 + since when below the lower edge
  tripped : Bool := false
  lastTrip : Nat := 0xF            -- VHK domain (R458)
  tripMax  : Int := 0              -- TMAX at that Trip
  offAt   : Nat := 0               -- when the last Trip of either kind stopped the converter
  deriving DecidableEq, Repr

/-! ## Firmware, security, start-up, host and sideband -/

/-- A fault-log entry (R509). -/
structure FEntry where
  time   : Nat
  code   : Nat
  level  : Nat
  source : Nat
  object : Nat
  data   : List Byte
  deriving DecidableEq, Repr

/-- The fault log in SVC SRAM (R508, R509). -/
structure FLog where
  entries : List FEntry := []      -- oldest first, at most 126
  first   : Nat := 0               -- index of the oldest entry in the ring
  seq     : Nat := 0
  lost    : Nat := 0
  dirtyAt : Option Nat := none
  deriving DecidableEq, Repr

/-- A calibration record in flash (R415): its object and band, and its slots, the last written first: SEQ and content, or none where the CRC
is wrong. -/
structure FlashRec where
  obj   : CalObj
  band  : Nat
  slots : List (Nat × Option CalResult)
  deriving DecidableEq, Repr

/-- What flash and fuses hold (R469, R415, R490, R540). Survives every reset. -/
structure Flash where
  bankHdr  : Tbl (List Byte) := []      -- bank: its bundle's first 4 KiB as staged
  staged   : List (Nat × Nat × Nat) := []  -- (bank, offset, bytes) written
  active   : Nat := 0
  bootSeq  : Nat := 0
  bootOk   : Bool := true
  minSvn   : Nat := 0
  coCtr    : Nat := 0
  flog     : Option FLog := none
  flogBad  : Bool := false
  mapRec   : Option (Tbl Word64) := none  -- CFG.TILE_MAP locations and CFG.PHYS_MAP that differ from R19's assignment, by key
  mapBad   : Bool := false
  calRecs  : List FlashRec := []
  hours    : Tbl Nat := []
  versions : Tbl (Nat × Nat) := []       -- bank: VERSION, SVN
  deriving DecidableEq, Repr

/-- Firmware control (R483 to R486). -/
structure Fw where
  act     : Option (Nat × Nat) := none     -- FW_ACTIVATE in progress: its number, bank
  phase   : Nat := 0
  releasedAt : Nat := 0
  staging : Bool := false
  flashPtr : Nat := 0                      -- pointer of the flash arbiter (R470)
  hoursAt  : Tbl Nat := []                 -- q to 1 + time of the last write of its lifetime counters (R469)
  prevBank : Nat := 0
  cairnWanted : Bool := false              -- global cairn requested (R228)
  testLeft : Option (Nat × List Nat) := none  -- KIND and tiles left of a TEST_RUN ended by a restart (R506)
  deriving DecidableEq, Repr

/-- The security boundary outside its registers (R527 to R536). -/
structure Sec where
  keyId    : Tbl Nat := []        -- partition to the serial of its key; unlisted 0
  nextKey  : Nat := 1
  devKey   : Nat := 0
  sessEnd  : Option Nat := none
  failRun  : Nat := 0
  blockTil : Nat := 0
  zeroing  : Bool := false        -- a zeroisation is in progress (R535)
  retiring : List (Hdr × Nat) := []   -- KEY_RETIRE packets and their partitions, waiting for placements (R531)
  zeroDebug : Bool := false
  deriving DecidableEq, Repr

/-- Clocks, resets and start-up (R542 to R555). -/
structure Clk where
  stopped  : Bool := false        -- recovery: the sequence has stopped after step 8 (R553)
  stepAt   : Nat := 0             -- when it began
  firstAt  : Nat := 0             -- step 1
  count    : Nat := 0             -- start-ups begun
  perstLow : Bool := false
  running  : Bool := false        -- module time runs (R544)
  quadPhase : Tbl Nat := []       -- step in progress of a quadrant in reset (R550)
  quadWant : List Nat := []       -- quadrant cairns requested by PCP (R337)
  tileWant : List Nat := []       -- tiles with a retirement decided (R20)
  mapDirty : Option Nat := none   -- since when the maps differ from the map record (R598)
  deriving DecidableEq, Repr

/-- PCIe outside its registers (R572, R573). -/
structure Pcie where
  vfEnable : Bool := false
  numVfs   : Nat := 0
  msix     : List (Nat × Nat × Nat) := []   -- messages sent, newest first: function, vector, time
  msixOn   : List Nat := []              -- functions with MSI-X enabled (R284)
  funcMask : List Nat := []              -- functions whose every vector is masked
  unmasked : List Nat := []              -- vectors whose mask bit is 0, as 32 * function + vector
  pendingBits : List Nat := []           -- the same: vectors whose pending bit is set
  aer      : List (Nat × Bool) := []     -- Unsupported Requests recorded: function, read
  crs      : List Nat := []              -- configuration requests answered with retry status
  served   : List Nat := []
  unsupported : List Nat := []
  deriving DecidableEq, Repr

/-- The management sideband (R575 to R578). -/
structure Side where
  events  : List (Nat × Nat) := []       -- event kind and object, oldest first, at most 32
  lost    : Nat := 0
  resp    : List Byte := []              -- last OEM response: completion code, then data
  deriving DecidableEq, Repr

/-- Device memory (R17, R526, R601, R602). -/
structure Mem where
  cells  : List Host.Cell := []          -- bytes written, by address
  zeroed : List (Nat × Nat) := []        -- ranges cleared since start-up: first, length
  keys   : Tbl Nat := []                 -- 256-byte unit: 1 + serial of the key that wrote it; unlisted: written unencrypted or not at all
  poison : List Nat := []                -- 32-byte units that read as uncorrectable, ascending
  deriving DecidableEq, Repr

/-- Scheduler odds and ends: arbiters (R296), cache and overall counters. -/
structure Sched where
  nextStep  : Nat := 0
  longSeq   : Nat := 0                   -- number of the next long operation
  dPtr      : Nat := 0                   -- pointer of the D-ring arbiter (R297)
  cPtr      : Nat := 0                   -- pointer of the C-ring fetch (R297)
  starveSeq : Nat := 0
  lruSeq    : Nat := 0
  turns     : Tbl (Nat × Nat) := []      -- placement: 1 + holder of its group's turn, pointer (R237)
  epochOld  : Option (Nat × Nat) := none -- EPOCH in force and until when, after a write of SCH.CFG (R244)
  bkts      : List (Nat × Nat × Nat × Nat) := []  -- BUCKETS items: first tag, count, REFILL, BURST, newest first (R499)
  scanAt    : Nat := 0                   -- 1 + number of the last 10 ms period scanned (R201)
  deriving DecidableEq, Repr

/-- The state of the block. -/
structure State where
  /-- Commands that wait, first in, first out. -/
  pending : List Instr
  /-- Physical time in ns since the model's start (log entry 3). -/
  now     : Nat
  /-- Module time (R544). -/
  time    : Nat
  /-- Number of the next free value (log entry 2). -/
  free    : Nat
  /-- Every BAR0 register that does not read its reset value, by key. -/
  regs    : Tbl Word64
  mem     : Mem
  /-- Bytes the module wrote to host memory, with the serial of the key they are encrypted under (R201, R526). -/
  hostMem : Tbl (Nat × Byte)
  ctxs    : Tbl Ctx
  aux     : Tbl CtxAux
  models  : Tbl Model
  places  : Tbl Place
  parts   : Tbl Part
  globalLog : List VEntry
  pairs   : Tbl Pair
  procs   : Tbl Proc
  longOps : List LongOp
  tiles   : Tbl Tile
  phys    : Tbl Phys
  lasers  : Tbl Laser
  rings   : Tbl Ring
  ports   : Tbl Port
  fabric  : Fabric
  twin    : Twin
  cal     : Cal
  power   : Power
  hkc     : Hkc
  therm   : Therm
  faultLog : FLog
  flash   : Flash
  fw      : Fw
  sec     : Sec
  clk     : Clk
  pcie    : Pcie
  side    : Side
  sched   : Sched
  /-- What the last host read returned (log entry 4). -/
  out     : List Byte
  deriving DecidableEq, Repr

/-- The state right after a power-on reset, before the first start-up step (R549, R551): every register at its reset
value, every table empty, nothing in flight. Values the manual gives no reset for: log entries 2 to 7. -/
def State.reset : State where
  pending := []
  now := 0
  time := 0
  free := 0
  regs := []
  mem := {}
  hostMem := []
  ctxs := []
  aux := []
  models := []
  places := []
  parts := []
  globalLog := []
  pairs := []
  procs := []
  longOps := []
  tiles := []
  phys := []
  lasers := []
  rings := []
  ports := []
  fabric := {}
  twin := {}
  cal := {}
  power := {}
  hkc := {}
  therm := {}
  faultLog := {}
  flash := {}
  fw := {}
  sec := {}
  clk := {}
  pcie := {}
  side := {}
  sched := {}
  out := []

end Sys2Proof.Machine
end

