-- ==== Sys2Proof/Machine/Ops.lean ====
section
/-! DEFINITION. The named operations over registers, time, memory, translation, logs, interrupts and completion rings.
Every meaning is written over these. -/

namespace Sys2Proof.Machine

/-- What a command's meaning answers. -/
abbrev Res := Host.Outcome State Fault Refusal

/-- The event names an object the module does not have. -/
def noObject : Res := .fault .noSuchObject

/-- The effect `f` when the objects named exist (`ok`). -/
def onObject (ok : Bool) (s : State) : Res := if ok then .next s else noObject

/-! ## Registers -/

/-- Current value of a register as it is held (R11). -/
def State.reg (s : State) (r : RegRef) : Word64 := tget r.dflt s.regs r.key

/-- A register set by the module. -/
def State.wrReg (s : State) (r : RegRef) (v : Word64) : State := { s with regs := tset r.dflt s.regs r.key v }

/-- Current value of a field. -/
def State.fld (s : State) (r : RegRef) (f : Field) : Nat := getBits (s.reg r) f.lo f.w

/-- A field set by the module. -/
def State.setFld (s : State) (r : RegRef) (f : Field) (x : Nat) : State := s.wrReg r (putBits (s.reg r) f.lo f.w x)

/-- A one-bit field as a truth value. -/
def State.flag (s : State) (r : RegRef) (f : Field) : Bool := s.fld r f == 1

/-- A one-bit field set by the module. -/
def State.setFlag (s : State) (r : RegRef) (f : Field) (b : Bool) : State := s.setFld r f (b2n b)

/-- A counter advanced by n; it saturates at all-ones (R315 and each block's layout rule). -/
def State.bumpBy (s : State) (r : RegRef) (f : Field) (n : Nat) : State :=
  if n = 0 then s else s.setFld r f (min (s.fld r f + n) (2 ^ f.w - 1))

/-- A counter advanced by one. -/
def State.bump (s : State) (r : RegRef) (f : Field) : State := s.bumpBy r f 1

/-- A register back at its reset value. -/
def State.rstReg (s : State) (r : RegRef) : State := s.wrReg r r.dflt

/-! ## Indexed objects -/

/-- Context i (R216). -/
def State.ctx (s : State) (i : Nat) : Ctx := tget {} s.ctxs i
/-- Context i replaced. -/
def State.setCtx (s : State) (i : Nat) (c : Ctx) : State := { s with ctxs := tset {} s.ctxs i c }
/-- Hidden part of context i. -/
def State.auxOf (s : State) (i : Nat) : CtxAux := tget {} s.aux i
/-- Hidden part of context i replaced. -/
def State.setAux (s : State) (i : Nat) (c : CtxAux) : State := { s with aux := tset {} s.aux i c }
/-- Model m (R271). -/
def State.model (s : State) (m : Nat) : Model := tget {} s.models m
/-- Model m replaced. -/
def State.setModel (s : State) (m : Nat) (x : Model) : State := { s with models := tset {} s.models m x }
/-- Placement l (R266). -/
def State.place (s : State) (l : Nat) : Place := tget {} s.places l
/-- Placement l replaced. -/
def State.setPlace (s : State) (l : Nat) (x : Place) : State := { s with places := tset {} s.places l x }
/-- Partition p (R520). -/
def State.part (s : State) (p : Nat) : Part := tget {} s.parts p
/-- Partition p replaced. -/
def State.setPart (s : State) (p : Nat) (x : Part) : State := { s with parts := tset {} s.parts p x }
/-- Key of ring pair r of function f. -/
def pairKey (f r : Nat) : Nat := f * 32 + r
/-- Ring pair r of function f (R286). -/
def State.pair (s : State) (f r : Nat) : Pair := tget {} s.pairs (pairKey f r)
/-- Ring pair r of function f replaced. -/
def State.setPair (s : State) (f r : Nat) (x : Pair) : State := { s with pairs := tset {} s.pairs (pairKey f r) x }
/-- Processor i (R467). -/
def State.proc (s : State) (i : Nat) : Proc := tget {} s.procs i
/-- Processor i replaced. -/
def State.setProc (s : State) (i : Nat) (x : Proc) : State := { s with procs := tset {} s.procs i x }
/-- Logical tile t. -/
def State.tile (s : State) (t : Nat) : Tile := tget {} s.tiles t
/-- Logical tile t replaced. -/
def State.setTile (s : State) (t : Nat) (x : Tile) : State := { s with tiles := tset {} s.tiles t x }
/-- Physical tile i (R597). -/
def State.phy (s : State) (i : Nat) : Phys := tget {} s.phys i
/-- Physical tile i replaced. -/
def State.setPhy (s : State) (i : Nat) (x : Phys) : State := { s with phys := tset {} s.phys i x }
/-- Laser n (R322). -/
def State.laser (s : State) (n : Nat) : Laser := tget {} s.lasers n
/-- Laser n replaced. -/
def State.setLaser (s : State) (n : Nat) (x : Laser) : State := { s with lasers := tset {} s.lasers n x }
/-- Key of ring r of cluster c (R324). -/
def ringKey (c r : Nat) : Nat := c * 128 + r
/-- Ring r of cluster c. -/
def State.ring (s : State) (c r : Nat) : Ring := tget {} s.rings (ringKey c r)
/-- Ring r of cluster c replaced. -/
def State.setRing (s : State) (c r : Nat) (x : Ring) : State := { s with rings := tset {} s.rings (ringKey c r) x }
/-- Port n (R356). -/
def State.port (s : State) (n : Nat) : Port := tget {} s.ports n
/-- Port n replaced. -/
def State.setPort (s : State) (n : Nat) (x : Port) : State := { s with ports := tset {} s.ports n x }

/-- Registers of partition p whose setting a placement takes at its cairn (R13, R104, R206, R306, R522). -/
def cairnRegs (p : Nat) : List RegRef :=
  [Reg.KVT_RES_RING p, Reg.KVT_FREE_RING p, Reg.KVT_RES_CFG p, Reg.KVT_SCREE_CFG p, Reg.MMU_ROOT p, Reg.CAB_REPAIR_CFG] ++
    (List.range 8).map fun i => Reg.SEC_WIN (8 * p + i)

/-- The settings of `cairnRegs` that differ from reset, as a step keeps them. -/
def State.cairnVals (s : State) (p : Nat) : Tbl Word64 := (cairnRegs p).foldl (fun t r => tset r.dflt t r.key (s.reg r)) []

/-- The state as placement l sees its partition's settings: while a step is in flight those in force at its build (R13, R226). -/
def State.asOf (s : State) (l : Nat) : State :=
  match (s.place l).step with
  | some st =>
    let p := (s.place l).part
    let s1 := (cairnRegs p).foldl (fun (t : State) r => t.wrReg r (tget r.dflt st.regs r.key)) s
    s1.setPart p { s1.part p with screeBase := st.scree.1, screeBytes := st.scree.2 }
  | none => s

/-- The settings as the registers show them again, after work of placement l under `asOf`. -/
def State.backFrom (s s0 : State) (l : Nat) : State :=
  match (s0.place l).step with
  | some _ =>
    let p := (s0.place l).part
    let s1 := (cairnRegs p).foldl (fun (t : State) r => t.wrReg r (s0.reg r)) s
    s1.setPart p { s1.part p with screeBase := (s0.part p).screeBase, screeBytes := (s0.part p).screeBytes }
  | none => s

/-- Work of placement l under the settings in force for it. -/
def State.under (s : State) (l : Nat) (f : State → State) : State := (f (s.asOf l)).backFrom s l

/-- A fold over indices or objects, first to last. -/
def State.each {α : Type} (s : State) (xs : List α) (f : State → α → State) : State := xs.foldl f s

/-- The effect when a condition holds. -/
def State.when (s : State) (b : Bool) (f : State → State) : State := if b then f s else s

/-- The arbiter's rule (R296): the requester granted and the pointer after it. -/
def arbitrate (req : List Bool) (ptr : Nat) : Option Nat × Nat :=
  let n := req.length
  match (List.range n).find? (fun i => req.getD ((ptr + i) % n) false) with
  | some i => (some ((ptr + i) % n), ((ptr + i) % n + 1) % n)
  | none => (none, ptr)

/-- The requester that an arbiter of n requesters grants next (R296). -/
def granted (n ptr : Nat) (req : Nat → Bool) : Option Nat := ((List.range n).find? fun i => req ((ptr + i) % n)).map fun i => (ptr + i) % n

/-! ## Time and free values -/

/-- The clock brought forward to `t` (log entry 3); module time runs with it from the end of step 4 of start-up (R544). -/
def State.tick (s : State) (t : Nat) : State :=
  if t ≤ s.now then s
  else { s with now := t, time := if s.clk.running then s.time + (t - s.now) else s.time }

/-- The number of the next free value is used up (log entry 2). -/
def State.useFree (s : State) : State := { s with free := s.free + 1 }

/-- Start-up has ended (R555). -/
def State.ready (s : State) : Bool := s.fld Reg.CLK_START Fld.CLK_START_PHASE == 15

/-- Quadrant q is in reset or down (R550, R553). -/
def State.quadOff (s : State) (q : Nat) : Bool :=
  bitOf (s.fld Reg.CLK_START Fld.CLK_START_QRST) q || bitOf (s.fld Reg.CLK_START Fld.CLK_START_QDOWN) q

/-! ## Functions, interrupts and events to the outside -/

/-- Partition p exists (R520, R541). -/
def State.partExists (s : State) (p : Nat) : Bool := s.flag (Reg.SEC_PART p) Fld.SEC_PART_EXISTS

/-- Function f decodes its BARs (R573). -/
def State.decodes (s : State) (f : Nat) : Bool :=
  f == 0 || (f < 64 && s.pcie.vfEnable && decide (f ≤ s.pcie.numVfs) && s.partExists f)

/-- A function is enabled (R573): PF0, or a VF that host software has enabled; in recovery only PF0 is enumerated (R473). -/
def State.enabledFn (s : State) (f : Nat) : Bool :=
  f == 0 || (f < 64 && s.pcie.vfEnable && decide (f ≤ s.pcie.numVfs) && !s.clk.stopped)

/-- An Unsupported Request (R573): AER records it at the addressed function where it is enabled, otherwise at PF0. -/
def State.urAt (s : State) (fn : Nat) (isRead : Bool) : State :=
  { s with pcie := { s.pcie with aer := s.pcie.aer ++ [(if s.enabledFn fn then fn else 0, isRead)] } }

/-- Vector `vec` of function f is masked, by its own mask bit or by the function mask (R284). -/
def State.masked (s : State) (f vec : Nat) : Bool := s.pcie.funcMask.contains f || !(s.pcie.unmasked.contains (32 * f + vec))

/-- An MSI-X message of function f is sent. -/
def State.sendMsix (s : State) (f vec : Nat) : State := { s with pcie := { s.pcie with msix := (f, vec, s.now) :: s.pcie.msix } }

/-- Vector `vec` of function f is raised (R284): a masked vector sets its pending bit, any other sends its message; nothing happens
while the function is not enabled (R573) or its MSI-X is off (log entry 20). -/
def State.raise (s : State) (f vec : Nat) : State :=
  if !(s.decodes f && s.pcie.msixOn.contains f) then s
  else if s.masked f vec then
    { s with pcie := { s.pcie with pendingBits := (32 * f + vec) :: s.pcie.pendingBits.filter (· != 32 * f + vec) } }
  else s.sendMsix f vec

/-- Messages of function f whose pending bit is set and that no mask holds any more are sent, lowest vector first. -/
def State.sendPending (s : State) (f : Nat) : State :=
  (List.range 32).foldl (fun s v =>
    if s.pcie.pendingBits.contains (32 * f + v) && !(s.masked f v) && s.decodes f && s.pcie.msixOn.contains f then
      { s with pcie := { s.pcie with pendingBits := s.pcie.pendingBits.filter (· != 32 * f + v) } }.sendMsix f v
    else s) s

/-- The MSI-X state of function f back at its reset values: off, every vector masked, nothing pending (R284, R549). -/
def State.msixReset (s : State) (f : Nat) : State :=
  let mine := fun (x : Nat) => x / 32 == f
  { s with pcie := { s.pcie with msixOn := s.pcie.msixOn.filter (· != f), funcMask := s.pcie.funcMask.filter (· != f),
                                 unmasked := s.pcie.unmasked.filter fun x => !(mine x),
                                 pendingBits := s.pcie.pendingBits.filter fun x => !(mine x) } }

/-- A ring's vector: raisings less than 1 us apart are merged into one message (R295). -/
def State.raiseRing (s : State) (f r : Nat) : State :=
  match s.pcie.msix.find? (fun m => m.1 == f && m.2.1 == r) with
  | some m => if s.now < m.2.2 + 1000 then s else s.raise f r
  | none => s.raise f r

/-- A PLDM platform event is queued: 32 places, the oldest is overwritten and counted (R578). Kinds: 1 power, 2 temperature,
3 fourth restart, 4 reference, 5 READY. -/
def State.pldm (s : State) (kind obj : Nat) : State :=
  let ev := s.side.events ++ [(kind, obj)]
  if ev.length ≤ 32 then { s with side := { s.side with events := ev } }
  else { s with side := { s.side with events := ev.drop 1, lost := s.side.lost + 1 } }

/-- A fault-log entry (R508, R509): 126 entries, the oldest is overwritten and counted. -/
def State.fault (s : State) (code level source object : Nat) (data : List Byte) : State :=
  let e : FEntry := ⟨s.time, code, level, source, object, data⟩
  let l := s.faultLog
  let es := l.entries ++ [e]
  let dirty := some (l.dirtyAt.getD s.now)
  if es.length ≤ 126 then { s with faultLog := { l with entries := es, dirtyAt := dirty } }
  else { s with faultLog := { l with entries := es.drop 1, first := (l.first + 1) % 126, lost := l.lost + 1, dirtyAt := dirty } }

/-- SOURCE byte of a fault-log entry that hardware writes (R509). -/
def srcHw : Nat := 0xFF

/-- A violation (R311 to R313): one entry in the partition's log and one in the global log, and vector 18. -/
def State.violate (s : State) (p addr source : Nat) (phys value : Bool) : State :=
  let e : VEntry := ⟨s.time, addr % 2 ^ 48, source, p, phys, value⟩
  let x := s.part p
  let l := x.viol ++ [e]
  let s1 := s.setPart p { x with viol := if l.length ≤ 16 then l else l.drop 1 }
  let g := s1.globalLog ++ [e]
  let s2 := { s1 with globalLog := if g.length ≤ 64 then g else g.drop 1 }
  let s3 := s2.bump (Reg.SCH_FN_STAT p) Fld.SCH_FN_STAT_VIOL
  let s4 := if l.length ≤ 16 then s3 else s3.bump (Reg.SCH_FN_STAT p) Fld.SCH_FN_STAT_LOST
  s4.raise p 18

/-- A register write refused and logged (R581, R583): the BAR0 offset with SOURCE 3. -/
def State.refuseWrite (s : State) (p off : Nat) : State := s.violate p off 3 false false

/-! ## Device memory -/

/-- End of device physical memory (R17). -/
def memEnd : Nat := 0x30000000000

/-- Quadrant that owns a physical address (R17). -/
def quadOfAddr (a : Nat) : Nat := a / 0xC000000000

/-- An address lies in one of the ranges. -/
def inRanges : List (Nat × Nat) → Nat → Bool
  | [], _ => false
  | (lo, n) :: t, a => (lo ≤ a && a < lo + n) || inRanges t a

/-- Two ranges share a byte. -/
def overlaps (a n b m : Nat) : Bool := a < b + m && b < a + n && 0 < n && 0 < m

/-- The byte listed at an address. -/
def cellAt : List Host.Cell → Nat → Option Byte
  | [], _ => none
  | (k, v) :: t, a => if a = k then some v else cellAt t a

/-- Canonical form of memory: addresses strictly rising, and no cell equal to what its unlisted address reads as where that
is a fixed value (R602; log entry 6). -/
def Mem.wf (m : Mem) : Bool := tsorted m.cells && m.cells.all (fun c => !(inRanges m.zeroed c.1 && c.2 == 0))

/-- What an unlisted byte reads as: 0 in a cleared range, otherwise undefined (R285, R602). -/
def Mem.unlisted (m : Mem) (boot a : Nat) : Byte := if inRanges m.zeroed a then 0 else Config.unwrittenByte a boot

/-- A byte as memory holds it, whatever the key. -/
def Mem.byte (m : Mem) (boot a : Nat) : Byte := (cellAt m.cells a).getD (m.unlisted boot a)

/-- A byte stored, in canonical form. -/
def Mem.put (m : Mem) (a : Nat) (b : Byte) : Mem :=
  { m with cells := if inRanges m.zeroed a && b == 0 then tdel a m.cells else tins a b m.cells }

/-- Bytes stored from an address on. -/
def Mem.putAll (m : Mem) : Nat → List Byte → Mem
  | _, [] => m
  | a, b :: t => (m.put a b).putAll (a + 1) t

/-- A range cleared to zero. -/
def Mem.clear (m : Mem) (lo n : Nat) : Mem :=
  { m with cells := m.cells.filter (fun c => !(lo ≤ c.1 && c.1 < lo + n)), zeroed := (lo, n) :: m.zeroed,
           poison := m.poison.filter (fun u => !(lo ≤ u * 32 && u * 32 < lo + n)),
           keys := m.keys.filter (fun k => !(lo ≤ k.1 * 256 && k.1 * 256 < lo + n)) }

/-- Ranges (first, length) without the addresses of 256-byte unit u. -/
def carve (u : Nat) (rs : List (Nat × Nat)) : List (Nat × Nat) :=
  rs.flatMap fun r =>
    let e := r.1 + r.2
    [(r.1, min e (u * 256) - r.1), (max r.1 (u * 256 + 256), e - max r.1 (u * 256 + 256))].filter fun x => x.2 != 0

/-- The bytes of one 256-byte data unit lost, but for cells of [a, a + n): they read as undefined. -/
def Mem.dropUnit (m : Mem) (u a n : Nat) : Mem :=
  { m with cells := m.cells.filter (fun c => !(c.1 / 256 == u) || (a ≤ c.1 && c.1 < a + n)), zeroed := carve u m.zeroed }

/-- 256-byte data units that a range touches. -/
def unitsOf (a n : Nat) : List Nat := if n = 0 then [] else (List.range ((a + n - 1) / 256 - a / 256 + 1)).map (· + a / 256)

/-- The units of a range come under a key: a unit written under another key loses its other bytes (R526). -/
def Mem.rekey (m : Mem) (key a n : Nat) : Mem :=
  (unitsOf a n).foldl (fun m u =>
    let had := tget 0 m.keys u
    let m := if had = 0 || had = key + 1 then m else m.dropUnit u a n
    { m with keys := tset 0 m.keys u (key + 1) }) m

/-- Poison codes cleared by whole 32-byte units written; a unit written in part keeps its code (R601). -/
def Mem.heal (m : Mem) (a n : Nat) : Mem :=
  { m with poison := m.poison.filter (fun u => !(a ≤ u * 32 && u * 32 + 32 ≤ a + n)) }

/-- A write of bytes under a key, or unencrypted (`none`, ring areas). -/
def Mem.write (m : Mem) (key : Option Nat) (a : Nat) (bs : List Byte) : Mem :=
  let m := m.heal a bs.length
  let m := match key with
    | some k => m.rekey k a bs.length
    | none => m
  m.putAll a bs

/-- A byte read under a key: data written under another key reads as what no key names (R526, R531; log entry 2). -/
def Mem.readByte (m : Mem) (boot : Nat) (key : Option Nat) (a : Nat) : Byte :=
  match key with
  | none => m.byte boot a
  | some k =>
    let had := tget 0 m.keys (a / 256)
    if had = 0 || had = k + 1 then m.byte boot a else Config.wrongKeyByte a k had

/-- Bytes read from an address on. -/
def Mem.read (m : Mem) (boot : Nat) (key : Option Nat) (a n : Nat) : List Byte :=
  (List.range n).map fun i => m.readByte boot key (a + i)

/-- The first address of [a, a + n) in a unit that reads as uncorrectable (R499, R601). -/
def Mem.bad (m : Mem) (a n : Nat) : Option Nat :=
  (m.poison.find? (fun u => overlaps (u * 32) 32 a n)).map (fun u => max a (u * 32))

/-- Stack of a physical address: 256-byte units interleaved over the eight stacks of the quadrant (R17). -/
def stackOf (a : Nat) : Nat := 8 * quadOfAddr a + a % 0xC000000000 / 256 % 8

/-- An uncorrectable word of a stack is read: it counts, and the log names its address. -/
def State.ueAt (s : State) (a : Nat) : State :=
  (s.bump (Reg.MEM_ECC (stackOf a)) Fld.MEM_ECC_UE).fault 0x0201 2 srcHw 1 (leBytes 8 a)

/-- Serial of the key of partition p (R526). -/
def State.keyOf (s : State) (p : Nat) : Nat := tget 0 s.sec.keyId p

/-- Bytes of device memory read for partition p. -/
def State.rdMem (s : State) (p a n : Nat) : List Byte := s.mem.read s.clk.count (some (s.keyOf p)) a n

/-- Bytes of device memory written for partition p. -/
def State.wrMem (s : State) (p a : Nat) (bs : List Byte) : State := { s with mem := s.mem.write (some (s.keyOf p)) a bs }

/-- Bytes of a ring area read (R285: not encrypted). -/
def State.rdRaw (s : State) (a n : Nat) : List Byte := s.mem.read s.clk.count none a n

/-- Bytes of a ring area written. -/
def State.wrRaw (s : State) (a : Nat) (bs : List Byte) : State := { s with mem := s.mem.write none a bs }

/-- A little-endian number read for partition p. -/
def State.rdNum (s : State) (p a n : Nat) : Nat := ofLeBytes (s.rdMem p a n)

/-! ## Regions, windows and admission -/

/-- Base and size in bytes that a SEC.WIN value gives (R541). -/
def winOf (v : Word64) : Nat × Nat :=
  if getBits v Fld.SEC_WIN_EN.lo Fld.SEC_WIN_EN.w = 1 then
    (getBits v Fld.SEC_WIN_BASE.lo Fld.SEC_WIN_BASE.w * 2 ^ 21, getBits v Fld.SEC_WIN_SIZE.lo Fld.SEC_WIN_SIZE.w * 2 ^ 21)
  else (0, 0)

/-- Base and size in bytes of window w. -/
def State.window (s : State) (w : Nat) : Nat × Nat := winOf (s.reg (Reg.SEC_WIN w))

/-- The windows in force of partition p. -/
def State.windows (s : State) (p : Nat) : List (Nat × Nat) :=
  ((List.range 8).map fun i => s.window (8 * p + i)).filter (fun w => 0 < w.2)

/-- The system region, once start-up has placed it (R600). -/
def State.sysRegion (s : State) : Nat × Nat :=
  if s.reg Reg.SCH_CTX_TBL = 0 && s.reg Reg.SCH_HIST_TBL = 0 then (0, 0)
  else (s.fld Reg.SCH_SYS_RGN Fld.SCH_SYS_RGN_BASE * 2 ^ 31, 2 ^ 31)

/-- The journal region (R400, R403): BASE in GiB, SIZE in GiB and at most 64. -/
def State.journal (s : State) : Nat × Nat :=
  (s.fld Reg.TWN_JRN Fld.TWN_JRN_BASE * 2 ^ 30, min 64 (s.fld Reg.TWN_JRN Fld.TWN_JRN_SIZE) * 2 ^ 30)

/-- The ring area of partition p (R285), if it exists. -/
def State.ringArea (s : State) (p : Nat) : Nat × Nat :=
  if s.partExists p && (p ≠ 0 || (s.sysRegion).2 ≠ 0) then
    (s.fld (Reg.SCH_RING_AREA p) Fld.SCH_RING_AREA_BASE * 2 ^ 26, 2 ^ 26)
  else (0, 0)

/-- A whole extent lies inside one of the ranges. -/
def inside (rs : List (Nat × Nat)) (a n : Nat) : Bool := rs.any fun r => r.1 ≤ a && a + n ≤ r.1 + r.2

/-- The memory controller admits an extent for a partition's tag (R523). -/
def State.admits (s : State) (p a n : Nat) : Bool :=
  a + n ≤ memEnd &&
    (inside (s.windows p) a n ||
      (p == 0 && (inside [s.sysRegion, s.journal] a n || (List.range 64).any fun x => inside [s.ringArea x] a n)))

/-! ## Translation (R179 to R184) -/

/-- Entries of an aligned run, by SPAN (R181). -/
def spanPages (span : Nat) : Nat :=
  match span with
  | 1 => 2 | 2 => 4 | 3 => 8 | 4 => 16 | 5 => 512 | _ => 1

/-- A table entry read for partition p; an address outside device memory reads with V = 0 (R179). Walks are requests of
the partition like any other (R523; log entry 8). -/
def State.tblEntry (s : State) (p a : Nat) : Nat := if s.admits p a 8 then s.rdNum p a 8 else 0

/-- Address of the level-2 entry of a virtual address; none where the level-1 entry is not valid, or names a table outside what the
partition may reach, which is a violation like any other (R311, R523; log entry 8). -/
def State.l2Addr (s : State) (p va : Nat) : Option Nat :=
  if !(s.flag (Reg.MMU_ROOT p) Fld.MMU_ROOT_EN) || 2 ^ 44 ≤ va then none
  else
    let e := s.tblEntry p (s.fld (Reg.MMU_ROOT p) Fld.MMU_ROOT_L1PA * 2 ^ 17 + bitsOf va 30 14 * 8)
    let a := bitsOf e 21 21 * 2 ^ 21 + bitsOf va 12 18 * 8
    if bitOf e 0 && s.admits p a 8 then some a else none

/-- The entry in force for a virtual address: the new one, or, where host software changed it without a completed
invalidation, either of the two without rule (R184; log entry 2). The choice is made once for the larger of the two runs, so that an
access never mixes both within one run. -/
def State.l2Entry (s : State) (p va : Nat) : Option Nat :=
  (s.l2Addr p va).map fun a =>
    let new := s.tblEntry p a
    match (s.part p).stale.find? (fun r => r.1 == a && r.2.1 == va / 4096) with
    | some r =>
      let run := 8 * max (spanPages (bitsOf r.2.2 1 3)) (spanPages (bitsOf new 1 3))
      if Config.staleUsesOld s.free s.now (a - a % run) then r.2.2 else new
    | none => new

/-- Physical address of a virtual address without admission; none where V is 0 (R181). -/
def State.xlate (s : State) (p va : Nat) : Option Nat :=
  (s.l2Entry p va).bind fun e =>
    if bitOf e 0 then some (bitsOf e 12 30 * 4096 + va % (spanPages (bitsOf e 1 3) * 4096)) else none

/-- A virtual extent cut at 4 KiB pages. -/
def pieces : Nat → Nat → Nat → List (Nat × Nat)
  | 0, _, _ => []
  | f + 1, va, n =>
    if n = 0 then []
    else
      let k := min n (4096 - va % 4096)
      (va, k) :: pieces f (va + k) (n - k)

/-- The physical pieces of a virtual extent, or the first virtual address that faults (R183). -/
def State.xlateAll (s : State) (p va n : Nat) : List (Nat × Nat) ⊕ Nat :=
  let ps := (pieces (n / 4096 + 2) va n).map fun x => (x, s.xlate p x.1)
  match ps.find? (fun x => match x.2 with
      | some pa => !(s.admits p pa x.1.2)
      | none => true) with
  | some x => .inr x.1.1
  | none => .inl (ps.map fun x => (x.2.getD 0, x.1.2))

/-- Bytes of a virtual extent read for partition p, or the address that faults. -/
def State.rdVa (s : State) (p va n : Nat) : List Byte ⊕ Nat :=
  match s.xlateAll p va n with
  | .inl ps => .inl (ps.flatMap fun x => s.rdMem p x.1 x.2)
  | .inr a => .inr a

/-- Bytes written through translated pieces. -/
def State.wrPieces (s : State) (p : Nat) : List (Nat × Nat) → List Byte → State
  | [], _ => s
  | (a, n) :: t, bs => (s.wrMem p a (bs.take n)).wrPieces p t (bs.drop n)

/-- Bytes written to a virtual extent for partition p, all or nothing, or the address that faults. -/
def State.wrVa (s : State) (p va : Nat) (bs : List Byte) : State ⊕ Nat :=
  match s.xlateAll p va bs.length with
  | .inl ps => .inl (s.wrPieces p ps bs)
  | .inr a => .inr a

/-- The first physical address of a virtual extent in an uncorrectable unit (R499). -/
def State.badVa (s : State) (p va n : Nat) : Option Nat :=
  match s.xlateAll p va n with
  | .inl ps => ps.findSome? fun x => s.mem.bad x.1 x.2
  | .inr _ => none

/-- A level-1 entry covers the address (R187). -/
def State.l1Valid (s : State) (p va : Nat) : Bool := (s.l2Addr p va).isSome

/-- A page has a frame: its level-2 entry is valid (R186). -/
def State.mapped (s : State) (p va : Nat) : Bool := ((s.l2Entry p va).map fun e => bitOf e 0).getD false

/-- Hardware writes the level-2 entries of a frame of 2^fl bytes: V, SPAN and PA (R186); they act at once (R184). -/
def State.mapFrame (s : State) (p va pa fl : Nat) : State :=
  s.each (List.range (2 ^ (fl - 12))) fun s i =>
    match s.l2Addr p (va + 4096 * i) with
    | some a =>
      let x := s.part p
      (s.wrMem p a (leBytes 8 (1 + (fl - 12) * 2 + pa / 4096 * 4096))).setPart p
        { x with stale := x.stale.filter (fun r => r.1 != a) }
    | none => s

/-- Hardware clears the level-2 entries of a frame (R184, R201). -/
def State.unmapFrame (s : State) (p va fl : Nat) : State :=
  s.each (List.range (2 ^ (fl - 12))) fun s i =>
    match s.l2Addr p (va + 4096 * i) with
    | some a =>
      let x := s.part p
      (s.wrMem p a (leBytes 8 0)).setPart p { x with stale := x.stale.filter (fun r => r.1 != a) }
    | none => s

/-! ## Completion rings (R287, R289, R292) -/

/-- A pair is enabled. -/
def State.pairOn (s : State) (f r : Nat) : Bool := s.flag (Reg.SCH_RING_CFG f r) Fld.SCH_RING_CFG_EN

/-- Free entries of a completion ring. -/
def State.cqRoom (s : State) (f r : Nat) : Nat :=
  2 ^ s.fld (Reg.SCH_RING_CFG f r) Fld.SCH_RING_CFG_CQ_LOG2 -
    unsigned 32 ((s.fld (Reg.SCH_RING_IDX f r) Fld.SCH_RING_IDX_CQ_TAIL : Int) - s.fld (Reg.SCH_CQ_DB f r) Fld.SCH_CQ_DB_CQ_HEAD)

/-- An entry handed to a pair's completion ring; for a pair whose EN is 0 it is discarded and counted (R289). -/
def State.post (s : State) (f r : Nat) (o : Out) : State :=
  if s.pairOn f r then
    let x := s.pair f r
    s.setPair f r { x with out := x.out ++ [{ o with since := s.now }] }
  else s.bump (Reg.SCH_FN_STAT f) Fld.SCH_FN_STAT_DISCARD

/-- Status codes (R310). -/
def stOK : Nat := 0x00
/-- PROGRESS. -/
def stProgress : Nat := 0x01
/-- LATE. -/
def stLate : Nat := 0x02
/-- ESCALATED. -/
def stEscalated : Nat := 0x03
/-- DEADLINE_PASSED. -/
def stDeadline : Nat := 0x10
/-- PAGE_STARVED. -/
def stStarved : Nat := 0x11
/-- EXPIRED. -/
def stExpired : Nat := 0x12
/-- FENCED. -/
def stFenced : Nat := 0x13
/-- RESTARTED. -/
def stRestarted : Nat := 0x14
/-- DEFERRED. -/
def stDeferred : Nat := 0x15
/-- NO_RESOURCE. -/
def stNoResource : Nat := 0x16
/-- BAD_PACKET. -/
def stBadPacket : Nat := 0x20
/-- VIOLATION. -/
def stViolation : Nat := 0x21

/-- The 32 bytes of a reply (R292); TIME is filled in when it is written. -/
def replyBytes (seq status opcode ring tag detail result : Nat) : List Byte :=
  leBytes 4 seq ++ leBytes 1 status ++ leBytes 1 opcode ++ leBytes 1 ring ++ leBytes 1 0 ++ leBytes 4 tag ++
    leBytes 4 detail ++ leBytes 8 result ++ leBytes 8 0

/-- One pass over a function's FENCEs: each whose named packets have all had their final reply gets its own (R299). -/
def State.fencePass (s : State) (f : Nat) : State :=
  s.each (List.range 17) fun s r =>
    let x := s.pair f r
    match x.fence with
    | some (h, _, waits) =>
      if waits.all fun w => w.2.all fun q => !((s.pair f w.1).open_.contains q) then
        let y := { x with fence := none }
        if bitOf h.flags.toNat 0 then s.setPair f r { y with open_ := y.open_.erase h.seq.toNat }
        else if !(s.pairOn f r) then
          (s.setPair f r { y with open_ := y.open_.erase h.seq.toNat }).bump (Reg.SCH_FN_STAT f) Fld.SCH_FN_STAT_DISCARD
        else (s.setPair f r y).post f r { bytes := replyBytes h.seq.toNat stOK 0x0A r h.tag.toNat 0 0, isReply := true,
                                          seq := h.seq.toNat, irq := bitOf h.flags.toNat 1 }
      else s
    | none => s

/-- Every FENCE of a function that is satisfied completes; a quiet one may satisfy another. -/
def State.fenceSweep (s : State) (f : Nat) : State := s.each (List.range 17) fun s _ => s.fencePass f

/-- A reply to the packet with header h (R292, R298); `final` tells PROGRESS replies and the reply written early by R512
apart. QUIET suppresses a final OK (R291). -/
def State.replyAs (s : State) (final : Bool) (h : Hdr) (opcode status detail result : Nat) : State :=
  let seq := h.seq.toNat
  let s := if status = stBadPacket || status = stViolation then
      s.bump (Reg.SCH_RING_STAT h.fn h.ring) Fld.SCH_RING_STAT_BAD else s
  if final && status = stOK && bitOf h.flags.toNat 0 then
    let x := s.pair h.fn h.ring
    (s.setPair h.fn h.ring { x with open_ := x.open_.erase seq }).fenceSweep h.fn
  else if final && !(s.pairOn h.fn h.ring) then
    let x := s.pair h.fn h.ring
    ((s.setPair h.fn h.ring { x with open_ := x.open_.erase seq }).bump (Reg.SCH_FN_STAT h.fn) Fld.SCH_FN_STAT_DISCARD).fenceSweep h.fn
  else
    s.post h.fn h.ring { bytes := replyBytes seq status opcode h.ring h.tag.toNat detail result, isReply := true,
                         seq := seq, final := final, irq := final && bitOf h.flags.toNat 1 }

/-- A final reply. -/
def State.reply (s : State) (h : Hdr) (opcode status detail result : Nat) : State :=
  s.replyAs true h opcode status detail result

/-- DETAIL form 1: byte offset of the first bad field, counted from byte 0 of the packet (R292). -/
def badAt (off : Nat) : Nat := 2 ^ 30 + off

/-- What a check of a packet finds: nothing wrong, or the reply it gives and, for a violation, its log entry. -/
inductive Chk
  | pass
  | bad (detail : Nat)
  | viol (addr : Nat) (phys value : Bool)
  | fault (va : Nat)
  | status (st : Nat) (detail : Nat)
  deriving DecidableEq, Repr

/-- The first failing check. -/
def firstFail : List Chk → Chk
  | [] => .pass
  | .pass :: t => firstFail t
  | c :: _ => c

/-- A form check of the field at parameter offset o. -/
def chkForm (ok : Bool) (o : Nat) : Chk := if ok then .pass else .bad (badAt (16 + o))

/-- A rights check that names an ID outside the partition's ranges (R312). -/
def chkId (ok : Bool) (v : Nat) : Chk := if ok then .pass else .viol v false true

/-- A check of a virtual extent that the packet names (R303, R312). -/
def State.chkVa (s : State) (p va n : Nat) : Chk :=
  match s.xlateAll p va n with
  | .inl _ => .pass
  | .inr _ => .fault va

/-- A check with a status of its own. -/
def chkSt (ok : Bool) (st : Nat) : Chk := if ok then .pass else .status st 0

/-- The reply that a failed check gives, with the log entry of a violation (R291, R311). -/
def State.fail (s : State) (h : Hdr) (opcode : Nat) (c : Chk) : State :=
  match c with
  | .pass => s
  | .bad d => s.reply h opcode stBadPacket d 0
  | .viol a phys value => (s.violate h.fn a 1 phys value).reply h opcode stViolation 0 (a % 2 ^ 48)
  | .fault va => (s.violate h.fn va 4 false false).reply h opcode stViolation 0 (va % 2 ^ 48)
  | .status st d => s.reply h opcode st d 0

/-- Checks in order, then the effect. -/
def State.checked (s : State) (h : Hdr) (opcode : Nat) (cs : List Chk) (act : State → State) : State :=
  match firstFail cs with
  | .pass => act s
  | c => s.fail h opcode c

end Sys2Proof.Machine
end

