-- ==== Sys2Proof/Machine/Operands.lean ====
section
/-! DEFINITION. Operand forms of the packets: slots, header checks, opcodes and lengths (R287, R290, R291, R300, R303, R306),
and the fetch of a packet by the ring engine. -/

namespace Sys2Proof.Machine

/-- Slots that a packet occupies (R287). -/
def slotsOf (len : Nat) : Nat := if 240 < len || len % 8 ≠ 0 then 1 else ceilDiv (16 + len) 64

/-- A 32-bit free-running difference (R287). -/
def diff32 (a b : Nat) : Nat := (a + 2 ^ 32 - b % 2 ^ 32) % 2 ^ 32

/-- Slots of a submission ring that wait to be fetched. -/
def State.sqHeld (s : State) (f r : Nat) : Nat :=
  diff32 (s.fld (Reg.SCH_SQ_DB f r) Fld.SCH_SQ_DB_SQ_TAIL) (s.fld (Reg.SCH_RING_IDX f r) Fld.SCH_RING_IDX_SQ_HEAD)

/-- Some reply of the list finds no room once the entries before it are written. -/
def replyStuck : List Out → Nat → Bool
  | [], _ => false
  | o :: t, room =>
    let n := o.bytes.length / 32
    (o.isReply && room < n) || replyStuck t (room - n)

/-- A reply waits for completion-ring room: nothing further is fetched from the pair (R289). -/
def State.replyWaits (s : State) (f r : Nat) : Bool := replyStuck (s.pair f r).out (s.cqRoom f r)

/-- Packets the ring engine takes at this stage of start-up (R473, R554). -/
def State.ringServed (s : State) (f r : Nat) : Bool :=
  if s.flag Reg.FWP_BOOT Fld.FWP_BOOT_RECOVERY then f == 0 && r == 0 && s.clk.stopped
  else if s.ready then s.partExists f
  else f == 0 && r == 0 && 9 ≤ s.fld Reg.CLK_START Fld.CLK_START_PHASE

/-- A pair requests its arbiter for a packet of `n` slots: it is enabled and served, the slots are there, no FENCE of the ring and no
waiting reply holds it (R286, R287, R289, R299). -/
def State.ringAsks (s : State) (f r n : Nat) : Bool :=
  s.ringServed f r && s.pairOn f r && n ≤ s.sqHeld f r && (s.pair f r).fence.isNone && !(s.replyWaits f r)

/-- Address of the slot at the head of a submission ring. -/
def State.headSlot (s : State) (f r : Nat) : Nat :=
  let c := Reg.SCH_RING_CFG f r
  (s.ringArea f).1 + s.fld c Fld.SCH_RING_CFG_SQ_OFF * 4096 +
    s.fld (Reg.SCH_RING_IDX f r) Fld.SCH_RING_IDX_SQ_HEAD % 2 ^ s.fld c Fld.SCH_RING_CFG_SQ_LOG2 * 64

/-- Another pair than the one of packet h requests the arbiter, by the LENGTH that its head slot holds (R287). -/
def State.otherAsks (s : State) (f r : Nat) : Bool :=
  s.pairOn f r && 0 < s.sqHeld f r && s.ringAsks f r (slotsOf (ofLeBytes (s.rdRaw (s.headSlot f r + 8) 2)))

/-- The pair of packet h, or another pair, requests the arbiter. -/
def State.asks (s : State) (h : Hdr) (f r : Nat) : Bool :=
  if f = h.fn ∧ r = h.ring then s.ringAsks f r (slotsOf h.length.toNat) else s.otherAsks f r

/-- The arbiter of the packet's ring grants it: the D-ring arbiter over ring 16 * p + i, the C-ring fetch over the 64 C-ring pairs
(R296, R297). -/
def State.ringGranted (s : State) (h : Hdr) : Bool :=
  if h.ring = 0 then granted 64 s.sched.cPtr (fun f => s.asks h f 0) == some h.fn
  else granted 1024 s.sched.dPtr (fun k => s.asks h (k / 16) (k % 16 + 1)) == some (16 * h.fn + (h.ring - 1))

/-- The ring engine can fetch the packet now: its pair asks for it and its arbiter grants it (R297). -/
def State.fetchable (s : State) (h : Hdr) : Bool :=
  h.fn < 64 && h.ring < 17 && s.ringAsks h.fn h.ring (slotsOf h.length.toNat) && s.ringGranted h

/-- The arbiter's pointer passes the ring granted (R296). -/
def State.passRing (s : State) (h : Hdr) : State :=
  { s with sched := if h.ring = 0 then { s.sched with cPtr := (h.fn + 1) % 64 }
                    else { s.sched with dPtr := (16 * h.fn + (h.ring - 1) + 1) % 1024 } }

/-- The packet is fetched: its slots are consumed, the expected SEQ follows it, and the arbiter passes its ring (R287, R291, R296). -/
def State.takePacket (s : State) (h : Hdr) : State :=
  let x := s.pair h.fn h.ring
  (((s.passRing h).setFld (Reg.SCH_RING_IDX h.fn h.ring) Fld.SCH_RING_IDX_SQ_HEAD
      (s.fld (Reg.SCH_RING_IDX h.fn h.ring) Fld.SCH_RING_IDX_SQ_HEAD + slotsOf h.length.toNat)).setFld
    (Reg.SCH_RING_STAT h.fn h.ring) Fld.SCH_RING_STAT_EXP_SEQ (h.seq.toNat + 1)).setPair h.fn h.ring
    { x with open_ := x.open_ ++ [h.seq.toNat] }

/-- EN of a pair is cleared: unfetched packets and waiting entries are discarded, each entry counted, and the indices are 0
(R289, R318). -/
def State.ringOff (s : State) (f r : Nat) : State :=
  let x := s.pair f r
  let s1 := (s.bumpBy (Reg.SCH_FN_STAT f) Fld.SCH_FN_STAT_DISCARD x.out.length).setPair f r
    { x with out := [], open_ := (x.out.filter fun o => o.isReply && o.final).foldl (fun l o => l.erase o.seq) x.open_ }
  let s2 := s1.setFlag (Reg.SCH_RING_CFG f r) Fld.SCH_RING_CFG_EN false
  s2.each [Reg.SCH_SQ_DB f r, Reg.SCH_CQ_DB f r, Reg.SCH_RING_IDX f r] fun s y => s.rstReg y

/-- An uncorrectable word in the slots of the packet about to be fetched (R499). -/
def State.badSlot (s : State) (h : Hdr) : Option Nat :=
  if s.mem.poison.isEmpty then none
  else
    let c := Reg.SCH_RING_CFG h.fn h.ring
    let base := (s.ringArea h.fn).1 + s.fld c Fld.SCH_RING_CFG_SQ_OFF * 4096
    (List.range (slotsOf h.length.toNat)).findSome? fun i =>
      s.mem.bad (base + (s.fld (Reg.SCH_RING_IDX h.fn h.ring) Fld.SCH_RING_IDX_SQ_HEAD + i) % 2 ^ s.fld c Fld.SCH_RING_CFG_SQ_LOG2 * 64) 64

/-- The ring engine turns to a packet: an uncorrectable word in its slots takes the pair out of service (R499). -/
def State.fetching (s : State) (h : Hdr) (f : State → State) : State :=
  if s.fetchable h then
    match s.badSlot h with
    | some a => ((s.passRing h).ueAt a).ringOff h.fn h.ring
    | none => f s
  else s

/-- The opcodes that R300 and R303 assign. -/
def assignedOpcodes : List Nat :=
  [0x01, 0x02, 0x03, 0x04, 0x05, 0x06, 0x08, 0x09, 0x0A, 0x0C, 0x0D, 0x40, 0x41, 0x42, 0x48, 0x49, 0x4A, 0x4B, 0x50, 0x51,
   0x52, 0x58, 0x59, 0x60, 0x61, 0x62, 0x63, 0x68, 0x70, 0x71, 0x72]

/-- The checks of R291 up to the parameters, in order. `cls` is true for a C-class opcode. -/
def State.headerChk (s : State) (h : Hdr) (op : Nat) (cls : Bool) (lenOk pf0Ok : Bool) : Chk :=
  firstFail [
    if h.part.toNat % 64 = h.fn then .pass else .viol (h.part.toNat % 64) false true,
    if assignedOpcodes.contains op then .pass else .bad 0,
    if (h.cls.toNat % 2 == 1) == cls && (h.ring == 0) == cls then .pass else .bad 0,
    if h.cls.toNat / 2 = 0 && h.part.toNat / 64 = 0 && h.flags.toNat / 4 = 0 && h.rsv = 0 &&
      h.length.toNat ≤ 240 && h.length.toNat % 8 = 0 then .pass else .bad 0,
    if h.seq.toNat = s.fld (Reg.SCH_RING_STAT h.fn h.ring) Fld.SCH_RING_STAT_EXP_SEQ then .pass
      else .bad (s.fld (Reg.SCH_RING_STAT h.fn h.ring) Fld.SCH_RING_STAT_EXP_SEQ),
    if lenOk then .pass else .bad 0,
    if pf0Ok then .pass else .viol op false true]

/-- A D-class packet: fetched when it can be, checked by R291, then `act` on the state after the fetch. Under a zeroisation
packets of partitions 1 to 63 are deferred (R535). -/
def State.dPacket (s : State) (h : Hdr) (op len : Nat) (act : State → State) : State :=
  s.fetching h fun s =>
    match s.headerChk h op false (h.length.toNat == len) true with
    | .pass =>
      if h.fn ≠ 0 && s.sec.zeroing then (s.takePacket h).reply h op stDeferred 0 0
      else act (s.takePacket h)
    | c => (s.takePacket h).fail h op c

end Sys2Proof.Machine

namespace Sys2Proof
open Machine

/-! ## C-class forms (R303, R306) -/

/-- Opcode of a C-class packet (R303). -/
def CPacket.opcode : CPacket → Nat
  | .partCreate .. => 0x40 | .partDestroy .. => 0x41 | .partSet .. => 0x42 | .modelLoad .. => 0x48 | .modelSwap .. => 0x49
  | .modelUnload .. => 0x4A | .place .. => 0x4B | .calRun .. => 0x50 | .calQuery .. => 0x51 | .testRun .. => 0x52
  | .fwStage .. => 0x58 | .fwActivate .. => 0x59 | .twinPair .. => 0x60 | .twinUnpair .. => 0x61 | .fabricJoin .. => 0x62
  | .linkQuery .. => 0x63 | .logRead .. => 0x68 | .keyLoad .. => 0x70 | .keyRetire .. => 0x71 | .zeroize .. => 0x72

/-- The processor that serves a C-class packet (R303, R467): 0 CP, 2 FMP, 3 SEP. -/
def CPacket.proc : CPacket → Nat
  | .partCreate .. | .partDestroy .. | .partSet .. | .modelLoad .. | .modelSwap .. | .modelUnload .. | .place ..
  | .calRun .. | .calQuery .. | .testRun .. | .logRead .. => 0
  | .twinPair .. | .twinUnpair .. | .fabricJoin .. | .linkQuery .. => 2
  | .fwStage .. | .fwActivate .. | .keyLoad .. | .keyRetire .. | .zeroize .. => 3

/-- Whether a C-class packet is reserved to partition 0 (R303). -/
def CPacket.pf0 : CPacket → Bool
  | .partCreate .. | .partDestroy .. | .calRun .. | .testRun .. | .fwStage .. | .fwActivate .. | .twinPair ..
  | .twinUnpair .. | .fabricJoin .. | .keyLoad .. | .keyRetire .. | .zeroize .. => true
  | _ => false

/-- Whether a C-class packet is a long operation (R303). -/
def CPacket.long : CPacket → Bool
  | .partDestroy .. | .modelLoad .. | .modelSwap .. | .calRun .. | .testRun .. | .fwStage .. | .fwActivate ..
  | .twinPair .. | .twinUnpair .. | .fabricJoin .. | .zeroize .. => true
  | _ => false

/-- The length of a fixed-length C-class packet, or none (R303). -/
def CPacket.fixedLen : CPacket → Option Nat
  | .partCreate .. => some 24 | .partDestroy .. => some 8 | .modelUnload .. => some 8 | .place .. => some 48
  | .calRun .. => some 8 | .calQuery .. => some 24 | .testRun .. => some 8 | .fwStage .. => some 24
  | .fwActivate .. => some 8 | .twinPair .. => some 8 | .twinUnpair .. => some 8 | .fabricJoin .. => some 8
  | .linkQuery .. => some 16 | .logRead .. => some 16 | .keyLoad .. => some 24 | .keyRetire .. => some 8
  | .zeroize .. => some 8
  | .partSet .. | .modelLoad .. | .modelSwap .. => none

/-- The length that MODEL_LOAD and MODEL_SWAP need for their members (R303). -/
def LoadParams.len (p : LoadParams) : Nat := 32 + 8 * ceilDiv p.nMembers.toNat 4

/-- LENGTH fits the packet (R291). A MODEL_LOAD or MODEL_SWAP takes the length its N_MEMBERS gives. -/
def CPacket.lenOk (c : CPacket) (len : Nat) : Bool :=
  match c.fixedLen, c with
  | some n, _ => len == n
  | none, .modelLoad p _ => if 63 < p.nMembers.toNat then 32 ≤ len else len == p.len
  | none, .modelSwap p _ => if 63 < p.nMembers.toNat then 32 ≤ len else len == p.len
  | none, _ => 8 ≤ len

/-- ITEM code of a PART_SET item (R306). -/
def PsItem.code : PsItem → Nat
  | .esc .. => 1 | .age .. => 2 | .ranges .. => 3 | .buckets .. => 4 | .resRing .. => 5 | .freeRing .. => 6 | .scratch .. => 7
  | .scree .. => 8 | .profiles .. => 9 | .mmuRoot .. => 10 | .window .. => 11 | .tiles .. => 12 | .ids .. => 13
  | .other item _ => item.toNat

/-- Declared LEN of an item. -/
def PsItem.len : PsItem → Nat
  | .esc l .. | .age l .. | .ranges l .. | .buckets l .. | .resRing l .. | .freeRing l .. | .scratch l .. | .scree l ..
  | .profiles l .. | .mmuRoot l .. | .window l .. | .tiles l .. | .ids l .. => l.toNat
  | .other _ l => l.toNat

/-- LEN that R306 gives an item; none for an ITEM that is not assigned. -/
def PsItem.wantLen : PsItem → Option Nat
  | .esc .. => some 4 | .age .. => some 4 | .ranges .. => some 12 | .buckets .. => some 12 | .resRing .. => some 8
  | .freeRing .. => some 8 | .scratch .. => some 2 | .scree .. => some 20 | .profiles .. => some 8 | .mmuRoot .. => some 8
  | .window .. => some 24 | .tiles .. => some 8 | .ids .. => some 8
  | .other .. => none

/-- Reserved header bytes of an item. -/
def PsItem.rsv : PsItem → Nat
  | .esc _ r .. | .age _ r .. | .ranges _ r .. | .buckets _ r .. | .resRing _ r .. | .freeRing _ r .. | .scratch _ r ..
  | .scree _ r .. | .profiles _ r .. | .mmuRoot _ r .. | .window _ r .. | .tiles _ r .. | .ids _ r .. => r.toNat
  | .other .. => 0

/-- Whether an item is reserved to partition 0 (R306). -/
def PsItem.pf0 : PsItem → Bool
  | .resRing .. | .freeRing .. | .scree .. | .profiles .. => false
  | _ => true

/-- Bytes of an item in the packet: its header and its value padded to 8. -/
def PsItem.size (i : PsItem) : Nat := 8 + 8 * ceilDiv i.len 8

/-- An item at parameter offset `o` does not fit `len` bytes of parameters, or is not zero-padded (R306): the offset of the first field
that shows it (the item's header, its LEN, its padding). -/
def itemMisfit (i : PsItem) (pad o len : Nat) : Option Nat :=
  if len < o + 8 then some o
  else if len < o + i.size then some (o + 2)
  else if i.len % 8 ≠ 0 && pad ≠ 0 then some (o + 8 + i.len)
  else none

end Sys2Proof
end

