-- ==== Sys2Proof/Machine/Kv.lean ====
section
/-! DEFINITION. Key-value pages, the page reservoir, frames going back, the scratch pool and the Scree tier
(06_kv_pages_and_speculation.md). -/

namespace Sys2Proof.Machine

/-! ## Geometry (R174 to R177) -/

/-- Frame size of an image in bytes (R175). -/
def Image.frame (im : Image) : Nat := 2 ^ im.frameLog2

/-- The attention layers in the order of the layer table: layer index, layer, attention entry (R177). -/
def Image.attLayers (im : Image) : List (Nat × Layer × Att) :=
  (List.range im.layers.length).filterMap fun i =>
    match im.layers[i]? with
    | some l => if l.kind == 2 || l.kind == 3 then (im.atts[l.attIdx]?).map fun a => (i, l, a) else none
    | none => none

/-- Key-value heads of each attention layer. -/
def Image.heads (im : Image) : List Nat := im.attLayers.map fun x => x.2.2.hkv

/-- H_sum of R177. -/
def Image.hSum (im : Image) : Nat := im.heads.sum

/-- Blocks and block bytes of a key-value entry (R174). -/
def Att.nb (a : Att) : Nat := ceilDiv a.dh 32
/-- Bytes of a key-value block. -/
def Att.bb (a : Att) : Nat := blockBytes (fmtBits a.kvf)
/-- Bytes of a page (R174). -/
def Att.pageBytes (a : Att) : Nat := 32 * a.nb * a.bb

/-- PMAX of a context (R177). -/
def Ctx.pmax (c : Ctx) : Nat := ceilDiv c.lenMax 16

/-- Virtual address of page i of head h of attention layer l (R177). -/
def pageVa (im : Image) (c : Ctx) (l h i : Nat) : Nat :=
  c.kvBase + ((im.heads.take l).sum * c.pmax + h * c.pmax + i) * im.frame

/-- The model image a context runs on. -/
def State.imgOf (s : State) (c : Ctx) : Image := (s.model (s.place c.placement).cfg.model).img

/-- The home quadrant of a placement: that of its lowest tile (R222). -/
def Place.home (l : Place) : Nat := l.cfg.tiles.foldl min 1023 / 256

/-- Pages lo to hi of every head of every attention layer that `pick` names, layer, head, page ascending. -/
def pagesOf (im : Image) (c : Ctx) (pick : Layer → Bool) (lo n : Nat) : List Nat :=
  (List.range im.attLayers.length).flatMap fun l =>
    match im.attLayers[l]? with
    | some x => if pick x.2.1 then
        (List.range x.2.2.hkv).flatMap fun h => (List.range n).map fun i => pageVa im c l h (lo + i)
      else []
    | none => []

/-- Pages of the self-attention layers that hold positions p to p + n - 1 (R186). -/
def selfPages (im : Image) (c : Ctx) (p n : Nat) : List Nat :=
  if n = 0 then [] else pagesOf im c (fun l => l.kind == 2) (p / 16) ((p + n - 1) / 16 - p / 16 + 1)

/-! ## The reservoir (R188 to R191) -/

/-- Entries held by the reservoir; none while the ring is absent. -/
def State.resHeld (s : State) (p : Nat) : Nat :=
  if s.fld (Reg.KVT_RES_RING p) Fld.KVT_RES_RING_LOG2SIZE = 0 then 0
  else diff32 (s.fld (Reg.KVT_RES_IDX p) Fld.KVT_RES_IDX_TAIL) (s.fld (Reg.KVT_RES_IDX p) Fld.KVT_RES_IDX_HEAD)

/-- The reservoir interrupt, if armed and due (R190). -/
def State.resNotify (s : State) (p : Nat) (empty : Bool) : State :=
  let x := s.part p
  if x.armed && (empty || decide (s.resHeld p < s.fld (Reg.KVT_RES_CFG p) Fld.KVT_RES_CFG_LOW_WATER)) then
    (s.setPart p { x with armed := false }).raise p 17
  else s

/-- The interrupt is armed again when the ring has risen to LOW_WATER and to at least 1 (R190). -/
def State.resRearm (s : State) (p : Nat) : State :=
  if max 1 (s.fld (Reg.KVT_RES_CFG p) Fld.KVT_RES_CFG_LOW_WATER) ≤ s.resHeld p then s.setPart p { s.part p with armed := true }
  else s

/-- One frame popped for partition p, aligned to F: bad entries are skipped, counted and logged (R188). -/
def State.popLoop (p F : Nat) : Nat → State → State × Option Nat
  | 0, s => (s.resNotify p true, none)
  | n + 1, s =>
    if s.resHeld p = 0 then (s.resNotify p true, none)
    else
      let head := s.fld (Reg.KVT_RES_IDX p) Fld.KVT_RES_IDX_HEAD
      let at_ := s.fld (Reg.KVT_RES_RING p) Fld.KVT_RES_RING_BASE * 4096 +
        head % 2 ^ s.fld (Reg.KVT_RES_RING p) Fld.KVT_RES_RING_LOG2SIZE * 8
      let a := bitsOf (s.rdNum p at_ 8) 0 42
      let s1 := (s.setFld (Reg.KVT_RES_IDX p) Fld.KVT_RES_IDX_HEAD (head + 1)).resNotify p false
      if !(s.admits p at_ 8) then State.popLoop p F n (s1.violate p at_ 4 true false)
      else if a % F = 0 && inside (s.windows p) a F then (s1, some a)
      else State.popLoop p F n ((s1.bump (Reg.KVT_PART_CNT p) Fld.KVT_PART_CNT_RES_BAD).violate p a 5 true false)

/-- A pop for a context of quadrant q (R188). Its request is the only one before the reservoir arbiter, since a command makes its pops
one after the other; the arbiter's pointer passes the quadrant (R189, R296). -/
def State.pop (s : State) (p F q : Nat) : State × Option Nat :=
  let s1 := s.setPart p { s.part p with resPtr := (q + 1) % 4 }
  State.popLoop p F (s1.resHeld p) s1

/-- How the pops for a list of pages ended: all mapped, starved with the pages left, or a level-1 entry not valid. -/
inductive Pops
  | ok
  | starved (left : List Nat)
  | noTable (va : Nat)
  deriving DecidableEq, Repr

/-- Frames of 2^fl bytes for the pages of a context of quadrant q that lack one, in order (R186, R187, R191). -/
def State.popPages (p fl q : Nat) : List Nat → State → State × Pops
  | [], s => (s, .ok)
  | va :: t, s =>
    if s.mapped p va then State.popPages p fl q t s
    else if !(s.l1Valid p va) then (s.violate p va 4 false false, .noTable va)
    else
      match s.pop p (2 ^ fl) q with
      | (s1, some a) => State.popPages p fl q t (s1.mapFrame p va a fl)
      | (s1, none) => (s1, .starved (va :: t))

/-- Frames for pages of context c, under the settings in force for its placement. -/
def State.popFor (s : State) (c : Ctx) (pages : List Nat) : State × Pops :=
  let r := State.popPages c.part (s.imgOf c).frameLog2 (s.place c.placement).home pages (s.asOf c.placement)
  (r.1.backFrom s c.placement, r.2)

/-! ## Frames going back (R192) -/

/-- Free places of the free ring. -/
def State.freeRoom (s : State) (p : Nat) : Nat :=
  let lg := s.fld (Reg.KVT_FREE_RING p) Fld.KVT_FREE_RING_LOG2SIZE
  if lg = 0 then 0
  else 2 ^ lg - diff32 (s.fld (Reg.KVT_FREE_IDX p) Fld.KVT_FREE_IDX_TAIL) (s.fld (Reg.KVT_FREE_IDX p) Fld.KVT_FREE_IDX_HEAD)

/-- One entry written to the free ring. -/
def State.freeOne (s : State) (p : Nat) (x : Nat × Nat) : State :=
  let tail := s.fld (Reg.KVT_FREE_IDX p) Fld.KVT_FREE_IDX_TAIL
  let at_ := s.fld (Reg.KVT_FREE_RING p) Fld.KVT_FREE_RING_BASE * 4096 +
    tail % 2 ^ s.fld (Reg.KVT_FREE_RING p) Fld.KVT_FREE_RING_LOG2SIZE * 8
  let s1 := if s.admits p at_ 8 then s.wrMem p at_ (leBytes 8 (x.1 % 2 ^ 42 + x.2 % 16 * 2 ^ 60)) else s.violate p at_ 4 true false
  s1.setFld (Reg.KVT_FREE_IDX p) Fld.KVT_FREE_IDX_TAIL (tail + 1)

/-- Frames that wait are written to the free ring as far as it has room. -/
def State.drainFree (s : State) (p : Nat) : State :=
  let x := s.part p
  let n := min (s.freeRoom p) x.returns.length
  let s1 := s.each (x.returns.take n) fun s e => s.freeOne p e
  s1.setPart p { s1.part p with returns := x.returns.drop n }

/-- An operation returns frames with a REASON; one that must wait counts once in FREE_FULL (R192). -/
def State.giveBack (s : State) (p reason : Nat) (fs : List Nat) : State :=
  if fs.isEmpty then s
  else
    let s1 := (s.setPart p { s.part p with returns := (s.part p).returns ++ fs.map fun a => (a, reason) }).drainFree p
    if (s1.part p).returns.isEmpty then s1 else s1.bump (Reg.KVT_PART_CNT p) Fld.KVT_PART_CNT_FREE_FULL

/-- The pages of a context that hold a frame, with the frame's address. -/
def State.framesOf (s : State) (c : Ctx) : List (Nat × Nat) :=
  let im := s.imgOf c
  (pagesOf im c (fun _ => true) 0 c.pmax).filterMap fun va =>
    if s.mapped c.part va then (s.xlate c.part va).map fun a => (va, a) else none

/-- A context's frames are unmapped; with a REASON other than 0 they go back (R192, R201). -/
def State.freeFrames (s : State) (c : Ctx) (reason : Nat) : State :=
  s.under c.placement fun s =>
    let fs := s.framesOf c
    let fl := (s.imgOf c).frameLog2
    let s1 := s.each fs fun s f => s.unmapFrame c.part f.1 fl
    if reason = 0 then s1 else s1.giveBack c.part reason (fs.map Prod.snd)

/-- Frames of a list that still wait for the free ring of partition p. -/
def State.retLeft (s : State) (p : Nat) (fs : List Nat) : List Nat := fs.filter fun a => (s.part p).returns.any fun e => e.1 == a

/-! ## The scratch pool (R200) -/

/-- Largest frame size among the partition's models; 0 with none. -/
def State.maxFrame (s : State) (p : Nat) : Nat :=
  s.models.foldl (fun m x => if x.2.part == p && x.2.st != .absent && x.2.st != .loading then max m x.2.img.frame else m) 0

/-- Pops into the pool until it holds `n` frames or the ring is empty. -/
def State.poolFill (p F q : Nat) : Nat → State → State
  | 0, s => s
  | n + 1, s =>
    match s.pop p F q with
    | (s1, some a) => State.poolFill p F q n (s1.setPart p { s1.part p with pool := (s1.part p).pool ++ [a] })
    | (s1, none) => s1

/-- The pool at a cairn of one of the partition's placements, whose home is quadrant q. -/
def State.poolCairn (s : State) (p q : Nat) : State :=
  let F := s.maxFrame p
  if F = 0 then s
  else
    let want := s.fld (Reg.KVT_RES_CFG p) Fld.KVT_RES_CFG_SCRATCH
    let pool := (s.part p).pool
    let good := pool.filter fun a => a % F == 0
    let back := (pool.filter fun a => a % F != 0) ++ good.drop want
    let s1 := (s.setPart p { s.part p with pool := good.take want }).giveBack p 4 back
    State.poolFill p F q (want - (good.take want).length) s1

/-! ## Scree (R201 to R204) -/

/-- First extent of the first free run of n extents of the region (R201). -/
def firstFit (total n : Nat) (used : List (Nat × Nat)) : Option Nat :=
  if total < n then none
  else (List.range (total - n + 1)).find? fun i => used.all fun u => !(overlaps u.1 u.2 i n)

/-- A page size rounded up to 512 bytes (R202). -/
def pad512 (n : Nat) : Nat := ceilDiv n 512 * 512

/-- Pages of a parked image in its order: virtual address and page bytes (R202). -/
def parkPages (im : Image) (c : Ctx) (npx : Nat) : List (Nat × Nat) :=
  (List.range im.attLayers.length).flatMap fun l =>
    match im.attLayers[l]? with
    | some x =>
      (List.range x.2.2.hkv).flatMap fun h =>
        (List.range (if x.2.1.kind == 3 then npx else ceilDiv c.pos 16)).map fun i => (pageVa im c l h i, x.2.2.pageBytes)
    | none => []

/-- Bytes of a parked image. -/
def parkBytes (im : Image) (c : Ctx) (npx : Nat) : Nat := 4096 + ((parkPages im c npx).map fun x => pad512 x.2).sum

/-- The header of a parked image, 4 KiB: 4-byte fields in the order R202 lists them; where attention layers differ in page size, the
page bytes are the largest (log entry 10). -/
def parkHeader (im : Image) (c : Ctx) (i npx : Nat) : List Byte :=
  let h := leBytes 4 i ++ leBytes 4 c.pos ++ leBytes 4 (ceilDiv c.pos 16) ++ leBytes 4 npx ++
    leBytes 4 ((im.attLayers.map fun x => x.2.2.pageBytes).foldl max 0) ++ leBytes 4 im.frame
  h ++ List.replicate (4096 - h.length) 0

/-- Bytes written to host memory under a key. -/
def State.wrHost (s : State) (key a : Nat) (bs : List Byte) : State :=
  { s with hostMem := (List.range bs.length).foldl (fun m i => tins (a + i) (key, bs.getD i 0) m) s.hostMem }

/-- Bytes read back from host memory under a key; under another key they read as what no key names (R526). -/
def State.rdHost (s : State) (key a n : Nat) : List Byte :=
  (List.range n).map fun i =>
    match s.hostMem.find? (fun x => x.1 == a + i) with
    | some x => if x.2.1 = key then x.2.2 else Config.wrongKeyByte (a + i) key (x.2.1 + 1)
    | none => Config.unwrittenByte (memEnd + a + i) s.clk.count

/-- The extents of a parked or parking image are released. -/
def State.freeExtents (s : State) (p first : Nat) : State :=
  let x := s.part p
  s.setPart p { x with extents := x.extents.filter fun e => e.1 != first }

/-- A park begins: host space is allocated first-fit; with no free run PARK_NOSPACE counts (R201, R202). -/
def State.startPark (s : State) (i : Nat) (reply : Option (Hdr × Nat)) : State × Bool :=
  let c := s.ctx i
  let x := s.part c.part
  let a := s.auxOf i
  let bytes := parkBytes (s.imgOf c) c a.npx
  let n := ceilDiv bytes 65536
  match firstFit (x.screeBytes / 65536) n x.extents with
  | some e => ((s.setPart c.part { x with extents := x.extents ++ [(e, n)] }).setAux i
      { a with park := some { extent := e, bytes := bytes, reply := reply } }, true)
  | none => (s.bump (Reg.KVT_PART_CNT c.part) Fld.KVT_PART_CNT_PARK_NOSPACE, false)

/-- A park in progress is cancelled: the context stays resident; a KV_PARK that waited for it completes with DEFERRED (R203;
log entry 11). -/
def State.cancelPark (s : State) (i : Nat) : State :=
  let a := s.auxOf i
  match a.park with
  | none => s
  | some m =>
    let s1 := (s.freeExtents (s.ctx i).part m.extent).setAux i { a with park := none }
    match m.reply with
    | some (h, op) => s1.reply h op stDeferred 0 0
    | none => s1

/-- The parked image is written to host memory. An access that faults is logged like any other (R183, R311); its page is written as
zeros, and the image goes on (log entry 93). -/
def State.writePark (s : State) (i : Nat) (m : Move) : State :=
  let c := s.ctx i
  let im := s.imgOf c
  let npx := (s.auxOf i).npx
  let key := s.keyOf c.part
  let base := (s.part c.part).screeBase + m.extent * 65536
  let r := (parkPages im c npx).foldl (fun (acc : State × Nat) x =>
    let (t, bs) := match acc.1.rdVa c.part x.1 x.2 with
      | .inl b => (acc.1, b)
      | .inr a => (acc.1.violate c.part a 4 false false, List.replicate x.2 0)
    (t.wrHost key (base + acc.2) (bs ++ List.replicate (pad512 x.2 - x.2) 0), acc.2 + pad512 x.2))
    (s.wrHost key base (parkHeader im c i npx), 4096)
  r.1

/-- The parked image is read into the frames; an access that faults is logged and drops its page (R183, R311). -/
def State.readPark (s : State) (i : Nat) (m : Move) : State :=
  let c := s.ctx i
  let im := s.imgOf c
  let key := s.keyOf c.part
  let base := (s.part c.part).screeBase + m.extent * 65536
  let r := (parkPages im c (s.auxOf i).npx).foldl (fun (acc : State × Nat) x =>
    let s1 := match acc.1.wrVa c.part x.1 (acc.1.rdHost key (base + acc.2) x.2) with
      | .inl s' => s'
      | .inr a => acc.1.violate c.part a 4 false false
    (s1, acc.2 + pad512 x.2)) (s, 4096)
  r.1

end Sys2Proof.Machine
end

