-- ==== Sys2Proof/Machine/LongOps.lean ====
section
/-! DEFINITION. Long operations: their start, their progress and their end (R308, R309). -/

namespace Sys2Proof.Machine

/-- The long operation with a number, the latest that bears it. -/
def State.longOf (s : State) (id : Nat) : Option LongOp := s.longOps.reverse.find? fun o => o.id == id

/-- A long operation's record replaced. -/
def State.setLong (s : State) (o : LongOp) : State := { s with longOps := s.longOps.map fun x => if x.id = o.id then o else x }

/-- LONG_OPS of a function from the operations in progress (R316). -/
def State.countLong (s : State) (p : Nat) : State :=
  s.setFld (Reg.SCH_FN_STAT p) Fld.SCH_FN_STAT_LONG_OPS (s.longOps.filter fun o => o.h.fn == p).length

/-- A completed fraction in units of 2^-16 (R309). -/
def fraction (done total : Nat) : Nat := if total = 0 then 65536 else done * 65536 / total

/-- A long operation begins under the next number: beyond 4 of its partition or 64 of the module the packet is deferred; otherwise it
writes its first PROGRESS reply, and `act` follows (R308, R309). -/
def State.startLong (s : State) (h : Hdr) (pkt : CPacket) (total : Nat) (act : LongOp → State → State) : State :=
  if 4 ≤ (s.longOps.filter fun o => o.h.fn == h.fn).length || 64 ≤ s.longOps.length then s.reply h pkt.opcode stDeferred 0 0
  else
    let o : LongOp := { id := s.sched.longSeq, h := h, pkt := pkt, total := total, startAt := s.now, progAt := s.time }
    let s1 := { s with longOps := s.longOps ++ [o], sched := { s.sched with longSeq := s.sched.longSeq + 1 } }
    act o ((s1.countLong h.fn).replyAs false h pkt.opcode stProgress 0 0)

/-- A long operation is in progress no more. -/
def State.dropLong (s : State) (o : LongOp) : State :=
  { s with longOps := s.longOps.filter fun x => x.id != o.id }.countLong o.h.fn

/-- A long operation ends with its final reply. -/
def State.endLong (s : State) (o : LongOp) (status detail result : Nat) : State :=
  (s.dropLong o).reply o.h o.pkt.opcode status detail result

/-- The end of the operation with a number, if it is still in progress. -/
def State.endLongAt (s : State) (id : Nat) (status detail result : Nat) : State :=
  match s.longOf id with
  | some o => s.endLong o status detail result
  | none => s

/-- A PROGRESS reply with the fraction reached. -/
def State.tellLong (s : State) (o : LongOp) : State :=
  (s.setLong { o with progAt := s.time, progN := fraction o.done o.total * 16 / 65536 }).replyAs false o.h o.pkt.opcode stProgress
    (fraction o.done o.total) 0

/-- An operation's completed part becomes `done`; passing a sixteenth writes PROGRESS (R309). -/
def State.advanceLong (s : State) (o : LongOp) (done : Nat) : State :=
  let o1 := { o with done := min o.total done }
  if o.progN < fraction o1.done o1.total * 16 / 65536 then s.tellLong o1 else s.setLong o1

/-- PROGRESS: at least once per 100 ms of module time an operation in progress writes one (R309); of several with one SEQ, the
oldest that owes it. -/
def execProgress (fn seq at_ : Nat) (s : State) : Res :=
  let s := s.tick at_
  onObject (decide (fn < 64))
    (match s.longOps.find? fun o => o.h.fn == fn && o.h.seq.toNat == seq && decide (o.progAt + 100000000 ≤ s.time) with
     | some o => s.tellLong o
     | none => s)

end Sys2Proof.Machine
end

