-- ==== Sys2Proof/Machine/Links.lean ====
section
/-! DEFINITION. Ports, routes and messages of the fabric, and the slice entries of placements (11_fabric_and_twin.md). -/

namespace Sys2Proof.Machine

/-- STATE of port n (R397). -/
def State.portSt (s : State) (n : Nat) : Nat := s.fld (Reg.LNK_PORT_STAT n) Fld.LNK_PORT_STAT_STATE
/-- ROLE of port n (R396). -/
def State.portRole (s : State) (n : Nat) : Nat := s.fld (Reg.LNK_PORT_CFG n) Fld.LNK_PORT_CFG_ROLE
/-- FAR_ID of port n (R397). -/
def State.farId (s : State) (n : Nat) : Nat := s.fld (Reg.LNK_PORT_STAT n) Fld.LNK_PORT_STAT_FAR_ID
/-- This module's ID (R394). -/
def State.myId (s : State) : Nat := s.fld Reg.LNK_COORD Fld.LNK_COORD_MODULE_ID

/-- The ports of a role that are UP, ascending. -/
def State.upPorts (s : State) (role : Nat) : List Nat :=
  (List.range 24).filter fun n => s.portSt n == 2 && s.portRole n == role

/-- Ports of the route to a module: those of the peer on the board, or the switched ports (R372). -/
def State.routePorts (s : State) (dest : Nat) : List Nat :=
  if (List.range 24).any fun n => s.portRole n == 1 && s.farId n == dest then
    (s.upPorts 1).filter fun n => s.farId n == dest
  else s.upPorts 2

/-- Virtual channel of an operation (R361, R364). -/
def opChannel : Nat → Nat
  | 2 => 2 | 5 => 1 | 6 => 3 | 7 => 3 | _ => 0

/-- A number in a list of bytes, such as a slice entry or a payload. -/
def sliceNum (e : List Byte) (o n : Nat) : Nat := ofLeBytes ((e.drop o).take n)

/-- Kinds of MGMT payload for the pair (log entry 13). -/
def mgPair : Nat := 1
/-- The pair ends. -/
def mgUnpair : Nat := 2

/-- Twin traffic: the journal, and what forms and ends the pair (R384). -/
def isTwinMsg (m : FMsg) : Bool :=
  m.op % 16 == 3 || (m.op % 16 == 7 && (sliceNum m.payload 0 1 == mgPair || sliceNum m.payload 0 1 == mgUnpair))

/-- The port a message leaves by; twin traffic uses the twin ports (R372, R384). -/
def State.route (s : State) (m : FMsg) : Option Nat :=
  let ch := opChannel (m.op % 16)
  if isTwinMsg m then (s.upPorts 3).head?
  else
    let ps := s.routePorts m.dest
    if ps.isEmpty then none
    else if s.portRole (ps.headD 0) = 1 then ps[(m.part % 64 + ch) % ps.length]? else ps[m.dest % ps.length]?

/-- Credits a message takes: 64 bytes each, header and padded payload (R362, R363). -/
def creditsOf (m : FMsg) : Nat := ceilDiv (16 + ceilDiv m.payload.length 16 * 16) 64

/-- Protected mode of port n (R366). -/
def State.prot (s : State) (n : Nat) : Bool := s.flag (Reg.LNK_PORT_STAT n) Fld.LNK_PORT_STAT_PROT

/-- Number of the frame that port n sends now (R357); in protected mode it sends no new frame while it holds 6 (R366). -/
def State.frameNo (s : State) (n : Nat) : Nat :=
  let k := (s.now - (s.port n).upAt) * 2 / 25
  if s.prot n then min k ((s.port n).ackSeen + 6) else k

/-- Port n may send a new frame: it is not in protected mode with 6 frames held (R366). -/
def State.sends (s : State) (n : Nat) : Bool := !(s.prot n) || decide (s.frameNo n < (s.port n).ackSeen + 6)

/-- A message handed to the transmit arbiter of port n: it is sent when it has its credits, behind the messages of its
channel that already wait. -/
def State.transmit (s : State) (n : Nat) (m : FMsg) : State :=
  let x := s.port n
  let ch := opChannel (m.op % 16)
  if s.sends n && !(x.txWait.any fun y => opChannel (y.op % 16) == ch) && creditsOf m ≤ x.credits.getD ch 0 then
    { s.setPort n { x with credits := lset x.credits ch (x.credits.getD ch 0 - creditsOf m) } with
      fabric := { s.fabric with sent := m :: s.fabric.sent } }
  else s.setPort n { x with txWait := x.txWait ++ [m] }

/-- Order of the transmit arbiter: management, response, request, bulk (R362). -/
def txOrder : List Nat := [3, 1, 0, 2]

/-- Messages of port n that wait are sent as credits allow. -/
def State.txLoop (n : Nat) : Nat → State → State
  | 0, s => s
  | k + 1, s =>
    let x := s.port n
    let first := fun ch => x.txWait.find? fun m => opChannel (m.op % 16) == ch
    let req := txOrder.map fun ch =>
      match first ch with
      | some m => decide (creditsOf m ≤ x.credits.getD ch 0)
      | none => false
    match arbitrate req x.txPtr with
    | (some g, ptr) =>
      let ch := txOrder.getD g 0
      match first ch with
      | some m => State.txLoop n k
          { s.setPort n { x with credits := lset x.credits ch (x.credits.getD ch 0 - creditsOf m), txWait := x.txWait.erase m,
                                 txPtr := ptr } with fabric := { s.fabric with sent := m :: s.fabric.sent } }
      | none => s
    | (none, _) => s

/-- A message sent by its route; with no route it goes nowhere. -/
def State.sendMsg (s : State) (m : FMsg) : State :=
  match s.route m with
  | some n => s.transmit n m
  | none => s

/-- A request sent with a tag of its own; it is outstanding until its RESP (R367). -/
def State.request (s : State) (dest op part offset : Nat) (payload : List Byte) (place : Option Nat) : State :=
  let m : FMsg := ⟨dest, s.myId, op + opChannel op * 16, part, offset, s.fabric.nextTag % 65536, payload⟩
  let r : Req := { msg := m, port := (s.route m).getD 24, sentAt := s.now, place := place }
  let s1 := { s with fabric := { s.fabric with nextTag := (s.fabric.nextTag + 1) % 65536, reqs := s.fabric.reqs ++ [r] } }
  s1.sendMsg m

/-- RESP to a request that arrived on port n (R364): one status byte padded with zeros. -/
def State.respond (s : State) (n : Nat) (m : FMsg) (status : Nat) : State :=
  let r : FMsg := ⟨m.src, s.myId, 5 + 16, m.part, 0, m.tag, leBytes 16 status⟩
  if s.portRole n = 3 then s.transmit n r else s.sendMsg r

/-! ## Records of chains (R263 to R265) -/

/-- A chain's record replaced. -/
def State.setChain (s : State) (c : Chain) : State :=
  { s with fabric := { s.fabric with chains := s.fabric.chains.map fun x => if x.op = c.op then c else x } }

/-- The chain of a long operation. -/
def State.chainOf (s : State) (op : Nat) : Option Chain := s.fabric.chains.find? fun c => c.op == op

/-- A chain's record dropped. -/
def State.dropChain (s : State) (op : Nat) : State :=
  { s with fabric := { s.fabric with chains := s.fabric.chains.filter fun c => c.op != op } }

/-! ## Slice entries (R376) -/

/-- NEXT of an entry; 0xFFFF for a local placement. -/
def sliceNext (e : List Byte) : Nat := if e.isEmpty then 0xFFFF else sliceNum e 2 2
/-- PREV of an entry; 0xFFFF for a local placement. -/
def slicePrev (e : List Byte) : Nat := if e.isEmpty then 0xFFFF else sliceNum e 6 2
/-- The ALSO modules. -/
def sliceAlso (e : List Byte) : List Nat := (List.range (min 8 (sliceNum e 1 1))).map fun i => sliceNum e (32 + 2 * i) 2
/-- REPLICATED (R386). -/
def sliceRep (e : List Byte) : Bool := bitOf (sliceNum e 0 1) 1
/-- Slots of OWN_RING. -/
def sliceSlots (e : List Byte) : Nat := 2 ^ sliceNum e 24 1
/-- Modules that an entry names. -/
def sliceMods (e : List Byte) : List Nat :=
  if e.isEmpty then [] else ([sliceNext e, slicePrev e] ++ sliceAlso e).filter fun m => m != 0xFFFF

/-- Every field of an entry lies in its range. -/
def sliceOk (e : List Byte) : Bool :=
  let idOk := fun m => m == 0xFFFF || decide (m < 16384)
  sliceNum e 0 1 < 4 && sliceNum e 1 1 ≤ 8 && idOk (sliceNext e) && sliceNum e 4 2 < 1024 && idOk (slicePrev e) &&
    sliceNum e 8 8 < 2 ^ 42 && sliceNum e 16 8 < 2 ^ 42 && 4 ≤ sliceNum e 24 1 && sliceNum e 24 1 ≤ 12 && sliceNum e 25 7 = 0 &&
    (sliceAlso e).all (fun m => decide (m < 16384)) && sliceNum e 48 16 = 0

/-- The entry of a placement read from its partition's slice table; an invalid one is counted and makes it local. -/
def State.readSlice (s : State) (l : Nat) : State :=
  let x := s.place l
  let r := Reg.LNK_SLICE x.part
  if s.flag r Fld.LNK_SLICE_EN && (s.ringArea x.part).2 ≠ 0 then
    let e := s.rdRaw ((s.ringArea x.part).1 + s.fld r Fld.LNK_SLICE_OFF * 65536 + 64 * l) 64
    if !(bitOf (sliceNum e 0 1) 0) then s.setPlace l { x with slice := [] }
    else if sliceOk e then s.setPlace l { x with slice := e }
    else (s.bump (Reg.LNK_PORT_CNT 0) Fld.LNK_PORT_CNT_FENCE_BAD).setPlace l { x with slice := [] }
  else s.setPlace l { x with slice := [] }

/-! ## The journal (R385, R386) -/

/-- STATE of the twin (R402). -/
def State.twinSt (s : State) : Nat := s.fld Reg.TWN_STAT Fld.TWN_STAT_STATE

/-- The twin is SOLO again: nothing is journaled and the journal is free (R383, R390). -/
def State.twinSolo (s : State) : State :=
  { s.wrReg Reg.TWN_STAT Reg.TWN_STAT.dflt with twin := {} }.setFld Reg.TWN_JRN Fld.TWN_JRN_USED 0

/-- A takeover ends when every context it restores has its completion (R388). -/
def State.takeoverCheck (s : State) : State :=
  if s.flag Reg.TWN_STAT Fld.TWN_STAT_TAKEOVER && s.aux.all (fun a => a.2.redoEnd.isNone) then s.twinSolo else s

/-- Bytes of a journal record. -/
def JRec.bytes (r : JRec) : List Byte :=
  leBytes 1 r.kind ++ leBytes 1 r.ntok ++ leBytes 2 r.place ++ leBytes 4 r.ctx ++ leBytes 4 r.pos ++ leBytes 4 r.gen ++ r.body

/-- Records sent to the twin while PAIRED, in order, in one JOURNAL message (R386). -/
def State.jrnl (s : State) (part : Nat) (rs : List JRec) : State :=
  if s.twinSt ≠ 2 || rs.isEmpty then s
  else
    let w := s.twin
    let oldest := if w.sentSeq = w.acked then s.now else w.oldestAt
    let s1 := { s with twin := { w with sentSeq := w.sentSeq + rs.length, oldestAt := oldest } }
    s1.request (s.fld Reg.TWN_STAT Fld.TWN_STAT_PEER) 3 part 0 (rs.flatMap JRec.bytes) none

/-- A completion-ring entry that follows journal records waits for their acknowledgement while JBC is on (R386). -/
def State.postHeld (s : State) (f r : Nat) (o : Out) : State :=
  let w := s.twin
  if s.flag Reg.TWN_STAT Fld.TWN_STAT_JBC && s.twinSt = 2 && w.acked < w.sentSeq then
    { s with twin := { w with heldOut := w.heldOut ++ [(w.sentSeq, pairKey f r, o)] } }
  else s.post f r o

/-- An OK reply of a packet: when it produced journal records since `before` it waits for their acknowledgement (R386). -/
def State.replyHeld (s before : State) (h : Hdr) (op : Nat) : State :=
  if s.twin.sentSeq = before.twin.sentSeq || bitOf h.flags.toNat 0 then s.reply h op stOK 0 0
  else s.postHeld h.fn h.ring { bytes := replyBytes h.seq.toNat stOK op h.ring h.tag.toNat 0 0, isReply := true,
                                seq := h.seq.toNat, irq := bitOf h.flags.toNat 1 }

end Sys2Proof.Machine
end

