-- ==== Sys2Proof/Machine/Contexts.lean ====
section
/-! DEFINITION. Contexts: readiness, the descriptor and its cache, changes of state, held packets, token completions without a
step (R216 to R222, R236, R293 to R295, R385, R386). -/

namespace Sys2Proof.Machine

/-- STATE code of a context (R216). -/
def ctxCode : CtxState → Nat
  | .closed => 0 | .opened => 1 | .active => 2 | .paused => 3 | .parked => 4 | .expired => 5

/-- Contexts of a placement that are not CLOSED, ascending. -/
def State.ctxsOf (s : State) (l : Nat) : List Nat :=
  (s.ctxs.filter fun x => x.2.placement == l && x.2.st != .closed).map Prod.fst

/-- Contexts of a partition that are not CLOSED, ascending. -/
def State.ctxsOfPart (s : State) (p : Nat) : List Nat :=
  (s.ctxs.filter fun x => x.2.part == p && x.2.st != .closed).map Prod.fst

/-- The context is in the step in flight of its placement. -/
def State.inStep (s : State) (i : Nat) : Bool :=
  match (s.place (s.ctx i).placement).step with
  | some st => st.slots.any fun x => x.ctx == i
  | none => false

/-- Relay records that wait for a context from its position on (R377). -/
def State.recordsAt (s : State) (l i pos : Nat) : Nat → Nat
  | 0 => 0
  | n + 1 => if s.fabric.relayed.contains (l, i, pos) then 1 + s.recordsAt l i (pos + 1) n else 0

/-- An ACTIVE context is ready (R220, R377). A shard other than the first works on relay records (log entry 12). -/
def State.readyCtx (s : State) (i : Nat) (c : Ctx) : Bool :=
  let l := s.place c.placement
  let im := s.imgOf c
  let a := s.auxOf i
  c.st == .active && l.present && !l.fenced && !c.starved && a.restore.isNone && !a.gone && decide (c.pos < c.lenMax) &&
    (if 1 < im.shardCnt && im.shardIdx != 0 then s.fabric.relayed.contains (c.placement, i, c.pos)
     else 0 < c.appCnt || !a.redo.isEmpty || (c.pvalid && c.genLeft != 0))

/-- Context i is ready. -/
def State.isReady (s : State) (i : Nat) : Bool := s.readyCtx i (s.ctx i)

/-! ## The descriptor and the context cache (R216, R222) -/

/-- FLAGS byte of a descriptor. -/
def Ctx.flagsByte (c : Ctx) (ready : Bool) : Nat :=
  c.cls % 4 + b2n c.aged * 4 + b2n c.contLate * 8 + b2n c.starved * 16 + b2n ready * 32

/-- The 64 bytes of a descriptor. -/
def State.descriptor (s : State) (i : Nat) : List Byte :=
  let c := s.ctx i
  leBytes 1 (ctxCode c.st) ++ leBytes 1 (c.flagsByte (s.isReady i)) ++ leBytes 1 c.part ++ leBytes 1 c.waitSteps ++
    leBytes 2 c.placement ++ leBytes 2 c.tag ++ leBytes 8 c.kvBase ++
    leBytes 8 (c.lenMax % 2 ^ 21 + c.pos % 2 ^ 21 * 2 ^ 21 + c.pending % 2 ^ 18 * 2 ^ 42 + b2n c.pvalid * 2 ^ 60) ++
    leBytes 4 c.parkExt ++ leBytes 2 c.sprof ++ leBytes 2 c.genLeft ++ leBytes 8 c.seed ++ leBytes 8 c.deadline ++
    leBytes 8 c.timestamp ++ leBytes 8 (c.appVa % 2 ^ 44 + c.appCnt % 2 ^ 20 * 2 ^ 44)

/-- A descriptor written back to the table under partition 0's key. -/
def State.writeBack (s : State) (i : Nat) : State :=
  if (s.sysRegion).2 = 0 then s
  else (s.wrMem 0 (s.fld Reg.SCH_CTX_TBL Fld.SCH_CTX_TBL_BASE * 2 ^ 28 + 64 * i) (s.descriptor i)).setAux i
    { s.auxOf i with dirty := false }

/-- Order of eviction: CLOSED, EXPIRED, PARKED, PAUSED, OPEN; an ACTIVE context is never evicted (R222). -/
def evictRank : CtxState → Nat
  | .closed => 0 | .expired => 1 | .parked => 2 | .paused => 3 | .opened => 4 | .active => 5

/-- Quadrant that caches a context. -/
def State.homeOf (s : State) (c : Ctx) : Nat := (s.place c.placement).home

/-- The cached contexts of a quadrant. -/
def State.cached (s : State) (q : Nat) : List Nat :=
  (s.aux.filter fun x => x.2.lru != 0 && s.homeOf (s.ctx x.1) == q).map Prod.fst

/-- The entry to evict: the lowest rank, then the least recently used. -/
def State.victim (s : State) (is : List Nat) : Option Nat :=
  is.foldl (fun b i =>
    let key := fun j => (evictRank (s.ctx j).st, (s.auxOf j).lru)
    if (s.ctx i).st == .active then b
    else match b with
      | none => some i
      | some j => if (key i).1 < (key j).1 || ((key i).1 == (key j).1 && (key i).2 < (key j).2) then some i else b) none

/-- A context's descriptor enters the cache of its home quadrant and is dirty; a full cache evicts one entry. -/
def State.touch (s : State) (i : Nat) : State :=
  let n := s.sched.lruSeq + 1
  let s1 := { s.setAux i { s.auxOf i with lru := n, dirty := true } with sched := { s.sched with lruSeq := n } }
  let is := s1.cached (s1.homeOf (s1.ctx i))
  if is.length ≤ 16384 then s1
  else match s1.victim (is.filter (· != i)) with
    | some j =>
      let s2 := if (s1.auxOf j).dirty then s1.writeBack j else s1
      s2.setAux j { s2.auxOf j with lru := 0 }
    | none => s1

/-- A descriptor field changed without an event of its own: the entry is dirty in the cache (R216, R222). -/
def State.editCtx (s : State) (i : Nat) (c : Ctx) : State := (s.setCtx i c).touch i

/-! ## Changes of a context -/

/-- The context's OPEN record has been sent and it is journaled (R386). -/
def State.journaled (s : State) (i : Nat) : Bool := s.twin.journaled.contains i

/-- Generation of the model that a context's placement runs (R271, R293). -/
def State.genOf (s : State) (c : Ctx) : Nat := (s.model (s.place c.placement).cfg.model).gen

/-- A STATE record (R385). -/
def State.stateRec (s : State) (i : Nat) : JRec :=
  let c := s.ctx i
  { kind := 3, ntok := 0, place := c.placement, ctx := i, pos := c.pos, gen := s.genOf c,
    body := leBytes 1 (ctxCode c.st) ++ leBytes 1 (c.flagsByte (s.isReady i)) ++ leBytes 2 c.genLeft ++ leBytes 4 0 ++
      leBytes 8 c.deadline }

/-- Records for a journaled context: sent while PAIRED; while DEGRADED the context becomes stale (R383, R389). -/
def State.jrnlCtx (s : State) (i : Nat) (rs : List JRec) : State :=
  if !(s.journaled i) then s
  else if s.twinSt = 3 then { s with twin := { s.twin with stale := i :: s.twin.stale.filter (· != i) } }
  else s.jrnl (s.ctx i).part rs

/-- A context changed: TIMESTAMP is the time it entered its state or became ready (R216); the change goes through the cache
and, for a change of state, GEN_LEFT or DEADLINE, to the journal. -/
def State.putCtx (s : State) (i : Nat) (c : Ctx) : State :=
  let o := s.ctx i
  let now := o.st != c.st || (!(s.readyCtx i o) && s.readyCtx i c)
  let s1 := (s.setCtx i (if now then { c with timestamp := s.time } else c)).touch i
  if o.st != c.st || o.genLeft != c.genLeft || o.deadline != c.deadline then s1.jrnlCtx i [s1.stateRec i] else s1

/-- A context that was starved or waiting may have become ready. -/
def State.freshReady (s : State) (i : Nat) (was : Bool) : State :=
  if !was && s.isReady i then s.editCtx i { s.ctx i with timestamp := s.time } else s

/-- The context moves to PAUSED. -/
def State.pauseCtx (s : State) (i : Nat) : State :=
  if (s.ctx i).st == .active then s.putCtx i { s.ctx i with st := .paused } else s

/-- Tentative frames of a tree go back to the pool (R198). -/
def State.poolBack (s : State) (p : Nat) (fs : List Nat) : State :=
  if fs.isEmpty then s else s.setPart p { s.part p with pool := (s.part p).pool ++ fs }

/-! ## Completions (R236, R293, R294) -/

/-- Order of R236: the lower number is carried. -/
def statusRank (st : Nat) : Nat :=
  if st = stViolation then 0 else if st = stFenced then 1 else if st = stBadPacket then 2 else if st = stDeadline then 3
  else if st = stStarved then 4 else if st = stLate then 5 else if st = stEscalated then 6 else 7

/-- Bytes of a token completion (R293, R294). -/
def complBytes (i status : Nat) (toks : List Nat) (lps : List (List (Nat × F32))) (pos gen place time : Nat) : List Byte :=
  let nlp := (lps.headD []).length
  let cont := ((toks.drop 1).flatMap fun t => leBytes 4 (t % 2 ^ 18)) ++
    (lps.flatMap fun r => r.flatMap fun x => leBytes 4 (x.1 % 2 ^ 18) ++ leBytes 4 x.2.toNat)
  let n := if toks.isEmpty then 0 else ceilDiv cont.length 32
  let body := if toks.isEmpty then [] else cont ++ List.replicate (32 * n - cont.length) 0
  leBytes 4 i ++ leBytes 1 status ++ leBytes 1 toks.length ++ leBytes 1 (if toks.isEmpty then 0 else nlp) ++ leBytes 1 1 ++
    leBytes 4 pos ++ leBytes 4 gen ++ leBytes 2 place ++ leBytes 2 n ++ leBytes 4 (toks.headD 0) ++ leBytes 8 time ++ body

/-- A completion with no token at a position, for no step: on the pair in force, with the generation of the placement's
model (R293, R295). -/
def State.completeAt (s : State) (i status pos : Nat) : State :=
  let c := s.ctx i
  s.post c.part c.pair { bytes := complBytes i status [] [] pos (s.genOf c) c.placement s.time, isReply := false,
                         place := some c.placement }

/-- The same where no rule gives the position (log entry 2). -/
def State.complete (s : State) (i status : Nat) : State :=
  (s.completeAt i status (Config.emptyPosition s.free).toNat).useFree

/-- The journaled history of a context is prefilled: it has its completion, and stays ACTIVE or pauses (R388, R389). -/
def State.redoFinish (s : State) (i : Nat) : State :=
  match (s.auxOf i).redoEnd with
  | none => s
  | some (status, toks, pos, pause) =>
    let s1 := s.setAux i { s.auxOf i with redoEnd := none }
    let c := s1.ctx i
    let s2 := s1.post c.part c.pair { bytes := complBytes i status toks [] pos (s1.genOf c) c.placement s1.time, isReply := false,
                                      place := some c.placement }
    (if pause then s2.pauseCtx i else s2).takeoverCheck

/-- A kind-1 record that waits for the context's position becomes its pending token (R377). -/
def State.takeToken (s : State) (i : Nat) : State :=
  let c := s.ctx i
  match s.fabric.tokens.find? fun x => x.1 == c.placement && x.2.1 == i && x.2.2.1 == c.pos with
  | some x =>
    if c.pvalid || c.st != .active then s
    else
      let rest := s.fabric.tokens.filter fun y => !(y.1 == c.placement && y.2.1 == i && y.2.2.1 ≤ c.pos)
      { s with fabric := { s.fabric with tokens := rest } }.putCtx i { c with pending := x.2.2.2, pvalid := true }
  | none => s

/-! ## Starvation (R187, R191) -/

/-- The context is starved of the pages left; STARVED counts once per context. -/
def State.starve (s : State) (i : Nat) (left : List Nat) : State :=
  let c := s.ctx i
  let s1 := s.setAux i { s.auxOf i with needs := left }
  if c.starved then s1
  else
    let n := s1.sched.starveSeq + 1
    let s2 := { s1.setAux i { s1.auxOf i with starveSeq := n } with sched := { s1.sched with starveSeq := n } }
    (s2.bump (Reg.KVT_PART_CNT c.part) Fld.KVT_PART_CNT_STARVED).putCtx i { c with starved := true }

/-- A pop that met a level-1 entry not valid: PAUSED with STARVED cleared; the caller writes the VIOLATION completion (R187). -/
def State.noTable (s : State) (i : Nat) : State :=
  let c := s.ctx i
  let s1 := s.setAux i { s.auxOf i with needs := [], restore := none }
  s1.putCtx i { c with starved := false, st := if c.st == .active then .paused else c.st }

/-- A restore has all its frames (R203): the image may be read. -/
def State.restoreFilled (s : State) (i : Nat) : State :=
  let a := s.auxOf i
  match a.restore with
  | some m => s.setAux i { a with restore := some { m with ready := true } }
  | none => s

/-- Key-value entries that waited for the frame of a cross-attention page are written (R186). -/
def State.writeKept (s : State) (i : Nat) : State :=
  let c := s.ctx i
  let ws := (s.auxOf i).kvWait
  (s.setAux i { s.auxOf i with kvWait := [] }).under c.placement fun s => s.each ws fun s w => match s.wrVa c.part w.1 w.2 with
    | .inl s' => s'
    | .inr a => s.violate c.part a 4 false false

/-- Starved contexts of a partition retry in the order in which they starved (R191). -/
def State.retryStarved (s : State) (p : Nat) : State :=
  let is := (s.ctxs.filter fun x => x.2.part == p && x.2.starved).map Prod.fst
  let sorted := sortBy (fun a b => decide ((s.auxOf a).starveSeq < (s.auxOf b).starveSeq)) is
  s.each sorted fun s i =>
    match s.popFor (s.ctx i) (s.auxOf i).needs with
    | (s1, .ok) =>
      (((s1.setAux i { s1.auxOf i with needs := [] }).putCtx i { s1.ctx i with starved := false }).restoreFilled i).writeKept i
    | (s1, .starved left) => s1.starve i left
    | (s1, .noTable _) => (s1.noTable i).complete i stViolation

/-! ## Closing (R220) -/

/-- The wait of context i's park ends. -/
def State.dropRetWait (s : State) (p i : Nat) : State :=
  s.setPart p { s.part p with retWaits := (s.part p).retWaits.filter fun w => w.ctx != i }

/-- The context becomes CLOSED: its frames go back with a REASON (0: they are unmapped only), its extents are released. -/
def State.closeCtx (s : State) (i reason : Nat) : State :=
  let s1 := (s.cancelPark i).dropRetWait (s.ctx i).part i
  let c := s1.ctx i
  let a := s1.auxOf i
  let s2 := match a.restore with
    | some m => (s1.freeExtents c.part m.extent).setAux i { a with restore := none }
    | none => if c.st == CtxState.parked then s1.freeExtents c.part c.parkExt else s1
  let s3 := s2.freeFrames c reason
  let s4 := s3.setAux i { s3.auxOf i with needs := [], kvWait := [], enc := [], npx := 0, redo := [], redoPend := none, redoEnd := none }
  let s5 := s4.editCtx i { c with st := .closed, starved := false, aged := false, tree := none, held := [], timestamp := s4.time }
  let s6 := s5.jrnlCtx i [{ kind := 4, ntok := 0, place := c.placement, ctx := i, pos := c.pos, gen := s5.genOf c, body := [] }]
  { s6 with twin := { s6.twin with journaled := s6.twin.journaled.filter (· != i), stale := s6.twin.stale.filter (· != i) } }.takeoverCheck

/-! ## Parks that wait for their frames (R192, R202) -/

/-- The park of a context whose image stands in host memory and whose frames have been returned ends: the context is PARKED. -/
def State.parkEnds (s : State) (i : Nat) : State :=
  match (s.auxOf i).park with
  | none => s
  | some m =>
    let s1 := s.setAux i { s.auxOf i with park := none }
    let s2 := s1.putCtx i { s1.ctx i with st := .parked, parkExt := m.extent }
    match m.reply with
    | some (h, op) => s2.reply h op stOK 0 0
    | none => s2

/-- Parks whose frames have all left for the free ring end. -/
def State.returnsDone (s : State) (p : Nat) : State :=
  s.each (s.part p).retWaits fun s w => if (s.retLeft p w.frames).isEmpty then (s.dropRetWait p w.ctx).parkEnds w.ctx else s

/-- Frames that wait go to the free ring as far as it has room, and the parks that waited for them end. -/
def State.freeRun (s : State) (p : Nat) : State := (s.drainFree p).returnsDone p

/-- Context i's park has returned its frames and waits for the free ring. -/
def State.parkFreed (s : State) (i : Nat) : Bool := (s.part (s.ctx i).part).retWaits.any fun w => w.ctx == i

/-! ## SESSION_OPEN's context (R220, R386) -/

/-- The context that SESSION_OPEN makes (R220). -/
def openCtx (h : Hdr) (o : OpenParams) : Ctx :=
  { st := .opened, cls := o.byte8.toNat % 4, contLate := bitOf o.byte8.toNat 2, part := h.fn, placement := o.placement.toNat,
    tag := o.tag.toNat, kvBase := o.kvBase.toNat, lenMax := o.lenMax.toNat, sprof := o.sprof.toNat, seed := o.seed.toNat,
    deadline := o.deadline.toNat, pair := h.ring }

/-- An OPEN record (R385): the 40 parameter bytes, RING as the D-ring pair number, PARTITION and 6 reserved bytes. -/
def State.openRec (s : State) (h : Hdr) (o : OpenParams) : JRec :=
  { kind := 1, ntok := 0, place := o.placement.toNat, ctx := o.context.toNat, pos := 0, gen := s.genOf (s.ctx o.context.toNat),
    body := leBytes 4 o.context.toNat ++ leBytes 2 o.placement.toNat ++ leBytes 2 o.tag.toNat ++ leBytes 1 o.byte8.toNat ++
      leBytes 1 o.byte9.toNat ++ leBytes 2 o.sprof.toNat ++ leBytes 4 o.lenMax.toNat ++ leBytes 8 o.kvBase.toNat ++
      leBytes 8 o.seed.toNat ++ leBytes 8 o.deadline.toNat ++ leBytes 1 (h.ring - 1) ++ leBytes 1 h.fn ++ leBytes 6 0 }

/-- The context is opened; under a replicated placement its OPEN record goes to the twin (R386). -/
def State.doOpen (s : State) (h : Hdr) (o : OpenParams) : State :=
  let i := o.context.toNat
  let s1 := (s.setAux i {}).editCtx i { openCtx h o with timestamp := s.time }
  if s1.twinSt = 2 && sliceRep (s1.place o.placement.toNat).slice then
    { s1 with twin := { s1.twin with journaled := i :: s1.twin.journaled } }.jrnl h.fn [s1.openRec h o]
  else s1

/-! ## Packets that take effect (R220, R221) -/

/-- The context as a packet leaves it. -/
def Ctx.after (c : Ctx) : HeldOp → Ctx
  | .append va n gen dl pair =>
    let c1 := if c.st == .expired then { c with pos := 0, pvalid := false, pending := 0 } else c
    { c1 with st := .active, appVa := if n = 0 then c1.appVa else va, appCnt := if n = 0 then c1.appCnt else n, genLeft := gen,
              deadline := dl.getD c1.deadline, pair := pair }
  | .resume gen dl pair => { c with st := .active, genLeft := gen.getD c.genLeft, deadline := dl.getD c.deadline, pair := pair }
  | .pause => { c with st := .paused, tree := none }
  | .close => { c with st := .closed }
  | .tree t => { c with tree := some t }
  | .park _ => c
  | .open_ h o => openCtx h o

/-- The context as it will stand once the restore in progress and the packets held for it take effect, by which further packets
are checked (R203, R221). -/
def State.viewCtx (s : State) (i : Nat) : Ctx :=
  let c := s.ctx i
  let c1 := match (s.auxOf i).restore with
    | some m => match m.thenOp with
      | some op => c.after op
      | none => { c with st := .paused }
    | none => c
  c.held.foldl Ctx.after c1

/-- A packet's effect on a context that is not in a step. A SESSION_OPEN that followed a held SESSION_CLOSE opens it anew (R221). -/
def State.applyOp (s : State) (i : Nat) (op : HeldOp) : State :=
  let c := s.ctx i
  if c.st == .closed then (match op with
    | .open_ h o => s.doOpen h o
    | _ => s)
  else match op with
    | .open_ .. => s
    | .close => s.closeCtx i 1
    | .park h =>
      if c.st != .paused then s.reply h 0x0C stBadPacket (badAt 16) 0
      else match (s.auxOf i).park with
        | some m =>
          if m.reply.isSome then s.reply h 0x0C stDeferred 0 0
          else s.setAux i { s.auxOf i with park := some { m with reply := some (h, 0x0C) } }
        | none =>
          let r := s.startPark i (some (h, 0x0C))
          if r.2 then r.1 else r.1.reply h 0x0C stNoResource 0 0
    | _ => s.putCtx i (c.after op)

/-- A packet takes effect now, or at the retire of the step that carries the context (R26, R221), or after the restore in
progress. -/
def State.actOn (s : State) (i : Nat) (op : HeldOp) : State :=
  if s.inStep i || (s.auxOf i).restore.isSome then s.setCtx i { s.ctx i with held := (s.ctx i).held ++ [op] } else s.applyOp i op

/-- The packets held for a context take effect, in order. -/
def State.applyHeld (s : State) (i : Nat) : State :=
  let ops := (s.ctx i).held
  (s.setCtx i { s.ctx i with held := [] }).each ops fun s op => s.applyOp i op

/-! ## Restores (R203) -/

/-- A restore begins: frames are popped for every page of the image. -/
def State.startRestore (s : State) (i : Nat) (op : Option HeldOp) (reply : Option (Hdr × Nat)) : State × Pops :=
  let c := s.ctx i
  let im := s.imgOf c
  let a := s.auxOf i
  let m : Move := { extent := c.parkExt, bytes := parkBytes im c a.npx, thenOp := op, reply := reply }
  match (s.setAux i { a with restore := some m }).popFor c ((parkPages im c a.npx).map Prod.fst) with
  | (s1, .ok) => (s1.restoreFilled i, .ok)
  | (s1, .starved left) => (s1.starve i left, .starved left)
  | (s1, .noTable va) => ((s1.noTable i).complete i stViolation, .noTable va)

end Sys2Proof.Machine
end

