-- ==== Sys2Proof/Machine/Sessions.lean ====
section
/-! DEFINITION. D-class packets about contexts, placements and rings (R300, R301; R193, R194, R201 to R204, R217, R220, R227,
R299, R386). Each exec definition is the ring engine's fetch of that packet; where the packet cannot be fetched now it
stays on its ring and nothing changes. -/

namespace Sys2Proof.Machine

/-- CONTEXT's form and range (R217, R291, R300). -/
def State.chkCtx (s : State) (p : Nat) (ctx : BitVec 32) : List Chk :=
  let i := ctx.toNat
  let f := s.fld (Reg.SCH_CTX_RANGE p) Fld.SCH_CTX_RANGE_FIRST
  let n := s.fld (Reg.SCH_CTX_RANGE p) Fld.SCH_CTX_RANGE_COUNT
  [chkForm (decide (i < 2 ^ 22)) 0, chkId (decide (f ≤ i) && decide (i < f + n)) i]

/-- PLACEMENT's range, and that it names a placement of the partition (R218, R300). -/
def State.chkPlace (s : State) (p l o : Nat) : List Chk :=
  let f := s.fld (Reg.SCH_ID_RANGE p) Fld.SCH_ID_RANGE_PLACE_FIRST
  let n := s.fld (Reg.SCH_ID_RANGE p) Fld.SCH_ID_RANGE_PLACE_COUNT
  [chkId (decide (f ≤ l) && decide (l < f + n)) l, chkForm ((s.place l).present && (s.place l).part == p) o]

/-- The context is in one of the states listed for the packet (R220). -/
def State.chkState (s : State) (i : Nat) (sts : List CtxState) : Chk := chkForm (sts.contains (s.viewCtx i).st) 0

/-- A deadline that has passed at acceptance (R235). -/
def State.chkDeadline (s : State) (use : Bool) (dl : BitVec 64) : Chk :=
  chkSt (!(use && dl != 0 && decide (dl.toNat ≤ s.time))) stDeadline

/-- Room for one more ACTIVE context in the quadrant's cache (R222): a context counts as it will stand once its restore and the packets
held for it take effect. -/
def State.chkActive (s : State) (i : Nat) : Chk :=
  let v := s.viewCtx i
  let q := s.homeOf v
  chkSt (v.st == .active ||
    decide ((s.ctxs.filter fun x => s.homeOf x.2 == q && ((s.viewCtx x.1).st == .active || x.2.st == .active)).length < 16384)) stNoResource

/-- The quadrant that a context's placement is homed in is not in reset (R550). -/
def State.chkHome (s : State) (c : Ctx) : Chk :=
  chkSt (!(bitOf (s.fld Reg.CLK_START Fld.CLK_START_QRST) (s.homeOf c))) stDeferred

/-- LEN_MAX is not yet reached (R178). An EXPIRED context starts again at position 0. -/
def State.chkLen (s : State) (i : Nat) : Chk :=
  let v := s.viewCtx i
  chkSt (v.st == .expired || decide (v.pos < v.lenMax)) stNoResource

/-! ## SESSION_OPEN -/

/-- Parameter checks of SESSION_OPEN, in ascending offset. -/
def State.openChks (s : State) (p : Nat) (o : OpenParams) : List Chk :=
  let im := (s.model (s.place o.placement.toNat).cfg.model).img
  let pmax := ceilDiv o.lenMax.toNat 16
  s.chkCtx p o.context ++ [s.chkState o.context.toNat [.closed], chkForm (!(s.auxOf o.context.toNat).gone) 0] ++
    s.chkPlace p o.placement.toNat 4 ++
    [chkId (decide (s.fld (Reg.SCH_BKT_RANGE p) Fld.SCH_BKT_RANGE_FIRST ≤ o.tag.toNat) &&
        decide (o.tag.toNat < s.fld (Reg.SCH_BKT_RANGE p) Fld.SCH_BKT_RANGE_FIRST + s.fld (Reg.SCH_BKT_RANGE p) Fld.SCH_BKT_RANGE_COUNT))
        o.tag.toNat,
     chkForm (o.byte8.toNat % 4 != 3 && decide (o.byte8.toNat < 8)) 8, chkForm (o.byte9 == 0) 9,
     chkForm (decide (o.sprof.toNat < s.fld (Reg.SMP_PROF_TBL p) Fld.SMP_PROF_TBL_COUNT)) 10,
     chkForm (decide (1 ≤ o.lenMax.toNat) && decide (o.lenMax.toNat ≤ 1048576)) 12,
     chkForm (o.kvBase.toNat % im.frame == 0 && decide (o.kvBase.toNat + im.hSum * pmax * im.frame ≤ 2 ^ 44)) 16,
     s.chkDeadline true o.deadline, s.chkHome { placement := o.placement.toNat }]

/-- SESSION_OPEN. -/
def execSessionOpen (h : Hdr) (p : OpenParams) (s : State) : Res :=
  .next (s.dPacket h 0x01 40 fun s => s.checked h 0x01 (s.openChks h.fn p) fun s =>
    (s.actOn p.context.toNat (.open_ h p)).replyHeld s h 0x01)

/-! ## SESSION_APPEND, SESSION_RESUME, SESSION_PAUSE, SESSION_CLOSE -/

/-- Parameter checks of SESSION_APPEND. -/
def State.appendChks (s : State) (p : Nat) (a : AppendParams) : List Chk :=
  let i := a.context.toNat
  s.chkCtx p a.context ++
    [s.chkState i [.opened, .active, .paused, .parked, .expired], chkForm (decide (a.count.toNat ≤ 1048575)) 4,
     chkForm (a.tokensVa.toNat % 4 == 0 && decide (a.tokensVa.toNat < 2 ^ 44)) 8, chkForm (decide (a.byte18.toNat < 2)) 18,
     chkForm (a.rsv19 == 0) 19, chkSt ((s.viewCtx i).appCnt == 0) stDeferred, s.chkLen i,
     s.chkDeadline (bitOf a.byte18.toNat 0) a.deadline, s.chkActive i, s.chkHome (s.ctx i)]

/-- A park in progress is given up for a packet that wakes the context; one whose frames have been returned ends as a park, so that its
pages are restored (R203). -/
def State.stopPark (s : State) (i : Nat) : State :=
  if s.parkFreed i then (s.dropRetWait (s.ctx i).part i).parkEnds i else s.cancelPark i

/-- A packet that makes a context ACTIVE: a park in progress is cancelled, a PARKED context is restored first (R203, R220). -/
def State.wake (s : State) (i : Nat) (op : HeldOp) : State :=
  let s1 := s.stopPark i
  if (s1.ctx i).st == .parked && (s1.auxOf i).restore.isNone then (s1.startRestore i (some op) none).1 else s1.actOn i op

/-- SESSION_APPEND. -/
def execSessionAppend (h : Hdr) (p : AppendParams) (s : State) : Res :=
  .next (s.dPacket h 0x02 32 fun s => s.checked h 0x02 (s.appendChks h.fn p) fun s =>
    (s.wake p.context.toNat (.append p.tokensVa.toNat p.count.toNat p.genLeft.toNat
      (if bitOf p.byte18.toNat 0 then some p.deadline.toNat else none) h.ring)).replyHeld s h 0x02)

/-- Parameter checks of SESSION_RESUME; an EXPIRED context answers EXPIRED (R204). -/
def State.resumeChks (s : State) (p : Nat) (a : ResumeParams) : List Chk :=
  let i := a.context.toNat
  s.chkCtx p a.context ++
    [chkSt ((s.viewCtx i).st != .expired) stExpired, s.chkState i [.paused, .parked], chkForm (decide (a.byte6.toNat < 4)) 6,
     chkForm (a.byte7 == 0) 7, s.chkLen i, s.chkDeadline (bitOf a.byte6.toNat 0) a.deadline, s.chkActive i, s.chkHome (s.ctx i)]

/-- SESSION_RESUME. -/
def execSessionResume (h : Hdr) (p : ResumeParams) (s : State) : Res :=
  .next (s.dPacket h 0x04 16 fun s => s.checked h 0x04 (s.resumeChks h.fn p) fun s =>
    (s.wake p.context.toNat (.resume (if bitOf p.byte6.toNat 1 then some p.genLeft.toNat else none)
      (if bitOf p.byte6.toNat 0 then some p.deadline.toNat else none) h.ring)).replyHeld s h 0x04)

/-- SESSION_PAUSE. -/
def execSessionPause (h : Hdr) (context rsv : BitVec 32) (s : State) : Res :=
  .next (s.dPacket h 0x03 8 fun s =>
    s.checked h 0x03 (s.chkCtx h.fn context ++ [s.chkState context.toNat [.active], chkForm (rsv == 0) 4, s.chkHome (s.ctx context.toNat)]) fun s =>
      (s.actOn context.toNat .pause).replyHeld s h 0x03)

/-- SESSION_CLOSE: a restore in progress is given up, a PARKED context closes without one (R203). -/
def execSessionClose (h : Hdr) (context rsv : BitVec 32) (s : State) : Res :=
  .next (s.dPacket h 0x05 8 fun s =>
    s.checked h 0x05 (s.chkCtx h.fn context ++
        [s.chkState context.toNat [.opened, .active, .paused, .parked, .expired], chkForm (rsv == 0) 4, s.chkHome (s.ctx context.toNat)]) fun s =>
      (if s.inStep context.toNat then s.actOn context.toNat .close
       else s.applyOp context.toNat .close).replyHeld s h 0x05)

/-! ## SPEC_TREE (R193, R194) -/

/-- One entry of a tree table: the node, or none where a reserved field is not 0. -/
def nodeOf (bs : List Byte) : Option Node :=
  let w := ofLeBytes (bs.take 4)
  let par := ofLeBytes ((bs.drop 4).take 1)
  if w < 2 ^ 18 && ofLeBytes ((bs.drop 5).take 1) = 0 then
    some ⟨w, if par = 0xFF then none else some par, ofLeBytes ((bs.drop 6).take 2)⟩
  else none

/-- Depths of the nodes in order; none where a PARENT is not less than its index. -/
def nodeDepths : List Node → List Nat → Option (List Nat)
  | [], ds => some ds
  | n :: t, ds =>
    match n.parent with
    | none => nodeDepths t (ds ++ [1])
    | some j =>
      match ds[j]? with
      | some d => nodeDepths t (ds ++ [d + 1])
      | none => none

/-- Greatest depth of a tree. -/
def treeDepth (t : List Node) : Nat := ((nodeDepths t []).getD []).foldl max 0

/-- The form of a tree against a vocabulary (R193). -/
def treeOk (t : List Node) (vocab : Nat) : Bool :=
  match nodeDepths t [] with
  | some ds => ds.all (fun d => decide (d ≤ 16)) && t.all fun n => decide (n.token < vocab)
  | none => false

/-- Pending trees of the quadrant's tree store, but for one context's (R194). -/
def State.treesHeld (s : State) (q i : Nat) : Nat :=
  (s.ctxs.filter fun x => x.1 != i && s.homeOf x.2 == q && (s.viewCtx x.1).tree.isSome).length

/-- SPEC_TREE. -/
def execSpecTree (h : Hdr) (context : BitVec 32) (n : BitVec 8) (rsv : BitVec 24) (treeVa : BitVec 64) (s : State) : Res :=
  .next (s.dPacket h 0x06 16 fun s =>
    let i := context.toNat
    let v := s.viewCtx i
    let im := s.imgOf v
    s.checked h 0x06 (s.chkCtx h.fn context ++
        [s.chkState i [.active, .paused], chkForm (decide (im.shardCnt ≤ 1)) 0, chkForm (decide (1 ≤ n.toNat) && decide (n.toNat ≤ 64)) 4,
         chkForm (rsv == 0) 5, chkForm (treeVa.toNat % 8 == 0 && decide (treeVa.toNat < 2 ^ 44)) 8,
         chkSt (v.appCnt == 0 && v.pvalid) stDeferred, s.chkVa h.fn treeVa.toNat (8 * n.toNat), s.chkHome v]) fun s =>
      let bs := match s.rdVa h.fn treeVa.toNat (8 * n.toNat) with
        | .inl b => b
        | .inr _ => []
      let nodes := (chunksOf 8 bs.length bs).map nodeOf
      let t := nodes.filterMap id
      s.checked h 0x06
        [chkForm (nodes.all Option.isSome && treeOk t im.vocab && decide (v.pos + treeDepth t < v.lenMax)) 8,
         chkSt (decide (s.treesHeld (s.homeOf v) i < 4096)) stNoResource] fun s =>
        (s.actOn i (.tree t)).replyHeld s h 0x06)

/-! ## CAIRN, FENCE (R227, R299) -/

/-- The placements with a step in flight among those named: the others are at their cairn (R226). -/
def State.busyPlaces (s : State) (ls : List Nat) : List Nat := ls.filter fun l => (s.place l).step.isSome

/-- Placements of a partition. -/
def State.placesOf (s : State) (p : Nat) : List Nat :=
  (s.places.filter fun x => x.2.present && x.2.part == p).map Prod.fst

/-- What a CAIRN waits for has come (R227). -/
def State.cairnDone (s : State) (c : CairnWait) : Bool := c.wait.isEmpty && !c.queued && c.ops.all fun k => (s.longOf k).isNone

/-- CAIRN replies that wait no longer are written. -/
def State.cairnReplies (s : State) : State :=
  s.each s.pairs fun s x =>
    let done := x.2.cairns.filter s.cairnDone
    if done.isEmpty then s
    else (s.setPair (x.1 / 32) (x.1 % 32) { s.pair (x.1 / 32) (x.1 % 32) with cairns := x.2.cairns.filter fun c => !(s.cairnDone c) }).each
      done fun s c => s.reply c.h 0x08 stOK 0 0

/-- Every waiting CAIRN changed. -/
def State.mapCairns (s : State) (f : CairnWait → CairnWait) : State :=
  { s with pairs := s.pairs.map fun (y : Nat × Pair) => (y.1, { y.2 with cairns := y.2.cairns.map f }) }

/-- The packets that waited for CP have been served: what they set takes effect at the cairns that a CAIRN names (R227). -/
def State.cairnServed (s : State) : State :=
  (s.mapCairns fun c => if c.queued then { c with queued := false, wait := s.busyPlaces c.named } else c).cairnReplies

/-- A packet waiting for CP changes settings of partition p. -/
def setsPart (p : Nat) (x : Hdr × CPacket) : Bool :=
  match x.2 with
  | .partSet hd _ => hd.target.toNat == p
  | .place _ | .modelSwap .. => x.1.fn == p
  | _ => false

/-- Swaps in progress of the models of the placements named. -/
def State.swapsOf (s : State) (ls : List Nat) : List Nat :=
  ls.filterMap fun l => (s.model (s.place l).cfg.model).swap.map Swap.op

/-- CAIRN: its reply is written once every setting accepted before it has taken effect at the cairns of the placements named (R227). -/
def execCairn (h : Hdr) (placement : BitVec 16) (rsv : BitVec 48) (s : State) : Res :=
  .next (s.dPacket h 0x08 8 fun s =>
    let l := placement.toNat
    s.checked h 0x08 ((if l = 0xFFFF then [] else s.chkPlace h.fn l 0) ++ [chkForm (rsv == 0) 2]) fun s =>
      let named := if l = 0xFFFF then s.placesOf h.fn else [l]
      let c : CairnWait := { h := h, named := named, wait := s.busyPlaces named, queued := (s.proc 0).queue.any (setsPart h.fn),
                             ops := s.swapsOf named }
      if s.cairnDone c then s.reply h 0x08 stOK 0 0
      else s.setPair h.fn h.ring { s.pair h.fn h.ring with cairns := (s.pair h.fn h.ring).cairns ++ [c] })

/-- FENCE: it waits for the final replies of the packets accepted before it on the rings named. -/
def execFence (h : Hdr) (mask rsv : BitVec 32) (s : State) : Res :=
  .next (s.dPacket h 0x0A 8 fun s =>
    s.checked h 0x0A [chkForm (mask != 0 && decide (mask.toNat < 2 ^ 17)) 0, chkForm (rsv == 0) 4] fun s =>
      let waits := ((List.range 17).filter fun r => bitOf mask.toNat r).map fun r =>
        (r, (s.pair h.fn r).open_.filter fun q => !(r == h.ring && q == h.seq.toNat))
      (s.setPair h.fn h.ring { s.pair h.fn h.ring with fence := some (h, s.now, waits) }).fenceSweep h.fn)

/-- A FENCE has waited 1 s: it completes with DEFERRED and its ring is released (R511). -/
def execFenceTimeout (fn ring at_ : Nat) (s : State) : Res :=
  let s := s.tick at_
  onObject (decide (fn < 64) && decide (ring < 17))
    (match (s.pair fn ring).fence with
     | some (h, t, _) =>
       if t + 1000000000 ≤ s.now then
         (s.setPair fn ring { s.pair fn ring with fence := none }).reply h 0x0A stDeferred 0 0
       else s
     | none => s)

/-! ## KV_PARK, KV_RESTORE (R201, R203) -/

/-- KV_PARK: its reply is written when the park completes. -/
def execKvPark (h : Hdr) (context rsv : BitVec 32) (s : State) : Res :=
  .next (s.dPacket h 0x0C 8 fun s =>
    s.checked h 0x0C (s.chkCtx h.fn context ++ [s.chkState context.toNat [.paused], chkForm (rsv == 0) 4, s.chkHome (s.ctx context.toNat)]) fun s =>
      s.actOn context.toNat (.park h))

/-- KV_RESTORE: its reply is written when the restore completes, or at a stall of its pops (R512). -/
def execKvRestore (h : Hdr) (context rsv : BitVec 32) (s : State) : Res :=
  .next (s.dPacket h 0x0D 8 fun s =>
    let i := context.toNat
    let parking := (s.auxOf i).park.isSome && (s.ctx i).st == .paused && !(s.parkFreed i)
    s.checked h 0x0D (s.chkCtx h.fn context ++
        [chkSt ((s.viewCtx i).st != .expired) stExpired, if parking || s.parkFreed i then .pass else s.chkState i [.parked], chkForm (rsv == 0) 4, s.chkHome (s.ctx i)])
      fun s =>
        if parking then
          let s1 := s.cancelPark i
          (s1.editCtx i { s1.ctx i with timestamp := s1.time }).reply h 0x0D stOK 0 0
        else
          match (s.stopPark i).startRestore i none (some (h, 0x0D)) with
          | (s1, .ok) => s1
          | (s1, .starved _) =>
            let a := s1.auxOf i
            (s1.setAux i { a with restore := a.restore.map fun m => { m with reply := none } }).reply h 0x0D stStarved 0 0
          | (s1, .noTable va) => s1.reply h 0x0D stViolation 0 (va % 2 ^ 48))

/-! ## Unassigned opcodes -/

/-- A packet whose opcode R300 and R303 do not assign: BAD_PACKET, unless its PARTITION is not the function's (R291). -/
def execUnassignedOpcode (h : Hdr) (opcode : BitVec 8) (s : State) : Res :=
  .next (s.fetching h fun s =>
    match s.headerChk h opcode.toNat (h.ring == 0) true true with
    | .pass => (s.takePacket h).reply h opcode.toNat stBadPacket 0 0
    | c => (s.takePacket h).fail h opcode.toNat c)

end Sys2Proof.Machine
end

