-- ==== Sys2Proof/Machine/Sampling.lean ====
section
/-! DEFINITION. The sampling unit: profiles, the generator, a token from logits, tree acceptance (R197, R239 to R242). -/

namespace Sys2Proof.Machine

/-! ## The generator (R240) -/

/-- mix64. -/
def mix64 (z : BitVec 64) : BitVec 64 :=
  let z := z + 0x9E3779B97F4A7C15
  let z := (z ^^^ (z >>> 30)) * 0xBF58476D1CE4E5B9
  let z := (z ^^^ (z >>> 27)) * 0x94D049BB133111EB
  z ^^^ (z >>> 31)

/-- The number of 24 bits that gen divides by 2^24. -/
def genBits (seed ctx pos draw : Nat) : Nat :=
  let ctr : BitVec 64 := (BitVec.ofNat 64 ctx <<< 29) ||| (BitVec.ofNat 64 pos <<< 8) ||| BitVec.ofNat 64 draw
  (mix64 (mix64 (BitVec.ofNat 64 seed ^^^ 0x5851F42D4C957F2D) ^^^ ctr) >>> 40).toNat

/-- gen, exact in FP32. -/
def gen (seed ctx pos draw : Nat) : F32 := fRound ((genBits seed ctx pos draw : Rat) / 16777216)

/-! ## Profiles (R239, R242) -/

/-- A sampling profile. -/
structure Prof where
  mode : Nat
  spec : Nat
  nlp  : Nat
  win  : Nat
  temp : F32
  topP : F32
  rp   : F32
  topK : Nat
  stop : Option Nat
  mask : Nat
  rsv  : Bool             -- every reserved field is 0
  deriving DecidableEq, Repr

/-- A profile from its 64 bytes. -/
def profOf (b : List Byte) : Prof :=
  let n := fun o k => ofLeBytes ((b.drop o).take k)
  { mode := n 0 1, spec := n 1 1, nlp := n 2 1, win := n 3 1, temp := BitVec.ofNat 32 (n 4 4), topP := BitVec.ofNat 32 (n 8 4),
    rp := BitVec.ofNat 32 (n 12 4), topK := n 16 2, stop := if bitOf (n 20 4) 31 then none else some (n 20 4 % 2 ^ 18),
    mask := n 24 8, rsv := n 18 2 == 0 && bitsOf (n 20 4) 18 13 == 0 && n 32 32 == 0 }

/-- The profile is valid at use (R242). -/
def Prof.ok (p : Prof) : Bool :=
  p.mode ≤ 1 && p.spec ≤ 1 && p.nlp ≤ 8 && p.win ≤ 32 && fGt p.temp 0 && fGt p.topP 0 && fGe 0x3F800000 p.topP &&
    fGe p.rp 0x3F800000 && p.topK ≤ 256 && p.rsv && p.mask % 64 = 0

/-! ## Logits to a token (R241) -/

/-- Minus infinity. -/
def negInf : F32 := 0xFF800000

/-- Logits in FP32 with NaN as minus infinity. -/
def logits32 (xs : List BF16) : List F32 := xs.map fun x => if fNaN (ofBf x) then negInf else ofBf x

/-- The greatest of a list. -/
def fMax (xs : List F32) : F32 := xs.foldl (fun m x => if fGt x m then x else m) negInf

/-- Every entry is minus infinity. -/
def allNegInf (xs : List F32) : Bool := xs.all fun x => x == negInf

/-- The mask applied; the Bool tells that it left no finite logit and was dropped. -/
def masked (l : List F32) (mask : Option (List Bool)) : List F32 × Bool :=
  match mask with
  | none => (l, allNegInf l)
  | some m =>
    let k := (l.zip (m ++ List.replicate l.length false)).map fun x => if x.2 then x.1 else negInf
    if allNegInf k then (l, true) else (k, false)

/-- Repetition penalty on the distinct tokens of the history (R241). -/
def penalise (rp : F32) (hist : List Nat) (l : List F32) : List F32 :=
  (hist.eraseDups).foldl (fun l t => match l[t]? with
    | some x => l.set t (if fGt x 0 then fDiv x rp else fMul x rp)
    | none => l) l

/-- log-softmax. -/
def logSoftmax (l : List F32) : List F32 :=
  let m := fMax l
  let z := Config.logF32 (fSum (l.map fun x => fExpo (fSub x m))).result
  l.map fun x => fSub (fSub x m) z

/-- The lowest index of the greatest entry. -/
def argmax (l : List F32) : Nat :=
  let m := fMax l
  (l.findIdx? fun x => x == m || (fGe x m && fGe m x)).getD 0

/-- Entries (index, value) above minus infinity, by ID. -/
def finiteIds (l : List F32) : List (Nat × F32) := ((List.range l.length).zip l).filter fun x => fGt x.2 negInf

/-- The K largest, by value descending then ID ascending. -/
def topK (K : Nat) (xs : List (Nat × F32)) : List (Nat × F32) :=
  xs.foldl (fun acc x => (insBy (fun a b => fGt a.2 b.2) x acc).take K) []

/-- The shortest prefix whose running sum reaches a bound, with the sum; the whole list where none does. -/
def prefixSum (bound : F32) : List (Nat × F32) → F32 → List (Nat × F32) × F32
  | [], run => ([], run)
  | x :: t, run =>
    let r := fAdd run x.2
    if fGe r bound then ([x], r)
    else
      let (p, s) := prefixSum bound t r
      (x :: p, s)

/-- The final candidates with e and their sum S (R241), from logits divided by TEMP. -/
def candidateSet (p : Prof) (l : List F32) : List (Nat × F32) × F32 :=
  let cand := if p.topK = 0 && p.topP = 0x3F800000 then finiteIds l else topK (if p.topK = 0 then 256 else p.topK) (finiteIds l)
  let m := fMax (cand.map Prod.snd)
  let e := cand.map fun x => (x.1, fExpo (fSub x.2 m))
  let S := (fSum (e.map Prod.snd)).result
  if fGt 0x3F800000 p.topP then prefixSum (fMul p.topP S) e 0 else (e, S)

/-- The first candidate at which the running sum exceeds the target; the last one where none does. -/
def drawFrom (target : F32) : List (Nat × F32) → F32 → Nat → Nat
  | [], _, last => last
  | x :: t, acc, _ =>
    let a := fAdd acc x.2
    if fGt a target then x.1 else drawFrom target t a x.1

/-- The NLP records of a token: it and the most probable others, by value descending then ID ascending. -/
def lpRecords (nlp : Nat) (lp : List F32) (tok : Nat) : List (Nat × F32) :=
  if nlp = 0 then []
  else
    let all := (List.range lp.length).zip lp
    let others := topK (nlp - 1) (all.filter fun x => x.1 != tok)
    sortBy (fun a b => fGt a.2 b.2 || (a.2 == b.2 && decide (a.1 < b.1))) ((tok, lp.getD tok negInf) :: others)

/-- What a set of logits gives under a profile: the penalised logits, log-probabilities, and whether the mask was empty. -/
structure Prep where
  l     : List F32
  lp    : List F32
  empty : Bool            -- MASK_EMPTY counts
  none_ : Bool            -- every logit is minus infinity even without the mask
  deriving DecidableEq, Repr

/-- The steps of R241 up to log-softmax. -/
def prepare (p : Prof) (logits : List BF16) (mask : Option (List Bool)) (hist : List Nat) : Prep :=
  let (l, empty) := masked (logits32 logits) mask
  let k := penalise p.rp hist l
  { l := k, lp := logSoftmax k, empty := empty, none_ := allNegInf l }

/-- The token of R241. -/
def sampleTok (p : Prof) (r : Prep) (u : F32) : Nat :=
  if r.none_ then 0
  else if p.mode = 0 then argmax r.l
  else
    let (cand, S) := candidateSet p (r.l.map fun x => fDiv x p.temp)
    drawFrom (fMul u S) cand 0 0

/-- The target distribution of a node over its candidates; every other token has 0 (R241). -/
def targetDist (p : Prof) (r : Prep) : List (Nat × F32) :=
  if r.none_ then [(0, 0x3F800000)]
  else if p.mode = 0 then [(argmax r.l, 0x3F800000)]
  else
    let (cand, S) := candidateSet p (r.l.map fun x => fDiv x p.temp)
    cand.map fun x => (x.1, fDiv x.2 S)

/-! ## Tree acceptance (R197) -/

/-- Probability of a token. -/
def probOf (d : List (Nat × F32)) (t : Nat) : F32 := ((d.find? fun x => x.1 == t).map Prod.snd).getD 0

/-- The token of highest probability, lowest ID first. -/
def argmaxDist (d : List (Nat × F32)) : Nat :=
  (d.foldl (fun (b : Option (Nat × F32)) x => match b with
    | none => some x
    | some y => if fGt x.2 y.2 || (x.2 == y.2 && x.1 < y.1) then some x else some y) none).elim 0 Prod.fst

/-- QDRAFT as a probability; 0xFFFF is taken as 1 (R193). -/
def qdraft (q : Nat) : F32 := if q = 0xFFFF then 0x3F800000 else fRound ((q : Rat) / 65536)

/-- The stochastic walk over a node's children: the child taken, or the distribution left. -/
def tryKids (seed ctx pos : Nat) : List (Nat × Node) → Nat → List (Nat × F32) → Option Nat × List (Nat × F32)
  | [], _, d => (none, d)
  | (c, n) :: t, k, d =>
    let u := gen seed ctx pos (1 + k)
    let q := qdraft n.qdraft
    let r := fDiv (probOf d n.token) q
    if fZero q || fGt (if fGt r 0x3F800000 then 0x3F800000 else r) u then (some c, d)
    else
      let d1 := d.map fun x => if x.1 = n.token then (x.1, let y := fSub x.2 q; if fGt y 0 then y else 0) else x
      let S := (fSum (d1.map Prod.snd)).result
      tryKids seed ctx pos t (k + 1) (if fZero S then d1 else d1.map fun x => (x.1, fDiv x.2 S))

/-- Children of a node (none: the pending token), by index. -/
def kidsOf (t : List Node) (node : Option Nat) : List (Nat × Node) :=
  ((List.range t.length).zip t).filter fun x => x.2.parent == node

/-- Tokens of a node's ancestors and its own, from the root down. -/
def pathTokens (t : List Node) : Nat → Option Nat → List Nat
  | 0, _ => []
  | _ + 1, none => []
  | f + 1, some i =>
    match t[i]? with
    | some n => pathTokens t f n.parent ++ [n.token]
    | none => []

/-- What acceptance gives: the accepted nodes in order, the emitted tokens, their records and how often a mask was empty. -/
structure Accept where
  nodes : List Nat := []
  toks  : List Nat := []
  lps   : List (List (Nat × F32)) := []
  empty : Nat := 0
  deriving DecidableEq, Repr

/-- Tree acceptance from a node on. `prep` gives the prepared logits of a node; `depth` is the node's depth. -/
def acceptFrom (p : Prof) (seed ctx p0 : Nat) (t : List Node) (prep : Option Nat → Prep) : Nat → Option Nat → Nat → Accept → Accept
  | 0, _, _, a => a
  | f + 1, node, depth, a =>
    let r := prep node
    let d := targetDist p r
    let a := if r.empty then { a with empty := a.empty + 1 } else a
    let res := if p.spec = 0 then
        ((kidsOf t node).find? (fun c => c.2.token == argmaxDist d) |>.map Prod.fst, d)
      else tryKids seed ctx (p0 + depth + 1) (kidsOf t node) 0 d
    match res.1 with
    | some c =>
      let tok := ((t[c]?).map Node.token).getD 0
      acceptFrom p seed ctx p0 t prep f (some c) (depth + 1)
        { a with nodes := a.nodes ++ [c], toks := a.toks ++ [tok], lps := a.lps ++ [lpRecords p.nlp r.lp tok] }
    | none =>
      let left := res.2
      let tok := if left.all fun x => fZero x.2 then argmaxDist d
        else drawFrom (fMul (gen seed ctx (p0 + depth + 1) 0) (fSum (left.map Prod.snd)).result)
          (left.filter fun x => !(fZero x.2)) 0 0
      { a with toks := a.toks ++ [tok], lps := a.lps ++ [lpRecords p.nlp r.lp tok] }

/-! ## SAMPLE -/

/-- Token at a position in the history table (R219). -/
def State.histAt (s : State) (i q : Nat) : Nat :=
  s.rdNum 0 (s.fld Reg.SCH_HIST_TBL Fld.SCH_HIST_TBL_BASE * 2 ^ 29 + 128 * i + 4 * (q % 32)) 4 % 2 ^ 18

/-- The last `n` tokens up to position `last`: those processed in this step from the slot, earlier ones from the table. -/
def State.history (s : State) (x : Slot) (last n : Nat) : List Nat :=
  ((List.range n).filter (· ≤ last)).map fun k =>
    let q := last - k
    if x.p0 ≤ q then x.inputs.getD (q - x.p0) 0 else s.histAt x.ctx q

/-- The mask bits of a profile: none for no mask, or the address that faults (R239, R242). -/
def State.maskBits (s : State) (p : Nat) (pr : Prof) (vocab : Nat) : Option (List Bool) ⊕ Nat :=
  if pr.mask = 0 then .inl none
  else match s.rdVa p pr.mask (ceilDiv vocab 8) with
    | .inl bs => .inl (some ((List.range vocab).map fun i => bitOf (bs.getD (i / 8) 0).toNat (i % 8)))
    | .inr a => .inr a

/-- The sequence cut after its first STOP_TOKEN or after GEN_LEFT tokens (R198). -/
def cutTokens (stop : Option Nat) (genLeft : Nat) (toks : List Nat) : List Nat :=
  let a := match stop with
    | some t => match toks.findIdx? (· == t) with
      | some i => toks.take (i + 1)
      | none => toks
    | none => toks
  if genLeft = 0xFFFF then a else a.take genLeft

/-- One slot of a step replaced. -/
def Step.setSlot (st : Step) (x : Slot) : Step := { st with slots := st.slots.map fun y => if y.ctx = x.ctx then x else y }

/-- A slot of the step in flight of placement l replaced. -/
def State.setSlot (s : State) (l : Nat) (x : Slot) : State :=
  match (s.place l).step with
  | some st => s.setPlace l { s.place l with step := some (st.setSlot x) }
  | none => s

/-- A context's work in the step is discarded under a status; the status of R236's order stays (R29). -/
def Slot.drop (x : Slot) (status : Nat) : Slot :=
  { x with done := true, tokens := [], lps := [], accepted := [],
           discard := match x.discard with
             | some d => some (if statusRank d ≤ statusRank status then d else status)
             | none => some status }

/-- The tokens of a slot: sampled, or accepted from its tree and the bonus (R197, R241). -/
def State.slotTokens (s : State) (x : Slot) (pr : Prof) (mask : Option (List Bool)) (logits : List (List BF16)) : Accept :=
  let c := s.ctx x.ctx
  match x.kind with
  | .spec t _ =>
    let prep := fun (node : Option Nat) =>
      let path := pathTokens t 17 node
      let hist := (path.reverse ++ s.history x x.p0 (pr.win - path.length)).take pr.win
      prepare pr (logits.getD (node.elim 0 (· + 1)) []) mask hist
    acceptFrom pr c.seed x.ctx x.p0 t prep 17 none 0 {}
  | _ =>
    let last := x.p0 + x.npos - 1
    let r := prepare pr (logits.headD []) mask (s.history x last pr.win)
    let tok := sampleTok pr r (gen c.seed x.ctx (last + 1) 0)
    { toks := [tok], lps := [lpRecords pr.nlp r.lp tok], empty := b2n r.empty }

/-- The sampling of one slot: TOKENS counts every token sampled, bonus tokens and those beyond the cut included (R198, R254). -/
def State.sampleSlot (s : State) (l : Nat) (x : Slot) (logits : List (List BF16)) : State :=
  let pl := s.place l
  let c := s.ctx x.ctx
  let pr := profOf x.prof
  let q := Reg.SMP_QCNT pl.home
  if !pr.ok then (s.bump q Fld.SMP_QCNT_BAD_PROF).setSlot l (x.drop stBadPacket)
  else match s.maskBits c.part pr (s.imgOf c).vocab with
    | .inr a => (s.violate c.part a 4 false false).setSlot l (x.drop stViolation)
    | .inl mask =>
      let a := s.slotTokens x pr mask logits
      let keep := cutTokens pr.stop c.genLeft a.toks
      ((s.bumpBy q Fld.SMP_QCNT_TOKENS a.toks.length).bumpBy q Fld.SMP_QCNT_MASK_EMPTY a.empty).setSlot l
        { x with done := true, tokens := keep, lps := (a.lps.take keep.length).filter (fun r => !r.isEmpty),
                 accepted := a.nodes.take (keep.length - 1) }

/-- SAMPLE: the logits of a context whose step has reached the sampling unit become its tokens. `logits` holds the vector of
the position sampled, followed, for a tree, by one vector per node. -/
def execSample (placement ctx : Nat) (logits : List (List BF16)) (s : State) : Res :=
  onObject (decide (placement < 1024) && decide (ctx < 4194304))
    (match (s.place placement).step with
     | some st =>
       match st.slots.find? fun x => x.ctx == ctx with
       | some x => if x.emits && !x.done then s.sampleSlot placement x logits else s
       | none => s
     | none => s)

end Sys2Proof.Machine
end

