-- ==== Sys2Proof/Machine/Optics.lean ====
section
/-! DEFINITION. Where tiles run, which light their slices use, the dye-tone check, and the bringing in of calibrated values at
cairns (R19, R165, R322, R324, R330, R338, R341, R412, R596). -/

namespace Sys2Proof.Machine

/-- Physical index (q * 272 + y * 17 + x) of the tile that serves a logical index; none where it is unavailable (R596). -/
def State.physOf (s : State) (t : Nat) : Option Nat :=
  let r := Reg.CFG_TILE_MAP t
  if s.flag r Fld.CFG_TILE_MAP_AVAIL then
    some (s.fld r Fld.CFG_TILE_MAP_Q * 272 + s.fld r Fld.CFG_TILE_MAP_Y * 17 + s.fld r Fld.CFG_TILE_MAP_X)
  else none

/-- Logical index that a physical tile serves (R597). -/
def State.logicalOf (s : State) (i : Nat) : Option Nat :=
  if s.fld (Reg.CFG_PHYS_MAP i) Fld.CFG_PHYS_MAP_STATE = 1 then some (s.fld (Reg.CFG_PHYS_MAP i) Fld.CFG_PHYS_MAP_LOGICAL) else none

/-- Cluster of a physical tile's slice (R324). -/
def clusterOf (i : Nat) : Nat := 512 * (i / 272) + i % 272
/-- Physical tile of a slice cluster; none for a port cluster. -/
def physOfCluster (c : Nat) : Option Nat := if c % 512 < 272 then some (c / 512 * 272 + c % 512) else none
/-- Port of a port cluster. -/
def portOfCluster (c : Nat) : Option Nat := if 272 ≤ c % 512 ∧ c % 512 < 278 then some (6 * (c / 512) + c % 512 - 272) else none
/-- Cluster c exists (R324). -/
def clusterOk (c : Nat) : Bool := c < 2048 && c % 512 < 278
/-- Rings of a cluster. -/
def clusterRings (c : Nat) : Nat := if c % 512 < 272 then 72 else 34
/-- Laser n exists (R322). -/
def laserOk (n : Nat) : Bool := n < 1024 && n % 256 < 236

/-- STATE of laser n (R350): 0 OFF, 1 WARMING, 2 TUNING, 3 READY, 4 ACTIVE, 5 FAILED. -/
def State.lasSt (s : State) (n : Nat) : Nat := s.fld (Reg.LAS_STAT n) Fld.LAS_STAT_STATE

/-- The wavelengths (q * 16 + w) of a physical tile's slice: the first eight for an even index (R142). -/
def wavesOf (i : Nat) : List Nat := (List.range 8).map fun w => i / 272 * 16 + (i % 272 % 2) * 8 + w

/-- The two laser positions of a compute wavelength. -/
def waveLasers (w : Nat) : Nat × Nat := (w / 16 * 256 + 2 * (w % 16), w / 16 * 256 + 2 * (w % 16) + 1)

/-- A compute wavelength is derated (R341). -/
def State.waveDerated (s : State) (w : Nat) : Bool := (s.laser (waveLasers w).1).derated || (s.laser (waveLasers w).2).derated

/-- A ring is VERIFIED and its last window, which ended at most 16 us ago, matched (R330). -/
def State.ringOk (s : State) (c r : Nat) : Bool :=
  let x := s.ring c r
  x.st == .verified && match x.matchedAt with
    | some t => decide (s.now ≤ t + 16000)
    | none => false

/-- The dye-tone check of a physical tile's slice (R330). -/
def State.dyeOk (s : State) (i : Nat) : Bool := (List.range 72).all fun r => s.ringOk (clusterOf i) r

/-- A full calibration run withdraws the slice (R409). -/
def State.withdrawn (s : State) (i : Nat) : Bool := s.cal.running.any fun x => x.1 == .cluster (clusterOf i) true

/-- FB_CAUSE of a logical tile for a placement's step, decided at the cairn; 0: the slice is in use (R165). -/
def State.fbCause (s : State) (l t : Nat) : Nat :=
  match s.physOf t with
  | none => 5
  | some i =>
    if s.flag Reg.IND_CFG Fld.IND_CFG_OPT_OFF then 1
    else if (wavesOf i).any s.waveDerated then 2
    else if (wavesOf i).any fun w => (s.place l).swapWaves.contains w then 3
    else if s.withdrawn i then 4
    else if !(s.dyeOk i) then 5
    else 0

/-- What a tile reports for the current step (R171). -/
def State.setFb (s : State) (t cause : Nat) : State :=
  let r := Reg.IND_TILE_STAT t
  let ws := ((s.physOf t).map fun i => i % 272 % 2).getD 0
  ((s.setFlag r Fld.IND_TILE_STAT_SLICE_OK (cause == 0)).setFld r Fld.IND_TILE_STAT_FB_CAUSE cause).setFld r
    Fld.IND_TILE_STAT_WSET ws

/-- The laser in service of a wavelength has faded and no spare stands behind it (R336, R341). -/
def State.fadedBare (s : State) (w : Nat) : Option Nat :=
  let (a, b) := waveLasers w
  let faded := fun n => s.fld (Reg.LAS_STAT n) Fld.LAS_STAT_FADE_CAUSE != 0
  if s.lasSt b = 4 then (if faded b then some b else none)
  else if s.lasSt a = 4 && faded a && s.lasSt b = 5 then some a
  else none

/-- Cairns in a row at which slices of a bare faded wavelength failed their check (R341). -/
def State.countMisses (s : State) (tiles : List Nat) : State :=
  let ps := tiles.filterMap s.physOf
  s.each ((ps.flatMap wavesOf).eraseDups) fun s w =>
    match s.fadedBare w with
    | some n =>
      let miss := ps.any fun i => (wavesOf i).contains w && !(s.dyeOk i)
      s.setLaser n { s.laser n with missN := if miss then (s.laser n).missN + 1 else 0 }
    | none => s

/-! ## Calibrated objects and their requests (R404, R405, R416, R454, R460) -/

/-- Physical tile at which an object's ramp counts cairns. -/
def calPhys : CalObj → Option Nat
  | .tile i => some i
  | .cluster c _ => physOfCluster c
  | _ => none

/-- One number for an object, whatever the kind of its run. -/
def calKey : CalObj → Nat
  | .tile i => i
  | .cluster c _ => 2048 + c
  | .lane i => 4096 + i
  | .laser n => 5120 + n
  | .conv k => 6144 + k

/-- Key of sensor k of a region. -/
def sensorKey (region k : Nat) : Nat := region * 512 + k

/-- Temperature of the place of a sensor; a failed sensor's place takes the maximum of its region (R454). -/
def State.tempAt (s : State) (region k : Nat) : Int :=
  if tget 0 s.therm.bad (sensorKey region k) = 0 then tget 0 s.therm.sensor (sensorKey region k)
  else signed 12 (s.fld (Reg.THM_REGION region) Fld.THM_REGION_TMAX)

/-- The sensor that an object's triggers watch: region and sensor, or the region's maximum. -/
def calSensor : CalObj → Nat × Option Nat
  | .tile i => (i / 272, some (i % 272))
  | .cluster c _ => (4 + c / 512, some (c % 512))
  | .lane i => (4 + i / 17 / 6, some (272 + i / 17 % 6))
  | .laser n => (4 + n / 256, if 32 ≤ n % 256 then some (272 + (n % 256 - 32) / 34) else none)
  | .conv _ => (12, none)

/-- Temperature of an object in units of 0.0625 C. -/
def State.calTemp (s : State) (o : CalObj) : Int :=
  match calSensor o with
  | (r, some k) => s.tempAt r k
  | (r, none) => signed 12 (s.fld (Reg.THM_REGION r) Fld.THM_REGION_TMAX)

/-- Band of an object: its own sensor's, the photonic die's for a laser (R460). -/
def State.calBand (s : State) (o : CalObj) : Nat :=
  match o, calSensor o with
  | .laser _, (r, _) => s.fld (Reg.THM_REGION r) Fld.THM_REGION_BAND
  | .conv _, _ => 0
  | _, (r, some k) => tget 0 s.therm.bands (sensorKey r k)
  | _, (r, none) => s.fld (Reg.THM_REGION r) Fld.THM_REGION_BAND

/-- The objects that a request names: a port cluster is calibrated lane by lane (R404, R409). -/
def calParts (o : CalObj) : List CalObj :=
  match o with
  | .cluster c _ => match portOfCluster c with
    | some n => (List.range 17).map fun m => .lane (17 * n + m)
    | none => [o]
  | _ => [o]

/-- One request held for one object; a full run of a cluster takes the place of a light one (R405). -/
def State.calHoldOne (s : State) (o : CalObj) : State :=
  let h := s.cal.held
  let same := fun x => calKey x == calKey o
  if !(h.any same) then { s with cal := { s.cal with held := h ++ [o] } }
  else match o with
    | .cluster _ true => { s with cal := { s.cal with held := h.map fun x => if same x then o else x } }
    | _ => s

/-- A calibration request, merged into one already held (R405). -/
def State.calHold (s : State) (o : CalObj) : State := s.each (calParts o) fun s x => s.calHoldOne x

/-- CAL_RUNs in progress learn that a run of an object has ended; the last one ends them. An object that was in a run when the
packet came waits for the run after it (R410, R416). -/
def State.calEnds (s : State) (o : CalObj) : State :=
  let k := calKey o
  s.each s.longOps fun s x => match x.pkt with
    | .calRun .. =>
      if x.wait.contains (65536 + k) then s.setLong { x with wait := x.wait.map fun w => if w = 65536 + k then k else w }
      else if x.wait.contains k then
        let w := x.wait.filter (· != k)
        let s1 := s.advanceLong { x with wait := w } (x.done + 1)
        match w, s1.longOf x.id with
        | [], some y => s1.endLong y stOK 0 0
        | _, _ => s1
      else s
    | _ => s

/-- Runs in progress are abandoned; their requests are held again, or not (R410). -/
def State.abandonRuns (s : State) (mine : CalObj → Bool) (again : Bool) : State :=
  let gone := (s.cal.running.map Prod.fst).filter mine
  let s1 := { s with cal := { s.cal with running := s.cal.running.filter fun x => !(mine x.1),
                                         abandoned := min (s.cal.abandoned + gone.length) (2 ^ 32 - 1) } }
  (if again then s1.each gone fun s o => s.calHold o else s1).each gone fun s o => s.calEnds o

/-! ## Values in force (R116, R119, R412 to R414) -/

/-- An integer between two, k sixteenths of the way (R412). -/
def rampTo (a b : Rat) (k : Nat) : Rat := a + (b - a) * k / 16

/-- The placements with a step in flight on physical tile i. -/
def State.stepsOn (s : State) (i : Nat) : List Nat :=
  (s.places.filter fun l => l.2.step.isSome && l.2.cfg.tiles.any fun t => s.physOf t == some i).map Prod.fst

/-- Steps in flight on physical tile i keep the sets of some arrays that are about to change; where the filters start again the factor h
they leave goes with the sets (R116, R119, R226). -/
def State.keepCoefs (s : State) (i : Nat) (arrs : List Nat) (restart : Bool) : State :=
  s.each (s.stepsOn i) fun s l =>
    let x := s.place l
    s.setPlace l { x with step := x.step.map fun st => arrs.foldl (fun st no =>
      let a := tget {} (s.phy i).arrays no
      let key := 512 * i + no
      let c := ((st.coef.find? fun e => e.1 == key).map Prod.snd).getD { g := a.g, o := a.o }
      { st with coef := (key, { c with hs := if restart then c.hs * a.h else c.hs }) :: st.coef.filter fun e => e.1 != key }) st }

/-- Values of a tile's accepted run at step k of their ramp; with the first step the drift filters start again (R119). -/
def State.applyTile (s : State) (i k : Nat) (r : Ramp) : State :=
  let s := s.keepCoefs i (((r.res.gains.map Prod.fst) ++ r.res.offsets.map Prod.fst).map (· / 64)).eraseDups (k == 1)
  let x := s.phy i
  let put := fun (m : Tbl Arr) (key : Nat) (f : Arr → Arr) => tins (key / 64) (f (tget {} m (key / 64))) m
  let a0 := if k = 1 then
      r.res.gains.foldl (fun m g => put m g.1 fun a => { a with h := 1, clamp := false, rhos := [] }) x.arrays else x.arrays
  let a1 := r.res.gains.foldl (fun m g => put m g.1 fun a =>
    { a with g := tset 0x8000 a.g (g.1 % 64) (rneRat (rampTo (tget 0x8000 r.startG g.1) g.2 k)).toNat }) a0
  let a2 := r.res.offsets.foldl (fun m o => put m o.1 fun a =>
    { a with o := tset 0 a.o (o.1 % 64) (rneRat (rampTo (tget 0 r.startO o.1 : Int) o.2 k)) }) a1
  s.setPhy i { x with arrays := a2 }

/-- Values of a cluster's accepted run at step k of their ramp. -/
def State.applyCluster (s : State) (c k : Nat) (r : Ramp) : State :=
  let s1 := s.each r.res.setpoints fun s p =>
    s.setRing c p.1 { s.ring c p.1 with setpoint := (rneRat (rampTo (tget 0 r.startG p.1) p.2 k)).toNat }
  match physOfCluster c with
  | some i => s1.setPhy i { s1.phy i with
      rowGains := r.res.rowGains.foldl (fun m g =>
        tset 0x1000 m g.1 (rneRat (rampTo (tget 0x1000 r.startG (1024 + g.1)) g.2 k)).toNat) (s1.phy i).rowGains }
  | none => s1

/-- Values at step k of an object's ramp. -/
def State.applyAt (s : State) (k : Nat) (r : Ramp) : State :=
  match r.obj with
  | .tile i => s.applyTile i k r
  | .cluster c _ => s.applyCluster c k r
  | _ => s

/-- The values in effect when a ramp begins: for an array's gain g / h (R119, R412). -/
def State.rampStart (s : State) (r : Ramp) : Ramp :=
  match r.obj with
  | .tile i =>
    let arr := fun key => tget {} (s.phy i).arrays (key / 64)
    { r with startG := r.res.gains.foldl (fun m g => tset 0x8000 m g.1 (((tget 0x8000 (arr g.1).g (g.1 % 64) : Nat) : Rat) / (arr g.1).h)) [],
             startO := r.res.offsets.foldl (fun m o => tset 0 m o.1 (tget 0 (arr o.1).o (o.1 % 64))) [] }
  | .cluster c _ =>
    let g1 := r.res.setpoints.foldl (fun m p => tset 0 m p.1 ((s.ring c p.1).setpoint : Rat)) []
    let rows := match physOfCluster c with
      | some i => (s.phy i).rowGains
      | none => []
    { r with startG := r.res.rowGains.foldl (fun m g => tins (1024 + g.1) ((tget 0x1000 rows g.1 : Nat) : Rat) m) g1 }
  | _ => r

/-- The cell map that a run found, each cell reading as a digit of -3 to +3 (R66): an array whose map changes is written again before it is
read (R97, R413). -/
def State.takeCells (s : State) (i : Nat) (stuck : List (Nat × Nat × Nat × Int)) : State :=
  let x := s.phy i
  let cellsOf := fun (a : Nat) => stuck.foldl (fun (m : Tbl Int) e =>
    if e.1 = a then tins (e.2.1 * 64 + e.2.2.1) (max (-3) (min 3 e.2.2.2)) m else m) []
  let keys := ((stuck.map Prod.fst) ++ tkeys x.arrays).eraseDups
  s.setPhy i { x with mapNext := none, arrays := keys.foldl (fun m k =>
    let a := tget {} m k
    let c := cellsOf k
    if a.stuck = c then m else tset {} m k { a with stuck := c, valid := false }) x.arrays }

/-- One ramp advanced by a cairn (R412). -/
def State.rampStep (s : State) (r : Ramp) : State :=
  let k := r.k + 1
  let r1 := if k = 1 then s.rampStart r else r
  let s1 := s.applyAt k r1
  let rest := s1.cal.ramps.filterMap fun x =>
    if calKey x.obj = calKey r.obj then (if 16 ≤ k then none else some { r1 with k := k }) else some x
  { s1 with cal := { s1.cal with ramps := rest } }

/-- A run's values take effect at once. -/
def State.rampAll (s : State) (o : CalObj) (res : CalResult) : State :=
  let r := s.rampStart { obj := o, k := 0, res := res, startG := [], startO := [] }
  (({ s with cal := { s.cal with ramps := s.cal.ramps.filter fun x => calKey x.obj != calKey o } }).applyAt 1 r).applyAt 16 r

/-- The stored set of an object for a band (R415). -/
def State.calSet (s : State) (o : CalObj) (b : Nat) : Option CalResult :=
  (s.cal.store.find? fun x => calKey x.1 == calKey o && x.2.1 == b).map fun x => x.2.2

/-- A set stored for a band. -/
def State.putSet (s : State) (o : CalObj) (b : Nat) (r : CalResult) : State :=
  { s with cal := { s.cal with store := s.cal.store.filter (fun x => !(calKey x.1 == calKey o && x.2.1 == b)) ++ [(o, b, r)] } }

/-- The set of another band comes into force at a cairn: the ramp under way completes in storage; a band with no set takes a copy of
the one being left (R116, R414). -/
def State.switchBand (s : State) (o : CalObj) : State :=
  let k := calKey o
  let b := s.calBand o
  let old := tget 0 s.cal.setBand k
  if b = old then s
  else
    let s1 := { s with cal := { s.cal with setBand := tset 0 s.cal.setBand k b,
                                           ramps := s.cal.ramps.filter fun x => calKey x.obj != k } }
    match s.calSet o b, s.calSet o old with
    | some r, _ => s1.applyAt 16 { obj := o, k := 16, res := r, startG := [], startO := [] }
    | none, some r => (s1.putSet o b r).applyAt 16 { obj := o, k := 16, res := r, startG := [], startO := [] }
    | none, none => s1

/-- A flash record of an object is to be written (R415). -/
def State.noteFlash (s : State) (o : CalObj) : State :=
  if s.cal.toFlash.any fun x => calKey x.1 == calKey o && x.2 == s.calBand o then s
  else { s with cal := { s.cal with toFlash := s.cal.toFlash ++ [(o, s.calBand o)] } }

/-- What calibration does at a cairn of a placement: cell maps and bands change, ramps advance. -/
def State.rampCairn (s : State) (tiles : List Nat) : State :=
  let ps := tiles.filterMap s.physOf
  let s1 := s.each ps fun s i =>
    let s0 := match (s.phy i).mapNext with
      | some m => s.takeCells i m
      | none => s
    (s0.switchBand (.tile i)).switchBand (.cluster (clusterOf i) false)
  s1.each (s1.cal.ramps.filter fun r => match calPhys r.obj with
    | some i => ps.contains i
    | none => false) fun s r => s.rampStep r

end Sys2Proof.Machine
end

