-- ==== Sys2Proof/Machine/Stage.lean ====
section
/-! DEFINITION. The shares that tiles hold in tile SRAM: which layers are staged, how copies are filled from the stacks and when they go
(R22, R23, R55, R87, R93, R120, R258, R267, R269). -/

namespace Sys2Proof.Machine

/-- Bytes of a share's weights for one expert (R258). -/
def shareBytes (l : Layer) (sh : Share) : Nat := sh.nCount * ceilDiv sh.kCount 32 * blockBytes (fmtBits l.wfmt)

/-- Bytes of the region that hold one expert's shares (R258). -/
def expertStride (l : Layer) : Nat := if l.nExp = 0 then l.wBytes else l.wBytes / l.nExp

/-- Tile-SRAM bytes of share i of a layer: its weights and tables (R120, R267). -/
def shareSram (l : Layer) (i : Nat) : Nat :=
  match l.shares[i]? with
  | some sh => shareBytes l sh * max 1 l.nExp + 8 * sh.woutN + 2 * sh.kCount
  | none => 0

/-- Tile-SRAM bytes of a layer's largest share. -/
def Image.largestShare (im : Image) (l : Layer) : Nat := ((List.range im.tiles).map (shareSram l)).foldl max 0

/-- Layers staged under a budget: in layer order while each layer's largest share still fits (R267). -/
def Image.stagedIn (im : Image) (budget : Nat) : Nat :=
  (((List.range im.layers.length).map fun k => decide (((im.layers.take (k + 1)).map im.largestShare).sum ≤ budget)).takeWhile id).length

/-- Layers that placement l holds in tile SRAM; the later ones are streamed from the stacks (R93, R267). -/
def State.stagedLayers (s : State) (l : Nat) : Nat :=
  let c := (s.place l).cfg
  let im := (s.model c.model).img
  if c.resident then im.layers.length else im.stagedIn c.stage

/-- The extents of one expert's share in the stacks: weights, outlier table, repair table (R257, R258). -/
def shareExtents (dest : Nat) (y : Layer) (sh : Share) (expert : Nat) : List (Nat × Nat) :=
  [(dest + y.wOff + expert * expertStride y + sh.wsOff, shareBytes y sh), (dest + sh.woutOff, 8 * sh.woutN), (dest + sh.repOff, 2 * sh.kCount)]

/-- One expert's share of a layer read from the stacks for placement l, or the virtual address that faults. -/
def State.readShare (s : State) (l layer expert gen : Nat) (x : Model) (y : Layer) (sh : Share) : ShareCopy ⊕ Nat :=
  let s := s.asOf l
  let rd := fun (k : Nat) => let e := (shareExtents x.dest y sh expert).getD k (0, 0); s.rdVa x.part e.1 e.2
  match rd 0, rd 1, rd 2 with
  | .inl w, .inl o, .inl r => .inl { place := l, layer := layer, expert := expert, gen := gen, bytes := w, wout := o, rep := r }
  | .inr a, _, _ => .inr a
  | _, .inr a, _ => .inr a
  | _, _, .inr a => .inr a

/-- The first uncorrectable address of a share (R499). -/
def State.badShare (s : State) (l expert : Nat) (x : Model) (y : Layer) (sh : Share) : Option Nat :=
  (shareExtents x.dest y sh expert).findSome? fun r => (s.asOf l).badVa x.part r.1 r.2

/-- The copy of a share that tile t holds. -/
def State.copyOf (s : State) (t l layer expert gen : Nat) : Option ShareCopy :=
  (s.tile t).copies.find? fun c => c.place == l && c.layer == layer && c.expert == expert && c.gen == gen

/-- A copy written into the SRAM of tile t, in place of an older one of the same share. -/
def State.putCopy (s : State) (t : Nat) (c : ShareCopy) : State :=
  s.setTile t { s.tile t with copies := (s.tile t).copies.filter (fun d => !(d.place == c.place && d.layer == c.layer && d.expert == c.expert)) ++ [c] }

/-- Copies of placement l dropped on tile t, but for those of the layers below `keep`. -/
def State.dropCopies (s : State) (t l keep : Nat) : State :=
  s.setTile t { s.tile t with copies := (s.tile t).copies.filter fun c => c.place != l || decide (c.layer < keep) }

/-- The experts of a layer; a layer without experts counts as one. -/
def Layer.experts (y : Layer) : List Nat := List.range (max 1 y.nExp)

/-- One layer of an image is filled into the SRAM of tile t, entry `i` of placement l's tile list; an access that faults is logged and
leaves its share out (R183, R311). -/
def State.stageLayer (s : State) (im : Image) (l t i layer gen : Nat) : State :=
  let x := s.model (s.place l).cfg.model
  match im.layers[layer]? with
  | none => s
  | some y => match y.shares[i]? with
    | none => s
    | some sh => s.each y.experts fun s e =>
      if (s.copyOf t l layer e gen).isSome || (s.badShare l e x y sh).isSome then s
      else match s.readShare l layer e gen x y sh with
        | .inl c => s.putCopy t c
        | .inr a => s.violate x.part a 4 false false

/-- The image and generation under which a tile takes layer k of a model: under a swap's hold the new ones from the layer's writing on (R274). -/
def State.layerSource (s : State) (m k : Nat) : Image × Nat :=
  let x := s.model m
  match x.swap with
  | some w => match s.longOf w.op with
    | some o => if w.holdAt.isSome && k < o.done then (w.img, (x.gen + 1) % 2 ^ 32) else (x.img, x.gen)
    | none => (x.img, x.gen)
  | none => (x.img, x.gen)

/-- The staged layers of placement l are filled into the SRAM of tile t, entry `i` of its list, where they are not there yet. -/
def State.stageTile (s : State) (l t i : Nat) : State :=
  s.each (List.range (s.stagedLayers l)) fun s k =>
    s.stageLayer (s.layerSource (s.place l).cfg.model k).1 l t i k (s.layerSource (s.place l).cfg.model k).2

/-- The staged layers of placement l are filled into the SRAM of its tiles (R267, R269). -/
def State.stageAll (s : State) (l : Nat) : State :=
  let c := (s.place l).cfg
  s.each ((List.range c.tiles.length).zip c.tiles) fun s e => s.stageTile l e.2 e.1

/-- The shares that placement l streamed for a step leave tile SRAM; staged layers stay (R28, R55). -/
def State.dropStream (s : State) (l : Nat) : State :=
  s.each (s.place l).cfg.tiles fun s t => s.dropCopies t l (s.stagedLayers l)

/-! ## Shares in arrays: chunks and tags (R88 to R90, R95) -/

/-- Blocks of a share along the reduction. -/
def Share.nb (sh : Share) : Nat := ceilDiv sh.kCount 32
/-- Groups of 32 outputs of a share. -/
def Share.groups (sh : Share) : Nat := ceilDiv sh.nCount 32
/-- Chunks of a share: one for each output group and block. -/
def Share.chunks (sh : Share) : Nat := sh.groups * sh.nb

/-- Format of a layer's first read: the wider of the image's and the pins; 0 for DIGITAL (R51, R54). -/
def startFormat (y : Layer) (lopt : Nat) : Nat :=
  let pin := max y.pin lopt
  if pin = 4 then 0 else max (fmtBits y.afmt) (if pin = 0 then 0 else pinBits pin)

/-- An array holds a chunk of a layer under a generation. Chunks are told apart by the tag's 9 bits of CHUNK and the run of 512 chunks that
the dispatcher works on (R89, R94). -/
def Arr.holds (a : Arr) (pslot layer gen chunk : Nat) : Bool :=
  a.valid && a.pslot == pslot && a.layer == layer && a.gen == gen && a.chunk == chunk % 512 && a.win == chunk / 512

/-- The array with a tag. -/
def findArr (bank : Tbl Arr) (pslot layer gen chunk copy digit : Nat) (dup : Bool) : Option (Nat × Arr) :=
  bank.find? fun a => a.2.holds pslot layer gen chunk && a.2.copy == copy && a.2.digit == digit && a.2.dup == dup

/-- The arrays that hold digit d of a chunk for a copy: one, or under P3 the pair of the most significant digit. -/
def digitArrs (bank : Tbl Arr) (pslot layer gen chunk copy d D profile : Nat) : Option (List (Nat × Arr)) :=
  match findArr bank pslot layer gen chunk copy d false with
  | none => none
  | some a =>
    if profile = 3 && d + 1 = D then (findArr bank pslot layer gen chunk copy d true).map fun b => [a, b] else some [a]

/-- Copy k of a chunk stands whole in the bank. -/
def hasCopy (bank : Tbl Arr) (pslot layer gen chunk D profile k : Nat) : Bool :=
  (List.range D).all fun d => (digitArrs bank pslot layer gen chunk k d D profile).isSome

/-- Whole copies of a chunk in the bank. -/
def copiesOf (bank : Tbl Arr) (pslot layer gen chunk D profile : Nat) : Nat :=
  ((List.range 513).takeWhile (hasCopy bank pslot layer gen chunk D profile)).length

/-- Retired arrays of the tile that serves a logical index. -/
def State.retiredArrs (s : State) (t : Nat) : Nat :=
  match s.physOf t with
  | some i => ((s.phy i).arrays.filter fun a => a.2.retired).length
  | none => 0

/-- Retired columns of the tile that serves a logical index, those of retired arrays with them: a retirement is permanent (R100). -/
def State.retiredCols (s : State) (t : Nat) : Nat :=
  match s.physOf t with
  | some i => ((s.phy i).arrays.map fun a => a.2.retCols.length).sum
  | none => 0

/-- The layers whose arrays are filled before a placement's first step on a tile: under the resident layout all that run on arrays, under
the reload layout the first of them (R93, R238, R269). -/
def PlaceCfg.firstLayers (c : PlaceCfg) (im : Image) : List Nat :=
  let on := (List.range im.layers.length).filter fun k => match im.layers[k]? with
    | some y => y.kind != 4 && startFormat y ((c.lopt.getD k (0, 0)).1) != 0
    | none => false
  if c.resident then on else on.take 1

/-- The arrays of tile t, entry `i` of placement l's tile list, hold the layers that its first pass needs under a generation, as far as the
bank has room (R269, R274). -/
def State.arraysFilled (s : State) (l : Nat) (im : Image) (gen t i : Nat) : Bool :=
  let x := s.place l
  match s.physOf t, x.pslot.find? fun e => e.1 == t with
  | some p, some e =>
    (x.cfg.firstLayers im).all fun k => match im.layers[k]? with
      | none => true
      | some y => match y.shares[i]? with
        | none => true
        | some sh =>
          let D := weightDigits (fmtBits y.wfmt)
          let n := sh.chunks * max 1 y.nExp
          let room := (512 - s.retiredArrs t) / (D + b2n (x.cfg.profile == 3))
          decide (min n room ≤ ((List.range n).filter fun c =>
            hasCopy (s.phy p).arrays e.2 k (gen % 16) c D x.cfg.profile 0).length)
  | _, _ => true

end Sys2Proof.Machine
end

