-- ==== Sys2Proof/Machine/Placement.lean ====
section
/-! DEFINITION. Scrubs, sharing, turns, and the settings of placements that take effect at a cairn
(R92, R226, R237, R269, R279, R522, R525). -/

namespace Sys2Proof.Machine

/-! ## Scrubs (R92, R525) -/

/-- The array bank of a physical tile cleared: cells, residuals and tags; the cell map stays. -/
def State.clearBank (s : State) (i : Nat) : State :=
  let x := s.phy i
  s.setPhy i { x with arrays := x.arrays.map fun a =>
    (a.1, { a.2 with valid := false, cells := [], resid := [], dev := [], pslot := 0, layer := 0, gen := 0, digit := 0, dup := false, chunk := 0, win := 0 }) }

/-- A scrub of logical tile t; a full one, for a tile that changes partition, also clears its SRAM and ends the calibration run on
it, while under a turn scrub each partition's staging stays (R410, R525). -/
def State.scrub (s : State) (t : Nat) (full : Bool) (next : Option Nat) : State :=
  let s1 := match s.physOf t with
    | some i => (if full then s.abandonRuns (fun o => calPhys o == some i) false else s).clearBank i
    | none => s
  let x := s1.tile t
  (s1.setTile t { x with outs := [], attnOut := [], attns := [], sb := [], scoring := none, staged := if full then [] else x.staged, copies := if full then [] else x.copies,
                           lastPart := next }).bump
    Reg.SEC_CNT Fld.SEC_CNT_SCRUBS

/-! ## Sharing (R237) -/

/-- Two placements share a tile. -/
def State.share (s : State) (a b : Nat) : Bool := (s.place a).cfg.tiles.any fun t => (s.place b).cfg.tiles.contains t

/-- Placements present. -/
def State.present (s : State) : List Nat := (s.places.filter fun x => x.2.present).map Prod.fst

/-- The work of placement l's step on tile t is given up. -/
def State.dropWork (s : State) (l t : Nat) : State :=
  let x := s.tile t
  let shared := s.present.any fun m => m != l && (s.place m).step.isSome && (s.place m).cfg.tiles.contains t
  let y := { x with outs := x.outs.filter fun o => o.place != l,
                    attns := x.attns.filter fun a => a.place != l,
                    sb := x.sb.filter fun r => r.2.place != l, scoring := none,
                    pass := match x.pass with
                      | some p => if p.place = l then none else some p
                      | none => none }
  s.setTile t (if shared then y else { y with attnOut := [] })

/-- The group of a placement: all linked to it through shared tiles, ascending. -/
def State.groupOf (s : State) (l : Nat) : List Nat :=
  let all := s.present
  (List.range all.length).foldl (fun g _ => all.filter fun m => g.contains m || g.any fun x => s.share x m) [l]

/-- The placement may build now, but for its contexts (R226, R228, R269, R274, R289, R337, R20). -/
def State.mayStep (s : State) (l : Nat) : Bool :=
  let x := s.place l
  let m := s.model x.cfg.model
  x.present && !x.fenced && !x.barrier && !x.testHold && !x.removing && x.step.isNone &&
    (m.st == .loaded || m.st == .swapping || m.st == .unloading) && s.ready &&
    !s.fw.cairnWanted && (((List.range x.cfg.tiles.length).zip x.cfg.tiles).all fun e =>
      !(x.fresh.contains e.2) || s.arraysFilled l m.img m.gen e.2 e.1) && x.cfg.tiles.all fun t =>
      !(s.clk.quadWant.contains (t / 256)) && !(s.clk.tileWant.contains t) && !(s.quadOff (t / 256))

/-- The ready contexts of a placement, ascending. -/
def State.readyOf (s : State) (l : Nat) : List Nat := (s.ctxsOf l).filter s.isReady

/-- A member of a sliced group has a ready context for turns; a held one has none (R237, R275). -/
def State.wantsTurn (s : State) (l : Nat) : Bool :=
  let x := s.place l
  x.present && !x.fenced && !x.barrier && !x.testHold && !(s.readyOf l).isEmpty

/-- The turn of a group: 1 + its holder and the pointer. Every member keeps the group's record, so that it outlives members that join and
leave; where records differ, that of a member at work counts. -/
def State.turnRec (s : State) (g : List Nat) : Nat × Nat :=
  let rs := g.map fun m => tget (0, 0) s.sched.turns m
  let held := fun (r : Nat × Nat) => r.1 != 0 && g.contains (r.1 - 1)
  match rs.find? fun r => held r && (s.place (r.1 - 1)).step.isSome with
  | some r => r
  | none => (rs.find? held).getD (0, (rs.headD (0, 0)).2)

/-- The turn of a group written into the record of every member. -/
def State.setTurn (s : State) (g : List Nat) (r : Nat × Nat) : State :=
  { s with sched := { s.sched with turns := g.foldl (fun t m => tset (0, 0) t m r) s.sched.turns } }

/-- The turn of a sliced placement's group passes when its holder has done its steps or has no ready context (R237). -/
def State.turn (s : State) (l : Nat) : State :=
  if !(s.place l).cfg.sliced then s
  else
    let g := s.groupOf l
    let (h, ptr) := s.turnRec g
    let keep := h ≠ 0 && g.contains (h - 1) && (s.place (h - 1)).step.isSome ||
      (h ≠ 0 && g.contains (h - 1) && s.wantsTurn (h - 1) && (s.place (h - 1)).turnDone < (s.place (h - 1)).cfg.ts)
    if keep then s
    else
      -- the member at or after the pointer (by placement ID) with a ready context
      match ((g.filter (ptr ≤ ·)) ++ (g.filter (· < ptr))).find? s.wantsTurn with
      | some w => (s.setPlace w { s.place w with turnDone := 0 }).setTurn g (w + 1, w + 1)
      | none => s.setTurn g (0, ptr)

/-- A sliced placement holds the turn of its group, and no other member is at work. -/
def State.hasTurn (s : State) (l : Nat) : Bool :=
  !(s.place l).cfg.sliced ||
    ((s.turnRec (s.groupOf l)).1 == l + 1 && (s.groupOf l).all fun m => m == l || (s.place m).step.isNone)

/-! ## Settings that take effect at a cairn (R226, R269) -/

/-- The tags of a placement's arrays cleared on the tiles picked (R269, R280). -/
def State.clearTags (s : State) (l : Nat) (pick : Nat → Bool) : State :=
  s.each ((s.place l).pslot.filter fun e => pick e.1) fun s e => match s.physOf e.1 with
    | some i =>
      let x := s.phy i
      s.setPhy i { x with arrays := x.arrays.map fun (a : Nat × Arr) => (a.1, if a.2.pslot = e.2 then { a.2 with valid := false } else a.2) }
    | none => s

/-- Run-ahead of a placement discarded (R28): under the reload layout the arrays written ahead lose their tags, and streamed shares leave
tile SRAM. -/
def State.dropAhead (s : State) (l : Nat) : State :=
  (if (s.place l).cfg.resident then s else s.clearTags l fun _ => true).dropStream l

/-- Tile t keeps its share of the placement under new settings: the same model and the same place in the tile list. -/
def Place.keeps (x : Place) (c : PlaceCfg) (t : Nat) : Bool :=
  x.cfg.model == c.model && x.cfg.tiles.contains t && x.cfg.tiles.findIdx? (· == t) == c.tiles.findIdx? (· == t)

/-- The placement's SRAM on a tile is given up, but for its copies where it keeps its share. -/
def State.leaveTile (s : State) (l t : Nat) (keep : Bool) : State :=
  let y := s.tile t
  s.setTile t { y with staged := y.staged.filter fun e => e.1 != l, copies := if keep then y.copies else y.copies.filter fun e => e.place != l }

/-- A PLACE takes effect: the placement runs on its new tiles, or is removed. Tiles that do not keep their share are filled anew: their
tile SRAM at once, their arrays before the next step (R269). -/
def State.putPlace (s : State) (l : Nat) (c : PlaceCfg) : State :=
  let s := s.clearTags l fun t => !((s.place l).keeps c t)
  let x := s.place l
  let im := (s.model c.model).img
  let toNs := fun (f : F32) => if fFinite f then fVal f * 1000 else 0
  let s1 := s.each x.cfg.tiles fun s t => s.leaveTile l t (x.keeps c t)
  if c.tiles.isEmpty then s1.setPlace l { x with present := false, cfg := { x.cfg with tiles := [] }, change := none, pslot := [], slice := [], fresh := [] }
  else
    let slots := c.tiles.map fun t =>
      let used := (s1.places.filter fun y => y.1 != l && y.2.present).filterMap fun y =>
        (y.2.pslot.find? fun e => e.1 == t).map Prod.snd
      (t, ((x.pslot.find? fun e => e.1 == t).map Prod.snd).getD (((List.range 16).find? fun k => !used.contains k).getD 0))
    let s2 := s1.each c.tiles fun s t => s.setTile t { s.tile t with staged := (s.tile t).staged ++ [(l, c.stage)] }
    let s3 := s2.setPlace l { x with present := true, cfg := c, change := none, fenced := false, barrier := false, pslot := slots,
                                     a := toNs im.hintA, b := toNs im.hintB,
                                     fresh := c.tiles.filter fun t => x.fresh.contains t || !(x.keeps c t) }
    (s3.each c.tiles fun s t => s.dropCopies t l (s.stagedLayers l)).stageAll l

/-- The same, with the TIMESTAMP of the contexts that become ready (R216). -/
def State.applyPlace (s : State) (l : Nat) (c : PlaceCfg) : State :=
  let was := s.readyOf l
  let s1 := s.putPlace l c
  s1.each (s1.readyOf l) fun s i => if was.contains i then s else s.editCtx i { s.ctx i with timestamp := s.time }

/-- A MODEL_UNLOAD completes when no placement of its model remains (R279, R280). -/
def State.unloadCheck (s : State) (m : Nat) : State :=
  let x := s.model m
  match x.unload with
  | some (h, _) =>
    if x.st == .unloading && !(s.present.any fun l => (s.place l).cfg.model == m) then (s.setModel m {}).reply h 0x4A stOK 0 0 else s
  | none => s

/-- A placement is removed with its contexts (R279): an ACTIVE context receives one FENCED completion. -/
def State.removePlace (s : State) (l reason : Nat) : State :=
  let s := s.clearTags l fun _ => true
  let s1 := s.each (s.ctxsOf l) fun s i =>
    (if (s.ctx i).st == .active then s.complete i stFenced else s).closeCtx i reason
  let x := s1.place l
  let s2 := s1.each x.cfg.tiles fun s t => s.leaveTile l t false
  s2.setPlace l {}

/-- A window register set (R522, R541). -/
def State.setWindow (s : State) (w base bytes : Nat) : State :=
  s.wrReg (Reg.SEC_WIN w) (BitVec.ofNat 64 (if bytes = 0 then 0 else
    1 * 2 ^ Fld.SEC_WIN_EN.lo + base / 2 ^ 21 * 2 ^ Fld.SEC_WIN_BASE.lo + bytes / 2 ^ 21 * 2 ^ Fld.SEC_WIN_SIZE.lo))

end Sys2Proof.Machine
end

