-- ==== Sys2Proof/Machine/Keys.lean ====
section
/-! DEFINITION. Partition keys, what ends a partition's work, zeroisation, and what waits for the last placement to go
(R520, R521, R526 to R531, R535, R600). -/

namespace Sys2Proof.Machine

/-- A partition receives a fresh key that nobody knows; KEY_GEN counts the change. -/
def State.freshKey (s : State) (p src : Nat) : State :=
  let s1 := { s with sec := { s.sec with keyId := tset 0 s.sec.keyId p s.sec.nextKey, nextKey := s.sec.nextKey + 1 } }
  let r := Reg.SEC_PART p
  (s1.setFld r Fld.SEC_PART_KEY_GEN (s1.fld r Fld.SEC_PART_KEY_GEN + 1)).setFld r Fld.SEC_PART_KEY_SRC src

/-- A key register cleared: data under the old key is unreadable, and no key change counts until a key is installed. -/
def State.clearKey (s : State) (p : Nat) : State :=
  { s with sec := { s.sec with keyId := tset 0 s.sec.keyId p s.sec.nextKey, nextKey := s.sec.nextKey + 1 } }

/-- The system tables written as at start-up: every context is CLOSED, buckets and history are clear (R222, R600). -/
def State.freshTables (s : State) : State :=
  let tbl := fun (r : RegRef) (f : Field) (m : Mem) (n : Nat) => if s.reg r = 0 then m else m.clear (s.fld r f * 2 ^ f.lo) n
  let m1 := tbl Reg.SCH_CTX_TBL Fld.SCH_CTX_TBL_BASE s.mem (2 ^ 28)
  let m2 := tbl Reg.SCH_HIST_TBL Fld.SCH_HIST_TBL_BASE m1 (2 ^ 29)
  let m3 := tbl Reg.SCH_BKT_TBL Fld.SCH_BKT_TBL_BASE m2 (2 ^ 20)
  { s with mem := m3, ctxs := [], aux := [], sched := { s.sched with bkts := [] },
           twin := { s.twin with journaled := [], stale := [] } }

/-- Every context of a partition becomes CLOSED; each ACTIVE one receives a FENCED completion (R279). -/
def State.closeAll (s : State) (p reason : Nat) : State :=
  s.each (s.ctxsOfPart p) fun s i => (if (s.ctx i).st == .active then s.complete i stFenced else s).closeCtx i reason

/-- The partition's models go; their long operations in progress end with FENCED (log entry 15). -/
def State.dropModels (s : State) (p : Nat) : State :=
  let ms := (s.models.filter fun m => m.2.part == p && m.2.st != .absent).map Prod.fst
  let ops := s.longOps.filter fun o => o.h.fn == p && match o.pkt with
    | .modelLoad .. | .modelSwap .. => true
    | _ => false
  let s1 := s.each ms fun s m => match (s.model m).unload with
    | some (h, op) => (s.setModel m {}).reply h op stOK 0 0
    | none => s.setModel m {}
  let s2 := s1.each ops fun s o =>
    let detail := match s.chainOf o.id, o.pkt with
      | some c, .modelLoad .. => if c.head = s.myId then c.delivered.length else 0
      | _, _ => 0
    (s.dropChain o.id).endLong o stFenced detail 0
  s2.countLong p

/-- Steps in flight of every placement but those listed are given up, for a rewrite of the system tables. -/
def State.stopSteps (s : State) : State :=
  s.each s.present fun s l => match (s.place l).step with
    | none => s
    | some st =>
      let s1 := s.each st.slots fun s x => match x.kind with
        | .spec _ fs => s.poolBack (s.ctx x.ctx).part fs
        | _ => s
      let s2 := s1.each (s1.place l).cfg.tiles fun s t => s.dropWork l t
      s2.setPlace l { s2.place l with step := none }

/-- The end of a KEY_RETIRE whose partition has no placement left (R531). -/
def State.endRetire (s : State) (h : Hdr) (p : Nat) : State :=
  let s1 := { s with sec := { s.sec with retiring := s.sec.retiring.filter fun x => x.2 != p } }
  let s2 := (s1.closeAll p 5).dropModels p
  let s3 := s2.setPart p { s2.part p with extents := [] }
  let s4 := if p = 0 then
      ((s3.each (List.range 63) fun s q => s.closeAll (q + 1) 5).stopSteps).freshTables
    else s3
  (s4.freshKey p 0).reply h 0x71 stOK 0 0

/-! ## Zeroisation (R535) -/

/-- The partitions that exist. -/
def State.parts_ (s : State) : List Nat := (List.range 64).filter s.partExists

/-- Phase 1: keys and session are cleared, and every placement is on its way out. -/
def State.zeroBegin (s : State) : State :=
  let s1 := s.each s.parts_ fun s p => s.clearKey p
  let s2 := { s1 with sec := { s1.sec with zeroing := true, sessEnd := none } }
  let s3 := ((s2.setFlag Reg.SEC_STAT Fld.SEC_STAT_CO_SESSION false).setFld Reg.SEC_STAT Fld.SEC_STAT_CO_LEFT 0).setFld
    Reg.SEC_STAT Fld.SEC_STAT_ZERO_PHASE 1
  s3.each s3.present fun s l => s.setPlace l { s.place l with removing := true }

/-- Phase 1 ends: no placement is left; models, contexts and extents go. -/
def State.zeroEmpty (s : State) : State :=
  let s1 := s.each s.parts_ fun s p =>
    let s1 := (s.closeAll p 5).dropModels p
    s1.setPart p { s1.part p with extents := [] }
  s1.setFld Reg.SEC_STAT Fld.SEC_STAT_ZERO_PHASE 2

/-- Phase 2: every tile receives a full scrub. -/
def State.zeroScrub (s : State) : State :=
  (s.each (List.range 1024) fun s t => s.scrub t true none).setFld Reg.SEC_STAT Fld.SEC_STAT_ZERO_PHASE 3

/-- A new device key pair: its public half is what the DRBG gave (R528; log entry 2). -/
def State.newDevKey (s : State) : State :=
  let k := s.sec.devKey + 1
  { s with sec := { s.sec with devKey := k } }.each (List.range 12) fun s i => s.wrReg (Reg.SEC_DEVPUB i) (Config.devicePublicKey k i)

/-- Phase 3: tables, keys and the device key pair are made anew. -/
def State.zeroRekey (s : State) : State :=
  let s1 := (s.freshTables.each s.parts_ fun s p => s.freshKey p 0).newDevKey
  let s2 := (s1.bump Reg.SEC_CNT Fld.SEC_CNT_ZEROIZES).setFld Reg.SEC_STAT Fld.SEC_STAT_ZERO_PHASE 0
  let s3 := if s2.sec.zeroDebug then
      (s2.setFlag Reg.SEC_STAT Fld.SEC_STAT_DEBUG_OPEN true).setFlag Reg.SEC_STAT Fld.SEC_STAT_APPROVED false
    else s2
  { s3 with sec := { s3.sec with zeroing := false, zeroDebug := false } }

/-- Every ZEROIZE in progress completes with OK. -/
def State.zeroReplies (s : State) : State :=
  let ops := s.longOps.filter fun o => match o.pkt with
    | .zeroize .. => true
    | _ => false
  (s.each ops fun s o => s.endLong o stOK 0 0).countLong 0

/-- A zeroisation that no packet carries runs on as soon as no placement is left (R536). -/
def State.zeroDebugRun (s : State) : State :=
  let carried := s.longOps.any fun o => match o.pkt with
    | .zeroize .. => true
    | _ => false
  if s.sec.zeroing && s.present.isEmpty && !carried then s.zeroEmpty.zeroScrub.zeroRekey else s

/-- What waited for the last placement of a partition, or of the module, to go. -/
def State.settle (s : State) (p : Nat) : State :=
  let s1 := match s.sec.retiring.find? fun x => x.2 == p with
    | some (h, _) => if (s.placesOf p).isEmpty then s.endRetire h p else s
    | none => s
  s1.zeroDebugRun

end Sys2Proof.Machine
end

