-- ==== Sys2Proof/Machine/Steps.lean ====
section
/-! DEFINITION. Cairns, the choice of a step's contexts, the build and the retire of a step, fences of placements
(R26 to R29, R223 to R238, R269, R279, R377 to R381, R497). -/

namespace Sys2Proof.Machine

/-- A PART_DESTROY of the partition is in progress. -/
def State.destroying (s : State) (p : Nat) : Bool :=
  s.longOps.any fun o => match o.pkt with
    | .partDestroy q _ _ => q.toNat == p
    | _ => false

/-! ## Buckets (R229, R230, R244, R499) -/

/-- Epoch in us in force; 0 acts as 1. -/
def State.epochUs (s : State) : Nat :=
  let reg := max 1 (s.fld Reg.SCH_CFG Fld.SCH_CFG_EPOCH)
  match s.sched.epochOld with
  | some (old, until_) => if s.time < until_ then old else reg
  | none => reg

/-- Number of the current epoch. -/
def State.epoch (s : State) : Nat := s.time / (s.epochUs * 1000)

/-- Address of bucket b. -/
def State.bktAddr (s : State) (b : Nat) : Nat := s.fld Reg.SCH_BKT_TBL Fld.SCH_BKT_TBL_BASE * 2 ^ 20 + 16 * b

/-- A bucket: LEVEL, REFILL, BURST, LAST_EPOCH; one whose word is uncorrectable is rewritten with LEVEL 0 and its PART_SET
values (R499). -/
def State.bucket (s : State) (b : Nat) : Nat × Nat × Nat × Nat :=
  let a := s.bktAddr b
  match s.mem.bad a 16 with
  | some _ =>
    let v := (s.sched.bkts.find? fun x => x.1 ≤ b && b < x.1 + x.2.1).map fun x => (x.2.2.1, x.2.2.2)
    (0, (v.getD (0, 0)).1, (v.getD (0, 0)).2, s.epoch % 2 ^ 32)
  | none => (s.rdNum 0 a 4, s.rdNum 0 (a + 4) 4, s.rdNum 0 (a + 8) 4, s.rdNum 0 (a + 12) 4)

/-- LEVEL after the refill of the current epoch. Epoch numbers are compared modulo 2^32: where a larger EPOCH has taken the number back
below LAST_EPOCH, which the spec does not treat, the difference is large and the bucket is full (DESIGN CHOICE, log entry 96). -/
def State.levelNow (s : State) (b : Nat) : Nat :=
  let (lv, rf, bu, le) := s.bucket b
  min (lv + rf * diff32 (s.epoch % 2 ^ 32) le) bu

/-- A bucket read, refilled and debited by n, not below 0. -/
def State.debit (s : State) (b n : Nat) : State :=
  let (_, rf, bu, _) := s.bucket b
  s.wrMem 0 (s.bktAddr b) (leBytes 4 (s.levelNow b - n) ++ leBytes 4 rf ++ leBytes 4 bu ++ leBytes 4 s.epoch)

/-- A read of a bucket leaves the level after the refill and the epoch in its entry (R229). -/
def State.refill (s : State) (b : Nat) : State := s.debit b 0

/-! ## What a context does in a step (R193, R200, R224, R225) -/

/-- Step time predicted for n positions, in ns (R225). -/
def Place.predict (x : Place) (n : Nat) : Rat := x.a + x.b * n

/-- n more positions fit. -/
def Place.fits (x : Place) (have_ n : Nat) : Bool := have_ + n ≤ x.cfg.posMax && x.predict (have_ + n) ≤ 2000000

/-- Positions of a prefill chunk out of `total`: the largest T that fits, a multiple of 16 unless it takes everything. The first context is
always taken; where no T fits, for which the spec names none, it takes 16 positions, or all of fewer (DESIGN CHOICE, log entry 30). -/
def Place.chunk (x : Place) (have_ total : Nat) (first : Bool) : Nat :=
  if x.fits have_ total then total
  else
    match (List.range (total / 16 + 1)).reverse.find? (fun k => 0 < k && x.fits have_ (16 * k)) with
    | some k => 16 * k
    | none => if first then min 16 total else 0

/-- A slot that context i would take; `have_` positions are taken already. The Bool tells that a tree was dropped. -/
def State.slotFor (s : State) (l i have_ : Nat) (first : Bool) : Option (Slot × Bool) :=
  let x := s.place l
  let c := s.ctx i
  let im := s.imgOf c
  let a := s.auxOf i
  let last := im.shardCnt ≤ 1 || im.shardIdx + 1 == im.shardCnt
  let relayed := 1 < im.shardCnt && im.shardIdx != 0
  let waiting := s.recordsAt l i c.pos x.cfg.posMax
  let plain : Option Slot := if first || x.fits have_ 1 then some { ctx := i, kind := .decode, p0 := c.pos, npos := 1, emits := last } else none
  let queued := if a.redo.isEmpty then b2n c.pvalid + c.appCnt else a.redo.length
  if !a.redo.isEmpty || 0 < c.appCnt then
    let room := c.lenMax - c.pos
    let total := min queued (if relayed then min room waiting else room)
    let t := x.chunk have_ total first
    if t = 0 then none
    else
      let ends := t == queued
      some ({ ctx := i, kind := .prefill t ends, p0 := c.pos, npos := t,
              emits := ends && a.redo.isEmpty && c.genLeft != 0 && last }, false)
  else
    match c.tree with
    | none => plain.map fun p => (p, false)
    | some t =>
      let frames := ceilDiv t.length 16 * im.hSum
      let pool := (s.part c.part).pool
      if c.pos + treeDepth t ≥ c.lenMax || pool.length < frames then plain.map fun p => (p, true)
      else if x.fits have_ (1 + t.length) || (first && 1 + t.length ≤ x.cfg.posMax) then
        some ({ ctx := i, kind := .spec t (pool.take frames), p0 := c.pos, npos := 1 + t.length, emits := true }, false)
      else if first then plain.map fun p => (p, true)
      else none

/-- Pages that a slot can write (R186). -/
def State.slotPages (s : State) (x : Slot) : List Nat :=
  let c := s.ctx x.ctx
  match x.kind with
  | .spec t _ => selfPages (s.imgOf c) c x.p0 (1 + treeDepth t)
  | _ => selfPages (s.imgOf c) c x.p0 x.npos

/-- Token words of a chunk: the tokens, the address that faults, or none for a bad word (R301). -/
def State.promptTokens (s : State) (i n : Nat) : Option (List Nat) ⊕ Nat :=
  let c := s.ctx i
  match s.rdVa c.part c.appVa (4 * n) with
  | .inr _ => .inr (((List.range n).find? fun k => (s.xlateAll c.part (c.appVa + 4 * k) 4).isRight).elim c.appVa fun k => c.appVa + 4 * k)
  | .inl bs =>
    let ws := (chunksOf 4 bs.length bs).map ofLeBytes
    if ws.all fun w => w < 2 ^ 18 && w < (s.imgOf c).vocab then .inl (some ws) else .inl none

/-- A slot with its inputs and its profile read at build; a fault or a bad word discards its work (R183, R239, R301). -/
def State.loadSlot (s : State) (x : Slot) : State × Slot :=
  let i := x.ctx
  let c := s.ctx i
  let held := if c.pvalid then [c.pending] else []
  let (s1, x1) : State × Slot := match x.kind with
    | .prefill t _ =>
      if !(s.auxOf i).redo.isEmpty then (s, { x with inputs := (s.auxOf i).redo.take t })
      else match s.promptTokens i (t - held.length) with
        | .inl (some ws) => (s, { x with inputs := held ++ ws })
        | .inl none => (s, { x.drop stBadPacket with clearApp := true })
        | .inr a => (s.violate c.part a 4 false false, x.drop stViolation)
    | _ => (s, { x with inputs := held })
  if !x1.emits then (s1, x1)
  else match s1.rdVa c.part (s1.fld (Reg.SMP_PROF_TBL c.part) Fld.SMP_PROF_TBL_BASE * 4096 + 64 * c.sprof) 64 with
    | .inl b => (s1, { x1 with prof := b })
    | .inr a => (s1.violate c.part a 4 false false, x1.drop stViolation)

/-! ## Selection (R231) -/

/-- The selection so far. -/
structure Sel where
  s     : State
  slots : List Slot := []
  npos  : Nat := 0
  notes : List (Nat × Nat) := []

/-- A context taken into the step, if its pops do not starve it; the charge is debited. -/
def Sel.take (a : Sel) (l i : Nat) (late : Bool) : Sel :=
  match a.s.slotFor l i a.npos a.slots.isEmpty with
  | none => a
  | some (x, dropped) =>
    let c := a.s.ctx i
    match a.s.popFor c (a.s.slotPages x) with
    | (s1, .starved left) => { a with s := s1.starve i left, notes := a.notes ++ [(i, stStarved)] }
    | (s1, .noTable _) => { a with s := s1.noTable i, notes := a.notes ++ [(i, stViolation)] }
    | (s1, .ok) =>
      let s2 := if dropped then s1.bump (Reg.KVT_PART_CNT c.part) Fld.KVT_PART_CNT_SCR_DROP else s1
      let s3 := match x.kind with
        | .spec _ fs => s2.setPart c.part { s2.part c.part with pool := (s2.part c.part).pool.filter fun f => !fs.contains f }
        | _ => s2
      let s4 := (s3.editCtx i { s3.ctx i with waitSteps := 0, aged := false, tree := none }).debit c.tag x.npos
      let s5 := if late then s4.bump (Reg.SCH_PART_CNT c.part) Fld.SCH_PART_CNT_OVER_BUDGET else s4
      let (s6, y) := s5.loadSlot x
      { s := s6, slots := a.slots ++ [y], npos := a.npos + x.npos, notes := a.notes }

/-- Deadlines and ages before selection (R231, R235). -/
def Sel.screen (a : Sel) (i : Nat) : Sel :=
  let c := a.s.ctx i
  let cfg := Reg.SCH_AGE_CFG c.part
  if c.deadline ≠ 0 && c.deadline ≤ a.s.time && !c.contLate then
    { a with s := (a.s.pauseCtx i).bump (Reg.SCH_PART_CNT c.part) Fld.SCH_PART_CNT_DL_SKIP, notes := a.notes ++ [(i, stDeadline)] }
  else if !c.aged && (max 1 (a.s.fld cfg Fld.SCH_AGE_CFG_STARVE_STEPS) ≤ c.waitSteps ||
      a.s.fld cfg Fld.SCH_AGE_CFG_STARVE_TIME * 1000 ≤ a.s.time - c.timestamp) then
    { a with s := (a.s.editCtx i { c with aged := true }).bump (Reg.SCH_PART_CNT c.part) Fld.SCH_PART_CNT_AGED }
  else a

/-- The ready contexts that a cairn samples: one that becomes ready in the cairn's own cycle waits for the following step; those that the
step just retired carried have been ready all along (R26). -/
def State.sampled (s : State) (l : Nat) : List Nat :=
  (s.readyOf l).filter fun i => decide ((s.ctx i).timestamp < s.time) || ((s.place l).keptAt == s.now && (s.place l).kept.contains i)

/-- Contexts by (TIMESTAMP, context ID). -/
def State.byAge (s : State) (is : List Nat) : List Nat :=
  sortBy (fun i j => decide ((s.ctx i).timestamp < (s.ctx j).timestamp)) is

/-- One class in one pass of the selection. -/
def Sel.pass (a : Sel) (l cls : Nat) (late hold : Bool) : Sel :=
  if cls = 2 && hold then a
  else
    let order := a.s.byAge ((a.s.sampled l).filter fun i => (a.s.ctx i).cls == cls)
    order.foldl (fun a i =>
      if (a.s.place l).cfg.slots ≤ a.slots.length || (a.slots.any fun x => x.ctx == i) then a
      else if (a.notes.any fun n => n.1 == i) || (a.s.slotFor l i a.npos a.slots.isEmpty).isNone then a
      else
        let tag := (a.s.ctx i).tag
        let a1 := { a with s := a.s.refill tag }
        if !late && a1.s.levelNow tag = 0 then a1 else a1.take l i late) a

/-- The contexts of a step of placement l, with or without the hold on BULK (R231). -/
def State.select (s : State) (l : Nat) (hold : Bool) : Sel :=
  let R := ceilDiv (s.place l).cfg.slots 8
  let a0 := (s.sampled l).foldl (fun (a : Sel) i => a.screen i) { s := s }
  let aged := a0.s.byAge ((a0.s.sampled l).filter fun i => (a0.s.ctx i).aged)
  let a1 := aged.foldl (fun (a : Sel) i => if R ≤ a.slots.length then a else a.take l i false) a0
  let a2 := [0, 1, 2].foldl (fun a c => a.pass l c false hold) a1
  [0, 1, 2].foldl (fun a c => a.pass l c true hold) a2

/-! ## The BULK hold (R232) -/

/-- At its cairn an LC placement decides its hold from its next step predicted without one; a placement with TGT 0 has none. -/
def State.decideHold (s : State) (l : Nat) : State :=
  let x := s.place l
  if x.cfg.tgt = 0 then (if x.hold then s.setPlace l { x with hold := false } else s)
  else
    let late := decide ((x.cfg.tgt * 1000 : Nat) < x.predict (s.select l false).npos)
    let s1 := s.setPlace l { x with hold := late }
    if late && !x.hold then s1.bump (Reg.SCH_QSTAT x.home) Fld.SCH_QSTAT_HOLDS else s1

/-- BULK contexts of the placement are held: by its own hold or by that of an LC placement it shares a tile with. -/
def State.bulkHold (s : State) (l : Nat) : Bool := s.present.any fun m => (s.place m).hold && (m == l || s.share l m)

/-! ## Cairns (R226) -/

/-- The cairn of a placement with no step in flight (R226): everything that waited for it takes effect, the turn may pass, and an LC
placement decides its hold (R232). -/
def State.cairn (s : State) (l : Nat) : State :=
  let p := (s.place l).part
  let s1 := if (s.place l).removing then (s.removePlace l (if s.destroying p then 0 else 5)).unloadCheck (s.place l).cfg.model else
    match (s.place l).change with
    | some c => s.applyPlace l c
    | none => s
  let s2 := if (s1.place l).present then (s1.readSlice l).rampCairn (s1.place l).cfg.tiles else s1
  let s3 := s2.poolCairn p (s2.place l).home
  let checked := match (s3.model (s3.place l).cfg.model).swap with
    | some w => w.bound != 0
    | none => false
  let s4 := if (s3.place l).present && checked && !(s3.place l).barrier then
      let y := s3.dropAhead l
      y.setPlace l { y.place l with barrier := true }
    else if (s3.place l).testHold then s3.dropAhead l
    else s3
  let s5 := (s4.mapCairns fun c => { c with wait := c.wait.filter (· != l) }).cairnReplies
  let s6 := if (s5.busyPlaces (s5.placesOf p)).isEmpty then s5.freeRun p else s5
  ((s6.turn l).decideHold l).settle p

/-- Placements of a partition with no step in flight are at their cairn continuously: accepted settings take effect (R226). -/
def State.idleCairns (s : State) (p : Nat) : State :=
  s.each (s.placesOf p) fun s l => if (s.place l).step.isNone then s.cairn l else s

/-! ## STEP_BUILD -/

/-- The uncorrectable word of a context's descriptor or history entry, if any. -/
def State.ctxBad (s : State) (i : Nat) : Option Nat :=
  if s.mem.poison.isEmpty || (s.sysRegion).2 = 0 then none
  else
    let d := s.fld Reg.SCH_CTX_TBL Fld.SCH_CTX_TBL_BASE * 2 ^ 28 + 64 * i
    let h := s.fld Reg.SCH_HIST_TBL Fld.SCH_HIST_TBL_BASE * 2 ^ 29 + 128 * i
    match if (s.auxOf i).lru = 0 then s.mem.bad d 64 else none with
    | some a => some a
    | none => s.mem.bad h 128

/-- A context whose descriptor or history is lost is taken out of service: CLOSED with one FENCED completion, its frames kept. -/
def State.loseCtx (s : State) (i a : Nat) : State :=
  let s1 := ((s.ueAt a).complete i stFenced).closeCtx i 0
  s1.setAux i { s1.auxOf i with gone := true }

/-- The contexts of a placement that a step would read and cannot are taken out of service. -/
def State.loseBad (s : State) (l : Nat) : State :=
  if s.mem.poison.isEmpty then s
  else s.each (s.readyOf l) fun s i => match s.ctxBad i with
    | some a => s.loseCtx i a
    | none => s


/-- The registers whose values a step uses are taken at its build (R226). -/
def State.newStep (s : State) (l : Nat) (a : Sel) : Step :=
  let x := s.place l
  let thr := Reg.MDT_ESC_THR x.part
  { id := s.sched.nextStep, builtAt := s.now, slots := a.slots, npos := a.npos, predicted := x.predict a.npos,
    gen := (s.model x.cfg.model).gen, profile := x.cfg.profile,
    sparse := x.cfg.rowmode == 2 && !(s.flag Reg.CAB_CHK_CFG Fld.CAB_CHK_CFG_SPARSE_OFF),
    escSat := s.fld thr Fld.MDT_ESC_THR_ESC_SAT, escZro := s.fld thr Fld.MDT_ESC_THR_ESC_ZRO,
    chkCfg := (s.reg Reg.CAB_CHK_CFG).toNat, mdtCfg := (s.reg Reg.MDT_CFG).toNat, indCfg := (s.reg Reg.IND_CFG).toNat,
    regs := s.cairnVals x.part, scree := ((s.part x.part).screeBase, (s.part x.part).screeBytes),
    lopt := x.cfg.lopt, notBuilt := a.notes,
    fb := (x.cfg.tiles.map fun t => (t, s.fld (Reg.IND_TILE_STAT t) Fld.IND_TILE_STAT_FB_CAUSE)).filter fun e => e.2 != 0,
    marks := x.cfg.tiles.filter fun t => match s.physOf t with
      | some i => decide (s.now < (s.phy i).calBusyUntil)
      | none => false }

/-- Completions of contexts that were not built (R187, R191, R235). -/
def State.noteAll (s : State) (notes : List (Nat × Nat)) : State := s.each notes fun s n => s.complete n.1 n.2

/-- Tiles take up a step: time-sliced tiles are scrubbed for another partition, slices pass or fail their check (R165, R525). -/
def State.startTiles (s : State) (l : Nat) : State :=
  let x := s.place l
  let s1 := s.each x.cfg.tiles fun s t =>
    let s := if (s.tile t).lastPart = some x.part then s
      else if (s.tile t).lastPart.isNone then s.setTile t { s.tile t with lastPart := some x.part }
      else s.scrub t false (some x.part)
    (s.dropWork l t).setFb t (s.fbCause l t)
  let s2 := s1.countMisses x.cfg.tiles
  s2.setPlace l { s2.place l with swapWaves := [] }

/-- The build of a step (R231): with no context taken there is no step. -/
def State.build (s : State) (l : Nat) : State :=
  let s0 := s.decideHold l
  let a := s0.select l (s0.bulkHold l)
  if a.slots.isEmpty then a.s.noteAll a.notes
  else
    let s1 := a.s.each ((a.s.sampled l).filter fun i => !(a.slots.any fun x => x.ctx == i)) fun s i =>
      s.editCtx i { s.ctx i with waitSteps := min 255 ((s.ctx i).waitSteps + 1) }
    let s2 := (s1.startTiles l).bump (Reg.SCH_QSTAT (s1.place l).home) Fld.SCH_QSTAT_STEPS
    { s2.setPlace l { s2.place l with step := some (s2.newStep l a), steps := (s2.place l).steps + 1, fresh := [] } with sched := { s2.sched with nextStep := s2.sched.nextStep + 1 } }

/-- Token completions of a placement that wait for their ring (R289). -/
def State.waitingOf (s : State) (l : Nat) : List Out :=
  s.pairs.flatMap fun x => x.2.out.filter fun o => !o.isReply && o.place == some l

/-- STEP_BUILD: the placement is at its cairn and its step builder builds a step. -/
def execStepBuild (placement at_ : Nat) (s : State) : Res :=
  let s := s.tick at_
  onObject (decide (placement < 1024))
    (let s := s.turn placement
     let s := if (s.waitingOf placement).isEmpty then s.setPlace placement { s.place placement with stalled := false } else s
     let s := if s.mayStep placement then s.loseBad placement else s
     if s.mayStep placement && s.hasTurn placement && !(s.place placement).stalled then s.build placement else s)

/-! ## STEP_RETIRE -/

/-- Rectified: a number below 0 becomes +0. -/
def fRelu (x : F32) : F32 := if fGt 0 x then 0 else x

/-- The ACT of a layer applied to its whole output (R256). -/
def Layer.activate (y : Layer) (xs : List F32) : List F32 :=
  match y.act with
  | 0 => xs
  | 1 => xs.map fRelu
  | 4 => ((xs.take (xs.length / 2)).zip (xs.drop (xs.length / 2))).map fun x => fMul x.1 (Config.actFn 3 x.2)
  | k => xs.map (Config.actFn k)

/-- Outputs of the last layer for vector v: the tiles' forwarded results in output order, under the layer's ACT and RESIDUAL
(R256, R377). -/
def State.lastOutput (s : State) (l v : Nat) : List BF16 :=
  let x := s.place l
  let im := (s.model x.cfg.model).img
  match im.layers.getLast? with
  | none => []
  | some y =>
    let mine := fun t => (((s.tile t).outs.find? fun o => o.place == l && o.layer + 1 == im.layers.length).map TileOut.results).getD []
    let parts := (x.cfg.tiles.zip y.shares).map fun e => (e.2.nFirst, (mine e.1).getD v [])
    let out := y.activate ((sortBy (fun a b => decide (a.1 < b.1)) parts).flatMap Prod.snd)
    (if bitOf y.lflags 0 then ((List.range out.length).zip out).map fun e => Config.withResidual e.2 e.1 (s.free + v) else out).map toBf

/-- A relay record (R377). -/
def relayRecord (i pos kind gen : Nat) (payload : List Byte) : List Byte :=
  leBytes 4 i ++ leBytes 4 pos ++ leBytes 1 kind ++ leBytes 3 0 ++ leBytes 4 gen ++ payload

/-- One relay record sent to NEXT. -/
def State.sendRecord (s : State) (l i pos kind : Nat) (payload : List Byte) : State :=
  let x := s.place l
  let off := sliceNum x.slice 8 8 + x.relayN % sliceSlots x.slice * 32768
  let s1 := s.setPlace l { x with relayN := x.relayN + 1, step := x.step.map fun st => { st with relayOut := st.relayOut + 1 } }
  s1.request (sliceNext x.slice) 1 x.part off (relayRecord i pos kind (s.genOf (s.ctx i)) payload) (some l)

/-- The records of a step, sent once when its work is complete (R377, R378). -/
def State.sendRelay (s : State) (l : Nat) (st : Step) : State :=
  let x := s.place l
  let im := (s.model x.cfg.model).img
  let s1 := s.setPlace l { x with step := some { st with relaySent := true } }
  let s := { s1 with free := s1.free + st.npos }
  if im.shardCnt ≤ 1 || sliceNext x.slice = 0xFFFF then s
  else if im.shardIdx + 1 < im.shardCnt then
    (st.slots.foldl (fun (a : State × Nat) y =>
      (if y.discard.isSome then a.1
       else a.1.each (List.range y.npos) fun s k =>
         s.sendRecord l y.ctx (y.p0 + k) 0 ((s.lastOutput l (a.2 + k)).flatMap fun b => leBytes 2 b.toNat), a.2 + y.npos)) (s, 0)).1
  else
    s.each (st.slots.filter fun y => y.discard.isNone) fun s y =>
      s.each ((List.range y.tokens.length).zip y.tokens) fun s t => s.sendRecord l y.ctx (y.p0 + y.npos + t.1) 1 (leBytes 4 t.2)

/-- The copies that a commit makes: virtual address, address in the tentative area and bytes of each accepted entry (R198). -/
def State.commitMoves (s : State) (x : Slot) (fs : List Nat) : List (Nat × Nat × Nat) :=
  let c := s.ctx x.ctx
  let im := s.imgOf c
  let hs := im.heads
  ((List.range x.accepted.length).zip x.accepted).flatMap fun y =>
    ((List.range hs.length).flatMap fun la => (List.range (hs.getD la 0)).map fun h => (la, h)).flatMap fun lh =>
      match im.attLayers[lh.1]? with
      | none => []
      | some (_, _, at_) =>
        let n := at_.nb * at_.bb
        let frame := fs.getD (y.2 / 16 * im.hSum + (hs.take lh.1).sum + lh.2) 0
        let pos := x.p0 + 1 + y.1
        let va := pageVa im c lh.1 lh.2 (pos / 16)
        [0, 16 * n].map fun area => (va + area + pos % 16 * n, frame + area + y.2 % 16 * n, n)

/-- Accepted entries copied from the tentative area into the context's pages under the settings of the step (R198); an access that faults
discards the context's work (R183): the answer is then its virtual address and nothing is committed. -/
def State.commitSpec (s : State) (x : Slot) (fs : List Nat) : State ⊕ Nat :=
  let l := (s.ctx x.ctx).placement
  let p := (s.ctx x.ctx).part
  let r := (s.commitMoves x fs).foldl (fun (a : State ⊕ Nat) m => match a with
    | .inl s => s.wrVa p m.1 (s.rdMem p m.2.1 m.2.2)
    | .inr v => .inr v) (.inl (s.asOf l))
  match r with
  | .inl s1 => .inl (s1.backFrom s l)
  | .inr v => .inr v

/-- The token of a position written to the history table (R219). -/
def State.putHist (s : State) (i q tok : Nat) : State :=
  s.wrMem 0 (s.fld Reg.SCH_HIST_TBL Fld.SCH_HIST_TBL_BASE * 2 ^ 29 + 128 * i + 4 * (q % 32)) (leBytes 4 tok)

/-- HIST records of tokens from a position on, at most 64 each (R385). -/
def State.histRecs (s : State) (i gen pos : Nat) (toks : List Nat) (emitted : Bool) : List JRec :=
  let c := s.ctx i
  ((List.range toks.length).zip (chunksOf 64 toks.length toks)).map fun x =>
    let body := (x.2.flatMap fun t => leBytes 4 t) ++ leBytes 4 (c.genLeft + b2n emitted * 65536)
    { kind := 2, ntok := x.2.length, place := c.placement, ctx := i, pos := pos + 64 * x.1, gen := gen,
      body := body ++ List.replicate ((16 - body.length % 16) % 16) 0 }

/-- The context after its slot retires with its work kept (R198, R220, R603), and whether its token is late (R235). -/
def State.advance (s : State) (x : Slot) : Ctx × Bool :=
  let c := s.ctx x.ctx
  let a := s.auxOf x.ctx
  let taken := match x.kind with
    | .prefill t _ => if a.redo.isEmpty then t - b2n c.pvalid else 0
    | _ => 0
  let pos := match x.kind with
    | .spec .. => c.pos + max 1 x.tokens.length
    | _ => c.pos + x.npos
  let gen := if c.genLeft = 0xFFFF then c.genLeft else c.genLeft - x.tokens.length
  let late := x.emits && !x.tokens.isEmpty && c.deadline ≠ 0 && c.deadline < s.time
  let stop := match (profOf x.prof).stop with
    | some t => x.tokens.contains t
    | none => false
  let halt := (x.emits && !x.tokens.isEmpty && (stop || gen = 0)) || c.lenMax ≤ pos || (late && !c.contLate)
  ({ c with pos := pos, pending := if x.emits then x.tokens.getLastD 0 else 0, pvalid := x.emits && !x.tokens.isEmpty,
            appCnt := c.appCnt - taken, appVa := if c.appCnt - taken = 0 then c.appVa else c.appVa + 4 * taken, genLeft := gen,
            st := if halt && c.st == .active then .paused else c.st, timestamp := s.time }, late)

/-- After the history of a takeover is prefilled, the last journaled token is pending (R388). -/
def State.redoDone (s : State) (x : Slot) : State :=
  let a := s.auxOf x.ctx
  if a.redo.isEmpty then s
  else
    let left := a.redo.drop x.npos
    let s1 := s.setAux x.ctx { a with redo := left }
    match left, a.redoPend with
    | [], some t =>
      ((s1.editCtx x.ctx { s1.ctx x.ctx with pending := t, pvalid := true }).setAux x.ctx { a with redo := [], redoPend := none }).redoFinish x.ctx
    | _, _ => s1

/-- The completion of one slot: its status and its bytes (R236, R293). -/
def State.slotOut (s : State) (l : Nat) (st : Step) (x : Slot) (c : Ctx) (status : Nat) (toks : List Nat) : Nat × Out :=
  let pos := if toks.isEmpty then (Config.emptyPosition s.free).toNat else match x.kind with
    | .spec .. => x.p0 + 1
    | _ => x.p0 + x.npos
  (pairKey c.part c.pair, { bytes := complBytes x.ctx status toks (if toks.isEmpty then [] else x.lps) pos st.gen l s.time,
                            isReply := false, place := some l })

/-- The commit of a slot: the state after it and the slot, discarded with VIOLATION where an access faults (R183, R198). -/
def State.commitSlot (s : State) (x : Slot) : State × Slot :=
  match x.kind with
  | .spec _ fs =>
    if x.discard.isSome || (s.ctx x.ctx).st == .closed then (s, x)
    else match s.commitSpec x fs with
      | .inl s1 => (s1, x)
      | .inr va => (s.violate (s.ctx x.ctx).part va 4 false false, x.drop stViolation)
  | _ => (s, x)

/-- What the retire of one slot leaves: the state, the completion if any, and its journal records. -/
def State.retireSlot (s : State) (l : Nat) (st : Step) (x0 : Slot) : State × List (Nat × Out) :=
  let (s, x) := s.commitSlot x0
  let i := x.ctx
  let c := s.ctx i
  let s := match x.kind with
    | .spec _ fs => if x.discard.isSome then s.poolBack c.part fs else s
    | _ => s
  if c.st == .closed then (s, [])
  else match x.discard with
    | some d =>
      let s1 := if x.stay then s.editCtx i { c with timestamp := s.time }
        else s.putCtx i { c with st := if c.st == .active then .paused else c.st, appCnt := if x.clearApp then 0 else c.appCnt }
      (s1.useFree, [s.slotOut l st x c d []])
    | none =>
      let (c1, late) := s.advance x
      let s1 := match x.kind with
        | .spec _ fs => s.poolBack c.part fs
        | _ => s
      let s2 := s1.each ((List.range x.inputs.length).zip x.inputs) fun s t => s.putHist i (x.p0 + t.1) t.2
      let s3 := s2.each ((List.range x.accepted.length).zip (x.tokens.take x.accepted.length)) fun s t => s.putHist i (x.p0 + 1 + t.1) t.2
      let s4 := ((s3.putCtx i c1).redoDone x).takeToken i
      let s5 := if s4.isReady i then s4.editCtx i { s4.ctx i with timestamp := s4.time } else s4
      let s6 := if late then s5.bump (Reg.SCH_PART_CNT c.part) Fld.SCH_PART_CNT_LATE else s5
      let prompt := if c.pvalid then x.inputs.drop 1 else x.inputs
      let recs := (match x.kind with
          | .prefill .. => s6.histRecs i st.gen (x.p0 + b2n c.pvalid) prompt false
          | _ => []) ++ (if x.tokens.isEmpty then [] else s6.histRecs i st.gen (x.p0 + (match x.kind with | .spec .. => 1 | _ => x.npos)) x.tokens true)
      let s7 := s6.jrnlCtx i recs
      let s8 := { s7 with fabric := { s7.fabric with relayed := s7.fabric.relayed.filter fun r =>
        !(r.1 == l && r.2.1 == i && x.p0 ≤ r.2.2 && r.2.2 < x.p0 + x.npos) } }
      let status := if late then stLate else if st.escalated then stEscalated else stOK
      (s8, if x.tokens.isEmpty then [] else [s.slotOut l st x c status x.tokens])

/-- Completions of one step handed to their rings in slot order; the last on each ring raises its vector (R27, R295). -/
def State.postStep (s : State) : List (Nat × Out) → State
  | [] => s
  | (k, o) :: t => (s.postHeld (k / 32) (k % 32) { o with irq := !(t.any fun x => x.1 == k) }).postStep t

/-- Pops for the page of the new position, after the step's completions (R186, R187, R191). -/
def State.retirePops (s : State) (slots : List Slot) : State :=
  s.each slots fun s x =>
    let c := s.ctx x.ctx
    if c.st == .closed || x.discard.isSome || c.lenMax ≤ c.pos || c.pos % 16 ≠ 0 && (s.auxOf x.ctx).needs.isEmpty && c.pos / 16 = x.p0 / 16 then s
    else match s.popFor c (selfPages (s.imgOf c) c c.pos 1) with
      | (s1, .ok) => s1
      | (s1, .starved left) => (s1.starve x.ctx left).complete x.ctx stStarved
      | (s1, .noTable _) => (s1.noTable x.ctx).complete x.ctx stViolation

/-- Completions in the buffer of quadrant q (R289). -/
def State.buffered (s : State) (q : Nat) : Nat :=
  let home := fun (o : Out) => match o.place with
    | some l => !o.isReply && (s.place l).home == q
    | none => false
  (s.pairs.map fun x => (x.2.out.filter home).length).sum + (s.twin.heldOut.filter fun x => home x.2.2).length

/-- Completions that a step writes, those of contexts that were not built with them. -/
def Step.outs (st : Step) : Nat := (st.slots.filter fun x => x.discard.isSome || !x.tokens.isEmpty).length + st.notBuilt.length

/-- The passes that form a placement's last layer and write its key-value entries: (tile, layer) for the last layer and every attention
layer, on each tile whose share is not empty (R27). -/
def State.lastPasses (s : State) (l : Nat) : List (Nat × Nat) :=
  let c := (s.place l).cfg
  let im := (s.model c.model).img
  ((List.range im.layers.length).filter fun k => match im.layers[k]? with
    | some y => (y.kind == 2 || y.kind == 3 || k + 1 == im.layers.length) && y.kind != 4
    | none => false).flatMap fun k =>
      (((List.range c.tiles.length).zip c.tiles).filter fun e =>
        ((((im.layers[k]?).bind fun y => y.shares[e.1]?).map Share.chunks).getD 0) != 0).map fun e => (e.2, k)

/-- The work of a step is complete (R27): every slot that emits is sampled or discarded, and where a context emits nothing the passes
that form the last layer and write key-value entries have forwarded. -/
def State.stepComplete (s : State) (l : Nat) (st : Step) : Bool :=
  (st.slots.all fun x => !x.emits || x.done) &&
    ((st.slots.all fun x => x.emits || x.discard.isSome) || (s.lastPasses l).all fun e => st.ran.contains e)

/-- The layer statistics table takes the step's counts; each field saturates (R64). -/
def State.writeStats (s : State) (l : Nat) (st : Step) : State :=
  let x := s.place l
  s.each st.layers fun s e =>
    let a := x.stats + 16 * e.1
    let add := fun k n => leBytes 4 (min (2 ^ 32 - 1) (s.rdNum x.part (a + k) 4 + n))
    s.wrMem x.part a (add 0 e.2.1 ++ add 4 e.2.2.1 ++ add 8 e.2.2.2.1 ++ add 12 e.2.2.2.2)

/-- The contexts of a step that are still ready at its cairn are noted for the sample (R26), and packets held for its contexts take
effect (R221). -/
def State.endStep (s : State) (l : Nat) (slots : List Slot) : State :=
  let s1 := s.setPlace l { s.place l with keptAt := s.now, kept := (slots.map Slot.ctx).filter s.isReady }
  s1.each slots fun s y => s.applyHeld y.ctx

/-- The retire of a step: completions, commits, states, settings, the next cairn (R27, R221, R225). -/
def State.retire (s : State) (l : Nat) (st : Step) : State :=
  let h0 := s.twin.heldOut.length
  let r := st.slots.foldl (fun (a : State × List (Nat × Out)) x =>
    let (s1, os) := a.1.retireSlot l st x
    (s1, a.2 ++ os)) (s, [])
  let s1 := (r.1.postStep r.2).noteAll st.notBuilt
  let s2 := (if s1.twin.heldOut.length = h0 then s1 else s1.bump Reg.TWN_CNT Fld.TWN_CNT_HELD).writeStats l st
  let measured : Rat := ((s2.now - st.builtAt : Nat) : Rat)
  let s3 := if 2000000 < measured then s2.bump (Reg.SCH_QSTAT (s2.place l).home) Fld.SCH_QSTAT_OVERRUN else s2
  let x := s3.place l
  let s4 := (s3.setPlace l { x with step := none, a := x.a + (measured - st.predicted) / 8, turnDone := x.turnDone + 1 }).dropStream l
  ((s4.retirePops st.slots).endStep l st.slots).cairn l

/-- STEP_RETIRE: a step whose work is complete retires when its relay records are answered and its completions fit. -/
def execStepRetire (placement at_ : Nat) (s : State) : Res :=
  let s := s.tick at_
  onObject (decide (placement < 1024))
    (match (s.place placement).step with
     | none => s
     | some st =>
       if !(s.stepComplete placement st) then s
       else
         let s1 := if st.relaySent then s else s.sendRelay placement st
         match (s1.place placement).step with
         | none => s1
         | some st1 =>
           if st1.relayOut = 0 && (st1.outs = 0 || s1.buffered (s1.place placement).home + st1.outs ≤ 16384) then s1.retire placement st1 else s1)

/-- COMPLETION_BUFFER_STALL: a completion of the placement has waited for more than 100 us, so no step of it is built until
its completions are written (R289). -/
def execCompletionBufferStall (placement at_ : Nat) (s : State) : Res :=
  let s := s.tick at_
  onObject (decide (placement < 1024))
    (if (s.waitingOf placement).any fun o => o.since + 100000 < s.now then
       s.setPlace placement { s.place placement with stalled := true }
     else s)

/-! ## Fences (R380, R497) -/

/-- The step in flight is abandoned: each context's work is discarded, with one FENCED completion (R29). -/
def State.abandon (s : State) (l : Nat) (pause : Bool) : State :=
  match (s.place l).step with
  | none => s
  | some st =>
    let slots := st.slots.map fun x => { x.drop stFenced with stay := !pause }
    let r := slots.foldl (fun (a : State × List (Nat × Out)) x =>
      let (s1, os) := a.1.retireSlot l st x
      (s1, a.2 ++ os)) (s, [])
    let s1 := (r.1.postStep r.2).noteAll st.notBuilt
    let s2 := s1.each (s1.place l).cfg.tiles fun s t => s.dropWork l t
    let s3 := (s2.setPlace l { s2.place l with step := none }).dropAhead l
    (s3.endStep l slots).cairn l

/-- What a fence does to a placement's work: its step is abandoned with FENCED completions and its contexts are PAUSED until a PLACE
is accepted (R381, R550). -/
def State.fenceWork (s : State) (l : Nat) : State :=
  let s1 := s.setPlace l { s.place l with fenced := true }
  let s2 := s1.abandon l true
  let s3 := s2.each (s2.ctxsOf l) fun s i =>
    let c := s.ctx i
    if c.st == .active then s.putCtx i { c with st := .paused, tree := none } else s.editCtx i { c with tree := none }
  { s3 with fabric := { s3.fabric with relayed := s3.fabric.relayed.filter (fun r => r.1 != l), tokens := s3.fabric.tokens.filter fun r => r.1 != l } }

/-- A placement is fenced at once (R380, R381): `lost` is the lost module, or 0xFFFF for memory. -/
def State.fencePlace (s : State) (l lost : Nat) : State :=
  if !(s.place l).present || (s.place l).fenced then s
  else
    let s1 := s.fenceWork l
    (s1.raise (s1.place l).part 19).fault 0x0401 2 srcHw l (leBytes 2 lost)

end Sys2Proof.Machine
end

