-- ==== Sys2Proof/Machine/PartItems.lean ====
section
/-! DEFINITION. The items of PART_SET: their checks and their effects (R207, R214, R217, R218, R229, R306, R522, R524, R525). -/

namespace Sys2Proof.Machine

/-- The partition holds a model, or a context that is not CLOSED. -/
def State.holds (s : State) (p : Nat) : Bool :=
  (s.models.any fun m => m.2.part == p && m.2.st != .absent) || !(s.ctxsOfPart p).isEmpty

/-- Two numbered ranges share a number. -/
def rangeHit (a n b m : Nat) : Bool := overlaps a n b m

/-- The other partitions that exist. -/
def State.others (s : State) (p : Nat) : List Nat := (List.range 64).filter fun q => q != p && s.partExists q

/-- Windows of other partitions. -/
def State.otherWindows (s : State) (p : Nat) : List (Nat × Nat) :=
  ((List.range 64).filter (· != p)).flatMap s.windows

/-- Ranges that no window and no ring area may overlap; a quadrant that is down has its range among them (R520, R522, R553). -/
def State.reservedRanges (s : State) : List (Nat × Nat) :=
  [s.sysRegion, s.journal] ++ (List.range 64).map s.ringArea ++
    ((List.range 4).filter fun q => bitOf (s.fld Reg.CLK_START Fld.CLK_START_QDOWN) q).map fun q => (q * 0xC000000000, 0xC000000000)

/-- A range overlaps one of a list. -/
def hitsAny (a n : Nat) (rs : List (Nat × Nat)) : Bool := rs.any fun r => overlaps a n r.1 r.2

/-- A number of tiles, tag or context count of a range pair. -/
def ringForm (v : BitVec 64) : Bool :=
  let lg := bitsOf v.toNat 0 5
  bitsOf v.toNat 5 7 = 0 && bitsOf v.toNat 42 22 = 0 && (lg = 0 || (8 ≤ lg && lg ≤ 22 && bitsOf v.toNat 0 42 / 4096 * 4096 % (8 * 2 ^ lg) = 0))

/-- MODE of an assigned tile (R596). -/
def State.tileMode (s : State) (t : Nat) : Nat := s.fld (Reg.CFG_TILE_MAP t) Fld.CFG_TILE_MAP_MODE
/-- Partitions that hold a tile. -/
def State.tileOwners (s : State) (t : Nat) : List Nat :=
  if s.tileMode t = 1 then [s.fld (Reg.CFG_TILE_MAP t) Fld.CFG_TILE_MAP_PART] else (s.tile t).assigned

/-- The TILES item may take effect on tile t (R524). -/
def State.tileFree (s : State) (p t mode : Nat) : Bool :=
  if mode = 0 then !((s.placesOf p).any fun l => (s.place l).cfg.tiles.contains t || (s.place l).change.any fun c => c.tiles.contains t)
  else if mode = 1 then (s.tileOwners t).all (· == p)
  else s.tileMode t != 1 || (s.tileOwners t).all (· == p)

/-- The checks of an item's value; `o` is the parameter offset of the item (R291, R306). -/
def State.valueChks (s : State) (p o : Nat) : PsItem → List Chk
  | .esc .. => []
  | .age _ _ _ r1 _ => [chkForm (r1 == 0) (o + 9)]
  | .ranges _ _ cf cc tf tc =>
    [chkForm (decide (cf.toNat < 2 ^ 22)) (o + 8), chkForm (decide (cf.toNat + cc.toNat ≤ 2 ^ 22)) (o + 12),
     chkForm (decide (tf.toNat + tc.toNat ≤ 2 ^ 16)) (o + 18),
     chkSt (!((s.others p).any fun q =>
        rangeHit cf.toNat cc.toNat (s.fld (Reg.SCH_CTX_RANGE q) Fld.SCH_CTX_RANGE_FIRST) (s.fld (Reg.SCH_CTX_RANGE q) Fld.SCH_CTX_RANGE_COUNT) ||
        rangeHit tf.toNat tc.toNat (s.fld (Reg.SCH_BKT_RANGE q) Fld.SCH_BKT_RANGE_FIRST) (s.fld (Reg.SCH_BKT_RANGE q) Fld.SCH_BKT_RANGE_COUNT)))
        stNoResource]
  | .buckets _ _ f n _ _ =>
    let r0 := s.fld (Reg.SCH_BKT_RANGE p) Fld.SCH_BKT_RANGE_FIRST
    let rn := s.fld (Reg.SCH_BKT_RANGE p) Fld.SCH_BKT_RANGE_COUNT
    match (List.range n.toNat).find? (fun k => !(r0 ≤ f.toNat + k && f.toNat + k < r0 + rn)) with
    | some k => [chkId false (f.toNat + k)]
    | none => []
  | .resRing _ _ v => [chkForm (ringForm v) (o + 8)]
  | .freeRing _ _ v => [chkForm (ringForm v) (o + 8)]
  | .scratch .. => []
  | .scree _ _ pa ttl base bytes =>
    [chkForm (decide (pa.toNat < 4096)) (o + 8), chkForm (decide (ttl.toNat < 4096)) (o + 10), chkForm (base.toNat % 65536 == 0) (o + 12),
     chkForm (bytes.toNat % 65536 == 0 &&
       !(bytes == 0 && s.ctxs.any fun x => x.2.part == p && x.2.st == .parked)) (o + 20)]
  | .profiles _ _ v => [chkForm (bitsOf v.toNat 44 20 == 0) (o + 8)]
  | .mmuRoot _ _ v => [chkForm (bitsOf v.toNat 1 16 == 0 && bitsOf v.toNat 42 22 == 0) (o + 8)]
  | .window _ _ i r1 base bytes =>
    let old := s.window (8 * p + i.toNat)
    [chkForm (decide (i.toNat < 8)) (o + 8), chkForm (r1 == 0) (o + 9),
     chkForm (base.toNat % 2 ^ 21 == 0 && decide (base.toNat < memEnd) &&
        (decide (bytes.toNat % 2 ^ 21 ≠ 0) || !(hitsAny base.toNat bytes.toNat (s.otherWindows p ++ s.reservedRanges)))) (o + 16),
     chkForm (bytes.toNat % 2 ^ 21 == 0 && decide (base.toNat + bytes.toNat ≤ memEnd)) (o + 24),
     chkSt (!(s.holds p && old.2 ≠ 0 && !(base.toNat ≤ old.1 && old.1 + old.2 ≤ base.toNat + bytes.toNat))) stDeferred]
  | .tiles _ _ f n mode r5 =>
    [chkForm (decide (f.toNat < 1024)) (o + 8), chkForm (decide (f.toNat + n.toNat ≤ 1024)) (o + 10), chkForm (decide (mode.toNat ≤ 2)) (o + 12),
     chkForm (r5 == 0) (o + 13),
     chkForm ((List.range n.toNat).all fun k => s.tileFree p (f.toNat + k) mode.toNat) (o + 8)]
  | .ids _ _ mf mc pf pc =>
    [chkForm (decide (mf.toNat < 4096)) (o + 8), chkForm (decide (mf.toNat + mc.toNat ≤ 4096)) (o + 10),
     chkForm (decide (pf.toNat < 1024)) (o + 12), chkForm (decide (pf.toNat + pc.toNat ≤ 1024)) (o + 14),
     chkSt (!((s.others p).any fun q =>
        let r := Reg.SCH_ID_RANGE q
        rangeHit mf.toNat mc.toNat (s.fld r Fld.SCH_ID_RANGE_MODEL_FIRST) (s.fld r Fld.SCH_ID_RANGE_MODEL_COUNT) ||
        rangeHit pf.toNat pc.toNat (s.fld r Fld.SCH_ID_RANGE_PLACE_FIRST) (s.fld r Fld.SCH_ID_RANGE_PLACE_COUNT))) stNoResource,
     chkSt ((s.models.all fun m => m.2.part != p || m.2.st == .absent || (mf.toNat ≤ m.1 && m.1 < mf.toNat + mc.toNat)) &&
        (s.placesOf p).all fun l => pf.toNat ≤ l && l < pf.toNat + pc.toNat) stDeferred]
  | .other .. => []

/-- An item's checks: code, rights, length, reserved bytes, value. -/
def State.itemChk (s : State) (issuer p o : Nat) (i : PsItem) : Chk :=
  firstFail ([chkForm i.wantLen.isSome o, chkId (!i.pf0 || issuer == 0) i.code, chkForm (i.wantLen == some i.len) (o + 2),
    chkForm (i.rsv == 0) (o + 4)] ++ s.valueChks p o i)

/-- Assignment of one tile (R524, R525, R596, R541). A tile that no partition has used yet is taken without a scrub. -/
def State.assignTile (s : State) (p t mode : Nat) : State :=
  let r := Reg.CFG_TILE_MAP t
  let rest := (s.tileOwners t).filter (· != p)
  let had := (s.tileOwners t).contains p
  if mode = 0 then
    if !had then s
    else
      let s1 := s.setTile t { s.tile t with assigned := rest }
      let s2 := (s1.setFld r Fld.CFG_TILE_MAP_PART 0).setFld r Fld.CFG_TILE_MAP_MODE (if rest.isEmpty then 0 else 2)
      if rest.isEmpty then s2.scrub t true (s.tile t).lastPart else s2
  else
    let s1 := if !rest.isEmpty || had || (s.tile t).lastPart == some p then s
      else if (s.tile t).lastPart.isNone then s.setTile t { s.tile t with lastPart := some p }
      else s.scrub t true (some p)
    let s2 := s1.setTile t { s1.tile t with assigned := if mode = 1 then [p] else rest ++ [p] }
    (s2.setFld r Fld.CFG_TILE_MAP_PART (if mode = 1 then p else 0)).setFld r Fld.CFG_TILE_MAP_MODE mode

/-- EXCL and SLICED of every partition from the tile assignments (R541). -/
def State.countTiles (s : State) (p : Nat) : State :=
  let n := fun mode => ((List.range 1024).filter fun t => s.tileMode t == mode && (s.tileOwners t).contains p).length
  (s.setFld (Reg.SEC_PART p) Fld.SEC_PART_EXCL (n 1)).setFld (Reg.SEC_PART p) Fld.SEC_PART_SLICED (n 2)

/-- The effect of an accepted item on partition p. -/
def State.applyItem (s : State) (p : Nat) : PsItem → State
  | .esc _ _ sat zro => (s.setFld (Reg.MDT_ESC_THR p) Fld.MDT_ESC_THR_ESC_SAT sat.toNat).setFld (Reg.MDT_ESC_THR p) Fld.MDT_ESC_THR_ESC_ZRO zro.toNat
  | .age _ _ st _ ti =>
    (s.setFld (Reg.SCH_AGE_CFG p) Fld.SCH_AGE_CFG_STARVE_STEPS st.toNat).setFld (Reg.SCH_AGE_CFG p) Fld.SCH_AGE_CFG_STARVE_TIME ti.toNat
  | .ranges _ _ cf cc tf tc =>
    (((s.setFld (Reg.SCH_CTX_RANGE p) Fld.SCH_CTX_RANGE_FIRST cf.toNat).setFld (Reg.SCH_CTX_RANGE p) Fld.SCH_CTX_RANGE_COUNT cc.toNat).setFld
      (Reg.SCH_BKT_RANGE p) Fld.SCH_BKT_RANGE_FIRST tf.toNat).setFld (Reg.SCH_BKT_RANGE p) Fld.SCH_BKT_RANGE_COUNT tc.toNat
  | .buckets _ _ f n rf bu =>
    let s1 := s.each (List.range n.toNat) fun s k =>
      s.wrMem 0 (s.bktAddr (f.toNat + k) + 4) (leBytes 4 rf.toNat ++ leBytes 4 bu.toNat)
    { s1 with sched := { s1.sched with bkts := (f.toNat, n.toNat, rf.toNat, bu.toNat) :: s1.sched.bkts } }
  | .resRing _ _ v => s.wrReg (Reg.KVT_RES_RING p) v
  | .freeRing _ _ v => s.wrReg (Reg.KVT_FREE_RING p) v
  | .scratch _ _ n => s.setFld (Reg.KVT_RES_CFG p) Fld.KVT_RES_CFG_SCRATCH n.toNat
  | .scree _ _ pa ttl base bytes =>
    let r := Reg.KVT_SCREE_CFG p
    let s1 := ((s.setFld r Fld.KVT_SCREE_CFG_PARK_AFTER pa.toNat).setFld r Fld.KVT_SCREE_CFG_TTL ttl.toNat).setFlag r
      Fld.KVT_SCREE_CFG_PARK_OFF (bytes == 0)
    s1.setPart p { s1.part p with screeBase := base.toNat, screeBytes := bytes.toNat }
  | .profiles _ _ v => s.wrReg (Reg.SMP_PROF_TBL p) v
  | .mmuRoot _ _ v => s.wrReg (Reg.MMU_ROOT p) v
  | .window _ _ i _ base bytes => s.setWindow (8 * p + i.toNat) base.toNat bytes.toNat
  | .tiles _ _ f n mode _ =>
    (s.each (List.range n.toNat) fun s k => s.assignTile p (f.toNat + k) mode.toNat).countTiles p
  | .ids _ _ mf mc pf pc =>
    let r := Reg.SCH_ID_RANGE p
    (((s.setFld r Fld.SCH_ID_RANGE_MODEL_FIRST mf.toNat).setFld r Fld.SCH_ID_RANGE_MODEL_COUNT mc.toNat).setFld r
      Fld.SCH_ID_RANGE_PLACE_FIRST pf.toNat).setFld r Fld.SCH_ID_RANGE_PLACE_COUNT pc.toNat
  | .other .. => s

/-- `n` items from parameter offset `o` on, checked and applied in order, each against what the earlier ones leave: first that it fits
the `len` bytes of parameters and is zero-padded, then its own checks; after the last no byte remains (R306). The state, or the first
failure. -/
def State.runItems (issuer p len : Nat) : Nat → Nat → List PsItem → List Nat → State → State ⊕ Chk
  | 0, o, _, _, s => if o = len then .inl s else .inr (.bad (badAt (16 + o)))
  | _ + 1, o, [], _, _ => .inr (.bad (badAt (16 + o)))
  | n + 1, o, i :: t, pads, s =>
    match itemMisfit i (pads.headD 0) o len with
    | some k => .inr (.bad (badAt (16 + k)))
    | none =>
      match s.itemChk issuer p o i with
      | .pass => State.runItems issuer p len n (o + i.size) t (pads.drop 1) (s.applyItem p i)
      | c => .inr c

/-- PART_SET as CP serves it (R306): one failing item refuses the packet and no item takes effect. Placements with no step in flight take
the settings at once, the others at their cairns (R13, R226); frames that wait go to a free ring in force. -/
def State.svcPartSet (s : State) (h : Hdr) (hd : PsHead) (items : List PsItem) : State :=
  let p := hd.target.toNat
  s.checked h 0x42
    [chkForm (decide (p < 64) && (h.fn != 0 || s.partExists p)) 0, chkId (h.fn == 0 || p == h.fn) p,
     chkForm (1 ≤ hd.nItems.toNat && hd.nItems.toNat ≤ 14) 1, chkForm (hd.rsv == 0) 2] fun s =>
    match State.runItems h.fn p h.length.toNat hd.nItems.toNat 8 items hd.pads s with
    | .inl s1 =>
      let s2 := s1.idleCairns p
      (if (s2.busyPlaces (s2.placesOf p)).isEmpty then s2.freeRun p else s2).reply h 0x42 stOK 0 0
    | .inr c => s.fail h 0x42 c

end Sys2Proof.Machine
end

