-- ==== Sys2Proof/Machine/Images.lean ====
section
/-! DEFINITION. The Derur image: its tables read from bytes and the checks of MODEL_LOAD (R255 to R261, R120, R121, R145, R175).
A check answers none, or the status and DETAIL of its failure. -/

namespace Sys2Proof.Machine

/-- DETAIL form 2 naming a layer (R292). -/
def atLayer (l : Nat) : Nat := 2 * 2 ^ 30 + l
/-- DETAIL form 2 naming the image header. -/
def atHeader : Nat := 2 * 2 ^ 30 + 0x3FFFFFFF

/-- A failed image check: status and DETAIL. -/
abbrev ImgErr := Option (Nat × Nat)

/-- A condition of the image, or BAD_PACKET naming an object. -/
def need (ok : Bool) (who : Nat) : ImgErr := if ok then none else some (stBadPacket, who)

/-- The first failure of a list of checks. -/
def firstErr (cs : List ImgErr) : ImgErr := (cs.find? Option.isSome).join

/-- A number of n bytes in an image. -/
def numAt (b : List Byte) (o n : Nat) : Nat := ofLeBytes ((b.drop o).take n)

/-- N_LAYERS. -/
def imgLayers (b : List Byte) : Nat := numAt b 16 2
/-- N_ATT. -/
def imgAtts (b : List Byte) : Nat := numAt b 18 2

/-- A share directory entry (R257). -/
def shareAt (b : List Byte) (o : Nat) : Share :=
  { kFirst := numAt b o 4, kCount := numAt b (o + 4) 4, nFirst := numAt b (o + 8) 4, nCount := numAt b (o + 12) 4,
    wsOff := numAt b (o + 16) 8, woutN := numAt b (o + 24) 4, woutOff := numAt b (o + 32) 8, repOff := numAt b (o + 40) 8 }

/-- A layer table entry with its directory (R256). -/
def layerAt (b : List Byte) (tiles o : Nat) : Layer :=
  { kind := numAt b o 1, wfmt := numAt b (o + 1) 1, afmt := numAt b (o + 2) 1, pin := numAt b (o + 3) 1, ascale := numAt b (o + 4) 1,
    norm := numAt b (o + 5) 1, act := numAt b (o + 6) 1, lflags := numAt b (o + 7) 1, k := numAt b (o + 8) 4, n := numAt b (o + 12) 4,
    theta := BitVec.ofNat 32 (numAt b (o + 16) 4), attIdx := numAt b (o + 20) 2, split := numAt b (o + 22) 1,
    wOff := numAt b (o + 24) 8, wBytes := numAt b (o + 32) 8, wCap := numAt b (o + 40) 8, dirOff := numAt b (o + 48) 8,
    nExp := numAt b (o + 56) 4, top := numAt b (o + 60) 1,
    shares := (List.range tiles).map fun i => shareAt b (numAt b (o + 48) 8 + 48 * i) }

/-- An attention table entry (R259). -/
def attAt (b : List Byte) (o : Nat) : Att :=
  { dh := numAt b o 2, g := numAt b (o + 2) 1, srep := numAt b (o + 3) 1, seg := numAt b (o + 4) 2, kvf := numAt b (o + 6) 1,
    hkv := numAt b (o + 7) 1, sigma := BitVec.ofNat 32 (numAt b (o + 8) 4), vscaleOff := numAt b (o + 16) 8,
    vscale := (List.range (numAt b (o + 7) 1)).map fun i => numAt b (numAt b (o + 16) 8 + i) 1 }

/-- The tables of an image (R255). -/
def imageOf (b : List Byte) : Image :=
  let tiles := numAt b 20 2
  { bytes := numAt b 8 8, tiles := tiles, frameLog2 := numAt b 22 1, sparse := bitOf (numAt b 23 1) 0, vocab := numAt b 24 4,
    shardIdx := numAt b 28 2, shardCnt := numAt b 30 2, hintA := BitVec.ofNat 32 (numAt b 32 4),
    hintB := BitVec.ofNat 32 (numAt b 36 4), layerTbl := numAt b 40 8, attTbl := numAt b 48 8,
    layers := (List.range (imgLayers b)).map fun i => layerAt b tiles (numAt b 40 8 + 64 * i),
    atts := (List.range (imgAtts b)).map fun i => attAt b (numAt b 48 8 + 32 * i) }

/-- The header (R255, R261); `total` is the number of bytes the source gives. -/
def hdrErr (b : List Byte) (total : Nat) : ImgErr :=
  let nb := numAt b 8 8
  need (numAt b 0 4 == 0x0832D3B0 && numAt b 4 1 == 0 && numAt b 5 1 == 1 && numAt b 6 2 == 64 && decide (nb ≤ total) &&
    decide (64 ≤ nb) && decide (1 ≤ imgLayers b) && decide (imgLayers b ≤ 4096) && decide (imgAtts b ≤ imgLayers b) &&
    decide (1 ≤ numAt b 20 2) && decide (numAt b 20 2 ≤ 1024) && decide (12 ≤ numAt b 22 1) && decide (numAt b 22 1 ≤ 15) &&
    decide (numAt b 23 1 < 2) && decide (1 ≤ numAt b 24 4) && decide (numAt b 24 4 ≤ 262144) && decide (1 ≤ numAt b 30 2) &&
    decide (numAt b 30 2 ≤ 64) && decide (numAt b 28 2 < numAt b 30 2) && numAt b 56 8 == 0 &&
    (imgAtts b != 0 || numAt b 48 8 == 0) && decide (numAt b 40 8 + 64 * imgLayers b ≤ nb) &&
    decide (numAt b 48 8 + 32 * imgAtts b ≤ nb)) atHeader

/-- The EMBED layer whose weights a SHARED_W layer uses (R256). -/
def Image.embedAt (im : Image) (off : Nat) : Option Layer := im.layers.find? fun e => e.kind == 4 && e.wOff == off && !(bitOf e.lflags 1)

/-- The range checks of layer entry i (R256, R257). -/
def layerErr (b : List Byte) (im : Image) (i : Nat) (l : Layer) : ImgErr :=
  let o := im.layerTbl + 64 * i
  let att := l.kind == 2 || l.kind == 3
  let shared := bitOf l.lflags 1
  let room := if shared then ((im.embedAt l.wOff).map Layer.wBytes).getD 0 else expertStride l
  need (decide (1 ≤ l.kind) && decide (l.kind ≤ 6) && decide (1 ≤ l.wfmt) && decide (l.wfmt ≤ 5) && decide (3 ≤ l.afmt) &&
    decide (l.afmt ≤ 5) && decide (l.pin ≤ 4) && decide (l.norm ≤ 2) && decide (l.act ≤ 4) && decide (l.lflags < 4) &&
    decide (1 ≤ l.k) && decide (l.k ≤ 2 ^ 24) && decide (1 ≤ l.n) && decide (l.n ≤ 2 ^ 24) &&
    (if att then decide (l.attIdx < im.atts.length) else l.attIdx == 0xFFFF) && decide (1 ≤ l.split) && decide (l.split ≤ 64) &&
    numAt b (o + 23) 1 == 0 && l.wOff % 64 == 0 && decide (l.wBytes ≤ l.wCap) && decide (l.wOff + l.wCap ≤ im.bytes) &&
    decide (l.dirOff + 48 * im.tiles ≤ im.bytes) &&
    (if l.kind = 6 then decide (1 ≤ l.nExp) && decide (l.nExp ≤ 1024) && decide (1 ≤ l.top) && decide (l.top ≤ l.nExp)
     else l.nExp == 0 && l.top == 0) && numAt b (o + 61) 3 == 0 && (!shared || (im.embedAt l.wOff).isSome) &&
    ((List.range im.tiles).zip l.shares).all fun x =>
      decide (1 ≤ x.2.kCount) && decide (x.2.kCount ≤ 65536) && numAt b (l.dirOff + 48 * x.1 + 28) 4 == 0 &&
      decide (x.2.wsOff + shareBytes l x.2 ≤ room) && (decide (4096 < x.2.woutN) || decide (x.2.woutOff + 8 * x.2.woutN ≤ im.bytes)) &&
      decide (x.2.repOff + 2 * x.2.kCount ≤ im.bytes)) (atLayer i)

/-- Ranges (first, count) in order tile 0 to n exactly. -/
def tiled (n : Nat) : List (Nat × Nat) → Nat → Bool
  | [], at_ => at_ == n
  | (f, c) :: t, at_ => f == at_ && tiled n t (at_ + c)

/-- The distinct reduction ranges of a layer's shares, ascending: its K-parts (R43). -/
def kParts (l : Layer) : List (Nat × Nat) :=
  sortBy (fun a b => decide (a.1 < b.1)) ((l.shares.map fun x => (x.kFirst, x.kCount)).eraseDups)

/-- The shares cover the layer exactly once and their reduction ranges form SPLIT contiguous K-parts (R257, R43). -/
def coverErr (i : Nat) (l : Layer) : ImgErr :=
  let ps := kParts l
  need (ps.length == l.split && tiled l.k ps 0 && ps.all fun p =>
    tiled l.n (sortBy (fun (a b : Nat × Nat) => decide (a.1 < b.1) || (a.1 == b.1 && decide (a.2 < b.2)))
      ((l.shares.filter fun x => (x.kFirst, x.kCount) == p).map fun x => (x.nFirst, x.nCount))) 0) (atLayer i)

/-- The first layer that uses an attention entry; the header where none does. -/
def attUser (im : Image) (a : Nat) : Nat :=
  match im.layers.findIdx? fun l => (l.kind == 2 || l.kind == 3) && l.attIdx == a with
  | some l => atLayer l
  | none => atHeader

/-- The checks of attention entry i (R145, R259, R175). -/
def attErr (b : List Byte) (im : Image) (i : Nat) (a : Att) : ImgErr :=
  let o := im.attTbl + 32 * i
  need (decide (8 ≤ a.dh) && decide (a.dh ≤ 256) && a.dh % 8 == 0 && decide (1 ≤ a.g) && decide (a.g ≤ 64) &&
    [1, 2, 4, 8].contains a.srep && [16, 64, 256].contains a.seg && (a.seg != 256 || decide (a.dh ≤ 128)) &&
    (a.kvf == 4 || a.kvf == 5) && decide (1 ≤ a.hkv) && fFinite a.sigma && fGt a.sigma 0 && numAt b (o + 12) 4 == 0 &&
    numAt b (o + 24) 8 == 0 && decide (a.vscaleOff + a.hkv ≤ im.bytes) && decide (a.pageBytes ≤ im.frame)) (attUser im i)

/-- The ranges of an image with the object each belongs to: header, tables and directories first, then the rest (R261). -/
def Image.tables (im : Image) : List (Nat × Nat × Nat) :=
  [(0, 64, atHeader), (im.layerTbl, 64 * im.layers.length, atHeader), (im.attTbl, 32 * im.atts.length, atHeader)] ++
    ((List.range im.layers.length).zip im.layers).map fun x => (x.2.dirOff, 48 * im.tiles, atLayer x.1)

/-- Weight regions, outlier tables, repair tables and VSCALE bytes; regions under SHARED_W are exempt. -/
def Image.regions (im : Image) : List (Nat × Nat × Nat) :=
  (((List.range im.layers.length).zip im.layers).flatMap fun x =>
    (if bitOf x.2.lflags 1 then [] else [(x.2.wOff, x.2.wCap, atLayer x.1)]) ++
      x.2.shares.flatMap fun sh => [(sh.woutOff, if 4096 < sh.woutN then 0 else 8 * sh.woutN, atLayer x.1), (sh.repOff, 2 * sh.kCount, atLayer x.1)]) ++
    ((List.range im.atts.length).zip im.atts).map fun x => (x.2.vscaleOff, x.2.hkv, attUser im x.1)

/-- The first range, by offset, that begins inside an earlier one. -/
def overlapIn : List (Nat × Nat × Nat) → Nat → ImgErr
  | [], _ => none
  | (o, n, who) :: t, top => if n = 0 then overlapIn t top else if o < top then some (stBadPacket, who) else overlapIn t (max top (o + n))

/-- Offset of the lowest weight region. -/
def Image.lowest (im : Image) : Nat :=
  (im.layers.filter fun l => !(bitOf l.lflags 1) && l.wCap != 0).foldl (fun m l => min m l.wOff) im.bytes

/-- The tables, before any weight region is written; last, that no share names more than 4,096 outlier entries (R121, R260, R261). -/
def tablesErr (b : List Byte) (total : Nat) : ImgErr :=
  match hdrErr b total with
  | some e => some e
  | none =>
    let im := imageOf b
    let ls := (List.range im.layers.length).zip im.layers
    firstErr (
      ls.map (fun x => layerErr b im x.1 x.2) ++ ((List.range im.atts.length).zip im.atts).map (fun x => attErr b im x.1 x.2) ++
      ls.map (fun x => coverErr x.1 x.2) ++
      [overlapIn (sortBy (fun (a b : Nat × Nat × Nat) => decide (a.1 < b.1)) (im.tables ++ im.regions)) 0,
       ((im.tables.find? fun t => im.lowest < t.1 + t.2.1 && t.2.1 != 0).map fun t => (stBadPacket, t.2.2))] ++
      ls.map fun x => if x.2.shares.any fun sh => decide (4096 < sh.woutN) then some (stNoResource, atLayer x.1) else none)

/-- A weight-outlier entry (R120): ROW, COL, VALUE and SCALE. -/
def woutAt (b : List Byte) (o : Nat) : Nat × Nat × Int × Nat :=
  (numAt b o 2, numAt b (o + 2) 2, signed 8 (numAt b (o + 4) 1), numAt b (o + 5) 1)

/-- The entries of a table are well formed and in order (R121). -/
def woutOk (b : List Byte) (sh : Share) : Bool :=
  let es := (List.range sh.woutN).map fun i => woutAt b (sh.woutOff + 8 * i)
  (List.range sh.woutN).all (fun i => numAt b (sh.woutOff + 8 * i + 6) 2 == 0) &&
  es.all (fun e => e.2.2.1 != -128 && e.2.2.2 != 0xFF && decide (e.1 < sh.kCount) && decide (e.2.1 < sh.nCount)) &&
  (es.zip (es.drop 1)).all fun x => decide (x.1.1 < x.2.1) || (x.1.1 == x.2.1 && decide (x.1.2.1 < x.2.2.1))

/-- The check of one share's outlier table. -/
def woutErr (b : List Byte) (l : Nat) (sh : Share) : ImgErr := need (woutOk b sh) (atLayer l)

/-- The outlier tables of a layer (R121). -/
def layerWoutErr (b : List Byte) (im : Image) (i : Nat) : ImgErr :=
  match im.layers[i]? with
  | some l => firstErr (l.shares.map fun sh => woutErr b i sh)
  | none => none

/-- The VSCALE bytes of the attention entries (R145). -/
def vscaleErr (im : Image) : ImgErr :=
  firstErr (((List.range im.atts.length).zip im.atts).map fun x => need (x.2.vscale.all fun v => v != 0xFF) (attUser im x.1))

/-- The outlier tables and VSCALE bytes that arrive in bytes [lo, hi), in image order (R260, R145). -/
def arrivedErr (b : List Byte) (im : Image) (lo hi : Nat) : ImgErr :=
  let within := fun (e : Nat) => lo < e && e ≤ hi
  let ts := ((List.range im.layers.length).zip im.layers).flatMap fun x =>
    (x.2.shares.filter fun sh => sh.woutN != 0 && within (sh.woutOff + 8 * sh.woutN)).map fun sh =>
      (sh.woutOff, woutErr b x.1 sh)
  let vs := ((List.range im.atts.length).zip im.atts).filterMap fun x =>
    if within (x.2.vscaleOff + x.2.hkv) then some (x.2.vscaleOff, need (x.2.vscale.all fun v => v != 0xFF) (attUser im x.1)) else none
  firstErr ((sortBy (fun (a b : Nat × ImgErr) => decide (a.1 < b.1)) (ts ++ vs)).map Prod.snd)

/-- The compatibility of a new image with the old one (R273): the object that differs. -/
def swapErr (o n : Image) : ImgErr :=
  let hdr := { o with hintA := 0, hintB := 0, layers := [], atts := [] } == ({ n with hintA := 0, hintB := 0, layers := [], atts := [] } : Image) &&
    o.layers.length == n.layers.length && o.atts.length == n.atts.length
  firstErr ([need hdr atHeader] ++
    (((List.range n.layers.length).zip (o.layers.zip n.layers)).map fun x =>
      let a := x.2.1
      let b := x.2.2
      need (a.kind == b.kind && a.wfmt == b.wfmt && a.afmt == b.afmt && a.k == b.k && a.n == b.n && a.attIdx == b.attIdx &&
        a.split == b.split && a.nExp == b.nExp && a.top == b.top && a.wOff == b.wOff && a.dirOff == b.dirOff &&
        decide (b.wBytes ≤ a.wCap)) (atLayer x.1)) ++
    (((List.range n.atts.length).zip (o.atts.zip n.atts)).map fun x =>
      need ({ x.2.1 with vscale := [], sigma := 0 } == ({ x.2.2 with vscale := [], sigma := 0 } : Att)) (attUser n x.1)))

end Sys2Proof.Machine
end

