-- ==== Sys2Proof/Machine/Models.lean ====
section
/-! DEFINITION. Models: MODEL_LOAD, chains, MODEL_SWAP, MODEL_UNLOAD and PLACE (R260 to R281, R304, R305). The exec definitions of
the packets stand with the service of their processor; here is what the processor does. -/

namespace Sys2Proof.Machine

/-! ## Chains (R263 to R265) -/

/-- Kinds of MGMT payload, byte 0 (log entry 13): 1 pairing, 2 unpairing, 3 chain opening, 4 last chunk taken, 5 a member of a chain gone,
6 time record, 7 a chain's opening answered. -/
def mgChainOpen : Nat := 3
/-- Last chunk taken. -/
def mgChainDone : Nat := 4
/-- A member of a chain is gone. -/
def mgChainGone : Nat := 5
/-- A member with an accepted load answers the opening. -/
def mgChainAnswer : Nat := 7

/-- The opening message from this module of a chain to the next: source of the head, tag, head, hops, members after the next one, bytes of
the image (log entry 13). -/
def chainOpening (c : Chain) : List Byte :=
  leBytes 1 mgChainOpen ++ leBytes 1 c.src ++ leBytes 2 c.tag ++ leBytes 2 c.head ++ leBytes 1 (c.hop + 1) ++ leBytes 1 (c.members.length - 1) ++
    leBytes 8 c.total ++ (c.members.drop 1).flatMap fun m => leBytes 2 m

/-- The opening message passes along the chain to the next member (R263). -/
def State.passOpening (s : State) (c : Chain) : State :=
  match c.members.head? with
  | some m => s.request m 7 c.fn 0 (chainOpening c) none
  | none => s

/-- A message about a chain to another module of it; bytes 4 to 5 name a module that is gone, bytes 6 to 7 the head (log entry 13). -/
def State.tellChain (s : State) (c : Chain) (dest kind who : Nat) : State :=
  s.request dest 7 c.fn 0 (leBytes 1 kind ++ leBytes 1 0 ++ leBytes 2 c.tag ++ leBytes 2 who ++ leBytes 2 c.head) none

/-- The load with a number learns the length of its image (R263). -/
def State.loadLength (s : State) (op total : Nat) : State :=
  { s with longOps := s.longOps.map fun o => match o.pkt with
      | .modelLoad .. => if o.id = op then { o with total := total } else o
      | _ => o }

/-- A member whose load is accepted takes the opening message: it learns the module before it, those after it and the image's size, passes
the opening on and answers the head (R263). -/
def State.takeOpening (s : State) (c : Chain) (m : FMsg) : State :=
  let b := m.payload
  let c1 := { c with opened := true, src := sliceNum b 1 1, prev := m.src, hop := sliceNum b 6 1, total := sliceNum b 8 8,
                     members := (List.range (sliceNum b 7 1)).map fun k => sliceNum b (16 + 2 * k) 2 }
  (((s.setChain c1).loadLength c.op c1.total).passOpening c1).tellChain c1 c1.head mgChainAnswer 0

/-- The opening message belongs to a member's chain. -/
def opens (c : Chain) (me : Nat) (m : FMsg) : Bool :=
  c.head != me && c.head == sliceNum m.payload 4 2 && c.tag == sliceNum m.payload 2 2

/-- An opening message arrives: it is taken where the load is accepted, and otherwise kept for 1 s for a load that comes (R263). -/
def State.openingCame (s : State) (m : FMsg) : State :=
  match s.fabric.chains.find? fun c => opens c s.myId m with
  | some c => if c.opened then s else s.takeOpening c m
  | none => { s with fabric := { s.fabric with openings := s.fabric.openings ++ [(m, s.now)] } }

/-- The opening message that came before a member's load. -/
def State.earlyOpening (s : State) (c : Chain) : State :=
  let live := s.fabric.openings.filter fun x => decide (s.now < x.2 + 1000000000)
  match live.find? fun x => opens c s.myId x.1 with
  | some x => { s with fabric := { s.fabric with openings := live.erase x } }.takeOpening c x.1
  | none => { s with fabric := { s.fabric with openings := live } }

/-- Chunks forwarded to the next member as two CHAIN messages each (R264). -/
def State.forwardHalves (s : State) (c : Chain) (off : Nat) (bs : List Byte) : State :=
  match c.members.head? with
  | none => s
  | some m => s.each ((List.range (ceilDiv bs.length 32768))) fun s k =>
      s.request m 2 c.fn (off + 32768 * k) ((bs.drop (32768 * k)).take 32768) none

/-! ## MODEL_LOAD -/

/-- The model is the source of a swap in progress. -/
def State.isSource (s : State) (m : Nat) : Bool := s.models.any fun x => match x.2.swap with
  | some w => w.srcModel == some m
  | none => false

/-- LOADING, SWAPPING or UNLOADING. -/
def ModelState.busy (m : ModelState) : Bool := m == .loading || m == .swapping || m == .unloading

/-- The model ID lies in the partition's range (R218). -/
def State.chkModel (s : State) (p m : Nat) (o : Nat) : List Chk :=
  let f := s.fld (Reg.SCH_ID_RANGE p) Fld.SCH_ID_RANGE_MODEL_FIRST
  let n := s.fld (Reg.SCH_ID_RANGE p) Fld.SCH_ID_RANGE_MODEL_COUNT
  [chkForm (decide (m < 4096)) o, chkId (decide (f ≤ m) && decide (m < f + n)) m]

/-- Bytes that the source gives; for CHAIN they are known at the opening. -/
def State.srcTotal (s : State) (q : LoadParams) : Nat :=
  match q.source.toNat with
  | 0 => q.srcBytes.toNat
  | 1 => 0
  | _ => (s.model q.src.toNat).img.bytes

/-- The source model of SOURCE MODEL: its form, its range, that it is a model of the partition, and its state (R218, R273, R304, R311). -/
def State.chkSource (s : State) (p : Nat) (q : LoadParams) (swap : Bool) : List Chk :=
  let m := q.src.toNat
  let x := s.model m
  s.chkModel p m 16 ++ [chkForm (x.st != .absent && x.part == p && x.st != .incomplete && !(swap && m == q.modelId.toNat)) 16,
    chkSt (!x.st.busy) stDeferred]

/-- The parameters that MODEL_LOAD and MODEL_SWAP share, from SOURCE on, in ascending offset (R291, R304). -/
def State.srcChks (s : State) (p : Nat) (q : LoadParams) (swap : Bool) : List Chk :=
  let src := q.source.toNat
  [chkForm (decide (src ≤ 2)) 2, chkForm (decide (q.nMembers.toNat ≤ 63) && (src != 1 || q.nMembers == 0)) 3,
   chkForm (src != 1 || decide (q.head.toNat < 16384)) 6, chkForm (!swap || q.destVa == 0) 8,
   if swap || src = 1 then .pass else s.chkVa p q.destVa.toNat (s.srcTotal q)] ++
  (match src with
    | 0 => []
    | 1 => [chkForm (q.src == 0) 16]
    | _ => s.chkSource p q swap) ++
  [chkForm (src == 0 || q.srcBytes == 0) 24,
   chkForm ((List.range q.members.length).all fun k => if k < q.nMembers.toNat then (q.members.getD k 0).toNat < 16384 else q.members.getD k 0 == 0) 32]

/-- Bytes that a chain moves: the image's length, where the head's source is host memory by its header (R264). -/
def chainTotal (q : LoadParams) (image : List Byte) (total : Nat) : Nat :=
  if q.source = 0 && 16 ≤ image.length then min total (numAt image 8 8) else total

/-- A load or swap that takes part in a chain gets its record; a head sends the opening message along it, a member takes one that has
come already. -/
def State.joinChain (s : State) (o : LongOp) (q : LoadParams) (total : Nat) : State :=
  let me := s.myId
  let c : Chain :=
    { fn := o.h.fn, op := o.id, model := q.modelId.toNat, tag := q.chainTag.toNat,
      head := if q.source = 1 then q.head.toNat else me, members := (q.members.take q.nMembers.toNat).map BitVec.toNat,
      opened := q.source != 1, startAt := s.now, src := q.source.toNat, total := total }
  if q.source = 1 || q.nMembers != 0 then
    let s1 := { s with fabric := { s.fabric with chains := s.fabric.chains ++ [c] } }
    if q.source = 1 then s1.earlyOpening c else s1.passOpening c
  else s

/-- MODEL_LOAD as CP starts it (R261, R272). -/
def State.svcModelLoad (s : State) (h : Hdr) (q : LoadParams) (image : List Byte) : State :=
  let m := q.modelId.toNat
  let total := s.srcTotal q
  s.checked h 0x48 (s.chkModel h.fn m 0 ++ [chkForm ((s.model m).st == .absent) 0] ++ s.srcChks h.fn q false) fun s =>
    s.startLong h (.modelLoad q image) total fun o s =>
      (s.setModel m { st := .loading, part := h.fn, dest := q.destVa.toNat }).joinChain o q (chainTotal q image total)

/-- A load ends without a model: its chain goes on forwarding (R264). -/
def State.failLoad (s : State) (o : LongOp) (m status detail result : Nat) : State :=
  (s.setModel m {}).endLong o status detail result

/-- The tables of an image have arrived, or the first byte of a weight region has. -/
def tablesReady (b : List Byte) (total : Nat) : Bool :=
  let im := imageOf b
  total ≤ b.length || (im.layerTbl + 64 * im.layers.length ≤ b.length &&
    (im.lowest < b.length || im.tables.all fun t => t.1 + t.2.1 ≤ b.length))

/-- What is checked of an image when its bytes reach `b`, the first `had` of them already taken; `stage` 0: header not yet
checked, 1: tables not yet. The next stage and the failure (R260, R261). -/
def arriveErr (b : List Byte) (total had stage : Nat) : Nat × ImgErr :=
  if b.length < 64 && b.length < total then (0, none)
  else
    match if stage = 0 then hdrErr b total else none with
    | some e => (0, some e)
    | none =>
      if stage < 2 && !(tablesReady b (numAt b 8 8)) then (1, none)
      else
        match if stage < 2 then tablesErr b total else none with
        | some e => (1, some e)
        | none => (2, arrivedErr b (imageOf b) (if stage < 2 then 0 else had) b.length)

/-- Every member of a head's chain has taken the last chunk, or is lost. -/
def Chain.settled (c : Chain) : Bool := c.members.all fun m => c.delivered.contains m || c.gone.contains m

/-- A load whose bytes have all arrived completes; a chain head waits for its members (R265, R271). -/
def State.finishLoad (s : State) (o : LongOp) (m : Nat) : State :=
  let c := s.chainOf o.id
  let head := match c with
    | some c => c.head == s.myId
    | none => false
  let settled := match c with
    | some c => !head || c.settled
    | none => true
  if o.done < o.total || o.total = 0 || !settled then s
  else
    let s1 := s.dropChain o.id
    match o.failed with
    | some e => s1.failLoad o m e.1 e.2 0
    | none =>
      (s1.setModel m { s1.model m with st := .loaded, gen := 1, img := imageOf o.data }).endLong o stOK
        (match c with | some c => if head then c.delivered.length else 0 | none => 0) 0

/-- Bytes of a load arrive: they are checked, written to the destination and forwarded along the chain. -/
def State.arriveLoad (s : State) (o : LongOp) (m : Nat) (bs : List Byte) : State :=
  let c := s.chainOf o.id
  let heads := match c with
    | some c => c.head == s.myId
    | none => false
  let b := o.data ++ bs
  let (stage, err) := if o.failed.isSome then (o.stage, none) else arriveErr b o.total o.done o.stage
  let total := if o.stage = 0 && 1 ≤ stage then numAt b 8 8 else o.total
  let s1 := match c with
    | some c => if heads then s.forwardHalves c o.done bs else s
    | none => s
  match err with
  | some e =>
    if heads then (s1.advanceLong { o with failed := some e, data := b } b.length).finishLoad { o with failed := some e, done := b.length } m
    else s1.failLoad o m e.1 e.2 0
  | none =>
    let s2 : State ⊕ Nat := if o.failed.isSome then .inl s1 else s1.wrVa o.h.fn ((s1.model m).dest + o.done) bs
    match s2 with
    | .inl s3 =>
      let o1 := { o with data := b, stage := stage, total := total }
      let s4 := s3.advanceLong o1 b.length
      s4.finishLoad ((s4.longOf o.id).getD o1) m
    | .inr a => (s1.violate o.h.fn a 4 false false).failLoad o m stViolation 0 (a % 2 ^ 48)

/-- The next `n` bytes of a source that is no chain. -/
def State.srcBytes (s : State) (o : LongOp) (q : LoadParams) (image : List Byte) (n : Nat) : List Byte ⊕ Nat :=
  if q.source = 0 then .inl ((image.drop o.done).take n) else s.rdVa o.h.fn ((s.model q.src.toNat).dest + o.done) n

/-- A slice of a MODEL_LOAD: `n` bytes. A chain head starts when every member has answered (R263); a whole number of chunks
leaves at a time. -/
def State.sliceLoad (s : State) (o : LongOp) (q : LoadParams) (image : List Byte) (n : Nat) : State :=
  let m := q.modelId.toNat
  let go := match s.chainOf o.id with
    | some c => q.source != 1 && c.members.all fun x => c.answered.contains x
    | none => true
  if q.source = 1 || !go then s
  else
    let k := if q.nMembers = 0 then n else ceilDiv n 65536 * 65536
    let k := min k (o.total - o.done)
    match s.srcBytes o q image k with
    | .inl bs => if bs.isEmpty && o.done < o.total then s.failLoad o m stBadPacket atHeader 0 else s.arriveLoad o m bs
    | .inr a => (s.violate o.h.fn a 4 false false).failLoad o m stViolation 0 (a % 2 ^ 48)

/-- The port to the next member holds no message of the bulk channel back (R264, R362). -/
def State.forwardFree (s : State) (c : Chain) : Bool :=
  match c.members.head? with
  | none => true
  | some m => match s.route ⟨m, s.myId, 2 + opChannel 2 * 16, c.fn, 0, 0, []⟩ with
    | some n => !((s.port n).txWait.any fun y => opChannel (y.op % 16) == 2)
    | none => true

/-- The module can take the next chunk of a chain: what it forwards can leave, and a swap has not got its tables, or is under its hold
(R264, R276). -/
def State.chunkTakes (s : State) (c : Chain) : Bool :=
  s.forwardFree c && match s.longOf c.op with
    | some o => match o.pkt, (s.model c.model).swap with
      | .modelSwap .., some w => o.stage = 0 && !(tablesReady o.data c.total) || w.holdAt.isSome
      | _, _ => true
    | none => true

/-- The chunk of a chain that is next in image order has arrived whole (R264). -/
def Chain.whole (c : Chain) : Bool :=
  let got := fun off => c.buf.any fun x => x.1 == off
  c.sentTo < c.total && got c.sentTo && (got (c.sentTo + 32768) || c.total ≤ c.sentTo + 32768)

/-- Credits held back for a chain are returned. -/
def State.payCredits (s : State) (c : Chain) : State :=
  s.each c.owed fun s e =>
    let x := s.port e.1
    s.setPort e.1 { x with returned := lset x.returned 2 (x.returned.getD 2 0 + e.2) }

/-- Chunks of a chain that are complete are taken in image order, as far as the module can take them: forwarded, and handed to its own load
or swap. A member forwards every chunk even where its own checks have failed (R264). -/
def State.takeChunks (op : Nat) : Nat → State → State
  | 0, s => s
  | k + 1, s =>
    match s.chainOf op with
    | none => s
    | some c =>
      let half := fun off => ((c.buf.find? fun x => x.1 == off).map Prod.snd).getD []
      if !c.whole || !(s.chunkTakes c) then s
      else
        let bs := half c.sentTo ++ half (c.sentTo + 32768)
        let c1 := { c with sentTo := c.sentTo + bs.length, buf := c.buf.filter (fun x => c.sentTo + 65536 ≤ x.1), owed := [] }
        let s1 := ((s.payCredits c).setChain c1).forwardHalves c c.sentTo bs
        let s2 := match s1.longOf op with
          | some o => match o.pkt with
            | .modelLoad .. => s1.arriveLoad o c.model bs
            | _ => s1.setLong { o with data := o.data ++ bs }
          | none => s1
        let s3 := if c.total ≤ c1.sentTo then s2.tellChain c1 c1.head mgChainDone 0 else s2
        let s4 := if c.total ≤ c1.sentTo && (s3.longOf op).isNone then s3.dropChain op else s3
        State.takeChunks op k s4

/-- A swap in progress is given up: its model is INCOMPLETE where the hold has begun, and as before where it has not (R277). -/
def State.giveUpSwap (s : State) (m : Nat) : State :=
  let x := s.model m
  match x.swap with
  | some w =>
    let s2 := s.setModel m { x with st := if w.holdAt.isSome then .incomplete else w.was, swap := none }
    if w.holdAt.isSome || w.was == .incomplete then s2
    else s2.each s2.present fun s l => if (s.place l).cfg.model = m then s.setPlace l { s.place l with barrier := false } else s
  | none => s

/-- A swap's operation ends with its final reply, its chain's record goes, and CAIRNs that waited for it may be answered (R227). -/
def State.endSwap (s : State) (o : LongOp) (status detail result : Nat) : State :=
  ((s.dropChain o.id).endLong o status detail result).cairnReplies

/-- This module leaves a chain for good: the next member and the head are told, and credits held back are returned (log entry 13). -/
def State.leaveChain (s : State) (c : Chain) : State :=
  let me := s.myId
  let s1 := match c.members.head? with
    | some m => s.tellChain c m mgChainGone me
    | none => s
  ((if c.head = me then s1 else s1.tellChain c c.head mgChainGone me).payCredits c).dropChain c.op

/-- A chain is lost before this member: its load or swap completes with FENCED, and the members after it are told (R265). A
swap whose hold has begun leaves its model INCOMPLETE, and its reply names the layer (R277). -/
def State.fenceChain (s : State) (c : Chain) : State :=
  let s1 := s.leaveChain c
  match s1.longOf c.op with
  | none => s1
  | some o => match o.pkt with
    | .modelLoad .. => s1.failLoad o c.model stFenced 0 0
    | _ => match (s1.model c.model).swap with
      | some w => (s1.giveUpSwap c.model).endSwap o stFenced (if w.holdAt.isSome then atLayer o.done else 0) 0
      | none => s1.endSwap o stFenced 0 0

/-- CHAIN_OPEN_TIMEOUT: 1 s after its acceptance a head with a member missing, or a member without an opening message, ends
with NO_RESOURCE (R263). A head tells the members that have answered, which the spec leaves open (DESIGN CHOICE, log entry 13). -/
def execChainOpenTimeout (fn tag at_ : Nat) (s : State) : Res :=
  let s := s.tick at_
  onObject (decide (fn < 64))
    (match s.fabric.chains.find? fun c => c.fn == fn && c.tag == tag with
     | none => s
     | some c =>
       let missing := c.members.filter fun m => !(c.answered.contains m)
       let head := c.head == s.myId
       if s.now < c.startAt + 1000000000 || (if head then missing.isEmpty else c.opened) then s
       else
         let detail := if head then 3 * 2 ^ 30 + missing.headD 0 else 0
         let s1 := (if head then s.each c.answered fun s m => s.tellChain c m mgChainGone s.myId else s).dropChain c.op
         match s1.longOf c.op with
         | some o => match o.pkt with
           | .modelLoad .. => s1.failLoad o c.model stNoResource detail 0
           | _ => (s1.giveUpSwap c.model).endSwap o stNoResource detail 0
         | none => s1)

/-! ## MODEL_SWAP (R273 to R277) -/

/-- Placements of a model. -/
def State.placesOfModel (s : State) (m : Nat) : List Nat := s.present.filter fun l => (s.place l).cfg.model == m

/-- MODEL_SWAP as CP starts it. -/
def State.svcModelSwap (s : State) (h : Hdr) (q : LoadParams) (image : List Byte) : State :=
  let m := q.modelId.toNat
  let x := s.model m
  s.checked h 0x49 (s.chkModel h.fn m 0 ++ [chkForm (x.st != .absent && x.part == h.fn) 0, chkSt (!x.st.busy) stDeferred] ++
      s.srcChks h.fn q true) fun s =>
    s.startLong h (.modelSwap q image) (max 1 x.img.layers.length) fun o s =>
      (s.setModel m { x with st := .swapping,
                             swap := some { img := {}, srcModel := if q.source = 2 then some q.src.toNat else none, was := x.st,
                                            op := o.id } }).joinChain o q (chainTotal q image (s.srcTotal q))

/-- A swap ends without its new image: before its hold it changes nothing, after it the model is INCOMPLETE (R273, R277). -/
def State.failSwap (s : State) (o : LongOp) (m status detail result : Nat) : State :=
  (s.giveUpSwap m).endSwap o status detail result

/-- Microseconds per MiB at most, in tenths, of a source (R276). -/
def swapRate (src : Nat) : Nat := if src = 0 then 420 else 42

/-- The bound of R276 in us, rounded down (log entry 14). -/
def swapBound (bytes src hop : Nat) : Nat := (20 * 10 * 1048576 + bytes * swapRate src) / (10 * 1048576) + 2 * hop

/-- The VSCALE bytes of an image have arrived with its first n bytes. -/
def Image.vscaleIn (im : Image) (n : Nat) : Bool := im.atts.all fun a => decide (a.vscaleOff + a.hkv ≤ n)

/-- The checks before any barrier; a failure of any of them completes the swap with BAD_PACKET (R273). -/
def State.checkSwap (s : State) (o : LongOp) (m : Nat) (w : Swap) (q : LoadParams) (b : List Byte) (total : Nat) : State :=
  let im := imageOf b
  match ((tablesErr b total).or (if im.vscaleIn b.length then vscaleErr im else none)).or (swapErr (s.model m).img im) with
  | some e => s.failSwap o m stBadPacket e.2 0
  | none =>
    let c := s.chainOf o.id
    let src := if q.source = 1 then ((c.map Chain.src).getD 0) else q.source.toNat
    let bound := swapBound im.bytes src (if q.source = 1 then (c.map Chain.hop).getD 0 else 0)
    let s1 := (s.setLong { o with stage := 1 }).setModel m { s.model m with swap := some { w with img := im, bound := bound } }
    s1.each (s1.placesOfModel m) fun s l => if (s.place l).step.isNone then s.cairn l else s

/-- The bytes of layer i of a new generation: its weights, directory, outlier and repair tables; the first layer brings the
header and the tables with it (R274). -/
def layerRanges (im : Image) (i : Nat) : List (Nat × Nat) :=
  match im.layers[i]? with
  | none => []
  | some l =>
    (if i = 0 then [(0, 64), (im.layerTbl, 64 * im.layers.length), (im.attTbl, 32 * im.atts.length)] ++ im.atts.map (fun a => (a.vscaleOff, a.hkv))
     else []) ++ [(l.dirOff, 48 * im.tiles)] ++ (if bitOf l.lflags 1 then [] else [(l.wOff, l.wBytes)]) ++
      l.shares.flatMap fun sh => [(sh.woutOff, 8 * sh.woutN), (sh.repOff, 2 * sh.kCount)]

/-- The bytes of a layer of a new image have arrived among its first n. -/
def Image.layerIn (im : Image) (i n : Nat) : Bool := (layerRanges im i).all fun r => decide (r.1 + r.2 ≤ n)

/-- The copies of a layer in the SRAM of the model's placements are refreshed, under the generation to come (R274). -/
def State.refreshLayer (s : State) (m : Nat) (im : Image) (i : Nat) : State :=
  let gen := ((s.model m).gen + 1) % 2 ^ 32
  s.each (s.placesOfModel m) fun s l =>
    if i < s.stagedLayers l then
      s.each ((List.range (s.place l).cfg.tiles.length).zip (s.place l).cfg.tiles) fun s e => s.stageLayer im l e.2 e.1 i gen
    else s

/-- One layer of the new generation written over the old one and into tile SRAM; a failure names the layer (R274, R277). An outlier table or
VSCALE bytes that arrive under the hold are checked with it. -/
def State.swapLayer (s : State) (o : LongOp) (m : Nat) (w : Swap) (b : List Byte) (i : Nat) : State ⊕ Nat :=
  match (layerWoutErr b w.img i).or (if i = 0 then vscaleErr (imageOf b) else none) with
  | some _ => .inr (atLayer i)
  | none =>
    let r := (layerRanges w.img i).foldl (fun (a : State ⊕ Nat) r => match a with
      | .inl s => match s.wrVa o.h.fn ((s.model m).dest + r.1) ((b.drop r.1).take r.2) with
        | .inl s1 => .inl s1
        | .inr _ => .inr (atLayer i)
      | .inr e => .inr e) (.inl s)
    match r with
    | .inl s1 => .inl (s1.refreshLayer m w.img i)
    | .inr e => .inr e

/-- Layers written in order from `i` on, as far as their bytes are here. -/
def State.swapLayers (o : LongOp) (m : Nat) (w : Swap) (b : List Byte) : Nat → Nat → State → State
  | 0, i, s => s.advanceLong o i
  | k + 1, i, s =>
    if o.total ≤ i || !(w.img.layerIn i b.length) then s.advanceLong o i
    else match s.swapLayer o m w b i with
      | .inl s1 => State.swapLayers o m w b k (i + 1) s1
      | .inr e => s.failSwap o m stBadPacket e 0

/-- The image of a swap's source as far as it is here. -/
def State.swapData (s : State) (o : LongOp) (q : LoadParams) (image : List Byte) : List Byte ⊕ Nat :=
  if q.source = 0 then .inl image
  else if q.source = 1 then .inl o.data
  else s.rdVa o.h.fn (s.model q.src.toNat).dest (s.model q.src.toNat).img.bytes

/-- A slice of a MODEL_SWAP: the checks, and under the hold `n` layers. A chain head forwards the image as it writes (R264). -/
def State.sliceSwap (s : State) (o : LongOp) (q : LoadParams) (image : List Byte) (n : Nat) : State :=
  let m := q.modelId.toNat
  match (s.model m).swap with
  | none => s
  | some w =>
    let c := s.chainOf o.id
    let total := (c.map Chain.total).getD 0
    let waits := match c with
      | some c => if q.source = 1 then o.stage = 0 && !(c.opened && tablesReady o.data c.total) else !(c.members.all fun x => c.answered.contains x)
      | none => q.source = 1
    if waits then s
    else match s.swapData o q image with
      | .inr a =>
        let s1 := s.violate o.h.fn a 4 false false
        if w.holdAt.isSome then s1.failSwap o m stFenced (atLayer o.done) 0 else s1.failSwap o m stViolation 0 (a % 2 ^ 48)
      | .inl b =>
        if o.stage = 0 then
          let s1 := match c with
            | some c => if q.source = 1 then s else s.forwardHalves c 0 (b.take c.total)
            | none => s
          s1.checkSwap o m w q b (if q.source = 1 then total else b.length)
        else if w.holdAt.isNone then s
        else State.swapLayers o m w b n o.done s

/-- SWAP_HOLD: every placement of the model is at its barrier, and the hold begins; a chain's chunks that were held back are taken
(R274, R276). -/
def execSwapHold (model at_ : Nat) (s : State) : Res :=
  let s := s.tick at_
  onObject (decide (model < 4096))
    (let x := s.model model
     match x.swap with
     | some w =>
       if w.bound != 0 && w.holdAt.isNone && (s.placesOfModel model).all fun l => (s.place l).barrier && (s.place l).step.isNone then
         let s1 := s.setModel model { x with swap := some { w with holdAt := some s.now } }
         match s1.chainOf w.op with
         | some c => State.takeChunks w.op (c.buf.length + 1) s1
         | none => s1
       else s
     | none => s)

/-- The arrays of a resident placement hold the layers under a generation, on every tile it has (R274, R277). -/
def State.swapFilled (s : State) (l gen : Nat) (im : Image) : Bool :=
  !(s.place l).cfg.resident || ((List.range (s.place l).cfg.tiles.length).zip (s.place l).cfg.tiles).all fun e => s.arraysFilled l im gen e.2 e.1

/-- SWAP_COMPLETE: the last layer is written, into the arrays of resident placements too; the generation increments, the barriers are
released and the reply gives the generation, the hold and the bound (R274, R277, R307). -/
def execSwapComplete (model at_ : Nat) (s : State) : Res :=
  let s := s.tick at_
  onObject (decide (model < 4096))
    (let x := s.model model
     match x.swap with
     | some w =>
       match w.holdAt, s.longOf w.op with
       | some t, some o =>
         let gen := (x.gen + 1) % 2 ^ 32
         if o.done < o.total || !((s.placesOfModel model).all fun l => s.swapFilled l gen w.img) then s
         else
           let s1 := s.setModel model { x with st := .loaded, gen := gen, img := w.img, swap := none }
           let s2 := s1.each (s1.placesOfModel model) fun s l => (s.setPlace l { s.place l with barrier := false }).stageAll l
           let sat := fun n => min n (2 ^ 32 - 1)
           s2.endSwap o stOK gen (sat ((s.now - t) / 1000) + sat w.bound * 2 ^ 32)
       | _, _ => s
     | none => s)

/-! ## MODEL_UNLOAD (R279 to R281) -/

/-- MODEL_UNLOAD as CP serves it; its reply waits for the model's placements. R281 does not name a model already in UNLOADING: it answers
DEFERRED as for the other states of passage (DESIGN CHOICE, log entry 97). -/
def State.svcModelUnload (s : State) (h : Hdr) (modelId : BitVec 16) (byte2 : BitVec 8) (rsv : BitVec 40) : State :=
  let m := modelId.toNat
  let x := s.model m
  let ls := s.placesOfModel m
  s.checked h 0x4A (s.chkModel h.fn m 0 ++ [chkForm (x.st != .absent && x.part == h.fn) 0, chkForm (decide (byte2.toNat < 2)) 2,
      chkForm (rsv == 0) 3, chkSt (!x.st.busy && !(s.isSource m)) stDeferred, chkForm (ls.isEmpty || byte2 == 1) 2]) fun s =>
    let s1 := s.setModel m { x with st := .unloading, unload := some (h, 0x4A), was := x.st }
    let s2 := s1.each ls fun s l => s.setPlace l { s.place l with removing := true }
    (s2.each ls fun s l => if (s.place l).step.isNone then s.cairn l else s).unloadCheck m

/-! ## PLACE (R266 to R269, R305) -/

/-- Tile SRAM of a tile in bytes (R22). -/
def tileSram : Nat := 2097152

/-- Arrays of share i of a layer in whole digit sets (R88). -/
def shareArrays (l : Layer) (i profile : Nat) : Nat :=
  match l.shares[i]? with
  | some sh => ceilDiv sh.kCount 32 * ceilDiv sh.nCount 32 * (weightDigits (fmtBits l.wfmt) + b2n (profile == 3)) * max 1 l.nExp
  | none => 0

/-- Other placements on a tile. -/
def State.othersOn (s : State) (t l : Nat) : List Nat :=
  s.present.filter fun m => m != l && ((s.place m).cfg.tiles.contains t || (match (s.place m).change with
    | some c => c.tiles.contains t
    | none => false))

/-- The settings of a placement, those in force and those accepted for its cairn. -/
def Place.settings (x : Place) : List PlaceCfg := x.cfg :: x.change.toList

/-- Free tile SRAM of a tile for placement l: the others keep the larger of their budgets in force and accepted. -/
def State.freeSram (s : State) (t l : Nat) : Nat :=
  tileSram - ((s.othersOn t l).map fun m => (((s.place m).settings.filter fun c => c.tiles.contains t).map PlaceCfg.stage).foldl max 0).sum

/-- A tile's room for a placement (R268, R21: an unavailable index has none). -/
def State.tileRoom (s : State) (l t i : Nat) (im : Image) (c : PlaceCfg) (resident : Bool) (stage : Nat) : Chk :=
  let others := s.othersOn t l
  let wmax := (im.layers.map fun y => ((y.shares[i]?).map Share.woutN).getD 0).foldl max 0
  let arrays := (im.layers.map fun y => shareArrays y i c.profile).sum
  let copy := (im.layers.map fun y => shareSram y i).sum
  let held := (others.filter fun m => (s.place m).cfg.resident).map fun m =>
    ((s.model (s.place m).cfg.model).img.layers.map fun y => shareArrays y (((s.place m).cfg.tiles.findIdx? (· == t)).getD 0) (s.place m).cfg.profile).sum
  if 4096 < wmax + 32 * s.retiredCols t then .status stNoResource 0
  else chkSt (decide (others.length < 16) && (s.physOf t).isSome &&
    !(bitOf (s.fld Reg.CLK_START Fld.CLK_START_QDOWN) (t / 256)) &&
    (if resident then s.tileMode t == 1 && decide (arrays + held.sum ≤ 512 - s.retiredArrs t) &&
        decide (copy ≤ s.freeSram t l)
     else decide (stage ≤ s.freeSram t l))) stNoResource

/-- One 2-byte entry of the LOPT table: pin and SREP; none where it is out of its ranges or below the image's SREP. -/
def loptAt (im : Image) (l : Layer) (e : Nat) : Option (Nat × Nat) :=
  let srep := bitsOf e 4 4
  let base := if l.kind = 2 || l.kind = 3 then ((im.atts[l.attIdx]?).map Att.srep).getD 0 else 0
  if bitsOf e 0 3 ≤ 4 && !(bitOf e 3) && bitsOf e 8 8 = 0 && [0, 1, 2, 4, 8].contains srep && (srep = 0 || base ≤ srep) then
    some (bitsOf e 0 3, srep) else none

/-- The LOPT table of a PLACE. -/
def State.readLopt (s : State) (p va : Nat) (im : Image) : List (Option (Nat × Nat)) :=
  if va = 0 then []
  else match s.rdVa p va (2 * im.layers.length) with
    | .inl bs => ((List.range im.layers.length).zip im.layers).map fun x => loptAt im x.2 (numAt bs (2 * x.1) 2)
    | .inr _ => []

/-- The tile list of a PLACE. -/
def State.readTiles (s : State) (p va n : Nat) : List Nat :=
  match s.rdVa p va (2 * n) with
  | .inl bs => (List.range n).map fun i => numAt bs (2 * i) 2
  | .inr _ => []

/-- The checks of PLACE's fields in ascending offset, each first for its form and then for the partition's rights (R268, R291, R305). -/
def State.placeChks (s : State) (h : Hdr) (q : PlaceParams) : List Chk :=
  let p := h.fn
  let l := q.placement.toNat
  let m := q.modelId.toNat
  let f := s.fld (Reg.SCH_ID_RANGE p) Fld.SCH_ID_RANGE_PLACE_FIRST
  let n := s.fld (Reg.SCH_ID_RANGE p) Fld.SCH_ID_RANGE_PLACE_COUNT
  [chkForm (decide (l < 1024)) 0, chkId (decide (f ≤ l) && decide (l < f + n)) l] ++ s.chkModel p m 2 ++
  [chkSt (!(s.model m).st.busy && !((s.place l).present && (s.model (s.place l).cfg.model).st.busy)) stDeferred,
   chkForm ((s.model m).st == .loaded && (s.model m).part == p) 2, chkForm (decide (q.profile.toNat ≤ 3)) 4, chkForm (decide (q.rowmode.toNat ≤ 2)) 5, chkForm (decide (q.layout.toNat ≤ 1)) 6,
   chkForm (decide (q.share.toNat ≤ 1)) 7, chkForm (decide (1 ≤ q.stepSlots.toNat) && decide (q.stepSlots.toNat ≤ 512)) 12,
   chkForm (decide (1 ≤ q.tsSteps.toNat) && decide (q.tsSteps.toNat ≤ 64)) 14,
   chkForm (decide (16 ≤ q.posMax.toNat) && decide (q.posMax.toNat ≤ 65536)) 16,
   chkForm (q.tgt == 0 || (decide (20 ≤ q.tgt.toNat) && decide (q.tgt.toNat ≤ 2000))) 20,
   if q.tileCount = 0 then .pass else s.chkVa p q.tilesVa.toNat (2 * q.tileCount.toNat),
   chkForm (if q.tileCount = 0 then (s.place l).present && !(s.place l).cfg.tiles.isEmpty else q.tileCount.toNat == (s.model m).img.tiles) 32,
   chkForm (q.rsv34 == 0) 34,
   if q.tileCount = 0 || q.loptVa = 0 then .pass else s.chkVa p q.loptVa.toNat (2 * (s.model m).img.layers.length)]

/-- The settings that a PLACE asks for. -/
def placeCfg (q : PlaceParams) (im : Image) (tiles : List Nat) (lopt : List (Nat × Nat)) : PlaceCfg :=
  let copy := ((List.range tiles.length).map fun i => (im.layers.map fun y => shareSram y i).sum).foldl max 0
  { model := q.modelId.toNat, tiles := tiles,
    profile := if q.profile = 0 then (if tiles.length ≤ 128 then 2 else 3) else q.profile.toNat,
    rowmode := if q.rowmode = 0 then (if im.sparse then 2 else 1) else q.rowmode.toNat, resident := q.layout == 1,
    sliced := q.share == 1, stage := if q.layout = 1 then copy else q.stageBytes.toNat, slots := q.stepSlots.toNat,
    posMax := q.posMax.toNat, tgt := q.tgt.toNat, ts := q.tsSteps.toNat, lopt := lopt }

/-- The checks that need the tile list and the LOPT table (R268, R237, R378, R524). -/
def State.tileChks (s : State) (p l : Nat) (q : PlaceParams) (im : Image) (tiles : List Nat) (lopt : List (Option (Nat × Nat))) : List Chk :=
  let c := placeCfg q im tiles []
  let alien := tiles.find? fun t => !(t < 1024 && (s.tileOwners t).contains p)
  let worn := ((List.range tiles.length).zip tiles).find? fun x =>
    4096 < ((im.layers.map fun y => ((y.shares[x.1]?).map Share.woutN).getD 0).foldl max 0) + 32 * s.retiredCols x.2
  [chkId alien.isNone (alien.getD 0), chkForm (tiles.eraseDups.length == tiles.length) 24,
   chkForm (lopt.all Option.isSome) 40,
   chkForm (tiles.all fun t => (s.othersOn t l).all fun m => ((s.place m).part == p || c.sliced) &&
     ((s.place m).settings.filter fun d => d.tiles.contains t).all fun d => d.sliced == c.sliced) 7,
   chkSt (im.shardCnt ≤ 1 || decide (((im.layers.getLast?).map Layer.n).getD 0 ≤ 16376)) stNoResource,
   chkSt worn.isNone stNoResource] ++
  ((List.range tiles.length).zip tiles).map fun x => s.tileRoom l x.2 x.1 im c (q.layout == 1) q.stageBytes.toNat

/-- The first unit of a model's weights that reads as uncorrectable (R499). -/
def State.modelBad (s : State) (m : Nat) : Bool :=
  let x := s.model m
  !s.mem.poison.isEmpty && x.img.layers.any fun l => (s.badVa x.part (x.dest + l.wOff) l.wBytes).isSome

/-- PLACE as CP serves it. -/
def State.svcPlace (s : State) (h : Hdr) (q : PlaceParams) : State :=
  let p := h.fn
  let l := q.placement.toNat
  let n := q.tileCount.toNat
  s.checked h 0x4B (s.placeChks h q) fun s =>
      let im := (s.model q.modelId.toNat).img
      let tiles := s.readTiles p q.tilesVa.toNat n
      let lopt := s.readLopt p q.loptVa.toNat im
      let worn := ((List.range tiles.length).zip tiles).find? fun x =>
        4096 < ((im.layers.map fun y => ((y.shares[x.1]?).map Share.woutN).getD 0).foldl max 0) + 32 * s.retiredCols x.2
      match if n = 0 then .pass else firstFail (s.tileChks p l q im tiles lopt) with
      | .status st d => s.reply h 0x4B st d (if st = stNoResource then (worn.map Prod.snd).getD 0 else 0)
      | .pass =>
        let c := if n = 0 then { (s.place l).cfg with tiles := [] } else placeCfg q im tiles (lopt.filterMap id)
        let x := s.place l
        let (stats, s) := if x.present && x.stats != 0 then (x.stats, s) else (Config.statsTable l s.free, s.useFree)
        let s1 := s.setPlace l { x with present := true, part := p, stats := stats, change := some c, fenced := x.fenced && n = 0,
                                        cfg := if x.present then x.cfg else { c with tiles := [] } }
        let s2 := if x.step.isNone then s1.cairn l else s1
        let s3 := if n ≠ 0 && s2.modelBad q.modelId.toNat then s2.fencePlace l 0xFFFF else s2
        s3.reply h 0x4B stOK 0 stats
      | e => s.fail h 0x4B e

end Sys2Proof.Machine
end

