-- ==== Sys2Proof/Machine/Security.lean ====
section
/-! DEFINITION. Partitions and the security boundary: what CP and SEP do with PART_CREATE, PART_DESTROY, KEY_LOAD, KEY_RETIRE and
ZEROIZE, the Crypto Officer session, self-test failures and debug unlocking (R520 to R536, R573). -/

namespace Sys2Proof.Machine

/-- The error state of the boundary (R534). -/
def State.secError (s : State) : Bool := s.flag Reg.SEC_STAT Fld.SEC_STAT_ERROR

/-- A packet refused for a role or for authentication: its OPCODE is logged as a value (R311, R312). -/
def State.refuseRole (s : State) (h : Hdr) (op : Nat) : State := (s.violate h.fn op 1 false true).reply h op stViolation 0 op

/-- PART_CREATE as CP serves it (R520, R573). -/
def State.svcPartCreate (s : State) (h : Hdr) (part : BitVec 8) (rsv : BitVec 56) (ringArea root : BitVec 64) : State :=
  let p := part.toNat
  let a := ringArea.toNat
  let windows := (List.range 64).flatMap s.windows
  s.checked h 0x40
    [chkForm (decide (1 ≤ p) && decide (p < 64) && !(s.partExists p)) 0, chkForm (rsv == 0) 1,
     chkForm (a % 2 ^ 26 == 0 && decide (a + 2 ^ 26 ≤ memEnd) && !(hitsAny a (2 ^ 26) (windows ++ s.reservedRanges))) 8,
     chkForm (bitsOf root.toNat 1 16 == 0 && bitsOf root.toNat 42 22 == 0) 16,
     chkSt (!s.secError) stDeferred, chkSt (s.pcie.vfEnable && decide (p ≤ s.pcie.numVfs)) stNoResource] fun s =>
    let s1 := s.setFld (Reg.SCH_RING_AREA p) Fld.SCH_RING_AREA_BASE (a / 2 ^ 26)
    let s2 := (({ s1 with mem := s1.mem.clear a (2 ^ 26) }.setPart p {}).rstReg (Reg.MMU_INV p)).wrReg (Reg.MMU_ROOT p) root
    let s3 := (s2.freshKey p 0).setFlag (Reg.SEC_PART p) Fld.SEC_PART_EXISTS true
    s3.reply h 0x40 stOK 0 0

/-- PART_DESTROY as CP starts it (R521). A re-issued one goes on from the first step not yet done. -/
def State.svcPartDestroy (s : State) (h : Hdr) (part byte1 : BitVec 8) (rsv : BitVec 48) : State :=
  let p := part.toNat
  s.checked h 0x41
    [chkForm (decide (1 ≤ p) && decide (p < 64) && s.partExists p) 0, chkForm (decide (byte1.toNat < 2)) 1, chkForm (rsv == 0) 2,
     chkId (s.flag Reg.SEC_STAT Fld.SEC_STAT_CO_SESSION) 0x41, chkForm (byte1 == 1 || !(s.holds p)) 1,
     chkSt (!(s.destroying p)) stDeferred] fun s =>
    s.startLong h (.partDestroy part byte1 rsv) 6 fun o s => s.setLong { o with done := (s.part p).destroyStep }

/-- The registers of a partition that PART_SET and PART_CREATE set go back to their reset values (R521). -/
def State.clearRanges (s : State) (p : Nat) : State :=
  let s1 := s.each ((List.range 8).map fun i => Reg.SEC_WIN (8 * p + i)) fun s r => s.wrReg r 0
  s1.each [Reg.SCH_CTX_RANGE p, Reg.SCH_BKT_RANGE p, Reg.SCH_ID_RANGE p, Reg.KVT_RES_RING p, Reg.KVT_RES_IDX p, Reg.KVT_FREE_RING p,
    Reg.KVT_FREE_IDX p, Reg.KVT_RES_CFG p, Reg.KVT_SCREE_CFG p, Reg.SMP_PROF_TBL p, Reg.MMU_ROOT p, Reg.MMU_INV p, Reg.SCH_AGE_CFG p,
    Reg.MDT_ESC_THR p, Reg.LNK_SLICE p] fun s r => s.rstReg r

/-- The ring pairs of a function as after a reset of it: EN 0, indices 0, nothing waiting (R318, R549). -/
def State.clearPairs (s : State) (f : Nat) : State :=
  s.each (List.range 17) fun s r =>
    (s.each [Reg.SCH_RING_CFG f r, Reg.SCH_SQ_DB f r, Reg.SCH_CQ_DB f r, Reg.SCH_RING_IDX f r, Reg.SCH_RING_STAT f r] fun s x => s.rstReg x).setPair f r {}

/-- One step of a PART_DESTROY (R521); it answers false where the step waits for placements. -/
def State.destroyStep (s : State) (p k : Nat) : State × Bool :=
  match k with
  | 0 =>
    let s1 := s.each (s.placesOf p) fun s l => s.setPlace l { s.place l with removing := true }
    let s2 := s1.each (s1.placesOf p) fun s l => if (s.place l).step.isNone then s.cairn l else s
    (s2, (s2.placesOf p).isEmpty)
  | 1 =>
    let s1 := (s.closeAll p 0).dropModels p
    (s1.setPart p { s1.part p with extents := [], pool := [], returns := [] }, true)
  | 2 =>
    let s1 := s.each (List.range 1024) fun s t => if (s.tileOwners t).contains p then s.assignTile p t 0 else s
    (s1.countTiles p, true)
  | 3 => ((s.clearRanges p).setPart p { destroyStep := k }, true)
  | 4 => (s.clearKey p, true)
  | _ => (((s.clearPairs p).wrReg (Reg.SEC_PART p) (putBits (s.reg (Reg.SEC_PART p)) 0 1 0)).rstReg (Reg.SCH_RING_AREA p), true)

/-- A slice of a PART_DESTROY: its next step. -/
def State.sliceDestroy (s : State) (o : LongOp) (p : Nat) : State :=
  let (s1, done) := s.destroyStep p o.done
  if !done then s1
  else
    let s2 := (s1.setPart p { s1.part p with destroyStep := o.done + 1 }).advanceLong o (o.done + 1)
    if 6 ≤ o.done + 1 then
      let s3 := s2.setPart p {}
      match s3.longOf o.id with
      | some o1 => s3.endLong o1 stOK 0 0
      | none => s3
    else s2

/-! ## Keys and the session -/

/-- Bytes of a Crypto Officer blob. -/
def blobBytes : Nat := 288

/-- The form of a blob (R530). -/
def blobOk (b : List Byte) (part : Nat) : Bool :=
  numAt b 0 4 == 0x08325EC1 && numAt b 4 1 == part && numAt b 5 3 == 0 && numAt b 184 8 == 0 &&
    (part != 0xFF || (numAt b 16 96 == 0 && numAt b 112 72 == 0))

/-- The session length in s (R538). -/
def State.coTimeout (s : State) : Nat := max 1 (s.fld Reg.SEC_CFG Fld.SEC_CFG_CO_TIMEOUT)

/-- A Crypto Officer session opens or its timer restarts (R529). -/
def State.openSess (s : State) : State :=
  let t := s.coTimeout
  ({ s with sec := { s.sec with sessEnd := some (s.now + t * 1000000000) } }.setFlag Reg.SEC_STAT Fld.SEC_STAT_CO_SESSION true).setFld
    Reg.SEC_STAT Fld.SEC_STAT_CO_LEFT t

/-- A failed authentication: AUTH_FAIL counts; the sixteenth in a row blocks KEY_LOAD for 60 s (R530). -/
def State.authFail (s : State) : State :=
  let n := s.sec.failRun + 1
  let s1 := s.bump Reg.SEC_CNT Fld.SEC_CNT_AUTH_FAIL
  if 16 ≤ n then { s1 with sec := { s1.sec with failRun := 0, blockTil := s1.now + 60000000000 } }
  else { s1 with sec := { s1.sec with failRun := n } }

/-- KEY_LOAD as SEP serves it; PARTITION 0xFF opens a session (R529, R530). -/
def State.svcKeyLoad (s : State) (h : Hdr) (part : BitVec 8) (rsv : BitVec 56) (keyVa : BitVec 64) (keyBytes rsv20 : BitVec 32)
    (sigOk halvesEqual : Bool) : State :=
  let p := part.toNat
  s.checked h 0x70
    [chkForm (p == 0xFF || (decide (p < 64) && s.partExists p)) 0, chkForm (rsv == 0) 1, s.chkVa h.fn keyVa.toNat blobBytes,
     chkForm (keyBytes.toNat == blobBytes) 16, chkForm (rsv20 == 0) 20, chkSt (decide (s.sec.blockTil ≤ s.now) && !s.secError) stDeferred]
    fun s =>
    let b := match s.rdVa h.fn keyVa.toNat blobBytes with
      | .inl b => b
      | .inr _ => []
    let ctr := numAt b 8 8
    if !(blobOk b p) || (halvesEqual && p != 0xFF) then s.reply h 0x70 stBadPacket (badAt 24) 0
    else if !sigOk || ctr ≤ s.flash.coCtr then s.authFail.refuseRole h 0x70
    else if p != 0xFF && s.holds p then s.reply h 0x70 stDeferred 0 0
    else
      let s1 := { s with flash := { s.flash with coCtr := ctr }, sec := { s.sec with failRun := 0 } }.wrReg Reg.SEC_CO_CTR (BitVec.ofNat 64 ctr)
      let s2 := if p = 0xFF then s1.openSess
        else if s1.flag Reg.SEC_STAT Fld.SEC_STAT_CO_SESSION then (s1.freshKey p 1).openSess else s1.freshKey p 1
      s2.reply h 0x70 stOK 0 0

/-- KEY_RETIRE as SEP serves it; its reply waits for the partition's placements to go (R531). -/
def State.svcKeyRetire (s : State) (h : Hdr) (part : BitVec 8) (rsv : BitVec 56) : State :=
  let p := part.toNat
  s.checked h 0x71 [chkForm (decide (p < 64) && s.partExists p) 0, chkForm (rsv == 0) 1,
      chkId (s.flag Reg.SEC_STAT Fld.SEC_STAT_CO_SESSION) 0x71, chkSt (!s.secError) stDeferred] fun s =>
    let s1 := { s with sec := { s.sec with retiring := s.sec.retiring ++ [(h, p)] } }
    let s2 := s1.each (s1.placesOf p) fun s l => s.setPlace l { s.place l with removing := true }
    let s3 := s2.each (s2.placesOf p) fun s l => if (s.place l).step.isNone then s.cairn l else s
    s3.settle p

/-- ZEROIZE as SEP starts it; one accepted while another is in progress completes with it (R535). -/
def State.svcZeroize (s : State) (h : Hdr) (rsv : BitVec 64) : State :=
  s.checked h 0x72 [chkForm (rsv == 0) 0] fun s =>
    s.startLong h (.zeroize rsv) 3 fun _ s => if s.sec.zeroing then s else s.zeroBegin

/-- A slice of a zeroisation: its next phase. -/
def State.sliceZeroize (s : State) (o : LongOp) : State :=
  match s.fld Reg.SEC_STAT Fld.SEC_STAT_ZERO_PHASE with
  | 1 =>
    let s1 := s.each s.present fun s l => if (s.place l).step.isNone then s.cairn l else s
    if s1.present.isEmpty then s1.zeroEmpty.advanceLong o 1 else s1
  | 2 => s.zeroScrub.advanceLong o 2
  | 3 => s.zeroRekey.zeroReplies
  | _ => s

/-- A Crypto Officer session ends CO_TIMEOUT after its last valid KEY_LOAD (R529). -/
def execCoSessionTimeout (at_ : Nat) (s : State) : Res :=
  let s := s.tick at_
  .next (match s.sec.sessEnd with
    | some t =>
      if t ≤ s.now then
        ({ s with sec := { s.sec with sessEnd := none } }.setFlag Reg.SEC_STAT Fld.SEC_STAT_CO_SESSION false).setFld
          Reg.SEC_STAT Fld.SEC_STAT_CO_LEFT 0
      else s
    | none => s)

/-- The boundary enters the error state (R534); `place` tells a failure at boot (1) from one in service (2). -/
def State.enterError (s : State) (cause place : Nat) : State :=
  (((s.setFlag Reg.SEC_STAT Fld.SEC_STAT_ERROR true).setFld Reg.SEC_STAT Fld.SEC_STAT_ERR_CAUSE cause).setFlag
    Reg.SEC_STAT Fld.SEC_STAT_APPROVED false).fault 0x0704 2 3 cause (leBytes 1 place)

/-- SELF_TEST_FAILURE: a known-answer, entropy, DRBG or pair-wise test failed in service; `cause` is ERR_CAUSE, 1 to 4
(R534, R539). -/
def execSelfTestFailure (cause : Nat) (s : State) : Res :=
  onObject (decide (1 ≤ cause) && decide (cause ≤ 4)) (s.enterError cause 2)

/-- DEBUG_UNLOCK: an accepted token runs a full zeroisation before debug opens; another counts in AUTH_FAIL (R536). -/
def execDebugUnlock (tokenOk : Bool) (s : State) : Res :=
  .next (
    if !tokenOk then s.bump Reg.SEC_CNT Fld.SEC_CNT_AUTH_FAIL
    else
      let s1 := if s.sec.zeroing then s else s.zeroBegin
      let s2 := { s1 with sec := { s1.sec with zeroDebug := true } }
      (s2.each s2.present fun s l => if (s.place l).step.isNone then s.cairn l else s).zeroDebugRun)

end Sys2Proof.Machine
end

