-- ==== Sys2Proof/Machine/Errors.lean ====
section
/-! DEFINITION. Tiles that fail: retirement, spares, buddies and the tile's cairn; step restarts; memory errors; the records of both
(R20, R21, R100 to R102, R496 to R501, R598, R601). -/

namespace Sys2Proof.Machine

/-! ## Retirement of a tile (R20, R496, R497) -/

/-- Logical tile t is neither retired nor unavailable. -/
def State.tileUp (s : State) (t : Nat) : Bool := t < 1024 && (s.physOf t).isSome && (s.tile t).retiring.isNone

/-- Candidates for the buddy of tile t, in the order searched: t xor 1, 2, 3, then ascending modulo 256 from t + 1. -/
def buddyOrder (t : Nat) : List Nat :=
  [Nat.xor t 1, Nat.xor t 2, Nat.xor t 3] ++ (List.range 255).map fun k => t / 256 * 256 + (t + 1 + k) % 256

/-- Tile b runs a replay path. -/
def State.isBuddy (s : State) (b : Nat) : Bool := s.tiles.any fun x => x.2.buddy == some b

/-- The buddy of tile t: the first candidate that is up and serves no replay path, else the first that is up. -/
def State.findBuddy (s : State) (t : Nat) : Option Nat :=
  let up := (buddyOrder t).filter fun b => b != t && s.tileUp b
  match up.find? fun b => !(s.isBuddy b) with
  | some b => some b
  | none => up.head?

/-- STATE of a physical tile (R597): 0 spare, 1 serving, 2 retired. -/
def State.physSt (s : State) (i : Nat) : Nat := s.fld (Reg.CFG_PHYS_MAP i) Fld.CFG_PHYS_MAP_STATE

/-- Spares left in quadrant q and not promised to an index, in physical order. -/
def State.sparesOf (s : State) (q : Nat) : List Nat :=
  ((List.range 272).map fun k => q * 272 + k).filter fun i => s.physSt i == 0 && !(s.tiles.any fun x => x.2.spare == some i)

/-- Bytes (x, y) of a physical tile. -/
def xyBytes (i : Option Nat) : List Byte :=
  match i with
  | some i => leBytes 1 (i % 272 % 17) ++ leBytes 1 (i % 272 / 17)
  | none => leBytes 2 0xFFFF

/-- Placements present that list tile t. -/
def State.placesOn (s : State) (t : Nat) : List Nat := s.present.filter fun l => (s.place l).cfg.tiles.contains t

/-- The step of placement l in flight runs on a tile of quadrant q. -/
def State.inQuad (s : State) (l q : Nat) : Bool := (s.place l).step.isSome && (s.place l).cfg.tiles.any fun t => t / 256 == q

/-- The maps changed: the map record is to be written (R598). -/
def State.mapChanged (s : State) : State := { s with clk := { s.clk with mapDirty := some (s.clk.mapDirty.getD s.now) } }

/-- Runs on a physical tile or its slice are given up, and the requests go with the tile (R410). -/
def State.dropRuns (s : State) (i : Nat) : State :=
  let mine := fun o => calPhys o == some i
  let s1 := s.abandonRuns mine false
  let held := s1.cal.held.filter mine
  { s1 with cal := { s1.cal with held := s1.cal.held.filter fun o => !(mine o) } }.each held fun s o => s.calEnds o

/-- A placement whose index became unavailable is fenced at its cairn: its ACTIVE contexts end with FENCED (R21). -/
def State.fenceIndex (s : State) (l : Nat) : State :=
  if (s.place l).fenced then s
  else
    (s.setPlace l { s.place l with fenced := true }).each (s.ctxsOf l) fun s i =>
      if (s.ctx i).st == .active then (s.complete i stFenced).putCtx i { s.ctx i with st := .paused, tree := none }
      else s.setCtx i { s.ctx i with tree := none }

/-- A spare of quadrant q for an index, if one is left (R20). -/
def State.chooseSpare (s : State) (q : Nat) : Option Nat × State :=
  let sp := s.sparesOf q
  if sp.isEmpty then (none, s) else (sp[Config.spareChoice s.free % sp.length]?, s.useFree)

/-- Physical tile i is retired for good; an index that was promised it as a spare gets another, or none. -/
def State.physRetired (s : State) (i : Nat) : State :=
  let s1 := ((s.wrReg (Reg.CFG_PHYS_MAP i) (BitVec.ofNat 64 (2 * 2 ^ Fld.CFG_PHYS_MAP_STATE.lo))).dropRuns i).mapChanged
  s1.each ((s1.tiles.filter fun x => x.2.spare == some i).map Prod.fst) fun s t =>
    let r := s.chooseSpare (i / 272)
    r.2.setTile t { r.2.tile t with spare := r.1 }

/-- The tile that now serves index t is filled for every placement that lists it: its SRAM from the models' copies, its arrays before the
next step (R498). -/
def State.restage (s : State) (t : Nat) : State :=
  let s0 := (s.setTile t { s.tile t with copies := [], outs := [], attnOut := [], wrPtr := 0, sb := [], sbNext := 0, slPtr := 0 }).rstReg (Reg.IND_TILE_STAT t)
  let ws := ((s0.physOf t).map fun i => i % 272 % 2).getD 0
  (s0.setFld (Reg.IND_TILE_STAT t) Fld.IND_TILE_STAT_WSET ws).each (s0.placesOn t) fun s l =>
    let x := s.place l
    (s.setPlace l { x with fresh := if x.fresh.contains t then x.fresh else x.fresh ++ [t] }).stageTile l t ((x.cfg.tiles.findIdx? (· == t)).getD 0)

/-- The replacement at the tile's cairn: a spare takes over the index, or the index becomes unavailable (R20, R21, R498). -/
def State.replaceTile (s : State) (t : Nat) : State :=
  let x := s.tile t
  let q := t / 256
  let r := Reg.CFG_TILE_MAP t
  let s1 := match s.physOf t with
    | some i => s.physRetired i
    | none => s
  let s2 := { s1.setTile t { x with retiring := none, buddy := none, spare := none, unavail := x.spare.isNone } with
    clk := { s1.clk with tileWant := s1.clk.tileWant.filter (· != t) } }.bump (Reg.TILE_QFLT q) Fld.TILE_QFLT_RETIRED
  match x.spare with
  | some j =>
    let s3 := ((s2.setFld r Fld.CFG_TILE_MAP_X (j % 272 % 17)).setFld r Fld.CFG_TILE_MAP_Y (j % 272 / 17)).setFlag r Fld.CFG_TILE_MAP_SPARE_IN true
    let s4 := s3.wrReg (Reg.CFG_PHYS_MAP j) (BitVec.ofNat 64 (t + 2 ^ Fld.CFG_PHYS_MAP_STATE.lo))
    let s5 := s4.setFld (Reg.TILE_QFLT q) Fld.TILE_QFLT_SPARES (s4.fld (Reg.TILE_QFLT q) Fld.TILE_QFLT_SPARES - 1)
    (s5.wrReg (Reg.TILE_TEST t) (s5.phy j).testReg).restage t
  | none =>
    let s3 := (s2.setFld r Fld.CFG_TILE_MAP_X 0).setFld r Fld.CFG_TILE_MAP_Y 0
    let s4 := ((s3.setFlag r Fld.CFG_TILE_MAP_AVAIL false).setFlag r Fld.CFG_TILE_MAP_SPARE_IN false).bump (Reg.TILE_QFLT q) Fld.TILE_QFLT_UNAVAIL
    (s4.rstReg (Reg.IND_TILE_STAT t)).each (s4.placesOn t) fun s l => s.fenceIndex l

/-- The tile's cairn has come: no placement that lists it has a step in flight. -/
def State.tileCairnNow (s : State) (t : Nat) : Bool := (s.placesOn t).all fun l => (s.place l).step.isNone

/-- The tiles of a list that are at their cairn with a retirement decided are replaced. -/
def State.replaceAll (s : State) (ts : List Nat) : State :=
  s.each ts fun s t => if (s.tile t).retiring.isSome && s.tileCairnNow t then s.replaceTile t else s

/-- A pass taken to the replay path: computed digitally, from its beginning (R497). -/
def Pass.toReplay (x : Pass) : Pass :=
  { x with fmt := 0, replay := true, repeated := false, resBad := false, counted := false, mism := [], cols := [], tally := [], round := [],
           doneCh := [], zro := 0, sat := 0 }

/-- The pass at work on a tile goes to the replay path; an array pass counts there (R497). -/
def State.replayPass (s : State) (t : Nat) : State :=
  match (s.tile t).pass with
  | some x => if x.replay then s
    else (if x.fmt = 0 then s else s.bump (Reg.TILE_FLT t) Fld.TILE_FLT_REPLAY).setTile t { s.tile t with pass := some x.toReplay }
  | none => s

/-- A tile is retired for a cause: 1 residue, 2 arrays, 3 outliers, 4 test. The remaining work of the step in flight goes to a
buddy; with no buddy left, the steps with a tile in the quadrant are abandoned, their contexts staying ready (R496, R497). -/
def State.decideRetire (s : State) (t cause : Nat) : State :=
  if !(s.tileUp t) then s
  else
    let (spare, s0) := s.chooseSpare (t / 256)
    let s1 := s0.fault 0x0101 (if spare.isSome then 1 else 2) srcHw t (xyBytes (s.physOf t) ++ xyBytes spare ++ leBytes 1 cause)
    let s2 := { s1.setTile t { s1.tile t with retiring := some cause, spare := spare } with
      clk := { s1.clk with tileWant := s1.clk.tileWant ++ [t] } }
    let b := s2.findBuddy t
    let carried := (s2.tiles.filter fun x => x.2.buddy == some t).map Prod.fst
    let s3 := (s2.each (t :: carried) fun s x => s.setTile x { s.tile x with buddy := b }).replayPass t
    let s4 := if b.isSome then s3
      else s3.each s3.present fun s l => if s.inQuad l (t / 256) then s.abandon l false else s
    s4.replaceAll [t]

/-- TILE_CAIRN: a retired tile's cairn (R20). -/
def execTileCairn (tile at_ : Nat) (s : State) : Res :=
  let s := s.tick at_
  onObject (decide (tile < 1024)) (s.replaceAll [tile])

/-- QUADRANT_CAIRN: no step with a tile in the quadrant is in flight, after PCP's request. Retired tiles of the quadrant are at
their cairn too; the request ends, and with it the stop of step building (R337, R20). -/
def State.quadCairn (s : State) (q : Nat) : State :=
  if s.clk.quadWant.contains q && !(s.present.any fun l => s.inQuad l q) then
    let s1 := s.replaceAll (s.clk.tileWant.filter fun t => t / 256 == q)
    { s1 with clk := { s1.clk with quadWant := s1.clk.quadWant.filter (· != q) } }
  else s

/-! ## Steps that restart (R500) -/

/-- The step in flight of placement l meets an uncorrectable word of its own data on tile t: it runs again from its first layer,
once; the second time its contexts' work is discarded. -/
def State.stepRestart (s : State) (l t : Nat) : State :=
  match (s.place l).step with
  | none => s
  | some st =>
    let s1 := if st.restarted then s else s.bump (Reg.TILE_FLT t) Fld.TILE_FLT_STEP_RST
    let s2 := s1.each (s1.place l).cfg.tiles fun s t => s.dropWork l t
    if st.restarted then
      s2.setPlace l { s2.place l with step := some { st with slots := st.slots.map fun x => { x.drop stFenced with stay := x.discard.isNone } } }
    else
      let again := fun (x : Slot) => if x.discard.isSome then x else { x with done := false, tokens := [], lps := [], accepted := [] }
      (s2.setPlace l { s2.place l with step := some { st with restarted := true, ran := [], slots := st.slots.map again } }).fault 0x0202 0 srcHw l
        (leBytes 4 (s2.place l).steps)

/-! ## Memory errors (R499, R501, R519) -/

/-- A placement's model has an uncorrectable word in its weights: every placement of the model is fenced (R499). -/
def State.fenceModel (s : State) (m a : Nat) : State :=
  (s.ueAt a).each (s.placesOfModel m) fun s l => s.fencePlace l 0xFFFF

/-- A step read an uncorrectable word of a context's page: the context's work in it is discarded and it pauses (R499). -/
def State.dropForPage (s : State) (l i a : Nat) : State :=
  let s1 := s.ueAt a
  match (s1.place l).step with
  | some st => match st.slots.find? fun x => x.ctx == i with
    | some x => s1.setSlot l (x.drop stFenced)
    | none => s1
  | none => s1

/-- Uncorrectable tile-SRAM words: staged data is read again from the stack copy, all that the tile stages, since no rule lays it out
(log entry 98); data of a step in flight restarts it (R499). -/
def State.tileWord (s : State) (t off : Nat) : State :=
  let s1 := (s.bump (Reg.TILE_FLT t) Fld.TILE_FLT_ECC_UE).fault 0x0201 2 srcHw 0 (leBytes 8 (t * tileSram + off))
  let staged := ((s1.tile t).staged.map Prod.snd).sum
  if off < staged then
    s1.each (s1.placesOn t) fun s l =>
      let y := s.tile t
      (s.setTile t { y with copies := y.copies.filter fun c => c.place != l || decide (s.stagedLayers l ≤ c.layer) }).stageTile l t
        (((s.place l).cfg.tiles.findIdx? (· == t)).getD 0)
  else s1.each ((s1.placesOn t).filter fun l => (s1.place l).step.isSome) fun s l => s.stepRestart l t

/-- A 32-byte unit of device memory reads as uncorrectable from now on. -/
def State.taint (s : State) (u : Nat) : State :=
  if s.mem.poison.contains u then s
  else { s with mem := { s.mem with poison := insBy (fun a b => decide (a < b)) u s.mem.poison } }

/-- PATROL_SCRUB: an address below 0x300_0000_0000 lies in a stack; from there on addresses count 2 MiB of SRAM for each logical
tile. A corrected word is written back and counted; an uncorrectable one is logged, and acts when it is next used (R501). -/
def execPatrolScrub (addr : Nat) (corrected uncorrectable : Bool) (s : State) : Res :=
  onObject (decide (addr < memEnd + 1024 * tileSram))
    (if addr < memEnd then
       let s1 := s.when corrected fun s => s.bump (Reg.MEM_ECC (stackOf addr)) Fld.MEM_ECC_CE
       s1.when uncorrectable fun s => (s.ueAt addr).taint (addr / 32)
     else
       let t := (addr - memEnd) / tileSram
       let s1 := s.when corrected fun s => s.bump (Reg.TILE_FLT t) Fld.TILE_FLT_ECC_CE
       s1.when uncorrectable fun s => s.tileWord t ((addr - memEnd) % tileSram))

/-- A retirement on physical tile i is to be kept in its KIND 2 record; one that would exceed 256 entries retires the tile (R415). -/
def State.keepRet (s : State) (i : Nat) : State :=
  let s1 := s.noteFlash (.tile i)
  if ((s.phy i).arrays.filter fun a => a.2.retired || !a.2.retCols.isEmpty).length ≤ 256 then s1
  else match s1.logicalOf i with
    | some t => s1.decideRetire t 2
    | none => s1

/-! ## Slices on tiles (R406 to R408, R503) -/

/-- A calibration or test slice may start on physical tile i: a cairn of a placement there, or no step in flight there; no step
in flight is marked there, no earlier slice runs, and no quadrant cairn, swap or hold keeps it (R406, R407, R410). -/
def State.sliceMay (s : State) (i : Nat) : Bool :=
  let free := decide ((s.phy i).calBusyUntil ≤ s.now) && !(s.clk.quadWant.contains (i / 272))
  match s.logicalOf i with
  | none => free
  | some t =>
    let ls := s.placesOn t
    free && (ls.isEmpty || ls.any fun l => (s.place l).step.isNone) && ls.all fun l => !(s.place l).barrier &&
      match (s.place l).step with
      | some st => !(st.marks.contains t)
      | none => true

/-- Processor i is ALIVE (R493). -/
def State.alive (s : State) (i : Nat) : Bool := s.flag (Reg.FWP_PROC i) Fld.FWP_PROC_ALIVE
/-- PCP[q] is ALIVE (R467). -/
def State.pcp (s : State) (q : Nat) : Bool := s.alive (4 + q)

/-- The module stands at Critical or above (R459). -/
def State.critical (s : State) : Bool :=
  2 ≤ s.fld Reg.POW_STAT Fld.POW_STAT_EMERG || 2 ≤ s.fld Reg.THM_STAT Fld.THM_STAT_EMERG

/-- The processors that runs of an object need are alive (R410, R467). -/
def State.calUp (s : State) (o : CalObj) : Bool :=
  s.alive 0 && match o with
    | .tile _ | .conv _ => true
    | .cluster c _ => s.pcp (c / 512)
    | .lane i => s.pcp (i / 17 / 6)
    | .laser n => s.pcp (n / 256)

/-- Calibration has a run for physical tile i, at work or held, that may go on. -/
def State.calWants (s : State) (i : Nat) : Bool :=
  !s.critical && ((s.cal.running.map Prod.fst) ++ s.cal.held).any fun o => calPhys o == some i && s.calUp o

/-- A slice runs on physical tile i, of calibration (`kind` 0) or of a test (1): the steps that wait for it are marked (R407), and the
pointer between the two moves past it (R503). -/
def State.sliceOn (s : State) (i kind : Nat) : State :=
  let s1 := s.setPhy i { s.phy i with calBusyUntil := s.now + 1500, slicePtr := (kind + 1) % 2 }
  match s1.logicalOf i with
  | none => s1
  | some t => s1.each (s1.placesOn t) fun s l => match (s.place l).step with
    | some st => s.setPlace l { s.place l with step := some { st with marks := t :: st.marks } }
    | none => s

end Sys2Proof.Machine
end

