-- ==== Sys2Proof/Machine/LiveTests.lean ====
section
/-! DEFINITION. In-field tests of tiles: rounds, slices, signatures, withdrawals and TEST_RUN (R502 to R506, R518).
A test subject is a logical tile, or 1,024 + i for the spare physical tile i. -/

namespace Sys2Proof.Machine

/-- Physical tile of a test subject, if there is one to test. -/
def State.testPhys (s : State) (k : Nat) : Option Nat :=
  if k < 1024 then s.physOf k else if k < 1024 + 1088 && s.physSt (k - 1024) == 0 then some (k - 1024) else none

/-- TILE.TEST of a subject. -/
def State.testWord (s : State) (k : Nat) : Word64 := if k < 1024 then s.reg (Reg.TILE_TEST k) else (s.phy (k - 1024)).testReg

/-- TILE.TEST of a subject replaced. -/
def State.setTestWord (s : State) (k : Nat) (v : Word64) : State :=
  if k < 1024 then s.wrReg (Reg.TILE_TEST k) v else s.setPhy (k - 1024) { s.phy (k - 1024) with testReg := v }

/-- A field of TILE.TEST of a subject. -/
def State.testFld (s : State) (k : Nat) (f : Field) : Nat := getBits (s.testWord k) f.lo f.w

/-- A field of TILE.TEST of a subject set; a counter's value saturates. -/
def State.setTestFld (s : State) (k : Nat) (f : Field) (v : Nat) : State :=
  s.setTestWord k (putBits (s.testWord k) f.lo f.w (min v (2 ^ f.w - 1)))

/-- STATE of a subject (R518). -/
def State.testSt (s : State) (k : Nat) : Nat := s.testFld k Fld.TILE_TEST_STATE

/-- The spares of a quadrant as subjects, in physical order (R503). -/
def State.spareSubjects (s : State) (q : Nat) : List Nat :=
  (((List.range 272).map fun j => q * 272 + j).filter fun i => s.physSt i == 0).map (· + 1024)

/-- The subject at distance xor d: by logical index, or by order among the quadrant's spares. -/
def State.testMate (s : State) (k d : Nat) : Option Nat :=
  if k < 1024 then (if (s.physOf (Nat.xor k d)).isSome then some (Nat.xor k d) else none)
  else
    let l := s.spareSubjects ((k - 1024) / 272)
    (l.findIdx? (· == k)).bind fun j => l[Nat.xor j d]?

/-- The physical record of a subject updated. -/
def State.onTest (s : State) (k : Nat) (f : Phys → Phys) : State :=
  match s.testPhys k with
  | some i => s.setPhy i (f (s.phy i))
  | none => s

/-- A round falls due on a subject with no round at work. -/
def State.makeDue (s : State) (k round : Nat) : State :=
  if (s.testPhys k).isNone || s.testSt k ≠ 0 then s
  else (s.onTest k fun x => { x with testRound := round, testSlices := 0, testKind := 0, dueAt := some s.time }).setTestFld k Fld.TILE_TEST_STATE 1

/-- Placements are held while a tile of theirs is withdrawn (R505). -/
def State.freshHolds (s : State) (k : Nat) : State :=
  s.each (s.placesOn k) fun s l =>
    let hold := (s.place l).cfg.tiles.any fun t => match s.physOf t with
      | some i => (s.phy i).testKind == 2
      | none => false
    let s1 := s.setPlace l { s.place l with testHold := hold }
    if hold && (s1.place l).step.isNone then s1.dropAhead l else s1

/-- TEST_RUNs in progress learn that a subject's round has ended; the last one ends them (R506). -/
def State.testEnds (s : State) (k : Nat) : State :=
  s.each s.longOps fun s o => match o.pkt with
    | .testRun .. =>
      if o.wait.contains k then
        let w := o.wait.filter (· != k)
        let s1 := s.advanceLong { o with wait := w } (o.done + 1)
        match w, s1.longOf o.id with
        | [], some o1 => s1.endLong o1 stOK 0 0
        | _, _ => s1
      else s
    | _ => s

/-- A subject that fails is retired; a spare leaves the spares (R496, R504). -/
def State.failTest (s : State) (k : Nat) : State :=
  let s1 := s.setTestFld k Fld.TILE_TEST_FAIL (min 255 (s.testFld k Fld.TILE_TEST_FAIL + 1))
  if k < 1024 then s1.decideRetire k 4
  else
    let r := Reg.TILE_QFLT ((k - 1024) / 272)
    ((s1.physRetired (k - 1024)).setFld r Fld.TILE_QFLT_SPARES (s1.fld r Fld.TILE_QFLT_SPARES - 1)).bump r Fld.TILE_QFLT_RETIRED

/-- Quadrant of a subject. -/
def testQuad (k : Nat) : Nat := if k < 1024 then k / 256 else (k - 1024) / 272

/-- A subject's round completes. -/
def State.endRound (s : State) (k : Nat) (pass : Bool) : State :=
  let s1 := (s.setTestFld k Fld.TILE_TEST_STATE 0).setTestFld k Fld.TILE_TEST_OVERDUE 0
  let s2 := (s1.setTestWord k (putBits (s1.testWord k) 32 32 (s.time / 1000000000))).onTest k fun x => { x with testKind := 0 }
  let s3 := (s2.bump (Reg.TILE_QFLT (testQuad k)) Fld.TILE_QFLT_TESTS).testEnds k
  let s4 := if k < 1024 then s3.freshHolds k else s3
  if pass then s4.setTestFld k Fld.TILE_TEST_PASS (min 255 (s4.testFld k Fld.TILE_TEST_PASS + 1)) else s4.failTest k

/-- A round that no other signature can judge ends as the free value says (log entry 2). -/
def State.endLone (s : State) (k : Nat) : State := s.useFree.endRound k (Config.loneTestPasses s.free)

/-- The signature a subject formed for a round. -/
def State.sigOf (s : State) (k round : Nat) : Option Word64 :=
  (s.testPhys k).bind fun i => ((s.phy i).sigs.find? fun x => x.1 == round).map Prod.snd

/-- The round a subject works on. -/
def State.roundOf (s : State) (k : Nat) : Nat := ((s.testPhys k).map fun i => (s.phy i).testRound).getD 0

/-- A subject's signature for its round is there: the pair is compared (R504). -/
def State.judge (s : State) (k : Nat) : State :=
  match s.testMate k 1 with
  | none => s.endLone k
  | some m =>
    if s.testSt m ≠ 3 || s.roundOf m ≠ s.roundOf k then s
    else if s.sigOf m (s.roundOf k) = s.sigOf k (s.roundOf k) then (s.endRound k true).endRound m true
    else if (s.testMate (min k m) 2).isNone then (s.endLone k).endLone m
    else (s.setTestFld k Fld.TILE_TEST_STATE 4).setTestFld m Fld.TILE_TEST_STATE 4

/-- A subject's signature is formed. -/
def State.record (s : State) (k : Nat) (sig : Word64) : State :=
  (s.onTest k fun x => { x with sigs := (x.testRound, sig) :: x.sigs.filter (fun y => y.1 != x.testRound) }).setTestFld k Fld.TILE_TEST_STATE 3

/-- The pair that waits for subject z as its third tile. -/
def State.thirdFor (s : State) (z : Nat) : Option (Nat × Nat) :=
  (s.testMate z 2).bind fun b => (s.testMate b 1).bind fun m =>
    if b < m && s.testSt b == 4 && s.testSt m == 4 then some (b, m) else none

/-- The third tile's signature judges the pair: a tile that matches neither of the other two fails (R504). -/
def State.judgeThird (s : State) (z b m : Nat) (sig : Word64) : State :=
  let ok := fun k => s.sigOf k (s.roundOf k) == some sig
  let s1 := (s.endRound b (ok b)).endRound m (ok m)
  if ok b || ok m then s1 else s1.failTest z

/-- TEST_DUE: the round n of a pair whose due time has come falls due on both its tiles (R503). -/
def execTestDue (tile at_ : Nat) (s : State) : Res :=
  let s := s.tick at_
  onObject (decide (tile < 1024 + 1088))
    (let per := s.fld Reg.TILE_TEST_CFG Fld.TILE_TEST_CFG_PERIOD * 60000000000
     let k := if tile < 1024 then tile % 256 / 2 else (((s.spareSubjects (testQuad tile)).findIdx? (· == tile)).getD 0) / 2
     let off := k * per / 128
     if per = 0 || s.time < off then s
     else
       let n := (s.time - off) / per
       let due := n * per + off
       let fresh := fun j => match s.testPhys j with
         | some i => match (s.phy i).dueAt with
           | some d => decide (d < due)
           | none => true
         | none => false
       if fresh tile then (tile :: (s.testMate tile 1).toList).foldl (fun s j => s.makeDue j n) s else s)

/-- A test wants a slice on physical tile i: its own round, or as the third tile of a pair. -/
def State.testWants (s : State) (i : Nat) : Bool :=
  let k := (s.logicalOf i).getD (1024 + i)
  (s.thirdFor k).isSome || ((s.testSt k == 1 || s.testSt k == 2) && (s.phy i).testKind == 0)

/-- TEST_SLICE: one slice of a test, at a cairn; the sixteenth completes the operands, and `sig` is the signature (R503). -/
def execTestSlice (tile at_ : Nat) (sig : Word64) (s : State) : Res :=
  let s := s.tick at_
  onObject (decide (tile < 1024 + 1088))
    (match s.testPhys tile with
     | none => s
     | some i =>
       if !(s.sliceMay i) || ((s.phy i).slicePtr == 0 && s.calWants i) then s
       else match s.thirdFor tile with
       | some (b, m) =>
         let n := (s.phy i).third + 1
         let s1 := (s.sliceOn i 1).onTest tile fun x => { x with third := if n = 16 then 0 else n }
         if n = 16 then s1.judgeThird tile b m sig else s1
       | none =>
         if s.testSt tile ≠ 1 && s.testSt tile ≠ 2 || (s.phy i).testKind ≠ 0 then s
         else
           let n := (s.phy i).testSlices + 1
           let s1 := ((s.sliceOn i 1).onTest tile fun x => { x with testSlices := n }).setTestFld tile Fld.TILE_TEST_STATE 2
           if n < 16 then s1 else (s1.record tile sig).judge tile)

/-- Residue mismatches recovered in the last second reach RES_LIM (R505). -/
def State.resOverdue (s : State) (t : Nat) : Bool :=
  t < 1024 && max 1 (s.fld Reg.TILE_TEST_CFG Fld.TILE_TEST_CFG_RES_LIM) ≤ ((s.tile t).resTimes.filter fun x => s.time ≤ x + 1000000000).length

/-- A withdrawal is decided: OVERDUE and one log entry for an overdue tile, and a hold on its placements (R505). -/
def State.withdraw (s : State) (k : Nat) (overdue : Bool) : State :=
  let s1 := if s.testSt k = 0 then s.makeDue k (s.roundOf k + 1) else s
  let s2 := (if overdue then s1.setTestFld k Fld.TILE_TEST_OVERDUE 1 else s1).fault 0x0103 1 srcHw k (leBytes 4 (s1.roundOf k))
  let s3 := s2.onTest k fun x => { x with testKind := 2 }
  if k < 1024 then (s3.setTile k { s3.tile k with resTimes := [] }).freshHolds k else s3

/-- The test of a withdrawn tile runs in one piece: it is compared with what its partner formed for the round, and returns or is
retired. -/
def State.onePiece (s : State) (k : Nat) (sig : Word64) : State :=
  let was := s.testSt k
  let s1 := ((s.setTestFld k Fld.TILE_TEST_STATE 5).onTest k fun x => { x with testKind := 0 }).record k sig
  let s2 := if k < 1024 then s1.freshHolds k else s1
  match s2.testMate k 1 with
  | none => s2.endLone k
  | some m => if was = 4 || s2.testSt m ≠ 3 || s2.roundOf m ≠ s2.roundOf k then s2.endLone k else s2.judge k

/-- TEST_OVERDUE: a tile that is overdue, or that TEST_RUN KIND 1 withdraws, is tested in one piece at its cairn (R505). -/
def execTestOverdue (tile at_ : Nat) (sig : Word64) (s : State) : Res :=
  let s := s.tick at_
  onObject (decide (tile < 1024 + 1088))
    (match s.testPhys tile with
     | none => s
     | some i =>
       let x := s.phy i
       let late := s.testSt tile != 0 && match x.dueAt with
         | some d => decide (d + 1000000000 ≤ s.time)
         | none => false
       if x.testKind = 0 && !late && !(s.resOverdue tile) then s
       else
         let s1 := if x.testKind = 2 then s else s.withdraw tile (late || s.resOverdue tile)
         if tile < 1024 && !(s1.tileCairnNow tile) then s1 else s1.onePiece tile sig)

/-- TEST_RUN as CP starts it (R506). -/
def State.svcTestRun (s : State) (h : Hdr) (tile : BitVec 16) (kind : BitVec 8) (rsv : BitVec 40) : State :=
  let t := tile.toNat
  s.checked h 0x52 [chkForm (decide (t < 1024) || t == 0xFFFF) 0, chkForm (decide (kind.toNat ≤ 1)) 2, chkForm (rsv == 0) 3] fun s =>
    let all := if t = 0xFFFF then List.range 1024 else [t]
    let (left, s) := match s.fw.testLeft with
      | some (k, l) => if t = 0xFFFF && k = kind.toNat then (l, { s with fw := { s.fw with testLeft := none } }) else (all, s)
      | none => (all, s)
    let ts := left.filter fun t => (s.physOf t).isSome
    s.startLong h (.testRun tile kind rsv) ts.length fun o s =>
      let s1 := s.each ts fun s k => (k :: (s.testMate k 1).toList).foldl (fun s j => s.makeDue j (s.roundOf k + 1)) s
      let s2 := if kind = 1 then s1.each ts fun s k => s.onTest k fun x => { x with testKind := if x.testKind = 0 then 1 else x.testKind } else s1
      if ts.isEmpty then s2.endLong o stOK 0 0 else s2.setLong { o with wait := ts }

end Sys2Proof.Machine
end

