-- ==== Sys2Proof/Machine/Arrays.lean ====
section
/-! DEFINITION. Charge arrays: where a share's weights lie, the write path with worn cells, and the reads of one array
(03_charge_arrays.md, R115, R117 to R123, R128). -/

namespace Sys2Proof.Machine

/-! ## A share's weights (R256 to R258, R30 to R32) -/

/-- Scale byte and raw codes of block b of output n of a share, from its tile-SRAM copy (R87, R258). -/
def ShareCopy.blockRaw (c : ShareCopy) (l : Layer) (sh : Share) (n b : Nat) : Nat × List Nat :=
  decodeBlock (fmtBits l.wfmt) ((c.bytes.drop ((n * sh.nb + b) * blockBytes (fmtBits l.wfmt))).take (blockBytes (fmtBits l.wfmt)))

/-- Scale byte and codes of block b of output n: an unused code is -M, a scale byte of 0xFF makes every code 0 (R32). -/
def ShareCopy.block (c : ShareCopy) (l : Layer) (sh : Share) (n b : Nat) : Nat × List Int :=
  let (e, raw) := c.blockRaw l sh n b
  (e, if e = 255 then List.replicate 32 0 else raw.map (decodeCode (fmtBits l.wfmt)))

/-- Unused codes and unused scale bytes of a share; padding counts nowhere (R32, R33, R63). -/
def ShareCopy.reserved (c : ShareCopy) (l : Layer) (sh : Share) : Nat :=
  ((List.range sh.nCount).flatMap fun n => (List.range sh.nb).map fun b =>
    let (e, raw) := c.blockRaw l sh n b
    if e = 255 then 1 else ((raw.take (sh.kCount - 32 * b)).filter fun v => v == 2 ^ (fmtBits l.wfmt - 1)).length).sum

/-- The means m_k of a block's rows from the repair table, in activation digits (R98, R258). -/
def ShareCopy.rowMeans (c : ShareCopy) (sh : Share) (b : Nat) : List Rat :=
  (List.range 32).map fun r =>
    if sh.kCount ≤ 32 * b + r then 0 else (signed 16 (numAt c.rep (2 * (32 * b + r)) 2) : Rat) / 256

/-- The layer and share that tile t runs for a placement. -/
def State.shareOf (s : State) (l t layer : Nat) : Option (Model × Layer × Share × Nat) :=
  let c := (s.place l).cfg
  let x := s.model c.model
  match x.img.layers[layer]?, c.tiles.findIdx? (· == t) with
  | some y, some i => (y.shares[i]?).map fun sh => (x, y, sh, i)
  | _, _ => none

/-- The placement in slot `pslot` of tile t (R89). -/
def State.placeIn (s : State) (t pslot : Nat) : Option Nat :=
  (s.placesOn t).find? fun l => (s.place l).pslot.contains (t, pslot)

/-! ## The write path (R68, R87, R98, R100, R101) -/

/-- Rows' checksum cells and residuals from the weight cells as stored (R68). -/
def Arr.sums (a : Arr) : Arr :=
  (List.range 32).foldl (fun a r =>
    let S : Int := ((List.range 32).map fun j => tget 0 a.cells (r * 64 + j)).sum
    let c := rtzRat ((S : Rat) / 32)
    { a with cells := tset 0 a.cells (r * 64 + 32) c, resid := tset 0 a.resid r (S - 32 * c) }) a

/-- Column j as stored when its digits are d: stuck cells keep their value, and the deviations are recorded (R98, R99). -/
def Arr.putCol (a : Arr) (j : Nat) (d adj : List Int) : Arr :=
  (List.range 32).foldl (fun a r =>
    let key := r * 64 + j
    match a.stuck.find? fun x => x.1 == key with
    | some (_, s) => { a with cells := tset 0 a.cells key s, dev := tset 0 a.dev key (s - d.getD r 0) }
    | none => { a with cells := tset 0 a.cells key (d.getD r 0), dev := tset 0 a.dev key (adj.getD r 0) }) a

/-- Rows of r's half that may be adjusted, by |m| descending then row ascending. -/
def adjRows (a : Arr) (m : List Rat) (j r : Nat) : List Nat :=
  let half := (List.range 16).map (· + r / 16 * 16)
  sortBy (fun x y => decide (absRat (m.getD y 0) < absRat (m.getD x 0)))
    (half.filter fun k => k != r && !(a.stuck.any fun x => x.1 == k * 64 + j) && m.getD k 0 != 0)

/-- Adjustments for one stuck cell: digits, adjustments, residual. -/
def adjLoop (lim : Rat) (maxAdj : Nat) (m : List Rat) : List Nat → Nat → List Int × List Int × Rat → List Int × List Int × Rat
  | [], _, x => x
  | k :: t, n, (d, adj, res) =>
    if absRat res ≤ lim || n = maxAdj then (d, adj, res)
    else
      let w := d.getD k 0
      let v := max (-3 - w) (min (3 - w) (rnaRat (-res / m.getD k 0)))
      if v = 0 then adjLoop lim maxAdj m t n (d, adj, res)
      else adjLoop lim maxAdj m t (n + 1) (d.set k (w + v), adj.set k (adj.getD k 0 + v), res + v * m.getD k 0)

/-- Worn-cell compensation of column j: digits, adjustments and the residual left (R98). -/
def compensate (a : Arr) (lim : Rat) (maxAdj : Nat) (m : List Rat) (j : Nat) (d : List Int) : List Int × List Int × Rat :=
  ((List.range 32).filter fun r => a.stuck.any fun x => x.1 == r * 64 + j).foldl (fun x r =>
    adjLoop lim maxAdj m (adjRows a m j r) 0
      (x.1, x.2.1, x.2.2 + ((tget 0 a.stuck (r * 64 + j) - x.1.getD r 0 : Int) : Rat) * m.getD r 0)) (d, List.replicate 32 0, 0)

/-- The arrays that hold the digit set of a chunk and copy. -/
def setArrays (bank : Tbl Arr) (pslot layer gen chunk copy : Nat) : List Nat :=
  (bank.filter fun a => a.2.holds pslot layer gen chunk && a.2.copy == copy).map Prod.fst

/-- Columns retired in any array of a list. -/
def retiredIn (bank : Tbl Arr) (as : List Nat) : List Nat := (as.flatMap fun a => (tget {} bank a).retCols).eraseDups

/-- The columns of an array written as zero. -/
def Arr.zeroCols (a : Arr) (js : List Nat) : Arr :=
  if js.isEmpty then a else (js.foldl (fun a j => a.putCol j (List.replicate 32 0) (List.replicate 32 0)) a).sums

/-- Retired columns of a layer's digit sets in a bank: chunk and column (R101). -/
def goneOf (bank : Tbl Arr) (pslot layer gen : Nat) : List (Nat × Nat) :=
  ((bank.filter fun a => a.2.valid && a.2.pslot == pslot && a.2.layer == layer && a.2.gen == gen).flatMap fun a =>
    a.2.retCols.map fun j => (a.2.win * 512 + a.2.chunk, j)).eraseDups

/-- One more retired column in array `no` of logical tile t keeps the layer that the array holds within 4,096 outliers (R101). -/
def State.roomForCol (s : State) (t i no j : Nat) : Bool :=
  let bank := (s.phy i).arrays
  let a := tget {} bank no
  match s.placeIn t a.pslot with
  | some l =>
    let c := (s.place l).cfg
    match (s.model c.model).img.layers[a.layer]?, a.valid with
    | some y, true =>
      let n := ((y.shares[(c.tiles.findIdx? (· == t)).getD 0]?).map Share.woutN).getD 0
      decide (n + 32 * ((goneOf bank a.pslot a.layer a.gen ++ [(a.win * 512 + a.chunk, j)]).eraseDups).length ≤ 4096)
    | _, _ => true
  | none => true

/-- The write of one array: digits, compensation, retirements found, sums. It answers the array and the columns whose residual
is too large (R98, R100). -/
def writeArr (a : Arr) (lim : Rat) (maxAdj : Nat) (m : List Rat) (zero : List Nat) (digits : List (List Int)) : Arr × List Nat :=
  (List.range 32).foldl (fun (x : Arr × List Nat) j =>
    let d := digits.getD j (List.replicate 32 0)
    if zero.contains j then (x.1.putCol j (List.replicate 32 0) (List.replicate 32 0), x.2)
    else
      let (d1, adj, res) := compensate a lim maxAdj m j d
      (x.1.putCol j d1 adj, if lim < absRat res then x.2 ++ [j] else x.2)) ({ a with cells := [], dev := [], resid := [] }, [])

/-- The lowest copy number free for a digit of a chunk (R95). -/
def freeCopy (bank : Tbl Arr) (pslot layer gen chunk digit : Nat) (dup : Bool) : Nat :=
  let used := (bank.filter fun a => a.2.holds pslot layer gen chunk && a.2.digit == digit && a.2.dup == dup).map fun a => a.2.copy
  ((List.range 513).find? fun k => !used.contains k).getD 0

/-- A column retires in array `no` of physical tile i: it is written as zero in every array of the digit set (R100). -/
def State.retireCol (s : State) (i no j : Nat) : State :=
  let x := s.phy i
  let a := tget {} x.arrays no
  let set := no :: (if a.valid then setArrays x.arrays a.pslot a.layer a.gen (a.win * 512 + a.chunk) a.copy else [])
  let bank := set.foldl (fun m k => tins k ((tget {} m k).zeroCols [j]) m) x.arrays
  let b := tget {} bank no
  (s.setPhy i { x with arrays := tins no { b with retCols := insBy (fun p q => decide (p < q)) j (b.retCols.filter (· != j)) } bank }).keepRet i

/-- The pass at work needs more copies of a chunk than the bank holds: writes of it are demand writes (R90, R91, R95). -/
def Pass.demands (x : Pass) (bank : Tbl Arr) (gen chunks D profile c : Nat) : Bool :=
  x.fmt != 0 && !(x.doneCh.contains c) && !(x.round.contains c) && decide (c < chunks) &&
    decide (copiesOf bank x.pslot x.layer gen (x.expert * chunks + c) D profile < max 1 x.copies)

/-- Array a serves the pass at work: one of its round, or for a run-ahead write one with a chunk still to be read (R28, R94). -/
def Pass.uses (x : Pass) (a : Arr) (gen chunks : Nat) (demand : Bool) : Bool :=
  x.fmt != 0 && (List.range chunks).any fun c => a.holds x.pslot x.layer gen (x.expert * chunks + c) &&
    (x.round.contains c || (!demand && !(x.doneCh.contains c)))

/-- The pass at work on a tile with its step, layer and share. -/
def State.passAt (s : State) (t : Nat) : Option (Pass × Step × Layer × Share) :=
  match (s.tile t).pass with
  | some x => match (s.place x.place).step, s.shareOf x.place t x.layer with
    | some st, some (_, y, sh, _) => some (x, st, y, sh)
    | _, _ => none
  | none => none

/-- The chunks that the pass at work on tile t waits for (R90). -/
def State.demanded (s : State) (t i : Nat) : List Nat :=
  match s.passAt t with
  | some (x, st, y, sh) =>
    (List.range sh.chunks).filter fun c => x.demands (s.phy i).arrays (st.gen % 16) sh.chunks (weightDigits (fmtBits y.wfmt)) st.profile c
  | none => []

/-- What the write of an array runs on: placement, image, layer, share, its index and the generation to be tagged. -/
structure WriteOf where
  l   : Nat
  y   : Layer
  sh  : Share
  idx : Nat
  gen : Nat

/-- The share that an array write of a layer takes for the placement in a slot of tile t (R87, R274). -/
def State.writeOf (s : State) (t pslot layer : Nat) : Option WriteOf :=
  (s.placeIn t pslot).bind fun l =>
    let c := (s.place l).cfg
    let src := s.layerSource c.model layer
    match src.1.layers[layer]?, c.tiles.findIdx? (· == t) with
    | some y, some i => (y.shares[i]?).map fun sh => { l := l, y := y, sh := sh, idx := i, gen := src.2 }
    | _, _ => none

/-- The write may run: the array is in service and no pass or resident share uses it; a placement at a barrier takes only what a hold has
written (R28, R93, R94, R102, R274). -/
def State.writeMay (s : State) (t : Nat) (a : Arr) (w : WriteOf) (demand copyLeft : Bool) : Bool :=
  let x := s.place w.l
  let held := match s.placeIn t a.pslot with
    | some m => a.valid && (s.place m).cfg.resident && a.gen == (s.model (s.place m).cfg.model).gen % 16 && !(s.place m).barrier
    | none => false
  let busy := match s.passAt t with
    | some (p, st, _, sh) => p.uses a (st.gen % 16) sh.chunks demand
    | none => false
  !a.retired && !held && !busy && (s.tile t).retiring.isNone && !x.testHold &&
    (!x.barrier || w.gen != (s.model x.cfg.model).gen) && (!x.cfg.resident || copyLeft)

/-- The tile-SRAM copy that a write reads; a streamed share is fetched ahead, and a prefetch that cannot read it is dropped and counted
(R23, R55, R183). -/
def State.fetchAhead (s : State) (t : Nat) (w : WriteOf) (layer e : Nat) : State × Option ShareCopy :=
  let x := s.model (s.place w.l).cfg.model
  match s.copyOf t w.l layer e w.gen with
  | some c => (s, some c)
  | none =>
    if (s.badShare w.l e x w.y w.sh).isSome then (s, none)
    else match s.readShare w.l layer e w.gen x w.y w.sh with
      | .inl c => (s.putCopy t c, some c)
      | .inr _ => (s.bump (Reg.KVT_PART_CNT x.part) Fld.KVT_PART_CNT_PF_DROP, none)

/-- The write itself: the array's digits from the copy, under the settings in force for the placement (R87, R98, R100, R104). -/
def State.writeArray (s : State) (t i no : Nat) (w : WriteOf) (cp : ShareCopy) (pslot layer digit : Nat) (dup : Bool) (chunk : Nat) : State :=
  let a := tget {} (s.phy i).arrays no
  let bare := tins no { a with valid := false } (s.phy i).arrays
  let gen := w.gen % 16
  let c := chunk % w.sh.chunks
  let copy := freeCopy bare pslot layer gen chunk digit dup
  let sibs := setArrays bare pslot layer gen chunk copy
  let zero := (a.retCols ++ retiredIn bare sibs).eraseDups
  let digits := (List.range 32).map fun j =>
    let n := c / w.sh.nb * 32 + j
    if w.sh.nCount ≤ n then List.replicate 32 0
    else ((cp.block w.y w.sh n (c % w.sh.nb)).2).map (weightDigit (fmtBits w.y.wfmt) digit)
  let cfg := s.asOf w.l
  let lim : Rat := (cfg.fld Reg.CAB_REPAIR_CFG Fld.CAB_REPAIR_CFG_RES_LIM : Rat) / 16
  let (b, bad) := writeArr a lim (cfg.fld Reg.CAB_REPAIR_CFG Fld.CAB_REPAIR_CFG_MAX_ADJ) (cp.rowMeans w.sh (c % w.sh.nb)) zero digits
  let b1 := { b.sums with valid := true, pslot := pslot, layer := layer, gen := gen, digit := digit, dup := dup, chunk := chunk % 512,
                          win := chunk / 512, copy := copy }
  let bank := sibs.foldl (fun m k => tins k ((tget {} m k).zeroCols a.retCols) m) (tins no b1 bare)
  (s.setPhy i { s.phy i with arrays := bank }).each bad fun s j =>
    if s.roomForCol t i no j then s.retireCol i no j else s.decideRetire t 3

/-- ARRAY_WRITE: array `array` of tile `tile` now holds digit `digit` of chunk `chunk` of the share that the placement in slot
`pslot` has of layer `layer` (R87 to R89). The chunk numbers output groups and blocks: group * blocks + block, for expert e on top of
e * chunks of one expert. A run-ahead write while a demand write waits and the write path's pointer stands at it is not granted (R91). -/
def execArrayWrite (tile array pslot layer digit : Nat) (dup : Bool) (chunk : Nat) (s : State) : Res :=
  onObject (decide (tile < 1024) && decide (array < 512) && decide (pslot < 16))
    (match s.physOf tile, s.writeOf tile pslot layer with
     | some i, some w =>
       let bank := (s.phy i).arrays
       let D := weightDigits (fmtBits w.y.wfmt)
       let e := chunk / w.sh.chunks
       let ds := s.demanded tile i
       let demand := ds.contains (chunk % w.sh.chunks) && match (s.tile tile).pass with
         | some p => p.pslot == pslot && p.layer == layer && p.expert == e
         | none => false
       let left := !(bank.any fun a => a.2.holds pslot layer (w.gen % 16) chunk && a.2.digit == digit && a.2.dup == dup && a.1 != array)
       if w.sh.chunks = 0 || D ≤ digit || (dup && (digit + 1 != D || (s.place w.l).cfg.profile != 3)) || w.sh.chunks * max 1 w.y.nExp ≤ chunk ||
           !(s.writeMay tile (tget {} bank array) w demand left) || (!demand && !ds.isEmpty && (s.tile tile).wrPtr == 0) then s
       else
         let s1 := s.setTile tile { s.tile tile with wrPtr := b2n demand }
         match s1.fetchAhead tile w layer e with
         | (s2, some cp) => s2.writeArray tile i array w cp pslot layer digit dup chunk
         | (s2, none) => s2
     | _, _ => s)

/-! ## Reads (R69 to R73, R80 to R86) -/

/-- One conversion of the ramp: sign times the first step whose threshold exceeds the magnitude; beyond the last step it saturates
(R71, R72). -/
def ramp (q : Rat) : Int × Bool :=
  let k := ((absRat q + 1 / 2).floor).toNat
  let v : Int := if 127 < k then 127 else (k : Nat)
  (if q < 0 then -v else v, 127 < k)

/-- Weight of the reference column in row r (R67). -/
def refCell (r : Nat) : Int := if r % 2 = 0 then 1 else -1

/-- Charge of a column for the digits driven. -/
def Arr.charge (a : Arr) (act : List Int) (rows : List Nat) (j : Nat) : Int :=
  (rows.map fun r => (if j = 33 then refCell r else tget 0 a.cells (r * 64 + j)) * act.getD r 0).sum

/-- Error bound of a column result in LSB (R86); `top` is the most significant digit. -/
def eCol (profile : Nat) (top : Bool) : Rat := if profile = 1 then 4 else if profile = 3 && top then 2 else 3

/-- Gain that the correction applies to a column under its set and drift factor (R115). -/
def Arr.gain (a : Arr) (j : Nat) : Rat := ((tget 0x8000 a.g j : Nat) : Rat) / 32768 / a.h

/-- A number held within a bound either way. -/
def clampRat (m x : Rat) : Rat := max (-m) (min m x)

/-- One sample of all 34 columns over the row groups converted: sums and saturated conversions. The charge stands at the column's gain and
offset, so that the correction gives the exact result but for the analogue error; that is free, and under the conditions of R86 bounded so that
the corrected result stays within `e` (log entry 2). -/
def Arr.sample (a : Arr) (e : Rat) (act : List Int) (groups : List (List Nat)) (free : Nat) : List (Int × Nat) :=
  (List.range 34).map fun j =>
    ((List.range groups.length).zip groups).foldl (fun (acc : Int × Nat) g =>
      let k := if a.gain j = 0 then 1 else a.gain j
      let raw : Rat := (Config.conversionNoise (free + g.1 * 34 + j) : Rat) / 1024
      let err := if a.accepted && !a.clamp then clampRat (max 0 (e / (groups.length * k) - 1 / 2)) raw else raw
      let (v, sat) := ramp ((a.charge act g.2 j : Rat) / k + ((tget 0 a.o j : Int) : Rat) / 64 + err)
      (acc.1 + v, acc.2 + b2n sat)) (0, 0)

/-- A mean corrected for gain and offset (R115). -/
def Arr.correct (a : Arr) (j nconv : Nat) (mean : Rat) (h : Rat) : Rat :=
  (mean - (nconv : Rat) * ((tget 0 a.o j : Int) : Rat) / 64) * (((tget 0x8000 a.g j : Nat) : Rat) / 32768 / h)

/-- Mean of samples of one column. -/
def meanOf (ss : List (List (Int × Nat))) (j : Nat) : Rat :=
  ((ss.map fun x => (x.getD j (0, 0)).1).sum : Int) / (max 1 ss.length : Nat)

/-- What reading one digit of one chunk gives: for each array its samples, the free values used and whether doubt remains. -/
structure ARead where
  arrs  : List (Nat × Arr × List (List (Int × Nat)))
  used  : Nat
  doubt : Bool

/-- Reference expectation of the rows driven (R85). -/
def refExpect (act : List Int) (groups : List (List Nat)) : Int := ((groups.flatten).map fun r => refCell r * act.getD r 0).sum

/-- The mean of the samples' corrected references. -/
def ARead.refMean (x : ARead) (nconv : Nat) : Rat :=
  let all := x.arrs.flatMap fun y => y.2.2.map fun smp => y.2.1.correct 33 nconv ((smp.getD 33 (0, 0)).1 : Int) y.2.1.h
  all.sum / (max 1 all.length : Nat)

/-- One more sample of every array of the read. -/
def ARead.more (x : ARead) (e : Rat) (act : List Int) (groups : List (List Nat)) (free : Nat) : ARead :=
  let step := groups.length * 34
  { x with arrs := ((List.range x.arrs.length).zip x.arrs).map fun y =>
             (y.2.1, y.2.2.1, y.2.2.2 ++ [y.2.2.1.sample e act groups (free + x.used + y.1 * step)]),
           used := x.used + x.arrs.length * step }

/-- The reads of one digit: one sample, or the pair's two under P3, then repeats on doubt to 2 and 4 samples (R46, R47, R84). -/
def readDigit (arrs : List (Nat × Arr)) (profile tol : Nat) (top : Bool) (act : List Int) (groups : List (List Nat)) (free : Nat) : ARead :=
  let x0 : ARead := ({ arrs := arrs.map fun a => (a.1, a.2, []), used := 0, doubt := false } : ARead).more (eCol profile top) act groups free
  let e : Rat := refExpect act groups
  let ok := fun (x : ARead) => decide (absRat (x.refMean groups.length - e) ≤ (tol : Rat) / 16)
  if profile = 1 || ok x0 then x0
  else if arrs.length = 2 then
    let x1 := x0.more (eCol profile top) act groups free
    if ok x1 then x1 else { x1 with doubt := true }
  else
    let x1 := x0.more (eCol profile top) act groups free
    if ok x1 then x1
    else
      let x2 := (x1.more (eCol profile top) act groups free).more (eCol profile top) act groups free
      if ok x2 then x2 else { x2 with doubt := true }

end Sys2Proof.Machine
end

