-- ==== Sys2Proof/Machine/Mordant.lean ====
section
/-! DEFINITION. Tile-layer passes: their issue, array cycles, Mordant terms, checksum comparisons, escalation and forwarding, the
append of keys and values, and the drift filters (R34 to R57, R63, R64, R90, R110 to R133, R146, R185, R495 to R497). -/

namespace Sys2Proof.Machine

/-! ## Quantising a pass (R34 to R36, R49, R53, R124 to R127) -/

/-- Blocks of a vector with their element counts. -/
def passBlocks (K : Nat) (v : List BF16) : List (List BF16 × Nat) :=
  ((List.range (ceilDiv K 32)).zip (blocksOf 0 (v.take K))).map fun x => (x.2, min 32 (K - 32 * x.1))

/-- What extraction finds: the elements extracted, those left for want of room, and candidates beyond two. -/
structure Extract where
  outl : List (Nat × Nat) := []
  ovf  : Nat := 0
  xs   : Nat := 0

/-- Extraction over a pass, vector then block ascending, at most 256 elements (R124, R126). -/
def extract (theta : F32) (K : Nat) (acts : List (List BF16)) : Extract :=
  ((List.range acts.length).zip acts).foldl (fun a v =>
    (((List.range (ceilDiv K 32)).zip (passBlocks K v.2))).foldl (fun a b =>
      if (b.2.1.take b.2.2).any bfNonzero then
        let (ch, xs) := chooseOutliers theta b.2.1 b.2.2
        let room := 256 - a.outl.length
        { outl := a.outl ++ (ch.take room).map fun r => (v.1, 32 * b.1 + r), ovf := a.ovf + (ch.length - room), xs := a.xs + xs }
      else a) a) {}

/-- The static scale byte at a format, if the layer has one (R35, R53). -/
def staticScale (y : Layer) (fmt : Nat) : Option Nat :=
  if y.ascale = 0xFF then none else some (y.ascale - rungsAbove (fmtBits y.afmt) fmt)

/-- A pass quantised at its format, with fresh counts and nothing read. -/
def Pass.quantise (x : Pass) (y : Layer) (K : Nat) : Pass :=
  let qs : List (List QBlock) := ((List.range x.acts.length).zip x.acts).map fun v =>
    ((List.range (ceilDiv K 32)).zip (passBlocks K v.2)).map fun b =>
      if x.ezBlocks.contains (v.1, b.1) then ⟨0, List.replicate 32 0, 0, 0, 0, 0⟩
      else
        let gone := (x.outl.filter fun o => o.1 == v.1 && o.2 / 32 == b.1).map fun o => o.2 % 32
        quantBlock x.fmt (staticScale y x.fmt) (((List.range 32).zip b.2.1).map fun e => if gone.contains e.1 then 0 else e.2) b.2.2 gone
  let all := qs.flatten
  { x with codes := qs.map fun v => v.flatMap QBlock.codes, scales := qs.map fun v => v.map QBlock.e,
           sat := (all.map QBlock.sat).sum, zro := (all.map QBlock.zro).sum, nonzero := (all.map QBlock.nonzero).sum,
           elems := (all.map QBlock.elems).sum, tally := [], gone := [], cols := [], doneCh := [], round := [], seen := [], k := 0, p := 0, g := 0,
           mism := [] }

/-- EXACT_ZERO blocks of a pass (R49). -/
def exactZero (K : Nat) (acts : List (List BF16)) : List (Nat × Nat) :=
  ((List.range acts.length).zip acts).flatMap fun v =>
    (((List.range (ceilDiv K 32)).zip (passBlocks K v.2)).filter fun b => !((b.2.1.take b.2.2).any bfNonzero)).map fun b => (v.1, b.1)

/-! ## PASS_ISSUE (R54, R90, R434, R497) -/

/-- The next round of a pass: the chunks not read whose tags match for every copy in use. The number of copies is chosen once, as many as
the chunks at hand have whole and no more than the vectors (R90, R94, R95). -/
def Pass.nextRound (x : Pass) (bank : Tbl Arr) (gen chunks D profile : Nat) : Pass :=
  let av := ((List.range chunks).filter fun c => !x.doneCh.contains c).map fun c =>
    (c, copiesOf bank x.pslot x.layer gen (x.expert * chunks + c) D profile)
  let ok := av.filter fun c => 0 < c.2
  let n := if x.copies ≠ 0 then x.copies else if ok.isEmpty then 0 else min x.acts.length (ok.foldl (fun m c => min m c.2) 513)
  { x with round := (ok.filter fun c => n ≤ c.2).map Prod.fst, copies := n }

/-- The round that the dispatcher issues next; a pass with a chunk whose tag does not match waits for it, and counts once in GEN_WAIT
(R90, R109). -/
def State.roundFor (s : State) (t i : Nat) (x : Pass) (gen chunks D profile : Nat) : State × Pass :=
  let y := x.nextRound (s.phy i).arrays gen chunks D profile
  let waits := decide (x.doneCh.length + y.round.length < chunks)
  (if waits && !x.waited then s.bump (Reg.CAB_TILE_CNT t) Fld.CAB_TILE_CNT_GEN_WAIT else s, { y with waited := x.waited || waits })

/-- The pass is put to work with its first round. -/
def State.readyPass (s : State) (t i : Nat) (x : Pass) (gen chunks D profile : Nat) : State :=
  let r := s.roundFor t i x gen chunks D profile
  r.1.setTile t { r.1.tile t with pass := some r.2 }

/-- The tile-SRAM copy that a pass of placement l's step runs on. A streamed share not there yet is read from the stacks: an address that
faults ends the work of every context of the step with VIOLATION (R183), an uncorrectable word fences the model's placements (R499). -/
def State.needCopy (s : State) (t l layer expert gen : Nat) (x : Model) (y : Layer) (sh : Share) : State × Option ShareCopy :=
  match s.copyOf t l layer expert gen with
  | some c => (s, some c)
  | none => match s.badShare l expert x y sh with
    | some a => (s.fenceModel (s.place l).cfg.model a, none)
    | none => match s.readShare l layer expert gen x y sh with
      | .inl c => (s.putCopy t c, some c)
      | .inr a =>
        let s1 := s.violate x.part a 4 false false
        (match (s1.place l).step with
          | some st => s1.setPlace l { s1.place l with step := some { st with slots := st.slots.map fun z => z.drop stViolation } }
          | none => s1, none)

/-- The first pass of a step on tile t starts no earlier than the step's issue + (t mod 256) x 7.8125 ns (R434). -/
def Step.startsOn (st : Step) (now t : Nat) : Bool :=
  (st.ran.any fun e => e.1 == t) || decide (t % 256 * 125 ≤ (now - st.builtAt) * 16)

/-- The inputs of a pass after the layer's NORM (R256). -/
def Layer.normed (y : Layer) (acts : List (List BF16)) (free : Nat) : List (List BF16) :=
  if y.norm = 0 then acts
  else ((List.range acts.length).zip acts).map fun v => (List.range v.2.length).map fun k => Config.normed y.norm v.2 k (free + v.1)

/-- A pass of a share put to work: digitally on the replay path or under a DIGITAL pin, otherwise quantised and read on the arrays. The
outliers extracted count once, at the first read: R127 says so of OUTLIER_OVF and AOUT_XS, and the model counts AOUT_EXT with them (DESIGN
CHOICE, log entry 99). -/
def State.startPass (s : State) (t i : Nat) (st : Step) (y : Layer) (sh : Share) (p0 : Pass) (part : Nat) : State :=
  let dead := (s.tile t).retiring.isSome
  let fmt := startFormat y ((st.lopt.getD p0.layer (0, 0)).1)
  if dead || fmt = 0 then
    let s1 := if fmt = 0 then s.bump (Reg.MDT_TILE_CHK t) Fld.MDT_TILE_CHK_DIG_PIN else s.bump (Reg.TILE_FLT t) Fld.TILE_FLT_REPLAY
    s1.setTile t { s1.tile t with pass := some { p0 with fmt := 0, replay := dead } }
  else
    let e := extract y.theta sh.kCount p0.acts
    let r := Reg.MDT_TILE_OUT t
    let s1 := ((s.bumpBy r Fld.MDT_TILE_OUT_AOUT_EXT e.outl.length).bumpBy r Fld.MDT_TILE_OUT_OUTLIER_OVF e.ovf).bumpBy r Fld.MDT_TILE_OUT_AOUT_XS e.xs
    let s2 := if e.ovf = 0 then s1 else s1.bump (Reg.MDT_PART_OUT part) Fld.MDT_PART_OUT_OVF_PASS
    s2.readyPass t i (({ p0 with fmt := fmt, outl := e.outl, ovf := e.ovf != 0 } : Pass).quantise y sh.kCount) (st.gen % 16) sh.chunks
      (weightDigits (fmtBits y.wfmt)) st.profile

/-- PASS_ISSUE: the inputs of a layer have arrived at a tile; they are quantised and the pass goes to the arrays whose tags match.
For an EXPERT_LINEAR layer `expert` names the expert whose share runs. -/
def execPassIssue (tile pslot layer expert : Nat) (acts : List (List BF16)) (s : State) : Res :=
  onObject (decide (tile < 1024) && decide (pslot < 16))
    (match s.physOf tile, s.placeIn tile pslot with
     | some i, some l =>
       match (s.place l).step, s.shareOf l tile layer with
       | some st, some (x, y, sh, si) =>
         if (s.tile tile).pass.isSome || acts.isEmpty || !(acts.all fun v => v.length == sh.kCount) || y.kind == 4 || max 1 y.nExp ≤ expert ||
             !(st.startsOn s.now tile) then s
         else match s.needCopy tile l layer expert st.gen x y sh with
         | (s0, none) => s0
         | (s0, some cp) =>
           let s1 := s0.bumpBy (Reg.MDT_TILE_ESC tile) Fld.MDT_TILE_ESC_WCODE_RSV (cp.reserved y sh)
           let ins := y.normed acts s1.free
           let p0 : Pass := { pslot := pslot, place := l, model := (s.place l).cfg.model, layer := layer, share := si, expert := expert, acts := ins,
                              fmt := 0, ezBlocks := exactZero sh.kCount ins }
           { s1 with free := s1.free + (if y.norm = 0 then 0 else acts.length) }.startPass tile i st y sh p0 x.part
       | _, _ => s
     | _, _ => s)

/-! ## ARRAY_CYCLE (R75, R79 to R85, R117, R128 to R131) -/

/-- Activation digits of block b of vector v in digit pass p. -/
def Pass.digits (x : Pass) (v b p : Nat) : List Int :=
  (((x.codes.getD v []).drop (32 * b)).take 32).map (actDigit x.fmt p)

/-- Row groups of a digit pass, and whether it was split under sparse-adaptive (R80, R81). -/
def rowGroups (sparse : Bool) (act : List Int) : List (List Nat) × Bool :=
  if sparse && (act.filter (· != 0)).length ≤ 16 then ([List.range 32], false)
  else ([List.range 16, (List.range 16).map (· + 16)], sparse)

/-- What the module knows of the pass while it reads. -/
structure PassEnv where
  t       : Nat
  phys    : Nat
  part    : Nat
  nCount  : Nat
  nb      : Nat
  chunks  : Nat
  D       : Nat
  gen     : Nat
  profile : Nat
  sparse  : Bool
  confTol : Nat
  chkTol  : Nat
  coef    : List (Nat × Coef)

/-- An array as the step reads it: with the set in force at the step's build (R116). -/
def PassEnv.arr (v : PassEnv) (e : Nat × Arr) : Nat × Arr :=
  match v.coef.find? fun c => c.1 == 512 * v.phys + e.1 with
  | some c => (e.1, { e.2 with g := c.2.g, o := c.2.o, h := e.2.h * c.2.hs })
  | none => e

/-- Drift factor that an array's filter had left when the set of the step was in force (R117, R119). -/
def PassEnv.hBase (v : PassEnv) (no : Nat) : Rat := ((v.coef.find? fun c => c.1 == 512 * v.phys + no).map fun c => c.2.hs).getD 1

/-- The checksum value D of one array (R128). -/
def Arr.chkD (a : Arr) (act : List Int) (rows : List Nat) (nconv : Nat) (ss : List (List (Int × Nat))) : Rat :=
  let col := fun j => a.correct j nconv (meanOf ss j) a.h
  let e : Int := (rows.map fun r => tget 0 a.resid r * act.getD r 0).sum
  col 32 - ((((List.range 32).map col).sum - (e : Rat)) / 32)

/-- The comparison, the drift sample and the clamp count of one array of a read. -/
def State.checkArr (s : State) (v : PassEnv) (x : Pass) (no : Nat) (act : List Int) (groups : List (List Nat))
    (ss : List (List (Int × Nat))) : State × Pass :=
  let b := s.phy v.phys
  let raw := tget {} b.arrays no
  let a := (v.arr (no, raw)).2
  let satW := ((List.range 33).map fun j => (ss.map fun y => (y.getD j (0, 0)).2).sum).sum
  let s1 := s.bumpBy (Reg.CAB_TILE_CNT v.t) Fld.CAB_TILE_CNT_CHK_SAT ((ss.map fun y => (y.getD 32 (0, 0)).2).sum)
  let (s2, x1) := if satW ≠ 0 then (s1.bump (Reg.MDT_TILE_CHK v.t) Fld.MDT_TILE_CHK_CHK_SKIP, x)
    else if (v.chkTol : Rat) / 16 < absRat (a.chkD act groups.flatten groups.length ss) then
      ((s1.bump (Reg.MDT_TILE_CHK v.t) Fld.MDT_TILE_CHK_CHK_MIS).bump (Reg.MDT_PART_OUT v.part) Fld.MDT_PART_OUT_CHK_MIS,
       { x with mism := if x.mism.contains no then x.mism else x.mism ++ [no] })
    else (s1, x)
  let e := refExpect act groups
  let (s3, rho) : State × Rat :=
    if e = 0 then (s2.useFree, Config.driftRatio s2.free) else (s2, a.correct 33 groups.length (meanOf ss 33) (v.hBase no) / (e : Rat))
  let s4 := s3.setPhy v.phys { b with arrays := tins no { raw with rhos := raw.rhos ++ [(e.natAbs, rho)] } b.arrays }
  if a.clamp && !x1.clamped then
    ((s4.bump (Reg.MDT_TILE_DRIFT v.t) Fld.MDT_TILE_DRIFT_CLAMP_PASS).bump (Reg.MDT_PART_OUT v.part) Fld.MDT_PART_OUT_CLAMP_PASS,
     { x1 with clamped := true })
  else (s4, x1)

/-- Column results of one digit read (R39, R115). -/
def colsOf (v : PassEnv) (vec c b d p : Nat) (act : List Int) (rows : List Nat) (nconv : Nat) (r : ARead) : List ColRes :=
  let n := (r.arrs.map fun y => y.2.2.length).sum
  ((List.range 32).filter fun j => c / v.nb * 32 + j < v.nCount).map fun j =>
    let sum := (r.arrs.map fun y => (y.2.2.map fun q => (q.getD j (0, 0)).1).sum).sum
    let corrected := (r.arrs.map fun y => y.2.1.correct j nconv (meanOf y.2.2 j) y.2.1.h).sum / (r.arrs.length : Rat)
    let worn : Int := (r.arrs.map fun y => (rows.map fun k => tget 0 y.2.1.dev (k * 64 + j) * act.getD k 0).sum).sum
    { v := vec, b := b, d := d, p := p, n := c / v.nb * 32 + j, sum := sum, samples := n,
      corr := corrected - (sum : Rat) / (n : Rat), worn := (worn : Rat) / (r.arrs.length : Rat) }

/-- Columns retired in the digit set that a chunk is read from for a vector (R100, R123). -/
def State.goneCols (s : State) (v : PassEnv) (x : Pass) (c vec : Nat) : List Nat :=
  let bank := (s.phy v.phys).arrays
  retiredIn bank (setArrays bank x.pslot x.layer v.gen (x.expert * v.chunks + c) (vec % max 1 x.copies))

/-- One digit of one chunk for one vector and digit pass. -/
def State.readOne (s : State) (v : PassEnv) (x : Pass) (vec c d : Nat) (act : List Int) (groups : List (List Nat)) : State × Pass :=
  match digitArrs (s.phy v.phys).arrays x.pslot x.layer v.gen (x.expert * v.chunks + c) (vec % max 1 x.copies) d v.D v.profile with
  | none => (s, x)
  | some arrs =>
    let r := readDigit (arrs.map v.arr) v.profile v.confTol (d + 1 == v.D) act groups s.free
    let s1 := { s with free := s.free + r.used }
    let s2 := if r.doubt then (s1.bump (Reg.MDT_TILE_ESC v.t) Fld.MDT_TILE_ESC_DOUBT).calHold (.tile v.phys) else s1
    let sat := (r.arrs.map fun y => (y.2.2.map fun q => ((q.take 32).map Prod.snd).sum).sum).sum
    let convs := (r.arrs.map fun y => y.2.2.length * 32 * groups.length).sum
    let had := tget (0, 0) x.tally c
    let x1 := { x with tally := tset (0, 0) x.tally c (had.1 + sat, had.2 + convs),
                       cols := x.cols ++ colsOf v vec c (c % v.nb) d x.p act groups.flatten groups.length r }
    r.arrs.foldl (fun (a : State × Pass) y => a.1.checkArr v a.2 y.1 act groups y.2.2) (s2, x1)

/-- One chunk for one vector: row groups are formed, all-zero ones are skipped, every digit is read (R81, R82). -/
def State.readChunk (s : State) (v : PassEnv) (x : Pass) (vec c : Nat) : State × Pass :=
  let b := c % v.nb
  if x.ezBlocks.contains (vec, b) then (s, x)
  else
    let act := x.digits vec b x.p
    let (gs, split) := rowGroups v.sparse act
    let live := gs.filter fun g => g.any fun r => act.getD r 0 != 0
    let first := !(x.seen.contains b) && (x.round.find? fun k => k % v.nb == b) == some c
    let x := if x.gone.any fun e => e.1 == (c, vec) then x else { x with gone := ((c, vec), s.goneCols v x c vec) :: x.gone }
    let r := Reg.CAB_TILE_CNT v.t
    let s1 := if first then (s.bumpBy r Fld.CAB_TILE_CNT_SPLIT (b2n split)).bumpBy r Fld.CAB_TILE_CNT_ZGROUP (gs.length - live.length) else s
    if live.isEmpty then (s1, x)
    else (List.range v.D).foldl (fun (a : State × Pass) d => a.1.readOne v a.2 vec c d act live) (s1, x)

/-- The vectors of the group at work: one for each copy (R95). -/
def Pass.group (x : Pass) : List Nat := ((List.range x.copies).map fun c => x.k * x.copies + c).filter (· < x.acts.length)

/-- What came of some chunks is dropped. -/
def Pass.dropChunks (x : Pass) (nb : Nat) (cs : List Nat) : Pass :=
  { x with cols := x.cols.filter (fun r => !(cs.contains (r.n / 32 * nb + r.b))), tally := x.tally.filter (fun e => !(cs.contains e.1)),
           gone := x.gone.filter fun e => !(cs.contains e.1.1) }

/-- The chunks of the round whose arrays stand as they were read: those of a round that was rewritten or retired meanwhile are read again in
an extra round (R90, R100, R102). -/
def State.pruneRound (s : State) (v : PassEnv) (x : Pass) : Pass :=
  let ok := fun c => (List.range (max 1 x.copies)).all (fun k =>
      hasCopy (s.phy v.phys).arrays x.pslot x.layer v.gen (x.expert * v.chunks + c) v.D v.profile k) &&
    x.gone.all fun e => e.1.1 != c || e.2 == s.goneCols v x c e.1.2
  let bad := x.round.filter fun c => !(ok c)
  if bad.isEmpty then x
  else
    let y := { x.dropChunks v.nb bad with round := x.round.filter ok }
    if y.round.isEmpty then { y with k := 0, p := 0, g := 0 } else y

/-- Some digit pass of the group takes two array cycles. -/
def Pass.twoCycles (x : Pass) (v : PassEnv) : Bool :=
  !v.sparse || (x.group.any fun vec => x.round.any fun c => (rowGroups true (x.digits vec (c % v.nb) x.p)).2)

/-- The pass after an array cycle that delivered its counts: the next digit pass, vector group or round. -/
def Pass.next (x : Pass) (nb : Nat) : Pass :=
  if x.p + 1 < actPasses x.fmt then { x with g := 0, p := x.p + 1 }
  else if (x.k + 1) * x.copies < x.acts.length then { x with g := 0, p := 0, k := x.k + 1 }
  else { x with g := 0, p := 0, k := 0, doneCh := x.doneCh ++ x.round, seen := (x.seen ++ x.round.map (· % nb)).eraseDups, round := [] }

/-- The reads of a digit pass are delivered. -/
def State.deliver (s : State) (v : PassEnv) (x : Pass) : State × Pass :=
  let (s1, x1) := x.group.foldl (fun (a : State × Pass) vec =>
    x.round.foldl (fun (a : State × Pass) c => a.1.readChunk v a.2 vec c) a) (s, x)
  (s1, x1.next v.nb)

/-- What the reads of a pass need to know. -/
def State.passEnv (s : State) (t i : Nat) (x : Pass) (st : Step) (y : Layer) (sh : Share) : PassEnv :=
  let cfg : Word64 := BitVec.ofNat 64 st.mdtCfg
  let tol := if st.profile = 1 then Fld.MDT_CFG_CHK_TOL1 else Fld.MDT_CFG_CHK_TOL2
  { t := t, phys := i, part := (s.place x.place).part, nCount := sh.nCount, nb := sh.nb, chunks := sh.chunks,
    D := weightDigits (fmtBits y.wfmt), gen := st.gen % 16, profile := st.profile, sparse := st.sparse, confTol := bitsOf st.chkCfg 0 8,
    chkTol := getBits cfg tol.lo tol.w, coef := st.coef }

/-- ARRAY_CYCLE: one array cycle of the pass at work on a tile. A digit pass of two half-passes delivers its column results with the
second; repeats on doubt follow within the same command. -/
def execArrayCycle (tile : Nat) (s : State) : Res :=
  onObject (decide (tile < 1024))
    (match s.physOf tile, s.passAt tile with
     | some i, some (x, st, y, sh) =>
       let v := s.passEnv tile i x st y sh
       if x.fmt = 0 || sh.chunks ≤ x.doneCh.length then s
       else
         let x0 := s.pruneRound v x
         let (s0, x1) := if x0.round.isEmpty then s.roundFor tile i x0 v.gen v.chunks v.D v.profile else (s, x0)
         if x1.round.isEmpty then s0.setTile tile { s0.tile tile with pass := some x1 }
         else if x1.g = 0 && x1.twoCycles v then s0.setTile tile { s0.tile tile with pass := some { x1 with g := 1 } }
         else
           let (s1, x2) := s0.deliver v x1
           s1.setTile tile { s1.tile tile with pass := some x2 }
     | _, _ => s)

/-! ## Results (R39 to R43, R113, R122, R123, R125, R132) -/

/-- An exact value rounded once to FP32; the Nat counts an overflow (R41, R113). -/
def roundSat (q : Rat) : F32 × Nat :=
  let r := fRound q
  (r, if fFinite r then 0 else 1)

/-- A power of two with the exponents of scale bytes. -/
def twoTo (k : Int) : Rat := scale2 1 k

/-- One entry of a weight-outlier table: row, column, value, scale byte. -/
abbrev WOut := Nat × Nat × Int × Nat

/-- The weight-outlier table of a share, from its tile-SRAM copy (R120). -/
def ShareCopy.woutTable (c : ShareCopy) (sh : Share) : List WOut := (List.range sh.woutN).map fun i => woutAt c.wout (8 * i)

/-- Addends of one block and output in the order of R113: exact values, or BF16 products for outliers. Two weight-outlier addends of one
row, an entry of the image and that of a retired column, come in this order, which the spec leaves open (DESIGN CHOICE, log entry 100). -/
def blockAddends (x : Pass) (v b n kCount wBits : Nat) (ea ew : Nat) (wcodes : List Int) (gone : Bool) (outs : List WOut) : List Rat :=
  let mine := fun (d p : Nat) => x.cols.filter fun c => c.v == v && c.b == b && c.n == n && c.d == d && c.p == p
  let base := fun (d p : Nat) => (4 ^ d * 8 ^ p : Nat) * twoTo ((ea : Int) + ew - 254)
  let cols := (List.range (weightDigits wBits)).flatMap fun d => (List.range (actPasses x.fmt)).flatMap fun p =>
    (mine d p).flatMap fun c => [c.corr * base d p] ++ (if c.worn = 0 then [] else [-c.worn * base d p])
  let act := fun (row : Nat) =>
    if x.outl.contains (v, row) then fVal (ofBf ((x.acts.getD v []).getD row 0))
    else (((x.codes.getD v []).getD row 0 : Int) : Rat) * twoTo ((ea : Int) - 127)
  let image := (outs.filter fun o => o.1 / 32 == b && o.2.1 == n)
  let added : List WOut := if gone then ((List.range 32).filter fun r => 32 * b + r < kCount).map fun r => (32 * b + r, n, wcodes.getD r 0, ew) else []
  let table := sortBy (fun (p q : WOut) => decide (p.1 < q.1)) (image ++ added)
  let wout := table.map fun o => (o.2.2.1 : Rat) * twoTo ((o.2.2.2 : Int) - 127) * act o.1
  let aouts := (sortBy (fun p q => decide (p < q)) ((x.outl.filter fun o => o.1 == v && o.2 / 32 == b).map Prod.snd)).map fun row =>
    fVal (ofBf ((x.acts.getD v []).getD row 0)) * ((if gone then 0 else wcodes.getD (row % 32) 0 : Int) : Rat) * twoTo ((ew : Int) - 127)
  cols ++ wout ++ aouts

/-- Terms of one block and output of an analogue pass, and the SAT events they make. -/
def blockTerms (x : Pass) (cp : ShareCopy) (y : Layer) (sh : Share) (outs : List WOut) (v n b : Nat) : List F32 × Nat :=
  if x.ezBlocks.contains (v, b) then ([], 0)
  else
    let (ew, wcodes) := cp.block y sh n b
    let ea := (x.scales.getD v []).getD b 0
    let driven := (((x.codes.getD v []).drop (32 * b)).take 32).any (· != 0)
    let mine := if ew = 255 then [] else x.cols.filter fun c => c.v == v && c.b == b && c.n == n
    let acc : Rat := (mine.map fun c => (4 ^ c.d * 8 ^ c.p : Nat) * (4 * (c.sum : Rat) / (c.samples : Rat))).sum
    let (p, sp) := roundSat (acc * twoTo ((ea : Int) + ew - 256))
    let gone := (((x.gone.find? fun e => e.1 == (n / 32 * sh.nb + b, v)).map Prod.snd).getD []).contains (n % 32)
    let x1 := if ew = 255 then { x with cols := [] } else x
    let adds := (blockAddends x1 v b n sh.kCount (fmtBits y.wfmt) ea ew wcodes gone outs).map roundSat
    let sum := fSum (adds.map Prod.fst)
    let sat := sp + (adds.map Prod.snd).sum + sum.sat + sum.finish.2
    ((if driven then [p] else []) ++ (if adds.isEmpty then [] else [sum.result]), sat)

/-- The product of a BF16 activation and an exact weight, rounded once to FP32 (R53, R132). -/
def bfTimes (x : BF16) (w : Rat) : F32 :=
  if fFinite (ofBf x) then fRound (fVal (ofBf x) * w) else fMul (ofBf x) (fOfInt (if w = 0 then 0 else if w < 0 then -1 else 1))

/-- Overflows of a list of products from finite operands. -/
def newInf (ps : List (BF16 × F32)) : Nat := (ps.filter fun p => fFinite (ofBf p.1) && !(fFinite p.2)).length

/-- Terms of one block and output computed digitally, and the SAT events they make (R132). -/
def digitalTerms (x : Pass) (cp : ShareCopy) (y : Layer) (sh : Share) (outs : List WOut) (v n b : Nat) : List F32 × Nat :=
  if x.ezBlocks.contains (v, b) then ([], 0)
  else
    let (ew, wcodes) := cp.block y sh n b
    let act := fun r => (x.acts.getD v []).getD (32 * b + r) 0
    let ps := (List.range 32).map fun r => (act r, bfTimes (act r) ((wcodes.getD r 0 : Rat) * twoTo ((ew : Int) - 127)))
    let p := fSum (if ew = 255 then [] else ps.map Prod.snd)
    let ms := (outs.filter fun o => o.1 / 32 == b && o.2.1 == n).map fun o =>
      (act (o.1 % 32), bfTimes (act (o.1 % 32)) ((o.2.2.1 : Rat) * twoTo ((o.2.2.2 : Int) - 127)))
    let q := fSum (ms.map Prod.snd)
    ([p.result] ++ (if ms.isEmpty then [] else [q.result]),
     newInf (if ew = 255 then [] else ps) + newInf ms + p.sat + q.sat + p.finish.2 + q.finish.2)

/-- The sums of a pass by vector and output, and its SAT events. -/
def passSums (x : Pass) (cp : ShareCopy) (y : Layer) (sh : Share) : List (List FAcc) × Nat :=
  let outs := cp.woutTable sh
  let rows := (List.range x.acts.length).map fun v => (List.range sh.nCount).map fun n =>
    let bs := (List.range sh.nb).map fun b => if x.fmt = 0 then digitalTerms x cp y sh outs v n b else blockTerms x cp y sh outs v n b
    (fSum (bs.flatMap Prod.fst), (bs.map Prod.snd).sum)
  (rows.map fun r => r.map Prod.fst, (rows.flatten.map fun r => r.2 + r.1.sat).sum)

/-! ## Appending keys and values (R146, R174, R185, R195) -/

/-- Bytes of one key or value vector in a page. -/
def kvBytes (a : Att) (e : Nat) (codes : List Int) : List Byte :=
  ((List.range a.nb).map fun b => encodeBlock (fmtBits a.kvf) e ((codes.drop (32 * b)).take 32)).flatten

/-- The work of a context in the step ends under a status. -/
def State.dropSlot (s : State) (l i status : Nat) : State :=
  match (s.place l).step with
  | some st => match st.slots.find? fun x => x.ctx == i with
    | some x => s.setSlot l (x.drop status)
    | none => s
  | none => s

/-- Keys and values written to a page through translation under the step's settings; a page of a cross-attention layer that lacks a frame
pops one, and where the reservoir is empty the entry waits for it (R186, R191; log entry 45). -/
def State.putEntry (s : State) (l i va n slot : Nat) (cross : Bool) (k v : List Byte) : State :=
  let p := (s.ctx i).part
  let write := fun (s : State) => match (s.asOf l).wrVa p (va + slot * n) k with
    | .inr a => (s.violate p a 4 false false).dropSlot l i stViolation
    | .inl s1 => match s1.wrVa p (va + 16 * n + slot * n) v with
      | .inr a => ((s1.backFrom s l).violate p a 4 false false).dropSlot l i stViolation
      | .inl s2 => s2.backFrom s l
  let keep := fun (s : State) => let u := s.auxOf i
    s.setAux i { u with kvWait := u.kvWait ++ [(va + slot * n, k), (va + 16 * n + slot * n, v)] }
  if !cross || (s.asOf l).mapped p va then write s
  else if (s.auxOf i).needs.contains va then keep s
  else match s.popFor (s.ctx i) [va] with
    | (s1, .ok) => write s1
    | (s1, .starved left) => keep (s1.starve i ((s1.auxOf i).needs ++ left))
    | (s1, .noTable _) => s1.dropSlot l i stViolation

/-- One entry delivered by the K and V projections of an attention layer. -/
def State.append (s : State) (t l layer : Nat) (e : KvEntry) : State :=
  let c := s.ctx e.ctx
  let im := s.imgOf c
  match im.attLayers[e.layer]?, ((s.place l).step.bind fun st => st.slots.find? fun x => x.ctx == e.ctx) with
  | some (ly, y, a), some x =>
    if ly ≠ layer || a.hkv ≤ e.head || e.key.length ≠ a.dh || e.val.length ≠ a.dh || x.discard.isSome then s
    else
      let M := codeMax (fmtBits a.kvf)
      let (ek, kc, n1) := quantVec M none e.key
      let (ev, vc, n2) := quantVec M (some (a.vscale.getD e.head 0)) e.val
      let s1 := s.bumpBy (Reg.IND_TILE_CNT t) Fld.IND_TILE_CNT_QKV_CLIP (n1 + n2)
      let k := kvBytes a ek kc
      let v := kvBytes a ev vc
      let n := a.nb * a.bb
      if 0x100000 ≤ e.pos then
        let j := e.pos - 0x100000
        match x.kind with
        | .spec _ fs => match fs[j / 16 * im.hSum + (im.heads.take e.layer).sum + e.head]? with
          | some f => (s1.wrMem c.part (f + j % 16 * n) k).wrMem c.part (f + 16 * n + j % 16 * n) v
          | none => s1
        | _ => s1
      else
        let s2 := s1.putEntry l e.ctx (pageVa im c e.layer e.head (e.pos / 16)) n (e.pos % 16) (y.kind == 3) k v
        if y.kind ≠ 3 then s2
        else
          let u := s2.auxOf e.ctx
          let cnt := max (((u.enc.find? fun z => z.1 == e.layer).map Prod.snd).getD 0) (e.pos + 1)
          s2.setAux e.ctx { u with enc := (e.layer, cnt) :: u.enc.filter (fun z => z.1 != e.layer), npx := max u.npx (ceilDiv cnt 16) }
  | _, _ => s

/-! ## TILE_LAYER_PASS_END (R43, R51, R102, R495 to R497) -/

/-- Counts of a layer of the step. -/
def State.layerCount (s : State) (l layer : Nat) (d6 d8 dd dp : Nat) : State :=
  match (s.place l).step with
  | some st =>
    let (a, b, c, d) := tget (0, 0, 0, 0) st.layers layer
    s.setPlace l { s.place l with step := some { st with layers := tset (0, 0, 0, 0) st.layers layer (a + d6, b + d8, c + dd, d + dp),
                                                         escalated := st.escalated || decide (0 < d6 + d8 + dd) } }
  | none => s

/-- A pass of a layer has forwarded on a tile (R27). -/
def State.markRan (s : State) (l t layer : Nat) : State :=
  match (s.place l).step with
  | some st => if st.ran.contains (t, layer) then s else s.setPlace l { s.place l with step := some { st with ran := (t, layer) :: st.ran } }
  | none => s

/-- A climb or digital replay is counted for the tile, the partition and the layer (R57, R61, R63, R64). -/
def State.countClimb (s : State) (t : Nat) (x : Pass) (up : Nat) : State :=
  let p := (s.place x.place).part
  let f := if up = 6 then (Fld.MDT_TILE_ESC_TO_XB6, Fld.MDT_PART_ESC_TO_XB6)
    else if up = 8 then (Fld.MDT_TILE_ESC_TO_XB8, Fld.MDT_PART_ESC_TO_XB8) else (Fld.MDT_TILE_ESC_TO_DIG, Fld.MDT_PART_ESC_TO_DIG)
  ((s.bump (Reg.MDT_TILE_ESC t) f.1).bump (Reg.MDT_PART_ESC p) f.2).layerCount x.place x.layer (b2n (up == 6)) (b2n (up == 8)) (b2n (up == 0)) 0

/-- An array is retired; beyond RET_ARR_LIM the tile is (R102). -/
def State.retireArr (s : State) (t i no : Nat) : State :=
  let b := s.phy i
  let a := tget {} b.arrays no
  if a.retired then s
  else
    let s1 := ((s.setPhy i { b with arrays := tins no { a with retired := true, valid := false } b.arrays }).fault 0x0102 0 srcHw t (leBytes 2 no)).keepRet i
    if min 64 (s1.fld Reg.CAB_REPAIR_CFG Fld.CAB_REPAIR_CFG_RET_ARR_LIM) < s1.retiredArrs t then s1.decideRetire t 2 else s1

/-- The pass reads some chunks again: what came of them is dropped, and their row groups are driven anew. -/
def Pass.again (x : Pass) (nb : Nat) (cs : List Nat) : Pass :=
  { x.dropChunks nb cs with doneCh := x.doneCh.filter (fun c => !cs.contains c), seen := x.seen.filter (fun b => !(cs.any fun c => c % nb == b)),
                            round := [], k := 0, p := 0, g := 0, mism := [], repeated := false }

/-- The number of a share's K-part (R43). -/
def kPartOf (y : Layer) (sh : Share) : Nat := ((kParts y).findIdx? (· == (sh.kFirst, sh.kCount))).getD 0

/-- The tile that holds K-part k of output n of a layer (R43), and the first output of its share. -/
def kTile (y : Layer) (tiles : List Nat) (k n : Nat) : Option (Nat × Nat) :=
  (tiles.zip y.shares).findSome? fun e =>
    if kPartOf y e.2 == k && e.2.nFirst ≤ n && n < e.2.nFirst + e.2.nCount then some (e.1, e.2.nFirst) else none

/-- The pair that K-part k has handed on for output n of vector v, and its tile. -/
def State.kPair (s : State) (x : Pass) (step : Nat) (y : Layer) (v n k : Nat) : Option (Nat × F32 × F32) :=
  (kTile y (s.place x.place).cfg.tiles k n).bind fun e =>
    ((s.tile e.1).outs.find? fun o => o.place == x.place && o.layer == x.layer && o.expert == x.expert && o.step == step).bind fun o =>
      ((o.pairs.getD v [])[n - e.2]?).map fun p => (e.1, p)

/-- Every pair that K-part 0 combines has been handed on. -/
def State.kReady (s : State) (x : Pass) (step : Nat) (y : Layer) (sh : Share) : Bool :=
  (List.range x.acts.length).all fun v => (List.range sh.nCount).all fun n => (List.range y.split).all fun k =>
    k == 0 || (s.kPair x step y v (sh.nFirst + n) k).isSome

/-- What a tile forwards stands in place of what it forwarded of another layer for the placement. -/
def State.putOut (s : State) (t : Nat) (o : TileOut) : State :=
  let u := s.tile t
  s.setTile t { u with pass := none, outs := u.outs.filter (fun z => z.place != o.place || (z.layer == o.layer && z.expert != o.expert)) ++ [o] }

/-- The results of K-part 0: the pairwise tree over the K-parts' pairs, each combination at the tile of its lower member (R43). -/
def State.kResults (s : State) (t : Nat) (x : Pass) (step : Nat) (y : Layer) (sh : Share) (sums : List (List FAcc)) : List (List F32) × List (Nat × Nat) :=
  let trees := ((List.range sums.length).zip sums).map fun r => ((List.range r.2.length).zip r.2).map fun c =>
    let others := (List.range y.split).filterMap fun k => if k = 0 then none else (s.kPair x step y r.1 (sh.nFirst + c.1) k).map fun p => (k, p)
    let z := kTree 7 ((0, c.2.pair) :: others.map fun o => (o.1, o.2.2))
    (if fFinite z.1.1 then fAdd z.1.1 z.1.2 else z.1.1,
     (z.2.filter fun e => e.2 != 0).map fun e => (((others.find? fun o => o.1 == e.1).map fun o => o.2.1).getD t, e.2))
  (trees.map fun r => r.map Prod.fst, trees.flatten.flatMap Prod.snd)

/-- The pass forwards: results, or the pairs of a K-part; keys and values are appended (R42, R43, R185). -/
def State.forward (s : State) (t : Nat) (st : Step) (x : Pass) (y : Layer) (sh : Share) (sums : List (List FAcc)) (appends : List KvEntry) : State :=
  let s1 := (s.layerCount x.place x.layer 0 0 0 1).markRan x.place t x.layer
  let o : TileOut := { place := x.place, layer := x.layer, expert := x.expert, step := st.id }
  let s2 :=
    if y.split = 1 then s1.putOut t { o with results := sums.map fun r => r.map FAcc.result }
    else if kPartOf y sh ≠ 0 then s1.putOut t { o with pairs := sums.map fun r => r.map FAcc.pair }
    else
      let r := s1.kResults t x st.id y sh sums
      (s1.each r.2 fun s e => s.bumpBy (Reg.MDT_TILE_NUM e.1) Fld.MDT_TILE_NUM_SAT e.2).putOut t { o with results := r.1 }
  if y.kind = 2 || y.kind = 3 then s2.each appends fun s e => s.append t x.place x.layer e else s2

/-- Counts of a first read or a replay (R49, R62). -/
def State.countRead (s : State) (t : Nat) (x : Pass) (sat : Nat) : State :=
  let r := Reg.MDT_TILE_NUM t
  ((s.bumpBy r Fld.MDT_TILE_NUM_SAT sat).bumpBy r Fld.MDT_TILE_NUM_ZRO x.zro).bumpBy r Fld.MDT_TILE_NUM_EZ x.ezBlocks.length

/-- SAT events of a read, those of its terms included, and its column conversions (R49, R50). -/
def Pass.sats (x : Pass) (sat : Nat) : Nat := x.sat + (x.tally.map fun e => e.2.1).sum + sat
/-- Column conversions of a read. -/
def Pass.convs (x : Pass) : Nat := (x.tally.map fun e => e.2.2).sum

/-- The counts of the read exceed a threshold of the partition, or an outlier overflow forces the climb (R50 to R52). -/
def Pass.climbs (x : Pass) (st : Step) (sat : Nat) : Bool :=
  overThr (x.sats sat) (x.elems + x.convs) st.escSat || overThr x.zro x.nonzero st.escZro || (x.ovf && x.rung == 0)

/-- The decision of R51 on a read whose checks passed. -/
def State.decideClimb (s : State) (t i : Nat) (env : PassEnv) (st : Step) (x : Pass) (cp : ShareCopy) (y : Layer) (sh : Share)
    (appends : List KvEntry) : State :=
  let (sums, sat) := passSums x cp y sh
  if x.fmt = 0 || !(x.climbs st sat) then s.forward t st x y sh sums appends
  else if x.fmt = 8 || x.rung = 2 then
    let x1 := { x with fmt := 0, zro := 0 }
    let r := passSums x1 cp y sh
    ((s.countClimb t x 0).countRead t x1 r.2).forward t st x1 y sh r.1 appends
  else
    let x1 := { ({ x with fmt := wider x.fmt, rung := x.rung + 1 } : Pass).quantise y sh.kCount with repeated := false, resBad := false, counted := false }
    (s.countClimb t x x1.fmt).readyPass t i x1 env.gen env.chunks env.D env.profile

/-- A residue mismatch recurred: the tile, or the buddy whose slice ran the replay, is retired, and the pass goes on on the replay path
(R496, R497). -/
def State.residueTwice (s : State) (t : Nat) (x : Pass) : State :=
  let s1 := s.decideRetire (if x.replay then ((s.tile t).buddy).getD t else t) 1
  match x.replay, (s1.tile t).pass with
  | true, some z => s1.setTile t { s1.tile t with pass := some { z with repeated := false, resBad := false } }
  | _, _ => s1

/-- A mismatch: the pass is repeated once at the same format; the second retires the tile or the arrays (R51, R102, R496). -/
def State.mismatch (s : State) (t i : Nat) (env : PassEnv) (x : Pass) (y : Layer) (sh : Share) (residue : Bool) : State :=
  if !x.repeated then
    if x.fmt = 0 then s.setTile t { s.tile t with pass := some { x with repeated := true, resBad := residue } }
    else s.readyPass t i { x.quantise y sh.kCount with repeated := true, resBad := residue } env.gen env.chunks env.D env.profile
  else if residue then s.residueTwice t x
  else
    let cs := x.mism.map fun no => let a := tget {} (s.phy i).arrays no; a.win * 512 + a.chunk - x.expert * env.chunks
    let s1 := s.each x.mism fun s no => s.retireArr t i no
    match (s1.tile t).pass with
    | some z => if z.replay then s1 else s1.readyPass t i (x.again env.nb cs) env.gen env.chunks env.D env.profile
    | none => s1

/-- Entries of token positions, and of tentative nodes from 0x100000 on (R195). -/
def allEntries (appends tentative : List KvEntry) : List KvEntry :=
  appends ++ tentative.map fun e => { e with pos := 0x100000 + e.pos }

/-- TILE_LAYER_PASS_END: `residue` tells a residue mismatch at forwarding, `appends` the keys and values of an attention layer's
projections, and `tentative` those of tentative tokens by node (R195). K-part 0 of a split layer waits for the pairs of the others. -/
def execTileLayerPassEnd (tile : Nat) (residue : Bool) (appends tentative : List KvEntry) (s : State) : Res :=
  onObject (decide (tile < 1024))
    (match s.physOf tile, s.passAt tile with
     | some i, some (x0, st, y, sh) =>
       let env := s.passEnv tile i x0 st y sh
       if (x0.fmt ≠ 0 && x0.doneCh.length < sh.chunks) || (y.split ≠ 1 && kPartOf y sh = 0 && !(s.kReady x0 st.id y sh)) then s
       else match s.needCopy tile x0.place x0.layer x0.expert st.gen (s.model (s.place x0.place).cfg.model) y sh with
       | (s0, none) => s0
       | (s0, some cp) =>
         let x := { x0 with counted := true }
         let s1 := (if x0.counted then s0 else s0.countRead tile x (x.sats (passSums x cp y sh).2)).setTile tile { s0.tile tile with pass := some x }
         if residue || !x.mism.isEmpty then s1.mismatch tile i env x y sh residue
         else
           let s2 := if x.resBad then
               (s1.bump (Reg.TILE_FLT tile) Fld.TILE_FLT_RES_MIS).setTile tile { s1.tile tile with resTimes := s.time :: (s1.tile tile).resTimes }
             else s1
           s2.decideClimb tile i env st x cp y sh (allEntries appends tentative)
     | _, _ => s)

/-! ## DRIFT_FILTER_UPDATE (R117, R118) -/

/-- One array's filter after a microsecond, from the reads whose expectation reached DRIFT_MIN, and whether it reached the clamp. -/
def Arr.drift (a : Arr) (least : Nat) : Arr × Bool :=
  let rs := (a.rhos.filter fun r => decide (least ≤ r.1)).map Prod.snd
  if rs.isEmpty then ({ a with rhos := [] }, false)
  else
    let h := a.h + (rs.sum / (rs.length : Rat) - a.h) / 1000
    let lo : Rat := 98 / 100
    let hi : Rat := 102 / 100
    if h < lo || hi < h then ({ a with h := if h < lo then lo else hi, clamp := true, rhos := [] }, true)
    else ({ a with h := h, rhos := [] }, false)

/-- DRIFT_FILTER_UPDATE: every array of the tile with a qualifying read in the last microsecond updates its filter. -/
def execDriftFilterUpdate (tile : Nat) (s : State) : Res :=
  onObject (decide (tile < 1024))
    (match s.physOf tile with
     | some i =>
       let x := s.phy i
       if s.flag Reg.MDT_CFG Fld.MDT_CFG_DRIFT_OFF then
         s.setPhy i { x with arrays := x.arrays.map fun (a : Nat × Arr) => (a.1, { a.2 with rhos := [] }) }
       else
         let r := x.arrays.map fun (a : Nat × Arr) => (a.1, a.2.drift (s.fld Reg.MDT_CFG Fld.MDT_CFG_DRIFT_MIN))
         let n := (r.filter fun a => a.2.2).length
         let s1 := (s.setPhy i { x with arrays := r.map fun a => (a.1, a.2.1) }).bumpBy (Reg.MDT_TILE_DRIFT tile) Fld.MDT_TILE_DRIFT_CLAMP_EV n
         if n = 0 then s1 else s1.calHold (.tile i)
     | none => s)

end Sys2Proof.Machine
end

