-- ==== Sys2Proof/Machine/Indigo.lean ====
section
/-! DEFINITION. The Indigo slice: score passes, mix passes, the softmax over segments, fallback, and the forwarding of head-layers
(05_indigo_attention.md). -/

namespace Sys2Proof.Machine

/-! ## Keys and values as codes (R146, R147, R174, R195) -/

/-- A head group's setting: its placement, step, slot, image and attention entry. -/
structure AttnEnv where
  t     : Nat
  l     : Nat
  ctx   : Nat
  part  : Nat
  step  : Step
  slot  : Slot
  im    : Image
  att   : Att
  la    : Nat          -- number among the attention layers
  layer : Nat
  head  : Nat          -- key-value head
  cross : Bool
  keys  : Nat          -- keys that the group holds

/-- Scale and codes of one key or value vector as driven: an XB6 code c with scale E is 4 c with scale E - 2. -/
def driveVec (a : Att) (bs : List Byte) : Int × List Int :=
  let bits := fmtBits a.kvf
  let blocks := (List.range a.nb).map fun b => decodeBlock bits ((bs.drop (a.bb * b)).take a.bb)
  let e : Int := ((blocks.headD (0, [])).1 : Nat)
  let codes := (blocks.flatMap fun b => b.2.map (decodeCode bits)).take a.dh
  if bits = 6 then (e - 2, codes.map (4 * ·)) else (e, codes)

/-- What reading an entry gives: its bytes, a virtual address that faults, or a physical one that is uncorrectable. -/
inductive KvRead
  | ok (bs : List Byte)
  | fault (va : Nat)
  | bad (pa : Nat)

/-- Bytes of the key (`off` 0) or value (`off` 1) of entry j: committed entries stand in pages, those of tree node i, entry
keys - nodes + i, in the tentative area. -/
def State.kvEntry (s : State) (v : AttnEnv) (off j : Nat) : KvRead :=
  let n := v.att.nb * v.att.bb
  let page := fun (j : Nat) =>
    let va := pageVa v.im (s.ctx v.ctx) v.la v.head (j / 16) + off * 16 * n + j % 16 * n
    match (s.asOf v.l).rdVa v.part va n with
    | .inr a => .fault a
    | .inl bs => match (s.asOf v.l).badVa v.part va n with
      | some a => .bad a
      | none => .ok bs
  match v.slot.kind with
  | .spec tree fs =>
    let first := v.keys - tree.length
    if v.cross || j < first then page j
    else
      let i := j - first
      let pa := fs.getD (i / 16 * v.im.hSum + (v.im.heads.take v.la).sum + v.head) 0 + off * 16 * n + i % 16 * n
      match s.mem.bad pa n with
      | some a => .bad a
      | none => .ok (s.rdMem v.part pa n)
  | _ => page j

/-- The entries of a segment in position order as memory holds them, or the first that cannot be read. -/
def State.kvSegment (s : State) (v : AttnEnv) (off seg : Nat) : List (Int × List Int) ⊕ KvRead :=
  let js := (List.range v.att.seg).map (· + seg * v.att.seg) |>.filter (· < v.keys)
  let rs := js.map fun j => s.kvEntry v off j
  match rs.find? fun r => match r with
    | .ok _ => false
    | _ => true with
  | some r => .inr r
  | none => .inl (rs.map fun r => match r with
    | .ok bs => driveVec v.att bs
    | _ => (0, []))

/-- The region of the stream buffer that holds a segment of keys (`off` 0) or values (1) of a group (R159). -/
def SbRegion.isOf (r : SbRegion) (v : AttnEnv) (off seg : Nat) : Bool :=
  r.place == v.l && r.ctx == v.ctx && r.layer == v.layer && r.head == v.head && r.seg == seg && r.off == off

/-- A segment through the stream buffer: memory is read once for all row sets, into the regions in rotation (R159). -/
def State.sbSegment (s : State) (v : AttnEnv) (off seg : Nat) : State × (List (Int × List Int) ⊕ KvRead) :=
  let x := s.tile v.t
  match x.sb.find? fun r => r.2.isOf v off seg with
  | some r => (s, .inl r.2.vecs)
  | none => match s.kvSegment v off seg with
    | .inr r => (s, .inr r)
    | .inl ks =>
      let r : SbRegion := { place := v.l, ctx := v.ctx, layer := v.layer, head := v.head, seg := seg, off := off, vecs := ks }
      (s.setTile v.t { x with sb := tins x.sbNext r x.sb, sbNext := (x.sbNext + 1) % 3 }, .inl ks)

/-- A page that cannot be read ends the work of the context in the step (R183, R499). -/
def State.kvFail (s : State) (v : AttnEnv) (r : KvRead) : State :=
  let s1 := match r with
    | .ok _ => s
    | .fault a => (s.violate v.part a 4 false false).dropSlot v.l v.ctx stViolation
    | .bad a => s.dropForPage v.l v.ctx a
  let x := s1.tile v.t
  s1.setTile v.t { x with
    attns := x.attns.filter (fun a => !(a.place == v.l && a.ctx == v.ctx))
    scoring := none
    sb := x.sb.filter (fun r => !(r.2.place == v.l && r.2.ctx == v.ctx)) }

/-! ## Visibility (R154, R195) -/

/-- A node's ancestors and itself. -/
def lineage (t : List Node) : Nat → Nat → List Nat
  | 0, _ => []
  | f + 1, i => match t[i]? with
    | some n => i :: (match n.parent with
      | some p => lineage t f p
      | none => [])
    | none => []

/-- Key j is visible to a row. -/
def AttnEnv.sees (v : AttnEnv) (r : ARow) (j : Nat) : Bool :=
  if v.cross then true
  else match v.slot.kind, r.node with
    | .spec t _, some i =>
      let first := v.keys - t.length
      j < first || (lineage t 17 i).contains (j - first)
    | _, _ => decide (j ≤ r.pos)

/-- A segment holds a key visible to the row. -/
def AttnEnv.needs (v : AttnEnv) (r : ARow) (seg : Nat) : Bool :=
  ((List.range v.att.seg).map (· + seg * v.att.seg)).any fun j => decide (j < v.keys) && v.sees r j

/-- Tokens whose rows the group holds: one of a decode step, those of a chunk, a tree's nodes after the pending token (R148). -/
def AttnEnv.tokens (v : AttnEnv) : Nat :=
  match v.slot.kind with
  | .spec t _ => 1 + t.length
  | _ => v.slot.npos

/-- Rows of the group: every pair of a token and a query head of the key-value head. -/
def AttnEnv.rowCount (v : AttnEnv) : Nat := v.tokens * v.att.g

/-- Row k of the group, in token-major order and then by head ascending, is what a query row says it is (R148). -/
def AttnEnv.isRow (v : AttnEnv) (k : Nat) (q : QueryRow) : Bool :=
  let t := k / v.att.g
  q.head == v.head * v.att.g + k % v.att.g && match v.slot.kind with
    | .spec .. => q.node == (if t = 0 then none else some (t - 1)) && (t != 0 || q.pos == v.slot.p0)
    | _ => q.node.isNone && q.pos == v.slot.p0 + t

/-- Rows of row set k. -/
def AttnEnv.setRows (v : AttnEnv) (k : Nat) : List Nat := ((List.range 8).map (· + 8 * k)).filter (· < v.rowCount)

/-- Segments of the group. -/
def AttnEnv.segs (v : AttnEnv) : Nat := ceilDiv v.keys v.att.seg

/-! ## Scores (R149 to R153, R164) -/

/-- Sum of products of codes. -/
def dot (a b : List Int) : Int := ((a.zip b).map fun x => x.1 * x.2).sum

/-- The least e with 2^e at least √n. -/
def ceilLog2Sqrt (n : Nat) : Nat := (ceilLog2 n + 1) / 2

/-- Exponent of the full scale 2^⌈log2(‖q‖ × 127 × √D)⌉, none for an all-zero query, which has none. -/
def fsExp (q : List Int) (dh : Nat) : Option Nat :=
  let n2 := (dot q q).toNat
  if n2 = 0 then none else some (ceilLog2Sqrt (n2 * 127 * 127 * dh))

/-- 6.5 σ of a delivered count less the half count of its conversion, in 1/1024 of a count, rounded down: σ = 127 x 2^(1 - ENOB) / √12 with
the ENOB of the mode (R162, R163). A score's ENOB follows SREP, a mix's SEG. -/
def scoreBound (srep : Nat) : Nat := if srep ≤ 1 then 11046 else if srep = 2 then 7660 else if srep = 4 then 5267 else 3574
/-- The same for a mix. -/
def mixBound (seg : Nat) : Nat := if seg ≤ 16 then 8247 else if seg = 64 then 3867 else 2003

/-- The optical error of one count: free, and within 6.5 σ where the slice's last calibration was accepted (R163; log entry 2). A ring that
leaves lock discards the result (R166). -/
def opticalErr (bound : Option Nat) (free : Nat) : Rat :=
  let raw : Rat := (Config.opticalNoise free : Rat) / 1024
  match bound with
  | some b => clampRat ((b : Rat) / 1024) raw
  | none => raw

/-- The conversion of one segment of a half for a row: the counts, the exponent of the full scale, the repeats for saturation and
the conversions made. -/
def convertSeg (bound : Option Nat) (dots : List Int) : Nat → Int → Nat → List Int × Int × Nat × Nat
  | fuel, e, free =>
    let cs := ((List.range dots.length).zip dots).map fun d => ramp ((d.2 * 127 : Int) * twoTo (-e) + opticalErr bound (free + d.1))
    match fuel with
    | 0 => (cs.map Prod.fst, e, 0, dots.length)
    | f + 1 =>
      if cs.any Prod.snd then
        let (r, e1, n, used) := convertSeg bound dots f (e + 1) (free + dots.length)
        (r, e1, n + 1, used + dots.length)
      else (cs.map Prod.fst, e, 0, dots.length)

/-- The dimensions of a vector in the halves that are scored (R153). -/
def halvesOf (xs : List Int) : List (List Int) := if xs.length ≤ 128 then [xs] else [xs.take 128, xs.drop 128]

/-- A score from its value before the scales, c x FS_s / 127 rounded once to FP32. R151 says only that s_j is formed in FP32: the model rounds
that value, then its product with the powers of two, then the product with SIGMA (DESIGN CHOICE, log entry 101). -/
def scoreOf (x : F32) (eq : Nat) (ek : Int) (sigma : F32) : F32 := fMul (fRound (fVal x * twoTo ((eq : Int) + ek - 254))) sigma

/-- Scores of a row for the keys of a segment; repeats and conversions made. Exact in fallback. -/
def rowScores (a : Att) (sfs : Nat) (bound : Option Nat) (exact : Bool) (r : ARow) (keys : List (Int × List Int)) (free : Nat) : List F32 × Nat × Nat :=
  if exact then (keys.map fun k => scoreOf (fOfInt (dot r.codes k.2)) r.eq k.1 a.sigma, 0, 0)
  else
    let qs := halvesOf r.codes
    let hs := (List.range qs.length).foldl (fun (acc : List (List F32) × Nat × Nat) h =>
      let q := qs.getD h []
      match fsExp q a.dh with
      | none => (acc.1 ++ [keys.map fun _ => 0], acc.2)
      | some e =>
        let (cs, fs, reps, used) := convertSeg bound (keys.map fun k => dot q ((halvesOf k.2).getD h [])) sfs ((e : Int) - sfs) (free + acc.2.2)
        (acc.1 ++ [(cs.zip keys).map fun c => scoreOf (fRound ((c.1 : Rat) * twoTo fs / 127)) r.eq c.2.1 a.sigma], acc.2.1 + reps, acc.2.2 + used)) ([], 0, 0)
    let first := hs.1.headD []
    let s := match hs.1[1]? with
      | some snd => (first.zip snd).map fun x => fAdd x.1 x.2
      | none => first
    (s, hs.2.1, hs.2.2)

/-! ## Softmax and mix (R155 to R158, R164) -/

/-- A probability code: 63 exp(s - m), ties to even; of what is no number, what no rule gives (log entry 2). -/
def probCode (x m : F32) (free : Nat) : Nat :=
  let p := fMul 0x427C0000 (fExpo (fSub x m))
  if fFinite p then (rneRat (fVal p)).toNat else Config.nanProbability free % 64

/-- The running values of a row after a segment's softmax, and its probability codes. -/
def ARow.softmax (r : ARow) (scores : List (Option F32)) (free : Nat) : ARow × List Nat :=
  let seen := scores.filterMap id
  let top := seen.foldl (fun (m : Option F32) x => match m with
    | some y => some (if fGt x y then x else y)
    | none => some x) r.m
  let raised := match top, r.m with
    | some t, some m => fGt t m
    | some _, none => true
    | none, _ => false
  let r1 := if !raised then r else
    let f := match r.m, top with
      | some m, some t => fExpo (fSub m t)
      | _, _ => 0
    { r with m := top, l := fMul r.l f, o := r.o.map fun x => (fMul x.1 f, fMul x.2 f) }
  let pc := ((List.range scores.length).zip scores).map fun x => match x.2 with
    | some s => probCode s (r1.m.getD 0) (free + x.1)
    | none => 0
  ({ r1 with l := fAdd r1.l (fDiv (fOfInt (pc.sum : Nat)) (fOfInt 63)) }, pc)

/-- The mix of a row over a segment, by dimension; conversions made. Exact in fallback. -/
def rowMix (dh : Nat) (bound : Option Nat) (exact : Bool) (pc : List Nat) (vals : List (Int × List Int)) (free : Nat) : List F32 × Nat :=
  let tot := pc.sum
  if tot = 0 then (List.replicate dh 0, 0)
  else
    let ev : Int := (vals.headD (0, [])).1
    let live := (pc.zip vals).filter fun x => x.1 != 0
    let e2 := ceilLog2 tot
    let y := fun d =>
      let acc : Int := (live.map fun x => (x.1 : Int) * x.2.2.getD d 0).sum
      if exact then fDiv (fRound ((acc : Rat) * twoTo (ev - 127))) (fOfInt 63)
      else
        let c := (ramp ((acc : Rat) * twoTo (-(e2 : Int)) + opticalErr bound (free + d))).1
        fDiv (fRound ((c : Rat) * twoTo ((e2 : Int) + ev - 127))) (fOfInt 63)
    ((List.range dh).map y, if exact then 0 else dh)

/-- A mix result added into the row's pairs by the compensated step of R42. -/
def ARow.addMix (r : ARow) (y : List F32) : ARow :=
  { r with o := ((List.range y.length).zip y).map fun x =>
      let (o, e) := r.o.getD x.1 (0, 0)
      let a := ({ sum := o, err := e, stop := !(fFinite o) } : FAcc).add x.2
      (a.sum, a.err) }

/-- The output of a row (R155); a row that has seen no key is 0. -/
def ARow.out (r : ARow) : List BF16 := r.o.map fun x => if fZero r.l then 0 else toBf (fDiv (fAdd x.1 x.2) r.l)

/-! ## SCORE_PASS, MIX_PASS, HEAD_LAYER_FORWARD -/

/-- The setting of a head group of the placement in a slot of a tile. -/
def State.attnEnv (s : State) (t pslot i layer head : Nat) : Option AttnEnv :=
  match s.placeIn t pslot with
  | none => none
  | some l =>
    let c := s.ctx i
    let im := (s.model (s.place l).cfg.model).img
    match (s.place l).step, im.attLayers.findIdx? (·.1 == layer) with
    | some st, some la =>
      match im.attLayers[la]?, st.slots.find? fun x => x.ctx == i with
      | some (_, y, a), some x =>
        let cross := y.kind == 3
        let keys := if cross then (((s.auxOf i).enc.find? fun z => z.1 == la).map Prod.snd).getD 0
          else x.p0 + match x.kind with
            | .spec tree _ => 1 + tree.length
            | _ => x.npos
        if a.hkv ≤ head || x.discard.isSome then none
        else some { t := t, l := l, ctx := i, part := c.part, step := st, slot := x, im := im, att := a, la := la, layer := layer, head := head,
                    cross := cross, keys := keys }
      | _, _ => none
    | _, _ => none

/-- The slice computes in fallback for the step: no use of it since the cairn or an alarm, or a tile on its way out (R165, R497). -/
def State.inFallback (s : State) (v : AttnEnv) : Bool := (v.step.fb.any fun e => e.1 == v.t) || (s.tile v.t).retiring.isSome

/-- The head group at work for a context, layer and key-value head of a placement. -/
def State.attnAt (s : State) (v : AttnEnv) (layer : Nat) : Option Attn :=
  (s.tile v.t).attns.find? fun a => a.place == v.l && a.ctx == v.ctx && a.layer == layer && a.head == v.head

/-- A head group replaced, or added. -/
def State.setAttn (s : State) (t : Nat) (a : Attn) : State :=
  let x := s.tile t
  let same := fun (b : Attn) => b.place == a.place && b.ctx == a.ctx && b.layer == a.layer && b.head == a.head
  s.setTile t { x with attns := if x.attns.any same then x.attns.map (fun b => if same b then a else b) else x.attns ++ [a] }

/-- A query row as it enters a group: its vector is quantised with M = 31 (R146). -/
def newRow (dh : Nat) (q : QueryRow) : ARow × Nat :=
  let (e, codes, clips) := quantVec 31 none q.q
  ({ pos := q.pos, node := q.node, head := q.head, codes := codes, eq := e, o := List.replicate dh (0, 0) }, clips)

/-- 6.5 σ of a score of the group, where it is promised: SREP is the image's, or PLACE's where that is larger (R145, R163). -/
def State.scoreLimit (s : State) (v : AttnEnv) : Option Nat :=
  match s.physOf v.t with
  | some i => if (s.phy i).lightOk then some (scoreBound (max v.att.srep ((v.step.lopt.getD v.layer (0, 0)).2))) else none
  | none => none

/-- 6.5 σ of a mix of the group, where it is promised. -/
def State.mixLimit (s : State) (v : AttnEnv) : Option Nat :=
  match s.physOf v.t with
  | some i => if (s.phy i).lightOk then some (mixBound v.att.seg) else none
  | none => none

/-- The scores of one row of a pass, masked to the visible keys. -/
def State.scoreRow (s : State) (v : AttnEnv) (exact : Bool) (seg i : Nat) (keys : List (Int × List Int)) (a : Attn) : State × Attn :=
  match a.rows[i]? with
  | none => (s, a)
  | some r =>
    let (xs, reps, used) := rowScores v.att (bitsOf v.step.indCfg Fld.IND_CFG_SFS.lo Fld.IND_CFG_SFS.w) (s.scoreLimit v) exact r keys s.free
    let sc := ((List.range xs.length).zip xs).map fun x => if v.sees r (seg * v.att.seg + x.1) then some x.2 else none
    let s1 := ({ s with free := s.free + used }.bumpBy (Reg.IND_TILE_CNT v.t) Fld.IND_TILE_CNT_RESCORE reps).bumpBy (Reg.IND_PART_CNT v.part)
      Fld.IND_PART_CNT_RESCORE reps
    (s1, { a with scored := (a.scored.filter fun z => !(z.1 == i && z.2.1 == seg)) ++ [(i, seg, sc)],
                  rows := a.rows.set i (if exact then { r with fb := true } else { r with optAt := some s.now }) })

/-- A row has been scored over a segment. -/
def Attn.hasScore (a : Attn) (i seg : Nat) : Bool := a.scored.any fun z => z.1 == i && z.2.1 == seg

/-- Every row of a group has entered, and every one that needs a segment has been scored over it. -/
def Attn.scoredAll (a : Attn) (v : AttnEnv) (seg : Nat) : Bool :=
  decide (v.rowCount ≤ a.rows.length) && (List.range a.rows.length).all fun i => match a.rows[i]? with
    | some r => !(v.needs r seg) || a.hasScore i seg
    | none => true

/-- Slots with a group at work on a slice: each has a pass ready. -/
def Tile.slicePasses (x : Tile) : List Nat := (x.attns.map Attn.pslot).eraseDups

/-- The slice arbiter grants slot k its next pass: the slots at work and k itself ask. A score pass with row sets left keeps the slice
(R160, R161). -/
def State.sliceGrants (s : State) (t k : Nat) (pass : Option (Nat × Nat × Nat × Nat × Nat)) : Bool :=
  let x := s.tile t
  match x.scoring with
  | some p => pass == some p
  | none => granted 16 x.slPtr (fun j => j == k || x.slicePasses.contains j) == some k

/-- A pass of slot k on a slice has ended, or its row sets go on: the pointer moves past the slot, the mode is kept (R161). -/
def State.passEnds (s : State) (t k : Nat) (left : Option (Nat × Nat × Nat × Nat × Nat)) (exact mix : Bool) : State :=
  let x := s.tile t
  s.setTile t { x with scoring := left, slPtr := if left.isSome then x.slPtr else (k + 1) % 16, mixMode := if exact then x.mixMode else mix }

/-- The row set that a score pass names: the next one to enter with segment 0, one of the group's otherwise. -/
def Attn.rowSet (a : Attn) (v : AttnEnv) (seg : Nat) (rows : List QueryRow) : Option Nat :=
  (if seg = 0 then [a.rows.length / 8] else List.range (ceilDiv v.rowCount 8)).find? fun k =>
    let is := v.setRows k
    is.length == rows.length && !is.isEmpty && (is.zip rows).all fun e => v.isRow e.1 e.2

/-- SCORE_PASS: a row set of at most 8 rows is scored over one segment, if any of its rows sees a key of it; its rows enter the group with
segment 0. The order of R160 holds, and the slice arbiter's grant. A cross-attention layer with no encoder entries yields zero outputs and
runs no pass (R154). -/
def execScorePass (tile pslot ctx layer head seg : Nat) (rows : List QueryRow) (s : State) : Res :=
  onObject (decide (tile < 1024) && decide (pslot < 16))
    (match s.attnEnv tile pslot ctx layer head with
     | none => s
     | some v =>
       if rows.isEmpty || 8 < rows.length || !(rows.all fun r => r.q.length == v.att.dh) then s
       else if v.keys = 0 then
         s.setTile tile { s.tile tile with attnOut := (s.tile tile).attnOut ++ rows.map fun r => (r.head, List.replicate v.att.dh 0) }
       else
         let a := (s.attnAt v layer).getD { pslot := pslot, place := v.l, ctx := ctx, layer := layer, head := head, rows := [] }
         let pass := (pslot, ctx, layer, head, seg)
         match a.rowSet v seg rows with
         | none => s
         | some k =>
           if v.segs ≤ seg || a.mixed + 1 < seg || seg < a.mixed || (seg != 0 && !(a.scoredAll v (seg - 1)) && a.mixed < seg) ||
               (v.setRows k).any (fun i => a.hasScore i seg) || !(s.sliceGrants tile pslot (some pass)) then s
           else
             let made := if seg = 0 then rows.map (newRow v.att.dh) else []
             let a1 := { a with rows := a.rows ++ made.map Prod.fst }
             if !((v.setRows k).any fun i => match a1.rows[i]? with
                 | some r => v.needs r seg
                 | none => false) then s
             else
               let s1 := s.bumpBy (Reg.IND_TILE_CNT tile) Fld.IND_TILE_CNT_QKV_CLIP (made.map Prod.snd).sum
               match s1.sbSegment v 0 seg with
               | (s1, .inr r) => s1.kvFail v r
               | (s1, .inl keys) =>
                 let exact := s1.inFallback v
                 let r := (v.setRows k).foldl (fun (x : State × Attn) i => x.1.scoreRow v exact seg i keys x.2) (s1, a1)
                 (r.1.setAttn tile r.2).passEnds tile pslot (if r.2.scoredAll v seg then none else some pass) exact false)

/-- Softmax and mix of one row over a segment. -/
def mixRow (v : AttnEnv) (bound : Option Nat) (exact : Bool) (now seg i : Nat) (vals : List (Int × List Int)) (x : Nat × Attn) : Nat × Attn :=
  match x.2.rows[i]?, x.2.scored.find? fun z => z.1 == i && z.2.1 == seg with
  | some r, some (_, _, sc) =>
    let (r1, pc) := r.softmax sc x.1
    let (y, used) := rowMix v.att.dh bound exact pc vals (x.1 + sc.length)
    let r2 := r1.addMix y
    (x.1 + sc.length + used, { x.2 with rows := x.2.rows.set i (if exact then { r2 with fb := true } else { r2 with optAt := some now }) })
  | _, _ => x

/-- MIX_PASS: the values of a segment are mixed for every row of the group, in the order of R160. -/
def execMixPass (tile pslot ctx layer head seg : Nat) (s : State) : Res :=
  onObject (decide (tile < 1024) && decide (pslot < 16))
    (match s.attnEnv tile pslot ctx layer head with
     | none => s
     | some v =>
       match s.attnAt v layer with
       | none => s
       | some a =>
         if a.mixed ≠ seg || v.segs ≤ seg || !(a.scoredAll v seg) || (seg + 1 < v.segs && !(a.scoredAll v (seg + 1))) ||
             !(s.sliceGrants tile pslot none) then s
         else match s.sbSegment v 1 seg with
         | (s0, .inr r) => s0.kvFail v r
         | (s0, .inl vals) =>
           let exact := s0.inFallback v
           let r := (List.range a.rows.length).foldl (fun x i => mixRow v (s0.mixLimit v) exact s0.now seg i vals x) (s0.free, a)
           ({ s0 with free := r.1 }.setAttn tile { r.2 with mixed := seg + 1, scored := r.2.scored.filter (fun z => z.2.1 != seg) }).passEnds
             tile pslot none exact true)

/-- Hold before a head-layer is forwarded, in ns; values below 24 act as 24 (R169). -/
def Step.lockHold (st : Step) : Nat := max 24 (bitsOf st.indCfg Fld.IND_CFG_LOCK_HOLD.lo Fld.IND_CFG_LOCK_HOLD.w)

/-- A row's hold after its last optical symbol has not ended. -/
def ARow.holds (r : ARow) (st : Step) (now : Nat) : Bool := r.optAt.any fun t => decide (now < t + st.lockHold)

/-- HEAD_LAYER_FORWARD: after its last segment, and the hold after its last optical symbol, a group's outputs go to the O
projection; head-layers computed in fallback are counted (R166, R172, R173). -/
def execHeadLayerForward (tile pslot ctx layer head at_ : Nat) (s : State) : Res :=
  let s := s.tick at_
  onObject (decide (tile < 1024) && decide (pslot < 16))
    (match s.attnEnv tile pslot ctx layer head with
     | none => s
     | some v =>
       match s.attnAt v layer with
       | none => s
       | some a =>
         if a.mixed < v.segs || (a.rows.any fun r => r.holds v.step s.now) then s
         else
           let n := (((a.rows.filter ARow.fb).map ARow.head).eraseDups).length
           let x := s.tile tile
           let s1 := s.setTile tile { x with attnOut := x.attnOut ++ a.rows.map (fun r => (r.head, r.out)), attns := x.attns.filter (· != a), sb := x.sb.filter (fun r => !(r.2.place == a.place && r.2.ctx == a.ctx && r.2.layer == a.layer && r.2.head == a.head)) }
           (s1.bumpBy (Reg.IND_TILE_CNT tile) Fld.IND_TILE_CNT_FB_HL n).bumpBy (Reg.IND_PART_CNT v.part) Fld.IND_PART_CNT_FB_HL n)

/-! ## A lock alarm during a step (R166, R167) -/

/-- Head row of a ring of a slice cluster; none for a modulator, which serves every row (R417 orders them). -/
def rowOfRing (r : Nat) : Option Nat := if r < 8 then none else some ((r - 8) / 8)

/-- One segment of a row computed by fallback from what memory holds; the answer is then the read that failed. -/
def State.redoSeg (s : State) (v : AttnEnv) (seg i : Nat) (a : Attn) : State × Attn × Option KvRead :=
  match s.kvSegment v 0 seg, s.kvSegment v 1 seg with
  | .inl keys, .inl vals =>
    let (s1, a1) := s.scoreRow v true seg i keys a
    if seg < a.mixed then
      let (free, a2) := mixRow v none true s1.now seg i vals (s1.free, a1)
      ({ s1 with free := free }, { a2 with scored := a2.scored.filter fun z => !(z.1 == i && z.2.1 == seg) }, none)
    else (s1, a1, none)
  | .inr r, _ => (s, a, some r)
  | _, .inr r => (s, a, some r)

/-- The head-layer of a row is discarded and computed again by fallback as far as it had come. -/
def State.redoRow (s : State) (v : AttnEnv) (i : Nat) (a : Attn) : State × Attn × Option KvRead :=
  match a.rows[i]? with
  | none => (s, a, none)
  | some r =>
    let had := (a.scored.filter fun z => z.1 == i).map fun z => z.2.1
    let a0 := { a with rows := a.rows.set i { r with m := none, l := 0, o := r.o.map fun _ => (0, 0), fb := true, optAt := none },
                       scored := a.scored.filter fun z => z.1 != i }
    ((List.range a.mixed ++ had).filter fun g => v.needs r g).foldl (fun (x : State × Attn × Option KvRead) g => match x.2.2 with
      | none => x.1.redoSeg v g i x.2.1
      | some _ => x) (s, a0, none)

/-- A head group meets an alarm: the head-layers of the rows affected that hold optical results whose hold has not ended are replayed,
and counted. An alarm of one head row's elements affects that row while they weight scores, and every row while they are the drop rings of
a mix (R143, R166, R167). A page that can no longer be read ends the context's work. -/
def State.alarmGroup (s : State) (t : Nat) (row : Option Nat) (a : Attn) : State :=
  match s.attnEnv t a.pslot a.ctx a.layer a.head with
  | none => s
  | some v =>
    let open_ := decide (a.mixed < v.segs) && !(s.inFallback v)
    let hit := (List.range a.rows.length).filter fun i => match a.rows[i]? with
      | some r => r.optAt.isSome && (open_ || r.holds v.step s.now) && ((s.tile t).mixMode || match row with
        | some k => i % 8 == k
        | none => true)
      | none => false
    let n := ((hit.filterMap fun i => (a.rows[i]?).map ARow.head).eraseDups).length
    let r := hit.foldl (fun (x : State × Attn × Option KvRead) i => match x.2.2 with
      | none => x.1.redoRow v i x.2.1
      | some _ => x) (s, a, none)
    let s1 := ((r.1.setAttn t r.2.1).bumpBy (Reg.IND_TILE_CNT t) Fld.IND_TILE_CNT_LOCK_REPLAY n).bumpBy (Reg.IND_PART_CNT v.part)
      Fld.IND_PART_CNT_LOCK_REPLAY n
    match r.2.2 with
    | some e => s1.kvFail v e
    | none => s1

/-- The slice of logical tile t has lost lock: the steps in flight use it no more (FB_CAUSE 6, unless a lower cause holds), and
head-layers in progress are replayed. -/
def State.sliceAlarm (s : State) (t : Nat) (row : Option Nat) : State :=
  let ls := (s.placesOn t).filter fun l => (s.place l).step.isSome
  let s1 := s.each (s.tile t).attns fun s a => s.alarmGroup t row a
  if ls.isEmpty then s1
  else
    let s2 := s1.each ls fun s l => match (s.place l).step with
      | some st => if st.fb.any fun e => e.1 == t then s else s.setPlace l { s.place l with step := some { st with fb := (t, 6) :: st.fb } }
      | none => s
    let r := Reg.IND_TILE_STAT t
    let s3 := if s2.fld r Fld.IND_TILE_STAT_FB_CAUSE = 0 then s2.setFld r Fld.IND_TILE_STAT_FB_CAUSE 6 else s2
    s3.setFlag r Fld.IND_TILE_STAT_SLICE_OK false

end Sys2Proof.Machine
end

