-- ==== Sys2Proof/Machine/Lanes.lean ====
section
/-! DEFINITION. Lanes of a port's stripe, ports that go down, modules lost, the twin's DEGRADED state
(R340, R342, R366, R368, R379, R380, R383, R387, R265). -/

namespace Sys2Proof.Machine

/-! ## Lost modules and routes (R379, R380, R265) -/

/-- Vector 19 of each partition listed. -/
def State.raise19 (s : State) (ps : List Nat) : State := s.each ps.eraseDups fun s p => s.raise p 19

/-- Placements whose slice names module m. -/
def State.slicesWith (s : State) (m : Nat) : List Nat := s.present.filter fun l => (sliceMods (s.place l).slice).contains m

/-- Modules that a valid slice names. -/
def State.namedModules (s : State) : List Nat := (s.present.flatMap fun l => sliceMods (s.place l).slice).eraseDups

/-- The head counts members as gone; its own load may be complete with that. -/
def State.membersGone (s : State) (c : Chain) (ms : List Nat) : State :=
  let s1 := s.setChain { c with gone := c.gone ++ ms }
  match s1.longOf c.op with
  | some o => match o.pkt with
    | .modelLoad .. => s1.finishLoad o c.model
    | _ => s1
  | none => s1

/-- A chain loses module m: the member after it ends with FENCED; a module before it goes on, and the members after m are told, as far as
their routes do not pass m (R265). -/
def State.chainLoses (s : State) (c : Chain) (m : Nat) : State :=
  let me := s.myId
  let after := c.members.dropWhile (· != m)
  if c.head != me && c.opened && c.prev == m then s.fenceChain c
  else if after.isEmpty then s
  else
    let s1 := s.each (after.drop 1) fun s x => s.tellChain c x mgChainGone m
    if c.head = me then s1.membersGone c after
    else
      let s2 := s1.setChain { c with members := c.members.takeWhile (· != m) }
      if c.members.head? = some m then s2.each after fun s x => s.tellChain c c.head mgChainGone x else s2

/-- A module is lost to this one: its requests end, placements whose slice names it are fenced, chains lose it. -/
def State.moduleLost (s : State) (m : Nat) : State :=
  let s1 := { s with fabric := { s.fabric with reqs := s.fabric.reqs.filter (fun r => r.msg.dest != m),
                                               lost := m :: s.fabric.lost.filter (· != m) } }
  let s2 := s1.each (s1.slicesWith m) fun s l => s.fencePlace l m
  s2.each s2.fabric.chains fun s c => s.chainLoses c m

/-! ## The twin while DEGRADED (R383, R386, R387) -/

/-- Completions that waited for acknowledgement are written. -/
def State.releaseHeld (s : State) : State :=
  { s with twin := { s.twin with heldOut := [] } }.each s.twin.heldOut fun s h => s.post (h.2.1 / 32) (h.2.1 % 32) h.2.2

/-- Partitions with a replicated placement. -/
def State.replicaParts (s : State) : List Nat := (s.present.filter fun l => sliceRep (s.place l).slice).map fun l => (s.place l).part

/-- The pair becomes DEGRADED: journaling is suspended, contexts with records not acknowledged are stale, nothing is held. -/
def State.degrade (s : State) (cause : Nat) : State :=
  if s.twinSt ≠ 2 then s
  else
    let s1 := (s.setFld Reg.TWN_STAT Fld.TWN_STAT_STATE 3).setFld Reg.TWN_STAT Fld.TWN_STAT_CAUSE cause
    (s1.releaseHeld).raise19 s1.replicaParts

/-- The cause of a DEGRADED pair has ended. -/
def State.undegrade (s : State) (cause : Nat) : State :=
  if s.twinSt = 3 && s.fld Reg.TWN_STAT Fld.TWN_STAT_CAUSE = cause then
    (s.setFld Reg.TWN_STAT Fld.TWN_STAT_STATE 2).setFld Reg.TWN_STAT Fld.TWN_STAT_CAUSE 0
  else s

/-! ## Ports that leave UP (R368, R379) -/

/-- Fewest active lanes of an UP port (R393). -/
def State.minLanes (s : State) : Nat := max 3 (min 17 (s.fld Reg.LNK_CFG Fld.LNK_CFG_MIN_LANES))

/-- Port n leaves UP for a state: it carries nothing. -/
def State.portOff (s : State) (n st : Nat) : State :=
  let r := Reg.LNK_PORT_STAT n
  let s1 := (((s.setFld r Fld.LNK_PORT_STAT_STATE st).setFld r Fld.LNK_PORT_STAT_LANES 0).setFlag r Fld.LNK_PORT_STAT_SPARE_USED false).setFlag
    r Fld.LNK_PORT_STAT_PROT false
  s1.setPort n { s1.port n with txWait := [], mapNext := none, rxMapNext := none, nak := none, rxMsgs := [], downAt := s.now, firstTime := false }

/-- What an UP port's loss means: modules with no port of their route left are lost; a route that goes on raises vector 19; with
both twin ports gone the pair is DEGRADED with CAUSE 1. -/
def State.afterLoss (s : State) (n : Nat) : State :=
  let mods := s.namedModules ++ s.fabric.chains.flatMap fun c => c.prev :: c.members.take 1
  let far := s.farId n
  let uses := fun m => if s.portRole n = 1 then m == far else s.portRole n == 2 && !((List.range 24).any fun k => s.portRole k == 1 && s.farId k == m)
  let hit := (mods.eraseDups).filter uses
  let gone := hit.filter fun m => (s.routePorts m).isEmpty
  let s1 := s.raise19 ((hit.filter fun m => !(gone.contains m)).flatMap fun m => (s.slicesWith m).map fun l => (s.place l).part)
  let s2 := s1.each gone fun s m => s.moduleLost m
  if s2.portRole n = 3 && (s2.upPorts 3).isEmpty then s2.degrade 1 else s2

/-- Port n goes DOWN, or to OFF where EN is 0. -/
def State.portDown (s : State) (n st : Nat) : State :=
  let was := s.portSt n
  let s1 := s.portOff n st
  if was = 2 then s1.afterLoss n else s1

/-! ## Lanes (R340, R342, R368, R369) -/

/-- LNK.LANE of lane m of port n. -/
def laneReg (n m : Nat) : RegRef := Reg.LNK_LANE (17 * n + m)
/-- STATE of a lane (R399): 0 in the stripe, 1 spare idle, 2 degraded, 3 out. -/
def State.laneSt (s : State) (n m : Nat) : Nat := s.fld (laneReg n m) Fld.LNK_LANE_STATE
/-- Lanes of a map. -/
def laneCount (map : Nat) : Nat := ((List.range 17).filter fun m => bitOf map m).length
/-- The stripe that port n has or has announced. -/
def State.nextMap (s : State) (n : Nat) : Nat := (((s.port n).mapNext).map Prod.snd).getD (s.port n).laneMap

/-- The states of the lanes under a map. -/
def State.markLanes (s : State) (n map : Nat) : State :=
  s.each (List.range 17) fun s m =>
    s.setFld (laneReg n m) Fld.LNK_LANE_STATE
      (if bitOf map m then 0
       else if m = 16 then (if s.flag (laneReg n m) Fld.LNK_LANE_TESTED && s.laneSt n m ≠ 3 then 1 else 3)
       else if s.laneSt n m = 2 then 2 else 3)

/-- Port n leaves protected mode: its frames are counted on from the number it has reached, and messages that waited go (R366). -/
def State.endProt (s : State) (n : Nat) : State :=
  let x := s.port n
  let s1 := (s.setPort n { x with upAt := s.now - s.frameNo n * 25 / 2 }).setFlag (Reg.LNK_PORT_STAT n) Fld.LNK_PORT_STAT_PROT false
  State.txLoop n x.txWait.length s1

/-- A stripe takes effect: LANES, SPARE_USED, the end of protected mode; below MIN_LANES the port goes DOWN. -/
def State.applyMap (s : State) (n map : Nat) : State :=
  let r := Reg.LNK_PORT_STAT n
  let s0 := s.endProt n
  let s1 := (s0.setPort n { s0.port n with laneMap := map, mapNext := none }).markLanes n map
  let s2 := (s1.setFld r Fld.LNK_PORT_STAT_LANES (laneCount map)).setFlag r Fld.LNK_PORT_STAT_SPARE_USED (bitOf map 16)
  if laneCount map < s2.minLanes then s2.portDown n 3 else s2

/-- A new stripe is announced under protected mode; it applies from the 16th frame on. A port that is not UP has no frames: its
lanes are marked. -/
def State.announce (s : State) (n map : Nat) : State :=
  if s.portSt n ≠ 2 then (s.setPort n { s.port n with laneMap := map }).markLanes n map
  else if map = s.nextMap n then s
  else
    let x := s.port n
    (s.setPort n { x with mapSeq := (x.mapSeq + 1) % 256, mapNext := some (s.frameNo n + 16, map) }).setFlag (Reg.LNK_PORT_STAT n)
      Fld.LNK_PORT_STAT_PROT true

/-- Lane m leaves the stripe; L16 takes its place where it is free and passed its test. -/
def State.laneOut (s : State) (n m : Nat) : State :=
  let map := s.nextMap n
  if !(bitOf map m) then (if s.laneSt n m = 1 then s.setFld (laneReg n m) Fld.LNK_LANE_STATE 3 else s)
  else
    let s1 := if m = 16 then s.setFld (laneReg n m) Fld.LNK_LANE_STATE 3 else s
    let spare := m ≠ 16 && !(bitOf map 16) && s.laneSt n 16 = 1
    s1.announce n (map - 2 ^ m + if spare then 2 ^ 16 else 0)

/-- Lane m returns to the stripe; L16 gives back its place when L0 to L15 are all in. -/
def State.laneIn (s : State) (n m : Nat) : State :=
  let map := s.nextMap n
  if bitOf map m || s.laneSt n m = 2 then s
  else if m = 16 then (if map % 65536 = 65535 then s.setFld (laneReg n 16) Fld.LNK_LANE_STATE 1 else s.announce n (map + 2 ^ 16))
  else
    let map1 := map + 2 ^ m
    if map1 % 65536 = 65535 && bitOf map1 16 then (s.setFld (laneReg n 16) Fld.LNK_LANE_STATE 1).announce n (map1 - 2 ^ 16)
    else s.announce n map1

/-- LANE_REMAP: an announced stripe, of this end or of the far end, takes effect from its 16th frame on (R368). -/
def execLaneRemap (n : Nat) (laneMap : BitVec 17) (at_ : Nat) (s : State) : Res :=
  let s := s.tick at_
  onObject (decide (n < 24))
    (let x := s.port n
     let own := match x.mapNext with
       | some (k, m) => m == laneMap.toNat && decide (k ≤ s.frameNo n)
       | none => false
     let far := match x.rxMapNext with
       | some (k, m) => m == laneMap.toNat && decide (unsigned 32 ((x.rxNext : Int) - k) < 2 ^ 31)
       | none => false
     let s1 := if far then s.setPort n { x with rxMap := laneMap.toNat, rxMapNext := none } else s
     if own then s1.applyMap n laneMap.toNat else s1)

end Sys2Proof.Machine
end

