-- ==== Sys2Proof/Machine/Lasers.lean ====
section
/-! DEFINITION. Lasers, their loops, fades, spares and swaps; ring acquisition, tones and lock alarms
(10_light_sources_and_loops.md). -/

namespace Sys2Proof.Machine

/-! ## Which laser is which (R321, R322, R360) -/

/-- Quadrant of a laser. -/
def lasQuad (n : Nat) : Nat := n / 256
/-- Compute wavelength (q * 16 + w) of a laser; none for an I/O laser. -/
def lasWave (n : Nat) : Option Nat := if n % 256 < 32 then some (n / 256 * 16 + n % 256 / 2) else none
/-- Port and lane of an I/O laser. -/
def lasLane (n : Nat) : Nat × Nat := (6 * (n / 256) + (n % 256 - 32) / 34, (n % 256 - 32) % 34 / 2)
/-- Primary position of a laser's pair. -/
def primaryOf (n : Nat) : Nat := n / 2 * 2
/-- Spare position of a laser's pair. -/
def spareOf (n : Nat) : Nat := n / 2 * 2 + 1

/-- The laser is switched onto its bus. -/
def State.onBus (s : State) (n : Nat) : Bool := s.flag (Reg.LAS_STAT n) Fld.LAS_STAT_SEL
/-- Its fade cause. -/
def State.fadeCause (s : State) (n : Nat) : Nat := s.fld (Reg.LAS_STAT n) Fld.LAS_STAT_FADE_CAUSE
/-- STATE of a laser set. -/
def State.setLas (s : State) (n st : Nat) : State := s.setFld (Reg.LAS_STAT n) Fld.LAS_STAT_STATE st

/-- COMM, or 3 dB below it for an I/O laser of a Board-class port, in 0.01 dBm (R360). -/
def State.lasTarget (s : State) (n : Nat) : Int :=
  let comm := signed 16 (s.fld (Reg.LAS_BIAS n) Fld.LAS_BIAS_COMM)
  if (lasWave n).isNone && s.fld (Reg.LNK_PORT_CFG (lasLane n).1) Fld.LNK_PORT_CFG_CLASS = 0 then comm - 300 else comm

/-- A spare stands behind the laser in service of a pair. -/
def State.hasSpare (s : State) (n : Nat) : Bool := s.onBus (primaryOf n) && s.lasSt (spareOf n) != 5

/-- CSP_LEFT and IOSP_LEFT of PB q. -/
def State.countSpares (s : State) (q : Nat) : State :=
  let n := fun lo hi => ((List.range 118).filter fun k => lo ≤ k && k < hi && s.hasSpare (256 * q + 2 * k)).length
  (s.setFld (Reg.LAS_BANK q) Fld.LAS_BANK_CSP_LEFT (n 0 16)).setFld (Reg.LAS_BANK q) Fld.LAS_BANK_IOSP_LEFT (n 16 118)

/-- A quadrant cairn is requested by PCP[q]; one request serves all (R337, R343). -/
def State.wantQuad (s : State) (q : Nat) : State :=
  if s.clk.quadWant.contains q then s else { s with clk := { s.clk with quadWant := s.clk.quadWant ++ [q] } }

/-! ## Rings (R324 to R334) -/

/-- VERIFIED, FAILED and QUALITY of a cluster from its rings (R355). -/
def State.clusterStat (s : State) (c : Nat) : State :=
  let rs := (List.range (clusterRings c)).map fun r => s.ring c r
  let n := fun st => (rs.filter fun x => x.st == st).length
  let r := Reg.RNG_CLU_STAT c
  ((s.setFld r Fld.RNG_CLU_STAT_VERIFIED (n .verified)).setFld r Fld.RNG_CLU_STAT_FAILED (n .failed)).setFld r
    Fld.RNG_CLU_STAT_QUALITY (min 1023 ((rs.map Ring.quality).foldl max 0))

/-- A ring replaced, with its cluster's figures. -/
def State.putRing (s : State) (c r : Nat) (x : Ring) : State := (s.setRing c r x).clusterStat c

/-- A ring is LOCKED or VERIFIED. -/
def Ring.locked (x : Ring) : Bool := x.st == .locked || x.st == .verified

/-- A ring's lock alarm: it leaves lock and reacquires; while PCP[q] is absent it stays ACQUIRING without a sweep (R326, R344). The
steps in flight on its slice are told (R166). -/
def State.ringAlarm (s : State) (c r : Nat) : State :=
  let x := s.ring c r
  if !x.locked then s
  else
    let q := c / 512
    let up := s.pcp q
    let s1 := (s.putRing c r { x with st := .acquiring, since := s.now, tried := 0, sweeping := up, matchedAt := none }).bump
      (Reg.RNG_CLU_STAT c) Fld.RNG_CLU_STAT_ALARMS
    let s2 := if up then s1 else s1.bump (Reg.RNG_QCNT q) Fld.RNG_QCNT_PCP_GAP
    match (physOfCluster c).bind s2.logicalOf with
    | some t => s2.sliceAlarm t (rowOfRing r)
    | none => s2

/-- A ring becomes FAILED: a calibration of its cluster is requested; a port's lane leaves the stripe (R332, R334). -/
def State.ringFails (s : State) (c r : Nat) : State :=
  let s1 := ((s.putRing c r { s.ring c r with st := .failed, sweeping := false }).bump (Reg.RNG_QCNT (c / 512)) Fld.RNG_QCNT_RING_FAIL).fault
    0x0304 1 srcHw c (leBytes 2 r)
  let s2 := s1.calHold (.cluster c true)
  match portOfCluster c with
  | some n => s2.laneOut n (r / 2)
  | none => s2

/-- Rings of a slice that a compute wavelength w (0 to 7 of the slice) uses: its modulator and one weighting element a row. -/
def waveRings (w : Nat) : List Nat := w :: (List.range 8).map fun row => 8 + 8 * row + w

/-- The rings of a wavelength (q * 16 + w) take the lock alarm at the switch or at a loss of light (R338, R339). -/
def State.waveAlarm (s : State) (w : Nat) : State :=
  s.each ((List.range 272).map fun k => w / 16 * 272 + k) fun s i =>
    if (wavesOf i).contains w then s.each (waveRings (w % 8)) fun s r => s.ringAlarm (clusterOf i) r else s

/-- The transmit ring of a lane takes the lock alarm. -/
def State.laneAlarm (s : State) (n m : Nat) : State := s.ringAlarm (512 * (n / 6) + 272 + n % 6) (2 * m)

/-- Cluster of a port. -/
def portCluster (n : Nat) : Nat := 512 * (n / 6) + 272 + n % 6

/-- A lane has light: both its rings are VERIFIED and its laser is in service. -/
def State.laneLight (s : State) (n m : Nat) : Bool :=
  let las := 256 * (n / 6) + 32 + 34 * (n % 6) + 2 * m
  (s.ring (portCluster n) (2 * m)).st == .verified && (s.ring (portCluster n) (2 * m + 1)).st == .verified &&
    (s.lasSt las == 4 || s.lasSt (las + 1) == 4)

/-- A lane of a port may stand in the stripe: both its rings pass the check of a slice's rings, and its laser is in service (R330, R340). -/
def State.laneLit (s : State) (n m : Nat) : Bool :=
  s.laneLight n m && s.ringOk (portCluster n) (2 * m) && s.ringOk (portCluster n) (2 * m + 1)

/-- LOCK_ALARM: a ring's error leaves the lock window (R166, R326). -/
def execLockAlarm (cluster ring at_ : Nat) (s : State) : Res :=
  let s := s.tick at_
  onObject (clusterOk cluster && decide (ring < clusterRings cluster)) (s.ringAlarm cluster ring)

/-- HEATER_LIMIT: a heater has stood at the limit of its band's window for 10 us (R326). -/
def execHeaterLimit (cluster ring at_ : Nat) (s : State) : Res :=
  let s := s.tick at_
  onObject (clusterOk cluster && decide (ring < clusterRings cluster)) (s.ringAlarm cluster ring)

/-! ## A ring's loop (R325, R327) -/

/-- The object whose calibration a ring's loop follows (R404). -/
def ringObj (c r : Nat) : CalObj :=
  match portOfCluster c with
  | some n => .lane (17 * n + r / 2)
  | none => .cluster c false

/-- A heater drive held below HTR_MAX, where calibration has given one. -/
def Ring.ceiling (x : Ring) (d : Nat) : Nat := if x.htrMax = 0 then d else min d x.htrMax

/-- A heater drive held within the window of the ring's band in force and below HTR_MAX (R327, R461). -/
def State.limitDrive (s : State) (c r d : Nat) : Nat :=
  let x := s.ring c r
  let o := ringObj c r
  match s.calSet o (s.calBand o) with
  | some k => if k.window.1 < k.window.2 then x.ceiling (max k.window.1 (min (k.window.2 - 1) d)) else x.ceiling d
  | none => x.ceiling d

/-- A heater drive moves towards a target by at most 5 % of HTR_MAX per us: a 500th part in the 40 ns of an update (R325, R327). -/
def Ring.slew (x : Ring) (target : Nat) : Nat :=
  let k := x.htrMax / 500
  if x.htrMax = 0 then target else max (x.drive - k) (min (x.drive + k) target)

/-- An integer held within a range either way. -/
def within (m : Nat) (v : Int) : Int := max (-(m : Int)) (min (m : Int) v)

/-- One update of a ring's loop filter for an error signal: proportional and integral drive by KP and KI; what lies below the crossover goes
to the heater, all of it while the heater takes the trim's share, and the trim takes the rest. The share is taken from the trim's end of range
until it is back in the middle half (R325, R353). The sums are in heater codes and rounded down (DEDUCED, log entry 87). -/
def State.loopUpdate (s : State) (c r : Nat) (e : Int) (x : Ring) : Ring :=
  let loop := (s.reg (Reg.RNG_LOOP (c / 512))).toNat
  let integ := x.integ + e
  let want : Int := x.heater + Int.fdiv ((bitsOf loop 0 8 : Nat) * e) 64 + Int.fdiv ((bitsOf loop 8 8 : Nat) * integ) 1024
  let share := if x.handed then want else Config.crossover (bitsOf loop 16 8) x.drive want
  let drive := s.limitDrive c r (x.slew share.toNat)
  let range := Config.trimRange c r
  let trim := within range (want - drive)
  { x with integ := integ, drive := drive, trim := trim,
           handed := if (range : Int) ≤ trim.natAbs then true else if 2 * trim.natAbs ≤ range then false else x.handed }

/-- The updates of a window, in order; a ring that is not in lock has no loop action (R326). -/
def State.loopWindow (s : State) (c r : Nat) (errs : List Int) : State :=
  let x := s.ring c r
  if x.locked then s.setRing c r (errs.foldl (fun x e => s.loopUpdate c r e x) x) else s

/-- A ring is captured at a heater code (R328, R332). -/
def State.capture (s : State) (c r d : Nat) (x : Ring) : Ring :=
  { x with st := .locked, drive := s.limitDrive c r d, trim := 0, integ := 0, handed := false }

/-- Distance of two heater codes. -/
def codeDist (a b : Nat) : Nat := max (a - b) (b - a)

/-- The candidates of a ring's acquisition: the resonances that the sweep of the band's window finds, nearest to the code that calibration gives
first, at most two (R332). -/
def State.candidates (s : State) (c r : Nat) (x : Ring) : List Nat :=
  let found := ((Config.resonances c r x.since).filter fun d => s.limitDrive c r d == d).eraseDups
  (sortBy (fun a b => decide (codeDist a x.heater < codeDist b x.heater)) found).take 2

/-! ## Dye tones (R329) -/

/-- Tone of a ring's target within its bank: the wavelength of its die, or the lane. -/
def targetTone (c r : Nat) : Nat :=
  match physOfCluster c with
  | some i => i % 272 % 2 * 8 + r % 8
  | none => r / 2

/-- Outcome of a window from the tones present, in 0.01 dB above the noise floor: nothing reaches 20 dB, the target stands 10 dB above every
other, or a mismatch. A target that is the strongest by less is a mismatch too (DEDUCED, log entry 87). -/
def toneOf (target : Nat) (tones : List (Nat × Int)) : Tone :=
  if !(tones.any fun e => decide (2000 ≤ e.2)) then .none
  else match tones.find? fun e => e.1 == target with
    | some e => if tones.all fun f => f.1 == target || decide (f.2 + 1000 ≤ e.2) then .matched else .mismatch
    | none => .mismatch

/-- Earliest end of the tone window that judges the candidate at work, from the start of the acquisition in ns (R333). -/
def judgedFrom (tried : Nat) : Nat := 25000 + 18000 * tried

/-- Earliest time at which the candidate at work is captured, from the start of the acquisition in ns: a window before it is judged (R333). -/
def capturedFrom (tried : Nat) : Nat := judgedFrom tried - 16000

/-- A ring is VERIFIED by its tone: a lane whose rings are both verified returns to its stripe. -/
def State.ringVerified (s : State) (c r quality : Nat) : State :=
  let x := s.ring c r
  let s1 := (s.putRing c r { x with st := .verified, sweeping := false, matchedAt := some s.now, quality := quality }).bump (Reg.RNG_CLU_STAT c)
    Fld.RNG_CLU_STAT_RELOCKS
  let s2 := if x.tried = 0 then s1 else s1.bump (Reg.RNG_QCNT (c / 512)) Fld.RNG_QCNT_WRONG_LOCK
  match portOfCluster c with
  | some n => if s2.portSt n == 2 && s2.laneLit n (r / 2) then s2.laneIn n (r / 2) else s2
  | none => s2

/-- TONE_WINDOW: a 16 us window of a ring ends, with the tones that its filters found and the error signals of its loop's updates. A VERIFIED
ring confirms its wavelength or has a tone-path fault (R331); a ring under acquisition is captured, and judged when it has stood LOCKED for
the window (R332, R333). -/
def execToneWindow (cluster ring : Nat) (seen : ToneSeen) (quality at_ : Nat) (s : State) : Res :=
  let s := s.tick at_
  onObject (clusterOk cluster && decide (ring < clusterRings cluster))
    (let s := s.loopWindow cluster ring seen.errs
     let tone := toneOf (targetTone cluster ring) seen.tones
     let x := s.ring cluster ring
     let age := s.now - x.since
     match x.st with
     | .verified =>
       if tone == .matched then s.putRing cluster ring { x with matchedAt := some s.now, quality := quality }
       else ((s.ringAlarm cluster ring).bump (Reg.RNG_QCNT (cluster / 512)) Fld.RNG_QCNT_TONE_MIS).fault 0x0304 1 srcHw cluster (leBytes 2 ring)
     | .acquiring | .locked =>
       if !x.sweeping then s
       else if 48000 < age then s.ringFails cluster ring
       else if x.st == .acquiring then
         if age < capturedFrom x.tried then s
         else match (s.candidates cluster ring x)[x.tried]? with
           | some d => s.putRing cluster ring { s.capture cluster ring d x with quality := quality }
           | none => if age < judgedFrom 1 then s else s.ringFails cluster ring
       else if age < judgedFrom x.tried then s
       else if tone == .matched then s.ringVerified cluster ring quality
       else if x.tried = 0 then s.putRing cluster ring { x with st := .acquiring, tried := 1 }
       else s.ringFails cluster ring
     | _ => s)

/-- ACQUISITION_TIMEOUT: a ring has stayed ACQUIRING or LOCKED beyond 48 us (R333). -/
def execAcquisitionTimeout (cluster ring at_ : Nat) (s : State) : Res :=
  let s := s.tick at_
  onObject (clusterOk cluster && decide (ring < clusterRings cluster))
    (let x := s.ring cluster ring
     if (x.st == .acquiring || x.st == .locked) && x.sweeping && decide (x.since + 48000 < s.now) then s.ringFails cluster ring else s)

/-- PCP[q] sweeps every ring of its die that is not VERIFIED (R344, R345). -/
def State.sweepAll (s : State) (q : Nat) : State :=
  let s1 := { s with rings := s.rings.map fun (e : Nat × Ring) =>
      if e.1 / 128 / 512 = q && e.2.st != RingSt.verified then
        (e.1, { e.2 with st := .acquiring, since := s.now, tried := 0, sweeping := true, matchedAt := none })
      else e }
  s1.each (List.range 278) fun s k => s.clusterStat (512 * q + k)

/-! ## Warm-up of a spare (R336) -/

/-- The temperature band that the tables of a laser follow: that of its photonic die, from the maximum of PB[q] (R460, R461). -/
def State.lasBand (s : State) (n : Nat) : Nat := s.fld (Reg.THM_REGION (4 + lasQuad n)) Fld.THM_REGION_BAND

/-- PCP[q] turns a laser on: its bias starts from the table of the band in force. -/
def State.warmLaser (s : State) (n since : Nat) : State :=
  let b := ((s.laser n).table.getD (s.lasBand n) 0)
  ((s.setLas n 1).setFld (Reg.LAS_BIAS n) Fld.LAS_BIAS_BIAS b).setLaser n { s.laser n with fadeAt := since }

/-- A spare fails: the wavelength or lane has no spare (R336). -/
def State.spareFails (s : State) (n : Nat) : State :=
  ((s.setLas n 5).fault 0x0302 1 (4 + lasQuad n) n (leBytes 1 2)).countSpares (lasQuad n)

/-- A laser is in a warm-up. -/
def State.warming (s : State) (n : Nat) : Bool := s.lasSt n == 1 || s.lasSt n == 2

/-- The frequency error lies within 5 GHz (R323). -/
def State.onGrid (s : State) (n : Nat) : Bool :=
  let e := signed 16 (s.fld (Reg.LAS_STAT n) Fld.LAS_STAT_FREQ_ERR)
  decide (-50 ≤ e ∧ e ≤ 50)

/-- SPARE_READY: a TUNING spare, which has reached COMM, is held on its grid position within 4.0 ms of the fade; a compute spare asks for a
quadrant cairn (R336, R337). -/
def execSpareReady (n at_ : Nat) (s : State) : Res :=
  let s := s.tick at_
  onObject (laserOk n)
    (if !(s.warming n) || n % 2 = 0 then s
     else if (s.laser n).fadeAt + 4000000 < s.now then s.spareFails n
     else if s.lasSt n ≠ 2 || !(s.onGrid n) then s
     else
       let s1 := s.setLas n 3
       if (lasWave n).isSome && s.pcp (lasQuad n) then s1.wantQuad (lasQuad n) else s1)

/-- SPARE_TIMEOUT: a spare is not READY within 4.0 ms of the fade (R336). -/
def execSpareTimeout (n at_ : Nat) (s : State) : Res :=
  let s := s.tick at_
  onObject (laserOk n) (if s.warming n && n % 2 = 1 && decide ((s.laser n).fadeAt + 4000000 ≤ s.now) then s.spareFails n else s)

/-- A drive of laser n's tuning heater held within the window of its band (R323, R461). -/
def State.limitTune (s : State) (n d : Nat) : Nat :=
  let w := Config.tuneWindow n (s.lasBand n)
  max w.1 (min w.2 d)

/-- The wavelength loop moves the tuning heater; FREQ_ERR shows the error measured. A laser that is READY or ACTIVE with its heater inside
its window is held within 5 GHz (R323, R350). -/
def State.tuneLaser (s : State) (n : Nat) (freq : Int) : State :=
  let x := s.laser n
  let d := s.limitTune n (Config.tuneDrive n x.heater freq)
  let w := Config.tuneWindow n (s.lasBand n)
  let held := (s.lasSt n == 3 || s.lasSt n == 4) && decide (w.1 < d ∧ d < w.2)
  (s.setLaser n { x with heater := d }).setFld (Reg.LAS_STAT n) Fld.LAS_STAT_FREQ_ERR (unsigned 16 (if held then within 50 freq else freq))

/-- POWER_LOOP_UPDATE, with the monitor's power and the frequency error of the etalon in 100 MHz: the bias moves by at most 0.25 mA towards the
value that zeroes the error, never beyond BIAS_MAX; the wavelength loop follows; a spare that reaches BIAS_MAX fails (R323, R336). -/
def execPowerLoopUpdate (n : Nat) (seen : LaserSeen) (s : State) : Res :=
  onObject (laserOk n)
    (let r := Reg.LAS_BIAS n
     let s1 := s.setFld r Fld.LAS_BIAS_PWR (unsigned 16 seen.pwr)
     let st := s.lasSt n
     if st = 0 || st = 5 then s1
     else
       let b := s.fld r Fld.LAS_BIAS_BIAS
       let mx := s.fld r Fld.LAS_BIAS_BIAS_MAX
       let want := s.lasTarget n
       let b1 := if seen.pwr < want then min mx (b + 1) else if want < seen.pwr then b - 1 else b
       let s2 := (s1.setFld r Fld.LAS_BIAS_BIAS b1).tuneLaser n seen.freq
       if (s.warming n || st = 3) && mx ≤ b1 then s2.spareFails n
       else if st = 1 && want ≤ seen.pwr then s2.setLas n 2
       else s2)

/-! ## Fades (R335, R339, R341, R342) -/

/-- The fade trigger that holds for the laser in service; a loss of light comes first. -/
def State.fadeTrigger (s : State) (n : Nat) (pwr : Int) (lowN : Nat) : Nat :=
  let c := Reg.LAS_CFG
  let want := s.lasTarget n
  if pwr < want - 100 * (max 1 (s.fld c Fld.LAS_CFG_LOS_DB) : Nat) then 3
  else if min 100 (s.fld c Fld.LAS_CFG_FADE_PCT) * s.fld (Reg.LAS_BIAS n) Fld.LAS_BIAS_BIAS_MAX ≤ 100 * s.fld (Reg.LAS_BIAS n) Fld.LAS_BIAS_BIAS then 1
  else if 10 * max 1 (s.fld c Fld.LAS_CFG_FADE_TIME) ≤ lowN then 2
  else 0

/-- A fade is recorded; a loss of light switches the laser off at once, and its light is gone. -/
def State.fade (s : State) (n cause : Nat) : State :=
  let q := lasQuad n
  let s1 := ((s.setFld (Reg.LAS_STAT n) Fld.LAS_STAT_FADE_CAUSE cause).bump (Reg.LAS_BANK q) Fld.LAS_BANK_FADE_EV).fault 0x0301
    (if cause = 3 then 2 else 1) srcHw n (leBytes 1 cause)
  let s2 := s1.setLaser n { s1.laser n with fadeAt := s1.now }
  if cause ≠ 3 then s2
  else
    let s3 := (s2.setLas n 5).setLaser n { s2.laser n with dark := true }
    match lasWave n with
    | some w => s3.waveAlarm w
    | none => let (p, m) := lasLane n; (s3.laneAlarm p m).laneOut p m

/-- A fade with no spare behind: a compute wavelength waits for its derating, an I/O lane leaves the stripe. -/
def State.noSpare (s : State) (n : Nat) (pwr : Int) : State :=
  match lasWave n with
  | some w =>
    let x := s.laser n
    let deep := s.fadeCause n = 3 || pwr < s.lasTarget n - 300 || 3 ≤ x.missN || x.deep
    if deep && !(s.waveDerated w) then (s.setLaser n { x with deep := true }).wantQuad (lasQuad n) else s
  | none => let (p, m) := lasLane n; s.laneOut p m

/-- FADE_EVALUATION of the laser in service: the triggers are evaluated, and on a fade PCP[q] warms the spare (R335, R336). -/
def execFadeEvaluation (n : Nat) (pwr : Int) (at_ : Nat) (s : State) : Res :=
  let s := s.tick at_
  onObject (laserOk n)
    (if !(s.onBus n) then s
     else
       let x := s.laser n
       let low := pwr < s.lasTarget n - 10 * (s.fld Reg.LAS_CFG Fld.LAS_CFG_FADE_DB : Nat)
       let s0 := s.setFld (Reg.LAS_BIAS n) Fld.LAS_BIAS_PWR (unsigned 16 pwr)
       let s1 := if x.lowAt + 100000000 ≤ s.now || x.lowAt = 0 then
           s0.setLaser n { x with lowAt := s.now, lowN := if low then x.lowN + 1 else 0 } else s0
       let was := s1.fadeCause n
       let cause := if x.dark then 0 else s1.fadeTrigger n pwr (s1.laser n).lowN
       let s2 := if cause ≠ 0 && (was = 0 || (cause = 3 && was ≠ 3)) then s1.fade n cause else s1
       if s2.fadeCause n = 0 then s2
       else if !(s2.hasSpare n) then s2.noSpare n pwr
       else if s2.lasSt (spareOf n) = 0 && s2.pcp (lasQuad n) then s2.warmLaser (spareOf n) s2.now
       else s2)

/-! ## Swaps (R338, R340, R341) -/

/-- A READY spare takes the place of the laser in service. -/
def State.switchIn (s : State) (n : Nat) : State :=
  let p := primaryOf n
  let s1 := (s.setLas p 5).setFlag (Reg.LAS_STAT p) Fld.LAS_STAT_SEL false
  let s2 := ((s1.setLas n 4).setFlag (Reg.LAS_STAT n) Fld.LAS_STAT_SEL true).bump (Reg.LAS_BANK (lasQuad n)) Fld.LAS_BANK_SWAPS
  (s2.fault 0x0302 0 (if (lasWave n).isSome then 4 + lasQuad n else 2) n (leBytes 1 1)).countSpares (lasQuad n)

/-- The compute spares of a quadrant that are READY. -/
def State.readySpares (s : State) (q : Nat) : List Nat := ((List.range 16).map fun w => 256 * q + 2 * w + 1).filter fun n => s.lasSt n == 3

/-- The wavelengths of a quadrant to be derated: faded with no spare behind, and deeply. -/
def State.toDerate (s : State) (q : Nat) : List (Nat × Nat) :=
  (List.range 16).filterMap fun k =>
    let n := if s.onBus (256 * q + 2 * k + 1) then 256 * q + 2 * k + 1 else 256 * q + 2 * k
    if (s.laser n).deep && !(s.hasSpare n) && !(s.waveDerated (16 * q + k)) then some (n, 16 * q + k) else none

/-- A wavelength is derated (R341). -/
def State.derate (s : State) (n : Nat) : State :=
  ((s.setLaser n { s.laser n with derated := true }).bump (Reg.LAS_BANK (lasQuad n)) Fld.LAS_BANK_CDARK).fault 0x0303 2 (4 + lasQuad n) n []

/-- A calibration slice runs on a slice that uses one of the wavelengths to be switched (R343). -/
def State.swapBusy (s : State) (q : Nat) : Bool :=
  let ws := (s.readySpares q).filterMap lasWave
  (List.range 272).any fun k => decide (s.now < (s.phy (q * 272 + k)).calBusyUntil) && (wavesOf (q * 272 + k)).any fun w => ws.contains w

/-- The quadrant cairn of Q q, once it may fall: spares switch in, wavelengths derate, tiles are replaced (R338, R341, R343, R20). -/
def State.quadrantCairn (s : State) (q : Nat) : State :=
  if !(s.clk.quadWant.contains q) || (s.present.any fun l => s.inQuad l q) || s.swapBusy q then s
  else
    let ns := s.readySpares q
    let ws := ns.filterMap lasWave
    let s1 := s.each ns fun s n => s.switchIn n
    let s2 := s1.each (s1.present.filter fun l => (s1.place l).cfg.tiles.any fun t => t / 256 == q) fun s l =>
      s.setPlace l { s.place l with swapWaves := ws }
    let s3 := s2.each ws fun s w => s.waveAlarm w
    (s3.each (s3.toDerate q) fun s x => s.derate x.1).quadCairn q

/-- QUADRANT_CAIRN. -/
def execQuadrantCairn (q at_ : Nat) (s : State) : Res :=
  let s := s.tick at_
  onObject (decide (q < 4)) (s.quadrantCairn q)

/-- GLOBAL_CAIRN: no placement has a step in flight after firmware's request; it serves as the cairn of every quadrant that waits
for one (R228, R337). -/
def State.atGlobalCairn (s : State) : Bool := s.present.all fun l => (s.place l).step.isNone

/-- IO_LASER_SWAP, by FMP: a lane in the stripe of an UP port is remapped out first; then the lasers switch over, and the transmit ring
reacquires; the lane returns when its tones match (R340, R343). -/
def execIoLaserSwap (n at_ : Nat) (s : State) : Res :=
  let s := s.tick at_
  onObject (laserOk n)
    (if (lasWave n).isSome || n % 2 = 0 || s.lasSt n ≠ 3 || !(s.alive 2) then s
     else
       let (p, m) := lasLane n
       if s.portSt p = 2 && (bitOf (s.port p).laneMap m || (s.port p).mapNext.isSome) then s.laneOut p m
       else (s.switchIn n).laneAlarm p m)

/-! ## PCP[q] restarts (R344) -/

/-- PCP[q] goes: spares not yet switched in go OFF, and its request for a quadrant cairn is withdrawn. -/
def State.pcpGone (s : State) (q : Nat) : State :=
  let ns := ((List.range 118).map fun k => 256 * q + 2 * k + 1).filter fun n => s.warming n || s.lasSt n == 3
  let s1 := s.each ns fun s n => s.setLas n 0
  { s1 with clk := { s1.clk with quadWant := s1.clk.quadWant.filter (· != q) } }

end Sys2Proof.Machine
end

