-- ==== Sys2Proof/Machine/Calib.lean ====
section
/-! DEFINITION. Calibration: triggers, runs between steps, plausibility, values brought in, records in flash, CAL_RUN and CAL_QUERY
(12_calibration.md). -/

namespace Sys2Proof.Machine

/-- Port and lane of a lane number (R394). -/
def laneOf (i : Nat) : Nat × Nat := (i / 17, i % 17)

/-- A run of an object is in progress. -/
def State.inRun (s : State) (o : CalObj) : Bool := s.cal.running.any fun x => calKey x.1 == calKey o

/-! ## The flash arbiter (R470) -/

/-- Requester k has a write for flash: 0 boot record and fault log, 1 calibration records and the map record in their area, 2 lifetime
counters, which are written as they ask, 3 FW_STAGE. -/
def State.flashAsks (s : State) (k : Nat) : Bool :=
  match k with
  | 0 => s.faultLog.dirtyAt.isSome
  | 1 => !s.cal.toFlash.isEmpty || s.clk.mapDirty.isSome
  | 2 => false
  | _ => s.fw.staging

/-- The arbiter grants requester k its next write. -/
def State.flashMay (s : State) (k : Nat) : Bool := granted 4 s.fw.flashPtr (fun j => j == k || s.flashAsks j) == some k

/-- The pointer after a grant to requester k. -/
def State.flashDone (s : State) (k : Nat) : State := { s with fw := { s.fw with flashPtr := (k + 1) % 4 } }

/-! ## Runs (R404 to R410) -/

/-- A run begins: the request is taken up, the temperature and the band are noted (R405, R410). -/
def State.beginRun (s : State) (o : CalObj) : State :=
  { s with cal := { s.cal with held := s.cal.held.filter (fun x => calKey x != calKey o),
                               running := s.cal.running ++ [(o, 0, s.calBand o)],
                               tempAt := tset none s.cal.tempAt (calKey o) (some (s.calTemp o)) } }

/-- A lane, a laser or a converter may be measured now: a lane of an UP port, one lane of a port at a time, out of the stripe; a laser
that is ACTIVE; a converter once the reference has settled (R404, R409, R443). -/
def State.mayRun (s : State) (o : CalObj) : Bool :=
  !s.critical && s.calUp o && !(s.inRun o) && match o with
    | .tile _ | .cluster _ _ => false
    | .lane i => s.portSt (i / 17) == 2 && !(s.cal.running.any fun x => match x.1 with
        | .lane j => j / 17 == i / 17
        | _ => false)
    | .laser n => s.lasSt n == 4
    | .conv _ => s.flag Reg.HKC_STAT Fld.HKC_STAT_REF_SETTLED

/-- Held requests of lanes, lasers and converters are taken up. -/
def State.startRuns (s : State) : State :=
  s.each s.cal.held fun s o =>
    if !(s.mayRun o) then s
    else
      let s1 := s.beginRun o
      match o with
      | .lane i => s1.laneOut (laneOf i).1 (laneOf i).2
      | .conv k => { s1 with hkc := { s1.hkc with calLeft := tset 0 s1.hkc.calLeft (k / 2) 2 } }
      | _ => s1

/-- Physical tiles that are not retired. -/
def State.livePhys (s : State) : List Nat := (List.range 1088).filter fun i => s.physSt i != 2

/-- The objects of the module that can be measured: tiles, slice clusters, lanes of UP ports, ACTIVE lasers, converters. -/
def State.allObjects (s : State) : List CalObj :=
  (s.livePhys.map CalObj.tile) ++ (s.livePhys.map fun i => .cluster (clusterOf i) true) ++
    (((List.range 408).filter fun i => s.portSt (i / 17) == 2).map CalObj.lane) ++
    (((List.range 1024).filter fun n => laserOk n && s.lasSt n == 4).map CalObj.laser) ++ ((List.range 12).map CalObj.conv)

/-- Kind of the object with a key; a cluster is asked for a light run. -/
def keyObj (k : Nat) : CalObj :=
  if k < 2048 then .tile k else if k < 4096 then .cluster (k - 2048) false else if k < 5120 then .lane (k - 4096)
  else if k < 6144 then .laser (k - 5120) else .conv (k - 6144)

/-- CAL_TRIGGER_CHECK: once per ms of module time, objects whose temperature has moved by more than DT_CAL since the start of their
last run are requested; what is held is taken up where nothing needs a cairn (R405). -/
def execCalTriggerCheck (at_ : Nat) (s : State) : Res :=
  let s := s.tick at_
  .next (
    let ms := s.time / 1000000
    if ms < s.cal.checkAt then s
    else
      let lim : Int := 4 * (max 1 (s.fld Reg.CFG_CAL_CTL Fld.CFG_CAL_CTL_DT_CAL) : Nat)
      let s1 := { s with cal := { s.cal with checkAt := ms + 1 } }
      (s1.each s1.cal.tempAt fun s e => match e.2 with
        | some t =>
          let d := s.calTemp (keyObj e.1) - t
          if lim < d || d < -lim then s.calHold (keyObj e.1) else s
        | none => s).startRuns)

/-- An object has come into a temperature band with no set for it measured or loaded since power-up (R405). -/
def State.enterBand (s : State) (o : CalObj) : State :=
  if s.cal.measured.contains (calKey o, s.calBand o) then s else s.calHold o

/-- One more slice of a run on physical tile i. -/
def State.runSlice (s : State) (i : Nat) (o : CalObj) : State :=
  let rs := s.cal.running.map fun (x : CalObj × Nat × Nat) => if calKey x.1 = calKey o then (x.1, x.2.1 + 1, x.2.2) else x
  { s with cal := { s.cal with running := rs } }.sliceOn i 0

/-- Slices of a run (R404). -/
def slicesOf : CalObj → Nat
  | .tile _ => 8
  | .cluster _ false => 4
  | _ => 0

/-- A step in flight may still run optical passes on a physical tile's slice: none of them meets a full run (R409). -/
def State.sliceInUse (s : State) (i : Nat) : Bool :=
  match s.logicalOf i with
  | none => false
  | some t => (s.placesOn t).any fun l => match (s.place l).step with
    | some st => !(st.fb.any fun e => e.1 == t && e.2 != 0)
    | none => false

/-- CALIBRATION_SLICE on a physical tile: the next slice of a run of its arrays or its slice cluster; with none in progress a held
request is taken up, a full run by withdrawing the slice (R406 to R410). A test that wants the slice goes first where the pointer between
the two stands at it (R503). -/
def execCalibrationSlice (phys at_ : Nat) (s : State) : Res :=
  let s := s.tick at_
  onObject (decide (phys < 1088))
    (if s.physSt phys = 2 || s.critical || !(s.sliceMay phys) || ((s.phy phys).slicePtr == 1 && s.testWants phys) then s
     else
       let c := clusterOf phys
       let mine := fun o => calPhys o == some phys && s.calUp o
       match s.cal.running.find? fun x => mine x.1 && decide (x.2.1 < slicesOf x.1) with
       | some x => s.runSlice phys x.1
       | none =>
         match s.cal.held.find? fun o => mine o && !(s.inRun o) with
         | some (.cluster _ true) => if s.sliceInUse phys then s else s.beginRun (.cluster c true)
         | some o => (s.beginRun o).runSlice phys o
         | none => s)

/-! ## Results (R411 to R415) -/

/-- The measured values stand within their limits. -/
def State.plausible (s : State) (o : CalObj) (b : Nat) (r : CalResult) : Bool :=
  let last := s.calSet o b
  let near := fun (g : Nat × Nat) => match last.bind fun l => l.gains.find? fun x => x.1 == g.1 with
    | some x => decide (97 * x.2 ≤ 100 * g.2 ∧ 100 * g.2 ≤ 103 * x.2)
    | none => true
  let inWin := fun (h : Nat × Nat) => decide (r.window.1 ≤ h.2 ∧ h.2 < r.window.2) &&
    r.htrMax.all fun m => m.1 != h.1 || decide (h.2 < m.2)
  match o with
  | .tile _ => (r.gains.all fun g => decide (0x6CCD ≤ g.2 ∧ g.2 ≤ 0x9333) && near g) &&
      (r.offsets.all fun x => decide (-96 ≤ x.2 ∧ x.2 ≤ 96)) && r.resid.all fun x => decide (x.2 ≤ 153)
  | .cluster _ full => (r.rowGains.all fun g => decide (3277 ≤ g.2 ∧ g.2 ≤ 4915)) && (!full || r.heaters.all inWin)
  | .lane _ => r.heaters.all inWin
  | .laser n => decide (100 * r.bias < min 100 (s.fld Reg.LAS_CFG Fld.LAS_CFG_FADE_PCT) * s.fld (Reg.LAS_BIAS n) Fld.LAS_BIAS_BIAS_MAX)
  | .conv _ => decide (-1024 ≤ r.conv.1 ∧ r.conv.1 ≤ 1024 ∧ -1000 ≤ r.conv.2 ∧ r.conv.2 ≤ 1000)

/-- WHAT code and INDEX of an object (R417); a spare tile is named by 1,024 plus its physical number. -/
def State.calName (s : State) (o : CalObj) : Nat × Nat :=
  match o with
  | .tile i => (1, (s.logicalOf i).getD (1024 + i))
  | .cluster c _ => (6, c)
  | .lane i => (7, i)
  | .laser n => (9, n)
  | .conv k => (8, k)

/-- A fault-log entry names an object of calibration. -/
def State.calFault (s : State) (o : CalObj) : State := s.fault 0x0601 1 0 (s.calName o).2 (leBytes 1 (s.calName o).1)

/-- A lane whose run has ended stands in the stripe again where its light allows. -/
def State.laneBack (s : State) (o : CalObj) : State :=
  match o with
  | .lane i =>
    let (n, m) := laneOf i
    if s.portSt n ≠ 2 || !(s.laneLit n m) then s
    else (s.when (s.laneSt n m == 2) fun s => s.setFld (laneReg n m) Fld.LNK_LANE_STATE 3).laneIn n m
  | _ => s

/-- Figures of a lane's test (R369). -/
def State.laneFigures (s : State) (i : Nat) (mg : Nat × Nat × Nat) (ok : Bool) : State :=
  let r := Reg.LNK_LANE i
  (((s.setFld r Fld.LNK_LANE_MARGIN mg.1).setFld r Fld.LNK_LANE_EYE_W mg.2.1).setFld r Fld.LNK_LANE_BER_LOG mg.2.2).setFlag r Fld.LNK_LANE_TESTED ok

/-- The lane passes: at most 1,000 errors over 10^9 bits at 3 dB below the class launch (R369). -/
def testPassed (x : LaneTest) : Bool := match x.errs with
  | e :: _ => decide (e ≤ 1000)
  | [] => false

/-- MARGIN in 0.1 dB, the last level that passed of at most 9 dB below the class launch; EYE_W and BER_LOG (R369). -/
def testFigures (x : LaneTest) : Nat × Nat × Nat :=
  let k := ((x.errs.take 13).takeWhile fun e => decide (e ≤ 1000)).length
  (if k = 0 then 0 else 25 + 5 * k, x.eyeW, x.berLog)

/-- A failing lane stays out of the stripe; without L16 in its place it is marked degraded (R369). -/
def State.laneFails (s : State) (i : Nat) (mg : Nat × Nat × Nat) : State :=
  let (n, m) := laneOf i
  let s1 := s.laneFigures i mg false
  s1.setFld (laneReg n m) Fld.LNK_LANE_STATE (if bitOf (s1.nextMap n) 16 && m ≠ 16 then 3 else 2)

/-- Rings of a cluster that calibration has brought to VERIFIED (R334). -/
def State.verifyRings (s : State) (c : Nat) (rs : List Nat) : State :=
  (s.each rs fun s r =>
    let x := s.ring c r
    if x.st == .verified then s
    else s.setRing c r { s.capture c r x.heater x with st := .verified, sweeping := false, matchedAt := some s.now }).clusterStat c

/-- Heater codes, HTR_MAX and trims act at the end of a full run (R413). -/
def State.takeHeaters (s : State) (c : Nat) (r : CalResult) : State :=
  let s0 := s.each r.htrMax fun s h => s.setRing c h.1 { s.ring c h.1 with htrMax := h.2 }
  let s1 := s0.each r.heaters fun s h => s.setRing c h.1 { s.ring c h.1 with heater := h.2 }
  match physOfCluster c with
  | some i => s1.setPhy i { s1.phy i with trims := r.trims.foldl (fun m t => tset 0 m t.1 t.2) (s1.phy i).trims }
  | none => s1

/-- An array of physical tile i retires, as a logical tile's or a spare's (R102). -/
def State.retirePhysArr (s : State) (i no : Nat) : State :=
  match s.logicalOf i with
  | some t => s.retireArr t i no
  | none => (s.setPhy i { s.phy i with arrays := tins no { tget {} (s.phy i).arrays no with retired := true, valid := false } (s.phy i).arrays }).keepRet i

/-- What a tile's run found worn: erratic columns retire at once, and arrays with a stuck service column, an erratic one or more stuck
cells than MAX_WORN do, the limit being that of a step in flight on the tile (R97, R100, R101, R104). -/
def State.takeWorn (s : State) (i : Nat) (r : CalResult) : State :=
  let cfg := match (s.stepsOn i).head? with
    | some l => s.asOf l
    | none => s
  let maxWorn := cfg.fld Reg.CAB_REPAIR_CFG Fld.CAB_REPAIR_CFG_MAX_WORN
  let count := fun a => (r.stuck.filter fun e => e.1 == a).length
  let bad := ((r.stuck.filter fun e => decide (32 ≤ e.2.2.1) || decide (maxWorn < count e.1)).map Prod.fst ++
    ((r.erratic.filter fun e => decide (32 ≤ e.2)).map Prod.fst)).eraseDups
  let s1 := s.each bad fun s a => s.retirePhysArr i a
  s1.each (r.erratic.filter fun e => decide (e.2 < 32) && !(bad.contains e.1)) fun s e =>
    if (tget {} (s.phy i).arrays e.1).retCols.contains e.2 then s
    else match s.logicalOf i with
      | some t => if s.roomForCol t i e.1 e.2 then s.retireCol i e.1 e.2 else s.decideRetire t 3
      | none => s.retireCol i e.1 e.2

/-- Figures of a tile's accepted run: residual error and time of each array (R417). -/
def State.tileFigures (s : State) (i : Nat) (r : CalResult) : State :=
  let x := s.phy i
  s.setPhy i { x with arrays := r.resid.foldl (fun m e =>
    tset {} m e.1 { tget {} m e.1 with residErr := e.2, calTime := s.time / 1000 }) x.arrays }

/-- Whether an object's last run was accepted, as the error bounds of its results ask (R86, R163). -/
def State.noteRun (s : State) (o : CalObj) (r : CalResult) (ok : Bool) : State :=
  match o with
  | .tile i =>
    let x := s.phy i
    s.setPhy i { x with arrays := r.resid.foldl (fun m e => tset {} m e.1 { tget {} m e.1 with accepted := ok }) x.arrays }
  | .cluster c _ => match physOfCluster c with
    | some i => s.setPhy i { s.phy i with lightOk := ok }
    | none => s
  | _ => s

/-- The placements on an object are all at their cairn. -/
def State.objIdle (s : State) (o : CalObj) : Bool :=
  match calPhys o with
  | some i => match s.logicalOf i with
    | some t => (s.placesOn t).all fun l => (s.place l).step.isNone
    | none => true
  | none => true

/-- A ramp begins, or the values take effect at once: during start-up, and on an object whose placements are all at their cairn
(R412, R551). -/
def State.bringIn (s : State) (o : CalObj) (r : CalResult) : State :=
  if s.objIdle o || !s.ready then s.rampAll o r
  else
    let rest := s.cal.ramps.filter fun x => calKey x.obj != calKey o
    { s with cal := { s.cal with ramps := rest ++ [{ obj := o, k := 0, res := r, startG := [], startO := [] }] } }

/-- What a run found of a tile's cells takes effect whatever its other values are: worn columns and arrays at once, the cell map at the next
cairn (R97, R411, R413). -/
def State.takeWear (s : State) (o : CalObj) (r : CalResult) : State :=
  match o with
  | .tile i =>
    let s1 := s.takeWorn i r
    if s1.objIdle o || !s1.ready then s1.takeCells i r.stuck else s1.setPhy i { s1.phy i with mapNext := some r.stuck }
  | _ => s

/-- The set that an accepted run leaves: a light run keeps the heater codes, window and trims of the last full one (R404). -/
def State.setOf (s : State) (o : CalObj) (b : Nat) (r : CalResult) : CalResult :=
  match o, s.calSet o b with
  | .cluster _ false, some x => { r with heaters := x.heaters, window := x.window, htrMax := x.htrMax, trims := x.trims }
  | _, _ => r

/-- An accepted run: its values go to the store, to flash where a KIND exists, and into effect (R412 to R415). -/
def State.acceptRun (s : State) (o : CalObj) (b : Nat) (r : CalResult) : State :=
  let rest := s.cal.measured.filter fun x => x != (calKey o, b)
  let s0 := { s with cal := { s.cal with runs := min (s.cal.runs + 1) (2 ^ 32 - 1), lastTime := s.time, measured := rest ++ [(calKey o, b)] } }
  let s1 := ((s0.putSet o b (s0.setOf o b r)).noteFlash o)
  match o with
  | .tile i => (s1.tileFigures i r).bringIn o r
  | .cluster c full =>
    let s2 := s1.when full fun s => s.takeHeaters c r
    (s2.when (full && r.verified) fun s => s.verifyRings c (List.range (clusterRings c))).bringIn o r
  | .lane i =>
    let c := portCluster (laneOf i).1
    let m := (laneOf i).2
    let s2 := (s1.laneFigures i r.margin true).noteFlash (.cluster c true)
    let s3 := s2.each r.setpoints fun s p => s.setRing c p.1 { s.ring c p.1 with setpoint := p.2 }
    let s4 := s3.takeHeaters c r
    let s5 := { s4 with cal := { s4.cal with laneTrim := r.trims.foldl (fun (m : Tbl Nat) (t : Nat × Nat) => tset 0 m (2 * i + t.1 % 2) t.2) s4.cal.laneTrim } }
    s5.when r.verified fun s => s.verifyRings c [2 * m, 2 * m + 1]
  | .laser n => s1.setLaser n { s1.laser n with table := lset (s1.laser n).table b r.bias }
  | .conv k => { s1 with cal := { s1.cal with conv := tset (0, 0) s1.cal.conv k r.conv } }

/-- A calibrated object lives on a quadrant's dies. -/
def objQuad (q : Nat) (o : CalObj) : Bool :=
  match o with
  | .tile i => i / 272 == q
  | .cluster c _ => c / 512 == q
  | .lane i => i / 17 / 6 == q
  | .laser n => n / 256 == q
  | .conv _ => false

/-- The object is measured in a start-up step: of the module, or of its quadrant's reset (R550, R551). -/
def State.startingUp (s : State) (o : CalObj) : Bool :=
  !s.ready || (List.range 4).any fun q => objQuad q o && bitOf (s.fld Reg.CLK_START Fld.CLK_START_QRST) q

/-- CAL_RUN_END: the results of a run are checked and brought in, rejected, or discarded when the band changed during the run; what a tile's
run found of its cells takes effect in either case (R410 to R413). -/
def execCalRunEnd (obj : CalObj) (res : CalResult) (at_ : Nat) (s : State) : Res :=
  let s := s.tick at_
  .next (
    match s.cal.running.find? fun x => calKey x.1 == calKey obj with
    | none => s
    | some (o, n, b) =>
      if !(s.startingUp o) && n < slicesOf o then s
      else
        let s1 := { s with cal := { s.cal with running := s.cal.running.filter fun x => calKey x.1 != calKey o } }
        let s2 :=
          if s1.calBand o ≠ b then
            ({ s1 with cal := { s1.cal with abandoned := min (s1.cal.abandoned + 1) (2 ^ 32 - 1) } }.calHold o).laneBack o
          else match o, res.berOk with
            | .lane i, false => s1.laneFails i res.margin
            | _, _ =>
              let ok := s1.plausible o b res
              let s3 := (s1.noteRun o res ok).takeWear o res
              if ok then (s3.acceptRun o b res).laneBack o
              else
                ((({ s3 with cal := { s3.cal with rejects := min (s3.cal.rejects + 1) (2 ^ 32 - 1) } }.calFault o).calHold o).laneBack o)
        (s2.calEnds o).startRuns)

/-- Number and 35-bit map of each array of a tile with a retirement (R415, KIND 2); bit 34 is the array. -/
def State.retMaps (s : State) (i : Nat) : List (Nat × Nat) :=
  ((s.phy i).arrays.filter fun a => a.2.retired || !a.2.retCols.isEmpty).map fun a =>
    (a.1, (a.2.retCols.map fun j => 2 ^ j).sum + if a.2.retired then 2 ^ 34 else 0)

/-- A result with nothing measured. -/
def bareResult : CalResult :=
  { gains := [], offsets := [], resid := [], stuck := [], erratic := [], rowGains := [], heaters := [], window := (0, 0), htrMax := [],
    setpoints := [], trims := [], berOk := true, margin := (0, 0, 0), bias := 0, conv := (0, 0), verified := false }

/-- What the record of an object and band holds (R415): a tile's retirements as pairs of array and map, heater codes and set points of a cluster, a lane's figures and trims, a converter's
offset and gain, a laser's table as pairs of band and bias. -/
def State.flashRecord (s : State) (o : CalObj) (b : Nat) : CalResult :=
  match o with
  | .tile i => { bareResult with gains := s.retMaps i }
  | .cluster c _ =>
    let rings := (List.range (clusterRings c)).map fun r => (r, s.ring c r)
    match s.calSet o b with
    | some x => { bareResult with heaters := x.heaters, setpoints := x.setpoints }
    | none => { bareResult with heaters := rings.map fun e => (e.1, e.2.heater), setpoints := rings.map fun e => (e.1, e.2.setpoint) }
  | .lane _ => match s.calSet o b with
    | some x => { bareResult with trims := x.trims, margin := x.margin }
    | none => bareResult
  | .laser n => { bareResult with gains := (List.range 4).zip (s.laser n).table }
  | .conv k => { bareResult with conv := tget (0, 0) s.cal.conv k }

/-- The records after a write of an object's: the new slot carries the next SEQ and takes the place of the older one; a failed write leaves it
with a wrong CRC (R415). -/
def writeRec (rs : List FlashRec) (o : CalObj) (band : Nat) (v : Option CalResult) : List FlashRec :=
  let same := fun (x : FlashRec) => calKey x.obj == calKey o && x.band == band
  let old := match rs.find? same with
    | some x => x.slots
    | none => []
  let seq := (old.head?.map fun x => x.1 + 1).getD 0
  rs.filter (fun x => !(same x)) ++ [⟨o, band, (seq, v) :: old.take 1⟩]

/-- What a record gives at power-up: the slot with a correct CRC and the higher SEQ (R415). -/
def FlashRec.content (x : FlashRec) : Option CalResult := x.slots.findSome? fun y => y.2

/-- Band that an object's record is filed under: a tile and a laser have one record (R415). -/
def recBand (o : CalObj) (b : Nat) : Nat :=
  match o with
  | .tile _ | .laser _ => 0
  | _ => b

/-- CAL_FLASH_RECORD: the flash arbiter grants the record of an object; a failed write leaves the values in force and is logged
(R415, R470). -/
def execCalFlashRecord (obj : CalObj) (ok : Bool) (s : State) : Res :=
  .next (
    match s.cal.toFlash.find? fun x => calKey x.1 == calKey obj with
    | none => s
    | some (o, b) =>
      if !(s.flashMay 1) then s
      else
        let s0 := s.flashDone 1
        let v := if ok then some (s0.flashRecord o b) else none
        let s1 := { s0 with
          cal := { s0.cal with toFlash := s0.cal.toFlash.filter fun x => !(calKey x.1 == calKey o && x.2 == b) }
          flash := { s0.flash with calRecs := writeRec s0.flash.calRecs o (recBand o b) v } }
        if ok then s1 else s1.calFault o)

/-! ## Commands (R416, R417) -/

/-- Objects that a CAL_RUN names (R416). -/
def State.calScope (s : State) (scope index : Nat) : List CalObj :=
  match scope with
  | 0 => ((s.physOf index).toList).map CalObj.tile
  | 1 => calParts (.cluster index true)
  | 2 => [.lane index]
  | 3 => [.conv index]
  | _ => s.allObjects

/-- INDEX lies in the range of SCOPE. -/
def scopeOk (scope index : Nat) : Bool :=
  match scope with
  | 0 => index < 1024
  | 1 => clusterOk index
  | 2 => index < 408
  | 3 => index < 12
  | _ => index == 0

/-- CAL_RUN as CP starts it. -/
def State.svcCalRun (s : State) (h : Hdr) (scope byte1 : BitVec 8) (index : BitVec 16) (rsv : BitVec 32) : State :=
  let os := s.calScope scope.toNat index.toNat
  let can := os.filter fun o => match o with
    | .lane i => s.portSt (i / 17) == 2 || s.inRun o
    | _ => true
  s.checked h 0x50
    [chkForm (decide (scope.toNat ≤ 4)) 0, chkForm (byte1 == 0) 1, chkForm (scopeOk scope.toNat index.toNat) 2, chkForm (rsv == 0) 4,
     chkSt (!can.isEmpty) stNoResource, chkSt (can.any fun o => !(s.inRun o)) stDeferred] fun s =>
    s.startLong h (.calRun scope byte1 index rsv) can.length fun o s =>
      let s1 := s.setLong { o with wait := can.map fun x => calKey x + if s.inRun x then 65536 else 0 }
      (s1.each can fun s x => s.calHold x).startRuns

/-- The share of a layer that tile t runs for a placement: its copy in tile SRAM, or what the stacks hold of a streamed layer. -/
def State.shareData (s : State) (t l layer expert : Nat) (m : Model) (y : Layer) (sh : Share) : Option ShareCopy :=
  match s.copyOf t l layer expert m.gen with
  | some c => some c
  | none => match s.readShare l layer expert m.gen m y sh with
    | .inl c => some c
    | .inr _ => none

/-- The entries that retired columns add to a share's table (R120, R123). -/
def State.addedEntries (s : State) (i t l pslot layer : Nat) (m : Model) (y : Layer) (sh : Share) : List WOut :=
  (goneOf (s.phy i).arrays pslot layer (m.gen % 16)).flatMap fun g =>
    let c := g.1 % sh.chunks
    let n := c / sh.nb * 32 + g.2
    let b := c % sh.nb
    match s.shareData t l layer (g.1 / sh.chunks) m y sh with
    | some cp =>
      if sh.nCount ≤ n then []
      else
        let (ew, codes) := cp.block y sh n b
        ((List.range 32).filter fun r => 32 * b + r < sh.kCount).map fun r => (32 * b + r, n, codes.getD r 0, ew)
    | none => []

/-- The outlier table of a share as retired columns extend it: its length and its entries, in order of row and column (R120, R123). -/
def State.extendedTable (s : State) (i t l pslot layer : Nat) (m : Model) (y : Layer) (sh : Share) : List Byte :=
  let image := match s.shareData t l layer 0 m y sh with
    | some cp => cp.woutTable sh
    | none => []
  let all := sortBy (fun (p q : WOut) => decide (p.1 < q.1 ∨ p.1 = q.1 ∧ p.2.1 < q.2.1)) (image ++ s.addedEntries i t l pslot layer m y sh)
  leBytes 4 all.length ++ all.flatMap fun e =>
    leBytes 2 e.1 ++ leBytes 2 e.2.1 ++ leBytes 1 (unsigned 8 e.2.2.1) ++ leBytes 1 e.2.2.2 ++ leBytes 2 0

/-- One array record of WHAT 1. -/
def State.arrRecord (s : State) (i a : Nat) : List Byte :=
  let x := tget {} (s.phy i).arrays a
  leBytes 2 (min x.residErr 65535) ++ leBytes 1 (min x.stuck.length 255) ++
    leBytes 1 (b2n x.retired + 2 * b2n x.clamp + 4 * b2n (s.cal.held.contains (.tile i))) ++
    leBytes 5 ((x.retCols.map fun j => 2 ^ j).sum) ++ leBytes 1 (tget 0 s.cal.setBand (calKey (.tile i))) ++ leBytes 2 0 ++
    leBytes 4 (x.calTime % 2 ^ 32)

/-- A digit as its 3-bit cell code (R66). -/
def cellCode (d : Int) : Nat := if d < 0 then 4 + (-d).toNat else d.toNat

/-- The per-array coefficients of WHAT 3. -/
def State.coefRecord (s : State) (i a : Nat) : List Byte :=
  let x := tget {} (s.phy i).arrays a
  leBytes 4 (fRound x.h).toNat ++ ((List.range 34).flatMap fun j => leBytes 2 (tget 0x8000 x.g j) ++ leBytes 1 (unsigned 8 (tget 0 x.o j))) ++
    leBytes 6 0

/-- Code of a ring's state (R326, R417). -/
def ringCode : RingSt → Nat
  | .unlocked => 0
  | .acquiring => 1
  | .locked => 2
  | .verified => 3
  | .failed => 4

/-- Content that CAL_QUERY returns (R417). -/
def State.calRecord (s : State) (what index : Nat) : List Byte :=
  let c := s.cal
  let i := (s.physOf index).getD 0
  match what with
  | 0 => leBytes 4 c.runs ++ leBytes 4 c.rejects ++ leBytes 4 c.held.length ++ leBytes 4 c.abandoned ++ leBytes 8 c.lastTime ++ leBytes 40 0
  | 1 => (List.range 512).flatMap (s.arrRecord i)
  | 2 => (s.phy i).arrays.flatMap fun a => a.2.stuck.flatMap fun e =>
      leBytes 4 (a.1 + e.1 / 64 * 2 ^ 9 + e.1 % 64 * 2 ^ 14 + cellCode e.2 * 2 ^ 20)
  | 3 => (List.range 512).flatMap (s.coefRecord i)
  | 4 =>
    let at_ := fun l => ((s.place l).pslot.find? fun e => e.1 == index).map Prod.snd
    let ls := sortBy (fun p q => decide (p.1 < q.1)) ((s.placesOn index).filterMap fun l => (at_ l).map fun k => (k, l))
    ls.flatMap fun x =>
      let m := s.model (s.place x.2).cfg.model
      ((List.range m.img.layers.length).flatMap fun y => match s.shareOf x.2 index y with
        | some (m1, ly, sh, _) => leBytes 1 x.1 ++ leBytes 2 y ++ leBytes 1 0 ++ s.extendedTable i index x.2 x.1 y m1 ly sh
        | none => [])
  | 5 => (List.range 8).flatMap fun r =>
      leBytes 2 (tget 0x1000 (s.phy i).rowGains (2 * r)) ++ leBytes 2 (tget 0x1000 (s.phy i).rowGains (2 * r + 1)) ++
        leBytes 2 (tget 0 (s.phy i).trims r) ++ leBytes 2 0
  | 6 => (List.range (clusterRings index)).flatMap fun r =>
      let x := s.ring index r
      leBytes 8 (x.heater % 65536 + x.setpoint % 65536 * 2 ^ 16 + min 1023 x.quality * 2 ^ 32 + ringCode x.st * 2 ^ 42)
  | 7 => leBytes 8 (s.reg (Reg.LNK_LANE index)).toNat ++ leBytes 2 (tget 0 c.laneTrim (2 * index)) ++
      leBytes 2 (tget 0 c.laneTrim (2 * index + 1)) ++ leBytes 4 0
  | 8 =>
    let v := tget (0, 0) c.conv index
    leBytes 4 (unsigned 32 v.1) ++ leBytes 4 (unsigned 32 v.2) ++ leBytes 1 (bitsOf s.hkc.cfgNow 17 2) ++ leBytes 7 0
  | _ => (List.range 4).flatMap (fun b => leBytes 2 ((s.laser index).table.getD b 0)) ++
      leBytes 2 (s.fld (Reg.LAS_BIAS index) Fld.LAS_BIAS_COMM) ++ leBytes 6 0

/-- INDEX lies in the range of WHAT. -/
def whatOk (what index : Nat) : Bool :=
  match what with
  | 0 => index == 0
  | 6 => clusterOk index
  | 7 => index < 408
  | 8 => index < 12
  | 9 => laserOk index
  | _ => index < 1024

/-- CAL_QUERY as CP serves it. -/
def State.svcCalQuery (s : State) (h : Hdr) (what byte1 : BitVec 8) (index : BitVec 16) (rsv : BitVec 32) (destVa : BitVec 64)
    (bytes rsv20 : BitVec 32) : State :=
  let w := what.toNat
  let i := index.toNat
  let tileKind := decide (1 ≤ w ∧ w ≤ 5)
  let b := (s.calRecord w i).take bytes.toNat
  s.checked h 0x51
    [chkForm (decide (w ≤ 9)) 0, chkForm (byte1 == 0) 1, chkForm (whatOk w i) 2,
     if h.fn = 0 then .pass else if tileKind then chkId ((s.tileOwners i).contains h.fn) i else chkId false 0x51,
     chkForm (rsv == 0) 4, s.chkVa h.fn destVa.toNat b.length, chkForm (rsv20 == 0) 20,
     chkSt (!tileKind || (s.physOf i).isSome) stNoResource] fun s =>
    match s.wrVa h.fn destVa.toNat b with
    | .inl s1 => s1.reply h 0x51 stOK b.length 0
    | .inr _ => s

end Sys2Proof.Machine
end

