-- ==== Sys2Proof/Machine/Fabric.lean ====
section
/-! DEFINITION. The fabric: frames, messages, requests and their answers, probes, time records, training, FABRIC_JOIN and LINK_QUERY
(R356 to R381, R545). -/

namespace Sys2Proof.Machine

/-! ## Messages that arrive (R361 to R364, R372) -/

/-- The operation needs a RESP (R364). -/
def needsResp (op : Nat) : Bool := op == 1 || op == 2 || op == 3 || op == 4 || op == 7

/-- A received message is well formed: an assigned operation on its channel, and reserved bits 0. -/
def msgOk (m : FMsg) : Bool :=
  1 ≤ m.op % 16 && m.op % 16 ≤ 7 && m.op / 16 % 4 == opChannel (m.op % 16) && m.op / 64 == 0 && m.part / 64 == 0 &&
    decide (m.offset < 2 ^ 44) && m.payload.length ≤ 32768

/-- Receive buffer space of a message is free again (R362). -/
def State.giveCredits (s : State) (n : Nat) (m : FMsg) : State :=
  let x := s.port n
  let ch := m.op / 16 % 4
  s.setPort n { x with returned := lset x.returned ch (x.returned.getD ch 0 + creditsOf m) }

/-- A message completed by a frame: discarded, answered as not for this module, or kept for the command that acts on it. -/
def State.deliverMsg (s : State) (n : Nat) (m : FMsg) : State :=
  if !(msgOk m) then (s.bump (Reg.LNK_PORT_CNT n) Fld.LNK_PORT_CNT_BAD_MSG).giveCredits n m
  else if m.dest ≠ s.myId then
    (if needsResp (m.op % 16) then s.respond n m stViolation else s).giveCredits n m
  else if m.op % 16 = 6 then s.giveCredits n m
  else s.setPort n { s.port n with rxMsgs := (s.port n).rxMsgs ++ [m] }

/-- A command acts on a message that port n has received. -/
def State.onMsg (s : State) (n : Nat) (m : FMsg) (op : Nat) (f : State → State) : State :=
  if m.op % 16 = op && (s.port n).rxMsgs.contains m then
    f ((s.setPort n { s.port n with rxMsgs := (s.port n).rxMsgs.erase m }).giveCredits n m)
  else s

/-- A message refused for its rights (R374): RESP VIOLATION and an entry in PART's log. -/
def State.refuseMsg (s : State) (n : Nat) (m : FMsg) : State :=
  (s.violate (m.part % 64) m.offset 4 true false).respond n m stViolation

/-! ## FRAME_RECEIVED (R357, R358, R362, R365, R368) -/

/-- The first frame not acknowledged by an ACK, counted as this end counts its frames: the latest with the 32-bit number after ACK that is not
beyond the frame in hand (R358). -/
def State.ackedUpTo (s : State) (n ack : Nat) : Nat :=
  let k := s.frameNo n
  k - unsigned 32 ((k : Int) - (ack + 1))

/-- The header of a frame that is taken: acknowledgement, credits, a NAK, a new stripe. -/
def State.takeHeader (s : State) (n : Nat) (f : Frame) : State :=
  let x := s.port n
  let cr := (List.range 4).map fun v => x.credits.getD v 0 + f.credit.getD v 0
  let news := x.rxSeq ≠ f.mapSeq.toNat
  let s1 := s.setPort n { x with
    rxNext := (f.fseq.toNat + 1) % 2 ^ 32, nak := none, ackSeen := s.ackedUpTo n f.ack.toNat, credits := cr,
    rxSeq := f.mapSeq.toNat, rxMapNext := if news then some (f.fseq.toNat + 16, f.laneMap.toNat) else x.rxMapNext }
  let s2 := if s1.sends n then State.txLoop n x.txWait.length s1 else s1
  match f.nak with
  | none => s2
  | some k =>
    let held := unsigned 32 ((s2.frameNo n : Int) - k.toNat) ≤ 6 || s2.prot n
    s2.bump (Reg.LNK_PORT_CNT n) (if held then Fld.LNK_PORT_CNT_REPLAY else Fld.LNK_PORT_CNT_LOST)

/-- Chains whose forwarding waited for credits go on (R264). -/
def State.chainsGoOn (s : State) : State := s.each s.fabric.chains fun s c => State.takeChunks c.op (c.buf.length + 1) s

/-- FRAME_RECEIVED on an UP port: a failed frame is asked for again; a frame in order is taken and delivers its messages; others are
discarded until the replay arrives. -/
def execFrameReceived (n : Nat) (f : Frame) (at_ : Nat) (s : State) : Res :=
  let s := s.tick at_
  onObject (decide (n < 24))
    (let x := s.port n
     if s.portSt n ≠ 2 then s
     else if !f.ok then
       (s.setPort n { x with nak := some x.rxNext }).bump (Reg.LNK_PORT_CNT n) Fld.LNK_PORT_CNT_FRAME_FAIL
     else
       let ahead := unsigned 32 ((f.fseq.toNat : Int) - x.rxNext)
       let skip := 0 < ahead && ahead < 2 ^ 31
       let s1 := if skip then s.useFree else s
       if ahead = 0 || (skip && Config.skipsLostFrame s.free) then
         ((s1.takeHeader n f).each f.msgs fun s m => s.deliverMsg n m).chainsGoOn
       else s1)

/-! ## Requests (R367, R378) -/

/-- The request with a tag that waits for its RESP. -/
def State.reqOf (s : State) (tag : Nat) : Option Req := s.fabric.reqs.find? fun r => r.msg.tag == tag

/-- A request's record replaced. -/
def State.setReq (s : State) (r : Req) : State :=
  { s with fabric := { s.fabric with reqs := s.fabric.reqs.map fun x => if x.msg.tag = r.msg.tag then r else x } }

/-- A request's record dropped. -/
def State.dropReq (s : State) (tag : Nat) : State :=
  { s with fabric := { s.fabric with reqs := s.fabric.reqs.filter fun x => x.msg.tag != tag } }

/-- A request sent again. -/
def State.resend (s : State) (r : Req) : State :=
  let n := (s.route r.msg).getD r.port
  (s.setReq { r with sentAt := s.now, port := n, deferred := false }).sendMsg r.msg

/-- REQUEST_TIMEOUT: a request with no RESP within REQ_TIMEOUT is sent again, up to 3 times; then its module is lost (R367). -/
def execRequestTimeout (tag at_ : Nat) (s : State) : Res :=
  let s := s.tick at_
  .next (match s.reqOf tag with
    | none => s
    | some r =>
      if r.deferred || s.now < r.sentAt + 1000 * max 1 (s.fld Reg.LNK_CFG Fld.LNK_CFG_REQ_TIMEOUT) then s
      else if r.resends < 3 then
        ((s.resend { r with resends := r.resends + 1 }).bump (Reg.LNK_PORT_CNT ((s.route r.msg).getD r.port % 24)) Fld.LNK_PORT_CNT_RESEND)
      else (s.dropReq tag).moduleLost r.msg.dest)

/-- RELAY_RESEND: a RELAY answered DEFERRED is sent again after 10 us (R378). -/
def execRelayResend (tag at_ : Nat) (s : State) : Res :=
  let s := s.tick at_
  .next (match s.reqOf tag with
    | none => s
    | some r => if r.deferred && decide (r.sentAt + 10000 ≤ s.now) then s.resend r else s)

/-! ## RELAY and CHAIN (R264, R374, R377, R378) -/

/-- SRC is named in the slice of a placement of partition p. -/
def State.slicePeer (s : State) (p m : Nat) : Bool := s.present.any fun l => (s.place l).part == p && (sliceMods (s.place l).slice).contains m

/-- A record of a context that works as one shard of a model: kept in OWN_RING until its position comes. -/
def State.takeRecord (s : State) (n : Nat) (m : FMsg) : State :=
  let p := m.part % 64
  let i := sliceNum m.payload 0 4 % 2 ^ 22
  let pos := sliceNum m.payload 4 4
  let c := s.ctx i
  let l := c.placement
  let x := s.place l
  let im := s.imgOf c
  let first := im.shardIdx = 0
  let kept := s.fabric.relayed.any (fun r => r == (l, i, pos)) || s.fabric.tokens.any fun r => r.1 == l && r.2.1 == i && r.2.2.1 == pos
  if m.payload.length < 16 || c.st != .active || c.part ≠ p then
    (s.bump (Reg.LNK_PORT_CNT 0) Fld.LNK_PORT_CNT_RELAY_DROP).respond n m stOK
  else if pos < c.pos || kept || (first && pos = c.pos && c.pvalid) then s.respond n m stOK
  else if sliceSlots x.slice ≤ ((s.fabric.relayed.filter fun r => r.1 == l).length + (s.fabric.tokens.filter fun r => r.1 == l).length) then
    s.respond n m stDeferred
  else
    let was := s.isReady i
    let s1 := s.wrMem p m.offset m.payload
    let s2 := if sliceNum m.payload 8 1 = 1 then
        { s1 with fabric := { s1.fabric with tokens := s1.fabric.tokens ++ [(l, i, pos, sliceNum m.payload 16 4 % 2 ^ 18)] } }.takeToken i
      else { s1 with fabric := { s1.fabric with relayed := s1.fabric.relayed ++ [(l, i, pos)] } }
    (s2.freshReady i was).respond n m stOK

/-- RELAY: a record is written at a physical address of partition PART when all of it lies in the partition's windows and SRC is in the
slice of a placement of PART. -/
def execRelay (n : Nat) (m : FMsg) (s : State) : Res :=
  onObject (decide (n < 24))
    (s.onMsg n m 1 fun s =>
      let p := m.part % 64
      if inside (s.windows p) m.offset m.payload.length && s.slicePeer p m.src then s.takeRecord n m else s.refuseMsg n m)

/-- Half a chunk of an opened chain is kept; the credits of a chunk that has come whole and cannot be taken yet stay with it, others go back at
once (R264, R276). -/
def State.takeHalf (s : State) (n : Nat) (m : FMsg) (c : Chain) : State :=
  let s1 := s.setChain { c with buf := c.buf ++ [(m.offset, m.payload.take (c.total - m.offset))], got := m.offset :: c.got,
                                owed := c.owed ++ [(n, creditsOf m)] }
  let s2 := State.takeChunks c.op (c.buf.length + 1) (s1.respond n m stOK)
  match s2.chainOf c.op with
  | some d => if d.whole then s2 else (s2.payCredits d).setChain { d with owed := [] }
  | none => s2

/-- CHAIN: half a chunk from the previous member of an accepted chain; a duplicate is answered OK. -/
def execChain (n : Nat) (m : FMsg) (s : State) : Res :=
  onObject (decide (n < 24))
    (if m.op % 16 = 2 && (s.port n).rxMsgs.contains m then
       let s1 := s.setPort n { s.port n with rxMsgs := (s.port n).rxMsgs.erase m }
       match s1.fabric.chains.find? fun c => c.opened && c.head != s1.myId && c.prev == m.src with
       | none => (s1.giveCredits n m).refuseMsg n m
       | some c =>
         if m.offset % 32768 ≠ 0 || c.total ≤ m.offset then (s1.giveCredits n m).refuseMsg n m
         else if m.offset < c.sentTo || c.buf.any (fun b => b.1 == m.offset) then (s1.giveCredits n m).respond n m stOK
         else s1.takeHalf n m c
     else s)

/-! ## PROBE (R379) -/

/-- PROBE: answered OK. -/
def execProbe (n : Nat) (m : FMsg) (s : State) : Res :=
  onObject (decide (n < 24)) (s.onMsg n m 4 fun s => s.respond n m stOK)

/-- PROBE_SEND: every 100 us to every module named in a valid slice. -/
def execProbeSend (at_ : Nat) (s : State) : Res :=
  let s := s.tick at_
  .next (
    if s.fabric.probeSent ≠ 0 && s.now < s.fabric.probeSent + 100000 then s
    else
      let s1 := { s with fabric := { s.fabric with probeSent := s.now } }
      s1.each s1.namedModules fun s k =>
        let seen := tget 0 s.fabric.probeAt k
        let s2 := if seen = 0 then { s with fabric := { s.fabric with probeAt := tset 0 s.fabric.probeAt k (s.now + 1) } } else s
        s2.request k 4 0 0 [] none)

/-- PROBE_LOSS: no PROBE to a module has been answered for PROBE_LOSS: it is lost. -/
def execProbeLoss (module at_ : Nat) (s : State) : Res :=
  let s := s.tick at_
  .next (
    let seen := tget 0 s.fabric.probeAt module
    if seen ≠ 0 && !(s.fabric.lost.contains module) && seen - 1 + 100000 * max 1 (s.fld Reg.LNK_CFG Fld.LNK_CFG_PROBE_LOSS) ≤ s.now then
      s.moduleLost module
    else s)

/-! ## Time records (R545) -/

/-- A message sent on one port as a request. -/
def State.requestOn (s : State) (n op : Nat) (payload : List Byte) : State :=
  let m : FMsg := ⟨s.farId n, s.myId, op + opChannel op * 16, 0, 0, s.fabric.nextTag % 65536, payload⟩
  let r : Req := { msg := m, port := n, sentAt := s.now }
  { s with fabric := { s.fabric with nextTag := (s.fabric.nextTag + 1) % 65536, reqs := s.fabric.reqs ++ [r] } }.transmit n m

/-- Kind of a time record's MGMT payload (log entry 13). -/
def mgTime : Nat := 6

/-- TIME_RECORD_SEND: every 1 ms, on every UP port, the module time. -/
def execTimeRecordSend (at_ : Nat) (s : State) : Res :=
  let s := s.tick at_
  .next (
    if s.fabric.timeSent ≠ 0 && s.now < s.fabric.timeSent + 1000000 then s
    else
      let s1 := { s with fabric := { s.fabric with timeSent := s.now } }
      s1.each ((List.range 24).filter fun n => s1.portSt n == 2) fun s n => s.requestOn n 7 (leBytes 1 mgTime ++ leBytes 7 0 ++ leBytes 8 s.time))

/-- TIME_RECORD from the followed port: the first since the port came UP, taken before READY, sets module time; every other slews it by at
most 100 ns. -/
def execTimeRecord (n received : Nat) (s : State) : Res :=
  onObject (decide (n < 24))
    (if s.portSt n ≠ 2 || s.fld Reg.CLK_TSYNC Fld.CLK_TSYNC_SRC_PORT ≠ n then s
     else
       let far := received + s.fld (Reg.LNK_PORT_STAT n) Fld.LNK_PORT_STAT_DELAY / 100
       let off : Int := (far : Int) - s.time
       let first := !(s.port n).firstTime && !s.ready
       let moved : Int := if first then off else max (-100) (min 100 off)
       let s1 := { s.setPort n { s.port n with firstTime := true } with time := ((s.time : Int) + moved).toNat }
       let r := Reg.CLK_TSYNC
       ((s1.setFld r Fld.CLK_TSYNC_OFFSET (unsigned 16 (max (-32767) (min 32767 off)))).setFlag r Fld.CLK_TSYNC_LOCKED
         (decide (-20 ≤ off ∧ off ≤ 20))).setFlag r Fld.CLK_TSYNC_FAR (decide (off < -1000000 ∨ 1000000 < off)))

/-! ## Ports that train (R359, R360, R369, R371, R375, R379, R396) -/

/-- Port n begins to train with the CLASS set now (R359). -/
def State.trainPort (s : State) (n : Nat) : State :=
  let was := s.portSt n
  let s1 := s.portOff n 1
  if was = 2 then s1.afterLoss n else s1

/-- FRAME_ALIGNMENT_LOSS: an UP port's receiver has lost alignment for 1 us. -/
def execFrameAlignmentLoss (n at_ : Nat) (s : State) : Res :=
  let s := s.tick at_
  onObject (decide (n < 24)) (if s.portSt n = 2 then s.portDown n 3 else s)

/-- PORT_RETRAIN: a DOWN port trains again every 10 ms while EN is 1. -/
def execPortRetrain (n at_ : Nat) (s : State) : Res :=
  let s := s.tick at_
  onObject (decide (n < 24))
    (if s.portSt n = 3 && s.flag (Reg.LNK_PORT_CFG n) Fld.LNK_PORT_CFG_EN && (s.port n).downAt + 10000000 ≤ s.now then s.trainPort n else s)

/-- A field of another module's LNK.COORD. -/
def coordFld (w : Word64) (f : Field) : Nat := getBits w f.lo f.w

/-- The far end lies on this module's board. -/
def State.sameBoard (s : State) (w : Word64) : Bool :=
  let me := s.reg Reg.LNK_COORD
  coordFld w Fld.LNK_COORD_POD == coordFld me Fld.LNK_COORD_POD && coordFld w Fld.LNK_COORD_RACK == coordFld me Fld.LNK_COORD_RACK &&
    coordFld w Fld.LNK_COORD_BOARD == coordFld me Fld.LNK_COORD_BOARD

/-- A port trained onto a far end is miswired (R371). -/
def State.miswired (s : State) (n : Nat) (w : Word64) : Bool :=
  match s.portRole n with
  | 1 => !(s.sameBoard w) || coordFld w Fld.LNK_COORD_SLOT != s.fld (Reg.LNK_PORT_CFG n) Fld.LNK_PORT_CFG_PEER_SLOT
  | 3 => !(s.sameBoard w)
  | _ => false

/-- Figures of the lanes of port n that were tested. -/
def State.testLanes (s : State) (n : Nat) (ts : List LaneTest) : State :=
  s.each ts fun s g => s.laneFigures (17 * n + g.lane) (testFigures g) (testPassed g)

/-- The stripe that port n starts with: L0 to L15 as far as they passed, L16 in place of one that did not (R368, R369). -/
def State.firstMap (s : State) (n : Nat) : Nat :=
  let good := fun m => s.laneLit n m && s.flag (laneReg n m) Fld.LNK_LANE_TESTED
  let main := ((List.range 16).filter good)
  (main.map fun m => 2 ^ m).sum + if main.length < 16 && good 16 then 2 ^ 16 else 0

/-- Lanes of port n that failed their test: degraded unless L16 takes the place (R369). -/
def State.markFailed (s : State) (n map : Nat) : State :=
  s.each ((List.range 17).filter fun m => !(bitOf map m) && !(s.flag (laneReg n m) Fld.LNK_LANE_TESTED)) fun s m =>
    s.setFld (laneReg n m) Fld.LNK_LANE_STATE (if bitOf map 16 || m = 16 then 3 else 2)

/-- Port n comes UP. -/
def State.portUp (s : State) (n : Nat) (far : Word64) (map : Nat) : State :=
  let r := Reg.LNK_PORT_STAT n
  let id := coordFld far Fld.LNK_COORD_MODULE_ID
  let s1 := (((s.setFld r Fld.LNK_PORT_STAT_STATE 2).setFld r Fld.LNK_PORT_STAT_LANES (laneCount map)).setFlag r Fld.LNK_PORT_STAT_SPARE_USED
    (bitOf map 16)).setFld r Fld.LNK_PORT_STAT_FAR_ID id
  let s2 := (s1.setPort n { upAt := s1.now, laneMap := map, rxMap := map, farCoord := far }).markLanes n map
  let s3 := { s2 with fabric := { s2.fabric with lost := s2.fabric.lost.filter (· != id) } }
  if s3.portRole n = 3 then s3.undegrade 1 else s3

/-- FABRIC_JOINs in progress learn that a port's training has ended (R375). -/
def State.joinEnds (s : State) (n : Nat) : State :=
  s.each s.longOps fun s o => match o.pkt with
    | .fabricJoin .. =>
      if o.wait.contains n then
        let w := o.wait.filter (· != n)
        let s1 := s.advanceLong { o with wait := w } (o.done + 1)
        match w, s1.longOf o.id with
        | [], some o1 => s1.endLong o1 stOK 0 0
        | _, _ => s1
      else s
    | _ => s

/-- The end of a training. -/
def State.trainEnds (s : State) (n : Nat) (res : TrainEnd) : State :=
  let r := Reg.LNK_PORT_STAT n
  match res with
  | .failed => (s.setFld r Fld.LNK_PORT_STAT_STATE 3).setPort n { s.port n with downAt := s.now }
  | .absent => s.setFld r Fld.LNK_PORT_STAT_STATE 6
  | .aligned far delay tests =>
    let lim := if s.fld (Reg.LNK_PORT_CFG n) Fld.LNK_PORT_CFG_CLASS = 0 then 500 else 5000
    let s1 := (s.setFld r Fld.LNK_PORT_STAT_DELAY (min delay 65535)).testLanes n tests
    if lim < delay then s1.setFld r Fld.LNK_PORT_STAT_STATE 5
    else if s1.miswired n far then s1.setFld r Fld.LNK_PORT_STAT_STATE 4
    else
      let map := s1.firstMap n
      let s2 := s1.markFailed n map
      if laneCount map < s2.minLanes then (s2.setFld r Fld.LNK_PORT_STAT_STATE 3).setPort n { s2.port n with downAt := s2.now }
      else s2.portUp n far map

/-- TRAINING_COMPLETE: a training port is UP, or DOWN, MISWIRE, REACH or ABSENT. -/
def execTrainingComplete (n : Nat) (res : TrainEnd) (at_ : Nat) (s : State) : Res :=
  let s := s.tick at_
  onObject (decide (n < 24)) (if s.portSt n ≠ 1 then s else (s.trainEnds n res).joinEnds n)

/-- FABRIC_JOIN as FMP starts it (R375). -/
def State.svcFabricJoin (s : State) (h : Hdr) (mask : BitVec 24) (rsv : BitVec 40) : State :=
  s.checked h 0x62 [chkForm (rsv == 0) 3, chkSt (s.flag Reg.LNK_COORD Fld.LNK_COORD_VALID) stDeferred] fun s =>
    let named := (List.range 24).filter fun n => bitOf mask.toNat n
    let down := named.filter fun n => s.portSt n != 2
    s.startLong h (.fabricJoin mask rsv) (max 1 down.length) fun o s =>
      let s1 := s.each named fun s n => s.setFlag (Reg.LNK_PORT_CFG n) Fld.LNK_PORT_CFG_EN true
      let s2 := s1.each down fun s n => s.trainPort n
      if down.isEmpty then s2.endLong o stOK 0 0 else s2.setLong { o with wait := down }

/-- LINK_QUERY as FMP serves it (R375). -/
def State.svcLinkQuery (s : State) (h : Hdr) (port : BitVec 8) (rsv : BitVec 56) (destVa : BitVec 64) : State :=
  let n := port.toNat
  s.checked h 0x63 [chkForm (decide (n < 24)) 0, chkForm (rsv == 0) 1, s.chkVa h.fn destVa.toNat 160] fun s =>
    let b := ([Reg.LNK_PORT_CFG n, Reg.LNK_PORT_STAT n, Reg.LNK_PORT_CNT n] ++ (List.range 17).map (laneReg n)).flatMap fun r => leBytes 8 (s.reg r).toNat
    match s.wrVa h.fn destVa.toNat b with
    | .inl s1 => s1.reply h 0x63 stOK 160 0
    | .inr _ => s

end Sys2Proof.Machine
end

