-- ==== Sys2Proof/Machine/Twin.lean ====
section
/-! DEFINITION. The twin: pairing, the journal, acknowledgements, heartbeats, takeover; and the answers and management messages of the
fabric (R263 to R265, R364, R382 to R391). -/

namespace Sys2Proof.Machine

/-! ## Journal records read (R385) -/

/-- Bytes of a record's body, by KIND and NTOK; none for a KIND that does not exist. -/
def bodyLen (kind ntok : Nat) : Option Nat :=
  match kind with
  | 1 => some 48
  | 2 => some (ceilDiv (4 * ntok + 4) 16 * 16)
  | 3 => some 16
  | 4 => some 0
  | _ => none

/-- The records of a JOURNAL payload, in order. -/
def parseRecs : Nat → List Byte → List JRec
  | 0, _ => []
  | f + 1, b =>
    match if b.length < 16 then none else bodyLen (sliceNum b 0 1) (sliceNum b 1 1) with
    | none => []
    | some n =>
      { kind := sliceNum b 0 1, ntok := sliceNum b 1 1, place := sliceNum b 2 2, ctx := sliceNum b 4 4 % 2 ^ 22,
        pos := sliceNum b 8 4 % 2 ^ 21, gen := sliceNum b 12 4, body := (b.drop 16).take n } :: parseRecs f (b.drop (16 + n))

/-- The records of a payload. -/
def recsOf (b : List Byte) : List JRec := parseRecs (b.length / 16 + 1) b

/-- Tokens of a HIST record with their positions. -/
def JRec.tokens (r : JRec) : List (Nat × Nat) := (List.range r.ntok).map fun k => (r.pos + k, sliceNum r.body (4 * k) 4 % 2 ^ 18)

/-- EMITTED of a HIST record. -/
def JRec.emitted (r : JRec) : Bool := bitOf (sliceNum r.body (4 * r.ntok) 4) 16

/-! ## The state of the pair (R382, R383, R387, R390) -/

/-- The module the twin is paired, or pairs, with. -/
def State.peer (s : State) : Nat := s.fld Reg.TWN_STAT Fld.TWN_STAT_PEER

/-- Completions whose records are acknowledged are written. -/
def State.releaseAcked (s : State) : State :=
  let w := s.twin
  { s with twin := { w with heldOut := w.heldOut.filter fun (h : Nat × Nat × Out) => w.acked < h.1 } }.each (w.heldOut.filter fun (h : Nat × Nat × Out) => h.1 ≤ w.acked) fun s h =>
    s.post (h.2.1 / 32) (h.2.1 % 32) h.2.2

/-- Open contexts of replicated placements, not journaled. -/
def State.orphans (s : State) : Nat :=
  (s.ctxs.filter fun c => c.2.st != .closed && sliceRep (s.place c.2.placement).slice && !(s.journaled c.1)).length

/-- The pair is PAIRED: identities and journal limits are exchanged. -/
def State.paired (s : State) : State :=
  let r := Reg.TWN_STAT
  let s1 := ((s.setFld r Fld.TWN_STAT_STATE 2).setFlag r Fld.TWN_STAT_JBC (!s.twin.noJbc)).setFld r Fld.TWN_STAT_ORPHANS s.orphans
  let s2 := { s1 with twin := { s1.twin with lastBeat := s1.now, pairSeen := none, pairOp := none } }
  match s.twin.pairOp with
  | some k => s2.endLongAt k stOK 0 0
  | none => s2

/-- A pairing fails: SOLO, and TWIN_PAIR completes with NO_RESOURCE. -/
def State.pairFails (s : State) : State :=
  match s.twin.pairOp with
  | some k => s.twinSolo.endLongAt k stNoResource 0 0
  | none => s.twinSolo

/-- The journal region is set on this module. -/
def State.regionSet (s : State) : Bool := s.fld Reg.TWN_JRN Fld.TWN_JRN_SIZE != 0

/-- The ports whose far end is module m. -/
def State.portsTo (s : State) (m : Nat) : List Nat := (List.range 24).filter fun n => s.portSt n == 2 && s.farId n == m

/-- TWIN_PAIR as FMP starts it (R382). -/
def State.svcTwinPair (s : State) (h : Hdr) (peer : BitVec 16) (byte2 : BitVec 8) (rsv : BitVec 40) : State :=
  let m := peer.toNat
  let ps := s.portsTo m
  let onBoard := ps.any fun n => s.sameBoard (s.port n).farCoord
  s.checked h 0x60
    [chkForm (decide (m < 16384) && m != s.myId) 0, chkForm (decide (byte2.toNat < 2)) 2, chkForm (rsv == 0) 3, chkSt (s.twinSt == 0) stDeferred,
     chkSt (!(s.upPorts 3).isEmpty) stNoResource, chkForm onBoard 0, chkSt s.regionSet stNoResource] fun s =>
    s.startLong h (.twinPair peer byte2 rsv) 1 fun o s =>
      let seen := s.twin.pairSeen
      let r := Reg.TWN_STAT
      let s1 := (s.setFld r Fld.TWN_STAT_STATE 1).setFld r Fld.TWN_STAT_PEER m
      let s2 := { s1 with twin := { noJbc := bitOf byte2.toNat 0, pairAt := s1.now, lastBeat := s1.now, pairOp := some o.id } }
      let s3 := s2.request m 7 0 0 (leBytes 1 mgPair ++ leBytes 1 1) none
      match seen with
      | some (p, set, t) =>
        if p = m && s3.now < t + 1000000000 then (if set then s3.paired else s3.pairFails) else s3
      | none => s3

/-- The modules become SOLO: the peer is told, held completions are written. -/
def State.unpair (s : State) : State :=
  let s1 := (s.request s.peer 7 0 0 (leBytes 1 mgUnpair) none).releaseHeld
  match s.twin.unpairOp with
  | some k => s1.twinSolo.endLongAt k stOK 0 0
  | none => s1.twinSolo

/-- TWIN_UNPAIR as FMP starts it (R390). A SOLO module has nothing to undo. -/
def State.svcTwinUnpair (s : State) (h : Hdr) (byte0 : BitVec 8) (rsv : BitVec 56) : State :=
  s.checked h 0x61
    [chkForm (decide (byte0.toNat < 2)) 0, chkForm (rsv == 0) 1, chkSt (!(s.flag Reg.TWN_STAT Fld.TWN_STAT_TAKEOVER)) stDeferred,
     chkSt (s.twinSt != 4) stDeferred] fun s =>
    s.startLong h (.twinUnpair byte0 rsv) 1 fun o s =>
      let k := o.id
      match s.twinSt with
      | 0 => s.endLongAt k stOK 0 0
      | 1 => s.pairFails.endLongAt k stOK 0 0
      | _ =>
        let s1 := { s.setFld Reg.TWN_STAT Fld.TWN_STAT_STATE 4 with twin := { s.twin with unpairOp := some k } }
        if byte0 == 1 && s.twin.acked < s.twin.sentSeq then s1 else s1.unpair

/-- PAIRING_TIMEOUT: the peer's TWIN_PAIR has not come within 1 s (R382). -/
def execPairingTimeout (at_ : Nat) (s : State) : Res :=
  let s := s.tick at_
  .next (if s.twinSt = 1 && s.twin.pairAt + 1000000000 ≤ s.now then s.pairFails else s)

/-- ACK_WAIT_EXPIRY: acknowledgements have been outstanding for longer than ACK_WAIT (R387). -/
def execAckWaitExpiry (at_ : Nat) (s : State) : Res :=
  let s := s.tick at_
  .next (
    let w := s.twin
    if s.twinSt = 2 && w.acked < w.sentSeq && w.oldestAt + 100000 * max 1 (s.fld Reg.TWN_CFG Fld.TWN_CFG_ACK_WAIT) < s.now then s.degrade 3 else s)

/-! ## JOURNAL (R374, R385, R386, R391) -/

/-- Bytes in the journal region and its size. -/
def State.journalUse (s : State) : Nat × Nat := ((s.twin.filed.map fun r => r.bytes.length).sum, (s.journal).2)

/-- A record that has come before: a HIST at its position, the context's last record of another kind, or a CLOSE of a context that the
journal does not hold (R367). -/
def recDup (l : List JRec) (r : JRec) : Bool :=
  match r.kind with
  | 4 => !(l.any fun x => x.ctx == r.ctx)
  | 2 => l.any fun x => x.kind == 2 && x.ctx == r.ctx && x.pos == r.pos && x.body == r.body
  | _ => (l.filter fun x => x.kind == r.kind && x.ctx == r.ctx).getLast? == some r

/-- Records filed by context: a duplicate adds nothing, a CLOSE frees the context's records (R367, R388). -/
def fileRec (l : List JRec) (r : JRec) : List JRec :=
  if recDup l r then l
  else if r.kind = 4 then l.filter fun x => x.ctx != r.ctx
  else l ++ [r]

/-- Records of a message filed in order, with the number of those that are no duplicates. -/
def fileRecs (rs : List JRec) (l : List JRec) : List JRec × Nat :=
  rs.foldl (fun a r => (fileRec a.1 r, if recDup a.1 r then a.2 else a.2 + 1)) (l, 0)

/-- FMP can file records, or its queue still takes 4 ms of them (R386, R391). -/
def State.queueOpen (s : State) : Bool :=
  s.alive 2 || s.time / 1000 % 2 ^ 32 ≤ s.fld (Reg.FWP_PROC 2) Fld.FWP_PROC_LAST_TIME + 4000

/-- JOURNAL: records from the twin enter the queue of the journal region and are acknowledged; a full region is answered NO_RESOURCE and
makes the pair DEGRADED with CAUSE 2. -/
def execJournal (n : Nat) (m : FMsg) (s : State) : Res :=
  onObject (decide (n < 24))
    (if s.queueOpen then
       s.onMsg n m 3 fun s =>
         if s.twinSt < 2 || m.src ≠ s.peer || m.offset ≠ 0 then s.refuseMsg n m
         else
           let rs := recsOf m.payload
           let (filed, new) := fileRecs rs s.twin.filed
           let s1 := { s with twin := { s.twin with filed := filed, inSeq := s.twin.inSeq + new } }
           let (used, size) := s1.journalUse
           if size < used then (s.degrade 2).respond n m stNoResource
           else ((s1.setFld Reg.TWN_JRN Fld.TWN_JRN_USED (used * 100 / max 1 size)).undegrade 2).respond n m stOK
     else s)

/-! ## RESP and MGMT -/

/-- Records of a JOURNAL are acknowledged (R386, R390). -/
def State.journalAck (s : State) (r : Req) (status : Nat) : State :=
  if status ≠ stOK then s.degrade 2
  else
    let w := s.twin
    let acked := min w.sentSeq (w.acked + (recsOf r.msg.payload).length)
    let s1 := { s with twin := { w with acked := acked, oldestAt := s.now } }.releaseAcked
    if acked < w.sentSeq then s1
    else if s1.twinSt = 4 then s1.unpair
    else (s1.undegrade 3).undegrade 2

/-- RESP to a request: OK ends it; a RELAY answered DEFERRED is sent again later, and a step's record counts once it is answered OK. -/
def execResp (n : Nat) (m : FMsg) (s : State) : Res :=
  onObject (decide (n < 24))
    (s.onMsg n m 5 fun s =>
      let status := sliceNum m.payload 0 1
      match s.fabric.reqs.find? fun r => r.msg.tag == m.tag && r.msg.dest == m.src with
      | none => s
      | some r =>
        let op := r.msg.op % 16
        if op = 1 && status = stDeferred then s.setReq { r with deferred := true, sentAt := s.now }
        else
          let s1 := s.dropReq m.tag
          match op with
          | 1 => match r.place, status with
            | some l, 0 => s1.setPlace l { s1.place l with step := (s1.place l).step.map fun st => { st with relayOut := st.relayOut - 1 } }
            | _, _ => s1
          | 3 => s1.journalAck r status
          | 4 => { s1 with fabric := { s1.fabric with
                    probeAt := tset 0 s1.fabric.probeAt r.msg.dest (s1.now + 1), lost := s1.fabric.lost.filter (· != r.msg.dest) } }
          | 7 =>
            let kind := sliceNum r.msg.payload 0 1
            if kind = mgPair && status ≠ stOK && s1.twinSt = 1 && r.msg.dest = s1.peer then s1.pairFails
            else s1
          | _ => s1)

/-- A pairing message of another module (R382). -/
def State.mgmtPair (s : State) (n : Nat) (m : FMsg) : State :=
  let set := sliceNum m.payload 1 1 = 1
  if s.twinSt = 1 && m.src = s.peer then
    (if set then s.paired else s.pairFails).respond n m (if set then stOK else stNoResource)
  else if s.twinSt = 0 then { s with twin := { s.twin with pairSeen := some (m.src, set, s.now) } }.respond n m stOK
  else s.respond n m stNoResource

/-- The chain that a message to its head is about. -/
def State.headChain (s : State) (m : FMsg) (who : Nat) : Option Chain :=
  s.fabric.chains.find? fun c => c.head == s.myId && c.tag == sliceNum m.payload 2 2 && c.members.contains who

/-- A member with an accepted load has taken the opening message (R263). -/
def State.mgmtAnswer (s : State) (m : FMsg) : State :=
  match s.headChain m m.src with
  | some c => if c.answered.contains m.src then s else s.setChain { c with answered := c.answered ++ [m.src] }
  | none => s

/-- A member has taken the last chunk (R265). -/
def State.mgmtDone (s : State) (m : FMsg) : State :=
  match s.headChain m m.src with
  | none => s
  | some c =>
    let s1 := s.setChain { c with delivered := if c.delivered.contains m.src then c.delivered else c.delivered ++ [m.src] }
    match s1.longOf c.op with
    | some o => match o.pkt with
      | .modelLoad .. => s1.finishLoad o c.model
      | _ => s1
    | none => s1

/-- A module of a chain is lost, told by another module of it: the head counts it, a member after it ends with FENCED (R265). -/
def State.mgmtGone (s : State) (m : FMsg) : State :=
  let who := sliceNum m.payload 4 2
  let head := sliceNum m.payload 6 2
  if head = s.myId then
    match s.headChain m who with
    | some c => if c.gone.contains who then s else s.membersGone c [who]
    | none => s
  else
    match s.fabric.chains.find? fun c => c.tag == sliceNum m.payload 2 2 && c.head == head with
    | some c => s.fenceChain c
    | none => s

/-- MGMT: pairing, unpairing, chains, time records (log entry 13). -/
def execMgmt (n : Nat) (m : FMsg) (s : State) : Res :=
  onObject (decide (n < 24))
    (s.onMsg n m 7 fun s =>
      if !(s.alive 2) then s.respond n m stRestarted
      else match sliceNum m.payload 0 1 with
      | 1 => s.mgmtPair n m
      | 2 => (if s.twinSt ≠ 0 && m.src = s.peer then
          (match s.twin.unpairOp, s.twin.pairOp with
            | some k, _ => (s.releaseHeld).twinSolo.endLongAt k stOK 0 0
            | none, some _ => s.pairFails
            | none, none => s.releaseHeld.twinSolo) else s).respond n m stOK
      | 3 => (s.openingCame m).respond n m stOK
      | 4 => (s.mgmtDone m).respond n m stOK
      | 5 => (s.mgmtGone m).respond n m stOK
      | 6 => s.respond n m stOK
      | 7 => (s.mgmtAnswer m).respond n m stOK
      | _ => s.respond n m stBadPacket)

/-! ## Heartbeats (R384, R389, R391) -/

/-- Peer-loss time in ns (R401). -/
def State.hbLoss (s : State) : Nat := 100000 * max 2 (s.fld Reg.TWN_CFG Fld.TWN_CFG_HB_LOSS)

/-- PATHS: paths with a heartbeat within the peer-loss time. -/
def State.countPaths (s : State) : State :=
  s.setFld Reg.TWN_STAT Fld.TWN_STAT_PATHS ((s.twin.pathAt.filter fun x => s.now < x.2 + s.hbLoss).length)

/-- HEARTBEAT on a path (0 and 1 the twin ports, 2 a switched port): the peer lives; one with TAKEOVER set fences every replicated
placement. -/
def execHeartbeat (path state : Nat) (takeover : Bool) (ackSeq at_ : Nat) (s : State) : Res :=
  let s := s.tick at_
  onObject (decide (path < 3))
    (if s.twinSt = 0 then s
     else
       let w := s.twin
       let s1 := { s with twin := { w with lastBeat := s.now, peerState := state % 8, peerAck := ackSeq,
                                           pathAt := tset 0 w.pathAt path (s.now + 1) } }.countPaths
       if takeover then s1.each (s1.present.filter fun l => sliceRep (s1.place l).slice) fun s l => s.fencePlace l s1.peer else s1)

/-- HEARTBEAT_SEND: every 100 us of module time, on each twin port and one switched port; a period without one received counts. -/
def execHeartbeatSend (at_ : Nat) (s : State) : Res :=
  let s := s.tick at_
  .next (
    if s.twinSt = 0 || (s.twin.beatSent ≠ 0 && s.time < s.twin.beatSent + 100000) then s
    else
      let w := s.twin
      let s1 := { s with twin := { w with beatSent := s.time } }
      let s2 := if w.lastBeat + 100000 < s1.now then s1.bump Reg.TWN_CNT Fld.TWN_CNT_HB_MISS else s1
      let body := leBytes 1 s2.twinSt ++ leBytes 1 (b2n (s2.flag Reg.TWN_STAT Fld.TWN_STAT_TAKEOVER)) ++ leBytes 6 0 ++ leBytes 8 w.inSeq
      let m : FMsg := ⟨s2.peer, s2.myId, 6 + 3 * 16, 0, 0, 0, body⟩
      (s2.each (s2.upPorts 3 ++ (s2.upPorts 2).take 1) fun s n => s.transmit n m).countPaths)

/-! ## Takeover (R388, R389, R391) -/

/-- What the journal holds of a context: its tokens from position 0 on without a gap, the last HIST record of them, and whether later
records follow a gap. -/
def journalTokens (rs : List JRec) : List Nat × Option JRec × Bool :=
  rs.foldl (fun (a : List Nat × Option JRec × Bool) r =>
    if r.kind ≠ 2 then a
    else if a.1.length < r.pos || a.2.2 then (a.1, a.2.1, true)
    else (a.1.take r.pos ++ r.tokens.map Prod.snd, some r, false)) ([], none, false)

/-- The context that its OPEN and latest STATE describe. -/
def restored (o : JRec) (st : Option JRec) : Ctx :=
  let b := o.body
  let state := st.map JRec.body
  { st := .paused, cls := sliceNum b 8 1 % 4, contLate := bitOf (sliceNum b 8 1) 2, part := sliceNum b 41 1, placement := sliceNum b 4 2,
    tag := sliceNum b 6 2, kvBase := sliceNum b 16 8, lenMax := sliceNum b 12 4, sprof := sliceNum b 10 2, seed := sliceNum b 24 8,
    deadline := (state.map fun x => sliceNum x 8 8).getD (sliceNum b 32 8), genLeft := (state.map fun x => sliceNum x 2 2).getD 0,
    pair := sliceNum b 40 1 + 1 }

/-- One journaled context taken over. `degraded`: the pair was DEGRADED when the peer was lost. -/
def State.takeCtx (s : State) (i : Nat) (degraded : Bool) : State :=
  let rs := s.twin.filed.filter fun r => r.ctx == i
  match rs.find? fun r => r.kind == 1 with
  | none => s
  | some o =>
    if (s.ctx i).st != .closed then s
    else
      let st := (rs.filter fun r => r.kind == 3).getLast?
      let code := (st.map fun r => sliceNum r.body 0 1).getD (ctxCode .opened)
      let (toks, last, gap) := journalTokens rs
      let c0 := restored o st
      let c := { c0 with pair := if s.pairOn c0.part c0.pair then c0.pair else 1, timestamp := s.time }
      let stale := degraded || gap
      let s0 := s.when stale fun s => s.bump Reg.TWN_CNT Fld.TWN_CNT_STALE
      let put := fun (s : State) (c : Ctx) (a : CtxAux) => ((s.setCtx i c).setAux i a).touch i
      match last with
      | none => (put s0 { c with st := if code = ctxCode .opened then .opened else .paused } {}).completeAt i stFenced 0
      | some r =>
        let q := toks.length - 1
        let same := r.gen == (s.model (s.place c.placement).cfg.model).gen
        let ok := r.emitted && !stale && same
        let fin := if ok then (stOK, r.tokens.map Prod.snd, r.pos, false)
          else (stFenced, [], if !stale && !r.emitted then q + 1 else q, true)
        let aux : CtxAux := { redo := toks.take q, redoPend := some (toks.getLastD 0), redoEnd := some fin }
        if q = 0 then
          (put s0 { c with st := .active, pending := toks.getLastD 0, pvalid := true } { redoEnd := some fin }).redoFinish i
        else if code = ctxCode .parked then
          ((put s0 { c with st := .paused } aux).redoFinish i)
        else put s0 { c with st := .active } aux

/-- The survivor takes over the journaled contexts. -/
def State.takeover (s : State) : State :=
  let degraded := s.twinSt = 3 || s.twin.peerState = 3
  let ids := (s.twin.filed.map JRec.ctx).eraseDups
  let parts := (s.twin.filed.filter fun r => r.kind == 1).map fun r => sliceNum r.body 41 1
  let r := Reg.TWN_STAT
  let s1 := s.releaseHeld.bump Reg.TWN_CNT Fld.TWN_CNT_TAKEOVERS
  let s2 := ((s1.setFlag r Fld.TWN_STAT_JBC false).setFld r Fld.TWN_STAT_STATE 3).setFld r Fld.TWN_STAT_CAUSE 0
  let s3 := (s2.raise19 (parts ++ s2.replicaParts)).each ids fun s i => s.takeCtx i degraded
  (s3.setFlag r Fld.TWN_STAT_TAKEOVER true).takeoverCheck

/-- PEER_LOST: no heartbeat on any path for HB_LOSS: a takeover while PAIRED or DEGRADED, otherwise SOLO. -/
def execPeerLost (at_ : Nat) (s : State) : Res :=
  let s := s.tick at_
  .next (
    if s.twinSt = 0 || s.flag Reg.TWN_STAT Fld.TWN_STAT_TAKEOVER || s.now < s.twin.lastBeat + s.hbLoss then s
    else match s.twinSt with
      | 1 => s.pairFails
      | 4 => match s.twin.unpairOp with
        | some k => s.releaseHeld.twinSolo.endLongAt k stOK 0 0
        | none => s.releaseHeld.twinSolo
      | _ => if s.alive 2 then s.takeover else s)

end Sys2Proof.Machine
end

