-- ==== Sys2Proof/Machine/Power.lean ====
section
/-! DEFINITION. Operating points, ceilings, the cap, droops, RIDGE hints and power emergencies (R418 to R437, R457, R459). -/

namespace Sys2Proof.Machine

/-! ## Operating points (R423 to R425, R448) -/

/-- Nominal VCORE of an operating point in mV (R423). -/
def opVolt (op : Nat) : Nat := [780, 720, 680, 620, 580, 550].getD op 550
/-- Relative dynamic power of an operating point in hundredths (R423). -/
def opPower (op : Nat) : Nat := [100, 76, 61, 42, 32, 25].getD op 25
/-- 64 CORE cycles at an operating point in ns: ROOT is 6.4 GHz (R423, R431). -/
def cycles64 (op : Nat) : Nat := [40, 45, 50, 60, 70, 80].getD op 80

/-- CURRENT of quadrant q. -/
def State.opNow (s : State) (q : Nat) : Nat := s.fld (Reg.POW_OP q) Fld.POW_OP_CURRENT
/-- TARGET of quadrant q. -/
def State.opTarget (s : State) (q : Nat) : Nat := s.fld (Reg.POW_OP q) Fld.POW_OP_TARGET
/-- CEILING of quadrant q. -/
def State.opCeil (s : State) (q : Nat) : Nat := s.fld (Reg.POW_OP q) Fld.POW_OP_CEILING
/-- The operating point that quadrant q is to run at: the slower of TARGET and CEILING (R424). -/
def State.opWant (s : State) (q : Nat) : Nat := max (s.opTarget q) (s.opCeil q)

/-- VCORE set for the operating point wanted, with its boost; a change leaves VGOOD at 0 until the voltage has come (R425, R433). -/
def State.setVolt (s : State) (q : Nat) : State :=
  let r := Reg.POW_OP q
  let v := opVolt (s.opWant q)
  let old := s.fld r Fld.POW_OP_VCORE
  let set := if s.flag r Fld.POW_OP_BOOST then min 800 (v + 20) else v
  if set = old then s else (s.setFld r Fld.POW_OP_VCORE set).setFlag r Fld.POW_OP_VGOOD false

/-- The clock steps down at once where it runs above the point wanted; the voltage follows (R424, R425). -/
def State.lowerClock (s : State) (q : Nat) : State :=
  if s.opNow q < s.opWant q then (s.setFld (Reg.POW_OP q) Fld.POW_OP_CURRENT (s.opWant q)).setVolt q else s.setVolt q

/-- A raise is requested for quadrant q: the voltage rises, the clock waits for the boundary. -/
def State.wantRaise (s : State) (q : Nat) : State :=
  if s.opWant q < s.opNow q then
    ({ s with power := { s.power with raiseAt := tset 0 s.power.raiseAt q (s.now + 1) } }).setVolt q
  else s

/-- TARGET of quadrant q becomes slower: a raise still waiting is given up, but for the part of it that the new TARGET still allows. -/
def State.lowerTarget (s : State) (q t : Nat) : State :=
  let s1 := (s.setFld (Reg.POW_OP q) Fld.POW_OP_TARGET (min 5 t)).lowerClock q
  if s1.opWant q < s1.opNow q then s1 else { s1 with power := { s1.power with raiseAt := tset 0 s1.power.raiseAt q 0 } }

/-- CEILING of quadrant q from all its sources (R457): the slowest holds; a slower one acts at once, a faster one is a raise. -/
def State.freshCeil (s : State) (q : Nat) : State :=
  let thermal := (s.therm.conds.filter fun c => c.quad == q).map Cond.demand
  let c := (tget 0 s.power.ceil q :: tget 0 s.power.ceil (4 + q) :: thermal).foldl max 0
  let old := s.opCeil q
  if c = old then s
  else
    let s1 := s.setFld (Reg.POW_OP q) Fld.POW_OP_CEILING (min 5 c)
    if old < c then s1.lowerClock q else s1.wantRaise q

/-- A source's demand on every quadrant. -/
def State.demandAll (s : State) (source op : Nat) : State :=
  s.each (List.range 4) fun s q => { s with power := { s.power with ceil := tset 0 s.power.ceil (4 * source + q) op } }.freshCeil q

/-- A raise that waits for its boundary is dropped (R432, R459). -/
def State.dropRaise (s : State) (q : Nat) : State :=
  if tget 0 s.power.raiseAt q = 0 then s
  else
    { s with power := { s.power with raiseAt := tset 0 s.power.raiseAt q 0 } }.setFld (Reg.POW_OP q) Fld.POW_OP_TARGET
      (max (s.opTarget q) (s.opNow q))

/-- No step in flight with a tile in quadrant q was built before the raise was requested (R424). -/
def State.atBoundary (s : State) (q : Nat) : Bool :=
  s.present.all fun l => !(s.inQuad l q) || match (s.place l).step with
    | some st => decide (tget 0 s.power.raiseAt q ≤ st.builtAt + 1)
    | none => true

/-- The clock steps up at a boundary reached with VGOOD at 1. -/
def State.stepUp (s : State) (q : Nat) : State :=
  let r := Reg.POW_OP q
  if tget 0 s.power.raiseAt q ≠ 0 && s.flag r Fld.POW_OP_VGOOD && s.atBoundary q && s.opWant q < s.opNow q then
    ({ s with power := { s.power with raiseAt := tset 0 s.power.raiseAt q 0 } }.setFld r Fld.POW_OP_CURRENT (s.opWant q)).bump
      (Reg.POW_QCNT q) Fld.POW_QCNT_RAISES
  else s

/-- OPERATING_POINT_BOUNDARY of quadrant q. -/
def execOperatingPointBoundary (q at_ : Nat) (s : State) : Res :=
  let s := s.tick at_
  onObject (decide (q < 4)) (s.stepUp q)

/-- VGOOD: VCORE[q] is at the voltage set; a boundary already reached lets the clock step up (R425, R432). -/
def execVgood (q at_ : Nat) (s : State) : Res :=
  let s := s.tick at_
  onObject (decide (q < 4)) ((s.setFlag (Reg.POW_OP q) Fld.POW_OP_VGOOD true).stepUp q)

/-- DROOP: a detector of quadrant q fires (R431). TARGET stays, so the quadrant returns at its next boundary. -/
def execDroop (q at_ : Nat) (s : State) : Res :=
  let s := s.tick at_
  onObject (decide (q < 4))
    (let op := s.opNow q
     let last := tget 0 s.power.droopAt q
     if last ≠ 0 && s.now < last - 1 + cycles64 op then s
     else if 5 ≤ op then (s.bump (Reg.POW_QCNT q) Fld.POW_QCNT_DROOP_FLOOR).fault 0x0503 1 srcHw q []
     else
       let p := { s.power with droopAt := tset 0 s.power.droopAt q (s.now + 1), raiseAt := tset 0 s.power.raiseAt q (s.now + 1) }
       ({ s with power := p }.setFld (Reg.POW_OP q) Fld.POW_OP_CURRENT (op + 1)).bump (Reg.POW_QCNT q) Fld.POW_QCNT_DROOP)

/-! ## The cap (R421, R426, R428 to R430) -/

/-- A cap as it acts, in W. -/
def capOf (w : Nat) : Nat := max 1200 (min 3600 w)

/-- CAP_EFF and BMC_LIMITS from the two caps. -/
def State.freshCap (s : State) : State :=
  let host := capOf (s.fld Reg.POW_CAP Fld.POW_CAP_HOST_CAP)
  let bmc := capOf (s.fld Reg.POW_CAP Fld.POW_CAP_BMC_CAP)
  (s.setFld Reg.POW_STAT Fld.POW_STAT_CAP_EFF (min host bmc)).setFlag Reg.POW_STAT Fld.POW_STAT_BMC_LIMITS (decide (bmc < host))

/-- CAP_EFF in quarter watts. -/
def State.capQ (s : State) : Int := 4 * (s.fld Reg.POW_STAT Fld.POW_STAT_CAP_EFF : Nat)

/-- QEST of quadrant q in quarter watts. -/
def State.qest (s : State) (q : Nat) : Nat := s.fld (Reg.POW_OP q) Fld.POW_OP_QEST

/-- The calibrated estimate of a raw one, in quarter watts (R426). -/
def State.calibrated (s : State) (pe : Nat) : Int :=
  let g := s.fld Reg.POW_EST_CAL Fld.POW_EST_CAL_GAIN
  ((pe : Int) * g) / 16384 + signed 16 (s.fld Reg.POW_EST_CAL Fld.POW_EST_CAL_OFFSET)

/-- Quadrants of the highest value among those that may go slower, chosen by the arbiter's rule (R296, R429). -/
def pickHighest (may : List Bool) (v : List Nat) (ptr : Nat) : Option Nat × Nat :=
  let m := (((List.range 4).filter fun q => may.getD q false).map fun q => v.getD q 0).foldl max 0
  arbitrate ((List.range 4).map fun q => may.getD q false && v.getD q 0 == m) ptr

/-- The estimates of one microsecond taken in: QEST and the raw sum (R426, R427). -/
def State.takeQest (s : State) (qest : List Nat) : State :=
  (s.each (List.range 4) fun s q => s.setFld (Reg.POW_OP q) Fld.POW_OP_QEST (min (qest.getD q 0) 65535)).freshCap

/-- The module's raw estimate in quarter watts: the quadrants and 60 W (R426). -/
def State.rawEst (s : State) : Nat := ((List.range 4).map s.qest).sum + 240

/-- P_cal: the calibrated estimate; while PTP is not ALIVE the raw one (R426). -/
def State.calEst (s : State) : Int := if s.alive 1 then s.calibrated s.rawEst else (s.rawEst : Int)

/-- The mean of the last four estimates exceeds CAP_EFF (R429). -/
def State.overCap (s : State) : Bool := decide (s.capQ * s.power.peHist.length < s.power.peHist.sum)

/-- The sums and the history with this microsecond's estimate in them. -/
def State.addEstimate (s : State) : State :=
  let hist := (s.calEst :: s.power.peHist).take 4
  { s with power := { s.power with
      peHist := hist, peSum := s.power.peSum + s.rawEst, peN := s.power.peN + 1,
      reviewMax := if hist.length = 4 then max s.power.reviewMax hist.sum else s.power.reviewMax } }

/-- Since when the cap has been missed at OP5 throughout, and since when it has been met (R430). -/
def State.watchCap (s : State) : State :=
  let floor := (List.range 4).all fun q => 5 ≤ s.opNow q
  let p := { s.power with
    missAt := if s.overCap && floor then some (s.power.missAt.getD s.now) else none,
    okAt := if s.overCap then none else some (s.power.okAt.getD s.now) }
  { s with power := p }

/-- CAP_FLOOR clears once the cap has been met for 1 ms (R430). -/
def State.capMet (s : State) : State :=
  match s.power.okAt with
  | some t => s.when (decide (t + 1000000 ≤ s.now)) fun s => s.setFlag Reg.POW_STAT Fld.POW_STAT_CAP_FLOOR false
  | none => s

/-- The limiter lowers the quadrant of the highest QEST among those below OP5 by one point (R429). -/
def State.limitStep (s : State) : State :=
  match pickHighest ((List.range 4).map fun q => decide (s.opNow q < 5)) ((List.range 4).map s.qest) s.power.limitPtr with
  | (some q, ptr) =>
    let op := if tget 0 s.power.droopAt q = s.now + 1 then s.opNow q else s.opNow q + 1
    let p := { s.power with limitNext := s.now + 4000, limitPtr := ptr }
    ({ s with power := p }.lowerTarget q op).bump (Reg.POW_QCNT q) Fld.POW_QCNT_LIMIT
  | (none, _) => s

/-- FAST_LIMITER: every 1 us the estimates are formed and the mean of four is held against CAP_EFF; over it, the quadrant of the highest
QEST goes one operating point slower, at most every 4 us. `qest` gives the four raw estimates in quarter watts. -/
def execFastLimiter (at_ : Nat) (qest : List Nat) (s : State) : Res :=
  let s1 := (s.tick at_).takeQest qest
  let s2 := (s1.setFld Reg.POW_STAT Fld.POW_STAT_P_EST (min s1.calEst.toNat 65535)).addEstimate.watchCap.capMet
  .next (if s2.overCap && decide (s2.power.limitNext ≤ s2.now) then s2.limitStep else s2)

/-- CAP_FLOOR: every quadrant is at OP5 and the mean has exceeded CAP_EFF for 1 ms without a break (R430). -/
def execCapFloor (at_ : Nat) (s : State) : Res :=
  let s := s.tick at_
  .next (match s.power.missAt with
    | some t =>
      if t + 1000000 ≤ s.now && !(s.flag Reg.POW_STAT Fld.POW_STAT_CAP_FLOOR) then
        ((s.setFlag Reg.POW_STAT Fld.POW_STAT_CAP_FLOOR true).bump Reg.POW_CNT Fld.POW_CNT_CAP_MISS).fault 0x0503 1 srcHw 0 []
      else s
    | none => s)

/-! ## RIDGE (R433) -/

/-- The largest LOAD of the windows over quadrant q now. -/
def State.ridgeLoad (s : State) (q : Nat) : Nat :=
  ((s.power.windows.filter fun w => w.quads.contains q && decide (w.start ≤ s.now ∧ s.now < w.stop)).map RWin.load).foldl max 0

/-- A Critical condition holds CEILING of quadrant q (R459). -/
def State.critCeil (s : State) (q : Nat) : Bool :=
  tget 0 s.power.ceil q ≠ 0 || s.therm.conds.any fun c => 2 ≤ c.level && !c.ended && c.quad == q

/-- BOOST and VCORE of the quadrants from the windows in force; while PTP is absent there is no boost. Windows that have ended go. -/
def State.freshBoost (s : State) : State :=
  let s0 := { s with power := { s.power with windows := s.power.windows.filter fun w => s.now < w.stop } }
  s0.each (List.range 4) fun s q =>
    let on := s.alive 1 && !(s.critCeil q) && s.power.windows.any fun w => w.quads.contains q && decide (w.boostAt ≤ s.now)
    let r := Reg.POW_OP q
    if s.flag r Fld.POW_OP_BOOST = on then s
    else
      let v := opVolt (s.opWant q)
      (s.setFlag r Fld.POW_OP_BOOST on).setFld r Fld.POW_OP_VCORE (if on then min 800 (v + 20) else v)

/-- RIDGE: a hint for the quadrants of a placement. -/
def execRidge (h : Hdr) (placement lead load duration : BitVec 16) (s : State) : Res :=
  .next (s.dPacket h 0x09 8 fun s =>
    let l := placement.toNat
    s.checked h 0x09 (s.chkPlace h.fn l 0 ++ [chkForm (decide (1 ≤ lead.toNat) && decide (lead.toNat ≤ 100)) 2, chkForm (duration != 0) 6]) fun s =>
      let s1 := if s.alive 1 then
          let us := fun n => s.now + 1000 * n
          let w : RWin := { quads := ((s.place l).cfg.tiles.map (· / 256)).eraseDups, boostAt := us (lead.toNat - 20), start := us lead.toNat,
                            stop := us (lead.toNat + duration.toNat), load := load.toNat }
          ({ s with power := { s.power with windows := s.power.windows ++ [w] } }.bump Reg.POW_CNT Fld.POW_CNT_RIDGE).freshBoost
        else s.bump Reg.POW_CNT Fld.POW_CNT_RIDGE_IGN
      s1.reply h 0x09 stOK 0 0)

/-- RIDGE_WINDOW: a hint's boost or window begins or ends. -/
def execRidgeWindow (at_ : Nat) (s : State) : Res := .next (s.tick at_).freshBoost

/-! ## PTP's review (R428, R433) -/

/-- Power reserved for quadrant q and not already drawn, in quarter watts. `core` is what its CORE-clocked terms draw now. -/
def State.reserved (s : State) (q core : Nat) : Rat :=
  let full : Rat := (Config.fullPower q : Rat) * opPower (s.opTarget q) / 100
  let want := full * s.ridgeLoad q / 65536
  if want < core then 0 else want - core

/-- Change of the module's power when quadrant q runs at operating point `op` instead of its current one, in quarter watts. -/
def State.opChange (s : State) (q core op : Nat) : Rat :=
  (core : Rat) * (((opPower op : Nat) : Rat) / opPower (s.opNow q) - 1) * (s.fld Reg.POW_EST_CAL Fld.POW_EST_CAL_GAIN) / 16384

/-- Quadrants in ascending order of QEST; the arbiter's rule orders equal ones (R428). -/
def State.reviewOrder : Nat → List Nat → State → List Nat × State
  | 0, _, s => ([], s)
  | k + 1, left, s =>
    let m := (left.map s.qest).foldl min 65536
    match arbitrate ((List.range 4).map fun q => left.contains q && s.qest q == m) s.power.reviewPtr with
    | (some q, ptr) =>
      let (rest, s1) := State.reviewOrder k (left.filter (· != q)) { s with power := { s.power with reviewPtr := ptr } }
      (q :: rest, s1)
    | (none, _) => ([], s)

/-- PTP makes room: quadrants go slower by one point each, in the limiter's order, until the prediction fits; a quadrant is not lowered
for its own reservation alone. -/
def State.makeRoom (core : List Nat) (lim : Rat) : Nat → List Nat → Rat → State → State
  | 0, _, _, s => s
  | k + 1, left, pred, s =>
    if pred ≤ lim then s
    else
      let may := (List.range 4).map fun q => left.contains q && decide (s.opTarget q < 5) && decide (lim < pred - s.reserved q (core.getD q 0))
      match pickHighest may ((List.range 4).map s.qest) s.power.limitPtr with
      | (some q, ptr) =>
        let c := core.getD q 0
        let t := s.opTarget q
        let d := s.opChange q c (t + 1) - s.opChange q c t
        State.makeRoom core lim k (left.filter (· != q)) (pred + d) ({ s with power := { s.power with limitPtr := ptr } }.lowerTarget q (t + 1))
      | (none, _) => s

/-- PTP_REVIEW: every 100 us while PTP is ALIVE. `coreTerms` gives the CORE-clocked terms of each QEST in quarter watts. -/
def execPtpReview (at_ : Nat) (coreTerms : List Nat) (s : State) : Res :=
  let s := s.tick at_
  .next (
    if !(s.alive 1) || (s.power.reviewAt ≠ 0 && s.now < s.power.reviewAt + 100000) then s
    else
      let s0 := if s.flag Reg.HKC_CFG Fld.HKC_CFG_QOWN then s
        else { s with hkc := { s.hkc with queue := [] } }.setFld Reg.HKC_STAT Fld.HKC_STAT_QLEVEL 0
      let lim : Rat := 98 * (s0.capQ : Rat) / 100
      let core := fun q => coreTerms.getD q 0
      let pred : Rat := (s0.power.reviewMax : Rat) / 4 + ((List.range 4).map fun q => s0.reserved q (core q)).sum
      let s1 := { s0 with power := { s0.power with reviewAt := s0.now, reviewMax := 0 } }
      if lim < pred then State.makeRoom coreTerms lim 4 [0, 1, 2, 3] pred s1
      else
        let (order, s2) := State.reviewOrder 4 [0, 1, 2, 3] s1
        (order.foldl (fun (a : State × Rat) q =>
          let t := a.1.opTarget q
          if t = 0 then a
          else
            let d := a.1.opChange q (core q) (t - 1)
            if a.2 + d ≤ lim then ((a.1.setFld (Reg.POW_OP q) Fld.POW_OP_TARGET (t - 1)).wantRaise q, a.2 + d) else a) (s2, pred)).1)

/-! ## Power emergencies (R436, R437, R459) -/

/-- Level of a condition by its row of R436: 1 Warning, 2 Critical, 3 Trip. -/
def rowLevel (row : Nat) : Nat := [1, 2, 3, 1, 2, 2, 3].getD row 1

/-- EMERG and the power source's ceilings from the active conditions. -/
def State.freshPower (s : State) : State :=
  let lv := ((s.power.active.map rowLevel).foldl max 0)
  (s.setFld Reg.POW_STAT Fld.POW_STAT_EMERG (min lv 2)).demandAll 0 (if 2 ≤ lv then 3 else 0)

/-- A Warning or Critical condition begins. -/
def State.powerBegins (s : State) (row measured : Nat) : State :=
  if s.power.active.contains row then s
  else
    let lv := rowLevel row
    let s1 := (s.bump Reg.POW_CNT (if lv = 1 then Fld.POW_CNT_WARN else Fld.POW_CNT_CRIT)).fault 0x0501 lv srcHw row (leBytes 4 measured)
    let s2 := { s1.pldm 1 row with power := { s1.power with active := s1.power.active ++ [row] } }
    ((if 2 ≤ lv then s2.each (List.range 4) fun s q => s.dropRaise q else s2).freshPower).freshBoost

/-- A condition has ended. -/
def State.powerEnds (s : State) (row : Nat) : State :=
  if s.power.active.contains row then
    ({ s with power := { s.power with active := s.power.active.filter (· != row) } }.freshPower).freshBoost
  else s

/-! ## The hardware governor (R480 to R482) -/

/-- The governor comes into force. -/
def State.governorOn (s : State) : State :=
  ((s.setFlag Reg.POW_STAT Fld.POW_STAT_GOV true).demandAll 1 3).freshBoost

/-- PTP is ALIVE: the governor is not in force any more; its demand is released a point at a time. -/
def State.governorOff (s : State) : State :=
  { s.setFlag Reg.POW_STAT Fld.POW_STAT_GOV false with power := { s.power with govStep := s.now } }

/-- GOVERNOR_RELEASE: one operating point per 1 ms. -/
def execGovernorRelease (at_ : Nat) (s : State) : Res :=
  let s := s.tick at_
  .next (
    let d := tget 0 s.power.ceil 4
    if s.flag Reg.POW_STAT Fld.POW_STAT_GOV || d = 0 || s.now < s.power.govStep + 1000000 then s
    else { s with power := { s.power with govStep := s.now } }.demandAll 1 (d - 1))

end Sys2Proof.Machine
end

