-- ==== Sys2Proof/Machine/Hkc.lean ====
section
/-! DEFINITION. The housekeeping converters: sequencer, integration periods, result queue, reference, and the fit of the power
estimate; phases of the input converter (R418, R427, R438 to R443, R451). -/

namespace Sys2Proof.Machine

/-! ## The integration period (R439) -/

/-- The period that a configuration word selects, in us. -/
def periodUs (cfg : Nat) : Rat :=
  match bitsOf cfg 0 2 with
  | 0 => 10000 / 3
  | 1 => 25000 / 9
  | _ => ((max 100 (min 20000 (bitsOf cfg 2 15)) : Nat) : Rat)

/-- Reference in force: 0 bandgap, 1 REF_IN, 2 supply (R443, R450). -/
def refSel (cfg : Nat) : Nat := bitsOf cfg 17 2 % 3

/-- A code at either end of its range carries OVR (R440). -/
def codeOver (c : Int) : Bool := decide (524287 ≤ c) || decide (c ≤ -524287)

/-- A code as the converter gives it: within its range. -/
def codeClamp (c : Int) : Int := max (-524287) (min 524287 c)

/-- A reserved channel: it converts as 0 with OVR set (R440). -/
def channelReserved (current : Bool) (ch : Nat) : Bool := 22 ≤ ch || (current && (ch == 19 || ch == 20))

/-! ## The result queue (R442, R451) -/

/-- QLEVEL from the queue. -/
def State.setQueue (s : State) (q : List HRes) : State :=
  { s with hkc := { s.hkc with queue := q } }.setFld Reg.HKC_STAT Fld.HKC_STAT_QLEVEL q.length

/-- The word of one result, CODE to SEQ. -/
def resultWord (code : Int) (ch : Nat) (current : Bool) (conv entry rep : Nat) (ovr unset : Bool) (seq : Nat) : Word64 :=
  BitVec.ofNat 64 (unsigned 20 code + ch % 32 * 2 ^ 20 + b2n current * 2 ^ 25 + conv % 16 * 2 ^ 26 + entry % 64 * 2 ^ 30 +
    rep % 256 * 2 ^ 36 + b2n ovr * 2 ^ 44 + b2n unset * 2 ^ 45 + 2 ^ 46 + seq % 65536 * 2 ^ 47)

/-- One result enters the queue; on a full queue it is dropped and counted, and SEQ runs on. -/
def State.pushResult (s : State) (code : Int) (ch : Nat) (current : Bool) (conv entry rep : Nat) : State :=
  let res := channelReserved current ch
  let c := if res then 0 else codeClamp code
  let ovr := res || codeOver c
  let unset := !(s.flag Reg.HKC_STAT Fld.HKC_STAT_REF_SETTLED)
  let w := resultWord c ch current conv entry rep ovr unset s.hkc.seq
  let s1 := { s with hkc := { s.hkc with seq := (s.hkc.seq + 1) % 65536 } }
  let s2 := (s1.when unset fun s => s.bump Reg.HKC_CNT Fld.HKC_CNT_UNSETTLED).when ovr fun s => s.bump Reg.HKC_CNT Fld.HKC_CNT_OVERRANGE
  if s2.hkc.queue.length < 256 then s2.setQueue (s2.hkc.queue ++ [⟨w⟩]) else s2.bump Reg.HKC_CNT Fld.HKC_CNT_QOVF

/-- What QREAD returns, and the queue after the consumer's read. -/
def State.popResult (s : State) : Word64 × State :=
  match s.hkc.queue with
  | [] => (0, s)
  | r :: t => (r.word, s.setQueue t)

/-! ## The fit (R427) -/

/-- Mean of a list; 0 of none. -/
def meanRat (l : List Rat) : Rat := if l.isEmpty then 0 else l.sum / (l.length : Nat)

/-- Nearest integer, halves up. -/
def nearest (x : Rat) : Int := (x + 1 / 2).floor

/-- Gain and offset, in quarter watts, that R427 computes from the pairs kept. -/
def fitPairs (ps : List (Rat × Rat)) (gain : Rat) : Rat × Rat :=
  let xs := ps.map Prod.fst
  let ys := ps.map Prod.snd
  let n : Rat := ((ps.length : Nat) : Rat)
  let hi := xs.foldl max (xs.headD 0)
  let lo := xs.foldl min (xs.headD 0)
  let den := n * (xs.map fun x => x * x).sum - xs.sum * xs.sum
  if meanRat xs / 20 ≤ hi - lo && den ≠ 0 then
    let g := (n * (ps.map fun p => p.1 * p.2).sum - xs.sum * ys.sum) / den
    (g, (ys.sum - g * xs.sum) / n)
  else (gain, meanRat (ps.map fun p => p.2 - gain * p.1))

/-- PTP fits the estimate to Pm (in quarter watts) of the period that ends. -/
def State.fitEstimate (s : State) (pm : Rat) : State :=
  if !(s.alive 1) || s.hkc.skipFit || !(s.flag Reg.HKC_STAT Fld.HKC_STAT_REF_SETTLED) || s.power.peN = 0 then s
  else
    let avg : Rat := (s.power.peSum : Rat) / (s.power.peN : Nat)
    let ps := ((avg, pm) :: s.power.fit).take 8
    let (g, o) := fitPairs ps ((s.fld Reg.POW_EST_CAL Fld.POW_EST_CAL_GAIN : Rat) / 16384)
    let s1 := { s with power := { s.power with fit := ps } }
    if 4 / 5 ≤ g && g ≤ 5 / 4 && -800 ≤ o && o ≤ 800 then
      (s1.setFld Reg.POW_EST_CAL Fld.POW_EST_CAL_GAIN (nearest (g * 16384)).toNat).setFld Reg.POW_EST_CAL Fld.POW_EST_CAL_OFFSET
        (unsigned 16 (nearest o))
    else s1.bump Reg.POW_CNT Fld.POW_CNT_EST_REJECT

/-! ## Events -/

/-- The converter sheds two of its four phases below 800 W of input power, measured in quarter watts, and restores them above 900 W (R418). -/
def State.shedPhases (s : State) (pm : Rat) : State :=
  { s with power := { s.power with phases := if pm < 3200 then 2 else if 3600 < pm then 4 else s.power.phases } }

/-- Periods in a row whose Pm, in quarter watts, exceeds CAP_EFF by more than 5 % and by more than 10 % (R436). -/
def State.countOver (s : State) (pm : Rat) : State :=
  let c : Rat := (s.capQ : Rat)
  { s with power := { s.power with over5 := if 105 * c < 100 * pm then s.power.over5 + 1 else 0,
                                   over10 := if 110 * c < 100 * pm then s.power.over10 + 1 else 0 } }

/-- A condition of R436 by its row: cap overruns are measured on pair 0, in two periods in a row; the others are comparators' findings. -/
def State.rowHolds (s : State) (row : Nat) : Bool :=
  match row with
  | 3 => decide (2 ≤ s.power.over5)
  | 4 => decide (2 ≤ s.power.over10)
  | _ => true

/-- POW.INPUT of the period that ends, the converter's phases, the cap's overruns, and the fit. -/
def State.inputPeriod (s : State) (codeV codeI energy : Int) : State :=
  let scale := fun (c : Int) (k : Int) => (max 0 (codeClamp c * k / 524288)).toNat
  let pm : Rat := (energy : Rat) / periodUs s.hkc.cfgNow
  let r := Reg.POW_INPUT
  let s1 := s.setFld r Fld.POW_INPUT_VIN (min 16383 (scale codeV 10240))
  let s2 := s1.setFld r Fld.POW_INPUT_IIN (min 8191 (scale codeI 8192))
  ((s2.setFld r Fld.POW_INPUT_PIN (min 65535 pm.floor.toNat)).shedPhases pm |>.countOver pm).fitEstimate pm

/-- A period boundary of pair 0: the period and the reference written since come into force (R439, R443). -/
def State.periodBoundary (s : State) : State :=
  let cfg := (s.reg Reg.HKC_CFG).toNat % 2 ^ 19
  let change := refSel cfg ≠ refSel s.hkc.cfgNow
  let s1 := { s with hkc := { s.hkc with cfgNow := cfg }, power := { s.power with peSum := 0, peN := 0 } }
  let s2 := if change then { s1 with hkc := { s1.hkc with refAt := s.now } }.setFlag Reg.HKC_STAT Fld.HKC_STAT_REF_SETTLED false else s1
  { s2 with hkc := { s2.hkc with skipFit := !(s2.flag Reg.HKC_STAT Fld.HKC_STAT_REF_SETTLED) || tget 0 s2.hkc.calLeft 0 ≠ 0 } }

/-- A period that calibration takes passes (R441). -/
def State.calPeriod (s : State) (pair : Nat) : State :=
  { s with hkc := { s.hkc with calLeft := tset 0 s.hkc.calLeft pair (tget 0 s.hkc.calLeft pair - 1) } }

/-- INTEGRATION_PERIOD_END of a pair: pair 0 gives Pm, the others two results. `energy` is the energy count of pair 0 in
quarter-watt us. -/
def execIntegrationPeriodEnd (pair : Nat) (codeV codeI energy : Int) (at_ : Nat) (s : State) : Res :=
  let s := s.tick at_
  onObject (decide (pair < 6))
    (let cal := tget 0 s.hkc.calLeft pair ≠ 0
     if pair = 0 then (if cal then s.calPeriod 0 else s.inputPeriod codeV codeI energy).periodBoundary
     else if cal then s.calPeriod pair
     else
       let b := tget (⟨0, 0, 0, 0, 0⟩ : HPair) s.hkc.busy pair
       if (tkeys s.hkc.busy).contains pair then
         let s1 := (s.pushResult codeV b.chV false (2 * pair) b.entry b.rep).pushResult codeI b.chI true (2 * pair + 1) b.entry b.rep
         let busy := if b.left = 0 then tdel pair s1.hkc.busy else tins pair { b with left := b.left - 1, rep := b.rep + 1 } s1.hkc.busy
         { s1 with hkc := { s1.hkc with busy := busy } }
       else s)

/-- The first entry with a pair from the cursor on, walking the table as R441 does. -/
def State.nextEntry (s : State) : Nat → Nat → Option Nat
  | 0, _ => none
  | k + 1, e =>
    let r := Reg.HKC_CHTBL e
    let p := s.fld r Fld.HKC_CHTBL_PAIR
    if 1 ≤ p && p ≤ 5 then some e
    else s.nextEntry k (if s.flag r Fld.HKC_CHTBL_LAST then 0 else (e + 1) % 64)

/-- SEQUENCER_ENTRY: the entry at the cursor is issued when its pair is free and the delay of the one before has passed. -/
def execSequencerEntry (at_ : Nat) (s : State) : Res :=
  let s := s.tick at_
  .next (
    let st := Reg.HKC_STAT
    if !(s.flag Reg.HKC_CFG Fld.HKC_CFG_RUN) then s.setFlag st Fld.HKC_STAT_SEQ_IDLE true
    else
      match s.nextEntry 128 (s.fld st Fld.HKC_STAT_CURSOR) with
      | none => s.setFlag st Fld.HKC_STAT_SEQ_IDLE true
      | some e =>
        let r := Reg.HKC_CHTBL e
        let p := s.fld r Fld.HKC_CHTBL_PAIR
        let s1 := (s.setFlag st Fld.HKC_STAT_SEQ_IDLE false).setFld st Fld.HKC_STAT_CURSOR e
        if s.now < s.hkc.nextAt || (tkeys s.hkc.busy).contains p || tget 0 s.hkc.calLeft p ≠ 0 then s1
        else
          let b : HPair := ⟨e, s.fld r Fld.HKC_CHTBL_CH_V, s.fld r Fld.HKC_CHTBL_CH_I, s.fld r Fld.HKC_CHTBL_REPEAT, 0⟩
          { s1 with hkc := { s1.hkc with busy := tins p b s1.hkc.busy, nextAt := s.now + 1000 * s.fld r Fld.HKC_CHTBL_DELAY } }.setFld
            st Fld.HKC_STAT_CURSOR (if s.flag r Fld.HKC_CHTBL_LAST then 0 else (e + 1) % 64))

/-- REF_SETTLED: 5 ms after the change for the bandgap or the supply, at least 1 ms for REF_IN (R443). -/
def execRefSettled (at_ : Nat) (s : State) : Res :=
  let s := s.tick at_
  let wait := if refSel s.hkc.cfgNow = 1 then 1000000 else 5000000
  .next (s.when (decide (s.hkc.refAt + wait ≤ s.now)) fun s => s.setFlag Reg.HKC_STAT Fld.HKC_STAT_REF_SETTLED true)

end Sys2Proof.Machine
end

