-- ==== Sys2Proof/Machine/Resets.lean ====
section
/-! DEFINITION. What each reset clears: power-on, module, quadrant and function resets, the Trip that stops the converter, and the pins
that show them (R437, R458, R549, R550, R569, R574). -/

namespace Sys2Proof.Machine

/-! ## Where the module stands -/

/-- PHASE of CLK.START (R560). -/
def State.phase (s : State) : Nat := s.fld Reg.CLK_START Fld.CLK_START_PHASE

/-- A start-up step begins. -/
def State.setPhase (s : State) (k : Nat) : State :=
  { s.setFld Reg.CLK_START Fld.CLK_START_PHASE k with clk := { s.clk with stepAt := s.now } }

/-- PWR_GOOD holds: the rails are up (R420, R554). -/
def State.powered (s : State) : Bool := 4 ≤ s.phase

/-- The host link answers: from the end of step 8 on, and in recovery (R554). -/
def State.hostUp (s : State) : Bool := 9 ≤ s.phase || s.clk.stopped

/-- An access reaches the module: the host link is up and the function decodes its BARs (R554); one of a function that does not decode
them is an Unsupported Request (R573). -/
def State.hostAccess (s : State) (fn : Nat) (isRead : Bool) (f : State → State) : State :=
  if !s.hostUp then s else if s.decodes fn then f s else s.urAt fn isRead

/-- PWRGD is released while PWR_GOOD holds (R569). -/
def State.pinPwrgd (s : State) : Bool := s.powered

/-- TRIP# is high: it is low from a Trip until the next start-up passes step 3 (R569). -/
def State.pinTrip (s : State) : Bool := s.powered || !(s.therm.tripped || s.power.tripCause.isSome)

/-! ## The maps and their record (R596 to R598) -/

/-- Location bits of CFG.TILE_MAP and CFG.PHYS_MAP as they stand, where they differ from R19's assignment. -/
def State.mapRecord (s : State) : Tbl Word64 :=
  let t := (List.range 1024).filterMap fun i =>
    let r := Reg.CFG_TILE_MAP i
    let v : Word64 := BitVec.ofNat 64 ((s.reg r).toNat % 2 ^ 13)
    if v = r.dflt then none else some (r.key, v)
  let p := (List.range 1088).filterMap fun i =>
    let r := Reg.CFG_PHYS_MAP i
    if s.reg r = r.dflt then none else some (r.key, s.reg r)
  t ++ p

/-- SPARES and UNAVAIL of each quadrant from the maps. -/
def State.countMaps (s : State) : State :=
  s.each (List.range 4) fun s q =>
    let spares := ((List.range 272).filter fun k => s.physSt (q * 272 + k) == 0).length
    let gone := ((List.range 256).filter fun k => !(s.flag (Reg.CFG_TILE_MAP (q * 256 + k)) Fld.CFG_TILE_MAP_AVAIL)).length
    (s.setFld (Reg.TILE_QFLT q) Fld.TILE_QFLT_SPARES spares).setFld (Reg.TILE_QFLT q) Fld.TILE_QFLT_UNAVAIL gone

/-! ## Power-on and module reset (R549) -/

/-- Registers of the housekeeping converters, which VHK feeds. -/
def hkcKey (k : Nat) : Bool := 0x120000 ≤ k && k < 0x130000

/-- Everything cleared but flash, fuses and what the outside holds; a module reset (`cold` false) keeps the VHK domain and the
sideband too. The maps read as the map record has them, and the fault log is the one in flash (R509, R596). -/
def State.cleared (s : State) (cold : Bool) : State :=
  let maps := s.flash.mapRec.getD []
  let t := s.therm
  let s1 : State := { State.reset with
    pending := s.pending, now := s.now, free := s.free, hostMem := s.hostMem, out := s.out, flash := s.flash
    regs := if cold then maps else maps ++ s.regs.filter fun e => hkcKey e.1
    fabric := { sent := s.fabric.sent }
    power := { tripCause := s.power.tripCause }
    therm := { tripped := t.tripped, lastTrip := t.lastTrip, tripMax := t.tripMax, offAt := t.offAt }
    clk := { count := s.clk.count, perstLow := s.clk.perstLow }
    sec := { nextKey := s.sec.nextKey, devKey := s.sec.devKey }
    pcie := { s.pcie with vfEnable := false, numVfs := 0, msixOn := [], funcMask := [], unmasked := [], pendingBits := [] }
    hkc := if cold then {} else s.hkc
    side := if cold then {} else s.side
    faultLog := s.flash.flog.getD {} }
  let s2 := (s1.countMaps).setFld Reg.THM_STAT Fld.THM_STAT_LAST_TRIP t.lastTrip
  if s.flash.flogBad then s2.fault 0x0703 0 0 0 [] else s2

/-- A Trip: the converter stops and every rail discharges (R437, R458). -/
def State.powerOff (s : State) : State :=
  let s1 := s.cleared true
  { s1 with therm := { s1.therm with offAt := s.now } }

/-- A start-up begins at step `k`. -/
def State.startAt (s : State) (k : Nat) : State :=
  { s with clk := { s.clk with firstAt := s.now, count := s.clk.count + 1 } }.setPhase k

/-- A module reset: the rails stay up, so the governor holds until PTP is ALIVE (R480, R549). -/
def State.moduleReset (s : State) : State :=
  if s.powered then ((s.cleared false).startAt 4).governorOn else s

/-! ## Quadrant reset (R550) -/

/-- Quadrant that a register's instance lives in; none for SVC (R585). -/
def RegRow.quadOf (r : RegRow) (i : Nat) : Option Nat :=
  match r.dom with
  | .svc => none
  | .tile => some (i / 256)
  | .quad => some i
  | .laser => some (i / 256)
  | .cluster => some (i / 512)
  | .stack => some (i / 8)

/-- Instance of a row at a BAR0 offset. -/
def RegRow.instAt (r : RegRow) (off : Nat) : Option Nat :=
  if off < r.base then none
  else if r.stride = 0 then (if off = r.base then some 0 else none)
  else if (off - r.base) % r.stride = 0 && (off - r.base) / r.stride < r.count then some ((off - r.base) / r.stride) else none

/-- A register at a key lives in quadrant q. -/
def inQuadDom (q k : Nat) : Bool :=
  regRows.any fun r => match r.instAt k with
    | some i => r.quadOf i == some q
    | none => false

/-- The registers of a quadrant's dies as after reset. -/
def State.clearQuadRegs (s : State) (q : Nat) : State := { s with regs := s.regs.filter fun e => !(inQuadDom q e.1) }

/-- The tiles, physical tiles, lasers and rings of a quadrant as after reset; retirements stay. -/
def State.clearQuadDies (s : State) (q : Nat) : State :=
  let wipe := fun (x : Tile) => { ({} : Tile) with
    retiring := x.retiring, buddy := x.buddy, unavail := x.unavail, lastPart := x.lastPart, assigned := x.assigned, spare := x.spare }
  let keep := fun (a : Arr) => { ({} : Arr) with retCols := a.retCols, retired := a.retired }
  { s with
    tiles := (s.tiles.map fun e => if e.1 / 256 = q then (e.1, wipe e.2) else e).filter fun e => e.2 != {}
    phys := (s.phys.map fun (e : Nat × Phys) =>
      if e.1 / 272 = q then (e.1, { ({} : Phys) with arrays := (e.2.arrays.map fun a => (a.1, keep a.2)).filter fun a => a.2 != {} }) else e).filter
        fun e => e.2 != {}
    lasers := s.lasers.filter fun e => e.1 / 256 != q
    rings := s.rings.filter fun e => e.1 / 128 / 512 != q }

/-- A quadrant reset. A second one of the same quadrant during the first is ignored. -/
def State.quadReset (s : State) (q : Nat) : State :=
  if !s.ready || bitOf (s.fld Reg.CLK_START Fld.CLK_START_QRST) q then s
  else
    let hit := s.present.filter fun l => (s.place l).cfg.tiles.any fun t => t / 256 == q
    let s1 := s.each hit fun s l => s.fenceWork l
    let s2 := s1.each (s1.cached q) fun s i => (s.writeBack i).setAux i { (s.writeBack i).auxOf i with lru := 0 }
    let s3 := s2.each ((List.range 6).map (6 * q + ·)) fun s n => if s.portSt n = 0 then s else s.portDown n 3
    let s4 := (s3.pcpGone q).setFlag (Reg.FWP_PROC (4 + q)) Fld.FWP_PROC_ALIVE false
    let s5 := ((s4.abandonRuns (objQuad q) false).clearQuadRegs q).clearQuadDies q
    { s5 with clk := { s5.clk with quadPhase := tset 0 s5.clk.quadPhase q 8 } }.setFld Reg.CLK_START Fld.CLK_START_QRST
      (s5.fld Reg.CLK_START Fld.CLK_START_QRST + 2 ^ q)

/-! ## Commands -/

/-- A write of CLK.RESET by a function: PF0 only, any other write is logged (R556, R559). -/
def State.resetWrite (s : State) (fn : Nat) (f : State → State) : State :=
  s.hostAccess fn false fun s => if fn ≠ 0 then s.refuseWrite fn 0x20018 else f s

/-- MODULE_RESET: CLK.RESET written with MODULE 1, which takes precedence over QUAD. -/
def execModuleReset (fn : Nat) (_quads : BitVec 4) (s : State) : Res := .next (s.resetWrite fn State.moduleReset)

/-- QUADRANT_RESET: CLK.RESET written with MODULE 0; bit q of QUAD resets Q q. -/
def execQuadrantReset (fn : Nat) (quads : BitVec 4) (s : State) : Res :=
  .next (s.resetWrite fn fun s => s.each ((List.range 4).filter fun q => bitOf quads.toNat q) fun s q => s.quadReset q)

/-- PERST: PERST# has been low for `lowNs`; a pulse shorter than 100 us is ignored (R574). -/
def execPerst (lowNs : Nat) (s : State) : Res :=
  .next (if lowNs < 100000 then s else { s with clk := { s.clk with perstLow := true } }.moduleReset)

/-- PERST_RELEASE: a sequence held at step 4 begins it (R574). -/
def execPerstRelease (at_ : Nat) (s : State) : Res :=
  let s := s.tick at_
  .next (
    let s1 := { s with clk := { s.clk with perstLow := false } }
    if s.clk.perstLow && s.phase = 4 then s1.setPhase 4 else s1)

/-- A function-level reset of a function: its ring pairs as when EN is cleared (R318), and its MSI-X state (R284, R549). -/
def State.flr (s : State) (f : Nat) : State :=
  ((s.each (List.range 17) fun s r => if s.pairOn f r then s.ringOff f r else s).fenceSweep f).msixReset f

/-- FUNCTION_LEVEL_RESET of the function of partition p, where it is enabled (R572, R573). -/
def execFunctionLevelReset (p : Nat) (s : State) : Res := onObject (decide (p < 64)) (if s.hostUp && s.enabledFn p then s.flr p else s)

/-- D3HOT: on a VF it acts as a function-level reset; on PF0 it is refused (R572). -/
def execD3hot (fn : Nat) (s : State) : Res := onObject (decide (fn < 64)) (if s.hostUp && s.enabledFn fn && fn ≠ 0 then s.flr fn else s)

/-- REFERENCE_LOSS: the monitors put the PLLs into holdover; work and module time go on (R542). -/
def execReferenceLoss (s : State) : Res :=
  .next (
    if !s.clk.running || s.flag Reg.CLK_STAT Fld.CLK_STAT_HOLDOVER then s
    else (((s.setFlag Reg.CLK_STAT Fld.CLK_STAT_HOLDOVER true).setFlag Reg.CLK_STAT Fld.CLK_STAT_REF_OK false).bump
      Reg.CLK_STAT Fld.CLK_STAT_REF_LOSS).pldm 4 0)

/-- REFERENCE_RESTORED: after 1 ms of a valid reference the PLLs relock (R542). -/
def execReferenceRestored (validNs : Nat) (s : State) : Res :=
  .next (
    if s.flag Reg.CLK_STAT Fld.CLK_STAT_HOLDOVER && 1000000 ≤ validNs then
      (s.setFlag Reg.CLK_STAT Fld.CLK_STAT_HOLDOVER false).setFlag Reg.CLK_STAT Fld.CLK_STAT_REF_OK true
    else s)

/-- POWER_EMERGENCY: a condition of R436 holds; a Trip row stops the converter and latches its cause (R437). -/
def execPowerEmergency (row : PowerRow) (measured at_ : Nat) (s : State) : Res :=
  let s := s.tick at_
  onObject (decide (row < 7))
    (if !s.powered || !(s.rowHolds row) then s
     else if rowLevel row = 3 then { s with power := { s.power with tripCause := some (row, measured) } }.powerOff
     else s.powerBegins row measured)

/-- CRITICAL_RELEASE: a condition has been absent for its time; a Critical one's demand returns to OP0 (R437). -/
def execCriticalRelease (row : PowerRow) (at_ : Nat) (s : State) : Res :=
  let s := s.tick at_
  onObject (decide (row < 7)) (s.powerEnds row)

end Sys2Proof.Machine
end

