-- ==== Sys2Proof/Machine/Thermal.lean ====
section
/-! DEFINITION. Temperature sensors, regions, bands and thermal emergencies (R453 to R461). Temperatures are in units of 0.0625 C. -/

namespace Sys2Proof.Machine

/-- Sensors of a region (R453). -/
def sensorsOf (r : Nat) : Nat :=
  if r < 4 then 272 else if r < 8 then 278 else if r < 12 then 8 else if r = 12 then 2 else 1

/-- Regions with a rise rate (R455). -/
def hasRate (r : Nat) : Bool := r < 8 || r == 12

/-! ## Sensors (R454) -/

/-- A reading of sensor k of region r. -/
def State.readSensor (s : State) (r k : Nat) (t : Int) : State :=
  let key := sensorKey r k
  let old := tget 0 s.therm.sensor key
  let moved := s.therm.known.contains r && (decide (160 < t - old) || decide (160 < old - t))
  let good := decide (-320 ≤ t ∧ t ≤ 2240) && !moved
  let bad := tget 0 s.therm.bad key
  let bad1 := if good then (if bad = 0 || 100 ≤ bad then 0 else bad + 1) else 1
  let s1 := { s with therm := { s.therm with sensor := tset 0 s.therm.sensor key t, bad := tset 0 s.therm.bad key bad1 } }
  if bad = 0 && !good then
    (s1.bump Reg.THM_CNT Fld.THM_CNT_SENSOR_FAIL).fault 0x0502 1 srcHw r (leBytes 2 (s.fld (Reg.THM_REGION r) Fld.THM_REGION_TMAX))
  else s1

/-- Sensors of a region that have not failed. -/
def State.goodSensors (s : State) (r : Nat) : List Nat :=
  (List.range (sensorsOf r)).filter fun k => tget 0 s.therm.bad (sensorKey r k) == 0

/-- The region's maximum from the sensors that have not failed; with none left it stays. -/
def State.regionMax (s : State) (r : Nat) : Int :=
  match (s.goodSensors r).map fun k => tget 0 s.therm.sensor (sensorKey r k) with
  | [] => signed 12 (s.fld (Reg.THM_REGION r) Fld.THM_REGION_TMAX)
  | t :: ts => ts.foldl max t

/-! ## Rise rate (R455) -/

/-- Rise rate in units of 0.25 C/ms from the maximum 250 us earlier, if that was sampled; and the history after the sample. -/
def riseRate (hist : List (Nat × Int)) (now : Nat) (t : Int) : Option Int × List (Nat × Int) :=
  let recent := hist.takeWhile fun e => now < e.1 + 250000
  match hist.drop recent.length with
  | e :: _ => (some (t - e.2), (now, t) :: recent ++ [e])
  | [] => (none, (now, t) :: recent)

/-! ## Bands (R460, R461) -/

/-- The band whose boundary a temperature has reached. -/
def bandUp (t : Int) : Nat := if 1520 < t then 3 else if 1360 ≤ t then 2 else if 1040 ≤ t then 1 else 0
/-- The temperature below which a band is left downward. -/
def bandEdge (b : Nat) : Int := [(-32768 : Int), 1008, 1328, 1488].getD b 1488

/-- Band and time below its edge (1 + since when) after a sample. -/
def bandStep (b below now : Nat) (t : Int) : Nat × Nat :=
  if b < bandUp t then (bandUp t, 0)
  else if t < bandEdge b then
    if below = 0 then (b, now + 1)
    else if below - 1 + 1000000 ≤ now then (b - 1, if t < bandEdge (b - 1) then now + 1 else 0)
    else (b, below)
  else (b, 0)

/-- Key of the band that the maximum of a region has. -/
def regionBandKey (r : Nat) : Nat := sensorKey r 511

/-- Heater drives outside the window of the band's set are clamped to it (R327, R461). -/
def State.clampDrives (s : State) (c : Nat) (rs : List Nat) : State :=
  s.each rs fun s r =>
    let x := s.ring c r
    let d := s.limitDrive c r x.drive
    if d = x.drive || !x.locked then s else s.setRing c r { x with drive := d }

/-- An object has changed its band: its run is asked for where the band has no set, its set comes into force at the cairn. -/
def State.objBand (s : State) (o : CalObj) : State :=
  let s1 := s.enterBand o
  if s1.objIdle o then s1.switchBand o else s1

/-- What the band change of one sensor's object brings. -/
def State.bandMoved (s : State) (r k : Nat) : State :=
  let s1 := s.bump Reg.THM_CNT Fld.THM_CNT_BAND_CHG
  if r < 4 then s1.objBand (.tile (r * 272 + k))
  else if r < 8 then
    let c := (r - 4) * 512 + k
    if k < 272 then (s1.objBand (.cluster c false)).clampDrives c (List.range 72)
    else (s1.each (List.range 17) fun s m => s.enterBand (.lane (17 * (6 * (r - 4) + k - 272) + m))).clampDrives c (List.range 34)
  else s1

/-- A band's record at a key after a sample; it answers whether the band changed. -/
def State.stepBand (s : State) (key : Nat) (t : Int) : State × Bool :=
  let b := tget 0 s.therm.bands key
  let (b1, w) := bandStep b (tget 0 s.therm.below key) s.now t
  ({ s with therm := { s.therm with bands := tset 0 s.therm.bands key b1, below := tset 0 s.therm.below key w } }, b1 != b)

/-- The bands of a region's objects, and of the region's maximum, which is a photonic die's own in regions 4 to 7. -/
def State.stepBands (s : State) (r : Nat) (max_ : Int) : State :=
  let s1 := if r < 12 then
      s.each (List.range (sensorsOf r)) fun s k =>
        let (s1, ch) := s.stepBand (sensorKey r k) (s.tempAt r k)
        if ch then s1.bandMoved r k else s1
    else s
  if 12 < r then s1
  else
    let (s2, ch) := s1.stepBand (regionBandKey r) max_
    let s3 := s2.setFld (Reg.THM_REGION r) Fld.THM_REGION_BAND (tget 0 s2.therm.bands (regionBandKey r))
    if ch && 4 ≤ r && r < 8 then
      (s3.bump Reg.THM_CNT Fld.THM_CNT_BAND_CHG).each (((List.range 256).map fun k => 256 * (r - 4) + k).filter laserOk) fun s n =>
        (s.enterBand (.laser n)).setLaser n { s.laser n with heater := s.limitTune n (s.laser n).heater }
    else s3

/-! ## Conditions (R456, R457) -/

/-- RISE_WARN as it acts. -/
def State.riseWarn (s : State) : Int := (max 1 (s.fld Reg.THM_CFG Fld.THM_CFG_RISE_WARN) : Nat)
/-- RISE_CRIT as it acts. -/
def State.riseCrit (s : State) : Int := max s.riseWarn (s.fld Reg.THM_CFG Fld.THM_CFG_RISE_CRIT : Nat)

/-- Quadrants that a region's conditions act on; the coolant's act on none (4). -/
def condQuads (r : Nat) : List Nat := if r < 12 then [r % 4] else if r = 12 then [0, 1, 2, 3] else [4]

/-- A condition's row holds now: 0 from 95 C, 1 and 2 the rise rates, 3 from 105 C, 4 the coolant. -/
def State.condHolds (s : State) (row : Nat) (t : Int) (rate : Option Int) : Bool :=
  match row, rate with
  | 0, _ => decide (1520 ≤ t)
  | 1, some d => decide (s.riseWarn < d)
  | 2, some d => decide (s.riseCrit < d)
  | 3, _ => decide (1680 ≤ t)
  | 4, _ => decide (16 * (s.fld Reg.THM_CFG Fld.THM_CFG_COOL_WARN : Int) < t)
  | _, _ => false

/-- What a row needs to hold for its time before it ends. -/
def State.condClear (s : State) (row : Nat) (t : Int) (rate : Option Int) : Bool :=
  match row with
  | 0 => decide (t < 1488)
  | 3 => decide (t < 1648)
  | _ => !(s.condHolds row t rate)

/-- For how long. -/
def condTime (row : Nat) : Nat :=
  match row with
  | 0 | 3 => 10000000
  | 4 => 1000000000
  | _ => 1000000

/-- Level of a row: 1 Warning, 2 Critical. -/
def condLevel (row : Nat) : Nat := if row = 2 || row = 3 then 2 else 1

/-- The operating point a row demands at once of a quadrant that runs at `cur`. -/
def condFirst (row cur : Nat) : Nat :=
  match row with
  | 0 => min 3 (cur + 1)
  | 1 => min 5 (cur + 1)
  | 2 => min 5 (cur + 2)
  | 3 => 5
  | _ => 0

/-- A condition of a region is active. -/
def State.condOn (s : State) (r row : Nat) : Bool := s.therm.conds.any fun c => c.region == r && c.row == row && !c.ended

/-- A condition that is active, after a sample. -/
def State.condStep (s : State) (t : Int) (rate : Option Int) (c : Cond) : Cond :=
  let holds := s.condHolds c.row t rate
  let due := c.stepAt + 1000000 ≤ s.now
  let d := if due && holds && c.row < 3 then min (if c.row = 0 then 3 else 5) (c.demand + 1) else c.demand
  let c1 := { c with stepAt := c.stepAt + (s.now - c.stepAt) / 1000000 * 1000000, demand := d }
  if s.condClear c.row t rate then
    let since := c.clearAt.getD s.now
    if since + condTime c.row ≤ s.now then { c1 with ended := true, demand := c1.demand - 1, stepAt := s.now, clearAt := none }
    else { c1 with clearAt := some since }
  else { c1 with clearAt := none }

/-- Ceilings, boosts, EMERG, COOL_ALM and LEVEL from the conditions. -/
def State.freshTherm (s : State) (r : Nat) : State :=
  let live := s.therm.conds.filter fun c => !c.ended
  let lv := (live.map Cond.level).foldl max 0
  let mine := ((live.filter fun c => c.region == r).map Cond.level).foldl max 0
  let s1 := ((s.setFld Reg.THM_STAT Fld.THM_STAT_EMERG lv).setFlag Reg.THM_STAT Fld.THM_STAT_COOL_ALM (s.condOn 13 4)).setFld
    (Reg.THM_REGION r) Fld.THM_REGION_LEVEL mine
  (s1.each (List.range 4) fun s q => s.freshCeil q).freshBoost

/-- A condition begins: it is logged, reported and counted, and drops a raise that waits where it is Critical. -/
def State.condBegins (s : State) (r row : Nat) : State :=
  let lv := condLevel row
  let rest := s.therm.conds.filter fun c => !(c.region == r && c.row == row)
  let new := (condQuads r).map fun q => ({ region := r, quad := q, row := row, level := lv, demand := condFirst row (s.opNow q), stepAt := s.now } : Cond)
  let s1 := { s with therm := { s.therm with conds := rest ++ new } }
  let s2 := (s1.bump Reg.THM_CNT (if lv = 1 then Fld.THM_CNT_WARN else Fld.THM_CNT_CRIT)).fault 0x0502 lv srcHw r
    (leBytes 2 (s.fld (Reg.THM_REGION r) Fld.THM_REGION_TMAX))
  let s3 := if row = 1 || row = 2 then s2.bump Reg.THM_CNT Fld.THM_CNT_RISE else s2
  (if lv = 2 then s3.each (List.range 4) fun s q => s.dropRaise q else s3).pldm 2 r

/-- Rows that a region is compared against, Critical before Warning. -/
def condRows (r : Nat) : List Nat := if r ≤ 12 then [3, 2, 0, 1] else if r = 13 then [4] else []

/-- The conditions of a region after a sample. While the RISE_CRIT row is active the RISE_WARN row does not begin. -/
def State.stepConds (s : State) (r : Nat) (t : Int) (rate : Option Int) : State :=
  let cs := s.therm.conds.map fun c => if c.region = r && !c.ended then s.condStep t rate c else c
  let rises := (s.therm.conds.zip cs).filter fun x => x.1.region == r && (x.1.row == 1 || x.1.row == 2) && x.1.demand < x.2.demand
  let s1 := { s with therm := { s.therm with conds := cs.filter fun c => !(c.ended && c.demand == 0) } }
  let s2 := s1.bumpBy Reg.THM_CNT Fld.THM_CNT_RISE (rises.map fun x => x.1.row).eraseDups.length
  let s3 := s2.each (condRows r) fun s row =>
    if s.condHolds row t rate && !(s.condOn r row) && !(row == 1 && s.condOn r 2) then s.condBegins r row else s
  s3.freshTherm r

/-! ## Events -/

/-- THERMAL_SAMPLE of a region: `temps` gives its sensors in order. -/
def execThermalSample (region : Nat) (temps : List Int) (at_ : Nat) (s : State) : Res :=
  let s := s.tick at_
  onObject (decide (region < 15))
    (if !s.powered then s
     else
       let s0 := s.each ((List.range (sensorsOf region)).zip temps) fun s x => s.readSensor region x.1 x.2
       let t := s0.regionMax region
       let key := regionBandKey region
       let (rate, hist) := if hasRate region then riseRate (tget [] s0.therm.hist key) s0.now t else (none, [])
       let r := Reg.THM_REGION region
       let failed := sensorsOf region - (s0.goodSensors region).length
       let known := if s0.therm.known.contains region then s0.therm.known else region :: s0.therm.known
       let s1 := { s0 with therm := { s0.therm with known := known, hist := tset [] s0.therm.hist key hist } }
       let s2 := ((s1.setFld r Fld.THM_REGION_TMAX (unsigned 12 (max (-2048) (min 2047 t)))).setFld r Fld.THM_REGION_FAILED failed).setFld r
         Fld.THM_REGION_RATE (unsigned 8 (max (-128) (min 127 (rate.getD 0))))
       if region ≤ 12 && decide (1840 ≤ t) then
         { s2 with therm := { s2.therm with tripped := true, lastTrip := region, tripMax := t } }.powerOff
       else (s2.stepBands region t).stepConds region t rate)

/-- DEMAND_RELEASE: the demands of a region's ended conditions go down one operating point per ms. -/
def execDemandRelease (region at_ : Nat) (s : State) : Res :=
  let s := s.tick at_
  onObject (decide (region < 15))
    (let step := fun (c : Cond) =>
       if c.region = region && c.ended && c.stepAt + 1000000 ≤ s.now then { c with demand := c.demand - 1, stepAt := s.now } else c
     let s1 := { s with therm := { s.therm with conds := (s.therm.conds.map step).filter fun c => !(c.ended && c.demand == 0) } }
     s1.freshTherm region)

end Sys2Proof.Machine
end

