-- ==== Sys2Proof/Machine/Startup.lean ====
section
/-! DEFINITION. The start-up sequence: what each step leaves when it ends, for the whole module and for a quadrant in reset
(R245, R285, R345, R369, R472, R473, R549 to R555, R598, R600, R602). -/

namespace Sys2Proof.Machine

/-! ## Step 5: the boot record, the logs of a Trip (R437, R458, R472) -/

/-- What SEP's ROM reads at its start; latched Trip causes go to the fault log. -/
def State.readBoot (s : State) : State :=
  let r := Reg.FWP_BOOT
  let f := s.flash
  let s1 := ((s.setFld r Fld.FWP_BOOT_ACTIVE_BANK (if f.bootOk then f.active else 0)).setFld r Fld.FWP_BOOT_BOOT_SEQ
    (if f.bootOk then f.bootSeq else 0)).setFld r Fld.FWP_BOOT_MIN_SVN f.minSvn
  let s2 := (s1.wrReg Reg.SEC_CO_CTR (BitVec.ofNat 64 f.coCtr)).each (List.range 12) fun s i =>
    s.wrReg (Reg.SEC_DEVPUB i) (Config.devicePublicKey s.sec.devKey i)
  let s3 := match s2.power.tripCause with
    | some (row, v) => { s2.fault 0x0501 3 srcHw row (leBytes 4 v) with power := { s2.power with tripCause := none } }
    | none => s2
  if s3.therm.tripped then
    { s3.fault 0x0502 3 srcHw s3.therm.lastTrip (leBytes 2 (unsigned 12 (max (-2048) (min 2047 s3.therm.tripMax)))) with
      therm := { s3.therm with tripped := false } }
  else s3

/-! ## Steps 6 and 7: self-tests and the bundle (R471 to R473, R533, R534) -/

/-- The module enters recovery. -/
def State.enterRecovery (s : State) : State :=
  (s.setFlag Reg.FWP_BOOT Fld.FWP_BOOT_RECOVERY true).fault 0x0702 2 3 (s.fld Reg.FWP_BOOT Fld.FWP_BOOT_ACTIVE_BANK) []

/-- The header fields of a staged bundle lie in their ranges and its images inside BYTES (R471). A bundle as manufactured has them so. -/
def bundleFields (h : List Byte) : Bool :=
  let n := fun o => sliceNum h o 4
  h.isEmpty ||
    (n 0 == 0x0832F3B1 && n 4 == 1 && n 12 < 64 && 8192 ≤ n 16 && n 16 ≤ 24 * 2 ^ 20 && n 20 == 0 &&
      ((List.range 8).all fun i => n (24 + 32 * i) + n (28 + 32 * i) ≤ n 16 && sliceNum h (32 + 32 * i) 24 == 0) &&
      sliceNum h 472 3624 == 0)

/-- The bundle of a bank is valid; `sig`: its key digest and signature verify. -/
def State.bundleValid (s : State) (bank : Nat) (sig : Bool) : Bool :=
  sig && bundleFields (tget [] s.flash.bankHdr bank) && s.fld Reg.FWP_BOOT Fld.FWP_BOOT_MIN_SVN ≤ (tget (0, 0) s.flash.versions bank).2

/-- FWP.VER of a bank whose bundle has been verified. -/
def State.verified (s : State) (bank : Nat) (ok : Bool) : State :=
  let v := tget (0, 0) s.flash.versions bank
  let r := Reg.FWP_VER bank
  ((s.setFld r Fld.FWP_VER_VERSION v.1).setFld r Fld.FWP_VER_SVN v.2).setFlag r Fld.FWP_VER_VALID ok

/-- The boot verifies the active bank's bundle, then the other's. -/
def State.bootVerify (s : State) (sigs : List Nat) : State :=
  if s.flag Reg.FWP_BOOT Fld.FWP_BOOT_RECOVERY then s
  else
    let a := s.fld Reg.FWP_BOOT Fld.FWP_BOOT_ACTIVE_BANK
    let b := 1 - a
    let s1 := s.verified a (s.bundleValid a (sigs.contains a))
    if s.bundleValid a (sigs.contains a) then s1.setFld Reg.FWP_BOOT Fld.FWP_BOOT_BOOTED_BANK a
    else
      let s2 := s1.verified b (s.bundleValid b (sigs.contains b))
      if s.bundleValid b (sigs.contains b) then
        ((s2.setFld Reg.FWP_BOOT Fld.FWP_BOOT_BOOTED_BANK b).setFlag Reg.FWP_BOOT Fld.FWP_BOOT_FALLBACK true).fault 0x0702 1 3 b []
      else s2.enterRecovery.setFld Reg.SEC_STAT Fld.SEC_STAT_ERR_CAUSE 5

/-! ## Step 8: processors released -/

/-- What the processor of a quadrant brings: its loop parameters and the lasers' lifelong figures (R349, R350, R353). -/
def State.bootQuad (s : State) (q : Nat) : State :=
  let s1 := (s.setFlag (Reg.FWP_PROC (4 + q)) Fld.FWP_PROC_ALIVE true).wrReg (Reg.RNG_LOOP q)
    (BitVec.ofNat 64 (Config.loopParameters q s.clk.count).toNat)
  let s2 := s1.setFld Reg.CLK_STAT Fld.CLK_STAT_PLL_LOCK (s1.fld Reg.CLK_STAT Fld.CLK_STAT_PLL_LOCK ||| 2 ^ q)
  s2.each (((List.range 256).map (256 * q + ·)).filter laserOk) fun s n =>
    (s.setFld (Reg.LAS_BIAS n) Fld.LAS_BIAS_COMM (Config.commissioningPower n).toNat).setFld (Reg.LAS_STAT n) Fld.LAS_STAT_HOURS
      (tget 0 s.flash.hours n)

/-- Every processor takes up its duties; partition 0 has a key that nobody knows. -/
def State.release (s : State) : State :=
  let s1 := (s.each [0, 1, 2, 3] fun s i => s.setFlag (Reg.FWP_PROC i) Fld.FWP_PROC_ALIVE true).each [0, 1, 2, 3] fun s q => s.bootQuad q
  ((s1.setFlag Reg.SEC_STAT Fld.SEC_STAT_APPROVED true).clearKey 0).governorOff

/-! ## Step 9: stacks, the system region (R600) -/

/-- Quadrants that are not down. -/
def State.liveQuads (s : State) (qs : List Nat) : List Nat :=
  qs.filter fun q => !(bitOf (s.fld Reg.CLK_START Fld.CLK_START_QDOWN) q)

/-- Stacks trained: a quadrant with a stack that failed three times is down. -/
def State.trainStacks (s : State) (qs fails : List Nat) : State :=
  let down := (List.range 4).filter fun q =>
    if qs.contains q then fails.contains q else bitOf (s.fld Reg.CLK_START Fld.CLK_START_QDOWN) q
  s.setFld Reg.CLK_START Fld.CLK_START_QDOWN ((down.map fun q => 2 ^ q).sum)

/-- The element of a list that firmware's choice number `k` picks. -/
def State.choose (s : State) (k : Nat) (l : List Nat) : Nat := l.getD (Config.systemRegionChoice s.clk.count k % l.length) 0

/-- Firmware places the system region in a quadrant that is not down, and the tables and partition 0's ring area inside it. -/
def State.placeSystem (s : State) : State :=
  let units := (s.liveQuads [0, 1, 2, 3]).flatMap fun q => (List.range 384).map (384 * q + ·)
  if units.isEmpty then s
  else
    let u := s.choose 0 units
    let hist := s.choose 1 (List.range 4)
    let slots := (List.range 8).filter fun k => k / 2 != hist
    let ctx := s.choose 2 slots
    let areas := (List.range 32).filter fun a => a / 8 != hist && a / 4 != ctx
    let ring := s.choose 3 areas
    let bkt := 64 * s.choose 4 (areas.filter (· != ring)) + s.choose 5 (List.range 64)
    let s1 := (s.setFld Reg.SCH_SYS_RGN Fld.SCH_SYS_RGN_BASE u).setFld Reg.SCH_CTX_TBL Fld.SCH_CTX_TBL_BASE (8 * u + ctx)
    let s2 := (s1.setFld Reg.SCH_HIST_TBL Fld.SCH_HIST_TBL_BASE (4 * u + hist)).setFld Reg.SCH_BKT_TBL Fld.SCH_BKT_TBL_BASE (2048 * u + bkt)
    let s3 := (s2.setFld (Reg.SCH_RING_AREA 0) Fld.SCH_RING_AREA_BASE (32 * u + ring)).freshTables
    { s3 with mem := s3.mem.clear ((32 * u + ring) * 2 ^ 26) (2 ^ 26) }

/-! ## Step 10: self-test of SRAM, records from flash (R415, R553, R598) -/

/-- Retirements of arrays and columns of physical tile i from its KIND 2 record. -/
def State.takeRetirements (s : State) (i : Nat) (r : CalResult) : State :=
  s.each r.gains fun s e =>
    let x := s.phy i
    let a := tget {} x.arrays e.1
    let a1 := { a with retired := bitOf e.2 34, retCols := (List.range 34).filter fun j => bitOf e.2 j }
    s.setPhy i { x with arrays := tset {} x.arrays e.1 a1 }

/-- Retirements of every tile from the KIND 2 records; where neither slot is correct none is known, and that is logged. -/
def State.loadRetirements (s : State) : State :=
  s.each s.flash.calRecs fun s x => match x.obj, x.content with
    | .tile i, some r => s.takeRetirements i r
    | .tile _, none => s.calFault x.obj
    | _, _ => s

/-- Values of a calibration record put into effect as a starting point. -/
def State.takeFlashRecord (s : State) (o : CalObj) (r : CalResult) : State :=
  match o with
  | .tile _ => s
  | .cluster c _ => (s.takeHeaters c r).rampAll o r
  | .lane i =>
    { s with cal := { s.cal with laneTrim := r.trims.foldl (fun (m : Tbl Nat) (t : Nat × Nat) => tset 0 m (2 * i + t.1 % 2) t.2) s.cal.laneTrim } }
  | .laser n => s.setLaser n { s.laser n with table := r.gains.map Prod.snd }
  | .conv k => { s with cal := { s.cal with conv := tset (0, 0) s.cal.conv k r.conv } }

/-- A record of flash goes to the store; that of the set in force acts. -/
def State.loadRecord (s : State) (o : CalObj) (band : Nat) (r : CalResult) : State :=
  let bands := match o with
    | .laser _ => [0, 1, 2, 3]
    | _ => [band]
  let s1 := s.putSet o band r
  let s2 := { s1 with cal := { s1.cal with measured := (s1.cal.measured ++ bands.map fun b => (calKey o, b)).eraseDups } }
  if band = tget 0 s2.cal.setBand (calKey o) then s2.takeFlashRecord o r else s2

/-- The records of flash but the tiles' are loaded; where neither slot of one is correct the manufacturing record stands, and that is
logged (R415). -/
def State.loadRecords (s : State) (mine : CalObj → Bool) : State :=
  s.each (s.flash.calRecs.filter fun x => mine x.obj) fun s x => match x.obj, x.content with
    | .tile _, _ => s
    | o, some r => s.loadRecord o x.band r
    | o, none => s.calFault o

/-- Physical tiles of the quadrants that failed their self-test: a spare is retired, a serving tile's index goes to a spare or is
left unavailable. -/
def State.selfTests (s : State) (qs fails : List Nat) : State :=
  let mine := fails.filter fun i => (s.liveQuads qs).contains (i / 272) && s.physSt i != 2
  let s1 := s.each (mine.filter fun i => s.physSt i == 0) fun s i => (s.physRetired i).countMaps
  s1.each (mine.filterMap s.logicalOf) fun s t => s.decideRetire t 4

/-- Runs of the start-up begin. -/
def State.beginRuns (s : State) (os : List CalObj) : State := s.each os fun s o => if s.inRun o then s else s.beginRun o

/-- Runs of the start-up that gave no result are asked for again. -/
def State.endRuns (s : State) (mine : CalObj → Bool) : State :=
  let left := (s.cal.running.map Prod.fst).filter mine
  { s with cal := { s.cal with running := s.cal.running.filter fun x => !(mine x.1) } }.each left fun s o => s.calHold o

/-- Objects of step 11: the arrays of the quadrants; with the whole module, the converters. -/
def State.darkObjects (s : State) (qs : List Nat) (all : Bool) : List CalObj :=
  ((s.livePhys.filter fun i => (s.liveQuads qs).contains (i / 272)).map CalObj.tile) ++ (if all then (List.range 12).map CalObj.conv else [])

/-- Objects of step 12: slices, lanes of the port clusters, primary lasers. -/
def State.litObjects (s : State) (qs : List Nat) : List CalObj :=
  let live := s.liveQuads qs
  ((s.livePhys.filter fun i => live.contains (i / 272)).map fun i => CalObj.cluster (clusterOf i) true) ++
    (((List.range 408).filter fun i => live.contains (i / 102)).map CalObj.lane) ++
    (((List.range 1024).filter fun n => laserOk n && n % 2 == 0 && live.contains (n / 256)).map CalObj.laser)

/-! ## Step 12: lasers and rings (R345) -/

/-- Every ring of a quadrant changed by its cluster and number, in key order. -/
def State.mapRings (s : State) (q : Nat) (f : Nat → Nat → Ring → Ring) : State :=
  let mine := (List.range 278).flatMap fun k =>
    let c := 512 * q + k
    (List.range (clusterRings c)).map fun r => (ringKey c r, f c r (s.ring c r))
  { s with rings := (s.rings.filter fun e => e.1 / 65536 < q) ++ mine.filter (fun e => e.2 != {}) ++ s.rings.filter fun e => q < e.1 / 65536 }

/-- Primary lasers of a quadrant. -/
def primaries (q : Nat) : List Nat := (List.range 118).map fun k => 256 * q + 2 * k

/-- Every primary laser warms and every ring is acquired. -/
def State.lightUp (s : State) (q : Nat) : State :=
  (s.each (primaries q) fun s n => s.warmLaser n s.now).mapRings q fun _ _ x =>
    { x with st := .acquiring, since := s.now, tried := 0, sweeping := true, matchedAt := none }

/-- The outcome: a primary that failed gives its place to its spare; rings that could not be acquired are FAILED. -/
def State.lit (s : State) (q : Nat) (laserFail : List Nat) (ringFail : List (Nat × Nat)) : State :=
  let on := fun (s : State) n => (s.setLas n 4).setFlag (Reg.LAS_STAT n) Fld.LAS_STAT_SEL true
  let s1 := s.each (primaries q) fun s n =>
    if !(laserFail.contains n) then on s n
    else if !(laserFail.contains (n + 1)) then on ((s.setLas n 5).warmLaser (n + 1) s.now) (n + 1)
    else ((s.setLas n 5).setLas (n + 1) 5).setLaser n { s.laser n with dark := true }
  let s2 := (s1.countSpares q).mapRings q fun c r x =>
    if ringFail.contains (c, r) then x else { s.capture c r x.heater x with st := .verified, sweeping := false, matchedAt := some s.now }
  let s3 := s2.each (List.range 278) fun s k => s.clusterStat (512 * q + k)
  s3.each (ringFail.filter fun e => e.1 / 512 == q && clusterOk e.1 && e.2 < clusterRings e.1) fun s e => s.ringFails e.1 e.2

/-! ## Step 13: margin tests (R369, R552) -/

/-- Lanes of a port tested. -/
def State.marginTest (s : State) (n : Nat) (o : StartObs) : State :=
  s.each (List.range 17) fun s m =>
    let i := 17 * n + m
    match o.lanes.find? fun g => g.lane == i with
    | some g => s.laneFigures i (testFigures g) (s.laneLight n m && testPassed g)
    | none => s.laneFigures i (0, 0, 0) false

/-- Ports of the quadrants with a role. -/
def State.rolePorts (s : State) (qs : List Nat) : List Nat :=
  (List.range 24).filter fun n => (s.liveQuads qs).contains (n / 6) && s.portRole n != 0

/-- Ports get their CLASS, their lanes are tested, and training begins; a port whose far end does not answer is ABSENT until it does. -/
def State.joinPorts (s : State) (o : StartObs) : State :=
  s.each (s.rolePorts [0, 1, 2, 3]) fun s n =>
    let r := Reg.LNK_PORT_CFG n
    let s1 := (s.setFld r Fld.LNK_PORT_CFG_CLASS (if s.portRole n = 2 then 1 else 0)).setFlag r Fld.LNK_PORT_CFG_EN true
    if o.farEnds.contains n then (s1.marginTest n o).trainPort n else s1.setFld (Reg.LNK_PORT_STAT n) Fld.LNK_PORT_STAT_STATE 6

/-! ## The sequence -/

/-- READY (R555). -/
def State.becomeReady (s : State) : State :=
  ((s.setFld Reg.CLK_START Fld.CLK_START_ELAPSED ((s.now - s.clk.firstAt) / 1000000)).setPhase 15).pldm 5 0

/-- The end of start-up step k of the module. -/
def State.stepEnds (s : State) (o : StartObs) : State :=
  let qs := [0, 1, 2, 3]
  match s.phase with
  | 2 => s.setPhase 3
  | 3 => (s.setPhase 4).governorOn
  | 4 =>
    if s.clk.perstLow then s
    else if !o.refOk then s.setPhase 4
    else
      let s1 := { s with time := 0, clk := { s.clk with running := true } }
      ((s1.setFlag Reg.CLK_STAT Fld.CLK_STAT_REF_OK true).setFld Reg.CLK_STAT Fld.CLK_STAT_PLL_LOCK 16).setPhase 5
  | 5 => s.readBoot.setPhase 6
  | 6 => (if o.selfTestOk then s else (s.enterError 1 1).enterRecovery).setPhase 7
  | 7 => (s.bootVerify o.bundleOk).setPhase 8
  | 8 =>
    if s.flag Reg.FWP_BOOT Fld.FWP_BOOT_RECOVERY then { s with clk := { s.clk with stopped := true } }
    else s.release.setPhase 9
  | 9 => ((s.trainStacks qs o.stackFail).placeSystem).setPhase 10
  | 10 =>
    let s1 := if s.flash.mapBad then s.fault 0x0602 1 0 0 [] else s
    let s2 := (s1.loadRetirements.loadRecords fun _ => true).selfTests qs o.tileFail
    (s2.beginRuns (s2.darkObjects qs true)).setPhase 11
  | 11 =>
    let s1 := s.endRuns fun _ => true
    let s2 := s1.each (s1.liveQuads qs) fun s q => s.lightUp q
    (s2.beginRuns (s2.litObjects qs)).setPhase 12
  | 12 =>
    let s1 := s.each (s.liveQuads qs) fun s q => s.lit q o.laserFail o.ringFail
    (s1.endRuns fun _ => true).setPhase 13
  | 13 =>
    if s.flag Reg.LNK_COORD Fld.LNK_COORD_VALID then (s.joinPorts o).setPhase 14
    else (s.setFlag Reg.CLK_START Fld.CLK_START_NOFAB true).becomeReady
  | 14 => s.becomeReady
  | _ => s

/-- A quadrant's reset is over. -/
def State.quadDone (s : State) (q : Nat) : State :=
  { s with clk := { s.clk with quadPhase := tset 0 s.clk.quadPhase q 0 } }.setFld Reg.CLK_START Fld.CLK_START_QRST
    (((List.range 4).filter fun k => k != q && bitOf (s.fld Reg.CLK_START Fld.CLK_START_QRST) k).map fun k => 2 ^ k).sum

/-- The end of the step in progress of a quadrant in reset (R550); a quadrant whose stacks fail stays down. -/
def State.quadStepEnds (s : State) (q k : Nat) (o : StartObs) : State :=
  let next := fun (s : State) => { s with clk := { s.clk with quadPhase := tset 0 s.clk.quadPhase q (k + 1) } }
  match k with
  | 8 => next (s.bootQuad q)
  | 9 =>
    let s1 := s.trainStacks [q] o.stackFail
    if o.stackFail.contains q then s1.quadDone q else next s1
  | 10 =>
    let s1 := (s.loadRecords (objQuad q)).selfTests [q] o.tileFail
    next (s1.beginRuns (s1.darkObjects [q] false))
  | 11 =>
    let s1 := (s.endRuns (objQuad q)).lightUp q
    next (s1.beginRuns (s1.litObjects [q]))
  | 12 => next ((s.lit q o.laserFail o.ringFail).endRuns (objQuad q))
  | _ =>
    (s.each ((s.rolePorts [q]).filter fun n => o.farEnds.contains n) fun s n => s.marginTest n o).quadDone q

/-- POWER_ON: 800 V is present, the end of step 1; after a Trip it has been so, or been absent, for the second that R437 and R458 ask. -/
def execPowerOn (at_ : Nat) (s : State) : Res :=
  let s := s.tick at_
  .next (
    let tripped := s.therm.tripped || s.power.tripCause.isSome
    if s.phase ≠ 0 || (tripped && s.now < s.therm.offAt + 1000000000) then s
    else
      let s1 := (s.cleared true).startAt 2
      { s1 with hkc := { s1.hkc with refAt := s1.now } })

/-- START_UP_STEP_END: the start-up step in progress ends. After READY it is the step of a quadrant in reset, of the quadrant furthest
behind, the lowest first. -/
def execStartUpStepEnd (at_ : Nat) (obs : StartObs) (s : State) : Res :=
  let s := s.tick at_
  .next (
    if s.phase < 15 then (if s.clk.stopped then s else s.stepEnds obs)
    else
      let low := (s.clk.quadPhase.map Prod.snd).foldl min 15
      match s.clk.quadPhase.find? fun e => e.2 == low with
      | some e => s.quadStepEnds e.1 e.2 obs
      | none => s)

end Sys2Proof.Machine
end

