-- ==== Sys2Proof/Machine/Firmware.lean ====
section
/-! DEFINITION. The firmware processors: crashes, staging and activation of bundles, the global cairn, records written to flash
(R469 to R487, R508, R598); writes of flash meet at its arbiter (R470). -/

namespace Sys2Proof.Machine

/-! ## Crashes (R474 to R478) -/

/-- The chain of a long operation that a restart ends is lost with it. -/
def State.leaveChainOf (s : State) (o : LongOp) : State :=
  match s.chainOf o.id with
  | some c => s.leaveChain c
  | none => s

/-- A long operation that its processor's restart ends: its partial effect, then RESTARTED (R476, R477). -/
def State.restartLong (s : State) (o : LongOp) : State :=
  match o.pkt with
  | .modelLoad q _ => (s.leaveChainOf o).failLoad o q.modelId.toNat stRestarted 0 0
  | .modelSwap q _ => ((s.leaveChainOf o).giveUpSwap q.modelId.toNat).endSwap o stRestarted 0 0
  | .testRun _ kind _ => { s with fw := { s.fw with testLeft := some (kind.toNat, o.wait) } }.endLong o stRestarted 0 0
  | .fwStage .. => { s with fw := { s.fw with staging := false } }.endLong o stRestarted 0 0
  | .fwActivate .. =>
    ((({ s with fw := { s.fw with act := none, phase := 0, cairnWanted := false } }.setFld Reg.FWP_ACT Fld.FWP_ACT_PHASE 0).setFld
      Reg.FWP_ACT Fld.FWP_ACT_RESULT 4)).endLong o stRestarted 0 0
  | .twinPair .. => s.twinSolo.endLong o stRestarted 0 0
  | .twinUnpair .. => { s with twin := { s.twin with unpairOp := none } }.endLong o stRestarted 0 0
  | _ => s.endLong o stRestarted 0 0

/-- Packets in flight on CP or SEP that wait for placements and are not long: RESTARTED, with no effect taken. -/
def State.restartWaits (s : State) (i : Nat) : State :=
  if i = 0 then
    s.each s.models fun s m => match m.2.unload with
      | some (h, op) =>
        let s1 := s.setModel m.1 { s.model m.1 with st := (s.model m.1).was, unload := none }
        (s1.each (s1.placesOfModel m.1) fun s l => s.setPlace l { s.place l with removing := false }).reply h op stRestarted 0 0
      | none => s
  else if i = 3 then
    { s with sec := { s.sec with retiring := [] } }.each s.sec.retiring fun s e =>
      (s.each (s.placesOf e.2) fun s l => s.setPlace l { s.place l with removing := false }).reply e.1 0x71 stRestarted 0 0
  else s

/-- Runs abandoned by a restart; a lane that was measured stands in the stripe again. -/
def State.restartRuns (s : State) (mine : CalObj → Bool) : State :=
  let gone := (s.cal.running.map Prod.fst).filter mine
  (s.abandonRuns mine true).each gone fun s o => s.laneBack o

/-- What a processor's reset costs beyond its own record. -/
def State.procGone (s : State) (i : Nat) (spare : LongOp → Bool) : State :=
  let ops := s.longOps.filter fun o => o.pkt.proc == i && !(spare o)
  let s1 := ((s.each ops fun s o => s.restartLong o).restartWaits i).setFlag (Reg.FWP_PROC i) Fld.FWP_PROC_ALIVE false
  if i = 0 then s1.restartRuns fun _ => true
  else if i = 1 then s1.governorOn
  else if 4 ≤ i then
    (s1.pcpGone (i - 4)).restartRuns fun o => objQuad (i - 4) o && match o with
      | .tile _ => false
      | _ => true
  else s1

/-- Number of a crash cause in LAST_CAUSE. -/
def crashCode : CrashCause → Nat
  | .watchdog => 1
  | .exception => 2
  | .ecc => 3

/-- WATCHDOG: processor i crashes; during an activation switch it is ignored (R474, R478). -/
def execWatchdog (i : Nat) (cause : CrashCause) (at_ : Nat) (s : State) : Res :=
  let s := s.tick at_
  onObject (decide (i < 8))
    (if !(9 ≤ s.phase) || 3 ≤ s.fw.phase then s
     else
       let r := Reg.FWP_PROC i
       let c := crashCode cause
       let s1 := (s.bump r Fld.FWP_PROC_RESTARTS).setFld r Fld.FWP_PROC_LAST_CAUSE c
       let s2 := (s1.setFld r Fld.FWP_PROC_LAST_TIME (s.time / 1000)).fault 0x0701 1 srcHw i (leBytes 1 c)
       let ts := (s.proc i).restarts.filter (fun t => s.time < t + 60000000000) ++ [s.time]
       let s3 := s2.setProc i { s2.proc i with restarts := ts }
       (if 4 ≤ ts.length then s3.pldm 3 i else s3).procGone i fun _ => false)

/-! ## Staging (R483) -/

/-- The bank that the boot record does not name. -/
def State.inactiveBank (s : State) : Nat := 1 - s.fld Reg.FWP_BOOT Fld.FWP_BOOT_ACTIVE_BANK

/-- FW_STAGE as SEP starts it. -/
def State.svcFwStage (s : State) (h : Hdr) (offset bytes : BitVec 32) (src rsv : BitVec 64) (data : List Byte) : State :=
  let o := offset.toNat
  let n := bytes.toNat
  s.checked h 0x58
    [chkForm (o % 4096 == 0) 0, chkForm (n % 4096 == 0 && decide (4096 ≤ n) && decide (n ≤ 4 * 2 ^ 20) && decide (o + n ≤ 24 * 2 ^ 20)) 4,
     chkForm (rsv == 0) 16, chkSt (s.fw.act.isNone && !s.fw.staging) stDeferred] fun s =>
    s.startLong h (.fwStage offset bytes src rsv data) n fun _ s => { s with fw := { s.fw with staging := true } }

/-- Blocks of 64 KiB of a bank (R469, R470). -/
def bankBlocks : Nat := 384

/-- The ranges of a bank's written bytes after bytes `a` to `a + n - 1` of it are erased. -/
def eraseRanges (b a n : Nat) (rs : List (Nat × Nat × Nat)) : List (Nat × Nat × Nat) :=
  rs.flatMap fun x =>
    if x.1 != b then [x]
    else [(b, x.2.1, min (x.2.1 + x.2.2) a - x.2.1), (b, max x.2.1 (a + n), x.2.1 + x.2.2 - max x.2.1 (a + n))].filter fun y => 0 < y.2.2

/-- One erase of a 64 KiB block of the inactive bank; the bundle's header goes with the first. -/
def State.eraseBlock (s : State) (k : Nat) : State :=
  let b := s.inactiveBank
  let f := { s.flash with staged := eraseRanges b (65536 * k) 65536 s.flash.staged }
  { s with flash := if k = 0 then { f with bankHdr := tset [] f.bankHdr b [], versions := tset (0, 0) f.versions b (0, 0) } else f }

/-- One program of the 4 KiB at a bank's offset, with the header where it is the first. -/
def State.programPage (s : State) (a : Nat) (page : List Byte) : State :=
  let b := s.inactiveBank
  let f := { s.flash with staged := eraseRanges b a 4096 s.flash.staged ++ [(b, a, 4096)] }
  { s with flash := if a = 0 then
      { f with bankHdr := tset [] f.bankHdr b page, versions := tset (0, 0) f.versions b (sliceNum page 8 4, sliceNum page 12 4 % 64) } else f }

/-- A slice of a FW_STAGE is one grant of the flash arbiter: an erase, with OFFSET 0 until the whole bank is erased, or one 4 KiB program
(R470, R483). -/
def State.sliceStage (s : State) (o : LongOp) (offset : Nat) (data : List Byte) : State :=
  if !(s.flashMay 3) then s
  else
    let s1 := (s.flashDone 3).setFlag (Reg.FWP_VER s.inactiveBank) Fld.FWP_VER_VALID false
    if offset = 0 && o.stage < bankBlocks then (s1.eraseBlock o.stage).setLong { o with stage := o.stage + 1 }
    else
      let s2 := (s1.programPage (offset + o.done) ((data.drop o.done).take 4096)).advanceLong o (o.done + 4096)
      if o.done + 4096 < o.total then s2 else { s2 with fw := { s2.fw with staging := false } }.endLongAt o.id stOK 0 0

/-! ## Activation (R484 to R486) -/

/-- PHASE of an activation. -/
def State.actPhase (s : State) (k : Nat) : State := { s with fw := { s.fw with phase := k } }.setFld Reg.FWP_ACT Fld.FWP_ACT_PHASE k

/-- An activation ends. -/
def State.actEnds (s : State) (result status detail : Nat) : State :=
  match s.fw.act with
  | some (id, _) =>
    (({ s with fw := { s.fw with act := none } }.actPhase 0).setFld Reg.FWP_ACT Fld.FWP_ACT_RESULT result).endLongAt id status detail 0
  | none => s

/-- FW_ACTIVATE as SEP starts it. -/
def State.svcFwActivate (s : State) (h : Hdr) (bank : BitVec 8) (rsv : BitVec 56) (sigOk : Bool) : State :=
  s.checked h 0x59
    [chkForm (decide (bank.toNat ≤ 1) && bank.toNat != s.fld Reg.FWP_BOOT Fld.FWP_BOOT_ACTIVE_BANK) 0, chkForm (rsv == 0) 1,
     chkSt (!(s.flag Reg.SEC_STAT Fld.SEC_STAT_ERROR) && !s.critical && !s.fw.staging && s.fw.act.isNone) stDeferred] fun s =>
    s.startLong h (.fwActivate bank rsv sigOk) 4 fun o s => { s with fw := { s.fw with act := some (o.id, bank.toNat) } }.actPhase 1

/-- The boot record names a bank; its write is the flash arbiter's next grant (log entry 102). -/
def State.writeBootRecord (s : State) (bank : Nat) : State :=
  let s := s.flashDone 0
  let f := s.flash
  let svn := max f.minSvn (tget (0, 0) f.versions bank).2
  let r := Reg.FWP_BOOT
  let s1 := { s with flash := { f with active := bank, bootSeq := f.bootSeq + 1, bootOk := true, minSvn := svn } }
  (((s1.setFld r Fld.FWP_BOOT_ACTIVE_BANK bank).setFld r Fld.FWP_BOOT_BOOT_SEQ (f.bootSeq + 1)).setFld r Fld.FWP_BOOT_MIN_SVN svn).setFlag
    r Fld.FWP_BOOT_FALLBACK false

/-- A slice of a FW_ACTIVATE: SEP has verified the bank. In recovery a valid bundle starts the boot again (R473). -/
def State.sliceActivate (s : State) (o : LongOp) (bank : Nat) (sigOk : Bool) : State :=
  if s.fw.phase ≠ 1 then s
  else
    let ok := s.bundleValid bank sigOk
    let s1 := s.verified bank ok
    if !ok then s1.actEnds 2 stBadPacket (badAt 16)
    else if s.flag Reg.FWP_BOOT Fld.FWP_BOOT_RECOVERY then
      let s2 := (s1.writeBootRecord bank).actEnds 1 stOK 0
      { s2 with clk := { s2.clk with stopped := false } }.setFlag Reg.FWP_BOOT Fld.FWP_BOOT_RECOVERY false |>.setPhase 5
    else
      let s2 := (s1.actPhase 2).advanceLong o 1
      { s2 with fw := { s2.fw with cairnWanted := true } }

/-- Every processor is held in reset and released on a bank. -/
def State.switchBank (s : State) (bank : Nat) : State :=
  let s1 := s.each (List.range 8) fun s i => s.procGone i fun o => match o.pkt with
    | .fwActivate .. => true
    | _ => false
  { s1 with fw := { s1.fw with releasedAt := s1.now, cairnWanted := false } }.setFld Reg.FWP_BOOT Fld.FWP_BOOT_BOOTED_BANK bank

/-- GLOBAL_CAIRN: no placement has a step in flight. It serves as the cairn of every quadrant and every retired tile that waits for one, and an
activation switches banks at it (R20, R228, R337, R485). -/
def execGlobalCairn (at_ : Nat) (s : State) : Res :=
  let s := s.tick at_
  .next (
    if !s.atGlobalCairn then s
    else
      let s0 := s.each (List.range 4) fun s q => s.quadrantCairn q
      let s1 := s0.replaceAll s0.clk.tileWant
      match s1.fw.act with
      | some (_, bank) =>
        if s1.fw.cairnWanted && s1.fw.phase = 2 then
          let s2 := { s1 with fw := { s1.fw with prevBank := s1.fld Reg.FWP_BOOT Fld.FWP_BOOT_BOOTED_BANK } }
          (s2.actPhase 3).switchBank bank
        else s1
      | none => s1)

/-- Every processor has taken up its duties. -/
def State.allAlive (s : State) : Bool := (List.range 8).all s.alive

/-- An activation whose processors are all ALIVE is done, or reverted. -/
def State.actCheck (s : State) : State :=
  match s.fw.act with
  | some (_, bank) =>
    if !s.allAlive then s
    else if s.fw.phase = 3 then (s.writeBootRecord bank).actEnds 1 stOK 0
    else if s.fw.phase = 4 then s.actEnds 3 stBadPacket (badAt 16)
    else s
  | none => s

/-- ACTIVATION_TIMEOUT: a processor is not ALIVE within 30 ms of the release; every processor goes back to the previous bank. -/
def execActivationTimeout (at_ : Nat) (s : State) : Res :=
  let s := s.tick at_
  .next (
    if s.fw.phase = 3 && !s.allAlive && s.fw.releasedAt + 30000000 ≤ s.now then (s.actPhase 4).switchBank s.fw.prevBank else s)

/-! ## Records in flash -/

/-- FAULT_LOG_FLUSH: an entry added since the last write is on its way to flash within 1 s (R508). -/
def execFaultLogFlush (at_ : Nat) (s : State) : Res :=
  let s := s.tick at_
  .next (
    if s.faultLog.dirtyAt.isNone || !(s.flashMay 0) then s
    else
      let l := { s.faultLog with seq := s.faultLog.seq + 1, dirtyAt := none }
      { s.flashDone 0 with faultLog := l, flash := { s.flash with flog := some l, flogBad := false } })

/-- MAP_RECORD_WRITE: a retirement or replacement goes to the map record within 1 s (R598). -/
def execMapRecordWrite (at_ : Nat) (s : State) : Res :=
  let s := s.tick at_
  .next (
    if s.clk.mapDirty.isNone || !(s.flashMay 1) then s
    else { s.flashDone 1 with clk := { s.clk with mapDirty := none }, flash := { s.flash with mapRec := some s.mapRecord, mapBad := false } })

/-- LIFETIME_COUNTER_WRITE: once per hour PCP[q] counts an hour for every laser ACTIVE and writes the counters (R350, R469). -/
def execLifetimeCounterWrite (q at_ : Nat) (s : State) : Res :=
  let s := s.tick at_
  onObject (decide (q < 4))
    (let last := tget 0 s.fw.hoursAt q
     if !(s.pcp q) || !(s.flashMay 2) || (last ≠ 0 && s.now < last - 1 + 3600000000000) then s
     else ({ s with fw := { s.fw with hoursAt := tset 0 s.fw.hoursAt q (s.now + 1) } }.flashDone 2).each (((List.range 256).map (256 * q + ·)).filter fun n => laserOk n && s.lasSt n == 4) fun s n =>
       let h := min (2 ^ 24 - 1) (s.fld (Reg.LAS_STAT n) Fld.LAS_STAT_HOURS + 1)
       { s with flash := { s.flash with hours := tset 0 s.flash.hours n h } }.setFld (Reg.LAS_STAT n) Fld.LAS_STAT_HOURS h)

end Sys2Proof.Machine
end

