-- ==== Sys2Proof/Machine/Doorbells.lean ====
section
/-! DEFINITION. Host writes with a meaning of their own: doorbells and ring placement, translation invalidation, reservoir and free-ring
indices, port enables, and the settings that act as they are written (R184, R188, R192, R215, R244, R286 to R288, R318, R375, R392, R400,
R445). Each takes the value written into the register's writable bits. -/

namespace Sys2Proof.Machine

/-! ## Ring pairs (R286 to R288, R318) -/

/-- A doorbell violation: an entry with the register's address; an enabled pair gets a reply with SEQ 0 and OPCODE 0xFF (R288). -/
def State.badDoorbell (s : State) (f r off : Nat) : State :=
  let s1 := s.violate f off 2 false false
  if s1.pairOn f r then
    s1.post f r { bytes := replyBytes 0 stViolation 0xFF r 0 0 off, isReply := true, final := false, irq := true }
  else s1

/-- A write of SCH.SQ_DB. -/
def State.writeSqDb (s : State) (f r tail : Nat) : State :=
  let reg := Reg.SCH_SQ_DB f r
  let head := s.fld (Reg.SCH_RING_IDX f r) Fld.SCH_RING_IDX_SQ_HEAD
  let held := diff32 (s.fld reg Fld.SCH_SQ_DB_SQ_TAIL) head
  let next := diff32 tail head
  if s.pairOn f r && held ≤ next && next ≤ 2 ^ s.fld (Reg.SCH_RING_CFG f r) Fld.SCH_RING_CFG_SQ_LOG2 then
    s.setFld reg Fld.SCH_SQ_DB_SQ_TAIL tail
  else s.badDoorbell f r (0xD8108 + 0x20 * r)

/-- A write of SCH.CQ_DB. -/
def State.writeCqDb (s : State) (f r head : Nat) : State :=
  let reg := Reg.SCH_CQ_DB f r
  let old := s.fld reg Fld.SCH_CQ_DB_CQ_HEAD
  if s.pairOn f r && diff32 head old ≤ diff32 (s.fld (Reg.SCH_RING_IDX f r) Fld.SCH_RING_IDX_CQ_TAIL) old then
    s.setFld reg Fld.SCH_CQ_DB_CQ_HEAD head
  else s.badDoorbell f r (0xD810C + 0x20 * r)

/-- The two rings that a RING_CFG value places in the ring area: offset and bytes. -/
def ringsOf (v : Word64) : List (Nat × Nat) :=
  let g := fun (x : Field) => getBits v x.lo x.w
  [(g Fld.SCH_RING_CFG_SQ_OFF * 4096, 64 * 2 ^ g Fld.SCH_RING_CFG_SQ_LOG2), (g Fld.SCH_RING_CFG_CQ_OFF * 4096, 32 * 2 ^ g Fld.SCH_RING_CFG_CQ_LOG2)]

/-- The rules of R286 for a value that sets EN to 1. -/
def State.ringRules (s : State) (f r : Nat) (v : Word64) : Bool :=
  let sq := getBits v Fld.SCH_RING_CFG_SQ_LOG2.lo Fld.SCH_RING_CFG_SQ_LOG2.w
  let cq := getBits v Fld.SCH_RING_CFG_CQ_LOG2.lo Fld.SCH_RING_CFG_CQ_LOG2.w
  let mine := ringsOf v
  let others := ((List.range 17).filter fun k => k != r && s.pairOn f k).flatMap fun k => ringsOf (s.reg (Reg.SCH_RING_CFG f k))
  6 ≤ sq && sq ≤ 16 && 6 ≤ cq && cq ≤ 16 && mine.all (fun x => x.1 + x.2 ≤ 2 ^ 26) &&
    (match mine with
     | [a, b] => !(overlaps a.1 a.2 b.1 b.2)
     | _ => false) &&
    mine.all fun x => !(others.any fun y => overlaps x.1 x.2 y.1 y.2)

/-- A write of SCH.RING_CFG: an enabled pair takes no change but the clearing of EN (R286). -/
def State.writeRingCfg (s : State) (f r : Nat) (v : Word64) : State :=
  let reg := Reg.SCH_RING_CFG f r
  let en := getBits v 0 1 == 1
  let refuse := s.refuseWrite f (0xD8100 + 0x20 * r)
  if s.pairOn f r then
    if v = s.reg reg then s
    else if v = s.reg reg &&& ~~~1 then (s.ringOff f r).fenceSweep f
    else refuse
  else if !en then s.wrReg reg v
  else if s.ringRules f r v then s.wrReg reg v else refuse

/-! ## Translation (R184, R215) -/

/-- A 4 KiB page lies in the range that an invalidation names (R215). -/
def invCovers (page : Nat) (i : Nat × Nat × Bool) : Bool := i.2.2 || (i.1 ≤ page && page < i.1 + i.2.1)

/-- A write of MMU.INV[p] by a function that may write it: with BUSY reading 1 it is ignored and logged; BUSY written with 1 starts. -/
def State.writeInv (s : State) (fn p : Nat) (v : Word64) : State :=
  let reg := Reg.MMU_INV p
  if s.flag reg Fld.MMU_INV_BUSY then s.refuseWrite fn (0x60008 + 0x10 * p)
  else
    let s1 := s.wrReg reg v
    if getBits v 63 1 = 1 then s1.setPart p { s1.part p with inv := some (getBits v 0 32, getBits v 32 16 + 1, getBits v 62 1 == 1) } else s1

/-- The invalidation of partition p is complete. -/
def State.invDone (s : State) (p : Nat) : State :=
  match (s.part p).inv with
  | some i =>
    let x := s.part p
    (s.setPart p { x with inv := none, stale := x.stale.filter fun r => !(invCovers r.2.1 i) }).setFlag (Reg.MMU_INV p) Fld.MMU_INV_BUSY false
  | none => s

/-! ## Reservoir and free ring (R188, R190, R191, R192) -/

/-- A write of KVT.RES_IDX[p].TAIL: refused when it would overfill the ring, or when it advances TAIL of an absent ring; an advance
retries the starved pops, and a TAIL moved back below LOW_WATER raises the interrupt (R190). A refused write is logged in the log of the
reservoir's partition, whichever function made it (log entry 94). -/
def State.writeResTail (s : State) (p tail : Nat) : State :=
  let reg := Reg.KVT_RES_IDX p
  let lg := s.fld (Reg.KVT_RES_RING p) Fld.KVT_RES_RING_LOG2SIZE
  let old := s.fld reg Fld.KVT_RES_IDX_TAIL
  let held := diff32 tail (s.fld reg Fld.KVT_RES_IDX_HEAD)
  if tail % 2 ^ 32 = old then s
  else if lg = 0 || 2 ^ lg < held then s.refuseWrite p (0xC0008 + 0x40 * p)
  else
    let s1 := (s.setFld reg Fld.KVT_RES_IDX_TAIL tail).resRearm p
    if diff32 old (s.fld reg Fld.KVT_RES_IDX_HEAD) < held then s1.retryStarved p else s1.resNotify p false

/-- A write of KVT.FREE_IDX[p].HEAD: waiting frames are returned into the room it makes. -/
def State.writeFreeHead (s : State) (p head : Nat) : State := (s.setFld (Reg.KVT_FREE_IDX p) Fld.KVT_FREE_IDX_HEAD head).freeRun p

/-! ## Ports and links (R375, R392, R396) -/

/-- A write of LNK.PORT_CFG[n]: EN at 1 trains a port that is not UP or training, or whose CLASS changes; 0 takes it down. -/
def State.writePortCfg (s : State) (n : Nat) (v : Word64) : State :=
  let reg := Reg.LNK_PORT_CFG n
  let cls := fun c => if c = 3 then 1 else c
  let changed := cls (getBits v 1 2) ≠ cls (s.fld reg Fld.LNK_PORT_CFG_CLASS)
  let s1 := s.wrReg reg v
  if getBits v 0 1 = 0 then
    if s.portSt n = 0 then s1 else (s1.portDown n 0).joinEnds n
  else if s.portSt n = 1 || s.portSt n = 2 then (if changed then s1.trainPort n else s1)
  else s1.trainPort n

/-- A write of LNK.CFG acts at once: an UP port below the new MIN_LANES goes DOWN. -/
def State.writeLnkCfg (s : State) (v : Word64) : State :=
  let s1 := s.wrReg Reg.LNK_CFG v
  s1.each ((List.range 24).filter fun n => s1.portSt n == 2 && decide (s1.fld (Reg.LNK_PORT_STAT n) Fld.LNK_PORT_STAT_LANES < s1.minLanes))
    fun s n => s.portDown n 3

/-! ## Settings -/

/-- A write of TWN.JRN: only while SOLO, and not over the system region, a ring area or a window (R400). -/
def State.writeJrn (s : State) (fn : Nat) (v : Word64) : State :=
  let base := getBits v 0 12 * 2 ^ 30
  let size := min 64 (getBits v 12 7) * 2 ^ 30
  let taken := s.sysRegion :: (List.range 64).map s.ringArea ++ (List.range 64).flatMap fun q => s.windows q
  if s.twinSt ≠ 0 || hitsAny base size taken then s.refuseWrite fn 0x100010 else s.wrReg Reg.TWN_JRN v

/-- A write of SCH.CFG: the EPOCH before it stays in force until its next boundary (R244). -/
def State.writeSchCfg (s : State) (v : Word64) : State :=
  let e := s.epochUs
  { s with sched := { s.sched with epochOld := some (e, (s.time / (e * 1000) + 1) * (e * 1000)) } }.wrReg Reg.SCH_CFG v

/-- A write of POW.CAP: CAP_EFF follows (R421). -/
def State.writePowCap (s : State) (v : Word64) : State := (s.wrReg Reg.POW_CAP v).freshCap

/-- A write of HKC.CFG: RUN and QOWN act at once, the period and the reference at the next boundary of pair 0 (R439, R443). -/
def State.writeHkcCfg (s : State) (v : Word64) : State :=
  let s1 := s.wrReg Reg.HKC_CFG v
  if getBits v 20 1 = 0 then s1.setFlag Reg.HKC_STAT Fld.HKC_STAT_SEQ_IDLE true else s1

/-! ## Commands -/

/-- A write reaches the module. -/
def State.reached (s : State) (fn : Nat) (f : State → State) : State := s.hostAccess fn false f

/-- A write of a register instance of partition p by a function: partition p's own or PF0 may; any other is ignored and logged (R583). -/
def State.ofPart (s : State) (fn p off : Nat) (f : State → State) : State :=
  s.reached fn fun s => if fn = 0 || fn = p then f s else s.refuseWrite fn off

/-- SQ_DB: a write of a submission doorbell. -/
def execSqDb (fn ring : Nat) (tail : BitVec 32) (s : State) : Res :=
  onObject (decide (ring < 17)) (s.reached fn fun s => s.writeSqDb fn ring tail.toNat)

/-- CQ_DB: a write of a completion doorbell. -/
def execCqDb (fn ring : Nat) (head : BitVec 32) (s : State) : Res :=
  onObject (decide (ring < 17)) (s.reached fn fun s => s.writeCqDb fn ring head.toNat)

/-- Bits of SCH.RING_CFG that a write reaches. -/
def ringCfgBits : Word64 := 0x000000FFFFFFF7FF

/-- RING_ENABLE: a write of SCH.RING_CFG with EN at 1. -/
def execRingEnable (fn ring : Nat) (value : Word64) (s : State) : Res :=
  onObject (decide (ring < 17)) (s.reached fn fun s => s.writeRingCfg fn ring ((value ||| 1) &&& ringCfgBits))

/-- RING_DISABLE: a write of SCH.RING_CFG with EN at 0. -/
def execRingDisable (fn ring : Nat) (value : Word64) (s : State) : Res :=
  onObject (decide (ring < 17)) (s.reached fn fun s => s.writeRingCfg fn ring (value &&& ringCfgBits &&& ~~~1))

/-- The value of MMU.INV with BUSY at 1. -/
def invWord (vpn : BitVec 32) (count : BitVec 16) (all : Bool) : Word64 :=
  BitVec.ofNat 64 (vpn.toNat + count.toNat * 2 ^ 32 + b2n all * 2 ^ 62 + 2 ^ 63)

/-- INVALIDATE: MMU.INV[p] written with BUSY 1 and ALL 0. -/
def execInvalidate (fn p : Nat) (vpn : BitVec 32) (count : BitVec 16) (s : State) : Res :=
  onObject (decide (p < 64)) (s.ofPart fn p (0x60008 + 0x10 * p) fun s => s.writeInv fn p (invWord vpn count false))

/-- INVALIDATE_ALL: MMU.INV[p] written with BUSY 1 and ALL 1. -/
def execInvalidateAll (fn p : Nat) (vpn : BitVec 32) (count : BitVec 16) (s : State) : Res :=
  onObject (decide (p < 64)) (s.ofPart fn p (0x60008 + 0x10 * p) fun s => s.writeInv fn p (invWord vpn count true))

/-- INVALIDATION_COMPLETE: every quadrant's cache has dropped the range. -/
def execInvalidationComplete (p : Nat) (s : State) : Res := onObject (decide (p < 64)) (s.invDone p)

/-- RESERVOIR_TAIL_WRITE: a write of KVT.RES_IDX[p].TAIL. -/
def execReservoirTailWrite (fn p : Nat) (tail : BitVec 32) (s : State) : Res :=
  onObject (decide (p < 64)) (s.ofPart fn p (0xC0008 + 0x40 * p) fun s => s.writeResTail p tail.toNat)

/-- FREE_HEAD_WRITE: a write of KVT.FREE_IDX[p].HEAD. -/
def execFreeHeadWrite (fn p : Nat) (head : BitVec 32) (s : State) : Res :=
  onObject (decide (p < 64)) (s.ofPart fn p (0xC0018 + 0x40 * p) fun s => s.writeFreeHead p head.toNat)

/-- A write of LNK.PORT_CFG[n] by a function: PF0 only (R392). The ROLE and the PEER_SLOT stay. -/
def State.portWrite (s : State) (fn n : Nat) (en cls : Nat) : State :=
  s.reached fn fun s =>
    if fn ≠ 0 then s.refuseWrite fn (0xF1000 + 0x20 * n)
    else s.writePortCfg n (putBits (putBits (s.reg (Reg.LNK_PORT_CFG n)) 0 1 en) 1 2 cls)

/-- PORT_ENABLE: LNK.PORT_CFG[n] written with EN at 1. -/
def execPortEnable (fn n : Nat) (value : Word64) (s : State) : Res :=
  onObject (decide (n < 24)) (s.portWrite fn n 1 (getBits value 1 2))

/-- PORT_DISABLE: LNK.PORT_CFG[n] written with EN at 0. -/
def execPortDisable (fn n : Nat) (value : Word64) (s : State) : Res :=
  onObject (decide (n < 24)) (s.portWrite fn n 0 (getBits value 1 2))

end Sys2Proof.Machine
end

