-- ==== Sys2Proof/Machine/RegAccess.lean ====
section
/-! DEFINITION. Reads and writes of BAR0 by offset, width and function, what a live register shows, and accesses through BAR4 (R11, R12,
R283, R442, R581 to R587). -/

namespace Sys2Proof.Machine

/-! ## Which register an offset names, and who sees it (R580 to R582, R585) -/

/-- A register instance reached by an offset: its row, its index, and whether the offset is that of its upper half. -/
structure RegHit where
  row  : RegRow
  inst : Nat
  high : Bool

/-- The register at a 32-bit location. -/
def regHit (off : Nat) : Option RegHit :=
  regRows.findSome? fun r =>
    match r.instAt off with
    | some i => some ⟨r, i, false⟩
    | none => if r.width = 64 && 4 ≤ off then (r.instAt (off - 4)).map fun i => ⟨r, i, true⟩ else none

/-- The instance in a function's view: ring registers are the function's own (R315). -/
def RegHit.ref (h : RegHit) (fn : Nat) : RegRef :=
  let r := h.row.ref h.inst
  if h.row.vis = Vis.own then { r with key := r.key + 2 ^ 24 * fn } else r

/-- Function fn sees an instance (R582). -/
def State.sees (s : State) (fn : Nat) (h : RegHit) : Bool :=
  match h.row.vis with
  | .all | .own => true
  | .pf0 => fn == 0
  | .part => fn == 0 || h.inst == fn
  | .window => fn == 0 || h.inst / 8 == fn
  | .tile => fn == 0 || (s.tileOwners h.inst).contains fn

/-- The instance's quadrant is in reset or down (R585). -/
def State.unreadable (s : State) (h : RegHit) : Bool :=
  match h.row.quadOf h.inst with
  | some q => s.quadOff q
  | none => false

/-! ## What a read shows -/

/-- One field of a word set to a value that saturates at all-ones. -/
def setIn (v : Word64) (f : Field) (x : Nat) : Word64 := putBits v f.lo f.w (min x (2 ^ f.w - 1))

/-- GLB.SUMMARY from the fields it mirrors (R591). -/
def State.viewSummary (s : State) : Word64 :=
  let e := max (s.fld Reg.POW_STAT Fld.POW_STAT_EMERG) (s.fld Reg.THM_STAT Fld.THM_STAT_EMERG)
  [(Fld.GLB_SUMMARY_READY, b2n s.ready), (Fld.GLB_SUMMARY_EMERG, e), (Fld.GLB_SUMMARY_GOV, s.fld Reg.POW_STAT Fld.POW_STAT_GOV),
   (Fld.GLB_SUMMARY_RECOVERY, s.fld Reg.FWP_BOOT Fld.FWP_BOOT_RECOVERY), (Fld.GLB_SUMMARY_SEC_ERR, s.fld Reg.SEC_STAT Fld.SEC_STAT_ERROR),
   (Fld.GLB_SUMMARY_HOLDOVER, s.fld Reg.CLK_STAT Fld.CLK_STAT_HOLDOVER), (Fld.GLB_SUMMARY_QDOWN, s.fld Reg.CLK_START Fld.CLK_START_QDOWN),
   (Fld.GLB_SUMMARY_NOFAB, s.fld Reg.CLK_START Fld.CLK_START_NOFAB), (Fld.GLB_SUMMARY_TWIN, s.twinSt)].foldl (fun v x => setIn v x.1 x.2) 0

/-- The first placement with a step in flight on a tile. -/
def State.stepOn (s : State) (t : Nat) : Option (Place × Step) :=
  (s.present.filter fun l => (s.place l).cfg.tiles.contains t).findSome? fun l => ((s.place l).step).map fun e => (s.place l, e)

/-- CAB.TILE_STAT[t] from the arrays of the tile that serves the index and the placement in its step (R108). WORN leaves out stuck cells in
retired columns and retired arrays, and an unavailable index, which no tile serves, shows a bank with nothing retired or worn: the spec says
neither (DESIGN CHOICE, log entry 103). -/
def State.viewTileStat (s : State) (t : Nat) : Word64 :=
  let arrs := match s.physOf t with
    | some i => (s.phy i).arrays.map Prod.snd
    | none => []
  let live := arrs.filter fun a => !a.retired
  let worn := (live.map fun a => (a.stuck.filter fun c => !(a.retCols.contains (c.1 % 64))).length).sum
  let mode := match s.stepOn t with
    | some (_, e) => if e.sparse then 2 else 1
    | none => 0
  let res := match s.stepOn t with
    | some (x, _) => x.cfg.resident
    | none => false
  [(Fld.CAB_TILE_STAT_ARR_AVAIL, 512 - s.retiredArrs t), (Fld.CAB_TILE_STAT_RET_ARR, s.retiredArrs t), (Fld.CAB_TILE_STAT_RET_COL, s.retiredCols t),
   (Fld.CAB_TILE_STAT_WORN, worn), (Fld.CAB_TILE_STAT_MODE, mode), (Fld.CAB_TILE_STAT_RESIDENT, b2n res)].foldl (fun v x => setIn v x.1 x.2) 0

/-- Entries that the retired columns of a bank add to a share's table: one a row, of the columns that hold weights (R123). -/
def addedCount (bank : Tbl Arr) (pslot layer gen : Nat) (sh : Share) : Nat :=
  ((goneOf bank pslot layer gen).map fun g =>
    let c := g.1 % sh.chunks
    if sh.nCount ≤ c / sh.nb * 32 + g.2 then 0 else min 32 (sh.kCount - 32 * (c % sh.nb))).sum

/-- WOUT_MAX of a tile: the largest weight-outlier table of any layer on it, entries of retired columns included (R123, R138). -/
def State.woutMax (s : State) (t : Nat) : Nat :=
  let bank := match s.physOf t with
    | some i => (s.phy i).arrays
    | none => []
  let sizes := (s.placesOn t).flatMap fun l =>
    let x := s.place l
    let m := s.model x.cfg.model
    let pslot := ((x.pslot.find? fun e => e.1 == t).map Prod.snd).getD 16
    (List.range m.img.layers.length).filterMap fun y => (s.shareOf l t y).map fun e =>
      e.2.2.1.woutN + addedCount bank pslot y (m.gen % 16) e.2.2.1
  sizes.foldl max 0

/-- CLAMP_ARR and HMAX of MDT.TILE_DRIFT[t] (R140). -/
def State.viewDrift (s : State) (t : Nat) (v : Word64) : Word64 :=
  let arrs := match s.physOf t with
    | some i => (s.phy i).arrays.map Prod.snd
    | none => []
  let dev := fun (a : Arr) => ((if a.h < 1 then 1 - a.h else a.h - 1) * 32768).floor.toNat
  setIn (setIn v Fld.MDT_TILE_DRIFT_CLAMP_ARR (arrs.filter fun a => a.clamp).length) Fld.MDT_TILE_DRIFT_HMAX ((arrs.map dev).foldl max 0)

/-- THM.TILE[t] from the sensor of the tile that serves the index (R466). -/
def State.viewThmTile (s : State) (t : Nat) : Word64 :=
  match s.physOf t with
  | some i =>
    let k := sensorKey (i / 272) (i % 272)
    setIn (setIn (setIn 0 Fld.THM_TILE_TEMP (unsigned 12 (s.tempAt (i / 272) (i % 272)))) Fld.THM_TILE_BAND (tget 0 s.therm.bands k))
      Fld.THM_TILE_FAILED (b2n (tget 0 s.therm.bad k != 0))
  | none => 0

/-- CHECK_OK of cluster c: every ring is VERIFIED and its last window matched (R355). -/
def State.clusterGood (s : State) (c : Nat) : Bool :=
  clusterOk c && (List.range (clusterRings c)).all fun r => (s.ring c r).st == .verified && (s.ring c r).matchedAt.isSome

/-- Value that function fn reads from an instance: as held, or, for a register that follows its source, computed from it. -/
def State.view (s : State) (fn : Nat) (h : RegHit) : Word64 :=
  let v := s.reg (h.ref fn)
  let i := h.inst
  match h.row.base with
  | 0x8 => Config.serialNumber
  | 0x18 => s.viewSummary
  | 0x20 => setIn (setIn 0 Fld.GLB_FN_PARTITION fn) Fld.GLB_FN_PF (b2n (fn == 0))
  | 0x20008 => BitVec.ofNat 64 s.time
  | 0x30000 => setIn v Fld.QUAD_ID_DIE_ID (Config.dieId i).toNat
  | 0x72000 => s.viewTileStat i
  | 0x85000 => setIn v Fld.MDT_TILE_OUT_WOUT_MAX (s.woutMax i)
  | 0x89000 => s.viewDrift i v
  | 0xB1000 => setIn v Fld.RNG_CLU_STAT_CHECK_OK (b2n (s.clusterGood i))
  | 0x100010 =>
    let u := s.journalUse
    setIn v Fld.TWN_JRN_USED (if u.2 = 0 then 0 else min 100 (u.1 * 100 / u.2))
  | 0x120010 => if fn == 0 && s.flag Reg.HKC_CFG Fld.HKC_CFG_QOWN then (s.popResult).1 else 0
  | 0x131000 => s.viewThmTile i
  | 0x150008 => setIn v Fld.SEC_STAT_CO_LEFT (match s.sec.sessEnd with
    | some t => (t - s.now) / 1000000000
    | none => 0)
  | _ => v

/-- RC fields wholly inside the half that was read clear (R11, R584). -/
def State.clearRc (s : State) (r : RegRef) (fs : List Field) (half : Half) : State :=
  s.each (fs.filter fun f => f.acc == .rc && (match half with
    | .whole => true
    | .low => decide (f.lo + f.w ≤ 32)
    | .high => decide (32 ≤ f.lo))) fun s f => s.setFld r f 0

/-- What a read of an instance does beside returning its value: a read of HKC.QREAD by the consumer removes the oldest result (R442). -/
def State.afterRead (s : State) (fn : Nat) (h : RegHit) (half : Half) : State :=
  if h.row.base = 0x120010 then (if fn == 0 && s.flag Reg.HKC_CFG Fld.HKC_CFG_QOWN then (s.popResult).2 else s)
  else s.clearRc (h.ref fn) h.row.fields half

/-- A 32-bit read of an aligned location: four bytes, and the state after (R581 to R585). -/
def State.read32 (s : State) (fn off : Nat) : List Byte × State :=
  match regHit off with
  | none => (leBytes 4 0, s)
  | some h =>
    if !(s.sees fn h) then (leBytes 4 0, s)
    else if s.unreadable h then (leBytes 4 (2 ^ 32 - 1), s)
    else (leBytes 4 (getBits (s.view fn h) (if h.high then 32 else 0) 32), s.afterRead fn h (if h.high then .high else .low))

/-- A 64-bit read of an aligned location: one snapshot of a 64-bit register, two 32-bit reads elsewhere (R584). -/
def State.read64 (s : State) (fn off : Nat) : List Byte × State :=
  match regHit off with
  | some h =>
    if h.row.width = 64 && !h.high then
      if !(s.sees fn h) then (leBytes 8 0, s)
      else if s.unreadable h then (leBytes 8 (2 ^ 64 - 1), s)
      else (leBytes 8 (s.view fn h).toNat, s.afterRead fn h .whole)
    else
      let (a, s1) := s.read32 fn off
      let (b, s2) := s1.read32 fn (off + 4)
      (a ++ b, s2)
  | none =>
    let (a, s1) := s.read32 fn off
    let (b, s2) := s1.read32 fn (off + 4)
    (a ++ b, s2)

/-- Reads of n consecutive 32-bit locations. -/
def State.reads32 (fn : Nat) : Nat → Nat → State → List Byte × State
  | _, 0, s => ([], s)
  | off, n + 1, s =>
    let (a, s1) := s.read32 fn off
    let (b, s2) := State.reads32 fn (off + 4) n s1
    (a ++ b, s2)

/-- A read of at most 8 bytes inside one aligned 8-byte unit, or of unaligned or partial bytes: then every 32-bit location touched is
read and the bytes asked for are returned (R584). -/
def State.readPiece (s : State) (fn off len : Nat) : List Byte × State :=
  if len = 8 && off % 8 = 0 then s.read64 fn off
  else
    let first := off / 4 * 4
    let (b, s1) := State.reads32 fn first ((off + len - first + 3) / 4) s
    ((b.drop (off - first)).take len, s1)

/-- A read of any length: consecutive accesses within aligned 8-byte units (R584). -/
def State.readAll (fn : Nat) : Nat → Nat → Nat → State → List Byte × State
  | 0, _, _, s => ([], s)
  | k + 1, off, len, s =>
    if len = 0 then ([], s)
    else
      let n := min len (8 - off % 8)
      let (a, s1) := s.readPiece fn off n
      let (b, s2) := State.readAll fn k (off + n) (len - n) s1
      (a ++ b, s2)

/-- A read of BAR0. Up to 8 bytes are one access. -/
def State.readBar0 (s : State) (fn off len : Nat) : List Byte × State :=
  if len ≤ 8 then s.readPiece fn off len else State.readAll fn (len / 8 + 2) off len s

/-! ## What a write does -/

/-- Bits of a register that a host write sets. -/
def writeMask (fs : List Field) : Word64 :=
  (fs.filter fun f => f.acc == .rw || f.acc == .w1s || f.acc == .wo).foldl (fun m f => m ||| putBits 0 f.lo f.w (2 ^ f.w - 1)) 0

/-- Bits of one half of a register. -/
def halfMask : Half → Word64
  | .whole => BitVec.allOnes 64
  | .low => 0x00000000FFFFFFFF
  | .high => 0xFFFFFFFF00000000

/-- A write that the function may make reaches the register: `v` is its value with the writable bits of the half replaced (R11, R12). -/
def State.writeReg (s : State) (fn : Nat) (h : RegHit) (half : Half) (v : Word64) : State :=
  let r := h.ref fn
  let m := writeMask h.row.fields &&& halfMask half
  let x := (s.reg r &&& ~~~m) ||| (v &&& m)
  let i := h.inst
  match h.row.base with
  | 0xD8100 => s.writeRingCfg fn i x
  | 0xD8108 => s.writeSqDb fn i x.toNat
  | 0xD810C => s.writeCqDb fn i x.toNat
  | 0x60008 => if half = .low then (if s.flag r Fld.MMU_INV_BUSY then s.refuseWrite fn (0x60008 + 0x10 * i) else s.wrReg r x) else s.writeInv fn i x
  | 0xC0008 => if half = .high then s else s.writeResTail i (getBits x 0 32)
  | 0xC0018 => if half = .high then s else s.writeFreeHead i (getBits x 0 32)
  | 0xF1000 => if half = .high then s else s.writePortCfg i x
  | 0xF0000 => s.writeLnkCfg x
  | 0x100010 => s.writeJrn fn x
  | 0xD0000 => s.writeSchCfg x
  | 0x110000 => s.writePowCap x
  | 0x120000 => s.writeHkcCfg x
  | 0x20018 =>
    if bitOf v.toNat 0 then s.moduleReset
    else s.each ((List.range 4).filter fun q => bitOf v.toNat (q + 1)) fun s q => s.quadReset q
  | _ => s.wrReg r x

/-- A write of a half or the whole of a register instance by a function (R581 to R585, each block's layout rule). -/
def State.writeHit (s : State) (fn off : Nat) (h : RegHit) (half : Half) (v : Word64) : State :=
  if !(s.sees fn h) then s.refuseWrite fn off
  else if s.unreadable h then s
  else
    let may := match h.row.wr with
      | .ro | .logged => false
      | .pf0 => fn == 0
      | .part => fn == 0 || h.inst == fn
      | .own => true
      | .session => fn == 0 && s.flag Reg.SEC_STAT Fld.SEC_STAT_CO_SESSION
    if may then s.writeReg fn h half v
    else if h.row.wr = .ro then s
    else s.refuseWrite fn off

/-- A 32-bit write of an aligned location. -/
def State.write32 (s : State) (fn off v : Nat) : State :=
  match regHit off with
  | none => s.refuseWrite fn off
  | some h =>
    if h.high then s.writeHit fn off h .high (BitVec.ofNat 64 (v % 2 ^ 32 * 2 ^ 32)) else s.writeHit fn off h .low (BitVec.ofNat 64 (v % 2 ^ 32))

/-- A 64-bit write of an aligned location. -/
def State.write64 (s : State) (fn off v : Nat) : State :=
  let two := (s.write32 fn off (v % 2 ^ 32)).write32 fn (off + 4) (v / 2 ^ 32)
  match regHit off with
  | some h => if h.row.width = 64 && !h.high then s.writeHit fn off h .whole (BitVec.ofNat 64 v) else two
  | none => if (regHit (off + 4)).isNone then s.refuseWrite fn off else two

/-- One write inside an aligned 8-byte unit; partial or unaligned ones are ignored and logged (R584). -/
def State.writePiece (s : State) (fn off : Nat) (bs : List Byte) : State :=
  if bs.length = 8 && off % 8 = 0 then s.write64 fn off (ofLeBytes bs)
  else if bs.length = 4 && off % 4 = 0 then s.write32 fn off (ofLeBytes bs)
  else s.refuseWrite fn off

/-- A write of any length: consecutive accesses within aligned 8-byte units. -/
def State.writeAll (fn : Nat) : Nat → Nat → List Byte → State → State
  | 0, _, _, s => s
  | k + 1, off, bs, s =>
    if bs.isEmpty then s
    else
      let n := 8 - off % 8
      State.writeAll fn k (off + n) (bs.drop n) (s.writePiece fn off (bs.take n))

/-- A write of BAR0. -/
def State.writeBar0 (s : State) (fn off : Nat) (bs : List Byte) : State :=
  if bs.length ≤ 8 then s.writePiece fn off bs else State.writeAll fn (bs.length / 8 + 2) off bs s

/-! ## The aperture (R283) -/

/-- Size of BAR0 and of BAR4. -/
def bar0Size : Nat := 0x1000000
/-- Size of BAR4. -/
def bar4Size : Nat := 0x40000000

/-- An extent lies in a ring area, whose contents are not encrypted (R285). -/
def State.inRingArea (s : State) (a n : Nat) : Bool := (List.range 64).any fun x => inside [s.ringArea x] a n

/-- Bytes that the host reads: a unit that reads as uncorrectable counts, is logged and gives no known byte (R499, R601). -/
def State.hostRead (s : State) (p a n : Nat) : List Byte × State :=
  let bs := if s.inRingArea a n then s.rdRaw a n else s.rdMem p a n
  match s.mem.bad a n with
  | none => (bs, s)
  | some u =>
    let bad := fun x => s.mem.poison.contains (x / 32)
    ((List.range n).map fun i => if bad (a + i) then Config.uncorrectableByte (a + i) s.free else bs.getD i 0, (s.ueAt u).useFree)

/-- 4 KiB pages that a level-2 entry at address w serves, by the level-1 entries of partition p that name its table (R179). -/
def State.pagesAt (s : State) (p w : Nat) : List Nat :=
  let l1 := s.fld (Reg.MMU_ROOT p) Fld.MMU_ROOT_L1PA * 2 ^ 17
  let ks := ((s.mem.cells.filter fun c => l1 ≤ c.1 && c.1 < l1 + 2 ^ 17).map fun c => (c.1 - l1) / 8).eraseDups
  (ks.filter fun k =>
    let e := s.tblEntry p (l1 + 8 * k)
    bitOf e 0 && bitsOf e 21 21 == w / 2 ^ 21).map fun k => k * 2 ^ 18 + w % 2 ^ 21 / 8

/-- Level-2 entries that a host write changes: what translation may still use until they are invalidated (R184). -/
def State.noteStale (s : State) (p a n : Nat) : State :=
  s.each ((List.range ((a + n + 7) / 8 - a / 8)).map fun k => (a / 8 + k) * 8) fun s w =>
    let old := s.rdNum p w 8
    if !(bitOf old 0) then s
    else s.each (s.pagesAt p w) fun s v =>
      let x := s.part p
      if x.stale.any fun r => r.1 == w && r.2.1 == v then s else s.setPart p { x with stale := x.stale ++ [(w, v, old)] }

/-- Bytes that the host writes. -/
def State.hostWrite (s : State) (p a : Nat) (bs : List Byte) : State :=
  if s.inRingArea a bs.length then s.wrRaw a bs else ((s.noteStale p a bs.length).wrMem p a bs).useFree

/-- An access through BAR4: byte o is physical address BASE * 2^30 + o; one that is not admitted is logged with SOURCE 6. An access
through BAR2: byte o of the function's ring area (R285); where the area is not placed yet a write goes nowhere and a read gives no
known byte (log entry 95). -/
def State.aperture (s : State) (fn off : Nat) (acc : ApAccess) : State :=
  let a := s.fld (Reg.SCH_APER fn) Fld.SCH_APER_BASE * 2 ^ 30 + off
  let ring := (s.ringArea fn).1 + off
  let placed := (s.ringArea fn).2 ≠ 0
  match acc with
  | .read n =>
    if s.admits fn a n then
      let (bs, s1) := s.hostRead fn a n
      { s1 with out := bs }
    else { s.violate fn a 6 true false with out := List.replicate n 0xFF }
  | .write bs => if s.admits fn a bs.length then s.hostWrite fn a bs else s.violate fn a 6 true false
  | .ringRead n =>
    if placed then
      let (bs, s1) := s.hostRead fn ring n
      { s1 with out := bs }
    else { s.useFree with out := (List.range n).map fun i => Config.uncorrectableByte (off + i) s.free }
  | .ringWrite bs => if placed then s.hostWrite fn ring bs else s

/-! ## Commands -/

/-- QREAD: a read of HKC.QREAD, whole or one half. -/
def execQread (fn : Nat) (half : Half) (s : State) : Res :=
  .next (s.hostAccess fn true fun s =>
    let (bs, s1) := match half with
      | .whole => s.readBar0 fn 0x120010 8
      | .low => s.readBar0 fn 0x120010 4
      | .high => s.readBar0 fn 0x120014 4
    { s1 with out := bs })

/-- RC_READ: a read of BAR0; RC fields return their value and clear. -/
def execRcRead (fn off len : Nat) (s : State) : Res :=
  .next (s.hostAccess fn true fun s =>
    if bar0Size < off + len then s.urAt fn true
    else
      let (bs, s1) := s.readBar0 fn off len
      { s1 with out := bs })

/-- REGISTER_WRITE: a write of BAR0. `partialBe`: not every byte enable is set. -/
def execRegisterWrite (fn off : Nat) (data : List Byte) (partialBe : Bool) (s : State) : Res :=
  .next (s.reached fn fun s =>
    if bar0Size < off + data.length then s.urAt fn false
    else if partialBe then s.refuseWrite fn off
    else s.writeBar0 fn off data)

/-- Size of BAR2. -/
def bar2Size : Nat := 0x4000000

/-- Whether an access reads, its bytes, and the size of its BAR (R572). -/
def apShape : ApAccess → Bool × Nat × Nat
  | .read n => (true, n, bar4Size)
  | .write bs => (false, bs.length, bar4Size)
  | .ringRead n => (true, n, bar2Size)
  | .ringWrite bs => (false, bs.length, bar2Size)

/-- APERTURE_ACCESS: an access through BAR4 or BAR2; beyond the BAR it is an Unsupported Request (R573). -/
def execApertureAccess (fn off : Nat) (acc : ApAccess) (s : State) : Res :=
  let (rd, n, size) := apShape acc
  .next (s.hostAccess fn rd fun s => if size < off + n then s.urAt fn rd else s.aperture fn off acc)

end Sys2Proof.Machine
end

