-- ==== Sys2Proof/Machine/Host.lean ====
section
/-! DEFINITION. The host link outside BAR0 and BAR4, and the management sideband (R370, R373, R554, R573, R577). -/

namespace Sys2Proof.Machine

/-! ## PCIe -/

/-- UNSUPPORTED_REQUEST: a request that falls in no BAR a function decodes; AER records it at the function, or at PF0. -/
def execUnsupportedRequest (fn : Nat) (isRead : Bool) (s : State) : Res := .next (if !s.hostUp then s else { s.urAt fn isRead with out := [] })

/-- VF_ENABLE_CLEAR: the VFs stop decoding, and their MSI-X tables must be written again (R573). -/
def execVfEnableClear (s : State) : Res :=
  .next (if s.hostUp then
      let s1 := s.each ((List.range 64).drop 1) fun s f => s.msixReset f
      { s1 with pcie := { s1.pcie with vfEnable := false } }
    else s)

/-- VF_ENABLE_SET: NumVFs and VF Enable; TotalVFs is 63. -/
def execVfEnableSet (numVfs : Nat) (s : State) : Res :=
  .next (if s.hostUp && decide (numVfs ≤ 63) then { s with pcie := { s.pcie with vfEnable := true, numVfs := numVfs } } else s)

/-- What a served configuration request does to the function's MSI-X capability (R284): a vector that no mask holds any more sends its
pending message. -/
def State.cfgWrite (s : State) (f : Nat) (acc : CfgAccess) : State :=
  let c := s.pcie
  let put := fun (b : Bool) (x : Nat) (l : List Nat) => if b then x :: l.filter (· != x) else l.filter (· != x)
  match acc with
  | .other => s
  | .msixControl en mask => { s with pcie := { c with msixOn := put en f c.msixOn, funcMask := put mask f c.funcMask } }.sendPending f
  | .msixVector v mask => if 32 ≤ v then s else { s with pcie := { c with unmasked := put (!mask) (32 * f + v) c.unmasked } }.sendPending f

/-- CONFIGURATION_REQUEST: retry status until the end of step 8 (R554). The host link trains after step 4. -/
def execConfigurationRequest (req : CfgRequest) (s : State) : Res :=
  .next (
    if s.phase < 5 then s
    else if !s.hostUp then { s with pcie := { s.pcie with crs := s.pcie.crs ++ [req.fn] } }
    else if s.enabledFn req.fn then { s with pcie := { s.pcie with served := s.pcie.served ++ [req.fn] } }.cfgWrite req.fn req.acc
    else { s with pcie := { s.pcie with unsupported := s.pcie.unsupported ++ [req.fn] } })

/-! ## The sideband (R577) -/

/-- An OEM response: completion code and data. The sideband answers from the end of step 3 on (R575). -/
def State.oem (s : State) (code : Nat) (data : List Byte) : State :=
  { s with side := { s.side with resp := leBytes 1 code ++ data } }

/-- An OEM command of the right length is carried out; of a wrong one it is refused with 0x81. -/
def State.onOem (s : State) (want len : Nat) (f : State → State) : State :=
  if !s.powered then s else if len ≠ want then s.oem 0x81 [] else f s

/-- Role and, of a peer port, number of the peer, that a topology gives port n (R370): 1 peer, 2 switched, 3 twin, 0 unused. -/
def portRoleOf (topo n : Nat) : Nat × Nat :=
  if n = 11 || n = 23 then (3, 0)
  else
    match topo with
    | 0 => if n < 7 then (1, n) else if 12 ≤ n && n < 19 then (1, n - 12) else (2, 0)
    | 1 => if n < 11 then (1, n) else if n < 16 then (1, n - 1) else (2, 0)
    | _ => (2, 0)

/-- Slot of the k-th other module of the board. -/
def peerSlot (mine k : Nat) : Nat := if k < mine then k else k + 1

/-- Ports take the roles of the topology. -/
def State.setRoles (s : State) : State :=
  let topo := s.fld Reg.LNK_COORD Fld.LNK_COORD_TOPO
  s.each (List.range 24) fun s n =>
    let (role, k) := portRoleOf topo n
    let r := Reg.LNK_PORT_CFG n
    (s.setFld r Fld.LNK_PORT_CFG_ROLE role).setFld r Fld.LNK_PORT_CFG_PEER_SLOT
      (if role = 1 then peerSlot (s.fld Reg.LNK_COORD Fld.LNK_COORD_SLOT) k else 0)

/-- SET_COORD. -/
def execSetCoord (value : Word64) (len : Nat) (s : State) : Res :=
  .next (s.onOem 8 len fun s =>
    if (List.range 24).any (fun n => s.portSt n == 2) || 16384 ≤ getBits value 0 16 || getBits value 44 2 = 3 then s.oem 0x80 []
    else ((s.wrReg Reg.LNK_COORD (BitVec.ofNat 64 (value.toNat % 2 ^ 47))).setRoles).oem 0 [])

/-- SET_CAP. -/
def execSetCap (watts : BitVec 16) (len : Nat) (s : State) : Res :=
  .next (s.onOem 2 len fun s =>
    let s1 := (s.setFld Reg.POW_CAP Fld.POW_CAP_BMC_CAP (min 4095 watts.toNat)).freshCap
    s1.oem 0 (leBytes 2 (s1.fld Reg.POW_STAT Fld.POW_STAT_CAP_EFF)))

/-- GET_DEVPUB. -/
def execGetDevpub (len : Nat) (s : State) : Res :=
  .next (s.onOem 0 len fun s =>
    if s.sec.zeroing then s.oem 0x80 []
    else s.oem 0 ((List.range 12).flatMap fun k => leBytes 8 (s.reg (Reg.SEC_DEVPUB k)).toNat))

/-- GET_STATE. -/
def execGetState (len : Nat) (s : State) : Res :=
  .next (s.onOem 0 len fun s =>
    s.oem 0 (leBytes 4 (getBits (s.reg Reg.CLK_START) 0 32) ++ leBytes 4 (getBits (s.reg Reg.POW_STAT) 32 4) ++
      leBytes 4 (getBits (s.reg Reg.THM_STAT) 0 3) ++ leBytes 4 (getBits (s.reg Reg.TWN_STAT) 0 3)))

end Sys2Proof.Machine
end

