-- ==== Sys2Proof/Machine/Logs.lean ====
section
/-! DEFINITION. Completion rings as they are written, and the logs as LOG_READ copies them (R289, R295, R312, R313, R509, R511). -/

namespace Sys2Proof.Machine

/-! ## Completion rings (R287, R289, R295) -/

/-- Address of entry i of a completion ring. -/
def State.cqAddr (s : State) (f r i : Nat) : Nat :=
  let c := Reg.SCH_RING_CFG f r
  s.fld (Reg.SCH_RING_AREA f) Fld.SCH_RING_AREA_BASE * 2 ^ 26 + s.fld c Fld.SCH_RING_CFG_CQ_OFF * 4096 + i % 2 ^ s.fld c Fld.SCH_RING_CFG_CQ_LOG2 * 32

/-- One 32-byte entry written at CQ_TAIL. -/
def State.putCqe (s : State) (f r : Nat) (bs : List Byte) : State :=
  let x := Reg.SCH_RING_IDX f r
  let tail := s.fld x Fld.SCH_RING_IDX_CQ_TAIL
  (s.wrRaw (s.cqAddr f r tail) bs).setFld x Fld.SCH_RING_IDX_CQ_TAIL (tail + 1)

/-- The first n 32-byte entries of a list of bytes written from CQ_TAIL on. -/
def State.putEntries (s : State) (f r n : Nat) (bs : List Byte) : State :=
  s.each (List.range n) fun s k => s.putCqe f r ((bs.drop (32 * k)).take 32)

/-- Bytes of an entry as it is written: a reply carries the module time of its writing (R292). -/
def State.outBytes (s : State) (o : Out) : List Byte := if o.isReply then o.bytes.take 24 ++ leBytes 8 s.time else o.bytes

/-- The oldest waiting entry of a pair is written, if the ring has room for all of it; otherwise its wait counts once (R289). -/
def State.writeOut (s : State) (f r : Nat) : State :=
  let x := s.pair f r
  match x.out with
  | [] => s
  | o :: t =>
    let n := o.bytes.length / 32
    if s.cqRoom f r < n then
      if o.waited then s
      else (s.setPair f r { x with out := { o with waited := true } :: t }).bump (Reg.SCH_RING_STAT f r) Fld.SCH_RING_STAT_CQ_FULL
    else
      let s1 := (s.putEntries f r n (s.outBytes o)).setPair f r
        { x with out := t, open_ := if o.isReply && o.final then x.open_.erase o.seq else x.open_ }
      (s1.when (o.irq || o.stepEnd) fun s => s.raiseRing f r).fenceSweep f

/-- COMPLETION_WRITE: the ring engine writes the oldest entry that waits for a pair's completion ring. -/
def execCompletionWrite (fn ring at_ : Nat) (s : State) : Res :=
  let s := s.tick at_
  onObject (decide (fn < 64) && decide (ring < 17)) (s.writeOut fn ring)

/-- FULL_RING_REMINDER: the vector of a ring that stays full is raised again every 1 ms (R511). -/
def execFullRingReminder (fn ring at_ : Nat) (s : State) : Res :=
  let s := s.tick at_
  onObject (decide (fn < 64) && decide (ring < 17))
    (match (s.pair fn ring).out with
     | [] => s
     | o :: _ =>
       let last := ((s.pcie.msix.find? fun m => m.1 == fn && m.2.1 == ring).map fun m => m.2.2).getD 0
       if o.waited && s.cqRoom fn ring < o.bytes.length / 32 && decide (max o.since last + 1000000 ≤ s.now) then s.raise fn ring else s)

/-! ## Log entries as bytes (R312, R509) -/

/-- A violation-log entry. -/
def VEntry.bytes (e : VEntry) : List Byte :=
  leBytes 8 e.time ++ leBytes 6 e.addr ++ leBytes 1 e.source ++ leBytes 1 (e.part % 64 + 64 * b2n e.phys + 128 * b2n e.value)

/-- A fault-log entry. -/
def FEntry.bytes (e : FEntry) : List Byte :=
  leBytes 8 e.time ++ leBytes 2 e.code ++ leBytes 1 e.level ++ leBytes 1 e.source ++ leBytes 4 e.object ++
    (e.data ++ List.replicate (16 - e.data.length) 0).take 16

/-- One bit of the CRC-32 of R415. -/
def crcBit (c : BitVec 32) : BitVec 32 := if c.getLsbD 0 then (c >>> 1) ^^^ 0xEDB88320 else c >>> 1

/-- CRC-32 of IEEE 802.3 over bytes, reflected (R415). -/
def crc32 (bs : List Byte) : BitVec 32 :=
  bs.foldl (fun c b => (List.range 8).foldl (fun c _ => crcBit c) (c ^^^ b.setWidth 32)) 0xFFFFFFFF ^^^ 0xFFFFFFFF

/-- The 126 entries of the fault log in the order of its ring, unused ones 0. -/
def FLog.ring (l : FLog) : List Byte :=
  (List.range 126).flatMap fun i =>
    match l.entries[(i + 126 - l.first % 126) % 126]? with
    | some e => e.bytes
    | none => List.replicate 32 0

/-- The fault log's 64-byte header. -/
def FLog.header (l : FLog) : List Byte :=
  let h := leBytes 4 0x0832FA17 ++ leBytes 4 l.seq ++ leBytes 2 l.first ++ leBytes 2 l.entries.length ++ leBytes 4 l.lost ++ List.replicate 44 0
  h ++ leBytes 4 (crc32 (h ++ l.ring)).toNat

/-- What LOG_READ copies: entries from FIRST, counted from the oldest held, COUNT or as many as are held (R313). -/
def State.logBytes (s : State) (p log first count : Nat) : List Byte :=
  match log with
  | 0 => (((s.part p).viol.drop first).take count).flatMap VEntry.bytes
  | 1 => ((s.globalLog.drop first).take count).flatMap VEntry.bytes
  | _ => s.faultLog.header ++ ((s.faultLog.entries.drop first).take count).flatMap FEntry.bytes

/-- LOG_READ as CP serves it (R303, R313): logs 1 and 2 are partition 0's. -/
def State.svcLogRead (s : State) (h : Hdr) (log byte1 : BitVec 8) (first : BitVec 16) (count : BitVec 32) (destVa : BitVec 64) : State :=
  let b := s.logBytes h.fn log.toNat first.toNat count.toNat
  s.checked h 0x68
    [chkForm (decide (log.toNat ≤ 2)) 0, chkId (log == 0 || h.fn == 0) log.toNat, chkForm (byte1 == 0) 1, s.chkVa h.fn destVa.toNat b.length] fun s =>
    match s.wrVa h.fn destVa.toNat b with
    | .inl s1 => s1.reply h 0x68 stOK b.length 0
    | .inr _ => s

end Sys2Proof.Machine
end

