-- ==== Sys2Proof/Machine/Scree.lean ====
section
/-! DEFINITION. The Scree scanner, the ends of parks and restores, write-backs of the context cache and frames that go back
(R192, R201 to R204, R222). -/

namespace Sys2Proof.Machine

/-- The scanner visits one context: a long PAUSED one is parked, a long PARKED one expires; frames that it still holds go back with
REASON 3 (R192, R201, R204). -/
def State.scanOne (s : State) (i : Nat) : State :=
  let c := s.ctx i
  let a := s.auxOf i
  let r := Reg.KVT_SCREE_CFG c.part
  let after := s.fld r Fld.KVT_SCREE_CFG_PARK_AFTER * 100000000
  if c.st == .paused && a.park.isNone && a.restore.isNone && !(s.inStep i) && !(s.flag r Fld.KVT_SCREE_CFG_PARK_OFF) &&
      (after == 0 || decide (c.timestamp + after < s.time)) then (s.startPark i none).1
  else if c.st == .parked && a.restore.isNone && decide (c.timestamp + s.fld r Fld.KVT_SCREE_CFG_TTL * 1000000000 ≤ s.time) then
    ((s.freeExtents c.part c.parkExt).freeFrames c 3).putCtx i { c with st := .expired }
  else s

/-- The same under the settings in force for the context's placement (R206). -/
def State.scanCtx (s : State) (i : Nat) : State := s.under (s.ctx i).placement fun s => s.scanOne i

/-- SCREE_SCAN: once per 10 ms of module time. -/
def execScreeScan (at_ : Nat) (s : State) : Res :=
  let s := s.tick at_
  let k := s.time / 10000000 + 1
  .next (if s.sched.scanAt = k then s
    else { s with sched := { s.sched with scanAt := k } }.each (tkeys s.ctxs) fun s i => s.scanCtx i)

/-- The effect of a park whose DMA is complete: the image stands in host memory and the frames go back; the context is PARKED at once,
or when the free ring has taken its last frame (R192, R201). -/
def State.endPark (s : State) (i : Nat) (m : Move) : State :=
  let l := (s.ctx i).placement
  let p := (s.ctx i).part
  let s1 := s.under l fun s => s.writePark i m
  let fs := ((s1.asOf l).framesOf (s1.ctx i)).map Prod.snd
  let s2 := s1.freeFrames (s1.ctx i) 2
  if (s2.retLeft p fs).isEmpty then s2.parkEnds i
  else s2.setPart p { s2.part p with retWaits := (s2.part p).retWaits ++ [{ ctx := i, frames := fs }] }

/-- PARK_COMPLETE (R202). -/
def execParkComplete (ctx at_ : Nat) (s : State) : Res :=
  let s := s.tick at_
  onObject (decide (ctx < 4194304))
    (match (s.auxOf ctx).park with
     | some m => if s.parkFreed ctx then s else s.endPark ctx m
     | none => s)

/-- The effect of a restore whose DMA is complete: what waited for it takes effect, or the context is PAUSED anew. -/
def State.endRestore (s : State) (i : Nat) (m : Move) : State :=
  let s1 := ((s.under (s.ctx i).placement fun s => s.readPark i m).freeExtents (s.ctx i).part m.extent).setAux i { s.auxOf i with restore := none }
  let s2 := match m.thenOp with
    | some op => s1.applyOp i op
    | none => s1.putCtx i { s1.ctx i with st := .paused, timestamp := s1.time }
  let s3 := match m.reply with
    | some (h, op) => s2.reply h op stOK 0 0
    | none => s2
  s3.applyHeld i

/-- RESTORE_COMPLETE (R203). -/
def execRestoreComplete (ctx at_ : Nat) (s : State) : Res :=
  let s := s.tick at_
  onObject (decide (ctx < 4194304))
    (match (s.auxOf ctx).restore with
     | some m => if m.ready then s.endRestore ctx m else s
     | none => s)

/-- CONTEXT_CACHE_WRITE_BACK: dirty descriptors of a quadrant's cache go to the table (R222). -/
def execContextCacheWriteBack (q : Nat) (s : State) : Res :=
  onObject (decide (q < 4)) (s.each (s.cached q) fun s i => if (s.auxOf i).dirty then s.writeBack i else s)

/-- FRAME_RETURN: frames that wait go to the free ring as far as it has room (R192). -/
def execFrameReturn (p : Nat) (s : State) : Res := onObject (decide (p < 64)) (s.freeRun p)

end Sys2Proof.Machine
end

