-- ==== Sys2Proof/Machine/Service.lean ====
section
/-! DEFINITION. C-class packets from their fetch to their processor, slices of long operations, and a processor that takes up its duties
again (R297, R303, R308, R473, R475, R476, R485, R554). -/

namespace Sys2Proof.Machine

/-! ## A packet at its processor -/

/-- A processor starts a packet. -/
def State.serve (s : State) (h : Hdr) (c : CPacket) : State :=
  if !(s.partExists h.fn) then s
  else
    match c with
    | .partCreate part rsv ringArea root => s.svcPartCreate h part rsv ringArea root
    | .partDestroy part byte1 rsv => s.svcPartDestroy h part byte1 rsv
    | .partSet hd items => s.svcPartSet h hd items
    | .modelLoad q image => s.svcModelLoad h q image
    | .modelSwap q image => s.svcModelSwap h q image
    | .modelUnload m b rsv => s.svcModelUnload h m b rsv
    | .place q => s.svcPlace h q
    | .calRun scope b index rsv => s.svcCalRun h scope b index rsv
    | .calQuery what b index rsv va n rsv20 => s.svcCalQuery h what b index rsv va n rsv20
    | .testRun tile kind rsv => s.svcTestRun h tile kind rsv
    | .fwStage offset bytes src rsv data => s.svcFwStage h offset bytes src rsv data
    | .fwActivate bank rsv sigOk => s.svcFwActivate h bank rsv sigOk
    | .twinPair peer b rsv => s.svcTwinPair h peer b rsv
    | .twinUnpair b rsv => s.svcTwinUnpair h b rsv
    | .fabricJoin mask rsv => s.svcFabricJoin h mask rsv
    | .linkQuery port rsv va => s.svcLinkQuery h port rsv va
    | .logRead log b first count va => s.svcLogRead h log b first count va
    | .keyLoad part rsv va n rsv20 sigOk eq => s.svcKeyLoad h part rsv va n rsv20 sigOk eq
    | .keyRetire part rsv => s.svcKeyRetire h part rsv
    | .zeroize rsv => s.svcZeroize h rsv

/-- Recovery, where SEP's ROM serves packets (R473). -/
def State.recovery (s : State) : Bool := s.flag Reg.FWP_BOOT Fld.FWP_BOOT_RECOVERY

/-- A packet is served at all at this stage: in recovery FW_STAGE, FW_ACTIVATE and LOG_READ, from the end of step 8 to READY FW_STAGE
and LOG_READ, at READY every packet (R473, R554). -/
def State.stageServes (s : State) (c : CPacket) : Bool :=
  match c with
  | .fwStage .. | .logRead .. => true
  | .fwActivate .. => s.recovery || s.ready
  | _ => !s.recovery && s.ready

/-- Packets that wait for a processor, in their order, with QUEUED. -/
def State.setProcQueue (s : State) (i : Nat) (q : List (Hdr × CPacket)) : State :=
  (s.setProc i { s.proc i with queue := q }).setFld (Reg.FWP_PROC i) Fld.FWP_PROC_QUEUED q.length

/-- The C-ring fetch passes over a packet whose processor's queue is full, and over all while an activation awaits its global cairn or its
processors (R476, R485). -/
def State.passedOver (s : State) (c : CPacket) : Bool :=
  2 ≤ s.fw.phase || (!s.recovery && !(s.alive c.proc) && 64 ≤ (s.proc c.proc).queue.length)

/-- A long operation has a slice for its processor to run now; the others go on with events of their own, or wait for one. -/
def State.wantsSlice (s : State) (o : LongOp) : Bool :=
  match o.pkt with
  | .partDestroy .. | .zeroize .. => true
  | .modelLoad q _ => q.source != 1
  | .modelSwap q _ => match (s.model q.modelId.toNat).swap with
    | some w => o.stage == 0 || (w.holdAt.isSome && decide (o.done < o.total))
    | none => true
  | .fwStage .. => s.flashMay 3
  | .fwActivate .. => s.fw.phase == 1
  | _ => false

/-- Requesters of processor i's service arbiter: for partition p, 2p asks for a new packet, 2p + 1 for its long operations (R308). -/
def State.serviceAsks (s : State) (i k : Nat) : Bool :=
  if k % 2 = 0 then (s.proc i).queue.any fun x => x.1.fn == k / 2
  else s.longOps.any fun o => o.h.fn == k / 2 && o.pkt.proc == i && s.wantsSlice o

/-- The requester that processor i's service arbiter grants, when k asks too. -/
def State.serviceMay (s : State) (i k : Nat) : Bool := granted 128 (s.proc i).ptr (fun j => j == k || s.serviceAsks i j) == some k

/-- The pointer after a grant to requester k. -/
def State.serviceDone (s : State) (i k : Nat) : State := s.setProc i { s.proc i with ptr := (k + 1) % 128 }

/-- A packet starts: a grant to the new packets of its partition. -/
def State.start (s : State) (h : Hdr) (c : CPacket) : State := (s.serviceDone c.proc (2 * h.fn)).serve h c

/-- A C-class packet: fetched when it can be, checked by R291, and started at once, or queued while its processor is not ALIVE. The moment of
its fetch stands for that of its grant (log entry 104). -/
def State.cPacket (s : State) (h : Hdr) (c : CPacket) : State :=
  if s.passedOver c then s
  else
    s.fetching h fun s =>
      let t := s.takePacket h
      match s.headerChk h c.opcode true (c.lenOk h.length.toNat) (!c.pf0 || h.fn == 0) with
      | .pass =>
        if !(s.stageServes c) then t.reply h c.opcode stDeferred 0 0
        else if s.recovery || s.alive c.proc then t.start h c
        else t.setProcQueue c.proc ((t.proc c.proc).queue ++ [(h, c)])
      | k => t.fail h c.opcode k

/-! ## Commands: C-class packets (R303, R306) -/

/-- PART_CREATE. -/
def execPartCreate (h : Hdr) (part : BitVec 8) (rsv : BitVec 56) (ringArea root : BitVec 64) (s : State) : Res :=
  .next (s.cPacket h (.partCreate part rsv ringArea root))

/-- PART_DESTROY. -/
def execPartDestroy (h : Hdr) (part byte1 : BitVec 8) (rsv : BitVec 48) (s : State) : Res := .next (s.cPacket h (.partDestroy part byte1 rsv))

/-- PART_SET whose first item is ESC. -/
def execPartSetEsc (h : Hdr) (ps : PsHead) (len : BitVec 16) (rsv : BitVec 32) (sat zro : BitVec 16) (rest : List PsItem) (s : State) : Res :=
  .next (s.cPacket h (.partSet ps (.esc len rsv sat zro :: rest)))

/-- PART_SET whose first item is AGE. -/
def execPartSetAge (h : Hdr) (ps : PsHead) (len : BitVec 16) (rsv : BitVec 32) (steps rsv1 : BitVec 8) (time : BitVec 16)
    (rest : List PsItem) (s : State) : Res :=
  .next (s.cPacket h (.partSet ps (.age len rsv steps rsv1 time :: rest)))

/-- PART_SET whose first item is RANGES. -/
def execPartSetRanges (h : Hdr) (ps : PsHead) (len : BitVec 16) (rsv : BitVec 32) (ctxFirst ctxCount : BitVec 32)
    (tagFirst tagCount : BitVec 16) (rest : List PsItem) (s : State) : Res :=
  .next (s.cPacket h (.partSet ps (.ranges len rsv ctxFirst ctxCount tagFirst tagCount :: rest)))

/-- PART_SET whose first item is BUCKETS. -/
def execPartSetBuckets (h : Hdr) (ps : PsHead) (len : BitVec 16) (rsv : BitVec 32) (first count : BitVec 16) (refill burst : BitVec 32)
    (rest : List PsItem) (s : State) : Res :=
  .next (s.cPacket h (.partSet ps (.buckets len rsv first count refill burst :: rest)))

/-- PART_SET whose first item is RES_RING. -/
def execPartSetResRing (h : Hdr) (ps : PsHead) (len : BitVec 16) (rsv : BitVec 32) (value : BitVec 64) (rest : List PsItem) (s : State) : Res :=
  .next (s.cPacket h (.partSet ps (.resRing len rsv value :: rest)))

/-- PART_SET whose first item is FREE_RING. -/
def execPartSetFreeRing (h : Hdr) (ps : PsHead) (len : BitVec 16) (rsv : BitVec 32) (value : BitVec 64) (rest : List PsItem) (s : State) : Res :=
  .next (s.cPacket h (.partSet ps (.freeRing len rsv value :: rest)))

/-- PART_SET whose first item is SCRATCH. -/
def execPartSetScratch (h : Hdr) (ps : PsHead) (len : BitVec 16) (rsv : BitVec 32) (frames : BitVec 16) (rest : List PsItem) (s : State) : Res :=
  .next (s.cPacket h (.partSet ps (.scratch len rsv frames :: rest)))

/-- PART_SET whose first item is SCREE. -/
def execPartSetScree (h : Hdr) (ps : PsHead) (len : BitVec 16) (rsv : BitVec 32) (parkAfter ttl : BitVec 16) (base bytes : BitVec 64)
    (rest : List PsItem) (s : State) : Res :=
  .next (s.cPacket h (.partSet ps (.scree len rsv parkAfter ttl base bytes :: rest)))

/-- PART_SET whose first item is PROFILES. -/
def execPartSetProfiles (h : Hdr) (ps : PsHead) (len : BitVec 16) (rsv : BitVec 32) (value : BitVec 64) (rest : List PsItem) (s : State) : Res :=
  .next (s.cPacket h (.partSet ps (.profiles len rsv value :: rest)))

/-- PART_SET whose first item is MMU_ROOT. -/
def execPartSetMmuRoot (h : Hdr) (ps : PsHead) (len : BitVec 16) (rsv : BitVec 32) (value : BitVec 64) (rest : List PsItem) (s : State) : Res :=
  .next (s.cPacket h (.partSet ps (.mmuRoot len rsv value :: rest)))

/-- PART_SET whose first item is WINDOW. -/
def execPartSetWindow (h : Hdr) (ps : PsHead) (len : BitVec 16) (rsv : BitVec 32) (index : BitVec 8) (rsv1 : BitVec 56)
    (base bytes : BitVec 64) (rest : List PsItem) (s : State) : Res :=
  .next (s.cPacket h (.partSet ps (.window len rsv index rsv1 base bytes :: rest)))

/-- PART_SET whose first item is TILES. -/
def execPartSetTiles (h : Hdr) (ps : PsHead) (len : BitVec 16) (rsv : BitVec 32) (first count : BitVec 16) (mode : BitVec 8)
    (rsv5 : BitVec 24) (rest : List PsItem) (s : State) : Res :=
  .next (s.cPacket h (.partSet ps (.tiles len rsv first count mode rsv5 :: rest)))

/-- PART_SET whose first item is IDS. -/
def execPartSetIds (h : Hdr) (ps : PsHead) (len : BitVec 16) (rsv : BitVec 32) (modelFirst modelCount placeFirst placeCount : BitVec 16)
    (rest : List PsItem) (s : State) : Res :=
  .next (s.cPacket h (.partSet ps (.ids len rsv modelFirst modelCount placeFirst placeCount :: rest)))

/-- MODEL_LOAD. -/
def execModelLoad (h : Hdr) (p : LoadParams) (image : List Byte) (s : State) : Res := .next (s.cPacket h (.modelLoad p image))

/-- MODEL_SWAP. -/
def execModelSwap (h : Hdr) (p : LoadParams) (image : List Byte) (s : State) : Res := .next (s.cPacket h (.modelSwap p image))

/-- MODEL_UNLOAD. -/
def execModelUnload (h : Hdr) (modelId : BitVec 16) (byte2 : BitVec 8) (rsv : BitVec 40) (s : State) : Res :=
  .next (s.cPacket h (.modelUnload modelId byte2 rsv))

/-- PLACE. -/
def execPlace (h : Hdr) (p : PlaceParams) (s : State) : Res := .next (s.cPacket h (.place p))

/-- CAL_RUN. -/
def execCalRun (h : Hdr) (scope byte1 : BitVec 8) (index : BitVec 16) (rsv : BitVec 32) (s : State) : Res :=
  .next (s.cPacket h (.calRun scope byte1 index rsv))

/-- CAL_QUERY. -/
def execCalQuery (h : Hdr) (what byte1 : BitVec 8) (index : BitVec 16) (rsv : BitVec 32) (destVa : BitVec 64) (bytes rsv20 : BitVec 32)
    (s : State) : Res :=
  .next (s.cPacket h (.calQuery what byte1 index rsv destVa bytes rsv20))

/-- TEST_RUN. -/
def execTestRun (h : Hdr) (tile : BitVec 16) (kind : BitVec 8) (rsv : BitVec 40) (s : State) : Res := .next (s.cPacket h (.testRun tile kind rsv))

/-- FW_STAGE. -/
def execFwStage (h : Hdr) (offset bytes : BitVec 32) (src rsv : BitVec 64) (data : List Byte) (s : State) : Res :=
  .next (s.cPacket h (.fwStage offset bytes src rsv data))

/-- FW_ACTIVATE. -/
def execFwActivate (h : Hdr) (bank : BitVec 8) (rsv : BitVec 56) (sigOk : Bool) (s : State) : Res := .next (s.cPacket h (.fwActivate bank rsv sigOk))

/-- TWIN_PAIR. -/
def execTwinPair (h : Hdr) (peer : BitVec 16) (byte2 : BitVec 8) (rsv : BitVec 40) (s : State) : Res := .next (s.cPacket h (.twinPair peer byte2 rsv))

/-- TWIN_UNPAIR. -/
def execTwinUnpair (h : Hdr) (byte0 : BitVec 8) (rsv : BitVec 56) (s : State) : Res := .next (s.cPacket h (.twinUnpair byte0 rsv))

/-- FABRIC_JOIN. -/
def execFabricJoin (h : Hdr) (mask : BitVec 24) (rsv : BitVec 40) (s : State) : Res := .next (s.cPacket h (.fabricJoin mask rsv))

/-- LINK_QUERY. -/
def execLinkQuery (h : Hdr) (port : BitVec 8) (rsv : BitVec 56) (destVa : BitVec 64) (s : State) : Res := .next (s.cPacket h (.linkQuery port rsv destVa))

/-- LOG_READ. -/
def execLogRead (h : Hdr) (log byte1 : BitVec 8) (first : BitVec 16) (count : BitVec 32) (destVa : BitVec 64) (s : State) : Res :=
  .next (s.cPacket h (.logRead log byte1 first count destVa))

/-- KEY_LOAD. -/
def execKeyLoad (h : Hdr) (part : BitVec 8) (rsv : BitVec 56) (keyVa : BitVec 64) (keyBytes rsv20 : BitVec 32) (sigOk halvesEqual : Bool)
    (s : State) : Res :=
  .next (s.cPacket h (.keyLoad part rsv keyVa keyBytes rsv20 sigOk halvesEqual))

/-- OPEN_SESSION: KEY_LOAD with PARTITION 0xFF (R529). -/
def execOpenSession (h : Hdr) (rsv : BitVec 56) (keyVa : BitVec 64) (keyBytes rsv20 : BitVec 32) (sigOk : Bool) (s : State) : Res :=
  .next (s.cPacket h (.keyLoad 0xFF rsv keyVa keyBytes rsv20 sigOk false))

/-- KEY_RETIRE. -/
def execKeyRetire (h : Hdr) (part : BitVec 8) (rsv : BitVec 56) (s : State) : Res := .next (s.cPacket h (.keyRetire part rsv))

/-- ZEROIZE. -/
def execZeroize (h : Hdr) (rsv : BitVec 64) (s : State) : Res := .next (s.cPacket h (.zeroize rsv))

/-! ## Slices (R308) -/

/-- One slice: `amount` bytes of a load or of staging, or layers of a swap. -/
def State.runLong (s : State) (o : LongOp) (amount : Nat) : State :=
  match o.pkt with
  | .partDestroy part _ _ => s.sliceDestroy o part.toNat
  | .modelLoad q image => s.sliceLoad o q image amount
  | .modelSwap q image => s.sliceSwap o q image amount
  | .fwStage offset _ _ _ data => s.sliceStage o offset.toNat data
  | .fwActivate bank _ sigOk => s.sliceActivate o bank.toNat sigOk
  | .zeroize _ => s.sliceZeroize o
  | _ => s

/-- The operation stands first among those of its partition and processor that have a slice to run (R308). -/
def State.oldestOp (s : State) (o : LongOp) : Bool :=
  match s.longOps.find? fun x => x.h.fn == o.h.fn && x.pkt.proc == o.pkt.proc && s.wantsSlice x with
  | some x => x.id == o.id
  | none => false

/-- LONG_OPERATION_SLICE: the service arbiter's grant to the oldest long operation of a partition; one that is not the arbiter's next, or not
the oldest, waits (R296, R308). -/
def execLongOperationSlice (fn seq amount at_ : Nat) (s : State) : Res :=
  let s := s.tick at_
  onObject (decide (fn < 64))
    (match s.longOps.find? fun o => o.h.fn == fn && o.h.seq.toNat == seq && s.oldestOp o with
     | some o =>
       let i := o.pkt.proc
       if (s.recovery || s.alive i) && s.serviceMay i (2 * fn + 1) then (s.serviceDone i (2 * fn + 1)).runLong o amount else s
     | none => s)

/-! ## ALIVE (R475, R476) -/

/-- What a processor does first when it takes up its duties. -/
def State.takesUp (s : State) (i : Nat) : State :=
  match i with
  | 0 => s.startRuns
  | 1 => s.governorOff
  | 2 => s
  | 3 => s.zeroDebugRun
  | _ => s.sweepAll (i - 4)

/-- Packets that have waited for processor i start, the service arbiter choosing among their partitions; those of one partition keep their
order (R308, R476). -/
def State.serveQueue (i : Nat) : Nat → State → State
  | 0, s => s
  | k + 1, s =>
    let q := (s.proc i).queue
    match granted 128 (s.proc i).ptr fun j => j % 2 == 0 && q.any fun x => x.1.fn == j / 2 with
    | none => s
    | some j => match q.find? fun x => x.1.fn == j / 2 with
      | some x => State.serveQueue i k ((s.setProcQueue i (q.erase x)).start x.1 x.2)
      | none => s

/-- Processor i is ALIVE again: it carries on its duties and serves its queue. -/
def State.comesAlive (s : State) (i : Nat) : State :=
  let s1 := ((s.setFlag (Reg.FWP_PROC i) Fld.FWP_PROC_ALIVE true).takesUp i).actCheck
  State.serveQueue i (s1.proc i).queue.length s1

/-- ALIVE: a restart after an uncorrectable error needs SEP, and waits for it. -/
def execAlive (i at_ : Nat) (s : State) : Res :=
  let s := s.tick at_
  onObject (decide (i < 8))
    (let waits := i ≠ 3 && s.fld (Reg.FWP_PROC i) Fld.FWP_PROC_LAST_CAUSE = 3 && !(s.alive 3)
     if s.alive i || s.phase < 9 || s.recovery || waits || (4 ≤ i && s.quadOff (i - 4)) then s else s.comesAlive i)

end Sys2Proof.Machine
end

