-- ==== Sys2Proof/Machine/Dispatch.lean ====
section
/-! DEFINITION. What each command does to everything but the queue: one arm per command, each a direct call of its meaning. -/

namespace Sys2Proof.Machine

def exec (i : Instr) (s : State) : Host.Outcome State Fault Refusal :=
  match i with
  | .sessionOpen h p => Sys2Proof.Machine.execSessionOpen h p s
  | .sessionAppend h p => Sys2Proof.Machine.execSessionAppend h p s
  | .sessionPause h context rsv => Sys2Proof.Machine.execSessionPause h context rsv s
  | .sessionResume h p => Sys2Proof.Machine.execSessionResume h p s
  | .sessionClose h context rsv => Sys2Proof.Machine.execSessionClose h context rsv s
  | .specTree h context n rsv treeVa => Sys2Proof.Machine.execSpecTree h context n rsv treeVa s
  | .cairn h placement rsv => Sys2Proof.Machine.execCairn h placement rsv s
  | .ridge h placement lead load duration => Sys2Proof.Machine.execRidge h placement lead load duration s
  | .fence h mask rsv => Sys2Proof.Machine.execFence h mask rsv s
  | .kvPark h context rsv => Sys2Proof.Machine.execKvPark h context rsv s
  | .kvRestore h context rsv => Sys2Proof.Machine.execKvRestore h context rsv s
  | .unassignedOpcode h opcode => Sys2Proof.Machine.execUnassignedOpcode h opcode s
  | .partCreate h part rsv ringArea root => Sys2Proof.Machine.execPartCreate h part rsv ringArea root s
  | .partDestroy h part byte1 rsv => Sys2Proof.Machine.execPartDestroy h part byte1 rsv s
  | .partSetEsc h ps len rsv sat zro rest => Sys2Proof.Machine.execPartSetEsc h ps len rsv sat zro rest s
  | .partSetAge h ps len rsv steps rsv1 time rest => Sys2Proof.Machine.execPartSetAge h ps len rsv steps rsv1 time rest s
  | .partSetRanges h ps len rsv ctxFirst ctxCount tagFirst tagCount rest => Sys2Proof.Machine.execPartSetRanges h ps len rsv ctxFirst ctxCount tagFirst tagCount rest s
  | .partSetBuckets h ps len rsv first count refill burst rest => Sys2Proof.Machine.execPartSetBuckets h ps len rsv first count refill burst rest s
  | .partSetResRing h ps len rsv value rest => Sys2Proof.Machine.execPartSetResRing h ps len rsv value rest s
  | .partSetFreeRing h ps len rsv value rest => Sys2Proof.Machine.execPartSetFreeRing h ps len rsv value rest s
  | .partSetScratch h ps len rsv frames rest => Sys2Proof.Machine.execPartSetScratch h ps len rsv frames rest s
  | .partSetScree h ps len rsv parkAfter ttl base bytes rest => Sys2Proof.Machine.execPartSetScree h ps len rsv parkAfter ttl base bytes rest s
  | .partSetProfiles h ps len rsv value rest => Sys2Proof.Machine.execPartSetProfiles h ps len rsv value rest s
  | .partSetMmuRoot h ps len rsv value rest => Sys2Proof.Machine.execPartSetMmuRoot h ps len rsv value rest s
  | .partSetWindow h ps len rsv index rsv1 base bytes rest => Sys2Proof.Machine.execPartSetWindow h ps len rsv index rsv1 base bytes rest s
  | .partSetTiles h ps len rsv first count mode rsv5 rest => Sys2Proof.Machine.execPartSetTiles h ps len rsv first count mode rsv5 rest s
  | .partSetIds h ps len rsv modelFirst modelCount placeFirst placeCount rest => Sys2Proof.Machine.execPartSetIds h ps len rsv modelFirst modelCount placeFirst placeCount rest s
  | .modelLoad h p image => Sys2Proof.Machine.execModelLoad h p image s
  | .modelSwap h p image => Sys2Proof.Machine.execModelSwap h p image s
  | .modelUnload h modelId byte2 rsv => Sys2Proof.Machine.execModelUnload h modelId byte2 rsv s
  | .place h p => Sys2Proof.Machine.execPlace h p s
  | .calRun h scope byte1 index rsv => Sys2Proof.Machine.execCalRun h scope byte1 index rsv s
  | .calQuery h what byte1 index rsv destVa bytes rsv20 => Sys2Proof.Machine.execCalQuery h what byte1 index rsv destVa bytes rsv20 s
  | .testRun h tile kind rsv => Sys2Proof.Machine.execTestRun h tile kind rsv s
  | .fwStage h offset bytes src rsv data => Sys2Proof.Machine.execFwStage h offset bytes src rsv data s
  | .fwActivate h bank rsv sigOk => Sys2Proof.Machine.execFwActivate h bank rsv sigOk s
  | .twinPair h peer byte2 rsv => Sys2Proof.Machine.execTwinPair h peer byte2 rsv s
  | .twinUnpair h byte0 rsv => Sys2Proof.Machine.execTwinUnpair h byte0 rsv s
  | .fabricJoin h mask rsv => Sys2Proof.Machine.execFabricJoin h mask rsv s
  | .linkQuery h port rsv destVa => Sys2Proof.Machine.execLinkQuery h port rsv destVa s
  | .logRead h log byte1 first count destVa => Sys2Proof.Machine.execLogRead h log byte1 first count destVa s
  | .keyLoad h part rsv keyVa keyBytes rsv20 sigOk halvesEqual => Sys2Proof.Machine.execKeyLoad h part rsv keyVa keyBytes rsv20 sigOk halvesEqual s
  | .openSession h rsv keyVa keyBytes rsv20 sigOk => Sys2Proof.Machine.execOpenSession h rsv keyVa keyBytes rsv20 sigOk s
  | .keyRetire h part rsv => Sys2Proof.Machine.execKeyRetire h part rsv s
  | .zeroize h rsv => Sys2Proof.Machine.execZeroize h rsv s
  | .sqDb fn ring tail => Sys2Proof.Machine.execSqDb fn ring tail s
  | .cqDb fn ring head => Sys2Proof.Machine.execCqDb fn ring head s
  | .ringEnable fn ring value => Sys2Proof.Machine.execRingEnable fn ring value s
  | .ringDisable fn ring value => Sys2Proof.Machine.execRingDisable fn ring value s
  | .invalidate fn p vpn count => Sys2Proof.Machine.execInvalidate fn p vpn count s
  | .invalidateAll fn p vpn count => Sys2Proof.Machine.execInvalidateAll fn p vpn count s
  | .invalidationComplete p => Sys2Proof.Machine.execInvalidationComplete p s
  | .reservoirTailWrite fn p tail => Sys2Proof.Machine.execReservoirTailWrite fn p tail s
  | .freeHeadWrite fn p head => Sys2Proof.Machine.execFreeHeadWrite fn p head s
  | .moduleReset fn quads => Sys2Proof.Machine.execModuleReset fn quads s
  | .quadrantReset fn quads => Sys2Proof.Machine.execQuadrantReset fn quads s
  | .portEnable fn n value => Sys2Proof.Machine.execPortEnable fn n value s
  | .portDisable fn n value => Sys2Proof.Machine.execPortDisable fn n value s
  | .qread fn half => Sys2Proof.Machine.execQread fn half s
  | .rcRead fn off len => Sys2Proof.Machine.execRcRead fn off len s
  | .registerWrite fn off data partialBe => Sys2Proof.Machine.execRegisterWrite fn off data partialBe s
  | .apertureAccess fn off acc => Sys2Proof.Machine.execApertureAccess fn off acc s
  | .unsupportedRequest fn isRead => Sys2Proof.Machine.execUnsupportedRequest fn isRead s
  | .powerOn at_ => Sys2Proof.Machine.execPowerOn at_ s
  | .startUpStepEnd at_ obs => Sys2Proof.Machine.execStartUpStepEnd at_ obs s
  | .perst lowNs => Sys2Proof.Machine.execPerst lowNs s
  | .functionLevelReset p => Sys2Proof.Machine.execFunctionLevelReset p s
  | .d3hot fn => Sys2Proof.Machine.execD3hot fn s
  | .vfEnableClear => Sys2Proof.Machine.execVfEnableClear s
  | .setCoord value len => Sys2Proof.Machine.execSetCoord value len s
  | .setCap watts len => Sys2Proof.Machine.execSetCap watts len s
  | .getDevpub len => Sys2Proof.Machine.execGetDevpub len s
  | .getState len => Sys2Proof.Machine.execGetState len s
  | .debugUnlock tokenOk => Sys2Proof.Machine.execDebugUnlock tokenOk s
  | .referenceLoss => Sys2Proof.Machine.execReferenceLoss s
  | .referenceRestored validNs => Sys2Proof.Machine.execReferenceRestored validNs s
  | .stepBuild placement at_ => Sys2Proof.Machine.execStepBuild placement at_ s
  | .passIssue tile pslot layer expert acts => Sys2Proof.Machine.execPassIssue tile pslot layer expert acts s
  | .arrayCycle tile => Sys2Proof.Machine.execArrayCycle tile s
  | .tileLayerPassEnd tile residue appends tentative => Sys2Proof.Machine.execTileLayerPassEnd tile residue appends tentative s
  | .arrayWrite tile array pslot layer digit dup chunk => Sys2Proof.Machine.execArrayWrite tile array pslot layer digit dup chunk s
  | .scorePass tile pslot ctx layer head seg rows => Sys2Proof.Machine.execScorePass tile pslot ctx layer head seg rows s
  | .mixPass tile pslot ctx layer head seg => Sys2Proof.Machine.execMixPass tile pslot ctx layer head seg s
  | .lockAlarm cluster ring at_ => Sys2Proof.Machine.execLockAlarm cluster ring at_ s
  | .headLayerForward tile pslot ctx layer head at_ => Sys2Proof.Machine.execHeadLayerForward tile pslot ctx layer head at_ s
  | .sample placement ctx logits => Sys2Proof.Machine.execSample placement ctx logits s
  | .stepRetire placement at_ => Sys2Proof.Machine.execStepRetire placement at_ s
  | .completionWrite fn ring at_ => Sys2Proof.Machine.execCompletionWrite fn ring at_ s
  | .completionBufferStall placement at_ => Sys2Proof.Machine.execCompletionBufferStall placement at_ s
  | .frameReturn p => Sys2Proof.Machine.execFrameReturn p s
  | .globalCairn at_ => Sys2Proof.Machine.execGlobalCairn at_ s
  | .quadrantCairn q at_ => Sys2Proof.Machine.execQuadrantCairn q at_ s
  | .tileCairn tile at_ => Sys2Proof.Machine.execTileCairn tile at_ s
  | .swapHold model at_ => Sys2Proof.Machine.execSwapHold model at_ s
  | .swapComplete model at_ => Sys2Proof.Machine.execSwapComplete model at_ s
  | .patrolScrub addr corrected uncorrectable => Sys2Proof.Machine.execPatrolScrub addr corrected uncorrectable s
  | .driftFilterUpdate tile => Sys2Proof.Machine.execDriftFilterUpdate tile s
  | .calTriggerCheck at_ => Sys2Proof.Machine.execCalTriggerCheck at_ s
  | .calibrationSlice phys at_ => Sys2Proof.Machine.execCalibrationSlice phys at_ s
  | .calRunEnd obj res at_ => Sys2Proof.Machine.execCalRunEnd obj res at_ s
  | .calFlashRecord obj ok => Sys2Proof.Machine.execCalFlashRecord obj ok s
  | .testDue tile at_ => Sys2Proof.Machine.execTestDue tile at_ s
  | .testSlice tile at_ sig => Sys2Proof.Machine.execTestSlice tile at_ sig s
  | .testOverdue tile at_ sig => Sys2Proof.Machine.execTestOverdue tile at_ sig s
  | .powerLoopUpdate n seen => Sys2Proof.Machine.execPowerLoopUpdate n seen s
  | .fadeEvaluation n pwr at_ => Sys2Proof.Machine.execFadeEvaluation n pwr at_ s
  | .spareReady n at_ => Sys2Proof.Machine.execSpareReady n at_ s
  | .spareTimeout n at_ => Sys2Proof.Machine.execSpareTimeout n at_ s
  | .ioLaserSwap n at_ => Sys2Proof.Machine.execIoLaserSwap n at_ s
  | .toneWindow cluster ring seen quality at_ => Sys2Proof.Machine.execToneWindow cluster ring seen quality at_ s
  | .acquisitionTimeout cluster ring at_ => Sys2Proof.Machine.execAcquisitionTimeout cluster ring at_ s
  | .heaterLimit cluster ring at_ => Sys2Proof.Machine.execHeaterLimit cluster ring at_ s
  | .frameReceived n f at_ => Sys2Proof.Machine.execFrameReceived n f at_ s
  | .laneRemap n laneMap at_ => Sys2Proof.Machine.execLaneRemap n laneMap at_ s
  | .requestTimeout tag at_ => Sys2Proof.Machine.execRequestTimeout tag at_ s
  | .relay n m => Sys2Proof.Machine.execRelay n m s
  | .relayResend tag at_ => Sys2Proof.Machine.execRelayResend tag at_ s
  | .chain n m => Sys2Proof.Machine.execChain n m s
  | .chainOpenTimeout fn tag at_ => Sys2Proof.Machine.execChainOpenTimeout fn tag at_ s
  | .journal n m => Sys2Proof.Machine.execJournal n m s
  | .resp n m => Sys2Proof.Machine.execResp n m s
  | .probe n m => Sys2Proof.Machine.execProbe n m s
  | .probeSend at_ => Sys2Proof.Machine.execProbeSend at_ s
  | .probeLoss module at_ => Sys2Proof.Machine.execProbeLoss module at_ s
  | .mgmt n m => Sys2Proof.Machine.execMgmt n m s
  | .timeRecord n received => Sys2Proof.Machine.execTimeRecord n received s
  | .timeRecordSend at_ => Sys2Proof.Machine.execTimeRecordSend at_ s
  | .frameAlignmentLoss n at_ => Sys2Proof.Machine.execFrameAlignmentLoss n at_ s
  | .portRetrain n at_ => Sys2Proof.Machine.execPortRetrain n at_ s
  | .heartbeat path state takeover ackSeq at_ => Sys2Proof.Machine.execHeartbeat path state takeover ackSeq at_ s
  | .heartbeatSend at_ => Sys2Proof.Machine.execHeartbeatSend at_ s
  | .peerLost at_ => Sys2Proof.Machine.execPeerLost at_ s
  | .ackWaitExpiry at_ => Sys2Proof.Machine.execAckWaitExpiry at_ s
  | .fastLimiter at_ qest => Sys2Proof.Machine.execFastLimiter at_ qest s
  | .ptpReview at_ coreTerms => Sys2Proof.Machine.execPtpReview at_ coreTerms s
  | .capFloor at_ => Sys2Proof.Machine.execCapFloor at_ s
  | .droop q at_ => Sys2Proof.Machine.execDroop q at_ s
  | .operatingPointBoundary q at_ => Sys2Proof.Machine.execOperatingPointBoundary q at_ s
  | .vgood q at_ => Sys2Proof.Machine.execVgood q at_ s
  | .powerEmergency row measured at_ => Sys2Proof.Machine.execPowerEmergency row measured at_ s
  | .criticalRelease row at_ => Sys2Proof.Machine.execCriticalRelease row at_ s
  | .ridgeWindow at_ => Sys2Proof.Machine.execRidgeWindow at_ s
  | .sequencerEntry at_ => Sys2Proof.Machine.execSequencerEntry at_ s
  | .integrationPeriodEnd pair codeV codeI energy at_ => Sys2Proof.Machine.execIntegrationPeriodEnd pair codeV codeI energy at_ s
  | .refSettled at_ => Sys2Proof.Machine.execRefSettled at_ s
  | .thermalSample region temps at_ => Sys2Proof.Machine.execThermalSample region temps at_ s
  | .demandRelease region at_ => Sys2Proof.Machine.execDemandRelease region at_ s
  | .watchdog k cause at_ => Sys2Proof.Machine.execWatchdog k cause at_ s
  | .alive k at_ => Sys2Proof.Machine.execAlive k at_ s
  | .governorRelease at_ => Sys2Proof.Machine.execGovernorRelease at_ s
  | .activationTimeout at_ => Sys2Proof.Machine.execActivationTimeout at_ s
  | .longOperationSlice fn seq amount at_ => Sys2Proof.Machine.execLongOperationSlice fn seq amount at_ s
  | .progress fn seq at_ => Sys2Proof.Machine.execProgress fn seq at_ s
  | .screeScan at_ => Sys2Proof.Machine.execScreeScan at_ s
  | .parkComplete ctx at_ => Sys2Proof.Machine.execParkComplete ctx at_ s
  | .restoreComplete ctx at_ => Sys2Proof.Machine.execRestoreComplete ctx at_ s
  | .contextCacheWriteBack q => Sys2Proof.Machine.execContextCacheWriteBack q s
  | .fenceTimeout fn ring at_ => Sys2Proof.Machine.execFenceTimeout fn ring at_ s
  | .fullRingReminder fn ring at_ => Sys2Proof.Machine.execFullRingReminder fn ring at_ s
  | .coSessionTimeout at_ => Sys2Proof.Machine.execCoSessionTimeout at_ s
  | .selfTestFailure cause => Sys2Proof.Machine.execSelfTestFailure cause s
  | .faultLogFlush at_ => Sys2Proof.Machine.execFaultLogFlush at_ s
  | .mapRecordWrite at_ => Sys2Proof.Machine.execMapRecordWrite at_ s
  | .lifetimeCounterWrite q at_ => Sys2Proof.Machine.execLifetimeCounterWrite q at_ s
  | .trainingComplete n res at_ => Sys2Proof.Machine.execTrainingComplete n res at_ s
  | .pairingTimeout at_ => Sys2Proof.Machine.execPairingTimeout at_ s
  | .perstRelease at_ => Sys2Proof.Machine.execPerstRelease at_ s
  | .vfEnableSet numVfs => Sys2Proof.Machine.execVfEnableSet numVfs s
  | .configurationRequest req => Sys2Proof.Machine.execConfigurationRequest req s

end Sys2Proof.Machine
end

