-- ==== Sys2Proof/Safety.lean ====
section
/-! DEFINITION. What a state must satisfy to be one state of the block in one form only, and what a step never undoes: the terms in
which the statements about every step are made. -/

namespace Sys2Proof.Machine

/-- The record of the tile maps is in key order and names only registers of the configuration block (R596, R598). -/
def Flash.recordOk (f : Flash) : Bool :=
  match f.mapRec with
  | some m => tsorted m && m.all fun e => decide (e.1 < 0x120000)
  | none => true

/-- The fault log that flash holds has its places only (R509). -/
def Flash.logOk (f : Flash) : Bool :=
  match f.flog with
  | some l => decide (l.entries.length ≤ 126)
  | none => true

/-- Every table in key order, device memory in its canonical form, and every log within its places: the global violation log
64 (R313), the fault log 126 (R509), the sideband's events 32 (R578). -/
structure State.Canonical (s : State) : Prop where
  mem     : s.mem.wf = true
  regs    : tsorted s.regs = true
  hostMem : tsorted s.hostMem = true
  ctxs    : tsorted s.ctxs = true
  aux     : tsorted s.aux = true
  models  : tsorted s.models = true
  places  : tsorted s.places = true
  parts   : tsorted s.parts = true
  pairs   : tsorted s.pairs = true
  procs   : tsorted s.procs = true
  tiles   : tsorted s.tiles = true
  phys    : tsorted s.phys = true
  lasers  : tsorted s.lasers = true
  rings   : tsorted s.rings = true
  ports   : tsorted s.ports = true
  globalLog : s.globalLog.length ≤ 64
  faultLog  : s.faultLog.entries.length ≤ 126
  events    : s.side.events.length ≤ 32
  record    : s.flash.recordOk = true
  flashLog  : s.flash.logOk = true

/-! ## What a command leaves as it was -/

/-- A whole register as a field. -/
def wholeReg : Field := ⟨0, 64, .rw⟩

/-- Every field of every register reads in `t` as in `s`, but those that share a bit with a field listed. -/
def State.fieldsBut (s t : State) (l : List (RegRef × Field)) : Prop :=
  ∀ (r : RegRef) (f : Field),
    (∀ x ∈ l, x.1.key = r.key → r = x.1 ∧ (f.lo + f.w ≤ x.2.lo ∨ x.2.lo + x.2.w ≤ f.lo)) → t.fld r f = s.fld r f

/-- Every byte of device memory reads in `t` as in `s`, in every start-up and under every key. -/
def State.sameMemory (s t : State) : Prop := ∀ boot key a, t.mem.readByte boot key a = s.mem.readByte boot key a

/-- Every byte of device memory outside the ranges listed reads in `t` as in `s`. -/
def State.sameMemoryBut (s t : State) (rs : List (Nat × Nat)) : Prop :=
  ∀ boot key a, inRanges rs a = false → t.mem.readByte boot key a = s.mem.readByte boot key a

/-! ## When a packet is accepted (R286, R287, R291, R499) -/

/-- The ring engine takes the packet: it can be fetched, no slot of it reads as uncorrectable, and the checks up to its parameters
pass. -/
def State.takesPacket (s : State) (h : Hdr) (op : Nat) (cls lenOk pf0Ok : Bool) : Prop :=
  s.fetchable h = true ∧ s.badSlot h = none ∧ s.headerChk h op cls lenOk pf0Ok = .pass

/-- A D-class packet of the length that R300 gives it is taken, and no zeroisation defers it (R535). -/
def State.takesD (s : State) (h : Hdr) (op len : Nat) : Prop :=
  s.takesPacket h op false (h.length.toNat == len) true ∧ (h.fn = 0 ∨ s.sec.zeroing = false)

/-- A C-class packet is taken and its processor serves it at once (R303, R467, R476): the module is READY and the processor ALIVE. -/
def State.takesC (s : State) (h : Hdr) (c : CPacket) : Prop :=
  s.takesPacket h c.opcode true (c.lenOk h.length.toNat) (!c.pf0 || h.fn == 0) ∧
    s.passedOver c = false ∧ s.recovery = false ∧ s.ready = true ∧ s.alive c.proc = true

/-- Header, opcode and length of a D-class packet (R300). -/
def dForm : Instr → Option (Hdr × Nat × Nat)
  | .sessionOpen h _ => some (h, 0x01, 40)
  | .sessionAppend h _ => some (h, 0x02, 32)
  | .sessionPause h _ _ => some (h, 0x03, 8)
  | .sessionResume h _ => some (h, 0x04, 16)
  | .sessionClose h _ _ => some (h, 0x05, 8)
  | .specTree h _ _ _ _ => some (h, 0x06, 16)
  | .cairn h _ _ => some (h, 0x08, 8)
  | .ridge h _ _ _ _ => some (h, 0x09, 8)
  | .fence h _ _ => some (h, 0x0A, 8)
  | .kvPark h _ _ => some (h, 0x0C, 8)
  | .kvRestore h _ _ => some (h, 0x0D, 8)
  | _ => none

/-- The context that a D-class packet names. -/
def ctxNamed : Instr → Option Nat
  | .sessionOpen _ p => some p.context.toNat
  | .sessionAppend _ p => some p.context.toNat
  | .sessionPause _ c _ => some c.toNat
  | .sessionResume _ p => some p.context.toNat
  | .sessionClose _ c _ => some c.toNat
  | .specTree _ c _ _ _ => some c.toNat
  | .kvPark _ c _ => some c.toNat
  | .kvRestore _ c _ => some c.toNat
  | _ => none

/-- Header and packet of a C-class packet (R303, R306). -/
def cForm : Instr → Option (Hdr × CPacket)
  | .partCreate h part rsv ringArea root => some (h, .partCreate part rsv ringArea root)
  | .partDestroy h part byte1 rsv => some (h, .partDestroy part byte1 rsv)
  | .partSetEsc h ps len rsv sat zro rest => some (h, .partSet ps (.esc len rsv sat zro :: rest))
  | .partSetAge h ps len rsv steps rsv1 time rest => some (h, .partSet ps (.age len rsv steps rsv1 time :: rest))
  | .partSetRanges h ps len rsv a b c d rest => some (h, .partSet ps (.ranges len rsv a b c d :: rest))
  | .partSetBuckets h ps len rsv a b c d rest => some (h, .partSet ps (.buckets len rsv a b c d :: rest))
  | .partSetResRing h ps len rsv value rest => some (h, .partSet ps (.resRing len rsv value :: rest))
  | .partSetFreeRing h ps len rsv value rest => some (h, .partSet ps (.freeRing len rsv value :: rest))
  | .partSetScratch h ps len rsv frames rest => some (h, .partSet ps (.scratch len rsv frames :: rest))
  | .partSetScree h ps len rsv a b c d rest => some (h, .partSet ps (.scree len rsv a b c d :: rest))
  | .partSetProfiles h ps len rsv value rest => some (h, .partSet ps (.profiles len rsv value :: rest))
  | .partSetMmuRoot h ps len rsv value rest => some (h, .partSet ps (.mmuRoot len rsv value :: rest))
  | .partSetWindow h ps len rsv i rsv1 base bytes rest => some (h, .partSet ps (.window len rsv i rsv1 base bytes :: rest))
  | .partSetTiles h ps len rsv a b mode rsv5 rest => some (h, .partSet ps (.tiles len rsv a b mode rsv5 :: rest))
  | .partSetIds h ps len rsv a b c d rest => some (h, .partSet ps (.ids len rsv a b c d :: rest))
  | .modelLoad h p image => some (h, .modelLoad p image)
  | .modelSwap h p image => some (h, .modelSwap p image)
  | .modelUnload h m byte2 rsv => some (h, .modelUnload m byte2 rsv)
  | .place h p => some (h, .place p)
  | .calRun h scope byte1 index rsv => some (h, .calRun scope byte1 index rsv)
  | .calQuery h what byte1 index rsv va n rsv20 => some (h, .calQuery what byte1 index rsv va n rsv20)
  | .testRun h tile kind rsv => some (h, .testRun tile kind rsv)
  | .fwStage h offset bytes src rsv data => some (h, .fwStage offset bytes src rsv data)
  | .fwActivate h bank rsv sigOk => some (h, .fwActivate bank rsv sigOk)
  | .twinPair h peer byte2 rsv => some (h, .twinPair peer byte2 rsv)
  | .twinUnpair h byte0 rsv => some (h, .twinUnpair byte0 rsv)
  | .fabricJoin h mask rsv => some (h, .fabricJoin mask rsv)
  | .linkQuery h port rsv va => some (h, .linkQuery port rsv va)
  | .logRead h log byte1 first count va => some (h, .logRead log byte1 first count va)
  | .keyLoad h part rsv va n rsv20 sigOk halvesEqual => some (h, .keyLoad part rsv va n rsv20 sigOk halvesEqual)
  | .openSession h rsv va n rsv20 sigOk => some (h, .keyLoad 0xFF rsv va n rsv20 sigOk false)
  | .keyRetire h part rsv => some (h, .keyRetire part rsv)
  | .zeroize h rsv => some (h, .zeroize rsv)
  | _ => none

/-- Of the contexts only context i differs, and beside it only what goes with a change of a context: its place in the context cache, the
descriptor that the cache may evict, and the records of a journaled context (R222, R385, R389). -/
def State.onlyContext (s t : State) (i : Nat) : Prop :=
  (∀ j, j ≠ i → t.ctx j = s.ctx j) ∧
    t = { s with ctxs := t.ctxs, aux := t.aux, sched := t.sched, mem := t.mem, twin := t.twin, fabric := t.fabric, ports := t.ports } ∧
    (s.journaled i = false → t.twin = s.twin ∧ t.fabric = s.fabric ∧ t.ports = s.ports) ∧
    ((s.cached (s.homeOf (t.ctx i))).length < 16384 → t.mem = s.mem)

/-- The entry handed to a completion ring for a reply (R292): its bytes, whether it is the final one, and the interrupt asked for. -/
def replyOut (h : Hdr) (op status detail result : Nat) (final : Bool) (since : Nat) : Out :=
  { bytes := replyBytes h.seq.toNat status op h.ring h.tag.toNat detail result, isReply := true, seq := h.seq.toNat, final := final,
    irq := final && bitOf h.flags.toNat 1, since := since }

/-- What a violation writes (R312): the entry that is then the newest of the partition's log and of the global log. -/
def State.logsViolation (s t : State) (e : VEntry) : Prop :=
  (t.part e.part).viol = (if (s.part e.part).viol.length < 16 then (s.part e.part).viol ++ [e]
    else ((s.part e.part).viol ++ [e]).drop 1) ∧
  t.globalLog = if s.globalLog.length < 64 then s.globalLog ++ [e] else (s.globalLog ++ [e]).drop 1

/-- A register write is refused and logged (R311, R583): the BAR0 offset with SOURCE 3, and nothing else changes. -/
def State.refuses (s t : State) (fn off : Nat) : Prop :=
  s.logsViolation t ⟨s.time, off % 2 ^ 48, 3, fn, false, false⟩ ∧
    s.fieldsBut t [(Reg.SCH_FN_STAT fn, Fld.SCH_FN_STAT_VIOL), (Reg.SCH_FN_STAT fn, Fld.SCH_FN_STAT_LOST)] ∧
    t = { s with regs := t.regs, parts := t.parts, globalLog := t.globalLog, pcie := t.pcie }

/-- Only the ring pairs of function f, its count of entries discarded and the count of bad packets of its ring r differ: what a reply to a
packet of that ring changes (R289, R292, R299). -/
def State.ringsOnly (s t : State) (f r : Nat) : Prop :=
  t = { s with regs := t.regs, pairs := t.pairs } ∧
    s.fieldsBut t [(Reg.SCH_FN_STAT f, Fld.SCH_FN_STAT_DISCARD), (Reg.SCH_RING_STAT f r, Fld.SCH_RING_STAT_BAD)] ∧
    ∀ k, k / 32 ≠ f → tget {} t.pairs k = tget {} s.pairs k

/-- An access of n bytes at an aligned offset is to one half or to the whole of the register instance found there (R584). -/
def RegHit.accessed (g : RegHit) (off n : Nat) (half : Half) : Prop :=
  (half = .whole ∧ n = 8 ∧ off % 8 = 0 ∧ g.row.width = 64 ∧ g.high = false) ∨
    (half = (if g.high then .high else .low) ∧ n = 4 ∧ off % 4 = 0)

/-- A field lies wholly in the half accessed. -/
def Field.inHalf (f : Field) : Half → Bool
  | .whole => true
  | .low => decide (f.lo + f.w ≤ 32)
  | .high => decide (32 ≤ f.lo)

/-- The first bit of the half accessed. -/
def halfShift (half : Half) : Nat := if half = .high then 32 else 0

/-- Function fn may write an instance that it sees (each block's layout rule). -/
def State.mayWrite (s : State) (fn : Nat) (g : RegHit) : Prop :=
  g.row.wr = .own ∨ (g.row.wr = .pf0 ∧ fn = 0) ∨ (g.row.wr = .part ∧ (fn = 0 ∨ g.inst = fn)) ∨
    (g.row.wr = .session ∧ fn = 0 ∧ s.flag Reg.SEC_STAT Fld.SEC_STAT_CO_SESSION = true)

/-- Offsets of the registers whose write does more than store the value. -/
def actingRegisters : List Nat :=
  [0xD8100, 0xD8108, 0xD810C, 0x60008, 0xC0008, 0xC0018, 0xF1000, 0xF0000, 0x100010, 0xD0000, 0x110000, 0x120000, 0x20018]

/-- A write of function `fn` reaches the module (R554, R573). -/
def State.hostWrites (s : State) (fn : Nat) : Prop := s.hostUp = true ∧ s.decodes fn = true

/-- A counter stands n higher, saturating at all-ones (each block's layout rule). -/
def State.counted (s t : State) (r : RegRef) (f : Field) (n : Nat) : Prop := t.fld r f = min (s.fld r f + n) (2 ^ f.w - 1)

/-- State `b` holds the tile-SRAM copy `c` of a share of placement l for tile t: `s` itself, or `s` with the copy read from the stacks where the
tile had none, which no fault and no uncorrectable word prevents (R23, R55, R183). -/
def State.sramCopy (s b : State) (t l layer expert gen : Nat) (x : Model) (y : Layer) (sh : Share) (c : ShareCopy) : Prop :=
  (s.copyOf t l layer expert gen = some c ∧ b = s) ∨
    (s.copyOf t l layer expert gen = none ∧ s.badShare l expert x y sh = none ∧ s.readShare l layer expert gen x y sh = .inl c ∧
      b = s.putCopy t c)

/-- An array write of a chunk is a demand write: the pass at work on the tile waits for it (R90, R91). -/
def State.demandWrite (s : State) (t i pslot layer chunk : Nat) (w : WriteOf) : Bool :=
  (s.demanded t i).contains (chunk % w.sh.chunks) &&
    (s.tile t).pass.any fun p => p.pslot == pslot && p.layer == layer && p.expert == chunk / w.sh.chunks

/-- No other array of the tile holds that digit of the chunk. -/
def State.soleCopy (s : State) (i no pslot layer gen digit : Nat) (dup : Bool) (chunk : Nat) : Bool :=
  !((s.phy i).arrays.any fun a => a.2.holds pslot layer gen chunk && a.2.digit == digit && a.2.dup == dup && a.1 != no)

/-! ## Host accesses to device memory (R283, R285, R499, R526) -/

/-- The key under which the host reaches n bytes at a: that of its function's partition, none in a ring area. -/
def State.hostKey (s : State) (fn a n : Nat) : Option Nat := if s.inRingArea a n then none else some (s.keyOf fn)

/-- Device memory differs only in the n bytes from a on, written under `key`: under every key, every byte of a 256-byte unit that was not
written reads as before, and in a unit written so does every other byte that the key could read; a write under no key leaves every other
byte as it was. -/
def State.memBut (s t : State) (key : Option Nat) (a n : Nat) : Prop :=
  ∀ (k : Option Nat) (x : Nat), x < a ∨ a + n ≤ x →
    (key = none ∨ x / 256 < a / 256 ∨ a + n ≤ x / 256 * 256 ∨
      (k = key ∧ (tget 0 s.mem.keys (x / 256) = 0 ∨ ∃ i, k = some i ∧ tget 0 s.mem.keys (x / 256) = i + 1))) →
    t.mem.readByte s.clk.count k x = s.mem.readByte s.clk.count k x

/-- The host has read n bytes from a on: the bytes of memory, but for those of a unit that reads as uncorrectable, which counts and is
logged; nothing else changes. -/
def State.hostReads (s t : State) (fn a n : Nat) : Prop :=
  t.out.length = n ∧
    (∀ i, i < n → s.mem.poison.contains ((a + i) / 32) = false →
      t.out[i]? = some (s.mem.readByte s.clk.count (s.hostKey fn a n) (a + i))) ∧
    (s.mem.bad a n = none → t = { s with out := t.out }) ∧
    ∀ u, s.mem.bad a n = some u → s.counted t (Reg.MEM_ECC (stackOf u)) Fld.MEM_ECC_UE 1 ∧ t.faultLog = (s.ueAt u).faultLog ∧
      s.fieldsBut t [(Reg.MEM_ECC (stackOf u), Fld.MEM_ECC_UE)] ∧
      t = { s with regs := t.regs, faultLog := t.faultLog, free := t.free, out := t.out }

/-- The host has written bytes from a on: they read back, memory differs nowhere else, and of the rest only the entries that the
function's translation may still use until they are invalidated change (R184). -/
def State.hostWrote (s t : State) (fn a : Nat) (bs : List Byte) : Prop :=
  (∀ i (hi : i < bs.length), t.mem.readByte s.clk.count (s.hostKey fn a bs.length) (a + i) = bs[i]) ∧
    s.memBut t (s.hostKey fn a bs.length) a bs.length ∧ (∀ q, q ≠ fn → t.part q = s.part q) ∧
    t.part fn = { s.part fn with stale := (t.part fn).stale } ∧ t = { s with mem := t.mem, parts := t.parts, free := t.free }

/-! ## The service of a packet (R287, R296, R308) -/

/-- The state in which its processor serves a C-class packet: the packet is fetched, and the service arbiter has passed the new packets of
its partition. -/
def State.served (s : State) (h : Hdr) (c : CPacket) : State := (s.takePacket h).serviceDone c.proc (2 * h.fn)

/-- The state in which a processor runs a slice of a long operation of function fn: the service arbiter has passed the partition's long
operations. -/
def State.slicing (s : State) (fn : Nat) (o : LongOp) : State := s.serviceDone o.pkt.proc (2 * fn + 1)

/-! ## Long operations (R308, R309) -/

/-- As many long operations as R308 allows are in progress, of the packet's partition or in the module. -/
def State.longFull (s : State) (h : Hdr) : Prop :=
  4 ≤ (s.longOps.filter fun o => o.h.fn == h.fn).length ∨ 64 ≤ s.longOps.length

/-- A long operation begins under the next number: it is recorded behind the others, which stay as they were but for any that bears that
number, its partition's LONG_OPS counts it, and its first PROGRESS reply enters the completion ring of the packet. -/
def State.longBegins (s t : State) (h : Hdr) (c : CPacket) (total done : Nat) (wait : List Nat) : Prop :=
  t.longOps.length = s.longOps.length + 1 ∧
  (t.longOps.filter fun o => o.id != s.sched.longSeq) = s.longOps.filter (fun o => o.id != s.sched.longSeq) ∧
  t.longOps.getLast? =
    some { id := s.sched.longSeq, h := h, pkt := c, total := total, done := done, startAt := s.now, progAt := s.time, wait := wait } ∧
  t.sched.longSeq = s.sched.longSeq + 1 ∧
  t.fld (Reg.SCH_FN_STAT h.fn) Fld.SCH_FN_STAT_LONG_OPS = (s.longOps.filter fun o => o.h.fn == h.fn).length + 1 ∧
  (t.pair h.fn h.ring).out = (s.pair h.fn h.ring).out ++ [replyOut h c.opcode stProgress 0 0 false s.now]

/-- A packet whose checks passed on state `b` starts a long operation, or is deferred where too many are in progress; `more` says what else
starting it does. -/
def State.startsLong (s b : State) (i : Instr) (h : Hdr) (c : CPacket) (total done : Nat) (wait : List Nat) (more : State → Prop) : Prop :=
  (b.longFull h → exec i s = .next (b.reply h c.opcode stDeferred 0 0)) ∧
    (¬ b.longFull h → ∃ t, exec i s = .next t ∧ b.longBegins t h c total done wait ∧ more t)

/-- The processor of a long operation grants it its next slice: it is the oldest of its function and processor that wants one, the service
arbiter comes to it next, and the processor is ALIVE, or the module is in recovery (R296, R308). -/
def State.sliceGranted (s : State) (fn seq : Nat) (o : LongOp) : Prop :=
  fn < 64 ∧ (s.longOps.find? fun x => x.h.fn == fn && x.h.seq.toNat == seq && s.oldestOp x) = some o ∧
    (s.recovery = true ∨ s.alive o.pkt.proc = true) ∧ s.serviceMay o.pkt.proc (2 * fn + 1) = true

/-- What a module reset leaves (R549, R480): start-up stands at step 4 with the rails up; contexts, models, placements, partitions, rings, long
operations, tiles, lasers, ports, keys, requests, MSI-X state and memory are gone, the housekeeping converters, the sideband, flash and the
latched Trip causes stay, the fault log is the one in flash; the governor is in force. A register outside HKC and the power block reads its reset value, but for the maps, which read as the
map record has them, LAST_TRIP, the spares counted from the maps, and PHASE. -/
def State.afterModuleReset (s t : State) : Prop :=
  t.phase = 4 ∧ t.ctxs = [] ∧ t.aux = [] ∧ t.models = [] ∧ t.places = [] ∧ t.parts = [] ∧ t.globalLog = [] ∧ t.pairs = [] ∧
    t.procs = [] ∧ t.longOps = [] ∧ t.tiles = [] ∧ t.phys = [] ∧ t.lasers = [] ∧ t.rings = [] ∧ t.ports = [] ∧ t.mem = {} ∧
    t.twin = {} ∧ t.cal = {} ∧ t.fw = {} ∧ t.sched = {} ∧ t.sec.keyId = [] ∧ t.sec.sessEnd = none ∧ t.clk.running = false ∧ t.time = 0 ∧
    t.clk.count = s.clk.count + 1 ∧ t.now = s.now ∧ t.pending = s.pending ∧ t.flash = s.flash ∧ t.hkc = s.hkc ∧ t.side = s.side ∧
    t.pcie.vfEnable = false ∧ t.pcie.msixOn = [] ∧ t.pcie.pendingBits = [] ∧ t.fabric.reqs = [] ∧
    (s.flash.flogBad = false → t.faultLog = s.flash.flog.getD {}) ∧
    t.therm.tripped = s.therm.tripped ∧ t.therm.lastTrip = s.therm.lastTrip ∧ t.power.tripCause = s.power.tripCause ∧
    t.fld Reg.THM_STAT Fld.THM_STAT_LAST_TRIP = s.therm.lastTrip % 16 ∧ t.flag Reg.POW_STAT Fld.POW_STAT_GOV = true ∧
    (∀ r : RegRef, hkcKey r.key = true → (∀ e ∈ s.flash.mapRec.getD [], e.1 ≠ r.key) → t.reg r = s.reg r) ∧
    (∀ r : RegRef, hkcKey r.key = false → ¬(0x110000 ≤ r.key ∧ r.key < 0x120000) → r.key ≠ Reg.CLK_START.key → r.key ≠ Reg.THM_STAT.key →
      (∀ q, q < 4 → r.key ≠ (Reg.TILE_QFLT q).key) → t.reg r = tget r.dflt (s.flash.mapRec.getD []) r.key)

/-- Port n holds a message of operation `op` for the command that acts on it: on state `b` it is taken from the port and its receive space
is free again (R362, R364). -/
def State.received (s b : State) (n : Nat) (m : FMsg) (op : Nat) : Prop :=
  n < 24 ∧ m.op % 16 = op ∧ (s.port n).rxMsgs.contains m = true ∧
    b = (s.setPort n { s.port n with rxMsgs := (s.port n).rxMsgs.erase m }).giveCredits n m

/-- Module m counts as lost, and the placements whose slices name it are fenced, but for one that a PLACE or its removal takes up at the cairn
of its abandoned step (R379, R380). -/
def State.losesModule (s t : State) (m : Nat) : Prop :=
  t.fabric.lost.contains m = true ∧
    ∀ l ∈ s.slicesWith m, (s.place l).change = none → (s.place l).removing = false → (t.place l).fenced = true

end Sys2Proof.Machine
end

