-- ==== Sys2Proof/WellFormed.lean ====
section
/-! DEFINITION. Well-formed commands: every object that a command names exists, so that the command can reach the block.
Register accesses and packets that name something the block refuses are well formed: their refusal is their effect. -/

namespace Sys2Proof
open Machine

/-- A packet comes from one of the 64 functions and from the administration ring or one of the 16 execution rings (R286). -/
def Hdr.wf (h : Hdr) : Bool := decide (h.fn < 64) && decide (h.ring < 17)

/-- The command names only objects that the module has (R10, R15, R17, R19, R322, R324, R356, R453, R467). -/
def Instr.wf (i : Instr) : Bool :=
  match i with
  | .sessionOpen h _ => h.wf
  | .sessionAppend h _ => h.wf
  | .sessionPause h _ _ => h.wf
  | .sessionResume h _ => h.wf
  | .sessionClose h _ _ => h.wf
  | .specTree h _ _ _ _ => h.wf
  | .cairn h _ _ => h.wf
  | .ridge h _ _ _ _ => h.wf
  | .fence h _ _ => h.wf
  | .kvPark h _ _ => h.wf
  | .kvRestore h _ _ => h.wf
  | .unassignedOpcode h _ => h.wf
  | .partCreate h _ _ _ _ => h.wf
  | .partDestroy h _ _ _ => h.wf
  | .partSetEsc h _ _ _ _ _ _ => h.wf
  | .partSetAge h _ _ _ _ _ _ _ => h.wf
  | .partSetRanges h _ _ _ _ _ _ _ _ => h.wf
  | .partSetBuckets h _ _ _ _ _ _ _ _ => h.wf
  | .partSetResRing h _ _ _ _ _ => h.wf
  | .partSetFreeRing h _ _ _ _ _ => h.wf
  | .partSetScratch h _ _ _ _ _ => h.wf
  | .partSetScree h _ _ _ _ _ _ _ _ => h.wf
  | .partSetProfiles h _ _ _ _ _ => h.wf
  | .partSetMmuRoot h _ _ _ _ _ => h.wf
  | .partSetWindow h _ _ _ _ _ _ _ _ => h.wf
  | .partSetTiles h _ _ _ _ _ _ _ _ => h.wf
  | .partSetIds h _ _ _ _ _ _ _ _ => h.wf
  | .modelLoad h _ _ => h.wf
  | .modelSwap h _ _ => h.wf
  | .modelUnload h _ _ _ => h.wf
  | .place h _ => h.wf
  | .calRun h _ _ _ _ => h.wf
  | .calQuery h _ _ _ _ _ _ _ => h.wf
  | .testRun h _ _ _ => h.wf
  | .fwStage h _ _ _ _ _ => h.wf
  | .fwActivate h _ _ _ => h.wf
  | .twinPair h _ _ _ => h.wf
  | .twinUnpair h _ _ => h.wf
  | .fabricJoin h _ _ => h.wf
  | .linkQuery h _ _ _ => h.wf
  | .logRead h _ _ _ _ _ => h.wf
  | .keyLoad h _ _ _ _ _ _ _ => h.wf
  | .openSession h _ _ _ _ _ => h.wf
  | .keyRetire h _ _ => h.wf
  | .zeroize h _ => h.wf
  | .sqDb _ ring _ => decide (ring < 17)
  | .cqDb _ ring _ => decide (ring < 17)
  | .ringEnable _ ring _ => decide (ring < 17)
  | .ringDisable _ ring _ => decide (ring < 17)
  | .invalidate _ p _ _ => decide (p < 64)
  | .invalidateAll _ p _ _ => decide (p < 64)
  | .invalidationComplete p => decide (p < 64)
  | .reservoirTailWrite _ p _ => decide (p < 64)
  | .freeHeadWrite _ p _ => decide (p < 64)
  | .moduleReset _ _ => true
  | .quadrantReset _ _ => true
  | .portEnable _ n _ => decide (n < 24)
  | .portDisable _ n _ => decide (n < 24)
  | .qread _ _ => true
  | .rcRead _ _ _ => true
  | .registerWrite _ _ _ _ => true
  | .apertureAccess _ _ _ => true
  | .unsupportedRequest _ _ => true
  | .powerOn _ => true
  | .startUpStepEnd _ _ => true
  | .perst _ => true
  | .functionLevelReset p => decide (p < 64)
  | .d3hot fn => decide (fn < 64)
  | .vfEnableClear => true
  | .setCoord _ _ => true
  | .setCap _ _ => true
  | .getDevpub _ => true
  | .getState _ => true
  | .debugUnlock _ => true
  | .referenceLoss => true
  | .referenceRestored _ => true
  | .stepBuild placement _ => decide (placement < 1024)
  | .passIssue tile pslot _ _ _ => decide (tile < 1024) && decide (pslot < 16)
  | .arrayCycle tile => decide (tile < 1024)
  | .tileLayerPassEnd tile _ _ _ => decide (tile < 1024)
  | .arrayWrite tile array pslot _ _ _ _ => decide (tile < 1024) && decide (array < 512) && decide (pslot < 16)
  | .scorePass tile pslot _ _ _ _ _ => decide (tile < 1024) && decide (pslot < 16)
  | .mixPass tile pslot _ _ _ _ => decide (tile < 1024) && decide (pslot < 16)
  | .lockAlarm cluster ring _ => clusterOk cluster && decide (ring < clusterRings cluster)
  | .headLayerForward tile pslot _ _ _ _ => decide (tile < 1024) && decide (pslot < 16)
  | .sample placement ctx _ => decide (placement < 1024) && decide (ctx < 4194304)
  | .stepRetire placement _ => decide (placement < 1024)
  | .completionWrite fn ring _ => decide (fn < 64) && decide (ring < 17)
  | .completionBufferStall placement _ => decide (placement < 1024)
  | .frameReturn p => decide (p < 64)
  | .globalCairn _ => true
  | .quadrantCairn q _ => decide (q < 4)
  | .tileCairn tile _ => decide (tile < 1024)
  | .swapHold model _ => decide (model < 4096)
  | .swapComplete model _ => decide (model < 4096)
  | .patrolScrub addr _ _ => decide (addr < memEnd + 1024 * tileSram)
  | .driftFilterUpdate tile => decide (tile < 1024)
  | .calTriggerCheck _ => true
  | .calibrationSlice phys _ => decide (phys < 1088)
  | .calRunEnd _ _ _ => true
  | .calFlashRecord _ _ => true
  | .testDue tile _ => decide (tile < 1024 + 1088)
  | .testSlice tile _ _ => decide (tile < 1024 + 1088)
  | .testOverdue tile _ _ => decide (tile < 1024 + 1088)
  | .powerLoopUpdate n _ => laserOk n
  | .fadeEvaluation n _ _ => laserOk n
  | .spareReady n _ => laserOk n
  | .spareTimeout n _ => laserOk n
  | .ioLaserSwap n _ => laserOk n
  | .toneWindow cluster ring _ _ _ => clusterOk cluster && decide (ring < clusterRings cluster)
  | .acquisitionTimeout cluster ring _ => clusterOk cluster && decide (ring < clusterRings cluster)
  | .heaterLimit cluster ring _ => clusterOk cluster && decide (ring < clusterRings cluster)
  | .frameReceived n _ _ => decide (n < 24)
  | .laneRemap n _ _ => decide (n < 24)
  | .requestTimeout _ _ => true
  | .relay n _ => decide (n < 24)
  | .relayResend _ _ => true
  | .chain n _ => decide (n < 24)
  | .chainOpenTimeout fn _ _ => decide (fn < 64)
  | .journal n _ => decide (n < 24)
  | .resp n _ => decide (n < 24)
  | .probe n _ => decide (n < 24)
  | .probeSend _ => true
  | .probeLoss _ _ => true
  | .mgmt n _ => decide (n < 24)
  | .timeRecord n _ => decide (n < 24)
  | .timeRecordSend _ => true
  | .frameAlignmentLoss n _ => decide (n < 24)
  | .portRetrain n _ => decide (n < 24)
  | .heartbeat path _ _ _ _ => decide (path < 3)
  | .heartbeatSend _ => true
  | .peerLost _ => true
  | .ackWaitExpiry _ => true
  | .fastLimiter _ _ => true
  | .ptpReview _ _ => true
  | .capFloor _ => true
  | .droop q _ => decide (q < 4)
  | .operatingPointBoundary q _ => decide (q < 4)
  | .vgood q _ => decide (q < 4)
  | .powerEmergency row _ _ => decide (row < 7)
  | .criticalRelease row _ => decide (row < 7)
  | .ridgeWindow _ => true
  | .sequencerEntry _ => true
  | .integrationPeriodEnd pair _ _ _ _ => decide (pair < 6)
  | .refSettled _ => true
  | .thermalSample region _ _ => decide (region < 15)
  | .demandRelease region _ => decide (region < 15)
  | .watchdog i _ _ => decide (i < 8)
  | .alive i _ => decide (i < 8)
  | .governorRelease _ => true
  | .activationTimeout _ => true
  | .longOperationSlice fn _ _ _ => decide (fn < 64)
  | .progress fn _ _ => decide (fn < 64)
  | .screeScan _ => true
  | .parkComplete ctx _ => decide (ctx < 4194304)
  | .restoreComplete ctx _ => decide (ctx < 4194304)
  | .contextCacheWriteBack q => decide (q < 4)
  | .fenceTimeout fn ring _ => decide (fn < 64) && decide (ring < 17)
  | .fullRingReminder fn ring _ => decide (fn < 64) && decide (ring < 17)
  | .coSessionTimeout _ => true
  | .selfTestFailure cause => decide (1 ≤ cause) && decide (cause ≤ 4)
  | .faultLogFlush _ => true
  | .mapRecordWrite _ => true
  | .lifetimeCounterWrite q _ => decide (q < 4)
  | .trainingComplete n _ _ => decide (n < 24)
  | .pairingTimeout _ => true
  | .perstRelease _ => true
  | .vfEnableSet _ => true
  | .configurationRequest _ => true

end Sys2Proof
end

