-- ==== Sys2Proof/Certificates/Slice0/Obligations.lean ====
section
/-! DEFINITION. The statements made about the block, for the provers. Each says in its docstring which rules of the manual it follows;
where it rests on a choice of the model it names the log entry. -/

open Sys2Proof Sys2Proof.Machine

/-! ## Steps -/

/-- A step with a command at the front of the queue is that command's effect with the rest of the queue. -/
def Obligations.FrontCommandTakesEffect : Prop :=
  ∀ (c : Instr) (s : State), step { s with pending := c :: s.pending } = exec c s

/-- With no command waiting, 10 ns pass, one edge of the 100 MHz reference, and nothing else changes (R542, R544; that an idle step is one
edge is the model's choice, log entry 3). Module time advances while it runs. -/
def Obligations.IdleStepPassesOneReferenceEdge : Prop :=
  ∀ s : State, s.pending = [] →
    step s = .next { s with now := s.now + 10, time := if s.clk.running then s.time + 10 else s.time }

/-- Every step keeps the canonical form: device memory lists its cells in address order and none that reads 0 in a cleared range, every
table is in key order, and no log holds more than its places (R313, R509, R578, R602). -/
def Obligations.EveryStepKeepsTheCanonicalForm : Prop :=
  ∀ s t : State, s.Canonical → step s = .next t → t.Canonical

/-- The state right after reset is canonical. -/
def Obligations.ResetStateIsCanonical : Prop := State.reset.Canonical

/-- No command changes the queue, turns the clock back or uses a free value twice; its own place in the queue is the step's (log entries
2 and 3). -/
def Obligations.CommandsLeaveTheQueueAndTheOrderOfTime : Prop :=
  ∀ (c : Instr) (s t : State), exec c s = .next t → t.pending = s.pending ∧ s.now ≤ t.now ∧ s.free ≤ t.free

/-- A command stops the machine only where it names an object that the module does not have; every other command has its effect, or
finds nothing to do, and the machine goes on. -/
def Obligations.OnlyAbsentObjectsStopACommand : Prop :=
  ∀ (c : Instr) (s : State), (∃ t, exec c s = .next t) ∨ (c.wf = false ∧ exec c s = .fault .noSuchObject)

/-- Right after a power-on reset every register reads its reset value (R11, R549), no start-up step has begun (PHASE 0, R551), module time
stands at 0 (R544), and memory lists nothing. -/
def Obligations.RegistersReadTheirResetValues : Prop :=
  (∀ r : RegRef, State.reset.reg r = r.dflt) ∧ State.reset.phase = 0 ∧ State.reset.time = 0 ∧ State.reset.mem.cells = [] ∧
    State.reset.pending = []

/-! ## Device memory -/

/-- Bytes written under a key read back under it, and every byte outside them that the key may read is as before (R526). -/
def Obligations.BytesWrittenReadBackUnderTheirKey : Prop :=
  ∀ (m : Mem) (boot k a : Nat) (bs : List Byte),
    (∀ i (h : i < bs.length), (m.write (some k) a bs).readByte boot (some k) (a + i) = bs[i]) ∧
    ∀ x, ¬(a ≤ x ∧ x < a + bs.length) → (tget 0 m.keys (x / 256) = 0 ∨ tget 0 m.keys (x / 256) = k + 1) →
      (m.write (some k) a bs).readByte boot (some k) x = m.readByte boot (some k) x

/-! ## Doorbells and ring pairs -/

/-- A doorbell that an enabled pair accepts moves its index and nothing else (R287, R288): SQ_DB when TAIL does not move backwards and
TAIL - SQ_HEAD is at most the ring size, CQ_DB when HEAD does not move backwards and is not beyond CQ_TAIL. A doorbell that is not accepted is ignored: the violation logs receive the register's address with SOURCE 2, and an enabled pair gets a
VIOLATION reply with SEQ 0 and OPCODE 0xFF; a pair whose EN is 0 gets none (R286, R288). -/
def Obligations.DoorbellsMoveTheirIndexOrAreLogged : Prop :=
  (∀ (s : State) (fn ring : Nat) (v : BitVec 32), ring < 17 → s.hostUp = true → s.decodes fn = true → s.pairOn fn ring = true →
    (diff32 (s.fld (Reg.SCH_SQ_DB fn ring) Fld.SCH_SQ_DB_SQ_TAIL) (s.fld (Reg.SCH_RING_IDX fn ring) Fld.SCH_RING_IDX_SQ_HEAD) ≤
        diff32 v.toNat (s.fld (Reg.SCH_RING_IDX fn ring) Fld.SCH_RING_IDX_SQ_HEAD) →
      diff32 v.toNat (s.fld (Reg.SCH_RING_IDX fn ring) Fld.SCH_RING_IDX_SQ_HEAD) ≤
        2 ^ s.fld (Reg.SCH_RING_CFG fn ring) Fld.SCH_RING_CFG_SQ_LOG2 →
      ∃ t, exec (.sqDb fn ring v) s = .next t ∧ t.fld (Reg.SCH_SQ_DB fn ring) Fld.SCH_SQ_DB_SQ_TAIL = v.toNat ∧
        t = { s with regs := t.regs } ∧ s.fieldsBut t [(Reg.SCH_SQ_DB fn ring, Fld.SCH_SQ_DB_SQ_TAIL)]) ∧
    (diff32 v.toNat (s.fld (Reg.SCH_CQ_DB fn ring) Fld.SCH_CQ_DB_CQ_HEAD) ≤
        diff32 (s.fld (Reg.SCH_RING_IDX fn ring) Fld.SCH_RING_IDX_CQ_TAIL) (s.fld (Reg.SCH_CQ_DB fn ring) Fld.SCH_CQ_DB_CQ_HEAD) →
      ∃ t, exec (.cqDb fn ring v) s = .next t ∧ t.fld (Reg.SCH_CQ_DB fn ring) Fld.SCH_CQ_DB_CQ_HEAD = v.toNat ∧
        t = { s with regs := t.regs } ∧ s.fieldsBut t [(Reg.SCH_CQ_DB fn ring, Fld.SCH_CQ_DB_CQ_HEAD)])) ∧
  (∀ (s : State) (fn ring : Nat) (v : BitVec 32), ring < 17 → s.hostUp = true → s.decodes fn = true →
    (∀ (c : Instr) (off : Nat),
      (c = .sqDb fn ring v ∧ off = 0xD8108 + 0x20 * ring ∧ ¬(s.pairOn fn ring = true ∧
        diff32 (s.fld (Reg.SCH_SQ_DB fn ring) Fld.SCH_SQ_DB_SQ_TAIL) (s.fld (Reg.SCH_RING_IDX fn ring) Fld.SCH_RING_IDX_SQ_HEAD) ≤
          diff32 v.toNat (s.fld (Reg.SCH_RING_IDX fn ring) Fld.SCH_RING_IDX_SQ_HEAD) ∧
        diff32 v.toNat (s.fld (Reg.SCH_RING_IDX fn ring) Fld.SCH_RING_IDX_SQ_HEAD) ≤
          2 ^ s.fld (Reg.SCH_RING_CFG fn ring) Fld.SCH_RING_CFG_SQ_LOG2)) ∨
      (c = .cqDb fn ring v ∧ off = 0xD810C + 0x20 * ring ∧ ¬(s.pairOn fn ring = true ∧
        diff32 v.toNat (s.fld (Reg.SCH_CQ_DB fn ring) Fld.SCH_CQ_DB_CQ_HEAD) ≤
          diff32 (s.fld (Reg.SCH_RING_IDX fn ring) Fld.SCH_RING_IDX_CQ_TAIL) (s.fld (Reg.SCH_CQ_DB fn ring) Fld.SCH_CQ_DB_CQ_HEAD))) →
      ∃ t, exec c s = .next t ∧ s.logsViolation t ⟨s.time, off, 2, fn, false, false⟩ ∧
        (t.pair fn ring).out = (s.pair fn ring).out ++ (if s.pairOn fn ring then
          [{ bytes := replyBytes 0 stViolation 0xFF ring 0 0 off, isReply := true, final := false, irq := true, since := s.now }] else []) ∧
        s.fieldsBut t [(Reg.SCH_FN_STAT fn, Fld.SCH_FN_STAT_VIOL), (Reg.SCH_FN_STAT fn, Fld.SCH_FN_STAT_LOST)] ∧
        t = { s with regs := t.regs, pairs := t.pairs, parts := t.parts, globalLog := t.globalLog, pcie := t.pcie }))


/-- RING_ENABLE places a pair that is off when the value keeps the rules of R286, and RING_DISABLE takes it out of service: its indices
are 0, its waiting entries are discarded and counted (R286, R289, R318). Any other write of an enabled pair is ignored and logged. -/
def Obligations.RingWritesOpenAndClosePairs : Prop :=
  ∀ (s : State) (fn ring : Nat) (v : BitVec 64), ring < 17 → s.hostWrites fn →
    (s.pairOn fn ring = false → s.ringRules fn ring ((v ||| 1) &&& ringCfgBits) = true →
      ∃ t, exec (.ringEnable fn ring v) s = .next t ∧ t.pairOn fn ring = true ∧
        t.reg (Reg.SCH_RING_CFG fn ring) = (v ||| 1) &&& ringCfgBits ∧ t = { s with regs := t.regs } ∧
        s.fieldsBut t [(Reg.SCH_RING_CFG fn ring, wholeReg)]) ∧
    (s.pairOn fn ring = false → s.ringRules fn ring ((v ||| 1) &&& ringCfgBits) = false →
      ∃ t, exec (.ringEnable fn ring v) s = .next t ∧ s.refuses t fn (0xD8100 + 0x20 * ring)) ∧
    (s.pairOn fn ring = true → (v ||| 1) &&& ringCfgBits ≠ s.reg (Reg.SCH_RING_CFG fn ring) →
      ∃ t, exec (.ringEnable fn ring v) s = .next t ∧ s.refuses t fn (0xD8100 + 0x20 * ring)) ∧
    (s.pairOn fn ring = true → v &&& ringCfgBits &&& ~~~1 ≠ s.reg (Reg.SCH_RING_CFG fn ring) &&& ~~~1 →
      ∃ t, exec (.ringDisable fn ring v) s = .next t ∧ s.refuses t fn (0xD8100 + 0x20 * ring)) ∧
    (s.pairOn fn ring = true → v &&& ringCfgBits &&& ~~~1 = s.reg (Reg.SCH_RING_CFG fn ring) &&& ~~~1 →
      (∀ k, (s.pair fn k).fence = none) →
      ∃ t, exec (.ringDisable fn ring v) s = .next t ∧ t.pairOn fn ring = false ∧
        t.fld (Reg.SCH_SQ_DB fn ring) Fld.SCH_SQ_DB_SQ_TAIL = 0 ∧ t.fld (Reg.SCH_RING_IDX fn ring) Fld.SCH_RING_IDX_SQ_HEAD = 0 ∧
        t.fld (Reg.SCH_RING_IDX fn ring) Fld.SCH_RING_IDX_CQ_TAIL = 0 ∧ t.fld (Reg.SCH_CQ_DB fn ring) Fld.SCH_CQ_DB_CQ_HEAD = 0 ∧
        (t.pair fn ring).out = [] ∧ t.fld (Reg.SCH_FN_STAT fn) Fld.SCH_FN_STAT_DISCARD =
          min (s.fld (Reg.SCH_FN_STAT fn) Fld.SCH_FN_STAT_DISCARD + (s.pair fn ring).out.length) (2 ^ Fld.SCH_FN_STAT_DISCARD.w - 1) ∧
        (∀ k, k ≠ pairKey fn ring → tget {} t.pairs k = tget {} s.pairs k) ∧ t = { s with regs := t.regs, pairs := t.pairs } ∧
        s.fieldsBut t [(Reg.SCH_RING_CFG fn ring, Fld.SCH_RING_CFG_EN), (Reg.SCH_SQ_DB fn ring, wholeReg),
          (Reg.SCH_CQ_DB fn ring, wholeReg), (Reg.SCH_RING_IDX fn ring, wholeReg), (Reg.SCH_FN_STAT fn, Fld.SCH_FN_STAT_DISCARD)])

/-- An invalidation sets BUSY and holds its range, or all of the partition's runs, until every cache has dropped them; with BUSY at 1 a
write is ignored and logged (R184, R215). A completed invalidation leaves no stale entry that it covers. -/
def Obligations.InvalidationsRunUntilComplete : Prop :=
  ∀ (s : State) (fn p : Nat) (vpn : BitVec 32) (count : BitVec 16), p < 64 →
    (∀ (all : Bool) (c : Instr), c = (if all then .invalidateAll fn p vpn count else .invalidate fn p vpn count) → s.hostWrites fn →
      (fn = 0 ∨ fn = p) →
      (s.flag (Reg.MMU_INV p) Fld.MMU_INV_BUSY = false →
        ∃ t, exec c s = .next t ∧ t.flag (Reg.MMU_INV p) Fld.MMU_INV_BUSY = true ∧
          t.fld (Reg.MMU_INV p) Fld.MMU_INV_VPN = vpn.toNat ∧ t.fld (Reg.MMU_INV p) Fld.MMU_INV_COUNT = count.toNat ∧
          t.flag (Reg.MMU_INV p) Fld.MMU_INV_ALL = all ∧
          t.part p = { s.part p with inv := some (vpn.toNat, count.toNat + 1, all) } ∧ (∀ q, q ≠ p → t.part q = s.part q) ∧
          t = { s with regs := t.regs, parts := t.parts } ∧ s.fieldsBut t [(Reg.MMU_INV p, wholeReg)]) ∧
      (s.flag (Reg.MMU_INV p) Fld.MMU_INV_BUSY = true → ∃ t, exec c s = .next t ∧ s.refuses t fn (0x60008 + 0x10 * p))) ∧
    (∀ r, (s.part p).inv = some r →
      ∃ t, exec (.invalidationComplete p) s = .next t ∧ t.flag (Reg.MMU_INV p) Fld.MMU_INV_BUSY = false ∧ (t.part p).inv = none ∧
        (∀ e, e ∈ (t.part p).stale ↔ e ∈ (s.part p).stale ∧ invCovers e.2.1 r = false) ∧ (∀ q, q ≠ p → t.part q = s.part q) ∧
        t = { s with regs := t.regs, parts := t.parts } ∧ s.fieldsBut t [(Reg.MMU_INV p, Fld.MMU_INV_BUSY)])

/-- A write of the reservoir's TAIL within the ring takes effect, arms the interrupt again when the ring has risen to LOW_WATER and to at
least 1, lets the starved contexts retry when it advances, and raises an armed interrupt when it leaves fewer entries than LOW_WATER
without advancing; one that would overfill the ring, or that advances an absent ring, is ignored and logged (R188, R190, R191; in the log of
the reservoir's partition, log entry 94). A write of the free ring's HEAD lets as many waiting frames into the ring as it then has room
for, in order, and the parks that waited for them end (R192, R202). -/
def Obligations.ReservoirAndFreeRingIndicesMove : Prop :=
  ∀ (s : State) (fn p : Nat) (x : BitVec 32), p < 64 → s.hostWrites fn → (fn = 0 ∨ fn = p) →
    (x.toNat ≠ s.fld (Reg.KVT_RES_IDX p) Fld.KVT_RES_IDX_TAIL →
      (s.fld (Reg.KVT_RES_RING p) Fld.KVT_RES_RING_LOG2SIZE ≠ 0 →
        diff32 x.toNat (s.fld (Reg.KVT_RES_IDX p) Fld.KVT_RES_IDX_HEAD) ≤ 2 ^ s.fld (Reg.KVT_RES_RING p) Fld.KVT_RES_RING_LOG2SIZE →
        ∃ u, u.fld (Reg.KVT_RES_IDX p) Fld.KVT_RES_IDX_TAIL = x.toNat ∧ s.fieldsBut u [(Reg.KVT_RES_IDX p, Fld.KVT_RES_IDX_TAIL)] ∧
          u = { s with regs := u.regs, parts := u.parts } ∧ (∀ q, q ≠ p → u.part q = s.part q) ∧
          u.part p = { s.part p with armed := (u.part p).armed } ∧
          (u.part p).armed = ((s.part p).armed || decide (max 1 (s.fld (Reg.KVT_RES_CFG p) Fld.KVT_RES_CFG_LOW_WATER) ≤
            diff32 x.toNat (s.fld (Reg.KVT_RES_IDX p) Fld.KVT_RES_IDX_HEAD))) ∧
          exec (.reservoirTailWrite fn p x) s =
            .next (if diff32 (s.fld (Reg.KVT_RES_IDX p) Fld.KVT_RES_IDX_TAIL) (s.fld (Reg.KVT_RES_IDX p) Fld.KVT_RES_IDX_HEAD) <
                diff32 x.toNat (s.fld (Reg.KVT_RES_IDX p) Fld.KVT_RES_IDX_HEAD) then u.retryStarved p
              else if (u.part p).armed && decide (diff32 x.toNat (s.fld (Reg.KVT_RES_IDX p) Fld.KVT_RES_IDX_HEAD) <
                s.fld (Reg.KVT_RES_CFG p) Fld.KVT_RES_CFG_LOW_WATER) then (u.setPart p { u.part p with armed := false }).raise p 17
              else u)) ∧
      (s.fld (Reg.KVT_RES_RING p) Fld.KVT_RES_RING_LOG2SIZE = 0 ∨
          2 ^ s.fld (Reg.KVT_RES_RING p) Fld.KVT_RES_RING_LOG2SIZE < diff32 x.toNat (s.fld (Reg.KVT_RES_IDX p) Fld.KVT_RES_IDX_HEAD) →
        ∃ t, exec (.reservoirTailWrite fn p x) s = .next t ∧ s.refuses t p (0xC0008 + 0x40 * p))) ∧
    (∃ t, exec (.freeHeadWrite fn p x) s = .next (t.returnsDone p) ∧ t.fld (Reg.KVT_FREE_IDX p) Fld.KVT_FREE_IDX_HEAD = x.toNat ∧
      ∃ n, n = min (s.part p).returns.length (if s.fld (Reg.KVT_FREE_RING p) Fld.KVT_FREE_RING_LOG2SIZE = 0 then 0
          else 2 ^ s.fld (Reg.KVT_FREE_RING p) Fld.KVT_FREE_RING_LOG2SIZE -
            diff32 (s.fld (Reg.KVT_FREE_IDX p) Fld.KVT_FREE_IDX_TAIL) x.toNat) ∧
        (t.part p).returns = (s.part p).returns.drop n ∧
        t.fld (Reg.KVT_FREE_IDX p) Fld.KVT_FREE_IDX_TAIL = (s.fld (Reg.KVT_FREE_IDX p) Fld.KVT_FREE_IDX_TAIL + n) % 2 ^ 32 ∧
        s.fieldsBut t [(Reg.KVT_FREE_IDX p, wholeReg), (Reg.SCH_FN_STAT p, Fld.SCH_FN_STAT_VIOL), (Reg.SCH_FN_STAT p, Fld.SCH_FN_STAT_LOST)] ∧
        t = { s with regs := t.regs, parts := t.parts, mem := t.mem, globalLog := t.globalLog, pcie := t.pcie })

/-- A write of 1 to EN trains a port that is not UP and not training, a write of 0 takes it down; the port then carries nothing, the loss
of an UP port has its consequences for the routes, and FABRIC_JOINs that wait for the port go on (R375, R379). PORT_CFG is PF0's
(R392): the write of any other function is ignored and logged. -/
def Obligations.PortsAreEnabledAndDisabled : Prop :=
  ∀ (s : State) (n : Nat) (v : BitVec 64), n < 24 → s.hostUp = true →
    (s.portSt n ≠ 1 → s.portSt n ≠ 2 →
      ∃ t, exec (.portEnable 0 n v) s = .next t ∧ t.portSt n = 1 ∧ t.flag (Reg.LNK_PORT_CFG n) Fld.LNK_PORT_CFG_EN = true ∧
        t.fld (Reg.LNK_PORT_CFG n) Fld.LNK_PORT_CFG_CLASS = getBits v 1 2 ∧ (t.port n).txWait = [] ∧
        (∀ m, m ≠ n → t.port m = s.port m) ∧ t = { s with regs := t.regs, ports := t.ports } ∧
        s.fieldsBut t [(Reg.LNK_PORT_CFG n, Fld.LNK_PORT_CFG_EN), (Reg.LNK_PORT_CFG n, Fld.LNK_PORT_CFG_CLASS),
          (Reg.LNK_PORT_STAT n, Fld.LNK_PORT_STAT_STATE), (Reg.LNK_PORT_STAT n, Fld.LNK_PORT_STAT_LANES),
          (Reg.LNK_PORT_STAT n, Fld.LNK_PORT_STAT_SPARE_USED), (Reg.LNK_PORT_STAT n, Fld.LNK_PORT_STAT_PROT)]) ∧
    (s.portSt n = 0 →
      ∃ t, exec (.portDisable 0 n v) s = .next t ∧ t.flag (Reg.LNK_PORT_CFG n) Fld.LNK_PORT_CFG_EN = false ∧
        t.portSt n = 0 ∧ t = { s with regs := t.regs } ∧
        s.fieldsBut t [(Reg.LNK_PORT_CFG n, Fld.LNK_PORT_CFG_EN), (Reg.LNK_PORT_CFG n, Fld.LNK_PORT_CFG_CLASS)]) ∧
    (s.portSt n ≠ 0 →
      ∃ u : State, u.portSt n = 0 ∧ u.flag (Reg.LNK_PORT_CFG n) Fld.LNK_PORT_CFG_EN = false ∧ (u.port n).txWait = [] ∧
        (∀ m, m ≠ n → u.port m = s.port m) ∧ u = { s with regs := u.regs, ports := u.ports } ∧
        s.fieldsBut u [(Reg.LNK_PORT_CFG n, Fld.LNK_PORT_CFG_EN), (Reg.LNK_PORT_CFG n, Fld.LNK_PORT_CFG_CLASS),
          (Reg.LNK_PORT_STAT n, Fld.LNK_PORT_STAT_STATE), (Reg.LNK_PORT_STAT n, Fld.LNK_PORT_STAT_LANES),
          (Reg.LNK_PORT_STAT n, Fld.LNK_PORT_STAT_SPARE_USED), (Reg.LNK_PORT_STAT n, Fld.LNK_PORT_STAT_PROT)] ∧
        exec (.portDisable 0 n v) s = .next ((if s.portSt n = 2 then u.afterLoss n else u).joinEnds n)) ∧
    (∀ fn, fn ≠ 0 → s.decodes fn = true → ∀ c : Instr, c = .portEnable fn n v ∨ c = .portDisable fn n v →
      ∃ t, exec c s = .next t ∧ s.refuses t fn (0xF1000 + 0x20 * n))

/-! ## BAR0, BAR4 and the host link -/

/-- An aligned read of a register, or of one half of it, returns the bytes of one snapshot and clears the RC fields that lie wholly in what
was read, and nothing else (R11, R584). A register that the function does not see, or an offset with none, reads 0 (R581, R582), one of a
quadrant in reset or down all-ones (R585), and such a read changes nothing. A write of another partition's registers is ignored and logged (R583): the invalidation, reservoir and free-ring registers belong to
partition p's function and to PF0. -/
def Obligations.RegisterReadsReturnWhatAFunctionMaySee : Prop :=
  (∀ (s : State) (fn off n : Nat), s.hostWrites fn → off + n ≤ bar0Size →
    (∀ g half, regHit off = some g → g.accessed off n half →
      (s.sees fn g = true → s.unreadable g = false → g.row.base ≠ 0x120010 →
        ∃ t, exec (.rcRead fn off n) s = .next t ∧ t.out = leBytes n ((s.view fn g).toNat / 2 ^ halfShift half) ∧
          (∀ f ∈ g.row.fields, f.acc = .rc → f.inHalf half = true → t.fld (g.ref fn) f = 0) ∧ t = { s with regs := t.regs, out := t.out } ∧
          s.fieldsBut t ((g.row.fields.filter fun f => f.acc == .rc && f.inHalf half).map fun f => (g.ref fn, f))) ∧
      (s.sees fn g = false → exec (.rcRead fn off n) s = .next { s with out := List.replicate n 0 }) ∧
      (s.sees fn g = true → s.unreadable g = true → exec (.rcRead fn off n) s = .next { s with out := List.replicate n 0xFF })) ∧
    (regHit off = none → n = 4 → off % 4 = 0 → exec (.rcRead fn off n) s = .next { s with out := List.replicate n 0 })) ∧
  (∀ (s : State) (fn p : Nat) (vpn x : BitVec 32) (count : BitVec 16), p < 64 → s.hostWrites fn → fn ≠ 0 → fn ≠ p →
    ∀ (c : Instr) (off : Nat), (c = .invalidate fn p vpn count ∧ off = 0x60008 + 0x10 * p) ∨
        (c = .invalidateAll fn p vpn count ∧ off = 0x60008 + 0x10 * p) ∨ (c = .reservoirTailWrite fn p x ∧ off = 0xC0008 + 0x40 * p) ∨
        (c = .freeHeadWrite fn p x ∧ off = 0xC0018 + 0x40 * p) →
      ∃ t, exec c s = .next t ∧ s.refuses t fn off)

/-- An aligned write that a function may make, of a register or of one half, sets the RW, W1S and WO bits written to those of the value and
leaves every other bit (R11, R12, R584); a write that it may not make is ignored and logged, as is one at an offset with no register, one of
partial or unaligned bytes, and one of a register it does not see (R581 to R584); a write of a read-only register is ignored (R11). -/
def Obligations.RegisterWritesSetTheWritableBits : Prop :=
  ∀ (s : State) (fn off : Nat) (bs : List Byte), s.hostWrites fn → off + bs.length ≤ bar0Size → bs.length ≤ 8 →
    (∀ g half, regHit off = some g → g.accessed off bs.length half →
      (s.sees fn g = true → s.unreadable g = false → s.mayWrite fn g → actingRegisters.contains g.row.base = false →
        ∃ t, exec (.registerWrite fn off bs false) s = .next t ∧
          t.reg (g.ref fn) = (s.reg (g.ref fn) &&& ~~~(writeMask g.row.fields &&& halfMask half)) |||
            (BitVec.ofNat 64 (ofLeBytes bs * 2 ^ halfShift half) &&& (writeMask g.row.fields &&& halfMask half)) ∧
          t = { s with regs := t.regs } ∧ s.fieldsBut t [(g.ref fn, wholeReg)]) ∧
      (s.sees fn g = true → g.row.wr = .ro → exec (.registerWrite fn off bs false) s = .next s) ∧
      (s.sees fn g = true → s.unreadable g = true → exec (.registerWrite fn off bs false) s = .next s) ∧
      (s.sees fn g = false ∨ (s.unreadable g = false ∧ g.row.wr ≠ .ro ∧ ¬s.mayWrite fn g) →
        ∃ t, exec (.registerWrite fn off bs false) s = .next t ∧ s.refuses t fn off)) ∧
    (off % 4 = 0 → bs.length = 4 → regHit off = none → ∃ t, exec (.registerWrite fn off bs false) s = .next t ∧ s.refuses t fn off) ∧
    (¬(bs.length = 8 ∧ off % 8 = 0) → ¬(bs.length = 4 ∧ off % 4 = 0) →
      ∃ t, exec (.registerWrite fn off bs false) s = .next t ∧ s.refuses t fn off) ∧
    ∃ t, exec (.registerWrite fn off bs true) s = .next t ∧ s.refuses t fn off

/-- Byte o of BAR4 is physical address BASE * 2^30 + o of the function's partition, and byte o of BAR2 is byte o of its ring area (R283,
R285). An admitted read returns the bytes of memory and changes nothing, but that a unit which reads as uncorrectable counts and is logged
(R499); an admitted write reads back byte for byte and changes no other byte of memory; a BAR4 access that is not admitted is logged with
SOURCE 6 and its address, a refused read returning all-ones (that value is the model's choice) and a refused write changing no byte. An
access that runs beyond its BAR is an Unsupported Request (R573). Before the ring area is placed a BAR2 write goes nowhere and a read gives
no known byte (the model's choice, log entry 95). -/
def Obligations.ApertureAccessesReachAdmittedMemory : Prop :=
  ∀ (s : State) (fn off n a r : Nat) (bs : List Byte), s.hostWrites fn → a = s.fld (Reg.SCH_APER fn) Fld.SCH_APER_BASE * 2 ^ 30 + off →
    r = (s.ringArea fn).1 + off →
    (off + n ≤ bar4Size →
      (s.admits fn a n = true → ∃ t, exec (.apertureAccess fn off (.read n)) s = .next t ∧ s.hostReads t fn a n) ∧
      (s.admits fn a n = false →
        ∃ t, exec (.apertureAccess fn off (.read n)) s = .next t ∧ t.out = List.replicate n 0xFF ∧
          s.logsViolation t ⟨s.time, a % 2 ^ 48, 6, fn, true, false⟩ ∧
          s.fieldsBut t [(Reg.SCH_FN_STAT fn, Fld.SCH_FN_STAT_VIOL), (Reg.SCH_FN_STAT fn, Fld.SCH_FN_STAT_LOST)] ∧
          t = { s with regs := t.regs, parts := t.parts, globalLog := t.globalLog, pcie := t.pcie, out := t.out })) ∧
    (off + bs.length ≤ bar4Size →
      (s.admits fn a bs.length = true → ∃ t, exec (.apertureAccess fn off (.write bs)) s = .next t ∧ s.hostWrote t fn a bs) ∧
      (s.admits fn a bs.length = false →
        ∃ t, exec (.apertureAccess fn off (.write bs)) s = .next t ∧
          s.logsViolation t ⟨s.time, a % 2 ^ 48, 6, fn, true, false⟩ ∧
          s.fieldsBut t [(Reg.SCH_FN_STAT fn, Fld.SCH_FN_STAT_VIOL), (Reg.SCH_FN_STAT fn, Fld.SCH_FN_STAT_LOST)] ∧
          t = { s with regs := t.regs, parts := t.parts, globalLog := t.globalLog, pcie := t.pcie })) ∧
    ((s.ringArea fn).2 ≠ 0 →
      (off + n ≤ bar2Size → ∃ t, exec (.apertureAccess fn off (.ringRead n)) s = .next t ∧ s.hostReads t fn r n) ∧
      (off + bs.length ≤ bar2Size → ∃ t, exec (.apertureAccess fn off (.ringWrite bs)) s = .next t ∧ s.hostWrote t fn r bs)) ∧
    ((s.ringArea fn).2 = 0 →
      (off + n ≤ bar2Size → ∃ t, exec (.apertureAccess fn off (.ringRead n)) s = .next t ∧ t.out.length = n ∧
        t = { s with free := t.free, out := t.out }) ∧
      (off + bs.length ≤ bar2Size → exec (.apertureAccess fn off (.ringWrite bs)) s = .next s)) ∧
    ∀ acc : ApAccess, (apShape acc).2.2 < off + (apShape acc).2.1 →
      exec (.apertureAccess fn off acc) s =
        .next { s with pcie := { s.pcie with aer := s.pcie.aer ++ [(if s.enabledFn fn then fn else 0, (apShape acc).1)] } }

/-- Requests outside the BARs and the functions the host sees (R473, R554, R573): an unsupported request is recorded at the function, or at
PF0 where the function is not enabled; from the link's training until the end of step 8 a configuration request has retry status, then
an enabled function answers it and any other is unsupported. A request served writes the MSI-X capability as it says: enable and function mask,
or the mask bit of one vector; each pending message that no mask holds any more is sent, lowest vector first (R284). VF Enable and NumVFs
take the values written, NumVFs at most 63; clearing VF Enable stops the VFs and resets their MSI-X state. -/
def Obligations.HostLinkRequestsAreAnswered : Prop :=
  ∀ (s : State) (fn n : Nat) (isRead : Bool),
    (s.hostUp = true → exec (.unsupportedRequest fn isRead) s =
      .next { s with pcie := { s.pcie with aer := s.pcie.aer ++ [(if s.enabledFn fn then fn else 0, isRead)] }, out := [] }) ∧
    (5 ≤ s.phase → ∀ acc : CfgAccess,
      (s.hostUp = false → exec (.configurationRequest ⟨fn, acc⟩) s = .next { s with pcie := { s.pcie with crs := s.pcie.crs ++ [fn] } }) ∧
      (s.hostUp = true → s.enabledFn fn = true →
        ∃ t, exec (.configurationRequest ⟨fn, acc⟩) s = .next t ∧ t = { s with pcie := t.pcie } ∧
          t.pcie = { s.pcie with
            served := s.pcie.served ++ [fn], msixOn := t.pcie.msixOn, funcMask := t.pcie.funcMask
            unmasked := t.pcie.unmasked, pendingBits := t.pcie.pendingBits, msix := t.pcie.msix } ∧
          (∀ f, t.pcie.msixOn.contains f = match acc with
            | .msixControl on _ => if f = fn then on else s.pcie.msixOn.contains f
            | _ => s.pcie.msixOn.contains f) ∧
          (∀ f, t.pcie.funcMask.contains f = match acc with
            | .msixControl _ mask => if f = fn then mask else s.pcie.funcMask.contains f
            | _ => s.pcie.funcMask.contains f) ∧
          (∀ x, t.pcie.unmasked.contains x = match acc with
            | .msixVector v mask => if v < 32 ∧ x = 32 * fn + v then !mask else s.pcie.unmasked.contains x
            | _ => s.pcie.unmasked.contains x) ∧
          ∃ sends : Nat → Bool, (∀ v, sends v = (s.pcie.pendingBits.contains (32 * fn + v) && !(t.masked fn v) && s.decodes fn &&
              t.pcie.msixOn.contains fn && match acc with
                | .other => false
                | .msixControl .. => true
                | .msixVector v _ => decide (v < 32))) ∧
            t.pcie.msix = (((List.range 32).filter sends).map fun v => (fn, v, s.now)).reverse ++ s.pcie.msix ∧
            t.pcie.pendingBits = s.pcie.pendingBits.filter fun x => !(x / 32 == fn && sends (x % 32))) ∧
      (s.hostUp = true → s.enabledFn fn = false →
        exec (.configurationRequest ⟨fn, acc⟩) s = .next { s with pcie := { s.pcie with unsupported := s.pcie.unsupported ++ [fn] } })) ∧
    (s.hostUp = true → n ≤ 63 →
      exec (.vfEnableSet n) s = .next { s with pcie := { s.pcie with vfEnable := true, numVfs := n } }) ∧
    (s.hostUp = true →
      ∃ t, exec .vfEnableClear s = .next t ∧ t = { s with pcie := t.pcie } ∧ t.pcie.vfEnable = false ∧
        t.pcie = { s.pcie with
          vfEnable := false, msixOn := t.pcie.msixOn, funcMask := t.pcie.funcMask, unmasked := t.pcie.unmasked
          pendingBits := t.pcie.pendingBits } ∧
        (∀ f, f ≠ 0 → t.decodes f = false) ∧
        (∀ f, t.pcie.msixOn.contains f = (s.pcie.msixOn.contains f && (f = 0 || 64 ≤ f))) ∧
        (∀ f, t.pcie.funcMask.contains f = (s.pcie.funcMask.contains f && (f = 0 || 64 ≤ f))) ∧
        (∀ x, t.pcie.unmasked.contains x = (s.pcie.unmasked.contains x && (x / 32 = 0 || 64 ≤ x / 32))) ∧
        ∀ x, t.pcie.pendingBits.contains x = (s.pcie.pendingBits.contains x && (x / 32 = 0 || 64 ≤ x / 32)))


/-! ## Resets and start-up -/

/-- CLK.RESET.MODULE, by PF0, and PERST# low for 100 us or more reset the module; a shorter pulse is ignored (R549, R556, R574), and step 4
waits while PERST# is low until its release. A quadrant reset by PF0, after READY, sets QRST bit q and begins step 8 of quadrant q: PCP[q]
is not ALIVE, its ports carry nothing, its lasers and rings and the registers of its dies are as after reset, no calibration runs on it, the
placements with a tile in it are fenced and their steps abandoned (R550); flash, the housekeeping converters, the thermal and the power
control stay. QUAD resets its quadrants one after the other, the lowest first, and a second reset of a quadrant is ignored. A function-level
reset of an enabled function, and D3hot of an enabled VF, take its enabled ring pairs out of service (EN 0, indices 0, nothing waiting) and
turn its MSI-X off, every vector masked and none pending (R284, R318, R549, R572); nothing but its ring pairs, its count of entries discarded
and its MSI-X state changes. D3hot of PF0 does nothing. -/
def Obligations.ResetsClearWhatTheyName : Prop :=
  (∀ (s : State) (quads : BitVec 4) (lowNs at_ : Nat), s.powered = true →
    (s.hostUp = true → ∃ t, exec (.moduleReset 0 quads) s = .next t ∧ s.afterModuleReset t ∧ t.clk.perstLow = s.clk.perstLow) ∧
    (100000 ≤ lowNs → ∃ t, exec (.perst lowNs) s = .next t ∧ s.afterModuleReset t ∧ t.clk.perstLow = true) ∧
    (lowNs < 100000 → exec (.perst lowNs) s = .next s) ∧
    (s.phase = 4 → s.clk.perstLow = true →
      ∃ t, exec (.perstRelease at_) s = .next t ∧ t.clk = { s.clk with perstLow := false, stepAt := max s.now at_ } ∧ t.phase = 4 ∧
        t = { s with regs := t.regs, now := t.now, time := t.time, clk := t.clk } ∧ t.now = max s.now at_ ∧
        s.fieldsBut t [(Reg.CLK_START, Fld.CLK_START_PHASE)]) ∧
    ∀ fn, fn ≠ 0 → s.hostWrites fn → ∀ c : Instr, c = .moduleReset fn quads ∨ c = .quadrantReset fn quads →
      ∃ t, exec c s = .next t ∧ s.refuses t fn 0x20018) ∧
  (∀ (s : State) (q : Nat), q < 4 → s.ready = true →
    (bitOf (s.fld Reg.CLK_START Fld.CLK_START_QRST) q = false →
      ∃ t, exec (.quadrantReset 0 (BitVec.ofNat 4 (2 ^ q))) s = .next t ∧
        bitOf (t.fld Reg.CLK_START Fld.CLK_START_QRST) q = true ∧ tget 0 t.clk.quadPhase q = 8 ∧
        t.flag (Reg.FWP_PROC (4 + q)) Fld.FWP_PROC_ALIVE = false ∧ (∀ n, n / 256 = q → t.laser n = {}) ∧
        (∀ c r, c / 512 = q → r < 128 → t.ring c r = {}) ∧ (∀ r : RegRef, inQuadDom q r.key = true → t.reg r = r.dflt) ∧
        (∀ n, 6 * q ≤ n → n < 6 * q + 6 → t.portSt n ≠ 2) ∧ (∀ x ∈ t.cal.running, objQuad q x.1 = false) ∧
        t.flash = s.flash ∧ t.hkc = s.hkc ∧ t.therm = s.therm ∧ t.power = s.power ∧ t.now = s.now ∧
        (∀ l, (s.place l).present = true → (s.place l).cfg.tiles.any (fun t => t / 256 == q) = true → (s.place l).change = none →
          (s.place l).removing = false → (t.place l).fenced = true ∧ (t.place l).step = none)) ∧
    (bitOf (s.fld Reg.CLK_START Fld.CLK_START_QRST) q = true → exec (.quadrantReset 0 (BitVec.ofNat 4 (2 ^ q))) s = .next s)) ∧
  (∀ (s : State) (quads : BitVec 4), exec (.quadrantReset 0 quads) s =
    ((List.range 4).filter fun q => bitOf quads.toNat q).foldl (fun (o : Host.Outcome State Fault Refusal) q => match o with
      | .next u => exec (.quadrantReset 0 (BitVec.ofNat 4 (2 ^ q))) u
      | stop => stop) (.next s)) ∧
  (∀ (s : State) (p : Nat), p < 64 → s.hostUp = true →
    (∀ c : Instr, c = .functionLevelReset p ∨ (c = .d3hot p ∧ p ≠ 0) →
      (s.enabledFn p = true → ∃ t, exec c s = .next t ∧
        (∀ r, r < 17 → t.pairOn p r = false) ∧
        (∀ r, r < 17 → s.pairOn p r = true → (t.pair p r).out = [] ∧ t.fld (Reg.SCH_SQ_DB p r) Fld.SCH_SQ_DB_SQ_TAIL = 0 ∧
          t.fld (Reg.SCH_CQ_DB p r) Fld.SCH_CQ_DB_CQ_HEAD = 0 ∧ t.fld (Reg.SCH_RING_IDX p r) Fld.SCH_RING_IDX_SQ_HEAD = 0 ∧
          t.fld (Reg.SCH_RING_IDX p r) Fld.SCH_RING_IDX_CQ_TAIL = 0) ∧
        t = { s with regs := t.regs, pairs := t.pairs, pcie := t.pcie } ∧ (∀ k, k / 32 ≠ p → tget {} t.pairs k = tget {} s.pairs k) ∧
        t.pcie = { s.pcie with
          msixOn := s.pcie.msixOn.filter (· != p), funcMask := s.pcie.funcMask.filter (· != p)
          unmasked := s.pcie.unmasked.filter (fun x => x / 32 != p), pendingBits := s.pcie.pendingBits.filter (fun x => x / 32 != p) } ∧
        s.fieldsBut t ((Reg.SCH_FN_STAT p, Fld.SCH_FN_STAT_DISCARD) :: (List.range 17).flatMap fun r =>
          [(Reg.SCH_RING_CFG p r, Fld.SCH_RING_CFG_EN), (Reg.SCH_SQ_DB p r, wholeReg), (Reg.SCH_CQ_DB p r, wholeReg),
            (Reg.SCH_RING_IDX p r, wholeReg)])) ∧
      (s.enabledFn p = false → exec c s = .next s)) ∧
    exec (.d3hot 0) s = .next s)

/-- A loss of the reference puts the PLLs into holdover, counts and sends a PLDM event of kind 4; after 1 ms of a valid reference holdover
clears; a shorter time changes nothing. Work and module time go on: nothing else changes (R542, R578). The order of the start-up sequence (R551, R553 to R555, R574): POWER_ON begins it at step 2, each step's end begins the next, step 4 waits
for PERST# and a valid reference, recovery stops after step 8, and without coordinates the module is READY with NOFAB after step 13.
Module time starts at the end of step 4 from 0 (R544); the governor holds from PWR_GOOD, the end of step 3, until PTP is ALIVE, the end of
step 8 (R480). -/
def Obligations.StartUpFollowsItsStepsAndReference : Prop :=
  (∀ (s : State) (ns : Nat),
    (s.clk.running = true → s.flag Reg.CLK_STAT Fld.CLK_STAT_HOLDOVER = false →
      ∃ t, exec .referenceLoss s = .next t ∧ t.flag Reg.CLK_STAT Fld.CLK_STAT_HOLDOVER = true ∧
        t.flag Reg.CLK_STAT Fld.CLK_STAT_REF_OK = false ∧
        t.fld Reg.CLK_STAT Fld.CLK_STAT_REF_LOSS = min (s.fld Reg.CLK_STAT Fld.CLK_STAT_REF_LOSS + 1) (2 ^ Fld.CLK_STAT_REF_LOSS.w - 1) ∧
        t.side = (s.pldm 4 0).side ∧ t = { s with regs := t.regs, side := t.side } ∧
        s.fieldsBut t [(Reg.CLK_STAT, Fld.CLK_STAT_HOLDOVER), (Reg.CLK_STAT, Fld.CLK_STAT_REF_OK), (Reg.CLK_STAT, Fld.CLK_STAT_REF_LOSS)]) ∧
    (s.flag Reg.CLK_STAT Fld.CLK_STAT_HOLDOVER = true → 1000000 ≤ ns →
      ∃ t, exec (.referenceRestored ns) s = .next t ∧ t.flag Reg.CLK_STAT Fld.CLK_STAT_HOLDOVER = false ∧
        t.flag Reg.CLK_STAT Fld.CLK_STAT_REF_OK = true ∧ t = { s with regs := t.regs } ∧
        s.fieldsBut t [(Reg.CLK_STAT, Fld.CLK_STAT_HOLDOVER), (Reg.CLK_STAT, Fld.CLK_STAT_REF_OK)]) ∧
    (ns < 1000000 → exec (.referenceRestored ns) s = .next s)) ∧
  (∀ (s : State) (at_ : Nat) (o : StartObs),
    (s.phase = 0 → s.therm.tripped = false → s.power.tripCause = none →
      ∃ t, exec (.powerOn at_) s = .next t ∧ t.phase = 2 ∧ t.clk.count = s.clk.count + 1 ∧ t.clk.firstAt = max s.now at_ ∧ t.mem = {} ∧
        t.ctxs = [] ∧ t.flash = s.flash) ∧
    (s.clk.stopped = false →
      (∀ k, s.phase = k → (k = 2 ∨ k = 3 ∨ (5 ≤ k ∧ k ≤ 7) ∨ (9 ≤ k ∧ k ≤ 12)) →
        ∃ t, exec (.startUpStepEnd at_ o) s = .next t ∧ t.phase = k + 1 ∧ (k = 3 → t.flag Reg.POW_STAT Fld.POW_STAT_GOV = true)) ∧
      (s.phase = 4 →
        (s.clk.perstLow = false → o.refOk = true →
          ∃ t, exec (.startUpStepEnd at_ o) s = .next t ∧ t.phase = 5 ∧ t.time = 0 ∧ t.clk.running = true ∧
            t.flag Reg.CLK_STAT Fld.CLK_STAT_REF_OK = true) ∧
        (s.clk.perstLow = true ∨ o.refOk = false → ∃ t, exec (.startUpStepEnd at_ o) s = .next t ∧ t.phase = 4)) ∧
      (s.phase = 8 →
        (s.flag Reg.FWP_BOOT Fld.FWP_BOOT_RECOVERY = false →
          ∃ t, exec (.startUpStepEnd at_ o) s = .next t ∧ t.phase = 9 ∧ (∀ i, i < 8 → t.flag (Reg.FWP_PROC i) Fld.FWP_PROC_ALIVE = true) ∧
            t.flag Reg.POW_STAT Fld.POW_STAT_GOV = false ∧ t.flag Reg.SEC_STAT Fld.SEC_STAT_APPROVED = true ∧ t.hostUp = true) ∧
        (s.flag Reg.FWP_BOOT Fld.FWP_BOOT_RECOVERY = true →
          ∃ t, exec (.startUpStepEnd at_ o) s = .next t ∧ t.phase = 8 ∧ t.clk.stopped = true ∧ t.hostUp = true)) ∧
      (s.phase = 13 →
        (s.flag Reg.LNK_COORD Fld.LNK_COORD_VALID = true → ∃ t, exec (.startUpStepEnd at_ o) s = .next t ∧ t.phase = 14) ∧
        (s.flag Reg.LNK_COORD Fld.LNK_COORD_VALID = false →
          ∃ t, exec (.startUpStepEnd at_ o) s = .next t ∧ t.ready = true ∧ t.flag Reg.CLK_START Fld.CLK_START_NOFAB = true)) ∧
      (s.phase = 14 →
        ∃ t, exec (.startUpStepEnd at_ o) s = .next t ∧ t.ready = true ∧ t.side = (s.pldm 5 0).side ∧
          ((max s.now at_ - s.clk.firstAt) / 1000000 < 2 ^ 32 →
            t.fld Reg.CLK_START Fld.CLK_START_ELAPSED = (max s.now at_ - s.clk.firstAt) / 1000000))))

/-! ## The management sideband -/

/-- The OEM commands (R373, R421, R577): of the right length they answer 0x00 with their data, SET_COORD 0x80 where a port is UP, MODULE_ID is
16,384 or more or TOPO is 3, GET_DEVPUB 0x80 during a zeroisation; any other length 0x81 and no change. SET_COORD sets the
coordinates and the roles of the ports (R370); SET_CAP sets BMC_CAP and CAP_EFF, the lower of the two caps between 1,200 and
3,600 W. -/
def Obligations.SidebandCommandsAnswer : Prop :=
  ∀ (s : State) (v : BitVec 64) (w : BitVec 16) (len : Nat), s.powered = true →
    (∀ (c : Instr) (want : Nat), (c = .setCoord v len ∧ want = 8) ∨ (c = .setCap w len ∧ want = 2) ∨ (c = .getDevpub len ∧ want = 0) ∨
        (c = .getState len ∧ want = 0) →
      len ≠ want → exec c s = .next { s with side := { s.side with resp := [0x81] } }) ∧
    ((List.range 24).any (fun n => s.portSt n == 2) = false → getBits v 0 16 < 16384 → getBits v 44 2 ≠ 3 →
      ∃ t, exec (.setCoord v 8) s = .next t ∧ t.side.resp = [0x00] ∧ (t.reg Reg.LNK_COORD).toNat = v.toNat % 2 ^ 47 ∧
        (∀ n, n < 24 → t.portRole n = (portRoleOf (getBits v 44 2) n).1) ∧ t = { s with regs := t.regs, side := t.side } ∧
        s.fieldsBut t ((Reg.LNK_COORD, wholeReg) :: (List.range 24).flatMap fun n =>
          [(Reg.LNK_PORT_CFG n, Fld.LNK_PORT_CFG_ROLE), (Reg.LNK_PORT_CFG n, Fld.LNK_PORT_CFG_PEER_SLOT)])) ∧
    ((List.range 24).any (fun n => s.portSt n == 2) = true ∨ 16384 ≤ getBits v 0 16 ∨ getBits v 44 2 = 3 →
      exec (.setCoord v 8) s = .next { s with side := { s.side with resp := [0x80] } }) ∧
    (∃ t, exec (.setCap w 2) s = .next t ∧ t.fld Reg.POW_CAP Fld.POW_CAP_BMC_CAP = min 4095 w.toNat ∧
      t.fld Reg.POW_STAT Fld.POW_STAT_CAP_EFF =
        min (max 1200 (min 3600 (s.fld Reg.POW_CAP Fld.POW_CAP_HOST_CAP))) (max 1200 (min 3600 w.toNat)) ∧
      t.side.resp = 0x00 :: leBytes 2 (t.fld Reg.POW_STAT Fld.POW_STAT_CAP_EFF) ∧ t = { s with regs := t.regs, side := t.side } ∧
      s.fieldsBut t [(Reg.POW_CAP, Fld.POW_CAP_BMC_CAP), (Reg.POW_STAT, Fld.POW_STAT_CAP_EFF), (Reg.POW_STAT, Fld.POW_STAT_BMC_LIMITS)]) ∧
    (s.sec.zeroing = false → ∃ t, exec (.getDevpub 0) s = .next t ∧ t.side.resp.length = 97 ∧ t.side.resp.head? = some 0x00 ∧
      t = { s with side := { s.side with resp := t.side.resp } } ∧
      ∀ k, k < 12 → (t.side.resp.drop (1 + 8 * k)).take 8 = leBytes 8 (s.reg (Reg.SEC_DEVPUB k)).toNat) ∧
    (s.sec.zeroing = true → exec (.getDevpub 0) s = .next { s with side := { s.side with resp := [0x80] } }) ∧
    ∃ t, exec (.getState 0) s = .next t ∧ t.side.resp = 0x00 :: (leBytes 4 (getBits (s.reg Reg.CLK_START) 0 32) ++
        leBytes 4 (getBits (s.reg Reg.POW_STAT) 32 4) ++ leBytes 4 (getBits (s.reg Reg.THM_STAT) 0 3) ++
        leBytes 4 (getBits (s.reg Reg.TWN_STAT) 0 3)) ∧ t = { s with side := { s.side with resp := t.side.resp } }

/-! ## Packets: fetch, checks and replies -/

/-- A packet that the ring engine cannot fetch now (its pair is off or not served, its slots are not all there, a FENCE of its ring or a
waiting reply holds it, or the arbiter grants another ring) stays on its ring: nothing changes (R286, R287, R289, R297, R299). The fetch of
a packet consumes its slots, makes SEQ + 1 the next one expected and moves the pointer of its arbiter past its ring (R287, R291, R296),
whether or not the packet is accepted:
then the first failing check of R291 decides the reply, and the packet changes nothing else. A D-class packet of partitions 1 to 63 is
deferred during a zeroisation (R535). -/
def Obligations.PacketsWaitOrAreFetchedAndChecked : Prop :=
  (∀ (c : Instr) (h : Hdr) (s : State), ((∃ op len, dForm c = some (h, op, len)) ∨ (∃ p, cForm c = some (h, p)) ∨
      ∃ op, c = .unassignedOpcode h op) → s.fetchable h = false → exec c s = .next s) ∧
  (∀ (s : State) (h : Hdr), s.fetchable h = true → s.badSlot h = none →
    ((s.takePacket h).fld (Reg.SCH_RING_IDX h.fn h.ring) Fld.SCH_RING_IDX_SQ_HEAD =
        (s.fld (Reg.SCH_RING_IDX h.fn h.ring) Fld.SCH_RING_IDX_SQ_HEAD + slotsOf h.length.toNat) % 2 ^ 32 ∧
      (s.takePacket h).fld (Reg.SCH_RING_STAT h.fn h.ring) Fld.SCH_RING_STAT_EXP_SEQ = (h.seq.toNat + 1) % 2 ^ 32 ∧
      s.takePacket h = { s with
        regs := (s.takePacket h).regs, pairs := (s.takePacket h).pairs,
        sched := if h.ring = 0 then { s.sched with cPtr := (h.fn + 1) % 64 }
          else { s.sched with dPtr := (16 * h.fn + h.ring) % 1024 } } ∧
      (s.takePacket h).pair h.fn h.ring =
        { s.pair h.fn h.ring with open_ := (s.pair h.fn h.ring).open_ ++ [h.seq.toNat] } ∧
      s.fieldsBut (s.takePacket h) [(Reg.SCH_RING_IDX h.fn h.ring, Fld.SCH_RING_IDX_SQ_HEAD),
        (Reg.SCH_RING_STAT h.fn h.ring, Fld.SCH_RING_STAT_EXP_SEQ)]) ∧
    (∀ (c : Instr) (op len : Nat), dForm c = some (h, op, len) →
      (∀ k, s.headerChk h op false (h.length.toNat == len) true = k → k ≠ .pass → exec c s = .next ((s.takePacket h).fail h op k)) ∧
      (s.headerChk h op false (h.length.toNat == len) true = .pass → h.fn ≠ 0 → s.sec.zeroing = true →
        exec c s = .next ((s.takePacket h).reply h op stDeferred 0 0))) ∧
    (∀ (c : Instr) (p : CPacket), cForm c = some (h, p) → s.passedOver p = false →
      ∀ k, s.headerChk h p.opcode true (p.lenOk h.length.toNat) (!p.pf0 || h.fn == 0) = k → k ≠ .pass →
        exec c s = .next ((s.takePacket h).fail h p.opcode k)) ∧
    ∀ op : BitVec 8, assignedOpcodes.contains op.toNat = false →
      exec (.unassignedOpcode h op) s = .next (if h.part.toNat % 64 = h.fn then (s.takePacket h).reply h op.toNat stBadPacket 0 0
        else ((s.takePacket h).violate h.fn (h.part.toNat % 64) 1 false true).reply h op.toNat stViolation 0 (h.part.toNat % 64)))

/-- The order of the checks of R291 and the reply of each: another partition's packet is a VIOLATION, then an unassigned opcode, a CLASS or
ring that does not fit, reserved header bits and LENGTH, a SEQ that is not the one expected (with that in DETAIL), a LENGTH that is not
the packet's, each BAD_PACKET, then an opcode reserved to partition 0, a VIOLATION naming the opcode. -/
def Obligations.HeaderChecksFollowTheirOrder : Prop :=
  ∀ (s : State) (h : Hdr) (op : Nat) (cls lenOk pf0Ok : Bool),
    (h.part.toNat % 64 ≠ h.fn → s.headerChk h op cls lenOk pf0Ok = .viol (h.part.toNat % 64) false true) ∧
    (h.part.toNat % 64 = h.fn →
      (assignedOpcodes.contains op = false ∨ (h.cls.toNat % 2 == 1) ≠ cls ∨ (h.ring == 0) ≠ cls ∨ 2 ≤ h.cls.toNat ∨ 64 ≤ h.part.toNat ∨
          4 ≤ h.flags.toNat ∨ h.rsv ≠ 0 ∨ 240 < h.length.toNat ∨ h.length.toNat % 8 ≠ 0 → s.headerChk h op cls lenOk pf0Ok = .bad 0) ∧
      (assignedOpcodes.contains op = true → (h.cls.toNat % 2 == 1) = cls → (h.ring == 0) = cls → h.cls.toNat < 2 → h.part.toNat < 64 →
        h.flags.toNat < 4 → h.rsv = 0 → h.length.toNat ≤ 240 → h.length.toNat % 8 = 0 →
        (h.seq.toNat ≠ s.fld (Reg.SCH_RING_STAT h.fn h.ring) Fld.SCH_RING_STAT_EXP_SEQ → s.headerChk h op cls lenOk pf0Ok =
          .bad (s.fld (Reg.SCH_RING_STAT h.fn h.ring) Fld.SCH_RING_STAT_EXP_SEQ)) ∧
        (h.seq.toNat = s.fld (Reg.SCH_RING_STAT h.fn h.ring) Fld.SCH_RING_STAT_EXP_SEQ →
          (lenOk = false → s.headerChk h op cls lenOk pf0Ok = .bad 0) ∧
          (lenOk = true → pf0Ok = false → s.headerChk h op cls lenOk pf0Ok = .viol op false true) ∧
          (lenOk = true → pf0Ok = true → s.headerChk h op cls lenOk pf0Ok = .pass))))

/-- A reply enters its pair's completion queue behind what waits there, BAD_PACKET and VIOLATION count in BAD; an OK reply of a QUIET packet is
suppressed, and a pair whose EN is 0 counts the reply as discarded (R289, R291, R292). A final reply changes nothing but its function's
pairs and those two counts. -/
def Obligations.RepliesEnterTheirRing : Prop :=
  ∀ (s : State) (h : Hdr) (op status detail result : Nat), h.ring < 17 →
    s.ringsOnly (s.reply h op status detail result) h.fn h.ring ∧
    (s.pairOn h.fn h.ring = true → ¬(status = stOK ∧ bitOf h.flags.toNat 0 = true) →
      ((s.reply h op status detail result).pair h.fn h.ring).out =
        (s.pair h.fn h.ring).out ++ [replyOut h op status detail result true s.now] ∧
      (∀ k, k ≠ pairKey h.fn h.ring → tget {} (s.reply h op status detail result).pairs k = tget {} s.pairs k)) ∧
    (status = stBadPacket ∨ status = stViolation →
      (s.reply h op status detail result).fld (Reg.SCH_RING_STAT h.fn h.ring) Fld.SCH_RING_STAT_BAD =
        min (s.fld (Reg.SCH_RING_STAT h.fn h.ring) Fld.SCH_RING_STAT_BAD + 1) (2 ^ Fld.SCH_RING_STAT_BAD.w - 1)) ∧
    ((∀ k, (s.pair h.fn k).fence = none) → status = stOK → bitOf h.flags.toNat 0 = true →
      (s.reply h op status detail result).pair h.fn h.ring =
        { s.pair h.fn h.ring with open_ := (s.pair h.fn h.ring).open_.erase h.seq.toNat } ∧
      (s.reply h op status detail result).regs = s.regs) ∧
    ((∀ k, (s.pair h.fn k).fence = none) → status = stOK → bitOf h.flags.toNat 0 = false → s.pairOn h.fn h.ring = false →
      ((s.reply h op status detail result).pair h.fn h.ring).out = (s.pair h.fn h.ring).out ∧
      (s.reply h op status detail result).fld (Reg.SCH_FN_STAT h.fn) Fld.SCH_FN_STAT_DISCARD =
        min (s.fld (Reg.SCH_FN_STAT h.fn) Fld.SCH_FN_STAT_DISCARD + 1) (2 ^ Fld.SCH_FN_STAT_DISCARD.w - 1))

/-! ## Sessions -/

/-- SESSION_OPEN of a CLOSED context that passes its checks opens it with the fields of the packet, at position 0 with no pending token, and
replies OK (R220); nothing else changes but what goes with a change of that context. Where the context still stands in a step that a held
SESSION_CLOSE ends, the packet is held behind it (R221). SESSION_CLOSE of a context in no step: it is CLOSED with no tree, no held packet and
no starvation, its frames, under the settings in force for its placement, go to the free ring, or wait for room in it, with REASON 1, the
extents of its parked image are released, and the packet replies OK; of one in a step it is held until the retire (R192, R203, R220, R221).
No other context changes. -/
def Obligations.SessionsAreOpenedAndClosed : Prop :=
  (∀ (s : State) (h : Hdr) (p : OpenParams) (b : State) (i : Nat), b = s.takePacket h → i = p.context.toNat → s.takesD h 0x01 40 →
    firstFail (b.openChks h.fn p) = .pass →
    (b.inStep i = true ∨ (b.auxOf i).restore.isSome = true →
      exec (.sessionOpen h p) s = .next ((b.setCtx i { b.ctx i with held := (b.ctx i).held ++ [.open_ h p] }).replyHeld b h 0x01)) ∧
    (b.inStep i = false → (b.auxOf i).restore = none → (b.ctx i).st = .closed →
      ∃ u : State, exec (.sessionOpen h p) s = .next (u.replyHeld b h 0x01) ∧
        u.ctx i =
          { st := .opened, cls := p.byte8.toNat % 4, contLate := bitOf p.byte8.toNat 2, part := h.fn, placement := p.placement.toNat,
            tag := p.tag.toNat, kvBase := p.kvBase.toNat, lenMax := p.lenMax.toNat, sprof := p.sprof.toNat, seed := p.seed.toNat,
            deadline := p.deadline.toNat, pair := h.ring, timestamp := s.time } ∧
        (∀ j, j ≠ i → u.ctx j = s.ctx j) ∧
        u = { b with ctxs := u.ctxs, aux := u.aux, sched := u.sched, mem := u.mem, twin := u.twin, fabric := u.fabric, ports := u.ports } ∧
        (s.twinSt ≠ 2 → u.twin = s.twin ∧ u.fabric = s.fabric ∧ u.ports = s.ports) ∧
        ((s.cached (s.place p.placement.toNat).home).length < 16384 → u.mem = s.mem))) ∧
  (∀ (s : State) (h : Hdr) (context : BitVec 32) (b : State) (i : Nat), b = s.takePacket h → i = context.toNat → s.takesD h 0x05 8 →
    firstFail (b.chkCtx h.fn context ++ [b.chkState i [.opened, .active, .paused, .parked, .expired], b.chkHome (b.ctx i)]) = .pass →
    (b.inStep i = true →
      exec (.sessionClose h context 0) s = .next ((b.setCtx i { b.ctx i with held := (b.ctx i).held ++ [.close] }).replyHeld b h 0x05)) ∧
    (b.inStep i = false → (b.ctx i).st ≠ .closed →
      ∃ u : State, exec (.sessionClose h context 0) s = .next (u.replyHeld b h 0x05) ∧ (u.ctx i).st = .closed ∧ (u.ctx i).tree = none ∧
        (u.ctx i).held = [] ∧ (u.ctx i).starved = false ∧ (u.ctx i).timestamp = s.time ∧ (∀ j, j ≠ i → u.ctx j = s.ctx j) ∧
        (u.auxOf i).restore = none ∧ (u.auxOf i).park = none ∧ (u.auxOf i).needs = [] ∧ (u.auxOf i).kvWait = [] ∧
        ((b.ctx i).st = .parked → (b.auxOf i).restore = none → (b.auxOf i).park = none →
          ∀ e ∈ (u.part (b.ctx i).part).extents, e.1 ≠ (b.ctx i).parkExt) ∧
        (∃ n, (u.part (b.ctx i).part).returns = ((b.part (b.ctx i).part).returns ++
            ((b.asOf (b.ctx i).placement).framesOf (b.ctx i)).map fun (f : Nat × Nat) => (f.2, 1)).drop n ∧
          u.fld (Reg.KVT_FREE_IDX (b.ctx i).part) Fld.KVT_FREE_IDX_TAIL =
            (b.fld (Reg.KVT_FREE_IDX (b.ctx i).part) Fld.KVT_FREE_IDX_TAIL + n) % 2 ^ 32) ∧
        u = { b with ctxs := u.ctxs, aux := u.aux, sched := u.sched, mem := u.mem, parts := u.parts, pairs := u.pairs, regs := u.regs,
                     globalLog := u.globalLog, pcie := u.pcie, twin := u.twin, fabric := u.fabric, ports := u.ports, free := u.free }))

/-- SESSION_APPEND, SESSION_RESUME, SESSION_PAUSE and SPEC_TREE act on their context at once when it is in no step and no restore of it is in
progress, and at the retire of its step, or after the restore, when it is (R26, R203, R220, R221). A park in progress is given up, or where
its frames have been returned ended, first by the two that make the context ACTIVE, and a PARKED context is restored first (R203). APPEND queues the tokens and sets GEN_LEFT, and
DEADLINE where its flag says so; an EXPIRED context starts again at position 0; RESUME sets what its flags name; PAUSE drops the pending
tree. The completion ring becomes the packet's (R295). -/
def Obligations.SessionPacketsChangeTheirContext : Prop :=
  (∀ (s : State) (h : Hdr) (p : AppendParams) (b : State) (i : Nat) (op : HeldOp), b = (s.takePacket h).stopPark i →
    i = p.context.toNat → op = .append p.tokensVa.toNat p.count.toNat p.genLeft.toNat
      (if bitOf p.byte18.toNat 0 then some p.deadline.toNat else none) h.ring →
    s.takesD h 0x02 32 → firstFail ((s.takePacket h).appendChks h.fn p) = .pass →
    (b.inStep i = true ∨ (b.auxOf i).restore.isSome = true → ((b.ctx i).st = .parked → (b.auxOf i).restore.isSome = true) →
      exec (.sessionAppend h p) s = .next ((b.setCtx i { b.ctx i with held := (b.ctx i).held ++ [op] }).replyHeld (s.takePacket h) h 0x02)) ∧
    (b.inStep i = false → (b.auxOf i).restore = none → (b.ctx i).st ≠ .closed → (b.ctx i).st ≠ .parked →
      ∃ u : State, exec (.sessionAppend h p) s = .next (u.replyHeld (s.takePacket h) h 0x02) ∧ b.onlyContext u i ∧
        u.ctx i = { b.ctx i with
          st := .active, genLeft := p.genLeft.toNat, pair := h.ring,
          appVa := if p.count = 0 then (b.ctx i).appVa else p.tokensVa.toNat,
          appCnt := if p.count = 0 then (b.ctx i).appCnt else p.count.toNat,
          deadline := if bitOf p.byte18.toNat 0 then p.deadline.toNat else (b.ctx i).deadline,
          pos := if (b.ctx i).st = .expired then 0 else (b.ctx i).pos,
          pvalid := if (b.ctx i).st = .expired then false else (b.ctx i).pvalid,
          pending := if (b.ctx i).st = .expired then 0 else (b.ctx i).pending, timestamp := (u.ctx i).timestamp } ∧
        ((b.ctx i).st ≠ .active → (u.ctx i).timestamp = s.time)) ∧
    ((b.ctx i).st = .parked → (b.auxOf i).restore = none →
      exec (.sessionAppend h p) s = .next ((b.startRestore i (some op) none).1.replyHeld (s.takePacket h) h 0x02))) ∧
  (∀ (s : State) (h : Hdr) (p : ResumeParams) (b : State) (i : Nat) (op : HeldOp), b = (s.takePacket h).stopPark i →
    i = p.context.toNat → op = .resume (if bitOf p.byte6.toNat 1 then some p.genLeft.toNat else none)
      (if bitOf p.byte6.toNat 0 then some p.deadline.toNat else none) h.ring →
    s.takesD h 0x04 16 → firstFail ((s.takePacket h).resumeChks h.fn p) = .pass →
    (b.inStep i = true ∨ (b.auxOf i).restore.isSome = true → ((b.ctx i).st = .parked → (b.auxOf i).restore.isSome = true) →
      exec (.sessionResume h p) s = .next ((b.setCtx i { b.ctx i with held := (b.ctx i).held ++ [op] }).replyHeld (s.takePacket h) h 0x04)) ∧
    (b.inStep i = false → (b.auxOf i).restore = none → (b.ctx i).st ≠ .closed → (b.ctx i).st ≠ .parked →
      ∃ u : State, exec (.sessionResume h p) s = .next (u.replyHeld (s.takePacket h) h 0x04) ∧ b.onlyContext u i ∧
        u.ctx i = { b.ctx i with
          st := .active, pair := h.ring,
          genLeft := if bitOf p.byte6.toNat 1 then p.genLeft.toNat else (b.ctx i).genLeft,
          deadline := if bitOf p.byte6.toNat 0 then p.deadline.toNat else (b.ctx i).deadline, timestamp := (u.ctx i).timestamp } ∧
        ((b.ctx i).st ≠ .active → (u.ctx i).timestamp = s.time)) ∧
    ((b.ctx i).st = .parked → (b.auxOf i).restore = none →
      exec (.sessionResume h p) s = .next ((b.startRestore i (some op) none).1.replyHeld (s.takePacket h) h 0x04))) ∧
  (∀ (s : State) (h : Hdr) (context : BitVec 32) (b : State) (i : Nat), b = s.takePacket h → i = context.toNat → s.takesD h 0x03 8 →
    firstFail (b.chkCtx h.fn context ++ [b.chkState i [.active], b.chkHome (b.ctx i)]) = .pass →
    (b.inStep i = true ∨ (b.auxOf i).restore.isSome = true →
      exec (.sessionPause h context 0) s = .next ((b.setCtx i { b.ctx i with held := (b.ctx i).held ++ [.pause] }).replyHeld b h 0x03)) ∧
    (b.inStep i = false → (b.auxOf i).restore = none → (b.ctx i).st = .active →
      ∃ u : State, exec (.sessionPause h context 0) s = .next (u.replyHeld b h 0x03) ∧ b.onlyContext u i ∧
        u.ctx i = { b.ctx i with st := .paused, tree := none, timestamp := s.time })) ∧
  ∀ (s : State) (h : Hdr) (context : BitVec 32) (n : BitVec 8) (va : BitVec 64) (b : State) (i : Nat) (bs : List Byte) (t : List Node),
    b = s.takePacket h → i = context.toNat → s.takesD h 0x06 16 →
    firstFail (b.chkCtx h.fn context ++ [b.chkState i [.active, .paused], b.chkHome (b.viewCtx i)]) = .pass →
    1 ≤ n.toNat → n.toNat ≤ 64 → va.toNat % 8 = 0 → va.toNat < 2 ^ 44 → (b.imgOf (b.viewCtx i)).shardCnt ≤ 1 →
    (b.viewCtx i).appCnt = 0 → (b.viewCtx i).pvalid = true → b.rdVa h.fn va.toNat (8 * n.toNat) = .inl bs →
    (chunksOf 8 bs.length bs).map nodeOf = t.map some → treeOk t (b.imgOf (b.viewCtx i)).vocab = true →
    (b.viewCtx i).pos + treeDepth t < (b.viewCtx i).lenMax → b.treesHeld (b.homeOf (b.viewCtx i)) i < 4096 →
    (b.inStep i = true ∨ (b.auxOf i).restore.isSome = true →
      exec (.specTree h context n 0 va) s =
        .next ((b.setCtx i { b.ctx i with held := (b.ctx i).held ++ [.tree t] }).replyHeld b h 0x06)) ∧
    (b.inStep i = false → (b.auxOf i).restore = none → (b.ctx i).st ≠ .closed →
      ∃ u : State, exec (.specTree h context n 0 va) s = .next (u.replyHeld b h 0x06) ∧ b.onlyContext u i ∧
        u.ctx i = { b.ctx i with tree := some t, timestamp := (u.ctx i).timestamp })

/-- KV_PARK of a PAUSED context, in no step and with no park of it in progress, allocates the first free run of 64 KiB extents of the
partition's Scree region that holds the image and owes its reply to the end of the park; with no free run PARK_NOSPACE counts and the reply
is NO_RESOURCE (R201, R202); in a step, or while the context is restored, the packet is held (R203, R221). KV_RESTORE of a context that is
being parked gives the park up and replies OK; of a PARKED one, or of one whose park has returned its frames, it starts the restore, whose
reply comes at its end, at a stall of its pops, or as a VIOLATION with the address in RESULT where a page has no level-1 entry (R187, R203,
R512). -/
def Obligations.ParksAndRestoresBegin : Prop :=
  ∀ (s : State) (h : Hdr) (context : BitVec 32) (b : State) (i : Nat), b = s.takePacket h → i = context.toNat →
    (s.takesD h 0x0C 8 → firstFail (b.chkCtx h.fn context ++ [b.chkState i [.paused], b.chkHome (b.ctx i)]) = .pass →
      (b.inStep i = true ∨ (b.auxOf i).restore.isSome = true →
        exec (.kvPark h context 0) s = .next (b.setCtx i { b.ctx i with held := (b.ctx i).held ++ [.park h] })) ∧
      (b.inStep i = false → (b.auxOf i).restore = none → (b.auxOf i).park = none → (b.ctx i).st = .paused →
        (∀ e, firstFit ((b.part (b.ctx i).part).screeBytes / 65536) (ceilDiv (parkBytes (b.imgOf (b.ctx i)) (b.ctx i) (b.auxOf i).npx) 65536)
            (b.part (b.ctx i).part).extents = some e →
          ∃ t, exec (.kvPark h context 0) s = .next t ∧
            (t.auxOf i).park = some { extent := e, bytes := parkBytes (b.imgOf (b.ctx i)) (b.ctx i) (b.auxOf i).npx, reply := some (h, 0x0C) } ∧
            (t.part (b.ctx i).part).extents = (b.part (b.ctx i).part).extents ++
              [(e, ceilDiv (parkBytes (b.imgOf (b.ctx i)) (b.ctx i) (b.auxOf i).npx) 65536)] ∧
            (∀ j, j ≠ i → t.auxOf j = b.auxOf j) ∧ (∀ q, q ≠ (b.ctx i).part → t.part q = b.part q) ∧
            t = { b with parts := t.parts, aux := t.aux }) ∧
        (firstFit ((b.part (b.ctx i).part).screeBytes / 65536) (ceilDiv (parkBytes (b.imgOf (b.ctx i)) (b.ctx i) (b.auxOf i).npx) 65536)
            (b.part (b.ctx i).part).extents = none →
          exec (.kvPark h context 0) s =
            .next ((b.bump (Reg.KVT_PART_CNT (b.ctx i).part) Fld.KVT_PART_CNT_PARK_NOSPACE).reply h 0x0C stNoResource 0 0)))) ∧
    (s.takesD h 0x0D 8 → firstFail (b.chkCtx h.fn context ++ [chkSt ((b.viewCtx i).st != .expired) stExpired, b.chkHome (b.ctx i)]) = .pass →
      ((b.auxOf i).park.isSome = true → (b.ctx i).st = .paused → b.parkFreed i = false →
        ∃ u : State, exec (.kvRestore h context 0) s = .next (u.reply h 0x0D stOK 0 0) ∧ (u.auxOf i).park = none ∧
          u.ctx i = { b.ctx i with timestamp := s.time } ∧ (∀ j, j ≠ i → u.ctx j = b.ctx j) ∧
          ((b.cached (b.homeOf (b.ctx i))).length < 16384 → u.mem = s.mem) ∧
          u = { b with ctxs := u.ctxs, aux := u.aux, sched := u.sched, mem := u.mem, parts := u.parts, pairs := u.pairs, regs := u.regs }) ∧
      ((b.parkFreed i = true ∨ (b.auxOf i).park = none ∧ (b.viewCtx i).st = .parked) →
        (∀ v, (b.stopPark i).startRestore i none (some (h, 0x0D)) = (v, .ok) →
          exec (.kvRestore h context 0) s = .next v ∧ ∃ m, (v.auxOf i).restore = some m ∧ m.ready = true ∧ m.reply = some (h, 0x0D)) ∧
        (∀ v left, (b.stopPark i).startRestore i none (some (h, 0x0D)) = (v, .starved left) →
          ∃ u : State, exec (.kvRestore h context 0) s = .next (u.reply h 0x0D stStarved 0 0) ∧
            u = v.setAux i { v.auxOf i with restore := (v.auxOf i).restore.map fun m => { m with reply := none } }) ∧
        ∀ v va, (b.stopPark i).startRestore i none (some (h, 0x0D)) = (v, .noTable va) →
          exec (.kvRestore h context 0) s = .next (v.reply h 0x0D stViolation 0 (va % 2 ^ 48))))

/-- CAIRN replies OK at once when every placement it names is between steps, no packet that changes a setting of its partition waits for CP
and no swap of a model of those placements is in progress; otherwise its reply waits for those steps, packets and swaps, and it changes
nothing else (R226, R227). FENCE holds its ring until every packet accepted before it on the rings of its MASK has had its final
reply; where they all have, it completes at once (R299). RIDGE records its window for the quadrants of the placement and counts while PTP
is ALIVE, and counts as ignored while it is not (R433). -/
def Obligations.OrderingPacketsWaitOrReply : Prop :=
  (∀ (s : State) (h : Hdr) (placement : BitVec 16) (b : State) (named : List Nat), b = s.takePacket h →
    named = (if placement.toNat = 0xFFFF then b.placesOf h.fn else [placement.toNat]) → s.takesD h 0x08 8 →
    firstFail (if placement.toNat = 0xFFFF then [] else b.chkPlace h.fn placement.toNat 0) = .pass →
    ((∀ l ∈ named, (s.place l).step = none) → (∀ x ∈ (s.proc 0).queue, setsPart h.fn x = false) →
      (∀ k ∈ s.swapsOf named, s.longOf k = none) → exec (.cairn h placement 0) s = .next (b.reply h 0x08 stOK 0 0)) ∧
    ((∃ l ∈ named, (s.place l).step.isSome = true) ∨ (∃ x ∈ (s.proc 0).queue, setsPart h.fn x = true) ∨
        (∃ k ∈ s.swapsOf named, (s.longOf k).isSome = true) →
      exec (.cairn h placement 0) s = .next (b.setPair h.fn h.ring { b.pair h.fn h.ring with cairns := (b.pair h.fn h.ring).cairns ++
        [{ h := h, named := named, wait := s.busyPlaces named, queued := (s.proc 0).queue.any (setsPart h.fn), ops := s.swapsOf named }] }))) ∧
  (∀ (s : State) (h : Hdr) (mask : BitVec 32) (b : State), b = s.takePacket h → s.takesD h 0x0A 8 → mask ≠ 0 → mask.toNat < 2 ^ 17 →
    (∀ k, k ≠ h.ring → (s.pair h.fn k).fence = none) →
    ((∀ r, r < 17 → bitOf mask.toNat r = true → r ≠ h.ring → (s.pair h.fn r).open_ = []) →
      (bitOf mask.toNat h.ring = true → (s.pair h.fn h.ring).open_ = []) → bitOf h.flags.toNat 0 = false →
      exec (.fence h mask 0) s = .next (b.post h.fn h.ring (replyOut h 0x0A stOK 0 0 true 0))) ∧
    (∀ r q, r < 17 → bitOf mask.toNat r = true → r ≠ h.ring → q ∈ (s.pair h.fn r).open_ →
      ∃ t, exec (.fence h mask 0) s = .next t ∧ (∃ w, (t.pair h.fn h.ring).fence = some (h, s.now, w)) ∧
        (t.pair h.fn h.ring).out = (s.pair h.fn h.ring).out ∧ (∀ k, k ≠ pairKey h.fn h.ring → tget {} t.pairs k = tget {} s.pairs k) ∧
        t = { b with pairs := t.pairs } ∧ ∀ g, g.fn = h.fn → g.ring = h.ring → t.fetchable g = false)) ∧
  ∀ (s : State) (h : Hdr) (placement lead load duration : BitVec 16) (b : State), b = s.takePacket h → s.takesD h 0x09 8 →
    firstFail (b.chkPlace h.fn placement.toNat 0) = .pass → 1 ≤ lead.toNat → lead.toNat ≤ 100 → duration ≠ 0 →
    (b.alive 1 = true →
      ∃ u : State, exec (.ridge h placement lead load duration) s = .next (u.freshBoost.reply h 0x09 stOK 0 0) ∧
        u = { b with regs := u.regs, power := { b.power with windows := b.power.windows ++
          [⟨((b.place placement.toNat).cfg.tiles.map (· / 256)).eraseDups, s.now + 1000 * (lead.toNat - 20), s.now + 1000 * lead.toNat,
            s.now + 1000 * (lead.toNat + duration.toNat), load.toNat⟩] } } ∧
        b.fieldsBut u [(Reg.POW_CNT, Fld.POW_CNT_RIDGE)] ∧
        u.fld Reg.POW_CNT Fld.POW_CNT_RIDGE = min (b.fld Reg.POW_CNT Fld.POW_CNT_RIDGE + 1) (2 ^ Fld.POW_CNT_RIDGE.w - 1)) ∧
    (b.alive 1 = false →
      exec (.ridge h placement lead load duration) s = .next ((b.bump Reg.POW_CNT Fld.POW_CNT_RIDGE_IGN).reply h 0x09 stOK 0 0))

/-- No D-class packet of a partition reaches what is another's: contexts outside its context range keep their descriptors, ring pairs of
other functions keep their queues, and device memory outside its windows, those now set and those in force for
the step of the context's placement, and the context table keeps its bytes (R217, R291, R523). The
premises say that the context the packet names, where it is not CLOSED, is the partition's and completes on one of its function's pairs, that
a KV_PARK it still owes a reply is the partition's, and that the context cache holds contexts of the table only. -/
def Obligations.PacketsDoNotReachOtherPartitions : Prop :=
  ∀ (c : Instr) (h : Hdr) (op len : Nat) (s t : State), dForm c = some (h, op, len) → h.fn ≠ 0 → exec c s = .next t →
    (∀ i, ctxNamed c = some i → ((s.ctx i).st = .closed ∨ (s.ctx i).part = h.fn) ∧ (s.ctx i).pair < 32 ∧
      ∀ m g o, (s.auxOf i).park = some m → m.reply = some (g, o) → g.fn = h.fn ∧ g.ring < 32) →
    (∀ x ∈ s.aux, x.1 < 2 ^ 22) →
    (∀ i, ¬(s.fld (Reg.SCH_CTX_RANGE h.fn) Fld.SCH_CTX_RANGE_FIRST ≤ i ∧ i < s.fld (Reg.SCH_CTX_RANGE h.fn) Fld.SCH_CTX_RANGE_FIRST +
        s.fld (Reg.SCH_CTX_RANGE h.fn) Fld.SCH_CTX_RANGE_COUNT) → t.ctx i = s.ctx i) ∧
    (∀ k, k / 32 ≠ h.fn → tget {} t.pairs k = tget {} s.pairs k) ∧
    ∀ boot key a, inside (s.windows h.fn) a 1 = false →
      (∀ i, ctxNamed c = some i → inside ((s.asOf (s.ctx i).placement).windows h.fn) a 1 = false) →
      ¬(s.fld Reg.SCH_CTX_TBL Fld.SCH_CTX_TBL_BASE * 2 ^ 28 ≤ a ∧ a < (s.fld Reg.SCH_CTX_TBL Fld.SCH_CTX_TBL_BASE + 1) * 2 ^ 28) →
      t.mem.readByte boot key a = s.mem.readByte boot key a

/-! ## C-class packets: partitions -/

/-- A C-class packet of ring 0 that passes the checks of R291 is started by the processor of R303. Before READY, and in recovery, packets that
the stage does not serve are DEFERRED (R473, R554). While its processor is not ALIVE a packet joins that processor's queue and QUEUED
counts it (R476); a packet whose queue is full, and every packet while an activation waits for its cairn, stays on its ring (R476, R485). -/
def Obligations.ControlPacketsReachTheirProcessor : Prop :=
  ∀ (c : Instr) (h : Hdr) (p : CPacket) (s : State), cForm c = some (h, p) →
    (s.passedOver p = true → exec c s = .next s) ∧
    (s.takesPacket h p.opcode true (p.lenOk h.length.toNat) (!p.pf0 || h.fn == 0) → s.passedOver p = false →
      (s.stageServes p = false → exec c s = .next ((s.takePacket h).reply h p.opcode stDeferred 0 0)) ∧
      (s.stageServes p = true → (s.recovery = true ∨ s.alive p.proc = true) → exec c s = .next ((s.served h p).serve h p)) ∧
      (s.stageServes p = true → s.recovery = false → s.alive p.proc = false →
        ∃ t, exec c s = .next t ∧ (t.proc p.proc).queue = (s.proc p.proc).queue ++ [(h, p)] ∧
          t.fld (Reg.FWP_PROC p.proc) Fld.FWP_PROC_QUEUED = ((s.proc p.proc).queue.length + 1) % 256 ∧
          (∀ k, k ≠ p.proc → t.proc k = s.proc k) ∧ t = { s.takePacket h with procs := t.procs, regs := t.regs } ∧
          (s.takePacket h).fieldsBut t [(Reg.FWP_PROC p.proc, Fld.FWP_PROC_QUEUED)]))

/-- PART_CREATE gives the partition its ring area, cleared to zero, its MMU root and a fresh key that nobody knows, and makes it exist (R520,
R526). PART_DESTROY begins a long operation of six steps (R521); a re-issued one goes on from the first step not done. The six steps of a PART_DESTROY (R521), each a slice that the service
arbiter of its processor grants: its placements go at their cairns; its contexts are CLOSED, its models
and parked images go; its tiles are assigned to it no more; its windows, rings and ranges read as after reset; its key is gone; its ring pairs
and its ring area are as after reset and it exists no more, with the final OK. Until its placements have gone the first step is not done. -/
def Obligations.PartitionsAreCreatedAndDestroyed : Prop :=
  ((∀ (s : State) (h : Hdr) (part : BitVec 8) (ringArea root : BitVec 64) (b : State) (p a : Nat), b = s.served h (.partCreate part 0 ringArea root) → p = part.toNat →
    a = ringArea.toNat → s.takesC h (.partCreate part 0 ringArea root) → 1 ≤ p → p < 64 → b.partExists p = false → a % 2 ^ 26 = 0 →
    a + 2 ^ 26 ≤ memEnd →
    hitsAny a (2 ^ 26) ((List.range 64).flatMap b.windows ++ b.reservedRanges) = false →
    bitsOf root.toNat 1 16 = 0 → bitsOf root.toNat 42 22 = 0 → b.secError = false → b.pcie.vfEnable = true → p ≤ b.pcie.numVfs →
    ∃ u : State, exec (.partCreate h part 0 ringArea root) s = .next (u.reply h 0x40 stOK 0 0) ∧ u.partExists p = true ∧
      u.fld (Reg.SCH_RING_AREA p) Fld.SCH_RING_AREA_BASE = a / 2 ^ 26 ∧ u.reg (Reg.MMU_ROOT p) = root ∧ u.reg (Reg.MMU_INV p) = 0 ∧
      u.keyOf p = b.sec.nextKey ∧ (∀ q, q ≠ p → u.keyOf q = b.keyOf q) ∧ u.sec.nextKey = b.sec.nextKey + 1 ∧
      u.fld (Reg.SEC_PART p) Fld.SEC_PART_KEY_GEN = (b.fld (Reg.SEC_PART p) Fld.SEC_PART_KEY_GEN + 1) % 256 ∧
      u.fld (Reg.SEC_PART p) Fld.SEC_PART_KEY_SRC = 0 ∧ u.part p = {} ∧ (∀ q, q ≠ p → u.part q = b.part q) ∧
      (∀ x, a ≤ x → x < a + 2 ^ 26 → u.mem.readByte u.clk.count none x = 0) ∧ b.sameMemoryBut u [(a, 2 ^ 26)] ∧
      b.fieldsBut u [(Reg.SCH_RING_AREA p, Fld.SCH_RING_AREA_BASE), (Reg.MMU_ROOT p, wholeReg), (Reg.MMU_INV p, wholeReg), (Reg.SEC_PART p, Fld.SEC_PART_EXISTS),
        (Reg.SEC_PART p, Fld.SEC_PART_KEY_GEN), (Reg.SEC_PART p, Fld.SEC_PART_KEY_SRC)] ∧
      u = { b with regs := u.regs, mem := u.mem, parts := u.parts, sec := u.sec }) ∧
  ∀ (s : State) (h : Hdr) (part byte1 : BitVec 8) (b : State) (p : Nat), b = s.served h (.partDestroy part byte1 0) → p = part.toNat →
    s.takesC h (.partDestroy part byte1 0) → 1 ≤ p → p < 64 → b.partExists p = true → byte1.toNat < 2 →
    b.flag Reg.SEC_STAT Fld.SEC_STAT_CO_SESSION = true → (byte1 = 1 ∨ b.holds p = false) → b.destroying p = false →
    s.startsLong b (.partDestroy h part byte1 0) h (.partDestroy part byte1 0) 6 (b.part p).destroyStep [] fun t =>
      t = { b with regs := t.regs, pairs := t.pairs, longOps := t.longOps, sched := { b.sched with longSeq := b.sched.longSeq + 1 } }) ∧
  (∀ (s : State) (seq amount at_ p : Nat) (o : LongOp) (part byte1 : BitVec 8) (rsv : BitVec 48) (b : State),
    (s.tick at_).sliceGranted 0 seq o → b = (s.tick at_).slicing 0 o → o.pkt = .partDestroy part byte1 rsv → p = part.toNat → 1 ≤ p → p < 64 → o.h.ring = 0 → o.total = 6 →
    (o.done = 0 → b.placesOf p ≠ [] → (∀ l ∈ b.placesOf p, (b.place l).step.isSome = true) →
      ∃ t, exec (.longOperationSlice 0 seq amount at_) s = .next t ∧ (∀ l ∈ b.placesOf p, t.place l = { b.place l with removing := true }) ∧
        t = { b with places := t.places }) ∧
    (o.done ≤ 5 → (o.done = 0 → b.placesOf p = []) → ∃ t, exec (.longOperationSlice 0 seq amount at_) s = .next t ∧
      (o.done ≤ 4 → (t.part p).destroyStep = o.done + 1 ∧ ∀ x ∈ t.longOps, x.id = o.id → x.done = o.done + 1) ∧
      (o.done = 1 → (∀ i ∈ b.ctxsOfPart p, (t.ctx i).st = .closed) ∧ (∀ m, (t.model m).part = p → (t.model m).st = .absent) ∧
        (t.part p).extents = []) ∧
      (o.done = 2 → ∀ k, k < 1024 → (t.tileOwners k).contains p = false) ∧
      (o.done = 3 → t.windows p = [] ∧ t.reg (Reg.MMU_ROOT p) = 0 ∧ t.reg (Reg.SCH_CTX_RANGE p) = 0 ∧ t.reg (Reg.SCH_ID_RANGE p) = 0 ∧
        t.reg (Reg.SCH_BKT_RANGE p) = 0 ∧ t.resHeld p = 0 ∧ t.reg (Reg.SMP_PROF_TBL p) = 0) ∧
      (o.done = 4 → t.keyOf p = b.sec.nextKey ∧ t.sec.nextKey = b.sec.nextKey + 1 ∧ ∀ q, q ≠ p → t.keyOf q = b.keyOf q) ∧
      (o.done = 5 → ∃ u : State, t = u.reply o.h 0x41 stOK 0 0 ∧ u.partExists p = false ∧ u.part p = {} ∧ u.longOf o.id = none ∧
        u.ringArea p = (0, 0) ∧ u.reg (Reg.SCH_RING_AREA p) = 0 ∧ ∀ r, r < 17 → u.pair p r = {} ∧ u.pairOn p r = false)))

/-- PART_SET checks and applies its items in order, each against what the earlier ones leave, first that it fits the packet, and applies every
one, or none where one fails (R306): the packet's reply is that of the first failing check with the state as the fetch left it, or OK with
every item applied; then the placements with no step in flight take the settings at once, the others at their cairns (R226). -/
def Obligations.PartSetAppliesEveryItemOrNone : Prop :=
  ∀ (c : Instr) (h : Hdr) (ps : PsHead) (items : List PsItem) (s b : State) (p : Nat), cForm c = some (h, .partSet ps items) →
    s.takesC h (.partSet ps items) → b = s.served h (.partSet ps items) → p = ps.target.toNat → p < 64 → (h.fn = 0 → b.partExists p = true) →
    (h.fn = 0 ∨ p = h.fn) → 1 ≤ ps.nItems.toNat → ps.nItems.toNat ≤ 14 → ps.rsv = 0 →
    (∀ u, State.runItems h.fn p h.length.toNat ps.nItems.toNat 8 items ps.pads b = .inl u →
      ps.nItems.toNat ≤ items.length ∧ u = (items.take ps.nItems.toNat).foldl (fun s i => s.applyItem p i) b ∧
      ((∃ l ∈ (u.idleCairns p).placesOf p, ((u.idleCairns p).place l).step.isSome = true) →
        exec c s = .next ((u.idleCairns p).reply h 0x42 stOK 0 0)) ∧
      ((∀ l ∈ (u.idleCairns p).placesOf p, ((u.idleCairns p).place l).step = none) →
        exec c s = .next (((u.idleCairns p).freeRun p).reply h 0x42 stOK 0 0))) ∧
    ∀ k, State.runItems h.fn p h.length.toNat ps.nItems.toNat 8 items ps.pads b = .inr k → k ≠ .pass ∧ exec c s = .next (b.fail h 0x42 k)

/-- What each item of PART_SET sets (R306): the escape thresholds (R72), the aging limits (R233), the ID ranges (R218), the rings of the reservoir and
of free frames (R188, R192), the scratch frames (R200), the Scree region and its times (R201, R204), the sampling profiles (R239), the MMU root (R179),
a window (R522), the IDs of models and placements (R218). Each changes the registers named and, SCREE, the region kept beside them. -/
def Obligations.PartSetItemsSetTheirRegisters : Prop :=
  ∀ (s : State) (p : Nat) (len : BitVec 16) (rsv : BitVec 32), p < 64 →
    (∀ sat zro : BitVec 16, s.applyItem p (.esc len rsv sat zro) = { s with regs := (s.applyItem p (.esc len rsv sat zro)).regs } ∧
      (s.applyItem p (.esc len rsv sat zro)).fld (Reg.MDT_ESC_THR p) Fld.MDT_ESC_THR_ESC_SAT = sat.toNat ∧
      (s.applyItem p (.esc len rsv sat zro)).fld (Reg.MDT_ESC_THR p) Fld.MDT_ESC_THR_ESC_ZRO = zro.toNat ∧
      s.fieldsBut (s.applyItem p (.esc len rsv sat zro)) [(Reg.MDT_ESC_THR p, wholeReg)]) ∧
    (∀ (steps r1 : BitVec 8) (time : BitVec 16) (t : State), t = s.applyItem p (.age len rsv steps r1 time) → t = { s with regs := t.regs } ∧
      t.fld (Reg.SCH_AGE_CFG p) Fld.SCH_AGE_CFG_STARVE_STEPS = steps.toNat ∧ t.fld (Reg.SCH_AGE_CFG p) Fld.SCH_AGE_CFG_STARVE_TIME = time.toNat ∧
      s.fieldsBut t [(Reg.SCH_AGE_CFG p, wholeReg)]) ∧
    (∀ (cf cc : BitVec 32) (tf tc : BitVec 16) (t : State), t = s.applyItem p (.ranges len rsv cf cc tf tc) → t = { s with regs := t.regs } ∧
      t.fld (Reg.SCH_CTX_RANGE p) Fld.SCH_CTX_RANGE_FIRST = cf.toNat % 2 ^ 22 ∧
      t.fld (Reg.SCH_CTX_RANGE p) Fld.SCH_CTX_RANGE_COUNT = cc.toNat % 2 ^ 23 ∧
      t.fld (Reg.SCH_BKT_RANGE p) Fld.SCH_BKT_RANGE_FIRST = tf.toNat ∧ t.fld (Reg.SCH_BKT_RANGE p) Fld.SCH_BKT_RANGE_COUNT = tc.toNat ∧
      s.fieldsBut t [(Reg.SCH_CTX_RANGE p, wholeReg), (Reg.SCH_BKT_RANGE p, wholeReg)]) ∧
    (∀ (v : BitVec 64) (t : State), t = s.applyItem p (.resRing len rsv v) → t = { s with regs := t.regs } ∧ t.reg (Reg.KVT_RES_RING p) = v ∧
      s.fieldsBut t [(Reg.KVT_RES_RING p, wholeReg)]) ∧
    (∀ (v : BitVec 64) (t : State), t = s.applyItem p (.freeRing len rsv v) → t = { s with regs := t.regs } ∧ t.reg (Reg.KVT_FREE_RING p) = v ∧
      s.fieldsBut t [(Reg.KVT_FREE_RING p, wholeReg)]) ∧
    (∀ (n : BitVec 16) (t : State), t = s.applyItem p (.scratch len rsv n) → t = { s with regs := t.regs } ∧
      t.fld (Reg.KVT_RES_CFG p) Fld.KVT_RES_CFG_SCRATCH = n.toNat ∧ s.fieldsBut t [(Reg.KVT_RES_CFG p, Fld.KVT_RES_CFG_SCRATCH)]) ∧
    (∀ (pa ttl : BitVec 16) (base bytes : BitVec 64) (t : State), t = s.applyItem p (.scree len rsv pa ttl base bytes) →
      t = { s with regs := t.regs, parts := t.parts } ∧ t.part p = { s.part p with screeBase := base.toNat, screeBytes := bytes.toNat } ∧
      (∀ q, q ≠ p → t.part q = s.part q) ∧ t.fld (Reg.KVT_SCREE_CFG p) Fld.KVT_SCREE_CFG_PARK_AFTER = pa.toNat % 4096 ∧
      t.fld (Reg.KVT_SCREE_CFG p) Fld.KVT_SCREE_CFG_TTL = ttl.toNat % 4096 ∧
      t.flag (Reg.KVT_SCREE_CFG p) Fld.KVT_SCREE_CFG_PARK_OFF = (bytes == 0) ∧ s.fieldsBut t [(Reg.KVT_SCREE_CFG p, wholeReg)]) ∧
    (∀ (v : BitVec 64) (t : State), t = s.applyItem p (.profiles len rsv v) → t = { s with regs := t.regs } ∧ t.reg (Reg.SMP_PROF_TBL p) = v ∧
      s.fieldsBut t [(Reg.SMP_PROF_TBL p, wholeReg)]) ∧
    (∀ (v : BitVec 64) (t : State), t = s.applyItem p (.mmuRoot len rsv v) → t = { s with regs := t.regs } ∧ t.reg (Reg.MMU_ROOT p) = v ∧
      s.fieldsBut t [(Reg.MMU_ROOT p, wholeReg)]) ∧
    (∀ (i : BitVec 8) (r1 : BitVec 56) (base bytes : BitVec 64) (t : State), t = s.applyItem p (.window len rsv i r1 base bytes) → i.toNat < 8 →
      base.toNat % 2 ^ 21 = 0 → bytes.toNat % 2 ^ 21 = 0 → base.toNat < memEnd → base.toNat + bytes.toNat ≤ memEnd →
      t = { s with regs := t.regs } ∧ t.window (8 * p + i.toNat) = (if bytes = 0 then (0, 0) else (base.toNat, bytes.toNat)) ∧
        s.fieldsBut t [(Reg.SEC_WIN (8 * p + i.toNat), wholeReg)]) ∧
    ∀ (mf mc pf pc : BitVec 16) (t : State), t = s.applyItem p (.ids len rsv mf mc pf pc) → t = { s with regs := t.regs } ∧
      t.fld (Reg.SCH_ID_RANGE p) Fld.SCH_ID_RANGE_MODEL_FIRST = mf.toNat % 2 ^ 12 ∧
      t.fld (Reg.SCH_ID_RANGE p) Fld.SCH_ID_RANGE_MODEL_COUNT = mc.toNat % 2 ^ 13 ∧
      t.fld (Reg.SCH_ID_RANGE p) Fld.SCH_ID_RANGE_PLACE_FIRST = pf.toNat % 2 ^ 10 ∧
      t.fld (Reg.SCH_ID_RANGE p) Fld.SCH_ID_RANGE_PLACE_COUNT = pc.toNat % 2 ^ 11 ∧ s.fieldsBut t [(Reg.SCH_ID_RANGE p, wholeReg)]

/-- The BUCKETS item writes RATE and BURST of each bucket it names to the bucket table (R236); the TILES item assigns each tile it names to the
partition alone, time-sliced, or not at all, and SEC.PART counts the partition's tiles (R524, R541). -/
def Obligations.PartSetAssignsBucketsAndTiles : Prop :=
  ∀ (s : State) (p : Nat) (len f n : BitVec 16) (rsv : BitVec 32), p < 64 →
    (∀ (refill burst : BitVec 32) (t : State), t = s.applyItem p (.buckets len rsv f n refill burst) →
      t = { s with mem := t.mem, sched := { s.sched with bkts := (f.toNat, n.toNat, refill.toNat, burst.toNat) :: s.sched.bkts } } ∧
      (∀ k, k < n.toNat → t.rdMem 0 (s.bktAddr (f.toNat + k) + 4) 8 = leBytes 4 refill.toNat ++ leBytes 4 burst.toNat) ∧
      ∀ a, (∀ k, k < n.toNat → ¬(s.bktAddr (f.toNat + k) + 4 ≤ a ∧ a < s.bktAddr (f.toNat + k) + 12)) →
        (tget 0 s.mem.keys (a / 256) = 0 ∨ tget 0 s.mem.keys (a / 256) = s.keyOf 0 + 1) → t.rdMem 0 a 1 = s.rdMem 0 a 1) ∧
    ∀ (mode : BitVec 8) (r5 : BitVec 24) (t : State), t = s.applyItem p (.tiles len rsv f n mode r5) → mode.toNat ≤ 2 →
      f.toNat + n.toNat ≤ 1024 →
      (∀ k, f.toNat ≤ k → k < f.toNat + n.toNat →
        (mode = 0 → (t.tileOwners k).contains p = false) ∧ (mode = 1 → t.tileMode k = 1 ∧ t.tileOwners k = [p]) ∧
        (mode = 2 → t.tileMode k = 2 ∧ (t.tileOwners k).contains p = true)) ∧
      (∀ k, k < 1024 → ¬(f.toNat ≤ k ∧ k < f.toNat + n.toNat) → t.tileMode k = s.tileMode k ∧ t.tileOwners k = s.tileOwners k) ∧
      t.fld (Reg.SEC_PART p) Fld.SEC_PART_EXCL =
        ((List.range 1024).filter fun k => t.tileMode k == 1 && (t.tileOwners k).contains p).length ∧
      t.fld (Reg.SEC_PART p) Fld.SEC_PART_SLICED =
        ((List.range 1024).filter fun k => t.tileMode k == 2 && (t.tileOwners k).contains p).length ∧
      (∀ k, t.place k = s.place k) ∧ (∀ k, t.ctx k = s.ctx k) ∧ (∀ k, t.model k = s.model k)

/-! ## C-class packets: models, placements, keys -/

/-- MODEL_LOAD that passes its checks begins a long operation and its model is LOADING; MODEL_SWAP begins one and its model is SWAPPING with its
old image still in force (R261, R272, R273). A load or swap of a chain also gets its record, and a head sends the opening messages (R263).
MODEL_UNLOAD without placements of its model removes the model and replies OK; with FORCE and placements in a step the model is
UNLOADING until the last of them is gone (R279). PLACE records the settings that its placement takes at its cairn, which for a placement in
no step is now, and replies with the address of its statistics table, which no rule fixes (R64, R269, R305; log entry 2); with TILE_COUNT 0
the placement is removed. -/
def Obligations.ModelPacketsBegin : Prop :=
  (∀ (s : State) (h : Hdr) (q : LoadParams) (image : List Byte) (b : State) (m : Nat), b = s.served h (.modelLoad q image) → m = q.modelId.toNat →
    s.takesC h (.modelLoad q image) →
    firstFail (b.chkModel h.fn m 0 ++ [chkForm ((b.model m).st == .absent) 0] ++ b.srcChks h.fn q false) = .pass →
    ∃ total, (q.source ≠ 1 ∨ b.fabric.openings = [] → total = b.srcTotal q) ∧
      s.startsLong b (.modelLoad h q image) h (.modelLoad q image) total 0 [] fun t =>
        t.model m = { st := .loading, part := h.fn, dest := q.destVa.toNat } ∧ (∀ k, k ≠ m → t.model k = b.model k) ∧
        (q.source ≠ 1 → q.nMembers = 0 → t.fabric = b.fabric ∧ t.ports = b.ports) ∧
        (q.source = 1 ∨ q.nMembers ≠ 0 → ∃ c ∈ t.fabric.chains, c.fn = h.fn ∧ c.op = b.sched.longSeq ∧ c.model = m ∧
          c.tag = q.chainTag.toNat ∧ c.head = (if q.source = 1 then q.head.toNat else b.myId) ∧
          (q.source ≠ 1 → c.members = (q.members.take q.nMembers.toNat).map BitVec.toNat) ∧ c.answered = []) ∧
        t = { b with
          regs := t.regs, pairs := t.pairs, longOps := t.longOps, models := t.models, fabric := t.fabric, ports := t.ports,
          sched := { b.sched with longSeq := b.sched.longSeq + 1 } }) ∧
  (∀ (s : State) (h : Hdr) (q : LoadParams) (image : List Byte) (b : State) (m : Nat), b = s.served h (.modelSwap q image) → m = q.modelId.toNat →
    s.takesC h (.modelSwap q image) →
    firstFail (b.chkModel h.fn m 0 ++ [chkForm ((b.model m).st != .absent && (b.model m).part == h.fn) 0,
      chkSt (!(b.model m).st.busy) stDeferred] ++ b.srcChks h.fn q true) = .pass →
    s.startsLong b (.modelSwap h q image) h (.modelSwap q image) (max 1 (b.model m).img.layers.length) 0 [] fun t =>
      t.model m = { b.model m with st := .swapping, swap := some { img := {}, srcModel := if q.source = 2 then some q.src.toNat else none,
                                                                   was := (b.model m).st, op := b.sched.longSeq } } ∧
      (∀ k, k ≠ m → t.model k = b.model k) ∧
      t = { b with
        regs := t.regs, pairs := t.pairs, longOps := t.longOps, models := t.models, fabric := t.fabric, ports := t.ports,
        sched := { b.sched with longSeq := b.sched.longSeq + 1 } }) ∧
  (∀ (s : State) (h : Hdr) (modelId : BitVec 16) (byte2 : BitVec 8) (b : State) (m : Nat), b = s.served h (.modelUnload modelId byte2 0) → m = modelId.toNat →
    s.takesC h (.modelUnload modelId byte2 0) → firstFail (b.chkModel h.fn m 0) = .pass → (b.model m).st ≠ .absent →
    (b.model m).part = h.fn → (b.model m).st.busy = false → b.isSource m = false → byte2.toNat < 2 →
    (b.placesOfModel m = [] → ∃ u : State, exec (.modelUnload h modelId byte2 0) s = .next (u.reply h 0x4A stOK 0 0) ∧ u.model m = {} ∧
      (∀ k, k ≠ m → u.model k = b.model k) ∧ u = { b with models := u.models }) ∧
    (b.placesOfModel m ≠ [] → byte2 = 1 → (∀ l ∈ b.placesOfModel m, (b.place l).step.isSome = true) →
      ∃ t, exec (.modelUnload h modelId byte2 0) s = .next t ∧ t.model m = { b.model m with st := .unloading, unload := some (h, 0x4A), was := (b.model m).st } ∧
        (∀ l ∈ b.placesOfModel m, t.place l = { b.place l with removing := true }) ∧ t = { b with models := t.models, places := t.places })) ∧
  ∀ (s : State) (h : Hdr) (q : PlaceParams) (b : State) (l : Nat) (im : Image) (tiles : List Nat) (lopt : List (Option (Nat × Nat))),
    b = s.served h (.place q) → l = q.placement.toNat → im = (b.model q.modelId.toNat).img →
    tiles = b.readTiles h.fn q.tilesVa.toNat q.tileCount.toNat → lopt = b.readLopt h.fn q.loptVa.toNat im →
    s.takesC h (.place q) → firstFail (b.placeChks h q) = .pass →
    (q.tileCount ≠ 0 → firstFail (b.tileChks h.fn l q im tiles lopt) = .pass ∧ b.modelBad q.modelId.toNat = false) →
    ((b.place l).step.isSome = true → (b.place l).present = true → (b.place l).stats ≠ 0 →
      ∃ u : State, exec (.place h q) s = .next (u.reply h 0x4B stOK 0 (b.place l).stats) ∧
        u.place l = { b.place l with
          part := h.fn, fenced := (b.place l).fenced && decide (q.tileCount = 0),
          change := some (if q.tileCount = 0 then { (b.place l).cfg with tiles := [] } else placeCfg q im tiles (lopt.filterMap id)) } ∧
        (∀ k, k ≠ l → u.place k = b.place k) ∧ u = { b with places := u.places }) ∧
    ((b.place l).step = none → (b.place l).removing = false → b.mem.poison = [] → b.sec.zeroing = false →
      (∀ x ∈ b.sec.retiring, x.2 ≠ h.fn) →
      (q.tileCount ≠ 0 → ∀ stats, stats = (if (b.place l).present = true ∧ (b.place l).stats ≠ 0 then (b.place l).stats
          else Config.statsTable l b.free) →
        ∃ u : State, exec (.place h q) s = .next (u.reply h 0x4B stOK 0 stats) ∧
          (u.place l).present = true ∧ (u.place l).part = h.fn ∧ (u.place l).cfg = placeCfg q im tiles (lopt.filterMap id) ∧
          (u.place l).change = none ∧ (u.place l).fenced = false ∧ (u.place l).stats = stats) ∧
      (q.tileCount = 0 → (b.place l).stats ≠ 0 →
        ∃ u : State, exec (.place h q) s = .next (u.reply h 0x4B stOK 0 (b.place l).stats) ∧
          (u.place l).present = false ∧ (u.place l).cfg.tiles = [] ∧ (u.place l).change = none))

/-- KEY_LOAD with a valid blob whose counter is above the last installs a key: the partition's data under the old key is lost, KEY_GEN counts
it, KEY_SRC is 1, and the counter is kept in flash (R526, R530, R531). OPEN_SESSION opens the Crypto Officer
session for CO_TIMEOUT (R529). A failed authentication is counted, logged and replied to as a VIOLATION (R530). KEY_RETIRE replaces the key when the
partition has no placement, with its contexts CLOSED and its models gone, for partition 0 every
context, and otherwise waits for its placements (R531). ZEROIZE begins a
long operation of three phases: keys and session go at once and every placement is on its way out (R535). -/
def Obligations.KeysAreLoadedRetiredAndZeroized : Prop :=
  (∀ (s : State) (h : Hdr) (part : BitVec 8) (keyVa : BitVec 64) (sigOk : Bool) (b : State) (p : Nat) (bs : List Byte),
    b = s.served h (.keyLoad part 0 keyVa 288 0 sigOk false) → p = part.toNat → s.takesC h (.keyLoad part 0 keyVa 288 0 sigOk false) → p < 64 → b.partExists p = true →
    b.rdVa h.fn keyVa.toNat 288 = .inl bs → b.sec.blockTil ≤ b.now → b.secError = false → blobOk bs p = true →
    (sigOk = true → b.flash.coCtr < numAt bs 8 8 → b.holds p = false →
      ∃ u : State, exec (.keyLoad h part 0 keyVa 288 0 sigOk false) s = .next (u.reply h 0x70 stOK 0 0) ∧
        u.keyOf p = b.sec.nextKey ∧ (∀ q, q ≠ p → u.keyOf q = b.keyOf q) ∧ u.sec.nextKey = b.sec.nextKey + 1 ∧
        u.fld (Reg.SEC_PART p) Fld.SEC_PART_KEY_GEN = (b.fld (Reg.SEC_PART p) Fld.SEC_PART_KEY_GEN + 1) % 256 ∧
        u.fld (Reg.SEC_PART p) Fld.SEC_PART_KEY_SRC = 1 ∧ u.flash = { b.flash with coCtr := numAt bs 8 8 } ∧
        u.reg Reg.SEC_CO_CTR = BitVec.ofNat 64 (numAt bs 8 8) ∧ u.sec.failRun = 0 ∧
        u = { b with regs := u.regs, sec := u.sec, flash := u.flash } ∧
        b.fieldsBut u [(Reg.SEC_PART p, Fld.SEC_PART_KEY_GEN), (Reg.SEC_PART p, Fld.SEC_PART_KEY_SRC), (Reg.SEC_CO_CTR, wholeReg),
          (Reg.SEC_STAT, Fld.SEC_STAT_CO_SESSION), (Reg.SEC_STAT, Fld.SEC_STAT_CO_LEFT)]) ∧
    (sigOk = false ∨ numAt bs 8 8 ≤ b.flash.coCtr →
      ∃ u : State, exec (.keyLoad h part 0 keyVa 288 0 sigOk false) s = .next (u.refuseRole h 0x70) ∧ u.sec.keyId = b.sec.keyId ∧
        u.fld Reg.SEC_CNT Fld.SEC_CNT_AUTH_FAIL = min (b.fld Reg.SEC_CNT Fld.SEC_CNT_AUTH_FAIL + 1) 65535 ∧
        (b.sec.failRun < 15 → u.sec = { b.sec with failRun := b.sec.failRun + 1 }) ∧
        (15 ≤ b.sec.failRun → u.sec = { b.sec with failRun := 0, blockTil := b.now + 60000000000 }) ∧
        u = { b with regs := u.regs, sec := u.sec } ∧ b.fieldsBut u [(Reg.SEC_CNT, Fld.SEC_CNT_AUTH_FAIL)])) ∧
  (∀ (s : State) (h : Hdr) (keyVa : BitVec 64) (b : State) (bs : List Byte), b = s.served h (.keyLoad 0xFF 0 keyVa 288 0 true false) →
    s.takesC h (.keyLoad 0xFF 0 keyVa 288 0 true false) → b.rdVa h.fn keyVa.toNat 288 = .inl bs → b.sec.blockTil ≤ b.now →
    b.secError = false → blobOk bs 0xFF = true → b.flash.coCtr < numAt bs 8 8 →
    ∃ u : State, exec (.openSession h 0 keyVa 288 0 true) s = .next (u.reply h 0x70 stOK 0 0) ∧
      u.flag Reg.SEC_STAT Fld.SEC_STAT_CO_SESSION = true ∧ u.fld Reg.SEC_STAT Fld.SEC_STAT_CO_LEFT = b.coTimeout ∧
      u.sec = { b.sec with failRun := 0, sessEnd := some (b.now + b.coTimeout * 1000000000) } ∧
      u.flash = { b.flash with coCtr := numAt bs 8 8 } ∧ u = { b with regs := u.regs, sec := u.sec, flash := u.flash } ∧
      b.fieldsBut u [(Reg.SEC_CO_CTR, wholeReg), (Reg.SEC_STAT, Fld.SEC_STAT_CO_SESSION), (Reg.SEC_STAT, Fld.SEC_STAT_CO_LEFT)]) ∧
  (∀ (s : State) (h : Hdr) (part : BitVec 8) (b : State) (p : Nat), b = s.served h (.keyRetire part 0) → p = part.toNat → s.takesC h (.keyRetire part 0) →
    p < 64 → b.partExists p = true → b.flag Reg.SEC_STAT Fld.SEC_STAT_CO_SESSION = true → b.secError = false → b.sec.zeroing = false →
    (∀ x ∈ b.sec.retiring, x.2 ≠ p) →
    (p ≠ 0 → b.placesOf p = [] →
      ∃ u : State, exec (.keyRetire h part 0) s = .next (u.reply h 0x71 stOK 0 0) ∧ u.keyOf p = b.sec.nextKey ∧
        (∀ q, q ≠ p → u.keyOf q = b.keyOf q) ∧ u.fld (Reg.SEC_PART p) Fld.SEC_PART_KEY_SRC = 0 ∧
        u.fld (Reg.SEC_PART p) Fld.SEC_PART_KEY_GEN = (b.fld (Reg.SEC_PART p) Fld.SEC_PART_KEY_GEN + 1) % 256 ∧
        (∀ i ∈ b.ctxsOfPart p, (u.ctx i).st = .closed) ∧ (∀ m, (u.model m).part = p → (u.model m).st = .absent) ∧
        (u.part p).extents = [] ∧ u.partExists p = true) ∧
    (p = 0 → b.placesOf 0 = [] →
      ∃ u : State, exec (.keyRetire h part 0) s = .next (u.reply h 0x71 stOK 0 0) ∧ u.ctxs = [] ∧ u.keyOf 0 = b.sec.nextKey ∧
        (∀ q, q ≠ 0 → u.keyOf q = b.keyOf q) ∧ u.fld (Reg.SEC_PART 0) Fld.SEC_PART_KEY_SRC = 0 ∧
        u.fld (Reg.SEC_PART 0) Fld.SEC_PART_KEY_GEN = (b.fld (Reg.SEC_PART 0) Fld.SEC_PART_KEY_GEN + 1) % 256 ∧ (u.part 0).extents = []) ∧
    (b.placesOf p ≠ [] → (∀ l ∈ b.placesOf p, (b.place l).step.isSome = true) →
      ∃ t, exec (.keyRetire h part 0) s = .next t ∧ t.sec = { b.sec with retiring := b.sec.retiring ++ [(h, p)] } ∧
        (∀ l ∈ b.placesOf p, t.place l = { b.place l with removing := true }) ∧ t = { b with sec := t.sec, places := t.places })) ∧
  ∀ (s : State) (h : Hdr) (b : State), b = s.served h (.zeroize 0) → s.takesC h (.zeroize 0) → b.sec.zeroing = false →
    s.startsLong b (.zeroize h 0) h (.zeroize 0) 3 0 [] fun t =>
      t.sec.zeroing = true ∧ t.sec.sessEnd = none ∧ t.flag Reg.SEC_STAT Fld.SEC_STAT_CO_SESSION = false ∧
      t.fld Reg.SEC_STAT Fld.SEC_STAT_ZERO_PHASE = 1 ∧ (∀ p, p < 64 → b.partExists p = true → b.sec.nextKey ≤ t.keyOf p) ∧
      (∀ l ∈ b.present, t.place l = { b.place l with removing := true }) ∧
      t = { b with
        regs := t.regs, pairs := t.pairs, longOps := t.longOps, sec := t.sec, places := t.places,
        sched := { b.sched with longSeq := b.sched.longSeq + 1 } }

/-- A self-test that fails in service puts the security boundary into the error state with its cause and logs it (R534, R539). A Crypto Officer session
ends CO_TIMEOUT after its last valid KEY_LOAD (R529). A debug token that is refused only counts; an accepted one, with no placement left,
runs the whole zeroisation and then opens debug and leaves the approved mode (R535, R536). -/
def Obligations.TheBoundaryFailsAndOpensByRule : Prop :=
  (∀ (s : State) (cause : Nat), 1 ≤ cause → cause ≤ 4 → ∃ t, exec (.selfTestFailure cause) s = .next t ∧
    t.flag Reg.SEC_STAT Fld.SEC_STAT_ERROR = true ∧ t.fld Reg.SEC_STAT Fld.SEC_STAT_ERR_CAUSE = cause ∧
    t.flag Reg.SEC_STAT Fld.SEC_STAT_APPROVED = false ∧ t.faultLog.entries.getLast? = some ⟨s.time, 0x0704, 2, 3, cause, leBytes 1 2⟩ ∧
    t = { s with regs := t.regs, faultLog := t.faultLog } ∧
    s.fieldsBut t [(Reg.SEC_STAT, Fld.SEC_STAT_ERROR), (Reg.SEC_STAT, Fld.SEC_STAT_ERR_CAUSE), (Reg.SEC_STAT, Fld.SEC_STAT_APPROVED)]) ∧
  (∀ (s : State) (at_ e : Nat), s.sec.sessEnd = some e →
    (e ≤ max s.now at_ → ∃ t, exec (.coSessionTimeout at_) s = .next t ∧ t.sec = { s.sec with sessEnd := none } ∧
      t.flag Reg.SEC_STAT Fld.SEC_STAT_CO_SESSION = false ∧ t.fld Reg.SEC_STAT Fld.SEC_STAT_CO_LEFT = 0 ∧
      t = { s.tick at_ with regs := t.regs, sec := t.sec } ∧
      s.fieldsBut t [(Reg.SEC_STAT, Fld.SEC_STAT_CO_SESSION), (Reg.SEC_STAT, Fld.SEC_STAT_CO_LEFT)]) ∧
    (max s.now at_ < e → exec (.coSessionTimeout at_) s = .next (s.tick at_))) ∧
  ∀ s : State,
    (∃ t, exec (.debugUnlock false) s = .next t ∧ t = { s with regs := t.regs } ∧ s.fieldsBut t [(Reg.SEC_CNT, Fld.SEC_CNT_AUTH_FAIL)] ∧
      t.fld Reg.SEC_CNT Fld.SEC_CNT_AUTH_FAIL = min (s.fld Reg.SEC_CNT Fld.SEC_CNT_AUTH_FAIL + 1) 65535) ∧
    (s.sec.zeroing = false → s.present = [] → (∀ o ∈ s.longOps, ∀ r, o.pkt ≠ .zeroize r) →
      ∃ t, exec (.debugUnlock true) s = .next t ∧ t.flag Reg.SEC_STAT Fld.SEC_STAT_DEBUG_OPEN = true ∧
        t.flag Reg.SEC_STAT Fld.SEC_STAT_APPROVED = false ∧ t.flag Reg.SEC_STAT Fld.SEC_STAT_CO_SESSION = false ∧ t.sec.zeroing = false ∧
        t.sec.sessEnd = none ∧ t.ctxs = [] ∧ t.sec.devKey = s.sec.devKey + 1 ∧
        t.fld Reg.SEC_CNT Fld.SEC_CNT_ZEROIZES = min (s.fld Reg.SEC_CNT Fld.SEC_CNT_ZEROIZES + 1) 65535 ∧
        ∀ p, p < 64 → s.partExists p = true → s.sec.nextKey ≤ t.keyOf p)

/-! ## C-class packets: queries, firmware, fabric, twin; long operations -/

/-- CAL_QUERY, LINK_QUERY and LOG_READ write what they are asked for to DEST_VA, and their OK says in DETAIL how many bytes (R303, R312, R313, R375,
R417, R509): CAL_QUERY at most BYTES of the record that WHAT and INDEX name, for partition 0 or the partition that holds the tile; LINK_QUERY the
registers PORT_CFG, PORT_STAT, PORT_CNT and LANE of the port; LOG_READ the entries of the log from FIRST on, the oldest first, the fault log's
with its header. Nothing but the bytes written and the rings changes. -/
def Obligations.QueriesWriteWhatTheyAreAskedFor : Prop :=
  (∀ (s : State) (h : Hdr) (what : BitVec 8) (index : BitVec 16) (va : BitVec 64) (bytes : BitVec 32) (b u : State), b = s.served h (.calQuery what 0 index 0 va bytes 0) →
    s.takesC h (.calQuery what 0 index 0 va bytes 0) → what.toNat ≤ 9 → whatOk what.toNat index.toNat = true →
    (h.fn = 0 ∨ (1 ≤ what.toNat ∧ what.toNat ≤ 5 ∧ (b.tileOwners index.toNat).contains h.fn = true)) →
    (1 ≤ what.toNat → what.toNat ≤ 5 → (b.physOf index.toNat).isSome = true) →
    b.wrVa h.fn va.toNat ((b.calRecord what.toNat index.toNat).take bytes.toNat) = .inl u →
    exec (.calQuery h what 0 index 0 va bytes 0) s =
      .next (u.reply h 0x51 stOK ((b.calRecord what.toNat index.toNat).take bytes.toNat).length 0) ∧ u = { b with mem := u.mem }) ∧
  (∀ (s : State) (h : Hdr) (port : BitVec 8) (va : BitVec 64) (b u : State), b = s.served h (.linkQuery port 0 va) → s.takesC h (.linkQuery port 0 va) →
    port.toNat < 24 →
    b.wrVa h.fn va.toNat (([Reg.LNK_PORT_CFG port.toNat, Reg.LNK_PORT_STAT port.toNat, Reg.LNK_PORT_CNT port.toNat] ++
      (List.range 17).map (laneReg port.toNat)).flatMap fun r => leBytes 8 (b.reg r).toNat) = .inl u →
    exec (.linkQuery h port 0 va) s = .next (u.reply h 0x63 stOK 160 0) ∧ u = { b with mem := u.mem }) ∧
  ∀ (s : State) (h : Hdr) (log : BitVec 8) (first : BitVec 16) (count : BitVec 32) (va : BitVec 64) (b u : State) (bs : List Byte),
    b = s.served h (.logRead log 0 first count va) → s.takesC h (.logRead log 0 first count va) → log.toNat ≤ 2 → (log = 0 ∨ h.fn = 0) →
    (log = 0 → bs = (((b.part h.fn).viol.drop first.toNat).take count.toNat).flatMap VEntry.bytes) →
    (log = 1 → bs = ((b.globalLog.drop first.toNat).take count.toNat).flatMap VEntry.bytes) →
    (log = 2 → bs = b.faultLog.header ++ ((b.faultLog.entries.drop first.toNat).take count.toNat).flatMap FEntry.bytes) →
    b.wrVa h.fn va.toNat bs = .inl u →
    exec (.logRead h log 0 first count va) s = .next (u.reply h 0x68 stOK bs.length 0) ∧ u = { b with mem := u.mem }

/-- CAL_RUN and TEST_RUN begin long operations (R308, R416, R506): every object that a CAL_RUN's SCOPE names, but for lanes of ports that are not UP, is
requested, and the operation waits for the run of each; every available tile that a TEST_RUN names has a round due, or is in one, and the
operation waits for each. FW_STAGE begins to stage, which its slices do (R483). FW_ACTIVATE of the bank
that the boot record does not name begins an activation at PHASE 1 (R484). Both are long operations. -/
def Obligations.RunsAndFirmwarePacketsBegin : Prop :=
  ((∀ (s : State) (h : Hdr) (scope : BitVec 8) (index : BitVec 16) (b : State) (can : List CalObj), b = s.served h (.calRun scope 0 index 0) →
    can = ((b.calScope scope.toNat index.toNat).filter fun o => match o with
      | .lane i => b.portSt (i / 17) == 2 || b.inRun o
      | _ => true) →
    s.takesC h (.calRun scope 0 index 0) → scope.toNat ≤ 4 → scopeOk scope.toNat index.toNat = true → (∃ x ∈ can, b.inRun x = false) →
    s.startsLong b (.calRun h scope 0 index 0) h (.calRun scope 0 index 0) can.length 0
      (can.map fun x => calKey x + if b.inRun x then 65536 else 0) fun t =>
        (∀ x ∈ can, t.inRun x = true ∨ ∃ y ∈ t.cal.held, calKey y = calKey x) ∧
        t = { b with
          regs := t.regs, pairs := t.pairs, longOps := t.longOps, cal := t.cal, hkc := t.hkc, ports := t.ports,
          sched := { b.sched with longSeq := b.sched.longSeq + 1 } }) ∧
  ∀ (s : State) (h : Hdr) (tile : BitVec 16) (kind : BitVec 8) (b : State) (ts : List Nat), b = s.served h (.testRun tile kind 0) →
    s.takesC h (.testRun tile kind 0) → kind.toNat ≤ 1 → b.fw.testLeft = none →
    (tile.toNat < 1024 ∧ ts = [tile.toNat] ∧ (b.physOf tile.toNat).isSome = true ∨
      tile = 0xFFFF ∧ ts = ((List.range 1024).filter fun k => (b.physOf k).isSome) ∧ ts ≠ []) →
    s.startsLong b (.testRun h tile kind 0) h (.testRun tile kind 0) ts.length 0 ts fun t =>
      (∀ k ∈ ts, t.testSt k ≠ 0) ∧ (kind = 1 → ∀ k ∈ ts, ∀ i, b.physOf k = some i → (t.phy i).testKind ≠ 0) ∧
      t = { b with
        regs := t.regs, pairs := t.pairs, longOps := t.longOps, phys := t.phys,
        sched := { b.sched with longSeq := b.sched.longSeq + 1 } }) ∧
  ((∀ (s : State) (h : Hdr) (offset bytes : BitVec 32) (src : BitVec 64) (data : List Byte) (b : State),
    b = s.served h (.fwStage offset bytes src 0 data) → s.takesC h (.fwStage offset bytes src 0 data) → offset.toNat % 4096 = 0 → bytes.toNat % 4096 = 0 → 4096 ≤ bytes.toNat →
    bytes.toNat ≤ 4 * 2 ^ 20 → offset.toNat + bytes.toNat ≤ 24 * 2 ^ 20 → b.fw.act = none → b.fw.staging = false →
    s.startsLong b (.fwStage h offset bytes src 0 data) h (.fwStage offset bytes src 0 data) bytes.toNat 0 [] fun t =>
      t = { b with
        regs := t.regs, pairs := t.pairs, longOps := t.longOps, fw := { b.fw with staging := true },
        sched := { b.sched with longSeq := b.sched.longSeq + 1 } }) ∧
  ∀ (s : State) (h : Hdr) (bank : BitVec 8) (sigOk : Bool) (b : State), b = s.served h (.fwActivate bank 0 sigOk) → s.takesC h (.fwActivate bank 0 sigOk) →
    bank.toNat ≤ 1 → bank.toNat ≠ b.fld Reg.FWP_BOOT Fld.FWP_BOOT_ACTIVE_BANK → b.secError = false → b.critical = false →
    b.fw.act = none → b.fw.staging = false →
    s.startsLong b (.fwActivate h bank 0 sigOk) h (.fwActivate bank 0 sigOk) 4 0 [] fun t =>
      t.fw = { b.fw with act := some (b.sched.longSeq, bank.toNat), phase := 1 } ∧ t.fld Reg.FWP_ACT Fld.FWP_ACT_PHASE = 1 ∧
      t = { b with
        regs := t.regs, pairs := t.pairs, longOps := t.longOps, fw := t.fw,
        sched := { b.sched with longSeq := b.sched.longSeq + 1 } })

/-- TWIN_PAIR with an UP twin port, a peer on the board and a journal region makes the module PAIRING with the peer named, and PAIRED at once where the
peer's message came within the last second (R382). TWIN_UNPAIR makes a SOLO or PAIRED module SOLO; with WAIT and records not acknowledged it
is UNPAIRING first (R390). FABRIC_JOIN enables the ports of its mask; those not UP train, and it completes when their training ends, at
once where there is none (R375). -/
def Obligations.TwinAndFabricPacketsBegin : Prop :=
  (∀ (s : State) (h : Hdr) (peer : BitVec 16) (byte2 : BitVec 8) (b : State), b = s.served h (.twinPair peer byte2 0) → s.takesC h (.twinPair peer byte2 0) →
    peer.toNat < 16384 → peer.toNat ≠ b.myId → byte2.toNat < 2 → b.twinSt = 0 → b.upPorts 3 ≠ [] →
    (b.portsTo peer.toNat).any (fun n => b.sameBoard (b.port n).farCoord) = true → b.regionSet = true →
    ((∀ m set t0, b.twin.pairSeen = some (m, set, t0) → m ≠ peer.toNat ∨ t0 + 1000000000 ≤ b.now) →
      s.startsLong b (.twinPair h peer byte2 0) h (.twinPair peer byte2 0) 1 0 [] fun t =>
        t.twinSt = 1 ∧ t.peer = peer.toNat ∧
        t.twin = { noJbc := bitOf byte2.toNat 0, pairAt := b.now, lastBeat := b.now, pairOp := some b.sched.longSeq } ∧
        b.fieldsBut t [(Reg.TWN_STAT, Fld.TWN_STAT_STATE), (Reg.TWN_STAT, Fld.TWN_STAT_PEER),
          (Reg.SCH_FN_STAT h.fn, Fld.SCH_FN_STAT_LONG_OPS)] ∧
        t = { b with
          regs := t.regs, pairs := t.pairs, longOps := t.longOps, twin := t.twin, fabric := t.fabric, ports := t.ports,
          sched := { b.sched with longSeq := b.sched.longSeq + 1 } }) ∧
    (∀ t0, b.twin.pairSeen = some (peer.toNat, true, t0) → b.now < t0 + 1000000000 → ¬ b.longFull h →
      ∃ u : State, exec (.twinPair h peer byte2 0) s = .next (u.reply h 0x60 stOK 0 0) ∧ u.twinSt = 2 ∧ u.peer = peer.toNat ∧
        u.flag Reg.TWN_STAT Fld.TWN_STAT_JBC = !(bitOf byte2.toNat 0) ∧ u.longOps = b.longOps.filter (fun o => o.id != b.sched.longSeq))) ∧
  (∀ (s : State) (h : Hdr) (byte0 : BitVec 8) (b : State), b = s.served h (.twinUnpair byte0 0) → s.takesC h (.twinUnpair byte0 0) → byte0.toNat < 2 →
    b.flag Reg.TWN_STAT Fld.TWN_STAT_TAKEOVER = false → ¬ b.longFull h →
    (b.twinSt = 0 → ∃ u : State, exec (.twinUnpair h byte0 0) s = .next (u.reply h 0x61 stOK 0 0) ∧ u.twin = b.twin ∧ u.twinSt = 0 ∧
      u.longOps = b.longOps.filter (fun o => o.id != b.sched.longSeq)) ∧
    (b.twinSt = 2 ∨ b.twinSt = 3 → (byte0 = 0 ∨ b.twin.sentSeq ≤ b.twin.acked) →
      ∃ u : State, exec (.twinUnpair h byte0 0) s = .next (u.reply h 0x61 stOK 0 0) ∧ u.twin = {} ∧ u.twinSt = 0 ∧
        u.fld Reg.TWN_JRN Fld.TWN_JRN_USED = 0 ∧ u.longOps = b.longOps.filter (fun o => o.id != b.sched.longSeq)) ∧
    (b.twinSt = 2 ∨ b.twinSt = 3 → byte0 = 1 → b.twin.acked < b.twin.sentSeq →
      ∃ t, exec (.twinUnpair h byte0 0) s = .next t ∧ b.longBegins t h (.twinUnpair byte0 0) 1 0 [] ∧ t.twinSt = 4 ∧
        t.twin = { b.twin with unpairOp := some b.sched.longSeq } ∧
        t = { b with
          regs := t.regs, pairs := t.pairs, longOps := t.longOps, twin := t.twin,
          sched := { b.sched with longSeq := b.sched.longSeq + 1 } })) ∧
  ∀ (s : State) (h : Hdr) (mask : BitVec 24) (b : State) (down : List Nat), b = s.served h (.fabricJoin mask 0) → s.takesC h (.fabricJoin mask 0) →
    b.flag Reg.LNK_COORD Fld.LNK_COORD_VALID = true → down = ((List.range 24).filter fun n => bitOf mask.toNat n && b.portSt n != 2) →
    (down ≠ [] → s.startsLong b (.fabricJoin h mask 0) h (.fabricJoin mask 0) down.length 0 down fun t =>
      (∀ n, n < 24 → bitOf mask.toNat n = true → t.flag (Reg.LNK_PORT_CFG n) Fld.LNK_PORT_CFG_EN = true) ∧ (∀ n ∈ down, t.portSt n = 1) ∧
      t = { b with
        regs := t.regs, pairs := t.pairs, longOps := t.longOps, ports := t.ports,
        sched := { b.sched with longSeq := b.sched.longSeq + 1 } }) ∧
    (down = [] → ¬ b.longFull h →
      ∃ u : State, exec (.fabricJoin h mask 0) s = .next (u.reply h 0x62 stOK 0 0) ∧ u.longOps = b.longOps.filter (fun o => o.id != b.sched.longSeq) ∧
        (∀ n, n < 24 → bitOf mask.toNat n = true → u.flag (Reg.LNK_PORT_CFG n) Fld.LNK_PORT_CFG_EN = true))

/-- A slice of a FW_STAGE is one grant of the flash arbiter (R470, R483): the bank that the boot record does not name is no longer VALID, and it
has one block of 64 KiB erased, until with OFFSET 0 all 384 are, or one page of 4 KiB programmed, which counts toward what is done; with
the last page the packet replies OK. A LONG_OPERATION_SLICE that the service arbiter of its processor does not grant changes nothing (R296,
R308). PROGRESS writes the fraction reached, in units
of 2^-16, 100 ms of module time after the last (R309). -/
def Obligations.LongOperationsAdvanceAndTell : Prop :=
  (∀ (s : State) (fn seq amount at_ : Nat) (o : LongOp) (offset bytes : BitVec 32) (src rsv : BitVec 64) (data : List Byte) (b : State)
    (k a : Nat) (page : List Byte), (s.tick at_).sliceGranted fn seq o → b = (s.tick at_).slicing fn o →
    o.pkt = .fwStage offset bytes src rsv data → k = b.inactiveBank → a = offset.toNat + o.done → page = (data.drop o.done).take 4096 →
    (offset = 0 → o.stage < 384 → ∃ t, exec (.longOperationSlice fn seq amount at_) s = .next t ∧
      t.flash.staged = eraseRanges k (65536 * o.stage) 65536 b.flash.staged ∧
      (o.stage ≠ 0 → t.flash = { b.flash with staged := t.flash.staged }) ∧ (o.stage = 0 → tget [] t.flash.bankHdr k = []) ∧
      t.flag (Reg.FWP_VER k) Fld.FWP_VER_VALID = false ∧ b.fieldsBut t [(Reg.FWP_VER k, Fld.FWP_VER_VALID)] ∧
      (∀ x ∈ t.longOps, x.id = o.id → x = { o with stage := o.stage + 1 }) ∧
      t = { b with regs := t.regs, longOps := t.longOps, flash := t.flash, fw := { b.fw with flashPtr := 0 } }) ∧
    ((offset ≠ 0 ∨ 384 ≤ o.stage) → o.done + 4096 < o.total → ∃ t, exec (.longOperationSlice fn seq amount at_) s = .next t ∧
      t.flash.staged = eraseRanges k a 4096 b.flash.staged ++ [(k, a, 4096)] ∧ (a = 0 → tget [] t.flash.bankHdr k = page) ∧
      t.flag (Reg.FWP_VER k) Fld.FWP_VER_VALID = false ∧ (∀ x ∈ t.longOps, x.id = o.id → x.done = o.done + 4096) ∧
      t = { b with regs := t.regs, pairs := t.pairs, longOps := t.longOps, flash := t.flash, fw := { b.fw with flashPtr := 0 } }) ∧
    ((offset ≠ 0 ∨ 384 ≤ o.stage) → o.total ≤ o.done + 4096 →
      ∃ u : State, exec (.longOperationSlice fn seq amount at_) s = .next (u.reply o.h 0x58 stOK 0 0) ∧
        u.flash.staged = eraseRanges k a 4096 b.flash.staged ++ [(k, a, 4096)] ∧ (a = 0 → tget [] u.flash.bankHdr k = page) ∧
        u.flag (Reg.FWP_VER k) Fld.FWP_VER_VALID = false ∧ u.fw = { b.fw with flashPtr := 0, staging := false } ∧ u.longOf o.id = none ∧
        u = { b with regs := u.regs, pairs := u.pairs, longOps := u.longOps, flash := u.flash, fw := u.fw })) ∧
  (∀ (s : State) (fn seq amount at_ : Nat), fn < 64 → (∀ o, ¬ (s.tick at_).sliceGranted fn seq o) →
    exec (.longOperationSlice fn seq amount at_) s = .next (s.tick at_)) ∧
  ∀ (s : State) (fn seq at_ : Nat) (b : State), b = s.tick at_ → fn < 64 →
    ((∀ o ∈ b.longOps, o.h.fn = fn → o.h.seq.toNat = seq → b.time < o.progAt + 100000000) → exec (.progress fn seq at_) s = .next b) ∧
    ∀ o, b.longOps.find? (fun x => x.h.fn == fn && x.h.seq.toNat == seq && decide (x.progAt + 100000000 ≤ b.time)) = some o →
      b.pairOn o.h.fn o.h.ring = true → ∃ t, exec (.progress fn seq at_) s = .next t ∧
        (t.pair o.h.fn o.h.ring).out = (b.pair o.h.fn o.h.ring).out ++
          [replyOut o.h o.pkt.opcode stProgress (fraction o.done o.total) 0 false b.now] ∧
        t.longOf o.id = some { o with progAt := b.time, progN := fraction o.done o.total * 16 / 65536 } ∧
        t = { b with pairs := t.pairs, longOps := t.longOps }

/-! ## The data path -/

/-- STEP_BUILD builds nothing where the placement may not step, and otherwise the contexts that R231 selects: with none there is only the
completion of those that were starved, late or without a table; else the step holds their slots, the generation and profile in force, and the
next step number (R186, R224, R226, R231). SAMPLE gives a slot its tokens, or discards its work for a bad profile (R236, R239, R241).
STEP_RETIRE of a step with one decoding context advances it by its positions, makes the token its pending one, counts it off GEN_LEFT
and hands its completion to its ring (R27, R198, R220, R293). TOKENS counts the tokens sampled before the cut (R198, R254). A placement whose completion waits over 100 us builds no step (R289). -/
def Obligations.StepsAreBuiltSampledAndRetired : Prop :=
  (∀ (s : State) (l at_ : Nat) (b c : State) (a : Sel), b = s.tick at_ → l < 1024 → (b.place l).cfg.sliced = false →
    c = (if (b.waitingOf l).isEmpty then b.setPlace l { b.place l with stalled := false } else b) →
    a = (c.decideHold l).select l ((c.decideHold l).bulkHold l) →
    (c.mayStep l = false → exec (.stepBuild l at_) s = .next c) ∧
    (c.mayStep l = true → c.mem.poison = [] → (c.place l).stalled = true → exec (.stepBuild l at_) s = .next c) ∧
    (c.mayStep l = true → c.mem.poison = [] → (c.place l).stalled = false →
      (a.slots = [] → exec (.stepBuild l at_) s = .next (a.s.noteAll a.notes)) ∧
      (a.slots ≠ [] → ∃ t st, exec (.stepBuild l at_) s = .next t ∧ (t.place l).step = some st ∧ st.slots = a.slots ∧ st.npos = a.npos ∧
        st.notBuilt = a.notes ∧ st.builtAt = b.now ∧ st.gen = (b.model (b.place l).cfg.model).gen ∧ st.profile = (b.place l).cfg.profile ∧
        t.sched.nextStep = st.id + 1 ∧ st.escalated = false ∧ st.relaySent = false))) ∧
  (∀ (s : State) (l i : Nat) (logits : List (List BF16)) (st : Step) (x : Slot), l < 1024 → i < 4194304 → (s.place l).step = some st →
    (st.slots.find? fun y => y.ctx == i) = some x → x.emits = true → x.done = false →
    ((profOf x.prof).ok = false → ∃ t st' y, exec (.sample l i logits) s = .next t ∧ (t.place l).step = some st' ∧
      (st'.slots.find? fun z => z.ctx == i) = some y ∧ y.done = true ∧ y.tokens = [] ∧ y.discard.isSome = true ∧
      s.counted t (Reg.SMP_QCNT (s.place l).home) Fld.SMP_QCNT_BAD_PROF 1 ∧ t = { s with regs := t.regs, places := t.places }) ∧
    ((profOf x.prof).ok = true → ∀ mask, s.maskBits (s.ctx i).part (profOf x.prof) (s.imgOf (s.ctx i)).vocab = .inl mask →
      ∃ t st' y, exec (.sample l i logits) s = .next t ∧ (t.place l).step = some st' ∧ (st'.slots.find? fun z => z.ctx == i) = some y ∧
        y.done = true ∧ y.discard = x.discard ∧
        y.tokens = cutTokens (profOf x.prof).stop (s.ctx i).genLeft (s.slotTokens x (profOf x.prof) mask logits).toks ∧
        s.counted t (Reg.SMP_QCNT (s.place l).home) Fld.SMP_QCNT_TOKENS (s.slotTokens x (profOf x.prof) mask logits).toks.length ∧
        t = { s with regs := t.regs, places := t.places })) ∧
  (∀ (s : State) (l at_ : Nat) (b : State) (st : Step) (x : Slot) (tok : Nat) (c : Ctx), b = s.tick at_ → l < 1024 →
    (b.place l).step = some st → (b.place l).present = true → (b.place l).removing = false → (b.place l).change = none → b.twinSt ≠ 2 →
    st.relaySent = true → st.relayOut = 0 → b.buffered (b.place l).home + st.outs ≤ 16384 → st.slots = [x] → x.kind = .decode →
    x.discard = none → x.emits = true → x.done = true → x.tokens = [tok] → x.accepted = [] → c = b.ctx x.ctx → c.st = .active →
    c.held = [] → c.deadline = 0 → (b.auxOf x.ctx).redo = [] → c.pair < 32 → b.pairOn c.part c.pair = true →
    ∃ t, exec (.stepRetire l at_) s = .next t ∧ (t.place l).step = none ∧ (t.ctx x.ctx).pos = c.pos + x.npos ∧
      (t.ctx x.ctx).pending = tok ∧ (t.ctx x.ctx).pvalid = true ∧
      (t.ctx x.ctx).genLeft = (if c.genLeft = 0xFFFF then c.genLeft else c.genLeft - 1) ∧
      ∃ o ∈ (t.pair c.part c.pair).out, o.isReply = false ∧ o.place = some l ∧
        o.bytes = complBytes x.ctx (if st.escalated then stEscalated else stOK) [tok] x.lps (x.p0 + x.npos) st.gen l b.time) ∧
  ∀ (s : State) (l at_ : Nat) (b : State), b = s.tick at_ → l < 1024 →
    ((∃ o ∈ b.waitingOf l, o.since + 100000 < b.now) → exec (.completionBufferStall l at_) s =
      .next (b.setPlace l { b.place l with stalled := true })) ∧
    ((∀ o ∈ b.waitingOf l, b.now ≤ o.since + 100000) → exec (.completionBufferStall l at_) s = .next b)

/-- A pass that PASS_ISSUE puts to work takes its layer's inputs, counts the unused weight codes of its share, is quantised at the layer's format
with its outliers extracted, and waits while a chunk has no matching tag; a pass pinned to DIGITAL, or of a tile on its way out, runs digitally;
none starts before its offset, and a share that faults ends the step's work (R51, R54, R63, R90, R124, R183, R434, R497). ARRAY_CYCLE takes a
pass through its half-passes, digit passes, vector groups and rounds (R75, R79, R95). TILE_LAYER_PASS_END counts each read once, forwards the
sums of R41 to R43, climbs to the wider format or to a digital replay beyond the thresholds, or repeats the pass after a mismatch (R51, R57,
R62, R495). ARRAY_WRITE stores the digits of a chunk with its tag from the tile's copy of the share (R65, R68, R87, R89, R91).
DRIFT_FILTER_UPDATE moves the filter of every array with a qualifying read (R117, R118). -/
def Obligations.PassesRunOnTheArrays : Prop :=
  (∀ (s : State) (tile pslot layer expert : Nat) (acts : List (List BF16)) (i l : Nat) (st : Step) (x : Model) (y : Layer) (sh : Share)
    (k : Nat), tile < 1024 → pslot < 16 → s.physOf tile = some i → s.placeIn tile pslot = some l → (s.place l).step = some st →
    s.shareOf l tile layer = some (x, y, sh, k) → (s.tile tile).pass = none → acts ≠ [] → (∀ v ∈ acts, v.length = sh.kCount) →
    y.kind ≠ 4 → expert < max 1 y.nExp →
    (st.startsOn s.now tile = false → exec (.passIssue tile pslot layer expert acts) s = .next s) ∧
    (st.startsOn s.now tile = true → s.copyOf tile l layer expert st.gen = none → s.badShare l expert x y sh = none →
      ∀ va, s.readShare l layer expert st.gen x y sh = .inr va → ∃ t st', exec (.passIssue tile pslot layer expert acts) s = .next t ∧
        s.logsViolation t ⟨s.time, va % 2 ^ 48, 4, x.part, false, false⟩ ∧ (t.place l).step = some st' ∧
        st'.slots = st.slots.map (fun z => z.drop stViolation) ∧ (t.tile tile).pass = none) ∧
    (st.startsOn s.now tile = true → ∀ (b : State) (cp : ShareCopy) (ins : List (List BF16)) (p0 : Pass) (f : Nat),
      s.sramCopy b tile l layer expert st.gen x y sh cp → ins = y.normed acts s.free →
      p0 = { pslot := pslot, place := l, model := (s.place l).cfg.model, layer := layer, share := k, expert := expert, acts := ins,
             fmt := 0, ezBlocks := exactZero sh.kCount ins } →
      f = startFormat y ((st.lopt.getD layer (0, 0)).1) →
      ∃ t, exec (.passIssue tile pslot layer expert acts) s = .next t ∧ (∀ u, u ≠ tile → t.tile u = s.tile u) ∧
        t = { b with regs := t.regs, tiles := t.tiles, free := s.free + (if y.norm = 0 then 0 else acts.length) } ∧
        (t.tile tile).copies = (b.tile tile).copies ∧
        s.counted t (Reg.MDT_TILE_ESC tile) Fld.MDT_TILE_ESC_WCODE_RSV (cp.reserved y sh) ∧
        (f = 0 → (t.tile tile).pass = some { p0 with replay := (s.tile tile).retiring.isSome } ∧
          s.counted t (Reg.MDT_TILE_CHK tile) Fld.MDT_TILE_CHK_DIG_PIN 1) ∧
        (f ≠ 0 → (s.tile tile).retiring.isSome = true → (t.tile tile).pass = some { p0 with replay := true } ∧
          s.counted t (Reg.TILE_FLT tile) Fld.TILE_FLT_REPLAY 1) ∧
        (f ≠ 0 → (s.tile tile).retiring = none → ∀ e p1, e = extract y.theta sh.kCount ins →
          p1 = (({ p0 with fmt := f, outl := e.outl, ovf := e.ovf != 0 } : Pass).quantise y sh.kCount).nextRound (s.phy i).arrays (st.gen % 16)
            sh.chunks (weightDigits (fmtBits y.wfmt)) st.profile →
          (t.tile tile).pass = some { p1 with waited := decide (p1.round.length < sh.chunks) } ∧
          s.counted t (Reg.CAB_TILE_CNT tile) Fld.CAB_TILE_CNT_GEN_WAIT (if p1.round.length < sh.chunks then 1 else 0) ∧
          s.counted t (Reg.MDT_TILE_OUT tile) Fld.MDT_TILE_OUT_AOUT_EXT e.outl.length))) ∧
  (∀ (s : State) (tile i : Nat) (x x0 : Pass) (st : Step) (m : Model) (y : Layer) (sh : Share) (k : Nat) (v : PassEnv) (r : State × Pass),
    tile < 1024 → s.physOf tile = some i → (s.tile tile).pass = some x → (s.place x.place).step = some st →
    s.shareOf x.place tile x.layer = some (m, y, sh, k) → v = s.passEnv tile i x st y sh → x.fmt ≠ 0 → x.doneCh.length < sh.chunks →
    x0 = s.pruneRound v x → r = (if x0.round.isEmpty then s.roundFor tile i x0 v.gen v.chunks v.D v.profile else (s, x0)) →
    (r.2.round = [] → ∃ t, exec (.arrayCycle tile) s = .next t ∧ (t.tile tile).pass = some { r.2 with waited := true } ∧
      s.counted t (Reg.CAB_TILE_CNT tile) Fld.CAB_TILE_CNT_GEN_WAIT (b2n !x.waited) ∧ t = { s with regs := t.regs, tiles := t.tiles }) ∧
    (r.2.round ≠ [] → r.2.g = 0 → r.2.twoCycles v = true →
      exec (.arrayCycle tile) s = .next (r.1.setTile tile { s.tile tile with pass := some { r.2 with g := 1 } })) ∧
    (r.2.round ≠ [] → r.2.g ≠ 0 ∨ r.2.twoCycles v = false → ∃ t z, exec (.arrayCycle tile) s = .next t ∧ (t.tile tile).pass = some z ∧
      z.doneCh = (r.2.next v.nb).doneCh ∧ z.round = (r.2.next v.nb).round ∧ z.k = (r.2.next v.nb).k ∧ z.p = (r.2.next v.nb).p ∧ z.g = 0 ∧
      (∀ w ∈ r.2.cols, w ∈ z.cols) ∧ (∀ w ∈ z.cols, w ∈ r.2.cols ∨ (w.v ∈ r.2.group ∧ w.p = r.2.p)) ∧
      s.free ≤ t.free ∧ (∀ u, u ≠ tile → t.tile u = s.tile u) ∧
      t = { s with regs := t.regs, tiles := t.tiles, phys := t.phys, cal := t.cal, free := t.free })) ∧
  (∀ (s b : State) (tile : Nat) (residue : Bool) (appends tents : List KvEntry) (i : Nat) (x : Pass) (st : Step) (m : Model) (y : Layer) (sh : Share)
    (k satA : Nat) (cp : ShareCopy) (sums : List (List FAcc)), tile < 1024 → s.physOf tile = some i → (s.tile tile).pass = some x →
    (s.place x.place).step = some st → s.shareOf x.place tile x.layer = some (m, y, sh, k) →
    (x.fmt = 0 ∨ sh.chunks ≤ x.doneCh.length) → s.sramCopy b tile x.place x.layer x.expert st.gen m y sh cp →
    (sums, satA) = passSums x cp y sh →
    (y.split ≠ 1 → kPartOf y sh = 0 → s.kReady x st.id y sh = false → exec (.tileLayerPassEnd tile residue appends tents) s = .next s) ∧
    ((y.split = 1 ∨ kPartOf y sh ≠ 0 ∨ s.kReady x st.id y sh = true) →
      (residue = true ∨ x.mism ≠ [] → x.repeated = false → ∃ t z, exec (.tileLayerPassEnd tile residue appends tents) s = .next t ∧
        (t.tile tile).pass = some z ∧ z.repeated = true ∧ z.resBad = residue ∧ z.fmt = x.fmt ∧ z.acts = x.acts ∧
        (t.tile tile).outs = (s.tile tile).outs ∧
        s.counted t (Reg.MDT_TILE_NUM tile) Fld.MDT_TILE_NUM_EZ (if x.counted then 0 else x.ezBlocks.length) ∧
        t = { b with regs := t.regs, tiles := t.tiles }) ∧
      (residue = false → x.mism = [] →
        (x.fmt = 0 ∨ x.climbs st satA = false → ∃ t st', exec (.tileLayerPassEnd tile residue appends tents) s = .next t ∧
          (t.tile tile).pass = none ∧ (t.place x.place).step = some st' ∧ (tile, x.layer) ∈ st'.ran ∧
          (tget (0, 0, 0, 0) st'.layers x.layer).2.2.2 = (tget (0, 0, 0, 0) st.layers x.layer).2.2.2 + 1 ∧
          (∃ o ∈ (t.tile tile).outs, o.place = x.place ∧ o.layer = x.layer ∧ o.expert = x.expert ∧ o.step = st.id ∧
            (y.split = 1 → o.results = sums.map fun r => r.map FAcc.result) ∧
            (y.split ≠ 1 → kPartOf y sh ≠ 0 → o.pairs = sums.map fun r => r.map FAcc.pair) ∧
            (y.split ≠ 1 → kPartOf y sh = 0 → o.results = (s.kResults tile x st.id y sh sums).1)) ∧
          s.counted t (Reg.TILE_FLT tile) Fld.TILE_FLT_RES_MIS (b2n x.resBad) ∧
          (appends = [] → tents = [] → t = { b with regs := t.regs, tiles := t.tiles, places := t.places })) ∧
        (x.fmt ≠ 0 → x.climbs st satA = true → x.fmt ≠ 8 → x.rung ≠ 2 →
          ∃ t z st', exec (.tileLayerPassEnd tile residue appends tents) s = .next t ∧ (t.tile tile).pass = some z ∧ z.fmt = wider x.fmt ∧
            z.rung = x.rung + 1 ∧ z.acts = x.acts ∧ (t.place x.place).step = some st' ∧ st'.escalated = true ∧
            s.counted t (Reg.MDT_TILE_ESC tile) (if wider x.fmt = 6 then Fld.MDT_TILE_ESC_TO_XB6 else Fld.MDT_TILE_ESC_TO_XB8) 1 ∧
            t = { b with regs := t.regs, tiles := t.tiles, places := t.places }) ∧
        (x.fmt ≠ 0 → x.climbs st satA = true → x.fmt = 8 ∨ x.rung = 2 →
          ∃ t st', exec (.tileLayerPassEnd tile residue appends tents) s = .next t ∧ (t.tile tile).pass = none ∧
            (t.place x.place).step = some st' ∧ st'.escalated = true ∧ s.counted t (Reg.MDT_TILE_ESC tile) Fld.MDT_TILE_ESC_TO_DIG 1 ∧
            (y.split = 1 → ∃ o ∈ (t.tile tile).outs, o.place = x.place ∧ o.layer = x.layer ∧ o.expert = x.expert ∧
              o.results = (passSums { x with fmt := 0, zro := 0 } cp y sh).1.map fun r => r.map FAcc.result))))) ∧
  (∀ (s b : State) (tile array pslot layer digit : Nat) (dup : Bool) (chunk i : Nat) (w : WriteOf) (D : Nat) (a : Arr) (bare : Tbl Arr)
    (demand : Bool), tile < 1024 → array < 512 → pslot < 16 → s.physOf tile = some i → s.writeOf tile pslot layer = some w →
    a = tget {} (s.phy i).arrays array → D = weightDigits (fmtBits w.y.wfmt) → digit < D →
    (dup = false ∨ digit + 1 = D ∧ (s.place w.l).cfg.profile = 3) → w.sh.chunks ≠ 0 → chunk < w.sh.chunks * max 1 w.y.nExp →
    demand = s.demandWrite tile i pslot layer chunk w →
    s.writeMay tile a w demand (s.soleCopy i array pslot layer (w.gen % 16) digit dup chunk) = true →
    (demand = true ∨ s.demanded tile i = [] ∨ (s.tile tile).wrPtr ≠ 0) →
    (s.copyOf tile w.l layer (chunk / w.sh.chunks) w.gen = none →
      s.badShare w.l (chunk / w.sh.chunks) (s.model (s.place w.l).cfg.model) w.y w.sh = none →
      ∀ va, s.readShare w.l layer (chunk / w.sh.chunks) w.gen (s.model (s.place w.l).cfg.model) w.y w.sh = .inr va →
      ∃ t, exec (.arrayWrite tile array pslot layer digit dup chunk) s = .next t ∧
        s.counted t (Reg.KVT_PART_CNT (s.model (s.place w.l).cfg.model).part) Fld.KVT_PART_CNT_PF_DROP 1 ∧
        t = { s with regs := t.regs, tiles := t.tiles }) ∧
    ∀ cp, s.sramCopy b tile w.l layer (chunk / w.sh.chunks) w.gen (s.model (s.place w.l).cfg.model) w.y w.sh cp →
      a.stuck = [] → a.retCols = [] → bare = tins array { a with valid := false } (s.phy i).arrays →
      retiredIn bare (setArrays bare pslot layer (w.gen % 16) chunk (freeCopy bare pslot layer (w.gen % 16) chunk digit dup)) = [] →
      ∃ t c, exec (.arrayWrite tile array pslot layer digit dup chunk) s = .next t ∧ c = tget {} (t.phy i).arrays array ∧ c.valid = true ∧
        c.pslot = pslot ∧ c.layer = layer ∧ c.gen = w.gen % 16 ∧ c.digit = digit ∧ c.dup = dup ∧ c.chunk = chunk % 512 ∧
        c.win = chunk / 512 ∧
        (∀ r j, r < 32 → j < 32 → tget 0 c.cells (r * 64 + j) =
          if w.sh.nCount ≤ chunk % w.sh.chunks / w.sh.nb * 32 + j then 0
          else ((cp.block w.y w.sh (chunk % w.sh.chunks / w.sh.nb * 32 + j) (chunk % w.sh.chunks % w.sh.nb)).2.map
            (weightDigit (fmtBits w.y.wfmt) digit)).getD r 0) ∧
        (∀ n, n ≠ array → tget {} (t.phy i).arrays n = tget {} (s.phy i).arrays n) ∧
        t.tile tile = { b.tile tile with wrPtr := b2n demand } ∧ (∀ u, u ≠ tile → t.tile u = s.tile u) ∧
        t = { s with phys := t.phys, tiles := t.tiles }) ∧
  ∀ (s : State) (tile i least : Nat), tile < 1024 → s.physOf tile = some i → s.flag Reg.MDT_CFG Fld.MDT_CFG_DRIFT_OFF = false →
    least = s.fld Reg.MDT_CFG Fld.MDT_CFG_DRIFT_MIN →
    ∃ t, exec (.driftFilterUpdate tile) s = .next t ∧
      (t.phy i).arrays = ((s.phy i).arrays.map fun (a : Nat × Arr) => (a.1, (a.2.drift least).1)) ∧
      s.counted t (Reg.MDT_TILE_DRIFT tile) Fld.MDT_TILE_DRIFT_CLAMP_EV
        (((s.phy i).arrays.map fun (a : Nat × Arr) => a.2.drift least).filter Prod.snd).length ∧
      t = { s with regs := t.regs, phys := t.phys, cal := t.cal }

/-- SCORE_PASS scores a row set that the slice arbiter grants over one segment, its rows entering the group with segment 0 in the order of R148,
and yields zeros for a layer with no encoder entries (R148, R154, R160, R161); the segment passes through the stream buffer (R159). MIX_PASS
mixes the values of the next segment once every row that needs it, and the one after it, is scored (R160); HEAD_LAYER_FORWARD hands a finished
group's outputs on after the hold that follows each row's last optical pass, and counts head-layers computed in fallback (R155, R166, R172). -/
def Obligations.AttentionRunsBySegments : Prop :=
  (∀ (s : State) (tile pslot i layer head seg : Nat) (rows : List QueryRow) (v : AttnEnv), tile < 1024 → pslot < 16 →
    s.attnEnv tile pslot i layer head = some v → rows ≠ [] → rows.length ≤ 8 → (∀ r ∈ rows, r.q.length = v.att.dh) →
    (v.keys = 0 → ∃ t, exec (.scorePass tile pslot i layer head seg rows) s = .next t ∧
      (t.tile tile).attnOut = (s.tile tile).attnOut ++ rows.map (fun r => (r.head, List.replicate v.att.dh 0)) ∧
      (∀ u, u ≠ tile → t.tile u = s.tile u) ∧ t = { s with tiles := t.tiles }) ∧
    (v.keys ≠ 0 → ∀ (a a1 : Attn) (k : Nat) (b c : State) (keys : List (Int × List Int)),
      a = (s.attnAt v layer).getD { pslot := pslot, place := v.l, ctx := i, layer := layer, head := head, rows := [] } →
      a.rowSet v seg rows = some k → seg < v.segs → seg ≤ a.mixed + 1 → a.mixed ≤ seg →
      (seg = 0 ∨ a.mixed = seg ∨ a.scoredAll v (seg - 1) = true) → (∀ j ∈ v.setRows k, a.hasScore j seg = false) →
      s.sliceGrants tile pslot (some (pslot, i, layer, head, seg)) = true →
      a1 = { a with rows := a.rows ++ if seg = 0 then (rows.map (newRow v.att.dh)).map Prod.fst else [] } →
      (∃ j ∈ v.setRows k, ∃ r, a1.rows[j]? = some r ∧ v.needs r seg = true) →
      b = s.bumpBy (Reg.IND_TILE_CNT tile) Fld.IND_TILE_CNT_QKV_CLIP
        (if seg = 0 then ((rows.map (newRow v.att.dh)).map Prod.snd).sum else 0) →
      b.sbSegment v 0 seg = (c, .inl keys) →
      ∃ t g, exec (.scorePass tile pslot i layer head seg rows) s = .next t ∧ t.attnAt v layer = some g ∧ g.mixed = a.mixed ∧
        g.rows.length = a1.rows.length ∧
        (∀ j ∈ v.setRows k, ∀ r, g.rows[j]? = some r → (∃ sc, (j, seg, sc) ∈ g.scored) ∧ (s.inFallback v = false → r.optAt = some s.now) ∧
          (s.inFallback v = true → r.fb = true)) ∧
        (∀ j, j ∉ v.setRows k → g.rows[j]? = a1.rows[j]?) ∧ (t.tile tile).sb = (c.tile tile).sb ∧
        (t.tile tile).scoring = (if g.scoredAll v seg then none else some (pslot, i, layer, head, seg)) ∧
        (t.tile tile).slPtr = (if g.scoredAll v seg then (pslot + 1) % 16 else (s.tile tile).slPtr) ∧
        (∀ u, u ≠ tile → t.tile u = s.tile u) ∧ t = { s with regs := t.regs, tiles := t.tiles, free := t.free })) ∧
  (∀ (s b : State) (tile pslot i layer head seg : Nat) (v : AttnEnv) (a : Attn) (vals : List (Int × List Int)), tile < 1024 → pslot < 16 →
    s.attnEnv tile pslot i layer head = some v → s.attnAt v layer = some a → a.mixed = seg → seg < v.segs → a.scoredAll v seg = true →
    (v.segs ≤ seg + 1 ∨ a.scoredAll v (seg + 1) = true) → s.sliceGrants tile pslot none = true → s.sbSegment v 1 seg = (b, .inl vals) →
    ∃ t g, exec (.mixPass tile pslot i layer head seg) s = .next t ∧ t.attnAt v layer = some g ∧ g.mixed = seg + 1 ∧
      g.rows.length = a.rows.length ∧ (∀ z ∈ g.scored, z.2.1 ≠ seg) ∧ (t.tile tile).sb = (b.tile tile).sb ∧
      (t.tile tile).slPtr = (pslot + 1) % 16 ∧ (t.tile tile).scoring = none ∧ (∀ u, u ≠ tile → t.tile u = s.tile u) ∧
      t = { s with tiles := t.tiles, free := t.free }) ∧
  ∀ (s : State) (tile pslot i layer head at_ : Nat) (b : State) (v : AttnEnv) (a : Attn), b = s.tick at_ → tile < 1024 → pslot < 16 →
    b.attnEnv tile pslot i layer head = some v → b.attnAt v layer = some a →
    (a.mixed < v.segs ∨ (∃ r ∈ a.rows, r.holds v.step b.now = true) →
      exec (.headLayerForward tile pslot i layer head at_) s = .next b) ∧
    (v.segs ≤ a.mixed → (∀ r ∈ a.rows, r.holds v.step b.now = false) →
      ∃ t, exec (.headLayerForward tile pslot i layer head at_) s = .next t ∧
        (t.tile tile).attnOut = (b.tile tile).attnOut ++ a.rows.map (fun r => (r.head, r.out)) ∧
        (t.tile tile).attns = (b.tile tile).attns.filter (· != a) ∧
        b.counted t (Reg.IND_TILE_CNT tile) Fld.IND_TILE_CNT_FB_HL (((a.rows.filter ARow.fb).map ARow.head).eraseDups).length ∧
        (∀ u, u ≠ tile → t.tile u = b.tile u) ∧ t = { b with regs := t.regs, tiles := t.tiles })

/-! ## Entries and images that wait to be written -/

/-- COMPLETION_WRITE: the oldest entry that waits for a completion ring is written at CQ_TAIL, which then stands past it, and its vector is
raised; without room it stays, and its wait counts in CQ_FULL once (R289, R295; that one count per entry is the model's reading).
FULL_RING_REMINDER raises the vector of a ring that has stayed full for 1 ms, and a FENCE that has waited 1 s completes with DEFERRED
(R511). A vector that is masked is kept as pending (R284; log entry 20). FRAME_RETURN writes the frames that wait to the free ring as far as it
has room, and a park whose last frame leaves so is complete (R192). CONTEXT_CACHE_WRITE_BACK writes the dirty descriptors of a quadrant's cache
to the table (R222). -/
def Obligations.WaitingEntriesAreWritten : Prop :=
  (∀ (s : State) (fn ring at_ : Nat) (b : State) (o : Out) (rest : List Out) (n tail : Nat), b = s.tick at_ → fn < 64 → ring < 17 →
    (b.pair fn ring).out = o :: rest → n = o.bytes.length / 32 → tail = b.fld (Reg.SCH_RING_IDX fn ring) Fld.SCH_RING_IDX_CQ_TAIL →
    (b.cqRoom fn ring < n → ∃ t, exec (.completionWrite fn ring at_) s = .next t ∧
      (t.pair fn ring).out = { o with waited := true } :: rest ∧
      b.counted t (Reg.SCH_RING_STAT fn ring) Fld.SCH_RING_STAT_CQ_FULL (b2n !o.waited) ∧
      b.fieldsBut t [(Reg.SCH_RING_STAT fn ring, Fld.SCH_RING_STAT_CQ_FULL)] ∧ t = { b with regs := t.regs, pairs := t.pairs }) ∧
    (n ≤ b.cqRoom fn ring → ∃ t, exec (.completionWrite fn ring at_) s = .next t ∧
      t.fld (Reg.SCH_RING_IDX fn ring) Fld.SCH_RING_IDX_CQ_TAIL = (tail + n) % 2 ^ 32 ∧
      (∀ k l, k < n → l = ((b.outBytes o).drop (32 * k)).take 32 → t.rdRaw (b.cqAddr fn ring (tail + k)) l.length = l) ∧
      ((∀ r, (b.pair fn r).fence = none) → (t.pair fn ring).out = rest ∧ ∀ k, k ≠ 32 * fn + ring → tget {} t.pairs k = tget {} b.pairs k) ∧
      ((o.irq = false ∧ o.stepEnd = false) → t.pcie = b.pcie) ∧
      ((o.irq = true ∨ o.stepEnd = true) → b.decodes fn = true → b.pcie.msixOn.contains fn = true →
        (∀ m ∈ b.pcie.msix, m.1 = fn → m.2.1 = ring → m.2.2 + 1000 ≤ b.now) →
        (b.masked fn ring = false → t.pcie = { b.pcie with msix := (fn, ring, b.now) :: b.pcie.msix }) ∧
        (b.masked fn ring = true → t.pcie.msix = b.pcie.msix ∧ t.pcie.pendingBits.contains (32 * fn + ring) = true)) ∧
      b.fieldsBut t [(Reg.SCH_RING_IDX fn ring, Fld.SCH_RING_IDX_CQ_TAIL), (Reg.SCH_FN_STAT fn, Fld.SCH_FN_STAT_DISCARD)] ∧
      t = { b with regs := t.regs, pairs := t.pairs, mem := t.mem, pcie := t.pcie })) ∧
  (∀ (s : State) (fn ring at_ : Nat) (b : State) (o : Out) (rest : List Out), b = s.tick at_ → fn < 64 → ring < 17 →
    (b.pair fn ring).out = o :: rest → o.waited = true → b.cqRoom fn ring < o.bytes.length / 32 → o.since + 1000000 ≤ b.now →
    (∀ m ∈ b.pcie.msix, m.1 = fn → m.2.1 = ring → m.2.2 + 1000000 ≤ b.now) →
    (b.decodes fn = false ∨ b.pcie.msixOn.contains fn = false → exec (.fullRingReminder fn ring at_) s = .next b) ∧
    (b.decodes fn = true → b.pcie.msixOn.contains fn = true →
      (b.masked fn ring = false → exec (.fullRingReminder fn ring at_) s =
        .next { b with pcie := { b.pcie with msix := (fn, ring, b.now) :: b.pcie.msix } }) ∧
      (b.masked fn ring = true → exec (.fullRingReminder fn ring at_) s =
        .next { b with pcie := { b.pcie with
          pendingBits := (32 * fn + ring) :: b.pcie.pendingBits.filter (· != 32 * fn + ring) } }))) ∧
  (∀ (s : State) (fn ring at_ : Nat) (b : State) (h : Hdr) (t0 : Nat) (w : List (Nat × List Nat)), b = s.tick at_ → fn < 64 → ring < 17 →
    (b.pair fn ring).fence = some (h, t0, w) →
    (t0 + 1000000000 ≤ b.now → exec (.fenceTimeout fn ring at_) s =
      .next ((b.setPair fn ring { b.pair fn ring with fence := none }).reply h 0x0A stDeferred 0 0)) ∧
    (b.now < t0 + 1000000000 → exec (.fenceTimeout fn ring at_) s = .next b)) ∧
  (∀ (s : State) (p n : Nat) (x y : Part) (slot : Nat → Nat), p < 64 → x = s.part p → n = min (s.freeRoom p) x.returns.length →
    y = { x with returns := x.returns.drop n } →
    (∀ k, slot k = s.fld (Reg.KVT_FREE_RING p) Fld.KVT_FREE_RING_BASE * 4096 +
      (s.fld (Reg.KVT_FREE_IDX p) Fld.KVT_FREE_IDX_TAIL + k) % 2 ^ s.fld (Reg.KVT_FREE_RING p) Fld.KVT_FREE_RING_LOG2SIZE * 8) →
    (∀ k, k < n → s.admits p (slot k) 8 = true) →
    ((∀ w ∈ x.retWaits, ∃ f ∈ w.frames, ∃ e ∈ y.returns, e.1 = f) →
    ∃ t, exec (.frameReturn p) s = .next t ∧ t.part p = y ∧ (∀ q, q ≠ p → t.part q = s.part q) ∧
      t.fld (Reg.KVT_FREE_IDX p) Fld.KVT_FREE_IDX_TAIL = (s.fld (Reg.KVT_FREE_IDX p) Fld.KVT_FREE_IDX_TAIL + n) % 2 ^ 32 ∧
      (∀ k e, k < n → x.returns[k]? = some e → t.rdMem p (slot k) 8 = leBytes 8 (e.1 % 2 ^ 42 + e.2 % 16 * 2 ^ 60)) ∧
      s.fieldsBut t [(Reg.KVT_FREE_IDX p, Fld.KVT_FREE_IDX_TAIL)] ∧ t = { s with regs := t.regs, parts := t.parts, mem := t.mem }) ∧
    ∀ w m, x.retWaits = [w] → (∀ f ∈ w.frames, ∀ e ∈ y.returns, e.1 ≠ f) → (s.auxOf w.ctx).park = some m → (s.ctx w.ctx).st = .paused →
      ∃ t, exec (.frameReturn p) s = .next t ∧ t.part p = { y with retWaits := [] } ∧
        t.ctx w.ctx = { s.ctx w.ctx with st := .parked, parkExt := m.extent, timestamp := s.time } ∧ (∀ j, j ≠ w.ctx → t.ctx j = s.ctx j) ∧
        (t.auxOf w.ctx).park = none ∧ (m.reply = none → t.pairs = s.pairs)) ∧
  ∀ (s : State) (q : Nat), q < 4 → (s.sysRegion).2 ≠ 0 → ∃ t, exec (.contextCacheWriteBack q) s = .next t ∧
    (∀ i ∈ s.cached q, (t.auxOf i).dirty = false ∧ ((s.auxOf i).dirty = true →
      t.rdMem 0 (s.fld Reg.SCH_CTX_TBL Fld.SCH_CTX_TBL_BASE * 2 ^ 28 + 64 * i) 64 = s.descriptor i)) ∧
    (∀ i, i ∉ s.cached q → t.auxOf i = s.auxOf i) ∧ t = { s with aux := t.aux, mem := t.mem }

/-- PARK_COMPLETE: the image stands in host memory, the frames go back with REASON 2, and the context is PARKED at its extents, at once or when
the free ring has taken its last frame (R192, R201, R202). RESTORE_COMPLETE: the extents are free again and the context takes up what waited for
it, or is PAUSED anew (R203). SCREE_SCAN, once per 10 ms: a context PAUSED longer than PARK_AFTER begins to park, one PARKED for TTL expires, under
the settings in force for its placement (R201, R204, R206). -/
def Obligations.ContextsArePaged : Prop :=
  (∀ (s : State) (i at_ : Nat) (b u v : State) (m : Move) (c : Ctx) (fs : List Nat), b = s.tick at_ → i < 4194304 →
    (b.auxOf i).park = some m → c = b.ctx i → c.st = .paused → u = (b.under c.placement fun s => s.writePark i m) →
    fs = ((u.asOf c.placement).framesOf c).map Prod.snd → v = u.freeFrames c 2 →
    (b.parkFreed i = true → exec (.parkComplete i at_) s = .next b) ∧
    (b.parkFreed i = false → ∃ t, exec (.parkComplete i at_) s = .next t ∧ t.hostMem = u.hostMem ∧ (∀ j, j ≠ i → t.ctx j = b.ctx j) ∧
      (t.part c.part).returns = (v.part c.part).returns ∧
      ((u.asOf c.placement).freeRoom c.part = 0 →
        (t.part c.part).returns = (b.part c.part).returns ++ fs.map fun (f : Nat) => (f, 2)) ∧
      (v.retLeft c.part fs = [] → t.ctx i = { c with st := .parked, parkExt := m.extent, timestamp := b.time } ∧
        (t.auxOf i).park = none ∧ (m.reply = none → t.pairs = b.pairs)) ∧
      (v.retLeft c.part fs ≠ [] → t.ctx i = c ∧ (t.auxOf i).park = some m ∧ t.pairs = b.pairs ∧
        (t.part c.part).retWaits = (b.part c.part).retWaits ++ [⟨i, fs⟩]))) ∧
  (∀ (s : State) (i at_ : Nat) (b : State) (m : Move), b = s.tick at_ → i < 4194304 → (b.auxOf i).restore = some m → m.ready = true →
    (b.ctx i).st = .parked → (b.ctx i).held = [] →
    (m.thenOp = none ∨ ∃ g d p, m.thenOp = some (.resume g d p) ∨ ∃ va n g' , m.thenOp = some (.append va n g' d p)) →
    ∃ t, exec (.restoreComplete i at_) s = .next t ∧
      t.ctx i = (match m.thenOp with
        | none => { b.ctx i with st := .paused, timestamp := b.time }
        | some op => { (b.ctx i).after op with timestamp := b.time }) ∧
      (∀ j, j ≠ i → t.ctx j = b.ctx j) ∧ (t.auxOf i).restore = none ∧
      (t.part (b.ctx i).part).extents = (b.part (b.ctx i).part).extents.filter (fun (e : Nat × Nat) => e.1 != m.extent) ∧
      (m.reply = none → t.pairs = b.pairs)) ∧
  ∀ (s : State) (at_ : Nat) (b : State), b = s.tick at_ →
    (b.sched.scanAt = b.time / 10000000 + 1 → exec (.screeScan at_) s = .next b) ∧
    (b.sched.scanAt ≠ b.time / 10000000 + 1 → ∃ t, exec (.screeScan at_) s = .next t ∧ t.sched.scanAt = b.time / 10000000 + 1 ∧
      (∀ i ∈ tkeys b.ctxs, ∀ c r w, c = b.ctx i → r = Reg.KVT_SCREE_CFG c.part → w = b.asOf c.placement →
        (c.st = .parked → (b.auxOf i).restore = none → c.timestamp + w.fld r Fld.KVT_SCREE_CFG_TTL * 1000000000 ≤ b.time →
          t.ctx i = { c with st := .expired, timestamp := b.time }) ∧
        (c.st = .parked → b.time < c.timestamp + w.fld r Fld.KVT_SCREE_CFG_TTL * 1000000000 → t.ctx i = c) ∧
        (c.st = .paused → (b.auxOf i).restore = none → b.inStep i = false → w.flag r Fld.KVT_SCREE_CFG_PARK_OFF = false →
          (w.fld r Fld.KVT_SCREE_CFG_PARK_AFTER = 0 ∨ c.timestamp + w.fld r Fld.KVT_SCREE_CFG_PARK_AFTER * 100000000 < b.time) →
          (t.auxOf i).park.isSome = true ∨ 0 < t.fld (Reg.KVT_PART_CNT c.part) Fld.KVT_PART_CNT_PARK_NOSPACE) ∧
        (c.st ≠ .parked → t.ctx i = c)) ∧
      t = { b with regs := t.regs, sched := t.sched, ctxs := t.ctxs, aux := t.aux, parts := t.parts, mem := t.mem, twin := t.twin,
                   fabric := t.fabric, ports := t.ports, globalLog := t.globalLog, pcie := t.pcie })

/-! ## Cairns, swaps and scrubs -/

/-- At a quadrant cairn the READY spares switch in, deeply faded wavelengths without a spare derate, and tiles decided retired are replaced
(R20, R338, R341, R343); a global cairn is one for every quadrant and tile that waits for one, and switches the firmware banks of an activation
(R228, R485). A tile's cairn gives its index to the spare, or fences the placements that list it (R20, R21, R498). A swap's hold begins when all
its placements stand at the barrier, and its end, once resident arrays hold the new image, brings in the next generation (R274). Scrubs count and
log what they find, and staged shares are read again from the stacks (R499, R501; log entry 98). -/
def Obligations.CairnsSwapsAndScrubsTakeEffect : Prop :=
  (∀ (s : State) (q at_ : Nat) (b : State), b = s.tick at_ → q < 4 →
    (b.clk.quadWant.contains q = false ∨ (b.present.any fun l => b.inQuad l q) = true ∨ b.swapBusy q = true →
      exec (.quadrantCairn q at_) s = .next b) ∧
    (b.clk.quadWant.contains q = true → (b.present.any fun l => b.inQuad l q) = false → b.swapBusy q = false →
      ∃ t, exec (.quadrantCairn q at_) s = .next t ∧ t.clk.quadWant = b.clk.quadWant.filter (· != q) ∧
        (∀ n ∈ b.readySpares q, t.lasSt n = 4 ∧ t.onBus n = true ∧ t.lasSt (primaryOf n) = 5 ∧ t.onBus (primaryOf n) = false) ∧
        b.counted t (Reg.LAS_BANK q) Fld.LAS_BANK_SWAPS (b.readySpares q).length ∧
        (b.readySpares q = [] → ∀ x ∈ b.toDerate q, (t.laser x.1).derated = true) ∧
        ∀ tile ∈ b.clk.tileWant, tile / 256 = q → (b.tile tile).retiring.isSome = true → b.tileCairnNow tile = true →
          (t.tile tile).retiring = none)) ∧
  (∀ (s : State) (at_ : Nat) (b : State), b = s.tick at_ →
    (b.atGlobalCairn = false → exec (.globalCairn at_) s = .next b) ∧
    (b.atGlobalCairn = true → ∃ t, exec (.globalCairn at_) s = .next t ∧
      (∀ q, q < 4 → b.swapBusy q = false → t.clk.quadWant.contains q = false) ∧
      (∀ tile ∈ b.clk.tileWant, (t.tile tile).retiring = none) ∧
      (∀ h bank, b.fw.act = some (h, bank) → b.fw.cairnWanted = true → b.fw.phase = 2 → t.fw.phase = 3 ∧ t.fw.releasedAt = b.now ∧
        t.fw.cairnWanted = false ∧ t.fw.prevBank = b.fld Reg.FWP_BOOT Fld.FWP_BOOT_BOOTED_BANK ∧
        t.fld Reg.FWP_BOOT Fld.FWP_BOOT_BOOTED_BANK = bank % 2 ∧ ∀ i, i < 8 → t.alive i = false))) ∧
  (∀ (s : State) (tile at_ : Nat) (b : State), b = s.tick at_ → tile < 1024 →
    ((b.tile tile).retiring = none ∨ b.tileCairnNow tile = false → exec (.tileCairn tile at_) s = .next b) ∧
    ((b.tile tile).retiring.isSome = true → b.tileCairnNow tile = true → ∃ t, exec (.tileCairn tile at_) s = .next t ∧
      (t.tile tile).retiring = none ∧ t.clk.tileWant = b.clk.tileWant.filter (· != tile) ∧
      ((b.physOf tile).isSome = true → t.clk.mapDirty = some (b.clk.mapDirty.getD b.now))) ∧
    (∀ j, (b.tile tile).retiring.isSome = true → b.tileCairnNow tile = true → (b.tile tile).spare = some j → j < 1088 →
      ∃ t, exec (.tileCairn tile at_) s = .next t ∧ t.fld (Reg.CFG_TILE_MAP tile) Fld.CFG_TILE_MAP_X = j % 272 % 17 ∧
        t.fld (Reg.CFG_TILE_MAP tile) Fld.CFG_TILE_MAP_Y = j % 272 / 17 ∧ t.flag (Reg.CFG_TILE_MAP tile) Fld.CFG_TILE_MAP_SPARE_IN = true ∧
        t.logicalOf j = some tile ∧ (∀ i, b.physOf tile = some i → i < 1088 → i ≠ j → t.physSt i = 2)) ∧
    ((b.tile tile).retiring.isSome = true → b.tileCairnNow tile = true → (b.tile tile).spare = none →
      ∃ t, exec (.tileCairn tile at_) s = .next t ∧ t.physOf tile = none ∧ (t.tile tile).unavail = true ∧
        ∀ l ∈ b.placesOn tile, (t.place l).fenced = true)) ∧
  (∀ (s : State) (m at_ : Nat) (b : State) (w : Swap), b = s.tick at_ → m < 4096 → (b.model m).swap = some w → w.bound ≠ 0 → w.holdAt = none →
    ((∀ l ∈ b.placesOfModel m, (b.place l).barrier = true ∧ (b.place l).step = none) →
      (b.chainOf w.op = none → exec (.swapHold m at_) s =
        .next (b.setModel m { b.model m with swap := some { w with holdAt := some b.now } })) ∧
      ((∀ o, b.longOf w.op = some o → ∃ p im, o.pkt = .modelSwap p im) → ∃ t, exec (.swapHold m at_) s = .next t ∧
        t.model m = { b.model m with swap := some { w with holdAt := some b.now } } ∧ (∀ k, k ≠ m → t.model k = b.model k) ∧
        t.places = b.places ∧ t.mem = b.mem)) ∧
    ((∃ l ∈ b.placesOfModel m, (b.place l).barrier = false ∨ (b.place l).step.isSome = true) → exec (.swapHold m at_) s = .next b)) ∧
  (∀ (s : State) (m at_ : Nat) (b : State) (w : Swap) (t0 gen : Nat) (o : LongOp), b = s.tick at_ → m < 4096 → (b.model m).swap = some w →
    w.holdAt = some t0 → b.longOf w.op = some o → gen = ((b.model m).gen + 1) % 2 ^ 32 →
    (o.done < o.total ∨ (∃ l ∈ b.placesOfModel m, b.swapFilled l gen w.img = false) → exec (.swapComplete m at_) s = .next b) ∧
    (o.total ≤ o.done → (∀ l ∈ b.placesOfModel m, b.swapFilled l gen w.img = true) →
      ∃ u : State, exec (.swapComplete m at_) s = .next (((u.dropChain o.id).endLong o stOK gen
          (min ((b.now - t0) / 1000) (2 ^ 32 - 1) + min w.bound (2 ^ 32 - 1) * 2 ^ 32)).cairnReplies) ∧
        u.model m = { b.model m with st := .loaded, gen := gen, img := w.img, swap := none } ∧ (∀ k, k ≠ m → u.model k = b.model k) ∧
        (∀ l ∈ b.placesOfModel m, u.place l = { b.place l with barrier := false }) ∧
        (∀ l, l ∉ b.placesOfModel m → u.place l = b.place l) ∧
        u = { b with models := u.models, places := u.places, tiles := u.tiles, regs := u.regs, parts := u.parts, globalLog := u.globalLog,
                     pcie := u.pcie })) ∧
  ∀ (s : State) (addr : Nat) (corrected uncorrectable : Bool) (c u : Nat), c = b2n corrected → u = b2n uncorrectable →
    (addr < memEnd → ∃ t, exec (.patrolScrub addr corrected uncorrectable) s = .next t ∧
      s.counted t (Reg.MEM_ECC (stackOf addr)) Fld.MEM_ECC_CE c ∧ s.counted t (Reg.MEM_ECC (stackOf addr)) Fld.MEM_ECC_UE u ∧
      (uncorrectable = true → addr / 32 ∈ t.mem.poison ∧
        t.faultLog.entries.getLast? = some ⟨s.time, 0x0201, 2, srcHw, 1, leBytes 8 addr⟩) ∧
      s.sameMemory t ∧ t = { s with regs := t.regs, mem := t.mem, faultLog := t.faultLog }) ∧
    ∀ tile off, tile < 1024 → off < tileSram → addr = memEnd + tile * tileSram + off →
      ∃ t, exec (.patrolScrub addr corrected uncorrectable) s = .next t ∧
        s.counted t (Reg.TILE_FLT tile) Fld.TILE_FLT_ECC_CE c ∧ s.counted t (Reg.TILE_FLT tile) Fld.TILE_FLT_ECC_UE u ∧
        (uncorrectable = false → t = { s with regs := t.regs }) ∧
        (uncorrectable = true → off < ((s.tile tile).staged.map Prod.snd).sum →
          t.faultLog.entries.getLast? = some ⟨s.time, 0x0201, 2, srcHw, 0, leBytes 8 (tile * tileSram + off)⟩ ∧
          (∀ c ∈ (t.tile tile).copies, c.place ∈ s.placesOn tile → c.layer < s.stagedLayers c.place →
            ∃ y sh, s.readShare c.place c.layer c.expert c.gen (s.model (s.place c.place).cfg.model) y sh = .inl c) ∧
          (∀ k, k ≠ tile → t.tile k = s.tile k) ∧ t = { s with regs := t.regs, faultLog := t.faultLog, tiles := t.tiles, parts := t.parts,
                                                               globalLog := t.globalLog, pcie := t.pcie }) ∧
        (uncorrectable = true → ((s.tile tile).staged.map Prod.snd).sum ≤ off → ∀ l ∈ s.placesOn tile, (s.place l).step.isSome = true →
          ∃ st, (t.place l).step = some st ∧ st.restarted = true)


/-! ## Calibration and tests at work -/

/-- CAL_TRIGGER_CHECK requests what has moved by more than DT_CAL since its last run (R405); slices take runs further between steps, keep the
steps of their tile waiting and alternate with test slices (R406, R407, R503), and a full run begins once no step uses the slice (R409).
CAL_RUN_END stores an accepted run, a light run with the heater codes, window and trims of the last full one, keeps the old values of a rejected
one with one fault-log entry, discards a run over which the band changed, and treats a lane whose BER fails as a failing lane (R404, R410, R411,
R415). CAL_FLASH_RECORD, when the flash arbiter grants it, keeps a record in the older of two slots, or logs the write that failed (R415, R470). -/
def Obligations.CalibrationRunsBetweenSteps : Prop :=
  (∀ (s : State) (at_ : Nat) (b : State) (lim : Int), b = s.tick at_ →
    lim = 4 * (max 1 (b.fld Reg.CFG_CAL_CTL Fld.CFG_CAL_CTL_DT_CAL) : Nat) →
    (b.time / 1000000 < b.cal.checkAt → exec (.calTriggerCheck at_) s = .next b) ∧
    (b.cal.checkAt ≤ b.time / 1000000 → ∃ t, exec (.calTriggerCheck at_) s = .next t ∧ t.cal.checkAt = b.time / 1000000 + 1 ∧
      ∀ (e : Nat × Option Int) (v : Int) (o : CalObj), e ∈ b.cal.tempAt → e.2 = some v → o ∈ calParts (keyObj e.1) →
        (lim < b.calTemp (keyObj e.1) - v ∨ b.calTemp (keyObj e.1) - v < -lim) →
        (∃ x ∈ t.cal.held, calKey x = calKey o) ∨ ∃ x ∈ t.cal.running, calKey x.1 = calKey o)) ∧
  (∀ (s : State) (i at_ : Nat) (b : State) (mine : CalObj → Bool), b = s.tick at_ → i < 1088 →
    (∀ o, mine o = (calPhys o == some i && b.calUp o)) →
    (b.physSt i = 2 ∨ b.critical = true ∨ b.sliceMay i = false ∨ (b.phy i).slicePtr = 1 ∧ b.testWants i = true →
      exec (.calibrationSlice i at_) s = .next b) ∧
    (b.physSt i ≠ 2 → b.critical = false → b.sliceMay i = true → ((b.phy i).slicePtr ≠ 1 ∨ b.testWants i = false) →
      ∀ (p : Option (CalObj × Nat × Nat)), p = (b.cal.running.find? fun (x : CalObj × Nat × Nat) => mine x.1 && decide (x.2.1 < slicesOf x.1)) →
      (∀ x, p = some x ∨ p = none ∧ (b.cal.held.find? fun o => mine o && !(b.inRun o)) = some x.1 ∧ x.2 = (0, b.calBand x.1) ∧
          (∀ c, x.1 ≠ .cluster c true) →
        ∃ t, exec (.calibrationSlice i at_) s = .next t ∧
          (∃ y ∈ t.cal.running, calKey y.1 = calKey x.1 ∧ y.2.1 = x.2.1 + 1 ∧ y.2.2 = x.2.2) ∧ (t.phy i).calBusyUntil = b.now + 1500 ∧
          (t.phy i).slicePtr = 1 ∧
          (∀ tile l st, b.logicalOf i = some tile → l ∈ b.placesOn tile → (b.place l).step = some st →
            ∃ st', (t.place l).step = some st' ∧ st'.marks.contains tile = true) ∧
          t = { b with cal := t.cal, phys := t.phys, places := t.places }) ∧
      (∀ c, p = none → (b.cal.held.find? fun o => mine o && !(b.inRun o)) = some (.cluster c true) →
        (b.sliceInUse i = true → exec (.calibrationSlice i at_) s = .next b) ∧
        (b.sliceInUse i = false → ∃ t, exec (.calibrationSlice i at_) s = .next t ∧
          (CalObj.cluster (clusterOf i) true, 0, b.calBand (.cluster (clusterOf i) true)) ∈ t.cal.running ∧ t = { b with cal := t.cal })) ∧
      (p = none → (b.cal.held.find? fun o => mine o && !(b.inRun o)) = none → exec (.calibrationSlice i at_) s = .next b))) ∧
  (∀ (s : State) (obj o : CalObj) (res : CalResult) (at_ n band : Nat) (b : State), b = s.tick at_ →
    (b.cal.running.find? fun (x : CalObj × Nat × Nat) => calKey x.1 == calKey obj) = some (o, n, band) →
    (b.startingUp o = true ∨ slicesOf o ≤ n) →
    (b.calBand o ≠ band → ∃ t, exec (.calRunEnd obj res at_) s = .next t ∧ t.cal.abandoned = min (b.cal.abandoned + 1) (2 ^ 32 - 1) ∧
      t.cal.store = b.cal.store ∧ t.cal.runs = b.cal.runs ∧ t.cal.rejects = b.cal.rejects) ∧
    (b.calBand o = band → (∀ i, o = .lane i → res.berOk = true) →
      (b.plausible o band res = true → ∃ t, exec (.calRunEnd obj res at_) s = .next t ∧ t.cal.runs = min (b.cal.runs + 1) (2 ^ 32 - 1) ∧
        t.cal.lastTime = b.time ∧ t.calSet o band = some (b.setOf o band res) ∧ t.cal.rejects = b.cal.rejects) ∧
      (b.plausible o band res = false → ∃ t, exec (.calRunEnd obj res at_) s = .next t ∧
        t.cal.rejects = min (b.cal.rejects + 1) (2 ^ 32 - 1) ∧ t.cal.store = b.cal.store ∧ t.cal.runs = b.cal.runs ∧
        ((∀ i, o = .tile i → res.stuck = [] ∧ res.erratic = []) → t.faultLog = (b.calFault o).faultLog))) ∧
    (∀ i, b.calBand o = band → o = .lane i → i < 408 → res.berOk = false → ∃ t, exec (.calRunEnd obj res at_) s = .next t ∧
      t.cal.store = b.cal.store ∧ t.cal.runs = b.cal.runs ∧ t.cal.rejects = b.cal.rejects ∧
      t.flag (Reg.LNK_LANE i) Fld.LNK_LANE_TESTED = false ∧ t.fld (Reg.LNK_LANE i) Fld.LNK_LANE_MARGIN = res.margin.1 % 256)) ∧
  ∀ (s : State) (obj o : CalObj) (ok : Bool) (band : Nat) (b : State),
    (s.cal.toFlash.find? fun (x : CalObj × Nat) => calKey x.1 == calKey obj) = some (o, band) →
    b = { s with
      cal := { s.cal with toFlash := s.cal.toFlash.filter fun (x : CalObj × Nat) => !(calKey x.1 == calKey o && x.2 == band) }
      flash := { s.flash with
        calRecs := writeRec s.flash.calRecs o (recBand o band) (if ok then some (s.flashRecord o band) else none) }
      fw := { s.fw with flashPtr := 2 } } →
    (s.flashMay 1 = false → exec (.calFlashRecord obj ok) s = .next s) ∧
    (s.flashMay 1 = true → ok = false → exec (.calFlashRecord obj ok) s = .next (b.calFault o)) ∧
    (s.flashMay 1 = true → ok = true → exec (.calFlashRecord obj ok) s = .next b ∧
      ∃ x ∈ b.flash.calRecs, calKey x.obj = calKey o ∧ x.band = recBand o band ∧ x.content = some (s.flashRecord o band))

/-- TEST_DUE makes a pair's round due on both its tiles (R503). TEST_SLICE, alternating with calibration, counts the slices of a round; the sixteenth stores the
signature, equal signatures of the pair end the round of both and unequal ones send both to their third tile, whose signature passes the one
that matches it (R503, R504). TEST_OVERDUE logs a withdrawal and holds the tile's placements; at its cairn the tile is tested in one piece
and returns when its partner's signature matches (R505). -/
def Obligations.TilesAreTestedInPairs : Prop :=
  (∀ (s : State) (k at_ i per off n : Nat) (b : State), b = s.tick at_ → k < 1024 + 1088 →
    per = b.fld Reg.TILE_TEST_CFG Fld.TILE_TEST_CFG_PERIOD * 60000000000 → b.testPhys k = some i →
    off = (if k < 1024 then k % 256 / 2 else ((b.spareSubjects (testQuad k)).findIdx? (· == k)).getD 0 / 2) * per / 128 →
    n = (b.time - off) / per →
    (per = 0 ∨ b.time < off → exec (.testDue k at_) s = .next b) ∧
    (per ≠ 0 → off ≤ b.time → (∀ d, (b.phy i).dueAt = some d → n * per + off ≤ d) → exec (.testDue k at_) s = .next b) ∧
    (per ≠ 0 → off ≤ b.time → ((b.phy i).dueAt = none ∨ ∃ d, (b.phy i).dueAt = some d ∧ d < n * per + off) → b.testSt k = 0 →
      ∃ t, exec (.testDue k at_) s = .next t ∧ (t.phy i).testRound = n ∧ (t.phy i).dueAt = some b.time ∧ (t.phy i).testSlices = 0 ∧
        t.testSt k = 1 ∧
        (∀ m j, b.testMate k 1 = some m → b.testPhys m = some j → b.testSt m = 0 → t.testSt m = 1 ∧ (t.phy j).testRound = n) ∧
        t = { b with regs := t.regs, phys := t.phys })) ∧
  (∀ (s : State) (k at_ i : Nat) (sig : Word64) (b : State), b = s.tick at_ → k < 1024 + 1088 → b.testPhys k = some i →
    (b.sliceMay i = false ∨ (b.phy i).slicePtr = 0 ∧ b.calWants i = true → exec (.testSlice k at_ sig) s = .next b) ∧
    (b.sliceMay i = true → ((b.phy i).slicePtr ≠ 0 ∨ b.calWants i = false) → b.thirdFor k = none → (b.testSt k = 1 ∨ b.testSt k = 2) → (b.phy i).testKind = 0 →
      ((b.phy i).testSlices + 1 < 16 → ∃ t, exec (.testSlice k at_ sig) s = .next t ∧ (t.phy i).testSlices = (b.phy i).testSlices + 1 ∧
        (t.phy i).calBusyUntil = b.now + 1500 ∧ (t.phy i).slicePtr = 0 ∧ t.testSt k = 2 ∧ t = { b with regs := t.regs, phys := t.phys, places := t.places }) ∧
      (∀ m, 16 ≤ (b.phy i).testSlices + 1 → b.testMate k 1 = some m → m ≠ k →
        (b.testSt m ≠ 3 ∨ b.roundOf m ≠ b.roundOf k → ∃ t, exec (.testSlice k at_ sig) s = .next t ∧ t.testSt k = 3 ∧
          t.sigOf k (b.roundOf k) = some sig) ∧
        (b.testSt m = 3 → b.roundOf m = b.roundOf k → b.sigOf m (b.roundOf k) = some sig → ∃ t,
          exec (.testSlice k at_ sig) s = .next t ∧ t.testSt k = 0 ∧ t.testSt m = 0 ∧
          t.testFld k Fld.TILE_TEST_PASS = min 255 (b.testFld k Fld.TILE_TEST_PASS + 1) ∧
          t.testFld m Fld.TILE_TEST_PASS = min 255 (b.testFld m Fld.TILE_TEST_PASS + 1) ∧
          t.testFld k Fld.TILE_TEST_LAST_DONE = b.time / 1000000000 % 2 ^ 32) ∧
        (b.testSt m = 3 → b.roundOf m = b.roundOf k → b.sigOf m (b.roundOf k) ≠ some sig → b.testPhys m ≠ some i →
          (b.testMate (min k m) 2).isSome = true → ∃ t, exec (.testSlice k at_ sig) s = .next t ∧ t.testSt k = 4 ∧ t.testSt m = 4))) ∧
    (∀ x m, b.sliceMay i = true → ((b.phy i).slicePtr ≠ 0 ∨ b.calWants i = false) → b.thirdFor k = some (x, m) →
      ((b.phy i).third + 1 ≠ 16 → ∃ t, exec (.testSlice k at_ sig) s = .next t ∧ (t.phy i).third = (b.phy i).third + 1 ∧
        t = { b with phys := t.phys, places := t.places }) ∧
      ((b.phy i).third + 1 = 16 → b.sigOf x (b.roundOf x) = some sig → ∃ t, exec (.testSlice k at_ sig) s = .next t ∧ t.testSt x = 0 ∧
        t.testFld x Fld.TILE_TEST_PASS = min 255 (b.testFld x Fld.TILE_TEST_PASS + 1)))) ∧
  ∀ (s : State) (k at_ i : Nat) (sig : Word64) (b : State) (late : Bool), b = s.tick at_ → k < 1024 + 1088 → b.testPhys k = some i →
    late = (b.testSt k != 0 && (match (b.phy i).dueAt with
      | some d => decide (d + 1000000000 ≤ b.time)
      | none => false)) →
    ((b.phy i).testKind = 0 → late = false → b.resOverdue k = false → exec (.testOverdue k at_ sig) s = .next b) ∧
    ((b.phy i).testKind ≠ 2 → late = true ∨ b.resOverdue k = true → b.testSt k ≠ 0 → k < 1024 → b.tileCairnNow k = false →
      ∃ t, exec (.testOverdue k at_ sig) s = .next t ∧ t.testFld k Fld.TILE_TEST_OVERDUE = 1 ∧ (t.phy i).testKind = 2 ∧
        (∀ l ∈ b.placesOn k, (t.place l).testHold = true) ∧
        t.faultLog.entries.getLast? = some ⟨b.time, 0x0103, 1, srcHw, k, leBytes 4 (b.roundOf k)⟩ ∧
        t = { b with regs := t.regs, phys := t.phys, places := t.places, tiles := t.tiles, faultLog := t.faultLog }) ∧
    (∀ m, (b.phy i).testKind ≠ 0 ∨ late = true → b.testSt k ≠ 0 → b.testSt k ≠ 4 → (1024 ≤ k ∨ b.tileCairnNow k = true) →
      b.testMate k 1 = some m → m ≠ k → b.testSt m = 3 → b.roundOf m = b.roundOf k → b.sigOf m (b.roundOf k) = some sig →
      ∃ t, exec (.testOverdue k at_ sig) s = .next t ∧ t.testSt k = 0 ∧ t.testSt m = 0 ∧
        t.testFld k Fld.TILE_TEST_PASS = min 255 (b.testFld k Fld.TILE_TEST_PASS + 1))

/-! ## Lasers and rings -/

/-- A lock alarm, or a heater at its limit, sends a ring that is locked back to acquisition and counts (R326, R344). The loop of a ring in lock
never drives its heater beyond HTR_MAX (R327). A tone window confirms a VERIFIED ring whose tone alone stands 10 dB above every other and 20 dB
above the noise floor, or reports a tone-path fault (R329, R331); a ring under acquisition is captured at its nearest candidate, judged once
it has stood LOCKED for the window, and tried at the second; with none left or beyond 48 us the ring fails and its cluster's calibration is
requested (R332 to R334). The instants of capture and judgement are the model's reading (log entry 87). -/
def Obligations.RingsFollowTheirTones : Prop :=
  (∀ (s : State) (c r at_ : Nat) (b : State) (x : Ring) (i : Instr), b = s.tick at_ → clusterOk c = true → r < clusterRings c → x = b.ring c r →
    i = .lockAlarm c r at_ ∨ i = .heaterLimit c r at_ →
    (x.locked = false → exec i s = .next b) ∧
    (x.locked = true → ∃ t, exec i s = .next t ∧
      t.ring c r = { x with st := .acquiring, since := b.now, tried := 0, sweeping := b.pcp (c / 512), matchedAt := none } ∧
      b.counted t (Reg.RNG_CLU_STAT c) Fld.RNG_CLU_STAT_ALARMS 1 ∧
      b.counted t (Reg.RNG_QCNT (c / 512)) Fld.RNG_QCNT_PCP_GAP (b2n !(b.pcp (c / 512))) ∧
      (∀ k, k ≠ c * 128 + r → tget {} t.rings k = tget {} b.rings k) ∧ t.lasers = b.lasers ∧ t.ports = b.ports ∧ t.mem = b.mem)) ∧
  (∀ (s : State) (c r quality at_ : Nat) (tones : List (Nat × Int)) (errs : List Int) (a b : State) (x : Ring) (tone : Tone) (age : Nat),
    a = s.tick at_ → b = a.loopWindow c r errs → clusterOk c = true → r < clusterRings c → x = b.ring c r →
    tone = toneOf (targetTone c r) tones → age = b.now - x.since →
    (x.st = .verified → tone = .matched → ∃ t, exec (.toneWindow c r ⟨tones, errs⟩ quality at_) s = .next t ∧
      t.ring c r = { x with matchedAt := some b.now, quality := quality } ∧
      (errs ≠ [] → x.htrMax ≠ 0 → (t.ring c r).drive ≤ x.htrMax) ∧ t = { a with regs := t.regs, rings := t.rings }) ∧
    (x.st = .verified → tone ≠ .matched → ∃ t, exec (.toneWindow c r ⟨tones, errs⟩ quality at_) s = .next t ∧ (t.ring c r).st = .acquiring ∧
      b.counted t (Reg.RNG_QCNT (c / 512)) Fld.RNG_QCNT_TONE_MIS 1 ∧ b.counted t (Reg.RNG_CLU_STAT c) Fld.RNG_CLU_STAT_ALARMS 1 ∧
      t.faultLog.entries.getLast? = some ⟨b.time, 0x0304, 1, srcHw, c, leBytes 2 r⟩) ∧
    (x.st = .unlocked ∨ x.st = .failed ∨ x.st ≠ .verified ∧ x.sweeping = false →
      exec (.toneWindow c r ⟨tones, errs⟩ quality at_) s = .next b) ∧
    (x.st = .acquiring → x.sweeping = true → age ≤ 48000 →
      (age < capturedFrom x.tried ∨ (b.candidates c r x)[x.tried]? = none ∧ age < judgedFrom 1 →
        exec (.toneWindow c r ⟨tones, errs⟩ quality at_) s = .next b) ∧
      (∀ d, capturedFrom x.tried ≤ age → (b.candidates c r x)[x.tried]? = some d →
        ∃ t, exec (.toneWindow c r ⟨tones, errs⟩ quality at_) s = .next t ∧ t.ring c r = { b.capture c r d x with quality := quality } ∧
          (t.ring c r).st = .locked ∧ t = { a with regs := t.regs, rings := t.rings })) ∧
    (x.st = .locked → x.sweeping = true → age ≤ 48000 →
      (age < judgedFrom x.tried → exec (.toneWindow c r ⟨tones, errs⟩ quality at_) s = .next b) ∧
      (judgedFrom x.tried ≤ age → tone = .matched → ∃ t, exec (.toneWindow c r ⟨tones, errs⟩ quality at_) s = .next t ∧
        t.ring c r = { x with st := .verified, sweeping := false, matchedAt := some b.now, quality := quality } ∧
        b.counted t (Reg.RNG_CLU_STAT c) Fld.RNG_CLU_STAT_RELOCKS 1 ∧
        b.counted t (Reg.RNG_QCNT (c / 512)) Fld.RNG_QCNT_WRONG_LOCK (b2n (x.tried != 0))) ∧
      (judgedFrom x.tried ≤ age → tone ≠ .matched → x.tried = 0 → ∃ t, exec (.toneWindow c r ⟨tones, errs⟩ quality at_) s = .next t ∧
        t.ring c r = { x with st := .acquiring, tried := 1 } ∧ t = { a with regs := t.regs, rings := t.rings }))) ∧
  ∀ (s : State) (c r quality at_ : Nat) (tones : List (Nat × Int)) (errs : List Int) (b : State) (x : Ring) (i : Instr), clusterOk c = true →
    r < clusterRings c → x = b.ring c r → x.st = .acquiring ∨ x.st = .locked → x.sweeping = true →
    (i = .acquisitionTimeout c r at_ ∧ b = s.tick at_ ∧ x.since + 48000 < b.now ∨
      i = .toneWindow c r ⟨tones, errs⟩ quality at_ ∧ b = (s.tick at_).loopWindow c r errs ∧ (x.since + 48000 < b.now ∨
        x.st = .acquiring ∧ judgedFrom 1 ≤ b.now - x.since ∧ (b.candidates c r x)[x.tried]? = none ∧ x.tried ≤ 1 ∨
        x.st = .locked ∧ judgedFrom x.tried ≤ b.now - x.since ∧ toneOf (targetTone c r) tones ≠ .matched ∧ x.tried ≠ 0)) →
    ∃ t, exec i s = .next t ∧ t.ring c r = { x with st := .failed, sweeping := false } ∧
      b.counted t (Reg.RNG_QCNT (c / 512)) Fld.RNG_QCNT_RING_FAIL 1 ∧
      t.faultLog.entries.getLast? = some ⟨b.time, 0x0304, 1, srcHw, c, leBytes 2 r⟩ ∧
      ∀ o ∈ calParts (.cluster c true), ∃ y ∈ t.cal.held, calKey y = calKey o

/-- The power loop moves a laser's bias a step towards its target within BIAS_MAX; the wavelength loop moves the tuning heater within the window of
its band and holds a laser that is READY or ACTIVE within 5 GHz while the heater stands inside it (R323). A fade of the laser in service is recorded with its
cause, a loss of light at once, and its spare is warmed (R335, R336, R339); without a spare a deeply faded compute wavelength waits for
the quadrant cairn that derates it (R341). A spare at COMM and on its grid is READY within 4.0 ms of the fade, or else FAILED, and an I/O spare switches in once its lane
is out of the stripe (R336, R340). -/
def Obligations.LasersFadeAndAreReplaced : Prop :=
  (∀ (s : State) (n : Nat) (pwr freq : Int) (r : RegRef) (v mx v1 st : Nat), laserOk n = true → r = Reg.LAS_BIAS n →
    v = s.fld r Fld.LAS_BIAS_BIAS → mx = s.fld r Fld.LAS_BIAS_BIAS_MAX → st = s.lasSt n →
    v1 = (if pwr < s.lasTarget n then min mx (v + 1) else if s.lasTarget n < pwr then v - 1 else v) →
    ∃ t, exec (.powerLoopUpdate n ⟨pwr, freq⟩) s = .next t ∧ t.fld r Fld.LAS_BIAS_PWR = unsigned 16 pwr ∧
      t.fld r Fld.LAS_BIAS_BIAS = (if st = 0 ∨ st = 5 then v else v1) ∧
      t.lasSt n = (if (st = 1 ∨ st = 2 ∨ st = 3) ∧ mx ≤ v1 then 5 else if st = 1 ∧ s.lasTarget n ≤ pwr then 2 else st) ∧
      (st ≠ 0 → st ≠ 5 → (t.laser n).heater = s.limitTune n (Config.tuneDrive n (s.laser n).heater freq) ∧
        ((st = 3 ∨ st = 4) → (Config.tuneWindow n (s.lasBand n)).1 < (t.laser n).heater →
          (t.laser n).heater < (Config.tuneWindow n (s.lasBand n)).2 → t.onGrid n = true)) ∧
      (∀ k, k ≠ n → t.laser k = s.laser k) ∧ t = { s with regs := t.regs, lasers := t.lasers, faultLog := t.faultLog }) ∧
  (∀ (s : State) (n at_ : Nat) (pwr : Int) (b : State) (x : Laser) (lowN cause was : Nat), b = s.tick at_ → laserOk n = true → x = b.laser n →
    lowN = (if x.lowAt + 100000000 ≤ b.now ∨ x.lowAt = 0 then
      (if pwr < b.lasTarget n - 10 * (b.fld Reg.LAS_CFG Fld.LAS_CFG_FADE_DB : Nat) then x.lowN + 1 else 0) else x.lowN) →
    cause = (if x.dark = true then 0 else b.fadeTrigger n pwr lowN) → was = b.fadeCause n →
    (b.onBus n = false → exec (.fadeEvaluation n pwr at_) s = .next b) ∧
    (b.onBus n = true → ∃ t, exec (.fadeEvaluation n pwr at_) s = .next t ∧ t.fld (Reg.LAS_BIAS n) Fld.LAS_BIAS_PWR = unsigned 16 pwr ∧
      (t.laser n).lowN = lowN ∧
      (cause ≠ 0 ∧ (was = 0 ∨ cause = 3 ∧ was ≠ 3) → t.fadeCause n = cause ∧ b.counted t (Reg.LAS_BANK (lasQuad n)) Fld.LAS_BANK_FADE_EV 1 ∧
        (t.laser n).fadeAt = b.now ∧ t.faultLog.entries.getLast? = some ⟨b.time, 0x0301, if cause = 3 then 2 else 1, srcHw, n, leBytes 1 cause⟩ ∧
        (cause = 3 → t.lasSt n = 5 ∧ (t.laser n).dark = true)) ∧
      (¬(cause ≠ 0 ∧ (was = 0 ∨ cause = 3 ∧ was ≠ 3)) → t.fadeCause n = was ∧ t.faultLog = b.faultLog) ∧
      (t.fadeCause n ≠ 0 → n % 2 = 0 → b.hasSpare n = true → b.lasSt (spareOf n) = 0 → b.pcp (lasQuad n) = true →
        t.lasSt (spareOf n) = 1 ∧ (t.laser (spareOf n)).fadeAt = b.now ∧
        t.fld (Reg.LAS_BIAS (spareOf n)) Fld.LAS_BIAS_BIAS = (b.laser (spareOf n)).table.getD (b.lasBand (spareOf n)) 0 % 2 ^ 12) ∧
      (∀ w, lasWave n = some w → b.hasSpare n = false → b.waveDerated w = false →
        t.fadeCause n = 3 ∨ t.fadeCause n ≠ 0 ∧ (pwr < b.lasTarget n - 300 ∨ 3 ≤ x.missN ∨ x.deep = true) →
        t.clk.quadWant.contains (lasQuad n) = true ∧ (t.laser n).deep = true))) ∧
  (∀ (s : State) (n at_ : Nat) (b : State), b = s.tick at_ → laserOk n = true → n % 2 = 1 → b.warming n = true →
    (b.now ≤ (b.laser n).fadeAt + 4000000 → b.lasSt n ≠ 2 ∨ b.onGrid n = false → exec (.spareReady n at_) s = .next b) ∧
    (b.now ≤ (b.laser n).fadeAt + 4000000 → b.lasSt n = 2 → b.onGrid n = true → ∃ t, exec (.spareReady n at_) s = .next t ∧ t.lasSt n = 3 ∧
      (t.clk.quadWant.contains (lasQuad n) = (b.clk.quadWant.contains (lasQuad n) || (lasWave n).isSome && b.pcp (lasQuad n))) ∧
      t = { b with regs := t.regs, clk := t.clk }) ∧
    (∀ i, (i = .spareReady n at_ ∧ (b.laser n).fadeAt + 4000000 < b.now ∨ i = .spareTimeout n at_ ∧ (b.laser n).fadeAt + 4000000 ≤ b.now) →
      ∃ t, exec i s = .next t ∧ t.lasSt n = 5 ∧
        t.faultLog.entries.getLast? = some ⟨b.time, 0x0302, 1, 4 + lasQuad n, n, leBytes 1 2⟩ ∧
        t = { b with regs := t.regs, faultLog := t.faultLog }) ∧
    (b.now < (b.laser n).fadeAt + 4000000 → exec (.spareTimeout n at_) s = .next b)) ∧
  ∀ (s : State) (n at_ p m : Nat) (b : State), b = s.tick at_ → laserOk n = true → n % 2 = 1 → (p, m) = lasLane n → lasWave n = none →
    b.lasSt n = 3 → b.alive 2 = true →
    (b.portSt p = 2 → (b.port p).mapNext = none → bitOf (b.port p).laneMap m = true → ∃ t, exec (.ioLaserSwap n at_) s = .next t ∧
      t.lasSt n = 3 ∧ (∃ k map, (t.port p).mapNext = some (k, map) ∧ k = b.frameNo p + 16 ∧ bitOf map m = false) ∧
      t.flag (Reg.LNK_PORT_STAT p) Fld.LNK_PORT_STAT_PROT = true) ∧
    (b.portSt p = 2 → (b.port p).mapNext ≠ none → ∃ t, exec (.ioLaserSwap n at_) s = .next t ∧ t.lasSt n = 3 ∧ t.lasers = b.lasers) ∧
    (b.portSt p ≠ 2 ∨ (b.port p).mapNext = none ∧ bitOf (b.port p).laneMap m = false → ∃ t, exec (.ioLaserSwap n at_) s = .next t ∧
      t.lasSt n = 4 ∧ t.onBus n = true ∧ t.lasSt (primaryOf n) = 5 ∧ t.onBus (primaryOf n) = false ∧
      b.counted t (Reg.LAS_BANK (lasQuad n)) Fld.LAS_BANK_SWAPS 1 ∧
      ((b.ring (portCluster p) (2 * m)).locked = true → (t.ring (portCluster p) (2 * m)).st = .acquiring))

/-! ## The fabric -/

/-- A frame that failed is asked for again, one in order delivers its messages and chains that waited go on, one already taken is discarded (R264,
R357, R358, R366). A request without RESP
is sent again 3 times, then its module is lost (R367); a RELAY answered DEFERRED goes again after 10 us (R378). PROBEs and time
records are sent in their periods, an unanswered module is lost (R379), and the time record of the port followed moves module time
(R545). -/
def Obligations.FramesRequestsAndTimeRecordsFollow : Prop :=
  (∀ (s : State) (n at_ ahead : Nat) (f : Frame) (b : State) (x : Port), b = s.tick at_ → n < 24 → x = b.port n →
    ahead = unsigned 32 ((f.fseq.toNat : Int) - x.rxNext) →
    (b.portSt n ≠ 2 → exec (.frameReceived n f at_) s = .next b) ∧
    (b.portSt n = 2 → f.ok = false → exec (.frameReceived n f at_) s =
      .next ((b.setPort n { x with nak := some x.rxNext }).bump (Reg.LNK_PORT_CNT n) Fld.LNK_PORT_CNT_FRAME_FAIL)) ∧
    (b.portSt n = 2 → f.ok = true → 2 ^ 31 ≤ ahead → exec (.frameReceived n f at_) s = .next b) ∧
    (∀ a : State, b.portSt n = 2 → f.ok = true →
      (ahead = 0 ∧ a = b ∨ 0 < ahead ∧ ahead < 2 ^ 31 ∧ Config.skipsLostFrame b.free = true ∧ a = { b with free := b.free + 1 }) →
      ∃ u : State, exec (.frameReceived n f at_) s = .next u.chainsGoOn ∧
        (u.port n).rxNext = (f.fseq.toNat + 1) % 2 ^ 32 ∧ (u.port n).nak = none ∧ (u.port n).ackSeen = b.ackedUpTo n f.ack.toNat ∧
        (x.rxSeq ≠ f.mapSeq.toNat → (u.port n).rxMapNext = some (f.fseq.toNat + 16, f.laneMap.toNat)) ∧
        (∀ m ∈ f.msgs, msgOk m = true → m.dest = b.myId → m.op % 16 ≠ 6 → m ∈ (u.port n).rxMsgs) ∧
        (∀ m ∈ x.rxMsgs, m ∈ (u.port n).rxMsgs) ∧
        b.counted u (Reg.LNK_PORT_CNT n) Fld.LNK_PORT_CNT_BAD_MSG (f.msgs.filter fun m => !(msgOk m)).length ∧
        u = { a with regs := u.regs, ports := u.ports, fabric := u.fabric } ∧ (b.fabric.chains = [] → u.chainsGoOn = u)) ∧
    (b.portSt n = 2 → f.ok = true → 0 < ahead → ahead < 2 ^ 31 → Config.skipsLostFrame b.free = false →
      exec (.frameReceived n f at_) s = .next { b with free := b.free + 1 })) ∧
  (∀ (s : State) (tag at_ : Nat) (b : State) (r : Req), b = s.tick at_ → b.reqOf tag = some r →
    (r.deferred = true ∨ b.now < r.sentAt + 1000 * max 1 (b.fld Reg.LNK_CFG Fld.LNK_CFG_REQ_TIMEOUT) →
      exec (.requestTimeout tag at_) s = .next b) ∧
    (r.deferred = false → r.sentAt + 1000 * max 1 (b.fld Reg.LNK_CFG Fld.LNK_CFG_REQ_TIMEOUT) ≤ b.now →
      (∀ k, r.resends < 3 → k = (b.route r.msg).getD r.port → exec (.requestTimeout tag at_) s =
        .next (((b.setReq { r with resends := r.resends + 1, sentAt := b.now, port := k, deferred := false }).sendMsg r.msg).bump
          (Reg.LNK_PORT_CNT (k % 24)) Fld.LNK_PORT_CNT_RESEND)) ∧
      (3 ≤ r.resends → ∃ t, exec (.requestTimeout tag at_) s = .next t ∧ b.losesModule t r.msg.dest)) ∧
    (r.deferred = true → r.sentAt + 10000 ≤ b.now → exec (.relayResend tag at_) s =
      .next ((b.setReq { r with sentAt := b.now, port := (b.route r.msg).getD r.port, deferred := false }).sendMsg r.msg)) ∧
    (r.deferred = false ∨ b.now < r.sentAt + 10000 → exec (.relayResend tag at_) s = .next b)) ∧
  (∀ (s b : State) (n : Nat) (m : FMsg), s.received b n m 4 → exec (.probe n m) s = .next (b.respond n m stOK)) ∧
  (∀ (s : State) (at_ : Nat) (b : State), b = s.tick at_ →
    (b.fabric.probeSent ≠ 0 → b.now < b.fabric.probeSent + 100000 → exec (.probeSend at_) s = .next b) ∧
    (b.fabric.probeSent = 0 ∨ b.fabric.probeSent + 100000 ≤ b.now → ∃ t, exec (.probeSend at_) s = .next t ∧ t.fabric.probeSent = b.now ∧
      (∀ k ∈ b.namedModules, tget 0 t.fabric.probeAt k ≠ 0 ∧ ∃ r ∈ t.fabric.reqs, r.msg.dest = k ∧ r.msg.op % 16 = 4 ∧ r.sentAt = b.now) ∧
      t = { b with fabric := t.fabric, ports := t.ports }) ∧
    (b.fabric.timeSent ≠ 0 → b.now < b.fabric.timeSent + 1000000 → exec (.timeRecordSend at_) s = .next b) ∧
    (b.fabric.timeSent = 0 ∨ b.fabric.timeSent + 1000000 ≤ b.now → ∃ t, exec (.timeRecordSend at_) s = .next t ∧ t.fabric.timeSent = b.now ∧
      (∀ n, n < 24 → b.portSt n = 2 → ∃ r ∈ t.fabric.reqs, r.port = n ∧ r.msg.op % 16 = 7 ∧ r.sentAt = b.now ∧
        r.msg.payload = leBytes 1 mgTime ++ leBytes 7 0 ++ leBytes 8 b.time) ∧ t = { b with fabric := t.fabric, ports := t.ports })) ∧
  (∀ (s : State) (k at_ seen : Nat) (b : State), b = s.tick at_ → seen = tget 0 b.fabric.probeAt k →
    (seen = 0 ∨ b.fabric.lost.contains k = true ∨ b.now < seen - 1 + 100000 * max 1 (b.fld Reg.LNK_CFG Fld.LNK_CFG_PROBE_LOSS) →
      exec (.probeLoss k at_) s = .next b) ∧
    (seen ≠ 0 → b.fabric.lost.contains k = false → seen - 1 + 100000 * max 1 (b.fld Reg.LNK_CFG Fld.LNK_CFG_PROBE_LOSS) ≤ b.now →
      ∃ t, exec (.probeLoss k at_) s = .next t ∧ b.losesModule t k)) ∧
  ∀ (s : State) (n received : Nat) (off : Int), n < 24 →
    off = (received + s.fld (Reg.LNK_PORT_STAT n) Fld.LNK_PORT_STAT_DELAY / 100 : Nat) - (s.time : Int) →
    (s.portSt n ≠ 2 ∨ s.fld Reg.CLK_TSYNC Fld.CLK_TSYNC_SRC_PORT ≠ n → exec (.timeRecord n received) s = .next s) ∧
    (s.portSt n = 2 → s.fld Reg.CLK_TSYNC Fld.CLK_TSYNC_SRC_PORT = n → ∃ t, exec (.timeRecord n received) s = .next t ∧
      t.time = ((s.time : Int) + if (s.port n).firstTime = false ∧ s.ready = false then off else max (-100) (min 100 off)).toNat ∧
      (t.flag Reg.CLK_TSYNC Fld.CLK_TSYNC_LOCKED = true ↔ -20 ≤ off ∧ off ≤ 20) ∧
      (t.flag Reg.CLK_TSYNC Fld.CLK_TSYNC_FAR = true ↔ off < -1000000 ∨ 1000000 < off) ∧
      t.fld Reg.CLK_TSYNC Fld.CLK_TSYNC_OFFSET = unsigned 16 (max (-32767) (min 32767 off)) ∧
      t.port n = { s.port n with firstTime := true } ∧ t = { s with time := t.time, ports := t.ports, regs := t.regs })

/-- RELAY writes a record of a named module inside the partition's windows, answers duplicates OK and a full ring DEFERRED (R367, R374, R377,
R378). CHAIN takes half-chunks of the previous member in any order and keeps the credits of a chunk that cannot be taken yet (R264, R276, R374); an
opening not answered in 1 s ends with NO_RESOURCE, and the members that answered are told (R263). JOURNAL files the twin's records (R386). RESP ends its request, MGMT opens and ends pairings and chains (R263, R265, R382); the MGMT payloads
are the model's, as its log entry 13 has them. -/
def Obligations.MessagesActOnWhatTheyName : Prop :=
  (∀ (s b : State) (n p i pos : Nat) (m : FMsg) (c : Ctx) (l : Nat) (kept : Bool), s.received b n m 1 → p = m.part % 64 →
    i = sliceNum m.payload 0 4 % 2 ^ 22 → pos = sliceNum m.payload 4 4 → c = b.ctx i → l = c.placement →
    kept = (b.fabric.relayed.any (fun (r : Nat × Nat × Nat) => r == (l, i, pos)) ||
      b.fabric.tokens.any fun (r : Nat × Nat × Nat × Nat) => r.1 == l && r.2.1 == i && r.2.2.1 == pos) →
    (inside (b.windows p) m.offset m.payload.length = false ∨ b.slicePeer p m.src = false → exec (.relay n m) s = .next (b.refuseMsg n m)) ∧
    (inside (b.windows p) m.offset m.payload.length = true → b.slicePeer p m.src = true →
      (m.payload.length < 16 ∨ c.st ≠ .active ∨ c.part ≠ p → exec (.relay n m) s =
        .next ((b.bump (Reg.LNK_PORT_CNT 0) Fld.LNK_PORT_CNT_RELAY_DROP).respond n m stOK)) ∧
      (16 ≤ m.payload.length → c.st = .active → c.part = p →
        (pos < c.pos ∨ kept = true ∨ (b.imgOf c).shardIdx = 0 ∧ pos = c.pos ∧ c.pvalid = true → exec (.relay n m) s = .next (b.respond n m stOK)) ∧
        (c.pos ≤ pos → kept = false → (b.imgOf c).shardIdx ≠ 0 ∨ pos ≠ c.pos ∨ c.pvalid = false →
          (sliceSlots (b.place l).slice ≤ (b.fabric.relayed.filter fun (r : Nat × Nat × Nat) => r.1 == l).length +
              (b.fabric.tokens.filter fun (r : Nat × Nat × Nat × Nat) => r.1 == l).length →
            exec (.relay n m) s = .next (b.respond n m stDeferred)) ∧
          ((b.fabric.relayed.filter fun (r : Nat × Nat × Nat) => r.1 == l).length +
              (b.fabric.tokens.filter fun (r : Nat × Nat × Nat × Nat) => r.1 == l).length < sliceSlots (b.place l).slice →
            ∃ u : State, exec (.relay n m) s = .next (u.respond n m stOK) ∧
              (sliceNum m.payload 8 1 ≠ 1 → (l, i, pos) ∈ u.fabric.relayed ∧ u.rdMem p m.offset m.payload.length = m.payload) ∧
              (sliceNum m.payload 8 1 = 1 → c.pos < pos → (l, i, pos, sliceNum m.payload 16 4 % 2 ^ 18) ∈ u.fabric.tokens) ∧
              (sliceNum m.payload 8 1 = 1 → c.pos = pos → c.pvalid = false →
                (u.ctx i).pending = sliceNum m.payload 16 4 % 2 ^ 18 ∧ (u.ctx i).pvalid = true)))))) ∧
  (∀ (s a b : State) (n : Nat) (m : FMsg) (p : Option Chain), s.received b n m 2 →
    a = s.setPort n { s.port n with rxMsgs := (s.port n).rxMsgs.erase m } →
    p = (b.fabric.chains.find? fun c => c.opened && c.head != b.myId && c.prev == m.src) →
    (p = none → exec (.chain n m) s = .next (b.refuseMsg n m)) ∧
    ∀ c d u, p = some c →
      d = { c with buf := c.buf ++ [(m.offset, m.payload.take (c.total - m.offset))], got := m.offset :: c.got,
                   owed := c.owed ++ [(n, creditsOf m)] } →
      u = (a.setChain d).respond n m stOK →
      (m.offset % 32768 ≠ 0 ∨ c.total ≤ m.offset → exec (.chain n m) s = .next (b.refuseMsg n m)) ∧
      (m.offset % 32768 = 0 → m.offset < c.total →
        (m.offset < c.sentTo ∨ (c.buf.any fun (x : Nat × List Byte) => x.1 == m.offset) = true →
          exec (.chain n m) s = .next (b.respond n m stOK)) ∧
        (c.sentTo ≤ m.offset → (c.buf.any fun (x : Nat × List Byte) => x.1 == m.offset) = false →
          (d.whole = false → exec (.chain n m) s = .next ((u.payCredits d).setChain { d with owed := [] })) ∧
          (d.whole = true → u.chunkTakes d = false → exec (.chain n m) s = .next u) ∧
          (d.whole = true → u.chunkTakes d = true → (∀ x ∈ d.buf, x.2 ≠ []) → ∃ t, exec (.chain n m) s = .next t ∧
            ∀ e, t.chainOf c.op = some e → c.sentTo < e.sentTo)))) ∧
  (∀ (s : State) (fn tag at_ : Nat) (b : State) (c : Chain) (missing : List Nat) (o : LongOp), b = s.tick at_ → fn < 64 →
    (b.fabric.chains.find? fun x => x.fn == fn && x.tag == tag) = some c → missing = c.members.filter (fun x => !(c.answered.contains x)) →
    (b.now < c.startAt + 1000000000 → exec (.chainOpenTimeout fn tag at_) s = .next b) ∧
    ((c.head = b.myId ∧ missing = []) ∨ (c.head ≠ b.myId ∧ c.opened = true) → exec (.chainOpenTimeout fn tag at_) s = .next b) ∧
    (c.startAt + 1000000000 ≤ b.now → b.longOf c.op = some o → ∀ u detail,
      (c.head = b.myId ∧ missing ≠ [] ∧ detail = 3 * 2 ^ 30 + missing.headD 0 ∧
          u = (b.each c.answered fun s m => s.tellChain c m mgChainGone s.myId).dropChain c.op ∨
        c.head ≠ b.myId ∧ c.opened = false ∧ detail = 0 ∧ u = b.dropChain c.op) →
      ((∃ p im, o.pkt = .modelLoad p im) → exec (.chainOpenTimeout fn tag at_) s = .next (u.failLoad o c.model stNoResource detail 0)) ∧
      ((∃ p im, o.pkt = .modelSwap p im) → exec (.chainOpenTimeout fn tag at_) s =
        .next ((u.giveUpSwap c.model).endSwap o stNoResource detail 0)))) ∧
  ((∀ (s : State) (n : Nat) (m : FMsg), n < 24 → s.queueOpen = false → exec (.journal n m) s = .next s) ∧
    ∀ (s b : State) (n : Nat) (m : FMsg) (filed : List JRec) (used : Nat), s.received b n m 3 → s.queueOpen = true →
      filed = (recsOf m.payload).foldl fileRec b.twin.filed → used = (filed.map fun r => r.bytes.length).sum →
      (b.twinSt < 2 ∨ m.src ≠ b.peer ∨ m.offset ≠ 0 → exec (.journal n m) s = .next (b.refuseMsg n m)) ∧
      (2 ≤ b.twinSt → m.src = b.peer → m.offset = 0 →
        (b.journal.2 < used → exec (.journal n m) s = .next ((b.degrade 2).respond n m stNoResource)) ∧
        (used ≤ b.journal.2 → ∃ u : State, exec (.journal n m) s = .next (u.respond n m stOK) ∧ u.twin.filed = filed ∧
          u.twin.inSeq = b.twin.inSeq + (fileRecs (recsOf m.payload) b.twin.filed).2 ∧
          u.fld Reg.TWN_JRN Fld.TWN_JRN_USED = used * 100 / max 1 b.journal.2 % 128 ∧
          u.twinSt = (if b.twinSt = 3 ∧ b.fld Reg.TWN_STAT Fld.TWN_STAT_CAUSE = 2 then 2 else b.twinSt)))) ∧
  (∀ (s b : State) (n status : Nat) (m : FMsg) (p : Option Req), s.received b n m 5 → status = sliceNum m.payload 0 1 →
    p = (b.fabric.reqs.find? fun r => r.msg.tag == m.tag && r.msg.dest == m.src) →
    (p = none → exec (.resp n m) s = .next b) ∧
    ∀ r op, p = some r → op = r.msg.op % 16 →
      (op = 1 → status = stDeferred → exec (.resp n m) s = .next (b.setReq { r with deferred := true, sentAt := b.now })) ∧
      (∀ l st, op = 1 → status = stOK → r.place = some l → (b.place l).step = some st →
        exec (.resp n m) s = .next ((b.dropReq m.tag).setPlace l { b.place l with step := some { st with relayOut := st.relayOut - 1 } })) ∧
      (op = 3 → status = stOK → b.twinSt = 2 → ∃ t, exec (.resp n m) s = .next t ∧ t.reqOf m.tag = none ∧
        t.twin.acked = min b.twin.sentSeq (b.twin.acked + (recsOf r.msg.payload).length) ∧
        ∀ h ∈ t.twin.heldOut, t.twin.acked < h.1) ∧
      (op = 3 → status ≠ stOK → b.twinSt = 2 → ∃ t, exec (.resp n m) s = .next t ∧ t.twinSt = 3 ∧
        t.fld Reg.TWN_STAT Fld.TWN_STAT_CAUSE = 2 ∧ t.twin.heldOut = []) ∧
      (op = 4 → ∃ t, exec (.resp n m) s = .next t ∧ tget 0 t.fabric.probeAt r.msg.dest = b.now + 1 ∧ t.reqOf m.tag = none ∧
        t.fabric.lost.contains r.msg.dest = false ∧ t = { b with fabric := t.fabric })) ∧
  ∀ (s b : State) (n kind : Nat) (m : FMsg), s.received b n m 7 → kind = sliceNum m.payload 0 1 →
    (b.alive 2 = false → exec (.mgmt n m) s = .next (b.respond n m stRestarted)) ∧
    (b.alive 2 = true →
      (kind = 1 → b.twinSt = 0 → exec (.mgmt n m) s = .next
        ({ b with twin := { b.twin with pairSeen := some (m.src, decide (sliceNum m.payload 1 1 = 1), b.now) } }.respond n m stOK)) ∧
      (kind = 1 → b.twinSt = 1 → m.src = b.peer → ∃ u : State, exec (.mgmt n m) s =
          .next (u.respond n m (if sliceNum m.payload 1 1 = 1 then stOK else stNoResource)) ∧
        u.twinSt = (if sliceNum m.payload 1 1 = 1 then 2 else 0)) ∧
      (kind = 1 → b.twinSt ≠ 0 → b.twinSt ≠ 1 ∨ m.src ≠ b.peer → exec (.mgmt n m) s = .next (b.respond n m stNoResource)) ∧
      (kind = 2 → b.twinSt ≠ 0 → m.src = b.peer → ∃ u : State, exec (.mgmt n m) s = .next (u.respond n m stOK) ∧ u.twinSt = 0 ∧
        u.twin.journaled = []) ∧
      (kind = 2 → b.twinSt = 0 ∨ m.src ≠ b.peer → exec (.mgmt n m) s = .next (b.respond n m stOK)) ∧
      (∀ p, kind = 3 → p = (b.fabric.chains.find? fun c => opens c b.myId m) →
        (p = none → exec (.mgmt n m) s =
          .next ({ b with fabric := { b.fabric with openings := b.fabric.openings ++ [(m, b.now)] } }.respond n m stOK)) ∧
        ∀ c, p = some c → (c.opened = true → exec (.mgmt n m) s = .next (b.respond n m stOK)) ∧
          (c.opened = false → ∃ u : State, exec (.mgmt n m) s = .next (u.respond n m stOK) ∧ u.chainOf c.op =
            some { c with
              opened := true, src := sliceNum m.payload 1 1, prev := m.src, hop := sliceNum m.payload 6 1,
              total := sliceNum m.payload 8 8, members := (List.range (sliceNum m.payload 7 1)).map fun k => sliceNum m.payload (16 + 2 * k) 2 })) ∧
      (kind = 4 → ∃ u : State, exec (.mgmt n m) s = .next (u.respond n m stOK) ∧ ∀ (c d : Chain), b.headChain m m.src = some c →
        u.chainOf c.op = some d → d.delivered.contains m.src = true) ∧
      (∀ who head : Nat, kind = 5 → who = sliceNum m.payload 4 2 → head = sliceNum m.payload 6 2 →
        ∃ u : State, exec (.mgmt n m) s = .next (u.respond n m stOK) ∧
          (∀ c d : Chain, head = b.myId → b.headChain m who = some c → b.chainOf c.op = some c → u.chainOf c.op = some d →
            d.gone.contains who = true) ∧
          ∀ c, head ≠ b.myId → (b.fabric.chains.find? fun c => c.tag == sliceNum m.payload 2 2 && c.head == head) = some c →
            u.chainOf c.op = none) ∧
      (kind = 6 → exec (.mgmt n m) s = .next (b.respond n m stOK)) ∧
      (kind = 7 → ∃ u : State, exec (.mgmt n m) s = .next (u.respond n m stOK) ∧ ∀ (c d : Chain), b.headChain m m.src = some c →
        b.chainOf c.op = some c → u.chainOf c.op = some d → d.answered.contains m.src = true) ∧
      (kind = 0 ∨ 7 < kind → exec (.mgmt n m) s = .next (b.respond n m stBadPacket)))

/-! ## Ports and the twin -/

/-- An announced stripe takes effect from its frame on, and below MIN_LANES the port goes DOWN (R368). A port that loses frame alignment goes DOWN,
with the last twin port the pair is DEGRADED; a DOWN port trains again every 10 ms (R379, R383), and training ends UP, or by its finding in
REACH, MISWIRE, ABSENT or DOWN (R359, R369, R371). -/
def Obligations.PortsTrainAndGoDown : Prop :=
  (∀ (s : State) (n at_ : Nat) (lm : BitVec 17) (b : State) (x : Port) (own far : Prop), b = s.tick at_ → n < 24 → x = b.port n →
    own = (∃ k, x.mapNext = some (k, lm.toNat) ∧ k ≤ b.frameNo n) → far = (∃ k, x.rxMapNext = some (k, lm.toNat) ∧ unsigned 32 ((x.rxNext : Int) - k) < 2 ^ 31) →
    (¬ own → ¬ far → exec (.laneRemap n lm at_) s = .next b) ∧
    (¬ own → far → exec (.laneRemap n lm at_) s = .next (b.setPort n { x with rxMap := lm.toNat, rxMapNext := none })) ∧
    (own → b.minLanes ≤ laneCount lm.toNat → ∃ t, exec (.laneRemap n lm at_) s = .next t ∧ (t.port n).laneMap = lm.toNat ∧
      (t.port n).mapNext = none ∧ t.fld (Reg.LNK_PORT_STAT n) Fld.LNK_PORT_STAT_LANES = laneCount lm.toNat ∧
      t.flag (Reg.LNK_PORT_STAT n) Fld.LNK_PORT_STAT_SPARE_USED = bitOf lm.toNat 16 ∧
      t.flag (Reg.LNK_PORT_STAT n) Fld.LNK_PORT_STAT_PROT = false ∧ t.portSt n = b.portSt n ∧
      (far → (t.port n).rxMap = lm.toNat ∧ (t.port n).rxMapNext = none) ∧
      (∀ m, m < 17 → bitOf lm.toNat m = true → t.laneSt n m = 0) ∧ t = { b with regs := t.regs, ports := t.ports, fabric := t.fabric }) ∧
    (own → laneCount lm.toNat < b.minLanes → ∃ t, exec (.laneRemap n lm at_) s = .next t ∧ t.portSt n = 3 ∧
      t.fld (Reg.LNK_PORT_STAT n) Fld.LNK_PORT_STAT_LANES = 0 ∧ (t.port n).downAt = b.now)) ∧
  (∀ (s : State) (n at_ : Nat) (b : State), b = s.tick at_ → n < 24 →
    (b.portSt n ≠ 2 → exec (.frameAlignmentLoss n at_) s = .next b) ∧
    (b.portSt n = 2 → ∃ t, exec (.frameAlignmentLoss n at_) s = .next t ∧ t.portSt n = 3 ∧
      t.fld (Reg.LNK_PORT_STAT n) Fld.LNK_PORT_STAT_LANES = 0 ∧ (t.port n).downAt = b.now ∧ (t.port n).rxMsgs = [] ∧
      (b.portRole n = 3 → b.upPorts 3 = [n] → b.twinSt = 2 → t.twinSt = 3 ∧ t.fld Reg.TWN_STAT Fld.TWN_STAT_CAUSE = 1)) ∧
    (b.portSt n = 3 → b.flag (Reg.LNK_PORT_CFG n) Fld.LNK_PORT_CFG_EN = true → (b.port n).downAt + 10000000 ≤ b.now →
      ∃ t, exec (.portRetrain n at_) s = .next t ∧ t.portSt n = 1 ∧ t = { b with regs := t.regs, ports := t.ports }) ∧
    (b.portSt n ≠ 3 ∨ b.flag (Reg.LNK_PORT_CFG n) Fld.LNK_PORT_CFG_EN = false ∨ b.now < (b.port n).downAt + 10000000 →
      exec (.portRetrain n at_) s = .next b)) ∧
  ∀ (s : State) (n at_ : Nat) (b : State) (res : TrainEnd), b = s.tick at_ → n < 24 →
    (b.portSt n ≠ 1 → exec (.trainingComplete n res at_) s = .next b) ∧
    (b.portSt n = 1 → ∃ t, exec (.trainingComplete n res at_) s = .next t ∧
      (res = .failed → t.portSt n = 3 ∧ (t.port n).downAt = b.now) ∧ (res = .absent → t.portSt n = 6) ∧
      ∀ (far : Word64) (delay : Nat) (tests : List LaneTest) (u : State) (map : Nat), res = .aligned far delay tests →
        u = (b.setFld (Reg.LNK_PORT_STAT n) Fld.LNK_PORT_STAT_DELAY (min delay 65535)).testLanes n tests → map = u.firstMap n →
        ((if b.fld (Reg.LNK_PORT_CFG n) Fld.LNK_PORT_CFG_CLASS = 0 then 500 else 5000) < delay → t.portSt n = 5) ∧
        (delay ≤ (if b.fld (Reg.LNK_PORT_CFG n) Fld.LNK_PORT_CFG_CLASS = 0 then 500 else 5000) →
          (u.miswired n far = true → t.portSt n = 4) ∧
          (u.miswired n far = false → laneCount map < u.minLanes → t.portSt n = 3 ∧ (t.port n).downAt = b.now) ∧
          (u.miswired n far = false → u.minLanes ≤ laneCount map → t.portSt n = 2 ∧ (t.port n).laneMap = map ∧ (t.port n).upAt = b.now ∧
            (t.port n).rxNext = 0 ∧ t.fld (Reg.LNK_PORT_STAT n) Fld.LNK_PORT_STAT_LANES = laneCount map ∧
            t.farId n = coordFld far Fld.LNK_COORD_MODULE_ID ∧ ∀ m, bitOf map m = true → u.laneLit n m = true ∧ u.flag (laneReg n m) Fld.LNK_LANE_TESTED = true)))

/-- Heartbeats keep the peer alive and one with TAKEOVER fences the replicated placements (R384, R389). Without one for HB_LOSS a PAIRED or DEGRADED
module takes over the journaled contexts, a pairing one is SOLO again (R387, R388). Acknowledgements outstanding beyond ACK_WAIT make
the pair DEGRADED with CAUSE 3 (R387); a pairing not answered within 1 s fails (R382). -/
def Obligations.TheTwinIsWatchedAndTakenOver : Prop :=
  (∀ (s : State) (path state ackSeq at_ : Nat) (b : State), b = s.tick at_ → path < 3 →
    (∀ v, b.twinSt = 0 → exec (.heartbeat path state v ackSeq at_) s = .next b) ∧
    (b.twinSt ≠ 0 → ∃ t, exec (.heartbeat path state false ackSeq at_) s = .next t ∧
      t.twin = { b.twin with lastBeat := b.now, peerState := state % 8, peerAck := ackSeq, pathAt := tset 0 b.twin.pathAt path (b.now + 1) } ∧
      t.fld Reg.TWN_STAT Fld.TWN_STAT_PATHS = ((t.twin.pathAt.filter fun x => b.now < x.2 + b.hbLoss).length) % 4 ∧
      b.fieldsBut t [(Reg.TWN_STAT, Fld.TWN_STAT_PATHS)] ∧ t = { b with regs := t.regs, twin := t.twin }) ∧
    (b.twinSt ≠ 0 → ∃ t, exec (.heartbeat path state true ackSeq at_) s = .next t ∧ ∀ l ∈ b.present, sliceRep (b.place l).slice = true →
      (b.place l).change = none → (b.place l).removing = false → (t.place l).fenced = true)) ∧
  (∀ (s : State) (at_ : Nat) (b : State), b = s.tick at_ →
    (b.twinSt = 0 ∨ b.twin.beatSent ≠ 0 ∧ b.time < b.twin.beatSent + 100000 → exec (.heartbeatSend at_) s = .next b) ∧
    (b.twinSt ≠ 0 → b.twin.beatSent = 0 ∨ b.twin.beatSent + 100000 ≤ b.time → ∃ t, exec (.heartbeatSend at_) s = .next t ∧
      t.twin = { b.twin with beatSent := b.time } ∧
      b.counted t Reg.TWN_CNT Fld.TWN_CNT_HB_MISS (b2n (decide (b.twin.lastBeat + 100000 < b.now))) ∧
      (∀ n ∈ b.upPorts 3 ++ (b.upPorts 2).take 1, ∃ m : FMsg, m.dest = b.peer ∧ m.src = b.myId ∧ m.op = 54 ∧
        m.payload = leBytes 1 b.twinSt ++ leBytes 1 (b2n (b.flag Reg.TWN_STAT Fld.TWN_STAT_TAKEOVER)) ++ leBytes 6 0 ++ leBytes 8 b.twin.inSeq ∧
        (m ∈ t.fabric.sent ∨ m ∈ (t.port n).txWait)) ∧
      t = { b with regs := t.regs, twin := t.twin, ports := t.ports, fabric := t.fabric })) ∧
  (∀ (s : State) (at_ : Nat) (b : State), b = s.tick at_ →
    (b.twinSt = 0 ∨ b.flag Reg.TWN_STAT Fld.TWN_STAT_TAKEOVER = true ∨ b.now < b.twin.lastBeat + b.hbLoss →
      exec (.peerLost at_) s = .next b) ∧
    (b.flag Reg.TWN_STAT Fld.TWN_STAT_TAKEOVER = false → b.twin.lastBeat + b.hbLoss ≤ b.now →
      (b.twinSt = 1 → ∃ t, exec (.peerLost at_) s = .next t ∧ t.twinSt = 0) ∧
      (b.twinSt = 4 → ∃ t, exec (.peerLost at_) s = .next t ∧ t.twinSt = 0) ∧
      (b.twinSt = 2 ∨ b.twinSt = 3 → b.alive 2 = true → ∃ t, exec (.peerLost at_) s = .next t ∧
        b.counted t Reg.TWN_CNT Fld.TWN_CNT_TAKEOVERS 1 ∧ (t.twinSt = 0 ∨ t.flag Reg.TWN_STAT Fld.TWN_STAT_TAKEOVER = true) ∧
        ∀ i o, (b.ctx i).st = .closed → ((b.twin.filed.filter fun (r : JRec) => r.ctx == i).find? fun r => r.kind == 1) = some o →
          (t.ctx i).st ≠ .closed ∧ (t.ctx i).kvBase = sliceNum o.body 16 8 ∧ (t.ctx i).lenMax = sliceNum o.body 12 4 ∧
          (t.ctx i).tag = sliceNum o.body 6 2 ∧ (t.ctx i).placement = sliceNum o.body 4 2 ∧ (t.ctx i).seed = sliceNum o.body 24 8 ∧
          ((∀ r ∈ b.twin.filed, r.ctx = i → r.kind ≠ 2) → (t.ctx i).pos = 0 ∧ ((t.ctx i).st = .opened ∨ (t.ctx i).st = .paused))) ∧
      (b.twinSt = 2 ∨ b.twinSt = 3 → b.alive 2 = false → exec (.peerLost at_) s = .next b))) ∧
  ∀ (s : State) (at_ : Nat) (b : State), b = s.tick at_ →
    (b.twinSt = 2 → b.twin.acked < b.twin.sentSeq →
      b.twin.oldestAt + 100000 * max 1 (b.fld Reg.TWN_CFG Fld.TWN_CFG_ACK_WAIT) < b.now → ∃ t, exec (.ackWaitExpiry at_) s = .next t ∧
        t.twinSt = 3 ∧ t.fld Reg.TWN_STAT Fld.TWN_STAT_CAUSE = 3 ∧ t.twin = { b.twin with heldOut := [] } ∧
        ∀ h ∈ b.twin.heldOut, h.2.1 < 2048 → b.pairOn (h.2.1 / 32) (h.2.1 % 32) = true →
          ∃ o ∈ (t.pair (h.2.1 / 32) (h.2.1 % 32)).out, o.bytes = h.2.2.bytes) ∧
    (b.twinSt ≠ 2 ∨ b.twin.sentSeq ≤ b.twin.acked ∨
        b.now ≤ b.twin.oldestAt + 100000 * max 1 (b.fld Reg.TWN_CFG Fld.TWN_CFG_ACK_WAIT) → exec (.ackWaitExpiry at_) s = .next b) ∧
    (b.twinSt = 1 → b.twin.pairAt + 1000000000 ≤ b.now → exec (.pairingTimeout at_) s = .next (match b.twin.pairOp with
      | some k => b.twinSolo.endLongAt k stNoResource 0 0
      | none => b.twinSolo)) ∧
    (b.twinSt ≠ 1 ∨ b.now < b.twin.pairAt + 1000000000 → exec (.pairingTimeout at_) s = .next b)

/-! ## Power -/

/-- The clock of a quadrant steps up at a boundary reached with VGOOD at 1 (R424, R425), down at once on a droop, counted (R431), by the fast limiter
that lowers the quadrant of the highest QEST while the mean estimate exceeds CAP_EFF (R429), and by PTP's reviews one point at a time (R428);
a cap missed at OP5 for 1 ms is logged (R430). -/
def Obligations.OperatingPointsFollowTheCap : Prop :=
  (∀ (s : State) (q at_ : Nat) (b u : State) (i : Instr), b = s.tick at_ → q < 4 →
    (i = .operatingPointBoundary q at_ ∧ u = b ∨ i = .vgood q at_ ∧ u = b.setFlag (Reg.POW_OP q) Fld.POW_OP_VGOOD true) →
    (tget 0 u.power.raiseAt q ≠ 0 → u.flag (Reg.POW_OP q) Fld.POW_OP_VGOOD = true → u.atBoundary q = true → u.opWant q < u.opNow q →
      ∃ t, exec i s = .next t ∧ t.opNow q = u.opWant q ∧ tget 0 t.power.raiseAt q = 0 ∧
        u.counted t (Reg.POW_QCNT q) Fld.POW_QCNT_RAISES 1 ∧
        u.fieldsBut t [(Reg.POW_OP q, Fld.POW_OP_CURRENT), (Reg.POW_QCNT q, Fld.POW_QCNT_RAISES)] ∧
        t = { u with regs := t.regs, power := t.power }) ∧
    (tget 0 u.power.raiseAt q = 0 ∨ u.flag (Reg.POW_OP q) Fld.POW_OP_VGOOD = false ∨ u.atBoundary q = false ∨ u.opNow q ≤ u.opWant q →
      exec i s = .next u)) ∧
  (∀ (s : State) (q at_ last : Nat) (b : State), b = s.tick at_ → q < 4 → last = tget 0 b.power.droopAt q →
    (last ≠ 0 → b.now < last - 1 + cycles64 (b.opNow q) → exec (.droop q at_) s = .next b) ∧
    (last = 0 ∨ last - 1 + cycles64 (b.opNow q) ≤ b.now →
      (5 ≤ b.opNow q → exec (.droop q at_) s = .next ((b.bump (Reg.POW_QCNT q) Fld.POW_QCNT_DROOP_FLOOR).fault 0x0503 1 srcHw q [])) ∧
      (b.opNow q < 5 → ∃ t, exec (.droop q at_) s = .next t ∧ t.opNow q = b.opNow q + 1 ∧ t.opTarget q = b.opTarget q ∧
        b.counted t (Reg.POW_QCNT q) Fld.POW_QCNT_DROOP 1 ∧ tget 0 t.power.raiseAt q = b.now + 1 ∧ tget 0 t.power.droopAt q = b.now + 1 ∧
        b.fieldsBut t [(Reg.POW_OP q, Fld.POW_OP_CURRENT), (Reg.POW_QCNT q, Fld.POW_QCNT_DROOP)] ∧
        t = { b with regs := t.regs, power := t.power }))) ∧
  (∀ (s : State) (at_ cap : Nat) (qest : List Nat) (b : State) (e : Nat → Nat) (c : Int) (hist : List Int), b = s.tick at_ →
    (∀ q, e q = min (qest.getD q 0) 65535) → cap = min (capOf (b.fld Reg.POW_CAP Fld.POW_CAP_HOST_CAP)) (capOf (b.fld Reg.POW_CAP Fld.POW_CAP_BMC_CAP)) →
    c = (if b.alive 1 = true then b.calibrated (e 0 + e 1 + e 2 + e 3 + 240) else ((e 0 + e 1 + e 2 + e 3 + 240 : Nat) : Int)) →
    hist = (c :: b.power.peHist).take 4 →
    ∃ t, exec (.fastLimiter at_ qest) s = .next t ∧ (∀ q, q < 4 → t.qest q = e q) ∧
      t.fld Reg.POW_STAT Fld.POW_STAT_CAP_EFF = cap ∧ t.fld Reg.POW_STAT Fld.POW_STAT_P_EST = min c.toNat 65535 ∧ t.power.peHist = hist ∧
      (hist.sum ≤ 4 * (cap : Int) * hist.length ∨ b.now < b.power.limitNext → ∀ q, q < 4 → t.opTarget q = b.opTarget q ∧ t.opNow q = b.opNow q) ∧
      (4 * (cap : Int) * hist.length < hist.sum → b.power.limitNext ≤ b.now → (∃ q, q < 4 ∧ b.opNow q < 5) →
        ∃ q, q < 4 ∧ b.opNow q < 5 ∧ (∀ k, k < 4 → b.opNow k < 5 → e k ≤ e q) ∧
          t.opTarget q = (if tget 0 b.power.droopAt q = b.now + 1 then b.opNow q else b.opNow q + 1) ∧ t.opTarget q ≤ t.opNow q ∧
          b.counted t (Reg.POW_QCNT q) Fld.POW_QCNT_LIMIT 1 ∧ t.power.limitNext = b.now + 4000 ∧
          ∀ k, k < 4 → k ≠ q → t.opTarget k = b.opTarget k ∧ t.opNow k = b.opNow k) ∧
      t = { b with regs := t.regs, power := t.power }) ∧
  (∀ (s : State) (at_ : Nat) (b : State), b = s.tick at_ →
    (∀ m, b.power.missAt = some m → m + 1000000 ≤ b.now → b.flag Reg.POW_STAT Fld.POW_STAT_CAP_FLOOR = false → exec (.capFloor at_) s =
      .next (((b.setFlag Reg.POW_STAT Fld.POW_STAT_CAP_FLOOR true).bump Reg.POW_CNT Fld.POW_CNT_CAP_MISS).fault 0x0503 1 srcHw 0 [])) ∧
    (b.power.missAt = none ∨ (∃ m, b.power.missAt = some m ∧ b.now < m + 1000000) ∨ b.flag Reg.POW_STAT Fld.POW_STAT_CAP_FLOOR = true →
      exec (.capFloor at_) s = .next b)) ∧
  ∀ (s : State) (at_ : Nat) (core : List Nat) (b : State) (lim pred : Rat), b = s.tick at_ → lim = 98 * (b.capQ : Rat) / 100 →
    pred = (b.power.reviewMax : Rat) / 4 + ((List.range 4).map fun q => b.reserved q (core.getD q 0)).sum →
    (b.alive 1 = false ∨ b.power.reviewAt ≠ 0 ∧ b.now < b.power.reviewAt + 100000 → exec (.ptpReview at_ core) s = .next b) ∧
    (b.alive 1 = true → b.power.reviewAt = 0 ∨ b.power.reviewAt + 100000 ≤ b.now → ∃ t, exec (.ptpReview at_ core) s = .next t ∧
      t.power.reviewAt = b.now ∧ t.power.reviewMax = 0 ∧
      (b.flag Reg.HKC_CFG Fld.HKC_CFG_QOWN = false → t.hkc.queue = [] ∧ t.fld Reg.HKC_STAT Fld.HKC_STAT_QLEVEL = 0) ∧
      (b.flag Reg.HKC_CFG Fld.HKC_CFG_QOWN = true → t.hkc = b.hkc) ∧
      (lim < pred → ∀ q, q < 4 → t.opTarget q = b.opTarget q ∨ t.opTarget q = b.opTarget q + 1) ∧
      (pred ≤ lim → ∀ q, q < 4 → t.opTarget q = b.opTarget q ∨ t.opTarget q + 1 = b.opTarget q) ∧
      t = { b with regs := t.regs, power := t.power, hkc := t.hkc })

/-- A power emergency of R436 that holds (a cap overrun in two periods in a row) counts, is logged and reported; a Critical one demands OP3 of every quadrant, and a Trip stops the converter with its
cause latched (R437, R459). Its release gives back the demand (R437), the governor's is given back a point per ms (R482), and a RIDGE window
boosts its quadrants while no Critical condition holds them (R433, R459). -/
def Obligations.EmergenciesHoldTheCeilings : Prop :=
  (∀ (s : State) (row measured at_ : Nat) (b : State), b = s.tick at_ → row < 7 →
    (b.powered = false ∨ b.rowHolds row = false ∨ rowLevel row ≠ 3 ∧ b.power.active.contains row = true → exec (.powerEmergency row measured at_) s = .next b) ∧
    (b.powered = true → b.rowHolds row = true → rowLevel row = 3 → ∃ t, exec (.powerEmergency row measured at_) s = .next t ∧
      t.power.tripCause = some (row, measured) ∧ t.therm.offAt = b.now ∧ t.ctxs = [] ∧ t.places = [] ∧ t.mem = {} ∧ t.pairs = [] ∧
      t.flash = b.flash ∧ ((∀ e ∈ b.flash.mapRec.getD [], e.1 ≠ Reg.CLK_START.key) → t.phase = 0)) ∧
    (b.powered = true → b.rowHolds row = true → rowLevel row ≠ 3 → b.power.active.contains row = false → ∃ t, exec (.powerEmergency row measured at_) s = .next t ∧
      t.power.active = b.power.active ++ [row] ∧
      b.counted t Reg.POW_CNT (if rowLevel row = 1 then Fld.POW_CNT_WARN else Fld.POW_CNT_CRIT) 1 ∧
      t.fld Reg.POW_STAT Fld.POW_STAT_EMERG = min 2 (((b.power.active ++ [row]).map rowLevel).foldl max 0) ∧
      t.faultLog.entries.getLast? = some ⟨b.time, 0x0501, rowLevel row, srcHw, row, leBytes 4 measured⟩ ∧ t.side = (b.pldm 1 row).side ∧
      (rowLevel row = 2 → ∀ q, q < 4 → 3 ≤ t.opCeil q ∧ tget 0 t.power.ceil q = 3) ∧
      t = { b with regs := t.regs, power := t.power, faultLog := t.faultLog, side := t.side })) ∧
  (∀ (s : State) (row at_ : Nat) (b : State), b = s.tick at_ → row < 7 →
    (b.power.active.contains row = false → exec (.criticalRelease row at_) s = .next b) ∧
    (b.power.active.contains row = true → ∃ t, exec (.criticalRelease row at_) s = .next t ∧
      t.power.active = b.power.active.filter (· != row) ∧
      t.fld Reg.POW_STAT Fld.POW_STAT_EMERG = min 2 ((t.power.active.map rowLevel).foldl max 0) ∧
      (∀ q, q < 4 → tget 0 t.power.ceil q = if (t.power.active.any fun r => decide (2 ≤ rowLevel r)) = true then 3 else 0) ∧
      t = { b with regs := t.regs, power := t.power })) ∧
  (∀ (s : State) (at_ d : Nat) (b : State), b = s.tick at_ → d = tget 0 b.power.ceil 4 →
    (b.flag Reg.POW_STAT Fld.POW_STAT_GOV = true ∨ d = 0 ∨ b.now < b.power.govStep + 1000000 → exec (.governorRelease at_) s = .next b) ∧
    (b.flag Reg.POW_STAT Fld.POW_STAT_GOV = false → d ≠ 0 → b.power.govStep + 1000000 ≤ b.now → ∃ t, exec (.governorRelease at_) s = .next t ∧
      (∀ q, q < 4 → tget 0 t.power.ceil (4 + q) = d - 1) ∧ t.power.govStep = b.now ∧ t = { b with regs := t.regs, power := t.power })) ∧
  ∀ (s : State) (at_ : Nat) (b : State), b = s.tick at_ → ∃ t, exec (.ridgeWindow at_) s = .next t ∧
    t.power.windows = (b.power.windows.filter fun w => decide (b.now < w.stop)) ∧
    (∀ q, q < 4 → (t.flag (Reg.POW_OP q) Fld.POW_OP_BOOST = true ↔ b.alive 1 = true ∧ b.critCeil q = false ∧
      ∃ w ∈ b.power.windows, b.now < w.stop ∧ w.quads.contains q = true ∧ w.boostAt ≤ b.now)) ∧
    b.fieldsBut t ((List.range 4).flatMap fun q => [(Reg.POW_OP q, Fld.POW_OP_BOOST), (Reg.POW_OP q, Fld.POW_OP_VCORE)]) ∧
    t = { b with regs := t.regs, power := t.power }

/-! ## Temperature and housekeeping -/

/-- A sample of a region sets TMAX, FAILED and RATE from the sensors that have not failed (R453 to R455); a condition of R456 that holds is active
after it, EMERG and LEVEL show the highest level, and the Trip temperature stops the converter (R456, R458). The demands of ended
conditions are released one point per ms (R457; the step and its time are the model's reading). -/
def Obligations.TemperaturesRaiseConditions : Prop :=
  (∀ (s : State) (g at_ : Nat) (temps : List Int) (b u : State) (T : Int) (rate : Option Int), b = s.tick at_ → g < 15 →
    u = b.each ((List.range (sensorsOf g)).zip temps) (fun s (x : Nat × Int) => s.readSensor g x.1 x.2) → T = u.regionMax g →
    rate = (if hasRate g = true then (riseRate (tget [] u.therm.hist (regionBandKey g)) u.now T).1 else none) →
    (b.powered = false → exec (.thermalSample g temps at_) s = .next b) ∧
    (b.powered = true → g ≤ 12 → 1840 ≤ T → ∃ t, exec (.thermalSample g temps at_) s = .next t ∧ t.therm.tripped = true ∧ t.therm.lastTrip = g ∧
      t.therm.tripMax = T ∧ t.therm.offAt = b.now ∧ t.ctxs = [] ∧ t.mem = {} ∧ t.flash = b.flash) ∧
    (b.powered = true → 12 < g ∨ T < 1840 → ∃ t, exec (.thermalSample g temps at_) s = .next t ∧
      t.fld (Reg.THM_REGION g) Fld.THM_REGION_TMAX = unsigned 12 (max (-2048) (min 2047 T)) ∧
      t.fld (Reg.THM_REGION g) Fld.THM_REGION_FAILED = (sensorsOf g - (u.goodSensors g).length) % 512 ∧
      t.fld (Reg.THM_REGION g) Fld.THM_REGION_RATE = unsigned 8 (max (-128) (min 127 (rate.getD 0))) ∧
      (∀ row ∈ condRows g, b.condHolds row T rate = true → row ≠ 1 ∨ t.condOn g 2 = false → t.condOn g row = true) ∧
      t.fld Reg.THM_STAT Fld.THM_STAT_EMERG = ((t.therm.conds.filter fun c => !c.ended).map Cond.level).foldl max 0 % 4 ∧
      t.fld (Reg.THM_REGION g) Fld.THM_REGION_LEVEL =
        ((t.therm.conds.filter fun c => !c.ended && c.region == g).map Cond.level).foldl max 0 % 4)) ∧
  ∀ (s : State) (g at_ : Nat) (b : State), b = s.tick at_ → g < 15 → ∃ t, exec (.demandRelease g at_) s = .next t ∧
    t.therm.conds = (b.therm.conds.map fun (c : Cond) => if c.region = g ∧ c.ended = true ∧ c.stepAt + 1000000 ≤ b.now then
      { c with demand := c.demand - 1, stepAt := b.now } else c).filter (fun c => !(c.ended && c.demand == 0)) ∧
    (∀ q, q < 4 → t.opCeil q = b.opCeil q ∨ t.opCeil q = min 5 (((t.therm.conds.filter fun c => c.quad == q).map Cond.demand).foldl max
      (max (tget 0 b.power.ceil q) (tget 0 b.power.ceil (4 + q))))) ∧
    t = { b with regs := t.regs, therm := t.therm, power := t.power }

/-- The sequencer issues the next entry of the table when its pair is free (R441), the end of a period gives POW.INPUT (R427, R439, R440), sheds two
phases of the input converter below 800 W and restores them above 900 W (R418) and counts the periods over the cap by 5 % and by 10 % (R436), and
the reference counts as settled after its time (R443). -/
def Obligations.ConvertersFollowTheirTable : Prop :=
  (∀ (s : State) (at_ : Nat) (b : State) (p : Option Nat), b = s.tick at_ →
    p = b.nextEntry 128 (b.fld Reg.HKC_STAT Fld.HKC_STAT_CURSOR) →
    (b.flag Reg.HKC_CFG Fld.HKC_CFG_RUN = false ∨ p = none → exec (.sequencerEntry at_) s =
      .next (b.setFlag Reg.HKC_STAT Fld.HKC_STAT_SEQ_IDLE true)) ∧
    (∀ e k, b.flag Reg.HKC_CFG Fld.HKC_CFG_RUN = true → p = some e → k = b.fld (Reg.HKC_CHTBL e) Fld.HKC_CHTBL_PAIR →
      ∃ t, exec (.sequencerEntry at_) s = .next t ∧ t.flag Reg.HKC_STAT Fld.HKC_STAT_SEQ_IDLE = false ∧
        (b.now < b.hkc.nextAt ∨ (tkeys b.hkc.busy).contains k = true ∨ tget 0 b.hkc.calLeft k ≠ 0 → t.hkc = b.hkc ∧
          t.fld Reg.HKC_STAT Fld.HKC_STAT_CURSOR = e % 64) ∧
        (b.hkc.nextAt ≤ b.now → (tkeys b.hkc.busy).contains k = false → tget 0 b.hkc.calLeft k = 0 →
          t.hkc = { b.hkc with
            nextAt := b.now + 1000 * b.fld (Reg.HKC_CHTBL e) Fld.HKC_CHTBL_DELAY,
            busy := tins k ⟨e, b.fld (Reg.HKC_CHTBL e) Fld.HKC_CHTBL_CH_V, b.fld (Reg.HKC_CHTBL e) Fld.HKC_CHTBL_CH_I,
              b.fld (Reg.HKC_CHTBL e) Fld.HKC_CHTBL_REPEAT, 0⟩ b.hkc.busy } ∧
          t.fld Reg.HKC_STAT Fld.HKC_STAT_CURSOR = if b.flag (Reg.HKC_CHTBL e) Fld.HKC_CHTBL_LAST = true then 0 else (e + 1) % 64) ∧
        b.fieldsBut t [(Reg.HKC_STAT, Fld.HKC_STAT_SEQ_IDLE), (Reg.HKC_STAT, Fld.HKC_STAT_CURSOR)] ∧ t = { b with regs := t.regs, hkc := t.hkc })) ∧
  (∀ (s : State) (codeV codeI energy : Int) (at_ : Nat) (b : State) (pm cap : Rat), b = s.tick at_ → tget 0 b.hkc.calLeft 0 = 0 →
    pm = (energy : Rat) / periodUs b.hkc.cfgNow → cap = (b.capQ : Rat) → ∃ t, exec (.integrationPeriodEnd 0 codeV codeI energy at_) s = .next t ∧
      t.fld Reg.POW_INPUT Fld.POW_INPUT_VIN = min 16383 (max 0 (codeClamp codeV * 10240 / 524288)).toNat ∧
      t.fld Reg.POW_INPUT Fld.POW_INPUT_IIN = min 8191 (max 0 (codeClamp codeI * 8192 / 524288)).toNat ∧
      t.fld Reg.POW_INPUT Fld.POW_INPUT_PIN = min 65535 pm.floor.toNat ∧
      t.power.phases = (if pm < 3200 then 2 else if 3600 < pm then 4 else b.power.phases) ∧
      t.power.over5 = (if 105 * cap < 100 * pm then b.power.over5 + 1 else 0) ∧
      t.power.over10 = (if 110 * cap < 100 * pm then b.power.over10 + 1 else 0) ∧
      t.hkc.cfgNow = (b.reg Reg.HKC_CFG).toNat % 2 ^ 19 ∧ t.power.peSum = 0 ∧ t.power.peN = 0 ∧
      (refSel t.hkc.cfgNow ≠ refSel b.hkc.cfgNow → t.flag Reg.HKC_STAT Fld.HKC_STAT_REF_SETTLED = false ∧ t.hkc.refAt = b.now) ∧
      t = { b with regs := t.regs, hkc := t.hkc, power := t.power }) ∧
  (∀ (s : State) (k : Nat) (codeV codeI energy : Int) (at_ : Nat) (b : State), b = s.tick at_ → k < 6 →
    (tget 0 b.hkc.calLeft k ≠ 0 → ∃ t, exec (.integrationPeriodEnd k codeV codeI energy at_) s = .next t ∧
      tget 0 t.hkc.calLeft k = tget 0 b.hkc.calLeft k - 1 ∧ t.hkc.queue = b.hkc.queue) ∧
    (k ≠ 0 → tget 0 b.hkc.calLeft k = 0 → (tkeys b.hkc.busy).contains k = false →
      exec (.integrationPeriodEnd k codeV codeI energy at_) s = .next b)) ∧
  ∀ (s : State) (at_ wait : Nat) (b : State), b = s.tick at_ → wait = (if refSel b.hkc.cfgNow = 1 then 1000000 else 5000000) →
    (b.hkc.refAt + wait ≤ b.now → exec (.refSettled at_) s = .next (b.setFlag Reg.HKC_STAT Fld.HKC_STAT_REF_SETTLED true)) ∧
    (b.now < b.hkc.refAt + wait → exec (.refSettled at_) s = .next b)

/-- Each conversion of pairs 1 to 5 gives the queue two tagged results, voltage first; the queue holds 256, and a result that finds it full is dropped
and counted while SEQ runs on. A read of QREAD by the consumer that QOWN names removes the oldest entry, one by anyone else, or of an empty
queue, returns 0 and removes nothing (R442). -/
def Obligations.ResultsEnterOneQueue : Prop :=
  (∀ (s : State) (k : Nat) (codeV codeI energy : Int) (at_ : Nat) (b : State) (p : HPair) (w : Int → Nat → Bool → Nat → Nat → Word64), b = s.tick at_ →
    1 ≤ k → k < 6 → tget 0 b.hkc.calLeft k = 0 → (tkeys b.hkc.busy).contains k = true → p = tget ⟨0, 0, 0, 0, 0⟩ b.hkc.busy k →
    (∀ c ch i conv seq, w c ch i conv seq = resultWord (if channelReserved i ch = true then 0 else codeClamp c) ch i conv p.entry p.rep
      (channelReserved i ch || codeOver (codeClamp c)) (!(b.flag Reg.HKC_STAT Fld.HKC_STAT_REF_SETTLED)) seq) →
    ∃ t, exec (.integrationPeriodEnd k codeV codeI energy at_) s = .next t ∧
      t.hkc.queue = b.hkc.queue ++
        [⟨w codeV p.chV false (2 * k) b.hkc.seq⟩, ⟨w codeI p.chI true (2 * k + 1) ((b.hkc.seq + 1) % 65536)⟩].take (256 - b.hkc.queue.length) ∧
      b.counted t Reg.HKC_CNT Fld.HKC_CNT_QOVF (2 - (256 - b.hkc.queue.length)) ∧ t.hkc.seq = (b.hkc.seq + 2) % 65536 ∧
      (b.hkc.queue.length < 256 → t.fld Reg.HKC_STAT Fld.HKC_STAT_QLEVEL = t.hkc.queue.length) ∧
      t.hkc.busy = (if p.left = 0 then tdel k b.hkc.busy else tins k { p with left := p.left - 1, rep := p.rep + 1 } b.hkc.busy) ∧
      t = { b with regs := t.regs, hkc := t.hkc }) ∧
  ∀ (s : State) (half : Half), s.hostUp = true →
    (∀ r t, s.hkc.queue = r :: t → s.flag Reg.HKC_CFG Fld.HKC_CFG_QOWN = true →
      ∃ u, exec (.qread 0 half) s = .next u ∧ u.hkc = { s.hkc with queue := t } ∧
        u.out = (match half with
          | .whole => leBytes 8 r.word.toNat
          | .low => leBytes 4 (getBits r.word 0 32)
          | .high => leBytes 4 (getBits r.word 32 32)) ∧
        (t.length < 512 → u.fld Reg.HKC_STAT Fld.HKC_STAT_QLEVEL = t.length) ∧
        s.fieldsBut u [(Reg.HKC_STAT, Fld.HKC_STAT_QLEVEL)] ∧ u = { s with regs := u.regs, hkc := u.hkc, out := u.out }) ∧
    (∀ fn, s.decodes fn = true → (s.hkc.queue = [] ∨ s.flag Reg.HKC_CFG Fld.HKC_CFG_QOWN = false ∨ fn ≠ 0) →
      exec (.qread fn half) s = .next { s with out := leBytes (if half = .whole then 8 else 4) 0 })

/-! ## Processors and records in flash -/

/-- A crash counts a processor's restart, names its cause, logs it and ends the long operations that it carries (R474 to R476), and an ALIVE
processor takes up its duties again (R493). An activation whose processors do not all come ALIVE within 30 ms goes back to the previous bank
(R485, R486). The fault log, the map record and the laser hours are written to flash when its arbiter grants the requester, which the
pointer then passes (R350, R469, R470, R508, R598); the hours once per hour. -/
def Obligations.ProcessorsRestartAndRecordsAreWritten : Prop :=
  (∀ (s : State) (i at_ : Nat) (cause : CrashCause) (b : State) (r : RegRef), b = s.tick at_ → i < 8 → r = Reg.FWP_PROC i →
    (b.phase < 9 ∨ 3 ≤ b.fw.phase → exec (.watchdog i cause at_) s = .next b) ∧
    (9 ≤ b.phase → b.fw.phase < 3 → ∃ t, exec (.watchdog i cause at_) s = .next t ∧ t.alive i = false ∧
      b.counted t r Fld.FWP_PROC_RESTARTS 1 ∧ t.fld r Fld.FWP_PROC_LAST_CAUSE = crashCode cause ∧
      t.fld r Fld.FWP_PROC_LAST_TIME = b.time / 1000 % 2 ^ 32 ∧
      t.faultLog.entries.getLast? = some ⟨b.time, 0x0701, 1, srcHw, i, leBytes 1 (crashCode cause)⟩ ∧
      (∀ o ∈ t.longOps, o.pkt.proc ≠ i) ∧ (i = 1 → t.flag Reg.POW_STAT Fld.POW_STAT_GOV = true) ∧ t.flash = b.flash)) ∧
  (∀ (s : State) (i at_ : Nat) (b : State), b = s.tick at_ → i < 8 →
    (b.alive i = true ∨ b.phase < 9 ∨ b.recovery = true ∨ 4 ≤ i ∧ b.quadOff (i - 4) = true ∨
        i ≠ 3 ∧ b.fld (Reg.FWP_PROC i) Fld.FWP_PROC_LAST_CAUSE = 3 ∧ b.alive 3 = false → exec (.alive i at_) s = .next b) ∧
    (b.alive i = false → 9 ≤ b.phase → b.recovery = false → (i < 4 ∨ b.quadOff (i - 4) = false) →
      (i = 3 ∨ b.fld (Reg.FWP_PROC i) Fld.FWP_PROC_LAST_CAUSE ≠ 3 ∨ b.alive 3 = true) → (b.proc i).queue = [] →
      ∃ t, exec (.alive i at_) s = .next t ∧ t.alive i = true ∧ (i = 1 → t.flag Reg.POW_STAT Fld.POW_STAT_GOV = false) ∧
        (∀ h bank, b.fw.act = some (h, bank) → b.fw.phase = 3 → (∀ k, k < 8 → k ≠ i → b.alive k = true) →
          t.fw.act = none ∧ t.flash.active = bank ∧ t.fld Reg.FWP_ACT Fld.FWP_ACT_RESULT = 1))) ∧
  (∀ (s : State) (at_ : Nat) (b : State), b = s.tick at_ →
    (b.fw.phase ≠ 3 ∨ b.allAlive = true ∨ b.now < b.fw.releasedAt + 30000000 → exec (.activationTimeout at_) s = .next b) ∧
    (b.fw.phase = 3 → b.allAlive = false → b.fw.releasedAt + 30000000 ≤ b.now → ∃ t, exec (.activationTimeout at_) s = .next t ∧
      t.fw.phase = 4 ∧ t.fld Reg.FWP_BOOT Fld.FWP_BOOT_BOOTED_BANK = b.fw.prevBank % 2 ∧ t.fw.releasedAt = b.now ∧
      (∀ i, i < 8 → t.alive i = false) ∧ t.flash = b.flash)) ∧
  (∀ (s : State) (at_ : Nat) (b : State) (l : FLog), b = s.tick at_ → l = { b.faultLog with seq := b.faultLog.seq + 1, dirtyAt := none } →
    exec (.faultLogFlush at_) s = .next (if b.faultLog.dirtyAt.isNone = true ∨ b.flashMay 0 = false then b
      else { b with fw := { b.fw with flashPtr := 1 }, faultLog := l, flash := { b.flash with flog := some l, flogBad := false } }) ∧
    exec (.mapRecordWrite at_) s = .next (if b.clk.mapDirty.isNone = true ∨ b.flashMay 1 = false then b
      else { b with fw := { b.fw with flashPtr := 2 }, clk := { b.clk with mapDirty := none }, flash := { b.flash with mapRec := some b.mapRecord, mapBad := false } })) ∧
  ∀ (s : State) (q at_ last : Nat) (b : State), b = s.tick at_ → q < 4 → last = tget 0 b.fw.hoursAt q →
    (b.pcp q = false ∨ b.flashMay 2 = false ∨ last ≠ 0 ∧ b.now < last - 1 + 3600000000000 → exec (.lifetimeCounterWrite q at_) s = .next b) ∧
    (b.pcp q = true → b.flashMay 2 = true → (last = 0 ∨ last - 1 + 3600000000000 ≤ b.now) → ∃ t, exec (.lifetimeCounterWrite q at_) s = .next t ∧
      (∀ n, laserOk n = true → lasQuad n = q → b.lasSt n = 4 →
        t.fld (Reg.LAS_STAT n) Fld.LAS_STAT_HOURS = min (2 ^ 24 - 1) (b.fld (Reg.LAS_STAT n) Fld.LAS_STAT_HOURS + 1) ∧
        tget 0 t.flash.hours n = t.fld (Reg.LAS_STAT n) Fld.LAS_STAT_HOURS) ∧
      (∀ n, laserOk n = true → lasQuad n ≠ q ∨ b.lasSt n ≠ 4 →
        t.fld (Reg.LAS_STAT n) Fld.LAS_STAT_HOURS = b.fld (Reg.LAS_STAT n) Fld.LAS_STAT_HOURS) ∧
      t = { b with regs := t.regs, flash := { b.flash with hours := t.flash.hours },
                   fw := { b.fw with flashPtr := 3, hoursAt := tset 0 b.fw.hoursAt q (b.now + 1) } })
end

