-- ==== Sys2Proof/Laws/Bits.lean ====
section
/-! SUPPORT. Bit fields: a field reads back what was put into it, and a field disjoint from the one written keeps its value. -/

namespace Sys2Proof.Machine

theorem testBit_bitsOf {v lo n i : Nat} : (bitsOf v lo n).testBit i = (decide (i < n) && v.testBit (lo + i)) := by
  unfold bitsOf
  rw [Nat.testBit_mod_two_pow, Nat.testBit_div_two_pow, Nat.add_comm]

theorem testBit_putNat {v lo n x i : Nat} :
    (v % 2 ^ lo + (x % 2 ^ n) * 2 ^ lo + v / 2 ^ (lo + n) * 2 ^ (lo + n)).testBit i =
      if lo ≤ i ∧ i < lo + n then x.testBit (i - lo) else v.testBit i := by
  have h1 : v % 2 ^ lo + (x % 2 ^ n) * 2 ^ lo + v / 2 ^ (lo + n) * 2 ^ (lo + n) =
      2 ^ lo * (2 ^ n * (v / 2 ^ (lo + n)) + x % 2 ^ n) + v % 2 ^ lo := by
    rw [Nat.pow_add, Nat.mul_add]; ac_rfl
  rw [h1, Nat.testBit_two_pow_mul_add _ (Nat.mod_lt _ (Nat.two_pow_pos _)),
    Nat.testBit_two_pow_mul_add _ (Nat.mod_lt _ (Nat.two_pow_pos _)), Nat.testBit_mod_two_pow, Nat.testBit_mod_two_pow,
    Nat.testBit_div_two_pow]
  by_cases h : i < lo
  · simp [h, Nat.not_le.2 h]
  · by_cases h2 : i - lo < n
    · have h3 : lo ≤ i ∧ i < lo + n := by omega
      simp [h, h2, h3]
    · have h3 : ¬(lo ≤ i ∧ i < lo + n) := by omega
      have h4 : i - lo - n + (lo + n) = i := by omega
      simp [h, h2, h3, h4]

/-- A field that fits the register reads back what was put into it. -/
theorem getBits_putBits_self {v : Word64} {lo n x : Nat} (h : lo + n ≤ 64) : getBits (putBits v lo n x) lo n = x % 2 ^ n := by
  apply Nat.eq_of_testBit_eq
  intro i
  unfold getBits putBits
  rw [testBit_bitsOf, BitVec.toNat_ofNat, Nat.testBit_mod_two_pow, testBit_putNat, Nat.testBit_mod_two_pow]
  by_cases hi : i < n
  · have h2 : lo + i < 64 := by omega
    simp [hi, h2]
  · simp [hi]

/-- A field disjoint from the one written keeps its value. -/
theorem getBits_putBits_of_disjoint {v : Word64} {lo n x lo' n' : Nat} (h : lo' + n' ≤ lo ∨ lo + n ≤ lo') :
    getBits (putBits v lo n x) lo' n' = getBits v lo' n' := by
  apply Nat.eq_of_testBit_eq
  intro i
  unfold getBits putBits
  rw [testBit_bitsOf, testBit_bitsOf, BitVec.toNat_ofNat, Nat.testBit_mod_two_pow, testBit_putNat]
  by_cases hi : i < n'
  · have h2 : ¬(lo ≤ lo' + i ∧ lo' + i < lo + n) := by omega
    simp only [hi, h2, decide_true, Bool.true_and, if_false]
    by_cases h3 : lo' + i < 64
    · simp [h3]
    · have : v.toNat.testBit (lo' + i) = false :=
        Nat.testBit_lt_two_pow (Nat.lt_of_lt_of_le v.isLt (Nat.pow_le_pow_right (by omega) (by omega)))
      simp [this]
  · simp [hi]

end Sys2Proof.Machine
end

