-- ==== Sys2Proof/Laws/Table.lean ====
section
/-! SUPPORT. Sparse tables and device memory: a read after a write, and that every operation keeps the canonical form. -/

namespace Sys2Proof.Machine

/-- Every key of a table is at least n. -/
def tfrom {α : Type} (n : Nat) (t : Tbl α) : Prop := ∀ e ∈ t, n ≤ e.1

theorem tsorted_cons {α : Type} {k : Nat} {v : α} {t : Tbl α} :
    tsorted ((k, v) :: t) = true ↔ tfrom (k + 1) t ∧ tsorted t = true := by
  induction t generalizing k v with
  | nil => simp [tsorted, tfrom]
  | cons e t ih =>
    obtain ⟨b, y⟩ := e
    simp only [tsorted, Bool.and_eq_true, decide_eq_true_eq]
    constructor
    · rintro ⟨h, hs⟩
      refine ⟨?_, hs⟩
      intro e he
      rcases List.mem_cons.1 he with rfl | he
      · exact h
      · have := (ih.1 hs).1 e he; omega
    · rintro ⟨h, hs⟩
      exact ⟨h (b, y) (by simp), hs⟩

theorem tfrom_mono {α : Type} {m n : Nat} {t : Tbl α} (h : tfrom n t) (hm : m ≤ n) : tfrom m t :=
  fun e he => Nat.le_trans hm (h e he)

theorem tfrom_tins {α : Type} {n i : Nat} {x : α} {t : Tbl α} (h : tfrom n t) (hi : n ≤ i) : tfrom n (tins i x t) := by
  induction t with
  | nil => intro e he; simp [tins] at he; subst he; exact hi
  | cons e t ih =>
    obtain ⟨k, v⟩ := e
    have hk : n ≤ k := h (k, v) (by simp)
    have ht : tfrom n t := fun e he => h e (by simp [he])
    intro e he
    simp only [tins] at he
    split at he
    · rcases List.mem_cons.1 he with rfl | he
      · exact hi
      · exact h e he
    · split at he
      · rcases List.mem_cons.1 he with rfl | he
        · exact hi
        · exact ht e he
      · rcases List.mem_cons.1 he with rfl | he
        · exact hk
        · exact ih ht e he

theorem tfrom_tdel {α : Type} {n i : Nat} {t : Tbl α} (h : tfrom n t) : tfrom n (tdel i t) := by
  induction t with
  | nil => exact h
  | cons e t ih =>
    obtain ⟨k, v⟩ := e
    have ht : tfrom n t := fun e he => h e (by simp [he])
    simp only [tdel]
    split
    · exact ih ht
    · intro e he
      rcases List.mem_cons.1 he with rfl | he
      · exact h _ (by simp)
      · exact ih ht e he

theorem tsorted_tins {α : Type} {i : Nat} {x : α} {t : Tbl α} (h : tsorted t = true) : tsorted (tins i x t) = true := by
  induction t with
  | nil => rfl
  | cons e t ih =>
    obtain ⟨k, v⟩ := e
    obtain ⟨hk, ht⟩ := tsorted_cons.1 h
    simp only [tins]
    split
    · refine tsorted_cons.2 ⟨?_, h⟩
      intro e he
      rcases List.mem_cons.1 he with rfl | he
      · assumption
      · have := hk e he; omega
    · split
      · subst_vars; exact tsorted_cons.2 ⟨hk, ht⟩
      · exact tsorted_cons.2 ⟨tfrom_tins hk (by omega), ih ht⟩

theorem tsorted_tdel {α : Type} {i : Nat} {t : Tbl α} (h : tsorted t = true) : tsorted (tdel i t) = true := by
  induction t with
  | nil => rfl
  | cons e t ih =>
    obtain ⟨k, v⟩ := e
    obtain ⟨hk, ht⟩ := tsorted_cons.1 h
    simp only [tdel]
    split
    · exact ih ht
    · exact tsorted_cons.2 ⟨tfrom_tdel hk, ih ht⟩

theorem tsorted_tset {α : Type} [DecidableEq α] {d : α} {i : Nat} {x : α} {t : Tbl α} (h : tsorted t = true) :
    tsorted (tset d t i x) = true := by
  unfold tset
  split
  · exact tsorted_tdel h
  · exact tsorted_tins h

theorem tsorted_filter {α : Type} {f : Nat × α → Bool} {t : Tbl α} (h : tsorted t = true) :
    tsorted (t.filter f) = true := by
  induction t with
  | nil => rfl
  | cons e t ih =>
    obtain ⟨k, v⟩ := e
    obtain ⟨hk, ht⟩ := tsorted_cons.1 h
    simp only [List.filter_cons]
    split
    · exact tsorted_cons.2 ⟨fun e he => hk e ((List.mem_filter.1 he).1), ih ht⟩
    · exact ih ht

theorem tsorted_map {α β : Type} {f : Nat × α → Nat × β} (hf : ∀ e, (f e).1 = e.1) {t : Tbl α} (h : tsorted t = true) :
    tsorted (t.map f) = true := by
  induction t with
  | nil => rfl
  | cons e t ih =>
    obtain ⟨k, v⟩ := e
    obtain ⟨hk, ht⟩ := tsorted_cons.1 h
    simp only [List.map_cons]
    have : f (k, v) = (k, (f (k, v)).2) := Prod.ext (hf _) rfl
    rw [this]
    refine tsorted_cons.2 ⟨?_, ih ht⟩
    intro e he
    obtain ⟨a, ha, rfl⟩ := List.mem_map.1 he
    rw [hf]; exact hk a ha

/-- Two tables in key order, the keys of the first below those of the second. -/
theorem tsorted_append {α : Type} {n : Nat} {t u : Tbl α} (ht : tsorted t = true) (hu : tsorted u = true)
    (htn : ∀ e ∈ t, e.1 < n) (hun : ∀ e ∈ u, n ≤ e.1) : tsorted (t ++ u) = true := by
  induction t with
  | nil => exact hu
  | cons e t ih =>
    obtain ⟨k, v⟩ := e
    obtain ⟨hk, ht⟩ := tsorted_cons.1 ht
    simp only [List.cons_append]
    refine tsorted_cons.2 ⟨?_, ih ht (fun e he => htn e (by simp [he]))⟩
    intro e he
    rcases List.mem_append.1 he with he | he
    · exact hk e he
    · have h1 := htn (k, v) (by simp); have h2 := hun e he; simp only at h1; omega

/-- A table listed part by part, part k with its keys from `lo k` up to below `lo (k + 1)`. -/
theorem tsorted_parts {α : Type} {g : Nat → Tbl α} {lo : Nat → Nat} (hs : ∀ k, tsorted (g k) = true)
    (hl : ∀ k, ∀ e ∈ g k, lo k ≤ e.1 ∧ e.1 < lo (k + 1)) (hm : ∀ k, lo k ≤ lo (k + 1)) (n : Nat) :
    tsorted ((List.range n).flatMap g) = true ∧ ∀ e ∈ (List.range n).flatMap g, lo 0 ≤ e.1 ∧ e.1 < lo n := by
  have h0 : ∀ n, lo 0 ≤ lo n := by
    intro n
    induction n with
    | zero => exact Nat.le_refl _
    | succ n ih => exact Nat.le_trans ih (hm n)
  induction n with
  | zero => exact ⟨rfl, fun e he => by simp at he⟩
  | succ n ih =>
    simp only [List.range_succ, List.flatMap_append, List.flatMap_singleton]
    refine ⟨tsorted_append ih.1 (hs n) (fun e he => (ih.2 e he).2) fun e he => (hl n e he).1, ?_⟩
    intro e he
    rcases List.mem_append.1 he with he | he
    · exact ⟨(ih.2 e he).1, Nat.lt_of_lt_of_le (ih.2 e he).2 (hm n)⟩
    · exact ⟨Nat.le_trans (h0 n) (hl n e he).1, (hl n e he).2⟩

theorem tget_tins {α : Type} {d : α} {i j : Nat} {x : α} {t : Tbl α} :
    tget d (tins i x t) j = if j = i then x else tget d t j := by
  induction t with
  | nil => simp [tins, tget]
  | cons e t ih =>
    obtain ⟨k, v⟩ := e
    simp only [tins]
    split
    · simp [tget]
    · split
      · subst_vars; simp only [tget]; split <;> simp_all
      · simp only [tget, ih]; split <;> split <;> simp_all

theorem tget_below {α : Type} {d : α} {j n : Nat} {t : Tbl α} (h : tfrom n t) (hj : j < n) : tget d t j = d := by
  induction t with
  | nil => rfl
  | cons e t ih =>
    obtain ⟨k, v⟩ := e
    have := h (k, v) (by simp)
    simp only [tget]
    rw [if_neg (by simp only at this; omega)]
    exact ih fun e he => h e (by simp [he])

theorem tget_tdel {α : Type} {d : α} {i j : Nat} {t : Tbl α} :
    tget d (tdel i t) j = if j = i then d else tget d t j := by
  induction t with
  | nil => simp [tdel, tget]
  | cons e t ih =>
    obtain ⟨k, v⟩ := e
    simp only [tdel]
    split
    · subst_vars; rw [ih]; simp only [tget]; split <;> simp_all
    · simp only [tget, ih]; split <;> split <;> simp_all

/-- A read after a write of a table. -/
theorem tget_tset {α : Type} [DecidableEq α] {d : α} {i j : Nat} {x : α} {t : Tbl α} :
    tget d (tset d t i x) j = if j = i then x else tget d t j := by
  unfold tset
  split
  · subst_vars; exact tget_tdel
  · exact tget_tins

@[simp] theorem tget_tset_self {α : Type} [DecidableEq α] {d : α} {i : Nat} {x : α} {t : Tbl α} :
    tget d (tset d t i x) i = x := by simp [tget_tset]

/-- A read at another key of a table written under its own default. -/
theorem tget_tset_ne {α : Type} [DecidableEq α] {d e : α} {i j : Nat} {x : α} {t : Tbl α} (h : j ≠ i) :
    tget e (tset d t i x) j = tget e t j := by
  unfold tset
  split
  · rw [tget_tdel]; simp [h]
  · rw [tget_tins]; simp [h]

/-! ## Device memory -/

theorem mem_tdel {α : Type} {i : Nat} {t : Tbl α} {e : Nat × α} (h : e ∈ tdel i t) : e ∈ t ∧ e.1 ≠ i := by
  induction t with
  | nil => simp [tdel] at h
  | cons a t ih =>
    obtain ⟨k, v⟩ := a
    simp only [tdel] at h
    split at h
    · have := ih h; exact ⟨by simp [this.1], this.2⟩
    · rcases List.mem_cons.1 h with rfl | h
      · refine ⟨by simp, ?_⟩; simp only; omega
      · have := ih h; exact ⟨by simp [this.1], this.2⟩

theorem mem_tins {α : Type} {i : Nat} {x : α} {t : Tbl α} {e : Nat × α} (h : e ∈ tins i x t) : e = (i, x) ∨ e ∈ t := by
  induction t with
  | nil => simpa [tins] using h
  | cons a t ih =>
    obtain ⟨k, v⟩ := a
    simp only [tins] at h
    split at h
    · simpa using h
    · split at h
      · rcases List.mem_cons.1 h with rfl | h
        · exact .inl rfl
        · exact .inr (by simp [h])
      · rcases List.mem_cons.1 h with rfl | h
        · exact .inr (by simp)
        · rcases ih h with h | h
          · exact .inl h
          · exact .inr (by simp [h])

theorem Mem.wf_iff {m : Mem} :
    m.wf = true ↔ tsorted m.cells = true ∧ ∀ c ∈ m.cells, ¬(inRanges m.zeroed c.1 = true ∧ c.2 = 0) := by
  simp only [Mem.wf, Bool.and_eq_true, List.all_eq_true, Bool.not_eq_true', Bool.and_eq_false_iff]
  refine and_congr_right fun _ => forall_congr' fun c => forall_congr' fun _ => ?_
  constructor
  · rintro (h | h) ⟨h1, h2⟩
    · rw [h] at h1; cases h1
    · simp [h2] at h
  · intro h
    by_cases h1 : inRanges m.zeroed c.1 = true
    · exact .inr (by simpa using fun h2 => h ⟨h1, h2⟩)
    · exact .inl (by simpa using h1)

/-- Memory whose cells are some of the old ones, with no more cleared ranges. -/
theorem Mem.wf_of_sub {m n : Mem} (h : m.wf = true) (hs : tsorted n.cells = true) (hc : ∀ c ∈ n.cells, c ∈ m.cells)
    (hz : ∀ a, inRanges n.zeroed a = true → inRanges m.zeroed a = true) : n.wf = true := by
  obtain ⟨_, h2⟩ := Mem.wf_iff.1 h
  exact Mem.wf_iff.2 ⟨hs, fun c hcn hb => h2 c (hc c hcn) ⟨hz _ hb.1, hb.2⟩⟩

theorem Mem.wf_put {m : Mem} {a : Nat} {b : Byte} (h : m.wf = true) : (m.put a b).wf = true := by
  obtain ⟨h1, h2⟩ := Mem.wf_iff.1 h
  refine Mem.wf_iff.2 ⟨?_, ?_⟩ <;> simp only [Mem.put]
  · split
    · exact tsorted_tdel h1
    · exact tsorted_tins h1
  · intro c hc hz
    split at hc
    · exact h2 c (mem_tdel hc).1 hz
    · rename_i hn
      rcases mem_tins hc with rfl | hc
      · exact hn (by have h2 := hz.2; simp only at h2; subst h2; simpa using hz.1)
      · exact h2 c hc hz

theorem Mem.wf_putAll {m : Mem} {a : Nat} {bs : List Byte} (h : m.wf = true) : (m.putAll a bs).wf = true := by
  induction bs generalizing m a with
  | nil => exact h
  | cons b t ih => exact ih (Mem.wf_put h)

theorem Mem.wf_clear {m : Mem} {lo n : Nat} (h : m.wf = true) : (m.clear lo n).wf = true := by
  obtain ⟨h1, h2⟩ := Mem.wf_iff.1 h
  refine Mem.wf_iff.2 ⟨tsorted_filter h1, ?_⟩
  intro c hc hz
  simp only [Mem.clear] at hc hz
  obtain ⟨hc, hn⟩ := List.mem_filter.1 hc
  refine h2 c hc ⟨?_, hz.2⟩
  have hz1 := hz.1
  simp only [inRanges, Bool.or_eq_true] at hz1
  rcases hz1 with hz1 | hz1
  · simp only [hz1, Bool.not_true] at hn; cases hn
  · exact hz1

theorem inRanges_iff {rs : List (Nat × Nat)} {a : Nat} :
    inRanges rs a = true ↔ ∃ r ∈ rs, r.1 ≤ a ∧ a < r.1 + r.2 := by
  induction rs with
  | nil => simp [inRanges]
  | cons r t ih => obtain ⟨lo, n⟩ := r; simp [inRanges, ih]

theorem inRanges_carve {u a : Nat} {rs : List (Nat × Nat)} (h : inRanges (carve u rs) a = true) : inRanges rs a = true := by
  obtain ⟨r, hr, h1, h2⟩ := inRanges_iff.1 h
  simp only [carve, List.mem_flatMap, List.mem_filter, List.mem_cons, List.not_mem_nil, or_false] at hr
  obtain ⟨q, hq, hr, -⟩ := hr
  refine inRanges_iff.2 ⟨q, hq, ?_⟩
  rcases hr with rfl | rfl <;> simp only at h1 h2 <;> constructor <;> omega

theorem Mem.wf_dropUnit {m : Mem} {u a n : Nat} (h : m.wf = true) : (m.dropUnit u a n).wf = true :=
  Mem.wf_of_sub h (tsorted_filter (Mem.wf_iff.1 h).1) (fun _ hc => (List.mem_filter.1 hc).1) fun _ hz => inRanges_carve hz

theorem Mem.wf_rekey {m : Mem} {key a n : Nat} (h : m.wf = true) : (m.rekey key a n).wf = true := by
  unfold Mem.rekey
  generalize unitsOf a n = us
  induction us generalizing m with
  | nil => exact h
  | cons u t ih =>
    simp only [List.foldl_cons]
    apply ih
    split
    · exact h
    · exact Mem.wf_dropUnit h

theorem Mem.wf_heal {m : Mem} {a n : Nat} (h : m.wf = true) : (m.heal a n).wf = true := h

/-- Every write keeps the canonical form. -/
theorem Mem.wf_write {m : Mem} {key : Option Nat} {a : Nat} {bs : List Byte} (h : m.wf = true) :
    (m.write key a bs).wf = true := by
  unfold Mem.write
  apply Mem.wf_putAll
  cases key with
  | none => exact Mem.wf_heal h
  | some k => exact Mem.wf_rekey (Mem.wf_heal h)

end Sys2Proof.Machine
end

