-- ==== Sys2Proof/Laws/State.lean ====
section
/-! SUPPORT. What each primitive operation leaves as it was, field by field and object by object, and what it writes. -/

namespace Sys2Proof.Machine

/-! ## What each operation leaves -/

@[simp] theorem State.wrReg_pending {s : State} {r : RegRef} {v : Word64} : (s.wrReg r v).pending = s.pending := rfl
@[simp] theorem State.wrReg_now {s : State} {r : RegRef} {v : Word64} : (s.wrReg r v).now = s.now := rfl
@[simp] theorem State.wrReg_time {s : State} {r : RegRef} {v : Word64} : (s.wrReg r v).time = s.time := rfl
@[simp] theorem State.wrReg_free {s : State} {r : RegRef} {v : Word64} : (s.wrReg r v).free = s.free := rfl
@[simp] theorem State.wrReg_mem {s : State} {r : RegRef} {v : Word64} : (s.wrReg r v).mem = s.mem := rfl
@[simp] theorem State.wrReg_hostMem {s : State} {r : RegRef} {v : Word64} : (s.wrReg r v).hostMem = s.hostMem := rfl
@[simp] theorem State.wrReg_ctxs {s : State} {r : RegRef} {v : Word64} : (s.wrReg r v).ctxs = s.ctxs := rfl
@[simp] theorem State.wrReg_aux {s : State} {r : RegRef} {v : Word64} : (s.wrReg r v).aux = s.aux := rfl
@[simp] theorem State.wrReg_models {s : State} {r : RegRef} {v : Word64} : (s.wrReg r v).models = s.models := rfl
@[simp] theorem State.wrReg_places {s : State} {r : RegRef} {v : Word64} : (s.wrReg r v).places = s.places := rfl
@[simp] theorem State.wrReg_parts {s : State} {r : RegRef} {v : Word64} : (s.wrReg r v).parts = s.parts := rfl
@[simp] theorem State.wrReg_globalLog {s : State} {r : RegRef} {v : Word64} : (s.wrReg r v).globalLog = s.globalLog := rfl
@[simp] theorem State.wrReg_pairs {s : State} {r : RegRef} {v : Word64} : (s.wrReg r v).pairs = s.pairs := rfl
@[simp] theorem State.wrReg_procs {s : State} {r : RegRef} {v : Word64} : (s.wrReg r v).procs = s.procs := rfl
@[simp] theorem State.wrReg_longOps {s : State} {r : RegRef} {v : Word64} : (s.wrReg r v).longOps = s.longOps := rfl
@[simp] theorem State.wrReg_tiles {s : State} {r : RegRef} {v : Word64} : (s.wrReg r v).tiles = s.tiles := rfl
@[simp] theorem State.wrReg_phys {s : State} {r : RegRef} {v : Word64} : (s.wrReg r v).phys = s.phys := rfl
@[simp] theorem State.wrReg_lasers {s : State} {r : RegRef} {v : Word64} : (s.wrReg r v).lasers = s.lasers := rfl
@[simp] theorem State.wrReg_rings {s : State} {r : RegRef} {v : Word64} : (s.wrReg r v).rings = s.rings := rfl
@[simp] theorem State.wrReg_ports {s : State} {r : RegRef} {v : Word64} : (s.wrReg r v).ports = s.ports := rfl
@[simp] theorem State.wrReg_fabric {s : State} {r : RegRef} {v : Word64} : (s.wrReg r v).fabric = s.fabric := rfl
@[simp] theorem State.wrReg_twin {s : State} {r : RegRef} {v : Word64} : (s.wrReg r v).twin = s.twin := rfl
@[simp] theorem State.wrReg_cal {s : State} {r : RegRef} {v : Word64} : (s.wrReg r v).cal = s.cal := rfl
@[simp] theorem State.wrReg_power {s : State} {r : RegRef} {v : Word64} : (s.wrReg r v).power = s.power := rfl
@[simp] theorem State.wrReg_hkc {s : State} {r : RegRef} {v : Word64} : (s.wrReg r v).hkc = s.hkc := rfl
@[simp] theorem State.wrReg_therm {s : State} {r : RegRef} {v : Word64} : (s.wrReg r v).therm = s.therm := rfl
@[simp] theorem State.wrReg_faultLog {s : State} {r : RegRef} {v : Word64} : (s.wrReg r v).faultLog = s.faultLog := rfl
@[simp] theorem State.wrReg_flash {s : State} {r : RegRef} {v : Word64} : (s.wrReg r v).flash = s.flash := rfl
@[simp] theorem State.wrReg_fw {s : State} {r : RegRef} {v : Word64} : (s.wrReg r v).fw = s.fw := rfl
@[simp] theorem State.wrReg_sec {s : State} {r : RegRef} {v : Word64} : (s.wrReg r v).sec = s.sec := rfl
@[simp] theorem State.wrReg_clk {s : State} {r : RegRef} {v : Word64} : (s.wrReg r v).clk = s.clk := rfl
@[simp] theorem State.wrReg_pcie {s : State} {r : RegRef} {v : Word64} : (s.wrReg r v).pcie = s.pcie := rfl
@[simp] theorem State.wrReg_side {s : State} {r : RegRef} {v : Word64} : (s.wrReg r v).side = s.side := rfl
@[simp] theorem State.wrReg_sched {s : State} {r : RegRef} {v : Word64} : (s.wrReg r v).sched = s.sched := rfl
@[simp] theorem State.wrReg_out {s : State} {r : RegRef} {v : Word64} : (s.wrReg r v).out = s.out := rfl
@[simp] theorem State.wrReg_ctx_acc {s : State} {r : RegRef} {v : Word64} {z : Nat} : (s.wrReg r v).ctx z = s.ctx z := rfl
@[simp] theorem State.wrReg_auxOf_acc {s : State} {r : RegRef} {v : Word64} {z : Nat} : (s.wrReg r v).auxOf z = s.auxOf z := rfl
@[simp] theorem State.wrReg_model_acc {s : State} {r : RegRef} {v : Word64} {z : Nat} : (s.wrReg r v).model z = s.model z := rfl
@[simp] theorem State.wrReg_place_acc {s : State} {r : RegRef} {v : Word64} {z : Nat} : (s.wrReg r v).place z = s.place z := rfl
@[simp] theorem State.wrReg_part_acc {s : State} {r : RegRef} {v : Word64} {z : Nat} : (s.wrReg r v).part z = s.part z := rfl
@[simp] theorem State.wrReg_pair_acc {s : State} {r : RegRef} {v : Word64} {z y : Nat} : (s.wrReg r v).pair z y = s.pair z y := rfl
@[simp] theorem State.wrReg_proc_acc {s : State} {r : RegRef} {v : Word64} {z : Nat} : (s.wrReg r v).proc z = s.proc z := rfl
@[simp] theorem State.wrReg_tile_acc {s : State} {r : RegRef} {v : Word64} {z : Nat} : (s.wrReg r v).tile z = s.tile z := rfl
@[simp] theorem State.wrReg_phy_acc {s : State} {r : RegRef} {v : Word64} {z : Nat} : (s.wrReg r v).phy z = s.phy z := rfl
@[simp] theorem State.wrReg_laser_acc {s : State} {r : RegRef} {v : Word64} {z : Nat} : (s.wrReg r v).laser z = s.laser z := rfl
@[simp] theorem State.wrReg_ring_acc {s : State} {r : RegRef} {v : Word64} {z y : Nat} : (s.wrReg r v).ring z y = s.ring z y := rfl
@[simp] theorem State.wrReg_port_acc {s : State} {r : RegRef} {v : Word64} {z : Nat} : (s.wrReg r v).port z = s.port z := rfl
@[simp] theorem State.setFld_pending {s : State} {r : RegRef} {f : Field} {x : Nat} : (s.setFld r f x).pending = s.pending := rfl
@[simp] theorem State.setFld_now {s : State} {r : RegRef} {f : Field} {x : Nat} : (s.setFld r f x).now = s.now := rfl
@[simp] theorem State.setFld_time {s : State} {r : RegRef} {f : Field} {x : Nat} : (s.setFld r f x).time = s.time := rfl
@[simp] theorem State.setFld_free {s : State} {r : RegRef} {f : Field} {x : Nat} : (s.setFld r f x).free = s.free := rfl
@[simp] theorem State.setFld_mem {s : State} {r : RegRef} {f : Field} {x : Nat} : (s.setFld r f x).mem = s.mem := rfl
@[simp] theorem State.setFld_hostMem {s : State} {r : RegRef} {f : Field} {x : Nat} : (s.setFld r f x).hostMem = s.hostMem := rfl
@[simp] theorem State.setFld_ctxs {s : State} {r : RegRef} {f : Field} {x : Nat} : (s.setFld r f x).ctxs = s.ctxs := rfl
@[simp] theorem State.setFld_aux {s : State} {r : RegRef} {f : Field} {x : Nat} : (s.setFld r f x).aux = s.aux := rfl
@[simp] theorem State.setFld_models {s : State} {r : RegRef} {f : Field} {x : Nat} : (s.setFld r f x).models = s.models := rfl
@[simp] theorem State.setFld_places {s : State} {r : RegRef} {f : Field} {x : Nat} : (s.setFld r f x).places = s.places := rfl
@[simp] theorem State.setFld_parts {s : State} {r : RegRef} {f : Field} {x : Nat} : (s.setFld r f x).parts = s.parts := rfl
@[simp] theorem State.setFld_globalLog {s : State} {r : RegRef} {f : Field} {x : Nat} : (s.setFld r f x).globalLog = s.globalLog := rfl
@[simp] theorem State.setFld_pairs {s : State} {r : RegRef} {f : Field} {x : Nat} : (s.setFld r f x).pairs = s.pairs := rfl
@[simp] theorem State.setFld_procs {s : State} {r : RegRef} {f : Field} {x : Nat} : (s.setFld r f x).procs = s.procs := rfl
@[simp] theorem State.setFld_longOps {s : State} {r : RegRef} {f : Field} {x : Nat} : (s.setFld r f x).longOps = s.longOps := rfl
@[simp] theorem State.setFld_tiles {s : State} {r : RegRef} {f : Field} {x : Nat} : (s.setFld r f x).tiles = s.tiles := rfl
@[simp] theorem State.setFld_phys {s : State} {r : RegRef} {f : Field} {x : Nat} : (s.setFld r f x).phys = s.phys := rfl
@[simp] theorem State.setFld_lasers {s : State} {r : RegRef} {f : Field} {x : Nat} : (s.setFld r f x).lasers = s.lasers := rfl
@[simp] theorem State.setFld_rings {s : State} {r : RegRef} {f : Field} {x : Nat} : (s.setFld r f x).rings = s.rings := rfl
@[simp] theorem State.setFld_ports {s : State} {r : RegRef} {f : Field} {x : Nat} : (s.setFld r f x).ports = s.ports := rfl
@[simp] theorem State.setFld_fabric {s : State} {r : RegRef} {f : Field} {x : Nat} : (s.setFld r f x).fabric = s.fabric := rfl
@[simp] theorem State.setFld_twin {s : State} {r : RegRef} {f : Field} {x : Nat} : (s.setFld r f x).twin = s.twin := rfl
@[simp] theorem State.setFld_cal {s : State} {r : RegRef} {f : Field} {x : Nat} : (s.setFld r f x).cal = s.cal := rfl
@[simp] theorem State.setFld_power {s : State} {r : RegRef} {f : Field} {x : Nat} : (s.setFld r f x).power = s.power := rfl
@[simp] theorem State.setFld_hkc {s : State} {r : RegRef} {f : Field} {x : Nat} : (s.setFld r f x).hkc = s.hkc := rfl
@[simp] theorem State.setFld_therm {s : State} {r : RegRef} {f : Field} {x : Nat} : (s.setFld r f x).therm = s.therm := rfl
@[simp] theorem State.setFld_faultLog {s : State} {r : RegRef} {f : Field} {x : Nat} : (s.setFld r f x).faultLog = s.faultLog := rfl
@[simp] theorem State.setFld_flash {s : State} {r : RegRef} {f : Field} {x : Nat} : (s.setFld r f x).flash = s.flash := rfl
@[simp] theorem State.setFld_fw {s : State} {r : RegRef} {f : Field} {x : Nat} : (s.setFld r f x).fw = s.fw := rfl
@[simp] theorem State.setFld_sec {s : State} {r : RegRef} {f : Field} {x : Nat} : (s.setFld r f x).sec = s.sec := rfl
@[simp] theorem State.setFld_clk {s : State} {r : RegRef} {f : Field} {x : Nat} : (s.setFld r f x).clk = s.clk := rfl
@[simp] theorem State.setFld_pcie {s : State} {r : RegRef} {f : Field} {x : Nat} : (s.setFld r f x).pcie = s.pcie := rfl
@[simp] theorem State.setFld_side {s : State} {r : RegRef} {f : Field} {x : Nat} : (s.setFld r f x).side = s.side := rfl
@[simp] theorem State.setFld_sched {s : State} {r : RegRef} {f : Field} {x : Nat} : (s.setFld r f x).sched = s.sched := rfl
@[simp] theorem State.setFld_out {s : State} {r : RegRef} {f : Field} {x : Nat} : (s.setFld r f x).out = s.out := rfl
@[simp] theorem State.setFld_ctx_acc {s : State} {r : RegRef} {f : Field} {x : Nat} {z : Nat} : (s.setFld r f x).ctx z = s.ctx z := rfl
@[simp] theorem State.setFld_auxOf_acc {s : State} {r : RegRef} {f : Field} {x : Nat} {z : Nat} : (s.setFld r f x).auxOf z = s.auxOf z := rfl
@[simp] theorem State.setFld_model_acc {s : State} {r : RegRef} {f : Field} {x : Nat} {z : Nat} : (s.setFld r f x).model z = s.model z := rfl
@[simp] theorem State.setFld_place_acc {s : State} {r : RegRef} {f : Field} {x : Nat} {z : Nat} : (s.setFld r f x).place z = s.place z := rfl
@[simp] theorem State.setFld_part_acc {s : State} {r : RegRef} {f : Field} {x : Nat} {z : Nat} : (s.setFld r f x).part z = s.part z := rfl
@[simp] theorem State.setFld_pair_acc {s : State} {r : RegRef} {f : Field} {x : Nat} {z y : Nat} : (s.setFld r f x).pair z y = s.pair z y := rfl
@[simp] theorem State.setFld_proc_acc {s : State} {r : RegRef} {f : Field} {x : Nat} {z : Nat} : (s.setFld r f x).proc z = s.proc z := rfl
@[simp] theorem State.setFld_tile_acc {s : State} {r : RegRef} {f : Field} {x : Nat} {z : Nat} : (s.setFld r f x).tile z = s.tile z := rfl
@[simp] theorem State.setFld_phy_acc {s : State} {r : RegRef} {f : Field} {x : Nat} {z : Nat} : (s.setFld r f x).phy z = s.phy z := rfl
@[simp] theorem State.setFld_laser_acc {s : State} {r : RegRef} {f : Field} {x : Nat} {z : Nat} : (s.setFld r f x).laser z = s.laser z := rfl
@[simp] theorem State.setFld_ring_acc {s : State} {r : RegRef} {f : Field} {x : Nat} {z y : Nat} : (s.setFld r f x).ring z y = s.ring z y := rfl
@[simp] theorem State.setFld_port_acc {s : State} {r : RegRef} {f : Field} {x : Nat} {z : Nat} : (s.setFld r f x).port z = s.port z := rfl
@[simp] theorem State.setFlag_pending {s : State} {r : RegRef} {f : Field} {b : Bool} : (s.setFlag r f b).pending = s.pending := rfl
@[simp] theorem State.setFlag_now {s : State} {r : RegRef} {f : Field} {b : Bool} : (s.setFlag r f b).now = s.now := rfl
@[simp] theorem State.setFlag_time {s : State} {r : RegRef} {f : Field} {b : Bool} : (s.setFlag r f b).time = s.time := rfl
@[simp] theorem State.setFlag_free {s : State} {r : RegRef} {f : Field} {b : Bool} : (s.setFlag r f b).free = s.free := rfl
@[simp] theorem State.setFlag_mem {s : State} {r : RegRef} {f : Field} {b : Bool} : (s.setFlag r f b).mem = s.mem := rfl
@[simp] theorem State.setFlag_hostMem {s : State} {r : RegRef} {f : Field} {b : Bool} : (s.setFlag r f b).hostMem = s.hostMem := rfl
@[simp] theorem State.setFlag_ctxs {s : State} {r : RegRef} {f : Field} {b : Bool} : (s.setFlag r f b).ctxs = s.ctxs := rfl
@[simp] theorem State.setFlag_aux {s : State} {r : RegRef} {f : Field} {b : Bool} : (s.setFlag r f b).aux = s.aux := rfl
@[simp] theorem State.setFlag_models {s : State} {r : RegRef} {f : Field} {b : Bool} : (s.setFlag r f b).models = s.models := rfl
@[simp] theorem State.setFlag_places {s : State} {r : RegRef} {f : Field} {b : Bool} : (s.setFlag r f b).places = s.places := rfl
@[simp] theorem State.setFlag_parts {s : State} {r : RegRef} {f : Field} {b : Bool} : (s.setFlag r f b).parts = s.parts := rfl
@[simp] theorem State.setFlag_globalLog {s : State} {r : RegRef} {f : Field} {b : Bool} : (s.setFlag r f b).globalLog = s.globalLog := rfl
@[simp] theorem State.setFlag_pairs {s : State} {r : RegRef} {f : Field} {b : Bool} : (s.setFlag r f b).pairs = s.pairs := rfl
@[simp] theorem State.setFlag_procs {s : State} {r : RegRef} {f : Field} {b : Bool} : (s.setFlag r f b).procs = s.procs := rfl
@[simp] theorem State.setFlag_longOps {s : State} {r : RegRef} {f : Field} {b : Bool} : (s.setFlag r f b).longOps = s.longOps := rfl
@[simp] theorem State.setFlag_tiles {s : State} {r : RegRef} {f : Field} {b : Bool} : (s.setFlag r f b).tiles = s.tiles := rfl
@[simp] theorem State.setFlag_phys {s : State} {r : RegRef} {f : Field} {b : Bool} : (s.setFlag r f b).phys = s.phys := rfl
@[simp] theorem State.setFlag_lasers {s : State} {r : RegRef} {f : Field} {b : Bool} : (s.setFlag r f b).lasers = s.lasers := rfl
@[simp] theorem State.setFlag_rings {s : State} {r : RegRef} {f : Field} {b : Bool} : (s.setFlag r f b).rings = s.rings := rfl
@[simp] theorem State.setFlag_ports {s : State} {r : RegRef} {f : Field} {b : Bool} : (s.setFlag r f b).ports = s.ports := rfl
@[simp] theorem State.setFlag_fabric {s : State} {r : RegRef} {f : Field} {b : Bool} : (s.setFlag r f b).fabric = s.fabric := rfl
@[simp] theorem State.setFlag_twin {s : State} {r : RegRef} {f : Field} {b : Bool} : (s.setFlag r f b).twin = s.twin := rfl
@[simp] theorem State.setFlag_cal {s : State} {r : RegRef} {f : Field} {b : Bool} : (s.setFlag r f b).cal = s.cal := rfl
@[simp] theorem State.setFlag_power {s : State} {r : RegRef} {f : Field} {b : Bool} : (s.setFlag r f b).power = s.power := rfl
@[simp] theorem State.setFlag_hkc {s : State} {r : RegRef} {f : Field} {b : Bool} : (s.setFlag r f b).hkc = s.hkc := rfl
@[simp] theorem State.setFlag_therm {s : State} {r : RegRef} {f : Field} {b : Bool} : (s.setFlag r f b).therm = s.therm := rfl
@[simp] theorem State.setFlag_faultLog {s : State} {r : RegRef} {f : Field} {b : Bool} : (s.setFlag r f b).faultLog = s.faultLog := rfl
@[simp] theorem State.setFlag_flash {s : State} {r : RegRef} {f : Field} {b : Bool} : (s.setFlag r f b).flash = s.flash := rfl
@[simp] theorem State.setFlag_fw {s : State} {r : RegRef} {f : Field} {b : Bool} : (s.setFlag r f b).fw = s.fw := rfl
@[simp] theorem State.setFlag_sec {s : State} {r : RegRef} {f : Field} {b : Bool} : (s.setFlag r f b).sec = s.sec := rfl
@[simp] theorem State.setFlag_clk {s : State} {r : RegRef} {f : Field} {b : Bool} : (s.setFlag r f b).clk = s.clk := rfl
@[simp] theorem State.setFlag_pcie {s : State} {r : RegRef} {f : Field} {b : Bool} : (s.setFlag r f b).pcie = s.pcie := rfl
@[simp] theorem State.setFlag_side {s : State} {r : RegRef} {f : Field} {b : Bool} : (s.setFlag r f b).side = s.side := rfl
@[simp] theorem State.setFlag_sched {s : State} {r : RegRef} {f : Field} {b : Bool} : (s.setFlag r f b).sched = s.sched := rfl
@[simp] theorem State.setFlag_out {s : State} {r : RegRef} {f : Field} {b : Bool} : (s.setFlag r f b).out = s.out := rfl
@[simp] theorem State.setFlag_ctx_acc {s : State} {r : RegRef} {f : Field} {b : Bool} {z : Nat} : (s.setFlag r f b).ctx z = s.ctx z := rfl
@[simp] theorem State.setFlag_auxOf_acc {s : State} {r : RegRef} {f : Field} {b : Bool} {z : Nat} : (s.setFlag r f b).auxOf z = s.auxOf z := rfl
@[simp] theorem State.setFlag_model_acc {s : State} {r : RegRef} {f : Field} {b : Bool} {z : Nat} : (s.setFlag r f b).model z = s.model z := rfl
@[simp] theorem State.setFlag_place_acc {s : State} {r : RegRef} {f : Field} {b : Bool} {z : Nat} : (s.setFlag r f b).place z = s.place z := rfl
@[simp] theorem State.setFlag_part_acc {s : State} {r : RegRef} {f : Field} {b : Bool} {z : Nat} : (s.setFlag r f b).part z = s.part z := rfl
@[simp] theorem State.setFlag_pair_acc {s : State} {r : RegRef} {f : Field} {b : Bool} {z y : Nat} : (s.setFlag r f b).pair z y = s.pair z y := rfl
@[simp] theorem State.setFlag_proc_acc {s : State} {r : RegRef} {f : Field} {b : Bool} {z : Nat} : (s.setFlag r f b).proc z = s.proc z := rfl
@[simp] theorem State.setFlag_tile_acc {s : State} {r : RegRef} {f : Field} {b : Bool} {z : Nat} : (s.setFlag r f b).tile z = s.tile z := rfl
@[simp] theorem State.setFlag_phy_acc {s : State} {r : RegRef} {f : Field} {b : Bool} {z : Nat} : (s.setFlag r f b).phy z = s.phy z := rfl
@[simp] theorem State.setFlag_laser_acc {s : State} {r : RegRef} {f : Field} {b : Bool} {z : Nat} : (s.setFlag r f b).laser z = s.laser z := rfl
@[simp] theorem State.setFlag_ring_acc {s : State} {r : RegRef} {f : Field} {b : Bool} {z y : Nat} : (s.setFlag r f b).ring z y = s.ring z y := rfl
@[simp] theorem State.setFlag_port_acc {s : State} {r : RegRef} {f : Field} {b : Bool} {z : Nat} : (s.setFlag r f b).port z = s.port z := rfl
@[simp] theorem State.rstReg_pending {s : State} {r : RegRef} : (s.rstReg r).pending = s.pending := rfl
@[simp] theorem State.rstReg_now {s : State} {r : RegRef} : (s.rstReg r).now = s.now := rfl
@[simp] theorem State.rstReg_time {s : State} {r : RegRef} : (s.rstReg r).time = s.time := rfl
@[simp] theorem State.rstReg_free {s : State} {r : RegRef} : (s.rstReg r).free = s.free := rfl
@[simp] theorem State.rstReg_mem {s : State} {r : RegRef} : (s.rstReg r).mem = s.mem := rfl
@[simp] theorem State.rstReg_hostMem {s : State} {r : RegRef} : (s.rstReg r).hostMem = s.hostMem := rfl
@[simp] theorem State.rstReg_ctxs {s : State} {r : RegRef} : (s.rstReg r).ctxs = s.ctxs := rfl
@[simp] theorem State.rstReg_aux {s : State} {r : RegRef} : (s.rstReg r).aux = s.aux := rfl
@[simp] theorem State.rstReg_models {s : State} {r : RegRef} : (s.rstReg r).models = s.models := rfl
@[simp] theorem State.rstReg_places {s : State} {r : RegRef} : (s.rstReg r).places = s.places := rfl
@[simp] theorem State.rstReg_parts {s : State} {r : RegRef} : (s.rstReg r).parts = s.parts := rfl
@[simp] theorem State.rstReg_globalLog {s : State} {r : RegRef} : (s.rstReg r).globalLog = s.globalLog := rfl
@[simp] theorem State.rstReg_pairs {s : State} {r : RegRef} : (s.rstReg r).pairs = s.pairs := rfl
@[simp] theorem State.rstReg_procs {s : State} {r : RegRef} : (s.rstReg r).procs = s.procs := rfl
@[simp] theorem State.rstReg_longOps {s : State} {r : RegRef} : (s.rstReg r).longOps = s.longOps := rfl
@[simp] theorem State.rstReg_tiles {s : State} {r : RegRef} : (s.rstReg r).tiles = s.tiles := rfl
@[simp] theorem State.rstReg_phys {s : State} {r : RegRef} : (s.rstReg r).phys = s.phys := rfl
@[simp] theorem State.rstReg_lasers {s : State} {r : RegRef} : (s.rstReg r).lasers = s.lasers := rfl
@[simp] theorem State.rstReg_rings {s : State} {r : RegRef} : (s.rstReg r).rings = s.rings := rfl
@[simp] theorem State.rstReg_ports {s : State} {r : RegRef} : (s.rstReg r).ports = s.ports := rfl
@[simp] theorem State.rstReg_fabric {s : State} {r : RegRef} : (s.rstReg r).fabric = s.fabric := rfl
@[simp] theorem State.rstReg_twin {s : State} {r : RegRef} : (s.rstReg r).twin = s.twin := rfl
@[simp] theorem State.rstReg_cal {s : State} {r : RegRef} : (s.rstReg r).cal = s.cal := rfl
@[simp] theorem State.rstReg_power {s : State} {r : RegRef} : (s.rstReg r).power = s.power := rfl
@[simp] theorem State.rstReg_hkc {s : State} {r : RegRef} : (s.rstReg r).hkc = s.hkc := rfl
@[simp] theorem State.rstReg_therm {s : State} {r : RegRef} : (s.rstReg r).therm = s.therm := rfl
@[simp] theorem State.rstReg_faultLog {s : State} {r : RegRef} : (s.rstReg r).faultLog = s.faultLog := rfl
@[simp] theorem State.rstReg_flash {s : State} {r : RegRef} : (s.rstReg r).flash = s.flash := rfl
@[simp] theorem State.rstReg_fw {s : State} {r : RegRef} : (s.rstReg r).fw = s.fw := rfl
@[simp] theorem State.rstReg_sec {s : State} {r : RegRef} : (s.rstReg r).sec = s.sec := rfl
@[simp] theorem State.rstReg_clk {s : State} {r : RegRef} : (s.rstReg r).clk = s.clk := rfl
@[simp] theorem State.rstReg_pcie {s : State} {r : RegRef} : (s.rstReg r).pcie = s.pcie := rfl
@[simp] theorem State.rstReg_side {s : State} {r : RegRef} : (s.rstReg r).side = s.side := rfl
@[simp] theorem State.rstReg_sched {s : State} {r : RegRef} : (s.rstReg r).sched = s.sched := rfl
@[simp] theorem State.rstReg_out {s : State} {r : RegRef} : (s.rstReg r).out = s.out := rfl
@[simp] theorem State.rstReg_ctx_acc {s : State} {r : RegRef} {z : Nat} : (s.rstReg r).ctx z = s.ctx z := rfl
@[simp] theorem State.rstReg_auxOf_acc {s : State} {r : RegRef} {z : Nat} : (s.rstReg r).auxOf z = s.auxOf z := rfl
@[simp] theorem State.rstReg_model_acc {s : State} {r : RegRef} {z : Nat} : (s.rstReg r).model z = s.model z := rfl
@[simp] theorem State.rstReg_place_acc {s : State} {r : RegRef} {z : Nat} : (s.rstReg r).place z = s.place z := rfl
@[simp] theorem State.rstReg_part_acc {s : State} {r : RegRef} {z : Nat} : (s.rstReg r).part z = s.part z := rfl
@[simp] theorem State.rstReg_pair_acc {s : State} {r : RegRef} {z y : Nat} : (s.rstReg r).pair z y = s.pair z y := rfl
@[simp] theorem State.rstReg_proc_acc {s : State} {r : RegRef} {z : Nat} : (s.rstReg r).proc z = s.proc z := rfl
@[simp] theorem State.rstReg_tile_acc {s : State} {r : RegRef} {z : Nat} : (s.rstReg r).tile z = s.tile z := rfl
@[simp] theorem State.rstReg_phy_acc {s : State} {r : RegRef} {z : Nat} : (s.rstReg r).phy z = s.phy z := rfl
@[simp] theorem State.rstReg_laser_acc {s : State} {r : RegRef} {z : Nat} : (s.rstReg r).laser z = s.laser z := rfl
@[simp] theorem State.rstReg_ring_acc {s : State} {r : RegRef} {z y : Nat} : (s.rstReg r).ring z y = s.ring z y := rfl
@[simp] theorem State.rstReg_port_acc {s : State} {r : RegRef} {z : Nat} : (s.rstReg r).port z = s.port z := rfl
@[simp] theorem State.bumpBy_pending {s : State} {r : RegRef} {f : Field} {n : Nat} : (s.bumpBy r f n).pending = s.pending := by unfold State.bumpBy; split <;> rfl
@[simp] theorem State.bumpBy_now {s : State} {r : RegRef} {f : Field} {n : Nat} : (s.bumpBy r f n).now = s.now := by unfold State.bumpBy; split <;> rfl
@[simp] theorem State.bumpBy_time {s : State} {r : RegRef} {f : Field} {n : Nat} : (s.bumpBy r f n).time = s.time := by unfold State.bumpBy; split <;> rfl
@[simp] theorem State.bumpBy_free {s : State} {r : RegRef} {f : Field} {n : Nat} : (s.bumpBy r f n).free = s.free := by unfold State.bumpBy; split <;> rfl
@[simp] theorem State.bumpBy_mem {s : State} {r : RegRef} {f : Field} {n : Nat} : (s.bumpBy r f n).mem = s.mem := by unfold State.bumpBy; split <;> rfl
@[simp] theorem State.bumpBy_hostMem {s : State} {r : RegRef} {f : Field} {n : Nat} : (s.bumpBy r f n).hostMem = s.hostMem := by unfold State.bumpBy; split <;> rfl
@[simp] theorem State.bumpBy_ctxs {s : State} {r : RegRef} {f : Field} {n : Nat} : (s.bumpBy r f n).ctxs = s.ctxs := by unfold State.bumpBy; split <;> rfl
@[simp] theorem State.bumpBy_aux {s : State} {r : RegRef} {f : Field} {n : Nat} : (s.bumpBy r f n).aux = s.aux := by unfold State.bumpBy; split <;> rfl
@[simp] theorem State.bumpBy_models {s : State} {r : RegRef} {f : Field} {n : Nat} : (s.bumpBy r f n).models = s.models := by unfold State.bumpBy; split <;> rfl
@[simp] theorem State.bumpBy_places {s : State} {r : RegRef} {f : Field} {n : Nat} : (s.bumpBy r f n).places = s.places := by unfold State.bumpBy; split <;> rfl
@[simp] theorem State.bumpBy_parts {s : State} {r : RegRef} {f : Field} {n : Nat} : (s.bumpBy r f n).parts = s.parts := by unfold State.bumpBy; split <;> rfl
@[simp] theorem State.bumpBy_globalLog {s : State} {r : RegRef} {f : Field} {n : Nat} : (s.bumpBy r f n).globalLog = s.globalLog := by unfold State.bumpBy; split <;> rfl
@[simp] theorem State.bumpBy_pairs {s : State} {r : RegRef} {f : Field} {n : Nat} : (s.bumpBy r f n).pairs = s.pairs := by unfold State.bumpBy; split <;> rfl
@[simp] theorem State.bumpBy_procs {s : State} {r : RegRef} {f : Field} {n : Nat} : (s.bumpBy r f n).procs = s.procs := by unfold State.bumpBy; split <;> rfl
@[simp] theorem State.bumpBy_longOps {s : State} {r : RegRef} {f : Field} {n : Nat} : (s.bumpBy r f n).longOps = s.longOps := by unfold State.bumpBy; split <;> rfl
@[simp] theorem State.bumpBy_tiles {s : State} {r : RegRef} {f : Field} {n : Nat} : (s.bumpBy r f n).tiles = s.tiles := by unfold State.bumpBy; split <;> rfl
@[simp] theorem State.bumpBy_phys {s : State} {r : RegRef} {f : Field} {n : Nat} : (s.bumpBy r f n).phys = s.phys := by unfold State.bumpBy; split <;> rfl
@[simp] theorem State.bumpBy_lasers {s : State} {r : RegRef} {f : Field} {n : Nat} : (s.bumpBy r f n).lasers = s.lasers := by unfold State.bumpBy; split <;> rfl
@[simp] theorem State.bumpBy_rings {s : State} {r : RegRef} {f : Field} {n : Nat} : (s.bumpBy r f n).rings = s.rings := by unfold State.bumpBy; split <;> rfl
@[simp] theorem State.bumpBy_ports {s : State} {r : RegRef} {f : Field} {n : Nat} : (s.bumpBy r f n).ports = s.ports := by unfold State.bumpBy; split <;> rfl
@[simp] theorem State.bumpBy_fabric {s : State} {r : RegRef} {f : Field} {n : Nat} : (s.bumpBy r f n).fabric = s.fabric := by unfold State.bumpBy; split <;> rfl
@[simp] theorem State.bumpBy_twin {s : State} {r : RegRef} {f : Field} {n : Nat} : (s.bumpBy r f n).twin = s.twin := by unfold State.bumpBy; split <;> rfl
@[simp] theorem State.bumpBy_cal {s : State} {r : RegRef} {f : Field} {n : Nat} : (s.bumpBy r f n).cal = s.cal := by unfold State.bumpBy; split <;> rfl
@[simp] theorem State.bumpBy_power {s : State} {r : RegRef} {f : Field} {n : Nat} : (s.bumpBy r f n).power = s.power := by unfold State.bumpBy; split <;> rfl
@[simp] theorem State.bumpBy_hkc {s : State} {r : RegRef} {f : Field} {n : Nat} : (s.bumpBy r f n).hkc = s.hkc := by unfold State.bumpBy; split <;> rfl
@[simp] theorem State.bumpBy_therm {s : State} {r : RegRef} {f : Field} {n : Nat} : (s.bumpBy r f n).therm = s.therm := by unfold State.bumpBy; split <;> rfl
@[simp] theorem State.bumpBy_faultLog {s : State} {r : RegRef} {f : Field} {n : Nat} : (s.bumpBy r f n).faultLog = s.faultLog := by unfold State.bumpBy; split <;> rfl
@[simp] theorem State.bumpBy_flash {s : State} {r : RegRef} {f : Field} {n : Nat} : (s.bumpBy r f n).flash = s.flash := by unfold State.bumpBy; split <;> rfl
@[simp] theorem State.bumpBy_fw {s : State} {r : RegRef} {f : Field} {n : Nat} : (s.bumpBy r f n).fw = s.fw := by unfold State.bumpBy; split <;> rfl
@[simp] theorem State.bumpBy_sec {s : State} {r : RegRef} {f : Field} {n : Nat} : (s.bumpBy r f n).sec = s.sec := by unfold State.bumpBy; split <;> rfl
@[simp] theorem State.bumpBy_clk {s : State} {r : RegRef} {f : Field} {n : Nat} : (s.bumpBy r f n).clk = s.clk := by unfold State.bumpBy; split <;> rfl
@[simp] theorem State.bumpBy_pcie {s : State} {r : RegRef} {f : Field} {n : Nat} : (s.bumpBy r f n).pcie = s.pcie := by unfold State.bumpBy; split <;> rfl
@[simp] theorem State.bumpBy_side {s : State} {r : RegRef} {f : Field} {n : Nat} : (s.bumpBy r f n).side = s.side := by unfold State.bumpBy; split <;> rfl
@[simp] theorem State.bumpBy_sched {s : State} {r : RegRef} {f : Field} {n : Nat} : (s.bumpBy r f n).sched = s.sched := by unfold State.bumpBy; split <;> rfl
@[simp] theorem State.bumpBy_out {s : State} {r : RegRef} {f : Field} {n : Nat} : (s.bumpBy r f n).out = s.out := by unfold State.bumpBy; split <;> rfl
@[simp] theorem State.bumpBy_ctx_acc {s : State} {r : RegRef} {f : Field} {n : Nat} {z : Nat} : (s.bumpBy r f n).ctx z = s.ctx z := by unfold State.ctx; simp
@[simp] theorem State.bumpBy_auxOf_acc {s : State} {r : RegRef} {f : Field} {n : Nat} {z : Nat} : (s.bumpBy r f n).auxOf z = s.auxOf z := by unfold State.auxOf; simp
@[simp] theorem State.bumpBy_model_acc {s : State} {r : RegRef} {f : Field} {n : Nat} {z : Nat} : (s.bumpBy r f n).model z = s.model z := by unfold State.model; simp
@[simp] theorem State.bumpBy_place_acc {s : State} {r : RegRef} {f : Field} {n : Nat} {z : Nat} : (s.bumpBy r f n).place z = s.place z := by unfold State.place; simp
@[simp] theorem State.bumpBy_part_acc {s : State} {r : RegRef} {f : Field} {n : Nat} {z : Nat} : (s.bumpBy r f n).part z = s.part z := by unfold State.part; simp
@[simp] theorem State.bumpBy_pair_acc {s : State} {r : RegRef} {f : Field} {n : Nat} {z y : Nat} : (s.bumpBy r f n).pair z y = s.pair z y := by unfold State.pair; simp
@[simp] theorem State.bumpBy_proc_acc {s : State} {r : RegRef} {f : Field} {n : Nat} {z : Nat} : (s.bumpBy r f n).proc z = s.proc z := by unfold State.proc; simp
@[simp] theorem State.bumpBy_tile_acc {s : State} {r : RegRef} {f : Field} {n : Nat} {z : Nat} : (s.bumpBy r f n).tile z = s.tile z := by unfold State.tile; simp
@[simp] theorem State.bumpBy_phy_acc {s : State} {r : RegRef} {f : Field} {n : Nat} {z : Nat} : (s.bumpBy r f n).phy z = s.phy z := by unfold State.phy; simp
@[simp] theorem State.bumpBy_laser_acc {s : State} {r : RegRef} {f : Field} {n : Nat} {z : Nat} : (s.bumpBy r f n).laser z = s.laser z := by unfold State.laser; simp
@[simp] theorem State.bumpBy_ring_acc {s : State} {r : RegRef} {f : Field} {n : Nat} {z y : Nat} : (s.bumpBy r f n).ring z y = s.ring z y := by unfold State.ring; simp
@[simp] theorem State.bumpBy_port_acc {s : State} {r : RegRef} {f : Field} {n : Nat} {z : Nat} : (s.bumpBy r f n).port z = s.port z := by unfold State.port; simp
@[simp] theorem State.bump_pending {s : State} {r : RegRef} {f : Field} : (s.bump r f).pending = s.pending := rfl
@[simp] theorem State.bump_now {s : State} {r : RegRef} {f : Field} : (s.bump r f).now = s.now := rfl
@[simp] theorem State.bump_time {s : State} {r : RegRef} {f : Field} : (s.bump r f).time = s.time := rfl
@[simp] theorem State.bump_free {s : State} {r : RegRef} {f : Field} : (s.bump r f).free = s.free := rfl
@[simp] theorem State.bump_mem {s : State} {r : RegRef} {f : Field} : (s.bump r f).mem = s.mem := rfl
@[simp] theorem State.bump_hostMem {s : State} {r : RegRef} {f : Field} : (s.bump r f).hostMem = s.hostMem := rfl
@[simp] theorem State.bump_ctxs {s : State} {r : RegRef} {f : Field} : (s.bump r f).ctxs = s.ctxs := rfl
@[simp] theorem State.bump_aux {s : State} {r : RegRef} {f : Field} : (s.bump r f).aux = s.aux := rfl
@[simp] theorem State.bump_models {s : State} {r : RegRef} {f : Field} : (s.bump r f).models = s.models := rfl
@[simp] theorem State.bump_places {s : State} {r : RegRef} {f : Field} : (s.bump r f).places = s.places := rfl
@[simp] theorem State.bump_parts {s : State} {r : RegRef} {f : Field} : (s.bump r f).parts = s.parts := rfl
@[simp] theorem State.bump_globalLog {s : State} {r : RegRef} {f : Field} : (s.bump r f).globalLog = s.globalLog := rfl
@[simp] theorem State.bump_pairs {s : State} {r : RegRef} {f : Field} : (s.bump r f).pairs = s.pairs := rfl
@[simp] theorem State.bump_procs {s : State} {r : RegRef} {f : Field} : (s.bump r f).procs = s.procs := rfl
@[simp] theorem State.bump_longOps {s : State} {r : RegRef} {f : Field} : (s.bump r f).longOps = s.longOps := rfl
@[simp] theorem State.bump_tiles {s : State} {r : RegRef} {f : Field} : (s.bump r f).tiles = s.tiles := rfl
@[simp] theorem State.bump_phys {s : State} {r : RegRef} {f : Field} : (s.bump r f).phys = s.phys := rfl
@[simp] theorem State.bump_lasers {s : State} {r : RegRef} {f : Field} : (s.bump r f).lasers = s.lasers := rfl
@[simp] theorem State.bump_rings {s : State} {r : RegRef} {f : Field} : (s.bump r f).rings = s.rings := rfl
@[simp] theorem State.bump_ports {s : State} {r : RegRef} {f : Field} : (s.bump r f).ports = s.ports := rfl
@[simp] theorem State.bump_fabric {s : State} {r : RegRef} {f : Field} : (s.bump r f).fabric = s.fabric := rfl
@[simp] theorem State.bump_twin {s : State} {r : RegRef} {f : Field} : (s.bump r f).twin = s.twin := rfl
@[simp] theorem State.bump_cal {s : State} {r : RegRef} {f : Field} : (s.bump r f).cal = s.cal := rfl
@[simp] theorem State.bump_power {s : State} {r : RegRef} {f : Field} : (s.bump r f).power = s.power := rfl
@[simp] theorem State.bump_hkc {s : State} {r : RegRef} {f : Field} : (s.bump r f).hkc = s.hkc := rfl
@[simp] theorem State.bump_therm {s : State} {r : RegRef} {f : Field} : (s.bump r f).therm = s.therm := rfl
@[simp] theorem State.bump_faultLog {s : State} {r : RegRef} {f : Field} : (s.bump r f).faultLog = s.faultLog := rfl
@[simp] theorem State.bump_flash {s : State} {r : RegRef} {f : Field} : (s.bump r f).flash = s.flash := rfl
@[simp] theorem State.bump_fw {s : State} {r : RegRef} {f : Field} : (s.bump r f).fw = s.fw := rfl
@[simp] theorem State.bump_sec {s : State} {r : RegRef} {f : Field} : (s.bump r f).sec = s.sec := rfl
@[simp] theorem State.bump_clk {s : State} {r : RegRef} {f : Field} : (s.bump r f).clk = s.clk := rfl
@[simp] theorem State.bump_pcie {s : State} {r : RegRef} {f : Field} : (s.bump r f).pcie = s.pcie := rfl
@[simp] theorem State.bump_side {s : State} {r : RegRef} {f : Field} : (s.bump r f).side = s.side := rfl
@[simp] theorem State.bump_sched {s : State} {r : RegRef} {f : Field} : (s.bump r f).sched = s.sched := rfl
@[simp] theorem State.bump_out {s : State} {r : RegRef} {f : Field} : (s.bump r f).out = s.out := rfl
@[simp] theorem State.bump_ctx_acc {s : State} {r : RegRef} {f : Field} {z : Nat} : (s.bump r f).ctx z = s.ctx z := rfl
@[simp] theorem State.bump_auxOf_acc {s : State} {r : RegRef} {f : Field} {z : Nat} : (s.bump r f).auxOf z = s.auxOf z := rfl
@[simp] theorem State.bump_model_acc {s : State} {r : RegRef} {f : Field} {z : Nat} : (s.bump r f).model z = s.model z := rfl
@[simp] theorem State.bump_place_acc {s : State} {r : RegRef} {f : Field} {z : Nat} : (s.bump r f).place z = s.place z := rfl
@[simp] theorem State.bump_part_acc {s : State} {r : RegRef} {f : Field} {z : Nat} : (s.bump r f).part z = s.part z := rfl
@[simp] theorem State.bump_pair_acc {s : State} {r : RegRef} {f : Field} {z y : Nat} : (s.bump r f).pair z y = s.pair z y := rfl
@[simp] theorem State.bump_proc_acc {s : State} {r : RegRef} {f : Field} {z : Nat} : (s.bump r f).proc z = s.proc z := rfl
@[simp] theorem State.bump_tile_acc {s : State} {r : RegRef} {f : Field} {z : Nat} : (s.bump r f).tile z = s.tile z := rfl
@[simp] theorem State.bump_phy_acc {s : State} {r : RegRef} {f : Field} {z : Nat} : (s.bump r f).phy z = s.phy z := rfl
@[simp] theorem State.bump_laser_acc {s : State} {r : RegRef} {f : Field} {z : Nat} : (s.bump r f).laser z = s.laser z := rfl
@[simp] theorem State.bump_ring_acc {s : State} {r : RegRef} {f : Field} {z y : Nat} : (s.bump r f).ring z y = s.ring z y := rfl
@[simp] theorem State.bump_port_acc {s : State} {r : RegRef} {f : Field} {z : Nat} : (s.bump r f).port z = s.port z := rfl
@[simp] theorem State.useFree_pending {s : State}  : (s.useFree).pending = s.pending := rfl
@[simp] theorem State.useFree_now {s : State}  : (s.useFree).now = s.now := rfl
@[simp] theorem State.useFree_time {s : State}  : (s.useFree).time = s.time := rfl
@[simp] theorem State.useFree_regs {s : State}  : (s.useFree).regs = s.regs := rfl
@[simp] theorem State.useFree_mem {s : State}  : (s.useFree).mem = s.mem := rfl
@[simp] theorem State.useFree_hostMem {s : State}  : (s.useFree).hostMem = s.hostMem := rfl
@[simp] theorem State.useFree_ctxs {s : State}  : (s.useFree).ctxs = s.ctxs := rfl
@[simp] theorem State.useFree_aux {s : State}  : (s.useFree).aux = s.aux := rfl
@[simp] theorem State.useFree_models {s : State}  : (s.useFree).models = s.models := rfl
@[simp] theorem State.useFree_places {s : State}  : (s.useFree).places = s.places := rfl
@[simp] theorem State.useFree_parts {s : State}  : (s.useFree).parts = s.parts := rfl
@[simp] theorem State.useFree_globalLog {s : State}  : (s.useFree).globalLog = s.globalLog := rfl
@[simp] theorem State.useFree_pairs {s : State}  : (s.useFree).pairs = s.pairs := rfl
@[simp] theorem State.useFree_procs {s : State}  : (s.useFree).procs = s.procs := rfl
@[simp] theorem State.useFree_longOps {s : State}  : (s.useFree).longOps = s.longOps := rfl
@[simp] theorem State.useFree_tiles {s : State}  : (s.useFree).tiles = s.tiles := rfl
@[simp] theorem State.useFree_phys {s : State}  : (s.useFree).phys = s.phys := rfl
@[simp] theorem State.useFree_lasers {s : State}  : (s.useFree).lasers = s.lasers := rfl
@[simp] theorem State.useFree_rings {s : State}  : (s.useFree).rings = s.rings := rfl
@[simp] theorem State.useFree_ports {s : State}  : (s.useFree).ports = s.ports := rfl
@[simp] theorem State.useFree_fabric {s : State}  : (s.useFree).fabric = s.fabric := rfl
@[simp] theorem State.useFree_twin {s : State}  : (s.useFree).twin = s.twin := rfl
@[simp] theorem State.useFree_cal {s : State}  : (s.useFree).cal = s.cal := rfl
@[simp] theorem State.useFree_power {s : State}  : (s.useFree).power = s.power := rfl
@[simp] theorem State.useFree_hkc {s : State}  : (s.useFree).hkc = s.hkc := rfl
@[simp] theorem State.useFree_therm {s : State}  : (s.useFree).therm = s.therm := rfl
@[simp] theorem State.useFree_faultLog {s : State}  : (s.useFree).faultLog = s.faultLog := rfl
@[simp] theorem State.useFree_flash {s : State}  : (s.useFree).flash = s.flash := rfl
@[simp] theorem State.useFree_fw {s : State}  : (s.useFree).fw = s.fw := rfl
@[simp] theorem State.useFree_sec {s : State}  : (s.useFree).sec = s.sec := rfl
@[simp] theorem State.useFree_clk {s : State}  : (s.useFree).clk = s.clk := rfl
@[simp] theorem State.useFree_pcie {s : State}  : (s.useFree).pcie = s.pcie := rfl
@[simp] theorem State.useFree_side {s : State}  : (s.useFree).side = s.side := rfl
@[simp] theorem State.useFree_sched {s : State}  : (s.useFree).sched = s.sched := rfl
@[simp] theorem State.useFree_out {s : State}  : (s.useFree).out = s.out := rfl
@[simp] theorem State.useFree_reg_acc {s : State}  {q : RegRef} : (s.useFree).reg q = s.reg q := rfl
@[simp] theorem State.useFree_fld_acc {s : State}  {q : RegRef} {g : Field} : (s.useFree).fld q g = s.fld q g := rfl
@[simp] theorem State.useFree_flag_acc {s : State}  {q : RegRef} {g : Field} : (s.useFree).flag q g = s.flag q g := rfl
@[simp] theorem State.useFree_ctx_acc {s : State}  {z : Nat} : (s.useFree).ctx z = s.ctx z := rfl
@[simp] theorem State.useFree_auxOf_acc {s : State}  {z : Nat} : (s.useFree).auxOf z = s.auxOf z := rfl
@[simp] theorem State.useFree_model_acc {s : State}  {z : Nat} : (s.useFree).model z = s.model z := rfl
@[simp] theorem State.useFree_place_acc {s : State}  {z : Nat} : (s.useFree).place z = s.place z := rfl
@[simp] theorem State.useFree_part_acc {s : State}  {z : Nat} : (s.useFree).part z = s.part z := rfl
@[simp] theorem State.useFree_pair_acc {s : State}  {z y : Nat} : (s.useFree).pair z y = s.pair z y := rfl
@[simp] theorem State.useFree_proc_acc {s : State}  {z : Nat} : (s.useFree).proc z = s.proc z := rfl
@[simp] theorem State.useFree_tile_acc {s : State}  {z : Nat} : (s.useFree).tile z = s.tile z := rfl
@[simp] theorem State.useFree_phy_acc {s : State}  {z : Nat} : (s.useFree).phy z = s.phy z := rfl
@[simp] theorem State.useFree_laser_acc {s : State}  {z : Nat} : (s.useFree).laser z = s.laser z := rfl
@[simp] theorem State.useFree_ring_acc {s : State}  {z y : Nat} : (s.useFree).ring z y = s.ring z y := rfl
@[simp] theorem State.useFree_port_acc {s : State}  {z : Nat} : (s.useFree).port z = s.port z := rfl
@[simp] theorem State.tick_pending {s : State} {t : Nat} : (s.tick t).pending = s.pending := by unfold State.tick; split <;> rfl
@[simp] theorem State.tick_free {s : State} {t : Nat} : (s.tick t).free = s.free := by unfold State.tick; split <;> rfl
@[simp] theorem State.tick_regs {s : State} {t : Nat} : (s.tick t).regs = s.regs := by unfold State.tick; split <;> rfl
@[simp] theorem State.tick_mem {s : State} {t : Nat} : (s.tick t).mem = s.mem := by unfold State.tick; split <;> rfl
@[simp] theorem State.tick_hostMem {s : State} {t : Nat} : (s.tick t).hostMem = s.hostMem := by unfold State.tick; split <;> rfl
@[simp] theorem State.tick_ctxs {s : State} {t : Nat} : (s.tick t).ctxs = s.ctxs := by unfold State.tick; split <;> rfl
@[simp] theorem State.tick_aux {s : State} {t : Nat} : (s.tick t).aux = s.aux := by unfold State.tick; split <;> rfl
@[simp] theorem State.tick_models {s : State} {t : Nat} : (s.tick t).models = s.models := by unfold State.tick; split <;> rfl
@[simp] theorem State.tick_places {s : State} {t : Nat} : (s.tick t).places = s.places := by unfold State.tick; split <;> rfl
@[simp] theorem State.tick_parts {s : State} {t : Nat} : (s.tick t).parts = s.parts := by unfold State.tick; split <;> rfl
@[simp] theorem State.tick_globalLog {s : State} {t : Nat} : (s.tick t).globalLog = s.globalLog := by unfold State.tick; split <;> rfl
@[simp] theorem State.tick_pairs {s : State} {t : Nat} : (s.tick t).pairs = s.pairs := by unfold State.tick; split <;> rfl
@[simp] theorem State.tick_procs {s : State} {t : Nat} : (s.tick t).procs = s.procs := by unfold State.tick; split <;> rfl
@[simp] theorem State.tick_longOps {s : State} {t : Nat} : (s.tick t).longOps = s.longOps := by unfold State.tick; split <;> rfl
@[simp] theorem State.tick_tiles {s : State} {t : Nat} : (s.tick t).tiles = s.tiles := by unfold State.tick; split <;> rfl
@[simp] theorem State.tick_phys {s : State} {t : Nat} : (s.tick t).phys = s.phys := by unfold State.tick; split <;> rfl
@[simp] theorem State.tick_lasers {s : State} {t : Nat} : (s.tick t).lasers = s.lasers := by unfold State.tick; split <;> rfl
@[simp] theorem State.tick_rings {s : State} {t : Nat} : (s.tick t).rings = s.rings := by unfold State.tick; split <;> rfl
@[simp] theorem State.tick_ports {s : State} {t : Nat} : (s.tick t).ports = s.ports := by unfold State.tick; split <;> rfl
@[simp] theorem State.tick_fabric {s : State} {t : Nat} : (s.tick t).fabric = s.fabric := by unfold State.tick; split <;> rfl
@[simp] theorem State.tick_twin {s : State} {t : Nat} : (s.tick t).twin = s.twin := by unfold State.tick; split <;> rfl
@[simp] theorem State.tick_cal {s : State} {t : Nat} : (s.tick t).cal = s.cal := by unfold State.tick; split <;> rfl
@[simp] theorem State.tick_power {s : State} {t : Nat} : (s.tick t).power = s.power := by unfold State.tick; split <;> rfl
@[simp] theorem State.tick_hkc {s : State} {t : Nat} : (s.tick t).hkc = s.hkc := by unfold State.tick; split <;> rfl
@[simp] theorem State.tick_therm {s : State} {t : Nat} : (s.tick t).therm = s.therm := by unfold State.tick; split <;> rfl
@[simp] theorem State.tick_faultLog {s : State} {t : Nat} : (s.tick t).faultLog = s.faultLog := by unfold State.tick; split <;> rfl
@[simp] theorem State.tick_flash {s : State} {t : Nat} : (s.tick t).flash = s.flash := by unfold State.tick; split <;> rfl
@[simp] theorem State.tick_fw {s : State} {t : Nat} : (s.tick t).fw = s.fw := by unfold State.tick; split <;> rfl
@[simp] theorem State.tick_sec {s : State} {t : Nat} : (s.tick t).sec = s.sec := by unfold State.tick; split <;> rfl
@[simp] theorem State.tick_clk {s : State} {t : Nat} : (s.tick t).clk = s.clk := by unfold State.tick; split <;> rfl
@[simp] theorem State.tick_pcie {s : State} {t : Nat} : (s.tick t).pcie = s.pcie := by unfold State.tick; split <;> rfl
@[simp] theorem State.tick_side {s : State} {t : Nat} : (s.tick t).side = s.side := by unfold State.tick; split <;> rfl
@[simp] theorem State.tick_sched {s : State} {t : Nat} : (s.tick t).sched = s.sched := by unfold State.tick; split <;> rfl
@[simp] theorem State.tick_out {s : State} {t : Nat} : (s.tick t).out = s.out := by unfold State.tick; split <;> rfl
@[simp] theorem State.tick_reg_acc {s : State} {t : Nat} {q : RegRef} : (s.tick t).reg q = s.reg q := by unfold State.reg; simp
@[simp] theorem State.tick_fld_acc {s : State} {t : Nat} {q : RegRef} {g : Field} : (s.tick t).fld q g = s.fld q g := by unfold State.fld; simp
@[simp] theorem State.tick_flag_acc {s : State} {t : Nat} {q : RegRef} {g : Field} : (s.tick t).flag q g = s.flag q g := by unfold State.flag; simp
@[simp] theorem State.tick_ctx_acc {s : State} {t : Nat} {z : Nat} : (s.tick t).ctx z = s.ctx z := by unfold State.ctx; simp
@[simp] theorem State.tick_auxOf_acc {s : State} {t : Nat} {z : Nat} : (s.tick t).auxOf z = s.auxOf z := by unfold State.auxOf; simp
@[simp] theorem State.tick_model_acc {s : State} {t : Nat} {z : Nat} : (s.tick t).model z = s.model z := by unfold State.model; simp
@[simp] theorem State.tick_place_acc {s : State} {t : Nat} {z : Nat} : (s.tick t).place z = s.place z := by unfold State.place; simp
@[simp] theorem State.tick_part_acc {s : State} {t : Nat} {z : Nat} : (s.tick t).part z = s.part z := by unfold State.part; simp
@[simp] theorem State.tick_pair_acc {s : State} {t : Nat} {z y : Nat} : (s.tick t).pair z y = s.pair z y := by unfold State.pair; simp
@[simp] theorem State.tick_proc_acc {s : State} {t : Nat} {z : Nat} : (s.tick t).proc z = s.proc z := by unfold State.proc; simp
@[simp] theorem State.tick_tile_acc {s : State} {t : Nat} {z : Nat} : (s.tick t).tile z = s.tile z := by unfold State.tile; simp
@[simp] theorem State.tick_phy_acc {s : State} {t : Nat} {z : Nat} : (s.tick t).phy z = s.phy z := by unfold State.phy; simp
@[simp] theorem State.tick_laser_acc {s : State} {t : Nat} {z : Nat} : (s.tick t).laser z = s.laser z := by unfold State.laser; simp
@[simp] theorem State.tick_ring_acc {s : State} {t : Nat} {z y : Nat} : (s.tick t).ring z y = s.ring z y := by unfold State.ring; simp
@[simp] theorem State.tick_port_acc {s : State} {t : Nat} {z : Nat} : (s.tick t).port z = s.port z := by unfold State.port; simp
@[simp] theorem State.raise_pending {s : State} {f v : Nat} : (s.raise f v).pending = s.pending := by unfold State.raise; split <;> first | rfl | (split <;> rfl)
@[simp] theorem State.raise_now {s : State} {f v : Nat} : (s.raise f v).now = s.now := by unfold State.raise; split <;> first | rfl | (split <;> rfl)
@[simp] theorem State.raise_time {s : State} {f v : Nat} : (s.raise f v).time = s.time := by unfold State.raise; split <;> first | rfl | (split <;> rfl)
@[simp] theorem State.raise_free {s : State} {f v : Nat} : (s.raise f v).free = s.free := by unfold State.raise; split <;> first | rfl | (split <;> rfl)
@[simp] theorem State.raise_regs {s : State} {f v : Nat} : (s.raise f v).regs = s.regs := by unfold State.raise; split <;> first | rfl | (split <;> rfl)
@[simp] theorem State.raise_mem {s : State} {f v : Nat} : (s.raise f v).mem = s.mem := by unfold State.raise; split <;> first | rfl | (split <;> rfl)
@[simp] theorem State.raise_hostMem {s : State} {f v : Nat} : (s.raise f v).hostMem = s.hostMem := by unfold State.raise; split <;> first | rfl | (split <;> rfl)
@[simp] theorem State.raise_ctxs {s : State} {f v : Nat} : (s.raise f v).ctxs = s.ctxs := by unfold State.raise; split <;> first | rfl | (split <;> rfl)
@[simp] theorem State.raise_aux {s : State} {f v : Nat} : (s.raise f v).aux = s.aux := by unfold State.raise; split <;> first | rfl | (split <;> rfl)
@[simp] theorem State.raise_models {s : State} {f v : Nat} : (s.raise f v).models = s.models := by unfold State.raise; split <;> first | rfl | (split <;> rfl)
@[simp] theorem State.raise_places {s : State} {f v : Nat} : (s.raise f v).places = s.places := by unfold State.raise; split <;> first | rfl | (split <;> rfl)
@[simp] theorem State.raise_parts {s : State} {f v : Nat} : (s.raise f v).parts = s.parts := by unfold State.raise; split <;> first | rfl | (split <;> rfl)
@[simp] theorem State.raise_globalLog {s : State} {f v : Nat} : (s.raise f v).globalLog = s.globalLog := by unfold State.raise; split <;> first | rfl | (split <;> rfl)
@[simp] theorem State.raise_pairs {s : State} {f v : Nat} : (s.raise f v).pairs = s.pairs := by unfold State.raise; split <;> first | rfl | (split <;> rfl)
@[simp] theorem State.raise_procs {s : State} {f v : Nat} : (s.raise f v).procs = s.procs := by unfold State.raise; split <;> first | rfl | (split <;> rfl)
@[simp] theorem State.raise_longOps {s : State} {f v : Nat} : (s.raise f v).longOps = s.longOps := by unfold State.raise; split <;> first | rfl | (split <;> rfl)
@[simp] theorem State.raise_tiles {s : State} {f v : Nat} : (s.raise f v).tiles = s.tiles := by unfold State.raise; split <;> first | rfl | (split <;> rfl)
@[simp] theorem State.raise_phys {s : State} {f v : Nat} : (s.raise f v).phys = s.phys := by unfold State.raise; split <;> first | rfl | (split <;> rfl)
@[simp] theorem State.raise_lasers {s : State} {f v : Nat} : (s.raise f v).lasers = s.lasers := by unfold State.raise; split <;> first | rfl | (split <;> rfl)
@[simp] theorem State.raise_rings {s : State} {f v : Nat} : (s.raise f v).rings = s.rings := by unfold State.raise; split <;> first | rfl | (split <;> rfl)
@[simp] theorem State.raise_ports {s : State} {f v : Nat} : (s.raise f v).ports = s.ports := by unfold State.raise; split <;> first | rfl | (split <;> rfl)
@[simp] theorem State.raise_fabric {s : State} {f v : Nat} : (s.raise f v).fabric = s.fabric := by unfold State.raise; split <;> first | rfl | (split <;> rfl)
@[simp] theorem State.raise_twin {s : State} {f v : Nat} : (s.raise f v).twin = s.twin := by unfold State.raise; split <;> first | rfl | (split <;> rfl)
@[simp] theorem State.raise_cal {s : State} {f v : Nat} : (s.raise f v).cal = s.cal := by unfold State.raise; split <;> first | rfl | (split <;> rfl)
@[simp] theorem State.raise_power {s : State} {f v : Nat} : (s.raise f v).power = s.power := by unfold State.raise; split <;> first | rfl | (split <;> rfl)
@[simp] theorem State.raise_hkc {s : State} {f v : Nat} : (s.raise f v).hkc = s.hkc := by unfold State.raise; split <;> first | rfl | (split <;> rfl)
@[simp] theorem State.raise_therm {s : State} {f v : Nat} : (s.raise f v).therm = s.therm := by unfold State.raise; split <;> first | rfl | (split <;> rfl)
@[simp] theorem State.raise_faultLog {s : State} {f v : Nat} : (s.raise f v).faultLog = s.faultLog := by unfold State.raise; split <;> first | rfl | (split <;> rfl)
@[simp] theorem State.raise_flash {s : State} {f v : Nat} : (s.raise f v).flash = s.flash := by unfold State.raise; split <;> first | rfl | (split <;> rfl)
@[simp] theorem State.raise_fw {s : State} {f v : Nat} : (s.raise f v).fw = s.fw := by unfold State.raise; split <;> first | rfl | (split <;> rfl)
@[simp] theorem State.raise_sec {s : State} {f v : Nat} : (s.raise f v).sec = s.sec := by unfold State.raise; split <;> first | rfl | (split <;> rfl)
@[simp] theorem State.raise_clk {s : State} {f v : Nat} : (s.raise f v).clk = s.clk := by unfold State.raise; split <;> first | rfl | (split <;> rfl)
@[simp] theorem State.raise_side {s : State} {f v : Nat} : (s.raise f v).side = s.side := by unfold State.raise; split <;> first | rfl | (split <;> rfl)
@[simp] theorem State.raise_sched {s : State} {f v : Nat} : (s.raise f v).sched = s.sched := by unfold State.raise; split <;> first | rfl | (split <;> rfl)
@[simp] theorem State.raise_out {s : State} {f v : Nat} : (s.raise f v).out = s.out := by unfold State.raise; split <;> first | rfl | (split <;> rfl)
@[simp] theorem State.raise_reg_acc {s : State} {f v : Nat} {q : RegRef} : (s.raise f v).reg q = s.reg q := by unfold State.reg; simp
@[simp] theorem State.raise_fld_acc {s : State} {f v : Nat} {q : RegRef} {g : Field} : (s.raise f v).fld q g = s.fld q g := by unfold State.fld; simp
@[simp] theorem State.raise_flag_acc {s : State} {f v : Nat} {q : RegRef} {g : Field} : (s.raise f v).flag q g = s.flag q g := by unfold State.flag; simp
@[simp] theorem State.raise_ctx_acc {s : State} {f v : Nat} {z : Nat} : (s.raise f v).ctx z = s.ctx z := by unfold State.ctx; simp
@[simp] theorem State.raise_auxOf_acc {s : State} {f v : Nat} {z : Nat} : (s.raise f v).auxOf z = s.auxOf z := by unfold State.auxOf; simp
@[simp] theorem State.raise_model_acc {s : State} {f v : Nat} {z : Nat} : (s.raise f v).model z = s.model z := by unfold State.model; simp
@[simp] theorem State.raise_place_acc {s : State} {f v : Nat} {z : Nat} : (s.raise f v).place z = s.place z := by unfold State.place; simp
@[simp] theorem State.raise_part_acc {s : State} {f v : Nat} {z : Nat} : (s.raise f v).part z = s.part z := by unfold State.part; simp
@[simp] theorem State.raise_pair_acc {s : State} {f v : Nat} {z y : Nat} : (s.raise f v).pair z y = s.pair z y := by unfold State.pair; simp
@[simp] theorem State.raise_proc_acc {s : State} {f v : Nat} {z : Nat} : (s.raise f v).proc z = s.proc z := by unfold State.proc; simp
@[simp] theorem State.raise_tile_acc {s : State} {f v : Nat} {z : Nat} : (s.raise f v).tile z = s.tile z := by unfold State.tile; simp
@[simp] theorem State.raise_phy_acc {s : State} {f v : Nat} {z : Nat} : (s.raise f v).phy z = s.phy z := by unfold State.phy; simp
@[simp] theorem State.raise_laser_acc {s : State} {f v : Nat} {z : Nat} : (s.raise f v).laser z = s.laser z := by unfold State.laser; simp
@[simp] theorem State.raise_ring_acc {s : State} {f v : Nat} {z y : Nat} : (s.raise f v).ring z y = s.ring z y := by unfold State.ring; simp
@[simp] theorem State.raise_port_acc {s : State} {f v : Nat} {z : Nat} : (s.raise f v).port z = s.port z := by unfold State.port; simp
@[simp] theorem State.pldm_pending {s : State} {k o : Nat} : (s.pldm k o).pending = s.pending := by unfold State.pldm; dsimp only; split <;> rfl
@[simp] theorem State.pldm_now {s : State} {k o : Nat} : (s.pldm k o).now = s.now := by unfold State.pldm; dsimp only; split <;> rfl
@[simp] theorem State.pldm_time {s : State} {k o : Nat} : (s.pldm k o).time = s.time := by unfold State.pldm; dsimp only; split <;> rfl
@[simp] theorem State.pldm_free {s : State} {k o : Nat} : (s.pldm k o).free = s.free := by unfold State.pldm; dsimp only; split <;> rfl
@[simp] theorem State.pldm_regs {s : State} {k o : Nat} : (s.pldm k o).regs = s.regs := by unfold State.pldm; dsimp only; split <;> rfl
@[simp] theorem State.pldm_mem {s : State} {k o : Nat} : (s.pldm k o).mem = s.mem := by unfold State.pldm; dsimp only; split <;> rfl
@[simp] theorem State.pldm_hostMem {s : State} {k o : Nat} : (s.pldm k o).hostMem = s.hostMem := by unfold State.pldm; dsimp only; split <;> rfl
@[simp] theorem State.pldm_ctxs {s : State} {k o : Nat} : (s.pldm k o).ctxs = s.ctxs := by unfold State.pldm; dsimp only; split <;> rfl
@[simp] theorem State.pldm_aux {s : State} {k o : Nat} : (s.pldm k o).aux = s.aux := by unfold State.pldm; dsimp only; split <;> rfl
@[simp] theorem State.pldm_models {s : State} {k o : Nat} : (s.pldm k o).models = s.models := by unfold State.pldm; dsimp only; split <;> rfl
@[simp] theorem State.pldm_places {s : State} {k o : Nat} : (s.pldm k o).places = s.places := by unfold State.pldm; dsimp only; split <;> rfl
@[simp] theorem State.pldm_parts {s : State} {k o : Nat} : (s.pldm k o).parts = s.parts := by unfold State.pldm; dsimp only; split <;> rfl
@[simp] theorem State.pldm_globalLog {s : State} {k o : Nat} : (s.pldm k o).globalLog = s.globalLog := by unfold State.pldm; dsimp only; split <;> rfl
@[simp] theorem State.pldm_pairs {s : State} {k o : Nat} : (s.pldm k o).pairs = s.pairs := by unfold State.pldm; dsimp only; split <;> rfl
@[simp] theorem State.pldm_procs {s : State} {k o : Nat} : (s.pldm k o).procs = s.procs := by unfold State.pldm; dsimp only; split <;> rfl
@[simp] theorem State.pldm_longOps {s : State} {k o : Nat} : (s.pldm k o).longOps = s.longOps := by unfold State.pldm; dsimp only; split <;> rfl
@[simp] theorem State.pldm_tiles {s : State} {k o : Nat} : (s.pldm k o).tiles = s.tiles := by unfold State.pldm; dsimp only; split <;> rfl
@[simp] theorem State.pldm_phys {s : State} {k o : Nat} : (s.pldm k o).phys = s.phys := by unfold State.pldm; dsimp only; split <;> rfl
@[simp] theorem State.pldm_lasers {s : State} {k o : Nat} : (s.pldm k o).lasers = s.lasers := by unfold State.pldm; dsimp only; split <;> rfl
@[simp] theorem State.pldm_rings {s : State} {k o : Nat} : (s.pldm k o).rings = s.rings := by unfold State.pldm; dsimp only; split <;> rfl
@[simp] theorem State.pldm_ports {s : State} {k o : Nat} : (s.pldm k o).ports = s.ports := by unfold State.pldm; dsimp only; split <;> rfl
@[simp] theorem State.pldm_fabric {s : State} {k o : Nat} : (s.pldm k o).fabric = s.fabric := by unfold State.pldm; dsimp only; split <;> rfl
@[simp] theorem State.pldm_twin {s : State} {k o : Nat} : (s.pldm k o).twin = s.twin := by unfold State.pldm; dsimp only; split <;> rfl
@[simp] theorem State.pldm_cal {s : State} {k o : Nat} : (s.pldm k o).cal = s.cal := by unfold State.pldm; dsimp only; split <;> rfl
@[simp] theorem State.pldm_power {s : State} {k o : Nat} : (s.pldm k o).power = s.power := by unfold State.pldm; dsimp only; split <;> rfl
@[simp] theorem State.pldm_hkc {s : State} {k o : Nat} : (s.pldm k o).hkc = s.hkc := by unfold State.pldm; dsimp only; split <;> rfl
@[simp] theorem State.pldm_therm {s : State} {k o : Nat} : (s.pldm k o).therm = s.therm := by unfold State.pldm; dsimp only; split <;> rfl
@[simp] theorem State.pldm_faultLog {s : State} {k o : Nat} : (s.pldm k o).faultLog = s.faultLog := by unfold State.pldm; dsimp only; split <;> rfl
@[simp] theorem State.pldm_flash {s : State} {k o : Nat} : (s.pldm k o).flash = s.flash := by unfold State.pldm; dsimp only; split <;> rfl
@[simp] theorem State.pldm_fw {s : State} {k o : Nat} : (s.pldm k o).fw = s.fw := by unfold State.pldm; dsimp only; split <;> rfl
@[simp] theorem State.pldm_sec {s : State} {k o : Nat} : (s.pldm k o).sec = s.sec := by unfold State.pldm; dsimp only; split <;> rfl
@[simp] theorem State.pldm_clk {s : State} {k o : Nat} : (s.pldm k o).clk = s.clk := by unfold State.pldm; dsimp only; split <;> rfl
@[simp] theorem State.pldm_pcie {s : State} {k o : Nat} : (s.pldm k o).pcie = s.pcie := by unfold State.pldm; dsimp only; split <;> rfl
@[simp] theorem State.pldm_sched {s : State} {k o : Nat} : (s.pldm k o).sched = s.sched := by unfold State.pldm; dsimp only; split <;> rfl
@[simp] theorem State.pldm_out {s : State} {k o : Nat} : (s.pldm k o).out = s.out := by unfold State.pldm; dsimp only; split <;> rfl
@[simp] theorem State.pldm_reg_acc {s : State} {k o : Nat} {q : RegRef} : (s.pldm k o).reg q = s.reg q := by unfold State.reg; simp
@[simp] theorem State.pldm_fld_acc {s : State} {k o : Nat} {q : RegRef} {g : Field} : (s.pldm k o).fld q g = s.fld q g := by unfold State.fld; simp
@[simp] theorem State.pldm_flag_acc {s : State} {k o : Nat} {q : RegRef} {g : Field} : (s.pldm k o).flag q g = s.flag q g := by unfold State.flag; simp
@[simp] theorem State.pldm_ctx_acc {s : State} {k o : Nat} {z : Nat} : (s.pldm k o).ctx z = s.ctx z := by unfold State.ctx; simp
@[simp] theorem State.pldm_auxOf_acc {s : State} {k o : Nat} {z : Nat} : (s.pldm k o).auxOf z = s.auxOf z := by unfold State.auxOf; simp
@[simp] theorem State.pldm_model_acc {s : State} {k o : Nat} {z : Nat} : (s.pldm k o).model z = s.model z := by unfold State.model; simp
@[simp] theorem State.pldm_place_acc {s : State} {k o : Nat} {z : Nat} : (s.pldm k o).place z = s.place z := by unfold State.place; simp
@[simp] theorem State.pldm_part_acc {s : State} {k o : Nat} {z : Nat} : (s.pldm k o).part z = s.part z := by unfold State.part; simp
@[simp] theorem State.pldm_pair_acc {s : State} {k o : Nat} {z y : Nat} : (s.pldm k o).pair z y = s.pair z y := by unfold State.pair; simp
@[simp] theorem State.pldm_proc_acc {s : State} {k o : Nat} {z : Nat} : (s.pldm k o).proc z = s.proc z := by unfold State.proc; simp
@[simp] theorem State.pldm_tile_acc {s : State} {k o : Nat} {z : Nat} : (s.pldm k o).tile z = s.tile z := by unfold State.tile; simp
@[simp] theorem State.pldm_phy_acc {s : State} {k o : Nat} {z : Nat} : (s.pldm k o).phy z = s.phy z := by unfold State.phy; simp
@[simp] theorem State.pldm_laser_acc {s : State} {k o : Nat} {z : Nat} : (s.pldm k o).laser z = s.laser z := by unfold State.laser; simp
@[simp] theorem State.pldm_ring_acc {s : State} {k o : Nat} {z y : Nat} : (s.pldm k o).ring z y = s.ring z y := by unfold State.ring; simp
@[simp] theorem State.pldm_port_acc {s : State} {k o : Nat} {z : Nat} : (s.pldm k o).port z = s.port z := by unfold State.port; simp
@[simp] theorem State.fault_pending {s : State} {c l a o : Nat} {d : List Byte} : (s.fault c l a o d).pending = s.pending := by unfold State.fault; dsimp only; split <;> rfl
@[simp] theorem State.fault_now {s : State} {c l a o : Nat} {d : List Byte} : (s.fault c l a o d).now = s.now := by unfold State.fault; dsimp only; split <;> rfl
@[simp] theorem State.fault_time {s : State} {c l a o : Nat} {d : List Byte} : (s.fault c l a o d).time = s.time := by unfold State.fault; dsimp only; split <;> rfl
@[simp] theorem State.fault_free {s : State} {c l a o : Nat} {d : List Byte} : (s.fault c l a o d).free = s.free := by unfold State.fault; dsimp only; split <;> rfl
@[simp] theorem State.fault_regs {s : State} {c l a o : Nat} {d : List Byte} : (s.fault c l a o d).regs = s.regs := by unfold State.fault; dsimp only; split <;> rfl
@[simp] theorem State.fault_mem {s : State} {c l a o : Nat} {d : List Byte} : (s.fault c l a o d).mem = s.mem := by unfold State.fault; dsimp only; split <;> rfl
@[simp] theorem State.fault_hostMem {s : State} {c l a o : Nat} {d : List Byte} : (s.fault c l a o d).hostMem = s.hostMem := by unfold State.fault; dsimp only; split <;> rfl
@[simp] theorem State.fault_ctxs {s : State} {c l a o : Nat} {d : List Byte} : (s.fault c l a o d).ctxs = s.ctxs := by unfold State.fault; dsimp only; split <;> rfl
@[simp] theorem State.fault_aux {s : State} {c l a o : Nat} {d : List Byte} : (s.fault c l a o d).aux = s.aux := by unfold State.fault; dsimp only; split <;> rfl
@[simp] theorem State.fault_models {s : State} {c l a o : Nat} {d : List Byte} : (s.fault c l a o d).models = s.models := by unfold State.fault; dsimp only; split <;> rfl
@[simp] theorem State.fault_places {s : State} {c l a o : Nat} {d : List Byte} : (s.fault c l a o d).places = s.places := by unfold State.fault; dsimp only; split <;> rfl
@[simp] theorem State.fault_parts {s : State} {c l a o : Nat} {d : List Byte} : (s.fault c l a o d).parts = s.parts := by unfold State.fault; dsimp only; split <;> rfl
@[simp] theorem State.fault_globalLog {s : State} {c l a o : Nat} {d : List Byte} : (s.fault c l a o d).globalLog = s.globalLog := by unfold State.fault; dsimp only; split <;> rfl
@[simp] theorem State.fault_pairs {s : State} {c l a o : Nat} {d : List Byte} : (s.fault c l a o d).pairs = s.pairs := by unfold State.fault; dsimp only; split <;> rfl
@[simp] theorem State.fault_procs {s : State} {c l a o : Nat} {d : List Byte} : (s.fault c l a o d).procs = s.procs := by unfold State.fault; dsimp only; split <;> rfl
@[simp] theorem State.fault_longOps {s : State} {c l a o : Nat} {d : List Byte} : (s.fault c l a o d).longOps = s.longOps := by unfold State.fault; dsimp only; split <;> rfl
@[simp] theorem State.fault_tiles {s : State} {c l a o : Nat} {d : List Byte} : (s.fault c l a o d).tiles = s.tiles := by unfold State.fault; dsimp only; split <;> rfl
@[simp] theorem State.fault_phys {s : State} {c l a o : Nat} {d : List Byte} : (s.fault c l a o d).phys = s.phys := by unfold State.fault; dsimp only; split <;> rfl
@[simp] theorem State.fault_lasers {s : State} {c l a o : Nat} {d : List Byte} : (s.fault c l a o d).lasers = s.lasers := by unfold State.fault; dsimp only; split <;> rfl
@[simp] theorem State.fault_rings {s : State} {c l a o : Nat} {d : List Byte} : (s.fault c l a o d).rings = s.rings := by unfold State.fault; dsimp only; split <;> rfl
@[simp] theorem State.fault_ports {s : State} {c l a o : Nat} {d : List Byte} : (s.fault c l a o d).ports = s.ports := by unfold State.fault; dsimp only; split <;> rfl
@[simp] theorem State.fault_fabric {s : State} {c l a o : Nat} {d : List Byte} : (s.fault c l a o d).fabric = s.fabric := by unfold State.fault; dsimp only; split <;> rfl
@[simp] theorem State.fault_twin {s : State} {c l a o : Nat} {d : List Byte} : (s.fault c l a o d).twin = s.twin := by unfold State.fault; dsimp only; split <;> rfl
@[simp] theorem State.fault_cal {s : State} {c l a o : Nat} {d : List Byte} : (s.fault c l a o d).cal = s.cal := by unfold State.fault; dsimp only; split <;> rfl
@[simp] theorem State.fault_power {s : State} {c l a o : Nat} {d : List Byte} : (s.fault c l a o d).power = s.power := by unfold State.fault; dsimp only; split <;> rfl
@[simp] theorem State.fault_hkc {s : State} {c l a o : Nat} {d : List Byte} : (s.fault c l a o d).hkc = s.hkc := by unfold State.fault; dsimp only; split <;> rfl
@[simp] theorem State.fault_therm {s : State} {c l a o : Nat} {d : List Byte} : (s.fault c l a o d).therm = s.therm := by unfold State.fault; dsimp only; split <;> rfl
@[simp] theorem State.fault_flash {s : State} {c l a o : Nat} {d : List Byte} : (s.fault c l a o d).flash = s.flash := by unfold State.fault; dsimp only; split <;> rfl
@[simp] theorem State.fault_fw {s : State} {c l a o : Nat} {d : List Byte} : (s.fault c l a o d).fw = s.fw := by unfold State.fault; dsimp only; split <;> rfl
@[simp] theorem State.fault_sec {s : State} {c l a o : Nat} {d : List Byte} : (s.fault c l a o d).sec = s.sec := by unfold State.fault; dsimp only; split <;> rfl
@[simp] theorem State.fault_clk {s : State} {c l a o : Nat} {d : List Byte} : (s.fault c l a o d).clk = s.clk := by unfold State.fault; dsimp only; split <;> rfl
@[simp] theorem State.fault_pcie {s : State} {c l a o : Nat} {d : List Byte} : (s.fault c l a o d).pcie = s.pcie := by unfold State.fault; dsimp only; split <;> rfl
@[simp] theorem State.fault_side {s : State} {c l a o : Nat} {d : List Byte} : (s.fault c l a o d).side = s.side := by unfold State.fault; dsimp only; split <;> rfl
@[simp] theorem State.fault_sched {s : State} {c l a o : Nat} {d : List Byte} : (s.fault c l a o d).sched = s.sched := by unfold State.fault; dsimp only; split <;> rfl
@[simp] theorem State.fault_out {s : State} {c l a o : Nat} {d : List Byte} : (s.fault c l a o d).out = s.out := by unfold State.fault; dsimp only; split <;> rfl
@[simp] theorem State.fault_reg_acc {s : State} {c l a o : Nat} {d : List Byte} {q : RegRef} : (s.fault c l a o d).reg q = s.reg q := by unfold State.reg; simp
@[simp] theorem State.fault_fld_acc {s : State} {c l a o : Nat} {d : List Byte} {q : RegRef} {g : Field} : (s.fault c l a o d).fld q g = s.fld q g := by unfold State.fld; simp
@[simp] theorem State.fault_flag_acc {s : State} {c l a o : Nat} {d : List Byte} {q : RegRef} {g : Field} : (s.fault c l a o d).flag q g = s.flag q g := by unfold State.flag; simp
@[simp] theorem State.fault_ctx_acc {s : State} {c l a o : Nat} {d : List Byte} {z : Nat} : (s.fault c l a o d).ctx z = s.ctx z := by unfold State.ctx; simp
@[simp] theorem State.fault_auxOf_acc {s : State} {c l a o : Nat} {d : List Byte} {z : Nat} : (s.fault c l a o d).auxOf z = s.auxOf z := by unfold State.auxOf; simp
@[simp] theorem State.fault_model_acc {s : State} {c l a o : Nat} {d : List Byte} {z : Nat} : (s.fault c l a o d).model z = s.model z := by unfold State.model; simp
@[simp] theorem State.fault_place_acc {s : State} {c l a o : Nat} {d : List Byte} {z : Nat} : (s.fault c l a o d).place z = s.place z := by unfold State.place; simp
@[simp] theorem State.fault_part_acc {s : State} {c l a o : Nat} {d : List Byte} {z : Nat} : (s.fault c l a o d).part z = s.part z := by unfold State.part; simp
@[simp] theorem State.fault_pair_acc {s : State} {c l a o : Nat} {d : List Byte} {z y : Nat} : (s.fault c l a o d).pair z y = s.pair z y := by unfold State.pair; simp
@[simp] theorem State.fault_proc_acc {s : State} {c l a o : Nat} {d : List Byte} {z : Nat} : (s.fault c l a o d).proc z = s.proc z := by unfold State.proc; simp
@[simp] theorem State.fault_tile_acc {s : State} {c l a o : Nat} {d : List Byte} {z : Nat} : (s.fault c l a o d).tile z = s.tile z := by unfold State.tile; simp
@[simp] theorem State.fault_phy_acc {s : State} {c l a o : Nat} {d : List Byte} {z : Nat} : (s.fault c l a o d).phy z = s.phy z := by unfold State.phy; simp
@[simp] theorem State.fault_laser_acc {s : State} {c l a o : Nat} {d : List Byte} {z : Nat} : (s.fault c l a o d).laser z = s.laser z := by unfold State.laser; simp
@[simp] theorem State.fault_ring_acc {s : State} {c l a o : Nat} {d : List Byte} {z y : Nat} : (s.fault c l a o d).ring z y = s.ring z y := by unfold State.ring; simp
@[simp] theorem State.fault_port_acc {s : State} {c l a o : Nat} {d : List Byte} {z : Nat} : (s.fault c l a o d).port z = s.port z := by unfold State.port; simp
@[simp] theorem State.wrMem_pending {s : State} {p a : Nat} {bs : List Byte} : (s.wrMem p a bs).pending = s.pending := rfl
@[simp] theorem State.wrMem_now {s : State} {p a : Nat} {bs : List Byte} : (s.wrMem p a bs).now = s.now := rfl
@[simp] theorem State.wrMem_time {s : State} {p a : Nat} {bs : List Byte} : (s.wrMem p a bs).time = s.time := rfl
@[simp] theorem State.wrMem_free {s : State} {p a : Nat} {bs : List Byte} : (s.wrMem p a bs).free = s.free := rfl
@[simp] theorem State.wrMem_regs {s : State} {p a : Nat} {bs : List Byte} : (s.wrMem p a bs).regs = s.regs := rfl
@[simp] theorem State.wrMem_hostMem {s : State} {p a : Nat} {bs : List Byte} : (s.wrMem p a bs).hostMem = s.hostMem := rfl
@[simp] theorem State.wrMem_ctxs {s : State} {p a : Nat} {bs : List Byte} : (s.wrMem p a bs).ctxs = s.ctxs := rfl
@[simp] theorem State.wrMem_aux {s : State} {p a : Nat} {bs : List Byte} : (s.wrMem p a bs).aux = s.aux := rfl
@[simp] theorem State.wrMem_models {s : State} {p a : Nat} {bs : List Byte} : (s.wrMem p a bs).models = s.models := rfl
@[simp] theorem State.wrMem_places {s : State} {p a : Nat} {bs : List Byte} : (s.wrMem p a bs).places = s.places := rfl
@[simp] theorem State.wrMem_parts {s : State} {p a : Nat} {bs : List Byte} : (s.wrMem p a bs).parts = s.parts := rfl
@[simp] theorem State.wrMem_globalLog {s : State} {p a : Nat} {bs : List Byte} : (s.wrMem p a bs).globalLog = s.globalLog := rfl
@[simp] theorem State.wrMem_pairs {s : State} {p a : Nat} {bs : List Byte} : (s.wrMem p a bs).pairs = s.pairs := rfl
@[simp] theorem State.wrMem_procs {s : State} {p a : Nat} {bs : List Byte} : (s.wrMem p a bs).procs = s.procs := rfl
@[simp] theorem State.wrMem_longOps {s : State} {p a : Nat} {bs : List Byte} : (s.wrMem p a bs).longOps = s.longOps := rfl
@[simp] theorem State.wrMem_tiles {s : State} {p a : Nat} {bs : List Byte} : (s.wrMem p a bs).tiles = s.tiles := rfl
@[simp] theorem State.wrMem_phys {s : State} {p a : Nat} {bs : List Byte} : (s.wrMem p a bs).phys = s.phys := rfl
@[simp] theorem State.wrMem_lasers {s : State} {p a : Nat} {bs : List Byte} : (s.wrMem p a bs).lasers = s.lasers := rfl
@[simp] theorem State.wrMem_rings {s : State} {p a : Nat} {bs : List Byte} : (s.wrMem p a bs).rings = s.rings := rfl
@[simp] theorem State.wrMem_ports {s : State} {p a : Nat} {bs : List Byte} : (s.wrMem p a bs).ports = s.ports := rfl
@[simp] theorem State.wrMem_fabric {s : State} {p a : Nat} {bs : List Byte} : (s.wrMem p a bs).fabric = s.fabric := rfl
@[simp] theorem State.wrMem_twin {s : State} {p a : Nat} {bs : List Byte} : (s.wrMem p a bs).twin = s.twin := rfl
@[simp] theorem State.wrMem_cal {s : State} {p a : Nat} {bs : List Byte} : (s.wrMem p a bs).cal = s.cal := rfl
@[simp] theorem State.wrMem_power {s : State} {p a : Nat} {bs : List Byte} : (s.wrMem p a bs).power = s.power := rfl
@[simp] theorem State.wrMem_hkc {s : State} {p a : Nat} {bs : List Byte} : (s.wrMem p a bs).hkc = s.hkc := rfl
@[simp] theorem State.wrMem_therm {s : State} {p a : Nat} {bs : List Byte} : (s.wrMem p a bs).therm = s.therm := rfl
@[simp] theorem State.wrMem_faultLog {s : State} {p a : Nat} {bs : List Byte} : (s.wrMem p a bs).faultLog = s.faultLog := rfl
@[simp] theorem State.wrMem_flash {s : State} {p a : Nat} {bs : List Byte} : (s.wrMem p a bs).flash = s.flash := rfl
@[simp] theorem State.wrMem_fw {s : State} {p a : Nat} {bs : List Byte} : (s.wrMem p a bs).fw = s.fw := rfl
@[simp] theorem State.wrMem_sec {s : State} {p a : Nat} {bs : List Byte} : (s.wrMem p a bs).sec = s.sec := rfl
@[simp] theorem State.wrMem_clk {s : State} {p a : Nat} {bs : List Byte} : (s.wrMem p a bs).clk = s.clk := rfl
@[simp] theorem State.wrMem_pcie {s : State} {p a : Nat} {bs : List Byte} : (s.wrMem p a bs).pcie = s.pcie := rfl
@[simp] theorem State.wrMem_side {s : State} {p a : Nat} {bs : List Byte} : (s.wrMem p a bs).side = s.side := rfl
@[simp] theorem State.wrMem_sched {s : State} {p a : Nat} {bs : List Byte} : (s.wrMem p a bs).sched = s.sched := rfl
@[simp] theorem State.wrMem_out {s : State} {p a : Nat} {bs : List Byte} : (s.wrMem p a bs).out = s.out := rfl
@[simp] theorem State.wrMem_reg_acc {s : State} {p a : Nat} {bs : List Byte} {q : RegRef} : (s.wrMem p a bs).reg q = s.reg q := rfl
@[simp] theorem State.wrMem_fld_acc {s : State} {p a : Nat} {bs : List Byte} {q : RegRef} {g : Field} : (s.wrMem p a bs).fld q g = s.fld q g := rfl
@[simp] theorem State.wrMem_flag_acc {s : State} {p a : Nat} {bs : List Byte} {q : RegRef} {g : Field} : (s.wrMem p a bs).flag q g = s.flag q g := rfl
@[simp] theorem State.wrMem_ctx_acc {s : State} {p a : Nat} {bs : List Byte} {z : Nat} : (s.wrMem p a bs).ctx z = s.ctx z := rfl
@[simp] theorem State.wrMem_auxOf_acc {s : State} {p a : Nat} {bs : List Byte} {z : Nat} : (s.wrMem p a bs).auxOf z = s.auxOf z := rfl
@[simp] theorem State.wrMem_model_acc {s : State} {p a : Nat} {bs : List Byte} {z : Nat} : (s.wrMem p a bs).model z = s.model z := rfl
@[simp] theorem State.wrMem_place_acc {s : State} {p a : Nat} {bs : List Byte} {z : Nat} : (s.wrMem p a bs).place z = s.place z := rfl
@[simp] theorem State.wrMem_part_acc {s : State} {p a : Nat} {bs : List Byte} {z : Nat} : (s.wrMem p a bs).part z = s.part z := rfl
@[simp] theorem State.wrMem_pair_acc {s : State} {p a : Nat} {bs : List Byte} {z y : Nat} : (s.wrMem p a bs).pair z y = s.pair z y := rfl
@[simp] theorem State.wrMem_proc_acc {s : State} {p a : Nat} {bs : List Byte} {z : Nat} : (s.wrMem p a bs).proc z = s.proc z := rfl
@[simp] theorem State.wrMem_tile_acc {s : State} {p a : Nat} {bs : List Byte} {z : Nat} : (s.wrMem p a bs).tile z = s.tile z := rfl
@[simp] theorem State.wrMem_phy_acc {s : State} {p a : Nat} {bs : List Byte} {z : Nat} : (s.wrMem p a bs).phy z = s.phy z := rfl
@[simp] theorem State.wrMem_laser_acc {s : State} {p a : Nat} {bs : List Byte} {z : Nat} : (s.wrMem p a bs).laser z = s.laser z := rfl
@[simp] theorem State.wrMem_ring_acc {s : State} {p a : Nat} {bs : List Byte} {z y : Nat} : (s.wrMem p a bs).ring z y = s.ring z y := rfl
@[simp] theorem State.wrMem_port_acc {s : State} {p a : Nat} {bs : List Byte} {z : Nat} : (s.wrMem p a bs).port z = s.port z := rfl
@[simp] theorem State.wrRaw_pending {s : State} {a : Nat} {bs : List Byte} : (s.wrRaw a bs).pending = s.pending := rfl
@[simp] theorem State.wrRaw_now {s : State} {a : Nat} {bs : List Byte} : (s.wrRaw a bs).now = s.now := rfl
@[simp] theorem State.wrRaw_time {s : State} {a : Nat} {bs : List Byte} : (s.wrRaw a bs).time = s.time := rfl
@[simp] theorem State.wrRaw_free {s : State} {a : Nat} {bs : List Byte} : (s.wrRaw a bs).free = s.free := rfl
@[simp] theorem State.wrRaw_regs {s : State} {a : Nat} {bs : List Byte} : (s.wrRaw a bs).regs = s.regs := rfl
@[simp] theorem State.wrRaw_hostMem {s : State} {a : Nat} {bs : List Byte} : (s.wrRaw a bs).hostMem = s.hostMem := rfl
@[simp] theorem State.wrRaw_ctxs {s : State} {a : Nat} {bs : List Byte} : (s.wrRaw a bs).ctxs = s.ctxs := rfl
@[simp] theorem State.wrRaw_aux {s : State} {a : Nat} {bs : List Byte} : (s.wrRaw a bs).aux = s.aux := rfl
@[simp] theorem State.wrRaw_models {s : State} {a : Nat} {bs : List Byte} : (s.wrRaw a bs).models = s.models := rfl
@[simp] theorem State.wrRaw_places {s : State} {a : Nat} {bs : List Byte} : (s.wrRaw a bs).places = s.places := rfl
@[simp] theorem State.wrRaw_parts {s : State} {a : Nat} {bs : List Byte} : (s.wrRaw a bs).parts = s.parts := rfl
@[simp] theorem State.wrRaw_globalLog {s : State} {a : Nat} {bs : List Byte} : (s.wrRaw a bs).globalLog = s.globalLog := rfl
@[simp] theorem State.wrRaw_pairs {s : State} {a : Nat} {bs : List Byte} : (s.wrRaw a bs).pairs = s.pairs := rfl
@[simp] theorem State.wrRaw_procs {s : State} {a : Nat} {bs : List Byte} : (s.wrRaw a bs).procs = s.procs := rfl
@[simp] theorem State.wrRaw_longOps {s : State} {a : Nat} {bs : List Byte} : (s.wrRaw a bs).longOps = s.longOps := rfl
@[simp] theorem State.wrRaw_tiles {s : State} {a : Nat} {bs : List Byte} : (s.wrRaw a bs).tiles = s.tiles := rfl
@[simp] theorem State.wrRaw_phys {s : State} {a : Nat} {bs : List Byte} : (s.wrRaw a bs).phys = s.phys := rfl
@[simp] theorem State.wrRaw_lasers {s : State} {a : Nat} {bs : List Byte} : (s.wrRaw a bs).lasers = s.lasers := rfl
@[simp] theorem State.wrRaw_rings {s : State} {a : Nat} {bs : List Byte} : (s.wrRaw a bs).rings = s.rings := rfl
@[simp] theorem State.wrRaw_ports {s : State} {a : Nat} {bs : List Byte} : (s.wrRaw a bs).ports = s.ports := rfl
@[simp] theorem State.wrRaw_fabric {s : State} {a : Nat} {bs : List Byte} : (s.wrRaw a bs).fabric = s.fabric := rfl
@[simp] theorem State.wrRaw_twin {s : State} {a : Nat} {bs : List Byte} : (s.wrRaw a bs).twin = s.twin := rfl
@[simp] theorem State.wrRaw_cal {s : State} {a : Nat} {bs : List Byte} : (s.wrRaw a bs).cal = s.cal := rfl
@[simp] theorem State.wrRaw_power {s : State} {a : Nat} {bs : List Byte} : (s.wrRaw a bs).power = s.power := rfl
@[simp] theorem State.wrRaw_hkc {s : State} {a : Nat} {bs : List Byte} : (s.wrRaw a bs).hkc = s.hkc := rfl
@[simp] theorem State.wrRaw_therm {s : State} {a : Nat} {bs : List Byte} : (s.wrRaw a bs).therm = s.therm := rfl
@[simp] theorem State.wrRaw_faultLog {s : State} {a : Nat} {bs : List Byte} : (s.wrRaw a bs).faultLog = s.faultLog := rfl
@[simp] theorem State.wrRaw_flash {s : State} {a : Nat} {bs : List Byte} : (s.wrRaw a bs).flash = s.flash := rfl
@[simp] theorem State.wrRaw_fw {s : State} {a : Nat} {bs : List Byte} : (s.wrRaw a bs).fw = s.fw := rfl
@[simp] theorem State.wrRaw_sec {s : State} {a : Nat} {bs : List Byte} : (s.wrRaw a bs).sec = s.sec := rfl
@[simp] theorem State.wrRaw_clk {s : State} {a : Nat} {bs : List Byte} : (s.wrRaw a bs).clk = s.clk := rfl
@[simp] theorem State.wrRaw_pcie {s : State} {a : Nat} {bs : List Byte} : (s.wrRaw a bs).pcie = s.pcie := rfl
@[simp] theorem State.wrRaw_side {s : State} {a : Nat} {bs : List Byte} : (s.wrRaw a bs).side = s.side := rfl
@[simp] theorem State.wrRaw_sched {s : State} {a : Nat} {bs : List Byte} : (s.wrRaw a bs).sched = s.sched := rfl
@[simp] theorem State.wrRaw_out {s : State} {a : Nat} {bs : List Byte} : (s.wrRaw a bs).out = s.out := rfl
@[simp] theorem State.wrRaw_reg_acc {s : State} {a : Nat} {bs : List Byte} {q : RegRef} : (s.wrRaw a bs).reg q = s.reg q := rfl
@[simp] theorem State.wrRaw_fld_acc {s : State} {a : Nat} {bs : List Byte} {q : RegRef} {g : Field} : (s.wrRaw a bs).fld q g = s.fld q g := rfl
@[simp] theorem State.wrRaw_flag_acc {s : State} {a : Nat} {bs : List Byte} {q : RegRef} {g : Field} : (s.wrRaw a bs).flag q g = s.flag q g := rfl
@[simp] theorem State.wrRaw_ctx_acc {s : State} {a : Nat} {bs : List Byte} {z : Nat} : (s.wrRaw a bs).ctx z = s.ctx z := rfl
@[simp] theorem State.wrRaw_auxOf_acc {s : State} {a : Nat} {bs : List Byte} {z : Nat} : (s.wrRaw a bs).auxOf z = s.auxOf z := rfl
@[simp] theorem State.wrRaw_model_acc {s : State} {a : Nat} {bs : List Byte} {z : Nat} : (s.wrRaw a bs).model z = s.model z := rfl
@[simp] theorem State.wrRaw_place_acc {s : State} {a : Nat} {bs : List Byte} {z : Nat} : (s.wrRaw a bs).place z = s.place z := rfl
@[simp] theorem State.wrRaw_part_acc {s : State} {a : Nat} {bs : List Byte} {z : Nat} : (s.wrRaw a bs).part z = s.part z := rfl
@[simp] theorem State.wrRaw_pair_acc {s : State} {a : Nat} {bs : List Byte} {z y : Nat} : (s.wrRaw a bs).pair z y = s.pair z y := rfl
@[simp] theorem State.wrRaw_proc_acc {s : State} {a : Nat} {bs : List Byte} {z : Nat} : (s.wrRaw a bs).proc z = s.proc z := rfl
@[simp] theorem State.wrRaw_tile_acc {s : State} {a : Nat} {bs : List Byte} {z : Nat} : (s.wrRaw a bs).tile z = s.tile z := rfl
@[simp] theorem State.wrRaw_phy_acc {s : State} {a : Nat} {bs : List Byte} {z : Nat} : (s.wrRaw a bs).phy z = s.phy z := rfl
@[simp] theorem State.wrRaw_laser_acc {s : State} {a : Nat} {bs : List Byte} {z : Nat} : (s.wrRaw a bs).laser z = s.laser z := rfl
@[simp] theorem State.wrRaw_ring_acc {s : State} {a : Nat} {bs : List Byte} {z y : Nat} : (s.wrRaw a bs).ring z y = s.ring z y := rfl
@[simp] theorem State.wrRaw_port_acc {s : State} {a : Nat} {bs : List Byte} {z : Nat} : (s.wrRaw a bs).port z = s.port z := rfl
@[simp] theorem State.setCtx_pending {s : State} {i : Nat} {x : Ctx} : (s.setCtx i x).pending = s.pending := rfl
@[simp] theorem State.setCtx_now {s : State} {i : Nat} {x : Ctx} : (s.setCtx i x).now = s.now := rfl
@[simp] theorem State.setCtx_time {s : State} {i : Nat} {x : Ctx} : (s.setCtx i x).time = s.time := rfl
@[simp] theorem State.setCtx_free {s : State} {i : Nat} {x : Ctx} : (s.setCtx i x).free = s.free := rfl
@[simp] theorem State.setCtx_regs {s : State} {i : Nat} {x : Ctx} : (s.setCtx i x).regs = s.regs := rfl
@[simp] theorem State.setCtx_mem {s : State} {i : Nat} {x : Ctx} : (s.setCtx i x).mem = s.mem := rfl
@[simp] theorem State.setCtx_hostMem {s : State} {i : Nat} {x : Ctx} : (s.setCtx i x).hostMem = s.hostMem := rfl
@[simp] theorem State.setCtx_aux {s : State} {i : Nat} {x : Ctx} : (s.setCtx i x).aux = s.aux := rfl
@[simp] theorem State.setCtx_models {s : State} {i : Nat} {x : Ctx} : (s.setCtx i x).models = s.models := rfl
@[simp] theorem State.setCtx_places {s : State} {i : Nat} {x : Ctx} : (s.setCtx i x).places = s.places := rfl
@[simp] theorem State.setCtx_parts {s : State} {i : Nat} {x : Ctx} : (s.setCtx i x).parts = s.parts := rfl
@[simp] theorem State.setCtx_globalLog {s : State} {i : Nat} {x : Ctx} : (s.setCtx i x).globalLog = s.globalLog := rfl
@[simp] theorem State.setCtx_pairs {s : State} {i : Nat} {x : Ctx} : (s.setCtx i x).pairs = s.pairs := rfl
@[simp] theorem State.setCtx_procs {s : State} {i : Nat} {x : Ctx} : (s.setCtx i x).procs = s.procs := rfl
@[simp] theorem State.setCtx_longOps {s : State} {i : Nat} {x : Ctx} : (s.setCtx i x).longOps = s.longOps := rfl
@[simp] theorem State.setCtx_tiles {s : State} {i : Nat} {x : Ctx} : (s.setCtx i x).tiles = s.tiles := rfl
@[simp] theorem State.setCtx_phys {s : State} {i : Nat} {x : Ctx} : (s.setCtx i x).phys = s.phys := rfl
@[simp] theorem State.setCtx_lasers {s : State} {i : Nat} {x : Ctx} : (s.setCtx i x).lasers = s.lasers := rfl
@[simp] theorem State.setCtx_rings {s : State} {i : Nat} {x : Ctx} : (s.setCtx i x).rings = s.rings := rfl
@[simp] theorem State.setCtx_ports {s : State} {i : Nat} {x : Ctx} : (s.setCtx i x).ports = s.ports := rfl
@[simp] theorem State.setCtx_fabric {s : State} {i : Nat} {x : Ctx} : (s.setCtx i x).fabric = s.fabric := rfl
@[simp] theorem State.setCtx_twin {s : State} {i : Nat} {x : Ctx} : (s.setCtx i x).twin = s.twin := rfl
@[simp] theorem State.setCtx_cal {s : State} {i : Nat} {x : Ctx} : (s.setCtx i x).cal = s.cal := rfl
@[simp] theorem State.setCtx_power {s : State} {i : Nat} {x : Ctx} : (s.setCtx i x).power = s.power := rfl
@[simp] theorem State.setCtx_hkc {s : State} {i : Nat} {x : Ctx} : (s.setCtx i x).hkc = s.hkc := rfl
@[simp] theorem State.setCtx_therm {s : State} {i : Nat} {x : Ctx} : (s.setCtx i x).therm = s.therm := rfl
@[simp] theorem State.setCtx_faultLog {s : State} {i : Nat} {x : Ctx} : (s.setCtx i x).faultLog = s.faultLog := rfl
@[simp] theorem State.setCtx_flash {s : State} {i : Nat} {x : Ctx} : (s.setCtx i x).flash = s.flash := rfl
@[simp] theorem State.setCtx_fw {s : State} {i : Nat} {x : Ctx} : (s.setCtx i x).fw = s.fw := rfl
@[simp] theorem State.setCtx_sec {s : State} {i : Nat} {x : Ctx} : (s.setCtx i x).sec = s.sec := rfl
@[simp] theorem State.setCtx_clk {s : State} {i : Nat} {x : Ctx} : (s.setCtx i x).clk = s.clk := rfl
@[simp] theorem State.setCtx_pcie {s : State} {i : Nat} {x : Ctx} : (s.setCtx i x).pcie = s.pcie := rfl
@[simp] theorem State.setCtx_side {s : State} {i : Nat} {x : Ctx} : (s.setCtx i x).side = s.side := rfl
@[simp] theorem State.setCtx_sched {s : State} {i : Nat} {x : Ctx} : (s.setCtx i x).sched = s.sched := rfl
@[simp] theorem State.setCtx_out {s : State} {i : Nat} {x : Ctx} : (s.setCtx i x).out = s.out := rfl
@[simp] theorem State.setCtx_reg_acc {s : State} {i : Nat} {x : Ctx} {q : RegRef} : (s.setCtx i x).reg q = s.reg q := rfl
@[simp] theorem State.setCtx_fld_acc {s : State} {i : Nat} {x : Ctx} {q : RegRef} {g : Field} : (s.setCtx i x).fld q g = s.fld q g := rfl
@[simp] theorem State.setCtx_flag_acc {s : State} {i : Nat} {x : Ctx} {q : RegRef} {g : Field} : (s.setCtx i x).flag q g = s.flag q g := rfl
@[simp] theorem State.setCtx_auxOf_acc {s : State} {i : Nat} {x : Ctx} {z : Nat} : (s.setCtx i x).auxOf z = s.auxOf z := rfl
@[simp] theorem State.setCtx_model_acc {s : State} {i : Nat} {x : Ctx} {z : Nat} : (s.setCtx i x).model z = s.model z := rfl
@[simp] theorem State.setCtx_place_acc {s : State} {i : Nat} {x : Ctx} {z : Nat} : (s.setCtx i x).place z = s.place z := rfl
@[simp] theorem State.setCtx_part_acc {s : State} {i : Nat} {x : Ctx} {z : Nat} : (s.setCtx i x).part z = s.part z := rfl
@[simp] theorem State.setCtx_pair_acc {s : State} {i : Nat} {x : Ctx} {z y : Nat} : (s.setCtx i x).pair z y = s.pair z y := rfl
@[simp] theorem State.setCtx_proc_acc {s : State} {i : Nat} {x : Ctx} {z : Nat} : (s.setCtx i x).proc z = s.proc z := rfl
@[simp] theorem State.setCtx_tile_acc {s : State} {i : Nat} {x : Ctx} {z : Nat} : (s.setCtx i x).tile z = s.tile z := rfl
@[simp] theorem State.setCtx_phy_acc {s : State} {i : Nat} {x : Ctx} {z : Nat} : (s.setCtx i x).phy z = s.phy z := rfl
@[simp] theorem State.setCtx_laser_acc {s : State} {i : Nat} {x : Ctx} {z : Nat} : (s.setCtx i x).laser z = s.laser z := rfl
@[simp] theorem State.setCtx_ring_acc {s : State} {i : Nat} {x : Ctx} {z y : Nat} : (s.setCtx i x).ring z y = s.ring z y := rfl
@[simp] theorem State.setCtx_port_acc {s : State} {i : Nat} {x : Ctx} {z : Nat} : (s.setCtx i x).port z = s.port z := rfl
@[simp] theorem State.setAux_pending {s : State} {i : Nat} {x : CtxAux} : (s.setAux i x).pending = s.pending := rfl
@[simp] theorem State.setAux_now {s : State} {i : Nat} {x : CtxAux} : (s.setAux i x).now = s.now := rfl
@[simp] theorem State.setAux_time {s : State} {i : Nat} {x : CtxAux} : (s.setAux i x).time = s.time := rfl
@[simp] theorem State.setAux_free {s : State} {i : Nat} {x : CtxAux} : (s.setAux i x).free = s.free := rfl
@[simp] theorem State.setAux_regs {s : State} {i : Nat} {x : CtxAux} : (s.setAux i x).regs = s.regs := rfl
@[simp] theorem State.setAux_mem {s : State} {i : Nat} {x : CtxAux} : (s.setAux i x).mem = s.mem := rfl
@[simp] theorem State.setAux_hostMem {s : State} {i : Nat} {x : CtxAux} : (s.setAux i x).hostMem = s.hostMem := rfl
@[simp] theorem State.setAux_ctxs {s : State} {i : Nat} {x : CtxAux} : (s.setAux i x).ctxs = s.ctxs := rfl
@[simp] theorem State.setAux_models {s : State} {i : Nat} {x : CtxAux} : (s.setAux i x).models = s.models := rfl
@[simp] theorem State.setAux_places {s : State} {i : Nat} {x : CtxAux} : (s.setAux i x).places = s.places := rfl
@[simp] theorem State.setAux_parts {s : State} {i : Nat} {x : CtxAux} : (s.setAux i x).parts = s.parts := rfl
@[simp] theorem State.setAux_globalLog {s : State} {i : Nat} {x : CtxAux} : (s.setAux i x).globalLog = s.globalLog := rfl
@[simp] theorem State.setAux_pairs {s : State} {i : Nat} {x : CtxAux} : (s.setAux i x).pairs = s.pairs := rfl
@[simp] theorem State.setAux_procs {s : State} {i : Nat} {x : CtxAux} : (s.setAux i x).procs = s.procs := rfl
@[simp] theorem State.setAux_longOps {s : State} {i : Nat} {x : CtxAux} : (s.setAux i x).longOps = s.longOps := rfl
@[simp] theorem State.setAux_tiles {s : State} {i : Nat} {x : CtxAux} : (s.setAux i x).tiles = s.tiles := rfl
@[simp] theorem State.setAux_phys {s : State} {i : Nat} {x : CtxAux} : (s.setAux i x).phys = s.phys := rfl
@[simp] theorem State.setAux_lasers {s : State} {i : Nat} {x : CtxAux} : (s.setAux i x).lasers = s.lasers := rfl
@[simp] theorem State.setAux_rings {s : State} {i : Nat} {x : CtxAux} : (s.setAux i x).rings = s.rings := rfl
@[simp] theorem State.setAux_ports {s : State} {i : Nat} {x : CtxAux} : (s.setAux i x).ports = s.ports := rfl
@[simp] theorem State.setAux_fabric {s : State} {i : Nat} {x : CtxAux} : (s.setAux i x).fabric = s.fabric := rfl
@[simp] theorem State.setAux_twin {s : State} {i : Nat} {x : CtxAux} : (s.setAux i x).twin = s.twin := rfl
@[simp] theorem State.setAux_cal {s : State} {i : Nat} {x : CtxAux} : (s.setAux i x).cal = s.cal := rfl
@[simp] theorem State.setAux_power {s : State} {i : Nat} {x : CtxAux} : (s.setAux i x).power = s.power := rfl
@[simp] theorem State.setAux_hkc {s : State} {i : Nat} {x : CtxAux} : (s.setAux i x).hkc = s.hkc := rfl
@[simp] theorem State.setAux_therm {s : State} {i : Nat} {x : CtxAux} : (s.setAux i x).therm = s.therm := rfl
@[simp] theorem State.setAux_faultLog {s : State} {i : Nat} {x : CtxAux} : (s.setAux i x).faultLog = s.faultLog := rfl
@[simp] theorem State.setAux_flash {s : State} {i : Nat} {x : CtxAux} : (s.setAux i x).flash = s.flash := rfl
@[simp] theorem State.setAux_fw {s : State} {i : Nat} {x : CtxAux} : (s.setAux i x).fw = s.fw := rfl
@[simp] theorem State.setAux_sec {s : State} {i : Nat} {x : CtxAux} : (s.setAux i x).sec = s.sec := rfl
@[simp] theorem State.setAux_clk {s : State} {i : Nat} {x : CtxAux} : (s.setAux i x).clk = s.clk := rfl
@[simp] theorem State.setAux_pcie {s : State} {i : Nat} {x : CtxAux} : (s.setAux i x).pcie = s.pcie := rfl
@[simp] theorem State.setAux_side {s : State} {i : Nat} {x : CtxAux} : (s.setAux i x).side = s.side := rfl
@[simp] theorem State.setAux_sched {s : State} {i : Nat} {x : CtxAux} : (s.setAux i x).sched = s.sched := rfl
@[simp] theorem State.setAux_out {s : State} {i : Nat} {x : CtxAux} : (s.setAux i x).out = s.out := rfl
@[simp] theorem State.setAux_reg_acc {s : State} {i : Nat} {x : CtxAux} {q : RegRef} : (s.setAux i x).reg q = s.reg q := rfl
@[simp] theorem State.setAux_fld_acc {s : State} {i : Nat} {x : CtxAux} {q : RegRef} {g : Field} : (s.setAux i x).fld q g = s.fld q g := rfl
@[simp] theorem State.setAux_flag_acc {s : State} {i : Nat} {x : CtxAux} {q : RegRef} {g : Field} : (s.setAux i x).flag q g = s.flag q g := rfl
@[simp] theorem State.setAux_ctx_acc {s : State} {i : Nat} {x : CtxAux} {z : Nat} : (s.setAux i x).ctx z = s.ctx z := rfl
@[simp] theorem State.setAux_model_acc {s : State} {i : Nat} {x : CtxAux} {z : Nat} : (s.setAux i x).model z = s.model z := rfl
@[simp] theorem State.setAux_place_acc {s : State} {i : Nat} {x : CtxAux} {z : Nat} : (s.setAux i x).place z = s.place z := rfl
@[simp] theorem State.setAux_part_acc {s : State} {i : Nat} {x : CtxAux} {z : Nat} : (s.setAux i x).part z = s.part z := rfl
@[simp] theorem State.setAux_pair_acc {s : State} {i : Nat} {x : CtxAux} {z y : Nat} : (s.setAux i x).pair z y = s.pair z y := rfl
@[simp] theorem State.setAux_proc_acc {s : State} {i : Nat} {x : CtxAux} {z : Nat} : (s.setAux i x).proc z = s.proc z := rfl
@[simp] theorem State.setAux_tile_acc {s : State} {i : Nat} {x : CtxAux} {z : Nat} : (s.setAux i x).tile z = s.tile z := rfl
@[simp] theorem State.setAux_phy_acc {s : State} {i : Nat} {x : CtxAux} {z : Nat} : (s.setAux i x).phy z = s.phy z := rfl
@[simp] theorem State.setAux_laser_acc {s : State} {i : Nat} {x : CtxAux} {z : Nat} : (s.setAux i x).laser z = s.laser z := rfl
@[simp] theorem State.setAux_ring_acc {s : State} {i : Nat} {x : CtxAux} {z y : Nat} : (s.setAux i x).ring z y = s.ring z y := rfl
@[simp] theorem State.setAux_port_acc {s : State} {i : Nat} {x : CtxAux} {z : Nat} : (s.setAux i x).port z = s.port z := rfl
@[simp] theorem State.setModel_pending {s : State} {i : Nat} {x : Model} : (s.setModel i x).pending = s.pending := rfl
@[simp] theorem State.setModel_now {s : State} {i : Nat} {x : Model} : (s.setModel i x).now = s.now := rfl
@[simp] theorem State.setModel_time {s : State} {i : Nat} {x : Model} : (s.setModel i x).time = s.time := rfl
@[simp] theorem State.setModel_free {s : State} {i : Nat} {x : Model} : (s.setModel i x).free = s.free := rfl
@[simp] theorem State.setModel_regs {s : State} {i : Nat} {x : Model} : (s.setModel i x).regs = s.regs := rfl
@[simp] theorem State.setModel_mem {s : State} {i : Nat} {x : Model} : (s.setModel i x).mem = s.mem := rfl
@[simp] theorem State.setModel_hostMem {s : State} {i : Nat} {x : Model} : (s.setModel i x).hostMem = s.hostMem := rfl
@[simp] theorem State.setModel_ctxs {s : State} {i : Nat} {x : Model} : (s.setModel i x).ctxs = s.ctxs := rfl
@[simp] theorem State.setModel_aux {s : State} {i : Nat} {x : Model} : (s.setModel i x).aux = s.aux := rfl
@[simp] theorem State.setModel_places {s : State} {i : Nat} {x : Model} : (s.setModel i x).places = s.places := rfl
@[simp] theorem State.setModel_parts {s : State} {i : Nat} {x : Model} : (s.setModel i x).parts = s.parts := rfl
@[simp] theorem State.setModel_globalLog {s : State} {i : Nat} {x : Model} : (s.setModel i x).globalLog = s.globalLog := rfl
@[simp] theorem State.setModel_pairs {s : State} {i : Nat} {x : Model} : (s.setModel i x).pairs = s.pairs := rfl
@[simp] theorem State.setModel_procs {s : State} {i : Nat} {x : Model} : (s.setModel i x).procs = s.procs := rfl
@[simp] theorem State.setModel_longOps {s : State} {i : Nat} {x : Model} : (s.setModel i x).longOps = s.longOps := rfl
@[simp] theorem State.setModel_tiles {s : State} {i : Nat} {x : Model} : (s.setModel i x).tiles = s.tiles := rfl
@[simp] theorem State.setModel_phys {s : State} {i : Nat} {x : Model} : (s.setModel i x).phys = s.phys := rfl
@[simp] theorem State.setModel_lasers {s : State} {i : Nat} {x : Model} : (s.setModel i x).lasers = s.lasers := rfl
@[simp] theorem State.setModel_rings {s : State} {i : Nat} {x : Model} : (s.setModel i x).rings = s.rings := rfl
@[simp] theorem State.setModel_ports {s : State} {i : Nat} {x : Model} : (s.setModel i x).ports = s.ports := rfl
@[simp] theorem State.setModel_fabric {s : State} {i : Nat} {x : Model} : (s.setModel i x).fabric = s.fabric := rfl
@[simp] theorem State.setModel_twin {s : State} {i : Nat} {x : Model} : (s.setModel i x).twin = s.twin := rfl
@[simp] theorem State.setModel_cal {s : State} {i : Nat} {x : Model} : (s.setModel i x).cal = s.cal := rfl
@[simp] theorem State.setModel_power {s : State} {i : Nat} {x : Model} : (s.setModel i x).power = s.power := rfl
@[simp] theorem State.setModel_hkc {s : State} {i : Nat} {x : Model} : (s.setModel i x).hkc = s.hkc := rfl
@[simp] theorem State.setModel_therm {s : State} {i : Nat} {x : Model} : (s.setModel i x).therm = s.therm := rfl
@[simp] theorem State.setModel_faultLog {s : State} {i : Nat} {x : Model} : (s.setModel i x).faultLog = s.faultLog := rfl
@[simp] theorem State.setModel_flash {s : State} {i : Nat} {x : Model} : (s.setModel i x).flash = s.flash := rfl
@[simp] theorem State.setModel_fw {s : State} {i : Nat} {x : Model} : (s.setModel i x).fw = s.fw := rfl
@[simp] theorem State.setModel_sec {s : State} {i : Nat} {x : Model} : (s.setModel i x).sec = s.sec := rfl
@[simp] theorem State.setModel_clk {s : State} {i : Nat} {x : Model} : (s.setModel i x).clk = s.clk := rfl
@[simp] theorem State.setModel_pcie {s : State} {i : Nat} {x : Model} : (s.setModel i x).pcie = s.pcie := rfl
@[simp] theorem State.setModel_side {s : State} {i : Nat} {x : Model} : (s.setModel i x).side = s.side := rfl
@[simp] theorem State.setModel_sched {s : State} {i : Nat} {x : Model} : (s.setModel i x).sched = s.sched := rfl
@[simp] theorem State.setModel_out {s : State} {i : Nat} {x : Model} : (s.setModel i x).out = s.out := rfl
@[simp] theorem State.setModel_reg_acc {s : State} {i : Nat} {x : Model} {q : RegRef} : (s.setModel i x).reg q = s.reg q := rfl
@[simp] theorem State.setModel_fld_acc {s : State} {i : Nat} {x : Model} {q : RegRef} {g : Field} : (s.setModel i x).fld q g = s.fld q g := rfl
@[simp] theorem State.setModel_flag_acc {s : State} {i : Nat} {x : Model} {q : RegRef} {g : Field} : (s.setModel i x).flag q g = s.flag q g := rfl
@[simp] theorem State.setModel_ctx_acc {s : State} {i : Nat} {x : Model} {z : Nat} : (s.setModel i x).ctx z = s.ctx z := rfl
@[simp] theorem State.setModel_auxOf_acc {s : State} {i : Nat} {x : Model} {z : Nat} : (s.setModel i x).auxOf z = s.auxOf z := rfl
@[simp] theorem State.setModel_place_acc {s : State} {i : Nat} {x : Model} {z : Nat} : (s.setModel i x).place z = s.place z := rfl
@[simp] theorem State.setModel_part_acc {s : State} {i : Nat} {x : Model} {z : Nat} : (s.setModel i x).part z = s.part z := rfl
@[simp] theorem State.setModel_pair_acc {s : State} {i : Nat} {x : Model} {z y : Nat} : (s.setModel i x).pair z y = s.pair z y := rfl
@[simp] theorem State.setModel_proc_acc {s : State} {i : Nat} {x : Model} {z : Nat} : (s.setModel i x).proc z = s.proc z := rfl
@[simp] theorem State.setModel_tile_acc {s : State} {i : Nat} {x : Model} {z : Nat} : (s.setModel i x).tile z = s.tile z := rfl
@[simp] theorem State.setModel_phy_acc {s : State} {i : Nat} {x : Model} {z : Nat} : (s.setModel i x).phy z = s.phy z := rfl
@[simp] theorem State.setModel_laser_acc {s : State} {i : Nat} {x : Model} {z : Nat} : (s.setModel i x).laser z = s.laser z := rfl
@[simp] theorem State.setModel_ring_acc {s : State} {i : Nat} {x : Model} {z y : Nat} : (s.setModel i x).ring z y = s.ring z y := rfl
@[simp] theorem State.setModel_port_acc {s : State} {i : Nat} {x : Model} {z : Nat} : (s.setModel i x).port z = s.port z := rfl
@[simp] theorem State.setPlace_pending {s : State} {i : Nat} {x : Place} : (s.setPlace i x).pending = s.pending := rfl
@[simp] theorem State.setPlace_now {s : State} {i : Nat} {x : Place} : (s.setPlace i x).now = s.now := rfl
@[simp] theorem State.setPlace_time {s : State} {i : Nat} {x : Place} : (s.setPlace i x).time = s.time := rfl
@[simp] theorem State.setPlace_free {s : State} {i : Nat} {x : Place} : (s.setPlace i x).free = s.free := rfl
@[simp] theorem State.setPlace_regs {s : State} {i : Nat} {x : Place} : (s.setPlace i x).regs = s.regs := rfl
@[simp] theorem State.setPlace_mem {s : State} {i : Nat} {x : Place} : (s.setPlace i x).mem = s.mem := rfl
@[simp] theorem State.setPlace_hostMem {s : State} {i : Nat} {x : Place} : (s.setPlace i x).hostMem = s.hostMem := rfl
@[simp] theorem State.setPlace_ctxs {s : State} {i : Nat} {x : Place} : (s.setPlace i x).ctxs = s.ctxs := rfl
@[simp] theorem State.setPlace_aux {s : State} {i : Nat} {x : Place} : (s.setPlace i x).aux = s.aux := rfl
@[simp] theorem State.setPlace_models {s : State} {i : Nat} {x : Place} : (s.setPlace i x).models = s.models := rfl
@[simp] theorem State.setPlace_parts {s : State} {i : Nat} {x : Place} : (s.setPlace i x).parts = s.parts := rfl
@[simp] theorem State.setPlace_globalLog {s : State} {i : Nat} {x : Place} : (s.setPlace i x).globalLog = s.globalLog := rfl
@[simp] theorem State.setPlace_pairs {s : State} {i : Nat} {x : Place} : (s.setPlace i x).pairs = s.pairs := rfl
@[simp] theorem State.setPlace_procs {s : State} {i : Nat} {x : Place} : (s.setPlace i x).procs = s.procs := rfl
@[simp] theorem State.setPlace_longOps {s : State} {i : Nat} {x : Place} : (s.setPlace i x).longOps = s.longOps := rfl
@[simp] theorem State.setPlace_tiles {s : State} {i : Nat} {x : Place} : (s.setPlace i x).tiles = s.tiles := rfl
@[simp] theorem State.setPlace_phys {s : State} {i : Nat} {x : Place} : (s.setPlace i x).phys = s.phys := rfl
@[simp] theorem State.setPlace_lasers {s : State} {i : Nat} {x : Place} : (s.setPlace i x).lasers = s.lasers := rfl
@[simp] theorem State.setPlace_rings {s : State} {i : Nat} {x : Place} : (s.setPlace i x).rings = s.rings := rfl
@[simp] theorem State.setPlace_ports {s : State} {i : Nat} {x : Place} : (s.setPlace i x).ports = s.ports := rfl
@[simp] theorem State.setPlace_fabric {s : State} {i : Nat} {x : Place} : (s.setPlace i x).fabric = s.fabric := rfl
@[simp] theorem State.setPlace_twin {s : State} {i : Nat} {x : Place} : (s.setPlace i x).twin = s.twin := rfl
@[simp] theorem State.setPlace_cal {s : State} {i : Nat} {x : Place} : (s.setPlace i x).cal = s.cal := rfl
@[simp] theorem State.setPlace_power {s : State} {i : Nat} {x : Place} : (s.setPlace i x).power = s.power := rfl
@[simp] theorem State.setPlace_hkc {s : State} {i : Nat} {x : Place} : (s.setPlace i x).hkc = s.hkc := rfl
@[simp] theorem State.setPlace_therm {s : State} {i : Nat} {x : Place} : (s.setPlace i x).therm = s.therm := rfl
@[simp] theorem State.setPlace_faultLog {s : State} {i : Nat} {x : Place} : (s.setPlace i x).faultLog = s.faultLog := rfl
@[simp] theorem State.setPlace_flash {s : State} {i : Nat} {x : Place} : (s.setPlace i x).flash = s.flash := rfl
@[simp] theorem State.setPlace_fw {s : State} {i : Nat} {x : Place} : (s.setPlace i x).fw = s.fw := rfl
@[simp] theorem State.setPlace_sec {s : State} {i : Nat} {x : Place} : (s.setPlace i x).sec = s.sec := rfl
@[simp] theorem State.setPlace_clk {s : State} {i : Nat} {x : Place} : (s.setPlace i x).clk = s.clk := rfl
@[simp] theorem State.setPlace_pcie {s : State} {i : Nat} {x : Place} : (s.setPlace i x).pcie = s.pcie := rfl
@[simp] theorem State.setPlace_side {s : State} {i : Nat} {x : Place} : (s.setPlace i x).side = s.side := rfl
@[simp] theorem State.setPlace_sched {s : State} {i : Nat} {x : Place} : (s.setPlace i x).sched = s.sched := rfl
@[simp] theorem State.setPlace_out {s : State} {i : Nat} {x : Place} : (s.setPlace i x).out = s.out := rfl
@[simp] theorem State.setPlace_reg_acc {s : State} {i : Nat} {x : Place} {q : RegRef} : (s.setPlace i x).reg q = s.reg q := rfl
@[simp] theorem State.setPlace_fld_acc {s : State} {i : Nat} {x : Place} {q : RegRef} {g : Field} : (s.setPlace i x).fld q g = s.fld q g := rfl
@[simp] theorem State.setPlace_flag_acc {s : State} {i : Nat} {x : Place} {q : RegRef} {g : Field} : (s.setPlace i x).flag q g = s.flag q g := rfl
@[simp] theorem State.setPlace_ctx_acc {s : State} {i : Nat} {x : Place} {z : Nat} : (s.setPlace i x).ctx z = s.ctx z := rfl
@[simp] theorem State.setPlace_auxOf_acc {s : State} {i : Nat} {x : Place} {z : Nat} : (s.setPlace i x).auxOf z = s.auxOf z := rfl
@[simp] theorem State.setPlace_model_acc {s : State} {i : Nat} {x : Place} {z : Nat} : (s.setPlace i x).model z = s.model z := rfl
@[simp] theorem State.setPlace_part_acc {s : State} {i : Nat} {x : Place} {z : Nat} : (s.setPlace i x).part z = s.part z := rfl
@[simp] theorem State.setPlace_pair_acc {s : State} {i : Nat} {x : Place} {z y : Nat} : (s.setPlace i x).pair z y = s.pair z y := rfl
@[simp] theorem State.setPlace_proc_acc {s : State} {i : Nat} {x : Place} {z : Nat} : (s.setPlace i x).proc z = s.proc z := rfl
@[simp] theorem State.setPlace_tile_acc {s : State} {i : Nat} {x : Place} {z : Nat} : (s.setPlace i x).tile z = s.tile z := rfl
@[simp] theorem State.setPlace_phy_acc {s : State} {i : Nat} {x : Place} {z : Nat} : (s.setPlace i x).phy z = s.phy z := rfl
@[simp] theorem State.setPlace_laser_acc {s : State} {i : Nat} {x : Place} {z : Nat} : (s.setPlace i x).laser z = s.laser z := rfl
@[simp] theorem State.setPlace_ring_acc {s : State} {i : Nat} {x : Place} {z y : Nat} : (s.setPlace i x).ring z y = s.ring z y := rfl
@[simp] theorem State.setPlace_port_acc {s : State} {i : Nat} {x : Place} {z : Nat} : (s.setPlace i x).port z = s.port z := rfl
@[simp] theorem State.setPart_pending {s : State} {i : Nat} {x : Part} : (s.setPart i x).pending = s.pending := rfl
@[simp] theorem State.setPart_now {s : State} {i : Nat} {x : Part} : (s.setPart i x).now = s.now := rfl
@[simp] theorem State.setPart_time {s : State} {i : Nat} {x : Part} : (s.setPart i x).time = s.time := rfl
@[simp] theorem State.setPart_free {s : State} {i : Nat} {x : Part} : (s.setPart i x).free = s.free := rfl
@[simp] theorem State.setPart_regs {s : State} {i : Nat} {x : Part} : (s.setPart i x).regs = s.regs := rfl
@[simp] theorem State.setPart_mem {s : State} {i : Nat} {x : Part} : (s.setPart i x).mem = s.mem := rfl
@[simp] theorem State.setPart_hostMem {s : State} {i : Nat} {x : Part} : (s.setPart i x).hostMem = s.hostMem := rfl
@[simp] theorem State.setPart_ctxs {s : State} {i : Nat} {x : Part} : (s.setPart i x).ctxs = s.ctxs := rfl
@[simp] theorem State.setPart_aux {s : State} {i : Nat} {x : Part} : (s.setPart i x).aux = s.aux := rfl
@[simp] theorem State.setPart_models {s : State} {i : Nat} {x : Part} : (s.setPart i x).models = s.models := rfl
@[simp] theorem State.setPart_places {s : State} {i : Nat} {x : Part} : (s.setPart i x).places = s.places := rfl
@[simp] theorem State.setPart_globalLog {s : State} {i : Nat} {x : Part} : (s.setPart i x).globalLog = s.globalLog := rfl
@[simp] theorem State.setPart_pairs {s : State} {i : Nat} {x : Part} : (s.setPart i x).pairs = s.pairs := rfl
@[simp] theorem State.setPart_procs {s : State} {i : Nat} {x : Part} : (s.setPart i x).procs = s.procs := rfl
@[simp] theorem State.setPart_longOps {s : State} {i : Nat} {x : Part} : (s.setPart i x).longOps = s.longOps := rfl
@[simp] theorem State.setPart_tiles {s : State} {i : Nat} {x : Part} : (s.setPart i x).tiles = s.tiles := rfl
@[simp] theorem State.setPart_phys {s : State} {i : Nat} {x : Part} : (s.setPart i x).phys = s.phys := rfl
@[simp] theorem State.setPart_lasers {s : State} {i : Nat} {x : Part} : (s.setPart i x).lasers = s.lasers := rfl
@[simp] theorem State.setPart_rings {s : State} {i : Nat} {x : Part} : (s.setPart i x).rings = s.rings := rfl
@[simp] theorem State.setPart_ports {s : State} {i : Nat} {x : Part} : (s.setPart i x).ports = s.ports := rfl
@[simp] theorem State.setPart_fabric {s : State} {i : Nat} {x : Part} : (s.setPart i x).fabric = s.fabric := rfl
@[simp] theorem State.setPart_twin {s : State} {i : Nat} {x : Part} : (s.setPart i x).twin = s.twin := rfl
@[simp] theorem State.setPart_cal {s : State} {i : Nat} {x : Part} : (s.setPart i x).cal = s.cal := rfl
@[simp] theorem State.setPart_power {s : State} {i : Nat} {x : Part} : (s.setPart i x).power = s.power := rfl
@[simp] theorem State.setPart_hkc {s : State} {i : Nat} {x : Part} : (s.setPart i x).hkc = s.hkc := rfl
@[simp] theorem State.setPart_therm {s : State} {i : Nat} {x : Part} : (s.setPart i x).therm = s.therm := rfl
@[simp] theorem State.setPart_faultLog {s : State} {i : Nat} {x : Part} : (s.setPart i x).faultLog = s.faultLog := rfl
@[simp] theorem State.setPart_flash {s : State} {i : Nat} {x : Part} : (s.setPart i x).flash = s.flash := rfl
@[simp] theorem State.setPart_fw {s : State} {i : Nat} {x : Part} : (s.setPart i x).fw = s.fw := rfl
@[simp] theorem State.setPart_sec {s : State} {i : Nat} {x : Part} : (s.setPart i x).sec = s.sec := rfl
@[simp] theorem State.setPart_clk {s : State} {i : Nat} {x : Part} : (s.setPart i x).clk = s.clk := rfl
@[simp] theorem State.setPart_pcie {s : State} {i : Nat} {x : Part} : (s.setPart i x).pcie = s.pcie := rfl
@[simp] theorem State.setPart_side {s : State} {i : Nat} {x : Part} : (s.setPart i x).side = s.side := rfl
@[simp] theorem State.setPart_sched {s : State} {i : Nat} {x : Part} : (s.setPart i x).sched = s.sched := rfl
@[simp] theorem State.setPart_out {s : State} {i : Nat} {x : Part} : (s.setPart i x).out = s.out := rfl
@[simp] theorem State.setPart_reg_acc {s : State} {i : Nat} {x : Part} {q : RegRef} : (s.setPart i x).reg q = s.reg q := rfl
@[simp] theorem State.setPart_fld_acc {s : State} {i : Nat} {x : Part} {q : RegRef} {g : Field} : (s.setPart i x).fld q g = s.fld q g := rfl
@[simp] theorem State.setPart_flag_acc {s : State} {i : Nat} {x : Part} {q : RegRef} {g : Field} : (s.setPart i x).flag q g = s.flag q g := rfl
@[simp] theorem State.setPart_ctx_acc {s : State} {i : Nat} {x : Part} {z : Nat} : (s.setPart i x).ctx z = s.ctx z := rfl
@[simp] theorem State.setPart_auxOf_acc {s : State} {i : Nat} {x : Part} {z : Nat} : (s.setPart i x).auxOf z = s.auxOf z := rfl
@[simp] theorem State.setPart_model_acc {s : State} {i : Nat} {x : Part} {z : Nat} : (s.setPart i x).model z = s.model z := rfl
@[simp] theorem State.setPart_place_acc {s : State} {i : Nat} {x : Part} {z : Nat} : (s.setPart i x).place z = s.place z := rfl
@[simp] theorem State.setPart_pair_acc {s : State} {i : Nat} {x : Part} {z y : Nat} : (s.setPart i x).pair z y = s.pair z y := rfl
@[simp] theorem State.setPart_proc_acc {s : State} {i : Nat} {x : Part} {z : Nat} : (s.setPart i x).proc z = s.proc z := rfl
@[simp] theorem State.setPart_tile_acc {s : State} {i : Nat} {x : Part} {z : Nat} : (s.setPart i x).tile z = s.tile z := rfl
@[simp] theorem State.setPart_phy_acc {s : State} {i : Nat} {x : Part} {z : Nat} : (s.setPart i x).phy z = s.phy z := rfl
@[simp] theorem State.setPart_laser_acc {s : State} {i : Nat} {x : Part} {z : Nat} : (s.setPart i x).laser z = s.laser z := rfl
@[simp] theorem State.setPart_ring_acc {s : State} {i : Nat} {x : Part} {z y : Nat} : (s.setPart i x).ring z y = s.ring z y := rfl
@[simp] theorem State.setPart_port_acc {s : State} {i : Nat} {x : Part} {z : Nat} : (s.setPart i x).port z = s.port z := rfl
@[simp] theorem State.setProc_pending {s : State} {i : Nat} {x : Proc} : (s.setProc i x).pending = s.pending := rfl
@[simp] theorem State.setProc_now {s : State} {i : Nat} {x : Proc} : (s.setProc i x).now = s.now := rfl
@[simp] theorem State.setProc_time {s : State} {i : Nat} {x : Proc} : (s.setProc i x).time = s.time := rfl
@[simp] theorem State.setProc_free {s : State} {i : Nat} {x : Proc} : (s.setProc i x).free = s.free := rfl
@[simp] theorem State.setProc_regs {s : State} {i : Nat} {x : Proc} : (s.setProc i x).regs = s.regs := rfl
@[simp] theorem State.setProc_mem {s : State} {i : Nat} {x : Proc} : (s.setProc i x).mem = s.mem := rfl
@[simp] theorem State.setProc_hostMem {s : State} {i : Nat} {x : Proc} : (s.setProc i x).hostMem = s.hostMem := rfl
@[simp] theorem State.setProc_ctxs {s : State} {i : Nat} {x : Proc} : (s.setProc i x).ctxs = s.ctxs := rfl
@[simp] theorem State.setProc_aux {s : State} {i : Nat} {x : Proc} : (s.setProc i x).aux = s.aux := rfl
@[simp] theorem State.setProc_models {s : State} {i : Nat} {x : Proc} : (s.setProc i x).models = s.models := rfl
@[simp] theorem State.setProc_places {s : State} {i : Nat} {x : Proc} : (s.setProc i x).places = s.places := rfl
@[simp] theorem State.setProc_parts {s : State} {i : Nat} {x : Proc} : (s.setProc i x).parts = s.parts := rfl
@[simp] theorem State.setProc_globalLog {s : State} {i : Nat} {x : Proc} : (s.setProc i x).globalLog = s.globalLog := rfl
@[simp] theorem State.setProc_pairs {s : State} {i : Nat} {x : Proc} : (s.setProc i x).pairs = s.pairs := rfl
@[simp] theorem State.setProc_longOps {s : State} {i : Nat} {x : Proc} : (s.setProc i x).longOps = s.longOps := rfl
@[simp] theorem State.setProc_tiles {s : State} {i : Nat} {x : Proc} : (s.setProc i x).tiles = s.tiles := rfl
@[simp] theorem State.setProc_phys {s : State} {i : Nat} {x : Proc} : (s.setProc i x).phys = s.phys := rfl
@[simp] theorem State.setProc_lasers {s : State} {i : Nat} {x : Proc} : (s.setProc i x).lasers = s.lasers := rfl
@[simp] theorem State.setProc_rings {s : State} {i : Nat} {x : Proc} : (s.setProc i x).rings = s.rings := rfl
@[simp] theorem State.setProc_ports {s : State} {i : Nat} {x : Proc} : (s.setProc i x).ports = s.ports := rfl
@[simp] theorem State.setProc_fabric {s : State} {i : Nat} {x : Proc} : (s.setProc i x).fabric = s.fabric := rfl
@[simp] theorem State.setProc_twin {s : State} {i : Nat} {x : Proc} : (s.setProc i x).twin = s.twin := rfl
@[simp] theorem State.setProc_cal {s : State} {i : Nat} {x : Proc} : (s.setProc i x).cal = s.cal := rfl
@[simp] theorem State.setProc_power {s : State} {i : Nat} {x : Proc} : (s.setProc i x).power = s.power := rfl
@[simp] theorem State.setProc_hkc {s : State} {i : Nat} {x : Proc} : (s.setProc i x).hkc = s.hkc := rfl
@[simp] theorem State.setProc_therm {s : State} {i : Nat} {x : Proc} : (s.setProc i x).therm = s.therm := rfl
@[simp] theorem State.setProc_faultLog {s : State} {i : Nat} {x : Proc} : (s.setProc i x).faultLog = s.faultLog := rfl
@[simp] theorem State.setProc_flash {s : State} {i : Nat} {x : Proc} : (s.setProc i x).flash = s.flash := rfl
@[simp] theorem State.setProc_fw {s : State} {i : Nat} {x : Proc} : (s.setProc i x).fw = s.fw := rfl
@[simp] theorem State.setProc_sec {s : State} {i : Nat} {x : Proc} : (s.setProc i x).sec = s.sec := rfl
@[simp] theorem State.setProc_clk {s : State} {i : Nat} {x : Proc} : (s.setProc i x).clk = s.clk := rfl
@[simp] theorem State.setProc_pcie {s : State} {i : Nat} {x : Proc} : (s.setProc i x).pcie = s.pcie := rfl
@[simp] theorem State.setProc_side {s : State} {i : Nat} {x : Proc} : (s.setProc i x).side = s.side := rfl
@[simp] theorem State.setProc_sched {s : State} {i : Nat} {x : Proc} : (s.setProc i x).sched = s.sched := rfl
@[simp] theorem State.setProc_out {s : State} {i : Nat} {x : Proc} : (s.setProc i x).out = s.out := rfl
@[simp] theorem State.setProc_reg_acc {s : State} {i : Nat} {x : Proc} {q : RegRef} : (s.setProc i x).reg q = s.reg q := rfl
@[simp] theorem State.setProc_fld_acc {s : State} {i : Nat} {x : Proc} {q : RegRef} {g : Field} : (s.setProc i x).fld q g = s.fld q g := rfl
@[simp] theorem State.setProc_flag_acc {s : State} {i : Nat} {x : Proc} {q : RegRef} {g : Field} : (s.setProc i x).flag q g = s.flag q g := rfl
@[simp] theorem State.setProc_ctx_acc {s : State} {i : Nat} {x : Proc} {z : Nat} : (s.setProc i x).ctx z = s.ctx z := rfl
@[simp] theorem State.setProc_auxOf_acc {s : State} {i : Nat} {x : Proc} {z : Nat} : (s.setProc i x).auxOf z = s.auxOf z := rfl
@[simp] theorem State.setProc_model_acc {s : State} {i : Nat} {x : Proc} {z : Nat} : (s.setProc i x).model z = s.model z := rfl
@[simp] theorem State.setProc_place_acc {s : State} {i : Nat} {x : Proc} {z : Nat} : (s.setProc i x).place z = s.place z := rfl
@[simp] theorem State.setProc_part_acc {s : State} {i : Nat} {x : Proc} {z : Nat} : (s.setProc i x).part z = s.part z := rfl
@[simp] theorem State.setProc_pair_acc {s : State} {i : Nat} {x : Proc} {z y : Nat} : (s.setProc i x).pair z y = s.pair z y := rfl
@[simp] theorem State.setProc_tile_acc {s : State} {i : Nat} {x : Proc} {z : Nat} : (s.setProc i x).tile z = s.tile z := rfl
@[simp] theorem State.setProc_phy_acc {s : State} {i : Nat} {x : Proc} {z : Nat} : (s.setProc i x).phy z = s.phy z := rfl
@[simp] theorem State.setProc_laser_acc {s : State} {i : Nat} {x : Proc} {z : Nat} : (s.setProc i x).laser z = s.laser z := rfl
@[simp] theorem State.setProc_ring_acc {s : State} {i : Nat} {x : Proc} {z y : Nat} : (s.setProc i x).ring z y = s.ring z y := rfl
@[simp] theorem State.setProc_port_acc {s : State} {i : Nat} {x : Proc} {z : Nat} : (s.setProc i x).port z = s.port z := rfl
@[simp] theorem State.setTile_pending {s : State} {i : Nat} {x : Tile} : (s.setTile i x).pending = s.pending := rfl
@[simp] theorem State.setTile_now {s : State} {i : Nat} {x : Tile} : (s.setTile i x).now = s.now := rfl
@[simp] theorem State.setTile_time {s : State} {i : Nat} {x : Tile} : (s.setTile i x).time = s.time := rfl
@[simp] theorem State.setTile_free {s : State} {i : Nat} {x : Tile} : (s.setTile i x).free = s.free := rfl
@[simp] theorem State.setTile_regs {s : State} {i : Nat} {x : Tile} : (s.setTile i x).regs = s.regs := rfl
@[simp] theorem State.setTile_mem {s : State} {i : Nat} {x : Tile} : (s.setTile i x).mem = s.mem := rfl
@[simp] theorem State.setTile_hostMem {s : State} {i : Nat} {x : Tile} : (s.setTile i x).hostMem = s.hostMem := rfl
@[simp] theorem State.setTile_ctxs {s : State} {i : Nat} {x : Tile} : (s.setTile i x).ctxs = s.ctxs := rfl
@[simp] theorem State.setTile_aux {s : State} {i : Nat} {x : Tile} : (s.setTile i x).aux = s.aux := rfl
@[simp] theorem State.setTile_models {s : State} {i : Nat} {x : Tile} : (s.setTile i x).models = s.models := rfl
@[simp] theorem State.setTile_places {s : State} {i : Nat} {x : Tile} : (s.setTile i x).places = s.places := rfl
@[simp] theorem State.setTile_parts {s : State} {i : Nat} {x : Tile} : (s.setTile i x).parts = s.parts := rfl
@[simp] theorem State.setTile_globalLog {s : State} {i : Nat} {x : Tile} : (s.setTile i x).globalLog = s.globalLog := rfl
@[simp] theorem State.setTile_pairs {s : State} {i : Nat} {x : Tile} : (s.setTile i x).pairs = s.pairs := rfl
@[simp] theorem State.setTile_procs {s : State} {i : Nat} {x : Tile} : (s.setTile i x).procs = s.procs := rfl
@[simp] theorem State.setTile_longOps {s : State} {i : Nat} {x : Tile} : (s.setTile i x).longOps = s.longOps := rfl
@[simp] theorem State.setTile_phys {s : State} {i : Nat} {x : Tile} : (s.setTile i x).phys = s.phys := rfl
@[simp] theorem State.setTile_lasers {s : State} {i : Nat} {x : Tile} : (s.setTile i x).lasers = s.lasers := rfl
@[simp] theorem State.setTile_rings {s : State} {i : Nat} {x : Tile} : (s.setTile i x).rings = s.rings := rfl
@[simp] theorem State.setTile_ports {s : State} {i : Nat} {x : Tile} : (s.setTile i x).ports = s.ports := rfl
@[simp] theorem State.setTile_fabric {s : State} {i : Nat} {x : Tile} : (s.setTile i x).fabric = s.fabric := rfl
@[simp] theorem State.setTile_twin {s : State} {i : Nat} {x : Tile} : (s.setTile i x).twin = s.twin := rfl
@[simp] theorem State.setTile_cal {s : State} {i : Nat} {x : Tile} : (s.setTile i x).cal = s.cal := rfl
@[simp] theorem State.setTile_power {s : State} {i : Nat} {x : Tile} : (s.setTile i x).power = s.power := rfl
@[simp] theorem State.setTile_hkc {s : State} {i : Nat} {x : Tile} : (s.setTile i x).hkc = s.hkc := rfl
@[simp] theorem State.setTile_therm {s : State} {i : Nat} {x : Tile} : (s.setTile i x).therm = s.therm := rfl
@[simp] theorem State.setTile_faultLog {s : State} {i : Nat} {x : Tile} : (s.setTile i x).faultLog = s.faultLog := rfl
@[simp] theorem State.setTile_flash {s : State} {i : Nat} {x : Tile} : (s.setTile i x).flash = s.flash := rfl
@[simp] theorem State.setTile_fw {s : State} {i : Nat} {x : Tile} : (s.setTile i x).fw = s.fw := rfl
@[simp] theorem State.setTile_sec {s : State} {i : Nat} {x : Tile} : (s.setTile i x).sec = s.sec := rfl
@[simp] theorem State.setTile_clk {s : State} {i : Nat} {x : Tile} : (s.setTile i x).clk = s.clk := rfl
@[simp] theorem State.setTile_pcie {s : State} {i : Nat} {x : Tile} : (s.setTile i x).pcie = s.pcie := rfl
@[simp] theorem State.setTile_side {s : State} {i : Nat} {x : Tile} : (s.setTile i x).side = s.side := rfl
@[simp] theorem State.setTile_sched {s : State} {i : Nat} {x : Tile} : (s.setTile i x).sched = s.sched := rfl
@[simp] theorem State.setTile_out {s : State} {i : Nat} {x : Tile} : (s.setTile i x).out = s.out := rfl
@[simp] theorem State.setTile_reg_acc {s : State} {i : Nat} {x : Tile} {q : RegRef} : (s.setTile i x).reg q = s.reg q := rfl
@[simp] theorem State.setTile_fld_acc {s : State} {i : Nat} {x : Tile} {q : RegRef} {g : Field} : (s.setTile i x).fld q g = s.fld q g := rfl
@[simp] theorem State.setTile_flag_acc {s : State} {i : Nat} {x : Tile} {q : RegRef} {g : Field} : (s.setTile i x).flag q g = s.flag q g := rfl
@[simp] theorem State.setTile_ctx_acc {s : State} {i : Nat} {x : Tile} {z : Nat} : (s.setTile i x).ctx z = s.ctx z := rfl
@[simp] theorem State.setTile_auxOf_acc {s : State} {i : Nat} {x : Tile} {z : Nat} : (s.setTile i x).auxOf z = s.auxOf z := rfl
@[simp] theorem State.setTile_model_acc {s : State} {i : Nat} {x : Tile} {z : Nat} : (s.setTile i x).model z = s.model z := rfl
@[simp] theorem State.setTile_place_acc {s : State} {i : Nat} {x : Tile} {z : Nat} : (s.setTile i x).place z = s.place z := rfl
@[simp] theorem State.setTile_part_acc {s : State} {i : Nat} {x : Tile} {z : Nat} : (s.setTile i x).part z = s.part z := rfl
@[simp] theorem State.setTile_pair_acc {s : State} {i : Nat} {x : Tile} {z y : Nat} : (s.setTile i x).pair z y = s.pair z y := rfl
@[simp] theorem State.setTile_proc_acc {s : State} {i : Nat} {x : Tile} {z : Nat} : (s.setTile i x).proc z = s.proc z := rfl
@[simp] theorem State.setTile_phy_acc {s : State} {i : Nat} {x : Tile} {z : Nat} : (s.setTile i x).phy z = s.phy z := rfl
@[simp] theorem State.setTile_laser_acc {s : State} {i : Nat} {x : Tile} {z : Nat} : (s.setTile i x).laser z = s.laser z := rfl
@[simp] theorem State.setTile_ring_acc {s : State} {i : Nat} {x : Tile} {z y : Nat} : (s.setTile i x).ring z y = s.ring z y := rfl
@[simp] theorem State.setTile_port_acc {s : State} {i : Nat} {x : Tile} {z : Nat} : (s.setTile i x).port z = s.port z := rfl
@[simp] theorem State.setPhy_pending {s : State} {i : Nat} {x : Phys} : (s.setPhy i x).pending = s.pending := rfl
@[simp] theorem State.setPhy_now {s : State} {i : Nat} {x : Phys} : (s.setPhy i x).now = s.now := rfl
@[simp] theorem State.setPhy_time {s : State} {i : Nat} {x : Phys} : (s.setPhy i x).time = s.time := rfl
@[simp] theorem State.setPhy_free {s : State} {i : Nat} {x : Phys} : (s.setPhy i x).free = s.free := rfl
@[simp] theorem State.setPhy_regs {s : State} {i : Nat} {x : Phys} : (s.setPhy i x).regs = s.regs := rfl
@[simp] theorem State.setPhy_mem {s : State} {i : Nat} {x : Phys} : (s.setPhy i x).mem = s.mem := rfl
@[simp] theorem State.setPhy_hostMem {s : State} {i : Nat} {x : Phys} : (s.setPhy i x).hostMem = s.hostMem := rfl
@[simp] theorem State.setPhy_ctxs {s : State} {i : Nat} {x : Phys} : (s.setPhy i x).ctxs = s.ctxs := rfl
@[simp] theorem State.setPhy_aux {s : State} {i : Nat} {x : Phys} : (s.setPhy i x).aux = s.aux := rfl
@[simp] theorem State.setPhy_models {s : State} {i : Nat} {x : Phys} : (s.setPhy i x).models = s.models := rfl
@[simp] theorem State.setPhy_places {s : State} {i : Nat} {x : Phys} : (s.setPhy i x).places = s.places := rfl
@[simp] theorem State.setPhy_parts {s : State} {i : Nat} {x : Phys} : (s.setPhy i x).parts = s.parts := rfl
@[simp] theorem State.setPhy_globalLog {s : State} {i : Nat} {x : Phys} : (s.setPhy i x).globalLog = s.globalLog := rfl
@[simp] theorem State.setPhy_pairs {s : State} {i : Nat} {x : Phys} : (s.setPhy i x).pairs = s.pairs := rfl
@[simp] theorem State.setPhy_procs {s : State} {i : Nat} {x : Phys} : (s.setPhy i x).procs = s.procs := rfl
@[simp] theorem State.setPhy_longOps {s : State} {i : Nat} {x : Phys} : (s.setPhy i x).longOps = s.longOps := rfl
@[simp] theorem State.setPhy_tiles {s : State} {i : Nat} {x : Phys} : (s.setPhy i x).tiles = s.tiles := rfl
@[simp] theorem State.setPhy_lasers {s : State} {i : Nat} {x : Phys} : (s.setPhy i x).lasers = s.lasers := rfl
@[simp] theorem State.setPhy_rings {s : State} {i : Nat} {x : Phys} : (s.setPhy i x).rings = s.rings := rfl
@[simp] theorem State.setPhy_ports {s : State} {i : Nat} {x : Phys} : (s.setPhy i x).ports = s.ports := rfl
@[simp] theorem State.setPhy_fabric {s : State} {i : Nat} {x : Phys} : (s.setPhy i x).fabric = s.fabric := rfl
@[simp] theorem State.setPhy_twin {s : State} {i : Nat} {x : Phys} : (s.setPhy i x).twin = s.twin := rfl
@[simp] theorem State.setPhy_cal {s : State} {i : Nat} {x : Phys} : (s.setPhy i x).cal = s.cal := rfl
@[simp] theorem State.setPhy_power {s : State} {i : Nat} {x : Phys} : (s.setPhy i x).power = s.power := rfl
@[simp] theorem State.setPhy_hkc {s : State} {i : Nat} {x : Phys} : (s.setPhy i x).hkc = s.hkc := rfl
@[simp] theorem State.setPhy_therm {s : State} {i : Nat} {x : Phys} : (s.setPhy i x).therm = s.therm := rfl
@[simp] theorem State.setPhy_faultLog {s : State} {i : Nat} {x : Phys} : (s.setPhy i x).faultLog = s.faultLog := rfl
@[simp] theorem State.setPhy_flash {s : State} {i : Nat} {x : Phys} : (s.setPhy i x).flash = s.flash := rfl
@[simp] theorem State.setPhy_fw {s : State} {i : Nat} {x : Phys} : (s.setPhy i x).fw = s.fw := rfl
@[simp] theorem State.setPhy_sec {s : State} {i : Nat} {x : Phys} : (s.setPhy i x).sec = s.sec := rfl
@[simp] theorem State.setPhy_clk {s : State} {i : Nat} {x : Phys} : (s.setPhy i x).clk = s.clk := rfl
@[simp] theorem State.setPhy_pcie {s : State} {i : Nat} {x : Phys} : (s.setPhy i x).pcie = s.pcie := rfl
@[simp] theorem State.setPhy_side {s : State} {i : Nat} {x : Phys} : (s.setPhy i x).side = s.side := rfl
@[simp] theorem State.setPhy_sched {s : State} {i : Nat} {x : Phys} : (s.setPhy i x).sched = s.sched := rfl
@[simp] theorem State.setPhy_out {s : State} {i : Nat} {x : Phys} : (s.setPhy i x).out = s.out := rfl
@[simp] theorem State.setPhy_reg_acc {s : State} {i : Nat} {x : Phys} {q : RegRef} : (s.setPhy i x).reg q = s.reg q := rfl
@[simp] theorem State.setPhy_fld_acc {s : State} {i : Nat} {x : Phys} {q : RegRef} {g : Field} : (s.setPhy i x).fld q g = s.fld q g := rfl
@[simp] theorem State.setPhy_flag_acc {s : State} {i : Nat} {x : Phys} {q : RegRef} {g : Field} : (s.setPhy i x).flag q g = s.flag q g := rfl
@[simp] theorem State.setPhy_ctx_acc {s : State} {i : Nat} {x : Phys} {z : Nat} : (s.setPhy i x).ctx z = s.ctx z := rfl
@[simp] theorem State.setPhy_auxOf_acc {s : State} {i : Nat} {x : Phys} {z : Nat} : (s.setPhy i x).auxOf z = s.auxOf z := rfl
@[simp] theorem State.setPhy_model_acc {s : State} {i : Nat} {x : Phys} {z : Nat} : (s.setPhy i x).model z = s.model z := rfl
@[simp] theorem State.setPhy_place_acc {s : State} {i : Nat} {x : Phys} {z : Nat} : (s.setPhy i x).place z = s.place z := rfl
@[simp] theorem State.setPhy_part_acc {s : State} {i : Nat} {x : Phys} {z : Nat} : (s.setPhy i x).part z = s.part z := rfl
@[simp] theorem State.setPhy_pair_acc {s : State} {i : Nat} {x : Phys} {z y : Nat} : (s.setPhy i x).pair z y = s.pair z y := rfl
@[simp] theorem State.setPhy_proc_acc {s : State} {i : Nat} {x : Phys} {z : Nat} : (s.setPhy i x).proc z = s.proc z := rfl
@[simp] theorem State.setPhy_tile_acc {s : State} {i : Nat} {x : Phys} {z : Nat} : (s.setPhy i x).tile z = s.tile z := rfl
@[simp] theorem State.setPhy_laser_acc {s : State} {i : Nat} {x : Phys} {z : Nat} : (s.setPhy i x).laser z = s.laser z := rfl
@[simp] theorem State.setPhy_ring_acc {s : State} {i : Nat} {x : Phys} {z y : Nat} : (s.setPhy i x).ring z y = s.ring z y := rfl
@[simp] theorem State.setPhy_port_acc {s : State} {i : Nat} {x : Phys} {z : Nat} : (s.setPhy i x).port z = s.port z := rfl
@[simp] theorem State.setLaser_pending {s : State} {i : Nat} {x : Laser} : (s.setLaser i x).pending = s.pending := rfl
@[simp] theorem State.setLaser_now {s : State} {i : Nat} {x : Laser} : (s.setLaser i x).now = s.now := rfl
@[simp] theorem State.setLaser_time {s : State} {i : Nat} {x : Laser} : (s.setLaser i x).time = s.time := rfl
@[simp] theorem State.setLaser_free {s : State} {i : Nat} {x : Laser} : (s.setLaser i x).free = s.free := rfl
@[simp] theorem State.setLaser_regs {s : State} {i : Nat} {x : Laser} : (s.setLaser i x).regs = s.regs := rfl
@[simp] theorem State.setLaser_mem {s : State} {i : Nat} {x : Laser} : (s.setLaser i x).mem = s.mem := rfl
@[simp] theorem State.setLaser_hostMem {s : State} {i : Nat} {x : Laser} : (s.setLaser i x).hostMem = s.hostMem := rfl
@[simp] theorem State.setLaser_ctxs {s : State} {i : Nat} {x : Laser} : (s.setLaser i x).ctxs = s.ctxs := rfl
@[simp] theorem State.setLaser_aux {s : State} {i : Nat} {x : Laser} : (s.setLaser i x).aux = s.aux := rfl
@[simp] theorem State.setLaser_models {s : State} {i : Nat} {x : Laser} : (s.setLaser i x).models = s.models := rfl
@[simp] theorem State.setLaser_places {s : State} {i : Nat} {x : Laser} : (s.setLaser i x).places = s.places := rfl
@[simp] theorem State.setLaser_parts {s : State} {i : Nat} {x : Laser} : (s.setLaser i x).parts = s.parts := rfl
@[simp] theorem State.setLaser_globalLog {s : State} {i : Nat} {x : Laser} : (s.setLaser i x).globalLog = s.globalLog := rfl
@[simp] theorem State.setLaser_pairs {s : State} {i : Nat} {x : Laser} : (s.setLaser i x).pairs = s.pairs := rfl
@[simp] theorem State.setLaser_procs {s : State} {i : Nat} {x : Laser} : (s.setLaser i x).procs = s.procs := rfl
@[simp] theorem State.setLaser_longOps {s : State} {i : Nat} {x : Laser} : (s.setLaser i x).longOps = s.longOps := rfl
@[simp] theorem State.setLaser_tiles {s : State} {i : Nat} {x : Laser} : (s.setLaser i x).tiles = s.tiles := rfl
@[simp] theorem State.setLaser_phys {s : State} {i : Nat} {x : Laser} : (s.setLaser i x).phys = s.phys := rfl
@[simp] theorem State.setLaser_rings {s : State} {i : Nat} {x : Laser} : (s.setLaser i x).rings = s.rings := rfl
@[simp] theorem State.setLaser_ports {s : State} {i : Nat} {x : Laser} : (s.setLaser i x).ports = s.ports := rfl
@[simp] theorem State.setLaser_fabric {s : State} {i : Nat} {x : Laser} : (s.setLaser i x).fabric = s.fabric := rfl
@[simp] theorem State.setLaser_twin {s : State} {i : Nat} {x : Laser} : (s.setLaser i x).twin = s.twin := rfl
@[simp] theorem State.setLaser_cal {s : State} {i : Nat} {x : Laser} : (s.setLaser i x).cal = s.cal := rfl
@[simp] theorem State.setLaser_power {s : State} {i : Nat} {x : Laser} : (s.setLaser i x).power = s.power := rfl
@[simp] theorem State.setLaser_hkc {s : State} {i : Nat} {x : Laser} : (s.setLaser i x).hkc = s.hkc := rfl
@[simp] theorem State.setLaser_therm {s : State} {i : Nat} {x : Laser} : (s.setLaser i x).therm = s.therm := rfl
@[simp] theorem State.setLaser_faultLog {s : State} {i : Nat} {x : Laser} : (s.setLaser i x).faultLog = s.faultLog := rfl
@[simp] theorem State.setLaser_flash {s : State} {i : Nat} {x : Laser} : (s.setLaser i x).flash = s.flash := rfl
@[simp] theorem State.setLaser_fw {s : State} {i : Nat} {x : Laser} : (s.setLaser i x).fw = s.fw := rfl
@[simp] theorem State.setLaser_sec {s : State} {i : Nat} {x : Laser} : (s.setLaser i x).sec = s.sec := rfl
@[simp] theorem State.setLaser_clk {s : State} {i : Nat} {x : Laser} : (s.setLaser i x).clk = s.clk := rfl
@[simp] theorem State.setLaser_pcie {s : State} {i : Nat} {x : Laser} : (s.setLaser i x).pcie = s.pcie := rfl
@[simp] theorem State.setLaser_side {s : State} {i : Nat} {x : Laser} : (s.setLaser i x).side = s.side := rfl
@[simp] theorem State.setLaser_sched {s : State} {i : Nat} {x : Laser} : (s.setLaser i x).sched = s.sched := rfl
@[simp] theorem State.setLaser_out {s : State} {i : Nat} {x : Laser} : (s.setLaser i x).out = s.out := rfl
@[simp] theorem State.setLaser_reg_acc {s : State} {i : Nat} {x : Laser} {q : RegRef} : (s.setLaser i x).reg q = s.reg q := rfl
@[simp] theorem State.setLaser_fld_acc {s : State} {i : Nat} {x : Laser} {q : RegRef} {g : Field} : (s.setLaser i x).fld q g = s.fld q g := rfl
@[simp] theorem State.setLaser_flag_acc {s : State} {i : Nat} {x : Laser} {q : RegRef} {g : Field} : (s.setLaser i x).flag q g = s.flag q g := rfl
@[simp] theorem State.setLaser_ctx_acc {s : State} {i : Nat} {x : Laser} {z : Nat} : (s.setLaser i x).ctx z = s.ctx z := rfl
@[simp] theorem State.setLaser_auxOf_acc {s : State} {i : Nat} {x : Laser} {z : Nat} : (s.setLaser i x).auxOf z = s.auxOf z := rfl
@[simp] theorem State.setLaser_model_acc {s : State} {i : Nat} {x : Laser} {z : Nat} : (s.setLaser i x).model z = s.model z := rfl
@[simp] theorem State.setLaser_place_acc {s : State} {i : Nat} {x : Laser} {z : Nat} : (s.setLaser i x).place z = s.place z := rfl
@[simp] theorem State.setLaser_part_acc {s : State} {i : Nat} {x : Laser} {z : Nat} : (s.setLaser i x).part z = s.part z := rfl
@[simp] theorem State.setLaser_pair_acc {s : State} {i : Nat} {x : Laser} {z y : Nat} : (s.setLaser i x).pair z y = s.pair z y := rfl
@[simp] theorem State.setLaser_proc_acc {s : State} {i : Nat} {x : Laser} {z : Nat} : (s.setLaser i x).proc z = s.proc z := rfl
@[simp] theorem State.setLaser_tile_acc {s : State} {i : Nat} {x : Laser} {z : Nat} : (s.setLaser i x).tile z = s.tile z := rfl
@[simp] theorem State.setLaser_phy_acc {s : State} {i : Nat} {x : Laser} {z : Nat} : (s.setLaser i x).phy z = s.phy z := rfl
@[simp] theorem State.setLaser_ring_acc {s : State} {i : Nat} {x : Laser} {z y : Nat} : (s.setLaser i x).ring z y = s.ring z y := rfl
@[simp] theorem State.setLaser_port_acc {s : State} {i : Nat} {x : Laser} {z : Nat} : (s.setLaser i x).port z = s.port z := rfl
@[simp] theorem State.setPort_pending {s : State} {i : Nat} {x : Port} : (s.setPort i x).pending = s.pending := rfl
@[simp] theorem State.setPort_now {s : State} {i : Nat} {x : Port} : (s.setPort i x).now = s.now := rfl
@[simp] theorem State.setPort_time {s : State} {i : Nat} {x : Port} : (s.setPort i x).time = s.time := rfl
@[simp] theorem State.setPort_free {s : State} {i : Nat} {x : Port} : (s.setPort i x).free = s.free := rfl
@[simp] theorem State.setPort_regs {s : State} {i : Nat} {x : Port} : (s.setPort i x).regs = s.regs := rfl
@[simp] theorem State.setPort_mem {s : State} {i : Nat} {x : Port} : (s.setPort i x).mem = s.mem := rfl
@[simp] theorem State.setPort_hostMem {s : State} {i : Nat} {x : Port} : (s.setPort i x).hostMem = s.hostMem := rfl
@[simp] theorem State.setPort_ctxs {s : State} {i : Nat} {x : Port} : (s.setPort i x).ctxs = s.ctxs := rfl
@[simp] theorem State.setPort_aux {s : State} {i : Nat} {x : Port} : (s.setPort i x).aux = s.aux := rfl
@[simp] theorem State.setPort_models {s : State} {i : Nat} {x : Port} : (s.setPort i x).models = s.models := rfl
@[simp] theorem State.setPort_places {s : State} {i : Nat} {x : Port} : (s.setPort i x).places = s.places := rfl
@[simp] theorem State.setPort_parts {s : State} {i : Nat} {x : Port} : (s.setPort i x).parts = s.parts := rfl
@[simp] theorem State.setPort_globalLog {s : State} {i : Nat} {x : Port} : (s.setPort i x).globalLog = s.globalLog := rfl
@[simp] theorem State.setPort_pairs {s : State} {i : Nat} {x : Port} : (s.setPort i x).pairs = s.pairs := rfl
@[simp] theorem State.setPort_procs {s : State} {i : Nat} {x : Port} : (s.setPort i x).procs = s.procs := rfl
@[simp] theorem State.setPort_longOps {s : State} {i : Nat} {x : Port} : (s.setPort i x).longOps = s.longOps := rfl
@[simp] theorem State.setPort_tiles {s : State} {i : Nat} {x : Port} : (s.setPort i x).tiles = s.tiles := rfl
@[simp] theorem State.setPort_phys {s : State} {i : Nat} {x : Port} : (s.setPort i x).phys = s.phys := rfl
@[simp] theorem State.setPort_lasers {s : State} {i : Nat} {x : Port} : (s.setPort i x).lasers = s.lasers := rfl
@[simp] theorem State.setPort_rings {s : State} {i : Nat} {x : Port} : (s.setPort i x).rings = s.rings := rfl
@[simp] theorem State.setPort_fabric {s : State} {i : Nat} {x : Port} : (s.setPort i x).fabric = s.fabric := rfl
@[simp] theorem State.setPort_twin {s : State} {i : Nat} {x : Port} : (s.setPort i x).twin = s.twin := rfl
@[simp] theorem State.setPort_cal {s : State} {i : Nat} {x : Port} : (s.setPort i x).cal = s.cal := rfl
@[simp] theorem State.setPort_power {s : State} {i : Nat} {x : Port} : (s.setPort i x).power = s.power := rfl
@[simp] theorem State.setPort_hkc {s : State} {i : Nat} {x : Port} : (s.setPort i x).hkc = s.hkc := rfl
@[simp] theorem State.setPort_therm {s : State} {i : Nat} {x : Port} : (s.setPort i x).therm = s.therm := rfl
@[simp] theorem State.setPort_faultLog {s : State} {i : Nat} {x : Port} : (s.setPort i x).faultLog = s.faultLog := rfl
@[simp] theorem State.setPort_flash {s : State} {i : Nat} {x : Port} : (s.setPort i x).flash = s.flash := rfl
@[simp] theorem State.setPort_fw {s : State} {i : Nat} {x : Port} : (s.setPort i x).fw = s.fw := rfl
@[simp] theorem State.setPort_sec {s : State} {i : Nat} {x : Port} : (s.setPort i x).sec = s.sec := rfl
@[simp] theorem State.setPort_clk {s : State} {i : Nat} {x : Port} : (s.setPort i x).clk = s.clk := rfl
@[simp] theorem State.setPort_pcie {s : State} {i : Nat} {x : Port} : (s.setPort i x).pcie = s.pcie := rfl
@[simp] theorem State.setPort_side {s : State} {i : Nat} {x : Port} : (s.setPort i x).side = s.side := rfl
@[simp] theorem State.setPort_sched {s : State} {i : Nat} {x : Port} : (s.setPort i x).sched = s.sched := rfl
@[simp] theorem State.setPort_out {s : State} {i : Nat} {x : Port} : (s.setPort i x).out = s.out := rfl
@[simp] theorem State.setPort_reg_acc {s : State} {i : Nat} {x : Port} {q : RegRef} : (s.setPort i x).reg q = s.reg q := rfl
@[simp] theorem State.setPort_fld_acc {s : State} {i : Nat} {x : Port} {q : RegRef} {g : Field} : (s.setPort i x).fld q g = s.fld q g := rfl
@[simp] theorem State.setPort_flag_acc {s : State} {i : Nat} {x : Port} {q : RegRef} {g : Field} : (s.setPort i x).flag q g = s.flag q g := rfl
@[simp] theorem State.setPort_ctx_acc {s : State} {i : Nat} {x : Port} {z : Nat} : (s.setPort i x).ctx z = s.ctx z := rfl
@[simp] theorem State.setPort_auxOf_acc {s : State} {i : Nat} {x : Port} {z : Nat} : (s.setPort i x).auxOf z = s.auxOf z := rfl
@[simp] theorem State.setPort_model_acc {s : State} {i : Nat} {x : Port} {z : Nat} : (s.setPort i x).model z = s.model z := rfl
@[simp] theorem State.setPort_place_acc {s : State} {i : Nat} {x : Port} {z : Nat} : (s.setPort i x).place z = s.place z := rfl
@[simp] theorem State.setPort_part_acc {s : State} {i : Nat} {x : Port} {z : Nat} : (s.setPort i x).part z = s.part z := rfl
@[simp] theorem State.setPort_pair_acc {s : State} {i : Nat} {x : Port} {z y : Nat} : (s.setPort i x).pair z y = s.pair z y := rfl
@[simp] theorem State.setPort_proc_acc {s : State} {i : Nat} {x : Port} {z : Nat} : (s.setPort i x).proc z = s.proc z := rfl
@[simp] theorem State.setPort_tile_acc {s : State} {i : Nat} {x : Port} {z : Nat} : (s.setPort i x).tile z = s.tile z := rfl
@[simp] theorem State.setPort_phy_acc {s : State} {i : Nat} {x : Port} {z : Nat} : (s.setPort i x).phy z = s.phy z := rfl
@[simp] theorem State.setPort_laser_acc {s : State} {i : Nat} {x : Port} {z : Nat} : (s.setPort i x).laser z = s.laser z := rfl
@[simp] theorem State.setPort_ring_acc {s : State} {i : Nat} {x : Port} {z y : Nat} : (s.setPort i x).ring z y = s.ring z y := rfl
@[simp] theorem State.setPair_pending {s : State} {i j : Nat} {x : Pair} : (s.setPair i j x).pending = s.pending := rfl
@[simp] theorem State.setPair_now {s : State} {i j : Nat} {x : Pair} : (s.setPair i j x).now = s.now := rfl
@[simp] theorem State.setPair_time {s : State} {i j : Nat} {x : Pair} : (s.setPair i j x).time = s.time := rfl
@[simp] theorem State.setPair_free {s : State} {i j : Nat} {x : Pair} : (s.setPair i j x).free = s.free := rfl
@[simp] theorem State.setPair_regs {s : State} {i j : Nat} {x : Pair} : (s.setPair i j x).regs = s.regs := rfl
@[simp] theorem State.setPair_mem {s : State} {i j : Nat} {x : Pair} : (s.setPair i j x).mem = s.mem := rfl
@[simp] theorem State.setPair_hostMem {s : State} {i j : Nat} {x : Pair} : (s.setPair i j x).hostMem = s.hostMem := rfl
@[simp] theorem State.setPair_ctxs {s : State} {i j : Nat} {x : Pair} : (s.setPair i j x).ctxs = s.ctxs := rfl
@[simp] theorem State.setPair_aux {s : State} {i j : Nat} {x : Pair} : (s.setPair i j x).aux = s.aux := rfl
@[simp] theorem State.setPair_models {s : State} {i j : Nat} {x : Pair} : (s.setPair i j x).models = s.models := rfl
@[simp] theorem State.setPair_places {s : State} {i j : Nat} {x : Pair} : (s.setPair i j x).places = s.places := rfl
@[simp] theorem State.setPair_parts {s : State} {i j : Nat} {x : Pair} : (s.setPair i j x).parts = s.parts := rfl
@[simp] theorem State.setPair_globalLog {s : State} {i j : Nat} {x : Pair} : (s.setPair i j x).globalLog = s.globalLog := rfl
@[simp] theorem State.setPair_procs {s : State} {i j : Nat} {x : Pair} : (s.setPair i j x).procs = s.procs := rfl
@[simp] theorem State.setPair_longOps {s : State} {i j : Nat} {x : Pair} : (s.setPair i j x).longOps = s.longOps := rfl
@[simp] theorem State.setPair_tiles {s : State} {i j : Nat} {x : Pair} : (s.setPair i j x).tiles = s.tiles := rfl
@[simp] theorem State.setPair_phys {s : State} {i j : Nat} {x : Pair} : (s.setPair i j x).phys = s.phys := rfl
@[simp] theorem State.setPair_lasers {s : State} {i j : Nat} {x : Pair} : (s.setPair i j x).lasers = s.lasers := rfl
@[simp] theorem State.setPair_rings {s : State} {i j : Nat} {x : Pair} : (s.setPair i j x).rings = s.rings := rfl
@[simp] theorem State.setPair_ports {s : State} {i j : Nat} {x : Pair} : (s.setPair i j x).ports = s.ports := rfl
@[simp] theorem State.setPair_fabric {s : State} {i j : Nat} {x : Pair} : (s.setPair i j x).fabric = s.fabric := rfl
@[simp] theorem State.setPair_twin {s : State} {i j : Nat} {x : Pair} : (s.setPair i j x).twin = s.twin := rfl
@[simp] theorem State.setPair_cal {s : State} {i j : Nat} {x : Pair} : (s.setPair i j x).cal = s.cal := rfl
@[simp] theorem State.setPair_power {s : State} {i j : Nat} {x : Pair} : (s.setPair i j x).power = s.power := rfl
@[simp] theorem State.setPair_hkc {s : State} {i j : Nat} {x : Pair} : (s.setPair i j x).hkc = s.hkc := rfl
@[simp] theorem State.setPair_therm {s : State} {i j : Nat} {x : Pair} : (s.setPair i j x).therm = s.therm := rfl
@[simp] theorem State.setPair_faultLog {s : State} {i j : Nat} {x : Pair} : (s.setPair i j x).faultLog = s.faultLog := rfl
@[simp] theorem State.setPair_flash {s : State} {i j : Nat} {x : Pair} : (s.setPair i j x).flash = s.flash := rfl
@[simp] theorem State.setPair_fw {s : State} {i j : Nat} {x : Pair} : (s.setPair i j x).fw = s.fw := rfl
@[simp] theorem State.setPair_sec {s : State} {i j : Nat} {x : Pair} : (s.setPair i j x).sec = s.sec := rfl
@[simp] theorem State.setPair_clk {s : State} {i j : Nat} {x : Pair} : (s.setPair i j x).clk = s.clk := rfl
@[simp] theorem State.setPair_pcie {s : State} {i j : Nat} {x : Pair} : (s.setPair i j x).pcie = s.pcie := rfl
@[simp] theorem State.setPair_side {s : State} {i j : Nat} {x : Pair} : (s.setPair i j x).side = s.side := rfl
@[simp] theorem State.setPair_sched {s : State} {i j : Nat} {x : Pair} : (s.setPair i j x).sched = s.sched := rfl
@[simp] theorem State.setPair_out {s : State} {i j : Nat} {x : Pair} : (s.setPair i j x).out = s.out := rfl
@[simp] theorem State.setPair_reg_acc {s : State} {i j : Nat} {x : Pair} {q : RegRef} : (s.setPair i j x).reg q = s.reg q := rfl
@[simp] theorem State.setPair_fld_acc {s : State} {i j : Nat} {x : Pair} {q : RegRef} {g : Field} : (s.setPair i j x).fld q g = s.fld q g := rfl
@[simp] theorem State.setPair_flag_acc {s : State} {i j : Nat} {x : Pair} {q : RegRef} {g : Field} : (s.setPair i j x).flag q g = s.flag q g := rfl
@[simp] theorem State.setPair_ctx_acc {s : State} {i j : Nat} {x : Pair} {z : Nat} : (s.setPair i j x).ctx z = s.ctx z := rfl
@[simp] theorem State.setPair_auxOf_acc {s : State} {i j : Nat} {x : Pair} {z : Nat} : (s.setPair i j x).auxOf z = s.auxOf z := rfl
@[simp] theorem State.setPair_model_acc {s : State} {i j : Nat} {x : Pair} {z : Nat} : (s.setPair i j x).model z = s.model z := rfl
@[simp] theorem State.setPair_place_acc {s : State} {i j : Nat} {x : Pair} {z : Nat} : (s.setPair i j x).place z = s.place z := rfl
@[simp] theorem State.setPair_part_acc {s : State} {i j : Nat} {x : Pair} {z : Nat} : (s.setPair i j x).part z = s.part z := rfl
@[simp] theorem State.setPair_proc_acc {s : State} {i j : Nat} {x : Pair} {z : Nat} : (s.setPair i j x).proc z = s.proc z := rfl
@[simp] theorem State.setPair_tile_acc {s : State} {i j : Nat} {x : Pair} {z : Nat} : (s.setPair i j x).tile z = s.tile z := rfl
@[simp] theorem State.setPair_phy_acc {s : State} {i j : Nat} {x : Pair} {z : Nat} : (s.setPair i j x).phy z = s.phy z := rfl
@[simp] theorem State.setPair_laser_acc {s : State} {i j : Nat} {x : Pair} {z : Nat} : (s.setPair i j x).laser z = s.laser z := rfl
@[simp] theorem State.setPair_ring_acc {s : State} {i j : Nat} {x : Pair} {z y : Nat} : (s.setPair i j x).ring z y = s.ring z y := rfl
@[simp] theorem State.setPair_port_acc {s : State} {i j : Nat} {x : Pair} {z : Nat} : (s.setPair i j x).port z = s.port z := rfl
@[simp] theorem State.setRing_pending {s : State} {i j : Nat} {x : Ring} : (s.setRing i j x).pending = s.pending := rfl
@[simp] theorem State.setRing_now {s : State} {i j : Nat} {x : Ring} : (s.setRing i j x).now = s.now := rfl
@[simp] theorem State.setRing_time {s : State} {i j : Nat} {x : Ring} : (s.setRing i j x).time = s.time := rfl
@[simp] theorem State.setRing_free {s : State} {i j : Nat} {x : Ring} : (s.setRing i j x).free = s.free := rfl
@[simp] theorem State.setRing_regs {s : State} {i j : Nat} {x : Ring} : (s.setRing i j x).regs = s.regs := rfl
@[simp] theorem State.setRing_mem {s : State} {i j : Nat} {x : Ring} : (s.setRing i j x).mem = s.mem := rfl
@[simp] theorem State.setRing_hostMem {s : State} {i j : Nat} {x : Ring} : (s.setRing i j x).hostMem = s.hostMem := rfl
@[simp] theorem State.setRing_ctxs {s : State} {i j : Nat} {x : Ring} : (s.setRing i j x).ctxs = s.ctxs := rfl
@[simp] theorem State.setRing_aux {s : State} {i j : Nat} {x : Ring} : (s.setRing i j x).aux = s.aux := rfl
@[simp] theorem State.setRing_models {s : State} {i j : Nat} {x : Ring} : (s.setRing i j x).models = s.models := rfl
@[simp] theorem State.setRing_places {s : State} {i j : Nat} {x : Ring} : (s.setRing i j x).places = s.places := rfl
@[simp] theorem State.setRing_parts {s : State} {i j : Nat} {x : Ring} : (s.setRing i j x).parts = s.parts := rfl
@[simp] theorem State.setRing_globalLog {s : State} {i j : Nat} {x : Ring} : (s.setRing i j x).globalLog = s.globalLog := rfl
@[simp] theorem State.setRing_pairs {s : State} {i j : Nat} {x : Ring} : (s.setRing i j x).pairs = s.pairs := rfl
@[simp] theorem State.setRing_procs {s : State} {i j : Nat} {x : Ring} : (s.setRing i j x).procs = s.procs := rfl
@[simp] theorem State.setRing_longOps {s : State} {i j : Nat} {x : Ring} : (s.setRing i j x).longOps = s.longOps := rfl
@[simp] theorem State.setRing_tiles {s : State} {i j : Nat} {x : Ring} : (s.setRing i j x).tiles = s.tiles := rfl
@[simp] theorem State.setRing_phys {s : State} {i j : Nat} {x : Ring} : (s.setRing i j x).phys = s.phys := rfl
@[simp] theorem State.setRing_lasers {s : State} {i j : Nat} {x : Ring} : (s.setRing i j x).lasers = s.lasers := rfl
@[simp] theorem State.setRing_ports {s : State} {i j : Nat} {x : Ring} : (s.setRing i j x).ports = s.ports := rfl
@[simp] theorem State.setRing_fabric {s : State} {i j : Nat} {x : Ring} : (s.setRing i j x).fabric = s.fabric := rfl
@[simp] theorem State.setRing_twin {s : State} {i j : Nat} {x : Ring} : (s.setRing i j x).twin = s.twin := rfl
@[simp] theorem State.setRing_cal {s : State} {i j : Nat} {x : Ring} : (s.setRing i j x).cal = s.cal := rfl
@[simp] theorem State.setRing_power {s : State} {i j : Nat} {x : Ring} : (s.setRing i j x).power = s.power := rfl
@[simp] theorem State.setRing_hkc {s : State} {i j : Nat} {x : Ring} : (s.setRing i j x).hkc = s.hkc := rfl
@[simp] theorem State.setRing_therm {s : State} {i j : Nat} {x : Ring} : (s.setRing i j x).therm = s.therm := rfl
@[simp] theorem State.setRing_faultLog {s : State} {i j : Nat} {x : Ring} : (s.setRing i j x).faultLog = s.faultLog := rfl
@[simp] theorem State.setRing_flash {s : State} {i j : Nat} {x : Ring} : (s.setRing i j x).flash = s.flash := rfl
@[simp] theorem State.setRing_fw {s : State} {i j : Nat} {x : Ring} : (s.setRing i j x).fw = s.fw := rfl
@[simp] theorem State.setRing_sec {s : State} {i j : Nat} {x : Ring} : (s.setRing i j x).sec = s.sec := rfl
@[simp] theorem State.setRing_clk {s : State} {i j : Nat} {x : Ring} : (s.setRing i j x).clk = s.clk := rfl
@[simp] theorem State.setRing_pcie {s : State} {i j : Nat} {x : Ring} : (s.setRing i j x).pcie = s.pcie := rfl
@[simp] theorem State.setRing_side {s : State} {i j : Nat} {x : Ring} : (s.setRing i j x).side = s.side := rfl
@[simp] theorem State.setRing_sched {s : State} {i j : Nat} {x : Ring} : (s.setRing i j x).sched = s.sched := rfl
@[simp] theorem State.setRing_out {s : State} {i j : Nat} {x : Ring} : (s.setRing i j x).out = s.out := rfl
@[simp] theorem State.setRing_reg_acc {s : State} {i j : Nat} {x : Ring} {q : RegRef} : (s.setRing i j x).reg q = s.reg q := rfl
@[simp] theorem State.setRing_fld_acc {s : State} {i j : Nat} {x : Ring} {q : RegRef} {g : Field} : (s.setRing i j x).fld q g = s.fld q g := rfl
@[simp] theorem State.setRing_flag_acc {s : State} {i j : Nat} {x : Ring} {q : RegRef} {g : Field} : (s.setRing i j x).flag q g = s.flag q g := rfl
@[simp] theorem State.setRing_ctx_acc {s : State} {i j : Nat} {x : Ring} {z : Nat} : (s.setRing i j x).ctx z = s.ctx z := rfl
@[simp] theorem State.setRing_auxOf_acc {s : State} {i j : Nat} {x : Ring} {z : Nat} : (s.setRing i j x).auxOf z = s.auxOf z := rfl
@[simp] theorem State.setRing_model_acc {s : State} {i j : Nat} {x : Ring} {z : Nat} : (s.setRing i j x).model z = s.model z := rfl
@[simp] theorem State.setRing_place_acc {s : State} {i j : Nat} {x : Ring} {z : Nat} : (s.setRing i j x).place z = s.place z := rfl
@[simp] theorem State.setRing_part_acc {s : State} {i j : Nat} {x : Ring} {z : Nat} : (s.setRing i j x).part z = s.part z := rfl
@[simp] theorem State.setRing_pair_acc {s : State} {i j : Nat} {x : Ring} {z y : Nat} : (s.setRing i j x).pair z y = s.pair z y := rfl
@[simp] theorem State.setRing_proc_acc {s : State} {i j : Nat} {x : Ring} {z : Nat} : (s.setRing i j x).proc z = s.proc z := rfl
@[simp] theorem State.setRing_tile_acc {s : State} {i j : Nat} {x : Ring} {z : Nat} : (s.setRing i j x).tile z = s.tile z := rfl
@[simp] theorem State.setRing_phy_acc {s : State} {i j : Nat} {x : Ring} {z : Nat} : (s.setRing i j x).phy z = s.phy z := rfl
@[simp] theorem State.setRing_laser_acc {s : State} {i j : Nat} {x : Ring} {z : Nat} : (s.setRing i j x).laser z = s.laser z := rfl
@[simp] theorem State.setRing_port_acc {s : State} {i j : Nat} {x : Ring} {z : Nat} : (s.setRing i j x).port z = s.port z := rfl

/-! ## Registers -/

@[simp] theorem State.reg_wrReg_self {s : State} {r : RegRef} {v : Word64} : (s.wrReg r v).reg r = v := tget_tset_self

theorem State.reg_wrReg_ne {s : State} {r q : RegRef} {v : Word64} (h : q.key ≠ r.key) : (s.wrReg r v).reg q = s.reg q :=
  tget_tset_ne h

theorem State.reg_setFld_ne {s : State} {r q : RegRef} {f : Field} {x : Nat} (h : q.key ≠ r.key) : (s.setFld r f x).reg q = s.reg q :=
  tget_tset_ne h

theorem State.fld_wrReg_ne {s : State} {r q : RegRef} {g : Field} {v : Word64} (h : q.key ≠ r.key) : (s.wrReg r v).fld q g = s.fld q g := by
  unfold State.fld; rw [State.reg_wrReg_ne h]

theorem State.fld_setFld_ne {s : State} {r q : RegRef} {f g : Field} {x : Nat} (h : q.key ≠ r.key) :
    (s.setFld r f x).fld q g = s.fld q g := State.fld_wrReg_ne h

theorem State.fld_setFlag_ne {s : State} {r q : RegRef} {f g : Field} {b : Bool} (h : q.key ≠ r.key) :
    (s.setFlag r f b).fld q g = s.fld q g := State.fld_wrReg_ne h

theorem State.fld_setFld_self {s : State} {r : RegRef} {f : Field} {x : Nat} (h : f.lo + f.w ≤ 64) :
    (s.setFld r f x).fld r f = x % 2 ^ f.w := by
  unfold State.fld State.setFld; rw [State.reg_wrReg_self]; exact getBits_putBits_self h

theorem State.fld_setFld_of_disjoint {s : State} {r : RegRef} {f g : Field} {x : Nat} (h : g.lo + g.w ≤ f.lo ∨ f.lo + f.w ≤ g.lo) :
    (s.setFld r f x).fld r g = s.fld r g := by
  unfold State.fld State.setFld; rw [State.reg_wrReg_self]; exact getBits_putBits_of_disjoint h

theorem State.fld_setFlag_self {s : State} {r : RegRef} {f : Field} {b : Bool} (h : f.lo + f.w ≤ 64) (hw : f.w = 1) :
    (s.setFlag r f b).fld r f = b2n b := by
  unfold State.setFlag; rw [State.fld_setFld_self h, hw]; cases b <;> rfl

theorem State.flag_setFlag_self {s : State} {r : RegRef} {f : Field} {b : Bool} (h : f.lo + f.w ≤ 64) (hw : f.w = 1) :
    (s.setFlag r f b).flag r f = b := by
  unfold State.flag; rw [State.fld_setFlag_self h hw]; cases b <;> rfl

/-- A field as an operation on another field, or on another register, leaves it. -/
theorem State.fld_setFld_other {s : State} {r q : RegRef} {f g : Field} {x : Nat}
    (h : q.key ≠ r.key ∨ (q = r ∧ (g.lo + g.w ≤ f.lo ∨ f.lo + f.w ≤ g.lo))) : (s.setFld r f x).fld q g = s.fld q g := by
  rcases h with h | ⟨rfl, h⟩
  · exact State.fld_setFld_ne h
  · exact State.fld_setFld_of_disjoint h

theorem State.fld_lt {s : State} {r : RegRef} {f : Field} : s.fld r f < 2 ^ f.w := Nat.mod_lt _ (Nat.two_pow_pos _)

/-! ## Objects -/

@[simp] theorem State.ctx_setCtx_self {s : State} {i : Nat} {x : Ctx} : (s.setCtx i x).ctx i = x := tget_tset_self

theorem State.ctx_setCtx_ne {s : State} {i j : Nat} {x : Ctx} (h : j ≠ i) : (s.setCtx i x).ctx j = s.ctx j := tget_tset_ne h

@[simp] theorem State.auxOf_setAux_self {s : State} {i : Nat} {x : CtxAux} : (s.setAux i x).auxOf i = x := tget_tset_self

theorem State.auxOf_setAux_ne {s : State} {i j : Nat} {x : CtxAux} (h : j ≠ i) : (s.setAux i x).auxOf j = s.auxOf j := tget_tset_ne h

@[simp] theorem State.model_setModel_self {s : State} {i : Nat} {x : Model} : (s.setModel i x).model i = x := tget_tset_self

theorem State.model_setModel_ne {s : State} {i j : Nat} {x : Model} (h : j ≠ i) : (s.setModel i x).model j = s.model j := tget_tset_ne h

@[simp] theorem State.place_setPlace_self {s : State} {i : Nat} {x : Place} : (s.setPlace i x).place i = x := tget_tset_self

theorem State.place_setPlace_ne {s : State} {i j : Nat} {x : Place} (h : j ≠ i) : (s.setPlace i x).place j = s.place j := tget_tset_ne h

@[simp] theorem State.part_setPart_self {s : State} {i : Nat} {x : Part} : (s.setPart i x).part i = x := tget_tset_self

theorem State.part_setPart_ne {s : State} {i j : Nat} {x : Part} (h : j ≠ i) : (s.setPart i x).part j = s.part j := tget_tset_ne h

@[simp] theorem State.proc_setProc_self {s : State} {i : Nat} {x : Proc} : (s.setProc i x).proc i = x := tget_tset_self

theorem State.proc_setProc_ne {s : State} {i j : Nat} {x : Proc} (h : j ≠ i) : (s.setProc i x).proc j = s.proc j := tget_tset_ne h

@[simp] theorem State.tile_setTile_self {s : State} {i : Nat} {x : Tile} : (s.setTile i x).tile i = x := tget_tset_self

theorem State.tile_setTile_ne {s : State} {i j : Nat} {x : Tile} (h : j ≠ i) : (s.setTile i x).tile j = s.tile j := tget_tset_ne h

@[simp] theorem State.phy_setPhy_self {s : State} {i : Nat} {x : Phys} : (s.setPhy i x).phy i = x := tget_tset_self

theorem State.phy_setPhy_ne {s : State} {i j : Nat} {x : Phys} (h : j ≠ i) : (s.setPhy i x).phy j = s.phy j := tget_tset_ne h

@[simp] theorem State.laser_setLaser_self {s : State} {i : Nat} {x : Laser} : (s.setLaser i x).laser i = x := tget_tset_self

theorem State.laser_setLaser_ne {s : State} {i j : Nat} {x : Laser} (h : j ≠ i) : (s.setLaser i x).laser j = s.laser j := tget_tset_ne h

@[simp] theorem State.port_setPort_self {s : State} {i : Nat} {x : Port} : (s.setPort i x).port i = x := tget_tset_self

theorem State.port_setPort_ne {s : State} {i j : Nat} {x : Port} (h : j ≠ i) : (s.setPort i x).port j = s.port j := tget_tset_ne h

@[simp] theorem State.pair_setPair_self {s : State} {f r : Nat} {x : Pair} : (s.setPair f r x).pair f r = x := tget_tset_self

theorem State.pair_setPair_ne {s : State} {f r g q : Nat} {x : Pair} (h : pairKey g q ≠ pairKey f r) :
    (s.setPair f r x).pair g q = s.pair g q := tget_tset_ne h

@[simp] theorem State.ring_setRing_self {s : State} {c r : Nat} {x : Ring} : (s.setRing c r x).ring c r = x := tget_tset_self

theorem State.ring_setRing_ne {s : State} {c r d q : Nat} {x : Ring} (h : ringKey d q ≠ ringKey c r) :
    (s.setRing c r x).ring d q = s.ring d q := tget_tset_ne h

/-! ## Time -/

theorem State.tick_now {s : State} {t : Nat} : (s.tick t).now = max s.now t := by
  unfold State.tick; split
  · omega
  · show t = max s.now t; omega

theorem State.tick_time {s : State} {t : Nat} : (s.tick t).time = if s.clk.running then s.time + (t - s.now) else s.time := by
  unfold State.tick; split
  · have : t - s.now = 0 := by omega
    simp [this]
  · rfl

end Sys2Proof.Machine
end

