-- ==== Sys2Proof/Laws/Frame.lean ====
section
/-! SUPPORT. Frames in one vocabulary: what a register write, a violation, a posted entry, a reply and the fetch of a packet change, and
that they change nothing else. -/

namespace Sys2Proof.Machine

/-! ## Frames over register fields -/

theorem fieldsBut_refl {s : State} {l : List (RegRef × Field)} : s.fieldsBut s l := fun _ _ _ => rfl

theorem fieldsBut_of_regs {s t : State} {l : List (RegRef × Field)} (h : t.regs = s.regs) : s.fieldsBut t l := by
  intro r f _
  unfold State.fld State.reg
  rw [h]

theorem fieldsBut_trans {s t u : State} {l : List (RegRef × Field)} (h1 : s.fieldsBut t l) (h2 : t.fieldsBut u l) : s.fieldsBut u l :=
  fun r f h => (h2 r f h).trans (h1 r f h)

theorem fieldsBut_mono {s t : State} {l m : List (RegRef × Field)} (h : s.fieldsBut t l) (hm : ∀ x ∈ l, x ∈ m) : s.fieldsBut t m :=
  fun r f hx => h r f fun x hl => hx x (hm x hl)

theorem fieldsBut_setFld {s : State} {r : RegRef} {f : Field} {x : Nat} {l : List (RegRef × Field)} (hl : (r, f) ∈ l) :
    s.fieldsBut (s.setFld r f x) l := by
  intro q g h
  by_cases e : r.key = q.key
  · obtain ⟨rfl, hd⟩ := h (r, f) hl e
    exact State.fld_setFld_of_disjoint hd
  · exact State.fld_setFld_ne (fun e' => e e'.symm)

/-- The frame of a field written into a whole register listed. -/
theorem fieldsBut_whole {s t : State} {r : RegRef} {l : List (RegRef × Field)} (hl : (r, wholeReg) ∈ l)
    (h : ∀ q : RegRef, q.key ≠ r.key → t.reg q = s.reg q) : s.fieldsBut t l := by
  intro q g hq
  by_cases e : r.key = q.key
  · obtain ⟨rfl, hd⟩ := hq (r, wholeReg) hl e
    have hz : ∀ v : Word64, getBits v g.lo g.w = 0 := by
      intro v
      unfold getBits bitsOf
      rcases hd with hd | hd
      · have : g.w = 0 := by simp [wholeReg] at hd; omega
        rw [this]; simp [Nat.mod_one]
      · have h64 : 64 ≤ g.lo := by simpa [wholeReg] using hd
        have : v.toNat / 2 ^ g.lo = 0 := Nat.div_eq_of_lt (Nat.lt_of_lt_of_le v.isLt (Nat.pow_le_pow_right (by decide) h64))
        rw [this]; simp
    unfold State.fld
    rw [hz, hz]
  · unfold State.fld
    rw [h q fun e' => e e'.symm]

theorem fieldsBut_wrReg {s : State} {r : RegRef} {v : Word64} {l : List (RegRef × Field)} (hl : (r, wholeReg) ∈ l) :
    s.fieldsBut (s.wrReg r v) l :=
  fieldsBut_whole hl fun _ hq => State.reg_wrReg_ne hq

theorem fieldsBut_bumpBy {s : State} {r : RegRef} {f : Field} {n : Nat} {l : List (RegRef × Field)} (hl : (r, f) ∈ l) :
    s.fieldsBut (s.bumpBy r f n) l := by
  unfold State.bumpBy
  split
  · exact fieldsBut_refl
  · exact fieldsBut_setFld hl

theorem fieldsBut_bump {s : State} {r : RegRef} {f : Field} {l : List (RegRef × Field)} (hl : (r, f) ∈ l) : s.fieldsBut (s.bump r f) l :=
  fieldsBut_bumpBy hl

/-- A counter that fits its register is advanced by n and saturates. -/
theorem fld_bumpBy {s : State} {r : RegRef} {f : Field} {n : Nat} (h : f.lo + f.w ≤ 64) (hs : s.fld r f < 2 ^ f.w) :
    (s.bumpBy r f n).fld r f = min (s.fld r f + n) (2 ^ f.w - 1) := by
  unfold State.bumpBy
  split
  · subst_vars; omega
  · rw [State.fld_setFld_self h, Nat.mod_eq_of_lt]
    have := Nat.two_pow_pos f.w
    omega

/-! ## Violations -/

theorem raise_eq {s : State} {f v : Nat} : s.raise f v = { s with pcie := (s.raise f v).pcie } := by
  unfold State.raise
  split
  · rfl
  · split <;> rfl

theorem raise_agrees {s t : State} {f v : Nat} (h : t = { s with regs := t.regs, parts := t.parts, globalLog := t.globalLog }) :
    t.raise f v = { s with regs := t.regs, parts := t.parts, globalLog := t.globalLog, pcie := (t.raise f v).pcie } := by
  rw [raise_eq]
  cases t; cases s
  cases h
  rfl

theorem bumpBy_eq {s : State} {r : RegRef} {f : Field} {n : Nat} : s.bumpBy r f n = { s with regs := (s.bumpBy r f n).regs } := by
  unfold State.bumpBy
  split <;> rfl

/-- A violation is one entry in both logs; beside it only the two counters of the function and the messages sent change. -/
theorem violate_logs {s : State} {p a source : Nat} {phys value : Bool} :
    s.logsViolation (s.violate p a source phys value) ⟨s.time, a % 2 ^ 48, source, p, phys, value⟩ ∧
      s.fieldsBut (s.violate p a source phys value)
        [(Reg.SCH_FN_STAT p, Fld.SCH_FN_STAT_VIOL), (Reg.SCH_FN_STAT p, Fld.SCH_FN_STAT_LOST)] ∧
      s.violate p a source phys value =
        { s with regs := (s.violate p a source phys value).regs, parts := (s.violate p a source phys value).parts,
                 globalLog := (s.violate p a source phys value).globalLog, pcie := (s.violate p a source phys value).pcie } := by
  have hl : ∀ (l : List VEntry) (e : VEntry) (n : Nat), (if (l ++ [e]).length ≤ n then l ++ [e] else (l ++ [e]).drop 1) =
      if l.length < n then l ++ [e] else (l ++ [e]).drop 1 := by
    intro l e n
    simp only [List.length_append, List.length_singleton, Nat.succ_le_iff]
  unfold State.violate
  generalize he : VEntry.mk s.time (a % 2 ^ 48) source p phys value = e
  have hep : e.part = p := by rw [← he]
  dsimp only
  rw [hl, hl]
  generalize hx : (if (s.part p).viol.length < 16 then (s.part p).viol ++ [e] else ((s.part p).viol ++ [e]).drop 1) = x
  generalize hs1 : s.setPart p { s.part p with viol := x } = s1
  have hg : s1.globalLog = s.globalLog := by rw [← hs1]; rfl
  have h1p : s1.part p = { s.part p with viol := x } := by rw [← hs1]; simp
  have h1e : s1 = { s with parts := s1.parts } := by rw [← hs1]; rfl
  generalize hgl : (if s1.globalLog.length < 64 then s1.globalLog ++ [e] else (s1.globalLog ++ [e]).drop 1) = g
  generalize hs2 : ({ s1 with globalLog := g } : State) = s2
  have h2 : s2 = { s with parts := s1.parts, globalLog := g } := by rw [← hs2, h1e]
  generalize hs3 : s2.bump (Reg.SCH_FN_STAT p) Fld.SCH_FN_STAT_VIOL = s3
  have h3 : s3 = { s2 with regs := s3.regs } := by rw [← hs3]; exact bumpBy_eq
  have hf3 : s.fieldsBut s3 [(Reg.SCH_FN_STAT p, Fld.SCH_FN_STAT_VIOL), (Reg.SCH_FN_STAT p, Fld.SCH_FN_STAT_LOST)] := by
    rw [← hs3]
    exact fieldsBut_trans (fieldsBut_of_regs (by rw [h2])) (fieldsBut_bump (by simp))
  generalize hs4 : (if ((s.part p).viol ++ [e]).length ≤ 16 then s3 else s3.bump (Reg.SCH_FN_STAT p) Fld.SCH_FN_STAT_LOST) = s4
  have h4 : s4 = { s3 with regs := s4.regs } := by
    rw [← hs4]
    split
    · rfl
    · exact bumpBy_eq
  have hf4 : s.fieldsBut s4 [(Reg.SCH_FN_STAT p, Fld.SCH_FN_STAT_VIOL), (Reg.SCH_FN_STAT p, Fld.SCH_FN_STAT_LOST)] := by
    refine fieldsBut_trans hf3 ?_
    rw [← hs4]
    split
    · exact fieldsBut_refl
    · exact fieldsBut_bump (by simp)
  have h4s : s4 = { s with regs := s4.regs, parts := s1.parts, globalLog := g } := by
    rw [h4, h3, h2]
  have hra := raise_agrees (s := s) (t := s4) (f := p) (v := 18) (by rw [h4s])
  refine ⟨⟨?_, ?_⟩, ?_, ?_⟩
  · rw [hep, hra]
    show (tget {} s4.parts p).viol = _
    rw [h4s]
    show (s1.part p).viol = _
    rw [h1p, ← hx]
  · rw [hra]
    show s4.globalLog = _
    rw [h4s, ← hgl, hg]
  · exact fieldsBut_trans hf4 (fieldsBut_of_regs (by rw [raise_eq]))
  · rw [hra]

theorem refuses_of_refuseWrite {s : State} {fn off : Nat} : s.refuses (s.refuseWrite fn off) fn off := violate_logs

/-! ## Entries and replies (R289, R292, R299) -/

/-- What an entry for a completion ring changes: the pair it is for, or the count of entries discarded. -/
theorem post_eq {s : State} {f r : Nat} {o : Out} :
    s.post f r o = if s.pairOn f r then
        s.setPair f r { s.pair f r with out := (s.pair f r).out ++ [{ o with since := s.now }] }
      else s.bump (Reg.SCH_FN_STAT f) Fld.SCH_FN_STAT_DISCARD := rfl

theorem ringsOnly_refl {s : State} {f r : Nat} : s.ringsOnly s f r := ⟨rfl, fieldsBut_refl, fun _ _ => rfl⟩

theorem ringsOnly_trans {s t u : State} {f r : Nat} (h1 : s.ringsOnly t f r) (h2 : t.ringsOnly u f r) : s.ringsOnly u f r := by
  obtain ⟨a1, b1, c1⟩ := h1
  obtain ⟨a2, b2, c2⟩ := h2
  exact ⟨by rw [a2, a1], fieldsBut_trans b1 b2, fun k hk => (c2 k hk).trans (c1 k hk)⟩

theorem ringsOnly_setPair {s : State} {f k r : Nat} {x : Pair} (hk : k < 32) : s.ringsOnly (s.setPair f k x) f r := by
  refine ⟨rfl, fieldsBut_of_regs rfl, fun n hn => ?_⟩
  exact tget_tset_ne (by unfold pairKey; omega)

theorem ringsOnly_bump {s : State} {f r : Nat} {x : RegRef} {g : Field} {n : Nat}
    (h : (x, g) ∈ [(Reg.SCH_FN_STAT f, Fld.SCH_FN_STAT_DISCARD), (Reg.SCH_RING_STAT f r, Fld.SCH_RING_STAT_BAD)]) :
    s.ringsOnly (s.bumpBy x g n) f r :=
  ⟨by rw [bumpBy_eq], fieldsBut_bumpBy h, fun _ _ => by rw [bumpBy_eq]⟩

theorem ringsOnly_discard {s : State} {f r : Nat} : s.ringsOnly (s.bump (Reg.SCH_FN_STAT f) Fld.SCH_FN_STAT_DISCARD) f r :=
  ringsOnly_bump (n := 1) (by simp)

theorem ringsOnly_post {s : State} {f k r : Nat} {o : Out} (hk : k < 32) : s.ringsOnly (s.post f k o) f r := by
  rw [post_eq]
  split
  · exact ringsOnly_setPair hk
  · exact ringsOnly_bump (n := 1) (by simp)

theorem ringsOnly_each {α : Type} {f r : Nat} {xs : List α} {g : State → α → State} (hg : ∀ (s : State) x, x ∈ xs → s.ringsOnly (g s x) f r) (s : State) :
    s.ringsOnly (s.each xs g) f r := by
  unfold State.each
  induction xs generalizing s with
  | nil => exact ringsOnly_refl
  | cons x t ih => exact ringsOnly_trans (hg s x (by simp)) (ih (fun s y hy => hg s y (by simp [hy])) _)

theorem ringsOnly_fenceSweep {s : State} {f r : Nat} : s.ringsOnly (s.fenceSweep f) f r := by
  refine ringsOnly_each (fun s _ _ => ringsOnly_each (fun s k hk => ?_) s) s
  have hk : k < 32 := by have := List.mem_range.1 hk; omega
  dsimp only
  split
  · split
    · split
      · exact ringsOnly_setPair hk
      · split
        · exact ringsOnly_trans (ringsOnly_setPair hk) (ringsOnly_bump (n := 1) (by simp))
        · exact ringsOnly_trans (ringsOnly_setPair hk) (ringsOnly_post hk)
    · exact ringsOnly_refl
  · exact ringsOnly_refl

/-- A reply changes only its function's ring pairs, the count of entries discarded and the count of bad packets. -/
theorem ringsOnly_replyAs {s : State} {final : Bool} {h : Hdr} {op st detail result : Nat} (hr : h.ring < 32) :
    s.ringsOnly (s.replyAs final h op st detail result) h.fn h.ring := by
  unfold State.replyAs
  dsimp only
  have hb : s.ringsOnly (if (decide (st = stBadPacket) || decide (st = stViolation)) = true then
      s.bump (Reg.SCH_RING_STAT h.fn h.ring) Fld.SCH_RING_STAT_BAD else s) h.fn h.ring := by
    split
    · exact ringsOnly_bump (n := 1) (by simp)
    · exact ringsOnly_refl
  generalize (if (decide (st = stBadPacket) || decide (st = stViolation)) = true then
    s.bump (Reg.SCH_RING_STAT h.fn h.ring) Fld.SCH_RING_STAT_BAD else s) = u at hb ⊢
  refine ringsOnly_trans hb ?_
  split
  · refine ringsOnly_trans ?_ ringsOnly_fenceSweep
    exact ringsOnly_setPair hr
  · split
    · refine ringsOnly_trans ?_ ringsOnly_fenceSweep
      refine ringsOnly_trans ?_ ringsOnly_discard
      exact ringsOnly_setPair hr
    · exact ringsOnly_post hr

theorem ringsOnly_reply {s : State} {h : Hdr} {op st detail result : Nat} (hr : h.ring < 32) :
    s.ringsOnly (s.reply h op st detail result) h.fn h.ring := ringsOnly_replyAs hr

end Sys2Proof.Machine
end

