-- ==== Sys2Proof/Laws/Keeps.lean ====
section
/-! SUPPORT. What every operation keeps: the queue, the order of times and free values, and the canonical form of the state; and
that the primitive operations of Machine/Ops.lean keep it. -/

namespace Sys2Proof.Machine

/-- `t` comes after `s`: the queue is the same, the clock and the number of the next free value have not gone back, and the
canonical form is kept. -/
structure Keeps (s t : State) : Prop where
  pending : t.pending = s.pending
  now : s.now ≤ t.now
  free : s.free ≤ t.free
  canon : s.Canonical → t.Canonical

theorem Keeps.refl (s : State) : Keeps s s := ⟨rfl, Nat.le_refl _, Nat.le_refl _, id⟩

theorem Keeps.trans {r s t : State} (h : Keeps r s) (g : Keeps s t) : Keeps r t :=
  ⟨g.pending.trans h.pending, Nat.le_trans h.now g.now, Nat.le_trans h.free g.free, fun c => g.canon (h.canon c)⟩

variable {s0 s : State}

/-- Parts of the state that the canonical form does not speak of may change. -/
theorem Keeps.other {time longOps fabric twin cal power hkc therm fw sec clk pcie sched out} (h : Keeps s0 s) :
    Keeps s0 { s with time := time, longOps := longOps, fabric := fabric, twin := twin, cal := cal, power := power, hkc := hkc,
                      therm := therm, fw := fw, sec := sec, clk := clk, pcie := pcie, sched := sched, out := out } :=
  ⟨h.pending, h.now, h.free, fun c => { h.canon c with }⟩

/-- So may the parts of flash other than the map record and the fault log. -/
theorem Keeps.otherFlash {time longOps fabric twin cal power hkc therm fw sec clk pcie sched out bankHdr staged active bootSeq bootOk minSvn
    coCtr flogBad mapBad calRecs hours versions} (h : Keeps s0 s) :
    Keeps s0 { s with
      time := time, longOps := longOps, fabric := fabric, twin := twin, cal := cal, power := power, hkc := hkc, therm := therm, fw := fw,
      sec := sec, clk := clk, pcie := pcie, sched := sched, out := out,
      flash := { s.flash with
        bankHdr := bankHdr, staged := staged, active := active, bootSeq := bootSeq, bootOk := bootOk, minSvn := minSvn, coCtr := coCtr,
        flogBad := flogBad, mapBad := mapBad, calRecs := calRecs, hours := hours, versions := versions } } :=
  ⟨h.pending, h.now, h.free, fun c => { h.canon c with }⟩

theorem Keeps.side {x : Side} (h : Keeps s0 s) (hx : s.side.events.length ≤ 32 → x.events.length ≤ 32) :
    Keeps s0 { s with side := x } :=
  ⟨h.pending, h.now, h.free, fun c => { h.canon c with events := hx (h.canon c).events }⟩

theorem Keeps.setFaultLog {x : FLog} (h : Keeps s0 s) (hx : s.faultLog.entries.length ≤ 126 → x.entries.length ≤ 126) :
    Keeps s0 { s with faultLog := x } :=
  ⟨h.pending, h.now, h.free, fun c => { h.canon c with faultLog := hx (h.canon c).faultLog }⟩

theorem Keeps.useFree' {n : Nat} (h : Keeps s0 s) (hn : s.free ≤ n) : Keeps s0 { s with free := n } :=
  ⟨h.pending, h.now, Nat.le_trans h.free hn, fun c => { h.canon c with }⟩

theorem Keeps.addFree {n : Nat} (h : Keeps s0 s) : Keeps s0 { s with free := s.free + n } :=
  h.useFree' (Nat.le_add_right _ _)

theorem Keeps.setMem {m : Mem} (h : Keeps s0 s) (hm : s.mem.wf = true → m.wf = true) : Keeps s0 { s with mem := m } :=
  ⟨h.pending, h.now, h.free, fun c => { h.canon c with mem := hm (h.canon c).mem }⟩

theorem Keeps.clearMem {lo n : Nat} (h : Keeps s0 s) : Keeps s0 { s with mem := s.mem.clear lo n } := h.setMem Mem.wf_clear

theorem Keeps.poison {us : List Nat} (h : Keeps s0 s) : Keeps s0 { s with mem := { s.mem with poison := us } } := h.setMem id

theorem Keeps.setRings {t : Tbl Ring} (h : Keeps s0 s) (ht : tsorted s.rings = true → tsorted t = true) :
    Keeps s0 { s with rings := t } :=
  ⟨h.pending, h.now, h.free, fun c => { h.canon c with rings := ht (h.canon c).rings }⟩

theorem Keeps.setPairs {t : Tbl Pair} (h : Keeps s0 s) (ht : tsorted s.pairs = true → tsorted t = true) :
    Keeps s0 { s with pairs := t } :=
  ⟨h.pending, h.now, h.free, fun c => { h.canon c with pairs := ht (h.canon c).pairs }⟩

theorem Keeps.mapPairTbl {f : Nat × Pair → Nat × Pair} (h : Keeps s0 s) (hf : ∀ e, (f e).1 = e.1) :
    Keeps s0 { s with pairs := s.pairs.map f } := h.setPairs (tsorted_map hf)

theorem Keeps.mapRingTbl {f : Nat × Ring → Nat × Ring} (h : Keeps s0 s) (hf : ∀ e, (f e).1 = e.1) :
    Keeps s0 { s with rings := s.rings.map f } := h.setRings (tsorted_map hf)

theorem Keeps.setRegs {t : Tbl Word64} (h : Keeps s0 s) (ht : tsorted s.regs = true → tsorted t = true) :
    Keeps s0 { s with regs := t } :=
  ⟨h.pending, h.now, h.free, fun c => { h.canon c with regs := ht (h.canon c).regs }⟩

theorem Keeps.setHost {t : Tbl (Nat × Byte)} (h : Keeps s0 s) (ht : tsorted s.hostMem = true → tsorted t = true) :
    Keeps s0 { s with hostMem := t } :=
  ⟨h.pending, h.now, h.free, fun c => { h.canon c with hostMem := ht (h.canon c).hostMem }⟩

theorem Keeps.setFlash {x : Flash} (h : Keeps s0 s) (hr : s.Canonical → x.recordOk = true) (hl : s.Canonical → x.logOk = true) :
    Keeps s0 { s with flash := x } :=
  ⟨h.pending, h.now, h.free, fun c => { h.canon c with record := hr (h.canon c), flashLog := hl (h.canon c) }⟩

theorem Keeps.wrReg {r : RegRef} {v : Word64} (h : Keeps s0 s) : Keeps s0 (s.wrReg r v) :=
  ⟨h.pending, h.now, h.free, fun c => { h.canon c with regs := tsorted_tset (h.canon c).regs }⟩

theorem Keeps.setFld {r : RegRef} {f : Field} {x : Nat} (h : Keeps s0 s) : Keeps s0 (s.setFld r f x) := h.wrReg

theorem Keeps.setFlag {r : RegRef} {f : Field} {b : Bool} (h : Keeps s0 s) : Keeps s0 (s.setFlag r f b) := h.wrReg

theorem Keeps.bumpBy {r : RegRef} {f : Field} {n : Nat} (h : Keeps s0 s) : Keeps s0 (s.bumpBy r f n) := by
  unfold State.bumpBy; split
  · exact h
  · exact h.wrReg

theorem Keeps.bump {r : RegRef} {f : Field} (h : Keeps s0 s) : Keeps s0 (s.bump r f) := h.bumpBy

theorem Keeps.rstReg {r : RegRef} (h : Keeps s0 s) : Keeps s0 (s.rstReg r) := h.wrReg

theorem Keeps.setCtx {i : Nat} {x : Ctx} (h : Keeps s0 s) : Keeps s0 (s.setCtx i x) :=
  ⟨h.pending, h.now, h.free, fun c => { h.canon c with ctxs := tsorted_tset (h.canon c).ctxs }⟩

theorem Keeps.setAux {i : Nat} {x : CtxAux} (h : Keeps s0 s) : Keeps s0 (s.setAux i x) :=
  ⟨h.pending, h.now, h.free, fun c => { h.canon c with aux := tsorted_tset (h.canon c).aux }⟩

theorem Keeps.setModel {i : Nat} {x : Model} (h : Keeps s0 s) : Keeps s0 (s.setModel i x) :=
  ⟨h.pending, h.now, h.free, fun c => { h.canon c with models := tsorted_tset (h.canon c).models }⟩

theorem Keeps.setPlace {i : Nat} {x : Place} (h : Keeps s0 s) : Keeps s0 (s.setPlace i x) :=
  ⟨h.pending, h.now, h.free, fun c => { h.canon c with places := tsorted_tset (h.canon c).places }⟩

theorem Keeps.setPart {i : Nat} {x : Part} (h : Keeps s0 s) : Keeps s0 (s.setPart i x) :=
  ⟨h.pending, h.now, h.free, fun c => { h.canon c with parts := tsorted_tset (h.canon c).parts }⟩

theorem Keeps.setPair {f r : Nat} {x : Pair} (h : Keeps s0 s) : Keeps s0 (s.setPair f r x) :=
  ⟨h.pending, h.now, h.free, fun c => { h.canon c with pairs := tsorted_tset (h.canon c).pairs }⟩

theorem Keeps.setProc {i : Nat} {x : Proc} (h : Keeps s0 s) : Keeps s0 (s.setProc i x) :=
  ⟨h.pending, h.now, h.free, fun c => { h.canon c with procs := tsorted_tset (h.canon c).procs }⟩

theorem Keeps.setTile {i : Nat} {x : Tile} (h : Keeps s0 s) : Keeps s0 (s.setTile i x) :=
  ⟨h.pending, h.now, h.free, fun c => { h.canon c with tiles := tsorted_tset (h.canon c).tiles }⟩

theorem Keeps.setPhy {i : Nat} {x : Phys} (h : Keeps s0 s) : Keeps s0 (s.setPhy i x) :=
  ⟨h.pending, h.now, h.free, fun c => { h.canon c with phys := tsorted_tset (h.canon c).phys }⟩

theorem Keeps.setLaser {i : Nat} {x : Laser} (h : Keeps s0 s) : Keeps s0 (s.setLaser i x) :=
  ⟨h.pending, h.now, h.free, fun c => { h.canon c with lasers := tsorted_tset (h.canon c).lasers }⟩

theorem Keeps.setRing {c r : Nat} {x : Ring} (h : Keeps s0 s) : Keeps s0 (s.setRing c r x) :=
  ⟨h.pending, h.now, h.free, fun c => { h.canon c with rings := tsorted_tset (h.canon c).rings }⟩

theorem Keeps.setPort {i : Nat} {x : Port} (h : Keeps s0 s) : Keeps s0 (s.setPort i x) :=
  ⟨h.pending, h.now, h.free, fun c => { h.canon c with ports := tsorted_tset (h.canon c).ports }⟩

theorem Keeps.foldl {α : Type} {xs : List α} {f : State → α → State} (h : Keeps s0 s)
    (hf : ∀ s x, Keeps s0 s → Keeps s0 (f s x)) : Keeps s0 (xs.foldl f s) := by
  induction xs generalizing s with
  | nil => exact h
  | cons x t ih => exact ih (hf s x h)

theorem Keeps.foldlFst {α β : Type} {xs : List α} {f : State × β → α → State × β} {p : State × β} (h : Keeps s0 p.1)
    (hf : ∀ p x, Keeps s0 p.1 → Keeps s0 (f p x).1) : Keeps s0 (xs.foldl f p).1 := by
  induction xs generalizing p with
  | nil => exact h
  | cons x t ih => exact ih (hf p x h)

theorem Keeps.fst_of_eq {β : Type} {t : State} {p : State × β} {x : β} (e : p = (t, x)) (h : Keeps s0 p.1) : Keeps s0 t := by
  subst e; exact h

theorem Keeps.snd_of_eq {β : Type} {t : State} {p : β × State} {x : β} (e : p = (x, t)) (h : Keeps s0 p.2) : Keeps s0 t := by
  subst e; exact h

theorem Keeps.inl_ite {β : Type} {c : Prop} [Decidable c] {a b : State ⊕ β} {t : State} (e : (if c then a else b) = .inl t)
    (ha : a = .inl t → Keeps s0 t) (hb : b = .inl t → Keeps s0 t) : Keeps s0 t := by
  split at e
  · exact ha e
  · exact hb e

theorem Keeps.inl_inj {β : Type} {t : State} (e : (.inl s : State ⊕ β) = .inl t) (h : Keeps s0 s) : Keeps s0 t := by
  cases e; exact h

theorem Keeps.each {α : Type} {xs : List α} {f : State → α → State} (h : Keeps s0 s)
    (hf : ∀ s x, Keeps s0 s → Keeps s0 (f s x)) : Keeps s0 (s.each xs f) := h.foldl hf

theorem Keeps.when {b : Bool} {f : State → State} (h : Keeps s0 s) (hf : ∀ s, Keeps s0 s → Keeps s0 (f s)) :
    Keeps s0 (s.when b f) := by
  unfold State.when; split
  · exact hf s h
  · exact h

theorem Keeps.tick {t : Nat} (h : Keeps s0 s) : Keeps s0 (s.tick t) := by
  unfold State.tick; split
  · exact h
  · exact ⟨h.pending, by have := h.now; simp only; omega, h.free, fun c => { h.canon c with }⟩

theorem Keeps.useFree (h : Keeps s0 s) : Keeps s0 s.useFree := h.addFree

theorem Keeps.raise {f v : Nat} (h : Keeps s0 s) : Keeps s0 (s.raise f v) := by
  unfold State.raise; split
  · exact h
  · split
    · exact h.other
    · exact h.other

theorem Keeps.raiseRing {f r : Nat} (h : Keeps s0 s) : Keeps s0 (s.raiseRing f r) := by
  unfold State.raiseRing; split
  · split
    · exact h
    · exact h.raise
  · exact h.raise

theorem Keeps.pldm {k o : Nat} (h : Keeps s0 s) : Keeps s0 (s.pldm k o) := by
  unfold State.pldm
  dsimp only
  split
  · rename_i hl; exact h.side fun _ => hl
  · exact h.side fun hl => by simp only [List.length_drop, List.length_append, List.length_singleton]; omega

theorem Keeps.fault {c l so ob : Nat} {d : List Byte} (h : Keeps s0 s) : Keeps s0 (s.fault c l so ob d) := by
  unfold State.fault
  dsimp only
  split
  · rename_i hl; exact h.setFaultLog fun _ => hl
  · exact h.setFaultLog fun hl => by simp only [List.length_drop, List.length_append, List.length_singleton]; omega

theorem Keeps.globalLog {g : List VEntry} (h : Keeps s0 s) (hg : s.globalLog.length ≤ 64 → g.length ≤ 64) :
    Keeps s0 { s with globalLog := g } :=
  ⟨h.pending, h.now, h.free, fun c => { h.canon c with globalLog := hg (h.canon c).globalLog }⟩

theorem dropOne_length {α : Type} {n : Nat} {l : List α} {x : α} (hl : l.length ≤ n) :
    (if (l ++ [x]).length ≤ n then l ++ [x] else (l ++ [x]).drop 1).length ≤ n := by
  split
  · assumption
  · simp only [List.length_drop, List.length_append, List.length_singleton]; omega

theorem Keeps.violate {p a so : Nat} {ph va : Bool} (h : Keeps s0 s) : Keeps s0 (s.violate p a so ph va) := by
  unfold State.violate
  dsimp only
  refine Keeps.raise ?_
  split
  · exact (Keeps.globalLog h.setPart dropOne_length).bump
  · exact (Keeps.globalLog h.setPart dropOne_length).bump.bump

theorem Keeps.wrMem {p a : Nat} {bs : List Byte} (h : Keeps s0 s) : Keeps s0 (s.wrMem p a bs) := h.setMem Mem.wf_write

theorem Keeps.wrRaw {a : Nat} {bs : List Byte} (h : Keeps s0 s) : Keeps s0 (s.wrRaw a bs) := h.setMem Mem.wf_write

theorem Keeps.wrPieces {p : Nat} {ps : List (Nat × Nat)} {bs : List Byte} (h : Keeps s0 s) :
    Keeps s0 (s.wrPieces p ps bs) := by
  induction ps generalizing s bs with
  | nil => exact h
  | cons a t ih => exact ih h.wrMem

theorem Keeps.wrVa_eq {p va : Nat} {bs : List Byte} {t : State} (e : s.wrVa p va bs = .inl t) (h : Keeps s0 s) :
    Keeps s0 t := by
  unfold State.wrVa at e
  split at e
  · cases e; exact h.wrPieces
  · cases e

end Sys2Proof.Machine
end

