-- ==== Sys2Proof/Laws/KeepsOps.lean ====
section
/-! SUPPORT. The operations of Machine/Ops.lean keep the queue, the order of times and the canonical form. -/

namespace Sys2Proof.Machine

theorem Keeps.asOf {s0 s : State} {l : Nat} (hk : Keeps s0 s)  : Keeps s0 (State.asOf s l) := by
  unfold State.asOf
  repeat' first
    | with_reducible assumption
    | with_reducible apply Keeps.wrReg
    | with_reducible apply Keeps.setPart
    | with_reducible apply Keeps.foldl
    | split
    | intro _
    | extract_lets
    | with_reducible apply Keeps.other
    | dsimp -zeta only

theorem Keeps.backFrom {s0 s b : State} {l : Nat} (hk : Keeps s0 s) : Keeps s0 (State.backFrom s b l) := by
  unfold State.backFrom
  repeat' first
    | with_reducible assumption
    | with_reducible apply Keeps.wrReg
    | with_reducible apply Keeps.setPart
    | with_reducible apply Keeps.foldl
    | split
    | intro _
    | extract_lets
    | with_reducible apply Keeps.other
    | dsimp -zeta only

theorem Keeps.under {s0 s : State} {l : Nat} {f : State → State} (hk : Keeps s0 s) (h_f : ∀ (v0 : State), Keeps s0 v0 → Keeps s0 (f v0)) : Keeps s0 (State.under s l f) := by
  unfold State.under
  repeat' first
    | with_reducible assumption
    | with_reducible apply Keeps.asOf
    | with_reducible apply Keeps.backFrom
    | with_reducible apply h_f
    | split
    | intro _
    | extract_lets
    | dsimp -zeta only

theorem Keeps.urAt {s0 s : State} {fn : Nat} {isRead : Bool} (hk : Keeps s0 s)  : Keeps s0 (State.urAt s fn isRead) := by
  unfold State.urAt
  repeat' first
    | with_reducible assumption
    | split
    | intro _
    | extract_lets
    | with_reducible apply Keeps.other
    | dsimp -zeta only

theorem Keeps.sendMsix {s0 s : State} {f : Nat} {vec : Nat} (hk : Keeps s0 s)  : Keeps s0 (State.sendMsix s f vec) := by
  unfold State.sendMsix
  repeat' first
    | with_reducible assumption
    | split
    | intro _
    | extract_lets
    | with_reducible apply Keeps.other
    | dsimp -zeta only

theorem Keeps.sendPending {s0 s : State} {f : Nat} (hk : Keeps s0 s)  : Keeps s0 (State.sendPending s f) := by
  unfold State.sendPending
  repeat' first
    | with_reducible assumption
    | with_reducible apply Keeps.foldl
    | with_reducible apply Keeps.sendMsix
    | split
    | intro _
    | extract_lets
    | with_reducible apply Keeps.other
    | dsimp -zeta only

theorem Keeps.msixReset {s0 s : State} {f : Nat} (hk : Keeps s0 s)  : Keeps s0 (State.msixReset s f) := by
  unfold State.msixReset
  repeat' first
    | with_reducible assumption
    | split
    | intro _
    | extract_lets
    | with_reducible apply Keeps.other
    | dsimp -zeta only

theorem Keeps.refuseWrite {s0 s : State} {p : Nat} {off : Nat} (hk : Keeps s0 s)  : Keeps s0 (State.refuseWrite s p off) := by
  unfold State.refuseWrite
  repeat' first
    | with_reducible assumption
    | with_reducible apply Keeps.violate
    | split
    | intro _
    | extract_lets
    | dsimp -zeta only

theorem Keeps.ueAt {s0 s : State} {a : Nat} (hk : Keeps s0 s)  : Keeps s0 (State.ueAt s a) := by
  unfold State.ueAt
  repeat' first
    | with_reducible assumption
    | with_reducible apply Keeps.bump
    | with_reducible apply Keeps.fault
    | split
    | intro _
    | extract_lets
    | dsimp -zeta only

theorem Keeps.mapFrame {s0 s : State} {p : Nat} {va : Nat} {pa : Nat} {fl : Nat} (hk : Keeps s0 s)  : Keeps s0 (State.mapFrame s p va pa fl) := by
  unfold State.mapFrame
  repeat' first
    | with_reducible assumption
    | with_reducible apply Keeps.setPart
    | with_reducible apply Keeps.each
    | with_reducible apply Keeps.wrMem
    | split
    | intro _
    | extract_lets
    | with_reducible apply Keeps.other
    | dsimp -zeta only

theorem Keeps.unmapFrame {s0 s : State} {p : Nat} {va : Nat} {fl : Nat} (hk : Keeps s0 s)  : Keeps s0 (State.unmapFrame s p va fl) := by
  unfold State.unmapFrame
  repeat' first
    | with_reducible assumption
    | with_reducible apply Keeps.setPart
    | with_reducible apply Keeps.each
    | with_reducible apply Keeps.wrMem
    | split
    | intro _
    | extract_lets
    | with_reducible apply Keeps.other
    | dsimp -zeta only

theorem Keeps.post {s0 s : State} {f : Nat} {r : Nat} {o : Out} (hk : Keeps s0 s)  : Keeps s0 (State.post s f r o) := by
  unfold State.post
  repeat' first
    | with_reducible assumption
    | with_reducible apply Keeps.bump
    | with_reducible apply Keeps.setPair
    | split
    | intro _
    | extract_lets
    | with_reducible apply Keeps.other
    | dsimp -zeta only

theorem Keeps.fencePass {s0 s : State} {f : Nat} (hk : Keeps s0 s)  : Keeps s0 (State.fencePass s f) := by
  unfold State.fencePass
  repeat' first
    | with_reducible assumption
    | with_reducible apply Keeps.bump
    | with_reducible apply Keeps.setPair
    | with_reducible apply Keeps.each
    | with_reducible apply Keeps.post
    | split
    | intro _
    | extract_lets
    | with_reducible apply Keeps.other
    | dsimp -zeta only

theorem Keeps.fenceSweep {s0 s : State} {f : Nat} (hk : Keeps s0 s)  : Keeps s0 (State.fenceSweep s f) := by
  unfold State.fenceSweep
  repeat' first
    | with_reducible assumption
    | with_reducible apply Keeps.each
    | with_reducible apply Keeps.fencePass
    | split
    | intro _
    | extract_lets
    | dsimp -zeta only

theorem Keeps.replyAs {s0 s : State} {final : Bool} {h : Hdr} {opcode : Nat} {status : Nat} {detail : Nat} {result : Nat} (hk : Keeps s0 s)  : Keeps s0 (State.replyAs s final h opcode status detail result) := by
  unfold State.replyAs
  repeat' first
    | with_reducible assumption
    | with_reducible apply Keeps.bump
    | with_reducible apply Keeps.setPair
    | with_reducible apply Keeps.post
    | with_reducible apply Keeps.fenceSweep
    | split
    | intro _
    | extract_lets
    | with_reducible apply Keeps.other
    | dsimp -zeta only

theorem Keeps.reply {s0 s : State} {h : Hdr} {opcode : Nat} {status : Nat} {detail : Nat} {result : Nat} (hk : Keeps s0 s)  : Keeps s0 (State.reply s h opcode status detail result) := by
  unfold State.reply
  repeat' first
    | with_reducible assumption
    | with_reducible apply Keeps.replyAs
    | split
    | intro _
    | extract_lets
    | dsimp -zeta only

theorem Keeps.fail {s0 s : State} {h : Hdr} {opcode : Nat} {c : Chk} (hk : Keeps s0 s)  : Keeps s0 (State.fail s h opcode c) := by
  unfold State.fail
  repeat' first
    | with_reducible assumption
    | with_reducible apply Keeps.fault
    | with_reducible apply Keeps.violate
    | with_reducible apply Keeps.reply
    | split
    | intro _
    | extract_lets
    | with_reducible apply Keeps.other
    | dsimp -zeta only

theorem Keeps.checked {s0 s : State} {h : Hdr} {opcode : Nat} {cs : List Chk} {act : State → State} (hk : Keeps s0 s) (h_act : ∀ (v0 : State), Keeps s0 v0 → Keeps s0 (act v0)) : Keeps s0 (State.checked s h opcode cs act) := by
  unfold State.checked
  repeat' first
    | with_reducible assumption
    | with_reducible apply Keeps.fail
    | with_reducible apply h_act
    | split
    | intro _
    | extract_lets
    | with_reducible apply Keeps.other
    | dsimp -zeta only

end Sys2Proof.Machine
end

