-- ==== Sys2Proof/Laws/KeepsOperands.lean ====
section
/-! SUPPORT. The operations of Machine/Operands.lean keep the queue, the order of times and the canonical form. -/

namespace Sys2Proof.Machine

theorem Keeps.passRing {s0 s : State} {h : Hdr} (hk : Keeps s0 s)  : Keeps s0 (State.passRing s h) := by
  unfold State.passRing
  repeat' first
    | with_reducible assumption
    | split
    | intro _
    | extract_lets
    | with_reducible apply Keeps.other
    | dsimp -zeta only

theorem Keeps.takePacket {s0 s : State} {h : Hdr} (hk : Keeps s0 s)  : Keeps s0 (State.takePacket s h) := by
  unfold State.takePacket
  repeat' first
    | with_reducible assumption
    | with_reducible apply Keeps.setFld
    | with_reducible apply Keeps.setPair
    | with_reducible apply Keeps.passRing
    | split
    | intro _
    | extract_lets
    | with_reducible apply Keeps.other
    | dsimp -zeta only

theorem Keeps.ringOff {s0 s : State} {f : Nat} {r : Nat} (hk : Keeps s0 s)  : Keeps s0 (State.ringOff s f r) := by
  unfold State.ringOff
  repeat' first
    | with_reducible assumption
    | with_reducible apply Keeps.setFlag
    | with_reducible apply Keeps.bumpBy
    | with_reducible apply Keeps.rstReg
    | with_reducible apply Keeps.setPair
    | with_reducible apply Keeps.foldl
    | with_reducible apply Keeps.each
    | split
    | intro _
    | extract_lets
    | with_reducible apply Keeps.other
    | dsimp -zeta only

theorem Keeps.fetching {s0 s : State} {h : Hdr} {f : State → State} (hk : Keeps s0 s) (h_f : ∀ (v0 : State), Keeps s0 v0 → Keeps s0 (f v0)) : Keeps s0 (State.fetching s h f) := by
  unfold State.fetching
  repeat' first
    | with_reducible assumption
    | with_reducible apply Keeps.ueAt
    | with_reducible apply Keeps.passRing
    | with_reducible apply Keeps.ringOff
    | with_reducible apply h_f
    | split
    | intro _
    | extract_lets
    | with_reducible apply Keeps.other
    | dsimp -zeta only

theorem Keeps.dPacket {s0 s : State} {h : Hdr} {op : Nat} {len : Nat} {act : State → State} (hk : Keeps s0 s) (h_act : ∀ (v0 : State), Keeps s0 v0 → Keeps s0 (act v0)) : Keeps s0 (State.dPacket s h op len act) := by
  unfold State.dPacket
  repeat' first
    | with_reducible assumption
    | with_reducible apply Keeps.reply
    | with_reducible apply Keeps.fail
    | with_reducible apply Keeps.takePacket
    | with_reducible apply Keeps.fetching
    | with_reducible apply h_act
    | split
    | intro _
    | extract_lets
    | with_reducible apply Keeps.other
    | dsimp -zeta only

end Sys2Proof.Machine
end

