-- ==== Sys2Proof/Laws/KeepsLongOps.lean ====
section
/-! SUPPORT. The operations of Machine/LongOps.lean keep the queue, the order of times and the canonical form. -/

namespace Sys2Proof.Machine

theorem Keeps.setLong {s0 s : State} {o : LongOp} (hk : Keeps s0 s)  : Keeps s0 (State.setLong s o) := by
  unfold State.setLong
  repeat' first
    | with_reducible assumption
    | split
    | intro _
    | extract_lets
    | with_reducible apply Keeps.other
    | dsimp -zeta only

theorem Keeps.countLong {s0 s : State} {p : Nat} (hk : Keeps s0 s)  : Keeps s0 (State.countLong s p) := by
  unfold State.countLong
  repeat' first
    | with_reducible assumption
    | with_reducible apply Keeps.setFld
    | split
    | intro _
    | extract_lets
    | dsimp -zeta only

theorem Keeps.startLong {s0 s : State} {h : Hdr} {pkt : CPacket} {total : Nat} {act : LongOp → State → State} (hk : Keeps s0 s) (h_act : ∀ (v0 : LongOp) (v1 : State), Keeps s0 v1 → Keeps s0 (act v0 v1)) : Keeps s0 (State.startLong s h pkt total act) := by
  unfold State.startLong
  repeat' first
    | with_reducible assumption
    | with_reducible apply Keeps.replyAs
    | with_reducible apply Keeps.reply
    | with_reducible apply Keeps.countLong
    | with_reducible apply h_act
    | split
    | intro _
    | extract_lets
    | with_reducible apply Keeps.other
    | dsimp -zeta only

theorem Keeps.dropLong {s0 s : State} {o : LongOp} (hk : Keeps s0 s)  : Keeps s0 (State.dropLong s o) := by
  unfold State.dropLong
  repeat' first
    | with_reducible assumption
    | with_reducible apply Keeps.countLong
    | split
    | intro _
    | extract_lets
    | with_reducible apply Keeps.other
    | dsimp -zeta only

theorem Keeps.endLong {s0 s : State} {o : LongOp} {status : Nat} {detail : Nat} {result : Nat} (hk : Keeps s0 s)  : Keeps s0 (State.endLong s o status detail result) := by
  unfold State.endLong
  repeat' first
    | with_reducible assumption
    | with_reducible apply Keeps.reply
    | with_reducible apply Keeps.dropLong
    | split
    | intro _
    | extract_lets
    | dsimp -zeta only

theorem Keeps.endLongAt {s0 s : State} {id : Nat} {status : Nat} {detail : Nat} {result : Nat} (hk : Keeps s0 s)  : Keeps s0 (State.endLongAt s id status detail result) := by
  unfold State.endLongAt
  repeat' first
    | with_reducible assumption
    | with_reducible apply Keeps.endLong
    | split
    | intro _
    | extract_lets
    | with_reducible apply Keeps.other
    | dsimp -zeta only

theorem Keeps.tellLong {s0 s : State} {o : LongOp} (hk : Keeps s0 s)  : Keeps s0 (State.tellLong s o) := by
  unfold State.tellLong
  repeat' first
    | with_reducible assumption
    | with_reducible apply Keeps.replyAs
    | with_reducible apply Keeps.setLong
    | split
    | intro _
    | extract_lets
    | with_reducible apply Keeps.other
    | dsimp -zeta only

theorem Keeps.advanceLong {s0 s : State} {o : LongOp} {done : Nat} (hk : Keeps s0 s)  : Keeps s0 (State.advanceLong s o done) := by
  unfold State.advanceLong
  repeat' first
    | with_reducible assumption
    | with_reducible apply Keeps.setLong
    | with_reducible apply Keeps.tellLong
    | split
    | intro _
    | extract_lets
    | with_reducible apply Keeps.other
    | dsimp -zeta only

end Sys2Proof.Machine
end

