-- ==== Sys2Proof/Laws/KeepsLinks.lean ====
section
/-! SUPPORT. The operations of Machine/Links.lean keep the queue, the order of times and the canonical form. -/

namespace Sys2Proof.Machine

theorem Keeps.transmit {s0 s : State} {n : Nat} {m : FMsg} (hk : Keeps s0 s)  : Keeps s0 (State.transmit s n m) := by
  unfold State.transmit
  repeat' first
    | with_reducible assumption
    | with_reducible apply Keeps.setPort
    | split
    | intro _
    | extract_lets
    | with_reducible apply Keeps.other
    | dsimp -zeta only

theorem Keeps.txLoop {s0 s : State} {n : Nat} {r0 : Nat} (hk : Keeps s0 s)  : Keeps s0 (State.txLoop n r0 s) := by
  induction r0 generalizing s with
  | zero =>
    rw [State.txLoop]
    repeat' first
      | with_reducible assumption
      | with_reducible apply Keeps.setPort
      | split
      | intro _
      | extract_lets
      | with_reducible apply Keeps.other
      | dsimp -zeta only
  | succ n ih =>
    rw [State.txLoop]
    repeat' first
      | with_reducible assumption
      | with_reducible apply Keeps.setPort
      | with_reducible apply ih
      | split
      | intro _
      | extract_lets
      | with_reducible apply Keeps.other
      | dsimp -zeta only

theorem Keeps.sendMsg {s0 s : State} {m : FMsg} (hk : Keeps s0 s)  : Keeps s0 (State.sendMsg s m) := by
  unfold State.sendMsg
  repeat' first
    | with_reducible assumption
    | with_reducible apply Keeps.transmit
    | split
    | intro _
    | extract_lets
    | with_reducible apply Keeps.other
    | dsimp -zeta only

theorem Keeps.request {s0 s : State} {dest : Nat} {op : Nat} {part : Nat} {offset : Nat} {payload : List Byte} {place : Option Nat} (hk : Keeps s0 s)  : Keeps s0 (State.request s dest op part offset payload place) := by
  unfold State.request
  repeat' first
    | with_reducible assumption
    | with_reducible apply Keeps.sendMsg
    | split
    | intro _
    | extract_lets
    | with_reducible apply Keeps.other
    | dsimp -zeta only

theorem Keeps.respond {s0 s : State} {n : Nat} {m : FMsg} {status : Nat} (hk : Keeps s0 s)  : Keeps s0 (State.respond s n m status) := by
  unfold State.respond
  repeat' first
    | with_reducible assumption
    | with_reducible apply Keeps.transmit
    | with_reducible apply Keeps.sendMsg
    | split
    | intro _
    | extract_lets
    | dsimp -zeta only

theorem Keeps.setChain {s0 s : State} {c : Chain} (hk : Keeps s0 s)  : Keeps s0 (State.setChain s c) := by
  unfold State.setChain
  repeat' first
    | with_reducible assumption
    | split
    | intro _
    | extract_lets
    | with_reducible apply Keeps.other
    | dsimp -zeta only

theorem Keeps.dropChain {s0 s : State} {op : Nat} (hk : Keeps s0 s)  : Keeps s0 (State.dropChain s op) := by
  unfold State.dropChain
  repeat' first
    | with_reducible assumption
    | split
    | intro _
    | extract_lets
    | with_reducible apply Keeps.other
    | dsimp -zeta only

theorem Keeps.readSlice {s0 s : State} {l : Nat} (hk : Keeps s0 s)  : Keeps s0 (State.readSlice s l) := by
  unfold State.readSlice
  repeat' first
    | with_reducible assumption
    | with_reducible apply Keeps.bump
    | with_reducible apply Keeps.setPlace
    | split
    | intro _
    | extract_lets
    | with_reducible apply Keeps.other
    | dsimp -zeta only

theorem Keeps.twinSolo {s0 s : State}  (hk : Keeps s0 s)  : Keeps s0 (State.twinSolo s) := by
  unfold State.twinSolo
  repeat' first
    | with_reducible assumption
    | with_reducible apply Keeps.wrReg
    | with_reducible apply Keeps.setFld
    | split
    | intro _
    | extract_lets
    | with_reducible apply Keeps.other
    | dsimp -zeta only

theorem Keeps.takeoverCheck {s0 s : State}  (hk : Keeps s0 s)  : Keeps s0 (State.takeoverCheck s) := by
  unfold State.takeoverCheck
  repeat' first
    | with_reducible assumption
    | with_reducible apply Keeps.twinSolo
    | split
    | intro _
    | extract_lets
    | dsimp -zeta only

theorem Keeps.jrnl {s0 s : State} {part : Nat} {rs : List JRec} (hk : Keeps s0 s)  : Keeps s0 (State.jrnl s part rs) := by
  unfold State.jrnl
  repeat' first
    | with_reducible assumption
    | with_reducible apply Keeps.request
    | split
    | intro _
    | extract_lets
    | with_reducible apply Keeps.other
    | dsimp -zeta only

theorem Keeps.postHeld {s0 s : State} {f : Nat} {r : Nat} {o : Out} (hk : Keeps s0 s)  : Keeps s0 (State.postHeld s f r o) := by
  unfold State.postHeld
  repeat' first
    | with_reducible assumption
    | with_reducible apply Keeps.post
    | split
    | intro _
    | extract_lets
    | with_reducible apply Keeps.other
    | dsimp -zeta only

theorem Keeps.replyHeld {s0 s : State} {before : State} {h : Hdr} {op : Nat} (hk : Keeps s0 s)  : Keeps s0 (State.replyHeld s before h op) := by
  unfold State.replyHeld
  repeat' first
    | with_reducible assumption
    | with_reducible apply Keeps.reply
    | with_reducible apply Keeps.postHeld
    | split
    | intro _
    | extract_lets
    | dsimp -zeta only

end Sys2Proof.Machine
end

