-- ==== Sys2Proof/Laws/KeepsKv.lean ====
section
/-! SUPPORT. The operations of Machine/Kv.lean keep the queue, the order of times and the canonical form. -/

namespace Sys2Proof.Machine

theorem Keeps.resNotify {s0 s : State} {p : Nat} {empty : Bool} (hk : Keeps s0 s)  : Keeps s0 (State.resNotify s p empty) := by
  unfold State.resNotify
  repeat' first
    | with_reducible assumption
    | with_reducible apply Keeps.setPart
    | with_reducible apply Keeps.raise
    | split
    | intro _
    | extract_lets
    | with_reducible apply Keeps.other
    | dsimp -zeta only

theorem Keeps.resRearm {s0 s : State} {p : Nat} (hk : Keeps s0 s)  : Keeps s0 (State.resRearm s p) := by
  unfold State.resRearm
  repeat' first
    | with_reducible assumption
    | with_reducible apply Keeps.setPart
    | split
    | intro _
    | extract_lets
    | with_reducible apply Keeps.other
    | dsimp -zeta only

theorem Keeps.popLoop {s0 s : State} {p : Nat} {F : Nat} {r0 : Nat} (hk : Keeps s0 s)  : Keeps s0 (State.popLoop p F r0 s).1 := by
  induction r0 generalizing s with
  | zero =>
    rw [State.popLoop]
    repeat' first
      | with_reducible assumption
      | with_reducible apply Keeps.setFld
      | with_reducible apply Keeps.bump
      | with_reducible apply Keeps.violate
      | with_reducible apply Keeps.resNotify
      | split
      | intro _
      | extract_lets
      | dsimp -zeta only
  | succ n ih =>
    rw [State.popLoop]
    repeat' first
      | with_reducible assumption
      | with_reducible apply Keeps.setFld
      | with_reducible apply Keeps.bump
      | with_reducible apply Keeps.violate
      | with_reducible apply Keeps.resNotify
      | with_reducible apply ih
      | split
      | intro _
      | extract_lets
      | dsimp -zeta only

theorem Keeps.pop {s0 s : State} {p : Nat} {F : Nat} {q : Nat} (hk : Keeps s0 s)  : Keeps s0 (State.pop s p F q).1 := by
  unfold State.pop
  repeat' first
    | with_reducible assumption
    | with_reducible apply Keeps.setPart
    | with_reducible apply Keeps.popLoop
    | split
    | intro _
    | extract_lets
    | (with_reducible apply Keeps.fst_of_eq; with_reducible assumption)
    | with_reducible apply Keeps.foldlFst
    | with_reducible apply Keeps.other
    | dsimp -zeta only

theorem Keeps.popPages {s0 s : State} {p : Nat} {fl : Nat} {q : Nat} {r0 : List Nat} (hk : Keeps s0 s)  : Keeps s0 (State.popPages p fl q r0 s).1 := by
  induction r0 generalizing s with
  | nil =>
    rw [State.popPages]
    repeat' first
      | with_reducible assumption
      | with_reducible apply Keeps.violate
      | with_reducible apply Keeps.mapFrame
      | with_reducible apply Keeps.pop
      | split
      | intro _
      | extract_lets
      | (with_reducible apply Keeps.fst_of_eq; with_reducible assumption)
      | with_reducible apply Keeps.foldlFst
      | with_reducible apply Keeps.other
      | dsimp -zeta only
  | cons a t ih =>
    rw [State.popPages]
    repeat' first
      | with_reducible assumption
      | with_reducible apply Keeps.violate
      | with_reducible apply Keeps.mapFrame
      | with_reducible apply Keeps.pop
      | with_reducible apply ih
      | split
      | intro _
      | extract_lets
      | (with_reducible apply Keeps.fst_of_eq; with_reducible assumption)
      | with_reducible apply Keeps.foldlFst
      | with_reducible apply Keeps.other
      | dsimp -zeta only

theorem Keeps.popFor {s0 s : State} {c : Ctx} {pages : List Nat} (hk : Keeps s0 s)  : Keeps s0 (State.popFor s c pages).1 := by
  unfold State.popFor
  repeat' first
    | with_reducible assumption
    | with_reducible apply Keeps.asOf
    | with_reducible apply Keeps.backFrom
    | with_reducible apply Keeps.popPages
    | split
    | intro _
    | extract_lets
    | (with_reducible apply Keeps.fst_of_eq; with_reducible assumption)
    | with_reducible apply Keeps.foldlFst
    | dsimp -zeta only

theorem Keeps.freeOne {s0 s : State} {p : Nat} {x : Nat × Nat} (hk : Keeps s0 s)  : Keeps s0 (State.freeOne s p x) := by
  unfold State.freeOne
  repeat' first
    | with_reducible assumption
    | with_reducible apply Keeps.setFld
    | with_reducible apply Keeps.violate
    | with_reducible apply Keeps.wrMem
    | split
    | intro _
    | extract_lets
    | dsimp -zeta only

theorem Keeps.drainFree {s0 s : State} {p : Nat} (hk : Keeps s0 s)  : Keeps s0 (State.drainFree s p) := by
  unfold State.drainFree
  repeat' first
    | with_reducible assumption
    | with_reducible apply Keeps.setPart
    | with_reducible apply Keeps.each
    | with_reducible apply Keeps.freeOne
    | split
    | intro _
    | extract_lets
    | with_reducible apply Keeps.other
    | dsimp -zeta only

theorem Keeps.giveBack {s0 s : State} {p : Nat} {reason : Nat} {fs : List Nat} (hk : Keeps s0 s)  : Keeps s0 (State.giveBack s p reason fs) := by
  unfold State.giveBack
  repeat' first
    | with_reducible assumption
    | with_reducible apply Keeps.bump
    | with_reducible apply Keeps.setPart
    | with_reducible apply Keeps.drainFree
    | split
    | intro _
    | extract_lets
    | with_reducible apply Keeps.other
    | dsimp -zeta only

theorem Keeps.freeFrames {s0 s : State} {c : Ctx} {reason : Nat} (hk : Keeps s0 s)  : Keeps s0 (State.freeFrames s c reason) := by
  unfold State.freeFrames
  repeat' first
    | with_reducible assumption
    | with_reducible apply Keeps.each
    | with_reducible apply Keeps.under
    | with_reducible apply Keeps.unmapFrame
    | with_reducible apply Keeps.giveBack
    | split
    | intro _
    | extract_lets
    | dsimp -zeta only

theorem Keeps.poolFill {s0 s : State} {p : Nat} {F : Nat} {q : Nat} {r0 : Nat} (hk : Keeps s0 s)  : Keeps s0 (State.poolFill p F q r0 s) := by
  induction r0 generalizing s with
  | zero =>
    rw [State.poolFill]
    repeat' first
      | with_reducible assumption
      | with_reducible apply Keeps.setPart
      | with_reducible apply Keeps.pop
      | split
      | intro _
      | extract_lets
      | (with_reducible apply Keeps.fst_of_eq; with_reducible assumption)
      | with_reducible apply Keeps.foldlFst
      | with_reducible apply Keeps.other
      | dsimp -zeta only
  | succ n ih =>
    rw [State.poolFill]
    repeat' first
      | with_reducible assumption
      | with_reducible apply Keeps.setPart
      | with_reducible apply Keeps.pop
      | with_reducible apply ih
      | split
      | intro _
      | extract_lets
      | (with_reducible apply Keeps.fst_of_eq; with_reducible assumption)
      | with_reducible apply Keeps.foldlFst
      | with_reducible apply Keeps.other
      | dsimp -zeta only

theorem Keeps.poolCairn {s0 s : State} {p : Nat} {q : Nat} (hk : Keeps s0 s)  : Keeps s0 (State.poolCairn s p q) := by
  unfold State.poolCairn
  repeat' first
    | with_reducible assumption
    | with_reducible apply Keeps.setPart
    | with_reducible apply Keeps.giveBack
    | with_reducible apply Keeps.poolFill
    | split
    | intro _
    | extract_lets
    | with_reducible apply Keeps.other
    | dsimp -zeta only

theorem tsorted_foldl_tins {α β : Type} {xs : List β} {k : β → Nat} {v : β → α} {t : Tbl α} (h : tsorted t = true) :
    tsorted (xs.foldl (fun m x => tins (k x) (v x) m) t) = true := by
  induction xs generalizing t with
  | nil => exact h
  | cons x xs ih => exact ih (tsorted_tins h)

theorem Keeps.wrHost {s0 s : State} {key a : Nat} {bs : List Byte} (hk : Keeps s0 s) : Keeps s0 (s.wrHost key a bs) :=
  hk.setHost tsorted_foldl_tins

theorem Keeps.freeExtents {s0 s : State} {p : Nat} {first : Nat} (hk : Keeps s0 s)  : Keeps s0 (State.freeExtents s p first) := by
  unfold State.freeExtents
  repeat' first
    | with_reducible assumption
    | with_reducible apply Keeps.setPart
    | split
    | intro _
    | extract_lets
    | with_reducible apply Keeps.other
    | dsimp -zeta only

theorem Keeps.startPark {s0 s : State} {i : Nat} {reply : Option (Hdr × Nat)} (hk : Keeps s0 s)  : Keeps s0 (State.startPark s i reply).1 := by
  unfold State.startPark
  repeat' first
    | with_reducible assumption
    | with_reducible apply Keeps.bump
    | with_reducible apply Keeps.setAux
    | with_reducible apply Keeps.setPart
    | with_reducible apply Keeps.reply
    | split
    | intro _
    | extract_lets
    | with_reducible apply Keeps.other
    | dsimp -zeta only

theorem Keeps.cancelPark {s0 s : State} {i : Nat} (hk : Keeps s0 s)  : Keeps s0 (State.cancelPark s i) := by
  unfold State.cancelPark
  repeat' first
    | with_reducible assumption
    | with_reducible apply Keeps.setAux
    | with_reducible apply Keeps.reply
    | with_reducible apply Keeps.freeExtents
    | split
    | intro _
    | extract_lets
    | with_reducible apply Keeps.other
    | dsimp -zeta only

theorem Keeps.writePark {s0 s : State} {i : Nat} {m : Move} (hk : Keeps s0 s)  : Keeps s0 (State.writePark s i m) := by
  unfold State.writePark
  repeat' first
    | with_reducible assumption
    | with_reducible apply Keeps.foldl
    | with_reducible apply Keeps.violate
    | with_reducible apply Keeps.wrHost
    | split
    | intro _
    | extract_lets
    | (with_reducible apply Keeps.fst_of_eq; with_reducible assumption)
    | with_reducible apply Keeps.foldlFst
    | with_reducible apply Keeps.other
    | dsimp -zeta only

theorem Keeps.readPark {s0 s : State} {i : Nat} {m : Move} (hk : Keeps s0 s)  : Keeps s0 (State.readPark s i m) := by
  unfold State.readPark
  repeat' first
    | with_reducible assumption
    | with_reducible apply Keeps.foldl
    | with_reducible apply Keeps.violate
    | split
    | intro _
    | extract_lets
    | (with_reducible apply Keeps.wrVa_eq; with_reducible assumption)
    | (with_reducible apply Keeps.fst_of_eq; with_reducible assumption)
    | with_reducible apply Keeps.foldlFst
    | with_reducible apply Keeps.other
    | dsimp -zeta only

end Sys2Proof.Machine
end

