-- ==== Sys2Proof/Laws/KeepsContexts.lean ====
section
/-! SUPPORT. The operations of Machine/Contexts.lean keep the queue, the order of times and the canonical form. -/

namespace Sys2Proof.Machine

theorem Keeps.writeBack {s0 s : State} {i : Nat} (hk : Keeps s0 s)  : Keeps s0 (State.writeBack s i) := by
  unfold State.writeBack
  repeat' first
    | with_reducible assumption
    | with_reducible apply Keeps.setAux
    | with_reducible apply Keeps.wrMem
    | split
    | intro _
    | extract_lets
    | with_reducible apply Keeps.other
    | dsimp -zeta only

theorem Keeps.touch {s0 s : State} {i : Nat} (hk : Keeps s0 s)  : Keeps s0 (State.touch s i) := by
  unfold State.touch
  repeat' first
    | with_reducible assumption
    | with_reducible apply Keeps.setAux
    | with_reducible apply Keeps.writeBack
    | split
    | intro _
    | extract_lets
    | with_reducible apply Keeps.other
    | dsimp -zeta only

theorem Keeps.editCtx {s0 s : State} {i : Nat} {c : Ctx} (hk : Keeps s0 s)  : Keeps s0 (State.editCtx s i c) := by
  unfold State.editCtx
  repeat' first
    | with_reducible assumption
    | with_reducible apply Keeps.setCtx
    | with_reducible apply Keeps.touch
    | split
    | intro _
    | extract_lets
    | dsimp -zeta only

theorem Keeps.jrnlCtx {s0 s : State} {i : Nat} {rs : List JRec} (hk : Keeps s0 s)  : Keeps s0 (State.jrnlCtx s i rs) := by
  unfold State.jrnlCtx
  repeat' first
    | with_reducible assumption
    | with_reducible apply Keeps.jrnl
    | split
    | intro _
    | extract_lets
    | with_reducible apply Keeps.other
    | dsimp -zeta only

theorem Keeps.putCtx {s0 s : State} {i : Nat} {c : Ctx} (hk : Keeps s0 s)  : Keeps s0 (State.putCtx s i c) := by
  unfold State.putCtx
  repeat' first
    | with_reducible assumption
    | with_reducible apply Keeps.setCtx
    | with_reducible apply Keeps.touch
    | with_reducible apply Keeps.jrnlCtx
    | split
    | intro _
    | extract_lets
    | with_reducible apply Keeps.other
    | dsimp -zeta only

theorem Keeps.freshReady {s0 s : State} {i : Nat} {was : Bool} (hk : Keeps s0 s)  : Keeps s0 (State.freshReady s i was) := by
  unfold State.freshReady
  repeat' first
    | with_reducible assumption
    | with_reducible apply Keeps.editCtx
    | split
    | intro _
    | extract_lets
    | with_reducible apply Keeps.other
    | dsimp -zeta only

theorem Keeps.pauseCtx {s0 s : State} {i : Nat} (hk : Keeps s0 s)  : Keeps s0 (State.pauseCtx s i) := by
  unfold State.pauseCtx
  repeat' first
    | with_reducible assumption
    | with_reducible apply Keeps.putCtx
    | split
    | intro _
    | extract_lets
    | with_reducible apply Keeps.other
    | dsimp -zeta only

theorem Keeps.poolBack {s0 s : State} {p : Nat} {fs : List Nat} (hk : Keeps s0 s)  : Keeps s0 (State.poolBack s p fs) := by
  unfold State.poolBack
  repeat' first
    | with_reducible assumption
    | with_reducible apply Keeps.setPart
    | split
    | intro _
    | extract_lets
    | with_reducible apply Keeps.other
    | dsimp -zeta only

theorem Keeps.completeAt {s0 s : State} {i : Nat} {status : Nat} {pos : Nat} (hk : Keeps s0 s)  : Keeps s0 (State.completeAt s i status pos) := by
  unfold State.completeAt
  repeat' first
    | with_reducible assumption
    | with_reducible apply Keeps.post
    | split
    | intro _
    | extract_lets
    | dsimp -zeta only

theorem Keeps.complete {s0 s : State} {i : Nat} {status : Nat} (hk : Keeps s0 s)  : Keeps s0 (State.complete s i status) := by
  unfold State.complete
  repeat' first
    | with_reducible assumption
    | with_reducible apply Keeps.useFree
    | with_reducible apply Keeps.completeAt
    | split
    | intro _
    | extract_lets
    | dsimp -zeta only

theorem Keeps.redoFinish {s0 s : State} {i : Nat} (hk : Keeps s0 s)  : Keeps s0 (State.redoFinish s i) := by
  unfold State.redoFinish
  repeat' first
    | with_reducible assumption
    | with_reducible apply Keeps.setAux
    | with_reducible apply Keeps.post
    | with_reducible apply Keeps.takeoverCheck
    | with_reducible apply Keeps.pauseCtx
    | split
    | intro _
    | extract_lets
    | with_reducible apply Keeps.other
    | dsimp -zeta only

theorem Keeps.takeToken {s0 s : State} {i : Nat} (hk : Keeps s0 s)  : Keeps s0 (State.takeToken s i) := by
  unfold State.takeToken
  repeat' first
    | with_reducible assumption
    | with_reducible apply Keeps.putCtx
    | split
    | intro _
    | extract_lets
    | with_reducible apply Keeps.other
    | dsimp -zeta only

theorem Keeps.starve {s0 s : State} {i : Nat} {left : List Nat} (hk : Keeps s0 s)  : Keeps s0 (State.starve s i left) := by
  unfold State.starve
  repeat' first
    | with_reducible assumption
    | with_reducible apply Keeps.bump
    | with_reducible apply Keeps.setAux
    | with_reducible apply Keeps.putCtx
    | split
    | intro _
    | extract_lets
    | with_reducible apply Keeps.other
    | dsimp -zeta only

theorem Keeps.noTable {s0 s : State} {i : Nat} (hk : Keeps s0 s)  : Keeps s0 (State.noTable s i) := by
  unfold State.noTable
  repeat' first
    | with_reducible assumption
    | with_reducible apply Keeps.setAux
    | with_reducible apply Keeps.putCtx
    | split
    | intro _
    | extract_lets
    | with_reducible apply Keeps.other
    | dsimp -zeta only

theorem Keeps.restoreFilled {s0 s : State} {i : Nat} (hk : Keeps s0 s)  : Keeps s0 (State.restoreFilled s i) := by
  unfold State.restoreFilled
  repeat' first
    | with_reducible assumption
    | with_reducible apply Keeps.setAux
    | split
    | intro _
    | extract_lets
    | with_reducible apply Keeps.other
    | dsimp -zeta only

theorem Keeps.writeKept {s0 s : State} {i : Nat} (hk : Keeps s0 s)  : Keeps s0 (State.writeKept s i) := by
  unfold State.writeKept
  repeat' first
    | with_reducible assumption
    | with_reducible apply Keeps.setAux
    | with_reducible apply Keeps.each
    | with_reducible apply Keeps.violate
    | with_reducible apply Keeps.under
    | split
    | intro _
    | extract_lets
    | (with_reducible apply Keeps.wrVa_eq; with_reducible assumption)
    | with_reducible apply Keeps.other
    | dsimp -zeta only

theorem Keeps.retryStarved {s0 s : State} {p : Nat} (hk : Keeps s0 s)  : Keeps s0 (State.retryStarved s p) := by
  unfold State.retryStarved
  repeat' first
    | with_reducible assumption
    | with_reducible apply Keeps.setAux
    | with_reducible apply Keeps.each
    | with_reducible apply Keeps.popFor
    | with_reducible apply Keeps.putCtx
    | with_reducible apply Keeps.complete
    | with_reducible apply Keeps.starve
    | with_reducible apply Keeps.noTable
    | with_reducible apply Keeps.restoreFilled
    | with_reducible apply Keeps.writeKept
    | split
    | intro _
    | extract_lets
    | (with_reducible apply Keeps.fst_of_eq; with_reducible assumption)
    | with_reducible apply Keeps.foldlFst
    | with_reducible apply Keeps.other
    | dsimp -zeta only

theorem Keeps.dropRetWait {s0 s : State} {p : Nat} {i : Nat} (hk : Keeps s0 s)  : Keeps s0 (State.dropRetWait s p i) := by
  unfold State.dropRetWait
  repeat' first
    | with_reducible assumption
    | with_reducible apply Keeps.setPart
    | split
    | intro _
    | extract_lets
    | with_reducible apply Keeps.other
    | dsimp -zeta only

theorem Keeps.closeCtx {s0 s : State} {i : Nat} {reason : Nat} (hk : Keeps s0 s)  : Keeps s0 (State.closeCtx s i reason) := by
  unfold State.closeCtx
  repeat' first
    | with_reducible assumption
    | with_reducible apply Keeps.setAux
    | with_reducible apply Keeps.takeoverCheck
    | with_reducible apply Keeps.freeFrames
    | with_reducible apply Keeps.freeExtents
    | with_reducible apply Keeps.cancelPark
    | with_reducible apply Keeps.editCtx
    | with_reducible apply Keeps.jrnlCtx
    | with_reducible apply Keeps.dropRetWait
    | split
    | intro _
    | extract_lets
    | with_reducible apply Keeps.other
    | dsimp -zeta only

theorem Keeps.parkEnds {s0 s : State} {i : Nat} (hk : Keeps s0 s)  : Keeps s0 (State.parkEnds s i) := by
  unfold State.parkEnds
  repeat' first
    | with_reducible assumption
    | with_reducible apply Keeps.setAux
    | with_reducible apply Keeps.reply
    | with_reducible apply Keeps.putCtx
    | split
    | intro _
    | extract_lets
    | with_reducible apply Keeps.other
    | dsimp -zeta only

theorem Keeps.returnsDone {s0 s : State} {p : Nat} (hk : Keeps s0 s)  : Keeps s0 (State.returnsDone s p) := by
  unfold State.returnsDone
  repeat' first
    | with_reducible assumption
    | with_reducible apply Keeps.each
    | with_reducible apply Keeps.dropRetWait
    | with_reducible apply Keeps.parkEnds
    | split
    | intro _
    | extract_lets
    | dsimp -zeta only

theorem Keeps.freeRun {s0 s : State} {p : Nat} (hk : Keeps s0 s)  : Keeps s0 (State.freeRun s p) := by
  unfold State.freeRun
  repeat' first
    | with_reducible assumption
    | with_reducible apply Keeps.drainFree
    | with_reducible apply Keeps.returnsDone
    | split
    | intro _
    | extract_lets
    | dsimp -zeta only

theorem Keeps.doOpen {s0 s : State} {h : Hdr} {o : OpenParams} (hk : Keeps s0 s)  : Keeps s0 (State.doOpen s h o) := by
  unfold State.doOpen
  repeat' first
    | with_reducible assumption
    | with_reducible apply Keeps.setAux
    | with_reducible apply Keeps.jrnl
    | with_reducible apply Keeps.editCtx
    | split
    | intro _
    | extract_lets
    | with_reducible apply Keeps.other
    | dsimp -zeta only

theorem Keeps.applyOp {s0 s : State} {i : Nat} {op : HeldOp} (hk : Keeps s0 s)  : Keeps s0 (State.applyOp s i op) := by
  unfold State.applyOp
  repeat' first
    | with_reducible assumption
    | with_reducible apply Keeps.setAux
    | with_reducible apply Keeps.reply
    | with_reducible apply Keeps.startPark
    | with_reducible apply Keeps.putCtx
    | with_reducible apply Keeps.closeCtx
    | with_reducible apply Keeps.doOpen
    | split
    | intro _
    | extract_lets
    | (with_reducible apply Keeps.fst_of_eq; with_reducible assumption)
    | with_reducible apply Keeps.foldlFst
    | with_reducible apply Keeps.other
    | dsimp -zeta only

theorem Keeps.actOn {s0 s : State} {i : Nat} {op : HeldOp} (hk : Keeps s0 s)  : Keeps s0 (State.actOn s i op) := by
  unfold State.actOn
  repeat' first
    | with_reducible assumption
    | with_reducible apply Keeps.setCtx
    | with_reducible apply Keeps.applyOp
    | split
    | intro _
    | extract_lets
    | with_reducible apply Keeps.other
    | dsimp -zeta only

theorem Keeps.applyHeld {s0 s : State} {i : Nat} (hk : Keeps s0 s)  : Keeps s0 (State.applyHeld s i) := by
  unfold State.applyHeld
  repeat' first
    | with_reducible assumption
    | with_reducible apply Keeps.setCtx
    | with_reducible apply Keeps.each
    | with_reducible apply Keeps.applyOp
    | split
    | intro _
    | extract_lets
    | with_reducible apply Keeps.other
    | dsimp -zeta only

theorem Keeps.startRestore {s0 s : State} {i : Nat} {op : Option HeldOp} {reply : Option (Hdr × Nat)} (hk : Keeps s0 s)  : Keeps s0 (State.startRestore s i op reply).1 := by
  unfold State.startRestore
  repeat' first
    | with_reducible assumption
    | with_reducible apply Keeps.setAux
    | with_reducible apply Keeps.reply
    | with_reducible apply Keeps.popFor
    | with_reducible apply Keeps.complete
    | with_reducible apply Keeps.starve
    | with_reducible apply Keeps.noTable
    | with_reducible apply Keeps.restoreFilled
    | split
    | intro _
    | extract_lets
    | (with_reducible apply Keeps.fst_of_eq; with_reducible assumption)
    | with_reducible apply Keeps.foldlFst
    | with_reducible apply Keeps.other
    | dsimp -zeta only

end Sys2Proof.Machine
end

