-- ==== Sys2Proof/Laws/KeepsSessions.lean ====
section
/-! SUPPORT. The operations of Machine/Sessions.lean keep the queue, the order of times and the canonical form. -/

namespace Sys2Proof.Machine

theorem Keeps.stopPark {s0 s : State} {i : Nat} (hk : Keeps s0 s)  : Keeps s0 (State.stopPark s i) := by
  unfold State.stopPark
  repeat' first
    | with_reducible assumption
    | with_reducible apply Keeps.cancelPark
    | with_reducible apply Keeps.dropRetWait
    | with_reducible apply Keeps.parkEnds
    | split
    | intro _
    | extract_lets
    | dsimp -zeta only

theorem Keeps.wake {s0 s : State} {i : Nat} {op : HeldOp} (hk : Keeps s0 s)  : Keeps s0 (State.wake s i op) := by
  unfold State.wake
  repeat' first
    | with_reducible assumption
    | with_reducible apply Keeps.actOn
    | with_reducible apply Keeps.startRestore
    | with_reducible apply Keeps.stopPark
    | split
    | intro _
    | extract_lets
    | (with_reducible apply Keeps.fst_of_eq; with_reducible assumption)
    | with_reducible apply Keeps.foldlFst
    | dsimp -zeta only

theorem Keeps.cairnReplies {s0 s : State}  (hk : Keeps s0 s)  : Keeps s0 (State.cairnReplies s) := by
  unfold State.cairnReplies
  repeat' first
    | with_reducible assumption
    | with_reducible apply Keeps.setPair
    | with_reducible apply Keeps.each
    | with_reducible apply Keeps.reply
    | split
    | intro _
    | extract_lets
    | with_reducible apply Keeps.other
    | dsimp -zeta only

theorem Keeps.mapCairns {s0 s : State} {f : CairnWait → CairnWait} (hk : Keeps s0 s)  : Keeps s0 (State.mapCairns s f) := by
  unfold State.mapCairns
  repeat' first
    | with_reducible assumption
    | split
    | intro _
    | extract_lets
    | (with_reducible apply Keeps.fst_of_eq; with_reducible assumption)
    | with_reducible apply Keeps.foldlFst
    | with_reducible apply Keeps.other
    | with_reducible apply Keeps.mapPairTbl
    | rfl
    | dsimp -zeta only

theorem Keeps.cairnServed {s0 s : State}  (hk : Keeps s0 s)  : Keeps s0 (State.cairnServed s) := by
  unfold State.cairnServed
  repeat' first
    | with_reducible assumption
    | with_reducible apply Keeps.cairnReplies
    | with_reducible apply Keeps.mapCairns
    | split
    | intro _
    | extract_lets
    | with_reducible apply Keeps.other
    | dsimp -zeta only

end Sys2Proof.Machine
end

