-- ==== Sys2Proof/Laws/KeepsSampling.lean ====
section
/-! SUPPORT. The operations of Machine/Sampling.lean keep the queue, the order of times and the canonical form. -/

namespace Sys2Proof.Machine

theorem Keeps.setSlot {s0 s : State} {l : Nat} {x : Slot} (hk : Keeps s0 s)  : Keeps s0 (State.setSlot s l x) := by
  unfold State.setSlot
  repeat' first
    | with_reducible assumption
    | with_reducible apply Keeps.setPlace
    | split
    | intro _
    | extract_lets
    | with_reducible apply Keeps.other
    | dsimp -zeta only

theorem Keeps.sampleSlot {s0 s : State} {l : Nat} {x : Slot} {logits : List (List BF16)} (hk : Keeps s0 s)  : Keeps s0 (State.sampleSlot s l x logits) := by
  unfold State.sampleSlot
  repeat' first
    | with_reducible assumption
    | with_reducible apply Keeps.bumpBy
    | with_reducible apply Keeps.bump
    | with_reducible apply Keeps.violate
    | with_reducible apply Keeps.setSlot
    | split
    | intro _
    | extract_lets
    | with_reducible apply Keeps.other
    | dsimp -zeta only

end Sys2Proof.Machine
end

