-- ==== Sys2Proof/Laws/KeepsOptics.lean ====
section
/-! SUPPORT. The operations of Machine/Optics.lean keep the queue, the order of times and the canonical form. -/

namespace Sys2Proof.Machine

theorem Keeps.setFb {s0 s : State} {t : Nat} {cause : Nat} (hk : Keeps s0 s)  : Keeps s0 (State.setFb s t cause) := by
  unfold State.setFb
  repeat' first
    | with_reducible assumption
    | with_reducible apply Keeps.setFld
    | with_reducible apply Keeps.setFlag
    | split
    | intro _
    | extract_lets
    | dsimp -zeta only

theorem Keeps.countMisses {s0 s : State} {tiles : List Nat} (hk : Keeps s0 s)  : Keeps s0 (State.countMisses s tiles) := by
  unfold State.countMisses
  repeat' first
    | with_reducible assumption
    | with_reducible apply Keeps.setLaser
    | with_reducible apply Keeps.each
    | split
    | intro _
    | extract_lets
    | with_reducible apply Keeps.other
    | dsimp -zeta only

theorem Keeps.calHoldOne {s0 s : State} {o : CalObj} (hk : Keeps s0 s)  : Keeps s0 (State.calHoldOne s o) := by
  unfold State.calHoldOne
  repeat' first
    | with_reducible assumption
    | split
    | intro _
    | extract_lets
    | with_reducible apply Keeps.other
    | dsimp -zeta only

theorem Keeps.calHold {s0 s : State} {o : CalObj} (hk : Keeps s0 s)  : Keeps s0 (State.calHold s o) := by
  unfold State.calHold
  repeat' first
    | with_reducible assumption
    | with_reducible apply Keeps.each
    | with_reducible apply Keeps.calHoldOne
    | split
    | intro _
    | extract_lets
    | dsimp -zeta only

theorem Keeps.calEnds {s0 s : State} {o : CalObj} (hk : Keeps s0 s)  : Keeps s0 (State.calEnds s o) := by
  unfold State.calEnds
  repeat' first
    | with_reducible assumption
    | with_reducible apply Keeps.each
    | with_reducible apply Keeps.setLong
    | with_reducible apply Keeps.endLong
    | with_reducible apply Keeps.advanceLong
    | split
    | intro _
    | extract_lets
    | with_reducible apply Keeps.other
    | dsimp -zeta only

theorem Keeps.abandonRuns {s0 s : State} {mine : CalObj → Bool} {again : Bool} (hk : Keeps s0 s)  : Keeps s0 (State.abandonRuns s mine again) := by
  unfold State.abandonRuns
  repeat' first
    | with_reducible assumption
    | with_reducible apply Keeps.each
    | with_reducible apply Keeps.calHold
    | with_reducible apply Keeps.calEnds
    | split
    | intro _
    | extract_lets
    | with_reducible apply Keeps.other
    | dsimp -zeta only

theorem Keeps.keepCoefs {s0 s : State} {i : Nat} {arrs : List Nat} {restart : Bool} (hk : Keeps s0 s)  : Keeps s0 (State.keepCoefs s i arrs restart) := by
  unfold State.keepCoefs
  repeat' first
    | with_reducible assumption
    | with_reducible apply Keeps.setPlace
    | with_reducible apply Keeps.foldl
    | with_reducible apply Keeps.each
    | split
    | intro _
    | extract_lets
    | with_reducible apply Keeps.other
    | dsimp -zeta only

theorem Keeps.applyTile {s0 s : State} {i : Nat} {k : Nat} {r : Ramp} (hk : Keeps s0 s)  : Keeps s0 (State.applyTile s i k r) := by
  unfold State.applyTile
  repeat' first
    | with_reducible assumption
    | with_reducible apply Keeps.setPhy
    | with_reducible apply Keeps.foldl
    | with_reducible apply Keeps.keepCoefs
    | split
    | intro _
    | extract_lets
    | with_reducible apply Keeps.other
    | dsimp -zeta only

theorem Keeps.applyCluster {s0 s : State} {c : Nat} {k : Nat} {r : Ramp} (hk : Keeps s0 s)  : Keeps s0 (State.applyCluster s c k r) := by
  unfold State.applyCluster
  repeat' first
    | with_reducible assumption
    | with_reducible apply Keeps.setPhy
    | with_reducible apply Keeps.setRing
    | with_reducible apply Keeps.foldl
    | with_reducible apply Keeps.each
    | split
    | intro _
    | extract_lets
    | with_reducible apply Keeps.other
    | dsimp -zeta only

theorem Keeps.applyAt {s0 s : State} {k : Nat} {r : Ramp} (hk : Keeps s0 s)  : Keeps s0 (State.applyAt s k r) := by
  unfold State.applyAt
  repeat' first
    | with_reducible assumption
    | with_reducible apply Keeps.applyTile
    | with_reducible apply Keeps.applyCluster
    | split
    | intro _
    | extract_lets
    | with_reducible apply Keeps.other
    | dsimp -zeta only

theorem Keeps.takeCells {s0 s : State} {i : Nat} {stuck : List (Nat × Nat × Nat × Int)} (hk : Keeps s0 s)  : Keeps s0 (State.takeCells s i stuck) := by
  unfold State.takeCells
  repeat' first
    | with_reducible assumption
    | with_reducible apply Keeps.setPhy
    | with_reducible apply Keeps.foldl
    | split
    | intro _
    | extract_lets
    | with_reducible apply Keeps.other
    | dsimp -zeta only

theorem Keeps.rampStep {s0 s : State} {r : Ramp} (hk : Keeps s0 s)  : Keeps s0 (State.rampStep s r) := by
  unfold State.rampStep
  repeat' first
    | with_reducible assumption
    | with_reducible apply Keeps.applyAt
    | split
    | intro _
    | extract_lets
    | with_reducible apply Keeps.other
    | dsimp -zeta only

theorem Keeps.rampAll {s0 s : State} {o : CalObj} {res : CalResult} (hk : Keeps s0 s)  : Keeps s0 (State.rampAll s o res) := by
  unfold State.rampAll
  repeat' first
    | with_reducible assumption
    | with_reducible apply Keeps.applyAt
    | split
    | intro _
    | extract_lets
    | with_reducible apply Keeps.other
    | dsimp -zeta only

theorem Keeps.putSet {s0 s : State} {o : CalObj} {b : Nat} {r : CalResult} (hk : Keeps s0 s)  : Keeps s0 (State.putSet s o b r) := by
  unfold State.putSet
  repeat' first
    | with_reducible assumption
    | split
    | intro _
    | extract_lets
    | with_reducible apply Keeps.other
    | dsimp -zeta only

theorem Keeps.switchBand {s0 s : State} {o : CalObj} (hk : Keeps s0 s)  : Keeps s0 (State.switchBand s o) := by
  unfold State.switchBand
  repeat' first
    | with_reducible assumption
    | with_reducible apply Keeps.applyAt
    | with_reducible apply Keeps.putSet
    | split
    | intro _
    | extract_lets
    | with_reducible apply Keeps.other
    | dsimp -zeta only

theorem Keeps.noteFlash {s0 s : State} {o : CalObj} (hk : Keeps s0 s)  : Keeps s0 (State.noteFlash s o) := by
  unfold State.noteFlash
  repeat' first
    | with_reducible assumption
    | split
    | intro _
    | extract_lets
    | with_reducible apply Keeps.other
    | dsimp -zeta only

theorem Keeps.rampCairn {s0 s : State} {tiles : List Nat} (hk : Keeps s0 s)  : Keeps s0 (State.rampCairn s tiles) := by
  unfold State.rampCairn
  repeat' first
    | with_reducible assumption
    | with_reducible apply Keeps.each
    | with_reducible apply Keeps.takeCells
    | with_reducible apply Keeps.rampStep
    | with_reducible apply Keeps.switchBand
    | split
    | intro _
    | extract_lets
    | with_reducible apply Keeps.other
    | dsimp -zeta only

end Sys2Proof.Machine
end

