-- ==== Sys2Proof/Laws/KeepsStage.lean ====
section
/-! SUPPORT. The operations of Machine/Stage.lean keep the queue, the order of times and the canonical form. -/

namespace Sys2Proof.Machine

theorem Keeps.putCopy {s0 s : State} {t : Nat} {c : ShareCopy} (hk : Keeps s0 s)  : Keeps s0 (State.putCopy s t c) := by
  unfold State.putCopy
  repeat' first
    | with_reducible assumption
    | with_reducible apply Keeps.setTile
    | split
    | intro _
    | extract_lets
    | with_reducible apply Keeps.other
    | dsimp -zeta only

theorem Keeps.dropCopies {s0 s : State} {t : Nat} {l : Nat} {keep : Nat} (hk : Keeps s0 s)  : Keeps s0 (State.dropCopies s t l keep) := by
  unfold State.dropCopies
  repeat' first
    | with_reducible assumption
    | with_reducible apply Keeps.setTile
    | split
    | intro _
    | extract_lets
    | with_reducible apply Keeps.other
    | dsimp -zeta only

theorem Keeps.stageLayer {s0 s : State} {im : Image} {l : Nat} {t : Nat} {i : Nat} {layer : Nat} {gen : Nat} (hk : Keeps s0 s)  : Keeps s0 (State.stageLayer s im l t i layer gen) := by
  unfold State.stageLayer
  repeat' first
    | with_reducible assumption
    | with_reducible apply Keeps.each
    | with_reducible apply Keeps.violate
    | with_reducible apply Keeps.putCopy
    | split
    | intro _
    | extract_lets
    | with_reducible apply Keeps.other
    | dsimp -zeta only

theorem Keeps.stageTile {s0 s : State} {l : Nat} {t : Nat} {i : Nat} (hk : Keeps s0 s)  : Keeps s0 (State.stageTile s l t i) := by
  unfold State.stageTile
  repeat' first
    | with_reducible assumption
    | with_reducible apply Keeps.each
    | with_reducible apply Keeps.stageLayer
    | split
    | intro _
    | extract_lets
    | dsimp -zeta only

theorem Keeps.stageAll {s0 s : State} {l : Nat} (hk : Keeps s0 s)  : Keeps s0 (State.stageAll s l) := by
  unfold State.stageAll
  repeat' first
    | with_reducible assumption
    | with_reducible apply Keeps.each
    | with_reducible apply Keeps.stageTile
    | split
    | intro _
    | extract_lets
    | dsimp -zeta only

theorem Keeps.dropStream {s0 s : State} {l : Nat} (hk : Keeps s0 s)  : Keeps s0 (State.dropStream s l) := by
  unfold State.dropStream
  repeat' first
    | with_reducible assumption
    | with_reducible apply Keeps.each
    | with_reducible apply Keeps.dropCopies
    | split
    | intro _
    | extract_lets
    | dsimp -zeta only

end Sys2Proof.Machine
end

