-- ==== Sys2Proof/Laws/KeepsPlacement.lean ====
section
/-! SUPPORT. The operations of Machine/Placement.lean keep the queue, the order of times and the canonical form. -/

namespace Sys2Proof.Machine

theorem Keeps.clearBank {s0 s : State} {i : Nat} (hk : Keeps s0 s)  : Keeps s0 (State.clearBank s i) := by
  unfold State.clearBank
  repeat' first
    | with_reducible assumption
    | with_reducible apply Keeps.setPhy
    | split
    | intro _
    | extract_lets
    | with_reducible apply Keeps.other
    | dsimp -zeta only

theorem Keeps.scrub {s0 s : State} {t : Nat} {full : Bool} {next : Option Nat} (hk : Keeps s0 s)  : Keeps s0 (State.scrub s t full next) := by
  unfold State.scrub
  repeat' first
    | with_reducible assumption
    | with_reducible apply Keeps.bump
    | with_reducible apply Keeps.setTile
    | with_reducible apply Keeps.abandonRuns
    | with_reducible apply Keeps.clearBank
    | split
    | intro _
    | extract_lets
    | with_reducible apply Keeps.other
    | dsimp -zeta only

theorem Keeps.dropWork {s0 s : State} {l : Nat} {t : Nat} (hk : Keeps s0 s)  : Keeps s0 (State.dropWork s l t) := by
  unfold State.dropWork
  repeat' first
    | with_reducible assumption
    | with_reducible apply Keeps.setTile
    | split
    | intro _
    | extract_lets
    | with_reducible apply Keeps.other
    | dsimp -zeta only

theorem Keeps.setTurn {s0 s : State} {g : List Nat} {r : Nat × Nat} (hk : Keeps s0 s)  : Keeps s0 (State.setTurn s g r) := by
  unfold State.setTurn
  repeat' first
    | with_reducible assumption
    | with_reducible apply Keeps.foldl
    | split
    | intro _
    | extract_lets
    | with_reducible apply Keeps.other
    | dsimp -zeta only

theorem Keeps.turn {s0 s : State} {l : Nat} (hk : Keeps s0 s)  : Keeps s0 (State.turn s l) := by
  unfold State.turn
  repeat' first
    | with_reducible assumption
    | with_reducible apply Keeps.setPlace
    | with_reducible apply Keeps.setTurn
    | split
    | intro _
    | extract_lets
    | with_reducible apply Keeps.other
    | dsimp -zeta only

theorem Keeps.clearTags {s0 s : State} {l : Nat} {pick : Nat → Bool} (hk : Keeps s0 s)  : Keeps s0 (State.clearTags s l pick) := by
  unfold State.clearTags
  repeat' first
    | with_reducible assumption
    | with_reducible apply Keeps.setPhy
    | with_reducible apply Keeps.each
    | split
    | intro _
    | extract_lets
    | (with_reducible apply Keeps.fst_of_eq; with_reducible assumption)
    | with_reducible apply Keeps.foldlFst
    | with_reducible apply Keeps.other
    | dsimp -zeta only

theorem Keeps.dropAhead {s0 s : State} {l : Nat} (hk : Keeps s0 s)  : Keeps s0 (State.dropAhead s l) := by
  unfold State.dropAhead
  repeat' first
    | with_reducible assumption
    | with_reducible apply Keeps.dropStream
    | with_reducible apply Keeps.clearTags
    | split
    | intro _
    | extract_lets
    | dsimp -zeta only

theorem Keeps.leaveTile {s0 s : State} {l : Nat} {t : Nat} {keep : Bool} (hk : Keeps s0 s)  : Keeps s0 (State.leaveTile s l t keep) := by
  unfold State.leaveTile
  repeat' first
    | with_reducible assumption
    | with_reducible apply Keeps.setTile
    | split
    | intro _
    | extract_lets
    | with_reducible apply Keeps.other
    | dsimp -zeta only

theorem Keeps.putPlace {s0 s : State} {l : Nat} {c : PlaceCfg} (hk : Keeps s0 s)  : Keeps s0 (State.putPlace s l c) := by
  unfold State.putPlace
  repeat' first
    | with_reducible assumption
    | with_reducible apply Keeps.setPlace
    | with_reducible apply Keeps.setTile
    | with_reducible apply Keeps.each
    | with_reducible apply Keeps.dropCopies
    | with_reducible apply Keeps.stageAll
    | with_reducible apply Keeps.clearTags
    | with_reducible apply Keeps.leaveTile
    | split
    | intro _
    | extract_lets
    | with_reducible apply Keeps.other
    | dsimp -zeta only

theorem Keeps.applyPlace {s0 s : State} {l : Nat} {c : PlaceCfg} (hk : Keeps s0 s)  : Keeps s0 (State.applyPlace s l c) := by
  unfold State.applyPlace
  repeat' first
    | with_reducible assumption
    | with_reducible apply Keeps.each
    | with_reducible apply Keeps.editCtx
    | with_reducible apply Keeps.putPlace
    | split
    | intro _
    | extract_lets
    | with_reducible apply Keeps.other
    | dsimp -zeta only

theorem Keeps.unloadCheck {s0 s : State} {m : Nat} (hk : Keeps s0 s)  : Keeps s0 (State.unloadCheck s m) := by
  unfold State.unloadCheck
  repeat' first
    | with_reducible assumption
    | with_reducible apply Keeps.setModel
    | with_reducible apply Keeps.reply
    | split
    | intro _
    | extract_lets
    | with_reducible apply Keeps.other
    | dsimp -zeta only

theorem Keeps.removePlace {s0 s : State} {l : Nat} {reason : Nat} (hk : Keeps s0 s)  : Keeps s0 (State.removePlace s l reason) := by
  unfold State.removePlace
  repeat' first
    | with_reducible assumption
    | with_reducible apply Keeps.setPlace
    | with_reducible apply Keeps.each
    | with_reducible apply Keeps.complete
    | with_reducible apply Keeps.closeCtx
    | with_reducible apply Keeps.clearTags
    | with_reducible apply Keeps.leaveTile
    | split
    | intro _
    | extract_lets
    | dsimp -zeta only

theorem Keeps.setWindow {s0 s : State} {w : Nat} {base : Nat} {bytes : Nat} (hk : Keeps s0 s)  : Keeps s0 (State.setWindow s w base bytes) := by
  unfold State.setWindow
  repeat' first
    | with_reducible assumption
    | with_reducible apply Keeps.wrReg
    | split
    | intro _
    | extract_lets
    | dsimp -zeta only

end Sys2Proof.Machine
end

