-- ==== Sys2Proof/Laws/KeepsKeys.lean ====
section
/-! SUPPORT. The operations of Machine/Keys.lean keep the queue, the order of times and the canonical form. -/

namespace Sys2Proof.Machine

theorem Keeps.freshKey {s0 s : State} {p : Nat} {src : Nat} (hk : Keeps s0 s)  : Keeps s0 (State.freshKey s p src) := by
  unfold State.freshKey
  repeat' first
    | with_reducible assumption
    | with_reducible apply Keeps.setFld
    | split
    | intro _
    | extract_lets
    | with_reducible apply Keeps.other
    | dsimp -zeta only

theorem Keeps.clearKey {s0 s : State} {p : Nat} (hk : Keeps s0 s)  : Keeps s0 (State.clearKey s p) := by
  unfold State.clearKey
  repeat' first
    | with_reducible assumption
    | split
    | intro _
    | extract_lets
    | with_reducible apply Keeps.other
    | dsimp -zeta only

theorem Keeps.freshTables {s0 s : State} (hk : Keeps s0 s) : Keeps s0 s.freshTables := by
  have hm : s.mem.wf = true → s.freshTables.mem.wf = true := by
    intro h
    have tbl : ∀ {m : Mem} {r : RegRef} {a n : Nat}, m.wf = true → (if s.reg r = 0 then m else m.clear a n).wf = true := by
      intro m r a n h
      split
      · exact h
      · exact Mem.wf_clear h
    exact tbl (tbl (tbl h))
  exact ⟨hk.pending, hk.now, hk.free, fun c => { hk.canon c with mem := hm (hk.canon c).mem, ctxs := rfl, aux := rfl }⟩

theorem Keeps.closeAll {s0 s : State} {p : Nat} {reason : Nat} (hk : Keeps s0 s)  : Keeps s0 (State.closeAll s p reason) := by
  unfold State.closeAll
  repeat' first
    | with_reducible assumption
    | with_reducible apply Keeps.each
    | with_reducible apply Keeps.complete
    | with_reducible apply Keeps.closeCtx
    | split
    | intro _
    | extract_lets
    | dsimp -zeta only

theorem Keeps.dropModels {s0 s : State} {p : Nat} (hk : Keeps s0 s)  : Keeps s0 (State.dropModels s p) := by
  unfold State.dropModels
  repeat' first
    | with_reducible assumption
    | with_reducible apply Keeps.setModel
    | with_reducible apply Keeps.each
    | with_reducible apply Keeps.reply
    | with_reducible apply Keeps.countLong
    | with_reducible apply Keeps.endLong
    | with_reducible apply Keeps.dropChain
    | split
    | intro _
    | extract_lets
    | with_reducible apply Keeps.other
    | dsimp -zeta only

theorem Keeps.stopSteps {s0 s : State}  (hk : Keeps s0 s)  : Keeps s0 (State.stopSteps s) := by
  unfold State.stopSteps
  repeat' first
    | with_reducible assumption
    | with_reducible apply Keeps.setPlace
    | with_reducible apply Keeps.each
    | with_reducible apply Keeps.poolBack
    | with_reducible apply Keeps.dropWork
    | split
    | intro _
    | extract_lets
    | with_reducible apply Keeps.other
    | dsimp -zeta only

theorem Keeps.endRetire {s0 s : State} {h : Hdr} {p : Nat} (hk : Keeps s0 s)  : Keeps s0 (State.endRetire s h p) := by
  unfold State.endRetire
  repeat' first
    | with_reducible assumption
    | with_reducible apply Keeps.setPart
    | with_reducible apply Keeps.each
    | with_reducible apply Keeps.reply
    | with_reducible apply Keeps.freshKey
    | with_reducible apply Keeps.freshTables
    | with_reducible apply Keeps.closeAll
    | with_reducible apply Keeps.dropModels
    | with_reducible apply Keeps.stopSteps
    | split
    | intro _
    | extract_lets
    | with_reducible apply Keeps.other
    | dsimp -zeta only

theorem Keeps.zeroBegin {s0 s : State}  (hk : Keeps s0 s)  : Keeps s0 (State.zeroBegin s) := by
  unfold State.zeroBegin
  repeat' first
    | with_reducible assumption
    | with_reducible apply Keeps.setFld
    | with_reducible apply Keeps.setFlag
    | with_reducible apply Keeps.setPlace
    | with_reducible apply Keeps.each
    | with_reducible apply Keeps.clearKey
    | split
    | intro _
    | extract_lets
    | with_reducible apply Keeps.other
    | dsimp -zeta only

theorem Keeps.zeroEmpty {s0 s : State}  (hk : Keeps s0 s)  : Keeps s0 (State.zeroEmpty s) := by
  unfold State.zeroEmpty
  repeat' first
    | with_reducible assumption
    | with_reducible apply Keeps.setFld
    | with_reducible apply Keeps.setPart
    | with_reducible apply Keeps.each
    | with_reducible apply Keeps.closeAll
    | with_reducible apply Keeps.dropModels
    | split
    | intro _
    | extract_lets
    | with_reducible apply Keeps.other
    | dsimp -zeta only

theorem Keeps.zeroScrub {s0 s : State}  (hk : Keeps s0 s)  : Keeps s0 (State.zeroScrub s) := by
  unfold State.zeroScrub
  repeat' first
    | with_reducible assumption
    | with_reducible apply Keeps.setFld
    | with_reducible apply Keeps.each
    | with_reducible apply Keeps.scrub
    | split
    | intro _
    | extract_lets
    | dsimp -zeta only

theorem Keeps.newDevKey {s0 s : State}  (hk : Keeps s0 s)  : Keeps s0 (State.newDevKey s) := by
  unfold State.newDevKey
  repeat' first
    | with_reducible assumption
    | with_reducible apply Keeps.wrReg
    | with_reducible apply Keeps.each
    | split
    | intro _
    | extract_lets
    | with_reducible apply Keeps.other
    | dsimp -zeta only

theorem Keeps.zeroRekey {s0 s : State}  (hk : Keeps s0 s)  : Keeps s0 (State.zeroRekey s) := by
  unfold State.zeroRekey
  repeat' first
    | with_reducible assumption
    | with_reducible apply Keeps.setFld
    | with_reducible apply Keeps.setFlag
    | with_reducible apply Keeps.bump
    | with_reducible apply Keeps.each
    | with_reducible apply Keeps.freshKey
    | with_reducible apply Keeps.freshTables
    | with_reducible apply Keeps.newDevKey
    | split
    | intro _
    | extract_lets
    | with_reducible apply Keeps.other
    | dsimp -zeta only

theorem Keeps.zeroReplies {s0 s : State}  (hk : Keeps s0 s)  : Keeps s0 (State.zeroReplies s) := by
  unfold State.zeroReplies
  repeat' first
    | with_reducible assumption
    | with_reducible apply Keeps.each
    | with_reducible apply Keeps.countLong
    | with_reducible apply Keeps.endLong
    | split
    | intro _
    | extract_lets
    | with_reducible apply Keeps.other
    | dsimp -zeta only

theorem Keeps.zeroDebugRun {s0 s : State}  (hk : Keeps s0 s)  : Keeps s0 (State.zeroDebugRun s) := by
  unfold State.zeroDebugRun
  repeat' first
    | with_reducible assumption
    | with_reducible apply Keeps.zeroEmpty
    | with_reducible apply Keeps.zeroScrub
    | with_reducible apply Keeps.zeroRekey
    | split
    | intro _
    | extract_lets
    | with_reducible apply Keeps.other
    | dsimp -zeta only

theorem Keeps.settle {s0 s : State} {p : Nat} (hk : Keeps s0 s)  : Keeps s0 (State.settle s p) := by
  unfold State.settle
  repeat' first
    | with_reducible assumption
    | with_reducible apply Keeps.endRetire
    | with_reducible apply Keeps.zeroDebugRun
    | split
    | intro _
    | extract_lets
    | with_reducible apply Keeps.other
    | dsimp -zeta only

end Sys2Proof.Machine
end

