-- ==== Sys2Proof/Laws/KeepsSteps.lean ====
section
/-! SUPPORT. The operations of Machine/Steps.lean keep the queue, the order of times and the canonical form. -/

namespace Sys2Proof.Machine

theorem Keeps.foldlSel {s0 : State} {α : Type} {xs : List α} {f : Sel → α → Sel} {a : Sel} (h : Keeps s0 a.s)
    (hf : ∀ a x, Keeps s0 a.s → Keeps s0 (f a x).s) : Keeps s0 (xs.foldl f a).s := by
  induction xs generalizing a with
  | nil => exact h
  | cons x t ih => exact ih (hf a x h)

theorem Keeps.debit {s0 s : State} {b : Nat} {n : Nat} (hk : Keeps s0 s)  : Keeps s0 (State.debit s b n) := by
  unfold State.debit
  repeat' first
    | with_reducible assumption
    | with_reducible apply Keeps.wrMem
    | split
    | intro _
    | extract_lets
    | dsimp -zeta only

theorem Keeps.refill {s0 s : State} {b : Nat} (hk : Keeps s0 s)  : Keeps s0 (State.refill s b) := by
  unfold State.refill
  repeat' first
    | with_reducible assumption
    | with_reducible apply Keeps.debit
    | split
    | intro _
    | extract_lets
    | dsimp -zeta only

theorem Keeps.loadSlot {s0 s : State} {x : Slot} (hk : Keeps s0 s)  : Keeps s0 (State.loadSlot s x).1 := by
  unfold State.loadSlot
  repeat' first
    | with_reducible assumption
    | with_reducible apply Keeps.violate
    | split
    | intro _
    | extract_lets
    | (with_reducible apply Keeps.fst_of_eq; with_reducible assumption)
    | with_reducible apply Keeps.foldlFst
    | with_reducible apply Keeps.other
    | dsimp -zeta only

theorem Keeps.selTake {s0 : State} {a : Sel} {l : Nat} {i : Nat} {late : Bool} (hk : Keeps s0 a.s)  : Keeps s0 (Sel.take a l i late).s := by
  unfold Sel.take
  repeat' first
    | with_reducible assumption
    | with_reducible apply Keeps.bump
    | with_reducible apply Keeps.setPart
    | with_reducible apply Keeps.popFor
    | with_reducible apply Keeps.editCtx
    | with_reducible apply Keeps.starve
    | with_reducible apply Keeps.noTable
    | with_reducible apply Keeps.debit
    | with_reducible apply Keeps.loadSlot
    | split
    | intro _
    | extract_lets
    | (with_reducible apply Keeps.fst_of_eq; with_reducible assumption)
    | with_reducible apply Keeps.foldlFst
    | with_reducible apply Keeps.foldlSel
    | (with_reducible apply Keeps.fst_of_eq; with_reducible assumption)
    | with_reducible apply Keeps.other
    | dsimp -zeta only

theorem Keeps.selScreen {s0 : State} {a : Sel} {i : Nat} (hk : Keeps s0 a.s)  : Keeps s0 (Sel.screen a i).s := by
  unfold Sel.screen
  repeat' first
    | with_reducible assumption
    | with_reducible apply Keeps.bump
    | with_reducible apply Keeps.editCtx
    | with_reducible apply Keeps.pauseCtx
    | split
    | intro _
    | extract_lets
    | with_reducible apply Keeps.foldlSel
    | (with_reducible apply Keeps.fst_of_eq; with_reducible assumption)
    | with_reducible apply Keeps.other
    | dsimp -zeta only

theorem Keeps.selPass {s0 : State} {a : Sel} {l : Nat} {cls : Nat} {late : Bool} {hold : Bool} (hk : Keeps s0 a.s)  : Keeps s0 (Sel.pass a l cls late hold).s := by
  unfold Sel.pass
  repeat' first
    | with_reducible assumption
    | with_reducible apply Keeps.foldl
    | with_reducible apply Keeps.refill
    | with_reducible apply Keeps.selTake
    | split
    | intro _
    | extract_lets
    | with_reducible apply Keeps.foldlSel
    | (with_reducible apply Keeps.fst_of_eq; with_reducible assumption)
    | with_reducible apply Keeps.other
    | dsimp -zeta only

theorem Keeps.select {s0 s : State} {l : Nat} {hold : Bool} (hk : Keeps s0 s)  : Keeps s0 (State.select s l hold).s := by
  unfold State.select
  repeat' first
    | with_reducible assumption
    | with_reducible apply Keeps.foldl
    | with_reducible apply Keeps.selTake
    | with_reducible apply Keeps.selScreen
    | with_reducible apply Keeps.selPass
    | split
    | intro _
    | extract_lets
    | with_reducible apply Keeps.foldlSel
    | (with_reducible apply Keeps.fst_of_eq; with_reducible assumption)
    | dsimp -zeta only

theorem Keeps.decideHold {s0 s : State} {l : Nat} (hk : Keeps s0 s)  : Keeps s0 (State.decideHold s l) := by
  unfold State.decideHold
  repeat' first
    | with_reducible assumption
    | with_reducible apply Keeps.bump
    | with_reducible apply Keeps.setPlace
    | with_reducible apply Keeps.select
    | split
    | intro _
    | extract_lets
    | with_reducible apply Keeps.other
    | dsimp -zeta only

theorem Keeps.cairn {s0 s : State} {l : Nat} (hk : Keeps s0 s)  : Keeps s0 (State.cairn s l) := by
  unfold State.cairn
  repeat' first
    | with_reducible assumption
    | with_reducible apply Keeps.setPlace
    | with_reducible apply Keeps.checked
    | with_reducible apply Keeps.readSlice
    | with_reducible apply Keeps.poolCairn
    | with_reducible apply Keeps.freeRun
    | with_reducible apply Keeps.cairnReplies
    | with_reducible apply Keeps.mapCairns
    | with_reducible apply Keeps.rampCairn
    | with_reducible apply Keeps.turn
    | with_reducible apply Keeps.dropAhead
    | with_reducible apply Keeps.applyPlace
    | with_reducible apply Keeps.unloadCheck
    | with_reducible apply Keeps.removePlace
    | with_reducible apply Keeps.settle
    | with_reducible apply Keeps.decideHold
    | split
    | intro _
    | extract_lets
    | with_reducible apply Keeps.other
    | dsimp -zeta only

theorem Keeps.idleCairns {s0 s : State} {p : Nat} (hk : Keeps s0 s)  : Keeps s0 (State.idleCairns s p) := by
  unfold State.idleCairns
  repeat' first
    | with_reducible assumption
    | with_reducible apply Keeps.each
    | with_reducible apply Keeps.cairn
    | split
    | intro _
    | extract_lets
    | dsimp -zeta only

theorem Keeps.loseCtx {s0 s : State} {i : Nat} {a : Nat} (hk : Keeps s0 s)  : Keeps s0 (State.loseCtx s i a) := by
  unfold State.loseCtx
  repeat' first
    | with_reducible assumption
    | with_reducible apply Keeps.setAux
    | with_reducible apply Keeps.ueAt
    | with_reducible apply Keeps.complete
    | with_reducible apply Keeps.closeCtx
    | split
    | intro _
    | extract_lets
    | with_reducible apply Keeps.other
    | dsimp -zeta only

theorem Keeps.loseBad {s0 s : State} {l : Nat} (hk : Keeps s0 s)  : Keeps s0 (State.loseBad s l) := by
  unfold State.loseBad
  repeat' first
    | with_reducible assumption
    | with_reducible apply Keeps.each
    | with_reducible apply Keeps.loseCtx
    | split
    | intro _
    | extract_lets
    | with_reducible apply Keeps.other
    | dsimp -zeta only

theorem Keeps.noteAll {s0 s : State} {notes : List (Nat × Nat)} (hk : Keeps s0 s)  : Keeps s0 (State.noteAll s notes) := by
  unfold State.noteAll
  repeat' first
    | with_reducible assumption
    | with_reducible apply Keeps.each
    | with_reducible apply Keeps.complete
    | split
    | intro _
    | extract_lets
    | dsimp -zeta only

theorem Keeps.startTiles {s0 s : State} {l : Nat} (hk : Keeps s0 s)  : Keeps s0 (State.startTiles s l) := by
  unfold State.startTiles
  repeat' first
    | with_reducible assumption
    | with_reducible apply Keeps.setPlace
    | with_reducible apply Keeps.setTile
    | with_reducible apply Keeps.each
    | with_reducible apply Keeps.setFb
    | with_reducible apply Keeps.countMisses
    | with_reducible apply Keeps.scrub
    | with_reducible apply Keeps.dropWork
    | split
    | intro _
    | extract_lets
    | with_reducible apply Keeps.other
    | dsimp -zeta only

theorem Keeps.build {s0 s : State} {l : Nat} (hk : Keeps s0 s)  : Keeps s0 (State.build s l) := by
  unfold State.build
  repeat' first
    | with_reducible assumption
    | with_reducible apply Keeps.bump
    | with_reducible apply Keeps.setPlace
    | with_reducible apply Keeps.each
    | with_reducible apply Keeps.editCtx
    | with_reducible apply Keeps.select
    | with_reducible apply Keeps.decideHold
    | with_reducible apply Keeps.noteAll
    | with_reducible apply Keeps.startTiles
    | split
    | intro _
    | extract_lets
    | with_reducible apply Keeps.other
    | dsimp -zeta only

theorem Keeps.sendRecord {s0 s : State} {l : Nat} {i : Nat} {pos : Nat} {kind : Nat} {payload : List Byte} (hk : Keeps s0 s)  : Keeps s0 (State.sendRecord s l i pos kind payload) := by
  unfold State.sendRecord
  repeat' first
    | with_reducible assumption
    | with_reducible apply Keeps.setPlace
    | with_reducible apply Keeps.request
    | split
    | intro _
    | extract_lets
    | with_reducible apply Keeps.other
    | dsimp -zeta only

theorem Keeps.sendRelay {s0 s : State} {l : Nat} {st : Step} (hk : Keeps s0 s)  : Keeps s0 (State.sendRelay s l st) := by
  unfold State.sendRelay
  repeat' first
    | with_reducible assumption
    | with_reducible apply Keeps.setPlace
    | with_reducible apply Keeps.foldl
    | with_reducible apply Keeps.each
    | with_reducible apply Keeps.sendRecord
    | split
    | intro _
    | extract_lets
    | (with_reducible apply Keeps.fst_of_eq; with_reducible assumption)
    | with_reducible apply Keeps.foldlFst
    | with_reducible apply Keeps.addFree
    | with_reducible apply Keeps.other
    | dsimp -zeta only

theorem Keeps.commitSpec_eq {s0 s t : State} {x : Slot} {fs : List Nat} (e : s.commitSpec x fs = .inl t) (hk : Keeps s0 s) : Keeps s0 t := by
  have key : ∀ (ms : List (Nat × Nat × Nat)) (p : Nat) (a : State ⊕ Nat), (∀ u, a = .inl u → Keeps s0 u) →
      ∀ u, ms.foldl (fun (a : State ⊕ Nat) m => match a with
        | .inl s => s.wrVa p m.1 (s.rdMem p m.2.1 m.2.2)
        | .inr v => .inr v) a = .inl u → Keeps s0 u := by
    intro ms p
    induction ms with
    | nil => exact fun a ha u hu => ha u hu
    | cons m ms ih =>
      intro a ha u hu
      refine ih _ (fun v hv => ?_) u hu
      cases a with
      | inl w => exact Keeps.wrVa_eq hv (ha w rfl)
      | inr w => cases hv
  unfold State.commitSpec at e
  dsimp only at e
  split at e
  · rename_i s1 he
    cases e
    exact (key _ _ _ (fun u hu => by cases hu; exact hk.asOf) s1 he).backFrom
  · cases e

theorem Keeps.putHist {s0 s : State} {i : Nat} {q : Nat} {tok : Nat} (hk : Keeps s0 s)  : Keeps s0 (State.putHist s i q tok) := by
  unfold State.putHist
  repeat' first
    | with_reducible assumption
    | with_reducible apply Keeps.wrMem
    | split
    | intro _
    | extract_lets
    | dsimp -zeta only

theorem Keeps.redoDone {s0 s : State} {x : Slot} (hk : Keeps s0 s)  : Keeps s0 (State.redoDone s x) := by
  unfold State.redoDone
  repeat' first
    | with_reducible assumption
    | with_reducible apply Keeps.setAux
    | with_reducible apply Keeps.editCtx
    | with_reducible apply Keeps.redoFinish
    | split
    | intro _
    | extract_lets
    | with_reducible apply Keeps.other
    | dsimp -zeta only

theorem Keeps.commitSlot {s0 s : State} {x : Slot} (hk : Keeps s0 s)  : Keeps s0 (State.commitSlot s x).1 := by
  unfold State.commitSlot
  repeat' first
    | with_reducible assumption
    | with_reducible apply Keeps.violate
    | split
    | intro _
    | extract_lets
    | (with_reducible apply Keeps.commitSpec_eq; with_reducible assumption)
    | with_reducible apply Keeps.other
    | dsimp -zeta only

theorem Keeps.retireSlot {s0 s : State} {l : Nat} {st : Step} {x0 : Slot} (hk : Keeps s0 s)  : Keeps s0 (State.retireSlot s l st x0).1 := by
  unfold State.retireSlot
  repeat' first
    | with_reducible assumption
    | with_reducible apply Keeps.bump
    | with_reducible apply Keeps.each
    | with_reducible apply Keeps.useFree
    | with_reducible apply Keeps.editCtx
    | with_reducible apply Keeps.jrnlCtx
    | with_reducible apply Keeps.putCtx
    | with_reducible apply Keeps.poolBack
    | with_reducible apply Keeps.takeToken
    | with_reducible apply Keeps.selTake
    | with_reducible apply Keeps.putHist
    | with_reducible apply Keeps.redoDone
    | with_reducible apply Keeps.commitSlot
    | split
    | intro _
    | extract_lets
    | (with_reducible apply Keeps.fst_of_eq; with_reducible assumption)
    | with_reducible apply Keeps.foldlFst
    | with_reducible apply Keeps.other
    | dsimp -zeta only

theorem Keeps.postStep {s0 s : State} {r0 : List (Nat × Out)} (hk : Keeps s0 s)  : Keeps s0 (State.postStep s r0) := by
  induction r0 generalizing s with
  | nil =>
    rw [State.postStep]
    repeat' first
      | with_reducible assumption
      | with_reducible apply Keeps.postHeld
      | split
      | intro _
      | extract_lets
      | with_reducible apply Keeps.other
      | dsimp -zeta only
  | cons a t ih =>
    rw [State.postStep]
    repeat' first
      | with_reducible assumption
      | with_reducible apply Keeps.postHeld
      | with_reducible apply ih
      | split
      | intro _
      | extract_lets
      | with_reducible apply Keeps.other
      | dsimp -zeta only

theorem Keeps.retirePops {s0 s : State} {slots : List Slot} (hk : Keeps s0 s)  : Keeps s0 (State.retirePops s slots) := by
  unfold State.retirePops
  repeat' first
    | with_reducible assumption
    | with_reducible apply Keeps.each
    | with_reducible apply Keeps.popFor
    | with_reducible apply Keeps.complete
    | with_reducible apply Keeps.starve
    | with_reducible apply Keeps.noTable
    | split
    | intro _
    | extract_lets
    | (with_reducible apply Keeps.fst_of_eq; with_reducible assumption)
    | with_reducible apply Keeps.foldlFst
    | with_reducible apply Keeps.other
    | dsimp -zeta only

theorem Keeps.writeStats {s0 s : State} {l : Nat} {st : Step} (hk : Keeps s0 s)  : Keeps s0 (State.writeStats s l st) := by
  unfold State.writeStats
  repeat' first
    | with_reducible assumption
    | with_reducible apply Keeps.each
    | with_reducible apply Keeps.wrMem
    | split
    | intro _
    | extract_lets
    | dsimp -zeta only

theorem Keeps.endStep {s0 s : State} {l : Nat} {slots : List Slot} (hk : Keeps s0 s)  : Keeps s0 (State.endStep s l slots) := by
  unfold State.endStep
  repeat' first
    | with_reducible assumption
    | with_reducible apply Keeps.setPlace
    | with_reducible apply Keeps.each
    | with_reducible apply Keeps.applyHeld
    | split
    | intro _
    | extract_lets
    | with_reducible apply Keeps.other
    | dsimp -zeta only

theorem Keeps.retire {s0 s : State} {l : Nat} {st : Step} (hk : Keeps s0 s)  : Keeps s0 (State.retire s l st) := by
  unfold State.retire
  repeat' first
    | with_reducible assumption
    | with_reducible apply Keeps.bump
    | with_reducible apply Keeps.setPlace
    | with_reducible apply Keeps.foldl
    | with_reducible apply Keeps.dropStream
    | with_reducible apply Keeps.cairn
    | with_reducible apply Keeps.noteAll
    | with_reducible apply Keeps.retireSlot
    | with_reducible apply Keeps.postStep
    | with_reducible apply Keeps.retirePops
    | with_reducible apply Keeps.writeStats
    | with_reducible apply Keeps.endStep
    | split
    | intro _
    | extract_lets
    | (with_reducible apply Keeps.fst_of_eq; with_reducible assumption)
    | with_reducible apply Keeps.foldlFst
    | with_reducible apply Keeps.other
    | dsimp -zeta only

theorem Keeps.abandon {s0 s : State} {l : Nat} {pause : Bool} (hk : Keeps s0 s)  : Keeps s0 (State.abandon s l pause) := by
  unfold State.abandon
  repeat' first
    | with_reducible assumption
    | with_reducible apply Keeps.setPlace
    | with_reducible apply Keeps.foldl
    | with_reducible apply Keeps.each
    | with_reducible apply Keeps.dropWork
    | with_reducible apply Keeps.dropAhead
    | with_reducible apply Keeps.cairn
    | with_reducible apply Keeps.noteAll
    | with_reducible apply Keeps.retireSlot
    | with_reducible apply Keeps.postStep
    | with_reducible apply Keeps.endStep
    | split
    | intro _
    | extract_lets
    | (with_reducible apply Keeps.fst_of_eq; with_reducible assumption)
    | with_reducible apply Keeps.foldlFst
    | with_reducible apply Keeps.other
    | dsimp -zeta only

theorem Keeps.fenceWork {s0 s : State} {l : Nat} (hk : Keeps s0 s)  : Keeps s0 (State.fenceWork s l) := by
  unfold State.fenceWork
  repeat' first
    | with_reducible assumption
    | with_reducible apply Keeps.setPlace
    | with_reducible apply Keeps.each
    | with_reducible apply Keeps.editCtx
    | with_reducible apply Keeps.putCtx
    | with_reducible apply Keeps.abandon
    | split
    | intro _
    | extract_lets
    | with_reducible apply Keeps.other
    | dsimp -zeta only

theorem Keeps.fencePlace {s0 s : State} {l : Nat} {lost : Nat} (hk : Keeps s0 s)  : Keeps s0 (State.fencePlace s l lost) := by
  unfold State.fencePlace
  repeat' first
    | with_reducible assumption
    | with_reducible apply Keeps.raise
    | with_reducible apply Keeps.fault
    | with_reducible apply Keeps.fenceWork
    | split
    | intro _
    | extract_lets
    | dsimp -zeta only

end Sys2Proof.Machine
end

