-- ==== Sys2Proof/Laws/KeepsScree.lean ====
section
/-! SUPPORT. The operations of Machine/Scree.lean keep the queue, the order of times and the canonical form. -/

namespace Sys2Proof.Machine

theorem Keeps.scanOne {s0 s : State} {i : Nat} (hk : Keeps s0 s)  : Keeps s0 (State.scanOne s i) := by
  unfold State.scanOne
  repeat' first
    | with_reducible assumption
    | with_reducible apply Keeps.freeFrames
    | with_reducible apply Keeps.freeExtents
    | with_reducible apply Keeps.startPark
    | with_reducible apply Keeps.putCtx
    | split
    | intro _
    | extract_lets
    | (with_reducible apply Keeps.fst_of_eq; with_reducible assumption)
    | with_reducible apply Keeps.foldlFst
    | with_reducible apply Keeps.other
    | dsimp -zeta only

theorem Keeps.scanCtx {s0 s : State} {i : Nat} (hk : Keeps s0 s)  : Keeps s0 (State.scanCtx s i) := by
  unfold State.scanCtx
  repeat' first
    | with_reducible assumption
    | with_reducible apply Keeps.under
    | with_reducible apply Keeps.scanOne
    | split
    | intro _
    | extract_lets
    | dsimp -zeta only

theorem Keeps.endPark {s0 s : State} {i : Nat} {m : Move} (hk : Keeps s0 s)  : Keeps s0 (State.endPark s i m) := by
  unfold State.endPark
  repeat' first
    | with_reducible assumption
    | with_reducible apply Keeps.setPart
    | with_reducible apply Keeps.asOf
    | with_reducible apply Keeps.under
    | with_reducible apply Keeps.freeFrames
    | with_reducible apply Keeps.writePark
    | with_reducible apply Keeps.parkEnds
    | split
    | intro _
    | extract_lets
    | with_reducible apply Keeps.other
    | dsimp -zeta only

theorem Keeps.endRestore {s0 s : State} {i : Nat} {m : Move} (hk : Keeps s0 s)  : Keeps s0 (State.endRestore s i m) := by
  unfold State.endRestore
  repeat' first
    | with_reducible assumption
    | with_reducible apply Keeps.setAux
    | with_reducible apply Keeps.under
    | with_reducible apply Keeps.reply
    | with_reducible apply Keeps.freeExtents
    | with_reducible apply Keeps.readPark
    | with_reducible apply Keeps.putCtx
    | with_reducible apply Keeps.applyOp
    | with_reducible apply Keeps.applyHeld
    | split
    | intro _
    | extract_lets
    | with_reducible apply Keeps.other
    | dsimp -zeta only

end Sys2Proof.Machine
end

