-- ==== Sys2Proof/Laws/KeepsPartItems.lean ====
section
/-! SUPPORT. The operations of Machine/PartItems.lean keep the queue, the order of times and the canonical form. -/

namespace Sys2Proof.Machine

theorem Keeps.assignTile {s0 s : State} {p : Nat} {t : Nat} {mode : Nat} (hk : Keeps s0 s)  : Keeps s0 (State.assignTile s p t mode) := by
  unfold State.assignTile
  repeat' first
    | with_reducible assumption
    | with_reducible apply Keeps.setFld
    | with_reducible apply Keeps.setTile
    | with_reducible apply Keeps.scrub
    | split
    | intro _
    | extract_lets
    | with_reducible apply Keeps.other
    | dsimp -zeta only

theorem Keeps.countTiles {s0 s : State} {p : Nat} (hk : Keeps s0 s)  : Keeps s0 (State.countTiles s p) := by
  unfold State.countTiles
  repeat' first
    | with_reducible assumption
    | with_reducible apply Keeps.setFld
    | split
    | intro _
    | extract_lets
    | dsimp -zeta only

theorem Keeps.applyItem {s0 s : State} {p : Nat} {r0 : PsItem} (hk : Keeps s0 s)  : Keeps s0 (State.applyItem s p r0) := by
  unfold State.applyItem
  repeat' first
    | with_reducible assumption
    | with_reducible apply Keeps.wrReg
    | with_reducible apply Keeps.setFld
    | with_reducible apply Keeps.setFlag
    | with_reducible apply Keeps.setPart
    | with_reducible apply Keeps.each
    | with_reducible apply Keeps.wrMem
    | with_reducible apply Keeps.setWindow
    | with_reducible apply Keeps.assignTile
    | with_reducible apply Keeps.countTiles
    | split
    | intro _
    | extract_lets
    | with_reducible apply Keeps.other
    | dsimp -zeta only

theorem Keeps.runItems_eq {s0 s t : State} {issuer p len n o : Nat} {is : List PsItem} {pads : List Nat}
    (e : State.runItems issuer p len n o is pads s = .inl t) (hk : Keeps s0 s) : Keeps s0 t := by
  induction n generalizing s o is pads with
  | zero => rw [State.runItems] at e; split at e <;> cases e; exact hk
  | succ n ih =>
    cases is with
    | nil => rw [State.runItems] at e; cases e
    | cons i is =>
      rw [State.runItems] at e
      split at e
      · cases e
      · split at e
        · exact ih e hk.applyItem
        · cases e

theorem Keeps.svcPartSet {s0 s : State} {h : Hdr} {hd : PsHead} {items : List PsItem} (hk : Keeps s0 s)  : Keeps s0 (State.svcPartSet s h hd items) := by
  unfold State.svcPartSet
  repeat' first
    | with_reducible assumption
    | with_reducible apply Keeps.reply
    | with_reducible apply Keeps.fail
    | with_reducible apply Keeps.checked
    | with_reducible apply Keeps.freeRun
    | with_reducible apply Keeps.idleCairns
    | split
    | intro _
    | extract_lets
    | (with_reducible apply Keeps.runItems_eq; with_reducible assumption)
    | with_reducible apply Keeps.other
    | dsimp -zeta only

end Sys2Proof.Machine
end

