-- ==== Sys2Proof/Laws/KeepsModels.lean ====
section
/-! SUPPORT. The operations of Machine/Models.lean keep the queue, the order of times and the canonical form. -/

namespace Sys2Proof.Machine

theorem Keeps.passOpening {s0 s : State} {c : Chain} (hk : Keeps s0 s)  : Keeps s0 (State.passOpening s c) := by
  unfold State.passOpening
  repeat' first
    | with_reducible assumption
    | with_reducible apply Keeps.request
    | split
    | intro _
    | extract_lets
    | with_reducible apply Keeps.other
    | dsimp -zeta only

theorem Keeps.tellChain {s0 s : State} {c : Chain} {dest : Nat} {kind : Nat} {who : Nat} (hk : Keeps s0 s)  : Keeps s0 (State.tellChain s c dest kind who) := by
  unfold State.tellChain
  repeat' first
    | with_reducible assumption
    | with_reducible apply Keeps.request
    | split
    | intro _
    | extract_lets
    | dsimp -zeta only

theorem Keeps.loadLength {s0 s : State} {op : Nat} {total : Nat} (hk : Keeps s0 s)  : Keeps s0 (State.loadLength s op total) := by
  unfold State.loadLength
  repeat' first
    | with_reducible assumption
    | split
    | intro _
    | extract_lets
    | with_reducible apply Keeps.other
    | dsimp -zeta only

theorem Keeps.takeOpening {s0 s : State} {c : Chain} {m : FMsg} (hk : Keeps s0 s)  : Keeps s0 (State.takeOpening s c m) := by
  unfold State.takeOpening
  repeat' first
    | with_reducible assumption
    | with_reducible apply Keeps.setChain
    | with_reducible apply Keeps.passOpening
    | with_reducible apply Keeps.tellChain
    | with_reducible apply Keeps.loadLength
    | split
    | intro _
    | extract_lets
    | with_reducible apply Keeps.other
    | dsimp -zeta only

theorem Keeps.openingCame {s0 s : State} {m : FMsg} (hk : Keeps s0 s)  : Keeps s0 (State.openingCame s m) := by
  unfold State.openingCame
  repeat' first
    | with_reducible assumption
    | with_reducible apply Keeps.takeOpening
    | split
    | intro _
    | extract_lets
    | with_reducible apply Keeps.other
    | dsimp -zeta only

theorem Keeps.earlyOpening {s0 s : State} {c : Chain} (hk : Keeps s0 s)  : Keeps s0 (State.earlyOpening s c) := by
  unfold State.earlyOpening
  repeat' first
    | with_reducible assumption
    | with_reducible apply Keeps.takeOpening
    | split
    | intro _
    | extract_lets
    | with_reducible apply Keeps.other
    | dsimp -zeta only

theorem Keeps.forwardHalves {s0 s : State} {c : Chain} {off : Nat} {bs : List Byte} (hk : Keeps s0 s)  : Keeps s0 (State.forwardHalves s c off bs) := by
  unfold State.forwardHalves
  repeat' first
    | with_reducible assumption
    | with_reducible apply Keeps.each
    | with_reducible apply Keeps.request
    | with_reducible apply Keeps.selTake
    | split
    | intro _
    | extract_lets
    | with_reducible apply Keeps.other
    | dsimp -zeta only

theorem Keeps.joinChain {s0 s : State} {o : LongOp} {q : LoadParams} {total : Nat} (hk : Keeps s0 s)  : Keeps s0 (State.joinChain s o q total) := by
  unfold State.joinChain
  repeat' first
    | with_reducible assumption
    | with_reducible apply Keeps.selTake
    | with_reducible apply Keeps.passOpening
    | with_reducible apply Keeps.earlyOpening
    | split
    | intro _
    | extract_lets
    | with_reducible apply Keeps.other
    | dsimp -zeta only

theorem Keeps.svcModelLoad {s0 s : State} {h : Hdr} {q : LoadParams} {image : List Byte} (hk : Keeps s0 s)  : Keeps s0 (State.svcModelLoad s h q image) := by
  unfold State.svcModelLoad
  repeat' first
    | with_reducible assumption
    | with_reducible apply Keeps.setModel
    | with_reducible apply Keeps.checked
    | with_reducible apply Keeps.startLong
    | with_reducible apply Keeps.joinChain
    | split
    | intro _
    | extract_lets
    | dsimp -zeta only

theorem Keeps.failLoad {s0 s : State} {o : LongOp} {m : Nat} {status : Nat} {detail : Nat} {result : Nat} (hk : Keeps s0 s)  : Keeps s0 (State.failLoad s o m status detail result) := by
  unfold State.failLoad
  repeat' first
    | with_reducible assumption
    | with_reducible apply Keeps.setModel
    | with_reducible apply Keeps.endLong
    | split
    | intro _
    | extract_lets
    | dsimp -zeta only

theorem Keeps.finishLoad {s0 s : State} {o : LongOp} {m : Nat} (hk : Keeps s0 s)  : Keeps s0 (State.finishLoad s o m) := by
  unfold State.finishLoad
  repeat' first
    | with_reducible assumption
    | with_reducible apply Keeps.setModel
    | with_reducible apply Keeps.endLong
    | with_reducible apply Keeps.dropChain
    | with_reducible apply Keeps.failLoad
    | split
    | intro _
    | extract_lets
    | with_reducible apply Keeps.other
    | dsimp -zeta only

theorem Keeps.arriveLoad {s0 s : State} {o : LongOp} {m : Nat} {bs : List Byte} (hk : Keeps s0 s)  : Keeps s0 (State.arriveLoad s o m bs) := by
  unfold State.arriveLoad
  have h1 : ∀ c : Option Chain, ∀ heads : Bool, Keeps s0 (match c with
      | some c => if heads then s.forwardHalves c o.done bs else s
      | none => s) := by
    intro c heads
    split
    · split
      · exact hk.forwardHalves
      · exact hk
    · exact hk
  have h2 : ∀ (s1 : State) (heads : Bool) (err : Option (Nat × Nat)) (b : List Byte) (stage total : Nat), Keeps s0 s1 →
      Keeps s0 (match err with
        | some e =>
          if heads then (s1.advanceLong { o with failed := some e, data := b } b.length).finishLoad
            { o with failed := some e, done := b.length } m
          else s1.failLoad o m e.1 e.2 0
        | none =>
          match (if o.failed.isSome then .inl s1 else s1.wrVa o.h.fn ((s1.model m).dest + o.done) bs : State ⊕ Nat) with
          | .inl s3 => ((s3.advanceLong { o with data := b, stage := stage, total := total } b.length)).finishLoad
              (((s3.advanceLong { o with data := b, stage := stage, total := total } b.length).longOf o.id).getD
                { o with data := b, stage := stage, total := total }) m
          | .inr a => (s1.violate o.h.fn a 4 false false).failLoad o m stViolation 0 (a % 2 ^ 48)) := by
    intro s1 heads err b stage total h
    cases err with
    | some e =>
      dsimp only
      split
      · exact h.advanceLong.finishLoad
      · exact h.failLoad
    | none =>
      dsimp only
      generalize hq : (if o.failed.isSome then .inl s1 else s1.wrVa o.h.fn ((s1.model m).dest + o.done) bs : State ⊕ Nat) = q
      cases q with
      | inl s3 =>
        refine Keeps.finishLoad (Keeps.advanceLong (Keeps.inl_ite hq (fun e => ?_) fun e => ?_))
        · exact Keeps.inl_inj e h
        · exact Keeps.wrVa_eq e h
      | inr a => exact h.violate.failLoad
  exact h2 _ _ _ _ _ _ (h1 _ _)

theorem Keeps.sliceLoad {s0 s : State} {o : LongOp} {q : LoadParams} {image : List Byte} {n : Nat} (hk : Keeps s0 s)  : Keeps s0 (State.sliceLoad s o q image n) := by
  unfold State.sliceLoad
  repeat' first
    | with_reducible assumption
    | with_reducible apply Keeps.violate
    | with_reducible apply Keeps.failLoad
    | with_reducible apply Keeps.arriveLoad
    | split
    | intro _
    | extract_lets
    | with_reducible apply Keeps.other
    | dsimp -zeta only

theorem Keeps.payCredits {s0 s : State} {c : Chain} (hk : Keeps s0 s)  : Keeps s0 (State.payCredits s c) := by
  unfold State.payCredits
  repeat' first
    | with_reducible assumption
    | with_reducible apply Keeps.setPort
    | with_reducible apply Keeps.each
    | split
    | intro _
    | extract_lets
    | with_reducible apply Keeps.other
    | dsimp -zeta only

theorem Keeps.takeChunks {s0 s : State} {op : Nat} {r0 : Nat} (hk : Keeps s0 s)  : Keeps s0 (State.takeChunks op r0 s) := by
  induction r0 generalizing s with
  | zero =>
    rw [State.takeChunks]
    repeat' first
      | with_reducible assumption
      | with_reducible apply Keeps.setLong
      | with_reducible apply Keeps.setChain
      | with_reducible apply Keeps.dropChain
      | with_reducible apply Keeps.tellChain
      | with_reducible apply Keeps.forwardHalves
      | with_reducible apply Keeps.arriveLoad
      | with_reducible apply Keeps.payCredits
      | split
      | intro _
      | extract_lets
      | with_reducible apply Keeps.other
      | dsimp -zeta only
  | succ n ih =>
    rw [State.takeChunks]
    repeat' first
      | with_reducible assumption
      | with_reducible apply Keeps.setLong
      | with_reducible apply Keeps.setChain
      | with_reducible apply Keeps.dropChain
      | with_reducible apply Keeps.tellChain
      | with_reducible apply Keeps.forwardHalves
      | with_reducible apply Keeps.arriveLoad
      | with_reducible apply Keeps.payCredits
      | with_reducible apply ih
      | split
      | intro _
      | extract_lets
      | with_reducible apply Keeps.other
      | dsimp -zeta only

theorem Keeps.giveUpSwap {s0 s : State} {m : Nat} (hk : Keeps s0 s)  : Keeps s0 (State.giveUpSwap s m) := by
  unfold State.giveUpSwap
  repeat' first
    | with_reducible assumption
    | with_reducible apply Keeps.setModel
    | with_reducible apply Keeps.setPlace
    | with_reducible apply Keeps.each
    | split
    | intro _
    | extract_lets
    | with_reducible apply Keeps.other
    | dsimp -zeta only

theorem Keeps.endSwap {s0 s : State} {o : LongOp} {status : Nat} {detail : Nat} {result : Nat} (hk : Keeps s0 s)  : Keeps s0 (State.endSwap s o status detail result) := by
  unfold State.endSwap
  repeat' first
    | with_reducible assumption
    | with_reducible apply Keeps.endLong
    | with_reducible apply Keeps.dropChain
    | with_reducible apply Keeps.cairnReplies
    | split
    | intro _
    | extract_lets
    | dsimp -zeta only

theorem Keeps.leaveChain {s0 s : State} {c : Chain} (hk : Keeps s0 s)  : Keeps s0 (State.leaveChain s c) := by
  unfold State.leaveChain
  repeat' first
    | with_reducible assumption
    | with_reducible apply Keeps.dropChain
    | with_reducible apply Keeps.tellChain
    | with_reducible apply Keeps.payCredits
    | split
    | intro _
    | extract_lets
    | with_reducible apply Keeps.other
    | dsimp -zeta only

theorem Keeps.fenceChain {s0 s : State} {c : Chain} (hk : Keeps s0 s)  : Keeps s0 (State.fenceChain s c) := by
  unfold State.fenceChain
  repeat' first
    | with_reducible assumption
    | with_reducible apply Keeps.failLoad
    | with_reducible apply Keeps.giveUpSwap
    | with_reducible apply Keeps.endSwap
    | with_reducible apply Keeps.leaveChain
    | split
    | intro _
    | extract_lets
    | with_reducible apply Keeps.other
    | dsimp -zeta only

theorem Keeps.svcModelSwap {s0 s : State} {h : Hdr} {q : LoadParams} {image : List Byte} (hk : Keeps s0 s)  : Keeps s0 (State.svcModelSwap s h q image) := by
  unfold State.svcModelSwap
  repeat' first
    | with_reducible assumption
    | with_reducible apply Keeps.setModel
    | with_reducible apply Keeps.checked
    | with_reducible apply Keeps.startLong
    | with_reducible apply Keeps.joinChain
    | split
    | intro _
    | extract_lets
    | with_reducible apply Keeps.other
    | dsimp -zeta only

theorem Keeps.failSwap {s0 s : State} {o : LongOp} {m : Nat} {status : Nat} {detail : Nat} {result : Nat} (hk : Keeps s0 s)  : Keeps s0 (State.failSwap s o m status detail result) := by
  unfold State.failSwap
  repeat' first
    | with_reducible assumption
    | with_reducible apply Keeps.giveUpSwap
    | with_reducible apply Keeps.endSwap
    | split
    | intro _
    | extract_lets
    | dsimp -zeta only

theorem Keeps.checkSwap {s0 s : State} {o : LongOp} {m : Nat} {w : Swap} {q : LoadParams} {b : List Byte} {total : Nat} (hk : Keeps s0 s)  : Keeps s0 (State.checkSwap s o m w q b total) := by
  unfold State.checkSwap
  repeat' first
    | with_reducible assumption
    | with_reducible apply Keeps.setModel
    | with_reducible apply Keeps.each
    | with_reducible apply Keeps.setLong
    | with_reducible apply Keeps.cairn
    | with_reducible apply Keeps.failSwap
    | split
    | intro _
    | extract_lets
    | with_reducible apply Keeps.other
    | dsimp -zeta only

theorem Keeps.refreshLayer {s0 s : State} {m : Nat} {im : Image} {i : Nat} (hk : Keeps s0 s)  : Keeps s0 (State.refreshLayer s m im i) := by
  unfold State.refreshLayer
  repeat' first
    | with_reducible assumption
    | with_reducible apply Keeps.each
    | with_reducible apply Keeps.stageLayer
    | split
    | intro _
    | extract_lets
    | dsimp -zeta only

theorem Keeps.swapLayer_eq {s0 s t : State} {o : LongOp} {m : Nat} {w : Swap} {b : List Byte} {i : Nat}
    (e : s.swapLayer o m w b i = .inl t) (hk : Keeps s0 s) : Keeps s0 t := by
  unfold State.swapLayer at e
  split at e
  · cases e
  · have key : ∀ (rs : List (Nat × Nat)) (a : State ⊕ Nat), (∀ u, a = .inl u → Keeps s0 u) →
        ∀ t, rs.foldl (fun (a : State ⊕ Nat) r => match a with
          | .inl s => match s.wrVa o.h.fn ((s.model m).dest + r.1) ((b.drop r.1).take r.2) with
            | .inl s1 => .inl s1
            | .inr _ => .inr (atLayer i)
          | .inr e => .inr e) a = .inl t → Keeps s0 t := by
      intro rs
      induction rs with
      | nil => intro a ha t h; exact ha t h
      | cons r rs ih =>
        intro a ha t h
        refine ih _ ?_ t h
        intro u hu
        cases a with
        | inr e => cases hu
        | inl s =>
          dsimp only at hu
          split at hu
          · rename_i hw; cases hu; exact Keeps.wrVa_eq hw (ha s rfl)
          · cases hu
    dsimp only at e
    split at e
    · rename_i s1 he
      cases e
      exact (key _ _ (fun u hu => by cases hu; exact hk) s1 he).refreshLayer
    · cases e

theorem Keeps.swapLayers {s0 s : State} {o : LongOp} {m : Nat} {w : Swap} {b : List Byte} {r0 : Nat} {r1 : Nat} (hk : Keeps s0 s)  : Keeps s0 (State.swapLayers o m w b r0 r1 s) := by
  induction r0 generalizing s r1 with
  | zero =>
    rw [State.swapLayers]
    repeat' first
      | with_reducible assumption
      | with_reducible apply Keeps.advanceLong
      | with_reducible apply Keeps.failSwap
      | split
      | intro _
      | extract_lets
      | (with_reducible apply Keeps.swapLayer_eq; with_reducible assumption)
      | with_reducible apply Keeps.other
      | dsimp -zeta only
  | succ n ih =>
    rw [State.swapLayers]
    repeat' first
      | with_reducible assumption
      | with_reducible apply Keeps.advanceLong
      | with_reducible apply Keeps.failSwap
      | with_reducible apply ih
      | split
      | intro _
      | extract_lets
      | (with_reducible apply Keeps.swapLayer_eq; with_reducible assumption)
      | with_reducible apply Keeps.other
      | dsimp -zeta only

theorem Keeps.sliceSwap {s0 s : State} {o : LongOp} {q : LoadParams} {image : List Byte} {n : Nat} (hk : Keeps s0 s) :
    Keeps s0 (State.sliceSwap s o q image n) := by
  have fwd : ∀ (c : Option Chain) (b : List Byte), Keeps s0 (match c with
      | some c => if q.source = 1 then s else s.forwardHalves c 0 (b.take c.total)
      | none => s) := by
    intro c b
    split
    · split
      · exact hk
      · exact hk.forwardHalves
    · exact hk
  unfold State.sliceSwap
  extract_lets m c total waits
  generalize (s.model m).swap = sw
  cases sw with
  | none => exact hk
  | some w =>
    dsimp -zeta only
    clear_value waits total
    cases waits with
    | true => exact hk
    | false =>
      rw [if_neg Bool.false_ne_true]
      generalize s.swapData o q image = d
      cases d with
      | inr a =>
        dsimp only
        split
        · exact hk.violate.failSwap
        · exact hk.violate.failSwap
      | inl b =>
        dsimp only
        split
        · exact (fwd c b).checkSwap
        · split
          · exact hk
          · exact hk.swapLayers

theorem Keeps.svcModelUnload {s0 s : State} {h : Hdr} {modelId : BitVec 16} {byte2 : BitVec 8} {rsv : BitVec 40} (hk : Keeps s0 s)  : Keeps s0 (State.svcModelUnload s h modelId byte2 rsv) := by
  unfold State.svcModelUnload
  repeat' first
    | with_reducible assumption
    | with_reducible apply Keeps.setModel
    | with_reducible apply Keeps.setPlace
    | with_reducible apply Keeps.each
    | with_reducible apply Keeps.checked
    | with_reducible apply Keeps.unloadCheck
    | with_reducible apply Keeps.cairn
    | split
    | intro _
    | extract_lets
    | with_reducible apply Keeps.other
    | dsimp -zeta only

theorem Keeps.svcPlace {s0 s : State} {h : Hdr} {q : PlaceParams} (hk : Keeps s0 s)  : Keeps s0 (State.svcPlace s h q) := by
  unfold State.svcPlace
  repeat' first
    | with_reducible assumption
    | with_reducible apply Keeps.setPlace
    | with_reducible apply Keeps.foldl
    | with_reducible apply Keeps.useFree
    | with_reducible apply Keeps.reply
    | with_reducible apply Keeps.fail
    | with_reducible apply Keeps.checked
    | with_reducible apply Keeps.selPass
    | with_reducible apply Keeps.cairn
    | with_reducible apply Keeps.fencePlace
    | split
    | intro _
    | extract_lets
    | (with_reducible apply Keeps.snd_of_eq; with_reducible assumption)
    | with_reducible apply Keeps.other
    | dsimp -zeta only

end Sys2Proof.Machine
end

