-- ==== Sys2Proof/Laws/KeepsSecurity.lean ====
section
/-! SUPPORT. The operations of Machine/Security.lean keep the queue, the order of times and the canonical form. -/

namespace Sys2Proof.Machine

theorem Keeps.refuseRole {s0 s : State} {h : Hdr} {op : Nat} (hk : Keeps s0 s)  : Keeps s0 (State.refuseRole s h op) := by
  unfold State.refuseRole
  repeat' first
    | with_reducible assumption
    | with_reducible apply Keeps.violate
    | with_reducible apply Keeps.reply
    | split
    | intro _
    | extract_lets
    | dsimp -zeta only

theorem Keeps.svcPartCreate {s0 s : State} {h : Hdr} {part : BitVec 8} {rsv : BitVec 56} {ringArea : BitVec 64} {root : BitVec 64} (hk : Keeps s0 s)  : Keeps s0 (State.svcPartCreate s h part rsv ringArea root) := by
  unfold State.svcPartCreate
  repeat' first
    | with_reducible assumption
    | with_reducible apply Keeps.wrReg
    | with_reducible apply Keeps.setFld
    | with_reducible apply Keeps.setFlag
    | with_reducible apply Keeps.rstReg
    | with_reducible apply Keeps.setPart
    | with_reducible apply Keeps.reply
    | with_reducible apply Keeps.checked
    | with_reducible apply Keeps.freshKey
    | split
    | intro _
    | extract_lets
    | with_reducible apply Keeps.other
    | with_reducible apply Keeps.clearMem
    | dsimp -zeta only

theorem Keeps.svcPartDestroy {s0 s : State} {h : Hdr} {part : BitVec 8} {byte1 : BitVec 8} {rsv : BitVec 48} (hk : Keeps s0 s)  : Keeps s0 (State.svcPartDestroy s h part byte1 rsv) := by
  unfold State.svcPartDestroy
  repeat' first
    | with_reducible assumption
    | with_reducible apply Keeps.checked
    | with_reducible apply Keeps.setLong
    | with_reducible apply Keeps.startLong
    | split
    | intro _
    | extract_lets
    | with_reducible apply Keeps.other
    | dsimp -zeta only

theorem Keeps.clearRanges {s0 s : State} {p : Nat} (hk : Keeps s0 s)  : Keeps s0 (State.clearRanges s p) := by
  unfold State.clearRanges
  repeat' first
    | with_reducible assumption
    | with_reducible apply Keeps.wrReg
    | with_reducible apply Keeps.rstReg
    | with_reducible apply Keeps.each
    | split
    | intro _
    | extract_lets
    | dsimp -zeta only

theorem Keeps.clearPairs {s0 s : State} {f : Nat} (hk : Keeps s0 s)  : Keeps s0 (State.clearPairs s f) := by
  unfold State.clearPairs
  repeat' first
    | with_reducible assumption
    | with_reducible apply Keeps.rstReg
    | with_reducible apply Keeps.setPair
    | with_reducible apply Keeps.each
    | split
    | intro _
    | extract_lets
    | dsimp -zeta only

theorem Keeps.destroyStep {s0 s : State} {p : Nat} {k : Nat} (hk : Keeps s0 s)  : Keeps s0 (State.destroyStep s p k).1 := by
  unfold State.destroyStep
  repeat' first
    | with_reducible assumption
    | with_reducible apply Keeps.wrReg
    | with_reducible apply Keeps.rstReg
    | with_reducible apply Keeps.setPlace
    | with_reducible apply Keeps.setPart
    | with_reducible apply Keeps.each
    | with_reducible apply Keeps.clearKey
    | with_reducible apply Keeps.closeAll
    | with_reducible apply Keeps.dropModels
    | with_reducible apply Keeps.cairn
    | with_reducible apply Keeps.assignTile
    | with_reducible apply Keeps.countTiles
    | with_reducible apply Keeps.clearRanges
    | with_reducible apply Keeps.clearPairs
    | split
    | intro _
    | extract_lets
    | with_reducible apply Keeps.other
    | dsimp -zeta only

theorem Keeps.sliceDestroy {s0 s : State} {o : LongOp} {p : Nat} (hk : Keeps s0 s)  : Keeps s0 (State.sliceDestroy s o p) := by
  unfold State.sliceDestroy
  repeat' first
    | with_reducible assumption
    | with_reducible apply Keeps.setPart
    | with_reducible apply Keeps.endLong
    | with_reducible apply Keeps.advanceLong
    | with_reducible apply Keeps.destroyStep
    | split
    | intro _
    | extract_lets
    | (with_reducible apply Keeps.fst_of_eq; with_reducible assumption)
    | with_reducible apply Keeps.foldlFst
    | with_reducible apply Keeps.other
    | dsimp -zeta only

theorem Keeps.openSess {s0 s : State}  (hk : Keeps s0 s)  : Keeps s0 (State.openSess s) := by
  unfold State.openSess
  repeat' first
    | with_reducible assumption
    | with_reducible apply Keeps.setFld
    | with_reducible apply Keeps.setFlag
    | split
    | intro _
    | extract_lets
    | with_reducible apply Keeps.other
    | dsimp -zeta only

theorem Keeps.authFail {s0 s : State}  (hk : Keeps s0 s)  : Keeps s0 (State.authFail s) := by
  unfold State.authFail
  repeat' first
    | with_reducible assumption
    | with_reducible apply Keeps.bump
    | split
    | intro _
    | extract_lets
    | with_reducible apply Keeps.other
    | dsimp -zeta only

theorem Keeps.svcKeyLoad {s0 s : State} {h : Hdr} {part : BitVec 8} {rsv : BitVec 56} {keyVa : BitVec 64} {keyBytes : BitVec 32} {rsv20 : BitVec 32} {sigOk : Bool} {halvesEqual : Bool} (hk : Keeps s0 s)  : Keeps s0 (State.svcKeyLoad s h part rsv keyVa keyBytes rsv20 sigOk halvesEqual) := by
  unfold State.svcKeyLoad
  repeat' first
    | with_reducible assumption
    | with_reducible apply Keeps.wrReg
    | with_reducible apply Keeps.reply
    | with_reducible apply Keeps.checked
    | with_reducible apply Keeps.freshKey
    | with_reducible apply Keeps.refuseRole
    | with_reducible apply Keeps.openSess
    | with_reducible apply Keeps.authFail
    | split
    | intro _
    | extract_lets
    | with_reducible apply Keeps.other
    | with_reducible apply Keeps.otherFlash
    | dsimp -zeta only

theorem Keeps.svcKeyRetire {s0 s : State} {h : Hdr} {part : BitVec 8} {rsv : BitVec 56} (hk : Keeps s0 s)  : Keeps s0 (State.svcKeyRetire s h part rsv) := by
  unfold State.svcKeyRetire
  repeat' first
    | with_reducible assumption
    | with_reducible apply Keeps.setPlace
    | with_reducible apply Keeps.each
    | with_reducible apply Keeps.checked
    | with_reducible apply Keeps.settle
    | with_reducible apply Keeps.cairn
    | split
    | intro _
    | extract_lets
    | with_reducible apply Keeps.other
    | dsimp -zeta only

theorem Keeps.svcZeroize {s0 s : State} {h : Hdr} {rsv : BitVec 64} (hk : Keeps s0 s)  : Keeps s0 (State.svcZeroize s h rsv) := by
  unfold State.svcZeroize
  repeat' first
    | with_reducible assumption
    | with_reducible apply Keeps.checked
    | with_reducible apply Keeps.startLong
    | with_reducible apply Keeps.zeroBegin
    | split
    | intro _
    | extract_lets
    | dsimp -zeta only

theorem Keeps.sliceZeroize {s0 s : State} {o : LongOp} (hk : Keeps s0 s)  : Keeps s0 (State.sliceZeroize s o) := by
  unfold State.sliceZeroize
  repeat' first
    | with_reducible assumption
    | with_reducible apply Keeps.each
    | with_reducible apply Keeps.advanceLong
    | with_reducible apply Keeps.zeroEmpty
    | with_reducible apply Keeps.zeroScrub
    | with_reducible apply Keeps.zeroRekey
    | with_reducible apply Keeps.zeroReplies
    | with_reducible apply Keeps.cairn
    | split
    | intro _
    | extract_lets
    | with_reducible apply Keeps.other
    | dsimp -zeta only

theorem Keeps.enterError {s0 s : State} {cause : Nat} {place : Nat} (hk : Keeps s0 s)  : Keeps s0 (State.enterError s cause place) := by
  unfold State.enterError
  repeat' first
    | with_reducible assumption
    | with_reducible apply Keeps.setFld
    | with_reducible apply Keeps.setFlag
    | with_reducible apply Keeps.fault
    | split
    | intro _
    | extract_lets
    | dsimp -zeta only

end Sys2Proof.Machine
end

