-- ==== Sys2Proof/Laws/KeepsErrors.lean ====
section
/-! SUPPORT. The operations of Machine/Errors.lean keep the queue, the order of times and the canonical form. -/

namespace Sys2Proof.Machine

theorem Keeps.mapChanged {s0 s : State}  (hk : Keeps s0 s)  : Keeps s0 (State.mapChanged s) := by
  unfold State.mapChanged
  repeat' first
    | with_reducible assumption
    | split
    | intro _
    | extract_lets
    | with_reducible apply Keeps.other
    | dsimp -zeta only

theorem Keeps.dropRuns {s0 s : State} {i : Nat} (hk : Keeps s0 s)  : Keeps s0 (State.dropRuns s i) := by
  unfold State.dropRuns
  repeat' first
    | with_reducible assumption
    | with_reducible apply Keeps.each
    | with_reducible apply Keeps.calEnds
    | with_reducible apply Keeps.abandonRuns
    | split
    | intro _
    | extract_lets
    | with_reducible apply Keeps.other
    | dsimp -zeta only

theorem Keeps.fenceIndex {s0 s : State} {l : Nat} (hk : Keeps s0 s)  : Keeps s0 (State.fenceIndex s l) := by
  unfold State.fenceIndex
  repeat' first
    | with_reducible assumption
    | with_reducible apply Keeps.setCtx
    | with_reducible apply Keeps.setPlace
    | with_reducible apply Keeps.each
    | with_reducible apply Keeps.putCtx
    | with_reducible apply Keeps.complete
    | split
    | intro _
    | extract_lets
    | with_reducible apply Keeps.other
    | dsimp -zeta only

theorem Keeps.chooseSpare {s0 s : State} {q : Nat} (hk : Keeps s0 s)  : Keeps s0 (State.chooseSpare s q).2 := by
  unfold State.chooseSpare
  repeat' first
    | with_reducible assumption
    | with_reducible apply Keeps.useFree
    | split
    | intro _
    | extract_lets
    | dsimp -zeta only

theorem Keeps.physRetired {s0 s : State} {i : Nat} (hk : Keeps s0 s)  : Keeps s0 (State.physRetired s i) := by
  unfold State.physRetired
  repeat' first
    | with_reducible assumption
    | with_reducible apply Keeps.wrReg
    | with_reducible apply Keeps.setTile
    | with_reducible apply Keeps.each
    | with_reducible apply Keeps.mapChanged
    | with_reducible apply Keeps.dropRuns
    | with_reducible apply Keeps.chooseSpare
    | split
    | intro _
    | extract_lets
    | (with_reducible apply Keeps.snd_of_eq; with_reducible assumption)
    | with_reducible apply Keeps.other
    | dsimp -zeta only

theorem Keeps.restage {s0 s : State} {t : Nat} (hk : Keeps s0 s)  : Keeps s0 (State.restage s t) := by
  unfold State.restage
  repeat' first
    | with_reducible assumption
    | with_reducible apply Keeps.setFld
    | with_reducible apply Keeps.rstReg
    | with_reducible apply Keeps.setPlace
    | with_reducible apply Keeps.setTile
    | with_reducible apply Keeps.each
    | with_reducible apply Keeps.stageTile
    | split
    | intro _
    | extract_lets
    | with_reducible apply Keeps.other
    | dsimp -zeta only

theorem Keeps.replaceTile {s0 s : State} {t : Nat} (hk : Keeps s0 s)  : Keeps s0 (State.replaceTile s t) := by
  unfold State.replaceTile
  repeat' first
    | with_reducible assumption
    | with_reducible apply Keeps.wrReg
    | with_reducible apply Keeps.setFld
    | with_reducible apply Keeps.setFlag
    | with_reducible apply Keeps.bump
    | with_reducible apply Keeps.rstReg
    | with_reducible apply Keeps.setTile
    | with_reducible apply Keeps.each
    | with_reducible apply Keeps.fenceIndex
    | with_reducible apply Keeps.physRetired
    | with_reducible apply Keeps.restage
    | split
    | intro _
    | extract_lets
    | with_reducible apply Keeps.other
    | dsimp -zeta only

theorem Keeps.replaceAll {s0 s : State} {ts : List Nat} (hk : Keeps s0 s)  : Keeps s0 (State.replaceAll s ts) := by
  unfold State.replaceAll
  repeat' first
    | with_reducible assumption
    | with_reducible apply Keeps.each
    | with_reducible apply Keeps.replaceTile
    | split
    | intro _
    | extract_lets
    | dsimp -zeta only

theorem Keeps.replayPass {s0 s : State} {t : Nat} (hk : Keeps s0 s)  : Keeps s0 (State.replayPass s t) := by
  unfold State.replayPass
  repeat' first
    | with_reducible assumption
    | with_reducible apply Keeps.bump
    | with_reducible apply Keeps.setTile
    | with_reducible apply Keeps.selPass
    | split
    | intro _
    | extract_lets
    | with_reducible apply Keeps.other
    | dsimp -zeta only

theorem Keeps.decideRetire {s0 s : State} {t : Nat} {cause : Nat} (hk : Keeps s0 s)  : Keeps s0 (State.decideRetire s t cause) := by
  unfold State.decideRetire
  repeat' first
    | with_reducible assumption
    | with_reducible apply Keeps.setTile
    | with_reducible apply Keeps.each
    | with_reducible apply Keeps.fault
    | with_reducible apply Keeps.abandon
    | with_reducible apply Keeps.chooseSpare
    | with_reducible apply Keeps.replaceAll
    | with_reducible apply Keeps.replayPass
    | split
    | intro _
    | extract_lets
    | (with_reducible apply Keeps.snd_of_eq; with_reducible assumption)
    | with_reducible apply Keeps.other
    | dsimp -zeta only

theorem Keeps.quadCairn {s0 s : State} {q : Nat} (hk : Keeps s0 s)  : Keeps s0 (State.quadCairn s q) := by
  unfold State.quadCairn
  repeat' first
    | with_reducible assumption
    | with_reducible apply Keeps.replaceAll
    | split
    | intro _
    | extract_lets
    | with_reducible apply Keeps.other
    | dsimp -zeta only

theorem Keeps.stepRestart {s0 s : State} {l : Nat} {t : Nat} (hk : Keeps s0 s)  : Keeps s0 (State.stepRestart s l t) := by
  unfold State.stepRestart
  repeat' first
    | with_reducible assumption
    | with_reducible apply Keeps.bump
    | with_reducible apply Keeps.setPlace
    | with_reducible apply Keeps.each
    | with_reducible apply Keeps.fault
    | with_reducible apply Keeps.dropWork
    | split
    | intro _
    | extract_lets
    | with_reducible apply Keeps.other
    | dsimp -zeta only

theorem Keeps.fenceModel {s0 s : State} {m : Nat} {a : Nat} (hk : Keeps s0 s)  : Keeps s0 (State.fenceModel s m a) := by
  unfold State.fenceModel
  repeat' first
    | with_reducible assumption
    | with_reducible apply Keeps.each
    | with_reducible apply Keeps.ueAt
    | with_reducible apply Keeps.fencePlace
    | split
    | intro _
    | extract_lets
    | dsimp -zeta only

theorem Keeps.dropForPage {s0 s : State} {l : Nat} {i : Nat} {a : Nat} (hk : Keeps s0 s)  : Keeps s0 (State.dropForPage s l i a) := by
  unfold State.dropForPage
  repeat' first
    | with_reducible assumption
    | with_reducible apply Keeps.ueAt
    | with_reducible apply Keeps.setSlot
    | split
    | intro _
    | extract_lets
    | with_reducible apply Keeps.other
    | dsimp -zeta only

theorem Keeps.tileWord {s0 s : State} {t : Nat} {off : Nat} (hk : Keeps s0 s)  : Keeps s0 (State.tileWord s t off) := by
  unfold State.tileWord
  repeat' first
    | with_reducible assumption
    | with_reducible apply Keeps.bump
    | with_reducible apply Keeps.setTile
    | with_reducible apply Keeps.each
    | with_reducible apply Keeps.fault
    | with_reducible apply Keeps.stageTile
    | with_reducible apply Keeps.stepRestart
    | split
    | intro _
    | extract_lets
    | with_reducible apply Keeps.other
    | dsimp -zeta only

theorem Keeps.taint {s0 s : State} {u : Nat} (hk : Keeps s0 s)  : Keeps s0 (State.taint s u) := by
  unfold State.taint
  repeat' first
    | with_reducible assumption
    | split
    | intro _
    | extract_lets
    | with_reducible apply Keeps.other
    | with_reducible apply Keeps.poison
    | dsimp -zeta only

theorem Keeps.keepRet {s0 s : State} {i : Nat} (hk : Keeps s0 s)  : Keeps s0 (State.keepRet s i) := by
  unfold State.keepRet
  repeat' first
    | with_reducible assumption
    | with_reducible apply Keeps.noteFlash
    | with_reducible apply Keeps.decideRetire
    | split
    | intro _
    | extract_lets
    | with_reducible apply Keeps.other
    | dsimp -zeta only

theorem Keeps.sliceOn {s0 s : State} {i : Nat} {kind : Nat} (hk : Keeps s0 s)  : Keeps s0 (State.sliceOn s i kind) := by
  unfold State.sliceOn
  repeat' first
    | with_reducible assumption
    | with_reducible apply Keeps.setPlace
    | with_reducible apply Keeps.setPhy
    | with_reducible apply Keeps.each
    | split
    | intro _
    | extract_lets
    | with_reducible apply Keeps.other
    | dsimp -zeta only

end Sys2Proof.Machine
end

