-- ==== Sys2Proof/Laws/KeepsLiveTests.lean ====
section
/-! SUPPORT. The operations of Machine/LiveTests.lean keep the queue, the order of times and the canonical form. -/

namespace Sys2Proof.Machine

theorem Keeps.setTestWord {s0 s : State} {k : Nat} {v : Word64} (hk : Keeps s0 s)  : Keeps s0 (State.setTestWord s k v) := by
  unfold State.setTestWord
  repeat' first
    | with_reducible assumption
    | with_reducible apply Keeps.wrReg
    | with_reducible apply Keeps.setPhy
    | split
    | intro _
    | extract_lets
    | with_reducible apply Keeps.other
    | dsimp -zeta only

theorem Keeps.setTestFld {s0 s : State} {k : Nat} {f : Field} {v : Nat} (hk : Keeps s0 s)  : Keeps s0 (State.setTestFld s k f v) := by
  unfold State.setTestFld
  repeat' first
    | with_reducible assumption
    | with_reducible apply Keeps.setTestWord
    | split
    | intro _
    | extract_lets
    | dsimp -zeta only

theorem Keeps.onTest {s0 s : State} {k : Nat} {f : Phys → Phys} (hk : Keeps s0 s)  : Keeps s0 (State.onTest s k f) := by
  unfold State.onTest
  repeat' first
    | with_reducible assumption
    | with_reducible apply Keeps.setPhy
    | split
    | intro _
    | extract_lets
    | with_reducible apply Keeps.other
    | dsimp -zeta only

theorem Keeps.makeDue {s0 s : State} {k : Nat} {round : Nat} (hk : Keeps s0 s)  : Keeps s0 (State.makeDue s k round) := by
  unfold State.makeDue
  repeat' first
    | with_reducible assumption
    | with_reducible apply Keeps.setTestFld
    | with_reducible apply Keeps.onTest
    | split
    | intro _
    | extract_lets
    | with_reducible apply Keeps.other
    | dsimp -zeta only

theorem Keeps.freshHolds {s0 s : State} {k : Nat} (hk : Keeps s0 s)  : Keeps s0 (State.freshHolds s k) := by
  unfold State.freshHolds
  repeat' first
    | with_reducible assumption
    | with_reducible apply Keeps.setPlace
    | with_reducible apply Keeps.each
    | with_reducible apply Keeps.dropAhead
    | split
    | intro _
    | extract_lets
    | with_reducible apply Keeps.other
    | dsimp -zeta only

theorem Keeps.testEnds {s0 s : State} {k : Nat} (hk : Keeps s0 s)  : Keeps s0 (State.testEnds s k) := by
  unfold State.testEnds
  repeat' first
    | with_reducible assumption
    | with_reducible apply Keeps.each
    | with_reducible apply Keeps.endLong
    | with_reducible apply Keeps.advanceLong
    | split
    | intro _
    | extract_lets
    | with_reducible apply Keeps.other
    | dsimp -zeta only

theorem Keeps.failTest {s0 s : State} {k : Nat} (hk : Keeps s0 s)  : Keeps s0 (State.failTest s k) := by
  unfold State.failTest
  repeat' first
    | with_reducible assumption
    | with_reducible apply Keeps.setFld
    | with_reducible apply Keeps.bump
    | with_reducible apply Keeps.physRetired
    | with_reducible apply Keeps.decideRetire
    | with_reducible apply Keeps.setTestFld
    | split
    | intro _
    | extract_lets
    | dsimp -zeta only

theorem Keeps.endRound {s0 s : State} {k : Nat} {pass : Bool} (hk : Keeps s0 s)  : Keeps s0 (State.endRound s k pass) := by
  unfold State.endRound
  repeat' first
    | with_reducible assumption
    | with_reducible apply Keeps.bump
    | with_reducible apply Keeps.setTestWord
    | with_reducible apply Keeps.setTestFld
    | with_reducible apply Keeps.onTest
    | with_reducible apply Keeps.freshHolds
    | with_reducible apply Keeps.testEnds
    | with_reducible apply Keeps.failTest
    | split
    | intro _
    | extract_lets
    | with_reducible apply Keeps.other
    | dsimp -zeta only

theorem Keeps.endLone {s0 s : State} {k : Nat} (hk : Keeps s0 s)  : Keeps s0 (State.endLone s k) := by
  unfold State.endLone
  repeat' first
    | with_reducible assumption
    | with_reducible apply Keeps.useFree
    | with_reducible apply Keeps.endRound
    | split
    | intro _
    | extract_lets
    | dsimp -zeta only

theorem Keeps.judge {s0 s : State} {k : Nat} (hk : Keeps s0 s)  : Keeps s0 (State.judge s k) := by
  unfold State.judge
  repeat' first
    | with_reducible assumption
    | with_reducible apply Keeps.setTestFld
    | with_reducible apply Keeps.endRound
    | with_reducible apply Keeps.endLone
    | split
    | intro _
    | extract_lets
    | with_reducible apply Keeps.other
    | dsimp -zeta only

theorem Keeps.record {s0 s : State} {k : Nat} {sig : Word64} (hk : Keeps s0 s)  : Keeps s0 (State.record s k sig) := by
  unfold State.record
  repeat' first
    | with_reducible assumption
    | with_reducible apply Keeps.setTestFld
    | with_reducible apply Keeps.onTest
    | split
    | intro _
    | extract_lets
    | with_reducible apply Keeps.other
    | dsimp -zeta only

theorem Keeps.judgeThird {s0 s : State} {z : Nat} {b : Nat} {m : Nat} {sig : Word64} (hk : Keeps s0 s)  : Keeps s0 (State.judgeThird s z b m sig) := by
  unfold State.judgeThird
  repeat' first
    | with_reducible assumption
    | with_reducible apply Keeps.failTest
    | with_reducible apply Keeps.endRound
    | split
    | intro _
    | extract_lets
    | dsimp -zeta only

theorem Keeps.withdraw {s0 s : State} {k : Nat} {overdue : Bool} (hk : Keeps s0 s)  : Keeps s0 (State.withdraw s k overdue) := by
  unfold State.withdraw
  repeat' first
    | with_reducible assumption
    | with_reducible apply Keeps.setTile
    | with_reducible apply Keeps.fault
    | with_reducible apply Keeps.setTestFld
    | with_reducible apply Keeps.onTest
    | with_reducible apply Keeps.makeDue
    | with_reducible apply Keeps.freshHolds
    | split
    | intro _
    | extract_lets
    | with_reducible apply Keeps.other
    | dsimp -zeta only

theorem Keeps.onePiece {s0 s : State} {k : Nat} {sig : Word64} (hk : Keeps s0 s)  : Keeps s0 (State.onePiece s k sig) := by
  unfold State.onePiece
  repeat' first
    | with_reducible assumption
    | with_reducible apply Keeps.setTestFld
    | with_reducible apply Keeps.onTest
    | with_reducible apply Keeps.freshHolds
    | with_reducible apply Keeps.endLone
    | with_reducible apply Keeps.judge
    | with_reducible apply Keeps.record
    | split
    | intro _
    | extract_lets
    | with_reducible apply Keeps.other
    | dsimp -zeta only

theorem Keeps.svcTestRun {s0 s : State} {h : Hdr} {tile : BitVec 16} {kind : BitVec 8} {rsv : BitVec 40} (hk : Keeps s0 s)  : Keeps s0 (State.svcTestRun s h tile kind rsv) := by
  unfold State.svcTestRun
  repeat' first
    | with_reducible assumption
    | with_reducible apply Keeps.foldl
    | with_reducible apply Keeps.each
    | with_reducible apply Keeps.checked
    | with_reducible apply Keeps.setLong
    | with_reducible apply Keeps.startLong
    | with_reducible apply Keeps.endLong
    | with_reducible apply Keeps.onTest
    | with_reducible apply Keeps.makeDue
    | split
    | intro _
    | extract_lets
    | (with_reducible apply Keeps.snd_of_eq; with_reducible assumption)
    | with_reducible apply Keeps.other
    | dsimp -zeta only

end Sys2Proof.Machine
end

