-- ==== Sys2Proof/Laws/KeepsArrays.lean ====
section
/-! SUPPORT. The operations of Machine/Arrays.lean keep the queue, the order of times and the canonical form. -/

namespace Sys2Proof.Machine

theorem Keeps.retireCol {s0 s : State} {i : Nat} {no : Nat} {j : Nat} (hk : Keeps s0 s)  : Keeps s0 (State.retireCol s i no j) := by
  unfold State.retireCol
  repeat' first
    | with_reducible assumption
    | with_reducible apply Keeps.setPhy
    | with_reducible apply Keeps.foldl
    | with_reducible apply Keeps.keepRet
    | split
    | intro _
    | extract_lets
    | with_reducible apply Keeps.other
    | dsimp -zeta only

theorem Keeps.fetchAhead {s0 s : State} {t : Nat} {w : WriteOf} {layer : Nat} {e : Nat} (hk : Keeps s0 s)  : Keeps s0 (State.fetchAhead s t w layer e).1 := by
  unfold State.fetchAhead
  repeat' first
    | with_reducible assumption
    | with_reducible apply Keeps.bump
    | with_reducible apply Keeps.putCopy
    | split
    | intro _
    | extract_lets
    | with_reducible apply Keeps.other
    | dsimp -zeta only

theorem Keeps.writeArray {s0 s : State} {t : Nat} {i : Nat} {no : Nat} {w : WriteOf} {cp : ShareCopy} {pslot : Nat} {layer : Nat} {digit : Nat} {dup : Bool} {chunk : Nat} (hk : Keeps s0 s)  : Keeps s0 (State.writeArray s t i no w cp pslot layer digit dup chunk) := by
  unfold State.writeArray
  repeat' first
    | with_reducible assumption
    | with_reducible apply Keeps.setPhy
    | with_reducible apply Keeps.foldl
    | with_reducible apply Keeps.each
    | with_reducible apply Keeps.asOf
    | with_reducible apply Keeps.decideRetire
    | with_reducible apply Keeps.retireCol
    | split
    | intro _
    | extract_lets
    | with_reducible apply Keeps.other
    | dsimp -zeta only

end Sys2Proof.Machine
end

