-- ==== Sys2Proof/Laws/KeepsMordant.lean ====
section
/-! SUPPORT. The operations of Machine/Mordant.lean keep the queue, the order of times and the canonical form. -/

namespace Sys2Proof.Machine

theorem Keeps.roundFor {s0 s : State} {t : Nat} {i : Nat} {x : Pass} {gen : Nat} {chunks : Nat} {D : Nat} {profile : Nat} (hk : Keeps s0 s)  : Keeps s0 (State.roundFor s t i x gen chunks D profile).1 := by
  unfold State.roundFor
  repeat' first
    | with_reducible assumption
    | with_reducible apply Keeps.bump
    | split
    | intro _
    | extract_lets
    | with_reducible apply Keeps.other
    | dsimp -zeta only

theorem Keeps.readyPass {s0 s : State} {t : Nat} {i : Nat} {x : Pass} {gen : Nat} {chunks : Nat} {D : Nat} {profile : Nat} (hk : Keeps s0 s)  : Keeps s0 (State.readyPass s t i x gen chunks D profile) := by
  unfold State.readyPass
  repeat' first
    | with_reducible assumption
    | with_reducible apply Keeps.setTile
    | with_reducible apply Keeps.roundFor
    | split
    | intro _
    | extract_lets
    | (with_reducible apply Keeps.fst_of_eq; with_reducible assumption)
    | with_reducible apply Keeps.foldlFst
    | with_reducible apply Keeps.other
    | dsimp -zeta only

theorem Keeps.needCopy {s0 s : State} {t : Nat} {l : Nat} {layer : Nat} {expert : Nat} {gen : Nat} {x : Model} {y : Layer} {sh : Share} (hk : Keeps s0 s)  : Keeps s0 (State.needCopy s t l layer expert gen x y sh).1 := by
  unfold State.needCopy
  repeat' first
    | with_reducible assumption
    | with_reducible apply Keeps.setPlace
    | with_reducible apply Keeps.violate
    | with_reducible apply Keeps.putCopy
    | with_reducible apply Keeps.fenceModel
    | split
    | intro _
    | extract_lets
    | with_reducible apply Keeps.other
    | dsimp -zeta only

theorem Keeps.startPass {s0 s : State} {t : Nat} {i : Nat} {st : Step} {y : Layer} {sh : Share} {p0 : Pass} {part : Nat} (hk : Keeps s0 s)  : Keeps s0 (State.startPass s t i st y sh p0 part) := by
  unfold State.startPass
  repeat' first
    | with_reducible assumption
    | with_reducible apply Keeps.bumpBy
    | with_reducible apply Keeps.bump
    | with_reducible apply Keeps.setTile
    | with_reducible apply Keeps.readyPass
    | split
    | intro _
    | extract_lets
    | with_reducible apply Keeps.other
    | dsimp -zeta only

theorem Keeps.checkArr {s0 s : State} {v : PassEnv} {x : Pass} {no : Nat} {act : List Int} {groups : List (List Nat)} {ss : List (List (Int × Nat))} (hk : Keeps s0 s)  : Keeps s0 (State.checkArr s v x no act groups ss).1 := by
  unfold State.checkArr
  repeat' first
    | with_reducible assumption
    | with_reducible apply Keeps.bumpBy
    | with_reducible apply Keeps.bump
    | with_reducible apply Keeps.setPhy
    | with_reducible apply Keeps.useFree
    | split
    | intro _
    | extract_lets
    | (with_reducible apply Keeps.fst_of_eq; with_reducible assumption)
    | with_reducible apply Keeps.foldlFst
    | with_reducible apply Keeps.other
    | dsimp -zeta only

theorem Keeps.readOne {s0 s : State} {v : PassEnv} {x : Pass} {vec : Nat} {c : Nat} {d : Nat} {act : List Int} {groups : List (List Nat)} (hk : Keeps s0 s)  : Keeps s0 (State.readOne s v x vec c d act groups).1 := by
  unfold State.readOne
  repeat' first
    | with_reducible assumption
    | with_reducible apply Keeps.bump
    | with_reducible apply Keeps.foldl
    | with_reducible apply Keeps.calHold
    | with_reducible apply Keeps.selTake
    | with_reducible apply Keeps.checkArr
    | split
    | intro _
    | extract_lets
    | (with_reducible apply Keeps.fst_of_eq; with_reducible assumption)
    | with_reducible apply Keeps.foldlFst
    | with_reducible apply Keeps.addFree
    | with_reducible apply Keeps.other
    | dsimp -zeta only

theorem Keeps.readChunk {s0 s : State} {v : PassEnv} {x : Pass} {vec : Nat} {c : Nat} (hk : Keeps s0 s)  : Keeps s0 (State.readChunk s v x vec c).1 := by
  unfold State.readChunk
  repeat' first
    | with_reducible assumption
    | with_reducible apply Keeps.bumpBy
    | with_reducible apply Keeps.foldl
    | with_reducible apply Keeps.readOne
    | split
    | intro _
    | extract_lets
    | (with_reducible apply Keeps.fst_of_eq; with_reducible assumption)
    | with_reducible apply Keeps.foldlFst
    | (with_reducible apply Keeps.snd_of_eq; with_reducible assumption)
    | with_reducible apply Keeps.other
    | dsimp -zeta only

theorem Keeps.deliver {s0 s : State} {v : PassEnv} {x : Pass} (hk : Keeps s0 s)  : Keeps s0 (State.deliver s v x).1 := by
  unfold State.deliver
  repeat' first
    | with_reducible assumption
    | with_reducible apply Keeps.foldl
    | with_reducible apply Keeps.readChunk
    | split
    | intro _
    | extract_lets
    | (with_reducible apply Keeps.fst_of_eq; with_reducible assumption)
    | with_reducible apply Keeps.foldlFst
    | dsimp -zeta only

theorem Keeps.dropSlot {s0 s : State} {l : Nat} {i : Nat} {status : Nat} (hk : Keeps s0 s)  : Keeps s0 (State.dropSlot s l i status) := by
  unfold State.dropSlot
  repeat' first
    | with_reducible assumption
    | with_reducible apply Keeps.setSlot
    | split
    | intro _
    | extract_lets
    | with_reducible apply Keeps.other
    | dsimp -zeta only

theorem Keeps.putEntry {s0 s : State} {l : Nat} {i : Nat} {va : Nat} {n : Nat} {slot : Nat} {cross : Bool} {k : List Byte} {v : List Byte} (hk : Keeps s0 s)  : Keeps s0 (State.putEntry s l i va n slot cross k v) := by
  unfold State.putEntry
  repeat' first
    | with_reducible assumption
    | with_reducible apply Keeps.setAux
    | with_reducible apply Keeps.violate
    | with_reducible apply Keeps.asOf
    | with_reducible apply Keeps.backFrom
    | with_reducible apply Keeps.popFor
    | with_reducible apply Keeps.starve
    | with_reducible apply Keeps.noTable
    | with_reducible apply Keeps.dropSlot
    | split
    | intro _
    | extract_lets
    | (with_reducible apply Keeps.wrVa_eq; with_reducible assumption)
    | (with_reducible apply Keeps.fst_of_eq; with_reducible assumption)
    | with_reducible apply Keeps.foldlFst
    | with_reducible apply Keeps.other
    | dsimp -zeta only

theorem Keeps.append {s0 s : State} {t : Nat} {l : Nat} {layer : Nat} {e : KvEntry} (hk : Keeps s0 s)  : Keeps s0 (State.append s t l layer e) := by
  unfold State.append
  repeat' first
    | with_reducible assumption
    | with_reducible apply Keeps.bumpBy
    | with_reducible apply Keeps.setAux
    | with_reducible apply Keeps.wrMem
    | with_reducible apply Keeps.selTake
    | with_reducible apply Keeps.putEntry
    | split
    | intro _
    | extract_lets
    | with_reducible apply Keeps.other
    | dsimp -zeta only

theorem Keeps.layerCount {s0 s : State} {l : Nat} {layer : Nat} {d6 : Nat} {d8 : Nat} {dd : Nat} {dp : Nat} (hk : Keeps s0 s)  : Keeps s0 (State.layerCount s l layer d6 d8 dd dp) := by
  unfold State.layerCount
  repeat' first
    | with_reducible assumption
    | with_reducible apply Keeps.setPlace
    | split
    | intro _
    | extract_lets
    | with_reducible apply Keeps.other
    | dsimp -zeta only

theorem Keeps.markRan {s0 s : State} {l : Nat} {t : Nat} {layer : Nat} (hk : Keeps s0 s)  : Keeps s0 (State.markRan s l t layer) := by
  unfold State.markRan
  repeat' first
    | with_reducible assumption
    | with_reducible apply Keeps.setPlace
    | split
    | intro _
    | extract_lets
    | with_reducible apply Keeps.other
    | dsimp -zeta only

theorem Keeps.countClimb {s0 s : State} {t : Nat} {x : Pass} {up : Nat} (hk : Keeps s0 s)  : Keeps s0 (State.countClimb s t x up) := by
  unfold State.countClimb
  repeat' first
    | with_reducible assumption
    | with_reducible apply Keeps.bump
    | with_reducible apply Keeps.layerCount
    | split
    | intro _
    | extract_lets
    | dsimp -zeta only

theorem Keeps.retireArr {s0 s : State} {t : Nat} {i : Nat} {no : Nat} (hk : Keeps s0 s)  : Keeps s0 (State.retireArr s t i no) := by
  unfold State.retireArr
  repeat' first
    | with_reducible assumption
    | with_reducible apply Keeps.setPhy
    | with_reducible apply Keeps.fault
    | with_reducible apply Keeps.decideRetire
    | with_reducible apply Keeps.keepRet
    | split
    | intro _
    | extract_lets
    | with_reducible apply Keeps.other
    | dsimp -zeta only

theorem Keeps.putOut {s0 s : State} {t : Nat} {o : TileOut} (hk : Keeps s0 s)  : Keeps s0 (State.putOut s t o) := by
  unfold State.putOut
  repeat' first
    | with_reducible assumption
    | with_reducible apply Keeps.setTile
    | split
    | intro _
    | extract_lets
    | with_reducible apply Keeps.other
    | dsimp -zeta only

theorem Keeps.forward {s0 s : State} {t : Nat} {st : Step} {x : Pass} {y : Layer} {sh : Share} {sums : List (List FAcc)} {appends : List KvEntry} (hk : Keeps s0 s)  : Keeps s0 (State.forward s t st x y sh sums appends) := by
  unfold State.forward
  repeat' first
    | with_reducible assumption
    | with_reducible apply Keeps.bumpBy
    | with_reducible apply Keeps.each
    | with_reducible apply Keeps.append
    | with_reducible apply Keeps.layerCount
    | with_reducible apply Keeps.markRan
    | with_reducible apply Keeps.putOut
    | split
    | intro _
    | extract_lets
    | with_reducible apply Keeps.other
    | dsimp -zeta only

theorem Keeps.countRead {s0 s : State} {t : Nat} {x : Pass} {sat : Nat} (hk : Keeps s0 s)  : Keeps s0 (State.countRead s t x sat) := by
  unfold State.countRead
  repeat' first
    | with_reducible assumption
    | with_reducible apply Keeps.bumpBy
    | split
    | intro _
    | extract_lets
    | dsimp -zeta only

theorem Keeps.decideClimb {s0 s : State} {t : Nat} {i : Nat} {env : PassEnv} {st : Step} {x : Pass} {cp : ShareCopy} {y : Layer} {sh : Share} {appends : List KvEntry} (hk : Keeps s0 s)  : Keeps s0 (State.decideClimb s t i env st x cp y sh appends) := by
  unfold State.decideClimb
  repeat' first
    | with_reducible assumption
    | with_reducible apply Keeps.readyPass
    | with_reducible apply Keeps.countClimb
    | with_reducible apply Keeps.forward
    | with_reducible apply Keeps.countRead
    | split
    | intro _
    | extract_lets
    | (with_reducible apply Keeps.snd_of_eq; with_reducible assumption)
    | with_reducible apply Keeps.other
    | dsimp -zeta only

theorem Keeps.residueTwice {s0 s : State} {t : Nat} {x : Pass} (hk : Keeps s0 s)  : Keeps s0 (State.residueTwice s t x) := by
  unfold State.residueTwice
  repeat' first
    | with_reducible assumption
    | with_reducible apply Keeps.setTile
    | with_reducible apply Keeps.selPass
    | with_reducible apply Keeps.decideRetire
    | split
    | intro _
    | extract_lets
    | with_reducible apply Keeps.other
    | dsimp -zeta only

theorem Keeps.mismatch {s0 s : State} {t : Nat} {i : Nat} {env : PassEnv} {x : Pass} {y : Layer} {sh : Share} {residue : Bool} (hk : Keeps s0 s)  : Keeps s0 (State.mismatch s t i env x y sh residue) := by
  unfold State.mismatch
  repeat' first
    | with_reducible assumption
    | with_reducible apply Keeps.setTile
    | with_reducible apply Keeps.each
    | with_reducible apply Keeps.selPass
    | with_reducible apply Keeps.readyPass
    | with_reducible apply Keeps.retireArr
    | with_reducible apply Keeps.residueTwice
    | split
    | intro _
    | extract_lets
    | with_reducible apply Keeps.other
    | dsimp -zeta only

end Sys2Proof.Machine
end

