-- ==== Sys2Proof/Laws/KeepsIndigo.lean ====
section
/-! SUPPORT. The operations of Machine/Indigo.lean keep the queue, the order of times and the canonical form. -/

namespace Sys2Proof.Machine

theorem Keeps.sbSegment {s0 s : State} {v : AttnEnv} {off : Nat} {seg : Nat} (hk : Keeps s0 s)  : Keeps s0 (State.sbSegment s v off seg).1 := by
  unfold State.sbSegment
  repeat' first
    | with_reducible assumption
    | with_reducible apply Keeps.setTile
    | split
    | intro _
    | extract_lets
    | with_reducible apply Keeps.other
    | dsimp -zeta only

theorem Keeps.kvFail {s0 s : State} {v : AttnEnv} {r : KvRead} (hk : Keeps s0 s)  : Keeps s0 (State.kvFail s v r) := by
  unfold State.kvFail
  repeat' first
    | with_reducible assumption
    | with_reducible apply Keeps.setTile
    | with_reducible apply Keeps.fault
    | with_reducible apply Keeps.violate
    | with_reducible apply Keeps.dropForPage
    | with_reducible apply Keeps.dropSlot
    | split
    | intro _
    | extract_lets
    | with_reducible apply Keeps.other
    | dsimp -zeta only

theorem Keeps.setAttn {s0 s : State} {t : Nat} {a : Attn} (hk : Keeps s0 s)  : Keeps s0 (State.setAttn s t a) := by
  unfold State.setAttn
  repeat' first
    | with_reducible assumption
    | with_reducible apply Keeps.setTile
    | split
    | intro _
    | extract_lets
    | with_reducible apply Keeps.other
    | dsimp -zeta only

theorem Keeps.scoreRow {s0 s : State} {v : AttnEnv} {exact : Bool} {seg : Nat} {i : Nat} {keys : List (Int × List Int)} {a : Attn} (hk : Keeps s0 s)  : Keeps s0 (State.scoreRow s v exact seg i keys a).1 := by
  unfold State.scoreRow
  repeat' first
    | with_reducible assumption
    | with_reducible apply Keeps.bumpBy
    | split
    | intro _
    | extract_lets
    | with_reducible apply Keeps.addFree
    | with_reducible apply Keeps.other
    | dsimp -zeta only

theorem Keeps.passEnds {s0 s : State} {t : Nat} {k : Nat} {left : Option (Nat × Nat × Nat × Nat × Nat)} {exact : Bool} {mix : Bool} (hk : Keeps s0 s)  : Keeps s0 (State.passEnds s t k left exact mix) := by
  unfold State.passEnds
  repeat' first
    | with_reducible assumption
    | with_reducible apply Keeps.setTile
    | split
    | intro _
    | extract_lets
    | with_reducible apply Keeps.other
    | dsimp -zeta only

theorem mixRow_free {v : AttnEnv} {bound : Option Nat} {exact : Bool} {now seg i : Nat} {vals : List (Int × List Int)} {x : Nat × Attn} :
    x.1 ≤ (mixRow v bound exact now seg i vals x).1 := by
  unfold mixRow
  split
  · exact Nat.le_trans (Nat.le_add_right _ _) (Nat.le_add_right _ _)
  · exact Nat.le_refl _

theorem mixRows_free {v : AttnEnv} {bound : Option Nat} {exact : Bool} {now seg : Nat} {vals : List (Int × List Int)} {is : List Nat} {x : Nat × Attn} :
    x.1 ≤ (is.foldl (fun x i => mixRow v bound exact now seg i vals x) x).1 := by
  induction is generalizing x with
  | nil => exact Nat.le_refl _
  | cons i t ih => exact Nat.le_trans mixRow_free ih

theorem Keeps.redoSeg {s0 s : State} {v : AttnEnv} {seg i : Nat} {a : Attn} (hk : Keeps s0 s) :
    Keeps s0 (s.redoSeg v seg i a).1 := by
  unfold State.redoSeg
  split
  · rename_i keys vals _ _
    have h1 : Keeps s0 (s.scoreRow v true seg i keys a).1 := hk.scoreRow
    generalize s.scoreRow v true seg i keys a = p at h1
    obtain ⟨s1, a1⟩ := p
    dsimp only at h1 ⊢
    split
    · exact h1.useFree' (mixRow_free (x := (s1.free, a1)))
    · exact h1
  · exact hk
  · exact hk

theorem Keeps.redoRow {s0 s : State} {v : AttnEnv} {i : Nat} {a : Attn} (hk : Keeps s0 s)  : Keeps s0 (State.redoRow s v i a).1 := by
  unfold State.redoRow
  repeat' first
    | with_reducible assumption
    | with_reducible apply Keeps.foldl
    | with_reducible apply Keeps.redoSeg
    | split
    | intro _
    | extract_lets
    | (with_reducible apply Keeps.fst_of_eq; with_reducible assumption)
    | with_reducible apply Keeps.foldlFst
    | with_reducible apply Keeps.other
    | dsimp -zeta only

theorem Keeps.alarmGroup {s0 s : State} {t : Nat} {row : Option Nat} {a : Attn} (hk : Keeps s0 s)  : Keeps s0 (State.alarmGroup s t row a) := by
  unfold State.alarmGroup
  repeat' first
    | with_reducible assumption
    | with_reducible apply Keeps.bumpBy
    | with_reducible apply Keeps.foldl
    | with_reducible apply Keeps.kvFail
    | with_reducible apply Keeps.setAttn
    | with_reducible apply Keeps.redoRow
    | split
    | intro _
    | extract_lets
    | (with_reducible apply Keeps.fst_of_eq; with_reducible assumption)
    | with_reducible apply Keeps.foldlFst
    | with_reducible apply Keeps.other
    | dsimp -zeta only

theorem Keeps.sliceAlarm {s0 s : State} {t : Nat} {row : Option Nat} (hk : Keeps s0 s)  : Keeps s0 (State.sliceAlarm s t row) := by
  unfold State.sliceAlarm
  repeat' first
    | with_reducible assumption
    | with_reducible apply Keeps.setFld
    | with_reducible apply Keeps.setFlag
    | with_reducible apply Keeps.setPlace
    | with_reducible apply Keeps.each
    | with_reducible apply Keeps.alarmGroup
    | split
    | intro _
    | extract_lets
    | with_reducible apply Keeps.other
    | dsimp -zeta only

end Sys2Proof.Machine
end

