-- ==== Sys2Proof/Laws/KeepsLanes.lean ====
section
/-! SUPPORT. The operations of Machine/Lanes.lean keep the queue, the order of times and the canonical form. -/

namespace Sys2Proof.Machine

theorem Keeps.raise19 {s0 s : State} {ps : List Nat} (hk : Keeps s0 s)  : Keeps s0 (State.raise19 s ps) := by
  unfold State.raise19
  repeat' first
    | with_reducible assumption
    | with_reducible apply Keeps.each
    | with_reducible apply Keeps.raise
    | split
    | intro _
    | extract_lets
    | dsimp -zeta only

theorem Keeps.membersGone {s0 s : State} {c : Chain} {ms : List Nat} (hk : Keeps s0 s)  : Keeps s0 (State.membersGone s c ms) := by
  unfold State.membersGone
  repeat' first
    | with_reducible assumption
    | with_reducible apply Keeps.setChain
    | with_reducible apply Keeps.finishLoad
    | split
    | intro _
    | extract_lets
    | with_reducible apply Keeps.other
    | dsimp -zeta only

theorem Keeps.chainLoses {s0 s : State} {c : Chain} {m : Nat} (hk : Keeps s0 s)  : Keeps s0 (State.chainLoses s c m) := by
  unfold State.chainLoses
  repeat' first
    | with_reducible assumption
    | with_reducible apply Keeps.each
    | with_reducible apply Keeps.setChain
    | with_reducible apply Keeps.tellChain
    | with_reducible apply Keeps.fenceChain
    | with_reducible apply Keeps.membersGone
    | split
    | intro _
    | extract_lets
    | with_reducible apply Keeps.other
    | dsimp -zeta only

theorem Keeps.moduleLost {s0 s : State} {m : Nat} (hk : Keeps s0 s)  : Keeps s0 (State.moduleLost s m) := by
  unfold State.moduleLost
  repeat' first
    | with_reducible assumption
    | with_reducible apply Keeps.each
    | with_reducible apply Keeps.fencePlace
    | with_reducible apply Keeps.chainLoses
    | split
    | intro _
    | extract_lets
    | with_reducible apply Keeps.other
    | dsimp -zeta only

theorem Keeps.releaseHeld {s0 s : State}  (hk : Keeps s0 s)  : Keeps s0 (State.releaseHeld s) := by
  unfold State.releaseHeld
  repeat' first
    | with_reducible assumption
    | with_reducible apply Keeps.each
    | with_reducible apply Keeps.post
    | split
    | intro _
    | extract_lets
    | with_reducible apply Keeps.other
    | dsimp -zeta only

theorem Keeps.degrade {s0 s : State} {cause : Nat} (hk : Keeps s0 s)  : Keeps s0 (State.degrade s cause) := by
  unfold State.degrade
  repeat' first
    | with_reducible assumption
    | with_reducible apply Keeps.setFld
    | with_reducible apply Keeps.raise19
    | with_reducible apply Keeps.releaseHeld
    | split
    | intro _
    | extract_lets
    | dsimp -zeta only

theorem Keeps.undegrade {s0 s : State} {cause : Nat} (hk : Keeps s0 s)  : Keeps s0 (State.undegrade s cause) := by
  unfold State.undegrade
  repeat' first
    | with_reducible assumption
    | with_reducible apply Keeps.setFld
    | split
    | intro _
    | extract_lets
    | dsimp -zeta only

theorem Keeps.portOff {s0 s : State} {n : Nat} {st : Nat} (hk : Keeps s0 s)  : Keeps s0 (State.portOff s n st) := by
  unfold State.portOff
  repeat' first
    | with_reducible assumption
    | with_reducible apply Keeps.setFld
    | with_reducible apply Keeps.setFlag
    | with_reducible apply Keeps.setPort
    | split
    | intro _
    | extract_lets
    | with_reducible apply Keeps.other
    | dsimp -zeta only

theorem Keeps.afterLoss {s0 s : State} {n : Nat} (hk : Keeps s0 s)  : Keeps s0 (State.afterLoss s n) := by
  unfold State.afterLoss
  repeat' first
    | with_reducible assumption
    | with_reducible apply Keeps.each
    | with_reducible apply Keeps.selTake
    | with_reducible apply Keeps.raise19
    | with_reducible apply Keeps.moduleLost
    | with_reducible apply Keeps.degrade
    | split
    | intro _
    | extract_lets
    | dsimp -zeta only

theorem Keeps.portDown {s0 s : State} {n : Nat} {st : Nat} (hk : Keeps s0 s)  : Keeps s0 (State.portDown s n st) := by
  unfold State.portDown
  repeat' first
    | with_reducible assumption
    | with_reducible apply Keeps.portOff
    | with_reducible apply Keeps.afterLoss
    | split
    | intro _
    | extract_lets
    | dsimp -zeta only

theorem Keeps.markLanes {s0 s : State} {n : Nat} {map : Nat} (hk : Keeps s0 s)  : Keeps s0 (State.markLanes s n map) := by
  unfold State.markLanes
  repeat' first
    | with_reducible assumption
    | with_reducible apply Keeps.setFld
    | with_reducible apply Keeps.each
    | split
    | intro _
    | extract_lets
    | dsimp -zeta only

theorem Keeps.endProt {s0 s : State} {n : Nat} (hk : Keeps s0 s)  : Keeps s0 (State.endProt s n) := by
  unfold State.endProt
  repeat' first
    | with_reducible assumption
    | with_reducible apply Keeps.setFlag
    | with_reducible apply Keeps.setPort
    | with_reducible apply Keeps.txLoop
    | split
    | intro _
    | extract_lets
    | with_reducible apply Keeps.other
    | dsimp -zeta only

theorem Keeps.applyMap {s0 s : State} {n : Nat} {map : Nat} (hk : Keeps s0 s)  : Keeps s0 (State.applyMap s n map) := by
  unfold State.applyMap
  repeat' first
    | with_reducible assumption
    | with_reducible apply Keeps.setFld
    | with_reducible apply Keeps.setFlag
    | with_reducible apply Keeps.setPort
    | with_reducible apply Keeps.portDown
    | with_reducible apply Keeps.markLanes
    | with_reducible apply Keeps.endProt
    | split
    | intro _
    | extract_lets
    | with_reducible apply Keeps.other
    | dsimp -zeta only

theorem Keeps.announce {s0 s : State} {n : Nat} {map : Nat} (hk : Keeps s0 s)  : Keeps s0 (State.announce s n map) := by
  unfold State.announce
  repeat' first
    | with_reducible assumption
    | with_reducible apply Keeps.setFlag
    | with_reducible apply Keeps.setPort
    | with_reducible apply Keeps.markLanes
    | split
    | intro _
    | extract_lets
    | with_reducible apply Keeps.other
    | dsimp -zeta only

theorem Keeps.laneOut {s0 s : State} {n : Nat} {m : Nat} (hk : Keeps s0 s)  : Keeps s0 (State.laneOut s n m) := by
  unfold State.laneOut
  repeat' first
    | with_reducible assumption
    | with_reducible apply Keeps.setFld
    | with_reducible apply Keeps.announce
    | split
    | intro _
    | extract_lets
    | dsimp -zeta only

theorem Keeps.laneIn {s0 s : State} {n : Nat} {m : Nat} (hk : Keeps s0 s)  : Keeps s0 (State.laneIn s n m) := by
  unfold State.laneIn
  repeat' first
    | with_reducible assumption
    | with_reducible apply Keeps.setFld
    | with_reducible apply Keeps.announce
    | split
    | intro _
    | extract_lets
    | dsimp -zeta only

end Sys2Proof.Machine
end

