-- ==== Sys2Proof/Laws/KeepsLasers.lean ====
section
/-! SUPPORT. The operations of Machine/Lasers.lean keep the queue, the order of times and the canonical form. -/

namespace Sys2Proof.Machine

theorem Keeps.setLas {s0 s : State} {n : Nat} {st : Nat} (hk : Keeps s0 s)  : Keeps s0 (State.setLas s n st) := by
  unfold State.setLas
  repeat' first
    | with_reducible assumption
    | with_reducible apply Keeps.setFld
    | split
    | intro _
    | extract_lets
    | dsimp -zeta only

theorem Keeps.countSpares {s0 s : State} {q : Nat} (hk : Keeps s0 s)  : Keeps s0 (State.countSpares s q) := by
  unfold State.countSpares
  repeat' first
    | with_reducible assumption
    | with_reducible apply Keeps.setFld
    | split
    | intro _
    | extract_lets
    | dsimp -zeta only

theorem Keeps.wantQuad {s0 s : State} {q : Nat} (hk : Keeps s0 s)  : Keeps s0 (State.wantQuad s q) := by
  unfold State.wantQuad
  repeat' first
    | with_reducible assumption
    | split
    | intro _
    | extract_lets
    | with_reducible apply Keeps.other
    | dsimp -zeta only

theorem Keeps.clusterStat {s0 s : State} {c : Nat} (hk : Keeps s0 s)  : Keeps s0 (State.clusterStat s c) := by
  unfold State.clusterStat
  repeat' first
    | with_reducible assumption
    | with_reducible apply Keeps.setFld
    | with_reducible apply Keeps.foldl
    | split
    | intro _
    | extract_lets
    | dsimp -zeta only

theorem Keeps.putRing {s0 s : State} {c : Nat} {r : Nat} {x : Ring} (hk : Keeps s0 s)  : Keeps s0 (State.putRing s c r x) := by
  unfold State.putRing
  repeat' first
    | with_reducible assumption
    | with_reducible apply Keeps.setRing
    | with_reducible apply Keeps.clusterStat
    | split
    | intro _
    | extract_lets
    | dsimp -zeta only

theorem Keeps.ringAlarm {s0 s : State} {c : Nat} {r : Nat} (hk : Keeps s0 s)  : Keeps s0 (State.ringAlarm s c r) := by
  unfold State.ringAlarm
  repeat' first
    | with_reducible assumption
    | with_reducible apply Keeps.bump
    | with_reducible apply Keeps.sliceAlarm
    | with_reducible apply Keeps.putRing
    | split
    | intro _
    | extract_lets
    | with_reducible apply Keeps.other
    | dsimp -zeta only

theorem Keeps.ringFails {s0 s : State} {c : Nat} {r : Nat} (hk : Keeps s0 s)  : Keeps s0 (State.ringFails s c r) := by
  unfold State.ringFails
  repeat' first
    | with_reducible assumption
    | with_reducible apply Keeps.bump
    | with_reducible apply Keeps.fault
    | with_reducible apply Keeps.calHold
    | with_reducible apply Keeps.laneOut
    | with_reducible apply Keeps.putRing
    | split
    | intro _
    | extract_lets
    | with_reducible apply Keeps.other
    | dsimp -zeta only

theorem Keeps.waveAlarm {s0 s : State} {w : Nat} (hk : Keeps s0 s)  : Keeps s0 (State.waveAlarm s w) := by
  unfold State.waveAlarm
  repeat' first
    | with_reducible assumption
    | with_reducible apply Keeps.each
    | with_reducible apply Keeps.ringAlarm
    | split
    | intro _
    | extract_lets
    | dsimp -zeta only

theorem Keeps.laneAlarm {s0 s : State} {n : Nat} {m : Nat} (hk : Keeps s0 s)  : Keeps s0 (State.laneAlarm s n m) := by
  unfold State.laneAlarm
  repeat' first
    | with_reducible assumption
    | with_reducible apply Keeps.ringAlarm
    | split
    | intro _
    | extract_lets
    | dsimp -zeta only

theorem Keeps.loopWindow {s0 s : State} {c : Nat} {r : Nat} {errs : List Int} (hk : Keeps s0 s)  : Keeps s0 (State.loopWindow s c r errs) := by
  unfold State.loopWindow
  repeat' first
    | with_reducible assumption
    | with_reducible apply Keeps.setRing
    | with_reducible apply Keeps.foldl
    | split
    | intro _
    | extract_lets
    | dsimp -zeta only

theorem Keeps.ringVerified {s0 s : State} {c : Nat} {r : Nat} {quality : Nat} (hk : Keeps s0 s)  : Keeps s0 (State.ringVerified s c r quality) := by
  unfold State.ringVerified
  repeat' first
    | with_reducible assumption
    | with_reducible apply Keeps.bump
    | with_reducible apply Keeps.laneIn
    | with_reducible apply Keeps.putRing
    | split
    | intro _
    | extract_lets
    | with_reducible apply Keeps.other
    | dsimp -zeta only

theorem Keeps.sweepAll {s0 s : State} {q : Nat} (hk : Keeps s0 s)  : Keeps s0 (State.sweepAll s q) := by
  unfold State.sweepAll
  repeat' first
    | with_reducible assumption
    | with_reducible apply Keeps.each
    | with_reducible apply Keeps.clusterStat
    | split
    | intro _
    | extract_lets
    | (with_reducible apply Keeps.fst_of_eq; with_reducible assumption)
    | with_reducible apply Keeps.foldlFst
    | with_reducible apply Keeps.other
    | with_reducible apply Keeps.mapRingTbl
    | rfl
    | dsimp -zeta only

theorem Keeps.warmLaser {s0 s : State} {n : Nat} {since : Nat} (hk : Keeps s0 s)  : Keeps s0 (State.warmLaser s n since) := by
  unfold State.warmLaser
  repeat' first
    | with_reducible assumption
    | with_reducible apply Keeps.setFld
    | with_reducible apply Keeps.setLaser
    | with_reducible apply Keeps.setLas
    | split
    | intro _
    | extract_lets
    | with_reducible apply Keeps.other
    | dsimp -zeta only

theorem Keeps.spareFails {s0 s : State} {n : Nat} (hk : Keeps s0 s)  : Keeps s0 (State.spareFails s n) := by
  unfold State.spareFails
  repeat' first
    | with_reducible assumption
    | with_reducible apply Keeps.fault
    | with_reducible apply Keeps.setLas
    | with_reducible apply Keeps.countSpares
    | split
    | intro _
    | extract_lets
    | dsimp -zeta only

theorem Keeps.tuneLaser {s0 s : State} {n : Nat} {freq : Int} (hk : Keeps s0 s)  : Keeps s0 (State.tuneLaser s n freq) := by
  unfold State.tuneLaser
  repeat' first
    | with_reducible assumption
    | with_reducible apply Keeps.setFld
    | with_reducible apply Keeps.setLaser
    | split
    | intro _
    | extract_lets
    | with_reducible apply Keeps.other
    | dsimp -zeta only

theorem Keeps.fade {s0 s : State} {n : Nat} {cause : Nat} (hk : Keeps s0 s)  : Keeps s0 (State.fade s n cause) := by
  unfold State.fade
  repeat' first
    | with_reducible assumption
    | with_reducible apply Keeps.setFld
    | with_reducible apply Keeps.bump
    | with_reducible apply Keeps.setLaser
    | with_reducible apply Keeps.fault
    | with_reducible apply Keeps.laneOut
    | with_reducible apply Keeps.setLas
    | with_reducible apply Keeps.waveAlarm
    | with_reducible apply Keeps.laneAlarm
    | split
    | intro _
    | extract_lets
    | with_reducible apply Keeps.other
    | dsimp -zeta only

theorem Keeps.noSpare {s0 s : State} {n : Nat} {pwr : Int} (hk : Keeps s0 s)  : Keeps s0 (State.noSpare s n pwr) := by
  unfold State.noSpare
  repeat' first
    | with_reducible assumption
    | with_reducible apply Keeps.setLaser
    | with_reducible apply Keeps.laneOut
    | with_reducible apply Keeps.wantQuad
    | split
    | intro _
    | extract_lets
    | with_reducible apply Keeps.other
    | dsimp -zeta only

theorem Keeps.switchIn {s0 s : State} {n : Nat} (hk : Keeps s0 s)  : Keeps s0 (State.switchIn s n) := by
  unfold State.switchIn
  repeat' first
    | with_reducible assumption
    | with_reducible apply Keeps.setFlag
    | with_reducible apply Keeps.bump
    | with_reducible apply Keeps.fault
    | with_reducible apply Keeps.setLas
    | with_reducible apply Keeps.countSpares
    | split
    | intro _
    | extract_lets
    | dsimp -zeta only

theorem Keeps.derate {s0 s : State} {n : Nat} (hk : Keeps s0 s)  : Keeps s0 (State.derate s n) := by
  unfold State.derate
  repeat' first
    | with_reducible assumption
    | with_reducible apply Keeps.bump
    | with_reducible apply Keeps.setLaser
    | with_reducible apply Keeps.fault
    | split
    | intro _
    | extract_lets
    | with_reducible apply Keeps.other
    | dsimp -zeta only

theorem Keeps.quadrantCairn {s0 s : State} {q : Nat} (hk : Keeps s0 s)  : Keeps s0 (State.quadrantCairn s q) := by
  unfold State.quadrantCairn
  repeat' first
    | with_reducible assumption
    | with_reducible apply Keeps.setPlace
    | with_reducible apply Keeps.each
    | with_reducible apply Keeps.quadCairn
    | with_reducible apply Keeps.waveAlarm
    | with_reducible apply Keeps.switchIn
    | with_reducible apply Keeps.derate
    | split
    | intro _
    | extract_lets
    | with_reducible apply Keeps.other
    | dsimp -zeta only

theorem Keeps.pcpGone {s0 s : State} {q : Nat} (hk : Keeps s0 s)  : Keeps s0 (State.pcpGone s q) := by
  unfold State.pcpGone
  repeat' first
    | with_reducible assumption
    | with_reducible apply Keeps.each
    | with_reducible apply Keeps.setLas
    | split
    | intro _
    | extract_lets
    | with_reducible apply Keeps.other
    | dsimp -zeta only

end Sys2Proof.Machine
end

