-- ==== Sys2Proof/Laws/KeepsCalib.lean ====
section
/-! SUPPORT. The operations of Machine/Calib.lean keep the queue, the order of times and the canonical form. -/

namespace Sys2Proof.Machine

theorem Keeps.flashDone {s0 s : State} {k : Nat} (hk : Keeps s0 s)  : Keeps s0 (State.flashDone s k) := by
  unfold State.flashDone
  repeat' first
    | with_reducible assumption
    | split
    | intro _
    | extract_lets
    | with_reducible apply Keeps.other
    | dsimp -zeta only

theorem Keeps.beginRun {s0 s : State} {o : CalObj} (hk : Keeps s0 s)  : Keeps s0 (State.beginRun s o) := by
  unfold State.beginRun
  repeat' first
    | with_reducible assumption
    | split
    | intro _
    | extract_lets
    | with_reducible apply Keeps.other
    | dsimp -zeta only

theorem Keeps.startRuns {s0 s : State}  (hk : Keeps s0 s)  : Keeps s0 (State.startRuns s) := by
  unfold State.startRuns
  repeat' first
    | with_reducible assumption
    | with_reducible apply Keeps.each
    | with_reducible apply Keeps.laneOut
    | with_reducible apply Keeps.beginRun
    | split
    | intro _
    | extract_lets
    | with_reducible apply Keeps.other
    | dsimp -zeta only

theorem Keeps.enterBand {s0 s : State} {o : CalObj} (hk : Keeps s0 s)  : Keeps s0 (State.enterBand s o) := by
  unfold State.enterBand
  repeat' first
    | with_reducible assumption
    | with_reducible apply Keeps.calHold
    | split
    | intro _
    | extract_lets
    | dsimp -zeta only

theorem Keeps.runSlice {s0 s : State} {i : Nat} {o : CalObj} (hk : Keeps s0 s)  : Keeps s0 (State.runSlice s i o) := by
  unfold State.runSlice
  repeat' first
    | with_reducible assumption
    | with_reducible apply Keeps.sliceOn
    | split
    | intro _
    | extract_lets
    | (with_reducible apply Keeps.fst_of_eq; with_reducible assumption)
    | with_reducible apply Keeps.foldlFst
    | with_reducible apply Keeps.other
    | dsimp -zeta only

theorem Keeps.calFault {s0 s : State} {o : CalObj} (hk : Keeps s0 s)  : Keeps s0 (State.calFault s o) := by
  unfold State.calFault
  repeat' first
    | with_reducible assumption
    | with_reducible apply Keeps.fault
    | split
    | intro _
    | extract_lets
    | dsimp -zeta only

theorem Keeps.laneBack {s0 s : State} {o : CalObj} (hk : Keeps s0 s)  : Keeps s0 (State.laneBack s o) := by
  unfold State.laneBack
  repeat' first
    | with_reducible assumption
    | with_reducible apply Keeps.setFld
    | with_reducible apply Keeps.when
    | with_reducible apply Keeps.laneIn
    | split
    | intro _
    | extract_lets
    | with_reducible apply Keeps.other
    | dsimp -zeta only

theorem Keeps.laneFigures {s0 s : State} {i : Nat} {mg : Nat × Nat × Nat} {ok : Bool} (hk : Keeps s0 s)  : Keeps s0 (State.laneFigures s i mg ok) := by
  unfold State.laneFigures
  repeat' first
    | with_reducible assumption
    | with_reducible apply Keeps.setFld
    | with_reducible apply Keeps.setFlag
    | split
    | intro _
    | extract_lets
    | dsimp -zeta only

theorem Keeps.laneFails {s0 s : State} {i : Nat} {mg : Nat × Nat × Nat} (hk : Keeps s0 s)  : Keeps s0 (State.laneFails s i mg) := by
  unfold State.laneFails
  repeat' first
    | with_reducible assumption
    | with_reducible apply Keeps.setFld
    | with_reducible apply Keeps.laneFigures
    | split
    | intro _
    | extract_lets
    | dsimp -zeta only

theorem Keeps.verifyRings {s0 s : State} {c : Nat} {rs : List Nat} (hk : Keeps s0 s)  : Keeps s0 (State.verifyRings s c rs) := by
  unfold State.verifyRings
  repeat' first
    | with_reducible assumption
    | with_reducible apply Keeps.setRing
    | with_reducible apply Keeps.each
    | with_reducible apply Keeps.clusterStat
    | split
    | intro _
    | extract_lets
    | with_reducible apply Keeps.other
    | dsimp -zeta only

theorem Keeps.takeHeaters {s0 s : State} {c : Nat} {r : CalResult} (hk : Keeps s0 s)  : Keeps s0 (State.takeHeaters s c r) := by
  unfold State.takeHeaters
  repeat' first
    | with_reducible assumption
    | with_reducible apply Keeps.setPhy
    | with_reducible apply Keeps.setRing
    | with_reducible apply Keeps.foldl
    | with_reducible apply Keeps.each
    | split
    | intro _
    | extract_lets
    | with_reducible apply Keeps.other
    | dsimp -zeta only

theorem Keeps.retirePhysArr {s0 s : State} {i : Nat} {no : Nat} (hk : Keeps s0 s)  : Keeps s0 (State.retirePhysArr s i no) := by
  unfold State.retirePhysArr
  repeat' first
    | with_reducible assumption
    | with_reducible apply Keeps.setPhy
    | with_reducible apply Keeps.keepRet
    | with_reducible apply Keeps.retireArr
    | split
    | intro _
    | extract_lets
    | with_reducible apply Keeps.other
    | dsimp -zeta only

theorem Keeps.takeWorn {s0 s : State} {i : Nat} {r : CalResult} (hk : Keeps s0 s)  : Keeps s0 (State.takeWorn s i r) := by
  unfold State.takeWorn
  repeat' first
    | with_reducible assumption
    | with_reducible apply Keeps.each
    | with_reducible apply Keeps.asOf
    | with_reducible apply Keeps.decideRetire
    | with_reducible apply Keeps.retireCol
    | with_reducible apply Keeps.retirePhysArr
    | split
    | intro _
    | extract_lets
    | with_reducible apply Keeps.other
    | dsimp -zeta only

theorem Keeps.tileFigures {s0 s : State} {i : Nat} {r : CalResult} (hk : Keeps s0 s)  : Keeps s0 (State.tileFigures s i r) := by
  unfold State.tileFigures
  repeat' first
    | with_reducible assumption
    | with_reducible apply Keeps.setPhy
    | with_reducible apply Keeps.foldl
    | split
    | intro _
    | extract_lets
    | with_reducible apply Keeps.other
    | dsimp -zeta only

theorem Keeps.noteRun {s0 s : State} {o : CalObj} {r : CalResult} {ok : Bool} (hk : Keeps s0 s)  : Keeps s0 (State.noteRun s o r ok) := by
  unfold State.noteRun
  repeat' first
    | with_reducible assumption
    | with_reducible apply Keeps.setPhy
    | with_reducible apply Keeps.foldl
    | split
    | intro _
    | extract_lets
    | with_reducible apply Keeps.other
    | dsimp -zeta only

theorem Keeps.bringIn {s0 s : State} {o : CalObj} {r : CalResult} (hk : Keeps s0 s)  : Keeps s0 (State.bringIn s o r) := by
  unfold State.bringIn
  repeat' first
    | with_reducible assumption
    | with_reducible apply Keeps.rampAll
    | split
    | intro _
    | extract_lets
    | with_reducible apply Keeps.other
    | dsimp -zeta only

theorem Keeps.takeWear {s0 s : State} {o : CalObj} {r : CalResult} (hk : Keeps s0 s)  : Keeps s0 (State.takeWear s o r) := by
  unfold State.takeWear
  repeat' first
    | with_reducible assumption
    | with_reducible apply Keeps.setPhy
    | with_reducible apply Keeps.takeCells
    | with_reducible apply Keeps.takeWorn
    | split
    | intro _
    | extract_lets
    | with_reducible apply Keeps.other
    | dsimp -zeta only

theorem Keeps.acceptRun {s0 s : State} {o : CalObj} {b : Nat} {r : CalResult} (hk : Keeps s0 s)  : Keeps s0 (State.acceptRun s o b r) := by
  unfold State.acceptRun
  repeat' first
    | with_reducible assumption
    | with_reducible apply Keeps.setLaser
    | with_reducible apply Keeps.setRing
    | with_reducible apply Keeps.foldl
    | with_reducible apply Keeps.each
    | with_reducible apply Keeps.when
    | with_reducible apply Keeps.putSet
    | with_reducible apply Keeps.noteFlash
    | with_reducible apply Keeps.laneFigures
    | with_reducible apply Keeps.verifyRings
    | with_reducible apply Keeps.takeHeaters
    | with_reducible apply Keeps.tileFigures
    | with_reducible apply Keeps.bringIn
    | split
    | intro _
    | extract_lets
    | (with_reducible apply Keeps.fst_of_eq; with_reducible assumption)
    | with_reducible apply Keeps.foldlFst
    | with_reducible apply Keeps.other
    | dsimp -zeta only

theorem Keeps.svcCalRun {s0 s : State} {h : Hdr} {scope : BitVec 8} {byte1 : BitVec 8} {index : BitVec 16} {rsv : BitVec 32} (hk : Keeps s0 s)  : Keeps s0 (State.svcCalRun s h scope byte1 index rsv) := by
  unfold State.svcCalRun
  repeat' first
    | with_reducible assumption
    | with_reducible apply Keeps.each
    | with_reducible apply Keeps.checked
    | with_reducible apply Keeps.setLong
    | with_reducible apply Keeps.startLong
    | with_reducible apply Keeps.calHold
    | with_reducible apply Keeps.startRuns
    | split
    | intro _
    | extract_lets
    | with_reducible apply Keeps.other
    | dsimp -zeta only

theorem Keeps.svcCalQuery {s0 s : State} {h : Hdr} {what : BitVec 8} {byte1 : BitVec 8} {index : BitVec 16} {rsv : BitVec 32} {destVa : BitVec 64} {bytes : BitVec 32} {rsv20 : BitVec 32} (hk : Keeps s0 s)  : Keeps s0 (State.svcCalQuery s h what byte1 index rsv destVa bytes rsv20) := by
  unfold State.svcCalQuery
  repeat' first
    | with_reducible assumption
    | with_reducible apply Keeps.reply
    | with_reducible apply Keeps.checked
    | with_reducible apply Keeps.selTake
    | with_reducible apply Keeps.selPass
    | split
    | intro _
    | extract_lets
    | (with_reducible apply Keeps.wrVa_eq; with_reducible assumption)
    | with_reducible apply Keeps.other
    | dsimp -zeta only

end Sys2Proof.Machine
end

