-- ==== Sys2Proof/Laws/KeepsFabric.lean ====
section
/-! SUPPORT. The operations of Machine/Fabric.lean keep the queue, the order of times and the canonical form. -/

namespace Sys2Proof.Machine

theorem Keeps.giveCredits {s0 s : State} {n : Nat} {m : FMsg} (hk : Keeps s0 s)  : Keeps s0 (State.giveCredits s n m) := by
  unfold State.giveCredits
  repeat' first
    | with_reducible assumption
    | with_reducible apply Keeps.setPort
    | split
    | intro _
    | extract_lets
    | with_reducible apply Keeps.other
    | dsimp -zeta only

theorem Keeps.deliverMsg {s0 s : State} {n : Nat} {m : FMsg} (hk : Keeps s0 s)  : Keeps s0 (State.deliverMsg s n m) := by
  unfold State.deliverMsg
  repeat' first
    | with_reducible assumption
    | with_reducible apply Keeps.bump
    | with_reducible apply Keeps.setPort
    | with_reducible apply Keeps.respond
    | with_reducible apply Keeps.giveCredits
    | split
    | intro _
    | extract_lets
    | with_reducible apply Keeps.other
    | dsimp -zeta only

theorem Keeps.onMsg {s0 s : State} {n : Nat} {m : FMsg} {op : Nat} {f : State → State} (hk : Keeps s0 s) (h_f : ∀ (v0 : State), Keeps s0 v0 → Keeps s0 (f v0)) : Keeps s0 (State.onMsg s n m op f) := by
  unfold State.onMsg
  repeat' first
    | with_reducible assumption
    | with_reducible apply Keeps.setPort
    | with_reducible apply Keeps.giveCredits
    | with_reducible apply h_f
    | split
    | intro _
    | extract_lets
    | with_reducible apply Keeps.other
    | dsimp -zeta only

theorem Keeps.refuseMsg {s0 s : State} {n : Nat} {m : FMsg} (hk : Keeps s0 s)  : Keeps s0 (State.refuseMsg s n m) := by
  unfold State.refuseMsg
  repeat' first
    | with_reducible assumption
    | with_reducible apply Keeps.violate
    | with_reducible apply Keeps.respond
    | split
    | intro _
    | extract_lets
    | dsimp -zeta only

theorem Keeps.takeHeader {s0 s : State} {n : Nat} {f : Frame} (hk : Keeps s0 s) : Keeps s0 (State.takeHeader s n f) := by
  unfold State.takeHeader
  extract_lets x cr news s1 s2
  have h1 : Keeps s0 s1 := hk.setPort
  clear_value s1
  have h2 : Keeps s0 s2 := by
    show Keeps s0 (if s1.sends n then State.txLoop n x.txWait.length s1 else s1)
    split
    · exact h1.txLoop
    · exact h1
  clear_value s2
  split
  · exact h2
  · exact h2.bump

theorem Keeps.chainsGoOn {s0 s : State}  (hk : Keeps s0 s)  : Keeps s0 (State.chainsGoOn s) := by
  unfold State.chainsGoOn
  repeat' first
    | with_reducible assumption
    | with_reducible apply Keeps.each
    | with_reducible apply Keeps.takeChunks
    | split
    | intro _
    | extract_lets
    | dsimp -zeta only

theorem Keeps.setReq {s0 s : State} {r : Req} (hk : Keeps s0 s)  : Keeps s0 (State.setReq s r) := by
  unfold State.setReq
  repeat' first
    | with_reducible assumption
    | split
    | intro _
    | extract_lets
    | with_reducible apply Keeps.other
    | dsimp -zeta only

theorem Keeps.dropReq {s0 s : State} {tag : Nat} (hk : Keeps s0 s)  : Keeps s0 (State.dropReq s tag) := by
  unfold State.dropReq
  repeat' first
    | with_reducible assumption
    | split
    | intro _
    | extract_lets
    | with_reducible apply Keeps.other
    | dsimp -zeta only

theorem Keeps.resend {s0 s : State} {r : Req} (hk : Keeps s0 s)  : Keeps s0 (State.resend s r) := by
  unfold State.resend
  repeat' first
    | with_reducible assumption
    | with_reducible apply Keeps.sendMsg
    | with_reducible apply Keeps.setReq
    | split
    | intro _
    | extract_lets
    | with_reducible apply Keeps.other
    | dsimp -zeta only

theorem Keeps.takeRecord {s0 s : State} {n : Nat} {m : FMsg} (hk : Keeps s0 s)  : Keeps s0 (State.takeRecord s n m) := by
  unfold State.takeRecord
  repeat' first
    | with_reducible assumption
    | with_reducible apply Keeps.bump
    | with_reducible apply Keeps.wrMem
    | with_reducible apply Keeps.respond
    | with_reducible apply Keeps.freshReady
    | with_reducible apply Keeps.takeToken
    | split
    | intro _
    | extract_lets
    | with_reducible apply Keeps.other
    | dsimp -zeta only

theorem Keeps.takeHalf {s0 s : State} {n : Nat} {m : FMsg} {c : Chain} (hk : Keeps s0 s)  : Keeps s0 (State.takeHalf s n m c) := by
  unfold State.takeHalf
  repeat' first
    | with_reducible assumption
    | with_reducible apply Keeps.respond
    | with_reducible apply Keeps.setChain
    | with_reducible apply Keeps.selTake
    | with_reducible apply Keeps.payCredits
    | with_reducible apply Keeps.takeChunks
    | split
    | intro _
    | extract_lets
    | with_reducible apply Keeps.other
    | dsimp -zeta only

theorem Keeps.requestOn {s0 s : State} {n : Nat} {op : Nat} {payload : List Byte} (hk : Keeps s0 s)  : Keeps s0 (State.requestOn s n op payload) := by
  unfold State.requestOn
  repeat' first
    | with_reducible assumption
    | with_reducible apply Keeps.transmit
    | split
    | intro _
    | extract_lets
    | with_reducible apply Keeps.other
    | dsimp -zeta only

theorem Keeps.trainPort {s0 s : State} {n : Nat} (hk : Keeps s0 s)  : Keeps s0 (State.trainPort s n) := by
  unfold State.trainPort
  repeat' first
    | with_reducible assumption
    | with_reducible apply Keeps.portOff
    | with_reducible apply Keeps.afterLoss
    | split
    | intro _
    | extract_lets
    | dsimp -zeta only

theorem Keeps.testLanes {s0 s : State} {n : Nat} {ts : List LaneTest} (hk : Keeps s0 s)  : Keeps s0 (State.testLanes s n ts) := by
  unfold State.testLanes
  repeat' first
    | with_reducible assumption
    | with_reducible apply Keeps.each
    | with_reducible apply Keeps.laneFigures
    | split
    | intro _
    | extract_lets
    | dsimp -zeta only

theorem Keeps.markFailed {s0 s : State} {n : Nat} {map : Nat} (hk : Keeps s0 s)  : Keeps s0 (State.markFailed s n map) := by
  unfold State.markFailed
  repeat' first
    | with_reducible assumption
    | with_reducible apply Keeps.setFld
    | with_reducible apply Keeps.each
    | split
    | intro _
    | extract_lets
    | dsimp -zeta only

theorem Keeps.portUp {s0 s : State} {n : Nat} {far : Word64} {map : Nat} (hk : Keeps s0 s) : Keeps s0 (s.portUp n far map) := by
  have h : ∀ u x, Keeps s0 u → Keeps s0 (if ({ u with fabric := x } : State).portRole n = 3
      then ({ u with fabric := x } : State).undegrade 1 else { u with fabric := x }) := by
    intro u x hu
    split
    · exact Keeps.undegrade hu.other
    · exact hu.other
  exact h _ _ hk.setFld.setFld.setFlag.setFld.setPort.markLanes

theorem Keeps.joinEnds {s0 s : State} {n : Nat} (hk : Keeps s0 s)  : Keeps s0 (State.joinEnds s n) := by
  unfold State.joinEnds
  repeat' first
    | with_reducible assumption
    | with_reducible apply Keeps.each
    | with_reducible apply Keeps.endLong
    | with_reducible apply Keeps.advanceLong
    | split
    | intro _
    | extract_lets
    | with_reducible apply Keeps.other
    | dsimp -zeta only

theorem Keeps.trainEnds {s0 s : State} {n : Nat} {res : TrainEnd} (hk : Keeps s0 s)  : Keeps s0 (State.trainEnds s n res) := by
  unfold State.trainEnds
  repeat' first
    | with_reducible assumption
    | with_reducible apply Keeps.setFld
    | with_reducible apply Keeps.setPort
    | with_reducible apply Keeps.testLanes
    | with_reducible apply Keeps.markFailed
    | with_reducible apply Keeps.portUp
    | split
    | intro _
    | extract_lets
    | with_reducible apply Keeps.other
    | dsimp -zeta only

theorem Keeps.svcFabricJoin {s0 s : State} {h : Hdr} {mask : BitVec 24} {rsv : BitVec 40} (hk : Keeps s0 s)  : Keeps s0 (State.svcFabricJoin s h mask rsv) := by
  unfold State.svcFabricJoin
  repeat' first
    | with_reducible assumption
    | with_reducible apply Keeps.setFlag
    | with_reducible apply Keeps.each
    | with_reducible apply Keeps.checked
    | with_reducible apply Keeps.setLong
    | with_reducible apply Keeps.startLong
    | with_reducible apply Keeps.endLong
    | with_reducible apply Keeps.trainPort
    | split
    | intro _
    | extract_lets
    | with_reducible apply Keeps.other
    | dsimp -zeta only

theorem Keeps.svcLinkQuery {s0 s : State} {h : Hdr} {port : BitVec 8} {rsv : BitVec 56} {destVa : BitVec 64} (hk : Keeps s0 s)  : Keeps s0 (State.svcLinkQuery s h port rsv destVa) := by
  unfold State.svcLinkQuery
  repeat' first
    | with_reducible assumption
    | with_reducible apply Keeps.reply
    | with_reducible apply Keeps.checked
    | split
    | intro _
    | extract_lets
    | (with_reducible apply Keeps.wrVa_eq; with_reducible assumption)
    | with_reducible apply Keeps.other
    | dsimp -zeta only

end Sys2Proof.Machine
end

