-- ==== Sys2Proof/Laws/KeepsTwin.lean ====
section
/-! SUPPORT. The operations of Machine/Twin.lean keep the queue, the order of times and the canonical form. -/

namespace Sys2Proof.Machine

theorem Keeps.releaseAcked {s0 s : State}  (hk : Keeps s0 s)  : Keeps s0 (State.releaseAcked s) := by
  unfold State.releaseAcked
  repeat' first
    | with_reducible assumption
    | with_reducible apply Keeps.each
    | with_reducible apply Keeps.post
    | split
    | intro _
    | extract_lets
    | (with_reducible apply Keeps.fst_of_eq; with_reducible assumption)
    | with_reducible apply Keeps.foldlFst
    | with_reducible apply Keeps.other
    | dsimp -zeta only

theorem Keeps.paired {s0 s : State}  (hk : Keeps s0 s)  : Keeps s0 (State.paired s) := by
  unfold State.paired
  repeat' first
    | with_reducible assumption
    | with_reducible apply Keeps.setFld
    | with_reducible apply Keeps.setFlag
    | with_reducible apply Keeps.endLongAt
    | split
    | intro _
    | extract_lets
    | with_reducible apply Keeps.other
    | dsimp -zeta only

theorem Keeps.pairFails {s0 s : State}  (hk : Keeps s0 s)  : Keeps s0 (State.pairFails s) := by
  unfold State.pairFails
  repeat' first
    | with_reducible assumption
    | with_reducible apply Keeps.endLongAt
    | with_reducible apply Keeps.twinSolo
    | split
    | intro _
    | extract_lets
    | with_reducible apply Keeps.other
    | dsimp -zeta only

theorem Keeps.svcTwinPair {s0 s : State} {h : Hdr} {peer : BitVec 16} {byte2 : BitVec 8} {rsv : BitVec 40} (hk : Keeps s0 s)  : Keeps s0 (State.svcTwinPair s h peer byte2 rsv) := by
  unfold State.svcTwinPair
  repeat' first
    | with_reducible assumption
    | with_reducible apply Keeps.setFld
    | with_reducible apply Keeps.checked
    | with_reducible apply Keeps.startLong
    | with_reducible apply Keeps.request
    | with_reducible apply Keeps.paired
    | with_reducible apply Keeps.pairFails
    | split
    | intro _
    | dsimp only
    | with_reducible apply Keeps.other

theorem Keeps.unpair {s0 s : State}  (hk : Keeps s0 s)  : Keeps s0 (State.unpair s) := by
  unfold State.unpair
  repeat' first
    | with_reducible assumption
    | with_reducible apply Keeps.endLongAt
    | with_reducible apply Keeps.request
    | with_reducible apply Keeps.twinSolo
    | with_reducible apply Keeps.releaseHeld
    | split
    | intro _
    | extract_lets
    | with_reducible apply Keeps.other
    | dsimp -zeta only

theorem Keeps.svcTwinUnpair {s0 s : State} {h : Hdr} {byte0 : BitVec 8} {rsv : BitVec 56} (hk : Keeps s0 s)  : Keeps s0 (State.svcTwinUnpair s h byte0 rsv) := by
  unfold State.svcTwinUnpair
  repeat' first
    | with_reducible assumption
    | with_reducible apply Keeps.setFld
    | with_reducible apply Keeps.checked
    | with_reducible apply Keeps.startLong
    | with_reducible apply Keeps.endLongAt
    | with_reducible apply Keeps.pairFails
    | with_reducible apply Keeps.unpair
    | split
    | intro _
    | extract_lets
    | with_reducible apply Keeps.other
    | dsimp -zeta only

theorem Keeps.journalAck {s0 s : State} {r : Req} {status : Nat} (hk : Keeps s0 s)  : Keeps s0 (State.journalAck s r status) := by
  unfold State.journalAck
  repeat' first
    | with_reducible assumption
    | with_reducible apply Keeps.degrade
    | with_reducible apply Keeps.undegrade
    | with_reducible apply Keeps.releaseAcked
    | with_reducible apply Keeps.unpair
    | split
    | intro _
    | extract_lets
    | with_reducible apply Keeps.other
    | dsimp -zeta only

theorem Keeps.mgmtPair {s0 s : State} {n : Nat} {m : FMsg} (hk : Keeps s0 s)  : Keeps s0 (State.mgmtPair s n m) := by
  unfold State.mgmtPair
  repeat' first
    | with_reducible assumption
    | with_reducible apply Keeps.respond
    | with_reducible apply Keeps.paired
    | with_reducible apply Keeps.pairFails
    | split
    | intro _
    | extract_lets
    | with_reducible apply Keeps.other
    | dsimp -zeta only

theorem Keeps.mgmtAnswer {s0 s : State} {m : FMsg} (hk : Keeps s0 s)  : Keeps s0 (State.mgmtAnswer s m) := by
  unfold State.mgmtAnswer
  repeat' first
    | with_reducible assumption
    | with_reducible apply Keeps.setChain
    | split
    | intro _
    | extract_lets
    | with_reducible apply Keeps.other
    | dsimp -zeta only

theorem Keeps.mgmtDone {s0 s : State} {m : FMsg} (hk : Keeps s0 s)  : Keeps s0 (State.mgmtDone s m) := by
  unfold State.mgmtDone
  repeat' first
    | with_reducible assumption
    | with_reducible apply Keeps.setChain
    | with_reducible apply Keeps.finishLoad
    | split
    | intro _
    | extract_lets
    | with_reducible apply Keeps.other
    | dsimp -zeta only

theorem Keeps.mgmtGone {s0 s : State} {m : FMsg} (hk : Keeps s0 s)  : Keeps s0 (State.mgmtGone s m) := by
  unfold State.mgmtGone
  repeat' first
    | with_reducible assumption
    | with_reducible apply Keeps.fenceChain
    | with_reducible apply Keeps.membersGone
    | split
    | intro _
    | extract_lets
    | with_reducible apply Keeps.other
    | dsimp -zeta only

theorem Keeps.countPaths {s0 s : State}  (hk : Keeps s0 s)  : Keeps s0 (State.countPaths s) := by
  unfold State.countPaths
  repeat' first
    | with_reducible assumption
    | with_reducible apply Keeps.setFld
    | split
    | intro _
    | extract_lets
    | dsimp -zeta only

theorem Keeps.takeCtx {s0 s : State} {i : Nat} {degraded : Bool} (hk : Keeps s0 s)  : Keeps s0 (State.takeCtx s i degraded) := by
  unfold State.takeCtx
  repeat' first
    | with_reducible assumption
    | with_reducible apply Keeps.bump
    | with_reducible apply Keeps.setCtx
    | with_reducible apply Keeps.setAux
    | with_reducible apply Keeps.when
    | with_reducible apply Keeps.touch
    | with_reducible apply Keeps.completeAt
    | with_reducible apply Keeps.redoFinish
    | with_reducible apply Keeps.selTake
    | split
    | intro _
    | extract_lets
    | with_reducible apply Keeps.other
    | dsimp -zeta only

theorem Keeps.takeover {s0 s : State}  (hk : Keeps s0 s)  : Keeps s0 (State.takeover s) := by
  unfold State.takeover
  repeat' first
    | with_reducible assumption
    | with_reducible apply Keeps.setFld
    | with_reducible apply Keeps.setFlag
    | with_reducible apply Keeps.bump
    | with_reducible apply Keeps.each
    | with_reducible apply Keeps.takeoverCheck
    | with_reducible apply Keeps.raise19
    | with_reducible apply Keeps.releaseHeld
    | with_reducible apply Keeps.takeCtx
    | split
    | intro _
    | extract_lets
    | dsimp -zeta only

end Sys2Proof.Machine
end

