-- ==== Sys2Proof/Laws/KeepsPower.lean ====
section
/-! SUPPORT. The operations of Machine/Power.lean keep the queue, the order of times and the canonical form. -/

namespace Sys2Proof.Machine

theorem Keeps.setVolt {s0 s : State} {q : Nat} (hk : Keeps s0 s)  : Keeps s0 (State.setVolt s q) := by
  unfold State.setVolt
  repeat' first
    | with_reducible assumption
    | with_reducible apply Keeps.setFld
    | with_reducible apply Keeps.setFlag
    | split
    | intro _
    | extract_lets
    | dsimp -zeta only

theorem Keeps.lowerClock {s0 s : State} {q : Nat} (hk : Keeps s0 s)  : Keeps s0 (State.lowerClock s q) := by
  unfold State.lowerClock
  repeat' first
    | with_reducible assumption
    | with_reducible apply Keeps.setFld
    | with_reducible apply Keeps.setVolt
    | split
    | intro _
    | extract_lets
    | dsimp -zeta only

theorem Keeps.wantRaise {s0 s : State} {q : Nat} (hk : Keeps s0 s)  : Keeps s0 (State.wantRaise s q) := by
  unfold State.wantRaise
  repeat' first
    | with_reducible assumption
    | with_reducible apply Keeps.setVolt
    | split
    | intro _
    | extract_lets
    | with_reducible apply Keeps.other
    | dsimp -zeta only

theorem Keeps.lowerTarget {s0 s : State} {q : Nat} {t : Nat} (hk : Keeps s0 s)  : Keeps s0 (State.lowerTarget s q t) := by
  unfold State.lowerTarget
  repeat' first
    | with_reducible assumption
    | with_reducible apply Keeps.setFld
    | with_reducible apply Keeps.lowerClock
    | split
    | intro _
    | extract_lets
    | with_reducible apply Keeps.other
    | dsimp -zeta only

theorem Keeps.freshCeil {s0 s : State} {q : Nat} (hk : Keeps s0 s)  : Keeps s0 (State.freshCeil s q) := by
  unfold State.freshCeil
  repeat' first
    | with_reducible assumption
    | with_reducible apply Keeps.setFld
    | with_reducible apply Keeps.foldl
    | with_reducible apply Keeps.lowerClock
    | with_reducible apply Keeps.wantRaise
    | split
    | intro _
    | extract_lets
    | dsimp -zeta only

theorem Keeps.demandAll {s0 s : State} {source : Nat} {op : Nat} (hk : Keeps s0 s)  : Keeps s0 (State.demandAll s source op) := by
  unfold State.demandAll
  repeat' first
    | with_reducible assumption
    | with_reducible apply Keeps.each
    | with_reducible apply Keeps.freshCeil
    | split
    | intro _
    | extract_lets
    | with_reducible apply Keeps.other
    | dsimp -zeta only

theorem Keeps.dropRaise {s0 s : State} {q : Nat} (hk : Keeps s0 s)  : Keeps s0 (State.dropRaise s q) := by
  unfold State.dropRaise
  repeat' first
    | with_reducible assumption
    | with_reducible apply Keeps.setFld
    | split
    | intro _
    | extract_lets
    | with_reducible apply Keeps.other
    | dsimp -zeta only

theorem Keeps.stepUp {s0 s : State} {q : Nat} (hk : Keeps s0 s)  : Keeps s0 (State.stepUp s q) := by
  unfold State.stepUp
  repeat' first
    | with_reducible assumption
    | with_reducible apply Keeps.setFld
    | with_reducible apply Keeps.bump
    | split
    | intro _
    | extract_lets
    | with_reducible apply Keeps.other
    | dsimp -zeta only

theorem Keeps.freshCap {s0 s : State}  (hk : Keeps s0 s)  : Keeps s0 (State.freshCap s) := by
  unfold State.freshCap
  repeat' first
    | with_reducible assumption
    | with_reducible apply Keeps.setFld
    | with_reducible apply Keeps.setFlag
    | split
    | intro _
    | extract_lets
    | dsimp -zeta only

theorem Keeps.takeQest {s0 s : State} {qest : List Nat} (hk : Keeps s0 s)  : Keeps s0 (State.takeQest s qest) := by
  unfold State.takeQest
  repeat' first
    | with_reducible assumption
    | with_reducible apply Keeps.setFld
    | with_reducible apply Keeps.each
    | with_reducible apply Keeps.freshCap
    | split
    | intro _
    | extract_lets
    | dsimp -zeta only

theorem Keeps.addEstimate {s0 s : State}  (hk : Keeps s0 s)  : Keeps s0 (State.addEstimate s) := by
  unfold State.addEstimate
  repeat' first
    | with_reducible assumption
    | with_reducible apply Keeps.selTake
    | split
    | intro _
    | extract_lets
    | with_reducible apply Keeps.other
    | dsimp -zeta only

theorem Keeps.watchCap {s0 s : State}  (hk : Keeps s0 s)  : Keeps s0 (State.watchCap s) := by
  unfold State.watchCap
  repeat' first
    | with_reducible assumption
    | split
    | intro _
    | extract_lets
    | with_reducible apply Keeps.other
    | dsimp -zeta only

theorem Keeps.capMet {s0 s : State}  (hk : Keeps s0 s)  : Keeps s0 (State.capMet s) := by
  unfold State.capMet
  repeat' first
    | with_reducible assumption
    | with_reducible apply Keeps.setFlag
    | with_reducible apply Keeps.when
    | split
    | intro _
    | extract_lets
    | with_reducible apply Keeps.other
    | dsimp -zeta only

theorem Keeps.limitStep {s0 s : State}  (hk : Keeps s0 s)  : Keeps s0 (State.limitStep s) := by
  unfold State.limitStep
  repeat' first
    | with_reducible assumption
    | with_reducible apply Keeps.bump
    | with_reducible apply Keeps.lowerTarget
    | split
    | intro _
    | extract_lets
    | with_reducible apply Keeps.other
    | dsimp -zeta only

theorem Keeps.freshBoost {s0 s : State}  (hk : Keeps s0 s)  : Keeps s0 (State.freshBoost s) := by
  unfold State.freshBoost
  repeat' first
    | with_reducible assumption
    | with_reducible apply Keeps.setFld
    | with_reducible apply Keeps.setFlag
    | with_reducible apply Keeps.each
    | split
    | intro _
    | extract_lets
    | with_reducible apply Keeps.other
    | dsimp -zeta only

theorem Keeps.reviewOrder {s0 s : State} {r0 : Nat} {r1 : List Nat} (hk : Keeps s0 s)  : Keeps s0 (State.reviewOrder r0 r1 s).2 := by
  induction r0 generalizing s r1 with
  | zero =>
    rw [State.reviewOrder]
    repeat' first
      | with_reducible assumption
      | with_reducible apply Keeps.foldl
      | split
      | intro _
      | extract_lets
      | (with_reducible apply Keeps.snd_of_eq; with_reducible assumption)
      | with_reducible apply Keeps.other
      | dsimp -zeta only
  | succ n ih =>
    rw [State.reviewOrder]
    repeat' first
      | with_reducible assumption
      | with_reducible apply Keeps.foldl
      | with_reducible apply ih
      | split
      | intro _
      | extract_lets
      | (with_reducible apply Keeps.snd_of_eq; with_reducible assumption)
      | with_reducible apply Keeps.other
      | dsimp -zeta only

theorem Keeps.makeRoom {s0 s : State} {core : List Nat} {lim : Rat} {r0 : Nat} {r1 : List Nat} {r2 : Rat} (hk : Keeps s0 s)  : Keeps s0 (State.makeRoom core lim r0 r1 r2 s) := by
  induction r0 generalizing s r1 r2 with
  | zero =>
    rw [State.makeRoom]
    repeat' first
      | with_reducible assumption
      | with_reducible apply Keeps.lowerTarget
      | split
      | intro _
      | extract_lets
      | with_reducible apply Keeps.other
      | dsimp -zeta only
  | succ n ih =>
    rw [State.makeRoom]
    repeat' first
      | with_reducible assumption
      | with_reducible apply Keeps.lowerTarget
      | with_reducible apply ih
      | split
      | intro _
      | extract_lets
      | with_reducible apply Keeps.other
      | dsimp -zeta only

theorem Keeps.freshPower {s0 s : State}  (hk : Keeps s0 s)  : Keeps s0 (State.freshPower s) := by
  unfold State.freshPower
  repeat' first
    | with_reducible assumption
    | with_reducible apply Keeps.setFld
    | with_reducible apply Keeps.foldl
    | with_reducible apply Keeps.demandAll
    | split
    | intro _
    | extract_lets
    | dsimp -zeta only

theorem Keeps.powerBegins {s0 s : State} {row : Nat} {measured : Nat} (hk : Keeps s0 s)  : Keeps s0 (State.powerBegins s row measured) := by
  unfold State.powerBegins
  repeat' first
    | with_reducible assumption
    | with_reducible apply Keeps.bump
    | with_reducible apply Keeps.each
    | with_reducible apply Keeps.pldm
    | with_reducible apply Keeps.fault
    | with_reducible apply Keeps.dropRaise
    | with_reducible apply Keeps.freshBoost
    | with_reducible apply Keeps.freshPower
    | split
    | intro _
    | extract_lets
    | with_reducible apply Keeps.other
    | dsimp -zeta only

theorem Keeps.powerEnds {s0 s : State} {row : Nat} (hk : Keeps s0 s)  : Keeps s0 (State.powerEnds s row) := by
  unfold State.powerEnds
  repeat' first
    | with_reducible assumption
    | with_reducible apply Keeps.freshBoost
    | with_reducible apply Keeps.freshPower
    | split
    | intro _
    | extract_lets
    | with_reducible apply Keeps.other
    | dsimp -zeta only

theorem Keeps.governorOn {s0 s : State}  (hk : Keeps s0 s)  : Keeps s0 (State.governorOn s) := by
  unfold State.governorOn
  repeat' first
    | with_reducible assumption
    | with_reducible apply Keeps.setFlag
    | with_reducible apply Keeps.demandAll
    | with_reducible apply Keeps.freshBoost
    | split
    | intro _
    | extract_lets
    | dsimp -zeta only

theorem Keeps.governorOff {s0 s : State}  (hk : Keeps s0 s)  : Keeps s0 (State.governorOff s) := by
  unfold State.governorOff
  repeat' first
    | with_reducible assumption
    | with_reducible apply Keeps.setFlag
    | split
    | intro _
    | extract_lets
    | with_reducible apply Keeps.other
    | dsimp -zeta only

end Sys2Proof.Machine
end

