-- ==== Sys2Proof/Laws/KeepsHkc.lean ====
section
/-! SUPPORT. The operations of Machine/Hkc.lean keep the queue, the order of times and the canonical form. -/

namespace Sys2Proof.Machine

theorem Keeps.setQueue {s0 s : State} {q : List HRes} (hk : Keeps s0 s)  : Keeps s0 (State.setQueue s q) := by
  unfold State.setQueue
  repeat' first
    | with_reducible assumption
    | with_reducible apply Keeps.setFld
    | split
    | intro _
    | extract_lets
    | with_reducible apply Keeps.other
    | dsimp -zeta only

theorem Keeps.pushResult {s0 s : State} {code : Int} {ch : Nat} {current : Bool} {conv : Nat} {entry : Nat} {rep : Nat} (hk : Keeps s0 s)  : Keeps s0 (State.pushResult s code ch current conv entry rep) := by
  unfold State.pushResult
  repeat' first
    | with_reducible assumption
    | with_reducible apply Keeps.bump
    | with_reducible apply Keeps.when
    | with_reducible apply Keeps.setQueue
    | split
    | intro _
    | extract_lets
    | with_reducible apply Keeps.other
    | dsimp -zeta only

theorem Keeps.popResult {s0 s : State}  (hk : Keeps s0 s)  : Keeps s0 (State.popResult s).2 := by
  unfold State.popResult
  repeat' first
    | with_reducible assumption
    | with_reducible apply Keeps.setQueue
    | split
    | intro _
    | extract_lets
    | with_reducible apply Keeps.other
    | dsimp -zeta only

theorem Keeps.fitEstimate {s0 s : State} {pm : Rat} (hk : Keeps s0 s)  : Keeps s0 (State.fitEstimate s pm) := by
  unfold State.fitEstimate
  repeat' first
    | with_reducible assumption
    | with_reducible apply Keeps.setFld
    | with_reducible apply Keeps.bump
    | with_reducible apply Keeps.selTake
    | split
    | intro _
    | extract_lets
    | with_reducible apply Keeps.other
    | dsimp -zeta only

theorem Keeps.shedPhases {s0 s : State} {pm : Rat} (hk : Keeps s0 s)  : Keeps s0 (State.shedPhases s pm) := by
  unfold State.shedPhases
  repeat' first
    | with_reducible assumption
    | split
    | intro _
    | extract_lets
    | with_reducible apply Keeps.other
    | dsimp -zeta only

theorem Keeps.countOver {s0 s : State} {pm : Rat} (hk : Keeps s0 s)  : Keeps s0 (State.countOver s pm) := by
  unfold State.countOver
  repeat' first
    | with_reducible assumption
    | split
    | intro _
    | extract_lets
    | with_reducible apply Keeps.other
    | dsimp -zeta only

theorem Keeps.inputPeriod {s0 s : State} {codeV : Int} {codeI : Int} {energy : Int} (hk : Keeps s0 s)  : Keeps s0 (State.inputPeriod s codeV codeI energy) := by
  unfold State.inputPeriod
  repeat' first
    | with_reducible assumption
    | with_reducible apply Keeps.setFld
    | with_reducible apply Keeps.fitEstimate
    | with_reducible apply Keeps.shedPhases
    | with_reducible apply Keeps.countOver
    | split
    | intro _
    | extract_lets
    | dsimp -zeta only

theorem Keeps.periodBoundary {s0 s : State}  (hk : Keeps s0 s)  : Keeps s0 (State.periodBoundary s) := by
  unfold State.periodBoundary
  repeat' first
    | with_reducible assumption
    | with_reducible apply Keeps.setFlag
    | split
    | intro _
    | extract_lets
    | with_reducible apply Keeps.other
    | dsimp -zeta only

theorem Keeps.calPeriod {s0 s : State} {pair : Nat} (hk : Keeps s0 s)  : Keeps s0 (State.calPeriod s pair) := by
  unfold State.calPeriod
  repeat' first
    | with_reducible assumption
    | split
    | intro _
    | extract_lets
    | with_reducible apply Keeps.other
    | dsimp -zeta only

end Sys2Proof.Machine
end

