-- ==== Sys2Proof/Laws/KeepsResets.lean ====
section
/-! SUPPORT. The operations of Machine/Resets.lean keep the queue, the order of times and the canonical form. -/

namespace Sys2Proof.Machine

theorem Keeps.setPhase {s0 s : State} {k : Nat} (hk : Keeps s0 s)  : Keeps s0 (State.setPhase s k) := by
  unfold State.setPhase
  repeat' first
    | with_reducible assumption
    | with_reducible apply Keeps.setFld
    | split
    | intro _
    | extract_lets
    | with_reducible apply Keeps.other
    | dsimp -zeta only

theorem Keeps.hostAccess {s0 s : State} {fn : Nat} {isRead : Bool} {f : State → State} (hk : Keeps s0 s) (h_f : ∀ (v0 : State), Keeps s0 v0 → Keeps s0 (f v0)) : Keeps s0 (State.hostAccess s fn isRead f) := by
  unfold State.hostAccess
  repeat' first
    | with_reducible assumption
    | with_reducible apply Keeps.urAt
    | with_reducible apply h_f
    | split
    | intro _
    | extract_lets
    | dsimp -zeta only

theorem Keeps.countMaps {s0 s : State}  (hk : Keeps s0 s)  : Keeps s0 (State.countMaps s) := by
  unfold State.countMaps
  repeat' first
    | with_reducible assumption
    | with_reducible apply Keeps.setFld
    | with_reducible apply Keeps.each
    | split
    | intro _
    | extract_lets
    | dsimp -zeta only

theorem tsorted_filterMap_range {α : Type} {n : Nat} {a b : Nat} {key : Nat → Nat} {f : Nat → Option (Nat × α)}
    (hk : ∀ i, key i = a + b * i) (hb : 0 < b) (hf : ∀ i e, f i = some e → e.1 = key i) :
    tsorted ((List.range n).filterMap f) = true ∧ ∀ e ∈ (List.range n).filterMap f, a ≤ e.1 ∧ e.1 < a + b * n := by
  have h := tsorted_parts (g := fun i => (f i).toList) (lo := fun i => a + b * i) (fun i => by cases f i <;> rfl)
    (fun i e he => by
      have : f i = some e := by simpa [Option.mem_toList] using he
      have := hf i e this
      rw [hk] at this
      rw [this, Nat.mul_add]; omega) (fun i => by rw [Nat.mul_add]; omega) n
  have e : ∀ l : List Nat, l.filterMap f = l.flatMap fun i => (f i).toList := by
    intro l
    induction l with
    | nil => rfl
    | cons i l ih => rw [List.filterMap_cons, List.flatMap_cons, ← ih]; cases f i <;> rfl
  rw [← e] at h
  exact ⟨h.1, fun e he => ⟨by have := (h.2 e he).1; omega, (h.2 e he).2⟩⟩

theorem mapRecord_ok (s : State) : tsorted s.mapRecord = true ∧ ∀ e ∈ s.mapRecord, e.1 < 0x120000 := by
  have ht := tsorted_filterMap_range (n := 1024) (a := 0x11000) (b := 4) (key := fun i => (Reg.CFG_TILE_MAP i).key)
    (f := fun i => if BitVec.ofNat 64 ((s.reg (Reg.CFG_TILE_MAP i)).toNat % 2 ^ 13) = (Reg.CFG_TILE_MAP i).dflt then none
      else some ((Reg.CFG_TILE_MAP i).key, BitVec.ofNat 64 ((s.reg (Reg.CFG_TILE_MAP i)).toNat % 2 ^ 13)))
    (fun i => rfl) (by omega) (fun i e he => by split at he <;> cases he; rfl)
  have hp := tsorted_filterMap_range (n := 1088) (a := 0x12000) (b := 4) (key := fun i => (Reg.CFG_PHYS_MAP i).key)
    (f := fun i => if s.reg (Reg.CFG_PHYS_MAP i) = (Reg.CFG_PHYS_MAP i).dflt then none
      else some ((Reg.CFG_PHYS_MAP i).key, s.reg (Reg.CFG_PHYS_MAP i)))
    (fun i => rfl) (by omega) (fun i e he => by split at he <;> cases he; rfl)
  unfold State.mapRecord
  dsimp only
  constructor
  · exact tsorted_append (n := 0x12000) ht.1 hp.1 (fun e he => by have := (ht.2 e he).2; omega) fun e he => (hp.2 e he).1
  · intro e he
    rcases List.mem_append.1 he with he | he
    · have := (ht.2 e he).2; omega
    · have := (hp.2 e he).2; omega

theorem recordOk_getD {f : Flash} (h : f.recordOk = true) :
    tsorted (f.mapRec.getD []) = true ∧ ∀ e ∈ f.mapRec.getD [], e.1 < 0x120000 := by
  unfold Flash.recordOk at h
  split at h
  · rename_i m hm
    rw [hm]
    simpa only [Option.getD_some, Bool.and_eq_true, List.all_eq_true, decide_eq_true_eq] using h
  · rename_i hm
    rw [hm]
    exact ⟨rfl, fun e he => nomatch he⟩

theorem logOk_getD {f : Flash} (h : f.logOk = true) : (f.flog.getD {}).entries.length ≤ 126 := by
  unfold Flash.logOk at h
  split at h
  · rename_i m hm
    rw [hm]
    simpa using h
  · rename_i hm
    rw [hm]
    exact Nat.zero_le _

theorem Keeps.cleared {s0 s : State} {cold : Bool} (hk : Keeps s0 s) : Keeps s0 (s.cleared cold) := by
  unfold State.cleared
  dsimp only
  have key : ∀ {u : State}, Keeps s0 u → Keeps s0 (if s.flash.flogBad = true then
      ((u.countMaps).setFld Reg.THM_STAT Fld.THM_STAT_LAST_TRIP s.therm.lastTrip).fault 0x0703 0 0 0 []
      else (u.countMaps).setFld Reg.THM_STAT Fld.THM_STAT_LAST_TRIP s.therm.lastTrip) := by
    intro u hu
    split
    · exact hu.countMaps.setFld.fault
    · exact hu.countMaps.setFld
  refine key ⟨hk.pending, hk.now, hk.free, fun c => ?_⟩
  have hc := hk.canon c
  obtain ⟨hr, hb⟩ := recordOk_getD hc.record
  refine { mem := rfl, regs := ?_, hostMem := hc.hostMem, ctxs := rfl, aux := rfl, models := rfl, places := rfl, parts := rfl,
           pairs := rfl, procs := rfl, tiles := rfl, phys := rfl, lasers := rfl, rings := rfl, ports := rfl, globalLog := Nat.zero_le _,
           faultLog := logOk_getD hc.flashLog, events := ?_, record := hc.record, flashLog := hc.flashLog }
  · dsimp only
    split
    · exact hr
    · refine tsorted_append hr (tsorted_filter hc.regs) hb fun e he => ?_
      have := (List.mem_filter.1 he).2
      simp only [hkcKey, Bool.and_eq_true, decide_eq_true_eq] at this
      exact this.1
  · dsimp only
    split
    · exact Nat.zero_le _
    · exact hc.events

theorem Keeps.powerOff {s0 s : State}  (hk : Keeps s0 s)  : Keeps s0 (State.powerOff s) := by
  unfold State.powerOff
  repeat' first
    | with_reducible assumption
    | with_reducible apply Keeps.cleared
    | split
    | intro _
    | extract_lets
    | with_reducible apply Keeps.other
    | dsimp -zeta only

theorem Keeps.startAt {s0 s : State} {k : Nat} (hk : Keeps s0 s)  : Keeps s0 (State.startAt s k) := by
  unfold State.startAt
  repeat' first
    | with_reducible assumption
    | with_reducible apply Keeps.setPhase
    | split
    | intro _
    | extract_lets
    | with_reducible apply Keeps.other
    | dsimp -zeta only

theorem Keeps.moduleReset {s0 s : State}  (hk : Keeps s0 s)  : Keeps s0 (State.moduleReset s) := by
  unfold State.moduleReset
  repeat' first
    | with_reducible assumption
    | with_reducible apply Keeps.governorOn
    | with_reducible apply Keeps.cleared
    | with_reducible apply Keeps.startAt
    | split
    | intro _
    | extract_lets
    | dsimp -zeta only

theorem Keeps.clearQuadRegs {s0 s : State} {q : Nat} (hk : Keeps s0 s) : Keeps s0 (s.clearQuadRegs q) :=
  hk.setRegs tsorted_filter

theorem Keeps.clearQuadDies {s0 s : State} {q : Nat} (hk : Keeps s0 s) : Keeps s0 (s.clearQuadDies q) :=
  ⟨hk.pending, hk.now, hk.free, fun c => { hk.canon c with
    tiles := tsorted_filter (tsorted_map (fun e => by dsimp only; split <;> rfl) (hk.canon c).tiles)
    phys := tsorted_filter (tsorted_map (fun e => by dsimp only; split <;> rfl) (hk.canon c).phys)
    lasers := tsorted_filter (hk.canon c).lasers
    rings := tsorted_filter (hk.canon c).rings }⟩

theorem Keeps.quadReset {s0 s : State} {q : Nat} (hk : Keeps s0 s)  : Keeps s0 (State.quadReset s q) := by
  unfold State.quadReset
  repeat' first
    | with_reducible assumption
    | with_reducible apply Keeps.setFld
    | with_reducible apply Keeps.setFlag
    | with_reducible apply Keeps.setAux
    | with_reducible apply Keeps.each
    | with_reducible apply Keeps.writeBack
    | with_reducible apply Keeps.abandonRuns
    | with_reducible apply Keeps.fenceWork
    | with_reducible apply Keeps.portDown
    | with_reducible apply Keeps.pcpGone
    | with_reducible apply Keeps.clearQuadRegs
    | with_reducible apply Keeps.clearQuadDies
    | split
    | intro _
    | extract_lets
    | with_reducible apply Keeps.other
    | dsimp -zeta only

theorem Keeps.resetWrite {s0 s : State} {fn : Nat} {f : State → State} (hk : Keeps s0 s) (h_f : ∀ (v0 : State), Keeps s0 v0 → Keeps s0 (f v0)) : Keeps s0 (State.resetWrite s fn f) := by
  unfold State.resetWrite
  repeat' first
    | with_reducible assumption
    | with_reducible apply Keeps.refuseWrite
    | with_reducible apply Keeps.hostAccess
    | with_reducible apply h_f
    | split
    | intro _
    | extract_lets
    | dsimp -zeta only

theorem Keeps.flr {s0 s : State} {f : Nat} (hk : Keeps s0 s)  : Keeps s0 (State.flr s f) := by
  unfold State.flr
  repeat' first
    | with_reducible assumption
    | with_reducible apply Keeps.each
    | with_reducible apply Keeps.msixReset
    | with_reducible apply Keeps.fenceSweep
    | with_reducible apply Keeps.ringOff
    | split
    | intro _
    | extract_lets
    | dsimp -zeta only

end Sys2Proof.Machine
end

