-- ==== Sys2Proof/Laws/KeepsThermal.lean ====
section
/-! SUPPORT. The operations of Machine/Thermal.lean keep the queue, the order of times and the canonical form. -/

namespace Sys2Proof.Machine

theorem Keeps.readSensor {s0 s : State} {r : Nat} {k : Nat} {t : Int} (hk : Keeps s0 s)  : Keeps s0 (State.readSensor s r k t) := by
  unfold State.readSensor
  repeat' first
    | with_reducible assumption
    | with_reducible apply Keeps.bump
    | with_reducible apply Keeps.fault
    | split
    | intro _
    | extract_lets
    | with_reducible apply Keeps.other
    | dsimp -zeta only

theorem Keeps.clampDrives {s0 s : State} {c : Nat} {rs : List Nat} (hk : Keeps s0 s)  : Keeps s0 (State.clampDrives s c rs) := by
  unfold State.clampDrives
  repeat' first
    | with_reducible assumption
    | with_reducible apply Keeps.setRing
    | with_reducible apply Keeps.each
    | split
    | intro _
    | extract_lets
    | with_reducible apply Keeps.other
    | dsimp -zeta only

theorem Keeps.objBand {s0 s : State} {o : CalObj} (hk : Keeps s0 s)  : Keeps s0 (State.objBand s o) := by
  unfold State.objBand
  repeat' first
    | with_reducible assumption
    | with_reducible apply Keeps.switchBand
    | with_reducible apply Keeps.enterBand
    | split
    | intro _
    | extract_lets
    | dsimp -zeta only

theorem Keeps.bandMoved {s0 s : State} {r : Nat} {k : Nat} (hk : Keeps s0 s)  : Keeps s0 (State.bandMoved s r k) := by
  unfold State.bandMoved
  repeat' first
    | with_reducible assumption
    | with_reducible apply Keeps.bump
    | with_reducible apply Keeps.each
    | with_reducible apply Keeps.enterBand
    | with_reducible apply Keeps.clampDrives
    | with_reducible apply Keeps.objBand
    | split
    | intro _
    | extract_lets
    | dsimp -zeta only

theorem Keeps.stepBand {s0 s : State} {key : Nat} {t : Int} (hk : Keeps s0 s)  : Keeps s0 (State.stepBand s key t).1 := by
  unfold State.stepBand
  repeat' first
    | with_reducible assumption
    | split
    | intro _
    | extract_lets
    | with_reducible apply Keeps.other
    | dsimp -zeta only

theorem Keeps.stepBands {s0 s : State} {r : Nat} {max_ : Int} (hk : Keeps s0 s)  : Keeps s0 (State.stepBands s r max_) := by
  unfold State.stepBands
  repeat' first
    | with_reducible assumption
    | with_reducible apply Keeps.setFld
    | with_reducible apply Keeps.bump
    | with_reducible apply Keeps.setLaser
    | with_reducible apply Keeps.each
    | with_reducible apply Keeps.enterBand
    | with_reducible apply Keeps.bandMoved
    | with_reducible apply Keeps.stepBand
    | split
    | intro _
    | extract_lets
    | (with_reducible apply Keeps.fst_of_eq; with_reducible assumption)
    | with_reducible apply Keeps.foldlFst
    | with_reducible apply Keeps.other
    | dsimp -zeta only

theorem Keeps.freshTherm {s0 s : State} {r : Nat} (hk : Keeps s0 s)  : Keeps s0 (State.freshTherm s r) := by
  unfold State.freshTherm
  repeat' first
    | with_reducible assumption
    | with_reducible apply Keeps.setFld
    | with_reducible apply Keeps.setFlag
    | with_reducible apply Keeps.foldl
    | with_reducible apply Keeps.each
    | with_reducible apply Keeps.freshCeil
    | with_reducible apply Keeps.freshBoost
    | split
    | intro _
    | extract_lets
    | dsimp -zeta only

theorem Keeps.condBegins {s0 s : State} {r : Nat} {row : Nat} (hk : Keeps s0 s)  : Keeps s0 (State.condBegins s r row) := by
  unfold State.condBegins
  repeat' first
    | with_reducible assumption
    | with_reducible apply Keeps.bump
    | with_reducible apply Keeps.each
    | with_reducible apply Keeps.pldm
    | with_reducible apply Keeps.fault
    | with_reducible apply Keeps.dropRaise
    | split
    | intro _
    | extract_lets
    | with_reducible apply Keeps.other
    | dsimp -zeta only

theorem Keeps.stepConds {s0 s : State} {r : Nat} {t : Int} {rate : Option Int} (hk : Keeps s0 s)  : Keeps s0 (State.stepConds s r t rate) := by
  unfold State.stepConds
  repeat' first
    | with_reducible assumption
    | with_reducible apply Keeps.bumpBy
    | with_reducible apply Keeps.each
    | with_reducible apply Keeps.freshTherm
    | with_reducible apply Keeps.condBegins
    | split
    | intro _
    | extract_lets
    | with_reducible apply Keeps.other
    | dsimp -zeta only

end Sys2Proof.Machine
end

