-- ==== Sys2Proof/Laws/KeepsStartup.lean ====
section
/-! SUPPORT. The operations of Machine/Startup.lean keep the queue, the order of times and the canonical form. -/

namespace Sys2Proof.Machine

theorem Keeps.readBoot {s0 s : State}  (hk : Keeps s0 s)  : Keeps s0 (State.readBoot s) := by
  unfold State.readBoot
  repeat' first
    | with_reducible assumption
    | with_reducible apply Keeps.wrReg
    | with_reducible apply Keeps.setFld
    | with_reducible apply Keeps.each
    | with_reducible apply Keeps.fault
    | split
    | intro _
    | extract_lets
    | with_reducible apply Keeps.other
    | dsimp -zeta only

theorem Keeps.enterRecovery {s0 s : State}  (hk : Keeps s0 s)  : Keeps s0 (State.enterRecovery s) := by
  unfold State.enterRecovery
  repeat' first
    | with_reducible assumption
    | with_reducible apply Keeps.setFlag
    | with_reducible apply Keeps.fault
    | split
    | intro _
    | extract_lets
    | dsimp -zeta only

theorem Keeps.verified {s0 s : State} {bank : Nat} {ok : Bool} (hk : Keeps s0 s)  : Keeps s0 (State.verified s bank ok) := by
  unfold State.verified
  repeat' first
    | with_reducible assumption
    | with_reducible apply Keeps.setFld
    | with_reducible apply Keeps.setFlag
    | split
    | intro _
    | extract_lets
    | dsimp -zeta only

theorem Keeps.bootVerify {s0 s : State} {sigs : List Nat} (hk : Keeps s0 s)  : Keeps s0 (State.bootVerify s sigs) := by
  unfold State.bootVerify
  repeat' first
    | with_reducible assumption
    | with_reducible apply Keeps.setFld
    | with_reducible apply Keeps.setFlag
    | with_reducible apply Keeps.fault
    | with_reducible apply Keeps.enterRecovery
    | with_reducible apply Keeps.verified
    | split
    | intro _
    | extract_lets
    | dsimp -zeta only

theorem Keeps.bootQuad {s0 s : State} {q : Nat} (hk : Keeps s0 s)  : Keeps s0 (State.bootQuad s q) := by
  unfold State.bootQuad
  repeat' first
    | with_reducible assumption
    | with_reducible apply Keeps.wrReg
    | with_reducible apply Keeps.setFld
    | with_reducible apply Keeps.setFlag
    | with_reducible apply Keeps.each
    | split
    | intro _
    | extract_lets
    | dsimp -zeta only

theorem Keeps.release {s0 s : State}  (hk : Keeps s0 s)  : Keeps s0 (State.release s) := by
  unfold State.release
  repeat' first
    | with_reducible assumption
    | with_reducible apply Keeps.setFlag
    | with_reducible apply Keeps.each
    | with_reducible apply Keeps.clearKey
    | with_reducible apply Keeps.governorOff
    | with_reducible apply Keeps.bootQuad
    | split
    | intro _
    | extract_lets
    | dsimp -zeta only

theorem Keeps.trainStacks {s0 s : State} {qs : List Nat} {fails : List Nat} (hk : Keeps s0 s)  : Keeps s0 (State.trainStacks s qs fails) := by
  unfold State.trainStacks
  repeat' first
    | with_reducible assumption
    | with_reducible apply Keeps.setFld
    | split
    | intro _
    | extract_lets
    | dsimp -zeta only

theorem Keeps.placeSystem {s0 s : State}  (hk : Keeps s0 s)  : Keeps s0 (State.placeSystem s) := by
  unfold State.placeSystem
  repeat' first
    | with_reducible assumption
    | with_reducible apply Keeps.setFld
    | with_reducible apply Keeps.freshTables
    | split
    | intro _
    | extract_lets
    | with_reducible apply Keeps.other
    | with_reducible apply Keeps.clearMem
    | dsimp -zeta only

theorem Keeps.takeRetirements {s0 s : State} {i : Nat} {r : CalResult} (hk : Keeps s0 s)  : Keeps s0 (State.takeRetirements s i r) := by
  unfold State.takeRetirements
  repeat' first
    | with_reducible assumption
    | with_reducible apply Keeps.setPhy
    | with_reducible apply Keeps.each
    | split
    | intro _
    | extract_lets
    | with_reducible apply Keeps.other
    | dsimp -zeta only

theorem Keeps.loadRetirements {s0 s : State}  (hk : Keeps s0 s)  : Keeps s0 (State.loadRetirements s) := by
  unfold State.loadRetirements
  repeat' first
    | with_reducible assumption
    | with_reducible apply Keeps.each
    | with_reducible apply Keeps.calFault
    | with_reducible apply Keeps.takeRetirements
    | split
    | intro _
    | extract_lets
    | with_reducible apply Keeps.other
    | dsimp -zeta only

theorem Keeps.takeFlashRecord {s0 s : State} {o : CalObj} {r : CalResult} (hk : Keeps s0 s)  : Keeps s0 (State.takeFlashRecord s o r) := by
  unfold State.takeFlashRecord
  repeat' first
    | with_reducible assumption
    | with_reducible apply Keeps.setLaser
    | with_reducible apply Keeps.foldl
    | with_reducible apply Keeps.rampAll
    | with_reducible apply Keeps.takeHeaters
    | split
    | intro _
    | extract_lets
    | (with_reducible apply Keeps.fst_of_eq; with_reducible assumption)
    | with_reducible apply Keeps.foldlFst
    | with_reducible apply Keeps.other
    | dsimp -zeta only

theorem Keeps.loadRecord {s0 s : State} {o : CalObj} {band : Nat} {r : CalResult} (hk : Keeps s0 s)  : Keeps s0 (State.loadRecord s o band r) := by
  unfold State.loadRecord
  repeat' first
    | with_reducible assumption
    | with_reducible apply Keeps.putSet
    | with_reducible apply Keeps.takeFlashRecord
    | split
    | intro _
    | extract_lets
    | with_reducible apply Keeps.other
    | dsimp -zeta only

theorem Keeps.loadRecords {s0 s : State} {mine : CalObj → Bool} (hk : Keeps s0 s)  : Keeps s0 (State.loadRecords s mine) := by
  unfold State.loadRecords
  repeat' first
    | with_reducible assumption
    | with_reducible apply Keeps.each
    | with_reducible apply Keeps.calFault
    | with_reducible apply Keeps.loadRecord
    | split
    | intro _
    | extract_lets
    | with_reducible apply Keeps.other
    | dsimp -zeta only

theorem Keeps.selfTests {s0 s : State} {qs : List Nat} {fails : List Nat} (hk : Keeps s0 s)  : Keeps s0 (State.selfTests s qs fails) := by
  unfold State.selfTests
  repeat' first
    | with_reducible assumption
    | with_reducible apply Keeps.each
    | with_reducible apply Keeps.physRetired
    | with_reducible apply Keeps.decideRetire
    | with_reducible apply Keeps.countMaps
    | split
    | intro _
    | extract_lets
    | dsimp -zeta only

theorem Keeps.beginRuns {s0 s : State} {os : List CalObj} (hk : Keeps s0 s)  : Keeps s0 (State.beginRuns s os) := by
  unfold State.beginRuns
  repeat' first
    | with_reducible assumption
    | with_reducible apply Keeps.each
    | with_reducible apply Keeps.beginRun
    | split
    | intro _
    | extract_lets
    | dsimp -zeta only

theorem Keeps.endRuns {s0 s : State} {mine : CalObj → Bool} (hk : Keeps s0 s)  : Keeps s0 (State.endRuns s mine) := by
  unfold State.endRuns
  repeat' first
    | with_reducible assumption
    | with_reducible apply Keeps.each
    | with_reducible apply Keeps.calHold
    | split
    | intro _
    | extract_lets
    | with_reducible apply Keeps.other
    | dsimp -zeta only

theorem tsorted_rings {q : Nat} {v : Nat → Nat → Ring} :
    tsorted ((List.range 278).flatMap fun k => (List.range (clusterRings (512 * q + k))).map fun r => (ringKey (512 * q + k) r, v k r)) = true ∧
    ∀ e ∈ (List.range 278).flatMap fun k => (List.range (clusterRings (512 * q + k))).map fun r => (ringKey (512 * q + k) r, v k r),
      q * 65536 ≤ e.1 ∧ e.1 < (q + 1) * 65536 := by
  have hr : ∀ c, clusterRings c ≤ 128 := by
    intro c; unfold clusterRings; split <;> omega
  have hp := tsorted_parts (g := fun k => (List.range (clusterRings (512 * q + k))).map fun r => (ringKey (512 * q + k) r, v k r))
    (lo := fun k => (512 * q + k) * 128) (fun k => ?_) (fun k e he => ?_) (fun k => by omega) 278
  · refine ⟨hp.1, fun e he => ?_⟩
    have := hp.2 e he
    omega
  · have h1 := tsorted_parts (g := fun r => [(ringKey (512 * q + k) r, v k r)]) (lo := fun r => (512 * q + k) * 128 + r) (fun _ => rfl)
      (fun r e he => by simp only [List.mem_singleton] at he; subst he; simp only [ringKey]; omega) (fun r => by omega)
      (clusterRings (512 * q + k))
    rw [List.map_eq_flatMap]
    exact h1.1
  · obtain ⟨r, hm, rfl⟩ := List.mem_map.1 he
    have := List.mem_range.1 hm
    have := hr (512 * q + k)
    simp only [ringKey]; omega

theorem Keeps.mapRings {s0 s : State} {q : Nat} {f : Nat → Nat → Ring → Ring} (hk : Keeps s0 s) : Keeps s0 (s.mapRings q f) := by
  refine hk.setRings fun h => ?_
  obtain ⟨h1, h2⟩ := tsorted_rings (q := q) (v := fun k r => f (512 * q + k) r (s.ring (512 * q + k) r))
  refine tsorted_append (n := (q + 1) * 65536) (tsorted_append (n := q * 65536) (tsorted_filter h) (tsorted_filter h1) ?_ ?_)
    (tsorted_filter h) ?_ ?_
  · intro e he
    have := (List.mem_filter.1 he).2
    simp only [decide_eq_true_eq] at this
    omega
  · intro e he
    exact (h2 e (List.mem_filter.1 he).1).1
  · intro e he
    rcases List.mem_append.1 he with he | he
    · have := (List.mem_filter.1 he).2
      simp only [decide_eq_true_eq] at this
      omega
    · exact (h2 e (List.mem_filter.1 he).1).2
  · intro e he
    have := (List.mem_filter.1 he).2
    simp only [decide_eq_true_eq] at this
    omega

theorem Keeps.lightUp {s0 s : State} {q : Nat} (hk : Keeps s0 s)  : Keeps s0 (State.lightUp s q) := by
  unfold State.lightUp
  repeat' first
    | with_reducible assumption
    | with_reducible apply Keeps.each
    | with_reducible apply Keeps.warmLaser
    | with_reducible apply Keeps.mapRings
    | split
    | intro _
    | extract_lets
    | with_reducible apply Keeps.other
    | dsimp -zeta only

theorem Keeps.lit {s0 s : State} {q : Nat} {laserFail : List Nat} {ringFail : List (Nat × Nat)} (hk : Keeps s0 s)  : Keeps s0 (State.lit s q laserFail ringFail) := by
  unfold State.lit
  repeat' first
    | with_reducible assumption
    | with_reducible apply Keeps.setFlag
    | with_reducible apply Keeps.setLaser
    | with_reducible apply Keeps.each
    | with_reducible apply Keeps.setLas
    | with_reducible apply Keeps.countSpares
    | with_reducible apply Keeps.clusterStat
    | with_reducible apply Keeps.ringFails
    | with_reducible apply Keeps.warmLaser
    | with_reducible apply Keeps.verified
    | with_reducible apply Keeps.mapRings
    | split
    | intro _
    | extract_lets
    | with_reducible apply Keeps.other
    | dsimp -zeta only

theorem Keeps.marginTest {s0 s : State} {n : Nat} {o : StartObs} (hk : Keeps s0 s)  : Keeps s0 (State.marginTest s n o) := by
  unfold State.marginTest
  repeat' first
    | with_reducible assumption
    | with_reducible apply Keeps.each
    | with_reducible apply Keeps.laneFigures
    | split
    | intro _
    | extract_lets
    | with_reducible apply Keeps.other
    | dsimp -zeta only

theorem Keeps.joinPorts {s0 s : State} {o : StartObs} (hk : Keeps s0 s)  : Keeps s0 (State.joinPorts s o) := by
  unfold State.joinPorts
  repeat' first
    | with_reducible assumption
    | with_reducible apply Keeps.setFld
    | with_reducible apply Keeps.setFlag
    | with_reducible apply Keeps.each
    | with_reducible apply Keeps.trainPort
    | with_reducible apply Keeps.marginTest
    | split
    | intro _
    | extract_lets
    | dsimp -zeta only

theorem Keeps.becomeReady {s0 s : State}  (hk : Keeps s0 s)  : Keeps s0 (State.becomeReady s) := by
  unfold State.becomeReady
  repeat' first
    | with_reducible assumption
    | with_reducible apply Keeps.setFld
    | with_reducible apply Keeps.pldm
    | with_reducible apply Keeps.setPhase
    | split
    | intro _
    | extract_lets
    | dsimp -zeta only

theorem Keeps.stepEnds {s0 s : State} {o : StartObs} (hk : Keeps s0 s)  : Keeps s0 (State.stepEnds s o) := by
  unfold State.stepEnds
  repeat' first
    | with_reducible assumption
    | with_reducible apply Keeps.setFld
    | with_reducible apply Keeps.setFlag
    | with_reducible apply Keeps.each
    | with_reducible apply Keeps.fault
    | with_reducible apply Keeps.enterError
    | with_reducible apply Keeps.governorOn
    | with_reducible apply Keeps.setPhase
    | with_reducible apply Keeps.readBoot
    | with_reducible apply Keeps.enterRecovery
    | with_reducible apply Keeps.bootVerify
    | with_reducible apply Keeps.release
    | with_reducible apply Keeps.trainStacks
    | with_reducible apply Keeps.placeSystem
    | with_reducible apply Keeps.loadRetirements
    | with_reducible apply Keeps.loadRecords
    | with_reducible apply Keeps.selfTests
    | with_reducible apply Keeps.beginRuns
    | with_reducible apply Keeps.endRuns
    | with_reducible apply Keeps.lightUp
    | with_reducible apply Keeps.lit
    | with_reducible apply Keeps.joinPorts
    | with_reducible apply Keeps.becomeReady
    | split
    | intro _
    | extract_lets
    | with_reducible apply Keeps.other
    | dsimp -zeta only

theorem Keeps.quadDone {s0 s : State} {q : Nat} (hk : Keeps s0 s)  : Keeps s0 (State.quadDone s q) := by
  unfold State.quadDone
  repeat' first
    | with_reducible assumption
    | with_reducible apply Keeps.setFld
    | split
    | intro _
    | extract_lets
    | with_reducible apply Keeps.other
    | dsimp -zeta only

theorem Keeps.quadStepEnds {s0 s : State} {q : Nat} {k : Nat} {o : StartObs} (hk : Keeps s0 s)  : Keeps s0 (State.quadStepEnds s q k o) := by
  unfold State.quadStepEnds
  repeat' first
    | with_reducible assumption
    | with_reducible apply Keeps.each
    | with_reducible apply Keeps.bootQuad
    | with_reducible apply Keeps.trainStacks
    | with_reducible apply Keeps.loadRecords
    | with_reducible apply Keeps.selfTests
    | with_reducible apply Keeps.beginRuns
    | with_reducible apply Keeps.endRuns
    | with_reducible apply Keeps.lightUp
    | with_reducible apply Keeps.lit
    | with_reducible apply Keeps.marginTest
    | with_reducible apply Keeps.quadDone
    | split
    | intro _
    | extract_lets
    | with_reducible apply Keeps.other
    | dsimp -zeta only

end Sys2Proof.Machine
end

