-- ==== Sys2Proof/Laws/KeepsFirmware.lean ====
section
/-! SUPPORT. The operations of Machine/Firmware.lean keep the queue, the order of times and the canonical form. -/

namespace Sys2Proof.Machine

theorem Keeps.leaveChainOf {s0 s : State} {o : LongOp} (hk : Keeps s0 s)  : Keeps s0 (State.leaveChainOf s o) := by
  unfold State.leaveChainOf
  repeat' first
    | with_reducible assumption
    | with_reducible apply Keeps.leaveChain
    | split
    | intro _
    | extract_lets
    | with_reducible apply Keeps.other
    | dsimp -zeta only

theorem Keeps.restartLong {s0 s : State} {o : LongOp} (hk : Keeps s0 s)  : Keeps s0 (State.restartLong s o) := by
  unfold State.restartLong
  repeat' first
    | with_reducible assumption
    | with_reducible apply Keeps.setFld
    | with_reducible apply Keeps.endLong
    | with_reducible apply Keeps.twinSolo
    | with_reducible apply Keeps.failLoad
    | with_reducible apply Keeps.giveUpSwap
    | with_reducible apply Keeps.endSwap
    | with_reducible apply Keeps.leaveChainOf
    | split
    | intro _
    | extract_lets
    | with_reducible apply Keeps.other
    | dsimp -zeta only

theorem Keeps.restartWaits {s0 s : State} {i : Nat} (hk : Keeps s0 s)  : Keeps s0 (State.restartWaits s i) := by
  unfold State.restartWaits
  repeat' first
    | with_reducible assumption
    | with_reducible apply Keeps.setModel
    | with_reducible apply Keeps.setPlace
    | with_reducible apply Keeps.each
    | with_reducible apply Keeps.reply
    | split
    | intro _
    | extract_lets
    | with_reducible apply Keeps.other
    | dsimp -zeta only

theorem Keeps.restartRuns {s0 s : State} {mine : CalObj → Bool} (hk : Keeps s0 s)  : Keeps s0 (State.restartRuns s mine) := by
  unfold State.restartRuns
  repeat' first
    | with_reducible assumption
    | with_reducible apply Keeps.each
    | with_reducible apply Keeps.abandonRuns
    | with_reducible apply Keeps.laneBack
    | split
    | intro _
    | extract_lets
    | dsimp -zeta only

theorem Keeps.procGone {s0 s : State} {i : Nat} {spare : LongOp → Bool} (hk : Keeps s0 s)  : Keeps s0 (State.procGone s i spare) := by
  unfold State.procGone
  repeat' first
    | with_reducible assumption
    | with_reducible apply Keeps.setFlag
    | with_reducible apply Keeps.each
    | with_reducible apply Keeps.pcpGone
    | with_reducible apply Keeps.governorOn
    | with_reducible apply Keeps.restartLong
    | with_reducible apply Keeps.restartWaits
    | with_reducible apply Keeps.restartRuns
    | split
    | intro _
    | extract_lets
    | with_reducible apply Keeps.other
    | dsimp -zeta only

theorem Keeps.svcFwStage {s0 s : State} {h : Hdr} {offset : BitVec 32} {bytes : BitVec 32} {src : BitVec 64} {rsv : BitVec 64} {data : List Byte} (hk : Keeps s0 s)  : Keeps s0 (State.svcFwStage s h offset bytes src rsv data) := by
  unfold State.svcFwStage
  repeat' first
    | with_reducible assumption
    | with_reducible apply Keeps.checked
    | with_reducible apply Keeps.startLong
    | split
    | intro _
    | extract_lets
    | with_reducible apply Keeps.other
    | dsimp -zeta only

theorem Keeps.eraseBlock {s0 s : State} {k : Nat} (hk : Keeps s0 s)  : Keeps s0 (State.eraseBlock s k) := by
  unfold State.eraseBlock
  repeat' first
    | with_reducible assumption
    | split
    | intro _
    | extract_lets
    | with_reducible apply Keeps.other
    | with_reducible apply Keeps.otherFlash
    | dsimp -zeta only

theorem Keeps.programPage {s0 s : State} {a : Nat} {page : List Byte} (hk : Keeps s0 s)  : Keeps s0 (State.programPage s a page) := by
  unfold State.programPage
  repeat' first
    | with_reducible assumption
    | split
    | intro _
    | extract_lets
    | with_reducible apply Keeps.other
    | with_reducible apply Keeps.otherFlash
    | dsimp -zeta only

theorem Keeps.sliceStage {s0 s : State} {o : LongOp} {offset : Nat} {data : List Byte} (hk : Keeps s0 s)  : Keeps s0 (State.sliceStage s o offset data) := by
  unfold State.sliceStage
  repeat' first
    | with_reducible assumption
    | with_reducible apply Keeps.setFlag
    | with_reducible apply Keeps.setLong
    | with_reducible apply Keeps.endLongAt
    | with_reducible apply Keeps.advanceLong
    | with_reducible apply Keeps.selTake
    | with_reducible apply Keeps.flashDone
    | with_reducible apply Keeps.eraseBlock
    | with_reducible apply Keeps.programPage
    | split
    | intro _
    | extract_lets
    | with_reducible apply Keeps.other
    | dsimp -zeta only

theorem Keeps.actPhase {s0 s : State} {k : Nat} (hk : Keeps s0 s)  : Keeps s0 (State.actPhase s k) := by
  unfold State.actPhase
  repeat' first
    | with_reducible assumption
    | with_reducible apply Keeps.setFld
    | split
    | intro _
    | extract_lets
    | with_reducible apply Keeps.other
    | dsimp -zeta only

theorem Keeps.actEnds {s0 s : State} {result : Nat} {status : Nat} {detail : Nat} (hk : Keeps s0 s)  : Keeps s0 (State.actEnds s result status detail) := by
  unfold State.actEnds
  repeat' first
    | with_reducible assumption
    | with_reducible apply Keeps.setFld
    | with_reducible apply Keeps.endLongAt
    | with_reducible apply Keeps.actPhase
    | split
    | intro _
    | extract_lets
    | with_reducible apply Keeps.other
    | dsimp -zeta only

theorem Keeps.svcFwActivate {s0 s : State} {h : Hdr} {bank : BitVec 8} {rsv : BitVec 56} {sigOk : Bool} (hk : Keeps s0 s)  : Keeps s0 (State.svcFwActivate s h bank rsv sigOk) := by
  unfold State.svcFwActivate
  repeat' first
    | with_reducible assumption
    | with_reducible apply Keeps.checked
    | with_reducible apply Keeps.startLong
    | with_reducible apply Keeps.actPhase
    | split
    | intro _
    | extract_lets
    | with_reducible apply Keeps.other
    | dsimp -zeta only

theorem Keeps.writeBootRecord {s0 s : State} {bank : Nat} (hk : Keeps s0 s)  : Keeps s0 (State.writeBootRecord s bank) := by
  unfold State.writeBootRecord
  repeat' first
    | with_reducible assumption
    | with_reducible apply Keeps.setFld
    | with_reducible apply Keeps.setFlag
    | with_reducible apply Keeps.flashDone
    | split
    | intro _
    | extract_lets
    | with_reducible apply Keeps.other
    | with_reducible apply Keeps.otherFlash
    | dsimp -zeta only

theorem Keeps.sliceActivate {s0 s : State} {o : LongOp} {bank : Nat} {sigOk : Bool} (hk : Keeps s0 s)  : Keeps s0 (State.sliceActivate s o bank sigOk) := by
  unfold State.sliceActivate
  repeat' first
    | with_reducible assumption
    | with_reducible apply Keeps.setFlag
    | with_reducible apply Keeps.advanceLong
    | with_reducible apply Keeps.setPhase
    | with_reducible apply Keeps.verified
    | with_reducible apply Keeps.actPhase
    | with_reducible apply Keeps.actEnds
    | with_reducible apply Keeps.writeBootRecord
    | split
    | intro _
    | extract_lets
    | with_reducible apply Keeps.other
    | dsimp -zeta only

theorem Keeps.switchBank {s0 s : State} {bank : Nat} (hk : Keeps s0 s)  : Keeps s0 (State.switchBank s bank) := by
  unfold State.switchBank
  repeat' first
    | with_reducible assumption
    | with_reducible apply Keeps.setFld
    | with_reducible apply Keeps.each
    | with_reducible apply Keeps.procGone
    | split
    | intro _
    | extract_lets
    | with_reducible apply Keeps.other
    | dsimp -zeta only

theorem Keeps.actCheck {s0 s : State}  (hk : Keeps s0 s)  : Keeps s0 (State.actCheck s) := by
  unfold State.actCheck
  repeat' first
    | with_reducible assumption
    | with_reducible apply Keeps.actEnds
    | with_reducible apply Keeps.writeBootRecord
    | split
    | intro _
    | extract_lets
    | with_reducible apply Keeps.other
    | dsimp -zeta only

end Sys2Proof.Machine
end

