-- ==== Sys2Proof/Laws/KeepsDoorbells.lean ====
section
/-! SUPPORT. The operations of Machine/Doorbells.lean keep the queue, the order of times and the canonical form. -/

namespace Sys2Proof.Machine

theorem Keeps.badDoorbell {s0 s : State} {f : Nat} {r : Nat} {off : Nat} (hk : Keeps s0 s)  : Keeps s0 (State.badDoorbell s f r off) := by
  unfold State.badDoorbell
  repeat' first
    | with_reducible assumption
    | with_reducible apply Keeps.violate
    | with_reducible apply Keeps.post
    | split
    | intro _
    | extract_lets
    | dsimp -zeta only

theorem Keeps.writeSqDb {s0 s : State} {f : Nat} {r : Nat} {tail : Nat} (hk : Keeps s0 s)  : Keeps s0 (State.writeSqDb s f r tail) := by
  unfold State.writeSqDb
  repeat' first
    | with_reducible assumption
    | with_reducible apply Keeps.setFld
    | with_reducible apply Keeps.badDoorbell
    | split
    | intro _
    | extract_lets
    | dsimp -zeta only

theorem Keeps.writeCqDb {s0 s : State} {f : Nat} {r : Nat} {head : Nat} (hk : Keeps s0 s)  : Keeps s0 (State.writeCqDb s f r head) := by
  unfold State.writeCqDb
  repeat' first
    | with_reducible assumption
    | with_reducible apply Keeps.setFld
    | with_reducible apply Keeps.badDoorbell
    | split
    | intro _
    | extract_lets
    | dsimp -zeta only

theorem Keeps.writeRingCfg {s0 s : State} {f : Nat} {r : Nat} {v : Word64} (hk : Keeps s0 s)  : Keeps s0 (State.writeRingCfg s f r v) := by
  unfold State.writeRingCfg
  repeat' first
    | with_reducible assumption
    | with_reducible apply Keeps.wrReg
    | with_reducible apply Keeps.refuseWrite
    | with_reducible apply Keeps.fenceSweep
    | with_reducible apply Keeps.ringOff
    | split
    | intro _
    | extract_lets
    | dsimp -zeta only

theorem Keeps.writeInv {s0 s : State} {fn : Nat} {p : Nat} {v : Word64} (hk : Keeps s0 s)  : Keeps s0 (State.writeInv s fn p v) := by
  unfold State.writeInv
  repeat' first
    | with_reducible assumption
    | with_reducible apply Keeps.wrReg
    | with_reducible apply Keeps.setPart
    | with_reducible apply Keeps.refuseWrite
    | split
    | intro _
    | extract_lets
    | with_reducible apply Keeps.other
    | dsimp -zeta only

theorem Keeps.invDone {s0 s : State} {p : Nat} (hk : Keeps s0 s)  : Keeps s0 (State.invDone s p) := by
  unfold State.invDone
  repeat' first
    | with_reducible assumption
    | with_reducible apply Keeps.setFlag
    | with_reducible apply Keeps.setPart
    | split
    | intro _
    | extract_lets
    | with_reducible apply Keeps.other
    | dsimp -zeta only

theorem Keeps.writeResTail {s0 s : State} {p : Nat} {tail : Nat} (hk : Keeps s0 s)  : Keeps s0 (State.writeResTail s p tail) := by
  unfold State.writeResTail
  repeat' first
    | with_reducible assumption
    | with_reducible apply Keeps.setFld
    | with_reducible apply Keeps.refuseWrite
    | with_reducible apply Keeps.resNotify
    | with_reducible apply Keeps.resRearm
    | with_reducible apply Keeps.retryStarved
    | split
    | intro _
    | extract_lets
    | dsimp -zeta only

theorem Keeps.writeFreeHead {s0 s : State} {p : Nat} {head : Nat} (hk : Keeps s0 s)  : Keeps s0 (State.writeFreeHead s p head) := by
  unfold State.writeFreeHead
  repeat' first
    | with_reducible assumption
    | with_reducible apply Keeps.setFld
    | with_reducible apply Keeps.freeRun
    | split
    | intro _
    | extract_lets
    | dsimp -zeta only

theorem Keeps.writePortCfg {s0 s : State} {n : Nat} {v : Word64} (hk : Keeps s0 s)  : Keeps s0 (State.writePortCfg s n v) := by
  unfold State.writePortCfg
  repeat' first
    | with_reducible assumption
    | with_reducible apply Keeps.wrReg
    | with_reducible apply Keeps.portDown
    | with_reducible apply Keeps.trainPort
    | with_reducible apply Keeps.joinEnds
    | split
    | intro _
    | extract_lets
    | dsimp -zeta only

theorem Keeps.writeLnkCfg {s0 s : State} {v : Word64} (hk : Keeps s0 s)  : Keeps s0 (State.writeLnkCfg s v) := by
  unfold State.writeLnkCfg
  repeat' first
    | with_reducible assumption
    | with_reducible apply Keeps.wrReg
    | with_reducible apply Keeps.each
    | with_reducible apply Keeps.portDown
    | split
    | intro _
    | extract_lets
    | dsimp -zeta only

theorem Keeps.writeJrn {s0 s : State} {fn : Nat} {v : Word64} (hk : Keeps s0 s)  : Keeps s0 (State.writeJrn s fn v) := by
  unfold State.writeJrn
  repeat' first
    | with_reducible assumption
    | with_reducible apply Keeps.wrReg
    | with_reducible apply Keeps.refuseWrite
    | split
    | intro _
    | extract_lets
    | dsimp -zeta only

theorem Keeps.writeSchCfg {s0 s : State} {v : Word64} (hk : Keeps s0 s)  : Keeps s0 (State.writeSchCfg s v) := by
  unfold State.writeSchCfg
  repeat' first
    | with_reducible assumption
    | with_reducible apply Keeps.wrReg
    | split
    | intro _
    | extract_lets
    | with_reducible apply Keeps.other
    | dsimp -zeta only

theorem Keeps.writePowCap {s0 s : State} {v : Word64} (hk : Keeps s0 s)  : Keeps s0 (State.writePowCap s v) := by
  unfold State.writePowCap
  repeat' first
    | with_reducible assumption
    | with_reducible apply Keeps.wrReg
    | with_reducible apply Keeps.freshCap
    | split
    | intro _
    | extract_lets
    | dsimp -zeta only

theorem Keeps.writeHkcCfg {s0 s : State} {v : Word64} (hk : Keeps s0 s)  : Keeps s0 (State.writeHkcCfg s v) := by
  unfold State.writeHkcCfg
  repeat' first
    | with_reducible assumption
    | with_reducible apply Keeps.wrReg
    | with_reducible apply Keeps.setFlag
    | split
    | intro _
    | extract_lets
    | dsimp -zeta only

theorem Keeps.reached {s0 s : State} {fn : Nat} {f : State → State} (hk : Keeps s0 s) (h_f : ∀ (v0 : State), Keeps s0 v0 → Keeps s0 (f v0)) : Keeps s0 (State.reached s fn f) := by
  unfold State.reached
  repeat' first
    | with_reducible assumption
    | with_reducible apply Keeps.hostAccess
    | with_reducible apply h_f
    | split
    | intro _
    | extract_lets
    | dsimp -zeta only

theorem Keeps.ofPart {s0 s : State} {fn : Nat} {p : Nat} {off : Nat} {f : State → State} (hk : Keeps s0 s) (h_f : ∀ (v0 : State), Keeps s0 v0 → Keeps s0 (f v0)) : Keeps s0 (State.ofPart s fn p off f) := by
  unfold State.ofPart
  repeat' first
    | with_reducible assumption
    | with_reducible apply Keeps.refuseWrite
    | with_reducible apply Keeps.reached
    | with_reducible apply h_f
    | split
    | intro _
    | extract_lets
    | dsimp -zeta only

theorem Keeps.portWrite {s0 s : State} {fn : Nat} {n : Nat} {en : Nat} {cls : Nat} (hk : Keeps s0 s)  : Keeps s0 (State.portWrite s fn n en cls) := by
  unfold State.portWrite
  repeat' first
    | with_reducible assumption
    | with_reducible apply Keeps.refuseWrite
    | with_reducible apply Keeps.writePortCfg
    | with_reducible apply Keeps.reached
    | split
    | intro _
    | extract_lets
    | dsimp -zeta only

end Sys2Proof.Machine
end

