-- ==== Sys2Proof/Laws/KeepsRegAccess.lean ====
section
/-! SUPPORT. The operations of Machine/RegAccess.lean keep the queue, the order of times and the canonical form. -/

namespace Sys2Proof.Machine

theorem Keeps.clearRc {s0 s : State} {r : RegRef} {fs : List Field} {half : Half} (hk : Keeps s0 s)  : Keeps s0 (State.clearRc s r fs half) := by
  unfold State.clearRc
  repeat' first
    | with_reducible assumption
    | with_reducible apply Keeps.setFld
    | with_reducible apply Keeps.each
    | split
    | intro _
    | extract_lets
    | with_reducible apply Keeps.other
    | dsimp -zeta only

theorem Keeps.afterRead {s0 s : State} {fn : Nat} {h : RegHit} {half : Half} (hk : Keeps s0 s)  : Keeps s0 (State.afterRead s fn h half) := by
  unfold State.afterRead
  repeat' first
    | with_reducible assumption
    | with_reducible apply Keeps.popResult
    | with_reducible apply Keeps.clearRc
    | split
    | intro _
    | extract_lets
    | (with_reducible apply Keeps.snd_of_eq; with_reducible assumption)
    | dsimp -zeta only

theorem Keeps.read32 {s0 s : State} {fn : Nat} {off : Nat} (hk : Keeps s0 s)  : Keeps s0 (State.read32 s fn off).2 := by
  unfold State.read32
  repeat' first
    | with_reducible assumption
    | with_reducible apply Keeps.afterRead
    | split
    | intro _
    | extract_lets
    | with_reducible apply Keeps.other
    | dsimp -zeta only

theorem Keeps.read64 {s0 s : State} {fn : Nat} {off : Nat} (hk : Keeps s0 s)  : Keeps s0 (State.read64 s fn off).2 := by
  unfold State.read64
  repeat' first
    | with_reducible assumption
    | with_reducible apply Keeps.afterRead
    | with_reducible apply Keeps.read32
    | split
    | intro _
    | extract_lets
    | (with_reducible apply Keeps.snd_of_eq; with_reducible assumption)
    | with_reducible apply Keeps.other
    | dsimp -zeta only

theorem Keeps.reads32 {s0 s : State} {fn : Nat} {r0 : Nat} {r1 : Nat} (hk : Keeps s0 s)  : Keeps s0 (State.reads32 fn r0 r1 s).2 := by
  induction r1 generalizing s r0 with
  | zero =>
    rw [State.reads32]
    repeat' first
      | with_reducible assumption
      | with_reducible apply Keeps.read32
      | split
      | intro _
      | extract_lets
      | (with_reducible apply Keeps.snd_of_eq; with_reducible assumption)
      | dsimp -zeta only
  | succ n ih =>
    rw [State.reads32]
    repeat' first
      | with_reducible assumption
      | with_reducible apply Keeps.read32
      | with_reducible apply ih
      | split
      | intro _
      | extract_lets
      | (with_reducible apply Keeps.snd_of_eq; with_reducible assumption)
      | dsimp -zeta only

theorem Keeps.readPiece {s0 s : State} {fn : Nat} {off : Nat} {len : Nat} (hk : Keeps s0 s)  : Keeps s0 (State.readPiece s fn off len).2 := by
  unfold State.readPiece
  repeat' first
    | with_reducible assumption
    | with_reducible apply Keeps.selTake
    | with_reducible apply Keeps.read64
    | with_reducible apply Keeps.reads32
    | split
    | intro _
    | extract_lets
    | (with_reducible apply Keeps.snd_of_eq; with_reducible assumption)
    | dsimp -zeta only

theorem Keeps.readAll {s0 s : State} {fn : Nat} {r0 : Nat} {r1 : Nat} {r2 : Nat} (hk : Keeps s0 s)  : Keeps s0 (State.readAll fn r0 r1 r2 s).2 := by
  induction r0 generalizing s r1 r2 with
  | zero =>
    rw [State.readAll]
    repeat' first
      | with_reducible assumption
      | with_reducible apply Keeps.readPiece
      | split
      | intro _
      | extract_lets
      | (with_reducible apply Keeps.snd_of_eq; with_reducible assumption)
      | dsimp -zeta only
  | succ n ih =>
    rw [State.readAll]
    repeat' first
      | with_reducible assumption
      | with_reducible apply Keeps.readPiece
      | with_reducible apply ih
      | split
      | intro _
      | extract_lets
      | (with_reducible apply Keeps.snd_of_eq; with_reducible assumption)
      | dsimp -zeta only

theorem Keeps.readBar0 {s0 s : State} {fn : Nat} {off : Nat} {len : Nat} (hk : Keeps s0 s)  : Keeps s0 (State.readBar0 s fn off len).2 := by
  unfold State.readBar0
  repeat' first
    | with_reducible assumption
    | with_reducible apply Keeps.readPiece
    | with_reducible apply Keeps.readAll
    | split
    | intro _
    | extract_lets
    | (with_reducible apply Keeps.snd_of_eq; with_reducible assumption)
    | dsimp -zeta only

theorem Keeps.writeReg {s0 s : State} {fn : Nat} {h : RegHit} {half : Half} {v : Word64} (hk : Keeps s0 s)  : Keeps s0 (State.writeReg s fn h half v) := by
  unfold State.writeReg
  repeat' first
    | with_reducible assumption
    | with_reducible apply Keeps.wrReg
    | with_reducible apply Keeps.each
    | with_reducible apply Keeps.refuseWrite
    | with_reducible apply Keeps.moduleReset
    | with_reducible apply Keeps.quadReset
    | with_reducible apply Keeps.writeSqDb
    | with_reducible apply Keeps.writeCqDb
    | with_reducible apply Keeps.writeRingCfg
    | with_reducible apply Keeps.writeInv
    | with_reducible apply Keeps.writeResTail
    | with_reducible apply Keeps.writeFreeHead
    | with_reducible apply Keeps.writePortCfg
    | with_reducible apply Keeps.writeLnkCfg
    | with_reducible apply Keeps.writeJrn
    | with_reducible apply Keeps.writeSchCfg
    | with_reducible apply Keeps.writePowCap
    | with_reducible apply Keeps.writeHkcCfg
    | split
    | intro _
    | extract_lets
    | with_reducible apply Keeps.other
    | dsimp -zeta only

theorem Keeps.writeHit {s0 s : State} {fn : Nat} {off : Nat} {h : RegHit} {half : Half} {v : Word64} (hk : Keeps s0 s)  : Keeps s0 (State.writeHit s fn off h half v) := by
  unfold State.writeHit
  repeat' first
    | with_reducible assumption
    | with_reducible apply Keeps.refuseWrite
    | with_reducible apply Keeps.writeReg
    | split
    | intro _
    | extract_lets
    | with_reducible apply Keeps.other
    | dsimp -zeta only

theorem Keeps.write32 {s0 s : State} {fn : Nat} {off : Nat} {v : Nat} (hk : Keeps s0 s)  : Keeps s0 (State.write32 s fn off v) := by
  unfold State.write32
  repeat' first
    | with_reducible assumption
    | with_reducible apply Keeps.refuseWrite
    | with_reducible apply Keeps.writeHit
    | split
    | intro _
    | extract_lets
    | with_reducible apply Keeps.other
    | dsimp -zeta only

theorem Keeps.write64 {s0 s : State} {fn : Nat} {off : Nat} {v : Nat} (hk : Keeps s0 s)  : Keeps s0 (State.write64 s fn off v) := by
  unfold State.write64
  repeat' first
    | with_reducible assumption
    | with_reducible apply Keeps.refuseWrite
    | with_reducible apply Keeps.writeHit
    | with_reducible apply Keeps.write32
    | split
    | intro _
    | extract_lets
    | with_reducible apply Keeps.other
    | dsimp -zeta only

theorem Keeps.writePiece {s0 s : State} {fn : Nat} {off : Nat} {bs : List Byte} (hk : Keeps s0 s)  : Keeps s0 (State.writePiece s fn off bs) := by
  unfold State.writePiece
  repeat' first
    | with_reducible assumption
    | with_reducible apply Keeps.refuseWrite
    | with_reducible apply Keeps.write32
    | with_reducible apply Keeps.write64
    | split
    | intro _
    | extract_lets
    | dsimp -zeta only

theorem Keeps.writeAll {s0 s : State} {fn : Nat} {r0 : Nat} {r1 : Nat} {r2 : List Byte} (hk : Keeps s0 s)  : Keeps s0 (State.writeAll fn r0 r1 r2 s) := by
  induction r0 generalizing s r1 r2 with
  | zero =>
    rw [State.writeAll]
    repeat' first
      | with_reducible assumption
      | with_reducible apply Keeps.selTake
      | with_reducible apply Keeps.writePiece
      | split
      | intro _
      | extract_lets
      | dsimp -zeta only
  | succ n ih =>
    rw [State.writeAll]
    repeat' first
      | with_reducible assumption
      | with_reducible apply Keeps.selTake
      | with_reducible apply Keeps.writePiece
      | with_reducible apply ih
      | split
      | intro _
      | extract_lets
      | dsimp -zeta only

theorem Keeps.writeBar0 {s0 s : State} {fn : Nat} {off : Nat} {bs : List Byte} (hk : Keeps s0 s)  : Keeps s0 (State.writeBar0 s fn off bs) := by
  unfold State.writeBar0
  repeat' first
    | with_reducible assumption
    | with_reducible apply Keeps.writePiece
    | with_reducible apply Keeps.writeAll
    | split
    | intro _
    | extract_lets
    | dsimp -zeta only

theorem Keeps.hostRead {s0 s : State} {p : Nat} {a : Nat} {n : Nat} (hk : Keeps s0 s)  : Keeps s0 (State.hostRead s p a n).2 := by
  unfold State.hostRead
  repeat' first
    | with_reducible assumption
    | with_reducible apply Keeps.useFree
    | with_reducible apply Keeps.ueAt
    | split
    | intro _
    | extract_lets
    | with_reducible apply Keeps.other
    | dsimp -zeta only

theorem Keeps.noteStale {s0 s : State} {p : Nat} {a : Nat} {n : Nat} (hk : Keeps s0 s)  : Keeps s0 (State.noteStale s p a n) := by
  unfold State.noteStale
  repeat' first
    | with_reducible assumption
    | with_reducible apply Keeps.setPart
    | with_reducible apply Keeps.each
    | split
    | intro _
    | extract_lets
    | with_reducible apply Keeps.other
    | dsimp -zeta only

theorem Keeps.hostWrite {s0 s : State} {p : Nat} {a : Nat} {bs : List Byte} (hk : Keeps s0 s)  : Keeps s0 (State.hostWrite s p a bs) := by
  unfold State.hostWrite
  repeat' first
    | with_reducible assumption
    | with_reducible apply Keeps.useFree
    | with_reducible apply Keeps.wrMem
    | with_reducible apply Keeps.wrRaw
    | with_reducible apply Keeps.noteStale
    | split
    | intro _
    | extract_lets
    | dsimp -zeta only

theorem Keeps.aperture {s0 s : State} {fn off : Nat} {acc : ApAccess} (hk : Keeps s0 s) : Keeps s0 (State.aperture s fn off acc) := by
  have rd : ∀ a n, Keeps s0 { (s.hostRead fn a n).2 with out := (s.hostRead fn a n).1 } := fun _ _ => hk.hostRead.other
  cases acc with
  | read n =>
    rw [State.aperture]
    split
    · exact rd _ n
    · exact hk.violate.other
  | write bs =>
    rw [State.aperture]
    split
    · exact hk.hostWrite
    · exact hk.violate
  | ringRead n =>
    rw [State.aperture]
    split
    · exact rd _ n
    · exact hk.useFree.other
  | ringWrite bs =>
    rw [State.aperture]
    split
    · exact hk.hostWrite
    · exact hk

end Sys2Proof.Machine
end

