-- ==== Sys2Proof/Laws/KeepsHost.lean ====
section
/-! SUPPORT. The operations of Machine/Host.lean keep the queue, the order of times and the canonical form. -/

namespace Sys2Proof.Machine

theorem Keeps.cfgWrite {s0 s : State} {f : Nat} {acc : CfgAccess} (hk : Keeps s0 s)  : Keeps s0 (State.cfgWrite s f acc) := by
  unfold State.cfgWrite
  repeat' first
    | with_reducible assumption
    | with_reducible apply Keeps.sendPending
    | split
    | intro _
    | extract_lets
    | with_reducible apply Keeps.other
    | dsimp -zeta only

theorem Keeps.oem {s0 s : State} {code : Nat} {data : List Byte} (hk : Keeps s0 s) : Keeps s0 (s.oem code data) :=
  hk.side id

theorem Keeps.onOem {s0 s : State} {want : Nat} {len : Nat} {f : State → State} (hk : Keeps s0 s) (h_f : ∀ (v0 : State), Keeps s0 v0 → Keeps s0 (f v0)) : Keeps s0 (State.onOem s want len f) := by
  unfold State.onOem
  repeat' first
    | with_reducible assumption
    | with_reducible apply Keeps.oem
    | with_reducible apply h_f
    | split
    | intro _
    | extract_lets
    | dsimp -zeta only

theorem Keeps.setRoles {s0 s : State}  (hk : Keeps s0 s)  : Keeps s0 (State.setRoles s) := by
  unfold State.setRoles
  repeat' first
    | with_reducible assumption
    | with_reducible apply Keeps.setFld
    | with_reducible apply Keeps.each
    | split
    | intro _
    | extract_lets
    | dsimp -zeta only

end Sys2Proof.Machine
end

