-- ==== Sys2Proof/Laws/KeepsLogs.lean ====
section
/-! SUPPORT. The operations of Machine/Logs.lean keep the queue, the order of times and the canonical form. -/

namespace Sys2Proof.Machine

theorem Keeps.putCqe {s0 s : State} {f : Nat} {r : Nat} {bs : List Byte} (hk : Keeps s0 s)  : Keeps s0 (State.putCqe s f r bs) := by
  unfold State.putCqe
  repeat' first
    | with_reducible assumption
    | with_reducible apply Keeps.setFld
    | with_reducible apply Keeps.wrRaw
    | split
    | intro _
    | extract_lets
    | dsimp -zeta only

theorem Keeps.putEntries {s0 s : State} {f : Nat} {r : Nat} {n : Nat} {bs : List Byte} (hk : Keeps s0 s)  : Keeps s0 (State.putEntries s f r n bs) := by
  unfold State.putEntries
  repeat' first
    | with_reducible assumption
    | with_reducible apply Keeps.each
    | with_reducible apply Keeps.selTake
    | with_reducible apply Keeps.putCqe
    | split
    | intro _
    | extract_lets
    | dsimp -zeta only

theorem Keeps.writeOut {s0 s : State} {f : Nat} {r : Nat} (hk : Keeps s0 s)  : Keeps s0 (State.writeOut s f r) := by
  unfold State.writeOut
  repeat' first
    | with_reducible assumption
    | with_reducible apply Keeps.bump
    | with_reducible apply Keeps.setPair
    | with_reducible apply Keeps.when
    | with_reducible apply Keeps.raiseRing
    | with_reducible apply Keeps.fenceSweep
    | with_reducible apply Keeps.putEntries
    | split
    | intro _
    | extract_lets
    | with_reducible apply Keeps.other
    | dsimp -zeta only

theorem Keeps.svcLogRead {s0 s : State} {h : Hdr} {log : BitVec 8} {byte1 : BitVec 8} {first : BitVec 16} {count : BitVec 32} {destVa : BitVec 64} (hk : Keeps s0 s)  : Keeps s0 (State.svcLogRead s h log byte1 first count destVa) := by
  unfold State.svcLogRead
  repeat' first
    | with_reducible assumption
    | with_reducible apply Keeps.reply
    | with_reducible apply Keeps.checked
    | split
    | intro _
    | extract_lets
    | (with_reducible apply Keeps.wrVa_eq; with_reducible assumption)
    | with_reducible apply Keeps.other
    | dsimp -zeta only

end Sys2Proof.Machine
end

