-- ==== Sys2Proof/Laws/KeepsService.lean ====
section
/-! SUPPORT. The operations of Machine/Service.lean keep the queue, the order of times and the canonical form. -/

namespace Sys2Proof.Machine

theorem Keeps.serve {s0 s : State} {h : Hdr} {c : CPacket} (hk : Keeps s0 s)  : Keeps s0 (State.serve s h c) := by
  unfold State.serve
  repeat' first
    | with_reducible assumption
    | with_reducible apply Keeps.svcPartSet
    | with_reducible apply Keeps.svcModelLoad
    | with_reducible apply Keeps.svcModelSwap
    | with_reducible apply Keeps.svcModelUnload
    | with_reducible apply Keeps.svcPlace
    | with_reducible apply Keeps.svcPartCreate
    | with_reducible apply Keeps.svcPartDestroy
    | with_reducible apply Keeps.svcKeyLoad
    | with_reducible apply Keeps.svcKeyRetire
    | with_reducible apply Keeps.svcZeroize
    | with_reducible apply Keeps.svcTestRun
    | with_reducible apply Keeps.svcCalRun
    | with_reducible apply Keeps.svcCalQuery
    | with_reducible apply Keeps.svcFabricJoin
    | with_reducible apply Keeps.svcLinkQuery
    | with_reducible apply Keeps.svcTwinPair
    | with_reducible apply Keeps.svcTwinUnpair
    | with_reducible apply Keeps.svcFwStage
    | with_reducible apply Keeps.svcFwActivate
    | with_reducible apply Keeps.svcLogRead
    | split
    | intro _
    | extract_lets
    | with_reducible apply Keeps.other
    | dsimp -zeta only

theorem Keeps.setProcQueue {s0 s : State} {i : Nat} {q : List (Hdr × CPacket)} (hk : Keeps s0 s)  : Keeps s0 (State.setProcQueue s i q) := by
  unfold State.setProcQueue
  repeat' first
    | with_reducible assumption
    | with_reducible apply Keeps.setFld
    | with_reducible apply Keeps.setProc
    | split
    | intro _
    | extract_lets
    | with_reducible apply Keeps.other
    | dsimp -zeta only

theorem Keeps.serviceDone {s0 s : State} {i : Nat} {k : Nat} (hk : Keeps s0 s)  : Keeps s0 (State.serviceDone s i k) := by
  unfold State.serviceDone
  repeat' first
    | with_reducible assumption
    | with_reducible apply Keeps.setProc
    | split
    | intro _
    | extract_lets
    | with_reducible apply Keeps.other
    | dsimp -zeta only

theorem Keeps.start {s0 s : State} {h : Hdr} {c : CPacket} (hk : Keeps s0 s)  : Keeps s0 (State.start s h c) := by
  unfold State.start
  repeat' first
    | with_reducible assumption
    | with_reducible apply Keeps.serve
    | with_reducible apply Keeps.serviceDone
    | split
    | intro _
    | extract_lets
    | dsimp -zeta only

theorem Keeps.cPacket {s0 s : State} {h : Hdr} {c : CPacket} (hk : Keeps s0 s)  : Keeps s0 (State.cPacket s h c) := by
  unfold State.cPacket
  repeat' first
    | with_reducible assumption
    | with_reducible apply Keeps.reply
    | with_reducible apply Keeps.fail
    | with_reducible apply Keeps.takePacket
    | with_reducible apply Keeps.fetching
    | with_reducible apply Keeps.selPass
    | with_reducible apply Keeps.setProcQueue
    | with_reducible apply Keeps.start
    | split
    | intro _
    | extract_lets
    | with_reducible apply Keeps.other
    | dsimp -zeta only

theorem Keeps.runLong {s0 s : State} {o : LongOp} {amount : Nat} (hk : Keeps s0 s)  : Keeps s0 (State.runLong s o amount) := by
  unfold State.runLong
  repeat' first
    | with_reducible assumption
    | with_reducible apply Keeps.sliceLoad
    | with_reducible apply Keeps.sliceSwap
    | with_reducible apply Keeps.sliceDestroy
    | with_reducible apply Keeps.sliceZeroize
    | with_reducible apply Keeps.sliceStage
    | with_reducible apply Keeps.sliceActivate
    | split
    | intro _
    | extract_lets
    | with_reducible apply Keeps.other
    | dsimp -zeta only

theorem Keeps.takesUp {s0 s : State} {i : Nat} (hk : Keeps s0 s)  : Keeps s0 (State.takesUp s i) := by
  unfold State.takesUp
  repeat' first
    | with_reducible assumption
    | with_reducible apply Keeps.zeroDebugRun
    | with_reducible apply Keeps.sweepAll
    | with_reducible apply Keeps.startRuns
    | with_reducible apply Keeps.governorOff
    | split
    | intro _
    | extract_lets
    | with_reducible apply Keeps.other
    | dsimp -zeta only

theorem Keeps.serveQueue {s0 s : State} {i : Nat} {r0 : Nat} (hk : Keeps s0 s)  : Keeps s0 (State.serveQueue i r0 s) := by
  induction r0 generalizing s with
  | zero =>
    rw [State.serveQueue]
    repeat' first
      | with_reducible assumption
      | with_reducible apply Keeps.setProcQueue
      | with_reducible apply Keeps.start
      | split
      | intro _
      | extract_lets
      | with_reducible apply Keeps.other
      | dsimp -zeta only
  | succ n ih =>
    rw [State.serveQueue]
    repeat' first
      | with_reducible assumption
      | with_reducible apply Keeps.setProcQueue
      | with_reducible apply Keeps.start
      | with_reducible apply ih
      | split
      | intro _
      | extract_lets
      | with_reducible apply Keeps.other
      | dsimp -zeta only

theorem Keeps.comesAlive {s0 s : State} {i : Nat} (hk : Keeps s0 s)  : Keeps s0 (State.comesAlive s i) := by
  unfold State.comesAlive
  repeat' first
    | with_reducible assumption
    | with_reducible apply Keeps.setFlag
    | with_reducible apply Keeps.actCheck
    | with_reducible apply Keeps.takesUp
    | with_reducible apply Keeps.serveQueue
    | split
    | intro _
    | extract_lets
    | dsimp -zeta only

end Sys2Proof.Machine
end

