-- ==== Sys2Proof/Laws/PerInstr.lean ====
section
/-! SUPPORT. The family `Shape`: what the form of every command says of its opcode and its class, one lemma for each command. -/

namespace Sys2Proof.Laws.Shape
open Machine

/-- A D-class packet has an opcode below 40H and a whole number of 8-byte units of parameters that fit its slots; a C-class packet has an
opcode of 40H to BFH; no command is both (R286, R300, R303). -/
def Statement (i : Instr) : Prop :=
  (∀ h op len, dForm i = some (h, op, len) → op < 0x40 ∧ len % 8 = 0 ∧ len ≤ 240 ∧ cForm i = none) ∧
    (∀ h p, cForm i = some (h, p) → 0x40 ≤ p.opcode ∧ p.opcode < 0xC0 ∧ dForm i = none)

/-- A command that is no packet with a class of its own says nothing of either. -/
theorem of_none {i : Instr} (hd : dForm i = none) (hc : cForm i = none) : Statement i :=
  ⟨fun _ _ _ h => (nomatch hd.symm.trans h), fun _ _ h => (nomatch hc.symm.trans h)⟩

/-- A D-class packet. -/
theorem of_d {i : Instr} {h : Hdr} {op len : Nat} (hd : dForm i = some (h, op, len)) (hc : cForm i = none)
    (ok : op < 0x40 ∧ len % 8 = 0 ∧ len ≤ 240) : Statement i := by
  refine ⟨fun h' op' len' e => ?_, fun _ _ e => (nomatch hc.symm.trans e)⟩
  cases hd.symm.trans e
  exact ⟨ok.1, ok.2.1, ok.2.2, hc⟩

/-- A C-class packet. -/
theorem of_c {i : Instr} {h : Hdr} {p : CPacket} (hd : dForm i = none) (hc : cForm i = some (h, p))
    (ok : 0x40 ≤ p.opcode ∧ p.opcode < 0xC0) : Statement i := by
  refine ⟨fun _ _ _ e => (nomatch hd.symm.trans e), fun h' p' e => ?_⟩
  cases hc.symm.trans e
  exact ⟨ok.1, ok.2, hd⟩

theorem sessionOpen {h p} : Statement (.sessionOpen h p) := of_d rfl rfl (by decide)
theorem sessionAppend {h p} : Statement (.sessionAppend h p) := of_d rfl rfl (by decide)
theorem sessionPause {h context rsv} : Statement (.sessionPause h context rsv) := of_d rfl rfl (by decide)
theorem sessionResume {h p} : Statement (.sessionResume h p) := of_d rfl rfl (by decide)
theorem sessionClose {h context rsv} : Statement (.sessionClose h context rsv) := of_d rfl rfl (by decide)
theorem specTree {h context n rsv treeVa} : Statement (.specTree h context n rsv treeVa) := of_d rfl rfl (by decide)
theorem cairn {h placement rsv} : Statement (.cairn h placement rsv) := of_d rfl rfl (by decide)
theorem ridge {h placement lead load duration} : Statement (.ridge h placement lead load duration) := of_d rfl rfl (by decide)
theorem fence {h mask rsv} : Statement (.fence h mask rsv) := of_d rfl rfl (by decide)
theorem kvPark {h context rsv} : Statement (.kvPark h context rsv) := of_d rfl rfl (by decide)
theorem kvRestore {h context rsv} : Statement (.kvRestore h context rsv) := of_d rfl rfl (by decide)
theorem unassignedOpcode {h opcode} : Statement (.unassignedOpcode h opcode) := of_none rfl rfl
theorem partCreate {h part rsv ringArea root} : Statement (.partCreate h part rsv ringArea root) := of_c rfl rfl (by simp [CPacket.opcode])
theorem partDestroy {h part byte1 rsv} : Statement (.partDestroy h part byte1 rsv) := of_c rfl rfl (by simp [CPacket.opcode])
theorem partSetEsc {h ps len rsv sat zro rest} : Statement (.partSetEsc h ps len rsv sat zro rest) := of_c rfl rfl (by simp [CPacket.opcode])
theorem partSetAge {h ps len rsv steps rsv1 time rest} : Statement (.partSetAge h ps len rsv steps rsv1 time rest) := of_c rfl rfl (by simp [CPacket.opcode])
theorem partSetRanges {h ps len rsv ctxFirst ctxCount tagFirst tagCount rest} : Statement (.partSetRanges h ps len rsv ctxFirst ctxCount tagFirst tagCount rest) := of_c rfl rfl (by simp [CPacket.opcode])
theorem partSetBuckets {h ps len rsv first count refill burst rest} : Statement (.partSetBuckets h ps len rsv first count refill burst rest) := of_c rfl rfl (by simp [CPacket.opcode])
theorem partSetResRing {h ps len rsv value rest} : Statement (.partSetResRing h ps len rsv value rest) := of_c rfl rfl (by simp [CPacket.opcode])
theorem partSetFreeRing {h ps len rsv value rest} : Statement (.partSetFreeRing h ps len rsv value rest) := of_c rfl rfl (by simp [CPacket.opcode])
theorem partSetScratch {h ps len rsv frames rest} : Statement (.partSetScratch h ps len rsv frames rest) := of_c rfl rfl (by simp [CPacket.opcode])
theorem partSetScree {h ps len rsv parkAfter ttl base bytes rest} : Statement (.partSetScree h ps len rsv parkAfter ttl base bytes rest) := of_c rfl rfl (by simp [CPacket.opcode])
theorem partSetProfiles {h ps len rsv value rest} : Statement (.partSetProfiles h ps len rsv value rest) := of_c rfl rfl (by simp [CPacket.opcode])
theorem partSetMmuRoot {h ps len rsv value rest} : Statement (.partSetMmuRoot h ps len rsv value rest) := of_c rfl rfl (by simp [CPacket.opcode])
theorem partSetWindow {h ps len rsv index rsv1 base bytes rest} : Statement (.partSetWindow h ps len rsv index rsv1 base bytes rest) := of_c rfl rfl (by simp [CPacket.opcode])
theorem partSetTiles {h ps len rsv first count mode rsv5 rest} : Statement (.partSetTiles h ps len rsv first count mode rsv5 rest) := of_c rfl rfl (by simp [CPacket.opcode])
theorem partSetIds {h ps len rsv modelFirst modelCount placeFirst placeCount rest} : Statement (.partSetIds h ps len rsv modelFirst modelCount placeFirst placeCount rest) := of_c rfl rfl (by simp [CPacket.opcode])
theorem modelLoad {h p image} : Statement (.modelLoad h p image) := of_c rfl rfl (by simp [CPacket.opcode])
theorem modelSwap {h p image} : Statement (.modelSwap h p image) := of_c rfl rfl (by simp [CPacket.opcode])
theorem modelUnload {h modelId byte2 rsv} : Statement (.modelUnload h modelId byte2 rsv) := of_c rfl rfl (by simp [CPacket.opcode])
theorem place {h p} : Statement (.place h p) := of_c rfl rfl (by simp [CPacket.opcode])
theorem calRun {h scope byte1 index rsv} : Statement (.calRun h scope byte1 index rsv) := of_c rfl rfl (by simp [CPacket.opcode])
theorem calQuery {h what byte1 index rsv destVa bytes rsv20} : Statement (.calQuery h what byte1 index rsv destVa bytes rsv20) := of_c rfl rfl (by simp [CPacket.opcode])
theorem testRun {h tile kind rsv} : Statement (.testRun h tile kind rsv) := of_c rfl rfl (by simp [CPacket.opcode])
theorem fwStage {h offset bytes src rsv data} : Statement (.fwStage h offset bytes src rsv data) := of_c rfl rfl (by simp [CPacket.opcode])
theorem fwActivate {h bank rsv sigOk} : Statement (.fwActivate h bank rsv sigOk) := of_c rfl rfl (by simp [CPacket.opcode])
theorem twinPair {h peer byte2 rsv} : Statement (.twinPair h peer byte2 rsv) := of_c rfl rfl (by simp [CPacket.opcode])
theorem twinUnpair {h byte0 rsv} : Statement (.twinUnpair h byte0 rsv) := of_c rfl rfl (by simp [CPacket.opcode])
theorem fabricJoin {h mask rsv} : Statement (.fabricJoin h mask rsv) := of_c rfl rfl (by simp [CPacket.opcode])
theorem linkQuery {h port rsv destVa} : Statement (.linkQuery h port rsv destVa) := of_c rfl rfl (by simp [CPacket.opcode])
theorem logRead {h log byte1 first count destVa} : Statement (.logRead h log byte1 first count destVa) := of_c rfl rfl (by simp [CPacket.opcode])
theorem keyLoad {h part rsv keyVa keyBytes rsv20 sigOk halvesEqual} : Statement (.keyLoad h part rsv keyVa keyBytes rsv20 sigOk halvesEqual) := of_c rfl rfl (by simp [CPacket.opcode])
theorem openSession {h rsv keyVa keyBytes rsv20 sigOk} : Statement (.openSession h rsv keyVa keyBytes rsv20 sigOk) := of_c rfl rfl (by simp [CPacket.opcode])
theorem keyRetire {h part rsv} : Statement (.keyRetire h part rsv) := of_c rfl rfl (by simp [CPacket.opcode])
theorem zeroize {h rsv} : Statement (.zeroize h rsv) := of_c rfl rfl (by simp [CPacket.opcode])
theorem sqDb {fn ring tail} : Statement (.sqDb fn ring tail) := of_none rfl rfl
theorem cqDb {fn ring head} : Statement (.cqDb fn ring head) := of_none rfl rfl
theorem ringEnable {fn ring value} : Statement (.ringEnable fn ring value) := of_none rfl rfl
theorem ringDisable {fn ring value} : Statement (.ringDisable fn ring value) := of_none rfl rfl
theorem invalidate {fn p vpn count} : Statement (.invalidate fn p vpn count) := of_none rfl rfl
theorem invalidateAll {fn p vpn count} : Statement (.invalidateAll fn p vpn count) := of_none rfl rfl
theorem invalidationComplete {p} : Statement (.invalidationComplete p) := of_none rfl rfl
theorem reservoirTailWrite {fn p tail} : Statement (.reservoirTailWrite fn p tail) := of_none rfl rfl
theorem freeHeadWrite {fn p head} : Statement (.freeHeadWrite fn p head) := of_none rfl rfl
theorem moduleReset {fn quads} : Statement (.moduleReset fn quads) := of_none rfl rfl
theorem quadrantReset {fn quads} : Statement (.quadrantReset fn quads) := of_none rfl rfl
theorem portEnable {fn n value} : Statement (.portEnable fn n value) := of_none rfl rfl
theorem portDisable {fn n value} : Statement (.portDisable fn n value) := of_none rfl rfl
theorem qread {fn half} : Statement (.qread fn half) := of_none rfl rfl
theorem rcRead {fn off len} : Statement (.rcRead fn off len) := of_none rfl rfl
theorem registerWrite {fn off data partialBe} : Statement (.registerWrite fn off data partialBe) := of_none rfl rfl
theorem apertureAccess {fn off acc} : Statement (.apertureAccess fn off acc) := of_none rfl rfl
theorem unsupportedRequest {fn isRead} : Statement (.unsupportedRequest fn isRead) := of_none rfl rfl
theorem powerOn {at_} : Statement (.powerOn at_) := of_none rfl rfl
theorem startUpStepEnd {at_ obs} : Statement (.startUpStepEnd at_ obs) := of_none rfl rfl
theorem perst {lowNs} : Statement (.perst lowNs) := of_none rfl rfl
theorem functionLevelReset {p} : Statement (.functionLevelReset p) := of_none rfl rfl
theorem d3hot {fn} : Statement (.d3hot fn) := of_none rfl rfl
theorem vfEnableClear : Statement (.vfEnableClear) := of_none rfl rfl
theorem setCoord {value len} : Statement (.setCoord value len) := of_none rfl rfl
theorem setCap {watts len} : Statement (.setCap watts len) := of_none rfl rfl
theorem getDevpub {len} : Statement (.getDevpub len) := of_none rfl rfl
theorem getState {len} : Statement (.getState len) := of_none rfl rfl
theorem debugUnlock {tokenOk} : Statement (.debugUnlock tokenOk) := of_none rfl rfl
theorem referenceLoss : Statement (.referenceLoss) := of_none rfl rfl
theorem referenceRestored {validNs} : Statement (.referenceRestored validNs) := of_none rfl rfl
theorem stepBuild {placement at_} : Statement (.stepBuild placement at_) := of_none rfl rfl
theorem passIssue {tile pslot layer expert acts} : Statement (.passIssue tile pslot layer expert acts) := of_none rfl rfl
theorem arrayCycle {tile} : Statement (.arrayCycle tile) := of_none rfl rfl
theorem tileLayerPassEnd {tile residue appends tentative} : Statement (.tileLayerPassEnd tile residue appends tentative) := of_none rfl rfl
theorem arrayWrite {tile array pslot layer digit dup chunk} : Statement (.arrayWrite tile array pslot layer digit dup chunk) := of_none rfl rfl
theorem scorePass {tile pslot ctx layer head seg rows} : Statement (.scorePass tile pslot ctx layer head seg rows) := of_none rfl rfl
theorem mixPass {tile pslot ctx layer head seg} : Statement (.mixPass tile pslot ctx layer head seg) := of_none rfl rfl
theorem lockAlarm {cluster ring at_} : Statement (.lockAlarm cluster ring at_) := of_none rfl rfl
theorem headLayerForward {tile pslot ctx layer head at_} : Statement (.headLayerForward tile pslot ctx layer head at_) := of_none rfl rfl
theorem sample {placement ctx logits} : Statement (.sample placement ctx logits) := of_none rfl rfl
theorem stepRetire {placement at_} : Statement (.stepRetire placement at_) := of_none rfl rfl
theorem completionWrite {fn ring at_} : Statement (.completionWrite fn ring at_) := of_none rfl rfl
theorem completionBufferStall {placement at_} : Statement (.completionBufferStall placement at_) := of_none rfl rfl
theorem frameReturn {p} : Statement (.frameReturn p) := of_none rfl rfl
theorem globalCairn {at_} : Statement (.globalCairn at_) := of_none rfl rfl
theorem quadrantCairn {q at_} : Statement (.quadrantCairn q at_) := of_none rfl rfl
theorem tileCairn {tile at_} : Statement (.tileCairn tile at_) := of_none rfl rfl
theorem swapHold {model at_} : Statement (.swapHold model at_) := of_none rfl rfl
theorem swapComplete {model at_} : Statement (.swapComplete model at_) := of_none rfl rfl
theorem patrolScrub {addr corrected uncorrectable} : Statement (.patrolScrub addr corrected uncorrectable) := of_none rfl rfl
theorem driftFilterUpdate {tile} : Statement (.driftFilterUpdate tile) := of_none rfl rfl
theorem calTriggerCheck {at_} : Statement (.calTriggerCheck at_) := of_none rfl rfl
theorem calibrationSlice {phys at_} : Statement (.calibrationSlice phys at_) := of_none rfl rfl
theorem calRunEnd {obj res at_} : Statement (.calRunEnd obj res at_) := of_none rfl rfl
theorem calFlashRecord {obj ok} : Statement (.calFlashRecord obj ok) := of_none rfl rfl
theorem testDue {tile at_} : Statement (.testDue tile at_) := of_none rfl rfl
theorem testSlice {tile at_ sig} : Statement (.testSlice tile at_ sig) := of_none rfl rfl
theorem testOverdue {tile at_ sig} : Statement (.testOverdue tile at_ sig) := of_none rfl rfl
theorem powerLoopUpdate {n seen} : Statement (.powerLoopUpdate n seen) := of_none rfl rfl
theorem fadeEvaluation {n pwr at_} : Statement (.fadeEvaluation n pwr at_) := of_none rfl rfl
theorem spareReady {n at_} : Statement (.spareReady n at_) := of_none rfl rfl
theorem spareTimeout {n at_} : Statement (.spareTimeout n at_) := of_none rfl rfl
theorem ioLaserSwap {n at_} : Statement (.ioLaserSwap n at_) := of_none rfl rfl
theorem toneWindow {cluster ring seen quality at_} : Statement (.toneWindow cluster ring seen quality at_) := of_none rfl rfl
theorem acquisitionTimeout {cluster ring at_} : Statement (.acquisitionTimeout cluster ring at_) := of_none rfl rfl
theorem heaterLimit {cluster ring at_} : Statement (.heaterLimit cluster ring at_) := of_none rfl rfl
theorem frameReceived {n f at_} : Statement (.frameReceived n f at_) := of_none rfl rfl
theorem laneRemap {n laneMap at_} : Statement (.laneRemap n laneMap at_) := of_none rfl rfl
theorem requestTimeout {tag at_} : Statement (.requestTimeout tag at_) := of_none rfl rfl
theorem relay {n m} : Statement (.relay n m) := of_none rfl rfl
theorem relayResend {tag at_} : Statement (.relayResend tag at_) := of_none rfl rfl
theorem chain {n m} : Statement (.chain n m) := of_none rfl rfl
theorem chainOpenTimeout {fn tag at_} : Statement (.chainOpenTimeout fn tag at_) := of_none rfl rfl
theorem journal {n m} : Statement (.journal n m) := of_none rfl rfl
theorem resp {n m} : Statement (.resp n m) := of_none rfl rfl
theorem probe {n m} : Statement (.probe n m) := of_none rfl rfl
theorem probeSend {at_} : Statement (.probeSend at_) := of_none rfl rfl
theorem probeLoss {module at_} : Statement (.probeLoss module at_) := of_none rfl rfl
theorem mgmt {n m} : Statement (.mgmt n m) := of_none rfl rfl
theorem timeRecord {n received} : Statement (.timeRecord n received) := of_none rfl rfl
theorem timeRecordSend {at_} : Statement (.timeRecordSend at_) := of_none rfl rfl
theorem frameAlignmentLoss {n at_} : Statement (.frameAlignmentLoss n at_) := of_none rfl rfl
theorem portRetrain {n at_} : Statement (.portRetrain n at_) := of_none rfl rfl
theorem heartbeat {path state takeover ackSeq at_} : Statement (.heartbeat path state takeover ackSeq at_) := of_none rfl rfl
theorem heartbeatSend {at_} : Statement (.heartbeatSend at_) := of_none rfl rfl
theorem peerLost {at_} : Statement (.peerLost at_) := of_none rfl rfl
theorem ackWaitExpiry {at_} : Statement (.ackWaitExpiry at_) := of_none rfl rfl
theorem fastLimiter {at_ qest} : Statement (.fastLimiter at_ qest) := of_none rfl rfl
theorem ptpReview {at_ coreTerms} : Statement (.ptpReview at_ coreTerms) := of_none rfl rfl
theorem capFloor {at_} : Statement (.capFloor at_) := of_none rfl rfl
theorem droop {q at_} : Statement (.droop q at_) := of_none rfl rfl
theorem operatingPointBoundary {q at_} : Statement (.operatingPointBoundary q at_) := of_none rfl rfl
theorem vgood {q at_} : Statement (.vgood q at_) := of_none rfl rfl
theorem powerEmergency {row measured at_} : Statement (.powerEmergency row measured at_) := of_none rfl rfl
theorem criticalRelease {row at_} : Statement (.criticalRelease row at_) := of_none rfl rfl
theorem ridgeWindow {at_} : Statement (.ridgeWindow at_) := of_none rfl rfl
theorem sequencerEntry {at_} : Statement (.sequencerEntry at_) := of_none rfl rfl
theorem integrationPeriodEnd {pair codeV codeI energy at_} : Statement (.integrationPeriodEnd pair codeV codeI energy at_) := of_none rfl rfl
theorem refSettled {at_} : Statement (.refSettled at_) := of_none rfl rfl
theorem thermalSample {region temps at_} : Statement (.thermalSample region temps at_) := of_none rfl rfl
theorem demandRelease {region at_} : Statement (.demandRelease region at_) := of_none rfl rfl
theorem watchdog {i cause at_} : Statement (.watchdog i cause at_) := of_none rfl rfl
theorem alive {i at_} : Statement (.alive i at_) := of_none rfl rfl
theorem governorRelease {at_} : Statement (.governorRelease at_) := of_none rfl rfl
theorem activationTimeout {at_} : Statement (.activationTimeout at_) := of_none rfl rfl
theorem longOperationSlice {fn seq amount at_} : Statement (.longOperationSlice fn seq amount at_) := of_none rfl rfl
theorem progress {fn seq at_} : Statement (.progress fn seq at_) := of_none rfl rfl
theorem screeScan {at_} : Statement (.screeScan at_) := of_none rfl rfl
theorem parkComplete {ctx at_} : Statement (.parkComplete ctx at_) := of_none rfl rfl
theorem restoreComplete {ctx at_} : Statement (.restoreComplete ctx at_) := of_none rfl rfl
theorem contextCacheWriteBack {q} : Statement (.contextCacheWriteBack q) := of_none rfl rfl
theorem fenceTimeout {fn ring at_} : Statement (.fenceTimeout fn ring at_) := of_none rfl rfl
theorem fullRingReminder {fn ring at_} : Statement (.fullRingReminder fn ring at_) := of_none rfl rfl
theorem coSessionTimeout {at_} : Statement (.coSessionTimeout at_) := of_none rfl rfl
theorem selfTestFailure {cause} : Statement (.selfTestFailure cause) := of_none rfl rfl
theorem faultLogFlush {at_} : Statement (.faultLogFlush at_) := of_none rfl rfl
theorem mapRecordWrite {at_} : Statement (.mapRecordWrite at_) := of_none rfl rfl
theorem lifetimeCounterWrite {q at_} : Statement (.lifetimeCounterWrite q at_) := of_none rfl rfl
theorem trainingComplete {n res at_} : Statement (.trainingComplete n res at_) := of_none rfl rfl
theorem pairingTimeout {at_} : Statement (.pairingTimeout at_) := of_none rfl rfl
theorem perstRelease {at_} : Statement (.perstRelease at_) := of_none rfl rfl
theorem vfEnableSet {numVfs} : Statement (.vfEnableSet numVfs) := of_none rfl rfl
theorem configurationRequest {req} : Statement (.configurationRequest req) := of_none rfl rfl

end Sys2Proof.Laws.Shape
end

