-- ==== Sys2Proof/Tests/Slice0.lean ====
section
/-! SUPPORT. Tests: the check of well-formedness, witnesses that the hypotheses of every statement can be met together, and small
tests of single commands whose expected results are the manual's. -/

namespace Sys2Proof.Tests
open Machine

set_option Elab.async false

/-! ## Helpers -/

/-- Fields set one after another. -/
def put (s : State) (l : List (RegRef × Field × Nat)) : State := l.foldl (fun s x => s.setFld x.1 x.2.1 x.2.2) s

/-- Ring pair r enabled with 64 slots and 64 entries, and eight slots produced. -/
def ringOn (f r : Nat) : List (RegRef × Field × Nat) :=
  [(Reg.SCH_RING_CFG f r, Fld.SCH_RING_CFG_EN, 1), (Reg.SCH_RING_CFG f r, Fld.SCH_RING_CFG_SQ_LOG2, 6),
   (Reg.SCH_RING_CFG f r, Fld.SCH_RING_CFG_CQ_LOG2, 6), (Reg.SCH_RING_CFG f r, Fld.SCH_RING_CFG_SQ_OFF, 2 * r),
   (Reg.SCH_RING_CFG f r, Fld.SCH_RING_CFG_CQ_OFF, 2 * r + 1), (Reg.SCH_SQ_DB f r, Fld.SCH_SQ_DB_SQ_TAIL, 8)]

/-- A READY module with its processors ALIVE and ring pairs 0 and 1 of partition 0 enabled. -/
def up : State :=
  put { State.reset with clk := { running := true } }
    ([(Reg.CLK_START, Fld.CLK_START_PHASE, 15)] ++ ((List.range 8).map fun i => (Reg.FWP_PROC i, Fld.FWP_PROC_ALIVE, 1)) ++
      ringOn 0 0 ++ ringOn 0 1)

/-- The same module with partition 1, its function enabled, and ring pairs 0 and 1 of it. -/
def up1 : State :=
  put { up with pcie := { vfEnable := true, numVfs := 4 } } ([(Reg.SEC_PART 1, Fld.SEC_PART_EXISTS, 1)] ++ ringOn 1 0 ++ ringOn 1 1)

/-- Header of a packet of partition 0 on ring r. -/
def hdr (r len : Nat) : Hdr :=
  { fn := 0, ring := r, cls := if r = 0 then 1 else 0, part := 0, flags := 0, seq := 0, length := BitVec.ofNat 16 len, rsv := 0, tag := 0 }

/-- A command answers a next state with the property. -/
def leads (c : Instr) (s : State) (p : State → Bool) : Bool :=
  match exec c s with
  | .next t => p t
  | _ => false

/-- A command stops at an object that does not exist. -/
def stops (c : Instr) (s : State) : Bool :=
  match exec c s with
  | .fault .noSuchObject => true
  | _ => false

theorem of_stops {c : Instr} {s : State} (h : stops c s = true) : exec c s = .fault .noSuchObject := by
  unfold stops at h
  split at h
  · assumption
  · cases h

theorem of_leads {c : Instr} {s : State} {p : State → Bool} (h : leads c s p = true) : ∃ t, exec c s = .next t := by
  unfold leads at h
  split at h
  · exact ⟨_, by assumption⟩
  · cases h

theorem someWit {α : Type} {x : Option α} {P : α → Prop} [DecidablePred P] (h : x.any (fun g => decide (P g)) = true) :
    ∃ g, x = some g ∧ P g := by
  cases x with
  | some g => exact ⟨g, rfl, of_decide_eq_true h⟩
  | none => cases h

theorem anyWit {α : Type} {l : List α} {p : α → Bool} (h : l.any (fun x => !(p x)) = true) : ∃ x ∈ l, p x = false := by
  obtain ⟨x, hx, hp⟩ := List.any_eq_true.mp h
  exact ⟨x, hx, by simpa using hp⟩

theorem inlWit {α β : Type} {x : α ⊕ β} (h : x.isLeft = true) : ∃ u, x = .inl u := by
  cases x with
  | inl u => exact ⟨u, rfl⟩
  | inr _ => cases h

theorem inrWit {α β : Type} {x : α ⊕ β} (h : x.isRight = true) : ∃ u, x = .inr u := by
  cases x with
  | inr u => exact ⟨u, rfl⟩
  | inl _ => cases h

/-! ## Well-formedness: for each check a command that it refuses -/

/-- A packet's only check is its header's: function below 64 and ring below 17. -/
theorem test_wf_dPackets : ∀ i h op len, dForm i = some (h, op, len) → i.wf = h.wf := by
  intro i h op len e
  cases i <;> simp only [dForm, reduceCtorEq, Option.some.injEq, Prod.mk.injEq] at e <;> obtain ⟨rfl, -, -⟩ := e <;> rfl
theorem test_wf_cPackets : ∀ i h p, cForm i = some (h, p) → i.wf = h.wf := by
  intro i h p e
  cases i <;> simp only [cForm, reduceCtorEq, Option.some.injEq, Prod.mk.injEq] at e <;> obtain ⟨rfl, -⟩ := e <;> rfl
theorem test_wf_unassigned (h : Hdr) (op : BitVec 8) : (Instr.unassignedOpcode h op).wf = h.wf := rfl
theorem test_wf_header : (hdr 17 0).wf = false ∧ Hdr.wf { hdr 16 0 with fn := 64 } = false ∧ Hdr.wf { hdr 16 0 with fn := 63 } = true := by
  decide

theorem test_wf_sqDb :
    (∀ (a0 : Nat) (a1 : BitVec 32), (Instr.sqDb a0 17 a1).wf = false) := fun _ _ => rfl
theorem test_wf_cqDb :
    (∀ (a0 : Nat) (a1 : BitVec 32), (Instr.cqDb a0 17 a1).wf = false) := fun _ _ => rfl
theorem test_wf_ringEnable :
    (∀ (a0 : Nat) (a1 : Word64), (Instr.ringEnable a0 17 a1).wf = false) := fun _ _ => rfl
theorem test_wf_ringDisable :
    (∀ (a0 : Nat) (a1 : Word64), (Instr.ringDisable a0 17 a1).wf = false) := fun _ _ => rfl
theorem test_wf_invalidate :
    (∀ (a0 : Nat) (a1 : BitVec 32) (a2 : BitVec 16), (Instr.invalidate a0 64 a1 a2).wf = false) := fun _ _ _ => rfl
theorem test_wf_invalidateAll :
    (∀ (a0 : Nat) (a1 : BitVec 32) (a2 : BitVec 16), (Instr.invalidateAll a0 64 a1 a2).wf = false) := fun _ _ _ => rfl
theorem test_wf_invalidationComplete :
    ((Instr.invalidationComplete 64).wf = false) := rfl
theorem test_wf_reservoirTailWrite :
    (∀ (a0 : Nat) (a1 : BitVec 32), (Instr.reservoirTailWrite a0 64 a1).wf = false) := fun _ _ => rfl
theorem test_wf_freeHeadWrite :
    (∀ (a0 : Nat) (a1 : BitVec 32), (Instr.freeHeadWrite a0 64 a1).wf = false) := fun _ _ => rfl
theorem test_wf_portEnable :
    (∀ (a0 : Nat) (a1 : Word64), (Instr.portEnable a0 24 a1).wf = false) := fun _ _ => rfl
theorem test_wf_portDisable :
    (∀ (a0 : Nat) (a1 : Word64), (Instr.portDisable a0 24 a1).wf = false) := fun _ _ => rfl
theorem test_wf_functionLevelReset :
    ((Instr.functionLevelReset 64).wf = false) := rfl
theorem test_wf_d3hot :
    ((Instr.d3hot 64).wf = false) := rfl
theorem test_wf_stepBuild :
    (∀ (a0 : Nat), (Instr.stepBuild 1024 a0).wf = false) := fun _ => rfl
theorem test_wf_passIssue :
    (∀ (a0 : Nat) (a1 : Nat) (a2 : List (List BF16)), (Instr.passIssue 1024 0 a0 a1 a2).wf = false) ∧
    (∀ (a0 : Nat) (a1 : Nat) (a2 : List (List BF16)), (Instr.passIssue 0 16 a0 a1 a2).wf = false) := ⟨fun _ _ _ => rfl, fun _ _ _ => rfl⟩
theorem test_wf_arrayCycle :
    ((Instr.arrayCycle 1024).wf = false) := rfl
theorem test_wf_tileLayerPassEnd :
    (∀ (a0 : Bool) (a1 : List KvEntry) (a2 : List KvEntry), (Instr.tileLayerPassEnd 1024 a0 a1 a2).wf = false) := fun _ _ _ => rfl
theorem test_wf_arrayWrite :
    (∀ (a0 : Nat) (a1 : Nat) (a2 : Bool) (a3 : Nat), (Instr.arrayWrite 1024 0 0 a0 a1 a2 a3).wf = false) ∧
    (∀ (a0 : Nat) (a1 : Nat) (a2 : Bool) (a3 : Nat), (Instr.arrayWrite 0 512 0 a0 a1 a2 a3).wf = false) ∧
    (∀ (a0 : Nat) (a1 : Nat) (a2 : Bool) (a3 : Nat), (Instr.arrayWrite 0 0 16 a0 a1 a2 a3).wf = false) := ⟨fun _ _ _ _ => rfl, fun _ _ _ _ => rfl, fun _ _ _ _ => rfl⟩
theorem test_wf_scorePass :
    (∀ (a0 : Nat) (a1 : Nat) (a2 : Nat) (a3 : Nat) (a4 : List QueryRow), (Instr.scorePass 1024 0 a0 a1 a2 a3 a4).wf = false) ∧
    (∀ (a0 : Nat) (a1 : Nat) (a2 : Nat) (a3 : Nat) (a4 : List QueryRow), (Instr.scorePass 0 16 a0 a1 a2 a3 a4).wf = false) := ⟨fun _ _ _ _ _ => rfl, fun _ _ _ _ _ => rfl⟩
theorem test_wf_mixPass :
    (∀ (a0 : Nat) (a1 : Nat) (a2 : Nat) (a3 : Nat), (Instr.mixPass 1024 0 a0 a1 a2 a3).wf = false) ∧
    (∀ (a0 : Nat) (a1 : Nat) (a2 : Nat) (a3 : Nat), (Instr.mixPass 0 16 a0 a1 a2 a3).wf = false) := ⟨fun _ _ _ _ => rfl, fun _ _ _ _ => rfl⟩
theorem test_wf_lockAlarm :
    (∀ (a0 : Nat), (Instr.lockAlarm 0 (clusterRings 0) a0).wf = false) ∧
    (∀ (a0 : Nat), (Instr.lockAlarm 300 0 a0).wf = false) := ⟨fun _ => rfl, fun _ => rfl⟩
theorem test_wf_headLayerForward :
    (∀ (a0 : Nat) (a1 : Nat) (a2 : Nat) (a3 : Nat), (Instr.headLayerForward 1024 0 a0 a1 a2 a3).wf = false) ∧
    (∀ (a0 : Nat) (a1 : Nat) (a2 : Nat) (a3 : Nat), (Instr.headLayerForward 0 16 a0 a1 a2 a3).wf = false) := ⟨fun _ _ _ _ => rfl, fun _ _ _ _ => rfl⟩
theorem test_wf_sample :
    (∀ (a0 : List (List BF16)), (Instr.sample 1024 0 a0).wf = false) ∧
    (∀ (a0 : List (List BF16)), (Instr.sample 0 4194304 a0).wf = false) := ⟨fun _ => rfl, fun _ => rfl⟩
theorem test_wf_stepRetire :
    (∀ (a0 : Nat), (Instr.stepRetire 1024 a0).wf = false) := fun _ => rfl
theorem test_wf_completionWrite :
    (∀ (a0 : Nat), (Instr.completionWrite 64 0 a0).wf = false) ∧
    (∀ (a0 : Nat), (Instr.completionWrite 0 17 a0).wf = false) := ⟨fun _ => rfl, fun _ => rfl⟩
theorem test_wf_completionBufferStall :
    (∀ (a0 : Nat), (Instr.completionBufferStall 1024 a0).wf = false) := fun _ => rfl
theorem test_wf_frameReturn :
    ((Instr.frameReturn 64).wf = false) := rfl
theorem test_wf_quadrantCairn :
    (∀ (a0 : Nat), (Instr.quadrantCairn 4 a0).wf = false) := fun _ => rfl
theorem test_wf_tileCairn :
    (∀ (a0 : Nat), (Instr.tileCairn 1024 a0).wf = false) := fun _ => rfl
theorem test_wf_swapHold :
    (∀ (a0 : Nat), (Instr.swapHold 4096 a0).wf = false) := fun _ => rfl
theorem test_wf_swapComplete :
    (∀ (a0 : Nat), (Instr.swapComplete 4096 a0).wf = false) := fun _ => rfl
theorem test_wf_patrolScrub :
    (∀ (a0 : Bool) (a1 : Bool), (Instr.patrolScrub (memEnd + 1024 * tileSram) a0 a1).wf = false) := fun _ _ => rfl
theorem test_wf_driftFilterUpdate :
    ((Instr.driftFilterUpdate 1024).wf = false) := rfl
theorem test_wf_calibrationSlice :
    (∀ (a0 : Nat), (Instr.calibrationSlice 1088 a0).wf = false) := fun _ => rfl
theorem test_wf_testDue :
    (∀ (a0 : Nat), (Instr.testDue 2112 a0).wf = false) := fun _ => rfl
theorem test_wf_testSlice :
    (∀ (a0 : Nat) (a1 : Word64), (Instr.testSlice 2112 a0 a1).wf = false) := fun _ _ => rfl
theorem test_wf_testOverdue :
    (∀ (a0 : Nat) (a1 : Word64), (Instr.testOverdue 2112 a0 a1).wf = false) := fun _ _ => rfl
theorem test_wf_powerLoopUpdate :
    (∀ (a0 : LaserSeen), (Instr.powerLoopUpdate 240 a0).wf = false) := fun _ => rfl
theorem test_wf_fadeEvaluation :
    (∀ (a0 : Int) (a1 : Nat), (Instr.fadeEvaluation 240 a0 a1).wf = false) := fun _ _ => rfl
theorem test_wf_spareReady :
    (∀ (a0 : Nat), (Instr.spareReady 240 a0).wf = false) := fun _ => rfl
theorem test_wf_spareTimeout :
    (∀ (a0 : Nat), (Instr.spareTimeout 240 a0).wf = false) := fun _ => rfl
theorem test_wf_ioLaserSwap :
    (∀ (a0 : Nat), (Instr.ioLaserSwap 240 a0).wf = false) := fun _ => rfl
theorem test_wf_toneWindow :
    (∀ (a0 : ToneSeen) (a1 : Nat) (a2 : Nat), (Instr.toneWindow 0 (clusterRings 0) a0 a1 a2).wf = false) ∧
    (∀ (a0 : ToneSeen) (a1 : Nat) (a2 : Nat), (Instr.toneWindow 300 0 a0 a1 a2).wf = false) := ⟨fun _ _ _ => rfl, fun _ _ _ => rfl⟩
theorem test_wf_acquisitionTimeout :
    (∀ (a0 : Nat), (Instr.acquisitionTimeout 0 (clusterRings 0) a0).wf = false) ∧
    (∀ (a0 : Nat), (Instr.acquisitionTimeout 300 0 a0).wf = false) := ⟨fun _ => rfl, fun _ => rfl⟩
theorem test_wf_heaterLimit :
    (∀ (a0 : Nat), (Instr.heaterLimit 0 (clusterRings 0) a0).wf = false) ∧
    (∀ (a0 : Nat), (Instr.heaterLimit 300 0 a0).wf = false) := ⟨fun _ => rfl, fun _ => rfl⟩
theorem test_wf_frameReceived :
    (∀ (a0 : Frame) (a1 : Nat), (Instr.frameReceived 24 a0 a1).wf = false) := fun _ _ => rfl
theorem test_wf_laneRemap :
    (∀ (a0 : BitVec 17) (a1 : Nat), (Instr.laneRemap 24 a0 a1).wf = false) := fun _ _ => rfl
theorem test_wf_relay :
    (∀ (a0 : FMsg), (Instr.relay 24 a0).wf = false) := fun _ => rfl
theorem test_wf_chain :
    (∀ (a0 : FMsg), (Instr.chain 24 a0).wf = false) := fun _ => rfl
theorem test_wf_chainOpenTimeout :
    (∀ (a0 : Nat) (a1 : Nat), (Instr.chainOpenTimeout 64 a0 a1).wf = false) := fun _ _ => rfl
theorem test_wf_journal :
    (∀ (a0 : FMsg), (Instr.journal 24 a0).wf = false) := fun _ => rfl
theorem test_wf_resp :
    (∀ (a0 : FMsg), (Instr.resp 24 a0).wf = false) := fun _ => rfl
theorem test_wf_probe :
    (∀ (a0 : FMsg), (Instr.probe 24 a0).wf = false) := fun _ => rfl
theorem test_wf_mgmt :
    (∀ (a0 : FMsg), (Instr.mgmt 24 a0).wf = false) := fun _ => rfl
theorem test_wf_timeRecord :
    (∀ (a0 : Nat), (Instr.timeRecord 24 a0).wf = false) := fun _ => rfl
theorem test_wf_frameAlignmentLoss :
    (∀ (a0 : Nat), (Instr.frameAlignmentLoss 24 a0).wf = false) := fun _ => rfl
theorem test_wf_portRetrain :
    (∀ (a0 : Nat), (Instr.portRetrain 24 a0).wf = false) := fun _ => rfl
theorem test_wf_heartbeat :
    (∀ (a0 : Nat) (a1 : Bool) (a2 : Nat) (a3 : Nat), (Instr.heartbeat 3 a0 a1 a2 a3).wf = false) := fun _ _ _ _ => rfl
theorem test_wf_droop :
    (∀ (a0 : Nat), (Instr.droop 4 a0).wf = false) := fun _ => rfl
theorem test_wf_operatingPointBoundary :
    (∀ (a0 : Nat), (Instr.operatingPointBoundary 4 a0).wf = false) := fun _ => rfl
theorem test_wf_vgood :
    (∀ (a0 : Nat), (Instr.vgood 4 a0).wf = false) := fun _ => rfl
theorem test_wf_powerEmergency :
    (∀ (a0 : Nat) (a1 : Nat), (Instr.powerEmergency 7 a0 a1).wf = false) := fun _ _ => rfl
theorem test_wf_criticalRelease :
    (∀ (a0 : Nat), (Instr.criticalRelease 7 a0).wf = false) := fun _ => rfl
theorem test_wf_integrationPeriodEnd :
    (∀ (a0 : Int) (a1 : Int) (a2 : Int) (a3 : Nat), (Instr.integrationPeriodEnd 6 a0 a1 a2 a3).wf = false) := fun _ _ _ _ => rfl
theorem test_wf_thermalSample :
    (∀ (a0 : List Int) (a1 : Nat), (Instr.thermalSample 15 a0 a1).wf = false) := fun _ _ => rfl
theorem test_wf_demandRelease :
    (∀ (a0 : Nat), (Instr.demandRelease 15 a0).wf = false) := fun _ => rfl
theorem test_wf_watchdog :
    (∀ (a0 : CrashCause) (a1 : Nat), (Instr.watchdog 8 a0 a1).wf = false) := fun _ _ => rfl
theorem test_wf_alive :
    (∀ (a0 : Nat), (Instr.alive 8 a0).wf = false) := fun _ => rfl
theorem test_wf_longOperationSlice :
    (∀ (a0 : Nat) (a1 : Nat) (a2 : Nat), (Instr.longOperationSlice 64 a0 a1 a2).wf = false) := fun _ _ _ => rfl
theorem test_wf_progress :
    (∀ (a0 : Nat) (a1 : Nat), (Instr.progress 64 a0 a1).wf = false) := fun _ _ => rfl
theorem test_wf_parkComplete :
    (∀ (a0 : Nat), (Instr.parkComplete 4194304 a0).wf = false) := fun _ => rfl
theorem test_wf_restoreComplete :
    (∀ (a0 : Nat), (Instr.restoreComplete 4194304 a0).wf = false) := fun _ => rfl
theorem test_wf_contextCacheWriteBack :
    ((Instr.contextCacheWriteBack 4).wf = false) := rfl
theorem test_wf_fenceTimeout :
    (∀ (a0 : Nat), (Instr.fenceTimeout 64 0 a0).wf = false) ∧
    (∀ (a0 : Nat), (Instr.fenceTimeout 0 17 a0).wf = false) := ⟨fun _ => rfl, fun _ => rfl⟩
theorem test_wf_fullRingReminder :
    (∀ (a0 : Nat), (Instr.fullRingReminder 64 0 a0).wf = false) ∧
    (∀ (a0 : Nat), (Instr.fullRingReminder 0 17 a0).wf = false) := ⟨fun _ => rfl, fun _ => rfl⟩
theorem test_wf_selfTestFailure :
    ((Instr.selfTestFailure 0).wf = false) ∧
    ((Instr.selfTestFailure 5).wf = false) := ⟨rfl, rfl⟩
theorem test_wf_lifetimeCounterWrite :
    (∀ (a0 : Nat), (Instr.lifetimeCounterWrite 4 a0).wf = false) := fun _ => rfl
theorem test_wf_trainingComplete :
    (∀ (a0 : TrainEnd) (a1 : Nat), (Instr.trainingComplete 24 a0 a1).wf = false) := fun _ _ => rfl

/-! ## Witnesses: steps, doorbells and rings -/

/-- IdleStepPassesOneReferenceEdge. -/
theorem wit_idle : up.pending = [] ∧ State.reset.pending = [] := ⟨rfl, rfl⟩

/-- EveryStepKeepsTheCanonicalForm: a canonical state whose step answers a next state. -/
theorem wit_canonical : State.reset.Canonical ∧ ∃ t, step State.reset = .next t := by
  refine ⟨?_, _, rfl⟩
  constructor <;> decide +kernel

/-- CommandsLeaveTheQueueAndTheOrderOfTime. -/
theorem wit_next : ∃ t, exec (.rcRead 0 0x60008 8) up = .next t := of_leads (p := fun _ => true) (by decide +kernel)

/-- OnlyAbsentObjectsStopACommand: both of its cases occur. -/
theorem wit_absent : exec (.frameReturn 64) up = .fault .noSuchObject ∧ ∃ t, exec (.frameReturn 63) up = .next t :=
  ⟨of_stops (by decide +kernel), of_leads (p := fun _ => true) (by decide +kernel)⟩

/-- BytesWrittenReadBackUnderTheirKey: an address outside the bytes written, in a unit written under the key and in one not written. -/
theorem wit_bytes : ¬((16 : Nat) ≤ 20 ∧ 20 < 16 + [(1 : Byte), 2].length) ∧
    tget 0 ((({} : Mem).write (some 3) 16 [1, 2]).keys) (20 / 256) = 3 + 1 ∧
    tget 0 ((({} : Mem).write (some 3) 16 [1, 2]).keys) (4096 / 256) = 0 := by decide +kernel

/-- DoorbellsMoveTheirIndexOrAreLogged: accepted at the old index and at the ring size, refused one beyond, at an old index and on a pair
that is off. -/
theorem wit_doorbells :
    up.hostUp = true ∧ up.decodes 0 = true ∧ up.pairOn 0 1 = true ∧ up.pairOn 0 2 = false ∧
    (diff32 (up.fld (Reg.SCH_SQ_DB 0 1) Fld.SCH_SQ_DB_SQ_TAIL) (up.fld (Reg.SCH_RING_IDX 0 1) Fld.SCH_RING_IDX_SQ_HEAD) ≤
        diff32 (8#32).toNat (up.fld (Reg.SCH_RING_IDX 0 1) Fld.SCH_RING_IDX_SQ_HEAD) ∧
      diff32 (8#32).toNat (up.fld (Reg.SCH_RING_IDX 0 1) Fld.SCH_RING_IDX_SQ_HEAD) ≤ 2 ^ up.fld (Reg.SCH_RING_CFG 0 1) Fld.SCH_RING_CFG_SQ_LOG2) ∧
    (diff32 (up.fld (Reg.SCH_SQ_DB 0 1) Fld.SCH_SQ_DB_SQ_TAIL) (up.fld (Reg.SCH_RING_IDX 0 1) Fld.SCH_RING_IDX_SQ_HEAD) ≤
        diff32 (64#32).toNat (up.fld (Reg.SCH_RING_IDX 0 1) Fld.SCH_RING_IDX_SQ_HEAD) ∧
      diff32 (64#32).toNat (up.fld (Reg.SCH_RING_IDX 0 1) Fld.SCH_RING_IDX_SQ_HEAD) ≤ 2 ^ up.fld (Reg.SCH_RING_CFG 0 1) Fld.SCH_RING_CFG_SQ_LOG2) ∧
    ¬(diff32 (up.fld (Reg.SCH_SQ_DB 0 1) Fld.SCH_SQ_DB_SQ_TAIL) (up.fld (Reg.SCH_RING_IDX 0 1) Fld.SCH_RING_IDX_SQ_HEAD) ≤
        diff32 (7#32).toNat (up.fld (Reg.SCH_RING_IDX 0 1) Fld.SCH_RING_IDX_SQ_HEAD) ∧
      diff32 (7#32).toNat (up.fld (Reg.SCH_RING_IDX 0 1) Fld.SCH_RING_IDX_SQ_HEAD) ≤ 2 ^ up.fld (Reg.SCH_RING_CFG 0 1) Fld.SCH_RING_CFG_SQ_LOG2) ∧
    ¬(diff32 (up.fld (Reg.SCH_SQ_DB 0 1) Fld.SCH_SQ_DB_SQ_TAIL) (up.fld (Reg.SCH_RING_IDX 0 1) Fld.SCH_RING_IDX_SQ_HEAD) ≤
        diff32 (65#32).toNat (up.fld (Reg.SCH_RING_IDX 0 1) Fld.SCH_RING_IDX_SQ_HEAD) ∧
      diff32 (65#32).toNat (up.fld (Reg.SCH_RING_IDX 0 1) Fld.SCH_RING_IDX_SQ_HEAD) ≤ 2 ^ up.fld (Reg.SCH_RING_CFG 0 1) Fld.SCH_RING_CFG_SQ_LOG2) ∧
    diff32 0 (up.fld (Reg.SCH_CQ_DB 0 1) Fld.SCH_CQ_DB_CQ_HEAD) ≤
      diff32 (up.fld (Reg.SCH_RING_IDX 0 1) Fld.SCH_RING_IDX_CQ_TAIL) (up.fld (Reg.SCH_CQ_DB 0 1) Fld.SCH_CQ_DB_CQ_HEAD) ∧
    ¬(diff32 1 (up.fld (Reg.SCH_CQ_DB 0 1) Fld.SCH_CQ_DB_CQ_HEAD) ≤
      diff32 (up.fld (Reg.SCH_RING_IDX 0 1) Fld.SCH_RING_IDX_CQ_TAIL) (up.fld (Reg.SCH_CQ_DB 0 1) Fld.SCH_CQ_DB_CQ_HEAD)) := by
  decide +kernel

theorem test_sqDb : leads (.sqDb 0 1 9) up (fun t => t.fld (Reg.SCH_SQ_DB 0 1) Fld.SCH_SQ_DB_SQ_TAIL == 9) = true := by decide +kernel
theorem test_sqDb_backwards : leads (.sqDb 0 1 7) up
    (fun t => t.globalLog == [⟨0, 0xD8128, 2, 0, false, false⟩] && ((t.pair 0 1).out.map fun o => o.bytes.length) == [32]) = true := by
  decide +kernel
theorem test_cqDb_beyond : leads (.cqDb 0 1 1) up (fun t => t.globalLog == [⟨0, 0xD812C, 2, 0, false, false⟩]) = true := by decide +kernel

/-- A value that enables a ring pair: 64 slots and entries at the ring area's pages 32 and 33. -/
def cfgVal : BitVec 64 := 0x8402018D

/-- RingWritesOpenAndClosePairs: a pair that is off with values that keep and break R286, and one that is on. -/
theorem wit_rings :
    up.hostWrites 0 ∧ up.pairOn 0 16 = false ∧ up.ringRules 0 16 ((cfgVal ||| 1) &&& ringCfgBits) = true ∧
    up.ringRules 0 16 (((0 : BitVec 64) ||| 1) &&& ringCfgBits) = false ∧
    up.pairOn 0 1 = true ∧ (cfgVal ||| 1) &&& ringCfgBits ≠ up.reg (Reg.SCH_RING_CFG 0 1) ∧
    cfgVal &&& ringCfgBits &&& ~~~1 ≠ up.reg (Reg.SCH_RING_CFG 0 1) &&& ~~~1 ∧
    up.reg (Reg.SCH_RING_CFG 0 1) &&& ringCfgBits &&& ~~~1 = up.reg (Reg.SCH_RING_CFG 0 1) &&& ~~~1 ∧
    (∀ k, (up.pair 0 k).fence = none) :=
  ⟨by unfold State.hostWrites; decide +kernel, by decide +kernel, by decide +kernel, by decide +kernel, by decide +kernel,
    by decide +kernel, by decide +kernel, by decide +kernel, fun _ => rfl⟩

theorem test_ringEnable : leads (.ringEnable 0 16 cfgVal) up (fun t => t.pairOn 0 16) = true := by decide +kernel
theorem test_ringDisable : leads (.ringDisable 0 1 (up.reg (Reg.SCH_RING_CFG 0 1))) up
    (fun t => !t.pairOn 0 1 && t.fld (Reg.SCH_SQ_DB 0 1) Fld.SCH_SQ_DB_SQ_TAIL == 0) = true := by decide +kernel

/-- InvalidationsRunUntilComplete: by PF0 and by the partition itself, idle and busy. -/
theorem wit_invalidations :
    up1.hostWrites 0 ∧ up1.hostWrites 1 ∧ up1.flag (Reg.MMU_INV 63) Fld.MMU_INV_BUSY = false ∧ up1.flag (Reg.MMU_INV 1) Fld.MMU_INV_BUSY = false ∧
    (put up1 [(Reg.MMU_INV 1, Fld.MMU_INV_BUSY, 1)]).flag (Reg.MMU_INV 1) Fld.MMU_INV_BUSY = true ∧
    ({ up1 with parts := [(1, { inv := some (2, 1, false), stale := [(0x5000, 1, 7)] })] }.part 1).inv = some (2, 1, false) := by
  unfold State.hostWrites; decide +kernel

theorem test_invalidate : leads (.invalidate 1 1 5 0) up1 (fun t => t.flag (Reg.MMU_INV 1) Fld.MMU_INV_BUSY && (t.part 1).inv == some (5, 1, false)) = true := by
  decide +kernel
theorem test_invalidationComplete : leads (.invalidationComplete 1) { up1 with parts := [(1, { inv := some (0, 1, true), stale := [(0x5000, 1, 7)] })] }
    (fun t => (t.part 1).stale == [] && (t.part 1).inv == none) = true := by decide +kernel

/-- Partition 1 with a reservoir of 16 entries that holds 4. -/
def upRes : State := put up1 [(Reg.KVT_RES_RING 1, Fld.KVT_RES_RING_LOG2SIZE, 4), (Reg.KVT_RES_IDX 1, Fld.KVT_RES_IDX_TAIL, 4)]

/-- ReservoirAndFreeRingIndicesMove: within the ring, exactly full, one beyond, and no ring. -/
theorem wit_reservoir :
    upRes.hostWrites 1 ∧ (5#32).toNat ≠ upRes.fld (Reg.KVT_RES_IDX 1) Fld.KVT_RES_IDX_TAIL ∧
    upRes.fld (Reg.KVT_RES_RING 1) Fld.KVT_RES_RING_LOG2SIZE ≠ 0 ∧
    diff32 (16#32).toNat (upRes.fld (Reg.KVT_RES_IDX 1) Fld.KVT_RES_IDX_HEAD) ≤ 2 ^ upRes.fld (Reg.KVT_RES_RING 1) Fld.KVT_RES_RING_LOG2SIZE ∧
    2 ^ upRes.fld (Reg.KVT_RES_RING 1) Fld.KVT_RES_RING_LOG2SIZE < diff32 (17#32).toNat (upRes.fld (Reg.KVT_RES_IDX 1) Fld.KVT_RES_IDX_HEAD) ∧
    upRes.fld (Reg.KVT_RES_RING 0) Fld.KVT_RES_RING_LOG2SIZE = 0 := by
  unfold State.hostWrites; decide +kernel

/-- The same ring while its interrupt is armed and LOW_WATER is 8. -/
def upLow : State := { put upRes [(Reg.KVT_RES_CFG 1, Fld.KVT_RES_CFG_LOW_WATER, 8)] with parts := [(1, { armed := true, returns := [(5, 1)] })] }

/-- A TAIL that goes back below LOW_WATER, and frames that wait for the free ring. -/
theorem wit_reservoirLow :
    upLow.hostWrites 1 ∧ (2#32).toNat ≠ upLow.fld (Reg.KVT_RES_IDX 1) Fld.KVT_RES_IDX_TAIL ∧
    diff32 (2#32).toNat (upLow.fld (Reg.KVT_RES_IDX 1) Fld.KVT_RES_IDX_HEAD) ≤ 2 ^ upLow.fld (Reg.KVT_RES_RING 1) Fld.KVT_RES_RING_LOG2SIZE ∧
    ¬(diff32 (upLow.fld (Reg.KVT_RES_IDX 1) Fld.KVT_RES_IDX_TAIL) (upLow.fld (Reg.KVT_RES_IDX 1) Fld.KVT_RES_IDX_HEAD) <
      diff32 (2#32).toNat (upLow.fld (Reg.KVT_RES_IDX 1) Fld.KVT_RES_IDX_HEAD)) ∧
    (upLow.part 1).armed = true ∧ (upLow.part 1).returns.length = 1 := by
  unfold State.hostWrites; decide +kernel

theorem test_reservoirTail_low : leads (.reservoirTailWrite 1 1 2) { upLow with pcie := { upLow.pcie with msixOn := [1], unmasked := [49] } }
    (fun t => !(t.part 1).armed && t.pcie.msix == [(1, 17, 0)]) = true := by decide +kernel
theorem test_reservoirTail : leads (.reservoirTailWrite 1 1 17) upRes (fun t => t.globalLog == [⟨0, 0xC0048, 3, 1, false, false⟩]) = true := by
  decide +kernel

/-- PortsAreEnabledAndDisabled: a port OFF, training, UP and retraining, and a write of another function. -/
theorem wit_ports :
    up1.hostUp = true ∧ up1.portSt 23 = 0 ∧ (∀ st ∈ [1, 2, 3], (put up1 [(Reg.LNK_PORT_STAT 23, Fld.LNK_PORT_STAT_STATE, st)]).portSt 23 = st) ∧
    up1.decodes 1 = true := by decide +kernel

theorem test_portEnable : leads (.portEnable 0 0 3) up (fun t => t.portSt 0 == 1 && t.fld (Reg.LNK_PORT_CFG 0) Fld.LNK_PORT_CFG_CLASS == 1) = true := by
  decide +kernel
theorem test_portDisable : leads (.portDisable 0 0 0) (put up [(Reg.LNK_PORT_STAT 0, Fld.LNK_PORT_STAT_STATE, 1)]) (fun t => t.portSt 0 == 0) = true := by
  decide +kernel

/-! ## Witnesses: register accesses, resets and start-up -/

/-- RegisterReadsReturnWhatAFunctionMaySee: the whole and both halves of a register, the last one below 16 MiB that exists, one that is not
seen, one of a quadrant that is down, and an offset with none. -/
theorem wit_regReads :
    up1.hostWrites 0 ∧ up1.hostWrites 1 ∧
    (∃ g, regHit 0xD8008 = some g ∧ g.accessed 0xD8008 8 .whole ∧ up1.sees 0 g = true ∧ up1.unreadable g = false ∧ g.row.base ≠ 0x120010) ∧
    (∃ g, regHit 0xD800C = some g ∧ g.accessed 0xD800C 4 .high ∧ up1.sees 1 g = true ∧ up1.unreadable g = false ∧ g.row.base ≠ 0x120010) ∧
    (∃ g, regHit 0xD8008 = some g ∧ g.accessed 0xD8008 4 .low ∧ up1.sees 1 g = true ∧ up1.unreadable g = false ∧ g.row.base ≠ 0x120010) ∧
    (∃ g, regHit 0x151040 = some g ∧ g.accessed 0x151040 8 .whole ∧ up1.sees 2 g = false) ∧
    (∃ g, regHit 0x30018 = some g ∧ g.accessed 0x30018 8 .whole ∧ (put up [(Reg.CLK_START, Fld.CLK_START_QDOWN, 8)]).sees 0 g = true ∧
      (put up [(Reg.CLK_START, Fld.CLK_START_QDOWN, 8)]).unreadable g = true) := by
  refine ⟨?_, ?_, ?_, ?_, ?_, ?_, ?_⟩
  · unfold State.hostWrites; decide +kernel
  · unfold State.hostWrites; decide +kernel
  · unfold RegHit.accessed; exact someWit (by decide +kernel)
  · unfold RegHit.accessed; exact someWit (by decide +kernel)
  · unfold RegHit.accessed; exact someWit (by decide +kernel)
  · unfold RegHit.accessed; exact someWit (by decide +kernel)
  · unfold RegHit.accessed; exact someWit (by decide +kernel)

theorem wit_noRegister : (regHit 0xFFFFFC).isNone = true ∧ (regHit 0x150004).isNone = true ∧ 0xFFFFFC + 4 ≤ bar0Size := by decide +kernel

/-- The write of another partition's register: function 2 of three, and partition 1's. -/
def up2 : State := put up1 [(Reg.SEC_PART 2, Fld.SEC_PART_EXISTS, 1)]

theorem wit_othersWrite : up2.hostWrites 2 ∧ (2 : Nat) ≠ 0 ∧ (2 : Nat) ≠ 1 := by unfold State.hostWrites; decide +kernel

theorem test_rcRead_clears : leads (.rcRead 0 0xD8008 8) (put up [(Reg.SCH_FN_STAT 0, Fld.SCH_FN_STAT_DISCARD, 5)])
    (fun t => t.fld (Reg.SCH_FN_STAT 0) Fld.SCH_FN_STAT_DISCARD == 0 && t.out.any fun b => b == 5) = true := by decide +kernel
theorem test_invalidate_other : leads (.invalidate 2 1 0 0) up2 (fun t => t.globalLog == [⟨0, 0x60018, 3, 2, false, false⟩]) = true := by
  decide +kernel

/-- RegisterWritesSetTheWritableBits: a register PF0 may write in whole halves, a read-only one, one not seen, one of a quadrant that is down,
one a function may not write; no register; an unaligned access. -/
theorem wit_regWrites :
    (∃ g, regHit 0x70000 = some g ∧ g.accessed 0x70000 4 .low ∧ up.sees 0 g = true ∧ up.unreadable g = false ∧ up.mayWrite 0 g ∧
      actingRegisters.contains g.row.base = false) ∧
    (∃ g, regHit 0x80004 = some g ∧ g.accessed 0x80004 4 .low ∧ up.sees 0 g = true ∧ g.row.wr = .ro) ∧
    (∃ g, regHit 0xB0100 = some g ∧ g.accessed 0xB0100 4 .low ∧ (put up [(Reg.CLK_START, Fld.CLK_START_QRST, 1)]).sees 0 g = true ∧
      (put up [(Reg.CLK_START, Fld.CLK_START_QRST, 1)]).unreadable g = true) ∧
    (∃ g, regHit 0xA0000 = some g ∧ g.accessed 0xA0000 4 .low ∧ up1.sees 1 g = false) ∧
    (∃ g, regHit 0x80000 = some g ∧ g.accessed 0x80000 4 .low ∧ up1.sees 1 g = true ∧ up1.unreadable g = false ∧ g.row.wr ≠ .ro ∧
      ¬up1.mayWrite 1 g) := by
  refine ⟨?_, ?_, ?_, ?_, ?_⟩ <;> simp only [RegHit.accessed, State.mayWrite] <;> exact someWit (by decide +kernel)

theorem wit_regWrites_odd : ¬((2 : Nat) = 8 ∧ 0x70001 % 8 = 0) ∧ ¬((2 : Nat) = 4 ∧ 0x70001 % 4 = 0) := by decide

theorem test_registerWrite : leads (.registerWrite 0 0x70000 [0xFF, 0xFF, 0xFF, 0xFF] false) up
    (fun t => t.reg Reg.CAB_CHK_CFG == writeMask [Fld.CAB_CHK_CFG_CONF_TOL, Fld.CAB_CHK_CFG_SPARSE_OFF]) = true := by decide +kernel
theorem test_registerWrite_partial : leads (.registerWrite 1 0x70000 [0xFF] true) up1 (fun t => t.globalLog == [⟨0, 0x70000, 3, 1, false, false⟩]) = true := by
  decide +kernel

/-- Partition 0 with a window of 2 MiB at 1 GiB, the aperture at it, and four bytes written there. -/
def upWin : State :=
  put { up with mem := { cells := [(0x40000000, 7), (0x40000001, 8)], keys := [(0x400000, 1)] } }
    [(Reg.SEC_WIN 0, Fld.SEC_WIN_EN, 1), (Reg.SEC_WIN 0, Fld.SEC_WIN_BASE, 512), (Reg.SEC_WIN 0, Fld.SEC_WIN_SIZE, 1), (Reg.SCH_APER 0, Fld.SCH_APER_BASE, 1)]

/-- ApertureAccessesReachAdmittedMemory: the first and last bytes of the window, and the byte behind it. -/
theorem wit_aperture :
    upWin.hostWrites 0 ∧ upWin.admits 0 (upWin.fld (Reg.SCH_APER 0) Fld.SCH_APER_BASE * 2 ^ 30 + 0) 2 = true ∧
    upWin.mem.bad (upWin.fld (Reg.SCH_APER 0) Fld.SCH_APER_BASE * 2 ^ 30 + 0) 2 = none ∧
    upWin.admits 0 (upWin.fld (Reg.SCH_APER 0) Fld.SCH_APER_BASE * 2 ^ 30 + 0x1FFFFE) 2 = true ∧
    upWin.admits 0 (upWin.fld (Reg.SCH_APER 0) Fld.SCH_APER_BASE * 2 ^ 30 + 0x1FFFFF) 2 = false := by
  unfold State.hostWrites; decide +kernel

/-- The ring area by BAR2: placed, with a unit that cannot be corrected, and not placed; and accesses one byte beyond their BARs. -/
theorem wit_ringArea :
    up1.hostWrites 1 ∧ (up1.ringArea 1).2 ≠ 0 ∧ (up1.ringArea 0).2 = 0 ∧
    (({ up1 with mem := { poison := [(up1.ringArea 1).1 / 32] } } : State).mem.bad (up1.ringArea 1).1 4 = some (up1.ringArea 1).1) ∧
    (apShape (.ringRead 4)).2.2 < bar2Size - 3 + (apShape (.ringRead 4)).2.1 ∧ (apShape (.write [1])).2.2 < bar4Size + (apShape (.write [1])).2.1 := by
  unfold State.hostWrites; decide +kernel

theorem test_ringWrite : leads (.apertureAccess 1 8 (.ringWrite [7, 9])) up1
    (fun t => t.mem.readByte t.clk.count (t.hostKey 1 ((up1.ringArea 1).1 + 8) 2) ((up1.ringArea 1).1 + 9) == 9) = true := by decide +kernel
theorem test_apertureRead : leads (.apertureAccess 0 0 (.read 2)) upWin (fun t => t.out == [7, 8]) = true := by decide +kernel
theorem test_apertureAccess_refused : leads (.apertureAccess 0 0x200000 (.write [1])) upWin
    (fun t => t.globalLog == [⟨0, 0x40200000, 6, 0, true, false⟩] && t.mem == upWin.mem) = true := by decide +kernel

/-- HostLinkRequestsAreAnswered: the host link in training, up with an enabled function, and up with one that is not. -/
theorem wit_hostLink :
    (5 ≤ (put State.reset [(Reg.CLK_START, Fld.CLK_START_PHASE, 5)]).phase ∧ (put State.reset [(Reg.CLK_START, Fld.CLK_START_PHASE, 5)]).hostUp = false) ∧
    5 ≤ up1.phase ∧ up1.hostUp = true ∧ up1.enabledFn 4 = true ∧ up1.enabledFn 5 = false := by decide +kernel

/-- Function 1 with MSI-X enabled and a message of vector 5 pending. -/
def upMsix : State := { up1 with pcie := { up1.pcie with msixOn := [1], pendingBits := [37] } }

/-- The message is sent when its vector's mask is cleared, and not while the vector or the function is masked. -/
theorem wit_msix :
    upMsix.enabledFn 1 = true ∧ upMsix.pcie.pendingBits.contains (32 * 1 + 5) = true ∧ upMsix.decodes 1 = true ∧ upMsix.masked 1 5 = true ∧
    ({ upMsix with pcie := { upMsix.pcie with unmasked := [37] } } : State).masked 1 5 = false := by decide +kernel

theorem test_msixVector : leads (.configurationRequest ⟨1, (.msixVector 5 false)⟩) upMsix
    (fun t => t.pcie.msix == [(1, 5, upMsix.now)] && t.pcie.pendingBits == []) = true := by decide +kernel
theorem test_msixFunctionMask : leads (.configurationRequest ⟨1, (.msixControl true true)⟩)
    { upMsix with pcie := { upMsix.pcie with unmasked := [37] } } (fun t => t.pcie.msix == [] && t.pcie.pendingBits == [37]) = true := by
  decide +kernel
theorem test_configurationRequest : leads (.configurationRequest ⟨5, .other⟩) up1 (fun t => t.pcie.unsupported == [5]) = true := by decide +kernel
theorem test_unsupportedRequest : leads (.unsupportedRequest 9 true) up1 (fun t => t.pcie.aer == [(0, true)]) = true := by decide +kernel
theorem test_vfEnableClear : leads .vfEnableClear up1 (fun t => !t.decodes 1) = true := by decide +kernel

/-- ResetsClearWhatTheyName. -/
theorem wit_resets :
    up.powered = true ∧ up.hostUp = true ∧
    (let s := put { State.reset with clk := { perstLow := true } } [(Reg.CLK_START, Fld.CLK_START_PHASE, 4)]
     s.powered = true ∧ s.phase = 4 ∧ s.clk.perstLow = true) ∧
    up1.hostWrites 1 ∧ up.ready = true ∧ bitOf (up.fld Reg.CLK_START Fld.CLK_START_QRST) 3 = false ∧
    bitOf ((put up [(Reg.CLK_START, Fld.CLK_START_QRST, 8)]).fld Reg.CLK_START Fld.CLK_START_QRST) 3 = true ∧
    up.pairOn 0 0 = true := by
  unfold State.hostWrites; decide +kernel

theorem test_moduleReset : leads (.moduleReset 0 0) up (fun t => t.phase == 4 && t.time == 0) = true := by decide +kernel
theorem test_quadrantReset : leads (.quadrantReset 0 8) up (fun t => t.fld Reg.CLK_START Fld.CLK_START_QRST == 8) = true := by decide +kernel
theorem test_perst : leads (.perst 99999) up (fun t => t.phase == 15) = true := by decide +kernel
theorem test_functionLevelReset : leads (.functionLevelReset 1) up1 (fun t => !t.pairOn 1 0 && t.pairOn 0 0) = true := by decide +kernel

/-- A module in a start-up step. -/
def at_ (k : Nat) : State := put { State.reset with clk := { running := 5 ≤ k } } [(Reg.CLK_START, Fld.CLK_START_PHASE, k)]

/-- What start-up observes when all is well. -/
def fine : StartObs := ⟨true, true, [0, 1], [], [], [], [], List.range 24, []⟩

/-- StartUpFollowsItsStepsAndReference. -/
theorem wit_startUp :
    up.clk.running = true ∧ up.flag Reg.CLK_STAT Fld.CLK_STAT_HOLDOVER = false ∧
    (put up [(Reg.CLK_STAT, Fld.CLK_STAT_HOLDOVER, 1)]).flag Reg.CLK_STAT Fld.CLK_STAT_HOLDOVER = true ∧
    State.reset.phase = 0 ∧ State.reset.therm.tripped = false ∧ State.reset.power.tripCause = none ∧
    (∀ k ∈ [2, 3, 4, 5, 7, 8, 9, 12, 13, 14], (at_ k).phase = k ∧ (at_ k).clk.stopped = false) ∧
    (at_ 4).clk.perstLow = false ∧ fine.refOk = true ∧ (at_ 8).flag Reg.FWP_BOOT Fld.FWP_BOOT_RECOVERY = false ∧
    (put (at_ 8) [(Reg.FWP_BOOT, Fld.FWP_BOOT_RECOVERY, 1)]).flag Reg.FWP_BOOT Fld.FWP_BOOT_RECOVERY = true ∧
    (at_ 13).flag Reg.LNK_COORD Fld.LNK_COORD_VALID = false ∧
    (put (at_ 13) [(Reg.LNK_COORD, Fld.LNK_COORD_VALID, 1)]).flag Reg.LNK_COORD Fld.LNK_COORD_VALID = true ∧
    (max (at_ 14).now 0 - (at_ 14).clk.firstAt) / 1000000 < 2 ^ 32 := by decide +kernel

theorem test_powerOn : leads (.powerOn 5) State.reset (fun t => t.phase == 2 && t.now == 5) = true := by decide +kernel
theorem test_startUpStepEnd : leads (.startUpStepEnd 7 fine) (at_ 14) (fun t => t.ready) = true := by decide +kernel
theorem test_referenceLoss : leads .referenceLoss up (fun t => t.flag Reg.CLK_STAT Fld.CLK_STAT_HOLDOVER) = true := by decide +kernel

/-- SidebandCommandsAnswer. -/
theorem wit_sideband :
    up.powered = true ∧ (List.range 24).any (fun n => up.portSt n == 2) = false ∧ getBits (16383 : BitVec 64) 0 16 < 16384 ∧
    getBits (16383 : BitVec 64) 44 2 ≠ 3 ∧ 16384 ≤ getBits (16384 : BitVec 64) 0 16 ∧ getBits (0x300000000000 : BitVec 64) 44 2 = 3 ∧
    (List.range 24).any (fun n => (put up [(Reg.LNK_PORT_STAT 23, Fld.LNK_PORT_STAT_STATE, 2)]).portSt n == 2) = true ∧
    up.sec.zeroing = false ∧ ({ up with sec := { zeroing := true } } : State).sec.zeroing = true := by decide +kernel

theorem test_setCap : leads (.setCap 2000 2) up (fun t => t.side.resp == [0, 0xD0, 7]) = true := by decide +kernel
theorem test_setCap_length : leads (.setCap 2000 3) up (fun t => t.side.resp == [0x81]) = true := by decide +kernel
theorem test_setCoord_topo : leads (.setCoord 0x300000000000 8) up (fun t => t.side.resp == [0x80]) = true := by decide +kernel
theorem test_getDevpub : leads (.getDevpub 0) up (fun t => t.side.resp.length == 97) = true := by decide +kernel

/-! ## Witnesses: packets and sessions -/

/-- Page tables of partition 0: level 1 at 1 GiB, one level-2 table 2 MiB above it, and the first pages of the virtual space mapped to the
2 MiB behind, all in one cleared window of 8 MiB. -/
def upMmu : State :=
  put { up with mem := ((({ zeroed := [(0, 0x80000000)] } : Mem).write (some 0) 0x40000000 (leBytes 8 0x40200001)).write (some 0) 0x40200000
          (leBytes 8 0x4040000B)) }
    [(Reg.SEC_WIN 0, Fld.SEC_WIN_EN, 1), (Reg.SEC_WIN 0, Fld.SEC_WIN_BASE, 512), (Reg.SEC_WIN 0, Fld.SEC_WIN_SIZE, 4),
     (Reg.MMU_ROOT 0, Fld.MMU_ROOT_EN, 1), (Reg.MMU_ROOT 0, Fld.MMU_ROOT_L1PA, 0x2000)]

/-- An image without layers, and a step of a placement that works on one context. -/
def img0 : Image := { bytes := 4096, tiles := 1, vocab := 1000 }
def slot0 (i : Nat) : Slot := { ctx := i, kind := .decode, p0 := 5, npos := 1, emits := true, inputs := [3] }
def step0 (sl : List Slot) : Step :=
  { id := 1, builtAt := 0, slots := sl, npos := 1, predicted := 0, gen := 0, profile := 2, sparse := false, escSat := 0, escZro := 0,
    chkCfg := 0, mdtCfg := 0, indCfg := 0 }

/-- A context of placement l. -/
def ctx0 (l : Nat) (st : CtxState) : Ctx := { st := st, placement := l, lenMax := 100, pos := 5, pvalid := true, pending := 3, genLeft := 4 }

/-- Partition 0 with model 0, placement 0 between steps and placement 1 with a step of context 6; contexts in every state, one being
restored and one being parked. -/
def upS : State :=
  put { upMmu with
        models := [(0, { st := .loaded, img := img0 })],
        places := [(0, { present := true, stats := 0x1000, cfg := { model := 0, tiles := [0] } }),
          (1, { present := true, stats := 0x2000, cfg := { model := 0, tiles := [300] }, step := some (step0 [slot0 6]) })],
        ctxs := [(1, ctx0 0 .active), (2, ctx0 0 .paused), (3, ctx0 0 .parked), (4, ctx0 0 .expired), (5, ctx0 0 .opened), (6, ctx0 1 .active),
          (7, ctx0 0 .parked), (8, ctx0 0 .paused), (9, ctx0 1 .paused)],
        aux := [(7, { restore := some { extent := 0, bytes := 4096, thenOp := some (.resume none none 1) } }),
          (8, { park := some { extent := 0, bytes := 4096, reply := some (hdr 1 8, 0x0C) } })],
        parts := [(0, { screeBase := 0, screeBytes := 0x100000, extents := [(0, 1)] })] }
    [(Reg.SCH_CTX_RANGE 0, Fld.SCH_CTX_RANGE_COUNT, 64), (Reg.SCH_ID_RANGE 0, Fld.SCH_ID_RANGE_MODEL_COUNT, 4),
     (Reg.SCH_ID_RANGE 0, Fld.SCH_ID_RANGE_PLACE_COUNT, 4), (Reg.SCH_BKT_RANGE 0, Fld.SCH_BKT_RANGE_COUNT, 4),
     (Reg.SMP_PROF_TBL 0, Fld.SMP_PROF_TBL_COUNT, 1)]

/-- PacketsWaitOrAreFetchedAndChecked: a packet that cannot be fetched; one with a wrong SEQ, one deferred by a zeroisation, a C-class packet
with a wrong length, an unassigned opcode of the issuer's partition and of another. -/
theorem wit_fetch :
    dForm (.cairn (hdr 2 8) 0 0) = some (hdr 2 8, 0x08, 8) ∧ upS.fetchable (hdr 2 8) = false ∧
    upS.fetchable (hdr 1 8) = true ∧ upS.badSlot (hdr 1 8) = none ∧
    upS.headerChk { hdr 1 8 with seq := 9 } 0x08 false ({ hdr 1 8 with seq := 9 }.length.toNat == 8) true = .bad 0 ∧
    (let h : Hdr := { hdr 1 8 with fn := 1, part := 1 }
     let s : State := { up1 with sec := { zeroing := true }, sched := { up1.sched with dPtr := 16 } }
     s.fetchable h = true ∧ s.badSlot h = none ∧ s.headerChk h 0x08 false (h.length.toNat == 8) true = .pass ∧ h.fn ≠ 0 ∧ s.sec.zeroing = true) ∧
    (upS.fetchable (hdr 0 16) = true ∧ upS.passedOver (.zeroize 0) = false ∧
     upS.headerChk (hdr 0 16) 0x72 true (CPacket.lenOk (.zeroize 0) 16) (!CPacket.pf0 (.zeroize 0) || (hdr 0 16).fn == 0) = .bad 0) ∧
    assignedOpcodes.contains (0x07 : BitVec 8).toNat = false ∧ assignedOpcodes.contains (0xBF : BitVec 8).toNat = false ∧
    assignedOpcodes.contains (0 : BitVec 8).toNat = false := by
  refine ⟨rfl, ?_⟩; decide +kernel

/-- HeaderChecksFollowTheirOrder: each check failing with all before it passing, and all passing. -/
theorem wit_headerChecks :
    ({ hdr 1 8 with part := 1 } : Hdr).part.toNat % 64 ≠ ({ hdr 1 8 with part := 1 } : Hdr).fn ∧
    assignedOpcodes.contains 0x07 = false ∧ ((hdr 0 8).cls.toNat % 2 == 1) ≠ false ∧ ((hdr 0 8).ring == 0) ≠ false ∧
    2 ≤ ({ hdr 1 8 with cls := 2 } : Hdr).cls.toNat ∧ (64 ≤ ({ hdr 1 8 with part := 64 } : Hdr).part.toNat ∧ ({ hdr 1 8 with part := 64 } : Hdr).part.toNat % 64 = 0) ∧
    4 ≤ ({ hdr 1 8 with flags := 4 } : Hdr).flags.toNat ∧ 240 < (hdr 1 248).length.toNat ∧ (hdr 1 12).length.toNat % 8 ≠ 0 ∧
    assignedOpcodes.contains 0x08 = true ∧ ((hdr 1 240).cls.toNat % 2 == 1) = false ∧ ((hdr 1 240).ring == 0) = false ∧ (hdr 1 240).cls.toNat < 2 ∧
    (hdr 1 240).part.toNat < 64 ∧ (hdr 1 240).flags.toNat < 4 ∧ (hdr 1 240).rsv = 0 ∧ (hdr 1 240).length.toNat ≤ 240 ∧ (hdr 1 240).length.toNat % 8 = 0 ∧
    (hdr 1 240).seq.toNat = up.fld (Reg.SCH_RING_STAT 0 1) Fld.SCH_RING_STAT_EXP_SEQ ∧
    ({ hdr 1 240 with seq := 1 } : Hdr).seq.toNat ≠ up.fld (Reg.SCH_RING_STAT 0 1) Fld.SCH_RING_STAT_EXP_SEQ := by decide +kernel

theorem test_unassignedOpcode : leads (.unassignedOpcode (hdr 1 8) 0x07) up
    (fun t => ((t.pair 0 1).out.map fun o => o.bytes.take 6) == [[0, 0, 0, 0, 1, 7]] || t.fld (Reg.SCH_RING_STAT 0 1) Fld.SCH_RING_STAT_BAD == 1) = true := by
  decide +kernel
theorem test_header_part : leads (.unassignedOpcode { hdr 1 8 with part := 5 } 0x07) up (fun t => t.globalLog == [⟨0, 5, 1, 0, false, true⟩]) = true := by
  decide +kernel

/-- RepliesEnterTheirRing: a pair that is on and one that is off, a QUIET packet and another, no FENCE. -/
theorem wit_replies :
    up.pairOn 0 1 = true ∧ up.pairOn 0 2 = false ∧ ¬(stBadPacket = stOK ∧ bitOf (hdr 1 8).flags.toNat 0 = true) ∧
    (bitOf ({ hdr 1 8 with flags := 1 } : Hdr).flags.toNat 0 = true) ∧ bitOf (hdr 2 8).flags.toNat 0 = false ∧ (∀ k, (up.pair 0 k).fence = none) :=
  ⟨by decide +kernel, by decide +kernel, by decide, by decide, by decide, fun _ => rfl⟩

/-- Parameters of packets for context i. -/
def openP (i : Nat) : OpenParams := ⟨BitVec.ofNat 32 i, 0, 3, 2, 0, 0, 1048576, 0, 7, 0⟩
def appendP (i : Nat) : AppendParams := ⟨BitVec.ofNat 32 i, 2, 0x10, 5, 0, 0, 0⟩
def resumeP (i : Nat) : ResumeParams := ⟨BitVec.ofNat 32 i, 5, 3, 0, 0⟩

/-- SessionsAreOpenedAndClosed: a CLOSED context opened at the end of the range; a close between steps, of a PARKED context, and in a step. -/
theorem wit_sessions :
    upS.takesD (hdr 1 40) 0x01 40 ∧ firstFail ((upS.takePacket (hdr 1 40)).openChks 0 (openP 63)) = .pass ∧ upS.twinSt ≠ 2 ∧
    (upS.cached (upS.place 0).home).length < 16384 ∧
    upS.takesD (hdr 1 8) 0x05 8 ∧
    (let b := upS.takePacket (hdr 1 8)
     (∀ i ∈ [2, 3, 6], firstFail (b.chkCtx 0 (BitVec.ofNat 32 i) ++ [b.chkState i [.opened, .active, .paused, .parked, .expired], b.chkHome (b.ctx i)]) = .pass) ∧
     b.inStep 6 = true ∧ b.inStep 2 = false ∧ (b.ctx 2).st ≠ .closed ∧ b.inStep 3 = false ∧ (b.ctx 3).st = .parked ∧ (b.auxOf 3).restore = none ∧
     (b.auxOf 3).park = none) := by
  unfold State.takesD State.takesPacket; decide +kernel

/-- A SESSION_OPEN behind a held SESSION_CLOSE of a context in a step. -/
theorem wit_open_held :
    (let s := upS.setCtx 6 { ctx0 1 .active with held := [.close] }
     s.takesD (hdr 1 40) 0x01 40 ∧ firstFail ((s.takePacket (hdr 1 40)).openChks 0 (openP 6)) = .pass ∧ (s.takePacket (hdr 1 40)).inStep 6 = true) ∧
    (upS.takePacket (hdr 1 40)).inStep 63 = false ∧ ((upS.takePacket (hdr 1 40)).auxOf 63).restore = none ∧
    ((upS.takePacket (hdr 1 40)).ctx 63).st = .closed := by
  unfold State.takesD State.takesPacket; decide +kernel

theorem test_sessionOpen : leads (.sessionOpen (hdr 1 40) (openP 0)) upS (fun t => (t.ctx 0).st == .opened && (t.ctx 0).seed == 7) = true := by decide +kernel
theorem test_sessionOpen_open : leads (.sessionOpen (hdr 1 40) (openP 2)) upS (fun t => t.ctx 2 == upS.ctx 2) = true := by decide +kernel
theorem test_sessionClose : leads (.sessionClose (hdr 1 8) 5 0) upS (fun t => (t.ctx 5).st == .closed) = true := by decide +kernel

/-- SessionPacketsChangeTheirContext: for each packet a context in a step, one being restored, one in no step, and a PARKED one. -/
theorem wit_append :
    upS.takesD (hdr 1 32) 0x02 32 ∧
    (∀ i ∈ [1, 3, 4, 5, 6, 7], firstFail ((upS.takePacket (hdr 1 32)).appendChks 0 (appendP i)) = .pass) ∧
    (let b := fun i => (upS.takePacket (hdr 1 32)).stopPark i
     (b 6).inStep 6 = true ∧ ((b 7).auxOf 7).restore.isSome = true ∧
     (∀ i ∈ [1, 4, 5], (b i).inStep i = false ∧ ((b i).auxOf i).restore = none ∧ ((b i).ctx i).st ≠ .closed ∧ ((b i).ctx i).st ≠ .parked) ∧
     ((b 3).ctx 3).st = .parked ∧ ((b 3).auxOf 3).restore = none) := by
  unfold State.takesD State.takesPacket; decide +kernel

theorem wit_resume :
    upS.takesD (hdr 1 16) 0x04 16 ∧
    (∀ i ∈ [2, 3, 8, 9], firstFail ((upS.takePacket (hdr 1 16)).resumeChks 0 (resumeP i)) = .pass) ∧
    (let b := fun i => (upS.takePacket (hdr 1 16)).stopPark i
     (∀ i ∈ [2, 8, 9], (b i).inStep i = false ∧ ((b i).auxOf i).restore = none ∧ ((b i).ctx i).st ≠ .closed ∧ ((b i).ctx i).st ≠ .parked) ∧
     ((b 3).ctx 3).st = .parked ∧ ((b 3).auxOf 3).restore = none) := by
  unfold State.takesD State.takesPacket; decide +kernel

/-- A context in a step with a pause held for it may be resumed. -/
def upHeld : State := upS.setCtx 6 { ctx0 1 .active with held := [.pause] }
/-- A context being restored after a KV_RESTORE may be resumed. -/
def upRest : State := upS.setAux 7 { restore := some { extent := 0, bytes := 4096 } }

theorem wit_resume_held :
    (upHeld.takesD (hdr 1 16) 0x04 16 ∧ firstFail ((upHeld.takePacket (hdr 1 16)).resumeChks 0 (resumeP 6)) = .pass ∧
      ((upHeld.takePacket (hdr 1 16)).stopPark 6).inStep 6 = true) ∧
    (upRest.takesD (hdr 1 16) 0x04 16 ∧ firstFail ((upRest.takePacket (hdr 1 16)).resumeChks 0 (resumeP 7)) = .pass ∧
      (((upRest.takePacket (hdr 1 16)).stopPark 7).auxOf 7).restore.isSome = true ∧
      (((upRest.takePacket (hdr 1 16)).stopPark 7).ctx 7).st = .parked) := by
  unfold State.takesD State.takesPacket; decide +kernel

theorem wit_pause :
    upS.takesD (hdr 1 8) 0x03 8 ∧
    (let b := upS.takePacket (hdr 1 8)
     (∀ i ∈ [1, 6, 7], firstFail (b.chkCtx 0 (BitVec.ofNat 32 i) ++ [b.chkState i [.active], b.chkHome (b.ctx i)]) = .pass) ∧
     b.inStep 6 = true ∧ (b.auxOf 7).restore.isSome = true ∧ b.inStep 1 = false ∧ (b.auxOf 1).restore = none ∧ (b.ctx 1).st = .active) := by
  unfold State.takesD State.takesPacket; decide +kernel

theorem wit_tree :
    upS.takesD (hdr 1 16) 0x06 16 ∧
    (let b := upS.takePacket (hdr 1 16)
     let t : List Node := [⟨0, some 0, 0⟩]
     (∀ i ∈ [1, 6, 7], firstFail (b.chkCtx 0 (BitVec.ofNat 32 i) ++ [b.chkState i [.active, .paused], b.chkHome (b.viewCtx i)]) = .pass ∧
       (b.imgOf (b.viewCtx i)).shardCnt ≤ 1 ∧ (b.viewCtx i).appCnt = 0 ∧ (b.viewCtx i).pvalid = true) ∧
     b.inStep 6 = true ∧ (b.auxOf 7).restore.isSome = true ∧ b.inStep 1 = false ∧ (b.auxOf 1).restore = none ∧ (b.ctx 1).st ≠ .closed ∧
     (0x20 : BitVec 64).toNat % 8 = 0 ∧ t.length = 1) := by
  unfold State.takesD State.takesPacket; decide +kernel

/-- The tree of that witness: one node of token 3 without a parent. -/
def upTree : State := { upS with mem := upS.mem.write (some 0) 0x40400020 [3, 0, 0, 0, 0xFF, 0, 0, 0] }

theorem wit_tree_nodes :
    (let b := upTree.takePacket (hdr 1 16)
     let bs : List Byte := [3, 0, 0, 0, 0xFF, 0, 0, 0]
     let t : List Node := [⟨3, none, 0⟩]
     b.rdVa 0 0x20 8 = .inl bs ∧ (chunksOf 8 bs.length bs).map nodeOf = t.map some ∧ treeOk t (b.imgOf (b.viewCtx 1)).vocab = true ∧
     (b.viewCtx 1).pos + treeDepth t < (b.viewCtx 1).lenMax ∧ b.treesHeld (b.homeOf (b.viewCtx 1)) 1 < 4096) := by decide +kernel

theorem test_sessionAppend : leads (.sessionAppend (hdr 1 32) (appendP 4)) upS
    (fun t => (t.ctx 4).st == .active && (t.ctx 4).pos == 0 && (t.ctx 4).appCnt == 2 && (t.ctx 4).genLeft == 5) = true := by decide +kernel
theorem test_sessionResume : leads (.sessionResume (hdr 1 16) (resumeP 2)) upS (fun t => (t.ctx 2).st == .active && (t.ctx 2).genLeft == 5) = true := by
  decide +kernel
theorem test_sessionPause_held : leads (.sessionPause (hdr 1 8) 6 0) upS (fun t => (t.ctx 6).st == .active && (t.ctx 6).held == [.pause]) = true := by
  decide +kernel
theorem test_specTree : leads (.specTree (hdr 1 16) 1 1 0 0x20) upTree (fun t => (t.ctx 1).tree == some [⟨3, none, 0⟩]) = true := by decide +kernel

/-- ParksAndRestoresBegin: a run of extents found, and none; a park given up, a restore that gets its frames, and one that starves. -/
theorem wit_parks :
    (let b := upS.takePacket (hdr 1 8)
     upS.takesD (hdr 1 8) 0x0C 8 ∧ firstFail (b.chkCtx 0 2 ++ [b.chkState 2 [.paused], b.chkHome (b.ctx 2)]) = .pass ∧
     b.inStep 2 = false ∧ (b.auxOf 2).restore = none ∧ (b.auxOf 2).park = none ∧ (b.ctx 2).st = .paused ∧
     firstFit ((b.part (b.ctx 2).part).screeBytes / 65536) (ceilDiv (parkBytes (b.imgOf (b.ctx 2)) (b.ctx 2) (b.auxOf 2).npx) 65536)
       (b.part (b.ctx 2).part).extents = some 1 ∧
     firstFit 0 (ceilDiv (parkBytes (b.imgOf (b.ctx 2)) (b.ctx 2) (b.auxOf 2).npx) 65536) [] = none ∧
     upS.takesD (hdr 1 8) 0x0D 8 ∧
     (∀ i ∈ [3, 8], firstFail (b.chkCtx 0 (BitVec.ofNat 32 i) ++ [chkSt ((b.viewCtx i).st != .expired) stExpired, b.chkHome (b.ctx i)]) = .pass) ∧
     (b.auxOf 8).park.isSome = true ∧ (b.ctx 8).st = .paused ∧ b.parkFreed 8 = false ∧ (b.auxOf 3).park = none ∧ (b.viewCtx 3).st = .parked ∧
     ((b.stopPark 3).startRestore 3 none (some (hdr 1 8, 0x0D))).2 = .ok) := by
  unfold State.takesD State.takesPacket; decide +kernel

/-- KV_PARK of a context in a step with a pause held; KV_RESTORE of a context whose park has returned its frames. -/
theorem wit_parks_held :
    (let b := upHeld.takePacket (hdr 1 8)
     upHeld.takesD (hdr 1 8) 0x0C 8 ∧ firstFail (b.chkCtx 0 6 ++ [b.chkState 6 [.paused], b.chkHome (b.ctx 6)]) = .pass ∧ b.inStep 6 = true) ∧
    (let s := upS.setPart 0 { upS.part 0 with retWaits := [⟨8, [3]⟩] }
     let b := s.takePacket (hdr 1 8)
     s.takesD (hdr 1 8) 0x0D 8 ∧ b.parkFreed 8 = true ∧
     firstFail (b.chkCtx 0 8 ++ [chkSt ((b.viewCtx 8).st != .expired) stExpired, b.chkHome (b.ctx 8)]) = .pass) := by
  unfold State.takesD State.takesPacket; decide +kernel

/-- An image with one self-attention layer of one head, so that a context of one page needs a frame, and the reservoir is empty. -/
def imgAtt : Image :=
  { bytes := 4096, tiles := 1, vocab := 1000,
    layers := [⟨2, 0, 0, 0, 0, 0, 0, 0, 32, 32, 0, 0, 0, 0, 0, 0, 0, 0, 0, []⟩], atts := [⟨32, 1, 0, 32, 0, 1, 0, 0, []⟩] }
def upStarve : State := (upS.setModel 0 { st := .loaded, img := imgAtt }).setCtx 3 { ctx0 0 .parked with kvBase := 0x100000 }

/-- A restore starves on the empty reservoir, and one whose page has no level-1 entry ends. -/
theorem wit_restore_starves :
    (match ((upStarve.takePacket (hdr 1 8)).startRestore 3 none (some (hdr 1 8, 13))).2 with
      | .starved _ => true
      | _ => false) = true ∧
    (match (((upStarve.setCtx 3 { ctx0 0 .parked with kvBase := 0x4000000000 }).takePacket (hdr 1 8)).startRestore 3 none (some (hdr 1 8, 13))).2 with
      | .noTable _ => true
      | _ => false) = true := by decide +kernel

theorem test_kvPark : leads (.kvPark (hdr 1 8) 2 0) upS (fun t => (t.part 0).extents == [(0, 1), (1, 1)]) = true := by decide +kernel
theorem test_kvRestore : leads (.kvRestore (hdr 1 8) 8 0) upS (fun t => (t.auxOf 8).park.isNone && (t.part 0).extents == []) = true := by decide +kernel

/-- OrderingPacketsWaitOrReply: CAIRN of an idle and of a busy placement and of all; FENCE at once and waiting; RIDGE at both ends of LEAD. -/
theorem wit_ordering :
    (let b := upS.takePacket (hdr 1 8)
     upS.takesD (hdr 1 8) 0x08 8 ∧ firstFail (b.chkPlace 0 0 0) = .pass ∧ firstFail (b.chkPlace 0 1 0) = .pass ∧ b.busyPlaces [0] = [] ∧
     b.busyPlaces [1] ≠ [] ∧ b.busyPlaces (b.placesOf 0) ≠ [] ∧ upS.takesD (hdr 1 8) 0x0A 8 ∧ (3 : BitVec 32) ≠ 0 ∧ (0x1FFFF : BitVec 32).toNat < 2 ^ 17 ∧
     (∀ r, r < 17 → bitOf (3 : BitVec 32).toNat r = true → r ≠ 1 → (upS.pair 0 r).open_ = []) ∧ (upS.pair 0 1).open_ = [] ∧
     bitOf (hdr 1 8).flags.toNat 0 = false ∧ upS.takesD (hdr 1 8) 0x09 8 ∧ 1 ≤ (1 : BitVec 16).toNat ∧ (100 : BitVec 16).toNat ≤ 100 ∧
     b.alive 1 = true ∧ (put upS [(Reg.FWP_PROC 1, Fld.FWP_PROC_ALIVE, 0)]).alive 1 = false) := by
  unfold State.takesD State.takesPacket; decide +kernel

theorem wit_fence_rings : ∀ k, k ≠ (hdr 1 8).ring → (upS.pair 0 k).fence = none := fun _ _ => rfl
theorem wit_fence_waits :
    (let s := upS.setPair 0 0 { open_ := [5] }
     s.takesD (hdr 1 8) 0x0A 8 ∧ bitOf (3 : BitVec 32).toNat 0 = true ∧ (0 : Nat) ≠ 1 ∧ 5 ∈ (s.pair 0 0).open_) := by
  unfold State.takesD State.takesPacket; decide +kernel

/-- A setting packet of the partition that waits for CP, and a swap in progress, keep CAIRN waiting. -/
theorem wit_cairn_waits :
    (let q : LoadParams := ⟨0, 0, 0, 0, 0, 0, 0, 0, []⟩
     (∃ x ∈ ((upS.setProcQueue 0 [(hdr 0 32, .modelSwap q [])]).proc 0).queue, setsPart 0 x = true) ∧
     (let s : State := { upS with
        models := [(0, { st := .loaded, img := img0, swap := some { img := img0, op := 4 } })]
        longOps := [{ id := 4, h := hdr 0 32, pkt := .modelSwap q [] }] }
      4 ∈ s.swapsOf [0] ∧ (s.longOf 4).isSome = true)) ∧
    upS.swapsOf [0] = [] := by
  exact ⟨⟨⟨_, List.mem_cons_self, by decide⟩, by decide +kernel⟩, by decide +kernel⟩

theorem test_cairn_waits : leads (.cairn (hdr 1 8) 0xFFFF 0) upS (fun t => ((t.pair 0 1).cairns.map CairnWait.wait) == [[1]]) = true := by decide +kernel
theorem test_fence : leads (.fence (hdr 1 8) 3 0) upS (fun t => (t.pair 0 1).fence.isNone && (t.pair 0 1).out.length == 1) = true := by decide +kernel
theorem test_ridge : leads (.ridge (hdr 1 8) 0 100 50 10) upS (fun t => t.power.windows.length == 1 && t.fld Reg.POW_CNT Fld.POW_CNT_RIDGE == 1) = true := by
  decide +kernel

/-- PacketsDoNotReachOtherPartitions: function 1 names context 70 of its range. -/
theorem wit_isolation :
    (let h : Hdr := { hdr 1 8 with fn := 1, part := 1 }
     let s := put up1 [(Reg.SCH_CTX_RANGE 1, Fld.SCH_CTX_RANGE_FIRST, 64), (Reg.SCH_CTX_RANGE 1, Fld.SCH_CTX_RANGE_COUNT, 64)]
     dForm (.kvPark h 70 0) = some (h, 0x0C, 8) ∧ h.fn ≠ 0 ∧ (∃ t, exec (.kvPark h 70 0) s = .next t) ∧ ctxNamed (.kvPark h 70 0) = some 70 ∧
     (s.ctx 70).st = .closed ∧ (s.ctx 70).pair < 32 ∧ (s.auxOf 70).park = none ∧ s.aux = []) := by
  refine ⟨rfl, by decide, of_leads (p := fun _ => true) (by decide +kernel), rfl, rfl, by decide, rfl, rfl⟩

/-! ## Witnesses: control packets -/

/-- ControlPacketsReachTheirProcessor: served, deferred by the stage, queued, and left on the ring. -/
theorem wit_control :
    cForm (.zeroize (hdr 0 8) 0) = some (hdr 0 8, .zeroize 0) ∧
    up.takesPacket (hdr 0 8) 0x72 true (CPacket.lenOk (.zeroize 0) 8) (!CPacket.pf0 (.zeroize 0) || (hdr 0 8).fn == 0) ∧
    up.passedOver (.zeroize 0) = false ∧ up.stageServes (.zeroize 0) = true ∧ up.alive 3 = true ∧ up.recovery = false ∧
    (let s := put up [(Reg.FWP_PROC 3, Fld.FWP_PROC_ALIVE, 0)]
     s.takesPacket (hdr 0 8) 0x72 true true true ∧ s.passedOver (.zeroize 0) = false ∧ s.stageServes (.zeroize 0) = true ∧ s.alive 3 = false) ∧
    (let s := put up [(Reg.CLK_START, Fld.CLK_START_PHASE, 9)]
     s.takesPacket (hdr 0 8) 0x72 true true true ∧ s.passedOver (.zeroize 0) = false ∧ s.stageServes (.zeroize 0) = false) ∧
    (let s : State := { put up [(Reg.FWP_PROC 3, Fld.FWP_PROC_ALIVE, 0)] with procs := [(3, { queue := List.replicate 64 (hdr 0 8, .zeroize 0) })] }
     s.passedOver (.zeroize 0) = true) := by
  refine ⟨rfl, ?_⟩; unfold State.takesPacket; decide +kernel

/-- PartitionsAreCreatedAndDestroyed: a partition 63 created behind the window, one destroyed with FORCE, and the slices of its steps. -/
def upMake : State :=
  put { upS with pcie := { vfEnable := true, numVfs := 63 } } [(Reg.SEC_STAT, Fld.SEC_STAT_CO_SESSION, 1)]

theorem wit_partCreate :
    (let h := hdr 0 24
     let b := upMake.served h (.partCreate 63 0 0x80000000 0x20001)
     upMake.takesC h (.partCreate 63 0 0x80000000 0x20001) ∧ b.partExists 63 = false ∧ (0x80000000 : Nat) % 2 ^ 26 = 0 ∧ 0x80000000 + 2 ^ 26 ≤ memEnd ∧
     hitsAny 0x80000000 (2 ^ 26) ((List.range 64).flatMap b.windows ++ b.reservedRanges) = false ∧
     bitsOf (0x20001 : BitVec 64).toNat 1 16 = 0 ∧ bitsOf (0x20001 : BitVec 64).toNat 42 22 = 0 ∧ b.secError = false ∧ b.pcie.vfEnable = true ∧
     63 ≤ b.pcie.numVfs) := by
  unfold State.takesC State.takesPacket; decide +kernel

/-- Partition 1 exists and its destruction has done k steps. -/
def upGone (k : Nat) : State :=
  { put { upMake with pcie := { vfEnable := true, numVfs := 63 } } [(Reg.SEC_PART 1, Fld.SEC_PART_EXISTS, 1)] with
    longOps := [{ id := 0, h := hdr 0 8, pkt := .partDestroy 1 1 0, total := 6, done := k }],
    parts := [(1, { destroyStep := k })] }

theorem wit_partDestroy :
    (let s := put upMake [(Reg.SEC_PART 1, Fld.SEC_PART_EXISTS, 1)]
     let b := s.served (hdr 0 8) (.partDestroy 1 1 0)
     s.takesC (hdr 0 8) (.partDestroy 1 1 0) ∧ b.partExists 1 = true ∧ b.flag Reg.SEC_STAT Fld.SEC_STAT_CO_SESSION = true ∧ b.holds 1 = false ∧
     b.destroying 1 = false ∧ ¬b.longFull (hdr 0 8)) := by
  unfold State.takesC State.takesPacket State.longFull; decide +kernel

theorem wit_partDestroy_slices :
    (∀ k ∈ [0, 1, 2, 3, 4, 5], ∃ o, ((upGone k).tick 0).sliceGranted 0 0 o ∧ o.pkt = .partDestroy 1 1 0 ∧ o.h.ring = 0 ∧ o.total = 6 ∧ o.done = k ∧
      (((upGone k).tick 0).slicing 0 o).placesOf 1 = []) ∧
    (let s := (upGone 0).setPlace 2 { present := true, part := 1, step := some (step0 []) }
     s.placesOf 1 ≠ [] ∧ (∀ l ∈ s.placesOf 1, (s.place l).step.isSome = true)) := by
  refine ⟨fun k hk => ⟨{ id := 0, h := hdr 0 8, pkt := .partDestroy 1 1 0, total := 6, done := k }, ?_⟩, by decide +kernel⟩
  simp only [List.mem_cons, List.not_mem_nil, or_false] at hk
  obtain rfl | rfl | rfl | rfl | rfl | rfl := hk <;> unfold State.sliceGranted <;> decide +kernel

theorem test_partCreate : leads (.partCreate (hdr 0 24) 63 0 0x80000000 0x20001) upMake (fun t => t.partExists 63 && t.keyOf 63 == 1) = true := by decide +kernel
theorem test_partDestroy : leads (.longOperationSlice 0 0 1 0) (upGone 5) (fun t => !t.partExists 1 && t.longOps == []) = true := by decide +kernel

/-- PartSetAppliesEveryItemOrNone: items that all apply, one that fails its check, and a length that does not fit. -/
def psAge (stepsV : Nat) : List PsItem := [.age 4 0 (BitVec.ofNat 8 stepsV) 0 100]

theorem wit_partSet :
    cForm (.partSetAge (hdr 0 24) ⟨0, 1, 0, [0]⟩ 4 0 16 0 100 []) = some (hdr 0 24, .partSet ⟨0, 1, 0, [0]⟩ (psAge 16)) ∧
    (let b := upS.served (hdr 0 24) (.partSet ⟨0, 1, 0, [0]⟩ (psAge 16))
     upS.takesC (hdr 0 24) (.partSet ⟨0, 1, 0, [0]⟩ (psAge 16)) ∧ b.partExists 0 = true ∧
     (∃ u, State.runItems 0 0 24 1 8 (psAge 16) [0] b = .inl u) ∧
     (∀ x ∈ [(24, [PsItem.age 4 0 16 1 100], [(0 : Nat)]), (32, psAge 16, [0]), (24, psAge 16, [1])],
       ∃ k, State.runItems 0 0 x.1 1 8 x.2.1 x.2.2 b = .inr k) ∧
     (∃ l ∈ (b.idleCairns 0).placesOf 0, ((b.idleCairns 0).place l).step.isSome = true)) ∧
    (∀ l ∈ ((up.idleCairns 0).placesOf 0), ((up.idleCairns 0).place l).step = none) := by
  refine ⟨rfl, ⟨by unfold State.takesC State.takesPacket; decide +kernel, by decide +kernel, inlWit (by decide +kernel), ?_, by decide +kernel⟩,
    by decide +kernel⟩
  intro x hx
  simp only [List.mem_cons, List.not_mem_nil, or_false] at hx
  obtain rfl | rfl | rfl := hx <;> exact inrWit (by decide +kernel)

theorem wit_partSet_window :
    (0x600000 : BitVec 64).toNat % 2 ^ 21 = 0 ∧ (7 : BitVec 8).toNat < 8 ∧ (0x600000 : BitVec 64).toNat + (0x200000 : BitVec 64).toNat ≤ memEnd ∧
    up.busyPlaces (up.placesOf 0) = [] ∧ upS.busyPlaces (upS.placesOf 0) ≠ [] ∧ (up.part 0).returns = [] := by decide +kernel

theorem wit_partSet_tiles : (2 : BitVec 8).toNat ≤ 2 ∧ (1020 : BitVec 16).toNat + (4 : BitVec 16).toNat ≤ 1024 := by decide

theorem test_partSetAge : leads (.partSetAge (hdr 0 24) ⟨0, 1, 0, [0]⟩ 4 0 16 0 100 []) upS
    (fun t => t.fld (Reg.SCH_AGE_CFG 0) Fld.SCH_AGE_CFG_STARVE_STEPS == 16 && t.fld (Reg.SCH_AGE_CFG 0) Fld.SCH_AGE_CFG_STARVE_TIME == 100) = true := by
  decide +kernel
theorem test_partSetTiles : leads (.partSetTiles (hdr 0 24) ⟨0, 1, 0, [0]⟩ 8 0 1023 1 1 0 []) upS
    (fun t => t.tileOwners 1023 == [0] && t.fld (Reg.SEC_PART 0) Fld.SEC_PART_EXCL == 1) = true := by decide +kernel

/-- Parameters of MODEL_LOAD of model m into the first page. -/
def loadP (m : Nat) (dest : Nat := 0) : LoadParams := ⟨BitVec.ofNat 16 m, 0, 0, 0, 0, BitVec.ofNat 64 dest, 0x1000, 4096, []⟩
def placeP (l m : Nat) (n : Nat) : PlaceParams := ⟨BitVec.ofNat 16 l, BitVec.ofNat 16 m, 0, 0, 0, 0, 0, 1, 1, 16, 0, 0x100, BitVec.ofNat 16 n, 0, 0⟩
/-- Tile 0 is partition 0's. -/
def upTile : State := put upS [(Reg.CFG_TILE_MAP 0, Fld.CFG_TILE_MAP_MODE, 1)]

/-- ModelPacketsBegin: a load, a swap, an unload with and without placements, a PLACE of a placement in a step and of a new one. -/
theorem wit_models :
    (let h := hdr 0 32
     let b := upS.served h (.modelLoad (loadP 3) [])
     upS.takesC h (.modelLoad (loadP 3) []) ∧
     firstFail (b.chkModel 0 3 0 ++ [chkForm ((b.model 3).st == .absent) 0] ++ b.srcChks 0 (loadP 3) false) = .pass ∧
     (loadP 3).source ≠ 1 ∧ (loadP 3).nMembers = 0 ∧ ¬b.longFull h) ∧
    (let h := hdr 0 32
     let b := upS.served h (.modelSwap (loadP 0 0) [])
     upS.takesC h (.modelSwap (loadP 0 0) []) ∧
     firstFail (b.chkModel 0 0 0 ++ [chkForm ((b.model 0).st != .absent && (b.model 0).part == 0) 0,
       chkSt (!(b.model 0).st.busy) stDeferred] ++ b.srcChks 0 (loadP 0 0) true) = .pass) ∧
    (let s := upS.setModel 2 { st := .loaded, img := img0 }
     let b := s.served (hdr 0 8) (.modelUnload 2 0 0)
     s.takesC (hdr 0 8) (.modelUnload 2 0 0) ∧ firstFail (b.chkModel 0 2 0) = .pass ∧ (b.model 2).st ≠ .absent ∧ (b.model 2).part = 0 ∧
     (b.model 2).st.busy = false ∧ b.isSource 2 = false ∧ b.placesOfModel 2 = []) ∧
    (let s := upS.setPlace 0 {}
     let b := s.served (hdr 0 8) (.modelUnload 0 1 0)
     s.takesC (hdr 0 8) (.modelUnload 0 1 0) ∧ firstFail (b.chkModel 0 0 0) = .pass ∧ (b.model 0).st ≠ .absent ∧ (b.model 0).part = 0 ∧
     (b.model 0).st.busy = false ∧ b.isSource 0 = false ∧ b.placesOfModel 0 ≠ [] ∧ (∀ l ∈ b.placesOfModel 0, (b.place l).step.isSome = true)) := by
  unfold State.takesC State.takesPacket State.longFull; decide +kernel

theorem wit_modelLoad_chain :
    (let q : LoadParams := { loadP 3 with source := 1, src := 0, srcBytes := 0 }
     let b := upS.served (hdr 0 32) (.modelLoad q [])
     upS.takesC (hdr 0 32) (.modelLoad q []) ∧
     firstFail (b.chkModel 0 3 0 ++ [chkForm ((b.model 3).st == .absent) 0] ++ b.srcChks 0 q false) = .pass ∧ q.source = 1 ∧
     b.fabric.openings = []) ∧
    (let q : LoadParams := { loadP 3 with nMembers := 1, members := [7] }
     firstFail (upS.srcChks 0 q false) = .pass ∧ q.nMembers ≠ 0) := by
  unfold State.takesC State.takesPacket; decide +kernel

theorem wit_place :
    (let h := hdr 0 48
     let b := upTile.served h (.place (placeP 1 0 0))
     upTile.takesC h (.place (placeP 1 0 0)) ∧ firstFail (b.placeChks h (placeP 1 0 0)) = .pass ∧ (b.place 1).step.isSome = true ∧
     (b.place 1).present = true ∧ (b.place 1).stats ≠ 0) ∧
    (let h := hdr 0 48
     let q := placeP 3 0 1
     let b := upTile.served h (.place q)
     let tiles := b.readTiles 0 q.tilesVa.toNat 1
     let im := (b.model 0).img
     let lopt := b.readLopt 0 q.loptVa.toNat im
     upTile.takesC h (.place q) ∧ firstFail (b.placeChks h q) = .pass ∧
     firstFail [chkForm (q.tileCount.toNat == im.tiles) 32, b.chkVa 0 q.tilesVa.toNat (2 * q.tileCount.toNat),
        if q.loptVa = 0 then .pass else b.chkVa 0 q.loptVa.toNat (2 * im.layers.length)] = .pass ∧
     firstFail (b.tileChks 0 3 q im tiles lopt) = .pass ∧ b.modelBad 0 = false ∧ b.place 3 = {} ∧ q.tileCount ≠ 0 ∧ b.mem.poison = [] ∧
     b.sec.zeroing = false ∧ b.sec.retiring = [] ∧ (b.place 3).removing = false) ∧
    (let s := upTile.setPlace 1 { present := true, stats := 0x2000, cfg := { model := 0, tiles := [300] } }
     let b := s.served (hdr 0 48) (.place (placeP 1 0 0))
     s.takesC (hdr 0 48) (.place (placeP 1 0 0)) ∧ firstFail (b.placeChks (hdr 0 48) (placeP 1 0 0)) = .pass ∧ (b.place 1).step = none ∧
     (b.place 1).stats ≠ 0) := by
  unfold State.takesC State.takesPacket; decide +kernel

theorem test_modelLoad : leads (.modelLoad (hdr 0 32) (loadP 3) []) upS (fun t => (t.model 3).st == .loading && t.longOps.length == 1) = true := by decide +kernel
theorem test_modelSwap : leads (.modelSwap (hdr 0 32) (loadP 0 0) []) upS (fun t => (t.model 0).st == .swapping) = true := by decide +kernel
theorem test_modelUnload_used : leads (.modelUnload (hdr 0 8) 0 0 0) upS (fun t => (t.model 0).st == .loaded) = true := by decide +kernel
theorem test_place : leads (.place (hdr 0 48) (placeP 3 0 1)) upTile (fun t => (t.place 3).present && (t.place 3).cfg.tiles == [0]) = true := by decide +kernel

/-- A key blob with counter 9 for a partition number, at the start of the mapped page. -/
def blob (p : Nat) : List Byte :=
  leBytes 4 0x08325EC1 ++ leBytes 4 p ++ leBytes 8 9 ++ List.replicate 272 0
def upKey (p : Nat) : State :=
  put { upMmu with mem := upMmu.mem.write (some 0) 0x40400000 (blob p), pcie := { vfEnable := true, numVfs := 63 } }
    [(Reg.SEC_PART 1, Fld.SEC_PART_EXISTS, 1), (Reg.SEC_STAT, Fld.SEC_STAT_CO_SESSION, 1)]

/-- KeysAreLoadedRetiredAndZeroized. -/
theorem wit_keyLoad :
    (let h := hdr 0 24
     let b := (upKey 1).served h (.keyLoad 1 0 0 288 0 true false)
     (∀ sig ∈ [true, false], (upKey 1).takesC h (.keyLoad 1 0 0 288 0 sig false)) ∧ b.partExists 1 = true ∧ b.rdVa 0 0 288 = .inl (blob 1) ∧
     b.sec.blockTil ≤ b.now ∧ b.secError = false ∧ blobOk (blob 1) 1 = true ∧ b.flash.coCtr < numAt (blob 1) 8 8 ∧ b.holds 1 = false ∧
     ¬(9 : Nat) < numAt (blob 1) 8 8 ∧ b.sec.failRun < 15) ∧
    (let h := hdr 0 24
     let b := (upKey 255).served h (.keyLoad 0xFF 0 0 288 0 true false)
     (upKey 255).takesC h (.keyLoad 0xFF 0 0 288 0 true false) ∧ b.rdVa 0 0 288 = .inl (blob 255) ∧ b.sec.blockTil ≤ b.now ∧ b.secError = false ∧
     blobOk (blob 255) 0xFF = true ∧ b.flash.coCtr < numAt (blob 255) 8 8) := by
  unfold State.takesC State.takesPacket; decide +kernel

theorem wit_keyRetire :
    (let b := (upKey 1).served (hdr 0 8) (.keyRetire 1 0)
     (∀ p ∈ [(0 : BitVec 8), 1], (upKey 1).takesC (hdr 0 8) (.keyRetire p 0) ∧ b.partExists p.toNat = true ∧ b.placesOf p.toNat = []) ∧
     b.flag Reg.SEC_STAT Fld.SEC_STAT_CO_SESSION = true ∧ b.secError = false ∧ b.sec.zeroing = false ∧ b.sec.retiring = []) ∧
    (let s := upMake.setPlace 0 {}
     let b := s.served (hdr 0 8) (.keyRetire 0 0)
     s.takesC (hdr 0 8) (.keyRetire 0 0) ∧ b.flag Reg.SEC_STAT Fld.SEC_STAT_CO_SESSION = true ∧ b.secError = false ∧ b.placesOf 0 ≠ [] ∧
     (∀ l ∈ b.placesOf 0, (b.place l).step.isSome = true)) ∧
    (up.takesC (hdr 0 8) (.zeroize 0) ∧ (up.served (hdr 0 8) (.zeroize 0)).sec.zeroing = false ∧
      ¬(up.served (hdr 0 8) (.zeroize 0)).longFull (hdr 0 8)) := by
  unfold State.takesC State.takesPacket State.longFull; decide +kernel

theorem test_keyLoad : leads (.keyLoad (hdr 0 24) 1 0 0 288 0 true false) (upKey 1)
    (fun t => t.fld (Reg.SEC_PART 1) Fld.SEC_PART_KEY_SRC == 1 && t.flash.coCtr == 9) = true := by decide +kernel
theorem test_openSession : leads (.openSession (hdr 0 24) 0 0 288 0 true) (upKey 255) (fun t => t.sec.sessEnd == some (t.coTimeout * 1000000000)) = true := by
  decide +kernel
theorem test_zeroize : leads (.zeroize (hdr 0 8) 0) up (fun t => t.sec.zeroing && t.fld Reg.SEC_STAT Fld.SEC_STAT_ZERO_PHASE == 1) = true := by decide +kernel

/-- TheBoundaryFailsAndOpensByRule: every cause; a session at its end and one ns before. -/
theorem wit_boundary :
    (let s : State := { up with sec := { sessEnd := some 5 } }
     s.sec.sessEnd = some 5 ∧ 5 ≤ max s.now 5 ∧ max s.now 4 < 5) ∧
    up.sec.zeroing = false ∧ up.present = [] ∧ up.longOps = [] := by decide +kernel

theorem test_selfTestFailure : leads (.selfTestFailure 3) up (fun t => t.fld Reg.SEC_STAT Fld.SEC_STAT_ERR_CAUSE == 3) = true := by decide +kernel
theorem test_coSessionTimeout : leads (.coSessionTimeout 5) { up with sec := { sessEnd := some 5 } } (fun t => t.sec.sessEnd == none) = true := by decide +kernel
theorem test_debugUnlock_refused : leads (.debugUnlock false) up
    (fun t => t.fld Reg.SEC_CNT Fld.SEC_CNT_AUTH_FAIL == 1 && !t.flag Reg.SEC_STAT Fld.SEC_STAT_DEBUG_OPEN) = true := by decide +kernel

/-! ## Witnesses: queries, long operations and the data path -/

/-- QueriesWriteWhatTheyAreAskedFor. -/
theorem wit_queries :
    (let h := hdr 0 24
     let b := upTile.served h (.calQuery 1 0 0 0 0 64 0)
     upTile.takesC h (.calQuery 1 0 0 0 0 64 0) ∧ whatOk 1 0 = true ∧ (b.tileOwners 0).contains 0 = true ∧ (b.physOf 0).isSome = true ∧
     (∃ u, b.wrVa 0 0 ((b.calRecord 1 0).take 64) = .inl u)) ∧
    (let h := hdr 0 16
     let b := upTile.served h (.linkQuery 23 0 0)
     upTile.takesC h (.linkQuery 23 0 0) ∧
     (∃ u, b.wrVa 0 0 (([Reg.LNK_PORT_CFG 23, Reg.LNK_PORT_STAT 23, Reg.LNK_PORT_CNT 23] ++
       (List.range 17).map (laneReg 23)).flatMap fun r => leBytes 8 (b.reg r).toNat) = .inl u) ∧
     (∀ k ∈ [(0 : BitVec 8), 1, 2], upTile.takesC h (.logRead k 0 0 5 0)) ∧
     (∃ u, b.wrVa 0 0 (b.faultLog.header ++ ((b.faultLog.entries.drop 0).take 5).flatMap FEntry.bytes) = .inl u)) := by
  refine ⟨⟨by unfold State.takesC State.takesPacket; decide +kernel, by decide +kernel, by decide +kernel, by decide +kernel,
    inlWit (by decide +kernel)⟩, by unfold State.takesC State.takesPacket; decide +kernel, inlWit (by decide +kernel),
    by unfold State.takesC State.takesPacket; decide +kernel, inlWit (by decide +kernel)⟩

theorem test_linkQuery : leads (.linkQuery (hdr 0 16) 23 0 0) upTile (fun t => ((t.pair 0 0).out.map fun o => o.bytes.length) == [32] && t.rdMem 0 0x40400000 8 == leBytes 8 (upTile.reg (Reg.LNK_PORT_CFG 23)).toNat) = true := by
  decide +kernel
theorem test_logRead : leads (.logRead (hdr 0 16) 1 0 0 5 0) { upTile with globalLog := [⟨9, 0x18, 3, 0, false, false⟩] }
    (fun t => t.rdMem 0 0x40400000 1 == [9] && (t.pair 0 0).out.length == 1) = true := by decide +kernel

/-- RunsAndFirmwarePacketsBegin. -/
theorem wit_calRun :
    (let b := up.served (hdr 0 8) (.calRun 0 0 5 0)
     up.takesC (hdr 0 8) (.calRun 0 0 5 0) ∧ scopeOk 0 5 = true ∧ ¬b.longFull (hdr 0 8)) := by
  unfold State.takesC State.takesPacket State.longFull; decide +kernel
theorem wit_testRun :
    (let b := up.served (hdr 0 8) (.testRun 1023 1 0)
     up.takesC (hdr 0 8) (.testRun 1023 1 0) ∧ b.fw.testLeft = none ∧ (b.physOf 1023).isSome = true ∧ up.takesC (hdr 0 8) (.testRun 0xFFFF 0 0) ∧
     ((List.range 1024).filter fun k => (b.physOf k).isSome).isEmpty = false) := by
  unfold State.takesC State.takesPacket; decide +kernel
theorem wit_fwStage :
    up.takesC (hdr 0 24) (.fwStage 0 4096 0 0 []) ∧ up.takesC (hdr 0 24) (.fwStage 0x17FF000 4096 0 0 []) ∧
    ((up.served (hdr 0 24) (.fwStage 0 4096 0 0 [])).fw.act = none ∧ (up.served (hdr 0 24) (.fwStage 0 4096 0 0 [])).fw.staging = false) := by
  unfold State.takesC State.takesPacket; decide +kernel
theorem wit_fwStage_bounds : (0x17FF000 : BitVec 32).toNat % 4096 = 0 ∧ (4096 : BitVec 32).toNat ≤ 4 * 2 ^ 20 ∧
    (0x17FF000 : BitVec 32).toNat + (4096 : BitVec 32).toNat ≤ 24 * 2 ^ 20 := by decide
theorem wit_fwActivate :
    (let b := up.served (hdr 0 8) (.fwActivate 1 0 true)
     up.takesC (hdr 0 8) (.fwActivate 1 0 true) ∧ (1 : Nat) ≠ b.fld Reg.FWP_BOOT Fld.FWP_BOOT_ACTIVE_BANK ∧ b.secError = false ∧ b.critical = false ∧
     b.fw.act = none ∧ b.fw.staging = false) := by
  unfold State.takesC State.takesPacket; decide +kernel

theorem wit_calScope : ∃ x ∈ (((up.served (hdr 0 8) (.calRun 0 0 5 0)).calScope 0 5).filter fun o => match o with
      | .lane i => (up.served (hdr 0 8) (.calRun 0 0 5 0)).portSt (i / 17) == 2 || (up.served (hdr 0 8) (.calRun 0 0 5 0)).inRun o
      | _ => true), (up.served (hdr 0 8) (.calRun 0 0 5 0)).inRun x = false := anyWit (by decide +kernel)

theorem wit_longFull : ({ up with longOps := List.replicate 4 { id := 0, h := hdr 0 8, pkt := .zeroize 0 } } : State).longFull (hdr 0 8) := by
  unfold State.longFull; decide +kernel

theorem test_calRun : leads (.calRun (hdr 0 8) 0 0 5 0) up (fun t => t.longOps.length == 1) = true := by decide +kernel
theorem test_testRun : leads (.testRun (hdr 0 8) 5 1 0) up (fun t => t.testSt 5 != 0) = true := by decide +kernel
theorem test_fwStage : leads (.fwStage (hdr 0 24) 0 4096 0 0 []) up (fun t => t.fw.staging) = true := by decide +kernel
theorem test_fwActivate : leads (.fwActivate (hdr 0 8) 1 0 true) up (fun t => t.fld Reg.FWP_ACT Fld.FWP_ACT_PHASE == 1) = true := by decide +kernel

/-- A module with an ID and coordinates, whose twin port 4 is UP to module 7 on its board. -/
def upTwin : State :=
  put { up with ports := [(4, { farCoord := 7 })] }
    [(Reg.LNK_COORD, Fld.LNK_COORD_VALID, 1), (Reg.LNK_COORD, Fld.LNK_COORD_MODULE_ID, 0), (Reg.LNK_PORT_CFG 4, Fld.LNK_PORT_CFG_ROLE, 3),
     (Reg.LNK_PORT_STAT 4, Fld.LNK_PORT_STAT_STATE, 2),
     (Reg.LNK_PORT_STAT 4, Fld.LNK_PORT_STAT_FAR_ID, 7), (Reg.TWN_JRN, Fld.TWN_JRN_SIZE, 1)]

/-- TwinAndFabricPacketsBegin. -/
theorem wit_twinPair :
    (let h := hdr 0 8
     let b := upTwin.served h (.twinPair 7 0 0)
     upTwin.takesC h (.twinPair 7 0 0) ∧ (7 : Nat) ≠ b.myId ∧ b.twinSt = 0 ∧ b.upPorts 3 ≠ [] ∧
     (b.portsTo 7).any (fun n => b.sameBoard (b.port n).farCoord) = true ∧ b.regionSet = true ∧ b.twin.pairSeen = none ∧ ¬b.longFull h) ∧
    (let s : State := { upTwin with twin := { pairSeen := some (7, true, 0) } }
     s.takesC (hdr 0 8) (.twinPair 7 0 0) ∧ (s.served (hdr 0 8) (.twinPair 7 0 0)).twin.pairSeen = some (7, true, 0) ∧
      (s.served (hdr 0 8) (.twinPair 7 0 0)).now < 0 + 1000000000) := by
  unfold State.takesC State.takesPacket State.longFull; decide +kernel

theorem wit_twinUnpair :
    (upTwin.takesC (hdr 0 8) (.twinUnpair 0 0) ∧ (upTwin.served (hdr 0 8) (.twinUnpair 0 0)).twinSt = 0 ∧
      (upTwin.served (hdr 0 8) (.twinUnpair 0 0)).flag Reg.TWN_STAT Fld.TWN_STAT_TAKEOVER = false) ∧
    (∀ k ∈ [2, 3],
      let s : State := { put upTwin [(Reg.TWN_STAT, Fld.TWN_STAT_STATE, k)] with twin := { sentSeq := 3, acked := 2 } }
      s.takesC (hdr 0 8) (.twinUnpair 1 0) ∧ (let b := s.served (hdr 0 8) (.twinUnpair 1 0)
       b.twinSt = k ∧ b.twin.acked < b.twin.sentSeq)) := by
  unfold State.takesC State.takesPacket; decide +kernel

theorem wit_fabricJoin :
    upTwin.takesC (hdr 0 8) (.fabricJoin 0x800010 0) ∧ (upTwin.served (hdr 0 8) (.fabricJoin 0x800010 0)).flag Reg.LNK_COORD Fld.LNK_COORD_VALID = true ∧
    ((List.range 24).filter fun n => bitOf (0x800010 : BitVec 24).toNat n && (upTwin.served (hdr 0 8) (.fabricJoin 0x800010 0)).portSt n != 2) = [23] ∧
    ((List.range 24).filter fun n => bitOf (0x10 : BitVec 24).toNat n && (upTwin.served (hdr 0 8) (.fabricJoin 0x800010 0)).portSt n != 2) = [] := by
  unfold State.takesC State.takesPacket; decide +kernel

theorem test_twinPair : leads (.twinPair (hdr 0 8) 7 0 0) upTwin (fun t => t.twinSt == 1 && t.peer == 7) = true := by decide +kernel
theorem test_twinPair_self : leads (.twinPair (hdr 0 8) 0 0 0) upTwin (fun t => t.twinSt == 0) = true := by decide +kernel
theorem test_fabricJoin : leads (.fabricJoin (hdr 0 8) 0x800010 0) upTwin (fun t => t.portSt 23 == 1 && t.portSt 4 == 2) = true := by decide +kernel

/-- LongOperationsAdvanceAndTell: a FW_STAGE of 8 KiB behind the first page with one page done or none, one of the whole bank with its blocks
still to erase, and a younger operation of the same processor. -/
def opStage : LongOp := { id := 1, h := { hdr 0 24 with seq := 3 }, pkt := .fwStage 0x1000 8192 0 0 [], done := 4096, total := 8192 }
def opYoung : LongOp := { id := 2, h := { hdr 0 24 with seq := 4 }, pkt := .zeroize 0, total := 3 }
def opWhole : LongOp := { id := 1, h := { hdr 0 24 with seq := 3 }, pkt := .fwStage 0 8192 0 0 [], total := 8192 }
def upLong : State := { up with longOps := [opStage, opYoung], time := 100000000, fw := { staging := true } }

theorem wit_longOps :
    (upLong.tick 0).sliceGranted 0 3 opStage ∧ opStage.total ≤ opStage.done + 4096 ∧ (0x1000 : BitVec 32) ≠ 0 ∧
    (({ upLong with longOps := [{ opStage with done := 0 }, opYoung] } : State).tick 0).sliceGranted 0 3 { opStage with done := 0 } ∧
    (({ upLong with longOps := [opWhole] } : State).tick 0).sliceGranted 0 3 opWhole ∧ opWhole.stage < 384 ∧
    (upLong.longOps.find? fun x => x.h.fn == 0 && x.h.seq.toNat == 3 && decide (x.progAt + 100000000 ≤ upLong.time)) = some opStage ∧
    upLong.pairOn opStage.h.fn opStage.h.ring = true ∧ ({ upLong with time := 99999999 } : State).time < opStage.progAt + 100000000 := by
  unfold State.sliceGranted; decide +kernel

/-- A slice of an operation that is not the oldest is not granted. -/
theorem wit_notGranted : ∀ o, ¬ (upLong.tick 0).sliceGranted 0 4 o := by
  intro o hg
  obtain ⟨-, h, -⟩ := hg
  have e : ((upLong.tick 0).longOps.find? fun x => x.h.fn == 0 && x.h.seq.toNat == 4 && (upLong.tick 0).oldestOp x) = none := by decide +kernel
  rw [e] at h; cases h

theorem test_slice : leads (.longOperationSlice 0 3 4096 0) upLong
    (fun t => t.flash.staged == [(t.inactiveBank, 0x2000, 4096)] && t.longOps == [opYoung]) = true := by decide +kernel
theorem test_slice_erases : leads (.longOperationSlice 0 3 4096 0) { upLong with longOps := [opWhole], flash := { staged := [(1, 0, 8192)] } }
    (fun t => t.flash.staged == [] && (t.longOps.map LongOp.stage) == [1]) = true := by decide +kernel
theorem test_progress : leads (.progress 0 3 0) upLong (fun t => ((t.pair 0 0).out.map fun o => o.bytes.getD 4 0) == [BitVec.ofNat 8 stProgress]) = true := by
  decide +kernel

/-- An image of a LINEAR layer of 2 x 1 XB2 weights, one pinned to DIGITAL, an ATTENTION and a CROSS_ATTENTION layer. -/
def share1 : Share := ⟨0, 2, 0, 1, 0, 0, 0x900, 0xA00⟩
def linear (pin : Nat) : Layer := ⟨1, 1, 3, pin, 0xFF, 0, 0, 0, 2, 1, 0, 0xFFFF, 1, 0x800, 64, 64, 0, 0, 0, [share1]⟩
def attend (kind : Nat) : Layer := ⟨kind, 1, 3, 0, 0xFF, 0, 0, 0, 32, 96, 0, 0, 1, 0x800, 64, 64, 0, 0, 0, [share1]⟩
def imgP : Image :=
  { bytes := 4096, tiles := 1, vocab := 1000, layers := [linear 0, linear 4, attend 2, attend 3], atts := [⟨32, 1, 0, 32, 5, 1, 0x3F800000, 0, [127]⟩] }
def stP : Step := { step0 [slot0 6] with escSat := 1, relaySent := true, regs := upS.cairnVals 0 }
/-- Placement 1 in slot 3 of tile 0 with a step of context 6. -/
def upP : State :=
  { upS with models := [(0, { st := .loaded, img := imgP })],
             places := [(1, { present := true, stats := 0x2000, cfg := { model := 0, tiles := [0] }, pslot := [(0, 3)], step := some stP })] }
def passP (layer : Nat) : Pass := { pslot := 3, place := 1, model := 0, layer := layer, share := 0, acts := [[0x3F80, 0x4000]], fmt := if layer = 0 then 4 else 0 }
def passRead : Pass := { passP 0 with codes := [[1, 2]], scales := [[127]], doneCh := [0], elems := 2 }
def arrP : Arr := { valid := true, pslot := 3, layer := 0 }

/-- StepsAreBuiltSampledAndRetired: a placement that may not step, one that may with and without work, a stalled one. -/
theorem wit_build :
    (∀ l ∈ [0, 1], ((upS.tick 1000).place l).cfg.sliced = false ∧ ((upS.tick 1000).waitingOf l).isEmpty = true) ∧ (upS.tick 1000).mayStep 1 = false ∧
    (let c := (upS.tick 1000).setPlace 0 { (upS.tick 1000).place 0 with stalled := false }
     c.mayStep 0 = true ∧ c.mem.poison = [] ∧ (c.place 0).stalled = false ∧ ((c.decideHold 0).select 0 ((c.decideHold 0).bulkHold 0)).slots ≠ []) ∧
    (let c := (upS.tick 0).setPlace 0 { (upS.tick 0).place 0 with stalled := false }
     c.mayStep 0 = true ∧ ((c.decideHold 0).select 0 ((c.decideHold 0).bulkHold 0)).slots = []) ∧
    (let s := ((upS.setPair 0 1 { out := [{ bytes := [], isReply := false, place := some 0 }] }).setPlace 0 { upS.place 0 with stalled := true }).tick 0
     (s.waitingOf 0).isEmpty = false ∧ s.mayStep 0 = true ∧ (s.place 0).stalled = true) := by decide +kernel

/-- A sampling profile: greedy, TEMP 1, TOP_P 1, RP 1, no stop token. -/
def profile0 : List Byte := [0, 0, 0, 0] ++ leBytes 4 0x3F800000 ++ leBytes 4 0x3F800000 ++ leBytes 4 0x3F800000 ++ [0, 0, 0, 0] ++ leBytes 4 0x80000000 ++
  List.replicate 40 0

theorem wit_sample :
    (let x : Slot := { slot0 6 with prof := profile0 }
     let s := upS.setPlace 1 { upS.place 1 with step := some (step0 [x]) }
     (s.place 1).step = some (step0 [x]) ∧ ((step0 [x]).slots.find? fun y => y.ctx == 6) = some x ∧ x.emits = true ∧ x.done = false ∧
     (profOf x.prof).ok = true ∧ s.maskBits (s.ctx 6).part (profOf x.prof) (s.imgOf (s.ctx 6)).vocab = .inl none) ∧
    (profOf (slot0 6).prof).ok = false := by decide +kernel

theorem wit_retire :
    (let x : Slot := { slot0 6 with done := true, tokens := [9] }
     let st : Step := { step0 [x] with relaySent := true }
     let s := (upS.setPlace 1 { upS.place 1 with step := some st }).setCtx 6 { ctx0 1 .active with pair := 1 }
     (s.place 1).step = some st ∧ (s.place 1).present = true ∧ (s.place 1).removing = false ∧ (s.place 1).change = none ∧ s.twinSt ≠ 2 ∧
     st.relayOut = 0 ∧ s.buffered (s.place 1).home + st.outs ≤ 16384 ∧ x.kind = .decode ∧ x.discard = none ∧ x.accepted = [] ∧
     (s.ctx 6).st = .active ∧ (s.ctx 6).held = [] ∧ (s.ctx 6).deadline = 0 ∧ (s.auxOf 6).redo = [] ∧ (s.ctx 6).pair < 32 ∧ s.pairOn 0 1 = true) := by
  decide +kernel

theorem wit_stall :
    (let s := upS.setPair 0 1 { out := [{ bytes := [], isReply := false, place := some 0 }] }
     (∃ o ∈ (s.tick 100001).waitingOf 0, o.since + 100000 < (s.tick 100001).now) ∧
     (∀ o ∈ (s.tick 100000).waitingOf 0, (s.tick 100000).now ≤ o.since + 100000)) := by decide +kernel

theorem test_stepBuild : leads (.stepBuild 0 1000) upS (fun t => (t.place 0).step.isSome) = true := by decide +kernel
theorem test_sample_badProfile : leads (.sample 1 6 []) upS (fun t => t.fld (Reg.SMP_QCNT 1) Fld.SMP_QCNT_BAD_PROF == 1) = true := by decide +kernel

/-- PassesRunOnTheArrays: a pass of the LINEAR layer, one pinned to DIGITAL, one of a tile on its way out, one before its tile's offset, and a
share that stands in an unmapped page. -/
theorem wit_passIssue :
    upP.physOf 0 = some 0 ∧ upP.placeIn 0 3 = some 1 ∧ (upP.place 1).step = some stP ∧ (upP.tile 0).pass = none ∧ stP.startsOn upP.now 0 = true ∧
    (∀ v ∈ [[(0x3F80 : BF16), 0x4000]], v.length = share1.kCount) ∧ (∀ k ∈ [0, 1], (linear (4 * k)).kind ≠ 4 ∧ 0 < max 1 (linear (4 * k)).nExp ∧
      upP.shareOf 1 0 k = some (upP.model 0, linear (4 * k), share1, 0) ∧ upP.copyOf 0 1 k 0 0 = none ∧
      upP.badShare 1 0 (upP.model 0) (linear (4 * k)) share1 = none) ∧
    (upP.tile 0).retiring = none ∧ startFormat (linear 4) 0 = 0 ∧ startFormat (linear 0) 0 ≠ 0 ∧
    (upP.setTile 0 { retiring := some 1 }).physOf 0 = some 0 ∧ ((upP.setTile 0 { retiring := some 1 }).tile 0).retiring.isSome = true ∧
    (let s := upP.setPlace 1 { upP.place 1 with cfg := { model := 0, tiles := [1] }, pslot := [(1, 3)] }
     s.placeIn 1 3 = some 1 ∧ s.shareOf 1 1 0 = some (s.model 0, linear 0, share1, 0) ∧ stP.startsOn s.now 1 = false) := by decide +kernel

/-- The copy of the share is read for the first pass, or it faults. -/
theorem wit_share :
    (∃ cp b, upP.sramCopy b 0 1 0 0 0 (upP.model 0) (linear 0) share1 cp) ∧
    (let s := upP.setModel 0 { upP.model 0 with dest := 0x200000 }
     s.copyOf 0 1 0 0 0 = none ∧ s.badShare 1 0 (s.model 0) (linear 0) share1 = none ∧
     ∃ va, s.readShare 1 0 0 0 (s.model 0) (linear 0) share1 = .inr va) := by
  refine ⟨?_, by decide +kernel, by decide +kernel, inrWit (by decide +kernel)⟩
  obtain ⟨c, hc⟩ := inlWit (x := upP.readShare 1 0 0 0 (upP.model 0) (linear 0) share1) (by decide +kernel)
  exact ⟨c, _, .inr ⟨by decide +kernel, by decide +kernel, hc, rfl⟩⟩

theorem wit_arrayCycle :
    (let s := (upP.setTile 0 { pass := some { passP 0 with codes := [[1, 2]], scales := [[127]] } }).setPhy 0 { arrays := [(0, arrP)] }
     let x : Pass := { passP 0 with codes := [[1, 2]], scales := [[127]] }
     let v := s.passEnv 0 0 x stP (linear 0) share1
     s.physOf 0 = some 0 ∧ (s.tile 0).pass = some x ∧ x.fmt ≠ 0 ∧ x.doneCh.length < share1.chunks ∧ s.shareOf 1 0 0 = some (s.model 0, linear 0, share1, 0) ∧
     (s.pruneRound v x).round = [] ∧
     (let r := s.roundFor 0 0 x v.gen v.chunks v.D v.profile
      r.2.round ≠ [] ∧ r.2.g = 0 ∧ r.2.twoCycles v = true ∧ ({ r.2 with g := 1 } : Pass).g ≠ 0) ∧
     ((s.setPhy 0 {}).roundFor 0 0 x v.gen v.chunks v.D v.profile).2.round = []) := by decide +kernel

/-- A layer whose columns are split in two K-parts. -/
def split2 : Layer := { linear 0 with split := 2 }

theorem wit_passEnd :
    (let s := upP.setTile 0 { pass := some passRead }
     (s.tile 0).pass = some passRead ∧ (s.place passRead.place).step = some stP ∧ s.shareOf 1 0 0 = some (s.model 0, linear 0, share1, 0) ∧
     share1.chunks ≤ passRead.doneCh.length ∧ (linear 0).split = 1 ∧ passRead.repeated = false ∧ passRead.mism = [] ∧ passRead.resBad = false ∧
     passRead.fmt ≠ 0 ∧ passRead.climbs stP 0 = false ∧ ({ passRead with sat := 2 } : Pass).climbs stP 0 = true ∧ ({ passRead with sat := 2 } : Pass).fmt ≠ 8 ∧
     ({ passRead with sat := 2 } : Pass).rung ≠ 2 ∧ ({ passRead with sat := 2, rung := 2 } : Pass).climbs stP 0 = true ∧
     ({ passRead with mism := [0] } : Pass).mism ≠ []) ∧
    (split2.split ≠ 1 ∧ kPartOf split2 share1 = 0 ∧ upP.kReady passRead 1 split2 share1 = false ∧
      kPartOf split2 { share1 with kFirst := 32 } = 0) := by decide +kernel

theorem wit_arrayWrite :
    (∃ w, upP.writeOf 0 3 0 = some w ∧ (w.l = 1 ∧ w.sh = share1 ∧ w.gen = 0) ∧ 0 < weightDigits (fmtBits w.y.wfmt) ∧ w.sh.chunks ≠ 0 ∧
      0 < w.sh.chunks * max 1 w.y.nExp ∧ upP.demandWrite 0 0 3 0 0 w = false ∧
      upP.writeMay 0 (tget {} (upP.phy 0).arrays 511) w false (upP.soleCopy 0 511 3 0 0 0 false 0) = true ∧
      (let s := upP.setTile 0 { pass := some { passP 0 with codes := [[1, 2]], scales := [[127]], waited := true } }
       s.demandWrite 0 0 3 0 0 w = true ∧
       s.writeMay 0 (tget {} (s.phy 0).arrays 511) w true (s.soleCopy 0 511 3 0 0 0 false 0) = true)) ∧
    upP.physOf 0 = some 0 ∧ upP.demanded 0 0 = [] ∧ (tget {} (upP.phy 0).arrays 511).stuck = [] ∧ (tget {} (upP.phy 0).arrays 511).retCols = [] ∧
    (let bare := tins 511 { tget {} (upP.phy 0).arrays 511 with valid := false } (upP.phy 0).arrays
     retiredIn bare (setArrays bare 3 0 0 0 (freeCopy bare 3 0 0 0 0 false)) = []) ∧ upP.flag Reg.MDT_CFG Fld.MDT_CFG_DRIFT_OFF = false :=
  ⟨someWit (by decide +kernel), by decide +kernel⟩

theorem test_passIssue : leads (.passIssue 0 3 1 0 [[0x3F80, 0x4000]]) upP
    (fun t => ((t.tile 0).pass.map Pass.fmt) == some 0 && t.fld (Reg.MDT_TILE_CHK 0) Fld.MDT_TILE_CHK_DIG_PIN == 1) = true := by decide +kernel
theorem test_arrayCycle_waits : leads (.arrayCycle 0) (upP.setTile 0 { pass := some (passP 0) })
    (fun t => t.fld (Reg.CAB_TILE_CNT 0) Fld.CAB_TILE_CNT_GEN_WAIT == 1) = true := by decide +kernel
theorem test_passEnd_climbs : leads (.tileLayerPassEnd 0 false [] []) (upP.setTile 0 { pass := some { passRead with sat := 2 } })
    (fun t => ((t.tile 0).pass.map Pass.fmt) == some 6 && t.fld (Reg.MDT_TILE_ESC 0) Fld.MDT_TILE_ESC_TO_XB6 == 1) = true := by decide +kernel
theorem test_passEnd_repeats : leads (.tileLayerPassEnd 0 true [] []) (upP.setTile 0 { pass := some passRead })
    (fun t => ((t.tile 0).pass.map Pass.repeated) == some true) = true := by decide +kernel

/-- AttentionRunsBySegments: a first score, a cross-attention layer with no entries, a mix of a scored segment, and a finished group. -/
def rowQ : QueryRow := ⟨5, none, 0, List.replicate 32 0x3F80⟩
/-- A group with one row, scored over its only segment. -/
def attnP : Attn :=
  { pslot := 3, place := 1, ctx := 6, layer := 2, head := 0, rows := [{ pos := 5, node := none, head := 0, codes := List.replicate 32 1, eq := 127 }],
    scored := [(0, 0, List.replicate 6 (some 0))] }
def upAttn (a : Attn) : State := upP.setTile 0 { attns := [a] }
theorem wit_score :
    (∃ v c keys, upP.attnEnv 0 3 6 2 0 = some v ∧
      (rowQ.q.length = v.att.dh ∧ v.keys ≠ 0 ∧ ({ attnP with rows := [] } : Attn).rowSet v 0 [rowQ] = some 0 ∧ 0 < v.segs ∧
        (upP.attnAt v 2).isNone = true ∧ (∀ j ∈ v.setRows 0, ({ attnP with rows := [], scored := [] } : Attn).hasScore j 0 = false) ∧
        upP.sliceGrants 0 3 (some (3, 6, 2, 0, 0)) = true ∧
        ((([rowQ].map (newRow v.att.dh)).map Prod.fst)[0]?.any fun r => v.needs r 0) = true ∧ 0 ∈ v.setRows 0 ∧ upP.inFallback v = false) ∧
      (upP.bumpBy (Reg.IND_TILE_CNT 0) Fld.IND_TILE_CNT_QKV_CLIP (([rowQ].map (newRow v.att.dh)).map Prod.snd).sum).sbSegment v 0 0 = (c, .inl keys)) ∧
    (∃ v, upP.attnEnv 0 3 6 3 0 = some v ∧ v.keys = 0 ∧ rowQ.q.length = v.att.dh) := by
  constructor
  · obtain ⟨v, hv, h1, h2⟩ := someWit (x := upP.attnEnv 0 3 6 2 0)
      (P := fun v => (rowQ.q.length = v.att.dh ∧ v.keys ≠ 0 ∧ ({ attnP with rows := [] } : Attn).rowSet v 0 [rowQ] = some 0 ∧ 0 < v.segs ∧
        (upP.attnAt v 2).isNone = true ∧ (∀ j ∈ v.setRows 0, ({ attnP with rows := [], scored := [] } : Attn).hasScore j 0 = false) ∧
        upP.sliceGrants 0 3 (some (3, 6, 2, 0, 0)) = true ∧
        ((([rowQ].map (newRow v.att.dh)).map Prod.fst)[0]?.any fun r => v.needs r 0) = true ∧ 0 ∈ v.setRows 0 ∧ upP.inFallback v = false) ∧
        ((upP.bumpBy (Reg.IND_TILE_CNT 0) Fld.IND_TILE_CNT_QKV_CLIP (([rowQ].map (newRow v.att.dh)).map Prod.snd).sum).sbSegment v 0 0).2.isLeft = true)
      (by decide +kernel)
    obtain ⟨keys, hk⟩ := inlWit h2
    exact ⟨v, _, keys, hv, h1, by rw [← hk]⟩
  · exact someWit (by decide +kernel)

theorem wit_mix :
    ∃ v c vals, (upAttn attnP).attnEnv 0 3 6 2 0 = some v ∧ ((upAttn attnP).attnAt v 2 = some attnP ∧ attnP.mixed = 0 ∧ 0 < v.segs ∧
      attnP.scoredAll v 0 = true ∧ v.segs ≤ 0 + 1 ∧ (upAttn attnP).sliceGrants 0 3 none = true) ∧ (upAttn attnP).sbSegment v 1 0 = (c, .inl vals) := by
  obtain ⟨v, hv, h1, h2⟩ := someWit (x := (upAttn attnP).attnEnv 0 3 6 2 0)
    (P := fun v => ((upAttn attnP).attnAt v 2 = some attnP ∧ attnP.mixed = 0 ∧ 0 < v.segs ∧ attnP.scoredAll v 0 = true ∧ v.segs ≤ 0 + 1 ∧
      (upAttn attnP).sliceGrants 0 3 none = true) ∧ ((upAttn attnP).sbSegment v 1 0).2.isLeft = true) (by decide +kernel)
  obtain ⟨vals, hk⟩ := inlWit h2
  exact ⟨v, _, vals, hv, h1, by rw [← hk]⟩

/-- The group with its segment mixed and its row's last optical pass just over. -/
def attnDone : Attn := { attnP with mixed := 1, scored := [], rows := attnP.rows.map fun r => { r with optAt := some 0 } }

theorem wit_forward :
    (∃ v, (upAttn attnP).attnEnv 0 3 6 2 0 = some v ∧ attnP.mixed < v.segs) ∧
    (∃ v, (upAttn attnDone).attnEnv 0 3 6 2 0 = some v ∧ (upAttn attnDone).attnAt v 2 = some attnDone ∧ v.segs ≤ attnDone.mixed ∧
      (∃ r ∈ attnDone.rows, r.holds v.step (upAttn attnDone).now = true) ∧ ∀ r ∈ attnDone.rows, r.holds v.step ((upAttn attnDone).tick 100000).now = false) := by
  exact ⟨someWit (by decide +kernel), someWit (by decide +kernel)⟩

theorem test_scorePass_cross : leads (.scorePass 0 3 6 3 0 0 [rowQ]) upP (fun t => (t.tile 0).attnOut == [(0, List.replicate 32 0)]) = true := by decide +kernel
theorem test_headLayerForward : leads (.headLayerForward 0 3 6 2 0 100000) (upAttn attnDone)
    (fun t => (t.tile 0).attns == [] && (t.tile 0).attnOut.length == 1) = true := by decide +kernel

/-! ## Witnesses: what waits to be written, cairns, swaps and scrubs -/

def entry0 : Out := { bytes := List.replicate 32 1, isReply := true, irq := true }
/-- Ring pair 0, 1 with an entry that waits and its completion ring full or not. -/
def upOut (full : Bool) : State :=
  put { upS.setPair 0 1 { out := [{ entry0 with waited := full }] } with pcie := { msixOn := [0], unmasked := [1] } } [(Reg.SCH_RING_IDX 0 1, Fld.SCH_RING_IDX_CQ_TAIL, if full then 64 else 63)]

/-- WaitingEntriesAreWritten: a ring with one entry of room and one with none, a FENCE at 1 s and before, frames for a ring. -/
theorem wit_waiting :
    ((upOut false).pair 0 1).out = [entry0] ∧ entry0.bytes.length / 32 = 1 ∧ 1 ≤ (upOut false).cqRoom 0 1 ∧ (upOut true).cqRoom 0 1 < 1 ∧
    (upOut false).decodes 0 = true ∧ (upOut false).pcie.msix = [] ∧ (upOut false).pcie.msixOn.contains 0 = true ∧ (upOut false).masked 0 1 = false ∧
    ({ upOut false with pcie := { msixOn := [0] } } : State).masked 0 1 = true ∧ upS.pcie.msixOn.contains 0 = false ∧
    (let b := (upOut true).tick 1000000
     (b.pair 0 1).out = [{ entry0 with waited := true }] ∧ b.cqRoom 0 1 < 1 ∧ entry0.since + 1000000 ≤ b.now) ∧
    (let s := upS.setPair 0 1 { fence := some (hdr 1 8, 0, []) }
     (s.pair 0 1).fence = some (hdr 1 8, 0, []) ∧ 0 + 1000000000 ≤ (s.tick 1000000000).now ∧ (s.tick 999999999).now < 0 + 1000000000) ∧
    (let s := put (upS.setPart 0 { returns := [(0x40404000, 1), (0x40405000, 2)] })
      [(Reg.KVT_FREE_RING 0, Fld.KVT_FREE_RING_LOG2SIZE, 6), (Reg.KVT_FREE_RING 0, Fld.KVT_FREE_RING_BASE, 0x40600)]
     min (s.freeRoom 0) (s.part 0).returns.length = 2 ∧
     (∀ k, k < 2 → s.admits 0 (s.fld (Reg.KVT_FREE_RING 0) Fld.KVT_FREE_RING_BASE * 4096 +
       (s.fld (Reg.KVT_FREE_IDX 0) Fld.KVT_FREE_IDX_TAIL + k) % 2 ^ s.fld (Reg.KVT_FREE_RING 0) Fld.KVT_FREE_RING_LOG2SIZE * 8) 8 = true)) ∧
    (let s := upS.setAux 8 { park := some { extent := 0, bytes := 4096 } }
     let x : Part := { s.part 0 with returns := [], retWaits := [⟨8, [3]⟩] }
     min (s.freeRoom 0) x.returns.length = 0 ∧ (∀ w ∈ x.retWaits, w.ctx = 8 ∧ w.frames = [3]) ∧ (s.auxOf 8).park.isSome = true ∧
     (s.ctx 8).st = .paused) ∧
    (let s := (put upS [(Reg.SCH_CTX_TBL, Fld.SCH_CTX_TBL_BASE, 1)]).setAux 2 { lru := 1, dirty := true }
     (s.sysRegion).2 ≠ 0 ∧ 2 ∈ s.cached 0 ∧ (s.auxOf 2).dirty = true) := by decide +kernel

theorem wit_noFence : ∀ r, ((upOut false).pair 0 r).fence = none := by
  intro r
  have h : (upOut false).pairs = [(1, { out := [entry0] })] := by decide +kernel
  simp only [State.pair, h, tget, pairKey]
  split <;> rfl

theorem test_completionWrite : leads (.completionWrite 0 1 0) (upOut false)
    (fun t => (t.pair 0 1).out == [] && t.fld (Reg.SCH_RING_IDX 0 1) Fld.SCH_RING_IDX_CQ_TAIL == 64 && t.pcie.msix == [(0, 1, 0)]) = true := by decide +kernel
theorem test_completionWrite_full : leads (.completionWrite 0 1 0) (upOut true)
    (fun t => (t.pair 0 1).out.length == 1 && t.fld (Reg.SCH_RING_STAT 0 1) Fld.SCH_RING_STAT_CQ_FULL == 0) = true := by decide +kernel
theorem test_fullRingReminder : leads (.fullRingReminder 0 1 1000000) (upOut true) (fun t => t.pcie.msix == [(0, 1, 1000000)]) = true := by decide +kernel
theorem test_completionWrite_masked : leads (.completionWrite 0 1 0) { upOut false with pcie := { msixOn := [0] } }
    (fun t => (t.pair 0 1).out == [] && t.pcie.msix == [] && t.pcie.pendingBits == [1]) = true := by decide +kernel
theorem test_fenceTimeout : leads (.fenceTimeout 0 1 1000000000) (upS.setPair 0 1 { fence := some (hdr 1 8, 0, []) }) (fun t => (t.pair 0 1).fence.isNone) = true := by
  decide +kernel

/-- ContextsArePaged: context 8 parking, 7 with its frames and a resume behind it, and a scan in a new period. -/
def upPage : State :=
  (upS.setAux 8 { park := some { extent := 0, bytes := 4096 } }).setAux 7
    { restore := some { extent := 0, bytes := 4096, ready := true, thenOp := some (.resume none none 1) } }
theorem wit_paged :
    ((upPage.tick 0).auxOf 8).park = some { extent := 0, bytes := 4096 } ∧ (upPage.ctx 8).st = .paused ∧ upPage.freeRoom 0 = 0 ∧
    (upPage.auxOf 7).restore = some { extent := 0, bytes := 4096, ready := true, thenOp := some (.resume none none 1) } ∧ (upPage.ctx 7).st = .parked ∧
    (upPage.ctx 7).held = [] ∧ upPage.sched.scanAt ≠ upPage.time / 10000000 + 1 ∧
    ({ upPage with sched := { scanAt := 1 } } : State).sched.scanAt = upPage.time / 10000000 + 1 ∧ 3 ∈ tkeys upPage.ctxs ∧ (upPage.ctx 3).st = .parked ∧
    (upPage.auxOf 3).restore = none ∧
    (upPage.ctx 3).timestamp + (upPage.asOf 0).fld (Reg.KVT_SCREE_CFG 0) Fld.KVT_SCREE_CFG_TTL * 1000000000 ≤ (upPage.tick 10000000000000).time ∧
    (upPage.ctx 2).st = .paused ∧ upPage.inStep 2 = false := by decide +kernel

/-- A park whose frames the full free ring cannot take, and one that has waited for them. -/
theorem wit_parkWaits :
    (upPage.parkFreed 8 = false ∧ (({ upPage with parts := [(0, { upPage.part 0 with retWaits := [⟨8, [3]⟩] })] } : State).tick 0).parkFreed 8 = true) ∧
    (let s := (upPage.setModel 0 { st := .loaded, img := imgAtt }).setCtx 8 { ctx0 0 .paused with kvBase := 0 }
     ((s.asOf 0).framesOf (s.ctx 8)).map Prod.snd ≠ [] ∧ (s.freeFrames (s.ctx 8) 2).retLeft 0 (((s.asOf 0).framesOf (s.ctx 8)).map Prod.snd) ≠ []) := by
  decide +kernel

theorem test_parkComplete : leads (.parkComplete 8 0) upPage (fun t => (t.ctx 8).st == .parked && (t.ctx 8).parkExt == 0) = true := by decide +kernel
theorem test_restoreComplete : leads (.restoreComplete 7 0) upPage (fun t => (t.ctx 7).st == .active && (t.part 0).extents == []) = true := by decide +kernel

/-- A quadrant that waits for its cairn with a READY spare of wavelength 0. -/
def upQuad : State := put { up with clk := { running := true, quadWant := [0] } } [(Reg.LAS_STAT 1, Fld.LAS_STAT_STATE, 3), (Reg.LAS_STAT 0, Fld.LAS_STAT_STATE, 4)]
/-- Tile 5 decided retired, with and without a spare. -/
def upRetire (sp : Option Nat) : State := { up with tiles := [(5, { retiring := some 1, spare := sp })], clk := { running := true, tileWant := [5] } }
/-- An activation that has stopped the steps. -/
def upAct : State := { up with fw := { act := some (7, 1), phase := 2, cairnWanted := true } }
def swapP : Swap := { img := imgP, bound := 50, op := 3 }

/-- CairnsSwapsAndScrubsTakeEffect. -/
theorem wit_cairns :
    upQuad.clk.quadWant.contains 0 = true ∧ (upQuad.present.any fun l => upQuad.inQuad l 0) = false ∧ upQuad.swapBusy 0 = false ∧
    upQuad.readySpares 0 = [1] ∧ upQuad.clk.quadWant.contains 1 = false ∧ ({ up with clk := { quadWant := [0] } } : State).readySpares 0 = [] ∧
    upS.atGlobalCairn = false ∧ upAct.atGlobalCairn = true ∧ upAct.fw.act = some (7, 1) ∧ (up.tile 5).retiring = none ∧
    (∀ sp ∈ [none, some 271], ((upRetire sp).tile 5).retiring.isSome = true ∧ (upRetire sp).tileCairnNow 5 = true ∧ ((upRetire sp).tile 5).spare = sp) ∧
    (upRetire none).physOf 5 = some 5 := by decide +kernel

theorem wit_swaps :
    (let s := upS.setModel 0 { st := .swapping, img := imgP, swap := some swapP }
     (s.model 0).swap = some swapP ∧ swapP.bound ≠ 0 ∧ swapP.holdAt = none ∧ (∃ l ∈ s.placesOfModel 0, (s.place l).barrier = false ∨ (s.place l).step.isSome = true)) ∧
    (let s := up.setModel 0 { st := .swapping, img := imgP, swap := some swapP }
     (s.model 0).swap = some swapP ∧ (∀ l ∈ s.placesOfModel 0, (s.place l).barrier = true ∧ (s.place l).step = none)) ∧
    (let w : Swap := { swapP with holdAt := some 0 }
     let o : LongOp := { id := 3, h := { hdr 0 32 with seq := 3 }, pkt := .modelSwap (loadP 0) [], done := 1 }
     let s := ({ up with longOps := [o] } : State).setModel 0 { st := .swapping, img := imgP, swap := some w }
     (s.model 0).swap = some w ∧ w.holdAt = some 0 ∧ s.longOf w.op = some o ∧ o.total ≤ o.done ∧ s.placesOfModel 0 = [] ∧ s.chainOf w.op = none ∧
     s.longOf w.op = some o) := by decide +kernel

theorem wit_scrubs :
    memEnd - 1 < memEnd ∧ 1023 < 1024 ∧ tileSram - 1 < tileSram ∧ ((up.tile 0).staged.map Prod.snd).sum ≤ 0 ∧
    (let s := up.setTile 0 { staged := [(1, 64)] }
     63 < ((s.tile 0).staged.map Prod.snd).sum ∧ ((s.tile 0).staged.map Prod.snd).sum ≤ 64) ∧ 1 ∈ upP.placesOn 0 ∧ (upP.place 1).step.isSome = true := by
  decide +kernel

theorem test_globalCairn : leads (.globalCairn 0) upAct (fun t => t.fw.phase == 3) = true := by decide +kernel
theorem test_tileCairn_spare : leads (.tileCairn 5 0) (upRetire (some 271)) (fun t => t.physOf 5 == some 271 && t.physSt 5 == 2) = true := by decide +kernel
theorem test_tileCairn_none : leads (.tileCairn 5 0) (upRetire none) (fun t => t.physOf 5 == none) = true := by decide +kernel
theorem test_swapHold : leads (.swapHold 0 7) (up.setModel 0 { st := .swapping, img := imgP, swap := some swapP })
    (fun t => ((t.model 0).swap.map Swap.holdAt) == some (some 7)) = true := by decide +kernel
theorem test_patrolScrub : leads (.patrolScrub 64 false true) up (fun t => t.mem.poison == [2] && t.faultLog.entries.length == 1) = true := by decide +kernel

/-! ## Witnesses: calibration, tests in pairs, rings and lasers -/

/-- A measured set with all lists empty. -/
def res0 : CalResult :=
  { gains := [], offsets := [], resid := [], stuck := [], erratic := [], rowGains := [], heaters := [], window := (0, 1), htrMax := [],
    setpoints := [], trims := [], berOk := true, margin := (0, 0, 0), bias := 0, conv := (0, 0), verified := false }

/-- Tile 5's arrays were measured far from their present temperature; a run of tile 6 stands at its last slice. -/
def upCal (held : List CalObj) (running : List (CalObj × Nat × Nat)) : State :=
  { up with cal := { held := held, running := running, tempAt := [(5, some 2000)] } }

/-- CalibrationRunsBetweenSteps: the check before and after its ms, objects that have moved, slices of a run, a held run and a full run, ends of runs. -/
theorem wit_calChecks :
    (let b := upS.tick 0
     b.cal.checkAt ≤ b.time / 1000000 ∧ ({ b with cal := { b.cal with checkAt := 1 } } : State).time / 1000000 < 1) ∧
    (let b := (upCal [] []).tick 0
     (5, some (2000 : Int)) ∈ b.cal.tempAt ∧ CalObj.tile 5 ∈ calParts (keyObj 5) ∧
     b.calTemp (keyObj 5) - 2000 < -(4 * (max 1 (b.fld Reg.CFG_CAL_CTL Fld.CFG_CAL_CTL_DT_CAL) : Nat))) := by decide +kernel
theorem wit_calSlices :
    (let b := (upCal [] [(.tile 6, 3, 0)]).tick 0
     b.physSt 6 ≠ 2 ∧ b.critical = false ∧ b.sliceMay 6 = true ∧ (b.phy 6).slicePtr ≠ 1 ∧ (calPhys (.tile 6) == some 6 && b.calUp (.tile 6)) = true ∧
     (b.cal.running.find? fun (x : CalObj × Nat × Nat) => (calPhys x.1 == some 6 && b.calUp x.1) && decide (x.2.1 < slicesOf x.1)) =
       some (.tile 6, 3, 0)) ∧
    (let b := (upCal [.tile 7, .cluster 8 true] []).tick 0
     b.sliceMay 7 = true ∧ b.sliceMay 8 = true ∧ b.physSt 7 ≠ 2 ∧ b.testWants 7 = false ∧ b.sliceInUse 8 = false ∧
     (b.cal.held.find? fun o => (calPhys o == some 7 && b.calUp o) && !(b.inRun o)) = some (.tile 7) ∧
     (b.cal.held.find? fun o => (calPhys o == some 8 && b.calUp o) && !(b.inRun o)) = some (.cluster 8 true) ∧
     (b.cal.held.find? fun o => (calPhys o == some 9 && b.calUp o) && !(b.inRun o)) = none) ∧
    ({ up with phys := [(7, { calBusyUntil := 9 })] } : State).sliceMay 7 = false ∧
    (let b := put { up with phys := [(7, { slicePtr := 1 })] } [(Reg.TILE_TEST 7, Fld.TILE_TEST_STATE, 1)]
     (b.phy 7).slicePtr = 1 ∧ b.testWants 7 = true) ∧
    upS.sliceInUse 316 = true ∧
    (put up [(Reg.POW_STAT, Fld.POW_STAT_EMERG, 2)]).critical = true ∧
    (upS.logicalOf 316 = some 300 ∧ 1 ∈ upS.placesOn 300 ∧ (upS.place 1).step.isSome = true) := by decide +kernel
/-- A run of tile 6 that has had its eight slices, one of lane 3, and one begun in another band. -/
def upEnds : State := upCal [] [(.tile 6, 8, 0), (.lane 3, 0, 0), (.conv 2, 0, 7)]
theorem wit_calEnds :
    (let b := upEnds.tick 0
     (b.cal.running.find? fun (x : CalObj × Nat × Nat) => calKey x.1 == calKey (.tile 6)) = some (.tile 6, 8, 0) ∧ slicesOf (.tile 6) ≤ 8 ∧
     b.calBand (.tile 6) = 0 ∧ b.setOf (.tile 6) 0 res0 = res0 ∧ b.plausible (.tile 6) 0 res0 = true ∧ b.plausible (.tile 6) 0 { res0 with gains := [(0, 0x6CCC)] } = false ∧
     (b.cal.running.find? fun (x : CalObj × Nat × Nat) => calKey x.1 == calKey (.lane 3)) = some (.lane 3, 0, 0) ∧
     b.calBand (.lane 3) = 0 ∧ slicesOf (.lane 3) ≤ 0 ∧ ({ res0 with berOk := false } : CalResult).berOk = false ∧
     b.calBand (.conv 2) ≠ 7 ∧ (put b [(Reg.CLK_START, Fld.CLK_START_PHASE, 14)]).startingUp (.tile 6) = true) := by decide +kernel
theorem wit_calFlash :
    (let s : State := { up with cal := { toFlash := [(.tile 6, 0), (.conv 2, 0), (.laser 4, 0)] }, fw := { flashPtr := 1 } }
     (s.cal.toFlash.find? fun (x : CalObj × Nat) => calKey x.1 == calKey (.tile 6)) = some (.tile 6, 0) ∧
     (s.cal.toFlash.find? fun (x : CalObj × Nat) => calKey x.1 == calKey (.conv 2)) = some (.conv 2, 0) ∧
     (s.cal.toFlash.find? fun (x : CalObj × Nat) => calKey x.1 == calKey (.laser 4)) = some (.laser 4, 0) ∧ s.flashMay 1 = true ∧
     ({ s with fw := { flashPtr := 3, staging := true } } : State).flashMay 1 = false) := by
  decide +kernel

theorem test_calTriggerCheck : leads (.calTriggerCheck 0) (upCal [] []) (fun t => t.cal.held == [.tile 5] && t.cal.checkAt == 1) = true := by decide +kernel
theorem test_calibrationSlice : leads (.calibrationSlice 6 0) (upCal [] [(.tile 6, 3, 0)])
    (fun t => t.cal.running == [(.tile 6, 4, 0)] && (t.phy 6).calBusyUntil == 1500) = true := by decide +kernel
theorem test_calRunEnd : leads (.calRunEnd (.tile 6) res0 0) upEnds (fun t => t.cal.runs == 1 && t.calSet (.tile 6) 0 == some res0 && t.cal.lastTime == t.time) = true := by decide +kernel
theorem test_calRunEnd_gain : leads (.calRunEnd (.tile 6) { res0 with gains := [(0, 0x6CCC)] } 0) upEnds
    (fun t => t.cal.rejects == 1 && t.cal.store == [] && (t.faultLog.entries.map FEntry.code) == [0x0601]) = true := by decide +kernel
theorem test_calFlashRecord : leads (.calFlashRecord (.laser 4) true)
    { up with cal := { toFlash := [(.laser 4, 3)] }, lasers := [(4, { table := [5, 6, 7, 8] })], flash := { calRecs := [⟨.laser 4, 0, [(8, none), (7, none)]⟩] } }
    (fun t => (t.flash.calRecs.map fun x => x.slots.map fun y => (y.1, y.2.map CalResult.gains)) ==
      [[(9, some [(0, 5), (1, 6), (2, 7), (3, 8)]), (8, none)]] && t.fw.flashPtr == 2 && t.cal.toFlash == []) = true := by decide +kernel
theorem test_calFlashRecord_failed : leads (.calFlashRecord (.conv 2) false) { up with cal := { toFlash := [(.conv 2, 0)] } }
    (fun t => (t.flash.calRecs.map FlashRec.slots) == [[(0, none)]] && (t.faultLog.entries.map FEntry.code) == [0x0601]) = true := by decide +kernel

/-- Tiles 4 and 5 in states of a round, with slices done and the signature of tile 5. -/
def upTest (st4 st5 n : Nat) (sig : Word64) : State :=
  put { up with phys := [(4, { testRound := 1, testSlices := n, sigs := [(1, 77)] }), (5, { testRound := 1, sigs := [(1, sig)] })] }
    [(Reg.TILE_TEST 4, Fld.TILE_TEST_STATE, st4), (Reg.TILE_TEST 5, Fld.TILE_TEST_STATE, st5)]

/-- TilesAreTestedInPairs: a round's due time, slices, a first signature, equal and unequal ones, the third tile. -/
theorem wit_testDue :
    (let b := (put up [(Reg.TILE_TEST_CFG, Fld.TILE_TEST_CFG_PERIOD, 1)]).tick 61000000000
     b.fld Reg.TILE_TEST_CFG Fld.TILE_TEST_CFG_PERIOD * 60000000000 = 60000000000 ∧ b.testPhys 4 = some 4 ∧
     4 % 256 / 2 * 60000000000 / 128 = 937500000 ∧ 937500000 ≤ b.time ∧ (b.phy 4).dueAt = none ∧ b.testSt 4 = 0 ∧
     b.testMate 4 1 = some 5 ∧ b.testPhys 5 = some 5 ∧ b.testSt 5 = 0 ∧
     (let c : State := { b with phys := [(4, { dueAt := some 60937500000 })] }
      (c.phy 4).dueAt = some 60937500000 ∧ (c.time - 937500000) / 60000000000 * 60000000000 + 937500000 ≤ 60937500000)) ∧
    (put up [(Reg.TILE_TEST_CFG, Fld.TILE_TEST_CFG_PERIOD, 0)]).fld Reg.TILE_TEST_CFG Fld.TILE_TEST_CFG_PERIOD = 0 := by decide +kernel
theorem wit_testSlices :
    (let b := (upTest 2 3 14 9).tick 0
     b.testPhys 4 = some 4 ∧ b.sliceMay 4 = true ∧ (b.phy 4).slicePtr = 0 ∧ b.calWants 4 = false ∧ b.thirdFor 4 = none ∧ b.testSt 4 = 2 ∧ (b.phy 4).testKind = 0 ∧ (b.phy 4).testSlices + 1 < 16) ∧
    (let b := (upTest 2 3 15 9).tick 0
     b.sliceMay 4 = true ∧ b.thirdFor 4 = none ∧ b.testSt 4 = 2 ∧ 16 ≤ (b.phy 4).testSlices + 1 ∧ b.testMate 4 1 = some 5 ∧ b.testSt 5 = 3 ∧
     b.roundOf 5 = b.roundOf 4 ∧ b.sigOf 5 (b.roundOf 4) = some 9 ∧ b.testPhys 5 ≠ some 4 ∧ (b.testMate (min 4 5) 2).isSome = true) ∧
    ((upTest 2 2 15 9).tick 0).testSt 5 ≠ 3 ∧
    (let b : State := { upTest 2 2 15 9 with cal := { held := [.tile 4] } }
     (b.phy 4).slicePtr = 0 ∧ b.calWants 4 = true) ∧
    (let b := ((upTest 4 4 0 9).setPhy 6 { third := 15 }).tick 0
     b.sliceMay 6 = true ∧ b.calWants 6 = false ∧ b.thirdFor 6 = some (4, 5) ∧ (b.phy 6).third + 1 = 16 ∧ b.sigOf 4 (b.roundOf 4) = some 77 ∧
     ((upTest 4 4 0 9).phy 6).third + 1 ≠ 16) := by decide +kernel
theorem wit_testOverdue :
    (let b := (upTest 0 0 0 9).tick 0
     (b.phy 4).testKind = 0 ∧ b.resOverdue 4 = false) ∧
    (let b := ((upTest 2 3 0 9).setPhy 4 { (upTest 2 3 0 9).phy 4 with dueAt := some 0 }).tick 1000000000
     (b.phy 4).dueAt = some 0 ∧ 0 + 1000000000 ≤ b.time ∧ b.testSt 4 ≠ 0 ∧ b.testSt 4 ≠ 4 ∧ b.tileCairnNow 4 = true ∧ b.testMate 4 1 = some 5 ∧
     b.testSt 5 = 3 ∧ b.roundOf 5 = b.roundOf 4 ∧ b.sigOf 5 (b.roundOf 4) = some 9) ∧
    (let s := (put upS [(Reg.TILE_TEST 300, Fld.TILE_TEST_STATE, 2)]).setPhy 316 { dueAt := some 0 }
     let b := s.tick 1000000000
     (b.phy 316).testKind ≠ 2 ∧ b.testPhys 300 = some 316 ∧ b.testSt 300 ≠ 0 ∧ b.tileCairnNow 300 = false) := by decide +kernel

theorem test_testDue : leads (.testDue 4 61000000000) (put up [(Reg.TILE_TEST_CFG, Fld.TILE_TEST_CFG_PERIOD, 1)])
    (fun t => t.testSt 4 == 1 && t.testSt 5 == 1 && t.roundOf 5 == 1) = true := by decide +kernel
theorem test_testSlice : leads (.testSlice 4 0 9) (upTest 2 3 15 9) (fun t => t.testSt 4 == 0 && t.testSt 5 == 0 && t.testFld 5 Fld.TILE_TEST_PASS == 1) = true := by
  decide +kernel
theorem test_testSlice_differ : leads (.testSlice 4 0 8) (upTest 2 3 15 9) (fun t => t.testSt 4 == 4 && t.testSt 5 == 4) = true := by decide +kernel
theorem test_testOverdue : leads (.testOverdue 4 1000000000 9) ((upTest 2 3 0 9).setPhy 4 { (upTest 2 3 0 9).phy 4 with dueAt := some 0 })
    (fun t => t.testSt 4 == 0 && (t.faultLog.entries.map FEntry.code) == [0x0103]) = true := by decide +kernel

/-- Cluster 3 with its ring 2 as given, at 30 us. -/
def upRing (x : Ring) : State := { up.setRing 3 2 x with now := 30000 }

/-- RingsFollowTheirTones: both kinds of alarm; windows of a VERIFIED ring; acquisition before its capture, with no candidate left, and at one;
a judgement that comes early, matches or not at the first candidate and at the second; and the time-out. -/
theorem wit_tones :
    clusterOk 3 = true ∧ 2 < clusterRings 3 ∧ targetTone 3 2 = 10 ∧
    toneOf 10 [(10, 5000), (2, 4000)] = .matched ∧ toneOf 10 [(10, 5000), (2, 4001)] = .mismatch ∧ toneOf 10 [(10, 1999)] = .none ∧
    ((upRing { st := .locked }).tick 30000).ring 3 2 = { st := .locked } ∧ ({ st := .locked } : Ring).locked = true ∧ ({} : Ring).locked = false ∧
    (((upRing { st := .verified, htrMax := 5 }).tick 30000).loopWindow 3 2 []).ring 3 2 = { st := .verified, htrMax := 5 } ∧
    (let x : Ring := { st := .acquiring, sweeping := true, since := 22000 }
     let b := ((upRing x).tick 30000).loopWindow 3 2 [1]
     b.ring 3 2 = x ∧ b.now - x.since ≤ 48000 ∧ b.now - x.since < capturedFrom x.tried) ∧
    (let x : Ring := { st := .locked, sweeping := true }
     let b := ((upRing x).tick 24999).loopWindow 3 2 []
     b.ring 3 2 = x ∧ b.now = 30000 ∧ judgedFrom x.tried ≤ b.now - x.since ∧ b.now - x.since ≤ 48000) ∧
    (let x : Ring := { st := .locked, sweeping := true, tried := 1 }
     (((upRing x).tick 42999).loopWindow 3 2 []).now - x.since < judgedFrom x.tried ∧
     judgedFrom x.tried ≤ (((upRing x).tick 43000).loopWindow 3 2 []).now - x.since ∧ x.tried ≠ 0) ∧
    (let x : Ring := { st := .acquiring, sweeping := true }
     x.since + 48000 < ((upRing x).tick 48001).now ∧ x.since + 48000 < (((upRing x).tick 48001).loopWindow 3 2 []).now) := by decide +kernel
/-- The resonances that a sweep finds are a free value: a ring that finds one has a first candidate and no second, and one that finds none has
neither. -/
theorem wit_candidates (f : List Nat) (h : Config.resonances 3 2 0 = f) :
    let x : Ring := { st := .acquiring, sweeping := true }
    (f = [] → ((upRing x).tick 30000).candidates 3 2 x = []) ∧ (f = [700] → ((upRing x).tick 30000).candidates 3 2 x = [700]) ∧
      capturedFrom x.tried ≤ 30000 ∧ 30000 < judgedFrom 1 ∧ judgedFrom 1 ≤ 43000 ∧ x.tried ≤ 1 := by
  have w : ((upRing { st := .acquiring, sweeping := true }).tick 30000).limitDrive 3 2 700 = 700 := by decide +kernel
  refine ⟨fun e => ?_, fun e => ?_, by decide, by decide, by decide, by decide⟩ <;>
    subst e <;> unfold State.candidates <;> simp [h, sortBy, insBy, w, List.eraseDups, List.eraseDupsBy, List.eraseDupsBy.loop]

theorem test_lockAlarm : leads (.lockAlarm 3 2 30000) (upRing { st := .verified })
    (fun t => t.ring 3 2 == { st := .acquiring, since := 30000, sweeping := true } && t.fld (Reg.RNG_CLU_STAT 3) Fld.RNG_CLU_STAT_ALARMS == 1) = true := by
  decide +kernel
theorem test_heaterLimit : leads (.heaterLimit 3 2 30000) (upRing { st := .locked }) (fun t => (t.ring 3 2).st == .acquiring) = true := by decide +kernel
theorem test_toneWindow : leads (.toneWindow 3 2 ⟨[(10, 5000), (2, 4000)], []⟩ 700 30000) (upRing { st := .locked, sweeping := true })
    (fun t => (t.ring 3 2).st == .verified && t.fld (Reg.RNG_CLU_STAT 3) Fld.RNG_CLU_STAT_QUALITY == 700) = true := by decide +kernel
theorem test_toneWindow_fault : leads (.toneWindow 3 2 ⟨[(10, 5000), (2, 4001)], []⟩ 700 30000) (upRing { st := .verified })
    (fun t => (t.ring 3 2).st == .acquiring && (t.faultLog.entries.map FEntry.code) == [0x0304]) = true := by decide +kernel
theorem test_acquisitionTimeout : leads (.acquisitionTimeout 3 2 48001) (upRing { st := .acquiring, sweeping := true })
    (fun t => (t.ring 3 2).st == .failed && t.cal.held == [.cluster 3 true]) = true := by decide +kernel

/-- Laser 4 in service with bias 200 of at most 400, its spare in a state. -/
def upLas (sp : Nat) (b : Nat) : State :=
  put up [(Reg.LAS_STAT 4, Fld.LAS_STAT_STATE, 4), (Reg.LAS_STAT 4, Fld.LAS_STAT_SEL, 1), (Reg.LAS_STAT 5, Fld.LAS_STAT_STATE, sp),
    (Reg.LAS_BIAS 4, Fld.LAS_BIAS_BIAS, b), (Reg.LAS_BIAS 4, Fld.LAS_BIAS_BIAS_MAX, 400), (Reg.LAS_BIAS 5, Fld.LAS_BIAS_BIAS_MAX, 400)]

/-- LasersFadeAndAreReplaced: the loop, fades with and without a spare, a warming spare in and out of time, an I/O lane in and out of the stripe. -/
theorem wit_fades :
    laserOk 4 = true ∧
    (let b := (upLas 0 400).tick 0
     b.onBus 4 = true ∧ (b.laser 4).dark = false ∧ b.fadeTrigger 4 (b.lasTarget 4) 0 = 1 ∧ b.fadeCause 4 = 0 ∧ b.hasSpare 4 = true ∧
     b.lasSt (spareOf 4) = 0 ∧ b.pcp (lasQuad 4) = true ∧ b.fadeTrigger 4 (b.lasTarget 4 - 10000) 0 = 3) ∧
    ((upLas 0 200).tick 0).fadeTrigger 4 ((upLas 0 200).lasTarget 4) 0 = 0 ∧ (up.tick 0).onBus 5 = false ∧
    (let b := (upLas 5 400).tick 0
     lasWave 4 = some 2 ∧ b.hasSpare 4 = false ∧ b.waveDerated 2 = false ∧ b.fadeTrigger 4 (b.lasTarget 4 - 400) 0 ≠ 0) ∧
    (let b := (upLas 1 200).tick 4000000
     laserOk 5 = true ∧ 5 % 2 = 1 ∧ b.warming 5 = true ∧ (b.laser 5).fadeAt + 4000000 ≤ b.now ∧ b.lasSt 5 ≠ 2) ∧
    (let b := (upLas 2 200).tick 4000000
     b.warming 5 = true ∧ b.now ≤ (b.laser 5).fadeAt + 4000000 ∧ b.lasSt 5 = 2 ∧ b.onGrid 5 = true ∧
     (put b [(Reg.LAS_STAT 5, Fld.LAS_STAT_FREQ_ERR, 51)]).onGrid 5 = false) ∧
    (let b := (upLas 1 200).tick 3999999
     b.now < (b.laser 5).fadeAt + 4000000) ∧
    ((upLas 1 200).laser 5).fadeAt + 4000000 < ((upLas 1 200).tick 4000001).now := by decide +kernel

/-- The spare of lane 0 of port 0 is READY; the port UP or not. -/
def upIo (st : Nat) : State :=
  (put up [(Reg.LAS_STAT 33, Fld.LAS_STAT_STATE, 3), (Reg.LNK_PORT_STAT 0, Fld.LNK_PORT_STAT_STATE, st)]).setPort 0 { laneMap := 0x1FFFF }
theorem wit_ioLaser :
    laserOk 33 = true ∧ 33 % 2 = 1 ∧ lasLane 33 = (0, 0) ∧ lasWave 33 = none ∧ ((upIo 2).tick 0).lasSt 33 = 3 ∧ ((upIo 2).tick 0).alive 2 = true ∧
    ((upIo 2).tick 0).portSt 0 = 2 ∧ (((upIo 2).tick 0).port 0).mapNext = none ∧ bitOf (((upIo 2).tick 0).port 0).laneMap 0 = true ∧
    ((upIo 0).tick 0).portSt 0 ≠ 2 ∧
    (let b := ((upIo 2).setPort 0 { laneMap := 0x1FFFF, mapNext := some (9, 0x1FFFE) }).tick 0
     b.portSt 0 = 2 ∧ (b.port 0).mapNext ≠ none) ∧
    (let b := ((upIo 2).setPort 0 { laneMap := 0x1FFFE }).tick 0
     b.portSt 0 = 2 ∧ (b.port 0).mapNext = none ∧ bitOf (b.port 0).laneMap 0 = false) := by decide +kernel

theorem test_powerLoopUpdate_off : leads (.powerLoopUpdate 5 ⟨-5000, 12⟩) (upLas 0 399)
    (fun t => t.fld (Reg.LAS_BIAS 5) Fld.LAS_BIAS_BIAS == 0 && t.fld (Reg.LAS_BIAS 5) Fld.LAS_BIAS_PWR == 60536 && t.lasSt 5 == 0) = true := by
  decide +kernel
theorem test_fadeEvaluation : leads (.fadeEvaluation 4 0 0) (upLas 0 400)
    (fun t => t.fadeCause 4 == 1 && t.lasSt 5 == 1 && (t.faultLog.entries.map FEntry.code) == [0x0301]) = true := by decide +kernel
theorem test_spareReady : leads (.spareReady 5 4000000) (upLas 2 200) (fun t => t.lasSt 5 == 3 && t.clk.quadWant == [0]) = true := by decide +kernel
theorem test_spareTimeout : leads (.spareTimeout 5 4000000) (upLas 1 200) (fun t => t.lasSt 5 == 5) = true := by decide +kernel
theorem test_ioLaserSwap : leads (.ioLaserSwap 33 0) (upIo 0) (fun t => t.lasSt 33 == 4 && t.lasSt 32 == 5) = true := by decide +kernel
/-! ## Witnesses: frames, messages, ports and the twin -/

/-- A frame with two messages for module 0, one on the wrong channel. -/
def msg0 (op off : Nat) (b : List Byte) : FMsg := ⟨0, 7, op + 16 * opChannel op, 0, off, 5, b⟩
def frame0 (k : Nat) (ok : Bool) : Frame :=
  { ok := ok, fseq := BitVec.ofNat 32 k, ack := 9, nak := none, credit := [0, 0, 0, 0], laneMap := 0xFFFF, mapSeq := 1, prot := false,
    msgs := [msg0 4 0 [], { msg0 4 0 [] with op := 20 }] }

/-- FramesRequestsAndTimeRecordsFollow: port states, frames that failed, came before, in order and after a gap. -/
theorem wit_frames :
    (let b := upTwin.tick 0
     b.portSt 4 = 2 ∧ b.portSt 3 ≠ 2 ∧ (frame0 0 false).ok = false ∧ (frame0 0 true).ok = true ∧
     unsigned 32 (((frame0 0 true).fseq.toNat : Int) - (b.port 4).rxNext) = 0 ∧ unsigned 32 (((frame0 3 true).fseq.toNat : Int) - (b.port 4).rxNext) = 3 ∧
     unsigned 32 (((frame0 0xFFFFFFFF true).fseq.toNat : Int) - (b.port 4).rxNext) = 2 ^ 32 - 1) := by decide +kernel

/-- A request that waits for its RESP. -/
def req0 (op : Nat) (b : List Byte) (re : Nat) (d : Bool) : Req :=
  { msg := { msg0 op 0 b with dest := 7, src := 0, tag := 5 }, port := 4, sentAt := 0, resends := re, deferred := d }
def upReq (r : Req) : State := { upTwin with fabric := { reqs := [r], probeAt := [(7, 1)], probeSent := 1, timeSent := 1 }, places := upS.places }

theorem wit_requests :
    (let b := (upReq (req0 1 [] 2 false)).tick 100000000
     b.reqOf 5 = some (req0 1 [] 2 false) ∧ 0 + 1000 * max 1 (b.fld Reg.LNK_CFG Fld.LNK_CFG_REQ_TIMEOUT) ≤ b.now ∧
     ((upReq (req0 1 [] 2 false)).tick 0).now < 0 + 1000 * max 1 (b.fld Reg.LNK_CFG Fld.LNK_CFG_REQ_TIMEOUT)) ∧
    (let b := (upReq (req0 1 [] 3 true)).tick 10000
     b.reqOf 5 = some (req0 1 [] 3 true) ∧ 0 + 10000 ≤ b.now ∧ ((upReq (req0 1 [] 3 true)).tick 9999).now < 0 + 10000) ∧
    (let b := (upReq (req0 1 [] 3 true)).tick 100001
     b.fabric.probeSent + 100000 ≤ b.now ∧ ((upReq (req0 1 [] 3 true)).tick 5).now < 1 + 100000) ∧
    (let b := (upReq (req0 1 [] 3 true)).tick 1000001
     b.fabric.timeSent + 1000000 ≤ b.now ∧ ((upReq (req0 1 [] 3 true)).tick 5).now < 1 + 1000000 ∧ b.portSt 4 = 2) ∧
    (let b := (upReq (req0 1 [] 3 true)).tick 100000000
     tget 0 b.fabric.probeAt 7 ≠ 0 ∧ b.fabric.lost.contains 7 = false ∧
     tget 0 b.fabric.probeAt 7 - 1 + 100000 * max 1 (b.fld Reg.LNK_CFG Fld.LNK_CFG_PROBE_LOSS) ≤ b.now ∧ tget 0 b.fabric.probeAt 9 = 0) ∧
    (let s := put upTwin [(Reg.CLK_TSYNC, Fld.CLK_TSYNC_SRC_PORT, 4)]
     s.portSt 4 = 2 ∧ s.fld Reg.CLK_TSYNC Fld.CLK_TSYNC_SRC_PORT = 4 ∧ s.fld Reg.CLK_TSYNC Fld.CLK_TSYNC_SRC_PORT ≠ 5) := by decide +kernel

theorem test_frameReceived : leads (.frameReceived 4 (frame0 0 true) 0) upTwin
    (fun t => (t.port 4).rxMsgs == [msg0 4 0 []] && (t.port 4).rxNext == 1 && t.fld (Reg.LNK_PORT_CNT 4) Fld.LNK_PORT_CNT_BAD_MSG == 1) = true := by decide +kernel
theorem test_frameReceived_failed : leads (.frameReceived 4 (frame0 0 false) 0) upTwin (fun t => (t.port 4).nak == some 0 && (t.port 4).rxMsgs == []) = true := by
  decide +kernel
theorem test_requestTimeout : leads (.requestTimeout 5 100000000) (upReq (req0 1 [] 2 false)) (fun t => t.fabric.reqs.map Req.resends == [3]) = true := by
  decide +kernel
theorem test_requestTimeout_lost : leads (.requestTimeout 5 100000000) (upReq (req0 1 [] 3 false)) (fun t => t.fabric.lost == [7]) = true := by decide +kernel
theorem test_relayResend : leads (.relayResend 5 10000) (upReq (req0 1 [] 3 true)) (fun t => t.fabric.reqs.map Req.deferred == [false]) = true := by decide +kernel
theorem test_probeLoss : leads (.probeLoss 7 100000000) (upReq (req0 1 [] 3 true)) (fun t => t.fabric.lost == [7]) = true := by decide +kernel
theorem test_timeRecordSend : leads (.timeRecordSend 1000001) (upReq (req0 1 [] 3 true)) (fun t => t.fabric.reqs.length == 2) = true := by decide +kernel
theorem test_timeRecord : leads (.timeRecord 4 5000) (put upTwin [(Reg.CLK_TSYNC, Fld.CLK_TSYNC_SRC_PORT, 4)])
    (fun t => t.time == 100 && t.fld Reg.CLK_TSYNC Fld.CLK_TSYNC_OFFSET == 5000) = true := by decide +kernel

/-- Slice entry of a placement between modules 7 and 7, with 16 slots. -/
def slice7 (rep : Byte) : List Byte := [rep, 0, 7, 0, 0, 0, 7, 0] ++ List.replicate 16 0 ++ [4] ++ List.replicate 39 0
/-- A relay record of a context and position; kind 1 carries a token. -/
def rec0 (i pos kind tok : Nat) : List Byte := leBytes 4 i ++ leBytes 4 pos ++ leBytes 1 kind ++ leBytes 7 0 ++ leBytes 16 tok
/-- Port 4 holds a message; placement 0 of model 0 (shard k) has a slice; context 1 is ACTIVE at position 5, and 2 at 5 with no token yet. -/
def upMsg (k : Nat) (m : FMsg) : State :=
  { put { upS with ports := [(4, { farCoord := 7, rxMsgs := [m] })] }
      [(Reg.LNK_COORD, Fld.LNK_COORD_VALID, 1), (Reg.LNK_COORD, Fld.LNK_COORD_MODULE_ID, 0), (Reg.LNK_PORT_CFG 4, Fld.LNK_PORT_CFG_ROLE, 3),
       (Reg.LNK_PORT_STAT 4, Fld.LNK_PORT_STAT_STATE, 2),
       (Reg.LNK_PORT_STAT 4, Fld.LNK_PORT_STAT_FAR_ID, 7), (Reg.TWN_JRN, Fld.TWN_JRN_SIZE, 1), (Reg.TWN_STAT, Fld.TWN_STAT_PEER, 7)] with
    models := [(0, { st := .loaded, img := { img0 with shardIdx := k } })],
    places := [(0, { present := true, stats := 0x1000, cfg := { model := 0, tiles := [0] }, slice := slice7 2 })],
    ctxs := [(1, ctx0 0 .active), (2, { ctx0 0 .active with pvalid := false })] }
/-- The state on which the message acts. -/
def took (m : FMsg) (s : State) : State := (s.setPort 4 { s.port 4 with rxMsgs := [] }).giveCredits 4 m

/-- MessagesActOnWhatTheyName: RELAY outside and inside the windows, duplicates, with room and without, records and tokens. -/
theorem wit_relay :
    (let m := msg0 1 0x40400000 (rec0 1 6 0 0)
     let b := took m (upMsg 0 m)
     (upMsg 0 m).received b 4 m 1 ∧ inside (b.windows 0) m.offset m.payload.length = true ∧ b.slicePeer 0 m.src = true ∧ 16 ≤ m.payload.length ∧
     (b.ctx 1).st = .active ∧ (b.ctx 1).part = 0 ∧ sliceNum m.payload 0 4 % 2 ^ 22 = 1 ∧ sliceNum m.payload 4 4 = 6 ∧ (b.ctx 1).pos ≤ 6 ∧
     b.fabric.relayed = [] ∧ b.fabric.tokens = [] ∧ (b.imgOf (b.ctx 1)).shardIdx = 0 ∧ (b.ctx 1).pos = 5 ∧ (b.ctx 1).pvalid = true ∧
     sliceNum m.payload 8 1 ≠ 1 ∧ 0 < sliceSlots (b.place 0).slice ∧ sliceSlots (b.place 1).slice ≤ 1 ∧
     inside (b.windows 0) 0x100 m.payload.length = false ∧ b.slicePeer 0 9 = false) ∧
    (let m := msg0 1 0x40400000 (rec0 2 5 1 77)
     let b := took m (upMsg 1 m)
     (upMsg 1 m).received b 4 m 1 ∧ sliceNum m.payload 8 1 = 1 ∧ (b.ctx 2).pos = 5 ∧ (b.ctx 2).pvalid = false ∧ (b.imgOf (b.ctx 2)).shardIdx ≠ 0) := by
  unfold State.received; decide +kernel

theorem test_relay : leads (.relay 4 (msg0 1 0x40400000 (rec0 1 6 0 0))) (upMsg 0 (msg0 1 0x40400000 (rec0 1 6 0 0)))
    (fun t => t.fabric.relayed == [(0, 1, 6)] && (t.port 4).rxMsgs == []) = true := by decide +kernel
theorem test_relay_token : leads (.relay 4 (msg0 1 0x40400000 (rec0 2 5 1 77))) (upMsg 1 (msg0 1 0x40400000 (rec0 2 5 1 77)))
    (fun t => (t.ctx 2).pending == 77 && (t.ctx 2).pvalid) = true := by decide +kernel

/-- A chain of module 7 that module 0 has accepted, or one of its own, for MODEL_LOAD, or for a MODEL_SWAP whose hold has not begun. -/
def chain0 (opened : Bool) (buf : List (Nat × List Byte)) : Chain :=
  { fn := 0, op := 3, model := 3, tag := 8, head := if opened then 7 else 0, prev := 7, opened := opened, total := 65536, buf := buf, members := [9] }
def upChain (m : FMsg) (c : Chain) (pkt : CPacket := .modelLoad (loadP 3) []) : State :=
  { upMsg 0 m with
    longOps := [{ id := 3, h := hdr 0 32, pkt := pkt, stage := 1 }]
    models := [(3, { st := .swapping, swap := some { img := img0 } })]
    fabric := { chains := [c] } }
/-- The half-chunk at an offset. -/
def half (off : Nat) : FMsg := msg0 2 off (List.replicate 16 1)
theorem wit_chain :
    (let b := took (half 32768) (upChain (half 32768) (chain0 true []))
     let d := { chain0 true [] with buf := [(32768, List.replicate 16 1)], got := [32768], owed := [(4, creditsOf (half 32768))] }
     (upChain (half 32768) (chain0 true [])).received b 4 (half 32768) 2 ∧
     (b.fabric.chains.find? fun c => c.opened && c.head != b.myId && c.prev == (half 32768).src) = some (chain0 true []) ∧
     32768 < (chain0 true []).total ∧ (half 32768).payload.take 32768 = List.replicate 16 1 ∧ d.whole = false ∧
     32769 % 32768 ≠ 0 ∧ (chain0 true []).total ≤ 65536 ∧ ({ chain0 true [] with sentTo := 65536 } : Chain).sentTo > 32768 ∧
     ((chain0 true [(32768, [1])]).buf.any fun (x : Nat × List Byte) => x.1 == 32768) = true) ∧
    (let c := chain0 true [(0, [1])]
     let d := { c with buf := c.buf ++ [(32768, List.replicate 16 1)], got := [32768], owed := [(4, creditsOf (half 32768))] }
     let u := fun (pkt : CPacket) => (({ (upChain (half 32768) c pkt) with ports := [(4, { farCoord := 7 })] } : State).setChain d).respond 4 (half 32768) stOK
     d.whole = true ∧ (u (.modelLoad (loadP 3) [])).chunkTakes d = true ∧ (u (.modelSwap (loadP 3) [])).chunkTakes d = false ∧ ∀ x ∈ d.buf, x.2 ≠ []) ∧
    (upChain (half 0) (chain0 false [])).fabric.chains.all (fun c => !c.opened) = true := by
  unfold State.received; decide +kernel
/-- The opening of a chain: the head with and without members that have not answered, a member waiting for it and one that has it. -/
theorem wit_chainOpen :
    (let b := (upChain (half 0) (chain0 false [])).tick 1000000000
     (b.fabric.chains.find? fun x => x.fn == 0 && x.tag == 8) = some (chain0 false []) ∧ (chain0 false []).head = b.myId ∧
     (chain0 false []).members.filter (fun x => !((chain0 false []).answered.contains x)) = [9] ∧
     (chain0 false []).startAt + 1000000000 ≤ b.now ∧ (b.longOf 3).isSome = true) ∧
    ((upChain (half 0) (chain0 false [])).tick 999999999).now < (chain0 false []).startAt + 1000000000 ∧
    ({ chain0 false [] with answered := [9] } : Chain).members.filter (fun x => !([9].contains x)) = [] ∧
    (chain0 true []).head ≠ (upChain (half 0) (chain0 true [])).myId ∧ (chain0 true []).opened = true ∧
    ({ chain0 true [] with opened := false } : Chain).opened = false ∧
    ((upChain (half 0) (chain0 false []) (.modelSwap (loadP 3) [])).longOf 3).isSome = true := by decide +kernel

theorem test_chain : leads (.chain 4 (half 32768)) (upChain (half 32768) (chain0 true []))
    (fun t => t.fabric.chains.map (fun c => (c.got, c.owed)) == [([32768], [])] && (t.port 4).returned.getD 2 0 == creditsOf (half 32768)) = true := by decide +kernel
theorem test_chainOpenTimeout : leads (.chainOpenTimeout 0 8 1000000000) (upChain (half 0) (chain0 false []))
    (fun t => t.fabric.chains == [] && t.longOps == []) = true := by decide +kernel

/-- The pair in a state with some acknowledgements outstanding. -/
def upPair (st : Nat) (m : FMsg) : State :=
  { put (upMsg 0 m) [(Reg.TWN_STAT, Fld.TWN_STAT_STATE, st), (Reg.TWN_STAT, Fld.TWN_STAT_CAUSE, 2)] with
    twin := { sentSeq := 3, acked := 2, heldOut := [(3, 1, entry0)] } }
/-- A CLOSE record of context 1. -/
def close1 : List Byte := leBytes 1 4 ++ leBytes 3 0 ++ leBytes 4 1 ++ leBytes 8 0
/-- The peer has journaled context 20 of placement 0: an OPEN record at tag 3 with LEN_MAX 64. -/
def open20 : JRec :=
  { kind := 1, ntok := 0, place := 0, ctx := 20, pos := 0, gen := 0,
    body := leBytes 4 0 ++ leBytes 2 0 ++ leBytes 2 3 ++ leBytes 4 0 ++ leBytes 4 64 ++ leBytes 8 0x100000 ++ leBytes 24 0 }
theorem wit_journal :
    (let m := msg0 3 0 close1
     let b := took m (upPair 3 m)
     (upPair 3 m).received b 4 m 3 ∧ (upPair 3 m).queueOpen = true ∧ m.src = b.peer ∧ m.offset = 0 ∧ 2 ≤ b.twinSt ∧
     (((recsOf m.payload).foldl fileRec b.twin.filed).map fun r => r.bytes.length).sum ≤ b.journal.2 ∧ (recsOf m.payload).length = 1) ∧
    (put (upPair 3 (msg0 3 0 close1)) [(Reg.FWP_PROC 2, Fld.FWP_PROC_ALIVE, 0)] : State).alive 2 = false ∧
    ({ put (upPair 3 (msg0 3 0 close1)) [(Reg.FWP_PROC 2, Fld.FWP_PROC_ALIVE, 0)] with time := 5000000 } : State).queueOpen = false ∧
    (put (upPair 3 (msg0 3 0 open20.bytes)) [(Reg.TWN_JRN, Fld.TWN_JRN_SIZE, 0)]).journal.2 <
      (((recsOf open20.bytes).foldl fileRec []).map fun r => r.bytes.length).sum := by
  unfold State.received; decide +kernel
theorem wit_resp :
    (let m := msg0 5 0 (leBytes 16 stOK)
     let s : State := { upPair 2 m with fabric := { reqs := [req0 3 close1 0 false] } }
     let b := took m s
     s.received b 4 m 5 ∧ (b.fabric.reqs.find? fun r => r.msg.tag == m.tag && r.msg.dest == m.src) = some (req0 3 close1 0 false) ∧
     (req0 3 close1 0 false).msg.op % 16 = 3 ∧ b.twinSt = 2 ∧ sliceNum m.payload 0 1 = stOK ∧ (req0 1 [] 0 false).msg.op % 16 = 1 ∧
     (req0 4 [] 0 false).msg.op % 16 = 4 ∧ (upMsg 0 m).fabric.reqs = [] ∧ sliceNum (leBytes 16 stDeferred) 0 1 = stDeferred ∧
     (upS.place 1).step.isSome = true) := by
  unfold State.received; decide +kernel
/-- A management message of kind k from a module, with bytes 2 and 3 naming tag 8, the head at byte 4 and the next two bytes as given. -/
def mg (k src head x : Nat) : FMsg := { msg0 7 0 (leBytes 1 k ++ leBytes 1 0 ++ leBytes 2 8 ++ leBytes 2 head ++ leBytes 2 x ++ leBytes 8 65536) with src := src }
/-- Kinds 1 and 2 and one that is reserved: pairing, SOLO and PAIRED modules, the peer and another, SVC ALIVE or not. -/
theorem wit_mgmt :
    (let m := msg0 7 0 (leBytes 1 1 ++ leBytes 15 1)
     let b := took m (upPair 1 m)
     (upPair 1 m).received b 4 m 7 ∧ b.alive 2 = true ∧ sliceNum m.payload 0 1 = 1 ∧ sliceNum m.payload 1 1 = 1 ∧ b.twinSt = 1 ∧ m.src = b.peer ∧
     (took m (upPair 0 m)).twinSt = 0 ∧ (took m (upPair 2 m)).twinSt ≠ 0 ∧ (took m (upPair 2 m)).twinSt ≠ 1 ∧
     (put (took m (upPair 1 m)) [(Reg.FWP_PROC 2, Fld.FWP_PROC_ALIVE, 0)]).alive 2 = false) ∧
    (let m := mg 2 7 0 0
     let b := took m (upPair 2 m)
     (upPair 2 m).received b 4 m 7 ∧ sliceNum m.payload 0 1 = 2 ∧ b.twinSt ≠ 0 ∧ m.src = b.peer ∧ (mg 2 9 0 0).src ≠ b.peer) ∧
    (let m := mg 8 7 0 0
     let b := took m (upPair 2 m)
     (upPair 2 m).received b 4 m 7 ∧ 7 < sliceNum m.payload 0 1 ∧ sliceNum (mg 6 7 0 0).payload 0 1 = 6) := by
  unfold State.received; decide +kernel
/-- Kinds 3, 4, 5 and 7: an opening for a chain accepted here, for one that is open and for none; a member's end; a module lost. -/
theorem wit_mgmtChain :
    (let s := upChain (mg 3 7 7 0) { chain0 true [] with opened := false }
     let b := took (mg 3 7 7 0) s
     s.received b 4 (mg 3 7 7 0) 7 ∧ b.alive 2 = true ∧ sliceNum (mg 3 7 7 0).payload 0 1 = 3 ∧
     (b.fabric.chains.find? fun c => opens c b.myId (mg 3 7 7 0)) = some { chain0 true [] with opened := false } ∧
     opens (chain0 true []) b.myId (mg 3 7 7 0) = true ∧ opens (chain0 true []) b.myId (mg 3 7 6 0) = false) ∧
    (let s := upChain (mg 4 9 0 0) (chain0 false [])
     let b := took (mg 4 9 0 0) s
     s.received b 4 (mg 4 9 0 0) 7 ∧ sliceNum (mg 4 9 0 0).payload 0 1 = 4 ∧ b.headChain (mg 4 9 0 0) 9 = some (chain0 false []) ∧
     (b.chainOf 3) = some (chain0 false [])) ∧
    (let s := upChain (mg 5 7 9 0) (chain0 false [])
     let b := took (mg 5 7 9 0) s
     s.received b 4 (mg 5 7 9 0) 7 ∧ sliceNum (mg 5 7 9 0).payload 4 2 = 9 ∧ sliceNum (mg 5 7 9 0).payload 6 2 = b.myId ∧
     b.headChain (mg 5 7 9 0) 9 = some (chain0 false []) ∧ b.chainOf 3 = some (chain0 false [])) ∧
    (let s := upChain (mg 5 7 9 7) (chain0 true [])
     let b := took (mg 5 7 9 7) s
     s.received b 4 (mg 5 7 9 7) 7 ∧ sliceNum (mg 5 7 9 7).payload 6 2 = 7 ∧ 7 ≠ b.myId ∧
     (b.fabric.chains.find? fun c => c.tag == sliceNum (mg 5 7 9 7).payload 2 2 && c.head == 7) = some (chain0 true [])) ∧
    (let s := upChain (mg 7 9 0 0) (chain0 false [])
     let b := took (mg 7 9 0 0) s
     s.received b 4 (mg 7 9 0 0) 7 ∧ sliceNum (mg 7 9 0 0).payload 0 1 = 7 ∧ b.headChain (mg 7 9 0 0) 9 = some (chain0 false []) ∧
     b.chainOf 3 = some (chain0 false [])) := by
  unfold State.received; decide +kernel

theorem test_journal : leads (.journal 4 (msg0 3 0 open20.bytes)) (upPair 3 (msg0 3 0 open20.bytes))
    (fun t => t.twin.filed == [open20] && t.twin.inSeq == 1 && t.twinSt == 2) = true := by decide +kernel
theorem test_resp : leads (.resp 4 (msg0 5 0 (leBytes 16 stOK)))
    { upPair 2 (msg0 5 0 (leBytes 16 stOK)) with fabric := { reqs := [req0 3 close1 0 false] } }
    (fun t => t.twin.acked == 3 && t.twin.heldOut == [] && (t.pair 0 1).out.length == 1) = true := by decide +kernel
theorem test_mgmt_pair : leads (.mgmt 4 (msg0 7 0 (leBytes 1 1 ++ leBytes 15 1))) (upPair 1 (msg0 7 0 (leBytes 1 1 ++ leBytes 15 1))) (fun t => t.twinSt == 2) = true := by
  decide +kernel
theorem test_mgmt_unpair : leads (.mgmt 4 (msg0 7 0 (leBytes 1 2 ++ leBytes 15 0))) (upPair 2 (msg0 7 0 (leBytes 1 2 ++ leBytes 15 0))) (fun t => t.twinSt == 0) = true := by
  decide +kernel
theorem test_probe : leads (.probe 4 (msg0 4 0 [])) (upMsg 0 (msg0 4 0 [])) (fun t => (t.port 4).rxMsgs == []) = true := by decide +kernel

/-- PortsTrainAndGoDown: maps announced by either end, a port that loses alignment, one that trains. -/
def upPort (st : Nat) (x : Port) : State :=
  put { upTwin with ports := [(4, x)] } [(Reg.LNK_PORT_STAT 4, Fld.LNK_PORT_STAT_STATE, st), (Reg.LNK_PORT_CFG 4, Fld.LNK_PORT_CFG_EN, 1)]
theorem wit_portStates :
    (let b := (upPort 2 { mapNext := some (16, 0x7FFF) }).tick 200
     (b.port 4).mapNext = some (16, (0x7FFF : BitVec 17).toNat) ∧ 16 ≤ b.frameNo 4 ∧ b.minLanes ≤ laneCount (0x7FFF : BitVec 17).toNat ∧
     laneCount (1 : BitVec 17).toNat < b.minLanes) ∧
    (let b := (upPort 2 { rxNext := 16, rxMapNext := some (16, 0x7FFF) }).tick 0
     (b.port 4).mapNext = none ∧ (b.port 4).rxMapNext = some (16, (0x7FFF : BitVec 17).toNat) ∧
     unsigned 32 (((b.port 4).rxNext : Int) - 16) < 2 ^ 31 ∧ ¬ unsigned 32 ((15 : Int) - 16) < 2 ^ 31) ∧
    (let b := (upPort 2 { mapNext := none }).tick 0
     (b.port 4).mapNext = none ∧ (b.port 4).rxMapNext = none ∧ b.portSt 4 = 2 ∧ b.portRole 4 = 3 ∧ b.upPorts 3 = [4] ∧
     (put b [(Reg.TWN_STAT, Fld.TWN_STAT_STATE, 2)]).twinSt = 2) ∧
    (let b := (upPort 3 {}).tick 10000000
     b.portSt 4 = 3 ∧ b.flag (Reg.LNK_PORT_CFG 4) Fld.LNK_PORT_CFG_EN = true ∧ (b.port 4).downAt + 10000000 ≤ b.now) := by decide +kernel
/-- Port 4 trains with lanes 0 to 3 lit. -/
def upTrain : State :=
  put { upPort 1 { downAt := 0 } with
        rings := (List.range 8).map fun r => (portCluster 4 * 128 + r, { st := .verified, matchedAt := some 0 }) }
    ((Reg.LNK_CFG, Fld.LNK_CFG_MIN_LANES, 3) :: (List.range 4).map fun m => (Reg.LAS_STAT (32 + 34 * 4 + 2 * m), Fld.LAS_STAT_STATE, 4))
/-- Lanes whose margin tests passed, 2.0 dB below the launch that R369 first tests at and no further. -/
def tests0 (ms : List Nat) : List LaneTest := ms.map fun m => { lane := m, errs := [9, 9, 9, 9, 1000, 1001], eyeW := 40, berLog := 15 }
theorem wit_training :
    (let b := upTrain.tick 0
     let u := (b.setFld (Reg.LNK_PORT_STAT 4) Fld.LNK_PORT_STAT_DELAY (min 100 65535)).testLanes 4 (tests0 [0, 1, 2])
     b.portSt 4 = 1 ∧ 100 ≤ (if b.fld (Reg.LNK_PORT_CFG 4) Fld.LNK_PORT_CFG_CLASS = 0 then 500 else 5000) ∧ u.miswired 4 7 = false ∧
     u.firstMap 4 = 7 ∧ u.minLanes ≤ laneCount 7 ∧ laneCount (u.testLanes 4 [{ lane := 1, errs := [1001], eyeW := 9, berLog := 5 }] |>.firstMap 4) < u.minLanes) ∧
    (upTrain.tick 0).miswired 4 (0x0000000100000000 ||| (1 <<< 24)) = true ∧ (upPort 2 {}).portSt 4 ≠ 1 := by decide +kernel

theorem test_laneRemap : leads (.laneRemap 4 0x7FFF 200) (upPort 2 { mapNext := some (16, 0x7FFF) })
    (fun t => (t.port 4).laneMap == 0x7FFF && t.fld (Reg.LNK_PORT_STAT 4) Fld.LNK_PORT_STAT_LANES == 15) = true := by decide +kernel
theorem test_laneRemap_few : leads (.laneRemap 4 1 200) (upPort 2 { mapNext := some (16, 1) }) (fun t => t.portSt 4 == 3) = true := by decide +kernel
theorem test_frameAlignmentLoss : leads (.frameAlignmentLoss 4 0) (upPort 2 {}) (fun t => t.portSt 4 == 3) = true := by decide +kernel
theorem test_portRetrain : leads (.portRetrain 4 10000000) (upPort 3 {}) (fun t => t.portSt 4 == 1) = true := by decide +kernel
theorem test_trainingComplete : leads (.trainingComplete 4 (.aligned 7 100 (tests0 [0, 1, 2])) 0) upTrain
    (fun t => t.portSt 4 == 2 && (t.port 4).laneMap == 7 && t.fld (laneReg 4 1) Fld.LNK_LANE_MARGIN == 50) = true := by decide +kernel
theorem test_trainingComplete_far : leads (.trainingComplete 4 (.aligned 7 60000 []) 0) upTrain (fun t => t.portSt 4 == 5) = true := by decide +kernel

/-- TheTwinIsWatchedAndTakenOver: heartbeats in each state, lost peers, acknowledgements and pairings out of time. -/
theorem wit_twin :
    ((upPair 0 (msg0 4 0 [])).tick 0).twinSt = 0 ∧ ((upPair 2 (msg0 4 0 [])).tick 0).twinSt ≠ 0 ∧
    (let b := (upPair 2 (msg0 4 0 [])).tick 0
     0 ∈ b.present ∧ sliceRep (b.place 0).slice = true ∧ (b.place 0).change = none ∧ (b.place 0).removing = false ∧ b.twin.beatSent = 0 ∧ b.upPorts 3 = [4]) ∧
    (∀ st ∈ [1, 2, 3, 4],
      let b := (upPair st (msg0 4 0 [])).tick 100000000
      b.twinSt = st ∧ b.flag Reg.TWN_STAT Fld.TWN_STAT_TAKEOVER = false ∧ b.twin.lastBeat + b.hbLoss ≤ b.now ∧ b.alive 2 = true) ∧
    (let b := (upPair 2 (msg0 4 0 [])).tick 100000000
     b.twin.acked < b.twin.sentSeq ∧ b.twin.oldestAt + 100000 * max 1 (b.fld Reg.TWN_CFG Fld.TWN_CFG_ACK_WAIT) < b.now ∧
     (3, 1, entry0) ∈ b.twin.heldOut ∧ b.pairOn 0 1 = true) ∧
    (let b := (upPair 1 (msg0 4 0 [])).tick 1000000000
     b.twinSt = 1 ∧ b.twin.pairAt + 1000000000 ≤ b.now) := by decide +kernel
/-- PAIRED, with that record. -/
def upOver : State := { upPair 2 (msg0 4 0 []) with twin := { filed := [open20] } }
theorem wit_takeover :
    ((upOver.tick 100000000).ctx 20).st = .closed ∧
    (((upOver.tick 100000000).twin.filed.filter fun (r : JRec) => r.ctx == 20).find? fun r => r.kind == 1) = some open20 ∧
    (open20.ctx = 20 → open20.kind ≠ 2) := by decide +kernel

theorem test_heartbeat : leads (.heartbeat 0 2 true 0 0) (upPair 2 (msg0 4 0 [])) (fun t => (t.place 0).fenced && t.fld Reg.TWN_STAT Fld.TWN_STAT_PATHS == 1) = true := by
  decide +kernel
theorem test_heartbeatSend : leads (.heartbeatSend 0) (upPair 2 (msg0 4 0 [])) (fun t => (t.fabric.sent ++ (t.port 4).txWait).length == 1) = true := by decide +kernel
theorem test_peerLost : leads (.peerLost 100000000) upOver (fun t => (t.ctx 20).lenMax == 64 && t.fld Reg.TWN_CNT Fld.TWN_CNT_TAKEOVERS == 1) = true := by decide +kernel
theorem test_ackWaitExpiry : leads (.ackWaitExpiry 100000000) (upPair 2 (msg0 4 0 [])) (fun t => t.twinSt == 3 && t.twin.heldOut == []) = true := by decide +kernel
theorem test_pairingTimeout : leads (.pairingTimeout 1000000000) (upPair 1 (msg0 4 0 [])) (fun t => t.twinSt == 0) = true := by decide +kernel
/-! ## Witnesses: power, temperature, housekeeping, processors -/

/-- Quadrant 0 at OP3 with TARGET OP1, its voltage good, a raise requested at 0; placement 1's step works in quadrant 1. -/
def upOp : State :=
  put { upS with power := { raiseAt := [(0, 1), (1, 1)] } }
    [(Reg.POW_OP 0, Fld.POW_OP_CURRENT, 3), (Reg.POW_OP 0, Fld.POW_OP_TARGET, 1), (Reg.POW_OP 0, Fld.POW_OP_CEILING, 0), (Reg.POW_OP 0, Fld.POW_OP_VGOOD, 1),
     (Reg.POW_OP 1, Fld.POW_OP_CURRENT, 2), (Reg.POW_OP 2, Fld.POW_OP_CURRENT, 5), (Reg.POW_CAP, Fld.POW_CAP_HOST_CAP, 1200), (Reg.POW_CAP, Fld.POW_CAP_BMC_CAP, 2000),
     (Reg.POW_OP 3, Fld.POW_OP_VGOOD, 0)]

/-- OperatingPointsFollowTheCap: a raise at a boundary and none, droops in and out of time and at OP5, estimates over and under the cap, a cap missed. -/
theorem wit_points :
    (let u := upOp.tick 0
     tget 0 u.power.raiseAt 0 ≠ 0 ∧ u.flag (Reg.POW_OP 0) Fld.POW_OP_VGOOD = true ∧ u.atBoundary 0 = true ∧ u.opWant 0 < u.opNow 0 ∧
     tget 0 u.power.raiseAt 2 = 0 ∧ tget 0 u.power.droopAt 0 = 0 ∧ u.opNow 0 < 5 ∧ 5 ≤ u.opNow 2) ∧
    (let b := ({ upOp with power := { droopAt := [(0, 100)] } } : State).tick 120
     tget 0 b.power.droopAt 0 ≠ 0 ∧ b.now < 100 - 1 + cycles64 (b.opNow 0)) ∧
    (let b := upOp.tick 0
     min (capOf (b.fld Reg.POW_CAP Fld.POW_CAP_HOST_CAP)) (capOf (b.fld Reg.POW_CAP Fld.POW_CAP_BMC_CAP)) = 1200 ∧ b.alive 1 = true ∧
     (∀ q ∈ [0, 1, 2, 3], ([1200, 1200, 1300, 1250] : List Nat).getD q 0 ≤ 65535) ∧
     (([b.calibrated (1200 + 1200 + 1300 + 1250 + 240)] : List Int).take 4).sum > 4 * 1200 * 1 ∧ b.power.limitNext ≤ b.now) ∧
    (let b := ({ upOp with power := { missAt := some 0 } } : State).tick 1000000
     b.power.missAt = some 0 ∧ 0 + 1000000 ≤ b.now ∧ b.flag Reg.POW_STAT Fld.POW_STAT_CAP_FLOOR = false) := by decide +kernel
theorem wit_review :
    (let b := (put upOp [(Reg.POW_STAT, Fld.POW_STAT_CAP_EFF, 1200)]).tick 0
     b.alive 1 = true ∧ b.power.reviewAt = 0 ∧ b.power.windows = [] ∧ (b.power.reviewMax : Rat) / 4 ≤ 98 * (b.capQ : Rat) / 100) ∧
    (let b := ({ upOp with power := { reviewMax := 80000 } } : State).tick 0
     98 * (b.capQ : Rat) / 100 < (b.power.reviewMax : Rat) / 4) ∧
    (let b := ({ upOp with power := { reviewAt := 5 } } : State).tick 6
     b.power.reviewAt ≠ 0 ∧ b.now < b.power.reviewAt + 100000) ∧
    upOp.flag Reg.HKC_CFG Fld.HKC_CFG_QOWN = false ∧
    (put upOp [(Reg.HKC_CFG, Fld.HKC_CFG_QOWN, 1)]).flag Reg.HKC_CFG Fld.HKC_CFG_QOWN = true := by decide +kernel

theorem test_operatingPointBoundary : leads (.operatingPointBoundary 0 0) upOp
    (fun t => t.opNow 0 == 1 && t.fld (Reg.POW_QCNT 0) Fld.POW_QCNT_RAISES == 1) = true := by decide +kernel
theorem test_vgood : leads (.vgood 3 0) upOp (fun t => t.flag (Reg.POW_OP 3) Fld.POW_OP_VGOOD) = true := by decide +kernel
theorem test_droop : leads (.droop 0 0) upOp (fun t => t.opNow 0 == 4 && t.opTarget 0 == 1 && t.fld (Reg.POW_QCNT 0) Fld.POW_QCNT_DROOP == 1) = true := by
  decide +kernel
theorem test_droop_floor : leads (.droop 2 0) upOp
    (fun t => t.opNow 2 == 5 && t.fld (Reg.POW_QCNT 2) Fld.POW_QCNT_DROOP_FLOOR == 1 && (t.faultLog.entries.map FEntry.code) == [0x0503]) = true := by decide +kernel
theorem test_fastLimiter : leads (.fastLimiter 0 [1200, 1300, 1400, 1250]) upOp
    (fun t => t.fld Reg.POW_STAT Fld.POW_STAT_CAP_EFF == 1200 && t.qest 1 == 1300 && t.fld (Reg.POW_QCNT 1) Fld.POW_QCNT_LIMIT == 1) = true := by decide +kernel
theorem test_capFloor : leads (.capFloor 1000000) { upOp with power := { missAt := some 0 } }
    (fun t => t.flag Reg.POW_STAT Fld.POW_STAT_CAP_FLOOR && t.fld Reg.POW_CNT Fld.POW_CNT_CAP_MISS == 1) = true := by decide +kernel

/-- A powered module with conditions of R436 active, the governor released long ago, and a RIDGE window of quadrant 0. -/
def upCond (rows : List Nat) : State :=
  put { upS with power := { active := rows, ceil := [(4, 3), (5, 3), (6, 3), (7, 3)], windows := [⟨[0], 0, 20000, 50000, 0⟩] } } [(Reg.POW_STAT, Fld.POW_STAT_GOV, 0)]
theorem wit_emergencies :
    ((upCond [0]).tick 0).powered = true ∧ ((upCond [0]).tick 0).rowHolds 0 = true ∧ ((upCond [0]).tick 0).rowHolds 2 = true ∧
    ({ upCond [] with power := { over5 := 1 } } : State).rowHolds 3 = false ∧ ({ upCond [] with power := { over10 := 2 } } : State).rowHolds 4 = true ∧
    rowLevel 2 = 3 ∧ rowLevel 0 ≠ 3 ∧ rowLevel 1 = 2 ∧ ((upCond [0]).tick 0).power.active.contains 0 = true ∧
    ((upCond [0]).tick 0).power.active.contains 1 = false ∧ State.reset.powered = false ∧
    (∀ e ∈ upS.flash.mapRec.getD [], e.1 ≠ Reg.CLK_START.key) ∧
    (let b := (upCond [1]).tick 1000000
     tget 0 b.power.ceil 4 = 3 ∧ b.flag Reg.POW_STAT Fld.POW_STAT_GOV = false ∧ b.power.govStep + 1000000 ≤ b.now) ∧
    (let b := (upCond []).tick 0
     b.alive 1 = true ∧ ({ b with power := { b.power with ceil := [] } } : State).critCeil 0 = false ∧
     ⟨[0], 0, 20000, 50000, 0⟩ ∈ b.power.windows ∧ b.now < 50000) := by decide +kernel

theorem test_powerEmergency : leads (.powerEmergency 1 2500 0) (upCond [])
    (fun t => t.power.active == [1] && t.fld Reg.POW_STAT Fld.POW_STAT_EMERG == 2 && t.opCeil 3 == 3 && (t.faultLog.entries.map FEntry.code) == [0x0501]) = true := by
  decide +kernel
theorem test_powerEmergency_trip : leads (.powerEmergency 2 2500 0) (upCond []) (fun t => t.phase == 0 && t.power.tripCause == some (2, 2500) && t.ctxs == []) = true := by
  decide +kernel
theorem test_criticalRelease : leads (.criticalRelease 1 0) (upCond [1]) (fun t => t.power.active == [] && t.fld Reg.POW_STAT Fld.POW_STAT_EMERG == 0) = true := by
  decide +kernel
theorem test_governorRelease : leads (.governorRelease 1000000) (upCond []) (fun t => tget 0 t.power.ceil 4 == 2) = true := by decide +kernel
theorem test_ridgeWindow : leads (.ridgeWindow 0) { upCond [] with power := { windows := [⟨[0], 0, 20000, 50000, 0⟩] } }
    (fun t => t.flag (Reg.POW_OP 0) Fld.POW_OP_BOOST && !(t.flag (Reg.POW_OP 1) Fld.POW_OP_BOOST)) = true := by decide +kernel

/-- TemperaturesRaiseConditions: the coolant region in range and above its limit, a stack region at 96 C and at the Trip temperature. -/
theorem wit_thermal :
    ((upCond []).tick 0).powered = true ∧
    (let b := (upCond []).tick 0
     let u := b.each ((List.range (sensorsOf 8)).zip (List.replicate 8 1536)) (fun s (x : Nat × Int) => s.readSensor 8 x.1 x.2)
     u.regionMax 8 = 1536 ∧ 0 ∈ condRows 8 ∧ b.condHolds 0 1536 none = true) ∧
    (let b := (upCond []).tick 0
     let u := b.each ((List.range (sensorsOf 8)).zip (List.replicate 8 1840)) (fun s (x : Nat × Int) => s.readSensor 8 x.1 x.2)
     1840 ≤ u.regionMax 8) ∧
    (let s : State := { upCond [] with therm := { conds := [{ region := 8, quad := 0, row := 0, level := 1, demand := 2, stepAt := 0, ended := true }] } }
     (s.tick 1000000).therm.conds.all (fun c => c.region == 8 && c.ended && decide (c.stepAt + 1000000 ≤ (s.tick 1000000).now)) = true) := by decide +kernel

theorem test_thermalSample : leads (.thermalSample 8 (List.replicate 8 1536) 0) (upCond [])
    (fun t => t.condOn 8 0 && t.fld (Reg.THM_REGION 8) Fld.THM_REGION_TMAX == 1536 && t.fld Reg.THM_STAT Fld.THM_STAT_EMERG == 1) = true := by decide +kernel
theorem test_thermalSample_trip : leads (.thermalSample 8 (List.replicate 8 1840) 0) (upCond []) (fun t => t.therm.tripped && t.therm.lastTrip == 8) = true := by
  decide +kernel
theorem test_demandRelease : leads (.demandRelease 8 1000000)
    { upCond [] with therm := { conds := [{ region := 8, quad := 0, row := 0, level := 1, demand := 2, stepAt := 0, ended := true }] } }
    (fun t => t.therm.conds.map Cond.demand == [1]) = true := by decide +kernel

/-- The sequencer runs; entry 3 names pair 2, which is free or busy with one repeat left; one result waits. -/
def upHkc (busy : Tbl HPair) : State :=
  put { upS with hkc := { queue := [⟨0x123456789ABCDEF0⟩], busy := busy } }
    [(Reg.HKC_CFG, Fld.HKC_CFG_RUN, 1), (Reg.HKC_CFG, Fld.HKC_CFG_QOWN, 1), (Reg.HKC_STAT, Fld.HKC_STAT_CURSOR, 3), (Reg.HKC_CHTBL 3, Fld.HKC_CHTBL_PAIR, 2),
     (Reg.HKC_CHTBL 3, Fld.HKC_CHTBL_CH_V, 4), (Reg.HKC_CHTBL 3, Fld.HKC_CHTBL_DELAY, 7)]
theorem wit_converters :
    (upHkc []).hostUp = true ∧ (upHkc []).flag Reg.HKC_CFG Fld.HKC_CFG_QOWN = true ∧ (upHkc []).decodes 0 = true ∧ upS.hkc.queue = [] ∧
    (let b := (upHkc []).tick 0
     b.flag Reg.HKC_CFG Fld.HKC_CFG_RUN = true ∧ b.nextEntry 128 (b.fld Reg.HKC_STAT Fld.HKC_STAT_CURSOR) = some 3 ∧
     b.fld (Reg.HKC_CHTBL 3) Fld.HKC_CHTBL_PAIR = 2 ∧ b.hkc.nextAt ≤ b.now ∧ (tkeys b.hkc.busy).contains 2 = false ∧ tget 0 b.hkc.calLeft 2 = 0 ∧
     tget 0 b.hkc.calLeft 0 = 0) ∧
    (upS.tick 0).flag Reg.HKC_CFG Fld.HKC_CFG_RUN = false ∧
    (let b := (upHkc [(2, ⟨3, 4, 5, 1, 0⟩)]).tick 0
     tget 0 b.hkc.calLeft 2 = 0 ∧ (tkeys b.hkc.busy).contains 2 = true ∧ tget ⟨0, 0, 0, 0, 0⟩ b.hkc.busy 2 = ⟨3, 4, 5, 1, 0⟩ ∧ b.hkc.queue.length < 255) ∧
    (tget 0 ({ upS with hkc := { calLeft := [(2, 2)] } } : State).hkc.calLeft 2 ≠ 0) ∧
    (let b := upS.tick 5000000
     refSel b.hkc.cfgNow = 0 ∧ b.hkc.refAt + 5000000 ≤ b.now ∧ (upS.tick 4999999).now < b.hkc.refAt + 5000000) := by decide +kernel

theorem test_qread : leads (.qread 0 .low) (upHkc []) (fun t => t.out == leBytes 4 0x9ABCDEF0 && t.hkc.queue == []) = true := by decide +kernel
theorem test_sequencerEntry : leads (.sequencerEntry 0) (upHkc [])
    (fun t => t.hkc.busy == [(2, ⟨3, 4, 0, 0, 0⟩)] && t.hkc.nextAt == 7000 && t.fld Reg.HKC_STAT Fld.HKC_STAT_CURSOR == 4) = true := by decide +kernel
theorem test_integrationPeriodEnd : leads (.integrationPeriodEnd 2 1000 2000 0 0) (upHkc [(2, ⟨3, 4, 5, 1, 0⟩)])
    (fun t => t.hkc.queue.length == 3 && t.hkc.busy == [(2, ⟨3, 4, 5, 0, 1⟩)] && t.fld Reg.HKC_STAT Fld.HKC_STAT_QLEVEL == 3) = true := by decide +kernel
theorem test_refSettled : leads (.refSettled 5000000) (put upS [(Reg.HKC_STAT, Fld.HKC_STAT_REF_SETTLED, 0)]) (fun t => t.flag Reg.HKC_STAT Fld.HKC_STAT_REF_SETTLED) = true := by
  decide +kernel

/-- Processor 1 is down; an activation's processors have been released with bank 1 to become active. -/
def upProc (ph : Nat) (ptr : Nat := 0) : State :=
  put { upS with fw := if ph = 3 then { phase := 3, act := some (3, 1) } else { flashPtr := ptr }, faultLog := { dirtyAt := some 0 }, clk := { running := true, mapDirty := some 0 } }
    [(Reg.FWP_PROC 1, Fld.FWP_PROC_ALIVE, 0)]
theorem wit_processors :
    (let b := (upProc 0).tick 0
     9 ≤ b.phase ∧ b.fw.phase < 3 ∧ b.alive 1 = false ∧ b.recovery = false ∧ b.fld (Reg.FWP_PROC 1) Fld.FWP_PROC_LAST_CAUSE ≠ 3 ∧ (b.proc 1).queue = [] ∧
     b.alive 0 = true ∧ b.faultLog.dirtyAt.isNone = false ∧ b.clk.mapDirty.isNone = false ∧ b.pcp 0 = true ∧ State.reset.phase < 9 ∧
     b.flashMay 0 = true ∧ b.flashMay 1 = false ∧ ((upProc 0 1).tick 0).flashMay 1 = true ∧ ((upProc 0 1).tick 0).flashMay 0 = false ∧
     ((upProc 0 1).tick 0).flashMay 2 = false ∧ ((upProc 0 2).tick 0).flashMay 2 = true) ∧
    (let b := ({ upLas 0 200 with fw := { flashPtr := 2, hoursAt := [(0, 5)] } } : State).tick 0
     b.pcp 0 = true ∧ b.flashMay 2 = true ∧ tget 0 b.fw.hoursAt 0 = 5 ∧ b.now < 5 - 1 + 3600000000000 ∧ tget 0 b.fw.hoursAt 1 = 0) ∧
    (let b := (upProc 3).tick 30000000
     b.fw.phase = 3 ∧ b.allAlive = false ∧ b.fw.releasedAt + 30000000 ≤ b.now ∧ b.fw.act = some (3, 1) ∧
     (∀ k ∈ [0, 2, 3, 4, 5, 6, 7], b.alive k = true)) ∧
    laserOk 4 = true ∧ lasQuad 4 = 0 ∧ (upLas 0 200).lasSt 4 = 4 ∧ lasQuad 300 ≠ 0 := by decide +kernel

theorem test_watchdog : leads (.watchdog 2 .watchdog 0) (upProc 0)
    (fun t => !(t.alive 2) && t.fld (Reg.FWP_PROC 2) Fld.FWP_PROC_RESTARTS == 1 && (t.faultLog.entries.map FEntry.code) == [0x0701]) = true := by decide +kernel
theorem test_alive : leads (.alive 1 0) (upProc 0) (fun t => t.alive 1) = true := by decide +kernel
theorem test_alive_activation : leads (.alive 1 0) (upProc 3) (fun t => t.fw.act.isNone && t.flash.active == 1) = true := by decide +kernel
theorem test_activationTimeout : leads (.activationTimeout 30000000) (upProc 3) (fun t => t.fw.phase == 4 && !(t.alive 0)) = true := by decide +kernel
theorem test_faultLogFlush : leads (.faultLogFlush 0) (upProc 0) (fun t => t.faultLog.seq == 1 && t.flash.flog.isSome && t.faultLog.dirtyAt.isNone) = true := by decide +kernel
theorem test_mapRecordWrite : leads (.mapRecordWrite 0) (upProc 0 1) (fun t => t.flash.mapRec.isSome && t.clk.mapDirty.isNone) = true := by decide +kernel
theorem test_lifetimeCounterWrite : leads (.lifetimeCounterWrite 0 0) (upLas 0 200)
    (fun t => t.fld (Reg.LAS_STAT 4) Fld.LAS_STAT_HOURS == 1 && tget 0 t.flash.hours 4 == 1) = true := by decide +kernel
end Sys2Proof.Tests
end

section
/-! PROOFS. Doorbells (R286 to R288): what a write of SQ_DB or CQ_DB does when it is accepted and when it is refused. -/

namespace Sys2Proof.Machine

/-! ## Writes that reach the module -/

/-- A write of a function that decodes its BARs acts on a module whose host link is up (R554, R573). -/
theorem reached_of_hostWrites {s : State} {fn : Nat} {f : State → State} (h : s.hostWrites fn) : s.reached fn f = f s := by
  obtain ⟨hup, hdec⟩ := h
  simp [State.reached, State.hostAccess, hup, hdec]

theorem exec_sqDb_of_hostWrites {s : State} {fn ring : Nat} {v : BitVec 32} (hr : ring < 17) (h : s.hostWrites fn) :
    exec (.sqDb fn ring v) s = .next (s.writeSqDb fn ring v.toNat) := by
  show execSqDb fn ring v s = _
  simp [execSqDb, onObject, hr, reached_of_hostWrites h]

theorem exec_cqDb_of_hostWrites {s : State} {fn ring : Nat} {v : BitVec 32} (hr : ring < 17) (h : s.hostWrites fn) :
    exec (.cqDb fn ring v) s = .next (s.writeCqDb fn ring v.toNat) := by
  show execCqDb fn ring v s = _
  simp [execCqDb, onObject, hr, reached_of_hostWrites h]

/-! ## The rules of R287 and R288 -/

/-- An enabled pair accepts `tail` at SQ_DB: it does not move backwards, and TAIL - SQ_HEAD is at most the ring size. -/
def State.sqDbAccepts (s : State) (f r tail : Nat) : Prop :=
  s.pairOn f r = true ∧
    diff32 (s.fld (Reg.SCH_SQ_DB f r) Fld.SCH_SQ_DB_SQ_TAIL) (s.fld (Reg.SCH_RING_IDX f r) Fld.SCH_RING_IDX_SQ_HEAD) ≤
      diff32 tail (s.fld (Reg.SCH_RING_IDX f r) Fld.SCH_RING_IDX_SQ_HEAD) ∧
    diff32 tail (s.fld (Reg.SCH_RING_IDX f r) Fld.SCH_RING_IDX_SQ_HEAD) ≤ 2 ^ s.fld (Reg.SCH_RING_CFG f r) Fld.SCH_RING_CFG_SQ_LOG2

/-- An enabled pair accepts `head` at CQ_DB: it does not move backwards and is not beyond CQ_TAIL. -/
def State.cqDbAccepts (s : State) (f r head : Nat) : Prop :=
  s.pairOn f r = true ∧
    diff32 head (s.fld (Reg.SCH_CQ_DB f r) Fld.SCH_CQ_DB_CQ_HEAD) ≤
      diff32 (s.fld (Reg.SCH_RING_IDX f r) Fld.SCH_RING_IDX_CQ_TAIL) (s.fld (Reg.SCH_CQ_DB f r) Fld.SCH_CQ_DB_CQ_HEAD)

theorem writeSqDb_of_accepts {s : State} {f r tail : Nat} (h : s.sqDbAccepts f r tail) :
    s.writeSqDb f r tail = s.setFld (Reg.SCH_SQ_DB f r) Fld.SCH_SQ_DB_SQ_TAIL tail := by
  obtain ⟨hon, hback, hsize⟩ := h
  simp [State.writeSqDb, hon, hback, hsize]

theorem writeSqDb_of_not_accepts {s : State} {f r tail : Nat} (h : ¬s.sqDbAccepts f r tail) :
    s.writeSqDb f r tail = s.badDoorbell f r (0xD8108 + 0x20 * r) := by
  refine if_neg fun hc => h ?_
  simpa [State.sqDbAccepts, and_assoc] using hc

theorem writeCqDb_of_accepts {s : State} {f r head : Nat} (h : s.cqDbAccepts f r head) :
    s.writeCqDb f r head = s.setFld (Reg.SCH_CQ_DB f r) Fld.SCH_CQ_DB_CQ_HEAD head := by
  obtain ⟨hon, hback⟩ := h
  simp [State.writeCqDb, hon, hback]

theorem writeCqDb_of_not_accepts {s : State} {f r head : Nat} (h : ¬s.cqDbAccepts f r head) :
    s.writeCqDb f r head = s.badDoorbell f r (0xD810C + 0x20 * r) := by
  refine if_neg fun hc => h ?_
  simpa [State.cqDbAccepts] using hc

/-! ## A doorbell accepted -/

/-- A field written with a value that fits reads it back, and nothing else changes. -/
theorem setFld_moves {s : State} {r : RegRef} {f : Field} {x : Nat} (hf : f.lo + f.w ≤ 64) (hx : x < 2 ^ f.w) :
    (s.setFld r f x).fld r f = x ∧ s.setFld r f x = { s with regs := (s.setFld r f x).regs } ∧
      s.fieldsBut (s.setFld r f x) [(r, f)] :=
  ⟨by rw [State.fld_setFld_self hf, Nat.mod_eq_of_lt hx], rfl, fieldsBut_setFld (by simp)⟩

/-! ## A doorbell refused -/

@[simp] theorem violate_now {s : State} {p a source : Nat} {phys value : Bool} : (s.violate p a source phys value).now = s.now := by
  rw [violate_logs.2.2]

@[simp] theorem violate_pairs {s : State} {p a source : Nat} {phys value : Bool} : (s.violate p a source phys value).pairs = s.pairs := by
  rw [violate_logs.2.2]

@[simp] theorem violate_pair {s : State} {p a source f r : Nat} {phys value : Bool} :
    (s.violate p a source phys value).pair f r = s.pair f r := by
  simp only [State.pair, violate_pairs]

/-- A violation counts in SCH.FN_STAT alone, so a function's pairs stay enabled or off. -/
@[simp] theorem violate_pairOn {s : State} {p a source r : Nat} {phys value : Bool} :
    (s.violate p a source phys value).pairOn p r = s.pairOn p r := by
  obtain ⟨-, hfields, -⟩ := violate_logs (s := s) (p := p) (a := a) (source := source) (phys := phys) (value := value)
  refine congrArg (· == 1) (hfields (Reg.SCH_RING_CFG p r) Fld.SCH_RING_CFG_EN fun x hx hkey => ?_)
  have hstat : x.1 = Reg.SCH_FN_STAT p := by
    simp only [List.mem_cons, List.not_mem_nil, or_false] at hx
    rcases hx with rfl | rfl <;> rfl
  rw [hstat] at hkey
  simp only [Reg.SCH_FN_STAT, Reg.SCH_RING_CFG] at hkey
  omega

/-- The VIOLATION reply of a refused doorbell (R288), as it waits for the completion ring. -/
def doorbellReply (r off since : Nat) : Out :=
  { bytes := replyBytes 0 stViolation 0xFF r 0 0 off, isReply := true, final := false, irq := true, since := since }

theorem badDoorbell_of_on {s : State} {f r off : Nat} (hon : s.pairOn f r = true) :
    s.badDoorbell f r off =
      (s.violate f off 2 false false).setPair f r { s.pair f r with out := (s.pair f r).out ++ [doorbellReply r off s.now] } := by
  simp [State.badDoorbell, post_eq, hon, doorbellReply]

theorem badDoorbell_of_off {s : State} {f r off : Nat} (hoff : s.pairOn f r = false) :
    s.badDoorbell f r off = s.violate f off 2 false false := by
  simp [State.badDoorbell, hoff]

/-- A refused doorbell leaves the registers and logs of its violation, and adds its reply to an enabled pair. -/
theorem badDoorbell_eq {s : State} {f r off : Nat} :
    s.badDoorbell f r off = { s.violate f off 2 false false with pairs := (s.badDoorbell f r off).pairs } ∧
      ((s.badDoorbell f r off).pair f r).out =
        (s.pair f r).out ++ (if s.pairOn f r then [doorbellReply r off s.now] else []) := by
  cases hon : s.pairOn f r with
  | true => rw [badDoorbell_of_on hon]; exact ⟨rfl, by simp⟩
  | false => rw [badDoorbell_of_off hon]; exact ⟨rfl, by simp⟩

/-- What a doorbell that is not accepted does (R286, R288). -/
theorem badDoorbell_outcome {s : State} {f r off : Nat} (hoff : off < 2 ^ 48) :
    s.logsViolation (s.badDoorbell f r off) ⟨s.time, off, 2, f, false, false⟩ ∧
      ((s.badDoorbell f r off).pair f r).out =
        (s.pair f r).out ++ (if s.pairOn f r then [doorbellReply r off s.now] else []) ∧
      s.fieldsBut (s.badDoorbell f r off) [(Reg.SCH_FN_STAT f, Fld.SCH_FN_STAT_VIOL), (Reg.SCH_FN_STAT f, Fld.SCH_FN_STAT_LOST)] ∧
      s.badDoorbell f r off =
        { s with regs := (s.badDoorbell f r off).regs, pairs := (s.badDoorbell f r off).pairs,
                 parts := (s.badDoorbell f r off).parts, globalLog := (s.badDoorbell f r off).globalLog,
                 pcie := (s.badDoorbell f r off).pcie } := by
  obtain ⟨honly, hout⟩ := badDoorbell_eq (s := s) (f := f) (r := r) (off := off)
  obtain ⟨hlogs, hfields, hframe⟩ :=
    violate_logs (s := s) (p := f) (a := off) (source := 2) (phys := false) (value := false)
  rw [Nat.mod_eq_of_lt hoff] at hlogs
  refine ⟨?_, hout, ?_, ?_⟩
  · rw [honly]; exact hlogs
  · rw [honly]; exact hfields
  · generalize s.badDoorbell f r off = t at honly ⊢
    rw [honly, hframe]

end Sys2Proof.Machine

namespace Sys2Proof
open Machine

/-- Settles O9: an accepted doorbell is one field written, a refused one is a violation with, on an enabled pair, its reply. -/
theorem doorbellsMoveTheirIndexOrAreLogged : Obligations.DoorbellsMoveTheirIndexOrAreLogged := by
  unfold Obligations.DoorbellsMoveTheirIndexOrAreLogged
  refine ⟨fun s fn ring v hr hup hdec hon => ⟨fun hback hsize => ?_, fun hback => ?_⟩, fun s fn ring v hr hup hdec c off hc => ?_⟩
  · exact ⟨_, (exec_sqDb_of_hostWrites hr ⟨hup, hdec⟩).trans (congrArg _ (writeSqDb_of_accepts ⟨hon, hback, hsize⟩)),
      setFld_moves (by decide) v.isLt⟩
  · exact ⟨_, (exec_cqDb_of_hostWrites hr ⟨hup, hdec⟩).trans (congrArg _ (writeCqDb_of_accepts ⟨hon, hback⟩)),
      setFld_moves (by decide) v.isLt⟩
  · have hexec : exec c s = .next (s.badDoorbell fn ring off) := by
      rcases hc with ⟨rfl, rfl, hna⟩ | ⟨rfl, rfl, hna⟩
      · rw [exec_sqDb_of_hostWrites hr ⟨hup, hdec⟩, writeSqDb_of_not_accepts hna]
      · rw [exec_cqDb_of_hostWrites hr ⟨hup, hdec⟩, writeCqDb_of_not_accepts hna]
    have hoff : off < 2 ^ 48 := by
      rcases hc with ⟨-, rfl, -⟩ | ⟨-, rfl, -⟩ <;> omega
    exact ⟨_, hexec, badDoorbell_outcome hoff⟩

end Sys2Proof
end

section
/-! PROOFS. The result queue of the housekeeping converters (R442): what a result that arrives does to it, and what a read of HKC.QREAD by its
consumer and by anyone else does. -/

namespace Sys2Proof.Machine

/-! ## A result arrives -/

/-- Nothing but registers and the converters' own data differs in `t`. -/
def State.hkcOnly (s t : State) : Prop := t = { s with regs := t.regs, hkc := t.hkc }

theorem hkcOnly_trans {s t u : State} (h : s.hkcOnly t) (g : t.hkcOnly u) : s.hkcOnly u := by
  unfold State.hkcOnly at h
  exact g.trans (by rw [h])

theorem hkcOnly_bump {s : State} {r : RegRef} {f : Field} : s.hkcOnly (s.bump r f) := by
  unfold State.bump State.bumpBy
  split <;> rfl

/-- The results `rs` arrive at the queue, in order: those that fit in its 256 entries stand at its end, the others are counted, and SEQ runs on.
Beside the converters' own data only their registers change, and REF_SETTLED is not one of the fields that do. -/
structure State.takesResults (s t : State) (rs : List HRes) : Prop where
  queue   : t.hkc.queue = s.hkc.queue ++ rs.take (256 - s.hkc.queue.length)
  dropped : s.counted t Reg.HKC_CNT Fld.HKC_CNT_QOVF (rs.length - (256 - s.hkc.queue.length))
  seq     : t.hkc.seq = (s.hkc.seq + rs.length) % 65536
  level   : t.fld Reg.HKC_STAT Fld.HKC_STAT_QLEVEL =
    if t.hkc.queue.length ≤ s.hkc.queue.length then s.fld Reg.HKC_STAT Fld.HKC_STAT_QLEVEL else t.hkc.queue.length
  settled : t.flag Reg.HKC_STAT Fld.HKC_STAT_REF_SETTLED = s.flag Reg.HKC_STAT Fld.HKC_STAT_REF_SETTLED
  hkc     : t.hkc = { s.hkc with queue := t.hkc.queue, seq := t.hkc.seq }
  frame   : s.hkcOnly t

theorem State.takesResults.length {s t : State} {rs : List HRes} (h : s.takesResults t rs) :
    t.hkc.queue.length = s.hkc.queue.length + min (256 - s.hkc.queue.length) rs.length := by
  rw [h.queue, List.length_append, List.length_take]

/-- Results that arrive one after another arrive as one list. -/
theorem State.takesResults.trans {s t u : State} {rs qs : List HRes} (h : s.takesResults t rs) (g : t.takesResults u qs) :
    s.takesResults u (rs ++ qs) := by
  have hlen := h.length
  have glen := g.length
  refine ⟨?_, ?_, ?_, ?_, g.settled.trans h.settled, ?_, ?_⟩
  · have hroom : 256 - t.hkc.queue.length = 256 - s.hkc.queue.length - rs.length := by omega
    rw [g.queue, hroom, h.queue, List.append_assoc, ← List.take_append]
  · have hd := h.dropped
    have gd := g.dropped
    simp only [State.counted, List.length_append] at hd gd ⊢
    omega
  · have hs := h.seq
    have gs := g.seq
    rw [gs, hs, List.length_append, Nat.mod_add_mod, Nat.add_assoc]
  · rw [g.level, h.level]
    split_ifs <;> omega
  · rw [g.hkc, h.hkc]
  · exact hkcOnly_trans h.frame g.frame

@[simp] theorem fld_setQueue_level {s : State} {q : List HRes} :
    (s.setQueue q).fld Reg.HKC_STAT Fld.HKC_STAT_QLEVEL = q.length % 512 := State.fld_setFld_self (by decide)

@[simp] theorem setQueue_hkc {s : State} {q : List HRes} : (s.setQueue q).hkc = { s.hkc with queue := q } := rfl

theorem hkcOnly_setQueue {s : State} {q : List HRes} : s.hkcOnly (s.setQueue q) := rfl

theorem fieldsBut_setQueue {s : State} {q : List HRes} : s.fieldsBut (s.setQueue q) [(Reg.HKC_STAT, Fld.HKC_STAT_QLEVEL)] :=
  fieldsBut_trans (t := { s with hkc := { s.hkc with queue := q } }) (fieldsBut_of_regs rfl) (fieldsBut_setFld (by simp))

/-- The result that the converters make of a code, with SEQ and the reference as they stand. -/
def State.result (s : State) (code : Int) (ch : Nat) (current : Bool) (conv entry rep : Nat) : HRes :=
  ⟨resultWord (if channelReserved current ch then 0 else codeClamp code) ch current conv entry rep
    (channelReserved current ch || codeOver (codeClamp code)) (!(s.flag Reg.HKC_STAT Fld.HKC_STAT_REF_SETTLED)) s.hkc.seq⟩

/-- SEQ runs on by one result. -/
def State.nextSeq (s : State) : State := { s with hkc := { s.hkc with seq := (s.hkc.seq + 1) % 65536 } }

/-- The state in which a result has its number and is counted by its flags, and has not yet entered the queue. -/
def State.numbered (s : State) (unset ovr : Bool) : State :=
  (s.nextSeq.when unset fun s => s.bump Reg.HKC_CNT Fld.HKC_CNT_UNSETTLED).when ovr fun s => s.bump Reg.HKC_CNT Fld.HKC_CNT_OVERRANGE

theorem fieldsBut_nextSeq {s : State} {l : List (RegRef × Field)} : s.fieldsBut s.nextSeq l := fieldsBut_of_regs rfl

theorem hkcOnly_nextSeq {s : State} : s.hkcOnly s.nextSeq := rfl

theorem fieldsBut_when_bump {s : State} {b : Bool} {r : RegRef} {f : Field} {l : List (RegRef × Field)} (hl : (r, f) ∈ l) :
    s.fieldsBut (s.when b fun s => s.bump r f) l := by
  cases b
  · exact fieldsBut_refl
  · exact fieldsBut_bump hl

theorem hkcOnly_when_bump {s : State} {b : Bool} {r : RegRef} {f : Field} : s.hkcOnly (s.when b fun s => s.bump r f) := by
  cases b
  · exact rfl
  · exact hkcOnly_bump

@[simp] theorem when_bump_hkc {s : State} {b : Bool} {r : RegRef} {f : Field} : (s.when b fun s => s.bump r f).hkc = s.hkc := by
  cases b
  · rfl
  · exact State.bump_hkc

theorem fieldsBut_numbered {s : State} {unset ovr : Bool} :
    s.fieldsBut (s.numbered unset ovr) [(Reg.HKC_CNT, Fld.HKC_CNT_UNSETTLED), (Reg.HKC_CNT, Fld.HKC_CNT_OVERRANGE)] :=
  fieldsBut_trans (fieldsBut_trans fieldsBut_nextSeq (fieldsBut_when_bump (by simp))) (fieldsBut_when_bump (by simp))

theorem hkcOnly_numbered {s : State} {unset ovr : Bool} : s.hkcOnly (s.numbered unset ovr) :=
  hkcOnly_trans (hkcOnly_trans hkcOnly_nextSeq hkcOnly_when_bump) hkcOnly_when_bump

@[simp] theorem numbered_hkc {s : State} {unset ovr : Bool} :
    (s.numbered unset ovr).hkc = { s.hkc with seq := (s.hkc.seq + 1) % 65536 } := by
  unfold State.numbered
  rw [when_bump_hkc, when_bump_hkc]
  rfl

theorem result_eq {s : State} {code : Int} {ch conv entry rep : Nat} {current : Bool} :
    s.result code ch current conv entry rep =
      ⟨resultWord (if channelReserved current ch then 0 else codeClamp code) ch current conv entry rep
        (channelReserved current ch || codeOver (if channelReserved current ch then 0 else codeClamp code))
        (!(s.flag Reg.HKC_STAT Fld.HKC_STAT_REF_SETTLED)) s.hkc.seq⟩ := by
  unfold State.result
  cases channelReserved current ch <;> rfl

/-- A result enters a queue with room; on a full one it is counted. -/
theorem pushResult_eq (s : State) (code : Int) (ch : Nat) (current : Bool) (conv entry rep : Nat) :
    ∃ unset ovr, s.pushResult code ch current conv entry rep =
      if s.hkc.queue.length < 256 then (s.numbered unset ovr).setQueue (s.hkc.queue ++ [s.result code ch current conv entry rep])
      else (s.numbered unset ovr).bump Reg.HKC_CNT Fld.HKC_CNT_QOVF := by
  refine ⟨!(s.flag Reg.HKC_STAT Fld.HKC_STAT_REF_SETTLED),
    channelReserved current ch || codeOver (if channelReserved current ch then 0 else codeClamp code), ?_⟩
  rw [result_eq]
  generalize hn : s.numbered _ _ = n
  have hq : n.hkc.queue = s.hkc.queue := by rw [← hn, numbered_hkc]
  rw [← hq, ← hn]
  rfl

/-- A numbered result has touched neither QLEVEL, QOVF nor REF_SETTLED. -/
theorem numbered_fld (s : State) (unset ovr : Bool) :
    (s.numbered unset ovr).fld Reg.HKC_STAT Fld.HKC_STAT_QLEVEL = s.fld Reg.HKC_STAT Fld.HKC_STAT_QLEVEL ∧
      (s.numbered unset ovr).fld Reg.HKC_CNT Fld.HKC_CNT_QOVF = s.fld Reg.HKC_CNT Fld.HKC_CNT_QOVF ∧
      (s.numbered unset ovr).fld Reg.HKC_STAT Fld.HKC_STAT_REF_SETTLED = s.fld Reg.HKC_STAT Fld.HKC_STAT_REF_SETTLED :=
  ⟨fieldsBut_numbered _ _ (by decide), fieldsBut_numbered _ _ (by decide), fieldsBut_numbered _ _ (by decide)⟩

theorem takesResults_of_room {s : State} {unset ovr : Bool} {r : HRes} (hroom : s.hkc.queue.length < 256) :
    s.takesResults ((s.numbered unset ovr).setQueue (s.hkc.queue ++ [r])) [r] := by
  obtain ⟨-, hqovf, hsettled⟩ := numbered_fld s unset ovr
  have hkc : ((s.numbered unset ovr).setQueue (s.hkc.queue ++ [r])).hkc =
      { s.hkc with queue := s.hkc.queue ++ [r], seq := (s.hkc.seq + 1) % 65536 } := by
    rw [setQueue_hkc, numbered_hkc]
  refine ⟨?_, ?_, ?_, ?_, ?_, ?_, hkcOnly_trans hkcOnly_numbered hkcOnly_setQueue⟩
  · rw [hkc, List.take_of_length_le (by rw [List.length_singleton]; omega)]
  · have hlt := State.fld_lt (s := s) (r := Reg.HKC_CNT) (f := Fld.HKC_CNT_QOVF)
    rw [State.counted, fieldsBut_setQueue _ _ (by decide), hqovf, List.length_singleton]
    omega
  · rw [hkc, List.length_singleton]
  · rw [hkc, fld_setQueue_level, List.length_append, List.length_singleton, if_neg (by omega)]
    omega
  · rw [State.flag, fieldsBut_setQueue _ _ (by decide), hsettled, State.flag]
  · rw [hkc]

theorem takesResults_of_full {s : State} {unset ovr : Bool} {r : HRes} (hfull : 256 ≤ s.hkc.queue.length) :
    s.takesResults ((s.numbered unset ovr).bump Reg.HKC_CNT Fld.HKC_CNT_QOVF) [r] := by
  obtain ⟨hlevel, hqovf, hsettled⟩ := numbered_fld s unset ovr
  have hkc : ((s.numbered unset ovr).bump Reg.HKC_CNT Fld.HKC_CNT_QOVF).hkc = { s.hkc with seq := (s.hkc.seq + 1) % 65536 } := by
    rw [State.bump_hkc, numbered_hkc]
  have hbut : (s.numbered unset ovr).fieldsBut ((s.numbered unset ovr).bump Reg.HKC_CNT Fld.HKC_CNT_QOVF)
      [(Reg.HKC_CNT, Fld.HKC_CNT_QOVF)] := fieldsBut_bump (by simp)
  have hnone : 256 - s.hkc.queue.length = 0 := by omega
  refine ⟨?_, ?_, ?_, ?_, ?_, ?_, hkcOnly_trans hkcOnly_numbered hkcOnly_bump⟩
  · rw [hkc, hnone, List.take_zero, List.append_nil]
  · rw [State.counted, State.bump, fld_bumpBy (by decide) State.fld_lt, hqovf, hnone]
    rfl
  · rw [hkc, List.length_singleton]
  · rw [hkc, hbut _ _ (by decide), hlevel, if_pos le_rfl]
  · rw [State.flag, hbut _ _ (by decide), hsettled, State.flag]
  · rw [hkc]

theorem takesResults_pushResult (s : State) (code : Int) (ch : Nat) (current : Bool) (conv entry rep : Nat) :
    s.takesResults (s.pushResult code ch current conv entry rep) [s.result code ch current conv entry rep] := by
  obtain ⟨unset, ovr, hpush⟩ := pushResult_eq s code ch current conv entry rep
  rw [hpush]
  split
  case isTrue hroom => exact takesResults_of_room hroom
  case isFalse hfull => exact takesResults_of_full (Nat.not_lt.1 hfull)

/-! ## A conversion ends -/

/-- The two results of pair `k` arrive, voltage first. -/
def State.convert (s : State) (k : Nat) (codeV codeI : Int) (p : HPair) : State :=
  (s.pushResult codeV p.chV false (2 * k) p.entry p.rep).pushResult codeI p.chI true (2 * k + 1) p.entry p.rep

/-- Pair `k` after a conversion of `p`: free when no repetition is left, at its next repetition otherwise. -/
def State.nextBusy (s : State) (k : Nat) (p : HPair) : State :=
  { s with hkc := { s.hkc with
      busy := if p.left = 0 then tdel k s.hkc.busy else tins k { p with left := p.left - 1, rep := p.rep + 1 } s.hkc.busy } }

theorem exec_integrationPeriodEnd_of_busy {s b : State} {k at_ : Nat} {codeV codeI energy : Int} {p : HPair} (hb : b = s.tick at_)
    (hlo : 1 ≤ k) (hhi : k < 6) (hcal : tget 0 b.hkc.calLeft k = 0) (hbusy : (tkeys b.hkc.busy).contains k = true)
    (hp : p = tget ⟨0, 0, 0, 0, 0⟩ b.hkc.busy k) :
    exec (.integrationPeriodEnd k codeV codeI energy at_) s = .next ((b.convert k codeV codeI p).nextBusy k p) := by
  subst hb hp
  show execIntegrationPeriodEnd k codeV codeI energy at_ s = _
  have hk : k ≠ 0 := by omega
  simp only [execIntegrationPeriodEnd, onObject, hhi, hk, hcal, hbusy, decide_true, if_true, if_false, ne_eq, not_true_eq_false]
  rfl

theorem takesResults_convert (s : State) (k : Nat) (codeV codeI : Int) (p : HPair) :
    s.takesResults (s.convert k codeV codeI p)
      [s.result codeV p.chV false (2 * k) p.entry p.rep, s.nextSeq.result codeI p.chI true (2 * k + 1) p.entry p.rep] := by
  have hV := takesResults_pushResult s codeV p.chV false (2 * k) p.entry p.rep
  have hsecond : (s.pushResult codeV p.chV false (2 * k) p.entry p.rep).result codeI p.chI true (2 * k + 1) p.entry p.rep =
      s.nextSeq.result codeI p.chI true (2 * k + 1) p.entry p.rep := by
    unfold State.result
    rw [hV.settled, hV.seq]
    rfl
  rw [← hsecond]
  exact hV.trans (takesResults_pushResult _ codeI p.chI true (2 * k + 1) p.entry p.rep)

/-! ## A read of QREAD -/

/-- The bytes that a read of a register, or of a half of it, returns. -/
def halfBytes (half : Half) (w : Word64) : List Byte :=
  match half with
  | .whole => leBytes 8 w.toNat
  | .low => leBytes 4 (getBits w 0 32)
  | .high => leBytes 4 (getBits w 32 32)

theorem halfBytes_zero {half : Half} : halfBytes half 0 = leBytes (if half = .whole then 8 else 4) 0 := by
  cases half <;> rfl

/-- What a read of QREAD by function `fn` returns and leaves: the consumer that QOWN names takes the oldest result (R442, R451). -/
def State.takeResult (s : State) (fn : Nat) : Word64 × State :=
  if fn == 0 && s.flag Reg.HKC_CFG Fld.HKC_CFG_QOWN then s.popResult else (0, s)

/-- A hit on HKC.QREAD, as its row of the register map has it. -/
structure RegHit.isQread (h : RegHit) (high : Bool) : Prop where
  base  : h.row.base = 0x120010
  vis   : h.row.vis = .pf0
  dom   : h.row.dom = .svc
  width : h.row.width = 64
  high  : h.high = high

theorem regHit_qread : ∃ h, regHit 0x120010 = some h ∧ h.isQread false := ⟨_, rfl, rfl, rfl, rfl, rfl, rfl⟩

theorem regHit_qread_high : ∃ h, regHit 0x120014 = some h ∧ h.isQread true := ⟨_, rfl, rfl, rfl, rfl, rfl, rfl⟩

section
variable {s : State} {fn : Nat} {h : RegHit} {high : Bool}

theorem RegHit.isQread.sees (hq : h.isQread high) : s.sees fn h = (fn == 0) := by
  unfold State.sees
  rw [hq.vis]

theorem RegHit.isQread.unreadable (hq : h.isQread high) : s.unreadable h = false := by
  unfold State.unreadable RegRow.quadOf
  rw [hq.dom]

theorem RegHit.isQread.view (hq : h.isQread high) : s.view fn h = (s.takeResult fn).1 := by
  unfold State.view State.takeResult
  rw [hq.base, apply_ite Prod.fst]
  rfl

theorem RegHit.isQread.afterRead {half : Half} (hq : h.isQread high) : s.afterRead fn h half = (s.takeResult fn).2 := by
  unfold State.afterRead State.takeResult
  rw [if_pos hq.base]
  split <;> rfl

end

theorem popResult_of_cons {s : State} {r : HRes} {t : List HRes} (h : s.hkc.queue = r :: t) :
    s.popResult = (r.word, s.setQueue t) := by
  unfold State.popResult
  rw [h]

theorem popResult_of_nil {s : State} (h : s.hkc.queue = []) : s.popResult = (0, s) := by
  unfold State.popResult
  rw [h]

theorem takeResult_of_owner {s : State} (h : s.flag Reg.HKC_CFG Fld.HKC_CFG_QOWN = true) : s.takeResult 0 = s.popResult := by
  simp [State.takeResult, h]

theorem takeResult_of_ne {s : State} {fn : Nat} (h : fn ≠ 0) : s.takeResult fn = (0, s) := by
  simp [State.takeResult, h]

/-- An empty queue, a queue that PTP owns, or a reader that is not PF0: nothing is taken. -/
theorem takeResult_of_none {s : State} {fn : Nat}
    (h : s.hkc.queue = [] ∨ s.flag Reg.HKC_CFG Fld.HKC_CFG_QOWN = false ∨ fn ≠ 0) : s.takeResult fn = (0, s) := by
  rcases h with hempty | hptp | hne
  · rw [State.takeResult, popResult_of_nil hempty, ite_self]
  · simp [State.takeResult, hptp]
  · exact takeResult_of_ne hne

theorem decodes_zero (s : State) : s.decodes 0 = true := by simp [State.decodes]

theorem read64_qread {s : State} {fn : Nat} :
    s.read64 fn 0x120010 = (halfBytes .whole (s.takeResult fn).1, (s.takeResult fn).2) := by
  obtain ⟨h, hhit, hq⟩ := regHit_qread
  by_cases hfn : fn = 0
  · simp [State.read64, hhit, hq.width, hq.high, hq.sees, hq.unreadable, hq.view, hq.afterRead, hfn, halfBytes]
  · simp [State.read64, hhit, hq.width, hq.high, hq.sees, hfn, takeResult_of_ne, halfBytes]

theorem read32_qread {s : State} {fn off : Nat} {h : RegHit} {high : Bool} (hhit : regHit off = some h) (hq : h.isQread high) :
    s.read32 fn off = (halfBytes (if high then .high else .low) (s.takeResult fn).1, (s.takeResult fn).2) := by
  by_cases hfn : fn = 0
  · cases high <;> simp [State.read32, hhit, hq.high, hq.sees, hq.unreadable, hq.view, hq.afterRead, hfn, halfBytes]
  · cases high <;> simp [State.read32, hhit, hq.sees, hfn, takeResult_of_ne] <;> rfl

/-- A read of one aligned 32-bit location of BAR0 is one 32-bit access. -/
theorem readBar0_four_of_aligned {s : State} {fn off : Nat} (ha : off % 4 = 0) :
    s.readBar0 fn off 4 = ((s.read32 fn off).1.take 4, (s.read32 fn off).2) := by
  have hfirst : off / 4 * 4 = off := by omega
  simp [State.readBar0, State.readPiece, hfirst, State.reads32]

/-- QREAD's access to BAR0: the bytes it returns and the state it leaves. -/
def State.readQread (s : State) (fn : Nat) (half : Half) : List Byte × State :=
  match half with
  | .whole => s.readBar0 fn 0x120010 8
  | .low => s.readBar0 fn 0x120010 4
  | .high => s.readBar0 fn 0x120014 4

theorem readQread_eq {s : State} {fn : Nat} {half : Half} :
    s.readQread fn half = (halfBytes half (s.takeResult fn).1, (s.takeResult fn).2) := by
  obtain ⟨h, hhit, hq⟩ := regHit_qread
  obtain ⟨g, ghit, gq⟩ := regHit_qread_high
  cases half with
  | whole => exact read64_qread
  | low => exact (readBar0_four_of_aligned (by decide)).trans (by rw [read32_qread hhit hq]; rfl)
  | high => exact (readBar0_four_of_aligned (by decide)).trans (by rw [read32_qread ghit gq]; rfl)

/-- An access by a function that decodes its BARs reaches a module whose host link is up (R554, R573). -/
theorem hostAccess_of_decodes {s : State} {fn : Nat} {isRead : Bool} {f : State → State} (hup : s.hostUp = true) (hdec : s.decodes fn = true) :
    s.hostAccess fn isRead f = f s := by
  simp [State.hostAccess, hup, hdec]

theorem exec_qread {s : State} {fn : Nat} {half : Half} (hup : s.hostUp = true) (hdec : s.decodes fn = true) :
    exec (.qread fn half) s = .next { (s.takeResult fn).2 with out := halfBytes half (s.takeResult fn).1 } := by
  have hexec : exec (.qread fn half) s =
      .next (s.hostAccess fn true fun s => { (s.readQread fn half).2 with out := (s.readQread fn half).1 }) := rfl
  rw [hexec, hostAccess_of_decodes hup hdec, readQread_eq]

end Sys2Proof.Machine

namespace Sys2Proof
open Machine

/-- Settles O59: a conversion's two results arrive one after the other, and a read of QREAD takes the oldest one or none. -/
theorem resultsEnterOneQueue : Obligations.ResultsEnterOneQueue := by
  unfold Obligations.ResultsEnterOneQueue
  refine ⟨fun s k codeV codeI energy at_ b p w hb hlo hhi hcal hbusy hp hw => ?_,
    fun s half hup => ⟨fun r t hqueue hown => ?_, fun fn hdec hnone => ?_⟩⟩
  · have hexec := exec_integrationPeriodEnd_of_busy (codeV := codeV) (codeI := codeI) (energy := energy) hb hlo hhi hcal hbusy hp
    have hV : b.result codeV p.chV false (2 * k) p.entry p.rep = ⟨w codeV p.chV false (2 * k) b.hkc.seq⟩ := by
      rw [hw]; rfl
    have hI : b.nextSeq.result codeI p.chI true (2 * k + 1) p.entry p.rep =
        ⟨w codeI p.chI true (2 * k + 1) ((b.hkc.seq + 1) % 65536)⟩ := by
      rw [hw]; rfl
    have harrive := takesResults_convert b k codeV codeI p
    rw [hV, hI] at harrive
    generalize b.convert k codeV codeI p = c at hexec harrive
    have hlen : c.hkc.queue.length = b.hkc.queue.length + min (256 - b.hkc.queue.length) 2 := harrive.length
    have hkept : c.hkc.busy = b.hkc.busy := by rw [harrive.hkc]
    refine ⟨_, hexec, harrive.queue, harrive.dropped, harrive.seq, fun hroom => ?_, ?_, hkcOnly_trans harrive.frame rfl⟩
    · exact harrive.level.trans (if_neg (by omega))
    · rw [← hkept]; rfl
  · have hread := exec_qread (half := half) hup (decodes_zero s)
    rw [takeResult_of_owner hown, popResult_of_cons hqueue] at hread
    refine ⟨_, hread, rfl, ?_, fun hlt => ?_, fieldsBut_trans fieldsBut_setQueue (fieldsBut_of_regs rfl), rfl⟩
    · cases half <;> rfl
    · exact fld_setQueue_level.trans (Nat.mod_eq_of_lt hlt)
  · rw [exec_qread hup hdec, takeResult_of_none hnone, halfBytes_zero]

end Sys2Proof
end

section
/-! PROOFS. The OEM commands of the management sideband (R373, R421, R577): the answer each gives, and the registers that SET_COORD and SET_CAP
change. -/

namespace Sys2Proof.Machine

/-! ## The answer of an OEM command -/

theorem oem_refused {s : State} : s.oem 0x80 [] = { s with side := { s.side with resp := [0x80] } } := rfl

theorem oem_wrongLength {s : State} : s.oem 0x81 [] = { s with side := { s.side with resp := [0x81] } } := rfl

/-- A success is 0x00 and its data (R577). -/
theorem oem_success {s : State} {data : List Byte} : s.oem 0 data = { s with side := { s.side with resp := 0x00 :: data } } := rfl

@[simp] theorem oem_reg {s : State} {code : Nat} {data : List Byte} {r : RegRef} : (s.oem code data).reg r = s.reg r := rfl
@[simp] theorem oem_fld {s : State} {code : Nat} {data : List Byte} {r : RegRef} {f : Field} : (s.oem code data).fld r f = s.fld r f := rfl
@[simp] theorem oem_portRole {s : State} {code n : Nat} {data : List Byte} : (s.oem code data).portRole n = s.portRole n := rfl

/-- The response is no register field. -/
theorem fieldsBut_oem {s : State} {code : Nat} {data : List Byte} {l : List (RegRef × Field)} : s.fieldsBut (s.oem code data) l :=
  fieldsBut_of_regs rfl

theorem onOem_of_length {s : State} {n : Nat} {f : State → State} (hp : s.powered = true) : s.onOem n n f = f s := by
  simp [State.onOem, hp]

theorem onOem_of_length_ne {s : State} {want len : Nat} {f : State → State} (hp : s.powered = true) (h : len ≠ want) :
    s.onOem want len f = { s with side := { s.side with resp := [0x81] } } := by
  simp only [State.onOem, hp, Bool.not_true, Bool.false_eq_true, if_false, if_pos h]
  exact oem_wrongLength

/-! ## Operations repeated over a list -/

/-- What every step of a repeated operation leaves as it was, all of them do. -/
theorem each_induction {α : Type} {P : State → Prop} {xs : List α} {g : State → α → State} {s : State} (h0 : P s)
    (hstep : ∀ t x, x ∈ xs → P t → P (g t x)) : P (s.each xs g) := by
  unfold State.each
  induction xs generalizing s with
  | nil => exact h0
  | cons x xs ih => exact ih (hstep s x (by simp) h0) fun t y hy => hstep t y (by simp [hy])

/-! ## SET_COORD (R370, R373) -/

/-- Port n takes its role and its peer's slot under a topology (R370). -/
def State.giveRole (topo : Nat) (s : State) (n : Nat) : State :=
  (s.setFld (Reg.LNK_PORT_CFG n) Fld.LNK_PORT_CFG_ROLE (portRoleOf topo n).1).setFld (Reg.LNK_PORT_CFG n) Fld.LNK_PORT_CFG_PEER_SLOT
    (if (portRoleOf topo n).1 = 1 then peerSlot (s.fld Reg.LNK_COORD Fld.LNK_COORD_SLOT) (portRoleOf topo n).2 else 0)

theorem setRoles_eq {s : State} :
    s.setRoles = s.each (List.range 24) (State.giveRole (s.fld Reg.LNK_COORD Fld.LNK_COORD_TOPO)) := rfl

/-- Every role of R370 fits the field ROLE. -/
theorem portRoleOf_lt (topo n : Nat) : (portRoleOf topo n).1 < 8 := by
  unfold portRoleOf
  repeat' split
  all_goals simp

theorem portCfg_key_ne {m n : Nat} (h : m ≠ n) : (Reg.LNK_PORT_CFG m).key ≠ (Reg.LNK_PORT_CFG n).key := by
  simp only [Reg.LNK_PORT_CFG]
  omega

theorem coord_key_ne_portCfg (n : Nat) : Reg.LNK_COORD.key ≠ (Reg.LNK_PORT_CFG n).key := by
  simp only [Reg.LNK_PORT_CFG, Reg.LNK_COORD]
  omega

theorem portRole_giveRole_self {s : State} {topo n : Nat} : (s.giveRole topo n).portRole n = (portRoleOf topo n).1 := by
  unfold State.giveRole State.portRole
  rw [State.fld_setFld_of_disjoint (by decide), State.fld_setFld_self (by decide)]
  exact Nat.mod_eq_of_lt (portRoleOf_lt topo n)

theorem portRole_giveRole_ne {s : State} {topo m n : Nat} (h : m ≠ n) : (s.giveRole topo n).portRole m = s.portRole m := by
  unfold State.giveRole State.portRole
  rw [State.fld_setFld_ne (portCfg_key_ne h), State.fld_setFld_ne (portCfg_key_ne h)]

theorem portRole_each_giveRole {s : State} {topo n : Nat} {ns : List Nat} :
    (s.each ns (State.giveRole topo)).portRole n = if n ∈ ns then (portRoleOf topo n).1 else s.portRole n := by
  induction ns generalizing s with
  | nil => rfl
  | cons m ns ih =>
    refine (ih (s := s.giveRole topo m)).trans ?_
    by_cases h : n = m
    · subst h
      simp [portRole_giveRole_self]
    · simp [h, portRole_giveRole_ne h]

/-- The fields that the roles of the ports are. -/
def roleFields : List (RegRef × Field) :=
  (List.range 24).flatMap fun n => [(Reg.LNK_PORT_CFG n, Fld.LNK_PORT_CFG_ROLE), (Reg.LNK_PORT_CFG n, Fld.LNK_PORT_CFG_PEER_SLOT)]

theorem fieldsBut_giveRole {s : State} {topo n : Nat} (hn : n ∈ List.range 24) : s.fieldsBut (s.giveRole topo n) roleFields := by
  refine fieldsBut_trans (fieldsBut_setFld ?_) (fieldsBut_setFld ?_) <;>
    exact List.mem_flatMap.2 ⟨n, hn, by simp⟩

/-- Roles given leave every register but LNK.PORT_CFG, and everything that is no register, as they were. -/
theorem setRoles_frame {s : State} :
    s.setRoles = { s with regs := s.setRoles.regs } ∧ s.setRoles.reg Reg.LNK_COORD = s.reg Reg.LNK_COORD ∧
      s.fieldsBut s.setRoles roleFields := by
  rw [setRoles_eq]
  refine each_induction (P := fun t => t = { s with regs := t.regs } ∧ t.reg Reg.LNK_COORD = s.reg Reg.LNK_COORD ∧ s.fieldsBut t roleFields)
    ⟨rfl, rfl, fieldsBut_refl⟩ fun t n hn h => ?_
  obtain ⟨honly, hcoord, hfields⟩ := h
  refine ⟨?_, ?_, fieldsBut_trans hfields (fieldsBut_giveRole hn)⟩
  · rw [honly]; rfl
  · rw [State.giveRole, State.reg_setFld_ne (coord_key_ne_portCfg n), State.reg_setFld_ne (coord_key_ne_portCfg n), hcoord]

theorem portRole_setRoles {s : State} {n : Nat} (hn : n < 24) :
    s.setRoles.portRole n = (portRoleOf (s.fld Reg.LNK_COORD Fld.LNK_COORD_TOPO) n).1 := by
  rw [setRoles_eq, portRole_each_giveRole, if_pos (List.mem_range.2 hn)]

/-- The value that SET_COORD writes: VALID is bit 46, and the reserved bits above it are dropped (log entry 80). -/
def coordWord (v : Word64) : Word64 := BitVec.ofNat 64 (v.toNat % 2 ^ 47)

theorem coordWord_toNat {v : Word64} : (coordWord v).toNat = v.toNat % 2 ^ 47 := by
  rw [coordWord, BitVec.toNat_ofNat]
  omega

theorem coordWord_topo {v : Word64} : getBits (coordWord v) 44 2 = getBits v 44 2 := by
  unfold getBits bitsOf
  rw [coordWord_toNat]
  omega

/-- A state whose coordinates SET_COORD refuses to write (R373, R577). -/
def State.refusesCoord (s : State) (v : Word64) : Prop :=
  (List.range 24).any (fun n => s.portSt n == 2) = true ∨ 16384 ≤ getBits v 0 16 ∨ getBits v 44 2 = 3

theorem exec_setCoord_of_refuses {s : State} {v : Word64} (hp : s.powered = true) (h : s.refusesCoord v) :
    exec (.setCoord v 8) s = .next { s with side := { s.side with resp := [0x80] } } := by
  have hexec : exec (.setCoord v 8) s = execSetCoord v 8 s := rfl
  rw [hexec, execSetCoord, onOem_of_length hp, ← oem_refused, if_pos]
  simpa [State.refusesCoord, or_assoc] using h

theorem exec_setCoord_of_not_refuses {s : State} {v : Word64} (hp : s.powered = true) (h : ¬s.refusesCoord v) :
    exec (.setCoord v 8) s = .next ((s.wrReg Reg.LNK_COORD (coordWord v)).setRoles.oem 0 []) := by
  have hexec : exec (.setCoord v 8) s = execSetCoord v 8 s := rfl
  rw [hexec, execSetCoord, onOem_of_length hp, if_neg]
  · rfl
  · simpa [State.refusesCoord, or_assoc] using h

/-- SET_COORD writes the coordinates and gives the ports the roles of the topology in them. -/
theorem setCoord_outcome {s t : State} {v : Word64} (ht : t = (s.wrReg Reg.LNK_COORD (coordWord v)).setRoles) :
    (t.reg Reg.LNK_COORD).toNat = v.toNat % 2 ^ 47 ∧ (∀ n, n < 24 → t.portRole n = (portRoleOf (getBits v 44 2) n).1) ∧
      t = { s with regs := t.regs } ∧ s.fieldsBut t ((Reg.LNK_COORD, wholeReg) :: roleFields) := by
  subst ht
  obtain ⟨honly, hcoord, hfields⟩ := setRoles_frame (s := s.wrReg Reg.LNK_COORD (coordWord v))
  refine ⟨?_, fun n hn => ?_, honly, ?_⟩
  · rw [hcoord, State.reg_wrReg_self, coordWord_toNat]
  · rw [portRole_setRoles hn, State.fld, State.reg_wrReg_self]
    exact congrArg (fun topo => (portRoleOf topo n).1) coordWord_topo
  · exact fieldsBut_trans (fieldsBut_wrReg (by simp)) (fieldsBut_mono hfields fun x hx => List.mem_cons_of_mem _ hx)

/-! ## SET_CAP (R421) -/

theorem capOf_le (w : Nat) : capOf w ≤ 3600 := by
  unfold capOf
  omega

/-- A cap above 4,095 W, which BMC_CAP cannot hold, acts as the cap it is held as (log entry 80). -/
theorem capOf_min_4095 (w : Nat) : capOf (min 4095 w) = capOf w := by
  unfold capOf
  omega

/-- CAP_EFF is the lower of the two caps as they act. -/
theorem freshCap_capEff {s : State} :
    s.freshCap.fld Reg.POW_STAT Fld.POW_STAT_CAP_EFF =
      min (capOf (s.fld Reg.POW_CAP Fld.POW_CAP_HOST_CAP)) (capOf (s.fld Reg.POW_CAP Fld.POW_CAP_BMC_CAP)) := by
  unfold State.freshCap State.setFlag
  rw [State.fld_setFld_of_disjoint (by decide), State.fld_setFld_self (by decide)]
  refine Nat.mod_eq_of_lt (lt_of_le_of_lt ((min_le_left _ _).trans (capOf_le _)) (by decide))

theorem freshCap_bmcCap {s : State} : s.freshCap.fld Reg.POW_CAP Fld.POW_CAP_BMC_CAP = s.fld Reg.POW_CAP Fld.POW_CAP_BMC_CAP := by
  unfold State.freshCap
  rw [State.fld_setFlag_ne (by decide), State.fld_setFld_ne (by decide)]

/-- A field written and the cap in force renewed: nothing but registers changes. -/
theorem setFld_freshCap_regs {s : State} {r : RegRef} {f : Field} {x : Nat} :
    (s.setFld r f x).freshCap = { s with regs := (s.setFld r f x).freshCap.regs } := rfl

/-- The state with a cap of the management controller put in force. -/
def State.withBmcCap (s : State) (w : Nat) : State := (s.setFld Reg.POW_CAP Fld.POW_CAP_BMC_CAP (min 4095 w)).freshCap

theorem withBmcCap_bmcCap {s : State} {w : Nat} : (s.withBmcCap w).fld Reg.POW_CAP Fld.POW_CAP_BMC_CAP = min 4095 w := by
  rw [State.withBmcCap, freshCap_bmcCap, State.fld_setFld_self (by decide)]
  exact Nat.mod_eq_of_lt (lt_of_le_of_lt (min_le_left _ _) (by decide))

theorem withBmcCap_capEff {s : State} {w : Nat} :
    (s.withBmcCap w).fld Reg.POW_STAT Fld.POW_STAT_CAP_EFF = min (capOf (s.fld Reg.POW_CAP Fld.POW_CAP_HOST_CAP)) (capOf w) := by
  have hbmc : (s.setFld Reg.POW_CAP Fld.POW_CAP_BMC_CAP (min 4095 w)).fld Reg.POW_CAP Fld.POW_CAP_BMC_CAP = min 4095 w := by
    rw [← freshCap_bmcCap]; exact withBmcCap_bmcCap
  rw [State.withBmcCap, freshCap_capEff, hbmc, capOf_min_4095, State.fld_setFld_of_disjoint (by decide)]

theorem withBmcCap_regs {s : State} {w : Nat} : s.withBmcCap w = { s with regs := (s.withBmcCap w).regs } :=
  setFld_freshCap_regs

theorem fieldsBut_withBmcCap {s : State} {w : Nat} :
    s.fieldsBut (s.withBmcCap w)
      [(Reg.POW_CAP, Fld.POW_CAP_BMC_CAP), (Reg.POW_STAT, Fld.POW_STAT_CAP_EFF), (Reg.POW_STAT, Fld.POW_STAT_BMC_LIMITS)] :=
  fieldsBut_trans (fieldsBut_setFld (by simp)) (fieldsBut_trans (fieldsBut_setFld (by simp)) (fieldsBut_setFld (by simp)))

/-- SET_CAP holds the cap it is given and puts the lower of the two caps in force. -/
theorem withBmcCap_outcome {s t : State} {w : Nat} (ht : t = s.withBmcCap w) :
    t.fld Reg.POW_CAP Fld.POW_CAP_BMC_CAP = min 4095 w ∧
      t.fld Reg.POW_STAT Fld.POW_STAT_CAP_EFF = min (capOf (s.fld Reg.POW_CAP Fld.POW_CAP_HOST_CAP)) (capOf w) ∧
      t = { s with regs := t.regs } ∧
      s.fieldsBut t [(Reg.POW_CAP, Fld.POW_CAP_BMC_CAP), (Reg.POW_STAT, Fld.POW_STAT_CAP_EFF), (Reg.POW_STAT, Fld.POW_STAT_BMC_LIMITS)] := by
  subst ht
  exact ⟨withBmcCap_bmcCap, withBmcCap_capEff, withBmcCap_regs, fieldsBut_withBmcCap⟩

theorem exec_setCap {s : State} {w : BitVec 16} (hp : s.powered = true) :
    exec (.setCap w 2) s =
      .next ((s.withBmcCap w.toNat).oem 0 (leBytes 2 ((s.withBmcCap w.toNat).fld Reg.POW_STAT Fld.POW_STAT_CAP_EFF))) := by
  have hexec : exec (.setCap w 2) s = .next (s.onOem 2 2 fun s =>
      (s.withBmcCap w.toNat).oem 0 (leBytes 2 ((s.withBmcCap w.toNat).fld Reg.POW_STAT Fld.POW_STAT_CAP_EFF))) := rfl
  rw [hexec, onOem_of_length hp]

/-! ## GET_DEVPUB and GET_STATE -/

theorem leBytes_length (n v : Nat) : (leBytes n v).length = n := by
  induction n generalizing v with
  | zero => rfl
  | succ n ih => simp [leBytes, ih]

/-- In lists of one length c laid end to end, list k begins after the first c * k elements. -/
theorem drop_mul_flatMap {α β : Type} {g : α → List β} {c : Nat} (hg : ∀ x, (g x).length = c) (xs : List α) (k : Nat) :
    (xs.flatMap g).drop (c * k) = (xs.drop k).flatMap g := by
  induction k generalizing xs with
  | zero => rfl
  | succ k ih =>
    cases xs with
    | nil => simp
    | cons x xs =>
      have hskip : c * (k + 1) = (g x).length + c * k := by rw [hg, Nat.mul_succ, Nat.add_comm]
      rw [List.flatMap_cons, hskip, List.drop_length_add_append, List.drop_succ_cons, ih]

theorem take_drop_flatMap_range {β : Type} {g : Nat → List β} {c n k : Nat} (hg : ∀ x, (g x).length = c) (hk : k < n) :
    (((List.range n).flatMap g).drop (c * k)).take c = g k := by
  rw [drop_mul_flatMap hg, List.drop_eq_getElem_cons (by simpa using hk), List.flatMap_cons, List.getElem_range, List.take_left' (hg k)]

/-- The device's public key as GET_DEVPUB returns it: its twelve registers, each least significant byte first. -/
def State.devpubBytes (s : State) : List Byte := (List.range 12).flatMap fun k => leBytes 8 (s.reg (Reg.SEC_DEVPUB k)).toNat

theorem devpubBytes_length {s : State} : s.devpubBytes.length = 96 := by
  simp [State.devpubBytes, List.length_flatMap, leBytes_length]

theorem devpubBytes_word {s : State} {k : Nat} (hk : k < 12) :
    (s.devpubBytes.drop (8 * k)).take 8 = leBytes 8 (s.reg (Reg.SEC_DEVPUB k)).toNat :=
  take_drop_flatMap_range (fun _ => leBytes_length 8 _) hk

theorem exec_getDevpub {s : State} (hp : s.powered = true) :
    exec (.getDevpub 0) s = .next (if s.sec.zeroing then s.oem 0x80 [] else s.oem 0 s.devpubBytes) := by
  have hexec : exec (.getDevpub 0) s = execGetDevpub 0 s := rfl
  rw [hexec, execGetDevpub, onOem_of_length hp]
  rfl

theorem exec_getState {s : State} (hp : s.powered = true) :
    exec (.getState 0) s = .next (s.oem 0 (leBytes 4 (getBits (s.reg Reg.CLK_START) 0 32) ++ leBytes 4 (getBits (s.reg Reg.POW_STAT) 32 4) ++
      leBytes 4 (getBits (s.reg Reg.THM_STAT) 0 3) ++ leBytes 4 (getBits (s.reg Reg.TWN_STAT) 0 3))) := by
  have hexec : exec (.getState 0) s = execGetState 0 s := rfl
  rw [hexec, execGetState, onOem_of_length hp]

end Sys2Proof.Machine

namespace Sys2Proof
open Machine

/-- Settles O20: every OEM command of the right length is one register operation, if any, and one response. That SET_COORD takes VALID from
bit 46 and gives the ports their roles, and that SET_CAP holds at most 4,095 W, is log entry 80. -/
theorem sidebandCommandsAnswer : Obligations.SidebandCommandsAnswer := by
  unfold Obligations.SidebandCommandsAnswer
  intro s v w len hp
  refine ⟨fun c want hc hlen => ?_, fun hdown hid htopo => ?_, fun h => exec_setCoord_of_refuses hp h, ?_, fun hz => ?_, fun hz => ?_,
    _, exec_getState hp, rfl, rfl⟩
  · rcases hc with ⟨rfl, rfl⟩ | ⟨rfl, rfl⟩ | ⟨rfl, rfl⟩ | ⟨rfl, rfl⟩ <;> exact congrArg _ (onOem_of_length_ne hp hlen)
  · have hnot : ¬s.refusesCoord v := by
      simp only [State.refusesCoord, hdown, Bool.false_eq_true, false_or, not_or]
      exact ⟨by omega, htopo⟩
    have hexec := exec_setCoord_of_not_refuses hp hnot
    generalize ht : (s.wrReg Reg.LNK_COORD (coordWord v)).setRoles = t at hexec
    obtain ⟨hcoord, hroles, honly, hfields⟩ := setCoord_outcome ht.symm
    exact ⟨_, hexec, rfl, by rwa [oem_reg], fun n hn => by rw [oem_portRole, hroles n hn], by rw [honly]; rfl,
      fieldsBut_trans hfields fieldsBut_oem⟩
  · have hexec := exec_setCap (w := w) hp
    generalize ht : s.withBmcCap w.toNat = t at hexec
    obtain ⟨hbmc, heff, honly, hfields⟩ := withBmcCap_outcome ht.symm
    exact ⟨_, hexec, by rwa [oem_fld], by rw [oem_fld, heff]; rfl, by rw [oem_fld]; rfl, by rw [honly]; rfl,
      fieldsBut_trans hfields fieldsBut_oem⟩
  · have hexec := exec_getDevpub hp
    rw [hz, if_neg (by decide), oem_success] at hexec
    refine ⟨_, hexec, ?_, rfl, rfl, fun k hk => ?_⟩
    · simp [devpubBytes_length]
    · rw [Nat.add_comm 1, List.drop_succ_cons, devpubBytes_word hk]
  · rw [exec_getDevpub hp, hz, if_pos rfl, oem_refused]

end Sys2Proof
end

section
/-! PROOFS. What every command leaves: it keeps the queue, the order of times and free values and the canonical form of the state, and it stops
only where it names an object that the module does not have. One lemma for each command with branches of its own, over the lemmas of
Laws/Keeps*.lean about the operations that the commands call. -/

namespace Sys2Proof.Machine

/-- The outcome `o` of a command on `s`: a state that comes after `s`, or, where the command is not well formed (`ok` is false), a stop at an
object that the module does not have. -/
def Follows (s : State) (ok : Bool) (o : Res) : Prop := (∃ t, o = .next t ∧ Keeps s t) ∨ (ok = false ∧ o = .fault .noSuchObject)

theorem Follows.next {s t : State} {ok : Bool} (h : Keeps s t) : Follows s ok (.next t) := .inl ⟨t, rfl, h⟩

theorem Follows.onObject {s t : State} {ok : Bool} (h : Keeps s t) : Follows s ok (onObject ok t) := by
  cases ok
  · exact .inr ⟨rfl, rfl⟩
  · exact .inl ⟨t, rfl, h⟩

theorem Follows.keeps {s t : State} {ok : Bool} {o : Res} (h : Follows s ok o) (ho : o = .next t) : Keeps s t := by
  rcases h with ⟨u, hu, hk⟩ | ⟨-, hf⟩
  · cases hu.symm.trans ho
    exact hk
  · cases hf.symm.trans ho

theorem Keeps.ite {s a b : State} {c : Prop} [Decidable c] (ha : Keeps s a) (hb : Keeps s b) : Keeps s (if c then a else b) := by
  split
  · exact ha
  · exact hb

theorem keeps_tick {s : State} {t : Nat} : Keeps s (s.tick t) := (Keeps.refl s).tick

/-! ## D-class packets -/

theorem Keeps.checkedPacket {s : State} {h : Hdr} {op len : Nat} {cs : State → List Chk} {act : State → State}
    (hact : ∀ v, Keeps s v → Keeps s (act v)) : Keeps s (s.dPacket h op len fun s => s.checked h op (cs s) act) :=
  (Keeps.refl s).dPacket fun _ hv => hv.checked hact

section
variable {s : State} {h : Hdr} {ok : Bool}

theorem execSessionOpen_follows {p : OpenParams} : Follows s ok (execSessionOpen h p s) :=
  .next (.checkedPacket fun _ hv => hv.actOn.replyHeld)

theorem execSessionAppend_follows {p : AppendParams} : Follows s ok (execSessionAppend h p s) :=
  .next (.checkedPacket fun _ hv => hv.wake.replyHeld)

theorem execSessionResume_follows {p : ResumeParams} : Follows s ok (execSessionResume h p s) :=
  .next (.checkedPacket fun _ hv => hv.wake.replyHeld)

theorem execSessionPause_follows {context rsv : BitVec 32} : Follows s ok (execSessionPause h context rsv s) :=
  .next (.checkedPacket fun _ hv => hv.actOn.replyHeld)

theorem execSessionClose_follows {context rsv : BitVec 32} : Follows s ok (execSessionClose h context rsv s) :=
  .next (.checkedPacket fun _ hv => (Keeps.ite hv.actOn hv.applyOp).replyHeld)

theorem execSpecTree_follows {context : BitVec 32} {n : BitVec 8} {rsv : BitVec 24} {treeVa : BitVec 64} :
    Follows s ok (execSpecTree h context n rsv treeVa s) :=
  .next (.checkedPacket fun _ hv => hv.checked fun _ hw => hw.actOn.replyHeld)

theorem execCairn_follows {placement : BitVec 16} {rsv : BitVec 48} : Follows s ok (execCairn h placement rsv s) :=
  .next (.checkedPacket fun _ hv => .ite hv.reply hv.setPair)

theorem execRidge_follows {placement lead load duration : BitVec 16} : Follows s ok (execRidge h placement lead load duration s) :=
  .next (.checkedPacket fun _ hv => (Keeps.ite hv.other.bump.freshBoost hv.bump).reply)

theorem execFence_follows {mask rsv : BitVec 32} : Follows s ok (execFence h mask rsv s) :=
  .next (.checkedPacket fun _ hv => hv.setPair.fenceSweep)

theorem execKvPark_follows {context rsv : BitVec 32} : Follows s ok (execKvPark h context rsv s) :=
  .next (.checkedPacket fun _ hv => hv.actOn)

theorem execKvRestore_follows {context rsv : BitVec 32} : Follows s ok (execKvRestore h context rsv s) := by
  refine .next (.checkedPacket fun v hv => .ite hv.cancelPark.editCtx.reply ?_)
  split
  case h_1 e => exact Keeps.fst_of_eq e hv.stopPark.startRestore
  case h_2 e => exact (Keeps.fst_of_eq e hv.stopPark.startRestore).setAux.reply
  case h_3 e => exact (Keeps.fst_of_eq e hv.stopPark.startRestore).reply

theorem execUnassignedOpcode_follows {opcode : BitVec 8} : Follows s ok (execUnassignedOpcode h opcode s) := by
  refine .next ((Keeps.refl s).fetching fun v hv => ?_)
  split
  · exact hv.takePacket.reply
  · exact hv.takePacket.fail

end
/-! ## Sessions, sampling and steps at work -/

section
variable {s : State} {at_ : Nat}

theorem execFenceTimeout_follows {fn ring : Nat} : Follows s (decide (fn < 64) && decide (ring < 17)) (execFenceTimeout fn ring at_ s) := by
  refine .onObject ?_
  split
  · exact .ite keeps_tick.setPair.reply keeps_tick
  · exact keeps_tick

theorem execSample_follows {placement ctx : Nat} {logits : List (List BF16)} :
    Follows s (decide (placement < 1024) && decide (ctx < 4194304)) (execSample placement ctx logits s) := by
  refine .onObject ?_
  split
  · split
    · exact .ite (Keeps.refl s).sampleSlot (Keeps.refl s)
    · exact Keeps.refl s
  · exact Keeps.refl s

theorem execStepBuild_follows {placement : Nat} : Follows s (decide (placement < 1024)) (execStepBuild placement at_ s) := by
  have hturn : Keeps s ((s.tick at_).turn placement) := keeps_tick.turn
  have hmove := fun (p : Prop) [Decidable p] x => Keeps.ite (c := p) (hturn.setPlace (i := placement) (x := x)) hturn
  refine .onObject (.ite (Keeps.build ?_) ?_) <;> exact .ite (hmove _ _).loseBad (hmove _ _)

theorem execStepRetire_follows {placement : Nat} : Follows s (decide (placement < 1024)) (execStepRetire placement at_ s) := by
  refine .onObject ?_
  split
  · exact keeps_tick
  · refine .ite keeps_tick ?_
    extract_lets s1
    have hsent : Keeps s s1 := .ite keeps_tick keeps_tick.sendRelay
    split
    · exact hsent
    · exact .ite hsent.retire hsent

theorem execCompletionBufferStall_follows {placement : Nat} :
    Follows s (decide (placement < 1024)) (execCompletionBufferStall placement at_ s) :=
  .onObject (.ite keeps_tick.setPlace keeps_tick)

theorem execChainOpenTimeout_follows {fn tag : Nat} : Follows s (decide (fn < 64)) (execChainOpenTimeout fn tag at_ s) := by
  refine .onObject ?_
  split
  · exact keeps_tick
  · refine .ite keeps_tick ?_
    extract_lets detail s1
    have hgone : Keeps s s1 := (Keeps.ite (keeps_tick.each fun _ _ hv => hv.tellChain) keeps_tick).dropChain
    split
    · split
      · exact hgone.failLoad
      · exact hgone.giveUpSwap.endSwap
    · exact hgone

theorem execSwapHold_follows {model : Nat} : Follows s (decide (model < 4096)) (execSwapHold model at_ s) := by
  refine .onObject ?_
  extract_lets
  split
  · refine .ite ?_ keeps_tick
    extract_lets
    split
    · exact keeps_tick.setModel.takeChunks
    · exact keeps_tick.setModel
  · exact keeps_tick

theorem execSwapComplete_follows {model : Nat} : Follows s (decide (model < 4096)) (execSwapComplete model at_ s) := by
  refine .onObject ?_
  extract_lets
  split
  · split
    · exact .ite keeps_tick (keeps_tick.setModel.each fun _ _ hv => hv.setPlace.stageAll).endSwap
    · exact keeps_tick
  · exact keeps_tick

theorem execProgress_follows {fn seq : Nat} : Follows s (decide (fn < 64)) (execProgress fn seq at_ s) := by
  refine .onObject ?_
  split
  · exact keeps_tick.tellLong
  · exact keeps_tick

/-! ## Security -/

theorem execCoSessionTimeout_follows {ok : Bool} : Follows s ok (execCoSessionTimeout at_ s) := by
  refine .next ?_
  split
  · exact .ite keeps_tick.other.setFlag.setFld keeps_tick
  · exact keeps_tick

theorem execDebugUnlock_follows {tokenOk ok : Bool} : Follows s ok (execDebugUnlock tokenOk s) :=
  .next (.ite (Keeps.refl s).bump
    ((Keeps.ite (Keeps.refl s) (Keeps.refl s).zeroBegin).other.each fun _ _ hv => Keeps.ite hv.cairn hv).zeroDebugRun)

/-! ## Tiles, tests and arrays -/

theorem execPatrolScrub_follows {addr : Nat} {corrected uncorrectable : Bool} :
    Follows s (decide (addr < memEnd + 1024 * tileSram)) (execPatrolScrub addr corrected uncorrectable s) :=
  .onObject (.ite (((Keeps.refl s).when fun _ hv => hv.bump).when fun _ hv => hv.ueAt.taint)
    (((Keeps.refl s).when fun _ hv => hv.bump).when fun _ hv => hv.tileWord))

theorem execTestDue_follows {tile : Nat} : Follows s (decide (tile < 1024 + 1088)) (execTestDue tile at_ s) :=
  .onObject (.ite keeps_tick (.ite (keeps_tick.foldl fun _ _ hv => hv.makeDue) keeps_tick))

theorem execTestSlice_follows {tile : Nat} {sig : Word64} : Follows s (decide (tile < 1024 + 1088)) (execTestSlice tile at_ sig s) := by
  refine .onObject ?_
  split
  · exact keeps_tick
  · refine .ite keeps_tick ?_
    split
    · exact .ite keeps_tick.sliceOn.onTest.judgeThird keeps_tick.sliceOn.onTest
    · exact .ite keeps_tick (.ite keeps_tick.sliceOn.onTest.setTestFld keeps_tick.sliceOn.onTest.setTestFld.record.judge)

theorem execTestOverdue_follows {tile : Nat} {sig : Word64} : Follows s (decide (tile < 1024 + 1088)) (execTestOverdue tile at_ sig s) := by
  refine .onObject ?_
  split
  · exact keeps_tick
  · refine .ite keeps_tick (.ite ?_ (Keeps.onePiece ?_)) <;> exact .ite keeps_tick keeps_tick.withdraw

theorem execArrayWrite_follows {tile array pslot layer digit chunk : Nat} {dup : Bool} :
    Follows s (decide (tile < 1024) && decide (array < 512) && decide (pslot < 16)) (execArrayWrite tile array pslot layer digit dup chunk s) := by
  refine .onObject ?_
  split
  · extract_lets
    refine .ite (Keeps.refl s) ?_
    extract_lets
    split
    case h_1 e => exact (Keeps.fst_of_eq e (Keeps.refl s).setTile.fetchAhead).writeArray
    case h_2 e => exact Keeps.fst_of_eq e (Keeps.refl s).setTile.fetchAhead
  · exact Keeps.refl s

/-! ## Passes -/

theorem execPassIssue_follows {tile pslot layer expert : Nat} {acts : List (List BF16)} :
    Follows s (decide (tile < 1024) && decide (pslot < 16)) (execPassIssue tile pslot layer expert acts s) := by
  refine .onObject ?_
  split
  · split
    · refine .ite (Keeps.refl s) ?_
      split
      case h_1 e => exact Keeps.fst_of_eq e (Keeps.refl s).needCopy
      case h_2 e => exact (Keeps.fst_of_eq e (Keeps.refl s).needCopy).bumpBy.addFree.startPass
    · exact Keeps.refl s
  · exact Keeps.refl s

theorem execArrayCycle_follows {tile : Nat} : Follows s (decide (tile < 1024)) (execArrayCycle tile s) := by
  refine .onObject ?_
  split
  case h_1 i x st y sh _ _ =>
    refine .ite (Keeps.refl s) ?_
    extract_lets
    split
    next s0 x1 e =>
      have hround : Keeps s s0 := by
        split at e
        · exact Keeps.fst_of_eq e (Keeps.refl s).roundFor
        · cases e
          exact Keeps.refl s
      exact .ite hround.setTile (.ite hround.setTile hround.deliver.setTile)
  · exact Keeps.refl s

theorem execTileLayerPassEnd_follows {tile : Nat} {residue : Bool} {appends tentative : List KvEntry} :
    Follows s (decide (tile < 1024)) (execTileLayerPassEnd tile residue appends tentative s) := by
  refine .onObject ?_
  split
  · refine .ite (Keeps.refl s) ?_
    split
    case h_1 e => exact Keeps.fst_of_eq e (Keeps.refl s).needCopy
    case h_2 e =>
      have hcopy := Keeps.fst_of_eq e (Keeps.refl s).needCopy
      extract_lets x _ s1
      have hcount : Keeps s s1 := (Keeps.ite hcopy hcopy.countRead).setTile
      exact .ite hcount.mismatch (Keeps.ite hcount.bump.setTile hcount).decideClimb
  · exact Keeps.refl s

theorem execDriftFilterUpdate_follows {tile : Nat} : Follows s (decide (tile < 1024)) (execDriftFilterUpdate tile s) := by
  refine .onObject ?_
  split
  · exact .ite (Keeps.refl s).setPhy (.ite (Keeps.refl s).setPhy.bumpBy (Keeps.refl s).setPhy.bumpBy.calHold)
  · exact Keeps.refl s

/-! ## Attention -/

theorem execScorePass_follows {tile pslot ctx layer head seg : Nat} {rows : List QueryRow} :
    Follows s (decide (tile < 1024) && decide (pslot < 16)) (execScorePass tile pslot ctx layer head seg rows s) := by
  refine .onObject ?_
  split
  · exact Keeps.refl s
  · refine .ite (Keeps.refl s) (.ite (Keeps.refl s).setTile ?_)
    extract_lets
    split
    · exact Keeps.refl s
    · refine .ite (Keeps.refl s) (.ite (Keeps.refl s) ?_)
      extract_lets
      split
      case h_1 e => exact (Keeps.fst_of_eq e (Keeps.refl s).bumpBy.sbSegment).kvFail
      case h_2 e =>
        exact (Keeps.foldlFst (Keeps.fst_of_eq e (Keeps.refl s).bumpBy.sbSegment) fun _ _ hv => hv.scoreRow).setAttn.passEnds

theorem execMixPass_follows {tile pslot ctx layer head seg : Nat} :
    Follows s (decide (tile < 1024) && decide (pslot < 16)) (execMixPass tile pslot ctx layer head seg s) := by
  refine .onObject ?_
  split
  · exact Keeps.refl s
  · split
    · exact Keeps.refl s
    · refine .ite (Keeps.refl s) ?_
      split
      case h_1 e => exact (Keeps.fst_of_eq e (Keeps.refl s).sbSegment).kvFail
      case h_2 s0 _ e =>
        exact ((Keeps.fst_of_eq e (Keeps.refl s).sbSegment).useFree' (mixRows_free (x := (s0.free, _)))).setAttn.passEnds

theorem execHeadLayerForward_follows {tile pslot ctx layer head : Nat} :
    Follows s (decide (tile < 1024) && decide (pslot < 16)) (execHeadLayerForward tile pslot ctx layer head at_ s) := by
  refine .onObject ?_
  split
  · exact keeps_tick
  · split
    · exact keeps_tick
    · exact .ite keeps_tick keeps_tick.setTile.bumpBy.bumpBy

/-! ## Light -/

theorem execLaneRemap_follows {n : Nat} {laneMap : BitVec 17} : Follows s (decide (n < 24)) (execLaneRemap n laneMap at_ s) := by
  refine .onObject (.ite (Keeps.applyMap ?_) ?_) <;> exact .ite keeps_tick.setPort keeps_tick

theorem execToneWindow_follows {cluster ring quality : Nat} {seen : ToneSeen} :
    Follows s (clusterOk cluster && decide (ring < clusterRings cluster)) (execToneWindow cluster ring seen quality at_ s) := by
  have hloop : Keeps s ((s.tick at_).loopWindow cluster ring seen.errs) := keeps_tick.loopWindow
  refine .onObject ?_
  generalize (s.tick at_).loopWindow cluster ring seen.errs = b at hloop
  extract_lets
  split
  · exact .ite hloop.putRing hloop.ringAlarm.bump.fault
  · refine .ite hloop (.ite hloop.ringFails (.ite (.ite hloop ?_)
      (.ite hloop (.ite hloop.ringVerified (.ite hloop.putRing hloop.ringFails)))))
    split
    · exact hloop.putRing
    · exact .ite hloop hloop.ringFails
  · refine .ite hloop (.ite hloop.ringFails (.ite (.ite hloop ?_)
      (.ite hloop (.ite hloop.ringVerified (.ite hloop.putRing hloop.ringFails)))))
    split
    · exact hloop.putRing
    · exact .ite hloop hloop.ringFails
  · exact hloop

theorem execAcquisitionTimeout_follows {cluster ring : Nat} :
    Follows s (clusterOk cluster && decide (ring < clusterRings cluster)) (execAcquisitionTimeout cluster ring at_ s) :=
  .onObject (.ite keeps_tick.ringFails keeps_tick)

theorem execSpareReady_follows {n : Nat} : Follows s (laserOk n) (execSpareReady n at_ s) :=
  .onObject (.ite keeps_tick (.ite keeps_tick.spareFails (.ite keeps_tick (.ite keeps_tick.setLas.wantQuad keeps_tick.setLas))))

theorem execSpareTimeout_follows {n : Nat} : Follows s (laserOk n) (execSpareTimeout n at_ s) :=
  .onObject (.ite keeps_tick.spareFails keeps_tick)

theorem execPowerLoopUpdate_follows {n : Nat} {seen : LaserSeen} : Follows s (laserOk n) (execPowerLoopUpdate n seen s) := by
  have hmoved : Keeps s (s.setFld (Reg.LAS_BIAS n) Fld.LAS_BIAS_PWR (unsigned 16 seen.pwr)) := (Keeps.refl s).setFld
  exact .onObject (.ite hmoved (.ite hmoved.setFld.tuneLaser.spareFails (.ite hmoved.setFld.tuneLaser.setLas hmoved.setFld.tuneLaser)))

theorem execFadeEvaluation_follows {n : Nat} {pwr : Int} : Follows s (laserOk n) (execFadeEvaluation n pwr at_ s) := by
  refine .onObject (.ite keeps_tick ?_)
  extract_lets x low s0 s1 was cause s2
  have hlow : Keeps s s1 := .ite keeps_tick.setFld.setLaser keeps_tick.setFld
  have hfade : Keeps s s2 := .ite hlow.fade hlow
  exact .ite hfade (.ite hfade.noSpare (.ite hfade.warmLaser hfade))

theorem execIoLaserSwap_follows {n : Nat} : Follows s (laserOk n) (execIoLaserSwap n at_ s) :=
  .onObject (.ite keeps_tick (.ite keeps_tick.laneOut keeps_tick.switchIn.laneAlarm))

/-! ## Calibration -/

theorem execCalTriggerCheck_follows {ok : Bool} : Follows s ok (execCalTriggerCheck at_ s) := by
  refine .next (.ite keeps_tick (Keeps.startRuns (keeps_tick.other.each fun _ _ hv => ?_)))
  split
  · exact .ite hv.calHold hv
  · exact hv

theorem execCalibrationSlice_follows {phys : Nat} : Follows s (decide (phys < 1088)) (execCalibrationSlice phys at_ s) := by
  refine .onObject (.ite keeps_tick ?_)
  extract_lets
  split
  · exact keeps_tick.runSlice
  · split
    · exact .ite keeps_tick keeps_tick.beginRun
    · exact keeps_tick.beginRun.runSlice
    · exact keeps_tick

theorem execCalRunEnd_follows {ok : Bool} {obj : CalObj} {res : CalResult} : Follows s ok (execCalRunEnd obj res at_ s) := by
  refine .next ?_
  split
  · exact keeps_tick
  · refine .ite keeps_tick (Keeps.startRuns (Keeps.calEnds (.ite keeps_tick.other.other.calHold.laneBack ?_)))
    split
    · exact keeps_tick.other.laneFails
    · exact .ite keeps_tick.other.noteRun.takeWear.acceptRun.laneBack keeps_tick.other.noteRun.takeWear.other.calFault.calHold.laneBack

theorem execCalFlashRecord_follows {ok done : Bool} {obj : CalObj} : Follows s ok (execCalFlashRecord obj done s) := by
  refine .next ?_
  split
  · exact Keeps.refl s
  · exact .ite (Keeps.refl s) (.ite (Keeps.refl s).flashDone.otherFlash (Keeps.refl s).flashDone.otherFlash.calFault)

/-! ## The fabric -/

theorem execFrameReceived_follows {n : Nat} {f : Frame} : Follows s (decide (n < 24)) (execFrameReceived n f at_ s) := by
  refine .onObject (.ite keeps_tick (.ite keeps_tick.setPort.bump ?_))
  extract_lets ahead skip s1
  have hskip : Keeps s s1 := .ite keeps_tick.useFree keeps_tick
  exact .ite (hskip.takeHeader.each fun _ _ hv => hv.deliverMsg).chainsGoOn hskip

theorem execRequestTimeout_follows {ok : Bool} {tag : Nat} : Follows s ok (execRequestTimeout tag at_ s) := by
  refine .next ?_
  split
  · exact keeps_tick
  · exact .ite keeps_tick (.ite keeps_tick.resend.bump keeps_tick.dropReq.moduleLost)

theorem execRelayResend_follows {ok : Bool} {tag : Nat} : Follows s ok (execRelayResend tag at_ s) := by
  refine .next ?_
  split
  · exact keeps_tick
  · exact .ite keeps_tick.resend keeps_tick

theorem execRelay_follows {n : Nat} {m : FMsg} : Follows s (decide (n < 24)) (execRelay n m s) :=
  .onObject ((Keeps.refl s).onMsg fun _ hv => .ite hv.takeRecord hv.refuseMsg)

theorem execChain_follows {n : Nat} {m : FMsg} : Follows s (decide (n < 24)) (execChain n m s) := by
  refine .onObject (.ite ?_ (Keeps.refl s))
  extract_lets
  have hport := fun x => (Keeps.refl s).setPort (i := n) (x := x)
  split
  · exact (hport _).giveCredits.refuseMsg
  · exact .ite (hport _).giveCredits.refuseMsg (.ite (hport _).giveCredits.respond (hport _).takeHalf)

theorem execProbe_follows {n : Nat} {m : FMsg} : Follows s (decide (n < 24)) (execProbe n m s) :=
  .onObject ((Keeps.refl s).onMsg fun _ hv => hv.respond)

theorem execProbeSend_follows {ok : Bool} : Follows s ok (execProbeSend at_ s) :=
  .next (.ite keeps_tick (keeps_tick.other.each fun _ _ hv => (Keeps.ite hv.other hv).request))

theorem execProbeLoss_follows {ok : Bool} {module : Nat} : Follows s ok (execProbeLoss module at_ s) :=
  .next (.ite keeps_tick.moduleLost keeps_tick)

theorem execTimeRecordSend_follows {ok : Bool} : Follows s ok (execTimeRecordSend at_ s) :=
  .next (.ite keeps_tick (keeps_tick.other.each fun _ _ hv => hv.requestOn))

theorem execTimeRecord_follows {n received : Nat} : Follows s (decide (n < 24)) (execTimeRecord n received s) :=
  .onObject (.ite (Keeps.refl s) (Keeps.refl s).setPort.other.setFld.setFlag.setFlag)

theorem execFrameAlignmentLoss_follows {n : Nat} : Follows s (decide (n < 24)) (execFrameAlignmentLoss n at_ s) :=
  .onObject (.ite keeps_tick.portDown keeps_tick)

theorem execPortRetrain_follows {n : Nat} : Follows s (decide (n < 24)) (execPortRetrain n at_ s) :=
  .onObject (.ite keeps_tick.trainPort keeps_tick)

theorem execTrainingComplete_follows {n : Nat} {res : TrainEnd} : Follows s (decide (n < 24)) (execTrainingComplete n res at_ s) :=
  .onObject (.ite keeps_tick keeps_tick.trainEnds.joinEnds)

/-! ## The twin -/

theorem execPairingTimeout_follows {ok : Bool} : Follows s ok (execPairingTimeout at_ s) := .next (.ite keeps_tick.pairFails keeps_tick)

theorem execAckWaitExpiry_follows {ok : Bool} : Follows s ok (execAckWaitExpiry at_ s) := .next (.ite keeps_tick.degrade keeps_tick)

theorem execJournal_follows {n : Nat} {m : FMsg} : Follows s (decide (n < 24)) (execJournal n m s) :=
  .onObject (.ite ((Keeps.refl s).onMsg fun _ hv =>
    .ite hv.refuseMsg (.ite hv.other.degrade.respond hv.other.setFld.undegrade.respond)) (Keeps.refl s))

theorem execResp_follows {n : Nat} {m : FMsg} : Follows s (decide (n < 24)) (execResp n m s) := by
  refine .onObject ((Keeps.refl s).onMsg fun v hv => ?_)
  extract_lets
  split
  · exact hv
  · refine .ite hv.setReq ?_
    extract_lets
    split
    · split
      · exact hv.dropReq.setPlace
      · exact hv.dropReq
    · exact hv.dropReq.journalAck
    · exact hv.dropReq.other
    · exact .ite hv.dropReq.pairFails hv.dropReq
    · exact hv.dropReq

theorem execMgmt_follows {n : Nat} {m : FMsg} : Follows s (decide (n < 24)) (execMgmt n m s) := by
  refine .onObject ((Keeps.refl s).onMsg fun v hv => .ite hv.respond ?_)
  split
  · exact hv.mgmtPair
  · refine Keeps.respond (.ite ?_ hv)
    split
    · exact hv.releaseHeld.twinSolo.endLongAt
    · exact hv.pairFails
    · exact hv.releaseHeld.twinSolo
  · exact hv.openingCame.respond
  · exact hv.mgmtDone.respond
  · exact hv.mgmtGone.respond
  · exact hv.respond
  · exact hv.mgmtAnswer.respond
  · exact hv.respond

theorem execHeartbeat_follows {path state ackSeq : Nat} {takeover : Bool} :
    Follows s (decide (path < 3)) (execHeartbeat path state takeover ackSeq at_ s) :=
  .onObject (.ite keeps_tick (.ite (keeps_tick.other.countPaths.each fun _ _ hv => hv.fencePlace) keeps_tick.other.countPaths))

theorem execHeartbeatSend_follows {ok : Bool} : Follows s ok (execHeartbeatSend at_ s) :=
  .next (.ite keeps_tick ((Keeps.ite keeps_tick.other.bump keeps_tick.other).each fun _ _ hv => hv.transmit).countPaths)

theorem execPeerLost_follows {ok : Bool} : Follows s ok (execPeerLost at_ s) := by
  refine .next (.ite keeps_tick ?_)
  split
  · exact keeps_tick.pairFails
  · split
    · exact keeps_tick.releaseHeld.twinSolo.endLongAt
    · exact keeps_tick.releaseHeld.twinSolo
  · exact .ite keeps_tick.takeover keeps_tick

/-! ## Power and the housekeeping converters -/

theorem execDroop_follows {q : Nat} : Follows s (decide (q < 4)) (execDroop q at_ s) :=
  .onObject (.ite keeps_tick (.ite keeps_tick.bump.fault keeps_tick.other.setFld.bump))

theorem execFastLimiter_follows {ok : Bool} {qest : List Nat} : Follows s ok (execFastLimiter at_ qest s) :=
  .next (.ite keeps_tick.takeQest.setFld.addEstimate.watchCap.capMet.limitStep keeps_tick.takeQest.setFld.addEstimate.watchCap.capMet)

theorem execCapFloor_follows {ok : Bool} : Follows s ok (execCapFloor at_ s) := by
  refine .next ?_
  split
  · exact .ite keeps_tick.setFlag.bump.fault keeps_tick
  · exact keeps_tick

theorem execPtpReview_follows {ok : Bool} {coreTerms : List Nat} : Follows s ok (execPtpReview at_ coreTerms s) := by
  refine .next (.ite keeps_tick ?_)
  extract_lets _ _ _ _ _ _ s1
  have hread : Keeps s s1 := (Keeps.ite keeps_tick keeps_tick.other.setFld).other
  refine .ite hread.makeRoom ?_
  have horder : Keeps s (State.reviewOrder 4 [0, 1, 2, 3] s1).2 := hread.reviewOrder
  generalize State.reviewOrder 4 [0, 1, 2, 3] s1 = order at horder
  refine Keeps.foldlFst horder fun a q ha => ?_
  extract_lets
  split
  · exact ha
  · split
    · exact ha.setFld.wantRaise
    · exact ha

theorem execGovernorRelease_follows {ok : Bool} : Follows s ok (execGovernorRelease at_ s) :=
  .next (.ite keeps_tick keeps_tick.other.demandAll)

theorem execIntegrationPeriodEnd_follows {pair : Nat} {codeV codeI energy : Int} :
    Follows s (decide (pair < 6)) (execIntegrationPeriodEnd pair codeV codeI energy at_ s) :=
  .onObject (.ite (Keeps.ite keeps_tick.calPeriod keeps_tick.inputPeriod).periodBoundary (.ite keeps_tick.calPeriod
    (.ite keeps_tick.pushResult.pushResult.other keeps_tick)))

theorem execSequencerEntry_follows {ok : Bool} : Follows s ok (execSequencerEntry at_ s) := by
  refine .next (.ite keeps_tick.setFlag ?_)
  split
  · exact keeps_tick.setFlag
  · exact .ite keeps_tick.setFlag.setFld keeps_tick.setFlag.setFld.other.setFld

theorem execPowerEmergency_follows {row : PowerRow} {measured : Nat} : Follows s (decide (row < 7)) (execPowerEmergency row measured at_ s) :=
  .onObject (.ite keeps_tick (.ite keeps_tick.other.powerOff keeps_tick.powerBegins))

theorem execThermalSample_follows {region : Nat} {temps : List Int} : Follows s (decide (region < 15)) (execThermalSample region temps at_ s) := by
  refine .onObject (.ite keeps_tick ?_)
  have hread : Keeps s ((s.tick at_).each ((List.range (sensorsOf region)).zip temps) fun s x => s.readSensor region x.1 x.2) :=
    keeps_tick.each fun _ _ hv => hv.readSensor
  exact .ite hread.other.setFld.setFld.setFld.other.powerOff hread.other.setFld.setFld.setFld.stepBands.stepConds

/-! ## Resets and start-up -/

theorem execPerstRelease_follows {ok : Bool} : Follows s ok (execPerstRelease at_ s) := .next (.ite keeps_tick.other.setPhase keeps_tick.other)

theorem execReferenceLoss_follows {ok : Bool} : Follows s ok (execReferenceLoss s) :=
  .next (.ite (Keeps.refl s) (Keeps.refl s).setFlag.setFlag.bump.pldm)

theorem execPowerOn_follows {ok : Bool} : Follows s ok (execPowerOn at_ s) := .next (.ite keeps_tick keeps_tick.cleared.startAt.other)

theorem execStartUpStepEnd_follows {ok : Bool} {obs : StartObs} : Follows s ok (execStartUpStepEnd at_ obs s) := by
  refine .next (.ite (.ite keeps_tick keeps_tick.stepEnds) ?_)
  extract_lets
  split
  · exact keeps_tick.quadStepEnds
  · exact keeps_tick

/-! ## Firmware and records -/

theorem execWatchdog_follows {i : Nat} {cause : CrashCause} : Follows s (decide (i < 8)) (execWatchdog i cause at_ s) :=
  .onObject (.ite keeps_tick (Keeps.ite keeps_tick.bump.setFld.setFld.fault.setProc.pldm keeps_tick.bump.setFld.setFld.fault.setProc).procGone)

theorem execGlobalCairn_follows {ok : Bool} : Follows s ok (execGlobalCairn at_ s) := by
  refine .next (.ite keeps_tick ?_)
  extract_lets s0 s1
  have hcairns : Keeps s s1 := (keeps_tick.each fun _ _ hv => hv.quadrantCairn).replaceAll
  split
  · exact .ite hcairns.other.actPhase.switchBank hcairns
  · exact hcairns

theorem execActivationTimeout_follows {ok : Bool} : Follows s ok (execActivationTimeout at_ s) :=
  .next (.ite keeps_tick.actPhase.switchBank keeps_tick)

theorem execLifetimeCounterWrite_follows {q : Nat} : Follows s (decide (q < 4)) (execLifetimeCounterWrite q at_ s) :=
  .onObject (.ite keeps_tick (keeps_tick.other.flashDone.each fun _ _ hv => hv.otherFlash.setFld))

theorem execAlive_follows {i : Nat} : Follows s (decide (i < 8)) (execAlive i at_ s) := .onObject (.ite keeps_tick keeps_tick.comesAlive)

theorem execLongOperationSlice_follows {fn seq amount : Nat} : Follows s (decide (fn < 64)) (execLongOperationSlice fn seq amount at_ s) := by
  refine .onObject ?_
  split
  · exact .ite keeps_tick.serviceDone.runLong keeps_tick
  · exact keeps_tick

/-! ## The host -/

theorem execQread_follows {ok : Bool} {fn : Nat} {half : Half} : Follows s ok (execQread fn half s) := by
  refine .next ((Keeps.refl s).hostAccess fun v hv => ?_)
  cases half
  · exact Keeps.other (s := (v.readBar0 fn 0x120010 8).2) hv.readBar0
  · exact Keeps.other (s := (v.readBar0 fn 0x120010 4).2) hv.readBar0
  · exact Keeps.other (s := (v.readBar0 fn 0x120014 4).2) hv.readBar0

theorem execRcRead_follows {ok : Bool} {fn off len : Nat} : Follows s ok (execRcRead fn off len s) :=
  .next ((Keeps.refl s).hostAccess fun _ hv => .ite hv.urAt hv.readBar0.other)

theorem execRegisterWrite_follows {ok partialBe : Bool} {fn off : Nat} {data : List Byte} :
    Follows s ok (execRegisterWrite fn off data partialBe s) :=
  .next ((Keeps.refl s).reached fun _ hv => .ite hv.urAt (.ite hv.refuseWrite hv.writeBar0))

theorem execApertureAccess_follows {ok : Bool} {fn off : Nat} {acc : ApAccess} : Follows s ok (execApertureAccess fn off acc s) :=
  .next ((Keeps.refl s).hostAccess fun _ hv => .ite hv.urAt hv.aperture)

theorem execVfEnableClear_follows {ok : Bool} : Follows s ok (execVfEnableClear s) :=
  .next (.ite ((Keeps.refl s).each fun _ _ hv => hv.msixReset).other (Keeps.refl s))

theorem execConfigurationRequest_follows {ok : Bool} {req : CfgRequest} : Follows s ok (execConfigurationRequest req s) :=
  .next (.ite (Keeps.refl s) (.ite (Keeps.refl s).other (.ite (Keeps.refl s).other.cfgWrite (Keeps.refl s).other)))

theorem execFullRingReminder_follows {fn ring : Nat} :
    Follows s (decide (fn < 64) && decide (ring < 17)) (execFullRingReminder fn ring at_ s) := by
  refine .onObject ?_
  split
  · exact keeps_tick
  · exact .ite keeps_tick.raise keeps_tick

/-! ## Contexts that are paged -/

theorem execScreeScan_follows {ok : Bool} : Follows s ok (execScreeScan at_ s) :=
  .next (.ite keeps_tick (keeps_tick.other.each fun _ _ hv => hv.scanCtx))

theorem execParkComplete_follows {ctx : Nat} : Follows s (decide (ctx < 4194304)) (execParkComplete ctx at_ s) := by
  refine .onObject ?_
  split
  · exact .ite keeps_tick keeps_tick.endPark
  · exact keeps_tick

theorem execRestoreComplete_follows {ctx : Nat} : Follows s (decide (ctx < 4194304)) (execRestoreComplete ctx at_ s) := by
  refine .onObject ?_
  split
  · exact .ite keeps_tick.endRestore keeps_tick
  · exact keeps_tick

/-! ## Records in flash -/

theorem execFaultLogFlush_follows {ok : Bool} : Follows s ok (execFaultLogFlush at_ s) := by
  have hk : Keeps s ((s.tick at_).flashDone 0) := keeps_tick.flashDone
  exact .next (.ite keeps_tick ⟨hk.pending, hk.now, hk.free, fun c => { hk.canon c with
    faultLog := (keeps_tick.canon c).faultLog, flashLog := decide_eq_true (keeps_tick.canon c).faultLog }⟩)

theorem recordOk_mapRecord {f : Flash} {s : State} (h : f.mapRec = some s.mapRecord) : f.recordOk = true := by
  obtain ⟨hsorted, hkeys⟩ := mapRecord_ok s
  simpa [Flash.recordOk, h, hsorted] using hkeys

theorem execMapRecordWrite_follows {ok : Bool} : Follows s ok (execMapRecordWrite at_ s) := by
  have hk : Keeps s ((s.tick at_).flashDone 1) := keeps_tick.flashDone
  exact .next (.ite keeps_tick ⟨hk.pending, hk.now, hk.free, fun c => { hk.canon c with record := recordOk_mapRecord rfl }⟩)

end

/-- Every command keeps the queue, the order of times and free values and the canonical form, or stops at an object that is not there. -/
theorem exec_follows (c : Instr) (s : State) : Follows s c.wf (exec c s) := by
  cases c with
  | sessionOpen => exact execSessionOpen_follows
  | sessionAppend => exact execSessionAppend_follows
  | sessionPause => exact execSessionPause_follows
  | sessionResume => exact execSessionResume_follows
  | sessionClose => exact execSessionClose_follows
  | specTree => exact execSpecTree_follows
  | cairn => exact execCairn_follows
  | ridge => exact execRidge_follows
  | fence => exact execFence_follows
  | kvPark => exact execKvPark_follows
  | kvRestore => exact execKvRestore_follows
  | unassignedOpcode => exact execUnassignedOpcode_follows
  | partCreate => exact .next (Keeps.refl s).cPacket
  | partDestroy => exact .next (Keeps.refl s).cPacket
  | partSetEsc => exact .next (Keeps.refl s).cPacket
  | partSetAge => exact .next (Keeps.refl s).cPacket
  | partSetRanges => exact .next (Keeps.refl s).cPacket
  | partSetBuckets => exact .next (Keeps.refl s).cPacket
  | partSetResRing => exact .next (Keeps.refl s).cPacket
  | partSetFreeRing => exact .next (Keeps.refl s).cPacket
  | partSetScratch => exact .next (Keeps.refl s).cPacket
  | partSetScree => exact .next (Keeps.refl s).cPacket
  | partSetProfiles => exact .next (Keeps.refl s).cPacket
  | partSetMmuRoot => exact .next (Keeps.refl s).cPacket
  | partSetWindow => exact .next (Keeps.refl s).cPacket
  | partSetTiles => exact .next (Keeps.refl s).cPacket
  | partSetIds => exact .next (Keeps.refl s).cPacket
  | modelLoad => exact .next (Keeps.refl s).cPacket
  | modelSwap => exact .next (Keeps.refl s).cPacket
  | modelUnload => exact .next (Keeps.refl s).cPacket
  | place => exact .next (Keeps.refl s).cPacket
  | calRun => exact .next (Keeps.refl s).cPacket
  | calQuery => exact .next (Keeps.refl s).cPacket
  | testRun => exact .next (Keeps.refl s).cPacket
  | fwStage => exact .next (Keeps.refl s).cPacket
  | fwActivate => exact .next (Keeps.refl s).cPacket
  | twinPair => exact .next (Keeps.refl s).cPacket
  | twinUnpair => exact .next (Keeps.refl s).cPacket
  | fabricJoin => exact .next (Keeps.refl s).cPacket
  | linkQuery => exact .next (Keeps.refl s).cPacket
  | logRead => exact .next (Keeps.refl s).cPacket
  | keyLoad => exact .next (Keeps.refl s).cPacket
  | openSession => exact .next (Keeps.refl s).cPacket
  | keyRetire => exact .next (Keeps.refl s).cPacket
  | zeroize => exact .next (Keeps.refl s).cPacket
  | sqDb => exact .onObject ((Keeps.refl s).reached fun _ hv => hv.writeSqDb)
  | cqDb => exact .onObject ((Keeps.refl s).reached fun _ hv => hv.writeCqDb)
  | ringEnable => exact .onObject ((Keeps.refl s).reached fun _ hv => hv.writeRingCfg)
  | ringDisable => exact .onObject ((Keeps.refl s).reached fun _ hv => hv.writeRingCfg)
  | invalidate => exact .onObject ((Keeps.refl s).ofPart fun _ hv => hv.writeInv)
  | invalidateAll => exact .onObject ((Keeps.refl s).ofPart fun _ hv => hv.writeInv)
  | invalidationComplete => exact .onObject (Keeps.refl s).invDone
  | reservoirTailWrite => exact .onObject ((Keeps.refl s).ofPart fun _ hv => hv.writeResTail)
  | freeHeadWrite => exact .onObject ((Keeps.refl s).ofPart fun _ hv => hv.writeFreeHead)
  | moduleReset => exact .next ((Keeps.refl s).resetWrite fun _ hv => hv.moduleReset)
  | quadrantReset => exact .next ((Keeps.refl s).resetWrite fun _ hv => hv.each fun _ _ hw => hw.quadReset)
  | portEnable => exact .onObject (Keeps.refl s).portWrite
  | portDisable => exact .onObject (Keeps.refl s).portWrite
  | qread => exact execQread_follows
  | rcRead => exact execRcRead_follows
  | registerWrite => exact execRegisterWrite_follows
  | apertureAccess => exact execApertureAccess_follows
  | unsupportedRequest => exact .next (.ite (Keeps.refl s) (Keeps.refl s).urAt.other)
  | powerOn => exact execPowerOn_follows
  | startUpStepEnd => exact execStartUpStepEnd_follows
  | perst => exact .next (.ite (Keeps.refl s) (Keeps.refl s).other.moduleReset)
  | functionLevelReset => exact .onObject (.ite (Keeps.refl s).flr (Keeps.refl s))
  | d3hot => exact .onObject (.ite (Keeps.refl s).flr (Keeps.refl s))
  | vfEnableClear => exact execVfEnableClear_follows
  | setCoord => exact .next ((Keeps.refl s).onOem fun _ hv => .ite hv.oem hv.wrReg.setRoles.oem)
  | setCap => exact .next ((Keeps.refl s).onOem fun _ hv => hv.setFld.freshCap.oem)
  | getDevpub => exact .next ((Keeps.refl s).onOem fun _ hv => .ite hv.oem hv.oem)
  | getState => exact .next ((Keeps.refl s).onOem fun _ hv => hv.oem)
  | debugUnlock => exact execDebugUnlock_follows
  | referenceLoss => exact execReferenceLoss_follows
  | referenceRestored => exact .next (.ite (Keeps.refl s).setFlag.setFlag (Keeps.refl s))
  | stepBuild => exact execStepBuild_follows
  | passIssue => exact execPassIssue_follows
  | arrayCycle => exact execArrayCycle_follows
  | tileLayerPassEnd => exact execTileLayerPassEnd_follows
  | arrayWrite => exact execArrayWrite_follows
  | scorePass => exact execScorePass_follows
  | mixPass => exact execMixPass_follows
  | lockAlarm => exact .onObject keeps_tick.ringAlarm
  | headLayerForward => exact execHeadLayerForward_follows
  | sample => exact execSample_follows
  | stepRetire => exact execStepRetire_follows
  | completionWrite => exact .onObject keeps_tick.writeOut
  | completionBufferStall => exact execCompletionBufferStall_follows
  | frameReturn => exact .onObject (Keeps.refl s).freeRun
  | globalCairn => exact execGlobalCairn_follows
  | quadrantCairn => exact .onObject keeps_tick.quadrantCairn
  | tileCairn => exact .onObject keeps_tick.replaceAll
  | swapHold => exact execSwapHold_follows
  | swapComplete => exact execSwapComplete_follows
  | patrolScrub => exact execPatrolScrub_follows
  | driftFilterUpdate => exact execDriftFilterUpdate_follows
  | calTriggerCheck => exact execCalTriggerCheck_follows
  | calibrationSlice => exact execCalibrationSlice_follows
  | calRunEnd => exact execCalRunEnd_follows
  | calFlashRecord => exact execCalFlashRecord_follows
  | testDue => exact execTestDue_follows
  | testSlice => exact execTestSlice_follows
  | testOverdue => exact execTestOverdue_follows
  | powerLoopUpdate => exact execPowerLoopUpdate_follows
  | fadeEvaluation => exact execFadeEvaluation_follows
  | spareReady => exact execSpareReady_follows
  | spareTimeout => exact execSpareTimeout_follows
  | ioLaserSwap => exact execIoLaserSwap_follows
  | toneWindow => exact execToneWindow_follows
  | acquisitionTimeout => exact execAcquisitionTimeout_follows
  | heaterLimit => exact .onObject keeps_tick.ringAlarm
  | frameReceived => exact execFrameReceived_follows
  | laneRemap => exact execLaneRemap_follows
  | requestTimeout => exact execRequestTimeout_follows
  | relay => exact execRelay_follows
  | relayResend => exact execRelayResend_follows
  | chain => exact execChain_follows
  | chainOpenTimeout => exact execChainOpenTimeout_follows
  | journal => exact execJournal_follows
  | resp => exact execResp_follows
  | probe => exact execProbe_follows
  | probeSend => exact execProbeSend_follows
  | probeLoss => exact execProbeLoss_follows
  | mgmt => exact execMgmt_follows
  | timeRecord => exact execTimeRecord_follows
  | timeRecordSend => exact execTimeRecordSend_follows
  | frameAlignmentLoss => exact execFrameAlignmentLoss_follows
  | portRetrain => exact execPortRetrain_follows
  | heartbeat => exact execHeartbeat_follows
  | heartbeatSend => exact execHeartbeatSend_follows
  | peerLost => exact execPeerLost_follows
  | ackWaitExpiry => exact execAckWaitExpiry_follows
  | fastLimiter => exact execFastLimiter_follows
  | ptpReview => exact execPtpReview_follows
  | capFloor => exact execCapFloor_follows
  | droop => exact execDroop_follows
  | operatingPointBoundary => exact .onObject keeps_tick.stepUp
  | vgood => exact .onObject keeps_tick.setFlag.stepUp
  | powerEmergency => exact execPowerEmergency_follows
  | criticalRelease => exact .onObject keeps_tick.powerEnds
  | ridgeWindow => exact .next keeps_tick.freshBoost
  | sequencerEntry => exact execSequencerEntry_follows
  | integrationPeriodEnd => exact execIntegrationPeriodEnd_follows
  | refSettled => exact .next (keeps_tick.when fun _ hv => hv.setFlag)
  | thermalSample => exact execThermalSample_follows
  | demandRelease => exact .onObject keeps_tick.other.freshTherm
  | watchdog => exact execWatchdog_follows
  | alive => exact execAlive_follows
  | governorRelease => exact execGovernorRelease_follows
  | activationTimeout => exact execActivationTimeout_follows
  | longOperationSlice => exact execLongOperationSlice_follows
  | progress => exact execProgress_follows
  | screeScan => exact execScreeScan_follows
  | parkComplete => exact execParkComplete_follows
  | restoreComplete => exact execRestoreComplete_follows
  | contextCacheWriteBack => exact .onObject ((Keeps.refl s).each fun _ _ hv => .ite hv.writeBack hv)
  | fenceTimeout => exact execFenceTimeout_follows
  | fullRingReminder => exact execFullRingReminder_follows
  | coSessionTimeout => exact execCoSessionTimeout_follows
  | selfTestFailure => exact .onObject (Keeps.refl s).enterError
  | faultLogFlush => exact execFaultLogFlush_follows
  | mapRecordWrite => exact execMapRecordWrite_follows
  | lifetimeCounterWrite => exact execLifetimeCounterWrite_follows
  | trainingComplete => exact execTrainingComplete_follows
  | pairingTimeout => exact execPairingTimeout_follows
  | perstRelease => exact execPerstRelease_follows
  | vfEnableSet => exact .next (.ite (Keeps.refl s).other (Keeps.refl s))
  | configurationRequest => exact execConfigurationRequest_follows

end Sys2Proof.Machine

namespace Sys2Proof
open Machine

/-- Settles O3: a step with a command is the command's effect, which keeps the canonical form; a step without one only passes time. -/
theorem everyStepKeepsTheCanonicalForm : Obligations.EveryStepKeepsTheCanonicalForm := by
  unfold Obligations.EveryStepKeepsTheCanonicalForm
  intro s t hcanon hstep
  unfold step at hstep
  split at hstep
  · cases hstep
    exact keeps_tick.canon hcanon
  case h_2 c rest _ => exact ((exec_follows c { s with pending := rest }).keeps hstep).canon { hcanon with }

/-- Settles O5: no command touches the queue, and none sets the clock or the number of the next free value back. -/
theorem commandsLeaveTheQueueAndTheOrderOfTime : Obligations.CommandsLeaveTheQueueAndTheOrderOfTime := by
  unfold Obligations.CommandsLeaveTheQueueAndTheOrderOfTime
  intro c s t hexec
  have hk := (exec_follows c s).keeps hexec
  exact ⟨hk.pending, hk.now, hk.free⟩

/-- Settles O6: a command that is well formed has a next state. That a command naming an object outside the module stops it is log entry 90. -/
theorem onlyAbsentObjectsStopACommand : Obligations.OnlyAbsentObjectsStopACommand := by
  unfold Obligations.OnlyAbsentObjectsStopACommand
  intro c s
  exact (exec_follows c s).imp_left fun ⟨t, ht, _⟩ => ⟨t, ht⟩

/-- Settles O1: a step takes the command at the front of the queue and leaves the rest of the queue. -/
theorem frontCommandTakesEffect : Obligations.FrontCommandTakesEffect := by
  unfold Obligations.FrontCommandTakesEffect
  intro c s
  rfl

/-- Settles O2: with no command waiting a step is one tick of 10 ns. -/
theorem idleStepPassesOneReferenceEdge : Obligations.IdleStepPassesOneReferenceEdge := by
  unfold Obligations.IdleStepPassesOneReferenceEdge
  intro s hempty
  have hstep : step s = .next (s.tick (s.now + 10)) := by simp [step, hempty]
  rw [hstep]
  simp [State.tick]

/-- Settles O4: after reset every table and log is empty. -/
theorem resetStateIsCanonical : Obligations.ResetStateIsCanonical := by
  unfold Obligations.ResetStateIsCanonical
  exact { mem := rfl, regs := rfl, hostMem := rfl, ctxs := rfl, aux := rfl, models := rfl, places := rfl, parts := rfl, pairs := rfl,
          procs := rfl, tiles := rfl, phys := rfl, lasers := rfl, rings := rfl, ports := rfl, globalLog := Nat.zero_le _,
          faultLog := Nat.zero_le _, events := Nat.zero_le _, record := rfl, flashLog := rfl }

/-- Settles O7: after reset no register is listed, so each reads the value its row gives it. -/
theorem registersReadTheirResetValues : Obligations.RegistersReadTheirResetValues := by
  unfold Obligations.RegistersReadTheirResetValues
  exact ⟨fun _ => rfl, rfl, rfl, rfl, rfl⟩

end Sys2Proof
end

section
/-! PROOFS. Device memory (R499, R526, R601): what a write leaves at every address and under every key. -/

namespace Sys2Proof.Machine

/-! ## Cells -/

theorem cellAt_tins {cells : List Host.Cell} {a x : Nat} {b : Byte} :
    cellAt (tins a b cells) x = if x = a then some b else cellAt cells x := by
  induction cells with
  | nil => simp only [tins, cellAt]
  | cons c t ih =>
    obtain ⟨k, v⟩ := c
    unfold tins
    by_cases hlt : a < k
    · simp only [if_pos hlt, cellAt]
    · by_cases heq : a = k
      · subst heq
        simp only [if_neg hlt, if_true, cellAt]
        split <;> rfl
      · simp only [if_neg hlt, if_neg heq, cellAt, ih]
        split
        case isTrue hx => simp [hx, Ne.symm heq]
        case isFalse => rfl

theorem cellAt_tdel {cells : List Host.Cell} {a x : Nat} :
    cellAt (tdel a cells) x = if x = a then none else cellAt cells x := by
  induction cells with
  | nil => simp [tdel, cellAt]
  | cons c t ih =>
    obtain ⟨k, v⟩ := c
    unfold tdel
    by_cases heq : a = k
    · subst heq
      simp only [if_true, ih, cellAt]
      split <;> rfl
    · simp only [if_neg heq, cellAt, ih]
      split
      case isTrue hx => simp [hx, Ne.symm heq]
      case isFalse => rfl

/-- A filter by address keeps the byte at each address that passes it. -/
theorem cellAt_filter {cells : List Host.Cell} {p : Nat → Bool} {x : Nat} (hp : p x = true) :
    cellAt (cells.filter fun c => p c.1) x = cellAt cells x := by
  induction cells with
  | nil => rfl
  | cons c t ih =>
    obtain ⟨k, v⟩ := c
    by_cases hx : x = k
    · subst hx
      simp [List.filter_cons, hp, cellAt]
    · by_cases hk : p k = true <;> simp [List.filter_cons, hk, cellAt, hx, ih]

/-! ## Bytes stored -/

theorem Mem.byte_put {m : Mem} {boot a x : Nat} {b : Byte} : (m.put a b).byte boot x = if x = a then b else m.byte boot x := by
  have hunlisted : (m.put a b).unlisted boot x = m.unlisted boot x := rfl
  unfold Mem.byte
  rw [hunlisted]
  unfold Mem.put
  by_cases hzero : (inRanges m.zeroed a && b == 0) = true
  · simp only [if_pos hzero, cellAt_tdel]
    obtain ⟨hin, hb⟩ : inRanges m.zeroed a = true ∧ b = 0 := by simpa using hzero
    split
    case isTrue hx => simp [Mem.unlisted, hx, hin, hb]
    case isFalse => rfl
  · simp only [if_neg hzero, cellAt_tins]
    split <;> rfl

@[simp] theorem Mem.put_keys {m : Mem} {a : Nat} {b : Byte} : (m.put a b).keys = m.keys := rfl
@[simp] theorem Mem.put_poison {m : Mem} {a : Nat} {b : Byte} : (m.put a b).poison = m.poison := rfl

@[simp] theorem Mem.putAll_keys {m : Mem} {a : Nat} {bs : List Byte} : (m.putAll a bs).keys = m.keys := by
  induction bs generalizing m a with
  | nil => rfl
  | cons b t ih => exact ih

@[simp] theorem Mem.putAll_poison {m : Mem} {a : Nat} {bs : List Byte} : (m.putAll a bs).poison = m.poison := by
  induction bs generalizing m a with
  | nil => rfl
  | cons b t ih => exact ih

theorem Mem.byte_putAll_of_outside {m : Mem} {boot a x : Nat} {bs : List Byte} (hx : x < a ∨ a + bs.length ≤ x) :
    (m.putAll a bs).byte boot x = m.byte boot x := by
  induction bs generalizing m a with
  | nil => rfl
  | cons b t ih =>
    simp only [List.length_cons] at hx
    rw [Mem.putAll, ih (by omega), Mem.byte_put, if_neg (by omega)]

theorem Mem.byte_putAll_getElem {m : Mem} {boot a i : Nat} {bs : List Byte} (hi : i < bs.length) :
    (m.putAll a bs).byte boot (a + i) = bs[i] := by
  induction bs generalizing m a i with
  | nil => cases hi
  | cons b t ih =>
    cases i with
    | zero => rw [Mem.putAll, Mem.byte_putAll_of_outside (by omega), Mem.byte_put, if_pos (Nat.add_zero a), List.getElem_cons_zero]
    | succ i =>
      have hlen : i < t.length := Nat.lt_of_succ_lt_succ hi
      have haddr : a + (i + 1) = a + 1 + i := by omega
      rw [Mem.putAll, haddr, ih hlen, List.getElem_cons_succ]

/-! ## Units that come under a key -/

theorem mem_unitsOf {u a n : Nat} : u ∈ unitsOf a n ↔ 0 < n ∧ a / 256 ≤ u ∧ u * 256 < a + n := by
  unfold unitsOf
  by_cases hn : n = 0
  · simp [hn]
  · simp only [if_neg hn, List.mem_map, List.mem_range]
    constructor
    · rintro ⟨i, hi, rfl⟩
      omega
    · rintro ⟨-, hlo, hhi⟩
      exact ⟨u - a / 256, by omega, by omega⟩

theorem inRanges_append {rs qs : List (Nat × Nat)} {a : Nat} : inRanges (rs ++ qs) a = (inRanges rs a || inRanges qs a) := by
  induction rs with
  | nil => rfl
  | cons r t ih =>
    obtain ⟨lo, n⟩ := r
    simp [inRanges, ih, Bool.or_assoc]

/-- Ranges without a unit cover every address of another unit that they covered. -/
theorem inRanges_carve_of_ne {u a : Nat} {rs : List (Nat × Nat)} (hu : a / 256 ≠ u) : inRanges (carve u rs) a = inRanges rs a := by
  refine Bool.eq_iff_iff.2 ⟨inRanges_carve, fun h => ?_⟩
  rw [inRanges_iff] at h ⊢
  obtain ⟨r, hr, hlo, hhi⟩ := h
  unfold carve
  by_cases hbelow : a < u * 256
  · refine ⟨(r.1, min (r.1 + r.2) (u * 256) - r.1), List.mem_flatMap.2 ⟨r, hr, ?_⟩, ?_⟩
    · simp only [List.mem_filter, List.mem_cons, true_or, bne_iff_ne, ne_eq, true_and]
      omega
    · dsimp only
      omega
  · have habove : u * 256 + 256 ≤ a := by omega
    refine ⟨(max r.1 (u * 256 + 256), r.1 + r.2 - max r.1 (u * 256 + 256)), List.mem_flatMap.2 ⟨r, hr, ?_⟩, ?_⟩
    · simp only [List.mem_filter, List.mem_cons, true_or, or_true, bne_iff_ne, ne_eq, true_and]
      omega
    · dsimp only
      omega

theorem Mem.byte_dropUnit_of_ne {m : Mem} {boot u a n x : Nat} (hu : x / 256 ≠ u) : (m.dropUnit u a n).byte boot x = m.byte boot x := by
  have hcell : cellAt (m.dropUnit u a n).cells x = cellAt m.cells x :=
    cellAt_filter (p := fun y => !(y / 256 == u) || (decide (a ≤ y) && decide (y < a + n))) (by simp [hu])
  have hzero : (m.dropUnit u a n).unlisted boot x = m.unlisted boot x := by
    unfold Mem.unlisted
    rw [show (m.dropUnit u a n).zeroed = carve u m.zeroed from rfl, inRanges_carve_of_ne hu]
  unfold Mem.byte
  rw [hcell, hzero]

/-- Unit `u` comes under a key: what one step of `Mem.rekey` does. -/
def Mem.rekeyUnit (key a n : Nat) (m : Mem) (u : Nat) : Mem :=
  let m' := if tget 0 m.keys u = 0 || tget 0 m.keys u = key + 1 then m else m.dropUnit u a n
  { m' with keys := tset 0 m'.keys u (key + 1) }

theorem Mem.rekey_eq {m : Mem} {key a n : Nat} : m.rekey key a n = (unitsOf a n).foldl (Mem.rekeyUnit key a n) m := rfl

theorem Mem.rekeyUnit_keys {m : Mem} {key a n u : Nat} : (m.rekeyUnit key a n u).keys = tset 0 m.keys u (key + 1) := by
  unfold Mem.rekeyUnit
  dsimp only
  split <;> rfl

theorem Mem.rekeyUnit_poison {m : Mem} {key a n u : Nat} : (m.rekeyUnit key a n u).poison = m.poison := by
  unfold Mem.rekeyUnit
  dsimp only
  split <;> rfl

/-- The bytes of a unit that another unit's key does not touch, or that the key may read already, stay. -/
theorem Mem.byte_rekeyUnit {m : Mem} {boot key a n u x : Nat}
    (hx : x / 256 ≠ u ∨ tget 0 m.keys (x / 256) = 0 ∨ tget 0 m.keys (x / 256) = key + 1) :
    (m.rekeyUnit key a n u).byte boot x = m.byte boot x := by
  unfold Mem.rekeyUnit
  dsimp only
  split
  · rfl
  case isFalse hlost =>
    have hne : x / 256 ≠ u := by
      rintro rfl
      simp only [Bool.or_eq_true, decide_eq_true_eq] at hlost
      tauto
    exact Mem.byte_dropUnit_of_ne hne

section
variable {boot key a n x : Nat}

theorem Mem.keys_foldl_rekeyUnit {us : List Nat} {m : Mem} {v : Nat} :
    tget 0 (us.foldl (Mem.rekeyUnit key a n) m).keys v = if v ∈ us then key + 1 else tget 0 m.keys v := by
  induction us generalizing m with
  | nil => simp
  | cons u t ih =>
    rw [List.foldl_cons, ih, Mem.rekeyUnit_keys, tget_tset]
    by_cases ht : v ∈ t <;> by_cases hu : v = u <;> simp [ht, hu]

theorem Mem.byte_foldl_rekeyUnit {us : List Nat} {m : Mem}
    (hx : x / 256 ∉ us ∨ tget 0 m.keys (x / 256) = 0 ∨ tget 0 m.keys (x / 256) = key + 1) :
    (us.foldl (Mem.rekeyUnit key a n) m).byte boot x = m.byte boot x := by
  induction us generalizing m with
  | nil => rfl
  | cons u t ih =>
    have hfirst : (m.rekeyUnit key a n u).byte boot x = m.byte boot x := by
      refine Mem.byte_rekeyUnit (hx.imp_left fun hout => ?_)
      exact fun heq => hout (heq ▸ List.mem_cons_self)
    rw [List.foldl_cons, ih ?_, hfirst]
    rw [Mem.rekeyUnit_keys, tget_tset]
    rcases hx with hout | hread
    · exact .inl fun ht => hout (List.mem_cons_of_mem _ ht)
    · split
      · exact .inr (.inr rfl)
      · exact .inr hread

theorem Mem.poison_foldl_rekeyUnit {us : List Nat} {m : Mem} : (us.foldl (Mem.rekeyUnit key a n) m).poison = m.poison := by
  induction us generalizing m with
  | nil => rfl
  | cons u t ih => rw [List.foldl_cons, ih, Mem.rekeyUnit_poison]

end

/-! ## Writes -/

/-- The memory that a write stores its bytes in: poison codes of whole units cleared, and its units under the key. -/
def Mem.ready (m : Mem) (key : Option Nat) (a n : Nat) : Mem :=
  match key with
  | some k => (m.heal a n).rekey k a n
  | none => m.heal a n

theorem Mem.write_eq {m : Mem} {key : Option Nat} {a : Nat} {bs : List Byte} :
    m.write key a bs = (m.ready key a bs.length).putAll a bs := by
  cases key <;> rfl

theorem Mem.ready_keys {m : Mem} {k a n v : Nat} :
    tget 0 (m.ready (some k) a n).keys v = if v ∈ unitsOf a n then k + 1 else tget 0 m.keys v := by
  rw [Mem.ready, Mem.rekey_eq, Mem.keys_foldl_rekeyUnit]
  rfl

theorem Mem.byte_ready {m : Mem} {boot k a n x : Nat}
    (hx : x / 256 ∉ unitsOf a n ∨ tget 0 m.keys (x / 256) = 0 ∨ tget 0 m.keys (x / 256) = k + 1) :
    (m.ready (some k) a n).byte boot x = m.byte boot x := by
  rw [Mem.ready, Mem.rekey_eq]
  exact Mem.byte_foldl_rekeyUnit (m := m.heal a n) hx

/-- A byte that a key may read, under that key. -/
theorem Mem.readByte_of_key {m : Mem} {boot k x : Nat} (h : tget 0 m.keys (x / 256) = 0 ∨ tget 0 m.keys (x / 256) = k + 1) :
    m.readByte boot (some k) x = m.byte boot x := by
  simp only [Mem.readByte]
  exact if_pos (by simpa using h)

/-- A byte under any key depends on the byte stored and on the key that its unit was written under alone. -/
theorem Mem.readByte_congr {m t : Mem} {boot : Nat} {key : Option Nat} {x : Nat} (hb : t.byte boot x = m.byte boot x)
    (hk : tget 0 t.keys (x / 256) = tget 0 m.keys (x / 256)) : t.readByte boot key x = m.readByte boot key x := by
  cases key with
  | none => exact hb
  | some k =>
    simp only [Mem.readByte, hk, hb]

theorem Mem.readByte_write_getElem {m : Mem} {boot a i : Nat} {key : Option Nat} {bs : List Byte} (hi : i < bs.length) :
    (m.write key a bs).readByte boot key (a + i) = bs[i] := by
  rw [Mem.write_eq]
  cases key with
  | none => exact Mem.byte_putAll_getElem hi
  | some k =>
    rw [Mem.readByte_of_key, Mem.byte_putAll_getElem hi]
    rw [Mem.putAll_keys, Mem.ready_keys, if_pos (mem_unitsOf.2 (by omega))]
    exact .inr rfl

/-- What a write leaves of an address outside the bytes written: everything where it is under no key, in a unit that it does not touch, or
under its own key where that key could read the unit. -/
theorem Mem.readByte_write_of_outside {m : Mem} {boot a x : Nat} {key k : Option Nat} {bs : List Byte} (hx : x < a ∨ a + bs.length ≤ x)
    (hkeep : key = none ∨ x / 256 < a / 256 ∨ a + bs.length ≤ x / 256 * 256 ∨
      (k = key ∧ (tget 0 m.keys (x / 256) = 0 ∨ ∃ i, k = some i ∧ tget 0 m.keys (x / 256) = i + 1))) :
    (m.write key a bs).readByte boot k x = m.readByte boot k x := by
  have hput : ∀ r : Mem, (r.putAll a bs).readByte boot k x = r.readByte boot k x :=
    fun r => Mem.readByte_congr (Mem.byte_putAll_of_outside hx) (by rw [Mem.putAll_keys])
  rw [Mem.write_eq, hput]
  cases key with
  | none => exact Mem.readByte_congr rfl rfl
  | some j =>
    by_cases hunit : x / 256 ∈ unitsOf a bs.length
    · obtain ⟨-, hlo, hhi⟩ := mem_unitsOf.1 hunit
      obtain ⟨rfl, hread⟩ : k = some j ∧ (tget 0 m.keys (x / 256) = 0 ∨ ∃ i, k = some i ∧ tget 0 m.keys (x / 256) = i + 1) := by
        rcases hkeep with h | h | h | h
        · cases h
        · omega
        · omega
        · exact h
      have hread' : tget 0 m.keys (x / 256) = 0 ∨ tget 0 m.keys (x / 256) = j + 1 := by
        rcases hread with h | ⟨i, hi, h⟩
        · exact .inl h
        · cases hi
          exact .inr h
      rw [Mem.readByte_of_key (m := m.ready _ _ _), Mem.byte_ready (.inr hread'), Mem.readByte_of_key hread']
      rw [Mem.ready_keys, if_pos hunit]
      exact .inr rfl
    · exact Mem.readByte_congr (Mem.byte_ready (.inl hunit)) (by rw [Mem.ready_keys, if_neg hunit])

end Sys2Proof.Machine

namespace Sys2Proof
open Machine

/-- Settles O8: a write stores its bytes under its key, and leaves what that key could read of the units it touches. -/
theorem bytesWrittenReadBackUnderTheirKey : Obligations.BytesWrittenReadBackUnderTheirKey := by
  unfold Obligations.BytesWrittenReadBackUnderTheirKey
  refine fun m boot k a bs => ⟨fun i hi => Mem.readByte_write_getElem hi, fun x hx hread => ?_⟩
  refine Mem.readByte_write_of_outside (by omega) (.inr (.inr (.inr ⟨rfl, hread.imp_right fun h => ⟨k, rfl, h⟩⟩)))

end Sys2Proof
end

section
/-! PROOFS. Host writes with a meaning of their own: ring placement, invalidations, the indices of the reservoir and of the free ring, and
the enables of ports (R184, R188 to R192, R202, R215, R286, R289, R318, R375, R379, R392). -/

namespace Sys2Proof.Machine

/-! ## Registers written as a whole or by field -/

theorem State.fld_wrReg_self {s : State} {r : RegRef} {f : Field} {v : Word64} : (s.wrReg r v).fld r f = getBits v f.lo f.w := by
  unfold State.fld
  rw [State.reg_wrReg_self]

theorem State.fld_rstReg_ne {s : State} {r q : RegRef} {g : Field} (h : q.key ≠ r.key) : (s.rstReg r).fld q g = s.fld q g :=
  State.fld_wrReg_ne h

theorem State.fld_bumpBy_ne {s : State} {r q : RegRef} {f g : Field} {n : Nat} (h : q.key ≠ r.key) :
    (s.bumpBy r f n).fld q g = s.fld q g := by
  unfold State.bumpBy
  split
  · rfl
  · exact State.fld_setFld_ne h

theorem State.fld_rstReg_self {s : State} {r : RegRef} {g : Field} : (s.rstReg r).fld r g = getBits r.dflt g.lo g.w :=
  State.fld_wrReg_self

/-- Every register reads as before an operation on objects. -/
theorem State.fld_of_regs {s t : State} {r : RegRef} {f : Field} (h : t.regs = s.regs) : t.fld r f = s.fld r f := by
  unfold State.fld State.reg
  rw [h]

theorem fieldsBut_setFlag {s : State} {r : RegRef} {f : Field} {b : Bool} {l : List (RegRef × Field)} (hl : (r, f) ∈ l) :
    s.fieldsBut (s.setFlag r f b) l := fieldsBut_setFld hl

/-- A register written with two of its fields replaced: the others read as before. -/
theorem fieldsBut_wrReg_putBits_putBits {s : State} {r : RegRef} {f g : Field} {x y : Nat} {l : List (RegRef × Field)} (hf : (r, f) ∈ l)
    (hg : (r, g) ∈ l) : s.fieldsBut (s.wrReg r (putBits (putBits (s.reg r) f.lo f.w x) g.lo g.w y)) l := by
  intro q e h
  by_cases hkey : r.key = q.key
  · obtain ⟨rfl, hdf⟩ := h (r, f) hf hkey
    obtain ⟨-, hdg⟩ := h (q, g) hg rfl
    rw [State.fld_wrReg_self, getBits_putBits_of_disjoint hdg, getBits_putBits_of_disjoint hdf]
    rfl
  · exact State.fld_wrReg_ne fun h => hkey h.symm

theorem each_eq_self {α : Type} {s : State} {xs : List α} {f : State → α → State} (h : ∀ x ∈ xs, f s x = s) : s.each xs f = s := by
  unfold State.each
  induction xs with
  | nil => rfl
  | cons x t ih => rw [List.foldl_cons, h x List.mem_cons_self, ih fun y hy => h y (List.mem_cons_of_mem _ hy)]

theorem getBits_zero_one {v : Word64} : getBits v 0 1 = v.toNat % 2 := by
  simp [getBits, bitsOf]

/-- A one-bit field of a word is a bit of it. -/
theorem getBits_one_eq {v : Word64} {i : Nat} : getBits v i 1 = b2n (v.getLsbD i) := by
  have hbit : v.getLsbD i = decide (v.toNat / 2 ^ i % 2 = 1) := by
    rw [BitVec.getLsbD, Nat.testBit_eq_decide_div_mod_eq]
  have hlt : v.toNat / 2 ^ i % 2 < 2 := Nat.mod_lt _ (by decide)
  simp only [getBits, bitsOf, Nat.pow_one, hbit, b2n, decide_eq_true_eq]
  split <;> omega

@[simp] theorem getBits_zero {lo n : Nat} : getBits 0 lo n = 0 := by
  simp [getBits, bitsOf]

theorem getLsbD_zero_ne {v w : Word64} (h : v.getLsbD 0 ≠ w.getLsbD 0) : v ≠ w := fun he => h (he ▸ rfl)

/-! ## RING_ENABLE and RING_DISABLE (R286, R289, R318) -/

/-- A write of a function that decodes its BARs acts at once. -/
theorem exec_ringEnable {s : State} {fn ring : Nat} {v : Word64} (hr : ring < 17) (h : s.hostWrites fn) :
    exec (.ringEnable fn ring v) s = .next (s.writeRingCfg fn ring ((v ||| 1) &&& ringCfgBits)) := by
  show execRingEnable fn ring v s = _
  simp [execRingEnable, onObject, hr, reached_of_hostWrites h]

theorem exec_ringDisable {s : State} {fn ring : Nat} {v : Word64} (hr : ring < 17) (h : s.hostWrites fn) :
    exec (.ringDisable fn ring v) s = .next (s.writeRingCfg fn ring (v &&& ringCfgBits &&& ~~~1)) := by
  show execRingDisable fn ring v s = _
  simp [execRingDisable, onObject, hr, reached_of_hostWrites h]

theorem pairOn_eq {s : State} {f r : Nat} : s.pairOn f r = (s.reg (Reg.SCH_RING_CFG f r)).getLsbD 0 := by
  have hbit : s.fld (Reg.SCH_RING_CFG f r) Fld.SCH_RING_CFG_EN = b2n ((s.reg (Reg.SCH_RING_CFG f r)).getLsbD 0) := getBits_one_eq
  unfold State.pairOn State.flag
  rw [hbit]
  cases (s.reg (Reg.SCH_RING_CFG f r)).getLsbD 0 <;> rfl

theorem getLsbD_enabling {v : Word64} : ((v ||| 1) &&& ringCfgBits).getLsbD 0 = true := by
  simp [ringCfgBits]

theorem getLsbD_clearing {v : Word64} : (v &&& ~~~1).getLsbD 0 = false := by
  simp

theorem writeRingCfg_of_off {s : State} {f r : Nat} {v : Word64} (hoff : s.pairOn f r = false) (hen : v.getLsbD 0 = true) :
    s.writeRingCfg f r v =
      if s.ringRules f r v then s.wrReg (Reg.SCH_RING_CFG f r) v else s.refuseWrite f (0xD8100 + 0x20 * r) := by
  simp [State.writeRingCfg, hoff, getBits_one_eq, hen, b2n]

theorem writeRingCfg_of_on {s : State} {f r : Nat} {v : Word64} (hon : s.pairOn f r = true) :
    s.writeRingCfg f r v =
      if v = s.reg (Reg.SCH_RING_CFG f r) then s
      else if v = s.reg (Reg.SCH_RING_CFG f r) &&& ~~~1 then (s.ringOff f r).fenceSweep f
      else s.refuseWrite f (0xD8100 + 0x20 * r) := by
  simp only [State.writeRingCfg, hon, if_true]

/-- With no FENCE on a function's rings there is none to complete. -/
theorem fenceSweep_of_none {s : State} {f : Nat} (h : ∀ k, (s.pair f k).fence = none) : s.fenceSweep f = s := by
  have hpass : s.fencePass f = s := each_eq_self fun k _ => by simp [h]
  exact each_eq_self fun _ _ => hpass

/-- A pair whose waiting entries are discarded. -/
def Pair.emptied (x : Pair) : Pair :=
  { x with out := [], open_ := (x.out.filter fun o => o.isReply && o.final).foldl (fun l o => l.erase o.seq) x.open_ }

/-- A pair's waiting entries discarded and counted (R289). -/
def State.discardOut (s : State) (f r : Nat) : State :=
  (s.bumpBy (Reg.SCH_FN_STAT f) Fld.SCH_FN_STAT_DISCARD (s.pair f r).out.length).setPair f r (s.pair f r).emptied

section
variable {s : State} {f r : Nat}

theorem ringOff_eq : s.ringOff f r =
    ((((s.discardOut f r).setFlag (Reg.SCH_RING_CFG f r) Fld.SCH_RING_CFG_EN false).rstReg (Reg.SCH_SQ_DB f r)).rstReg
      (Reg.SCH_CQ_DB f r)).rstReg (Reg.SCH_RING_IDX f r) := rfl

theorem discardOut_pairs : (s.discardOut f r).pairs = (s.setPair f r (s.pair f r).emptied).pairs := by
  simp [State.discardOut, State.setPair]

theorem discardOut_frame : s.discardOut f r = { s with regs := (s.discardOut f r).regs, pairs := (s.discardOut f r).pairs } := by
  unfold State.discardOut
  rw [bumpBy_eq]
  rfl

theorem discardOut_discard : (s.discardOut f r).fld (Reg.SCH_FN_STAT f) Fld.SCH_FN_STAT_DISCARD =
    min (s.fld (Reg.SCH_FN_STAT f) Fld.SCH_FN_STAT_DISCARD + (s.pair f r).out.length) (2 ^ Fld.SCH_FN_STAT_DISCARD.w - 1) :=
  fld_bumpBy (by decide) State.fld_lt

theorem ringOff_pairs : (s.ringOff f r).pairs = (s.setPair f r (s.pair f r).emptied).pairs := discardOut_pairs

theorem ringOff_frame : s.ringOff f r = { s with regs := (s.ringOff f r).regs, pairs := (s.ringOff f r).pairs } := by
  rw [ringOff_eq, discardOut_frame]
  rfl

/-- What taking a pair out of service does to its registers. -/
theorem ringOff_fields : s.fieldsBut (s.ringOff f r)
    [(Reg.SCH_RING_CFG f r, Fld.SCH_RING_CFG_EN), (Reg.SCH_SQ_DB f r, wholeReg), (Reg.SCH_CQ_DB f r, wholeReg),
      (Reg.SCH_RING_IDX f r, wholeReg), (Reg.SCH_FN_STAT f, Fld.SCH_FN_STAT_DISCARD)] := by
  have hdiscard : s.fieldsBut (s.discardOut f r) [(Reg.SCH_FN_STAT f, Fld.SCH_FN_STAT_DISCARD)] := fieldsBut_bumpBy (by simp)
  rw [ringOff_eq]
  refine fieldsBut_trans (fieldsBut_mono hdiscard (by simp)) ?_
  exact fieldsBut_trans (fieldsBut_trans (fieldsBut_trans (fieldsBut_setFlag (by simp)) (fieldsBut_wrReg (by simp)))
    (fieldsBut_wrReg (by simp))) (fieldsBut_wrReg (by simp))

theorem ringOff_indices :
    (s.ringOff f r).pairOn f r = false ∧ (s.ringOff f r).fld (Reg.SCH_SQ_DB f r) Fld.SCH_SQ_DB_SQ_TAIL = 0 ∧
      (s.ringOff f r).fld (Reg.SCH_RING_IDX f r) Fld.SCH_RING_IDX_SQ_HEAD = 0 ∧
      (s.ringOff f r).fld (Reg.SCH_RING_IDX f r) Fld.SCH_RING_IDX_CQ_TAIL = 0 ∧
      (s.ringOff f r).fld (Reg.SCH_CQ_DB f r) Fld.SCH_CQ_DB_CQ_HEAD = 0 ∧
      (s.ringOff f r).fld (Reg.SCH_FN_STAT f) Fld.SCH_FN_STAT_DISCARD =
        min (s.fld (Reg.SCH_FN_STAT f) Fld.SCH_FN_STAT_DISCARD + (s.pair f r).out.length) (2 ^ Fld.SCH_FN_STAT_DISCARD.w - 1) := by
  have hcfgSq : (Reg.SCH_RING_CFG f r).key ≠ (Reg.SCH_SQ_DB f r).key := by simp only [Reg.SCH_RING_CFG, Reg.SCH_SQ_DB]; omega
  have hcfgCq : (Reg.SCH_RING_CFG f r).key ≠ (Reg.SCH_CQ_DB f r).key := by simp only [Reg.SCH_RING_CFG, Reg.SCH_CQ_DB]; omega
  have hcfgIdx : (Reg.SCH_RING_CFG f r).key ≠ (Reg.SCH_RING_IDX f r).key := by simp only [Reg.SCH_RING_CFG, Reg.SCH_RING_IDX]; omega
  have hsqCq : (Reg.SCH_SQ_DB f r).key ≠ (Reg.SCH_CQ_DB f r).key := by simp only [Reg.SCH_SQ_DB, Reg.SCH_CQ_DB]; omega
  have hsqIdx : (Reg.SCH_SQ_DB f r).key ≠ (Reg.SCH_RING_IDX f r).key := by simp only [Reg.SCH_SQ_DB, Reg.SCH_RING_IDX]; omega
  have hcqIdx : (Reg.SCH_CQ_DB f r).key ≠ (Reg.SCH_RING_IDX f r).key := by simp only [Reg.SCH_CQ_DB, Reg.SCH_RING_IDX]; omega
  have hstat : ∀ q ∈ [Reg.SCH_RING_CFG f r, Reg.SCH_SQ_DB f r, Reg.SCH_CQ_DB f r, Reg.SCH_RING_IDX f r], (Reg.SCH_FN_STAT f).key ≠ q.key := by
    simp only [List.mem_cons, List.not_mem_nil, or_false, forall_eq_or_imp, forall_eq, Reg.SCH_FN_STAT, Reg.SCH_RING_CFG, Reg.SCH_SQ_DB,
      Reg.SCH_CQ_DB, Reg.SCH_RING_IDX]
    omega
  rw [ringOff_eq]
  refine ⟨?_, ?_, State.fld_rstReg_self.trans getBits_zero, State.fld_rstReg_self.trans getBits_zero, ?_, ?_⟩
  · rw [pairOn_eq, State.rstReg, State.reg_wrReg_ne hcfgIdx, State.rstReg, State.reg_wrReg_ne hcfgCq, State.rstReg, State.reg_wrReg_ne hcfgSq,
      ← pairOn_eq]
    exact State.flag_setFlag_self (by decide) rfl
  · exact (State.fld_rstReg_ne hsqIdx).trans ((State.fld_rstReg_ne hsqCq).trans (State.fld_rstReg_self.trans getBits_zero))
  · exact (State.fld_rstReg_ne hcqIdx).trans (State.fld_rstReg_self.trans getBits_zero)
  · rw [State.fld_rstReg_ne (hstat _ (by simp)), State.fld_rstReg_ne (hstat _ (by simp)), State.fld_rstReg_ne (hstat _ (by simp)),
      State.fld_setFlag_ne (hstat _ (by simp)), discardOut_discard]

theorem ringOff_fence (k : Nat) : ((s.ringOff f r).pair f k).fence = (s.pair f k).fence := by
  unfold State.pair
  rw [ringOff_pairs]
  by_cases hk : pairKey f k = pairKey f r
  · rw [hk]
    simp [State.setPair, State.pair, Pair.emptied]
  · rw [State.setPair, tget_tset_ne hk]

end

end Sys2Proof.Machine

namespace Sys2Proof
open Machine

/-- Settles O10: an off pair takes a value that keeps the rules, an enabled one only the clearing of EN; any other write is refused. -/
theorem ringWritesOpenAndClosePairs : Obligations.RingWritesOpenAndClosePairs := by
  unfold Obligations.RingWritesOpenAndClosePairs
  intro s fn ring v hr hwr
  have hon : ∀ w : Word64, s.pairOn fn ring = true → w.getLsbD 0 = true → w ≠ s.reg (Reg.SCH_RING_CFG fn ring) &&& ~~~1 :=
    fun w _ hw => getLsbD_zero_ne (by rw [hw, getLsbD_clearing]; decide)
  have hcleared : s.pairOn fn ring = true → v &&& ringCfgBits &&& ~~~1 ≠ s.reg (Reg.SCH_RING_CFG fn ring) :=
    fun hpair => getLsbD_zero_ne (by rw [getLsbD_clearing, ← pairOn_eq, hpair]; decide)
  refine ⟨fun hoff hrules => ?_, fun hoff hrules => ?_, fun hpair hne => ?_, fun hpair hne => ?_, fun hpair heq hfence => ?_⟩
  · refine ⟨_, (exec_ringEnable hr hwr).trans (by rw [writeRingCfg_of_off hoff getLsbD_enabling, if_pos hrules]), ?_, State.reg_wrReg_self, rfl,
      fieldsBut_wrReg (by simp)⟩
    rw [pairOn_eq, State.reg_wrReg_self, getLsbD_enabling]
  · refine ⟨_, (exec_ringEnable hr hwr).trans ?_, refuses_of_refuseWrite⟩
    rw [writeRingCfg_of_off hoff getLsbD_enabling, hrules, if_neg (by decide)]
  · refine ⟨_, (exec_ringEnable hr hwr).trans ?_, refuses_of_refuseWrite⟩
    rw [writeRingCfg_of_on hpair, if_neg hne, if_neg (hon _ hpair getLsbD_enabling)]
  · refine ⟨_, (exec_ringDisable hr hwr).trans ?_, refuses_of_refuseWrite⟩
    rw [writeRingCfg_of_on hpair, if_neg (hcleared hpair), if_neg hne]
  · have hexec : exec (.ringDisable fn ring v) s = .next (s.ringOff fn ring) := by
      rw [exec_ringDisable hr hwr, writeRingCfg_of_on hpair, if_neg (hcleared hpair), if_pos heq,
        fenceSweep_of_none fun k => by rw [ringOff_fence, hfence]]
    obtain ⟨hoff, htail, hhead, hcqt, hcqh, hdiscard⟩ := ringOff_indices (s := s) (f := fn) (r := ring)
    refine ⟨_, hexec, hoff, htail, hhead, hcqt, hcqh, ?_, hdiscard, fun k hk => ?_, ringOff_frame, ringOff_fields⟩
    · unfold State.pair
      rw [ringOff_pairs]
      simp [State.setPair, Pair.emptied]
    · rw [ringOff_pairs]
      exact tget_tset_ne hk

end Sys2Proof
end

section
/-! PROOFS. Invalidations of translations (R184, R215): how one begins, is refused while another runs, and completes. -/

namespace Sys2Proof.Machine

/-- A write of a register of partition p by one of the two functions that may make it acts at once. -/
theorem ofPart_of_may {s : State} {fn p off : Nat} {f : State → State} (h : s.hostWrites fn) (hmay : fn = 0 ∨ fn = p) :
    s.ofPart fn p off f = f s := by
  rw [State.ofPart, reached_of_hostWrites h]
  exact if_pos (by simpa using hmay)

/-- A write of another partition's register is refused (R583). -/
theorem ofPart_of_not_may {s : State} {fn p off : Nat} {f : State → State} (h : s.hostWrites fn) (h0 : fn ≠ 0) (hp : fn ≠ p) :
    s.ofPart fn p off f = s.refuseWrite fn off := by
  rw [State.ofPart, reached_of_hostWrites h]
  exact if_neg (by simp [h0, hp])

theorem exec_invalidate {s : State} {fn p : Nat} {vpn : BitVec 32} {count : BitVec 16} {all : Bool} {c : Instr} (hp : p < 64)
    (hc : c = if all then .invalidateAll fn p vpn count else .invalidate fn p vpn count) :
    exec c s = .next (s.ofPart fn p (0x60008 + 0x10 * p) fun s => s.writeInv fn p (invWord vpn count all)) := by
  subst hc
  cases all
  · show execInvalidate fn p vpn count s = _
    simp [execInvalidate, onObject, hp]
  · show execInvalidateAll fn p vpn count s = _
    simp [execInvalidateAll, onObject, hp]

/-! ## The value of MMU.INV -/

section
variable {vpn : BitVec 32} {count : BitVec 16} {all : Bool}

theorem invWord_toNat : (invWord vpn count all).toNat = vpn.toNat + count.toNat * 2 ^ 32 + b2n all * 2 ^ 62 + 2 ^ 63 := by
  have hvpn := vpn.isLt
  have hcount := count.isLt
  have hall : b2n all ≤ 1 := by cases all <;> decide
  unfold invWord
  rw [BitVec.toNat_ofNat, Nat.mod_eq_of_lt]
  omega

/-- The fields of the value: VPN, COUNT, ALL and BUSY. -/
theorem invWord_fields : getBits (invWord vpn count all) 0 32 = vpn.toNat ∧ getBits (invWord vpn count all) 32 16 = count.toNat ∧
    getBits (invWord vpn count all) 62 1 = b2n all ∧ getBits (invWord vpn count all) 63 1 = 1 := by
  have hvpn := vpn.isLt
  have hcount := count.isLt
  have hall : b2n all ≤ 1 := by cases all <;> decide
  simp only [getBits, bitsOf, invWord_toNat]
  omega

theorem b2n_eq_one {b : Bool} : (b2n b == 1) = b := by
  cases b <;> rfl

end

/-- A write that starts an invalidation: BUSY is 1 in the value written. -/
theorem writeInv_of_idle {s : State} {fn p : Nat} {w : Word64} (hidle : s.flag (Reg.MMU_INV p) Fld.MMU_INV_BUSY = false)
    (hbusy : getBits w 63 1 = 1) :
    s.writeInv fn p w = (s.wrReg (Reg.MMU_INV p) w).setPart p
      { s.part p with inv := some (getBits w 0 32, getBits w 32 16 + 1, getBits w 62 1 == 1) } := by
  unfold State.writeInv
  dsimp only
  rw [hidle, hbusy, if_neg (by decide), if_pos rfl]
  rfl

/-- What the start of an invalidation of n + 1 pages from v on, or of all, leaves. -/
theorem writeInv_begins {s : State} {fn p v n : Nat} {w : Word64} {all : Bool} (hidle : s.flag (Reg.MMU_INV p) Fld.MMU_INV_BUSY = false)
    (hw : getBits w 0 32 = v ∧ getBits w 32 16 = n ∧ getBits w 62 1 = b2n all ∧ getBits w 63 1 = 1) :
    (s.writeInv fn p w).flag (Reg.MMU_INV p) Fld.MMU_INV_BUSY = true ∧ (s.writeInv fn p w).fld (Reg.MMU_INV p) Fld.MMU_INV_VPN = v ∧
      (s.writeInv fn p w).fld (Reg.MMU_INV p) Fld.MMU_INV_COUNT = n ∧ (s.writeInv fn p w).flag (Reg.MMU_INV p) Fld.MMU_INV_ALL = all ∧
      (s.writeInv fn p w).part p = { s.part p with inv := some (v, n + 1, all) } ∧
      (∀ q, q ≠ p → (s.writeInv fn p w).part q = s.part q) ∧
      s.writeInv fn p w = { s with regs := (s.writeInv fn p w).regs, parts := (s.writeInv fn p w).parts } ∧
      s.fieldsBut (s.writeInv fn p w) [(Reg.MMU_INV p, wholeReg)] := by
  obtain ⟨hvpn, hcount, hall, hbusy⟩ := hw
  rw [writeInv_of_idle hidle hbusy, hvpn, hcount, hall, b2n_eq_one]
  have hfld : ∀ f, ((s.wrReg (Reg.MMU_INV p) w).setPart p { s.part p with inv := some (v, n + 1, all) }).fld (Reg.MMU_INV p) f =
      getBits w f.lo f.w := fun f => State.fld_wrReg_self
  refine ⟨?_, (hfld Fld.MMU_INV_VPN).trans hvpn, (hfld Fld.MMU_INV_COUNT).trans hcount, ?_, State.part_setPart_self,
    fun q hq => State.part_setPart_ne hq, rfl, fieldsBut_wrReg (by simp)⟩
  · exact congrArg (· == 1) ((hfld Fld.MMU_INV_BUSY).trans hbusy)
  · exact (congrArg (· == 1) ((hfld Fld.MMU_INV_ALL).trans hall)).trans b2n_eq_one

theorem writeInv_of_busy {s : State} {fn p : Nat} {v : Word64} (hbusy : s.flag (Reg.MMU_INV p) Fld.MMU_INV_BUSY = true) :
    s.writeInv fn p v = s.refuseWrite fn (0x60008 + 0x10 * p) := by
  simp [State.writeInv, hbusy]

/-- A completed invalidation leaves no stale entry that it covers. -/
theorem invDone_of_some {s : State} {p : Nat} {r : Nat × Nat × Bool} (h : (s.part p).inv = some r) :
    s.invDone p = (s.setPart p { s.part p with inv := none, stale := (s.part p).stale.filter fun e => !(invCovers e.2.1 r) }).setFlag
      (Reg.MMU_INV p) Fld.MMU_INV_BUSY false := by
  unfold State.invDone
  rw [h]

end Sys2Proof.Machine

namespace Sys2Proof
open Machine

/-- Settles O11: an invalidation is one register and one record of the partition, and its completion drops what its range covers. -/
theorem invalidationsRunUntilComplete : Obligations.InvalidationsRunUntilComplete := by
  unfold Obligations.InvalidationsRunUntilComplete
  refine fun s fn p vpn count hp => ⟨fun all c hc hwr hmay => ?_, fun r hr => ?_⟩
  · have hexec := exec_invalidate (s := s) hp hc
    rw [ofPart_of_may hwr hmay] at hexec
    refine ⟨fun hidle => ?_, fun hbusy => ⟨_, hexec.trans (by rw [writeInv_of_busy hbusy]), refuses_of_refuseWrite⟩⟩
    exact ⟨_, hexec, writeInv_begins hidle invWord_fields⟩
  · have hexec : exec (.invalidationComplete p) s = .next (s.invDone p) := if_pos (by simpa using hp)
    rw [invDone_of_some hr] at hexec
    refine ⟨_, hexec, State.flag_setFlag_self (by decide) rfl, ?_, fun e => ?_, fun q hq => ?_, rfl,
      fieldsBut_setFlag (s := s.setPart p _) (by simp)⟩
    · rw [State.setFlag_part_acc, State.part_setPart_self]
    · rw [State.setFlag_part_acc, State.part_setPart_self, List.mem_filter, Bool.not_eq_true']
    · rw [State.setFlag_part_acc, State.part_setPart_ne hq]

end Sys2Proof
end

section
/-! PROOFS. The indices of the page reservoir and of the free ring as the host writes them (R188, R190 to R192, R202). -/

namespace Sys2Proof.Machine

/-! ## The reservoir's TAIL -/

theorem exec_reservoirTailWrite {s : State} {fn p : Nat} {x : BitVec 32} (hp : p < 64) (hwr : s.hostWrites fn) (hmay : fn = 0 ∨ fn = p) :
    exec (.reservoirTailWrite fn p x) s = .next (s.writeResTail p x.toNat) := by
  show execReservoirTailWrite fn p x s = _
  simp [execReservoirTailWrite, onObject, hp, ofPart_of_may hwr hmay]

theorem setFld_eq {s : State} {r : RegRef} {f : Field} {x : Nat} : s.setFld r f x = { s with regs := (s.setFld r f x).regs } := rfl

section
variable {s : State} {p tail : Nat}

/-- What the reservoir holds with its TAIL at `tail`. -/
def State.heldAt (s : State) (p tail : Nat) : Nat := diff32 tail (s.fld (Reg.KVT_RES_IDX p) Fld.KVT_RES_IDX_HEAD)

/-- The state with the reservoir's TAIL moved, and the interrupt armed again where the ring has risen enough (R190). -/
def State.withResTail (s : State) (p tail : Nat) : State := (s.setFld (Reg.KVT_RES_IDX p) Fld.KVT_RES_IDX_TAIL tail).resRearm p

theorem resRearm_fld {r : RegRef} {f : Field} : (s.resRearm p).fld r f = s.fld r f := by
  unfold State.resRearm
  split <;> rfl

theorem withResTail_fld_other {r : RegRef} {f : Field}
    (h : r.key ≠ (Reg.KVT_RES_IDX p).key ∨
      (r = Reg.KVT_RES_IDX p ∧ (f.lo + f.w ≤ Fld.KVT_RES_IDX_TAIL.lo ∨ Fld.KVT_RES_IDX_TAIL.lo + Fld.KVT_RES_IDX_TAIL.w ≤ f.lo))) :
    (s.withResTail p tail).fld r f = s.fld r f := by
  rw [State.withResTail, resRearm_fld, State.fld_setFld_other h]

theorem withResTail_tail (ht : tail < 2 ^ 32) : (s.withResTail p tail).fld (Reg.KVT_RES_IDX p) Fld.KVT_RES_IDX_TAIL = tail := by
  rw [State.withResTail, resRearm_fld, State.fld_setFld_self (by decide)]
  exact Nat.mod_eq_of_lt ht

theorem resRing_ne_resIdx : (Reg.KVT_RES_RING p).key ≠ (Reg.KVT_RES_IDX p).key := by
  simp only [Reg.KVT_RES_RING, Reg.KVT_RES_IDX]
  omega

theorem resCfg_ne_resIdx : (Reg.KVT_RES_CFG p).key ≠ (Reg.KVT_RES_IDX p).key := by
  simp only [Reg.KVT_RES_CFG, Reg.KVT_RES_IDX]
  omega

/-- With a ring in place the reservoir holds what its indices say. -/
theorem resHeld_setTail (ht : tail < 2 ^ 32) (hring : s.fld (Reg.KVT_RES_RING p) Fld.KVT_RES_RING_LOG2SIZE ≠ 0) :
    (s.setFld (Reg.KVT_RES_IDX p) Fld.KVT_RES_IDX_TAIL tail).resHeld p = s.heldAt p tail := by
  unfold State.resHeld
  rw [State.fld_setFld_ne resRing_ne_resIdx, if_neg hring, State.fld_setFld_self (by decide), State.fld_setFld_of_disjoint (by decide)]
  exact congrArg (diff32 · _) (Nat.mod_eq_of_lt ht)

theorem resHeld_withResTail (ht : tail < 2 ^ 32) (hring : s.fld (Reg.KVT_RES_RING p) Fld.KVT_RES_RING_LOG2SIZE ≠ 0) :
    (s.withResTail p tail).resHeld p = s.heldAt p tail := by
  rw [← resHeld_setTail ht hring]
  unfold State.resHeld State.withResTail
  simp only [resRearm_fld]

theorem withResTail_eq (ht : tail < 2 ^ 32) (hring : s.fld (Reg.KVT_RES_RING p) Fld.KVT_RES_RING_LOG2SIZE ≠ 0) :
    s.withResTail p tail = if max 1 (s.fld (Reg.KVT_RES_CFG p) Fld.KVT_RES_CFG_LOW_WATER) ≤ s.heldAt p tail then
      (s.setFld (Reg.KVT_RES_IDX p) Fld.KVT_RES_IDX_TAIL tail).setPart p { s.part p with armed := true }
    else s.setFld (Reg.KVT_RES_IDX p) Fld.KVT_RES_IDX_TAIL tail := by
  unfold State.withResTail State.resRearm
  rw [resHeld_setTail ht hring, State.fld_setFld_ne resCfg_ne_resIdx, State.setFld_part_acc]

/-- What moving TAIL leaves of the partitions and of everything else. -/
theorem withResTail_outcome (ht : tail < 2 ^ 32) (hring : s.fld (Reg.KVT_RES_RING p) Fld.KVT_RES_RING_LOG2SIZE ≠ 0) :
    s.fieldsBut (s.withResTail p tail) [(Reg.KVT_RES_IDX p, Fld.KVT_RES_IDX_TAIL)] ∧
      s.withResTail p tail = { s with regs := (s.withResTail p tail).regs, parts := (s.withResTail p tail).parts } ∧
      (∀ q, q ≠ p → (s.withResTail p tail).part q = s.part q) ∧
      (s.withResTail p tail).part p = { s.part p with armed := ((s.withResTail p tail).part p).armed } ∧
      ((s.withResTail p tail).part p).armed = ((s.part p).armed ||
        decide (max 1 (s.fld (Reg.KVT_RES_CFG p) Fld.KVT_RES_CFG_LOW_WATER) ≤ s.heldAt p tail)) := by
  rw [withResTail_eq ht hring]
  generalize hu : s.setFld (Reg.KVT_RES_IDX p) Fld.KVT_RES_IDX_TAIL tail = u
  have hfields : s.fieldsBut u [(Reg.KVT_RES_IDX p, Fld.KVT_RES_IDX_TAIL)] := hu ▸ fieldsBut_setFld (by simp)
  have hframe : u = { s with regs := u.regs } := hu ▸ setFld_eq
  have hpart : ∀ q, u.part q = s.part q := fun q => hu ▸ State.setFld_part_acc
  split
  case isTrue hrise =>
    refine ⟨fieldsBut_trans hfields (fieldsBut_of_regs rfl), by rw [hframe]; rfl, fun q hq => ?_, ?_, ?_⟩
    · rw [State.part_setPart_ne hq, hpart]
    · rw [State.part_setPart_self]
    · rw [State.part_setPart_self, decide_eq_true hrise, Bool.or_true]
  case isFalse hlow =>
    refine ⟨hfields, by rw [hframe], fun q _ => hpart q, ?_, ?_⟩
    · rw [hpart]
    · rw [hpart, decide_eq_false hlow, Bool.or_false]

/-- The interrupt of a reservoir that its TAIL leaves below LOW_WATER (R190). -/
theorem resNotify_withResTail (ht : tail < 2 ^ 32) (hring : s.fld (Reg.KVT_RES_RING p) Fld.KVT_RES_RING_LOG2SIZE ≠ 0) :
    (s.withResTail p tail).resNotify p false =
      if ((s.withResTail p tail).part p).armed && decide (s.heldAt p tail < s.fld (Reg.KVT_RES_CFG p) Fld.KVT_RES_CFG_LOW_WATER) then
        ((s.withResTail p tail).setPart p { (s.withResTail p tail).part p with armed := false }).raise p 17
      else s.withResTail p tail := by
  unfold State.resNotify
  rw [resHeld_withResTail ht hring, withResTail_fld_other (.inl resCfg_ne_resIdx), Bool.false_or]

theorem writeResTail_of_refused (ht : tail < 2 ^ 32) (hmove : tail ≠ s.fld (Reg.KVT_RES_IDX p) Fld.KVT_RES_IDX_TAIL)
    (h : s.fld (Reg.KVT_RES_RING p) Fld.KVT_RES_RING_LOG2SIZE = 0 ∨
      2 ^ s.fld (Reg.KVT_RES_RING p) Fld.KVT_RES_RING_LOG2SIZE < s.heldAt p tail) :
    s.writeResTail p tail = s.refuseWrite p (0xC0008 + 0x40 * p) := by
  unfold State.writeResTail
  dsimp only
  rw [Nat.mod_eq_of_lt ht, if_neg hmove]
  exact if_pos (by simpa [State.heldAt] using h)

theorem writeResTail_of_taken (ht : tail < 2 ^ 32) (hmove : tail ≠ s.fld (Reg.KVT_RES_IDX p) Fld.KVT_RES_IDX_TAIL)
    (hring : s.fld (Reg.KVT_RES_RING p) Fld.KVT_RES_RING_LOG2SIZE ≠ 0)
    (hfits : s.heldAt p tail ≤ 2 ^ s.fld (Reg.KVT_RES_RING p) Fld.KVT_RES_RING_LOG2SIZE) :
    s.writeResTail p tail =
      if s.heldAt p (s.fld (Reg.KVT_RES_IDX p) Fld.KVT_RES_IDX_TAIL) < s.heldAt p tail then (s.withResTail p tail).retryStarved p
      else (s.withResTail p tail).resNotify p false := by
  unfold State.writeResTail
  dsimp only
  rw [Nat.mod_eq_of_lt ht, if_neg hmove]
  exact if_neg (by simpa [hring, State.heldAt] using hfits)

end

/-! ## The free ring's HEAD -/

theorem exec_freeHeadWrite {s : State} {fn p : Nat} {x : BitVec 32} (hp : p < 64) (hwr : s.hostWrites fn) (hmay : fn = 0 ∨ fn = p) :
    exec (.freeHeadWrite fn p x) s =
      .next (((s.setFld (Reg.KVT_FREE_IDX p) Fld.KVT_FREE_IDX_HEAD x.toNat).drainFree p).returnsDone p) := by
  show execFreeHeadWrite fn p x s = _
  simp [execFreeHeadWrite, onObject, hp, ofPart_of_may hwr hmay, State.writeFreeHead, State.freeRun]

/-- `t` differs from `s` in what entries of partition p's free ring change: its index register, memory, and the logs of a ring that lies where
the partition may not write. -/
structure State.freed (s t : State) (p n : Nat) : Prop where
  tail   : t.fld (Reg.KVT_FREE_IDX p) Fld.KVT_FREE_IDX_TAIL = (s.fld (Reg.KVT_FREE_IDX p) Fld.KVT_FREE_IDX_TAIL + n) % 2 ^ 32
  head   : t.fld (Reg.KVT_FREE_IDX p) Fld.KVT_FREE_IDX_HEAD = s.fld (Reg.KVT_FREE_IDX p) Fld.KVT_FREE_IDX_HEAD
  fields : s.fieldsBut t
    [(Reg.KVT_FREE_IDX p, wholeReg), (Reg.SCH_FN_STAT p, Fld.SCH_FN_STAT_VIOL), (Reg.SCH_FN_STAT p, Fld.SCH_FN_STAT_LOST)]
  frame  : t = { s with regs := t.regs, parts := t.parts, mem := t.mem, globalLog := t.globalLog, pcie := t.pcie }

theorem State.freed.refl {s : State} {p : Nat} : s.freed s p 0 :=
  ⟨(Nat.mod_eq_of_lt State.fld_lt).symm, rfl, fieldsBut_refl, rfl⟩

theorem State.freed.trans {s t u : State} {p m n : Nat} (h : s.freed t p m) (g : t.freed u p n) : s.freed u p (m + n) := by
  refine ⟨?_, g.head.trans h.head, fieldsBut_trans h.fields g.fields, ?_⟩
  · rw [g.tail, h.tail, Nat.mod_add_mod, Nat.add_assoc]
  · rw [g.frame, h.frame]

theorem freed_freeOne {s : State} {p : Nat} {x : Nat × Nat} (hp : p < 64) : s.freed (s.freeOne p x) p 1 := by
  have hkey : (Reg.KVT_FREE_IDX p).key ≠ (Reg.SCH_FN_STAT p).key := by
    simp only [Reg.KVT_FREE_IDX, Reg.SCH_FN_STAT]
    omega
  have hmove : ∀ (u : State) (n : Nat), u.fld (Reg.KVT_FREE_IDX p) Fld.KVT_FREE_IDX_HEAD = s.fld (Reg.KVT_FREE_IDX p) Fld.KVT_FREE_IDX_HEAD →
      s.fieldsBut u [(Reg.KVT_FREE_IDX p, wholeReg), (Reg.SCH_FN_STAT p, Fld.SCH_FN_STAT_VIOL), (Reg.SCH_FN_STAT p, Fld.SCH_FN_STAT_LOST)] →
      u = { s with regs := u.regs, parts := u.parts, mem := u.mem, globalLog := u.globalLog, pcie := u.pcie } →
      n = s.fld (Reg.KVT_FREE_IDX p) Fld.KVT_FREE_IDX_TAIL + 1 →
      s.freed (u.setFld (Reg.KVT_FREE_IDX p) Fld.KVT_FREE_IDX_TAIL n) p 1 := by
    intro u n hhead hfields hframe hn
    refine ⟨?_, ?_, fieldsBut_trans hfields (fieldsBut_wrReg (by simp)), ?_⟩
    · rw [State.fld_setFld_self (by decide), hn]
      rfl
    · rw [State.fld_setFld_of_disjoint (by decide), hhead]
    · rw [hframe]
      rfl
  unfold State.freeOne
  dsimp only
  split
  · exact hmove _ _ rfl (fieldsBut_of_regs rfl) rfl rfl
  · obtain ⟨-, hfields, hframe⟩ := violate_logs (s := s) (p := p) (source := 4) (phys := true) (value := false)
      (a := s.fld (Reg.KVT_FREE_RING p) Fld.KVT_FREE_RING_BASE * 4096 + s.fld (Reg.KVT_FREE_IDX p) Fld.KVT_FREE_IDX_TAIL %
        2 ^ s.fld (Reg.KVT_FREE_RING p) Fld.KVT_FREE_RING_LOG2SIZE * 8)
    refine hmove _ _ (hfields _ _ ?_) (fieldsBut_mono hfields (by simp)) (by rw [hframe]) rfl
    intro y hy hkey'
    have hy' : y.1 = Reg.SCH_FN_STAT p := by
      simp only [List.mem_cons, List.not_mem_nil, or_false] at hy
      rcases hy with rfl | rfl <;> rfl
    exact absurd (hy' ▸ hkey').symm hkey

theorem freed_each {s : State} {p : Nat} {xs : List (Nat × Nat)} (hp : p < 64) :
    s.freed (s.each xs fun s e => s.freeOne p e) p xs.length := by
  unfold State.each
  induction xs generalizing s with
  | nil => exact .refl
  | cons x t ih =>
    rw [List.foldl_cons, List.length_cons, Nat.add_comm]
    exact (freed_freeOne hp).trans ih

/-- Frames that wait enter the free ring, in order, as far as it has room (R192). -/
theorem freed_drainFree {s : State} {p : Nat} (hp : p < 64) :
    s.freed (s.drainFree p) p (min (s.freeRoom p) (s.part p).returns.length) ∧
      ((s.drainFree p).part p).returns = (s.part p).returns.drop (min (s.freeRoom p) (s.part p).returns.length) := by
  have hlen : ((s.part p).returns.take (min (s.freeRoom p) (s.part p).returns.length)).length =
      min (s.freeRoom p) (s.part p).returns.length := by
    rw [List.length_take]
    omega
  have hall := freed_each (s := s) (xs := (s.part p).returns.take (min (s.freeRoom p) (s.part p).returns.length)) hp
  rw [hlen] at hall
  unfold State.drainFree
  dsimp only
  generalize s.each _ (fun s e => s.freeOne p e) = t at hall ⊢
  refine ⟨⟨hall.tail, hall.head, fieldsBut_trans hall.fields (fieldsBut_of_regs rfl), ?_⟩, congrArg Part.returns State.part_setPart_self⟩
  rw [hall.frame]
  rfl

end Sys2Proof.Machine

namespace Sys2Proof
open Machine

/-- Settles O12: TAIL moves within the ring or is refused, and HEAD makes room for frames that wait. That the refusal stands in the log of the
reservoir's partition is log entry 94, the interrupt raised where TAIL takes frames back log entry 18, and HEAD taken unchecked log entry 75. -/
theorem reservoirAndFreeRingIndicesMove : Obligations.ReservoirAndFreeRingIndicesMove := by
  unfold Obligations.ReservoirAndFreeRingIndicesMove
  refine fun s fn p x hp hwr hmay => ⟨fun hmove => ⟨fun hring hfits => ?_, fun hno => ?_⟩, ?_⟩
  · obtain ⟨hfields, hframe, hothers, hpart, harmed⟩ := withResTail_outcome (s := s) (p := p) x.isLt hring
    refine ⟨_, withResTail_tail x.isLt, hfields, hframe, hothers, hpart, harmed, ?_⟩
    rw [exec_reservoirTailWrite hp hwr hmay, writeResTail_of_taken x.isLt hmove hring hfits, resNotify_withResTail x.isLt hring]
    rfl
  · exact ⟨_, exec_reservoirTailWrite hp hwr hmay, by rw [writeResTail_of_refused x.isLt hmove hno]; exact refuses_of_refuseWrite⟩
  · generalize hu : s.setFld (Reg.KVT_FREE_IDX p) Fld.KVT_FREE_IDX_HEAD x.toNat = u
    have hexec := exec_freeHeadWrite (x := x) hp hwr hmay
    rw [hu] at hexec
    obtain ⟨hfreed, hreturns⟩ := freed_drainFree (s := u) hp
    have hhead : u.fld (Reg.KVT_FREE_IDX p) Fld.KVT_FREE_IDX_HEAD = x.toNat := by
      rw [← hu, State.fld_setFld_self (by decide)]
      exact Nat.mod_eq_of_lt x.isLt
    have htail : u.fld (Reg.KVT_FREE_IDX p) Fld.KVT_FREE_IDX_TAIL = s.fld (Reg.KVT_FREE_IDX p) Fld.KVT_FREE_IDX_TAIL := by
      rw [← hu, State.fld_setFld_of_disjoint (by decide)]
    have hlg : u.fld (Reg.KVT_FREE_RING p) Fld.KVT_FREE_RING_LOG2SIZE = s.fld (Reg.KVT_FREE_RING p) Fld.KVT_FREE_RING_LOG2SIZE := by
      rw [← hu, State.fld_setFld_ne]
      simp only [Reg.KVT_FREE_RING, Reg.KVT_FREE_IDX]
      omega
    have hpart : u.part p = s.part p := by rw [← hu, State.setFld_part_acc]
    have hframe : u = { s with regs := u.regs } := hu ▸ setFld_eq
    have hfields : s.fieldsBut u [(Reg.KVT_FREE_IDX p, wholeReg), (Reg.SCH_FN_STAT p, Fld.SCH_FN_STAT_VIOL),
        (Reg.SCH_FN_STAT p, Fld.SCH_FN_STAT_LOST)] := by
      rw [← hu]
      exact fieldsBut_wrReg (by simp)
    generalize u.drainFree p = t at hexec hfreed hreturns
    refine ⟨_, hexec, hfreed.head.trans hhead, _, ?_, by rw [hreturns, hpart], by rw [hfreed.tail, htail, hpart],
      fieldsBut_trans hfields hfreed.fields, hfreed.frame.trans (by rw [hframe])⟩
    unfold State.freeRoom
    dsimp only
    rw [hlg, htail, hhead, Nat.min_comm]

end Sys2Proof
end

section
/-! PROOFS. Writes of a port's EN (R375, R379, R392): a port that trains, and one that is taken down. -/

namespace Sys2Proof.Machine

theorem State.fld_setFlag_of_disjoint {s : State} {r : RegRef} {f g : Field} {b : Bool} (h : g.lo + g.w ≤ f.lo ∨ f.lo + f.w ≤ g.lo) :
    (s.setFlag r f b).fld r g = s.fld r g := State.fld_setFld_of_disjoint h

section
variable {s : State} {n st : Nat}

/-- Port n's registers as it leaves UP for a state. -/
def State.portStatOff (s : State) (n st : Nat) : State :=
  (((s.setFld (Reg.LNK_PORT_STAT n) Fld.LNK_PORT_STAT_STATE st).setFld (Reg.LNK_PORT_STAT n) Fld.LNK_PORT_STAT_LANES 0).setFlag
    (Reg.LNK_PORT_STAT n) Fld.LNK_PORT_STAT_SPARE_USED false).setFlag (Reg.LNK_PORT_STAT n) Fld.LNK_PORT_STAT_PROT false

/-- A port that carries nothing any more. -/
def Port.stopped (x : Port) (now : Nat) : Port :=
  { x with txWait := [], mapNext := none, rxMapNext := none, nak := none, rxMsgs := [], downAt := now, firstTime := false }

theorem portStatOff_frame : s.portStatOff n st = { s with regs := (s.portStatOff n st).regs } := rfl

theorem portOff_eq : s.portOff n st = (s.portStatOff n st).setPort n ((s.port n).stopped s.now) := rfl

theorem portOff_frame : s.portOff n st = { s with regs := (s.portOff n st).regs, ports := (s.portOff n st).ports } := by
  rw [portOff_eq, portStatOff_frame]
  rfl

theorem portOff_port_self : (s.portOff n st).port n = (s.port n).stopped s.now := by
  rw [portOff_eq, State.port_setPort_self]

theorem portOff_port_ne {m : Nat} (h : m ≠ n) : (s.portOff n st).port m = s.port m := by
  rw [portOff_eq, State.port_setPort_ne h, portStatOff_frame]
  rfl

theorem portOff_regs : (s.portOff n st).regs = (s.portStatOff n st).regs := rfl

/-- The state that the port shows. -/
theorem portOff_portSt (hst : st < 8) : (s.portOff n st).portSt n = st := by
  have hregs : (s.portOff n st).portSt n = (s.portStatOff n st).portSt n := State.fld_of_regs portOff_regs
  rw [hregs, State.portSt, State.portStatOff, State.fld_setFlag_of_disjoint (by decide), State.fld_setFlag_of_disjoint (by decide),
    State.fld_setFld_of_disjoint (by decide), State.fld_setFld_self (by decide)]
  exact Nat.mod_eq_of_lt hst

theorem portOff_fields : s.fieldsBut (s.portOff n st)
    [(Reg.LNK_PORT_STAT n, Fld.LNK_PORT_STAT_STATE), (Reg.LNK_PORT_STAT n, Fld.LNK_PORT_STAT_LANES),
      (Reg.LNK_PORT_STAT n, Fld.LNK_PORT_STAT_SPARE_USED), (Reg.LNK_PORT_STAT n, Fld.LNK_PORT_STAT_PROT)] := by
  refine fieldsBut_trans (t := s.portStatOff n st) ?_ (fieldsBut_of_regs portOff_regs)
  refine fieldsBut_trans (fieldsBut_trans (fieldsBut_trans (fieldsBut_setFld ?_) (fieldsBut_setFld ?_)) (fieldsBut_setFlag ?_))
    (fieldsBut_setFlag ?_) <;> simp

/-- A port's configuration is another register than its state. -/
theorem portCfg_ne_portStat : (Reg.LNK_PORT_CFG n).key ≠ (Reg.LNK_PORT_STAT n).key := by
  simp only [Reg.LNK_PORT_CFG, Reg.LNK_PORT_STAT]
  omega

theorem portOff_cfg {f : Field} : (s.portOff n st).fld (Reg.LNK_PORT_CFG n) f = s.fld (Reg.LNK_PORT_CFG n) f := by
  rw [State.fld_of_regs portOff_regs, State.portStatOff, State.fld_setFlag_ne portCfg_ne_portStat, State.fld_setFlag_ne portCfg_ne_portStat,
    State.fld_setFld_ne portCfg_ne_portStat, State.fld_setFld_ne portCfg_ne_portStat]

end

/-! ## The value written -/

section
variable {s : State} {n en cls : Nat}

/-- The value of LNK.PORT_CFG[n] with EN and CLASS written: the ROLE and the PEER_SLOT stay. -/
def State.portCfgWord (s : State) (n en cls : Nat) : Word64 := putBits (putBits (s.reg (Reg.LNK_PORT_CFG n)) 0 1 en) 1 2 cls

theorem portCfgWord_en (h : en < 2) : getBits (s.portCfgWord n en cls) 0 1 = en := by
  rw [State.portCfgWord, getBits_putBits_of_disjoint (by decide), getBits_putBits_self (by decide)]
  exact Nat.mod_eq_of_lt h

theorem portCfgWord_class (h : cls < 4) : getBits (s.portCfgWord n en cls) 1 2 = cls := by
  rw [State.portCfgWord, getBits_putBits_self (by decide)]
  exact Nat.mod_eq_of_lt h

/-- The state with the port's EN and CLASS written. -/
def State.portCfgSet (s : State) (n en cls : Nat) : State := s.wrReg (Reg.LNK_PORT_CFG n) (s.portCfgWord n en cls)

theorem portCfgSet_en (h : en < 2) : (s.portCfgSet n en cls).flag (Reg.LNK_PORT_CFG n) Fld.LNK_PORT_CFG_EN = (en == 1) := by
  have hfld : (s.portCfgSet n en cls).fld (Reg.LNK_PORT_CFG n) Fld.LNK_PORT_CFG_EN = en := State.fld_wrReg_self.trans (portCfgWord_en h)
  rw [State.flag, hfld]

theorem portCfgSet_class (h : cls < 4) : (s.portCfgSet n en cls).fld (Reg.LNK_PORT_CFG n) Fld.LNK_PORT_CFG_CLASS = cls :=
  State.fld_wrReg_self.trans (portCfgWord_class h)

theorem portCfgSet_portSt : (s.portCfgSet n en cls).portSt n = s.portSt n := State.fld_wrReg_ne portCfg_ne_portStat.symm

theorem portCfgSet_fields : s.fieldsBut (s.portCfgSet n en cls)
    [(Reg.LNK_PORT_CFG n, Fld.LNK_PORT_CFG_EN), (Reg.LNK_PORT_CFG n, Fld.LNK_PORT_CFG_CLASS)] :=
  fieldsBut_wrReg_putBits_putBits (f := Fld.LNK_PORT_CFG_EN) (g := Fld.LNK_PORT_CFG_CLASS) (by simp) (by simp)

/-- A port that is neither UP nor training begins to train (R375). -/
theorem writePortCfg_trains (h1 : s.portSt n ≠ 1) (h2 : s.portSt n ≠ 2) :
    s.writePortCfg n (s.portCfgWord n 1 cls) = (s.portCfgSet n 1 cls).portOff n 1 := by
  have htrain : (s.portCfgSet n 1 cls).trainPort n = (s.portCfgSet n 1 cls).portOff n 1 := by
    unfold State.trainPort
    dsimp only
    rw [portCfgSet_portSt, if_neg h2]
  unfold State.writePortCfg
  dsimp only
  rw [portCfgWord_en (by decide), if_neg (by decide), if_neg (by simp [h1, h2])]
  exact htrain

/-- A port that is OFF takes the value. -/
theorem writePortCfg_of_off (h : s.portSt n = 0) : s.writePortCfg n (s.portCfgWord n 0 cls) = s.portCfgSet n 0 cls := by
  unfold State.writePortCfg
  dsimp only
  rw [portCfgWord_en (by decide), if_pos rfl, if_pos h]
  rfl

/-- Any other port is taken down, with what its loss means, and the FABRIC_JOINs that wait for it go on (R375, R379). -/
theorem writePortCfg_stops (h : s.portSt n ≠ 0) : s.writePortCfg n (s.portCfgWord n 0 cls) =
    (if s.portSt n = 2 then ((s.portCfgSet n 0 cls).portOff n 0).afterLoss n else (s.portCfgSet n 0 cls).portOff n 0).joinEnds n := by
  have hdown : (s.portCfgSet n 0 cls).portDown n 0 =
      if s.portSt n = 2 then ((s.portCfgSet n 0 cls).portOff n 0).afterLoss n else (s.portCfgSet n 0 cls).portOff n 0 := by
    unfold State.portDown
    dsimp only
    rw [portCfgSet_portSt]
  unfold State.writePortCfg
  dsimp only
  rw [portCfgWord_en (by decide), if_pos rfl, if_neg h, ← hdown]
  rfl

/-- A state that took the value and whose port then carries nothing. -/
theorem portCfgSet_portOff {st : Nat} (hen : en < 2) (hcls : cls < 4) (hst : st < 8) :
    ((s.portCfgSet n en cls).portOff n st).portSt n = st ∧
      ((s.portCfgSet n en cls).portOff n st).flag (Reg.LNK_PORT_CFG n) Fld.LNK_PORT_CFG_EN = (en == 1) ∧
      ((s.portCfgSet n en cls).portOff n st).fld (Reg.LNK_PORT_CFG n) Fld.LNK_PORT_CFG_CLASS = cls ∧
      (((s.portCfgSet n en cls).portOff n st).port n).txWait = [] ∧
      (∀ m, m ≠ n → ((s.portCfgSet n en cls).portOff n st).port m = s.port m) ∧
      (s.portCfgSet n en cls).portOff n st =
        { s with regs := ((s.portCfgSet n en cls).portOff n st).regs, ports := ((s.portCfgSet n en cls).portOff n st).ports } ∧
      s.fieldsBut ((s.portCfgSet n en cls).portOff n st)
        [(Reg.LNK_PORT_CFG n, Fld.LNK_PORT_CFG_EN), (Reg.LNK_PORT_CFG n, Fld.LNK_PORT_CFG_CLASS),
          (Reg.LNK_PORT_STAT n, Fld.LNK_PORT_STAT_STATE), (Reg.LNK_PORT_STAT n, Fld.LNK_PORT_STAT_LANES),
          (Reg.LNK_PORT_STAT n, Fld.LNK_PORT_STAT_SPARE_USED), (Reg.LNK_PORT_STAT n, Fld.LNK_PORT_STAT_PROT)] := by
  refine ⟨portOff_portSt hst, ?_, portOff_cfg.trans (portCfgSet_class hcls), ?_, fun m hm => portOff_port_ne hm, portOff_frame, ?_⟩
  · rw [State.flag, portOff_cfg]
    exact portCfgSet_en hen
  · rw [portOff_port_self]
    rfl
  · exact fieldsBut_trans (fieldsBut_mono portCfgSet_fields (by simp)) (fieldsBut_mono portOff_fields (by simp))

/-! ## The commands -/

/-- PORT_ENABLE (`en` at 1) or PORT_DISABLE of a port, by a function that reaches the module. -/
theorem exec_portWrite {fn : Nat} {v : Word64} {on : Bool} {c : Instr} (hn : n < 24)
    (hc : c = if on then .portEnable fn n v else .portDisable fn n v) (h : s.hostWrites fn) :
    exec c s = .next (if fn ≠ 0 then s.refuseWrite fn (0xF1000 + 0x20 * n)
      else s.writePortCfg n (s.portCfgWord n (b2n on) (getBits v 1 2))) := by
  subst hc
  cases on
  · show execPortDisable fn n v s = _
    rw [execPortDisable, onObject, if_pos (by simpa using hn), State.portWrite, reached_of_hostWrites h]
    rfl
  · show execPortEnable fn n v s = _
    rw [execPortEnable, onObject, if_pos (by simpa using hn), State.portWrite, reached_of_hostWrites h]
    rfl

end

end Sys2Proof.Machine

namespace Sys2Proof
open Machine

/-- Settles O13: the value written keeps ROLE and PEER_SLOT, and EN decides whether the port trains, stays OFF or is taken down. -/
theorem portsAreEnabledAndDisabled : Obligations.PortsAreEnabledAndDisabled := by
  unfold Obligations.PortsAreEnabledAndDisabled
  intro s n v hn hup
  have hclass : getBits v 1 2 < 4 := Nat.mod_lt _ (by decide)
  have hwr : s.hostWrites 0 := ⟨hup, decodes_zero s⟩
  have henable := exec_portWrite (v := v) (on := true) hn rfl hwr
  have hdisable := exec_portWrite (v := v) (on := false) hn rfl hwr
  refine ⟨fun h1 h2 => ?_, fun h => ?_, fun h => ?_, fun fn hfn hdec c hc => ?_⟩
  · obtain ⟨hst, hen, hcls, htx, hports, hframe, hfields⟩ :=
      portCfgSet_portOff (s := s) (n := n) (en := 1) (st := 1) (by decide) hclass (by decide)
    exact ⟨_, henable.trans (congrArg Host.Outcome.next (writePortCfg_trains h1 h2)), hst, hen, hcls, htx, hports, hframe, hfields⟩
  · exact ⟨_, hdisable.trans (congrArg Host.Outcome.next (writePortCfg_of_off h)), portCfgSet_en (by decide), portCfgSet_portSt.trans h, rfl,
      portCfgSet_fields⟩
  · obtain ⟨hst, hen, -, htx, hports, hframe, hfields⟩ :=
      portCfgSet_portOff (s := s) (n := n) (en := 0) (st := 0) (by decide) hclass (by decide)
    exact ⟨_, hst, hen, htx, hports, hframe, hfields, hdisable.trans (congrArg Host.Outcome.next (writePortCfg_stops h))⟩
  · have hrefused : exec c s = .next (s.refuseWrite fn (0xF1000 + 0x20 * n)) := by
      obtain rfl | rfl := hc
      · exact (exec_portWrite (on := true) hn rfl ⟨hup, hdec⟩).trans (by rw [if_pos hfn])
      · exact (exec_portWrite (on := false) hn rfl ⟨hup, hdec⟩).trans (by rw [if_pos hfn])
    exact ⟨_, hrefused, refuses_of_refuseWrite⟩

end Sys2Proof
end

section
/-! PROOFS. Reads and writes of BAR0 by offset, width and function (R11, R12, R581 to R585). -/

namespace Sys2Proof.Machine

/-! ## Numbers as bytes -/

theorem leBytes_zero (n : Nat) : leBytes n 0 = List.replicate n 0 := by
  induction n with
  | zero => rfl
  | succ n ih => rw [leBytes, Nat.zero_div, ih]; rfl

/-- The n bytes of a number are those of its low 8 n bits. -/
theorem leBytes_mod (n v : Nat) : leBytes n (v % 256 ^ n) = leBytes n v := by
  induction n generalizing v with
  | zero => rfl
  | succ n ih =>
    have hlow : v % 256 ^ (n + 1) % 256 = v % 256 := Nat.mod_mod_of_dvd _ (Dvd.intro_left _ rfl)
    have hhigh : v % 256 ^ (n + 1) / 256 = v / 256 % 256 ^ n := by rw [Nat.pow_succ, Nat.mul_comm, Nat.mod_mul_right_div_self]
    rw [leBytes, leBytes, hlow, hhigh, ih]

theorem ofLeBytes_lt (bs : List Byte) : ofLeBytes bs < 256 ^ bs.length := by
  induction bs with
  | nil => decide
  | cons b t ih =>
    have hb := b.isLt
    rw [ofLeBytes, List.length_cons, Nat.pow_succ]
    omega

/-! ## Fields that a read clears -/

/-- A field that reads 0 does so after any field of the word is cleared. -/
theorem getBits_putBits_zero {v : Word64} {lo n lo' n' : Nat} (h : getBits v lo n = 0) : getBits (putBits v lo' n' 0) lo n = 0 := by
  apply Nat.eq_of_testBit_eq
  intro i
  have hbit : (bitsOf v.toNat lo n).testBit i = false := by
    rw [show bitsOf v.toNat lo n = 0 from h, Nat.zero_testBit]
  rw [testBit_bitsOf] at hbit
  unfold getBits putBits
  rw [testBit_bitsOf, BitVec.toNat_ofNat, Nat.testBit_mod_two_pow, testBit_putNat, Nat.zero_testBit, Nat.zero_testBit]
  by_cases hin : i < n
  · rw [decide_eq_true hin, Bool.true_and] at hbit
    simp [hbit]
  · simp [hin]

theorem getBits_putBits_zero_self {v : Word64} {lo n : Nat} : getBits (putBits v lo n 0) lo n = 0 := by
  apply Nat.eq_of_testBit_eq
  intro i
  unfold getBits putBits
  rw [testBit_bitsOf, BitVec.toNat_ofNat, Nat.testBit_mod_two_pow, testBit_putNat, Nat.zero_testBit, Nat.zero_testBit]
  by_cases hin : i < n
  · have hrange : lo ≤ lo + i ∧ lo + i < lo + n := by omega
    simp [hrange]
  · simp [hin]

/-- The fields of a list cleared one after the other. -/
def State.clearFlds (s : State) (r : RegRef) (fs : List Field) : State := s.each fs fun s f => s.setFld r f 0

theorem clearFlds_cons {s : State} {r : RegRef} {f : Field} {fs : List Field} :
    s.clearFlds r (f :: fs) = (s.setFld r f 0).clearFlds r fs := rfl

theorem clearFlds_frame {s : State} {r : RegRef} {fs : List Field} : s.clearFlds r fs = { s with regs := (s.clearFlds r fs).regs } := by
  induction fs generalizing s with
  | nil => rfl
  | cons f fs ih =>
    rw [clearFlds_cons]
    exact ih.trans rfl

theorem clearFlds_keeps_zero {s : State} {r : RegRef} {f : Field} {fs : List Field} (h : s.fld r f = 0) : (s.clearFlds r fs).fld r f = 0 := by
  induction fs generalizing s with
  | nil => exact h
  | cons g fs ih =>
    rw [clearFlds_cons]
    refine ih ?_
    unfold State.fld State.setFld
    rw [State.reg_wrReg_self]
    exact getBits_putBits_zero h

theorem clearFlds_fld {s : State} {r : RegRef} {f : Field} {fs : List Field} (h : f ∈ fs) : (s.clearFlds r fs).fld r f = 0 := by
  induction fs generalizing s with
  | nil => exact absurd h List.not_mem_nil
  | cons g fs ih =>
    rw [clearFlds_cons]
    obtain rfl | htail := List.mem_cons.1 h
    · refine clearFlds_keeps_zero ?_
      unfold State.fld State.setFld
      rw [State.reg_wrReg_self]
      exact getBits_putBits_zero_self
    · exact ih htail

theorem clearFlds_fields {s : State} {r : RegRef} {fs : List Field} : s.fieldsBut (s.clearFlds r fs) (fs.map fun f => (r, f)) := by
  induction fs generalizing s with
  | nil => exact fieldsBut_refl
  | cons g fs ih =>
    rw [clearFlds_cons]
    exact fieldsBut_trans (fieldsBut_setFld (by simp)) (fieldsBut_mono ih fun _ h => List.mem_cons_of_mem _ h)

/-- The RC fields that lie wholly in the half read (R11, R584). -/
def RegHit.rcFields (g : RegHit) (half : Half) : List Field := g.row.fields.filter fun f => f.acc == .rc && f.inHalf half

theorem afterRead_eq {s : State} {fn : Nat} {g : RegHit} {half : Half} (h : g.row.base ≠ 0x120010) :
    s.afterRead fn g half = s.clearFlds (g.ref fn) (g.rcFields half) := by
  rw [State.afterRead, if_neg h]
  cases half <;> rfl

/-! ## One access -/

/-- An access of one half of a register, or of the whole of a 64-bit one, as BAR0 reads it. -/
theorem readBar0_of_hit {s : State} {fn off n : Nat} {g : RegHit} {half : Half} (hhit : regHit off = some g) (hacc : g.accessed off n half) :
    s.readBar0 fn off n =
      if !(s.sees fn g) then (List.replicate n 0, s)
      else if s.unreadable g then (List.replicate n 0xFF, s)
      else (leBytes n ((s.view fn g).toNat / 2 ^ halfShift half), s.afterRead fn g half) := by
  obtain ⟨rfl, rfl, halign, hwidth, hlow⟩ | ⟨rfl, rfl, halign⟩ := hacc
  · have hpiece : s.readBar0 fn off 8 = s.read64 fn off := by simp [State.readBar0, State.readPiece, halign]
    rw [hpiece, State.read64, hhit]
    dsimp only
    rw [if_pos (by simp [hwidth, hlow]), show 2 ^ halfShift .whole = 1 from rfl, Nat.div_one]
    rfl
  · have hone : s.readBar0 fn off 4 = s.read32 fn off := by
      have hlen : (s.read32 fn off).1.length = 4 := by
        unfold State.read32
        rw [hhit]
        dsimp only
        split
        · rfl
        · split <;> exact leBytes_length 4 _
      rw [readBar0_four_of_aligned halign, List.take_of_length_le (Nat.le_of_eq hlen)]
    have hbits : ∀ lo, leBytes 4 (getBits (s.view fn g) lo 32) = leBytes 4 ((s.view fn g).toNat / 2 ^ lo) := fun lo => leBytes_mod 4 _
    rw [hone, State.read32, hhit]
    dsimp only
    rw [hbits]
    cases g.high <;> rfl

theorem readBar0_of_none {s : State} {fn off : Nat} (hnone : regHit off = none) (halign : off % 4 = 0) :
    s.readBar0 fn off 4 = (List.replicate 4 0, s) := by
  rw [readBar0_four_of_aligned halign, State.read32, hnone]
  rfl

/-- A read within BAR0 of a function that reaches the module. -/
theorem exec_rcRead {s : State} {fn off n : Nat} {bs : List Byte} {u : State} (hwr : s.hostWrites fn) (hin : off + n ≤ bar0Size)
    (hread : s.readBar0 fn off n = (bs, u)) : exec (.rcRead fn off n) s = .next { u with out := bs } := by
  show execRcRead fn off n s = _
  rw [execRcRead, hostAccess_of_decodes hwr.1 hwr.2, if_neg (Nat.not_lt.2 hin), hread]

/-! ## Writes -/

theorem writeReg_of_not_acting {s : State} {fn : Nat} {g : RegHit} {half : Half} {v : Word64}
    (h : actingRegisters.contains g.row.base = false) :
    s.writeReg fn g half v = s.wrReg (g.ref fn)
      ((s.reg (g.ref fn) &&& ~~~(writeMask g.row.fields &&& halfMask half)) ||| (v &&& (writeMask g.row.fields &&& halfMask half))) := by
  unfold State.writeReg
  dsimp only
  generalize hbase : g.row.base = base at h
  split
  case h_14 => rfl
  all_goals exact absurd h (by decide)

/-- Which functions may write an instance (each block's layout rule). -/
def State.writable (s : State) (fn : Nat) (g : RegHit) : Bool :=
  match g.row.wr with
  | .ro | .logged => false
  | .pf0 => fn == 0
  | .part => fn == 0 || g.inst == fn
  | .own => true
  | .session => fn == 0 && s.flag Reg.SEC_STAT Fld.SEC_STAT_CO_SESSION

theorem mayWrite_iff {s : State} {fn : Nat} {g : RegHit} : s.mayWrite fn g ↔ s.writable fn g = true := by
  unfold State.mayWrite State.writable
  cases g.row.wr <;> simp

theorem writeHit_eq {s : State} {fn off : Nat} {g : RegHit} {half : Half} {v : Word64} : s.writeHit fn off g half v =
    if !(s.sees fn g) then s.refuseWrite fn off
    else if s.unreadable g then s
    else if s.writable fn g then s.writeReg fn g half v
    else if g.row.wr = .ro then s
    else s.refuseWrite fn off := rfl

theorem writeHit_of_may {s : State} {fn off : Nat} {g : RegHit} {half : Half} {v : Word64} (hsees : s.sees fn g = true)
    (hup : s.unreadable g = false) (hmay : s.mayWrite fn g) : s.writeHit fn off g half v = s.writeReg fn g half v := by
  rw [writeHit_eq, hsees, hup, if_neg (by decide), if_neg (by decide), if_pos (mayWrite_iff.1 hmay)]

theorem writeHit_of_down {s : State} {fn off : Nat} {g : RegHit} {half : Half} {v : Word64} (hsees : s.sees fn g = true)
    (hdown : s.unreadable g = true) : s.writeHit fn off g half v = s := by
  rw [writeHit_eq, hsees, hdown, if_neg (by decide), if_pos rfl]

theorem writeHit_of_ro {s : State} {fn off : Nat} {g : RegHit} {half : Half} {v : Word64} (hsees : s.sees fn g = true) (hro : g.row.wr = .ro) :
    s.writeHit fn off g half v = s := by
  simp [writeHit_eq, State.writable, hsees, hro]

theorem writeHit_of_refused {s : State} {fn off : Nat} {g : RegHit} {half : Half} {v : Word64}
    (h : s.sees fn g = false ∨ (s.unreadable g = false ∧ g.row.wr ≠ .ro ∧ ¬s.mayWrite fn g)) : s.writeHit fn off g half v = s.refuseWrite fn off := by
  rw [writeHit_eq]
  obtain hunseen | ⟨hup, hro, hmay⟩ := h
  · rw [hunseen, if_pos (by decide)]
  · split
    · rfl
    · simp [hup, hro, Bool.eq_false_iff.2 fun h => hmay (mayWrite_iff.2 h)]

/-- A write of one half of a register, or of the whole of a 64-bit one, as BAR0 makes it. -/
theorem writeBar0_of_hit {s : State} {fn off : Nat} {bs : List Byte} {g : RegHit} {half : Half} (hhit : regHit off = some g)
    (hacc : g.accessed off bs.length half) :
    s.writeBar0 fn off bs = s.writeHit fn off g half (BitVec.ofNat 64 (ofLeBytes bs * 2 ^ halfShift half)) := by
  have hlt := ofLeBytes_lt bs
  obtain ⟨rfl, hlen, halign, hwidth, hlow⟩ | ⟨rfl, hlen, halign⟩ := hacc
  · simp [State.writeBar0, State.writePiece, State.write64, hlen, halign, hhit, hwidth, hlow, halfShift]
  · rw [hlen] at hlt
    have hmod : ofLeBytes bs % 2 ^ 32 = ofLeBytes bs := Nat.mod_eq_of_lt hlt
    have hpiece : s.writeBar0 fn off bs = s.write32 fn off (ofLeBytes bs) := by
      simp [State.writeBar0, State.writePiece, hlen, halign]
    rw [hpiece, State.write32, hhit]
    dsimp only
    rw [hmod]
    cases g.high
    · rw [if_neg (by decide), if_neg (by decide), halfShift, if_neg (by decide), Nat.pow_zero, Nat.mul_one]
    · rfl

theorem writeBar0_of_none {s : State} {fn off : Nat} {bs : List Byte} (hnone : regHit off = none) (halign : off % 4 = 0) (hlen : bs.length = 4) :
    s.writeBar0 fn off bs = s.refuseWrite fn off := by
  simp [State.writeBar0, State.writePiece, State.write32, hlen, halign, hnone]

/-- Partial or unaligned bytes are refused (R584). -/
theorem writeBar0_of_unaligned {s : State} {fn off : Nat} {bs : List Byte} (hle : bs.length ≤ 8) (h8 : ¬(bs.length = 8 ∧ off % 8 = 0))
    (h4 : ¬(bs.length = 4 ∧ off % 4 = 0)) : s.writeBar0 fn off bs = s.refuseWrite fn off := by
  rw [State.writeBar0, if_pos hle, State.writePiece, if_neg (by simpa using h8), if_neg (by simpa using h4)]

/-- A write within BAR0 of a function that reaches the module. -/
theorem exec_registerWrite {s : State} {fn off : Nat} {bs : List Byte} {partialBe : Bool} (hwr : s.hostWrites fn)
    (hin : off + bs.length ≤ bar0Size) : exec (.registerWrite fn off bs partialBe) s =
      .next (if partialBe then s.refuseWrite fn off else s.writeBar0 fn off bs) := by
  show execRegisterWrite fn off bs partialBe s = _
  rw [execRegisterWrite, reached_of_hostWrites hwr, if_neg (Nat.not_lt.2 hin)]

end Sys2Proof.Machine

namespace Sys2Proof
open Machine

/-- Settles O14: an access reads one half of one register or the whole of it, and a write of another partition's register is refused. -/
theorem registerReadsReturnWhatAFunctionMaySee : Obligations.RegisterReadsReturnWhatAFunctionMaySee := by
  unfold Obligations.RegisterReadsReturnWhatAFunctionMaySee
  refine ⟨fun s fn off n hwr hin => ⟨fun g half hhit hacc => ?_, fun hnone h4 halign => ?_⟩,
    fun s fn p vpn x count hp hwr h0 hne c off hc => ?_⟩
  · have hread := readBar0_of_hit (s := s) (fn := fn) hhit hacc
    refine ⟨fun hsees hup hbase => ?_, fun hsees => ?_, fun hsees hdown => ?_⟩
    · rw [hsees, hup, if_neg (by decide), if_neg (by decide), afterRead_eq hbase] at hread
      refine ⟨_, exec_rcRead hwr hin hread, rfl, fun f hf hrc hhalf => ?_, ?_, fieldsBut_trans clearFlds_fields (fieldsBut_of_regs rfl)⟩
      · have hmem : f ∈ g.rcFields half := List.mem_filter.2 ⟨hf, by simp [hrc, hhalf]⟩
        exact (State.fld_of_regs rfl).trans (clearFlds_fld hmem)
      · rw [clearFlds_frame]
    · rw [hsees, if_pos (by decide)] at hread
      exact exec_rcRead hwr hin hread
    · rw [hsees, hdown, if_neg (by decide), if_pos rfl] at hread
      exact exec_rcRead hwr hin hread
  · subst h4
    exact exec_rcRead hwr hin (readBar0_of_none hnone halign)
  · have hrefused : exec c s = .next (s.refuseWrite fn off) := by
      obtain ⟨rfl, rfl⟩ | ⟨rfl, rfl⟩ | ⟨rfl, rfl⟩ | ⟨rfl, rfl⟩ := hc
      · exact (exec_invalidate (all := false) hp rfl).trans (by rw [ofPart_of_not_may hwr h0 hne])
      · exact (exec_invalidate (all := true) hp rfl).trans (by rw [ofPart_of_not_may hwr h0 hne])
      · show execReservoirTailWrite fn p x s = _
        rw [execReservoirTailWrite, onObject, if_pos (by simpa using hp), ofPart_of_not_may hwr h0 hne]
      · show execFreeHeadWrite fn p x s = _
        rw [execFreeHeadWrite, onObject, if_pos (by simpa using hp), ofPart_of_not_may hwr h0 hne]
    exact ⟨_, hrefused, refuses_of_refuseWrite⟩

/-- Settles O15: a write of one half or the whole of a register stores its writable bits, or is refused, or is ignored. -/
theorem registerWritesSetTheWritableBits : Obligations.RegisterWritesSetTheWritableBits := by
  unfold Obligations.RegisterWritesSetTheWritableBits
  intro s fn off bs hwr hin hle
  have hexec := exec_registerWrite (partialBe := false) hwr hin
  rw [if_neg (by decide)] at hexec
  refine ⟨fun g half hhit hacc => ?_, fun halign hlen hnone => ?_, fun h8 h4 => ?_, ?_⟩
  · rw [writeBar0_of_hit hhit hacc] at hexec
    refine ⟨fun hsees hup hmay hact => ?_, fun hsees hro => ?_, fun hsees hdown => ?_, fun hrefused => ?_⟩
    · rw [writeHit_of_may hsees hup hmay, writeReg_of_not_acting hact] at hexec
      exact ⟨_, hexec, State.reg_wrReg_self, rfl, fieldsBut_wrReg (by simp)⟩
    · rw [hexec, writeHit_of_ro hsees hro]
    · rw [hexec, writeHit_of_down hsees hdown]
    · rw [writeHit_of_refused hrefused] at hexec
      exact ⟨_, hexec, refuses_of_refuseWrite⟩
  · rw [writeBar0_of_none hnone halign hlen] at hexec
    exact ⟨_, hexec, refuses_of_refuseWrite⟩
  · rw [writeBar0_of_unaligned hle h8 h4] at hexec
    exact ⟨_, hexec, refuses_of_refuseWrite⟩
  · exact ⟨_, exec_registerWrite hwr hin, refuses_of_refuseWrite⟩

end Sys2Proof
end

section
/-! PROOFS. Accesses through BAR2 and BAR4 (R283, R285, R499, R573). -/

namespace Sys2Proof.Machine

/-! ## What the host reads -/

section
variable {s : State} {fn a n : Nat}

theorem mem_read_length {m : Mem} {boot : Nat} {key : Option Nat} : (m.read boot key a n).length = n := by
  simp [Mem.read]

theorem mem_read_getElem? {m : Mem} {boot i : Nat} {key : Option Nat} (hi : i < n) :
    (m.read boot key a n)[i]? = some (m.readByte boot key (a + i)) := by
  simp [Mem.read, hi]

/-- The bytes that memory holds for the host. -/
def State.hostBytes (s : State) (fn a n : Nat) : List Byte := s.mem.read s.clk.count (s.hostKey fn a n) a n

theorem hostBytes_eq : (if s.inRingArea a n then s.rdRaw a n else s.rdMem fn a n) = s.hostBytes fn a n := by
  unfold State.hostBytes State.hostKey
  split <;> rfl

/-- The bytes that the host gets where a unit reads as uncorrectable (R499). -/
def State.badBytes (s : State) (fn a n : Nat) : List Byte :=
  (List.range n).map fun i =>
    if s.mem.poison.contains ((a + i) / 32) then Config.uncorrectableByte (a + i) s.free else (s.hostBytes fn a n).getD i 0

theorem hostRead_eq : s.hostRead fn a n = match s.mem.bad a n with
    | none => (s.hostBytes fn a n, s)
    | some u => (s.badBytes fn a n, (s.ueAt u).useFree) := by
  unfold State.hostRead State.badBytes
  rw [hostBytes_eq] <;> rfl

theorem fault_frame {code level source object : Nat} {data : List Byte} :
    s.fault code level source object data = { s with faultLog := (s.fault code level source object data).faultLog } := by
  unfold State.fault
  dsimp only
  split <;> rfl

theorem ueAt_counts {u : Nat} : s.counted (s.ueAt u) (Reg.MEM_ECC (stackOf u)) Fld.MEM_ECC_UE 1 ∧
    s.fieldsBut (s.ueAt u) [(Reg.MEM_ECC (stackOf u), Fld.MEM_ECC_UE)] ∧
    s.ueAt u = { s with regs := (s.ueAt u).regs, faultLog := (s.ueAt u).faultLog } := by
  have hregs : (s.ueAt u).regs = (s.bump (Reg.MEM_ECC (stackOf u)) Fld.MEM_ECC_UE).regs := by
    unfold State.ueAt
    rw [fault_frame]
  refine ⟨?_, fieldsBut_trans (fieldsBut_bump (by simp)) (fieldsBut_of_regs hregs), ?_⟩
  · exact (State.fld_of_regs hregs).trans (fld_bumpBy (by decide) State.fld_lt)
  · unfold State.ueAt
    rw [fault_frame, State.bump, bumpBy_eq]

theorem hostRead_reads : s.hostReads { (s.hostRead fn a n).2 with out := (s.hostRead fn a n).1 } fn a n := by
  rw [hostRead_eq]
  cases hbad : s.mem.bad a n with
  | none =>
    refine ⟨mem_read_length, fun i hi _ => mem_read_getElem? hi, fun _ => rfl, fun u hu => ?_⟩
    exact absurd (hbad.symm.trans hu) (by simp)
  | some u =>
    obtain ⟨hcount, hfields, hframe⟩ := ueAt_counts (s := s) (u := u)
    refine ⟨by simp [State.badBytes], fun i hi hgood => ?_, fun hnone => absurd (hbad.symm.trans hnone) (by simp), fun v hv => ?_⟩
    · have hread : (s.hostBytes fn a n)[i]? = some (s.mem.readByte s.clk.count (s.hostKey fn a n) (a + i)) := mem_read_getElem? hi
      have hbyte : (s.badBytes fn a n)[i]? = some ((s.hostBytes fn a n).getD i 0) := by
        simp only [State.badBytes, List.getElem?_map, List.getElem?_range hi, Option.map_some, hgood]
        rfl
      refine hbyte.trans ?_
      rw [List.getD, hread]
      rfl
    · obtain rfl : u = v := Option.some.inj (hbad.symm.trans hv)
      refine ⟨hcount, rfl, hfields, ?_⟩
      dsimp only
      generalize s.ueAt u = v at hframe ⊢
      rw [hframe]
      rfl

end

/-! ## What the host writes -/

section
variable {s : State} {fn a : Nat} {bs : List Byte}

/-- Only the entries that the caches may still hold for partition p differ (R184). -/
def State.staleOnly (s t : State) (p : Nat) : Prop :=
  t = { s with parts := t.parts } ∧ (∀ q, q ≠ p → t.part q = s.part q) ∧ t.part p = { s.part p with stale := (t.part p).stale }

theorem staleOnly_refl {p : Nat} : s.staleOnly s p := ⟨rfl, fun _ _ => rfl, rfl⟩

theorem staleOnly_trans {t u : State} {p : Nat} (h : s.staleOnly t p) (k : t.staleOnly u p) : s.staleOnly u p := by
  obtain ⟨hframe, hother, hpart⟩ := h
  obtain ⟨kframe, kother, kpart⟩ := k
  refine ⟨kframe.trans (by rw [hframe]), fun q hq => (kother q hq).trans (hother q hq), kpart.trans (by rw [hpart])⟩

theorem staleOnly_setPart {p : Nat} {l : List (Nat × Nat × Nat)} : s.staleOnly (s.setPart p { s.part p with stale := l }) p :=
  ⟨rfl, fun _ hq => State.part_setPart_ne hq, by rw [State.part_setPart_self]⟩

theorem noteStale_staleOnly {p n : Nat} : s.staleOnly (s.noteStale p a n) p := by
  unfold State.noteStale
  refine each_induction (P := fun t => s.staleOnly t p) staleOnly_refl fun t w _ ht => ?_
  dsimp only
  split
  · exact ht
  · refine each_induction (P := fun t => s.staleOnly t p) ht fun u v _ hu => ?_
    split
    · exact hu
    · exact staleOnly_trans hu staleOnly_setPart

theorem hostWrite_writes : s.hostWrote (s.hostWrite fn a bs) fn a bs := by
  unfold State.hostWrite State.hostWrote State.hostKey
  by_cases hring : s.inRingArea a bs.length = true
  · rw [if_pos hring, if_pos hring]
    exact ⟨fun i hi => Mem.readByte_write_getElem (m := s.mem) (key := none) hi, fun k x hx hkeep => Mem.readByte_write_of_outside (m := s.mem) hx hkeep, fun _ _ => rfl, rfl, rfl⟩
  · rw [if_neg hring, if_neg hring]
    obtain ⟨hframe, hother, hpart⟩ := noteStale_staleOnly (s := s) (a := a) (p := fn) (n := bs.length)
    have hmem : (((s.noteStale fn a bs.length).wrMem fn a bs).useFree).mem = s.mem.write (some (s.keyOf fn)) a bs := by
      rw [hframe]
      rfl
    refine ⟨fun i hi => ?_, fun k x hx hkeep => ?_, hother, hpart, ?_⟩
    · rw [hmem]
      exact Mem.readByte_write_getElem hi
    · rw [hmem]
      exact Mem.readByte_write_of_outside hx hkeep
    · rw [hframe]
      rfl

end

/-! ## The command -/

section
variable {s : State} {fn off : Nat} {acc : ApAccess}

theorem exec_apertureAccess (hwr : s.hostWrites fn) : exec (.apertureAccess fn off acc) s =
    .next (if (apShape acc).2.2 < off + (apShape acc).2.1 then s.urAt fn (apShape acc).1 else s.aperture fn off acc) := by
  show execApertureAccess fn off acc s = _
  unfold execApertureAccess
  dsimp only
  rw [hostAccess_of_decodes hwr.1 hwr.2]

/-- An access within its BAR. -/
theorem exec_apertureAccess_of_within (hwr : s.hostWrites fn) (hin : off + (apShape acc).2.1 ≤ (apShape acc).2.2) :
    exec (.apertureAccess fn off acc) s = .next (s.aperture fn off acc) := by
  rw [exec_apertureAccess hwr, if_neg (Nat.not_lt.2 hin)]

end

end Sys2Proof.Machine

namespace Sys2Proof
open Machine

/-- Settles O16: BAR4 reaches memory where the controller admits the extent, BAR2 the ring area where it is placed, and no access goes
beyond its BAR. The refused read's value and the unplaced ring area are the model's choices (log entry 95). -/
theorem apertureAccessesReachAdmittedMemory : Obligations.ApertureAccessesReachAdmittedMemory := by
  unfold Obligations.ApertureAccessesReachAdmittedMemory
  rintro s fn off n a r bs hwr rfl rfl
  refine ⟨fun hin => ⟨fun hok => ?_, fun hno => ?_⟩, fun hin => ⟨fun hok => ?_, fun hno => ?_⟩,
    fun hplaced => ⟨fun hin => ?_, fun hin => ?_⟩, fun hnone => ⟨fun hin => ?_, fun hin => ?_⟩, fun acc hout => ?_⟩
  · exact ⟨_, (exec_apertureAccess_of_within hwr hin).trans (congrArg Host.Outcome.next (if_pos hok)), hostRead_reads⟩
  · obtain ⟨hlog, hfields, hframe⟩ := violate_logs (s := s) (p := fn) (a := s.fld (Reg.SCH_APER fn) Fld.SCH_APER_BASE * 2 ^ 30 + off)
      (source := 6) (phys := true) (value := false)
    refine ⟨_, (exec_apertureAccess_of_within hwr hin).trans (congrArg Host.Outcome.next (if_neg (by rw [hno]; decide))), rfl, hlog,
      fieldsBut_trans hfields (fieldsBut_of_regs rfl), ?_⟩
    rw [hframe]
  · exact ⟨_, (exec_apertureAccess_of_within hwr hin).trans (congrArg Host.Outcome.next (if_pos hok)), hostWrite_writes⟩
  · exact ⟨_, (exec_apertureAccess_of_within hwr hin).trans (congrArg Host.Outcome.next (if_neg (by rw [hno]; decide))), violate_logs⟩
  · exact ⟨_, (exec_apertureAccess_of_within hwr hin).trans (congrArg Host.Outcome.next (if_pos hplaced)), hostRead_reads⟩
  · exact ⟨_, (exec_apertureAccess_of_within hwr hin).trans (congrArg Host.Outcome.next (if_pos hplaced)), hostWrite_writes⟩
  · exact ⟨_, (exec_apertureAccess_of_within hwr hin).trans (congrArg Host.Outcome.next (if_neg (by simpa using hnone))), by simp, rfl⟩
  · exact (exec_apertureAccess_of_within hwr hin).trans (congrArg Host.Outcome.next (if_neg (by simpa using hnone)))
  · rw [exec_apertureAccess hwr, if_pos hout]
    rfl

end Sys2Proof
end

section
/-! PROOFS. Requests of the host outside the BARs, and the VFs it enables (R284, R473, R554, R573). -/

namespace Sys2Proof.Machine

theorem contains_filter_eq {l : List Nat} {p : Nat → Bool} {x : Nat} : (l.filter p).contains x = (l.contains x && p x) := by
  rw [Bool.eq_iff_iff]
  simp

/-! ## Pending messages (R284) -/

section
variable {s : State} {f v : Nat}

/-- Vector v of function f is pending and nothing holds its message. -/
def State.sendsNow (s : State) (f v : Nat) : Bool :=
  s.pcie.pendingBits.contains (32 * f + v) && !(s.masked f v) && s.decodes f && s.pcie.msixOn.contains f

/-- The pending message of vector v goes, if nothing holds it. -/
def State.sendOne (f : Nat) (s : State) (v : Nat) : State :=
  if s.sendsNow f v then
    { s with pcie := { s.pcie with pendingBits := s.pcie.pendingBits.filter (· != 32 * f + v), msix := (f, v, s.now) :: s.pcie.msix } }
  else s

theorem sendPending_eq : s.sendPending f = (List.range 32).foldl (State.sendOne f) s := rfl

/-- A message that goes leaves every other vector as it was. -/
theorem sendsNow_sendOne {w : Nat} (h : w ≠ v) : (s.sendOne f v).sendsNow f w = s.sendsNow f w := by
  unfold State.sendOne
  split
  · have hkept : (s.pcie.pendingBits.filter (· != 32 * f + v)).contains (32 * f + w) = s.pcie.pendingBits.contains (32 * f + w) := by
      rw [contains_filter_eq]
      simp [h]
    unfold State.sendsNow State.masked State.decodes State.partExists
    rw [hkept]
    rfl
  · rfl

/-- The messages of the vectors listed have gone, those of `sends`, the first first. -/
def State.sent (s : State) (f : Nat) (vs : List Nat) (sends : Nat → Bool) : State :=
  { s with pcie := { s.pcie with
      pendingBits := s.pcie.pendingBits.filter (fun x => !(vs.any fun v => x == 32 * f + v && sends v))
      msix := ((vs.filter sends).map fun v => (f, v, s.now)).reverse ++ s.pcie.msix } }

theorem sendOne_eq {sends : Nat → Bool} (h : sends v = s.sendsNow f v) : s.sendOne f v = s.sent f [v] sends := by
  unfold State.sendOne State.sent
  rw [← h]
  cases hs : sends v
  · simp [hs]
  · simp [hs, bne]

theorem sent_cons {vs : List Nat} {sends : Nat → Bool} : (s.sent f [v] sends).sent f vs sends = s.sent f (v :: vs) sends := by
  unfold State.sent
  have hmsix : ((v :: vs).filter sends).map (fun v => (f, v, s.now)) =
      ([v].filter sends).map (fun v => (f, v, s.now)) ++ (vs.filter sends).map fun v => (f, v, s.now) := by
    rw [← List.map_append, ← List.filter_append]
    rfl
  rw [hmsix]
  simp [List.filter_filter, Bool.and_comm]

theorem foldl_sendOne {vs : List Nat} {sends : Nat → Bool} (hnodup : vs.Nodup) (h : ∀ v ∈ vs, sends v = s.sendsNow f v) :
    vs.foldl (State.sendOne f) s = s.sent f vs sends := by
  induction vs generalizing s with
  | nil => simp [State.sent]
  | cons v vs ih =>
    obtain ⟨hv, htail⟩ := List.nodup_cons.1 hnodup
    have hrest : ∀ w ∈ vs, sends w = (s.sendOne f v).sendsNow f w := fun w hw => by
      rw [sendsNow_sendOne (ne_of_mem_of_not_mem hw hv)]
      exact h w (List.mem_cons_of_mem _ hw)
    rw [List.foldl_cons, ih htail hrest, sendOne_eq (h v List.mem_cons_self), sent_cons]

/-- Every pending message of the function that no mask holds goes, lowest vector first. -/
theorem sendPending_sent {sends : Nat → Bool} (h : ∀ v, sends v = s.sendsNow f v) :
    s.sendPending f = { s with pcie := { s.pcie with
      pendingBits := s.pcie.pendingBits.filter (fun x => !(x / 32 == f && sends (x % 32)))
      msix := (((List.range 32).filter sends).map fun v => (f, v, s.now)).reverse ++ s.pcie.msix } } := by
  have hvec : ∀ x, ((List.range 32).any fun v => x == 32 * f + v && sends v) = (x / 32 == f && sends (x % 32)) := fun x => by
    rw [Bool.eq_iff_iff]
    simp only [List.any_eq_true, List.mem_range, Bool.and_eq_true, beq_iff_eq]
    constructor
    · rintro ⟨v, hv, rfl, hs⟩
      have hdiv : (32 * f + v) / 32 = f := by omega
      have hmod : (32 * f + v) % 32 = v := by omega
      exact ⟨hdiv, by rwa [hmod]⟩
    · rintro ⟨rfl, hs⟩
      exact ⟨x % 32, by omega, by omega, hs⟩
  rw [sendPending_eq, foldl_sendOne List.nodup_range fun v _ => h v, State.sent]
  simp only [hvec]

end

/-! ## Configuration requests (R284, R554) -/

section
variable {s : State} {fn : Nat}

/-- A number put into a set of numbers, or taken out of it. -/
def putIn (b : Bool) (x : Nat) (l : List Nat) : List Nat := if b then x :: l.filter (· != x) else l.filter (· != x)

theorem contains_putIn {b : Bool} {x y : Nat} {l : List Nat} : (putIn b x l).contains y = if y = x then b else l.contains y := by
  unfold putIn
  rw [Bool.eq_iff_iff]
  cases b
  · by_cases h : y = x <;> simp [h]
  · by_cases h : y = x <;> simp [h]

/-- A served configuration request before any pending message goes. -/
def State.cfgStored (s : State) (fn : Nat) : CfgAccess → State
  | .other => s
  | .msixControl en mask => { s with pcie := { s.pcie with msixOn := putIn en fn s.pcie.msixOn, funcMask := putIn mask fn s.pcie.funcMask } }
  | .msixVector v mask =>
    if 32 ≤ v then s else { s with pcie := { s.pcie with unmasked := putIn (!mask) (32 * fn + v) s.pcie.unmasked } }

/-- A configuration request that may let pending messages go. -/
def cfgUnmasks : CfgAccess → Bool
  | .other => false
  | .msixControl .. => true
  | .msixVector v _ => decide (v < 32)

theorem cfgWrite_eq {acc : CfgAccess} :
    s.cfgWrite fn acc = if cfgUnmasks acc then (s.cfgStored fn acc).sendPending fn else s.cfgStored fn acc := by
  cases acc with
  | other => rfl
  | msixControl en mask => rfl
  | msixVector v mask =>
    unfold State.cfgWrite State.cfgStored cfgUnmasks
    dsimp only
    by_cases hv : 32 ≤ v
    · rw [if_pos hv, if_pos hv, if_neg (mt of_decide_eq_true (Nat.not_lt.2 hv))]
    · rw [if_neg hv, if_neg hv, if_pos (decide_eq_true (Nat.lt_of_not_le hv))]
      rfl

/-- What a configuration request stores. -/
theorem cfgStored_pcie {acc : CfgAccess} :
    s.cfgStored fn acc = { s with pcie := (s.cfgStored fn acc).pcie } ∧
      (s.cfgStored fn acc).pcie = { s.pcie with
        msixOn := (s.cfgStored fn acc).pcie.msixOn, funcMask := (s.cfgStored fn acc).pcie.funcMask
        unmasked := (s.cfgStored fn acc).pcie.unmasked } ∧
      (∀ f, (s.cfgStored fn acc).pcie.msixOn.contains f = match acc with
        | .msixControl on _ => if f = fn then on else s.pcie.msixOn.contains f
        | _ => s.pcie.msixOn.contains f) ∧
      (∀ f, (s.cfgStored fn acc).pcie.funcMask.contains f = match acc with
        | .msixControl _ mask => if f = fn then mask else s.pcie.funcMask.contains f
        | _ => s.pcie.funcMask.contains f) ∧
      ∀ x, (s.cfgStored fn acc).pcie.unmasked.contains x = match acc with
        | .msixVector v mask => if v < 32 ∧ x = 32 * fn + v then !mask else s.pcie.unmasked.contains x
        | _ => s.pcie.unmasked.contains x := by
  cases acc with
  | other => exact ⟨rfl, rfl, fun _ => rfl, fun _ => rfl, fun _ => rfl⟩
  | msixControl en mask => exact ⟨rfl, rfl, fun f => contains_putIn, fun f => contains_putIn, fun _ => rfl⟩
  | msixVector v mask =>
    unfold State.cfgStored
    dsimp only
    by_cases hv : 32 ≤ v
    · rw [if_pos hv]
      exact ⟨rfl, rfl, fun _ => rfl, fun _ => rfl, fun x => by rw [if_neg fun h => absurd h.1 (Nat.not_lt.2 hv)]⟩
    · rw [if_neg hv]
      refine ⟨rfl, rfl, fun _ => rfl, fun _ => rfl, fun x => contains_putIn.trans ?_⟩
      simp [Nat.lt_of_not_le hv]

/-- The state with a configuration request recorded as served. -/
def State.cfgServed (s : State) (fn : Nat) : State := { s with pcie := { s.pcie with served := s.pcie.served ++ [fn] } }

theorem exec_configurationRequest {acc : CfgAccess} (h : 5 ≤ s.phase) : exec (.configurationRequest ⟨fn, acc⟩) s =
    .next (if s.hostUp then
      if s.enabledFn fn then (s.cfgServed fn).cfgWrite fn acc
      else { s with pcie := { s.pcie with unsupported := s.pcie.unsupported ++ [fn] } }
    else { s with pcie := { s.pcie with crs := s.pcie.crs ++ [fn] } }) := by
  show execConfigurationRequest ⟨fn, acc⟩ s = _
  rw [execConfigurationRequest, if_neg (Nat.not_lt.2 h)]
  cases s.hostUp <;> rfl

end

/-! ## VFs that stop -/

section
variable {s : State}

/-- Functions of a list with their MSI-X at its reset values. -/
def State.msixResets (s : State) (fs : List Nat) : State :=
  { s with pcie := { s.pcie with
      msixOn := s.pcie.msixOn.filter (fun f => !(fs.contains f)), funcMask := s.pcie.funcMask.filter (fun f => !(fs.contains f))
      unmasked := s.pcie.unmasked.filter (fun x => !(fs.contains (x / 32)))
      pendingBits := s.pcie.pendingBits.filter (fun x => !(fs.contains (x / 32))) } }

theorem each_msixReset {fs : List Nat} : s.each fs (fun s f => s.msixReset f) = s.msixResets fs := by
  unfold State.each
  induction fs generalizing s with
  | nil => simp [State.msixResets]
  | cons f fs ih =>
    rw [List.foldl_cons, ih]
    unfold State.msixResets State.msixReset
    simp [List.filter_filter, bne, Bool.and_comm, beq_eq_decide]

theorem contains_vfs {f : Nat} : (!(((List.range 64).drop 1).contains f)) = (decide (f = 0) || decide (64 ≤ f)) := by
  have hvfs : (List.range 64).drop 1 = List.range' 1 63 := rfl
  rw [hvfs, Bool.eq_iff_iff]
  simp only [Bool.not_eq_true', List.contains_eq_mem, decide_eq_false_iff_not, List.mem_range'_1, Bool.or_eq_true, decide_eq_true_eq]
  omega

theorem exec_vfEnableClear (h : s.hostUp = true) : exec .vfEnableClear s =
    .next { s.msixResets ((List.range 64).drop 1) with
      pcie := { (s.msixResets ((List.range 64).drop 1)).pcie with vfEnable := false } } := by
  show execVfEnableClear s = _
  rw [execVfEnableClear, if_pos h, each_msixReset]

end

end Sys2Proof.Machine

namespace Sys2Proof
open Machine

/-- Settles O17: a request is recorded where it belongs, and a served one stores its bits before the pending messages go (log entries 20
and 81). -/
theorem hostLinkRequestsAreAnswered : Obligations.HostLinkRequestsAreAnswered := by
  unfold Obligations.HostLinkRequestsAreAnswered
  intro s fn n isRead
  refine ⟨fun hup => ?_, fun hphase acc => ⟨fun hdown => ?_, fun hup hen => ?_, fun hup hdis => ?_⟩, fun hup hn => ?_, fun hup => ?_⟩
  · show execUnsupportedRequest fn isRead s = _
    rw [execUnsupportedRequest, hup]
    rfl
  · rw [exec_configurationRequest hphase, hdown]
    rfl
  · have hexec : exec (.configurationRequest ⟨fn, acc⟩) s = .next ((s.cfgServed fn).cfgWrite fn acc) := by
      rw [exec_configurationRequest hphase, if_pos hup, if_pos hen]
    obtain ⟨hframe, hpcie, hon, hmask, hunmasked⟩ := cfgStored_pcie (s := s.cfgServed fn) (fn := fn) (acc := acc)
    rw [cfgWrite_eq] at hexec
    generalize hu : (s.cfgServed fn).cfgStored fn acc = u at hexec hframe hpcie hon hmask hunmasked
    have hdec : u.decodes fn = s.decodes fn := by
      rw [hframe, State.decodes, hpcie]
      rfl
    have hpending : u.pcie.pendingBits = s.pcie.pendingBits := by rw [hpcie]; rfl
    have hmsix : u.pcie.msix = s.pcie.msix := by rw [hpcie]; rfl
    have hnow : u.now = s.now := by rw [hframe]; rfl
    cases hgo : cfgUnmasks acc
    · rw [hgo, if_neg (by decide)] at hexec
      have hnone : ∀ b : Bool, (b && cfgUnmasks acc) = false := fun b => by rw [hgo, Bool.and_false]
      refine ⟨u, hexec, hframe, hpcie.trans (by rw [hpcie]; rfl), hon, hmask, hunmasked, fun _ => false, fun v => (hnone _).symm, ?_, ?_⟩
      · simp [hmsix]
      · simp [hpending]
    · rw [hgo, if_pos rfl, sendPending_sent fun v => rfl, hpending, hmsix, hnow] at hexec
      have hall : ∀ b : Bool, (b && cfgUnmasks acc) = b := fun b => by rw [hgo, Bool.and_true]
      refine ⟨_, hexec, ?_, ?_, hon, hmask, hunmasked, u.sendsNow fn, fun v => ?_, rfl, rfl⟩
      · rw [hframe]
        rfl
      · rw [hpcie]
        rfl
      · refine Eq.trans ?_ (hall _).symm
        rw [State.sendsNow, hpending, hdec]
        rfl
  · rw [exec_configurationRequest hphase, if_pos hup, hdis]
    rfl
  · show execVfEnableSet n s = _
    rw [execVfEnableSet, if_pos (by simp [hup, hn])]
  · refine ⟨_, exec_vfEnableClear hup, rfl, rfl, rfl, fun f hf => ?_, fun f => ?_, fun f => ?_, fun x => ?_, fun x => ?_⟩
    · simp [State.decodes, hf]
    · exact contains_filter_eq.trans (by rw [contains_vfs])
    · exact contains_filter_eq.trans (by rw [contains_vfs])
    · exact contains_filter_eq.trans (by rw [contains_vfs])
    · exact contains_filter_eq.trans (by rw [contains_vfs])

end Sys2Proof
end

section
/-! PROOFS. The order of start-up and the reference's holdover (R480, R542, R544, R551 to R555, R574, R578). -/

namespace Sys2Proof.Machine

/-! ## Registers that an operation leaves alone -/

/-- The registers at the keys of `P` read in `t` as in `s`. -/
def State.keepsRegs (s t : State) (P : Nat → Prop) : Prop := ∀ r : RegRef, P r.key → t.reg r = s.reg r

section
variable {s t u : State} {P : Nat → Prop}

theorem keepsRegs_refl : s.keepsRegs s P := fun _ _ => rfl

theorem keepsRegs_trans (h : s.keepsRegs t P) (k : t.keepsRegs u P) : s.keepsRegs u P := fun r hr => (k r hr).trans (h r hr)

theorem keepsRegs_of_regs (h : t.regs = s.regs) : s.keepsRegs t P := fun r _ => by
  unfold State.reg
  rw [h]

theorem keepsRegs_mono {Q : Nat → Prop} (h : s.keepsRegs t P) (hQ : ∀ k, Q k → P k) : s.keepsRegs t Q := fun r hr => h r (hQ _ hr)

theorem keepsRegs_wrReg {r : RegRef} {v : Word64} (h : ¬P r.key) : s.keepsRegs (s.wrReg r v) P :=
  fun _ hq => State.reg_wrReg_ne fun he => h (he ▸ hq)

theorem keepsRegs_setFld {r : RegRef} {f : Field} {x : Nat} (h : ¬P r.key) : s.keepsRegs (s.setFld r f x) P := keepsRegs_wrReg h

theorem keepsRegs_setFlag {r : RegRef} {f : Field} {b : Bool} (h : ¬P r.key) : s.keepsRegs (s.setFlag r f b) P := keepsRegs_wrReg h

theorem keepsRegs_bump {r : RegRef} {f : Field} (h : ¬P r.key) : s.keepsRegs (s.bump r f) P := by
  unfold State.bump State.bumpBy
  split
  · exact keepsRegs_refl
  · exact keepsRegs_setFld h

theorem keepsRegs_fld {r : RegRef} {f : Field} (h : s.keepsRegs t P) (hr : P r.key) : t.fld r f = s.fld r f := by
  unfold State.fld
  rw [h r hr]

theorem keepsRegs_flag {r : RegRef} {f : Field} (h : s.keepsRegs t P) (hr : P r.key) : t.flag r f = s.flag r f := by
  unfold State.flag
  rw [keepsRegs_fld h hr]

end

/-! ## Operating points (R424, R425, R433, R480) -/

/-- A key of no quadrant's operating point. -/
def notOp (k : Nat) : Prop := ∀ q, q < 4 → k ≠ (Reg.POW_OP q).key

/-- Only the operating points of the quadrants, and what is kept of them, differ. -/
def State.opsOnly (s t : State) : Prop :=
  t = { s with regs := t.regs, power := t.power } ∧
    t.power = { s.power with ceil := t.power.ceil, raiseAt := t.power.raiseAt, windows := t.power.windows } ∧ s.keepsRegs t notOp

section
variable {s t u : State} {q : Nat}

theorem opsOnly_refl : s.opsOnly s := ⟨rfl, rfl, keepsRegs_refl⟩

theorem opsOnly_trans (h : s.opsOnly t) (k : t.opsOnly u) : s.opsOnly u := by
  obtain ⟨hframe, hpower, hregs⟩ := h
  obtain ⟨kframe, kpower, kregs⟩ := k
  exact ⟨kframe.trans (by rw [hframe]), kpower.trans (by rw [hpower]), keepsRegs_trans hregs kregs⟩

theorem not_notOp (hq : q < 4) : ¬notOp (Reg.POW_OP q).key := fun h => h q hq rfl

theorem opsOnly_setFld {f : Field} {x : Nat} (hq : q < 4) : s.opsOnly (s.setFld (Reg.POW_OP q) f x) :=
  ⟨rfl, rfl, keepsRegs_setFld (not_notOp hq)⟩

theorem opsOnly_setFlag {f : Field} {b : Bool} (hq : q < 4) : s.opsOnly (s.setFlag (Reg.POW_OP q) f b) :=
  ⟨rfl, rfl, keepsRegs_setFlag (not_notOp hq)⟩

theorem setVolt_opsOnly (hq : q < 4) : s.opsOnly (s.setVolt q) := by
  unfold State.setVolt
  extract_lets r v old set
  split
  · exact opsOnly_refl
  · exact opsOnly_trans (opsOnly_setFld hq) (opsOnly_setFlag hq)

theorem lowerClock_opsOnly (hq : q < 4) : s.opsOnly (s.lowerClock q) := by
  unfold State.lowerClock
  split
  · exact opsOnly_trans (opsOnly_setFld hq) (setVolt_opsOnly hq)
  · exact setVolt_opsOnly hq

theorem wantRaise_opsOnly (hq : q < 4) : s.opsOnly (s.wantRaise q) := by
  unfold State.wantRaise
  split
  · exact opsOnly_trans ⟨rfl, rfl, keepsRegs_refl⟩ (setVolt_opsOnly hq)
  · exact opsOnly_refl

theorem freshCeil_opsOnly (hq : q < 4) : s.opsOnly (s.freshCeil q) := by
  unfold State.freshCeil
  extract_lets thermal c old s1
  split
  · exact opsOnly_refl
  · have hset : s.opsOnly s1 := opsOnly_setFld hq
    split
    · exact opsOnly_trans hset (lowerClock_opsOnly hq)
    · exact opsOnly_trans hset (wantRaise_opsOnly hq)

/-- What each quadrant's change of its operating point keeps, the four changes keep. -/
theorem each_quadrant_opsOnly {g : State → Nat → State} (h : ∀ (t : State) q, q < 4 → t.opsOnly (g t q)) : s.opsOnly (s.each (List.range 4) g) :=
  each_induction (P := fun t => s.opsOnly t) opsOnly_refl fun t q hq ht => opsOnly_trans ht (h t q (List.mem_range.1 hq))

theorem demandAll_opsOnly {source op : Nat} : s.opsOnly (s.demandAll source op) :=
  each_quadrant_opsOnly fun _ _ hq => opsOnly_trans ⟨rfl, rfl, keepsRegs_refl⟩ (freshCeil_opsOnly hq)

theorem freshBoost_opsOnly : s.opsOnly s.freshBoost := by
  unfold State.freshBoost
  refine opsOnly_trans (t := { s with power := { s.power with windows := s.power.windows.filter fun w => s.now < w.stop } })
    ⟨rfl, rfl, keepsRegs_refl⟩ (each_quadrant_opsOnly fun t q hq => ?_)
  extract_lets on r v
  split
  · exact opsOnly_refl
  · exact opsOnly_trans (opsOnly_setFlag hq) (opsOnly_setFld hq)

/-- The governor comes into force: its flag, and the operating points. -/
theorem governorOn_opsOnly : (s.setFlag Reg.POW_STAT Fld.POW_STAT_GOV true).opsOnly s.governorOn :=
  opsOnly_trans demandAll_opsOnly freshBoost_opsOnly

theorem powStat_notOp : notOp Reg.POW_STAT.key := fun q hq => by
  simp only [Reg.POW_STAT, Reg.POW_OP]
  omega

theorem governorOn_gov : s.governorOn.flag Reg.POW_STAT Fld.POW_STAT_GOV = true := by
  rw [keepsRegs_flag governorOn_opsOnly.2.2 powStat_notOp]
  exact State.flag_setFlag_self (by decide) rfl

/-- A key outside the power block. -/
def notPower (k : Nat) : Prop := ¬(0x110000 ≤ k ∧ k < 0x120000)

theorem governorOn_keepsRegs : s.keepsRegs s.governorOn notPower := by
  refine keepsRegs_trans (keepsRegs_setFlag (r := Reg.POW_STAT) fun h => h ⟨by decide, by decide⟩)
    (keepsRegs_mono governorOn_opsOnly.2.2 fun k hk q hq he => hk ?_)
  rw [he]
  simp only [Reg.POW_OP]
  omega

end

/-! ## Where start-up stands (R551, R560) -/

section
variable {s : State} {k : Nat}

theorem setPhase_fld {r : RegRef} {f : Field} :
    (s.setPhase k).fld r f = (s.setFld Reg.CLK_START Fld.CLK_START_PHASE k).fld r f := State.fld_of_regs rfl

theorem setPhase_side : (s.setPhase k).side = s.side := by
  unfold State.setPhase
  dsimp only
  rw [State.setFld_side]

theorem setPhase_flag {r : RegRef} {f : Field} (h : r.key ≠ Reg.CLK_START.key) : (s.setPhase k).flag r f = s.flag r f := by
  rw [State.flag, setPhase_fld, State.fld_setFld_ne h]
  rfl

theorem phase_setPhase (hk : k < 16) : (s.setPhase k).phase = k := by
  rw [State.phase, setPhase_fld, State.fld_setFld_self (by decide)]
  exact Nat.mod_eq_of_lt hk

theorem phase_of_keepsRegs {t : State} {P : Nat → Prop} (h : s.keepsRegs t P) (hk : P Reg.CLK_START.key) : t.phase = s.phase := keepsRegs_fld h hk

theorem phase_governorOn : s.governorOn.phase = s.phase :=
  phase_of_keepsRegs governorOn_keepsRegs fun h => absurd h.1 (by decide)

theorem hostUp_of_phase (h : 9 ≤ s.phase) : s.hostUp = true := by
  simp [State.hostUp, h]

theorem pldm_frame {kind obj : Nat} : s.pldm kind obj = { s with side := (s.pldm kind obj).side } := by
  unfold State.pldm
  dsimp only
  split <;> rfl

/-- An event is queued whatever the registers and the clock read. -/
theorem pldm_side_congr {t : State} {kind obj : Nat} (h : t.side = s.side) : (t.pldm kind obj).side = (s.pldm kind obj).side := by
  unfold State.pldm
  rw [h]
  dsimp only
  split <;> rfl

/-- READY: PHASE 15, the time it took, and the event (R555). -/
theorem becomeReady_eq : s.becomeReady =
    ((s.setFld Reg.CLK_START Fld.CLK_START_ELAPSED ((s.now - s.clk.firstAt) / 1000000)).setPhase 15).pldm 5 0 := rfl

theorem becomeReady_keeps {f : Field} : s.becomeReady.fld Reg.CLK_START f =
    ((s.setFld Reg.CLK_START Fld.CLK_START_ELAPSED ((s.now - s.clk.firstAt) / 1000000)).setPhase 15).fld Reg.CLK_START f := by
  rw [becomeReady_eq, State.pldm_fld_acc]

theorem becomeReady_ready : s.becomeReady.ready = true := by
  unfold State.ready
  rw [becomeReady_keeps, beq_iff_eq]
  exact phase_setPhase (by decide)

theorem becomeReady_elapsed (h : (s.now - s.clk.firstAt) / 1000000 < 2 ^ 32) :
    s.becomeReady.fld Reg.CLK_START Fld.CLK_START_ELAPSED = (s.now - s.clk.firstAt) / 1000000 := by
  rw [becomeReady_keeps, setPhase_fld, State.fld_setFld_of_disjoint (by decide), State.fld_setFld_self (by decide)]
  exact Nat.mod_eq_of_lt h

theorem becomeReady_noFab (h : s.flag Reg.CLK_START Fld.CLK_START_NOFAB = true) :
    s.becomeReady.flag Reg.CLK_START Fld.CLK_START_NOFAB = true := by
  have hfld : s.becomeReady.fld Reg.CLK_START Fld.CLK_START_NOFAB = s.fld Reg.CLK_START Fld.CLK_START_NOFAB := by
    rw [becomeReady_keeps, setPhase_fld, State.fld_setFld_of_disjoint (by decide), State.fld_setFld_of_disjoint (by decide)]
  rw [State.flag, hfld]
  exact h

theorem becomeReady_side : s.becomeReady.side = (s.pldm 5 0).side := by
  rw [becomeReady_eq]
  exact pldm_side_congr (by rw [setPhase_side, State.setFld_side])

end

/-! ## Processors released at the end of step 8 -/

section
variable {s : State}

theorem alive_setFlag {i j : Nat} : (s.setFlag (Reg.FWP_PROC j) Fld.FWP_PROC_ALIVE true).flag (Reg.FWP_PROC i) Fld.FWP_PROC_ALIVE =
    if i = j then true else s.flag (Reg.FWP_PROC i) Fld.FWP_PROC_ALIVE := by
  split
  · next h =>
    rw [h]
    exact State.flag_setFlag_self (by decide) rfl
  · next h =>
    have hkey : (Reg.FWP_PROC i).key ≠ (Reg.FWP_PROC j).key := by
      simp only [Reg.FWP_PROC]
      omega
    rw [State.flag, State.fld_setFlag_ne hkey]
    rfl

/-- A key at or above the firmware's, where the processors' registers lie. -/
def isFwp (k : Nat) : Prop := 0x140200 ≤ k ∧ k < 0x150000

theorem bootQuad_alive {q : Nat} (hq : q < 4) :
    (s.setFlag (Reg.FWP_PROC (4 + q)) Fld.FWP_PROC_ALIVE true).keepsRegs (s.bootQuad q) isFwp := by
  unfold State.bootQuad
  extract_lets s1 s2
  have h1 : (s.setFlag (Reg.FWP_PROC (4 + q)) Fld.FWP_PROC_ALIVE true).keepsRegs s1 isFwp :=
    keepsRegs_wrReg fun h => by simp only [isFwp, Reg.RNG_LOOP] at h; omega
  have h2 : s1.keepsRegs s2 isFwp := keepsRegs_setFld fun h => absurd h.1 (by decide)
  refine keepsRegs_trans (keepsRegs_trans h1 h2) (each_induction (P := fun t => s2.keepsRegs t isFwp) keepsRegs_refl fun t n hn ht => ?_)
  have hlt : n < 1024 := by
    obtain ⟨hmem, -⟩ := List.mem_filter.1 hn
    obtain ⟨k, hk, rfl⟩ := List.mem_map.1 hmem
    have := List.mem_range.1 hk
    omega
  refine keepsRegs_trans ht (keepsRegs_trans (keepsRegs_setFld fun h => ?_) (keepsRegs_setFld fun h => ?_))
  · simp only [isFwp, Reg.LAS_BIAS] at h; omega
  · simp only [isFwp, Reg.LAS_STAT] at h; omega

theorem isFwp_proc {i : Nat} (hi : i < 8) : isFwp (Reg.FWP_PROC i).key := by
  simp only [isFwp, Reg.FWP_PROC]
  omega

theorem flag_bootQuad {q i : Nat} (hq : q < 4) (hi : i < 8) : (s.bootQuad q).flag (Reg.FWP_PROC i) Fld.FWP_PROC_ALIVE =
    if i = 4 + q then true else s.flag (Reg.FWP_PROC i) Fld.FWP_PROC_ALIVE := by
  rw [keepsRegs_flag (bootQuad_alive hq) (isFwp_proc hi)]
  exact alive_setFlag

/-- The processors released, before the rest of what their release does. -/
def State.processorsUp (s : State) : State :=
  (s.each [0, 1, 2, 3] fun s i => s.setFlag (Reg.FWP_PROC i) Fld.FWP_PROC_ALIVE true).each [0, 1, 2, 3] fun s q => s.bootQuad q

theorem processorsUp_alive {i : Nat} (hi : i < 8) : s.processorsUp.flag (Reg.FWP_PROC i) Fld.FWP_PROC_ALIVE = true := by
  simp only [State.processorsUp, State.each, List.foldl_cons, List.foldl_nil]
  rw [flag_bootQuad (by decide) hi, flag_bootQuad (by decide) hi, flag_bootQuad (by decide) hi, flag_bootQuad (by decide) hi, alive_setFlag,
    alive_setFlag, alive_setFlag, alive_setFlag]
  have hcases : i = 0 ∨ i = 1 ∨ i = 2 ∨ i = 3 ∨ i = 4 ∨ i = 5 ∨ i = 6 ∨ i = 7 := by omega
  rcases hcases with rfl | rfl | rfl | rfl | rfl | rfl | rfl | rfl <;> rfl

theorem governorOff_fld {r : RegRef} {f : Field} : s.governorOff.fld r f = (s.setFlag Reg.POW_STAT Fld.POW_STAT_GOV false).fld r f :=
  State.fld_of_regs rfl

theorem clearKey_fld {p : Nat} {r : RegRef} {f : Field} : (s.clearKey p).fld r f = s.fld r f := rfl

theorem release_eq : s.release = ((s.processorsUp.setFlag Reg.SEC_STAT Fld.SEC_STAT_APPROVED true).clearKey 0).governorOff := rfl

/-- With step 8 every processor is ALIVE, the governor is not in force and the module is in the approved mode. -/
theorem release_flags : (∀ i, i < 8 → s.release.flag (Reg.FWP_PROC i) Fld.FWP_PROC_ALIVE = true) ∧
    s.release.flag Reg.POW_STAT Fld.POW_STAT_GOV = false ∧ s.release.flag Reg.SEC_STAT Fld.SEC_STAT_APPROVED = true := by
  have hother : ∀ r f, r.key ≠ Reg.POW_STAT.key → r.key ≠ Reg.SEC_STAT.key → s.release.flag r f = s.processorsUp.flag r f :=
    fun r f hpow hsec => by
      rw [State.flag, release_eq, governorOff_fld, State.fld_setFlag_ne hpow, clearKey_fld, State.fld_setFlag_ne hsec]
      rfl
  refine ⟨fun i hi => ?_, ?_, ?_⟩
  · rw [hother _ _ (by simp only [Reg.FWP_PROC, Reg.POW_STAT]; omega) (by simp only [Reg.FWP_PROC, Reg.SEC_STAT]; omega)]
    exact processorsUp_alive hi
  · rw [State.flag, release_eq, governorOff_fld, State.fld_setFlag_self (by decide) rfl]
    rfl
  · rw [State.flag, release_eq, governorOff_fld, State.fld_setFlag_ne (by decide), clearKey_fld, State.fld_setFlag_self (by decide) rfl]
    rfl

end

/-! ## Everything cleared (R549) -/

section
variable {s : State} {cold : Bool}

/-- Keys of no SPARES and UNAVAIL count. -/
def notQflt (k : Nat) : Prop := ∀ q, q < 4 → k ≠ (Reg.TILE_QFLT q).key

theorem countMaps_regs : s.countMaps = { s with regs := s.countMaps.regs } ∧ s.keepsRegs s.countMaps notQflt := by
  unfold State.countMaps
  refine each_induction (P := fun t => t = { s with regs := t.regs } ∧ s.keepsRegs t notQflt) ⟨rfl, keepsRegs_refl⟩ fun t q hq ht => ?_
  obtain ⟨hframe, hregs⟩ := ht
  extract_lets spares gone
  have hkey : ¬notQflt (Reg.TILE_QFLT q).key := fun h => h q (List.mem_range.1 hq) rfl
  refine ⟨?_, keepsRegs_trans hregs (keepsRegs_trans (keepsRegs_setFld hkey) (keepsRegs_setFld hkey))⟩
  generalize hu : (t.setFld (Reg.TILE_QFLT q) Fld.TILE_QFLT_SPARES spares).setFld (Reg.TILE_QFLT q) Fld.TILE_QFLT_UNAVAIL gone = u
  have hset : u = { t with regs := u.regs } := hu ▸ rfl
  exact hset.trans (by rw [hframe])

/-- Registers after a clearing, before the counts from the maps: the maps, and, but for a cold one, those of the housekeeping converters. -/
def State.keptRegs (s : State) (cold : Bool) : Tbl Word64 :=
  if cold then s.flash.mapRec.getD [] else s.flash.mapRec.getD [] ++ s.regs.filter fun e => hkcKey e.1

/-- What a clearing leaves, before the counts from the maps and LAST_TRIP. -/
def State.wiped (s : State) (cold : Bool) : State :=
  { State.reset with
    pending := s.pending, now := s.now, free := s.free, hostMem := s.hostMem, out := s.out, flash := s.flash
    regs := s.keptRegs cold
    fabric := { sent := s.fabric.sent }
    power := { tripCause := s.power.tripCause }
    therm := { tripped := s.therm.tripped, lastTrip := s.therm.lastTrip, tripMax := s.therm.tripMax, offAt := s.therm.offAt }
    clk := { count := s.clk.count, perstLow := s.clk.perstLow }
    sec := { nextKey := s.sec.nextKey, devKey := s.sec.devKey }
    pcie := { s.pcie with vfEnable := false, numVfs := 0, msixOn := [], funcMask := [], unmasked := [], pendingBits := [] }
    hkc := if cold then {} else s.hkc
    side := if cold then {} else s.side
    faultLog := s.flash.flog.getD {} }

theorem cleared_eq : s.cleared cold =
    if s.flash.flogBad then
      ((s.wiped cold).countMaps.setFld Reg.THM_STAT Fld.THM_STAT_LAST_TRIP s.therm.lastTrip).fault 0x0703 0 0 0 []
    else (s.wiped cold).countMaps.setFld Reg.THM_STAT Fld.THM_STAT_LAST_TRIP s.therm.lastTrip := rfl

theorem cleared_regs : (s.cleared cold).regs =
    ((s.wiped cold).countMaps.setFld Reg.THM_STAT Fld.THM_STAT_LAST_TRIP s.therm.lastTrip).regs := by
  rw [cleared_eq]
  split
  · rw [State.fault_regs]
  · rfl

/-- A clearing leaves `wiped`, but for the counts from the maps, LAST_TRIP and a log entry where the log in flash cannot be read. -/
theorem cleared_frame : s.cleared cold =
    { s.wiped cold with regs := (s.cleared cold).regs, faultLog := (s.cleared cold).faultLog } ∧
      (s.flash.flogBad = false → (s.cleared cold).faultLog = s.flash.flog.getD {}) := by
  have hcount : (s.wiped cold).countMaps.setFld Reg.THM_STAT Fld.THM_STAT_LAST_TRIP s.therm.lastTrip = { s.wiped cold with
      regs := ((s.wiped cold).countMaps.setFld Reg.THM_STAT Fld.THM_STAT_LAST_TRIP s.therm.lastTrip).regs } := by
    obtain ⟨hframe, -⟩ := countMaps_regs (s := s.wiped cold)
    rw [hframe]
    rfl
  rw [cleared_eq]
  generalize (s.wiped cold).countMaps.setFld Reg.THM_STAT Fld.THM_STAT_LAST_TRIP s.therm.lastTrip = u at hcount
  cases s.flash.flogBad
  · rw [if_neg (by decide)]
    refine ⟨?_, fun _ => ?_⟩
    · rw [hcount]
    · rw [hcount]
      rfl
  · rw [if_pos rfl]
    refine ⟨?_, fun h => absurd h (by decide)⟩
    rw [fault_frame, hcount]

/-- The registers after a clearing. -/
theorem cleared_keepsRegs : (s.wiped cold).keepsRegs (s.cleared cold) fun k => notQflt k ∧ k ≠ Reg.THM_STAT.key := by
  refine keepsRegs_trans ?_ (keepsRegs_of_regs cleared_regs)
  exact keepsRegs_trans (keepsRegs_mono countMaps_regs.2 fun k hk => hk.1) (keepsRegs_setFld fun h => h.2 rfl)

theorem startAt_eq {k : Nat} : s.startAt k =
    { s.setFld Reg.CLK_START Fld.CLK_START_PHASE k with clk := { s.clk with firstAt := s.now, count := s.clk.count + 1, stepAt := s.now } } := rfl

/-- A step k that begins start-up anew. -/
theorem startAt_phase {k : Nat} (hk : k < 16) : (s.startAt k).phase = k := by
  rw [State.startAt, phase_setPhase hk]

end

/-! ## Time -/

section
variable {s : State} {n : Nat}

@[simp] theorem tick_phase : (s.tick n).phase = s.phase := by
  unfold State.tick
  split <;> rfl

@[simp] theorem tick_clk : (s.tick n).clk = s.clk := by
  unfold State.tick
  split <;> rfl

theorem tick_frame : s.tick n = { s with now := (s.tick n).now, time := (s.tick n).time } := by
  unfold State.tick
  split <;> rfl

theorem tick_fld {r : RegRef} {f : Field} : (s.tick n).fld r f = s.fld r f := by
  rw [tick_frame]
  rfl

theorem tick_flag {r : RegRef} {f : Field} : (s.tick n).flag r f = s.flag r f := by
  rw [tick_frame]
  rfl

end

/-! ## The reference (R542) -/

section
variable {s : State}

/-- The PLLs in holdover, and the loss counted. -/
def State.heldOver (s : State) : State :=
  ((s.setFlag Reg.CLK_STAT Fld.CLK_STAT_HOLDOVER true).setFlag Reg.CLK_STAT Fld.CLK_STAT_REF_OK false).bump Reg.CLK_STAT Fld.CLK_STAT_REF_LOSS

theorem heldOver_frame : s.heldOver = { s with regs := s.heldOver.regs } := by
  unfold State.heldOver
  rw [State.bump, bumpBy_eq]
  rfl

theorem heldOver_flds : s.heldOver.flag Reg.CLK_STAT Fld.CLK_STAT_HOLDOVER = true ∧ s.heldOver.flag Reg.CLK_STAT Fld.CLK_STAT_REF_OK = false ∧
    s.heldOver.fld Reg.CLK_STAT Fld.CLK_STAT_REF_LOSS =
      min (s.fld Reg.CLK_STAT Fld.CLK_STAT_REF_LOSS + 1) (2 ^ Fld.CLK_STAT_REF_LOSS.w - 1) := by
  have hkept : ∀ f, f.lo + f.w ≤ Fld.CLK_STAT_REF_LOSS.lo ∨ Fld.CLK_STAT_REF_LOSS.lo + Fld.CLK_STAT_REF_LOSS.w ≤ f.lo →
      s.heldOver.fld Reg.CLK_STAT f =
        ((s.setFlag Reg.CLK_STAT Fld.CLK_STAT_HOLDOVER true).setFlag Reg.CLK_STAT Fld.CLK_STAT_REF_OK false).fld Reg.CLK_STAT f :=
    fun f hf => fieldsBut_bump (l := [(Reg.CLK_STAT, Fld.CLK_STAT_REF_LOSS)]) (by simp) _ _ fun x hx _ => by
      obtain rfl := List.mem_singleton.1 hx
      exact ⟨rfl, hf⟩
  refine ⟨?_, ?_, ?_⟩
  · rw [State.flag, hkept _ (by decide), State.fld_setFlag_of_disjoint (by decide), State.fld_setFlag_self (by decide) rfl]
    rfl
  · rw [State.flag, hkept _ (by decide), State.fld_setFlag_self (by decide) rfl]
    rfl
  · unfold State.heldOver State.bump
    rw [fld_bumpBy (by decide) State.fld_lt, State.fld_setFlag_of_disjoint (by decide), State.fld_setFlag_of_disjoint (by decide)]

theorem heldOver_fields : s.fieldsBut s.heldOver
    [(Reg.CLK_STAT, Fld.CLK_STAT_HOLDOVER), (Reg.CLK_STAT, Fld.CLK_STAT_REF_OK), (Reg.CLK_STAT, Fld.CLK_STAT_REF_LOSS)] :=
  fieldsBut_trans (fieldsBut_trans (fieldsBut_setFlag (by simp)) (fieldsBut_setFlag (by simp))) (fieldsBut_bump (by simp))

theorem exec_referenceLoss (hrun : s.clk.running = true) (hhold : s.flag Reg.CLK_STAT Fld.CLK_STAT_HOLDOVER = false) :
    exec .referenceLoss s = .next (s.heldOver.pldm 4 0) := by
  show execReferenceLoss s = _
  rw [execReferenceLoss, hrun, hhold]
  rfl

end

/-! ## The commands -/

section
variable {s : State} {at_ k : Nat} {o : StartObs}

theorem exec_startUpStepEnd (hstop : s.clk.stopped = false) (hk : s.phase = k) (hlt : k < 15) :
    exec (.startUpStepEnd at_ o) s = .next ((s.tick at_).stepEnds o) := by
  show execStartUpStepEnd at_ o s = _
  unfold execStartUpStepEnd
  dsimp only
  rw [if_pos (by rw [tick_phase, hk]; exact hlt), tick_clk, hstop, if_neg (by decide)]

/-- The end of a step that nothing holds up begins the next. -/
theorem stepEnds_next (hk : s.phase = k) (hin : k = 2 ∨ k = 3 ∨ (5 ≤ k ∧ k ≤ 7) ∨ (9 ≤ k ∧ k ≤ 12)) :
    (s.stepEnds o).phase = k + 1 ∧ (k = 3 → (s.stepEnds o).flag Reg.POW_STAT Fld.POW_STAT_GOV = true) := by
  have hcases : k = 2 ∨ k = 3 ∨ k = 5 ∨ k = 6 ∨ k = 7 ∨ k = 9 ∨ k = 10 ∨ k = 11 ∨ k = 12 := by omega
  unfold State.stepEnds
  rw [hk]
  rcases hcases with rfl | rfl | rfl | rfl | rfl | rfl | rfl | rfl | rfl
  case inr.inl => exact ⟨phase_governorOn.trans (phase_setPhase (by decide)), fun _ => governorOn_gov⟩
  all_goals exact ⟨phase_setPhase (by decide), fun h => absurd h (by decide)⟩

/-- Step 4 ends with PERST# released and a valid reference: module time starts from 0 (R544, R574). -/
theorem stepEnds_four (hk : s.phase = 4) :
    (s.clk.perstLow = false → o.refOk = true → (s.stepEnds o).phase = 5 ∧ (s.stepEnds o).time = 0 ∧ (s.stepEnds o).clk.running = true ∧
      (s.stepEnds o).flag Reg.CLK_STAT Fld.CLK_STAT_REF_OK = true) ∧
    (s.clk.perstLow = true ∨ o.refOk = false → (s.stepEnds o).phase = 4) := by
  refine ⟨fun hlow href => ?_, fun h => ?_⟩
  · have hstep : s.stepEnds o = ((({ s with time := 0, clk := { s.clk with running := true } } : State).setFlag Reg.CLK_STAT
        Fld.CLK_STAT_REF_OK true).setFld Reg.CLK_STAT Fld.CLK_STAT_PLL_LOCK 16).setPhase 5 := by
      simp only [State.stepEnds, hk, hlow, href, Bool.not_true, Bool.false_eq_true, if_false]
    rw [hstep]
    refine ⟨phase_setPhase (by decide), rfl, rfl, ?_⟩
    rw [setPhase_flag (by decide), State.flag, State.fld_setFld_of_disjoint (by decide)]
    exact State.flag_setFlag_self (by decide) rfl
  · by_cases hlow : s.clk.perstLow = true
    · simp only [State.stepEnds, hk, hlow, if_true]
    · have hstep : s.stepEnds o = s.setPhase 4 := by
        simp only [State.stepEnds, hk, hlow, h.resolve_left hlow, Bool.not_false, Bool.false_eq_true, if_false, if_true]
      rw [hstep]
      exact phase_setPhase (by decide)

/-- Step 8 ends with the processors released, or stops in recovery (R473, R480). -/
theorem stepEnds_eight (hk : s.phase = 8) :
    (s.flag Reg.FWP_BOOT Fld.FWP_BOOT_RECOVERY = false → s.stepEnds o = s.release.setPhase 9) ∧
    (s.flag Reg.FWP_BOOT Fld.FWP_BOOT_RECOVERY = true → s.stepEnds o = { s with clk := { s.clk with stopped := true } }) := by
  unfold State.stepEnds
  rw [hk]
  dsimp only
  exact ⟨fun h => if_neg (by rw [h]; decide), fun h => if_pos h⟩

/-- Step 13 ends with the ports, or, without coordinates, with READY (R555). -/
theorem stepEnds_thirteen (hk : s.phase = 13) :
    (s.flag Reg.LNK_COORD Fld.LNK_COORD_VALID = true → s.stepEnds o = (s.joinPorts o).setPhase 14) ∧
    (s.flag Reg.LNK_COORD Fld.LNK_COORD_VALID = false → s.stepEnds o = (s.setFlag Reg.CLK_START Fld.CLK_START_NOFAB true).becomeReady) := by
  unfold State.stepEnds
  rw [hk]
  dsimp only
  exact ⟨fun h => if_pos h, fun h => if_neg (by rw [h]; decide)⟩

theorem stepEnds_fourteen (hk : s.phase = 14) : s.stepEnds o = s.becomeReady := by
  simp only [State.stepEnds, hk]

/-- POWER_ON of a module that is off and has not tripped. -/
theorem exec_powerOn (h0 : s.phase = 0) (htherm : s.therm.tripped = false) (hpower : s.power.tripCause = none) :
    exec (.powerOn at_) s = .next { ((s.tick at_).cleared true).startAt 2 with
      hkc := { (((s.tick at_).cleared true).startAt 2).hkc with refAt := (((s.tick at_).cleared true).startAt 2).now } } := by
  have hcool : ((s.tick at_).therm.tripped || (s.tick at_).power.tripCause.isSome) = false := by
    rw [tick_frame]
    simp [htherm, hpower]
  show execPowerOn at_ s = _
  unfold execPowerOn
  dsimp only
  rw [hcool, tick_phase, if_neg (by simp [h0])]

end

end Sys2Proof.Machine

namespace Sys2Proof
open Machine

/-- Settles O19: the reference's holdover, and each start-up step with what its end begins (log entries 64 and 65: PHASE stays 8 in recovery,
POWER_ON ends step 1, and the governor holds from the end of step 3 to that of step 8). -/
theorem startUpFollowsItsStepsAndReference : Obligations.StartUpFollowsItsStepsAndReference := by
  unfold Obligations.StartUpFollowsItsStepsAndReference
  refine ⟨fun s ns => ⟨fun hrun hhold => ?_, fun hhold hns => ?_, fun hns => ?_⟩, fun s at_ o => ⟨fun h0 htherm hpower => ?_, fun hstop =>
    ⟨fun k hk hin => ?_, fun hk => ⟨fun hlow href => ?_, fun h => ?_⟩, fun hk => ⟨fun hok => ?_, fun hrec => ?_⟩,
      fun hk => ⟨fun hvalid => ?_, fun hvalid => ?_⟩, fun hk => ?_⟩⟩⟩
  · obtain ⟨hholdover, href, hloss⟩ := heldOver_flds (s := s)
    have hfields := heldOver_fields (s := s)
    have hframe := heldOver_frame (s := s)
    refine ⟨_, exec_referenceLoss hrun hhold, ?_, ?_, State.pldm_fld_acc.trans hloss, ?_, ?_, fieldsBut_trans hfields ?_⟩
    · rw [State.pldm_flag_acc, hholdover]
    · rw [State.pldm_flag_acc, href]
    · exact pldm_side_congr (by rw [hframe])
    · generalize s.heldOver = u at hframe ⊢
      rw [pldm_frame, hframe]
    · exact fieldsBut_of_regs State.pldm_regs
  · have hexec : exec (.referenceRestored ns) s =
        .next ((s.setFlag Reg.CLK_STAT Fld.CLK_STAT_HOLDOVER false).setFlag Reg.CLK_STAT Fld.CLK_STAT_REF_OK true) := by
      show execReferenceRestored ns s = _
      rw [execReferenceRestored, if_pos (by simp [hhold, hns])]
    refine ⟨_, hexec, ?_, State.flag_setFlag_self (by decide) rfl, rfl,
      fieldsBut_trans (fieldsBut_setFlag (by simp)) (fieldsBut_setFlag (by simp))⟩
    rw [State.flag, State.fld_setFlag_of_disjoint (by decide), State.fld_setFlag_self (by decide) rfl]
    rfl
  · show execReferenceRestored ns s = _
    rw [execReferenceRestored, if_neg (by simp [hns])]
  · obtain ⟨hwiped, -⟩ := cleared_frame (s := s.tick at_) (cold := true)
    have hnow : (s.tick at_).now = max s.now at_ := State.tick_now
    refine ⟨_, exec_powerOn h0 htherm hpower, ?_, ?_, ?_, ?_, ?_, ?_⟩
    · exact startAt_phase (by decide)
    all_goals
      generalize (s.tick at_).cleared true = u at hwiped ⊢
    · show u.clk.count + 1 = _
      rw [hwiped]
      show (s.tick at_).clk.count + 1 = _
      rw [tick_clk]
    · show u.now = _
      rw [hwiped]
      exact hnow
    · show u.mem = _
      rw [hwiped]
      rfl
    · show u.ctxs = _
      rw [hwiped]
      rfl
    · show u.flash = _
      rw [hwiped]
      show (s.tick at_).flash = _
      rw [tick_frame]
  · obtain ⟨hphase, hgov⟩ := stepEnds_next (o := o) (tick_phase.trans hk) hin
    exact ⟨_, exec_startUpStepEnd hstop hk (by omega), hphase, hgov⟩
  · exact ⟨_, exec_startUpStepEnd hstop hk (by decide), (stepEnds_four (tick_phase.trans hk)).1 (by rw [tick_clk]; exact hlow) href⟩
  · exact ⟨_, exec_startUpStepEnd hstop hk (by decide), (stepEnds_four (tick_phase.trans hk)).2 (by rw [tick_clk]; exact h)⟩
  · obtain ⟨halive, hgov, happ⟩ := release_flags (s := s.tick at_)
    have hphase : ((s.tick at_).release.setPhase 9).phase = 9 := phase_setPhase (by decide)
    refine ⟨_, (exec_startUpStepEnd hstop hk (by decide)).trans
      (congrArg Host.Outcome.next ((stepEnds_eight (tick_phase.trans hk)).1 (tick_flag.trans hok))), hphase, fun i hi => ?_, ?_, ?_,
      hostUp_of_phase (Nat.le_of_eq hphase.symm)⟩
    · rw [setPhase_flag (by simp only [Reg.FWP_PROC, Reg.CLK_START]; omega)]
      exact halive i hi
    · rw [setPhase_flag (by decide)]
      exact hgov
    · rw [setPhase_flag (by decide)]
      exact happ
  · refine ⟨_, (exec_startUpStepEnd hstop hk (by decide)).trans
      (congrArg Host.Outcome.next ((stepEnds_eight (tick_phase.trans hk)).2 (tick_flag.trans hrec))), tick_phase.trans hk, rfl, ?_⟩
    simp [State.hostUp]
  · exact ⟨_, (exec_startUpStepEnd hstop hk (by decide)).trans
      (congrArg Host.Outcome.next ((stepEnds_thirteen (tick_phase.trans hk)).1 (tick_flag.trans hvalid))), phase_setPhase (by decide)⟩
  · exact ⟨_, (exec_startUpStepEnd hstop hk (by decide)).trans
      (congrArg Host.Outcome.next ((stepEnds_thirteen (tick_phase.trans hk)).2 (tick_flag.trans hvalid))), becomeReady_ready,
      becomeReady_noFab (State.flag_setFlag_self (by decide) rfl)⟩
  · refine ⟨_, (exec_startUpStepEnd hstop hk (by decide)).trans (congrArg Host.Outcome.next (stepEnds_fourteen (tick_phase.trans hk))),
      becomeReady_ready, ?_, fun hlt => ?_⟩
    · rw [becomeReady_side]
      exact pldm_side_congr (by rw [tick_frame])
    · have hnow : (s.tick at_).now = max s.now at_ := State.tick_now
      have hfirst : (s.tick at_).clk.firstAt = s.clk.firstAt := by rw [tick_clk]
      rw [← hnow, ← hfirst] at hlt ⊢
      exact becomeReady_elapsed hlt

end Sys2Proof
end

section
/-! PROOFS. The fetch of a packet, the checks of its header and its reply (R286 to R292, R296, R297, R299, R311, R535). -/

namespace Sys2Proof.Machine

/-! ## A list of checks and its first failure -/

theorem firstFail_cons_pass {l : List Chk} : firstFail (.pass :: l) = firstFail l := rfl

theorem firstFail_cons_of_ne {c : Chk} {l : List Chk} (h : c ≠ .pass) : firstFail (c :: l) = c := by
  cases c with
  | pass => exact absurd rfl h
  | bad _ => rfl
  | viol _ _ _ => rfl
  | fault _ => rfl
  | status _ _ => rfl

/-- A check that holds lets the next ones decide. -/
theorem firstFail_if_pos {P : Prop} [Decidable P] {c : Chk} {l : List Chk} (h : P) : firstFail ((if P then .pass else c) :: l) = firstFail l := by
  rw [if_pos h, firstFail_cons_pass]

/-- A check that fails is the answer. -/
theorem firstFail_if_neg {P : Prop} [Decidable P] {c : Chk} {l : List Chk} (h : ¬P) (hc : c ≠ .pass) :
    firstFail ((if P then .pass else c) :: l) = c := by
  rw [if_neg h, firstFail_cons_of_ne hc]

/-! ## The header (R291) -/

section
variable {s : State} {h : Hdr} {op : Nat} {cls lenOk pf0Ok : Bool}

theorem headerChk_of_part_ne (hpart : h.part.toNat % 64 ≠ h.fn) : s.headerChk h op cls lenOk pf0Ok = .viol (h.part.toNat % 64) false true :=
  firstFail_if_neg hpart (by simp)

/-- The form of the header: opcode, CLASS and ring, reserved bits and LENGTH. -/
def headerForm (h : Hdr) (op : Nat) (cls : Bool) : Prop :=
  assignedOpcodes.contains op = true ∧ ((h.cls.toNat % 2 == 1) = cls ∧ (h.ring == 0) = cls) ∧
    (h.cls.toNat < 2 ∧ h.part.toNat < 64 ∧ h.flags.toNat < 4 ∧ h.rsv = 0 ∧ h.length.toNat ≤ 240 ∧ h.length.toNat % 8 = 0)

theorem classFits_iff : ((h.cls.toNat % 2 == 1) == cls && (h.ring == 0) == cls) = true ↔
    (h.cls.toNat % 2 == 1) = cls ∧ (h.ring == 0) = cls := by
  simp

theorem reservedFits_iff : (h.cls.toNat / 2 = 0 && h.part.toNat / 64 = 0 && h.flags.toNat / 4 = 0 && h.rsv = 0 &&
      h.length.toNat ≤ 240 && h.length.toNat % 8 = 0) = true ↔
    h.cls.toNat < 2 ∧ h.part.toNat < 64 ∧ h.flags.toNat < 4 ∧ h.rsv = 0 ∧ h.length.toNat ≤ 240 ∧ h.length.toNat % 8 = 0 := by
  simp only [Bool.and_eq_true, decide_eq_true_eq]
  constructor
  · rintro ⟨⟨⟨⟨⟨h1, h2⟩, h3⟩, h4⟩, h5⟩, h6⟩
    exact ⟨by omega, by omega, by omega, h4, h5, h6⟩
  · rintro ⟨h1, h2, h3, h4, h5, h6⟩
    exact ⟨⟨⟨⟨⟨by omega, by omega⟩, by omega⟩, h4⟩, h5⟩, h6⟩

theorem headerChk_of_not_form (hpart : h.part.toNat % 64 = h.fn) (hform : ¬headerForm h op cls) :
    s.headerChk h op cls lenOk pf0Ok = .bad 0 := by
  unfold State.headerChk
  rw [firstFail_if_pos hpart]
  by_cases hop : assignedOpcodes.contains op = true
  · rw [firstFail_if_pos hop]
    by_cases hcls : (h.cls.toNat % 2 == 1) = cls ∧ (h.ring == 0) = cls
    · rw [firstFail_if_pos (classFits_iff.2 hcls)]
      exact firstFail_if_neg (fun hres => hform ⟨hop, hcls, reservedFits_iff.1 hres⟩) (by simp)
    · exact firstFail_if_neg (fun hc => hcls (classFits_iff.1 hc)) (by simp)
  · exact firstFail_if_neg hop (by simp)

/-- The checks after those of the header's form: SEQ, LENGTH, and the opcodes reserved to partition 0. -/
theorem headerChk_of_form (hpart : h.part.toNat % 64 = h.fn) (hform : headerForm h op cls) :
    s.headerChk h op cls lenOk pf0Ok =
      if h.seq.toNat = s.fld (Reg.SCH_RING_STAT h.fn h.ring) Fld.SCH_RING_STAT_EXP_SEQ then
        if lenOk then if pf0Ok then .pass else .viol op false true
        else .bad 0
      else .bad (s.fld (Reg.SCH_RING_STAT h.fn h.ring) Fld.SCH_RING_STAT_EXP_SEQ) := by
  obtain ⟨hop, hcls, hres⟩ := hform
  unfold State.headerChk
  rw [firstFail_if_pos hpart, firstFail_if_pos hop, firstFail_if_pos (classFits_iff.2 hcls), firstFail_if_pos (reservedFits_iff.2 hres)]
  by_cases hseq : h.seq.toNat = s.fld (Reg.SCH_RING_STAT h.fn h.ring) Fld.SCH_RING_STAT_EXP_SEQ
  · rw [firstFail_if_pos hseq, if_pos hseq]
    cases lenOk <;> cases pf0Ok <;> rfl
  · rw [firstFail_if_neg hseq (by simp), if_neg hseq]

end

/-! ## The fetch (R286, R287, R296, R297) -/

section
variable {s : State} {h : Hdr}

theorem fetching_of_not {f : State → State} (hf : s.fetchable h = false) : s.fetching h f = s := by
  rw [State.fetching, hf]
  rfl

theorem fetching_of_fetchable {f : State → State} (hf : s.fetchable h = true) (hbad : s.badSlot h = none) : s.fetching h f = f s := by
  rw [State.fetching, if_pos hf, hbad]

/-- A D-class instruction is a D-class packet of its header, opcode and length (R300). -/
theorem exec_of_dForm {c : Instr} {op len : Nat} (hc : dForm c = some (h, op, len)) :
    ∃ act : State → State, ∀ s, exec c s = .next (s.dPacket h op len act) := by
  unfold dForm at hc
  split at hc
  case h_12 => exact absurd hc (by simp)
  all_goals
    obtain ⟨rfl, rfl, rfl⟩ := hc
    exact ⟨_, fun _ => rfl⟩

/-- A C-class instruction is a C-class packet (R303, R306). -/
theorem exec_of_cForm {c : Instr} {p : CPacket} (hc : cForm c = some (h, p)) : ∀ s, exec c s = .next (s.cPacket h p) := by
  unfold cForm at hc
  split at hc
  case h_34 => exact absurd hc (by simp)
  all_goals
    obtain ⟨rfl, rfl⟩ := hc
    exact fun _ => rfl

theorem dPacket_of_not_fetchable {op len : Nat} {act : State → State} (hf : s.fetchable h = false) : s.dPacket h op len act = s :=
  fetching_of_not hf

theorem cPacket_of_not_fetchable {p : CPacket} (hf : s.fetchable h = false) : s.cPacket h p = s := by
  unfold State.cPacket
  rw [fetching_of_not hf, ite_self]

/-- A D-class packet whose header fails a check is answered with that check, and nothing else happens. -/
theorem dPacket_of_fail {op len : Nat} {act : State → State} (hf : s.fetchable h = true) (hbad : s.badSlot h = none)
    (hk : s.headerChk h op false (h.length.toNat == len) true ≠ .pass) : s.dPacket h op len act =
      (s.takePacket h).fail h op (s.headerChk h op false (h.length.toNat == len) true) := by
  rw [State.dPacket, fetching_of_fetchable hf hbad]
  cases hc : s.headerChk h op false (h.length.toNat == len) true with
  | pass => exact absurd hc hk
  | _ => rfl

theorem dPacket_of_zeroing {op len : Nat} {act : State → State} (hf : s.fetchable h = true) (hbad : s.badSlot h = none)
    (hk : s.headerChk h op false (h.length.toNat == len) true = .pass) (hfn : h.fn ≠ 0) (hz : s.sec.zeroing = true) :
    s.dPacket h op len act = (s.takePacket h).reply h op stDeferred 0 0 := by
  rw [State.dPacket, fetching_of_fetchable hf hbad, hk]
  simp [hfn, hz]

/-- A D-class packet that is taken acts on the state after its fetch. -/
theorem dPacket_of_takesD {op len : Nat} {act : State → State} (ht : s.takesD h op len) : s.dPacket h op len act = act (s.takePacket h) := by
  obtain ⟨⟨hf, hbad, hk⟩, hz⟩ := ht
  have hno : (h.fn ≠ 0 && s.sec.zeroing) = false := by
    rcases hz with h0 | hz
    · simp [h0]
    · simp [hz]
  rw [State.dPacket, fetching_of_fetchable hf hbad, hk]
  dsimp only
  rw [hno, if_neg (by decide)]

theorem cPacket_of_fail {p : CPacket} (hf : s.fetchable h = true) (hbad : s.badSlot h = none) (hover : s.passedOver p = false)
    (hk : s.headerChk h p.opcode true (p.lenOk h.length.toNat) (!p.pf0 || h.fn == 0) ≠ .pass) :
    s.cPacket h p = (s.takePacket h).fail h p.opcode (s.headerChk h p.opcode true (p.lenOk h.length.toNat) (!p.pf0 || h.fn == 0)) := by
  rw [State.cPacket, hover, if_neg (by decide), fetching_of_fetchable hf hbad]
  cases hc : s.headerChk h p.opcode true (p.lenOk h.length.toNat) (!p.pf0 || h.fn == 0) with
  | pass => exact absurd hc hk
  | _ => rfl

/-- The registers of a fetch: SQ_HEAD past the packet's slots, and the next SEQ expected. -/
def State.fetchedRegs (s : State) (h : Hdr) (head : Nat) : State :=
  (s.setFld (Reg.SCH_RING_IDX h.fn h.ring) Fld.SCH_RING_IDX_SQ_HEAD head).setFld
    (Reg.SCH_RING_STAT h.fn h.ring) Fld.SCH_RING_STAT_EXP_SEQ (h.seq.toNat + 1)

/-- SQ_HEAD after a fetch. -/
def State.headAfter (s : State) (h : Hdr) : Nat :=
  s.fld (Reg.SCH_RING_IDX h.fn h.ring) Fld.SCH_RING_IDX_SQ_HEAD + slotsOf h.length.toNat

theorem takePacket_eq : s.takePacket h = ((s.passRing h).fetchedRegs h (s.headAfter h)).setPair h.fn h.ring
    { s.pair h.fn h.ring with open_ := (s.pair h.fn h.ring).open_ ++ [h.seq.toNat] } := rfl

theorem setPair_regs {f r : Nat} {x : Pair} : (s.setPair f r x).regs = s.regs := rfl

theorem takePacket_regs : (s.takePacket h).regs = ((s.passRing h).fetchedRegs h (s.headAfter h)).regs := by
  rw [takePacket_eq, setPair_regs]

theorem passRing_fields {l : List (RegRef × Field)} : s.fieldsBut (s.passRing h) l := fieldsBut_of_regs rfl

/-- Operations that change registers alone, one after the other. -/
theorem regs_frame_trans {s t u : State} (ht : t = { s with regs := t.regs }) (hu : u = { t with regs := u.regs }) :
    u = { s with regs := u.regs } := hu.trans (by rw [ht])

theorem setFld_frame {r : RegRef} {f : Field} {x : Nat} : s.setFld r f x = { s with regs := (s.setFld r f x).regs } := rfl

theorem fetchedRegs_frame {head : Nat} : s.fetchedRegs h head = { s with regs := (s.fetchedRegs h head).regs } :=
  regs_frame_trans setFld_frame setFld_frame

theorem ringIdx_ne_ringStat {f r : Nat} : (Reg.SCH_RING_IDX f r).key ≠ (Reg.SCH_RING_STAT f r).key := by
  simp only [Reg.SCH_RING_IDX, Reg.SCH_RING_STAT]
  omega

theorem fetchedRegs_fields {head : Nat} : s.fieldsBut (s.fetchedRegs h head)
    [(Reg.SCH_RING_IDX h.fn h.ring, Fld.SCH_RING_IDX_SQ_HEAD), (Reg.SCH_RING_STAT h.fn h.ring, Fld.SCH_RING_STAT_EXP_SEQ)] :=
  fieldsBut_trans (fieldsBut_setFld (by simp)) (fieldsBut_setFld (by simp))

/-- What the fetch of a packet changes. -/
theorem takePacket_fetches :
    (s.takePacket h).fld (Reg.SCH_RING_IDX h.fn h.ring) Fld.SCH_RING_IDX_SQ_HEAD =
        (s.fld (Reg.SCH_RING_IDX h.fn h.ring) Fld.SCH_RING_IDX_SQ_HEAD + slotsOf h.length.toNat) % 2 ^ 32 ∧
      (s.takePacket h).fld (Reg.SCH_RING_STAT h.fn h.ring) Fld.SCH_RING_STAT_EXP_SEQ = (h.seq.toNat + 1) % 2 ^ 32 ∧
      s.takePacket h = { s with
        regs := (s.takePacket h).regs, pairs := (s.takePacket h).pairs,
        sched := if h.ring = 0 then { s.sched with cPtr := (h.fn + 1) % 64 }
          else { s.sched with dPtr := (16 * h.fn + h.ring) % 1024 } } ∧
      (s.takePacket h).pair h.fn h.ring = { s.pair h.fn h.ring with open_ := (s.pair h.fn h.ring).open_ ++ [h.seq.toNat] } ∧
      s.fieldsBut (s.takePacket h) [(Reg.SCH_RING_IDX h.fn h.ring, Fld.SCH_RING_IDX_SQ_HEAD),
        (Reg.SCH_RING_STAT h.fn h.ring, Fld.SCH_RING_STAT_EXP_SEQ)] := by
  refine ⟨?_, ?_, ?_, ?_, fieldsBut_trans (fieldsBut_trans passRing_fields fetchedRegs_fields) (fieldsBut_of_regs takePacket_regs)⟩
  · rw [State.fld_of_regs takePacket_regs, State.fetchedRegs, State.fld_setFld_ne ringIdx_ne_ringStat, State.fld_setFld_self (by decide)]
    rfl
  · rw [State.fld_of_regs takePacket_regs, State.fetchedRegs, State.fld_setFld_self (by decide)]
    rfl
  · have hsched : (s.takePacket h).sched = if h.ring = 0 then { s.sched with cPtr := (h.fn + 1) % 64 }
        else { s.sched with dPtr := (16 * h.fn + h.ring) % 1024 } := by
      show (s.passRing h).sched = _
      unfold State.passRing
      dsimp only
      split
      · rfl
      · next hr => rw [show 16 * h.fn + (h.ring - 1) + 1 = 16 * h.fn + h.ring by omega]
    rw [← hsched, takePacket_eq]
    have hregs := fetchedRegs_frame (s := s.passRing h) (h := h) (head := s.headAfter h)
    generalize (s.passRing h).fetchedRegs h (s.headAfter h) = u at hregs ⊢
    rw [hregs]
    rfl
  · exact State.pair_setPair_self

end

/-! ## Replies (R289, R292) -/

section
variable {s : State} {h : Hdr} {f r : Nat}

/-- The key of any register but a function's counts. -/
def notFnStat (f k : Nat) : Prop := k ≠ (Reg.SCH_FN_STAT f).key

theorem post_keepsRegs {o : Out} : s.keepsRegs (s.post f r o) (notFnStat f) := by
  rw [post_eq]
  split
  · exact keepsRegs_of_regs rfl
  · exact keepsRegs_bump fun hk => hk rfl

/-- The FENCEs of a function that complete change no register but the function's counts. -/
theorem fenceSweep_keepsRegs : s.keepsRegs (s.fenceSweep f) (notFnStat f) := by
  unfold State.fenceSweep
  refine each_induction (P := fun t => s.keepsRegs t (notFnStat f)) keepsRegs_refl fun t _ _ ht => ?_
  unfold State.fencePass
  refine each_induction (P := fun t => s.keepsRegs t (notFnStat f)) ht fun u k _ hu => keepsRegs_trans hu ?_
  dsimp only
  split
  · split
    · split
      · exact keepsRegs_of_regs rfl
      · split
        · exact keepsRegs_trans (keepsRegs_of_regs rfl) (keepsRegs_bump fun hk => hk rfl)
        · exact keepsRegs_trans (keepsRegs_of_regs rfl) post_keepsRegs
    · exact keepsRegs_refl
  · exact keepsRegs_refl

/-- The state with a reply's bad packet counted. -/
def State.badCounted (s : State) (h : Hdr) (status : Nat) : State :=
  if status = stBadPacket || status = stViolation then s.bump (Reg.SCH_RING_STAT h.fn h.ring) Fld.SCH_RING_STAT_BAD else s

theorem badCounted_of_bad {status : Nat} (hst : status = stBadPacket ∨ status = stViolation) :
    s.badCounted h status = s.bump (Reg.SCH_RING_STAT h.fn h.ring) Fld.SCH_RING_STAT_BAD := if_pos (by simpa using hst)

theorem badCounted_ok : s.badCounted h stOK = s := rfl

/-- The state with a packet no longer open. -/
def State.seqDone (s : State) (h : Hdr) : State :=
  s.setPair h.fn h.ring { s.pair h.fn h.ring with open_ := (s.pair h.fn h.ring).open_.erase h.seq.toNat }

theorem seqDone_regs : (s.seqDone h).regs = s.regs := rfl

theorem reply_eq {op status detail result : Nat} : s.reply h op status detail result =
    if status = stOK && bitOf h.flags.toNat 0 then ((s.badCounted h status).seqDone h).fenceSweep h.fn
    else if !((s.badCounted h status).pairOn h.fn h.ring) then
      (((s.badCounted h status).seqDone h).bump (Reg.SCH_FN_STAT h.fn) Fld.SCH_FN_STAT_DISCARD).fenceSweep h.fn
    else (s.badCounted h status).post h.fn h.ring { replyOut h op status detail result true 0 with since := 0 } := rfl

theorem badCounted_frame {status : Nat} : s.badCounted h status = { s with regs := (s.badCounted h status).regs } := by
  unfold State.badCounted
  split
  · rw [State.bump, bumpBy_eq]
  · rfl

theorem badCounted_pairOn {status : Nat} : (s.badCounted h status).pairOn h.fn h.ring = s.pairOn h.fn h.ring := by
  have hkey : (Reg.SCH_RING_CFG h.fn h.ring).key ≠ (Reg.SCH_RING_STAT h.fn h.ring).key := by
    simp only [Reg.SCH_RING_CFG, Reg.SCH_RING_STAT]
    omega
  unfold State.badCounted
  split
  · rw [State.pairOn, State.flag, State.bump, State.fld_bumpBy_ne hkey]
    rfl
  · rfl

theorem badCounted_pairs {status : Nat} : (s.badCounted h status).pairs = s.pairs := by
  rw [badCounted_frame]

theorem badCounted_pair {status k : Nat} : (s.badCounted h status).pair f k = s.pair f k := by
  unfold State.pair
  rw [badCounted_pairs]

/-- The BAD count of a reply's ring is no other part of the reply's. -/
theorem reply_bad {op status detail result : Nat} : (s.reply h op status detail result).fld (Reg.SCH_RING_STAT h.fn h.ring)
    Fld.SCH_RING_STAT_BAD = (s.badCounted h status).fld (Reg.SCH_RING_STAT h.fn h.ring) Fld.SCH_RING_STAT_BAD := by
  have hkey : notFnStat h.fn (Reg.SCH_RING_STAT h.fn h.ring).key := by
    simp only [notFnStat, Reg.SCH_RING_STAT, Reg.SCH_FN_STAT]
    omega
  refine keepsRegs_fld (P := notFnStat h.fn) ?_ hkey
  rw [reply_eq]
  generalize s.badCounted h status = u
  split
  · exact keepsRegs_trans (keepsRegs_of_regs seqDone_regs) fenceSweep_keepsRegs
  · split
    · exact keepsRegs_trans (keepsRegs_trans (keepsRegs_of_regs seqDone_regs) (keepsRegs_bump fun hk => hk rfl)) fenceSweep_keepsRegs
    · exact post_keepsRegs

/-- A packet no longer open leaves the FENCEs as they were. -/
theorem seqDone_fence {k : Nat} : ((s.seqDone h).pair h.fn k).fence = (s.pair h.fn k).fence := by
  by_cases hk : pairKey h.fn k = pairKey h.fn h.ring
  · unfold State.pair
    rw [hk]
    simp [State.seqDone, State.setPair, State.pair]
  · unfold State.pair State.seqDone State.setPair
    rw [tget_tset_ne hk]

end

end Sys2Proof.Machine

namespace Sys2Proof
open Machine

/-- Settles O21: a packet that cannot be fetched stays, and one that is fetched is answered by its first failing check. -/
theorem packetsWaitOrAreFetchedAndChecked : Obligations.PacketsWaitOrAreFetchedAndChecked := by
  unfold Obligations.PacketsWaitOrAreFetchedAndChecked
  refine ⟨fun c h s hc hf => ?_, fun s h hf hbad => ⟨takePacket_fetches, fun c op len hc => ⟨fun k hk hne => ?_, fun hk hfn hz => ?_⟩,
    fun c p hc hover k hk hne => ?_, fun op hop => ?_⟩⟩
  · rcases hc with ⟨op, len, hc⟩ | ⟨p, hc⟩ | ⟨op, rfl⟩
    · obtain ⟨act, hexec⟩ := exec_of_dForm hc
      rw [hexec, dPacket_of_not_fetchable hf]
    · rw [exec_of_cForm hc, cPacket_of_not_fetchable hf]
    · exact congrArg Host.Outcome.next (fetching_of_not hf)
  · obtain ⟨act, hexec⟩ := exec_of_dForm hc
    rw [hexec, dPacket_of_fail hf hbad (by rw [hk]; exact hne), hk]
  · obtain ⟨act, hexec⟩ := exec_of_dForm hc
    rw [hexec, dPacket_of_zeroing hf hbad hk hfn hz]
  · rw [exec_of_cForm hc, cPacket_of_fail hf hbad hover (by rw [hk]; exact hne), hk]
  · refine congrArg Host.Outcome.next ((fetching_of_fetchable hf hbad).trans ?_)
    by_cases hpart : h.part.toNat % 64 = h.fn
    · rw [headerChk_of_not_form hpart fun hform => absurd (hop.symm.trans hform.1) (by decide), if_pos hpart]
      rfl
    · have hsmall : h.part.toNat % 64 % 2 ^ 48 = h.part.toNat % 64 := Nat.mod_eq_of_lt (by omega)
      rw [headerChk_of_part_ne hpart, if_neg hpart, ← hsmall]
      simp only [State.fail, hsmall]

/-- Settles O22: the checks stand in one list, and the first that fails is the answer. -/
theorem headerChecksFollowTheirOrder : Obligations.HeaderChecksFollowTheirOrder := by
  unfold Obligations.HeaderChecksFollowTheirOrder
  intro s h op cls lenOk pf0Ok
  refine ⟨headerChk_of_part_ne, fun hpart => ⟨fun hbad => headerChk_of_not_form hpart fun hform => ?_,
    fun hop hcls hring hcls2 hpart2 hflags hrsv hlen hlen8 => ?_⟩⟩
  · obtain ⟨hop, ⟨hcls, hring⟩, hcls2, hpart2, hflags, hrsv, hlen, hlen8⟩ := hform
    rcases hbad with hb | hb | hb | hb | hb | hb | hb | hb | hb
    · exact absurd (hb.symm.trans hop) (by decide)
    · exact hb hcls
    · exact hb hring
    · omega
    · omega
    · omega
    · exact hb hrsv
    · omega
    · exact hb hlen8
  · rw [headerChk_of_form hpart ⟨hop, ⟨hcls, hring⟩, hcls2, hpart2, hflags, hrsv, hlen, hlen8⟩]
    exact ⟨fun hne => if_neg hne, fun heq => ⟨fun hl => by rw [if_pos heq, hl, if_neg (by decide)],
      fun hl hp => by rw [if_pos heq, if_pos hl, hp, if_neg (by decide)], fun hl hp => by rw [if_pos heq, if_pos hl, if_pos hp]⟩⟩

/-- Settles O23: a reply is suppressed, discarded or posted, and only the counts of its function and ring change beside the pairs. -/
theorem repliesEnterTheirRing : Obligations.RepliesEnterTheirRing := by
  unfold Obligations.RepliesEnterTheirRing
  intro s h op status detail result hr
  refine ⟨ringsOnly_reply (by omega), fun hon hloud => ?_, fun hbad => ?_, fun hfence hok hquiet => ?_, fun hfence hok hloud hoff => ?_⟩
  · have hreply : s.reply h op status detail result =
        (s.badCounted h status).setPair h.fn h.ring { s.pair h.fn h.ring with
          out := (s.pair h.fn h.ring).out ++ [replyOut h op status detail result true s.now] } := by
      have hnow : (s.badCounted h status).now = s.now := by rw [badCounted_frame]
      rw [reply_eq, if_neg (by simpa using hloud), badCounted_pairOn, hon, if_neg (by decide), post_eq, badCounted_pairOn, if_pos hon,
        badCounted_pair, hnow]
      rfl
    rw [hreply]
    refine ⟨?_, fun k hk => ?_⟩
    · rw [State.pair_setPair_self]
    · unfold State.setPair
      rw [tget_tset_ne hk, badCounted_pairs]
  · rw [reply_bad, badCounted_of_bad hbad, State.bump, fld_bumpBy (by decide) State.fld_lt]
  · subst hok
    have hnone : ∀ k, ((s.seqDone h).pair h.fn k).fence = none := fun k => seqDone_fence.trans (hfence k)
    rw [reply_eq, if_pos (by simp [hquiet]), badCounted_ok, fenceSweep_of_none hnone]
    exact ⟨State.pair_setPair_self, seqDone_regs⟩
  · subst hok
    have hpair : ∀ k, ((s.seqDone h).bump (Reg.SCH_FN_STAT h.fn) Fld.SCH_FN_STAT_DISCARD).pair h.fn k = (s.seqDone h).pair h.fn k :=
      fun k => State.bump_pair_acc
    have hnone : ∀ k, (((s.seqDone h).bump (Reg.SCH_FN_STAT h.fn) Fld.SCH_FN_STAT_DISCARD).pair h.fn k).fence = none := fun k => by
      rw [hpair, seqDone_fence, hfence]
    rw [reply_eq, if_neg (by simp [hloud]), badCounted_ok, hoff, if_pos (by decide), fenceSweep_of_none hnone]
    refine ⟨?_, ?_⟩
    · rw [hpair, State.seqDone, State.pair_setPair_self]
    · rw [State.bump, fld_bumpBy (by decide) State.fld_lt, State.fld_of_regs seqDone_regs]

end Sys2Proof
end


section
/-! PROOFS. C-class packets from their fetch to their processor (R303, R473, R476, R485, R554). -/

namespace Sys2Proof.Machine

variable {s : State} {h : Hdr} {p : CPacket}

/-- What the C-ring fetch does with a packet that passes the checks of R291. -/
theorem cPacket_of_takes (ht : s.takesPacket h p.opcode true (p.lenOk h.length.toNat) (!p.pf0 || h.fn == 0))
    (hover : s.passedOver p = false) :
    s.cPacket h p =
      if s.stageServes p = false then (s.takePacket h).reply h p.opcode stDeferred 0 0
      else if s.recovery = true ∨ s.alive p.proc = true then (s.served h p).serve h p
      else (s.takePacket h).setProcQueue p.proc (((s.takePacket h).proc p.proc).queue ++ [(h, p)]) := by
  obtain ⟨hf, hbad, hk⟩ := ht
  rw [State.cPacket, hover, if_neg (by decide), fetching_of_fetchable hf hbad, hk]
  simp only [Bool.not_eq_true', Bool.or_eq_true]
  rfl

theorem cPacket_of_passedOver (hover : s.passedOver p = true) : s.cPacket h p = s := if_pos hover

theorem proc_of_procs {t : State} (ht : t.procs = s.procs) (k : Nat) : t.proc k = s.proc k := by
  rw [State.proc, ht]
  rfl

/-- The state after a fetch, by its fields. -/
theorem takePacket_frame : s.takePacket h =
    { s with regs := (s.takePacket h).regs, pairs := (s.takePacket h).pairs, sched := (s.takePacket h).sched } := by
  have hregs := fetchedRegs_frame (s := s.passRing h) (h := h) (head := s.headAfter h)
  rw [takePacket_eq]
  generalize (s.passRing h).fetchedRegs h (s.headAfter h) = u at hregs ⊢
  rw [hregs]
  rfl

theorem takePacket_procs : (s.takePacket h).procs = s.procs := by rw [takePacket_frame]

theorem takePacket_proc {k : Nat} : (s.takePacket h).proc k = s.proc k := proc_of_procs takePacket_procs k

theorem served_proc_queue {k : Nat} : ((s.served h p).proc k).queue = (s.proc k).queue := by
  rw [State.served, State.serviceDone]
  rcases eq_or_ne k p.proc with rfl | hk
  · rw [State.proc_setProc_self, takePacket_proc]
  · rw [State.proc_setProc_ne hk, takePacket_proc]

/-- A packet taken at READY is served by its processor, which is ALIVE. -/
theorem cPacket_of_takesC (ht : s.takesC h p) : s.cPacket h p = (s.served h p).serve h p := by
  obtain ⟨htake, hover, hrec, hready, halive⟩ := ht
  have hstage : s.stageServes p = true := by
    cases p <;> simp [State.stageServes, hrec, hready]
  rw [cPacket_of_takes htake hover, if_neg (by simp [hstage]), if_pos (.inr halive)]

theorem exec_of_takesC {c : Instr} (hc : cForm c = some (h, p)) (ht : s.takesC h p) :
    exec c s = .next ((s.served h p).serve h p) := by
  rw [exec_of_cForm hc, cPacket_of_takesC ht]

/-- The registers that the fetch of a packet writes. -/
def notIndices (h : Hdr) (k : Nat) : Prop := k ≠ (Reg.SCH_RING_IDX h.fn h.ring).key ∧ k ≠ (Reg.SCH_RING_STAT h.fn h.ring).key

theorem takePacket_keepsRegs : s.keepsRegs (s.takePacket h) (notIndices h) := by
  refine keepsRegs_trans (t := (s.passRing h).fetchedRegs h (s.headAfter h)) ?_ (keepsRegs_of_regs takePacket_regs)
  exact keepsRegs_trans (keepsRegs_of_regs rfl) (keepsRegs_trans (keepsRegs_setFld fun hk => hk.1 rfl) (keepsRegs_setFld fun hk => hk.2 rfl))

theorem served_keepsRegs : s.keepsRegs (s.served h p) (notIndices h) := keepsRegs_trans takePacket_keepsRegs (keepsRegs_of_regs rfl)

theorem secPart_notIndices {k : Nat} (hf : h.fn < 64) (hr : h.ring < 17) (hk : k < 64) : notIndices h (Reg.SEC_PART k).key := by
  simp only [notIndices, Reg.SEC_PART, Reg.SCH_RING_IDX, Reg.SCH_RING_STAT]
  omega

theorem served_partExists {k : Nat} (hf : h.fn < 64) (hr : h.ring < 17) (hk : k < 64) : (s.served h p).partExists k = s.partExists k :=
  keepsRegs_flag served_keepsRegs (secPart_notIndices hf hr hk)

theorem takesPacket_wf {op : Nat} {cls lenOk pf0Ok : Bool} (ht : s.takesPacket h op cls lenOk pf0Ok) : h.fn < 64 ∧ h.ring < 17 := by
  obtain ⟨hf, -⟩ := ht
  simp only [State.fetchable, Bool.and_eq_true, decide_eq_true_eq] at hf
  exact ⟨hf.1.1.1, hf.1.1.2⟩

/-- At READY a packet comes from a partition that exists (R286). -/
theorem takesC_exists (ht : s.takesC h p) : (s.served h p).partExists h.fn = true := by
  obtain ⟨htake, -, hrec, hready, -⟩ := ht
  obtain ⟨hfn, hring⟩ := takesPacket_wf htake
  obtain ⟨hf, -⟩ := htake
  rw [served_partExists hfn hring hfn]
  simp only [State.fetchable, State.ringAsks, Bool.and_eq_true] at hf
  obtain ⟨⟨⟨⟨hserved, -⟩, -⟩, -⟩, -⟩ := hf.1.2
  rw [State.ringServed, if_neg (by rw [show s.flag Reg.FWP_BOOT Fld.FWP_BOOT_RECOVERY = s.recovery from rfl, hrec]; decide), if_pos hready]
    at hserved
  exact hserved

/-- A packet taken at READY runs its service. -/
theorem exec_served {c : Instr} {svc : State → State} (hc : cForm c = some (h, p)) (ht : s.takesC h p)
    (hsvc : ∀ u : State, u.partExists h.fn = true → u.serve h p = svc u) : exec c s = .next (svc (s.served h p)) := by
  rw [exec_of_takesC hc ht, hsvc _ (takesC_exists ht)]

theorem checked_of_pass {op : Nat} {cs : List Chk} {act : State → State} (hcs : firstFail cs = .pass) : s.checked h op cs act = act s := by
  rw [State.checked, hcs]

section
variable {i : Nat} {q : List (Hdr × CPacket)}

theorem setProcQueue_queue_self : ((s.setProcQueue i q).proc i).queue = q := by
  have hp : (s.setProcQueue i q).proc i = (s.setProc i { s.proc i with queue := q }).proc i := proc_of_procs rfl i
  rw [hp, State.proc_setProc_self]

theorem setProcQueue_proc_ne {k : Nat} (hk : k ≠ i) : (s.setProcQueue i q).proc k = s.proc k := by
  have hp : (s.setProcQueue i q).proc k = (s.setProc i { s.proc i with queue := q }).proc k := proc_of_procs rfl k
  rw [hp, State.proc_setProc_ne hk]

theorem setProcQueue_queued : (s.setProcQueue i q).fld (Reg.FWP_PROC i) Fld.FWP_PROC_QUEUED = q.length % 256 :=
  State.fld_setFld_self (by decide)

theorem setProcQueue_fields : s.fieldsBut (s.setProcQueue i q) [(Reg.FWP_PROC i, Fld.FWP_PROC_QUEUED)] :=
  fieldsBut_trans (t := s.setProc i { s.proc i with queue := q }) (fieldsBut_of_regs rfl) (fieldsBut_setFld (by simp))

theorem setProcQueue_frame : s.setProcQueue i q = { s with procs := (s.setProcQueue i q).procs, regs := (s.setProcQueue i q).regs } := rfl

end

end Sys2Proof.Machine

namespace Sys2Proof

open Machine

/-- Settles O29: the cases of `cPacket` once the packet has passed the checks of R291; the header checks come before DEFERRED (log entry
84). -/
theorem controlPacketsReachTheirProcessor : Obligations.ControlPacketsReachTheirProcessor := by
  intro c h p s hc
  rw [exec_of_cForm hc]
  refine ⟨fun hover => by rw [cPacket_of_passedOver hover], fun htake hover => ?_⟩
  rw [cPacket_of_takes htake hover]
  refine ⟨fun hstage => by rw [if_pos hstage], fun hstage hgo => ?_, fun hstage hrec halive => ?_⟩
  · rw [if_neg (by simp [hstage]), if_pos hgo]
  · rw [if_neg (by simp [hstage]), if_neg (by simp [hrec, halive])]
    refine ⟨_, rfl, ?_, ?_, fun k hk => ?_, setProcQueue_frame, setProcQueue_fields⟩
    · rw [setProcQueue_queue_self, takePacket_proc]
    · rw [setProcQueue_queued, takePacket_proc, List.length_append, List.length_singleton]
    · rw [setProcQueue_proc_ne hk, takePacket_proc]

end Sys2Proof
end


section
/-! PROOFS. What each item of PART_SET sets (R306). -/

namespace Sys2Proof.Machine

variable {s t : State} {r : RegRef}

theorem fieldsBut_setFld_whole {f : Field} {x : Nat} {l : List (RegRef × Field)} (hl : (r, wholeReg) ∈ l) : s.fieldsBut (s.setFld r f x) l :=
  fieldsBut_wrReg hl

theorem fieldsBut_setFlag_whole {f : Field} {b : Bool} {l : List (RegRef × Field)} (hl : (r, wholeReg) ∈ l) : s.fieldsBut (s.setFlag r f b) l :=
  fieldsBut_wrReg hl

/-- A register of two fields set one after the other. -/
theorem twoFields {f g : Field} {x y : Nat} (hf : f.lo + f.w ≤ 64) (hg : g.lo + g.w ≤ 64) (hfg : f.lo + f.w ≤ g.lo) :
    ((s.setFld r f x).setFld r g y).fld r f = x % 2 ^ f.w ∧ ((s.setFld r f x).setFld r g y).fld r g = y % 2 ^ g.w ∧
      s.fieldsBut ((s.setFld r f x).setFld r g y) [(r, wholeReg)] := by
  refine ⟨?_, State.fld_setFld_self hg, fieldsBut_trans (fieldsBut_setFld_whole (by simp)) (fieldsBut_setFld_whole (by simp))⟩
  rw [State.fld_setFld_of_disjoint (.inl hfg), State.fld_setFld_self hf]

theorem setFld_setFld_frame {q : RegRef} {f g : Field} {x y : Nat} :
    (s.setFld r f x).setFld q g y = { s with regs := ((s.setFld r f x).setFld q g y).regs } :=
  regs_frame_trans setFld_frame setFld_frame

/-- A window register reads back the base and size that it was given (R541). -/
theorem winOf_windowWord {base bytes : Nat} (hb : base % 2 ^ 21 = 0) (hn : bytes % 2 ^ 21 = 0) (hbase : base < memEnd)
    (hend : base + bytes ≤ memEnd) :
    winOf (BitVec.ofNat 64 (if bytes = 0 then 0 else
      1 * 2 ^ Fld.SEC_WIN_EN.lo + base / 2 ^ 21 * 2 ^ Fld.SEC_WIN_BASE.lo + bytes / 2 ^ 21 * 2 ^ Fld.SEC_WIN_SIZE.lo)) =
      if bytes = 0 then (0, 0) else (base, bytes) := by
  simp only [memEnd] at hbase hend
  by_cases h0 : bytes = 0
  · rw [if_pos h0, if_pos h0]
    rfl
  · rw [if_neg h0, if_neg h0]
    simp only [winOf, getBits, bitsOf, BitVec.toNat_ofNat, Fld.SEC_WIN_EN, Fld.SEC_WIN_BASE, Fld.SEC_WIN_SIZE]
    rw [if_pos (by omega), Prod.mk.injEq]
    omega

theorem setWindow_window {w base bytes : Nat} (hb : base % 2 ^ 21 = 0) (hn : bytes % 2 ^ 21 = 0) (hbase : base < memEnd)
    (hend : base + bytes ≤ memEnd) : (s.setWindow w base bytes).window w = if bytes = 0 then (0, 0) else (base, bytes) := by
  rw [State.window, State.setWindow, State.reg_wrReg_self]
  exact winOf_windowWord hb hn hbase hend

theorem wrReg_frame {v : Word64} : s.wrReg r v = { s with regs := (s.wrReg r v).regs } := rfl

theorem regs_frame_setFlag {f : Field} {b : Bool} : s.setFlag r f b = { s with regs := (s.setFlag r f b).regs } := rfl

variable {p : Nat}

theorem ctxRange_ne_bktRange : (Reg.SCH_CTX_RANGE p).key ≠ (Reg.SCH_BKT_RANGE p).key := by
  simp only [Reg.SCH_CTX_RANGE, Reg.SCH_BKT_RANGE]
  omega

/-- The ID ranges of contexts and buckets (R218). -/
theorem applyItem_ranges {len tf tc : BitVec 16} {rsv cf cc : BitVec 32} (ht : t = s.applyItem p (.ranges len rsv cf cc tf tc)) :
    t = { s with regs := t.regs } ∧
      t.fld (Reg.SCH_CTX_RANGE p) Fld.SCH_CTX_RANGE_FIRST = cf.toNat % 2 ^ 22 ∧
      t.fld (Reg.SCH_CTX_RANGE p) Fld.SCH_CTX_RANGE_COUNT = cc.toNat % 2 ^ 23 ∧
      t.fld (Reg.SCH_BKT_RANGE p) Fld.SCH_BKT_RANGE_FIRST = tf.toNat ∧ t.fld (Reg.SCH_BKT_RANGE p) Fld.SCH_BKT_RANGE_COUNT = tc.toNat ∧
      s.fieldsBut t [(Reg.SCH_CTX_RANGE p, wholeReg), (Reg.SCH_BKT_RANGE p, wholeReg)] := by
  unfold State.applyItem at ht
  dsimp only at ht
  obtain ⟨hfirst, hcount, -⟩ := twoFields (s := s) (r := Reg.SCH_CTX_RANGE p) (f := Fld.SCH_CTX_RANGE_FIRST) (g := Fld.SCH_CTX_RANGE_COUNT)
    (x := cf.toNat) (y := cc.toNat) (by decide) (by decide) (by decide)
  have hframe : (s.setFld (Reg.SCH_CTX_RANGE p) Fld.SCH_CTX_RANGE_FIRST cf.toNat).setFld (Reg.SCH_CTX_RANGE p) Fld.SCH_CTX_RANGE_COUNT cc.toNat =
      { s with regs := _ } := setFld_setFld_frame
  have hfields : s.fieldsBut ((s.setFld (Reg.SCH_CTX_RANGE p) Fld.SCH_CTX_RANGE_FIRST cf.toNat).setFld (Reg.SCH_CTX_RANGE p)
      Fld.SCH_CTX_RANGE_COUNT cc.toNat) [(Reg.SCH_CTX_RANGE p, wholeReg), (Reg.SCH_BKT_RANGE p, wholeReg)] :=
    fieldsBut_trans (fieldsBut_setFld_whole (by simp)) (fieldsBut_setFld_whole (by simp))
  generalize (s.setFld (Reg.SCH_CTX_RANGE p) Fld.SCH_CTX_RANGE_FIRST cf.toNat).setFld (Reg.SCH_CTX_RANGE p) Fld.SCH_CTX_RANGE_COUNT cc.toNat = u
    at ht hfirst hcount hframe hfields
  obtain ⟨hbf, hbc, -⟩ := twoFields (s := u) (r := Reg.SCH_BKT_RANGE p) (f := Fld.SCH_BKT_RANGE_FIRST) (g := Fld.SCH_BKT_RANGE_COUNT)
    (x := tf.toNat) (y := tc.toNat) (by decide) (by decide) (by decide)
  subst ht
  refine ⟨regs_frame_trans hframe setFld_setFld_frame, ?_, ?_, hbf.trans (Nat.mod_eq_of_lt tf.isLt), hbc.trans (Nat.mod_eq_of_lt tc.isLt),
    fieldsBut_trans hfields (fieldsBut_trans (fieldsBut_setFld_whole (by simp)) (fieldsBut_setFld_whole (by simp)))⟩
  · rw [State.fld_setFld_ne ctxRange_ne_bktRange, State.fld_setFld_ne ctxRange_ne_bktRange]
    exact hfirst
  · rw [State.fld_setFld_ne ctxRange_ne_bktRange, State.fld_setFld_ne ctxRange_ne_bktRange]
    exact hcount

/-- The Scree region and its times (R201, R204). -/
theorem applyItem_scree {len pa ttl : BitVec 16} {rsv : BitVec 32} {base bytes : BitVec 64}
    (ht : t = s.applyItem p (.scree len rsv pa ttl base bytes)) :
    t = { s with regs := t.regs, parts := t.parts } ∧ t.part p = { s.part p with screeBase := base.toNat, screeBytes := bytes.toNat } ∧
      (∀ q, q ≠ p → t.part q = s.part q) ∧ t.fld (Reg.KVT_SCREE_CFG p) Fld.KVT_SCREE_CFG_PARK_AFTER = pa.toNat % 4096 ∧
      t.fld (Reg.KVT_SCREE_CFG p) Fld.KVT_SCREE_CFG_TTL = ttl.toNat % 4096 ∧
      t.flag (Reg.KVT_SCREE_CFG p) Fld.KVT_SCREE_CFG_PARK_OFF = (bytes == 0) ∧ s.fieldsBut t [(Reg.KVT_SCREE_CFG p, wholeReg)] := by
  unfold State.applyItem at ht
  dsimp only at ht
  obtain ⟨hpark, httl, hfields⟩ := twoFields (s := s) (r := Reg.KVT_SCREE_CFG p) (f := Fld.KVT_SCREE_CFG_PARK_AFTER) (g := Fld.KVT_SCREE_CFG_TTL)
    (x := pa.toNat) (y := ttl.toNat) (by decide) (by decide) (by decide)
  have hframe : (s.setFld (Reg.KVT_SCREE_CFG p) Fld.KVT_SCREE_CFG_PARK_AFTER pa.toNat).setFld (Reg.KVT_SCREE_CFG p) Fld.KVT_SCREE_CFG_TTL ttl.toNat =
      { s with regs := _ } := setFld_setFld_frame
  generalize (s.setFld (Reg.KVT_SCREE_CFG p) Fld.KVT_SCREE_CFG_PARK_AFTER pa.toNat).setFld (Reg.KVT_SCREE_CFG p) Fld.KVT_SCREE_CFG_TTL ttl.toNat = u
    at ht hpark httl hframe hfields
  have hframe' : u.setFlag (Reg.KVT_SCREE_CFG p) Fld.KVT_SCREE_CFG_PARK_OFF (bytes == 0) = { s with regs := _ } :=
    regs_frame_trans hframe regs_frame_setFlag
  have hpark' : (u.setFlag (Reg.KVT_SCREE_CFG p) Fld.KVT_SCREE_CFG_PARK_OFF (bytes == 0)).fld (Reg.KVT_SCREE_CFG p)
      Fld.KVT_SCREE_CFG_PARK_AFTER = pa.toNat % 4096 := by
    rw [State.fld_setFlag_of_disjoint (by decide)]
    exact hpark
  have httl' : (u.setFlag (Reg.KVT_SCREE_CFG p) Fld.KVT_SCREE_CFG_PARK_OFF (bytes == 0)).fld (Reg.KVT_SCREE_CFG p)
      Fld.KVT_SCREE_CFG_TTL = ttl.toNat % 4096 := by
    rw [State.fld_setFlag_of_disjoint (by decide)]
    exact httl
  have hoff : (u.setFlag (Reg.KVT_SCREE_CFG p) Fld.KVT_SCREE_CFG_PARK_OFF (bytes == 0)).flag (Reg.KVT_SCREE_CFG p)
      Fld.KVT_SCREE_CFG_PARK_OFF = (bytes == 0) := State.flag_setFlag_self (by decide) rfl
  have hfields' : s.fieldsBut (u.setFlag (Reg.KVT_SCREE_CFG p) Fld.KVT_SCREE_CFG_PARK_OFF (bytes == 0)) [(Reg.KVT_SCREE_CFG p, wholeReg)] :=
    fieldsBut_trans hfields (fieldsBut_setFlag_whole (by simp))
  generalize u.setFlag (Reg.KVT_SCREE_CFG p) Fld.KVT_SCREE_CFG_PARK_OFF (bytes == 0) = v at ht hframe' hpark' httl' hoff hfields'
  subst ht
  have hpart : ∀ k, v.part k = s.part k := fun k => by rw [State.part, hframe']; rfl
  refine ⟨by rw [hframe']; rfl, ?_, fun q hq => ?_, ?_, ?_, ?_,
    fieldsBut_trans hfields' (fieldsBut_of_regs rfl)⟩
  · rw [State.part_setPart_self, hpart]
  · rw [State.part_setPart_ne hq, hpart]
  · rw [State.setPart_fld_acc, hpark']
  · rw [State.setPart_fld_acc, httl']
  · rw [State.setPart_flag_acc, hoff]

/-- The IDs of models and placements (R218). -/
theorem applyItem_ids {len mf mc pf pc : BitVec 16} {rsv : BitVec 32} (ht : t = s.applyItem p (.ids len rsv mf mc pf pc)) :
    t = { s with regs := t.regs } ∧
      t.fld (Reg.SCH_ID_RANGE p) Fld.SCH_ID_RANGE_MODEL_FIRST = mf.toNat % 2 ^ 12 ∧
      t.fld (Reg.SCH_ID_RANGE p) Fld.SCH_ID_RANGE_MODEL_COUNT = mc.toNat % 2 ^ 13 ∧
      t.fld (Reg.SCH_ID_RANGE p) Fld.SCH_ID_RANGE_PLACE_FIRST = pf.toNat % 2 ^ 10 ∧
      t.fld (Reg.SCH_ID_RANGE p) Fld.SCH_ID_RANGE_PLACE_COUNT = pc.toNat % 2 ^ 11 ∧ s.fieldsBut t [(Reg.SCH_ID_RANGE p, wholeReg)] := by
  unfold State.applyItem at ht
  dsimp only at ht
  obtain ⟨hmf, hmc, hfields⟩ := twoFields (s := s) (r := Reg.SCH_ID_RANGE p) (f := Fld.SCH_ID_RANGE_MODEL_FIRST) (g := Fld.SCH_ID_RANGE_MODEL_COUNT)
    (x := mf.toNat) (y := mc.toNat) (by decide) (by decide) (by decide)
  have hframe : (s.setFld (Reg.SCH_ID_RANGE p) Fld.SCH_ID_RANGE_MODEL_FIRST mf.toNat).setFld (Reg.SCH_ID_RANGE p) Fld.SCH_ID_RANGE_MODEL_COUNT mc.toNat =
      { s with regs := _ } := setFld_setFld_frame
  generalize (s.setFld (Reg.SCH_ID_RANGE p) Fld.SCH_ID_RANGE_MODEL_FIRST mf.toNat).setFld (Reg.SCH_ID_RANGE p) Fld.SCH_ID_RANGE_MODEL_COUNT mc.toNat = u
    at ht hmf hmc hframe hfields
  obtain ⟨hpf, hpc, hfields'⟩ := twoFields (s := u) (r := Reg.SCH_ID_RANGE p) (f := Fld.SCH_ID_RANGE_PLACE_FIRST)
    (g := Fld.SCH_ID_RANGE_PLACE_COUNT) (x := pf.toNat) (y := pc.toNat) (by decide) (by decide) (by decide)
  subst ht
  refine ⟨regs_frame_trans hframe setFld_setFld_frame, ?_, ?_, hpf, hpc, fieldsBut_trans hfields hfields'⟩
  · rw [State.fld_setFld_of_disjoint (by decide), State.fld_setFld_of_disjoint (by decide)]
    exact hmf
  · rw [State.fld_setFld_of_disjoint (by decide), State.fld_setFld_of_disjoint (by decide)]
    exact hmc

end Sys2Proof.Machine

namespace Sys2Proof

open Machine

/-- Settles O32: each item writes the fields of one register, or of two. -/
theorem partSetItemsSetTheirRegisters : Obligations.PartSetItemsSetTheirRegisters := by
  intro s p len rsv _
  refine ⟨fun sat zro => ?_, fun steps r1 time t ht => ?_, fun cf cc tf tc t ht => applyItem_ranges ht, fun v t ht => ?_, fun v t ht => ?_,
    fun n t ht => ?_, fun pa ttl base bytes t ht => applyItem_scree ht, fun v t ht => ?_, fun v t ht => ?_,
    fun i r1 base bytes t ht _ hb hn hbase hend => ?_, fun mf mc pf pc t ht => applyItem_ids ht⟩
  · obtain ⟨hsat, hzro, hfields⟩ := twoFields (s := s) (r := Reg.MDT_ESC_THR p) (f := Fld.MDT_ESC_THR_ESC_SAT) (g := Fld.MDT_ESC_THR_ESC_ZRO)
      (x := sat.toNat) (y := zro.toNat) (by decide) (by decide) (by decide)
    exact ⟨setFld_setFld_frame, hsat.trans (Nat.mod_eq_of_lt sat.isLt), hzro.trans (Nat.mod_eq_of_lt zro.isLt), hfields⟩
  · obtain ⟨hsteps, htime, hfields⟩ := twoFields (s := s) (r := Reg.SCH_AGE_CFG p) (f := Fld.SCH_AGE_CFG_STARVE_STEPS)
      (g := Fld.SCH_AGE_CFG_STARVE_TIME) (x := steps.toNat) (y := time.toNat) (by decide) (by decide) (by decide)
    subst ht
    exact ⟨setFld_setFld_frame, hsteps.trans (Nat.mod_eq_of_lt steps.isLt), htime.trans (Nat.mod_eq_of_lt time.isLt), hfields⟩
  · subst ht
    exact ⟨wrReg_frame, State.reg_wrReg_self, fieldsBut_wrReg (by simp)⟩
  · subst ht
    exact ⟨wrReg_frame, State.reg_wrReg_self, fieldsBut_wrReg (by simp)⟩
  · subst ht
    exact ⟨setFld_frame, (State.fld_setFld_self (by decide)).trans (Nat.mod_eq_of_lt n.isLt), fieldsBut_setFld (by simp)⟩
  · subst ht
    exact ⟨wrReg_frame, State.reg_wrReg_self, fieldsBut_wrReg (by simp)⟩
  · subst ht
    exact ⟨wrReg_frame, State.reg_wrReg_self, fieldsBut_wrReg (by simp)⟩
  · subst ht
    refine ⟨wrReg_frame, ?_, fieldsBut_wrReg (by simp)⟩
    have hzero : (bytes = 0) = (bytes.toNat = 0) := by rw [← BitVec.toNat_inj]; rfl
    simp only [hzero]
    exact setWindow_window hb hn hbase hend

end Sys2Proof
end


section
/-! PROOFS. What replies and long operations change: registers of the rings, the pairs, and the operations in progress (R292, R308, R309). -/

namespace Sys2Proof.Machine

variable {s t u : State} {h : Hdr} {P : Nat → Prop}

/-- No key in P is that of a function's counts or of a ring's counts. -/
def offRings (P : Nat → Prop) : Prop := (∀ f, ¬P (Reg.SCH_FN_STAT f).key) ∧ ∀ f r, ¬P (Reg.SCH_RING_STAT f r).key

/-- Of registers only counts of functions and rings differ, and of the rest only the ring pairs: what replies change. -/
def State.repliesOnly (s t : State) : Prop :=
  t = { s with regs := t.regs, pairs := t.pairs } ∧ ∀ P, offRings P → s.keepsRegs t P

theorem repliesOnly_refl : s.repliesOnly s := ⟨rfl, fun _ _ => keepsRegs_refl⟩

theorem repliesOnly_trans (h1 : s.repliesOnly t) (h2 : t.repliesOnly u) : s.repliesOnly u := by
  obtain ⟨hframe, hregs⟩ := h1
  obtain ⟨kframe, kregs⟩ := h2
  exact ⟨kframe.trans (by rw [hframe]), fun P hP => keepsRegs_trans (hregs P hP) (kregs P hP)⟩

theorem repliesOnly_setPair {f r : Nat} {x : Pair} : s.repliesOnly (s.setPair f r x) := ⟨rfl, fun _ _ => keepsRegs_of_regs rfl⟩

theorem repliesOnly_bump {r : RegRef} {f : Field} (hr : ∀ P, offRings P → ¬P r.key) : s.repliesOnly (s.bump r f) :=
  ⟨by rw [State.bump, bumpBy_eq], fun P hP => keepsRegs_bump (hr P hP)⟩

theorem repliesOnly_discard {f : Nat} : s.repliesOnly (s.bump (Reg.SCH_FN_STAT f) Fld.SCH_FN_STAT_DISCARD) := repliesOnly_bump fun _ hP => hP.1 f

theorem repliesOnly_each {α : Type} {xs : List α} {g : State → α → State} (hg : ∀ (t : State) x, x ∈ xs → t.repliesOnly (g t x)) : s.repliesOnly (s.each xs g) :=
  each_induction (P := s.repliesOnly) repliesOnly_refl fun t x hx ht => repliesOnly_trans ht (hg t x hx)

theorem repliesOnly_post {f r : Nat} {o : Out} : s.repliesOnly (s.post f r o) := by
  rw [post_eq]
  split
  · exact repliesOnly_setPair
  · exact repliesOnly_discard

theorem repliesOnly_fenceSweep {f : Nat} : s.repliesOnly (s.fenceSweep f) := by
  unfold State.fenceSweep
  refine repliesOnly_each fun t _ _ => ?_
  unfold State.fencePass
  refine repliesOnly_each fun u k _ => ?_
  dsimp only
  split
  · split
    · split
      · exact repliesOnly_setPair
      · split
        · exact repliesOnly_trans repliesOnly_setPair repliesOnly_discard
        · exact repliesOnly_trans repliesOnly_setPair repliesOnly_post
    · exact repliesOnly_refl
  · exact repliesOnly_refl

theorem repliesOnly_badCounted {status : Nat} : s.repliesOnly (s.badCounted h status) := by
  unfold State.badCounted
  split
  · exact repliesOnly_bump fun _ hP => hP.2 h.fn h.ring
  · exact repliesOnly_refl

theorem repliesOnly_replyAs {final : Bool} {op status detail result : Nat} : s.repliesOnly (s.replyAs final h op status detail result) := by
  refine repliesOnly_trans (repliesOnly_badCounted (h := h) (status := status)) ?_
  show State.repliesOnly _ (if final && status = stOK && bitOf h.flags.toNat 0 then ((s.badCounted h status).seqDone h).fenceSweep h.fn
    else if final && !((s.badCounted h status).pairOn h.fn h.ring) then
      (((s.badCounted h status).seqDone h).bump (Reg.SCH_FN_STAT h.fn) Fld.SCH_FN_STAT_DISCARD).fenceSweep h.fn
    else (s.badCounted h status).post h.fn h.ring { replyOut h op status detail result final 0 with since := 0 })
  split
  · exact repliesOnly_trans repliesOnly_setPair repliesOnly_fenceSweep
  · split
    · exact repliesOnly_trans (repliesOnly_trans repliesOnly_setPair repliesOnly_discard) repliesOnly_fenceSweep
    · exact repliesOnly_post

theorem repliesOnly_reply {op status detail result : Nat} : s.repliesOnly (s.reply h op status detail result) := repliesOnly_replyAs

/-- As `repliesOnly`, and the long operations may differ. -/
def State.longOnly (s t : State) : Prop :=
  t = { s with regs := t.regs, pairs := t.pairs, longOps := t.longOps } ∧ ∀ P, offRings P → s.keepsRegs t P

theorem longOnly_refl : s.longOnly s := ⟨rfl, fun _ _ => keepsRegs_refl⟩

theorem longOnly_trans (h1 : s.longOnly t) (h2 : t.longOnly u) : s.longOnly u := by
  obtain ⟨hframe, hregs⟩ := h1
  obtain ⟨kframe, kregs⟩ := h2
  exact ⟨kframe.trans (by rw [hframe]), fun P hP => keepsRegs_trans (hregs P hP) (kregs P hP)⟩

theorem longOnly_of_repliesOnly (h : s.repliesOnly t) : s.longOnly t := ⟨h.1.trans (by rw [h.1]), h.2⟩

theorem longOnly_each {α : Type} {xs : List α} {g : State → α → State} (hg : ∀ (t : State) x, x ∈ xs → t.longOnly (g t x)) : s.longOnly (s.each xs g) :=
  each_induction (P := s.longOnly) longOnly_refl fun t x hx ht => longOnly_trans ht (hg t x hx)

theorem longOnly_replyAs {final : Bool} {op status detail result : Nat} : s.longOnly (s.replyAs final h op status detail result) :=
  longOnly_of_repliesOnly repliesOnly_replyAs

theorem longOnly_reply {op status detail result : Nat} : s.longOnly (s.reply h op status detail result) := longOnly_replyAs

variable {o : LongOp}

theorem longOnly_setLong : s.longOnly (s.setLong o) := ⟨rfl, fun _ _ => keepsRegs_of_regs rfl⟩

theorem longOnly_setFld {r : RegRef} {f : Field} {x : Nat} (hr : ∀ P, offRings P → ¬P r.key) : s.longOnly (s.setFld r f x) :=
  ⟨setFld_frame, fun P hP => keepsRegs_setFld (hr P hP)⟩

theorem longOnly_countLong {p : Nat} : s.longOnly (s.countLong p) := longOnly_setFld fun _ hP => hP.1 p

theorem longOnly_dropLong : s.longOnly (s.dropLong o) :=
  longOnly_trans (t := { s with longOps := s.longOps.filter fun x => x.id != o.id }) ⟨rfl, fun _ _ => keepsRegs_of_regs rfl⟩ longOnly_countLong

theorem longOnly_endLong {status detail result : Nat} : s.longOnly (s.endLong o status detail result) :=
  longOnly_trans longOnly_dropLong longOnly_reply

theorem longOnly_endLongAt {id status detail result : Nat} : s.longOnly (s.endLongAt id status detail result) := by
  unfold State.endLongAt
  split
  · exact longOnly_endLong
  · exact longOnly_refl

theorem longOnly_tellLong : s.longOnly (s.tellLong o) := longOnly_trans longOnly_setLong longOnly_replyAs

theorem longOnly_advanceLong {done : Nat} : s.longOnly (s.advanceLong o done) := by
  unfold State.advanceLong
  dsimp only
  split
  · exact longOnly_tellLong
  · exact longOnly_setLong

/-- CAL_RUNs that learn of the end of a run. -/
theorem longOnly_calEnds {k : CalObj} : s.longOnly (s.calEnds k) := by
  unfold State.calEnds
  refine longOnly_each fun t x _ => ?_
  split
  · split
    · exact longOnly_setLong
    · split
      · dsimp only
        split
        · exact longOnly_trans longOnly_advanceLong longOnly_endLong
        · exact longOnly_advanceLong
      · exact longOnly_refl
  · exact longOnly_refl

end Sys2Proof.Machine

end


section
/-! PROOFS. Scrubs and the assignment of tiles to partitions (R410, R524, R525, R541). -/

namespace Sys2Proof.Machine

variable {s t u : State} {P : Nat → Prop}

/-! ## Runs of calibration that are abandoned -/

/-- As `longOnly`, and the calibration's own state may differ. -/
def State.calOnly (s t : State) : Prop :=
  t = { s with regs := t.regs, pairs := t.pairs, longOps := t.longOps, cal := t.cal } ∧ ∀ P, offRings P → s.keepsRegs t P

theorem calOnly_trans (h1 : s.calOnly t) (h2 : t.calOnly u) : s.calOnly u := by
  obtain ⟨hframe, hregs⟩ := h1
  obtain ⟨kframe, kregs⟩ := h2
  exact ⟨kframe.trans (by rw [hframe]), fun P hP => keepsRegs_trans (hregs P hP) (kregs P hP)⟩

theorem calOnly_refl : s.calOnly s := ⟨rfl, fun _ _ => keepsRegs_refl⟩

theorem calOnly_of_longOnly (h : s.longOnly t) : s.calOnly t := ⟨h.1.trans (by rw [h.1]), h.2⟩

theorem calOnly_cal {c : Cal} : s.calOnly { s with cal := c } := ⟨rfl, fun _ _ => keepsRegs_of_regs rfl⟩

theorem calOnly_each {α : Type} {xs : List α} {g : State → α → State} (hg : ∀ (t : State) x, x ∈ xs → t.calOnly (g t x)) : s.calOnly (s.each xs g) :=
  each_induction (P := s.calOnly) calOnly_refl fun t x hx ht => calOnly_trans ht (hg t x hx)

theorem calOnly_calHold {o : CalObj} : s.calOnly (s.calHold o) := by
  unfold State.calHold
  refine calOnly_each fun t x _ => ?_
  unfold State.calHoldOne
  dsimp only
  split
  · exact calOnly_cal
  · split
    · exact calOnly_cal
    · exact calOnly_refl

theorem calOnly_abandonRuns {mine : CalObj → Bool} {again : Bool} : s.calOnly (s.abandonRuns mine again) := by
  unfold State.abandonRuns
  dsimp only
  refine calOnly_trans ?_ (calOnly_each fun t x _ => calOnly_of_longOnly longOnly_calEnds)
  split
  · exact calOnly_trans calOnly_cal (calOnly_each fun t x _ => calOnly_calHold)
  · exact calOnly_cal

theorem abandonRuns_running {mine : CalObj → Bool} {again : Bool} :
    (s.abandonRuns mine again).cal.running = s.cal.running.filter fun x => !(mine x.1) := by
  unfold State.abandonRuns
  dsimp only
  refine each_induction (P := fun t => t.cal.running = _) ?_ fun t x _ ht => ?_
  · split
    · refine each_induction (P := fun t => t.cal.running = _) rfl fun t x _ ht => ?_
      unfold State.calHold
      refine each_induction (P := fun t => t.cal.running = _) ht fun u y _ hu => ?_
      unfold State.calHoldOne
      dsimp only
      split
      · exact hu
      · split
        · exact hu
        · exact hu
    · rfl
  · rw [longOnly_calEnds.1]
    exact ht

/-! ## Scrubs -/

/-- Keys of registers below those of the rings: the configuration block's. -/
def belowRings (k : Nat) : Prop := k < 0xD8000

theorem offRings_belowRings : offRings belowRings := by
  constructor <;> intros <;> simp only [belowRings, Reg.SCH_FN_STAT, Reg.SCH_RING_STAT] <;> omega

theorem belowRings_tileMap {k : Nat} (hk : k < 1024) : belowRings (Reg.CFG_TILE_MAP k).key := by
  simp only [belowRings, Reg.CFG_TILE_MAP]
  omega

theorem secCnt_not_belowRings : ¬belowRings Reg.SEC_CNT.key := by
  unfold belowRings
  decide

/-- What a scrub or an assignment of tile k may change: of the configuration registers and of the logical tiles only tile k's. -/
def State.tileOnly (s t : State) (k : Nat) : Prop :=
  t = { s with regs := t.regs, pairs := t.pairs, longOps := t.longOps, cal := t.cal, phys := t.phys, tiles := t.tiles } ∧
    (s.keepsRegs t fun r => belowRings r ∧ r ≠ (Reg.CFG_TILE_MAP k).key) ∧ ∀ j, j ≠ k → t.tile j = s.tile j

variable {k : Nat}

theorem tileOnly_refl : s.tileOnly s k := ⟨rfl, keepsRegs_refl, fun _ _ => rfl⟩

theorem tileOnly_trans (h1 : s.tileOnly t k) (h2 : t.tileOnly u k) : s.tileOnly u k := by
  obtain ⟨hframe, hregs, htiles⟩ := h1
  obtain ⟨kframe, kregs, ktiles⟩ := h2
  exact ⟨kframe.trans (by rw [hframe]), keepsRegs_trans hregs kregs, fun j hj => (ktiles j hj).trans (htiles j hj)⟩

theorem tileOnly_of_calOnly (h : s.calOnly t) : s.tileOnly t k :=
  ⟨h.1.trans (by rw [h.1]), keepsRegs_mono (h.2 _ offRings_belowRings) fun _ hr => hr.1, fun j _ => by rw [h.1]; rfl⟩

theorem tileOnly_setTile {x : Tile} : s.tileOnly (s.setTile k x) k :=
  ⟨rfl, keepsRegs_of_regs rfl, fun _ hj => State.tile_setTile_ne hj⟩

theorem tileOnly_setFld {r : RegRef} {f : Field} {x : Nat} (hr : belowRings r.key → r.key = (Reg.CFG_TILE_MAP k).key) :
    s.tileOnly (s.setFld r f x) k := by
  refine ⟨setFld_frame.trans (by rw [setFld_frame]), keepsRegs_setFld fun h => h.2 (hr h.1), fun j _ => ?_⟩
  rw [State.setFld_tile_acc]

theorem tileOnly_bump {r : RegRef} {f : Field} (hr : ¬belowRings r.key) : s.tileOnly (s.bump r f) k := by
  unfold State.bump State.bumpBy
  split
  · exact tileOnly_refl
  · exact tileOnly_setFld fun h => absurd h hr

/-- The state of a scrub once the tile's runs are abandoned and its bank is cleared. -/
def State.bankScrubbed (s : State) (k : Nat) (full : Bool) : State :=
  match s.physOf k with
  | some i => (if full then s.abandonRuns (fun o => calPhys o == some i) false else s).clearBank i
  | none => s

theorem bankScrubbed_frame {full : Bool} : s.tileOnly (s.bankScrubbed k full) k ∧ (s.bankScrubbed k full).tile k = s.tile k := by
  have hclear : ∀ (t : State) i, t.tileOnly (t.clearBank i) k ∧ (t.clearBank i).tile k = t.tile k := fun t i =>
    ⟨⟨rfl, keepsRegs_of_regs rfl, fun _ _ => rfl⟩, rfl⟩
  unfold State.bankScrubbed
  split
  · split
    · exact ⟨tileOnly_trans (tileOnly_of_calOnly calOnly_abandonRuns) (hclear _ _).1,
        (hclear _ _).2.trans (by rw [calOnly_abandonRuns.1]; rfl)⟩
    · exact hclear _ _
  · exact ⟨tileOnly_refl, rfl⟩

/-- A tile's own state after a scrub. -/
def Tile.scrubbed (x : Tile) (full : Bool) (next : Option Nat) : Tile :=
  { x with outs := [], attnOut := [], attns := [], sb := [], scoring := none, staged := if full then [] else x.staged,
           copies := if full then [] else x.copies, lastPart := next }

theorem scrub_eq {full : Bool} {next : Option Nat} : s.scrub k full next =
    ((s.bankScrubbed k full).setTile k (((s.bankScrubbed k full).tile k).scrubbed full next)).bump Reg.SEC_CNT Fld.SEC_CNT_SCRUBS := rfl

theorem scrub_tileOnly {full : Bool} {next : Option Nat} : s.tileOnly (s.scrub k full next) k := by
  rw [scrub_eq]
  exact tileOnly_trans (tileOnly_trans bankScrubbed_frame.1 tileOnly_setTile) (tileOnly_bump secCnt_not_belowRings)

theorem scrub_assigned {full : Bool} {next : Option Nat} : ((s.scrub k full next).tile k).assigned = (s.tile k).assigned := by
  rw [scrub_eq, State.bump_tile_acc, State.tile_setTile_self, bankScrubbed_frame.2]
  rfl

theorem scrub_tileMap {full : Bool} {next : Option Nat} {f : Field} (hk : k < 1024) :
    (s.scrub k full next).fld (Reg.CFG_TILE_MAP k) f = s.fld (Reg.CFG_TILE_MAP k) f := by
  have hbank : s.keepsRegs (s.bankScrubbed k full) belowRings := by
    unfold State.bankScrubbed
    split
    · split
      · exact keepsRegs_trans (calOnly_abandonRuns.2 _ offRings_belowRings) (keepsRegs_of_regs rfl)
      · exact keepsRegs_of_regs rfl
    · exact keepsRegs_refl
  rw [scrub_eq]
  refine keepsRegs_fld (P := belowRings) ?_ (belowRings_tileMap hk)
  exact keepsRegs_trans (keepsRegs_trans hbank (keepsRegs_of_regs rfl)) (keepsRegs_bump secCnt_not_belowRings)

/-! ## Assignments -/

theorem tileOnly_mode {j : Nat} (h : s.tileOnly t k) (hj : j < 1024) (hne : j ≠ k) : t.tileMode j = s.tileMode j :=
  keepsRegs_fld h.2.1 ⟨belowRings_tileMap hj, by simp only [Reg.CFG_TILE_MAP]; omega⟩

theorem tileOnly_owners {j : Nat} (h : s.tileOnly t k) (hj : j < 1024) (hne : j ≠ k) : t.tileOwners j = s.tileOwners j := by
  have hpart : t.fld (Reg.CFG_TILE_MAP j) Fld.CFG_TILE_MAP_PART = s.fld (Reg.CFG_TILE_MAP j) Fld.CFG_TILE_MAP_PART :=
    keepsRegs_fld h.2.1 ⟨belowRings_tileMap hj, by simp only [Reg.CFG_TILE_MAP]; omega⟩
  rw [State.tileOwners, State.tileOwners, tileOnly_mode h hj hne, hpart, h.2.2 j hne]

/-- The tile map entry and the list of partitions of a tile that is assigned. -/
def State.mapTile (s : State) (k part mode : Nat) (ps : List Nat) : State :=
  ((s.setTile k { s.tile k with assigned := ps }).setFld (Reg.CFG_TILE_MAP k) Fld.CFG_TILE_MAP_PART part).setFld
    (Reg.CFG_TILE_MAP k) Fld.CFG_TILE_MAP_MODE mode

variable {part mode : Nat} {ps : List Nat}

theorem mapTile_tileOnly : s.tileOnly (s.mapTile k part mode ps) k :=
  tileOnly_trans (tileOnly_trans tileOnly_setTile (tileOnly_setFld fun _ => rfl)) (tileOnly_setFld fun _ => rfl)

theorem mapTile_mode : (s.mapTile k part mode ps).tileMode k = mode % 4 := State.fld_setFld_self (by decide)

theorem mapTile_part : (s.mapTile k part mode ps).fld (Reg.CFG_TILE_MAP k) Fld.CFG_TILE_MAP_PART = part % 64 := by
  rw [State.mapTile, State.fld_setFld_of_disjoint (by decide), State.fld_setFld_self (by decide)]
  rfl

theorem mapTile_assigned : ((s.mapTile k part mode ps).tile k).assigned = ps := by
  rw [State.mapTile, State.setFld_tile_acc, State.setFld_tile_acc, State.tile_setTile_self]

theorem mapTile_owners : (s.mapTile k part mode ps).tileOwners k = if mode % 4 = 1 then [part % 64] else ps := by
  rw [State.tileOwners, mapTile_mode, mapTile_part, mapTile_assigned]

/-- A tile reads as assigned to partition p in a mode, or, in mode 0, not. -/
def State.assignedAs (s : State) (k p mode : Nat) : Prop :=
  (mode = 0 → (s.tileOwners k).contains p = false) ∧ (mode = 1 → s.tileMode k = 1 ∧ s.tileOwners k = [p]) ∧
    (mode = 2 → s.tileMode k = 2 ∧ (s.tileOwners k).contains p = true)

/-- The state in which a tile that comes to a partition is assigned: scrubbed where another partition used it last. -/
def State.tileReady (s : State) (p k : Nat) : State :=
  if !((s.tileOwners k).filter (· != p)).isEmpty || (s.tileOwners k).contains p || (s.tile k).lastPart == some p then s
  else if (s.tile k).lastPart.isNone then s.setTile k { s.tile k with lastPart := some p }
  else s.scrub k true (some p)

theorem tileReady_tileOnly {p : Nat} : s.tileOnly (s.tileReady p k) k := by
  unfold State.tileReady
  split
  · exact tileOnly_refl
  · split
    · exact tileOnly_setTile
    · exact scrub_tileOnly

variable {p : Nat}

theorem assignTile_of_mode_pos (hm : mode ≠ 0) : s.assignTile p k mode =
    (s.tileReady p k).mapTile k (if mode = 1 then p else 0) mode (if mode = 1 then [p] else (s.tileOwners k).filter (· != p) ++ [p]) := by
  unfold State.assignTile
  dsimp only
  rw [if_neg hm]
  rfl

theorem assignTile_of_release (hp : (s.tileOwners k).contains p = true) : s.assignTile p k 0 =
    if ((s.tileOwners k).filter (· != p)).isEmpty then (s.mapTile k 0 0 []).scrub k true (s.tile k).lastPart
    else s.mapTile k 0 2 ((s.tileOwners k).filter (· != p)) := by
  unfold State.assignTile
  dsimp only
  rw [if_pos rfl, hp, if_neg (by decide)]
  generalize (s.tileOwners k).filter (· != p) = rest
  cases rest with
  | nil => simp only [List.isEmpty_nil, if_true, State.mapTile]
  | cons x xs => simp only [List.isEmpty_cons, Bool.false_eq_true, if_false, State.mapTile]

theorem assignTile_of_not_held (hp : (s.tileOwners k).contains p = false) : s.assignTile p k 0 = s := by
  unfold State.assignTile
  dsimp only
  rw [if_pos rfl, hp]
  rfl

theorem assignTile_tileOnly : s.tileOnly (s.assignTile p k mode) k := by
  by_cases hm : mode = 0
  · subst hm
    by_cases hp : (s.tileOwners k).contains p = true
    · rw [assignTile_of_release hp]
      split
      · exact tileOnly_trans mapTile_tileOnly scrub_tileOnly
      · exact mapTile_tileOnly
    · rw [assignTile_of_not_held (by simpa using hp)]
      exact tileOnly_refl
  · rw [assignTile_of_mode_pos hm]
    exact tileOnly_trans tileReady_tileOnly mapTile_tileOnly

theorem scrub_owners {full : Bool} {next : Option Nat} (hk : k < 1024) : (s.scrub k full next).tileOwners k = s.tileOwners k := by
  rw [State.tileOwners, State.tileOwners, State.tileMode, State.tileMode, scrub_tileMap hk, scrub_tileMap hk, scrub_assigned]

theorem assignTile_assignedAs (hk : k < 1024) (hp : p < 64) : (s.assignTile p k mode).assignedAs k p mode := by
  refine ⟨fun hm => ?_, fun hm => ?_, fun hm => ?_⟩
  · subst hm
    by_cases hheld : (s.tileOwners k).contains p = true
    · rw [assignTile_of_release hheld]
      split
      · rw [scrub_owners hk, mapTile_owners]
        rfl
      · rw [mapTile_owners, if_neg (by decide)]
        simp
    · rw [assignTile_of_not_held (by simpa using hheld)]
      simpa using hheld
  · subst hm
    rw [assignTile_of_mode_pos (by decide), mapTile_mode, mapTile_owners]
    simp [Nat.mod_eq_of_lt hp]
  · subst hm
    rw [assignTile_of_mode_pos (by decide), mapTile_mode, mapTile_owners]
    simp

/-- A repeated operation over 0 to n - 1: what holds of the first m steps holds of m + 1. -/
theorem each_range_induction {P : Nat → State → Prop} {g : State → Nat → State} {n : Nat} (h0 : P 0 s)
    (hstep : ∀ m (t : State), m < n → P m t → P (m + 1) (g t m)) : P n (s.each (List.range n) g) := by
  unfold State.each
  induction n with
  | zero => exact h0
  | succ n ih =>
    rw [List.range_succ, List.foldl_append]
    exact hstep n _ (by omega) (ih fun m t hm => hstep m t (by omega))

theorem assignedAs_congr (h : s.tileOnly t k) {j : Nat} (hj : j < 1024) (hne : j ≠ k) (ha : s.assignedAs j p mode) : t.assignedAs j p mode := by
  rw [State.assignedAs, tileOnly_mode h hj hne, tileOnly_owners h hj hne]
  exact ha

/-- Tiles f to f + n - 1 assigned one after the other; the others, the placements, contexts and models stay. -/
def State.tilesAssigned (s t : State) (p f mode n : Nat) : Prop :=
  (∀ k, f ≤ k → k < f + n → t.assignedAs k p mode) ∧
    (∀ k, k < 1024 → ¬(f ≤ k ∧ k < f + n) → t.tileMode k = s.tileMode k ∧ t.tileOwners k = s.tileOwners k) ∧
    t.places = s.places ∧ t.ctxs = s.ctxs ∧ t.models = s.models

theorem assignTiles {f n : Nat} (hp : p < 64) (hf : f + n ≤ 1024) :
    s.tilesAssigned (s.each (List.range n) fun s k => s.assignTile p (f + k) mode) p f mode n := by
  refine each_range_induction (P := fun m t => s.tilesAssigned t p f mode m) ⟨fun k h1 h2 => by omega, fun k _ _ => ⟨rfl, rfl⟩, rfl, rfl, rfl⟩
    fun m t hm ⟨hin, hout, hpl, hctx, hmod⟩ => ?_
  have hone : t.tileOnly (t.assignTile p (f + m) mode) (f + m) := assignTile_tileOnly
  refine ⟨fun k h1 h2 => ?_, fun k hk hno => ?_, ?_, ?_, ?_⟩
  · rcases eq_or_ne k (f + m) with rfl | hne
    · exact assignTile_assignedAs (by omega) hp
    · exact assignedAs_congr hone (by omega) hne (hin k h1 (by omega))
  · have hne : k ≠ f + m := by omega
    obtain ⟨h1, h2⟩ := hout k hk (by omega)
    exact ⟨(tileOnly_mode hone hk hne).trans h1, (tileOnly_owners hone hk hne).trans h2⟩
  · rw [hone.1]
    exact hpl
  · rw [hone.1]
    exact hctx
  · rw [hone.1]
    exact hmod

/-- The number of tiles that partition p holds in a mode. -/
def State.tilesIn (s : State) (p mode : Nat) : Nat :=
  ((List.range 1024).filter fun k => s.tileMode k == mode && (s.tileOwners k).contains p).length

theorem countTiles_eq : s.countTiles p =
    (s.setFld (Reg.SEC_PART p) Fld.SEC_PART_EXCL (s.tilesIn p 1)).setFld (Reg.SEC_PART p) Fld.SEC_PART_SLICED (s.tilesIn p 2) := rfl

theorem tilesIn_lt : s.tilesIn p mode < 2 ^ 11 := by
  have h : s.tilesIn p mode ≤ (List.range 1024).length := List.length_filter_le _ _
  rw [List.length_range] at h
  omega

theorem secPart_not_belowRings : ¬belowRings (Reg.SEC_PART p).key := by
  simp only [belowRings, Reg.SEC_PART]
  omega

/-- The counts of a partition's tiles leave every tile as it was. -/
theorem countTiles_tile {k : Nat} (hk : k < 1024) :
    (s.countTiles p).tileMode k = s.tileMode k ∧ (s.countTiles p).tileOwners k = s.tileOwners k := by
  have hregs : s.keepsRegs (s.countTiles p) belowRings := by
    rw [countTiles_eq]
    exact keepsRegs_trans (keepsRegs_setFld secPart_not_belowRings) (keepsRegs_setFld secPart_not_belowRings)
  have hmode : (s.countTiles p).tileMode k = s.tileMode k := keepsRegs_fld hregs (belowRings_tileMap hk)
  have htile : (s.countTiles p).tile k = s.tile k := by
    rw [countTiles_eq, State.setFld_tile_acc, State.setFld_tile_acc]
  refine ⟨hmode, ?_⟩
  rw [State.tileOwners, State.tileOwners, hmode, keepsRegs_fld hregs (belowRings_tileMap hk), htile]

theorem tilesIn_congr (h : ∀ k, k < 1024 → t.tileMode k = s.tileMode k ∧ t.tileOwners k = s.tileOwners k) : t.tilesIn p mode = s.tilesIn p mode := by
  unfold State.tilesIn
  rw [List.filter_congr fun k hk => ?_]
  obtain ⟨hm, ho⟩ := h k (List.mem_range.mp hk)
  rw [hm, ho]

theorem countTiles_counts :
    (s.countTiles p).fld (Reg.SEC_PART p) Fld.SEC_PART_EXCL = (s.countTiles p).tilesIn p 1 ∧
      (s.countTiles p).fld (Reg.SEC_PART p) Fld.SEC_PART_SLICED = (s.countTiles p).tilesIn p 2 := by
  rw [tilesIn_congr fun k hk => countTiles_tile hk, tilesIn_congr fun k hk => countTiles_tile hk, countTiles_eq]
  obtain ⟨hexcl, hsliced, -⟩ := twoFields (s := s) (r := Reg.SEC_PART p) (f := Fld.SEC_PART_EXCL) (g := Fld.SEC_PART_SLICED)
    (x := s.tilesIn p 1) (y := s.tilesIn p 2) (by decide) (by decide) (by decide)
  exact ⟨hexcl.trans (Nat.mod_eq_of_lt tilesIn_lt), hsliced.trans (Nat.mod_eq_of_lt tilesIn_lt)⟩

end Sys2Proof.Machine

end


section
/-! PROOFS. The BUCKETS and TILES items of PART_SET (R236, R524, R541). -/

namespace Sys2Proof.Machine

/-! ## Memory written under one key -/

section
variable {m : Mem} {boot k x a n : Nat} {bs : List Byte}

/-- The unit of address x is blank, or was written under key k: the key may read it (R526). -/
def Mem.ofKey (m : Mem) (k x : Nat) : Prop := tget 0 m.keys (x / 256) = 0 ∨ tget 0 m.keys (x / 256) = k + 1

theorem Mem.write_keys {v : Nat} : tget 0 (m.write (some k) a bs).keys v = if v ∈ unitsOf a bs.length then k + 1 else tget 0 m.keys v := by
  rw [Mem.write_eq, Mem.putAll_keys, Mem.ready_keys]

theorem Mem.ofKey_write (h : m.ofKey k x) : (m.write (some k) a bs).ofKey k x := by
  unfold Mem.ofKey
  rw [Mem.write_keys]
  split
  · exact .inr rfl
  · exact h

theorem Mem.ofKey_written {i : Nat} (hi : i < bs.length) : (m.write (some k) a bs).ofKey k (a + i) :=
  .inr (by rw [Mem.write_keys, if_pos (mem_unitsOf.2 (by omega))])

theorem Mem.readByte_write_of_ofKey (hx : x < a ∨ a + bs.length ≤ x) (hk : m.ofKey k x) :
    (m.write (some k) a bs).readByte boot (some k) x = m.readByte boot (some k) x :=
  Mem.readByte_write_of_outside hx (.inr (.inr (.inr ⟨rfl, hk.imp_right fun h => ⟨k, rfl, h⟩⟩)))

/-- A range that a key may read and a write does not touch reads as before. -/
theorem Mem.read_write_of_ofKey {b : Nat} (hx : ∀ i, i < n → b + i < a ∨ a + bs.length ≤ b + i) (hk : ∀ i, i < n → m.ofKey k (b + i)) :
    (m.write (some k) a bs).read boot (some k) b n = m.read boot (some k) b n :=
  List.map_congr_left fun i hi => Mem.readByte_write_of_ofKey (hx i (List.mem_range.mp hi)) (hk i (List.mem_range.mp hi))

theorem Mem.read_write_self {key : Option Nat} : (m.write key a bs).read boot key a bs.length = bs := by
  refine List.ext_getElem mem_read_length fun i h1 h2 => ?_
  have h := mem_read_getElem? (m := m.write key a bs) (a := a) (boot := boot) (key := key) h2
  rw [List.getElem?_eq_getElem h1, Mem.readByte_write_getElem h2] at h
  exact Option.some.inj h

end

/-! ## The bucket table -/

variable {s t : State} {f n : Nat} {bs : List Byte}

/-- The address of RATE and BURST of the k-th bucket from f on. -/
def State.bktEntry (s : State) (f k : Nat) : Nat := s.bktAddr (f + k) + 4

theorem bktEntry_eq {k : Nat} : s.bktEntry f k = s.bktEntry f 0 + 16 * k := by
  simp only [State.bktEntry, State.bktAddr]
  omega

/-- The first m buckets from f on hold `bs`, and every byte outside them that the key of partition 0 may read is as before. -/
def State.bucketsHold (s t : State) (f m : Nat) (bs : List Byte) : Prop :=
  t = { s with mem := t.mem } ∧
    (∀ k, k < m → t.rdMem 0 (s.bktEntry f k) 8 = bs ∧ ∀ i, i < 8 → t.mem.ofKey (s.keyOf 0) (s.bktEntry f k + i)) ∧
    ∀ a, (∀ k, k < m → ¬(s.bktEntry f k ≤ a ∧ a < s.bktEntry f k + 8)) → s.mem.ofKey (s.keyOf 0) a →
      t.rdMem 0 a 1 = s.rdMem 0 a 1 ∧ t.mem.ofKey (s.keyOf 0) a

/-- One bucket more is written. -/
theorem bucketsHold_succ {m : Nat} (hbs : bs.length = 8) (h : s.bucketsHold t f m bs) :
    s.bucketsHold (t.wrMem 0 (t.bktAddr (f + m) + 4) bs) f (m + 1) bs := by
  obtain ⟨hframe, hin, hout⟩ := h
  have haddr : t.bktAddr (f + m) + 4 = s.bktEntry f m := by rw [hframe]; rfl
  have hkey : t.keyOf 0 = s.keyOf 0 := by rw [hframe]; rfl
  have hclk : t.clk = s.clk := by rw [hframe]
  rw [haddr, State.wrMem, hkey]
  have hread : ∀ a n, ({ t with mem := t.mem.write (some (s.keyOf 0)) (s.bktEntry f m) bs } : State).rdMem 0 a n =
      (t.mem.write (some (s.keyOf 0)) (s.bktEntry f m) bs).read t.clk.count (some (s.keyOf 0)) a n := fun a n => by
    rw [← hkey]
    rfl
  have hread0 : ∀ a n, t.rdMem 0 a n = t.mem.read t.clk.count (some (s.keyOf 0)) a n := fun a n => by
    rw [← hkey]
    rfl
  refine ⟨by rw [hframe], fun k hk => ?_, fun a ha hofKey => ?_⟩
  · rw [hread]
    rcases Nat.lt_succ_iff_lt_or_eq.mp hk with hlt | rfl
    · obtain ⟨hold, hkeys⟩ := hin k hlt
      refine ⟨?_, fun i hi => Mem.ofKey_write (hkeys i hi)⟩
      rw [Mem.read_write_of_ofKey (fun i hi => ?_) hkeys, ← hread0, hold]
      rw [bktEntry_eq (k := k), bktEntry_eq (k := m), hbs]
      omega
    · exact ⟨by rw [← hbs, Mem.read_write_self], fun i hi => Mem.ofKey_written (by omega)⟩
  · obtain ⟨hold, hkeys⟩ := hout a (fun k hk => ha k (by omega)) hofKey
    rw [hread]
    refine ⟨?_, Mem.ofKey_write hkeys⟩
    have hm := ha m (by omega)
    rw [Mem.read_write_of_ofKey (fun i hi => by omega) fun i hi => ?_, ← hread0, hold]
    obtain rfl : i = 0 := by omega
    exact hkeys

theorem bucketsHold_each (hbs : bs.length = 8) :
    s.bucketsHold (s.each (List.range n) fun s k => s.wrMem 0 (s.bktAddr (f + k) + 4) bs) f n bs :=
  each_range_induction (P := fun m t => s.bucketsHold t f m bs) ⟨rfl, fun k hk => absurd hk (by omega), fun _ _ h => ⟨rfl, h⟩⟩
    fun _ _ _ ht => bucketsHold_succ hbs ht

theorem applyItem_buckets {p : Nat} {len first count : BitVec 16} {rsv refill burst : BitVec 32}
    (ht : t = s.applyItem p (.buckets len rsv first count refill burst)) :
    t = { s with mem := t.mem, sched := { s.sched with bkts := (first.toNat, count.toNat, refill.toNat, burst.toNat) :: s.sched.bkts } } ∧
      (∀ k, k < count.toNat → t.rdMem 0 (s.bktAddr (first.toNat + k) + 4) 8 = leBytes 4 refill.toNat ++ leBytes 4 burst.toNat) ∧
      ∀ a, (∀ k, k < count.toNat → ¬(s.bktAddr (first.toNat + k) + 4 ≤ a ∧ a < s.bktAddr (first.toNat + k) + 12)) →
        (tget 0 s.mem.keys (a / 256) = 0 ∨ tget 0 s.mem.keys (a / 256) = s.keyOf 0 + 1) → t.rdMem 0 a 1 = s.rdMem 0 a 1 := by
  unfold State.applyItem at ht
  dsimp only at ht
  have h := bucketsHold_each (s := s) (f := first.toNat) (n := count.toNat) (bs := leBytes 4 refill.toNat ++ leBytes 4 burst.toNat)
    (by rw [List.length_append, leBytes_length, leBytes_length])
  generalize s.each (List.range count.toNat) (fun s k =>
    s.wrMem 0 (s.bktAddr (first.toNat + k) + 4) (leBytes 4 refill.toNat ++ leBytes 4 burst.toNat)) = u at ht h
  obtain ⟨hframe, hin, hout⟩ := h
  have hread : ∀ a n, t.rdMem 0 a n = u.rdMem 0 a n := fun a n => by rw [ht]; rfl
  refine ⟨by rw [ht, hframe], fun k hk => ?_, fun a ha hk => ?_⟩
  · rw [hread]
    exact (hin k hk).1
  · rw [hread]
    exact (hout a ha hk).1

end Sys2Proof.Machine

namespace Sys2Proof

open Machine

/-- Settles O33: the buckets are written one after the other, 16 bytes apart, and each tile of the range is assigned once. -/
theorem partSetAssignsBucketsAndTiles : Obligations.PartSetAssignsBucketsAndTiles := by
  intro s p len f n rsv hp
  refine ⟨fun refill burst t ht => applyItem_buckets ht, fun mode r5 t ht hmode hf => ?_⟩
  obtain ⟨hin, hout, hpl, hctx, hmod⟩ := assignTiles (s := s) (f := f.toNat) (n := n.toNat) (mode := mode.toNat) hp hf
  unfold State.applyItem at ht
  dsimp only at ht
  generalize s.each (List.range n.toNat) (fun s k => s.assignTile p (f.toNat + k) mode.toNat) = u at ht hin hout hpl hctx hmod
  have htile : ∀ k, k < 1024 → t.tileMode k = u.tileMode k ∧ t.tileOwners k = u.tileOwners k := fun k hk => by
    rw [ht]
    exact countTiles_tile hk
  have hcounts := countTiles_counts (s := u) (p := p)
  have hframe : t = { u with regs := t.regs } := by
    rw [ht, countTiles_eq]
    exact setFld_setFld_frame
  rw [← ht] at hcounts
  refine ⟨fun k h1 h2 => ?_, fun k hk hno => ?_, hcounts.1, hcounts.2, fun k => ?_, fun k => ?_, fun k => ?_⟩
  · obtain ⟨ha, hb, hc⟩ := hin k h1 h2
    obtain ⟨hm, ho⟩ := htile k (by omega)
    rw [hm, ho]
    exact ⟨fun e => ha (by rw [e]; rfl), fun e => hb (by rw [e]; rfl), fun e => hc (by rw [e]; rfl)⟩
  · obtain ⟨hm, ho⟩ := htile k hk
    obtain ⟨hm', ho'⟩ := hout k hk hno
    exact ⟨hm.trans hm', ho.trans ho'⟩
  · rw [State.place, hframe, State.place, ← hpl]
  · rw [State.ctx, hframe, State.ctx, ← hctx]
  · rw [State.model, hframe, State.model, ← hmod]

end Sys2Proof
end


section
/-! PROOFS. PART_SET: its items in order, every one or none (R306). -/

namespace Sys2Proof.Machine

variable {s u : State} {issuer p len : Nat}

theorem itemChk_cases {n o : Nat} {i : PsItem} {xs : List PsItem} {pads : List Nat} (h : itemMisfit i (pads.headD 0) o len = none) :
    State.runItems issuer p len (n + 1) o (i :: xs) pads s =
      if s.itemChk issuer p o i = .pass then State.runItems issuer p len n (o + i.size) xs (pads.drop 1) (s.applyItem p i)
      else .inr (s.itemChk issuer p o i) := by
  rw [State.runItems, h]
  dsimp only
  cases hc : s.itemChk issuer p o i with
  | pass => rfl
  | _ => rfl

/-- Where every check passes, the items are all there and each has been applied to what the earlier ones leave. -/
theorem runItems_applied : ∀ {n o : Nat} {items : List PsItem} {pads : List Nat} {s : State},
    State.runItems issuer p len n o items pads s = .inl u →
      n ≤ items.length ∧ u = (items.take n).foldl (fun s i => s.applyItem p i) s
  | 0, o, items, pads, s, h => by
    rw [State.runItems] at h
    split at h
    · exact ⟨Nat.zero_le _, (Sum.inl.inj h).symm⟩
    · cases h
  | n + 1, o, [], pads, s, h => by cases h
  | n + 1, o, i :: xs, pads, s, h => by
    cases hfit : itemMisfit i (pads.headD 0) o len with
    | some k =>
      rw [State.runItems, hfit] at h
      cases h
    | none =>
      rw [itemChk_cases hfit] at h
      split at h
      · obtain ⟨hlen, hu⟩ := runItems_applied h
        exact ⟨Nat.succ_le_succ hlen, hu⟩
      · cases h

/-- A refusal names a failing check. -/
theorem runItems_refused {k : Chk} : ∀ {n o : Nat} {items : List PsItem} {pads : List Nat} {s : State},
    State.runItems issuer p len n o items pads s = .inr k → k ≠ .pass
  | 0, o, items, pads, s, h => by
    rw [State.runItems] at h
    split at h
    · cases h
    · cases h
      simp
  | n + 1, o, [], pads, s, h => by
    cases h
    simp
  | n + 1, o, i :: xs, pads, s, h => by
    cases hfit : itemMisfit i (pads.headD 0) o len with
    | some j =>
      rw [State.runItems, hfit] at h
      cases h
      simp
    | none =>
      rw [itemChk_cases hfit] at h
      split at h
      · exact runItems_refused h
      · next hc =>
        cases h
        exact hc

theorem busyPlaces_isEmpty_iff {ls : List Nat} : (s.busyPlaces ls).isEmpty = true ↔ ∀ l ∈ ls, (s.place l).step = none := by
  rw [List.isEmpty_iff, State.busyPlaces, List.filter_eq_nil_iff]
  simp only [Bool.not_eq_true, Option.isSome_eq_false_iff, Option.isNone_iff_eq_none]

variable {h : Hdr} {ps : PsHead} {items : List PsItem}

theorem serve_partSet (hp : s.partExists h.fn = true) : s.serve h (.partSet ps items) = s.svcPartSet h ps items := by
  rw [State.serve, hp]
  rfl

/-- The checks of a PART_SET before its items (R306). -/
def State.partSetChks (s : State) (h : Hdr) (ps : PsHead) : List Chk :=
  [chkForm (decide (ps.target.toNat < 64) && (h.fn != 0 || s.partExists ps.target.toNat)) 0,
    chkId (h.fn == 0 || ps.target.toNat == h.fn) ps.target.toNat, chkForm (1 ≤ ps.nItems.toNat && ps.nItems.toNat ≤ 14) 1, chkForm (ps.rsv == 0) 2]

/-- The header of a PART_SET is in order: its target, the number of its items and its reserved byte. -/
theorem partSetChks_pass (hlt : ps.target.toNat < 64) (hex : h.fn = 0 → s.partExists ps.target.toNat = true)
    (hown : h.fn = 0 ∨ ps.target.toNat = h.fn) (h1 : 1 ≤ ps.nItems.toNat) (h14 : ps.nItems.toNat ≤ 14) (hrsv : ps.rsv = 0) :
    firstFail (s.partSetChks h ps) = .pass := by
  have hexists : (h.fn != 0 || s.partExists ps.target.toNat) = true := by
    by_cases h0 : h.fn = 0
    · simp [h0, hex h0]
    · simp [h0]
  have hown' : (h.fn == 0 || ps.target.toNat == h.fn) = true := by
    rcases hown with e | e <;> simp [e]
  simp [State.partSetChks, chkForm, chkId, firstFail, hlt, hexists, hown', h1, h14, hrsv]

theorem svcPartSet_of_applied (hhead : firstFail (s.partSetChks h ps) = .pass)
    (hrun : State.runItems h.fn ps.target.toNat h.length.toNat ps.nItems.toNat 8 items ps.pads s = .inl u) : s.svcPartSet h ps items =
      (if ((u.idleCairns ps.target.toNat).busyPlaces ((u.idleCairns ps.target.toNat).placesOf ps.target.toNat)).isEmpty then
        (u.idleCairns ps.target.toNat).freeRun ps.target.toNat else u.idleCairns ps.target.toNat).reply h 0x42 stOK 0 0 := by
  unfold State.svcPartSet
  refine (checked_of_pass hhead).trans ?_
  dsimp only
  rw [hrun]

theorem svcPartSet_of_refused {k : Chk} (hhead : firstFail (s.partSetChks h ps) = .pass)
    (hrun : State.runItems h.fn ps.target.toNat h.length.toNat ps.nItems.toNat 8 items ps.pads s = .inr k) :
    s.svcPartSet h ps items = s.fail h 0x42 k := by
  unfold State.svcPartSet
  refine (checked_of_pass hhead).trans ?_
  dsimp only
  rw [hrun]

end Sys2Proof.Machine

namespace Sys2Proof

open Machine

/-- Settles O31, by induction on the number of items; the order of an item's own checks is log entry 54. -/
theorem partSetAppliesEveryItemOrNone : Obligations.PartSetAppliesEveryItemOrNone := by
  intro c h ps items s b p hc ht hb hp hlt hex hown h1 h14 hrsv
  subst hp
  have hexec := exec_served hc ht fun _ hu => serve_partSet hu
  have hhead := partSetChks_pass hlt hex hown h1 h14 hrsv
  rw [← hb] at hexec
  refine ⟨fun u hu => ?_, fun k hk => ?_⟩
  · rw [svcPartSet_of_applied hhead hu] at hexec
    obtain ⟨hlen, hfold⟩ := runItems_applied hu
    refine ⟨hlen, hfold, fun ⟨l, hl, hstep⟩ => ?_, fun hidle => ?_⟩
    · rw [hexec, if_neg fun he => ?_]
      rw [busyPlaces_isEmpty_iff.mp he l hl] at hstep
      cases hstep
    · rw [hexec, if_pos (busyPlaces_isEmpty_iff.mpr hidle)]
  · rw [svcPartSet_of_refused hhead hk] at hexec
    exact ⟨runItems_refused hk, hexec⟩

end Sys2Proof
end


section
/-! PROOFS. CAIRN, FENCE and RIDGE (R226, R227, R299, R433). -/

namespace Sys2Proof.Machine

/-! ## A repeated operation of which one step acts -/

/-- Where one step alone acts, before it on `s` and after it on `v`, the whole is that step. -/
theorem each_once {α : Type} {s v : State} {xs : List α} {g : State → α → State} {x : α} (hx : x ∈ xs) (hnd : xs.Nodup)
    (hbefore : ∀ y, y ≠ x → g s y = s) (hgo : g s x = v) (hafter : ∀ y, y ≠ x → g v y = v) : s.each xs g = v := by
  obtain ⟨l, r, rfl⟩ := List.append_of_mem hx
  have hl : x ∉ l := fun h => (List.nodup_append.mp hnd).2.2 x h x (by simp) rfl
  have hr : x ∉ r := (List.nodup_cons.mp (List.nodup_append.mp hnd).2.1).1
  have h1 : s.each l g = s := each_eq_self fun y hy => hbefore y fun e => hl (e ▸ hy)
  have h2 : v.each r g = v := each_eq_self fun y hy => hafter y fun e => hr (e ▸ hy)
  unfold State.each at h1 h2 ⊢
  rw [List.foldl_append, List.foldl_cons, h1, hgo, h2]

theorem tins_tins {α : Type} {i : Nat} {x y : α} {t : Tbl α} : tins i y (tins i x t) = tins i y t := by
  induction t with
  | nil => simp [tins]
  | cons e t ih =>
    obtain ⟨k, z⟩ := e
    by_cases h1 : i < k
    · simp [tins, h1]
    · by_cases h2 : i = k
      · simp [tins, h2]
      · simp [tins, h1, h2, ih]

/-! ## A D-class packet that is taken -/

section
variable {s : State} {h : Hdr}

theorem takePacket_pair_self : (s.takePacket h).pair h.fn h.ring =
    { s.pair h.fn h.ring with open_ := (s.pair h.fn h.ring).open_ ++ [h.seq.toNat] } := State.pair_setPair_self

theorem takePacket_pairs : (s.takePacket h).pairs = tset {} s.pairs (pairKey h.fn h.ring)
    { s.pair h.fn h.ring with open_ := (s.pair h.fn h.ring).open_ ++ [h.seq.toNat] } := by
  have hframe := fetchedRegs_frame (s := s.passRing h) (h := h) (head := s.headAfter h)
  rw [takePacket_eq]
  generalize (s.passRing h).fetchedRegs h (s.headAfter h) = u at hframe ⊢
  rw [hframe]
  rfl

theorem takePacket_pairs_ne {k : Nat} (hk : k ≠ pairKey h.fn h.ring) : tget {} (s.takePacket h).pairs k = tget {} s.pairs k := by
  rw [takePacket_pairs, tget_tset_ne hk]

/-- A fetch changes registers, pairs and the arbiters' pointers alone. -/
theorem takePacket_agrees : ∃ r p c, s.takePacket h = { s with regs := r, pairs := p, sched := c } := ⟨_, _, _, takePacket_frame⟩

theorem takePacket_pair_ne {k : Nat} (hk : k ≠ h.ring) : (s.takePacket h).pair h.fn k = s.pair h.fn k :=
  takePacket_pairs_ne (by simp only [pairKey]; omega)

theorem firstFail_append_pass {l : List Chk} (h : firstFail l = .pass) {r : List Chk} : firstFail (l ++ r) = firstFail r := by
  induction l with
  | nil => rfl
  | cons c l ih =>
    cases c with
    | pass => exact ih h
    | _ => cases h

theorem firstFail_append_pass_pass {l r : List Chk} (hl : firstFail l = .pass) (hr : firstFail r = .pass) : firstFail (l ++ r) = .pass :=
  (firstFail_append_pass hl).trans hr

/-! ## CAIRN -/

theorem any_eq_false_iff {α : Type} {l : List α} {q : α → Bool} : l.any q = false ↔ ∀ x ∈ l, q x = false := by
  simp

/-- The wait of a CAIRN that names placements of its partition (R227). -/
def State.cairnWait (s : State) (h : Hdr) (named : List Nat) : CairnWait :=
  { h := h, named := named, wait := s.busyPlaces named, queued := (s.proc 0).queue.any (setsPart h.fn), ops := s.swapsOf named }

/-- A CAIRN waits for nothing: every placement named is between steps, no packet that sets its partition waits, and no swap is in
progress. -/
theorem cairnDone_iff {named : List Nat} : s.cairnDone (s.cairnWait h named) = true ↔
    (∀ l ∈ named, (s.place l).step = none) ∧ (∀ x ∈ (s.proc 0).queue, setsPart h.fn x = false) ∧ ∀ k ∈ s.swapsOf named, s.longOf k = none := by
  simp only [State.cairnDone, State.cairnWait, Bool.and_eq_true, Bool.not_eq_true', busyPlaces_isEmpty_iff, any_eq_false_iff, List.all_eq_true,
    Option.isNone_iff_eq_none, and_assoc]

theorem exec_cairn {placement : BitVec 16} {named : List Nat} (ht : s.takesD h 0x08 8)
    (hnamed : named = if placement.toNat = 0xFFFF then (s.takePacket h).placesOf h.fn else [placement.toNat])
    (hchk : firstFail (if placement.toNat = 0xFFFF then [] else (s.takePacket h).chkPlace h.fn placement.toNat 0) = .pass) :
    exec (.cairn h placement 0) s = .next (if (s.takePacket h).cairnDone ((s.takePacket h).cairnWait h named) then (s.takePacket h).reply h 0x08 stOK 0 0
      else (s.takePacket h).setPair h.fn h.ring { (s.takePacket h).pair h.fn h.ring with
        cairns := ((s.takePacket h).pair h.fn h.ring).cairns ++ [(s.takePacket h).cairnWait h named] }) := by
  subst hnamed
  show Host.Outcome.next (s.dPacket h 0x08 8 _) = _
  rw [dPacket_of_takesD ht]
  exact congrArg Host.Outcome.next (checked_of_pass (firstFail_append_pass_pass hchk rfl))

theorem takePacket_place {l : Nat} : (s.takePacket h).place l = s.place l := by
  obtain ⟨_, _, _, hframe⟩ := takePacket_agrees (s := s) (h := h)
  rw [hframe]
  rfl

theorem takePacket_longOf {k : Nat} : (s.takePacket h).longOf k = s.longOf k := by
  obtain ⟨_, _, _, hframe⟩ := takePacket_agrees (s := s) (h := h)
  rw [hframe]
  rfl

theorem takePacket_swapsOf {named : List Nat} : (s.takePacket h).swapsOf named = s.swapsOf named := by
  obtain ⟨_, _, _, hframe⟩ := takePacket_agrees (s := s) (h := h)
  rw [hframe]
  rfl

theorem takePacket_busyPlaces {named : List Nat} : (s.takePacket h).busyPlaces named = s.busyPlaces named := by
  obtain ⟨_, _, _, hframe⟩ := takePacket_agrees (s := s) (h := h)
  rw [hframe]
  rfl

theorem takePacket_cairnWait {named : List Nat} : (s.takePacket h).cairnWait h named = s.cairnWait h named := by
  rw [State.cairnWait, takePacket_busyPlaces, takePacket_proc, takePacket_swapsOf]
  rfl

theorem takePacket_cairnDone {c : CairnWait} : (s.takePacket h).cairnDone c = s.cairnDone c := by
  obtain ⟨_, _, _, hframe⟩ := takePacket_agrees (s := s) (h := h)
  rw [hframe]
  rfl

end

/-! ## FENCE -/

section
variable {s : State} {h : Hdr} {w : Nat} {waits : List (Nat × List Nat)}

/-- Every packet that a FENCE of function f waits for has had its final reply (R299). -/
def State.fenceMet (s : State) (f : Nat) (waits : List (Nat × List Nat)) : Bool :=
  waits.all fun w => w.2.all fun q => !((s.pair f w.1).open_.contains q)

/-- The one FENCE of a function that waits holds its ring. -/
theorem fenceSweep_of_waiting (hf : (s.pair h.fn h.ring).fence = some (h, w, waits)) (hother : ∀ k, k ≠ h.ring → (s.pair h.fn k).fence = none)
    (hmet : s.fenceMet h.fn waits = false) : s.fenceSweep h.fn = s := by
  have hpass : s.fencePass h.fn = s := each_eq_self fun k _ => by
    dsimp only
    rcases eq_or_ne k h.ring with rfl | hk
    · rw [hf]
      exact if_neg fun e : s.fenceMet h.fn waits = true => by simp [hmet] at e
    · rw [hother k hk]
  exact each_eq_self fun _ _ => hpass

theorem post_fence {o : Out} {f r k : Nat} : ((s.post f r o).pair f k).fence = (s.pair f k).fence := by
  rw [post_eq]
  split
  · by_cases hk : pairKey f k = pairKey f r
    · unfold State.pair
      rw [hk]
      simp [State.setPair, State.pair]
    · unfold State.pair State.setPair
      rw [tget_tset_ne hk]
  · rw [State.bump_pair_acc]

/-- The one FENCE of a function that is met, of an enabled pair and not QUIET, writes its reply. -/
theorem fenceSweep_of_met (hr : h.ring < 17) (hf : (s.pair h.fn h.ring).fence = some (h, w, waits))
    (hother : ∀ k, k ≠ h.ring → (s.pair h.fn k).fence = none) (hmet : s.fenceMet h.fn waits = true) (hloud : bitOf h.flags.toNat 0 = false)
    (hon : s.pairOn h.fn h.ring = true) : s.fenceSweep h.fn =
      (s.setPair h.fn h.ring { s.pair h.fn h.ring with fence := none }).post h.fn h.ring (replyOut h 0x0A stOK 0 0 true 0) := by
  have hnone : ∀ k, (((s.setPair h.fn h.ring { s.pair h.fn h.ring with fence := none }).post h.fn h.ring
      (replyOut h 0x0A stOK 0 0 true 0)).pair h.fn k).fence = none := fun k => by
    rw [post_fence]
    rcases eq_or_ne k h.ring with rfl | hk
    · rw [State.pair_setPair_self]
    · rw [State.pair, State.setPair, tget_tset_ne (by simp only [pairKey]; omega)]
      exact hother k hk
  have hpass : s.fencePass h.fn =
      (s.setPair h.fn h.ring { s.pair h.fn h.ring with fence := none }).post h.fn h.ring (replyOut h 0x0A stOK 0 0 true 0) := by
    refine each_once (List.mem_range.mpr hr) List.nodup_range (fun k hk => ?_) ?_ fun k _ => ?_
    · dsimp only
      rw [hother k hk]
    · dsimp only
      rw [hf]
      refine (if_pos hmet).trans ?_
      rw [if_neg (by simp [hloud]), hon]
      rfl
    · dsimp only
      rw [hnone k]
  unfold State.fenceSweep
  generalize (s.setPair h.fn h.ring { s.pair h.fn h.ring with fence := none }).post h.fn h.ring (replyOut h 0x0A stOK 0 0 true 0) = v
    at hpass hnone ⊢
  have hstay : v.fencePass h.fn = v := each_eq_self fun k _ => by
    dsimp only
    rw [hnone k]
  have hrest : v.each ((List.range 16).map Nat.succ) (fun s _ => s.fencePass h.fn) = v := each_eq_self fun _ _ => hstay
  rw [List.range_succ_eq_map]
  unfold State.each at hrest ⊢
  rw [List.foldl_cons, hpass, hrest]

/-- The packets that a FENCE waits for: those accepted before it on the rings of its mask. -/
def State.fenceWaits (s : State) (h : Hdr) (mask : Nat) : List (Nat × List Nat) :=
  ((List.range 17).filter fun r => bitOf mask r).map fun r => (r, (s.pair h.fn r).open_.filter fun q => !(r == h.ring && q == h.seq.toNat))

theorem exec_fence {mask : BitVec 32} (ht : s.takesD h 0x0A 8) (h0 : mask ≠ 0) (hlt : mask.toNat < 2 ^ 17) :
    exec (.fence h mask 0) s = .next (((s.takePacket h).setPair h.fn h.ring { (s.takePacket h).pair h.fn h.ring with
      fence := some (h, (s.takePacket h).now, (s.takePacket h).fenceWaits h mask.toNat) }).fenceSweep h.fn) := by
  show Host.Outcome.next (s.dPacket h 0x0A 8 _) = _
  rw [dPacket_of_takesD ht]
  refine congrArg Host.Outcome.next (checked_of_pass ?_)
  have hmask : (mask != 0 && decide (mask.toNat < 2 ^ 17)) = true := by rw [Bool.and_eq_true, bne_iff_ne, decide_eq_true_eq]; exact ⟨h0, hlt⟩
  rw [hmask]
  rfl

/-- The state in which a FENCE has been accepted. -/
def State.fenced (s : State) (h : Hdr) (mask : Nat) : State :=
  (s.takePacket h).setPair h.fn h.ring { (s.takePacket h).pair h.fn h.ring with
    fence := some (h, (s.takePacket h).now, (s.takePacket h).fenceWaits h mask) }

variable {mask : Nat}

theorem fenced_pair_self : (s.fenced h mask).pair h.fn h.ring = { (s.takePacket h).pair h.fn h.ring with
    fence := some (h, (s.takePacket h).now, (s.takePacket h).fenceWaits h mask) } := State.pair_setPair_self

theorem fenced_pairs_ne {k : Nat} (hk : k ≠ pairKey h.fn h.ring) : tget {} (s.fenced h mask).pairs k = tget {} s.pairs k := by
  rw [State.fenced, State.setPair, tget_tset_ne hk, takePacket_pairs_ne hk]

theorem fenced_pair_ne {k : Nat} (hk : k ≠ h.ring) : (s.fenced h mask).pair h.fn k = s.pair h.fn k :=
  fenced_pairs_ne (by simp only [pairKey]; omega)

theorem fenced_open {k : Nat} : ((s.fenced h mask).pair h.fn k).open_ = ((s.takePacket h).pair h.fn k).open_ := by
  rcases eq_or_ne k h.ring with rfl | hk
  · rw [fenced_pair_self]
  · rw [fenced_pair_ne hk, takePacket_pair_ne hk]

/-- A FENCE is met where the packets before it on its rings have all been answered. -/
theorem fenceMet_of_answered (hother : ∀ r, r < 17 → bitOf mask r = true → r ≠ h.ring → (s.pair h.fn r).open_ = [])
    (hself : bitOf mask h.ring = true → (s.pair h.fn h.ring).open_ = []) :
    (s.fenced h mask).fenceMet h.fn ((s.takePacket h).fenceWaits h mask) = true := by
  rw [State.fenceMet, List.all_eq_true]
  intro x hx
  obtain ⟨r, hr, rfl⟩ := List.mem_map.mp hx
  obtain ⟨hlt, hbit⟩ := List.mem_filter.mp hr
  have hnil : ((s.takePacket h).pair h.fn r).open_.filter (fun q => !(r == h.ring && q == h.seq.toNat)) = [] := by
    rcases eq_or_ne r h.ring with rfl | hne
    · rw [takePacket_pair_self]
      simp [hself hbit]
    · rw [takePacket_pair_ne hne, hother r (List.mem_range.mp hlt) hbit hne]
      rfl
  dsimp only
  rw [hnil]
  rfl

/-- A FENCE waits where a packet on another of its rings has not been answered. -/
theorem fenceMet_of_open {r q : Nat} (hr : r < 17) (hbit : bitOf mask r = true) (hne : r ≠ h.ring) (hq : q ∈ (s.pair h.fn r).open_) :
    (s.fenced h mask).fenceMet h.fn ((s.takePacket h).fenceWaits h mask) = false := by
  rw [State.fenceMet, List.all_eq_false]
  refine ⟨_, List.mem_map.mpr ⟨r, List.mem_filter.mpr ⟨List.mem_range.mpr hr, hbit⟩, rfl⟩, ?_⟩
  rw [Bool.not_eq_true, List.all_eq_false]
  refine ⟨q, List.mem_filter.mpr ⟨by rw [takePacket_pair_ne hne]; exact hq, by simp [hne]⟩, ?_⟩
  rw [fenced_pair_ne hne]
  simpa using hq

/-- A FENCE set in a pair and taken out of it again leaves the pair as it was. -/
theorem setPair_fence_released {b : State} {ps : Tbl Pair} {f r : Nat} {y : Hdr × Nat × List (Nat × List Nat)}
    (hpairs : b.pairs = tset {} ps (pairKey f r) (b.pair f r)) (hx : b.pair f r ≠ {}) (hnone : (b.pair f r).fence = none) :
    (b.setPair f r { b.pair f r with fence := some y }).setPair f r
      { (b.setPair f r { b.pair f r with fence := some y }).pair f r with fence := none } = b := by
  have hself : ({ b.pair f r with fence := none } : Pair) = b.pair f r := by rw [← hnone]
  have hy : ({ b.pair f r with fence := some y } : Pair) ≠ {} := fun e => by cases congrArg Pair.fence e
  have hback : tset {} (tset {} b.pairs (pairKey f r) { b.pair f r with fence := some y }) (pairKey f r) (b.pair f r) = b.pairs := by
    conv_lhs => rw [hpairs]
    unfold tset
    rw [if_neg hx, if_neg hy, if_neg hx, tins_tins, tins_tins]
    rw [hpairs, tset, if_neg hx]
  rw [State.pair_setPair_self]
  dsimp only
  rw [hself]
  unfold State.setPair
  dsimp only
  rw [hback]

theorem takePacket_pair_ne_default : (s.takePacket h).pair h.fn h.ring ≠ {} := fun e => by
  have ho := congrArg Pair.open_ e
  rw [takePacket_pair_self] at ho
  simp at ho

/-- A FENCE that is met at once leaves nothing of it in its pair. -/
theorem fenced_released (hnone : (s.pair h.fn h.ring).fence = none) :
    (s.fenced h mask).setPair h.fn h.ring { (s.fenced h mask).pair h.fn h.ring with fence := none } = s.takePacket h :=
  setPair_fence_released (by rw [takePacket_pair_self, takePacket_pairs]) takePacket_pair_ne_default (by rw [takePacket_pair_self, hnone])

theorem takesD_asks {op len : Nat} (ht : s.takesD h op len) :
    h.ring < 17 ∧ s.pairOn h.fn h.ring = true ∧ (s.pair h.fn h.ring).fence = none := by
  obtain ⟨⟨hf, -⟩, -⟩ := ht
  simp only [State.fetchable, State.ringAsks, Bool.and_eq_true, decide_eq_true_eq, Option.isNone_iff_eq_none] at hf
  exact ⟨hf.1.1.2, hf.1.2.1.1.1.2, hf.1.2.1.2⟩

theorem fenced_pairOn : (s.fenced h mask).pairOn h.fn h.ring = s.pairOn h.fn h.ring := by
  have hregs : (s.fenced h mask).regs = (s.takePacket h).regs := by rw [State.fenced, setPair_regs]
  refine keepsRegs_flag (P := notIndices h) (keepsRegs_trans takePacket_keepsRegs (keepsRegs_of_regs hregs)) ?_
  simp only [notIndices, Reg.SCH_RING_CFG, Reg.SCH_RING_IDX, Reg.SCH_RING_STAT]
  omega

theorem fenced_frame : s.fenced h mask = { s.takePacket h with pairs := (s.fenced h mask).pairs } := rfl

theorem fetchable_of_fence {g : Hdr} (hg : (s.pair g.fn g.ring).fence.isSome = true) : s.fetchable g = false := by
  have hnone : (s.pair g.fn g.ring).fence.isNone = false := by
    rw [← Option.not_isSome, hg]
    rfl
  rw [State.fetchable, State.ringAsks, hnone]
  simp

end

/-! ## RIDGE -/

section
variable {s : State} {h : Hdr}

/-- A RIDGE's window for the quadrants of placement l (R433). -/
def State.ridgeWindow (s : State) (l lead load duration : Nat) : RWin :=
  { quads := ((s.place l).cfg.tiles.map (· / 256)).eraseDups, boostAt := s.now + 1000 * (lead - 20), start := s.now + 1000 * lead,
    stop := s.now + 1000 * (lead + duration), load := load }

/-- A RIDGE recorded and counted (R433). -/
def State.ridgeRecorded (s : State) (l lead load duration : Nat) : State :=
  { s with power := { s.power with windows := s.power.windows ++ [s.ridgeWindow l lead load duration] } }.bump Reg.POW_CNT Fld.POW_CNT_RIDGE

section
variable {l lead load duration : Nat}

theorem ridgeRecorded_frame : s.ridgeRecorded l lead load duration = { s with
    regs := (s.ridgeRecorded l lead load duration).regs,
    power := { s.power with windows := s.power.windows ++ [s.ridgeWindow l lead load duration] } } := by
  unfold State.ridgeRecorded State.bump
  rw [bumpBy_eq]

theorem ridgeRecorded_fields : s.fieldsBut (s.ridgeRecorded l lead load duration) [(Reg.POW_CNT, Fld.POW_CNT_RIDGE)] :=
  fieldsBut_trans (fieldsBut_of_regs rfl) (fieldsBut_bump (by simp))

theorem ridgeRecorded_counts : (s.ridgeRecorded l lead load duration).fld Reg.POW_CNT Fld.POW_CNT_RIDGE =
    min (s.fld Reg.POW_CNT Fld.POW_CNT_RIDGE + 1) (2 ^ Fld.POW_CNT_RIDGE.w - 1) := by
  unfold State.ridgeRecorded State.bump
  rw [fld_bumpBy (by decide) State.fld_lt]
  rfl

end

theorem takePacket_now : (s.takePacket h).now = s.now := by rw [takePacket_frame]

theorem exec_ridge {placement lead load duration : BitVec 16} (ht : s.takesD h 0x09 8)
    (hchk : firstFail ((s.takePacket h).chkPlace h.fn placement.toNat 0) = .pass) (h1 : 1 ≤ lead.toNat) (h100 : lead.toNat ≤ 100)
    (hd : duration ≠ 0) : exec (.ridge h placement lead load duration) s = .next ((if (s.takePacket h).alive 1 then
        ((s.takePacket h).ridgeRecorded placement.toNat lead.toNat load.toNat duration.toNat).freshBoost
      else (s.takePacket h).bump Reg.POW_CNT Fld.POW_CNT_RIDGE_IGN).reply h 0x09 stOK 0 0) := by
  show Host.Outcome.next (s.dPacket h 0x09 8 _) = _
  rw [dPacket_of_takesD ht]
  refine congrArg Host.Outcome.next (checked_of_pass (firstFail_append_pass_pass hchk ?_))
  have hlead : (decide (1 ≤ lead.toNat) && decide (lead.toNat ≤ 100)) = true := by simp [h1, h100]
  have hdur : (duration != 0) = true := bne_iff_ne.mpr hd
  rw [hlead, hdur]
  rfl

end

end Sys2Proof.Machine

namespace Sys2Proof

open Machine

/-- Settles O27; that a CAIRN also waits for queued PART_SET, PLACE and MODEL_SWAP packets and for swaps is log entry 25. -/
theorem orderingPacketsWaitOrReply : Obligations.OrderingPacketsWaitOrReply := by
  refine ⟨fun s h placement b named hb hnamed ht hchk => ?_, fun s h mask b hb ht h0 hlt hother => ?_,
    fun s h placement lead load duration b hb ht hchk h1 h100 hd => ?_⟩ <;> subst hb
  · rw [exec_cairn ht hnamed hchk, takePacket_cairnWait, takePacket_cairnDone]
    refine ⟨fun hstep hqueue hops => ?_, fun hwait => ?_⟩
    · rw [if_pos (cairnDone_iff.mpr ⟨hstep, hqueue, hops⟩)]
    · rw [if_neg fun hdone => ?_]
      · rfl
      · obtain ⟨hstep, hqueue, hops⟩ := cairnDone_iff.mp hdone
        rcases hwait with ⟨l, hl, hsome⟩ | ⟨x, hx, hsets⟩ | ⟨k, hk, hsome⟩
        · simp [hstep l hl] at hsome
        · simp [hqueue x hx] at hsets
        · simp [hops k hk] at hsome
  · rw [exec_fence ht h0 hlt]
    obtain ⟨hring, hon, hnone⟩ := takesD_asks ht
    have hothers : ∀ k, k ≠ h.ring → ((s.fenced h mask.toNat).pair h.fn k).fence = none := fun k hk => by
      rw [fenced_pair_ne hk, hother k hk]
    have hfence : ((s.fenced h mask.toNat).pair h.fn h.ring).fence =
        some (h, (s.takePacket h).now, (s.takePacket h).fenceWaits h mask.toNat) := by rw [fenced_pair_self]
    refine ⟨fun hopen hself hloud => ?_, fun r q hr hbit hne hq => ?_⟩
    · show Host.Outcome.next ((s.fenced h mask.toNat).fenceSweep h.fn) = _
      rw [fenceSweep_of_met hring hfence hothers (fenceMet_of_answered hopen hself) hloud (fenced_pairOn.trans hon), fenced_released hnone]
    · refine ⟨s.fenced h mask.toNat, congrArg Host.Outcome.next (fenceSweep_of_waiting hfence hothers (fenceMet_of_open hr hbit hne hq)), ?_, ?_,
        fun k hk => fenced_pairs_ne hk, fenced_frame, fun g hfn hring => fetchable_of_fence ?_⟩
      · exact ⟨_, by rw [hfence, takePacket_frame]⟩
      · rw [fenced_pair_self, takePacket_pair_self]
      · rw [hfn, hring, hfence]
        rfl
  · rw [exec_ridge ht hchk h1 h100 hd]
    refine ⟨fun hon => ⟨_, by rw [if_pos hon], ?_, ?_, ?_⟩, fun hoff => by rw [if_neg (by simp [hoff])]⟩
    · exact ridgeRecorded_frame.trans (by rw [State.ridgeWindow, takePacket_now])
    · exact ridgeRecorded_fields
    · exact ridgeRecorded_counts

end Sys2Proof
end


section
/-! PROOFS. CAL_QUERY, LINK_QUERY and LOG_READ (R303, R313, R375, R417). -/

namespace Sys2Proof.Machine

variable {s u : State} {p va : Nat} {bs : List Byte}

theorem wrPieces_frame {ps : List (Nat × Nat)} : s.wrPieces p ps bs = { s with mem := (s.wrPieces p ps bs).mem } := by
  induction ps generalizing s bs with
  | nil => rfl
  | cons x ps ih =>
    rw [State.wrPieces, ih]
    rfl

/-- A virtual extent written: only memory differs. -/
theorem wrVa_frame (h : s.wrVa p va bs = .inl u) : u = { s with mem := u.mem } := by
  unfold State.wrVa at h
  split at h
  · cases h
    exact wrPieces_frame
  · cases h

/-- A virtual extent that can be written passes its check. -/
theorem chkVa_of_wrVa (h : s.wrVa p va bs = .inl u) : s.chkVa p va bs.length = .pass := by
  unfold State.wrVa at h
  unfold State.chkVa
  cases hx : s.xlateAll p va bs.length with
  | inl _ => rfl
  | inr _ =>
    rw [hx] at h
    cases h

theorem chkForm_true {ok : Bool} {o : Nat} (h : ok = true) : chkForm ok o = .pass := if_pos h

theorem chkId_true {ok : Bool} {v : Nat} (h : ok = true) : chkId ok v = .pass := if_pos h

theorem chkSt_true {ok : Bool} {st : Nat} (h : ok = true) : chkSt ok st = .pass := if_pos h

variable {h : Hdr}

theorem serve_calQuery {what b : BitVec 8} {index : BitVec 16} {rsv n rsv20 : BitVec 32} {dest : BitVec 64} (hp : s.partExists h.fn = true) :
    s.serve h (.calQuery what b index rsv dest n rsv20) = s.svcCalQuery h what b index rsv dest n rsv20 := by
  rw [State.serve, hp]
  rfl

theorem serve_linkQuery {port : BitVec 8} {rsv : BitVec 56} {dest : BitVec 64} (hp : s.partExists h.fn = true) :
    s.serve h (.linkQuery port rsv dest) = s.svcLinkQuery h port rsv dest := by
  rw [State.serve, hp]
  rfl

theorem serve_logRead {log b : BitVec 8} {first : BitVec 16} {count : BitVec 32} {dest : BitVec 64} (hp : s.partExists h.fn = true) :
    s.serve h (.logRead log b first count dest) = s.svcLogRead h log b first count dest := by
  rw [State.serve, hp]
  rfl

/-- A record of a tile is for partition 0 or a partition that holds the tile. -/
theorem svcCalQuery_writes {what : BitVec 8} {index : BitVec 16} {dest : BitVec 64} {bytes : BitVec 32} (h9 : what.toNat ≤ 9)
    (hok : whatOk what.toNat index.toNat = true)
    (hown : h.fn = 0 ∨ (1 ≤ what.toNat ∧ what.toNat ≤ 5 ∧ (s.tileOwners index.toNat).contains h.fn = true))
    (hphys : 1 ≤ what.toNat → what.toNat ≤ 5 → (s.physOf index.toNat).isSome = true)
    (hw : s.wrVa h.fn dest.toNat ((s.calRecord what.toNat index.toNat).take bytes.toNat) = .inl u) :
    s.svcCalQuery h what 0 index 0 dest bytes 0 = u.reply h 0x51 stOK ((s.calRecord what.toNat index.toNat).take bytes.toNat).length 0 := by
  unfold State.svcCalQuery
  refine (checked_of_pass ?_).trans (by rw [hw])
  have hmine : (if h.fn = 0 then .pass else if decide (1 ≤ what.toNat ∧ what.toNat ≤ 5) then chkId ((s.tileOwners index.toNat).contains h.fn) index.toNat
      else chkId false 0x51) = Chk.pass := by
    rcases hown with h0 | ⟨h1, h5, hc⟩
    · exact if_pos h0
    · split
      · rfl
      · rw [if_pos (by simp [h1, h5]), chkId_true hc]
  have htile : (!decide (1 ≤ what.toNat ∧ what.toNat ≤ 5) || (s.physOf index.toNat).isSome) = true := by
    by_cases hk : 1 ≤ what.toNat ∧ what.toNat ≤ 5
    · simp [hphys hk.1 hk.2]
    · simp [hk]
  rw [chkForm_true (decide_eq_true h9), chkForm_true hok, hmine, chkVa_of_wrVa hw, chkSt_true htile]
  rfl

theorem flatMap_leBytes_length {l : List RegRef} : (l.flatMap fun r => leBytes 8 (s.reg r).toNat).length = 8 * l.length := by
  induction l with
  | nil => rfl
  | cons r l ih =>
    rw [List.flatMap_cons, List.length_append, leBytes_length, ih, List.length_cons]
    omega

/-- The registers of a port that LINK_QUERY copies. -/
def portRegs (n : Nat) : List RegRef := [Reg.LNK_PORT_CFG n, Reg.LNK_PORT_STAT n, Reg.LNK_PORT_CNT n] ++ (List.range 17).map (laneReg n)

theorem svcLinkQuery_writes {port : BitVec 8} {dest : BitVec 64} (hport : port.toNat < 24)
    (hw : s.wrVa h.fn dest.toNat ((portRegs port.toNat).flatMap fun r => leBytes 8 (s.reg r).toNat) = .inl u) :
    s.svcLinkQuery h port 0 dest = u.reply h 0x63 stOK 160 0 := by
  have hlen : ((portRegs port.toNat).flatMap fun r => leBytes 8 (s.reg r).toNat).length = 160 := flatMap_leBytes_length
  have hva := chkVa_of_wrVa hw
  rw [hlen] at hva
  unfold portRegs at hw
  unfold State.svcLinkQuery
  refine (checked_of_pass ?_).trans (by dsimp only; rw [hw])
  rw [chkForm_true (decide_eq_true hport), hva]
  rfl

theorem svcLogRead_writes {log : BitVec 8} {first : BitVec 16} {count : BitVec 32} {dest : BitVec 64} (h2 : log.toNat ≤ 2)
    (hown : log = 0 ∨ h.fn = 0) (hbs : bs = s.logBytes h.fn log.toNat first.toNat count.toNat) (hw : s.wrVa h.fn dest.toNat bs = .inl u) :
    s.svcLogRead h log 0 first count dest = u.reply h 0x68 stOK bs.length 0 := by
  subst hbs
  unfold State.svcLogRead
  refine (checked_of_pass ?_).trans (by rw [hw])
  have hmine : (log == 0 || h.fn == 0) = true := by
    rcases hown with e | e <;> simp [e]
  rw [chkForm_true (decide_eq_true h2), chkId_true hmine, chkVa_of_wrVa hw]
  rfl

end Sys2Proof.Machine

namespace Sys2Proof

open Machine

/-- Settles O37: each query's checks pass, and its record goes to DEST_VA. -/
theorem queriesWriteWhatTheyAreAskedFor : Obligations.QueriesWriteWhatTheyAreAskedFor := by
  refine ⟨fun s h what index va bytes b u hb ht h9 hok hown hphys hw => ?_, fun s h port va b u hb ht hport hw => ?_,
    fun s h log first count va b u bs hb ht h2 hown hlog0 hlog1 hlog2 hw => ?_⟩
  · rw [exec_served rfl ht fun _ => serve_calQuery, ← hb, svcCalQuery_writes h9 hok hown hphys hw]
    exact ⟨rfl, wrVa_frame hw⟩
  · rw [exec_served rfl ht fun _ => serve_linkQuery, ← hb, svcLinkQuery_writes hport hw]
    exact ⟨rfl, wrVa_frame hw⟩
  · have hbs : bs = b.logBytes h.fn log.toNat first.toNat count.toNat := by
      have hcases : log.toNat = 0 ∨ log.toNat = 1 ∨ log.toNat = 2 := by omega
      rcases hcases with e | e | e <;> rw [e]
      · exact hlog0 (BitVec.eq_of_toNat_eq e)
      · exact hlog1 (BitVec.eq_of_toNat_eq e)
      · exact hlog2 (BitVec.eq_of_toNat_eq e)
    rw [exec_served rfl ht fun _ => serve_logRead, ← hb, svcLogRead_writes h2 hown hbs hw]
    exact ⟨rfl, wrVa_frame hw⟩

end Sys2Proof
end


section
/-! PROOFS. Changes of a context: its place in the context cache and its journal records (R216, R222, R385, R386). -/

namespace Sys2Proof.Machine

variable {s t u : State} {i j q : Nat} {c : Ctx}

/-! ## The context cache (R222) -/

theorem filter_tins_length {α : Type} {p : Nat × α → Bool} {x : α} {t : Tbl α} :
    ((tins i x t).filter p).length ≤ (t.filter p).length + 1 := by
  induction t with
  | nil =>
    simp only [tins, List.filter_cons]
    split <;> simp
  | cons e t ih =>
    obtain ⟨k, y⟩ := e
    simp only [tins]
    split
    · rw [List.filter_cons]
      split <;> simp
    · split
      · rw [List.filter_cons, List.filter_cons]
        by_cases hx : p (i, x) <;> by_cases hy : p (k, y) <;> simp [hx, hy]
        omega
      · rw [List.filter_cons, List.filter_cons]
        split
        · simp only [List.length_cons]
          omega
        · exact ih

theorem filter_tdel_length {α : Type} {p : Nat × α → Bool} {t : Tbl α} : ((tdel i t).filter p).length ≤ (t.filter p).length := by
  induction t with
  | nil => exact Nat.le_refl _
  | cons e t ih =>
    obtain ⟨k, y⟩ := e
    simp only [tdel, List.filter_cons]
    split
    · split
      · exact Nat.le_succ_of_le ih
      · exact ih
    · rw [List.filter_cons]
      split
      · exact Nat.succ_le_succ ih
      · exact ih

theorem filter_tset_length {α : Type} [DecidableEq α] {d x : α} {p : Nat × α → Bool} {t : Tbl α} :
    ((tset d t i x).filter p).length ≤ (t.filter p).length + 1 := by
  unfold tset
  split
  · exact Nat.le_succ_of_le filter_tdel_length
  · exact filter_tins_length

/-- A record beside a context adds at most one entry to a quadrant's cache. -/
theorem cached_setAux_length {a : CtxAux} : ((s.setAux i a).cached q).length ≤ (s.cached q).length + 1 := by
  simp only [State.cached, List.length_map]
  exact filter_tset_length (p := fun (x : Nat × CtxAux) => x.2.lru != 0 && s.homeOf (s.ctx x.1) == q)

/-- A context that keeps its home quadrant leaves every cache as it was. -/
theorem cached_setCtx (hc : s.homeOf c = s.homeOf (s.ctx i)) : (s.setCtx i c).cached q = s.cached q := by
  unfold State.cached
  rw [List.filter_congr fun x _ => ?_]
  · rfl
  · have hhome : (s.setCtx i c).homeOf ((s.setCtx i c).ctx x.1) = s.homeOf (s.ctx x.1) := by
      rcases eq_or_ne x.1 i with hx | hx
      · rw [hx, State.ctx_setCtx_self]
        exact hc
      · rw [State.ctx_setCtx_ne hx]
        rfl
    rw [hhome]

/-! ## An entry of the cache -/

theorem writeBack_cases : s.writeBack i = s ∨ ∃ a bs, s.writeBack i = (s.wrMem 0 a bs).setAux i { s.auxOf i with dirty := false } := by
  unfold State.writeBack
  split
  · exact .inl rfl
  · exact .inr ⟨_, _, rfl⟩

theorem writeBack_frame : s.writeBack i = { s with mem := (s.writeBack i).mem, aux := (s.writeBack i).aux } := by
  rcases writeBack_cases (s := s) (i := i) with h | ⟨a, bs, h⟩ <;> rw [h] <;> rfl

theorem writeBack_auxOf : ∃ l d, (s.writeBack i).auxOf j = { s.auxOf j with lru := l, dirty := d } := by
  rcases writeBack_cases (s := s) (i := i) with h | ⟨a, bs, h⟩
  · rw [h]
    exact ⟨_, _, rfl⟩
  · rw [h]
    rcases eq_or_ne j i with rfl | hj
    · exact ⟨_, _, State.auxOf_setAux_self⟩
    · exact ⟨_, _, State.auxOf_setAux_ne hj⟩

/-- The state in which a context's descriptor has entered the cache, before an eviction. -/
def State.recached (s : State) (i : Nat) : State :=
  { s.setAux i { s.auxOf i with lru := s.sched.lruSeq + 1, dirty := true } with sched := { s.sched with lruSeq := s.sched.lruSeq + 1 } }

/-- The state in which entry j has left the cache, written back where it was dirty. -/
def State.evicted (s : State) (j : Nat) : State :=
  (if (s.auxOf j).dirty then s.writeBack j else s).setAux j { (if (s.auxOf j).dirty then s.writeBack j else s).auxOf j with lru := 0 }

/-- An entry enters the cache; where the cache was full another leaves it. -/
theorem touch_cases : (s.touch i = s.recached i) ∨
    (∃ j, s.touch i = (s.recached i).evicted j ∧ 16384 < ((s.recached i).cached ((s.recached i).homeOf ((s.recached i).ctx i))).length) := by
  unfold State.touch
  dsimp only
  split
  · exact .inl rfl
  · next hfull =>
    split
    · exact .inr ⟨_, rfl, Nat.lt_of_not_le hfull⟩
    · exact .inl rfl

theorem recached_auxOf : ∃ l d, (s.recached i).auxOf j = { s.auxOf j with lru := l, dirty := d } := by
  unfold State.recached
  rcases eq_or_ne j i with rfl | hj
  · exact ⟨_, _, State.auxOf_setAux_self⟩
  · exact ⟨_, _, State.auxOf_setAux_ne hj⟩

theorem evicted_frame : s.evicted i = { s with mem := (s.evicted i).mem, aux := (s.evicted i).aux } := by
  unfold State.evicted
  split
  · have h := writeBack_frame (s := s) (i := i)
    generalize s.writeBack i = u at h ⊢
    rw [h]
    rfl
  · rfl

theorem evicted_auxOf : ∃ l d, (s.evicted i).auxOf j = { s.auxOf j with lru := l, dirty := d } := by
  have hback : ∃ l d, (if (s.auxOf i).dirty then s.writeBack i else s).auxOf j = { s.auxOf j with lru := l, dirty := d } := by
    split
    · exact writeBack_auxOf
    · exact ⟨_, _, rfl⟩
  unfold State.evicted
  obtain ⟨l, d, h⟩ := hback
  rcases eq_or_ne j i with rfl | hj
  · rw [State.auxOf_setAux_self, h]
    exact ⟨_, _, rfl⟩
  · rw [State.auxOf_setAux_ne hj]
    exact ⟨l, d, h⟩

theorem touch_frame : s.touch i = { s with aux := (s.touch i).aux, sched := (s.touch i).sched, mem := (s.touch i).mem } := by
  rcases touch_cases (s := s) (i := i) with h | ⟨j, h, -⟩
  · rw [h]
    rfl
  · rw [h, evicted_frame]
    rfl

theorem touch_agrees : ∃ a c m, s.touch i = { s with aux := a, sched := c, mem := m } := ⟨_, _, _, touch_frame⟩

/-- The cache keeps of a context's record everything but the entry's own two fields. -/
theorem touch_auxOf : ∃ l d, (s.touch i).auxOf j = { s.auxOf j with lru := l, dirty := d } := by
  rcases touch_cases (s := s) (i := i) with h | ⟨k, h, -⟩
  · rw [h]
    exact recached_auxOf
  · obtain ⟨l1, d1, h1⟩ := recached_auxOf (s := s) (i := i) (j := j)
    obtain ⟨l2, d2, h2⟩ := evicted_auxOf (s := s.recached i) (i := k) (j := j)
    rw [h, h2, h1]
    exact ⟨_, _, rfl⟩

/-- Nothing is written back while the quadrant's cache has room. -/
theorem touch_mem (h : (s.cached (s.homeOf (s.ctx i))).length < 16384) : (s.touch i).mem = s.mem := by
  rcases touch_cases (s := s) (i := i) with ht | ⟨j, -, hfull⟩
  · rw [ht]
    rfl
  · have hlen := cached_setAux_length (s := s) (i := i) (q := s.homeOf (s.ctx i))
      (a := { s.auxOf i with lru := s.sched.lruSeq + 1, dirty := true })
    have hsame : (s.recached i).cached ((s.recached i).homeOf ((s.recached i).ctx i)) =
        (s.setAux i { s.auxOf i with lru := s.sched.lruSeq + 1, dirty := true }).cached (s.homeOf (s.ctx i)) := rfl
    rw [hsame] at hfull
    omega

/-! ## Messages to the twin and the records of a context (R367, R385, R386) -/

/-- Only the twin's state, the fabric's and the ports' differ. -/
def State.twinOnly (s t : State) : Prop := t = { s with twin := t.twin, fabric := t.fabric, ports := t.ports }

theorem twinOnly_refl : s.twinOnly s := rfl

theorem twinOnly_trans (h : s.twinOnly t) (k : t.twinOnly u) : s.twinOnly u := k.trans (by rw [h])

theorem twinOnly_twin {w : Twin} : s.twinOnly { s with twin := w } := rfl

theorem twinOnly_fabric {f : Fabric} : s.twinOnly { s with fabric := f } := rfl

theorem twinOnly_transmit {n : Nat} {m : FMsg} : s.twinOnly (s.transmit n m) := by
  unfold State.transmit
  dsimp only
  split
  · rfl
  · rfl

theorem twinOnly_sendMsg {m : FMsg} : s.twinOnly (s.sendMsg m) := by
  unfold State.sendMsg
  split
  · exact twinOnly_transmit
  · exact twinOnly_refl

theorem twinOnly_request {dest op part offset : Nat} {payload : List Byte} {place : Option Nat} :
    s.twinOnly (s.request dest op part offset payload place) := by
  unfold State.request
  exact twinOnly_trans twinOnly_fabric twinOnly_sendMsg

theorem twinOnly_jrnl {part : Nat} {rs : List JRec} : s.twinOnly (s.jrnl part rs) := by
  unfold State.jrnl
  split
  · exact twinOnly_refl
  · exact twinOnly_trans twinOnly_twin twinOnly_request

theorem jrnl_of_not_paired {part : Nat} {rs : List JRec} (h : s.twinSt ≠ 2) : s.jrnl part rs = s := if_pos (by simp [h])

theorem twinOnly_jrnlCtx {rs : List JRec} : s.twinOnly (s.jrnlCtx i rs) := by
  unfold State.jrnlCtx
  split
  · exact twinOnly_refl
  · split
    · exact twinOnly_twin
    · exact twinOnly_jrnl

theorem jrnlCtx_of_not_journaled {rs : List JRec} (h : s.journaled i = false) : s.jrnlCtx i rs = s := if_pos (by simp [h])

/-! ## Descriptors changed -/

theorem editCtx_frame : s.editCtx i c =
    { s with ctxs := (s.editCtx i c).ctxs, aux := (s.editCtx i c).aux, sched := (s.editCtx i c).sched, mem := (s.editCtx i c).mem } := by
  obtain ⟨a, d, m, h⟩ := touch_agrees (s := s.setCtx i c) (i := i)
  rw [State.editCtx, h]
  rfl

theorem editCtx_ctx : (s.editCtx i c).ctx j = (s.setCtx i c).ctx j := by
  obtain ⟨a, d, m, h⟩ := touch_agrees (s := s.setCtx i c) (i := i)
  rw [State.editCtx, h]
  rfl

theorem editCtx_ctx_self : (s.editCtx i c).ctx i = c := by rw [editCtx_ctx, State.ctx_setCtx_self]

theorem editCtx_ctx_ne (hj : j ≠ i) : (s.editCtx i c).ctx j = s.ctx j := by rw [editCtx_ctx, State.ctx_setCtx_ne hj]

theorem editCtx_auxOf : ∃ l d, (s.editCtx i c).auxOf j = { s.auxOf j with lru := l, dirty := d } := touch_auxOf (s := s.setCtx i c)

theorem editCtx_mem (hc : s.homeOf c = s.homeOf (s.ctx i)) (h : (s.cached (s.homeOf c)).length < 16384) : (s.editCtx i c).mem = s.mem := by
  have hcached : ((s.setCtx i c).cached ((s.setCtx i c).homeOf ((s.setCtx i c).ctx i))) = s.cached (s.homeOf c) := by
    rw [State.ctx_setCtx_self, cached_setCtx hc]
    rfl
  rw [State.editCtx, touch_mem (by rw [hcached]; exact h), State.setCtx_mem]

/-- A context as a change leaves it: TIMESTAMP is set where it enters a state or becomes ready (R216). -/
def State.stamped (s : State) (i : Nat) (c : Ctx) : Ctx :=
  if (s.ctx i).st != c.st || (!(s.readyCtx i (s.ctx i)) && s.readyCtx i c) then { c with timestamp := s.time } else c

theorem stamped_eq : s.stamped i c = { c with timestamp := (s.stamped i c).timestamp } := by
  unfold State.stamped
  split <;> rfl

theorem stamped_timestamp (h : (s.ctx i).st ≠ c.st) : (s.stamped i c).timestamp = s.time := by
  rw [State.stamped, if_pos (by simp [h])]

theorem putCtx_cases : s.putCtx i c = s.editCtx i (s.stamped i c) ∨ ∃ rs, s.putCtx i c = (s.editCtx i (s.stamped i c)).jrnlCtx i rs := by
  unfold State.putCtx State.editCtx
  dsimp only
  split
  · exact .inr ⟨_, rfl⟩
  · exact .inl rfl

theorem twinOnly_putCtx : (s.editCtx i (s.stamped i c)).twinOnly (s.putCtx i c) := by
  rcases putCtx_cases (s := s) (i := i) (c := c) with h | ⟨rs, h⟩ <;> rw [h]
  · exact twinOnly_refl
  · exact twinOnly_jrnlCtx

theorem ctx_of_twinOnly (h : s.twinOnly t) : t.ctx j = s.ctx j := by
  rw [h]
  rfl

theorem auxOf_of_twinOnly (h : s.twinOnly t) : t.auxOf j = s.auxOf j := by
  rw [h]
  rfl

theorem putCtx_ctx_self : (s.putCtx i c).ctx i = s.stamped i c := by rw [ctx_of_twinOnly twinOnly_putCtx, editCtx_ctx_self]

theorem putCtx_ctx_ne (hj : j ≠ i) : (s.putCtx i c).ctx j = s.ctx j := by rw [ctx_of_twinOnly twinOnly_putCtx, editCtx_ctx_ne hj]

theorem putCtx_auxOf : ∃ l d, (s.putCtx i c).auxOf j = { s.auxOf j with lru := l, dirty := d } := by
  rw [auxOf_of_twinOnly twinOnly_putCtx]
  exact editCtx_auxOf

theorem putCtx_frame : s.putCtx i c = { s with
    ctxs := (s.putCtx i c).ctxs, aux := (s.putCtx i c).aux, sched := (s.putCtx i c).sched, mem := (s.putCtx i c).mem,
    twin := (s.putCtx i c).twin, fabric := (s.putCtx i c).fabric, ports := (s.putCtx i c).ports } := by
  have h : (s.editCtx i (s.stamped i c)).twinOnly (s.putCtx i c) := twinOnly_putCtx
  have hedit := editCtx_frame (s := s) (i := i) (c := s.stamped i c)
  generalize s.editCtx i (s.stamped i c) = v at h hedit
  generalize s.putCtx i c = u at h ⊢
  rw [h, hedit]

theorem homeOf_congr {d : Ctx} (h : d.placement = c.placement) : s.homeOf d = s.homeOf c := by
  rw [State.homeOf, h]
  rfl

/-- A change of context i that keeps its placement differs in the context, and beside it only in what goes with it. -/
theorem onlyContext_putCtx (hc : c.placement = (s.ctx i).placement) : s.onlyContext (s.putCtx i c) i := by
  have hstamp : (s.stamped i c).placement = (s.ctx i).placement := by rw [stamped_eq]; exact hc
  refine ⟨fun j hj => putCtx_ctx_ne hj, putCtx_frame, fun hj => ?_, fun hlen => ?_⟩
  · have hput : s.putCtx i c = s.editCtx i (s.stamped i c) := by
      rcases putCtx_cases (s := s) (i := i) (c := c) with h | ⟨rs, h⟩
      · exact h
      · have hj' : (s.editCtx i (s.stamped i c)).journaled i = false := by
          rw [State.journaled, editCtx_frame]
          exact hj
        rw [h, jrnlCtx_of_not_journaled hj']
    rw [hput, editCtx_frame]
    exact ⟨rfl, rfl, rfl⟩
  · rw [putCtx_ctx_self] at hlen
    have hmem : (s.putCtx i c).mem = (s.editCtx i (s.stamped i c)).mem := by
      rw [show s.putCtx i c = _ from twinOnly_putCtx]
    rw [hmem, editCtx_mem (homeOf_congr hstamp) hlen]

end Sys2Proof.Machine
end


section
/-! PROOFS. SESSION_APPEND, SESSION_RESUME, SESSION_PAUSE and SPEC_TREE (R26, R203, R220, R221, R295). -/

namespace Sys2Proof.Machine

variable {s t b u : State} {h : Hdr} {i j : Nat} {op : HeldOp} {c : Ctx}

/-! ## Module time while a park is given up -/

theorem time_of_longOnly (hl : s.longOnly t) : t.time = s.time := by rw [hl.1]

theorem putCtx_time : (s.putCtx i c).time = s.time := by rw [putCtx_frame]

theorem cancelPark_time : (s.cancelPark i).time = s.time := by
  unfold State.cancelPark
  dsimp only
  split
  · rfl
  · split
    · exact (time_of_longOnly longOnly_reply).trans rfl
    · rfl

theorem parkEnds_time : (s.parkEnds i).time = s.time := by
  unfold State.parkEnds
  split
  · rfl
  · dsimp only
    split
    · exact (time_of_longOnly longOnly_reply).trans putCtx_time
    · exact putCtx_time

theorem stopPark_time : (s.stopPark i).time = s.time := by
  unfold State.stopPark
  split
  · exact parkEnds_time
  · exact cancelPark_time

theorem takePacket_time : (s.takePacket h).time = s.time := by rw [takePacket_frame]

/-! ## A packet that acts on a context -/

/-- The packet opens no context and closes none: its effect is a change of the context. -/
def changes : HeldOp → Bool
  | .append .. | .resume .. | .pause | .tree _ => true
  | _ => false

theorem after_placement (hop : changes op = true) : (c.after op).placement = c.placement := by
  cases op with
  | append va n gen dl pair =>
    unfold Ctx.after
    dsimp only
    split <;> rfl
  | resume gen dl pair => rfl
  | pause => rfl
  | tree t => rfl
  | close => cases hop
  | park h => cases hop
  | open_ h o => cases hop

/-- The context after a SESSION_APPEND; an EXPIRED one starts again at position 0 (R220). -/
theorem after_append {va n gen pair : Nat} {dl : Option Nat} : c.after (.append va n gen dl pair) = { c with
    st := .active, genLeft := gen, pair := pair, appVa := if n = 0 then c.appVa else va, appCnt := if n = 0 then c.appCnt else n,
    deadline := dl.getD c.deadline, pos := if c.st = .expired then 0 else c.pos, pvalid := if c.st = .expired then false else c.pvalid,
    pending := if c.st = .expired then 0 else c.pending } := by
  unfold Ctx.after
  by_cases he : c.st = .expired <;> simp [he]

theorem getD_ite {P : Prop} [Decidable P] {x y : Nat} : (if P then some x else none).getD y = if P then x else y := by
  split <;> rfl

theorem applyOp_of_changes (hop : changes op = true) (hst : (s.ctx i).st ≠ .closed) : s.applyOp i op = s.putCtx i ((s.ctx i).after op) := by
  have hne : ((s.ctx i).st == CtxState.closed) = false := by simpa using hst
  unfold State.applyOp
  dsimp only
  rw [hne, if_neg (by decide)]
  cases op with
  | append va n gen dl pair => rfl
  | resume gen dl pair => rfl
  | pause => rfl
  | tree t => rfl
  | close => cases hop
  | park h => cases hop
  | open_ h o => cases hop

theorem actOn_of_held (hheld : s.inStep i = true ∨ (s.auxOf i).restore.isSome = true) :
    s.actOn i op = s.setCtx i { s.ctx i with held := (s.ctx i).held ++ [op] } := if_pos (by simpa using hheld)

theorem actOn_of_free (hstep : s.inStep i = false) (hrest : (s.auxOf i).restore = none) : s.actOn i op = s.applyOp i op :=
  if_neg (by simp [hstep, hrest])

/-- A packet that changes a context in no step: the context is as `after` says, and nothing else differs but what goes with it. -/
theorem actOn_changes (hop : changes op = true) (hstep : s.inStep i = false) (hrest : (s.auxOf i).restore = none)
    (hst : (s.ctx i).st ≠ .closed) : s.onlyContext (s.actOn i op) i ∧ (s.actOn i op).ctx i = s.stamped i ((s.ctx i).after op) := by
  rw [actOn_of_free hstep hrest, applyOp_of_changes hop hst]
  exact ⟨onlyContext_putCtx (after_placement hop), putCtx_ctx_self⟩

theorem wake_of_parked (hst : ((s.stopPark i).ctx i).st = .parked) (hrest : ((s.stopPark i).auxOf i).restore = none) :
    s.wake i op = ((s.stopPark i).startRestore i (some op) none).1 := if_pos (by simp [hst, hrest])

theorem wake_of_not_parked (hst : ((s.stopPark i).ctx i).st = .parked → ((s.stopPark i).auxOf i).restore.isSome = true) :
    s.wake i op = (s.stopPark i).actOn i op := by
  refine if_neg fun hc => ?_
  simp only [Bool.and_eq_true, beq_iff_eq, Option.isNone_iff_eq_none] at hc
  rw [hc.2] at hst
  cases hst hc.1

theorem exec_sessionAppend {p : AppendParams} (ht : s.takesD h 0x02 32) (hchk : firstFail ((s.takePacket h).appendChks h.fn p) = .pass) :
    exec (.sessionAppend h p) s = .next (((s.takePacket h).wake p.context.toNat (.append p.tokensVa.toNat p.count.toNat p.genLeft.toNat
      (if bitOf p.byte18.toNat 0 then some p.deadline.toNat else none) h.ring)).replyHeld (s.takePacket h) h 0x02) := by
  show Host.Outcome.next (s.dPacket h 0x02 32 _) = _
  rw [dPacket_of_takesD ht]
  exact congrArg Host.Outcome.next (checked_of_pass hchk)

theorem exec_sessionResume {p : ResumeParams} (ht : s.takesD h 0x04 16) (hchk : firstFail ((s.takePacket h).resumeChks h.fn p) = .pass) :
    exec (.sessionResume h p) s = .next (((s.takePacket h).wake p.context.toNat (.resume (if bitOf p.byte6.toNat 1 then some p.genLeft.toNat else none)
      (if bitOf p.byte6.toNat 0 then some p.deadline.toNat else none) h.ring)).replyHeld (s.takePacket h) h 0x04) := by
  show Host.Outcome.next (s.dPacket h 0x04 16 _) = _
  rw [dPacket_of_takesD ht]
  exact congrArg Host.Outcome.next (checked_of_pass hchk)

/-- The second of a row of checks may be left out where it passes. -/
theorem firstFail_second_pass {l r : List Chk} {a : Chk} : firstFail (l ++ a :: .pass :: r) = firstFail (l ++ a :: r) := by
  induction l with
  | nil =>
    cases a with
    | pass => rfl
    | _ => rfl
  | cons c l ih =>
    cases c with
    | pass => exact ih
    | _ => rfl

theorem exec_sessionPause {context : BitVec 32} (ht : s.takesD h 0x03 8)
    (hchk : firstFail ((s.takePacket h).chkCtx h.fn context ++
      [(s.takePacket h).chkState context.toNat [.active], (s.takePacket h).chkHome ((s.takePacket h).ctx context.toNat)]) = .pass) :
    exec (.sessionPause h context 0) s =
      .next (((s.takePacket h).actOn context.toNat .pause).replyHeld (s.takePacket h) h 0x03) := by
  show Host.Outcome.next (s.dPacket h 0x03 8 _) = _
  rw [dPacket_of_takesD ht]
  exact congrArg Host.Outcome.next (checked_of_pass (firstFail_second_pass.trans hchk))

theorem chkVa_of_rdVa {p va n : Nat} {bs : List Byte} (hr : s.rdVa p va n = .inl bs) : s.chkVa p va n = .pass := by
  unfold State.rdVa at hr
  unfold State.chkVa
  cases hx : s.xlateAll p va n with
  | inl _ => rfl
  | inr _ =>
    rw [hx] at hr
    cases hr

/-- A tree that the packet names is in its form, and its bytes read as `t` (R193, R194). -/
structure State.treeReads (s : State) (h : Hdr) (context : BitVec 32) (n : BitVec 8) (va : BitVec 64) (bs : List Byte) (t : List Node) : Prop where
  ctx    : firstFail (s.chkCtx h.fn context ++ [s.chkState context.toNat [.active, .paused], s.chkHome (s.viewCtx context.toNat)]) = .pass
  one    : 1 ≤ n.toNat
  most   : n.toNat ≤ 64
  align  : va.toNat % 8 = 0
  space  : va.toNat < 2 ^ 44
  shard  : (s.imgOf (s.viewCtx context.toNat)).shardCnt ≤ 1
  queue  : (s.viewCtx context.toNat).appCnt = 0
  valid  : (s.viewCtx context.toNat).pvalid = true
  read   : s.rdVa h.fn va.toNat (8 * n.toNat) = .inl bs
  nodes  : (chunksOf 8 bs.length bs).map nodeOf = t.map some
  form   : treeOk t (s.imgOf (s.viewCtx context.toNat)).vocab = true
  depth  : (s.viewCtx context.toNat).pos + treeDepth t < (s.viewCtx context.toNat).lenMax
  room   : s.treesHeld (s.homeOf (s.viewCtx context.toNat)) context.toNat < 4096

theorem filterMap_map_some {α : Type} {l : List α} : (l.map some).filterMap id = l := by
  induction l with
  | nil => rfl
  | cons x l ih => simp [ih]

theorem exec_specTree {context : BitVec 32} {n : BitVec 8} {va : BitVec 64} {bs : List Byte} {t : List Node} (ht : s.takesD h 0x06 16)
    (hr : (s.takePacket h).treeReads h context n va bs t) :
    exec (.specTree h context n 0 va) s = .next (((s.takePacket h).actOn context.toNat (.tree t)).replyHeld (s.takePacket h) h 0x06) := by
  obtain ⟨hctx, hone, hmost, halign, hspace, hshard, hqueue, hvalid, hread, hnodes, hform, hdepth, hroom⟩ := hr
  show Host.Outcome.next (s.dPacket h 0x06 16 _) = _
  rw [dPacket_of_takesD ht]
  generalize s.takePacket h = b at hctx hshard hqueue hvalid hread hform hdepth hroom ⊢
  have hn : (decide (1 ≤ n.toNat) && decide (n.toNat ≤ 64)) = true := by simp [hone, hmost]
  have hva : (va.toNat % 8 == 0 && decide (va.toNat < 2 ^ 44)) = true := by
    rw [Bool.and_eq_true, beq_iff_eq, decide_eq_true_eq]
    exact ⟨halign, hspace⟩
  have hready : ((b.viewCtx context.toNat).appCnt == 0 && (b.viewCtx context.toNat).pvalid) = true := by simp [hqueue, hvalid]
  refine congrArg Host.Outcome.next ((checked_of_pass ?_).trans ?_)
  · rw [chkForm_true (decide_eq_true hshard), chkForm_true hn, chkForm_true hva, chkSt_true hready, chkVa_of_rdVa hread,
      chkForm_true (show ((0 : BitVec 24) == 0) = true from rfl)]
    simp only [firstFail_second_pass]
    exact hctx
  · dsimp only
    rw [hread]
    dsimp only
    rw [hnodes, filterMap_map_some]
    refine checked_of_pass ?_
    have hall : ((t.map some).all Option.isSome && treeOk t (b.imgOf (b.viewCtx context.toNat)).vocab &&
        decide ((b.viewCtx context.toNat).pos + treeDepth t < (b.viewCtx context.toNat).lenMax)) = true := by
      rw [hform, decide_eq_true hdepth]
      simp
    rw [chkForm_true hall, chkSt_true (decide_eq_true hroom)]
    rfl

end Sys2Proof.Machine

namespace Sys2Proof

open Machine

/-- Settles O25; that APPEND gives up a park in progress is log entry 88, and that packets are checked against the state after the held ones
log entry 17. -/
theorem sessionPacketsChangeTheirContext : Obligations.SessionPacketsChangeTheirContext := by
  refine ⟨fun s h p b i op hb hi hop ht hchk => ?_, fun s h p b i op hb hi hop ht hchk => ?_, fun s h context b i hb hi ht hchk => ?_,
    fun s h context n va b i bs t hb hi ht hchk h1 h64 hal hsp hsh hq hv hr hn hf hd hroom => ?_⟩
  · have htime : b.time = s.time := by rw [hb, stopPark_time, takePacket_time]
    rw [exec_sessionAppend ht hchk, ← hi, ← hop]
    refine ⟨fun hheld hst => ?_, fun hstep hrest hst hpark => ?_, fun hst hrest => ?_⟩
    · rw [wake_of_not_parked (by rw [← hb]; exact hst), ← hb, actOn_of_held hheld]
    · rw [wake_of_not_parked (by rw [← hb]; exact fun e => absurd e hpark), ← hb]
      have hch : changes op = true := by rw [hop]; rfl
      obtain ⟨honly, hctx⟩ := actOn_changes hch hstep hrest hst
      refine ⟨_, rfl, honly, ?_, fun hact => ?_⟩
      · rw [hctx, stamped_eq, hop]
        have hzero : (p.count = 0) = (p.count.toNat = 0) := by rw [← BitVec.toNat_inj]; rfl
        rw [after_append, getD_ite]
        simp only [hzero]
      · rw [hctx, stamped_timestamp (by rw [hop]; exact hact), htime]
    · rw [wake_of_parked (by rw [← hb]; exact hst) (by rw [← hb]; exact hrest), ← hb]
  · have htime : b.time = s.time := by rw [hb, stopPark_time, takePacket_time]
    rw [exec_sessionResume ht hchk, ← hi, ← hop]
    refine ⟨fun hheld hst => ?_, fun hstep hrest hst hpark => ?_, fun hst hrest => ?_⟩
    · rw [wake_of_not_parked (by rw [← hb]; exact hst), ← hb, actOn_of_held hheld]
    · rw [wake_of_not_parked (by rw [← hb]; exact fun e => absurd e hpark), ← hb]
      have hch : changes op = true := by rw [hop]; rfl
      obtain ⟨honly, hctx⟩ := actOn_changes hch hstep hrest hst
      refine ⟨_, rfl, honly, ?_, fun hact => ?_⟩
      · rw [hctx, stamped_eq, hop]
        unfold Ctx.after
        simp only [getD_ite]
      · rw [hctx, stamped_timestamp (by rw [hop]; exact hact), htime]
    · rw [wake_of_parked (by rw [← hb]; exact hst) (by rw [← hb]; exact hrest), ← hb]
  · subst hb hi
    rw [exec_sessionPause ht hchk]
    refine ⟨fun hheld => by rw [actOn_of_held hheld], fun hstep hrest hst => ?_⟩
    obtain ⟨honly, hctx⟩ := actOn_changes (op := .pause) rfl hstep hrest (by rw [hst]; decide)
    refine ⟨_, rfl, honly, ?_⟩
    rw [hctx, stamped_eq, stamped_timestamp (by rw [hst]; exact (by decide : CtxState.active ≠ CtxState.paused)), takePacket_time]
    rfl
  · subst hb hi
    rw [exec_specTree ht ⟨hchk, h1, h64, hal, hsp, hsh, hq, hv, hr, hn, hf, hd, hroom⟩]
    refine ⟨fun hheld => by rw [actOn_of_held hheld], fun hstep hrest hst => ?_⟩
    obtain ⟨honly, hctx⟩ := actOn_changes (op := .tree t) rfl hstep hrest hst
    refine ⟨_, rfl, honly, ?_⟩
    rw [hctx, stamped_eq]
    rfl

end Sys2Proof
end


section
/-! PROOFS. Frames popped from the reservoir and returned to the free ring, under the settings in force for a placement (R186 to R192, R226). -/

namespace Sys2Proof.Machine

variable {s t u : State} {i l p : Nat}

/-- Only registers, memory, what partitions keep beside them, the violation logs and the messages sent differ: what pops and returns of
frames change. -/
def State.framesOnly (s t : State) : Prop :=
  t = { s with regs := t.regs, mem := t.mem, parts := t.parts, globalLog := t.globalLog, pcie := t.pcie }

theorem framesOnly_refl : s.framesOnly s := rfl

theorem framesOnly_trans (h : s.framesOnly t) (k : t.framesOnly u) : s.framesOnly u := k.trans (by rw [h])

theorem framesOnly_setPart {x : Part} : s.framesOnly (s.setPart p x) := rfl

theorem framesOnly_wrReg {r : RegRef} {v : Word64} : s.framesOnly (s.wrReg r v) := rfl

theorem framesOnly_setFld {r : RegRef} {f : Field} {x : Nat} : s.framesOnly (s.setFld r f x) := framesOnly_wrReg

theorem framesOnly_bump {r : RegRef} {f : Field} : s.framesOnly (s.bump r f) := by
  unfold State.bump State.bumpBy
  split
  · exact framesOnly_refl
  · exact framesOnly_setFld

theorem framesOnly_wrMem {a : Nat} {bs : List Byte} : s.framesOnly (s.wrMem p a bs) := rfl

theorem framesOnly_raise {v : Nat} : s.framesOnly (s.raise p v) := by
  have h := raise_eq (s := s) (f := p) (v := v)
  generalize s.raise p v = u at h ⊢
  rw [State.framesOnly, h]

theorem framesOnly_violate {a source : Nat} {phys value : Bool} : s.framesOnly (s.violate p a source phys value) := by
  have h := (violate_logs (s := s) (p := p) (a := a) (source := source) (phys := phys) (value := value)).2.2
  generalize s.violate p a source phys value = u at h ⊢
  rw [State.framesOnly, h]

theorem framesOnly_each {α : Type} {xs : List α} {g : State → α → State} (hg : ∀ (t : State) x, x ∈ xs → t.framesOnly (g t x)) : s.framesOnly (s.each xs g) :=
  each_induction (P := s.framesOnly) framesOnly_refl fun t x hx ht => framesOnly_trans ht (hg t x hx)

/-! ## Pops -/

theorem framesOnly_resNotify {empty : Bool} : s.framesOnly (s.resNotify p empty) := by
  unfold State.resNotify
  dsimp only
  split
  · exact framesOnly_trans framesOnly_setPart framesOnly_raise
  · exact framesOnly_refl

theorem framesOnly_popLoop {F n : Nat} : s.framesOnly (State.popLoop p F n s).1 := by
  induction n generalizing s with
  | zero => exact framesOnly_resNotify
  | succ n ih =>
    rw [State.popLoop]
    dsimp only
    split
    · exact framesOnly_resNotify
    · split
      · exact framesOnly_trans (framesOnly_trans (framesOnly_trans framesOnly_setFld framesOnly_resNotify) framesOnly_violate) ih
      · split
        · exact framesOnly_trans framesOnly_setFld framesOnly_resNotify
        · exact framesOnly_trans (framesOnly_trans (framesOnly_trans (framesOnly_trans framesOnly_setFld framesOnly_resNotify)
            framesOnly_bump) framesOnly_violate) ih

theorem framesOnly_pop {F q : Nat} : s.framesOnly (s.pop p F q).1 := framesOnly_trans framesOnly_setPart framesOnly_popLoop

theorem framesOnly_mapFrame {va pa fl : Nat} : s.framesOnly (s.mapFrame p va pa fl) := by
  unfold State.mapFrame
  refine framesOnly_each fun t k _ => ?_
  split
  · exact framesOnly_trans framesOnly_wrMem framesOnly_setPart
  · exact framesOnly_refl

theorem framesOnly_popPages {fl q : Nat} {pages : List Nat} : s.framesOnly (State.popPages p fl q pages s).1 := by
  induction pages generalizing s with
  | nil => exact framesOnly_refl
  | cons va pages ih =>
    rw [State.popPages]
    split
    · exact ih
    · split
      · exact framesOnly_violate
      · have hpop := framesOnly_pop (s := s) (p := p) (F := 2 ^ fl) (q := q)
        split
        · next s1 a heq =>
          rw [heq] at hpop
          exact framesOnly_trans (framesOnly_trans hpop framesOnly_mapFrame) ih
        · next s1 heq =>
          rw [heq] at hpop
          exact hpop

/-! ## Settings in force for a placement (R13, R226) -/

theorem framesOnly_foldl_wrReg {rs : List RegRef} {v : RegRef → Word64} : s.framesOnly (rs.foldl (fun (t : State) r => t.wrReg r (v r)) s) := by
  induction rs generalizing s with
  | nil => exact framesOnly_refl
  | cons r rs ih => exact framesOnly_trans framesOnly_wrReg ih

theorem framesOnly_asOf : s.framesOnly (s.asOf l) := by
  unfold State.asOf
  split
  · exact framesOnly_trans framesOnly_foldl_wrReg framesOnly_setPart
  · exact framesOnly_refl

theorem framesOnly_backFrom : t.framesOnly (t.backFrom s l) := by
  unfold State.backFrom
  split
  · exact framesOnly_trans framesOnly_foldl_wrReg framesOnly_setPart
  · exact framesOnly_refl

theorem framesOnly_under {f : State → State} (hf : ∀ t : State, t.framesOnly (f t)) : s.framesOnly (s.under l f) :=
  framesOnly_trans (framesOnly_trans framesOnly_asOf (hf _)) framesOnly_backFrom

theorem framesOnly_popFor {c : Ctx} {pages : List Nat} : s.framesOnly (s.popFor c pages).1 :=
  framesOnly_trans (framesOnly_trans framesOnly_asOf framesOnly_popPages) framesOnly_backFrom

/-! ## Returns (R192) -/

theorem framesOnly_unmapFrame {va fl : Nat} : s.framesOnly (s.unmapFrame p va fl) := by
  unfold State.unmapFrame
  refine framesOnly_each fun t k _ => ?_
  split
  · exact framesOnly_trans framesOnly_wrMem framesOnly_setPart
  · exact framesOnly_refl

theorem framesOnly_freeOne {x : Nat × Nat} : s.framesOnly (s.freeOne p x) := by
  unfold State.freeOne
  dsimp only
  split
  · exact framesOnly_trans framesOnly_wrMem framesOnly_setFld
  · exact framesOnly_trans framesOnly_violate framesOnly_setFld

theorem framesOnly_drainFree : s.framesOnly (s.drainFree p) := by
  unfold State.drainFree
  exact framesOnly_trans (framesOnly_each fun t x _ => framesOnly_freeOne) framesOnly_setPart

theorem framesOnly_giveBack {reason : Nat} {fs : List Nat} : s.framesOnly (s.giveBack p reason fs) := by
  unfold State.giveBack
  split
  · exact framesOnly_refl
  · dsimp only
    split
    · exact framesOnly_trans framesOnly_setPart framesOnly_drainFree
    · exact framesOnly_trans (framesOnly_trans framesOnly_setPart framesOnly_drainFree) framesOnly_bump

theorem framesOnly_freeFrames {c : Ctx} {reason : Nat} : s.framesOnly (s.freeFrames c reason) := by
  unfold State.freeFrames
  refine framesOnly_under fun t => ?_
  dsimp only
  split
  · exact framesOnly_each fun t x _ => framesOnly_unmapFrame
  · exact framesOnly_trans (framesOnly_each fun t x _ => framesOnly_unmapFrame) framesOnly_giveBack

/-! ## What stays -/

theorem ctx_of_framesOnly (h : s.framesOnly t) : t.ctx i = s.ctx i := by
  rw [h]
  rfl

theorem auxOf_of_framesOnly (h : s.framesOnly t) : t.auxOf i = s.auxOf i := by
  rw [h]
  rfl

end Sys2Proof.Machine
end


section
/-! PROOFS. KV_PARK and KV_RESTORE (R187, R201 to R203, R221, R512). -/

namespace Sys2Proof.Machine

variable {s t b u v : State} {h : Hdr} {i j p q : Nat} {m : Move}

/-! ## A park begins (R201) -/

/-- The parked image of a context in bytes, and the 64 KiB extents that it takes. -/
def State.imageBytes (s : State) (i : Nat) : Nat := parkBytes (s.imgOf (s.ctx i)) (s.ctx i) (s.auxOf i).npx

/-- The state in which a park has begun at extent e. -/
def State.parkBegun (s : State) (i e : Nat) (reply : Option (Hdr × Nat)) : State :=
  (s.setPart (s.ctx i).part { s.part (s.ctx i).part with
      extents := (s.part (s.ctx i).part).extents ++ [(e, ceilDiv (s.imageBytes i) 65536)] }).setAux i
    { s.auxOf i with park := some { extent := e, bytes := s.imageBytes i, reply := reply } }

theorem parkBegun_begins {e : Nat} {reply : Option (Hdr × Nat)} :
    ((s.parkBegun i e reply).auxOf i).park = some { extent := e, bytes := s.imageBytes i, reply := reply } ∧
      ((s.parkBegun i e reply).part (s.ctx i).part).extents = (s.part (s.ctx i).part).extents ++ [(e, ceilDiv (s.imageBytes i) 65536)] ∧
      (∀ j, j ≠ i → (s.parkBegun i e reply).auxOf j = s.auxOf j) ∧ (∀ q, q ≠ (s.ctx i).part → (s.parkBegun i e reply).part q = s.part q) ∧
      s.parkBegun i e reply = { s with parts := (s.parkBegun i e reply).parts, aux := (s.parkBegun i e reply).aux } := by
  unfold State.parkBegun
  refine ⟨?_, ?_, fun j hj => ?_, fun q hq => ?_, rfl⟩
  · rw [State.auxOf_setAux_self]
  · rw [State.setAux_part_acc, State.part_setPart_self]
  · rw [State.auxOf_setAux_ne hj, State.setPart_auxOf_acc]
  · rw [State.setAux_part_acc, State.part_setPart_ne hq]

theorem startPark_of_fit {reply : Option (Hdr × Nat)} {e : Nat}
    (he : firstFit ((s.part (s.ctx i).part).screeBytes / 65536) (ceilDiv (s.imageBytes i) 65536) (s.part (s.ctx i).part).extents = some e) :
    s.startPark i reply = (s.parkBegun i e reply, true) := by
  unfold State.imageBytes at he
  unfold State.startPark
  dsimp only
  rw [he]
  rfl

theorem startPark_of_no_fit {reply : Option (Hdr × Nat)}
    (he : firstFit ((s.part (s.ctx i).part).screeBytes / 65536) (ceilDiv (s.imageBytes i) 65536) (s.part (s.ctx i).part).extents = none) :
    s.startPark i reply = (s.bump (Reg.KVT_PART_CNT (s.ctx i).part) Fld.KVT_PART_CNT_PARK_NOSPACE, false) := by
  unfold State.imageBytes at he
  unfold State.startPark
  dsimp only
  rw [he]

theorem applyOp_park (hst : (s.ctx i).st = .paused) (hpark : (s.auxOf i).park = none) :
    s.applyOp i (.park h) = if (s.startPark i (some (h, 0x0C))).2 then (s.startPark i (some (h, 0x0C))).1
      else (s.startPark i (some (h, 0x0C))).1.reply h 0x0C stNoResource 0 0 := by
  unfold State.applyOp
  dsimp only
  rw [hst, if_neg (by decide), if_neg (by decide), hpark]

theorem exec_kvPark {context : BitVec 32} (ht : s.takesD h 0x0C 8)
    (hchk : firstFail ((s.takePacket h).chkCtx h.fn context ++
      [(s.takePacket h).chkState context.toNat [.paused], (s.takePacket h).chkHome ((s.takePacket h).ctx context.toNat)]) = .pass) :
    exec (.kvPark h context 0) s = .next ((s.takePacket h).actOn context.toNat (.park h)) := by
  show Host.Outcome.next (s.dPacket h 0x0C 8 _) = _
  rw [dPacket_of_takesD ht]
  exact congrArg Host.Outcome.next (checked_of_pass (firstFail_second_pass.trans hchk))

/-! ## A park is given up (R203) -/

/-- The state in which a park has been given up, before its KV_PARK is answered. -/
def State.parkDropped (s : State) (i : Nat) (m : Move) : State :=
  (s.freeExtents (s.ctx i).part m.extent).setAux i { s.auxOf i with park := none }

theorem cancelPark_of_none (hp : (s.auxOf i).park = none) : s.cancelPark i = s := by
  unfold State.cancelPark
  dsimp only
  rw [hp]

theorem cancelPark_of_park (hp : (s.auxOf i).park = some m) : (s.parkDropped i m).repliesOnly (s.cancelPark i) := by
  unfold State.cancelPark
  dsimp only
  rw [hp]
  dsimp only
  split
  · exact repliesOnly_reply
  · exact repliesOnly_refl

theorem parkDropped_park : ((s.parkDropped i m).auxOf i).park = none := by
  rw [State.parkDropped, State.auxOf_setAux_self]

theorem parkDropped_frame : s.parkDropped i m = { s with parts := (s.parkDropped i m).parts, aux := (s.parkDropped i m).aux } := rfl

/-- A park given up, by what stays. -/
theorem cancelPark_frame : s.cancelPark i = { s with
    parts := (s.cancelPark i).parts, aux := (s.cancelPark i).aux, regs := (s.cancelPark i).regs, pairs := (s.cancelPark i).pairs } := by
  cases hp : (s.auxOf i).park with
  | none => rw [cancelPark_of_none hp]
  | some m =>
    have h := (cancelPark_of_park hp).1
    have hd := parkDropped_frame (s := s) (i := i) (m := m)
    generalize s.parkDropped i m = d at h hd
    generalize s.cancelPark i = c at h ⊢
    rw [h, hd]

theorem cancelPark_park : ((s.cancelPark i).auxOf i).park = none := by
  cases hp : (s.auxOf i).park with
  | none => rw [cancelPark_of_none hp, hp]
  | some m =>
    rw [(cancelPark_of_park hp).1]
    exact parkDropped_park

/-! ## The cache after a park is given up (R222) -/

theorem filter_tset_tset_length {α : Type} [DecidableEq α] {d x y : α} {f : Nat × α → Bool} {l : Tbl α} :
    ((tset d (tset d l i x) i y).filter f).length ≤ (l.filter f).length + 1 := by
  by_cases hx : x = d
  · refine Nat.le_trans filter_tset_length (Nat.succ_le_succ ?_)
    rw [tset, if_pos hx]
    exact filter_tdel_length
  · by_cases hy : y = d
    · rw [tset, if_pos hy]
      exact Nat.le_trans filter_tdel_length filter_tset_length
    · unfold tset
      rw [if_neg hx, if_neg hy, tins_tins]
      exact filter_tins_length

/-- Where the record of context i was replaced before its descriptor enters the cache, the two together add one entry at most. -/
theorem touch_mem_of_setAux {a : CtxAux} (haux : t.aux = tset {} s.aux i a) (hhome : ∀ j, t.homeOf (t.ctx j) = s.homeOf (s.ctx j))
    (hlen : (s.cached (s.homeOf (s.ctx i))).length < 16384) : (t.touch i).mem = t.mem := by
  rcases touch_cases (s := t) (i := i) with ht | ⟨j, -, hfull⟩
  · rw [ht]
    rfl
  · have hsame : ((t.recached i).cached ((t.recached i).homeOf ((t.recached i).ctx i))) =
        ((tset {} (tset {} s.aux i a) i { t.auxOf i with lru := t.sched.lruSeq + 1, dirty := true }).filter fun x =>
          x.2.lru != 0 && s.homeOf (s.ctx x.1) == s.homeOf (s.ctx i)).map Prod.fst := by
      simp only [← haux, ← hhome]
      rfl
    rw [hsame, List.length_map] at hfull
    have hle := filter_tset_tset_length (i := i) (d := ({} : CtxAux)) (x := a) (y := { t.auxOf i with lru := t.sched.lruSeq + 1, dirty := true })
      (f := fun x => x.2.lru != 0 && s.homeOf (s.ctx x.1) == s.homeOf (s.ctx i)) (l := s.aux)
    simp only [State.cached, List.length_map] at hlen
    omega

/-! ## KV_RESTORE (R203, R512) -/

/-- A KV_RESTORE's effect on a context that is being parked: the park is given up, and the context is as if it had just paused (R203). -/
def State.parkGivenUp (s : State) (i : Nat) : State :=
  (s.cancelPark i).editCtx i { (s.cancelPark i).ctx i with timestamp := (s.cancelPark i).time }

theorem cancelPark_ctx : (s.cancelPark i).ctx j = s.ctx j := by
  rw [cancelPark_frame]
  rfl

theorem parkGivenUp_mem (hsome : (s.auxOf i).park.isSome = true) (hlen : (s.cached (s.homeOf (s.ctx i))).length < 16384) :
    (s.parkGivenUp i).mem = s.mem := by
  obtain ⟨m, hm⟩ := Option.isSome_iff_exists.mp hsome
  have haux : (s.cancelPark i).aux = tset {} s.aux i { s.auxOf i with park := none } := by
    rw [(cancelPark_of_park hm).1]
    rfl
  have hframe := cancelPark_frame (s := s) (i := i)
  have hctx : ∀ j, (s.cancelPark i).ctx j = s.ctx j := fun j => cancelPark_ctx
  rw [State.parkGivenUp, State.editCtx]
  generalize s.cancelPark i = c at haux hframe hctx ⊢
  have hplace : ∀ d, c.homeOf d = s.homeOf d := fun d => by rw [hframe]; rfl
  rw [touch_mem_of_setAux (s := s) (t := c.setCtx i { c.ctx i with timestamp := c.time }) haux (fun j => ?_) hlen]
  · rw [State.setCtx_mem, hframe]
  · rcases eq_or_ne j i with rfl | hj
    · rw [State.ctx_setCtx_self, ← hctx j, ← hplace]
      rfl
    · rw [State.ctx_setCtx_ne hj, ← hctx j, ← hplace]
      rfl

theorem parkGivenUp_gives (hsome : (s.auxOf i).park.isSome = true) :
    ((s.parkGivenUp i).auxOf i).park = none ∧ (s.parkGivenUp i).ctx i = { s.ctx i with timestamp := s.time } ∧
      (∀ j, j ≠ i → (s.parkGivenUp i).ctx j = s.ctx j) ∧
      ((s.cached (s.homeOf (s.ctx i))).length < 16384 → (s.parkGivenUp i).mem = s.mem) ∧
      s.parkGivenUp i = { s with
        ctxs := (s.parkGivenUp i).ctxs, aux := (s.parkGivenUp i).aux, sched := (s.parkGivenUp i).sched, mem := (s.parkGivenUp i).mem,
        parts := (s.parkGivenUp i).parts, pairs := (s.parkGivenUp i).pairs, regs := (s.parkGivenUp i).regs } := by
  refine ⟨?_, ?_, fun j hj => ?_, parkGivenUp_mem hsome, ?_⟩
  · obtain ⟨l, d, haux⟩ := editCtx_auxOf (s := s.cancelPark i) (i := i) (j := i)
      (c := { (s.cancelPark i).ctx i with timestamp := (s.cancelPark i).time })
    rw [State.parkGivenUp, haux]
    exact cancelPark_park
  · rw [State.parkGivenUp, editCtx_ctx_self, cancelPark_ctx, cancelPark_time]
  · rw [State.parkGivenUp, editCtx_ctx_ne hj, cancelPark_ctx]
  · have hframe := cancelPark_frame (s := s) (i := i)
    unfold State.parkGivenUp
    generalize s.cancelPark i = c at hframe ⊢
    have hedit := editCtx_frame (s := c) (i := i) (c := { c.ctx i with timestamp := c.time })
    generalize c.editCtx i { c.ctx i with timestamp := c.time } = u at hedit ⊢
    rw [hedit, hframe]

/-- The reply of a KV_RESTORE whose restore began, stalled, or met a page without a table. -/
def State.restoreReplied (s : State) (h : Hdr) (i : Nat) : Pops → State
  | .ok => s
  | .starved _ => (s.setAux i { s.auxOf i with restore := (s.auxOf i).restore.map fun m => { m with reply := none } }).reply h 0x0D stStarved 0 0
  | .noTable va => s.reply h 0x0D stViolation 0 (va % 2 ^ 48)

/-- A park of the context is in progress and its frames have not been returned. -/
def State.parking (s : State) (i : Nat) : Bool := (s.auxOf i).park.isSome && (s.ctx i).st == .paused && !(s.parkFreed i)

/-- The checks of a KV_RESTORE whose context may be restored. -/
def State.restorable (s : State) (h : Hdr) (context : BitVec 32) : Prop :=
  firstFail (s.chkCtx h.fn context ++ [chkSt ((s.viewCtx context.toNat).st != .expired) stExpired, s.chkHome (s.ctx context.toNat)]) = .pass ∧
    (if s.parking context.toNat || s.parkFreed context.toNat then .pass else s.chkState context.toNat [.parked]) = Chk.pass

theorem restorable_chks {context : BitVec 32} (hr : s.restorable h context) : firstFail (s.chkCtx h.fn context ++
    [chkSt ((s.viewCtx context.toNat).st != .expired) stExpired,
      if s.parking context.toNat || s.parkFreed context.toNat then .pass else s.chkState context.toNat [.parked],
      chkForm ((0 : BitVec 32) == 0) 4, s.chkHome (s.ctx context.toNat)]) = .pass := by
  rw [hr.2, firstFail_second_pass, chkForm_true (by rfl), firstFail_second_pass]
  exact hr.1

theorem exec_kvRestore_of_parking {context : BitVec 32} (ht : s.takesD h 0x0D 8) (hr : (s.takePacket h).restorable h context)
    (hp : (s.takePacket h).parking context.toNat = true) : exec (.kvRestore h context 0) s =
      .next (((s.takePacket h).parkGivenUp context.toNat).reply h 0x0D stOK 0 0) := by
  show Host.Outcome.next (s.dPacket h 0x0D 8 _) = _
  rw [dPacket_of_takesD ht]
  refine congrArg Host.Outcome.next ((checked_of_pass (restorable_chks hr)).trans ?_)
  exact if_pos hp

theorem exec_kvRestore_of_moving {context : BitVec 32} {r : Pops} (ht : s.takesD h 0x0D 8) (hr : (s.takePacket h).restorable h context)
    (hp : (s.takePacket h).parking context.toNat = false)
    (hv : ((s.takePacket h).stopPark context.toNat).startRestore context.toNat none (some (h, 0x0D)) = (v, r)) :
    exec (.kvRestore h context 0) s = .next (v.restoreReplied h context.toNat r) := by
  show Host.Outcome.next (s.dPacket h 0x0D 8 _) = _
  rw [dPacket_of_takesD ht]
  refine congrArg Host.Outcome.next ((checked_of_pass (restorable_chks hr)).trans ?_)
  refine (if_neg (c := (s.takePacket h).parking context.toNat = true) (by simp [hp])).trans ?_
  rw [hv]
  cases r <;> rfl

/-- The restore of a context, before its frames are there. -/
def State.restoreMove (s : State) (i : Nat) (op : Option HeldOp) (reply : Option (Hdr × Nat)) : Move :=
  { extent := (s.ctx i).parkExt, bytes := parkBytes (s.imgOf (s.ctx i)) (s.ctx i) (s.auxOf i).npx, thenOp := op, reply := reply }

theorem restoreFilled_restore (hr : (s.auxOf i).restore = some m) : ((s.restoreFilled i).auxOf i).restore = some { m with ready := true } := by
  unfold State.restoreFilled
  dsimp only
  rw [hr]
  dsimp only
  rw [State.auxOf_setAux_self]

/-- A restore whose pops all succeeded is ready, and owes the reply it was given. -/
theorem startRestore_ready {op : Option HeldOp} {reply : Option (Hdr × Nat)} (hv : s.startRestore i op reply = (v, .ok)) :
    ∃ m, (v.auxOf i).restore = some m ∧ m.ready = true ∧ m.reply = reply := by
  unfold State.startRestore at hv
  dsimp only at hv
  have hpop := auxOf_of_framesOnly (i := i) (framesOnly_popFor
    (s := s.setAux i { s.auxOf i with restore := some (s.restoreMove i op reply) }) (c := s.ctx i) (pages := (parkPages (s.imgOf (s.ctx i)) (s.ctx i) (s.auxOf i).npx).map Prod.fst))
  rw [State.auxOf_setAux_self] at hpop
  unfold State.restoreMove at hpop
  split at hv
  · next s1 heq =>
    rw [heq] at hpop
    obtain ⟨rfl, -⟩ := Prod.mk.inj hv
    exact ⟨_, restoreFilled_restore (m := s.restoreMove i op reply) (by rw [show s1.auxOf i = _ from hpop]; rfl), rfl, rfl⟩
  · cases (Prod.mk.inj hv).2
  · cases (Prod.mk.inj hv).2

end Sys2Proof.Machine

namespace Sys2Proof

open Machine

/-- Settles O26. -/
theorem parksAndRestoresBegin : Obligations.ParksAndRestoresBegin := by
  intro s h context b i hb hi
  subst hb hi
  refine ⟨fun ht hchk => ⟨fun hheld => ?_, fun hstep hrest hpark hst => ⟨fun e he => ?_, fun he => ?_⟩⟩,
    fun ht hchk => ⟨fun hsome hst hfreed => ?_, fun hmove => ?_⟩⟩
  · rw [exec_kvPark ht hchk, actOn_of_held hheld]
  · rw [exec_kvPark ht hchk, actOn_of_free hstep hrest, applyOp_park hst hpark, startPark_of_fit he, if_pos rfl]
    exact ⟨_, rfl, parkBegun_begins⟩
  · rw [exec_kvPark ht hchk, actOn_of_free hstep hrest, applyOp_park hst hpark, startPark_of_no_fit he]
    exact congrArg Host.Outcome.next (if_neg Bool.false_ne_true)
  · have hp : (s.takePacket h).parking context.toNat = true := by
      rw [State.parking, hsome, hst, hfreed]
      rfl
    rw [exec_kvRestore_of_parking ht ⟨hchk, by rw [hp]; rfl⟩ hp]
    obtain ⟨hpark, hctx, hother, hmem, hframe⟩ := parkGivenUp_gives (s := s.takePacket h) (i := context.toNat) hsome
    refine ⟨_, rfl, hpark, ?_, hother, fun hlen => ?_, hframe⟩
    · rw [hctx, takePacket_time]
    · rw [hmem hlen, takePacket_frame]
  · have hp : (s.takePacket h).parking context.toNat = false := by
      rw [State.parking]
      rcases hmove with hfreed | ⟨hnone, -⟩
      · simp [hfreed]
      · simp [hnone]
    have hx : (if (s.takePacket h).parking context.toNat || (s.takePacket h).parkFreed context.toNat then .pass
        else (s.takePacket h).chkState context.toNat [.parked]) = Chk.pass := by
      rw [hp]
      rcases hmove with hfreed | ⟨-, hview⟩
      · rw [hfreed]
        rfl
      · split
        · rfl
        · rw [State.chkState, hview]
          rfl
    refine ⟨fun v hv => ?_, fun v left hv => ?_, fun v va hv => ?_⟩
    · rw [exec_kvRestore_of_moving ht ⟨hchk, hx⟩ hp hv]
      exact ⟨rfl, startRestore_ready hv⟩
    · rw [exec_kvRestore_of_moving ht ⟨hchk, hx⟩ hp hv]
      exact ⟨_, rfl, rfl⟩
    · rw [exec_kvRestore_of_moving ht ⟨hchk, hx⟩ hp hv]
      rfl

end Sys2Proof
end

section
/-! PROOFS. The start of a long operation (R308, R309). -/

namespace Sys2Proof.Machine

variable {s b t u : State} {h : Hdr} {c : CPacket} {total : Nat}

/-- The record under which a packet's long operation begins. -/
def State.newLong (s : State) (h : Hdr) (c : CPacket) (total : Nat) : LongOp :=
  { id := s.sched.longSeq, h := h, pkt := c, total := total, startAt := s.now, progAt := s.time }

/-- The operation is recorded and has its number. -/
def State.longRecorded (s : State) (h : Hdr) (c : CPacket) (total : Nat) : State :=
  { s with longOps := s.longOps ++ [s.newLong h c total], sched := { s.sched with longSeq := s.sched.longSeq + 1 } }

/-- The operation is recorded and counted, and its first PROGRESS is written. -/
def State.longStarted (s : State) (h : Hdr) (c : CPacket) (total : Nat) : State :=
  ((s.longRecorded h c total).countLong h.fn).replyAs false h c.opcode stProgress 0 0

theorem longFull_iff : s.longFull h ↔ (4 ≤ (s.longOps.filter fun o => o.h.fn == h.fn).length || 64 ≤ s.longOps.length) = true := by
  rw [State.longFull, Bool.or_eq_true, decide_eq_true_eq, decide_eq_true_eq]

theorem startLong_of_full {act : LongOp → State → State} (hfull : s.longFull h) :
    s.startLong h c total act = s.reply h c.opcode stDeferred 0 0 := if_pos (longFull_iff.mp hfull)

theorem startLong_of_room {act : LongOp → State → State} (hroom : ¬s.longFull h) :
    s.startLong h c total act = act (s.newLong h c total) (s.longStarted h c total) := if_neg fun hfull => hroom (longFull_iff.mpr hfull)

/-- A PROGRESS reply only enters its completion ring. -/
theorem replyAs_progress {op detail result : Nat} : s.replyAs false h op stProgress detail result =
    s.post h.fn h.ring { replyOut h op stProgress detail result false 0 with since := 0 } := rfl

theorem post_of_on {f r : Nat} {o : Out} (hon : s.pairOn f r = true) :
    s.post f r o = s.setPair f r { s.pair f r with out := (s.pair f r).out ++ [{ o with since := s.now }] } := by rw [post_eq, if_pos hon]

theorem replyAs_progress_of_on {op detail result : Nat} (hon : s.pairOn h.fn h.ring = true) : s.replyAs false h op stProgress detail result =
    s.setPair h.fn h.ring { s.pair h.fn h.ring with
      out := (s.pair h.fn h.ring).out ++ [replyOut h op stProgress detail result false s.now] } := by
  rw [replyAs_progress, post_of_on hon]
  rfl

theorem countLong_pairOn {p f r : Nat} (hf : f < 64) (hp : p < 64) (hr : r < 17) : (s.countLong p).pairOn f r = s.pairOn f r := by
  have hne : (Reg.SCH_RING_CFG f r).key ≠ (Reg.SCH_FN_STAT p).key := by
    simp only [Reg.SCH_RING_CFG, Reg.SCH_FN_STAT]
    omega
  rw [State.pairOn, State.pairOn, State.flag, State.flag, State.countLong, State.fld_setFld_ne hne]

theorem longRecorded_pair {f r : Nat} : ((s.longRecorded h c total).countLong h.fn).pair f r = s.pair f r := by
  rw [State.countLong, State.setFld_pair_acc, State.pair, State.pair, State.longRecorded]

theorem longRecorded_pairOn (hf : h.fn < 64) (hr : h.ring < 17) :
    ((s.longRecorded h c total).countLong h.fn).pairOn h.fn h.ring = s.pairOn h.fn h.ring := by
  rw [countLong_pairOn hf hf hr, State.pairOn, State.pairOn, State.flag, State.flag, State.fld_of_regs (s := s) (t := s.longRecorded h c total) rfl]

theorem longStarted_eq (hf : h.fn < 64) (hr : h.ring < 17) (hon : s.pairOn h.fn h.ring = true) : s.longStarted h c total =
    ((s.longRecorded h c total).countLong h.fn).setPair h.fn h.ring { s.pair h.fn h.ring with
      out := (s.pair h.fn h.ring).out ++ [replyOut h c.opcode stProgress 0 0 false s.now] } := by
  have hnow : ((s.longRecorded h c total).countLong h.fn).now = s.now := by rw [State.countLong, State.setFld_now, State.longRecorded]
  rw [State.longStarted, replyAs_progress_of_on ((longRecorded_pairOn hf hr).trans hon), longRecorded_pair, hnow]

theorem longStarted_frame : s.longStarted h c total = { s with
    regs := (s.longStarted h c total).regs, pairs := (s.longStarted h c total).pairs, longOps := s.longOps ++ [s.newLong h c total],
    sched := { s.sched with longSeq := s.sched.longSeq + 1 } } := by
  have hkept : (s.longRecorded h c total).repliesOnly (s.longStarted h c total) :=
    repliesOnly_trans ⟨setFld_frame, fun _ hP => keepsRegs_setFld (hP.1 h.fn)⟩ repliesOnly_replyAs
  generalize s.longStarted h c total = t at hkept ⊢
  exact hkept.1

theorem longStarted_keepsRegs {P : Nat → Prop} (hP : offRings P) : s.keepsRegs (s.longStarted h c total) P :=
  keepsRegs_trans (keepsRegs_of_regs (t := s.longRecorded h c total) rfl)
    (keepsRegs_trans (longOnly_countLong.2 P hP) (repliesOnly_replyAs.2 P hP))

theorem filter_append_new {l : List LongOp} {o : LongOp} : ((l ++ [o]).filter fun x => x.id != o.id) = l.filter fun x => x.id != o.id := by
  simp

/-- Of what tells that a long operation has begun nothing differs. -/
def State.longKept (s t : State) (h : Hdr) : Prop :=
  t.longOps = s.longOps ∧ t.sched.longSeq = s.sched.longSeq ∧
    t.fld (Reg.SCH_FN_STAT h.fn) Fld.SCH_FN_STAT_LONG_OPS = s.fld (Reg.SCH_FN_STAT h.fn) Fld.SCH_FN_STAT_LONG_OPS ∧
    (t.pair h.fn h.ring).out = (s.pair h.fn h.ring).out

theorem longKept_refl : s.longKept s h := ⟨rfl, rfl, rfl, rfl⟩

theorem longKept_trans (h1 : s.longKept t h) (h2 : t.longKept u h) : s.longKept u h := by
  obtain ⟨hops, hseq, hcount, hout⟩ := h1
  obtain ⟨kops, kseq, kcount, kout⟩ := h2
  exact ⟨kops.trans hops, kseq.trans hseq, kcount.trans hcount, kout.trans hout⟩

theorem longKept_of_frame (hregs : t.regs = s.regs) (hops : t.longOps = s.longOps) (hsched : t.sched = s.sched) (hpairs : t.pairs = s.pairs) :
    s.longKept t h :=
  ⟨hops, by rw [hsched], State.fld_of_regs hregs, by rw [State.pair, State.pair, hpairs]⟩

theorem longKept_each {α : Type} {xs : List α} {g : State → α → State} (hg : ∀ (t : State) x, x ∈ xs → t.longKept (g t x) h) :
    s.longKept (s.each xs g) h :=
  each_induction (P := fun t => s.longKept t h) longKept_refl fun t x hx ht => longKept_trans ht (hg t x hx)

/-- A field of a register with a key that is written is the same whatever its reset value. -/
theorem getBits_tget {l : Tbl Word64} {d e : Word64} {k lo w : Nat} (hd : getBits d lo w = getBits e lo w) :
    getBits (tget d l k) lo w = getBits (tget e l k) lo w := by
  induction l with
  | nil => exact hd
  | cons x xs ih =>
    unfold tget
    split
    · rfl
    · exact ih

/-- A write of a field of another register, or of a field beside the count in a register with zeros there, does not touch the count. -/
theorem fld_setFld_count {r q : RegRef} {f g : Field} {x : Nat} (hf : g.lo + g.w ≤ f.lo ∨ f.lo + f.w ≤ g.lo)
    (hd : getBits r.dflt g.lo g.w = getBits q.dflt g.lo g.w) : (s.setFld r f x).fld q g = s.fld q g := by
  by_cases hk : q.key = r.key
  · have hread : ∀ v : State, v.fld q g = v.fld r g := fun v => by
      rw [State.fld, State.fld, State.reg, State.reg, hk]
      exact getBits_tget hd.symm
    rw [hread, hread, State.fld_setFld_of_disjoint hf]
  · exact State.fld_setFld_ne hk

theorem longKept_setFld {r : RegRef} {f : Field} {x : Nat} (hf : f.lo + f.w ≤ 32) (hd : getBits r.dflt 32 8 = 0) : s.longKept (s.setFld r f x) h :=
  ⟨State.setFld_longOps, by rw [State.setFld_sched], fld_setFld_count (.inr hf) (hd.trans (show 0 = getBits 0 32 8 by decide)),
    by rw [State.setFld_pair_acc]⟩

theorem longKept_setFlag {r : RegRef} {f : Field} {x : Bool} (hf : f.lo + f.w ≤ 32) (hd : getBits r.dflt 32 8 = 0) : s.longKept (s.setFlag r f x) h :=
  longKept_setFld hf hd

theorem longBegins_of_longKept {done : Nat} {wait : List Nat} (hb : s.longBegins t h c total done wait) (hk : t.longKept u h) :
    s.longBegins u h c total done wait := by
  obtain ⟨hlen, hothers, hlast, hseq, hcount, hout⟩ := hb
  obtain ⟨kops, kseq, kcount, kout⟩ := hk
  exact ⟨kops ▸ hlen, kops ▸ hothers, kops ▸ hlast, kseq.trans hseq, kcount.trans hcount, kout.trans hout⟩

/-- The count of a function's operations in progress fits its field while there is room. -/
theorem longRecorded_counted (hroom : ¬s.longFull h) :
    ((s.longRecorded h c total).countLong h.fn).fld (Reg.SCH_FN_STAT h.fn) Fld.SCH_FN_STAT_LONG_OPS =
      (s.longOps.filter fun o => o.h.fn == h.fn).length + 1 := by
  rw [State.countLong, State.fld_setFld_self (by decide)]
  have hlen : ((s.longRecorded h c total).longOps.filter fun o => o.h.fn == h.fn).length = (s.longOps.filter fun o => o.h.fn == h.fn).length + 1 := by
    simp [State.longRecorded, State.newLong]
  have hlt : ¬4 ≤ (s.longOps.filter fun o => o.h.fn == h.fn).length := fun h4 => hroom (.inl h4)
  rw [hlen]
  exact Nat.mod_eq_of_lt (show _ < 2 ^ 8 by omega)

theorem longBegins_longStarted (hf : h.fn < 64) (hr : h.ring < 17) (hon : s.pairOn h.fn h.ring = true) (hroom : ¬s.longFull h) :
    s.longBegins (s.longStarted h c total) h c total 0 [] := by
  have hops : (s.longStarted h c total).longOps = s.longOps ++ [s.newLong h c total] := by rw [longStarted_frame]
  refine ⟨by simp [hops], by rw [hops]; exact filter_append_new (o := s.newLong h c total), by simp [hops, State.newLong], by rw [longStarted_frame], ?_, ?_⟩
  · rw [longStarted_eq hf hr hon, State.fld_of_regs setPair_regs]
    exact longRecorded_counted hroom
  · rw [longStarted_eq hf hr hon, State.pair_setPair_self]

/-- The record of an operation that has just begun may take what is already done and what it waits for. -/
theorem longBegins_setLong {done : Nat} {wait : List Nat} (hb : s.longBegins t h c total 0 []) :
    s.longBegins (t.setLong { s.newLong h c total with done := done, wait := wait }) h c total done wait := by
  obtain ⟨hlen, hothers, hlast, hseq, hcount, hout⟩ := hb
  refine ⟨by simpa [State.setLong] using hlen, ?_, ?_, hseq, hcount, hout⟩
  · rw [← hothers]
    simp only [State.setLong, State.newLong]
    induction t.longOps with
    | nil => rfl
    | cons x xs ih =>
      rw [List.map_cons, List.filter_cons, List.filter_cons, ih]
      by_cases hx : x.id = s.sched.longSeq <;> simp [hx]
  · simp only [State.setLong, List.getLast?_map, hlast, State.newLong, Option.map_some, if_pos]

/-- A packet whose service starts a long operation. -/
theorem startsLong_of {i : Instr} {act : LongOp → State → State} {done : Nat} {wait : List Nat} {more : State → Prop}
    (hexec : exec i s = .next (b.startLong h c total act))
    (hact : ¬b.longFull h → b.longBegins (act (b.newLong h c total) (b.longStarted h c total)) h c total done wait ∧
      more (act (b.newLong h c total) (b.longStarted h c total))) : s.startsLong b i h c total done wait more :=
  ⟨fun hfull => by rw [hexec, startLong_of_full hfull],
    fun hroom => ⟨_, by rw [hexec, startLong_of_room hroom], hact hroom⟩⟩

/-- A packet that its processor serves came from a ring that is on. -/
theorem takesC_pairOn (ht : s.takesC h c) : h.fn < 64 ∧ h.ring < 17 ∧ (s.served h c).pairOn h.fn h.ring = true := by
  obtain ⟨hfn, hring⟩ := takesPacket_wf ht.1
  refine ⟨hfn, hring, ?_⟩
  have hkey : notIndices h (Reg.SCH_RING_CFG h.fn h.ring).key := by
    simp only [notIndices, Reg.SCH_RING_CFG, Reg.SCH_RING_IDX, Reg.SCH_RING_STAT]
    omega
  rw [State.pairOn, keepsRegs_flag served_keepsRegs hkey]
  obtain ⟨hf, -⟩ := ht.1
  simp only [State.fetchable, State.ringAsks, Bool.and_eq_true] at hf
  obtain ⟨⟨⟨⟨-, hon⟩, -⟩, -⟩, -⟩ := hf.1.2
  exact hon

end Sys2Proof.Machine

end

section
/-! PROOFS. CAL_RUN, TEST_RUN, FW_STAGE and FW_ACTIVATE (R308, R416, R483, R484, R506). -/

namespace Sys2Proof.Machine

variable {s t u : State} {h : Hdr}

/-! ## Requests held and runs begun -/

/-- What requests for runs and the start of runs may change. -/
def State.runsOnly (s t : State) : Prop := t = { s with regs := t.regs, cal := t.cal, hkc := t.hkc, ports := t.ports }

theorem runsOnly_refl : s.runsOnly s := rfl

theorem runsOnly_trans (h1 : s.runsOnly t) (h2 : t.runsOnly u) : s.runsOnly u := by
  unfold State.runsOnly at h1 h2
  exact h2.trans (by rw [h1])

theorem runsOnly_each {α : Type} {xs : List α} {g : State → α → State} (hg : ∀ (t : State) x, x ∈ xs → t.runsOnly (g t x)) : s.runsOnly (s.each xs g) :=
  each_induction (P := s.runsOnly) runsOnly_refl fun t x hx ht => runsOnly_trans ht (hg t x hx)

theorem runsOnly_setFld {r : RegRef} {f : Field} {x : Nat} : s.runsOnly (s.setFld r f x) := rfl

/-- A run of the object is requested, or in progress. -/
def State.asked (s : State) (x : CalObj) : Prop := s.inRun x = true ∨ ∃ y ∈ s.cal.held, calKey y = calKey x

/-- Only requests for runs differ, and no request is lost. -/
def State.asksMore (s t : State) : Prop := s.runsOnly t ∧ (∀ h, s.longKept t h) ∧ ∀ x, s.asked x → t.asked x

theorem asksMore_refl : s.asksMore s := ⟨runsOnly_refl, fun _ => longKept_refl, fun _ hx => hx⟩

theorem asksMore_trans (h1 : s.asksMore t) (h2 : t.asksMore u) : s.asksMore u := by
  obtain ⟨hframe, hkept, hasked⟩ := h1
  obtain ⟨kframe, kkept, kasked⟩ := h2
  exact ⟨runsOnly_trans hframe kframe, fun h => longKept_trans (hkept h) (kkept h), fun x hx => kasked x (hasked x hx)⟩

theorem asksMore_each {α : Type} {xs : List α} {g : State → α → State} (hg : ∀ (t : State) x, x ∈ xs → t.asksMore (g t x)) :
    s.asksMore (s.each xs g) :=
  each_induction (P := fun t => s.asksMore t) asksMore_refl fun t x hx ht => asksMore_trans ht (hg t x hx)

theorem asksMore_of_cal (hframe : s.runsOnly t) (hkept : ∀ h, s.longKept t h) (hcal : t.cal = s.cal) : s.asksMore t :=
  ⟨hframe, hkept, fun x hx => by unfold State.asked State.inRun at hx ⊢; rwa [hcal]⟩

theorem asksMore_setFld {r : RegRef} {f : Field} {x : Nat} (hf : f.lo + f.w ≤ 32) (hd : getBits r.dflt 32 8 = 0) : s.asksMore (s.setFld r f x) :=
  asksMore_of_cal runsOnly_setFld (fun _ => longKept_setFld hf hd) State.setFld_cal

theorem asksMore_setPort {n : Nat} {x : Port} : s.asksMore (s.setPort n x) := asksMore_of_cal rfl (fun _ => longKept_of_frame rfl rfl rfl rfl) rfl

theorem calHoldOne_asks {o : CalObj} : s.asksMore (s.calHoldOne o) ∧ (s.calHoldOne o).asked o := by
  unfold State.calHoldOne
  dsimp only
  split
  · refine ⟨⟨rfl, fun _ => longKept_of_frame rfl rfl rfl rfl, fun x hx => hx.imp id ?_⟩, .inr ⟨o, List.mem_append_right _ (List.mem_singleton_self o), rfl⟩⟩
    rintro ⟨y, hy, hk⟩
    exact ⟨y, List.mem_append_left _ hy, hk⟩
  next hany =>
    have hheld : ∃ y ∈ s.cal.held, calKey y = calKey o := by simpa using hany
    split
    next c =>
      have hmap : ∀ y ∈ s.cal.held, ∃ z ∈ s.cal.held.map (fun x => if calKey x == calKey (.cluster c true) then CalObj.cluster c true else x),
          calKey z = calKey y := fun y hy => ⟨_, List.mem_map_of_mem hy, by
        by_cases hk : calKey y = calKey (.cluster c true)
        · rw [if_pos (beq_iff_eq.mpr hk), hk]
        · rw [if_neg (by simpa using hk)]⟩
      refine ⟨⟨rfl, fun _ => longKept_of_frame rfl rfl rfl rfl, fun x hx => hx.imp id ?_⟩, .inr ?_⟩
      · rintro ⟨y, hy, hk⟩
        obtain ⟨z, hz, hzk⟩ := hmap y hy
        exact ⟨z, hz, hzk.trans hk⟩
      · obtain ⟨y, hy, hk⟩ := hheld
        obtain ⟨z, hz, hzk⟩ := hmap y hy
        exact ⟨z, hz, hzk.trans hk⟩
    · exact ⟨asksMore_refl, .inr hheld⟩

theorem calHold_asksMore {o : CalObj} : s.asksMore (s.calHold o) := asksMore_each fun _ _ _ => calHoldOne_asks.1

theorem calHold_asked {o : CalObj} (ho : calParts o = [o]) : (s.calHold o).asked o := by
  rw [State.calHold, ho]
  exact (calHoldOne_asks).2

theorem each_calHold_asked {os : List CalObj} (hos : ∀ o ∈ os, calParts o = [o]) : ∀ o ∈ os, (s.each os fun s x => s.calHold x).asked o := by
  induction os generalizing s with
  | nil => exact fun o ho => absurd ho List.not_mem_nil
  | cons x xs ih =>
    intro o ho
    rcases List.mem_cons.mp ho with rfl | hxs
    · have hmore : (s.calHold o).asksMore ((s.calHold o).each xs fun s x => s.calHold x) := asksMore_each fun _ _ _ => calHold_asksMore
      exact hmore.2.2 o (calHold_asked (hos o ho))
    · exact ih (fun y hy => hos y (List.mem_cons_of_mem x hy)) o hxs

theorem beginRun_asksMore {o : CalObj} : s.asksMore (s.beginRun o) := by
  refine ⟨rfl, fun _ => longKept_of_frame rfl rfl rfl rfl, fun x hx => ?_⟩
  by_cases hk : calKey o = calKey x
  · exact .inl (List.any_eq_true.mpr ⟨_, List.mem_append_right _ (List.mem_singleton_self _), beq_iff_eq.mpr hk⟩)
  · rcases hx with hrun | ⟨y, hy, hyx⟩
    · obtain ⟨z, hz, hzx⟩ := List.any_eq_true.mp hrun
      exact .inl (List.any_eq_true.mpr ⟨z, List.mem_append_left _ hz, hzx⟩)
    · exact .inr ⟨y, List.mem_filter.mpr ⟨hy, bne_iff_ne.mpr fun he => hk (he.symm.trans hyx)⟩, hyx⟩

theorem getBits_zero_word : getBits 0 32 8 = 0 := by decide

theorem markLanes_asksMore {n map : Nat} : s.asksMore (s.markLanes n map) :=
  asksMore_each fun _ _ _ => asksMore_setFld (by decide) getBits_zero_word

theorem announce_asksMore {n map : Nat} : s.asksMore (s.announce n map) := by
  unfold State.announce
  split
  · exact asksMore_trans asksMore_setPort markLanes_asksMore
  · split
    · exact asksMore_refl
    · exact asksMore_trans asksMore_setPort (asksMore_setFld (by decide) (show getBits 0x3FFFC00 32 8 = 0 by decide))

theorem laneOut_asksMore {n m : Nat} : s.asksMore (s.laneOut n m) := by
  have hlane : ∀ v : State, v.asksMore (v.setFld (laneReg n m) Fld.LNK_LANE_STATE 3) := fun _ => asksMore_setFld (by decide) getBits_zero_word
  unfold State.laneOut
  dsimp only
  split
  · split
    · exact hlane s
    · exact asksMore_refl
  · refine asksMore_trans ?_ announce_asksMore
    split
    · exact hlane s
    · exact asksMore_refl

theorem startRuns_asksMore : s.asksMore s.startRuns := by
  unfold State.startRuns
  refine asksMore_each fun t o _ => ?_
  split
  · exact asksMore_refl
  · refine asksMore_trans (t := t.beginRun o) beginRun_asksMore ?_
    dsimp only
    split
    · exact laneOut_asksMore
    · exact asksMore_of_cal rfl (fun _ => longKept_of_frame rfl rfl rfl rfl) rfl
    · exact asksMore_refl

/-! ## CAL_RUN -/

theorem portOfCluster_clusterOf {i : Nat} : portOfCluster (clusterOf i) = none := by
  have hlt : i % 272 < 272 := Nat.mod_lt _ (by decide)
  refine if_neg fun hport => ?_
  rw [clusterOf] at hport
  omega

/-- What a CAL_RUN names is calibrated object by object. -/
theorem calParts_of_calScope {scope index : Nat} {o : CalObj} (ho : o ∈ s.calScope scope index) : calParts o = [o] := by
  unfold State.calScope at ho
  split at ho
  · obtain ⟨i, -, rfl⟩ := List.mem_map.mp ho
    rfl
  · rw [calParts] at ho
    split at ho
    · obtain ⟨m, -, rfl⟩ := List.mem_map.mp ho
      rfl
    next hport =>
      rw [List.mem_singleton.mp ho, calParts, hport]
  · rw [List.mem_singleton.mp ho]
    rfl
  · rw [List.mem_singleton.mp ho]
    rfl
  · simp only [State.allObjects, List.mem_append, List.mem_map] at ho
    obtain (((⟨i, -, rfl⟩ | ⟨i, -, rfl⟩) | ⟨i, -, rfl⟩) | ⟨i, -, rfl⟩) | ⟨i, -, rfl⟩ := ho
    · rfl
    · rw [calParts, portOfCluster_clusterOf]
    · rfl
    · rfl
    · rfl

/-- The objects of a CAL_RUN that can be measured now. -/
def State.measurable (s : State) (scope index : Nat) : List CalObj :=
  (s.calScope scope index).filter fun o => match o with
    | .lane i => s.portSt (i / 17) == 2 || s.inRun o
    | _ => true

/-- What a CAL_RUN awaits of an object: its run, or the run after the one it is in. -/
def State.awaited (s : State) (x : CalObj) : Nat := calKey x + if s.inRun x then 65536 else 0

/-- A CAL_RUN that has begun requests its objects and starts what can run. -/
def State.runsAsked (s : State) (can : List CalObj) (o : LongOp) : State :=
  ((s.setLong { o with wait := can.map s.awaited }).each can fun s x => s.calHold x).startRuns

theorem serve_calRun {scope b : BitVec 8} {index : BitVec 16} {rsv : BitVec 32} (hp : s.partExists h.fn = true) :
    s.serve h (.calRun scope b index rsv) = s.svcCalRun h scope b index rsv := by
  rw [State.serve, hp]
  rfl

theorem svcCalRun_starts {scope : BitVec 8} {index : BitVec 16} (h4 : scope.toNat ≤ 4) (hok : scopeOk scope.toNat index.toNat = true)
    (hfree : ∃ x ∈ s.measurable scope.toNat index.toNat, s.inRun x = false) :
    s.svcCalRun h scope 0 index 0 = s.startLong h (.calRun scope 0 index 0) (s.measurable scope.toNat index.toNat).length
      fun o s' => s'.runsAsked (s.measurable scope.toNat index.toNat) o := by
  obtain ⟨x, hx, hrun⟩ := hfree
  have hne : (!(s.measurable scope.toNat index.toNat).isEmpty) = true := by
    rw [Bool.not_eq_true', List.isEmpty_eq_false_iff]
    exact List.ne_nil_of_mem hx
  have hany : ((s.measurable scope.toNat index.toNat).any fun o => !(s.inRun o)) = true := List.any_eq_true.mpr ⟨x, hx, by rw [hrun]; rfl⟩
  have hpass : firstFail [chkForm (decide (scope.toNat ≤ 4)) 0, chkForm ((0 : BitVec 8) == 0) 1, chkForm (scopeOk scope.toNat index.toNat) 2,
      chkForm ((0 : BitVec 32) == 0) 4, chkSt (!(s.measurable scope.toNat index.toNat).isEmpty) stNoResource,
      chkSt ((s.measurable scope.toNat index.toNat).any fun o => !(s.inRun o)) stDeferred] = .pass := by
    rw [chkForm_true (decide_eq_true h4), chkForm_true hok, chkSt_true hne, chkSt_true hany]
    rfl
  unfold State.svcCalRun
  exact checked_of_pass hpass

theorem runsAsked_asksMore {can : List CalObj} {o : LongOp} :
    (s.setLong { o with wait := can.map s.awaited }).asksMore (s.runsAsked can o) :=
  asksMore_trans (asksMore_each fun _ _ _ => calHold_asksMore) startRuns_asksMore

theorem runsAsked_asked {can : List CalObj} {o : LongOp} (hcan : ∀ x ∈ can, calParts x = [x]) : ∀ x ∈ can, (s.runsAsked can o).asked x :=
  fun x hx => (startRuns_asksMore).2.2 x (each_calHold_asked hcan x hx)

theorem awaited_of_cal (ht : t.cal = s.cal) : t.awaited = s.awaited := by
  funext x
  rw [State.awaited, State.awaited, State.inRun, State.inRun, ht]

theorem longStarted_cal {c : CPacket} {total : Nat} : (s.longStarted h c total).cal = s.cal := by rw [longStarted_frame]

/-- What the start of a long operation and requests for runs may change. -/
theorem runsOnly_frame {b : State} {o : LongOp} {l : List LongOp} {n : Nat}
    (hu : u = { b with regs := u.regs, pairs := u.pairs, longOps := l, sched := { b.sched with longSeq := n } })
    (ht : (u.setLong o).runsOnly t) : t = { b with
      regs := t.regs, pairs := t.pairs, longOps := t.longOps, cal := t.cal, hkc := t.hkc, ports := t.ports,
      sched := { b.sched with longSeq := n } } := by
  have hpairs : t.pairs = u.pairs := by rw [ht]; rfl
  have hops : t.longOps = (u.setLong o).longOps := by rw [ht]
  rw [hpairs, hops]
  exact Eq.trans ht (by rw [hu]; rfl)

/-! ## TEST_RUN -/

/-- Of the physical tiles and the registers of tests may differ, and no test at work ends. -/
def State.testsMore (s t : State) (h : Hdr) : Prop :=
  t = { s with regs := t.regs, phys := t.phys } ∧ s.longKept t h ∧ (∀ k, k < 1024 → t.physOf k = s.physOf k) ∧
    ∀ k, k < 1024 → s.testSt k ≠ 0 → t.testSt k ≠ 0

theorem testsMore_refl : s.testsMore s h := ⟨rfl, longKept_refl, fun _ _ => rfl, fun _ _ hk => hk⟩

theorem testsMore_trans (h1 : s.testsMore t h) (h2 : t.testsMore u h) : s.testsMore u h := by
  obtain ⟨hframe, hkept, hphys, htest⟩ := h1
  obtain ⟨kframe, kkept, kphys, ktest⟩ := h2
  exact ⟨kframe.trans (by rw [hframe]), longKept_trans hkept kkept, fun k hk => (kphys k hk).trans (hphys k hk), fun k hlt hk => ktest k hlt (htest k hlt hk)⟩

theorem testsMore_each {α : Type} {xs : List α} {g : State → α → State} (hg : ∀ (t : State) x, x ∈ xs → t.testsMore (g t x) h) :
    s.testsMore (s.each xs g) h :=
  each_induction (P := fun t => s.testsMore t h) testsMore_refl fun t x hx ht => testsMore_trans ht (hg t x hx)

theorem physOf_of_regs (ht : t.regs = s.regs) (k : Nat) : t.physOf k = s.physOf k := by
  unfold State.physOf State.flag
  dsimp only
  rw [State.fld_of_regs ht, State.fld_of_regs ht, State.fld_of_regs ht, State.fld_of_regs ht]

theorem testSt_of_regs (ht : t.regs = s.regs) {k : Nat} (hk : k < 1024) : t.testSt k = s.testSt k := by
  unfold State.testSt State.testFld State.testWord State.reg
  rw [if_pos hk, if_pos hk, ht]

theorem testsMore_of_regs (hframe : t = { s with phys := t.phys }) : s.testsMore t h := by
  have hregs : t.regs = s.regs := by rw [hframe]
  refine ⟨hframe.trans (by rw [hregs]), longKept_of_frame hregs (by rw [hframe]) (by rw [hframe]) (by rw [hframe]),
    fun k _ => physOf_of_regs hregs k, fun k hlt hk => by rwa [testSt_of_regs hregs hlt]⟩

theorem onTest_regs {k : Nat} {f : Phys → Phys} : (s.onTest k f).regs = s.regs := by
  unfold State.onTest
  split
  · rfl
  · rfl

theorem onTest_testsMore {k : Nat} {f : Phys → Phys} : s.testsMore (s.onTest k f) h := by
  unfold State.onTest
  split
  · exact testsMore_of_regs rfl
  · exact testsMore_refl

theorem tileTest_key_inj {j k : Nat} (h : (Reg.TILE_TEST k).key = (Reg.TILE_TEST j).key) : k = j := by
  simp only [Reg.TILE_TEST] at h
  omega

theorem setDue_testSt_self {j : Nat} (hj : j < 1024) : (s.setTestFld j Fld.TILE_TEST_STATE 1).testSt j ≠ 0 := by
  have hone : getBits (putBits (s.testWord j) 0 3 1) 0 3 = 1 := getBits_putBits_self (by decide)
  rw [State.setTestFld, State.setTestWord, if_pos hj, State.testSt, State.testFld, State.testWord, if_pos hj, State.reg_wrReg_self]
  exact fun h0 => absurd (hone.symm.trans h0) (by decide)

/-- A test that falls due keeps the count of long operations, the map of tiles and every test at work. -/
theorem setDue_testsMore {j : Nat} (hfn : h.fn < 64) : s.testsMore (s.setTestFld j Fld.TILE_TEST_STATE 1) h := by
  by_cases hj : j < 1024
  · have hkeep : s.keepsRegs (s.setTestFld j Fld.TILE_TEST_STATE 1) fun k => k ≠ (Reg.TILE_TEST j).key := by
      rw [State.setTestFld, State.setTestWord, if_pos hj]
      exact keepsRegs_wrReg fun hk => hk rfl
    have hcount : (Reg.SCH_FN_STAT h.fn).key ≠ (Reg.TILE_TEST j).key := by
      simp only [Reg.SCH_FN_STAT, Reg.TILE_TEST]
      omega
    have hframe : s.setTestFld j Fld.TILE_TEST_STATE 1 = { s with regs := (s.setTestFld j Fld.TILE_TEST_STATE 1).regs } := by
      rw [State.setTestFld, State.setTestWord, if_pos hj]
      rfl
    have hself := setDue_testSt_self (s := s) hj
    generalize s.setTestFld j Fld.TILE_TEST_STATE 1 = t at hkeep hframe hself
    refine ⟨hframe.trans (by rw [hframe]), ⟨by rw [hframe], by rw [hframe], keepsRegs_fld hkeep hcount, by rw [hframe]; rfl⟩, fun k hk => ?_,
      fun k hlt hk => ?_⟩
    · have hmap : (Reg.CFG_TILE_MAP k).key ≠ (Reg.TILE_TEST j).key := by
        simp only [Reg.CFG_TILE_MAP, Reg.TILE_TEST]
        omega
      unfold State.physOf State.flag
      dsimp only
      rw [keepsRegs_fld hkeep hmap, keepsRegs_fld hkeep hmap, keepsRegs_fld hkeep hmap, keepsRegs_fld hkeep hmap]
    · by_cases hkj : k = j
      · exact hkj ▸ hself
      · rw [State.testSt, State.testFld, State.testWord, if_pos hlt, hkeep _ fun he => hkj (tileTest_key_inj he)]
        rwa [State.testSt, State.testFld, State.testWord, if_pos hlt] at hk
  · unfold State.setTestFld State.setTestWord
    rw [if_neg hj]
    exact testsMore_of_regs rfl

theorem makeDue_testsMore {j round : Nat} (hfn : h.fn < 64) : s.testsMore (s.makeDue j round) h := by
  unfold State.makeDue
  split
  · exact testsMore_refl
  · exact testsMore_trans onTest_testsMore (setDue_testsMore hfn)

theorem makeDue_testSt {k round : Nat} (hlt : k < 1024) (hk : (s.physOf k).isSome = true) : (s.makeDue k round).testSt k ≠ 0 := by
  have hphys : (s.testPhys k).isNone = false := by
    rw [State.testPhys, if_pos hlt]
    cases hx : s.physOf k with
    | none => rw [hx] at hk; cases hk
    | some _ => rfl
  unfold State.makeDue
  split
  next hskip =>
    rw [Bool.or_eq_true, hphys, decide_eq_true_eq] at hskip
    exact hskip.resolve_left (by decide)
  · exact setDue_testSt_self hlt

/-- A round falls due on a tile that a TEST_RUN names and on its partner. -/
def State.pairDue (s : State) (k : Nat) : State := (k :: (s.testMate k 1).toList).foldl (fun s j => s.makeDue j (s.roundOf k + 1)) s

theorem pairDue_testsMore {k : Nat} (hfn : h.fn < 64) : s.testsMore (s.pairDue k) h :=
  testsMore_each (g := fun s j => s.makeDue j (s.roundOf k + 1)) fun _ _ _ => makeDue_testsMore hfn

theorem pairDue_testSt {k : Nat} (hfn : h.fn < 64) (hlt : k < 1024) (hk : (s.physOf k).isSome = true) : (s.pairDue k).testSt k ≠ 0 := by
  have hmore : (s.makeDue k (s.roundOf k + 1)).testsMore (s.pairDue k) h :=
    testsMore_each (xs := (s.testMate k 1).toList) (g := fun s j => s.makeDue j (s.roundOf k + 1)) fun _ _ _ => makeDue_testsMore hfn
  exact hmore.2.2.2 k hlt (makeDue_testSt hlt hk)

theorem each_pairDue_testSt {ts : List Nat} (hfn : h.fn < 64) (hts : ∀ k ∈ ts, k < 1024 ∧ (s.physOf k).isSome = true) :
    ∀ k ∈ ts, (s.each ts fun s k => s.pairDue k).testSt k ≠ 0 := by
  induction ts generalizing s with
  | nil => exact fun k hk => absurd hk List.not_mem_nil
  | cons x xs ih =>
    intro k hk
    have hx := pairDue_testsMore (s := s) (k := x) hfn
    rcases List.mem_cons.mp hk with rfl | hxs
    · obtain ⟨hlt, hphys⟩ := hts k hk
      have hmore : (s.pairDue k).testsMore ((s.pairDue k).each xs fun s k => s.pairDue k) h := testsMore_each fun _ _ _ => pairDue_testsMore hfn
      exact hmore.2.2.2 k hlt (pairDue_testSt hfn hlt hphys)
    · refine ih (fun y hy => ?_) k hxs
      obtain ⟨hlt, hphys⟩ := hts y (List.mem_cons_of_mem x hy)
      exact ⟨hlt, by rw [hx.2.2.1 y hlt]; exact hphys⟩

/-- A tile that a TEST_RUN of KIND 1 names is to be tested in one piece. -/
def State.markOnePiece (s : State) (k : Nat) : State := s.onTest k fun x => { x with testKind := if x.testKind = 0 then 1 else x.testKind }

theorem markOnePiece_kept {k i : Nat} (hi : (s.phy i).testKind ≠ 0) : ((s.markOnePiece k).phy i).testKind ≠ 0 := by
  unfold State.markOnePiece State.onTest
  split
  next j _ =>
    by_cases hij : i = j
    · subst hij
      rw [State.phy_setPhy_self]
      show (if (s.phy i).testKind = 0 then 1 else (s.phy i).testKind) ≠ 0
      rw [if_neg hi]
      exact hi
    · rwa [State.phy_setPhy_ne hij]
  · exact hi

theorem markOnePiece_self {k i : Nat} (hlt : k < 1024) (hi : s.physOf k = some i) : ((s.markOnePiece k).phy i).testKind ≠ 0 := by
  have hphys : s.testPhys k = some i := by rw [State.testPhys, if_pos hlt, hi]
  unfold State.markOnePiece State.onTest
  rw [hphys]
  dsimp only
  rw [State.phy_setPhy_self]
  show (if (s.phy i).testKind = 0 then 1 else (s.phy i).testKind) ≠ 0
  split
  · decide
  next hne => exact hne

theorem each_markOnePiece {ts : List Nat} (hts : ∀ k ∈ ts, k < 1024) :
    ∀ k ∈ ts, ∀ i, s.physOf k = some i → ((s.each ts fun s k => s.markOnePiece k).phy i).testKind ≠ 0 := by
  induction ts generalizing s with
  | nil => exact fun k hk => absurd hk List.not_mem_nil
  | cons x xs ih =>
    intro k hk i hi
    have hphys : (s.markOnePiece x).physOf k = some i := by
      rw [← hi]
      exact physOf_of_regs onTest_regs k
    rcases List.mem_cons.mp hk with rfl | hxs
    · exact each_induction (s := s.markOnePiece k) (P := fun t => (t.phy i).testKind ≠ 0) (markOnePiece_self (hts k hk) hi)
        fun t y _ ht => markOnePiece_kept ht
    · exact ih (fun y hy => hts y (List.mem_cons_of_mem x hy)) k hxs i hphys

/-- A TEST_RUN that has begun. -/
def State.testsAsked (s : State) (ts : List Nat) (kind : BitVec 8) (o : LongOp) : State :=
  let s1 := s.each ts fun s k => s.pairDue k
  let s2 := if kind = 1 then s1.each ts fun s k => s.markOnePiece k else s1
  if ts.isEmpty then s2.endLong o stOK 0 0 else s2.setLong { o with wait := ts }

theorem serve_testRun {tile : BitVec 16} {kind : BitVec 8} {rsv : BitVec 40} (hp : s.partExists h.fn = true) :
    s.serve h (.testRun tile kind rsv) = s.svcTestRun h tile kind rsv := by
  rw [State.serve, hp]
  rfl

theorem svcTestRun_starts {tile : BitVec 16} {kind : BitVec 8} (hkind : kind.toNat ≤ 1) (hleft : s.fw.testLeft = none)
    (htile : tile.toNat < 1024 ∨ tile = 0xFFFF) : s.svcTestRun h tile kind 0 = s.startLong h (.testRun tile kind 0)
      ((if tile.toNat = 0xFFFF then List.range 1024 else [tile.toNat]).filter fun t => (s.physOf t).isSome).length
      fun o s' => s'.testsAsked ((if tile.toNat = 0xFFFF then List.range 1024 else [tile.toNat]).filter fun t => (s.physOf t).isSome) kind o := by
  have hok : (decide (tile.toNat < 1024) || tile.toNat == 0xFFFF) = true := by
    rcases htile with hlt | rfl
    · rw [decide_eq_true hlt]
      rfl
    · rfl
  have hpass : firstFail [chkForm (decide (tile.toNat < 1024) || tile.toNat == 0xFFFF) 0, chkForm (decide (kind.toNat ≤ 1)) 2,
      chkForm ((0 : BitVec 40) == 0) 3] = .pass := by
    rw [chkForm_true hok, chkForm_true (decide_eq_true hkind)]
    rfl
  unfold State.svcTestRun
  refine (checked_of_pass hpass).trans ?_
  rw [hleft]
  rfl

theorem testsAsked_eq {ts : List Nat} {kind : BitVec 8} {o : LongOp} (hne : ts ≠ []) : s.testsAsked ts kind o =
    (if kind = 1 then (s.each ts fun s k => s.pairDue k).each ts fun s k => s.markOnePiece k else s.each ts fun s k => s.pairDue k).setLong
      { o with wait := ts } := if_neg fun hempty => hne (List.isEmpty_iff.mp hempty)

theorem testsAsked_testsMore {ts : List Nat} {kind : BitVec 8} (hfn : h.fn < 64) :
    s.testsMore (if kind = 1 then (s.each ts fun s k => s.pairDue k).each ts fun s k => s.markOnePiece k else s.each ts fun s k => s.pairDue k) h := by
  have hdue : s.testsMore (s.each ts fun s k => s.pairDue k) h := testsMore_each fun _ _ _ => pairDue_testsMore hfn
  split
  · exact testsMore_trans hdue (testsMore_each fun _ _ _ => onTest_testsMore)
  · exact hdue

theorem physOf_of_keepsRegs {P : Nat → Prop} {k : Nat} (ht : s.keepsRegs t P) (hk : P (Reg.CFG_TILE_MAP k).key) : t.physOf k = s.physOf k := by
  unfold State.physOf State.flag
  dsimp only
  rw [keepsRegs_fld ht hk, keepsRegs_fld ht hk, keepsRegs_fld ht hk, keepsRegs_fld ht hk]

theorem testsMore_frame {b : State} {o : LongOp} {l : List LongOp} {n : Nat}
    (hu : u = { b with regs := u.regs, pairs := u.pairs, longOps := l, sched := { b.sched with longSeq := n } })
    (ht : u.testsMore t h) : t.setLong o = { b with
      regs := t.regs, pairs := t.pairs, longOps := (t.setLong o).longOps, phys := t.phys, sched := { b.sched with longSeq := n } } := by
  obtain ⟨hframe, -⟩ := ht
  have hpairs : t.pairs = u.pairs := by rw [hframe]
  have htb : t = { b with
      regs := t.regs, pairs := t.pairs, longOps := t.longOps, phys := t.phys, sched := { b.sched with longSeq := n } } := by
    have hops : t.longOps = u.longOps := by rw [hframe]
    rw [hpairs, hops]
    exact hframe.trans (by rw [hu])
  exact congrArg (fun v : State => { v with longOps := t.longOps.map fun x : LongOp => if x.id = o.id then o else x }) htb

/-- A TEST_RUN's tiles have a round due, and those of KIND 1 are to be tested in one piece. -/
theorem testsAsked_begins {b : State} {c : CPacket} {ts : List Nat} {kind : BitVec 8} {l : List LongOp} {n : Nat} (hfn : h.fn < 64)
    (hstart : b.longBegins u h c ts.length 0 [])
    (hu : u = { b with regs := u.regs, pairs := u.pairs, longOps := l, sched := { b.sched with longSeq := n } })
    (hphys : ∀ k, k < 1024 → u.physOf k = b.physOf k) (hts : ∀ k ∈ ts, k < 1024 ∧ (b.physOf k).isSome = true) (hne : ts ≠ []) :
    b.longBegins (u.testsAsked ts kind (b.newLong h c ts.length)) h c ts.length 0 ts ∧
      (∀ k ∈ ts, (u.testsAsked ts kind (b.newLong h c ts.length)).testSt k ≠ 0) ∧
      (kind = 1 → ∀ k ∈ ts, ∀ i, b.physOf k = some i → ((u.testsAsked ts kind (b.newLong h c ts.length)).phy i).testKind ≠ 0) ∧
      u.testsAsked ts kind (b.newLong h c ts.length) = { b with
        regs := (u.testsAsked ts kind (b.newLong h c ts.length)).regs, pairs := (u.testsAsked ts kind (b.newLong h c ts.length)).pairs,
        longOps := (u.testsAsked ts kind (b.newLong h c ts.length)).longOps, phys := (u.testsAsked ts kind (b.newLong h c ts.length)).phys,
        sched := { b.sched with longSeq := n } } := by
  have hmore := testsAsked_testsMore (s := u) (ts := ts) (kind := kind) hfn
  have hdue : ∀ k ∈ ts, (u.each ts fun s k => s.pairDue k).testSt k ≠ 0 :=
    each_pairDue_testSt hfn fun k hk => ⟨(hts k hk).1, by rw [hphys k (hts k hk).1]; exact (hts k hk).2⟩
  have hpair : u.testsMore (u.each ts fun s k => s.pairDue k) h := testsMore_each fun _ _ _ => pairDue_testsMore hfn
  rw [testsAsked_eq hne]
  refine ⟨longBegins_setLong (longBegins_of_longKept hstart hmore.2.1), fun k hk => ?_, fun hkind k hk i hi => ?_, testsMore_frame hu hmore⟩
  · show State.testSt (if kind = 1 then _ else _) k ≠ 0
    split
    · have hmark : (u.each ts fun s k => s.pairDue k).testsMore ((u.each ts fun s k => s.pairDue k).each ts fun s k => s.markOnePiece k) h :=
        testsMore_each fun _ _ _ => onTest_testsMore
      exact hmark.2.2.2 k (hts k hk).1 (hdue k hk)
    · exact hdue k hk
  · show (State.phy (if kind = 1 then _ else _) i).testKind ≠ 0
    rw [if_pos hkind]
    refine each_markOnePiece (fun k hk => (hts k hk).1) k hk i ?_
    rw [hpair.2.2.1 k (hts k hk).1, hphys k (hts k hk).1]
    exact hi

/-! ## FW_STAGE and FW_ACTIVATE -/

theorem serve_fwStage {offset bytes : BitVec 32} {src rsv : BitVec 64} {data : List Byte} (hp : s.partExists h.fn = true) :
    s.serve h (.fwStage offset bytes src rsv data) = s.svcFwStage h offset bytes src rsv data := by
  rw [State.serve, hp]
  rfl

theorem serve_fwActivate {bank : BitVec 8} {rsv : BitVec 56} {sigOk : Bool} (hp : s.partExists h.fn = true) :
    s.serve h (.fwActivate bank rsv sigOk) = s.svcFwActivate h bank rsv sigOk := by
  rw [State.serve, hp]
  rfl

/-- Staging has begun. -/
def State.stagingBegun (s : State) : State := { s with fw := { s.fw with staging := true } }

theorem svcFwStage_starts {offset bytes : BitVec 32} {src : BitVec 64} {data : List Byte} (hoff : offset.toNat % 4096 = 0)
    (hmult : bytes.toNat % 4096 = 0) (hlo : 4096 ≤ bytes.toNat) (hhi : bytes.toNat ≤ 4 * 2 ^ 20)
    (hend : offset.toNat + bytes.toNat ≤ 24 * 2 ^ 20) (hact : s.fw.act = none) (hst : s.fw.staging = false) :
    s.svcFwStage h offset bytes src 0 data =
      s.startLong h (.fwStage offset bytes src 0 data) bytes.toNat fun _ s => s.stagingBegun := by
  have hlen : (bytes.toNat % 4096 == 0 && decide (4096 ≤ bytes.toNat) && decide (bytes.toNat ≤ 4 * 2 ^ 20) &&
      decide (offset.toNat + bytes.toNat ≤ 24 * 2 ^ 20)) = true := by
    simp only [Bool.and_eq_true, beq_iff_eq, decide_eq_true_eq]
    exact ⟨⟨⟨hmult, hlo⟩, hhi⟩, hend⟩
  unfold State.svcFwStage
  refine checked_of_pass ?_
  rw [chkForm_true (beq_iff_eq.mpr hoff), chkForm_true hlen, hact, hst]
  rfl

/-- The security boundary and the power and temperature conditions let an activation begin. -/
theorem svcFwActivate_starts {bank : BitVec 8} {sigOk : Bool} (hbank : bank.toNat ≤ 1)
    (hne : bank.toNat ≠ s.fld Reg.FWP_BOOT Fld.FWP_BOOT_ACTIVE_BANK) (herr : s.secError = false) (hcrit : s.critical = false)
    (hact : s.fw.act = none) (hst : s.fw.staging = false) :
    s.svcFwActivate h bank 0 sigOk = s.startLong h (.fwActivate bank 0 sigOk) 4
      fun o s => { s with fw := { s.fw with act := some (o.id, bank.toNat) } }.actPhase 1 := by
  have hform : (decide (bank.toNat ≤ 1) && bank.toNat != s.fld Reg.FWP_BOOT Fld.FWP_BOOT_ACTIVE_BANK) = true := by
    rw [decide_eq_true hbank, Bool.true_and]
    exact bne_iff_ne.mpr hne
  unfold State.svcFwActivate
  refine checked_of_pass ?_
  rw [chkForm_true hform, show s.flag Reg.SEC_STAT Fld.SEC_STAT_ERROR = false from herr, hcrit, hact, hst]
  rfl

theorem actPhase_fw {k : Nat} : (s.actPhase k).fw = { s.fw with phase := k } := by
  rw [State.actPhase, State.setFld_fw]

theorem actPhase_phase {k : Nat} (hk : k < 8) : (s.actPhase k).fld Reg.FWP_ACT Fld.FWP_ACT_PHASE = k := by
  rw [State.actPhase, State.fld_setFld_self (by decide)]
  exact Nat.mod_eq_of_lt hk

theorem actPhase_longKept {k : Nat} : s.longKept (s.actPhase k) h :=
  longKept_trans (t := { s with fw := { s.fw with phase := k } }) (longKept_of_frame rfl rfl rfl rfl) (longKept_setFld (by decide) (by decide))

theorem actPhase_frame {k : Nat} : s.actPhase k = { s with fw := (s.actPhase k).fw, regs := (s.actPhase k).regs } := rfl

theorem staging_begins {b : State} {c : CPacket} {total : Nat} {l : List LongOp} {n : Nat} (hstart : b.longBegins u h c total 0 [])
    (hu : u = { b with regs := u.regs, pairs := u.pairs, longOps := l, sched := { b.sched with longSeq := n } }) :
    b.longBegins u.stagingBegun h c total 0 [] ∧ u.stagingBegun = { b with
      regs := u.stagingBegun.regs, pairs := u.stagingBegun.pairs, longOps := u.stagingBegun.longOps, fw := { b.fw with staging := true }, sched := { b.sched with longSeq := n } } := by
  refine ⟨longBegins_of_longKept hstart (longKept_of_frame rfl rfl rfl rfl), ?_⟩
  rw [State.stagingBegun, hu]

theorem activated_begins {b : State} {c : CPacket} {bank total : Nat} {l : List LongOp} {n : Nat} (hstart : b.longBegins u h c total 0 [])
    (hu : u = { b with regs := u.regs, pairs := u.pairs, longOps := l, sched := { b.sched with longSeq := n } }) :
    b.longBegins ({ u with fw := { u.fw with act := some (b.sched.longSeq, bank) } }.actPhase 1) h c total 0 [] ∧
      ({ u with fw := { u.fw with act := some (b.sched.longSeq, bank) } }.actPhase 1).fw =
        { b.fw with act := some (b.sched.longSeq, bank), phase := 1 } ∧
      ({ u with fw := { u.fw with act := some (b.sched.longSeq, bank) } }.actPhase 1).fld Reg.FWP_ACT Fld.FWP_ACT_PHASE = 1 ∧
      ({ u with fw := { u.fw with act := some (b.sched.longSeq, bank) } }.actPhase 1) = { b with
        regs := ({ u with fw := { u.fw with act := some (b.sched.longSeq, bank) } }.actPhase 1).regs,
        pairs := ({ u with fw := { u.fw with act := some (b.sched.longSeq, bank) } }.actPhase 1).pairs,
        longOps := ({ u with fw := { u.fw with act := some (b.sched.longSeq, bank) } }.actPhase 1).longOps,
        fw := ({ u with fw := { u.fw with act := some (b.sched.longSeq, bank) } }.actPhase 1).fw,
        sched := { b.sched with longSeq := n } } := by
  have hact : ∃ v : State, v = { u with fw := { u.fw with act := some (b.sched.longSeq, bank) } } := ⟨_, rfl⟩
  obtain ⟨v, hv⟩ := hact
  rw [← hv]
  have hfw : (v.actPhase 1).fw = { b.fw with act := some (b.sched.longSeq, bank), phase := 1 } := by rw [actPhase_fw, hv, hu]
  have hkept : u.longKept v h := by
    rw [hv]
    exact longKept_of_frame rfl rfl rfl rfl
  refine ⟨longBegins_of_longKept hstart (longKept_trans hkept actPhase_longKept), hfw, actPhase_phase (by decide), ?_⟩
  have hframe := actPhase_frame (s := v) (k := 1)
  generalize v.actPhase 1 = t at hframe ⊢
  have hpairs : t.pairs = u.pairs := by rw [hframe, hv]
  have hops : t.longOps = u.longOps := by rw [hframe, hv]
  rw [hpairs, hops]
  exact hframe.trans (by rw [hv, hu])

end Sys2Proof.Machine

namespace Sys2Proof
open Machine

/-- Settles O38: each of the packets starts a long operation, and what follows its start keeps the count of the operations in progress and
the first PROGRESS reply. -/
theorem runsAndFirmwarePacketsBegin : Obligations.RunsAndFirmwarePacketsBegin := by
  unfold Obligations.RunsAndFirmwarePacketsBegin
  refine ⟨⟨fun s h scope index b can hb hcan ht h4 hok hfree => ?_, fun s h tile kind b ts hb ht hkind hleft hts => ?_⟩,
    fun s h offset bytes src data b hb ht hoff hmult hlo hhi hend hact hst => ?_,
    fun s h bank sigOk b hb ht hbank hne herr hcrit hact hst => ?_⟩
  · obtain ⟨hfn, hring, hon⟩ := takesC_pairOn ht
    have hcan' : can = b.measurable scope.toNat index.toNat := hcan
    have hparts : ∀ x ∈ can, calParts x = [x] := fun x hx => calParts_of_calScope (List.mem_of_mem_filter (hcan' ▸ hx))
    subst hb
    refine startsLong_of (act := fun o s' => s'.runsAsked can o) ?_ fun hroom => ?_
    · rw [exec_served rfl ht fun _ hp => serve_calRun hp, svcCalRun_starts h4 hok (hcan' ▸ hfree), ← hcan']
    · have hstart := longBegins_longStarted (c := .calRun scope 0 index 0) (total := can.length) hfn hring hon hroom
      have hframe := longStarted_frame (s := s.served h (.calRun scope 0 index 0)) (h := h) (c := .calRun scope 0 index 0) (total := can.length)
      generalize s.served h (.calRun scope 0 index 0) = b at *
      generalize b.longStarted h (.calRun scope 0 index 0) can.length = u at *
      have hmore := runsAsked_asksMore (s := u) (can := can) (o := b.newLong h (.calRun scope 0 index 0) can.length)
      have hasked := runsAsked_asked (s := u) (o := b.newLong h (.calRun scope 0 index 0) can.length) hparts
      have hwait : u.awaited = b.awaited := awaited_of_cal (by rw [hframe])
      rw [hwait] at hmore
      refine ⟨longBegins_of_longKept (longBegins_setLong hstart) (hmore.2.1 h), hasked, ?_⟩
      exact runsOnly_frame hframe hmore.1
  · obtain ⟨hfn, hring, hon⟩ := takesC_pairOn ht
    have htile : tile.toNat < 1024 ∨ tile = 0xFFFF := hts.imp And.left And.left
    have hlist : ts = (if tile.toNat = 0xFFFF then List.range 1024 else [tile.toNat]).filter fun t => (b.physOf t).isSome := by
      rcases hts with ⟨hlt, hone, hphys⟩ | ⟨hall, hlist, -⟩
      · rw [hone, if_neg (by omega), List.filter_cons_of_pos (p := fun k => (b.physOf k).isSome) hphys, List.filter_nil]
      · rw [hlist, if_pos (show tile.toNat = 65535 from congrArg BitVec.toNat hall)]
    have hmem : ∀ k ∈ ts, k < 1024 ∧ (b.physOf k).isSome = true := fun k hk => by
      rw [hlist, List.mem_filter] at hk
      refine ⟨?_, hk.2⟩
      have hk1 := hk.1
      split at hk1
      · exact List.mem_range.mp hk1
      next hone =>
        rw [List.mem_singleton.mp hk1]
        exact htile.resolve_right fun he => hone (congrArg BitVec.toNat he)
    have hne : ts ≠ [] := by
      rcases hts with ⟨-, hone, -⟩ | ⟨-, -, hne⟩
      · rw [hone]
        exact List.cons_ne_nil _ _
      · exact hne
    subst hb
    refine startsLong_of (act := fun o s' => s'.testsAsked ts kind o) ?_ fun hroom => ?_
    · rw [exec_served rfl ht fun _ hp => serve_testRun hp, svcTestRun_starts hkind hleft htile, ← hlist]
    · have hstart := longBegins_longStarted (c := .testRun tile kind 0) (total := ts.length) hfn hring hon hroom
      have hframe := longStarted_frame (s := s.served h (.testRun tile kind 0)) (h := h) (c := .testRun tile kind 0) (total := ts.length)
      have hkeep := longStarted_keepsRegs (s := s.served h (.testRun tile kind 0)) (h := h) (c := .testRun tile kind 0) (total := ts.length)
        offRings_belowRings
      generalize s.served h (.testRun tile kind 0) = b at *
      dsimp only
      generalize b.longStarted h (.testRun tile kind 0) ts.length = u at *
      exact testsAsked_begins hfn hstart hframe (fun k hk => physOf_of_keepsRegs hkeep (belowRings_tileMap hk)) hmem hne
  · obtain ⟨hfn, hring, hon⟩ := takesC_pairOn ht
    subst hb
    refine startsLong_of (act := fun _ s => s.stagingBegun) ?_ fun hroom => ?_
    · rw [exec_served rfl ht fun _ hp => serve_fwStage hp, svcFwStage_starts hoff hmult hlo hhi hend hact hst]
    · have hstart := longBegins_longStarted (c := .fwStage offset bytes src 0 data) (total := bytes.toNat) hfn hring hon hroom
      have hframe := longStarted_frame (s := s.served h (.fwStage offset bytes src 0 data)) (h := h) (c := .fwStage offset bytes src 0 data)
        (total := bytes.toNat)
      generalize s.served h (.fwStage offset bytes src 0 data) = b at *
      dsimp only
      generalize b.longStarted h (.fwStage offset bytes src 0 data) bytes.toNat = u at *
      exact staging_begins hstart hframe
  · obtain ⟨hfn, hring, hon⟩ := takesC_pairOn ht
    subst hb
    refine startsLong_of (act := fun o s => { s with fw := { s.fw with act := some (o.id, bank.toNat) } }.actPhase 1) ?_ fun hroom => ?_
    · rw [exec_served rfl ht fun _ hp => serve_fwActivate hp, svcFwActivate_starts hbank hne herr hcrit hact hst]
    · have hstart := longBegins_longStarted (c := .fwActivate bank 0 sigOk) (total := 4) hfn hring hon hroom
      have hframe := longStarted_frame (s := s.served h (.fwActivate bank 0 sigOk)) (h := h) (c := .fwActivate bank 0 sigOk) (total := 4)
      generalize s.served h (.fwActivate bank 0 sigOk) = b at *
      dsimp only
      generalize b.longStarted h (.fwActivate bank 0 sigOk) 4 = u at *
      exact activated_begins hstart hframe

end Sys2Proof

end

section
/-! PROOFS. TWIN_PAIR, TWIN_UNPAIR and FABRIC_JOIN (R375, R382, R390). -/

namespace Sys2Proof.Machine

variable {s t u b : State} {h : Hdr} {c : CPacket} {total : Nat}

/-! ## A long operation that ends as it begins -/

/-- The operation of a function with a number is in progress no more, and counted no more. -/
def State.longDropped (s : State) (id fn : Nat) : State := { s with longOps := s.longOps.filter fun x => x.id != id }.countLong fn

theorem longDropped_longOps {id fn : Nat} : (s.longDropped id fn).longOps = s.longOps.filter fun x => x.id != id := by
  rw [State.longDropped, State.countLong, State.setFld_longOps]

theorem longDropped_frame {id fn : Nat} : s.longDropped id fn = { s with
    regs := (s.longDropped id fn).regs, longOps := (s.longDropped id fn).longOps } := by
  rw [longDropped_longOps]
  exact setFld_frame

theorem longDropped_fld {id fn : Nat} {r : RegRef} {f : Field} (hr : r.key ≠ (Reg.SCH_FN_STAT fn).key) :
    (s.longDropped id fn).fld r f = s.fld r f := by
  rw [State.longDropped, State.countLong, State.fld_setFld_ne hr]
  exact State.fld_of_regs rfl

theorem endLong_eq {o : LongOp} {st detail result : Nat} :
    s.endLong o st detail result = (s.longDropped o.id o.h.fn).reply o.h o.pkt.opcode st detail result := rfl

/-- The record of the operation that began last is the one found under its number. -/
theorem longOf_of_begins {done : Nat} {wait : List Nat} (hb : s.longBegins t h c total done wait) :
    t.longOf s.sched.longSeq = some { s.newLong h c total with done := done, wait := wait } := by
  obtain ⟨-, -, hlast, -⟩ := hb
  obtain ⟨l, hl⟩ := List.getLast?_eq_some_iff.mp hlast
  rw [State.longOf, hl, List.reverse_append]
  exact List.find?_cons_of_pos (beq_self_eq_true _)

/-- An operation that has just begun ends with its final reply. -/
theorem endLongAt_of_begins {done st detail result : Nat} {wait : List Nat} (hb : s.longBegins t h c total done wait) :
    t.endLongAt s.sched.longSeq st detail result = (t.longDropped s.sched.longSeq h.fn).reply h c.opcode st detail result := by
  rw [State.endLongAt, longOf_of_begins hb]
  rfl

theorem longDropped_of_begins {done : Nat} {wait : List Nat} (hb : s.longBegins t h c total done wait) :
    (t.longDropped s.sched.longSeq h.fn).longOps = s.longOps.filter fun o => o.id != s.sched.longSeq := longDropped_longOps.trans hb.2.1

theorem twnStat_ne_fnStat {f : Nat} : Reg.TWN_STAT.key ≠ (Reg.SCH_FN_STAT f).key := by
  simp only [Reg.TWN_STAT, Reg.SCH_FN_STAT]
  omega

theorem twnJrn_ne_fnStat {f : Nat} : Reg.TWN_JRN.key ≠ (Reg.SCH_FN_STAT f).key := by
  simp only [Reg.TWN_JRN, Reg.SCH_FN_STAT]
  omega

theorem portCfg_ne_fnStat {n f : Nat} (hn : n < 24) : (Reg.LNK_PORT_CFG n).key ≠ (Reg.SCH_FN_STAT f).key := by
  simp only [Reg.LNK_PORT_CFG, Reg.SCH_FN_STAT]
  omega

theorem longStarted_fields (hf : h.fn < 64) (hr : h.ring < 17) (hon : s.pairOn h.fn h.ring = true) :
    s.fieldsBut (s.longStarted h c total) [(Reg.SCH_FN_STAT h.fn, Fld.SCH_FN_STAT_LONG_OPS)] := by
  rw [longStarted_eq hf hr hon]
  exact fieldsBut_trans (fieldsBut_trans (t := s.longRecorded h c total) (fieldsBut_of_regs rfl) (fieldsBut_setFld (by simp))) (fieldsBut_of_regs setPair_regs)

/-- What a packet's long operation finds as it begins: it is recorded and counted, and its first PROGRESS is written. -/
def State.begunAs (b u : State) (h : Hdr) (c : CPacket) (total : Nat) : Prop :=
  b.longBegins u h c total 0 [] ∧
    u = { b with
      regs := u.regs, pairs := u.pairs, longOps := b.longOps ++ [b.newLong h c total],
      sched := { b.sched with longSeq := b.sched.longSeq + 1 } } ∧
    b.fieldsBut u [(Reg.SCH_FN_STAT h.fn, Fld.SCH_FN_STAT_LONG_OPS)]

theorem begunAs_longStarted (hb : b = s.served h c) (ht : s.takesC h c) (hroom : ¬b.longFull h) : b.begunAs (b.longStarted h c total) h c total := by
  obtain ⟨hfn, hring, hon⟩ := takesC_pairOn ht
  rw [← hb] at hon
  exact ⟨longBegins_longStarted hfn hring hon hroom, longStarted_frame, longStarted_fields hfn hring hon⟩

/-- The service of a packet that begins a long operation while there is room. -/
theorem startLong_begins (hb : b = s.served h c) (ht : s.takesC h c) (hroom : ¬b.longFull h) :
    ∃ u, b.begunAs u h c total ∧ ∀ act, b.startLong h c total act = act (b.newLong h c total) u :=
  ⟨_, begunAs_longStarted hb ht hroom, fun _ => startLong_of_room hroom⟩

theorem startsLong_of_begun {i : Instr} {act : LongOp → State → State} {done : Nat} {wait : List Nat} {more : State → Prop}
    (hb : b = s.served h c) (ht : s.takesC h c) (hexec : exec i s = .next (b.startLong h c total act))
    (hact : ∀ u, b.begunAs u h c total → b.longBegins (act (b.newLong h c total) u) h c total done wait ∧ more (act (b.newLong h c total) u)) :
    s.startsLong b i h c total done wait more :=
  startsLong_of hexec fun hroom => hact _ (begunAs_longStarted hb ht hroom)

/-! ## TWIN_PAIR -/

/-- Only the fabric and the ports differ. -/
def State.fabricOnly (s t : State) : Prop := t = { s with fabric := t.fabric, ports := t.ports }

theorem fabricOnly_refl : s.fabricOnly s := rfl

theorem fabricOnly_trans (h1 : s.fabricOnly t) (h2 : t.fabricOnly u) : s.fabricOnly u := h2.trans (by rw [h1])

theorem fabricOnly_sendMsg {m : FMsg} : s.fabricOnly (s.sendMsg m) := by
  unfold State.sendMsg State.transmit
  split
  · dsimp only
    split
    · rfl
    · rfl
  · exact fabricOnly_refl

theorem fabricOnly_request {dest op part offset : Nat} {payload : List Byte} {place : Option Nat} :
    s.fabricOnly (s.request dest op part offset payload place) := by
  unfold State.request
  exact fabricOnly_trans (t := { s with fabric := _ }) rfl fabricOnly_sendMsg

theorem longKept_of_fabricOnly (hk : s.fabricOnly t) : s.longKept t h := by
  rw [hk]
  exact longKept_of_frame rfl rfl rfl rfl

/-- The state of the pair that begins to form with a peer. -/
def State.pairingWith (s : State) (m : Nat) : State := (s.setFld Reg.TWN_STAT Fld.TWN_STAT_STATE 1).setFld Reg.TWN_STAT Fld.TWN_STAT_PEER m

/-- The pair begins to form. -/
def State.pairNamed (s : State) (m : Nat) (w : Twin) : State := { s.pairingWith m with twin := w }

/-- The twin's record as a pair begins to form for a long operation. -/
def State.pairTwin (s : State) (byte2 : BitVec 8) (id : Nat) : Twin :=
  { noJbc := bitOf byte2.toNat 0, pairAt := s.now, lastBeat := s.now, pairOp := some id }

/-- The peer is asked. -/
def State.pairAsked (s : State) (m : Nat) (w : Twin) : State := (s.pairNamed m w).request m 7 0 0 (leBytes 1 mgPair ++ leBytes 1 1) none

theorem pairingWith_frame {m : Nat} : s.pairingWith m = { s with regs := (s.pairingWith m).regs } := regs_frame_trans setFld_frame setFld_frame

theorem pairNamed_frame {m : Nat} {w : Twin} : s.pairNamed m w = { s with regs := (s.pairNamed m w).regs, twin := w } := by
  rw [State.pairNamed, pairingWith_frame]

theorem pairAsked_only {m : Nat} {w : Twin} : (s.pairNamed m w).fabricOnly (s.pairAsked m w) := by
  rw [State.pairAsked]
  exact fabricOnly_request

theorem pairNamed_regs {m : Nat} {w : Twin} {r : RegRef} {f : Field} : (s.pairNamed m w).fld r f = (s.pairingWith m).fld r f := by
  rw [State.pairNamed]
  exact State.fld_of_regs rfl

theorem pairNamed_twinSt {m : Nat} {w : Twin} : (s.pairNamed m w).twinSt = 1 := by
  rw [State.twinSt, pairNamed_regs, State.pairingWith, State.fld_setFld_of_disjoint (by decide), State.fld_setFld_self (by decide)]
  rfl

theorem pairNamed_peer {m : Nat} {w : Twin} (hm : m < 65536) : (s.pairNamed m w).peer = m := by
  rw [State.peer, pairNamed_regs, State.pairingWith, State.fld_setFld_self (by decide)]
  exact Nat.mod_eq_of_lt hm

theorem fld_of_fabricOnly {r : RegRef} {f : Field} (hk : s.fabricOnly t) : t.fld r f = s.fld r f := State.fld_of_regs (by rw [hk])

theorem pairNamed_longKept {m : Nat} {w : Twin} : s.longKept (s.pairNamed m w) h := by
  rw [State.pairNamed]
  exact longKept_trans (t := s.pairingWith m) (longKept_trans (longKept_setFld (by decide) (by decide)) (longKept_setFld (by decide) (by decide)))
    (longKept_of_frame rfl rfl rfl rfl)

theorem serve_twinPair {peer : BitVec 16} {byte2 : BitVec 8} {rsv : BitVec 40} (hp : s.partExists h.fn = true) :
    s.serve h (.twinPair peer byte2 rsv) = s.svcTwinPair h peer byte2 rsv := by
  rw [State.serve, hp]
  rfl

/-- What follows when the pair begins to form: the peer is asked, and what it sent in the last second is taken. -/
def State.pairFollows (s : State) (seen : Option (Nat × Bool × Nat)) (m : Nat) (w : Twin) : State :=
  let s3 := { s with twin := w }.request m 7 0 0 (leBytes 1 mgPair ++ leBytes 1 1) none
  match seen with
  | some (p, set, t) => if p = m && s3.now < t + 1000000000 then (if set then s3.paired else s3.pairFails) else s3
  | none => s3

/-- What a TWIN_PAIR does once its operation has begun. -/
def State.pairBegun (s : State) (m : Nat) (byte2 : BitVec 8) (o : LongOp) : State :=
  (s.pairingWith m).pairFollows s.twin.pairSeen m ((s.pairingWith m).pairTwin byte2 o.id)

theorem svcTwinPair_starts {peer : BitVec 16} {byte2 : BitVec 8} (hm : peer.toNat < 16384) (hme : peer.toNat ≠ s.myId) (h2 : byte2.toNat < 2)
    (hsolo : s.twinSt = 0) (hup : s.upPorts 3 ≠ []) (hboard : (s.portsTo peer.toNat).any (fun n => s.sameBoard (s.port n).farCoord) = true)
    (hregion : s.regionSet = true) :
    s.svcTwinPair h peer byte2 0 = s.startLong h (.twinPair peer byte2 0) 1 fun o s => s.pairBegun peer.toNat byte2 o := by
  have hpeer : (decide (peer.toNat < 16384) && peer.toNat != s.myId) = true := by
    rw [decide_eq_true hm, Bool.true_and]
    exact bne_iff_ne.mpr hme
  have hports : (!(s.upPorts 3).isEmpty) = true := by
    rw [Bool.not_eq_true', List.isEmpty_eq_false_iff]
    exact hup
  have hpass : firstFail [chkForm (decide (peer.toNat < 16384) && peer.toNat != s.myId) 0, chkForm (decide (byte2.toNat < 2)) 2,
      chkForm ((0 : BitVec 40) == 0) 3, chkSt (s.twinSt == 0) stDeferred, chkSt (!(s.upPorts 3).isEmpty) stNoResource,
      chkForm ((s.portsTo peer.toNat).any fun n => s.sameBoard (s.port n).farCoord) 0, chkSt s.regionSet stNoResource] = .pass := by
    rw [chkForm_true hpeer, chkForm_true (decide_eq_true h2), chkSt_true (beq_iff_eq.mpr hsolo), chkSt_true hports, chkForm_true hboard,
      chkSt_true hregion]
    rfl
  unfold State.svcTwinPair
  refine (checked_of_pass hpass).trans (congrArg (s.startLong h _ 1) (funext fun o => funext fun s => ?_))
  unfold State.pairBegun State.pairFollows State.pairTwin State.pairingWith
  rfl

theorem pairAsked_now {m : Nat} {w : Twin} : (s.pairAsked m w).now = s.now := by
  rw [show s.pairAsked m w = _ from pairAsked_only, pairNamed_frame]

theorem pairTwin_pairingWith {m id : Nat} {byte2 : BitVec 8} : (s.pairingWith m).pairTwin byte2 id = s.pairTwin byte2 id := by
  rw [State.pairTwin, pairingWith_frame, State.pairTwin]

theorem pairFollows_none {m : Nat} {w : Twin} : (s.pairingWith m).pairFollows none m w = s.pairAsked m w := by
  unfold State.pairFollows State.pairAsked State.pairNamed
  rfl

theorem pairFollows_some {m p t0 : Nat} {set : Bool} {w : Twin} : (s.pairingWith m).pairFollows (some (p, set, t0)) m w =
    if p = m && (s.pairAsked m w).now < t0 + 1000000000 then (if set then (s.pairAsked m w).paired else (s.pairAsked m w).pairFails)
      else s.pairAsked m w := by
  unfold State.pairFollows State.pairAsked State.pairNamed
  rfl

theorem pairBegun_of_waiting {m : Nat} {byte2 : BitVec 8} {o : LongOp}
    (hseen : ∀ p set t0, s.twin.pairSeen = some (p, set, t0) → p ≠ m ∨ t0 + 1000000000 ≤ s.now) :
    s.pairBegun m byte2 o = s.pairAsked m (s.pairTwin byte2 o.id) := by
  rw [State.pairBegun, pairTwin_pairingWith]
  rcases hx : s.twin.pairSeen with _ | ⟨p, set, t0⟩
  · exact pairFollows_none
  · rw [pairFollows_some]
    refine if_neg fun hnow => ?_
    rw [Bool.and_eq_true, decide_eq_true_eq, decide_eq_true_eq, pairAsked_now] at hnow
    rcases hseen p set t0 hx with hp | ht
    · exact hp hnow.1
    · exact absurd hnow.2 (Nat.not_lt.mpr ht)

theorem pairBegun_of_seen {m t0 : Nat} {byte2 : BitVec 8} {o : LongOp} (hseen : s.twin.pairSeen = some (m, true, t0))
    (hnow : s.now < t0 + 1000000000) : s.pairBegun m byte2 o = (s.pairAsked m (s.pairTwin byte2 o.id)).paired := by
  rw [State.pairBegun, pairTwin_pairingWith, hseen, pairFollows_some, pairAsked_now, decide_eq_true rfl, decide_eq_true hnow]
  exact (if_pos rfl).trans (if_pos rfl)

/-- The peer is asked, and nothing else that tells of the operation changes. -/
theorem pairAsked_begins {m n : Nat} {w : Twin} {l : List LongOp} (hm : m < 65536) (hstart : b.longBegins u h c total 0 [])
    (hu : u = { b with regs := u.regs, pairs := u.pairs, longOps := l, sched := { b.sched with longSeq := n } })
    (hfields : b.fieldsBut u [(Reg.SCH_FN_STAT h.fn, Fld.SCH_FN_STAT_LONG_OPS)]) :
    b.longBegins (u.pairAsked m w) h c total 0 [] ∧ (u.pairAsked m w).twinSt = 1 ∧ (u.pairAsked m w).peer = m ∧ (u.pairAsked m w).twin = w ∧
      b.fieldsBut (u.pairAsked m w) [(Reg.TWN_STAT, Fld.TWN_STAT_STATE), (Reg.TWN_STAT, Fld.TWN_STAT_PEER),
        (Reg.SCH_FN_STAT h.fn, Fld.SCH_FN_STAT_LONG_OPS)] ∧
      u.pairAsked m w = { b with
        regs := (u.pairAsked m w).regs, pairs := (u.pairAsked m w).pairs, longOps := (u.pairAsked m w).longOps, twin := (u.pairAsked m w).twin,
        fabric := (u.pairAsked m w).fabric, ports := (u.pairAsked m w).ports, sched := { b.sched with longSeq := n } } := by
  have hasked := pairAsked_only (s := u) (m := m) (w := w)
  have hst := pairNamed_twinSt (s := u) (m := m) (w := w)
  have hpeer := pairNamed_peer (s := u) (w := w) hm
  have hkept := longKept_trans (pairNamed_longKept (s := u) (m := m) (w := w) (h := h)) (longKept_of_fabricOnly hasked)
  have hframe := pairNamed_frame (s := u) (m := m) (w := w)
  have hnamed : b.fieldsBut (u.pairNamed m w) [(Reg.TWN_STAT, Fld.TWN_STAT_STATE), (Reg.TWN_STAT, Fld.TWN_STAT_PEER),
      (Reg.SCH_FN_STAT h.fn, Fld.SCH_FN_STAT_LONG_OPS)] :=
    fieldsBut_trans (fieldsBut_mono hfields (by simp)) (fieldsBut_trans (t := u.pairingWith m)
      (fieldsBut_trans (fieldsBut_setFld (by simp)) (fieldsBut_setFld (by simp))) (fieldsBut_of_regs rfl))
  generalize u.pairNamed m w = v at hasked hst hpeer hframe hnamed
  generalize u.pairAsked m w = t at hasked hkept ⊢
  have hpairs : t.pairs = u.pairs := by rw [hasked, hframe]
  have hops : t.longOps = u.longOps := by rw [hasked, hframe]
  refine ⟨longBegins_of_longKept hstart hkept, (fld_of_fabricOnly hasked).trans hst, (fld_of_fabricOnly hasked).trans hpeer, by rw [hasked, hframe],
    fieldsBut_trans hnamed (fieldsBut_of_regs (by rw [hasked])), ?_⟩
  have htwin : t.twin = v.twin := by rw [hasked]
  have hregs : t.regs = v.regs := by rw [hasked]
  rw [hpairs, hops, htwin, hregs]
  exact Eq.trans hasked (by rw [hframe, hu])

/-- The state of a pair that is PAIRED. -/
def State.pairFormed (s : State) : State :=
  ((s.setFld Reg.TWN_STAT Fld.TWN_STAT_STATE 2).setFlag Reg.TWN_STAT Fld.TWN_STAT_JBC (!s.twin.noJbc)).setFld Reg.TWN_STAT Fld.TWN_STAT_ORPHANS s.orphans

/-- The pair is PAIRED, and the TWIN_PAIR that formed it completes. -/
theorem paired_eq {k : Nat} (hop : s.twin.pairOp = some k) : s.paired =
    { s.pairFormed with twin := { s.pairFormed.twin with lastBeat := s.pairFormed.now, pairSeen := none, pairOp := none } }.endLongAt k stOK 0 0 := by
  unfold State.paired
  dsimp only
  rw [hop]
  rfl

theorem longKept_setFld_ne {r : RegRef} {f : Field} {x : Nat} (hr : r.key ≠ (Reg.SCH_FN_STAT h.fn).key) : s.longKept (s.setFld r f x) h :=
  ⟨State.setFld_longOps, by rw [State.setFld_sched], State.fld_setFld_ne hr.symm, by rw [State.setFld_pair_acc]⟩

theorem pairFormed_longKept : s.longKept s.pairFormed h :=
  longKept_trans (longKept_trans (longKept_setFld (by decide) (by decide)) (longKept_setFlag (by decide) (by decide)))
    (longKept_setFld_ne twnStat_ne_fnStat)

theorem pairFormed_twinSt : s.pairFormed.twinSt = 2 := by
  rw [State.twinSt, State.pairFormed, State.fld_setFld_of_disjoint (by decide), State.fld_setFlag_of_disjoint (by decide),
    State.fld_setFld_self (by decide)]
  rfl

theorem pairFormed_peer : s.pairFormed.peer = s.peer := by
  rw [State.peer, State.pairFormed, State.fld_setFld_of_disjoint (by decide), State.fld_setFlag_of_disjoint (by decide),
    State.fld_setFld_of_disjoint (by decide), State.peer]

theorem pairFormed_jbc : s.pairFormed.flag Reg.TWN_STAT Fld.TWN_STAT_JBC = !s.twin.noJbc := by
  rw [State.flag, State.pairFormed, State.fld_setFld_of_disjoint (by decide)]
  exact State.flag_setFlag_self (by decide) rfl

theorem paired_completes {m : Nat} {byte2 : BitVec 8} (hstart : b.longBegins u h c total 0 []) (hpeer : u.peer = m) (hop : u.twin.pairOp = some b.sched.longSeq)
    (hjbc : u.twin.noJbc = bitOf byte2.toNat 0) : ∃ v : State, u.paired = v.reply h c.opcode stOK 0 0 ∧ v.twinSt = 2 ∧ v.peer = m ∧
      v.flag Reg.TWN_STAT Fld.TWN_STAT_JBC = !(bitOf byte2.toNat 0) ∧ v.longOps = b.longOps.filter fun o => o.id != b.sched.longSeq := by
  rw [paired_eq hop]
  have hst := pairFormed_twinSt (s := u)
  have hp := pairFormed_peer (s := u)
  have hj := pairFormed_jbc (s := u)
  have hkept := pairFormed_longKept (s := u) (h := h)
  generalize u.pairFormed = v at *
  have hbegins : b.longBegins { v with twin := { v.twin with lastBeat := v.now, pairSeen := none, pairOp := none } } h c total 0 [] :=
    longBegins_of_longKept hstart (longKept_trans hkept (longKept_of_frame rfl rfl rfl rfl))
  have hregs : ∀ f, ({ v with twin := { v.twin with lastBeat := v.now, pairSeen := none, pairOp := none } } : State).fld Reg.TWN_STAT f =
    v.fld Reg.TWN_STAT f := fun f => State.fld_of_regs rfl
  generalize ({ v with twin := { v.twin with lastBeat := v.now, pairSeen := none, pairOp := none } } : State) = x at *
  refine ⟨x.longDropped b.sched.longSeq h.fn, endLongAt_of_begins hbegins, ?_, ?_, ?_, longDropped_of_begins hbegins⟩
  · rw [State.twinSt, longDropped_fld twnStat_ne_fnStat, hregs]
    exact hst
  · rw [State.peer, longDropped_fld twnStat_ne_fnStat, hregs]
    exact hp.trans hpeer
  · rw [State.flag, longDropped_fld twnStat_ne_fnStat, hregs, ← hjbc]
    exact hj

/-! ## TWIN_UNPAIR -/

theorem serve_twinUnpair {byte0 : BitVec 8} {rsv : BitVec 56} (hp : s.partExists h.fn = true) :
    s.serve h (.twinUnpair byte0 rsv) = s.svcTwinUnpair h byte0 rsv := by
  rw [State.serve, hp]
  rfl

/-- The pair is to be dissolved. -/
def State.unpairing (s : State) (k : Nat) : State :=
  { s.setFld Reg.TWN_STAT Fld.TWN_STAT_STATE 4 with twin := { s.twin with unpairOp := some k } }

/-- What a TWIN_UNPAIR does once its operation has begun. -/
def State.unpairBegun (s : State) (byte0 : BitVec 8) (o : LongOp) : State :=
  match s.twinSt with
  | 0 => s.endLongAt o.id stOK 0 0
  | 1 => s.pairFails.endLongAt o.id stOK 0 0
  | _ => if byte0 == 1 && s.twin.acked < s.twin.sentSeq then s.unpairing o.id else (s.unpairing o.id).unpair

theorem unpairBegun_solo {byte0 : BitVec 8} {o : LongOp} (hst : s.twinSt = 0) : s.unpairBegun byte0 o = s.endLongAt o.id stOK 0 0 := by
  unfold State.unpairBegun
  rw [hst]
  rfl

theorem unpairBegun_waits {byte0 : BitVec 8} {o : LongOp} (hst : s.twinSt = 2 ∨ s.twinSt = 3) (h1 : byte0 = 1)
    (hacked : s.twin.acked < s.twin.sentSeq) : s.unpairBegun byte0 o = s.unpairing o.id := by
  have hcond : (byte0 == 1 && decide (s.twin.acked < s.twin.sentSeq)) = true := by rw [h1, decide_eq_true hacked]; rfl
  unfold State.unpairBegun
  rcases hst with hst | hst <;> rw [hst] <;> exact if_pos hcond

theorem unpairBegun_goes {byte0 : BitVec 8} {o : LongOp} (hst : s.twinSt = 2 ∨ s.twinSt = 3)
    (hacked : byte0 = 0 ∨ s.twin.sentSeq ≤ s.twin.acked) : s.unpairBegun byte0 o = (s.unpairing o.id).unpair := by
  have hcond : ¬(byte0 == 1 && decide (s.twin.acked < s.twin.sentSeq)) = true := by
    rw [Bool.and_eq_true, decide_eq_true_eq, beq_iff_eq]
    rintro ⟨rfl, hlt⟩
    rcases hacked with h0 | hle
    · exact absurd h0 (by decide)
    · omega
  unfold State.unpairBegun
  rcases hst with hst | hst <;> rw [hst] <;> exact if_neg hcond

theorem svcTwinUnpair_starts {byte0 : BitVec 8} (h2 : byte0.toNat < 2) (htake : s.flag Reg.TWN_STAT Fld.TWN_STAT_TAKEOVER = false)
    (h4 : s.twinSt ≠ 4) : s.svcTwinUnpair h byte0 0 = s.startLong h (.twinUnpair byte0 0) 1 fun o s => s.unpairBegun byte0 o := by
  have hst : (s.twinSt != 4) = true := bne_iff_ne.mpr h4
  have hpass : firstFail [chkForm (decide (byte0.toNat < 2)) 0, chkForm ((0 : BitVec 56) == 0) 1,
      chkSt (!(s.flag Reg.TWN_STAT Fld.TWN_STAT_TAKEOVER)) stDeferred, chkSt (s.twinSt != 4) stDeferred] = .pass := by
    rw [chkForm_true (decide_eq_true h2), htake, chkSt_true hst]
    rfl
  unfold State.svcTwinUnpair
  exact checked_of_pass hpass

theorem unpairing_frame {k : Nat} : s.unpairing k = { s with
    regs := (s.unpairing k).regs, twin := { s.twin with unpairOp := some k } } := rfl

theorem unpairing_longKept {k : Nat} : s.longKept (s.unpairing k) h :=
  longKept_trans (t := s.setFld Reg.TWN_STAT Fld.TWN_STAT_STATE 4) (longKept_setFld (by decide) (by decide)) (longKept_of_frame rfl rfl rfl rfl)

theorem unpairing_twinSt {k : Nat} : (s.unpairing k).twinSt = 4 := by
  have hregs : (s.unpairing k).fld Reg.TWN_STAT Fld.TWN_STAT_STATE = (s.setFld Reg.TWN_STAT Fld.TWN_STAT_STATE 4).fld Reg.TWN_STAT Fld.TWN_STAT_STATE :=
    State.fld_of_regs rfl
  rw [State.twinSt, hregs, State.fld_setFld_self (by decide)]
  rfl

theorem unpairing_waits {k n : Nat} {l : List LongOp} (hstart : b.longBegins u h c total 0 [])
    (hu : u = { b with regs := u.regs, pairs := u.pairs, longOps := l, sched := { b.sched with longSeq := n } }) :
    b.longBegins (u.unpairing k) h c total 0 [] ∧ (u.unpairing k).twinSt = 4 ∧ (u.unpairing k).twin = { b.twin with unpairOp := some k } ∧
      u.unpairing k = { b with
        regs := (u.unpairing k).regs, pairs := (u.unpairing k).pairs, longOps := (u.unpairing k).longOps, twin := (u.unpairing k).twin,
        sched := { b.sched with longSeq := n } } := by
  have hkept := unpairing_longKept (s := u) (k := k) (h := h)
  have hst := unpairing_twinSt (s := u) (k := k)
  have hframe := unpairing_frame (s := u) (k := k)
  generalize u.unpairing k = t at hkept hst hframe ⊢
  have hpairs : t.pairs = u.pairs := by rw [hframe]
  have hops : t.longOps = u.longOps := by rw [hframe]
  have htwin : t.twin = { b.twin with unpairOp := some k } := by rw [hframe, hu]
  refine ⟨longBegins_of_longKept hstart hkept, hst, htwin, ?_⟩
  rw [hpairs, hops, htwin]
  exact hframe.trans (by rw [hu])

theorem twinSolo_twin : s.twinSolo.twin = {} := by rw [State.twinSolo, State.setFld_twin]

theorem twinSolo_twinSt : s.twinSolo.twinSt = 0 := by
  have hne : Reg.TWN_STAT.key ≠ Reg.TWN_JRN.key := by decide
  rw [State.twinSt, State.twinSolo, State.fld_setFld_ne hne]
  exact (State.fld_of_regs (s := s.wrReg Reg.TWN_STAT Reg.TWN_STAT.dflt) rfl).trans State.fld_wrReg_self

theorem twinSolo_used : s.twinSolo.fld Reg.TWN_JRN Fld.TWN_JRN_USED = 0 := by
  rw [State.twinSolo, State.fld_setFld_self (by decide)]
  rfl

theorem twinSolo_longOps : s.twinSolo.longOps = s.longOps := by
  rw [State.twinSolo, State.setFld_longOps]
  rfl

theorem releaseHeld_longOps : s.releaseHeld.longOps = s.longOps := by
  unfold State.releaseHeld
  refine each_induction (P := fun t => t.longOps = s.longOps) rfl fun t x _ ht => ?_
  rw [repliesOnly_post.1]
  exact ht

theorem unpair_completes {k : Nat} {o : LongOp} (hop : s.twin.unpairOp = some k) (ho : s.longOf k = some o) (hk : o.id = k) :
    ∃ v : State, s.unpair = (v.longDropped k o.h.fn).reply o.h o.pkt.opcode stOK 0 0 ∧ v.twin = {} ∧ v.twinSt = 0 ∧
      v.fld Reg.TWN_JRN Fld.TWN_JRN_USED = 0 ∧ v.longOps = s.longOps := by
  have hasked : s.fabricOnly (s.request s.peer 7 0 0 (leBytes 1 mgUnpair) none) := fabricOnly_request
  have hops : ((s.request s.peer 7 0 0 (leBytes 1 mgUnpair) none).releaseHeld.twinSolo).longOps = s.longOps := by
    rw [twinSolo_longOps, releaseHeld_longOps, hasked]
  refine ⟨_, ?_, twinSolo_twin, twinSolo_twinSt, twinSolo_used, hops⟩
  unfold State.unpair
  dsimp only
  rw [hop]
  dsimp only
  rw [State.endLongAt, State.longOf, hops, show s.longOps.reverse.find? (fun x => x.id == k) = some o from ho, ← hk]
  rfl

/-! ## FABRIC_JOIN -/

theorem serve_fabricJoin {mask : BitVec 24} {rsv : BitVec 40} (hp : s.partExists h.fn = true) :
    s.serve h (.fabricJoin mask rsv) = s.svcFabricJoin h mask rsv := by
  rw [State.serve, hp]
  rfl

/-- Ports are enabled. -/
def State.portsEnabled (s : State) (named : List Nat) : State := s.each named fun s n => s.setFlag (Reg.LNK_PORT_CFG n) Fld.LNK_PORT_CFG_EN true

/-- Ports begin to train. -/
def State.portsTrained (s : State) (down : List Nat) : State := s.each down fun s n => s.trainPort n

/-- What a FABRIC_JOIN does once its operation has begun. -/
def State.joinBegun (s : State) (named down : List Nat) (o : LongOp) : State :=
  if down.isEmpty then ((s.portsEnabled named).portsTrained down).endLong o stOK 0 0
  else ((s.portsEnabled named).portsTrained down).setLong { o with wait := down }

theorem svcFabricJoin_starts {mask : BitVec 24} (hvalid : s.flag Reg.LNK_COORD Fld.LNK_COORD_VALID = true) :
    s.svcFabricJoin h mask 0 =
      s.startLong h (.fabricJoin mask 0) (max 1 (((List.range 24).filter fun n => bitOf mask.toNat n).filter fun n => s.portSt n != 2).length)
        fun o s' => s'.joinBegun ((List.range 24).filter fun n => bitOf mask.toNat n)
          (((List.range 24).filter fun n => bitOf mask.toNat n).filter fun n => s.portSt n != 2) o := by
  have hpass : firstFail [chkForm ((0 : BitVec 40) == 0) 3, chkSt (s.flag Reg.LNK_COORD Fld.LNK_COORD_VALID) stDeferred] = .pass := by
    rw [chkSt_true hvalid]
    rfl
  unfold State.svcFabricJoin
  exact checked_of_pass hpass

/-- Only registers and ports differ, no port is disabled, and a port that was not UP still is not. -/
def State.portsMore (s t : State) : Prop :=
  t = { s with regs := t.regs, ports := t.ports } ∧ (∀ h, s.longKept t h) ∧
    (∀ n, s.flag (Reg.LNK_PORT_CFG n) Fld.LNK_PORT_CFG_EN = true → t.flag (Reg.LNK_PORT_CFG n) Fld.LNK_PORT_CFG_EN = true) ∧
    ∀ n, t.portSt n = s.portSt n ∨ t.portSt n = 1

theorem portsMore_refl : s.portsMore s := ⟨rfl, fun _ => longKept_refl, fun _ hn => hn, fun _ => .inl rfl⟩

theorem portsMore_trans (h1 : s.portsMore t) (h2 : t.portsMore u) : s.portsMore u := by
  obtain ⟨hframe, hkept, hen, hst⟩ := h1
  obtain ⟨kframe, kkept, ken, kst⟩ := h2
  refine ⟨kframe.trans (by rw [hframe]), fun h => longKept_trans (hkept h) (kkept h), fun n hn => ken n (hen n hn), fun n => ?_⟩
  rcases kst n with hk | hk
  · rw [hk]
    exact hst n
  · exact .inr hk

theorem portsMore_each {α : Type} {xs : List α} {g : State → α → State} (hg : ∀ (t : State) x, x ∈ xs → t.portsMore (g t x)) :
    s.portsMore (s.each xs g) :=
  each_induction (P := fun t => s.portsMore t) portsMore_refl fun t x hx ht => portsMore_trans ht (hg t x hx)

theorem enabled_self {n : Nat} : (s.setFlag (Reg.LNK_PORT_CFG n) Fld.LNK_PORT_CFG_EN true).flag (Reg.LNK_PORT_CFG n) Fld.LNK_PORT_CFG_EN = true :=
  State.flag_setFlag_self (by decide) rfl

theorem portStat_ne_portCfg {m n : Nat} : (Reg.LNK_PORT_STAT m).key ≠ (Reg.LNK_PORT_CFG n).key := by
  simp only [Reg.LNK_PORT_CFG, Reg.LNK_PORT_STAT]
  omega

theorem enabled_portsMore {n : Nat} : s.portsMore (s.setFlag (Reg.LNK_PORT_CFG n) Fld.LNK_PORT_CFG_EN true) := by
  refine ⟨rfl, fun _ => longKept_setFlag (by decide) (show getBits 2 32 8 = 0 by decide), fun m hm => ?_, fun m => .inl (State.fld_setFlag_ne portStat_ne_portCfg)⟩
  by_cases hmn : m = n
  · exact hmn ▸ enabled_self
  · have hkey : (Reg.LNK_PORT_CFG m).key ≠ (Reg.LNK_PORT_CFG n).key := by
      simp only [Reg.LNK_PORT_CFG]
      omega
    rw [State.flag, State.fld_setFlag_ne hkey]
    exact hm

theorem portsEnabled_portsMore {named : List Nat} : s.portsMore (s.portsEnabled named) := portsMore_each fun _ _ _ => enabled_portsMore

theorem portsEnabled_en {named : List Nat} : ∀ n ∈ named, (s.portsEnabled named).flag (Reg.LNK_PORT_CFG n) Fld.LNK_PORT_CFG_EN = true := by
  induction named generalizing s with
  | nil => exact fun n hn => absurd hn List.not_mem_nil
  | cons x xs ih =>
    intro n hn
    rcases List.mem_cons.mp hn with rfl | hxs
    · exact (portsEnabled_portsMore (s := s.setFlag _ _ _)).2.2.1 n enabled_self
    · exact ih n hxs

theorem trainPort_of_not_up {n : Nat} (hn : s.portSt n ≠ 2) : s.trainPort n = s.portOff n 1 := by
  unfold State.trainPort
  exact if_neg hn

theorem portOff_portsMore {n : Nat} (hn : n < 24) : s.portsMore (s.portOff n 1) := by
  have hself := portOff_portSt (s := s) (n := n) (st := 1) (by decide)
  have hframe := portOff_frame (s := s) (n := n) (st := 1)
  have hfields := portOff_fields (s := s) (n := n) (st := 1)
  have hother : ∀ (r : RegRef) (f : Field), r.key ≠ (Reg.LNK_PORT_STAT n).key → (s.portOff n 1).fld r f = s.fld r f := fun r f hr =>
    hfields r f fun x hx he => absurd (he.symm.trans (by simp at hx; rcases hx with rfl | rfl | rfl | rfl <;> rfl)) hr
  generalize s.portOff n 1 = t at *
  have hcount : ∀ h : Hdr, (Reg.SCH_FN_STAT h.fn).key ≠ (Reg.LNK_PORT_STAT n).key := fun h => by
    simp only [Reg.SCH_FN_STAT, Reg.LNK_PORT_STAT]
    omega
  refine ⟨hframe, fun h => ⟨by rw [hframe], by rw [hframe], hother _ _ (hcount h), by rw [hframe]; rfl⟩, fun m hm => ?_, fun m => ?_⟩
  · rw [State.flag, hother _ _ portStat_ne_portCfg.symm]
    exact hm
  · by_cases hmn : m = n
    · exact .inr (hmn ▸ hself)
    · refine .inl (hother _ _ ?_)
      simp only [Reg.LNK_PORT_STAT]
      omega

/-- Ports that are not UP train one by one. -/
theorem portsTrained_trains {down : List Nat} (hdown : ∀ n ∈ down, n < 24 ∧ s.portSt n ≠ 2) :
    s.portsMore (s.portsTrained down) ∧ ∀ n ∈ down, (s.portsTrained down).portSt n = 1 := by
  induction down generalizing s with
  | nil => exact ⟨portsMore_refl, fun n hn => absurd hn List.not_mem_nil⟩
  | cons x xs ih =>
    obtain ⟨hx24, hx2⟩ := hdown x List.mem_cons_self
    have hoff := portOff_portsMore (s := s) hx24
    have hself := portOff_portSt (s := s) (n := x) (st := 1) (by decide)
    have hstep : s.portsTrained (x :: xs) = (s.portOff x 1).portsTrained xs := by rw [← trainPort_of_not_up hx2]; rfl
    obtain ⟨hmore, htrained⟩ := ih (s := s.portOff x 1) fun n hn => by
      obtain ⟨hn24, hn2⟩ := hdown n (List.mem_cons_of_mem x hn)
      refine ⟨hn24, ?_⟩
      rcases hoff.2.2.2 n with he | he
      · rwa [he]
      · rw [he]
        decide
    rw [hstep]
    refine ⟨portsMore_trans hoff hmore, fun n hn => ?_⟩
    rcases List.mem_cons.mp hn with rfl | hxs
    · rcases hmore.2.2.2 n with he | he
      · exact he.trans hself
      · exact he
    · exact htrained n hxs

/-- The ports named are enabled, and those that are not UP train. -/
theorem joined_ports {named down : List Nat} (hnamed : ∀ n ∈ named, n < 24) (hdown : ∀ n ∈ down, n ∈ named ∧ s.portSt n ≠ 2) :
    s.portsMore ((s.portsEnabled named).portsTrained down) ∧
      (∀ n ∈ named, ((s.portsEnabled named).portsTrained down).flag (Reg.LNK_PORT_CFG n) Fld.LNK_PORT_CFG_EN = true) ∧
      ∀ n ∈ down, ((s.portsEnabled named).portsTrained down).portSt n = 1 := by
  have hen := portsEnabled_portsMore (s := s) (named := named)
  obtain ⟨hmore, htrained⟩ := portsTrained_trains (s := s.portsEnabled named) (down := down) fun n hn => by
    obtain ⟨hmem, h2⟩ := hdown n hn
    refine ⟨hnamed n hmem, ?_⟩
    rcases hen.2.2.2 n with he | he
    · rwa [he]
    · rw [he]
      decide
  exact ⟨portsMore_trans hen hmore, fun n hn => hmore.2.2.1 n (portsEnabled_en n hn), htrained⟩

theorem joinBegun_begins {named down : List Nat} {n : Nat} {l : List LongOp} (hstart : b.longBegins u h c down.length 0 [])
    (hu : u = { b with regs := u.regs, pairs := u.pairs, longOps := l, sched := { b.sched with longSeq := n } }) (hne : down ≠ [])
    (hmore : u.portsMore ((u.portsEnabled named).portsTrained down)) :
    b.longBegins (u.joinBegun named down (b.newLong h c down.length)) h c down.length 0 down ∧
      u.joinBegun named down (b.newLong h c down.length) = { b with
        regs := ((u.portsEnabled named).portsTrained down).regs, pairs := (u.joinBegun named down (b.newLong h c down.length)).pairs,
        longOps := (u.joinBegun named down (b.newLong h c down.length)).longOps, ports := ((u.portsEnabled named).portsTrained down).ports,
        sched := { b.sched with longSeq := n } } := by
  have heq : u.joinBegun named down (b.newLong h c down.length) =
      ((u.portsEnabled named).portsTrained down).setLong { b.newLong h c down.length with wait := down } :=
    if_neg fun hempty => hne (List.isEmpty_iff.mp hempty)
  rw [heq]
  obtain ⟨hframe, hkept, -⟩ := hmore
  generalize (u.portsEnabled named).portsTrained down = t at hframe hkept ⊢
  refine ⟨longBegins_setLong (longBegins_of_longKept hstart (hkept h)), ?_⟩
  have hpairs : (t.setLong { b.newLong h c down.length with wait := down }).pairs = u.pairs := by rw [State.setLong, hframe]
  have htb : t = { b with
      regs := t.regs, pairs := u.pairs, longOps := t.longOps, ports := t.ports, sched := { b.sched with longSeq := n } } := by
    have hops : t.longOps = u.longOps := by rw [hframe]
    rw [hops]
    exact hframe.trans (by rw [hu])
  rw [hpairs]
  exact congrArg (fun v : State => { v with longOps := (t.setLong { b.newLong h c down.length with wait := down }).longOps }) htb

theorem joinBegun_completes {named : List Nat} (hstart : b.longBegins u h c total 0 [])
    (hmore : u.portsMore ((u.portsEnabled named).portsTrained [])) :
    ∃ v : State, u.joinBegun named [] (b.newLong h c total) = v.reply h c.opcode stOK 0 0 ∧
      v.longOps = b.longOps.filter (fun o => o.id != b.sched.longSeq) ∧
      ∀ n, n < 24 → v.flag (Reg.LNK_PORT_CFG n) Fld.LNK_PORT_CFG_EN = ((u.portsEnabled named).portsTrained []).flag (Reg.LNK_PORT_CFG n) Fld.LNK_PORT_CFG_EN := by
  have hbegins := longBegins_of_longKept hstart (hmore.2.1 h)
  have heq : u.joinBegun named [] (b.newLong h c total) = ((u.portsEnabled named).portsTrained []).endLong (b.newLong h c total) stOK 0 0 := if_pos rfl
  rw [heq, endLong_eq]
  generalize (u.portsEnabled named).portsTrained [] = t at hbegins ⊢
  refine ⟨t.longDropped b.sched.longSeq h.fn, rfl, longDropped_of_begins hbegins, fun n hn => ?_⟩
  rw [State.flag, State.flag, longDropped_fld (portCfg_ne_fnStat hn)]

theorem filter_both {mask : Nat} : ((List.range 24).filter fun n => bitOf mask n && s.portSt n != 2) =
    ((List.range 24).filter fun n => bitOf mask n).filter fun n => s.portSt n != 2 := by
  rw [List.filter_filter]
  exact List.filter_congr fun n _ => Bool.and_comm _ _

theorem mem_named_lt {mask n : Nat} (hn : n ∈ (List.range 24).filter fun n => bitOf mask n) : n < 24 :=
  List.mem_range.mp (List.mem_of_mem_filter hn)

theorem fld_of_countFields {f : Nat} {r : RegRef} {g : Field} (hk : s.fieldsBut t [(Reg.SCH_FN_STAT f, Fld.SCH_FN_STAT_LONG_OPS)])
    (hr : r.key ≠ (Reg.SCH_FN_STAT f).key) : t.fld r g = s.fld r g :=
  hk r g fun x hx he => absurd (by rw [← he, List.mem_singleton.mp hx]) hr

theorem twinSt_of_fields {f : Nat} (hk : s.fieldsBut t [(Reg.SCH_FN_STAT f, Fld.SCH_FN_STAT_LONG_OPS)]) : t.twinSt = s.twinSt :=
  fld_of_countFields hk twnStat_ne_fnStat

theorem portSt_of_fields {f n : Nat} (hk : s.fieldsBut t [(Reg.SCH_FN_STAT f, Fld.SCH_FN_STAT_LONG_OPS)]) (hn : n < 24) : t.portSt n = s.portSt n := by
  refine fld_of_countFields hk ?_
  simp only [Reg.SCH_FN_STAT, Reg.LNK_PORT_STAT]
  omega

/-- The pair is dissolved, and the TWIN_UNPAIR that asked for it completes. -/
theorem unpair_of_begins (hstart : b.longBegins u h c total 0 []) : ∃ v : State, (u.unpairing b.sched.longSeq).unpair = v.reply h c.opcode stOK 0 0 ∧
    v.twin = {} ∧ v.twinSt = 0 ∧ v.fld Reg.TWN_JRN Fld.TWN_JRN_USED = 0 ∧ v.longOps = b.longOps.filter fun o => o.id != b.sched.longSeq := by
  have hbegins := longBegins_of_longKept hstart (unpairing_longKept (s := u) (k := b.sched.longSeq))
  have hop : (u.unpairing b.sched.longSeq).twin.unpairOp = some b.sched.longSeq := by rw [unpairing_frame]
  generalize u.unpairing b.sched.longSeq = x at hbegins hop ⊢
  obtain ⟨v, hv, htwin, hst, hused, hops⟩ := unpair_completes hop (longOf_of_begins hbegins) rfl
  refine ⟨v.longDropped b.sched.longSeq h.fn, hv, ?_, ?_, ?_, ?_⟩
  · rw [longDropped_frame]
    exact htwin
  · rw [State.twinSt, longDropped_fld twnStat_ne_fnStat]
    exact hst
  · rw [longDropped_fld twnJrn_ne_fnStat]
    exact hused
  · rw [longDropped_longOps, hops]
    exact hbegins.2.1

/-! ## The packets -/

section
variable {peer : BitVec 16} {byte2 byte0 : BitVec 8} {mask : BitVec 24}

theorem exec_twinPair (hb : b = s.served h (.twinPair peer byte2 0)) (ht : s.takesC h (.twinPair peer byte2 0)) (hm : peer.toNat < 16384)
    (hme : peer.toNat ≠ b.myId) (h2 : byte2.toNat < 2) (hsolo : b.twinSt = 0) (hup : b.upPorts 3 ≠ [])
    (hboard : (b.portsTo peer.toNat).any (fun n => b.sameBoard (b.port n).farCoord) = true) (hregion : b.regionSet = true) :
    exec (.twinPair h peer byte2 0) s = .next (b.startLong h (.twinPair peer byte2 0) 1 fun o s => s.pairBegun peer.toNat byte2 o) := by
  rw [exec_served rfl ht fun _ hp => serve_twinPair hp, ← hb, svcTwinPair_starts hm hme h2 hsolo hup hboard hregion]

theorem exec_twinUnpair (hb : b = s.served h (.twinUnpair byte0 0)) (ht : s.takesC h (.twinUnpair byte0 0)) (h2 : byte0.toNat < 2)
    (htake : b.flag Reg.TWN_STAT Fld.TWN_STAT_TAKEOVER = false) (h4 : b.twinSt ≠ 4) :
    exec (.twinUnpair h byte0 0) s = .next (b.startLong h (.twinUnpair byte0 0) 1 fun o s => s.unpairBegun byte0 o) := by
  rw [exec_served rfl ht fun _ hp => serve_twinUnpair hp, ← hb, svcTwinUnpair_starts h2 htake h4]

/-- The pairing waits for the peer's answer. -/
theorem pairBegun_begins (hm : peer.toNat < 16384)
    (hseen : ∀ p set t0, b.twin.pairSeen = some (p, set, t0) → p ≠ peer.toNat ∨ t0 + 1000000000 ≤ b.now) (hu : b.begunAs u h c 1) :
    b.longBegins (u.pairBegun peer.toNat byte2 (b.newLong h c 1)) h c 1 0 [] ∧
      (u.pairBegun peer.toNat byte2 (b.newLong h c 1)).twinSt = 1 ∧ (u.pairBegun peer.toNat byte2 (b.newLong h c 1)).peer = peer.toNat ∧
      (u.pairBegun peer.toNat byte2 (b.newLong h c 1)).twin =
        { noJbc := bitOf byte2.toNat 0, pairAt := b.now, lastBeat := b.now, pairOp := some b.sched.longSeq } ∧
      b.fieldsBut (u.pairBegun peer.toNat byte2 (b.newLong h c 1)) [(Reg.TWN_STAT, Fld.TWN_STAT_STATE), (Reg.TWN_STAT, Fld.TWN_STAT_PEER),
        (Reg.SCH_FN_STAT h.fn, Fld.SCH_FN_STAT_LONG_OPS)] ∧
      u.pairBegun peer.toNat byte2 (b.newLong h c 1) = { b with
        regs := (u.pairBegun peer.toNat byte2 (b.newLong h c 1)).regs, pairs := (u.pairBegun peer.toNat byte2 (b.newLong h c 1)).pairs,
        longOps := (u.pairBegun peer.toNat byte2 (b.newLong h c 1)).longOps, twin := (u.pairBegun peer.toNat byte2 (b.newLong h c 1)).twin,
        fabric := (u.pairBegun peer.toNat byte2 (b.newLong h c 1)).fabric, ports := (u.pairBegun peer.toNat byte2 (b.newLong h c 1)).ports,
        sched := { b.sched with longSeq := b.sched.longSeq + 1 } } := by
  obtain ⟨hstart, hframe, hfields⟩ := hu
  have htwin : u.twin = b.twin := by rw [hframe]
  have hnow : u.now = b.now := by rw [hframe]
  rw [pairBegun_of_waiting (by rw [htwin, hnow]; exact hseen)]
  have hw : u.pairTwin byte2 b.sched.longSeq =
      { noJbc := bitOf byte2.toNat 0, pairAt := b.now, lastBeat := b.now, pairOp := some b.sched.longSeq } := by rw [State.pairTwin, hnow]
  rw [← hw]
  exact pairAsked_begins (by omega) hstart hframe hfields

/-- The peer has already asked: the pair is formed at once. -/
theorem pairBegun_completes {t0 : Nat} (hm : peer.toNat < 16384) (hseen : b.twin.pairSeen = some (peer.toNat, true, t0))
    (hnow : b.now < t0 + 1000000000) (hu : b.begunAs u h c 1) :
    ∃ v : State, u.pairBegun peer.toNat byte2 (b.newLong h c 1) = v.reply h c.opcode stOK 0 0 ∧ v.twinSt = 2 ∧ v.peer = peer.toNat ∧
      v.flag Reg.TWN_STAT Fld.TWN_STAT_JBC = !(bitOf byte2.toNat 0) ∧ v.longOps = b.longOps.filter fun o => o.id != b.sched.longSeq := by
  obtain ⟨hstart, hframe, hfields⟩ := hu
  have htwin : u.twin = b.twin := by rw [hframe]
  have hnow' : u.now = b.now := by rw [hframe]
  rw [pairBegun_of_seen (by rw [htwin]; exact hseen) (by rw [hnow']; exact hnow)]
  obtain ⟨hbegins, -, hpeer, hw, -⟩ := pairAsked_begins (m := peer.toNat) (w := u.pairTwin byte2 b.sched.longSeq) (by omega) hstart hframe hfields
  exact paired_completes hbegins hpeer (congrArg Twin.pairOp hw) (congrArg Twin.noJbc hw)

theorem unpairBegun_completes (hst : b.twinSt = 0) (hu : b.begunAs u h c 1) :
    ∃ v : State, u.unpairBegun byte0 (b.newLong h c 1) = v.reply h c.opcode stOK 0 0 ∧ v.twin = b.twin ∧ v.twinSt = 0 ∧
      v.longOps = b.longOps.filter fun o => o.id != b.sched.longSeq := by
  obtain ⟨hstart, hframe, hfields⟩ := hu
  have hu0 : u.twinSt = 0 := (twinSt_of_fields hfields).trans hst
  rw [unpairBegun_solo hu0]
  refine ⟨u.longDropped b.sched.longSeq h.fn, endLongAt_of_begins hstart, ?_, ?_, longDropped_of_begins hstart⟩
  · rw [longDropped_frame, hframe]
  · rw [State.twinSt, longDropped_fld twnStat_ne_fnStat]
    exact hu0

theorem exec_fabricJoin (hb : b = s.served h (.fabricJoin mask 0)) (ht : s.takesC h (.fabricJoin mask 0))
    (hvalid : b.flag Reg.LNK_COORD Fld.LNK_COORD_VALID = true) : exec (.fabricJoin h mask 0) s =
    .next (b.startLong h (.fabricJoin mask 0) (max 1 (((List.range 24).filter fun n => bitOf mask.toNat n).filter fun n => b.portSt n != 2).length)
      fun o s' => s'.joinBegun ((List.range 24).filter fun n => bitOf mask.toNat n)
        (((List.range 24).filter fun n => bitOf mask.toNat n).filter fun n => b.portSt n != 2) o) := by
  rw [exec_served rfl ht fun _ hp => serve_fabricJoin hp, ← hb, svcFabricJoin_starts hvalid]

/-- The ports of the mask are enabled, and those that are not UP train. -/
theorem joined_of_begun (hu : b.begunAs u h c total) {named down : List Nat} (hnamed : ∀ n ∈ named, n < 24)
    (hdown : ∀ n ∈ down, n ∈ named ∧ b.portSt n ≠ 2) :
    u.portsMore ((u.portsEnabled named).portsTrained down) ∧
      (∀ n ∈ named, ((u.portsEnabled named).portsTrained down).flag (Reg.LNK_PORT_CFG n) Fld.LNK_PORT_CFG_EN = true) ∧
      ∀ n ∈ down, ((u.portsEnabled named).portsTrained down).portSt n = 1 :=
  joined_ports hnamed fun n hn => by
    obtain ⟨hmem, h2⟩ := hdown n hn
    exact ⟨hmem, by rwa [portSt_of_fields hu.2.2 (hnamed n hmem)]⟩

theorem joinBegun_joins {named down : List Nat} (hu : b.begunAs u h c down.length) (hne : down ≠ []) (hnamed : ∀ n ∈ named, n < 24)
    (hdown : ∀ n ∈ down, n ∈ named ∧ b.portSt n ≠ 2) :
    b.longBegins (u.joinBegun named down (b.newLong h c down.length)) h c down.length 0 down ∧
      (∀ n ∈ named, (u.joinBegun named down (b.newLong h c down.length)).flag (Reg.LNK_PORT_CFG n) Fld.LNK_PORT_CFG_EN = true) ∧
      (∀ n ∈ down, (u.joinBegun named down (b.newLong h c down.length)).portSt n = 1) ∧
      u.joinBegun named down (b.newLong h c down.length) = { b with
        regs := (u.joinBegun named down (b.newLong h c down.length)).regs, pairs := (u.joinBegun named down (b.newLong h c down.length)).pairs,
        longOps := (u.joinBegun named down (b.newLong h c down.length)).longOps,
        ports := (u.joinBegun named down (b.newLong h c down.length)).ports,
        sched := { b.sched with longSeq := b.sched.longSeq + 1 } } := by
  obtain ⟨hmore, hen, htrained⟩ := joined_of_begun hu hnamed hdown
  obtain ⟨hbegins, hall⟩ := joinBegun_begins hu.1 hu.2.1 hne hmore
  generalize u.joinBegun named down (b.newLong h c down.length) = t at hbegins hall ⊢
  generalize (u.portsEnabled named).portsTrained down = v at hall hen htrained
  have hregs : t.regs = v.regs := by rw [hall]
  have hports : t.ports = v.ports := by rw [hall]
  refine ⟨hbegins, fun n hn => ?_, fun n hn => (State.fld_of_regs hregs).trans (htrained n hn), ?_⟩
  · rw [State.flag, State.fld_of_regs hregs]
    exact hen n hn
  · rw [hregs, hports]
    exact hall

end

end Sys2Proof.Machine

namespace Sys2Proof
open Machine

/-- Settles O39: the three packets start a long operation; a pairing that is answered, a SOLO module's TWIN_UNPAIR and a FABRIC_JOIN with
nothing to train end it at once. -/
theorem twinAndFabricPacketsBegin : Obligations.TwinAndFabricPacketsBegin := by
  unfold Obligations.TwinAndFabricPacketsBegin
  refine ⟨fun s h peer byte2 b hb ht hm hme h2 hsolo hup hboard hregion => ⟨fun hseen => ?_, fun t0 hseen hnow hroom => ?_⟩,
    fun s h byte0 b hb ht h2 htake hroom => ⟨fun hst => ?_, fun hst hacked => ?_, fun hst h1 hacked => ?_⟩,
    fun s h mask b down hb ht hvalid hdown => ?_⟩
  · exact startsLong_of_begun hb ht (exec_twinPair hb ht hm hme h2 hsolo hup hboard hregion) fun u hu => pairBegun_begins hm hseen hu
  · obtain ⟨u, hu, hgo⟩ := startLong_begins (total := 1) hb ht hroom
    obtain ⟨v, hv, hrest⟩ := pairBegun_completes hm hseen hnow hu
    refine ⟨v, ?_, hrest⟩
    rw [exec_twinPair hb ht hm hme h2 hsolo hup hboard hregion, hgo, hv]
    rfl
  · obtain ⟨u, hu, hgo⟩ := startLong_begins (total := 1) hb ht hroom
    obtain ⟨v, hv, hrest⟩ := unpairBegun_completes hst hu
    refine ⟨v, ?_, hrest⟩
    rw [exec_twinUnpair hb ht h2 htake (by omega), hgo, hv]
    rfl
  · obtain ⟨u, hu, hgo⟩ := startLong_begins (total := 1) hb ht hroom
    obtain ⟨v, hv, hrest⟩ := unpair_of_begins hu.1
    have htwin : u.twin = b.twin := by rw [hu.2.1]
    refine ⟨v, ?_, hrest⟩
    rw [exec_twinUnpair hb ht h2 htake (by omega), hgo,
      unpairBegun_goes (by rw [twinSt_of_fields hu.2.2]; exact hst) (by rw [htwin]; exact hacked)]
    exact congrArg Host.Outcome.next hv
  · obtain ⟨u, hu, hgo⟩ := startLong_begins (total := 1) hb ht hroom
    have htwin : u.twin = b.twin := by rw [hu.2.1]
    refine ⟨u.unpairing b.sched.longSeq, ?_, unpairing_waits hu.1 hu.2.1⟩
    rw [exec_twinUnpair hb ht h2 htake (by omega), hgo,
      unpairBegun_waits (by rw [twinSt_of_fields hu.2.2]; exact hst) h1 (by rw [htwin]; exact hacked)]
    rfl
  · have hlist := hdown.trans filter_both
    have hexec := exec_fabricJoin hb ht hvalid
    have hmem : ∀ n ∈ down, n ∈ ((List.range 24).filter fun n => bitOf mask.toNat n) ∧ b.portSt n ≠ 2 := fun n hn => by
      rw [hlist, List.mem_filter] at hn
      exact ⟨hn.1, bne_iff_ne.mp hn.2⟩
    rw [← hlist] at hexec
    refine ⟨fun hne => ?_, fun hempty hroom => ?_⟩
    · rw [show max 1 down.length = down.length from Nat.max_eq_right (List.length_pos_iff.mpr hne)] at hexec
      refine startsLong_of_begun hb ht hexec fun u hu => ?_
      obtain ⟨hbegins, hen, htrained, hall⟩ := joinBegun_joins hu hne (fun n hn => mem_named_lt hn) hmem
      exact ⟨hbegins, fun n hn hbit => hen n (List.mem_filter.mpr ⟨List.mem_range.mpr hn, hbit⟩), htrained, hall⟩
    · obtain ⟨u, hu, hgo⟩ := startLong_begins (total := max 1 down.length) hb ht hroom
      obtain ⟨hmore, hen, -⟩ := joined_of_begun hu (fun n hn => mem_named_lt hn) hmem
      rw [hgo] at hexec
      subst hempty
      obtain ⟨v, hv, hops, hflags⟩ := joinBegun_completes hu.1 hmore
      refine ⟨v, hexec.trans (congrArg Host.Outcome.next hv), hops, fun n hn hbit => ?_⟩
      rw [hflags n hn]
      exact hen n (List.mem_filter.mpr ⟨List.mem_range.mpr hn, hbit⟩)

end Sys2Proof

end

section
/-! PROOFS. Slices of long operations (R308, R470, R483). -/

namespace Sys2Proof.Machine

variable {s : State} {o : LongOp} {fn seq amount at_ : Nat}

/-- A slice that is granted runs on the state that the service arbiter leaves. -/
theorem exec_slice_of_granted (hg : (s.tick at_).sliceGranted fn seq o) :
    exec (.longOperationSlice fn seq amount at_) s = .next (((s.tick at_).slicing fn o).runLong o amount) := by
  obtain ⟨hfn, hfind, halive, hmay⟩ := hg
  have hgo : (((s.tick at_).recovery || (s.tick at_).alive o.pkt.proc) && (s.tick at_).serviceMay o.pkt.proc (2 * fn + 1)) = true := by
    rw [hmay, Bool.and_true, Bool.or_eq_true]
    exact halive
  show onObject (decide (fn < 64)) _ = _
  rw [decide_eq_true hfn, hfind]
  exact congrArg Host.Outcome.next (if_pos hgo)

/-- A slice of a FW_STAGE waits while the flash arbiter grants another requester. -/
theorem sliceStage_of_not_granted {offset : Nat} {data : List Byte} (hmay : s.flashMay 3 = false) : s.sliceStage o offset data = s :=
  if_pos (by rw [hmay]; rfl)

/-! ## Two long operations of one number -/

/-- The header of a packet of partition 0 with a SEQ. -/
def pf0Hdr (seq : BitVec 32) : Hdr :=
  { fn := 0, ring := 0, cls := 1, part := 0, flags := 0, seq := seq, length := 0, rsv := 0, tag := 0 }

/-- A FW_STAGE at its first block. -/
def twinStage : LongOp := { id := 0, h := pf0Hdr 1, pkt := .fwStage 0 4096 0 0 [], total := 4096 }

/-- In recovery, with the inactive bank VALID and the fault log to be written: a ZEROIZE and a FW_STAGE bear one number. The ZEROIZE's slice is
due, and the flash arbiter grants the fault log before the staging. -/
def twinNumbers : State := { State.reset with
  regs := [(Reg.FWP_BOOT.key, 8), ((Reg.FWP_VER 1).key, BitVec.ofNat 64 (2 ^ 38))],
  longOps := [{ id := 0, h := pf0Hdr 0, pkt := .zeroize 0 }, twinStage],
  faultLog := { State.reset.faultLog with dirtyAt := some 0 } }

theorem twinNumbers_granted : (twinNumbers.tick 0).sliceGranted 0 1 twinStage :=
  ⟨by decide, by decide, .inl (by decide), by decide⟩

theorem twinNumbers_flash : ((twinNumbers.tick 0).slicing 0 twinStage).flashMay 3 = false := by decide

theorem twinNumbers_bank : ((twinNumbers.tick 0).slicing 0 twinStage).inactiveBank = 1 := by decide

theorem twinNumbers_valid : ((twinNumbers.tick 0).slicing 0 twinStage).flag (Reg.FWP_VER 1) Fld.FWP_VER_VALID = true := by decide

end Sys2Proof.Machine

namespace Sys2Proof
open Machine

/-- Refutes O40: where two long operations bear one number, the one that wants a slice lends its turn to a FW_STAGE whose flash grant is still
to come; the slice is granted and erases nothing. -/
theorem not_longOperationsAdvanceAndTell : ¬ Obligations.LongOperationsAdvanceAndTell := by
  unfold Obligations.LongOperationsAdvanceAndTell
  rintro ⟨hstage, -⟩
  obtain ⟨herase, -⟩ := hstage twinNumbers 0 1 0 0 twinStage 0 4096 0 0 [] _ 1 0 [] twinNumbers_granted rfl rfl twinNumbers_bank.symm rfl rfl
  obtain ⟨t, hexec, -, -, -, hvalid, -⟩ := herase rfl (by decide)
  rw [exec_slice_of_granted twinNumbers_granted] at hexec
  have ht : ((twinNumbers.tick 0).slicing 0 twinStage).sliceStage twinStage 0 [] = t := Host.Outcome.next.inj hexec
  rw [sliceStage_of_not_granted twinNumbers_flash] at ht
  rw [← ht, twinNumbers_valid] at hvalid
  exact absurd hvalid (by decide)

end Sys2Proof

end

section
/-! PROOFS. PART_CREATE and PART_DESTROY (R520, R521, R526). -/

namespace Sys2Proof.Machine

variable {s t u b : State} {h : Hdr} {p : Nat}

/-! ## A range cleared -/

theorem cellAt_filter_none {cells : List Host.Cell} {q : Nat → Bool} {x : Nat} (hq : q x = false) : cellAt (cells.filter fun c => q c.1) x = none := by
  induction cells with
  | nil => rfl
  | cons c t ih =>
    obtain ⟨k, v⟩ := c
    by_cases hk : q k = true
    · have hne : x ≠ k := fun he => by rw [he, hk] at hq; cases hq
      rw [List.filter_cons_of_pos (p := fun c : Host.Cell => q c.1) hk, cellAt, if_neg hne]
      exact ih
    · rw [List.filter_cons_of_neg (p := fun c : Host.Cell => q c.1) hk]
      exact ih

theorem tget_filter {α : Type} {d : α} {l : Tbl α} {q : Nat → Bool} {k : Nat} (hq : q k = true) : tget d (l.filter fun e => q e.1) k = tget d l k := by
  induction l with
  | nil => rfl
  | cons e l ih =>
    obtain ⟨j, v⟩ := e
    by_cases hj : q j = true
    · rw [List.filter_cons_of_pos (p := fun e : Nat × α => q e.1) hj, tget, tget, ih]
    · have hne : k ≠ j := fun he => hj (he ▸ hq)
      rw [List.filter_cons_of_neg (p := fun e : Nat × α => q e.1) hj, tget, if_neg hne]
      exact ih

theorem Mem.clear_byte_in {m : Mem} {lo n boot a : Nat} (h1 : lo ≤ a) (h2 : a < lo + n) : (m.clear lo n).byte boot a = 0 := by
  have hcell : cellAt (m.clear lo n).cells a = none := cellAt_filter_none (q := fun k => !(lo ≤ k && k < lo + n)) (by simp [h1, h2])
  have hzero : inRanges (m.clear lo n).zeroed a = true := by simp [Mem.clear, inRanges, h1, h2]
  rw [Mem.byte, hcell, Option.getD_none, Mem.unlisted, if_pos hzero]

theorem Mem.clear_byte_out {m : Mem} {lo n boot a : Nat} (hout : ¬(lo ≤ a ∧ a < lo + n)) : (m.clear lo n).byte boot a = m.byte boot a := by
  have hq : (!(decide (lo ≤ a) && decide (a < lo + n))) = true := by
    rw [Bool.not_eq_true', Bool.eq_false_iff, ne_eq, Bool.and_eq_true, decide_eq_true_eq, decide_eq_true_eq]
    exact hout
  have hcell : cellAt (m.clear lo n).cells a = cellAt m.cells a := cellAt_filter (p := fun k => !(lo ≤ k && k < lo + n)) hq
  have hzero : inRanges (m.clear lo n).zeroed a = inRanges m.zeroed a := by
    rw [Mem.clear, inRanges, show (decide (lo ≤ a) && decide (a < lo + n)) = false from (Bool.not_eq_eq_eq_not.mp hq), Bool.false_or]
  rw [Mem.byte, Mem.byte, hcell, Mem.unlisted, Mem.unlisted, hzero]

/-- Outside a range of whole units a clearing changes no byte under any key. -/
theorem Mem.clear_readByte_out {m : Mem} {lo n boot a : Nat} {key : Option Nat} (hlo : lo % 256 = 0) (hn : n % 256 = 0)
    (hout : ¬(lo ≤ a ∧ a < lo + n)) : (m.clear lo n).readByte boot key a = m.readByte boot key a := by
  have hunit : (!(decide (lo ≤ a / 256 * 256) && decide (a / 256 * 256 < lo + n))) = true := by
    rw [Bool.not_eq_true', Bool.eq_false_iff, ne_eq, Bool.and_eq_true, decide_eq_true_eq, decide_eq_true_eq]
    omega
  have hkey : tget 0 (m.clear lo n).keys (a / 256) = tget 0 m.keys (a / 256) :=
    tget_filter (q := fun k => !(lo ≤ k * 256 && k * 256 < lo + n)) hunit
  unfold Mem.readByte
  cases key with
  | none => exact Mem.clear_byte_out hout
  | some k =>
    dsimp only
    rw [hkey, Mem.clear_byte_out hout]

/-! ## PART_CREATE -/

theorem serve_partCreate {part : BitVec 8} {rsv : BitVec 56} {area root : BitVec 64} (hp : s.partExists h.fn = true) :
    s.serve h (.partCreate part rsv area root) = s.svcPartCreate h part rsv area root := by
  rw [State.serve, hp]
  rfl

/-- The ring area of a new partition is cleared to zero, and nothing is kept of an older one. -/
def State.areaCleared (s : State) (p a : Nat) : State := { s with mem := s.mem.clear a (2 ^ 26) }.setPart p {}

/-- The ring area of a new partition is placed. -/
def State.areaPlaced (s : State) (p a : Nat) : State := s.setFld (Reg.SCH_RING_AREA p) Fld.SCH_RING_AREA_BASE (a / 2 ^ 26)

/-- The registers of a new partition. -/
def State.rooted (s : State) (p : Nat) (root : Word64) : State := (s.rstReg (Reg.MMU_INV p)).wrReg (Reg.MMU_ROOT p) root

/-- A new partition. -/
def State.created (s : State) (p a : Nat) (root : Word64) : State :=
  ((((s.areaPlaced p a).areaCleared p a).rooted p root).freshKey p 0).setFlag (Reg.SEC_PART p) Fld.SEC_PART_EXISTS true

theorem svcPartCreate_creates {part : BitVec 8} {area root : BitVec 64} (h1 : 1 ≤ part.toNat) (h64 : part.toNat < 64)
    (hex : s.partExists part.toNat = false) (halign : area.toNat % 2 ^ 26 = 0) (hend : area.toNat + 2 ^ 26 ≤ memEnd)
    (hhits : hitsAny area.toNat (2 ^ 26) ((List.range 64).flatMap s.windows ++ s.reservedRanges) = false)
    (hlow : bitsOf root.toNat 1 16 = 0) (hhigh : bitsOf root.toNat 42 22 = 0) (herr : s.secError = false) (hvf : s.pcie.vfEnable = true)
    (hnum : part.toNat ≤ s.pcie.numVfs) :
    s.svcPartCreate h part 0 area root = (s.created part.toNat area.toNat root).reply h 0x40 stOK 0 0 := by
  have hpart : (decide (1 ≤ part.toNat) && decide (part.toNat < 64) && !(s.partExists part.toNat)) = true := by
    rw [decide_eq_true h1, decide_eq_true h64, hex]
    rfl
  have harea : (area.toNat % 2 ^ 26 == 0 && decide (area.toNat + 2 ^ 26 ≤ memEnd) &&
      !(hitsAny area.toNat (2 ^ 26) ((List.range 64).flatMap s.windows ++ s.reservedRanges))) = true := by
    rw [beq_iff_eq.mpr halign, decide_eq_true hend, hhits]
    rfl
  have hroot : (bitsOf root.toNat 1 16 == 0 && bitsOf root.toNat 42 22 == 0) = true := by
    rw [beq_iff_eq.mpr hlow, beq_iff_eq.mpr hhigh]
    rfl
  have hnum' : (s.pcie.vfEnable && decide (part.toNat ≤ s.pcie.numVfs)) = true := by
    rw [hvf, decide_eq_true hnum]
    rfl
  unfold State.svcPartCreate
  refine checked_of_pass ?_
  rw [chkForm_true hpart, chkForm_true harea, chkForm_true hroot, chkSt_true hnum', herr]
  rfl

theorem areaPlaced_frame {a : Nat} : s.areaPlaced p a = { s with regs := (s.areaPlaced p a).regs } := setFld_frame

theorem areaCleared_frame {a : Nat} : s.areaCleared p a = { s with mem := s.mem.clear a (2 ^ 26), parts := tset {} s.parts p {} } := rfl

theorem areaCleared_reg {a : Nat} {r : RegRef} : (s.areaCleared p a).reg r = s.reg r := rfl

theorem rooted_frame {root : Word64} : s.rooted p root = { s with regs := (s.rooted p root).regs } := rfl

theorem freshKey_frame {src : Nat} : s.freshKey p src = { s with
    regs := (s.freshKey p src).regs, sec := { s.sec with keyId := tset 0 s.sec.keyId p s.sec.nextKey, nextKey := s.sec.nextKey + 1 } } := rfl

theorem freshKey_fields {src : Nat} {l : List (RegRef × Field)} (h1 : (Reg.SEC_PART p, Fld.SEC_PART_KEY_GEN) ∈ l)
    (h2 : (Reg.SEC_PART p, Fld.SEC_PART_KEY_SRC) ∈ l) : s.fieldsBut (s.freshKey p src) l :=
  fieldsBut_trans (t := s.clearKey p) (fieldsBut_of_regs rfl) (fieldsBut_trans (fieldsBut_setFld h1) (fieldsBut_setFld h2))

theorem freshKey_reg {src : Nat} {r : RegRef} (hr : r.key ≠ (Reg.SEC_PART p).key) : (s.freshKey p src).reg r = s.reg r := by
  have hset : (s.freshKey p src) = ((s.clearKey p).setFld (Reg.SEC_PART p) Fld.SEC_PART_KEY_GEN
      ((s.clearKey p).fld (Reg.SEC_PART p) Fld.SEC_PART_KEY_GEN + 1)).setFld (Reg.SEC_PART p) Fld.SEC_PART_KEY_SRC src := rfl
  rw [hset, State.setFld, State.reg_wrReg_ne hr, State.setFld, State.reg_wrReg_ne hr]
  rfl

theorem freshKey_gen {src : Nat} : (s.freshKey p src).fld (Reg.SEC_PART p) Fld.SEC_PART_KEY_GEN =
    (s.fld (Reg.SEC_PART p) Fld.SEC_PART_KEY_GEN + 1) % 256 :=
  (State.fld_setFld_of_disjoint (by decide)).trans (State.fld_setFld_self (by decide))

theorem freshKey_src {src : Nat} (hsrc : src < 2 ^ Fld.SEC_PART_KEY_SRC.w) : (s.freshKey p src).fld (Reg.SEC_PART p) Fld.SEC_PART_KEY_SRC = src :=
  (State.fld_setFld_self (by decide)).trans (Nat.mod_eq_of_lt hsrc)

theorem created_frame {a : Nat} {root : Word64} : s.created p a root = { s with
    regs := (s.created p a root).regs, mem := s.mem.clear a (2 ^ 26), parts := tset {} s.parts p {},
    sec := { s.sec with keyId := tset 0 s.sec.keyId p s.sec.nextKey, nextKey := s.sec.nextKey + 1 } } := by
  have h1 := areaPlaced_frame (s := s) (p := p) (a := a)
  rw [State.created]
  generalize s.areaPlaced p a = x at h1 ⊢
  have h2 := areaCleared_frame (s := x) (p := p) (a := a)
  generalize x.areaCleared p a = y at h2 ⊢
  have h3 := rooted_frame (s := y) (p := p) (root := root)
  generalize y.rooted p root = z at h3 ⊢
  have h4 := freshKey_frame (s := z) (p := p) (src := 0)
  generalize z.freshKey p 0 = w at h4 ⊢
  have h5 : w.setFlag (Reg.SEC_PART p) Fld.SEC_PART_EXISTS true = { w with regs := (w.setFlag (Reg.SEC_PART p) Fld.SEC_PART_EXISTS true).regs } :=
    setFld_frame
  generalize w.setFlag (Reg.SEC_PART p) Fld.SEC_PART_EXISTS true = v at h5 ⊢
  exact h5.trans (by rw [h4, h3, h2, h1])

/-- What a new partition's registers read. -/
theorem created_fields {a : Nat} {root : Word64} : s.fieldsBut (s.created p a root)
    [(Reg.SCH_RING_AREA p, Fld.SCH_RING_AREA_BASE), (Reg.MMU_ROOT p, wholeReg), (Reg.MMU_INV p, wholeReg), (Reg.SEC_PART p, Fld.SEC_PART_EXISTS),
      (Reg.SEC_PART p, Fld.SEC_PART_KEY_GEN), (Reg.SEC_PART p, Fld.SEC_PART_KEY_SRC)] := by
  refine fieldsBut_trans (t := s.areaPlaced p a) (fieldsBut_setFld (by simp)) (fieldsBut_trans (t := (s.areaPlaced p a).areaCleared p a) (fieldsBut_of_regs rfl)
    (fieldsBut_trans (t := ((s.areaPlaced p a).areaCleared p a).rooted p root) (fieldsBut_trans (fieldsBut_wrReg (by simp)) (fieldsBut_wrReg (by simp)))
      (fieldsBut_trans (t := (((s.areaPlaced p a).areaCleared p a).rooted p root).freshKey p 0) ?_ (fieldsBut_setFlag (by simp)))))
  exact freshKey_fields (by simp) (by simp)

theorem secPart_ne {k : Nat} (hp : p < 64) (hk : k < 0x150200 ∨ 0x150400 ≤ k) : k ≠ (Reg.SEC_PART p).key := by
  simp only [Reg.SEC_PART]
  omega

theorem created_kept {a : Nat} {root : Word64} {r : RegRef} (hr : r.key ≠ (Reg.SEC_PART p).key) :
    (s.created p a root).reg r = (((s.areaPlaced p a).areaCleared p a).rooted p root).reg r := by
  rw [State.created, State.setFlag, State.setFld, State.reg_wrReg_ne hr]
  exact freshKey_reg hr

theorem created_root {a : Nat} {root : Word64} (hp : p < 64) : (s.created p a root).reg (Reg.MMU_ROOT p) = root := by
  rw [created_kept (secPart_ne hp (.inl (by simp only [Reg.MMU_ROOT]; omega))), State.rooted, State.reg_wrReg_self]

theorem created_inv {a : Nat} {root : Word64} (hp : p < 64) : (s.created p a root).reg (Reg.MMU_INV p) = 0 := by
  have hne : (Reg.MMU_INV p).key ≠ (Reg.MMU_ROOT p).key := by
    simp only [Reg.MMU_INV, Reg.MMU_ROOT]
    omega
  rw [created_kept (secPart_ne hp (.inl (by simp only [Reg.MMU_INV]; omega))), State.rooted, State.reg_wrReg_ne hne, State.rstReg, State.reg_wrReg_self]
  rfl

theorem created_area {a : Nat} {root : Word64} (hp : p < 64) (ha : a + 2 ^ 26 ≤ memEnd) :
    (s.created p a root).fld (Reg.SCH_RING_AREA p) Fld.SCH_RING_AREA_BASE = a / 2 ^ 26 := by
  have hsec : (Reg.SCH_RING_AREA p).key ≠ (Reg.SEC_PART p).key := by
    simp only [Reg.SCH_RING_AREA, Reg.SEC_PART]
    omega
  have hroot : (Reg.SCH_RING_AREA p).key ≠ (Reg.MMU_ROOT p).key := by
    simp only [Reg.SCH_RING_AREA, Reg.MMU_ROOT]
    omega
  have hinv : (Reg.SCH_RING_AREA p).key ≠ (Reg.MMU_INV p).key := by
    simp only [Reg.SCH_RING_AREA, Reg.MMU_INV]
    omega
  have hlt : a / 2 ^ 26 < 2 ^ Fld.SCH_RING_AREA_BASE.w := by
    simp only [memEnd] at ha
    simp only [Fld.SCH_RING_AREA_BASE]
    omega
  rw [State.fld, created_kept hsec, State.rooted, State.reg_wrReg_ne hroot, State.rstReg, State.reg_wrReg_ne hinv, areaCleared_reg, ← State.fld,
    State.areaPlaced, State.fld_setFld_self (by decide)]
  exact Nat.mod_eq_of_lt hlt

theorem created_exists {a : Nat} {root : Word64} : (s.created p a root).partExists p = true := by
  rw [State.partExists, State.created]
  exact State.flag_setFlag_self (by decide) rfl

theorem created_part {a : Nat} {root : Word64} {f : Field} (hf : f = Fld.SEC_PART_KEY_GEN ∨ f = Fld.SEC_PART_KEY_SRC) :
    (s.created p a root).fld (Reg.SEC_PART p) f = ((((s.areaPlaced p a).areaCleared p a).rooted p root).freshKey p 0).fld (Reg.SEC_PART p) f := by
  rw [State.created]
  rcases hf with rfl | rfl
  · exact State.fld_setFlag_of_disjoint (by decide)
  · exact State.fld_setFlag_of_disjoint (by decide)

theorem rooted_part {a : Nat} {root : Word64} {f : Field} (hp : p < 64) :
    (((s.areaPlaced p a).areaCleared p a).rooted p root).fld (Reg.SEC_PART p) f = s.fld (Reg.SEC_PART p) f := by
  have hroot : (Reg.SEC_PART p).key ≠ (Reg.MMU_ROOT p).key := by
    simp only [Reg.SEC_PART, Reg.MMU_ROOT]
    omega
  have hinv : (Reg.SEC_PART p).key ≠ (Reg.MMU_INV p).key := by
    simp only [Reg.SEC_PART, Reg.MMU_INV]
    omega
  have harea : (Reg.SEC_PART p).key ≠ (Reg.SCH_RING_AREA p).key := by
    simp only [Reg.SEC_PART, Reg.SCH_RING_AREA]
    omega
  rw [State.fld, State.rooted, State.reg_wrReg_ne hroot, State.rstReg, State.reg_wrReg_ne hinv, areaCleared_reg, ← State.fld, State.areaPlaced,
    State.fld_setFld_ne harea]

theorem created_mem {a : Nat} {root : Word64} : (s.created p a root).mem = s.mem.clear a (2 ^ 26) := by rw [created_frame]

theorem created_sec {a : Nat} {root : Word64} : (s.created p a root).sec =
    { s.sec with keyId := tset 0 s.sec.keyId p s.sec.nextKey, nextKey := s.sec.nextKey + 1 } := by rw [created_frame]

theorem created_partRec {a q : Nat} {root : Word64} : (s.created p a root).part q = if q = p then {} else s.part q := by
  have hparts : (s.created p a root).parts = tset {} s.parts p {} := by rw [created_frame]
  rw [State.part, hparts]
  exact tget_tset (d := ({} : Part))

/-- Every fact about a partition that PART_CREATE has made. -/
theorem created_spec {a : Nat} {root : Word64} (hp : p < 64) (halign : a % 2 ^ 26 = 0) (ha : a + 2 ^ 26 ≤ memEnd) :
    (s.created p a root).partExists p = true ∧
      (s.created p a root).fld (Reg.SCH_RING_AREA p) Fld.SCH_RING_AREA_BASE = a / 2 ^ 26 ∧ (s.created p a root).reg (Reg.MMU_ROOT p) = root ∧
      (s.created p a root).reg (Reg.MMU_INV p) = 0 ∧ (s.created p a root).keyOf p = s.sec.nextKey ∧
      (∀ q, q ≠ p → (s.created p a root).keyOf q = s.keyOf q) ∧ (s.created p a root).sec.nextKey = s.sec.nextKey + 1 ∧
      (s.created p a root).fld (Reg.SEC_PART p) Fld.SEC_PART_KEY_GEN = (s.fld (Reg.SEC_PART p) Fld.SEC_PART_KEY_GEN + 1) % 256 ∧
      (s.created p a root).fld (Reg.SEC_PART p) Fld.SEC_PART_KEY_SRC = 0 ∧ (s.created p a root).part p = {} ∧
      (∀ q, q ≠ p → (s.created p a root).part q = s.part q) ∧
      (∀ x, a ≤ x → x < a + 2 ^ 26 → (s.created p a root).mem.readByte (s.created p a root).clk.count none x = 0) ∧
      s.sameMemoryBut (s.created p a root) [(a, 2 ^ 26)] ∧
      s.fieldsBut (s.created p a root) [(Reg.SCH_RING_AREA p, Fld.SCH_RING_AREA_BASE), (Reg.MMU_ROOT p, wholeReg), (Reg.MMU_INV p, wholeReg),
        (Reg.SEC_PART p, Fld.SEC_PART_EXISTS), (Reg.SEC_PART p, Fld.SEC_PART_KEY_GEN), (Reg.SEC_PART p, Fld.SEC_PART_KEY_SRC)] ∧
      s.created p a root = { s with
        regs := (s.created p a root).regs, mem := (s.created p a root).mem, parts := (s.created p a root).parts, sec := (s.created p a root).sec } := by
  have hkey : ∀ q, (s.created p a root).keyOf q = if q = p then s.sec.nextKey else s.keyOf q := fun q => by
    rw [State.keyOf, created_sec]
    exact tget_tset
  refine ⟨created_exists, created_area hp ha, created_root hp, created_inv hp, by rw [hkey, if_pos rfl], fun q hq => by rw [hkey, if_neg hq],
    by rw [created_sec], ?_, ?_, by rw [created_partRec, if_pos rfl], fun q hq => by rw [created_partRec, if_neg hq], fun x h1 h2 => ?_,
    fun boot key x hx => ?_, created_fields, ?_⟩
  · rw [created_part (.inl rfl), freshKey_gen, rooted_part hp]
  · rw [created_part (.inr rfl), freshKey_src (by decide)]
  · rw [created_mem]
    exact Mem.clear_byte_in h1 h2
  · rw [created_mem]
    refine Mem.clear_readByte_out (by omega) (by decide) fun hin => ?_
    simp [inRanges, hin.1] at hx
    omega
  · have hframe := created_frame (s := s) (p := p) (a := a) (root := root)
    generalize s.created p a root = u at hframe ⊢
    have hmem : u.mem = s.mem.clear a (2 ^ 26) := by rw [hframe]
    have hparts : u.parts = tset {} s.parts p {} := by rw [hframe]
    have hsec : u.sec = { s.sec with keyId := tset 0 s.sec.keyId p s.sec.nextKey, nextKey := s.sec.nextKey + 1 } := by rw [hframe]
    rw [hmem, hparts, hsec]
    exact hframe

/-! ## PART_DESTROY begins -/

theorem serve_partDestroy {part byte1 : BitVec 8} {rsv : BitVec 48} (hp : s.partExists h.fn = true) :
    s.serve h (.partDestroy part byte1 rsv) = s.svcPartDestroy h part byte1 rsv := by
  rw [State.serve, hp]
  rfl

theorem svcPartDestroy_starts {part byte1 : BitVec 8} (h1 : 1 ≤ part.toNat) (h64 : part.toNat < 64) (hex : s.partExists part.toNat = true)
    (h2 : byte1.toNat < 2) (hco : s.flag Reg.SEC_STAT Fld.SEC_STAT_CO_SESSION = true) (hforce : byte1 = 1 ∨ s.holds part.toNat = false)
    (hdes : s.destroying part.toNat = false) : s.svcPartDestroy h part byte1 0 =
      s.startLong h (.partDestroy part byte1 0) 6 fun o s => s.setLong { o with done := (s.part part.toNat).destroyStep } := by
  have hpart : (decide (1 ≤ part.toNat) && decide (part.toNat < 64) && s.partExists part.toNat) = true := by
    rw [decide_eq_true h1, decide_eq_true h64, hex]
    rfl
  have hforce' : (byte1 == 1 || !(s.holds part.toNat)) = true := by
    rcases hforce with rfl | hnone
    · rfl
    · rw [hnone, Bool.not_false, Bool.or_true]
  unfold State.svcPartDestroy
  refine checked_of_pass ?_
  rw [chkForm_true hpart, chkForm_true (decide_eq_true h2), chkId_true hco, chkForm_true hforce', hdes]
  rfl

theorem destroy_begins {c : CPacket} (hu : b.begunAs u h c 6) :
    b.longBegins (u.setLong { b.newLong h c 6 with done := (u.part p).destroyStep }) h c 6 (b.part p).destroyStep [] ∧
      u.setLong { b.newLong h c 6 with done := (u.part p).destroyStep } = { b with
        regs := u.regs, pairs := u.pairs, longOps := (u.setLong { b.newLong h c 6 with done := (u.part p).destroyStep }).longOps,
        sched := { b.sched with longSeq := b.sched.longSeq + 1 } } := by
  obtain ⟨hstart, hframe, -⟩ := hu
  have hpart : u.part p = b.part p := by
    rw [hframe]
    rfl
  rw [hpart]
  refine ⟨longBegins_setLong hstart, ?_⟩
  rw [State.setLong, hframe]

end Sys2Proof.Machine

end

section
/-! PROOFS. The six steps of a PART_DESTROY (R521). -/

namespace Sys2Proof.Machine

variable {s t u b : State} {o : LongOp} {p : Nat}

/-! ## What telling of progress changes -/

theorem reg_of_regs {r : RegRef} (ht : t.regs = s.regs) : t.reg r = s.reg r := by rw [State.reg, State.reg, ht]

/-- The record of an operation that has come to a part done. -/
def LongOp.told (o : LongOp) (done time : Nat) : LongOp :=
  if o.progN < fraction (min o.total done) o.total * 16 / 65536 then
    { o with done := min o.total done, progAt := time, progN := fraction (min o.total done) o.total * 16 / 65536 }
  else { o with done := min o.total done }

theorem told_facts {done time : Nat} : (o.told done time).id = o.id ∧ (o.told done time).h = o.h ∧ (o.told done time).pkt = o.pkt ∧
    (o.told done time).done = min o.total done := by
  unfold LongOp.told
  split
  · exact ⟨rfl, rfl, rfl, rfl⟩
  · exact ⟨rfl, rfl, rfl, rfl⟩

theorem replyAs_progress_longOps {h : Hdr} {op detail result : Nat} : (s.replyAs false h op stProgress detail result).longOps = s.longOps := by
  rw [(repliesOnly_replyAs).1]

theorem advanceLong_longOps {done : Nat} : (s.advanceLong o done).longOps = s.longOps.map fun x => if x.id = o.id then o.told done s.time else x := by
  unfold State.advanceLong LongOp.told
  dsimp only
  split
  · rw [State.tellLong, replyAs_progress_longOps]
    rfl
  · rfl

theorem post_keepsPair {f r g q : Nat} {x : Out} (hne : pairKey g q ≠ pairKey f r) : (s.post f r x).pair g q = s.pair g q := by
  rw [post_eq]
  split
  · exact State.pair_setPair_ne hne
  · exact State.bump_pair_acc

/-- Telling of progress changes the operation's record, its ring and the count of discards of its function. -/
theorem advanceLong_regs {done : Nat} : s.keepsRegs (s.advanceLong o done) (notFnStat o.h.fn) := by
  unfold State.advanceLong
  dsimp only
  split
  · rw [State.tellLong, replyAs_progress]
    exact keepsRegs_trans (keepsRegs_of_regs rfl) post_keepsRegs
  · exact keepsRegs_of_regs rfl

theorem advanceLong_pair {done g q : Nat} (hne : pairKey g q ≠ pairKey o.h.fn o.h.ring) : (s.advanceLong o done).pair g q = s.pair g q := by
  unfold State.advanceLong
  dsimp only
  split
  · rw [State.tellLong, replyAs_progress]
    exact post_keepsPair hne
  · rfl

/-- A step of a PART_DESTROY is done: the next one is due. -/
def State.stepped (s : State) (p : Nat) (o : LongOp) : State := (s.setPart p { s.part p with destroyStep := o.done + 1 }).advanceLong o (o.done + 1)

theorem stepped_frame : s.stepped p o = { s with
    regs := (s.stepped p o).regs, pairs := (s.stepped p o).pairs, longOps := (s.stepped p o).longOps,
    parts := tset {} s.parts p { s.part p with destroyStep := o.done + 1 } } :=
  (longOnly_advanceLong (s := s.setPart p { s.part p with destroyStep := o.done + 1 }) (o := o) (done := o.done + 1)).1

theorem stepped_part : (s.stepped p o).part p = { s.part p with destroyStep := o.done + 1 } := by
  rw [stepped_frame]
  exact State.part_setPart_self

theorem stepped_reg {r : RegRef} (hr : r.key ≠ (Reg.SCH_FN_STAT o.h.fn).key) : (s.stepped p o).reg r = s.reg r :=
  (advanceLong_regs r hr).trans (reg_of_regs rfl)

theorem stepped_longOps : ∃ x : LongOp, (s.stepped p o).longOps = (s.longOps.map fun y => if y.id = o.id then x else y) ∧ x.id = o.id ∧ x.h = o.h ∧
    x.pkt = o.pkt ∧ x.done = min o.total (o.done + 1) :=
  ⟨o.told (o.done + 1) s.time, advanceLong_longOps, told_facts⟩

theorem stepped_done (htotal : o.total = 6) (hdone : o.done ≤ 5) : ∀ x ∈ (s.stepped p o).longOps, x.id = o.id → x.done = o.done + 1 := by
  obtain ⟨y, hops, -, -, -, hy⟩ := stepped_longOps (s := s) (p := p) (o := o)
  intro x hx hid
  rw [hops, List.mem_map] at hx
  obtain ⟨z, -, rfl⟩ := hx
  split at hid
  next hz => rw [if_pos hz, hy, htotal]; omega
  next hz => exact absurd hid hz

theorem sliceDestroy_of_wait (hstep : s.destroyStep p o.done = (u, false)) : s.sliceDestroy o p = u := by
  rw [State.sliceDestroy, hstep]
  rfl

theorem sliceDestroy_of_done (hstep : s.destroyStep p o.done = (u, true)) (hdone : o.done ≤ 4) : s.sliceDestroy o p = u.stepped p o := by
  rw [State.sliceDestroy, hstep]
  exact (if_neg (by decide)).trans (if_neg (by omega))

/-! ## Its placements go -/

theorem destroyStep_zero : s.destroyStep p 0 =
    (((s.each (s.placesOf p) fun s l => s.setPlace l { s.place l with removing := true }).each
      ((s.each (s.placesOf p) fun s l => s.setPlace l { s.place l with removing := true }).placesOf p) fun s l =>
        if (s.place l).step.isNone then s.cairn l else s),
     (((s.each (s.placesOf p) fun s l => s.setPlace l { s.place l with removing := true }).each
      ((s.each (s.placesOf p) fun s l => s.setPlace l { s.place l with removing := true }).placesOf p) fun s l =>
        if (s.place l).step.isNone then s.cairn l else s).placesOf p).isEmpty) := rfl

theorem destroyStep_none (hnone : s.placesOf p = []) : s.destroyStep p 0 = (s, true) := by
  rw [destroyStep_zero, hnone]
  show (State.each s (s.placesOf p) _, ((State.each s (s.placesOf p) _).placesOf p).isEmpty) = _
  rw [hnone]
  show (s, (s.placesOf p).isEmpty) = _
  rw [hnone]
  rfl

/-- Placements marked to go. -/
def State.marked (s : State) (ls : List Nat) : State := s.each ls fun s l => s.setPlace l { s.place l with removing := true }

theorem marked_place {ls : List Nat} {l : Nat} :
    (s.marked ls).place l = if l ∈ ls then { s.place l with removing := true } else s.place l := by
  induction ls generalizing s with
  | nil => rw [if_neg List.not_mem_nil]; rfl
  | cons x xs ih =>
    have hstep : (s.marked (x :: xs)).place l = ((s.setPlace x { s.place x with removing := true }).marked xs).place l := rfl
    rw [hstep, ih]
    by_cases hx : l = x
    · subst hx
      rw [State.place_setPlace_self, if_pos List.mem_cons_self]
      split <;> rfl
    · rw [State.place_setPlace_ne hx]
      simp only [List.mem_cons, hx, false_or]

theorem marked_frame {ls : List Nat} : s.marked ls = { s with places := (s.marked ls).places } := by
  refine each_induction (P := fun t => t = { s with places := t.places }) rfl fun t x _ ht => ?_
  rw [State.setPlace]
  exact congrArg (fun v : State => { v with places := tset {} t.places x { t.place x with removing := true } }) ht

/-- An insertion keeps every entry but the one that a read of its key returns. -/
theorem mem_tins_of_mem {α : Type} {i : Nat} {x d : α} {l : Tbl α} {e : Nat × α} (hm : e ∈ l) :
    e ∈ tins i x l ∨ (e = (i, tget d l i) ∧ (i, x) ∈ tins i x l) := by
  induction l with
  | nil => exact absurd hm List.not_mem_nil
  | cons a l ih =>
    obtain ⟨k, v⟩ := a
    rw [tins, tget]
    by_cases hlt : i < k
    · rw [if_pos hlt]
      exact .inl (List.mem_cons_of_mem _ hm)
    · by_cases heq : i = k
      · rw [if_neg hlt, if_pos heq, if_pos heq]
        rcases List.mem_cons.mp hm with he | he
        · exact .inr ⟨by rw [he, heq], List.mem_cons_self⟩
        · exact .inl (List.mem_cons_of_mem _ he)
      · rw [if_neg hlt, if_neg heq, if_neg heq]
        rcases List.mem_cons.mp hm with he | he
        · exact .inl (he ▸ List.mem_cons_self)
        · rcases ih he with hin | ⟨hread, hnew⟩
          · exact .inl (List.mem_cons_of_mem _ hin)
          · exact .inr ⟨hread, List.mem_cons_of_mem _ hnew⟩

theorem setRemoving_places {l : Nat} : (s.setPlace l { s.place l with removing := true }).places =
    tins l { s.place l with removing := true } s.places := by
  have hne : ({ s.place l with removing := true } : Place) ≠ {} := fun he => Bool.noConfusion (congrArg Place.removing he : true = false)
  exact if_neg hne

theorem mem_placesOf {l : Nat} : l ∈ s.placesOf p ↔ ∃ y : Place, (l, y) ∈ s.places ∧ y.present = true ∧ y.part = p := by
  simp only [State.placesOf, List.mem_map, List.mem_filter, Bool.and_eq_true, beq_iff_eq, Prod.exists]
  constructor
  · rintro ⟨k, y, hy, rfl⟩
    exact ⟨y, hy⟩
  · rintro ⟨y, hy⟩
    exact ⟨l, y, hy, rfl⟩

/-- A placement that is marked to go is still listed. -/
theorem marked_listed {ls : List Nat} (hs : s.placesOf p ≠ []) : (s.marked ls).placesOf p ≠ [] := by
  refine each_induction (P := fun t => t.placesOf p ≠ []) hs fun t x _ ht => ?_
  obtain ⟨l, hl⟩ := List.exists_mem_of_ne_nil _ ht
  obtain ⟨y, hy, hpres, hpart⟩ := mem_placesOf.mp hl
  refine List.ne_nil_of_mem (a := l) (mem_placesOf.mpr ?_)
  rw [setRemoving_places]
  rcases mem_tins_of_mem (i := x) (x := { t.place x with removing := true }) (d := {}) hy with hin | ⟨hread, hnew⟩
  · exact ⟨y, hin, hpres, hpart⟩
  · obtain ⟨rfl, rfl⟩ := Prod.mk.inj hread
    exact ⟨_, hnew, hpres, hpart⟩

theorem marked_mem {ls : List Nat} {l : Nat} (hl : l ∈ (s.marked ls).placesOf p) : l ∈ s.placesOf p ∨ l ∈ ls := by
  obtain ⟨y, hy, hpres, hpart⟩ := mem_placesOf.mp hl
  have hentry : ∀ e ∈ (s.marked ls).places, e ∈ s.places ∨ e.1 ∈ ls := by
    refine each_induction (P := fun t => ∀ e ∈ t.places, e ∈ s.places ∨ e.1 ∈ ls) (fun e he => .inl he) fun t x hx ht e he => ?_
    rw [setRemoving_places] at he
    rcases mem_tins he with rfl | hin
    · exact .inr hx
    · exact ht e hin
  rcases hentry _ hy with hin | hmem
  · exact .inl (mem_placesOf.mpr ⟨y, hin, hpres, hpart⟩)
  · exact .inr hmem

/-- While every placement has a step in flight the first step only marks them. -/
theorem destroyStep_waits (hsome : s.placesOf p ≠ []) (hstep : ∀ l ∈ s.placesOf p, (s.place l).step.isSome = true) :
    s.destroyStep p 0 = (s.marked (s.placesOf p), false) := by
  have hbusy : ∀ l ∈ (s.marked (s.placesOf p)).placesOf p, ((s.marked (s.placesOf p)).place l).step.isSome = true := fun l hl => by
    have hmem : l ∈ s.placesOf p := (marked_mem hl).elim id id
    rw [marked_place, if_pos hmem]
    exact hstep l hmem
  have hself : ((s.marked (s.placesOf p)).each ((s.marked (s.placesOf p)).placesOf p) fun s l => if (s.place l).step.isNone then s.cairn l else s) =
      s.marked (s.placesOf p) := each_eq_self fun l hl => if_neg fun hnone => by
    rw [Option.isNone_iff_eq_none] at hnone
    have hb := hbusy l hl
    rw [hnone] at hb
    cases hb
  rw [destroyStep_zero, show (s.each (s.placesOf p) fun s l => s.setPlace l { s.place l with removing := true }) = s.marked (s.placesOf p) from rfl,
    hself]
  exact congrArg (Prod.mk _) (List.isEmpty_eq_false_iff.mpr (marked_listed hsome))

/-! ## Its contexts and models go -/

theorem complete_ctx {i status j : Nat} : (s.complete i status).ctx j = s.ctx j := by
  rw [State.complete, State.completeAt]
  show State.ctx (State.post _ _ _ _) j = _
  rw [repliesOnly_post.1]
  rfl

theorem freeExtents_ctx {first q j : Nat} : (s.freeExtents q first).ctx j = s.ctx j := rfl

theorem takeoverCheck_ctx {j : Nat} : s.takeoverCheck.ctx j = s.ctx j := by
  unfold State.takeoverCheck
  split
  · rw [State.twinSolo, State.setFld_ctx_acc]
    rfl
  · rfl

/-- A context's extents are released, those of a restore in progress or of its parked image. -/
def State.unparked (s : State) (i : Nat) : State :=
  match (s.auxOf i).restore with
  | some m => (s.freeExtents (s.ctx i).part m.extent).setAux i { s.auxOf i with restore := none }
  | none => if (s.ctx i).st == CtxState.parked then s.freeExtents (s.ctx i).part (s.ctx i).parkExt else s

theorem unparked_ctx {i j : Nat} : (s.unparked i).ctx j = s.ctx j := by
  unfold State.unparked
  split
  · exact State.setAux_ctx_acc.trans freeExtents_ctx
  · split
    · exact freeExtents_ctx
    · rfl

/-- A context is CLOSED once its frames have gone back. -/
def State.shut (s3 : State) (i : Nat) (c : Ctx) : State :=
  let s4 := s3.setAux i { s3.auxOf i with needs := [], kvWait := [], enc := [], npx := 0, redo := [], redoPend := none, redoEnd := none }
  let s5 := s4.editCtx i { c with st := .closed, starved := false, aged := false, tree := none, held := [], timestamp := s4.time }
  let s6 := s5.jrnlCtx i [{ kind := 4, ntok := 0, place := c.placement, ctx := i, pos := c.pos, gen := s5.genOf c, body := [] }]
  { s6 with twin := { s6.twin with journaled := s6.twin.journaled.filter (· != i), stale := s6.twin.stale.filter (· != i) } }.takeoverCheck

/-- What closing a context does once its park is given up. -/
def State.closed (s : State) (i reason : Nat) : State := ((s.unparked i).freeFrames (s.ctx i) reason).shut i (s.ctx i)

theorem closeCtx_eq {i reason : Nat} : s.closeCtx i reason = ((s.cancelPark i).dropRetWait (s.ctx i).part i).closed i reason := by
  unfold State.closeCtx
  generalize (s.cancelPark i).dropRetWait (s.ctx i).part i = v
  extract_lets +onlyGivenNames s1 c a s2
  have h : s2 = v.unparked i := by
    unfold s2 a c s1 State.unparked
    cases (v.auxOf i).restore <;> rfl
  unfold State.closed
  rw [← h, show v.ctx i = c from rfl]
  clear_value s2 c
  unfold State.shut
  rfl

theorem giveUp_ctx {i j : Nat} : ((s.cancelPark i).dropRetWait (s.ctx i).part i).ctx j = s.ctx j :=
  State.setPart_ctx_acc.trans cancelPark_ctx

theorem setTwin_ctx {x : Twin} {j : Nat} : { s with twin := x }.ctx j = s.ctx j := rfl

theorem State.shut_ctx (s : State) {i j : Nat} {c : Ctx} : ∃ (v : State) (x : Ctx), (∀ k, v.ctx k = s.ctx k) ∧ x.st = .closed ∧
    (s.shut i c).ctx j = (v.editCtx i x).ctx j := by
  refine ⟨s.setAux i { s.auxOf i with needs := [], kvWait := [], enc := [], npx := 0, redo := [], redoPend := none, redoEnd := none },
    { c with st := .closed, starved := false, aged := false, tree := none, held := [],
             timestamp := (s.setAux i { s.auxOf i with needs := [], kvWait := [], enc := [], npx := 0, redo := [], redoPend := none, redoEnd := none }).time },
    fun _ => State.setAux_ctx_acc, rfl, ?_⟩
  unfold State.shut
  exact takeoverCheck_ctx.trans (setTwin_ctx.trans (ctx_of_twinOnly twinOnly_jrnlCtx))

theorem shut_ctx_self {i : Nat} {c : Ctx} : ((s.shut i c).ctx i).st = .closed := by
  obtain ⟨v, x, -, hx, hctx⟩ := s.shut_ctx (i := i) (j := i) (c := c)
  rw [hctx, editCtx_ctx_self]
  exact hx

theorem shut_ctx_ne {i j : Nat} {c : Ctx} (hj : j ≠ i) : (s.shut i c).ctx j = s.ctx j := by
  obtain ⟨v, x, hv, -, hctx⟩ := s.shut_ctx (i := i) (j := j) (c := c)
  rw [hctx, editCtx_ctx_ne hj, hv]

theorem closeCtx_ctx_self {i reason : Nat} : ((s.closeCtx i reason).ctx i).st = .closed := by rw [closeCtx_eq, State.closed, shut_ctx_self]

theorem closeCtx_ctx_ne {i reason j : Nat} (hj : j ≠ i) : (s.closeCtx i reason).ctx j = s.ctx j := by
  rw [closeCtx_eq, State.closed, shut_ctx_ne hj, ctx_of_framesOnly framesOnly_freeFrames, unparked_ctx, giveUp_ctx]

/-- Contexts closed one after the other. -/
theorem closeAll_closed {reason : Nat} : ∀ i ∈ s.ctxsOfPart p, ((s.closeAll p reason).ctx i).st = .closed := by
  rw [State.closeAll]
  generalize s.ctxsOfPart p = l
  have hstep : ∀ (t : State) (x j : Nat), j ≠ x → (((if (t.ctx x).st == .active then t.complete x stFenced else t).closeCtx x reason).ctx j) = t.ctx j :=
    fun t x j hj => by
      rw [closeCtx_ctx_ne hj]
      split
      · exact complete_ctx
      · rfl
  have hkeep : ∀ (xs : List Nat) (t : State) (i : Nat), (t.ctx i).st = .closed →
      ((t.each xs fun s i => (if (s.ctx i).st == .active then s.complete i stFenced else s).closeCtx i reason).ctx i).st = .closed :=
    fun xs t i hi => each_induction (P := fun v => (v.ctx i).st = .closed) hi fun v x _ hv => by
      by_cases hx : i = x
      · subst hx
        exact closeCtx_ctx_self
      · rw [hstep v x i hx]
        exact hv
  induction l generalizing s with
  | nil => exact fun i hi => absurd hi List.not_mem_nil
  | cons x xs ih =>
    intro i hi
    rcases List.mem_cons.mp hi with rfl | hxs
    · exact hkeep xs _ i closeCtx_ctx_self
    · exact ih i hxs

/-- One model goes; the packet that asked for it is replied to. -/
def State.modelGone (s : State) (m : Nat) : State :=
  match (s.model m).unload with
  | some (h, op) => (s.setModel m {}).reply h op stOK 0 0
  | none => s.setModel m {}

theorem model_of_repliesOnly {k : Nat} (h : s.repliesOnly t) : t.model k = s.model k := by
  rw [h.1]
  rfl

theorem ctx_of_repliesOnly {j : Nat} (h : s.repliesOnly t) : t.ctx j = s.ctx j := by
  rw [h.1]
  rfl

theorem setModel_model {m k : Nat} {x : Model} : (s.setModel m x).model k = if k = m then x else s.model k := by
  rw [State.model, State.setModel]
  exact tget_tset

theorem modelGone_model {m k : Nat} : (s.modelGone m).model k = if k = m then {} else s.model k := by
  unfold State.modelGone
  split
  · exact (model_of_repliesOnly repliesOnly_reply).trans setModel_model
  · exact setModel_model

theorem modelGone_ctx {m j : Nat} : (s.modelGone m).ctx j = s.ctx j := by
  unfold State.modelGone
  split
  · exact (ctx_of_repliesOnly repliesOnly_reply).trans State.setModel_ctx_acc
  · exact State.setModel_ctx_acc

/-- The models that a partition's end makes absent. -/
def State.modelsOf (s : State) (p : Nat) : List Nat := (s.models.filter fun m => m.2.part == p && m.2.st != .absent).map Prod.fst

/-- The loads and swaps of a partition. -/
def State.modelOps (s : State) (p : Nat) : List LongOp := s.longOps.filter fun o => o.h.fn == p && match o.pkt with
  | .modelLoad .. | .modelSwap .. => true
  | _ => false

/-- How many members of its chain took a load that ends. -/
def State.membersTold (s : State) (o : LongOp) : Nat :=
  match s.chainOf o.id, o.pkt with
  | some c, .modelLoad .. => if c.head = s.myId then c.delivered.length else 0
  | _, _ => 0

/-- A load or a swap of a partition ends with FENCED. -/
def State.modelOpGone (s : State) (o : LongOp) : State := (s.dropChain o.id).endLong o stFenced (s.membersTold o) 0

theorem dropModels_eq : s.dropModels p = ((s.each (s.modelsOf p) State.modelGone).each (s.modelOps p) State.modelOpGone).countLong p := rfl

theorem models_of_longOnly (h : s.longOnly t) : t.models = s.models ∧ t.ctxs = s.ctxs := by
  rw [h.1]
  exact ⟨rfl, rfl⟩

theorem endLong_models {st detail result : Nat} : (s.endLong o st detail result).models = s.models ∧ (s.endLong o st detail result).ctxs = s.ctxs :=
  models_of_longOnly longOnly_endLong

theorem dropChain_models {k : Nat} : (s.dropChain k).models = s.models ∧ (s.dropChain k).ctxs = s.ctxs := ⟨rfl, rfl⟩

theorem State.modelOpGone_frame (s : State) {o : LongOp} : (s.modelOpGone o).models = s.models ∧ (s.modelOpGone o).ctxs = s.ctxs := by
  rw [State.modelOpGone, endLong_models.1, endLong_models.2]
  exact dropChain_models

theorem dropModels_models : (s.dropModels p).models = (s.each (s.modelsOf p) State.modelGone).models ∧
    (s.dropModels p).ctxs = (s.each (s.modelsOf p) State.modelGone).ctxs := by
  rw [dropModels_eq]
  generalize s.each (s.modelsOf p) State.modelGone = v
  rw [State.countLong, State.setFld_models, State.setFld_ctxs]
  exact each_induction (P := fun t => t.models = v.models ∧ t.ctxs = v.ctxs) ⟨rfl, rfl⟩ fun t o _ ht => by
    obtain ⟨hm, hc⟩ := ht
    obtain ⟨km, kc⟩ := t.modelOpGone_frame (o := o)
    exact ⟨km.trans hm, kc.trans hc⟩

theorem eachModelGone_model {ms : List Nat} {k : Nat} : (s.each ms State.modelGone).model k = if k ∈ ms then {} else s.model k := by
  induction ms generalizing s with
  | nil => rfl
  | cons m ms ih =>
    show (State.each (s.modelGone m) ms State.modelGone).model k = _
    rw [ih, modelGone_model]
    by_cases hk : k = m <;> simp [hk]

theorem eachModelGone_ctx {ms : List Nat} {j : Nat} : (s.each ms State.modelGone).ctx j = s.ctx j :=
  each_induction (P := fun t => t.ctx j = s.ctx j) rfl fun _ _ _ ht => modelGone_ctx.trans ht

theorem mem_of_tget_ne {α : Type} {d : α} {l : Tbl α} {k : Nat} (hne : tget d l k ≠ d) : (k, tget d l k) ∈ l := by
  induction l with
  | nil => exact absurd rfl hne
  | cons e l ih =>
    obtain ⟨i, x⟩ := e
    rw [tget] at hne ⊢
    split
    next hk => rw [hk]; exact List.mem_cons_self
    next hk =>
      rw [if_neg hk] at hne
      exact List.mem_cons_of_mem _ (ih hne)

theorem dropModels_absent (hp : 1 ≤ p) {m : Nat} (hm : ((s.dropModels p).model m).part = p) : ((s.dropModels p).model m).st = .absent := by
  have hread : (s.dropModels p).model m = if m ∈ s.modelsOf p then {} else s.model m := by
    rw [State.model, dropModels_models.1]
    exact eachModelGone_model
  rw [hread] at hm ⊢
  split
  · rfl
  next hout =>
    rw [if_neg hout] at hm
    by_contra hst
    have hne : s.model m ≠ {} := fun he => by
      rw [he] at hm
      exact absurd hm (by show (0 : Nat) ≠ p; omega)
    refine hout (List.mem_map.mpr ⟨(m, s.model m), List.mem_filter.mpr ⟨mem_of_tget_ne hne, ?_⟩, rfl⟩)
    simp only [hm, beq_self_eq_true, Bool.true_and, bne_iff_ne, ne_eq]
    exact hst

theorem dropModels_ctx {j : Nat} : (s.dropModels p).ctx j = s.ctx j := by
  have hctx : (s.dropModels p).ctx j = (s.each (s.modelsOf p) State.modelGone).ctx j := by rw [State.ctx, State.ctx, dropModels_models.2]
  rw [hctx, eachModelGone_ctx]

/-- The second step's effect: contexts CLOSED, models gone, extents free. -/
theorem destroyStep_one : ∃ v : State, s.destroyStep p 1 = (v, true) ∧ (∀ i ∈ s.ctxsOfPart p, (v.ctx i).st = .closed) ∧
    (1 ≤ p → ∀ m, (v.model m).part = p → (v.model m).st = .absent) ∧ (v.part p).extents = [] := by
  refine ⟨((s.closeAll p 0).dropModels p).setPart p { ((s.closeAll p 0).dropModels p).part p with extents := [], pool := [], returns := [] }, rfl,
    fun i hi => ?_, fun hp m hm => ?_, ?_⟩
  · have hctx : ((s.closeAll p 0).dropModels p).ctx i = (s.closeAll p 0).ctx i := dropModels_ctx
    refine (congrArg Ctx.st (State.setPart_ctx_acc.trans hctx)).trans (closeAll_closed i hi)
  · rw [State.setPart_model_acc] at hm ⊢
    exact dropModels_absent hp hm
  · rw [State.part_setPart_self]

/-! ## Its tiles go -/

theorem destroyStep_two (hp : p < 64) : ∃ v : State, s.destroyStep p 2 = (v, true) ∧ ∀ k, k < 1024 → (v.tileOwners k).contains p = false := by
  refine ⟨(s.each (List.range 1024) fun s t => if (s.tileOwners t).contains p then s.assignTile p t 0 else s).countTiles p, rfl, fun k hk => ?_⟩
  rw [(countTiles_tile hk).2]
  refine each_range_induction (P := fun m t => ∀ k, k < m → (t.tileOwners k).contains p = false) (fun k hk => absurd hk (Nat.not_lt_zero k))
    (fun m t hm ih j hj => ?_) k hk
  by_cases hjm : j = m
  · subst hjm
    split
    next => exact (assignTile_assignedAs hm hp).1 rfl
    next hout => exact Bool.eq_false_iff.mpr hout
  · have hlt : j < m := by omega
    split
    next => rw [tileOnly_owners assignTile_tileOnly (hlt.trans hm) hjm]; exact ih j hlt
    next => exact ih j hlt

/-! ## Its registers go -/

theorem rstReg_self {r : RegRef} : (s.rstReg r).reg r = r.dflt := State.reg_wrReg_self

/-- Registers reset one after the other. -/
theorem each_rstReg {rs : List RegRef} {r : RegRef} (hr : r ∈ rs) (hkey : ∀ q ∈ rs, q.key = r.key → q.dflt = r.dflt) :
    (s.each rs fun s x => s.rstReg x).reg r = r.dflt := by
  have hread : ∀ (t : State) (q : RegRef), q ∈ rs → (t.rstReg q).reg r = if q.key = r.key then r.dflt else t.reg r := fun t q hq => by
    split
    next hk =>
      obtain rfl : q = r := by
        have hd := hkey q hq hk
        cases q
        cases r
        exact congrArg₂ RegRef.mk hk hd
      exact rstReg_self
    next hk => exact State.reg_wrReg_ne (Ne.symm hk)
  have hkeep : ∀ (l : List RegRef) (t : State), (∀ q ∈ l, q ∈ rs) → t.reg r = r.dflt → (t.each l fun s x => s.rstReg x).reg r = r.dflt :=
    fun l t hl ht => each_induction (P := fun v => v.reg r = r.dflt) ht fun v q hq hv => by
      rw [hread v q (hl q hq), hv, ite_self]
  obtain ⟨l1, l2, rfl⟩ := List.append_of_mem hr
  rw [State.each, List.foldl_append, List.foldl_cons]
  exact hkeep l2 _ (fun q hq => List.mem_append_right _ (List.mem_cons_of_mem _ hq)) rstReg_self

theorem each_rstReg_ne {rs : List RegRef} {r : RegRef} (hkey : ∀ q ∈ rs, q.key ≠ r.key) : (s.each rs fun s x => s.rstReg x).reg r = s.reg r :=
  each_induction (P := fun v => v.reg r = s.reg r) rfl fun _ q hq hv => (State.reg_wrReg_ne (Ne.symm (hkey q hq))).trans hv

/-- The registers of a partition but its windows. -/
def rangeRegs (p : Nat) : List RegRef :=
  [Reg.SCH_CTX_RANGE p, Reg.SCH_BKT_RANGE p, Reg.SCH_ID_RANGE p, Reg.KVT_RES_RING p, Reg.KVT_RES_IDX p, Reg.KVT_FREE_RING p,
    Reg.KVT_FREE_IDX p, Reg.KVT_RES_CFG p, Reg.KVT_SCREE_CFG p, Reg.SMP_PROF_TBL p, Reg.MMU_ROOT p, Reg.MMU_INV p, Reg.SCH_AGE_CFG p,
    Reg.MDT_ESC_THR p, Reg.LNK_SLICE p]

theorem clearRanges_eq : s.clearRanges p =
    (s.each ((List.range 8).map fun i => Reg.SEC_WIN (8 * p + i)) fun s r => s.wrReg r 0).each (rangeRegs p) fun s r => s.rstReg r := rfl

/-- The keys of a partition's registers are their own, and none is a ring's. -/
theorem rangeRegs_keys (hp : p < 64) : ((rangeRegs p).map RegRef.key).Nodup ∧ ∀ q ∈ rangeRegs p, q.key < 0x151000 ∧ q.key ≠ 0xD8008 := by
  constructor
  · simp only [rangeRegs, Reg.SCH_CTX_RANGE, Reg.SCH_BKT_RANGE, Reg.SCH_ID_RANGE, Reg.KVT_RES_RING, Reg.KVT_RES_IDX, Reg.KVT_FREE_RING,
      Reg.KVT_FREE_IDX, Reg.KVT_RES_CFG, Reg.KVT_SCREE_CFG, Reg.SMP_PROF_TBL, Reg.MMU_ROOT, Reg.MMU_INV, Reg.SCH_AGE_CFG,
      Reg.MDT_ESC_THR, Reg.LNK_SLICE, List.map_cons, List.map_nil, List.nodup_cons, List.mem_cons, List.not_mem_nil, or_false,
      List.nodup_nil, and_true, not_false_eq_true]
    omega
  · simp only [rangeRegs, Reg.SCH_CTX_RANGE, Reg.SCH_BKT_RANGE, Reg.SCH_ID_RANGE, Reg.KVT_RES_RING, Reg.KVT_RES_IDX, Reg.KVT_FREE_RING,
      Reg.KVT_FREE_IDX, Reg.KVT_RES_CFG, Reg.KVT_SCREE_CFG, Reg.SMP_PROF_TBL, Reg.MMU_ROOT, Reg.MMU_INV, Reg.SCH_AGE_CFG,
      Reg.MDT_ESC_THR, Reg.LNK_SLICE, List.forall_mem_cons, List.not_mem_nil, false_implies, implies_true, and_true]
    omega

theorem clearRanges_reg (hp : p < 64) {r : RegRef} (hr : r ∈ rangeRegs p) : (s.clearRanges p).reg r = r.dflt := by
  rw [clearRanges_eq]
  exact each_rstReg hr fun q hq hk => congrArg RegRef.dflt (List.inj_on_of_nodup_map (rangeRegs_keys hp).1 hq hr hk)

theorem clearRanges_win (hp : p < 64) {i : Nat} (hi : i < 8) : (s.clearRanges p).reg (Reg.SEC_WIN (8 * p + i)) = 0 := by
  rw [clearRanges_eq, each_rstReg_ne fun q hq hk => absurd (rangeRegs_keys hp).2 fun h => by
    have hlt := (h q hq).1
    rw [hk] at hlt
    simp only [Reg.SEC_WIN] at hlt
    omega]
  have hrst : ((s.each ((List.range 8).map fun i => Reg.SEC_WIN (8 * p + i)) fun s r => s.rstReg r)).reg (Reg.SEC_WIN (8 * p + i)) = 0 := by
    refine each_rstReg (r := Reg.SEC_WIN (8 * p + i)) (List.mem_map_of_mem (List.mem_range.mpr hi)) fun q hq _ => ?_
    obtain ⟨j, -, rfl⟩ := List.mem_map.mp hq
    rfl
  have heq : (s.each ((List.range 8).map fun i => Reg.SEC_WIN (8 * p + i)) fun s r => s.wrReg r 0) =
      s.each ((List.range 8).map fun i => Reg.SEC_WIN (8 * p + i)) fun s r => s.rstReg r := by
    unfold State.each
    rw [List.foldl_map, List.foldl_map]
    rfl
  rw [heq]
  exact hrst

/-- A partition whose registers read as after reset. -/
def State.rangesClear (t : State) (p : Nat) : Prop :=
  t.windows p = [] ∧ t.reg (Reg.MMU_ROOT p) = 0 ∧ t.reg (Reg.SCH_CTX_RANGE p) = 0 ∧ t.reg (Reg.SCH_ID_RANGE p) = 0 ∧
    t.reg (Reg.SCH_BKT_RANGE p) = 0 ∧ t.resHeld p = 0 ∧ t.reg (Reg.SMP_PROF_TBL p) = 0

theorem windows_empty (h : ∀ i, i < 8 → s.reg (Reg.SEC_WIN (8 * p + i)) = 0) : s.windows p = [] := by
  refine List.filter_eq_nil_iff.mpr fun w hw => ?_
  obtain ⟨i, hi, rfl⟩ := List.mem_map.mp hw
  have hwin : s.window (8 * p + i) = (0, 0) := by
    rw [State.window, h i (List.mem_range.mp hi)]
    decide
  rw [hwin]
  decide

theorem rangesClear_of_regs (hwin : ∀ i, i < 8 → s.reg (Reg.SEC_WIN (8 * p + i)) = 0) (hr : ∀ r ∈ rangeRegs p, s.reg r = r.dflt) : s.rangesClear p := by
  simp only [rangeRegs, List.forall_mem_cons] at hr
  obtain ⟨hctx, hbkt, hid, hres, -, -, -, -, -, hprof, hroot, -⟩ := hr
  have hsize : s.fld (Reg.KVT_RES_RING p) Fld.KVT_RES_RING_LOG2SIZE = 0 := by
    rw [State.fld, hres]
    show getBits 0 _ _ = 0
    decide
  exact ⟨windows_empty hwin, hroot, hctx, hid, hbkt, if_pos hsize, hprof⟩

theorem stepped_rangesClear (hp : p < 64) (hfn : o.h.fn = 0) :
    (((s.clearRanges p).setPart p { destroyStep := 3 }).stepped p o).rangesClear p := by
  have hkey : (Reg.SCH_FN_STAT o.h.fn).key = 0xD8008 := by simp only [Reg.SCH_FN_STAT, hfn]
  refine rangesClear_of_regs (fun i hi => ?_) fun r hr => ?_
  · rw [stepped_reg (by rw [hkey]; simp only [Reg.SEC_WIN]; omega)]
    exact State.setPart_reg_acc.trans (clearRanges_win hp hi)
  · rw [stepped_reg (by rw [hkey]; exact ((rangeRegs_keys hp).2 r hr).2)]
    exact State.setPart_reg_acc.trans (clearRanges_reg hp hr)

/-! ## Its key goes -/

theorem clearKey_keyOf {q : Nat} : (s.clearKey p).keyOf q = if q = p then s.sec.nextKey else s.keyOf q := tget_tset

theorem stepped_key : (s.stepped p o).sec = s.sec := by rw [stepped_frame]

theorem keyOf_of_sec {q : Nat} (h : t.sec = s.sec) : t.keyOf q = s.keyOf q := by rw [State.keyOf, State.keyOf, h]

/-! ## Its ring pairs go -/

/-- One pair of a function as after reset. -/
def State.pairCleared (s : State) (f r : Nat) : State :=
  (s.each [Reg.SCH_RING_CFG f r, Reg.SCH_SQ_DB f r, Reg.SCH_CQ_DB f r, Reg.SCH_RING_IDX f r, Reg.SCH_RING_STAT f r] fun s x => s.rstReg x).setPair f r {}

theorem pairCleared_pair {f r q : Nat} : (s.pairCleared f r).pair f q = if pairKey f q = pairKey f r then {} else s.pair f q := by
  have hpairs : ∀ rs : List RegRef, (s.each rs fun s x => s.rstReg x).pair f q = s.pair f q := fun rs =>
    each_induction (P := fun t => t.pair f q = s.pair f q) rfl fun _ _ _ ht => ht
  unfold State.pairCleared
  split
  next hk => rw [State.pair, hk]; exact State.pair_setPair_self
  next hk => exact (State.pair_setPair_ne hk).trans (hpairs _)

theorem pairCleared_cfg {f r q : Nat} (hr : r < 17) (hq : q < 17) :
    (s.pairCleared f r).reg (Reg.SCH_RING_CFG f q) = if q = r then 0 else s.reg (Reg.SCH_RING_CFG f q) := by
  have hkeys : ∀ x ∈ [Reg.SCH_RING_CFG f r, Reg.SCH_SQ_DB f r, Reg.SCH_CQ_DB f r, Reg.SCH_RING_IDX f r, Reg.SCH_RING_STAT f r],
      x.key = (Reg.SCH_RING_CFG f q).key → x = Reg.SCH_RING_CFG f r ∧ q = r := by
    simp only [List.forall_mem_cons, Reg.SCH_RING_CFG, Reg.SCH_SQ_DB, Reg.SCH_CQ_DB, Reg.SCH_RING_IDX, Reg.SCH_RING_STAT, List.not_mem_nil,
      false_implies, implies_true, and_true, true_and]
    refine ⟨?_, ?_, ?_, ?_, ?_⟩ <;> intro h <;> omega
  refine (reg_of_regs (s := s.each _ _) rfl).trans ?_
  split
  next hqr =>
    subst hqr
    exact each_rstReg List.mem_cons_self fun x hx hk => congrArg RegRef.dflt (hkeys x hx hk).1
  next hqr => exact each_rstReg_ne fun x hx hk => hqr (hkeys x hx hk).2

theorem clearPairs_pairs {f : Nat} : ∀ r, r < 17 → (s.clearPairs f).pair f r = {} ∧ (s.clearPairs f).reg (Reg.SCH_RING_CFG f r) = 0 := by
  have heq : s.clearPairs f = s.each (List.range 17) fun s r => s.pairCleared f r := rfl
  rw [heq]
  refine each_range_induction (P := fun m (t : State) => ∀ r, r < m → t.pair f r = {} ∧ t.reg (Reg.SCH_RING_CFG f r) = 0)
    (fun r hr => absurd hr (Nat.not_lt_zero r)) fun m t hm ih r hr => ?_
  rw [pairCleared_pair, pairCleared_cfg hm (by omega)]
  by_cases hrm : r = m
  · subst hrm
    exact ⟨if_pos rfl, if_pos rfl⟩
  · obtain ⟨hpair, hcfg⟩ := ih r (by omega)
    rw [hpair, hcfg, ite_self, ite_self]
    exact ⟨rfl, rfl⟩

/-- What the last step clears. -/
def State.lastCleared (s : State) (p : Nat) : State :=
  ((s.clearPairs p).wrReg (Reg.SEC_PART p) (putBits (s.reg (Reg.SEC_PART p)) 0 1 0)).rstReg (Reg.SCH_RING_AREA p)

theorem destroyStep_five : s.destroyStep p 5 = (s.lastCleared p, true) := rfl

theorem pairCleared_longOps {f r : Nat} : (s.pairCleared f r).longOps = s.longOps := by
  have hregs : ∀ rs : List RegRef, (s.each rs fun s x => s.rstReg x).longOps = s.longOps := fun rs =>
    each_induction (P := fun t => t.longOps = s.longOps) rfl fun _ _ _ ht => ht
  rw [State.pairCleared, State.setPair_longOps, hregs]

theorem clearPairs_longOps {f : Nat} : (s.clearPairs f).longOps = s.longOps :=
  each_induction (P := fun t => t.longOps = s.longOps) (g := fun s r => s.pairCleared f r) rfl fun _ _ _ ht => pairCleared_longOps.trans ht

theorem lastCleared_longOps : (s.lastCleared p).longOps = s.longOps := by
  rw [State.lastCleared, State.rstReg, State.wrReg_longOps, State.wrReg_longOps, clearPairs_longOps]

theorem lastCleared_pair {r : Nat} (hr : r < 17) : (s.lastCleared p).pair p r = {} := by
  rw [State.lastCleared, State.rstReg, State.wrReg_pair_acc, State.wrReg_pair_acc, (clearPairs_pairs r hr).1]

theorem ringCfg_ne_area {r : Nat} : (Reg.SCH_RING_CFG p r).key ≠ (Reg.SCH_RING_AREA p).key := by
  simp only [Reg.SCH_RING_CFG, Reg.SCH_RING_AREA]
  omega

theorem ringCfg_ne_secPart {r : Nat} (hp : p < 64) (hr : r < 17) : (Reg.SCH_RING_CFG p r).key ≠ (Reg.SEC_PART p).key := by
  simp only [Reg.SCH_RING_CFG, Reg.SEC_PART]
  rcases Nat.eq_zero_or_pos p with rfl | hpos
  · omega
  · have hle : 16777216 ≤ 16777216 * p := Nat.le_mul_of_pos_right _ hpos
    generalize 16777216 * p = y at hle ⊢
    omega

theorem lastCleared_cfg {r : Nat} (hp : p < 64) (hr : r < 17) : (s.lastCleared p).reg (Reg.SCH_RING_CFG p r) = 0 := by
  rw [State.lastCleared, State.rstReg, State.reg_wrReg_ne ringCfg_ne_area, State.reg_wrReg_ne (ringCfg_ne_secPart hp hr), (clearPairs_pairs r hr).2]

theorem lastCleared_exists (hp : p < 64) : (s.lastCleared p).flag (Reg.SEC_PART p) Fld.SEC_PART_EXISTS = false := by
  have harea : (Reg.SEC_PART p).key ≠ (Reg.SCH_RING_AREA p).key := by
    simp only [Reg.SEC_PART, Reg.SCH_RING_AREA]
    omega
  have hfld : (s.lastCleared p).fld (Reg.SEC_PART p) Fld.SEC_PART_EXISTS = 0 := by
    rw [State.fld, State.lastCleared, State.rstReg, State.reg_wrReg_ne harea, State.reg_wrReg_self]
    exact getBits_putBits_self (n := 1) (by decide)
  rw [State.flag, hfld]
  rfl

theorem lastCleared_area : (s.lastCleared p).reg (Reg.SCH_RING_AREA p) = 0 := rstReg_self

/-- An operation that is told of is still found under its number. -/
theorem longOf_map {x : LongOp} (ho : o ∈ s.longOps) (hx : x.id = o.id) (ht : t.longOps = s.longOps.map fun y => if y.id = o.id then x else y) :
    t.longOf o.id = some x := by
  have hall : ∀ y ∈ t.longOps, y.id = o.id → y = x := fun y hy hid => by
    rw [ht, List.mem_map] at hy
    obtain ⟨z, -, rfl⟩ := hy
    split at hid
    next hz => exact if_pos hz
    next hz => exact absurd hid hz
  have hmem : x ∈ t.longOps := by
    rw [ht]
    exact List.mem_map.mpr ⟨o, ho, if_pos rfl⟩
  have hfound : (t.longOps.reverse.find? fun y => y.id == o.id).isSome = true := by
    rw [List.find?_isSome]
    exact ⟨x, List.mem_reverse.mpr hmem, beq_iff_eq.mpr hx⟩
  obtain ⟨y, hy⟩ := Option.isSome_iff_exists.mp hfound
  rw [State.longOf, hy, hall y (List.mem_reverse.mp (List.mem_of_find?_eq_some hy)) (beq_iff_eq.mp (List.find?_some (p := fun y : LongOp => y.id == o.id) hy))]

/-- The state in which the final reply of a PART_DESTROY is written. -/
def State.destroyed (s : State) (o : LongOp) (p : Nat) : State :=
  (((s.lastCleared p).stepped p o).setPart p {}).longDropped o.id o.h.fn

theorem sliceDestroy_last (ho : o ∈ s.longOps) (hdone : o.done = 5) :
    s.sliceDestroy o p = (s.destroyed o p).reply o.h o.pkt.opcode stOK 0 0 := by
  obtain ⟨x, hops, hid, hh, hpkt, -⟩ := stepped_longOps (s := s.lastCleared p) (p := p) (o := o)
  have hof : (((s.lastCleared p).stepped p o).setPart p {}).longOf o.id = some x := by
    refine longOf_map ho hid ?_
    rw [← lastCleared_longOps (s := s) (p := p), ← hops, State.setPart]
  rw [State.sliceDestroy, hdone, destroyStep_five]
  have hstep : ((s.lastCleared p).setPart p { (s.lastCleared p).part p with destroyStep := 5 + 1 }).advanceLong o (5 + 1) =
      (s.lastCleared p).stepped p o := by rw [State.stepped, hdone]
  refine (if_neg (by decide)).trans ((if_pos (by decide)).trans ?_)
  rw [hstep, State.destroyed]
  generalize ((s.lastCleared p).stepped p o).setPart p {} = v at hof ⊢
  show (match v.longOf o.id with
    | some o1 => v.endLong o1 stOK 0 0
    | none => v) = _
  rw [hof]
  show State.endLong _ x stOK 0 0 = _
  rw [endLong_eq, hid, hh, hpkt]

theorem longDropped_reg {id fn : Nat} {r : RegRef} (hr : r.key ≠ (Reg.SCH_FN_STAT fn).key) : (s.longDropped id fn).reg r = s.reg r := by
  rw [State.longDropped, State.countLong, State.setFld, State.reg_wrReg_ne hr]
  exact reg_of_regs rfl

theorem destroyed_reg {r : RegRef} (hr : r.key ≠ (Reg.SCH_FN_STAT o.h.fn).key) : (s.destroyed o p).reg r = (s.lastCleared p).reg r := by
  rw [State.destroyed, longDropped_reg hr, State.setPart_reg_acc, stepped_reg hr]

theorem destroyed_longOf : (s.destroyed o p).longOf o.id = none := by
  rw [State.longOf, State.destroyed, longDropped_longOps, List.find?_eq_none]
  intro x hx
  have hne := (List.mem_filter.mp (List.mem_reverse.mp hx)).2
  rw [bne_iff_ne] at hne
  exact fun he => hne (beq_iff_eq.mp he)

theorem part_of_opsOnly {q : Nat} (h : t = { s with regs := t.regs, longOps := t.longOps }) : t.part q = s.part q := by
  rw [h]
  rfl

theorem pair_of_opsOnly {f r : Nat} (h : t = { s with regs := t.regs, longOps := t.longOps }) : t.pair f r = s.pair f r := by
  rw [h]
  rfl

theorem destroyed_part : (s.destroyed o p).part p = {} := by
  rw [State.destroyed, part_of_opsOnly longDropped_frame, State.part_setPart_self]

theorem destroyed_pair {r : Nat} (hp : 1 ≤ p) (hfn : o.h.fn = 0) (hring : o.h.ring = 0) (hr : r < 17) : (s.destroyed o p).pair p r = {} := by
  have hne : pairKey p r ≠ pairKey o.h.fn o.h.ring := by
    simp only [pairKey, hfn, hring]
    omega
  rw [State.destroyed, pair_of_opsOnly longDropped_frame, State.setPart_pair_acc, State.stepped, advanceLong_pair hne, State.setPart_pair_acc, lastCleared_pair hr]

/-- What a PART_DESTROY leaves of its partition. -/
theorem destroyed_spec (h1 : 1 ≤ p) (hp : p < 64) (hfn : o.h.fn = 0) (hring : o.h.ring = 0) :
    (s.destroyed o p).partExists p = false ∧ (s.destroyed o p).part p = {} ∧ (s.destroyed o p).longOf o.id = none ∧
      (s.destroyed o p).ringArea p = (0, 0) ∧ (s.destroyed o p).reg (Reg.SCH_RING_AREA p) = 0 ∧
      ∀ r, r < 17 → (s.destroyed o p).pair p r = {} ∧ (s.destroyed o p).pairOn p r = false := by
  have hkey : (Reg.SCH_FN_STAT o.h.fn).key = 0xD8008 := by simp only [Reg.SCH_FN_STAT, hfn]
  have hex : (s.destroyed o p).partExists p = false := by
    rw [State.partExists, State.flag, State.fld, destroyed_reg (by rw [hkey]; simp only [Reg.SEC_PART]; omega)]
    exact lastCleared_exists hp
  refine ⟨hex, destroyed_part, destroyed_longOf, ?_, ?_, fun r hr => ⟨destroyed_pair h1 hfn hring hr, ?_⟩⟩
  · rw [State.ringArea, hex]
    rfl
  · rw [destroyed_reg (by rw [hkey]; simp only [Reg.SCH_RING_AREA]; omega)]
    exact lastCleared_area
  · rw [State.pairOn, State.flag, State.fld, destroyed_reg (by rw [hkey]; simp only [Reg.SCH_RING_CFG]; omega), lastCleared_cfg hp hr]
    rfl

/-! ## Every slice -/

/-- A slice of a PART_DESTROY carries out its next step. -/
def State.carriedOn (b t : State) (o : LongOp) (p : Nat) : Prop :=
  (o.done ≤ 4 → (t.part p).destroyStep = o.done + 1 ∧ ∀ x ∈ t.longOps, x.id = o.id → x.done = o.done + 1) ∧
    (o.done = 1 → (∀ i ∈ b.ctxsOfPart p, (t.ctx i).st = .closed) ∧ (∀ m, (t.model m).part = p → (t.model m).st = .absent) ∧
      (t.part p).extents = []) ∧
    (o.done = 2 → ∀ k, k < 1024 → (t.tileOwners k).contains p = false) ∧ (o.done = 3 → t.rangesClear p) ∧
    (o.done = 4 → t.keyOf p = b.sec.nextKey ∧ t.sec.nextKey = b.sec.nextKey + 1 ∧ ∀ q, q ≠ p → t.keyOf q = b.keyOf q) ∧
    (o.done = 5 → ∃ u : State, t = u.reply o.h 0x41 stOK 0 0 ∧ u.partExists p = false ∧ u.part p = {} ∧ u.longOf o.id = none ∧
      u.ringArea p = (0, 0) ∧ u.reg (Reg.SCH_RING_AREA p) = 0 ∧ ∀ r, r < 17 → u.pair p r = {} ∧ u.pairOn p r = false)

theorem carriedOn_of_early {v : State} (htotal : o.total = 6) (hstep : b.destroyStep p o.done = (v, true)) (hdone : o.done ≤ 4)
    (h1 : o.done = 1 → (∀ i ∈ b.ctxsOfPart p, ((v.stepped p o).ctx i).st = .closed) ∧
      (∀ m, ((v.stepped p o).model m).part = p → ((v.stepped p o).model m).st = .absent) ∧ ((v.stepped p o).part p).extents = [])
    (h2 : o.done = 2 → ∀ k, k < 1024 → ((v.stepped p o).tileOwners k).contains p = false) (h3 : o.done = 3 → (v.stepped p o).rangesClear p)
    (h4 : o.done = 4 → (v.stepped p o).keyOf p = b.sec.nextKey ∧ (v.stepped p o).sec.nextKey = b.sec.nextKey + 1 ∧
      ∀ q, q ≠ p → (v.stepped p o).keyOf q = b.keyOf q) : b.carriedOn (b.sliceDestroy o p) o p := by
  rw [sliceDestroy_of_done hstep hdone]
  refine ⟨fun _ => ⟨?_, stepped_done htotal (by omega)⟩, h1, h2, h3, h4, fun h5 => by omega⟩
  rw [stepped_part]

theorem stepped_tileOwners {k : Nat} (hfn : o.h.fn = 0) (hk : k < 1024) : (s.stepped p o).tileOwners k = s.tileOwners k := by
  have hkey : (Reg.CFG_TILE_MAP k).key ≠ (Reg.SCH_FN_STAT o.h.fn).key := by
    simp only [Reg.CFG_TILE_MAP, Reg.SCH_FN_STAT, hfn]
    omega
  have hmode : (s.stepped p o).tileMode k = s.tileMode k := by rw [State.tileMode, State.tileMode, State.fld, State.fld, stepped_reg hkey]
  have hpart : (s.stepped p o).fld (Reg.CFG_TILE_MAP k) Fld.CFG_TILE_MAP_PART = s.fld (Reg.CFG_TILE_MAP k) Fld.CFG_TILE_MAP_PART := by
    rw [State.fld, State.fld, stepped_reg hkey]
  have htile : (s.stepped p o).tile k = s.tile k := by
    rw [stepped_frame]
    rfl
  rw [State.tileOwners, State.tileOwners, hmode, hpart, htile]

theorem sliceDestroy_carriesOn {byte1 part : BitVec 8} {rsv : BitVec 48} (ho : o ∈ b.longOps) (hfn : o.h.fn = 0) (hring : o.h.ring = 0)
    (hpkt : o.pkt = .partDestroy part byte1 rsv) (htotal : o.total = 6) (h1 : 1 ≤ p) (hp : p < 64) (hdone : o.done ≤ 5)
    (hnone : o.done = 0 → b.placesOf p = []) : b.carriedOn (b.sliceDestroy o p) o p := by
  have hcases : o.done = 0 ∨ o.done = 1 ∨ o.done = 2 ∨ o.done = 3 ∨ o.done = 4 ∨ o.done = 5 := by omega
  rcases hcases with hd | hd | hd | hd | hd | hd
  · refine carriedOn_of_early htotal (v := b) (by rw [hd]; exact destroyStep_none (hnone hd)) (by omega) ?_ ?_ ?_ ?_ <;>
      exact fun h => by omega
  · obtain ⟨v, hstep, hctx, hmodel, hext⟩ := destroyStep_one (s := b) (p := p)
    refine carriedOn_of_early htotal (v := v) (by rw [hd]; exact hstep) (by omega) (fun _ => ⟨fun i hi => ?_, fun m => ?_, ?_⟩)
      (fun h => by omega) (fun h => by omega) (fun h => by omega)
    · rw [stepped_frame]
      exact hctx i hi
    · rw [stepped_frame]
      exact hmodel h1 m
    · rw [stepped_part]
      exact hext
  · obtain ⟨v, hstep, htiles⟩ := destroyStep_two (s := b) hp
    refine carriedOn_of_early htotal (v := v) (by rw [hd]; exact hstep) (by omega) (fun h => by omega) (fun _ k hk => ?_)
      (fun h => by omega) (fun h => by omega)
    rw [stepped_tileOwners hfn hk]
    exact htiles k hk
  · refine carriedOn_of_early htotal (v := (b.clearRanges p).setPart p { destroyStep := 3 }) (by rw [hd]; rfl) (by omega) (fun h => by omega)
      (fun h => by omega) (fun _ => stepped_rangesClear hp hfn) (fun h => by omega)
  · refine carriedOn_of_early htotal (v := b.clearKey p) (by rw [hd]; rfl) (by omega) (fun h => by omega) (fun h => by omega)
      (fun h => by omega) fun _ => ⟨?_, ?_, fun q hq => ?_⟩
    · rw [keyOf_of_sec stepped_key, clearKey_keyOf, if_pos rfl]
    · rw [stepped_key]
      rfl
    · rw [keyOf_of_sec stepped_key, clearKey_keyOf, if_neg hq]
  · rw [sliceDestroy_last ho hd]
    refine ⟨fun h => by omega, fun h => by omega, fun h => by omega, fun h => by omega, fun h => by omega, fun _ => ⟨b.destroyed o p, ?_,
      destroyed_spec h1 hp hfn hring⟩⟩
    rw [hpkt]
    rfl

theorem exec_slice_destroy {seq amount at_ : Nat} {byte1 part : BitVec 8} {rsv : BitVec 48} (hg : (s.tick at_).sliceGranted 0 seq o)
    (hpkt : o.pkt = .partDestroy part byte1 rsv) : exec (.longOperationSlice 0 seq amount at_) s =
      .next (((s.tick at_).slicing 0 o).sliceDestroy o part.toNat) := by
  rw [exec_slice_of_granted hg, State.runLong, hpkt]

theorem mem_of_sliceGranted {fn seq : Nat} (hg : s.sliceGranted fn seq o) : o ∈ s.longOps ∧ o.h.fn = fn := by
  obtain ⟨-, hfind, -, -⟩ := hg
  have hsome := List.find?_some hfind
  simp only [Bool.and_eq_true, beq_iff_eq] at hsome
  exact ⟨List.mem_of_find?_eq_some hfind, hsome.1.1⟩

end Sys2Proof.Machine

namespace Sys2Proof
open Machine

/-- Settles O30: PART_CREATE by what its writes leave, PART_DESTROY step by step. -/
theorem partitionsAreCreatedAndDestroyed : Obligations.PartitionsAreCreatedAndDestroyed := by
  unfold Obligations.PartitionsAreCreatedAndDestroyed
  refine ⟨⟨?_, ?_⟩, ?_⟩
  · intro s h part ringArea root b p a hb hp ha ht h1 h64 hnew halign hend hfree hlow hhigh herr hvf hnum
    subst hp ha
    have hex : exec (.partCreate h part 0 ringArea root) s = .next ((b.created part.toNat ringArea.toNat root).reply h 0x40 stOK 0 0) := by
      rw [exec_served rfl ht fun u hu => serve_partCreate hu, ← hb,
        svcPartCreate_creates h1 h64 hnew halign hend hfree hlow hhigh herr hvf hnum]
    exact ⟨_, hex, created_spec h64 halign hend⟩
  · intro s h part byte1 b p hb hp ht h1 h64 hex h2 hco hforce hdes
    subst hp
    refine startsLong_of_begun (act := fun o s => s.setLong { o with done := (s.part part.toNat).destroyStep }) hb ht ?_ fun u hu => ?_
    swap
    · obtain ⟨hbegins, hframe⟩ := destroy_begins (p := part.toNat) hu
      generalize u.setLong _ = v at hbegins hframe ⊢
      exact ⟨hbegins, by rw [hframe]⟩
    rw [exec_served rfl ht fun u hu => serve_partDestroy hu, ← hb, svcPartDestroy_starts h1 h64 hex h2 hco hforce hdes]
  · intro s seq amount at_ p o part byte1 rsv b hg hb hpkt hp h1 h64 hring htotal
    obtain ⟨ho, hfn⟩ := mem_of_sliceGranted hg
    have hex := exec_slice_destroy (amount := amount) hg hpkt
    rw [← hb, ← hp] at hex
    have hmem : o ∈ b.longOps := by
      rw [hb]
      exact ho
    refine ⟨fun hd hsome hstep => ?_, fun hdone hnone => ⟨_, hex, sliceDestroy_carriesOn hmem hfn hring hpkt htotal h1 h64 hdone hnone⟩⟩
    refine ⟨b.marked (b.placesOf p), ?_, fun l hl => ?_, marked_frame⟩
    · rw [hex, sliceDestroy_of_wait (by rw [hd]; exact destroyStep_waits hsome hstep)]
    · rw [marked_place, if_pos hl]

end Sys2Proof

end

section
/-! PROOFS. The sequencer, the integration periods and the reference of the housekeeping converters (R418, R427, R439 to R443). -/

namespace Sys2Proof.Machine

variable {s t : State} {at_ : Nat}

/-! ## The sequencer (R441) -/

/-- The table's walk stays within the table. -/
theorem nextEntry_lt {n c e : Nat} (hc : c < 64) (h : s.nextEntry n c = some e) : e < 64 := by
  induction n generalizing c with
  | zero => cases h
  | succ n ih =>
    rw [State.nextEntry] at h
    split at h
    · exact Option.some.inj h ▸ hc
    · refine ih ?_ h
      split
      · exact Nat.zero_lt_succ _
      · exact Nat.mod_lt _ (by decide)

/-- The cursor comes to an entry. -/
def State.atEntry (s : State) (e : Nat) : State := (s.setFlag Reg.HKC_STAT Fld.HKC_STAT_SEQ_IDLE false).setFld Reg.HKC_STAT Fld.HKC_STAT_CURSOR e

/-- The pair of an entry. -/
def State.entryPair (s : State) (e : Nat) : Nat := s.fld (Reg.HKC_CHTBL e) Fld.HKC_CHTBL_PAIR

/-- The pair of an entry, or the delay before it, holds the entry back. -/
def State.entryHeld (s : State) (k : Nat) : Bool := s.now < s.hkc.nextAt || (tkeys s.hkc.busy).contains k || tget 0 s.hkc.calLeft k ≠ 0

/-- The conversion of an entry. -/
def State.conversion (s : State) (e : Nat) : HPair :=
  ⟨e, s.fld (Reg.HKC_CHTBL e) Fld.HKC_CHTBL_CH_V, s.fld (Reg.HKC_CHTBL e) Fld.HKC_CHTBL_CH_I, s.fld (Reg.HKC_CHTBL e) Fld.HKC_CHTBL_REPEAT, 0⟩

/-- The converters once an entry is issued. -/
def State.hkcIssued (s : State) (e : Nat) : Hkc :=
  { s.hkc with busy := tins (s.entryPair e) (s.conversion e) s.hkc.busy, nextAt := s.now + 1000 * s.fld (Reg.HKC_CHTBL e) Fld.HKC_CHTBL_DELAY }

theorem hkcIssued_eq {e : Nat} : s.hkcIssued e = { s.hkc with
    nextAt := s.now + 1000 * s.fld (Reg.HKC_CHTBL e) Fld.HKC_CHTBL_DELAY
    busy := tins (s.fld (Reg.HKC_CHTBL e) Fld.HKC_CHTBL_PAIR) ⟨e, s.fld (Reg.HKC_CHTBL e) Fld.HKC_CHTBL_CH_V, s.fld (Reg.HKC_CHTBL e) Fld.HKC_CHTBL_CH_I,
      s.fld (Reg.HKC_CHTBL e) Fld.HKC_CHTBL_REPEAT, 0⟩ s.hkc.busy } := rfl

/-- The entry after an issued one. -/
def State.entryAfter (s : State) (e : Nat) : Nat := if s.flag (Reg.HKC_CHTBL e) Fld.HKC_CHTBL_LAST then 0 else (e + 1) % 64

/-- The sequencer comes to an entry and issues it unless it is held. -/
def State.sequenced (s : State) (e : Nat) : State :=
  if s.entryHeld (s.entryPair e) then s.atEntry e
  else { s.atEntry e with hkc := s.hkcIssued e }.setFld Reg.HKC_STAT Fld.HKC_STAT_CURSOR (s.entryAfter e)

/-- The sequencer's turn. -/
def State.entryTurn (s : State) : State :=
  if !(s.flag Reg.HKC_CFG Fld.HKC_CFG_RUN) then s.setFlag Reg.HKC_STAT Fld.HKC_STAT_SEQ_IDLE true
  else match s.nextEntry 128 (s.fld Reg.HKC_STAT Fld.HKC_STAT_CURSOR) with
    | none => s.setFlag Reg.HKC_STAT Fld.HKC_STAT_SEQ_IDLE true
    | some e => s.sequenced e

theorem exec_sequencerEntry {b : State} (hb : b = s.tick at_) : exec (.sequencerEntry at_) s = .next b.entryTurn := by
  subst hb
  rfl

theorem entryTurn_idle (h : s.flag Reg.HKC_CFG Fld.HKC_CFG_RUN = false ∨ s.nextEntry 128 (s.fld Reg.HKC_STAT Fld.HKC_STAT_CURSOR) = none) :
    s.entryTurn = s.setFlag Reg.HKC_STAT Fld.HKC_STAT_SEQ_IDLE true := by
  unfold State.entryTurn
  rcases h with h | h
  · rw [h]
    rfl
  · rw [h]
    exact ite_self _

theorem entryTurn_some {e : Nat} (hrun : s.flag Reg.HKC_CFG Fld.HKC_CFG_RUN = true)
    (he : s.nextEntry 128 (s.fld Reg.HKC_STAT Fld.HKC_STAT_CURSOR) = some e) : s.entryTurn = s.sequenced e := by
  unfold State.entryTurn
  rw [hrun, he]
  rfl

theorem atEntry_frame {e : Nat} : s.atEntry e = { s with regs := (s.atEntry e).regs } := rfl

theorem atEntry_hkc {e : Nat} : (s.atEntry e).hkc = s.hkc := by rw [State.atEntry, State.setFld_hkc, State.setFlag_hkc]

theorem atEntry_idle {e : Nat} : (s.atEntry e).flag Reg.HKC_STAT Fld.HKC_STAT_SEQ_IDLE = false := by
  rw [State.flag, State.atEntry, State.fld_setFld_of_disjoint (.inl (by decide)), State.fld_setFlag_self (by decide) (by decide)]
  rfl

theorem atEntry_cursor {e : Nat} : (s.atEntry e).fld Reg.HKC_STAT Fld.HKC_STAT_CURSOR = e % 64 := State.fld_setFld_self (by decide)

/-- The fields that the sequencer writes. -/
def seqFields : List (RegRef × Field) := [(Reg.HKC_STAT, Fld.HKC_STAT_SEQ_IDLE), (Reg.HKC_STAT, Fld.HKC_STAT_CURSOR)]

theorem atEntry_fields {e : Nat} : s.fieldsBut (s.atEntry e) seqFields :=
  fieldsBut_trans (fieldsBut_setFlag (List.mem_cons_self ..)) (fieldsBut_setFld (List.mem_cons_of_mem _ (List.mem_cons_self ..)))

/-- What a held entry leaves. -/
theorem sequenced_held {e : Nat} (h : s.entryHeld (s.entryPair e) = true) : s.sequenced e = s.atEntry e := if_pos h

/-- What an issued entry leaves. -/
theorem sequenced_issued {e : Nat} (h : s.entryHeld (s.entryPair e) = false) :
    s.sequenced e = { s.atEntry e with hkc := s.hkcIssued e }.setFld Reg.HKC_STAT Fld.HKC_STAT_CURSOR (s.entryAfter e) :=
  if_neg (by rw [h]; exact Bool.false_ne_true)

theorem setHkc_fields {x : Hkc} {l : List (RegRef × Field)} : s.fieldsBut { s with hkc := x } l := fieldsBut_of_regs rfl

theorem sequenced_fields {e : Nat} : s.fieldsBut (s.sequenced e) seqFields := by
  unfold State.sequenced
  split
  · exact atEntry_fields
  · exact fieldsBut_trans atEntry_fields (fieldsBut_trans setHkc_fields (fieldsBut_setFld (List.mem_cons_of_mem _ (List.mem_cons_self ..))))

theorem setHkc_frame {x : Hkc} (ht : t = { s with regs := t.regs }) :
    { t with hkc := x } = { s with regs := { t with hkc := x }.regs, hkc := x } := by
  rw [ht]

theorem sequenced_frame {e : Nat} : s.sequenced e = { s with regs := (s.sequenced e).regs, hkc := (s.sequenced e).hkc } := by
  unfold State.sequenced
  split
  · rfl
  · rfl

theorem sequenced_idle {e : Nat} : (s.sequenced e).flag Reg.HKC_STAT Fld.HKC_STAT_SEQ_IDLE = false := by
  unfold State.sequenced
  split
  · exact atEntry_idle
  · rw [State.flag, State.fld_setFld_of_disjoint (.inl (by decide))]
    exact atEntry_idle

theorem entryAfter_lt {e : Nat} : s.entryAfter e < 64 := by
  unfold State.entryAfter
  split
  · decide
  · exact Nat.mod_lt _ (by decide)

theorem sequenced_cursor {e : Nat} (h : s.entryHeld (s.entryPair e) = false) :
    (s.sequenced e).fld Reg.HKC_STAT Fld.HKC_STAT_CURSOR = s.entryAfter e := by
  rw [sequenced_issued h, State.fld_setFld_self (by decide)]
  exact Nat.mod_eq_of_lt entryAfter_lt

/-! ## The end of a period (R439) -/

theorem exec_periodEnd_input {codeV codeI energy : Int} {b : State} (hb : b = s.tick at_) (hcal : tget 0 b.hkc.calLeft 0 = 0) :
    exec (.integrationPeriodEnd 0 codeV codeI energy at_) s = .next (b.inputPeriod codeV codeI energy).periodBoundary := by
  subst hb
  exact congrArg Host.Outcome.next (congrArg State.periodBoundary (if_neg (not_not.mpr hcal)))

theorem exec_periodEnd_cal {codeV codeI energy : Int} {b : State} {k : Nat} (hb : b = s.tick at_) (hk : k < 6) (hcal : tget 0 b.hkc.calLeft k ≠ 0) :
    exec (.integrationPeriodEnd k codeV codeI energy at_) s = .next (if k = 0 then (b.calPeriod 0).periodBoundary else b.calPeriod k) := by
  subst hb
  show onObject (decide (k < 6)) _ = _
  rw [decide_eq_true hk]
  by_cases h0 : k = 0
  · subst h0
    exact congrArg Host.Outcome.next (congrArg State.periodBoundary (if_pos hcal))
  · exact congrArg Host.Outcome.next ((if_neg h0).trans ((if_pos hcal).trans (if_neg h0).symm))

theorem exec_periodEnd_idle {codeV codeI energy : Int} {b : State} {k : Nat} (hb : b = s.tick at_) (hk : k < 6) (h0 : k ≠ 0)
    (hcal : tget 0 b.hkc.calLeft k = 0) (hbusy : (tkeys b.hkc.busy).contains k = false) :
    exec (.integrationPeriodEnd k codeV codeI energy at_) s = .next b := by
  subst hb
  show onObject (decide (k < 6)) _ = _
  rw [decide_eq_true hk]
  refine congrArg Host.Outcome.next ((if_neg h0).trans ((if_neg (not_not.mpr hcal)).trans ?_))
  dsimp only
  rw [hbusy]
  rfl

/-- POW.INPUT of the period that ends. -/
def State.inputRead (s : State) (v i p : Nat) : State :=
  ((s.setFld Reg.POW_INPUT Fld.POW_INPUT_VIN v).setFld Reg.POW_INPUT Fld.POW_INPUT_IIN i).setFld Reg.POW_INPUT Fld.POW_INPUT_PIN p

theorem inputPeriod_eq {codeV codeI energy : Int} {pm : Rat} (hpm : pm = (energy : Rat) / periodUs s.hkc.cfgNow) :
    s.inputPeriod codeV codeI energy = (((s.inputRead (min 16383 (max 0 (codeClamp codeV * 10240 / 524288)).toNat)
      (min 8191 (max 0 (codeClamp codeI * 8192 / 524288)).toNat) (min 65535 pm.floor.toNat)).shedPhases pm).countOver pm).fitEstimate pm := by
  rw [hpm]
  rfl

theorem inputRead_flds {v i p : Nat} (hv : v < 2 ^ 14) (hi : i < 2 ^ 13) (hp : p < 2 ^ 16) :
    (s.inputRead v i p).fld Reg.POW_INPUT Fld.POW_INPUT_VIN = v ∧ (s.inputRead v i p).fld Reg.POW_INPUT Fld.POW_INPUT_IIN = i ∧
      (s.inputRead v i p).fld Reg.POW_INPUT Fld.POW_INPUT_PIN = p := by
  unfold State.inputRead
  refine ⟨?_, ?_, ?_⟩
  · rw [State.fld_setFld_of_disjoint (.inl (by decide)), State.fld_setFld_of_disjoint (.inl (by decide)), State.fld_setFld_self (by decide)]
    exact Nat.mod_eq_of_lt hv
  · rw [State.fld_setFld_of_disjoint (.inl (by decide)), State.fld_setFld_self (by decide)]
    exact Nat.mod_eq_of_lt hi
  · rw [State.fld_setFld_self (by decide)]
    exact Nat.mod_eq_of_lt hp

/-- A key that the fit does not write. -/
def notFit (k : Nat) : Prop := k ≠ Reg.POW_EST_CAL.key ∧ k ≠ Reg.POW_CNT.key

/-- Of the power block only the pairs kept for the fit differ, of the registers its calibration and count. -/
def State.fitOnly (s t : State) : Prop :=
  t = { s with regs := t.regs, power := t.power } ∧ t.power = { s.power with fit := t.power.fit } ∧ s.keepsRegs t notFit

theorem fitOnly_trans {u : State} (h : s.fitOnly t) (k : t.fitOnly u) : s.fitOnly u := by
  obtain ⟨hframe, hpower, hregs⟩ := h
  obtain ⟨kframe, kpower, kregs⟩ := k
  exact ⟨kframe.trans (by rw [hframe]), kpower.trans (by rw [hpower]), keepsRegs_trans hregs kregs⟩

theorem fitOnly_setFld {r : RegRef} {f : Field} {x : Nat} (hr : ¬notFit r.key) : s.fitOnly (s.setFld r f x) :=
  ⟨setFld_frame.trans (by rw [State.setFld_power]), by rw [State.setFld_power], keepsRegs_setFld hr⟩

theorem fitOnly_bump {r : RegRef} {f : Field} (hr : ¬notFit r.key) : s.fitOnly (s.bump r f) := by
  unfold State.bump State.bumpBy
  split
  · exact ⟨rfl, rfl, keepsRegs_refl⟩
  · exact fitOnly_setFld hr

theorem fitOnly_pairs {ps : List (Rat × Rat)} : s.fitOnly { s with power := { s.power with fit := ps } } := ⟨rfl, rfl, keepsRegs_of_regs rfl⟩

theorem fitEstimate_fitOnly {pm : Rat} : s.fitOnly (s.fitEstimate pm) := by
  unfold State.fitEstimate
  dsimp only
  split
  · exact ⟨rfl, rfl, keepsRegs_refl⟩
  · split
    · exact fitOnly_trans fitOnly_pairs (fitOnly_trans (fitOnly_setFld fun h => h.1 rfl) (fitOnly_setFld fun h => h.1 rfl))
    · exact fitOnly_trans fitOnly_pairs (fitOnly_bump fun h => h.2 rfl)

/-- The converter's phases and the cap's overruns of a period. -/
theorem shedCount_power {pm : Rat} : ((s.shedPhases pm).countOver pm).power = { s.power with
    phases := if pm < 3200 then 2 else if 3600 < pm then 4 else s.power.phases
    over5 := if 105 * (s.capQ : Rat) < 100 * pm then s.power.over5 + 1 else 0
    over10 := if 110 * (s.capQ : Rat) < 100 * pm then s.power.over10 + 1 else 0 } := rfl

theorem shedCount_frame {pm : Rat} : (s.shedPhases pm).countOver pm = { s with power := ((s.shedPhases pm).countOver pm).power } := rfl

theorem inputRead_frame {v i p : Nat} : s.inputRead v i p = { s with regs := (s.inputRead v i p).regs } :=
  regs_frame_trans (regs_frame_trans setFld_frame setFld_frame) setFld_frame

theorem inputRead_keepsRegs {v i p : Nat} : s.keepsRegs (s.inputRead v i p) fun k => k ≠ Reg.POW_INPUT.key :=
  keepsRegs_trans (keepsRegs_setFld fun h => h rfl) (keepsRegs_trans (keepsRegs_setFld fun h => h rfl) (keepsRegs_setFld fun h => h rfl))

/-- What the end of a period leaves of the power block and the registers, before the boundary. -/
def State.periodRead (s t : State) (v i p : Nat) (pm : Rat) : Prop :=
  t.fld Reg.POW_INPUT Fld.POW_INPUT_VIN = v ∧ t.fld Reg.POW_INPUT Fld.POW_INPUT_IIN = i ∧ t.fld Reg.POW_INPUT Fld.POW_INPUT_PIN = p ∧
    t.power.phases = (if pm < 3200 then 2 else if 3600 < pm then 4 else s.power.phases) ∧
    t.power.over5 = (if 105 * (s.capQ : Rat) < 100 * pm then s.power.over5 + 1 else 0) ∧
    t.power.over10 = (if 110 * (s.capQ : Rat) < 100 * pm then s.power.over10 + 1 else 0) ∧
    t.reg Reg.HKC_CFG = s.reg Reg.HKC_CFG ∧ t = { s with regs := t.regs, power := t.power }

theorem capQ_of_fld (h : t.fld Reg.POW_STAT Fld.POW_STAT_CAP_EFF = s.fld Reg.POW_STAT Fld.POW_STAT_CAP_EFF) : t.capQ = s.capQ := by
  rw [State.capQ, State.capQ, h]

theorem periodRead_of {x u w : State} {v i p : Nat} {pm : Rat} (hframe : x = { s with regs := x.regs })
    (hkeep : s.keepsRegs x fun k => k ≠ Reg.POW_INPUT.key) (hflds : x.fld Reg.POW_INPUT Fld.POW_INPUT_VIN = v ∧
      x.fld Reg.POW_INPUT Fld.POW_INPUT_IIN = i ∧ x.fld Reg.POW_INPUT Fld.POW_INPUT_PIN = p)
    (hu : u = (x.shedPhases pm).countOver pm) (hfit : u.fitOnly w) : s.periodRead w v i p pm := by
  obtain ⟨kframe, kpow, kregs⟩ := hfit
  obtain ⟨hvin, hiin, hpin⟩ := hflds
  have huregs : u.regs = x.regs := by rw [hu, shedCount_frame]
  have hcap : x.capQ = s.capQ := capQ_of_fld (keepsRegs_fld hkeep (by decide))
  have hxpower : x.power = s.power := by rw [hframe]
  have hupower := (congrArg State.power hu).trans shedCount_power
  rw [hcap, hxpower] at hupower
  have hkept : ∀ f, w.fld Reg.POW_INPUT f = x.fld Reg.POW_INPUT f := fun f =>
    (keepsRegs_fld kregs ⟨by decide, by decide⟩).trans (State.fld_of_regs huregs)
  refine ⟨(hkept _).trans hvin, (hkept _).trans hiin, (hkept _).trans hpin, by rw [kpow, hupower], by rw [kpow, hupower], by rw [kpow, hupower],
    ?_, ?_⟩
  · rw [kregs Reg.HKC_CFG ⟨by decide, by decide⟩, State.reg, huregs]
    exact hkeep Reg.HKC_CFG (by decide)
  · have hun : u = { s with regs := u.regs, power := u.power } := by rw [hu, shedCount_frame, hframe]
    exact kframe.trans (by rw [hun])

theorem periodRead_input {v i p : Nat} {pm : Rat} (hv : v < 2 ^ 14) (hi : i < 2 ^ 13) (hp : p < 2 ^ 16) :
    s.periodRead ((((s.inputRead v i p).shedPhases pm).countOver pm).fitEstimate pm) v i p pm :=
  periodRead_of inputRead_frame inputRead_keepsRegs (inputRead_flds hv hi hp) rfl fitEstimate_fitOnly

/-- The settings written since the period began come into force. -/
def State.cfgTaken (s : State) : State :=
  { s with hkc := { s.hkc with cfgNow := (s.reg Reg.HKC_CFG).toNat % 2 ^ 19 }, power := { s.power with peSum := 0, peN := 0 } }

/-- The reference changes and has to settle. -/
def State.refChanged (s : State) : State :=
  { s with hkc := { s.hkc with refAt := s.now } }.setFlag Reg.HKC_STAT Fld.HKC_STAT_REF_SETTLED false

/-- Whether the next period is left out of the fit. -/
def State.fitMarked (s : State) : State :=
  { s with hkc := { s.hkc with skipFit := !(s.flag Reg.HKC_STAT Fld.HKC_STAT_REF_SETTLED) || tget 0 s.hkc.calLeft 0 ≠ 0 } }

theorem periodBoundary_eq : s.periodBoundary =
    (if refSel ((s.reg Reg.HKC_CFG).toNat % 2 ^ 19) ≠ refSel s.hkc.cfgNow then s.cfgTaken.refChanged else s.cfgTaken).fitMarked := rfl

theorem refChanged_hkc : s.refChanged.hkc = { s.hkc with refAt := s.now } := rfl

theorem refChanged_frame : s.refChanged = { s with regs := s.refChanged.regs, hkc := s.refChanged.hkc } := rfl

theorem fitMarked_frame : s.fitMarked = { s with hkc := s.fitMarked.hkc } := rfl

/-- A boundary is a taking of the settings, with the reference changed or not, and a mark for the fit. -/
theorem periodBoundary_cases : ∃ t : State, s.periodBoundary = t.fitMarked ∧ t = { s.cfgTaken with regs := t.regs, hkc := t.hkc } ∧
    t.hkc = { s.cfgTaken.hkc with refAt := t.hkc.refAt } ∧ (∀ r f, r.key ≠ Reg.HKC_STAT.key → t.fld r f = s.fld r f) ∧
    (refSel ((s.reg Reg.HKC_CFG).toNat % 2 ^ 19) ≠ refSel s.hkc.cfgNow → t.flag Reg.HKC_STAT Fld.HKC_STAT_REF_SETTLED = false ∧ t.hkc.refAt = s.now) := by
  rw [periodBoundary_eq]
  have htaken : ∀ r f, s.cfgTaken.fld r f = s.fld r f := fun r f => State.fld_of_regs rfl
  have hnow : s.cfgTaken.now = s.now := rfl
  generalize s.cfgTaken = v at htaken hnow ⊢
  refine ⟨_, rfl, ?_⟩
  split
  next h =>
    refine ⟨refChanged_frame, ?_, fun r f hr => ?_, fun _ => ⟨State.flag_setFlag_self (by decide) rfl, ?_⟩⟩
    · rw [refChanged_hkc]
    · rw [State.refChanged, State.setFlag, State.fld_setFld_ne hr, ← htaken r f]
      exact State.fld_of_regs rfl
    · rw [refChanged_hkc, ← hnow]
  next h => exact ⟨rfl, rfl, fun r f _ => htaken r f, fun hc => absurd hc h⟩

theorem periodBoundary_frame : s.periodBoundary = { s with
      regs := s.periodBoundary.regs, hkc := s.periodBoundary.hkc, power := s.periodBoundary.power } ∧
    s.periodBoundary.power = { s.power with peSum := 0, peN := 0 } := by
  obtain ⟨t, ht, hframe, -⟩ := periodBoundary_cases (s := s)
  have hmark := fitMarked_frame (s := t)
  rw [ht]
  generalize t.fitMarked = u at hmark ⊢
  have hu : u = { s.cfgTaken with regs := u.regs, hkc := u.hkc } := by
    refine hmark.trans ?_
    have hregs : u.regs = t.regs := by rw [hmark]
    rw [hregs, hframe]
  have hpower : u.power = { s.power with peSum := 0, peN := 0 } := by
    rw [hu]
    rfl
  refine ⟨?_, hpower⟩
  rw [hpower]
  exact hu

theorem periodBoundary_hkc : s.periodBoundary.hkc.cfgNow = (s.reg Reg.HKC_CFG).toNat % 2 ^ 19 ∧
    s.periodBoundary.hkc.calLeft = s.hkc.calLeft ∧ s.periodBoundary.hkc.queue = s.hkc.queue := by
  obtain ⟨t, ht, -, hhkc, -⟩ := periodBoundary_cases (s := s)
  rw [ht]
  have hmark : t.fitMarked.hkc.cfgNow = t.hkc.cfgNow ∧ t.fitMarked.hkc.calLeft = t.hkc.calLeft ∧ t.fitMarked.hkc.queue = t.hkc.queue := ⟨rfl, rfl, rfl⟩
  rw [hmark.1, hmark.2.1, hmark.2.2, hhkc]
  exact ⟨rfl, rfl, rfl⟩

theorem fitMarked_fld {r : RegRef} {f : Field} : s.fitMarked.fld r f = s.fld r f := State.fld_of_regs rfl

theorem periodBoundary_fld {r : RegRef} {f : Field} (hr : r.key ≠ Reg.HKC_STAT.key) : s.periodBoundary.fld r f = s.fld r f := by
  obtain ⟨t, ht, -, -, hfld, -⟩ := periodBoundary_cases (s := s)
  rw [ht, fitMarked_fld, hfld r f hr]

theorem periodBoundary_change (h : refSel s.periodBoundary.hkc.cfgNow ≠ refSel s.hkc.cfgNow) :
    s.periodBoundary.flag Reg.HKC_STAT Fld.HKC_STAT_REF_SETTLED = false ∧ s.periodBoundary.hkc.refAt = s.now := by
  rw [periodBoundary_hkc.1] at h
  obtain ⟨t, ht, -, -, -, hchange⟩ := periodBoundary_cases (s := s)
  obtain ⟨hflag, href⟩ := hchange h
  rw [ht, State.flag, fitMarked_fld]
  exact ⟨hflag, href⟩

theorem calPeriod_queue {k : Nat} : (s.calPeriod k).hkc.queue = s.hkc.queue := rfl

theorem calPeriod_left {k : Nat} : tget 0 (s.calPeriod k).hkc.calLeft k = tget 0 s.hkc.calLeft k - 1 := tget_tset_self

/-- What the end of a period of pair 0 leaves. -/
theorem periodBoundary_of_read {b w : State} {v i p : Nat} {pm cap : Rat} (hcap : cap = (b.capQ : Rat)) (hread : b.periodRead w v i p pm) :
    w.periodBoundary.fld Reg.POW_INPUT Fld.POW_INPUT_VIN = v ∧ w.periodBoundary.fld Reg.POW_INPUT Fld.POW_INPUT_IIN = i ∧
      w.periodBoundary.fld Reg.POW_INPUT Fld.POW_INPUT_PIN = p ∧
      w.periodBoundary.power.phases = (if pm < 3200 then 2 else if 3600 < pm then 4 else b.power.phases) ∧
      w.periodBoundary.power.over5 = (if 105 * cap < 100 * pm then b.power.over5 + 1 else 0) ∧
      w.periodBoundary.power.over10 = (if 110 * cap < 100 * pm then b.power.over10 + 1 else 0) ∧
      w.periodBoundary.hkc.cfgNow = (b.reg Reg.HKC_CFG).toNat % 2 ^ 19 ∧ w.periodBoundary.power.peSum = 0 ∧ w.periodBoundary.power.peN = 0 ∧
      (refSel w.periodBoundary.hkc.cfgNow ≠ refSel b.hkc.cfgNow →
        w.periodBoundary.flag Reg.HKC_STAT Fld.HKC_STAT_REF_SETTLED = false ∧ w.periodBoundary.hkc.refAt = b.now) ∧
      w.periodBoundary = { b with regs := w.periodBoundary.regs, hkc := w.periodBoundary.hkc, power := w.periodBoundary.power } := by
  obtain ⟨hvin, hiin, hpin, hphases, h5, h10, hcfg, hframe⟩ := hread
  obtain ⟨hbound, hpower⟩ := periodBoundary_frame (s := w)
  refine ⟨(periodBoundary_fld (by decide)).trans hvin, (periodBoundary_fld (by decide)).trans hiin,
    (periodBoundary_fld (by decide)).trans hpin, ?_, ?_, ?_, ?_, by rw [hpower], by rw [hpower], fun hne => ?_, ?_⟩
  · rw [hpower, ← hphases]
  · rw [hpower, hcap, ← h5]
  · rw [hpower, hcap, ← h10]
  · rw [periodBoundary_hkc.1, hcfg]
  · have hhkc : w.hkc = b.hkc := by rw [hframe]
    have hnow : w.now = b.now := by rw [hframe]
    rw [← hhkc] at hne
    rw [← hnow]
    exact periodBoundary_change hne
  · exact hbound.trans (by rw [hframe])

/-- An entry that the sequencer comes to. -/
theorem sequenced_spec {e k : Nat} (hk : k = s.entryPair e) (he : e < 64) :
    (s.now < s.hkc.nextAt ∨ (tkeys s.hkc.busy).contains k = true ∨ tget 0 s.hkc.calLeft k ≠ 0 → (s.sequenced e).hkc = s.hkc ∧
      (s.sequenced e).fld Reg.HKC_STAT Fld.HKC_STAT_CURSOR = e % 64) ∧
    (s.hkc.nextAt ≤ s.now → (tkeys s.hkc.busy).contains k = false → tget 0 s.hkc.calLeft k = 0 → (s.sequenced e).hkc = s.hkcIssued e ∧
      (s.sequenced e).fld Reg.HKC_STAT Fld.HKC_STAT_CURSOR = s.entryAfter e) := by
  subst hk
  constructor
  · intro hheld
    have hheld' : s.entryHeld (s.entryPair e) = true := by
      rw [State.entryHeld]
      simpa only [Bool.or_eq_true, decide_eq_true_eq, or_assoc] using hheld
    rw [sequenced_held hheld']
    exact ⟨atEntry_hkc, atEntry_cursor⟩
  · intro hnext hbusy hcal
    have hfree : s.entryHeld (s.entryPair e) = false := by
      rw [State.entryHeld, hbusy, hcal, decide_eq_false (Nat.not_lt.mpr hnext)]
      rfl
    refine ⟨?_, sequenced_cursor hfree⟩
    rw [sequenced_issued hfree, State.setFld_hkc]

theorem exec_refSettled {b : State} (hb : b = s.tick at_) : exec (.refSettled at_) s =
    .next (b.when (decide (b.hkc.refAt + (if refSel b.hkc.cfgNow = 1 then 1000000 else 5000000) ≤ b.now)) fun s =>
      s.setFlag Reg.HKC_STAT Fld.HKC_STAT_REF_SETTLED true) := by
  subst hb
  rfl

end Sys2Proof.Machine

namespace Sys2Proof
open Machine

/-- Settles O58, by the sequencer's branches and what each end of a period writes. -/
theorem convertersFollowTheirTable : Obligations.ConvertersFollowTheirTable := by
  unfold Obligations.ConvertersFollowTheirTable
  refine ⟨fun s at_ b p hb hp => ⟨fun h => (exec_sequencerEntry hb).trans (congrArg Host.Outcome.next (entryTurn_idle (hp ▸ h))), fun e k hrun he hk => ?_⟩,
    fun s codeV codeI energy at_ b pm cap hb hcal hpm hcap => ?_, fun s k codeV codeI energy at_ b hb hk => ⟨fun hcal => ?_, fun h0 hcal hbusy =>
      exec_periodEnd_idle hb hk h0 hcal hbusy⟩, fun s at_ wait b hb hw => ?_⟩
  · have hlt : e < 64 := nextEntry_lt (State.fld_lt (f := Fld.HKC_STAT_CURSOR)) (hp.symm.trans he)
    obtain ⟨hheld, hissued⟩ := sequenced_spec (s := b) hk hlt
    refine ⟨b.sequenced e, (exec_sequencerEntry hb).trans (congrArg Host.Outcome.next (entryTurn_some hrun (hp.symm.trans he))), sequenced_idle,
      hheld, fun hnext hbusy hcal => ?_, sequenced_fields, sequenced_frame⟩
    obtain ⟨hhkc, hcursor⟩ := hissued hnext hbusy hcal
    rw [hhkc, hcursor, hkcIssued_eq, hk]
    exact ⟨rfl, rfl⟩
  · refine ⟨_, (exec_periodEnd_input hb hcal).trans (congrArg (fun t : State => Host.Outcome.next t.periodBoundary) (inputPeriod_eq hpm)),
      periodBoundary_of_read hcap (periodRead_input (by omega) (by omega) (by omega))⟩
  · refine ⟨_, exec_periodEnd_cal hb hk hcal, ?_⟩
    split
    next h0 =>
      subst h0
      rw [periodBoundary_hkc.2.1, periodBoundary_hkc.2.2]
      exact ⟨calPeriod_left, calPeriod_queue⟩
    next => exact ⟨calPeriod_left, calPeriod_queue⟩
  · rw [exec_refSettled hb, ← hw]
    exact ⟨fun h => by rw [decide_eq_true h]; rfl, fun h => by rw [decide_eq_false (Nat.not_le.mpr h)]; rfl⟩

end Sys2Proof

end

section
/-! PROOFS. The operating points: what a change of a quadrant's point, ceiling, boost or voltage writes (R423 to R425, R431, R457). -/

namespace Sys2Proof.Machine

variable {s t u : State} {q k : Nat} {fs gs : List Field}

/-- Only the fields listed of a quadrant's operating point differ, and when its raise was asked for. -/
def State.opOnly (s t : State) (q : Nat) (fs : List Field) : Prop :=
  t = { s with regs := t.regs, power := t.power } ∧ t.power = { s.power with raiseAt := t.power.raiseAt } ∧
    s.fieldsBut t (fs.map fun f => (Reg.POW_OP q, f))

theorem opOnly_refl : s.opOnly s q fs := ⟨rfl, rfl, fieldsBut_refl⟩

theorem opOnly_trans (h : s.opOnly t q fs) (k : t.opOnly u q fs) : s.opOnly u q fs := by
  obtain ⟨hframe, hpower, hfields⟩ := h
  obtain ⟨kframe, kpower, kfields⟩ := k
  exact ⟨kframe.trans (by rw [hframe]), kpower.trans (by rw [hpower]), fieldsBut_trans hfields kfields⟩

theorem opOnly_mono (h : s.opOnly t q fs) (hsub : ∀ f ∈ fs, f ∈ gs) : s.opOnly t q gs := by
  obtain ⟨hframe, hpower, hfields⟩ := h
  refine ⟨hframe, hpower, fieldsBut_mono hfields fun x hx => ?_⟩
  obtain ⟨f, hf, rfl⟩ := List.mem_map.mp hx
  exact List.mem_map_of_mem (hsub f hf)

theorem opOnly_setFld {f : Field} {x : Nat} (hf : f ∈ fs) : s.opOnly (s.setFld (Reg.POW_OP q) f x) q fs :=
  ⟨setFld_frame.trans (by rw [State.setFld_power]), by rw [State.setFld_power], fieldsBut_setFld (List.mem_map_of_mem hf)⟩

theorem opOnly_setFlag {f : Field} {b : Bool} (hf : f ∈ fs) : s.opOnly (s.setFlag (Reg.POW_OP q) f b) q fs := opOnly_setFld hf

/-- When a quadrant's raise was asked for. -/
def State.raiseSet (s : State) (q n : Nat) : State := { s with power := { s.power with raiseAt := tset 0 s.power.raiseAt q n } }

theorem opOnly_raiseSet {n : Nat} : s.opOnly (s.raiseSet q n) q fs := ⟨rfl, rfl, fieldsBut_of_regs rfl⟩

theorem powOp_key_ne (hk : k ≠ q) : (Reg.POW_OP k).key ≠ (Reg.POW_OP q).key := by
  simp only [Reg.POW_OP]
  omega

/-- A field of an operating point outside those written. -/
theorem fieldsBut_opFld {f : Field} (h : s.fieldsBut t (fs.map fun f => (Reg.POW_OP q, f)))
    (hf : k = q → ∀ g ∈ fs, f.lo + f.w ≤ g.lo ∨ g.lo + g.w ≤ f.lo) : t.fld (Reg.POW_OP k) f = s.fld (Reg.POW_OP k) f := by
  refine h _ _ fun x hx hkey => ?_
  obtain ⟨g, hg, rfl⟩ := List.mem_map.mp hx
  by_cases hkq : k = q
  · exact ⟨by rw [hkq], hf hkq g hg⟩
  · exact absurd hkey.symm (powOp_key_ne hkq)

theorem fieldsBut_notOp {r : RegRef} {f : Field} (h : s.fieldsBut t (fs.map fun f => (Reg.POW_OP q, f))) (hr : r.key ≠ (Reg.POW_OP q).key) :
    t.fld r f = s.fld r f := by
  refine h _ _ fun x hx hkey => ?_
  obtain ⟨g, -, rfl⟩ := List.mem_map.mp hx
  exact absurd hkey.symm hr

/-- What a step of the clock writes: the clock, the voltage and VGOOD. -/
def clockFields : List Field := [Fld.POW_OP_CURRENT, Fld.POW_OP_VCORE, Fld.POW_OP_VGOOD]

theorem setVolt_opOnly : s.opOnly (s.setVolt q) q [Fld.POW_OP_VCORE, Fld.POW_OP_VGOOD] := by
  unfold State.setVolt
  extract_lets r v old set
  split
  · exact opOnly_refl
  · exact opOnly_trans (opOnly_setFld List.mem_cons_self) (opOnly_setFlag (List.mem_cons_of_mem _ List.mem_cons_self))

theorem setVolt_clock : s.opOnly (s.setVolt q) q clockFields := opOnly_mono setVolt_opOnly fun _ hf => List.mem_cons_of_mem _ hf

theorem setVolt_now : (s.setVolt q).opNow k = s.opNow k := fieldsBut_opFld setVolt_opOnly.2.2 fun _ => by decide

theorem lowerClock_clock : s.opOnly (s.lowerClock q) q clockFields := by
  unfold State.lowerClock
  split
  · exact opOnly_trans (opOnly_setFld List.mem_cons_self) setVolt_clock
  · exact setVolt_clock

theorem opWant_lt : s.opWant q < 8 := by
  have ht : s.opTarget q < 2 ^ 3 := State.fld_lt (f := Fld.POW_OP_TARGET)
  have hc : s.opCeil q < 2 ^ 3 := State.fld_lt (f := Fld.POW_OP_CEILING)
  rw [State.opWant]
  omega

theorem setCurrent_now {x : Nat} (hx : x < 8) : (s.setFld (Reg.POW_OP q) Fld.POW_OP_CURRENT x).opNow q = x := by
  rw [State.opNow, State.fld_setFld_self (by decide)]
  exact Nat.mod_eq_of_lt hx

/-- The clock runs no faster than the point wanted. -/
theorem opWant_le_lowerClock : s.opWant q ≤ (s.lowerClock q).opNow q := by
  unfold State.lowerClock
  split
  · rw [setVolt_now, setCurrent_now opWant_lt]
  next h =>
    rw [setVolt_now]
    omega

theorem raiseSet_opNow {n : Nat} : (s.raiseSet q n).opNow k = s.opNow k := State.fld_of_regs rfl

theorem raiseSet_opTarget {n : Nat} : (s.raiseSet q n).opTarget k = s.opTarget k := State.fld_of_regs rfl

theorem wantRaise_opOnly : s.opOnly (s.wantRaise q) q [Fld.POW_OP_VCORE, Fld.POW_OP_VGOOD] := by
  unfold State.wantRaise
  split
  · exact opOnly_trans opOnly_raiseSet setVolt_opOnly
  · exact opOnly_refl

/-! ## TARGET -/

theorem target_of_clock (h : s.opOnly t q clockFields) : t.opTarget k = s.opTarget k := fieldsBut_opFld h.2.2 fun _ => by decide

theorem ceil_of_clock (h : s.opOnly t q clockFields) : t.opCeil k = s.opCeil k := fieldsBut_opFld h.2.2 fun _ => by decide

theorem want_of_clock (h : s.opOnly t q clockFields) : t.opWant k = s.opWant k := by
  rw [State.opWant, State.opWant, target_of_clock h, ceil_of_clock h]

/-- TARGET of a quadrant with its clock. -/
def targetFields : List Field := Fld.POW_OP_TARGET :: clockFields

theorem lowerTarget_eq {x : Nat} : s.lowerTarget q x =
    if ((s.setFld (Reg.POW_OP q) Fld.POW_OP_TARGET (min 5 x)).lowerClock q).opWant q <
        ((s.setFld (Reg.POW_OP q) Fld.POW_OP_TARGET (min 5 x)).lowerClock q).opNow q then
      (s.setFld (Reg.POW_OP q) Fld.POW_OP_TARGET (min 5 x)).lowerClock q
    else ((s.setFld (Reg.POW_OP q) Fld.POW_OP_TARGET (min 5 x)).lowerClock q).raiseSet q 0 := rfl

theorem clock_of_target (h : s.opOnly t q clockFields) : s.opOnly t q targetFields := opOnly_mono h fun _ hf => List.mem_cons_of_mem _ hf

theorem lowerTarget_opOnly {x : Nat} : s.opOnly (s.lowerTarget q x) q targetFields := by
  have hclock : s.opOnly ((s.setFld (Reg.POW_OP q) Fld.POW_OP_TARGET (min 5 x)).lowerClock q) q targetFields :=
    opOnly_trans (opOnly_setFld List.mem_cons_self) (clock_of_target lowerClock_clock)
  rw [lowerTarget_eq]
  split
  · exact hclock
  · exact opOnly_trans hclock opOnly_raiseSet

theorem setTarget_target {x : Nat} (hx : x < 8) : (s.setFld (Reg.POW_OP q) Fld.POW_OP_TARGET x).opTarget q = x := by
  rw [State.opTarget, State.fld_setFld_self (by decide)]
  exact Nat.mod_eq_of_lt hx

/-- A slower TARGET is in force, and the clock runs no faster. -/
theorem lowerTarget_target {x : Nat} : (s.lowerTarget q x).opTarget q = min 5 x ∧ min 5 x ≤ (s.lowerTarget q x).opNow q := by
  have htarget : ((s.setFld (Reg.POW_OP q) Fld.POW_OP_TARGET (min 5 x)).lowerClock q).opTarget q = min 5 x := by
    rw [target_of_clock lowerClock_clock, setTarget_target (by omega)]
  have hwant : min 5 x ≤ ((s.setFld (Reg.POW_OP q) Fld.POW_OP_TARGET (min 5 x)).lowerClock q).opNow q := by
    refine le_trans ?_ opWant_le_lowerClock
    rw [State.opWant, setTarget_target (by omega)]
    omega
  rw [lowerTarget_eq]
  split
  · exact ⟨htarget, hwant⟩
  · refine ⟨?_, ?_⟩
    · exact raiseSet_opTarget.trans htarget
    · rw [raiseSet_opNow]
      exact hwant

/-! ## CEILING (R457) -/

/-- The slowest of the demands on a quadrant. -/
def State.ceilDemand (s : State) (q : Nat) : Nat :=
  (tget 0 s.power.ceil q :: tget 0 s.power.ceil (4 + q) :: (s.therm.conds.filter fun c => c.quad == q).map Cond.demand).foldl max 0

theorem freshCeil_eq : s.freshCeil q = if s.ceilDemand q = s.opCeil q then s else
    if s.opCeil q < s.ceilDemand q then (s.setFld (Reg.POW_OP q) Fld.POW_OP_CEILING (min 5 (s.ceilDemand q))).lowerClock q
    else (s.setFld (Reg.POW_OP q) Fld.POW_OP_CEILING (min 5 (s.ceilDemand q))).wantRaise q := rfl

/-- CEILING of a quadrant with its clock. -/
def ceilFields : List Field := Fld.POW_OP_CEILING :: clockFields

theorem freshCeil_opOnly : s.opOnly (s.freshCeil q) q ceilFields := by
  have hset : s.opOnly (s.setFld (Reg.POW_OP q) Fld.POW_OP_CEILING (min 5 (s.ceilDemand q))) q ceilFields := opOnly_setFld List.mem_cons_self
  rw [freshCeil_eq]
  split
  · exact opOnly_refl
  · split
    · exact opOnly_trans hset (opOnly_mono lowerClock_clock fun _ hf => List.mem_cons_of_mem _ hf)
    · exact opOnly_trans hset (opOnly_mono wantRaise_opOnly fun _ hf => List.mem_cons_of_mem _ (List.mem_cons_of_mem _ hf))

theorem setCeil_ceil {x : Nat} (hx : x < 8) : (s.setFld (Reg.POW_OP q) Fld.POW_OP_CEILING x).opCeil q = x := by
  rw [State.opCeil, State.fld_setFld_self (by decide)]
  exact Nat.mod_eq_of_lt hx

/-- CEILING stands at the slowest demand, or at OP5. -/
theorem freshCeil_ceil : s.ceilDemand q = s.opCeil q ∧ (s.freshCeil q).opCeil q = s.opCeil q ∨ (s.freshCeil q).opCeil q = min 5 (s.ceilDemand q) := by
  rw [freshCeil_eq]
  split
  next h => exact .inl ⟨h, rfl⟩
  · split
    · rw [ceil_of_clock lowerClock_clock, setCeil_ceil (by omega)]
      exact .inr rfl
    · rw [ceil_of_clock (opOnly_mono wantRaise_opOnly fun _ hf => List.mem_cons_of_mem _ hf), setCeil_ceil (by omega)]
      exact .inr rfl

theorem foldl_max_eq {l : List Nat} {a : Nat} : l.foldl max a = max a (l.foldl max 0) := by
  induction l generalizing a with
  | nil => simp
  | cons x l ih =>
    rw [List.foldl_cons, List.foldl_cons, ih, ih (a := max 0 x)]
    omega

theorem ceilDemand_eq : s.ceilDemand q = ((s.therm.conds.filter fun c => c.quad == q).map Cond.demand).foldl max
    (max (tget 0 s.power.ceil q) (tget 0 s.power.ceil (4 + q))) := by
  rw [State.ceilDemand, List.foldl_cons, List.foldl_cons, Nat.zero_max]

theorem le_ceilDemand : tget 0 s.power.ceil q ≤ s.ceilDemand q := by
  rw [ceilDemand_eq, foldl_max_eq]
  omega

theorem le_freshCeil {d : Nat} (hd : d ≤ 5) (h : d ≤ s.ceilDemand q) : d ≤ (s.freshCeil q).opCeil q := by
  rcases freshCeil_ceil (s := s) (q := q) with ⟨hold, hceil⟩ | hceil <;> rw [hceil] <;> omega

/-- A source's demand on one quadrant. -/
def State.demandOne (s : State) (source op q : Nat) : State := { s with power := { s.power with ceil := tset 0 s.power.ceil (4 * source + q) op } }.freshCeil q

theorem demandAll_eq {source op : Nat} : s.demandAll source op = s.each (List.range 4) fun s q => s.demandOne source op q := rfl

theorem setDemand_fld {source op : Nat} {r : RegRef} {f : Field} :
    { s with power := { s.power with ceil := tset 0 s.power.ceil (4 * source + q) op } }.fld r f = s.fld r f := State.fld_of_regs rfl

theorem demandOne_facts {source op : Nat} : s.demandOne source op q = { s with
      regs := (s.demandOne source op q).regs, power := (s.demandOne source op q).power } ∧
    (s.demandOne source op q).power = { s.power with
      ceil := tset 0 s.power.ceil (4 * source + q) op, raiseAt := (s.demandOne source op q).power.raiseAt } ∧
    s.fieldsBut (s.demandOne source op q) (ceilFields.map fun f => (Reg.POW_OP q, f)) := by
  obtain ⟨hframe, hpower, hfields⟩ :=
    freshCeil_opOnly (s := { s with power := { s.power with ceil := tset 0 s.power.ceil (4 * source + q) op } }) (q := q)
  exact ⟨hframe, hpower, fieldsBut_trans (fieldsBut_of_regs rfl) hfields⟩

/-- The fields that demands on the quadrants may move. -/
def allOps (fs : List Field) : List (RegRef × Field) := (List.range 4).flatMap fun q => fs.map fun f => (Reg.POW_OP q, f)

theorem allOps_of_one (hq : q < 4) (h : s.fieldsBut t (fs.map fun f => (Reg.POW_OP q, f))) : s.fieldsBut t (allOps fs) :=
  fieldsBut_mono h fun _ hx => List.mem_flatMap.mpr ⟨q, List.mem_range.mpr hq, hx⟩

/-- A demand of a source on all four quadrants. -/
def State.demandsMade (s t : State) (source op n : Nat) : Prop :=
  t = { s with regs := t.regs, power := t.power } ∧ t.power = { s.power with ceil := t.power.ceil, raiseAt := t.power.raiseAt } ∧
    (∀ q, q < n → tget 0 t.power.ceil (4 * source + q) = op) ∧
    (∀ k, (∀ q, q < n → k ≠ 4 * source + q) → tget 0 t.power.ceil k = tget 0 s.power.ceil k) ∧
    s.fieldsBut t (allOps ceilFields) ∧ (source = 0 → op ≤ 5 → ∀ q, q < n → op ≤ t.opCeil q)

theorem demandAll_made {source op : Nat} : s.demandsMade (s.demandAll source op) source op 4 := by
  rw [demandAll_eq]
  refine each_range_induction (P := fun n t => s.demandsMade t source op n) ⟨rfl, rfl, fun q hq => absurd hq (Nat.not_lt_zero q), fun k _ => rfl,
    fieldsBut_refl, fun _ _ q hq => absurd hq (Nat.not_lt_zero q)⟩ fun m t hm ht => ?_
  obtain ⟨hframe, hpower, hset, hkept, hfields, hceil⟩ := ht
  obtain ⟨kframe, kpower, kfields⟩ := demandOne_facts (s := t) (q := m) (source := source) (op := op)
  have hread : ∀ k, tget 0 (t.demandOne source op m).power.ceil k = if k = 4 * source + m then op else tget 0 t.power.ceil k := fun k => by
    rw [kpower]
    exact tget_tset
  refine ⟨kframe.trans (by rw [hframe]), kpower.trans (by rw [hpower, kpower]), fun q hq => ?_, fun k hk => ?_,
    fieldsBut_trans hfields (allOps_of_one hm kfields), fun h0 h5 q hq => ?_⟩
  · rw [hread]
    split
    · rfl
    · exact hset q (by omega)
  · rw [hread, if_neg (hk m (by omega))]
    exact hkept k fun q hq => hk q (by omega)
  · by_cases hqm : q = m
    · subst hqm
      refine le_freshCeil h5 (le_trans ?_ le_ceilDemand)
      rw [h0, Nat.mul_zero, Nat.zero_add]
      exact ge_of_eq tget_tset_self
    · have hq' : (t.demandOne source op m).opCeil q = t.opCeil q := fieldsBut_opFld kfields fun he => absurd he hqm
      rw [hq']
      exact hceil h0 h5 q (by omega)

/-! ## BOOST (R433) -/

/-- Whether a quadrant is boosted. -/
def State.boosts (s : State) (q : Nat) : Bool :=
  s.alive 1 && !(s.critCeil q) && s.power.windows.any fun w => w.quads.contains q && decide (w.boostAt ≤ s.now)

/-- BOOST and VCORE of one quadrant. -/
def State.boostOne (s : State) (q : Nat) : State :=
  if s.flag (Reg.POW_OP q) Fld.POW_OP_BOOST = s.boosts q then s
  else (s.setFlag (Reg.POW_OP q) Fld.POW_OP_BOOST (s.boosts q)).setFld (Reg.POW_OP q) Fld.POW_OP_VCORE
    (if s.boosts q then min 800 (opVolt (s.opWant q) + 20) else opVolt (s.opWant q))

/-- Windows that have ended go. -/
def State.windowsKept (s : State) : State := { s with power := { s.power with windows := s.power.windows.filter fun w => s.now < w.stop } }

theorem freshBoost_eq : s.freshBoost = s.windowsKept.each (List.range 4) fun s q => s.boostOne q := rfl

/-- The fields of a boost. -/
def boostFields : List Field := [Fld.POW_OP_BOOST, Fld.POW_OP_VCORE]

theorem boostOne_facts : s.boostOne q = { s with regs := (s.boostOne q).regs } ∧
    s.fieldsBut (s.boostOne q) (boostFields.map fun f => (Reg.POW_OP q, f)) ∧ (s.boostOne q).flag (Reg.POW_OP q) Fld.POW_OP_BOOST = s.boosts q := by
  unfold State.boostOne
  split
  next h => exact ⟨rfl, fieldsBut_refl, h⟩
  · refine ⟨regs_frame_trans setFld_frame setFld_frame, fieldsBut_trans (fieldsBut_setFlag (List.mem_cons_self ..))
      (fieldsBut_setFld (List.mem_cons_of_mem _ (List.mem_cons_self ..))), ?_⟩
    rw [State.flag, State.fld_setFld_of_disjoint (.inl (by decide))]
    exact State.flag_setFlag_self (by decide) rfl

theorem boosts_congr (h : t = { s with regs := t.regs }) (halive : t.alive 1 = s.alive 1) : t.boosts q = s.boosts q := by
  have hcrit : t.critCeil q = s.critCeil q := by
    rw [h]
    rfl
  have hpower : t.power = s.power := by rw [h]
  have hnow : t.now = s.now := by rw [h]
  rw [State.boosts, State.boosts, halive, hcrit, hpower, hnow]

theorem alive_of_notOp {i : Nat} (hi : i < 8) (h : ∀ r f, (∀ q, q < 4 → r.key ≠ (Reg.POW_OP q).key) → t.fld r f = s.fld r f) :
    t.alive i = s.alive i := by
  rw [State.alive, State.alive, State.flag, State.flag, h]
  intro q hq
  simp only [Reg.FWP_PROC, Reg.POW_OP]
  omega

/-- Registers outside the operating points. -/
theorem fieldsBut_allOps {r : RegRef} {f : Field} (h : s.fieldsBut t (allOps fs)) (hr : ∀ q, q < 4 → r.key ≠ (Reg.POW_OP q).key) : t.fld r f = s.fld r f := by
  refine h r f fun x hx hkey => ?_
  obtain ⟨q, hq, hmem⟩ := List.mem_flatMap.mp hx
  obtain ⟨g, -, rfl⟩ := List.mem_map.mp hmem
  exact absurd hkey.symm (hr q (List.mem_range.mp hq))

theorem fieldsBut_allOpFld {f : Field} (h : s.fieldsBut t (allOps fs)) (hf : ∀ g ∈ fs, f.lo + f.w ≤ g.lo ∨ g.lo + g.w ≤ f.lo) :
    t.fld (Reg.POW_OP k) f = s.fld (Reg.POW_OP k) f := by
  refine h _ _ fun x hx hkey => ?_
  obtain ⟨q, -, hmem⟩ := List.mem_flatMap.mp hx
  obtain ⟨g, hg, rfl⟩ := List.mem_map.mp hmem
  by_cases hkq : k = q
  · exact ⟨by rw [hkq], hf g hg⟩
  · exact absurd hkey.symm (powOp_key_ne hkq)

/-- The boosts of the quadrants. -/
def State.boosted (s t : State) (n : Nat) : Prop :=
  t = { s with regs := t.regs } ∧ s.fieldsBut t (allOps boostFields) ∧ ∀ q, q < n → t.flag (Reg.POW_OP q) Fld.POW_OP_BOOST = s.boosts q

theorem freshBoost_boosted : s.windowsKept.boosted s.freshBoost 4 := by
  rw [freshBoost_eq]
  generalize s.windowsKept = v
  refine each_range_induction (P := fun n t => v.boosted t n) ⟨rfl, fieldsBut_refl, fun q hq => absurd hq (Nat.not_lt_zero q)⟩ fun m t hm ht => ?_
  obtain ⟨hframe, hfields, hflags⟩ := ht
  obtain ⟨kframe, kfields, kflag⟩ := boostOne_facts (s := t) (q := m)
  refine ⟨kframe.trans (by rw [hframe]), fieldsBut_trans hfields (allOps_of_one hm kfields), fun q hq => ?_⟩
  by_cases hqm : q = m
  · subst hqm
    rw [kflag]
    exact boosts_congr hframe (alive_of_notOp (by decide) fun r f hr => fieldsBut_allOps hfields hr)
  · rw [State.flag, fieldsBut_opFld kfields fun he => absurd he hqm]
    exact hflags q (by omega)

end Sys2Proof.Machine

end

section
/-! PROOFS. Counts that saturate, the entry that a fault leaves last, and a table that lists no entry of a key. -/

namespace Sys2Proof.Machine

variable {s t u : State}

theorem counted_bumpBy {r : RegRef} {f : Field} {n : Nat} (hf : f.lo + f.w ≤ 64) : s.counted (s.bumpBy r f n) r f n := fld_bumpBy hf State.fld_lt

theorem counted_bump {r : RegRef} {f : Field} (hf : f.lo + f.w ≤ 64) : s.counted (s.bump r f) r f 1 := counted_bumpBy hf

theorem counted_before {r : RegRef} {f : Field} {n : Nat} (h : t.counted u r f n) (hs : t.fld r f = s.fld r f) : s.counted u r f n := by
  rw [State.counted, ← hs]
  exact h

theorem counted_after {r : RegRef} {f : Field} {n : Nat} (h : s.counted t r f n) (hu : u.fld r f = t.fld r f) : s.counted u r f n := hu.trans h

theorem bump_frame {r : RegRef} {f : Field} : s.bump r f = { s with regs := (s.bump r f).regs } := by
  unfold State.bump State.bumpBy
  split
  · rfl
  · exact setFld_frame

/-- The last entry of the fault log is the one that a fault writes (R508). -/
theorem fault_last {code level source object : Nat} {data : List Byte} :
    (s.fault code level source object data).faultLog.entries.getLast? = some ⟨s.time, code, level, source, object, data⟩ := by
  unfold State.fault
  extract_lets e l es dirty
  have hlast : es.getLast? = some e := List.getLast?_concat
  split
  · exact hlast
  next hlen =>
    show (es.drop 1).getLast? = some e
    rw [List.getLast?_drop, if_neg (by omega), hlast]

theorem tget_of_no_key {α : Type} {d : α} {l : Tbl α} {k : Nat} (h : ∀ e ∈ l, e.1 ≠ k) : tget d l k = d := by
  induction l with
  | nil => rfl
  | cons e l ih =>
    obtain ⟨i, x⟩ := e
    rw [tget, if_neg fun he => h (i, x) List.mem_cons_self he.symm]
    exact ih fun e he => h e (List.mem_cons_of_mem _ he)

end Sys2Proof.Machine

end

section
/-! PROOFS. Power emergencies, their release, the governor's and RIDGE windows (R433, R436, R437, R459, R482). -/

namespace Sys2Proof.Machine

variable {s t u b : State} {at_ row measured q : Nat}

/-! ## What the conditions in force set -/

theorem two_le_foldl_max {α : Type} {l : List α} {f : α → Nat} : 2 ≤ (l.map f).foldl max 0 ↔ (l.any fun x => decide (2 ≤ f x)) = true := by
  induction l with
  | nil => simp
  | cons a l ih =>
    rw [List.map_cons, List.foldl_cons, foldl_max_eq, List.any_cons, Bool.or_eq_true, decide_eq_true_eq, ← ih]
    omega

/-- EMERG and the ceilings as the conditions active set them. -/
def State.powerFresh (s t : State) (lv : Nat) : Prop :=
  t = { s with regs := t.regs, power := t.power } ∧ t.power = { s.power with ceil := t.power.ceil, raiseAt := t.power.raiseAt } ∧
    t.fld Reg.POW_STAT Fld.POW_STAT_EMERG = min lv 2 ∧ (∀ q, q < 4 → tget 0 t.power.ceil q = if 2 ≤ lv then 3 else 0) ∧
    (2 ≤ lv → ∀ q, q < 4 → 3 ≤ t.opCeil q) ∧ ∀ r f, r.key ≠ Reg.POW_STAT.key → (∀ q, q < 4 → r.key ≠ (Reg.POW_OP q).key) → t.fld r f = s.fld r f

theorem powStat_ne_powOp : ∀ q, q < 4 → Reg.POW_STAT.key ≠ (Reg.POW_OP q).key := powStat_notOp

theorem freshPower_eq : s.freshPower = (s.setFld Reg.POW_STAT Fld.POW_STAT_EMERG (min ((s.power.active.map rowLevel).foldl max 0) 2)).demandAll 0
    (if 2 ≤ (s.power.active.map rowLevel).foldl max 0 then 3 else 0) := rfl

theorem freshPower_fresh : s.powerFresh s.freshPower ((s.power.active.map rowLevel).foldl max 0) := by
  rw [freshPower_eq]
  generalize (s.power.active.map rowLevel).foldl max 0 = lv
  have hset : s.setFld Reg.POW_STAT Fld.POW_STAT_EMERG (min lv 2) = { s with regs := (s.setFld Reg.POW_STAT Fld.POW_STAT_EMERG (min lv 2)).regs } :=
    setFld_frame
  have hemerg : (s.setFld Reg.POW_STAT Fld.POW_STAT_EMERG (min lv 2)).fld Reg.POW_STAT Fld.POW_STAT_EMERG = min lv 2 := by
    rw [State.fld_setFld_self (by decide)]
    exact Nat.mod_eq_of_lt (show min lv 2 < 4 by omega)
  have hother : ∀ r f, r.key ≠ Reg.POW_STAT.key → (s.setFld Reg.POW_STAT Fld.POW_STAT_EMERG (min lv 2)).fld r f = s.fld r f :=
    fun r f hr => State.fld_setFld_ne hr
  generalize s.setFld Reg.POW_STAT Fld.POW_STAT_EMERG (min lv 2) = v at hset hemerg hother
  obtain ⟨hframe, hpower, hceil, -, hfields, hop⟩ := demandAll_made (s := v) (source := 0) (op := if 2 ≤ lv then 3 else 0)
  refine ⟨hframe.trans (by rw [hset]), hpower.trans (by rw [hset]), ?_, fun q hq => ?_, fun h2 q hq => ?_, fun r f hr hops => ?_⟩
  · rw [fieldsBut_allOps hfields powStat_ne_powOp]
    exact hemerg
  · have h := hceil q hq
    rwa [Nat.mul_zero, Nat.zero_add] at h
  · have hle : (if 2 ≤ lv then 3 else 0) ≤ 5 := by split <;> decide
    exact le_trans (ge_of_eq (if_pos h2)) (hop rfl hle q hq)
  · rw [fieldsBut_allOps hfields hops]
    exact hother r f hr

/-- What a fresh boost leaves. -/
theorem freshBoost_facts : s.freshBoost = { s with regs := s.freshBoost.regs, power := s.freshBoost.power } ∧
    s.freshBoost.power = { s.power with windows := s.power.windows.filter fun w => s.now < w.stop } ∧
    s.fieldsBut s.freshBoost (allOps boostFields) ∧ ∀ q, q < 4 → s.freshBoost.flag (Reg.POW_OP q) Fld.POW_OP_BOOST = s.windowsKept.boosts q := by
  obtain ⟨hframe, hfields, hflags⟩ := freshBoost_boosted (s := s)
  have hkept : s.windowsKept = { s with power := { s.power with windows := s.power.windows.filter fun w => s.now < w.stop } } := rfl
  have hbefore : s.fieldsBut s.windowsKept (allOps boostFields) := fieldsBut_of_regs rfl
  generalize s.windowsKept = v at hframe hfields hflags hkept hbefore ⊢
  have hpower : s.freshBoost.power = { s.power with windows := s.power.windows.filter fun w => s.now < w.stop } := by
    rw [hframe, hkept]
  refine ⟨?_, hpower, fieldsBut_trans hbefore hfields, hflags⟩
  rw [hpower]
  exact hframe.trans (by rw [hkept])

/-- The state after the ceilings and the boosts follow the conditions active. -/
def State.conditionsMet (s t : State) (lv : Nat) : Prop :=
  t = { s with regs := t.regs, power := t.power } ∧ t.power.active = s.power.active ∧ t.fld Reg.POW_STAT Fld.POW_STAT_EMERG = min lv 2 ∧
    (∀ q, q < 4 → tget 0 t.power.ceil q = if 2 ≤ lv then 3 else 0) ∧ (2 ≤ lv → ∀ q, q < 4 → 3 ≤ t.opCeil q) ∧
    ∀ r f, r.key ≠ Reg.POW_STAT.key → (∀ q, q < 4 → r.key ≠ (Reg.POW_OP q).key) → t.fld r f = s.fld r f

theorem freshAll_met : s.conditionsMet s.freshPower.freshBoost ((s.power.active.map rowLevel).foldl max 0) := by
  obtain ⟨hframe, hpower, hemerg, hceil, hop, hother⟩ := freshPower_fresh (s := s)
  generalize s.freshPower = v at hframe hpower hemerg hceil hop hother ⊢
  obtain ⟨kframe, kpower, kfields, -⟩ := freshBoost_facts (s := v)
  refine ⟨kframe.trans (by rw [hframe]), by rw [kpower, hpower], ?_, fun q hq => ?_, fun h2 q hq => ?_, fun r f hr hops => ?_⟩
  · rw [fieldsBut_allOps kfields powStat_ne_powOp]
    exact hemerg
  · rw [kpower]
    exact hceil q hq
  · have hkept : v.freshBoost.opCeil q = v.opCeil q := fieldsBut_allOpFld kfields (by decide)
    rw [hkept]
    exact hop h2 q hq
  · rw [fieldsBut_allOps kfields hops]
    exact hother r f hr hops

/-! ## A condition begins -/

theorem dropRaise_opOnly : s.opOnly (s.dropRaise q) q [Fld.POW_OP_TARGET] := by
  unfold State.dropRaise
  split
  · exact opOnly_refl
  · exact opOnly_trans (t := s.raiseSet q 0) opOnly_raiseSet (opOnly_setFld List.mem_cons_self)

/-- Raises that wait for their boundaries are dropped, for a Critical condition. -/
def State.raisesDropped (s : State) (lv : Nat) : State := if 2 ≤ lv then s.each (List.range 4) fun s q => s.dropRaise q else s

theorem raisesDropped_facts {lv : Nat} : s.raisesDropped lv = { s with regs := (s.raisesDropped lv).regs, power := (s.raisesDropped lv).power } ∧
    (s.raisesDropped lv).power = { s.power with raiseAt := (s.raisesDropped lv).power.raiseAt } ∧
    s.fieldsBut (s.raisesDropped lv) (allOps [Fld.POW_OP_TARGET]) := by
  unfold State.raisesDropped
  split
  · refine each_induction (P := fun t => t = { s with regs := t.regs, power := t.power } ∧ t.power = { s.power with raiseAt := t.power.raiseAt } ∧
      s.fieldsBut t (allOps [Fld.POW_OP_TARGET])) ⟨rfl, rfl, fieldsBut_refl⟩ fun t q hq ht => ?_
    obtain ⟨hframe, hpower, hfields⟩ := ht
    obtain ⟨kframe, kpower, kfields⟩ := dropRaise_opOnly (s := t) (q := q)
    exact ⟨kframe.trans (by rw [hframe]), kpower.trans (by rw [hpower]), fieldsBut_trans hfields (allOps_of_one (List.mem_range.mp hq) kfields)⟩
  · exact ⟨rfl, rfl, fieldsBut_refl⟩

/-- The field of POW.CNT that counts a condition. -/
def levelCount (lv : Nat) : Field := if lv = 1 then Fld.POW_CNT_WARN else Fld.POW_CNT_CRIT

/-- A condition counted, logged and reported. -/
def State.conditionTold (s : State) (row measured lv : Nat) : State :=
  ((s.bump Reg.POW_CNT (levelCount lv)).fault 0x0501 lv srcHw row (leBytes 4 measured)).pldm 1 row

/-- A condition joins those active. -/
def State.withActive (s : State) (l : List Nat) : State := { s with power := { s.power with active := l } }

theorem withActive_of_pldm (v : State) {l : List Nat} :
    { v.pldm 1 row with power := { v.power with active := l } } = (v.pldm 1 row).withActive l := by
  rw [State.withActive, State.pldm_power]

theorem powerBegins_eq (hnew : s.power.active.contains row = false) : s.powerBegins row measured =
    (((s.conditionTold row measured (rowLevel row)).withActive (s.power.active ++ [row])).raisesDropped (rowLevel row)).freshPower.freshBoost := by
  unfold State.powerBegins
  rw [hnew]
  refine (if_neg Bool.false_ne_true).trans ?_
  extract_lets +onlyGivenNames lv s1
  have hpower : s1.power = s.power := by rw [State.fault_power, State.bump_power]
  have htold : s1.pldm 1 row = s.conditionTold row measured (rowLevel row) := rfl
  have hactive : { s1.pldm 1 row with power := { s1.power with active := s1.power.active ++ [row] } } =
      (s.conditionTold row measured (rowLevel row)).withActive (s.power.active ++ [row]) := by
    rw [← htold, ← hpower]
    exact withActive_of_pldm s1
  exact congrArg (fun v : State => (v.raisesDropped (rowLevel row)).freshPower.freshBoost) hactive

theorem conditionTold_facts {lv : Nat} : s.conditionTold row measured lv = { s with
      regs := (s.conditionTold row measured lv).regs, faultLog := (s.conditionTold row measured lv).faultLog,
      side := (s.conditionTold row measured lv).side } ∧
    s.counted (s.conditionTold row measured lv) Reg.POW_CNT (levelCount lv) 1 ∧
    (s.conditionTold row measured lv).faultLog.entries.getLast? = some ⟨s.time, 0x0501, lv, srcHw, row, leBytes 4 measured⟩ ∧
    (s.conditionTold row measured lv).side = (s.pldm 1 row).side := by
  have hbump := bump_frame (s := s) (r := Reg.POW_CNT) (f := levelCount lv)
  have hcount : s.counted (s.bump Reg.POW_CNT (levelCount lv)) Reg.POW_CNT (levelCount lv) 1 := counted_bump (by
    unfold levelCount
    split <;> decide)
  unfold State.conditionTold
  generalize s.bump Reg.POW_CNT (levelCount lv) = v at hbump hcount
  have hfault := fault_frame (s := v) (code := 0x0501) (level := lv) (source := srcHw) (object := row) (data := leBytes 4 measured)
  have hlast := fault_last (s := v) (code := 0x0501) (level := lv) (source := srcHw) (object := row) (data := leBytes 4 measured)
  generalize v.fault 0x0501 lv srcHw row (leBytes 4 measured) = w at hfault hlast
  have hside : w.side = s.side := by rw [hfault, hbump]
  have htime : v.time = s.time := by rw [hbump]
  have hregs : w.regs = v.regs := by rw [hfault]
  refine ⟨pldm_frame.trans ?_, ?_, ?_, pldm_side_congr hside⟩
  · rw [State.pldm_regs, State.pldm_faultLog, hfault, hbump]
  · exact counted_after hcount (State.fld_of_regs ((State.pldm_regs).trans hregs))
  · rw [State.pldm_faultLog, hlast, htime]

theorem powCnt_ne_powOp : ∀ q, q < 4 → Reg.POW_CNT.key ≠ (Reg.POW_OP q).key := fun q hq => by
  simp only [Reg.POW_CNT, Reg.POW_OP]
  omega

/-- What a Warning or a Critical condition leaves when it begins. -/
theorem powerBegins_spec (hnew : s.power.active.contains row = false) (ht : t = s.powerBegins row measured) :
    t.power.active = s.power.active ++ [row] ∧ s.counted t Reg.POW_CNT (levelCount (rowLevel row)) 1 ∧
      t.fld Reg.POW_STAT Fld.POW_STAT_EMERG = min 2 (((s.power.active ++ [row]).map rowLevel).foldl max 0) ∧
      t.faultLog.entries.getLast? = some ⟨s.time, 0x0501, rowLevel row, srcHw, row, leBytes 4 measured⟩ ∧ t.side = (s.pldm 1 row).side ∧
      (rowLevel row = 2 → ∀ q, q < 4 → 3 ≤ t.opCeil q ∧ tget 0 t.power.ceil q = 3) ∧
      t = { s with regs := t.regs, power := t.power, faultLog := t.faultLog, side := t.side } := by
  rw [powerBegins_eq hnew] at ht
  obtain ⟨hframe, hcount, hlast, hside⟩ := conditionTold_facts (s := s) (row := row) (measured := measured) (lv := rowLevel row)
  generalize s.conditionTold row measured (rowLevel row) = c at hframe hcount hlast hside ht
  have hact : (c.withActive (s.power.active ++ [row])) = { c with power := (c.withActive (s.power.active ++ [row])).power } := rfl
  have hactive : (c.withActive (s.power.active ++ [row])).power.active = s.power.active ++ [row] := rfl
  generalize c.withActive (s.power.active ++ [row]) = w at hact hactive ht
  obtain ⟨dframe, dpower, dfields⟩ := raisesDropped_facts (s := w) (lv := rowLevel row)
  generalize w.raisesDropped (rowLevel row) = d at dframe dpower dfields ht
  have hdactive : d.power.active = s.power.active ++ [row] := by rw [dpower, hactive]
  obtain ⟨fframe, factive, femerg, fceil, fop, fother⟩ := freshAll_met (s := d)
  rw [← ht, hdactive] at femerg fceil fop
  rw [← ht] at fframe factive fother
  have hregsw : w.regs = c.regs := by rw [hact]
  have hframes : t = { s with regs := t.regs, power := t.power, faultLog := t.faultLog, side := t.side } := by
    have hlog : t.faultLog = c.faultLog := by rw [fframe, dframe, hact]
    have hsd : t.side = c.side := by rw [fframe, dframe, hact]
    rw [hlog, hsd]
    exact fframe.trans (by rw [dframe, hact, hframe])
  refine ⟨factive.trans hdactive, counted_after hcount ?_, ?_, ?_, ?_, fun h2 q hq => ?_, hframes⟩
  · rw [fother _ _ (by decide) powCnt_ne_powOp, fieldsBut_allOps dfields powCnt_ne_powOp]
    exact State.fld_of_regs hregsw
  · rw [femerg, Nat.min_comm]
  · rw [← hlast, fframe, dframe, hact]
  · rw [← hside, fframe, dframe, hact]
  · have hlv : 2 ≤ ((s.power.active ++ [row]).map rowLevel).foldl max 0 := two_le_foldl_max.mpr (by
      rw [List.any_append, Bool.or_eq_true]
      exact .inr (by simp [h2]))
    exact ⟨fop hlv q hq, (fceil q hq).trans (if_pos hlv)⟩

theorem powerEnds_spec (hon : s.power.active.contains row = true) (ht : t = s.powerEnds row) :
    t.power.active = s.power.active.filter (· != row) ∧ t.fld Reg.POW_STAT Fld.POW_STAT_EMERG = min 2 ((t.power.active.map rowLevel).foldl max 0) ∧
      (∀ q, q < 4 → tget 0 t.power.ceil q = if (t.power.active.any fun r => decide (2 ≤ rowLevel r)) = true then 3 else 0) ∧
      t = { s with regs := t.regs, power := t.power } := by
  have heq : s.powerEnds row = (s.withActive (s.power.active.filter (· != row))).freshPower.freshBoost := if_pos hon
  rw [heq] at ht
  have hact : (s.withActive (s.power.active.filter (· != row))) = { s with power := (s.withActive (s.power.active.filter (· != row))).power } := rfl
  have hactive : (s.withActive (s.power.active.filter (· != row))).power.active = s.power.active.filter (· != row) := rfl
  generalize s.withActive (s.power.active.filter (· != row)) = w at hact hactive ht
  obtain ⟨hframe, kactive, hemerg, hceil, -, -⟩ := freshAll_met (s := w)
  rw [← ht] at hframe kactive hemerg hceil
  rw [hactive] at kactive hemerg hceil
  refine ⟨kactive, ?_, fun q hq => ?_, hframe.trans (by rw [hact])⟩
  · rw [hemerg, kactive, Nat.min_comm]
  · rw [hceil q hq, kactive]
    exact if_congr two_le_foldl_max rfl rfl

/-! ## A Trip -/

theorem wiped_phase (hmap : ∀ e ∈ s.flash.mapRec.getD [], e.1 ≠ Reg.CLK_START.key) : (s.wiped true).phase = 0 := by
  have hread : (s.wiped true).reg Reg.CLK_START = 0 := tget_of_no_key hmap
  rw [State.phase, State.fld, hread]
  rfl

/-- What the converter's stop leaves. -/
theorem powerOff_spec (ht : t = s.powerOff) : t.power.tripCause = s.power.tripCause ∧ t.therm.offAt = s.now ∧ t.ctxs = [] ∧ t.places = [] ∧ t.mem = {} ∧
    t.pairs = [] ∧ t.flash = s.flash ∧ t.therm.tripped = s.therm.tripped ∧ t.therm.lastTrip = s.therm.lastTrip ∧ t.therm.tripMax = s.therm.tripMax ∧
    ((∀ e ∈ s.flash.mapRec.getD [], e.1 ≠ Reg.CLK_START.key) → t.phase = 0) := by
  obtain ⟨hframe, -⟩ := cleared_frame (s := s) (cold := true)
  have hregs := cleared_keepsRegs (s := s) (cold := true)
  have heq : s.powerOff = { s.cleared true with therm := { (s.cleared true).therm with offAt := s.now } } := rfl
  rw [heq] at ht
  generalize s.cleared true = c at hframe hregs ht
  have htherm : c.therm = (s.wiped true).therm := by rw [hframe]
  have hphase : t.phase = (s.wiped true).phase := by
    have h1 : t.phase = c.phase := by rw [ht]; exact State.fld_of_regs rfl
    rw [h1]
    exact keepsRegs_fld hregs ⟨fun q hq => by simp only [Reg.CLK_START, Reg.TILE_QFLT]; omega, by decide⟩
  rw [htherm, hframe] at ht
  refine ⟨?_, ?_, ?_, ?_, ?_, ?_, ?_, ?_, ?_, ?_, fun hmap => hphase.trans (wiped_phase hmap)⟩ <;> rw [ht] <;> rfl

/-! ## The commands -/

theorem exec_powerEmergency (hb : b = s.tick at_) (hrow : row < 7) : exec (.powerEmergency row measured at_) s =
    .next (if !b.powered || !(b.rowHolds row) then b
      else if rowLevel row = 3 then { b with power := { b.power with tripCause := some (row, measured) } }.powerOff
      else b.powerBegins row measured) := by
  subst hb
  show onObject (decide (row < 7)) _ = _
  rw [decide_eq_true hrow]
  rfl

theorem exec_criticalRelease (hb : b = s.tick at_) (hrow : row < 7) : exec (.criticalRelease row at_) s = .next (b.powerEnds row) := by
  subst hb
  show onObject (decide (row < 7)) _ = _
  rw [decide_eq_true hrow]
  rfl

/-- The governor's demand goes down by a point. -/
def State.govStepped (s : State) : State := { s with power := { s.power with govStep := s.now } }

theorem exec_governorRelease (hb : b = s.tick at_) : exec (.governorRelease at_) s =
    .next (if b.flag Reg.POW_STAT Fld.POW_STAT_GOV || tget 0 b.power.ceil 4 = 0 || b.now < b.power.govStep + 1000000 then b
      else b.govStepped.demandAll 1 (tget 0 b.power.ceil 4 - 1)) := by
  subst hb
  rfl

theorem govStepped_demand {d : Nat} (ht : t = s.govStepped.demandAll 1 d) : (∀ q, q < 4 → tget 0 t.power.ceil (4 + q) = d) ∧
    t.power.govStep = s.now ∧ t = { s with regs := t.regs, power := t.power } := by
  have hgov : s.govStepped = { s with power := s.govStepped.power } := rfl
  have hstep : s.govStepped.power.govStep = s.now := rfl
  generalize s.govStepped = v at hgov hstep ht
  obtain ⟨hframe, hpower, hceil, -⟩ := demandAll_made (s := v) (source := 1) (op := d)
  rw [← ht] at hframe hpower hceil
  exact ⟨hceil, by rw [hpower, hstep], hframe.trans (by rw [hgov])⟩

/-- When a quadrant is boosted. -/
theorem windowsKept_boosts : s.windowsKept.boosts q = true ↔ s.alive 1 = true ∧ s.critCeil q = false ∧
    ∃ w ∈ s.power.windows, s.now < w.stop ∧ w.quads.contains q = true ∧ w.boostAt ≤ s.now := by
  have halive : s.windowsKept.alive 1 = s.alive 1 := by
    have hfld : s.windowsKept.fld (Reg.FWP_PROC 1) Fld.FWP_PROC_ALIVE = s.fld (Reg.FWP_PROC 1) Fld.FWP_PROC_ALIVE := State.fld_of_regs rfl
    rw [State.alive, State.alive, State.flag, State.flag, hfld]
  have hcrit : s.windowsKept.critCeil q = s.critCeil q := rfl
  have hwin : s.windowsKept.power.windows = s.power.windows.filter fun w => s.now < w.stop := rfl
  have hnow : s.windowsKept.now = s.now := rfl
  rw [State.boosts, halive, hcrit, hwin, hnow, Bool.and_eq_true, Bool.and_eq_true, Bool.not_eq_true', and_assoc, List.any_eq_true]
  refine and_congr_right fun _ => and_congr_right fun _ => exists_congr fun w => ?_
  simp only [List.mem_filter, Bool.and_eq_true, decide_eq_true_eq, and_assoc]

theorem exec_ridgeWindow (hb : b = s.tick at_) : exec (.ridgeWindow at_) s = .next b.freshBoost := by
  subst hb
  rfl

end Sys2Proof.Machine

namespace Sys2Proof
open Machine

/-- Settles O56, by what the conditions active set, and the releases. -/
theorem emergenciesHoldTheCeilings : Obligations.EmergenciesHoldTheCeilings := by
  unfold Obligations.EmergenciesHoldTheCeilings
  refine ⟨fun s row measured at_ b hb hrow => ⟨fun h => ?_, fun hp hh h3 => ?_, fun hp hh h3 hnew => ?_⟩,
    fun s row at_ b hb hrow => ⟨fun hoff => ?_, fun hon => ?_⟩, fun s at_ d b hb hd => ⟨fun h => ?_, fun hgov hne hnow => ?_⟩,
    fun s at_ b hb => ?_⟩
  · rw [exec_powerEmergency hb hrow]
    refine congrArg Host.Outcome.next ?_
    split
    · rfl
    next hgo =>
      simp only [Bool.or_eq_true, Bool.not_eq_true', not_or, Bool.not_eq_false] at hgo
      obtain ⟨h3, hin⟩ := h.resolve_left (by simp [hgo.1]) |>.resolve_left (by simp [hgo.2])
      rw [if_neg h3]
      exact if_pos hin
  · refine ⟨_, (exec_powerEmergency hb hrow).trans (congrArg Host.Outcome.next ((if_neg (by simp [hp, hh])).trans (if_pos h3))), ?_⟩
    obtain ⟨htrip, hoff, hctxs, hplaces, hmem, hpairs, hflash, -, -, -, hphase⟩ :=
      powerOff_spec (s := { b with power := { b.power with tripCause := some (row, measured) } }) rfl
    exact ⟨htrip, hoff, hctxs, hplaces, hmem, hpairs, hflash, hphase⟩
  · exact ⟨_, (exec_powerEmergency hb hrow).trans (congrArg Host.Outcome.next ((if_neg (by simp [hp, hh])).trans (if_neg h3))),
      powerBegins_spec hnew rfl⟩
  · rw [exec_criticalRelease hb hrow]
    exact congrArg Host.Outcome.next (if_neg (by rw [hoff]; exact Bool.false_ne_true))
  · exact ⟨_, exec_criticalRelease hb hrow, powerEnds_spec hon rfl⟩
  · rw [exec_governorRelease hb, ← hd]
    refine congrArg Host.Outcome.next (if_pos ?_)
    simpa only [Bool.or_eq_true, decide_eq_true_eq, or_assoc] using h
  · refine ⟨_, (exec_governorRelease hb).trans (congrArg Host.Outcome.next (if_neg ?_)), ?_⟩
    · rw [hgov, ← hd, decide_eq_false hne, decide_eq_false (Nat.not_lt.mpr hnow)]
      exact Bool.false_ne_true
    · rw [← hd]
      exact govStepped_demand rfl
  · obtain ⟨hframe, hpower, hfields, hflags⟩ := freshBoost_facts (s := b)
    refine ⟨_, exec_ridgeWindow hb, by rw [hpower], fun q hq => ?_, hfields, hframe⟩
    rw [hflags q hq]
    exact windowsKept_boosts

end Sys2Proof

end

section
/-! PROOFS. The clock at its boundaries, droops, the cap's limiter and PTP's reviews (R424, R425, R428 to R431). -/

namespace Sys2Proof.Machine

variable {s t u b : State} {at_ q : Nat}

/-! ## Boundaries and droops -/

/-- Whether the clock may step up. -/
def State.mayRaise (s : State) (q : Nat) : Bool :=
  tget 0 s.power.raiseAt q ≠ 0 && s.flag (Reg.POW_OP q) Fld.POW_OP_VGOOD && s.atBoundary q && s.opWant q < s.opNow q

/-- The clock at the point wanted. -/
def State.raised (s : State) (q : Nat) : State :=
  ((s.raiseSet q 0).setFld (Reg.POW_OP q) Fld.POW_OP_CURRENT (s.opWant q)).bump (Reg.POW_QCNT q) Fld.POW_QCNT_RAISES

theorem stepUp_eq : s.stepUp q = if s.mayRaise q then s.raised q else s := rfl

theorem powQcnt_ne_powOp {k : Nat} : (Reg.POW_QCNT q).key ≠ (Reg.POW_OP k).key := by
  simp only [Reg.POW_QCNT, Reg.POW_OP]
  omega

theorem raised_spec (ht : t = s.raised q) : t.opNow q = s.opWant q ∧ tget 0 t.power.raiseAt q = 0 ∧ s.counted t (Reg.POW_QCNT q) Fld.POW_QCNT_RAISES 1 ∧
    s.fieldsBut t [(Reg.POW_OP q, Fld.POW_OP_CURRENT), (Reg.POW_QCNT q, Fld.POW_QCNT_RAISES)] ∧ t = { s with regs := t.regs, power := t.power } := by
  have hraise : s.raiseSet q 0 = { s with power := (s.raiseSet q 0).power } := rfl
  have hzero : tget 0 (s.raiseSet q 0).power.raiseAt q = 0 := by rw [State.raiseSet, tget_tset_self]
  have hflds : ∀ r f, (s.raiseSet q 0).fld r f = s.fld r f := fun r f => State.fld_of_regs rfl
  have hlt := opWant_lt (s := s) (q := q)
  rw [State.raised] at ht
  generalize s.raiseSet q 0 = v at hraise hzero hflds ht
  generalize s.opWant q = w at hlt ht
  have hset := setFld_frame (s := v) (r := Reg.POW_OP q) (f := Fld.POW_OP_CURRENT) (x := w)
  have hnow := setCurrent_now (s := v) (q := q) hlt
  have hfields : s.fieldsBut (v.setFld (Reg.POW_OP q) Fld.POW_OP_CURRENT w) [(Reg.POW_OP q, Fld.POW_OP_CURRENT), (Reg.POW_QCNT q, Fld.POW_QCNT_RAISES)] :=
    fieldsBut_trans (fun r f _ => hflds r f) (fieldsBut_setFld (List.mem_cons_self ..))
  have hqcnt : (v.setFld (Reg.POW_OP q) Fld.POW_OP_CURRENT w).fld (Reg.POW_QCNT q) Fld.POW_QCNT_RAISES = s.fld (Reg.POW_QCNT q) Fld.POW_QCNT_RAISES :=
    (State.fld_setFld_ne powQcnt_ne_powOp).trans (hflds _ _)
  generalize v.setFld (Reg.POW_OP q) Fld.POW_OP_CURRENT w = x at hset hnow hfields hqcnt ht
  have hbump := bump_frame (s := x) (r := Reg.POW_QCNT q) (f := Fld.POW_QCNT_RAISES)
  have hcount : x.counted t (Reg.POW_QCNT q) Fld.POW_QCNT_RAISES 1 := ht ▸ counted_bump (by decide)
  have hkeep : t.opNow q = x.opNow q := by
    rw [ht]
    exact State.fld_bumpBy_ne powQcnt_ne_powOp.symm
  rw [← ht] at hbump
  have htpower : t.power = v.power := by rw [hbump, hset]
  refine ⟨hkeep.trans hnow, ?_, counted_before hcount hqcnt, fieldsBut_trans hfields ?_, hbump.trans (by rw [htpower, hset, hraise])⟩
  · rw [htpower]
    exact hzero
  · rw [ht]
    exact fieldsBut_bump (List.mem_cons_of_mem _ (List.mem_cons_self ..))

theorem stepUp_waits (h : tget 0 s.power.raiseAt q = 0 ∨ s.flag (Reg.POW_OP q) Fld.POW_OP_VGOOD = false ∨ s.atBoundary q = false ∨ s.opNow q ≤ s.opWant q) :
    s.stepUp q = s := by
  rw [stepUp_eq]
  refine if_neg ?_
  simp only [State.mayRaise, Bool.and_eq_true, decide_eq_true_eq]
  rintro ⟨⟨⟨hraise, hgood⟩, hbound⟩, hlt⟩
  rcases h with h | h | h | h
  · exact hraise h
  · rw [h] at hgood; cases hgood
  · rw [h] at hbound; cases hbound
  · omega

theorem exec_boundary {i : Instr} (hq : q < 4) (hb : b = s.tick at_)
    (hi : i = .operatingPointBoundary q at_ ∧ u = b ∨ i = .vgood q at_ ∧ u = b.setFlag (Reg.POW_OP q) Fld.POW_OP_VGOOD true) :
    exec i s = .next (u.stepUp q) := by
  subst hb
  rcases hi with ⟨rfl, rfl⟩ | ⟨rfl, rfl⟩
  · show onObject (decide (q < 4)) _ = _
    rw [decide_eq_true hq]
    rfl
  · show onObject (decide (q < 4)) _ = _
    rw [decide_eq_true hq]
    rfl

/-- The clock of a quadrant one point down for a droop. -/
def State.drooped (s : State) (q : Nat) : State :=
  ({ s with power := { s.power with droopAt := tset 0 s.power.droopAt q (s.now + 1), raiseAt := tset 0 s.power.raiseAt q (s.now + 1) } }.setFld
    (Reg.POW_OP q) Fld.POW_OP_CURRENT (s.opNow q + 1)).bump (Reg.POW_QCNT q) Fld.POW_QCNT_DROOP

theorem exec_droop (hq : q < 4) (hb : b = s.tick at_) : exec (.droop q at_) s =
    .next (if tget 0 b.power.droopAt q ≠ 0 && b.now < tget 0 b.power.droopAt q - 1 + cycles64 (b.opNow q) then b
      else if 5 ≤ b.opNow q then (b.bump (Reg.POW_QCNT q) Fld.POW_QCNT_DROOP_FLOOR).fault 0x0503 1 srcHw q [] else b.drooped q) := by
  subst hb
  show onObject (decide (q < 4)) _ = _
  rw [decide_eq_true hq]
  rfl

/-- The time of a droop, and of the raise that follows it. -/
def State.droopAt (s : State) (q : Nat) : State :=
  { s with power := { s.power with droopAt := tset 0 s.power.droopAt q (s.now + 1), raiseAt := tset 0 s.power.raiseAt q (s.now + 1) } }

theorem drooped_spec (hop : s.opNow q < 5) (ht : t = s.drooped q) : t.opNow q = s.opNow q + 1 ∧ t.opTarget q = s.opTarget q ∧
    s.counted t (Reg.POW_QCNT q) Fld.POW_QCNT_DROOP 1 ∧ tget 0 t.power.raiseAt q = s.now + 1 ∧ tget 0 t.power.droopAt q = s.now + 1 ∧
    s.fieldsBut t [(Reg.POW_OP q, Fld.POW_OP_CURRENT), (Reg.POW_QCNT q, Fld.POW_QCNT_DROOP)] ∧ t = { s with regs := t.regs, power := t.power } := by
  have hframe : s.droopAt q = { s with power := (s.droopAt q).power } := rfl
  have hraise : tget 0 (s.droopAt q).power.raiseAt q = s.now + 1 := by rw [State.droopAt, tget_tset_self]
  have hdroop : tget 0 (s.droopAt q).power.droopAt q = s.now + 1 := by rw [State.droopAt, tget_tset_self]
  have hflds : ∀ r f, (s.droopAt q).fld r f = s.fld r f := fun r f => State.fld_of_regs rfl
  have heq : s.drooped q = ((s.droopAt q).setFld (Reg.POW_OP q) Fld.POW_OP_CURRENT (s.opNow q + 1)).bump (Reg.POW_QCNT q) Fld.POW_QCNT_DROOP := rfl
  rw [heq] at ht
  generalize s.droopAt q = v at hframe hraise hdroop hflds ht
  have hset := setFld_frame (s := v) (r := Reg.POW_OP q) (f := Fld.POW_OP_CURRENT) (x := s.opNow q + 1)
  have hnow := setCurrent_now (s := v) (q := q) (x := s.opNow q + 1) (by omega)
  have htarget : (v.setFld (Reg.POW_OP q) Fld.POW_OP_CURRENT (s.opNow q + 1)).opTarget q = s.opTarget q :=
    (State.fld_setFld_of_disjoint (by decide)).trans (hflds _ _)
  have hfields : s.fieldsBut (v.setFld (Reg.POW_OP q) Fld.POW_OP_CURRENT (s.opNow q + 1))
      [(Reg.POW_OP q, Fld.POW_OP_CURRENT), (Reg.POW_QCNT q, Fld.POW_QCNT_DROOP)] :=
    fieldsBut_trans (fun r f _ => hflds r f) (fieldsBut_setFld (List.mem_cons_self ..))
  have hqcnt : (v.setFld (Reg.POW_OP q) Fld.POW_OP_CURRENT (s.opNow q + 1)).fld (Reg.POW_QCNT q) Fld.POW_QCNT_DROOP =
      s.fld (Reg.POW_QCNT q) Fld.POW_QCNT_DROOP := (State.fld_setFld_ne powQcnt_ne_powOp).trans (hflds _ _)
  generalize v.setFld (Reg.POW_OP q) Fld.POW_OP_CURRENT (s.opNow q + 1) = x at hset hnow htarget hfields hqcnt ht
  have hbump := bump_frame (s := x) (r := Reg.POW_QCNT q) (f := Fld.POW_QCNT_DROOP)
  have hcount : x.counted t (Reg.POW_QCNT q) Fld.POW_QCNT_DROOP 1 := ht ▸ counted_bump (by decide)
  have hkeep : ∀ f, t.fld (Reg.POW_OP q) f = x.fld (Reg.POW_OP q) f := fun f => by
    rw [ht]
    exact State.fld_bumpBy_ne powQcnt_ne_powOp.symm
  rw [← ht] at hbump
  have htpower : t.power = v.power := by rw [hbump, hset]
  refine ⟨(hkeep _).trans hnow, (hkeep _).trans htarget, counted_before hcount hqcnt, ?_, ?_, fieldsBut_trans hfields ?_,
    hbump.trans (by rw [htpower, hset, hframe])⟩
  · rw [htpower]
    exact hraise
  · rw [htpower]
    exact hdroop
  · rw [ht]
    exact fieldsBut_bump (List.mem_cons_of_mem _ (List.mem_cons_self ..))

/-! ## The arbiter -/

theorem arbitrate_some {req : List Bool} {ptr i n : Nat} (h : arbitrate req ptr = (some i, n)) : i < req.length ∧ req.getD i false = true := by
  unfold arbitrate at h
  dsimp only at h
  split at h
  next k hk =>
    have hfound := List.find?_some hk
    have hmem := List.mem_range.mp (List.mem_of_find?_eq_some hk)
    obtain ⟨hi, -⟩ := Prod.mk.inj h
    have hi' := Option.some.inj hi
    exact ⟨hi' ▸ Nat.mod_lt _ (by omega), hi' ▸ hfound⟩
  next => exact absurd (congrArg Prod.fst h) (by simp)

theorem arbitrate_none {req : List Bool} {ptr n i : Nat} (h : arbitrate req ptr = (none, n)) (hi : i < req.length) : req.getD i false = false := by
  unfold arbitrate at h
  dsimp only at h
  split at h
  next => exact absurd (congrArg Prod.fst h) (by simp)
  next hnone =>
    rw [List.find?_eq_none] at hnone
    have hpos : 0 < req.length := by omega
    have hk := hnone ((i + req.length - ptr % req.length) % req.length) (List.mem_range.mpr (Nat.mod_lt _ hpos))
    have hback : (ptr + (i + req.length - ptr % req.length) % req.length) % req.length = i := by
      have hlt := Nat.mod_lt ptr hpos
      rw [Nat.add_mod_mod, ← Nat.mod_add_mod, show ptr % req.length + (i + req.length - ptr % req.length) = i + req.length by omega, Nat.add_mod_right,
        Nat.mod_eq_of_lt hi]
    rw [hback] at hk
    exact Bool.eq_false_iff.mpr hk

theorem getD_range_map {f : Nat → Bool} {i n : Nat} (hi : i < n) : ((List.range n).map f).getD i false = f i := by
  simp [List.getD_eq_getElem?_getD, hi]

/-- The highest value among those that may go slower. -/
def topOf (may : List Bool) (v : List Nat) : Nat := (((List.range 4).filter fun q => may.getD q false).map fun q => v.getD q 0).foldl max 0

theorem pickHighest_eq {may : List Bool} {v : List Nat} {ptr : Nat} :
    pickHighest may v ptr = arbitrate ((List.range 4).map fun q => may.getD q false && v.getD q 0 == topOf may v) ptr := rfl

theorem le_foldl_max {l : List Nat} {x : Nat} (hx : x ∈ l) : x ≤ l.foldl max 0 := by
  induction l with
  | nil => cases hx
  | cons a l ih =>
    rw [List.foldl_cons, foldl_max_eq]
    rcases List.mem_cons.mp hx with rfl | h
    · omega
    · have := ih h
      omega

theorem foldl_max_mem {l : List Nat} (h : l ≠ []) : l.foldl max 0 ∈ l := by
  induction l with
  | nil => exact absurd rfl h
  | cons a l ih =>
    rw [List.foldl_cons, foldl_max_eq, Nat.zero_max]
    by_cases hl : l = []
    · subst hl
      simp
    · rcases Nat.le_total a (l.foldl max 0) with hle | hle
      · rw [Nat.max_eq_right hle]
        exact List.mem_cons_of_mem _ (ih hl)
      · rw [Nat.max_eq_left hle]
        exact List.mem_cons_self

theorem le_topOf {may : List Bool} {v : List Nat} {k : Nat} (hk : k < 4) (hmay : may.getD k false = true) : v.getD k 0 ≤ topOf may v :=
  le_foldl_max (List.mem_map.mpr ⟨k, List.mem_filter.mpr ⟨List.mem_range.mpr hk, hmay⟩, rfl⟩)

/-- The quadrant picked may go slower and has the highest value of those that may. -/
theorem pickHighest_some {may : List Bool} {v : List Nat} {ptr i n : Nat} (h : pickHighest may v ptr = (some i, n)) :
    i < 4 ∧ may.getD i false = true ∧ ∀ k, k < 4 → may.getD k false = true → v.getD k 0 ≤ v.getD i 0 := by
  rw [pickHighest_eq] at h
  obtain ⟨hi, hreq⟩ := arbitrate_some h
  rw [List.length_map, List.length_range] at hi
  rw [getD_range_map hi, Bool.and_eq_true, beq_iff_eq] at hreq
  obtain ⟨hmay, htop⟩ := hreq
  exact ⟨hi, hmay, fun k hk hkmay => htop ▸ le_topOf hk hkmay⟩

/-- One is picked where one may go slower. -/
theorem pickHighest_isSome {may : List Bool} {v : List Nat} {ptr k : Nat} (hk : k < 4) (hmay : may.getD k false = true) :
    ∃ i n, pickHighest may v ptr = (some i, n) := by
  rcases hpick : pickHighest may v ptr with ⟨o, n⟩
  cases o with
  | some i => exact ⟨i, n, rfl⟩
  | none =>
    exfalso
    rw [pickHighest_eq] at hpick
    have hmem : topOf may v ∈ ((List.range 4).filter fun q => may.getD q false).map fun q => v.getD q 0 :=
      foldl_max_mem (List.ne_nil_of_mem (List.mem_map.mpr ⟨k, List.mem_filter.mpr ⟨List.mem_range.mpr hk, hmay⟩, rfl⟩))
    obtain ⟨q, hq, htop⟩ := List.mem_map.mp hmem
    obtain ⟨hlt, hqmay⟩ := List.mem_filter.mp hq
    have hfalse := arbitrate_none hpick (i := q) (by simpa using hlt)
    rw [getD_range_map (List.mem_range.mp hlt), htop, hqmay, beq_self_eq_true] at hfalse
    cases hfalse

end Sys2Proof.Machine

end

section
/-! PROOFS. The fast limiter, the cap's floor and PTP's reviews (R426 to R430). -/

namespace Sys2Proof.Machine

variable {s t u b : State} {at_ q : Nat} {qest : List Nat}

/-! ## The estimates of a microsecond -/

/-- QEST of the four quadrants. -/
def State.qestSet (s : State) (qest : List Nat) : State := s.each (List.range 4) fun s q => s.setFld (Reg.POW_OP q) Fld.POW_OP_QEST (min (qest.getD q 0) 65535)

theorem qestSet_facts : s.qestSet qest = { s with regs := (s.qestSet qest).regs } ∧ s.fieldsBut (s.qestSet qest) (allOps [Fld.POW_OP_QEST]) ∧
    ∀ q, q < 4 → (s.qestSet qest).qest q = min (qest.getD q 0) 65535 := by
  refine each_range_induction (P := fun n t => t = { s with regs := t.regs } ∧ s.fieldsBut t (allOps [Fld.POW_OP_QEST]) ∧
    ∀ q, q < n → t.qest q = min (qest.getD q 0) 65535) ⟨rfl, fieldsBut_refl, fun q hq => absurd hq (Nat.not_lt_zero q)⟩ fun m t hm ht => ?_
  obtain ⟨hframe, hfields, hq⟩ := ht
  have hset := setFld_frame (s := t) (r := Reg.POW_OP m) (f := Fld.POW_OP_QEST) (x := min (qest.getD m 0) 65535)
  refine ⟨hset.trans (by rw [hframe]), fieldsBut_trans hfields (allOps_of_one hm (fieldsBut_setFld (List.mem_cons_self ..))), fun q hlt => ?_⟩
  by_cases hqm : q = m
  · subst hqm
    rw [State.qest, State.fld_setFld_self (by decide)]
    exact Nat.mod_eq_of_lt (show min (qest.getD q 0) 65535 < 65536 by omega)
  · rw [State.qest, State.fld_setFld_ne (powOp_key_ne hqm)]
    exact hq q (by omega)

theorem freshCap_facts : s.freshCap = { s with regs := s.freshCap.regs } ∧ s.keepsRegs s.freshCap (fun k => k ≠ Reg.POW_STAT.key) ∧
    s.freshCap.fld Reg.POW_STAT Fld.POW_STAT_CAP_EFF =
      min (capOf (s.fld Reg.POW_CAP Fld.POW_CAP_HOST_CAP)) (capOf (s.fld Reg.POW_CAP Fld.POW_CAP_BMC_CAP)) := by
  unfold State.freshCap
  refine ⟨regs_frame_trans setFld_frame setFld_frame, keepsRegs_trans (keepsRegs_setFld fun h => h rfl) (keepsRegs_setFlag fun h => h rfl), ?_⟩
  rw [State.fld_setFlag_of_disjoint (by decide), State.fld_setFld_self (by decide)]
  refine Nat.mod_eq_of_lt (show _ < 4096 from ?_)
  simp only [capOf]
  omega

/-- The state once the estimates of a microsecond are taken in. -/
def State.qestTaken (s t : State) (qest : List Nat) : Prop :=
  t = { s with regs := t.regs } ∧ (∀ q, q < 4 → t.qest q = min (qest.getD q 0) 65535) ∧
    t.fld Reg.POW_STAT Fld.POW_STAT_CAP_EFF =
      min (capOf (s.fld Reg.POW_CAP Fld.POW_CAP_HOST_CAP)) (capOf (s.fld Reg.POW_CAP Fld.POW_CAP_BMC_CAP)) ∧
    (∀ q f, (f.lo + f.w ≤ Fld.POW_OP_QEST.lo ∨ Fld.POW_OP_QEST.lo + Fld.POW_OP_QEST.w ≤ f.lo) → t.fld (Reg.POW_OP q) f = s.fld (Reg.POW_OP q) f) ∧
    ∀ r f, r.key ≠ Reg.POW_STAT.key → (∀ q, q < 4 → r.key ≠ (Reg.POW_OP q).key) → t.fld r f = s.fld r f

theorem powOp_ne_powStat : (Reg.POW_OP q).key ≠ Reg.POW_STAT.key := by
  simp only [Reg.POW_OP, Reg.POW_STAT]
  omega

theorem powCap_ne_powOp : ∀ q, q < 4 → Reg.POW_CAP.key ≠ (Reg.POW_OP q).key := fun q _ => by
  simp only [Reg.POW_CAP, Reg.POW_OP]
  omega

theorem takeQest_taken : s.qestTaken (s.takeQest qest) qest := by
  have heq : s.takeQest qest = (s.qestSet qest).freshCap := rfl
  rw [heq]
  obtain ⟨hframe, hfields, hq⟩ := qestSet_facts (s := s) (qest := qest)
  generalize s.qestSet qest = v at hframe hfields hq ⊢
  obtain ⟨kframe, kregs, kcap⟩ := freshCap_facts (s := v)
  refine ⟨kframe.trans (by rw [hframe]), fun q hlt => ?_, ?_, fun q f hf => ?_, fun r f hr hops => ?_⟩
  · rw [State.qest, keepsRegs_fld kregs powOp_ne_powStat]
    exact hq q hlt
  · rw [kcap, fieldsBut_allOps hfields powCap_ne_powOp, fieldsBut_allOps hfields powCap_ne_powOp]
  · rw [keepsRegs_fld kregs powOp_ne_powStat]
    exact fieldsBut_allOpFld hfields fun g hg => by
      rw [List.mem_singleton.mp hg]
      exact hf
  · rw [keepsRegs_fld kregs hr]
    exact fieldsBut_allOps hfields hops

/-- The state once the estimate is shown and summed, and the cap watched. -/
def State.estimated (s : State) : State := (s.setFld Reg.POW_STAT Fld.POW_STAT_P_EST (min s.calEst.toNat 65535)).addEstimate.watchCap.capMet

/-- Estimate shown. -/
def State.estShown (s t : State) : Prop :=
  t = { s with regs := t.regs, power := t.power } ∧ t.power = { s.power with
      peHist := (s.calEst :: s.power.peHist).take 4, peSum := t.power.peSum, peN := t.power.peN, reviewMax := t.power.reviewMax,
      missAt := t.power.missAt, okAt := t.power.okAt } ∧
    t.fld Reg.POW_STAT Fld.POW_STAT_P_EST = min s.calEst.toNat 65535 ∧
    t.fld Reg.POW_STAT Fld.POW_STAT_CAP_EFF = s.fld Reg.POW_STAT Fld.POW_STAT_CAP_EFF ∧ s.keepsRegs t (fun k => k ≠ Reg.POW_STAT.key)

theorem calEst_congr (halive : t.alive 1 = s.alive 1) (hraw : t.rawEst = s.rawEst)
    (hcal : ∀ f, t.fld Reg.POW_EST_CAL f = s.fld Reg.POW_EST_CAL f) : t.calEst = s.calEst := by
  rw [State.calEst, State.calEst, halive, hraw, State.calibrated, State.calibrated, hcal, hcal]

theorem calEst_setEst {x : Nat} : (s.setFld Reg.POW_STAT Fld.POW_STAT_P_EST x).calEst = s.calEst := by
  refine calEst_congr ?_ ?_ fun f => State.fld_setFld_ne (by decide)
  · rw [State.alive, State.alive, State.flag, State.flag, State.fld_setFld_ne (by decide)]
  · rw [State.rawEst, State.rawEst]
    refine congrArg (fun l : List Nat => l.sum + 240) (List.map_congr_left fun q _ => ?_)
    exact State.fld_setFld_ne powOp_ne_powStat

theorem addWatch_frame : s.addEstimate.watchCap = { s with power := s.addEstimate.watchCap.power } ∧ s.addEstimate.watchCap.power = { s.power with
    peHist := (s.calEst :: s.power.peHist).take 4, peSum := s.addEstimate.watchCap.power.peSum, peN := s.addEstimate.watchCap.power.peN
    reviewMax := s.addEstimate.watchCap.power.reviewMax, missAt := s.addEstimate.watchCap.power.missAt
    okAt := s.addEstimate.watchCap.power.okAt } := ⟨rfl, rfl⟩

theorem capMet_facts : s.capMet = { s with regs := s.capMet.regs } ∧ s.fieldsBut s.capMet [(Reg.POW_STAT, Fld.POW_STAT_CAP_FLOOR)] := by
  unfold State.capMet
  split
  · unfold State.when
    split
    · exact ⟨setFld_frame, fieldsBut_setFlag (List.mem_cons_self ..)⟩
    · exact ⟨rfl, fieldsBut_refl⟩
  · exact ⟨rfl, fieldsBut_refl⟩

theorem floor_other {f : Field} (h : s.fieldsBut t [(Reg.POW_STAT, Fld.POW_STAT_CAP_FLOOR)])
    (hf : f.lo + f.w ≤ Fld.POW_STAT_CAP_FLOOR.lo ∨ Fld.POW_STAT_CAP_FLOOR.lo + Fld.POW_STAT_CAP_FLOOR.w ≤ f.lo) :
    t.fld Reg.POW_STAT f = s.fld Reg.POW_STAT f := h _ _ fun x hx _ => by
  rw [List.mem_singleton.mp hx]
  exact ⟨rfl, hf⟩

theorem keepsRegs_capMet : s.keepsRegs s.capMet fun k => k ≠ Reg.POW_STAT.key := by
  unfold State.capMet
  split
  · unfold State.when
    split
    · exact keepsRegs_setFlag fun h => h rfl
    · exact keepsRegs_refl
  · exact keepsRegs_refl

theorem estimated_shown : s.estShown s.estimated := by
  unfold State.estimated
  have hset := setFld_frame (s := s) (r := Reg.POW_STAT) (f := Fld.POW_STAT_P_EST) (x := min s.calEst.toNat 65535)
  have hcal := calEst_setEst (s := s) (x := min s.calEst.toNat 65535)
  have hest : (s.setFld Reg.POW_STAT Fld.POW_STAT_P_EST (min s.calEst.toNat 65535)).fld Reg.POW_STAT Fld.POW_STAT_P_EST = min s.calEst.toNat 65535 := by
    rw [State.fld_setFld_self (by decide)]
    exact Nat.mod_eq_of_lt (show min s.calEst.toNat 65535 < 65536 by omega)
  have hcap : (s.setFld Reg.POW_STAT Fld.POW_STAT_P_EST (min s.calEst.toNat 65535)).fld Reg.POW_STAT Fld.POW_STAT_CAP_EFF =
      s.fld Reg.POW_STAT Fld.POW_STAT_CAP_EFF := State.fld_setFld_of_disjoint (by decide)
  have hregs : s.keepsRegs (s.setFld Reg.POW_STAT Fld.POW_STAT_P_EST (min s.calEst.toNat 65535)) (fun k => k ≠ Reg.POW_STAT.key) :=
    keepsRegs_setFld fun h => h rfl
  generalize s.setFld Reg.POW_STAT Fld.POW_STAT_P_EST (min s.calEst.toNat 65535) = v at hset hcal hest hcap hregs
  obtain ⟨hframe, hpower⟩ := addWatch_frame (s := v)
  have hvregs : v.addEstimate.watchCap.regs = v.regs := by rw [hframe]
  generalize v.addEstimate.watchCap = w at hframe hpower hvregs
  obtain ⟨kframe, kfields⟩ := capMet_facts (s := w)
  have kregs := keepsRegs_capMet (s := w)
  generalize w.capMet = t at kframe kfields kregs ⊢
  have htpower : t.power = w.power := by rw [kframe]
  refine ⟨kframe.trans ?_, ?_, ?_, ?_, keepsRegs_trans hregs (keepsRegs_trans (keepsRegs_of_regs hvregs) kregs)⟩
  · rw [htpower, hframe, hset]
  · rw [htpower, hpower, hcal, hset]
  · rw [floor_other kfields (by decide), State.fld_of_regs hvregs, hest]
  · rw [floor_other kfields (by decide), State.fld_of_regs hvregs, hcap]

/-! ## The limiter's step -/

/-- TARGET that the limiter gives a quadrant. -/
def State.limitTarget (s : State) (q : Nat) : Nat := if tget 0 s.power.droopAt q = s.now + 1 then s.opNow q else s.opNow q + 1

/-- The limiter's next turn. -/
def State.turnAt (s : State) (n ptr : Nat) : State := { s with power := { s.power with limitNext := n, limitPtr := ptr } }

/-- Quadrant q a point slower. -/
def State.limited (s : State) (q ptr : Nat) : State :=
  ((s.turnAt (s.now + 4000) ptr).lowerTarget q (s.limitTarget q)).bump (Reg.POW_QCNT q) Fld.POW_QCNT_LIMIT

/-- The quadrants that may go slower. -/
def State.mayLower (s : State) : List Bool := (List.range 4).map fun q => decide (s.opNow q < 5)

theorem limitStep_eq : s.limitStep = match pickHighest s.mayLower ((List.range 4).map s.qest) s.power.limitPtr with
    | (some q, ptr) => s.limited q ptr
    | (none, _) => s := rfl

theorem turnAt_fld {n ptr : Nat} {r : RegRef} {f : Field} : (s.turnAt n ptr).fld r f = s.fld r f := State.fld_of_regs rfl

theorem getD_range_map_nat {f : Nat → Nat} {i n : Nat} (hi : i < n) : ((List.range n).map f).getD i 0 = f i := by
  simp [List.getD_eq_getElem?_getD, hi]

/-- What the limiter's step on quadrant q leaves. -/
theorem limited_spec {ptr : Nat} (hq5 : s.opNow q < 5) (ht : t = s.limited q ptr) :
    t.opTarget q = s.limitTarget q ∧ t.opTarget q ≤ t.opNow q ∧ s.counted t (Reg.POW_QCNT q) Fld.POW_QCNT_LIMIT 1 ∧
      t.power = { s.power with limitNext := s.now + 4000, limitPtr := ptr, raiseAt := t.power.raiseAt } ∧
      (∀ k, k ≠ q → t.opTarget k = s.opTarget k ∧ t.opNow k = s.opNow k) ∧ t = { s with regs := t.regs, power := t.power } ∧
      (∀ k, t.qest k = s.qest k) ∧ ∀ f, t.fld Reg.POW_STAT f = s.fld Reg.POW_STAT f := by
  have hlim : s.limitTarget q ≤ 5 := by
    unfold State.limitTarget
    split <;> omega
  have hturn : s.turnAt (s.now + 4000) ptr = { s with power := (s.turnAt (s.now + 4000) ptr).power } := rfl
  have hturnp : (s.turnAt (s.now + 4000) ptr).power = { s.power with limitNext := s.now + 4000, limitPtr := ptr } := rfl
  have hflds : ∀ r f, (s.turnAt (s.now + 4000) ptr).fld r f = s.fld r f := fun r f => turnAt_fld
  rw [State.limited] at ht
  generalize s.turnAt (s.now + 4000) ptr = v at hturn hturnp hflds ht
  generalize s.limitTarget q = x at hlim ht
  obtain ⟨hframe, hpower, hfields⟩ := lowerTarget_opOnly (s := v) (q := q) (x := x)
  obtain ⟨htarget, hnow⟩ := lowerTarget_target (s := v) (q := q) (x := x)
  generalize v.lowerTarget q x = w at hframe hpower hfields htarget hnow ht
  have hbump := bump_frame (s := w) (r := Reg.POW_QCNT q) (f := Fld.POW_QCNT_LIMIT)
  have hcount : w.counted t (Reg.POW_QCNT q) Fld.POW_QCNT_LIMIT 1 := ht ▸ counted_bump (by decide)
  have hop : ∀ k f, t.fld (Reg.POW_OP k) f = w.fld (Reg.POW_OP k) f := fun k f => by
    rw [ht]
    exact State.fld_bumpBy_ne powQcnt_ne_powOp.symm
  have hstat : ∀ f, t.fld Reg.POW_STAT f = w.fld Reg.POW_STAT f := fun f => by
    rw [ht]
    refine State.fld_bumpBy_ne ?_
    simp only [Reg.POW_STAT, Reg.POW_QCNT]
    omega
  rw [← ht] at hbump
  have htpower : t.power = w.power := by rw [hbump]
  have hmin : min 5 x = x := Nat.min_eq_right hlim
  refine ⟨(hop _ _).trans (htarget.trans hmin), ?_, counted_before hcount ?_, ?_, fun k hk => ⟨?_, ?_⟩, hbump.trans ?_, fun k => ?_, fun f => ?_⟩
  · rw [State.opTarget, State.opNow, hop, hop]
    exact le_trans (ge_of_eq htarget.symm) hnow
  · rw [fieldsBut_notOp hfields powQcnt_ne_powOp, hflds]
  · rw [htpower, hpower, hturnp]
  · rw [State.opTarget, hop, fieldsBut_opFld hfields fun he => absurd he hk, hflds]
    rfl
  · rw [State.opNow, hop, fieldsBut_opFld hfields fun he => absurd he hk, hflds]
    rfl
  · rw [htpower, hframe, hturn]
  · rw [State.qest, hop, fieldsBut_opFld hfields fun _ => by decide, hflds]
    rfl
  · rw [hstat, fieldsBut_notOp hfields powOp_ne_powStat.symm, hflds]

theorem limitStep_picks (h : ∃ q, q < 4 ∧ s.opNow q < 5) : ∃ q ptr, s.limitStep = s.limited q ptr ∧ q < 4 ∧ s.opNow q < 5 ∧
    ∀ k, k < 4 → s.opNow k < 5 → s.qest k ≤ s.qest q := by
  obtain ⟨q0, hq0, h0⟩ := h
  have hmay : ∀ k, k < 4 → s.mayLower.getD k false = decide (s.opNow k < 5) := fun k hk => getD_range_map hk
  obtain ⟨i, n, hpick⟩ := pickHighest_isSome (v := (List.range 4).map s.qest) (ptr := s.power.limitPtr) hq0
    ((hmay q0 hq0).trans (decide_eq_true h0))
  obtain ⟨hi, himay, hhigh⟩ := pickHighest_some hpick
  refine ⟨i, n, ?_, hi, of_decide_eq_true ((hmay i hi).symm.trans himay), fun k hk hk5 => ?_⟩
  · rw [limitStep_eq, hpick]
  · have hle := hhigh k hk ((hmay k hk).trans (decide_eq_true hk5))
    rwa [getD_range_map_nat hk, getD_range_map_nat hi] at hle

theorem limitStep_none (h : ¬∃ q, q < 4 ∧ s.opNow q < 5) : s.limitStep = s := by
  rw [limitStep_eq]
  split
  next q ptr hpick =>
    obtain ⟨hq, hmay, -⟩ := pickHighest_some hpick
    exact absurd ⟨q, hq, of_decide_eq_true ((getD_range_map (f := fun q => decide (s.opNow q < 5)) hq).symm.trans hmay)⟩ h
  next => rfl

/-! ## The whole of a microsecond -/

/-- The limiter's turn comes while the mean exceeds the cap. -/
def State.limits (s : State) : State := if s.overCap && decide (s.power.limitNext ≤ s.now) then s.limitStep else s

theorem exec_fastLimiter (hb : b = s.tick at_) : exec (.fastLimiter at_ qest) s = .next (b.takeQest qest).estimated.limits := by
  subst hb
  rfl

theorem rawEst_eq {e : Nat → Nat} (h : ∀ q, q < 4 → s.qest q = e q) : s.rawEst = e 0 + e 1 + e 2 + e 3 + 240 := by
  have hrange : (List.range 4).map s.qest = [e 0, e 1, e 2, e 3] := by
    rw [← h 0 (by decide), ← h 1 (by decide), ← h 2 (by decide), ← h 3 (by decide)]
    rfl
  rw [State.rawEst, hrange]
  simp only [List.sum_cons, List.sum_nil]
  omega

end Sys2Proof.Machine

end

section
/-! PROOFS. A microsecond of the limiter as a whole, and PTP's reviews (R426, R428, R429). -/

namespace Sys2Proof.Machine

variable {s t u b w : State} {at_ q : Nat} {qest : List Nat}

/-! ## A microsecond -/

/-- What the limiter's turn keeps. -/
theorem limits_kept (ht : t = s.limits) : t = { s with regs := t.regs, power := t.power } ∧ (∀ k, t.qest k = s.qest k) ∧
    (∀ f, t.fld Reg.POW_STAT f = s.fld Reg.POW_STAT f) ∧ t.power.peHist = s.power.peHist := by
  unfold State.limits at ht
  split at ht
  · by_cases h : ∃ q, q < 4 ∧ s.opNow q < 5
    · obtain ⟨q, ptr, hstep, hq, h5, -⟩ := limitStep_picks h
      obtain ⟨-, -, -, hpower, -, hframe, hqest, hstat⟩ := limited_spec h5 (ht.trans hstep)
      exact ⟨hframe, hqest, hstat, by rw [hpower]⟩
    · rw [limitStep_none h] at ht
      subst ht
      exact ⟨rfl, fun _ => rfl, fun _ => rfl, rfl⟩
  · subst ht
    exact ⟨rfl, fun _ => rfl, fun _ => rfl, rfl⟩

theorem limits_waits (h : s.power.peHist.sum ≤ s.capQ * s.power.peHist.length ∨ s.now < s.power.limitNext) : s.limits = s := by
  refine if_neg ?_
  rw [State.overCap, Bool.and_eq_true, decide_eq_true_eq, decide_eq_true_eq]
  rintro ⟨hover, hnext⟩
  rcases h with h | h
  · exact absurd hover (not_lt.mpr h)
  · exact absurd hnext (Nat.not_le.mpr h)

theorem limits_steps (hover : s.capQ * s.power.peHist.length < s.power.peHist.sum) (hnext : s.power.limitNext ≤ s.now) : s.limits = s.limitStep := by
  refine if_pos ?_
  rw [State.overCap, Bool.and_eq_true, decide_eq_true_eq, decide_eq_true_eq]
  exact ⟨hover, hnext⟩

theorem opFld_of_keeps {f : Field} {k : Nat} (h : s.keepsRegs t fun k => k ≠ Reg.POW_STAT.key) : t.fld (Reg.POW_OP k) f = s.fld (Reg.POW_OP k) f :=
  keepsRegs_fld h powOp_ne_powStat

/-- The state before the limiter's turn, from the one at the microsecond's start. -/
def State.measured (b w : State) (e : Nat → Nat) (cap : Nat) (c : Int) : Prop :=
  w = { b with regs := w.regs, power := w.power } ∧ (∀ q, q < 4 → w.qest q = e q) ∧ w.fld Reg.POW_STAT Fld.POW_STAT_CAP_EFF = cap ∧
    w.fld Reg.POW_STAT Fld.POW_STAT_P_EST = min c.toNat 65535 ∧ w.power.peHist = (c :: b.power.peHist).take 4 ∧
    (∀ k, w.opTarget k = b.opTarget k ∧ w.opNow k = b.opNow k) ∧ (∀ k, w.fld (Reg.POW_QCNT k) Fld.POW_QCNT_LIMIT = b.fld (Reg.POW_QCNT k) Fld.POW_QCNT_LIMIT) ∧
    w.power.limitNext = b.power.limitNext ∧ w.power.droopAt = b.power.droopAt

theorem alive_congr {i : Nat} (h : t.fld (Reg.FWP_PROC i) Fld.FWP_PROC_ALIVE = s.fld (Reg.FWP_PROC i) Fld.FWP_PROC_ALIVE) : t.alive i = s.alive i := by
  rw [State.alive, State.alive, State.flag, State.flag, h]

theorem measured_of_taken {e : Nat → Nat} {cap : Nat} {c : Int} (he : ∀ q, e q = min (qest.getD q 0) 65535)
    (hcap : cap = min (capOf (b.fld Reg.POW_CAP Fld.POW_CAP_HOST_CAP)) (capOf (b.fld Reg.POW_CAP Fld.POW_CAP_BMC_CAP)))
    (hc : c = if b.alive 1 = true then b.calibrated (e 0 + e 1 + e 2 + e 3 + 240) else ((e 0 + e 1 + e 2 + e 3 + 240 : Nat) : Int))
    (hu : b.qestTaken u qest) (hw : u.estShown w) : b.measured w e cap c := by
  obtain ⟨hframe, hqest, hcapeff, hops, hother⟩ := hu
  obtain ⟨kframe, kpower, kest, kcap, kregs⟩ := hw
  have hupower : u.power = b.power := by rw [hframe]
  have hraw : u.rawEst = e 0 + e 1 + e 2 + e 3 + 240 := rawEst_eq fun q hq => (hqest q hq).trans (he q).symm
  have halive : u.alive 1 = b.alive 1 := alive_congr (hother _ _ (by decide) fun q hq => by simp only [Reg.FWP_PROC, Reg.POW_OP]; omega)
  have hcal : ∀ f, u.fld Reg.POW_EST_CAL f = b.fld Reg.POW_EST_CAL f := fun f =>
    hother _ _ (by decide) fun q hq => by simp only [Reg.POW_EST_CAL, Reg.POW_OP]; omega
  have hest : u.calEst = c := by
    rw [State.calEst, halive, hraw, hc, State.calibrated, State.calibrated, hcal, hcal]
  refine ⟨kframe.trans (by rw [hframe]), fun q hq => ?_, ?_, ?_, ?_, fun k => ⟨?_, ?_⟩, fun k => ?_, ?_, ?_⟩
  · rw [State.qest, opFld_of_keeps kregs]
    exact (hqest q hq).trans (he q).symm
  · rw [kcap, hcapeff, hcap]
  · rw [kest, hest]
  · rw [kpower, hest, hupower]
  · rw [State.opTarget, opFld_of_keeps kregs, hops _ _ (by decide)]
    rfl
  · rw [State.opNow, opFld_of_keeps kregs, hops _ _ (by decide)]
    rfl
  · have hkey : (Reg.POW_QCNT k).key ≠ Reg.POW_STAT.key := by
      simp only [Reg.POW_QCNT, Reg.POW_STAT]
      omega
    rw [keepsRegs_fld kregs hkey, hother _ _ hkey fun q _ => powQcnt_ne_powOp]
  · rw [kpower, hupower]
  · rw [kpower, hupower]

/-- What a microsecond of the limiter leaves. -/
theorem limits_spec {e : Nat → Nat} {cap : Nat} {c : Int} {hist : List Int} (hhist : hist = (c :: b.power.peHist).take 4) (hw : b.measured w e cap c)
    (ht : t = w.limits) :
    (∀ q, q < 4 → t.qest q = e q) ∧ t.fld Reg.POW_STAT Fld.POW_STAT_CAP_EFF = cap ∧ t.fld Reg.POW_STAT Fld.POW_STAT_P_EST = min c.toNat 65535 ∧
      t.power.peHist = hist ∧
      (hist.sum ≤ 4 * (cap : Int) * hist.length ∨ b.now < b.power.limitNext → ∀ q, q < 4 → t.opTarget q = b.opTarget q ∧ t.opNow q = b.opNow q) ∧
      (4 * (cap : Int) * hist.length < hist.sum → b.power.limitNext ≤ b.now → (∃ q, q < 4 ∧ b.opNow q < 5) →
        ∃ q, q < 4 ∧ b.opNow q < 5 ∧ (∀ k, k < 4 → b.opNow k < 5 → e k ≤ e q) ∧
          t.opTarget q = (if tget 0 b.power.droopAt q = b.now + 1 then b.opNow q else b.opNow q + 1) ∧ t.opTarget q ≤ t.opNow q ∧
          b.counted t (Reg.POW_QCNT q) Fld.POW_QCNT_LIMIT 1 ∧ t.power.limitNext = b.now + 4000 ∧
          ∀ k, k < 4 → k ≠ q → t.opTarget k = b.opTarget k ∧ t.opNow k = b.opNow k) ∧
      t = { b with regs := t.regs, power := t.power } := by
  obtain ⟨hframe, hqest, hcap, hest, hpe, hops, hcnt, hnext, hdroop⟩ := hw
  obtain ⟨kframe, kqest, kstat, kpe⟩ := limits_kept ht
  have hcapQ : w.capQ = 4 * (cap : Int) := by rw [State.capQ, hcap]
  have hnow : w.now = b.now := by rw [hframe]
  have hpe' : w.power.peHist = hist := hpe.trans hhist.symm
  refine ⟨fun q hq => (kqest q).trans (hqest q hq), (kstat _).trans hcap, (kstat _).trans hest, kpe.trans hpe', fun h q hq => ?_,
    fun hover hle hsome => ?_, kframe.trans (by rw [hframe])⟩
  · have hwait : w.limits = w := limits_waits (by rw [hpe', hcapQ, hnow, hnext]; exact h)
    rw [ht, hwait]
    exact hops q
  · have hnow5 : ∀ k, w.opNow k = b.opNow k := fun k => (hops k).2
    have hstep : w.limits = w.limitStep := limits_steps (by rw [hpe', hcapQ]; exact hover) (by rw [hnow, hnext]; exact hle)
    obtain ⟨q0, hq0, h0⟩ := hsome
    obtain ⟨q, ptr, hlim, hq, h5, hhigh⟩ := limitStep_picks (s := w) ⟨q0, hq0, (hnow5 q0).symm ▸ h0⟩
    obtain ⟨htarget, hslow, hcount, hpower, hothers, -, -, -⟩ := limited_spec h5 (ht.trans (hstep.trans hlim))
    refine ⟨q, hq, hnow5 q ▸ h5, fun k hk hk5 => ?_, ?_, hslow, counted_before hcount (hcnt q), ?_, fun k hk hne => ?_⟩
    · rw [← hqest k hk, ← hqest q hq]
      exact hhigh k hk ((hnow5 k).symm ▸ hk5)
    · rw [htarget, State.limitTarget, hdroop, hnow, hnow5]
    · rw [hpower, hnow]
    · obtain ⟨h1, h2⟩ := hothers k hne
      exact ⟨h1.trans (hops k).1, h2.trans (hops k).2⟩

/-! ## The floor (R430) -/

theorem exec_capFloor (hb : b = s.tick at_) : exec (.capFloor at_) s = .next (match b.power.missAt with
    | some m => if m + 1000000 ≤ b.now && !(b.flag Reg.POW_STAT Fld.POW_STAT_CAP_FLOOR) then
        ((b.setFlag Reg.POW_STAT Fld.POW_STAT_CAP_FLOOR true).bump Reg.POW_CNT Fld.POW_CNT_CAP_MISS).fault 0x0503 1 srcHw 0 []
      else b
    | none => b) := by
  subst hb
  show execCapFloor at_ s = _
  unfold execCapFloor
  rfl

/-! ## PTP's reviews (R428) -/

/-- Only operating points differ, and what the arbiters and raises keep. -/
def State.reviewOnly (s t : State) : Prop :=
  t = { s with regs := t.regs, power := t.power } ∧
    t.power = { s.power with raiseAt := t.power.raiseAt, reviewPtr := t.power.reviewPtr, limitPtr := t.power.limitPtr } ∧
    ∀ r f, (∀ q, r.key ≠ (Reg.POW_OP q).key) → t.fld r f = s.fld r f

theorem reviewOnly_refl : s.reviewOnly s := ⟨rfl, rfl, fun _ _ _ => rfl⟩

theorem reviewOnly_trans (h : s.reviewOnly t) (k : t.reviewOnly u) : s.reviewOnly u := by
  obtain ⟨hframe, hpower, hflds⟩ := h
  obtain ⟨kframe, kpower, kflds⟩ := k
  exact ⟨kframe.trans (by rw [hframe]), kpower.trans (by rw [hpower]), fun r f hr => (kflds r f hr).trans (hflds r f hr)⟩

theorem reviewOnly_of_opOnly {fs : List Field} (h : s.opOnly t q fs) : s.reviewOnly t := by
  obtain ⟨hframe, hpower, hfields⟩ := h
  exact ⟨hframe, by rw [hpower], fun r f hr => fieldsBut_notOp hfields (hr q)⟩

theorem reviewOnly_ptrs {n m : Nat} : s.reviewOnly { s with power := { s.power with reviewPtr := n, limitPtr := m } } :=
  ⟨rfl, rfl, fun _ _ _ => State.fld_of_regs rfl⟩

theorem opTarget_ptrs {n m k : Nat} : { s with power := { s.power with reviewPtr := n, limitPtr := m } }.opTarget k = s.opTarget k := State.fld_of_regs rfl

/-- The limiter's pointer moves. -/
theorem setLimitPtr_eq {m : Nat} : { s with power := { s.power with limitPtr := m } } =
    { s with power := { s.power with reviewPtr := s.power.reviewPtr, limitPtr := m } } := rfl

/-- Quadrants are made slower by a point at most, each once. -/
theorem makeRoom_lowers {core : List Nat} {lim pred : Rat} {n : Nat} {left : List Nat} (ht : t = State.makeRoom core lim n left pred s) :
    s.reviewOnly t ∧ ∀ q, t.opTarget q = s.opTarget q ∨ left.contains q = true ∧ t.opTarget q = s.opTarget q + 1 := by
  induction n generalizing left pred s with
  | zero =>
    subst ht
    exact ⟨reviewOnly_refl, fun _ => .inl rfl⟩
  | succ n ih =>
    rw [State.makeRoom] at ht
    split at ht
    · subst ht
      exact ⟨reviewOnly_refl, fun _ => .inl rfl⟩
    · dsimp only at ht
      split at ht
      next i ptr hpick =>
        obtain ⟨hi, hmay, -⟩ := pickHighest_some hpick
        rw [getD_range_map hi, Bool.and_eq_true, Bool.and_eq_true, decide_eq_true_eq] at hmay
        obtain ⟨⟨hleft, h5⟩, -⟩ := hmay
        rw [setLimitPtr_eq] at ht
        have hptr := reviewOnly_ptrs (s := s) (n := s.power.reviewPtr) (m := ptr)
        have hptrT : ∀ k, { s with power := { s.power with reviewPtr := s.power.reviewPtr, limitPtr := ptr } }.opTarget k = s.opTarget k :=
          fun k => opTarget_ptrs
        generalize { s with power := { s.power with reviewPtr := s.power.reviewPtr, limitPtr := ptr } } = v at hptr hptrT ht
        have hlow := lowerTarget_opOnly (s := v) (q := i) (x := s.opTarget i + 1)
        obtain ⟨htarget, -⟩ := lowerTarget_target (s := v) (q := i) (x := s.opTarget i + 1)
        have hotherT : ∀ k, k ≠ i → (v.lowerTarget i (s.opTarget i + 1)).opTarget k = s.opTarget k := fun k hk =>
          (fieldsBut_opFld hlow.2.2 fun he => absurd he hk).trans (hptrT k)
        generalize v.lowerTarget i (s.opTarget i + 1) = x at hlow htarget hotherT ht
        obtain ⟨honly, hrest⟩ := ih ht
        refine ⟨reviewOnly_trans hptr (reviewOnly_trans (reviewOnly_of_opOnly hlow) honly), fun q => ?_⟩
        by_cases hq : q = i
        · subst hq
          have hout : (left.filter (· != q)).contains q = false := by simp
          rcases hrest q with h | ⟨hin, -⟩
          · refine .inr ⟨hleft, h.trans (htarget.trans (Nat.min_eq_right (by omega)))⟩
          · rw [hout] at hin
            cases hin
        · rcases hrest q with h | ⟨hin, h⟩
          · exact .inl (h.trans (hotherT q hq))
          · refine .inr ⟨?_, h.trans (by rw [hotherT q hq])⟩
            rw [List.contains_iff_mem] at hin ⊢
            exact List.mem_of_mem_filter hin
      next =>
        subst ht
        exact ⟨reviewOnly_refl, fun _ => .inl rfl⟩

/-- The order of a review names each quadrant once, and moves the arbiter's pointer only. -/
theorem reviewOrder_facts {n : Nat} {left l : List Nat} (h : State.reviewOrder n left s = (l, t)) :
    l.Nodup ∧ (∀ q ∈ l, q ∈ left) ∧ s.reviewOnly t ∧ ∀ k, t.opTarget k = s.opTarget k := by
  induction n generalizing left l s with
  | zero =>
    obtain ⟨rfl, rfl⟩ := Prod.mk.inj h
    exact ⟨List.nodup_nil, fun q hq => absurd hq List.not_mem_nil, reviewOnly_refl, fun _ => rfl⟩
  | succ n ih =>
    rw [State.reviewOrder] at h
    dsimp only at h
    split at h
    next i ptr hpick =>
      obtain ⟨hi, hreq⟩ := arbitrate_some hpick
      rw [List.length_map, List.length_range] at hi
      rw [getD_range_map hi, Bool.and_eq_true] at hreq
      rcases hrest : State.reviewOrder n (left.filter (· != i)) { s with power := { s.power with reviewPtr := ptr } } with ⟨rest, v⟩
      rw [hrest] at h
      obtain ⟨rfl, rfl⟩ := Prod.mk.inj h
      obtain ⟨hnodup, hsub, honly, htarget⟩ := ih hrest
      refine ⟨List.nodup_cons.mpr ⟨fun hin => ?_, hnodup⟩, fun q hq => ?_, reviewOnly_trans ?_ honly, fun k => (htarget k).trans (State.fld_of_regs rfl)⟩
      · have hmem := hsub i hin
        simp at hmem
      · rcases List.mem_cons.mp hq with rfl | hq
        · exact List.contains_iff_mem.mp hreq.1
        · exact List.mem_of_mem_filter (hsub q hq)
      · exact ⟨rfl, rfl, fun _ _ _ => State.fld_of_regs rfl⟩
    next =>
      obtain ⟨rfl, rfl⟩ := Prod.mk.inj h
      exact ⟨List.nodup_nil, fun q hq => absurd hq List.not_mem_nil, reviewOnly_refl, fun _ => rfl⟩

/-- A quadrant is raised by a point where the prediction still fits. -/
def reviewRaise (core : List Nat) (lim : Rat) (a : State × Rat) (q : Nat) : State × Rat :=
  if a.1.opTarget q = 0 then a
  else if a.2 + a.1.opChange q (core.getD q 0) (a.1.opTarget q - 1) ≤ lim then
    ((a.1.setFld (Reg.POW_OP q) Fld.POW_OP_TARGET (a.1.opTarget q - 1)).wantRaise q, a.2 + a.1.opChange q (core.getD q 0) (a.1.opTarget q - 1))
  else a

theorem reviewRaise_facts {core : List Nat} {lim : Rat} {a : State × Rat} : a.1.reviewOnly (reviewRaise core lim a q).1 ∧
    (∀ k, k ≠ q → (reviewRaise core lim a q).1.opTarget k = a.1.opTarget k) ∧
    ((reviewRaise core lim a q).1.opTarget q = a.1.opTarget q ∨ (reviewRaise core lim a q).1.opTarget q + 1 = a.1.opTarget q) := by
  obtain ⟨v, x⟩ := a
  unfold reviewRaise
  dsimp only
  split
  · exact ⟨reviewOnly_refl, fun _ _ => rfl, .inl rfl⟩
  next h0 =>
    split
    · have hlt : v.opTarget q < 8 := State.fld_lt (f := Fld.POW_OP_TARGET)
      have hset : v.opOnly (v.setFld (Reg.POW_OP q) Fld.POW_OP_TARGET (v.opTarget q - 1)) q targetFields := opOnly_setFld List.mem_cons_self
      have htarget := setTarget_target (s := v) (q := q) (x := v.opTarget q - 1) (by omega)
      generalize v.setFld (Reg.POW_OP q) Fld.POW_OP_TARGET (v.opTarget q - 1) = y at hset htarget
      have hwant : y.opOnly (y.wantRaise q) q clockFields := opOnly_mono wantRaise_opOnly fun _ hf => List.mem_cons_of_mem _ hf
      refine ⟨reviewOnly_trans (reviewOnly_of_opOnly hset) (reviewOnly_of_opOnly hwant), fun k hk => ?_, .inr ?_⟩
      · rw [target_of_clock hwant]
        exact fieldsBut_opFld hset.2.2 fun he => absurd he hk
      · rw [target_of_clock hwant, htarget]
        omega
    · exact ⟨reviewOnly_refl, fun _ _ => rfl, .inl rfl⟩

theorem reviewFold_facts {core : List Nat} {lim : Rat} {l : List Nat} {a : State × Rat} (hl : l.Nodup) :
    a.1.reviewOnly (l.foldl (reviewRaise core lim) a).1 ∧ ∀ q, (l.foldl (reviewRaise core lim) a).1.opTarget q = a.1.opTarget q ∨
      q ∈ l ∧ (l.foldl (reviewRaise core lim) a).1.opTarget q + 1 = a.1.opTarget q := by
  induction l generalizing a with
  | nil => exact ⟨reviewOnly_refl, fun _ => .inl rfl⟩
  | cons i l ih =>
    obtain ⟨hout, hnodup⟩ := List.nodup_cons.mp hl
    obtain ⟨honly, hother, hone⟩ := reviewRaise_facts (core := core) (lim := lim) (a := a) (q := i)
    obtain ⟨konly, krest⟩ := ih (a := reviewRaise core lim a i) hnodup
    rw [List.foldl_cons]
    refine ⟨reviewOnly_trans honly konly, fun q => ?_⟩
    by_cases hq : q = i
    · subst hq
      rcases krest q with h | ⟨hin, -⟩
      · rcases hone with h1 | h1
        · exact .inl (h.trans h1)
        · exact .inr ⟨List.mem_cons_self, by rw [h, h1]⟩
      · exact absurd hin hout
    · rcases krest q with h | ⟨hin, h⟩
      · exact .inl (h.trans (hother q hq))
      · exact .inr ⟨List.mem_cons_of_mem _ hin, h.trans (hother q hq)⟩

/-- PTP drains the result queue where it is its own. -/
def State.resultsDrained (s : State) : State :=
  if s.flag Reg.HKC_CFG Fld.HKC_CFG_QOWN then s else { s with hkc := { s.hkc with queue := [] } }.setFld Reg.HKC_STAT Fld.HKC_STAT_QLEVEL 0

/-- A review begins. -/
def State.reviewBegun (s : State) : State := { s with power := { s.power with reviewAt := s.now, reviewMax := 0 } }

/-- The prediction of a review. -/
def State.predicted (s : State) (core : List Nat) : Rat :=
  (s.power.reviewMax : Rat) / 4 + ((List.range 4).map fun q => s.reserved q (core.getD q 0)).sum

/-- The review's choice. -/
def State.reviewed (s : State) (core : List Nat) : State :=
  if 98 * (s.capQ : Rat) / 100 < s.predicted core then
    State.makeRoom core (98 * (s.capQ : Rat) / 100) 4 [0, 1, 2, 3] (s.predicted core) s.reviewBegun
  else ((State.reviewOrder 4 [0, 1, 2, 3] s.reviewBegun).1.foldl (reviewRaise core (98 * (s.capQ : Rat) / 100))
    ((State.reviewOrder 4 [0, 1, 2, 3] s.reviewBegun).2, s.predicted core)).1

theorem exec_ptpReview {core : List Nat} (hb : b = s.tick at_) : exec (.ptpReview at_ core) s =
    .next (if !(b.alive 1) || (b.power.reviewAt ≠ 0 && b.now < b.power.reviewAt + 100000) then b else b.resultsDrained.reviewed core) := by
  subst hb
  rfl

theorem resultsDrained_facts : s.resultsDrained = { s with regs := s.resultsDrained.regs, hkc := s.resultsDrained.hkc } ∧
    s.keepsRegs s.resultsDrained (fun k => k ≠ Reg.HKC_STAT.key) ∧
    (s.flag Reg.HKC_CFG Fld.HKC_CFG_QOWN = false → s.resultsDrained.hkc.queue = [] ∧ s.resultsDrained.fld Reg.HKC_STAT Fld.HKC_STAT_QLEVEL = 0) ∧
    (s.flag Reg.HKC_CFG Fld.HKC_CFG_QOWN = true → s.resultsDrained.hkc = s.hkc) := by
  unfold State.resultsDrained
  split
  next h => exact ⟨rfl, keepsRegs_refl, fun hc => absurd h (by rw [hc]; exact Bool.false_ne_true), fun _ => rfl⟩
  next h =>
    have hkeep : { s with hkc := { s.hkc with queue := [] } }.keepsRegs
        ({ s with hkc := { s.hkc with queue := [] } }.setFld Reg.HKC_STAT Fld.HKC_STAT_QLEVEL 0) (fun k => k ≠ Reg.HKC_STAT.key) :=
      keepsRegs_setFld fun hk => hk rfl
    refine ⟨rfl, keepsRegs_trans (keepsRegs_of_regs rfl) hkeep, fun _ => ⟨?_, ?_⟩, fun hc => absurd hc h⟩
    · rw [State.setFld_hkc]
    · rw [State.fld_setFld_self (by decide), Nat.zero_mod]

theorem reserved_congr {core : Nat} (htarget : t.opTarget q = s.opTarget q) (hpower : t.power = s.power) (hnow : t.now = s.now) :
    t.reserved q core = s.reserved q core := by
  rw [State.reserved, State.reserved, htarget, State.ridgeLoad, State.ridgeLoad, hpower, hnow]

/-- What a review leaves of the targets. -/
theorem reviewed_spec {core : List Nat} (ht : t = s.reviewed core) : s.reviewBegun.reviewOnly t ∧
    (98 * (s.capQ : Rat) / 100 < s.predicted core → ∀ q, t.opTarget q = s.opTarget q ∨ t.opTarget q = s.opTarget q + 1) ∧
    (s.predicted core ≤ 98 * (s.capQ : Rat) / 100 → ∀ q, t.opTarget q = s.opTarget q ∨ t.opTarget q + 1 = s.opTarget q) := by
  have hbegun : ∀ q, s.reviewBegun.opTarget q = s.opTarget q := fun q => State.fld_of_regs rfl
  unfold State.reviewed at ht
  split at ht
  next hlt =>
    obtain ⟨honly, htarget⟩ := makeRoom_lowers ht
    refine ⟨honly, fun _ q => ?_, fun hle => absurd hlt (not_lt.mpr hle)⟩
    rw [← hbegun q]
    exact (htarget q).imp id And.right
  next hge =>
    rcases horder : State.reviewOrder 4 [0, 1, 2, 3] s.reviewBegun with ⟨l, v⟩
    rw [horder] at ht
    obtain ⟨hnodup, -, honly, htarget⟩ := reviewOrder_facts horder
    obtain ⟨konly, krest⟩ := reviewFold_facts (core := core) (lim := 98 * (s.capQ : Rat) / 100) (a := (v, s.predicted core)) hnodup
    rw [← ht] at konly krest
    refine ⟨reviewOnly_trans honly konly, fun hlt => absurd hlt hge, fun _ q => ?_⟩
    rw [← hbegun q, ← htarget q]
    exact (krest q).imp id And.right

theorem hkcStat_ne_powOp : Reg.HKC_STAT.key ≠ (Reg.POW_OP q).key := by
  simp only [Reg.HKC_STAT, Reg.POW_OP]
  omega

/-- A review of the state at its command. -/
theorem review_spec {core : List Nat} {lim pred : Rat} (hlim : lim = 98 * (b.capQ : Rat) / 100)
    (hpred : pred = (b.power.reviewMax : Rat) / 4 + ((List.range 4).map fun q => b.reserved q (core.getD q 0)).sum)
    (ht : t = b.resultsDrained.reviewed core) : t.power.reviewAt = b.now ∧ t.power.reviewMax = 0 ∧
      (b.flag Reg.HKC_CFG Fld.HKC_CFG_QOWN = false → t.hkc.queue = [] ∧ t.fld Reg.HKC_STAT Fld.HKC_STAT_QLEVEL = 0) ∧
      (b.flag Reg.HKC_CFG Fld.HKC_CFG_QOWN = true → t.hkc = b.hkc) ∧
      (lim < pred → ∀ q, q < 4 → t.opTarget q = b.opTarget q ∨ t.opTarget q = b.opTarget q + 1) ∧
      (pred ≤ lim → ∀ q, q < 4 → t.opTarget q = b.opTarget q ∨ t.opTarget q + 1 = b.opTarget q) ∧
      t = { b with regs := t.regs, power := t.power, hkc := t.hkc } := by
  obtain ⟨hframe, hregs, hown, hnot⟩ := resultsDrained_facts (s := b)
  generalize b.resultsDrained = v at hframe hregs hown hnot ht
  obtain ⟨⟨kframe, kpower, kflds⟩, klower, kraise⟩ := reviewed_spec ht
  have hpower : v.power = b.power := by rw [hframe]
  have hnow : v.now = b.now := by rw [hframe]
  have htarget : ∀ q, v.opTarget q = b.opTarget q := fun q => keepsRegs_fld hregs hkcStat_ne_powOp.symm
  have hcap : v.capQ = b.capQ := capQ_of_fld (keepsRegs_fld hregs (by decide))
  have hpredv : v.predicted core = pred := by
    rw [hpred, State.predicted, hpower]
    refine congrArg (fun l : List Rat => _ + l.sum) (List.map_congr_left fun q _ => reserved_congr (htarget q) hpower hnow)
  have hbegun : v.reviewBegun = { v with power := { v.power with reviewAt := v.now, reviewMax := 0 } } := rfl
  have hflds : ∀ f, v.reviewBegun.fld Reg.HKC_STAT f = v.fld Reg.HKC_STAT f := fun f => State.fld_of_regs rfl
  rw [hcap, ← hlim, hpredv] at klower kraise
  generalize v.reviewBegun = x at hbegun hflds kframe kpower kflds
  have hthkc : t.hkc = v.hkc := by rw [kframe, hbegun]
  have hstat : ∀ f, t.fld Reg.HKC_STAT f = v.fld Reg.HKC_STAT f := fun f => (kflds _ _ fun q => hkcStat_ne_powOp).trans (hflds f)
  have hxpower : x.power = { v.power with reviewAt := v.now, reviewMax := 0 } := by rw [hbegun]
  refine ⟨by rw [kpower, hxpower, hnow], by rw [kpower, hxpower], fun h => ?_, fun h => hthkc.trans (hnot h), fun h q _ => ?_, fun h q _ => ?_, ?_⟩
  · rw [hthkc, hstat]
    exact hown h
  · rw [← htarget q]
    exact klower h q
  · rw [← htarget q]
    exact kraise h q
  · rw [hthkc]
    exact kframe.trans (by rw [hbegun, hframe])

end Sys2Proof.Machine

namespace Sys2Proof
open Machine

/-- Settles O55: the boundaries and droops by the fields they write, the limiter by the quadrant it picks, the reviews by an induction over
the quadrants they move. -/
theorem operatingPointsFollowTheCap : Obligations.OperatingPointsFollowTheCap := by
  unfold Obligations.OperatingPointsFollowTheCap
  refine ⟨fun s q at_ b u i hb hq hi => ⟨fun hraise hgood hbound hlt => ?_, fun h => ?_⟩, fun s q at_ last b hb hq hlast => ⟨fun hne hnow => ?_,
    fun h => ⟨fun h5 => ?_, fun h5 => ?_⟩⟩, fun s at_ cap qest b e c hist hb he hcap hc hhist => ?_, fun s at_ b hb => ⟨fun m hm hnow hflag => ?_, fun h => ?_⟩,
    fun s at_ core b lim pred hb hlim hpred => ⟨fun h => ?_, fun halive h => ?_⟩⟩
  · refine ⟨u.raised q, (exec_boundary hq hb hi).trans (congrArg Host.Outcome.next (if_pos ?_)), raised_spec rfl⟩
    simp only [Bool.and_eq_true, decide_eq_true_eq]
    exact ⟨⟨⟨hraise, hgood⟩, hbound⟩, hlt⟩
  · rw [exec_boundary hq hb hi, stepUp_waits h]
  · rw [exec_droop hq hb, ← hlast, decide_eq_true hne, decide_eq_true hnow]
    rfl
  · rw [exec_droop hq hb, ← hlast]
    refine congrArg Host.Outcome.next ((if_neg ?_).trans (if_pos h5))
    simp only [Bool.and_eq_true, decide_eq_true_eq]
    exact fun hand => h.elim hand.1 (Nat.not_le.mpr hand.2)
  · refine ⟨b.drooped q, ?_, drooped_spec h5 rfl⟩
    rw [exec_droop hq hb, ← hlast]
    refine congrArg Host.Outcome.next ((if_neg ?_).trans (if_neg (Nat.not_le.mpr h5)))
    simp only [Bool.and_eq_true, decide_eq_true_eq]
    exact fun hand => h.elim hand.1 (Nat.not_le.mpr hand.2)
  · exact ⟨_, exec_fastLimiter hb, limits_spec hhist (measured_of_taken he hcap hc takeQest_taken estimated_shown) rfl⟩
  · rw [exec_capFloor hb, hm]
    refine congrArg Host.Outcome.next (if_pos ?_)
    rw [hflag, decide_eq_true hnow]
    rfl
  · rw [exec_capFloor hb]
    refine congrArg Host.Outcome.next ?_
    split
    next m hm =>
      refine if_neg ?_
      rw [Bool.and_eq_true, decide_eq_true_eq, Bool.not_eq_true']
      rintro ⟨hle, hoff⟩
      rcases h with h | ⟨m', hm', hlt⟩ | h
      · rw [hm] at h
        cases h
      · rw [hm] at hm'
        obtain rfl := Option.some.inj hm'
        omega
      · rw [h] at hoff
        cases hoff
    next => rfl
  · rw [exec_ptpReview hb]
    refine congrArg Host.Outcome.next (if_pos ?_)
    rcases h with h | ⟨hne, hlt⟩
    · rw [h]
      rfl
    · rw [decide_eq_true hne, decide_eq_true hlt]
      exact Bool.or_true _
  · refine ⟨_, (exec_ptpReview hb).trans (congrArg Host.Outcome.next (if_neg ?_)), review_spec hlim hpred rfl⟩
    rw [halive]
    simp only [Bool.not_true, Bool.false_or, Bool.and_eq_true, decide_eq_true_eq]
    exact fun hand => h.elim hand.1 fun hle => Nat.not_lt.mpr hle hand.2

end Sys2Proof

end

section
/-! PROOFS. Samples of the temperature sensors, bands and conditions, and the release of their demands (R453 to R461). -/

namespace Sys2Proof.Machine

variable {s t u b : State} {at_ g row q : Nat} {T : Int} {rate : Option Int}

/-! ## Readings -/

/-- Only readings and failures of sensors differ. -/
def State.readOnly (s t : State) : Prop :=
  t = { s with regs := t.regs, faultLog := t.faultLog, therm := t.therm } ∧ t.therm = { s.therm with sensor := t.therm.sensor, bad := t.therm.bad } ∧
    s.keepsRegs t fun k => k ≠ Reg.THM_CNT.key

theorem readOnly_refl : s.readOnly s := ⟨rfl, rfl, keepsRegs_refl⟩

theorem readOnly_trans (h : s.readOnly t) (k : t.readOnly u) : s.readOnly u := by
  obtain ⟨hframe, htherm, hregs⟩ := h
  obtain ⟨kframe, ktherm, kregs⟩ := k
  exact ⟨kframe.trans (by rw [hframe]), ktherm.trans (by rw [htherm]), keepsRegs_trans hregs kregs⟩

theorem readOnly_therm {x : Tbl Int} {y : Tbl Nat} : s.readOnly { s with therm := { s.therm with sensor := x, bad := y } } :=
  ⟨rfl, rfl, keepsRegs_of_regs rfl⟩

theorem readOnly_bump {f : Field} : s.readOnly (s.bump Reg.THM_CNT f) :=
  ⟨bump_frame.trans (by rw [State.bump_faultLog, State.bump_therm]), by rw [State.bump_therm], keepsRegs_bump fun h => h rfl⟩

theorem readOnly_fault {code level source object : Nat} {data : List Byte} : s.readOnly (s.fault code level source object data) :=
  ⟨fault_frame.trans (by rw [State.fault_regs, State.fault_therm]), by rw [State.fault_therm], keepsRegs_of_regs State.fault_regs⟩

theorem readOnly_readSensor {k : Nat} {x : Int} : s.readOnly (s.readSensor g k x) := by
  unfold State.readSensor
  dsimp only
  split
  · exact readOnly_trans (readOnly_trans readOnly_therm readOnly_bump) readOnly_fault
  · exact readOnly_therm

theorem readOnly_readings {l : List (Nat × Int)} : s.readOnly (s.each l fun s x => s.readSensor g x.1 x.2) :=
  each_induction (P := s.readOnly) readOnly_refl fun _ _ _ ht => readOnly_trans ht readOnly_readSensor

/-! ## Bands -/

/-- Only objects' values, drives and calibration differ. -/
def State.objOnly (s t : State) : Prop :=
  t = { s with places := t.places, phys := t.phys, rings := t.rings, lasers := t.lasers, cal := t.cal }

theorem objOnly_refl : s.objOnly s := rfl

theorem objOnly_trans (h : s.objOnly t) (k : t.objOnly u) : s.objOnly u := k.trans (by rw [h])

theorem objOnly_each {α : Type} {xs : List α} {f : State → α → State} (hf : ∀ (t : State) x, t.objOnly (f t x)) : s.objOnly (s.each xs f) :=
  each_induction (P := s.objOnly) objOnly_refl fun t x _ ht => objOnly_trans ht (hf t x)

theorem objOnly_cal {c : Cal} : s.objOnly { s with cal := c } := rfl
theorem objOnly_setPlace {l : Nat} {x : Place} : s.objOnly (s.setPlace l x) := rfl
theorem objOnly_setPhy {i : Nat} {x : Phys} : s.objOnly (s.setPhy i x) := rfl
theorem objOnly_setRing {c r : Nat} {x : Ring} : s.objOnly (s.setRing c r x) := rfl
theorem objOnly_setLaser {n : Nat} {x : Laser} : s.objOnly (s.setLaser n x) := rfl

theorem objOnly_calHold {o : CalObj} : s.objOnly (s.calHold o) := by
  unfold State.calHold
  refine objOnly_each fun t x => ?_
  unfold State.calHoldOne
  dsimp only
  split
  · exact objOnly_cal
  · split
    · exact objOnly_cal
    · exact objOnly_refl

theorem objOnly_enterBand {o : CalObj} : s.objOnly (s.enterBand o) := by
  unfold State.enterBand
  split
  · exact objOnly_refl
  · exact objOnly_calHold

theorem objOnly_applyAt {k : Nat} {r : Ramp} : s.objOnly (s.applyAt k r) := by
  unfold State.applyAt
  split
  · unfold State.applyTile
    exact objOnly_trans (objOnly_each fun _ _ => objOnly_setPlace) objOnly_setPhy
  · unfold State.applyCluster
    dsimp only
    split
    · exact objOnly_trans (objOnly_each fun _ _ => objOnly_setRing) objOnly_setPhy
    · exact objOnly_each fun _ _ => objOnly_setRing
  · exact objOnly_refl

theorem objOnly_switchBand {o : CalObj} : s.objOnly (s.switchBand o) := by
  unfold State.switchBand
  dsimp only
  split
  · exact objOnly_refl
  · split
    · exact objOnly_trans objOnly_cal objOnly_applyAt
    · exact objOnly_trans objOnly_cal (objOnly_trans objOnly_cal objOnly_applyAt)
    · exact objOnly_cal

theorem objOnly_objBand {o : CalObj} : s.objOnly (s.objBand o) := by
  unfold State.objBand
  dsimp only
  split
  · exact objOnly_trans objOnly_enterBand objOnly_switchBand
  · exact objOnly_enterBand

theorem objOnly_clampDrives {c : Nat} {rs : List Nat} : s.objOnly (s.clampDrives c rs) := by
  unfold State.clampDrives
  refine objOnly_each fun t r => ?_
  dsimp only
  split
  · exact objOnly_refl
  · exact objOnly_setRing

/-- Only bands, and what their changes bring, differ; of the registers their count and the region's BAND. -/
def State.bandsOnly (s t : State) (g : Nat) : Prop :=
  t = { s with regs := t.regs, places := t.places, phys := t.phys, rings := t.rings, lasers := t.lasers, cal := t.cal, therm := t.therm } ∧
    t.therm = { s.therm with bands := t.therm.bands, below := t.therm.below } ∧
    s.fieldsBut t [(Reg.THM_CNT, Fld.THM_CNT_BAND_CHG), (Reg.THM_REGION g, Fld.THM_REGION_BAND)]

theorem bandsOnly_refl : s.bandsOnly s g := ⟨rfl, rfl, fieldsBut_refl⟩

theorem bandsOnly_trans (h : s.bandsOnly t g) (k : t.bandsOnly u g) : s.bandsOnly u g := by
  obtain ⟨hframe, htherm, hregs⟩ := h
  obtain ⟨kframe, ktherm, kregs⟩ := k
  exact ⟨kframe.trans (by rw [hframe]), ktherm.trans (by rw [htherm]), fieldsBut_trans hregs kregs⟩

theorem bandsOnly_of_objOnly (h : s.objOnly t) : s.bandsOnly t g := by
  have hregs : t.regs = s.regs := by rw [h]
  have htherm : t.therm = s.therm := by rw [h]
  refine ⟨?_, by rw [htherm], fieldsBut_of_regs hregs⟩
  rw [hregs, htherm]
  exact h

theorem bandsOnly_each {α : Type} {xs : List α} {f : State → α → State} (hf : ∀ (t : State) x, t.bandsOnly (f t x) g) : s.bandsOnly (s.each xs f) g :=
  each_induction (P := fun t => s.bandsOnly t g) bandsOnly_refl fun t x _ ht => bandsOnly_trans ht (hf t x)

theorem bandsOnly_regs (hframe : t = { s with regs := t.regs })
    (h : s.fieldsBut t [(Reg.THM_CNT, Fld.THM_CNT_BAND_CHG), (Reg.THM_REGION g, Fld.THM_REGION_BAND)]) : s.bandsOnly t g :=
  ⟨by rw [hframe], by rw [hframe], h⟩

theorem bandsOnly_bump : s.bandsOnly (s.bump Reg.THM_CNT Fld.THM_CNT_BAND_CHG) g := bandsOnly_regs bump_frame (fieldsBut_bump (List.mem_cons_self ..))

theorem bandsOnly_setBand {x : Nat} : s.bandsOnly (s.setFld (Reg.THM_REGION g) Fld.THM_REGION_BAND x) g :=
  bandsOnly_regs setFld_frame (fieldsBut_setFld (List.mem_cons_of_mem _ (List.mem_cons_self ..)))

theorem bandsOnly_bandMoved {r k : Nat} : s.bandsOnly (s.bandMoved r k) g := by
  unfold State.bandMoved
  dsimp only
  split
  · exact bandsOnly_trans bandsOnly_bump (bandsOnly_of_objOnly objOnly_objBand)
  · split
    · split
      · exact bandsOnly_trans bandsOnly_bump (bandsOnly_of_objOnly (objOnly_trans objOnly_objBand objOnly_clampDrives))
      · exact bandsOnly_trans bandsOnly_bump (bandsOnly_of_objOnly (objOnly_trans (objOnly_each fun _ _ => objOnly_enterBand) objOnly_clampDrives))
    · exact bandsOnly_bump

theorem bandsOnly_stepBand {key : Nat} : s.bandsOnly (s.stepBand key T).1 g := ⟨rfl, rfl, fieldsBut_of_regs rfl⟩

/-- The bands of the objects of a region. -/
def State.objBands (s : State) (g : Nat) : State :=
  s.each (List.range (sensorsOf g)) fun s k =>
    if (s.stepBand (sensorKey g k) (s.tempAt g k)).2 then (s.stepBand (sensorKey g k) (s.tempAt g k)).1.bandMoved g k
    else (s.stepBand (sensorKey g k) (s.tempAt g k)).1

theorem bandsOnly_objBands : s.bandsOnly (s.objBands g) g := by
  refine bandsOnly_each fun t k => ?_
  split
  · exact bandsOnly_trans bandsOnly_stepBand bandsOnly_bandMoved
  · exact bandsOnly_stepBand

/-- The band of a region's maximum. -/
def State.maxBand (s : State) (g : Nat) (T : Int) : State :=
  let s2 := (s.stepBand (regionBandKey g) T).1
  let s3 := s2.setFld (Reg.THM_REGION g) Fld.THM_REGION_BAND (tget 0 s2.therm.bands (regionBandKey g))
  if (s.stepBand (regionBandKey g) T).2 && 4 ≤ g && g < 8 then
    (s3.bump Reg.THM_CNT Fld.THM_CNT_BAND_CHG).each (((List.range 256).map fun k => 256 * (g - 4) + k).filter laserOk) fun s n =>
      (s.enterBand (.laser n)).setLaser n { s.laser n with heater := s.limitTune n (s.laser n).heater }
  else s3

theorem stepBands_eq : s.stepBands g T = if 12 < g then (if g < 12 then s.objBands g else s) else (if g < 12 then s.objBands g else s).maxBand g T := rfl

theorem bandsOnly_maxBand : s.bandsOnly (s.maxBand g T) g := by
  unfold State.maxBand
  dsimp only
  split
  · exact bandsOnly_trans (bandsOnly_trans bandsOnly_stepBand bandsOnly_setBand) (bandsOnly_trans bandsOnly_bump
      (bandsOnly_of_objOnly (objOnly_each fun _ _ => objOnly_trans objOnly_enterBand objOnly_setLaser)))
  · exact bandsOnly_trans bandsOnly_stepBand bandsOnly_setBand

theorem bandsOnly_stepBands : s.bandsOnly (s.stepBands g T) g := by
  have hobj : s.bandsOnly (if g < 12 then s.objBands g else s) g := by
    split
    · exact bandsOnly_objBands
    · exact bandsOnly_refl
  rw [stepBands_eq]
  split
  · exact hobj
  · exact bandsOnly_trans hobj bandsOnly_maxBand

/-! ## Conditions -/

theorem condHolds_congr (h : ∀ f, t.fld Reg.THM_CFG f = s.fld Reg.THM_CFG f) : t.condHolds row T rate = s.condHolds row T rate := by
  unfold State.condHolds State.riseCrit State.riseWarn
  rw [h, h, h]

/-- A register outside the operating points and the count of thermal events. -/
def offConds (r : RegRef) : Prop := r.key ≠ Reg.THM_CNT.key ∧ ∀ q, q < 4 → r.key ≠ (Reg.POW_OP q).key

/-- Registers kept while conditions begin. -/
def State.condsKeep (s t : State) : Prop := ∀ r f, offConds r → t.fld r f = s.fld r f

theorem condsKeep_trans (h : s.condsKeep t) (k : t.condsKeep u) : s.condsKeep u := fun r f hr => (k r f hr).trans (h r f hr)

theorem condsKeep_of_regs (h : t.regs = s.regs) : s.condsKeep t := fun _ _ _ => State.fld_of_regs h

theorem condsKeep_bumpBy {f : Field} {n : Nat} : s.condsKeep (s.bumpBy Reg.THM_CNT f n) := fun _ _ hr => State.fld_bumpBy_ne hr.1

theorem condsKeep_raisesDropped {lv : Nat} : s.condsKeep (s.raisesDropped lv) := fun _ _ hr => fieldsBut_allOps raisesDropped_facts.2.2 hr.2

theorem thmCfg_offConds : offConds Reg.THM_CFG := ⟨by decide, fun q hq => by simp only [Reg.THM_CFG, Reg.POW_OP]; omega⟩

theorem thmStat_offConds : offConds Reg.THM_STAT := ⟨by decide, fun q hq => by simp only [Reg.THM_STAT, Reg.POW_OP]; omega⟩

theorem thmRegion_offConds : offConds (Reg.THM_REGION g) := by
  constructor
  · simp only [Reg.THM_REGION, Reg.THM_CNT]
    omega
  · intro q hq
    simp only [Reg.THM_REGION, Reg.POW_OP]
    omega

/-- The condition of one row and quadrant as it begins. -/
def State.newCond (s : State) (g row q : Nat) : Cond :=
  { region := g, quad := q, row := row, level := condLevel row, demand := condFirst row (s.opNow q), stepAt := s.now }

/-- The conditions of one row begin. -/
def State.condsBegun (s : State) (g row : Nat) : List Cond :=
  (s.therm.conds.filter fun c => !(c.region == g && c.row == row)) ++ (condQuads g).map (s.newCond g row)

/-- The conditions listed. -/
def State.withConds (s : State) (l : List Cond) : State := { s with therm := { s.therm with conds := l } }

/-- A condition counted and logged. -/
def State.condTold (s : State) (g row : Nat) : State :=
  let s2 := ((s.withConds (s.condsBegun g row)).bump Reg.THM_CNT (if condLevel row = 1 then Fld.THM_CNT_WARN else Fld.THM_CNT_CRIT)).fault 0x0502
    (condLevel row) srcHw g (leBytes 2 (s.fld (Reg.THM_REGION g) Fld.THM_REGION_TMAX))
  if row = 1 || row = 2 then s2.bump Reg.THM_CNT Fld.THM_CNT_RISE else s2

theorem condBegins_eq : s.condBegins g row =
    (if condLevel row = 2 then (s.condTold g row).each (List.range 4) fun s q => s.dropRaise q else s.condTold g row).pldm 2 g := rfl

theorem condTold_facts : (s.condTold g row).therm = { s.therm with conds := s.condsBegun g row } ∧ s.condsKeep (s.condTold g row) := by
  have hwith : (s.withConds (s.condsBegun g row)).therm = { s.therm with conds := s.condsBegun g row } := rfl
  have hkeep : s.condsKeep (s.withConds (s.condsBegun g row)) := condsKeep_of_regs rfl
  unfold State.condTold
  generalize s.withConds (s.condsBegun g row) = v at hwith hkeep ⊢
  dsimp only
  split
  · rw [State.bump_therm, State.fault_therm, State.bump_therm]
    exact ⟨hwith, condsKeep_trans hkeep (condsKeep_trans condsKeep_bumpBy (condsKeep_trans (condsKeep_of_regs State.fault_regs) condsKeep_bumpBy))⟩
  · rw [State.fault_therm, State.bump_therm]
    exact ⟨hwith, condsKeep_trans hkeep (condsKeep_trans condsKeep_bumpBy (condsKeep_of_regs State.fault_regs))⟩

theorem condBegins_facts : (s.condBegins g row).therm = { s.therm with conds := s.condsBegun g row } ∧ s.condsKeep (s.condBegins g row) := by
  obtain ⟨htherm, hkeep⟩ := condTold_facts (s := s) (g := g) (row := row)
  rw [condBegins_eq]
  generalize s.condTold g row = v at htherm hkeep ⊢
  have hdrop : (if condLevel row = 2 then v.each (List.range 4) fun s q => s.dropRaise q else v).therm = v.therm ∧
      v.condsKeep (if condLevel row = 2 then v.each (List.range 4) fun s q => s.dropRaise q else v) := by
    obtain ⟨hframe, -, -⟩ := raisesDropped_facts (s := v) (lv := 2)
    split
    · refine ⟨?_, condsKeep_raisesDropped (lv := 2)⟩
      show (v.raisesDropped 2).therm = v.therm
      rw [hframe]
    · exact ⟨rfl, fun _ _ _ => rfl⟩
  generalize (if condLevel row = 2 then v.each (List.range 4) fun s q => s.dropRaise q else v) = w at hdrop ⊢
  rw [State.pldm_therm, hdrop.1]
  exact ⟨htherm, condsKeep_trans hkeep (condsKeep_trans hdrop.2 (condsKeep_of_regs State.pldm_regs))⟩

theorem condOn_of_conds {l : List Cond} (h : t.therm.conds = l) : t.condOn g row = l.any fun c => c.region == g && c.row == row && !c.ended := by
  rw [State.condOn, h]

theorem condQuads_ne_nil : condQuads g ≠ [] := by
  unfold condQuads
  split
  · simp
  · split <;> simp

theorem condsBegun_on {k : Nat} : ((s.condsBegun g row).any fun c => c.region == g && c.row == k && !c.ended) = (decide (k = row) || s.condOn g k) := by
  rw [State.condsBegun, List.any_append, State.condOn]
  by_cases hk : k = row
  · subst hk
    rw [decide_eq_true rfl, Bool.true_or, Bool.or_eq_true]
    refine .inr ?_
    obtain ⟨q, hq⟩ := List.exists_mem_of_ne_nil _ (condQuads_ne_nil (g := g))
    exact List.any_eq_true.mpr ⟨_, List.mem_map_of_mem hq, by simp [State.newCond]⟩
  · rw [decide_eq_false hk, Bool.false_or]
    have hnew : ((condQuads g).map (s.newCond g row)).any (fun c => c.region == g && c.row == k && !c.ended) = false := by
      rw [List.any_eq_false]
      intro c hc
      obtain ⟨q, -, rfl⟩ := List.mem_map.mp hc
      simp only [State.newCond, beq_self_eq_true, Bool.true_and, Bool.and_eq_true, beq_iff_eq, not_and]
      exact fun he => absurd he.symm hk
    rw [hnew, Bool.or_false, List.any_filter]
    refine congrArg (fun f => s.therm.conds.any f) (funext fun c => ?_)
    by_cases hc : c.row = k
    · have hrow : (c.row == row) = false := beq_eq_false_iff_ne.mpr (hc ▸ hk)
      rw [hrow, Bool.and_false, Bool.not_false, Bool.true_and]
    · rw [beq_eq_false_iff_ne.mpr hc, Bool.and_false, Bool.false_and, Bool.and_false]

theorem condBegins_on {k : Nat} : (s.condBegins g row).condOn g k = (decide (k = row) || s.condOn g k) := by
  rw [condOn_of_conds (l := s.condsBegun g row) (by rw [condBegins_facts.1]), condsBegun_on]

/-- One row of a region compared. -/
def State.rowStep (s : State) (g : Nat) (T : Int) (rate : Option Int) (row : Nat) : State :=
  if s.condHolds row T rate && !(s.condOn g row) && !(row == 1 && s.condOn g 2) then s.condBegins g row else s

theorem rowStep_facts : s.condsKeep (s.rowStep g T rate row) ∧ (∀ k, s.condOn g k = true → (s.rowStep g T rate row).condOn g k = true) ∧
    (s.condHolds row T rate = true → row ≠ 1 ∨ s.condOn g 2 = false → (s.rowStep g T rate row).condOn g row = true) := by
  unfold State.rowStep
  split
  next h =>
    refine ⟨condBegins_facts.2, fun k hk => ?_, fun _ _ => ?_⟩
    · rw [condBegins_on, hk, Bool.or_true]
    · rw [condBegins_on, decide_eq_true rfl, Bool.true_or]
  next h =>
    refine ⟨fun _ _ _ => rfl, fun k hk => hk, fun hholds hfree => ?_⟩
    by_contra hoff
    refine h ?_
    rw [Bool.not_eq_true] at hoff
    rw [hholds, hoff]
    rcases hfree with h1 | h2
    · rw [beq_eq_false_iff_ne.mpr h1]
      rfl
    · rw [h2, Bool.and_false]
      rfl

/-- The rows of a region compared one after the other. -/
theorem rowSteps_facts {rows : List Nat} (ht : t = s.each rows fun s row => s.rowStep g T rate row) : s.condsKeep t ∧
    (∀ k, s.condOn g k = true → t.condOn g k = true) ∧
    ∀ row ∈ rows, s.condHolds row T rate = true → row ≠ 1 ∨ t.condOn g 2 = false → t.condOn g row = true := by
  induction rows generalizing s with
  | nil =>
    subst ht
    exact ⟨fun _ _ _ => rfl, fun _ h => h, fun row hrow => absurd hrow List.not_mem_nil⟩
  | cons x xs ih =>
    obtain ⟨hkeep, hmono, hon⟩ := rowStep_facts (s := s) (g := g) (T := T) (rate := rate) (row := x)
    obtain ⟨kkeep, kmono, kon⟩ := ih (s := s.rowStep g T rate x) ht
    refine ⟨condsKeep_trans hkeep kkeep, fun k hk => kmono k (hmono k hk), fun row hrow hholds hfree => ?_⟩
    rcases List.mem_cons.mp hrow with rfl | hrow
    · refine kmono _ (hon hholds (hfree.imp id fun h2 => ?_))
      by_contra hc
      rw [Bool.not_eq_false] at hc
      rw [kmono 2 (hmono 2 hc)] at h2
      cases h2
    · exact kon row hrow ((condHolds_congr fun f => hkeep _ f thmCfg_offConds).trans hholds) hfree

/-! ## What the conditions show -/

/-- The highest level of the conditions active. -/
def topLevel (l : List Cond) : Nat := ((l.filter fun c => !c.ended).map Cond.level).foldl max 0

/-- The highest level of those of a region. -/
def regionLevel (l : List Cond) (g : Nat) : Nat := (((l.filter fun c => !c.ended).filter fun c => c.region == g).map Cond.level).foldl max 0

/-- EMERG, COOL_ALM and LEVEL of the conditions. -/
def State.levelsShown (s : State) (g : Nat) : State :=
  ((s.setFld Reg.THM_STAT Fld.THM_STAT_EMERG (topLevel s.therm.conds)).setFlag Reg.THM_STAT Fld.THM_STAT_COOL_ALM (s.condOn 13 4)).setFld
    (Reg.THM_REGION g) Fld.THM_REGION_LEVEL (regionLevel s.therm.conds g)

theorem freshTherm_eq : s.freshTherm g = ((s.levelsShown g).each (List.range 4) fun s q => s.freshCeil q).freshBoost := rfl

theorem thmStat_ne_region : Reg.THM_STAT.key ≠ (Reg.THM_REGION g).key := by
  simp only [Reg.THM_STAT, Reg.THM_REGION]
  omega

theorem levelsShown_facts : s.levelsShown g = { s with regs := (s.levelsShown g).regs } ∧
    (s.levelsShown g).fld Reg.THM_STAT Fld.THM_STAT_EMERG = topLevel s.therm.conds % 4 ∧
    (s.levelsShown g).fld (Reg.THM_REGION g) Fld.THM_REGION_LEVEL = regionLevel s.therm.conds g % 4 ∧
    s.fieldsBut (s.levelsShown g) [(Reg.THM_STAT, Fld.THM_STAT_EMERG), (Reg.THM_STAT, Fld.THM_STAT_COOL_ALM), (Reg.THM_REGION g, Fld.THM_REGION_LEVEL)] := by
  unfold State.levelsShown
  refine ⟨regs_frame_trans (regs_frame_trans setFld_frame setFld_frame) setFld_frame, ?_, State.fld_setFld_self (by decide),
    fieldsBut_trans (fieldsBut_trans (fieldsBut_setFld (by simp)) (fieldsBut_setFlag (by simp))) (fieldsBut_setFld (by simp))⟩
  rw [State.fld_setFld_ne thmStat_ne_region, State.fld_setFlag_of_disjoint (by decide), State.fld_setFld_self (by decide)]
  rfl

/-- The ceilings of the four quadrants made fresh. -/
def State.ceilsFresh (s : State) : State := s.each (List.range 4) fun s q => s.freshCeil q

/-- Only ceilings differ, each as it was or the demands' maximum. -/
def State.ceilsMade (s t : State) : Prop :=
  t = { s with regs := t.regs, power := t.power } ∧ t.power = { s.power with raiseAt := t.power.raiseAt } ∧ s.fieldsBut t (allOps ceilFields) ∧
    ∀ q, t.opCeil q = s.opCeil q ∨ t.opCeil q = min 5 (s.ceilDemand q)

theorem ceilsMade_refl : s.ceilsMade s := ⟨rfl, rfl, fieldsBut_refl, fun _ => .inl rfl⟩

theorem ceilsMade_freshCeil {m : Nat} (hm : m < 4) (ht : s.ceilsMade t) : s.ceilsMade (t.freshCeil m) := by
  obtain ⟨hframe, hpower, hfields, hceil⟩ := ht
  obtain ⟨kframe, kpower, kfields⟩ := freshCeil_opOnly (s := t) (q := m)
  refine ⟨kframe.trans (by rw [hframe]), kpower.trans (by rw [hpower]), fieldsBut_trans hfields (allOps_of_one hm kfields), fun q => ?_⟩
  by_cases hq : q = m
  · subst hq
    have hdemand : t.ceilDemand q = s.ceilDemand q := by
      have htherm : t.therm = s.therm := by rw [hframe]
      have hpceil : t.power.ceil = s.power.ceil := by rw [hpower]
      rw [State.ceilDemand, State.ceilDemand, htherm, hpceil]
    rcases freshCeil_ceil (s := t) (q := q) with ⟨-, h⟩ | h
    · rw [h]
      exact hceil q
    · rw [h, hdemand]
      exact .inr rfl
  · have hkeep : (t.freshCeil m).opCeil q = t.opCeil q := fieldsBut_opFld kfields fun he => absurd he hq
    rw [hkeep]
    exact hceil q

theorem ceilsFresh_made : s.ceilsMade s.ceilsFresh :=
  each_induction (P := s.ceilsMade) ceilsMade_refl fun _ _ hm ht => ceilsMade_freshCeil (List.mem_range.mp hm) ht

/-- What the conditions show. -/
def State.thermShown (s t : State) (g : Nat) : Prop :=
  t = { s with regs := t.regs, power := t.power } ∧ t.fld Reg.THM_STAT Fld.THM_STAT_EMERG = topLevel s.therm.conds % 4 ∧
    t.fld (Reg.THM_REGION g) Fld.THM_REGION_LEVEL = regionLevel s.therm.conds g % 4 ∧
    (∀ f, f.lo + f.w ≤ Fld.THM_REGION_LEVEL.lo ∨ Fld.THM_REGION_LEVEL.lo + Fld.THM_REGION_LEVEL.w ≤ f.lo →
      t.fld (Reg.THM_REGION g) f = s.fld (Reg.THM_REGION g) f) ∧ t.power.ceil = s.power.ceil ∧
    ∀ q, q < 4 → t.opCeil q = s.opCeil q ∨ t.opCeil q = min 5 (s.ceilDemand q)

theorem freshTherm_shown : s.thermShown (s.freshTherm g) g := by
  have heq : s.freshTherm g = (s.levelsShown g).ceilsFresh.freshBoost := freshTherm_eq
  rw [heq]
  obtain ⟨hframe, hemerg, hlevel, hfields⟩ := levelsShown_facts (s := s) (g := g)
  generalize s.levelsShown g = v at hframe hemerg hlevel hfields ⊢
  obtain ⟨kframe, kpower, kfields, kceil⟩ := ceilsFresh_made (s := v)
  generalize v.ceilsFresh = w at kframe kpower kfields kceil ⊢
  obtain ⟨bframe, bpower, bfields, -⟩ := freshBoost_facts (s := w)
  generalize w.freshBoost = t at bframe bpower bfields ⊢
  have hkeep : ∀ r f, offConds r → t.fld r f = v.fld r f := fun r f hr => (fieldsBut_allOps bfields hr.2).trans (fieldsBut_allOps kfields hr.2)
  have hvpower : v.power = s.power := by rw [hframe]
  have hvceil : ∀ q, q < 4 → v.opCeil q = s.opCeil q := fun q hq => hfields _ _ fun x hx hkey => by
    simp only [List.mem_cons, List.not_mem_nil, or_false] at hx
    rcases hx with rfl | rfl | rfl
    · exact absurd hkey (thmStat_offConds.2 q hq)
    · exact absurd hkey (thmStat_offConds.2 q hq)
    · exact absurd hkey (thmRegion_offConds.2 q hq)
  have hvdemand : ∀ q, v.ceilDemand q = s.ceilDemand q := fun q => by
    have htherm : v.therm = s.therm := by rw [hframe]
    rw [State.ceilDemand, State.ceilDemand, htherm, hvpower]
  refine ⟨bframe.trans (by rw [kframe, hframe]), (hkeep _ _ thmStat_offConds).trans hemerg, (hkeep _ _ thmRegion_offConds).trans hlevel, fun f hf => ?_, ?_,
    fun q hq => ?_⟩
  · rw [hkeep _ _ thmRegion_offConds]
    refine hfields _ _ fun x hx hkey => ?_
    simp only [List.mem_cons, List.not_mem_nil, or_false] at hx
    rcases hx with rfl | rfl | rfl
    · exact absurd hkey thmStat_ne_region
    · exact absurd hkey thmStat_ne_region
    · exact ⟨rfl, hf⟩
  · rw [bpower, kpower, hvpower]
  · have hboost : t.opCeil q = w.opCeil q := fieldsBut_allOpFld bfields (by decide)
    rw [hboost, ← hvceil q hq, ← hvdemand q]
    exact kceil q

end Sys2Proof.Machine

end

section
/-! PROOFS. THERMAL_SAMPLE and DEMAND_RELEASE as a whole (R453 to R458). -/

namespace Sys2Proof.Machine

variable {s t u v b : State} {at_ g row q failed : Nat} {T : Int} {rate : Option Int} {temps : List Int} {hist : List (Nat × Int)}

/-- A sample kept in the region's history. -/
def State.recorded (s : State) (g : Nat) (hist : List (Nat × Int)) : State :=
  { s with therm := { s.therm with
      known := if s.therm.known.contains g then s.therm.known else g :: s.therm.known, hist := tset [] s.therm.hist (regionBandKey g) hist } }

/-- TMAX, FAILED and RATE of a region. -/
def State.sampleShown (s : State) (g : Nat) (T : Int) (failed : Nat) (rate : Option Int) : State :=
  ((s.setFld (Reg.THM_REGION g) Fld.THM_REGION_TMAX (unsigned 12 (max (-2048) (min 2047 T)))).setFld (Reg.THM_REGION g) Fld.THM_REGION_FAILED failed).setFld
    (Reg.THM_REGION g) Fld.THM_REGION_RATE (unsigned 8 (max (-128) (min 127 (rate.getD 0))))

/-- A Trip's cause kept. -/
def State.tripKept (s : State) (g : Nat) (T : Int) : State := { s with therm := { s.therm with tripped := true, lastTrip := g, tripMax := T } }

/-- What a sample of a region leaves. -/
def State.tempTaken (s : State) (g : Nat) (T : Int) (rate : Option Int) : State :=
  if g ≤ 12 && decide (1840 ≤ T) then (s.tripKept g T).powerOff else (s.stepBands g T).stepConds g T rate

/-- The rate and the history after a sample. -/
def State.riseOf (s : State) (g : Nat) (T : Int) : Option Int × List (Nat × Int) :=
  if hasRate g then riseRate (tget [] s.therm.hist (regionBandKey g)) s.now T else (none, [])

theorem riseOf_rate : (s.riseOf g T).1 = if hasRate g = true then (riseRate (tget [] s.therm.hist (regionBandKey g)) s.now T).1 else none := by
  unfold State.riseOf
  split <;> rfl

theorem exec_thermalSample (hb : b = s.tick at_) (hg : g < 15)
    (hu : u = b.each ((List.range (sensorsOf g)).zip temps) fun (s : State) (x : Nat × Int) => s.readSensor g x.1 x.2) (hT : T = u.regionMax g) :
    exec (.thermalSample g temps at_) s = .next (if b.powered = true then
      ((u.recorded g (u.riseOf g T).2).sampleShown g T (sensorsOf g - (u.goodSensors g).length) (u.riseOf g T).1).tempTaken g T (u.riseOf g T).1 else b) := by
  show execThermalSample g temps at_ s = _
  unfold execThermalSample
  rw [← hb]
  dsimp only
  rw [← hu, ← hT, decide_eq_true hg]
  unfold State.riseOf
  cases b.powered <;> rfl

theorem unsigned_lt {n : Nat} {i : Int} : unsigned n i < 2 ^ n := by
  have h : (0 : Int) < ((2 ^ n : Nat) : Int) := Int.natCast_pos.mpr (by positivity)
  have h1 := Int.emod_nonneg i h.ne'
  have h2 := Int.emod_lt_of_pos i h
  unfold unsigned
  omega

theorem sampleShown_facts (ht : t = s.sampleShown g T failed rate) : t = { s with regs := t.regs } ∧
    t.fld (Reg.THM_REGION g) Fld.THM_REGION_TMAX = unsigned 12 (max (-2048) (min 2047 T)) ∧
    t.fld (Reg.THM_REGION g) Fld.THM_REGION_FAILED = failed % 512 ∧
    t.fld (Reg.THM_REGION g) Fld.THM_REGION_RATE = unsigned 8 (max (-128) (min 127 (rate.getD 0))) ∧
    s.keepsRegs t fun k => k ≠ (Reg.THM_REGION g).key := by
  subst ht
  unfold State.sampleShown
  refine ⟨regs_frame_trans (regs_frame_trans setFld_frame setFld_frame) setFld_frame, ?_, ?_, ?_,
    keepsRegs_trans (keepsRegs_trans (keepsRegs_setFld fun h => h rfl) (keepsRegs_setFld fun h => h rfl)) (keepsRegs_setFld fun h => h rfl)⟩
  · rw [State.fld_setFld_of_disjoint (by decide), State.fld_setFld_of_disjoint (by decide), State.fld_setFld_self (by decide)]
    exact Nat.mod_eq_of_lt unsigned_lt
  · rw [State.fld_setFld_of_disjoint (by decide), State.fld_setFld_self (by decide)]
    rfl
  · rw [State.fld_setFld_self (by decide)]
    exact Nat.mod_eq_of_lt unsigned_lt

/-- The conditions listed, with the rises counted. -/
def State.risesCounted (s : State) (l : List Cond) (n : Nat) : State := (s.withConds l).bumpBy Reg.THM_CNT Fld.THM_CNT_RISE n

/-- The conditions of a region taken through a sample, with those that ended and with the rises among them. -/
def State.condsStepped (s : State) (g : Nat) (T : Int) (rate : Option Int) : List Cond :=
  s.therm.conds.map fun c => if c.region = g && !c.ended then s.condStep T rate c else c

/-- The rows whose demand rose. -/
def State.rowsRisen (s : State) (g : Nat) (T : Int) (rate : Option Int) : Nat :=
  (((s.therm.conds.zip (s.condsStepped g T rate)).filter fun x =>
    x.1.region == g && (x.1.row == 1 || x.1.row == 2) && x.1.demand < x.2.demand).map fun x => x.1.row).eraseDups.length

/-- The rows of a region compared one after the other. -/
def State.rowsStepped (s : State) (g : Nat) (T : Int) (rate : Option Int) : State := s.each (condRows g) fun s row => s.rowStep g T rate row

theorem stepConds_eq : s.stepConds g T rate = ((s.risesCounted ((s.condsStepped g T rate).filter fun c => !(c.ended && c.demand == 0))
    (s.rowsRisen g T rate)).rowsStepped g T rate).freshTherm g := rfl

/-- What a sample shows of a region's conditions. -/
def State.condsShown (s t : State) (g : Nat) (T : Int) (rate : Option Int) : Prop :=
  (∀ f, f.lo + f.w ≤ Fld.THM_REGION_LEVEL.lo ∨ Fld.THM_REGION_LEVEL.lo + Fld.THM_REGION_LEVEL.w ≤ f.lo →
    t.fld (Reg.THM_REGION g) f = s.fld (Reg.THM_REGION g) f) ∧
  (∀ row ∈ condRows g, s.condHolds row T rate = true → row ≠ 1 ∨ t.condOn g 2 = false → t.condOn g row = true) ∧
  t.fld Reg.THM_STAT Fld.THM_STAT_EMERG = topLevel t.therm.conds % 4 ∧
  t.fld (Reg.THM_REGION g) Fld.THM_REGION_LEVEL = regionLevel t.therm.conds g % 4

theorem stepConds_shown (ht : t = s.stepConds g T rate) : s.condsShown t g T rate := by
  rw [stepConds_eq] at ht
  have hcount : ∀ l n, s.condsKeep (s.risesCounted l n) := fun l n =>
    condsKeep_trans (t := s.withConds l) (condsKeep_of_regs rfl) condsKeep_bumpBy
  replace hcount := hcount ((s.condsStepped g T rate).filter fun c => !(c.ended && c.demand == 0)) (s.rowsRisen g T rate)
  generalize s.risesCounted _ _ = v at ht hcount
  obtain ⟨hrows, -, hon⟩ := rowSteps_facts (s := v) (g := g) (T := T) (rate := rate) (rows := condRows g) rfl
  change v.condsKeep (v.rowsStepped g T rate) at hrows
  change ∀ row ∈ condRows g, v.condHolds row T rate = true → row ≠ 1 ∨ (v.rowsStepped g T rate).condOn g 2 = false →
    (v.rowsStepped g T rate).condOn g row = true at hon
  generalize v.rowsStepped g T rate = w at ht hrows hon
  obtain ⟨hframe, hemerg, hlevel, hfields, -, -⟩ := freshTherm_shown (s := w) (g := g)
  rw [← ht] at hframe hemerg hlevel hfields
  have htherm : t.therm = w.therm := by rw [hframe]
  have hcond : ∀ row, t.condOn g row = w.condOn g row := fun row => by rw [State.condOn, State.condOn, htherm]
  have hkeep : s.condsKeep w := condsKeep_trans hcount hrows
  refine ⟨fun f hf => (hfields f hf).trans (hkeep _ f thmRegion_offConds), fun row hrow hholds hfree => ?_, by rw [htherm]; exact hemerg,
    by rw [htherm]; exact hlevel⟩
  rw [hcond] at hfree ⊢
  exact hon row hrow ((condHolds_congr fun f => hcount _ f thmCfg_offConds).trans hholds) hfree

theorem regionLevel_eq {l : List Cond} : regionLevel l g = ((l.filter fun c => !c.ended && c.region == g).map Cond.level).foldl max 0 := by
  unfold regionLevel
  rw [List.filter_filter]
  exact congrArg (fun p => ((l.filter p).map Cond.level).foldl max 0) (funext fun c => Bool.and_comm _ _)

theorem thmCfg_ne_region : Reg.THM_CFG.key ≠ (Reg.THM_REGION g).key := by
  simp only [Reg.THM_CFG, Reg.THM_REGION]
  omega

/-- What a sample of a region that does not trip shows. -/
theorem sampled_shown (hframe : b.readOnly u) (hv : v = (u.recorded g hist).sampleShown g T failed rate) (ht : t = (v.stepBands g T).stepConds g T rate) :
    t.fld (Reg.THM_REGION g) Fld.THM_REGION_TMAX = unsigned 12 (max (-2048) (min 2047 T)) ∧
    t.fld (Reg.THM_REGION g) Fld.THM_REGION_FAILED = failed % 512 ∧
    t.fld (Reg.THM_REGION g) Fld.THM_REGION_RATE = unsigned 8 (max (-128) (min 127 (rate.getD 0))) ∧ (∀ row ∈ condRows g, b.condHolds row T rate = true → row ≠ 1 ∨ t.condOn g 2 = false → t.condOn g row = true) ∧
    t.fld Reg.THM_STAT Fld.THM_STAT_EMERG = topLevel t.therm.conds % 4 ∧
    t.fld (Reg.THM_REGION g) Fld.THM_REGION_LEVEL = regionLevel t.therm.conds g % 4 := by
  obtain ⟨vframe, htmax, hfailed, hrate, hregs⟩ := sampleShown_facts hv
  have hbands := (bandsOnly_stepBands (s := v) (g := g) (T := T)).2.2
  generalize v.stepBands g T = w at hbands ht
  obtain ⟨hfields, hrows, hemerg, hlevel⟩ := stepConds_shown ht
  have hregion : ∀ f, (f.lo + f.w ≤ Fld.THM_REGION_BAND.lo ∨ Fld.THM_REGION_BAND.lo + Fld.THM_REGION_BAND.w ≤ f.lo) →
      w.fld (Reg.THM_REGION g) f = v.fld (Reg.THM_REGION g) f := fun f hf => hbands _ f fun x hx hkey => by
    simp only [List.mem_cons, List.not_mem_nil, or_false] at hx
    rcases hx with rfl | rfl
    · exact absurd hkey.symm thmRegion_offConds.1
    · exact ⟨rfl, hf⟩
  have hcfg : ∀ f, w.fld Reg.THM_CFG f = b.fld Reg.THM_CFG f := fun f => by
    rw [hbands Reg.THM_CFG f fun x hx hkey => ?_, keepsRegs_fld hregs thmCfg_ne_region]
    · exact keepsRegs_fld (t := u.recorded g hist) (keepsRegs_trans hframe.2.2 (keepsRegs_of_regs rfl)) (by decide)
    · simp only [List.mem_cons, List.not_mem_nil, or_false] at hx
      rcases hx with rfl | rfl
      · exact absurd hkey (by decide)
      · exact absurd hkey.symm thmCfg_ne_region
  refine ⟨?_, ?_, ?_, ?_, hemerg, hlevel⟩
  · rw [hfields _ (by decide), hregion _ (by decide), htmax]
  · rw [hfields _ (by decide), hregion _ (by decide), hfailed]
  · rw [hfields _ (by decide), hregion _ (by decide), hrate]
  · exact fun row hrow hholds => hrows row hrow ((condHolds_congr hcfg).trans hholds)

theorem now_of_readOnly (h : s.readOnly t) : t.now = s.now := by rw [h.1]

theorem flash_of_readOnly (h : s.readOnly t) : t.flash = s.flash := by rw [h.1]

/-- What a sample that trips leaves. -/
theorem tripped_spec (hframe : b.readOnly u) (hv : v = (u.recorded g hist).sampleShown g T failed rate) (ht : t = (v.tripKept g T).powerOff) :
    t.therm.tripped = true ∧ t.therm.lastTrip = g ∧ t.therm.tripMax = T ∧ t.therm.offAt = b.now ∧ t.ctxs = [] ∧ t.mem = {} ∧ t.flash = b.flash := by
  obtain ⟨vframe, -⟩ := sampleShown_facts hv
  obtain ⟨-, hoff, hctxs, -, hmem, -, hflash, htrip, hlast, hmax, -⟩ := powerOff_spec ht
  have hnow : v.now = b.now := (show v.now = (u.recorded g hist).now by rw [vframe]).trans (now_of_readOnly (t := u) hframe)
  have hvflash : v.flash = b.flash := (show v.flash = (u.recorded g hist).flash by rw [vframe]).trans (flash_of_readOnly (t := u) hframe)
  exact ⟨htrip, hlast, hmax, hoff.trans hnow, hctxs, hmem, hflash.trans hvflash⟩

/-! ## DEMAND_RELEASE -/

/-- A demand of an ended condition released. -/
def State.released (s : State) (g : Nat) : List Cond :=
  (s.therm.conds.map fun (c : Cond) => if c.region = g && c.ended && c.stepAt + 1000000 ≤ s.now then
    { c with demand := c.demand - 1, stepAt := s.now } else c).filter fun c => !(c.ended && c.demand == 0)

theorem exec_demandRelease (hb : b = s.tick at_) (hg : g < 15) :
    exec (.demandRelease g at_) s = .next ((b.withConds (b.released g)).freshTherm g) := by
  show execDemandRelease g at_ s = _
  unfold execDemandRelease
  rw [← hb]
  dsimp only
  rw [decide_eq_true hg]
  rfl

theorem released_eq : s.released g = (s.therm.conds.map fun (c : Cond) => if c.region = g ∧ c.ended = true ∧ c.stepAt + 1000000 ≤ s.now then
    { c with demand := c.demand - 1, stepAt := s.now } else c).filter fun c => !(c.ended && c.demand == 0) := by
  unfold State.released
  simp only [Bool.and_eq_true, decide_eq_true_eq, and_assoc]

theorem demandRelease_spec {l : List Cond} (ht : t = (s.withConds l).freshTherm g) : t.therm.conds = l ∧
    (∀ q, q < 4 → t.opCeil q = s.opCeil q ∨ t.opCeil q = min 5 (((t.therm.conds.filter fun c => c.quad == q).map Cond.demand).foldl max
      (max (tget 0 s.power.ceil q) (tget 0 s.power.ceil (4 + q))))) ∧
    t = { s with regs := t.regs, therm := t.therm, power := t.power } := by
  obtain ⟨hframe, -, -, -, -, hceil⟩ := freshTherm_shown (s := s.withConds l) (g := g)
  rw [← ht] at hframe hceil
  have htherm : t.therm = (s.withConds l).therm := by rw [hframe]
  have hconds : t.therm.conds = l := by rw [htherm]; rfl
  refine ⟨hconds, fun q hq => ?_, hframe.trans (by rw [htherm]; rfl)⟩
  rw [hconds]
  exact hceil q hq

end Sys2Proof.Machine

namespace Sys2Proof

open Machine

/-- Settles O57: a sample shows its readings, its conditions begin and their levels show, and demands of ended conditions are released. -/
theorem temperaturesRaiseConditions : Obligations.TemperaturesRaiseConditions := by
  unfold Obligations.TemperaturesRaiseConditions
  refine ⟨fun s g at_ temps b u T rate hb hg hu hT hrate => ?_, fun s g at_ b hb hg => ?_⟩
  · have hexec := exec_thermalSample (temps := temps) hb hg hu hT
    have hread : b.readOnly u := by
      rw [hu]
      exact readOnly_readings
    rw [← riseOf_rate] at hrate
    rw [← hrate] at hexec
    refine ⟨fun hoff => ?_, fun hon hle htrip => ?_, fun hon hok => ?_⟩
    · rw [hexec, hoff]
      rfl
    · refine ⟨_, hexec.trans (congrArg Host.Outcome.next (if_pos hon)), ?_⟩
      rw [State.tempTaken, decide_eq_true hle, decide_eq_true htrip]
      exact tripped_spec hread rfl rfl
    · have hcond : ¬(decide (g ≤ 12) && decide (1840 ≤ T)) = true := by
        rw [Bool.and_eq_true, decide_eq_true_eq, decide_eq_true_eq]
        omega
      refine ⟨_, hexec.trans (congrArg Host.Outcome.next (if_pos hon)), ?_⟩
      rw [State.tempTaken, if_neg hcond]
      obtain ⟨htmax, hfailed, hrateOf, hrows, hemerg, hlevel⟩ := sampled_shown hread rfl rfl
      exact ⟨htmax, hfailed, hrateOf, hrows, hemerg, hlevel.trans (by rw [regionLevel_eq])⟩
  · obtain ⟨hconds, hceil, hframe⟩ := demandRelease_spec (s := b) (g := g) (l := b.released g) rfl
    exact ⟨_, exec_demandRelease hb hg, hconds.trans released_eq, hceil, hframe⟩

end Sys2Proof

end

section
/-! PROOFS. Crashes of the firmware processors (R474 to R476): a lane of the machine's own records that no port has. -/

namespace Sys2Proof.Machine

variable {s b : State} {i at_ : Nat} {cause : CrashCause}

/-- A crash of a processor, when it counts: its record, then what its reset costs. -/
def State.crashes (s : State) (i : Nat) (cause : CrashCause) : State :=
  let r := Reg.FWP_PROC i
  let c := crashCode cause
  let s1 := (s.bump r Fld.FWP_PROC_RESTARTS).setFld r Fld.FWP_PROC_LAST_CAUSE c
  let s2 := (s1.setFld r Fld.FWP_PROC_LAST_TIME (s.time / 1000)).fault 0x0701 1 srcHw i (leBytes 1 c)
  let ts := (s.proc i).restarts.filter (fun t => s.time < t + 60000000000) ++ [s.time]
  let s3 := s2.setProc i { s2.proc i with restarts := ts }
  (if 4 ≤ ts.length then s3.pldm 3 i else s3).procGone i fun _ => false

theorem exec_watchdog (hb : b = s.tick at_) (hi : i < 8) (hphase : 9 ≤ b.phase) (hact : b.fw.phase < 3) :
    exec (.watchdog i cause at_) s = .next (b.crashes i cause) := by
  show execWatchdog i cause at_ s = _
  unfold execWatchdog
  rw [← hb]
  dsimp only
  rw [decide_eq_true hi]
  refine congrArg Host.Outcome.next (if_neg ?_)
  rw [Bool.or_eq_true, Bool.not_eq_true', decide_eq_false_iff_not, decide_eq_true_eq]
  omega

/-- The register of lane 16 of port 2352 would stand where processor 0's does. -/
theorem laneReg_eq_fwpProc : (laneReg 2352 16).key = (Reg.FWP_PROC 0).key := by decide

/-- A ring that is VERIFIED and whose window has just matched. -/
def litRing : Ring := { st := .verified, matchedAt := some 0 }

/-- After step 8, with a calibration run of lane 16 of a port 2352, which is UP and lit. -/
def strayLane : State := { State.reset with
  regs := [(Reg.CLK_START.key, 9), ((Reg.LNK_PORT_STAT 2352).key, 2), ((Reg.LAS_STAT 100416).key, 16)],
  rings := [(ringKey (portCluster 2352) 32, litRing), (ringKey (portCluster 2352) 33, litRing)],
  cal := { running := [(.lane 40000, 0, 0)] } }

theorem strayLane_exec : exec (.watchdog 0 .watchdog 0) strayLane = .next ((strayLane.tick 0).crashes 0 .watchdog) :=
  exec_watchdog rfl (by decide) (by decide) (by decide)

theorem strayLane_alive : ((strayLane.tick 0).crashes 0 .watchdog).alive 0 = true := by decide

end Sys2Proof.Machine

namespace Sys2Proof
open Machine

/-- Refutes O60: the crash gives a lane back whose STATE lies in the processor's own register, and ALIVE reads 1 again. -/
theorem not_processorsRestartAndRecordsAreWritten : ¬ Obligations.ProcessorsRestartAndRecordsAreWritten := by
  unfold Obligations.ProcessorsRestartAndRecordsAreWritten
  rintro ⟨hcrash, -⟩
  obtain ⟨t, hexec, halive, -⟩ := (hcrash strayLane 0 0 .watchdog _ _ rfl (by decide) rfl).2 (by decide) (by decide)
  have ht : (strayLane.tick 0).crashes 0 .watchdog = t := Host.Outcome.next.inj (strayLane_exec.symm.trans hexec)
  rw [← ht, strayLane_alive] at halive
  cases halive

end Sys2Proof

end

section
/-! PROOFS. The Scree scanner (R201, R206): a context of a partition that no module has, whose settings lie among another's. -/

namespace Sys2Proof.Machine

/-- PARK_NOSPACE of a partition 9280 would stand in window 6 of partition 0. -/
theorem partCnt_eq_secWin : (Reg.KVT_PART_CNT 9280).key = (Reg.SEC_WIN 6).key := by decide

/-- A step in flight that carries no context. -/
def emptyStep : Step :=
  { id := 0, builtAt := 0, slots := [], npos := 0, predicted := 0, gen := 0, profile := 1, sparse := false, escSat := 0, escZro := 0,
    chkCfg := 0, mdtCfg := 0, indCfg := 0 }

/-- A PAUSED context of a partition 9280, which parks at once and has no Scree region, under a placement of partition 0 that has a step in
flight. -/
def strayPark : State := { State.reset with
  regs := [((Reg.KVT_SCREE_CFG 9280).key, 0)],
  ctxs := [(0, { st := .paused, part := 9280 })],
  places := [(0, { present := true, step := some emptyStep })] }

theorem strayPark_due : strayPark.sched.scanAt ≠ strayPark.time / 10000000 + 1 := by decide

/-- What the scan of a state leaves. -/
def State.scanned (s : State) : State :=
  { s with sched := { s.sched with scanAt := s.time / 10000000 + 1 } }.each (tkeys s.ctxs) fun s i => s.scanCtx i

theorem exec_screeScan {s b : State} {at_ : Nat} (hb : b = s.tick at_) (hdue : b.sched.scanAt ≠ b.time / 10000000 + 1) :
    exec (.screeScan at_) s = .next b.scanned := by
  show execScreeScan at_ s = _
  unfold execScreeScan
  rw [← hb]
  exact congrArg Host.Outcome.next (if_neg hdue)

theorem strayPark_kept : ((strayPark.tick 0).scanned.auxOf 0).park.isSome = false ∧
    (strayPark.tick 0).scanned.fld (Reg.KVT_PART_CNT 9280) Fld.KVT_PART_CNT_PARK_NOSPACE = 0 := by decide

end Sys2Proof.Machine

namespace Sys2Proof
open Machine

/-- Refutes O45: the scanner finds no room for a context's image and counts it in PARK_NOSPACE, which the settings of the placement in flight
overwrite. -/
theorem not_contextsArePaged : ¬ Obligations.ContextsArePaged := by
  unfold Obligations.ContextsArePaged
  rintro ⟨-, -, hscan⟩
  obtain ⟨t, hexec, -, hctx, -⟩ := (hscan strayPark 0 _ rfl).2 (by decide)
  have ht : (strayPark.tick 0).scanned = t := Host.Outcome.next.inj ((exec_screeScan rfl (by decide)).symm.trans hexec)
  obtain ⟨-, -, hpark, -⟩ := hctx 0 (by decide) _ _ _ rfl rfl rfl
  rcases hpark (by decide) (by decide) (by decide) (by decide) (.inl (by decide)) with h | h
  · rw [← ht, strayPark_kept.1] at h
    cases h
  · rw [← ht] at h
    exact absurd h (by rw [show ((strayPark.tick 0).ctx 0).part = 9280 from by decide, strayPark_kept.2]; decide)

end Sys2Proof

end

section
/-! PROOFS. The global cairn of an activation (R228, R485): a lane of the machine's own records that no port has. -/

namespace Sys2Proof.Machine

/-- `strayLane` at an activation's cairn, after a crash of processor 0 that its watchdog found. -/
def strayCairn : State := { strayLane with
  regs := ((Reg.FWP_PROC 0).key, 2) :: strayLane.regs
  fw := { act := some (0, 0), phase := 2, cairnWanted := true } }

/-- What a global cairn with an activation that waits for it leaves. -/
def State.cairnSwitched (s : State) (bank : Nat) : State :=
  let s1 := (s.each (List.range 4) fun s q => s.quadrantCairn q).replaceAll (s.each (List.range 4) fun s q => s.quadrantCairn q).clk.tileWant
  ({ s1 with fw := { s1.fw with prevBank := s1.fld Reg.FWP_BOOT Fld.FWP_BOOT_BOOTED_BANK } }.actPhase 3).switchBank bank

theorem strayCairn_exec : exec (.globalCairn 0) strayCairn = .next ((strayCairn.tick 0).cairnSwitched 0) := rfl

theorem strayCairn_alive : ((strayCairn.tick 0).cairnSwitched 0).alive 0 = true := by decide +kernel

end Sys2Proof.Machine

namespace Sys2Proof
open Machine

/-- Refutes O46: the switch of the firmware banks gives a lane back whose STATE lies in processor 0's register, and ALIVE reads 1 again. -/
theorem not_cairnsSwapsAndScrubsTakeEffect : ¬ Obligations.CairnsSwapsAndScrubsTakeEffect := by
  unfold Obligations.CairnsSwapsAndScrubsTakeEffect
  rintro ⟨-, hglobal, -⟩
  obtain ⟨t, hexec, -, -, hact⟩ := (hglobal strayCairn 0 _ rfl).2 (by decide)
  have ht : (strayCairn.tick 0).cairnSwitched 0 = t := Host.Outcome.next.inj (strayCairn_exec.symm.trans hexec)
  obtain ⟨-, -, -, -, -, halive⟩ := hact 0 0 (by decide) (by decide) (by decide)
  have hdead := halive 0 (by decide)
  rw [← ht, strayCairn_alive] at hdead
  cases hdead

end Sys2Proof

end

section
/-! PROOFS. The end of a lane's calibration run (R411): a lane of a port that no module has, whose PROT lies among the figures of the first. -/

namespace Sys2Proof.Machine

/-- PORT_STAT of a port 128 would stand where lane 1's figures do. -/
theorem portStat_eq_lane : (Reg.LNK_PORT_STAT 128).key = (Reg.LNK_LANE 1).key := by decide

/-- The result of a lane's run whose error ratio is too high, with no margin. -/
def badLaneRun : CalResult := { bareResult with berOk := false }

/-- CP and the processor that a lane of port 128 needs are ALIVE; a run of lane 1 is in progress and one of lane 0 of port 128 is requested. -/
def strayRequest : State := { State.reset with
  regs := [((Reg.FWP_PROC 0).key, 1), ((Reg.FWP_PROC 25).key, 1)],
  ports := [(128, { laneMap := 1 })],
  cal := { running := [(.lane 1, 0, 0)], held := [.lane 2176] } }

/-- What the end of lane 1's failed run leaves. -/
def State.laneRunFailed (s : State) : State :=
  (({ s with cal := { s.cal with running := s.cal.running.filter fun x => calKey x.1 != calKey (.lane 1) } }.laneFails 1 (0, 0, 0)).calEnds
    (.lane 1)).startRuns

theorem strayRequest_exec : exec (.calRunEnd (.lane 1) badLaneRun 0) strayRequest = .next (strayRequest.tick 0).laneRunFailed := rfl

theorem strayRequest_margin : (strayRequest.tick 0).laneRunFailed.fld (Reg.LNK_LANE 1) Fld.LNK_LANE_MARGIN = 128 := by decide +kernel

end Sys2Proof.Machine

namespace Sys2Proof
open Machine

/-- Refutes O47: the run that is taken up next announces a stripe in a PROT bit that lies in the lane's MARGIN. -/
theorem not_calibrationRunsBetweenSteps : ¬ Obligations.CalibrationRunsBetweenSteps := by
  unfold Obligations.CalibrationRunsBetweenSteps
  rintro ⟨-, -, hend, -⟩
  obtain ⟨-, -, hber⟩ := hend strayRequest (.lane 1) (.lane 1) badLaneRun 0 0 0 _ rfl (by decide) (.inr (by decide))
  obtain ⟨t, hexec, -, -, -, -, hmargin⟩ := hber 1 (by decide) rfl (by decide) rfl
  have ht : (strayRequest.tick 0).laneRunFailed = t := Host.Outcome.next.inj (strayRequest_exec.symm.trans hexec)
  rw [← ht, strayRequest_margin] at hmargin
  exact absurd hmargin (by decide)

end Sys2Proof

end

section
/-! PROOFS. Packets and what is another partition's (R203, R217, R523): a CLOSED context of partition 2, for whose frames a park of partition 2
still waits, and a KV_RESTORE of partition 1 that names it. -/

namespace Sys2Proof.Machine

/-- An image with one self-attention layer of one head, so that a context at position 5 has a page to restore. -/
def onePage : Image :=
  { bytes := 4096, tiles := 1, vocab := 1000,
    layers := [⟨2, 0, 0, 0, 0, 0, 0, 0, 32, 32, 0, 0, 0, 0, 0, 0, 0, 0, 0, []⟩], atts := [⟨32, 1, 0, 32, 0, 1, 0, 0, []⟩] }

/-- Ring pair 1 of function f enabled, with eight slots produced. -/
def pairFields (f : Nat) : List (RegRef × Field × Nat) :=
  [(Reg.SCH_RING_CFG f 1, Fld.SCH_RING_CFG_EN, 1), (Reg.SCH_RING_CFG f 1, Fld.SCH_RING_CFG_SQ_LOG2, 6),
   (Reg.SCH_RING_CFG f 1, Fld.SCH_RING_CFG_CQ_LOG2, 6), (Reg.SCH_SQ_DB f 1, Fld.SCH_SQ_DB_SQ_TAIL, 8)]

/-- A READY module with partition 1 and its context range; context 0, in it, is CLOSED and was partition 2's, whose ring pair 1 is enabled. -/
def strayRestore : State :=
  { State.reset with
    clk := { running := true }, sched := { dPtr := 16 }, models := [(0, { st := .loaded, img := onePage })],
    ctxs := [(0, { part := 2, pair := 1, pos := 5 })], parts := [(2, { retWaits := [⟨0, []⟩] })] }.each
    ([(Reg.CLK_START, Fld.CLK_START_PHASE, 15), (Reg.SEC_PART 1, Fld.SEC_PART_EXISTS, 1), (Reg.SCH_CTX_RANGE 1, Fld.SCH_CTX_RANGE_COUNT, 64)] ++
      pairFields 1 ++ pairFields 2) fun s x => s.setFld x.1 x.2.1 x.2.2

/-- The header of a KV_RESTORE of partition 1. -/
def restoreHdr : Hdr := { fn := 1, ring := 1, cls := 0, part := 1, flags := 0, seq := 0, length := 8, rsv := 0, tag := 0 }

/-- The restore finds no table of partition 2 and completes on its ring pair. -/
theorem exec_strayRestore : ∃ t, exec (.kvRestore restoreHdr 0 0) strayRestore = .next t ∧ (tget {} t.pairs 65).out.length = 1 :=
  ⟨_, rfl, by decide +kernel⟩

/-- Context 0 is CLOSED, its pair is a ring pair, no KV_PARK waits for a reply, and nothing is cached. -/
theorem strayRestore_premises : (strayRestore.ctx 0).st = .closed ∧ (strayRestore.ctx 0).pair < 32 ∧ (strayRestore.auxOf 0).park = none ∧
    strayRestore.aux = [] ∧ (tget {} strayRestore.pairs 65).out.length = 0 := by decide +kernel

end Sys2Proof.Machine

namespace Sys2Proof
open Machine

/-- Refutes O28: KV_RESTORE of a context whose park waits for its frames is not checked for the context's state, so that it restores a CLOSED
context of another partition, and the completion goes to that partition's ring pair. -/
theorem not_packetsDoNotReachOtherPartitions : ¬ Obligations.PacketsDoNotReachOtherPartitions := by
  unfold Obligations.PacketsDoNotReachOtherPartitions
  intro h
  obtain ⟨t, hexec, hout⟩ := exec_strayRestore
  obtain ⟨hst, hpair, hpark, haux, hnone⟩ := strayRestore_premises
  have hnamed : ∀ i, ctxNamed (.kvRestore restoreHdr 0 0) = some i →
      ((strayRestore.ctx i).st = .closed ∨ (strayRestore.ctx i).part = restoreHdr.fn) ∧ (strayRestore.ctx i).pair < 32 ∧
        ∀ m g o, (strayRestore.auxOf i).park = some m → m.reply = some (g, o) → g.fn = restoreHdr.fn ∧ g.ring < 32 := by
    rintro i ⟨⟩
    refine ⟨.inl hst, hpair, fun m g o hm _ => ?_⟩
    cases hpark.symm.trans hm
  have hkept := (h _ restoreHdr 0x0D 8 strayRestore t rfl (by decide) hexec hnamed (by rw [haux]; simp)).2.1 65 (by decide)
  rw [hkept] at hout
  exact absurd (hnone.symm.trans hout) (by decide)

end Sys2Proof

end

section
/-! PROOFS. SESSION_CLOSE and the free ring (R192, R220): a context of a partition that no module has, whose free ring's indices lie among
another's windows. -/

namespace Sys2Proof.Machine

section
variable {s t : State} {h : Hdr}

theorem reply_ok_parts {op : Nat} : (s.reply h op stOK 0 0).parts = s.parts := by rw [repliesOnly_reply.1]

theorem reply_ok_keepsRegs {op : Nat} : s.keepsRegs (s.reply h op stOK 0 0) (notFnStat h.fn) := by
  rw [reply_eq, badCounted_ok]
  split
  · exact keepsRegs_trans (keepsRegs_of_regs seqDone_regs) fenceSweep_keepsRegs
  · split
    · exact keepsRegs_trans (keepsRegs_trans (keepsRegs_of_regs seqDone_regs) (keepsRegs_bump fun hk => hk rfl)) fenceSweep_keepsRegs
    · exact post_keepsRegs

theorem post_parts {f r : Nat} {o : Out} : (s.post f r o).parts = s.parts := by rw [repliesOnly_post.1]

/-- The OK reply of a packet, at once or held for the twin, changes no partition. -/
theorem replyHeld_parts {op : Nat} : (s.replyHeld t h op).parts = s.parts := by
  unfold State.replyHeld State.postHeld
  split
  · exact reply_ok_parts
  · dsimp only
    split
    · rfl
    · exact post_parts

/-- It changes no register but the function's counts. -/
theorem replyHeld_keepsRegs {op : Nat} : s.keepsRegs (s.replyHeld t h op) (notFnStat h.fn) := by
  unfold State.replyHeld State.postHeld
  split
  · exact reply_ok_keepsRegs
  · dsimp only
    split
    · exact keepsRegs_of_regs rfl
    · exact post_keepsRegs

end

/-! ## A context of partition 9280 -/

/-- The free ring's indices of a partition 9280 would stand in window 3 of partition 0. -/
theorem freeIdx_eq_secWin : (Reg.KVT_FREE_IDX 9280).key = (Reg.SEC_WIN 3).key := by decide

/-- A step in flight that carries no context; by its settings the free ring of partition 9280 has two places, one of them filled. -/
def ringStep : Step :=
  { id := 0, builtAt := 0, slots := [], npos := 0, predicted := 0, gen := 0, profile := 1, sparse := false, escSat := 0, escZro := 0,
    chkCfg := 0, mdtCfg := 0, indCfg := 0,
    regs := [((Reg.KVT_FREE_RING 9280).key, 1), ((Reg.KVT_FREE_IDX 9280).key, 0x100000000)] }

/-- The memory of partition 9280: a level-1 table, a level-2 table, and a frame for page 0. -/
def strayTables : Mem :=
  (({ zeroed := [(0, 0x80000000)] } : Mem).write (some 0) 0x40000000 (leBytes 8 0x40200001)).write (some 0) 0x40200000 (leBytes 8 0x4040000B)

/-- A READY module with an OPEN context of partition 9280, which has one frame, under a placement of partition 0 that has a step in flight; one
frame of partition 9280 waits already. -/
def strayClose : State :=
  { State.reset with
    clk := { running := true }, mem := strayTables, models := [(0, { st := .loaded, img := onePage })],
    places := [(0, { present := true, step := some ringStep })], ctxs := [(0, { st := .opened, part := 9280, lenMax := 16 })],
    parts := [(9280, { returns := [(7, 1)] })] }.each
    ([(Reg.CLK_START, Fld.CLK_START_PHASE, 15), (Reg.SCH_CTX_RANGE 0, Fld.SCH_CTX_RANGE_COUNT, 64),
      (Reg.SEC_WIN 74240, Fld.SEC_WIN_EN, 1), (Reg.SEC_WIN 74240, Fld.SEC_WIN_BASE, 512), (Reg.SEC_WIN 74240, Fld.SEC_WIN_SIZE, 4),
      (Reg.MMU_ROOT 9280, Fld.MMU_ROOT_EN, 1), (Reg.MMU_ROOT 9280, Fld.MMU_ROOT_L1PA, 0x2000)] ++ pairFields 0)
    fun s x => s.setFld x.1 x.2.1 x.2.2

/-- The header of a SESSION_CLOSE of partition 0. -/
def closeHdr : Hdr := { fn := 0, ring := 1, cls := 0, part := 0, flags := 0, seq := 0, length := 8, rsv := 0, tag := 0 }

theorem strayClose_taken : strayClose.takesD closeHdr 0x05 8 := by
  unfold State.takesD State.takesPacket
  decide +kernel

theorem strayClose_passes : firstFail ((strayClose.takePacket closeHdr).chkCtx closeHdr.fn 0 ++
      [(strayClose.takePacket closeHdr).chkState 0 [.opened, .active, .paused, .parked, .expired],
        (strayClose.takePacket closeHdr).chkHome ((strayClose.takePacket closeHdr).ctx 0)]) = .pass ∧
    (strayClose.takePacket closeHdr).inStep 0 = false ∧ ((strayClose.takePacket closeHdr).ctx 0).st ≠ .closed ∧
    ((strayClose.takePacket closeHdr).ctx 0).part = 9280 := by
  decide +kernel

/-- The frame of the context and the one that waited before it: one has gone to the free ring, and the ring's TAIL is as it was. -/
theorem strayClose_returns :
    (((strayClose.takePacket closeHdr).part 9280).returns ++
        (((strayClose.takePacket closeHdr).asOf ((strayClose.takePacket closeHdr).ctx 0).placement).framesOf ((strayClose.takePacket closeHdr).ctx 0)).map
          fun (f : Nat × Nat) => (f.2, 1)).length = 2 ∧
      (strayClose.takePacket closeHdr).fld (Reg.KVT_FREE_IDX 9280) Fld.KVT_FREE_IDX_TAIL = 0 := by
  decide +kernel

theorem exec_strayClose : ∃ t, exec (.sessionClose closeHdr 0 0) strayClose = .next t ∧ (t.part 9280).returns.length = 1 ∧
    t.fld (Reg.KVT_FREE_IDX 9280) Fld.KVT_FREE_IDX_TAIL = 0 :=
  ⟨_, rfl, by decide +kernel⟩

end Sys2Proof.Machine

namespace Sys2Proof
open Machine

/-- Refutes O24: of the frames that a SESSION_CLOSE returns one goes to the free ring, whose TAIL the settings of the placement's step in flight
overwrite. -/
theorem not_sessionsAreOpenedAndClosed : ¬ Obligations.SessionsAreOpenedAndClosed := by
  unfold Obligations.SessionsAreOpenedAndClosed
  rintro ⟨-, hclose⟩
  obtain ⟨hpass, hstep, hst, hpart⟩ := strayClose_passes
  obtain ⟨u, hexec, -, -, -, -, -, -, -, -, -, -, -, ⟨n, hreturns, htail⟩, -⟩ :=
    (hclose strayClose closeHdr 0 _ 0 rfl rfl strayClose_taken hpass).2 hstep hst
  obtain ⟨t, hrun, hleft, hzero⟩ := exec_strayClose
  obtain ⟨hall, hbefore⟩ := strayClose_returns
  have ht : t = u.replyHeld (strayClose.takePacket closeHdr) closeHdr 0x05 := Host.Outcome.next.inj (hrun.symm.trans hexec)
  have hparts : t.part 9280 = u.part 9280 := by rw [State.part, State.part, ht, replyHeld_parts]
  have hfld : t.fld (Reg.KVT_FREE_IDX 9280) Fld.KVT_FREE_IDX_TAIL = u.fld (Reg.KVT_FREE_IDX 9280) Fld.KVT_FREE_IDX_TAIL := by
    rw [ht]
    exact keepsRegs_fld replyHeld_keepsRegs (by unfold notFnStat; decide)
  rw [hpart] at hreturns htail
  have hn : 2 - n = 1 := by
    rw [← hall, ← List.length_drop, ← hreturns, ← hparts, hleft]
  rw [← hfld, hzero, hbefore] at htail
  have h1 : n = 1 := by omega
  rw [h1] at htail
  exact absurd htail (by decide)

end Sys2Proof

end

section
/-! PROOFS. Entries written one after the other: completion-ring slots, free-ring slots and descriptors read back as written (R192, R222, R295). -/

namespace Sys2Proof.Machine

/-! ## Bytes that stand under a key -/

/-- The bytes of `l` stand from address a on, in units written under the key. -/
def Mem.stores (m : Mem) (boot : Nat) (key : Option Nat) (a : Nat) (l : List Byte) : Prop :=
  ∀ i (h : i < l.length), m.readByte boot key (a + i) = l[i] ∧ ∀ k, key = some k → tget 0 m.keys ((a + i) / 256) = k + 1

variable {m : Mem} {boot a x : Nat} {key : Option Nat} {l bs : List Byte}

theorem Mem.stores.read (h : m.stores boot key a l) : m.read boot key a l.length = l := by
  refine List.ext_getElem (by simp [Mem.read]) fun i hi hl => ?_
  simpa [Mem.read] using (h i hl).1

theorem Mem.write_keys_of_mem {k u : Nat} (hu : u ∈ unitsOf a bs.length) : tget 0 (m.write (some k) a bs).keys u = k + 1 := by
  rw [Mem.write_eq, Mem.putAll_keys, Mem.ready_keys, if_pos hu]

theorem Mem.write_keys_of_eq {k u : Nat} (hu : tget 0 m.keys u = k + 1) : tget 0 (m.write (some k) a bs).keys u = k + 1 := by
  rw [Mem.write_eq, Mem.putAll_keys, Mem.ready_keys]
  split
  · rfl
  · exact hu

/-- Bytes just written stand. -/
theorem Mem.stores_write : (m.write key a l).stores boot key a l := by
  refine fun i hi => ⟨Mem.readByte_write_getElem hi, fun k hk => ?_⟩
  subst hk
  exact Mem.write_keys_of_mem (mem_unitsOf.2 (by omega))

/-- A write elsewhere under the same key leaves them. -/
theorem Mem.stores_write_apart (h : m.stores boot key a l) (hx : x + bs.length ≤ a ∨ a + l.length ≤ x) :
    (m.write key x bs).stores boot key a l := by
  intro i hi
  obtain ⟨hread, hkey⟩ := h i hi
  constructor
  · rw [Mem.readByte_write_of_outside (by omega), hread]
    cases key with
    | none => exact .inl rfl
    | some k => exact .inr (.inr (.inr ⟨rfl, .inr ⟨k, rfl, hkey k rfl⟩⟩))
  · intro k hk
    have hunit := hkey k hk
    subst hk
    exact Mem.write_keys_of_eq hunit

/-- Two slots of a ring of 2^lg places hold different entries when fewer than 2^lg lie between them. -/
theorem slot_ne {tail j k lg : Nat} (hjk : j < k) (hk : k < 2 ^ lg) : (tail + j) % 2 ^ lg ≠ (tail + k) % 2 ^ lg := by
  intro he
  have hmod : j ≡ k [MOD 2 ^ lg] := Nat.ModEq.add_left_cancel' tail he
  have := hmod.eq_of_lt_of_lt (hjk.trans hk) hk
  omega

theorem slot_wrap {n lg : Nat} (hlg : lg < 32) : n % 2 ^ 32 % 2 ^ lg = n % 2 ^ lg :=
  Nat.mod_mod_of_dvd _ (pow_dvd_pow 2 (by omega))

end Sys2Proof.Machine
end

section
/-! PROOFS. COMPLETION_WRITE, FULL_RING_REMINDER and the timeout of a FENCE (R284, R289, R295, R299, R511). -/

namespace Sys2Proof.Machine

variable {s t : State} {f r : Nat}

/-! ## Entries written from CQ_TAIL on -/

/-- Entry k of a list of bytes. -/
def entryOf (bs : List Byte) (k : Nat) : List Byte := (bs.drop (32 * k)).take 32

theorem entryOf_length_le {bs : List Byte} {k : Nat} : (entryOf bs k).length ≤ 32 := by
  rw [entryOf, List.length_take]
  exact Nat.min_le_left _ _

theorem cqAddr_of_fieldsBut {i : Nat} (h : s.fieldsBut t [(Reg.SCH_RING_IDX f r, Fld.SCH_RING_IDX_CQ_TAIL)]) : t.cqAddr f r i = s.cqAddr f r i := by
  have hcfg : ∀ g, t.fld (Reg.SCH_RING_CFG f r) g = s.fld (Reg.SCH_RING_CFG f r) g := fun g => h _ _ fun x hx hkey => by
    simp only [List.mem_cons, List.not_mem_nil, or_false] at hx
    subst hx
    simp only [Reg.SCH_RING_CFG, Reg.SCH_RING_IDX] at hkey
    omega
  have harea : ∀ g, t.fld (Reg.SCH_RING_AREA f) g = s.fld (Reg.SCH_RING_AREA f) g := fun g => h _ _ fun x hx hkey => by
    simp only [List.mem_cons, List.not_mem_nil, or_false] at hx
    subst hx
    simp only [Reg.SCH_RING_AREA, Reg.SCH_RING_IDX] at hkey
    omega
  unfold State.cqAddr
  dsimp only
  rw [hcfg, hcfg, harea]

theorem cqLog2_lt : s.fld (Reg.SCH_RING_CFG f r) Fld.SCH_RING_CFG_CQ_LOG2 < 32 := State.fld_lt

theorem cqAddr_wrap {i : Nat} : s.cqAddr f r (i % 2 ^ 32) = s.cqAddr f r i := by
  unfold State.cqAddr
  dsimp only
  rw [slot_wrap cqLog2_lt]

/-- The slots of two entries of one ring lie apart. -/
theorem cqAddr_apart {tail j k : Nat} (hjk : j < k) (hk : k < 2 ^ s.fld (Reg.SCH_RING_CFG f r) Fld.SCH_RING_CFG_CQ_LOG2) :
    s.cqAddr f r (tail + k) + 32 ≤ s.cqAddr f r (tail + j) ∨ s.cqAddr f r (tail + j) + 32 ≤ s.cqAddr f r (tail + k) := by
  have hne := slot_ne (tail := tail) hjk hk
  unfold State.cqAddr
  dsimp only
  generalize (tail + j) % _ = x at hne ⊢
  generalize (tail + k) % _ = y at hne ⊢
  omega

/-- `t` is `s` with the first n entries of `bs` written from CQ_TAIL on. -/
structure State.entered (s t : State) (f r : Nat) (bs : List Byte) (n : Nat) : Prop where
  tail   : t.fld (Reg.SCH_RING_IDX f r) Fld.SCH_RING_IDX_CQ_TAIL = (s.fld (Reg.SCH_RING_IDX f r) Fld.SCH_RING_IDX_CQ_TAIL + n) % 2 ^ 32
  slots  : ∀ boot k, k < n →
    t.mem.stores boot none (s.cqAddr f r (s.fld (Reg.SCH_RING_IDX f r) Fld.SCH_RING_IDX_CQ_TAIL + k)) (entryOf bs k)
  fields : s.fieldsBut t [(Reg.SCH_RING_IDX f r, Fld.SCH_RING_IDX_CQ_TAIL)]
  frame  : t = { s with regs := t.regs, mem := t.mem }

theorem putCqe_mem {bs : List Byte} : (s.putCqe f r bs).mem =
    s.mem.write none (s.cqAddr f r (s.fld (Reg.SCH_RING_IDX f r) Fld.SCH_RING_IDX_CQ_TAIL)) bs := by
  rw [State.putCqe, State.setFld_mem]
  rfl

theorem putCqe_frame {bs : List Byte} : s.putCqe f r bs = { s with regs := (s.putCqe f r bs).regs, mem := (s.putCqe f r bs).mem } := rfl

theorem entered_putCqe {bs : List Byte} {n : Nat} (h : s.entered t f r bs n)
    (hn : n < 2 ^ s.fld (Reg.SCH_RING_CFG f r) Fld.SCH_RING_CFG_CQ_LOG2) : s.entered (t.putCqe f r (entryOf bs n)) f r bs (n + 1) := by
  obtain ⟨htail, hslots, hfields, hframe⟩ := h
  have haddr : t.cqAddr f r (t.fld (Reg.SCH_RING_IDX f r) Fld.SCH_RING_IDX_CQ_TAIL) =
      s.cqAddr f r (s.fld (Reg.SCH_RING_IDX f r) Fld.SCH_RING_IDX_CQ_TAIL + n) := by
    rw [cqAddr_of_fieldsBut hfields, htail, cqAddr_wrap]
  refine ⟨?_, fun boot k hk => ?_, ?_, ?_⟩
  · rw [State.putCqe, State.fld_setFld_self (by decide), htail]
    exact Nat.mod_add_mod _ _ _
  · rw [putCqe_mem, haddr]
    rcases Nat.lt_succ_iff_lt_or_eq.1 hk with hlt | rfl
    · refine Mem.stores_write_apart (hslots boot k hlt) ?_
      have := cqAddr_apart (tail := s.fld (Reg.SCH_RING_IDX f r) Fld.SCH_RING_IDX_CQ_TAIL) hlt hn
      have := entryOf_length_le (bs := bs) (k := k)
      have := entryOf_length_le (bs := bs) (k := n)
      omega
    · exact Mem.stores_write
  · exact fieldsBut_trans hfields (fieldsBut_setFld (s := t.wrRaw _ _) (by simp))
  · rw [putCqe_frame, hframe]

/-- The entries of a list of bytes stand in the slots from CQ_TAIL on, where the ring has as many places. -/
theorem entered_putEntries {bs : List Byte} {n : Nat} (hn : n ≤ 2 ^ s.fld (Reg.SCH_RING_CFG f r) Fld.SCH_RING_CFG_CQ_LOG2) :
    s.entered (s.putEntries f r n bs) f r bs n :=
  each_range_induction (P := fun m t => s.entered t f r bs m)
    ⟨(Nat.mod_eq_of_lt State.fld_lt).symm, fun _ _ hk => absurd hk (Nat.not_lt_zero _), fieldsBut_refl, rfl⟩
    fun m _ hm ht => entered_putCqe ht (by omega)

/-! ## Vectors raised -/

theorem raise_of_off {v : Nat} (h : s.decodes f = false ∨ s.pcie.msixOn.contains f = false) : s.raise f v = s := by
  rw [State.raise, if_pos]
  rcases h with h | h <;> simp only [h, Bool.false_and, Bool.and_false, Bool.not_false]

theorem raise_of_on {v : Nat} (hdec : s.decodes f = true) (hon : s.pcie.msixOn.contains f = true) : s.raise f v =
    if s.masked f v then { s with pcie := { s.pcie with pendingBits := (32 * f + v) :: s.pcie.pendingBits.filter (· != 32 * f + v) } }
    else s.sendMsix f v := by
  rw [State.raise, hdec, hon]
  rfl

theorem raiseRing_of_apart (h : ∀ m ∈ s.pcie.msix, m.1 = f → m.2.1 = r → m.2.2 + 1000 ≤ s.now) : s.raiseRing f r = s.raise f r := by
  unfold State.raiseRing
  split
  · next m hm =>
    have hmatch := List.find?_some hm
    simp only [Bool.and_eq_true, beq_iff_eq] at hmatch
    have := h m (List.mem_of_find?_eq_some hm) hmatch.1 hmatch.2
    rw [if_neg (by omega)]
  · rfl

theorem raiseRing_frame : s.raiseRing f r = { s with pcie := (s.raiseRing f r).pcie } := by
  unfold State.raiseRing
  split
  · split
    · rfl
    · exact raise_eq
  · exact raise_eq

/-! ## Entries written out -/

/-- The pair once its oldest entry has been written. -/
def Pair.shifted (x : Pair) (o : Out) (rest : List Out) : Pair :=
  { x with out := rest, open_ := if o.isReply && o.final then x.open_.erase o.seq else x.open_ }

/-- The state with the oldest entry of a pair in its ring. -/
def State.wroteOut (s : State) (f r : Nat) (o : Out) (rest : List Out) : State :=
  (s.putEntries f r (o.bytes.length / 32) (s.outBytes o)).setPair f r ((s.pair f r).shifted o rest)

section
variable {o : Out} {rest : List Out}

theorem writeOut_of_room (hout : (s.pair f r).out = o :: rest) (hroom : o.bytes.length / 32 ≤ s.cqRoom f r) :
    s.writeOut f r = (((s.wroteOut f r o rest).when (o.irq || o.stepEnd) fun s => s.raiseRing f r).fenceSweep f) := by
  rw [State.writeOut]
  simp only [hout]
  rw [if_neg (by omega)]
  rfl

theorem writeOut_of_full (hout : (s.pair f r).out = o :: rest) (hroom : s.cqRoom f r < o.bytes.length / 32) : s.writeOut f r =
    if o.waited then s
    else (s.setPair f r { s.pair f r with out := { o with waited := true } :: rest }).bump (Reg.SCH_RING_STAT f r) Fld.SCH_RING_STAT_CQ_FULL := by
  rw [State.writeOut]
  simp only [hout]
  rw [if_pos hroom]

theorem exec_completionWrite {at_ : Nat} (hf : f < 64) (hr : r < 17) : exec (.completionWrite f r at_) s = .next ((s.tick at_).writeOut f r) := by
  show execCompletionWrite f r at_ s = _
  simp [execCompletionWrite, onObject, hf, hr]

/-- Without room the entry stays, and its wait counts once. -/
theorem writeOut_waits (hout : (s.pair f r).out = o :: rest) (hroom : s.cqRoom f r < o.bytes.length / 32) :
    ((s.writeOut f r).pair f r).out = { o with waited := true } :: rest ∧
      s.counted (s.writeOut f r) (Reg.SCH_RING_STAT f r) Fld.SCH_RING_STAT_CQ_FULL (b2n !o.waited) ∧
      s.fieldsBut (s.writeOut f r) [(Reg.SCH_RING_STAT f r, Fld.SCH_RING_STAT_CQ_FULL)] ∧
      s.writeOut f r = { s with regs := (s.writeOut f r).regs, pairs := (s.writeOut f r).pairs } := by
  rw [writeOut_of_full hout hroom]
  cases hw : o.waited with
  | true =>
    refine ⟨?_, ?_, fieldsBut_refl, rfl⟩
    · rw [if_pos rfl, hout, ← hw]
    · have hlt := State.fld_lt (s := s) (r := Reg.SCH_RING_STAT f r) (f := Fld.SCH_RING_STAT_CQ_FULL)
      exact (Nat.min_eq_left (Nat.le_sub_one_of_lt hlt)).symm
  | false =>
    rw [if_neg (by decide)]
    refine ⟨?_, ?_, ?_, ?_⟩
    · rw [State.bump_pair_acc, State.pair_setPair_self]
    · exact counted_before (counted_bump (by decide)) (State.fld_of_regs rfl)
    · exact fieldsBut_trans (fieldsBut_of_regs rfl) (fieldsBut_bump (s := s.setPair f r _) (by simp))
    · rw [bump_frame]
      rfl

theorem wroteOut_entered (hroom : o.bytes.length / 32 ≤ s.cqRoom f r) :
    s.entered (s.putEntries f r (o.bytes.length / 32) (s.outBytes o)) f r (s.outBytes o) (o.bytes.length / 32) :=
  entered_putEntries (hroom.trans (Nat.sub_le _ _))

theorem wroteOut_pairs (hroom : o.bytes.length / 32 ≤ s.cqRoom f r) :
    (s.wroteOut f r o rest).pairs = tset {} s.pairs (pairKey f r) ((s.pair f r).shifted o rest) := by
  show tset {} (s.putEntries f r _ _).pairs _ _ = _
  rw [(wroteOut_entered hroom).frame]

theorem wroteOut_frame (hroom : o.bytes.length / 32 ≤ s.cqRoom f r) : s.wroteOut f r o rest = { s with
    regs := (s.wroteOut f r o rest).regs, mem := (s.wroteOut f r o rest).mem, pairs := (s.wroteOut f r o rest).pairs } := by
  have hframe := (wroteOut_entered hroom).frame
  unfold State.wroteOut
  generalize s.putEntries f r _ _ = u at hframe ⊢
  rw [hframe]
  rfl

/-- The state with the vector of an entry that asks for it raised. -/
def State.wroteRaised (s : State) (f r : Nat) (o : Out) (rest : List Out) : State :=
  (s.wroteOut f r o rest).when (o.irq || o.stepEnd) fun s => s.raiseRing f r

theorem wroteRaised_frame : s.wroteRaised f r o rest = { s.wroteOut f r o rest with pcie := (s.wroteRaised f r o rest).pcie } := by
  unfold State.wroteRaised
  generalize s.wroteOut f r o rest = v
  unfold State.when
  split
  · exact raiseRing_frame
  · rfl

theorem fenceSweep_fields : s.fieldsBut (s.fenceSweep f) [(Reg.SCH_FN_STAT f, Fld.SCH_FN_STAT_DISCARD)] := by
  unfold State.fenceSweep
  refine each_induction (P := fun t => s.fieldsBut t [(Reg.SCH_FN_STAT f, Fld.SCH_FN_STAT_DISCARD)]) fieldsBut_refl fun t _ _ ht => ?_
  unfold State.fencePass
  refine each_induction (P := fun t => s.fieldsBut t [(Reg.SCH_FN_STAT f, Fld.SCH_FN_STAT_DISCARD)]) ht fun u k _ hu => fieldsBut_trans hu ?_
  dsimp only
  split
  · split
    · split
      · exact fieldsBut_of_regs rfl
      · split
        · exact fieldsBut_trans (fieldsBut_of_regs rfl) (fieldsBut_bump (s := u.setPair f k _) (by simp))
        next hon =>
          have hon' : u.pairOn f k = true := by simpa using hon
          rw [post_eq, if_pos (show (u.setPair f k _).pairOn f k = true from hon')]
          exact fieldsBut_of_regs rfl
    · exact fieldsBut_refl
  · exact fieldsBut_refl

/-- What the entry written leaves of everything but its ring, its pair and the messages. -/
theorem writeOut_frame (hout : (s.pair f r).out = o :: rest) (hroom : o.bytes.length / 32 ≤ s.cqRoom f r) :
    s.fieldsBut (s.writeOut f r) [(Reg.SCH_RING_IDX f r, Fld.SCH_RING_IDX_CQ_TAIL), (Reg.SCH_FN_STAT f, Fld.SCH_FN_STAT_DISCARD)] ∧
      (s.writeOut f r).mem = (s.putEntries f r (o.bytes.length / 32) (s.outBytes o)).mem ∧
      (s.writeOut f r).pcie = (s.wroteRaised f r o rest).pcie ∧
      s.writeOut f r = { s with regs := (s.writeOut f r).regs, pairs := (s.writeOut f r).pairs, mem := (s.writeOut f r).mem,
                                pcie := (s.writeOut f r).pcie } := by
  have heq : s.writeOut f r = (s.wroteRaised f r o rest).fenceSweep f := writeOut_of_room hout hroom
  have hfields : (s.wroteRaised f r o rest).fieldsBut ((s.wroteRaised f r o rest).fenceSweep f) _ := fenceSweep_fields
  have hsweep := (repliesOnly_fenceSweep (s := s.wroteRaised f r o rest) (f := f)).1
  rw [← heq] at hfields hsweep
  have hregs : (s.wroteRaised f r o rest).regs = (s.putEntries f r (o.bytes.length / 32) (s.outBytes o)).regs := by
    rw [wroteRaised_frame]
    rfl
  have hentered := wroteOut_entered hroom
  refine ⟨?_, ?_, ?_, ?_⟩
  · exact fieldsBut_trans (fieldsBut_mono hentered.fields (by simp))
      (fieldsBut_trans (fieldsBut_of_regs hregs) (fieldsBut_mono hfields (by simp)))
  · rw [hsweep, wroteRaised_frame]
    rfl
  · rw [hsweep]
  · rw [hsweep, wroteRaised_frame, wroteOut_frame hroom]

/-- CQ_TAIL stands past the entry (R295). -/
theorem writeOut_tail (hout : (s.pair f r).out = o :: rest) (hroom : o.bytes.length / 32 ≤ s.cqRoom f r) :
    (s.writeOut f r).fld (Reg.SCH_RING_IDX f r) Fld.SCH_RING_IDX_CQ_TAIL =
      (s.fld (Reg.SCH_RING_IDX f r) Fld.SCH_RING_IDX_CQ_TAIL + o.bytes.length / 32) % 2 ^ 32 := by
  have heq : s.writeOut f r = (s.wroteRaised f r o rest).fenceSweep f := writeOut_of_room hout hroom
  rw [heq]
  refine Eq.trans (fenceSweep_fields (s := s.wroteRaised f r o rest) _ _ fun x hx hkey => ?_) ?_
  · simp only [List.mem_cons, List.not_mem_nil, or_false] at hx
    subst hx
    simp only [Reg.SCH_FN_STAT, Reg.SCH_RING_IDX] at hkey
    omega
  · refine Eq.trans (State.fld_of_regs ?_) (wroteOut_entered hroom).tail
    show (s.wroteRaised f r o rest).regs = _
    rw [wroteRaised_frame]
    rfl

/-- The slots hold the entry. -/
theorem writeOut_slots (hout : (s.pair f r).out = o :: rest) (hroom : o.bytes.length / 32 ≤ s.cqRoom f r) {k : Nat}
    (hk : k < o.bytes.length / 32) :
    (s.writeOut f r).rdRaw (s.cqAddr f r (s.fld (Reg.SCH_RING_IDX f r) Fld.SCH_RING_IDX_CQ_TAIL + k)) (entryOf (s.outBytes o) k).length =
      entryOf (s.outBytes o) k := by
  rw [State.rdRaw, (writeOut_frame hout hroom).2.1]
  exact ((wroteOut_entered hroom).slots _ k hk).read

/-- With no FENCE on the function's rings only the pair itself differs. -/
theorem writeOut_pairs (hout : (s.pair f r).out = o :: rest) (hroom : o.bytes.length / 32 ≤ s.cqRoom f r)
    (hnone : ∀ q, (s.pair f q).fence = none) :
    (s.writeOut f r).pairs = tset {} s.pairs (pairKey f r) ((s.pair f r).shifted o rest) := by
  have hpairs : (s.wroteRaised f r o rest).pairs = tset {} s.pairs (pairKey f r) ((s.pair f r).shifted o rest) := by
    rw [wroteRaised_frame, ← wroteOut_pairs hroom]
  rw [writeOut_of_room hout hroom, ← hpairs]
  refine congrArg State.pairs (fenceSweep_of_none (s := s.wroteRaised f r o rest) fun q => ?_)
  rw [State.pair, hpairs]
  by_cases hq : pairKey f q = pairKey f r
  · rw [hq, tget_tset_self]
    exact hnone r
  · rw [tget_tset_ne hq]
    exact hnone q

theorem partExists_of_ring (hf : f < 64) (hr : r < 17) (h : s.fieldsBut t [(Reg.SCH_RING_IDX f r, Fld.SCH_RING_IDX_CQ_TAIL)]) :
    t.partExists f = s.partExists f := by
  have hkey : 0xD8110 + 0x20 * r + 0x1000000 * f ≠ 0x150200 + 0x8 * f := by
    rcases Nat.eq_zero_or_pos f with rfl | hpos
    · exact Nat.ne_of_lt (by omega)
    · exact Nat.ne_of_gt (by omega)
  have hfld : t.fld (Reg.SEC_PART f) Fld.SEC_PART_EXISTS = s.fld (Reg.SEC_PART f) Fld.SEC_PART_EXISTS := h _ _ fun x hx he => by
    simp only [List.mem_cons, List.not_mem_nil, or_false] at hx
    subst hx
    exact absurd he hkey
  unfold State.partExists State.flag
  rw [hfld]

/-- The messages: none for an entry that asks for none; otherwise the ring's vector, sent or pending (R284). -/
theorem writeOut_pcie (hf : f < 64) (hr : r < 17) (hout : (s.pair f r).out = o :: rest) (hroom : o.bytes.length / 32 ≤ s.cqRoom f r) :
    ((o.irq = false ∧ o.stepEnd = false) → (s.writeOut f r).pcie = s.pcie) ∧
      ((o.irq = true ∨ o.stepEnd = true) → s.decodes f = true → s.pcie.msixOn.contains f = true →
        (∀ m ∈ s.pcie.msix, m.1 = f → m.2.1 = r → m.2.2 + 1000 ≤ s.now) →
        (s.masked f r = false → (s.writeOut f r).pcie = { s.pcie with msix := (f, r, s.now) :: s.pcie.msix }) ∧
        (s.masked f r = true → (s.writeOut f r).pcie.msix = s.pcie.msix ∧
          (s.writeOut f r).pcie.pendingBits.contains (32 * f + r) = true)) := by
  have hv := wroteOut_frame (rest := rest) hroom
  have hfields := (wroteOut_entered hroom).fields
  rw [(writeOut_frame hout hroom).2.2.1, State.wroteRaised]
  have hexists : (s.wroteOut f r o rest).partExists f = s.partExists f := partExists_of_ring hf hr hfields
  generalize s.wroteOut f r o rest = v at hv hexists
  have hpcie : v.pcie = s.pcie := by rw [hv]
  constructor
  · rintro ⟨hirq, hstep⟩
    rw [hirq, hstep, State.when, if_neg (by decide), hpcie]
  · intro hask hdec hon hapart
    have hnow : v.now = s.now := by rw [hv]
    have hdec' : v.decodes f = true := by
      rw [State.decodes, hpcie, hexists]
      exact hdec
    have hmasked : v.masked f r = s.masked f r := by rw [State.masked, hpcie, State.masked]
    have hwhen : (v.when (o.irq || o.stepEnd) fun s => s.raiseRing f r) = v.raise f r := by
      rw [State.when, if_pos (by simpa using hask), raiseRing_of_apart (by rw [hpcie, hnow]; exact hapart)]
    rw [hwhen, raise_of_on hdec' (by rw [hpcie]; exact hon), hmasked]
    refine ⟨fun hm => ?_, fun hm => ?_⟩
    · rw [hm, if_neg (by decide), State.sendMsix, hpcie, hnow]
    · rw [hm, if_pos rfl, hpcie]
      exact ⟨rfl, by simp⟩

end

/-! ## Reminders and timeouts -/

/-- Instant of the last message of a pair's vector; 0 with none. -/
def State.lastSent (s : State) (f r : Nat) : Nat := ((s.pcie.msix.find? fun m => m.1 == f && m.2.1 == r).map fun m => m.2.2).getD 0

theorem lastSent_add_le {n x : Nat} (h : ∀ m ∈ s.pcie.msix, m.1 = f → m.2.1 = r → m.2.2 + n ≤ x) (hn : n ≤ x) : s.lastSent f r + n ≤ x := by
  unfold State.lastSent
  cases hfind : s.pcie.msix.find? fun m => m.1 == f && m.2.1 == r with
  | none => simpa using hn
  | some m =>
    have hmatch := List.find?_some hfind
    simp only [Bool.and_eq_true, beq_iff_eq] at hmatch
    exact h m (List.mem_of_find?_eq_some hfind) hmatch.1 hmatch.2

theorem exec_fullRingReminder {at_ : Nat} {o : Out} {rest : List Out} (hf : f < 64) (hr : r < 17) (hout : ((s.tick at_).pair f r).out = o :: rest)
    (hwait : o.waited = true) (hroom : (s.tick at_).cqRoom f r < o.bytes.length / 32)
    (hdue : max o.since ((s.tick at_).lastSent f r) + 1000000 ≤ (s.tick at_).now) :
    exec (.fullRingReminder f r at_) s = .next ((s.tick at_).raise f r) := by
  show execFullRingReminder f r at_ s = _
  unfold execFullRingReminder
  generalize s.tick at_ = b at hout hroom hdue ⊢
  unfold State.lastSent at hdue
  simp [onObject, hf, hr, hout, hwait, hroom, hdue]

theorem exec_fenceTimeout {at_ t0 : Nat} {h : Hdr} {w : List (Nat × List Nat)} (hf : f < 64) (hr : r < 17)
    (hfence : ((s.tick at_).pair f r).fence = some (h, t0, w)) : exec (.fenceTimeout f r at_) s = .next
      (if t0 + 1000000000 ≤ (s.tick at_).now then
        ((s.tick at_).setPair f r { (s.tick at_).pair f r with fence := none }).reply h 0x0A stDeferred 0 0
      else s.tick at_) := by
  show execFenceTimeout f r at_ s = _
  unfold execFenceTimeout
  generalize s.tick at_ = b at hfence ⊢
  simp [onObject, hf, hr, hfence]

end Sys2Proof.Machine
end

section
/-! PROOFS. FRAME_RETURN: frames that wait enter the free ring, and the parks that waited for them end (R192, R202). -/

namespace Sys2Proof.Machine

variable {s t : State} {p : Nat}

/-! ## Admission depends on registers that the free ring does not touch -/

/-- Every register but the index of partition p's free ring. -/
def notFreeIdx (p k : Nat) : Prop := k ≠ (Reg.KVT_FREE_IDX p).key

theorem admits_of_keepsRegs {q a n : Nat} (hp : p < 64) (h : s.keepsRegs t (notFreeIdx p)) : t.admits q a n = s.admits q a n := by
  have hidx : (Reg.KVT_FREE_IDX p).key < 0xC1000 := by simp only [Reg.KVT_FREE_IDX]; omega
  have hreg : ∀ r : RegRef, 0xC1000 ≤ r.key → t.reg r = s.reg r := fun r hr => h r (Nat.ne_of_gt (hidx.trans_le hr))
  have hfld : ∀ (r : RegRef) f, 0xC1000 ≤ r.key → t.fld r f = s.fld r f := fun r f hr => by rw [State.fld, hreg r hr, State.fld]
  have hwin : t.windows q = s.windows q := by
    unfold State.windows
    refine congrArg _ (List.map_congr_left fun i _ => ?_)
    rw [State.window, hreg (Reg.SEC_WIN _) (by simp only [Reg.SEC_WIN]; omega), State.window]
  have hsys : t.sysRegion = s.sysRegion := by
    unfold State.sysRegion
    rw [hreg _ (by decide), hreg _ (by decide), hfld _ _ (by decide)]
  have hjrn : t.journal = s.journal := by
    unfold State.journal
    rw [hfld _ _ (by decide), hfld _ _ (by decide)]
  have hring : ∀ x, t.ringArea x = s.ringArea x := fun x => by
    unfold State.ringArea State.partExists State.flag
    rw [hfld (Reg.SEC_PART x) _ (by simp only [Reg.SEC_PART]; omega), hfld (Reg.SCH_RING_AREA x) _ (by simp only [Reg.SCH_RING_AREA]; omega), hsys]
  unfold State.admits
  rw [hwin, hsys, hjrn]
  simp only [hring]

/-! ## Entries of the free ring -/

/-- Address of entry i of partition p's free ring. -/
def State.freeAddr (s : State) (p i : Nat) : Nat :=
  s.fld (Reg.KVT_FREE_RING p) Fld.KVT_FREE_RING_BASE * 4096 + i % 2 ^ s.fld (Reg.KVT_FREE_RING p) Fld.KVT_FREE_RING_LOG2SIZE * 8

/-- TAIL of partition p's free ring. -/
def State.freeTail (s : State) (p : Nat) : Nat := s.fld (Reg.KVT_FREE_IDX p) Fld.KVT_FREE_IDX_TAIL

/-- An entry of a free ring. -/
def freeEntry (e : Nat × Nat) : List Byte := leBytes 8 (e.1 % 2 ^ 42 + e.2 % 16 * 2 ^ 60)

theorem freeEntry_length {e : Nat × Nat} : (freeEntry e).length = 8 := by simp [freeEntry, leBytes]

theorem freeAddr_of_keepsRegs {i : Nat} (h : s.keepsRegs t (notFreeIdx p)) : t.freeAddr p i = s.freeAddr p i := by
  have hring : t.reg (Reg.KVT_FREE_RING p) = s.reg (Reg.KVT_FREE_RING p) := h _ (by simp only [notFreeIdx, Reg.KVT_FREE_RING, Reg.KVT_FREE_IDX]; omega)
  unfold State.freeAddr State.fld
  rw [hring]

theorem freeAddr_wrap {i : Nat} : s.freeAddr p (i % 2 ^ 32) = s.freeAddr p i := by
  unfold State.freeAddr
  rw [slot_wrap State.fld_lt]

theorem freeAddr_apart {tail j k : Nat} (hjk : j < k) (hk : k < 2 ^ s.fld (Reg.KVT_FREE_RING p) Fld.KVT_FREE_RING_LOG2SIZE) :
    s.freeAddr p (tail + k) + 8 ≤ s.freeAddr p (tail + j) ∨ s.freeAddr p (tail + j) + 8 ≤ s.freeAddr p (tail + k) := by
  have hne := slot_ne (tail := tail) hjk hk
  unfold State.freeAddr
  generalize (tail + j) % _ = x at hne ⊢
  generalize (tail + k) % _ = y at hne ⊢
  omega

/-- `t` is `s` with the first n of a list of frames in the free ring. -/
structure State.drained (s t : State) (p : Nat) (xs : List (Nat × Nat)) (n : Nat) : Prop where
  tail   : t.freeTail p = (s.freeTail p + n) % 2 ^ 32
  slots  : ∀ boot k e, k < n → xs[k]? = some e → t.mem.stores boot (some (s.keyOf p)) (s.freeAddr p (s.freeTail p + k)) (freeEntry e)
  fields : s.fieldsBut t [(Reg.KVT_FREE_IDX p, Fld.KVT_FREE_IDX_TAIL)]
  regs   : s.keepsRegs t (notFreeIdx p)
  frame  : t = { s with regs := t.regs, mem := t.mem }

theorem freeOne_of_admitted {x : Nat × Nat} (h : s.admits p (s.freeAddr p (s.freeTail p)) 8 = true) :
    s.freeOne p x = (s.wrMem p (s.freeAddr p (s.freeTail p)) (freeEntry x)).setFld (Reg.KVT_FREE_IDX p) Fld.KVT_FREE_IDX_TAIL
      (s.freeTail p + 1) := by
  unfold State.freeAddr State.freeTail at h
  unfold State.freeOne
  dsimp only
  rw [if_pos h]
  rfl

theorem drained_freeOne {xs : List (Nat × Nat)} {x : Nat × Nat} {n : Nat} (hp : p < 64) (h : s.drained t p xs n) (hx : xs[n]? = some x)
    (hn : n < 2 ^ s.fld (Reg.KVT_FREE_RING p) Fld.KVT_FREE_RING_LOG2SIZE) (hadm : s.admits p (s.freeAddr p (s.freeTail p + n)) 8 = true) :
    s.drained (t.freeOne p x) p xs (n + 1) := by
  obtain ⟨htail, hslots, hfields, hregs, hframe⟩ := h
  have haddr : t.freeAddr p (t.freeTail p) = s.freeAddr p (s.freeTail p + n) := by
    rw [freeAddr_of_keepsRegs hregs, htail, freeAddr_wrap]
  have hkey : t.keyOf p = s.keyOf p := by rw [hframe]; rfl
  have hmem : ∀ y, ((t.wrMem p (s.freeAddr p (s.freeTail p + n)) (freeEntry x)).setFld (Reg.KVT_FREE_IDX p) Fld.KVT_FREE_IDX_TAIL y).mem =
      t.mem.write (some (s.keyOf p)) (s.freeAddr p (s.freeTail p + n)) (freeEntry x) := fun _ => by
    rw [← hkey]
    rfl
  rw [freeOne_of_admitted (by rw [haddr, admits_of_keepsRegs hp hregs]; exact hadm), haddr]
  refine ⟨?_, fun boot k e hk he => ?_, ?_, ?_, ?_⟩
  · rw [State.freeTail, State.fld_setFld_self (by decide), htail]
    exact Nat.mod_add_mod _ _ _
  · rw [hmem]
    rcases Nat.lt_succ_iff_lt_or_eq.1 hk with hlt | rfl
    · refine Mem.stores_write_apart (hslots boot k e hlt he) ?_
      rw [freeEntry_length, freeEntry_length]
      exact freeAddr_apart hlt hn
    · obtain rfl : x = e := Option.some.inj (hx.symm.trans he)
      exact Mem.stores_write
  · exact fieldsBut_trans hfields (fieldsBut_setFld (s := t.wrMem _ _ _) (by simp))
  · exact keepsRegs_trans hregs (keepsRegs_setFld (s := t.wrMem _ _ _) fun hk => hk rfl)
  · rw [setFld_eq, hframe]
    rfl

/-- The frames of a list enter the free ring in order. -/
theorem drained_take {xs : List (Nat × Nat)} {n : Nat} (hp : p < 64) (hlen : n ≤ xs.length)
    (hn : n ≤ 2 ^ s.fld (Reg.KVT_FREE_RING p) Fld.KVT_FREE_RING_LOG2SIZE)
    (hadm : ∀ k, k < n → s.admits p (s.freeAddr p (s.freeTail p + k)) 8 = true) :
    s.drained (s.each (xs.take n) fun s e => s.freeOne p e) p xs n := by
  induction n with
  | zero => exact ⟨(Nat.mod_eq_of_lt State.fld_lt).symm, fun _ _ _ hk => absurd hk (Nat.not_lt_zero _), fieldsBut_refl, keepsRegs_refl, rfl⟩
  | succ n ih =>
    have hx : xs[n]? = some xs[n] := List.getElem?_eq_getElem hlen
    rw [List.take_add_one, hx, State.each, List.foldl_append]
    exact drained_freeOne hp (ih (by omega) (by omega) fun k hk => hadm k (by omega)) hx hn (hadm n (by omega))

theorem freeRoom_le : s.freeRoom p ≤ 2 ^ s.fld (Reg.KVT_FREE_RING p) Fld.KVT_FREE_RING_LOG2SIZE := by
  unfold State.freeRoom
  dsimp only
  split
  · exact Nat.zero_le _
  · exact Nat.sub_le _ _

/-! ## FRAME_RETURN -/

/-- Frames that wait as far as the free ring has room (R192). -/
def State.freeing (s : State) (p : Nat) : Nat := min (s.freeRoom p) (s.part p).returns.length

/-- The partition once they have left. -/
def State.relieved (s : State) (p : Nat) : Part := { s.part p with returns := (s.part p).returns.drop (s.freeing p) }

theorem drainFree_drained (hp : p < 64) (hadm : ∀ k, k < s.freeing p → s.admits p (s.freeAddr p (s.freeTail p + k)) 8 = true) :
    ∃ v, s.drained v p (s.part p).returns (s.freeing p) ∧ s.drainFree p = v.setPart p (s.relieved p) := by
  have hd := drained_take (xs := (s.part p).returns) (n := s.freeing p) hp (Nat.min_le_right _ _) ((Nat.min_le_left _ _).trans freeRoom_le) hadm
  refine ⟨_, hd, ?_⟩
  have hframe := hd.frame
  have heq : s.drainFree p = (s.each ((s.part p).returns.take (s.freeing p)) fun s e => s.freeOne p e).setPart p
    { (s.each ((s.part p).returns.take (s.freeing p)) fun s e => s.freeOne p e).part p with returns := (s.part p).returns.drop (s.freeing p) } := rfl
  rw [heq]
  generalize (s.each ((s.part p).returns.take (s.freeing p)) fun s e => s.freeOne p e) = v at hframe ⊢
  have hpart : v.part p = s.part p := by rw [hframe]; rfl
  rw [hpart]
  rfl

theorem retLeft_isEmpty {fs : List Nat} : (s.retLeft p fs).isEmpty = true ↔ ∀ f ∈ fs, ∀ e ∈ (s.part p).returns, e.1 ≠ f := by
  rw [State.retLeft, List.isEmpty_iff, List.filter_eq_nil_iff]
  simp only [List.any_eq_true, beq_iff_eq, not_exists, not_and, ne_eq]

/-- While a frame of every park waits still, none ends. -/
theorem returnsDone_of_left (h : ∀ w ∈ (s.part p).retWaits, ∃ f ∈ w.frames, ∃ e ∈ (s.part p).returns, e.1 = f) : s.returnsDone p = s := by
  refine each_eq_self fun w hw => if_neg fun hempty => ?_
  obtain ⟨f, hf, e, he, hef⟩ := h w hw
  exact retLeft_isEmpty.1 hempty f hf e he hef

/-- The only park that waits ends when its last frame has left. -/
theorem returnsDone_of_gone {w : RetWait} (hw : (s.part p).retWaits = [w]) (hgone : ∀ f ∈ w.frames, ∀ e ∈ (s.part p).returns, e.1 ≠ f) :
    s.returnsDone p = (s.setPart p { s.part p with retWaits := [] }).parkEnds w.ctx := by
  unfold State.returnsDone
  rw [hw, State.each, List.foldl_cons, List.foldl_nil, if_pos (retLeft_isEmpty.2 hgone)]
  unfold State.dropRetWait
  rw [hw]
  simp

theorem exec_frameReturn (hp : p < 64) : exec (.frameReturn p) s = .next ((s.drainFree p).returnsDone p) := by
  show execFrameReturn p s = _
  simp [execFrameReturn, onObject, hp, State.freeRun]

/-! ## Parks that end -/

/-- The context once its park has ended. -/
def Ctx.parkedAt (c : Ctx) (extent time : Nat) : Ctx := { c with st := .parked, parkExt := extent, timestamp := time }

/-- A PAUSED context whose park ends is PARKED at its extents; nothing of the partitions changes, and no pair without an owed reply. -/
theorem parkEnds_parked {i : Nat} {m : Move} (hpark : (s.auxOf i).park = some m) (hst : (s.ctx i).st = .paused) :
    (s.parkEnds i).ctx i = (s.ctx i).parkedAt m.extent s.time ∧ (∀ j, j ≠ i → (s.parkEnds i).ctx j = s.ctx j) ∧
      ((s.parkEnds i).auxOf i).park = none ∧ (s.parkEnds i).parts = s.parts ∧ (m.reply = none → (s.parkEnds i).pairs = s.pairs) := by
  generalize hv : s.setAux i { s.auxOf i with park := none } = v
  have hvaux : (v.auxOf i).park = none := by rw [← hv, State.auxOf_setAux_self]
  have hvctx : ∀ j, v.ctx j = s.ctx j := fun j => by rw [← hv]; rfl
  have hvframe : v.time = s.time ∧ v.parts = s.parts ∧ v.pairs = s.pairs := by rw [← hv]; exact ⟨rfl, rfl, rfl⟩
  obtain ⟨htime, hparts, hpairs⟩ := hvframe
  generalize hu : v.putCtx i { v.ctx i with st := .parked, parkExt := m.extent } = u
  have hself : u.ctx i = (s.ctx i).parkedAt m.extent s.time := by
    have hstamp := stamped_timestamp (s := v) (i := i) (c := { v.ctx i with st := .parked, parkExt := m.extent }) (by rw [hvctx, hst]; exact nofun)
    rw [← hu, putCtx_ctx_self, stamped_eq, hstamp, hvctx, htime]
    rfl
  have hne : ∀ j, j ≠ i → u.ctx j = s.ctx j := fun j hj => by rw [← hu, putCtx_ctx_ne hj, hvctx]
  have haux : (u.auxOf i).park = none := by
    obtain ⟨l, d, he⟩ := putCtx_auxOf (s := v) (i := i) (j := i) (c := { v.ctx i with st := .parked, parkExt := m.extent })
    rw [← hu, he]
    exact hvaux
  have hframe : u.parts = s.parts ∧ u.pairs = s.pairs := by
    rw [← hu, putCtx_frame]
    exact ⟨hparts, hpairs⟩
  have heq : s.parkEnds i = (match m.reply with
      | some (h, op) => u.reply h op stOK 0 0
      | none => u) := by
    unfold State.parkEnds
    simp only [hpark, hv, hu] <;> rfl
  rw [heq]
  cases hr : m.reply with
  | none => exact ⟨hself, hne, haux, hframe.1, fun _ => hframe.2⟩
  | some x =>
    obtain ⟨h, op⟩ := x
    have hreply := (repliesOnly_reply (s := u) (h := h) (op := op) (status := stOK) (detail := 0) (result := 0)).1
    dsimp only
    generalize u.reply h op stOK 0 0 = t at hreply ⊢
    rw [hreply]
    exact ⟨hself, hne, haux, hframe.1, fun h => absurd h (by simp)⟩

/-! ## The write-back of a context cache (R222) -/

variable {i : Nat}

/-- Address of a context's descriptor. -/
def State.descAddr (s : State) (i : Nat) : Nat := s.fld Reg.SCH_CTX_TBL Fld.SCH_CTX_TBL_BASE * 2 ^ 28 + 64 * i

theorem descriptor_length : (s.descriptor i).length = 64 := by
  unfold State.descriptor
  simp [leBytes]

/-- A cached context's descriptor written where it is dirty. -/
def State.flushed (s : State) (i : Nat) : State := if (s.auxOf i).dirty then s.writeBack i else s

/-- `t` is `s` with the dirty descriptors of a list of contexts written to the table. -/
structure State.flushedAll (s t : State) (xs : List Nat) : Prop where
  done   : ∀ i ∈ xs, t.auxOf i = { s.auxOf i with dirty := false }
  stored : ∀ boot, ∀ i ∈ xs, (s.auxOf i).dirty = true → t.mem.stores boot (some (s.keyOf 0)) (s.descAddr i) (s.descriptor i)
  rest   : ∀ i, i ∉ xs → t.auxOf i = s.auxOf i
  frame  : t = { s with aux := t.aux, mem := t.mem }

theorem State.flushedAll.auxOf {xs : List Nat} (h : s.flushedAll t xs) (i : Nat) : ∃ d, t.auxOf i = { s.auxOf i with dirty := d } := by
  by_cases hi : i ∈ xs
  · exact ⟨_, h.done i hi⟩
  · exact ⟨_, h.rest i hi⟩

theorem State.flushedAll.descriptor {xs : List Nat} (h : s.flushedAll t xs) (i : Nat) : t.descriptor i = s.descriptor i := by
  obtain ⟨d, haux⟩ := h.auxOf i
  have hctx : t.ctx i = s.ctx i := by rw [h.frame]; rfl
  have hready : t.isReady i = s.isReady i := by
    unfold State.isReady State.readyCtx
    rw [haux, hctx, h.frame]
    rfl
  unfold State.descriptor
  rw [hctx, hready]

theorem wrMem_auxOf {a j : Nat} {bs : List Byte} : (s.wrMem p a bs).auxOf j = s.auxOf j := rfl

theorem setAux_wrMem_mem {a : Nat} {bs : List Byte} {x : CtxAux} :
    ((s.wrMem p a bs).setAux i x).mem = s.mem.write (some (s.keyOf p)) a bs := rfl

theorem flushedAll_flushed {xs : List Nat} (hsys : s.sysRegion.2 ≠ 0) (h : s.flushedAll t xs) : s.flushedAll (t.flushed i) (xs ++ [i]) := by
  have hwas : ∀ j, (t.auxOf j).dirty = true → j ∉ xs := fun j hd hj => by
    rw [h.done j hj] at hd
    cases hd
  unfold State.flushed
  split
  next hd =>
    have hi := hwas i hd
    have hdesc := h.descriptor i
    have haux := h.rest i hi
    have haddr : t.fld Reg.SCH_CTX_TBL Fld.SCH_CTX_TBL_BASE * 2 ^ 28 + 64 * i = s.descAddr i := by rw [h.frame]; rfl
    have hkey : t.keyOf 0 = s.keyOf 0 := by rw [h.frame]; rfl
    have hregion : t.sysRegion = s.sysRegion := by rw [h.frame]; rfl
    have heq : t.writeBack i = (t.wrMem 0 (s.descAddr i) (s.descriptor i)).setAux i { s.auxOf i with dirty := false } := by
      unfold State.writeBack
      rw [if_neg (by rw [hregion]; exact hsys), haddr, hdesc, haux]
    have hself : (t.writeBack i).auxOf i = { s.auxOf i with dirty := false } := by rw [heq, State.auxOf_setAux_self]
    have hother : ∀ j, j ≠ i → (t.writeBack i).auxOf j = t.auxOf j := fun j hj => by
      rw [heq, State.auxOf_setAux_ne hj, wrMem_auxOf]
    have hmem : (t.writeBack i).mem = t.mem.write (some (s.keyOf 0)) (s.descAddr i) (s.descriptor i) := by
      rw [heq, ← hkey, setAux_wrMem_mem]
    refine ⟨fun j hj => ?_, fun boot j hj hdj => ?_, fun j hj => ?_, ?_⟩
    · by_cases hji : j = i
      · rw [hji, hself]
      · rw [hother j hji]
        exact h.done j (by simpa [hji] using hj)
    · rw [hmem]
      by_cases hji : j = i
      · rw [hji]
        exact Mem.stores_write
      · refine Mem.stores_write_apart (h.stored boot j (by simpa [hji] using hj) hdj) ?_
        rw [descriptor_length, descriptor_length]
        unfold State.descAddr
        omega
    · obtain ⟨hjx, hji⟩ : j ∉ xs ∧ j ≠ i := by simpa using hj
      rw [hother j hji, h.rest j hjx]
    · have hback := writeBack_frame (s := t) (i := i)
      generalize t.writeBack i = u at hback ⊢
      exact hback.trans (by rw [h.frame])
  next hd =>
    have hclean : (t.auxOf i) = { s.auxOf i with dirty := false } := by
      by_cases hi : i ∈ xs
      · exact h.done i hi
      · have haux := h.rest i hi
        rw [haux] at hd ⊢
        have hfalse : (s.auxOf i).dirty = false := by simpa using hd
        rw [← hfalse]
    refine ⟨fun j hj => ?_, fun boot j hj hdj => ?_, fun j hj => h.rest j fun hjx => hj (by simp [hjx]), h.frame⟩
    · rcases List.mem_append.1 hj with hjx | hji
      · exact h.done j hjx
      · rw [List.mem_singleton.1 hji, hclean]
    · rcases List.mem_append.1 hj with hjx | hji
      · exact h.stored boot j hjx hdj
      · by_cases hjx : j ∈ xs
        · exact h.stored boot j hjx hdj
        · refine absurd ?_ hd
          rw [List.mem_singleton.1 hji] at hjx hdj
          rw [h.rest i hjx, hdj]

theorem flushedAll_each {xs : List Nat} (hsys : s.sysRegion.2 ≠ 0) : s.flushedAll (s.each xs fun s i => s.flushed i) xs := by
  induction xs using List.reverseRecOn with
  | nil => exact ⟨by simp, by simp, fun _ _ => rfl, rfl⟩
  | append_singleton xs i ih =>
    rw [State.each, List.foldl_append]
    exact flushedAll_flushed hsys ih

theorem exec_contextCacheWriteBack {q : Nat} (hq : q < 4) :
    exec (.contextCacheWriteBack q) s = .next (s.each (s.cached q) fun s i => s.flushed i) := by
  show execContextCacheWriteBack q s = _
  simp [execContextCacheWriteBack, onObject, hq, State.flushed]

end Sys2Proof.Machine
end

section
/-! PROOFS. Entries, frames and descriptors that wait are written (O44). -/

namespace Sys2Proof.Machine

variable {s : State}

theorem tset_other_key {α : Type} [DecidableEq α] {d x : α} {l : Tbl α} {k f r : Nat} (hk : k ≠ 32 * f + r) :
    tget d (tset d l (pairKey f r) x) k = tget d l k := tget_tset_ne (by rw [pairKey, Nat.mul_comm]; exact hk)

/-- COMPLETION_WRITE of an entry that the ring has room for. -/
theorem completion_written {f r : Nat} {o : Out} {rest : List Out} (hf : f < 64) (hr : r < 17) (hout : (s.pair f r).out = o :: rest)
    (hroom : o.bytes.length / 32 ≤ s.cqRoom f r) :
    (∀ k l, k < o.bytes.length / 32 → l = entryOf (s.outBytes o) k →
      (s.writeOut f r).rdRaw (s.cqAddr f r (s.fld (Reg.SCH_RING_IDX f r) Fld.SCH_RING_IDX_CQ_TAIL + k)) l.length = l) ∧
    ((∀ q, (s.pair f q).fence = none) →
      ((s.writeOut f r).pair f r).out = rest ∧ ∀ k, k ≠ 32 * f + r → tget {} (s.writeOut f r).pairs k = tget {} s.pairs k) := by
  refine ⟨fun k l hk hl => hl ▸ writeOut_slots hout hroom hk, fun hnone => ?_⟩
  have hpairs := writeOut_pairs hout hroom hnone
  refine ⟨?_, fun k hk => ?_⟩
  · rw [State.pair, hpairs, tget_tset_self]
    rfl
  · rw [hpairs, tset_other_key hk]

/-- FULL_RING_REMINDER raises the ring's vector (R511). -/
theorem reminder_raises {f r at_ : Nat} (h : exec (.fullRingReminder f r at_) s = .next ((s.tick at_).raise f r)) :
    ((s.tick at_).decodes f = false ∨ (s.tick at_).pcie.msixOn.contains f = false → exec (.fullRingReminder f r at_) s = .next (s.tick at_)) ∧
    ((s.tick at_).decodes f = true → (s.tick at_).pcie.msixOn.contains f = true →
      ((s.tick at_).masked f r = false → exec (.fullRingReminder f r at_) s =
        .next { s.tick at_ with pcie := { (s.tick at_).pcie with msix := (f, r, (s.tick at_).now) :: (s.tick at_).pcie.msix } }) ∧
      ((s.tick at_).masked f r = true → exec (.fullRingReminder f r at_) s =
        .next { s.tick at_ with pcie := { (s.tick at_).pcie with
          pendingBits := (32 * f + r) :: (s.tick at_).pcie.pendingBits.filter (· != 32 * f + r) } })) := by
  rw [h]
  generalize s.tick at_ = b
  refine ⟨fun hoff => by rw [raise_of_off hoff], fun hdec hon => ?_⟩
  rw [raise_of_on hdec hon]
  refine ⟨fun hm => by rw [hm, if_neg (by decide)]; rfl, fun hm => by rw [hm, if_pos rfl]⟩

/-- What FRAME_RETURN leaves of the frames that entered the ring. -/
theorem drained_reads {v : State} {p : Nat} {xs : List (Nat × Nat)} {n k : Nat} {e : Nat × Nat} (h : s.drained v p xs n) (hk : k < n)
    (he : xs[k]? = some e) : v.rdMem p (s.freeAddr p (s.freeTail p + k)) 8 = freeEntry e := by
  have hkey : v.keyOf p = s.keyOf p := by rw [h.frame]; rfl
  rw [State.rdMem, hkey, ← freeEntry_length (e := e)]
  exact (h.slots _ k e hk he).read

end Sys2Proof.Machine

namespace Sys2Proof
open Machine

/-- Settles O44: entries are written into slots that lie apart, so each reads back; frames and descriptors likewise. That CQ_FULL counts an
entry's wait once is the model's reading. -/
theorem waitingEntriesAreWritten : Obligations.WaitingEntriesAreWritten := by
  unfold Obligations.WaitingEntriesAreWritten
  refine ⟨?_, ?_, ?_, ?_, ?_⟩
  · intro s fn ring at_ b o rest n tail hb hfn hring hout hn htail
    subst hb hn htail
    rw [exec_completionWrite hfn hring]
    refine ⟨fun hfull => ⟨_, rfl, writeOut_waits hout hfull⟩, fun hroom => ?_⟩
    obtain ⟨hslots, hpairs⟩ := completion_written hfn hring hout hroom
    obtain ⟨hfields, -, -, hframe⟩ := writeOut_frame hout hroom
    obtain ⟨hquiet, hraised⟩ := writeOut_pcie hfn hring hout hroom
    exact ⟨_, rfl, writeOut_tail hout hroom, hslots, hpairs, hquiet, hraised, hfields, hframe⟩
  · intro s fn ring at_ b o rest hb hfn hring hout hwait hroom hsince hlast
    subst hb
    have hsent := lastSent_add_le hlast ((Nat.le_add_left _ _).trans hsince)
    exact reminder_raises (exec_fullRingReminder hfn hring hout hwait hroom (by rw [← Nat.add_max_add_right]; exact max_le hsince hsent))
  · intro s fn ring at_ b h t0 w hb hfn hring hfence
    subst hb
    rw [exec_fenceTimeout hfn hring hfence]
    exact ⟨fun hdue => by rw [if_pos hdue], fun hnot => by rw [if_neg (by omega)]⟩
  · intro s p n x y slot hp hx hn hy hslot hadm
    subst hx hn hy
    have haddr : ∀ k, slot k = s.freeAddr p (s.freeTail p + k) := hslot
    obtain ⟨v, hd, hv⟩ := drainFree_drained (s := s) hp fun k hk => by rw [← haddr]; exact hadm k hk
    rw [exec_frameReturn hp, hv]
    have hself : (v.setPart p (s.relieved p)).part p = s.relieved p := State.part_setPart_self
    have hparts : v.parts = s.parts := by rw [hd.frame]
    refine ⟨fun hleft => ?_, fun w m hw hgone hpark hst => ?_⟩
    · rw [returnsDone_of_left (by rw [hself]; exact hleft)]
      refine ⟨_, rfl, hself, fun q hq => ?_, hd.tail, fun k e hk he => ?_, hd.fields, ?_⟩
      · rw [State.part_setPart_ne hq, State.part, hparts, State.part]
      · rw [haddr]
        have hread : (v.setPart p (s.relieved p)).rdMem p (s.freeAddr p (s.freeTail p + k)) 8 =
          v.rdMem p (s.freeAddr p (s.freeTail p + k)) 8 := rfl
        exact hread.trans (drained_reads hd hk he)
      · have hframe := hd.frame
        generalize v = u at hframe ⊢
        rw [hframe]
        rfl
    · rw [returnsDone_of_gone (by rw [hself]; exact hw) (by rw [hself]; exact hgone), hself]
      generalize hu : (v.setPart p (s.relieved p)).setPart p { s.relieved p with retWaits := [] } = u
      have hupart : u.part p = { s.relieved p with retWaits := [] } := by rw [← hu, State.part_setPart_self]
      have hframe : u.ctxs = s.ctxs ∧ u.aux = s.aux ∧ u.time = s.time ∧ u.pairs = s.pairs := by
        rw [← hu, hd.frame]
        exact ⟨rfl, rfl, rfl, rfl⟩
      obtain ⟨hctxs, haux, htime, hpairs⟩ := hframe
      have hctx : ∀ j, u.ctx j = s.ctx j := fun j => by rw [State.ctx, hctxs, State.ctx]
      have hauxOf : u.auxOf w.ctx = s.auxOf w.ctx := by rw [State.auxOf, haux, State.auxOf]
      obtain ⟨hctxSelf, hctxNe, hparkNone, hupartsKept, hquiet⟩ := parkEnds_parked (s := u) (by rw [hauxOf]; exact hpark) (by rw [hctx]; exact hst)
      refine ⟨_, rfl, ?_, ?_, fun j hj => (hctxNe j hj).trans (hctx j), hparkNone, fun hm => (hquiet hm).trans hpairs⟩
      · rw [State.part, hupartsKept]
        exact hupart
      · rw [hctxSelf, hctx, htime]
        rfl
  · intro s q hq hsys
    rw [exec_contextCacheWriteBack hq]
    have hall := flushedAll_each (xs := s.cached q) hsys
    refine ⟨_, rfl, fun i hi => ⟨by rw [hall.done i hi], fun hd => ?_⟩, hall.rest, hall.frame⟩
    generalize s.each (s.cached q) (fun s i => s.flushed i) = t at hall ⊢
    have hkey : t.keyOf 0 = s.keyOf 0 := by rw [hall.frame]; rfl
    have hread := (hall.stored t.clk.count i hi hd).read
    rw [descriptor_length] at hread
    rw [State.rdMem, hkey]
    exact hread

end Sys2Proof
end

section
/-! PROOFS. Lock alarms of rings (R166, R326, R344): an alarm during a step whose context names a partition that does not exist. -/

namespace Sys2Proof.Machine

/-- A step of one context whose head-layer holds an optical result. -/
def alarmedStep : Step :=
  { id := 0, builtAt := 0, slots := [{ ctx := 0, kind := .decode, p0 := 5, npos := 1, emits := true }], npos := 1, predicted := 0, gen := 0,
    profile := 1, sparse := false, escSat := 0, escZro := 0, chkCfg := 0, mdtCfg := 0, indCfg := 0 }

/-- A head group of one row, whose last optical pass has just ended. -/
def alarmedAttn : Attn := { pslot := 0, place := 0, ctx := 0, layer := 0, head := 0, rows := [⟨5, none, 0, [], 0, none, 0, [], false, some 0⟩] }

/-- A module whose tile 0 works on a head-layer of context 0, of partition 14336: the count of that number stands where the status register
of cluster 0 stands, whose ALARMS lie in it. -/
def strayAlarm : State :=
  { State.reset with
    models := [(0, { st := .loaded, img := onePage })], ctxs := [(0, { part := 14336, pos := 5 })],
    places := [(0, { present := true, cfg := { tiles := [0] }, pslot := [(0, 0)], step := some alarmedStep })],
    tiles := [(0, { attns := [alarmedAttn] })], rings := [(0, { st := .locked, quality := 992 })] }.each
    [(Reg.CFG_PHYS_MAP 0, Fld.CFG_PHYS_MAP_STATE, 1), (Reg.RNG_CLU_STAT 0, Fld.IND_PART_CNT_LOCK_REPLAY, 2047)] fun s x => s.setFld x.1 x.2.1 x.2.2

/-- The alarm is counted, and the replay of the head-layer beside it. -/
theorem exec_strayAlarm : ∃ t, exec (.lockAlarm 0 0 0) strayAlarm = .next t ∧
    t.fld (Reg.RNG_CLU_STAT 0) Fld.RNG_CLU_STAT_ALARMS = 2 := ⟨_, rfl, by decide +kernel⟩

/-- The ring is locked and no alarm has been counted. -/
theorem strayAlarm_premises : ((strayAlarm.tick 0).ring 0 0).locked = true ∧
    (strayAlarm.tick 0).fld (Reg.RNG_CLU_STAT 0) Fld.RNG_CLU_STAT_ALARMS = 0 := by decide +kernel

end Sys2Proof.Machine

namespace Sys2Proof
open Machine

/-- Refutes O49: the alarm's replays are counted for the partition that the context names, which no rule bounds; with a number that is no
partition's the count falls on the cluster's ALARMS. -/
theorem not_ringsFollowTheirTones : ¬ Obligations.RingsFollowTheirTones := by
  unfold Obligations.RingsFollowTheirTones
  rintro ⟨halarm, -, -⟩
  obtain ⟨t, hexec, htwo⟩ := exec_strayAlarm
  obtain ⟨hlocked, hzero⟩ := strayAlarm_premises
  obtain ⟨u, hu, -, hcounted, -⟩ := (halarm strayAlarm 0 0 0 _ _ _ rfl (by decide) (by decide) rfl (.inl rfl)).2 hlocked
  obtain rfl := Host.Outcome.next.inj (hexec.symm.trans hu)
  rw [State.counted, hzero, htwo] at hcounted
  exact absurd hcounted (by decide)

end Sys2Proof
end

section
/-! PROOFS. Fades of lasers (R335, R338, R339): a loss of light during a step whose context names a partition that does not exist. -/

namespace Sys2Proof.Machine

variable {s u : State}

/-! ## A loss of light at wavelength 0 -/

theorem ringAlarm_of_unlocked {c r : Nat} (h : ∀ e ∈ s.rings, e.2.locked = false) : s.ringAlarm c r = s := by
  refine if_pos ?_
  have hring : ∀ l : Tbl Ring, (∀ e ∈ l, e.2.locked = false) → ∀ k, (tget {} l k).locked = false := fun l hl k => by
    induction l with
    | nil => rfl
    | cons e l ih =>
      rw [tget]
      split
      · exact hl e List.mem_cons_self
      · exact ih fun x hx => hl x (List.mem_cons_of_mem _ hx)
  rw [State.ring, hring _ h]
  rfl

theorem each_cons_eq {α : Type} {x : α} {xs : List α} {f : State → α → State} (hx : f s x = u) (h : ∀ y ∈ xs, f u y = u) :
    s.each (x :: xs) f = u := by
  rw [State.each, List.foldl_cons, hx]
  exact each_eq_self h

/-- Where ring 0 of cluster 0 alone is locked, only it takes the alarm of wavelength 0. -/
theorem waveAlarm_first (hu : s.ringAlarm 0 0 = u) (h : ∀ e ∈ u.rings, e.2.locked = false) : s.waveAlarm 0 = u := by
  have hrings : ∀ (rs : List Nat) c, u.each rs (fun s r => s.ringAlarm c r) = u := fun rs c => each_eq_self fun _ _ => ringAlarm_of_unlocked h
  unfold State.waveAlarm
  rw [show 272 = 271 + 1 from rfl, List.range_succ_eq_map, List.map_cons]
  refine each_cons_eq ?_ fun i _ => ?_
  · rw [if_pos (by decide)]
    exact each_cons_eq hu fun _ _ => ringAlarm_of_unlocked h
  · split
    · exact hrings _ _
    · rfl

/-- The state after a FADE_EVALUATION's count of a power that is not low. -/
def State.powerSeen (s : State) (n : Nat) (pwr : Int) : State :=
  let x := s.laser n
  let low := pwr < s.lasTarget n - 10 * (s.fld Reg.LAS_CFG Fld.LAS_CFG_FADE_DB : Nat)
  let s0 := s.setFld (Reg.LAS_BIAS n) Fld.LAS_BIAS_PWR (unsigned 16 pwr)
  if x.lowAt + 100000000 ≤ s.now || x.lowAt = 0 then s0.setLaser n { x with lowAt := s.now, lowN := if low then x.lowN + 1 else 0 } else s0

/-- The state once a loss of light is recorded, before the rings of its wavelength are told. -/
def State.darkened (s : State) (n : Nat) : State :=
  let s1 := ((s.setFld (Reg.LAS_STAT n) Fld.LAS_STAT_FADE_CAUSE 3).bump (Reg.LAS_BANK (lasQuad n)) Fld.LAS_BANK_FADE_EV).fault 0x0301 2 srcHw n
    (leBytes 1 3)
  let s2 := s1.setLaser n { s1.laser n with fadeAt := s1.now }
  (s2.setLas n 5).setLaser n { s2.laser n with dark := true }

theorem fade_of_dark {n w : Nat} (h : lasWave n = some w) : s.fade n 3 = (s.darkened n).waveAlarm w := by
  unfold State.fade
  simp only [h]
  rfl

/-- A loss of light whose spare cannot be warmed: FADE_EVALUATION records it and no more. -/
theorem exec_fadeEvaluation_dark {n at_ : Nat} {pwr : Int} {b : State} (hb : b = (s.tick at_).powerSeen n pwr) (hn : laserOk n = true)
    (hbus : (s.tick at_).onBus n = true) (hwas : b.fadeCause n = 0) (hdark : ((s.tick at_).laser n).dark = false)
    (hcause : b.fadeTrigger n pwr (b.laser n).lowN = 3) (hspare : (b.fade n 3).hasSpare n = true) (hpcp : (b.fade n 3).pcp (lasQuad n) = false) :
    exec (.fadeEvaluation n pwr at_) s = .next (b.fade n 3) := by
  show execFadeEvaluation n pwr at_ s = _
  have heq : execFadeEvaluation n pwr at_ s = onObject (laserOk n)
      (if !((s.tick at_).onBus n) then s.tick at_
       else
         let s1 := (s.tick at_).powerSeen n pwr
         let was := s1.fadeCause n
         let cause := if ((s.tick at_).laser n).dark then 0 else s1.fadeTrigger n pwr (s1.laser n).lowN
         let s2 := if cause ≠ 0 && (was = 0 || (cause = 3 && was ≠ 3)) then s1.fade n cause else s1
         if s2.fadeCause n = 0 then s2
         else if !(s2.hasSpare n) then s2.noSpare n pwr
         else if s2.lasSt (spareOf n) = 0 && s2.pcp (lasQuad n) then s2.warmLaser (spareOf n) s2.now
         else s2) := rfl
  rw [heq, hbus, hn, ← hb, hdark]
  simp [hcause, hwas, onObject, hspare, hpcp]

/-! ## The counterexample -/

/-- A module whose tile 0 works on a head-layer of context 0, of partition 5664, when the laser of its wavelength 0 goes dark: the count of that
number stands where the register of laser bank 0 stands, whose FADE_EV lies in it. -/
def strayFade : State :=
  { State.reset with
    models := [(0, { st := .loaded, img := onePage })], ctxs := [(0, { part := 5664, pos := 5 })],
    places := [(0, { present := true, cfg := { tiles := [0] }, pslot := [(0, 0)], step := some alarmedStep })],
    tiles := [(0, { attns := [alarmedAttn] })], rings := [(0, { st := .locked })] }.each
    [(Reg.CFG_PHYS_MAP 0, Fld.CFG_PHYS_MAP_STATE, 1), (Reg.LAS_STAT 0, Fld.LAS_STAT_SEL, 1),
      (Reg.LAS_BANK 0, Fld.IND_PART_CNT_LOCK_REPLAY, 2047)] fun s x => s.setFld x.1 x.2.1 x.2.2

/-- The same once its light is gone and ring 0 of cluster 0, the only one in lock, has taken its alarm. -/
def strayFaded : State := (((strayFade.tick 0).powerSeen 0 (-30000)).darkened 0).ringAlarm 0 0

theorem strayFade_fade : ((strayFade.tick 0).powerSeen 0 (-30000)).fade 0 3 = strayFaded := by
  rw [fade_of_dark (w := 0) rfl]
  exact waveAlarm_first rfl (by decide +kernel)

/-- The laser is in service and has not faded; its light is gone. -/
theorem strayFade_premises : (strayFade.tick 0).onBus 0 = true ∧ (strayFade.tick 0).fadeCause 0 = 0 ∧
    ((strayFade.tick 0).laser 0).dark = false ∧ (∀ lowN ∈ [0, 1], (strayFade.tick 0).fadeTrigger 0 (-30000) lowN = 3) ∧
    ((strayFade.tick 0).laser 0).lowN = 0 ∧
    (strayFade.tick 0).fld (Reg.LAS_BANK (lasQuad 0)) Fld.LAS_BANK_FADE_EV = 0 := by decide +kernel

/-- The fade is recorded, and its spare not warmed, since no PCP is alive. -/
theorem exec_strayFade : exec (.fadeEvaluation 0 (-30000) 0) strayFade = .next strayFaded := by
  have h := exec_fadeEvaluation_dark (s := strayFade) (n := 0) (at_ := 0) (pwr := -30000) rfl rfl strayFade_premises.1 (by decide +kernel)
    strayFade_premises.2.2.1 (by decide +kernel) (by rw [strayFade_fade]; decide +kernel) (by rw [strayFade_fade]; decide +kernel)
  rwa [strayFade_fade] at h

/-- The fade is counted, and the replay of the head-layer beside it. -/
theorem strayFaded_counts : strayFaded.fld (Reg.LAS_BANK (lasQuad 0)) Fld.LAS_BANK_FADE_EV = 2 := by decide +kernel

end Sys2Proof.Machine

namespace Sys2Proof
open Machine

/-- Refutes O50: a loss of light gives the rings of its wavelength the lock alarm, whose replays are counted for the partition that the context
names, which no rule bounds; with a number that is no partition's the count falls on the bank's FADE_EV. -/
theorem not_lasersFadeAndAreReplaced : ¬ Obligations.LasersFadeAndAreReplaced := by
  unfold Obligations.LasersFadeAndAreReplaced
  rintro ⟨-, hfade, -⟩
  obtain ⟨hbus, hwas, hdark, htrigger, hlow, hzero⟩ := strayFade_premises
  obtain ⟨u, hu, -, -, hnew, -⟩ := (hfade strayFade 0 0 (-30000) _ _ _ _ _ rfl (by decide) rfl rfl rfl rfl).2 hbus
  obtain rfl := Host.Outcome.next.inj (exec_strayFade.symm.trans hu)
  have hcause : ∀ lowN ∈ [0, 1], (if ((strayFade.tick 0).laser 0).dark = true then 0 else (strayFade.tick 0).fadeTrigger 0 (-30000) lowN) = 3 :=
    fun lowN h => by rw [hdark, if_neg (by decide), htrigger lowN h]
  rw [hcause _ (by rw [hlow]; split_ifs <;> decide), hwas] at hnew
  obtain ⟨-, hcounted, -⟩ := hnew ⟨by decide, .inl rfl⟩
  rw [State.counted, hzero, strayFaded_counts] at hcounted
  exact absurd hcounted (by decide)

end Sys2Proof
end

section
/-! PROOFS. Passes on the arrays (R51, R57): a digital replay under a placement of a partition that does not exist. -/

namespace Sys2Proof.Machine

/-- The share of a layer for one tile: no outputs, so that a pass over it has no chunk to read. -/
def emptyShare : Share := ⟨0, 32, 0, 0, 0, 0, 0, 0⟩

/-- A layer of one share. -/
def replayLayer : Layer := { kind := 1, wfmt := 8, afmt := 8, pin := 0, ascale := 0, norm := 0, act := 0, lflags := 0, k := 32, n := 32, theta := 0,
                             attIdx := 0, split := 1, wOff := 0, wBytes := 0, wCap := 0, dirOff := 0, nExp := 0, top := 0, shares := [emptyShare] }

/-- The model whose image has that layer alone. -/
def replayModel : Model := { st := .loaded, img := { bytes := 4096, tiles := 1, vocab := 1000, layers := [replayLayer] } }

/-- A pass at XB8 whose outliers overflowed: it climbs to a digital replay. -/
def overflowed : Pass := { pslot := 0, place := 0, model := 0, layer := 0, share := 0, acts := [], fmt := 8, ovf := true }

/-- The copy of the share in the tile's SRAM. -/
def replayCopy : ShareCopy := ⟨0, 0, 0, 0, [], [], []⟩

/-- The step of the pass. -/
def replayStep : Step :=
  { id := 0, builtAt := 0, slots := [], npos := 0, predicted := 0, gen := 0, profile := 1, sparse := false, escSat := 0, escZro := 0,
    chkCfg := 0, mdtCfg := 0, indCfg := 0 }

/-- A module whose tile 0 has finished that pass for a placement of partition 1248: the count of that number stands where the tile's stands. -/
def strayReplay : State :=
  { State.reset with
    models := [(0, replayModel)], places := [(0, { present := true, part := 1248, cfg := { tiles := [0] }, pslot := [(0, 0)], step := some replayStep })],
    tiles := [(0, { pass := some overflowed, copies := [replayCopy] })] }

/-- The replay is counted for the tile and, ten bits higher in the same register, for the partition. -/
theorem exec_strayReplay : ∃ t, exec (.tileLayerPassEnd 0 false [] []) strayReplay = .next t ∧
    t.fld (Reg.MDT_TILE_ESC 0) Fld.MDT_TILE_ESC_TO_DIG = 1025 := ⟨_, rfl, by decide +kernel⟩

/-- Tile 0 stands on a physical tile, works on the pass, and holds the copy of its share; no replay has been counted. -/
theorem strayReplay_premises : ∃ i, strayReplay.physOf 0 = some i ∧ (strayReplay.tile 0).pass = some overflowed ∧
    (strayReplay.place 0).step = some replayStep ∧ strayReplay.shareOf 0 0 0 = some (replayModel, replayLayer, emptyShare, 0) ∧
    strayReplay.copyOf 0 0 0 0 0 = some replayCopy ∧ strayReplay.fld (Reg.MDT_TILE_ESC 0) Fld.MDT_TILE_ESC_TO_DIG = 0 :=
  ⟨(strayReplay.physOf 0).get (by decide +kernel), by decide +kernel⟩

end Sys2Proof.Machine

namespace Sys2Proof
open Machine

/-- Refutes O42: a climb is counted for the placement's partition, which no rule bounds; with a number that is no partition's the count falls on
the tile's own counts. -/
theorem not_passesRunOnTheArrays : ¬ Obligations.PassesRunOnTheArrays := by
  unfold Obligations.PassesRunOnTheArrays
  rintro ⟨-, -, hend, -⟩
  obtain ⟨t, hexec, hcount⟩ := exec_strayReplay
  obtain ⟨i, hphys, hpass, hstep, hshare, hcopy, hzero⟩ := strayReplay_premises
  have hgoes := (hend strayReplay strayReplay 0 false [] [] i overflowed replayStep replayModel replayLayer emptyShare 0 _ replayCopy _
    (by decide) hphys hpass hstep hshare (.inr (by decide)) (.inl ⟨hcopy, rfl⟩) rfl).2 (.inl rfl)
  obtain ⟨u, st', hu, -, -, -, hcounted, -⟩ := (hgoes.2 rfl rfl).2.2 (by decide) (by decide) (.inl rfl)
  obtain rfl := Host.Outcome.next.inj (hexec.symm.trans hu)
  rw [State.counted, hzero, hcount] at hcounted
  exact absurd hcounted (by decide)

end Sys2Proof
end

section
/-! PROOFS. Score and mix passes and the forwarding of head-layers (R148 to R173): what the stream buffer and the slice arbiter change of a tile,
what a pass changes of its head group, and that the group worked on is the one that the tile holds after the pass. -/

namespace Sys2Proof.Machine

variable {s t : State} {v : AttnEnv} {a g : Attn}

/-! ## The setting of a head group -/

theorem attnEnv_names {tile pslot i layer head : Nat} (h : s.attnEnv tile pslot i layer head = some v) :
    v.t = tile ∧ v.ctx = i ∧ v.layer = layer ∧ v.head = head := by
  unfold State.attnEnv at h
  split at h
  · cases h
  · extract_lets c im at h
    split at h
    · split at h
      · extract_lets cross keys at h
        split at h
        · cases h
        · cases h
          exact ⟨rfl, rfl, rfl, rfl⟩
      · cases h
    · cases h

/-- The group is that of the setting's placement and context for a layer and the setting's head. -/
def Attn.isOf (a : Attn) (v : AttnEnv) (layer : Nat) : Prop := a.place = v.l ∧ a.ctx = v.ctx ∧ a.layer = layer ∧ a.head = v.head

theorem attnAt_isOf {layer : Nat} (h : s.attnAt v layer = some a) : a.isOf v layer := by
  have hp := List.find?_some h
  simpa [Attn.isOf, and_assoc] using hp

theorem attnAt_congr {layer : Nat} (h : (t.tile v.t).attns = (s.tile v.t).attns) : t.attnAt v layer = s.attnAt v layer := by
  rw [State.attnAt, State.attnAt, h]

/-- The first group with the key of `a`, once `a` has taken the place of every one that has it. -/
theorem find_replaced {α : Type} {xs : List α} {p : α → Bool} {a : α} (hp : p a = true) (hx : xs.any p = true) :
    (xs.map fun b => if p b then a else b).find? p = some a := by
  induction xs with
  | nil => cases hx
  | cons x t ih =>
    by_cases hpx : p x = true
    · simp [hpx, hp]
    · have ht : t.any p = true := by simpa [hpx] using hx
      simpa [hpx] using ih ht

theorem attnAt_setAttn {layer : Nat} (ha : a.isOf v layer) : (s.setAttn v.t a).attnAt v layer = some a := by
  obtain ⟨hplace, hctx, hlayer, hhead⟩ := ha
  unfold State.setAttn State.attnAt
  extract_lets x same
  rw [State.tile, State.setTile, tget_tset_self, ← hplace, ← hctx, ← hlayer, ← hhead]
  have hself : same a = true := by simp [same]
  split
  · exact find_replaced hself ‹_›
  · next hno =>
    have hnone : x.attns.find? same = none := by simpa using hno
    rw [List.find?_append, hnone]
    simp [same]

/-! ## The slice of a tile -/

theorem setAttn_tile {u : Nat} : (s.setAttn u a).tile u = { s.tile u with attns := ((s.setAttn u a).tile u).attns } := by
  unfold State.setAttn
  rw [State.tile, State.setTile, tget_tset_self]

theorem setAttn_tile_ne {u w : Nat} (h : w ≠ u) : (s.setAttn u a).tile w = s.tile w := State.tile_setTile_ne h

theorem passEnds_tile {u k : Nat} {left : Option (Nat × Nat × Nat × Nat × Nat)} {exact mix : Bool} :
    (s.passEnds u k left exact mix).tile u = { s.tile u with
      scoring := left, slPtr := if left.isSome then (s.tile u).slPtr else (k + 1) % 16, mixMode := if exact then (s.tile u).mixMode else mix } :=
  State.tile_setTile_self

/-- What a segment through the stream buffer leaves of the state, and of the tile it stands in. -/
theorem sbSegment_frame {off seg : Nat} {r : List (Int × List Int) ⊕ KvRead} (h : s.sbSegment v off seg = (t, r)) :
    t = { s with tiles := t.tiles } ∧ t.tile v.t = { s.tile v.t with sb := (t.tile v.t).sb, sbNext := (t.tile v.t).sbNext } ∧
      ∀ u, u ≠ v.t → t.tile u = s.tile u := by
  unfold State.sbSegment at h
  extract_lets x at h
  split at h
  · cases h
    exact ⟨rfl, rfl, fun _ _ => rfl⟩
  · split at h
    · cases h
      exact ⟨rfl, rfl, fun _ _ => rfl⟩
    · cases h
      exact ⟨rfl, by rw [State.tile_setTile_self], fun u hu => State.tile_setTile_ne hu⟩

theorem inFallback_congr (h : (t.tile v.t).retiring = (s.tile v.t).retiring) : t.inFallback v = s.inFallback v := by
  rw [State.inFallback, State.inFallback, h]

/-- A group put back and the pass ended: the group stands in the tile, and the arbiter has moved past the slot unless row sets are left. -/
structure PassDone (s t : State) (v : AttnEnv) (layer k : Nat) (left : Option (Nat × Nat × Nat × Nat × Nat)) (g : Attn) : Prop where
  group : t.attnAt v layer = some g
  sb : (t.tile v.t).sb = (s.tile v.t).sb
  scoring : (t.tile v.t).scoring = left
  slPtr : (t.tile v.t).slPtr = if left.isSome then (s.tile v.t).slPtr else (k + 1) % 16
  others : ∀ u, u ≠ v.t → t.tile u = s.tile u
  frame : t = { s with tiles := t.tiles }

theorem passDone_setAttn {layer k : Nat} {left : Option (Nat × Nat × Nat × Nat × Nat)} {exact mix : Bool} (hg : g.isOf v layer) :
    PassDone s ((s.setAttn v.t g).passEnds v.t k left exact mix) v layer k left g where
  group := (attnAt_congr (by rw [passEnds_tile])).trans (attnAt_setAttn hg)
  sb := by rw [passEnds_tile, setAttn_tile]
  scoring := by rw [passEnds_tile]
  slPtr := by rw [passEnds_tile, setAttn_tile]
  others u hu := (State.tile_setTile_ne hu).trans (setAttn_tile_ne hu)
  frame := rfl

/-! ## Scores -/

/-- Group g is a with the rows of `is` scored over a segment. -/
structure Attn.ScoredOver (v : AttnEnv) (exact : Bool) (now seg : Nat) (is : List Nat) (a g : Attn) : Prop where
  key : g.isOf v a.layer ↔ a.isOf v a.layer
  layer : g.layer = a.layer
  mixed : g.mixed = a.mixed
  length : g.rows.length = a.rows.length
  others : ∀ j, j ∉ is → g.rows[j]? = a.rows[j]?
  kept : ∀ z ∈ a.scored, z.1 ∉ is → z ∈ g.scored
  scored : ∀ j ∈ is, ∀ r, g.rows[j]? = some r →
    (∃ sc, (j, seg, sc) ∈ g.scored) ∧ (exact = false → r.optAt = some now) ∧ (exact = true → r.fb = true)

theorem Attn.scoredOver_nil {exact : Bool} {now seg : Nat} : Attn.ScoredOver v exact now seg [] a a :=
  ⟨Iff.rfl, rfl, rfl, rfl, fun _ _ => rfl, fun _ hz _ => hz, fun _ hj => absurd hj List.not_mem_nil⟩

theorem Attn.ScoredOver.cons {exact : Bool} {now seg i : Nat} {is : List Nat} {b : Attn} (h : Attn.ScoredOver v exact now seg [i] a b)
    (k : Attn.ScoredOver v exact now seg is b g) : Attn.ScoredOver v exact now seg (i :: is) a g where
  key := by rw [← h.key, ← h.layer]; exact k.key
  layer := k.layer.trans h.layer
  mixed := k.mixed.trans h.mixed
  length := k.length.trans h.length
  others j hj := by
    rw [List.mem_cons, not_or] at hj
    exact (k.others j hj.2).trans (h.others j (by simpa using hj.1))
  kept z hz hzi := by
    rw [List.mem_cons, not_or] at hzi
    exact k.kept z (h.kept z hz (by simpa using hzi.1)) hzi.2
  scored j hj r hr := by
    by_cases hjs : j ∈ is
    · exact k.scored j hjs r hr
    · have hji : j = i := by simpa [hjs] using hj
      obtain ⟨⟨sc, hsc⟩, hopt, hfb⟩ := h.scored j (by simp [hji]) r ((k.others j hjs) ▸ hr)
      exact ⟨⟨sc, k.kept _ hsc hjs⟩, hopt, hfb⟩

theorem scoreRow_frame {exact : Bool} {seg i : Nat} {keys : List (Int × List Int)} :
    (s.scoreRow v exact seg i keys a).1 =
      { s with regs := (s.scoreRow v exact seg i keys a).1.regs, free := (s.scoreRow v exact seg i keys a).1.free } := by
  unfold State.scoreRow
  split
  · rfl
  · dsimp only
    rw [bumpBy_eq, bumpBy_eq (s := { s with free := _ })]

theorem scoreRow_scores {exact : Bool} {seg i : Nat} {keys : List (Int × List Int)} :
    Attn.ScoredOver v exact s.now seg [i] a (s.scoreRow v exact seg i keys a).2 := by
  unfold State.scoreRow
  split
  · next hnone =>
    refine ⟨Iff.rfl, rfl, rfl, rfl, fun _ _ => rfl, fun _ hz _ => hz, fun j hj r hr => ?_⟩
    rw [List.mem_singleton.mp hj, hnone] at hr
    cases hr
  · next r hrow =>
    refine ⟨Iff.rfl, rfl, rfl, by simp, fun j hj => ?_, fun z hz hzi => ?_, fun j hj r1 hr1 => ?_⟩
    · exact List.getElem?_set_ne (by simpa [eq_comm] using hj)
    · have hne : z.1 ≠ i := by simpa using hzi
      simp [hz, hne]
    · obtain rfl := List.mem_singleton.mp hj
      obtain ⟨hlt, -⟩ := List.getElem?_eq_some_iff.mp hrow
      rw [List.getElem?_set_self hlt] at hr1
      refine ⟨⟨_, List.mem_append_right _ (List.mem_singleton.mpr rfl)⟩, fun he => ?_, fun he => ?_⟩
      · rw [he] at hr1
        cases hr1
        rfl
      · rw [he] at hr1
        cases hr1
        rfl

/-- Rows of a set scored one after the other. -/
def State.scoreSet (s : State) (v : AttnEnv) (exact : Bool) (seg : Nat) (keys : List (Int × List Int)) (is : List Nat) (a : Attn) : State × Attn :=
  is.foldl (fun (x : State × Attn) i => x.1.scoreRow v exact seg i keys x.2) (s, a)

theorem scoreSet_scores {exact : Bool} {seg : Nat} {keys : List (Int × List Int)} {is : List Nat} :
    (s.scoreSet v exact seg keys is a).1 = { s with
      regs := (s.scoreSet v exact seg keys is a).1.regs, free := (s.scoreSet v exact seg keys is a).1.free } ∧
    Attn.ScoredOver v exact s.now seg is a (s.scoreSet v exact seg keys is a).2 := by
  induction is generalizing s a with
  | nil => exact ⟨rfl, Attn.scoredOver_nil⟩
  | cons i t ih =>
    have hone := scoreRow_scores (s := s) (v := v) (exact := exact) (seg := seg) (i := i) (keys := keys) (a := a)
    have hframe := scoreRow_frame (s := s) (v := v) (exact := exact) (seg := seg) (i := i) (keys := keys) (a := a)
    obtain ⟨hrest, hall⟩ := ih (s := (s.scoreRow v exact seg i keys a).1) (a := (s.scoreRow v exact seg i keys a).2)
    have hnow : (s.scoreRow v exact seg i keys a).1.now = s.now := by rw [hframe]
    rw [hnow] at hall
    have hcons : s.scoreSet v exact seg keys (i :: t) a =
        (s.scoreRow v exact seg i keys a).1.scoreSet v exact seg keys t (s.scoreRow v exact seg i keys a).2 := rfl
    rw [hcons]
    generalize (s.scoreRow v exact seg i keys a).2 = b, (s.scoreRow v exact seg i keys a).1 = u at *
    refine ⟨?_, hone.cons hall⟩
    rw [hrest, hframe]

/-- A row set scored, the group put back, and the slice kept for `pass` while rows of the segment are left. -/
def State.scorePassEnds (s : State) (v : AttnEnv) (tile pslot seg : Nat) (pass : Option (Nat × Nat × Nat × Nat × Nat)) (keys : List (Int × List Int))
    (is : List Nat) (a : Attn) : State :=
  let exact := s.inFallback v
  let r := s.scoreSet v exact seg keys is a
  (r.1.setAttn tile r.2).passEnds tile pslot (if r.2.scoredAll v seg then none else pass) exact false

/-! ## Mixes -/

/-- A group's rows in number, its key and its scores, which a mix leaves. -/
def Attn.frame (a : Attn) : Nat × (Nat × Nat × Nat × Nat) × List (Nat × Nat × List (Option F32)) :=
  (a.rows.length, (a.place, a.ctx, a.layer, a.head), a.scored)

theorem mixRow_frame {bound : Option Nat} {exact : Bool} {now seg i : Nat} {vals : List (Int × List Int)} {x : Nat × Attn} :
    (mixRow v bound exact now seg i vals x).2.frame = x.2.frame := by
  unfold mixRow
  split
  · simp [Attn.frame]
  · rfl

theorem mixRows_frame {bound : Option Nat} {exact : Bool} {now seg : Nat} {vals : List (Int × List Int)} {is : List Nat} {x : Nat × Attn} :
    (is.foldl (fun x i => mixRow v bound exact now seg i vals x) x).2.frame = x.2.frame := by
  induction is generalizing x with
  | nil => rfl
  | cons i t ih => exact ih.trans mixRow_frame

/-! ## The commands -/

/-- The rows of a pass are one to eight vectors of the group's dimension. -/
theorem rowsFit {rows : List QueryRow} {dh : Nat} (hne : rows ≠ []) (h8 : rows.length ≤ 8) (hdh : ∀ r ∈ rows, r.q.length = dh) :
    (rows.isEmpty || decide (8 < rows.length) || !(rows.all fun r => r.q.length == dh)) = false := by
  have hall : (rows.all fun r => r.q.length == dh) = true := by simpa using hdh
  simp [hne, hall]
  omega

theorem exec_scorePass {tile pslot i layer head seg : Nat} {rows : List QueryRow} {a1 : Attn} {k : Nat} {b c : State} {keys : List (Int × List Int)}
    (ht : tile < 1024) (hk : pslot < 16) (henv : s.attnEnv tile pslot i layer head = some v) (hne : rows ≠ []) (h8 : rows.length ≤ 8)
    (hdh : ∀ r ∈ rows, r.q.length = v.att.dh) (hkeys : v.keys ≠ 0)
    (ha : a = (s.attnAt v layer).getD { pslot := pslot, place := v.l, ctx := i, layer := layer, head := head, rows := [] })
    (hset : a.rowSet v seg rows = some k) (hseg : seg < v.segs) (hup : seg ≤ a.mixed + 1) (hlow : a.mixed ≤ seg)
    (hprev : seg = 0 ∨ a.mixed = seg ∨ a.scoredAll v (seg - 1) = true) (hnew : ∀ j ∈ v.setRows k, a.hasScore j seg = false)
    (hgrant : s.sliceGrants tile pslot (some (pslot, i, layer, head, seg)) = true)
    (ha1 : a1 = { a with rows := a.rows ++ if seg = 0 then (rows.map (newRow v.att.dh)).map Prod.fst else [] })
    (hneeds : ∃ j ∈ v.setRows k, ∃ r, a1.rows[j]? = some r ∧ v.needs r seg = true)
    (hb : b = s.bumpBy (Reg.IND_TILE_CNT tile) Fld.IND_TILE_CNT_QKV_CLIP
      (if seg = 0 then ((rows.map (newRow v.att.dh)).map Prod.snd).sum else 0))
    (hsb : b.sbSegment v 0 seg = (c, .inl keys)) :
    exec (.scorePass tile pslot i layer head seg rows) s =
      .next (c.scorePassEnds v tile pslot seg (some (pslot, i, layer, head, seg)) keys (v.setRows k) a1) := by
  have hmade1 : (if seg = 0 then (rows.map (newRow v.att.dh)).map Prod.fst else []) =
      (if seg = 0 then rows.map (newRow v.att.dh) else []).map Prod.fst := by split <;> rfl
  have hmade2 : (if seg = 0 then ((rows.map (newRow v.att.dh)).map Prod.snd).sum else 0) =
      ((if seg = 0 then rows.map (newRow v.att.dh) else []).map Prod.snd).sum := by split <;> rfl
  rw [hmade1] at ha1
  subst ha1
  rw [hmade2] at hb
  have hform := rowsFit hne h8 hdh
  have hturn : (decide (v.segs ≤ seg) || decide (a.mixed + 1 < seg) || decide (seg < a.mixed) ||
      (seg != 0 && !(a.scoredAll v (seg - 1)) && decide (a.mixed < seg)) ||
      (v.setRows k).any (fun i => a.hasScore i seg) || !(s.sliceGrants tile pslot (some (pslot, i, layer, head, seg)))) = false := by
    have hany : (v.setRows k).any (fun i => a.hasScore i seg) = false := by simpa using hnew
    have horder : (seg != 0 && !(a.scoredAll v (seg - 1)) && decide (a.mixed < seg)) = false := by
      rcases hprev with h | h | h
      · simp [h]
      · simp [h]
      · simp [h]
    rw [hany, horder, hgrant]
    simp
    omega
  obtain ⟨j, hj, r, hr, hn⟩ := hneeds
  have hobj : (decide (tile < 1024) && decide (pslot < 16)) = true := by simp [ht, hk]
  show execScorePass tile pslot i layer head seg rows s = _
  unfold execScorePass
  rw [hobj, henv]
  dsimp only
  rw [if_neg (by rw [hform]; decide), if_neg hkeys, ← ha, hset]
  dsimp only
  rw [if_neg (by rw [hturn]; decide), if_neg (by
    rw [Bool.not_eq_true', Bool.not_eq_false, List.any_eq_true]
    exact ⟨j, hj, by rw [hr]; exact hn⟩), ← hb, hsb]
  rfl

theorem exec_mixPass {tile pslot i layer head seg : Nat} {b : State} {vals : List (Int × List Int)} {r : Nat × Attn}
    (ht : tile < 1024) (hk : pslot < 16) (henv : s.attnEnv tile pslot i layer head = some v) (ha : s.attnAt v layer = some a)
    (hmixed : a.mixed = seg) (hseg : seg < v.segs) (hall : a.scoredAll v seg = true)
    (hnext : v.segs ≤ seg + 1 ∨ a.scoredAll v (seg + 1) = true) (hgrant : s.sliceGrants tile pslot none = true)
    (hsb : s.sbSegment v 1 seg = (b, .inl vals))
    (hr : r = (List.range a.rows.length).foldl (fun x i => mixRow v (b.mixLimit v) (b.inFallback v) b.now seg i vals x) (b.free, a)) :
    exec (.mixPass tile pslot i layer head seg) s =
      .next (({ b with free := r.1 }.setAttn tile { r.2 with mixed := seg + 1, scored := r.2.scored.filter (fun z => z.2.1 != seg) }).passEnds
        tile pslot none (b.inFallback v) true) := by
  have hturn : (decide (a.mixed ≠ seg) || decide (v.segs ≤ seg) || !(a.scoredAll v seg) ||
      (decide (seg + 1 < v.segs) && !(a.scoredAll v (seg + 1))) || !(s.sliceGrants tile pslot none)) = false := by
    have hlast : (decide (seg + 1 < v.segs) && !(a.scoredAll v (seg + 1))) = false := by
      rcases hnext with h | h
      · simp [h]
      · simp [h]
    rw [hlast, hall, hgrant]
    simp [hmixed]
    omega
  have hobj : (decide (tile < 1024) && decide (pslot < 16)) = true := by simp [ht, hk]
  show execMixPass tile pslot i layer head seg s = _
  unfold execMixPass
  rw [hobj, henv]
  dsimp only
  rw [ha]
  dsimp only
  rw [if_neg (by rw [hturn]; decide), hsb]
  dsimp only
  rw [← hr]
  rfl

theorem setRows_scored {tile pslot seg k : Nat} {layer : Nat} {a1 : Attn} {b c : State} {keys : List (Int × List Int)} {pass : Nat × Nat × Nat × Nat × Nat}
    (htile : v.t = tile) (ha1 : a1.isOf v layer) (hb : b = { s with regs := b.regs }) (hsb : b.sbSegment v 0 seg = (c, .inl keys)) :
    ∃ t g, t = c.scorePassEnds v tile pslot seg (some pass) keys (v.setRows k) a1 ∧
      Attn.ScoredOver v (s.inFallback v) s.now seg (v.setRows k) a1 g ∧ t.attnAt v layer = some g ∧ (t.tile tile).sb = (c.tile tile).sb ∧
      (t.tile tile).scoring = (if g.scoredAll v seg then none else some pass) ∧
      (t.tile tile).slPtr = (if g.scoredAll v seg then (pslot + 1) % 16 else (s.tile tile).slPtr) ∧
      (∀ u, u ≠ tile → t.tile u = s.tile u) ∧ t = { s with regs := t.regs, tiles := t.tiles, free := t.free } := by
  subst htile
  obtain ⟨hc, hctile, hcothers⟩ := sbSegment_frame hsb
  have hbtile : ∀ u, b.tile u = s.tile u := fun u => by rw [hb]; rfl
  have hfb : c.inFallback v = s.inFallback v := inFallback_congr (by rw [hctile, hbtile])
  have hnow : c.now = s.now := by rw [hc, hb]
  obtain ⟨hset, hscores⟩ := scoreSet_scores (s := c) (v := v) (exact := c.inFallback v) (seg := seg) (keys := keys) (is := v.setRows k) (a := a1)
  rw [hnow, hfb] at hscores
  rw [hfb] at hset
  simp only [State.scorePassEnds, hfb]
  generalize c.scoreSet v (s.inFallback v) seg keys (v.setRows k) a1 = r at *
  obtain ⟨d, g⟩ := r
  have hdtile : ∀ u, d.tile u = c.tile u := fun u => by rw [show d = _ from hset]; rfl
  have hg : g.isOf v layer := by
    have hkey := hscores.key.mpr (by rw [ha1.2.2.1]; exact ha1)
    rwa [ha1.2.2.1] at hkey
  have hdone := passDone_setAttn (s := d) (v := v) (k := pslot) (left := if g.scoredAll v seg then none else some pass) (exact := s.inFallback v)
    (mix := false) hg
  refine ⟨_, g, rfl, hscores, hdone.group, ?_, hdone.scoring, ?_, fun u hu => ?_, ?_⟩
  · rw [hdone.sb, hdtile]
  · rw [hdone.slPtr, hdtile, hctile, hbtile]
    split
    · rfl
    · rfl
  · rw [hdone.others u hu, hdtile, hcothers u hu, hbtile]
  · rw [hdone.frame, show d = _ from hset, hc, hb]

theorem scorePass_keyless {tile pslot i layer head seg : Nat} {rows : List QueryRow} (ht : tile < 1024) (hk : pslot < 16)
    (henv : s.attnEnv tile pslot i layer head = some v) (hne : rows ≠ []) (h8 : rows.length ≤ 8) (hdh : ∀ r ∈ rows, r.q.length = v.att.dh)
    (hkeys : v.keys = 0) : exec (.scorePass tile pslot i layer head seg rows) s =
      .next (s.setTile tile { s.tile tile with attnOut := (s.tile tile).attnOut ++ rows.map fun r => (r.head, List.replicate v.att.dh 0) }) := by
  have hform := rowsFit hne h8 hdh
  have hobj : (decide (tile < 1024) && decide (pslot < 16)) = true := by simp [ht, hk]
  show execScorePass tile pslot i layer head seg rows s = _
  unfold execScorePass
  rw [hobj, henv]
  dsimp only
  rw [if_neg (by rw [hform]; decide), if_pos hkeys]
  rfl

theorem mixed_group {tile pslot seg : Nat} {layer : Nat} {b : State} {vals : List (Int × List Int)} {r : Nat × Attn} (htile : v.t = tile)
    (ha : s.attnAt v layer = some a) (hsb : s.sbSegment v 1 seg = (b, .inl vals)) (hr : r.2.frame = a.frame) :
    ∃ t g, t = ({ b with free := r.1 }.setAttn tile { r.2 with mixed := seg + 1, scored := r.2.scored.filter (fun z => z.2.1 != seg) }).passEnds
        tile pslot none (b.inFallback v) true ∧
      t.attnAt v layer = some g ∧ g.mixed = seg + 1 ∧ g.rows.length = a.rows.length ∧ (∀ z ∈ g.scored, z.2.1 ≠ seg) ∧
      (t.tile tile).sb = (b.tile tile).sb ∧ (t.tile tile).slPtr = (pslot + 1) % 16 ∧ (t.tile tile).scoring = none ∧
      (∀ u, u ≠ tile → t.tile u = s.tile u) ∧ t = { s with tiles := t.tiles, free := t.free } := by
  subst htile
  obtain ⟨hb, -, hothers⟩ := sbSegment_frame hsb
  simp only [Attn.frame, Prod.mk.injEq] at hr
  obtain ⟨hlen, hkey, -⟩ := hr
  obtain ⟨hplace, hctx, hlayer, hhead⟩ := hkey
  have hg : Attn.isOf { r.2 with mixed := seg + 1, scored := r.2.scored.filter (fun z => z.2.1 != seg) } v layer := by
    simp only [Attn.isOf, hplace, hctx, hlayer, hhead]
    exact attnAt_isOf ha
  have hdone := passDone_setAttn (s := { b with free := r.1 }) (v := v) (k := pslot) (left := none) (exact := b.inFallback v) (mix := true) hg
  refine ⟨_, _, rfl, hdone.group, rfl, hlen, fun z hz => ?_, hdone.sb, hdone.slPtr, hdone.scoring, fun u hu => ?_, ?_⟩
  · simpa using (List.mem_filter.mp hz).2
  · exact (hdone.others u hu).trans (hothers u hu)
  · rw [hdone.frame, hb]

theorem tileCnt_ne_partCnt {tile p : Nat} (ht : tile < 1024) : (Reg.IND_TILE_CNT tile).key ≠ (Reg.IND_PART_CNT p).key := by
  simp only [Reg.IND_TILE_CNT, Reg.IND_PART_CNT]
  omega

/-- A finished group's outputs go on and its head-layers computed in fallback are counted. -/
def State.forwarded (s : State) (v : AttnEnv) (tile : Nat) (a : Attn) : State :=
  let n := (((a.rows.filter ARow.fb).map ARow.head).eraseDups).length
  let x := s.tile tile
  ((s.setTile tile { x with
      attnOut := x.attnOut ++ a.rows.map (fun r => (r.head, r.out)), attns := x.attns.filter (· != a),
      sb := x.sb.filter (fun r => !(r.2.place == a.place && r.2.ctx == a.ctx && r.2.layer == a.layer && r.2.head == a.head)) }).bumpBy
    (Reg.IND_TILE_CNT tile) Fld.IND_TILE_CNT_FB_HL n).bumpBy (Reg.IND_PART_CNT v.part) Fld.IND_PART_CNT_FB_HL n

theorem exec_headLayerForward {tile pslot i layer head at_ : Nat} (ht : tile < 1024) (hk : pslot < 16)
    (henv : (s.tick at_).attnEnv tile pslot i layer head = some v) (ha : (s.tick at_).attnAt v layer = some a) :
    exec (.headLayerForward tile pslot i layer head at_) s =
      .next (if a.mixed < v.segs || (a.rows.any fun r => r.holds v.step (s.tick at_).now) then s.tick at_ else (s.tick at_).forwarded v tile a) := by
  have hobj : (decide (tile < 1024) && decide (pslot < 16)) = true := by simp [ht, hk]
  show execHeadLayerForward tile pslot i layer head at_ s = _
  unfold execHeadLayerForward
  rw [hobj]
  generalize s.tick at_ = b at *
  dsimp only
  rw [henv]
  dsimp only
  rw [ha]
  rfl

theorem forwarded_facts {tile : Nat} (ht : tile < 1024) : ∃ t, s.forwarded v tile a = t ∧
    (t.tile tile).attnOut = (s.tile tile).attnOut ++ a.rows.map (fun r => (r.head, r.out)) ∧
    (t.tile tile).attns = (s.tile tile).attns.filter (· != a) ∧
    s.counted t (Reg.IND_TILE_CNT tile) Fld.IND_TILE_CNT_FB_HL (((a.rows.filter ARow.fb).map ARow.head).eraseDups).length ∧
    (∀ u, u ≠ tile → t.tile u = s.tile u) ∧ t = { s with regs := t.regs, tiles := t.tiles } := by
  refine ⟨_, rfl, ?_, ?_, ?_, fun u hu => ?_, ?_⟩
  · simp [State.forwarded]
  · simp [State.forwarded]
  · refine counted_after (counted_before (counted_bumpBy (by decide)) ?_) (State.fld_bumpBy_ne (tileCnt_ne_partCnt ht))
    rfl
  · simp [State.forwarded, State.tile_setTile_ne hu]
  · unfold State.forwarded
    rw [bumpBy_eq, bumpBy_eq (s := s.setTile _ _)]
    rfl

end Sys2Proof.Machine

namespace Sys2Proof
open Machine

/-- Settles O43: the group that a pass puts back is found again under its key, and only its own rows and scores have changed. -/
theorem attentionRunsBySegments : Obligations.AttentionRunsBySegments := by
  unfold Obligations.AttentionRunsBySegments
  refine ⟨fun s tile pslot i layer head seg rows v ht hk henv hne h8 hdh => ⟨fun hkeys => ?_, fun hkeys a a1 k b c keys ha hset hseg hup hlow hprev hnew hgrant
    ha1 hneeds hb hsb => ?_⟩, fun s b tile pslot i layer head seg v a vals ht hk henv ha hmixed hseg hall hnext hgrant hsb => ?_,
    fun s tile pslot i layer head at_ b v a hb ht hk henv ha => ?_⟩
  · exact ⟨_, scorePass_keyless ht hk henv hne h8 hdh hkeys, by rw [State.tile_setTile_self], fun u hu => State.tile_setTile_ne hu, rfl⟩
  · obtain ⟨htile, hctx, -, hhead⟩ := attnEnv_names henv
    have haof : a.isOf v layer := by
      rw [ha]
      cases hfind : s.attnAt v layer with
      | none => exact ⟨rfl, hctx.symm, rfl, hhead.symm⟩
      | some x => exact attnAt_isOf hfind
    have ha1of : a1.isOf v layer := by
      rw [ha1]
      exact haof
    obtain ⟨t, g, ht', hscores, hat, hsb', hscoring, hptr, hothers, hframe⟩ := setRows_scored (s := s) (k := k) (pslot := pslot)
      (pass := (pslot, i, layer, head, seg)) htile ha1of (by rw [hb]; exact bumpBy_eq) hsb
    refine ⟨t, g, ?_, hat, hscores.mixed.trans (by rw [ha1]), hscores.length, fun j hj r hr => hscores.scored j hj r hr,
      hscores.others, hsb', hscoring, hptr, hothers, hframe⟩
    rw [ht']
    exact exec_scorePass ht hk henv hne h8 hdh hkeys ha hset hseg hup hlow hprev hnew hgrant ha1 hneeds hb hsb
  · obtain ⟨t, g, ht', hrest⟩ := mixed_group (pslot := pslot) (attnEnv_names henv).1 ha hsb (mixRows_frame (v := v) (bound := b.mixLimit v)
      (exact := b.inFallback v) (now := b.now) (seg := seg) (vals := vals) (is := List.range a.rows.length) (x := (b.free, a)))
    refine ⟨t, g, ?_, hrest⟩
    rw [ht']
    exact exec_mixPass ht hk henv ha hmixed hseg hall hnext hgrant hsb rfl
  · subst hb
    have hexec := exec_headLayerForward (s := s) (at_ := at_) ht hk henv ha
    refine ⟨fun hwait => ?_, fun hsegs hholds => ?_⟩
    · rw [hexec, if_pos]
      rcases hwait with h | ⟨r, hr, hh⟩
      · simp [h]
      · have hany : (a.rows.any fun r => r.holds v.step (s.tick at_).now) = true := List.any_eq_true.mpr ⟨r, hr, hh⟩
        rw [hany, Bool.or_true]
    · obtain ⟨t, ht', hrest⟩ := forwarded_facts (s := s.tick at_) (v := v) (a := a) ht
      refine ⟨t, ?_, hrest⟩
      rw [hexec, if_neg, ht']
      have hany : (a.rows.any fun r => r.holds v.step (s.tick at_).now) = false := by simpa using hholds
      rw [hany]
      simp
      omega

end Sys2Proof

end

section
/-! PROOFS. Messages (R374, R377): a relay record whose window reaches the context table. The record makes its context ready, the context's descriptor
enters a full cache, and the descriptor that leaves it is written over the record. -/

namespace Sys2Proof.Machine

/-! ## A full cache -/

theorem foldl_replicate {α β : Type} {f : β → α → β} {a : α} {b : β} (h : f b a = b) : ∀ n, (List.replicate n a).foldl f b = b
  | 0 => rfl
  | n + 1 => by rw [List.replicate_succ, List.foldl_cons, h, foldl_replicate h n]

/-- The victim among copies of one context that is not ACTIVE is that context. -/
theorem victim_replicate {s : State} {i n : Nat} (hst : ((s.ctx i).st == .active) = false) : s.victim (List.replicate (n + 1) i) = some i := by
  unfold State.victim
  rw [List.replicate_succ, List.foldl_cons, foldl_replicate]
  · simp [hst]
  · simp [hst]

theorem recached_aux {s : State} {x : CtxAux} {l : Tbl CtxAux} (h : s.aux = (0, x) :: l) :
    (s.recached 0).aux = (0, { x with lru := s.sched.lruSeq + 1, dirty := true }) :: l := by
  have hx : s.auxOf 0 = x := by rw [State.auxOf, h]; rfl
  show tset {} s.aux 0 _ = _
  rw [hx, h, tset, if_neg fun e => Nat.succ_ne_zero _ (congrArg CtxAux.lru e)]
  rfl

theorem touch_of_full {s : State} {j : Nat} {is : List Nat} (hcached : (s.recached 0).cached ((s.recached 0).homeOf ((s.recached 0).ctx 0)) = is)
    (hbig : ¬is.length ≤ 16384) (hvictim : (s.recached 0).victim (is.filter (· != 0)) = some j) : s.touch 0 = (s.recached 0).evicted j := by
  have heq : s.touch 0 = if ((s.recached 0).cached ((s.recached 0).homeOf ((s.recached 0).ctx 0))).length ≤ 16384 then s.recached 0 else
      match (s.recached 0).victim (((s.recached 0).cached ((s.recached 0).homeOf ((s.recached 0).ctx 0))).filter (· != 0)) with
      | some j => (s.recached 0).evicted j
      | none => s.recached 0 := rfl
  rw [heq, hcached, if_neg hbig, hvictim]

/-- A dirty entry that leaves the cache is written to the table. -/
theorem evicted_mem {s : State} {j : Nat} (hdirty : (s.auxOf j).dirty = true) (hrgn : s.sysRegion.2 ≠ 0) :
    (s.evicted j).mem = s.mem.write (some (s.keyOf 0)) (s.fld Reg.SCH_CTX_TBL Fld.SCH_CTX_TBL_BASE * 2 ^ 28 + 64 * j) (s.descriptor j) := by
  rw [State.evicted, hdirty, if_pos rfl, State.setAux_mem, State.writeBack, if_neg hrgn, State.setAux_mem, State.wrMem]

/-- The contexts cached once context 0 has come to the copies of context 1. -/
theorem cached_replicate {s : State} {x d : CtxAux} {n q : Nat} (haux : s.aux = (0, x) :: List.replicate n (1, d)) (hx : x.lru ≠ 0) (hlru : d.lru ≠ 0)
    (hq : s.homeOf (s.ctx 0) = q) (hhome : s.homeOf (s.ctx 1) = q) : s.cached q = 0 :: List.replicate n 1 := by
  have hall : (List.replicate n (1, d)).filter (fun y => y.2.lru != 0 && s.homeOf (s.ctx y.1) == q) = List.replicate n (1, d) := by
    rw [List.filter_eq_self]
    intro y hy
    rw [List.eq_of_mem_replicate hy]
    simp [hlru, hhome]
  rw [State.cached, haux, List.filter_cons_of_pos (by simp [hx, hq]), hall]
  simp

theorem filter_replicate_one {n : Nat} : (0 :: List.replicate n 1).filter (· != 0) = List.replicate n 1 := by simp

theorem recached_homeOf {s : State} {i j : Nat} : (s.recached i).homeOf ((s.recached i).ctx j) = s.homeOf (s.ctx j) := rfl

theorem recached_names {s : State} {i : Nat} : (s.recached i).mem = s.mem ∧ (s.recached i).keyOf 0 = s.keyOf 0 ∧
    (s.recached i).sysRegion = s.sysRegion ∧
    (s.recached i).fld Reg.SCH_CTX_TBL Fld.SCH_CTX_TBL_BASE = s.fld Reg.SCH_CTX_TBL Fld.SCH_CTX_TBL_BASE ∧ ∀ j, (s.recached i).ctx j = s.ctx j :=
  ⟨rfl, rfl, rfl, rfl, fun _ => rfl⟩

/-- With 16384 copies of context 1 in the cache and dirty, context 0 pushes it out and its descriptor goes to the table. -/
theorem touch_full {s : State} {x d : CtxAux} {n : Nat} (haux : s.aux = (0, x) :: List.replicate (n + 1) (1, d)) (hn : 16384 ≤ n + 1)
    (hlru : d.lru ≠ 0) (hdirty : d.dirty = true) (hhome : s.homeOf (s.ctx 1) = s.homeOf (s.ctx 0)) (hst : ((s.ctx 1).st == .active) = false)
    (hrgn : s.sysRegion.2 ≠ 0) :
    (s.touch 0).mem = s.mem.write (some (s.keyOf 0)) (s.fld Reg.SCH_CTX_TBL Fld.SCH_CTX_TBL_BASE * 2 ^ 28 + 64 * 1) ((s.recached 0).descriptor 1) := by
  have haux1 := recached_aux haux
  obtain ⟨hmem, hkey, hregion, hbase, hctx⟩ := recached_names (s := s) (i := 0)
  have hcached : (s.recached 0).cached ((s.recached 0).homeOf ((s.recached 0).ctx 0)) = 0 :: List.replicate (n + 1) 1 :=
    cached_replicate haux1 (Nat.succ_ne_zero _) hlru rfl (by rw [recached_homeOf, recached_homeOf, hhome])
  have hbig : ¬(0 :: List.replicate (n + 1) 1).length ≤ 16384 := by
    rw [List.length_cons, List.length_replicate]
    omega
  have haux2 : (s.recached 0).auxOf 1 = d := by
    rw [State.auxOf, haux1]
    rfl
  rw [touch_of_full hcached hbig (by rw [filter_replicate_one, victim_replicate (by rw [hctx, hst])]), evicted_mem (by rw [haux2, hdirty])
    (by rw [hregion]; exact hrgn), hmem, hkey, hbase]

/-! ## The module -/

/-- A record for context 0, of sixteen bytes of which the last is 1, at the place of context 1's descriptor. -/
def tableRecord : FMsg := ⟨0, 5, 1, 0, 2 ^ 28 + 64, 0, List.replicate 15 0 ++ [1]⟩

/-- A second shard whose context 0 waits for the record. A window of its partition holds the context table, and its quadrant's cache is full of
context 1. -/
def fullCache : State :=
  ([(Reg.SCH_CTX_TBL, Fld.SCH_CTX_TBL_BASE, 1), (Reg.SEC_WIN 0, Fld.SEC_WIN_EN, 1), (Reg.SEC_WIN 0, Fld.SEC_WIN_BASE, 128),
    (Reg.SEC_WIN 0, Fld.SEC_WIN_SIZE, 1)] : List (RegRef × Field × Nat)).foldl (fun s x => s.setFld x.1 x.2.1 x.2.2)
  { State.reset with
    ctxs := [(0, { st := .active, lenMax := 10 })], aux := (0, {}) :: List.replicate (16384 + 1) (1, { lru := 1, dirty := true }),
    models := [(0, { st := .loaded, img := { shardIdx := 1, shardCnt := 2 } })], places := [(0, { present := true, slice := [1, 0, 5, 0] })],
    ports := [(0, { rxMsgs := [tableRecord] })] }

/-- The module once the record has left its port. -/
def recordTaken : State :=
  (fullCache.setPort 0 { fullCache.port 0 with rxMsgs := (fullCache.port 0).rxMsgs.erase tableRecord }).giveCredits 0 tableRecord

/-- The module with the record written and noted. -/
def recordWritten : State :=
  let s := recordTaken.wrMem 0 tableRecord.offset tableRecord.payload
  { s with fabric := { s.fabric with relayed := s.fabric.relayed ++ [(0, 0, 0)] } }

theorem onMsg_of_received {s b : State} {n op : Nat} {m : FMsg} {f : State → State} (hrec : s.received b n m op) : s.onMsg n m op f = f b := by
  obtain ⟨-, hop, hrx, rfl⟩ := hrec
  exact if_pos (by simp [hop, List.contains_iff_mem.mp hrx])

theorem exec_relay_taken {s b : State} {n : Nat} {m : FMsg} (hrec : s.received b n m 1)
    (hin : (inside (b.windows (m.part % 64)) m.offset m.payload.length && b.slicePeer (m.part % 64) m.src) = true) :
    exec (.relay n m) s = .next (b.takeRecord n m) := by
  show execRelay n m s = _
  unfold execRelay
  rw [onMsg_of_received hrec, decide_eq_true hrec.1]
  dsimp only
  rw [if_pos hin]
  rfl

/-- A record that is no token is written and noted, where the context waits for none before it and the ring has room. -/
theorem takeRecord_noted {s : State} {n : Nat} {m : FMsg} {p i pos l : Nat} (hp : m.part % 64 = p) (hi : sliceNum m.payload 0 4 % 2 ^ 22 = i)
    (hpos : sliceNum m.payload 4 4 = pos) (hl : (s.ctx i).placement = l)
    (hgoes : (decide (m.payload.length < 16) || (s.ctx i).st != .active || decide ((s.ctx i).part ≠ p)) = false)
    (hnew : (decide (pos < (s.ctx i).pos) || (s.fabric.relayed.any (fun r => r == (l, i, pos)) ||
      s.fabric.tokens.any fun r => r.1 == l && r.2.1 == i && r.2.2.1 == pos) ||
      (decide ((s.imgOf (s.ctx i)).shardIdx = 0) && decide (pos = (s.ctx i).pos) && (s.ctx i).pvalid)) = false)
    (hroom : ¬sliceSlots (s.place l).slice ≤ (s.fabric.relayed.filter fun r => r.1 == l).length + (s.fabric.tokens.filter fun r => r.1 == l).length)
    (hkind : sliceNum m.payload 8 1 ≠ 1) :
    s.takeRecord n m = (({ s.wrMem p m.offset m.payload with
      fabric := { s.fabric with relayed := s.fabric.relayed ++ [(l, i, pos)] } } : State).freshReady i (s.isReady i)).respond n m stOK := by
  subst hp hi hpos hl
  unfold State.takeRecord
  extract_lets p i pos c l x im first kept was s1 w s2
  have hs2 : s2 = _ := if_neg hkind
  rw [if_neg (by rw [hgoes]; decide), if_neg (by rw [hnew]; decide), if_neg hroom, hs2]
  rfl

/-- The record is taken: the context becomes ready. -/
theorem exec_tableRecord : exec (.relay 0 tableRecord) fullCache =
    .next ((recordWritten.editCtx 0 { recordWritten.ctx 0 with timestamp := recordWritten.time }).respond 0 tableRecord stOK) := by
  have hready : (!recordTaken.isReady 0 && recordWritten.isReady 0) = true := by decide +kernel
  have hrec : fullCache.received recordTaken 0 tableRecord 1 := ⟨by decide, by decide, by decide +kernel, rfl⟩
  rw [exec_relay_taken hrec (by decide +kernel), takeRecord_noted (p := 0) (i := 0) (pos := 0) (l := 0) rfl (by decide) (by decide)
    (by decide +kernel) (by decide +kernel) (by decide +kernel) (by decide +kernel) (by decide)]
  show Host.Outcome.next ((recordWritten.freshReady 0 (recordTaken.isReady 0)).respond 0 tableRecord stOK) = _
  rw [State.freshReady, if_pos hready]

theorem fabricOnly_transmit {s : State} {n : Nat} {m : FMsg} : s.fabricOnly (s.transmit n m) := by
  unfold State.transmit
  extract_lets x ch
  split
  · rfl
  · rfl

theorem fabricOnly_respond {s : State} {n st : Nat} {m : FMsg} : s.fabricOnly (s.respond n m st) := by
  unfold State.respond
  extract_lets r
  split
  · exact fabricOnly_transmit
  · exact fabricOnly_sendMsg

theorem respond_mem {s : State} {n st : Nat} {m : FMsg} : (s.respond n m st).mem = s.mem := by rw [show s.respond n m st = _ from fabricOnly_respond]

theorem respond_sec {s : State} {n st : Nat} {m : FMsg} : (s.respond n m st).sec = s.sec := by rw [show s.respond n m st = _ from fabricOnly_respond]

/-- The last byte of the record does not read back: the descriptor of context 1 stands there. -/
theorem tableRecord_overwritten {u : State} (hmem : u.mem = (recordWritten.editCtx 0 { recordWritten.ctx 0 with timestamp := recordWritten.time }).mem)
    (hsec : u.sec = recordWritten.sec) : u.rdMem 0 tableRecord.offset tableRecord.payload.length ≠ tableRecord.payload := by
  intro h
  have hat : u.mem.readByte u.clk.count (some (u.keyOf 0)) (tableRecord.offset + 15) = 1 := by
    have hlast := congrArg (fun l => l[15]?) h
    simpa [State.rdMem, Mem.read, tableRecord] using hlast
  have htouch := touch_full (s := recordWritten.setCtx 0 { recordWritten.ctx 0 with timestamp := recordWritten.time }) (n := 16384)
    (x := {}) (d := { lru := 1, dirty := true }) rfl (by decide) (by decide) rfl (by decide +kernel) (by decide +kernel) (by decide +kernel)
  generalize hv : recordWritten.setCtx 0 { recordWritten.ctx 0 with timestamp := recordWritten.time } = v at htouch
  have hbase : v.fld Reg.SCH_CTX_TBL Fld.SCH_CTX_TBL_BASE * 2 ^ 28 + 64 * 1 = tableRecord.offset := by
    rw [← hv]
    decide +kernel
  have hbyte : ∃ h : 15 < ((v.recached 0).descriptor 1).length, ((v.recached 0).descriptor 1)[15] = 0 := by
    rw [← hv]
    decide +kernel
  obtain ⟨hlen, hzero⟩ := hbyte
  have hkey : u.keyOf 0 = v.keyOf 0 := by
    rw [State.keyOf, State.keyOf, hsec, ← hv]
    rfl
  rw [hmem, State.editCtx, hv, htouch, hbase, hkey, Mem.readByte_write_getElem hlen, hzero] at hat
  exact absurd hat (by decide)

end Sys2Proof.Machine

namespace Sys2Proof
open Machine

/-- Refutes O52: a relay record that makes its context ready brings its descriptor into the context cache; the cache is full, and the descriptor
that is written back stands where the record was to be kept. -/
theorem not_messagesActOnWhatTheyName : ¬ Obligations.MessagesActOnWhatTheyName := by
  unfold Obligations.MessagesActOnWhatTheyName
  rintro ⟨hrelay, -⟩
  have hrec : fullCache.received recordTaken 0 tableRecord 1 := ⟨by decide, by decide, by decide +kernel, rfl⟩
  obtain ⟨-, hgoes⟩ := hrelay fullCache recordTaken 0 0 0 0 tableRecord _ 0 _ hrec rfl (by decide) (by decide) rfl (by decide +kernel) rfl
  obtain ⟨-, hactive⟩ := hgoes (by decide +kernel) (by decide +kernel)
  obtain ⟨-, hnew⟩ := hactive (by decide) (by decide +kernel) (by decide +kernel)
  obtain ⟨-, hroom⟩ := hnew (by decide +kernel) (by decide +kernel) (.inl (by decide +kernel))
  obtain ⟨u, hu, hkept, -⟩ := hroom (by decide +kernel)
  have hsame := Host.Outcome.next.inj (hu.symm.trans exec_tableRecord)
  have hmem := congrArg State.mem hsame
  have hsec := congrArg State.sec hsame
  rw [respond_mem, respond_mem] at hmem
  rw [respond_sec, respond_sec, editCtx_frame] at hsec
  exact tableRecord_overwritten hmem hsec (hkept (by decide)).2

end Sys2Proof

end

section
/-! PROOFS. What the end of contexts, models and steps leaves of the security boundary's registers (R279, R531, R535). The counters and indices of a
partition's rings may stand anywhere in the map where a context names a partition that the module does not have; all that they write are bits from 32
on, so that the low half of a register keeps its value. -/

namespace Sys2Proof.Machine

variable {s t u : State} {k : Nat}

/-- The security state is the same, and so are the fields in the low half of the register at a key. -/
def State.keepsLow (k : Nat) (s t : State) : Prop := t.sec = s.sec ∧ ∀ f : Field, f.lo + f.w ≤ 32 → t.fld ⟨k, 0⟩ f = s.fld ⟨k, 0⟩ f

/-- The key of a register of the security boundary below its windows. -/
def secKey (k : Nat) : Prop := 0x150000 ≤ k ∧ k < 0x150400 ∧ k % 8 = 0

theorem keepsLow_refl : s.keepsLow k s := ⟨rfl, fun _ _ => rfl⟩

theorem keepsLow_trans (h : s.keepsLow k t) (h' : t.keepsLow k u) : s.keepsLow k u :=
  ⟨h'.1.trans h.1, fun f hf => (h'.2 f hf).trans (h.2 f hf)⟩

theorem keepsLow_of_regs (hregs : t.regs = s.regs) (hsec : t.sec = s.sec) : s.keepsLow k t := ⟨hsec, fun _ _ => State.fld_of_regs hregs⟩

theorem keepsLow_wrReg {r : RegRef} {v : Word64} (hr : r.key ≠ k) : s.keepsLow k (s.wrReg r v) :=
  ⟨rfl, fun _ _ => State.fld_wrReg_ne (Ne.symm hr)⟩

theorem keepsLow_setFld {r : RegRef} {f : Field} {x : Nat} (hr : r.key ≠ k ∨ (r.dflt = 0 ∧ 32 ≤ f.lo)) : s.keepsLow k (s.setFld r f x) := by
  refine ⟨rfl, fun g hg => ?_⟩
  by_cases hk : r.key = k
  · obtain ⟨hd, hlo⟩ := hr.resolve_left (· hk)
    obtain ⟨key, dflt⟩ := r
    obtain rfl : key = k := hk
    obtain rfl : dflt = 0 := hd
    exact State.fld_setFld_of_disjoint (.inl (hg.trans hlo))
  · exact State.fld_setFld_ne (Ne.symm hk)

theorem keepsLow_bump {r : RegRef} {f : Field} (hr : r.key ≠ k ∨ (r.dflt = 0 ∧ 32 ≤ f.lo)) : s.keepsLow k (s.bump r f) := by
  rw [State.bump, State.bumpBy]
  split
  · exact keepsLow_refl
  · exact keepsLow_setFld hr

theorem keepsLow_each {α : Type} {xs : List α} {g : State → α → State} (hg : ∀ (t : State) x, x ∈ xs → t.keepsLow k (g t x)) :
    s.keepsLow k (s.each xs g) :=
  each_induction (P := s.keepsLow k) keepsLow_refl fun t x hx ht => keepsLow_trans ht (hg t x hx)

theorem fnStat_ne_secKey {f : Nat} (hk : secKey k) : (Reg.SCH_FN_STAT f).key ≠ k := by
  obtain ⟨hlo, hhi, -⟩ := hk
  simp only [Reg.SCH_FN_STAT]
  omega

section
variable (hk : secKey k)
include hk

/-! ## Replies -/

theorem keepsLow_post {f r : Nat} {o : Out} : s.keepsLow k (s.post f r o) := by
  rw [post_eq]
  split
  · exact keepsLow_of_regs rfl rfl
  · exact keepsLow_bump (.inl (fnStat_ne_secKey hk))

theorem keepsLow_fenceSweep {f : Nat} : s.keepsLow k (s.fenceSweep f) :=
  ⟨by rw [repliesOnly_fenceSweep.1], fun _ _ => keepsRegs_fld fenceSweep_keepsRegs (Ne.symm (fnStat_ne_secKey hk))⟩

theorem keepsLow_replyAs {final : Bool} {h : Hdr} {op status detail result : Nat} : s.keepsLow k (s.replyAs final h op status detail result) := by
  have hbad : s.keepsLow k (s.badCounted h status) := by
    unfold State.badCounted
    split
    · exact keepsLow_bump (.inr ⟨rfl, by decide⟩)
    · exact keepsLow_refl
  refine keepsLow_trans hbad ?_
  show State.keepsLow k _ (if final && status = stOK && bitOf h.flags.toNat 0 then ((s.badCounted h status).seqDone h).fenceSweep h.fn
    else if final && !((s.badCounted h status).pairOn h.fn h.ring) then
      (((s.badCounted h status).seqDone h).bump (Reg.SCH_FN_STAT h.fn) Fld.SCH_FN_STAT_DISCARD).fenceSweep h.fn
    else (s.badCounted h status).post h.fn h.ring { replyOut h op status detail result final 0 with since := 0 })
  have hdone : (s.badCounted h status).keepsLow k ((s.badCounted h status).seqDone h) := keepsLow_of_regs seqDone_regs rfl
  split
  · exact keepsLow_trans hdone (keepsLow_fenceSweep hk)
  · split
    · exact keepsLow_trans (keepsLow_trans hdone (keepsLow_bump (.inl (fnStat_ne_secKey hk)))) (keepsLow_fenceSweep hk)
    · exact keepsLow_post hk

theorem keepsLow_reply {h : Hdr} {op status detail result : Nat} : s.keepsLow k (s.reply h op status detail result) := keepsLow_replyAs hk

theorem keepsLow_complete {i status : Nat} : s.keepsLow k (s.complete i status) :=
  keepsLow_trans (t := s.completeAt i status (Config.emptyPosition s.free).toNat) (keepsLow_post hk) (keepsLow_of_regs rfl rfl)

theorem keepsLow_countLong {p : Nat} : s.keepsLow k (s.countLong p) := keepsLow_setFld (.inl (fnStat_ne_secKey hk))

theorem keepsLow_endLong {o : LongOp} {status detail result : Nat} : s.keepsLow k (s.endLong o status detail result) :=
  keepsLow_trans (t := s.dropLong o) (keepsLow_trans (t := { s with longOps := s.longOps.filter fun x => x.id != o.id })
    (keepsLow_of_regs rfl rfl) (keepsLow_countLong hk)) (keepsLow_reply hk)

theorem keepsLow_advanceLong {o : LongOp} {done : Nat} : s.keepsLow k (s.advanceLong o done) := by
  have htold (x : LongOp) : s.keepsLow k (s.setLong x) := keepsLow_of_regs rfl rfl
  unfold State.advanceLong
  dsimp only
  split
  · exact keepsLow_trans (htold _) (keepsLow_replyAs hk)
  · exact htold _

/-! ## Frames that go back (R192) -/

theorem keepsLow_violate {p addr source : Nat} {phys value : Bool} : s.keepsLow k (s.violate p addr source phys value) := by
  have hraise (v : State) (n : Nat) : v.keepsLow k (v.raise p n) := keepsLow_of_regs State.raise_regs State.raise_sec
  have hcount (v : State) (f : Field) : v.keepsLow k (v.bump (Reg.SCH_FN_STAT p) f) := keepsLow_bump (.inl (fnStat_ne_secKey hk))
  unfold State.violate
  extract_lets e x l s1 g s2 s3 s4
  have h2 : s.keepsLow k s2 := keepsLow_of_regs rfl rfl
  have h4 : s.keepsLow k s4 := by
    unfold s4
    split
    · exact keepsLow_trans h2 (hcount _ _)
    · exact keepsLow_trans (keepsLow_trans h2 (hcount _ _)) (hcount _ _)
  exact keepsLow_trans h4 (hraise _ _)

theorem keepsLow_freeOne {p : Nat} {x : Nat × Nat} : s.keepsLow k (s.freeOne p x) := by
  have htail (v : State) (n : Nat) : v.keepsLow k (v.setFld (Reg.KVT_FREE_IDX p) Fld.KVT_FREE_IDX_TAIL n) :=
    keepsLow_setFld (.inr ⟨rfl, by decide⟩)
  unfold State.freeOne
  dsimp only
  split
  · exact keepsLow_trans (keepsLow_of_regs rfl rfl) (htail _ _)
  · exact keepsLow_trans (keepsLow_violate hk) (htail _ _)

theorem keepsLow_drainFree {p : Nat} : s.keepsLow k (s.drainFree p) := by
  unfold State.drainFree
  exact keepsLow_trans (keepsLow_each fun t x _ => keepsLow_freeOne hk) (keepsLow_of_regs rfl rfl)

theorem keepsLow_giveBack {p reason : Nat} {fs : List Nat} : s.keepsLow k (s.giveBack p reason fs) := by
  unfold State.giveBack
  split
  · exact keepsLow_refl
  · dsimp only
    generalize hv : s.setPart p _ = v
    have h1 : s.keepsLow k (v.drainFree p) := keepsLow_trans (hv ▸ keepsLow_of_regs rfl rfl) (keepsLow_drainFree hk)
    split
    · exact h1
    · exact keepsLow_trans h1 (keepsLow_bump (.inr ⟨rfl, by decide⟩))

theorem keepsLow_unmapFrame {p va fl : Nat} : s.keepsLow k (s.unmapFrame p va fl) := by
  unfold State.unmapFrame
  refine keepsLow_each fun t i _ => ?_
  split
  · exact keepsLow_of_regs rfl rfl
  · exact keepsLow_refl

end

/-! ## Settings that return (R226) -/

/-- A table holds nothing at a key, and reads there what is asked for, or holds one value, which every read returns. -/
theorem tget_cases {α : Type} (l : Tbl α) (k : Nat) : (∀ d, tget d l k = d) ∨ ∃ x, ∀ d, tget d l k = x := by
  induction l with
  | nil => exact .inl fun _ => rfl
  | cons e l ih =>
    obtain ⟨i, x⟩ := e
    by_cases hk : k = i
    · exact .inr ⟨x, fun d => if_pos hk⟩
    · rcases ih with h | ⟨y, h⟩
      · exact .inl fun d => (if_neg hk).trans (h d)
      · exact .inr ⟨y, fun d => (if_neg hk).trans (h d)⟩

/-- A read under another default gives the value as well, unless the value is the default of the write. -/
theorem tget_tset_other {d e x : Word64} {l : Tbl Word64} : tget e (tset d l k x) k = if x = d then e else x := by
  unfold tset
  split
  · rw [tget_tdel, if_pos rfl]
  · rw [tget_tins, if_pos rfl]

/-- A register restored under its own default reads under another as it did, unless it held that default. -/
theorem reg_restored {r : RegRef} (hk : r.key = k) (hd : r.dflt = 0 ∨ s.reg ⟨k, 0⟩ ≠ r.dflt) : (t.wrReg r (s.reg r)).reg ⟨k, 0⟩ = s.reg ⟨k, 0⟩ := by
  obtain ⟨key, d⟩ := r
  obtain rfl : key = k := hk
  show tget 0 (tset d t.regs key (tget d s.regs key)) key = tget 0 s.regs key
  have hne : d = 0 ∨ tget 0 s.regs key ≠ d := hd
  rw [tget_tset_other]
  rcases tget_cases s.regs key with h | ⟨x, h⟩
  · rw [h d, h 0, if_pos rfl]
  · rw [h d, h 0] at *
    split
    next hx => exact (hne.resolve_right (· hx) ▸ hx).symm
    next => rfl

/-- The low half of a register. -/
def lowWord : Field := ⟨0, 32, .ro⟩

/-- No setting of a placement's partition hides a register of the boundary, but the reservoir's, whose value after reset is 0x100. -/
theorem cairnRegs_dflt {p : Nat} {r : RegRef} (hk : secKey k) (hr : r ∈ cairnRegs p) (he : r.key = k) : r.dflt = 0 ∨ (r.dflt = 0x100 ∧ k % 64 = 32) := by
  obtain ⟨hlo, hhi, hmod⟩ := hk
  subst he
  simp only [cairnRegs, List.mem_append, List.mem_cons, List.mem_map, List.mem_range, List.not_mem_nil, or_false] at hr
  rcases hr with (rfl | rfl | rfl | rfl | rfl | rfl) | ⟨i, -, rfl⟩
  · exact .inl rfl
  · exact .inl rfl
  · refine .inr ⟨rfl, ?_⟩
    simp only [Reg.KVT_RES_CFG]
    omega
  · simp only [Reg.KVT_SCREE_CFG] at hmod
    omega
  · exact .inl rfl
  · simp only [Reg.CAB_REPAIR_CFG] at hlo
    omega
  · exact .inl rfl

theorem fld_of_reg {r q : RegRef} {f : Field} (h : t.reg q = s.reg r) : t.fld q f = s.fld r f := by rw [State.fld, State.fld, h]

/-- Settings restored one after the other: one that stands at the key gives the register there its value back. -/
theorem reg_foldl_restored {rs : List RegRef} (hrs : ∀ r ∈ rs, r.key = k → r.dflt = 0 ∨ s.reg ⟨k, 0⟩ ≠ r.dflt)
    (ht : t.reg ⟨k, 0⟩ = s.reg ⟨k, 0⟩ ∨ ∃ r ∈ rs, r.key = k) : (rs.foldl (fun (t : State) r => t.wrReg r (s.reg r)) t).reg ⟨k, 0⟩ = s.reg ⟨k, 0⟩ := by
  induction rs generalizing t with
  | nil => exact ht.resolve_right fun ⟨_, hr, _⟩ => absurd hr List.not_mem_nil
  | cons r rs ih =>
    refine ih (fun q hq => hrs q (List.mem_cons_of_mem _ hq)) ?_
    by_cases hk : r.key = k
    · exact .inl (reg_restored hk (hrs r List.mem_cons_self hk))
    · rcases ht with ht | ⟨q, hq, hqk⟩
      · exact .inl ((State.reg_wrReg_ne (Ne.symm hk)).trans ht)
      · exact .inr ⟨q, (List.mem_cons.mp hq).resolve_left (fun he => hk (he ▸ hqk)), hqk⟩

theorem reg_foldl_apart {rs : List RegRef} {v : RegRef → Word64} (hrs : ∀ r ∈ rs, r.key ≠ k) :
    (rs.foldl (fun (t : State) r => t.wrReg r (v r)) t).reg ⟨k, 0⟩ = t.reg ⟨k, 0⟩ := by
  induction rs generalizing t with
  | nil => rfl
  | cons r rs ih => exact (ih fun q hq => hrs q (List.mem_cons_of_mem _ hq)).trans (State.reg_wrReg_ne (Ne.symm (hrs r List.mem_cons_self)))

/-- The register at the key does not read as the reservoir's settings after reset, where these might stand. -/
def State.notHidden (s : State) (k : Nat) : Prop := k % 64 = 32 → s.fld ⟨k, 0⟩ lowWord ≠ 0x100

theorem notHidden_of_keepsLow (h : s.notHidden k) (ht : s.keepsLow k t) : t.notHidden k := fun hm => by
  rw [ht.2 lowWord (by decide)]
  exact h hm

theorem asOf_of_none {l : Nat} (hst : (s.place l).step = none) : s.asOf l = s := by rw [State.asOf, hst]

theorem backFrom_of_none {l : Nat} (hst : (s.place l).step = none) : t.backFrom s l = t := by rw [State.backFrom, hst]

theorem asOf_regs {l : Nat} {st : Step} (hst : (s.place l).step = some st) :
    (s.asOf l).regs = ((cairnRegs (s.place l).part).foldl (fun (t : State) r => t.wrReg r (tget r.dflt st.regs r.key)) s).regs := by
  rw [State.asOf, hst]
  rfl

theorem backFrom_regs {l : Nat} {st : Step} (hst : (s.place l).step = some st) :
    (t.backFrom s l).regs = ((cairnRegs (s.place l).part).foldl (fun (t : State) r => t.wrReg r (s.reg r)) t).regs := by
  rw [State.backFrom, hst]
  rfl

/-- Work under a placement's settings keeps the register: where one of them stands at its key, it gets its value back. -/
theorem keepsLow_under {l : Nat} {f : State → State} (hk : secKey k) (hs : s.notHidden k) (hf : ∀ v : State, v.keepsLow k (f v)) :
    s.keepsLow k (s.under l f) := by
  unfold State.under
  cases hst : (s.place l).step with
  | none =>
    rw [asOf_of_none hst, backFrom_of_none hst]
    exact hf s
  | some st =>
    obtain ⟨hsec, hfld⟩ := hf (s.asOf l)
    have hu := asOf_regs hst
    have hw := backFrom_regs (t := f (s.asOf l)) hst
    refine ⟨?_, fun g hg => ?_⟩
    · rw [framesOnly_backFrom (s := s) (l := l) (t := f (s.asOf l))]
      refine hsec.trans ?_
      rw [framesOnly_asOf (s := s) (l := l)]
    · rw [State.fld_of_regs hw]
      by_cases hex : ∃ r ∈ cairnRegs (s.place l).part, r.key = k
      · refine fld_of_reg (reg_foldl_restored (fun r hr he => ?_) (.inr hex))
        refine (cairnRegs_dflt hk hr he).imp_right fun ⟨hd, hm⟩ hreg => hs hm ?_
        rw [State.fld, hreg, hd]
        decide
      · have hapart : ∀ r ∈ cairnRegs (s.place l).part, r.key ≠ k := fun r hr he => hex ⟨r, hr, he⟩
        refine (fld_of_reg (reg_foldl_apart hapart)).trans ((hfld g hg).trans ?_)
        rw [State.fld_of_regs hu]
        exact fld_of_reg (reg_foldl_apart hapart)

section
variable (hk : secKey k)
include hk

theorem keepsLow_freeFrames {c : Ctx} {reason : Nat} (hs : s.notHidden k) : s.keepsLow k (s.freeFrames c reason) := by
  unfold State.freeFrames
  refine keepsLow_under hk hs fun v => ?_
  have hunmap (fs : List (Nat × Nat)) (fl : Nat) : v.keepsLow k (v.each fs fun s f => s.unmapFrame c.part f.1 fl) :=
    keepsLow_each fun _ _ _ => keepsLow_unmapFrame hk
  dsimp only
  split
  · exact hunmap _ _
  · exact keepsLow_trans (hunmap _ _) (keepsLow_giveBack hk)

/-! ## Contexts and models that go (R279) -/

theorem keepsLow_cancelPark {i : Nat} : s.keepsLow k (s.cancelPark i) := by
  unfold State.cancelPark
  dsimp only
  split
  · exact keepsLow_refl
  · split
    · refine keepsLow_trans ?_ (keepsLow_reply hk)
      exact keepsLow_of_regs rfl rfl
    · exact keepsLow_of_regs rfl rfl

theorem keepsLow_unparked {i : Nat} : s.keepsLow k (s.unparked i) := by
  unfold State.unparked
  split
  · exact keepsLow_of_regs rfl rfl
  · split
    · exact keepsLow_of_regs rfl rfl
    · exact keepsLow_refl

theorem keepsLow_editCtx {i : Nat} {c : Ctx} : s.keepsLow k (s.editCtx i c) :=
  keepsLow_of_regs (by rw [editCtx_frame]) (by rw [editCtx_frame])

theorem keepsLow_twinOnly (h : s.twinOnly t) : s.keepsLow k t := keepsLow_of_regs (by rw [h]) (by rw [h])

theorem keepsLow_takeoverCheck : s.keepsLow k s.takeoverCheck := by
  unfold State.takeoverCheck
  split
  · have hstat : Reg.TWN_STAT.key ≠ k := fun he => by
      have hlo := hk.1
      rw [← he] at hlo
      exact absurd hlo (by decide)
    have hjrn : Reg.TWN_JRN.key ≠ k := fun he => by
      have hlo := hk.1
      rw [← he] at hlo
      exact absurd hlo (by decide)
    unfold State.twinSolo
    refine keepsLow_trans ?_ (keepsLow_setFld (.inl hjrn))
    refine keepsLow_trans (t := s.wrReg Reg.TWN_STAT Reg.TWN_STAT.dflt) (keepsLow_wrReg hstat) ?_
    exact keepsLow_of_regs rfl rfl
  · exact keepsLow_refl

theorem keepsLow_shut {i : Nat} {c : Ctx} : s.keepsLow k (s.shut i c) := by
  unfold State.shut
  dsimp only
  refine keepsLow_trans ?_ (keepsLow_takeoverCheck hk)
  generalize hv : s.setAux i _ = v
  have h1 : s.keepsLow k v := hv ▸ keepsLow_of_regs rfl rfl
  generalize hw : v.editCtx i _ = w
  have h2 : s.keepsLow k w := keepsLow_trans h1 (hw ▸ keepsLow_editCtx hk)
  generalize hx : w.jrnlCtx i _ = x
  have h3 : s.keepsLow k x := keepsLow_trans h2 (hx ▸ keepsLow_twinOnly hk twinOnly_jrnlCtx)
  exact keepsLow_trans h3 (keepsLow_of_regs rfl rfl)

theorem keepsLow_closeCtx {i reason : Nat} (hs : s.notHidden k) : s.keepsLow k (s.closeCtx i reason) := by
  rw [closeCtx_eq]
  have h1 : s.keepsLow k ((s.cancelPark i).dropRetWait (s.ctx i).part i) := keepsLow_trans (keepsLow_cancelPark hk) (keepsLow_of_regs rfl rfl)
  generalize (s.cancelPark i).dropRetWait (s.ctx i).part i = v at h1
  have h2 : s.keepsLow k (v.unparked i) := keepsLow_trans h1 (keepsLow_unparked hk)
  exact keepsLow_trans h2 (keepsLow_trans (keepsLow_freeFrames hk (notHidden_of_keepsLow hs h2)) (keepsLow_shut hk))

theorem keepsLow_closeAll {p reason : Nat} (hs : s.notHidden k) : s.keepsLow k (s.closeAll p reason) := by
  unfold State.closeAll
  refine each_induction (P := s.keepsLow k) keepsLow_refl fun t i _ ht => keepsLow_trans ht ?_
  have hv : t.keepsLow k (if (t.ctx i).st == .active then t.complete i stFenced else t) := by
    split
    · exact keepsLow_complete hk
    · exact keepsLow_refl
  exact keepsLow_trans hv (keepsLow_closeCtx hk (notHidden_of_keepsLow hs (keepsLow_trans ht hv)))

theorem keepsLow_dropModels {p : Nat} : s.keepsLow k (s.dropModels p) := by
  rw [dropModels_eq]
  refine keepsLow_trans (keepsLow_trans (keepsLow_each fun t m _ => ?_) (keepsLow_each fun t o _ => ?_)) (keepsLow_countLong hk)
  · unfold State.modelGone
    split
    · refine keepsLow_trans ?_ (keepsLow_reply hk)
      exact keepsLow_of_regs rfl rfl
    · exact keepsLow_of_regs rfl rfl
  · exact keepsLow_trans (t := t.dropChain o.id) (keepsLow_of_regs rfl rfl) (keepsLow_endLong hk)

/-! ## Steps and tiles (R535) -/

omit hk in
theorem keepsLow_setPlace {l : Nat} {x : Place} : s.keepsLow k (s.setPlace l x) := keepsLow_of_regs rfl rfl

omit hk in
theorem keepsLow_dropWork {l n : Nat} : s.keepsLow k (s.dropWork l n) := keepsLow_of_regs rfl rfl

omit hk in
theorem keepsLow_poolBack {p : Nat} {fs : List Nat} : s.keepsLow k (s.poolBack p fs) := by
  unfold State.poolBack
  split
  · exact keepsLow_refl
  · exact keepsLow_of_regs rfl rfl

omit hk in
theorem keepsLow_stopSteps : s.keepsLow k s.stopSteps := by
  unfold State.stopSteps
  refine keepsLow_each fun t l _ => ?_
  split
  · exact keepsLow_refl
  · dsimp only
    refine keepsLow_trans ?_ keepsLow_setPlace
    refine keepsLow_trans ?_ (keepsLow_each fun v x _ => keepsLow_dropWork)
    refine keepsLow_each fun v x _ => ?_
    split
    · exact keepsLow_poolBack
    · exact keepsLow_refl

theorem keepsLow_calEnds {o : CalObj} : s.keepsLow k (s.calEnds o) := by
  unfold State.calEnds
  refine keepsLow_each fun t x _ => ?_
  split
  · split
    · exact keepsLow_of_regs rfl rfl
    · split
      · dsimp only
        split
        · exact keepsLow_trans (keepsLow_advanceLong hk) (keepsLow_endLong hk)
        · exact keepsLow_advanceLong hk
      · exact keepsLow_refl
  · exact keepsLow_refl

omit hk in
theorem keepsLow_clearBank {i : Nat} : s.keepsLow k (s.clearBank i) := keepsLow_of_regs rfl rfl

omit hk in
theorem keepsLow_setTile {n : Nat} {x : Tile} : s.keepsLow k (s.setTile n x) := keepsLow_of_regs rfl rfl

theorem keepsLow_abandonRuns {mine : CalObj → Bool} : s.keepsLow k (s.abandonRuns mine false) := by
  unfold State.abandonRuns
  dsimp only
  refine keepsLow_trans ?_ (keepsLow_each fun t o _ => keepsLow_calEnds hk)
  exact keepsLow_of_regs rfl rfl

theorem keepsLow_scrub {n : Nat} {next : Option Nat} : s.keepsLow k (s.scrub n true next) := by
  unfold State.scrub
  dsimp only
  refine keepsLow_trans ?_ (keepsLow_bump (.inr ⟨rfl, by decide⟩))
  refine keepsLow_trans ?_ keepsLow_setTile
  split
  · rw [if_pos rfl]
    exact keepsLow_trans (keepsLow_abandonRuns hk) keepsLow_clearBank
  · exact keepsLow_refl

end

end Sys2Proof.Machine

end

section
/-! PROOFS. Keys, the Crypto Officer session, zeroisation and the boundary's error state (R526 to R536). -/

namespace Sys2Proof.Machine

variable {s t u b : State} {h : Hdr} {p k : Nat}

/-! ## The session and authentication (R529, R530) -/

theorem openSess_frame : s.openSess = { s with
    regs := s.openSess.regs, sec := { s.sec with sessEnd := some (s.now + s.coTimeout * 1000000000) } } := rfl

theorem openSess_fields {l : List (RegRef × Field)} (h1 : (Reg.SEC_STAT, Fld.SEC_STAT_CO_SESSION) ∈ l) (h2 : (Reg.SEC_STAT, Fld.SEC_STAT_CO_LEFT) ∈ l) :
    s.fieldsBut s.openSess l := by
  unfold State.openSess
  exact fieldsBut_trans (fieldsBut_trans (fieldsBut_of_regs rfl) (fieldsBut_setFlag h1)) (fieldsBut_setFld h2)

theorem coTimeout_lt : s.coTimeout < 2 ^ 12 := by
  have hlt : s.fld Reg.SEC_CFG Fld.SEC_CFG_CO_TIMEOUT < 2 ^ 12 := State.fld_lt
  unfold State.coTimeout
  omega

theorem openSess_stat : s.openSess.flag Reg.SEC_STAT Fld.SEC_STAT_CO_SESSION = true ∧ s.openSess.fld Reg.SEC_STAT Fld.SEC_STAT_CO_LEFT = s.coTimeout := by
  unfold State.openSess
  constructor
  · rw [State.flag, State.fld_setFld_of_disjoint (by decide)]
    exact State.flag_setFlag_self (by decide) rfl
  · exact (State.fld_setFld_self (by decide)).trans (Nat.mod_eq_of_lt coTimeout_lt)

theorem openSess_reg {r : RegRef} (hr : r.key ≠ Reg.SEC_STAT.key) : s.openSess.reg r = s.reg r := by
  unfold State.openSess
  rw [State.setFld, State.reg_wrReg_ne hr, State.setFlag, State.setFld, State.reg_wrReg_ne hr]
  rfl

/-- A failed authentication: the count, and how many there were in a row. -/
theorem authFail_spec : s.authFail.sec = (if 16 ≤ s.sec.failRun + 1 then { s.sec with failRun := 0, blockTil := s.now + 60000000000 }
      else { s.sec with failRun := s.sec.failRun + 1 }) ∧
    s.authFail = { s with regs := s.authFail.regs, sec := s.authFail.sec } ∧
    s.authFail.regs = (s.bump Reg.SEC_CNT Fld.SEC_CNT_AUTH_FAIL).regs := by
  have hf := bump_frame (s := s) (r := Reg.SEC_CNT) (f := Fld.SEC_CNT_AUTH_FAIL)
  unfold State.authFail
  dsimp only
  generalize s.bump Reg.SEC_CNT Fld.SEC_CNT_AUTH_FAIL = v at hf ⊢
  split
  · rw [hf]
    exact ⟨rfl, rfl, rfl⟩
  · rw [hf]
    exact ⟨rfl, rfl, rfl⟩

/-! ## KEY_LOAD (R526, R530, R531) -/

theorem freshKey_keyOf {src q : Nat} : (s.freshKey p src).keyOf q = if q = p then s.sec.nextKey else s.keyOf q := tget_tset

theorem freshKey_sec {src : Nat} : (s.freshKey p src).sec = { s.sec with keyId := tset 0 s.sec.keyId p s.sec.nextKey, nextKey := s.sec.nextKey + 1 } := rfl

/-- The counter of an accepted blob is kept. -/
def State.ctrKept (s : State) (ctr : Nat) : State :=
  { s with flash := { s.flash with coCtr := ctr }, sec := { s.sec with failRun := 0 } }.wrReg Reg.SEC_CO_CTR (BitVec.ofNat 64 ctr)

/-- A key is installed; the timer of an open session starts again. -/
def State.keyLoaded (s : State) (p ctr : Nat) : State :=
  if (s.ctrKept ctr).flag Reg.SEC_STAT Fld.SEC_STAT_CO_SESSION then ((s.ctrKept ctr).freshKey p 1).openSess else (s.ctrKept ctr).freshKey p 1

theorem ctrKept_frame {ctr : Nat} : s.ctrKept ctr = { s with
    regs := (s.ctrKept ctr).regs, flash := { s.flash with coCtr := ctr }, sec := { s.sec with failRun := 0 } } := rfl

theorem ctrKept_reg {ctr : Nat} : (s.ctrKept ctr).reg Reg.SEC_CO_CTR = BitVec.ofNat 64 ctr := State.reg_wrReg_self

theorem ctrKept_fields {ctr : Nat} {l : List (RegRef × Field)} (hl : (Reg.SEC_CO_CTR, wholeReg) ∈ l) : s.fieldsBut (s.ctrKept ctr) l :=
  fieldsBut_trans (t := { s with flash := { s.flash with coCtr := ctr }, sec := { s.sec with failRun := 0 } }) (fieldsBut_of_regs rfl) (fieldsBut_wrReg hl)

theorem ctrKept_fld {ctr : Nat} {r : RegRef} {f : Field} (hr : r.key ≠ Reg.SEC_CO_CTR.key) : (s.ctrKept ctr).fld r f = s.fld r f :=
  State.fld_wrReg_ne hr

theorem secPart_keys : (Reg.SEC_PART p).key ≠ Reg.SEC_STAT.key ∧ (Reg.SEC_PART p).key ≠ Reg.SEC_CO_CTR.key ∧ (Reg.SEC_PART p).key ≠ Reg.SEC_CNT.key := by
  simp only [Reg.SEC_PART, Reg.SEC_STAT, Reg.SEC_CO_CTR, Reg.SEC_CNT]
  omega

/-- What an installed key changes, whether or not a session is open. -/
theorem keyLoaded_spec {ctr : Nat} : (s.keyLoaded p ctr).keyOf p = s.sec.nextKey ∧ (∀ q, q ≠ p → (s.keyLoaded p ctr).keyOf q = s.keyOf q) ∧
    (s.keyLoaded p ctr).sec.nextKey = s.sec.nextKey + 1 ∧
    (s.keyLoaded p ctr).fld (Reg.SEC_PART p) Fld.SEC_PART_KEY_GEN = (s.fld (Reg.SEC_PART p) Fld.SEC_PART_KEY_GEN + 1) % 256 ∧
    (s.keyLoaded p ctr).fld (Reg.SEC_PART p) Fld.SEC_PART_KEY_SRC = 1 ∧ (s.keyLoaded p ctr).flash = { s.flash with coCtr := ctr } ∧
    (s.keyLoaded p ctr).reg Reg.SEC_CO_CTR = BitVec.ofNat 64 ctr ∧ (s.keyLoaded p ctr).sec.failRun = 0 ∧
    s.keyLoaded p ctr = { s with regs := (s.keyLoaded p ctr).regs, sec := (s.keyLoaded p ctr).sec, flash := (s.keyLoaded p ctr).flash } ∧
    s.fieldsBut (s.keyLoaded p ctr) [(Reg.SEC_PART p, Fld.SEC_PART_KEY_GEN), (Reg.SEC_PART p, Fld.SEC_PART_KEY_SRC), (Reg.SEC_CO_CTR, wholeReg),
      (Reg.SEC_STAT, Fld.SEC_STAT_CO_SESSION), (Reg.SEC_STAT, Fld.SEC_STAT_CO_LEFT)] := by
  obtain ⟨hstat, hctr, -⟩ := secPart_keys (p := p)
  have hkept := ctrKept_frame (s := s) (ctr := ctr)
  have hreg := ctrKept_reg (s := s) (ctr := ctr)
  have hgen : (s.ctrKept ctr).fld (Reg.SEC_PART p) Fld.SEC_PART_KEY_GEN = s.fld (Reg.SEC_PART p) Fld.SEC_PART_KEY_GEN := ctrKept_fld hctr
  have hfields := ctrKept_fields (s := s) (ctr := ctr) (l := [(Reg.SEC_PART p, Fld.SEC_PART_KEY_GEN), (Reg.SEC_PART p, Fld.SEC_PART_KEY_SRC),
    (Reg.SEC_CO_CTR, wholeReg), (Reg.SEC_STAT, Fld.SEC_STAT_CO_SESSION), (Reg.SEC_STAT, Fld.SEC_STAT_CO_LEFT)]) (by simp)
  unfold State.keyLoaded
  generalize s.ctrKept ctr = v at hkept hreg hgen hfields ⊢
  have hframe := freshKey_frame (s := v) (p := p) (src := 1)
  have hkey (q : Nat) := freshKey_keyOf (s := v) (p := p) (src := 1) (q := q)
  have hpgen := freshKey_gen (s := v) (p := p) (src := 1)
  have hpsrc := freshKey_src (s := v) (p := p) (src := 1) (by decide)
  have hpreg : (v.freshKey p 1).reg Reg.SEC_CO_CTR = v.reg Reg.SEC_CO_CTR := freshKey_reg (Ne.symm hctr)
  have hpfields : s.fieldsBut (v.freshKey p 1) [(Reg.SEC_PART p, Fld.SEC_PART_KEY_GEN), (Reg.SEC_PART p, Fld.SEC_PART_KEY_SRC),
    (Reg.SEC_CO_CTR, wholeReg), (Reg.SEC_STAT, Fld.SEC_STAT_CO_SESSION), (Reg.SEC_STAT, Fld.SEC_STAT_CO_LEFT)] :=
    fieldsBut_trans hfields (freshKey_fields (by simp) (by simp))
  have hvsec : v.sec = { s.sec with failRun := 0 } := by rw [hkept]
  have hvkey (q : Nat) : v.keyOf q = s.keyOf q := by rw [State.keyOf, State.keyOf, hvsec]
  generalize v.freshKey p 1 = w at hframe hkey hpgen hpsrc hpreg hpfields ⊢
  have hwsec : w.sec = { v.sec with keyId := tset 0 v.sec.keyId p v.sec.nextKey, nextKey := v.sec.nextKey + 1 } := by rw [hframe]
  have hwself : w.keyOf p = s.sec.nextKey := by rw [hkey, if_pos rfl, hvsec]
  have hwne : ∀ q, q ≠ p → w.keyOf q = s.keyOf q := fun q hq => by rw [hkey, if_neg hq, hvkey]
  have hwnext : w.sec.nextKey = s.sec.nextKey + 1 := by rw [hwsec, hvsec]
  have hwrun : w.sec.failRun = 0 := by rw [hwsec, hvsec]
  have hwflash : w.flash = { s.flash with coCtr := ctr } := by rw [hframe, hkept]
  have hwframe : w = { s with regs := w.regs, sec := w.sec, flash := w.flash } := by rw [hframe, hkept]
  split
  · have hoframe := openSess_frame (s := w)
    have ho (r : RegRef) (f : Field) (hr : r.key ≠ Reg.SEC_STAT.key) : w.openSess.fld r f = w.fld r f := by rw [State.fld, State.fld, openSess_reg hr]
    have hoctr : w.openSess.reg Reg.SEC_CO_CTR = w.reg Reg.SEC_CO_CTR := openSess_reg (by decide)
    have hofields := fieldsBut_trans hpfields (openSess_fields (s := w) (by simp) (by simp))
    generalize w.openSess = x at hoframe ho hoctr hofields ⊢
    have hosec : x.sec = { w.sec with sessEnd := some (w.now + w.coTimeout * 1000000000) } := by rw [hoframe]
    have hokey (q : Nat) : x.keyOf q = w.keyOf q := by rw [State.keyOf, State.keyOf, hosec]
    refine ⟨(hokey p).trans hwself, fun q hq => (hokey q).trans (hwne q hq), ?_, ?_, ?_, ?_, hoctr.trans (hpreg.trans hreg), ?_, ?_, hofields⟩
    · rw [hosec, hwnext]
    · rw [ho _ _ hstat, hpgen, hgen]
    · rw [ho _ _ hstat, hpsrc]
    · rw [hoframe, hwflash]
    · rw [hosec, hwrun]
    · rw [hoframe, hwframe]
  · exact ⟨hwself, hwne, hwnext, by rw [hpgen, hgen], hpsrc, hwflash, hpreg.trans hreg, hwrun, hwframe, hpfields⟩

/-- A blob that no bad form or unknown sender keeps from being used, by what it does. -/
theorem svcKeyLoad_eq {part : BitVec 8} {keyVa : BitVec 64} {sigOk : Bool} {bs : List Byte}
    (hpart : part.toNat = 0xFF ∨ (part.toNat < 64 ∧ s.partExists part.toNat = true)) (hread : s.rdVa h.fn keyVa.toNat 288 = .inl bs)
    (htime : s.sec.blockTil ≤ s.now) (herr : s.secError = false) (hblob : blobOk bs part.toNat = true) :
    s.svcKeyLoad h part 0 keyVa 288 0 sigOk false =
      if !sigOk || decide (numAt bs 8 8 ≤ s.flash.coCtr) then s.authFail.refuseRole h 0x70
      else if part.toNat != 0xFF && s.holds part.toNat then s.reply h 0x70 stDeferred 0 0
      else (if part.toNat = 0xFF then (s.ctrKept (numAt bs 8 8)).openSess else s.keyLoaded part.toNat (numAt bs 8 8)).reply h 0x70 stOK 0 0 := by
  have hform : (part.toNat == 0xFF || (decide (part.toNat < 64) && s.partExists part.toNat)) = true := by
    rcases hpart with hp | ⟨hp, hex⟩
    · rw [hp]
      rfl
    · rw [decide_eq_true hp, hex]
      simp
  unfold State.svcKeyLoad
  rw [checked_of_pass]
  · dsimp only
    rw [show blobBytes = 288 from rfl, hread]
    dsimp only
    rw [hblob, Bool.false_and]
    refine (if_neg (by decide)).trans ?_
    unfold State.keyLoaded State.ctrKept
    congr 1
  · rw [chkForm_true hform, show blobBytes = 288 from rfl, chkVa_of_rdVa hread, decide_eq_true htime, herr]
    rfl

theorem serve_keyLoad {part : BitVec 8} {keyVa : BitVec 64} {sigOk : Bool} (hp : s.partExists h.fn = true) :
    s.serve h (.keyLoad part 0 keyVa 288 0 sigOk false) = s.svcKeyLoad h part 0 keyVa 288 0 sigOk false := by
  rw [State.serve, hp]
  rfl

theorem serve_keyRetire {part : BitVec 8} {rsv : BitVec 56} (hp : s.partExists h.fn = true) :
    s.serve h (.keyRetire part rsv) = s.svcKeyRetire h part rsv := by
  rw [State.serve, hp]
  rfl

theorem serve_zeroize {rsv : BitVec 64} (hp : s.partExists h.fn = true) : s.serve h (.zeroize rsv) = s.svcZeroize h rsv := by
  rw [State.serve, hp]
  rfl

/-! ## Extents of parked images (R531)

No end of a context allocates one. -/

/-- A partition with no extent has none afterwards. -/
def State.gainsNone (s t : State) : Prop := ∀ q, (s.part q).extents = [] → (t.part q).extents = []

theorem gainsNone_refl : s.gainsNone s := fun _ => id

theorem gainsNone_trans (h : s.gainsNone t) (h' : t.gainsNone u) : s.gainsNone u := fun q hq => h' q (h q hq)

theorem gainsNone_of_parts (hp : t.parts = s.parts) : s.gainsNone t := fun q hq => by
  rw [State.part, hp]
  exact hq

theorem gainsNone_setPart {x : Part} (hx : (s.part p).extents = [] → x.extents = []) : s.gainsNone (s.setPart p x) := fun q hq => by
  by_cases hqp : q = p
  · subst hqp
    rw [State.part_setPart_self]
    exact hx hq
  · rw [State.part_setPart_ne hqp]
    exact hq

theorem gainsNone_each {α : Type} {xs : List α} {g : State → α → State} (hg : ∀ (t : State) x, x ∈ xs → t.gainsNone (g t x)) : s.gainsNone (s.each xs g) :=
  each_induction (P := s.gainsNone) gainsNone_refl fun t x hx ht => gainsNone_trans ht (hg t x hx)

theorem gainsNone_repliesOnly (ht : s.repliesOnly t) : s.gainsNone t := gainsNone_of_parts (by rw [ht.1])

theorem gainsNone_freeExtents {first : Nat} : s.gainsNone (s.freeExtents p first) :=
  gainsNone_setPart fun hx => by
    rw [hx]
    rfl

theorem gainsNone_violate {addr source : Nat} {phys value : Bool} : s.gainsNone (s.violate p addr source phys value) := by
  unfold State.violate
  dsimp only
  refine gainsNone_trans ?_ (gainsNone_of_parts (by rw [raise_eq]))
  generalize hv : s.setPart p _ = v
  have h1 : s.gainsNone v := hv ▸ gainsNone_setPart id
  generalize hw : ({ v with globalLog := _ } : State).bump (Reg.SCH_FN_STAT p) Fld.SCH_FN_STAT_VIOL = w
  have h2 : s.gainsNone w := gainsNone_trans h1 (gainsNone_of_parts (by rw [← hw, bump_frame]))
  split
  · exact h2
  · exact gainsNone_trans h2 (gainsNone_of_parts (by rw [bump_frame]))

theorem gainsNone_freeOne {x : Nat × Nat} : s.gainsNone (s.freeOne p x) := by
  unfold State.freeOne
  dsimp only
  refine gainsNone_trans ?_ (gainsNone_of_parts State.setFld_parts)
  split
  · exact gainsNone_of_parts rfl
  · exact gainsNone_violate

theorem gainsNone_drainFree : s.gainsNone (s.drainFree p) := by
  unfold State.drainFree
  exact gainsNone_trans (gainsNone_each fun t x _ => gainsNone_freeOne) (gainsNone_setPart id)

theorem gainsNone_giveBack {reason : Nat} {fs : List Nat} : s.gainsNone (s.giveBack p reason fs) := by
  unfold State.giveBack
  split
  · exact gainsNone_refl
  · dsimp only
    generalize hv : s.setPart p _ = v
    have h1 : s.gainsNone (v.drainFree p) := gainsNone_trans (hv ▸ gainsNone_setPart id) gainsNone_drainFree
    split
    · exact h1
    · exact gainsNone_trans h1 (gainsNone_of_parts (by rw [bump_frame]))

theorem gainsNone_unmapFrame {va fl : Nat} : s.gainsNone (s.unmapFrame p va fl) := by
  unfold State.unmapFrame
  refine gainsNone_each fun t i _ => ?_
  split
  · exact gainsNone_trans (t := t.wrMem p _ _) (gainsNone_of_parts rfl) (gainsNone_setPart id)
  · exact gainsNone_refl

theorem gainsNone_foldl_wrReg {rs : List RegRef} {v : RegRef → Word64} : s.gainsNone (rs.foldl (fun (t : State) r => t.wrReg r (v r)) s) := by
  induction rs generalizing s with
  | nil => exact gainsNone_refl
  | cons r rs ih => exact gainsNone_trans (t := s.wrReg r (v r)) (gainsNone_of_parts rfl) ih

theorem gainsNone_under {l : Nat} {f : State → State} (hf : ∀ v : State, v.gainsNone (f v)) : s.gainsNone (s.under l f) := by
  have has : s.gainsNone (s.asOf l) := by
    unfold State.asOf
    split
    · exact gainsNone_trans gainsNone_foldl_wrReg (gainsNone_setPart id)
    · exact gainsNone_refl
  have hback (v : State) : v.gainsNone (v.backFrom s l) := by
    unfold State.backFrom
    split
    · exact gainsNone_trans gainsNone_foldl_wrReg (gainsNone_setPart id)
    · exact gainsNone_refl
  exact gainsNone_trans (gainsNone_trans has (hf _)) (hback _)

theorem gainsNone_freeFrames {c : Ctx} {reason : Nat} : s.gainsNone (s.freeFrames c reason) := by
  unfold State.freeFrames
  refine gainsNone_under fun v => ?_
  have hunmap (fs : List (Nat × Nat)) (fl : Nat) : v.gainsNone (v.each fs fun s f => s.unmapFrame c.part f.1 fl) :=
    gainsNone_each fun _ _ _ => gainsNone_unmapFrame
  dsimp only
  split
  · exact hunmap _ _
  · exact gainsNone_trans (hunmap _ _) gainsNone_giveBack

theorem gainsNone_cancelPark {i : Nat} : s.gainsNone (s.cancelPark i) := by
  cases hpark : (s.auxOf i).park with
  | none =>
    rw [cancelPark_of_none hpark]
    exact gainsNone_refl
  | some m =>
    refine gainsNone_trans ?_ (gainsNone_repliesOnly (cancelPark_of_park hpark))
    exact gainsNone_trans (t := s.freeExtents (s.ctx i).part m.extent) gainsNone_freeExtents (gainsNone_of_parts rfl)

theorem gainsNone_unparked {i : Nat} : s.gainsNone (s.unparked i) := by
  unfold State.unparked
  split
  · exact gainsNone_trans gainsNone_freeExtents (gainsNone_of_parts rfl)
  · split
    · exact gainsNone_freeExtents
    · exact gainsNone_refl

theorem shut_parts {i : Nat} {c : Ctx} : (s.shut i c).parts = s.parts := by
  have hcheck (v : State) : v.takeoverCheck.parts = v.parts := by
    unfold State.takeoverCheck
    split
    · rw [State.twinSolo, State.setFld_parts]
      rfl
    · rfl
  unfold State.shut
  dsimp only
  rw [hcheck]
  generalize hv : s.setAux i _ = v
  have h1 : v.parts = s.parts := by rw [← hv, State.setAux_parts]
  generalize hw : v.editCtx i _ = w
  have h2 : w.parts = s.parts := by rw [← hw, editCtx_frame, h1]
  have h3 := twinOnly_jrnlCtx (s := w) (i := i) (rs := [{ kind := 4, ntok := 0, place := c.placement, ctx := i, pos := c.pos, gen := w.genOf c, body := [] }])
  generalize w.jrnlCtx i _ = x at h3 ⊢
  rw [h3]
  exact h2

theorem gainsNone_closeCtx {i reason : Nat} : s.gainsNone (s.closeCtx i reason) := by
  rw [closeCtx_eq]
  have h1 : s.gainsNone ((s.cancelPark i).dropRetWait (s.ctx i).part i) := gainsNone_trans gainsNone_cancelPark (gainsNone_setPart id)
  generalize (s.cancelPark i).dropRetWait (s.ctx i).part i = v at h1
  exact gainsNone_trans h1 (gainsNone_trans (gainsNone_trans gainsNone_unparked gainsNone_freeFrames) (gainsNone_of_parts shut_parts))

theorem gainsNone_closeAll {reason : Nat} : s.gainsNone (s.closeAll p reason) := by
  unfold State.closeAll
  refine gainsNone_each fun t i _ => gainsNone_trans ?_ gainsNone_closeCtx
  split
  · exact gainsNone_trans (t := t.completeAt i stFenced _) (gainsNone_repliesOnly repliesOnly_post) (gainsNone_of_parts rfl)
  · exact gainsNone_refl

theorem gainsNone_stopSteps : s.gainsNone s.stopSteps := by
  unfold State.stopSteps
  refine gainsNone_each fun t l _ => ?_
  split
  · exact gainsNone_refl
  · dsimp only
    refine gainsNone_trans ?_ (gainsNone_of_parts State.setPlace_parts)
    refine gainsNone_trans ?_ (gainsNone_each fun v x _ => gainsNone_of_parts rfl)
    refine gainsNone_each fun v x _ => ?_
    split
    · unfold State.poolBack
      split
      · exact gainsNone_refl
      · exact gainsNone_setPart id
    · exact gainsNone_refl

/-! ## KEY_RETIRE (R531) -/

/-- A KEY_RETIRE waits for its partition's placements. -/
def State.awaits (s : State) (h : Hdr) (p : Nat) : State := { s with sec := { s.sec with retiring := s.sec.retiring ++ [(h, p)] } }

/-- A partition's contexts, models and parked images are gone. -/
def State.emptied (s : State) (p : Nat) : State :=
  ((s.closeAll p 5).dropModels p).setPart p { ((s.closeAll p 5).dropModels p).part p with extents := [] }

/-- Every other partition's contexts are gone too, and the system tables are as at start-up. -/
def State.tablesFresh (s : State) : State := ((s.each (List.range 63) fun s q => s.closeAll (q + 1) 5).stopSteps).freshTables

/-- What a KEY_RETIRE leaves when its partition has no placement, before the new key. -/
def State.retired (s : State) (p : Nat) : State :=
  if p = 0 then ({ s with sec := { s.sec with retiring := s.sec.retiring.filter fun x => x.2 != p } }.emptied p).tablesFresh
  else { s with sec := { s.sec with retiring := s.sec.retiring.filter fun x => x.2 != p } }.emptied p

theorem endRetire_eq : s.endRetire h p = ((s.retired p).freshKey p 0).reply h 0x71 stOK 0 0 := rfl

theorem zeroDebugRun_of_not (hz : s.sec.zeroing = false) : s.zeroDebugRun = s := by
  rw [State.zeroDebugRun, hz]
  rfl

theorem find_awaits (hnew : ∀ x ∈ s.sec.retiring, x.2 ≠ p) : (s.awaits h p).sec.retiring.find? (fun x => x.2 == p) = some (h, p) := by
  have hnone : s.sec.retiring.find? (fun x => x.2 == p) = none := List.find?_eq_none.mpr fun x hx he => hnew x hx (beq_iff_eq.mp he)
  show (s.sec.retiring ++ [(h, p)]).find? _ = _
  rw [List.find?_append, hnone, Option.none_or, List.find?_cons_of_pos (by simp)]

/-- What a KEY_RETIRE does once it waits: its partition's placements are on their way out. -/
theorem svcKeyRetire_eq {part : BitVec 8} (hp : part.toNat = p) (h64 : p < 64) (hex : s.partExists p = true)
    (hco : s.flag Reg.SEC_STAT Fld.SEC_STAT_CO_SESSION = true) (herr : s.secError = false) :
    s.svcKeyRetire h part 0 = ((((s.awaits h p).marked (s.placesOf p)).each (((s.awaits h p).marked (s.placesOf p)).placesOf p) fun s l =>
      if (s.place l).step.isNone then s.cairn l else s).settle p) := by
  subst hp
  unfold State.svcKeyRetire
  rw [checked_of_pass]
  · rfl
  · rw [decide_eq_true h64, hex, chkId_true hco, herr]
    rfl

theorem settle_of_some (hnew : ∀ x ∈ s.sec.retiring, x.2 ≠ p) (ht : t.sec = (s.awaits h p).sec) (hz : s.sec.zeroing = false)
    (hsome : t.placesOf p ≠ []) : t.settle p = t := by
  have hfind : t.sec.retiring.find? (fun x => x.2 == p) = some (h, p) := by rw [ht, find_awaits hnew]
  have hempty : (t.placesOf p).isEmpty = false := List.isEmpty_eq_false_iff.mpr hsome
  have hzt : t.sec.zeroing = false := by rw [ht]; exact hz
  unfold State.settle
  rw [hfind]
  dsimp only
  rw [hempty]
  exact zeroDebugRun_of_not hzt

/-- While every placement has a step in flight a KEY_RETIRE only marks them. -/
theorem svcKeyRetire_waits {part : BitVec 8} (hp : part.toNat = p) (h64 : p < 64) (hex : s.partExists p = true)
    (hco : s.flag Reg.SEC_STAT Fld.SEC_STAT_CO_SESSION = true) (herr : s.secError = false) (hz : s.sec.zeroing = false)
    (hnew : ∀ x ∈ s.sec.retiring, x.2 ≠ p) (hsome : s.placesOf p ≠ []) (hbusy : ∀ l ∈ s.placesOf p, (s.place l).step.isSome = true) :
    s.svcKeyRetire h part 0 = (s.awaits h p).marked (s.placesOf p) := by
  have hmarked : ((s.awaits h p).marked (s.placesOf p)).sec = (s.awaits h p).sec := by rw [marked_frame]
  have hlisted : ((s.awaits h p).marked (s.placesOf p)).placesOf p ≠ [] := marked_listed (s := s.awaits h p) hsome
  have hself : (((s.awaits h p).marked (s.placesOf p)).each (((s.awaits h p).marked (s.placesOf p)).placesOf p) fun s l =>
      if (s.place l).step.isNone then s.cairn l else s) = (s.awaits h p).marked (s.placesOf p) := each_eq_self fun l hl => if_neg fun hnone => by
    have hmem : l ∈ s.placesOf p := (marked_mem (s := s.awaits h p) hl).elim id id
    have hb := hbusy l hmem
    rw [marked_place, if_pos hmem, Option.isNone_iff_eq_none] at hnone
    rw [show (s.place l).step = none from hnone] at hb
    cases hb
  rw [svcKeyRetire_eq hp h64 hex hco herr, hself, settle_of_some hnew hmarked hz hlisted]

/-- Without a placement a KEY_RETIRE ends at once. -/
theorem svcKeyRetire_ends {part : BitVec 8} (hp : part.toNat = p) (h64 : p < 64) (hex : s.partExists p = true)
    (hco : s.flag Reg.SEC_STAT Fld.SEC_STAT_CO_SESSION = true) (herr : s.secError = false) (hz : s.sec.zeroing = false)
    (hnew : ∀ x ∈ s.sec.retiring, x.2 ≠ p) (hnone : s.placesOf p = []) (hkept : ((s.awaits h p).retired p).sec.zeroing = false) :
    s.svcKeyRetire h part 0 = (((s.awaits h p).retired p).freshKey p 0).reply h 0x71 stOK 0 0 := by
  have hmarked : (s.awaits h p).marked [] = s.awaits h p := rfl
  have hplaces : (s.awaits h p).placesOf p = [] := hnone
  rw [svcKeyRetire_eq hp h64 hex hco herr, hnone, hmarked, hplaces]
  show (s.awaits h p).settle p = _
  unfold State.settle
  rw [find_awaits hnew]
  dsimp only
  rw [hplaces, endRetire_eq]
  refine zeroDebugRun_of_not ?_
  rw [repliesOnly_reply.1]
  exact hkept

theorem secKey_part (h64 : p < 64) : secKey (Reg.SEC_PART p).key := by
  simp only [secKey, Reg.SEC_PART]
  omega

theorem notHidden_part (hex : s.partExists p = true) : s.notHidden (Reg.SEC_PART p).key := by
  intro hm hlow
  have hp : p ≠ 0 := fun he => by
    subst he
    exact absurd hm (by decide)
  have hone : s.fld ⟨(Reg.SEC_PART p).key, 0⟩ Fld.SEC_PART_EXISTS = 1 := by
    have hreg : Reg.SEC_PART p = ⟨(Reg.SEC_PART p).key, 0⟩ := by rw [Reg.SEC_PART, if_neg hp]
    rw [← hreg]
    exact beq_iff_eq.mp hex
  unfold State.fld at hlow hone
  generalize s.reg _ = v at hlow hone
  simp only [getBits, bitsOf, lowWord, Fld.SEC_PART_EXISTS] at hlow hone
  omega

theorem keepsLow_setPart {x : Part} : s.keepsLow k (s.setPart p x) := keepsLow_of_regs rfl rfl

theorem keepsLow_emptied (hk : secKey k) (hs : s.notHidden k) : s.keepsLow k (s.emptied p) :=
  keepsLow_trans (keepsLow_trans (keepsLow_closeAll hk hs) (keepsLow_dropModels hk)) keepsLow_setPart

theorem keepsLow_closeEach (hk : secKey k) (hs : s.notHidden k) : s.keepsLow k (s.each (List.range 63) fun s q => s.closeAll (q + 1) 5) :=
  each_induction (P := s.keepsLow k) keepsLow_refl fun _ _ _ ht => keepsLow_trans ht (keepsLow_closeAll hk (notHidden_of_keepsLow hs ht))

theorem keepsLow_freshTables : s.keepsLow k s.freshTables := keepsLow_of_regs rfl rfl

theorem keepsLow_tablesFresh (hk : secKey k) (hs : s.notHidden k) : s.keepsLow k s.tablesFresh :=
  keepsLow_trans (keepsLow_trans (keepsLow_closeEach hk hs) keepsLow_stopSteps) keepsLow_freshTables

/-- The KEY_RETIREs of a partition wait no more. -/
def State.waitsNoMore (s : State) (p : Nat) : State := { s with sec := { s.sec with retiring := s.sec.retiring.filter fun x => x.2 != p } }

theorem keepsLow_retired (hk : secKey k) (hs : s.notHidden k) : (s.waitsNoMore p).keepsLow k (s.retired p) := by
  have hs1 : (s.waitsNoMore p).notHidden k := hs
  have hempty := keepsLow_emptied (p := p) hk hs1
  unfold State.retired
  split
  · exact keepsLow_trans hempty (keepsLow_tablesFresh hk (notHidden_of_keepsLow hs1 hempty))
  · exact hempty

/-- The generation of a key does not depend on what the register reads after reset. -/
theorem fld_keyGen : s.fld (Reg.SEC_PART p) Fld.SEC_PART_KEY_GEN = s.fld ⟨(Reg.SEC_PART p).key, 0⟩ Fld.SEC_PART_KEY_GEN := by
  refine getBits_tget ?_
  unfold Reg.SEC_PART
  dsimp only
  split
  · decide
  · decide

theorem fld_exists (hp : p ≠ 0) : s.fld (Reg.SEC_PART p) Fld.SEC_PART_EXISTS = s.fld ⟨(Reg.SEC_PART p).key, 0⟩ Fld.SEC_PART_EXISTS := by
  rw [Reg.SEC_PART, if_neg hp]

/-- The key that a KEY_RETIRE installs, over whatever the end of the partition's work did elsewhere. -/
theorem retired_key (h64 : p < 64) (hex : s.partExists p = true) :
    ((s.retired p).freshKey p 0).keyOf p = s.sec.nextKey ∧ (∀ q, q ≠ p → ((s.retired p).freshKey p 0).keyOf q = s.keyOf q) ∧
      ((s.retired p).freshKey p 0).fld (Reg.SEC_PART p) Fld.SEC_PART_KEY_SRC = 0 ∧
      ((s.retired p).freshKey p 0).fld (Reg.SEC_PART p) Fld.SEC_PART_KEY_GEN = (s.fld (Reg.SEC_PART p) Fld.SEC_PART_KEY_GEN + 1) % 256 ∧
      (s.retired p).sec.zeroing = s.sec.zeroing ∧ (p ≠ 0 → ((s.retired p).freshKey p 0).partExists p = true) := by
  obtain ⟨hsec, hfld⟩ := keepsLow_retired (p := p) (secKey_part h64) (notHidden_part hex)
  have hkey (q : Nat) : (s.retired p).keyOf q = s.keyOf q := by
    rw [State.keyOf, State.keyOf, hsec]
    rfl
  have hgen : (s.retired p).fld (Reg.SEC_PART p) Fld.SEC_PART_KEY_GEN = s.fld (Reg.SEC_PART p) Fld.SEC_PART_KEY_GEN := by
    rw [fld_keyGen, fld_keyGen, hfld _ (by decide)]
    rfl
  have hexists (hp : p ≠ 0) : (s.retired p).fld (Reg.SEC_PART p) Fld.SEC_PART_EXISTS = s.fld (Reg.SEC_PART p) Fld.SEC_PART_EXISTS := by
    rw [fld_exists hp, fld_exists hp, hfld _ (by decide)]
    rfl
  have hnext : (s.retired p).sec.nextKey = s.sec.nextKey ∧ (s.retired p).sec.zeroing = s.sec.zeroing := by
    rw [hsec]
    exact ⟨rfl, rfl⟩
  generalize s.retired p = v at hkey hgen hexists hnext
  refine ⟨by rw [freshKey_keyOf, if_pos rfl, hnext.1], fun q hq => by rw [freshKey_keyOf, if_neg hq, hkey], freshKey_src (by decide),
    by rw [freshKey_gen, hgen], hnext.2, fun hp => ?_⟩
  have hkept : (v.freshKey p 0).fld (Reg.SEC_PART p) Fld.SEC_PART_EXISTS = v.fld (Reg.SEC_PART p) Fld.SEC_PART_EXISTS :=
    (State.fld_setFld_of_disjoint (by decide)).trans (State.fld_setFld_of_disjoint (by decide))
  rw [State.partExists, State.flag, hkept, hexists hp]
  exact hex

theorem emptied_part : ((s.emptied p).part p).extents = [] := by rw [State.emptied, State.part_setPart_self]

theorem emptied_ctx : ∀ i ∈ s.ctxsOfPart p, ((s.emptied p).ctx i).st = .closed := fun i hi => by
  have hctx : (s.emptied p).ctx i = (s.closeAll p 5).ctx i := State.setPart_ctx_acc.trans dropModels_ctx
  rw [hctx]
  exact closeAll_closed i hi

theorem emptied_model (hp : 1 ≤ p) {m : Nat} (hm : ((s.emptied p).model m).part = p) : ((s.emptied p).model m).st = .absent := by
  rw [State.emptied, State.setPart_model_acc] at hm ⊢
  exact dropModels_absent hp hm

theorem freshTables_parts : s.freshTables.parts = s.parts := rfl

theorem freshTables_ctxs : s.freshTables.ctxs = [] := rfl

theorem tablesFresh_part {q : Nat} (hq : (s.part q).extents = []) : (s.tablesFresh.part q).extents = [] :=
  gainsNone_trans (gainsNone_each fun _ _ _ => gainsNone_closeAll) (gainsNone_trans gainsNone_stopSteps (gainsNone_of_parts freshTables_parts)) q hq

theorem tablesFresh_ctxs : s.tablesFresh.ctxs = [] := freshTables_ctxs

theorem part_freshKey {src q : Nat} : (s.freshKey p src).part q = s.part q := rfl

theorem ctx_freshKey {src i : Nat} : (s.freshKey p src).ctx i = s.ctx i := rfl

theorem model_freshKey {src m : Nat} : (s.freshKey p src).model m = s.model m := rfl

/-! ## Zeroisation (R535) -/

/-- Key registers cleared one after the other: every key named is newer than all keys before. -/
theorem clearKeys_spec {ps : List Nat} {n : Nat} (hn : n ≤ s.sec.nextKey) :
    n ≤ (s.each ps fun s p => s.clearKey p).sec.nextKey ∧
      ∀ q, q ∈ ps ∨ n ≤ s.keyOf q → n ≤ (s.each ps fun s p => s.clearKey p).keyOf q := by
  induction ps generalizing s with
  | nil => exact ⟨hn, fun q hq => hq.resolve_left List.not_mem_nil⟩
  | cons p ps ih =>
    obtain ⟨hnext, hkeys⟩ := ih (s := s.clearKey p) (hn.trans (Nat.le_succ _))
    refine ⟨hnext, fun q hq => hkeys q ?_⟩
    rw [clearKey_keyOf]
    by_cases hqp : q = p
    · exact .inr (by rw [if_pos hqp]; exact hn)
    · rw [if_neg hqp]
      exact hq.imp_left fun hm => (List.mem_cons.mp hm).resolve_left hqp

theorem clearKeys_frame {ps : List Nat} : (s.each ps fun s p => s.clearKey p) = { s with
    sec := { s.sec with keyId := (s.each ps fun s p => s.clearKey p).sec.keyId, nextKey := (s.each ps fun s p => s.clearKey p).sec.nextKey } } := by
  refine each_induction (P := fun t => t = { s with sec := { s.sec with keyId := t.sec.keyId, nextKey := t.sec.nextKey } }) rfl fun t x _ ht => ?_
  exact congrArg (fun v : State => { v with sec := { v.sec with keyId := tset 0 t.sec.keyId x t.sec.nextKey, nextKey := t.sec.nextKey + 1 } }) ht

/-- The keys are gone and the session is over. -/
def State.keysGone (s : State) : State :=
  { s.each s.parts_ fun s p => s.clearKey p with
    sec := { (s.each s.parts_ fun s p => s.clearKey p).sec with zeroing := true, sessEnd := none } }

/-- The boundary shows the first phase of a zeroisation. -/
def State.phaseOne (s : State) : State :=
  ((s.setFlag Reg.SEC_STAT Fld.SEC_STAT_CO_SESSION false).setFld Reg.SEC_STAT Fld.SEC_STAT_CO_LEFT 0).setFld Reg.SEC_STAT Fld.SEC_STAT_ZERO_PHASE 1

theorem present_of_places (hp : t.places = s.places) : t.present = s.present := by rw [State.present, State.present, hp]

theorem phaseOne_frame : s.phaseOne = { s with regs := s.phaseOne.regs } := by
  unfold State.phaseOne
  have h1 := setFld_frame (s := s) (r := Reg.SEC_STAT) (f := Fld.SEC_STAT_CO_SESSION) (x := b2n false)
  rw [State.setFlag]
  generalize s.setFld Reg.SEC_STAT Fld.SEC_STAT_CO_SESSION (b2n false) = v at h1 ⊢
  have h2 := setFld_frame (s := v) (r := Reg.SEC_STAT) (f := Fld.SEC_STAT_CO_LEFT) (x := 0)
  generalize v.setFld Reg.SEC_STAT Fld.SEC_STAT_CO_LEFT 0 = w at h2 ⊢
  have hw : w = { s with regs := w.regs } := h2.trans (by rw [h1])
  have h3 := setFld_frame (s := w) (r := Reg.SEC_STAT) (f := Fld.SEC_STAT_ZERO_PHASE) (x := 1)
  generalize w.setFld Reg.SEC_STAT Fld.SEC_STAT_ZERO_PHASE 1 = x at h3 ⊢
  exact h3.trans (by rw [hw])

theorem keysGone_places : s.keysGone.places = s.places := by
  show (s.each s.parts_ fun s p => s.clearKey p).places = _
  rw [clearKeys_frame]

theorem zeroBegin_eq : s.zeroBegin = s.keysGone.phaseOne.marked s.present := by
  have hp : s.keysGone.phaseOne.present = s.present := present_of_places (by rw [phaseOne_frame, keysGone_places])
  rw [← hp]
  rfl

theorem mem_parts {q : Nat} (h64 : q < 64) (hex : s.partExists q = true) : q ∈ s.parts_ :=
  List.mem_filter.mpr ⟨List.mem_range.mpr h64, hex⟩

theorem keysGone_spec : s.keysGone.sec.zeroing = true ∧ s.keysGone.sec.sessEnd = none ∧ s.sec.nextKey ≤ s.keysGone.sec.nextKey ∧
    s.keysGone.sec.devKey = s.sec.devKey ∧ (∀ q, q < 64 → s.partExists q = true → s.sec.nextKey ≤ s.keysGone.keyOf q) ∧
    s.keysGone = { s with sec := s.keysGone.sec } := by
  obtain ⟨hnext, hkeys⟩ := clearKeys_spec (s := s) (ps := s.parts_) le_rfl
  have hframe := clearKeys_frame (s := s) (ps := s.parts_)
  unfold State.keysGone
  generalize (s.each s.parts_ fun s p => s.clearKey p) = v at hnext hkeys hframe ⊢
  refine ⟨rfl, rfl, hnext, by rw [hframe], fun q h64 hex => hkeys q (.inl (mem_parts h64 hex)), ?_⟩
  rw [hframe]

theorem phaseOne_stat : s.phaseOne.flag Reg.SEC_STAT Fld.SEC_STAT_CO_SESSION = false ∧ s.phaseOne.fld Reg.SEC_STAT Fld.SEC_STAT_ZERO_PHASE = 1 := by
  unfold State.phaseOne
  constructor
  · rw [State.flag, State.fld_setFld_of_disjoint (by decide), State.fld_setFld_of_disjoint (by decide)]
    exact State.flag_setFlag_self (by decide) rfl
  · exact (State.fld_setFld_self (by decide)).trans rfl

theorem phaseOne_keepsRegs : s.keepsRegs s.phaseOne fun k => k ≠ Reg.SEC_STAT.key := by
  unfold State.phaseOne
  exact keepsRegs_trans (keepsRegs_trans (keepsRegs_setFlag fun h => h rfl) (keepsRegs_setFld fun h => h rfl)) (keepsRegs_setFld fun h => h rfl)

/-- What the first phase of a zeroisation does at once. -/
theorem zeroBegin_spec : s.zeroBegin.sec = s.keysGone.sec ∧ s.zeroBegin.flag Reg.SEC_STAT Fld.SEC_STAT_CO_SESSION = false ∧
    s.zeroBegin.fld Reg.SEC_STAT Fld.SEC_STAT_ZERO_PHASE = 1 ∧ (∀ q, s.zeroBegin.keyOf q = s.keysGone.keyOf q) ∧
    (∀ l ∈ s.present, s.zeroBegin.place l = { s.place l with removing := true }) ∧
    s.zeroBegin = { s with regs := s.zeroBegin.regs, sec := s.zeroBegin.sec, places := s.zeroBegin.places } ∧
    s.keepsRegs s.zeroBegin fun k => k ≠ Reg.SEC_STAT.key := by
  obtain ⟨-, -, -, -, -, hgone⟩ := keysGone_spec (s := s)
  have hone := phaseOne_frame (s := s.keysGone)
  obtain ⟨hflag, hphase⟩ := phaseOne_stat (s := s.keysGone)
  have hregs : s.keepsRegs s.keysGone.phaseOne fun k => k ≠ Reg.SEC_STAT.key :=
    keepsRegs_trans (keepsRegs_of_regs (by rw [hgone])) phaseOne_keepsRegs
  rw [zeroBegin_eq]
  generalize s.keysGone = g at hgone hone hflag hphase hregs ⊢
  generalize g.phaseOne = v at hone hflag hphase hregs ⊢
  have hmarked := marked_frame (s := v) (ls := s.present)
  have hplace (l : Nat) := marked_place (s := v) (ls := s.present) (l := l)
  generalize v.marked s.present = w at hmarked hplace ⊢
  have hwregs : w.regs = v.regs := by rw [hmarked]
  have hwsec : w.sec = g.sec := by rw [hmarked, hone]
  refine ⟨hwsec, ?_, by rw [State.fld_of_regs hwregs, hphase], fun q => by rw [State.keyOf, State.keyOf, hwsec], fun l hl => ?_, ?_,
    keepsRegs_trans hregs (keepsRegs_of_regs hwregs)⟩
  · rw [State.flag, State.fld_of_regs hwregs]
    exact hflag
  · rw [hplace, if_pos hl, show v.place l = s.place l by rw [State.place, State.place, hone, hgone]]
  · rw [hmarked, hone, hgone]

theorem svcZeroize_eq : s.svcZeroize h 0 = s.startLong h (.zeroize 0) 3 fun _ s => if s.sec.zeroing then s else s.zeroBegin :=
  checked_of_pass rfl

theorem secKey_cnt : secKey Reg.SEC_CNT.key := ⟨by decide, by decide, by decide⟩

theorem secKey_stat : secKey Reg.SEC_STAT.key := ⟨by decide, by decide, by decide⟩

theorem fnStat_ne_secStat {f : Nat} : (Reg.SCH_FN_STAT f).key ≠ Reg.SEC_STAT.key := fnStat_ne_secKey secKey_stat

theorem fnStat_ne_secPart {f : Nat} (h64 : p < 64) : (Reg.SCH_FN_STAT f).key ≠ (Reg.SEC_PART p).key := fnStat_ne_secKey (secKey_part h64)

theorem zeroBegin_longKept : s.longKept s.zeroBegin h := by
  obtain ⟨-, -, -, -, -, hframe, hregs⟩ := zeroBegin_spec (s := s)
  refine ⟨by rw [hframe], by rw [hframe], keepsRegs_fld hregs fnStat_ne_secStat, ?_⟩
  rw [show s.zeroBegin.pair h.fn h.ring = s.pair h.fn h.ring by rw [hframe]; rfl]

/-! ## The boundary's error state (R534, R539) -/

/-- The registers of the error state. -/
def State.erring (s : State) (cause : Nat) : State :=
  ((s.setFlag Reg.SEC_STAT Fld.SEC_STAT_ERROR true).setFld Reg.SEC_STAT Fld.SEC_STAT_ERR_CAUSE cause).setFlag Reg.SEC_STAT Fld.SEC_STAT_APPROVED false

theorem enterError_eq {cause place : Nat} : s.enterError cause place = (s.erring cause).fault 0x0704 2 3 cause (leBytes 1 place) := rfl

theorem erring_frame {cause : Nat} : s.erring cause = { s with regs := (s.erring cause).regs } := rfl

theorem erring_fields {cause : Nat} : s.fieldsBut (s.erring cause)
    [(Reg.SEC_STAT, Fld.SEC_STAT_ERROR), (Reg.SEC_STAT, Fld.SEC_STAT_ERR_CAUSE), (Reg.SEC_STAT, Fld.SEC_STAT_APPROVED)] := by
  unfold State.erring
  exact fieldsBut_trans (fieldsBut_trans (fieldsBut_setFlag (by simp)) (fieldsBut_setFld (by simp))) (fieldsBut_setFlag (by simp))

theorem erring_stat {cause : Nat} (h4 : cause ≤ 4) : (s.erring cause).flag Reg.SEC_STAT Fld.SEC_STAT_ERROR = true ∧
    (s.erring cause).fld Reg.SEC_STAT Fld.SEC_STAT_ERR_CAUSE = cause ∧ (s.erring cause).flag Reg.SEC_STAT Fld.SEC_STAT_APPROVED = false := by
  unfold State.erring
  refine ⟨?_, ?_, State.flag_setFlag_self (by decide) rfl⟩
  · rw [State.flag, State.setFlag, State.fld_setFld_of_disjoint (by decide), State.fld_setFld_of_disjoint (by decide)]
    exact State.flag_setFlag_self (by decide) rfl
  · rw [State.setFlag, State.fld_setFld_of_disjoint (by decide)]
    exact (State.fld_setFld_self (by decide)).trans (Nat.mod_eq_of_lt (show cause < 2 ^ 3 by omega))

/-- The Crypto Officer session is over. -/
def State.sessionOver (s : State) : State :=
  ({ s with sec := { s.sec with sessEnd := none } }.setFlag Reg.SEC_STAT Fld.SEC_STAT_CO_SESSION false).setFld Reg.SEC_STAT Fld.SEC_STAT_CO_LEFT 0

theorem sessionOver_spec : s.sessionOver.sec = { s.sec with sessEnd := none } ∧ s.sessionOver.flag Reg.SEC_STAT Fld.SEC_STAT_CO_SESSION = false ∧
    s.sessionOver.fld Reg.SEC_STAT Fld.SEC_STAT_CO_LEFT = 0 ∧
    s.sessionOver = { s with regs := s.sessionOver.regs, sec := s.sessionOver.sec } ∧
    s.fieldsBut s.sessionOver [(Reg.SEC_STAT, Fld.SEC_STAT_CO_SESSION), (Reg.SEC_STAT, Fld.SEC_STAT_CO_LEFT)] := by
  unfold State.sessionOver
  generalize hv : ({ s with sec := { s.sec with sessEnd := none } } : State) = v
  have hsec : v.sec = { s.sec with sessEnd := none } := by rw [← hv]
  have hregs : v.regs = s.regs := by rw [← hv]
  have hframe : v = { s with sec := v.sec } := by rw [← hv]
  have hflag : (v.setFlag Reg.SEC_STAT Fld.SEC_STAT_CO_SESSION false).flag Reg.SEC_STAT Fld.SEC_STAT_CO_SESSION = false :=
    State.flag_setFlag_self (by decide) rfl
  have h1 : v.setFlag Reg.SEC_STAT Fld.SEC_STAT_CO_SESSION false = { v with regs := (v.setFlag Reg.SEC_STAT Fld.SEC_STAT_CO_SESSION false).regs } := setFld_frame
  have hfields : s.fieldsBut (v.setFlag Reg.SEC_STAT Fld.SEC_STAT_CO_SESSION false) [(Reg.SEC_STAT, Fld.SEC_STAT_CO_SESSION), (Reg.SEC_STAT, Fld.SEC_STAT_CO_LEFT)] :=
    fieldsBut_trans (fieldsBut_of_regs hregs) (fieldsBut_setFlag (by simp))
  generalize v.setFlag Reg.SEC_STAT Fld.SEC_STAT_CO_SESSION false = w at hflag h1 hfields ⊢
  have hw : w = { s with regs := w.regs, sec := v.sec } := h1.trans (by rw [hframe])
  have h2 := setFld_frame (s := w) (r := Reg.SEC_STAT) (f := Fld.SEC_STAT_CO_LEFT) (x := 0)
  have hkept : (w.setFld Reg.SEC_STAT Fld.SEC_STAT_CO_LEFT 0).fld Reg.SEC_STAT Fld.SEC_STAT_CO_SESSION = w.fld Reg.SEC_STAT Fld.SEC_STAT_CO_SESSION :=
    State.fld_setFld_of_disjoint (by decide)
  have hleft : (w.setFld Reg.SEC_STAT Fld.SEC_STAT_CO_LEFT 0).fld Reg.SEC_STAT Fld.SEC_STAT_CO_LEFT = 0 := State.fld_setFld_self (by decide)
  have hall := fieldsBut_trans hfields (fieldsBut_setFld (s := w) (r := Reg.SEC_STAT) (f := Fld.SEC_STAT_CO_LEFT) (x := 0) (by simp))
  generalize w.setFld Reg.SEC_STAT Fld.SEC_STAT_CO_LEFT 0 = x at h2 hkept hleft hall ⊢
  have hxsec : x.sec = { s.sec with sessEnd := none } := by rw [h2, hw, hsec]
  refine ⟨hxsec, ?_, hleft, h2.trans (by rw [hw, hxsec, hsec]), hall⟩
  rw [State.flag, hkept]
  exact hflag

/-! ## A whole zeroisation (R535, R536) -/

/-- Of the boundary the security state, the count of zeroisations and the session's flag are the same. -/
def State.sameBoundary (s t : State) : Prop :=
  t.sec = s.sec ∧ t.fld Reg.SEC_CNT Fld.SEC_CNT_ZEROIZES = s.fld Reg.SEC_CNT Fld.SEC_CNT_ZEROIZES ∧
    t.fld Reg.SEC_STAT Fld.SEC_STAT_CO_SESSION = s.fld Reg.SEC_STAT Fld.SEC_STAT_CO_SESSION

theorem sameBoundary_refl : s.sameBoundary s := ⟨rfl, rfl, rfl⟩

theorem sameBoundary_trans (h : s.sameBoundary t) (h' : t.sameBoundary u) : s.sameBoundary u := by
  obtain ⟨hsec, hcnt, hflag⟩ := h
  obtain ⟨ksec, kcnt, kflag⟩ := h'
  exact ⟨ksec.trans hsec, kcnt.trans hcnt, kflag.trans hflag⟩

theorem sameBoundary_of_keepsLow (h : ∀ k, secKey k → k % 64 ≠ 32 → s.keepsLow k t) : s.sameBoundary t :=
  ⟨(h Reg.SEC_CNT.key secKey_cnt (by decide)).1, (h Reg.SEC_CNT.key secKey_cnt (by decide)).2 _ (by decide),
    (h Reg.SEC_STAT.key secKey_stat (by decide)).2 _ (by decide)⟩

theorem sameBoundary_setPhase {x : Nat} : s.sameBoundary (s.setFld Reg.SEC_STAT Fld.SEC_STAT_ZERO_PHASE x) :=
  ⟨rfl, State.fld_setFld_ne (by decide), State.fld_setFld_of_disjoint (by decide)⟩

theorem sameBoundary_emptied : s.sameBoundary (s.emptied p) :=
  sameBoundary_of_keepsLow fun _ hk hm => keepsLow_emptied hk fun he => absurd he hm

theorem zeroEmpty_eq : s.zeroEmpty = (s.each s.parts_ fun s p => s.emptied p).setFld Reg.SEC_STAT Fld.SEC_STAT_ZERO_PHASE 2 := rfl

theorem sameBoundary_zeroEmpty : s.sameBoundary s.zeroEmpty := by
  rw [zeroEmpty_eq]
  exact sameBoundary_trans (each_induction (P := s.sameBoundary) sameBoundary_refl fun _ _ _ ht => sameBoundary_trans ht sameBoundary_emptied)
    sameBoundary_setPhase

theorem sameBoundary_zeroScrub : s.sameBoundary s.zeroScrub := by
  unfold State.zeroScrub
  exact sameBoundary_trans (each_induction (P := s.sameBoundary) sameBoundary_refl fun _ _ _ ht =>
    sameBoundary_trans ht (sameBoundary_of_keepsLow fun _ hk _ => keepsLow_scrub hk)) sameBoundary_setPhase

/-- Fresh keys one after the other. -/
def State.freshKeys (s : State) (ps : List Nat) : State := s.each ps fun s p => s.freshKey p 0

/-- New keys only: no older one comes back, and nothing but the boundary's registers and state differs. -/
def State.newKeys (s t : State) : Prop :=
  s.sec.nextKey ≤ t.sec.nextKey ∧ (∀ q, t.keyOf q = s.keyOf q ∨ s.sec.nextKey ≤ t.keyOf q) ∧
    t.sec = { s.sec with keyId := t.sec.keyId, nextKey := t.sec.nextKey } ∧ t = { s with regs := t.regs, sec := t.sec } ∧
    t.reg Reg.SEC_CNT = s.reg Reg.SEC_CNT ∧ t.reg Reg.SEC_STAT = s.reg Reg.SEC_STAT

theorem newKeys_refl : s.newKeys s := ⟨le_rfl, fun _ => .inl rfl, rfl, rfl, rfl, rfl⟩

theorem newKeys_trans (h : s.newKeys t) (h' : t.newKeys u) : s.newKeys u := by
  obtain ⟨hnext, hkeys, hsec, hframe, hcnt, hstat⟩ := h
  obtain ⟨knext, kkeys, ksec, kframe, kcnt, kstat⟩ := h'
  refine ⟨hnext.trans knext, fun q => ?_, ksec.trans (by rw [hsec]), kframe.trans (by rw [hframe]), kcnt.trans hcnt, kstat.trans hstat⟩
  rcases kkeys q with hq | hq
  · rw [hq]
    exact hkeys q
  · exact .inr (hnext.trans hq)

theorem newKeys_freshKey : s.newKeys (s.freshKey p 0) := by
  obtain ⟨hstat, -, hcnt⟩ := secPart_keys (p := p)
  refine ⟨Nat.le_succ _, fun q => ?_, freshKey_sec, freshKey_frame, freshKey_reg (Ne.symm hcnt), freshKey_reg (Ne.symm hstat)⟩
  rw [freshKey_keyOf]
  split
  · exact .inr le_rfl
  · exact .inl rfl

theorem newKeys_freshKeys {ps : List Nat} : s.newKeys (s.freshKeys ps) :=
  each_induction (P := s.newKeys) newKeys_refl fun _ _ _ ht => newKeys_trans ht newKeys_freshKey

/-- A new device key pair changes the number of the pair and the registers of its public half. -/
theorem newDevKey_spec : s.newDevKey.sec = { s.sec with devKey := s.sec.devKey + 1 } ∧ s.newDevKey.ctxs = s.ctxs ∧
    s.newDevKey.reg Reg.SEC_CNT = s.reg Reg.SEC_CNT ∧ s.newDevKey.reg Reg.SEC_STAT = s.reg Reg.SEC_STAT := by
  unfold State.newDevKey
  dsimp only
  generalize hv : ({ s with sec := { s.sec with devKey := s.sec.devKey + 1 } } : State) = v
  have hsec : v.sec = { s.sec with devKey := s.sec.devKey + 1 } := by rw [← hv]
  have hctxs : v.ctxs = s.ctxs := by rw [← hv]
  have hregs : v.regs = s.regs := by rw [← hv]
  have hkept : v.newKeys (v.each (List.range 12) fun t i => t.wrReg (Reg.SEC_DEVPUB i) (Config.devicePublicKey (s.sec.devKey + 1) i)) :=
    each_induction (P := v.newKeys) newKeys_refl fun t i _ ht => newKeys_trans ht
      ⟨le_rfl, fun _ => .inl rfl, rfl, rfl, State.reg_wrReg_ne (by simp only [Reg.SEC_CNT, Reg.SEC_DEVPUB]; omega),
        State.reg_wrReg_ne (by simp only [Reg.SEC_STAT, Reg.SEC_DEVPUB]; omega)⟩
  have hsame : (v.each (List.range 12) fun t i => t.wrReg (Reg.SEC_DEVPUB i) (Config.devicePublicKey (s.sec.devKey + 1) i)).sec = v.sec :=
    each_induction (P := fun t => t.sec = v.sec) rfl fun _ _ _ ht => ht
  obtain ⟨-, -, -, hframe, hcnt, hstat⟩ := hkept
  refine ⟨hsame.trans hsec, ?_, hcnt.trans (reg_of_regs hregs), hstat.trans (reg_of_regs hregs)⟩
  rw [hframe, hctxs]

/-- The zeroisation is counted and its phase is over. -/
def State.zeroCounted (s : State) : State := (s.bump Reg.SEC_CNT Fld.SEC_CNT_ZEROIZES).setFld Reg.SEC_STAT Fld.SEC_STAT_ZERO_PHASE 0

/-- Debug is open and the approved mode is left. -/
def State.debugOpened (s : State) : State := (s.setFlag Reg.SEC_STAT Fld.SEC_STAT_DEBUG_OPEN true).setFlag Reg.SEC_STAT Fld.SEC_STAT_APPROVED false

/-- No zeroisation is in progress. -/
def State.zeroOver (s : State) : State := { s with sec := { s.sec with zeroing := false, zeroDebug := false } }

theorem zeroOver_names : s.zeroOver.regs = s.regs ∧ s.zeroOver.ctxs = s.ctxs ∧ s.zeroOver.sec = { s.sec with zeroing := false, zeroDebug := false } :=
  ⟨rfl, rfl, rfl⟩

theorem zeroRekey_eq : s.zeroRekey = (if ((s.freshTables.freshKeys s.parts_).newDevKey).zeroCounted.sec.zeroDebug then
    ((s.freshTables.freshKeys s.parts_).newDevKey).zeroCounted.debugOpened else ((s.freshTables.freshKeys s.parts_).newDevKey).zeroCounted).zeroOver := rfl

theorem zeroCounted_spec : s.zeroCounted.fld Reg.SEC_STAT Fld.SEC_STAT_CO_SESSION = s.fld Reg.SEC_STAT Fld.SEC_STAT_CO_SESSION ∧
    s.zeroCounted.sec = s.sec ∧ s.zeroCounted.ctxs = s.ctxs ∧
    s.zeroCounted.fld Reg.SEC_CNT Fld.SEC_CNT_ZEROIZES = min (s.fld Reg.SEC_CNT Fld.SEC_CNT_ZEROIZES + 1) 65535 := by
  have hframe := bump_frame (s := s) (r := Reg.SEC_CNT) (f := Fld.SEC_CNT_ZEROIZES)
  have hcnt : (s.bump Reg.SEC_CNT Fld.SEC_CNT_ZEROIZES).fld Reg.SEC_CNT Fld.SEC_CNT_ZEROIZES = min (s.fld Reg.SEC_CNT Fld.SEC_CNT_ZEROIZES + 1) 65535 :=
    fld_bumpBy (s := s) (r := Reg.SEC_CNT) (f := Fld.SEC_CNT_ZEROIZES) (n := 1) (by decide) State.fld_lt
  have hstat : (s.bump Reg.SEC_CNT Fld.SEC_CNT_ZEROIZES).fld Reg.SEC_STAT Fld.SEC_STAT_CO_SESSION = s.fld Reg.SEC_STAT Fld.SEC_STAT_CO_SESSION :=
    keepsRegs_fld (P := fun k => k ≠ Reg.SEC_CNT.key) (keepsRegs_bump fun h => h rfl) (by decide)
  unfold State.zeroCounted
  generalize s.bump Reg.SEC_CNT Fld.SEC_CNT_ZEROIZES = v at hframe hcnt hstat ⊢
  refine ⟨(State.fld_setFld_of_disjoint (by decide)).trans hstat, ?_, ?_, (State.fld_setFld_ne (by decide)).trans hcnt⟩
  · rw [State.setFld_sec, hframe]
  · rw [State.setFld_ctxs, hframe]

theorem debugOpened_spec : s.debugOpened.flag Reg.SEC_STAT Fld.SEC_STAT_DEBUG_OPEN = true ∧ s.debugOpened.flag Reg.SEC_STAT Fld.SEC_STAT_APPROVED = false ∧
    s.debugOpened.fld Reg.SEC_STAT Fld.SEC_STAT_CO_SESSION = s.fld Reg.SEC_STAT Fld.SEC_STAT_CO_SESSION ∧ s.debugOpened.sec = s.sec ∧
    s.debugOpened.ctxs = s.ctxs ∧ s.debugOpened.fld Reg.SEC_CNT Fld.SEC_CNT_ZEROIZES = s.fld Reg.SEC_CNT Fld.SEC_CNT_ZEROIZES := by
  unfold State.debugOpened
  refine ⟨?_, State.flag_setFlag_self (by decide) rfl, ?_, ?_, ?_, ?_⟩
  · rw [State.flag, State.setFlag, State.fld_setFld_of_disjoint (by decide)]
    exact State.flag_setFlag_self (by decide) rfl
  · rw [State.setFlag, State.fld_setFld_of_disjoint (by decide), State.setFlag, State.fld_setFld_of_disjoint (by decide)]
  · rw [State.setFlag_sec, State.setFlag_sec]
  · rw [State.setFlag_ctxs, State.setFlag_ctxs]
  · rw [State.setFlag, State.fld_setFld_ne (by decide), State.setFlag, State.fld_setFld_ne (by decide)]

/-- The keys and the device key pair that a zeroisation makes anew. -/
theorem rekeyed_spec {ps : List Nat} : ((s.freshTables.freshKeys ps).newDevKey).ctxs = [] ∧
    ((s.freshTables.freshKeys ps).newDevKey).sec.devKey = s.sec.devKey + 1 ∧
    ((s.freshTables.freshKeys ps).newDevKey).sec.sessEnd = s.sec.sessEnd ∧ ((s.freshTables.freshKeys ps).newDevKey).sec.zeroDebug = s.sec.zeroDebug ∧
    (∀ q n, n ≤ s.sec.nextKey → n ≤ s.keyOf q → n ≤ ((s.freshTables.freshKeys ps).newDevKey).keyOf q) ∧
    ((s.freshTables.freshKeys ps).newDevKey).reg Reg.SEC_CNT = s.reg Reg.SEC_CNT ∧
    ((s.freshTables.freshKeys ps).newDevKey).reg Reg.SEC_STAT = s.reg Reg.SEC_STAT := by
  have htables : s.freshTables.sec = s.sec ∧ s.freshTables.ctxs = [] ∧ s.freshTables.regs = s.regs := ⟨rfl, rfl, rfl⟩
  obtain ⟨htsec, htctxs, htregs⟩ := htables
  generalize s.freshTables = v at htsec htctxs htregs
  obtain ⟨-, hkeys, hsec, hframe, hcnt, hstat⟩ := newKeys_freshKeys (s := v) (ps := ps)
  generalize v.freshKeys ps = w at hkeys hsec hframe hcnt hstat
  obtain ⟨dsec, dctxs, dcnt, dstat⟩ := newDevKey_spec (s := w)
  have hctxs : w.ctxs = v.ctxs := by rw [hframe]
  generalize w.newDevKey = x at dsec dctxs dcnt dstat
  refine ⟨dctxs.trans (hctxs.trans htctxs), ?_, ?_, ?_, fun q n hnext hn => ?_, dcnt.trans (hcnt.trans (reg_of_regs htregs)),
    dstat.trans (hstat.trans (reg_of_regs htregs))⟩
  · rw [dsec, hsec, htsec]
  · rw [dsec, hsec, htsec]
  · rw [dsec, hsec, htsec]
  · have hx : x.keyOf q = w.keyOf q := by rw [State.keyOf, State.keyOf, dsec]
    rw [hx]
    rcases hkeys q with hq | hq
    · rw [hq, State.keyOf, htsec]
      exact hn
    · rw [htsec] at hq
      exact hnext.trans hq

/-- What the end of a zeroisation that an accepted token asked for leaves. -/
theorem zeroRekey_spec (hdebug : s.sec.zeroDebug = true) : s.zeroRekey.flag Reg.SEC_STAT Fld.SEC_STAT_DEBUG_OPEN = true ∧
    s.zeroRekey.flag Reg.SEC_STAT Fld.SEC_STAT_APPROVED = false ∧
    s.zeroRekey.fld Reg.SEC_STAT Fld.SEC_STAT_CO_SESSION = s.fld Reg.SEC_STAT Fld.SEC_STAT_CO_SESSION ∧
    s.zeroRekey.sec.zeroing = false ∧ s.zeroRekey.sec.sessEnd = s.sec.sessEnd ∧ s.zeroRekey.ctxs = [] ∧
    s.zeroRekey.sec.devKey = s.sec.devKey + 1 ∧
    s.zeroRekey.fld Reg.SEC_CNT Fld.SEC_CNT_ZEROIZES = min (s.fld Reg.SEC_CNT Fld.SEC_CNT_ZEROIZES + 1) 65535 ∧
    ∀ q n, n ≤ s.sec.nextKey → n ≤ s.keyOf q → n ≤ s.zeroRekey.keyOf q := by
  rw [zeroRekey_eq]
  obtain ⟨hctxs, hdev, hsess, hdbg, hkeys, hcnt, hstat⟩ := rekeyed_spec (s := s) (ps := s.parts_)
  generalize ((s.freshTables.freshKeys s.parts_).newDevKey) = v at hctxs hdev hsess hdbg hkeys hcnt hstat ⊢
  obtain ⟨cstat, csec, cctxs, ccnt⟩ := zeroCounted_spec (s := v)
  generalize v.zeroCounted = w at cstat csec cctxs ccnt ⊢
  rw [if_pos (show w.sec.zeroDebug = true by rw [csec, hdbg, hdebug])]
  obtain ⟨oopen, oappr, ostat, osec, octxs, ocnt⟩ := debugOpened_spec (s := w)
  generalize w.debugOpened = x at oopen oappr ostat osec octxs ocnt ⊢
  have hxsec : x.sec = v.sec := osec.trans csec
  obtain ⟨yregs, yctxs, ysec⟩ := zeroOver_names (s := x)
  generalize x.zeroOver = y at yregs yctxs ysec ⊢
  have yfld (r : RegRef) (f : Field) : y.fld r f = x.fld r f := State.fld_of_regs yregs
  refine ⟨by rw [State.flag, yfld]; exact oopen, by rw [State.flag, yfld]; exact oappr, by rw [yfld, ostat, cstat, fld_of_reg hstat], ?_, ?_,
    by rw [yctxs, octxs, cctxs, hctxs], ?_, by rw [yfld, ocnt, ccnt, fld_of_reg hcnt], fun q n hnext hn => ?_⟩
  · rw [ysec]
  · rw [ysec, hxsec, hsess]
  · rw [ysec, hxsec, hdev]
  · have hy : y.keyOf q = v.keyOf q := by rw [State.keyOf, State.keyOf, ysec, hxsec]
    rw [hy]
    exact hkeys q n hnext hn

/-! ## DEBUG_UNLOCK (R536) -/

/-- The zeroisation begins, and debug opens at its end. -/
def State.debugAwaited (s : State) : State := { s.zeroBegin with sec := { s.zeroBegin.sec with zeroDebug := true } }

theorem debugAwaited_frame : s.debugAwaited = { s with regs := s.debugAwaited.regs, sec := s.debugAwaited.sec, places := s.debugAwaited.places } := by
  obtain ⟨-, -, -, -, -, hframe, -⟩ := zeroBegin_spec (s := s)
  unfold State.debugAwaited
  generalize s.zeroBegin = v at hframe ⊢
  rw [hframe]

theorem debugAwaited_places (hnone : s.present = []) : s.debugAwaited.places = s.places := by
  have hp : s.debugAwaited.places = s.zeroBegin.places := rfl
  rw [hp, zeroBegin_eq, hnone]
  show s.keysGone.phaseOne.places = _
  rw [phaseOne_frame, keysGone_places]

theorem zeroDebugRun_of_empty (hz : s.sec.zeroing = true) (hnone : s.present = []) (hops : ∀ o ∈ s.longOps, ∀ r, o.pkt ≠ .zeroize r) :
    s.zeroDebugRun = s.zeroEmpty.zeroScrub.zeroRekey := by
  have hcarried : (s.longOps.any fun o => match o.pkt with
      | .zeroize .. => true
      | _ => false) = false := by
    rw [List.any_eq_false]
    intro o ho
    split
    next r heq => exact absurd heq (hops o ho _)
    next => exact Bool.false_ne_true
  unfold State.zeroDebugRun
  dsimp only
  rw [hz, hnone]
  exact if_pos (by rw [Bool.true_and, List.isEmpty_nil, Bool.true_and, Bool.not_eq_true']; exact hcarried)

theorem exec_debugUnlock (hz : s.sec.zeroing = false) (hnone : s.present = []) (hops : ∀ o ∈ s.longOps, ∀ r, o.pkt ≠ .zeroize r) :
    exec (.debugUnlock true) s = .next s.debugAwaited.zeroEmpty.zeroScrub.zeroRekey := by
  have hpresent : s.debugAwaited.present = [] := (present_of_places (debugAwaited_places hnone)).trans hnone
  have hlong : s.debugAwaited.longOps = s.longOps := by rw [debugAwaited_frame]
  have hzeroing : s.debugAwaited.sec.zeroing = true := by
    show s.zeroBegin.sec.zeroing = true
    rw [zeroBegin_spec.1]
    exact keysGone_spec.1
  have hrun := zeroDebugRun_of_empty hzeroing hpresent (by rw [hlong]; exact hops)
  show execDebugUnlock true s = _
  unfold execDebugUnlock
  dsimp only
  rw [hz]
  show Host.Outcome.next (State.zeroDebugRun (s.debugAwaited.each s.debugAwaited.present fun s l => if (s.place l).step.isNone then s.cairn l else s)) = _
  rw [hpresent]
  exact congrArg Host.Outcome.next hrun

theorem debugAwaited_spec : s.debugAwaited.sec.sessEnd = none ∧ s.debugAwaited.sec.devKey = s.sec.devKey ∧ s.debugAwaited.sec.zeroDebug = true ∧
    s.sec.nextKey ≤ s.debugAwaited.sec.nextKey ∧ (∀ q, q < 64 → s.partExists q = true → s.sec.nextKey ≤ s.debugAwaited.keyOf q) ∧
    s.debugAwaited.fld Reg.SEC_CNT Fld.SEC_CNT_ZEROIZES = s.fld Reg.SEC_CNT Fld.SEC_CNT_ZEROIZES ∧
    s.debugAwaited.fld Reg.SEC_STAT Fld.SEC_STAT_CO_SESSION ≠ 1 := by
  obtain ⟨hsec, hsession, -, hkeys, -, -, hregs⟩ := zeroBegin_spec (s := s)
  obtain ⟨-, gsess, gnext, gdev, gkeys, -⟩ := keysGone_spec (s := s)
  have hcnt : s.zeroBegin.fld Reg.SEC_CNT Fld.SEC_CNT_ZEROIZES = s.fld Reg.SEC_CNT Fld.SEC_CNT_ZEROIZES := keepsRegs_fld hregs (by decide)
  unfold State.debugAwaited
  generalize s.zeroBegin = v at hsec hsession hkeys hcnt ⊢
  refine ⟨?_, ?_, rfl, ?_, fun q h64 hex => ?_, hcnt, fun he => ?_⟩
  · show v.sec.sessEnd = none
    rw [hsec, gsess]
  · show v.sec.devKey = _
    rw [hsec, gdev]
  · show _ ≤ v.sec.nextKey
    rw [hsec]
    exact gnext
  · show _ ≤ v.keyOf q
    rw [hkeys]
    exact gkeys q h64 hex
  · have hone : v.fld Reg.SEC_STAT Fld.SEC_STAT_CO_SESSION = 1 := he
    rw [State.flag, hone] at hsession
    exact absurd hsession (by decide)

end Sys2Proof.Machine

namespace Sys2Proof
open Machine

/-- Settles O35: KEY_LOAD and OPEN_SESSION by the fields that they write, KEY_RETIRE by what closing contexts keeps of the boundary, ZEROIZE by its first
phase. -/
theorem keysAreLoadedRetiredAndZeroized : Obligations.KeysAreLoadedRetiredAndZeroized := by
  unfold Obligations.KeysAreLoadedRetiredAndZeroized
  refine ⟨?_, ?_, ?_, ?_⟩
  · intro s h part keyVa sigOk b p bs hb hp ht h64 hex hread htime herr hblob
    subst hp
    have hexec : exec (.keyLoad h part 0 keyVa 288 0 sigOk false) s = .next (b.svcKeyLoad h part 0 keyVa 288 0 sigOk false) := by
      rw [exec_served rfl ht fun u hu => serve_keyLoad hu, ← hb]
    rw [svcKeyLoad_eq (.inr ⟨h64, hex⟩) hread htime herr hblob] at hexec
    refine ⟨fun hsig hctr hholds => ⟨b.keyLoaded part.toNat (numAt bs 8 8), ?_, keyLoaded_spec⟩, fun hbad => ⟨b.authFail, ?_, ?_⟩⟩
    · rw [hexec, if_neg (by simp [hsig, hctr]), if_neg (by simp [hholds]), if_neg (by omega)]
    · rw [hexec, if_pos]
      rcases hbad with hsig | hctr
      · rw [hsig]
        rfl
      · rw [decide_eq_true hctr, Bool.or_true]
    · obtain ⟨hsec, hframe, hregs⟩ := authFail_spec (s := b)
      have hcnt : (b.bump Reg.SEC_CNT Fld.SEC_CNT_AUTH_FAIL).fld Reg.SEC_CNT Fld.SEC_CNT_AUTH_FAIL =
          min (b.fld Reg.SEC_CNT Fld.SEC_CNT_AUTH_FAIL + 1) 65535 :=
        fld_bumpBy (s := b) (r := Reg.SEC_CNT) (f := Fld.SEC_CNT_AUTH_FAIL) (n := 1) (by decide) State.fld_lt
      refine ⟨?_, (State.fld_of_regs hregs).trans hcnt, fun hlt => ?_, fun hge => ?_, hframe,
        fieldsBut_trans (fieldsBut_bump (by simp)) (fieldsBut_of_regs hregs)⟩
      · rw [hsec]
        split <;> rfl
      · rw [hsec, if_neg (by omega)]
      · rw [hsec, if_pos (by omega)]
  · intro s h keyVa b bs hb ht hread htime herr hblob hctr
    have hexec : exec (.openSession h 0 keyVa 288 0 true) s = .next (b.svcKeyLoad h 0xFF 0 keyVa 288 0 true false) := by
      rw [exec_served rfl ht fun u hu => serve_keyLoad hu, ← hb]
    have hall : BitVec.toNat (0xFF : BitVec 8) = 0xFF := rfl
    rw [svcKeyLoad_eq (part := 0xFF) (.inl rfl) hread htime herr hblob, if_neg (by simp [hctr]), if_neg (by simp), if_pos hall] at hexec
    have hkept := ctrKept_frame (s := b) (ctr := numAt bs 8 8)
    have htimeout : (b.ctrKept (numAt bs 8 8)).coTimeout = b.coTimeout := by rw [State.coTimeout, State.coTimeout, ctrKept_fld (by decide)]
    have hfields := ctrKept_fields (s := b) (ctr := numAt bs 8 8) (l := [(Reg.SEC_CO_CTR, wholeReg), (Reg.SEC_STAT, Fld.SEC_STAT_CO_SESSION),
      (Reg.SEC_STAT, Fld.SEC_STAT_CO_LEFT)]) (by simp)
    refine ⟨(b.ctrKept (numAt bs 8 8)).openSess, hexec, ?_⟩
    generalize b.ctrKept (numAt bs 8 8) = v at hkept htimeout hfields ⊢
    obtain ⟨hflag, hleft⟩ := openSess_stat (s := v)
    have hframe := openSess_frame (s := v)
    have hall := fieldsBut_trans hfields (openSess_fields (s := v) (by simp) (by simp))
    generalize v.openSess = w at hflag hleft hframe hall ⊢
    refine ⟨hflag, hleft.trans htimeout, ?_, ?_, ?_, hall⟩
    · rw [hframe, htimeout, hkept]
    · rw [hframe, hkept]
    · rw [hframe, hkept]
  · intro s h part b p hb hp ht h64 hex hco herr hz hnew
    have hexec : exec (.keyRetire h part 0) s = .next (b.svcKeyRetire h part 0) := by
      rw [exec_served rfl ht fun u hu => serve_keyRetire hu, ← hb]
    obtain ⟨hkey, hothers, hsrc, hgen, hzero, hexists⟩ := retired_key (s := b.awaits h p) h64 hex
    have hends (hnone : b.placesOf p = []) : exec (.keyRetire h part 0) s =
        .next ((((b.awaits h p).retired p).freshKey p 0).reply h 0x71 stOK 0 0) := by
      rw [hexec, svcKeyRetire_ends hp.symm h64 hex hco herr hz hnew hnone (hzero.trans hz)]
    refine ⟨fun hp0 hnone => ⟨_, hends hnone, hkey, hothers, hsrc, hgen, fun i hi => ?_, fun m hm => ?_, ?_, hexists hp0⟩, ?_, fun hsome hbusy => ?_⟩
    · rw [ctx_freshKey, State.retired, if_neg hp0]
      exact emptied_ctx i hi
    · rw [model_freshKey, State.retired, if_neg hp0] at hm ⊢
      exact emptied_model (by omega) hm
    · rw [part_freshKey, State.retired, if_neg hp0]
      exact emptied_part
    · rintro rfl hnone
      refine ⟨_, hends hnone, ?_, hkey, hothers, hsrc, hgen, ?_⟩
      · show ((b.awaits h 0).retired 0).ctxs = []
        rw [State.retired, if_pos rfl]
        exact tablesFresh_ctxs
      · rw [part_freshKey, State.retired, if_pos rfl]
        exact tablesFresh_part emptied_part
    · refine ⟨(b.awaits h p).marked (b.placesOf p), ?_, ?_, fun l hl => ?_, ?_⟩
      · rw [hexec, svcKeyRetire_waits hp.symm h64 hex hco herr hz hnew hsome hbusy]
      · rw [marked_frame]
        rfl
      · rw [marked_place, if_pos hl]
        rfl
      · have hm := marked_frame (s := b.awaits h p) (ls := b.placesOf p)
        generalize (b.awaits h p).marked (b.placesOf p) = v at hm ⊢
        rw [hm]
        rfl
  · intro s h b hb ht hz
    refine startsLong_of_begun (act := fun _ s => if s.sec.zeroing then s else s.zeroBegin) hb ht ?_ fun u hu => ?_
    · rw [exec_served rfl ht fun u hu => serve_zeroize hu, ← hb, svcZeroize_eq]
    obtain ⟨hbegins, hframe, hfields⟩ := hu
    have huz : ¬u.sec.zeroing = true := by
      rw [hframe]
      exact Bool.eq_false_iff.mp hz
    dsimp only
    rw [if_neg huz]
    have hnext : u.sec.nextKey = b.sec.nextKey := by rw [hframe]
    have hplaces : u.places = b.places := by rw [hframe]
    have hexists (q : Nat) (h64 : q < 64) : u.partExists q = b.partExists q := by
      rw [State.partExists, State.partExists, State.flag, State.flag, hfields (Reg.SEC_PART q) Fld.SEC_PART_EXISTS]
      intro x hx he
      rw [List.mem_singleton.mp hx] at he
      exact absurd he (fnStat_ne_secPart h64)
    obtain ⟨gzero, gsess, -, -, gkeys, -⟩ := keysGone_spec (s := u)
    obtain ⟨zsec, zflag, zphase, zkeys, zplaces, zframe, -⟩ := zeroBegin_spec (s := u)
    refine ⟨longBegins_of_longKept hbegins zeroBegin_longKept, ?_, ?_, zflag, zphase, fun q h64 hex => ?_, fun l hl => ?_, ?_⟩
    · rw [zsec, gzero]
    · rw [zsec, gsess]
    · rw [zkeys, ← hnext]
      exact gkeys q h64 (by rw [hexists q h64, hex])
    · rw [zplaces l (by rw [present_of_places hplaces]; exact hl), State.place, hplaces]
      rfl
    · generalize u.zeroBegin = w at zframe ⊢
      rw [zframe, hframe]

/-- Settles O36: the error state and the session by the fields that they write, DEBUG_UNLOCK by what each phase of the zeroisation keeps of the
boundary. -/
theorem theBoundaryFailsAndOpensByRule : Obligations.TheBoundaryFailsAndOpensByRule := by
  unfold Obligations.TheBoundaryFailsAndOpensByRule
  refine ⟨?_, ?_, ?_⟩
  · intro s cause h1 h4
    obtain ⟨herror, hcause, happr⟩ := erring_stat (s := s) h4
    have hframe := erring_frame (s := s) (cause := cause)
    have hfields := erring_fields (s := s) (cause := cause)
    refine ⟨s.enterError cause 2, if_pos (by rw [decide_eq_true h1, decide_eq_true h4]; rfl), ?_⟩
    rw [enterError_eq]
    generalize s.erring cause = v at herror hcause happr hframe hfields ⊢
    have hregs : (v.fault 0x0704 2 3 cause (leBytes 1 2)).regs = v.regs := by rw [fault_frame]
    have hlast := fault_last (s := v) (code := 0x0704) (level := 2) (source := 3) (object := cause) (data := leBytes 1 2)
    have hff := fault_frame (s := v) (code := 0x0704) (level := 2) (source := 3) (object := cause) (data := leBytes 1 2)
    generalize v.fault 0x0704 2 3 cause (leBytes 1 2) = w at hregs hlast hff ⊢
    refine ⟨?_, by rw [State.fld_of_regs hregs, hcause], ?_, ?_, ?_, fieldsBut_trans hfields (fieldsBut_of_regs hregs)⟩
    · rw [State.flag, State.fld_of_regs hregs]
      exact herror
    · rw [State.flag, State.fld_of_regs hregs]
      exact happr
    · rw [hlast, hframe]
    · rw [hff, hframe]
  · intro s at_ e he
    have htick := tick_frame (s := s) (n := at_)
    have hsess : (s.tick at_).sec.sessEnd = some e := by rw [htick]; exact he
    have hnow : (s.tick at_).now = max s.now at_ := State.tick_now
    have hexec : exec (.coSessionTimeout at_) s = execCoSessionTimeout at_ s := rfl
    rw [hexec, execCoSessionTimeout]
    dsimp only
    rw [hsess]
    dsimp only
    refine ⟨fun hle => ⟨(s.tick at_).sessionOver, congrArg Host.Outcome.next (if_pos (by rw [hnow]; exact hle)), ?_⟩, fun hlt => ?_⟩
    · obtain ⟨osec, oflag, oleft, oframe, ofields⟩ := sessionOver_spec (s := s.tick at_)
      have hsec : (s.tick at_).sec = s.sec := by rw [htick]
      exact ⟨by rw [osec, hsec], oflag, oleft, oframe, fieldsBut_trans (fieldsBut_of_regs (by rw [htick])) ofields⟩
    · rw [if_neg (by rw [hnow]; omega)]
  · intro s
    refine ⟨⟨s.bump Reg.SEC_CNT Fld.SEC_CNT_AUTH_FAIL, rfl, bump_frame, fieldsBut_bump (by simp),
      fld_bumpBy (s := s) (r := Reg.SEC_CNT) (f := Fld.SEC_CNT_AUTH_FAIL) (n := 1) (by decide) State.fld_lt⟩, fun hz hnone hops => ?_⟩
    obtain ⟨hsess, hdev, hdebug, hnext, hkeys, hcnt, hsession⟩ := debugAwaited_spec (s := s)
    refine ⟨_, exec_debugUnlock hz hnone hops, ?_⟩
    generalize s.debugAwaited = g at hsess hdev hdebug hnext hkeys hcnt hsession ⊢
    obtain ⟨wsec, wcnt, wstat⟩ := sameBoundary_trans (sameBoundary_zeroEmpty (s := g)) sameBoundary_zeroScrub
    generalize g.zeroEmpty.zeroScrub = w at wsec wcnt wstat ⊢
    obtain ⟨ropen, rappr, rstat, rzero, rsess, rctxs, rdev, rcnt, rkeys⟩ := zeroRekey_spec (s := w) (by rw [wsec]; exact hdebug)
    refine ⟨ropen, rappr, ?_, rzero, by rw [rsess, wsec, hsess], rctxs, by rw [rdev, wsec, hdev], by rw [rcnt, wcnt, hcnt], fun q h64 hex => ?_⟩
    · rw [State.flag, rstat, wstat]
      exact Bool.eq_false_iff.mpr fun he => hsession (beq_iff_eq.mp he)
    · refine rkeys q _ (by rw [wsec]; exact hnext) ?_
      rw [State.keyOf, wsec]
      exact hkeys q h64 hex

end Sys2Proof

end

section
/-! PROOFS. Fences of placements that a module's loss or its takeover names (R380, R384): the walk over the placements that exist goes by the entries of
the table, and a table may list a placement twice, where only its first entry is read. -/

namespace Sys2Proof.Machine

variable {s u : State}

theorem fencePlace_of_absent {l m : Nat} (h : (s.place l).present = false) : s.fencePlace l m = s := by
  unfold State.fencePlace
  rw [h]
  rfl

/-- A HEARTBEAT without TAKEOVER leaves the state so. -/
def State.beatTaken (s : State) (path state ackSeq : Nat) : State :=
  { s with twin := { s.twin with
      lastBeat := s.now, peerState := state % 8, peerAck := ackSeq, pathAt := tset 0 s.twin.pathAt path (s.now + 1) } }.countPaths

theorem exec_heartbeat_takeover {path state ackSeq at_ : Nat} {v : State} (hpath : path < 3) (htwin : (s.tick at_).twinSt ≠ 0)
    (hv : v = (s.tick at_).beatTaken path state ackSeq) : exec (.heartbeat path state true ackSeq at_) s =
      .next (v.each (v.present.filter fun l => sliceRep (v.place l).slice) fun s l => s.fencePlace l v.peer) := by
  show execHeartbeat path state true ackSeq at_ s = _
  unfold execHeartbeat
  dsimp only
  generalize s.tick at_ = b at htwin hv ⊢
  rw [decide_eq_true hpath, if_neg htwin, hv, State.beatTaken]
  rfl

theorem exec_probeLoss {k at_ : Nat} (hseen : tget 0 (s.tick at_).fabric.probeAt k ≠ 0) (hlost : (s.tick at_).fabric.lost.contains k = false)
    (hdue : tget 0 (s.tick at_).fabric.probeAt k - 1 + 100000 * max 1 ((s.tick at_).fld Reg.LNK_CFG Fld.LNK_CFG_PROBE_LOSS) ≤ (s.tick at_).now) :
    exec (.probeLoss k at_) s = .next ((s.tick at_).moduleLost k) := by
  show Host.Outcome.next _ = _
  dsimp only
  rw [if_pos]
  rw [hlost, decide_eq_true hseen, decide_eq_true hdue]
  rfl

/-- Where all the placements that name a lost module are absent and no chain is open, none is fenced. -/
theorem moduleLost_of_absent {m l : Nat} (habsent : ∀ k ∈ s.slicesWith m, (s.place k).present = false) (hchains : s.fabric.chains = []) :
    (s.moduleLost m).place l = s.place l := by
  unfold State.moduleLost
  dsimp only
  generalize hv : ({ s with fabric := _ } : State) = v
  have hplace : ∀ k, v.place k = s.place k := fun k => by rw [← hv]; rfl
  have hslices : v.slicesWith m = s.slicesWith m := by rw [← hv]; rfl
  have hnothing : v.each (v.slicesWith m) (fun s l => s.fencePlace l m) = v := each_eq_self fun k hk => fencePlace_of_absent (by
    rw [hplace]
    exact habsent k (hslices ▸ hk))
  rw [hnothing]
  have hnone : v.fabric.chains = [] := by rw [← hv]; exact hchains
  rw [hnone]
  exact hplace l

/-! ## The counterexample -/

/-- A module, paired with its twin, whose table lists placement 0 twice: its first entry has a slice that is replicated and names module 3, and is
absent; the second one is present. Module 3 has not answered since the first PROBE to it. -/
def twiceListed : State :=
  { State.reset with
    now := 1000000
    places := [(0, { present := false, slice := [2, 0, 3, 0] }), (0, { present := true })]
    fabric := { probeAt := [(3, 1)] } }.setFld Reg.TWN_STAT Fld.TWN_STAT_STATE 2

/-- The premises of both statements hold of placement 0, which is not fenced. -/
theorem twiceListed_premises : (twiceListed.tick 0).twinSt = 2 ∧ 0 ∈ (twiceListed.tick 0).slicesWith 3 ∧ 0 ∈ (twiceListed.tick 0).present ∧
    sliceRep ((twiceListed.tick 0).place 0).slice = true ∧ ((twiceListed.tick 0).place 0).change = none ∧
    ((twiceListed.tick 0).place 0).removing = false ∧ ((twiceListed.tick 0).place 0).fenced = false := by decide +kernel

theorem twiceListed_absent : ∀ k ∈ (twiceListed.tick 0).present, ((twiceListed.tick 0).place k).present = false := by decide +kernel

theorem twiceListed_probe : tget 0 (twiceListed.tick 0).fabric.probeAt 3 ≠ 0 ∧ (twiceListed.tick 0).fabric.lost.contains 3 = false ∧
    tget 0 (twiceListed.tick 0).fabric.probeAt 3 - 1 + 100000 * max 1 ((twiceListed.tick 0).fld Reg.LNK_CFG Fld.LNK_CFG_PROBE_LOSS) ≤
      (twiceListed.tick 0).now := by decide +kernel

theorem exec_twiceListed_heartbeat : ∃ t, exec (.heartbeat 0 0 true 0 0) twiceListed = .next t ∧ (t.place 0).fenced = false := by
  obtain ⟨htwin, -, -, -, -, -, hfenced⟩ := twiceListed_premises
  have hstate : (twiceListed.tick 0).twinSt ≠ 0 := by rw [htwin]; decide
  refine ⟨_, exec_heartbeat_takeover (by decide) hstate rfl, ?_⟩
  have habsent := twiceListed_absent
  generalize twiceListed.tick 0 = b at habsent hfenced
  have hplace : ∀ k, (b.beatTaken 0 0 0).place k = b.place k := fun k => State.setFld_place_acc
  have hpresent : (b.beatTaken 0 0 0).present = b.present := rfl
  generalize b.beatTaken 0 0 0 = v at hplace hpresent ⊢
  have hnothing : v.each (v.present.filter fun l => sliceRep (v.place l).slice) (fun s l => s.fencePlace l v.peer) = v :=
    each_eq_self fun k hk => fencePlace_of_absent (by
      rw [hplace]
      exact habsent k (hpresent ▸ (List.mem_filter.mp hk).1))
  rw [hnothing, hplace]
  exact hfenced

theorem exec_twiceListed_probeLoss : ∃ t, exec (.probeLoss 3 0) twiceListed = .next t ∧ (t.place 0).fenced = false := by
  obtain ⟨-, -, -, -, -, -, hfenced⟩ := twiceListed_premises
  obtain ⟨hseen, hlost, hdue⟩ := twiceListed_probe
  refine ⟨_, exec_probeLoss hseen hlost hdue, ?_⟩
  rw [moduleLost_of_absent (fun k hk => twiceListed_absent k (List.mem_filter.mp hk).1) rfl]
  exact hfenced

end Sys2Proof.Machine

namespace Sys2Proof
open Machine

/-- Refutes O51: a placement that the table lists twice, first as absent and then as present, counts among those that name a lost module, and is not
fenced, since only its first entry is read. -/
theorem not_framesRequestsAndTimeRecordsFollow : ¬ Obligations.FramesRequestsAndTimeRecordsFollow := by
  unfold Obligations.FramesRequestsAndTimeRecordsFollow
  rintro ⟨-, -, -, -, hloss, -⟩
  obtain ⟨-, hslice, -, -, hchange, hremoving, -⟩ := twiceListed_premises
  obtain ⟨hseen, hlost, hdue⟩ := twiceListed_probe
  obtain ⟨u, hu, -, hfences⟩ := (hloss twiceListed 3 0 _ _ rfl rfl).2 hseen hlost hdue
  obtain ⟨t, ht, hfenced⟩ := exec_twiceListed_probeLoss
  obtain rfl := Host.Outcome.next.inj (ht.symm.trans hu)
  exact absurd (hfences 0 hslice hchange hremoving) (by rw [hfenced]; decide)

/-- Refutes O54: a HEARTBEAT with TAKEOVER does not fence a replicated placement that the table lists twice, first as absent and then as present,
since only its first entry is read. -/
theorem not_theTwinIsWatchedAndTakenOver : ¬ Obligations.TheTwinIsWatchedAndTakenOver := by
  unfold Obligations.TheTwinIsWatchedAndTakenOver
  rintro ⟨hbeat, -⟩
  obtain ⟨htwin, -, hpresent, hrep, hchange, hremoving, -⟩ := twiceListed_premises
  obtain ⟨u, hu, hfences⟩ := (hbeat twiceListed 0 0 0 0 _ rfl (by decide)).2.2 (by rw [htwin]; decide)
  obtain ⟨t, ht, hfenced⟩ := exec_twiceListed_heartbeat
  obtain rfl := Host.Outcome.next.inj (ht.symm.trans hu)
  exact absurd (hfences 0 hpresent hrep hchange hremoving) (by rw [hfenced]; decide)

end Sys2Proof
end

section
/-! PROOFS. What work on contexts, rings and placements leaves alone (R226, R380, R381). A step that is abandoned, a cairn and what waits for it
run through half of the machine; of all this the start-up, the power, the thermal control, flash and the state of the ports know nothing, and a
placement with no setting due keeps its settings and stays fenced. The relation `Calm` says so once for all these operations. -/

namespace Sys2Proof.Machine

/-! ## The relation -/

/-- No PLACE, unload or zeroisation is about to change the placement. -/
def Place.settled (x : Place) : Prop := x.change = none ∧ x.removing = false

/-- A settled placement stays so with its settings; it stays fenced, becomes fenced only where `fences` holds, and begins no step. -/
structure Place.staysAs (fences : Prop) (x y : Place) : Prop where
  settled : y.settled
  present : y.present = x.present
  cfg : y.cfg = x.cfg
  part : y.part = x.part
  stats : y.stats = x.stats
  fenced : x.fenced = true → y.fenced = true
  unfenced : ¬fences → y.fenced = x.fenced
  idle : x.step = none → y.step = none

/-- The fields that tell of the start-up and of the state of a port. -/
def calmFld (r : RegRef) (f : Field) : Prop := r = Reg.CLK_START ∨ ∃ n, n < 24 ∧ r = Reg.LNK_PORT_STAT n ∧ f.lo + f.w ≤ 10

/-- The parts of a state that the work leaves alone whole. -/
def State.aloof (s : State) : Nat × Flash × Hkc × Therm × Power := (s.now, s.flash, s.hkc, s.therm, s.power)

/-- No unit of memory reads as uncorrectable. -/
def State.unpoisoned (s : State) : Prop := s.mem.poison = []

/-- State t as such work leaves state s. -/
structure Calm (fences : Prop) (s t : State) : Prop where
  flds : ∀ r f, calmFld r f → t.fld r f = s.fld r f
  aloof : t.aloof = s.aloof
  lost : ∀ m ∈ s.fabric.lost, m ∈ t.fabric.lost
  port : ∀ n, (t.port n).downAt = (s.port n).downAt ∧ (t.port n).rxMsgs = (s.port n).rxMsgs
  place : ∀ l, (s.place l).settled → (s.place l).staysAs fences (t.place l)
  sound : s.unpoisoned → t.unpoisoned

variable {F : Prop} {s t u : State}

theorem staysAs_refl {x : Place} (h : x.settled) : x.staysAs F x := ⟨h, rfl, rfl, rfl, rfl, id, fun _ => rfl, id⟩

theorem staysAs_trans {x y z : Place} (h : x.staysAs F y) (k : y.staysAs F z) : x.staysAs F z :=
  ⟨k.settled, k.present.trans h.present, k.cfg.trans h.cfg, k.part.trans h.part, k.stats.trans h.stats, fun hf => k.fenced (h.fenced hf),
    fun hn => (k.unfenced hn).trans (h.unfenced hn), fun hi => k.idle (h.idle hi)⟩

theorem calm_refl : Calm F s s := ⟨fun _ _ _ => rfl, rfl, fun _ => id, fun _ => ⟨rfl, rfl⟩, fun _ => staysAs_refl, id⟩

theorem calm_trans (h : Calm F s t) (k : Calm F t u) : Calm F s u where
  flds r f hf := (k.flds r f hf).trans (h.flds r f hf)
  aloof := k.aloof.trans h.aloof
  lost m hm := k.lost m (h.lost m hm)
  port n := ⟨(k.port n).1.trans (h.port n).1, (k.port n).2.trans (h.port n).2⟩
  place l hl := staysAs_trans (h.place l hl) (k.place l (h.place l hl).settled)
  sound hs := k.sound (h.sound hs)

/-- Work that fences no placement is work of the other kind too. -/
theorem calm_mono {G : Prop} (hFG : F → G) (h : Calm F s t) : Calm G s t where
  flds := h.flds
  aloof := h.aloof
  lost := h.lost
  port := h.port
  place l hl := by
    obtain ⟨h1, h2, h3, h4, h5, h6, h7, h8⟩ := h.place l hl
    exact ⟨h1, h2, h3, h4, h5, h6, fun hG => h7 fun hF => hG (hFG hF), h8⟩
  sound := h.sound

/-! ## Registers -/

/-- A write of a register's field is apart from the start-up and the ports. -/
def apart (r : RegRef) (f : Field) : Prop := r.key ≠ 0x20020 ∧ ((∀ n, n < 24 → r.key ≠ 0xF1008 + 0x20 * n) ∨ (32 ≤ f.lo ∧ r.dflt = 0))

/-- A register is apart from the start-up and the ports. -/
def apartReg (r : RegRef) : Prop := r.key ≠ 0x20020 ∧ ∀ n, n < 24 → r.key ≠ 0xF1008 + 0x20 * n

theorem apart_of_reg {r : RegRef} {f : Field} (h : apartReg r) : apart r f := ⟨h.1, .inl h.2⟩

theorem key_ne_of_apartReg {r q : RegRef} {g : Field} (h : apartReg r) (hq : calmFld q g) : q.key ≠ r.key := by
  obtain ⟨hstart, hport⟩ := h
  rcases hq with rfl | ⟨n, hn, rfl, -⟩
  · exact Ne.symm hstart
  · exact Ne.symm (hport n hn)

/-- What tells of a port's state reads 0 after reset. -/
theorem portStat_dflt {lo w : Nat} (h : lo + w ≤ 10) : getBits 0x3FFFC00 lo w = getBits 0 lo w := by
  have hall : ∀ l, l < 11 → ∀ v, v < 11 → l + v ≤ 10 → getBits 0x3FFFC00 l v = getBits 0 l v := by decide
  exact hall lo (by omega) w (by omega) h

theorem fld_setFld_apart {r q : RegRef} {f g : Field} {x : Nat} (h : apart r f) (hq : calmFld q g) : (s.setFld r f x).fld q g = s.fld q g := by
  obtain ⟨hstart, hport⟩ := h
  rcases hport with hport | ⟨hlo, hd⟩
  · exact State.fld_setFld_ne (key_ne_of_apartReg ⟨hstart, hport⟩ hq)
  · rcases hq with rfl | ⟨n, hn, rfl, hg⟩
    · exact State.fld_setFld_ne (Ne.symm hstart)
    · refine fld_setFld_count (.inl (by omega)) ?_
      rw [hd]
      exact (portStat_dflt hg).symm

theorem calm_of_regs (hf : ∀ r f, calmFld r f → t.fld r f = s.fld r f) (ht : t = { s with regs := t.regs }) : Calm F s t where
  flds := hf
  aloof := by rw [ht]; rfl
  lost m hm := by rw [ht]; exact hm
  port n := by rw [ht]; exact ⟨rfl, rfl⟩
  place l hl := by rw [ht]; exact staysAs_refl hl
  sound hs := by rw [ht]; exact hs

theorem calm_wrReg {r : RegRef} {v : Word64} (h : apartReg r) : Calm F s (s.wrReg r v) :=
  calm_of_regs (fun _ _ hq => State.fld_wrReg_ne (key_ne_of_apartReg h hq)) rfl

theorem calm_setFld {r : RegRef} {f : Field} {x : Nat} (h : apart r f) : Calm F s (s.setFld r f x) :=
  calm_of_regs (fun _ _ hq => fld_setFld_apart h hq) rfl

theorem calm_bump {r : RegRef} {f : Field} (h : apart r f) : Calm F s (s.bump r f) := by
  rw [State.bump, State.bumpBy]
  split
  · exact calm_refl
  · exact calm_setFld h

theorem apartReg_of_ne {r : RegRef} (h : ∀ n, n < 24 → r.key ≠ 0x20020 ∧ r.key ≠ 0xF1008 + 0x20 * n) : apartReg r :=
  ⟨(h 0 (by omega)).1, fun n hn => (h n hn).2⟩

theorem apartReg_fnStat {p : Nat} : apartReg (Reg.SCH_FN_STAT p) := by
  refine apartReg_of_ne fun n hn => ?_
  simp only [Reg.SCH_FN_STAT]
  rcases Nat.eq_zero_or_pos p with rfl | hp
  · omega
  · have hle : 0x1000000 ≤ 0x1000000 * p := Nat.le_mul_of_pos_right _ hp
    generalize 0x1000000 * p = y at hle ⊢
    omega

theorem apartReg_ringStat {p r : Nat} : apartReg (Reg.SCH_RING_STAT p r) := by
  refine apartReg_of_ne fun n hn => ?_
  simp only [Reg.SCH_RING_STAT]
  rcases Nat.eq_zero_or_pos p with rfl | hp
  · omega
  · have hle : 0x1000000 ≤ 0x1000000 * p := Nat.le_mul_of_pos_right _ hp
    generalize 0x1000000 * p = y at hle ⊢
    omega

theorem apartReg_partCnt {p : Nat} : apartReg (Reg.KVT_PART_CNT p) := by
  refine apartReg_of_ne fun n hn => ?_
  simp only [Reg.KVT_PART_CNT]
  omega

theorem apartReg_freeIdx {p : Nat} : apartReg (Reg.KVT_FREE_IDX p) := by
  refine apartReg_of_ne fun n hn => ?_
  simp only [Reg.KVT_FREE_IDX]
  omega

/-- The head of a reservoir may stand beside the state of a port, but not in it. -/
theorem apart_resHead {p : Nat} : apart (Reg.KVT_RES_IDX p) Fld.KVT_RES_IDX_HEAD := by
  refine ⟨?_, .inr ⟨by decide, rfl⟩⟩
  simp only [Reg.KVT_RES_IDX]
  omega

theorem apartReg_schedCnt {p : Nat} : apartReg (Reg.SCH_PART_CNT p) := by
  refine apartReg_of_ne fun n hn => ?_
  simp only [Reg.SCH_PART_CNT]
  omega

theorem apart_holds {q : Nat} : apart (Reg.SCH_QSTAT q) Fld.SCH_QSTAT_HOLDS := by
  refine ⟨?_, .inr ⟨by decide, rfl⟩⟩
  simp only [Reg.SCH_QSTAT]
  omega

theorem apartReg_fenceBad : apartReg (Reg.LNK_PORT_CNT 0) := by
  refine apartReg_of_ne fun n hn => ?_
  simp only [Reg.LNK_PORT_CNT]
  omega

theorem apartReg_secPart {p : Nat} : apartReg (Reg.SEC_PART p) := by
  refine apartReg_of_ne fun n hn => ?_
  simp only [Reg.SEC_PART]
  omega

theorem apartReg_devPub {i : Nat} : apartReg (Reg.SEC_DEVPUB i) := by
  refine apartReg_of_ne fun n hn => ?_
  simp only [Reg.SEC_DEVPUB]
  omega

/-- Registers of the twin and of the security boundary. -/
theorem apartReg_of_high {r : RegRef} (h : 0x100000 ≤ r.key) : apartReg r := ⟨by omega, fun n hn => by omega⟩

theorem apartReg_cairn {p : Nat} {r : RegRef} (hr : r ∈ cairnRegs p) : apartReg r := by
  simp only [cairnRegs, List.mem_append, List.mem_cons, List.mem_map, List.mem_range, List.not_mem_nil, or_false] at hr
  refine apartReg_of_ne fun n hn => ?_
  rcases hr with (rfl | rfl | rfl | rfl | rfl | rfl) | ⟨i, -, rfl⟩
  · simp only [Reg.KVT_RES_RING]; omega
  · simp only [Reg.KVT_FREE_RING]; omega
  · simp only [Reg.KVT_RES_CFG]; omega
  · simp only [Reg.KVT_SCREE_CFG]; omega
  · simp only [Reg.MMU_ROOT]; omega
  · simp only [Reg.CAB_REPAIR_CFG]; omega
  · simp only [Reg.SEC_WIN]; omega

/-! ## The state's operations -/

/-- The parts of a state that the relation speaks of. -/
def State.spoken (s : State) : Tbl Word64 × (Nat × Flash × Hkc × Therm × Power) × List Nat × Tbl Port × Tbl Place × List Nat :=
  (s.regs, s.aloof, s.fabric.lost, s.ports, s.places, s.mem.poison)

theorem calm_of (h : t.spoken = s.spoken) : Calm F s t := by
  obtain ⟨hregs, haloof, hlost, hports, hplaces, hpoison⟩ : t.regs = s.regs ∧ t.aloof = s.aloof ∧ t.fabric.lost = s.fabric.lost ∧ t.ports = s.ports ∧
      t.places = s.places ∧ t.mem.poison = s.mem.poison := by simpa only [State.spoken, Prod.mk.injEq] using h
  refine ⟨fun _ _ _ => State.fld_of_regs hregs, haloof, fun m hm => hlost ▸ hm, fun n => ?_, fun l hl => ?_, fun hs => hpoison.trans hs⟩
  · have hport : t.port n = s.port n := by rw [State.port, State.port, hports]
    rw [hport]
    exact ⟨rfl, rfl⟩
  · have hplace : t.place l = s.place l := by rw [State.place, State.place, hplaces]
    rw [hplace]
    exact staysAs_refl hl

theorem calm_each {α : Type} {xs : List α} {g : State → α → State} (hg : ∀ (t : State) x, x ∈ xs → Calm F t (g t x)) : Calm F s (s.each xs g) :=
  each_induction (P := Calm F s) calm_refl fun t x hx ht => calm_trans ht (hg t x hx)

/-- A fold that carries something beside the state. -/
theorem calm_foldl_fst {α β : Type} {xs : List α} {g : State × β → α → State × β} {a : State × β} (hg : ∀ a x, Calm F a.1 (g a x).1) :
    Calm F a.1 (xs.foldl g a).1 := by
  induction xs generalizing a with
  | nil => exact calm_refl
  | cons x xs ih => exact calm_trans (hg a x) ih

theorem calm_ite {P : Prop} [Decidable P] {v w : State} (hv : P → Calm F s v) (hw : ¬P → Calm F s w) : Calm F s (if P then v else w) := by
  split
  · exact hv ‹_›
  · exact hw ‹_›

theorem calm_setCtx {i : Nat} {c : Ctx} : Calm F s (s.setCtx i c) := calm_of rfl

theorem calm_setAux {i : Nat} {a : CtxAux} : Calm F s (s.setAux i a) := calm_of rfl

theorem calm_setModel {m : Nat} {x : Model} : Calm F s (s.setModel m x) := calm_of rfl

theorem calm_setPart {p : Nat} {x : Part} : Calm F s (s.setPart p x) := calm_of rfl

theorem calm_setPair {f r : Nat} {x : Pair} : Calm F s (s.setPair f r x) := calm_of rfl

theorem calm_setTile {n : Nat} {x : Tile} : Calm F s (s.setTile n x) := calm_of rfl

theorem calm_setPhy {i : Nat} {x : Phys} : Calm F s (s.setPhy i x) := calm_of rfl

theorem calm_setRing {c r : Nat} {x : Ring} : Calm F s (s.setRing c r x) := calm_of rfl

theorem calm_setLong {o : LongOp} : Calm F s (s.setLong o) := calm_of rfl

/-- Memory may change in any way that taints nothing. -/
theorem calm_mem {m : Mem} (h : s.mem.poison = [] → m.poison = []) : Calm F s { s with mem := m } where
  flds _ _ _ := rfl
  aloof := rfl
  lost _ := id
  port _ := ⟨rfl, rfl⟩
  place _ := staysAs_refl
  sound := h

theorem poison_putAll {m : Mem} {a : Nat} {bs : List Byte} : (m.putAll a bs).poison = m.poison := by
  induction bs generalizing m a with
  | nil => rfl
  | cons b bs ih => exact ih

theorem poison_rekey {m : Mem} {key a n : Nat} : (m.rekey key a n).poison = m.poison := by
  unfold Mem.rekey
  generalize unitsOf a n = us
  induction us generalizing m with
  | nil => rfl
  | cons u us ih =>
    refine ih.trans ?_
    dsimp only
    split <;> rfl

theorem poison_write {m : Mem} {key : Option Nat} {a : Nat} {bs : List Byte} (h : m.poison = []) : (m.write key a bs).poison = [] := by
  have hheal : (m.heal a bs.length).poison = [] := by rw [Mem.heal, h, List.filter_nil]
  unfold Mem.write
  rw [poison_putAll]
  cases key with
  | none => exact hheal
  | some k => exact poison_rekey.trans hheal

theorem poison_clear {m : Mem} {lo n : Nat} (h : m.poison = []) : (m.clear lo n).poison = [] := by rw [Mem.clear, h, List.filter_nil]

theorem calm_wrMem {p a : Nat} {bs : List Byte} : Calm F s (s.wrMem p a bs) := calm_mem poison_write

theorem calm_cal {x : Cal} : Calm F s { s with cal := x } := calm_of rfl

theorem calm_twin {x : Twin} : Calm F s { s with twin := x } := calm_of rfl

theorem calm_sec {x : Sec} : Calm F s { s with sec := x } := calm_of rfl

theorem calm_sched {x : Sched} : Calm F s { s with sched := x } := calm_of rfl

theorem calm_useFree : Calm F s s.useFree := calm_of rfl

theorem calm_fabric {x : Fabric} (h : x.lost = s.fabric.lost) : Calm F s { s with fabric := x } :=
  calm_of (by rw [State.spoken, State.spoken, h]; rfl)

theorem calm_setPort {n : Nat} {x : Port} (h : x.downAt = (s.port n).downAt ∧ x.rxMsgs = (s.port n).rxMsgs) : Calm F s (s.setPort n x) where
  flds _ _ _ := rfl
  aloof := rfl
  lost _ := id
  port k := by
    by_cases hk : k = n
    · subst hk
      rw [State.port_setPort_self]
      exact h
    · rw [State.port_setPort_ne hk]
      exact ⟨rfl, rfl⟩
  place _ := staysAs_refl
  sound := id

theorem calm_setPlace {l : Nat} {x : Place} (h : (s.place l).settled → (s.place l).staysAs F x) : Calm F s (s.setPlace l x) where
  flds _ _ _ := rfl
  aloof := rfl
  lost _ := id
  port _ := ⟨rfl, rfl⟩
  place k hk := by
    by_cases hkl : k = l
    · subst hkl
      rw [State.place_setPlace_self]
      exact h hk
    · rw [State.place_setPlace_ne hkl]
      exact staysAs_refl hk
  sound := id

theorem calm_raise {f v : Nat} : Calm F s (s.raise f v) := by
  have h := raise_eq (s := s) (f := f) (v := v)
  generalize s.raise f v = w at h ⊢
  rw [h]
  exact calm_of rfl

theorem calm_fault {c l so ob : Nat} {d : List Byte} : Calm F s (s.fault c l so ob d) := by
  have h := fault_frame (s := s) (code := c) (level := l) (source := so) (object := ob) (data := d)
  generalize s.fault c l so ob d = w at h ⊢
  rw [h]
  exact calm_of rfl

theorem calm_violate {p a so : Nat} {phys value : Bool} : Calm F s (s.violate p a so phys value) := by
  unfold State.violate
  dsimp only
  refine calm_trans ?_ calm_raise
  generalize hv : s.setPart p _ = v
  generalize hw : ({ v with globalLog := _ } : State) = w
  have h : Calm F s w := by
    rw [← hw, ← hv]
    exact calm_of rfl
  have h1 := calm_trans h (calm_bump (F := F) (f := Fld.SCH_FN_STAT_VIOL) (apart_of_reg (apartReg_fnStat (p := p))))
  split
  · exact h1
  · exact calm_trans h1 (calm_bump (apart_of_reg apartReg_fnStat))

theorem calm_wrPieces {p : Nat} {ps : List (Nat × Nat)} {bs : List Byte} : Calm F s (s.wrPieces p ps bs) := by
  induction ps generalizing s bs with
  | nil => exact calm_refl
  | cons a t ih => exact calm_trans calm_wrMem ih

theorem calm_wrVa {p va : Nat} {bs : List Byte} (h : s.wrVa p va bs = .inl t) : Calm F s t := by
  unfold State.wrVa at h
  split at h
  · cases h
    exact calm_wrPieces
  · cases h

/-! ## Replies and long operations -/

/-- The key of a register that tells of the start-up or of a port. -/
def calmKey (k : Nat) : Prop := k = 0x20020 ∨ ∃ n, n < 24 ∧ k = 0xF1008 + 0x20 * n

theorem not_calmKey_of_apartReg {r : RegRef} (h : apartReg r) : ¬calmKey r.key := by
  obtain ⟨hstart, hport⟩ := h
  rintro (hk | ⟨n, hn, hk⟩)
  · exact hstart hk
  · exact hport n hn hk

theorem offRings_calmKey : offRings calmKey :=
  ⟨fun _ => not_calmKey_of_apartReg apartReg_fnStat, fun _ _ => not_calmKey_of_apartReg apartReg_ringStat⟩

theorem calmKey_of_fld {q : RegRef} {g : Field} (h : calmFld q g) : calmKey q.key := by
  rcases h with rfl | ⟨n, hn, rfl, -⟩
  · exact .inl rfl
  · exact .inr ⟨n, hn, rfl⟩

theorem calm_of_longOnly (h : s.longOnly t) : Calm F s t := by
  obtain ⟨hframe, hregs⟩ := h
  refine calm_trans (t := { s with regs := t.regs }) (calm_of_regs (fun q g hq => ?_) rfl) (calm_of (by rw [hframe]; rfl))
  exact (State.fld_of_regs rfl).trans (keepsRegs_fld (hregs calmKey offRings_calmKey) (calmKey_of_fld hq))

theorem calm_reply {h : Hdr} {op status detail result : Nat} : Calm F s (s.reply h op status detail result) := calm_of_longOnly longOnly_reply

theorem calm_post {f r : Nat} {o : Out} : Calm F s (s.post f r o) := calm_of_longOnly (longOnly_of_repliesOnly repliesOnly_post)

theorem calm_endLong {o : LongOp} {status detail result : Nat} : Calm F s (s.endLong o status detail result) := calm_of_longOnly longOnly_endLong

theorem calm_calEnds {o : CalObj} : Calm F s (s.calEnds o) := calm_of_longOnly longOnly_calEnds

theorem calm_countLong {p : Nat} : Calm F s (s.countLong p) := calm_of_longOnly longOnly_countLong

/-! ## Messages -/

theorem calm_portSends {n : Nat} {x : Port} {y : Fabric} (hx : x.downAt = (s.port n).downAt ∧ x.rxMsgs = (s.port n).rxMsgs)
    (hy : y.lost = s.fabric.lost) : Calm F s { s.setPort n x with fabric := y } :=
  calm_trans (calm_setPort hx) (calm_of (by rw [State.spoken, hy]; rfl))

theorem calm_transmit {n : Nat} {m : FMsg} : Calm F s (s.transmit n m) := by
  unfold State.transmit
  dsimp only
  split
  · exact calm_portSends ⟨rfl, rfl⟩ rfl
  · exact calm_setPort ⟨rfl, rfl⟩

theorem calm_sendMsg {m : FMsg} : Calm F s (s.sendMsg m) := by
  unfold State.sendMsg
  split
  · exact calm_transmit
  · exact calm_refl

theorem calm_request {dest op part offset : Nat} {payload : List Byte} {place : Option Nat} :
    Calm F s (s.request dest op part offset payload place) := by
  unfold State.request
  dsimp only
  refine calm_trans ?_ calm_sendMsg
  exact calm_fabric rfl

theorem calm_setChain {c : Chain} : Calm F s (s.setChain c) := calm_fabric rfl

theorem calm_dropChain {k : Nat} : Calm F s (s.dropChain k) := calm_fabric rfl

theorem calm_twinSolo : Calm F s s.twinSolo := by
  unfold State.twinSolo
  refine calm_trans ?_ (calm_setFld (apart_of_reg (apartReg_of_high (by decide))))
  refine calm_trans ?_ calm_twin
  exact calm_wrReg (apartReg_of_high (by decide))

theorem calm_takeoverCheck : Calm F s s.takeoverCheck := by
  unfold State.takeoverCheck
  split
  · exact calm_twinSolo
  · exact calm_refl

theorem calm_jrnl {p : Nat} {rs : List JRec} : Calm F s (s.jrnl p rs) := by
  unfold State.jrnl
  split
  · exact calm_refl
  · dsimp only
    exact calm_trans calm_twin calm_request

theorem calm_jrnlCtx {i : Nat} {rs : List JRec} : Calm F s (s.jrnlCtx i rs) := by
  unfold State.jrnlCtx
  split
  · exact calm_refl
  · split
    · exact calm_twin
    · exact calm_jrnl

theorem calm_postHeld {f r : Nat} {o : Out} : Calm F s (s.postHeld f r o) := by
  unfold State.postHeld
  dsimp only
  split
  · exact calm_twin
  · exact calm_post

end Sys2Proof.Machine

end

section
/-! PROOFS. The work on frames, contexts, calibration and tiles is calm: it leaves the start-up, the ports' state and the settings of placements
alone (R192, R202, R220, R404). -/

namespace Sys2Proof.Machine

variable {F : Prop} {s t u : State}

/-! ## Settings in force for a step (R226) -/

theorem calm_foldl {α : Type} {xs : List α} {g : State → α → State} (hg : ∀ (t : State) x, x ∈ xs → Calm F t (g t x)) : Calm F s (xs.foldl g s) :=
  calm_each hg

theorem calm_cairnRegs {p : Nat} {v : RegRef → Word64} : Calm F s ((cairnRegs p).foldl (fun (t : State) r => t.wrReg r (v r)) s) :=
  calm_foldl fun _ _ hr => calm_wrReg (apartReg_cairn hr)

theorem calm_asOf {l : Nat} : Calm F s (s.asOf l) := by
  unfold State.asOf
  split
  · exact calm_trans calm_cairnRegs calm_setPart
  · exact calm_refl

theorem calm_backFrom {l : Nat} : Calm F t (t.backFrom s l) := by
  unfold State.backFrom
  split
  · exact calm_trans calm_cairnRegs calm_setPart
  · exact calm_refl

theorem calm_under {l : Nat} {f : State → State} (hf : ∀ t : State, Calm F t (f t)) : Calm F s (s.under l f) :=
  calm_trans (calm_trans calm_asOf (hf _)) calm_backFrom

/-! ## Frames -/

theorem calm_resNotify {p : Nat} {empty : Bool} : Calm F s (s.resNotify p empty) := by
  unfold State.resNotify
  dsimp only
  split
  · exact calm_trans calm_setPart calm_raise
  · exact calm_refl

theorem calm_popLoop {p f n : Nat} : Calm F s (State.popLoop p f n s).1 := by
  induction n generalizing s with
  | zero => exact calm_resNotify
  | succ n ih =>
    unfold State.popLoop
    split
    · exact calm_resNotify
    · dsimp only
      generalize hv : (s.setFld (Reg.KVT_RES_IDX p) Fld.KVT_RES_IDX_HEAD _).resNotify p false = v
      have hcalm : Calm F s v := hv ▸ calm_trans (calm_setFld apart_resHead) calm_resNotify
      split
      · exact calm_trans (calm_trans hcalm calm_violate) ih
      · split
        · exact hcalm
        · exact calm_trans (calm_trans (calm_trans hcalm (calm_bump (apart_of_reg apartReg_partCnt))) calm_violate) ih

theorem calm_pop {p f q : Nat} : Calm F s (s.pop p f q).1 := calm_trans calm_setPart calm_popLoop

theorem calm_poolFill {p f q n : Nat} : Calm F s (State.poolFill p f q n s) := by
  induction n generalizing s with
  | zero => exact calm_refl
  | succ n ih =>
    unfold State.poolFill
    have hpop := calm_pop (F := F) (s := s) (p := p) (f := f) (q := q)
    split
    next s1 a he =>
      rw [he] at hpop
      exact calm_trans (calm_trans hpop calm_setPart) ih
    next s1 he =>
      rw [he] at hpop
      exact hpop

theorem calm_freeOne {p : Nat} {x : Nat × Nat} : Calm F s (s.freeOne p x) := by
  unfold State.freeOne
  dsimp only
  refine calm_trans ?_ (calm_setFld (apart_of_reg apartReg_freeIdx))
  split
  · exact calm_wrMem
  · exact calm_violate

theorem calm_drainFree {p : Nat} : Calm F s (s.drainFree p) := by
  unfold State.drainFree
  exact calm_trans (calm_each fun _ _ _ => calm_freeOne) calm_setPart

theorem calm_giveBack {p reason : Nat} {fs : List Nat} : Calm F s (s.giveBack p reason fs) := by
  unfold State.giveBack
  split
  · exact calm_refl
  · dsimp only
    generalize hv : s.setPart p _ = v
    have hcalm : Calm F s (v.drainFree p) := calm_trans (hv ▸ calm_setPart) calm_drainFree
    split
    · exact hcalm
    · exact calm_trans hcalm (calm_bump (apart_of_reg apartReg_partCnt))

theorem calm_unmapFrame {p va fl : Nat} : Calm F s (s.unmapFrame p va fl) := by
  unfold State.unmapFrame
  refine calm_each fun t i _ => ?_
  split
  · exact calm_trans calm_wrMem calm_setPart
  · exact calm_refl

theorem calm_freeFrames {c : Ctx} {reason : Nat} : Calm F s (s.freeFrames c reason) := by
  unfold State.freeFrames
  refine calm_under fun v => ?_
  have hunmap (fs : List (Nat × Nat)) (fl : Nat) : Calm F v (v.each fs fun s f => s.unmapFrame c.part f.1 fl) := calm_each fun _ _ _ => calm_unmapFrame
  dsimp only
  split
  · exact hunmap _ _
  · exact calm_trans (hunmap _ _) calm_giveBack

theorem calm_poolCairn {p q : Nat} : Calm F s (s.poolCairn p q) := by
  unfold State.poolCairn
  dsimp only
  split
  · exact calm_refl
  · refine calm_trans ?_ calm_poolFill
    exact calm_trans calm_setPart calm_giveBack

theorem calm_poolBack {p : Nat} {fs : List Nat} : Calm F s (s.poolBack p fs) := by
  unfold State.poolBack
  split
  · exact calm_refl
  · exact calm_setPart

/-! ## Contexts -/

theorem calm_writeBack {i : Nat} : Calm F s (s.writeBack i) := by
  unfold State.writeBack
  split
  · exact calm_refl
  · exact calm_trans calm_wrMem calm_setAux

theorem calm_touch {i : Nat} : Calm F s (s.touch i) := by
  unfold State.touch
  dsimp only
  generalize hv : ({ s.setAux i { s.auxOf i with lru := s.sched.lruSeq + 1, dirty := true } with sched := _ } : State) = v
  have hentered : Calm F s v := hv ▸ calm_trans calm_setAux calm_sched
  split
  · exact hentered
  · split
    · refine calm_trans (calm_trans hentered ?_) calm_setAux
      exact calm_ite (fun _ => calm_writeBack) fun _ => calm_refl
    · exact hentered

theorem calm_editCtx {i : Nat} {c : Ctx} : Calm F s (s.editCtx i c) := calm_trans calm_setCtx calm_touch

theorem calm_putCtx {i : Nat} {c : Ctx} : Calm F s (s.putCtx i c) := by
  rcases putCtx_cases (s := s) (i := i) (c := c) with h | ⟨rs, h⟩ <;> rw [h]
  · exact calm_editCtx
  · exact calm_trans calm_editCtx calm_jrnlCtx

theorem calm_pauseCtx {i : Nat} : Calm F s (s.pauseCtx i) := by
  unfold State.pauseCtx
  split
  · exact calm_putCtx
  · exact calm_refl

theorem calm_completeAt {i status pos : Nat} : Calm F s (s.completeAt i status pos) := calm_post

theorem calm_complete {i status : Nat} : Calm F s (s.complete i status) := calm_trans calm_completeAt calm_useFree

theorem calm_redoFinish {i : Nat} : Calm F s (s.redoFinish i) := by
  unfold State.redoFinish
  split
  · exact calm_refl
  · dsimp only
    refine calm_trans ?_ calm_takeoverCheck
    split
    · exact calm_trans (calm_trans calm_setAux calm_post) calm_pauseCtx
    · exact calm_trans calm_setAux calm_post

theorem calm_takeToken {i : Nat} : Calm F s (s.takeToken i) := by
  unfold State.takeToken
  dsimp only
  split
  · split
    · exact calm_refl
    · refine calm_trans ?_ calm_putCtx
      exact calm_fabric rfl
  · exact calm_refl

theorem calm_dropRetWait {p i : Nat} : Calm F s (s.dropRetWait p i) := calm_setPart

theorem calm_freeExtents {p first : Nat} : Calm F s (s.freeExtents p first) := calm_setPart

theorem calm_startPark {i : Nat} {reply : Option (Hdr × Nat)} : Calm F s (s.startPark i reply).1 := by
  unfold State.startPark
  dsimp only
  split
  · exact calm_trans calm_setPart calm_setAux
  · exact calm_bump (apart_of_reg apartReg_partCnt)

theorem calm_cancelPark {i : Nat} : Calm F s (s.cancelPark i) := by
  unfold State.cancelPark
  dsimp only
  split
  · exact calm_refl
  · split
    · exact calm_trans (calm_trans calm_freeExtents calm_setAux) calm_reply
    · exact calm_trans calm_freeExtents calm_setAux

theorem calm_unparked {i : Nat} : Calm F s (s.unparked i) := by
  unfold State.unparked
  split
  · exact calm_trans calm_freeExtents calm_setAux
  · split
    · exact calm_freeExtents
    · exact calm_refl

theorem calm_shut {i : Nat} {c : Ctx} : Calm F s (s.shut i c) := by
  unfold State.shut
  dsimp only
  refine calm_trans ?_ calm_takeoverCheck
  refine calm_trans ?_ calm_twin
  exact calm_trans (calm_trans calm_setAux calm_editCtx) calm_jrnlCtx

theorem calm_closeCtx {i reason : Nat} : Calm F s (s.closeCtx i reason) := by
  rw [closeCtx_eq]
  exact calm_trans (calm_trans calm_cancelPark calm_dropRetWait) (calm_trans (calm_trans calm_unparked calm_freeFrames) calm_shut)

theorem calm_parkEnds {i : Nat} : Calm F s (s.parkEnds i) := by
  unfold State.parkEnds
  split
  · exact calm_refl
  · dsimp only
    split
    · exact calm_trans (calm_trans calm_setAux calm_putCtx) calm_reply
    · exact calm_trans calm_setAux calm_putCtx

theorem calm_returnsDone {p : Nat} : Calm F s (s.returnsDone p) := by
  unfold State.returnsDone
  refine calm_each fun t w _ => ?_
  split
  · exact calm_trans calm_dropRetWait calm_parkEnds
  · exact calm_refl

theorem calm_freeRun {p : Nat} : Calm F s (s.freeRun p) := calm_trans calm_drainFree calm_returnsDone

theorem calm_doOpen {h : Hdr} {o : OpenParams} : Calm F s (s.doOpen h o) := by
  unfold State.doOpen
  dsimp only
  have hopen : Calm F s ((s.setAux o.context.toNat {}).editCtx o.context.toNat { openCtx h o with timestamp := s.time }) :=
    calm_trans calm_setAux calm_editCtx
  split
  · refine calm_trans ?_ calm_jrnl
    exact calm_trans hopen calm_twin
  · exact hopen

theorem calm_applyOp {i : Nat} {op : HeldOp} : Calm F s (s.applyOp i op) := by
  unfold State.applyOp
  dsimp only
  split
  · split
    · exact calm_doOpen
    · exact calm_refl
  · split
    · exact calm_refl
    · exact calm_closeCtx
    · split
      · exact calm_reply
      · split
        · split
          · exact calm_reply
          · exact calm_setAux
        · split
          · exact calm_startPark
          · exact calm_trans calm_startPark calm_reply
    · exact calm_putCtx

theorem calm_applyHeld {i : Nat} : Calm F s (s.applyHeld i) := by
  unfold State.applyHeld
  exact calm_trans calm_setCtx (calm_each fun _ _ _ => calm_applyOp)

theorem calm_cairnReplies : Calm F s s.cairnReplies := by
  unfold State.cairnReplies
  refine calm_each fun t x _ => ?_
  dsimp only
  split
  · exact calm_refl
  · exact calm_trans calm_setPair (calm_each fun _ _ _ => calm_reply)

theorem calm_mapCairns {f : CairnWait → CairnWait} : Calm F s (s.mapCairns f) := calm_of rfl

theorem calm_closeAll {p reason : Nat} : Calm F s (s.closeAll p reason) := by
  unfold State.closeAll
  refine calm_each fun t i _ => calm_trans ?_ calm_closeCtx
  split
  · exact calm_complete
  · exact calm_refl

/-! ## Calibration -/

theorem calm_calHoldOne {o : CalObj} : Calm F s (s.calHoldOne o) := by
  unfold State.calHoldOne
  dsimp only
  split
  · exact calm_cal
  · split
    · exact calm_cal
    · exact calm_refl

theorem calm_calHold {o : CalObj} : Calm F s (s.calHold o) := calm_each fun _ _ _ => calm_calHoldOne

theorem calm_abandonRuns {mine : CalObj → Bool} {again : Bool} : Calm F s (s.abandonRuns mine again) := by
  unfold State.abandonRuns
  dsimp only
  refine calm_trans ?_ (calm_each fun _ _ _ => calm_calEnds)
  split
  · exact calm_trans calm_cal (calm_each fun _ _ _ => calm_calHold)
  · exact calm_cal

/-- A placement whose step alone changes, and begins none, stays as it is. -/
theorem staysAs_step {x : Place} {st : Option Step} (hx : x.settled) (hst : x.step = none → st = none) : x.staysAs F { x with step := st } :=
  ⟨hx, rfl, rfl, rfl, rfl, id, fun _ => rfl, hst⟩

theorem calm_keepCoefs {i : Nat} {arrs : List Nat} {restart : Bool} : Calm F s (s.keepCoefs i arrs restart) := by
  unfold State.keepCoefs
  refine calm_each fun t l _ => calm_setPlace fun hl => staysAs_step hl fun hn => ?_
  rw [hn]
  rfl

theorem calm_applyTile {i k : Nat} {r : Ramp} : Calm F s (s.applyTile i k r) := by
  unfold State.applyTile
  dsimp only
  exact calm_trans calm_keepCoefs calm_setPhy

theorem calm_applyCluster {c k : Nat} {r : Ramp} : Calm F s (s.applyCluster c k r) := by
  have hrings : Calm F s (s.each r.res.setpoints fun s p =>
      s.setRing c p.1 { s.ring c p.1 with setpoint := (rneRat (rampTo (tget 0 r.startG p.1) p.2 k)).toNat }) := calm_each fun _ _ _ => calm_setRing
  unfold State.applyCluster
  dsimp only
  split
  · exact calm_trans hrings calm_setPhy
  · exact hrings

theorem calm_applyAt {k : Nat} {r : Ramp} : Calm F s (s.applyAt k r) := by
  unfold State.applyAt
  split
  · exact calm_applyTile
  · exact calm_applyCluster
  · exact calm_refl

theorem calm_takeCells {i : Nat} {stuck : List (Nat × Nat × Nat × Int)} : Calm F s (s.takeCells i stuck) := calm_setPhy

theorem calm_rampStep {r : Ramp} : Calm F s (s.rampStep r) := by
  unfold State.rampStep
  dsimp only
  exact calm_trans calm_applyAt calm_cal

theorem calm_switchBand {o : CalObj} : Calm F s (s.switchBand o) := by
  unfold State.switchBand
  dsimp only
  split
  · exact calm_refl
  · split
    · exact calm_trans calm_cal calm_applyAt
    · refine calm_trans ?_ calm_applyAt
      exact calm_trans calm_cal calm_cal
    · exact calm_cal

theorem calm_rampCairn {tiles : List Nat} : Calm F s (s.rampCairn tiles) := by
  unfold State.rampCairn
  dsimp only
  refine calm_trans (calm_each fun t i _ => ?_) (calm_each fun _ _ _ => calm_rampStep)
  refine calm_trans (calm_trans ?_ calm_switchBand) calm_switchBand
  split
  · exact calm_takeCells
  · exact calm_refl

/-! ## Tiles -/

theorem calm_dropCopies {n l keep : Nat} : Calm F s (s.dropCopies n l keep) := calm_setTile

theorem calm_dropStream {l : Nat} : Calm F s (s.dropStream l) := calm_each fun _ _ _ => calm_dropCopies

theorem calm_clearTags {l : Nat} {pick : Nat → Bool} : Calm F s (s.clearTags l pick) := by
  unfold State.clearTags
  refine calm_each fun t e _ => ?_
  split
  · exact calm_setPhy
  · exact calm_refl

theorem calm_dropAhead {l : Nat} : Calm F s (s.dropAhead l) := by
  unfold State.dropAhead
  refine calm_trans ?_ calm_dropStream
  split
  · exact calm_refl
  · exact calm_clearTags

theorem calm_clearBank {i : Nat} : Calm F s (s.clearBank i) := calm_setPhy

theorem apartReg_secCnt : apartReg Reg.SEC_CNT := apartReg_of_high (by decide)

theorem calm_scrub {n : Nat} {full : Bool} {next : Option Nat} : Calm F s (s.scrub n full next) := by
  unfold State.scrub
  dsimp only
  refine calm_trans ?_ (calm_bump (apart_of_reg apartReg_secCnt))
  refine calm_trans ?_ calm_setTile
  split
  · refine calm_trans ?_ calm_clearBank
    split
    · exact calm_abandonRuns
    · exact calm_refl
  · exact calm_refl

theorem calm_dropWork {l n : Nat} : Calm F s (s.dropWork l n) := calm_setTile

theorem calm_leaveTile {l n : Nat} {keep : Bool} : Calm F s (s.leaveTile l n keep) := calm_setTile

theorem calm_putCopy {n : Nat} {c : ShareCopy} : Calm F s (s.putCopy n c) := calm_setTile

theorem calm_stageLayer {im : Image} {l n i layer gen : Nat} : Calm F s (s.stageLayer im l n i layer gen) := by
  unfold State.stageLayer
  dsimp only
  split
  · exact calm_refl
  · split
    · exact calm_refl
    · refine calm_each fun t e _ => ?_
      split
      · exact calm_refl
      · split
        · exact calm_putCopy
        · exact calm_violate

theorem calm_stageTile {l n i : Nat} : Calm F s (s.stageTile l n i) := calm_each fun _ _ _ => calm_stageLayer

theorem calm_stageAll {l : Nat} : Calm F s (s.stageAll l) := calm_each fun _ _ _ => calm_stageTile

theorem calm_setTurn {g : List Nat} {r : Nat × Nat} : Calm F s (s.setTurn g r) := calm_sched

theorem calm_turnDone {l n : Nat} : Calm F s (s.setPlace l { s.place l with turnDone := n }) :=
  calm_setPlace fun hx => ⟨hx, rfl, rfl, rfl, rfl, id, fun _ => rfl, id⟩

theorem calm_turn {l : Nat} : Calm F s (s.turn l) := by
  unfold State.turn
  split
  · exact calm_refl
  · dsimp only
    split
    · exact calm_refl
    · split
      · exact calm_trans calm_turnDone calm_setTurn
      · exact calm_setTurn

theorem calm_readSlice {l : Nat} : Calm F s (s.readSlice l) := by
  have hslice (v : State) (hv : v.place l = s.place l) (e : List Byte) : Calm F v (v.setPlace l { s.place l with slice := e }) :=
    calm_setPlace fun hx => ⟨hv ▸ hx, by rw [hv], by rw [hv], by rw [hv], by rw [hv], hv ▸ id, fun _ => by rw [hv], hv ▸ id⟩
  unfold State.readSlice
  dsimp only
  split
  · split
    · exact hslice s rfl _
    · split
      · exact hslice s rfl _
      · exact calm_trans (calm_bump (apart_of_reg apartReg_fenceBad)) (hslice _ (by rw [State.bump_place_acc]) _)
  · exact hslice s rfl _

theorem calm_decideHold {l : Nat} : Calm F s (s.decideHold l) := by
  have hhold (b : Bool) : Calm F s (s.setPlace l { s.place l with hold := b }) :=
    calm_setPlace fun hx => ⟨hx, rfl, rfl, rfl, rfl, id, fun _ => rfl, id⟩
  unfold State.decideHold
  dsimp only
  split
  · split
    · exact hhold _
    · exact calm_refl
  · split
    · exact calm_trans (hhold _) (calm_bump apart_holds)
    · exact hhold _

end Sys2Proof.Machine

end

section
/-! PROOFS. A cairn is calm (R226): a placement with no setting due keeps its settings, and stays fenced or as it was; what settles at a cairn, from
a retirement to a zeroisation, leaves the start-up and the ports alone. -/

namespace Sys2Proof.Machine

variable {F : Prop} {s t u : State}

/-! ## Settings that are due -/

/-- A placement with a setting due may change in any way. -/
theorem calm_setPlace_due {l : Nat} {x : Place} (h : Calm F s t) (hl : ¬(s.place l).settled) : Calm F s (t.setPlace l x) where
  flds := h.flds
  aloof := h.aloof
  lost := h.lost
  port := h.port
  place k hk := by
    by_cases hkl : k = l
    · subst hkl
      exact absurd hk hl
    · rw [State.place_setPlace_ne hkl]
      exact h.place k hk
  sound := h.sound

theorem calm_putPlace {l : Nat} {c : PlaceCfg} (hl : ¬(s.place l).settled) : Calm F s (s.putPlace l c) := by
  unfold State.putPlace
  dsimp only
  generalize hv : s.clearTags l _ = v
  have hcleared : Calm F s v := hv ▸ calm_clearTags
  generalize hw : v.each (v.place l).cfg.tiles _ = w
  have hleft : Calm F s w := calm_trans hcleared (hw ▸ calm_each fun _ _ _ => calm_leaveTile)
  split
  · exact calm_setPlace_due hleft hl
  · refine calm_trans ?_ calm_stageAll
    refine calm_trans ?_ (calm_each fun _ _ _ => calm_dropCopies)
    refine calm_setPlace_due ?_ hl
    exact calm_trans hleft (calm_each fun _ _ _ => calm_setTile)

theorem calm_readies {is was : List Nat} :
    Calm F s (s.each is fun s i => if was.contains i then s else s.editCtx i { s.ctx i with timestamp := s.time }) :=
  calm_each fun _ _ _ => calm_ite (fun _ => calm_refl) fun _ => calm_editCtx

theorem calm_applyPlace {l : Nat} {c : PlaceCfg} (hl : ¬(s.place l).settled) : Calm F s (s.applyPlace l c) := by
  unfold State.applyPlace
  dsimp only
  exact calm_trans (calm_putPlace hl) calm_readies

theorem calm_unloadCheck {m : Nat} : Calm F s (s.unloadCheck m) := by
  unfold State.unloadCheck
  dsimp only
  split
  · split
    · exact calm_trans calm_setModel calm_reply
    · exact calm_refl
  · exact calm_refl

theorem calm_removePlace {l reason : Nat} (hl : ¬(s.place l).settled) : Calm F s (s.removePlace l reason) := by
  unfold State.removePlace
  dsimp only
  generalize hv : s.clearTags l _ = v
  have hcleared : Calm F s v := hv ▸ calm_clearTags
  generalize hw : v.each (v.ctxsOf l) _ = w
  have hclosed : Calm F s w := by
    refine calm_trans hcleared (hw ▸ calm_each fun t i _ => calm_trans ?_ calm_closeCtx)
    exact calm_ite (fun _ => calm_complete) fun _ => calm_refl
  refine calm_setPlace_due ?_ hl
  exact calm_trans hclosed (calm_each fun _ _ _ => calm_leaveTile)

/-! ## What settles -/

theorem calm_freshKey {p src : Nat} : Calm F s (s.freshKey p src) := by
  unfold State.freshKey
  dsimp only
  refine calm_trans ?_ (calm_setFld (apart_of_reg apartReg_secPart))
  refine calm_trans ?_ (calm_setFld (apart_of_reg apartReg_secPart))
  exact calm_sec

theorem calm_dropModels {p : Nat} : Calm F s (s.dropModels p) := by
  rw [dropModels_eq]
  refine calm_trans (calm_trans (calm_each fun t m _ => ?_) (calm_each fun t o _ => ?_)) calm_countLong
  · unfold State.modelGone
    split
    · exact calm_trans calm_setModel calm_reply
    · exact calm_setModel
  · exact calm_trans (t := t.dropChain o.id) calm_dropChain calm_endLong

/-- A system table written as at start-up. -/
def State.tableCleared (s : State) (r : RegRef) (f : Field) (n : Nat) (m : Mem) : Mem :=
  if s.reg r = 0 then m else m.clear (s.fld r f * 2 ^ f.lo) n

theorem poison_tableCleared {r : RegRef} {f : Field} {n : Nat} {m : Mem} (h : m.poison = []) : (s.tableCleared r f n m).poison = [] := by
  unfold State.tableCleared
  split
  · exact h
  · exact poison_clear h

/-- Memory with the tables of contexts, of histories and of buckets written as at start-up. -/
def State.tablesCleared (s : State) : Mem :=
  s.tableCleared Reg.SCH_BKT_TBL Fld.SCH_BKT_TBL_BASE (2 ^ 20) (s.tableCleared Reg.SCH_HIST_TBL Fld.SCH_HIST_TBL_BASE (2 ^ 29)
    (s.tableCleared Reg.SCH_CTX_TBL Fld.SCH_CTX_TBL_BASE (2 ^ 28) s.mem))

theorem calm_freshTables : Calm F s s.freshTables := by
  refine calm_trans (t := { s with mem := s.tablesCleared }) (calm_mem fun h => ?_) (calm_of rfl)
  exact poison_tableCleared (poison_tableCleared (poison_tableCleared h))

theorem calm_stopSteps : Calm F s s.stopSteps := by
  unfold State.stopSteps
  refine calm_each fun t l _ => ?_
  split
  · exact calm_refl
  · dsimp only
    refine calm_trans ?_ (calm_setPlace fun hx => staysAs_step hx fun _ => rfl)
    refine calm_trans (calm_each fun v x _ => ?_) (calm_each fun v x _ => calm_dropWork)
    split
    · exact calm_poolBack
    · exact calm_refl

theorem calm_endRetire {h : Hdr} {p : Nat} : Calm F s (s.endRetire h p) := by
  unfold State.endRetire
  dsimp only
  refine calm_trans ?_ calm_reply
  refine calm_trans ?_ calm_freshKey
  generalize hv : ({ s with sec := _ } : State) = v
  have hsec : Calm F s v := hv ▸ calm_sec
  have hshut : Calm F s ((v.closeAll p 5).dropModels p) := calm_trans hsec (calm_trans calm_closeAll calm_dropModels)
  split
  · refine calm_trans ?_ calm_freshTables
    refine calm_trans ?_ calm_stopSteps
    exact calm_trans (calm_trans hshut calm_setPart) (calm_each fun _ _ _ => calm_closeAll)
  · exact calm_trans hshut calm_setPart

theorem calm_zeroEmpty : Calm F s s.zeroEmpty := by
  unfold State.zeroEmpty
  dsimp only
  refine calm_trans ?_ (calm_setFld (apart_of_reg (apartReg_of_high (by decide))))
  exact calm_each fun t p _ => calm_trans (calm_trans calm_closeAll calm_dropModels) calm_setPart

theorem calm_zeroScrub : Calm F s s.zeroScrub := by
  unfold State.zeroScrub
  exact calm_trans (calm_each fun _ _ _ => calm_scrub) (calm_setFld (apart_of_reg (apartReg_of_high (by decide))))

theorem calm_newDevKey : Calm F s s.newDevKey := by
  unfold State.newDevKey
  dsimp only
  refine calm_trans ?_ (calm_each fun _ _ _ => calm_wrReg apartReg_devPub)
  exact calm_sec

theorem apartReg_secStat : apartReg Reg.SEC_STAT := apartReg_of_high (by decide)

theorem calm_setFlag {r : RegRef} {f : Field} {b : Bool} (h : apart r f) : Calm F s (s.setFlag r f b) := calm_setFld h

theorem calm_zeroRekey : Calm F s s.zeroRekey := by
  unfold State.zeroRekey
  dsimp only
  refine calm_trans ?_ calm_sec
  have hkeyed : Calm F s (s.freshTables.each s.parts_ fun s p => s.freshKey p 0).newDevKey :=
    calm_trans (calm_trans calm_freshTables (calm_each fun _ _ _ => calm_freshKey)) calm_newDevKey
  have hcounted : Calm F s (((s.freshTables.each s.parts_ fun s p => s.freshKey p 0).newDevKey.bump Reg.SEC_CNT Fld.SEC_CNT_ZEROIZES).setFld
      Reg.SEC_STAT Fld.SEC_STAT_ZERO_PHASE 0) :=
    calm_trans (calm_trans hkeyed (calm_bump (apart_of_reg apartReg_secCnt))) (calm_setFld (apart_of_reg apartReg_secStat))
  split
  · exact calm_trans (calm_trans hcounted (calm_setFlag (apart_of_reg apartReg_secStat))) (calm_setFlag (apart_of_reg apartReg_secStat))
  · exact hcounted

theorem calm_zeroDebugRun : Calm F s s.zeroDebugRun := by
  unfold State.zeroDebugRun
  dsimp only
  split
  · exact calm_trans (calm_trans calm_zeroEmpty calm_zeroScrub) calm_zeroRekey
  · exact calm_refl

theorem calm_settle {p : Nat} : Calm F s (s.settle p) := by
  unfold State.settle
  dsimp only
  refine calm_trans ?_ calm_zeroDebugRun
  split
  · exact calm_ite (fun _ => calm_endRetire) fun _ => calm_refl
  · exact calm_refl

/-! ## The cairn -/

/-- The setting that is due at a cairn of placement l: it goes, or takes what PLACE recorded. -/
def State.dueSet (s : State) (l : Nat) : State :=
  if (s.place l).removing then (s.removePlace l (if s.destroying (s.place l).part then 0 else 5)).unloadCheck (s.place l).cfg.model
  else match (s.place l).change with
    | some c => s.applyPlace l c
    | none => s

/-- What a cairn of placement l reads anew: its slice entry, its calibration and its scratch frames. -/
def State.rereads (s : State) (l p : Nat) : State :=
  let s2 := if (s.place l).present then (s.readSlice l).rampCairn (s.place l).cfg.tiles else s
  s2.poolCairn p (s2.place l).home

/-- Whether the model of placement l waits for its swap's barrier. -/
def State.swapBound (s : State) (l : Nat) : Bool :=
  match (s.model (s.place l).cfg.model).swap with
  | some w => w.bound != 0
  | none => false

/-- Placement l comes to the barrier of a swap, or is held for a test. -/
def State.comesToBarrier (s : State) (l : Nat) : State :=
  if (s.place l).present && s.swapBound l && !(s.place l).barrier then (s.dropAhead l).setPlace l { (s.dropAhead l).place l with barrier := true }
  else if (s.place l).testHold then s.dropAhead l
  else s

/-- What waits for a cairn of placement l goes on. -/
def State.goesOn (s : State) (l p : Nat) : State :=
  let s5 := (s.mapCairns fun c => { c with wait := c.wait.filter (· != l) }).cairnReplies
  let s6 := if (s5.busyPlaces (s5.placesOf p)).isEmpty then s5.freeRun p else s5
  ((s6.turn l).decideHold l).settle p

theorem cairn_eq {l : Nat} : s.cairn l = (((s.dueSet l).rereads l (s.place l).part).comesToBarrier l).goesOn l (s.place l).part := by
  unfold State.cairn
  dsimp only
  generalize hv : ite ((s.place l).removing = true) _ _ = v
  have hdue : s.dueSet l = v := hv
  rw [hdue]
  rfl

theorem calm_dueSet {l : Nat} : Calm F s (s.dueSet l) := by
  unfold State.dueSet
  split
  next hr =>
    refine calm_trans (calm_removePlace fun hx => ?_) calm_unloadCheck
    rw [hx.2] at hr
    exact absurd hr (by decide)
  next =>
    split
    next c hc =>
      refine calm_applyPlace fun hx => ?_
      rw [hx.1] at hc
      exact absurd hc (by simp)
    next => exact calm_refl

theorem calm_rereads {l p : Nat} : Calm F s (s.rereads l p) := by
  unfold State.rereads
  dsimp only
  refine calm_trans ?_ calm_poolCairn
  exact calm_ite (fun _ => calm_trans calm_readSlice calm_rampCairn) fun _ => calm_refl

theorem calm_comesToBarrier {l : Nat} : Calm F s (s.comesToBarrier l) := by
  unfold State.comesToBarrier
  refine calm_ite (fun _ => ?_) fun _ => calm_ite (fun _ => calm_dropAhead) fun _ => calm_refl
  exact calm_trans calm_dropAhead (calm_setPlace fun hx => ⟨hx, rfl, rfl, rfl, rfl, id, fun _ => rfl, id⟩)

theorem calm_goesOn {l p : Nat} : Calm F s (s.goesOn l p) := by
  unfold State.goesOn
  dsimp only
  refine calm_trans ?_ calm_settle
  refine calm_trans ?_ calm_decideHold
  refine calm_trans ?_ calm_turn
  generalize hv : (s.mapCairns _).cairnReplies = v
  have hreplied : Calm F s v := hv ▸ calm_trans calm_mapCairns calm_cairnReplies
  exact calm_trans hreplied (calm_ite (fun _ => calm_freeRun) fun _ => calm_refl)

theorem calm_cairn {l : Nat} : Calm F s (s.cairn l) := by
  rw [cairn_eq]
  exact calm_trans (calm_trans (calm_trans calm_dueSet calm_rereads) calm_comesToBarrier) calm_goesOn

end Sys2Proof.Machine

end

section
/-! PROOFS. The parts of a slot's retire (R27, R198, R220), each named: its commit, the frames that go back, a slot without work, and one with work. -/

namespace Sys2Proof.Machine

variable {s : State}

/-- The frames of a slot with a tree go back. -/
def State.specBack (s : State) (x : Slot) (p : Nat) : State :=
  match x.kind with
  | .spec _ fs => s.poolBack p fs
  | _ => s

/-- The frames of a slot with a tree go back where its work is discarded. -/
def State.specDropped (s : State) (x : Slot) (p : Nat) : State :=
  match x.kind with
  | .spec _ fs => if x.discard.isSome then s.poolBack p fs else s
  | _ => s

/-- What a discarded slot leaves of its context. -/
def State.slotStops (s : State) (x : Slot) (c : Ctx) : State :=
  (if x.stay then s.editCtx x.ctx { c with timestamp := s.time }
    else s.putCtx x.ctx { c with st := if c.st == .active then .paused else c.st, appCnt := if x.clearApp then 0 else c.appCnt }).useFree

/-- The tokens of a slot enter the history. -/
def State.slotHist (s : State) (x : Slot) : State :=
  (s.each ((List.range x.inputs.length).zip x.inputs) fun s t => s.putHist x.ctx (x.p0 + t.1) t.2).each
    ((List.range x.accepted.length).zip (x.tokens.take x.accepted.length)) fun s t => s.putHist x.ctx (x.p0 + 1 + t.1) t.2

/-- A ready context takes the time. -/
def State.readyAt (s : State) (i : Nat) : State := if s.isReady i then s.editCtx i { s.ctx i with timestamp := s.time } else s

/-- A late context is counted. -/
def State.lateCounted (s : State) (p : Nat) (late : Bool) : State :=
  if late then s.bump (Reg.SCH_PART_CNT p) Fld.SCH_PART_CNT_LATE else s

/-- The context of a slot takes its new state. -/
def State.slotPut (s : State) (x : Slot) (c1 : Ctx) (p : Nat) (late : Bool) : State :=
  (((s.putCtx x.ctx c1).redoDone x).takeToken x.ctx).readyAt x.ctx |>.lateCounted p late

/-- The records of a slot's tokens for the journal. -/
def State.slotRecs (s : State) (st : Step) (x : Slot) (c : Ctx) : List JRec :=
  (match x.kind with
    | .prefill .. => s.histRecs x.ctx st.gen (x.p0 + b2n c.pvalid) (if c.pvalid then x.inputs.drop 1 else x.inputs) false
    | _ => []) ++ (if x.tokens.isEmpty then [] else
      s.histRecs x.ctx st.gen (x.p0 + (match x.kind with | .spec .. => 1 | _ => x.npos)) x.tokens true)

/-- The tokens of other modules that a slot has passed are dropped. -/
def State.relaysPassed (s : State) (l : Nat) (x : Slot) : State :=
  { s with fabric := { s.fabric with relayed := s.fabric.relayed.filter fun r => !(r.1 == l && r.2.1 == x.ctx && x.p0 ≤ r.2.2 && r.2.2 < x.p0 + x.npos) } }

/-- The status of a slot's completion. -/
def slotStatus (late : Bool) (st : Step) : Nat := if late then stLate else if st.escalated then stEscalated else stOK

/-- What a slot with work leaves, and its completion. -/
def State.slotWorks (s v : State) (l : Nat) (st : Step) (x : Slot) (c : Ctx) (late : Bool) : State × List (Nat × Out) :=
  (((s.jrnlCtx x.ctx (s.slotRecs st x c))).relaysPassed l x, if x.tokens.isEmpty then [] else [v.slotOut l st x c (slotStatus late st) x.tokens])

/-- A slot retires after its commit. -/
def State.slotRetires (s : State) (l : Nat) (st : Step) (x : Slot) (c : Ctx) : State × List (Nat × Out) :=
  if c.st == .closed then (s, [])
  else match x.discard with
    | some d => (s.slotStops x c, [s.slotOut l st x c d []])
    | none => ((((s.specBack x c.part).slotHist x).slotPut x (s.advance x).1 c.part (s.advance x).2)).slotWorks s l st x c (s.advance x).2

theorem retireSlot_eq {l : Nat} {st : Step} {x0 x : Slot} {v : State} (h : s.commitSlot x0 = (v, x)) :
    s.retireSlot l st x0 = (v.specDropped x (v.ctx x.ctx).part).slotRetires l st x (v.ctx x.ctx) := by
  unfold State.retireSlot
  rw [h]
  rfl

end Sys2Proof.Machine

end

section
/-! PROOFS. A module that is lost, and a port that goes down, are calm once the port's own state is written (R263, R380, R381): placements are fenced
and their steps abandoned, chains end, but no placement with no setting due changes its settings or is fenced no more. -/

namespace Sys2Proof.Machine

variable {F : Prop} {s t u : State}

/-! ## The retire of a slot -/

theorem calm_putHist {i q tok : Nat} : Calm F s (s.putHist i q tok) := calm_wrMem

theorem calm_redoDone {x : Slot} : Calm F s (s.redoDone x) := by
  unfold State.redoDone
  dsimp only
  split
  · exact calm_refl
  · split
    · exact calm_trans (calm_trans (calm_trans calm_setAux calm_editCtx) calm_setAux) calm_redoFinish
    · exact calm_setAux

theorem calm_commitMoves {p : Nat} {ms : List (Nat × Nat × Nat)} {a : State ⊕ Nat} (ha : ∀ t, a = .inl t → Calm F s t)
    (h : ms.foldl (fun (a : State ⊕ Nat) m => match a with
      | .inl s => s.wrVa p m.1 (s.rdMem p m.2.1 m.2.2)
      | .inr v => .inr v) a = .inl t) : Calm F s t := by
  induction ms generalizing a with
  | nil => exact ha t h
  | cons m ms ih =>
    refine ih (fun v hv => ?_) h
    cases a with
    | inl w => exact calm_trans (ha w rfl) (calm_wrVa hv)
    | inr n => exact absurd hv (by simp)

theorem calm_commitSpec {x : Slot} {fs : List Nat} (h : s.commitSpec x fs = .inl t) : Calm F s t := by
  unfold State.commitSpec at h
  dsimp only at h
  split at h
  next v hv =>
    obtain rfl : v.backFrom s (s.ctx x.ctx).placement = t := Sum.inl.inj h
    exact calm_trans (calm_trans calm_asOf (calm_commitMoves (a := .inl (s.asOf _)) (fun w hw => by rw [Sum.inl.inj hw]; exact calm_refl) hv)) calm_backFrom
  next => exact absurd h (by simp)

theorem calm_commitSlot {x : Slot} : Calm F s (s.commitSlot x).1 := by
  unfold State.commitSlot
  split
  · split
    · exact calm_refl
    · split
      · exact calm_commitSpec ‹_›
      · exact calm_violate
  · exact calm_refl

theorem calm_specBack {x : Slot} {p : Nat} : Calm F s (s.specBack x p) := by
  unfold State.specBack
  split
  · exact calm_poolBack
  · exact calm_refl

theorem calm_specDropped {x : Slot} {p : Nat} : Calm F s (s.specDropped x p) := by
  unfold State.specDropped
  split
  · exact calm_ite (fun _ => calm_poolBack) fun _ => calm_refl
  · exact calm_refl

theorem calm_slotStops {x : Slot} {c : Ctx} : Calm F s (s.slotStops x c) := by
  unfold State.slotStops
  exact calm_trans (calm_ite (fun _ => calm_editCtx) fun _ => calm_putCtx) calm_useFree

theorem calm_slotHist {x : Slot} : Calm F s (s.slotHist x) := by
  unfold State.slotHist
  exact calm_trans (calm_each fun _ _ _ => calm_putHist) (calm_each fun _ _ _ => calm_putHist)

theorem calm_slotPut {x : Slot} {c : Ctx} {p : Nat} {late : Bool} : Calm F s (s.slotPut x c p late) := by
  unfold State.slotPut State.readyAt State.lateCounted
  dsimp only
  have hready (v : State) (i : Nat) : Calm F v (if v.isReady i then v.editCtx i { v.ctx i with timestamp := v.time } else v) :=
    calm_ite (fun _ => calm_editCtx) fun _ => calm_refl
  exact calm_trans (calm_trans (calm_trans (calm_trans calm_putCtx calm_redoDone) calm_takeToken) (hready _ _))
    (calm_ite (fun _ => calm_bump (apart_of_reg apartReg_schedCnt)) fun _ => calm_refl)

theorem calm_relaysPassed {l : Nat} {x : Slot} : Calm F s (s.relaysPassed l x) := calm_fabric rfl

theorem calm_slotRetires {l : Nat} {st : Step} {x : Slot} {c : Ctx} : Calm F s (s.slotRetires l st x c).1 := by
  unfold State.slotRetires
  split
  · exact calm_refl
  · split
    · exact calm_slotStops
    · exact calm_trans (calm_trans (calm_trans (calm_trans calm_specBack calm_slotHist) calm_slotPut) calm_jrnlCtx) calm_relaysPassed

theorem calm_retireSlot {l : Nat} {st : Step} {x : Slot} : Calm F s (s.retireSlot l st x).1 := by
  rw [retireSlot_eq rfl]
  exact calm_trans (calm_trans calm_commitSlot calm_specDropped) calm_slotRetires

theorem calm_postStep {os : List (Nat × Out)} : Calm F s (s.postStep os) := by
  induction os generalizing s with
  | nil => exact calm_refl
  | cons o os ih => exact calm_trans calm_postHeld ih

theorem calm_noteAll {notes : List (Nat × Nat)} : Calm F s (s.noteAll notes) := calm_each fun _ _ _ => calm_complete

theorem calm_endStep {l : Nat} {slots : List Slot} : Calm F s (s.endStep l slots) := by
  unfold State.endStep
  refine calm_trans (calm_setPlace fun hx => ?_) (calm_each fun _ _ _ => calm_applyHeld)
  exact ⟨hx, rfl, rfl, rfl, rfl, id, fun _ => rfl, id⟩

/-! ## An abandoned step -/

theorem calm_slotsRetire {l : Nat} {st : Step} {slots : List Slot} : Calm F s
    (slots.foldl (fun (a : State × List (Nat × Out)) x =>
      let (s1, os) := a.1.retireSlot l st x
      (s1, a.2 ++ os)) (s, [])).1 :=
  calm_foldl_fst (a := (s, [])) fun _ _ => calm_retireSlot

/-- A step ends without a result. -/
theorem calm_stepEnds {l : Nat} : Calm F s (s.setPlace l { s.place l with step := none }) := calm_setPlace fun hx => staysAs_step hx fun _ => rfl

theorem calm_abandon {l : Nat} {pause : Bool} : Calm F s (s.abandon l pause) := by
  unfold State.abandon
  split
  · exact calm_refl
  · dsimp only
    refine calm_trans ?_ calm_cairn
    refine calm_trans ?_ calm_endStep
    refine calm_trans ?_ calm_dropAhead
    refine calm_trans ?_ calm_stepEnds
    refine calm_trans ?_ (calm_each fun _ _ _ => calm_dropWork)
    refine calm_trans ?_ calm_noteAll
    exact calm_trans calm_slotsRetire calm_postStep

/-! ## Fences -/

/-- A placement is fenced. -/
theorem calm_fenced {l : Nat} (hF : F) : Calm F s (s.setPlace l { s.place l with fenced := true }) :=
  calm_setPlace fun hx => ⟨hx, rfl, rfl, rfl, rfl, fun _ => rfl, fun hn => absurd hF hn, id⟩

theorem calm_fenceWork {l : Nat} (hF : F) : Calm F s (s.fenceWork l) := by
  unfold State.fenceWork
  dsimp only
  refine calm_trans ?_ (calm_fabric rfl)
  refine calm_trans (calm_trans (calm_fenced hF) calm_abandon) (calm_each fun _ _ _ => ?_)
  exact calm_ite (fun _ => calm_putCtx) fun _ => calm_editCtx

theorem calm_fencePlace {l m : Nat} (hF : F) : Calm F s (s.fencePlace l m) := by
  unfold State.fencePlace
  dsimp only
  split
  · exact calm_refl
  · exact calm_trans (calm_trans (calm_fenceWork hF) calm_raise) calm_fault

/-! ## Chains -/

theorem calm_tellChain {c : Chain} {dest kind who : Nat} : Calm F s (s.tellChain c dest kind who) := calm_request

theorem calm_failLoad {o : LongOp} {m status detail result : Nat} : Calm F s (s.failLoad o m status detail result) :=
  calm_trans calm_setModel calm_endLong

/-- The load of a model ends with its result. -/
def State.loadEnds (s : State) (o : LongOp) (m n : Nat) : State :=
  match o.failed with
  | some e => s.failLoad o m e.1 e.2 0
  | none => (s.setModel m { s.model m with st := .loaded, gen := 1, img := imageOf o.data }).endLong o stOK n 0

theorem finishLoad_cases {o : LongOp} {m : Nat} : s.finishLoad o m = s ∨ ∃ n, s.finishLoad o m = (s.dropChain o.id).loadEnds o m n := by
  unfold State.finishLoad
  cases s.chainOf o.id with
  | none =>
    dsimp only
    split
    · exact .inl rfl
    · exact .inr ⟨0, rfl⟩
  | some c =>
    dsimp only
    split
    · exact .inl rfl
    · exact .inr ⟨_, rfl⟩

theorem calm_loadEnds {o : LongOp} {m n : Nat} : Calm F s (s.loadEnds o m n) := by
  unfold State.loadEnds
  split
  · exact calm_failLoad
  · exact calm_trans calm_setModel calm_endLong

theorem calm_finishLoad {o : LongOp} {m : Nat} : Calm F s (s.finishLoad o m) := by
  rcases finishLoad_cases (s := s) (o := o) (m := m) with h | ⟨n, h⟩ <;> rw [h]
  · exact calm_refl
  · exact calm_trans calm_dropChain calm_loadEnds

theorem calm_payCredits {c : Chain} : Calm F s (s.payCredits c) := calm_each fun _ _ _ => calm_setPort ⟨rfl, rfl⟩

theorem calm_giveUpSwap {m : Nat} : Calm F s (s.giveUpSwap m) := by
  unfold State.giveUpSwap
  dsimp only
  split
  · split
    · exact calm_setModel
    · refine calm_trans calm_setModel (calm_each fun t l _ => ?_)
      refine calm_ite (fun _ => calm_setPlace fun hx => ?_) fun _ => calm_refl
      exact ⟨hx, rfl, rfl, rfl, rfl, id, fun _ => rfl, id⟩
  · exact calm_refl

theorem calm_endSwap {o : LongOp} {status detail result : Nat} : Calm F s (s.endSwap o status detail result) :=
  calm_trans (calm_trans calm_dropChain calm_endLong) calm_cairnReplies

theorem calm_leaveChain {c : Chain} : Calm F s (s.leaveChain c) := by
  unfold State.leaveChain
  dsimp only
  refine calm_trans ?_ calm_dropChain
  refine calm_trans ?_ calm_payCredits
  have htold (b : Option Nat) : Calm F s (match b with
      | some m => s.tellChain c m mgChainGone s.myId
      | none => s) := by
    cases b with
    | none => exact calm_refl
    | some m => exact calm_tellChain
  exact calm_ite (fun _ => htold _) fun _ => calm_trans (htold _) calm_tellChain

theorem calm_fenceChain {c : Chain} : Calm F s (s.fenceChain c) := by
  unfold State.fenceChain
  dsimp only
  split
  · exact calm_leaveChain
  · split
    · exact calm_trans calm_leaveChain calm_failLoad
    · split
      · exact calm_trans (calm_trans calm_leaveChain calm_giveUpSwap) calm_endSwap
      · exact calm_trans calm_leaveChain calm_endSwap

theorem calm_raise19 {ps : List Nat} : Calm F s (s.raise19 ps) := calm_each fun _ _ _ => calm_raise

theorem calm_membersGone {c : Chain} {ms : List Nat} : Calm F s (s.membersGone c ms) := by
  unfold State.membersGone
  dsimp only
  split
  · split
    · exact calm_trans calm_setChain calm_finishLoad
    · exact calm_setChain
  · exact calm_setChain

theorem calm_chainLoses {c : Chain} {m : Nat} : Calm F s (s.chainLoses c m) := by
  unfold State.chainLoses
  dsimp only
  split
  · exact calm_fenceChain
  · split
    · exact calm_refl
    · generalize hv : s.each _ _ = v
      have htold : Calm F s v := hv ▸ calm_each fun _ _ _ => calm_tellChain
      split
      · exact calm_trans htold calm_membersGone
      · split
        · exact calm_trans (calm_trans htold calm_setChain) (calm_each fun _ _ _ => calm_tellChain)
        · exact calm_trans htold calm_setChain

/-! ## Losses -/

theorem calm_lost {x : Fabric} (h : ∀ m ∈ s.fabric.lost, m ∈ x.lost) : Calm F s { s with fabric := x } :=
  ⟨fun _ _ _ => rfl, rfl, h, fun _ => ⟨rfl, rfl⟩, fun _ => staysAs_refl, id⟩

theorem calm_moduleLost {m : Nat} (hF : F) : Calm F s (s.moduleLost m) := by
  unfold State.moduleLost
  dsimp only
  refine calm_trans ?_ (calm_each fun _ _ _ => calm_chainLoses)
  refine calm_trans ?_ (calm_each fun _ _ _ => calm_fencePlace hF)
  refine calm_lost fun k hk => ?_
  by_cases hkm : k = m
  · exact hkm ▸ List.mem_cons_self
  · exact List.mem_cons_of_mem _ (List.mem_filter.mpr ⟨hk, bne_iff_ne.mpr hkm⟩)

theorem calm_releaseHeld : Calm F s s.releaseHeld := calm_trans calm_twin (calm_each fun _ _ _ => calm_post)

theorem calm_degrade {cause : Nat} : Calm F s (s.degrade cause) := by
  unfold State.degrade
  dsimp only
  split
  · exact calm_refl
  · refine calm_trans ?_ calm_raise19
    refine calm_trans ?_ calm_releaseHeld
    exact calm_trans (calm_setFld (apart_of_reg (apartReg_of_high (by decide)))) (calm_setFld (apart_of_reg (apartReg_of_high (by decide))))

theorem calm_afterLoss {n : Nat} (hF : F) : Calm F s (s.afterLoss n) := by
  unfold State.afterLoss
  dsimp only
  generalize hv : (s.raise19 _).each _ _ = v
  have hlost : Calm F s v := hv ▸ calm_trans calm_raise19 (calm_each fun _ _ _ => calm_moduleLost hF)
  exact calm_ite (fun _ => calm_trans hlost calm_degrade) fun _ => hlost

end Sys2Proof.Machine

end

section
/-! PROOFS. The stripe of a port (R368, R369): its lanes' registers, the map that takes effect, and the map that training finds. -/

namespace Sys2Proof.Machine

variable {s t u : State} {n map : Nat}

/-! ## Registers of lanes -/

/-- A register below those of the lanes. -/
def belowLanes (k : Nat) : Prop := k < 0xF2000

theorem not_belowLanes_laneReg {m : Nat} : ¬belowLanes (laneReg n m).key := by
  simp only [belowLanes, laneReg, Reg.LNK_LANE]
  omega

theorem laneReg_inj {a b : Nat} (h : (laneReg n a).key = (laneReg n b).key) : a = b := by
  simp only [laneReg, Reg.LNK_LANE] at h
  omega

theorem belowLanes_portStat (hn : n < 24) : belowLanes (Reg.LNK_PORT_STAT n).key := by
  simp only [belowLanes, Reg.LNK_PORT_STAT]
  omega

/-- Registers of lanes alone differ. -/
def State.lanesOnly (s t : State) : Prop := t = { s with regs := t.regs } ∧ s.keepsRegs t belowLanes

theorem lanesOnly_refl : s.lanesOnly s := ⟨rfl, keepsRegs_refl⟩

theorem lanesOnly_trans (h : s.lanesOnly t) (k : t.lanesOnly u) : s.lanesOnly u := ⟨regs_frame_trans h.1 k.1, keepsRegs_trans h.2 k.2⟩

theorem lanesOnly_setFld {m : Nat} {f : Field} {x : Nat} : s.lanesOnly (s.setFld (laneReg n m) f x) := ⟨rfl, keepsRegs_setFld not_belowLanes_laneReg⟩

theorem lanesOnly_each {α : Type} {xs : List α} {g : State → α → State} (hg : ∀ (t : State) x, x ∈ xs → t.lanesOnly (g t x)) : s.lanesOnly (s.each xs g) :=
  each_induction (P := s.lanesOnly) lanesOnly_refl fun t x hx ht => lanesOnly_trans ht (hg t x hx)

theorem lanesOnly_markLanes : s.lanesOnly (s.markLanes n map) := lanesOnly_each fun _ _ _ => lanesOnly_setFld

theorem lanesOnly_laneFigures {m : Nat} {g : Nat × Nat × Nat} {ok : Bool} : s.lanesOnly (s.laneFigures (17 * n + m) g ok) := by
  unfold State.laneFigures
  dsimp only
  exact lanesOnly_trans (lanesOnly_trans (lanesOnly_trans (lanesOnly_setFld (n := n)) (lanesOnly_setFld (n := n))) (lanesOnly_setFld (n := n)))
    (lanesOnly_setFld (n := n))

theorem lanesOnly_testLanes {ts : List LaneTest} : s.lanesOnly (s.testLanes n ts) := lanesOnly_each fun _ _ _ => lanesOnly_laneFigures

theorem lanesOnly_markFailed : s.lanesOnly (s.markFailed n map) := lanesOnly_each fun _ _ _ => lanesOnly_setFld

theorem lanesOnly_fld {r : RegRef} {f : Field} (h : s.lanesOnly t) (hr : belowLanes r.key) : t.fld r f = s.fld r f := keepsRegs_fld h.2 hr

theorem minLanes_of_fld (h : t.fld Reg.LNK_CFG Fld.LNK_CFG_MIN_LANES = s.fld Reg.LNK_CFG Fld.LNK_CFG_MIN_LANES) : t.minLanes = s.minLanes := by
  rw [State.minLanes, h, State.minLanes]

/-- A field set once for each of several registers holds there what was set. -/
theorem each_setFld_fld {xs : List Nat} {reg : Nat → RegRef} {f : Field} {val : State → Nat → Nat} {m v : Nat}
    (hinj : ∀ a, (reg a).key = (reg m).key → a = m) (hf : f.lo + f.w ≤ 64) (hval : ∀ t : State, val t m = v) (hm : m ∈ xs) :
    (s.each xs fun s k => s.setFld (reg k) f (val s k)).fld (reg m) f = v % 2 ^ f.w := by
  induction xs generalizing s with
  | nil => exact absurd hm List.not_mem_nil
  | cons x xs ih =>
    by_cases hlater : m ∈ xs
    · exact ih hlater
    · obtain rfl : m = x := by
        rcases List.mem_cons.mp hm with h | h
        · exact h
        · exact absurd h hlater
      have hkeep : (s.setFld (reg m) f (val s m)).keepsRegs ((s.setFld (reg m) f (val s m)).each xs fun s k => s.setFld (reg k) f (val s k))
          (fun k => k = (reg m).key) :=
        each_induction (P := fun t => (s.setFld (reg m) f (val s m)).keepsRegs t fun k => k = (reg m).key) keepsRegs_refl
          fun t y hy ht => keepsRegs_trans ht (keepsRegs_setFld fun hk => hlater (hinj y hk ▸ hy))
      exact (keepsRegs_fld hkeep rfl).trans ((State.fld_setFld_self hf).trans (by rw [hval]))

theorem markLanes_laneSt {m : Nat} (hm : m < 17) (hin : bitOf map m = true) : (s.markLanes n map).laneSt n m = 0 :=
  each_setFld_fld (reg := laneReg n) (fun _ ha => laneReg_inj ha) (by decide) (v := 0)
    (fun t => by rw [if_pos hin]) (List.mem_range.mpr hm)

/-! ## The map that takes effect -/

theorem txLoop_sends {k : Nat} : s.fabricOnly (State.txLoop n k s) ∧
    ∃ cr w p, (State.txLoop n k s).port n = { s.port n with credits := cr, txWait := w, txPtr := p } := by
  induction k generalizing s with
  | zero => exact ⟨rfl, _, _, _, rfl⟩
  | succ k ih =>
    rw [State.txLoop]
    dsimp only
    split
    · split
      · generalize hv : ({ State.setPort _ _ _ with fabric := _ } : State) = v
        obtain ⟨honly, cr, w, p, hport⟩ := ih (s := v)
        have hset : s.fabricOnly v := by rw [← hv]; rfl
        refine ⟨fabricOnly_trans hset honly, cr, w, p, ?_⟩
        rw [hport, ← hv]
        show ({ (s.setPort n _).port n with credits := cr, txWait := w, txPtr := p } : Port) = _
        rw [State.port_setPort_self]
      · exact ⟨rfl, _, _, _, rfl⟩
    · exact ⟨rfl, _, _, _, rfl⟩

/-- Protected mode ends: the port's own count of its frames goes on, and what waited may go. -/
theorem endProt_spec : s.endProt n = { s with regs := (s.endProt n).regs, ports := (s.endProt n).ports, fabric := (s.endProt n).fabric } ∧
    (s.endProt n).regs = (s.setFlag (Reg.LNK_PORT_STAT n) Fld.LNK_PORT_STAT_PROT false).regs ∧
    ∃ a cr w p, (s.endProt n).port n = { s.port n with upAt := a, credits := cr, txWait := w, txPtr := p } := by
  unfold State.endProt
  dsimp only
  generalize hv : (s.setPort n _).setFlag (Reg.LNK_PORT_STAT n) Fld.LNK_PORT_STAT_PROT false = v
  have hframe : v = { s with regs := v.regs, ports := v.ports } := by rw [← hv]; rfl
  have hregs : v.regs = (s.setFlag (Reg.LNK_PORT_STAT n) Fld.LNK_PORT_STAT_PROT false).regs := by rw [← hv]; rfl
  have hport : v.port n = { s.port n with upAt := s.now - s.frameNo n * 25 / 2 } := by
    rw [← hv, State.setFlag_port_acc, State.port_setPort_self]
  obtain ⟨honly, cr, w, p, hsent⟩ := txLoop_sends (s := v) (n := n) (k := (s.port n).txWait.length)
  generalize State.txLoop n (s.port n).txWait.length v = t at honly hsent ⊢
  have htregs : t.regs = v.regs := by rw [honly]
  refine ⟨?_, htregs.trans hregs, _, cr, w, p, by rw [hsent, hport]⟩
  rw [htregs]
  exact honly.trans (by rw [hframe])

/-- A stripe takes effect, before the port goes DOWN where it is too narrow. -/
def State.mapSet (s : State) (n map : Nat) : State :=
  ((((s.endProt n).setPort n { (s.endProt n).port n with laneMap := map, mapNext := none }).markLanes n map).setFld (Reg.LNK_PORT_STAT n)
    Fld.LNK_PORT_STAT_LANES (laneCount map)).setFlag (Reg.LNK_PORT_STAT n) Fld.LNK_PORT_STAT_SPARE_USED (bitOf map 16)

theorem applyMap_eq : s.applyMap n map = if laneCount map < (s.mapSet n map).minLanes then (s.mapSet n map).portDown n 3 else s.mapSet n map := rfl

theorem laneCount_lt : laneCount map < 32 :=
  Nat.lt_of_le_of_lt (List.length_filter_le _ _) (by rw [List.length_range]; decide)

/-- What a stripe that takes effect leaves. -/
structure State.stripeSet (s t : State) (n map : Nat) : Prop where
  frame : t = { s with regs := t.regs, ports := t.ports, fabric := t.fabric }
  laneMap : (t.port n).laneMap = map
  mapNext : (t.port n).mapNext = none
  rxMap : (t.port n).rxMap = (s.port n).rxMap
  rxMapNext : (t.port n).rxMapNext = (s.port n).rxMapNext
  lanes : t.fld (Reg.LNK_PORT_STAT n) Fld.LNK_PORT_STAT_LANES = laneCount map
  spare : t.flag (Reg.LNK_PORT_STAT n) Fld.LNK_PORT_STAT_SPARE_USED = bitOf map 16
  prot : t.flag (Reg.LNK_PORT_STAT n) Fld.LNK_PORT_STAT_PROT = false
  state : t.portSt n = s.portSt n
  laneSt : ∀ m, m < 17 → bitOf map m = true → t.laneSt n m = 0
  minLanes : t.minLanes = s.minLanes

theorem ports_frame_regs (h : t = { s with regs := t.regs, ports := t.ports, fabric := t.fabric }) (hu : u = { t with regs := u.regs }) :
    u = { s with regs := u.regs, ports := u.ports, fabric := u.fabric } := by
  have hports : u.ports = t.ports := by rw [hu]
  have hfabric : u.fabric = t.fabric := by rw [hu]
  rw [hports, hfabric]
  exact hu.trans (by rw [h])

theorem mapSet_stripeSet (hn : n < 24) : s.stripeSet (s.mapSet n map) n map := by
  obtain ⟨hframe, hregs, a, cr, w, p, hport⟩ := endProt_spec (s := s) (n := n)
  unfold State.mapSet
  generalize s.endProt n = v at hframe hregs hport ⊢
  generalize hw : v.setPort n _ = z
  have hzregs : z.regs = v.regs := by rw [← hw]; rfl
  have hzport : z.port n = { v.port n with laneMap := map, mapNext := none } := by rw [← hw, State.port_setPort_self]
  have hzframe : z = { s with regs := z.regs, ports := z.ports, fabric := z.fabric } := by rw [← hw, hframe]; rfl
  have hmarked := lanesOnly_markLanes (s := z) (n := n) (map := map)
  have hlanes := fun m hm hin => markLanes_laneSt (s := z) (n := n) (map := map) (m := m) hm hin
  generalize z.markLanes n map = y at hmarked hlanes ⊢
  have hstat : ∀ f, y.fld (Reg.LNK_PORT_STAT n) f = (s.setFlag (Reg.LNK_PORT_STAT n) Fld.LNK_PORT_STAT_PROT false).fld (Reg.LNK_PORT_STAT n) f :=
    fun f => (lanesOnly_fld hmarked (belowLanes_portStat hn)).trans (State.fld_of_regs (hzregs.trans hregs))
  have hcfg : y.fld Reg.LNK_CFG Fld.LNK_CFG_MIN_LANES = s.fld Reg.LNK_CFG Fld.LNK_CFG_MIN_LANES :=
    (lanesOnly_fld hmarked (by simp [belowLanes, Reg.LNK_CFG])).trans ((State.fld_of_regs (hzregs.trans hregs)).trans
      (State.fld_setFlag_ne (by simp only [Reg.LNK_CFG, Reg.LNK_PORT_STAT]; omega)))
  have hyport : y.port n = z.port n := by rw [hmarked.1]; rfl
  have hcfgKey : Reg.LNK_CFG.key ≠ (Reg.LNK_PORT_STAT n).key := by simp only [Reg.LNK_CFG, Reg.LNK_PORT_STAT]; omega
  constructor
  case frame => exact ports_frame_regs hzframe (regs_frame_trans hmarked.1 (regs_frame_trans setFld_frame setFld_frame))
  case laneMap => rw [State.setFlag_port_acc, State.setFld_port_acc, hyport, hzport]
  case mapNext => rw [State.setFlag_port_acc, State.setFld_port_acc, hyport, hzport]
  case rxMap => rw [State.setFlag_port_acc, State.setFld_port_acc, hyport, hzport, hport]
  case rxMapNext => rw [State.setFlag_port_acc, State.setFld_port_acc, hyport, hzport, hport]
  case lanes =>
    rw [State.fld_setFlag_of_disjoint (by decide), State.fld_setFld_self (by decide)]
    exact Nat.mod_eq_of_lt laneCount_lt
  case spare => exact State.flag_setFlag_self (by decide) rfl
  case prot =>
    rw [State.flag, State.fld_setFlag_of_disjoint (by decide), State.fld_setFld_of_disjoint (by decide), hstat]
    exact State.flag_setFlag_self (by decide) rfl
  case state =>
    rw [State.portSt, State.fld_setFlag_of_disjoint (by decide), State.fld_setFld_of_disjoint (by decide), hstat,
      State.fld_setFlag_of_disjoint (by decide), State.portSt]
  case laneSt =>
    intro m hm hin
    have hne : (laneReg n m).key ≠ (Reg.LNK_PORT_STAT n).key := fun h => not_belowLanes_laneReg (h ▸ belowLanes_portStat hn)
    rw [State.laneSt, State.fld_setFlag_ne hne, State.fld_setFld_ne hne]
    exact hlanes m hm hin
  case minLanes => exact minLanes_of_fld ((State.fld_setFlag_ne hcfgKey).trans ((State.fld_setFld_ne hcfgKey).trans hcfg))

/-! ## The map that training finds -/

theorem sum_pow_filter_lt (g : Nat → Bool) (k : Nat) : (((List.range k).filter g).map fun m => 2 ^ m).sum < 2 ^ k := by
  induction k with
  | zero => simp
  | succ k ih =>
    rw [List.range_succ, List.filter_append, List.map_append, List.sum_append, pow_succ]
    cases hg : g k
    · simp only [List.filter_cons, hg, List.filter_nil, Bool.false_eq_true, if_false, List.map_nil, List.sum_nil]
      omega
    · simp only [List.filter_cons, hg, List.filter_nil, if_true, List.map_cons, List.map_nil, List.sum_cons, List.sum_nil]
      omega

theorem bitOf_add_pow {v k m : Nat} (hv : v < 2 ^ k) (h : bitOf (v + 2 ^ k) m = true) : bitOf v m = true ∨ m = k := by
  rw [bitOf, beq_iff_eq] at h
  rw [bitOf, beq_iff_eq]
  rcases Nat.lt_trichotomy m k with hlt | rfl | hgt
  · left
    obtain ⟨d, rfl⟩ : ∃ d, k = m + 1 + d := ⟨k - (m + 1), by omega⟩
    have hsplit : 2 ^ (m + 1 + d) = 2 ^ m * (2 * 2 ^ d) := by rw [pow_add, pow_succ]; ring
    rw [hsplit, Nat.add_mul_div_left _ _ (Nat.two_pow_pos m), Nat.add_mul_mod_self_left] at h
    exact h
  · exact .inr rfl
  · exfalso
    have hle : 2 ^ (k + 1) ≤ 2 ^ m := Nat.pow_le_pow_right (by decide) hgt
    rw [pow_succ] at hle
    rw [Nat.div_eq_of_lt (by omega)] at h
    exact absurd h (by decide)

theorem bitOf_zero_false {m : Nat} : bitOf 0 m = false := by simp [bitOf]

/-- A map made of the bits that a test picks has no other bit. -/
theorem bitOf_sum_pow {g : Nat → Bool} {k m : Nat} (h : bitOf (((List.range k).filter g).map fun m => 2 ^ m).sum m = true) : g m = true := by
  induction k with
  | zero => exact absurd h (by rw [show (((List.range 0).filter g).map fun m => 2 ^ m).sum = 0 from rfl, bitOf_zero_false]; decide)
  | succ k ih =>
    rw [List.range_succ, List.filter_append, List.map_append, List.sum_append] at h
    cases hg : g k
    · simp only [List.filter_cons, hg, List.filter_nil, Bool.false_eq_true, if_false, List.map_nil, List.sum_nil, Nat.add_zero] at h
      exact ih h
    · simp only [List.filter_cons, hg, List.filter_nil, if_true, List.map_cons, List.map_nil, List.sum_cons, List.sum_nil, Nat.add_zero] at h
      rcases bitOf_add_pow (sum_pow_filter_lt g k) h with h | rfl
      · exact ih h
      · exact hg

/-- Every lane of the first stripe is lit and has passed its test. -/
theorem firstMap_good {m : Nat} (h : bitOf (s.firstMap n) m = true) : s.laneLit n m = true ∧ s.flag (laneReg n m) Fld.LNK_LANE_TESTED = true := by
  rw [← Bool.and_eq_true]
  unfold State.firstMap at h
  dsimp only at h
  split at h
  next hspare =>
    rcases bitOf_add_pow (sum_pow_filter_lt _ 16) h with h | rfl
    · exact bitOf_sum_pow (g := fun m => s.laneLit n m && s.flag (laneReg n m) Fld.LNK_LANE_TESTED) h
    · rw [Bool.and_eq_true] at hspare
      exact hspare.2
  next => exact bitOf_sum_pow (g := fun m => s.laneLit n m && s.flag (laneReg n m) Fld.LNK_LANE_TESTED) h

end Sys2Proof.Machine

end

section
/-! PROOFS. Ports that train and go DOWN (R359, R368, R369, R371, R379, R383). -/

namespace Sys2Proof.Machine

variable {s t u b : State} {n map : Nat}

/-! ## A port that goes DOWN -/

theorem calmFld_portStat {f : Field} (hn : n < 24) (hf : f.lo + f.w ≤ 10) : calmFld (Reg.LNK_PORT_STAT n) f := .inr ⟨n, hn, rfl, hf⟩

theorem portOff_lanes {st : Nat} : (s.portOff n st).fld (Reg.LNK_PORT_STAT n) Fld.LNK_PORT_STAT_LANES = 0 := by
  rw [State.fld_of_regs portOff_regs, State.portStatOff, State.fld_setFlag_of_disjoint (by decide), State.fld_setFlag_of_disjoint (by decide),
    State.fld_setFld_self (by decide)]
  rfl

theorem calm_portDown {st : Nat} : Calm True (s.portOff n st) (s.portDown n st) := by
  unfold State.portDown
  exact calm_ite (fun _ => calm_afterLoss trivial) fun _ => calm_refl

/-- A port that goes DOWN carries nothing. -/
theorem portDown_spec (hn : n < 24) : (s.portDown n 3).portSt n = 3 ∧ (s.portDown n 3).fld (Reg.LNK_PORT_STAT n) Fld.LNK_PORT_STAT_LANES = 0 ∧
    ((s.portDown n 3).port n).downAt = s.now ∧ ((s.portDown n 3).port n).rxMsgs = [] := by
  have hcalm := calm_portDown (s := s) (n := n) (st := 3)
  obtain ⟨hdown, hmsgs⟩ := hcalm.port n
  refine ⟨(hcalm.flds _ _ (calmFld_portStat hn (by decide))).trans (portOff_portSt (by decide)),
    (hcalm.flds _ _ (calmFld_portStat hn (by decide))).trans portOff_lanes, hdown.trans ?_, hmsgs.trans ?_⟩
  · rw [portOff_port_self]
    rfl
  · rw [portOff_port_self]
    rfl

theorem lanesOnly_now (h : s.lanesOnly t) : t.now = s.now := by rw [h.1]

/-! ## The last twin port -/

theorem portRole_portOff {st k : Nat} (hn : n < 24) (hk : k < 24) : (s.portOff n st).portRole k = s.portRole k := by
  have hne : (Reg.LNK_PORT_CFG k).key ≠ (Reg.LNK_PORT_STAT n).key := by
    simp only [Reg.LNK_PORT_CFG, Reg.LNK_PORT_STAT]
    omega
  rw [State.portRole, State.fld_of_regs portOff_regs, State.portStatOff, State.fld_setFlag_ne hne, State.fld_setFlag_ne hne, State.fld_setFld_ne hne,
    State.fld_setFld_ne hne, State.portRole]

theorem portSt_portOff_ne {st k : Nat} (hne : k ≠ n) : (s.portOff n st).portSt k = s.portSt k := by
  have hkey : (Reg.LNK_PORT_STAT k).key ≠ (Reg.LNK_PORT_STAT n).key := by
    simp only [Reg.LNK_PORT_STAT]
    omega
  rw [State.portSt, State.fld_of_regs portOff_regs, State.portStatOff, State.fld_setFlag_ne hkey, State.fld_setFlag_ne hkey,
    State.fld_setFld_ne hkey, State.fld_setFld_ne hkey, State.portSt]

/-- With the last twin port DOWN no twin port is UP. -/
theorem upPorts_portOff (hn : n < 24) (hup : s.upPorts 3 = [n]) : (s.portOff n 3).upPorts 3 = [] := by
  refine List.filter_eq_nil_iff.mpr fun k hk => ?_
  have hk24 := List.mem_range.mp hk
  rw [portRole_portOff hn hk24]
  by_cases hkn : k = n
  · rw [hkn, portOff_portSt (by decide)]
    simp
  · rw [portSt_portOff_ne hkn]
    intro h
    have hmem : k ∈ s.upPorts 3 := List.mem_filter.mpr ⟨hk, h⟩
    rw [hup] at hmem
    exact hkn (List.mem_singleton.mp hmem)

/-- The loss of a twin port reaches no module of a route. -/
theorem afterLoss_of_twin (hrole : s.portRole n = 3) (hup : s.upPorts 3 = []) : s.afterLoss n = s.degrade 1 := by
  unfold State.afterLoss
  simp only [hrole, hup]
  have hnone (ms : List Nat) : ms.filter (fun m => if 3 = 1 then m == s.farId n else
      3 == 2 && !((List.range 24).any fun k => s.portRole k == 1 && s.farId k == m)) = [] := List.filter_eq_nil_iff.mpr fun m _ => by simp
  rw [hnone]
  show (if s.portRole n = 3 && (s.upPorts 3).isEmpty then s.degrade 1 else s) = _
  rw [hrole, hup]
  rfl

theorem twnStat_not_rings : offRings fun k => k = Reg.TWN_STAT.key := by
  refine ⟨fun f h => ?_, fun f r h => ?_⟩
  · have hkey : (Reg.SCH_FN_STAT f).key = Reg.TWN_STAT.key := h
    simp only [Reg.SCH_FN_STAT, Reg.TWN_STAT] at hkey
    omega
  · have hkey : (Reg.SCH_RING_STAT f r).key = Reg.TWN_STAT.key := h
    simp only [Reg.SCH_RING_STAT, Reg.TWN_STAT] at hkey
    omega

theorem releaseHeld_repliesOnly : { s with twin := { s.twin with heldOut := [] } }.repliesOnly s.releaseHeld :=
  repliesOnly_each fun _ _ _ => repliesOnly_post

theorem raise19_regs {ps : List Nat} : (s.raise19 ps).regs = s.regs :=
  each_induction (P := fun t => t.regs = s.regs) rfl fun t x _ ht => State.raise_regs.trans ht

/-- A DEGRADED pair shows its cause. -/
theorem degrade_spec (h : s.twinSt = 2) : (s.degrade 1).twinSt = 3 ∧ (s.degrade 1).fld Reg.TWN_STAT Fld.TWN_STAT_CAUSE = 1 := by
  unfold State.degrade
  rw [if_neg (by rw [h]; decide)]
  dsimp only
  generalize hv : (s.setFld Reg.TWN_STAT Fld.TWN_STAT_STATE 3).setFld Reg.TWN_STAT Fld.TWN_STAT_CAUSE 1 = v
  have hstate : v.twinSt = 3 := by
    rw [← hv, State.twinSt, State.fld_setFld_of_disjoint (by decide), State.fld_setFld_self (by decide)]
    rfl
  have hcause : v.fld Reg.TWN_STAT Fld.TWN_STAT_CAUSE = 1 := by
    rw [← hv, State.fld_setFld_self (by decide)]
    rfl
  have hkeep : ∀ f, (v.releaseHeld.raise19 v.replicaParts).fld Reg.TWN_STAT f = v.fld Reg.TWN_STAT f := fun f =>
    (State.fld_of_regs raise19_regs).trans ((keepsRegs_fld (releaseHeld_repliesOnly.2 _ twnStat_not_rings) rfl).trans (State.fld_of_regs rfl))
  exact ⟨(hkeep _).trans hstate, (hkeep _).trans hcause⟩

theorem twinSt_portOff {st : Nat} (hn : n < 24) : (s.portOff n st).twinSt = s.twinSt := by
  have hne : Reg.TWN_STAT.key ≠ (Reg.LNK_PORT_STAT n).key := by
    simp only [Reg.TWN_STAT, Reg.LNK_PORT_STAT]
    omega
  rw [State.twinSt, State.fld_of_regs portOff_regs, State.portStatOff, State.fld_setFlag_ne hne, State.fld_setFlag_ne hne, State.fld_setFld_ne hne,
    State.fld_setFld_ne hne, State.twinSt]

/-- With the last twin port the pair is DEGRADED with CAUSE 1. -/
theorem portDown_twin (hn : n < 24) (hst : s.portSt n = 2) (hrole : s.portRole n = 3) (hup : s.upPorts 3 = [n]) (htwin : s.twinSt = 2) :
    (s.portDown n 3).twinSt = 3 ∧ (s.portDown n 3).fld Reg.TWN_STAT Fld.TWN_STAT_CAUSE = 1 := by
  have hdown : s.portDown n 3 = (s.portOff n 3).afterLoss n := if_pos hst
  rw [hdown, afterLoss_of_twin ((portRole_portOff hn hn).trans hrole) (upPorts_portOff hn hup)]
  exact degrade_spec ((twinSt_portOff hn).trans htwin)

theorem portRetrain_trains (hst : s.portSt n = 3) : (s.trainPort n).portSt n = 1 ∧
    s.trainPort n = { s with regs := (s.trainPort n).regs, ports := (s.trainPort n).ports } := by
  have htrain : s.trainPort n = s.portOff n 1 := if_neg (by rw [hst]; decide)
  rw [htrain]
  exact ⟨portOff_portSt (by decide), portOff_frame⟩

/-! ## Stripes -/

/-- The stripe that port n has announced takes effect with the frame in hand. -/
def State.ownDue (s : State) (n map : Nat) : Bool :=
  match (s.port n).mapNext with
  | some (k, m) => m == map && decide (k ≤ s.frameNo n)
  | none => false

/-- The stripe that the far end has announced takes effect with the frame in hand. -/
def State.farDue (s : State) (n map : Nat) : Bool :=
  match (s.port n).rxMapNext with
  | some (k, m) => m == map && decide (unsigned 32 (((s.port n).rxNext : Int) - k) < 2 ^ 31)
  | none => false

theorem ownDue_iff : s.ownDue n map = true ↔ ∃ k, (s.port n).mapNext = some (k, map) ∧ k ≤ s.frameNo n := by
  unfold State.ownDue
  cases (s.port n).mapNext with
  | none => simp
  | some e =>
    obtain ⟨k, m⟩ := e
    simp only [Bool.and_eq_true, beq_iff_eq, decide_eq_true_eq, Option.some.injEq, Prod.mk.injEq]
    exact ⟨fun ⟨h1, h2⟩ => ⟨k, ⟨rfl, h1⟩, h2⟩, fun ⟨_, ⟨h1, h2⟩, h3⟩ => ⟨h2, h1 ▸ h3⟩⟩

theorem farDue_iff : s.farDue n map = true ↔ ∃ k, (s.port n).rxMapNext = some (k, map) ∧ unsigned 32 (((s.port n).rxNext : Int) - k) < 2 ^ 31 := by
  unfold State.farDue
  cases (s.port n).rxMapNext with
  | none => simp
  | some e =>
    obtain ⟨k, m⟩ := e
    simp only [Bool.and_eq_true, beq_iff_eq, decide_eq_true_eq, Option.some.injEq, Prod.mk.injEq]
    exact ⟨fun ⟨h1, h2⟩ => ⟨k, ⟨rfl, h1⟩, h2⟩, fun ⟨_, ⟨h1, h2⟩, h3⟩ => ⟨h2, h1 ▸ h3⟩⟩

/-- The far end's stripe where it is due. -/
def State.farSet (s : State) (n map : Nat) : State :=
  if s.farDue n map then s.setPort n { s.port n with rxMap := map, rxMapNext := none } else s

theorem exec_laneRemap {lm : BitVec 17} {at_ : Nat} (hn : n < 24) (hb : b = s.tick at_) : exec (.laneRemap n lm at_) s =
    .next (if b.ownDue n lm.toNat then (b.farSet n lm.toNat).applyMap n lm.toNat else b.farSet n lm.toNat) := by
  show execLaneRemap n lm at_ s = _
  unfold execLaneRemap
  dsimp only
  rw [← hb, decide_eq_true hn]
  rfl

theorem farSet_of_not (h : ¬s.farDue n map = true) : s.farSet n map = s := if_neg h

theorem farSet_of_due (h : s.farDue n map = true) : s.farSet n map = s.setPort n { s.port n with rxMap := map, rxMapNext := none } := if_pos h

theorem fld_setPort {k : Nat} {x : Port} {r : RegRef} {f : Field} : (s.setPort k x).fld r f = s.fld r f := rfl

/-- The far end's stripe changes nothing of this end's. -/
theorem farSet_keeps : s.farSet n map = { s with ports := (s.farSet n map).ports } := by
  unfold State.farSet
  split <;> rfl

theorem farSet_rxMap (h : s.farDue n map = true) : ((s.farSet n map).port n).rxMap = map ∧ ((s.farSet n map).port n).rxMapNext = none := by
  rw [farSet_of_due h, State.port_setPort_self]
  exact ⟨rfl, rfl⟩

theorem farSet_fld {r : RegRef} {f : Field} : (s.farSet n map).fld r f = s.fld r f := State.fld_of_regs (by rw [farSet_keeps])

/-- A stripe wide enough takes effect with the far end's, and the port stays as it is. -/
theorem applyMap_of_wide (hn : n < 24) (h : s.minLanes ≤ laneCount map) : (s.farSet n map).applyMap n map = (s.farSet n map).mapSet n map ∧
    (s.farSet n map).stripeSet ((s.farSet n map).mapSet n map) n map := by
  have hset := mapSet_stripeSet (s := s.farSet n map) (map := map) hn
  have hmin : (s.farSet n map).minLanes = s.minLanes := minLanes_of_fld farSet_fld
  refine ⟨?_, hset⟩
  rw [applyMap_eq, hset.minLanes, hmin, if_neg (Nat.not_lt.mpr h)]

/-- A stripe too narrow takes the port down. -/
theorem applyMap_of_narrow (hn : n < 24) (h : laneCount map < s.minLanes) :
    (s.farSet n map).applyMap n map = ((s.farSet n map).mapSet n map).portDown n 3 ∧ ((s.farSet n map).mapSet n map).now = s.now := by
  have hset := mapSet_stripeSet (s := s.farSet n map) (map := map) hn
  have hmin : (s.farSet n map).minLanes = s.minLanes := minLanes_of_fld farSet_fld
  have hnow : (s.farSet n map).now = s.now := by rw [farSet_keeps]
  refine ⟨?_, ?_⟩
  · rw [applyMap_eq, hset.minLanes, hmin, if_pos h]
  · rw [hset.frame]
    exact hnow

/-! ## Training -/

theorem longOnly_joinEnds : s.longOnly (s.joinEnds n) := by
  unfold State.joinEnds
  refine longOnly_each fun t o _ => ?_
  split
  · split
    · dsimp only
      split
      · exact longOnly_trans longOnly_advanceLong longOnly_endLong
      · exact longOnly_advanceLong
    · exact longOnly_refl
  · exact longOnly_refl

/-- What FABRIC_JOINs are told changes nothing of a port. -/
theorem joinEnds_keeps {f : Field} (hn : n < 24) : (s.joinEnds n).fld (Reg.LNK_PORT_STAT n) f = s.fld (Reg.LNK_PORT_STAT n) f ∧
    (s.joinEnds n).port n = s.port n :=
  ⟨keepsRegs_fld (longOnly_joinEnds.2 calmKey offRings_calmKey) (.inr ⟨n, hn, rfl⟩), by rw [longOnly_joinEnds.1]; rfl⟩

theorem exec_trainingComplete {res : TrainEnd} {at_ : Nat} (hn : n < 24) : exec (.trainingComplete n res at_) s =
    .next (if (s.tick at_).portSt n ≠ 1 then s.tick at_ else ((s.tick at_).trainEnds n res).joinEnds n) := by
  show execTrainingComplete n res at_ s = _
  unfold execTrainingComplete
  dsimp only
  generalize s.tick at_ = b
  rw [decide_eq_true hn]
  rfl

/-- The state of a port that is set, and then told. -/
theorem trained_state {st : Nat} (hn : n < 24) (hst : st < 8) : ((s.setFld (Reg.LNK_PORT_STAT n) Fld.LNK_PORT_STAT_STATE st).joinEnds n).portSt n = st := by
  rw [State.portSt, (joinEnds_keeps hn).1, State.fld_setFld_self (by decide)]
  exact Nat.mod_eq_of_lt hst

/-- A port that trained in vain is DOWN. -/
theorem trained_down {x : Port} (hn : n < 24) (hx : x.downAt = b.now) :
    (((s.setFld (Reg.LNK_PORT_STAT n) Fld.LNK_PORT_STAT_STATE 3).setPort n x).joinEnds n).portSt n = 3 ∧
      ((((s.setFld (Reg.LNK_PORT_STAT n) Fld.LNK_PORT_STAT_STATE 3).setPort n x).joinEnds n).port n).downAt = b.now := by
  rw [State.portSt, (joinEnds_keeps hn).1, (joinEnds_keeps (f := Fld.LNK_PORT_STAT_STATE) hn).2, State.port_setPort_self]
  rw [fld_setPort, State.fld_setFld_self (by decide)]
  exact ⟨rfl, hx⟩

theorem exec_frameAlignmentLoss {at_ : Nat} (hn : n < 24) : exec (.frameAlignmentLoss n at_) s =
    .next (if (s.tick at_).portSt n = 2 then (s.tick at_).portDown n 3 else s.tick at_) := by
  show execFrameAlignmentLoss n at_ s = _
  unfold execFrameAlignmentLoss
  dsimp only
  generalize s.tick at_ = b
  rw [decide_eq_true hn]
  rfl

theorem exec_portRetrain {at_ : Nat} (hn : n < 24) : exec (.portRetrain n at_) s =
    .next (if (s.tick at_).portSt n = 3 && (s.tick at_).flag (Reg.LNK_PORT_CFG n) Fld.LNK_PORT_CFG_EN &&
      ((s.tick at_).port n).downAt + 10000000 ≤ (s.tick at_).now then (s.tick at_).trainPort n else s.tick at_) := by
  show execPortRetrain n at_ s = _
  unfold execPortRetrain
  dsimp only
  generalize s.tick at_ = b
  rw [decide_eq_true hn]
  rfl

theorem undegrade_regs {k : Nat} : s.keepsRegs (s.undegrade k) (fun k => k ≠ Reg.TWN_STAT.key) ∧ (s.undegrade k).port n = s.port n := by
  unfold State.undegrade
  split
  · exact ⟨keepsRegs_trans (keepsRegs_setFld fun h => h rfl) (keepsRegs_setFld fun h => h rfl), by rw [State.setFld_port_acc, State.setFld_port_acc]⟩
  · exact ⟨keepsRegs_refl, rfl⟩

/-- The registers of port n as it comes UP. -/
def State.statUp (s : State) (n : Nat) (far : Word64) (map : Nat) : State :=
  (((s.setFld (Reg.LNK_PORT_STAT n) Fld.LNK_PORT_STAT_STATE 2).setFld (Reg.LNK_PORT_STAT n) Fld.LNK_PORT_STAT_LANES (laneCount map)).setFlag
    (Reg.LNK_PORT_STAT n) Fld.LNK_PORT_STAT_SPARE_USED (bitOf map 16)).setFld (Reg.LNK_PORT_STAT n) Fld.LNK_PORT_STAT_FAR_ID
      (coordFld far Fld.LNK_COORD_MODULE_ID)

theorem statUp_frame {far : Word64} : s.statUp n far map = { s with regs := (s.statUp n far map).regs } :=
  regs_frame_trans (regs_frame_trans (regs_frame_trans setFld_frame setFld_frame) setFld_frame) setFld_frame

/-- Port n as it comes UP, before its lanes are marked. -/
def State.cameUp (s : State) (n : Nat) (far : Word64) (map : Nat) : State :=
  (s.statUp n far map).setPort n { upAt := (s.statUp n far map).now, laneMap := map, rxMap := map, farCoord := far }

/-- The far end is lost no more. -/
def State.found (s : State) (m : Nat) : State := { s with fabric := { s.fabric with lost := s.fabric.lost.filter (· != m) } }

/-- Port n as it comes UP, its lanes marked and its far end lost no more. -/
def State.cameUpMarked (s : State) (n : Nat) (far : Word64) (map : Nat) : State :=
  ((s.cameUp n far map).markLanes n map).found (coordFld far Fld.LNK_COORD_MODULE_ID)

theorem portUp_eq {far : Word64} : s.portUp n far map =
    if (s.cameUpMarked n far map).portRole n = 3 then (s.cameUpMarked n far map).undegrade 1 else s.cameUpMarked n far map := rfl

/-- A port that is UP. -/
structure State.isUp (t : State) (n : Nat) (far : Word64) (map now : Nat) : Prop where
  state : t.portSt n = 2
  lanes : t.fld (Reg.LNK_PORT_STAT n) Fld.LNK_PORT_STAT_LANES = laneCount map
  farId : t.farId n = coordFld far Fld.LNK_COORD_MODULE_ID
  port : t.port n = { upAt := now, laneMap := map, rxMap := map, farCoord := far }

theorem isUp_of_keeps {far : Word64} {now : Nat} (h : s.isUp n far map now) (hflds : ∀ f, t.fld (Reg.LNK_PORT_STAT n) f = s.fld (Reg.LNK_PORT_STAT n) f)
    (hport : t.port n = s.port n) : t.isUp n far map now :=
  ⟨(hflds _).trans h.state, (hflds _).trans h.lanes, (hflds _).trans h.farId, hport.trans h.port⟩

theorem cameUp_isUp {far : Word64} : (s.cameUp n far map).isUp n far map s.now := by
  have hnow : (s.statUp n far map).now = s.now := by rw [statUp_frame]
  unfold State.cameUp
  rw [← hnow]
  unfold State.statUp
  have hfar : coordFld far Fld.LNK_COORD_MODULE_ID < 2 ^ 16 := Nat.mod_lt _ (by decide)
  constructor
  case state =>
    rw [State.portSt, fld_setPort, State.fld_setFld_of_disjoint (by decide), State.fld_setFlag_of_disjoint (by decide),
      State.fld_setFld_of_disjoint (by decide), State.fld_setFld_self (by decide)]
    rfl
  case lanes =>
    rw [fld_setPort, State.fld_setFld_of_disjoint (by decide), State.fld_setFlag_of_disjoint (by decide),
      State.fld_setFld_self (by decide)]
    exact Nat.mod_eq_of_lt laneCount_lt
  case farId =>
    rw [State.farId, fld_setPort, State.fld_setFld_self (by decide)]
    exact Nat.mod_eq_of_lt hfar
  case port => exact State.port_setPort_self

theorem found_isUp {far : Word64} {m now : Nat} (h : s.isUp n far map now) : (s.found m).isUp n far map now :=
  isUp_of_keeps h (fun _ => State.fld_of_regs rfl) rfl

theorem lanesOnly_isUp {far : Word64} {now : Nat} (hn : n < 24) (h : s.isUp n far map now) (hk : s.lanesOnly t) : t.isUp n far map now :=
  isUp_of_keeps h (fun _ => lanesOnly_fld hk (belowLanes_portStat hn)) (by rw [hk.1]; rfl)

theorem undegrade_isUp {far : Word64} {k now : Nat} (hn : n < 24) (h : s.isUp n far map now) : (s.undegrade k).isUp n far map now := by
  have hne : (Reg.LNK_PORT_STAT n).key ≠ Reg.TWN_STAT.key := by
    simp only [Reg.TWN_STAT, Reg.LNK_PORT_STAT]
    omega
  exact isUp_of_keeps h (fun _ => keepsRegs_fld (undegrade_regs (n := n)).1 hne) undegrade_regs.2

theorem portUp_isUp {far : Word64} (hn : n < 24) : (s.portUp n far map).isUp n far map s.now := by
  have hup : (s.cameUpMarked n far map).isUp n far map s.now := found_isUp (lanesOnly_isUp hn cameUp_isUp lanesOnly_markLanes)
  rw [portUp_eq]
  split
  · exact undegrade_isUp hn hup
  · exact hup

theorem joinEnds_isUp {far : Word64} {now : Nat} (hn : n < 24) (h : s.isUp n far map now) : (s.joinEnds n).isUp n far map now :=
  isUp_of_keeps h (fun _ => (joinEnds_keeps hn).1) (joinEnds_keeps (f := Fld.LNK_PORT_STAT_STATE) hn).2

/-- What training finds of a far end that it reaches, once its lanes are tested. -/
def State.trainFinds (u : State) (n : Nat) (far : Word64) (tooFar : Prop) [Decidable tooFar] : State :=
  if tooFar then u.setFld (Reg.LNK_PORT_STAT n) Fld.LNK_PORT_STAT_STATE 5
  else if u.miswired n far then u.setFld (Reg.LNK_PORT_STAT n) Fld.LNK_PORT_STAT_STATE 4
  else if laneCount (u.firstMap n) < (u.markFailed n (u.firstMap n)).minLanes then
    ((u.markFailed n (u.firstMap n)).setFld (Reg.LNK_PORT_STAT n) Fld.LNK_PORT_STAT_STATE 3).setPort n
      { (u.markFailed n (u.firstMap n)).port n with downAt := (u.markFailed n (u.firstMap n)).now }
  else (u.markFailed n (u.firstMap n)).portUp n far (u.firstMap n)

theorem trainEnds_aligned_eq {far : Word64} {delay : Nat} {tests : List LaneTest} : b.trainEnds n (.aligned far delay tests) =
    ((b.setFld (Reg.LNK_PORT_STAT n) Fld.LNK_PORT_STAT_DELAY (min delay 65535)).testLanes n tests).trainFinds n far
      ((if b.fld (Reg.LNK_PORT_CFG n) Fld.LNK_PORT_CFG_CLASS = 0 then 500 else 5000) < delay) := rfl

/-- What a port shows when a training that reached its far end is over, and told. -/
theorem trainFinds_spec {far : Word64} {tooFar : Prop} [Decidable tooFar] (hn : n < 24) (ht : t = (u.trainFinds n far tooFar).joinEnds n) :
    (tooFar → t.portSt n = 5) ∧ (¬tooFar → (u.miswired n far = true → t.portSt n = 4) ∧
      (u.miswired n far = false → laneCount (u.firstMap n) < u.minLanes → t.portSt n = 3 ∧ (t.port n).downAt = u.now) ∧
      (u.miswired n far = false → u.minLanes ≤ laneCount (u.firstMap n) → t.isUp n far (u.firstMap n) u.now)) := by
  subst ht
  have hmarked := lanesOnly_markFailed (s := u) (n := n) (map := u.firstMap n)
  have hmin : (u.markFailed n (u.firstMap n)).minLanes = u.minLanes :=
    minLanes_of_fld (lanesOnly_fld hmarked (by simp [belowLanes, Reg.LNK_CFG]))
  have hnow : (u.markFailed n (u.firstMap n)).now = u.now := by rw [hmarked.1]
  unfold State.trainFinds
  refine ⟨fun h => ?_, fun h => ⟨fun hw => ?_, fun hw hl => ?_, fun hw hl => ?_⟩⟩
  · rw [if_pos h]
    exact trained_state hn (by decide)
  · rw [if_neg h, if_pos hw]
    exact trained_state hn (by decide)
  · rw [if_neg h, hw, if_neg (by decide), hmin, if_pos hl]
    exact trained_down hn hnow
  · rw [if_neg h, hw, if_neg (by decide), hmin, if_neg (Nat.not_lt.mpr hl)]
    exact hnow ▸ joinEnds_isUp hn (portUp_isUp hn)

end Sys2Proof.Machine

namespace Sys2Proof
open Machine

/-- Settles O53: an announced stripe that takes effect sets what it names; a port that goes DOWN shows it whatever its loss means, which leaves the
ports' states alone; and the end of training is told by its finding. -/
theorem portsTrainAndGoDown : Obligations.PortsTrainAndGoDown := by
  unfold Obligations.PortsTrainAndGoDown
  refine ⟨fun s n at_ lm b x own far hb hn hx hown hfar => ?_, fun s n at_ b hb hn => ?_, fun s n at_ b res hb hn => ?_⟩
  · subst hx
    have hown : own ↔ b.ownDue n lm.toNat = true := by rw [hown, ownDue_iff]
    have hfar : far ↔ b.farDue n lm.toNat = true := by rw [hfar, farDue_iff]
    have hexec := exec_laneRemap (lm := lm) hn hb
    refine ⟨fun h1 h2 => ?_, fun h1 h2 => ?_, fun h1 h2 => ?_, fun h1 h2 => ?_⟩
    · rw [hexec, if_neg fun h => h1 (hown.mpr h), farSet_of_not fun h => h2 (hfar.mpr h)]
    · rw [hexec, if_neg fun h => h1 (hown.mpr h), farSet_of_due (hfar.mp h2)]
    · obtain ⟨happly, hset⟩ := applyMap_of_wide hn h2
      have hfarPort := fun h : far => farSet_rxMap (hfar.mp h)
      have hfarFld : (b.farSet n lm.toNat).portSt n = b.portSt n := farSet_fld
      refine ⟨_, by rw [hexec, if_pos (hown.mp h1), happly], hset.laneMap, hset.mapNext, hset.lanes, hset.spare, hset.prot, hset.state.trans hfarFld,
        fun h => ⟨hset.rxMap.trans (hfarPort h).1, hset.rxMapNext.trans (hfarPort h).2⟩, hset.laneSt, ?_⟩
      have hframe := farSet_keeps (s := b) (n := n) (map := lm.toNat)
      generalize b.farSet n lm.toNat = v at hset hframe ⊢
      exact hset.frame.trans (by rw [hframe])
    · obtain ⟨happly, hnow⟩ := applyMap_of_narrow hn h2
      obtain ⟨hst, hlanes, hdown, -⟩ := portDown_spec (s := (b.farSet n lm.toNat).mapSet n lm.toNat) hn
      exact ⟨_, by rw [hexec, if_pos (hown.mp h1), happly], hst, hlanes, hdown.trans hnow⟩
  · have hloss : exec (.frameAlignmentLoss n at_) s = .next (if b.portSt n = 2 then b.portDown n 3 else b) := by
      rw [exec_frameAlignmentLoss hn, ← hb]
    have hretrain : exec (.portRetrain n at_) s = .next (if b.portSt n = 3 && b.flag (Reg.LNK_PORT_CFG n) Fld.LNK_PORT_CFG_EN &&
        (b.port n).downAt + 10000000 ≤ b.now then b.trainPort n else b) := by
      rw [exec_portRetrain hn, ← hb]
    refine ⟨fun h => ?_, fun h => ?_, fun h hen hdue => ?_, fun h => ?_⟩
    · rw [hloss, if_neg h]
    · obtain ⟨hst, hlanes, hdown, hmsgs⟩ := portDown_spec (s := b) hn
      exact ⟨_, by rw [hloss, if_pos h], hst, hlanes, hdown, hmsgs, portDown_twin hn h⟩
    · obtain ⟨hst, hframe⟩ := portRetrain_trains h
      exact ⟨_, by rw [hretrain, if_pos (by simp [h, hen, hdue])], hst, hframe⟩
    · rw [hretrain, if_neg]
      simp only [Bool.and_eq_true, decide_eq_true_eq]
      rintro ⟨⟨h1, h2⟩, h3⟩
      rcases h with h | h | h
      · exact h h1
      · exact absurd h2 (by rw [h]; decide)
      · omega
  · have hexec : exec (.trainingComplete n res at_) s = .next (if b.portSt n ≠ 1 then b else (b.trainEnds n res).joinEnds n) := by
      rw [exec_trainingComplete hn, ← hb]
    refine ⟨fun h => by rw [hexec, if_pos h], fun h => ⟨_, by rw [hexec, if_neg (not_not.mpr h)], ?_, ?_, ?_⟩⟩
    · rintro rfl
      exact trained_down hn rfl
    · rintro rfl
      exact trained_state hn (by decide)
    · rintro far delay tests u map rfl rfl rfl
      have hnow : ((b.setFld (Reg.LNK_PORT_STAT n) Fld.LNK_PORT_STAT_DELAY (min delay 65535)).testLanes n tests).now = b.now :=
        (lanesOnly_now lanesOnly_testLanes).trans State.setFld_now
      rw [trainEnds_aligned_eq]
      generalize (b.setFld (Reg.LNK_PORT_STAT n) Fld.LNK_PORT_STAT_DELAY (min delay 65535)).testLanes n tests = u at hnow ⊢
      obtain ⟨hfar, hnear⟩ := trainFinds_spec (u := u) (far := far)
        (tooFar := (if b.fld (Reg.LNK_PORT_CFG n) Fld.LNK_PORT_CFG_CLASS = 0 then 500 else 5000) < delay) hn rfl
      refine ⟨hfar, fun h => ?_⟩
      obtain ⟨hmis, hnarrow, hup⟩ := hnear (Nat.not_lt.mpr h)
      refine ⟨hmis, fun hw hl => ⟨(hnarrow hw hl).1, (hnarrow hw hl).2.trans hnow⟩, fun hw hl => ?_⟩
      obtain ⟨hst, hlanes, hid, hport⟩ := hup hw hl
      exact ⟨hst, by rw [hport], by rw [hport, hnow], by rw [hport], hlanes, hid, fun m hm => firstMap_good hm⟩

end Sys2Proof
end

section
/-! PROOFS. The reset of a quadrant (R550). -/

namespace Sys2Proof.Machine

variable {s t u : State} {q n l : Nat}

/-! ## What a quadrant reset leaves alone -/

/-- A quadrant reset so far: of the registers here only the ports' states differ, no port comes UP, and the settled placements stay so. -/
structure State.resetsSo (s t : State) : Prop where
  start : ∀ f, t.fld Reg.CLK_START f = s.fld Reg.CLK_START f
  aloof : t.aloof = s.aloof
  place : ∀ l, (s.place l).settled → (s.place l).staysAs True (t.place l)
  port : ∀ n, n < 24 → s.portSt n ≠ 2 → t.portSt n ≠ 2

theorem resetsSo_trans (h : s.resetsSo t) (k : t.resetsSo u) : s.resetsSo u where
  start f := (k.start f).trans (h.start f)
  aloof := k.aloof.trans h.aloof
  place l hl := staysAs_trans (h.place l hl) (k.place l (h.place l hl).settled)
  port n hn hs := k.port n hn (h.port n hn hs)

theorem portSt_of_calm (h : Calm True s t) (hn : n < 24) : t.portSt n = s.portSt n := h.flds _ _ (calmFld_portStat hn (by decide))

theorem resetsSo_of_calm (h : Calm True s t) : s.resetsSo t where
  start f := h.flds _ _ (.inl rfl)
  aloof := h.aloof
  place := h.place
  port n hn hs := by rwa [portSt_of_calm h hn]

theorem resetsSo_refl : s.resetsSo s := resetsSo_of_calm calm_refl

theorem resetsSo_each {α : Type} {xs : List α} {g : State → α → State} (hg : ∀ (t : State) x, x ∈ xs → t.resetsSo (g t x)) :
    s.resetsSo (s.each xs g) :=
  each_induction (P := s.resetsSo) resetsSo_refl fun t x hx ht => resetsSo_trans ht (hg t x hx)

theorem resetsSo_portOff (hn : n < 24) : s.resetsSo (s.portOff n 3) where
  start f := by
    have hkey : Reg.CLK_START.key ≠ (Reg.LNK_PORT_STAT n).key := by
      simp only [Reg.CLK_START, Reg.LNK_PORT_STAT]
      omega
    rw [State.fld_of_regs portOff_regs, State.portStatOff, State.fld_setFlag_ne hkey, State.fld_setFlag_ne hkey, State.fld_setFld_ne hkey,
      State.fld_setFld_ne hkey]
  aloof := by
    rw [portOff_frame]
    rfl
  place l hl := by
    rw [portOff_frame]
    exact staysAs_refl hl
  port k hk hs := by
    by_cases hkn : k = n
    · rw [hkn, portOff_portSt (by decide)]
      decide
    · rwa [portSt_portOff_ne hkn]

/-- A port of the quadrant goes DOWN, unless it is OFF. -/
def State.portLost (s : State) (n : Nat) : State := if s.portSt n = 0 then s else s.portDown n 3

theorem portLost_spec (hn : n < 24) : s.resetsSo (s.portLost n) ∧ (s.portLost n).portSt n ≠ 2 := by
  unfold State.portLost
  split
  · next h => exact ⟨resetsSo_refl, by omega⟩
  · refine ⟨resetsSo_trans (resetsSo_portOff hn) (resetsSo_of_calm calm_portDown), ?_⟩
    rw [(portDown_spec hn).1]
    decide

/-! ## What one round of a loop reaches, the loop reaches -/

/-- What the round of `x` makes true under an invariant, and every round then keeps, holds after the loop. -/
theorem each_reaches {α : Type} {P Q : State → Prop} {g : State → α → State} {xs : List α} {x : α} (hx : x ∈ xs) (hP : P s)
    (hkeep : ∀ (t : State) y, y ∈ xs → P t → P (g t y)) (hmake : ∀ t : State, P t → Q (g t x))
    (hstay : ∀ (t : State) y, y ∈ xs → P t → Q t → Q (g t y)) : Q (s.each xs g) := by
  have hlater : ∀ (ys : List α) (t : State), (∀ y ∈ ys, y ∈ xs) → P t → Q t → Q (t.each ys g) := fun ys t hys ht hQ =>
    (each_induction (P := fun t => P t ∧ Q t) ⟨ht, hQ⟩ fun t y hy hPQ =>
      ⟨hkeep t y (hys y hy) hPQ.1, hstay t y (hys y hy) hPQ.1 hPQ.2⟩).2
  obtain ⟨before, after, rfl⟩ := List.append_of_mem hx
  have hsplit : s.each (before ++ x :: after) g = (g (s.each before g) x).each after g := by
    rw [State.each, List.foldl_append]
    rfl
  have hbefore : P (s.each before g) := each_induction (P := P) hP fun t y hy ht => hkeep t y (by simp [hy]) ht
  rw [hsplit]
  exact hlater after _ (fun y hy => by simp [hy]) (hkeep _ x hx hbefore) (hmake _ hbefore)

/-! ## Its parts -/

/-- Placements with a tile in quadrant q. -/
def State.placesHit (s : State) (q : Nat) : List Nat := s.present.filter fun l => (s.place l).cfg.tiles.any fun t => t / 256 == q

/-- The placements of the quadrant fenced. -/
def State.placesFenced (s : State) (q : Nat) : State := s.each (s.placesHit q) fun s l => s.fenceWork l

/-- The quadrant's context cache written back and emptied. -/
def State.cacheLeft (s : State) (q : Nat) : State :=
  s.each (s.cached q) fun s i => (s.writeBack i).setAux i { (s.writeBack i).auxOf i with lru := 0 }

/-- The quadrant's ports down. -/
def State.portsLost (s : State) (q : Nat) : State := s.each ((List.range 6).map (6 * q + ·)) State.portLost

/-- The quadrant's processor gone, and with it the runs on the quadrant. -/
def State.procLost (s : State) (q : Nat) : State :=
  ((s.pcpGone q).setFlag (Reg.FWP_PROC (4 + q)) Fld.FWP_PROC_ALIVE false).abandonRuns (objQuad q) false

/-- The quadrant's dies as after reset. -/
def State.diesCleared (s : State) (q : Nat) : State := (s.clearQuadRegs q).clearQuadDies q

/-- Step 8 of the quadrant begins. -/
def State.quadBegins (s : State) (q : Nat) : State :=
  { s with clk := { s.clk with quadPhase := tset 0 s.clk.quadPhase q 8 } }.setFld Reg.CLK_START Fld.CLK_START_QRST
    (s.fld Reg.CLK_START Fld.CLK_START_QRST + 2 ^ q)

/-- Everything of a quadrant reset before the dies read as after reset. -/
def State.quadStops (s : State) (q : Nat) : State := (((s.placesFenced q).cacheLeft q).portsLost q).procLost q

theorem quadReset_eq : s.quadReset q =
    if !s.ready || bitOf (s.fld Reg.CLK_START Fld.CLK_START_QRST) q then s else ((s.quadStops q).diesCleared q).quadBegins q := by
  unfold State.quadReset State.quadStops State.procLost State.portsLost State.cacheLeft State.placesFenced
  rfl

theorem calm_placesFenced : Calm True s (s.placesFenced q) := calm_each fun _ _ _ => calm_fenceWork trivial

theorem calm_cacheLeft : Calm True s (s.cacheLeft q) := calm_each fun _ _ _ => calm_trans calm_writeBack calm_setAux

theorem apartReg_lasStat (hn : n < 1024) : apartReg (Reg.LAS_STAT n) := by
  refine apartReg_of_ne fun k hk => ?_
  simp only [Reg.LAS_STAT]
  omega

theorem calm_pcpGone (hq : q < 4) : Calm True s (s.pcpGone q) := by
  unfold State.pcpGone
  dsimp only
  refine calm_trans (calm_each fun t n hn => ?_) (calm_of rfl)
  obtain ⟨hmem, -⟩ := List.mem_filter.mp hn
  obtain ⟨k, hk, rfl⟩ := List.mem_map.mp hmem
  have hk := List.mem_range.mp hk
  exact calm_setFld (apart_of_reg (apartReg_lasStat (by omega)))

theorem apartReg_proc {i : Nat} : apartReg (Reg.FWP_PROC i) := apartReg_of_high (by simp only [Reg.FWP_PROC]; omega)

theorem calm_procLost (hq : q < 4) : Calm True s (s.procLost q) :=
  calm_trans (calm_trans (calm_pcpGone hq) (calm_setFld (apart_of_reg apartReg_proc))) calm_abandonRuns

theorem resetsSo_portsLost (hq : q < 4) : s.resetsSo (s.portsLost q) := by
  refine resetsSo_each fun t n hn => (portLost_spec ?_).1
  obtain ⟨k, hk, rfl⟩ := List.mem_map.mp hn
  have := List.mem_range.mp hk
  omega

theorem resetsSo_quadStops (hq : q < 4) : s.resetsSo (s.quadStops q) :=
  resetsSo_trans (resetsSo_trans (resetsSo_of_calm (calm_trans calm_placesFenced calm_cacheLeft)) (resetsSo_portsLost hq))
    (resetsSo_of_calm (calm_procLost hq))

/-! ## The registers of a quadrant's dies -/

theorem reg_clearQuadRegs {r : RegRef} (h : inQuadDom q r.key = false) : (s.clearQuadRegs q).reg r = s.reg r :=
  tget_filter (q := fun k => !inQuadDom q k) (by simp [h])

theorem reg_clearQuadRegs_dflt {r : RegRef} (h : inQuadDom q r.key = true) : (s.clearQuadRegs q).reg r = r.dflt := by
  refine tget_of_no_key fun e he hk => ?_
  obtain ⟨-, hout⟩ := List.mem_filter.mp he
  rw [hk, h] at hout
  exact absurd hout (by decide)

theorem start_not_inQuadDom (hq : q < 4) : inQuadDom q Reg.CLK_START.key = false := by
  have hall : ∀ q, q < 4 → inQuadDom q Reg.CLK_START.key = false := by decide
  exact hall q hq

theorem reg_diesCleared {r : RegRef} : (s.diesCleared q).reg r = (s.clearQuadRegs q).reg r := rfl

theorem fld_diesCleared {f : Field} (hq : q < 4) : (s.diesCleared q).fld Reg.CLK_START f = s.fld Reg.CLK_START f := by
  rw [State.fld, reg_diesCleared, reg_clearQuadRegs (start_not_inQuadDom hq), State.fld]

theorem reg_quadBegins {r : RegRef} (h : r.key ≠ Reg.CLK_START.key) : (s.quadBegins q).reg r = s.reg r := by
  rw [State.quadBegins, State.setFld, State.reg_wrReg_ne h]
  rfl

theorem fld_quadBegins_of_disjoint {f : Field} (h : f.lo + f.w ≤ Fld.CLK_START_QRST.lo ∨ Fld.CLK_START_QRST.lo + Fld.CLK_START_QRST.w ≤ f.lo) :
    (s.quadBegins q).fld Reg.CLK_START f = s.fld Reg.CLK_START f := by
  rw [State.quadBegins]
  exact State.fld_setFld_of_disjoint h

theorem start_key_ne_inQuadDom {r : RegRef} (hq : q < 4) (h : inQuadDom q r.key = true) : r.key ≠ Reg.CLK_START.key := fun hk => by
  rw [hk, start_not_inQuadDom hq] at h
  exact absurd h (by decide)

/-! ## Through the dies' reset -/

theorem portSt_dflt : getBits (Reg.LNK_PORT_STAT n).dflt Fld.LNK_PORT_STAT_STATE.lo Fld.LNK_PORT_STAT_STATE.w ≠ 2 := by
  have h : getBits 0x3FFFC00 Fld.LNK_PORT_STAT_STATE.lo Fld.LNK_PORT_STAT_STATE.w ≠ 2 := by decide
  exact h

theorem resetsSo_diesCleared (hq : q < 4) : s.resetsSo (s.diesCleared q) where
  start f := fld_diesCleared hq
  aloof := rfl
  place l hl := staysAs_refl hl
  port n hn hs := by
    cases hdom : inQuadDom q (Reg.LNK_PORT_STAT n).key
    · rwa [State.portSt, State.fld, reg_diesCleared, reg_clearQuadRegs hdom]
    · rw [State.portSt, State.fld, reg_diesCleared, reg_clearQuadRegs_dflt hdom]
      exact portSt_dflt

theorem bitOf_add_two_pow {v : Nat} (hv : v < 16) (hq : q < 4) (h : bitOf v q = false) : v + 2 ^ q < 16 ∧ bitOf (v + 2 ^ q) q = true := by
  have hall : ∀ v, v < 16 → ∀ q, q < 4 → bitOf v q = false → v + 2 ^ q < 16 ∧ bitOf (v + 2 ^ q) q = true := by decide
  exact hall v hv q hq h

/-- QRST bit q is set by the reset. -/
theorem quadBegins_qrst (hq : q < 4) (h : bitOf (s.fld Reg.CLK_START Fld.CLK_START_QRST) q = false) :
    bitOf ((s.quadBegins q).fld Reg.CLK_START Fld.CLK_START_QRST) q = true := by
  obtain ⟨hlt, hbit⟩ := bitOf_add_two_pow State.fld_lt hq h
  rw [State.quadBegins, State.fld_setFld_self (by decide)]
  exact (congrArg (bitOf · q) (Nat.mod_eq_of_lt hlt)).trans hbit

/-! ## What the reset reaches -/

/-- With its step taken away a placement keeps none through the end of the step and the cairn. -/
theorem idle_of_ended {slots : List Slot} (h : (s.place l).settled) :
    (((((s.setPlace l { s.place l with step := none }).dropAhead l).endStep l slots).cairn l).place l).step = none := by
  have hset : (s.setPlace l { s.place l with step := none }).place l = { s.place l with step := none } := State.place_setPlace_self
  have hend : Calm True (s.setPlace l { s.place l with step := none })
      ((((s.setPlace l { s.place l with step := none }).dropAhead l).endStep l slots).cairn l) :=
    calm_trans (calm_trans calm_dropAhead calm_endStep) calm_cairn
  refine (hend.place l ?_).idle ?_
  · rw [hset]
    exact h
  · rw [hset]

/-- An abandoned step is over. -/
theorem abandon_idle {pause : Bool} (h : (s.place l).settled) : ((s.abandon l pause).place l).step = none := by
  unfold State.abandon
  split
  · next hnone => exact hnone
  · next st _ =>
    dsimp only
    refine idle_of_ended ((Calm.place (fences := True) (s := s) ?_ l h).settled)
    refine calm_trans ?_ (calm_each fun _ _ _ => calm_dropWork)
    refine calm_trans ?_ calm_noteAll
    exact calm_trans calm_slotsRetire calm_postStep

/-- A settled placement is fenced with no step. -/
def State.stands (s : State) (l : Nat) : Prop := (s.place l).settled ∧ (s.place l).fenced = true ∧ (s.place l).step = none

theorem stands_of_resetsSo (h : s.stands l) (k : s.resetsSo t) : t.stands l := by
  obtain ⟨hset, hfenced, hidle⟩ := h
  have hk := k.place l hset
  exact ⟨hk.settled, hk.fenced hfenced, hk.idle hidle⟩

theorem fenceWork_stands (h : (s.place l).settled) : (s.fenceWork l).stands l := by
  have hset : (s.setPlace l { s.place l with fenced := true }).place l = { s.place l with fenced := true } := State.place_setPlace_self
  have hsettled : ((s.setPlace l { s.place l with fenced := true }).place l).settled := by
    rw [hset]
    exact h
  have habandon : ((s.setPlace l { s.place l with fenced := true }).abandon l true).stands l := by
    have hk := (calm_abandon (F := True) (s := s.setPlace l { s.place l with fenced := true }) (l := l) (pause := true)).place l hsettled
    exact ⟨hk.settled, hk.fenced (by rw [hset]), abandon_idle hsettled⟩
  unfold State.fenceWork
  dsimp only
  refine stands_of_resetsSo habandon (resetsSo_of_calm ?_)
  refine calm_trans (calm_each fun _ _ _ => ?_) (calm_fabric rfl)
  exact calm_ite (fun _ => calm_putCtx) fun _ => calm_editCtx

theorem mem_present (h : (s.place l).present = true) : l ∈ s.present := by
  have hkey : ∃ e ∈ s.places, e.1 = l ∧ e.2.present = true := by
    unfold State.place at h
    generalize s.places = xs at h ⊢
    induction xs with
    | nil => exact absurd h (by simp [tget])
    | cons e xs ih =>
      rw [tget] at h
      split at h
      · next he => exact ⟨e, by simp, he.symm, h⟩
      · obtain ⟨e', hmem, hl, hp⟩ := ih h
        exact ⟨e', List.mem_cons_of_mem _ hmem, hl, hp⟩
  obtain ⟨e, hmem, rfl, hp⟩ := hkey
  exact List.mem_map.mpr ⟨e, List.mem_filter.mpr ⟨hmem, hp⟩, rfl⟩

theorem placesFenced_stands (hp : (s.place l).present = true) (hq : (s.place l).cfg.tiles.any (fun t => t / 256 == q) = true)
    (h : (s.place l).settled) : (s.placesFenced q).stands l := by
  have hcalm : ∀ (t : State) k, t.resetsSo (t.fenceWork k) := fun t k => resetsSo_of_calm (calm_fenceWork trivial)
  refine each_reaches (P := fun t => (t.place l).settled) (Q := fun t => t.stands l) (List.mem_filter.mpr ⟨mem_present hp, hq⟩) h ?_ ?_ ?_
  · exact fun t k _ ht => ((hcalm t k).place l ht).settled
  · exact fun t ht => fenceWork_stands ht
  · exact fun t k _ _ ht => stands_of_resetsSo ht (hcalm t k)

/-- The ports of the quadrant carry nothing. -/
theorem portsLost_down (hq : q < 4) (hlo : 6 * q ≤ n) (hhi : n < 6 * q + 6) : (s.portsLost q).portSt n ≠ 2 := by
  have hn : n < 24 := by omega
  have hmem : n ∈ (List.range 6).map (6 * q + ·) := List.mem_map.mpr ⟨n - 6 * q, List.mem_range.mpr (by omega), by omega⟩
  have hlt : ∀ k ∈ (List.range 6).map (6 * q + ·), k < 24 := fun k hk => by
    obtain ⟨j, hj, rfl⟩ := List.mem_map.mp hk
    have := List.mem_range.mp hj
    omega
  refine each_reaches (P := fun _ => True) (Q := fun t => t.portSt n ≠ 2) hmem trivial (fun _ _ _ _ => trivial) (fun t _ => (portLost_spec hn).2) ?_
  exact fun t k hk _ ht => (portLost_spec (hlt k hk)).1.port n hn ht

/-! ## The processor and the runs -/

theorem abandonRuns_eq {mine : CalObj → Bool} : s.abandonRuns mine false =
    ({ s with cal := { s.cal with running := s.cal.running.filter fun x => !(mine x.1),
                                  abandoned := min (s.cal.abandoned + ((s.cal.running.map Prod.fst).filter mine).length) (2 ^ 32 - 1) } }).each
      ((s.cal.running.map Prod.fst).filter mine) fun s o => s.calEnds o := rfl

theorem notFnStat_of_isFwp {f k : Nat} (h : isFwp k) : notFnStat f k := by
  obtain ⟨hlo, hhi⟩ := h
  simp only [notFnStat, Reg.SCH_FN_STAT]
  omega

theorem endLong_keepsFwp {o : LongOp} : s.keepsRegs (s.endLong o stOK 0 0) isFwp := by
  have hcount : s.keepsRegs (s.dropLong o) isFwp := keepsRegs_trans (t := { s with longOps := s.longOps.filter fun x => x.id != o.id })
    (keepsRegs_of_regs rfl) (keepsRegs_setFld fun h => notFnStat_of_isFwp (f := o.h.fn) h rfl)
  exact keepsRegs_trans hcount (keepsRegs_mono reply_ok_keepsRegs fun _ => notFnStat_of_isFwp)

theorem advanceLong_keepsFwp {o : LongOp} {done : Nat} : s.keepsRegs (s.advanceLong o done) isFwp :=
  keepsRegs_mono advanceLong_regs fun _ => notFnStat_of_isFwp

theorem calEnds_keepsFwp {k : CalObj} : s.keepsRegs (s.calEnds k) isFwp := by
  unfold State.calEnds
  refine each_induction (P := fun t => s.keepsRegs t isFwp) keepsRegs_refl fun t x _ ht => keepsRegs_trans ht ?_
  split
  · split
    · exact keepsRegs_of_regs rfl
    · split
      · dsimp only
        split
        · exact keepsRegs_trans advanceLong_keepsFwp endLong_keepsFwp
        · exact advanceLong_keepsFwp
      · exact keepsRegs_refl
  · exact keepsRegs_refl

/-- Given-up runs are gone; no processor's register is touched. -/
theorem abandonRuns_spec {mine : CalObj → Bool} : (∀ x ∈ (s.abandonRuns mine false).cal.running, mine x.1 = false) ∧
    ∀ i, i < 8 → (s.abandonRuns mine false).flag (Reg.FWP_PROC i) Fld.FWP_PROC_ALIVE = s.flag (Reg.FWP_PROC i) Fld.FWP_PROC_ALIVE := by
  rw [abandonRuns_eq]
  generalize hb : ({ s with cal := _ } : State) = b
  have hrun : b.cal.running = s.cal.running.filter fun x => !(mine x.1) := by rw [← hb]
  have hflag : ∀ i, b.flag (Reg.FWP_PROC i) Fld.FWP_PROC_ALIVE = s.flag (Reg.FWP_PROC i) Fld.FWP_PROC_ALIVE := fun i => by rw [← hb]; rfl
  have hlong : b.longOnly (b.each ((s.cal.running.map Prod.fst).filter mine) fun s o => s.calEnds o) := longOnly_each fun _ _ _ => longOnly_calEnds
  have hregs : b.keepsRegs (b.each ((s.cal.running.map Prod.fst).filter mine) fun s o => s.calEnds o) isFwp :=
    each_induction (P := fun t => b.keepsRegs t isFwp) keepsRegs_refl fun t x _ ht => keepsRegs_trans ht calEnds_keepsFwp
  refine ⟨fun x hx => ?_, fun i hi => (keepsRegs_flag hregs (isFwp_proc hi)).trans (hflag i)⟩
  rw [hlong.1] at hx
  have hx : x ∈ s.cal.running.filter fun x => !(mine x.1) := hrun ▸ hx
  simpa using (List.mem_filter.mp hx).2

theorem procLost_spec (hq : q < 4) : (∀ x ∈ (s.procLost q).cal.running, objQuad q x.1 = false) ∧
    (s.procLost q).flag (Reg.FWP_PROC (4 + q)) Fld.FWP_PROC_ALIVE = false := by
  obtain ⟨hrun, hflag⟩ := abandonRuns_spec (s := (s.pcpGone q).setFlag (Reg.FWP_PROC (4 + q)) Fld.FWP_PROC_ALIVE false) (mine := objQuad q)
  exact ⟨hrun, (hflag _ (by omega)).trans (State.flag_setFlag_self (by decide) rfl)⟩

/-! ## The reset -/

/-- The registers of the quadrant's dies read as after reset, and its processor stays down. -/
theorem diesCleared_alive {i : Nat} (h : s.flag (Reg.FWP_PROC i) Fld.FWP_PROC_ALIVE = false) :
    (s.diesCleared q).flag (Reg.FWP_PROC i) Fld.FWP_PROC_ALIVE = false := by
  cases hdom : inQuadDom q (Reg.FWP_PROC i).key
  · rwa [State.flag, State.fld, reg_diesCleared, reg_clearQuadRegs hdom]
  · rw [State.flag, State.fld, reg_diesCleared, reg_clearQuadRegs_dflt hdom]
    have h0 : (getBits 0 Fld.FWP_PROC_ALIVE.lo Fld.FWP_PROC_ALIVE.w == 1) = false := by decide
    exact h0

theorem quadBegins_frame : s.quadBegins q = { s with regs := (s.quadBegins q).regs, clk := { s.clk with quadPhase := tset 0 s.clk.quadPhase q 8 } } := rfl

theorem diesCleared_lasers {n : Nat} (h : n / 256 = q) : (s.diesCleared q).laser n = {} := by
  refine tget_of_no_key fun e he hk => ?_
  obtain ⟨-, hout⟩ := List.mem_filter.mp he
  rw [hk, h] at hout
  simp at hout

theorem diesCleared_rings {c r : Nat} (hc : c / 512 = q) (hr : r < 128) : (s.diesCleared q).ring c r = {} := by
  refine tget_of_no_key fun e he hk => ?_
  obtain ⟨-, hout⟩ := List.mem_filter.mp he
  have hquad : ringKey c r / 128 / 512 = q := by
    have hcr : ringKey c r / 128 = c := by
      unfold ringKey
      omega
    rw [hcr, hc]
  rw [hk, hquad] at hout
  simp at hout

theorem diesCleared_running : (s.diesCleared q).cal.running = s.cal.running := rfl

theorem resetsSo_quadReset (hq : q < 4) (hrun : s.ready = true) (hbit : bitOf (s.fld Reg.CLK_START Fld.CLK_START_QRST) q = false) :
    s.resetsSo ((s.quadStops q).diesCleared q) ∧ s.quadReset q = ((s.quadStops q).diesCleared q).quadBegins q := by
  refine ⟨resetsSo_trans (resetsSo_quadStops hq) (resetsSo_diesCleared hq), ?_⟩
  rw [quadReset_eq, if_neg]
  simp [hrun, hbit]

theorem exec_quadrantReset (hup : s.hostUp = true) (hq : q < 4) : exec (.quadrantReset 0 (BitVec.ofNat 4 (2 ^ q))) s = .next (s.quadReset q) := by
  have hone : ∀ q, q < 4 → (List.range 4).filter (fun k => bitOf (BitVec.ofNat 4 (2 ^ q)).toNat k) = [q] := by decide
  show execQuadrantReset 0 (BitVec.ofNat 4 (2 ^ q)) s = _
  unfold execQuadrantReset State.resetWrite
  rw [hostAccess_of_decodes hup (decodes_zero s), hone q hq]
  rfl

theorem hostUp_of_ready (h : s.ready = true) : s.hostUp = true :=
  hostUp_of_phase (by rw [State.phase, beq_iff_eq.mp h]; decide)

/-- What the reset of a quadrant comes to (R550). -/
theorem quadrant_reset (hq : q < 4) (hready : s.ready = true) (hbit : bitOf (s.fld Reg.CLK_START Fld.CLK_START_QRST) q = false) :
    ∃ t, exec (.quadrantReset 0 (BitVec.ofNat 4 (2 ^ q))) s = .next t ∧
      bitOf (t.fld Reg.CLK_START Fld.CLK_START_QRST) q = true ∧ tget 0 t.clk.quadPhase q = 8 ∧
      t.flag (Reg.FWP_PROC (4 + q)) Fld.FWP_PROC_ALIVE = false ∧ (∀ n, n / 256 = q → t.laser n = {}) ∧
      (∀ c r, c / 512 = q → r < 128 → t.ring c r = {}) ∧ (∀ r : RegRef, inQuadDom q r.key = true → t.reg r = r.dflt) ∧
      (∀ n, 6 * q ≤ n → n < 6 * q + 6 → t.portSt n ≠ 2) ∧ (∀ x ∈ t.cal.running, objQuad q x.1 = false) ∧
      t.flash = s.flash ∧ t.hkc = s.hkc ∧ t.therm = s.therm ∧ t.power = s.power ∧ t.now = s.now ∧
      (∀ l, (s.place l).present = true → (s.place l).cfg.tiles.any (fun t => t / 256 == q) = true → (s.place l).change = none →
        (s.place l).removing = false → (t.place l).fenced = true ∧ (t.place l).step = none) := by
  obtain ⟨hstay, heq⟩ := resetsSo_quadReset hq hready hbit
  obtain ⟨hruns, halive⟩ := procLost_spec (s := ((s.placesFenced q).cacheLeft q).portsLost q) hq
  have hports : ∀ n, 6 * q ≤ n → n < 6 * q + 6 → ((s.quadStops q).diesCleared q).portSt n ≠ 2 := fun n hlo hhi =>
    (resetsSo_trans (resetsSo_of_calm (calm_procLost hq)) (resetsSo_diesCleared hq)).port n (by omega) (portsLost_down hq hlo hhi)
  have hstands : ∀ l, (s.place l).present = true → (s.place l).cfg.tiles.any (fun t => t / 256 == q) = true → (s.place l).settled →
      ((s.quadStops q).diesCleared q).stands l := fun l hp ht hset =>
    stands_of_resetsSo (placesFenced_stands hp ht hset) (resetsSo_trans (resetsSo_trans (resetsSo_trans (resetsSo_of_calm calm_cacheLeft)
      (resetsSo_portsLost hq)) (resetsSo_of_calm (calm_procLost hq))) (resetsSo_diesCleared hq))
  have halive : ((s.quadStops q).diesCleared q).flag (Reg.FWP_PROC (4 + q)) Fld.FWP_PROC_ALIVE = false := diesCleared_alive halive
  have hruns : ∀ x ∈ ((s.quadStops q).diesCleared q).cal.running, objQuad q x.1 = false := hruns
  have hlas : ∀ n, n / 256 = q → ((s.quadStops q).diesCleared q).laser n = {} := fun n hn => diesCleared_lasers hn
  have hrings : ∀ c r, c / 512 = q → r < 128 → ((s.quadStops q).diesCleared q).ring c r = {} := fun c r hc hr => diesCleared_rings hc hr
  have hdflt : ∀ r : RegRef, inQuadDom q r.key = true → ((s.quadStops q).diesCleared q).reg r = r.dflt := fun r hr => reg_clearQuadRegs_dflt hr
  rw [exec_quadrantReset (hostUp_of_ready hready) hq, heq]
  generalize (s.quadStops q).diesCleared q = w at *
  have hflash : w.flash = s.flash ∧ w.hkc = s.hkc ∧ w.therm = s.therm ∧ w.power = s.power ∧ w.now = s.now := by
    have h := hstay.aloof
    simp only [State.aloof, Prod.mk.injEq] at h
    obtain ⟨h1, h2, h3, h4, h5⟩ := h
    exact ⟨h2, h3, h4, h5, h1⟩
  have hreg : ∀ r : RegRef, r.key ≠ Reg.CLK_START.key → ∀ f, (w.quadBegins q).fld r f = w.fld r f := fun r hr f => by
    rw [State.fld, reg_quadBegins hr, State.fld]
  refine ⟨_, rfl, quadBegins_qrst hq (by rw [hstay.start, hbit]), ?_, ?_, hlas, hrings, fun r hr => ?_, fun n hlo hhi => ?_, hruns, hflash.1,
    hflash.2.1, hflash.2.2.1, hflash.2.2.2.1, hflash.2.2.2.2, fun l hp ht hc hr => ?_⟩
  · rw [quadBegins_frame]
    exact tget_tset_self (d := 0) (i := q) (x := 8) (t := w.clk.quadPhase)
  · rw [State.flag, hreg _ (by simp only [Reg.FWP_PROC, Reg.CLK_START]; omega)]
    exact halive
  · rw [reg_quadBegins (start_key_ne_inQuadDom hq hr), hdflt r hr]
  · rw [State.portSt, hreg _ (by simp only [Reg.LNK_PORT_STAT, Reg.CLK_START]; omega)]
    exact hports n hlo hhi
  · obtain ⟨-, hfenced, hidle⟩ := hstands l hp ht ⟨hc, hr⟩
    exact ⟨hfenced, hidle⟩

/-! ## The quadrants one after the other -/

/-- The reset of a quadrant takes the host link down or up no more than it was. -/
theorem hostUp_quadReset (hq : q < 4) (h : s.hostUp = true) : (s.quadReset q).hostUp = true := by
  by_cases hgo : s.ready = true ∧ bitOf (s.fld Reg.CLK_START Fld.CLK_START_QRST) q = false
  · obtain ⟨hready, hbit⟩ := hgo
    obtain ⟨hstay, heq⟩ := resetsSo_quadReset hq hready hbit
    have hphase : (s.quadReset q).phase = s.phase := by
      rw [heq, State.phase, fld_quadBegins_of_disjoint (by decide), hstay.start, State.phase]
    exact hostUp_of_phase (by rw [hphase, State.phase, beq_iff_eq.mp hready]; decide)
  · rw [quadReset_eq, if_pos]
    · exact h
    · cases hr : s.ready
      · rfl
      · cases hb : bitOf (s.fld Reg.CLK_START Fld.CLK_START_QRST) q
        · exact absurd ⟨hr, hb⟩ hgo
        · rfl

/-- One command per quadrant. -/
def nextQuad (o : Host.Outcome State Fault Refusal) (q : Nat) : Host.Outcome State Fault Refusal :=
  match o with
  | .next u => exec (.quadrantReset 0 (BitVec.ofNat 4 (2 ^ q))) u
  | stop => stop

theorem exec_quadrantReset_down (hup : s.hostUp = false) {quads : BitVec 4} : exec (.quadrantReset 0 quads) s = .next s := by
  show execQuadrantReset 0 quads s = _
  simp [execQuadrantReset, State.resetWrite, State.hostAccess, hup]

theorem foldl_nextQuad {qs : List Nat} (hqs : ∀ q ∈ qs, q < 4) :
    qs.foldl nextQuad (.next s) = .next (if s.hostUp then s.each qs fun s q => s.quadReset q else s) := by
  induction qs generalizing s with
  | nil => simp [State.each]
  | cons q qs ih =>
    have hq := hqs q (by simp)
    have hrest : ∀ q ∈ qs, q < 4 := fun k hk => hqs k (by simp [hk])
    rw [List.foldl_cons]
    cases hup : s.hostUp
    · have hone : nextQuad (.next s) q = .next s := exec_quadrantReset_down hup
      rw [hone, ih hrest, hup]
      rfl
    · have hone : nextQuad (.next s) q = .next (s.quadReset q) := exec_quadrantReset hup hq
      rw [hone, ih hrest, hostUp_quadReset hq hup]
      rfl

theorem exec_quadrantReset_foldl {quads : BitVec 4} :
    exec (.quadrantReset 0 quads) s = ((List.range 4).filter fun q => bitOf quads.toNat q).foldl nextQuad (.next s) := by
  have hqs : ∀ q ∈ (List.range 4).filter fun q => bitOf quads.toNat q, q < 4 := fun q hq => List.mem_range.mp (List.mem_filter.mp hq).1
  rw [foldl_nextQuad hqs]
  cases hup : s.hostUp
  · exact exec_quadrantReset_down hup
  · show execQuadrantReset 0 quads s = _
    unfold execQuadrantReset State.resetWrite
    rw [hostAccess_of_decodes hup (decodes_zero s)]
    rfl

end Sys2Proof.Machine
end

section
/-! PROOFS. Module and function resets (R284, R318, R549, R556, R572, R574). -/

namespace Sys2Proof.Machine

/-! ## Tables joined -/

theorem tget_append_of_no_key {α : Type} {d : α} {l m : Tbl α} {k : Nat} (h : ∀ e ∈ l, e.1 ≠ k) : tget d (l ++ m) k = tget d m k := by
  induction l with
  | nil => rfl
  | cons e l ih =>
    rw [List.cons_append, tget, if_neg (Ne.symm (h e (by simp)))]
    exact ih fun x hx => h x (by simp [hx])

theorem tget_append_of_no_key_right {α : Type} {d : α} {l m : Tbl α} {k : Nat} (h : ∀ e ∈ m, e.1 ≠ k) : tget d (l ++ m) k = tget d l k := by
  induction l with
  | nil => exact tget_of_no_key h
  | cons e l ih => rw [List.cons_append, tget, tget, ih]

/-! ## The module reset -/

section
variable {s : State}

/-- The module cleared, with start-up at step 4 and the governor in force. -/
def State.restarted (s : State) : State := ((s.cleared false).startAt 4).governorOn

theorem moduleReset_eq (h : s.powered = true) : s.moduleReset = s.restarted := if_pos h

/-- What a module reset leaves, but for registers, the fault log and the operating points. -/
theorem restarted_frame : s.restarted = { s.wiped false with
      regs := s.restarted.regs, faultLog := s.restarted.faultLog, power := s.restarted.power
      clk := { (s.wiped false).clk with firstAt := s.now, count := s.clk.count + 1, stepAt := s.now } } ∧
    s.restarted.power.tripCause = s.power.tripCause ∧ (s.flash.flogBad = false → s.restarted.faultLog = s.flash.flog.getD {}) := by
  obtain ⟨hclear, hlog⟩ := cleared_frame (s := s) (cold := false)
  unfold State.restarted
  have hstart := startAt_eq (s := s.cleared false) (k := 4)
  generalize s.cleared false = u at hclear hlog hstart ⊢
  obtain ⟨hframe, hpower, -⟩ := governorOn_opsOnly (s := u.startAt 4)
  generalize (u.startAt 4).governorOn = t at hframe hpower ⊢
  have hclk : u.clk = (s.wiped false).clk := by rw [hclear]
  have hnow : u.now = s.now := by rw [hclear]; rfl
  have hset : ((u.startAt 4).setFlag Reg.POW_STAT Fld.POW_STAT_GOV true) = { u with
      regs := ((u.startAt 4).setFlag Reg.POW_STAT Fld.POW_STAT_GOV true).regs
      clk := { u.clk with firstAt := u.now, count := u.clk.count + 1, stepAt := u.now } } := by
    rw [hstart]
    rfl
  generalize (u.startAt 4).setFlag Reg.POW_STAT Fld.POW_STAT_GOV true = v at hframe hpower hset
  refine ⟨?_, ?_, fun h => ?_⟩
  · have hlogs : t.faultLog = u.faultLog := by rw [hframe, hset]
    refine hframe.trans ?_
    rw [hlogs, hset, hclk, hnow, hclear]
    rfl
  · rw [hpower, hset, hclear]
    rfl
  · rw [← hlog h, hframe, hset]

/-- Registers apart from the power block, the start-up, LAST_TRIP and the spares counted. -/
theorem restarted_reg {r : RegRef} (hpow : notPower r.key) (hstart : r.key ≠ Reg.CLK_START.key) (htherm : r.key ≠ Reg.THM_STAT.key)
    (hq : notQflt r.key) : s.restarted.reg r = (s.wiped false).reg r :=
  (governorOn_keepsRegs r hpow).trans ((State.reg_wrReg_ne (s := s.cleared false) hstart).trans (cleared_keepsRegs r ⟨hq, htherm⟩))

theorem restarted_lastTrip : s.restarted.fld Reg.THM_STAT Fld.THM_STAT_LAST_TRIP = s.therm.lastTrip % 16 := by
  have hgov : s.restarted.fld Reg.THM_STAT Fld.THM_STAT_LAST_TRIP = ((s.cleared false).startAt 4).fld Reg.THM_STAT Fld.THM_STAT_LAST_TRIP :=
    keepsRegs_fld governorOn_keepsRegs (by unfold notPower; decide)
  rw [hgov, State.startAt, setPhase_fld, State.fld_setFld_ne (by decide)]
  have hregs : (s.cleared false).fld Reg.THM_STAT Fld.THM_STAT_LAST_TRIP =
      ((s.wiped false).countMaps.setFld Reg.THM_STAT Fld.THM_STAT_LAST_TRIP s.therm.lastTrip).fld Reg.THM_STAT Fld.THM_STAT_LAST_TRIP :=
    State.fld_of_regs cleared_regs
  exact hregs.trans (State.fld_setFld_self (by decide))

/-- The registers of the housekeeping converters stay. -/
theorem wiped_hkcReg {r : RegRef} (h : hkcKey r.key = true) (hmap : ∀ e ∈ s.flash.mapRec.getD [], e.1 ≠ r.key) : (s.wiped false).reg r = s.reg r := by
  have hregs : (s.wiped false).regs = s.flash.mapRec.getD [] ++ s.regs.filter fun e => hkcKey e.1 := rfl
  rw [State.reg, hregs, tget_append_of_no_key hmap]
  exact tget_filter (q := hkcKey) h

theorem wiped_otherReg {r : RegRef} (h : hkcKey r.key = false) : (s.wiped false).reg r = tget r.dflt (s.flash.mapRec.getD []) r.key := by
  have hregs : (s.wiped false).regs = s.flash.mapRec.getD [] ++ s.regs.filter fun e => hkcKey e.1 := rfl
  rw [State.reg, hregs]
  refine tget_append_of_no_key_right fun e he hk => ?_
  obtain ⟨-, hhkc⟩ := List.mem_filter.mp he
  rw [hk, h] at hhkc
  exact absurd hhkc (by decide)

theorem notPower_of_hkcKey {k : Nat} (h : hkcKey k = true) : notPower k ∧ k ≠ Reg.CLK_START.key ∧ k ≠ Reg.THM_STAT.key ∧ notQflt k := by
  simp only [hkcKey, Bool.and_eq_true, decide_eq_true_eq] at h
  refine ⟨fun hp => ?_, ?_, ?_, fun q hq => ?_⟩
  · omega
  · simp only [Reg.CLK_START]
    omega
  · simp only [Reg.THM_STAT]
    omega
  · simp only [Reg.TILE_QFLT]
    omega

theorem restarted_phase : s.restarted.phase = 4 := by
  rw [State.restarted, phase_governorOn, startAt_phase (by decide)]

/-- What a clearing without power loss takes away and keeps, whatever then happens to the registers, the fault log and the operating points. -/
theorem wiped_parts {t : State} {regs : Tbl Word64} {flog : FLog} {power : Power} (h : t = { s.wiped false with
      regs := regs, faultLog := flog, power := power
      clk := { (s.wiped false).clk with firstAt := s.now, count := s.clk.count + 1, stepAt := s.now } }) :
    t.ctxs = [] ∧ t.aux = [] ∧ t.models = [] ∧ t.places = [] ∧ t.parts = [] ∧ t.globalLog = [] ∧ t.pairs = [] ∧
      t.procs = [] ∧ t.longOps = [] ∧ t.tiles = [] ∧ t.phys = [] ∧ t.lasers = [] ∧ t.rings = [] ∧ t.ports = [] ∧ t.mem = {} ∧
      t.twin = {} ∧ t.cal = {} ∧ t.fw = {} ∧ t.sched = {} ∧ t.sec.keyId = [] ∧ t.sec.sessEnd = none ∧ t.clk.running = false ∧ t.time = 0 ∧
      t.clk.count = s.clk.count + 1 ∧ t.now = s.now ∧ t.pending = s.pending ∧ t.flash = s.flash ∧ t.hkc = s.hkc ∧ t.side = s.side ∧
      t.pcie.vfEnable = false ∧ t.pcie.msixOn = [] ∧ t.pcie.pendingBits = [] ∧ t.fabric.reqs = [] ∧
      t.therm.tripped = s.therm.tripped ∧ t.therm.lastTrip = s.therm.lastTrip ∧ t.clk.perstLow = s.clk.perstLow := by
  subst h
  exact ⟨rfl, rfl, rfl, rfl, rfl, rfl, rfl, rfl, rfl, rfl, rfl, rfl, rfl, rfl, rfl, rfl, rfl, rfl, rfl, rfl, rfl, rfl, rfl, rfl, rfl, rfl, rfl,
    rfl, rfl, rfl, rfl, rfl, rfl, rfl, rfl, rfl⟩

/-- A module reset leaves what R549 and R480 say. -/
theorem restarted_after : s.afterModuleReset s.restarted ∧ s.restarted.clk.perstLow = s.clk.perstLow := by
  obtain ⟨hframe, htrip, hlog⟩ := restarted_frame (s := s)
  obtain ⟨h1, h2, h3, h4, h5, h6, h7, h8, h9, h10, h11, h12, h13, h14, h15, h16, h17, h18, h19, h20, h21, h22, h23, h24, h25, h26, h27, h28, h29,
    h30, h31, h32, h33, htripped, hlast, hperst⟩ := wiped_parts hframe
  refine ⟨⟨restarted_phase, h1, h2, h3, h4, h5, h6, h7, h8, h9, h10, h11, h12, h13, h14, h15, h16, h17, h18, h19, h20, h21, h22, h23, h24, h25,
    h26, h27, h28, h29, h30, h31, h32, h33, hlog, htripped, hlast, htrip, restarted_lastTrip, governorOn_gov, fun r hr hmap => ?_,
    fun r hr hpow hstart htherm hq => ?_⟩, hperst⟩
  · obtain ⟨hpow, hstart, htherm, hq⟩ := notPower_of_hkcKey hr
    rw [restarted_reg hpow hstart htherm hq, wiped_hkcReg hr hmap]
  · rw [restarted_reg hpow hstart htherm hq, wiped_otherReg hr]

/-! ## The commands that reset the module -/

theorem exec_moduleReset {quads : BitVec 4} (hp : s.powered = true) (hup : s.hostUp = true) : exec (.moduleReset 0 quads) s = .next s.restarted := by
  show execModuleReset 0 quads s = _
  unfold execModuleReset State.resetWrite
  rw [hostAccess_of_decodes hup (decodes_zero s), if_neg (by decide), moduleReset_eq hp]

/-- The module with PERST# low. -/
def State.perstHeld (s : State) : State := { s with clk := { s.clk with perstLow := true } }

theorem exec_perst_of_long {lowNs : Nat} (hp : s.powered = true) (h : 100000 ≤ lowNs) : exec (.perst lowNs) s = .next s.perstHeld.restarted := by
  show execPerst lowNs s = _
  unfold execPerst
  rw [if_neg (by omega)]
  exact congrArg _ (moduleReset_eq (s := s.perstHeld) hp)

theorem exec_perst_of_short {lowNs : Nat} (h : lowNs < 100000) : exec (.perst lowNs) s = .next s := by
  show execPerst lowNs s = _
  unfold execPerst
  rw [if_pos h]

theorem exec_perstRelease {at_ : Nat} (hphase : s.phase = 4) (hlow : s.clk.perstLow = true) : exec (.perstRelease at_) s =
    .next ({ s.tick at_ with clk := { s.clk with perstLow := false } }.setPhase 4) := by
  show execPerstRelease at_ s = _
  unfold execPerstRelease
  dsimp only
  rw [if_pos (by rw [tick_clk, tick_phase, hphase, hlow]; rfl), tick_clk]

theorem perstRelease_spec {at_ : Nat} (hphase : s.phase = 4) (hlow : s.clk.perstLow = true) :
    ∃ t, exec (.perstRelease at_) s = .next t ∧ t.clk = { s.clk with perstLow := false, stepAt := max s.now at_ } ∧ t.phase = 4 ∧
      t = { s with regs := t.regs, now := t.now, time := t.time, clk := t.clk } ∧ t.now = max s.now at_ ∧
      s.fieldsBut t [(Reg.CLK_START, Fld.CLK_START_PHASE)] := by
  have hnow : (s.tick at_).now = max s.now at_ := State.tick_now
  refine ⟨_, exec_perstRelease hphase hlow, ?_, phase_setPhase (by decide), ?_, ?_, ?_⟩
  · rw [← hnow]
    rfl
  · generalize hu : s.tick at_ = u
    have hframe : u = { s with now := u.now, time := u.time } := hu ▸ tick_frame
    rw [hframe]
    rfl
  · rw [← hnow]
    rfl
  · refine fieldsBut_trans (t := s.tick at_) (fieldsBut_of_regs (by rw [tick_frame])) ?_
    exact fieldsBut_trans (t := { s.tick at_ with clk := { s.clk with perstLow := false } }) (fieldsBut_of_regs rfl)
      (fieldsBut_trans (fieldsBut_setFld (by simp)) (fieldsBut_of_regs rfl))

/-- Only PF0 resets (R556). -/
theorem reset_refused {fn : Nat} {quads : BitVec 4} (hfn : fn ≠ 0) (hwr : s.hostWrites fn) {c : Instr}
    (hc : c = .moduleReset fn quads ∨ c = .quadrantReset fn quads) : ∃ t, exec c s = .next t ∧ s.refuses t fn 0x20018 := by
  obtain ⟨hup, hdec⟩ := hwr
  have hrefuse : ∀ f : State → State, s.resetWrite fn f = s.refuseWrite fn 0x20018 := fun f => by
    unfold State.resetWrite
    rw [hostAccess_of_decodes hup hdec, if_pos hfn]
  rcases hc with rfl | rfl
  · exact ⟨_, congrArg Host.Outcome.next (hrefuse _), refuses_of_refuseWrite⟩
  · exact ⟨_, congrArg Host.Outcome.next (hrefuse _), refuses_of_refuseWrite⟩

end

/-! ## A function's ring pairs taken out of service -/

section
variable {s t u : State} {p r : Nat}

/-- Pair r of function p is off, with nothing waiting and its indices 0. -/
structure State.pairEmpty (s : State) (p r : Nat) : Prop where
  off : s.pairOn p r = false
  out : (s.pair p r).out = []
  sqTail : s.fld (Reg.SCH_SQ_DB p r) Fld.SCH_SQ_DB_SQ_TAIL = 0
  cqHead : s.fld (Reg.SCH_CQ_DB p r) Fld.SCH_CQ_DB_CQ_HEAD = 0
  sqHead : s.fld (Reg.SCH_RING_IDX p r) Fld.SCH_RING_IDX_SQ_HEAD = 0
  cqTail : s.fld (Reg.SCH_RING_IDX p r) Fld.SCH_RING_IDX_CQ_TAIL = 0

/-- What such a pair shows depends on its registers and its queue. -/
theorem pairEmpty_of_keeps (h : s.pairEmpty p r) (hout : (t.pair p r).out = (s.pair p r).out)
    (hregs : ∀ q ∈ [Reg.SCH_RING_CFG p r, Reg.SCH_SQ_DB p r, Reg.SCH_CQ_DB p r, Reg.SCH_RING_IDX p r], ∀ f, t.fld q f = s.fld q f) :
    t.pairEmpty p r where
  off := by
    rw [State.pairOn, State.flag, hregs _ (by simp)]
    exact h.off
  out := hout.trans h.out
  sqTail := (hregs _ (by simp) _).trans h.sqTail
  cqHead := (hregs _ (by simp) _).trans h.cqHead
  sqHead := (hregs _ (by simp) _).trans h.sqHead
  cqTail := (hregs _ (by simp) _).trans h.cqTail

theorem ringOff_pairEmpty : (s.ringOff p r).pairEmpty p r := by
  obtain ⟨hoff, htail, hhead, hcqt, hcqh, -⟩ := ringOff_indices (s := s) (f := p) (r := r)
  refine ⟨hoff, ?_, htail, hcqh, hhead, hcqt⟩
  unfold State.pair
  rw [ringOff_pairs]
  simp [State.setPair, Pair.emptied]

/-- The registers of pair r. -/
def pairRegs (p r : Nat) : List RegRef := [Reg.SCH_RING_CFG p r, Reg.SCH_SQ_DB p r, Reg.SCH_CQ_DB p r, Reg.SCH_RING_IDX p r]

/-- Taking another pair out of service leaves the registers of pair r alone. -/
theorem ringOff_pairRegs {k : Nat} {q : RegRef} {f : Field} (hr : r < 17) (hk : k < 17) (hne : k ≠ r) (hq : q ∈ pairRegs p r) :
    (s.ringOff p k).fld q f = s.fld q f := by
  refine ringOff_fields q f fun x hx he => ?_
  exfalso
  simp only [pairRegs, List.mem_cons, List.not_mem_nil, or_false] at hq hx
  rcases hx with rfl | rfl | rfl | rfl | rfl <;> rcases hq with rfl | rfl | rfl | rfl <;>
    simp only [Reg.SCH_RING_CFG, Reg.SCH_SQ_DB, Reg.SCH_CQ_DB, Reg.SCH_RING_IDX, Reg.SCH_FN_STAT] at he <;> omega

/-- One pair of a function that is reset. -/
def State.pairReset (s : State) (p r : Nat) : State := if s.pairOn p r then s.ringOff p r else s

theorem pairReset_other {k : Nat} (hr : r < 17) (hk : k < 17) (hne : k ≠ r) :
    (∀ q ∈ pairRegs p r, ∀ f, (s.pairReset p k).fld q f = s.fld q f) ∧ (s.pairReset p k).pair p r = s.pair p r := by
  unfold State.pairReset
  split
  · refine ⟨fun q hq f => ringOff_pairRegs hr hk hne hq, ?_⟩
    unfold State.pair
    rw [ringOff_pairs]
    exact tget_tset_ne (by unfold pairKey; omega)
  · exact ⟨fun _ _ _ => rfl, rfl⟩

theorem pairOn_pairReset_other {k : Nat} (hr : r < 17) (hk : k < 17) (hne : k ≠ r) : (s.pairReset p k).pairOn p r = s.pairOn p r := by
  unfold State.pairOn State.flag
  rw [(pairReset_other hr hk hne).1 _ (by simp [pairRegs])]

theorem pairReset_pairEmpty {k : Nat} (hr : r < 17) (hk : k < 17) (h : s.pairEmpty p r) : (s.pairReset p k).pairEmpty p r := by
  by_cases hne : k = r
  · subst hne
    unfold State.pairReset
    rw [if_neg (by simp [h.off])]
    exact h
  · obtain ⟨hregs, hpair⟩ := pairReset_other (s := s) (p := p) hr hk hne
    exact pairEmpty_of_keeps h (by rw [hpair]) hregs

/-- The pairs of a function that is reset. -/
def State.pairsReset (s : State) (p : Nat) : State := s.each (List.range 17) fun s r => s.pairReset p r

theorem pairsReset_off (hr : r < 17) : (s.pairsReset p).pairOn p r = false := by
  refine each_reaches (P := fun _ => True) (Q := fun t => t.pairOn p r = false) (List.mem_range.mpr hr) trivial (fun _ _ _ _ => trivial) ?_ ?_
  · intro t _
    unfold State.pairReset
    split
    · exact ringOff_pairEmpty.off
    · next h => simpa using h
  · intro t k hk _ ht
    by_cases hne : k = r
    · subst hne
      unfold State.pairReset
      rw [if_neg (by simp [ht])]
      exact ht
    · rw [pairOn_pairReset_other hr (List.mem_range.mp hk) hne]
      exact ht

theorem pairsReset_empty (hr : r < 17) (hon : s.pairOn p r = true) : (s.pairsReset p).pairEmpty p r := by
  refine each_reaches (P := fun t => t.pairOn p r = true ∨ t.pairEmpty p r) (Q := fun t => t.pairEmpty p r) (List.mem_range.mpr hr) (.inl hon) ?_ ?_ ?_
  · intro t k hk ht
    by_cases hne : k = r
    · subst hne
      rcases ht with ht | ht
      · right
        unfold State.pairReset
        rw [if_pos ht]
        exact ringOff_pairEmpty
      · exact .inr (pairReset_pairEmpty hr hr ht)
    · rw [pairOn_pairReset_other hr (List.mem_range.mp hk) hne]
      exact ht.imp id fun h => pairReset_pairEmpty hr (List.mem_range.mp hk) h
  · intro t ht
    rcases ht with ht | ht
    · unfold State.pairReset
      rw [if_pos ht]
      exact ringOff_pairEmpty
    · exact pairReset_pairEmpty hr hr ht
  · exact fun t k hk _ ht => pairReset_pairEmpty hr (List.mem_range.mp hk) ht

/-- The fields that the reset of a function's pairs may change. -/
def resetFields (p : Nat) : List (RegRef × Field) :=
  (Reg.SCH_FN_STAT p, Fld.SCH_FN_STAT_DISCARD) :: (List.range 17).flatMap fun r =>
    [(Reg.SCH_RING_CFG p r, Fld.SCH_RING_CFG_EN), (Reg.SCH_SQ_DB p r, wholeReg), (Reg.SCH_CQ_DB p r, wholeReg), (Reg.SCH_RING_IDX p r, wholeReg)]

/-- Only those fields, and the pairs of function p, differ. -/
def State.pairsOnly (s t : State) (p : Nat) : Prop :=
  t = { s with regs := t.regs, pairs := t.pairs } ∧ s.fieldsBut t (resetFields p) ∧ ∀ k, k / 32 ≠ p → tget {} t.pairs k = tget {} s.pairs k

theorem pairsOnly_refl : s.pairsOnly s p := ⟨rfl, fieldsBut_refl, fun _ _ => rfl⟩

theorem pairsOnly_trans (h : s.pairsOnly t p) (k : t.pairsOnly u p) : s.pairsOnly u p := by
  obtain ⟨hframe, hfields, hpairs⟩ := h
  obtain ⟨kframe, kfields, kpairs⟩ := k
  exact ⟨kframe.trans (by rw [hframe]), fieldsBut_trans hfields kfields, fun n hn => (kpairs n hn).trans (hpairs n hn)⟩

theorem pairsOnly_pairReset (hr : r < 17) : s.pairsOnly (s.pairReset p r) p := by
  unfold State.pairReset
  split
  · refine ⟨ringOff_frame, fieldsBut_mono ringOff_fields fun x hx => ?_, fun k hk => ?_⟩
    · simp only [resetFields, List.mem_cons, List.mem_flatMap, List.mem_range]
      simp only [List.mem_cons, List.not_mem_nil, or_false] at hx
      rcases hx with hx | hx | hx | hx | hx
      · exact .inr ⟨r, hr, .inl hx⟩
      · exact .inr ⟨r, hr, .inr (.inl hx)⟩
      · exact .inr ⟨r, hr, .inr (.inr (.inl hx))⟩
      · exact .inr ⟨r, hr, .inr (.inr (.inr (.inl hx)))⟩
      · exact .inl hx
    · rw [ringOff_pairs]
      exact tget_tset_ne (by unfold pairKey; omega)
  · exact pairsOnly_refl

theorem pairsOnly_pairsReset : s.pairsOnly (s.pairsReset p) p :=
  each_induction (P := fun t => s.pairsOnly t p) pairsOnly_refl fun _ _ hr ht => pairsOnly_trans ht (pairsOnly_pairReset (List.mem_range.mp hr))

theorem pairsOnly_fenceSweep : s.pairsOnly (s.fenceSweep p) p := by
  obtain ⟨hframe, -, hpairs⟩ := ringsOnly_fenceSweep (s := s) (f := p) (r := 0)
  exact ⟨hframe, fieldsBut_mono fenceSweep_fields (by simp [resetFields]), hpairs⟩

/-! ## FENCEs of pairs out of service -/

theorem pairRegs_notFnStat {q : RegRef} (hq : q ∈ pairRegs p r) (hr : r < 17) : notFnStat p q.key := by
  simp only [pairRegs, List.mem_cons, List.not_mem_nil, or_false] at hq
  rcases hq with rfl | rfl | rfl | rfl <;>
    simp only [notFnStat, Reg.SCH_RING_CFG, Reg.SCH_SQ_DB, Reg.SCH_CQ_DB, Reg.SCH_RING_IDX, Reg.SCH_FN_STAT] <;> omega

/-- Every pair of the function is off and pair r's queue is `out`. -/
def State.offWith (s : State) (p r : Nat) (out : List Out) : Prop := (∀ k, k < 17 → s.pairOn p k = false) ∧ (s.pair p r).out = out

theorem pairOn_bump_fnStat {j : Nat} (hj : j < 17) : (s.bump (Reg.SCH_FN_STAT p) Fld.SCH_FN_STAT_DISCARD).pairOn p j = s.pairOn p j := by
  have hkeep : s.keepsRegs (s.bump (Reg.SCH_FN_STAT p) Fld.SCH_FN_STAT_DISCARD) (notFnStat p) := keepsRegs_bump fun h => h rfl
  have hkey : notFnStat p (Reg.SCH_RING_CFG p j).key := pairRegs_notFnStat (r := j) (by simp [pairRegs]) hj
  exact keepsRegs_flag hkeep hkey

theorem pair_bump {q : RegRef} {f : Field} {k : Nat} : (s.bump q f).pair p k = s.pair p k := by
  rw [State.bump, bumpBy_eq]
  rfl

/-- One FENCE of a pair out of service looked at. -/
theorem fenceRound_offWith {out : List Out} {k : Nat} {x : Pair} (h : s.offWith p r out) (hx : x.out = (s.pair p k).out) (hr : r < 17) (hk : k < 17) :
    (s.setPair p k x).offWith p r out ∧ ((s.setPair p k x).bump (Reg.SCH_FN_STAT p) Fld.SCH_FN_STAT_DISCARD).offWith p r out := by
  obtain ⟨hoff, hout⟩ := h
  have hset : ((s.setPair p k x).pair p r).out = out := by
    by_cases hne : r = k
    · subst hne
      rw [State.pair_setPair_self, hx, hout]
    · rw [← hout]
      unfold State.pair State.setPair
      dsimp only
      rw [tget_tset_ne (by unfold pairKey; omega)]
  have hpairs : ∀ j, j < 17 → (s.setPair p k x).pairOn p j = false := fun j hj => hoff j hj
  generalize s.setPair p k x = v at hset hpairs
  refine ⟨⟨hpairs, hset⟩, fun j hj => ?_, ?_⟩
  · rw [pairOn_bump_fnStat hj]
    exact hpairs j hj
  · rw [pair_bump]
    exact hset

theorem fenceSweep_offWith {out : List Out} (hr : r < 17) (h : s.offWith p r out) : (s.fenceSweep p).offWith p r out := by
  unfold State.fenceSweep
  refine each_induction (P := fun t => t.offWith p r out) h fun t _ _ ht => ?_
  unfold State.fencePass
  refine each_induction (P := fun t => t.offWith p r out) ht fun u k hk hu => ?_
  have hk := List.mem_range.mp hk
  dsimp only
  split
  · split
    · split
      · refine (fenceRound_offWith hu ?_ hr hk).1
        rfl
      · split
        · refine (fenceRound_offWith hu ?_ hr hk).2
          rfl
        · next hon => exact absurd (hu.1 k hk) (by simpa using hon)
    · exact hu
  · exact hu

theorem fenceSweep_pairEmpty (hr : r < 17) (hoff : ∀ k, k < 17 → s.pairOn p k = false) (h : s.pairEmpty p r) : (s.fenceSweep p).pairEmpty p r := by
  obtain ⟨-, hout⟩ := fenceSweep_offWith (out := []) hr ⟨hoff, h.out⟩
  exact pairEmpty_of_keeps h (hout.trans h.out.symm) fun q hq f => keepsRegs_fld fenceSweep_keepsRegs (pairRegs_notFnStat hq hr)

/-! ## The function-level reset -/

theorem flr_eq : s.flr p = ((s.pairsReset p).fenceSweep p).msixReset p := rfl

theorem msixReset_frame : s.msixReset p = { s with pcie := (s.msixReset p).pcie } := rfl

/-- What a function-level reset comes to (R284, R318). -/
theorem flr_spec :
    (∀ r, r < 17 → (s.flr p).pairOn p r = false) ∧ (∀ r, r < 17 → s.pairOn p r = true → (s.flr p).pairEmpty p r) ∧
      s.flr p = { s with regs := (s.flr p).regs, pairs := (s.flr p).pairs, pcie := (s.flr p).pcie } ∧
      (∀ k, k / 32 ≠ p → tget {} (s.flr p).pairs k = tget {} s.pairs k) ∧
      (s.flr p).pcie = { s.pcie with
        msixOn := s.pcie.msixOn.filter (· != p), funcMask := s.pcie.funcMask.filter (· != p)
        unmasked := s.pcie.unmasked.filter (fun x => x / 32 != p), pendingBits := s.pcie.pendingBits.filter (fun x => x / 32 != p) } ∧
      s.fieldsBut (s.flr p) (resetFields p) := by
  have hoff : ∀ r, r < 17 → (s.pairsReset p).pairOn p r = false := fun r hr => pairsReset_off hr
  have hswept : ∀ r, r < 17 → ((s.pairsReset p).fenceSweep p).pairOn p r = false := fun r hr => (fenceSweep_offWith hr ⟨hoff, rfl⟩).1 r hr
  have hempty : ∀ r, r < 17 → s.pairOn p r = true → ((s.pairsReset p).fenceSweep p).pairEmpty p r := fun r hr hon =>
    fenceSweep_pairEmpty hr hoff (pairsReset_empty hr hon)
  obtain ⟨hframe, hfields, hpairs⟩ := pairsOnly_trans pairsOnly_pairsReset (pairsOnly_fenceSweep (s := s.pairsReset p) (p := p))
  rw [flr_eq]
  generalize (s.pairsReset p).fenceSweep p = w at *
  refine ⟨hswept, fun r hr hon => ?_, ?_, hpairs, ?_, fieldsBut_trans hfields (fieldsBut_of_regs rfl)⟩
  · exact pairEmpty_of_keeps (hempty r hr hon) rfl fun _ _ _ => rfl
  · rw [hframe]
    rfl
  · rw [hframe]
    rfl

/-- A reset of a function by either command. -/
theorem exec_functionReset (hp : p < 64) (hup : s.hostUp = true) {c : Instr} (hc : c = .functionLevelReset p ∨ (c = .d3hot p ∧ p ≠ 0)) :
    exec c s = .next (if s.enabledFn p then s.flr p else s) := by
  rcases hc with rfl | ⟨rfl, hne⟩
  · show execFunctionLevelReset p s = _
    unfold execFunctionLevelReset
    rw [decide_eq_true hp, hup, Bool.true_and]
    rfl
  · show execD3hot p s = _
    unfold execD3hot
    rw [decide_eq_true hp, hup, Bool.true_and, decide_eq_true hne, Bool.and_true]
    rfl

theorem exec_d3hot_zero : exec (.d3hot 0) s = .next s := by
  show execD3hot 0 s = _
  unfold execD3hot
  rw [if_neg (by simp)]
  rfl

end

end Sys2Proof.Machine

namespace Sys2Proof
open Machine

/-- Settles O18: a module reset clears, then starts at step 4 with the governor on; a quadrant reset fences, takes its ports and processor down and
clears its dies; a function-level reset turns the function's pairs off one by one. -/
theorem resetsClearWhatTheyName : Obligations.ResetsClearWhatTheyName := by
  unfold Obligations.ResetsClearWhatTheyName
  refine ⟨fun s quads lowNs at_ hp => ⟨fun hup => ?_, fun hlong => ?_, exec_perst_of_short, perstRelease_spec, fun fn hfn hwr c hc => ?_⟩,
    fun s q hq hready => ⟨quadrant_reset hq hready, fun hbit => ?_⟩, fun s quads => ?_, fun s p hp hup => ⟨fun c hc => ⟨fun hen => ?_, fun hen => ?_⟩,
      exec_d3hot_zero⟩⟩
  · obtain ⟨hafter, hperst⟩ := restarted_after (s := s)
    exact ⟨_, exec_moduleReset hp hup, hafter, hperst⟩
  · obtain ⟨hafter, hperst⟩ := restarted_after (s := s.perstHeld)
    exact ⟨_, exec_perst_of_long hp hlong, hafter, hperst⟩
  · exact reset_refused hfn hwr hc
  · rw [exec_quadrantReset (hostUp_of_ready hready) hq, quadReset_eq, if_pos (by simp [hbit])]
  · exact exec_quadrantReset_foldl
  · obtain ⟨hoff, hempty, hframe, hpairs, hpcie, hfields⟩ := flr_spec (s := s) (p := p)
    refine ⟨s.flr p, by rw [exec_functionReset hp hup hc, if_pos hen], hoff, fun r hr hon => ?_, hframe, hpairs, hpcie, hfields⟩
    obtain ⟨-, hout, htail, hcqh, hhead, hcqt⟩ := hempty r hr hon
    exact ⟨hout, htail, hcqh, hhead, hcqt⟩
  · rw [exec_functionReset hp hup hc, hen]
    rfl

end Sys2Proof
end

section
/-! PROOFS. MODEL_LOAD and MODEL_SWAP begin (R261, R263, R272, R273). -/

namespace Sys2Proof.Machine

variable {s t u b : State} {h : Hdr} {q : LoadParams} {image : List Byte}

/-! ## Requests leave the chains alone -/

theorem sendMsg_chains {m : FMsg} : (s.sendMsg m).fabric.chains = s.fabric.chains := by
  unfold State.sendMsg State.transmit
  split
  · dsimp only
    split <;> rfl
  · rfl

theorem request_chains {dest op part offset : Nat} {payload : List Byte} {place : Option Nat} :
    (s.request dest op part offset payload place).fabric.chains = s.fabric.chains := sendMsg_chains

theorem fabricOnly_passOpening {c : Chain} : s.fabricOnly (s.passOpening c) ∧ (s.passOpening c).fabric.chains = s.fabric.chains := by
  unfold State.passOpening
  split
  · exact ⟨fabricOnly_request, request_chains⟩
  · exact ⟨rfl, rfl⟩

theorem fabricOnly_tellChain {c : Chain} {dest kind who : Nat} : s.fabricOnly (s.tellChain c dest kind who) ∧
    (s.tellChain c dest kind who).fabric.chains = s.fabric.chains := ⟨fabricOnly_request, request_chains⟩

/-! ## The length of a load's image -/

/-- An operation as it learns the length of its image. -/
def LongOp.lengthened (o : LongOp) (op total : Nat) : LongOp :=
  match o.pkt with
  | .modelLoad .. => if o.id = op then { o with total := total } else o
  | _ => o

theorem loadLength_eq {op total : Nat} : s.loadLength op total = { s with longOps := s.longOps.map fun o => o.lengthened op total } := rfl

theorem lengthened_id {o : LongOp} {op total : Nat} : (o.lengthened op total).id = o.id := by
  unfold LongOp.lengthened
  split
  · split <;> rfl
  · rfl

theorem lengthened_of_ne {o : LongOp} {op total : Nat} (h : o.id ≠ op) : o.lengthened op total = o := by
  unfold LongOp.lengthened
  split
  · exact if_neg h
  · rfl

theorem filter_lengthened {l : List LongOp} {op total : Nat} :
    (l.map fun o => o.lengthened op total).filter (fun o => o.id != op) = l.filter fun o => o.id != op := by
  induction l with
  | nil => rfl
  | cons o l ih =>
    rw [List.map_cons, List.filter_cons, List.filter_cons, lengthened_id, ih]
    by_cases hid : o.id = op
    · rw [if_neg (by simp [hid]), if_neg (by simp [hid])]
    · rw [lengthened_of_ne hid]

/-- An operation that has begun learns the length of its image where it is a load. -/
theorem longBegins_loadLength {c : CPacket} {total done T N : Nat} {wait : List Nat} (hb : s.longBegins t h c total done wait)
    (hlast : ({ id := s.sched.longSeq, h := h, pkt := c, total := total, done := done, startAt := s.now, progAt := s.time, wait := wait } : LongOp).lengthened
      s.sched.longSeq T = { id := s.sched.longSeq, h := h, pkt := c, total := N, done := done, startAt := s.now, progAt := s.time, wait := wait }) :
    s.longBegins (t.loadLength s.sched.longSeq T) h c N done wait := by
  obtain ⟨hlen, hothers, hget, hseq, hcount, hout⟩ := hb
  rw [loadLength_eq]
  refine ⟨by simpa using hlen, filter_lengthened.trans hothers, ?_, hseq, hcount, hout⟩
  rw [List.getLast?_map, hget, Option.map_some, hlast]

/-! ## Chains -/

/-- Only the chains, the ports and the lengths of loads differ. -/
def State.chainOnly (s t : State) : Prop := t = { s with fabric := t.fabric, ports := t.ports, longOps := t.longOps }

theorem chainOnly_of_fabricOnly (h : s.fabricOnly t) : s.chainOnly t := h.trans (by rw [h])

theorem chainOnly_trans (h : s.chainOnly t) (k : t.chainOnly u) : s.chainOnly u := k.trans (by rw [h])

/-- The opening message that waits for a member's load. -/
def State.waitingOpening (s : State) (head tag : Nat) : Option FMsg :=
  ((s.fabric.openings.filter fun x => decide (s.now < x.2 + 1000000000)).find? fun x =>
    head != s.myId && head == sliceNum x.1.payload 4 2 && tag == sliceNum x.1.payload 2 2).map Prod.fst

/-- What a load's total becomes where its opening waits. -/
def State.lengthWaiting (s : State) (head tag : Nat) : Option Nat := (s.waitingOpening head tag).map fun m => sliceNum m.payload 8 8

theorem waitingOpening_nil {head tag : Nat} (h : s.fabric.openings = []) : s.lengthWaiting head tag = none := by
  rw [State.lengthWaiting, State.waitingOpening, h]
  rfl

/-- A record of a chain of the operation with a number, as far as the obligation names it. -/
def Chain.isOf (c d : Chain) : Prop :=
  d.fn = c.fn ∧ d.op = c.op ∧ d.model = c.model ∧ d.tag = c.tag ∧ d.head = c.head ∧ d.answered = c.answered

/-- A member's chain as its opening message makes it. -/
def Chain.openedBy (c : Chain) (m : FMsg) : Chain :=
  { c with opened := true, src := sliceNum m.payload 1 1, prev := m.src, hop := sliceNum m.payload 6 1, total := sliceNum m.payload 8 8
           members := (List.range (sliceNum m.payload 7 1)).map fun k => sliceNum m.payload (16 + 2 * k) 2 }

/-- The opening of a chain is taken, before the message goes on. -/
def State.openingTaken (s : State) (c : Chain) (m : FMsg) : State := (s.setChain (c.openedBy m)).loadLength c.op (sliceNum m.payload 8 8)

theorem takeOpening_eq {c : Chain} {m : FMsg} : s.takeOpening c m =
    ((s.openingTaken c m).passOpening (c.openedBy m)).tellChain (c.openedBy m) c.head mgChainAnswer 0 := rfl

theorem openingTaken_spec {c : Chain} {m : FMsg} (hc : c ∈ s.fabric.chains) : s.chainOnly (s.openingTaken c m) ∧
    (s.openingTaken c m).longOps = (s.loadLength c.op (sliceNum m.payload 8 8)).longOps ∧ c.openedBy m ∈ (s.openingTaken c m).fabric.chains := by
  refine ⟨rfl, rfl, ?_⟩
  show c.openedBy m ∈ s.fabric.chains.map fun x => if x.op = (c.openedBy m).op then c.openedBy m else x
  exact List.mem_map.mpr ⟨c, hc, if_pos rfl⟩

/-- A member's chain takes its opening. -/
theorem takeOpening_spec {c : Chain} {m : FMsg} (hc : c ∈ s.fabric.chains) : s.chainOnly (s.takeOpening c m) ∧
    (s.takeOpening c m).longOps = (s.loadLength c.op (sliceNum m.payload 8 8)).longOps ∧ ∃ d ∈ (s.takeOpening c m).fabric.chains, c.isOf d := by
  obtain ⟨hset, hlong, hmem⟩ := openingTaken_spec (m := m) hc
  obtain ⟨hpass, hpassChains⟩ := fabricOnly_passOpening (s := s.openingTaken c m) (c := c.openedBy m)
  obtain ⟨htell, htellChains⟩ := fabricOnly_tellChain (s := (s.openingTaken c m).passOpening (c.openedBy m)) (c := c.openedBy m) (dest := c.head)
    (kind := mgChainAnswer) (who := 0)
  have honly := fabricOnly_trans hpass htell
  have hops := congrArg State.longOps honly
  refine ⟨chainOnly_trans hset (chainOnly_of_fabricOnly honly), hops.trans hlong, c.openedBy m, ?_, rfl, rfl, rfl, rfl, rfl, rfl⟩
  rw [takeOpening_eq, htellChains, hpassChains]
  exact hmem

theorem earlyOpening_spec {c : Chain} (hc : c ∈ s.fabric.chains) : s.chainOnly (s.earlyOpening c) ∧
    (s.earlyOpening c).longOps = (match s.lengthWaiting c.head c.tag with
      | some T => (s.loadLength c.op T).longOps
      | none => s.longOps) ∧ ∃ d ∈ (s.earlyOpening c).fabric.chains, c.isOf d := by
  have hfind : s.waitingOpening c.head c.tag =
      ((s.fabric.openings.filter fun x => decide (s.now < x.2 + 1000000000)).find? fun x => opens c s.myId x.1).map Prod.fst := rfl
  unfold State.earlyOpening State.lengthWaiting
  rw [hfind]
  dsimp only
  cases (s.fabric.openings.filter fun x => decide (s.now < x.2 + 1000000000)).find? fun x => opens c s.myId x.1 with
  | none => exact ⟨rfl, rfl, c, hc, rfl, rfl, rfl, rfl, rfl, rfl⟩
  | some x =>
    dsimp only [Option.map_some]
    generalize hv : ({ s with fabric := _ } : State) = v
    have hchains : v.fabric.chains = s.fabric.chains := by rw [← hv]
    have hops : v.longOps = s.longOps := by rw [← hv]
    have hfab : s.fabricOnly v := by rw [← hv]; rfl
    obtain ⟨honly, hlong, hmem⟩ := takeOpening_spec (s := v) (c := c) (m := x.1) (hchains ▸ hc)
    refine ⟨chainOnly_trans (chainOnly_of_fabricOnly hfab) honly, hlong.trans ?_, hmem⟩
    rw [loadLength_eq, loadLength_eq, hops]

/-- The record of a chain of a load or a swap. -/
def State.chainRecord (s : State) (o : LongOp) (q : LoadParams) (total : Nat) : Chain :=
  { fn := o.h.fn, op := o.id, model := q.modelId.toNat, tag := q.chainTag.toNat,
    head := if q.source = 1 then q.head.toNat else s.myId, members := (q.members.take q.nMembers.toNat).map BitVec.toNat,
    opened := q.source != 1, startAt := s.now, src := q.source.toNat, total := total }

/-- The record enters the table of chains. -/
def State.chainEntered (s : State) (c : Chain) : State := { s with fabric := { s.fabric with chains := s.fabric.chains ++ [c] } }

theorem joinChain_eq {o : LongOp} {T : Nat} : s.joinChain o q T =
    if q.source = 1 || q.nMembers != 0 then
      if q.source = 1 then (s.chainEntered (s.chainRecord o q T)).earlyOpening (s.chainRecord o q T)
      else (s.chainEntered (s.chainRecord o q T)).passOpening (s.chainRecord o q T)
    else s := rfl

theorem joinChain_alone {o : LongOp} {T : Nat} (hs : q.source ≠ 1) (hn : q.nMembers = 0) : s.joinChain o q T = s := by
  rw [joinChain_eq, if_neg]
  rw [decide_eq_false hs, hn]
  decide

theorem mem_chainEntered {c : Chain} : c ∈ (s.chainEntered c).fabric.chains := by simp [State.chainEntered]

/-- A head's chain begins with its opening message. -/
theorem joinChain_head {o : LongOp} {T : Nat} (hs : q.source ≠ 1) (hn : q.nMembers ≠ 0) : s.fabricOnly (s.joinChain o q T) ∧
    s.chainRecord o q T ∈ (s.joinChain o q T).fabric.chains := by
  obtain ⟨honly, hchains⟩ := fabricOnly_passOpening (s := s.chainEntered (s.chainRecord o q T)) (c := s.chainRecord o q T)
  rw [joinChain_eq, if_pos (by rw [bne_iff_ne.mpr hn, Bool.or_true]), if_neg hs]
  exact ⟨fabricOnly_trans (t := s.chainEntered (s.chainRecord o q T)) rfl honly, hchains ▸ mem_chainEntered⟩

/-- A member's chain takes the opening that has come. -/
theorem joinChain_member {o : LongOp} {T : Nat} (hs : q.source = 1) : s.chainOnly (s.joinChain o q T) ∧
    (s.joinChain o q T).longOps = (match s.lengthWaiting q.head.toNat q.chainTag.toNat with
      | some T => (s.loadLength o.id T).longOps
      | none => s.longOps) ∧ ∃ d ∈ (s.joinChain o q T).fabric.chains, (s.chainRecord o q T).isOf d := by
  obtain ⟨honly, hlong, hmem⟩ := earlyOpening_spec (s := s.chainEntered (s.chainRecord o q T)) (c := s.chainRecord o q T) mem_chainEntered
  rw [joinChain_eq, if_pos (by rw [decide_eq_true hs, Bool.true_or]), if_pos hs]
  have hhead : (s.chainRecord o q T).head = q.head.toNat := if_pos hs
  refine ⟨chainOnly_trans (t := s.chainEntered (s.chainRecord o q T)) rfl honly, ?_, hmem⟩
  rw [hhead] at hlong
  exact hlong

/-! ## What the operation tells -/

theorem longKept_of_chainOnly (hk : s.chainOnly t) (hops : t.longOps = s.longOps) : s.longKept t h := by
  rw [State.chainOnly, hops] at hk
  rw [hk]
  exact longKept_of_frame rfl rfl rfl rfl

theorem longBegins_of_chainOnly {c : CPacket} {total done : Nat} {wait : List Nat} (hb : b.longBegins u h c total done wait) (hk : t.chainOnly s)
    (hops : s.longOps = u.longOps) (ht : t.longKept u h) : b.longBegins s h c total done wait :=
  longBegins_of_longKept hb (by
    obtain ⟨tops, tseq, tcount, tout⟩ := ht
    rw [hk]
    exact ⟨hops, tseq.symm, tcount.symm, tout.symm⟩)

/-- The total of a load, where an opening that waits gives it. -/
def State.loadTotal (b : State) (q : LoadParams) : Nat :=
  if q.source = 1 then (b.lengthWaiting q.head.toNat q.chainTag.toNat).getD (b.srcTotal q) else b.srcTotal q

theorem loadTotal_eq (hq : q.source ≠ 1 ∨ b.fabric.openings = []) : b.loadTotal q = b.srcTotal q := by
  unfold State.loadTotal
  rcases hq with hq | hq
  · rw [if_neg hq]
  · rw [waitingOpening_nil hq]
    simp

/-- A state in which an operation has just begun and a model's record is written. -/
def State.modelBegun (u : State) (m : Nat) (x : Model) (o : LongOp) (q : LoadParams) (T : Nat) : State := (u.setModel m x).joinChain o q T

theorem myId_of_begunAs {c : CPacket} {total : Nat} (hu : b.begunAs u h c total) : u.myId = b.myId := by
  obtain ⟨-, -, hfields⟩ := hu
  refine hfields _ _ fun x hx hk => ?_
  obtain rfl := List.mem_singleton.mp hx
  simp only [Reg.SCH_FN_STAT, Reg.LNK_COORD] at hk
  omega

theorem lengthWaiting_congr {head tag : Nat} (hfab : t.fabric = s.fabric) (hnow : t.now = s.now) (hid : t.myId = s.myId) :
    t.lengthWaiting head tag = s.lengthWaiting head tag := by
  rw [State.lengthWaiting, State.waitingOpening, hfab, hnow, hid]
  rfl

/-- What a model's operation leaves beside its chain: the model's record. -/
theorem modelBegun_spec {m : Nat} {x : Model} {c : CPacket} {total T : Nat} (hu : b.begunAs u h c total) :
    (u.modelBegun m x (b.newLong h c total) q T).model m = x ∧ (∀ k, k ≠ m → (u.modelBegun m x (b.newLong h c total) q T).model k = b.model k) ∧
      (q.source ≠ 1 → q.nMembers = 0 → (u.modelBegun m x (b.newLong h c total) q T).fabric = b.fabric ∧
        (u.modelBegun m x (b.newLong h c total) q T).ports = b.ports) ∧
      (q.source = 1 ∨ q.nMembers ≠ 0 → ∃ d ∈ (u.modelBegun m x (b.newLong h c total) q T).fabric.chains, d.fn = h.fn ∧ d.op = b.sched.longSeq ∧
        d.model = q.modelId.toNat ∧ d.tag = q.chainTag.toNat ∧ d.head = (if q.source = 1 then q.head.toNat else b.myId) ∧
        (q.source ≠ 1 → d.members = (q.members.take q.nMembers.toNat).map BitVec.toNat) ∧ d.answered = []) ∧
      u.modelBegun m x (b.newLong h c total) q T = { b with
        regs := (u.modelBegun m x (b.newLong h c total) q T).regs, pairs := (u.modelBegun m x (b.newLong h c total) q T).pairs
        longOps := (u.modelBegun m x (b.newLong h c total) q T).longOps, models := (u.modelBegun m x (b.newLong h c total) q T).models
        fabric := (u.modelBegun m x (b.newLong h c total) q T).fabric, ports := (u.modelBegun m x (b.newLong h c total) q T).ports
        sched := { b.sched with longSeq := b.sched.longSeq + 1 } } ∧
      (u.modelBegun m x (b.newLong h c total) q T).longOps =
        (if q.source = 1 then (match b.lengthWaiting q.head.toNat q.chainTag.toNat with
          | some T => (u.loadLength b.sched.longSeq T).longOps
          | none => u.longOps) else u.longOps) ∧ u.chainOnly { u.modelBegun m x (b.newLong h c total) q T with models := u.models } := by
  have hid0 := myId_of_begunAs hu
  have hid : (u.setModel m x).myId = b.myId := hid0
  obtain ⟨-, hframe, -⟩ := hu
  have hfab : (u.setModel m x).fabric = b.fabric := by rw [State.setModel, hframe]
  have hports : (u.setModel m x).ports = b.ports := by rw [State.setModel, hframe]
  have hnow : (u.setModel m x).now = b.now := by rw [State.setModel, hframe]
  have hrec : ((u.setModel m x).chainRecord (b.newLong h c total) q T).head = if q.source = 1 then q.head.toNat else b.myId := by rw [← hid]; rfl
  have hwait := lengthWaiting_congr (head := q.head.toNat) (tag := q.chainTag.toNat) hfab hnow hid
  have hjoin : (u.setModel m x).chainOnly (u.modelBegun m x (b.newLong h c total) q T) ∧
      (u.modelBegun m x (b.newLong h c total) q T).longOps =
        (if q.source = 1 then (match b.lengthWaiting q.head.toNat q.chainTag.toNat with
          | some T => (u.loadLength b.sched.longSeq T).longOps
          | none => u.longOps) else u.longOps) ∧
      (q.source ≠ 1 → q.nMembers = 0 → (u.modelBegun m x (b.newLong h c total) q T).fabric = b.fabric ∧
        (u.modelBegun m x (b.newLong h c total) q T).ports = b.ports) ∧
      (q.source = 1 ∨ q.nMembers ≠ 0 → ∃ d ∈ (u.modelBegun m x (b.newLong h c total) q T).fabric.chains,
        ((u.setModel m x).chainRecord (b.newLong h c total) q T).isOf d ∧
          (q.source ≠ 1 → d.members = (q.members.take q.nMembers.toNat).map BitVec.toNat)) := by
    unfold State.modelBegun
    by_cases hs : q.source = 1
    · obtain ⟨honly, hlong, d, hd, hof⟩ := joinChain_member (s := u.setModel m x) (o := b.newLong h c total) (T := T) hs
      rw [hwait] at hlong
      exact ⟨honly, hlong.trans (if_pos hs).symm, fun hne => absurd hs hne, fun _ => ⟨d, hd, hof, fun hne => absurd hs hne⟩⟩
    · by_cases hn : q.nMembers = 0
      · rw [joinChain_alone hs hn, if_neg hs]
        exact ⟨rfl, rfl, fun _ _ => ⟨hfab, hports⟩, fun hc => hc.elim (fun h1 => absurd h1 hs) fun h0 => absurd hn h0⟩
      · obtain ⟨honly, hmem⟩ := joinChain_head (s := u.setModel m x) (o := b.newLong h c total) (T := T) hs hn
        rw [if_neg hs]
        have hlong := congrArg State.longOps honly
        exact ⟨chainOnly_of_fabricOnly honly, hlong, fun _ h0 => absurd h0 hn, fun _ => ⟨_, hmem, ⟨rfl, rfl, rfl, rfl, rfl, rfl⟩, fun _ => rfl⟩⟩
  obtain ⟨honly, hlong, halone, hchain⟩ := hjoin
  generalize u.modelBegun m x (b.newLong h c total) q T = t at *
  refine ⟨?_, fun k hk => ?_, halone, fun hc => ?_, ?_, hlong, ?_⟩
  · rw [honly]
    exact State.model_setModel_self
  · rw [honly]
    exact (State.model_setModel_ne hk).trans (by rw [hframe]; rfl)
  · obtain ⟨d, hd, ⟨hfn, hop, hm, htag, hhead, hans⟩, hmembers⟩ := hchain hc
    exact ⟨d, hd, hfn, hop, hm, htag, hhead.trans hrec, hmembers, hans⟩
  · have hregs : t.regs = u.regs := by rw [honly]; rfl
    have hpairs : t.pairs = u.pairs := by rw [honly]; rfl
    have hmodels : t.models = (u.setModel m x).models := by rw [honly]
    rw [hregs, hpairs, hmodels]
    refine honly.trans ?_
    rw [State.setModel, hframe]
  · rw [State.chainOnly, honly]
    rfl

/-- How the operation of a load or swap has begun once its chain is joined. -/
theorem modelBegun_begins {m : Nat} {x : Model} {c : CPacket} {total N T : Nat} (hu : b.begunAs u h c total)
    (hN : q.source ≠ 1 → N = total)
    (hlast : q.source = 1 → ∀ L, b.lengthWaiting q.head.toNat q.chainTag.toNat = L → (match L with
      | some T => (b.newLong h c total).lengthened b.sched.longSeq T
      | none => b.newLong h c total) = b.newLong h c N) :
    b.longBegins (u.modelBegun m x (b.newLong h c total) q T) h c N 0 [] := by
  obtain ⟨-, -, -, -, -, hlong, honly⟩ := modelBegun_spec (m := m) (x := x) (q := q) (T := T) hu
  obtain ⟨hbegins, -, -⟩ := hu
  generalize u.modelBegun m x (b.newLong h c total) q T = t at *
  have heq : ({ t with models := u.models } : State) = { u with fabric := t.fabric, ports := t.ports, longOps := t.longOps } := honly
  have hkept : ∀ v : State, v.longOps = t.longOps → v.regs = u.regs → v.pairs = u.pairs → v.sched = u.sched → b.longBegins v h c N 0 [] →
      b.longBegins t h c N 0 [] := fun v hops hregs hpairs hsched hv => by
    have hreg : t.regs = u.regs := (congrArg State.regs heq : _)
    have hpair : t.pairs = u.pairs := (congrArg State.pairs heq : _)
    have hsch : t.sched = u.sched := (congrArg State.sched heq : _)
    exact longBegins_of_longKept hv (longKept_of_frame (hreg.trans hregs.symm) hops.symm (hsch.trans hsched.symm) (hpair.trans hpairs.symm))
  by_cases hs : q.source = 1
  · rw [if_pos hs] at hlong
    have hl := hlast hs _ rfl
    revert hlong hl
    cases b.lengthWaiting q.head.toNat q.chainTag.toNat with
    | none =>
      intro hlong hl
      have hNt : N = total := (congrArg LongOp.total hl).symm
      exact hkept u hlong.symm rfl rfl rfl (hNt ▸ hbegins)
    | some L =>
      intro hlong hl
      exact hkept (u.loadLength b.sched.longSeq L) hlong.symm rfl rfl rfl (longBegins_loadLength hbegins hl)
  · rw [if_neg hs] at hlong
    exact hkept u hlong.symm rfl rfl rfl (hN hs ▸ hbegins)

/-! ## The packets -/

theorem serve_modelLoad (hp : s.partExists h.fn = true) : s.serve h (.modelLoad q image) = s.svcModelLoad h q image := by
  rw [State.serve, hp]
  rfl

theorem serve_modelSwap (hp : s.partExists h.fn = true) : s.serve h (.modelSwap q image) = s.svcModelSwap h q image := by
  rw [State.serve, hp]
  rfl

/-- The record of a model that is loaded. -/
def loadingModel (h : Hdr) (q : LoadParams) : Model := { st := .loading, part := h.fn, dest := q.destVa.toNat }

/-- The record of a model that is swapped. -/
def State.swappingModel (b : State) (q : LoadParams) : Model :=
  { b.model q.modelId.toNat with st := .swapping, swap := some { img := {}, srcModel := if q.source = 2 then some q.src.toNat else none,
                                                                  was := (b.model q.modelId.toNat).st, op := b.sched.longSeq } }

theorem exec_modelLoad (hb : b = s.served h (.modelLoad q image)) (ht : s.takesC h (.modelLoad q image))
    (hchk : firstFail (b.chkModel h.fn q.modelId.toNat 0 ++ [chkForm ((b.model q.modelId.toNat).st == .absent) 0] ++ b.srcChks h.fn q false) = .pass) :
    exec (.modelLoad h q image) s = .next (b.startLong h (.modelLoad q image) (b.srcTotal q) fun o u =>
      u.modelBegun q.modelId.toNat (loadingModel h q) o q (chainTotal q image (b.srcTotal q))) := by
  rw [exec_served rfl ht fun _ hp => serve_modelLoad hp, ← hb, State.svcModelLoad]
  exact congrArg _ (checked_of_pass hchk)

theorem exec_modelSwap (hb : b = s.served h (.modelSwap q image)) (ht : s.takesC h (.modelSwap q image))
    (hchk : firstFail (b.chkModel h.fn q.modelId.toNat 0 ++ [chkForm ((b.model q.modelId.toNat).st != .absent && (b.model q.modelId.toNat).part == h.fn) 0,
      chkSt (!(b.model q.modelId.toNat).st.busy) stDeferred] ++ b.srcChks h.fn q true) = .pass) :
    exec (.modelSwap h q image) s = .next (b.startLong h (.modelSwap q image) (max 1 (b.model q.modelId.toNat).img.layers.length) fun o u =>
      u.modelBegun q.modelId.toNat { b.swappingModel q with swap := some { img := {}, srcModel := if q.source = 2 then some q.src.toNat else none,
                                                                            was := (b.model q.modelId.toNat).st, op := o.id } } o q
        (chainTotal q image (u.srcTotal q))) := by
  rw [exec_served rfl ht fun _ hp => serve_modelSwap hp, ← hb, State.svcModelSwap]
  exact congrArg _ (checked_of_pass hchk)

/-- A MODEL_LOAD that passes its checks. -/
theorem modelLoad_begins (hb : b = s.served h (.modelLoad q image)) (ht : s.takesC h (.modelLoad q image))
    (hchk : firstFail (b.chkModel h.fn q.modelId.toNat 0 ++ [chkForm ((b.model q.modelId.toNat).st == .absent) 0] ++ b.srcChks h.fn q false) = .pass) :
    s.startsLong b (.modelLoad h q image) h (.modelLoad q image) (b.loadTotal q) 0 [] fun t =>
      t.model q.modelId.toNat = loadingModel h q ∧ (∀ k, k ≠ q.modelId.toNat → t.model k = b.model k) ∧
      (q.source ≠ 1 → q.nMembers = 0 → t.fabric = b.fabric ∧ t.ports = b.ports) ∧
      (q.source = 1 ∨ q.nMembers ≠ 0 → ∃ c ∈ t.fabric.chains, c.fn = h.fn ∧ c.op = b.sched.longSeq ∧ c.model = q.modelId.toNat ∧
        c.tag = q.chainTag.toNat ∧ c.head = (if q.source = 1 then q.head.toNat else b.myId) ∧
        (q.source ≠ 1 → c.members = (q.members.take q.nMembers.toNat).map BitVec.toNat) ∧ c.answered = []) ∧
      t = { b with
        regs := t.regs, pairs := t.pairs, longOps := t.longOps, models := t.models, fabric := t.fabric, ports := t.ports,
        sched := { b.sched with longSeq := b.sched.longSeq + 1 } } := by
  have hexec := exec_modelLoad hb ht hchk
  refine ⟨fun hfull => hexec.trans (congrArg _ (startLong_of_full hfull)), fun hroom =>
    ⟨_, hexec.trans (congrArg _ (startLong_of_room hroom)), ?_⟩⟩
  have hu := begunAs_longStarted (total := b.srcTotal q) hb ht hroom
  generalize b.longStarted h (.modelLoad q image) (b.srcTotal q) = u at hu ⊢
  refine ⟨modelBegun_begins hu (fun hs => if_neg hs) fun hs L hL => ?_, ?_⟩
  · rw [State.loadTotal, if_pos hs, hL]
    cases L with
    | none => rfl
    | some T => exact if_pos rfl
  · obtain ⟨hm, hothers, halone, hchain, hframe, -, -⟩ := modelBegun_spec (m := q.modelId.toNat) (x := loadingModel h q) (q := q)
      (T := chainTotal q image (b.srcTotal q)) hu
    exact ⟨hm, hothers, halone, hchain, hframe⟩

/-- A MODEL_SWAP that passes its checks. -/
theorem modelSwap_begins (hb : b = s.served h (.modelSwap q image)) (ht : s.takesC h (.modelSwap q image))
    (hchk : firstFail (b.chkModel h.fn q.modelId.toNat 0 ++ [chkForm ((b.model q.modelId.toNat).st != .absent && (b.model q.modelId.toNat).part == h.fn) 0,
      chkSt (!(b.model q.modelId.toNat).st.busy) stDeferred] ++ b.srcChks h.fn q true) = .pass) :
    s.startsLong b (.modelSwap h q image) h (.modelSwap q image) (max 1 (b.model q.modelId.toNat).img.layers.length) 0 [] fun t =>
      t.model q.modelId.toNat = b.swappingModel q ∧ (∀ k, k ≠ q.modelId.toNat → t.model k = b.model k) ∧
      t = { b with
        regs := t.regs, pairs := t.pairs, longOps := t.longOps, models := t.models, fabric := t.fabric, ports := t.ports,
        sched := { b.sched with longSeq := b.sched.longSeq + 1 } } := by
  refine startsLong_of_begun hb ht (exec_modelSwap hb ht hchk) fun u hu => ⟨modelBegun_begins hu (fun _ => rfl) fun hs L hL => ?_, ?_⟩
  · cases L <;> rfl
  · obtain ⟨hm, hothers, -, -, hframe, -, -⟩ := modelBegun_spec (m := q.modelId.toNat) (x := b.swappingModel q) (q := q)
      (T := chainTotal q image (u.srcTotal q)) hu
    exact ⟨hm, hothers, hframe⟩

end Sys2Proof.Machine
end

section
/-! PROOFS. MODEL_UNLOAD and PLACE (R226, R269, R279, R305). -/

namespace Sys2Proof.Machine

variable {s t u b : State} {h : Hdr} {l m : Nat}

/-! ## The placements present -/

theorem mem_present_iff : l ∈ s.present ↔ ∃ x, (l, x) ∈ s.places ∧ x.present = true := by
  unfold State.present
  constructor
  · intro hl
    obtain ⟨e, he, rfl⟩ := List.mem_map.mp hl
    obtain ⟨hmem, hp⟩ := List.mem_filter.mp he
    exact ⟨e.2, hmem, hp⟩
  · rintro ⟨x, hmem, hp⟩
    exact List.mem_map.mpr ⟨(l, x), List.mem_filter.mpr ⟨hmem, hp⟩, rfl⟩

/-- An entry of a table stays through a write, or is the one written. -/
theorem mem_tins_or_written {α : Type} {d x y : α} {k j : Nat} {l : Tbl α} (h : (j, y) ∈ l) : (j, y) ∈ tins k x l ∨ (j = k ∧ y = tget d l k ∧ (k, x) ∈ tins k x l) := by
  induction l with
  | nil => exact absurd h (by simp)
  | cons e l ih =>
    obtain ⟨i, z⟩ := e
    rw [tins, tget]
    split
    · exact .inl (List.mem_cons_of_mem _ h)
    · split
      · next hki =>
        rcases List.mem_cons.mp h with heq | hin
        · obtain ⟨rfl, rfl⟩ := Prod.mk.inj heq
          exact .inr ⟨hki.symm, rfl, List.mem_cons_self⟩
        · exact .inl (List.mem_cons_of_mem _ hin)
      · rcases List.mem_cons.mp h with heq | hin
        · exact .inl (heq ▸ List.mem_cons_self)
        · exact (ih hin).imp (List.mem_cons_of_mem _) fun ⟨h1, h2, h3⟩ => ⟨h1, h2, List.mem_cons_of_mem _ h3⟩

/-- A placement marked to go is still present. -/
theorem present_removing {k : Nat} (h : l ∈ s.present) : l ∈ (s.setPlace k { s.place k with removing := true }).present := by
  obtain ⟨x, hmem, hp⟩ := mem_present_iff.mp h
  have hset : (s.setPlace k { s.place k with removing := true }).places = tins k { s.place k with removing := true } s.places := by
    refine if_neg fun hd => ?_
    exact Bool.noConfusion (congrArg Place.removing hd : true = false)
  refine mem_present_iff.mpr ?_
  rw [hset]
  rcases mem_tins_or_written (d := {}) (k := k) (x := { s.place k with removing := true }) hmem with hin | ⟨rfl, hx, hin⟩
  · exact ⟨x, hin, hp⟩
  · refine ⟨_, hin, ?_⟩
    show (s.place l).present = true
    rw [State.place, ← hx]
    exact hp

/-! ## MODEL_UNLOAD (R279) -/

/-- The record of a model on its way out. -/
def Model.leaving (x : Model) (h : Hdr) : Model := { x with st := .unloading, unload := some (h, 0x4A), was := x.st }

/-- Placements marked to go. -/
def State.markedToGo (s : State) (ls : List Nat) : State := s.each ls fun s l => s.setPlace l { s.place l with removing := true }

/-- Every one of the placements in no step has its cairn. -/
def State.cairnsOf (s : State) (ls : List Nat) : State := s.each ls fun s l => if (s.place l).step.isNone then s.cairn l else s

/-- What a MODEL_UNLOAD that passes its checks does. -/
def State.unloads (b : State) (h : Hdr) (m : Nat) : State :=
  (((b.setModel m ((b.model m).leaving h)).markedToGo (b.placesOfModel m)).cairnsOf (b.placesOfModel m)).unloadCheck m

theorem serve_modelUnload {modelId : BitVec 16} {byte2 : BitVec 8} {rsv : BitVec 40} (hp : s.partExists h.fn = true) :
    s.serve h (.modelUnload modelId byte2 rsv) = s.svcModelUnload h modelId byte2 rsv := by
  rw [State.serve, hp]
  rfl

theorem exec_modelUnload {modelId : BitVec 16} {byte2 : BitVec 8} (hb : b = s.served h (.modelUnload modelId byte2 0)) (hm : m = modelId.toNat)
    (ht : s.takesC h (.modelUnload modelId byte2 0)) (hchk : firstFail (b.chkModel h.fn m 0) = .pass) (hst : (b.model m).st ≠ .absent)
    (hpart : (b.model m).part = h.fn) (hbusy : (b.model m).st.busy = false) (hsrc : b.isSource m = false) (h2 : byte2.toNat < 2)
    (hforce : b.placesOfModel m = [] ∨ byte2 = 1) : exec (.modelUnload h modelId byte2 0) s = .next (b.unloads h m) := by
  subst hm
  have hform : ((b.model modelId.toNat).st != .absent && (b.model modelId.toNat).part == h.fn) = true := by
    rw [bne_iff_ne.mpr hst, Bool.true_and]
    exact beq_iff_eq.mpr hpart
  have hlast : ((b.placesOfModel modelId.toNat).isEmpty || byte2 == 1) = true := by
    rcases hforce with hnil | hone
    · rw [hnil]
      rfl
    · rw [beq_iff_eq.mpr hone, Bool.or_true]
  have hpass : firstFail (b.chkModel h.fn modelId.toNat 0 ++ [chkForm ((b.model modelId.toNat).st != .absent && (b.model modelId.toNat).part == h.fn) 0,
      chkForm (decide (byte2.toNat < 2)) 2, chkForm ((0 : BitVec 40) == 0) 3, chkSt (!(b.model modelId.toNat).st.busy && !(b.isSource modelId.toNat)) stDeferred,
      chkForm ((b.placesOfModel modelId.toNat).isEmpty || byte2 == 1) 2]) = .pass := by
    refine firstFail_append_pass_pass hchk ?_
    rw [chkForm_true hform, chkForm_true (decide_eq_true h2), hbusy, hsrc, chkForm_true hlast]
    rfl
  rw [exec_served rfl ht fun _ hp => serve_modelUnload hp, ← hb, State.svcModelUnload]
  exact congrArg _ (checked_of_pass hpass)

theorem unloadCheck_of_gone {op : Nat} (hun : (s.model m).unload = some (h, op)) (hst : (s.model m).st = .unloading)
    (hnone : (s.present.any fun l => (s.place l).cfg.model == m) = false) : s.unloadCheck m = (s.setModel m {}).reply h 0x4A stOK 0 0 := by
  unfold State.unloadCheck
  simp only [hun, hst, hnone]
  rfl

/-- A model with no placement goes at once. -/
theorem unloads_of_none (hls : b.placesOfModel m = []) : b.unloads h m = ((b.setModel m ((b.model m).leaving h)).setModel m {}).reply h 0x4A stOK 0 0 := by
  have hmodel : (b.setModel m ((b.model m).leaving h)).model m = (b.model m).leaving h := State.model_setModel_self
  have hnone : ((b.setModel m ((b.model m).leaving h)).present.any fun l => ((b.setModel m ((b.model m).leaving h)).place l).cfg.model == m) = false := by
    rw [List.any_eq_false]
    intro l hl
    have := List.filter_eq_nil_iff.mp hls l hl
    exact this
  unfold State.unloads
  rw [hls]
  exact unloadCheck_of_gone (s := b.setModel m ((b.model m).leaving h)) (op := 0x4A) (by rw [hmodel]; rfl) (by rw [hmodel]; rfl) hnone

/-- The placements marked, and nothing else. -/
theorem markedToGo_spec {ls : List Nat} : (∀ l ∈ ls, (s.markedToGo ls).place l = { s.place l with removing := true }) ∧ (∀ l ∈ s.present, l ∈ (s.markedToGo ls).present) ∧
    s.markedToGo ls = { s with places := (s.markedToGo ls).places } := by
  have hround : ∀ l, (s.markedToGo ls).place l = s.place l ∨ (s.markedToGo ls).place l = { s.place l with removing := true } := fun l => by
    refine each_induction (P := fun t => t.place l = s.place l ∨ t.place l = { s.place l with removing := true }) (.inl rfl) fun t k _ ht => ?_
    by_cases hkl : l = k
    · subst hkl
      right
      rw [State.place_setPlace_self]
      rcases ht with ht | ht <;> rw [ht]
    · rw [State.place_setPlace_ne hkl]
      exact ht
  refine ⟨fun l hl => ?_, fun l hl => ?_, ?_⟩
  · have hset : ((s.markedToGo ls).place l).removing = true := by
      refine each_reaches (P := fun _ => True) (Q := fun t => (t.place l).removing = true) hl trivial (fun _ _ _ _ => trivial) (fun t _ => ?_)
        fun t k _ _ ht => ?_
      · rw [State.place_setPlace_self]
      · by_cases hkl : l = k
        · subst hkl
          rw [State.place_setPlace_self]
        · rw [State.place_setPlace_ne hkl]
          exact ht
    rcases hround l with hl | hl
    · rw [hl] at hset ⊢
      rw [← hset]
    · exact hl
  · exact each_induction (P := fun t => l ∈ t.present) hl fun t k _ ht => present_removing ht
  · exact each_induction (P := fun t => t = { s with places := t.places }) rfl fun t k _ ht => by
      rw [ht]
      rfl

/-- With every placement in a step the model waits for the last of them. -/
theorem unloads_of_stepping (hls : b.placesOfModel m ≠ []) (hstep : ∀ l ∈ b.placesOfModel m, (b.place l).step.isSome = true) :
    b.unloads h m = (b.setModel m ((b.model m).leaving h)).markedToGo (b.placesOfModel m) := by
  have hin : ∀ l ∈ b.placesOfModel m, l ∈ (b.setModel m ((b.model m).leaving h)).present ∧
      ((b.setModel m ((b.model m).leaving h)).place l).cfg.model = m := fun l hl => by
    obtain ⟨hp, hm⟩ := List.mem_filter.mp hl
    exact ⟨hp, beq_iff_eq.mp hm⟩
  have hst : ∀ l ∈ b.placesOfModel m, ((b.setModel m ((b.model m).leaving h)).place l).step.isSome = true := hstep
  have hmodel : (b.setModel m ((b.model m).leaving h)).model m = (b.model m).leaving h := State.model_setModel_self
  unfold State.unloads
  generalize b.placesOfModel m = ls at *
  generalize b.setModel m ((b.model m).leaving h) = v at *
  obtain ⟨hmark, hpresent, hframe⟩ := markedToGo_spec (s := v) (ls := ls)
  generalize v.markedToGo ls = w at *
  have hcairns : w.cairnsOf ls = w := each_eq_self fun l hl => by
    have hsome : (w.place l).step.isNone = false := by
      rw [hmark l hl, Option.isNone_eq_false_iff]
      exact hst l hl
    rw [hsome]
    rfl
  rw [hcairns]
  obtain ⟨l, hl⟩ := List.exists_mem_of_ne_nil ls hls
  have hstill : (w.present.any fun l => (w.place l).cfg.model == m) = true := by
    obtain ⟨hp, hm⟩ := hin l hl
    refine List.any_eq_true.mpr ⟨l, hpresent l hp, ?_⟩
    rw [hmark l hl]
    exact beq_iff_eq.mpr hm
  unfold State.unloadCheck
  dsimp only
  split
  · rw [if_neg]
    rw [hstill]
    simp
  · rfl

/-! ## PLACE (R269, R305) -/

section
variable {q : PlaceParams} {c : PlaceCfg} {stats : Nat}

/-- What a PLACE records in a placement. -/
def Place.placed (x : Place) (p stats : Nat) (remove : Bool) (c : PlaceCfg) : Place :=
  { x with present := true, part := p, stats := stats, change := some c, fenced := x.fenced && remove, cfg := if x.present then x.cfg else { c with tiles := [] } }

/-- The state after the cairn of a placement in no step. -/
def State.cairnIdle (s : State) (l : Nat) (idle : Bool) : State := if idle then s.cairn l else s

/-- The address of the statistics table, and the state with a free value taken where the table is a new one. -/
def State.statsFor (b : State) (l : Nat) : Nat × State :=
  if (b.place l).present && (b.place l).stats != 0 then ((b.place l).stats, b) else (Config.statsTable l b.free, b.useFree)

/-- What PLACE asks for. -/
def State.placeWant (b : State) (h : Hdr) (q : PlaceParams) : PlaceCfg :=
  if q.tileCount.toNat = 0 then { (b.place q.placement.toNat).cfg with tiles := [] }
  else placeCfg q (b.model q.modelId.toNat).img (b.readTiles h.fn q.tilesVa.toNat q.tileCount.toNat)
    ((b.readLopt h.fn q.loptVa.toNat (b.model q.modelId.toNat).img).filterMap id)

/-- The state as PLACE has recorded it, before the cairn. -/
def State.placeNoted (b : State) (h : Hdr) (q : PlaceParams) : State :=
  (b.statsFor q.placement.toNat).2.setPlace q.placement.toNat ((b.place q.placement.toNat).placed h.fn (b.statsFor q.placement.toNat).1
    (decide (q.tileCount.toNat = 0)) (b.placeWant h q))

/-- A PLACE recorded, and taken up where the placement is in no step. -/
def State.placeDone (b : State) (h : Hdr) (q : PlaceParams) : State :=
  (b.placeNoted h q).cairnIdle q.placement.toNat (b.place q.placement.toNat).step.isNone

theorem serve_place (hp : s.partExists h.fn = true) : s.serve h (.place q) = s.svcPlace h q := by
  rw [State.serve, hp]
  rfl

theorem svcPlace_of_pass (hchk : firstFail (b.placeChks h q) = .pass)
    (htiles : q.tileCount.toNat ≠ 0 → firstFail (b.tileChks h.fn q.placement.toNat q (b.model q.modelId.toNat).img
      (b.readTiles h.fn q.tilesVa.toNat q.tileCount.toNat) (b.readLopt h.fn q.loptVa.toNat (b.model q.modelId.toNat).img)) = .pass)
    (hgood : q.tileCount.toNat ≠ 0 → (b.placeDone h q).modelBad q.modelId.toNat = false) :
    b.svcPlace h q = (b.placeDone h q).reply h 0x4B stOK 0 (b.statsFor q.placement.toNat).1 := by
  have hpass : (if q.tileCount.toNat = 0 then Chk.pass else firstFail (b.tileChks h.fn q.placement.toNat q (b.model q.modelId.toNat).img
      (b.readTiles h.fn q.tilesVa.toNat q.tileCount.toNat) (b.readLopt h.fn q.loptVa.toNat (b.model q.modelId.toNat).img))) = .pass := by
    split
    · rfl
    · next hn => exact htiles hn
  unfold State.svcPlace
  dsimp only
  rw [checked_of_pass hchk, hpass]
  dsimp only
  have hend : ∀ w : State, w = b.placeDone h q → (if (decide (q.tileCount.toNat ≠ 0) && w.modelBad q.modelId.toNat) = true then
      w.fencePlace q.placement.toNat 0xFFFF else w) = b.placeDone h q := fun w hw => by
    rw [hw, if_neg]
    by_cases hn : q.tileCount.toNat = 0
    · simp [hn]
    · simp [hgood hn]
  exact congrArg (fun w : State => w.reply h 0x4B stOK 0 (b.statsFor q.placement.toNat).1) (hend _ rfl)

/-! ## Settings taken up -/

theorem clearTags_places {pick : Nat → Bool} : (s.clearTags l pick).places = s.places := by
  unfold State.clearTags
  refine each_induction (P := fun t => t.places = s.places) rfl fun t e _ ht => ?_
  split
  · exact ht
  · exact ht

theorem leaveTiles_places {ts : List Nat} {keep : Nat → Bool} : (s.each ts fun s t => s.leaveTile l t (keep t)).places = s.places :=
  each_induction (P := fun t => t.places = s.places) rfl fun _ _ _ ht => ht

theorem place_of_places (h : t.places = s.places) : t.place l = s.place l := by rw [State.place, State.place, h]

/-- What a placement shows once its new settings are in force. -/
structure Place.runs (x : Place) (c : PlaceCfg) (p stats : Nat) : Prop where
  settled : x.settled
  present : x.present = true
  cfg : x.cfg = c
  part : x.part = p
  stats : x.stats = stats
  fenced : x.fenced = false

/-- What a placement shows once it is removed. -/
structure Place.gone (x : Place) : Prop where
  settled : x.settled
  absent : x.present = false
  tiles : x.cfg.tiles = []

theorem runs_of_calm {p : Nat} (h : (s.place l).runs c p stats) (k : Calm False s t) : (t.place l).runs c p stats := by
  have hk := k.place l h.settled
  exact ⟨hk.settled, hk.present.trans h.present, hk.cfg.trans h.cfg, hk.part.trans h.part, hk.stats.trans h.stats, (hk.unfenced id).trans h.fenced⟩

theorem gone_of_calm (h : (s.place l).gone) (k : Calm False s t) : (t.place l).gone := by
  have hk := k.place l h.settled
  exact ⟨hk.settled, hk.present.trans h.absent, by rw [hk.cfg, h.tiles]⟩

/-- New settings with tiles are in force. -/
theorem putPlace_runs (hc : c.tiles ≠ []) (hr : (s.place l).removing = false) :
    ((s.putPlace l c).place l).runs c (s.place l).part (s.place l).stats := by
  unfold State.putPlace
  dsimp only
  generalize hv : s.clearTags l _ = v
  have hplace : v.place l = s.place l := place_of_places (hv ▸ clearTags_places)
  rw [hplace, if_neg (by simpa using hc)]
  refine runs_of_calm (s := State.setPlace _ l _) ?_ (calm_trans (calm_each fun _ _ _ => calm_dropCopies) calm_stageAll)
  rw [State.place_setPlace_self]
  exact ⟨⟨rfl, hr⟩, rfl, rfl, rfl, rfl, rfl⟩

/-- With no tiles the placement is removed. -/
theorem putPlace_gone (hc : c.tiles = []) (hr : (s.place l).removing = false) : ((s.putPlace l c).place l).gone := by
  unfold State.putPlace
  dsimp only
  generalize hv : s.clearTags l _ = v
  have hplace : v.place l = s.place l := place_of_places (hv ▸ clearTags_places)
  rw [hplace, if_pos (by simp [hc]), State.place_setPlace_self]
  exact ⟨⟨rfl, hr⟩, rfl, rfl⟩

/-- A cairn with a setting recorded takes it. -/
theorem cairn_of_change (hr : (s.place l).removing = false) (hc : (s.place l).change = some c) : Calm False (s.putPlace l c) (s.cairn l) := by
  have hdue : s.dueSet l = s.applyPlace l c := by
    unfold State.dueSet
    rw [hr, hc]
    rfl
  rw [cairn_eq, hdue, State.applyPlace]
  exact calm_trans (calm_trans (calm_trans calm_readies calm_rereads) calm_comesToBarrier) calm_goesOn

/-! ## The packet -/

theorem pass_of_firstFail {k : Chk} {ks : List Chk} (h : firstFail ks = .pass) (hk : k ∈ ks) : k = .pass := by
  induction ks with
  | nil => exact absurd hk (by simp)
  | cons x ks ih =>
    by_cases hx : x = .pass
    · subst hx
      rw [firstFail_cons_pass] at h
      exact (List.mem_cons.mp hk).elim id (ih h)
    · rw [firstFail_cons_of_ne hx] at h
      exact absurd h hx

theorem readTiles_ne {p va n : Nat} (hva : s.chkVa p va (2 * n) = .pass) (hn : n ≠ 0) : s.readTiles p va n ≠ [] := by
  unfold State.chkVa at hva
  unfold State.readTiles State.rdVa
  split at hva
  · simpa using hn
  · exact absurd hva (by simp)

theorem placeWant_tiles_ne (hchk : firstFail (b.placeChks h q) = .pass) (hn : q.tileCount.toNat ≠ 0) : (b.placeWant h q).tiles ≠ [] := by
  have hcount : q.tileCount ≠ 0 := fun h0 => hn (by rw [h0]; rfl)
  have hva : b.chkVa h.fn q.tilesVa.toNat (2 * q.tileCount.toNat) = .pass := by
    have hmem := pass_of_firstFail hchk (k := if q.tileCount = 0 then .pass else b.chkVa h.fn q.tilesVa.toNat (2 * q.tileCount.toNat))
      (by simp [State.placeChks])
    rwa [if_neg hcount] at hmem
  rw [State.placeWant, if_neg hn]
  exact readTiles_ne hva hn

/-- The placement as PLACE records it. -/
theorem placed_of_present (h1 : (b.place l).present = true) {p : Nat} {remove : Bool} :
    (b.place l).placed p stats remove c = { b.place l with
      part := p, stats := stats, change := some c, fenced := (b.place l).fenced && remove } := by
  generalize b.place l = x at h1 ⊢
  unfold Place.placed
  rw [if_pos h1]
  cases x
  cases h1
  rfl

theorem statsFor_of_kept (hp : (b.place l).present = true) (hs : (b.place l).stats ≠ 0) : b.statsFor l = ((b.place l).stats, b) := by
  refine if_pos ?_
  rw [hp, bne_iff_ne.mpr hs]
  rfl

theorem statsFor_place : (b.statsFor l).2.place l = b.place l ∧ (b.statsFor l).2.mem = b.mem := by
  unfold State.statsFor
  split
  · exact ⟨rfl, rfl⟩
  · exact ⟨rfl, rfl⟩

theorem placeNoted_place : (b.placeNoted h q).place q.placement.toNat = (b.place q.placement.toNat).placed h.fn (b.statsFor q.placement.toNat).1
    (decide (q.tileCount.toNat = 0)) (b.placeWant h q) := State.place_setPlace_self

theorem placeDone_of_idle (hidle : (b.place q.placement.toNat).step = none) :
    b.placeDone h q = (b.placeNoted h q).cairn q.placement.toNat := by
  rw [State.placeDone, hidle]
  exact if_pos rfl

theorem placeDone_of_stepping (hstep : (b.place q.placement.toNat).step.isSome = true) : b.placeDone h q = b.placeNoted h q := by
  have hsome : (b.place q.placement.toNat).step.isNone = false := by
    rw [Option.isNone_eq_false_iff]
    exact hstep
  rw [State.placeDone, hsome]
  exact if_neg (by decide)

/-- No settings of a placement tell of its model's weights. -/
theorem modelBad_setPlace {k : Nat} {x : Place} : (s.setPlace k x).modelBad m = s.modelBad m := rfl

theorem modelBad_of_unpoisoned (h : s.unpoisoned) : s.modelBad m = false := by
  unfold State.modelBad
  rw [show s.mem.poison = [] from h]
  rfl

/-- In no step: the settings are in force, or the placement is gone. -/
theorem placeDone_idle (hidle : (b.place q.placement.toNat).step = none) (hrem : (b.place q.placement.toNat).removing = false) :
    ((b.placeWant h q).tiles ≠ [] → ((b.placeDone h q).place q.placement.toNat).runs (b.placeWant h q) h.fn (b.statsFor q.placement.toNat).1) ∧
      ((b.placeWant h q).tiles = [] → ((b.placeDone h q).place q.placement.toNat).gone) ∧ (b.mem.poison = [] → (b.placeDone h q).unpoisoned) := by
  have hplace := placeNoted_place (b := b) (h := h) (q := q)
  have hpart : ((b.placeNoted h q).place q.placement.toNat).part = h.fn := by rw [hplace]; rfl
  have hstats : ((b.placeNoted h q).place q.placement.toNat).stats = (b.statsFor q.placement.toNat).1 := by rw [hplace]; rfl
  have hchange : ((b.placeNoted h q).place q.placement.toNat).change = some (b.placeWant h q) := by rw [hplace]; rfl
  have hstay : ((b.placeNoted h q).place q.placement.toNat).removing = false := by rw [hplace]; exact hrem
  have hmem : (b.placeNoted h q).mem = b.mem := statsFor_place.2
  rw [placeDone_of_idle hidle]
  have hcalm := cairn_of_change hstay hchange
  refine ⟨fun hc => ?_, fun hc => gone_of_calm (putPlace_gone hc hstay) hcalm, fun hm => ?_⟩
  · have hruns := putPlace_runs hc hstay
    rw [hpart, hstats] at hruns
    exact runs_of_calm hruns hcalm
  · have hcairn : Calm True (b.placeNoted h q) ((b.placeNoted h q).cairn q.placement.toNat) := calm_cairn
    exact hcairn.sound (by rw [State.unpoisoned, hmem]; exact hm)

theorem exec_place (hb : b = s.served h (.place q)) (ht : s.takesC h (.place q)) (hchk : firstFail (b.placeChks h q) = .pass)
    (htiles : q.tileCount.toNat ≠ 0 → firstFail (b.tileChks h.fn q.placement.toNat q (b.model q.modelId.toNat).img
      (b.readTiles h.fn q.tilesVa.toNat q.tileCount.toNat) (b.readLopt h.fn q.loptVa.toNat (b.model q.modelId.toNat).img)) = .pass)
    (hgood : q.tileCount.toNat ≠ 0 → (b.placeDone h q).modelBad q.modelId.toNat = false) :
    exec (.place h q) s = .next ((b.placeDone h q).reply h 0x4B stOK 0 (b.statsFor q.placement.toNat).1) := by
  rw [exec_served rfl ht fun _ hp => serve_place hp, ← hb, svcPlace_of_pass hchk htiles hgood]

theorem tileCount_toNat_ne (h : q.tileCount.toNat ≠ 0) : q.tileCount ≠ 0 := fun h0 => h (by rw [h0]; rfl)

theorem tileCount_toNat_eq_zero : q.tileCount.toNat = 0 ↔ q.tileCount = 0 :=
  ⟨fun h => BitVec.eq_of_toNat_eq h, fun h => by rw [h]; rfl⟩

end

end Sys2Proof.Machine

namespace Sys2Proof
open Machine

/-- Settles O34: loads and swaps begin with the model's record and its chain; an unload removes the model or marks its placements; a PLACE in no step
is taken up by its own cairn, which leaves the placement as the PLACE asks. -/
theorem modelPacketsBegin : Obligations.ModelPacketsBegin := by
  unfold Obligations.ModelPacketsBegin
  refine ⟨fun s h q image b m hb hm ht hchk => ⟨b.loadTotal q, loadTotal_eq, ?_⟩, fun s h q image b m hb hm ht hchk => ?_,
    fun s h modelId byte2 b m hb hm ht hchk hst hpart hbusy hsrc h2 => ⟨fun hls => ?_, fun hls hforce hstep => ?_⟩,
    fun s h q b l im tiles lopt hb hl him htiles hlopt ht hchk htile => ?_⟩
  · subst hm
    exact modelLoad_begins hb ht hchk
  · subst hm
    exact modelSwap_begins hb ht hchk
  · refine ⟨(b.setModel m ((b.model m).leaving h)).setModel m {}, ?_, State.model_setModel_self, fun k hk => ?_, rfl⟩
    · rw [exec_modelUnload hb hm ht hchk hst hpart hbusy hsrc h2 (.inl hls), unloads_of_none hls]
    · rw [State.model_setModel_ne hk, State.model_setModel_ne hk]
  · obtain ⟨hmark, -, hframe⟩ := markedToGo_spec (s := b.setModel m ((b.model m).leaving h)) (ls := b.placesOfModel m)
    refine ⟨_, exec_modelUnload hb hm ht hchk hst hpart hbusy hsrc h2 (.inr hforce), ?_⟩
    rw [unloads_of_stepping hls hstep]
    generalize (b.setModel m ((b.model m).leaving h)).markedToGo (b.placesOfModel m) = t at hmark hframe ⊢
    refine ⟨?_, hmark, ?_⟩
    · have hmodels : t.models = (b.setModel m ((b.model m).leaving h)).models := by rw [hframe]
      rw [State.model, hmodels]
      exact State.model_setModel_self
    · rw [hframe]
      rfl
  · subst hl him htiles hlopt
    have hchks : q.tileCount.toNat ≠ 0 → _ := fun hn => (htile (tileCount_toNat_ne hn)).1
    have hremoves : q.tileCount = 0 → (b.placeWant h q).tiles = [] := fun h0 => by rw [State.placeWant, if_pos (tileCount_toNat_eq_zero.mpr h0)]
    refine ⟨fun hstep hp hs => ?_, fun hidle hrem hpoison _ _ => ?_⟩
    · have hfor := statsFor_of_kept hp hs
      have hdone := placeDone_of_stepping (h := h) hstep
      have hbad : (b.placeDone h q).modelBad q.modelId.toNat = b.modelBad q.modelId.toNat := by
        rw [hdone, State.placeNoted, hfor]
        exact modelBad_setPlace
      refine ⟨b.placeDone h q, ?_, ?_, fun k hk => ?_, ?_⟩
      · rw [exec_place hb ht hchk hchks fun hn => hbad.trans (htile (tileCount_toNat_ne hn)).2, hfor]
      · rw [hdone, placeNoted_place, hfor, placed_of_present hp]
        simp only [State.placeWant, tileCount_toNat_eq_zero]
      · rw [hdone, State.placeNoted, hfor]
        exact State.place_setPlace_ne hk
      · rw [hdone, State.placeNoted, hfor]
        rfl
    · obtain ⟨hruns, hgone, hsound⟩ := placeDone_idle (h := h) hidle hrem
      have hexec := exec_place hb ht hchk hchks fun _ => modelBad_of_unpoisoned (hsound hpoison)
      refine ⟨fun hn stats hstats => ?_, fun hn hs => ?_⟩
      · have hn' : q.tileCount.toNat ≠ 0 := fun h0 => hn (tileCount_toNat_eq_zero.mp h0)
        have hfor : (b.statsFor q.placement.toNat).1 = stats := by
          rw [hstats, State.statsFor]
          by_cases hkept : (b.place q.placement.toNat).present = true ∧ (b.place q.placement.toNat).stats ≠ 0
          · rw [if_pos hkept, if_pos (by rw [hkept.1, bne_iff_ne.mpr hkept.2]; rfl)]
          · rw [if_neg hkept, if_neg (by rwa [Bool.and_eq_true, bne_iff_ne])]
        have hwant : b.placeWant h q = placeCfg q (b.model q.modelId.toNat).img (b.readTiles h.fn q.tilesVa.toNat q.tileCount.toNat)
            ((b.readLopt h.fn q.loptVa.toNat (b.model q.modelId.toNat).img).filterMap id) := if_neg hn'
        obtain ⟨⟨hchange, -⟩, hpresent, hcfg, hpart, hst, hfenced⟩ := hruns (placeWant_tiles_ne hchk hn')
        exact ⟨_, hexec.trans (by rw [hfor]), hpresent, hpart, hcfg.trans hwant, hchange, hfenced, hst.trans hfor⟩
      · have hp : (b.place q.placement.toNat).present = true := by
          have hmem := pass_of_firstFail hchk (k := chkForm (if q.tileCount = 0 then (b.place q.placement.toNat).present &&
            !(b.place q.placement.toNat).cfg.tiles.isEmpty else q.tileCount.toNat == (b.model q.modelId.toNat).img.tiles) 32) (by simp [State.placeChks])
          rw [if_pos hn] at hmem
          cases hpr : (b.place q.placement.toNat).present
          · rw [hpr] at hmem
            exact absurd hmem (by simp [chkForm])
          · rfl
        obtain ⟨⟨hchange, -⟩, habsent, htiles⟩ := hgone (hremoves hn)
        exact ⟨_, hexec.trans (by rw [statsFor_of_kept hp hs]), habsent, htiles, hchange⟩

end Sys2Proof
end

section
/-! PROOFS. What the work between two steps keeps (R26, R27, R226). Completions, pops, a cairn and the choice of contexts change much, but no
context's position, pending token or count, no entry that waits for a ring, no model, and no placement's settings. The relation `Mild` says so
once for all these operations. -/

namespace Sys2Proof.Machine

/-! ## The relation -/

/-- What only a retire, a session packet or a close changes of a context. -/
def Ctx.standing (c : Ctx) : Nat × Nat × Bool × Nat × List HeldOp := (c.pos, c.pending, c.pvalid, c.genLeft, c.held)

/-- What a placement with no change of its own keeps; it begins no step. -/
structure Place.remains (x y : Place) : Prop where
  cfg : y.cfg = x.cfg
  part : y.part = x.part
  present : y.present = x.present
  change : y.change = x.change
  removing : y.removing = x.removing
  idle : x.step = none → y.step = none

/-- State t as such work leaves state s. -/
structure Mild (s t : State) : Prop where
  now : t.now = s.now
  models : t.models = s.models
  ctx : ∀ i, (t.ctx i).standing = (s.ctx i).standing
  out : ∀ k, (tget {} s.pairs k).out <+: (tget {} t.pairs k).out
  place : ∀ l, (s.place l).remains (t.place l)

variable {s t u : State}

theorem remains_refl {x : Place} : x.remains x := ⟨rfl, rfl, rfl, rfl, rfl, id⟩

theorem remains_trans {x y z : Place} (h : x.remains y) (k : y.remains z) : x.remains z :=
  ⟨k.cfg.trans h.cfg, k.part.trans h.part, k.present.trans h.present, k.change.trans h.change, k.removing.trans h.removing, fun hn => k.idle (h.idle hn)⟩

theorem mild_refl : Mild s s := ⟨rfl, rfl, fun _ => rfl, fun _ => List.prefix_rfl, fun _ => remains_refl⟩

theorem mild_trans (h : Mild s t) (k : Mild t u) : Mild s u where
  now := k.now.trans h.now
  models := k.models.trans h.models
  ctx i := (k.ctx i).trans (h.ctx i)
  out i := (h.out i).trans (k.out i)
  place l := remains_trans (h.place l) (k.place l)

theorem mild_each {α : Type} {xs : List α} {g : State → α → State} (hg : ∀ (t : State) x, x ∈ xs → Mild t (g t x)) : Mild s (s.each xs g) :=
  each_induction (P := Mild s) mild_refl fun t x hx ht => mild_trans ht (hg t x hx)

theorem mild_ite {P : Prop} [Decidable P] {v w : State} (hv : P → Mild s v) (hw : ¬P → Mild s w) : Mild s (if P then v else w) := by
  split
  · exact hv ‹_›
  · exact hw ‹_›

/-! ## Operations on one part of the state -/

/-- The parts of a state that the relation speaks of. -/
def State.told (s : State) : Nat × Tbl Model × Tbl Ctx × Tbl Pair × Tbl Place := (s.now, s.models, s.ctxs, s.pairs, s.places)

theorem mild_of (h : t.told = s.told) : Mild s t := by
  obtain ⟨hnow, hmodels, hctxs, hpairs, hplaces⟩ : t.now = s.now ∧ t.models = s.models ∧ t.ctxs = s.ctxs ∧ t.pairs = s.pairs ∧ t.places = s.places := by
    simpa only [State.told, Prod.mk.injEq] using h
  refine ⟨hnow, hmodels, fun i => ?_, fun k => ?_, fun l => ?_⟩
  · rw [State.ctx, State.ctx, hctxs]
  · rw [hpairs]
  · rw [State.place, State.place, hplaces]
    exact remains_refl

theorem mild_setAux {i : Nat} {a : CtxAux} : Mild s (s.setAux i a) := mild_of rfl

theorem mild_setPart {p : Nat} {x : Part} : Mild s (s.setPart p x) := mild_of rfl

theorem mild_setTile {n : Nat} {x : Tile} : Mild s (s.setTile n x) := mild_of rfl

theorem mild_setPhy {i : Nat} {x : Phys} : Mild s (s.setPhy i x) := mild_of rfl

theorem mild_setRing {c r : Nat} {x : Ring} : Mild s (s.setRing c r x) := mild_of rfl

theorem mild_setLaser {n : Nat} {x : Laser} : Mild s (s.setLaser n x) := mild_of rfl

theorem mild_wrMem {p a : Nat} {bs : List Byte} : Mild s (s.wrMem p a bs) := mild_of rfl

theorem mild_cal {x : Cal} : Mild s { s with cal := x } := mild_of rfl

theorem mild_sched {x : Sched} : Mild s { s with sched := x } := mild_of rfl

theorem mild_useFree : Mild s s.useFree := mild_of rfl

theorem mild_setFld {r : RegRef} {f : Field} {x : Nat} : Mild s (s.setFld r f x) := mild_of rfl

theorem mild_setFlag {r : RegRef} {f : Field} {b : Bool} : Mild s (s.setFlag r f b) := mild_of rfl

theorem mild_bump {r : RegRef} {f : Field} : Mild s (s.bump r f) := by
  rw [State.bump, bumpBy_eq]
  exact mild_setFld

theorem mild_setCtx {i : Nat} {c : Ctx} (h : c.standing = (s.ctx i).standing) : Mild s (s.setCtx i c) where
  now := rfl
  models := rfl
  ctx k := by
    by_cases hk : k = i
    · subst hk
      rw [State.ctx_setCtx_self, h]
    · rw [State.ctx_setCtx_ne hk]
  out _ := List.prefix_rfl
  place _ := remains_refl

theorem mild_setPlace {l : Nat} {x : Place} (h : (s.place l).remains x) : Mild s (s.setPlace l x) where
  now := rfl
  models := rfl
  ctx _ := rfl
  out _ := List.prefix_rfl
  place k := by
    by_cases hk : k = l
    · subst hk
      rw [State.place_setPlace_self]
      exact h
    · rw [State.place_setPlace_ne hk]
      exact remains_refl

theorem mild_setPair {f r : Nat} {x : Pair} (h : (s.pair f r).out <+: x.out) : Mild s (s.setPair f r x) where
  now := rfl
  models := rfl
  ctx _ := rfl
  out k := by
    unfold State.setPair
    dsimp only
    rw [tget_tset]
    split
    · subst k
      exact h
    · exact List.prefix_rfl
  place _ := remains_refl

/-! ## Work that another relation tells of -/

theorem mild_of_framesOnly (h : s.framesOnly t) : Mild s t := mild_of (by rw [h]; rfl)

theorem mild_of_twinOnly (h : s.twinOnly t) : Mild s t := mild_of (by rw [h]; rfl)

theorem mild_violate {p a so : Nat} {phys value : Bool} : Mild s (s.violate p a so phys value) := mild_of_framesOnly framesOnly_violate

theorem mild_popFor {c : Ctx} {pages : List Nat} : Mild s (s.popFor c pages).1 := mild_of_framesOnly framesOnly_popFor

theorem mild_touch {i : Nat} : Mild s (s.touch i) := by
  obtain ⟨a, c, m, h⟩ := touch_agrees (s := s) (i := i)
  exact mild_of (by rw [h]; rfl)

/-! ## Replies -/

theorem mild_post {f r : Nat} {o : Out} : Mild s (s.post f r o) := by
  unfold State.post
  split
  · exact mild_setPair (List.prefix_append _ _)
  · exact mild_bump

/-- A pair whose completions alone are looked at stays where they stay. -/
theorem mild_setPair_of_out {f r : Nat} {x : Pair} (h : x.out = (s.pair f r).out) : Mild s (s.setPair f r x) := mild_setPair (h ▸ List.prefix_rfl)

theorem mild_fencePass {f : Nat} : Mild s (s.fencePass f) := by
  unfold State.fencePass
  refine mild_each fun v r _ => ?_
  dsimp only
  split
  · split
    · split
      · exact mild_setPair_of_out rfl
      · split
        · refine mild_trans ?_ mild_bump
          exact mild_setPair_of_out rfl
        · refine mild_trans ?_ mild_post
          exact mild_setPair_of_out rfl
    · exact mild_refl
  · exact mild_refl

theorem mild_fenceSweep {f : Nat} : Mild s (s.fenceSweep f) := mild_each fun _ _ _ => mild_fencePass

theorem mild_badCounted {h : Hdr} {status : Nat} : Mild s (s.badCounted h status) := mild_ite (fun _ => mild_bump) fun _ => mild_refl

theorem mild_seqDone {h : Hdr} : Mild s (s.seqDone h) := mild_setPair_of_out rfl

theorem mild_replyAs {final : Bool} {h : Hdr} {op status detail result : Nat} : Mild s (s.replyAs final h op status detail result) := by
  refine mild_trans (mild_badCounted (h := h) (status := status)) ?_
  show Mild _ (if final && status = stOK && bitOf h.flags.toNat 0 then ((s.badCounted h status).seqDone h).fenceSweep h.fn
    else if final && !((s.badCounted h status).pairOn h.fn h.ring) then
      (((s.badCounted h status).seqDone h).bump (Reg.SCH_FN_STAT h.fn) Fld.SCH_FN_STAT_DISCARD).fenceSweep h.fn
    else (s.badCounted h status).post h.fn h.ring { replyOut h op status detail result final 0 with since := 0 })
  split
  · exact mild_trans mild_seqDone mild_fenceSweep
  · split
    · exact mild_trans (mild_trans mild_seqDone mild_bump) mild_fenceSweep
    · exact mild_post

theorem mild_reply {h : Hdr} {op status detail result : Nat} : Mild s (s.reply h op status detail result) := mild_replyAs

/-! ## Contexts -/

theorem mild_editCtx {i : Nat} {c : Ctx} (h : c.standing = (s.ctx i).standing) : Mild s (s.editCtx i c) := mild_trans (mild_setCtx h) mild_touch

theorem mild_putCtx {i : Nat} {c : Ctx} (h : c.standing = (s.ctx i).standing) : Mild s (s.putCtx i c) := by
  have hstamped : (s.stamped i c).standing = (s.ctx i).standing := by rw [stamped_eq, ← h]; rfl
  exact mild_trans (mild_editCtx hstamped) (mild_of_twinOnly twinOnly_putCtx)

theorem mild_pauseCtx {i : Nat} : Mild s (s.pauseCtx i) := mild_ite (fun _ => mild_putCtx rfl) fun _ => mild_refl

theorem mild_complete {i status : Nat} : Mild s (s.complete i status) := mild_trans mild_post mild_useFree

theorem mild_noteAll {notes : List (Nat × Nat)} : Mild s (s.noteAll notes) := mild_each fun _ _ _ => mild_complete

theorem mild_starve {i : Nat} {left : List Nat} : Mild s (s.starve i left) := by
  unfold State.starve
  dsimp only
  split
  · exact mild_setAux
  · generalize hv : ({ State.setAux _ _ _ with sched := _ } : State) = v
    have hcounted : Mild s (v.bump (Reg.KVT_PART_CNT (s.ctx i).part) Fld.KVT_PART_CNT_STARVED) := mild_trans (hv ▸ mild_of rfl) mild_bump
    exact mild_trans hcounted (mild_putCtx (hcounted.ctx i).symm)

theorem mild_noTable {i : Nat} : Mild s (s.noTable i) := by
  unfold State.noTable
  exact mild_trans mild_setAux (mild_putCtx rfl)

/-! ## Parks that end -/

theorem mild_parkEnds {i : Nat} : Mild s (s.parkEnds i) := by
  unfold State.parkEnds
  split
  · exact mild_refl
  · dsimp only
    generalize hv : State.putCtx _ _ _ = v
    have hput : Mild s v := by
      rw [← hv]
      refine mild_trans mild_setAux (mild_putCtx ?_)
      rfl
    split
    · exact mild_trans hput mild_reply
    · exact hput

theorem mild_freeRun {p : Nat} : Mild s (s.freeRun p) :=
  mild_trans (mild_of_framesOnly framesOnly_drainFree) (mild_each fun _ _ _ => mild_ite (fun _ => mild_trans mild_setPart mild_parkEnds) fun _ => mild_refl)

end Sys2Proof.Machine

end

section
/-! PROOFS. The choice of a step's contexts and the build of the step are mild (R165, R224, R231, R232, R525). -/

namespace Sys2Proof.Machine

variable {s t u : State} {l : Nat}

/-! ## The choice -/

theorem mild_refill {b : Nat} : Mild s (s.refill b) := mild_wrMem

theorem mild_debit {b n : Nat} : Mild s (s.debit b n) := mild_wrMem

/-- A slot with its inputs (R183, R301). -/
def State.slotInputs (s : State) (x : Slot) (held : List Nat) : State × Slot :=
  match x.kind with
  | .prefill t _ =>
    if !(s.auxOf x.ctx).redo.isEmpty then (s, { x with inputs := (s.auxOf x.ctx).redo.take t })
    else match s.promptTokens x.ctx (t - held.length) with
      | .inl (some ws) => (s, { x with inputs := held ++ ws })
      | .inl none => (s, { x.drop stBadPacket with clearApp := true })
      | .inr a => (s.violate (s.ctx x.ctx).part a 4 false false, x.drop stViolation)
  | _ => (s, { x with inputs := held })

/-- A slot with its profile (R239). -/
def State.slotProfile (s : State) (x : Slot) (c : Ctx) : State × Slot :=
  if !x.emits then (s, x)
  else match s.rdVa c.part (s.fld (Reg.SMP_PROF_TBL c.part) Fld.SMP_PROF_TBL_BASE * 4096 + 64 * c.sprof) 64 with
    | .inl b => (s, { x with prof := b })
    | .inr a => (s.violate c.part a 4 false false, x.drop stViolation)

theorem loadSlot_eq {x : Slot} : s.loadSlot x =
    (s.slotInputs x (if (s.ctx x.ctx).pvalid then [(s.ctx x.ctx).pending] else [])).1.slotProfile
      (s.slotInputs x (if (s.ctx x.ctx).pvalid then [(s.ctx x.ctx).pending] else [])).2 (s.ctx x.ctx) := rfl

theorem mild_slotInputs {x : Slot} {held : List Nat} : Mild s (s.slotInputs x held).1 := by
  unfold State.slotInputs
  split
  · split
    · exact mild_refl
    · split
      · exact mild_refl
      · exact mild_refl
      · exact mild_violate
  · exact mild_refl

theorem mild_slotProfile {x : Slot} {c : Ctx} : Mild s (s.slotProfile x c).1 := by
  unfold State.slotProfile
  split
  · exact mild_refl
  · split
    · exact mild_refl
    · exact mild_violate

theorem mild_loadSlot {x : Slot} : Mild s (s.loadSlot x).1 := by
  rw [loadSlot_eq]
  exact mild_trans mild_slotInputs mild_slotProfile

/-- Contexts taken one after the other. -/
theorem mild_selFold {xs : List Nat} {g : Sel → Nat → Sel} {a : Sel} (hg : ∀ (a : Sel) i, Mild a.s (g a i).s) : Mild a.s (xs.foldl g a).s := by
  induction xs generalizing a with
  | nil => exact mild_refl
  | cons i xs ih => exact mild_trans (hg a i) ih

theorem mild_screen {a : Sel} {i : Nat} : Mild a.s (a.screen i).s := by
  unfold Sel.screen
  dsimp only
  split
  · exact mild_trans mild_pauseCtx mild_bump
  · split
    · refine mild_trans (mild_editCtx ?_) mild_bump
      rfl
    · exact mild_refl

/-- The context taken enters the step (R224, R230, R231). -/
def Sel.enter (a : Sel) (i : Nat) (late dropped : Bool) (x : Slot) (s1 : State) : Sel :=
  let s2 := if dropped then s1.bump (Reg.KVT_PART_CNT (a.s.ctx i).part) Fld.KVT_PART_CNT_SCR_DROP else s1
  let s3 := match x.kind with
    | .spec _ fs => s2.setPart (a.s.ctx i).part { s2.part (a.s.ctx i).part with pool := (s2.part (a.s.ctx i).part).pool.filter fun f => !fs.contains f }
    | _ => s2
  let s4 := (s3.editCtx i { s3.ctx i with waitSteps := 0, aged := false, tree := none }).debit (a.s.ctx i).tag x.npos
  let s5 := if late then s4.bump (Reg.SCH_PART_CNT (a.s.ctx i).part) Fld.SCH_PART_CNT_OVER_BUDGET else s4
  { s := (s5.loadSlot x).1, slots := a.slots ++ [(s5.loadSlot x).2], npos := a.npos + x.npos, notes := a.notes }

theorem mild_enter {a : Sel} {i : Nat} {late dropped : Bool} {x : Slot} : Mild s (a.enter i late dropped x s).s := by
  unfold Sel.enter
  dsimp only
  refine mild_trans ?_ mild_loadSlot
  generalize hv : (match x.kind with
    | .spec _ fs => _
    | _ => _ : State) = v
  have hpool : Mild s v := by
    rw [← hv]
    split
    · exact mild_trans (mild_ite (fun _ => mild_bump) fun _ => mild_refl) mild_setPart
    · exact mild_ite (fun _ => mild_bump) fun _ => mild_refl
  have hpaid : Mild s ((v.editCtx i { v.ctx i with waitSteps := 0, aged := false, tree := none }).debit (a.s.ctx i).tag x.npos) := by
    refine mild_trans (mild_trans hpool (mild_editCtx ?_)) mild_debit
    rfl
  exact mild_ite (fun _ => mild_trans hpaid mild_bump) fun _ => hpaid

theorem take_cases {a : Sel} {i : Nat} {late : Bool} : a.take l i late = a ∨
    ∃ x dropped, (∃ left, (a.take l i late).s = (a.s.popFor (a.s.ctx i) (a.s.slotPages x)).1.starve i left) ∨
      (a.take l i late).s = (a.s.popFor (a.s.ctx i) (a.s.slotPages x)).1.noTable i ∨
      a.take l i late = a.enter i late dropped x (a.s.popFor (a.s.ctx i) (a.s.slotPages x)).1 := by
  unfold Sel.take
  split
  · exact .inl rfl
  next x dropped _ =>
    refine .inr ⟨x, dropped, ?_⟩
    dsimp only
    split
    next s1 left he => exact .inl ⟨left, by rw [he]⟩
    next s1 va he => exact .inr (.inl (by rw [he]))
    next s1 he =>
      rw [he]
      exact .inr (.inr rfl)

theorem mild_take {a : Sel} {i : Nat} {late : Bool} : Mild a.s (a.take l i late).s := by
  rcases take_cases (a := a) (l := l) (i := i) (late := late) with h | ⟨x, dropped, ⟨left, h⟩ | h | h⟩ <;> rw [h]
  · exact mild_refl
  · exact mild_trans mild_popFor mild_starve
  · exact mild_trans mild_popFor mild_noTable
  · exact mild_trans mild_popFor mild_enter

theorem mild_pass {a : Sel} {cls : Nat} {late hold : Bool} : Mild a.s (a.pass l cls late hold).s := by
  unfold Sel.pass
  split
  · exact mild_refl
  · refine mild_selFold fun a i => ?_
    split
    · exact mild_refl
    · split
      · exact mild_refl
      · dsimp only
        split
        · exact mild_refill
        · exact mild_trans mild_refill (mild_take (a := { a with s := a.s.refill (a.s.ctx i).tag }))

theorem mild_select {hold : Bool} : Mild s (s.select l hold).s := by
  unfold State.select
  dsimp only
  have hscreened : Mild s ((s.sampled l).foldl (fun (a : Sel) i => a.screen i) { s := s }).s := mild_selFold (a := { s := s }) fun _ _ => mild_screen
  refine mild_trans hscreened (mild_trans (mild_selFold fun a i => ?_) (mild_trans (mild_selFold fun _ _ => mild_pass) (mild_selFold fun _ _ => mild_pass)))
  split
  · exact mild_refl
  · exact mild_take

theorem mild_decideHold : Mild s (s.decideHold l) := by
  have hhold (b : Bool) : Mild s (s.setPlace l { s.place l with hold := b }) := mild_setPlace ⟨rfl, rfl, rfl, rfl, rfl, id⟩
  unfold State.decideHold
  dsimp only
  split
  · exact mild_ite (fun _ => hhold _) fun _ => mild_refl
  · exact mild_ite (fun _ => mild_trans (hhold _) mild_bump) fun _ => hhold _

/-! ## The tiles take up the step -/

theorem mild_turnScrub {n : Nat} {next : Option Nat} : Mild s (s.scrub n false next) := by
  unfold State.scrub
  dsimp only
  refine mild_trans ?_ mild_bump
  refine mild_trans ?_ mild_setTile
  split
  · exact mild_setPhy
  · exact mild_refl

theorem mild_setFb {n cause : Nat} : Mild s (s.setFb n cause) := mild_trans (mild_trans mild_setFlag mild_setFld) mild_setFld

theorem mild_countMisses {tiles : List Nat} : Mild s (s.countMisses tiles) := by
  unfold State.countMisses
  refine mild_each fun v w _ => ?_
  split
  · exact mild_setLaser
  · exact mild_refl

theorem mild_startTiles : Mild s (s.startTiles l) := by
  unfold State.startTiles
  dsimp only
  refine mild_trans ?_ (mild_setPlace ⟨rfl, rfl, rfl, rfl, rfl, id⟩)
  refine mild_trans (mild_each fun v n _ => ?_) mild_countMisses
  refine mild_trans ?_ mild_setFb
  refine mild_trans ?_ mild_setTile
  exact mild_ite (fun _ => mild_refl) fun _ => mild_ite (fun _ => mild_setTile) fun _ => mild_turnScrub

end Sys2Proof.Machine

end

section
/-! PROOFS. The end of a step and the cairn after it are mild, where no setting of the placement is due (R26, R186, R226, R412). -/

namespace Sys2Proof.Machine

variable {s t u : State} {l : Nat}

/-! ## Calibrated values at a cairn (R412) -/

theorem mild_keepCoefs {i : Nat} {arrs : List Nat} {restart : Bool} : Mild s (s.keepCoefs i arrs restart) := by
  unfold State.keepCoefs
  refine mild_each fun t l _ => mild_setPlace ⟨rfl, rfl, rfl, rfl, rfl, fun hn => ?_⟩
  rw [hn]
  rfl

theorem mild_applyAt {k : Nat} {r : Ramp} : Mild s (s.applyAt k r) := by
  unfold State.applyAt
  split
  · unfold State.applyTile
    dsimp only
    exact mild_trans mild_keepCoefs mild_setPhy
  · unfold State.applyCluster
    dsimp only
    split
    · exact mild_trans (mild_each fun _ _ _ => mild_setRing) mild_setPhy
    · exact mild_each fun _ _ _ => mild_setRing
  · exact mild_refl

theorem mild_switchBand {o : CalObj} : Mild s (s.switchBand o) := by
  unfold State.switchBand
  dsimp only
  split
  · exact mild_refl
  · split
    · exact mild_trans mild_cal mild_applyAt
    · refine mild_trans ?_ mild_applyAt
      exact mild_cal
    · exact mild_cal

theorem mild_rampCairn {tiles : List Nat} : Mild s (s.rampCairn tiles) := by
  unfold State.rampCairn
  dsimp only
  refine mild_trans (mild_each fun t i _ => ?_) (mild_each fun _ _ _ => mild_trans mild_applyAt mild_cal)
  refine mild_trans (mild_trans ?_ mild_switchBand) mild_switchBand
  split
  · exact mild_setPhy
  · exact mild_refl

/-! ## The pool, the slice entry, run-ahead -/

theorem mild_poolFill {p f q n : Nat} : Mild s (State.poolFill p f q n s) := by
  induction n generalizing s with
  | zero => exact mild_refl
  | succ n ih =>
    unfold State.poolFill
    have hpop : Mild s (s.pop p f q).1 := mild_of_framesOnly framesOnly_pop
    split
    next s1 a he =>
      rw [he] at hpop
      exact mild_trans (mild_trans hpop mild_setPart) ih
    next s1 he =>
      rw [he] at hpop
      exact hpop

theorem mild_poolCairn {p q : Nat} : Mild s (s.poolCairn p q) := by
  unfold State.poolCairn
  dsimp only
  split
  · exact mild_refl
  · exact mild_trans (mild_trans mild_setPart (mild_of_framesOnly framesOnly_giveBack)) mild_poolFill

theorem mild_readSlice : Mild s (s.readSlice l) := by
  have hslice (v : State) (hv : v.place l = s.place l) (e : List Byte) : Mild v (v.setPlace l { s.place l with slice := e }) :=
    mild_setPlace (hv ▸ ⟨rfl, rfl, rfl, rfl, rfl, id⟩)
  unfold State.readSlice
  dsimp only
  split
  · split
    · exact hslice s rfl _
    · split
      · exact hslice s rfl _
      · exact mild_trans mild_bump (hslice _ State.bump_place_acc _)
  · exact hslice s rfl _

theorem mild_dropStream : Mild s (s.dropStream l) := mild_each fun _ _ _ => mild_setTile

theorem mild_dropAhead : Mild s (s.dropAhead l) := by
  unfold State.dropAhead
  refine mild_trans (mild_ite (fun _ => mild_refl) fun _ => mild_each fun t e _ => ?_) mild_dropStream
  split
  · exact mild_setPhy
  · exact mild_refl

theorem mild_rereads {p : Nat} : Mild s (s.rereads l p) :=
  mild_trans (mild_ite (fun _ => mild_trans mild_readSlice mild_rampCairn) fun _ => mild_refl) mild_poolCairn

theorem mild_comesToBarrier : Mild s (s.comesToBarrier l) := by
  unfold State.comesToBarrier
  exact mild_ite (fun _ => mild_trans mild_dropAhead (mild_setPlace ⟨rfl, rfl, rfl, rfl, rfl, id⟩)) fun _ =>
    mild_ite (fun _ => mild_dropAhead) fun _ => mild_refl

/-! ## What waits for a cairn -/

theorem tget_map_snd {f : Pair → Pair} (hf : f {} = {}) {m : Tbl Pair} {k : Nat} :
    tget {} (m.map fun (y : Nat × Pair) => (y.1, f y.2)) k = f (tget {} m k) := by
  induction m with
  | nil => exact hf.symm
  | cons y m ih =>
    rw [List.map_cons, tget, tget]
    split
    · rfl
    · exact ih

theorem mild_mapCairns {f : CairnWait → CairnWait} : Mild s (s.mapCairns f) where
  now := rfl
  models := rfl
  ctx _ := rfl
  out k := by
    have h : tget {} (s.mapCairns f).pairs k = { tget {} s.pairs k with cairns := (tget {} s.pairs k).cairns.map f } :=
      tget_map_snd (f := fun x => { x with cairns := x.cairns.map f }) rfl
    rw [h]
  place _ := remains_refl

theorem mild_cairnReplies : Mild s s.cairnReplies := by
  unfold State.cairnReplies
  refine mild_each fun t x _ => ?_
  dsimp only
  refine mild_ite (fun _ => mild_refl) fun _ => mild_trans ?_ (mild_each fun _ _ _ => mild_reply)
  exact mild_setPair_of_out rfl

theorem mild_turn : Mild s (s.turn l) := by
  have hgive {w n : Nat} : Mild s (s.setPlace w { s.place w with turnDone := n }) := mild_setPlace ⟨rfl, rfl, rfl, rfl, rfl, id⟩
  unfold State.turn
  refine mild_ite (fun _ => mild_refl) fun _ => ?_
  dsimp only
  refine mild_ite (fun _ => mild_refl) fun _ => ?_
  split
  · exact mild_trans hgive mild_sched
  · exact mild_sched

/-- A placement present is listed under its partition. -/
theorem placesOf_ne_nil (h : (s.place l).present = true) : s.placesOf (s.place l).part ≠ [] := by
  have hne : s.place l ≠ {} := by
    intro hplace
    rw [hplace] at h
    cases h
  exact List.ne_nil_of_mem (mem_placesOf.mpr ⟨_, mem_of_tget_ne hne, h, rfl⟩)

/-- Nothing waits for the last placement to go while one of the partition is there. -/
theorem settle_of_present (h : (s.place l).present = true) : s.settle (s.place l).part = s := by
  have hplaces : (s.placesOf (s.place l).part).isEmpty = false := List.isEmpty_eq_false_iff.mpr (placesOf_ne_nil h)
  have hpresent : s.present.isEmpty = false := List.isEmpty_eq_false_iff.mpr (List.ne_nil_of_mem (mem_present h))
  have hdebug : s.zeroDebugRun = s := by
    unfold State.zeroDebugRun
    dsimp only
    rw [hpresent, Bool.and_false, Bool.false_and]
    rfl
  unfold State.settle
  rw [hplaces]
  dsimp only
  split <;> exact hdebug

theorem mild_goesOn {p : Nat} (h : (s.place l).present = true) (hp : p = (s.place l).part) : Mild s (s.goesOn l p) := by
  unfold State.goesOn
  dsimp only
  generalize hv : (s.mapCairns _).cairnReplies = v
  have hreplied : Mild s v := hv ▸ mild_trans mild_mapCairns mild_cairnReplies
  generalize hw : State.decideHold _ l = w
  have hturned : Mild s w := by
    rw [← hw]
    exact mild_trans (mild_trans hreplied (mild_ite (fun _ => mild_freeRun) fun _ => mild_refl)) (mild_trans mild_turn mild_decideHold)
  have hthere : (w.place l).present = true := (hturned.place l).present.trans h
  rw [hp, ← (hturned.place l).part, settle_of_present hthere]
  exact hturned

theorem dueSet_of_settled (h : (s.place l).settled) : s.dueSet l = s := by
  obtain ⟨hchange, hremoving⟩ := h
  rw [State.dueSet, hremoving, hchange]
  rfl

theorem mild_cairn (h : (s.place l).settled) (hp : (s.place l).present = true) : Mild s (s.cairn l) := by
  rw [cairn_eq, dueSet_of_settled h]
  have hcame : Mild s ((s.rereads l (s.place l).part).comesToBarrier l) := mild_trans mild_rereads mild_comesToBarrier
  exact mild_trans hcame (mild_goesOn ((hcame.place l).present.trans hp) (hcame.place l).part.symm)

/-! ## The end of a step -/

theorem mild_writeStats {st : Step} : Mild s (s.writeStats l st) := mild_each fun _ _ _ => mild_wrMem

theorem mild_retirePops {slots : List Slot} : Mild s (s.retirePops slots) := by
  unfold State.retirePops
  refine mild_each fun t x _ => ?_
  dsimp only
  split
  · exact mild_refl
  · have hpops := mild_popFor (s := t) (c := t.ctx x.ctx) (pages := selfPages (t.imgOf (t.ctx x.ctx)) (t.ctx x.ctx) (t.ctx x.ctx).pos 1)
    split
    next s1 he =>
      rw [he] at hpops
      exact hpops
    next s1 left he =>
      rw [he] at hpops
      exact mild_trans hpops (mild_trans mild_starve mild_complete)
    next s1 va he =>
      rw [he] at hpops
      exact mild_trans hpops (mild_trans mild_noTable mild_complete)

theorem mild_applyHeld {i : Nat} (h : (s.ctx i).held = []) : Mild s (s.applyHeld i) := by
  unfold State.applyHeld
  dsimp only
  rw [h]
  refine mild_setCtx ?_
  rw [Ctx.standing, Ctx.standing, h]

theorem mild_endStep {x : Slot} (h : (s.ctx x.ctx).held = []) : Mild s (s.endStep l [x]) := by
  unfold State.endStep
  dsimp only
  generalize hv : s.setPlace l _ = v
  have hnoted : Mild s v := hv ▸ mild_setPlace ⟨rfl, rfl, rfl, rfl, rfl, id⟩
  have hheld : (v.ctx x.ctx).held = [] := by rw [← hv, State.setPlace_ctx_acc, h]
  exact mild_trans hnoted (mild_applyHeld hheld)

end Sys2Proof.Machine

end

section
/-! PROOFS. STEP_BUILD, SAMPLE and COMPLETION_BUFFER_STALL (R186, R224, R226, R231, R236, R239, R241, R289). -/

namespace Sys2Proof.Machine

variable {s t b : State} {l i at_ : Nat}

/-! ## STEP_BUILD -/

/-- A placement none of whose completions waits is stalled no more (R289). -/
def State.unstalled (s : State) (l : Nat) : State := if (s.waitingOf l).isEmpty then s.setPlace l { s.place l with stalled := false } else s

/-- The step builder at work. -/
def State.builds (s : State) (l : Nat) : State :=
  let s := if s.mayStep l then s.loseBad l else s
  if s.mayStep l && s.hasTurn l && !(s.place l).stalled then s.build l else s

theorem mild_unstalled : Mild s (s.unstalled l) := mild_ite (fun _ => mild_setPlace ⟨rfl, rfl, rfl, rfl, rfl, id⟩) fun _ => mild_refl

theorem exec_stepBuild (hl : l < 1024) (hs : ((s.tick at_).place l).cfg.sliced = false) :
    exec (.stepBuild l at_) s = .next (((s.tick at_).unstalled l).builds l) := by
  have hturn : (s.tick at_).turn l = s.tick at_ := by
    rw [State.turn, hs]
    rfl
  show execStepBuild l at_ s = _
  unfold execStepBuild
  dsimp only
  rw [hturn, decide_eq_true hl]
  rfl

theorem builds_of_not_mayStep (h : s.mayStep l = false) : s.builds l = s := by
  unfold State.builds
  dsimp only
  rw [h, if_neg Bool.false_ne_true, h]
  rfl

/-- With sound memory a placement that may step builds, unless its completions wait too long. -/
theorem builds_of_mayStep (h : s.mayStep l = true) (hm : s.mem.poison = []) (hs : (s.place l).cfg.sliced = false) :
    s.builds l = if (s.place l).stalled then s else s.build l := by
  have hlost : s.loseBad l = s := if_pos (by rw [hm]; rfl)
  have hturn : s.hasTurn l = true := by
    rw [State.hasTurn, hs]
    rfl
  unfold State.builds
  dsimp only
  rw [h, if_pos rfl, hlost, h, hturn]
  cases (s.place l).stalled <;> rfl

/-- The state that the build reaches before the step stands in it: those left out wait a step longer, and the tiles take the step up. -/
def Sel.readied (a : Sel) (l : Nat) : State :=
  let s1 := a.s.each ((a.s.sampled l).filter fun i => !(a.slots.any fun x => x.ctx == i)) fun s i =>
    s.editCtx i { s.ctx i with waitSteps := min 255 ((s.ctx i).waitSteps + 1) }
  (s1.startTiles l).bump (Reg.SCH_QSTAT (s1.place l).home) Fld.SCH_QSTAT_STEPS

/-- A step begins. -/
def State.begins (s : State) (l : Nat) (a : Sel) : State :=
  { s.setPlace l { s.place l with step := some (s.newStep l a), steps := (s.place l).steps + 1, fresh := [] } with
    sched := { s.sched with nextStep := s.sched.nextStep + 1 } }

theorem mild_readied {a : Sel} : Mild a.s (a.readied l) := by
  unfold Sel.readied
  dsimp only
  refine mild_trans (mild_trans (mild_each fun t i _ => mild_editCtx ?_) mild_startTiles) mild_bump
  rfl

theorem build_eq : s.build l =
    if (((s.decideHold l).select l ((s.decideHold l).bulkHold l)).slots.isEmpty) then
      ((s.decideHold l).select l ((s.decideHold l).bulkHold l)).s.noteAll ((s.decideHold l).select l ((s.decideHold l).bulkHold l)).notes
    else (((s.decideHold l).select l ((s.decideHold l).bulkHold l)).readied l).begins l ((s.decideHold l).select l ((s.decideHold l).bulkHold l)) := rfl

theorem begins_place {a : Sel} : ((s.begins l a).place l).step = some (s.newStep l a) := by
  have h : (s.begins l a).place l = { s.place l with step := some (s.newStep l a), steps := (s.place l).steps + 1, fresh := [] } :=
    State.place_setPlace_self
  rw [h]

/-- What a step that begins holds (R226, R231). -/
theorem begins_spec {a : Sel} (h : Mild b s) : ∃ st, ((s.begins l a).place l).step = some st ∧ st.slots = a.slots ∧ st.npos = a.npos ∧
    st.notBuilt = a.notes ∧ st.builtAt = b.now ∧ st.gen = (b.model (b.place l).cfg.model).gen ∧ st.profile = (b.place l).cfg.profile ∧
    (s.begins l a).sched.nextStep = st.id + 1 ∧ st.escalated = false ∧ st.relaySent = false := by
  have hcfg : (s.place l).cfg = (b.place l).cfg := (h.place l).cfg
  have hgen : (s.model (s.place l).cfg.model).gen = (b.model (b.place l).cfg.model).gen := by
    rw [hcfg, State.model, State.model, h.models]
  exact ⟨s.newStep l a, begins_place, rfl, rfl, rfl, h.now, hgen, congrArg PlaceCfg.profile hcfg, rfl, rfl, rfl⟩

/-! ## COMPLETION_BUFFER_STALL -/

theorem exec_completionBufferStall (hl : l < 1024) : exec (.completionBufferStall l at_) s =
    .next (if ((s.tick at_).waitingOf l).any fun o => o.since + 100000 < (s.tick at_).now then
      (s.tick at_).setPlace l { (s.tick at_).place l with stalled := true } else s.tick at_) := by
  show execCompletionBufferStall l at_ s = _
  unfold execCompletionBufferStall
  dsimp only
  rw [decide_eq_true hl]
  rfl

/-! ## SAMPLE -/

theorem exec_sample {logits : List (List BF16)} {st : Step} {x : Slot} (hl : l < 1024) (hi : i < 4194304) (hst : (s.place l).step = some st)
    (hx : (st.slots.find? fun y => y.ctx == i) = some x) (he : x.emits = true) (hd : x.done = false) :
    exec (.sample l i logits) s = .next (s.sampleSlot l x logits) := by
  show execSample l i logits s = _
  unfold execSample
  rw [decide_eq_true hl, decide_eq_true hi, hst]
  dsimp only
  rw [hx]
  dsimp only
  rw [he, hd]
  rfl

/-- The slot of context i is the one replaced. -/
theorem find_setSlot {st : Step} {x y : Slot} (hx : (st.slots.find? fun z => z.ctx == i) = some x) (hy : y.ctx = i) :
    ((st.setSlot y).slots.find? fun z => z.ctx == i) = some y := by
  show ((st.slots.map fun z => if z.ctx = y.ctx then y else z).find? fun z => z.ctx == i) = some y
  generalize st.slots = xs at hx ⊢
  induction xs with
  | nil => cases hx
  | cons z zs ih =>
    rw [List.map_cons]
    by_cases hz : z.ctx = i
    · rw [if_pos (hz.trans hy.symm)]
      exact List.find?_cons_of_pos (by rw [hy]; exact BEq.rfl)
    · rw [if_neg fun h => hz (h.trans hy)]
      rw [List.find?_cons_of_neg (by simpa using hz)] at hx ⊢
      exact ih hx

/-- A slot of a step replaced, after work on registers alone. -/
theorem setSlot_spec {st : Step} {x y : Slot} (ht : t = { s with regs := t.regs }) (hst : (s.place l).step = some st)
    (hx : (st.slots.find? fun z => z.ctx == i) = some x) (hy : y.ctx = i) :
    (∃ st', ((t.setSlot l y).place l).step = some st' ∧ (st'.slots.find? fun z => z.ctx == i) = some y) ∧ (t.setSlot l y).regs = t.regs ∧
      t.setSlot l y = { s with regs := (t.setSlot l y).regs, places := (t.setSlot l y).places } := by
  have hplace : t.place l = s.place l := by rw [ht]; rfl
  have hset : t.setSlot l y = t.setPlace l { t.place l with step := some (st.setSlot y) } := by
    rw [State.setSlot, hplace, hst]
  rw [hset]
  refine ⟨⟨st.setSlot y, ?_, find_setSlot hx hy⟩, rfl, ?_⟩
  · rw [State.place_setPlace_self]
  · rw [ht]
    rfl

theorem sample_ctx {st : Step} {x : Slot} (hx : (st.slots.find? fun z => z.ctx == i) = some x) : x.ctx = i := by
  simpa using List.find?_some hx

/-- A bad profile discards the work of the slot (R239). -/
theorem sampleSlot_bad {logits : List (List BF16)} {st : Step} {x : Slot} (hst : (s.place l).step = some st)
    (hx : (st.slots.find? fun y => y.ctx == i) = some x) (hp : (profOf x.prof).ok = false) (ht : t = s.sampleSlot l x logits) :
    ∃ st' y, (t.place l).step = some st' ∧ (st'.slots.find? fun z => z.ctx == i) = some y ∧ y.done = true ∧ y.tokens = [] ∧
      y.discard.isSome = true ∧ s.counted t (Reg.SMP_QCNT (s.place l).home) Fld.SMP_QCNT_BAD_PROF 1 ∧ t = { s with regs := t.regs, places := t.places } := by
  have hslot : s.sampleSlot l x logits = (s.bump (Reg.SMP_QCNT (s.place l).home) Fld.SMP_QCNT_BAD_PROF).setSlot l (x.drop stBadPacket) := by
    unfold State.sampleSlot
    dsimp only
    rw [hp]
    rfl
  have hctx : (x.drop stBadPacket).ctx = i := (sample_ctx hx : x.ctx = i)
  obtain ⟨⟨st', hst', hy⟩, hregs, hframe⟩ := setSlot_spec (t := s.bump (Reg.SMP_QCNT (s.place l).home) Fld.SMP_QCNT_BAD_PROF) (l := l)
    bumpBy_eq hst hx hctx
  rw [ht, hslot]
  refine ⟨st', _, hst', hy, rfl, rfl, ?_, ?_, hframe⟩
  · unfold Slot.drop
    dsimp only
    split <;> rfl
  · exact counted_after (counted_bump (by decide)) (State.fld_of_regs hregs)

/-- The slot with its tokens, cut (R236, R241, R254). -/
def State.filledSlot (s : State) (x : Slot) (mask : Option (List Bool)) (logits : List (List BF16)) : Slot :=
  let a := s.slotTokens x (profOf x.prof) mask logits
  let keep := cutTokens (profOf x.prof).stop (s.ctx x.ctx).genLeft a.toks
  { x with done := true, tokens := keep, lps := (a.lps.take keep.length).filter (fun r => !r.isEmpty), accepted := a.nodes.take (keep.length - 1) }

/-- Tokens sampled are counted before the cut (R198, R254). -/
theorem sampleSlot_ok {logits : List (List BF16)} {st : Step} {x : Slot} {mask : Option (List Bool)} (hst : (s.place l).step = some st)
    (hx : (st.slots.find? fun y => y.ctx == i) = some x) (hp : (profOf x.prof).ok = true)
    (hm : s.maskBits (s.ctx i).part (profOf x.prof) (s.imgOf (s.ctx i)).vocab = .inl mask) (ht : t = s.sampleSlot l x logits) :
    ∃ st' y, (t.place l).step = some st' ∧ (st'.slots.find? fun z => z.ctx == i) = some y ∧ y.done = true ∧ y.discard = x.discard ∧
      y.tokens = cutTokens (profOf x.prof).stop (s.ctx i).genLeft (s.slotTokens x (profOf x.prof) mask logits).toks ∧
      s.counted t (Reg.SMP_QCNT (s.place l).home) Fld.SMP_QCNT_TOKENS (s.slotTokens x (profOf x.prof) mask logits).toks.length ∧
      t = { s with regs := t.regs, places := t.places } := by
  obtain rfl := sample_ctx hx
  generalize ha : s.slotTokens x (profOf x.prof) mask logits = a
  generalize hv : s.bumpBy (Reg.SMP_QCNT (s.place l).home) Fld.SMP_QCNT_TOKENS a.toks.length = v
  have hslot : s.sampleSlot l x logits =
      (v.bumpBy (Reg.SMP_QCNT (s.place l).home) Fld.SMP_QCNT_MASK_EMPTY a.empty).setSlot l (s.filledSlot x mask logits) := by
    unfold State.sampleSlot
    dsimp only
    rw [hp, hm, ← hv, ← ha]
    rfl
  have hcounted : s.counted v (Reg.SMP_QCNT (s.place l).home) Fld.SMP_QCNT_TOKENS a.toks.length := hv ▸ counted_bumpBy (by decide)
  have hregsOnly : v.bumpBy (Reg.SMP_QCNT (s.place l).home) Fld.SMP_QCNT_MASK_EMPTY a.empty =
      { s with regs := (v.bumpBy (Reg.SMP_QCNT (s.place l).home) Fld.SMP_QCNT_MASK_EMPTY a.empty).regs } := by
    rw [bumpBy_eq, ← hv, bumpBy_eq]
  obtain ⟨⟨st', hst', hy⟩, hregs, hframe⟩ := setSlot_spec (l := l) (y := s.filledSlot x mask logits) hregsOnly hst hx rfl
  rw [ht, hslot]
  refine ⟨st', _, hst', hy, rfl, rfl, ?_, ?_, hframe⟩
  · rw [State.filledSlot, ha]
  · refine counted_after hcounted ((State.fld_of_regs hregs).trans ?_)
    unfold State.bumpBy
    split
    · rfl
    · exact State.fld_setFld_of_disjoint (.inl (by decide))

end Sys2Proof.Machine

end

section
/-! PROOFS. STEP_RETIRE of a step with one decoding context (R27, R198, R220, R293). -/

namespace Sys2Proof.Machine

variable {s t u b : State} {l i : Nat} {st : Step} {x : Slot} {c : Ctx} {tok : Nat}

/-! ## The retire of the slot -/

/-- Only contexts, the cache of their descriptors, memory and messages differ: what the retire of a slot changes. -/
def State.ctxsOnly (s t : State) : Prop :=
  t = { s with ctxs := t.ctxs, aux := t.aux, sched := t.sched, mem := t.mem, twin := t.twin, fabric := t.fabric, ports := t.ports }

theorem ctxsOnly_trans (h : s.ctxsOnly t) (k : t.ctxsOnly u) : s.ctxsOnly u := k.trans (by rw [h])

theorem ctxsOnly_of_twinOnly (h : s.twinOnly t) : s.ctxsOnly t := h.trans (by rw [h])

theorem ctxsOnly_editCtx : s.ctxsOnly (s.editCtx i c) := editCtx_frame.trans (by rw [editCtx_frame])

theorem ctxsOnly_putCtx : s.ctxsOnly (s.putCtx i c) := ctxsOnly_trans ctxsOnly_editCtx (ctxsOnly_of_twinOnly twinOnly_putCtx)

theorem ctxsOnly_wrMem {p a : Nat} {bs : List Byte} : s.ctxsOnly (s.wrMem p a bs) := rfl

theorem ctxsOnly_putHist {q tok : Nat} : s.ctxsOnly (s.putHist i q tok) := ctxsOnly_wrMem

theorem ctxsOnly_each {α : Type} {xs : List α} {g : State → α → State} (hg : ∀ (t : State) x, x ∈ xs → t.ctxsOnly (g t x)) : s.ctxsOnly (s.each xs g) :=
  each_induction (P := s.ctxsOnly) rfl fun t x hx ht => ctxsOnly_trans ht (hg t x hx)

theorem ctxsOnly_slotHist : s.ctxsOnly (s.slotHist x) :=
  ctxsOnly_trans (ctxsOnly_each fun _ _ _ => ctxsOnly_putHist) (ctxsOnly_each fun _ _ _ => ctxsOnly_putHist)

theorem ctxsOnly_readyAt : s.ctxsOnly (s.readyAt i) := by
  unfold State.readyAt
  split
  · exact ctxsOnly_editCtx
  · rfl

theorem slotHist_ctx_aux : (s.slotHist x).ctxs = s.ctxs ∧ (s.slotHist x).aux = s.aux := by
  have hput (v : State) (xs : List (Nat × Nat)) (p : Nat) : (v.each xs fun s t => s.putHist x.ctx (p + t.1) t.2).ctxs = v.ctxs ∧
      (v.each xs fun s t => s.putHist x.ctx (p + t.1) t.2).aux = v.aux :=
    each_induction (P := fun t => t.ctxs = v.ctxs ∧ t.aux = v.aux) ⟨rfl, rfl⟩ fun _ _ _ h =>
      ⟨State.wrMem_ctxs.trans h.1, State.wrMem_aux.trans h.2⟩
  unfold State.slotHist
  exact ⟨(hput _ _ _).1.trans (hput _ _ _).1, (hput _ _ _).2.trans (hput _ _ _).2⟩

theorem putCtx_redo : ((s.putCtx i c).auxOf i).redo = (s.auxOf i).redo := by
  obtain ⟨n, d, h⟩ := editCtx_auxOf (s := s) (i := i) (j := i) (c := s.stamped i c)
  have htwin : (s.putCtx i c).auxOf i = (s.editCtx i (s.stamped i c)).auxOf i := by
    rw [State.auxOf, State.auxOf, twinOnly_putCtx (s := s) (i := i) (c := c)]
  rw [htwin, h]

theorem redoDone_of_empty (h : (s.auxOf x.ctx).redo = []) : s.redoDone x = s := by
  unfold State.redoDone
  dsimp only
  rw [h]
  rfl

theorem takeToken_of_pvalid (h : (s.ctx i).pvalid = true) : s.takeToken i = s := by
  unfold State.takeToken
  dsimp only
  split
  · rw [h]
    rfl
  · rfl

theorem standing_readyAt {k : Nat} : ((s.readyAt i).ctx k).standing = (s.ctx k).standing := by
  unfold State.readyAt
  split
  · refine (mild_editCtx ?_).ctx k
    rfl
  · rfl

/-- The context of a slot with a pending token takes it, and only contexts change. -/
theorem slotPut_spec {p : Nat} (hv : c.pvalid = true) (hr : (s.auxOf x.ctx).redo = []) :
    s.ctxsOnly (s.slotPut x c p false) ∧ ((s.slotPut x c p false).ctx x.ctx).standing = c.standing := by
  have hput : (s.putCtx x.ctx c).ctx x.ctx = s.stamped x.ctx c := putCtx_ctx_self
  have hvalid : ((s.putCtx x.ctx c).ctx x.ctx).pvalid = true := by
    rw [hput, stamped_eq]
    exact hv
  have hslot : s.slotPut x c p false = (s.putCtx x.ctx c).readyAt x.ctx := by
    unfold State.slotPut
    rw [redoDone_of_empty (putCtx_redo.trans hr), takeToken_of_pvalid hvalid]
    rfl
  rw [hslot]
  refine ⟨ctxsOnly_trans ctxsOnly_putCtx ctxsOnly_readyAt, standing_readyAt.trans ?_⟩
  rw [hput, stamped_eq]
  rfl

/-- What the retire of a slot with work leaves: its completion, and its context advanced. -/
structure Step.retires (b s : State) (l : Nat) (st : Step) (x : Slot) (os : List (Nat × Out)) : Prop where
  only : b.ctxsOnly s
  standing : (s.ctx x.ctx).standing = (b.advance x).1.standing
  outs : os = [b.slotOut l st x (b.ctx x.ctx) (slotStatus false st) x.tokens]

theorem retireSlot_decode (hk : x.kind = .decode) (hd : x.discard = none) (ht : x.tokens ≠ []) (ha : (b.ctx x.ctx).st ≠ .closed)
    (hr : (b.auxOf x.ctx).redo = []) (hp : (b.advance x).1.pvalid = true) (hlate : (b.advance x).2 = false) :
    Step.retires b (b.retireSlot l st x).1 l st x (b.retireSlot l st x).2 := by
  have hcommit : b.commitSlot x = (b, x) := by rw [State.commitSlot, hk]
  have hdropped : b.specDropped x (b.ctx x.ctx).part = b := by rw [State.specDropped, hk]
  have hback : b.specBack x (b.ctx x.ctx).part = b := by rw [State.specBack, hk]
  have hopen : ((b.ctx x.ctx).st == CtxState.closed) = false := beq_eq_false_iff_ne.mpr ha
  have hempty : x.tokens.isEmpty = false := List.isEmpty_eq_false_iff.mpr ht
  have hretires : b.retireSlot l st x =
      ((b.slotHist x).slotPut x (b.advance x).1 (b.ctx x.ctx).part false).slotWorks b l st x (b.ctx x.ctx) false := by
    rw [retireSlot_eq hcommit, hdropped]
    unfold State.slotRetires
    rw [hopen, hd, hback, hlate]
    rfl
  have haux : ((b.slotHist x).auxOf x.ctx).redo = [] := by rw [State.auxOf, slotHist_ctx_aux.2]; exact hr
  obtain ⟨honly, hstanding⟩ := slotPut_spec (p := (b.ctx x.ctx).part) hp haux
  rw [hretires]
  generalize (b.slotHist x).slotPut x (b.advance x).1 (b.ctx x.ctx).part false = v at honly hstanding ⊢
  have hjrnl := twinOnly_jrnlCtx (s := v) (i := x.ctx) (rs := v.slotRecs st x (b.ctx x.ctx))
  refine ⟨?_, ?_, ?_⟩
  · exact ctxsOnly_trans (ctxsOnly_trans ctxsOnly_slotHist honly) (ctxsOnly_trans (ctxsOnly_of_twinOnly hjrnl) rfl)
  · exact (congrArg Ctx.standing (ctx_of_twinOnly (j := x.ctx) hjrnl)).trans hstanding
  · show (if x.tokens.isEmpty then [] else _) = _
    rw [hempty]
    rfl

/-! ## What follows the retire of the slots -/

/-- The step ends: its counts are written and the placement is free. -/
def State.stepOver (s : State) (l : Nat) (st : Step) (h0 : Nat) : State :=
  let s2 := (if s.twin.heldOut.length = h0 then s else s.bump Reg.TWN_CNT Fld.TWN_CNT_HELD).writeStats l st
  let measured : Rat := ((s2.now - st.builtAt : Nat) : Rat)
  let s3 := if 2000000 < measured then s2.bump (Reg.SCH_QSTAT (s2.place l).home) Fld.SCH_QSTAT_OVERRUN else s2
  let x := s3.place l
  (s3.setPlace l { x with step := none, a := x.a + (measured - st.predicted) / 8, turnDone := x.turnDone + 1 }).dropStream l

/-- What follows the retire of the slots: their completions, the end of the step, and the cairn. -/
def State.afterSlots (r : State × List (Nat × Out)) (l : Nat) (st : Step) (h0 : Nat) : State :=
  (((((r.1.postStep r.2).noteAll st.notBuilt).stepOver l st h0).retirePops st.slots).endStep l st.slots).cairn l

theorem retire_eq : s.retire l st = State.afterSlots (st.slots.foldl (fun (a : State × List (Nat × Out)) x =>
    ((a.1.retireSlot l st x).1, a.2 ++ (a.1.retireSlot l st x).2)) (s, [])) l st s.twin.heldOut.length := by
  unfold State.retire State.afterSlots State.stepOver
  rfl

theorem retire_one (hst : st.slots = [x]) : s.retire l st = State.afterSlots (s.retireSlot l st x) l st s.twin.heldOut.length := by
  rw [retire_eq, hst, List.foldl_cons, List.foldl_nil, List.nil_append]

theorem mild_stepOver {h0 : Nat} : Mild s (s.stepOver l st h0) ∧ ((s.stepOver l st h0).place l).step = none := by
  unfold State.stepOver
  dsimp only
  generalize hv : State.writeStats _ l st = v
  have hwritten : Mild s v := hv ▸ mild_trans (mild_ite (fun _ => mild_refl) fun _ => mild_bump) mild_writeStats
  generalize hw : ite ((2000000 : Rat) < _) _ v = w
  have hcounted : Mild s w := mild_trans hwritten (hw ▸ mild_ite (fun _ => mild_bump) fun _ => mild_refl)
  generalize hz : w.setPlace l _ = z
  have hended : Mild w z := hz ▸ mild_setPlace ⟨rfl, rfl, rfl, rfl, rfl, fun _ => rfl⟩
  have hidle : (z.place l).step = none := by rw [← hz, State.place_setPlace_self]
  exact ⟨mild_trans (mild_trans hcounted hended) mild_dropStream, (mild_dropStream.place l).idle hidle⟩

/-- After its completion the end of a step is mild. -/
theorem mild_stepEnd {h0 : Nat} {notes : List (Nat × Nat)} (hset : (s.place l).settled) (hp : (s.place l).present = true)
    (hh : (s.ctx x.ctx).held = []) (ht : t = ((((s.noteAll notes).stepOver l st h0).retirePops [x]).endStep l [x]).cairn l) :
    Mild s t ∧ (t.place l).step = none := by
  obtain ⟨hover, hidle⟩ := mild_stepOver (s := s.noteAll notes) (l := l) (st := st) (h0 := h0)
  generalize hv : (s.noteAll notes).stepOver l st h0 = v at hover hidle ht
  have hpopped : Mild s (v.retirePops [x]) := mild_trans (mild_trans mild_noteAll hover) mild_retirePops
  have hheld : ((v.retirePops [x]).ctx x.ctx).held = [] := by
    have h := hpopped.ctx x.ctx
    simp only [Ctx.standing, Prod.mk.injEq] at h
    obtain ⟨-, -, -, -, h⟩ := h
    exact h.trans hh
  have hended : Mild s ((v.retirePops [x]).endStep l [x]) := mild_trans hpopped (mild_endStep hheld)
  have hidle2 : (((v.retirePops [x]).endStep l [x]).place l).step = none := ((mild_trans mild_retirePops (mild_endStep hheld)).place l).idle hidle
  generalize (v.retirePops [x]).endStep l [x] = w at hended hidle2 ht
  have hsettled : (w.place l).settled := ⟨(hended.place l).change.trans hset.1, (hended.place l).removing.trans hset.2⟩
  have hcairn : Mild w (w.cairn l) := mild_cairn hsettled ((hended.place l).present.trans hp)
  rw [ht]
  exact ⟨mild_trans hended hcairn, (hcairn.place l).idle hidle2⟩

/-! ## The completion -/

theorem postStep_one {k : Nat} {o : Out} (hw : s.twinSt ≠ 2) : s.postStep [(k, o)] = s.post (k / 32) (k % 32) { o with irq := true } := by
  have hnot : (s.flag Reg.TWN_STAT Fld.TWN_STAT_JBC && decide (s.twinSt = 2) && decide (s.twin.acked < s.twin.sentSeq)) = false := by
    rw [decide_eq_false hw, Bool.and_false, Bool.false_and]
  have hposted (o : Out) : s.postHeld (k / 32) (k % 32) o = s.post (k / 32) (k % 32) o := by
    unfold State.postHeld
    dsimp only
    rw [hnot]
    rfl
  exact hposted _

theorem pairKey_parts {p r : Nat} (hr : r < 32) : pairKey p r / 32 = p ∧ pairKey p r % 32 = r := by
  unfold pairKey
  omega

/-- An entry posted stands in the queue of a pair that is on. -/
theorem post_out {f r : Nat} {o : Out} (h : s.pairOn f r = true) : ∃ n, { o with since := n } ∈ ((s.post f r o).pair f r).out := by
  refine ⟨s.now, ?_⟩
  have hpair : (s.post f r o).pair f r = { s.pair f r with out := (s.pair f r).out ++ [{ o with since := s.now }] } := by
    rw [State.post, h]
    exact State.pair_setPair_self
  rw [hpair]
  exact List.mem_append_right _ List.mem_cons_self

/-- The completion of a slot with work, as it is handed to its ring. -/
def State.slotSent (s : State) (l : Nat) (st : Step) (x : Slot) : Out :=
  { (s.slotOut l st x (s.ctx x.ctx) (slotStatus false st) x.tokens).2 with irq := true }

/-- A step with one decoding context retires (R27, R220, R293). -/
theorem retire_decode (hset : (b.place l).settled) (hp : (b.place l).present = true) (hw : b.twinSt ≠ 2) (hslots : st.slots = [x])
    (hk : x.kind = .decode) (hd : x.discard = none) (ht : x.tokens = [tok]) (hc : (b.ctx x.ctx).st = .active) (hheld : (b.ctx x.ctx).held = [])
    (hr : (b.auxOf x.ctx).redo = []) (hpair : (b.ctx x.ctx).pair < 32) (hon : b.pairOn (b.ctx x.ctx).part (b.ctx x.ctx).pair = true)
    (hadv : (b.advance x).1.held = (b.ctx x.ctx).held) (hvalid : (b.advance x).1.pvalid = true) (hlate : (b.advance x).2 = false) :
    ((b.retire l st).place l).step = none ∧ ((b.retire l st).ctx x.ctx).standing = (b.advance x).1.standing ∧
      ∃ o ∈ ((b.retire l st).pair (b.ctx x.ctx).part (b.ctx x.ctx).pair).out, o.isReply = false ∧ o.place = some l ∧
        o.bytes = (b.slotSent l st x).bytes := by
  have hne : x.tokens ≠ [] := by rw [ht]; exact List.cons_ne_nil _ _
  have hretires := retireSlot_decode (l := l) (st := st) hk hd hne (by rw [hc]; decide) hr hvalid hlate
  rw [retire_one hslots]
  generalize b.retireSlot l st x = r at hretires ⊢
  obtain ⟨v, os⟩ := r
  obtain ⟨honly, hstanding, houts⟩ := hretires
  dsimp only at honly hstanding houts
  have htwin : v.twinSt ≠ 2 := by
    rw [State.twinSt, State.fld_of_regs (congrArg State.regs honly)]
    exact hw
  have hpairOn : v.pairOn (b.ctx x.ctx).part (b.ctx x.ctx).pair = true := by
    rw [State.pairOn, State.flag, State.fld_of_regs (congrArg State.regs honly)]
    exact hon
  have hplace : v.place l = b.place l := by rw [State.place, State.place, honly]
  obtain ⟨hkey1, hkey2⟩ := pairKey_parts (p := (b.ctx x.ctx).part) hpair
  have hposted : v.postStep os = v.post (b.ctx x.ctx).part (b.ctx x.ctx).pair (b.slotSent l st x) := by
    rw [houts]
    refine (postStep_one htwin).trans ?_
    show v.post (pairKey _ _ / 32) (pairKey _ _ % 32) _ = _
    rw [hkey1, hkey2]
    rfl
  obtain ⟨n, hin⟩ := post_out (o := b.slotSent l st x) hpairOn
  have hpost : Mild v (v.post (b.ctx x.ctx).part (b.ctx x.ctx).pair (b.slotSent l st x)) := mild_post
  rw [State.afterSlots, hposted, hslots]
  generalize v.post (b.ctx x.ctx).part (b.ctx x.ctx).pair _ = w at hin hpost ⊢
  have hwset : (w.place l).settled := ⟨(hpost.place l).change.trans (hplace ▸ hset.1), (hpost.place l).removing.trans (hplace ▸ hset.2)⟩
  have hwthere : (w.place l).present = true := (hpost.place l).present.trans (hplace ▸ hp)
  have hwstanding : (w.ctx x.ctx).standing = (b.advance x).1.standing := (hpost.ctx x.ctx).trans hstanding
  have hwheld : (w.ctx x.ctx).held = [] := by
    have h := congrArg (fun y => y.2.2.2.2) hwstanding
    exact h.trans (hadv.trans hheld)
  obtain ⟨hmild, hidle⟩ := mild_stepEnd (notes := st.notBuilt) (h0 := b.twin.heldOut.length) (st := st) hwset hwthere hwheld rfl
  refine ⟨hidle, (hmild.ctx x.ctx).trans hwstanding, _, (hmild.out _).subset hin, rfl, rfl, rfl⟩
/-- A decoding context advances by its positions and is never late without a deadline (R198, R220, R235). -/
theorem advance_decode (hk : x.kind = .decode) (he : x.emits = true) (ht : x.tokens = [tok]) (hdl : (b.ctx x.ctx).deadline = 0) :
    (b.advance x).1.standing = ((b.ctx x.ctx).pos + x.npos, tok, true,
      (if (b.ctx x.ctx).genLeft = 0xFFFF then (b.ctx x.ctx).genLeft else (b.ctx x.ctx).genLeft - 1), (b.ctx x.ctx).held) ∧
      (b.advance x).2 = false := by
  unfold State.advance
  dsimp only
  rw [hk, he, ht, hdl]
  exact ⟨rfl, rfl⟩

theorem slotSent_bytes (hk : x.kind = .decode) (ht : x.tokens = [tok]) : (b.slotSent l st x).bytes =
    complBytes x.ctx (if st.escalated then stEscalated else stOK) [tok] x.lps (x.p0 + x.npos) st.gen l b.time := by
  unfold State.slotSent State.slotOut
  dsimp only
  rw [hk, ht]
  rfl

theorem exec_stepRetire {at_ : Nat} (hb : b = s.tick at_) (hl : l < 1024) (hst : (b.place l).step = some st) (hdone : b.stepComplete l st = true)
    (hsent : st.relaySent = true) (hout : st.relayOut = 0) (hfit : b.buffered (b.place l).home + st.outs ≤ 16384) :
    exec (.stepRetire l at_) s = .next (b.retire l st) := by
  show execStepRetire l at_ s = _
  unfold execStepRetire
  dsimp only
  rw [← hb, decide_eq_true hl, hst]
  dsimp only
  rw [hdone, hsent, if_neg (by decide), if_pos rfl, hst]
  dsimp only
  rw [decide_eq_true hout, decide_eq_true hfit, Bool.or_true, Bool.and_true, if_pos rfl]
  rfl

theorem stepComplete_one (hslots : st.slots = [x]) (he : x.emits = true) (hd : x.done = true) : b.stepComplete l st = true := by
  rw [State.stepComplete, hslots, List.all_cons, List.all_cons, he, hd]
  rfl

end Sys2Proof.Machine

namespace Sys2Proof

open Machine

/-- Settles O41: selection, the tiles' start and the end of a step keep time, models, placements' settings and the standing of contexts, so that
a step holds what was in force before its build, and a retired context what its slot gave it. -/
theorem stepsAreBuiltSampledAndRetired : Obligations.StepsAreBuiltSampledAndRetired := by
  refine ⟨?_, ?_, ?_, ?_⟩
  · intro s l at_ b c a hb hl hsliced hc ha
    obtain rfl : c = b.unstalled l := hc
    subst hb
    have hcfg : (((s.tick at_).unstalled l).place l).cfg.sliced = false := by
      rw [(mild_unstalled.place l).cfg]
      exact hsliced
    rw [exec_stepBuild hl hsliced]
    refine ⟨fun hm => by rw [builds_of_not_mayStep hm], fun hm hp hs => ?_, fun hm hp hs => ?_⟩
    · rw [builds_of_mayStep hm hp hcfg, hs]
      rfl
    · rw [builds_of_mayStep hm hp hcfg, hs, if_neg Bool.false_ne_true, build_eq, ← ha]
      refine ⟨fun hnone => by rw [hnone]; rfl, fun hsome => ?_⟩
      rw [List.isEmpty_eq_false_iff.mpr hsome]
      have hchosen : Mild (s.tick at_) (a.readied l) := by
        rw [ha]
        exact mild_trans (mild_trans mild_unstalled mild_decideHold) (mild_trans mild_select mild_readied)
      obtain ⟨st, hst⟩ := begins_spec (l := l) (a := a) hchosen
      exact ⟨_, st, rfl, hst⟩
  · intro s l i logits st x hl hi hst hx he hd
    rw [exec_sample hl hi hst hx he hd]
    refine ⟨fun hp => ?_, fun hp mask hm => ?_⟩
    · obtain ⟨st', y, h⟩ := sampleSlot_bad (logits := logits) hst hx hp rfl
      exact ⟨_, st', y, rfl, h⟩
    · obtain ⟨st', y, h⟩ := sampleSlot_ok (logits := logits) hst hx hp hm rfl
      exact ⟨_, st', y, rfl, h⟩
  · intro s l at_ b st x tok c hb hl hst hpresent hremoving hchange htwin hrelay hout hfit hslots hkind hdiscard hemits hdone htokens _ hc hactive
      hheld hdeadline hredo hpair hon
    subst hc
    obtain ⟨hstanding, hlate⟩ := advance_decode hkind hemits htokens hdeadline
    have hparts := hstanding
    simp only [Ctx.standing, Prod.mk.injEq] at hparts
    obtain ⟨-, -, hvalid, -, hkept⟩ := hparts
    obtain ⟨hidle, hctx, o, ho, hreply, hplace, hbytes⟩ := retire_decode ⟨hchange, hremoving⟩ hpresent htwin hslots hkind hdiscard htokens hactive
      hheld hredo hpair hon hkept hvalid hlate
    refine ⟨_, exec_stepRetire hb hl hst (stepComplete_one hslots hemits hdone) hrelay hout hfit, hidle, ?_⟩
    rw [hstanding] at hctx
    simp only [Ctx.standing, Prod.mk.injEq] at hctx
    obtain ⟨hpos, hpending, hpvalid, hgen, -⟩ := hctx
    exact ⟨hpos, hpending, hpvalid, hgen, o, ho, hreply, hplace, hbytes.trans (slotSent_bytes hkind htokens)⟩
  · intro s l at_ b hb hl
    rw [exec_completionBufferStall hl, ← hb]
    refine ⟨fun ⟨o, ho, hlong⟩ => ?_, fun hnone => ?_⟩
    · rw [if_pos (List.any_eq_true.mpr ⟨o, ho, decide_eq_true hlong⟩)]
    · rw [if_neg ?_]
      rw [List.any_eq_true]
      rintro ⟨o, ho, hlong⟩
      exact absurd (of_decide_eq_true hlong) (Nat.not_lt.mpr (hnone o ho))

end Sys2Proof

end
